-- ==== Sys2Proof/Word.lean ====
section
/-! DEFINITION. Word and byte types of the KLN4 (R7, R8): bit vectors only for what the manual treats as bits. -/

namespace Sys2Proof

/-- One byte of memory, of a descriptor or of a flit. -/
abbrev Byte := BitVec 8
/-- A 16-bit mask or generation. -/
abbrev W16 := BitVec 16
/-- A 32-bit register, an FP32 value in its binary32 encoding (R28), or an event word. -/
abbrev W32 := BitVec 32
/-- A 64-bit queue word, command word or counter (R10). -/
abbrev W64 := BitVec 64

end Sys2Proof
end

