-- ==== Sys2Proof/Syntax.lean ====
section
/-! DEFINITION. The commands of the KLN4 as a block: one constructor of Instr for each row of spec/opcode_table.json, and the operand types they carry. -/

namespace Sys2Proof

/-- The side from which a register page or a command register is reached (R463, R464):
region d of the physical function's BAR0, or virtual function n. -/
inductive View where
  | pf (region : Fin 64)
  | vf (n : Fin 64)
deriving DecidableEq, Repr, Inhabited

/-- The base address register a register write goes to (R406). -/
inductive Bar where
  | bar0
  | bar2
deriving DecidableEq, Repr, Inhabited

/-- The MIGRATION slabs that the device issues itself (R292): Cooper (R133), the tier queue (R295),
Carter (R232), the key sweep (R444), and the preemption save and restore (R327). -/
inductive DevSlab where
  | cooper
  | tierQueue
  | carter
  | sweep
  | save
  | restore
deriving DecidableEq, Repr, Inhabited

/-- A slab of a domain: one that the domain submitted, named by its SLAB_TAG (R22), or one that the device issued. -/
inductive SlabRef where
  | user (tag : W32)
  | device (k : DevSlab)
deriving DecidableEq, Repr, Inhabited

/-- One error of storage that a slab or a remote access meets as it reads (R261, R480, R520):
the number of wrong symbols of a stacked-memory block (R260), or a wrong word of an on-die SRAM. -/
inductive ReadError where
  /-- block of the domain's own range, by byte address, with `symbols` wrong symbols -/
  | domainBlock (addr : Nat) (symbols : Nat)
  /-- block of base copy `copy`, by byte offset in the shard image -/
  | baseBlock (copy : Fin 2) (offset : Nat) (symbols : Nat)
  /-- 64-bit word of the commons, by global byte offset; double: uncorrectable -/
  | commonsWord (offset : Nat) (double : Bool)
  /-- 64-bit word of an array's operand buffer -/
  | operandBuffer (array : Nat) (double : Bool)
  /-- word of an array's accumulators, entry `entry` -/
  | accumulator (array : Nat) (entry : Nat) (double : Bool)
deriving DecidableEq, Repr, Inhabited

/-- A fabric transaction as it reaches its destination (R377): the partition tag of its flit, its header and its data slots. -/
structure Txn where
  ptag : W16
  nblk : Nat
  dst : Nat
  src : Nat
  status : Nat
  addr : Nat
  sfmt : Nat
  stype : Nat
  aop : Nat
  txid : W32
  masks : List W16
  slots : List (List Byte)
deriving DecidableEq, Repr, Inhabited

/-- The payload of a TICK flit (R391). -/
structure TickSymbol where
  tick : W64
  latchNs : Nat
  stretchNs : Nat
  master : Nat
  len : Nat
  settleUs : Nat
  gdUs : Nat
  cutUs : Nat
  newLen : Nat
  newSettleUs : Nat
  newGdUs : Nat
  newCutUs : Nat
  newFromTick : W64
  accPs : Nat
deriving DecidableEq, Repr, Inhabited

/-- The payload of a DONE flit (R392): STAMP, the device-scope stretch, its largest cause and the device's address. -/
structure DoneToken where
  tick : W64
  stampNs : Nat
  stretchNs : Nat
  cause : Nat
  device : Nat
deriving DecidableEq, Repr, Inhabited

/-- What happened to one 8-byte word of a write TLP to a submission aperture (R410). -/
inductive TlpWord where
  | whole (w : W64)
  | incomplete
deriving DecidableEq, Repr, Inhabited

/-- What arrives at a time base, ns. -/
structure Timed (α : Type) where
  what : α
  nowNs : Nat
deriving DecidableEq, Repr, Inhabited

/-- How a host read for Carter ended (R404). -/
inductive HostReadResult where
  | data (bytes : List Byte)
  | timeout
  | errorStatus
deriving DecidableEq, Repr, Inhabited

/-- Where a fetched stripe came from (R233). -/
inductive StripeSource where
  | peer
  | flash
  | host
deriving DecidableEq, Repr, Inhabited

/-- The items of a memory base die's maintenance queue, by the priorities of R276. -/
inductive MaintItem where
  | laneRepair (channel lane : Nat)
  | hardRepair (channel row : Nat)
  | softRepair (channel row : Nat)
  | retrain (channel : Nat)
  | rewrite (channel : Nat) (blocks : Nat)
  | patrol (channel : Nat) (units : Nat)
deriving DecidableEq, Repr, Inhabited

/-- How a maintenance item ended (R276, R279, R253). -/
inductive MaintOutcome where
  | done
  /-- a row repair that finds no spare row left in its bank; the frames that hold part of the row -/
  | noSpareRow (frames : List Nat)
  /-- a retraining that fails on a lane (R253) -/
  | trainingFailed (lane : Nat)
deriving DecidableEq, Repr, Inhabited

/-- The end of a maintenance item: how it ended, and what its reads met, by domain (R261, R276). -/
structure MaintEnd where
  outcome : MaintOutcome
  errors : List (Fin 64 × ReadError) := []
deriving DecidableEq, Repr, Inhabited

/-- What makes a memory base die retrain a channel in an emergency (R278). -/
inductive RetrainCause where
  | eyeMargin
  | laneBits (lane : Nat)
deriving DecidableEq, Repr, Inhabited

/-- An emergency of a channel: its cause, and the lane that fails in the retraining, if one does (R253, R278). -/
structure Emergency where
  cause : RetrainCause
  failedLane : Option Nat := none
deriving DecidableEq, Repr, Inhabited

/-- The copy slot that a BUILD fills, and what the reads of its manifest meet (R228, R261). -/
structure BuildOf where
  copy : Bool
  errors : List ReadError := []
deriving DecidableEq, Repr, Inhabited

/-- What Badger's monitors and ring oscillators read in a window (R352). -/
structure BadgerReading where
  monitors : List Nat
  rings : List Nat
deriving DecidableEq, Repr, Inhabited

/-- The key-exchange messages of R397. -/
inductive KeyMessage where
  /-- the initiator's ML-KEM encapsulation key and P-384 public key -/
  | initiate (ek ecdh : List Byte)
  /-- the responder's ML-KEM ciphertext and P-384 public key -/
  | respond (ct ecdh : List Byte)
  /-- a signature over the transcript hash; `slh` tells whether the SLH-DSA signature comes with it; `valid` is the verdict of its verification -/
  | signature (slh : Bool) (valid : Bool)
  /-- the first flit under the new KEYID: the switch of R398 -/
  | switched
deriving DecidableEq, Repr, Inhabited

/-- The PLDM requests that the management endpoint answers (R497, R513). -/
inductive PldmQuery where
  | resetCause
  | temperatures
  | inputPower
  | eventLog
deriving DecidableEq, Repr, Inhabited

/-- A device reset without power loss (R517). -/
inductive ResetCause where
  | perst
  | pfFlr
deriving DecidableEq, Repr, Inhabited

/-- The in-flight NVMe work of a domain that a command names (R297, R299): a page move or demand read, or the Flush of its extent. -/
inductive NvmeWork where
  | pageRead (page : Nat)
  | pageWrite (page : Nat)
  | stripeRead (copy : Fin 2) (stripe : Nat)
  | flush
deriving DecidableEq, Repr, Inhabited

/-- The I3C common commands that assign a dynamic address (R497). -/
inductive I3cAssign where
  | setdasa (static_ : Nat) (dynamic : Nat)
  | entdaa (dynamic : Nat)
deriving DecidableEq, Repr, Inhabited

/-- The commands, in the order of spec/opcode_table.json. In a command that writes a command register,
`posted` says whether the previous result of that register has been posted when the write arrives (R123),
and `rsv` holds the reserved bits of the command word. Times are nanoseconds of the device's time base. -/
inductive Instr where
  -- host attachment (15)
  | submitWord (fn : Fin 64) (words : List TlpWord) (poisoned : Bool)
  | queueReset (fn : Fin 64)
  | complRead (fn : Fin 64)
  | hostWindowWrite (fn : Fin 64) (offset : Nat) (bytes : List Byte) (poisoned : Bool)
  | hostWindowRead (fn : Fin 64) (offset : Nat) (length : Nat)
  | msixUnmask (fn : Fin 64) (vector : Nat)
  -- the tick (12, 13)
  | planCutoff (nowNs : Nat)
  | epochDecision
  | planLatch (nowNs : Nat)
  | slabStart (d : Fin 64) (slab : SlabRef) (nowNs : Nat) (errors : List ReadError)
  | slabPause (d : Fin 64) (slab : SlabRef) (nowNs : Nat)
  | slabComplete (d : Fin 64) (slab : SlabRef) (nowNs : Nat)
  | runPhaseEnd (nowNs : Nat)
  | settleStart (nowNs : Nat)
  | baseRefetchDone (copy : Fin 2) (stripe : Nat) (source : StripeSource) (bytes : List Byte) (nowNs : Nat)
  -- stacked memory (10)
  | maintWindowStart
  | maintItemEnd (stack : Fin 8) (item : MaintItem) (ended : MaintEnd)
  | routineRetrainDue (stack : Fin 8) (channel : Fin 32)
  | maintStarved (stack : Fin 8)
  | emergencyRetrain (stack : Fin 8) (channel : Fin 32) (emergency : Emergency) (stallNs : Nat) (inWindow : Bool)
  | refreshPause (nowNs : Nat) (temps : List Nat)
  | sharedFetchHoldExpire (d : Fin 64) (tag : W32)
  -- the tick tree (12, 14)
  | tickSymbolReceive (port : Fin 18) (sym : TickSymbol) (nowNs : Nat)
  | doneTokenReceive (port : Fin 18) (token : DoneToken) (nowNs : Nat)
  | tickStart (nowNs : Nat)
  | tickMasterTimeout (nowNs : Nat)
  | tickRefLoss
  -- fabric training and links (14, 19)
  | fabricTrainingStart (nowNs : Nat)
  | portStageTimeout (port : Fin 18)
  | portTrainingDone (port : Fin 18) (lanes : BitVec 8) (peerDevice peerPort : Nat) (delayPs eyeMv eyeLane : Nat)
  | prioOffer (port : Fin 18) (device prio : Nat)
  | masterElection (nowNs : Nat)
  | laneFail (port : Fin 18) (lane : Fin 8)
  | flitReceive (port : Fin 18) (bytes : List Byte) (fecOk : Bool) (errors : List ReadError)
  | retryRequest (port : Fin 18) (seq : Nat)
  | keyExchangeMessage (port : Fin 18) (msg : KeyMessage)
  | rekey (port : Fin 18)
  | rekeyStall (port : Fin 18)
  -- fabric transactions (14)
  | rdReq (t : Txn) (errors : List ReadError)
  | rdResp (t : Txn)
  | wr (t : Txn) (errors : List ReadError)
  | wrAck (t : Txn)
  | radd (t : Txn) (errors : List ReadError)
  | raddAck (t : Txn)
  | atom (t : Txn) (errors : List ReadError)
  | atomResp (t : Txn)
  | collData (t : Txn) (step : Nat) (ring : Bool)
  | stripeReq (t : Txn) (errors : List ReadError)
  | stripeResp (t : Timed Txn)
  | colTimeout (d : Fin 64) (collId : W32)
  -- base weights (09)
  | stripeFetchDone (copy : Fin 2) (stripe : Nat) (source : StripeSource) (bytes : Timed (List Byte))
  | hostReadCompletion (copy : Fin 2) (stripe : Nat) (result : Timed HostReadResult)
  -- variants (05)
  | claim (v : View) (posted : Bool) (slot : BitVec 14) (gen : W16) (rsv : BitVec 30)
  | load (v : View) (posted : Bool) (slot : BitVec 14) (gen : W16) (rsv : BitVec 30)
  | park (v : View) (posted : Bool) (slot : BitVec 14) (gen : W16) (rsv : BitVec 30)
  | release (v : View) (posted : Bool) (slot : BitVec 14) (gen : W16) (rsv : BitVec 30)
  | stage (v : View) (posted : Bool) (slot : BitVec 14) (gen : W16) (rsv : BitVec 30)
  | unstage (v : View) (posted : Bool) (slot : BitVec 14) (gen : W16) (rsv : BitVec 30)
  | varQuery (v : View) (posted : Bool) (slot : BitVec 14) (gen : W16) (rsv : BitVec 30)
  | expertClaim (v : View) (posted : Bool) (slot : BitVec 14) (gen : W16) (rsv : BitVec 30)
  | expertRelease (v : View) (posted : Bool) (slot : BitVec 14) (gen : W16) (rsv : BitVec 30)
  | flush (v : View) (posted : Bool) (slot : BitVec 14) (gen : W16) (rsv : BitVec 30)
  | loadComplete (slot : BitVec 14)
  | loadFailed (slot : BitVec 14)
  | parkDone (slot : BitVec 14)
  | releaseDone (slot : BitVec 14)
  | stageComplete (slot : BitVec 14)
  -- KV pages (08)
  | seqOpen (v : View) (posted : Bool) (seq : W16) (rsv : BitVec 44)
  | seqClose (v : View) (posted : Bool) (seq : W16) (rsv : BitVec 44)
  | kvpCommit (v : View) (posted : Bool) (seq : W16) (rsv : BitVec 44)
  | kvpQuery (v : View) (posted : Bool) (seq : W16) (rsv : BitVec 44)
  | setDrop (v : View) (posted : Bool) (seq : W16) (rsv : BitVec 44)
  | kvpGeomWrite (v : View) (value : W32)
  -- Carter's commands (09)
  | build (v : View) (posted : Bool) (of : BuildOf) (rsv : BitVec 59)
  | switch (v : View) (posted : Bool) (copy : Bool) (rsv : BitVec 59)
  | abort (v : View) (posted : Bool) (copy : Bool) (rsv : BitVec 59)
  | basStage (v : View) (posted : Bool) (copy : Bool) (rsv : BitVec 59)
  | basUnstage (v : View) (posted : Bool) (copy : Bool) (rsv : BitVec 59)
  | basQuery (v : View) (posted : Bool) (copy : Bool) (rsv : BitVec 59)
  -- tiers and flash (11)
  | moveUp (v : View) (posted : Bool) (page : BitVec 27) (count : W16) (rsv : BitVec 17)
  | evict (v : View) (posted : Bool) (page : BitVec 27) (count : W16) (rsv : BitVec 17)
  | pin (v : View) (posted : Bool) (page : BitVec 27) (count : W16) (rsv : BitVec 17)
  | unpin (v : View) (posted : Bool) (page : BitVec 27) (count : W16) (rsv : BitVec 17)
  | tirQuery (v : View) (posted : Bool) (page : BitVec 27) (count : W16) (rsv : BitVec 17)
  | discard (v : View) (posted : Bool) (page : BitVec 27) (count : W16) (rsv : BitVec 17)
  | relocate (v : View) (posted : Bool) (page : BitVec 27) (count : W16) (rsv : BitVec 17)
  | flushExtent (v : View) (posted : Bool) (page : BitVec 27) (count : W16) (rsv : BitVec 17)
  | flushIssue (d : Fin 64)
  | flushDone (d : Fin 64) (ok : Bool)
  | pageReadDone (d : Fin 64) (page : Nat) (returned : Option (List Byte)) (nowNs : Nat)
  | pageWriteDone (d : Fin 64) (page : Nat)
  | nvmeCommandFail (d : Fin 64) (work : NvmeWork) (stallNs : Nat)
  | nvmeTimeout (d : Fin 64) (work : NvmeWork) (stallNs : Nat)
  | nvmeLinkDown (link : Fin 2)
  -- preemption (12)
  | preempt (posted : Bool) (d : Fin 64) (saveCommons : Bool) (rsv : BitVec 53)
  | resume (posted : Bool) (d : Fin 64) (rsv : BitVec 54)
  -- Locksmith's mailbox (15, 16)
  | create (v : View) (posted : Bool) (d : Fin 64) (rsv : BitVec 50)
  | createComplete (d : Fin 64)
  | resize (v : View) (posted : Bool) (d : Fin 64) (rsv : BitVec 50)
  | destroy (v : View) (posted : Bool) (d : Fin 64) (rsv : BitVec 50)
  | lend (v : View) (posted : Bool) (d : Fin 64) (rsv : BitVec 50)
  | reclaim (v : View) (posted : Bool) (d : Fin 64) (rsv : BitVec 50)
  | mapShared (v : View) (posted : Bool) (d : Fin 64) (rsv : BitVec 50)
  | unmapShared (v : View) (posted : Bool) (d : Fin 64) (rsv : BitVec 50)
  | session (v : View) (posted : Bool) (d : Fin 64) (rsv : BitVec 50)
  | rotate (v : View) (posted : Bool) (d : Fin 64) (rsv : BitVec 50)
  | attest (v : View) (posted : Bool) (d : Fin 64) (rsv : BitVec 50)
  | reportSigned (engine : Fin 3)
  | identity (v : View) (posted : Bool) (d : Fin 64) (rsv : BitVec 50)
  | keyImport (v : View) (posted : Bool) (d : Fin 64) (rsv : BitVec 50)
  | keyDrop (v : View) (posted : Bool) (d : Fin 64) (rsv : BitVec 50)
  | lifecycle (v : View) (posted : Bool) (d : Fin 64) (rsv : BitVec 50)
  | svnCommit (v : View) (posted : Bool) (d : Fin 64) (rsv : BitVec 50)
  | certInstall (v : View) (posted : Bool) (d : Fin 64) (rsv : BitVec 50)
  | heldRequestExecute (d : Fin 64)
  | scrubEnd (d : Fin 64) (nowNs : Nat) (withheldFrames : List Nat) (sramFailUnits : List Nat)
  | memoryKeyDestroy (d : Fin 64)
  | vfFlr (n : Fin 64)
  | vfEnableChange (on : Bool) (numVfs : Nat)
  | pcieLinkChange (speed width : Nat) (dlUp : Bool)
  -- power and bring-up (18, 19)
  | powerApply (mV : Nat)
  | perstRise (baudSel i3cAsel : Fin 4)
  | perstFall (cause : ResetCause)
  | pwrGoodLoss
  | watchdog
  | thermTrip
  | supplyOut (mV : Nat) (below40V : Bool)
  | inputRange (mV : Nat)
  | mbdTrainingDone (failedStacks : List (Fin 8 × Fin 32))
  | imageVerifyDone (slot : Fin 2) (magic : W32) (format keyIndex svn bodyLen : Nat) (digestMatches rsaOk slhOk : Bool) (digest : List Byte)
  | deviceWipeEnd (withheldFrames : List Nat) (sramFailUnits : List Nat) (nowNs : Nat)
  | firmwareRelease
  | pfReady (nowNs : Nat)
  -- ageing and power control (13)
  | badgerMeasure (reading : BadgerReading)
  | measureSkipped
  | measure (v : View)
  | pwrBoundsWrite (v : View) (value : W32)
  | pwrTargetsWrite (v : View) (value : W32)
  -- register writes with a behaviour of their own (17 and the chapters)
  | retrain (v : View) (port : Fin 18)
  | portEnable (v : View) (port : Fin 18) (enable : Bool)
  | recipeWrite (v : View) (row : Fin 7) (value : W32)
  | histSelWrite (v : View) (slot : BitVec 7)
  | histCommit (v : View) (count : BitVec 5)
  | zsValueWrite (v : View) (value : W32)
  | lossScaleWrite (v : View) (value : W32)
  | retainWrite (v : View) (value : W32)
  | regRateWrite (v : View) (value : W32)
  | maintWrite (v : View) (value : W32)
  | tickConfigWrite (v : View) (phase : Bool) (value : W32)
  | shareWrite (v : View) (value : W32)
  | planSlotsWrite (v : View) (value : W32)
  | flashRateWrite (v : View) (value : W32)
  | ptagWrite (v : View) (value : W32)
  | slotTagWrite (v : View) (value : W32)
  | apply (v : View) (d : Fin 64)
  | traceCfgWrite (v : View) (value : W32)
  | blkEventClear (v : View) (page : Byte) (mask : W32)
  | blkEventEnWrite (v : View) (page : Byte) (mask : W32)
  | blkEventSet (v : View) (page : Byte) (mask : W32)
  | blkLock (v : View) (page : Byte)
  | cntModeWrite (v : View) (page : Byte) (mode : BitVec 2)
  | counterLowRead (v : View) (page : Byte) (offset : Nat)
  | registerWrite (v : View) (bar : Bar) (offset : Nat) (size : Nat) (value : W64)
  -- management and the monitor (16, 18)
  | pldmFirmwareUpdate (slot : Fin 2) (offset : Nat) (bytes : List Byte)
  | pldmRequest (query : PldmQuery)
  | id
  | health
  | chal
  | unlock (token : List Byte)
  | peek (page : Byte) (offset : Nat)
  | count (page : Byte) (offset : Nat)
  | trace (index : Nat)
  | poke (page : Byte) (offset : Nat) (value : W32)
  | mem (d : Fin 64) (addr : Nat) (write : Option Byte)
  | domread (d : Fin 64) (page : Byte) (offset : Nat)
  -- rows added later to the table
  | counterHighRead (v : View) (page : Byte) (offset : Nat)
  | signalDetect (port : Fin 18) (nowNs : Nat)
  | oneWayDelayMeasurement (port : Fin 18) (delayPs : Nat)
  | computeDieSensorRead (sensors : List Nat) (pInW : Nat) (vInMv : Nat)
  | rootPortLinkUp (link : Fin 2) (speed width : Nat)
  | pfPowerStateChange (d3hot : Bool)
  | i3cDynamicAddressAssign (how : I3cAssign)
deriving DecidableEq, Repr, Inhabited

end Sys2Proof
end

