-- ==== Sys2Proof/Decode.lean ====
section
/-! DEFINITION. The command that a word spells: the opcode table gives no row any bits, so no word spells one. -/

namespace Sys2Proof

/-- The rows of spec/opcode_table.json carry no bit fields: every command is a register access, a bus transaction or an event. -/
def decodeTableWord (_nbits _w : Nat) : Option Instr := none

end Sys2Proof
end

