-- ==== Sys2Proof/Config.lean ====
section
/-! DEFINITION. What one unit fixes and the manual leaves open: every constant here has no body, so no proof can see its value. -/

namespace Sys2Proof.Config

/-- A 32-bit value that the manual leaves open; the argument is the index of the draw (log 6). -/
opaque freeW32 : Nat → W32

/-- A byte that the manual leaves open, by the index of the draw and the byte's place (log 6). -/
opaque freeByte : Nat → Nat → Byte

/-- A number that the manual leaves open, by the index of the draw (log 6). -/
opaque freeNat : Nat → Nat

/-- 256 bits drawn from the entropy source, by the index of the draw (R441; log 7). -/
opaque draw : Nat → BitVec 256

/-- LKS_CHAL, by the index of its draw (R435; log 7). -/
opaque challenge : Nat → BitVec 256

/-- The unit serial number of the identity record (R438, R403; log 8). -/
opaque serial : W64

/-- The fused salt and tables behind a signature made by the device: the signature bytes over a message by a numbered key (log 7). -/
opaque signature : Nat → List Byte → List Byte

/-- The verdict of verifying a vendor token or certificate: the kind of object and its bytes (R435, R438; log 7). -/
opaque verdict : Nat → List Byte → Bool

/-- The shared secret of a ML-KEM decapsulation with the key pair of a draw index, over a ciphertext (R445, R397; log 7). -/
opaque decapsulate : Nat → List Byte → List Byte

/-- An ML-KEM encapsulation under randomness of a draw index to an encapsulation key: the ciphertext and the shared secret (R397; log 7). -/
opaque encapsulate : Nat → List Byte → List Byte × List Byte

/-- The ECDH P-384 shared secret of the key pair of a draw index with a public key (R397; log 7). -/
opaque ecdh : Nat → List Byte → List Byte

/-- Flits that a receiver's buffer of one VC and tag holds (R369; log 13). -/
opaque bufferFlits : Nat

/-- The public key of the key pair of a draw index (R445, R397; log 7). -/
opaque publicKey : Nat → List Byte

/-- Logical blocks of the drive namespace that a word of NVM_NS_MAP names (R300, R306; log 54). -/
opaque nsBlocks : Nat → Nat

/-- Whether a drive namespace is formatted as R305 asks, so that its mapping attaches (R306; log 54). -/
opaque nsFormatOk : Nat → Bool

/-- ORDER of the unit: 0 KLN4-384-C, 1 KLN4-384-X (R1, R439; log 8). -/
opaque order : Nat

/-- DER bytes of the root certificate (R438, R439; log 7). -/
opaque rootCert : List Byte

/-- The two certification requests of a life-cycle state for a token digest (R438; log 7). -/
opaque certRequests : Nat → List Byte → List Byte

/-- DER bytes of the Alias certificates of a life-cycle state and firmware measurement (R437, R439; log 7). -/
opaque aliasCerts : Nat → List Byte → List Byte

/-- V_req in mV of a step, from the slacks of the 256 path-delay monitors, the 64 ring oscillators, the step and the voltage in force (R352; log 152). -/
opaque requiredMv (monitors rings : List Nat) (step mv k : Nat) : Nat

end Sys2Proof.Config
end

