-- ==== Sys2Proof/Machine/State.lean ====
section
/-! DEFINITION. The state of the KLN4: every register, queue, buffer, counter, mode and pin the manual names, as plain data, and the state after reset. Each field's comment gives what it is, its width or range, the file and rule that name it, and its reset value. -/

namespace Sys2Proof.Machine

/-! ## Outcomes -/

/-- Why the device stops. -/
inductive Fault where
  /-- Raised by no command: the manual stops the block for no command (its resets and power-off are states it goes on from). Safe. -/
  | none
deriving DecidableEq, Repr

/-- Why a command has no meaning here. -/
inductive Refusal where
  /-- A row of the table that has no meaning yet; raised only by an arm of Machine/Dispatch.lean. Safe. -/
  | notModelled (mnemonic : String)
deriving DecidableEq, Repr

/-! ## Power, pins and boot (18, 19, 13, 16) -/

/-- How far the device is from service (R503, R506). -/
inductive BootPhase where
  /-- no supply, or the converter is stopped (R334) -/
  | off
  /-- rails up, held in reset by PERST_N (R504) -/
  | inReset
  /-- between the rise of PERST_N and PF_READY (R506) -/
  | bringUp
  /-- both image slots refused: only the ROM runs (R432) -/
  | romOnly
  /-- the PF answers (last row of R506) -/
  | running
  /-- T_j reached 115 C: nothing runs (R498) -/
  | tripped
deriving DecidableEq, Repr, Inhabited

/-- The life-cycle states of R434, R460. -/
inductive Life where
  | blank
  | devel
  | prod
  | return_
  | retired
deriving DecidableEq, Repr, Inhabited

/-- The verdict on a firmware image slot (R432). -/
inductive SlotVerdict where
  | untried
  | accepted
  | refused
deriving DecidableEq, Repr, Inhabited

/-- Pins, supply and bring-up progress. -/
structure BootState where
  /-- phase of power and bring-up; 18 R503, 19 R506; reset off -/
  phase : BootPhase := .off
  /-- supply voltage V_IN in mV, Nat; 13 R334; reset 0 (no supply) -/
  vInMv : Nat := 0
  /-- level of PERST_N, 1 bit; 18 R497; reset low -/
  perstN : Bool := false
  /-- PWR_GOOD released, 1 bit; 18 R497; reset low -/
  pwrGood : Bool := false
  /-- THERM_TRIP_N pulled low, 1 bit; 18 R497; reset not pulled -/
  thermTrip : Bool := false
  /-- SPI_RESET_N level, 1 bit; 18 R499; reset low -/
  spiResetN : Bool := false
  /-- NV_PERST0_N and NV_PERST1_N level (they rise together when the root port starts training), 1 bit; 18 R497; reset low -/
  nvPerstN : Bool := false
  /-- BAUD_SEL strap as sampled, 2 bits; 18 R501; reset 0 (DESIGN CHOICE, log 12) -/
  baudSel : Nat := 0
  /-- I3C_ASEL strap as sampled, 2 bits; 18 R497; reset 0 (DESIGN CHOICE, log 12) -/
  i3cAsel : Nat := 0
  /-- dynamic I3C address, if assigned, 7 bits; 18 R497; reset none -/
  i3cDynamic : Option Nat := none
  /-- verdict on image slot 0; 16 R432; reset untried -/
  slot0 : SlotVerdict := .untried
  /-- verdict on image slot 1; 16 R432; reset untried -/
  slot1 : SlotVerdict := .untried
  /-- SVN of the accepted image, 32 bits; 16 R431, LKS_SVN FW_SVN R460; reset 0 (DESIGN CHOICE until an image is accepted, log 12) -/
  fwSvn : Nat := 0
  /-- BODY_DIGEST of the accepted image, 48 bytes; 16 R431; reset empty (none accepted) -/
  fwDigest : List Byte := []
  /-- BOOT_SECONDARY of LKS_LIFE, 1 bit; 16 R432; reset 0 -/
  bootSecondary : Bool := false
  /-- BOOT_FAILED of LKS_LIFE, 1 bit; 16 R432; reset 0 -/
  bootFailed : Bool := false
  /-- UNLOCKED of LKS_LIFE, 1 bit; 16 R457; reset 0 -/
  unlocked : Bool := false
  /-- MBD channel training has ended; 19 R506; reset no -/
  mbdTrained : Bool := false
  /-- stacks with a channel that failed training (READY stays 0 in their MEM page); 19 R507; reset none -/
  failedStacks : List Nat := []
  /-- Fuller's full device wipe has ended; 16 R449; reset no -/
  wiped : Bool := false
  /-- firmware is released to the other control processors; 16 R437; reset no -/
  fwReleased : Bool := false
  /-- 128-array units taken out of the pool by a failed SRAM comparison; 19 R507; reset none -/
  badUnits : List Nat := []
  /-- code of the cause of the most recent reset, kept by the converter die; 19 R513; reset 0x0006 POWER_ON -/
  resetCause : Nat := 6
  /-- V_IN stayed above 40 V since the last bring-up, so the cause is kept; 19 R513; reset no -/
  causeKept : Bool := false
  /-- the PLDM event THERM_TRIP of R498 has been sent; 18 R498; reset no -/
  tripSent : Bool := false
  /-- LKS_CHAL, 256 bits, as the index of its draw from the entropy source (Config.challenge); 16 R435; reset draw 0 (random, log 7) -/
  challenge : Nat := 0
deriving DecidableEq, Repr, Inhabited

/-- What is fused or kept in non-volatile storage: no reset and no loss of supply clears it. -/
structure Fuses where
  /-- life-cycle state, 3 bits; 16 R434, LKS_LIFE STATE R460; reset DEVEL (DESIGN CHOICE: fused, log 8) -/
  life : Life := .devel
  /-- PENDING of LKS_LIFE, 3 bits; 16 R434, R460; reset = STATE -/
  pending : Life := .devel
  /-- MIN_SVN, 16 bits; 16 R433; reset 0 (DESIGN CHOICE: fused, log 8) -/
  minSvn : Nat := 0
  /-- raises of MIN_SVN used, of the 64 the fuse allows; 16 R433; reset 0 (DESIGN CHOICE, log 8) -/
  svnRaises : Nat := 0
  /-- revocation bits of the four vendor key pairs, 4 bits; 16 R432; reset none (DESIGN CHOICE, log 8) -/
  revoked : BitVec 4 := 0
  /-- the UDS has been drawn and fused, and not overwritten; 16 R434, R441; reset drawn (DESIGN CHOICE with DEVEL, log 8) -/
  udsPresent : Bool := true
  /-- firmware measurements whose Alias key pairs the SPI NOR holds; 16 R437; reset none (DESIGN CHOICE, log 8) -/
  aliasFor : List (List Byte) := []
  /-- life-cycle states whose DeviceID pairs the SPI NOR holds; 16 R437, R438; reset none (DESIGN CHOICE, log 8) -/
  deviceIdFor : List Life := []
  /-- life-cycle states whose DeviceID pairs are certified (the mark of R438 is clear); 16 R438; reset none -/
  certifiedFor : List Life := []
  /-- the two installed DeviceID certificates; 16 R438; reset none -/
  certs : List (List Byte) := []
  /-- tokens of accepted LIFECYCLE requests, whose SHA-384 digests the SPI NOR records; 16 R438; reset none -/
  tokenLog : List (List Byte) := []
  /-- bytes of the SPI NOR image slots as PLDM wrote them, by flash offset (canonical memory form); 16 R431, R432; reset nothing written (DESIGN CHOICE, log 8) -/
  spi : List Host.Cell := []
  /-- V_plan(k) in mV for k = 0 to 15; 13 R353, BDG_VOLT R359; reset 850 - 16k (fused, DESIGN CHOICE, log 8) -/
  vPlan : List Nat := (List.range 16).map (fun k => 850 - 16 * k)
  /-- V_req(k) in mV of the last measurement; 13 R352, BDG_VOLT R359; reset 800 - 16k (fused, DESIGN CHOICE, log 8) -/
  vReq : List Nat := (List.range 16).map (fun k => 800 - 16 * k)
  /-- ON_SECONDS, 64 bits; 13 R359, survives reset 17 R468; reset 0 (new unit, DESIGN CHOICE, log 8) -/
  onSeconds : W64 := 0
deriving DecidableEq, Repr, Inhabited

/-! ## Host attachment (15, 17) -/

/-- One function's event, enable and counter-copy state for one page (R468, R469). -/
structure PageView where
  /-- BLK_EVENT of this copy, 32 bits; 17 R465, R469; reset 0 -/
  event : W32 := 0
  /-- BLK_EVENT_EN of this copy, 32 bits; 17 R465; reset 0 -/
  enable : W32 := 0
  /-- CNT_MODE of this view, 2 bits; 17 R465, R468; reset 0 -/
  cntMode : BitVec 2 := 0
  /-- frozen copy of the page's eight counters, 64 bits each; 17 R468; reset none taken -/
  frozen : List W64 := []
deriving DecidableEq, Repr, Inhabited

/-- One command-and-result pair with its argument registers (R123, R469). -/
structure CmdPair where
  /-- the argument registers ARG0 to ARG7, 64 bits each; 05 R142, 08 R221, 09 R246, 11 R304, 16 R460; reset 0 -/
  args : List W64 := [0, 0, 0, 0, 0, 0, 0, 0]
  /-- the result register, 64 bits; as above; reset 0 -/
  result : W64 := 0
  /-- LKS_DONE, 64 bits (LKS page only); 16 R460; reset 0 -/
  done : W64 := 0
  /-- a command has been written to this pair since reset (model's own: only then can a result still be unposted); R123; reset no -/
  issued : Bool := false
deriving DecidableEq, Repr, Inhabited

/-- The endpoint (R403) and the PCI page (R482). -/
structure PciState where
  /-- PCI_LINK SPEED, 4 bits; 17 R482; reset 0 -/
  speed : Nat := 0
  /-- PCI_LINK WIDTH, 5 bits; 17 R482; reset 0 -/
  width : Nat := 0
  /-- PCI_LINK DL_UP, 1 bit; 17 R482; reset 0 -/
  dlUp : Bool := false
  /-- VF Enable, 1 bit; 17 R482, 15 R425; reset 0 -/
  vfEnable : Bool := false
  /-- NumVFs, 6 bits; 17 R482; reset 0 -/
  numVfs : Nat := 0
  /-- VFs that answer with Configuration Request Retry Status (PCI_VF_FLR MAP, 64 bits); 17 R482, 15 R425; reset none -/
  flr : List Nat := []
  /-- PCI_LAST_ERR KIND, 8 bits; 17 R482; reset 0 -/
  errKind : Nat := 0
  /-- PCI_LAST_ERR FUNCTION, 6 bits; 17 R482; reset 0 -/
  errFn : Nat := 0
  /-- PCI_LAST_ERR VALID, 1 bit; 17 R482; reset 0 -/
  errValid : Bool := false
  /-- the PF is in D3hot; 15 R403; reset D0 -/
  d3hot : Bool := false
  /-- MSI-X vectors unmasked in a function's table, as 2048 x function + vector, ascending; 15 R403, R408; reset all masked (PRESUMED: PCI Express, log 9) -/
  unmasked : List Nat := []
  /-- MSI-X Pending bits, as 2048 x function + vector, ascending; 15 R406, R408; reset 0 -/
  pendingBits : List Nat := []
  /-- bytes of the MSI-X tables other than the mask bit, as 2^20 x function + offset in the table; 15 R406; reset 0 -/
  msixTable : List Host.Cell := []
  /-- LIMIT of QUEUE_CREDIT at the last message of vector 1, by function; 15 R408; reset 16,384 -/
  creditMsg : List (Nat × Nat) := []
  /-- the endpoint link has trained before (LINK_RETRAINS counts later entries); 17 R483; reset no -/
  trainedOnce : Bool := false
deriving DecidableEq, Repr, Inhabited

/-- A function's pair of word queues (R410 to R417). -/
structure QueueState where
  /-- QUEUE_WRITTEN, 64 bits; 15 R411, R413; reset 0 -/
  written : Nat := 0
  /-- LIMIT of QUEUE_CREDIT, 64 bits; 15 R411, R413; reset 16,384 -/
  limit : Nat := 16384
  /-- HALTED of QUEUE_CTRL, 1 bit; 15 R412; reset 0 -/
  halted : Bool := false
  /-- words of the descriptor that is only partly received, oldest first; 15 R412, 01 R17; reset none -/
  partial_ : List W64 := []
  /-- completion words waiting, oldest first, at most 4,096; 15 R416, R417; reset none -/
  compl : List W64 := []
  /-- completion words reserved and not yet written; 15 R416; reset 0 -/
  reserved : Nat := 0
deriving DecidableEq, Repr, Inhabited

/-! ## Slabs and batches (01, 12) -/

/-- The completion statuses of R415. -/
inductive Status where
  | done
  | staleSlot
  | descInvalid
  | depFailed
  | sharedPoison
  | formatFault
  | ptFault
  | pageStarved
  | baseUnavailable
  | flashError
  | fabricError
  | peerLost
  | dataPoison
  /-- a HINT slab's first failing status, by its code (11 R291) -/
  | hint (code : Nat)
deriving DecidableEq, Repr, Inhabited

/-- Where a slab stands between its arrival and its completion (R17, R26, R316, R325). -/
inductive SlabState where
  /-- complete in the submission queue, not in a plan -/
  | queued
  /-- in the plan of the next tick or of this tick, not started -/
  | planned
  | running
  /-- paused at the end of a run phase, at its horizon or by a preemption (R325, R327) -/
  | paused
  /-- ended; its completion word is due in the settle phase (R26) -/
  | ended
  /-- withheld with SHARED_POISON, awaiting its replay (R26, R243) -/
  | withheld
deriving DecidableEq, Repr, Inhabited

/-- How a slab's AFTER_TAG dependency stands (R24, R25). -/
inductive Dep where
  /-- none, or met -/
  | met
  /-- waits for the slab with this submission number -/
  | waits (order : Nat)
  /-- the predecessor failed -/
  | failed
deriving DecidableEq, Repr, Inhabited

/-- What a slab does when it ends (R47, R178, R108, R168, R183, R188, R164, R386). -/
inductive EndEffect where
  /-- push an amax into a history slot -/
  | pushAmax (slot : Nat) (amax : W32)
  /-- add the VE sums of a NORM pass into the norm word -/
  | addNorm (addr : Nat) (init : Bool) (sums : List W32)
  /-- the pass ends the write of the other buffer of a slot -/
  | commit (slot : Nat)
  /-- close the update step -/
  | stepClose
  /-- mismatches of a VERIFY pass, and the first mismatching block -/
  | verify (count first : Nat)
  /-- a ROOT attempt: accepted or rejected -/
  | rootDone (accepted : Bool)
  /-- entries of these arrays end at +0 (R192, R189) -/
  | clearArrays (first count : Nat)
deriving DecidableEq, Repr, Inhabited

/-- A recipe row's writable fields (R45). -/
structure Recipe where
  /-- FMT, 4 bits; 02 R45; reset per R44 -/
  fmt : Nat
  /-- ESC_EN, 1 bit; 02 R45; reset 0 -/
  escEn : Bool := false
  /-- ESC_SHIFT, 2 bits; 02 R45; reset 1 -/
  escShift : Nat := 1
deriving DecidableEq, Repr, Inhabited

/-- Recipe rows 0 to 6 as R44 gives them at reset. -/
def Recipe.resetRows : List Recipe :=
  [⟨8, false, 1⟩, ⟨8, false, 1⟩, ⟨4, false, 1⟩, ⟨5, false, 1⟩, ⟨2, false, 1⟩, ⟨1, false, 1⟩, ⟨4, false, 1⟩]

/-- A slab's place in the plan of the next tick, from the cut-off to the latch (R309, R318). -/
structure PlanRec where
  /-- planned start and end, offsets in ns from the latch; R318 -/
  start : Rat
  end_ : Rat
  /-- where the portion of the tick ends: the end, the horizon or the end of the run phase; R322, R325 -/
  stop : Rat
  /-- full planned time at the step of the plan, ns; R318 -/
  full : Rat
  /-- planned energy of the portion in the tick, microjoule; R324 -/
  energy : Rat
  /-- ACLK cycles of the portion; R324 -/
  cycles : Rat
  /-- fraction of the slab's work that the portion carries; R325 -/
  frac : Rat := 1
  /-- T_dem of its plan, ns; R296 -/
  demNs : Rat := 0
  /-- demand pages; R296 -/
  demand : List Nat
  /-- arrays whose stationary load is skipped; R69 -/
  reuse : List Nat
  /-- domains that share its base fetch; R16 -/
  shared : List Nat := []
  /-- planned at the staging rate; 05 R131 -/
  staging : Bool := false
deriving DecidableEq, Repr, Inhabited

/-- What of a slab's stored results is put in the place of the results when a demand page fails: bytes of the domain's range and of the commons, poison marks, accumulator entries, and the weight buffers of slots (R76, R299). -/
structure Withheld where
  mem : List Host.Cell := []
  poison : List (Nat × Bool) := []
  commons : List Host.Cell := []
  commonsPoison : List (Nat × Bool) := []
  acc : List (Nat × W32) := []
  /-- slot, and the factors written in its buffer 1 -/
  bufs : List (Nat × List Nat) := []
deriving DecidableEq, Repr, Inhabited

/-- One submitted slab, from the arrival of its last word to its completion. -/
structure Slab where
  /-- position in the domain's submission order; 01 R17, 03 R74 -/
  order : Nat
  /-- the descriptor's words, header first; 01 R22 -/
  words : List W64
  /-- 01 R17 -/
  state : SlabState := .queued
  /-- 01 R24 -/
  dep : Dep := .met
  /-- status decided so far; 15 R415, 19 R515 -/
  status : Status := .done
  /-- planned start and end as offsets in ns from the latch of `tick`; 12 R318 -/
  planStart : Rat := 0
  planEnd : Rat := 0
  /-- fraction of the work that remains at a pause; 12 R325 -/
  remaining : Rat := 1
  /-- full planned time at the step of its plan, ns; 12 R318, R325 -/
  planFull : Rat := 0
  /-- where the portion of the tick ends: the end, the horizon or the end of the run phase; 12 R322, R325 -/
  planStop : Rat := 0
  /-- offset on the plan clock at which it started or resumed in this tick; 12 R314, R316 -/
  startOff : Rat := 0
  /-- planned energy of the portion in this tick, in microjoule; 12 R324, 13 R340 -/
  energy : Rat := 0
  /-- planned ACLK cycles of the portion in this tick; 12 R324 -/
  cycles : Rat := 0
  /-- fraction of its work that the portion of this tick carries; 12 R325 -/
  frac : Rat := 1
  /-- T_dem of its plan, ns; 11 R296 -/
  demNs : Rat := 0
  /-- time base, ns, of the planned start that a POISON_REPLAY deferral took from it; 03 R74 -/
  deferFrom : Option Nat := none
  /-- its place in the plan of the next tick, once the cut-off has built it; 12 R309 -/
  nextPlan : Option PlanRec := none
  /-- tick of the plan that holds the slab; 12 R318 -/
  tick : Nat := 0
  /-- the recipe rows latched for the tick in which it started; 02 R45 -/
  recipe : List Recipe := []
  /-- what it does when it ends -/
  effects : List EndEffect := []
  /-- this run is the replay of a withheld attempt; 01 R26, 09 R243 -/
  replay : Bool := false
  /-- first tick in which the replay may be planned; 09 R243 -/
  replayTick : Nat := 0
  /-- it has paused at least once; 12 R325 -/
  multi : Bool := false
  /-- VERSION_WAIT has been raised for it; 06 R166 -/
  versionWaited : Bool := false
  /-- a completion word is reserved for it; 15 R416 -/
  wordReserved : Bool := false
  /-- the completion word of a withheld attempt is due in the settle phase; 01 R26 -/
  attemptWord : Bool := false
  /-- a further completion word is reserved for its replay while the attempt still runs; 15 R416, 09 R243 -/
  replayWord : Bool := false
  /-- its work has been computed (model's own: a COLLECTIVE or MIGRATION with demand pages computes when the last one has arrived); 11 R296 -/
  ran : Bool := false
  /-- an array SRAM word of the slab was uncorrectable; 17 R480 -/
  sram : Bool := false
  /-- time base, ns, up to which BUSY_ARRAY_CYCLES has counted its hold of its arrays; 17 R481 -/
  busyFrom : Nat := 0
  /-- its credits have been returned; 15 R411 -/
  creditReturned : Bool := false
  /-- arrays of its range whose stationary load is skipped; 03 R69 -/
  reuse : List Nat := []
  /-- restore copy of the entries of its output tiles, as R76 keeps it: key and value -/
  restore : List (Nat × W32) := []
  /-- demand pages of its plan; 11 R296 -/
  demand : List Nat := []
  /-- time base, ns, at which its demand pages are due: its start + T_dem and the stalls since; 0 before its start; 11 R297 -/
  demDue : Nat := 0
  /-- a demand page has failed: its results are withheld; 11 R299 -/
  pageFailed : Bool := false
  /-- what takes the place of its results, and what it then does when it ends, should a demand page fail (model's own: the results stand from the start, log 41); 11 R299 -/
  withheld : Withheld := {}
  failEffects : List EndEffect := []
  /-- tick from which a replay may be planned, fixed when its shared poison was read; 09 R243 -/
  poisonTick : Nat := 0
  /-- loop position of a VECTOR_CHAIN, the vectors written when it last paused, and its row-statistics buffers, by row; 04 R91 -/
  chainPos : Nat := 0
  chainStats : List (W32 × W32 × W32) := []
  /-- loop position and row statistics as a preemption saved them; 04 R91; none -/
  chainSaved : Option (Nat × List (W32 × W32 × W32)) := none
  /-- waiting for these demand pages, stalled by flash; 11 R298 -/
  stalledNs : Nat := 0
  /-- merged into a shared fetch with slabs of these domains; 01 R16 -/
  sharedWith : List Nat := []
  /-- planned at the staging rate; 05 R131, R132 -/
  staging : Bool := false
deriving DecidableEq, Repr, Inhabited

/-- Work that the device issued for a domain (R292), in the plan of this tick. -/
structure DevSlabRec where
  kind : DevSlab
  state : SlabState := .planned
  planStart : Rat := 0
  planEnd : Rat := 0
  planStop : Rat := 0
  /-- full planned time, ns, the fraction of it that remains, and the fraction that the portion of this tick carries; 12 R325 -/
  full : Rat := 0
  remaining : Rat := 1
  frac : Rat := 1
  /-- offset on the plan clock at which it started or resumed in this tick; 12 R314 -/
  startOff : Rat := 0
  /-- planned energy of the portion in this tick, in microjoule; 12 R324, 13 R340 -/
  energy : Rat := 0
  /-- bytes, pages or items it carries -/
  amount : Nat := 0
  /-- tokens and commons bytes of its whole work; 13 R340 -/
  tokens : Nat := 0
  commons : Nat := 0
  /-- the ACLK cycles in its full time, and the MHz at which that time was planned; 12 R325 -/
  cycles : Rat := 0
  mhz : Nat := 2100
  /-- it has paused at least once; 12 R325 -/
  multi : Bool := false
  /-- ns by which flash stalls move it in this tick; 11 R298 -/
  stalledNs : Nat := 0
deriving DecidableEq, Repr, Inhabited

/-- An open batch (R20, R21). -/
structure Batch where
  /-- BATCH_ID, 16 bits; 01 R22 -/
  id : Nat
  /-- latch at which it opened; 01 R21 -/
  openTick : Nat
  /-- base generation stamped; 09 R237 -/
  baseGen : Nat
  /-- slots stamped, with the version; 06 R162 -/
  stamps : List (Nat × W32) := []
  /-- LS_EXP stamped (KLN3 gradient mode); 02 R58 -/
  lsExp : Nat := 31
  /-- admitted while an update step was open: it belongs to the gradient set after it (log 124); 02 R58 -/
  nextSet : Bool := false
  /-- a slab of the batch has started; 01 R23 -/
  started : Bool := false
  /-- its closing slab has completed: it stays open until the next latch releases its stamps; 01 R21 -/
  closed : Bool := false
  /-- a check at the start of its only started slab has failed, so it counts as not opened: released at the next latch unless another of its slabs starts before; 01 R23 -/
  unopened : Bool := false
deriving DecidableEq, Repr, Inhabited

/-! ## Variants (05, 06) -/

/-- The states of a variant slot (R119, R120). -/
inductive SlotState where
  | free
  | held
  | loading
  | live
  | parking
  | releasing
deriving DecidableEq, Repr, Inhabited

/-- A directory entry of a home image (R126). -/
structure DirEntry where
  dIn : Nat
  dOut : Nat
  aOff : Nat
  bOff : Nat
deriving DecidableEq, Repr, Inhabited

/-- Cooper's entry for one slot (R119) and the slot's buffers. -/
structure SlotEntry where
  /-- STATE, 3 bits; 05 R119; reset FREE -/
  state : SlotState := .free
  /-- KIND, 1 bit: adapter expert; 05 R119; reset 0 -/
  expert : Bool := false
  /-- TRAIN, 1 bit; 05 R119; reset 0 -/
  train : Bool := false
  /-- DIRTY, 1 bit; 05 R119; reset 0 -/
  dirty : Bool := false
  /-- RANK8, 6 bits; 05 R119; reset 0 -/
  rank8 : Nat := 0
  /-- GEN, 16 bits; 05 R118; reset 0 -/
  gen : W16 := 0
  /-- PROJ_MASK, 16 bits; 05 R119; reset 0 -/
  projMask : W16 := 0
  /-- FMT, 4 bits; 05 R119; reset 0 -/
  fmt : Nat := 0
  /-- HOME_ADDR, 48 bits; 05 R119; reset 0 -/
  home : Nat := 0
  /-- STAGED_MASK, 16 bits; 05 R119; reset 0 -/
  stagedMask : W16 := 0
  /-- VER_CUR, 32 bits; 05 R119, 06 R161; reset 0 -/
  verCur : W32 := 0
  /-- CUR_BUF, 1 bit; 05 R119; reset 0 -/
  curBuf : Bool := false
  /-- OLD_HELD, 1 bit; 05 R119; reset 0 -/
  oldHeld : Bool := false
  /-- REF_CUR, 9 bits; 05 R119; reset 0 -/
  refCur : Nat := 0
  /-- REF_OLD, 9 bits; 05 R119; reset 0 -/
  refOld : Nat := 0
  /-- STAGED_VER, 32 bits; 05 R119; reset 0 -/
  stagedVer : W32 := 0
  /-- GRANULES, 16 bits; 05 R119; reset 0 -/
  granules : Nat := 0
  /-- tick number of the latch at which VER_CUR committed or the slot entered LIVE; 06 R162, R165; reset 0 -/
  commitTick : Nat := 0
  /-- tick number of the latch at which PARK or RELEASE took effect; 05 R122; reset 0 -/
  leaveTick : Nat := 0
  /-- a completed pass ended the write of the other buffer; 06 R164; reset no -/
  commitDue : Bool := false
  /-- the write-back of PARK is done; 05 R120; reset no -/
  writtenBack : Bool := false
  /-- directory as read at LOAD, by projection index; 05 R126; reset none -/
  dir : List (Nat × DirEntry) := []
  /-- granules of the domain's variant cache that hold weight buffer 0, in the buffer's order, by number in the cache; the bytes stand in the domain's range; 05 R129; reset none -/
  gran0 : List Nat := []
  /-- granules that hold weight buffer 1; 05 R129; reset none -/
  gran1 : List Nat := []
  /-- factors of weight buffer 1 written since the load (before that their content is undefined, 07 R181), as 2 x projection + factor; reset none -/
  buf1Written : List Nat := []
  /-- the 4 KiB units of the staging banks that hold each staged projection, in the copy's order, by number in the domain's staging banks; the bytes stand in the commons; 05 R130; reset none -/
  stagedAt : List (Nat × List Nat) := []
  /-- projections whose restage waits for the end of a preemption; 05 R132; reset none -/
  restageLater : W16 := 0
deriving DecidableEq, Repr, Inhabited

/-- The items of a domain's Cooper queue (R133). -/
inductive CoopKind where
  | load
  | writeBack
  | stage (mask : W16)
  | restage (mask : W16)
deriving DecidableEq, Repr, Inhabited

/-- One item of a Cooper queue. -/
structure CoopItem where
  kind : CoopKind
  slot : Nat
  /-- bytes still to carry, of the size rounded up to 4 KiB -/
  left : Nat
  /-- it waits for the latch at which its state change takes effect (R120, R121) -/
  blocked : Bool := false
deriving DecidableEq, Repr, Inhabited

/-- One bound position of an expert table (R140). -/
structure ExpertPos where
  /-- XSLOT, 14 bits -/
  xslot : Nat := 0
  /-- XGEN, 16 bits; 0: the position is free -/
  xgen : W16 := 0
  /-- PARENT, 14 bits -/
  parent : Nat := 0
  /-- POS_GEN, 16 bits -/
  posGen : W16 := 0
  /-- a binding accepted and not yet at its latch (R139) -/
  pending : Bool := false
deriving DecidableEq, Repr, Inhabited

/-- Cooper's and the VAR page's state of one domain. -/
structure VarDom where
  /-- VAR_LOAD_BUDGET UNITS, 16 bits; 05 R142; reset 0 -/
  loadBudget : Nat := 0
  /-- the Cooper queue, oldest first; 05 R133; reset empty -/
  queue : List CoopItem := []
  /-- expert positions, by 64 x layer + position; 05 R140; reset all free with POS_GEN 0 -/
  experts : List (Nat × ExpertPos) := []
deriving DecidableEq, Repr, Inhabited

/-! ## Update steps and vector statistics (02, 04, 07) -/

/-- The UPD page's state of one domain. -/
structure UpdDom where
  /-- UPD_LOSS_SCALE LS_EXP, 6 bits; 02 R56; reset 31 -/
  lsExp : Nat := 31
  /-- UPD_LOSS_SCALE CLEAN_COUNT, 11 bits; 02 R56; reset 0 -/
  clean : Nat := 0
  /-- UPD_RETAIN FIRST_BANK, 7 bits; 06 R153; reset 0 -/
  retFirst : Nat := 0
  /-- UPD_RETAIN BANKS, 7 bits; 06 R153; reset 0 -/
  retBanks : Nat := 0
  /-- UPD_STEP_STAT OPEN, 1 bit; 07 R168; reset 0 -/
  open_ : Bool := false
  /-- UPD_STEP_STAT OVF, 1 bit; 07 R168; reset 0 -/
  ovf : Bool := false
  /-- UPD_STEP_STAT SKIP, 1 bit; 07 R168; reset 0 -/
  skip : Bool := false
  /-- the first pass of the open step has ended; 07 R168; reset no -/
  firstPassEnded : Bool := false
  /-- zero-streak slots named in the step, with their non-zero marks; 07 R179; reset none -/
  marks : List (Nat × Bool) := []
  /-- LS_EXP of the step's gradient set, from its first micro-batch or from the opening of the step; 02 R58; reset none -/
  setLs : Option Nat := none
  /-- LS_EXP of the gradient set after it, from the first micro-batch admitted while the step is open (log 124); 02 R58; reset none -/
  nextLs : Option Nat := none
  /-- UPD_VERIFY_FIRST BLOCK, 32 bits; 07 R191; reset 0 -/
  verifyFirst : Nat := 0
deriving DecidableEq, Repr, Inhabited

/-- The VEC page's state of one domain. -/
structure VecDom where
  /-- VEC_ZERO_STREAK_LIMIT LIMIT, 10 bits; 02 R60; reset 256 -/
  zsLimit : Nat := 256
  /-- amax history slots 0 to 127, newest entry first, at most 16; 02 R47, 04 R113; reset empty -/
  hist : List (Nat × List W32) := []
  /-- VEC_HIST_SEL SLOT, 7 bits; 04 R113; reset 0 -/
  histSel : Nat := 0
  /-- VEC_HIST_COUNT ENTRIES, 5 bits; 04 R113; reset 0 -/
  histCount : Nat := 0
  /-- VEC_HIST_DATA0 to 15, 32 bits each; 04 R113; reset 0 -/
  histData : List W32 := List.replicate 16 0
  /-- zero-streak counters 0 to 1,023, 32 bits, saturating; 02 R59, 04 R114; reset 0 -/
  zs : List (Nat × Nat) := []
  /-- counters that have raised GRAD_SILENT in the streak in progress; 02 R60; reset none -/
  zsRaised : List Nat := []
  /-- VEC_ZS_SEL SLOT, 10 bits; 04 R114; reset 0 -/
  zsSel : Nat := 0
  /-- VEC_ZS_LAST SLOT, 10 bits; 04 R114; reset 0 -/
  zsLast : Nat := 0
deriving DecidableEq, Repr, Inhabited

/-! ## KV pages (08) -/

/-- The states of a KV sequence (R208). -/
inductive SeqState where
  | closed
  | active
  | starved
deriving DecidableEq, Repr, Inhabited

/-- The pager's state of one sequence (R208). -/
structure SeqEntry where
  /-- STATE, 2 bits; 08 R208; reset CLOSED -/
  state : SeqState := .closed
  /-- DROP_OK, 1 bit; 08 R208; reset 0 -/
  dropOk : Bool := false
  /-- layers, 1 to 64; 08 R208; reset 0 -/
  layers : Nat := 0
  /-- PT_ADDR, 48 bits; 08 R208; reset 0 -/
  ptAddr : Nat := 0
  /-- PT_COLS, 16 bits; 08 R208; reset 0 -/
  ptCols : Nat := 0
  /-- WR of each layer, 32 bits; 08 R208; reset none -/
  wr : List Nat := []
  /-- RF of each layer, 32 bits; 08 R208; reset none -/
  rf : List Nat := []
  /-- tentative rows of each layer, 0 to 16 (TENT is their common number); 08 R208, R210; reset none -/
  tent : List Nat := []
  /-- TENT_BATCH, 16 bits; 08 R208; reset 0 -/
  tentBatch : Nat := 0
  /-- DROP_END, 32 bits; 08 R208; reset 0 -/
  dropEnd : Nat := 0
  /-- LAST_STATUS, 8 bits; 08 R208; reset 0 -/
  lastStatus : Nat := 0
  /-- allocation tick of each column, by column; 08 R214; reset none -/
  colTick : List (Nat × Nat) := []
  /-- KV pages held: 65,536 x layer + column, and the page number; 08 R207; reset none -/
  pages : List (Nat × Nat) := []
  /-- an accepted commit waits for the settle phase: ACCEPT mask; 08 R211; reset none -/
  commitMask : Option Nat := none
  /-- rows that WR gains at the following latch; 08 R211; reset 0 -/
  wrGain : Nat := 0
  /-- rows appended in this tick that were lost; 08 R212; reset 0 -/
  lostRows : Nat := 0
deriving DecidableEq, Repr, Inhabited

/-- An overflow row (R212). -/
structure OvfRow where
  seq : Nat
  layer : Nat
  pos : Nat
  array : Nat
  tentative : Bool
  bytes : List Byte
deriving DecidableEq, Repr, Inhabited

/-- The KVP page's state of one domain. -/
structure KvpDom where
  /-- KVP_GEOM H, 7 bits; 08 R221; reset 0 -/
  h : Nat := 0
  /-- KVP_GEOM D32, 4 bits; 08 R221; reset 0 -/
  d32 : Nat := 0
  /-- KVP_OVF_CFG OVF_FIRST, 13 bits; 08 R221; reset 0 -/
  ovfFirst : Nat := 0
  /-- KVP_OVF_CFG OVF_COUNT, 9 bits; 08 R221; reset 0 -/
  ovfCount : Nat := 0
  /-- KVP_COMMIT_ROWS ROWS, 16 bits; 08 R221; reset 0 -/
  commitRows : Nat := 0
  /-- commit copies already accepted in this tick; 08 R211; reset 0 -/
  commitUsed : Nat := 0
  /-- KVP_DROP_BASE ADDR, 48 bits; 08 R221; reset 0 -/
  dropBase : Nat := 0
  /-- KVP_DROP_CFG SIZE_LOG2, 5 bits; 08 R221; reset 0 -/
  dropLog2 : Nat := 0
  /-- KVP_DROP_HEAD, 32 bits; 08 R221; reset 0 -/
  dropHead : W32 := 0
  /-- KVP_DROP_TAIL, 32 bits; 08 R221; reset 0 -/
  dropTail : W32 := 0
  /-- the sequence table, by sequence number; 08 R208; reset all CLOSED -/
  seqs : List (Nat × SeqEntry) := []
  /-- overflow rows in use; 08 R212; reset none -/
  ovf : List OvfRow := []
deriving DecidableEq, Repr, Inhabited

/-! ## Tiers (11) -/

/-- Residency states of a page (R288). -/
inductive PageState where
  | stacked
  | flash
  | up
  | down
deriving DecidableEq, Repr, Inhabited

/-- A page map entry (R288). -/
structure PageEntry where
  /-- STATE, 2 bits; 11 R288 -/
  state : PageState
  /-- DIRTY, 1 bit; 11 R288; reset 0 -/
  dirty : Bool := false
  /-- FLASH_VALID, 1 bit; 11 R288; reset 0 -/
  flashValid : Bool := false
  /-- ZERO, 1 bit; 11 R288; reset 1 at creation -/
  zero : Bool := true
  /-- page of domain 0 mapped here; 11 R293; reset none -/
  shared : Option Nat := none
  /-- KEY_SLOT of the flash copy, 1 bit; 11 R288; reset 0 -/
  keySlot : Bool := false
  /-- PIN, 8 bits; 11 R288; reset 0 -/
  pin : Nat := 0
  /-- FRAME, 18 bits, of a page that has taken one since creation; the frames of creation stand in `born`; 11 R288; reset none -/
  frame : Option Nat := none
  /-- write count of the flash copy, 32 bits; 11 R301; reset 0 -/
  writeCount : W32 := 0
  /-- 16-byte tag of the flash copy; 11 R301; reset none -/
  tag : List Byte := []
deriving DecidableEq, Repr, Inhabited

/-- An item of a tier queue (R295). -/
inductive TierItem where
  | up (page : Nat)
  | down (page : Nat)
deriving DecidableEq, Repr, Inhabited

/-- The TIR page's state of one domain. -/
structure TirDom where
  /-- TIR_FLASH_RATE RD, 7 bits; 11 R304; reset 0 -/
  rd : Nat := 0
  /-- TIR_FLASH_RATE WR, 7 bits; 11 R304; reset 0 -/
  wr : Nat := 0
  /-- TIR_MIG_BUDGET PAGES, 10 bits; 11 R304; reset 0 -/
  migBudget : Nat := 0
  /-- the page map, by page; pages not listed stand as R288 gives at creation; reset as at creation -/
  pages : List (Nat × PageEntry) := []
  /-- the tier queue, oldest first; 11 R295; reset empty -/
  queue : List TierItem := []
  /-- pages with an NVMe transfer in flight (at most 32 migration entries); 11 R297; reset none -/
  inflight : List Nat := []
  /-- pages whose transfer waits for one of the 32 entries, with the time base at which each began to wait; 11 R297; reset none -/
  waitingFull : List (Nat × Nat) := []
  /-- pages whose command has failed once and is being retried; 11 R299; reset none -/
  retried : List Nat := []
  /-- transfers that a device-issued slab has started, by page: the slab, and the time base of its planned end, ns; 11 R297; reset none -/
  due : List (Nat × DevSlab × Nat) := []
  /-- the frames that the domain holds, as runs: QUOTA and overhead; 15 R420; reset none -/
  frames : List (Nat × Nat) := []
  /-- of them the overhead frames; 15 R420; reset none -/
  ovhFrames : List (Nat × Nat) := []
  /-- those of the pages STACKED at creation, in the pages' order; 11 R288; reset none -/
  born : List (Nat × Nat) := []
  /-- those of the quota that no page holds; 11 R289, R290; reset none -/
  spare : List (Nat × Nat) := []
  /-- a FLUSH_EXTENT is pending: none, or the evictions that must end before the Flush is issued; 11 R303; reset none -/
  flushWait : Option (List Nat) := none
  /-- the Flush has been issued; 11 R303; reset no -/
  flushIssued : Bool := false
  /-- the Flush has failed once and is being retried; 11 R299; reset no -/
  flushRetried : Bool := false
  /-- a partial write has met a poisoned block since a slab of the domain last began to run (the model's own mark of the poison returned to the issuer); 10 R262; reset no -/
  wrPoison : Bool := false
deriving DecidableEq, Repr, Inhabited

/-! ## Collectives (14) -/

/-- A collective operation that has started and not ended, on the collective engine (R384 to R388). -/
structure CollOp where
  /-- COLL_ID, 32 bits -/
  id : W32
  /-- submission number of its slab -/
  order : Nat
  /-- steps received so far on ring 0 and ring 1 -/
  step0 : Nat := 0
  step1 : Nat := 0
  /-- bytes of the chunk of the current step that have arrived, ring 0 and ring 1 -/
  got0 : Nat := 0
  got1 : Nat := 0
  /-- the engine buffer: bytes of the working vector by offset -/
  buffer : List Host.Cell := []
  /-- remote transactions sent and not answered, for PUT, GET, RADD and ATOMIC: TXID and local offset -/
  waiting : List (W32 × Nat) := []
  /-- transfer done -/
  finished : Bool := false
  /-- first failing status of its transactions; 14 R388 -/
  failed : Bool := false
  /-- one more than the tick of its planned end, 0 before its slab has one, and the time base of that end, ns; 14 R388 -/
  sinceTick : Nat := 0
  dueNs : Nat := 0
deriving DecidableEq, Repr, Inhabited

/-- A COLL_DATA flit that waits for its slab (R388). -/
structure CollEarly where
  txn : Txn
  step : Nat
  ring : Bool
  /-- one more than the port by which it came, whose credit it holds; 0 for none; 14 R369, R388 -/
  origin : Nat := 0
deriving DecidableEq, Repr, Inhabited

/-- The COL page's state of one domain. -/
structure ColDom where
  /-- COL_PTAG PTAG, 16 bits; 14 R401; reset 0xFFFF -/
  ptag : Nat := 0xFFFF
  /-- COL_PTAG RD_EN, 1 bit; 14 R401; reset 0 -/
  rdEn : Bool := false
  /-- COL_PTAG WR_EN, 1 bit; 14 R401; reset 0 -/
  wrEn : Bool := false
  /-- COL_TIMEOUT TICKS, 16 bits; 14 R401; reset 16 -/
  timeout : Nat := 16
  /-- COL_LAST_ERR STATUS, 4 bits; 14 R401; reset 0 -/
  errStatus : Nat := 0
  /-- COL_LAST_ERR DEVICE, 15 bits; 14 R401; reset 0 -/
  errDevice : Nat := 0
  /-- COL_LAST_ERR VALID, 1 bit; 14 R401; reset 0 -/
  errValid : Bool := false
  /-- open collectives; 14 R388; reset none -/
  ops : List CollOp := []
  /-- COLL_DATA that arrived before its slab started; 14 R388; reset none -/
  early : List CollEarly := []
  /-- TXID of the next transaction, 32 bits (the issuer's tag); 14 R377; reset 0 (DESIGN CHOICE, log 11) -/
  nextTxid : W32 := 0
deriving DecidableEq, Repr, Inhabited

/-! ## Domains and keys (15, 16) -/

/-- The states of a domain (R423, R428). -/
inductive DomPhase where
  | free
  | creating
  | active
  | preempted
  | scrubbing
deriving DecidableEq, Repr, Inhabited

/-- The record of CREATE and RESIZE (R421). -/
structure DomRecord where
  kln3Grad : Bool := false
  kln3Mem : Bool := false
  attest : Bool := false
  arrFirstUnit : Nat := 0
  arrUnits : Nat := 0
  bankFirst : Nat := 0
  banks : Nat := 0
  nsb : Nat := 0
  winFirst : Nat := 0
  winBanks : Nat := 0
  weight : Nat := 0
  rate : Nat := 0
  rateT : Nat := 0
  range : Nat := 0
  quota : Nat := 0
  cachePage0 : Nat := 0
  cachePages : Nat := 0
  kvPage0 : Nat := 0
  kvPages : Nat := 0
  slotFirst : Nat := 0
  slotCount : Nat := 0
  ns : Nat := 0
  lbaBase : Nat := 0
deriving DecidableEq, Repr, Inhabited

/-- What a domain rounds under (R49, R50): the drawn key, by the index of its draw, or a fixed test key. -/
inductive RoundKey where
  | none
  | drawn (index : Nat)
  | test (key : BitVec 128)
deriving DecidableEq, Repr, Inhabited

/-- A Locksmith request accepted and not yet in effect (R426, R427). -/
inductive DomRequest where
  | resize (r : DomRecord)
  | lend (borrower first units : Nat)
  | reclaim (borrower : Nat)
  | mapShared (page d0page count : Nat)
  | unmapShared (page count : Nat)
deriving DecidableEq, Repr, Inhabited

/-- A domain's keys and rotation (R441 to R446). -/
structure KeyDom where
  /-- KEYGEN, 32 bits; 16 R443, LKS_KEYGEN R460; reset 0 -/
  keyGen : Nat := 0
  /-- memory and flash keys of slot 0 and slot 1, by the index of their draw; 16 R441, R443; reset none -/
  slot0 : Option Nat := none
  slot1 : Option Nat := none
  /-- a new generation is loaded and becomes current at the next latch; 16 R443; reset no -/
  newCurrent : Bool := false
  /-- SWEEPING of LKS_ROT, 1 bit; 16 R460; reset 0 -/
  sweeping : Bool := false
  /-- what the sweep has still to rewrite: 2p for the frame of page p, 2p + 1 for its flash copy; 16 R443; reset none -/
  sweepPages : List Nat := []
  /-- overhead frames still to sweep; 16 R443; reset 0 -/
  sweepOvh : Nat := 0
  /-- pages whose flash copy failed its tag in the sweep; 16 R444; reset none -/
  sweepStuck : List Nat := []
  /-- PREV_LIVE of LKS_ROT, 1 bit; 16 R460; reset 0 -/
  prevLive : Bool := false
  /-- mailbox copy of the ROTATE under way, for LKS_DONE; reset none -/
  rotateBy : Option Nat := none
  /-- LKS_ROT_BUDGET PAGES, 10 bits; 16 R460; reset 64 -/
  rotBudget : Nat := 64
  /-- rounding key; 02 R49, 16 R441; reset none -/
  round : RoundKey := .none
  /-- a SESSION waits for a latch with no open step; 16 R442; reset no -/
  sessionBy : Option Nat := none
  /-- a test key waits to be applied; 17 R486; reset none -/
  applyPending : Option (BitVec 128) := none
  /-- export keys 0 to 3: index and the 32 bytes of the key; 16 R445; reset none -/
  exports : List (Nat × List Byte) := []
  /-- imports that replace a key at the next latch; 16 R445; reset none -/
  exportsNext : List (Nat × List Byte) := []
  /-- index of the draw of the domain's ML-KEM pair; 16 R445; reset none -/
  kem : Option Nat := none
  /-- memory keys wait to be destroyed for reads in flight (scrub); 16 R448; reset no -/
  destroyDue : Bool := false
deriving DecidableEq, Repr, Inhabited

/-- One domain. -/
structure Dom where
  /-- DOM_STAT STATE, 3 bits; 15 R428; reset FREE -/
  phase : DomPhase := .free
  /-- the record as last applied (its resources: DOM_ARRAYS, DOM_BANKS, DOM_WINDOW, VAR_SLOT_RANGE, VAR_STAGE_CFG, TIR_RANGE, TIR_QUOTA, TIR_EXTENT, TIR_LBA_BASE, modes); 15 R421, R428; reset 0 -/
  rec_ : DomRecord := {}
  /-- DOM_OVH FRAMES, 18 bits; 15 R420, R428; reset 0 -/
  ovh : Nat := 0
  /-- borrowed units LOAN_FIRST, LOAN_UNITS and their lender; 15 R427, R428; reset none -/
  loan : Option (Nat × Nat × Nat) := none
  /-- CREATE held for the end of a scrub, with the caller's mailbox copy; 15 R422; reset none -/
  held : Option (DomRecord × Nat) := none
  /-- Locksmith has loaded the keys: CREATE has completed; 15 R422; reset no -/
  created : Bool := false
  /-- tick at whose latch the created domain becomes ACTIVE; 15 R422; reset none -/
  activeAt : Option Nat := none
  /-- mailbox copy and OP of the CREATE or DESTROY whose final status is due; 16 R459; reset none -/
  doneDue : Option (Nat × Nat) := none
  /-- tick at whose latch the domain enters SCRUBBING; 15 R423; reset none -/
  teardownAt : Option Nat := none
  /-- requests waiting for their latch; 15 R427; reset none -/
  requests : List (DomRequest × Nat) := []
  /-- record before a RESIZE whose removed resources Fuller still scrubs; 15 R427; reset none -/
  leaving : Option DomRecord := none
  /-- SRAM and frame phases of its scrub have ended; 16 R448; reset no -/
  scrubEnded : Bool := false
  /-- time base at which its scrub started, ns; 16 R461; reset 0 -/
  scrubStartNs : Nat := 0
  /-- PREEMPTED, SAVING and RESTORING of TIK_PREEMPT_STAT; 12 R331; reset 0 -/
  preempted : Bool := false
  saving : Bool := false
  restoring : Bool := false
  /-- SAVE_COMMONS of the preemption in force; 12 R327; reset 0 -/
  saveCommons : Bool := false
  /-- accepted PREEMPT with its latch tick and SAVE_COMMONS; 12 R326; reset none -/
  preemptAt : Option (Nat × Bool) := none
  /-- accepted RESUME with its latch tick; 12 R326; reset none -/
  resumeAt : Option Nat := none
  /-- preemption save area: accumulator entries, operand buffers and commons bytes as saved; 12 R327; reset none -/
  savedAcc : List (Nat × W32) := []
  savedOpbuf : List Host.Cell := []
  savedCommons : List Host.Cell := []
  /-- word queues; 15 R410 to R417; reset empty -/
  queue : QueueState := {}
  /-- submission number of the next slab; 01 R17; reset 0 -/
  nextOrder : Nat := 0
  /-- slabs accepted and not completed, in submission order; 01 R17, R26; reset none -/
  slabs : List Slab := []
  /-- device-issued slabs of this tick; 11 R292; reset none -/
  devSlabs : List DevSlabRec := []
  /-- device-issued slabs of the next plan, from the cut-off to the latch; 11 R292, 12 R309; reset none -/
  devNext : List DevSlabRec := []
  /-- open batches; 01 R21; reset none -/
  batches : List Batch := []
  /-- last slab that used the operand buffer of an array, by array: its submission number, its words and whether it loaded; 03 R69; reset none -/
  lastOperand : List (Nat × (Nat × List W64 × Bool)) := []
  /-- TIR_QUOTA at CREATE, by which the pages of R288 stand STACKED at creation, 18 bits; 11 R288; reset 0 -/
  quota0 : Nat := 0
  /-- TIK_SHARE WEIGHT, 10 bits; 12 R331; reset 0 -/
  weight : Nat := 0
  /-- TIK_PLAN_SLOTS SLOTS, 13 bits; 12 R331; reset 0 -/
  slots : Nat := 0
  /-- TIK_RT_ENERGY RT_UJ, 28 bits; 12 R331; reset 0 -/
  rtUj : Nat := 0
  /-- TIK_RT_ARRAYS FIRST_UNIT, 6 bits; 12 R331; reset 0 -/
  rtFirst : Nat := 0
  /-- TIK_RT_ARRAYS UNITS, 7 bits; 12 R331; reset 0 -/
  rtUnits : Nat := 0
  /-- TIK_ALLOW ALLOW_UJ, 28 bits; 12 R331; reset 0 -/
  allow : Nat := 0
  /-- TIK_LAG LAG_NS, 32 bits, saturating; 12 R331; reset 0 -/
  lagNs : Nat := 0
  /-- lag that the next run phase starts with, ns (shown in TIK_LAG from the latch); 12 R316; reset 0 -/
  lagNext : Nat := 0
  /-- MEM_REG_RATE RATE, 9 bits; 10 R284; reset 0 -/
  rate : Nat := 0
  /-- MEM_REG_RATE RATE_T, 7 bits; 10 R284; reset 0 -/
  rateT : Nat := 0
  /-- energy not yet charged as a whole microjoule; 12 R324 (model's own remainder); reset 0 -/
  energyFrac : Rat := 0
  vec : VecDom := {}
  var_ : VarDom := {}
  upd : UpdDom := {}
  kvp : KvpDom := {}
  tir : TirDom := {}
  col : ColDom := {}
  keys : KeyDom := {}
  /-- bytes of the device-virtual range in canonical form, by address; 11 R287; reset all zero -/
  mem : List Host.Cell := []
  /-- poisoned 64-byte blocks of the range, by address / 64, ascending; 10 R261; reset none -/
  poison : List Nat := []
deriving DecidableEq, Repr, Inhabited

/-! ## The base (09) -/

/-- The states of a copy slot (R235, R246). -/
inductive CopyState where
  | empty
  | building
  | ready
  | active
  | retiring
deriving DecidableEq, Repr, Inhabited

/-- A tensor entry of a manifest (R226). -/
structure Tensor where
  elemOff : Nat
  fmt : Nat
  esc : Bool
  place : Nat
  scaleOff : Nat
  rowBlocks : Nat
  escOff : Nat
  rows : Nat
  /-- placed whole on T frames (R229, R230) -/
  onT : Bool := false
  /-- first 4 KiB unit of T class offset of its element, scale and escape region (R257) -/
  tAt : List Nat := []
deriving DecidableEq, Repr, Inhabited

/-- A stripe's state in a copy (R245). -/
inductive StripeState where
  | absent
  | resident
  | bad
  | lost
deriving DecidableEq, Repr, Inhabited

/-- One stripe of a copy. -/
structure Stripe where
  state : StripeState := .absent
  /-- held only in the flash tier (R231, R238) -/
  flashHeld : Bool := false
  /-- staged in base staging pages (R231) -/
  staged : Bool := false
  /-- verified at an earlier plan latch, so a peer may be served (R233) -/
  servable : Bool := false
  /-- position of the source being asked (R233) -/
  source : Nat := 0
  /-- 64-byte pieces received from a peer so far (R378) -/
  pieces : List Byte := []
  /-- the source has been asked and has not answered (R233) -/
  asked : Bool := false
  /-- its flash read has been retried (R299) -/
  retried : Bool := false
  /-- the 64 KiB slot of the base staging pages that holds it while it is staged (R231) -/
  slot : Nat := 0
  /-- the page of the region that a second poisoning moved it to, by its number in the region (R242) -/
  page : Option Nat := none
deriving DecidableEq, Repr, Inhabited

/-- A copy slot of the base (R235) with what Carter keeps of its manifest (R225 to R227). -/
structure CopySlot where
  /-- STATE, 3 bits; 09 R246; reset EMPTY -/
  state : CopyState := .empty
  /-- GEN, 32 bits; 09 R225; reset 0 -/
  gen : Nat := 0
  /-- MODEL_ID, 32 bits; 09 R225; reset 0 -/
  modelId : Nat := 0
  /-- SHARD_INDEX, 32 bits; 09 R225; reset 0 -/
  shardIndex : Nat := 0
  /-- STRIPES, 32 bits; 09 R225; reset 0 -/
  stripes : Nat := 0
  /-- address of the manifest in domain 0's range, 48 bits; 09 R245; reset 0 -/
  manifest : Nat := 0
  /-- DIGEST_OFF, 32 bits; 09 R225; reset 0 -/
  digestOff : Nat := 0
  /-- NS, FLASH_BLK, HOST_OK, HOST_OFF; 09 R225; reset 0 -/
  ns : Nat := 0
  flashBlk : Nat := 0
  hostOk : Bool := false
  hostOff : Nat := 0
  /-- the tensor table; 09 R226; reset none -/
  tensors : List Tensor := []
  /-- the MoE table: E_BASE by layer; 09 R227; reset none -/
  moe : List Nat := []
  /-- the peer table: DEVICE and PARENT; 09 R227; reset none -/
  peers : List (Nat × Bool) := []
  /-- the tree parent's copy has failed or been aborted; 09 R234; reset no -/
  parentFailed : Bool := false
  /-- stripes, by number; 09 R235; reset all absent -/
  stripeMap : List (Nat × Stripe) := []
  /-- bytes of the shard image held, by image offset, canonical; 09 R224; reset none -/
  image : List Host.Cell := []
  /-- poisoned 64-byte blocks, by image offset / 64, ascending; 09 R240; reset none -/
  poison : List Nat := []
  /-- blocks poisoned at some time before; 09 R242; reset none -/
  poisonedBefore : List Nat := []
  /-- ordinary pages of the region that hold its stripes, 32 a page, by their numbers in the region; 09 R230; reset none -/
  pages : List Nat := []
  /-- tensors named by STAGE and not yet unstaged, by number; 09 R231; reset none -/
  staged : List Nat := []
  /-- tensors whose UNSTAGE waits for its latch; 09 R231; reset none -/
  unstage : List Nat := []
deriving DecidableEq, Repr, Inhabited

/-- Carter and the BAS page (R246). -/
structure BasState where
  copy0 : CopySlot := {}
  copy1 : CopySlot := {}
  /-- BAS_REGION_PAGES, 24 bits; 09 R246; reset 0 -/
  regionPages : Nat := 0
  /-- BAS_STAGE_PAGES, 24 bits; 09 R246; reset 0 -/
  stagePages : Nat := 0
  /-- the first BUILD after reset has taken the ordinary part of the region; 09 R230; reset no -/
  regionTaken : Bool := false
  /-- the ordinary frames of the region, runs of 18-bit frame numbers; 09 R230; reset none -/
  region : List (Nat × Nat) := []
  /-- BAS_FILL_BUDGET UNITS, 16 bits; 09 R246; reset 0 -/
  fillBudget : Nat := 0
  /-- BAS_HOST_BASE, 64 bits; 09 R246; reset 0 -/
  hostBase : W64 := 0
  /-- BAS_BUILD_DONE, 32 bits; 09 R246; reset 0 -/
  buildDone : Nat := 0
  /-- ordinary pages, and runs of T units, of aborted copies, returned to the region at the next latch; 09 R235; reset none -/
  backPages : List Nat := []
  backUnits : List (Nat × Nat) := []
  /-- time base, ns, at which Carter's flash reads are to have ended; 09 R232, 11 R297; reset 0 -/
  due : Nat := 0
  /-- time base, ns, at which the refetch of the settle phase began; 09 R242; reset 0 -/
  refetchFrom : Nat := 0
  /-- an accepted SWITCH: copy and the tick at whose latch it takes effect; 09 R236; reset none -/
  switchAt : Option (Nat × Nat) := none
deriving DecidableEq, Repr, Inhabited

/-! ## Stacked memory (10) -/

/-- One stack and its memory base die. -/
structure StackState where
  /-- MEM_TEMP TEMP_C, 8 bits; 10 R284; reset 0 -/
  tempC : Nat := 0
  /-- spare TSV lanes in use, by pseudo-channel 0 to 63; 10 R252; reset none -/
  sparesUsed : List Nat := []
  /-- frames retired, newest first (MEM_RETIRED counts them, MEM_RETIRE_FRAME is the newest); 10 R279; reset none -/
  retired : List Nat := []
  /-- MEM_LAST_UE, 64 bits; 10 R284; reset 0 -/
  lastUe : W64 := 0
  /-- the maintenance queue; 10 R276; reset empty -/
  queue : List MaintItem := []
  /-- items running in the window with the offset in it, ns, at which each ends: at most eight, on different channels; 10 R276; reset none -/
  running : List (Nat × MaintItem) := []
  /-- channels that retrained in an emergency in this tick; 10 R278; reset none -/
  retrained : List Nat := []
  /-- corrected errors: row key and block of each, for the four-block rule; 10 R279; reset none -/
  corrected : List (Nat × Nat) := []
  /-- a channel has failed with no spare; 10 R253; reset no -/
  failed : Bool := false
  /-- pieces of 64 KiB that patrol has covered since reset, by channel (nonzero ones); 10 R277; reset none -/
  patrolled : List (Nat × Nat) := []
deriving DecidableEq, Repr, Inhabited

/-- The MEM page's global fields and the refresh engine. -/
structure MemGlobal where
  /-- MEM_TMODE TMODE, 1 bit; 10 R254, R284; reset TMODE_NEXT -/
  tmode : Bool := false
  /-- MEM_TMODE TMODE_NEXT, 1 bit; 10 R284; reset 0 at power-up, kept across device reset -/
  tmodeNext : Bool := false
  /-- MEM_MAINT LEN_US, 8 bits; 10 R284; reset 50 -/
  maintLen : Nat := 50
  /-- MEM_MAINT EVERY, 16 bits; 10 R284; reset 1,000 -/
  maintEvery : Nat := 1000
  /-- MEM_REG_SEL DOMAIN, 6 bits; 10 R284; reset 0 -/
  regSel : Nat := 0
  /-- refresh mode in force, 0, 1 or 2 for 1x, 2x and 4x (REF_MODE); 10 R273, R284; reset 0 -/
  refMode : Nat := 0
  /-- refresh mode set at the last latch; 10 R273; reset 0 -/
  latchedMode : Nat := 0
  /-- T_hot in degrees C; 10 R273; reset 0 -/
  tHot : Nat := 0
  /-- refresh mode used by the plan of the next tick (fixed at the cut-off); 12 R309; reset 0 -/
  planMode : Nat := 0
  /-- refresh mode with which the plan of the current tick was built; 12 R309, 10 R273; reset 0 -/
  tickMode : Nat := 0
  /-- a reading has raised the refresh mode in this tick; 13 R351; reset no -/
  risen : Bool := false
deriving DecidableEq, Repr, Inhabited

/-- The NVM page (R306). -/
structure NvmState where
  /-- NVM_CFG BIFUR, 1 bit; 11 R306; reset BIFUR_NEXT -/
  bifur : Bool := false
  /-- NVM_CFG BIFUR_NEXT, 1 bit; 11 R306; reset 0 at power-up, kept across device reset -/
  bifurNext : Bool := false
  /-- NVM_LINK0 and NVM_LINK1 SPEED and WIDTH, 4 bits each; 11 R306; reset 0 -/
  link0 : Nat × Nat := (0, 0)
  link1 : Nat × Nat := (0, 0)
  /-- NVM_LAT LAT_US, 16 bits; 11 R306; reset 200 -/
  latUs : Nat := 200
  /-- NVM_LAT TIMEOUT_MS, 16 bits; 11 R306; reset 20 -/
  timeoutMs : Nat := 20
  /-- NVM_NS_MAP0 to 7: NSID, DRIVE and VALID, 34 bits; 11 R306; reset 0 -/
  nsMap : List W64 := [0, 0, 0, 0, 0, 0, 0, 0]
deriving DecidableEq, Repr, Inhabited

/-! ## Tick scheduling (12) -/

/-- Tallyman's device state and the TIK page (R331). -/
structure TikState where
  /-- TIK_LEN LEN, 21 bits; 12 R331; reset 100,000 -/
  len : Nat := 100000
  /-- TIK_PHASE SETTLE_US, 8 bits; 12 R331; reset 16 -/
  settleUs : Nat := 16
  /-- TIK_PHASE GD_US, 6 bits; 12 R331; reset 6 -/
  gdUs : Nat := 6
  /-- TIK_PHASE CUT_US, 16 bits; 12 R331; reset 50 -/
  cutUs : Nat := 50
  /-- an accepted change of LEN, S, G and CUT, and the tick from which it applies; 12 R311; reset none -/
  next : Option (Nat × Nat × Nat × Nat × Nat) := none
  /-- a second accepted change, whose tick lies 16 ticks after that of `next`; 12 R311; reset none -/
  later : Option (Nat × Nat × Nat × Nat × Nat) := none
  /-- TIK_MASTER PRIO, 8 bits; 12 R331; reset 0 -/
  prio : Nat := 0
  /-- TIK_MASTER REF_EXT, 1 bit; 12 R331; reset 0 -/
  refExt : Bool := false
  /-- TIK_MASTER IS_MASTER, 1 bit; 12 R331; reset 0 -/
  isMaster : Bool := false
  /-- the master's device address, if known; 12 R311; reset none -/
  master : Option Nat := none
  /-- offers heard: PRIO and device address; 19 R509; reset none -/
  offers : List (Nat × Nat) := []
  /-- TIK_TIME, ns, 64 bits; 12 R331; reset 0 -/
  timeNs : Nat := 0
  /-- a latch has taken place since reset; 19 R510; reset no -/
  ticking : Bool := false
  /-- system tick number of the current tick (counter TICKS, 64 bits); 12 R332; reset 0 -/
  tick : Nat := 0
  /-- time base at the latch of the current tick, ns; 12 R307; reset 0 -/
  latchNs : Nat := 0
  /-- device-scope stall in the current tick, by which the plan clock has stopped, ns; 12 R314; reset 0 -/
  stallNs : Nat := 0
  /-- device-scope stretch of the current tick by cause code; 12 R313, 14 R392; reset none -/
  stallBy : List (Nat × Nat) := []
  /-- the plan cut-off of the current tick has passed: the next plan is fixed; 12 R309; reset no -/
  cutoffPassed : Bool := false
  /-- the run phase of the current tick has ended; 12 R307; reset no -/
  runEnded : Bool := false
  /-- the settle phase of the current tick has begun; 12 R307; reset no -/
  settled : Bool := false
  /-- the done token has been sent: its stamp; 14 R392; reset none -/
  doneSent : Option Nat := none
  /-- done tokens received from the subtree in this tick, by the port they came by; 14 R392; reset none -/
  doneGot : List (Nat × DoneToken) := []
  /-- TIK_STAT STEP and PWR_LEVEL STEP, 4 bits: clock step latched for this tick; 12 R331, 13 R357; reset 15 (PWR_LEVEL) -/
  step : Nat := 15
  /-- TIK_STAT STRETCHED, 1 bit; 12 R331; reset 0 -/
  stretched : Bool := false
  /-- TIK_STAT LAST_CAUSE, 5 bits; 12 R331; reset 0 -/
  lastCause : Nat := 0
  /-- latch time of the next tick as announced by the tick symbol, ns; 14 R391; reset none -/
  nextLatch : Option Nat := none
  /-- ns by which an announced latch had passed when its symbol arrived; 14 R394; reset 0 -/
  lateNs : Nat := 0
  /-- the device has dropped a master that fell silent, and no tick symbol has come since; 12 R312; reset no -/
  dropped : Bool := false
  /-- the master counts from the fabric clock since TICK_REF_IN stopped; 18 R494; reset no -/
  refLost : Bool := false
  /-- TIK_WEIGHT_TOTAL W_CAP, 16 bits; 12 R331; reset 65,535 -/
  wCap : Nat := 65535
  /-- TIK_DOM_SEL, 6 bits; 12 R331; reset 0 -/
  domSel : Nat := 0
  /-- clock step and E_dom of the tick being planned; 12 R309; reset 15 and 0 -/
  planStep : Nat := 15
  planEdom : Nat := 0
deriving DecidableEq, Repr, Inhabited

/-! ## Power control and ageing (13) -/

/-- The software bounds CEIL, FLOOR, CAP_W, TJ_TARGET and DRAM_TARGET (R347, R348). -/
structure PwrBounds where
  ceil : Nat := 0
  floor : Nat := 15
  capW : Nat := 2400
  tjTarget : Nat := 95
  dramTarget : Nat := 83
deriving DecidableEq, Repr, Inhabited

/-- Measurements of one tick, kept for the epoch maxima (R343). -/
structure PowerState where
  /-- PWR_BOUNDS CEIL, FLOOR (4 bits each), CAP_W (12 bits); 13 R357; reset 0, 15, 2,400 -/
  ceil : Nat := 0
  floor : Nat := 15
  capW : Nat := 2400
  /-- PWR_TARGETS TJ_TARGET, DRAM_TARGET, 8 bits each; 13 R357; reset 95, 83 -/
  tjTarget : Nat := 95
  dramTarget : Nat := 83
  /-- the bounds that accepted writes have brought into force: restricting writes at once, all others at the next epoch decision; 13 R348; reset as the registers -/
  inForce : PwrBounds := {}
  /-- an accepted restricting write waits for the next plan; 13 R348; reset no -/
  restrict : Bool := false
  /-- PWR_LEVEL NEXT, 4 bits; 13 R357; reset 15 -/
  next : Nat := 15
  /-- PWR_LEVEL NEXT_VALID, 1 bit; 13 R357; reset 0 -/
  nextValid : Bool := false
  /-- PWR_LEVEL OVERRIDE, 1 bit; 13 R357; reset 0 -/
  override : Bool := false
  /-- PWR_LEVEL OVR_CAUSE, 3 bits; 13 R357; reset 0 -/
  ovrCause : Nat := 0
  /-- override decided for the next epoch: its cause; 13 R347; reset none -/
  nextOverride : Option Nat := none
  /-- override of the tick being planned: its cause; 13 R347, R348; reset none -/
  planOverride : Option Nat := none
  /-- OVERRIDE_EPOCHS has counted this epoch; 13 R347; reset no -/
  epochCounted : Bool := false
  /-- what the epoch's decision was made from (T_j, T_hot, P_fix in W, V_min in mV, k_p), for restricting writes; 13 R348; reset none -/
  basis : Option (Nat × Nat × Rat × Nat × Nat) := none
  nextBasis : Option (Nat × Nat × Rat × Nat × Nat) := none
  /-- step of the epoch in force; 13 R342, R346; reset 15 (FLOOR) -/
  level : Nat := 15
  /-- the first epoch that begins after fabric training has begun; 13 R346; reset no -/
  epochsRunning : Bool := false
  /-- PWR_EDOM, 28 bits, microjoule; 13 R357; reset 0 -/
  edom : Nat := 0
  /-- PWR_INPUT P_IN_W, 12 bits, and V_IN_DV, 10 bits; 13 R357; reset 0 -/
  pInW : Nat := 0
  vInDv : Nat := 0
  /-- PWR_TEMP TJ_MAX and T_HOT, 8 bits each; 13 R357; reset 0 -/
  tjMax : Nat := 0
  tHotLast : Nat := 0
  /-- PWR_FIX P_FIX_W, 12 bits; 13 R357; reset 0 -/
  pFix : Nat := 0
  /-- this tick so far: readings of T_j, T_hot, lowest V_IN (mV), sum and number of power samples; 13 R343; reset none -/
  tickTj : Nat := 0
  tickTHot : Nat := 0
  tickVmin : Option Nat := none
  tickPSum : Nat := 0
  tickPCount : Nat := 0
  /-- planned energy of slabs that ran in this tick, microjoule; 13 R343; reset 0 -/
  tickEnergy : Rat := 0
  /-- epoch window maxima: T_j, T_hot, P_fix in W, least V_min in mV, ticks measured; 13 R343; reset none -/
  winTj : Nat := 0
  winTHot : Nat := 0
  winPFix : Rat := 0
  winVmin : Option Nat := none
  winTicks : Nat := 0
  /-- V_IN left 60-80 V in this tick; 13 R334, R358; reset no -/
  inputRange : Bool := false
  /-- input energy not yet counted as a whole microjoule; 13 R358 (model's own remainder); reset 0 -/
  inputFrac : Rat := 0
deriving DecidableEq, Repr, Inhabited

/-- Badger and the BDG page (R359). -/
structure BdgState where
  /-- BDG_SEL STEP, 4 bits; 13 R359; reset 0 -/
  sel : Nat := 0
  /-- steps marked unavailable; 13 R355; reset none -/
  unavail : List Nat := []
  /-- BDG_LAST TICK, 32 bits; 13 R359; reset 0 -/
  lastTick : Nat := 0
  /-- a MEASURE command waits for its window; 13 R352; reset no -/
  requested : Bool := false
  /-- tick from which the next window of at least 20 µs measures: a multiple of 2^20, or that of a MEASURE; 13 R352; reset none -/
  dueFrom : Option Nat := none
  /-- the window that has begun is one that Badger measures in; 13 R352; reset no -/
  measuring : Bool := false
  /-- GUARD_MV of the last 16 measurements with the powered seconds of each, newest first; 13 R354, R359; reset none -/
  guardLog : List (Nat × Int) := []
  /-- new V_plan values for the next epoch boundary; 13 R353; reset none -/
  vPlanNext : Option (List Nat) := none
deriving DecidableEq, Repr, Inhabited

/-! ## The fabric (14) -/

/-- The states of a fabric port (R399). -/
inductive PortState where
  | down
  | training
  | keying
  | up
  | miswired
  | failed
deriving DecidableEq, Repr, Inhabited

/-- Progress of a key exchange on an inter-rack port (R397). -/
structure KeyExchange where
  /-- messages received so far, for the transcript -/
  transcript : List (List Byte) := []
  /-- this side has sent its public keys -/
  sent : Bool := false
  /-- the peer's signatures have verified -/
  peerVerified : Bool := false
  /-- own signature has been written by engine C -/
  signed : Bool := false
  /-- draws of the initiator's ML-KEM pair and of the own ephemeral P-384 pair, by index -/
  kem : Option Nat := none
  ecdh : Option Nat := none
  /-- key material of this session: the two shared secrets; empty before they are known -/
  secret : List Byte := []
  /-- the 88 bytes derived; empty before -/
  keys : List Byte := []
  /-- this exchange is a rekey (R398) -/
  rekey : Bool := false
deriving DecidableEq, Repr, Inhabited

/-- One fabric port. -/
structure PortStateRec where
  /-- FAB_CTRL ENABLE, 1 bit; 14 R399; reset 1 -/
  enable : Bool := true
  /-- FAB_STAT STATE, 3 bits; 14 R399; reset DOWN -/
  state : PortState := .down
  /-- FAB_STAT HALF and HALF_SEL, 1 bit each; 14 R399; reset 0 -/
  half : Bool := false
  halfSel : Bool := false
  /-- FAB_STAT SECURE, 1 bit; 14 R399; reset 0 -/
  secure : Bool := false
  /-- FAB_STAT KEYID, 1 bit; 14 R399; reset 0 -/
  keyId : Bool := false
  /-- FAB_PEER DEVICE, 15 bits, and PORT, 5 bits; 14 R399; reset 0 -/
  peerDevice : Nat := 0
  peerPort : Nat := 0
  /-- FAB_DELAY DELAY_PS, 24 bits; 14 R399; reset 0 -/
  delayPs : Nat := 0
  /-- FAB_MARGIN EYE_MV, 8 bits, and LANE, 3 bits; 14 R399; reset 0 -/
  eyeMv : Nat := 0
  eyeLane : Nat := 0
  /-- a peer's signal has been seen since training started; 19 R508; reset no -/
  signal : Bool := false
  /-- failed lanes, 8 bits; 14 R366; reset none -/
  badLanes : BitVec 8 := 0
  /-- SEQ of the next flit sent and of the next flit expected, 12 bits; 14 R367, R368; reset 0 -/
  txSeq : Nat := 0
  rxSeq : Nat := 0
  /-- the replay buffer: SEQ and bytes of flits sent and not acknowledged, oldest first, at most 2,048; 14 R368; reset empty -/
  replay : List (Nat × List Byte) := []
  /-- consecutive retries for one SEQ; 14 R368; reset none -/
  retrySeq : Nat := 0
  retryCount : Nat := 0
  /-- credits held, by 65,536 x VC + tag; 14 R369; reset none given (PRESUMED grant at training, log 13) -/
  credits : List (Nat × Nat) := []
  /-- flits waiting for a credit or for room to replay: 262,144 x (arrival port + 1, or 0) + 65,536 x VC + tag, and header and payload without link fields, oldest first; 14 R369; reset none -/
  waiting : List (Nat × List Byte) := []
  /-- flits sent under the key (C), in each direction; 14 R396; reset 0 -/
  txCount : Nat := 0
  rxCount : Nat := 0
  /-- credits of received DATA flits not yet returned in a flit sent, by class key; 14 R369; reset none -/
  creditsDue : List (Nat × Nat) := []
  /-- both directions' link keys and starting values, 88 bytes; 14 R396; reset none -/
  linkKeys : List Byte := []
  /-- keys of a completed rekey that a direction has not switched to yet, and which directions have; 14 R398; reset none -/
  newKeys : List Byte := []
  txNew : Bool := false
  rxNew : Bool := false
  /-- key material that salts the next derivation; 14 R397, R398; reset none -/
  keySalt : List Byte := []
  /-- key exchange under way; 14 R397; reset none -/
  exchange : Option KeyExchange := none
  /-- a rekey has stalled: only IDLE flits are sent; 14 R398; reset no -/
  rekeyStalled : Bool := false
  /-- width as planning sees it (0 none, 1 half, 2 full), set at a latch; 14 R366, R373; reset 0 -/
  plannedWidth : Nat := 0
deriving DecidableEq, Repr, Inhabited

/-- The fabric's device state. -/
structure FabState where
  /-- FAB_SELF DEVICE, 15 bits; 14 R399; reset 0 -/
  self : Nat := 0
  /-- FAB_SELF SELF_VALID, 1 bit; 14 R399; reset 0 -/
  selfValid : Bool := false
  /-- fabric training has started, and when; 19 R508; reset none -/
  trainStart : Option Nat := none
  /-- ports that are not in their reset state, by port; 14 R399; reset all at reset -/
  ports : List (Nat × PortStateRec) := []
  /-- FAB_TREE PARENT_PORT, 5 bits, and DEPTH, 5 bits; 14 R399; reset 0 -/
  parentPort : Nat := 0
  depth : Nat := 0
  /-- a port changed, so the parent is chosen anew at the next latch; 14 R390; reset no -/
  portChanged : Bool := false
  /-- COL_SLOT_SEL SLOT (6 bits) and CLASS (1 bit); 14 R401; reset 0 -/
  slotSel : Nat := 0
  slotClass : Bool := false
  /-- COL_SLOT_TAG owners, by 64 x class + time; 14 R401; reset 0xFFFF everywhere -/
  slotTags : List (Nat × Nat) := []
  /-- slot-tag writes and the tick from which each applies: class and time, tag, tick; 14 R401; reset none -/
  slotNext : List (Nat × Nat × Nat) := []
  /-- COL_DOM_SEL, 6 bits; 14 R401; reset 0 -/
  colDomSel : Nat := 0
deriving DecidableEq, Repr, Inhabited

/-! ## Locksmith's device state, Fuller, DBG -/

/-- Locksmith's engines and requests (R440, R459). -/
structure LksState where
  /-- LKS_DOM_SEL, 6 bits; 16 R460; reset 0 -/
  domSel : Nat := 0
  /-- engine A: creation reports waiting, by domain, oldest first; 16 R440; reset empty -/
  engineA : List Nat := []
  /-- engine B: ATTEST requests: mailbox copy, domain, window offset, oldest first; 16 R440; reset empty -/
  engineB : List (Nat × Nat × Nat) := []
  /-- engine C: ports whose transcripts wait; 16 R440; reset empty -/
  engineC : List Nat := []
  /-- requests of the DRBG so far (index of the next draw); 16 R441 (model's own index of draws); reset 0 -/
  draws : Nat := 0
  /-- export-key nonces drawn; 16 R446 (model's own index); reset 0 -/
  nonces : Nat := 0
deriving DecidableEq, Repr, Inhabited

/-- Fuller and the FUL page (R461). -/
structure FulState where
  /-- FULL of FUL_STAT: the device wipe runs; 16 R461; reset 0 -/
  full : Bool := false
  /-- domain scrubs that run, in order of start; FUL_STAT BUSY, DOMAIN and PHASE show the first; 16 R461; reset none -/
  running : List Nat := []
  /-- FUL_LAST_NS, 64 bits; 16 R461; reset 0 -/
  lastNs : Nat := 0
  /-- time base at which the device wipe started; 16 R461; reset 0 -/
  wipeStartNs : Nat := 0
  /-- frames withheld from the pool; 16 R447; reset none -/
  withheld : List Nat := []
deriving DecidableEq, Repr, Inhabited

/-- The DBG page (R485). -/
structure DbgState where
  /-- DBG_TEST_KEY0 to 3, 128 bits; 17 R485; reset 0 -/
  testKey : BitVec 128 := 0
  /-- DBG_TEST_CTRL DOMAIN, 6 bits; 17 R485; reset 0 -/
  domain : Nat := 0
  /-- DBG_TRACE_BASE ADDR, 48 bits; 17 R485; reset 0 -/
  traceBase : Nat := 0
  /-- DBG_TRACE_CFG SIZE_LOG2, 5 bits; 17 R485; reset 0 -/
  traceLog2 : Nat := 0
  /-- DBG_TRACE_CFG EN, 1 bit; 17 R485; reset 0 -/
  traceEn : Bool := false
  /-- DBG_TRACE_HEAD, 32 bits; 17 R485; reset 0 -/
  traceHead : W32 := 0
  /-- pages of domain 0 that trace records have been written to, since their flash copies were written; 11 R288, 17 R487; reset none -/
  traced : List Nat := []
deriving DecidableEq, Repr, Inhabited

/-- What an ARG page holds of its own (R479). -/
structure ArgUnit where
  /-- ARG_SRAM_ERR ARRAY, ACC, ENTRY and VALID; 17 R479; reset 0 -/
  errArray : Nat := 0
  errAcc : Bool := false
  errEntry : Nat := 0
  errValid : Bool := false
  /-- CLEARING of ARG_OWNER, 1 bit; 17 R479; reset 0 -/
  clearing : Bool := false
deriving DecidableEq, Repr, Inhabited

/-! ## Changes that wait for the plan latch -/

/-- A change that a rule assigns to the plan latch (R308 step 5), recorded when it is accepted. -/
inductive LatchAct where
  | recipe (row : Nat) (r : Recipe)
  | loadBudget (d units : Nat)
  | rates (d rate rateT : Nat)
  | maint (len every : Nat)
  | weight (d w : Nat)
  | slots (d n : Nat)
  | rtEnergy (d uj : Nat)
  | rtArrays (d first units : Nat)
  | flashRate (d rd wr : Nat)
  | migBudget (d pages : Nat)
  | nvmLat (us : Nat)
  | ptag (d tag : Nat) (rd wr : Bool)
  | retain (d first banks : Nat)
  | ovf (d first count : Nat)
  | fillBudget (units : Nat)
  | slotLive (slot : Nat)
  | slotLoadFailed (slot : Nat)
  | slotPark (slot : Nat)
  | slotRelease (slot : Nat)
  | staged (slot : Nat) (mask : W16) (ver : W32) (copies : List (Nat × List (List Byte × Bool)))
  | unstage (slot : Nat) (mask : W16)
  | expertBind (d pos : Nat)
  | expertFree (d pos : Nat)
  | seqClose (d seq : Nat)
  | setDrop (d seq : Nat) (v : Bool)
  | pageStacked (d page : Nat)
  | pageFlash (d page : Nat)
  | discard (d page : Nat)
  | relocate (d page frame : Nat)
deriving DecidableEq, Repr, Inhabited

/-! ## What leaves the device -/

/-- What the device puts out: the answers to reads, interrupt messages, flits, events on pins and management replies. -/
inductive Output where
  /-- a creation report of a domain, whose destination the manual does not state (log 56) -/
  | report (d : Nat) (bytes : List Byte)
  /-- data of a completed host read -/
  | readData (fn : Nat) (bytes : List Byte)
  /-- a 64-bit or 32-bit value read from a register or queue -/
  | value (fn : Nat) (w : W64)
  /-- MSI-X message of a vector -/
  | msix (fn vector : Nat)
  /-- AER report: Poisoned TLP Received -/
  | aerPoisoned (fn : Nat)
  /-- a flit sent on a port -/
  | flit (port : Nat) (bytes : List Byte)
  /-- what a CTRL flit says (its payload's layout is open, log 65): 0 a retry request for SEQ `value`, 1 a PRIO offer of device `value` mod 2^15 with PRIO `value` / 2^15; 2 what an end of a link sends in training (R362): the device address `value` mod 2^15 and the port number `value` / 2^15 -/
  | ctrl (port kind value : Nat)
  /-- a key-exchange CTRL message: 0 initiate, 1 respond, 2 RSA signature, 3 RSA and SLH-DSA signatures -/
  | keyExchange (port kind : Nat) (bytes : List Byte)
  /-- a TICK flit and a DONE flit by their fields -/
  | tick (port : Nat) (sym : TickSymbol)
  | done (port : Nat) (token : DoneToken)
  /-- an NVMe command: domain, opcode (0 Flush, 1 Write, 2 Read, 9 Deallocate, 0x100 Abort), page, and its first logical block; 11 R300 -/
  | nvme (d op page lba : Nat)
  /-- an NVMe read of a base stripe: copy slot and stripe -/
  | baseRead (copy stripe : Nat)
  /-- a host memory read for Carter: address -/
  | hostRead (addr : W64)
  /-- TICK_OUT pulse -/
  | tickOut
  /-- a pin level: 0 PWR_GOOD, 1 THERM_TRIP_N, 2 SPI_RESET_N, 3 NV_PERST_N; and whether a clock output is driven: 4 NV_REFCLK0, 5 NV_REFCLK1 (R493) -/
  | pin (which : Nat) (level : Bool)
  /-- PLDM event or reply by code and value -/
  | pldm (code : Nat) (value : Nat)
  /-- reply of the Bytous monitor: OK with values, or ERR -/
  | monitorOk (values : List Nat)
  | monitorErr
  /-- the I3C endpoint answers to a new address -/
  | i3cAck (addr : Nat)
deriving DecidableEq, Repr, Inhabited

/-! ## The state -/

/-- The whole device. Maps are lists of (key, value) with rising keys; a key not listed holds its reset value. -/
structure State where
  /-- commands that wait, first in first out; model's queue (log 3); reset empty -/
  pending : List Instr := []
  boot : BootState := {}
  fuses : Fuses := {}
  pci : PciState := {}
  tik : TikState := {}
  pwr : PowerState := {}
  bdg : BdgState := {}
  memg : MemGlobal := {}
  nvm : NvmState := {}
  bas : BasState := {}
  fab : FabState := {}
  lks : LksState := {}
  ful : FulState := {}
  dbg : DbgState := {}
  /-- domains 0 to 63, by number; 15 R423; reset FREE with every register at its reset value -/
  doms : List (Nat × Dom) := []
  /-- variant table, by slot 0 to 16,383; 05 R117, R119; reset FREE with GEN 0 -/
  slots : List (Nat × SlotEntry) := []
  /-- the eight stacks, by number; 10; reset values -/
  mbds : List (Nat × StackState) := []
  /-- array units 0 to 63, by number; 17 R479; reset values -/
  units : List (Nat × ArgUnit) := []
  /-- recipe rows 0 to 6 (VEC_RECIPE_k); 02 R44, R45; reset per R44 -/
  recipe : List Recipe := Recipe.resetRows
  /-- event, enable and counter-mode copies, by 256 x copy + page (copy n for VF n, 64 + d for the PF shown domain d); 17 R469; reset 0 -/
  views : List (Nat × PageView) := []
  /-- command-and-result pairs, by 256 x copy + page; 17 R469; reset 0 -/
  pairs : List (Nat × CmdPair) := []
  /-- counters, by 8 x (256 x scope + page) + index (scope d for domain d, 64 for the device), 64 bits; 17 R465, R468; reset 0 -/
  counters : List (Nat × W64) := []
  /-- TIK_STRETCH_NS, by 64 x scope + cause code, 64 bits; 12 R331; reset 0 -/
  stretch : List (Nat × W64) := []
  /-- high words latched by 32-bit reads of a counter's low word, by 2^24 x function + 2^18 x domain shown + 1024 x page + word of the page; 01 R10; reset none -/
  latches : List (Nat × W32) := []
  /-- pages locked by BLK_LOCK; 17 R472; reset none -/
  locked : List Nat := []
  /-- selectors VAR_DOM_SEL, KVP_DOM_SEL, TIR_DOM_SEL and DOM_SEL by page number, 6 bits; 05 R142, 08 R221, 11 R304, 15 R428; reset 0 -/
  sels : List (Nat × Nat) := []
  /-- bytes of the 96 commons banks by global offset, canonical; 00 R3, 15 R418; reset all zero -/
  commons : List Host.Cell := []
  /-- poisoned 64-bit words of the commons, by offset / 8, ascending; 17 R520; reset none -/
  commonsPoison : List Nat := []
  /-- poisoned commons words already counted in COMMONS_UE; 17 R520; reset none -/
  commonsCounted : List Nat := []
  /-- accumulator entries, by 4,096 x array + 64 x cell + entry, FP32; 03 R64, R75; reset +0 -/
  acc : List (Nat × W32) := []
  /-- operand buffers, by 32,768 x array + byte address; 03 R66; reset zero -/
  opbuf : List Host.Cell := []
  /-- free ordinary frames (DOM_FREE), 18 bits; 15 R428; reset 196,608 -/
  freeFrames : Nat := 196608
  /-- changes that wait for the next plan latch, oldest first; 12 R308; reset none -/
  atLatch : List LatchAct := []
  /-- index of the next free value (the model's own; log 6); reset 0 (DESIGN CHOICE) -/
  freeCtr : Nat := 0
  /-- what the device has put out, newest first (the model's own; log 5); reset empty -/
  out : List Output := []
deriving DecidableEq, Repr, Inhabited

/-- The device at its reset: no supply, PERST_N low, every register at its reset value, nothing in memory and no command waiting (log 1). -/
def State.reset : State := {}

end Sys2Proof.Machine
end

