-- ==== Sys2Proof/Machine/Bits.lean ====
section
/-! DEFINITION. Bit fields of words, bytes and little-endian numbers (R7, R8). -/

namespace Sys2Proof.Machine

/-- Bits [lo + width - 1 : lo] of x (R7). -/
def bitsOf (x lo width : Nat) : Nat := (x >>> lo) % 2 ^ width

/-- Bit i of x. -/
def bitOf (x i : Nat) : Bool := x.testBit i

/-- A truth value as one bit. -/
def bit01 (b : Bool) : Nat := if b then 1 else 0

/-- The field `v` placed at bit `lo`, cut to `width` bits. -/
def fld (v lo width : Nat) : Nat := (v % 2 ^ width) <<< lo

/-- x with bits [lo + width - 1 : lo] replaced by v. -/
def setBits (x lo width v : Nat) : Nat :=
  x - fld (bitsOf x lo width) lo width + fld v lo width

/-- The two's complement value of a width-bit field. -/
def signedOf (x width : Nat) : Int :=
  if x % 2 ^ width < 2 ^ (width - 1) then (x % 2 ^ width : Nat) else (x % 2 ^ width : Nat) - (2 ^ width : Nat)

/-- The n bytes of x, least significant first (R7). -/
def leBytes : Nat → Nat → List Byte
  | 0, _ => []
  | n + 1, x => BitVec.ofNat 8 x :: leBytes n (x >>> 8)

/-- The number that bytes spell, least significant first (R7). -/
def ofLe : List Byte → Nat
  | [] => 0
  | b :: r => b.toNat + 256 * ofLe r

/-- Ceiling of a / b for b > 0. -/
def ceilDiv (a b : Nat) : Nat := (a + b - 1) / b

/-- The least multiple of b not below a. -/
def roundUp (a b : Nat) : Nat := ceilDiv a b * b

/-- The exponent of the least power of two not below n, and 0 for n = 0 or 1. -/
def ceilLog2 (n : Nat) : Nat := if n ≤ 1 then 0 else Nat.log2 (n - 1) + 1

/-- a - b, and the count a mod 2^64 written as a 64-bit word. -/
def w64 (x : Nat) : W64 := BitVec.ofNat 64 x

/-- x as a 32-bit word. -/
def w32 (x : Nat) : W32 := BitVec.ofNat 32 x

/-- The lower and upper half of a 64-bit word. -/
def lowHalf (w : W64) : W32 := w.extractLsb' 0 32
def highHalf (w : W64) : W32 := w.extractLsb' 32 32

/-- The 64-bit words that bytes spell, eight bytes each. -/
def wordsOf : Nat → List Byte → List W64
  | 0, _ => []
  | n + 1, bs => BitVec.ofNat 64 (ofLe (bs.take 8)) :: wordsOf n (bs.drop 8)

end Sys2Proof.Machine
end

