-- ==== Sys2Proof/Machine/Ops.lean ====
section
/-! DEFINITION. The named operations on the parts of the state: keyed maps, canonical memories, and the accessors of domains, slots, ports, stacks and counters. -/

namespace Sys2Proof.Machine

/-! ## Keyed maps: lists of (key, value) with rising keys -/

/-- The value at a key, if listed. -/
def mapGet {α : Type} (m : List (Nat × α)) (k : Nat) : Option α :=
  (m.find? (fun p => p.1 == k)).map Prod.snd

/-- m with the value at a key replaced or added. -/
def mapSet {α : Type} : List (Nat × α) → Nat → α → List (Nat × α)
  | [], k, v => [(k, v)]
  | (j, w) :: r, k, v =>
    if k < j then (k, v) :: (j, w) :: r
    else if k = j then (k, v) :: r
    else (j, w) :: mapSet r k v

/-- m without a key. -/
def mapDel {α : Type} (m : List (Nat × α)) (k : Nat) : List (Nat × α) :=
  m.filter (fun p => p.1 != k)

/-- A list of numbers kept ascending without repeats. -/
def numAdd : List Nat → Nat → List Nat
  | [], k => [k]
  | j :: r, k => if k < j then k :: j :: r else if k = j then j :: r else j :: numAdd r k

/-- The list without a number. -/
def numDel (l : List Nat) (k : Nat) : List Nat := l.filter (fun j => j != k)

/-! ## Memories: cells with rising addresses, none equal to zero (log 2) -/

/-- The canonical form: addresses strictly rise and no listed byte is zero, the value that an unlisted address reads as. -/
def memWf : List Host.Cell → Bool
  | [] => true
  | [c] => c.2 != 0
  | c :: d :: r => c.2 != 0 && decide (c.1 < d.1) && memWf (d :: r)

/-- The byte at an address: 0 where nothing is listed (R449, R288; log 2). -/
def memRead (m : List Host.Cell) (a : Nat) : Byte := (mapGet m a).getD 0

/-- Walks a memory whose cells start at or after `a` and gives the n bytes from `a`. -/
def memWalk : Nat → Nat → List Host.Cell → List Byte
  | 0, _, _ => []
  | n + 1, a, [] => 0 :: memWalk n (a + 1) []
  | n + 1, a, (k, b) :: r =>
    if k = a then b :: memWalk n (a + 1) r else 0 :: memWalk n (a + 1) ((k, b) :: r)

/-- The n bytes from an address. -/
def memGet (m : List Host.Cell) (a n : Nat) : List Byte :=
  memWalk n a (m.dropWhile (fun c => c.1 < a))

/-- The cells of a run of bytes from an address, without its zeros. -/
def memCells : Nat → List Byte → List Host.Cell
  | _, [] => []
  | a, b :: r => if b = 0 then memCells (a + 1) r else (a, b) :: memCells (a + 1) r

/-- Writes a run of bytes at an address, in canonical form. -/
def memPut (m : List Host.Cell) (a : Nat) (bs : List Byte) : List Host.Cell :=
  m.filter (fun c => c.1 < a) ++ (memCells a bs ++ m.filter (fun c => a + bs.length ≤ c.1))

/-- Clears a run of n bytes (they read as zero). -/
def memClear (m : List Host.Cell) (a n : Nat) : List Host.Cell :=
  m.filter (fun c => c.1 < a || a + n ≤ c.1)

/-- The little-endian number of n bytes at an address. -/
def memNat (m : List Host.Cell) (a n : Nat) : Nat := ofLe (memGet m a n)

/-- The cells of a range, with addresses counted from its start. -/
def memCut (m : List Host.Cell) (a n : Nat) : List Host.Cell :=
  (m.filter (fun c => a ≤ c.1 && c.1 < a + n)).map (fun c => (c.1 - a, c.2))

/-! ## Pages, blocks and functions (R462, R408) -/

def pTik : Nat := 0x00
def pVec : Nat := 0x01
def pVar : Nat := 0x02
def pKvp : Nat := 0x03
def pUpd : Nat := 0x04
def pBas : Nat := 0x05
def pTir : Nat := 0x06
def pNvm : Nat := 0x07
def pCol : Nat := 0x08
def pPci : Nat := 0x09
def pDom : Nat := 0x0A
def pLks : Nat := 0x0B
def pFul : Nat := 0x0C
def pPwr : Nat := 0x0D
def pBdg : Nat := 0x0E
def pDbg : Nat := 0x0F
def pMem (stack : Nat) : Nat := 0x10 + stack
def pFab (port : Nat) : Nat := 0x20 + port
def pArg (unit : Nat) : Nat := 0x40 + unit

/-- The block number b of R408 of a page, or none for a page that is not listed (R462). -/
def blockOf (p : Nat) : Option Nat :=
  if p = 0 then some 0
  else if p ≤ 0x05 then some (p + 1)
  else if p = 0x06 then some 8
  else if p = 0x07 then some 9
  else if p ≤ 0x0F then some (p + 3)
  else if p ≤ 0x17 then some 7
  else if 0x20 ≤ p ∧ p ≤ 0x31 then some 10
  else if 0x40 ≤ p ∧ p ≤ 0x7F then some 1
  else none

/-- INSTANCE of a page (R465): stack, port or array unit. -/
def instanceOf (p : Nat) : Nat :=
  if 0x40 ≤ p then p - 0x40 else if 0x20 ≤ p then p - 0x20 else if 0x10 ≤ p then p - 0x10 else 0

/-- Pages with a selector in region 0 (R463). -/
def hasSelector (p : Nat) : Bool :=
  p == pTik || p == pVar || p == pKvp || p == pTir || p == pCol || p == pDom || p == pLks
    || p == 0x10

/-- The function of a view: 0 the PF, n virtual function n. -/
def viewFn : View → Nat
  | .pf _ => 0
  | .vf n => n.val

/-- The function that owns a copy of R469 (copy n is that of VF n, copy 64 + d the PF's for domain d). -/
def copyFn (copy : Nat) : Nat := if copy < 64 then copy else 0

/-! ## Accessors -/

/-- Domain d (R423). -/
def State.dom (s : State) (d : Nat) : Dom := (mapGet s.doms d).getD {}

/-- s with domain d replaced. -/
def State.putDom (s : State) (d : Nat) (x : Dom) : State := { s with doms := mapSet s.doms d x }

/-- s with domain d changed by f. -/
def State.updDom (s : State) (d : Nat) (f : Dom → Dom) : State := s.putDom d (f (s.dom d))

/-- Slot entry of Cooper's table (R119). -/
def State.slot (s : State) (k : Nat) : SlotEntry := (mapGet s.slots k).getD {}

def State.putSlot (s : State) (k : Nat) (x : SlotEntry) : State := { s with slots := mapSet s.slots k x }

def State.updSlot (s : State) (k : Nat) (f : SlotEntry → SlotEntry) : State := s.putSlot k (f (s.slot k))

/-- A memory base die and its stack. -/
def State.mbd (s : State) (k : Nat) : StackState := (mapGet s.mbds k).getD {}

def State.putMbd (s : State) (k : Nat) (x : StackState) : State := { s with mbds := mapSet s.mbds k x }

def State.updMbd (s : State) (k : Nat) (f : StackState → StackState) : State := s.putMbd k (f (s.mbd k))

/-- A fabric port (R399). -/
def State.port (s : State) (p : Nat) : PortStateRec := (mapGet s.fab.ports p).getD {}

def State.putPort (s : State) (p : Nat) (x : PortStateRec) : State :=
  { s with fab := { s.fab with ports := mapSet s.fab.ports p x } }

def State.updPort (s : State) (p : Nat) (f : PortStateRec → PortStateRec) : State := s.putPort p (f (s.port p))

/-- An array unit's own page state (R479). -/
def State.unit (s : State) (u : Nat) : ArgUnit := (mapGet s.units u).getD {}

def State.updUnit (s : State) (u : Nat) (f : ArgUnit → ArgUnit) : State :=
  { s with units := mapSet s.units u (f (s.unit u)) }

/-- The event, enable and counter-mode copy of a page (R469). -/
def State.view (s : State) (copy page : Nat) : PageView := (mapGet s.views (256 * copy + page)).getD {}

def State.putView (s : State) (copy page : Nat) (x : PageView) : State :=
  { s with views := mapSet s.views (256 * copy + page) x }

/-- The command-and-result pair of a page copy (R469, R123). -/
def State.pair (s : State) (copy page : Nat) : CmdPair := (mapGet s.pairs (256 * copy + page)).getD {}

def State.putPair (s : State) (copy page : Nat) (x : CmdPair) : State :=
  { s with pairs := mapSet s.pairs (256 * copy + page) x }

/-- A copy slot of the base, 0 or 1 (R235). -/
def State.copy (s : State) (k : Nat) : CopySlot := if k = 0 then s.bas.copy0 else s.bas.copy1

def State.putCopy (s : State) (k : Nat) (x : CopySlot) : State :=
  if k = 0 then { s with bas := { s.bas with copy0 := x } } else { s with bas := { s.bas with copy1 := x } }

def State.updCopy (s : State) (k : Nat) (f : CopySlot → CopySlot) : State := s.putCopy k (f (s.copy k))

/-! Changes of one part of a domain or of the device. -/

def Dom.updVar (x : Dom) (f : VarDom → VarDom) : Dom := { x with var_ := f x.var_ }
def Dom.updTir (x : Dom) (f : TirDom → TirDom) : Dom := { x with tir := f x.tir }
def Dom.updKvp (x : Dom) (f : KvpDom → KvpDom) : Dom := { x with kvp := f x.kvp }
def Dom.updUpd (x : Dom) (f : UpdDom → UpdDom) : Dom := { x with upd := f x.upd }
def Dom.updVec (x : Dom) (f : VecDom → VecDom) : Dom := { x with vec := f x.vec }
def Dom.updCol (x : Dom) (f : ColDom → ColDom) : Dom := { x with col := f x.col }
def Dom.updKeys (x : Dom) (f : KeyDom → KeyDom) : Dom := { x with keys := f x.keys }
def Dom.updQueue (x : Dom) (f : QueueState → QueueState) : Dom := { x with queue := f x.queue }
def State.updTik (s : State) (f : TikState → TikState) : State := { s with tik := f s.tik }
def State.updPwr (s : State) (f : PowerState → PowerState) : State := { s with pwr := f s.pwr }
def State.updPci (s : State) (f : PciState → PciState) : State := { s with pci := f s.pci }
def State.updBoot (s : State) (f : BootState → BootState) : State := { s with boot := f s.boot }
def State.updFuses (s : State) (f : Fuses → Fuses) : State := { s with fuses := f s.fuses }
def State.updFab (s : State) (f : FabState → FabState) : State := { s with fab := f s.fab }
def State.updLks (s : State) (f : LksState → LksState) : State := { s with lks := f s.lks }
def State.updFul (s : State) (f : FulState → FulState) : State := { s with ful := f s.ful }
def State.updBas (s : State) (f : BasState → BasState) : State := { s with bas := f s.bas }
def State.updMemg (s : State) (f : MemGlobal → MemGlobal) : State := { s with memg := f s.memg }
def State.updBdg (s : State) (f : BdgState → BdgState) : State := { s with bdg := f s.bdg }
def State.updDbg (s : State) (f : DbgState → DbgState) : State := { s with dbg := f s.dbg }

/-! ## Counters (R465, R468) -/

/-- Key of counter `idx` of a page in a scope: domain d, or 64 for the device. -/
def counterKey (scope page idx : Nat) : Nat := 8 * (256 * scope + page) + idx

/-- A counter's live value. -/
def State.counter (s : State) (scope page idx : Nat) : W64 := (mapGet s.counters (counterKey scope page idx)).getD 0

/-- Adds to a counter, modulo 2^64 (R468). -/
def State.bump (s : State) (scope page idx n : Nat) : State :=
  { s with counters := mapSet s.counters (counterKey scope page idx) (s.counter scope page idx + w64 n) }

/-- The scope number of the device's counters. -/
def dev : Nat := 64

/-- Adds ns to TIK_STRETCH_NS of a cause (R313, R331). -/
def State.addStretch (s : State) (scope code ns : Nat) : State :=
  let k := 64 * scope + code
  { s with stretch := mapSet s.stretch k ((mapGet s.stretch k).getD 0 + w64 ns) }

/-! ## Outputs and free values -/

/-- Puts something out (log 5). -/
def State.emit (s : State) (o : Output) : State := { s with out := o :: s.out }

/-- Takes the next free value's index (log 6). -/
def State.takeFree (s : State) : Nat × State := (s.freeCtr, { s with freeCtr := s.freeCtr + 1 })

/-- Takes the next draw of the DRBG (R441). -/
def State.takeDraw (s : State) : Nat × State :=
  (s.lks.draws, { s with lks := { s.lks with draws := s.lks.draws + 1 } })

/-- Records a change that waits for the next plan latch (R308 step 5). -/
def State.defer (s : State) (a : LatchAct) : State := { s with atLatch := s.atLatch ++ [a] }

/-! ## Time (R311, R331) -/

/-- The time base stands at nowNs; powered seconds follow it (R331, R359). -/
def State.atTime (s : State) (nowNs : Nat) : State :=
  let t := max nowNs s.tik.timeNs
  (s.updTik (fun k => { k with timeNs := t })).updFuses (fun f =>
    { f with onSeconds := f.onSeconds + w64 (t / 10 ^ 9 - s.tik.timeNs / 10 ^ 9) })

/-- A device that joins sets its time base to the master's (R391); the jump is no powered time (R359). -/
def State.joinTime (s : State) (nowNs : Nat) : State := s.updTik (fun k => { k with timeNs := nowNs })

/-- The values of LEN, S, G and CUT from a tick on (R311). -/
def TikState.applied (t : TikState) (tick : Nat) : TikState :=
  match t.next with
  | some (n, len, s, g, c) =>
    if n ≤ tick then { t with len := len, settleUs := s, gdUs := g, cutUs := c, next := t.later, later := none } else t
  | none => t

/-! ## Runs of numbers: first and count, ascending -/

/-- How many numbers runs hold. -/
def runsCount (r : List (Nat × Nat)) : Nat := (r.map Prod.snd).sum

/-- The number at a place of runs. -/
def runsNth : List (Nat × Nat) → Nat → Option Nat
  | [], _ => none
  | (a, k) :: r, i => if i < k then some (a + i) else runsNth r (i - k)

/-- Runs hold a number. -/
def runsHave (r : List (Nat × Nat)) (n : Nat) : Bool := r.any (fun x => decide (x.1 ≤ n) && decide (n < x.1 + x.2))

/-- Runs without [a, a + n). -/
def runsCut (r : List (Nat × Nat)) (a n : Nat) : List (Nat × Nat) :=
  r.flatMap (fun x =>
    ([(x.1, min x.2 (a - x.1)), (max x.1 (a + n), x.1 + x.2 - max x.1 (a + n))]).filter (fun y => y.2 != 0))

/-- Runs without those of others. -/
def runsMinus (r q : List (Nat × Nat)) : List (Nat × Nat) := q.foldl (fun s x => runsCut s x.1 x.2) r

/-- Adds [a, a + n) to runs that it does not meet. -/
def runsPut (r : List (Nat × Nat)) (x : Nat × Nat) : List (Nat × Nat) :=
  if x.2 = 0 then r else r.filter (fun y => decide (y.1 < x.1)) ++ x :: r.filter (fun y => decide (x.1 ≤ y.1))

/-- The first n numbers of runs, and the rest. -/
def runsTake : Nat → List (Nat × Nat) → List (Nat × Nat) × List (Nat × Nat)
  | _, [] => ([], [])
  | n, (a, k) :: r =>
    if k ≤ n then ((a, k) :: (runsTake (n - k) r).1, (runsTake (n - k) r).2)
    else if n = 0 then ([], (a, k) :: r)
    else ([(a, n)], (a + n, k - n) :: r)

/-- n numbers of runs: consecutive ones of the cycle that the runs form, from a place that the manual leaves open (log 10). -/
def State.pickRuns (s : State) (n : Nat) (free : List (Nat × Nat)) : List (Nat × Nat) × State :=
  let (c, s1) := s.takeFree
  let p := runsTake (Config.freeNat c % max (runsCount free) 1) free
  ((runsTake n (p.2 ++ p.1)).1.foldl runsPut [], s1)

/-! ## The page map of a domain (R287, R288) -/

/-- Numbers below n that lie in [lo, lo + k). -/
def belowIn (n lo k : Nat) : Nat := min (n - lo) k

/-- Pages below n that the device pins: the variant cache, the KV pool and the near window (R281, R288, R421). -/
def DomRecord.pinnedBelow (r : DomRecord) (n : Nat) : Nat :=
  let near := if r.kln3Mem then 65536 else 0
  belowIn n 0 near + belowIn n (max near r.cachePage0) (r.cachePage0 + r.cachePages - max near r.cachePage0) +
    belowIn n (max near r.kvPage0) (r.kvPage0 + r.kvPages - max near r.kvPage0)

/-- A page that the device pins. -/
def DomRecord.devPinned (r : DomRecord) (p : Nat) : Bool :=
  (r.kln3Mem && decide (p < 65536)) || (decide (r.cachePage0 ≤ p) && decide (p < r.cachePage0 + r.cachePages)) ||
    (decide (r.kvPage0 ≤ p) && decide (p < r.kvPage0 + r.kvPages))

/-- Pages of a range below n. -/
def DomRecord.rangeBelow (r : DomRecord) (n : Nat) : Nat :=
  if r.kln3Mem then min n 65536 + belowIn n (2 ^ 19) r.range else n

/-- Whether a page is STACKED at creation: device-pinned, or among the lowest others that QUOTA leaves frames for (R288). -/
def Dom.bornStacked (x : Dom) (p : Nat) : Bool :=
  x.rec_.devPinned p ||
    decide (x.rec_.rangeBelow p - x.rec_.pinnedBelow p < x.quota0 - x.rec_.pinnedBelow (2 ^ 27))

/-- How many of the pages STACKED at creation lie below a page. -/
def Dom.bornBelow (x : Dom) (p : Nat) : Nat :=
  x.rec_.pinnedBelow p + min (x.rec_.rangeBelow p - x.rec_.pinnedBelow p) (x.quota0 - x.rec_.pinnedBelow (2 ^ 27))

/-- A domain's own page map entry: the one written, or that of creation, with ZERO set (R288). -/
def Dom.entry (x : Dom) (p : Nat) : PageEntry :=
  (mapGet x.tir.pages p).getD { state := if x.bornStacked p then .stacked else .flash }

def Dom.putEntry (x : Dom) (p : Nat) (e : PageEntry) : Dom :=
  { x with tir := { x.tir with pages := mapSet x.tir.pages p e } }

def pageBytes : Nat := 2097152

/-- A page whose contents are gone: its entry is `e`, it reads as zeros, and no block of it is poisoned. -/
def Dom.wipePage (x : Dom) (p : Nat) (e : PageEntry) : Dom :=
  { x.putEntry p e with
      mem := memClear x.mem (pageBytes * p) pageBytes, poison := x.poison.filter (fun b => b / 32768 != p) }

/-- The frame of a page in STACKED, UP or DOWN: the one that it has taken, or that of creation (R288). -/
def Dom.frame? (x : Dom) (p : Nat) : Option Nat :=
  let e := x.entry p
  if e.state = .flash then none
  else match e.frame with
    | some f => some f
    | none => if x.bornStacked p then runsNth x.tir.born (x.bornBelow p) else none

/-- A page gives its frame back to the quota (R289). -/
def Dom.freeFrame (x : Dom) (p : Nat) : Dom :=
  match x.frame? p with
  | some f => { x with tir := { x.tir with spare := runsPut x.tir.spare (f, 1) } }
  | none => x

/-! ## Facts about domains -/

/-- A domain in one of the states in which its registers are reached (R407). -/
def Dom.alive (x : Dom) : Bool := x.phase == .active || x.phase == .preempted

/-- Events name a domain only while it is not SCRUBBING or FREE; domain 0 always stands (R512, R423). -/
def State.live (s : State) (d : Nat) : Bool :=
  d == 0 || !((s.dom d).phase == .free || (s.dom d).phase == .scrubbing)

/-- The key slot under which a domain writes: that of generation KEYGEN, or of the next while a rotation has made it current (R264, R443). -/
def Dom.curSlot (x : Dom) : Bool := (x.keys.keyGen % 2 == 1) != x.keys.prevLive

/-- The tick at whose latch a change accepted now takes effect, where a rule counts from the plan cut-off (R326, R422, R423). -/
def State.effectTick (s : State) : Nat :=
  if s.tik.ticking then s.tik.tick + 1 + bit01 s.tik.cutoffPassed else 0

/-- Changes the domains one by one, each once, in ascending order. -/
def State.eachDom (s : State) (f : State → Nat → State) : State := (s.doms.map Prod.fst).dedup.foldl f s

/-- Slabs may start, pause and end: between a latch and the end of its run phase. -/
def State.inRun (s : State) : Bool := s.tik.ticking && !s.tik.runEnded

/-- The domains 0 to 63. -/
def allDomains : List Nat := List.range 64

/-- First array and number of arrays of a domain's own range (R420). -/
def DomRecord.firstArray (r : DomRecord) : Nat := 128 * r.arrFirstUnit
def DomRecord.arrays (r : DomRecord) : Nat := 128 * r.arrUnits

/-- Units a domain holds now: its own that are not lent out, and those on loan to it (R427, R478). -/
def State.lentFrom (s : State) (d : Nat) : List Nat :=
  s.doms.flatMap (fun p => match p.2.loan with
    | some (first, n, lender) => if lender = d then List.range' first n else []
    | none => [])

def State.unitsOf (s : State) (d : Nat) : List Nat :=
  let x := s.dom d
  let own := List.range' x.rec_.arrFirstUnit x.rec_.arrUnits
  let lent := s.lentFrom d
  let borrowed := match x.loan with | some (f, n, _) => List.range' f n | none => []
  own.filter (fun u => !lent.contains u) ++ borrowed

/-- The domain that holds unit u, if one does. -/
def State.unitHolder (s : State) (u : Nat) : Option Nat :=
  (s.doms.find? (fun p => p.2.phase != .free && (s.unitsOf p.1).contains u)).map Prod.fst

end Sys2Proof.Machine
end

