-- ==== Sys2Proof/Machine/Flags.lean ====
section
/-! DEFINITION. Events, interrupt messages and the trace ring (R408, R465 to R470, R487, R512, R513). -/

namespace Sys2Proof.Machine

/-- A virtual function that answers: enabled, and not in its Function Level Reset (R425, R403). -/
def State.vfUp (s : State) (n : Nat) : Bool :=
  n != 0 && s.pci.vfEnable && n ≤ s.pci.numVfs && !s.pci.flr.contains n

/-- Sends an MSI-X message, or sets its Pending bit while the vector is masked (R408). -/
def State.msix (s : State) (fn vec : Nat) : State :=
  if fn = 0 || s.vfUp fn then
    if s.pci.unmasked.contains (2048 * fn + vec) then s.emit (.msix fn vec)
    else { s with pci := { s.pci with pendingBits := numAdd s.pci.pendingBits (2048 * fn + vec) } }
  else s

/-- Bits of BLK_EVENT that a VF sees on a page (R333, R475, R484, R357, R402). -/
def vfEventMask (p : Nat) : Nat :=
  if p = pTik then 0x3A
  else if p = pVec then 0x6
  else if p = pVar then 0x1F
  else if p = pKvp then 0xF
  else if p = pUpd then 0x7
  else if p = pBas then 0x8
  else if p = pTir then 0x3F
  else if p = pCol then 0x3
  else if p = pPci then 0x3
  else if p = pDom then 0x1F
  else if p = pLks then 0x7
  else if p = pPwr then 0x4
  else if 0x40 ≤ p ∧ p ≤ 0x7F then 0x7
  else 0

/-- Bits of BLK_EVENT that PF regions 1 to 63 show: those of the VF without the bits of R476. -/
def regionEventMask (p : Nat) : Nat :=
  if p = pVec ∨ p = pUpd then vfEventMask p &&& 0xFFFFFFF9 else vfEventMask p

/-- Sets bits in one copy of BLK_EVENT, and sends the block's vector when an enabled bit was clear (R408, R469). -/
def State.setEvent (s : State) (copy page : Nat) (bits : W32) : State :=
  let v := s.view copy page
  let s1 := s.putView copy page { v with event := v.event ||| bits }
  match blockOf page with
  | some b => if bits &&& ~~~ v.event &&& v.enable = 0 then s1 else s1.msix (copyFn copy) (2 + b)
  | none => s1

/-- The copies of a page in which an event of domain d sets its bit (R469, R476): the PF's for domain d, and VF d's. -/
def domCopies (page bit d : Nat) : List Nat :=
  let pf := if d = 0 then [64]
    else if hasSelector page then [64 + d]
    else if (regionEventMask page).testBit bit then [64 + d] else []
  if d ≠ 0 ∧ (vfEventMask page).testBit bit then d :: pf else pf

/-- The copies in which a device event sets its bit: every view that can see it (R469). -/
def State.devCopies (s : State) (page bit : Nat) : List Nat :=
  64 :: (allDomains.drop 1).flatMap (fun d =>
    (if (vfEventMask page).testBit bit && s.live d then [d] else []) ++
    (if hasSelector page || (regionEventMask page).testBit bit then [64 + d] else []))

/-- Whether the trace records an event in the present life-cycle state (R487). -/
def State.traces (s : State) (type d : Nat) (device : Bool) : Bool :=
  match s.fuses.life with
  | .blank => false
  | .retired => false
  | .prod => [0x01, 0x07, 0x08, 0x0A, 0x0B, 0x0D, 0x0E, 0x0F, 0x10, 0x11, 0x12].contains type && (device || d == 0)
  | _ => true

/-- The 16 bytes of a trace record (R487). -/
def traceBytes (time code type inst d : Nat) (device : Bool) : List Byte :=
  leBytes 8 time ++ leBytes 8 (fld code 0 16 + fld type 16 8 + fld inst 24 8 + fld d 32 6 + fld (bit01 device) 38 1)

/-- Writes one trace record, or drops it while domain 0 has no rate; tells whether HEAD passed a multiple of the ring (R487). -/
def State.traceWrite (s : State) (code type inst d : Nat) (device : Bool) : Bool × State :=
  let size := 2 ^ (min s.dbg.traceLog2 20)
  let i := s.dbg.traceHead.toNat % size
  let head := s.dbg.traceHead + 1
  let page := (s.dbg.traceBase + 16 * i) / 2097152
  let s1 : State := { s with dbg :=
    { s.dbg with traceHead := head, traced := if (s.dom 0).rate = 0 then s.dbg.traced else numAdd s.dbg.traced page } }
  let s2 :=
    if (s.dom 0).rate = 0 then s1.bump dev pDbg 1 1
    else (s1.bump dev pDbg 0 1).updDom 0 (fun x =>
      { x with mem := memPut x.mem (s.dbg.traceBase + 16 * i) (traceBytes s.tik.timeNs code type inst d device) })
  (head.toNat % size = 0, s2)

/-- Records an event in the trace while EN is set; at a wrap TRACE_WRAP is raised and recorded itself (R487; log 14). -/
def State.trace (s : State) (code type inst d : Nat) (device : Bool) : State :=
  if s.dbg.traceEn && s.traces type d device then
    let (wrap, s1) := s.traceWrite code type inst d device
    if wrap then
      let s2 := s1.setEvent 64 pDbg 1
      if s2.traces 0x13 0 true then (s2.traceWrite 0x1300 0x13 0 0 true).2 else s2
    else s1
  else s

/-- A device event: bit `bit` of BLK_EVENT of a page, in every view that can see it (R469, R513). -/
def State.raiseDev (s : State) (page bit : Nat) : State :=
  let type := ((blockOf page).getD 0) + 1
  let s1 := (s.devCopies page bit).foldl (fun t c => t.setEvent c page (w32 (2 ^ bit))) s
  s1.trace (256 * type + bit) type (instanceOf page) 0 true

/-- A domain event: discarded while the domain is SCRUBBING or FREE (R512, R469). -/
def State.raiseDom (s : State) (page bit d : Nat) : State :=
  if s.live d then
    let type := ((blockOf page).getD 0) + 1
    let s1 := (domCopies page bit d).foldl (fun t c => t.setEvent c page (w32 (2 ^ bit))) s
    s1.trace (256 * type + bit) type (instanceOf page) d false
  else s

/-- An event that only one copy sees: a command's result or rejection (R123, R459). -/
def State.raiseCopy (s : State) (page bit copy : Nat) : State :=
  let type := ((blockOf page).getD 0) + 1
  let d := if copy < 64 then copy else copy - 64
  (s.setEvent copy page (w32 (2 ^ bit))).trace (256 * type + bit) type (instanceOf page) d false

/-- An event of an array unit: the PF's device view, and the views of the domain that holds the unit (R478, R481). -/
def State.raiseUnit (s : State) (u bit : Nat) : State :=
  let copies := 64 :: (match s.unitHolder u with
    | some d => if d = 0 then [] else if s.live d then [d, 64 + d] else []
    | none => [])
  let s1 := copies.foldl (fun t c => t.setEvent c (pArg u) (w32 (2 ^ bit))) s
  s1.trace (0x200 + bit) 2 u ((s.unitHolder u).getD 0) (s.unitHolder u).isNone

/-- CMD bits of a page: the event bits of CMD_DONE and CMD_OVERRUN (R514). -/
def cmdBits (page : Nat) : Nat × Nat :=
  if page = pTik then (6, 7) else if page = pVar then (0, 3) else if page = pKvp then (0, 3)
  else if page = pBas then (0, 5) else if page = pTir then (0, 3) else (0, 1)

end Sys2Proof.Machine
end

