-- ==== Sys2Proof/Machine/Crypto.lean ====
section
/-! DEFINITION. The published ciphers, hashes and checks the manual names: AES (FIPS 197), GCM, SHA-384, HMAC and HKDF, CRC-32C (R49, R224, R301, R367, R396, R445, R446). Numbers stand for strings of bits, byte 0 lowest, unless a comment says otherwise. -/

namespace Sys2Proof.Machine

/-! ## AES -/

/-- The S-box of FIPS 197, entry i in bits [8i+7:8i]. -/
def aesSbox : Nat :=
  0xd2f3ff1021dab6bcf5389d928f40a351a89f3c507f02f94585334d43fbaaefd0cf584c4a39becb6a5bb1fc20ed00d153842fe329b3d63b52a05a6e1b1a2c830975b227ebe28012079a059618c323c7041531d871f1e5a534ccf73f362693fdb7c072a49cafa2d4adf04759fa7dc982ca76abd7fe2b670130c56f6bf27b777c63 +
  (0x16bb54b00f2d99416842e6bf0d89a18cdf2855cee9871e9b948ed9691198f8e19e1dc186b95735610ef6034866b53e708a8bbd4b1f74dde8c6b4a61c2e2578ba08ae7a65eaf4566ca94ed58d6d37c8e779e4959162acd3c25c2406490a3a32e0db0b5ede14b8ee4688902a22dc4f816073195d643d7ea7c41744975fec130ccd <<< 1024)

def aesSub (b : Nat) : Nat := (aesSbox >>> (8 * b)) % 256

/-- Multiplication by x in GF(2^8). -/
def aesXtime (b : Nat) : Nat := if b < 128 then 2 * b else (2 * b - 256) ^^^ 0x1B

/-- Byte i of a 16-byte state. -/
def byteAt (x i : Nat) : Nat := (x >>> (8 * i)) % 256

/-- The number whose byte i is f i, for i below n. -/
def bytesBy (n : Nat) (f : Nat → Nat) : Nat := (List.range n).foldl (fun a i => a + (f i <<< (8 * i))) 0

/-- SubBytes and ShiftRows: column c takes row r from column c + r. -/
def aesSubShift (x : Nat) : Nat := bytesBy 16 (fun i => aesSub (byteAt x ((i + 4 * (i % 4)) % 16)))

/-- MixColumns. -/
def aesMix (x : Nat) : Nat :=
  bytesBy 16 (fun i =>
    let c := 4 * (i / 4)
    let a := byteAt x i
    let b := byteAt x (c + (i + 1) % 4)
    let d := byteAt x (c + (i + 2) % 4)
    let e := byteAt x (c + (i + 3) % 4)
    aesXtime a ^^^ (aesXtime b ^^^ b) ^^^ d ^^^ e)

def aesRotWord (w : Nat) : Nat := (w >>> 8) + ((w % 256) <<< 24)
def aesSubWord (w : Nat) : Nat := bytesBy 4 (fun i => aesSub (byteAt w i))

/-- Key expansion: `n` further words after the words so far (newest first), for a key of nk words. -/
def aesExpand (nk : Nat) : Nat → Nat → Nat → List Nat → List Nat
  | 0, _, _, ws => ws
  | n + 1, i, rcon, ws =>
    let prev := ws.getD 0 0
    let old := ws.getD (nk - 1) 0
    if i % nk = 0 then
      aesExpand nk n (i + 1) (aesXtime rcon) ((old ^^^ aesSubWord (aesRotWord prev) ^^^ rcon) :: ws)
    else if nk = 8 ∧ i % nk = 4 then aesExpand nk n (i + 1) rcon ((old ^^^ aesSubWord prev) :: ws)
    else aesExpand nk n (i + 1) rcon ((old ^^^ prev) :: ws)

/-- The round keys of a key of nk words, 16 bytes each. -/
def aesRoundKeys (nk key : Nat) : List Nat :=
  let ws := (aesExpand nk (4 * (nk + 7) - nk) nk 1
    ((List.range nk).map (fun i => (key >>> (32 * i)) % 2 ^ 32)).reverse).reverse
  (List.range (nk + 7)).map (fun r => 
    (ws.getD (4 * r) 0) + (ws.getD (4 * r + 1) 0 <<< 32) + (ws.getD (4 * r + 2) 0 <<< 64) + (ws.getD (4 * r + 3) 0 <<< 96))

/-- The rounds after the first key addition. -/
def aesRounds : List Nat → Nat → Nat
  | [], x => x
  | [k], x => aesSubShift x ^^^ k
  | k :: l :: r, x => aesRounds (l :: r) (aesMix (aesSubShift x) ^^^ k)

/-- AES encryption of one block; nk is 4 for AES-128 and 8 for AES-256. -/
def aesEncrypt (nk key block : Nat) : Nat :=
  match aesRoundKeys nk key with
  | [] => 0
  | k :: r => aesRounds r (block ^^^ k)

/-- The number with its n bytes in the opposite order. -/
def revBytes (n x : Nat) : Nat := bytesBy n (fun i => byteAt x (n - 1 - i))

/-- The inverse of the S-box. -/
def aesInvSub (b : Nat) : Nat := ((List.range 256).find? (fun i => aesSub i == b)).getD 0

/-- InvShiftRows and InvSubBytes. -/
def aesInvSubShift (x : Nat) : Nat := bytesBy 16 (fun i => aesInvSub (byteAt x ((i + 12 * (i % 4)) % 16)))

/-- InvMixColumns: MixColumns three times, since its fourth power is the identity. -/
def aesInvMix (x : Nat) : Nat := aesMix (aesMix (aesMix x))

/-- The inverse rounds, from the last round key down. -/
def aesInvRounds : List Nat → Nat → Nat
  | [], x => x
  | [k], x => aesInvSubShift x ^^^ k
  | k :: l :: r, x => aesInvRounds (l :: r) (aesInvMix (aesInvSubShift x ^^^ k))

/-- AES decryption of one block. -/
def aesDecrypt (nk key block : Nat) : Nat :=
  match (aesRoundKeys nk key).reverse with
  | [] => 0
  | k :: r => aesInvRounds r (block ^^^ k)

/-- One unwrapping step of AES-KW (SP 800-38F): the step number, the check half A and the data halves, 8 bytes each. -/
def unwrapStep (key n : Nat) (p : Nat × List Nat) (k : Nat) : Nat × List Nat :=
  let t := n * 6 - k
  let i := (t - 1) % n
  let b := aesDecrypt 8 key ((p.1 ^^^ revBytes 8 t) + (p.2.getD i 0 <<< 64))
  (b % 2 ^ 64, p.2.set i (b >>> 64))

/-- AES-KW unwrapping of a 40-byte wrapped 256-bit key; none when the check value is wrong. -/
def keyUnwrap (key : Nat) (bs : List Byte) : Option (List Byte) :=
  let c (i : Nat) : Nat := ofLe ((bs.drop (8 * i)).take 8)
  let r := (List.range 24).foldl (unwrapStep key 4) (c 0, [c 1, c 2, c 3, c 4])
  if bs.length = 40 ∧ r.1 = 0xA6A6A6A6A6A6A6A6 then some (r.2.flatMap (leBytes 8)) else none

/-! ## GCM with AES-256 -/

/-- One step of the GHASH product: z, v and the next bit of x (bit 127 first). -/
def ghashMul (x y : Nat) : Nat :=
  ((List.range 128).foldl (fun (zv : Nat × Nat) i =>
    let z := if x.testBit (127 - i) then zv.1 ^^^ zv.2 else zv.1
    let v := if zv.2 % 2 = 1 then (zv.2 / 2) ^^^ (0xE1 <<< 120) else zv.2 / 2
    (z, v)) (0, y)).1

/-- The bytes of a string in 16-byte blocks, each as a big-endian number, the last one padded with zeros. -/
def ghashBlocks : Nat → List Byte → List Nat
  | 0, _ => []
  | n + 1, bs => revBytes 16 (ofLe (bs.take 16)) :: ghashBlocks n (bs.drop 16)

def ghash (h : Nat) (aad ct : List Byte) : Nat :=
  let bl := ghashBlocks (ceilDiv aad.length 16) aad ++ ghashBlocks (ceilDiv ct.length 16) ct
    ++ [(8 * aad.length) <<< 64 + 8 * ct.length]
  bl.foldl (fun y x => ghashMul (y ^^^ x) h) 0

/-- The counter block of GCM: a 96-bit nonce and a big-endian 32-bit count. -/
def gcmCounter (nonce n : Nat) : Nat := nonce % 2 ^ 96 + (revBytes 4 (n % 2 ^ 32) <<< 96)

/-- The key stream from count n on, cut to the data. -/
def gcmCrypt (key nonce : Nat) : Nat → Nat → List Byte → List Byte
  | 0, _, _ => []
  | b + 1, n, bs =>
    List.zipWith (fun x y => x ^^^ y) (bs.take 16) (leBytes 16 (aesEncrypt 8 key (gcmCounter nonce n)))
      ++ gcmCrypt key nonce b (n + 1) (bs.drop 16)

/-- Ciphertext (or plaintext) of AES-256-GCM. -/
def gcmData (key nonce : Nat) (bs : List Byte) : List Byte := gcmCrypt key nonce (ceilDiv bs.length 16) 2 bs

/-- The 16-byte tag of AES-256-GCM over a ciphertext. -/
def gcmTag (key nonce : Nat) (aad ct : List Byte) : List Byte :=
  let h := revBytes 16 (aesEncrypt 8 key 0)
  let e := aesEncrypt 8 key (gcmCounter nonce 1)
  leBytes 16 (revBytes 16 (ghash h aad ct) ^^^ e)

/-! ## SHA-384 -/

/-- The round constants of SHA-512 and SHA-384, entry i in bits [64i+63:64i]. -/
def shaK : Nat :=
  0xc19bf174cf6926949bdc06a725c7123580deb1fe3b1696b172be5d74f27b896f550c7dc3d5ffb4e2243185be4ee4b28c12835b0145706fbed807aa98a3030242ab1c5ed5da6d8118923f82a4af194f9b59f111f1b605d0193956c25bf348b538e9b5dba58189dbbcb5c0fbcfec4d3b2f7137449123ef65cd428a2f98d728ae22 +
  (0x142929670a0e6e7006ca6351e003826fd5a79147930aa725c6e00bf33da88fc2bf597fc7beef0ee4b00327c898fb213fa831c66d2db43210983e5152ee66dfab76f988da831153b55cb0a9dcbd41fbd44a7484aa6ea6e4832de92c6f592b0275240ca1cc77ac9c650fc19dc68b8cd5b5efbe4786384f25e3e49b69c19ef14ad2 <<< 1024) +
  (0x106aa07032bbd1b8f40e35855771202ad69906245565a910d192e819d6ef5218c76c51a30654be30c24b8b70d0f89791a81a664bbc423001a2bfe8a14cf1036492722c851482353b81c2c92e47edaee6766a0abb3c77b2a8650a73548baf63de53380d139d95b3df4d2c6dfc5ac42aed2e1b21385c26c92627b70a8546d22ffc <<< 2048) +
  (0xc67178f2e372532bbef9a3f7b2c67915a4506cebde82bde990befffa23631e288cc702081a6439ec84c87814a1f0ab7278a5636f43172f60748f82ee5defb2fc682e6ff3d6b2b8a35b9cca4f7763e3734ed8aa4ae3418acb391c0cb3c5c95a6334b0bcb5e19b48a82748774cdf8eeb991e376c085141ab5319a4c116b8d2d0c8 <<< 3072) +
  (0x6c44198c4a4758175fcb6fab3ad6faec597f299cfc657e2a4cc5d4becb3e42b6431d67c49c100d4c3c9ebe0a15c9bebc32caab7b40c7249328db77f523047d841b710b35131c471b113f9804bef90dae0a637dc5a2c898a606f067aa72176fbaf57d4f7fee6ed178eada7dd6cde0eb1ed186b8c721c0c207ca273eceea26619c <<< 4096)

def rotr64 (x n : Nat) : Nat := (x >>> n) ||| ((x <<< (64 - n)) % 2 ^ 64)

/-- The message schedule: newest word first, n further words. -/
def shaSchedule : Nat → List Nat → List Nat
  | 0, ws => ws
  | n + 1, ws =>
    let a := ws.getD 14 0
    let b := ws.getD 1 0
    let s0 := rotr64 a 1 ^^^ rotr64 a 8 ^^^ (a >>> 7)
    let s1 := rotr64 b 19 ^^^ rotr64 b 61 ^^^ (b >>> 6)
    shaSchedule n (((ws.getD 15 0 + s0 + ws.getD 6 0 + s1) % 2 ^ 64) :: ws)

/-- One round on the eight working variables. -/
def shaRound (v : List Nat) (kw : Nat) : List Nat :=
  match v with
  | [a, b, c, d, e, f, g, h] =>
    let s1 := rotr64 e 14 ^^^ rotr64 e 18 ^^^ rotr64 e 41
    let ch := (e &&& f) ^^^ ((2 ^ 64 - 1 - e) &&& g)
    let t1 := h + s1 + ch + kw
    let s0 := rotr64 a 28 ^^^ rotr64 a 34 ^^^ rotr64 a 39
    let maj := (a &&& b) ^^^ (a &&& c) ^^^ (b &&& c)
    [(t1 + s0 + maj) % 2 ^ 64, a, b, c, (d + t1) % 2 ^ 64, e, f, g]
  | other => other

/-- The compression of one 128-byte block. -/
def shaBlock (hs : List Nat) (block : List Byte) : List Nat :=
  let ws0 := (List.range 16).map (fun i => revBytes 8 (ofLe ((block.drop (8 * i)).take 8)))
  let ws := (shaSchedule 64 ws0.reverse).reverse
  let v := (ws.zipIdx).foldl (fun v p => shaRound v (p.1 + (shaK >>> (64 * p.2)) % 2 ^ 64)) hs
  List.zipWith (fun a b => (a + b) % 2 ^ 64) hs v

def shaBlocks : Nat → List Nat → List Byte → List Nat
  | 0, hs, _ => hs
  | n + 1, hs, bs => shaBlocks n (shaBlock hs (bs.take 128)) (bs.drop 128)

/-- The SHA-384 digest, 48 bytes. -/
def sha384 (msg : List Byte) : List Byte :=
  let zeros := (240 - (msg.length + 1) % 128) % 128
  let padded := msg ++ [0x80] ++ List.replicate zeros 0 ++ leBytes 16 (revBytes 16 (8 * msg.length))
  let hs := shaBlocks (padded.length / 128)
    [0xcbbb9d5dc1059ed8, 0x629a292a367cd507, 0x9159015a3070dd17, 0x152fecd8f70e5939,
     0x67332667ffc00b31, 0x8eb44a8768581511, 0xdb0c2e0d64f98fa7, 0x47b5481dbefa4fa4] padded
  (hs.take 6).flatMap (fun h => leBytes 8 (revBytes 8 h))

/-- HMAC-SHA-384. -/
def hmac384 (key msg : List Byte) : List Byte :=
  let k0 := if key.length > 128 then sha384 key else key
  let k := k0 ++ List.replicate (128 - k0.length) 0
  sha384 (k.map (fun b => b ^^^ 0x5C) ++ sha384 (k.map (fun b => b ^^^ 0x36) ++ msg))

/-- HKDF-SHA-384 for outputs of at most 48 bytes. -/
def hkdf384 (ikm salt info : List Byte) (n : Nat) : List Byte :=
  (hmac384 (hmac384 salt ikm) (info ++ [1])).take n

/-! ## CRC-32C (R367) -/

/-- One byte into the reflected CRC of polynomial 0x1EDC_6F41. -/
def crcByte (c : Nat) (b : Byte) : Nat :=
  (List.range 8).foldl (fun x _ => if x % 2 = 1 then (x / 2) ^^^ 0x82F63B78 else x / 2) (c ^^^ b.toNat)

def crc32c (bs : List Byte) : Nat := (bs.foldl crcByte 0xFFFFFFFF) ^^^ 0xFFFFFFFF

/-- The ASCII bytes of a string. -/
def asciiBytes (t : String) : List Byte := t.toList.map (fun c => BitVec.ofNat 8 c.toNat)

end Sys2Proof.Machine
end

