-- ==== Sys2Proof/Machine/Fp.lean ====
section
/-! DEFINITION. Exact binary numbers and their rounding to the published floating formats (R28, R42, R48). -/

namespace Sys2Proof.Machine

/-- A value as the arithmetic sees it: not a number, an infinity, or ± m × 2^e exactly. -/
inductive Num where
  | nan
  | inf (neg : Bool)
  | fin (neg : Bool) (m : Nat) (e : Int)
deriving DecidableEq, Repr, Inhabited

def Num.zero : Num := .fin false 0 0
def Num.one : Num := .fin false 1 0

def Num.isNan : Num → Bool
  | .nan => true
  | .inf _ => false
  | .fin _ _ _ => false

def Num.isFinite : Num → Bool
  | .fin _ _ _ => true
  | .nan => false
  | .inf _ => false

def Num.isZero : Num → Bool
  | .fin _ m _ => m == 0
  | .nan => false
  | .inf _ => false

/-- The value of a code with eb exponent bits and mb mantissa bits, the top exponent reserved for infinities and NaN when `ieee` (R28, R29). -/
def decodeFloat (eb mb : Nat) (ieee : Bool) (code : Nat) : Num :=
  let neg := code.testBit (eb + mb)
  let ex := bitsOf code mb eb
  let man := bitsOf code 0 mb
  let bias : Int := (2 ^ (eb - 1) : Nat) - 1
  if ieee && ex == 2 ^ eb - 1 then (if man = 0 then .inf neg else .nan)
  else if ex = 0 then .fin neg man (1 - bias - mb)
  else .fin neg (2 ^ mb + man) (ex - bias - mb)

/-- m × 2^e ≤ n × 2^k, exactly. -/
def dyLe (m : Nat) (e : Int) (n : Nat) (k : Int) : Bool :=
  if e ≤ k then decide (m ≤ n <<< (k - e).toNat) else decide (m <<< (e - k).toNat ≤ n)

/-- The exponent of the unit in the last place that m × 2^e has in a format (subnormals included). -/
def ulpExp (eb mb : Nat) (m : Nat) (e : Int) : Int :=
  let bias : Int := (2 ^ (eb - 1) : Nat) - 1
  max (Nat.log2 m + e) (1 - bias) - mb

/-- The magnitude code of a whole number of units in the last place `q`. -/
def magCode (eb mb : Nat) (man : Nat) (q : Int) : Nat :=
  let bias : Int := (2 ^ (eb - 1) : Nat) - 1
  man + (q + mb + bias - 1).toNat * 2 ^ mb

/-- The magnitude code nearest to m × 2^e, ties to the even code, without a bound at the top (R42). -/
def roundMag (eb mb : Nat) (m : Nat) (e : Int) : Nat :=
  if m = 0 then 0 else
  let q := ulpExp eb mb m e
  if q ≤ e then magCode eb mb (m <<< (e - q).toNat) q
  else
    let d := (q - e).toNat
    let lo := m >>> d
    let rem := m % 2 ^ d
    let up := decide (2 * rem > 2 ^ d) || (decide (2 * rem = 2 ^ d) && lo % 2 == 1)
    magCode eb mb (lo + bit01 up) q

/-- Round to nearest even in an IEEE format: NaN canonical, overflow to infinity (R28). -/
def roundIeee (eb mb : Nat) : Num → Nat
  | .nan => (2 ^ eb - 1) * 2 ^ mb + 2 ^ (mb - 1)
  | .inf neg => fld (bit01 neg) (eb + mb) 1 + (2 ^ eb - 1) * 2 ^ mb
  | .fin neg m e =>
    fld (bit01 neg) (eb + mb) 1 + min (roundMag eb mb m e) ((2 ^ eb - 1) * 2 ^ mb)

/-- Stochastic rounding of a magnitude: the two neighbours and the 16-bit fraction decide against the draw r (R48).
The draw counts towards the greater of the two signed values. -/
def stochMag (eb mb : Nat) (neg : Bool) (m : Nat) (e : Int) (r : Nat) : Nat :=
  if m = 0 then 0 else
  let q := ulpExp eb mb m e
  if q ≤ e then magCode eb mb (m <<< (e - q).toNat) q
  else
    let d := (q - e).toNat
    let lo := m >>> d
    let rem := m % 2 ^ d
    if rem = 0 then magCode eb mb lo q
    else
      let f := if neg then (2 ^ d - rem) * 65536 / 2 ^ d else rem * 65536 / 2 ^ d
      let up := if neg then !decide (r < f) else decide (r < f)
      magCode eb mb (lo + bit01 up) q

/-! ## Exact arithmetic -/

/-- The exact product; 0 × infinity is NaN. -/
def Num.mul : Num → Num → Num
  | .nan, _ => .nan
  | _, .nan => .nan
  | .inf a, .inf b => .inf (a != b)
  | .inf a, .fin b m _ => if m = 0 then .nan else .inf (a != b)
  | .fin a m _, .inf b => if m = 0 then .nan else .inf (a != b)
  | .fin a m e, .fin b n k => .fin (a != b) (m * n) (e + k)

/-- The signed whole number of units 2^k in ± m × 2^e, for k ≤ e. -/
def toUnits (neg : Bool) (m : Nat) (e k : Int) : Int :=
  let v : Int := (m <<< (e - k).toNat : Nat)
  if neg then -v else v

/-- The exact sum; opposite infinities give NaN, an exact zero from unequal terms is +0. -/
def Num.add : Num → Num → Num
  | .nan, _ => .nan
  | _, .nan => .nan
  | .inf a, .inf b => if a = b then .inf a else .nan
  | .inf a, .fin _ _ _ => .inf a
  | .fin _ _ _, .inf b => .inf b
  | .fin a m e, .fin b n k =>
    if m = 0 ∧ n = 0 then .fin (a && b) 0 0
    else if m = 0 then .fin b n k
    else if n = 0 then .fin a m e
    else
      let x := min e k
      let v := toUnits a m e x + toUnits b n k x
      .fin (decide (v < 0)) v.natAbs x

def Num.neg : Num → Num
  | .nan => .nan
  | .inf a => .inf (!a)
  | .fin a m e => .fin (!a) m e

def Num.abs : Num → Num
  | .nan => .nan
  | .inf _ => .inf false
  | .fin _ m e => .fin false m e

/-- x × 2^k. -/
def Num.scale (x : Num) (k : Int) : Num :=
  match x with
  | .fin a m e => .fin a m (e + k)
  | .nan => .nan
  | .inf a => .inf a

/-- The quotient to 64 bits with a sticky bit below, so that one later rounding is correct. -/
def Num.div : Num → Num → Num
  | .nan, _ => .nan
  | _, .nan => .nan
  | .inf _, .inf _ => .nan
  | .inf a, .fin b _ _ => .inf (a != b)
  | .fin a _ _, .inf b => .fin (a != b) 0 0
  | .fin a m e, .fin b n k =>
    if n = 0 then (if m = 0 then .nan else .inf (a != b))
    else if m = 0 then .fin (a != b) 0 0
    else
      let sh := Nat.log2 n + 64
      let q := (m <<< sh) / n
      let sticky := bit01 (decide ((m <<< sh) % n ≠ 0))
      .fin (a != b) (2 * q + sticky) (e - k - sh - 1)

/-- Newton's iteration for the whole square root, from above. -/
def isqrtGo : Nat → Nat → Nat → Nat
  | 0, _, x => x
  | f + 1, n, x =>
    let y := (x + n / x) / 2
    if y < x then isqrtGo f n y else x

/-- The whole square root of n. -/
def isqrt (n : Nat) : Nat := if n = 0 then 0 else isqrtGo (Nat.log2 n + 2) n (2 ^ (Nat.log2 n / 2 + 1))

/-- The square root to 64 bits with a sticky bit below. -/
def Num.sqrt : Num → Num
  | .nan => .nan
  | .inf a => if a then .nan else .inf false
  | .fin a m e =>
    if m = 0 then .fin a 0 0
    else if a then .nan
    else
      -- an even exponent, and 128 more bits
      let (m1, e1) := if e % 2 = 0 then (m, e) else (2 * m, e - 1)
      let n := m1 <<< 128
      let r := isqrt n
      let sticky := bit01 (decide (r * r ≠ n))
      .fin false (2 * r + sticky) (e1 / 2 - 64 - 1)

/-- x < y on numbers that are not NaN. -/
def Num.lt (x y : Num) : Bool :=
  match x.add y.neg with
  | .fin a m _ => a && m != 0
  | .inf a => a
  | .nan => false

/-! ## FP32 (R28) -/

def f32 (w : W32) : Num := decodeFloat 8 23 true w.toNat
def toF32 (x : Num) : W32 := BitVec.ofNat 32 (roundIeee 8 23 x)
def f32Nan : W32 := 0x7FC00000

def fadd (a b : W32) : W32 := toF32 ((f32 a).add (f32 b))
def fsub (a b : W32) : W32 := toF32 ((f32 a).add (f32 b).neg)
def fmul (a b : W32) : W32 := toF32 ((f32 a).mul (f32 b))
def fdiv (a b : W32) : W32 := toF32 ((f32 a).div (f32 b))
def fsqrt (a : W32) : W32 := toF32 (f32 a).sqrt

/-- a × b + c with one rounding. -/
def ffma (a b c : W32) : W32 := toF32 (((f32 a).mul (f32 b)).add (f32 c))

/-- Sign flip and magnitude; a NaN is written canonical (R28). -/
def fneg (a : W32) : W32 := if (f32 a).isNan then f32Nan else a ^^^ 0x80000000
def fabs (a : W32) : W32 := if (f32 a).isNan then f32Nan else a &&& 0x7FFFFFFF

/-- The FP32 of a whole number. -/
def f32OfNat (n : Nat) : W32 := toF32 (.fin false n 0)

/-- 2^k as FP32. -/
def f32Pow2 (k : Int) : W32 := toF32 (.fin false 1 k)

def f32Finite (a : W32) : Bool := (f32 a).isFinite

/-- ⌈log₂ x⌉ of a positive m × 2^e. -/
def ceilLog2Num (m : Nat) (e : Int) : Int :=
  (if m = 2 ^ Nat.log2 m then (Nat.log2 m : Int) else Nat.log2 m + 1) + e

end Sys2Proof.Machine
end

