-- ==== Sys2Proof/Machine/Formats.lean ====
section
/-! DEFINITION. The ten element formats, their blocks, escape records, encoding, stochastic draws and residues (R27 to R54). -/

namespace Sys2Proof.Machine

/-! ## Format codes (R27) -/

def fmtDefined (f : Nat) : Bool := 1 ≤ f && f ≤ 10
def fmtBlock (f : Nat) : Bool := 4 ≤ f && f ≤ 10
def fmtEscapes (f : Nat) : Bool := 8 ≤ f && f ≤ 10

/-- Bytes of 32 elements (BB of R35). -/
def fmtBytes (f : Nat) : Nat :=
  match f with
  | 1 => 128 | 2 => 64 | 3 => 64 | 4 => 32 | 5 => 32 | 6 => 24 | 7 => 24 | 8 => 16 | 9 => 12 | 10 => 7
  | _ => 0

/-- Exponent and mantissa bits of a float format or element (R28, R29). -/
def fmtEb (f : Nat) : Nat :=
  match f with
  | 1 => 8 | 2 => 8 | 3 => 5 | 4 => 4 | 5 => 5 | 6 => 3 | 7 => 2 | 8 => 2 | _ => 0
def fmtMb (f : Nat) : Nat :=
  match f with
  | 1 => 23 | 2 => 7 | 3 => 10 | 4 => 3 | 5 => 2 | 6 => 2 | 7 => 3 | 8 => 1 | _ => 0

/-- The width of one element code; NT2 packs five digits a byte instead. -/
def fmtBits (f : Nat) : Nat := match f with | 9 => 3 | 10 => 2 | _ => 1 + fmtEb f + fmtMb f

/-- The dot-product width W of R61. -/
def fmtWidth (f : Nat) : Nat :=
  match f with
  | 10 => 32 | 8 => 16 | 9 => 16 | 4 => 8 | 5 => 8 | 6 => 8 | 7 => 8 | 2 => 4 | 3 => 4 | _ => 0

/-- The largest finite magnitude M as a dyadic number (R41). -/
def fmtMax (f : Nat) : Nat × Int :=
  match f with
  | 4 => (448, 0) | 5 => (57344, 0) | 6 => (28, 0) | 7 => (15, -1) | 8 => (6, 0) | 9 => (2, 0) | _ => (1, 0)

/-- The magnitude code of M. -/
def fmtMaxCode (f : Nat) : Nat :=
  match f with
  | 1 => 0x7F7FFFFF | 2 => 0x7F7F | 3 => 0x7BFF
  | 4 => 0x7E | 5 => 0x7B | 6 => 0x1F | 7 => 0x1F | 8 => 0x7 | 9 => 3 | _ => 1

/-- The value of an element code, without its block scale (R28 to R32). The E2M1 code 0b1000 keeps its sign and reads as -0 (DEDUCED, log 128). -/
def elemNum (f code : Nat) : Num :=
  match f with
  | 1 => decodeFloat 8 23 true code
  | 2 => decodeFloat 8 7 true code
  | 3 => decodeFloat 5 10 true code
  | 4 => if code % 128 = 127 then .nan else decodeFloat 4 3 false code
  | 5 => decodeFloat 5 2 true code
  | 6 => decodeFloat 3 2 false code
  | 7 => decodeFloat 2 3 false code
  | 8 => decodeFloat 2 1 false code
  | 9 =>
    let neg := code.testBit 2
    (match code % 4 with | 0 => .fin false 0 0 | 1 => .fin neg 1 (-1) | 2 => .fin neg 1 0 | _ => .fin neg 2 0)
  | _ => if code = 1 then .fin false 1 0 else if code = 2 then .fin true 1 0 else .fin false 0 0

/-- The 32 element codes of a block, and whether an NT2 byte is invalid (R33, R36). -/
def blockCodes (f : Nat) (bytes : List Byte) : List Nat × Bool :=
  if f = 10 then
    let bad := bytes.any (fun b => b.toNat ≥ 243)
    ((List.range 32).map (fun i =>
      let b := (bytes.getD (i / 5) 0).toNat
      if b ≥ 243 then 0 else b / 3 ^ (i % 5) % 3), bad)
  else
    let x := ofLe bytes
    let w := fmtBits f
    ((List.range 32).map (fun i => bitsOf x (w * i) w), false)

/-- Packs 32 element codes (R36). -/
def packCodes (f : Nat) (codes : List Nat) : List Byte :=
  if f = 10 then
    (List.range 7).map (fun k =>
      BitVec.ofNat 8 (((List.range 5).map (fun j => (codes.getD (5 * k + j) 0) * 3 ^ j)).sum))
  else
    leBytes (fmtBytes f) ((codes.zipIdx).map (fun p => p.1 <<< (fmtBits f * p.2))).sum

/-- The scale of an E8M0 byte as a power of two, or none for NaN (R30). -/
def scaleExp? (b : Byte) : Option Int := if b = 0xFF then none else some ((b.toNat : Int) - 127)

/-- The entries of an escape record, and whether it is faulty (R37, R39). -/
def escEntries (r : Nat) : List (Nat × Nat) × Bool :=
  let i0 := bitsOf r 0 5
  let i1 := bitsOf r 5 5
  let v0 := bitsOf r 16 8
  let v1 := bitsOf r 24 8
  let nan (v : Nat) : Bool := v % 128 == 127
  match bitsOf r 10 2 with
  | 0 => ([], false)
  | 1 => ([(i0, v0)], nan v0)
  | 2 => ([(i0, v0), (i1, v1)], i0 == i1 || nan v0 || nan v1)
  | _ => ([], true)

/-- The 32 values of a stored block and whether it breaks R33 or R39. `valid` elements lie in the row; the rest read as zero (R34), also in a block of scale 0xFF (DEDUCED, log 130). An invalid byte or a faulty record breaks the block wherever it stands (DEDUCED, log 129). -/
def blockNums (f : Nat) (elems : List Byte) (scale : Byte) (esc : Option Nat) (valid : Nat) : List Num × Bool :=
  let (codes, bad) := blockCodes f elems
  if fmtBlock f then
    let (entries, badEsc) := match esc with | some r => escEntries r | none => ([], false)
    let nums := (codes.zipIdx).map (fun p =>
      if valid ≤ p.2 then Num.zero
      else match scaleExp? scale with
        | none => Num.nan
        | some k =>
          match entries.find? (fun e => e.1 == p.2) with
          | some e => (elemNum 4 e.2).scale k
          | none => (elemNum f p.1).scale k)
    (nums, bad || badEsc)
  else
    ((codes.zipIdx).map (fun p => if valid ≤ p.2 then Num.zero else elemNum f p.1), false)

/-! ## Encoding (R40 to R43, R48) -/

/-- Nearest code of a magnitude m × 2^e in an element format, saturated at M (R41, R42). -/
def encodeMag (f m : Nat) (e : Int) : Nat :=
  match f with
  | 9 => if dyLe m e 1 (-2) then 0 else if dyLe m e 3 (-2) then 1 else if dyLe m e 3 (-1) then 2 else 3
  | 10 => if dyLe m e 1 (-1) then 0 else 1
  | _ => min (roundMag (fmtEb f) (fmtMb f) m e) (fmtMaxCode f)

/-- A code with its sign; zero is written with a clear sign (R42). -/
def signCode (f : Nat) (neg : Bool) (mag : Nat) : Nat :=
  if mag = 0 then 0
  else if f = 10 then (if neg then 2 else 1)
  else mag + (if neg then 2 ^ (fmtBits f - 1) else 0)

/-- Encodes a finite value t, already divided by its scale: to nearest, or stochastically with the 16-bit draw r. -/
def encodeElem (f : Nat) (draw : Option Nat) (t : Num) : Nat :=
  match t with
  | .fin neg m e =>
    (match draw with
    | none => signCode f neg (encodeMag f m e)
    | some r =>
      if 9 ≤ f then signCode f neg (encodeMag f m e)
      else signCode f neg (min (stochMag (fmtEb f) (fmtMb f) neg m e r) (fmtMaxCode f)))
  | .nan => 0
  | .inf _ => 0

/-- The exponent of the block scale of a largest magnitude A: the least e with A ≤ M × 2^e, within -127 to 127 (R41). -/
def blockExp (f m : Nat) (e : Int) : Int :=
  if m = 0 then 0 else
  let (mm, mk) := fmtMax f
  let base := (Nat.log2 m : Int) + e - (Nat.log2 mm + mk)
  let x := if dyLe m e mm (mk + base) then base else base + 1
  max (-127) (min 127 x)

/-- An encoded block. -/
structure EncBlock where
  codes : List Nat
  scale : Byte
  esc : Nat := 0
  nonfinite : Bool := false
deriving DecidableEq, Repr, Inhabited

/-- Magnitude of a finite number as m and e; others count as zero. -/
def magOf : Num → Nat × Int
  | .fin _ m e => (m, e)
  | .nan => (0, 0)
  | .inf _ => (0, 0)

/-- x > y on magnitudes. -/
def magGt (x y : Nat × Int) : Bool := !dyLe x.1 x.2 y.1 y.2

/-- The position and magnitude of the largest element among those given, ties to the lower position. -/
def maxMag : List (Nat × (Nat × Int)) → Option (Nat × (Nat × Int))
  | [] => none
  | p :: r =>
    match maxMag r with
    | none => some p
    | some q => if magGt q.2 p.2 then some q else some p

/-- The positions that R40 escapes, a1 first. -/
def chooseEscapes (shift : Nat) (ms : List (Nat × (Nat × Int))) : List Nat :=
  match maxMag ms with
  | none => []
  | some a1 =>
    let r1 := ms.filter (fun p => p.1 != a1.1)
    match maxMag r1 with
    | none => []
    | some a2 =>
      let r2 := r1.filter (fun p => p.1 != a2.1)
      let a3 := (maxMag r2).getD (0, (0, 0))
      let t := shift + 1
      -- a2 ≥ 2^t × a3 with a3 > 0
      if a3.2.1 ≠ 0 ∧ dyLe a3.2.1 (a3.2.2 + t) a2.2.1 a2.2.2 then [a1.1, a2.1]
      else if a2.2.1 ≠ 0 ∧ dyLe a2.2.1 (a2.2.2 + t) a1.2.1 a1.2.2 then [a1.1]
      else []

/-- Encodes one block of a block format. `xs` lists the active elements by position; `esc` is the escape shift when escapes are written; `draw` gives the 16-bit draws of stochastic rounding (R40 to R43, R48). -/
def encodeBlock (f : Nat) (esc : Option Nat) (draw : Option (Nat → Nat)) (xs : List (Nat × Num)) : EncBlock :=
  if xs.any (fun p => !p.2.isFinite) then
    { codes := List.replicate 32 0, scale := 0xFF, esc := 0, nonfinite := true }
  else
    let ms := xs.map (fun p => (p.1, magOf p.2))
    let chosen := match esc with | some sh => chooseEscapes sh ms | none => []
    let a := ((maxMag (ms.filter (fun p => !chosen.contains p.1))).getD (0, (0, 0))).2
    let e := blockExp f a.1 a.2
    let val (i : Nat) : Num := ((xs.find? (fun p => p.1 == i)).map Prod.snd).getD Num.zero
    let codes := (List.range 32).map (fun i =>
      if chosen.contains i then 0
      else match xs.find? (fun p => p.1 == i) with
        | some p => encodeElem f (draw.map (fun g => g i)) (p.2.scale (-e))
        | none => 0)
    let vals := chosen.map (fun i => (i, encodeElem 4 none ((val i).scale (-e))))
    let rec_ := match vals with
      | [] => 0
      | [p] => fld p.1 0 5 + fld 1 10 2 + fld p.2 16 8
      | p :: q :: _ => fld p.1 0 5 + fld q.1 5 5 + fld 2 10 2 + fld p.2 16 8 + fld q.2 24 8
    { codes := codes, scale := BitVec.ofNat 8 (e + 127).toNat, esc := rec_ }

/-- Encodes one FP32, BF16 or FP16 result (R28, R43); stochastic rounding saturates beyond the largest finite value (R48; log 15), and a negative value that it rounds up to zero is written as +0 (DEDUCED, log 127). -/
def encodePlain (f : Nat) (draw : Option Nat) (x : Num) : Nat :=
  match draw, x with
  | some r, .fin neg m e =>
    let mag := min (stochMag (fmtEb f) (fmtMb f) neg m e r) (fmtMaxCode f)
    if mag = 0 ∧ m ≠ 0 then 0 else mag + fld (bit01 neg) (fmtEb f + fmtMb f) 1
  | _, _ => roundIeee (fmtEb f) (fmtMb f) x

/-- Rounds an FP32 value to BF16, as FP32 (R100). -/
def bf16 (w : W32) : W32 := BitVec.ofNat 32 (roundIeee 8 7 (f32 w) <<< 16)

/-! ## Stochastic draws (R49) -/

/-- The 128-bit key of a domain's rounding generator. -/
def roundKey : RoundKey → Nat
  | .none => 0
  | .drawn i => (Config.draw i).toNat % 2 ^ 128
  | .test k => k.toNat

/-- The draw of element e of a conversion with a STREAM in a step (R49). -/
def stochDraw (key stream step e : Nat) : Nat :=
  let ctr := fld (e >>> 3) 0 64 + fld stream 64 32 + fld step 96 32
  bitsOf (aesEncrypt 4 key ctr) (16 * (e % 8)) 16

/-! ## Residues (R52, R54) -/

/-- log2 of the E2M1 spacing u(q) at an element code (R52). -/
def e2m1Ulp (code : Nat) : Int :=
  let c := code % 8
  if c < 4 then -1 else if c < 6 then 0 else 1

/-- The exact value of a variant weight (R52). -/
def weightNum (code : Nat) (scale : Byte) (rho : Byte) : Num :=
  match scaleExp? scale with
  | none => .nan
  | some k =>
    let r := signedOf rho.toNat 8
    let res : Num := .fin (decide (r < 0)) r.natAbs (e2m1Ulp code - 8)
    let v := (elemNum 8 code).add res
    v.scale k

/-- The rounded residue of t against the stored element q: nearest even of (t - q) × 256 / u(q), within -128 to 127 (R54). -/
def residueOf (t : Num) (code : Nat) : Byte :=
  match (t.add (elemNum 8 code).neg).scale (8 - e2m1Ulp code) with
  | .fin neg m e =>
    let mag :=
      if 0 ≤ e then m <<< e.toNat
      else
        let d := (-e).toNat
        let lo := m >>> d
        let rem := m % 2 ^ d
        lo + bit01 (decide (2 * rem > 2 ^ d) || (decide (2 * rem = 2 ^ d) && lo % 2 == 1))
    if neg then BitVec.ofInt 8 (-(min mag 128 : Nat)) else BitVec.ofNat 8 (min mag 127)
  | .nan => 0
  | .inf _ => 0

/-- A written block of variant weights: codes, scale, residues (R54). -/
structure WeightBlock where
  codes : List Nat
  scale : Byte
  rho : List Byte
  nonfinite : Bool := false
deriving DecidableEq, Repr, Inhabited

/-- Writes a block of variant weights from the FP32 values after the residue-add (R54). -/
def encodeWeights (ws : List Num) : WeightBlock :=
  let xs := (ws.zipIdx).map (fun p => (p.2, p.1))
  let b := encodeBlock 8 none none xs
  if b.nonfinite then
    { codes := b.codes, scale := 0xFF, rho := List.replicate 32 0, nonfinite := true }
  else
    let e : Int := (b.scale.toNat : Int) - 127
    { codes := b.codes, scale := b.scale,
      rho := (List.range 32).map (fun i => residueOf ((ws.getD i Num.zero).scale (-e)) (b.codes.getD i 0)) }

/-! ## The delayed tensor scale (R47) -/

/-- The exponent of the tensor scale S of a history slot's entries. -/
def histScale (entries : List W32) : Int :=
  let ms := ((entries.filter f32Finite).map (fun w => magOf (f32 w)))
  let h := ms.foldl (fun a b => if magGt b a then b else a) (0, 0)
  if h.1 = 0 then 0 else max (-149) (min 127 (ceilLog2Num h.1 h.2))

/-- The largest magnitude among finite inputs, +0 when there is none (R47). -/
def amaxOf (xs : List Num) : W32 :=
  let h := (xs.filter Num.isFinite).foldl (fun a b => if magGt (magOf b) a then magOf b else a) (0, 0)
  toF32 (.fin false h.1 h.2)

/-! ## Recipe rows (R44 to R46) -/

/-- The formats that a row allows. -/
def recipeAllows (row f : Nat) : Bool :=
  match row with
  | 0 => f == 8 || f == 9 || f == 10
  | 1 => f == 8
  | 2 => f == 4 || f == 8
  | 3 => f == 5
  | 4 => f == 2
  | 5 => f == 1
  | 6 => f == 4
  | _ => false

/-- SCALE_SRC and ROUND of a row (R44). -/
def recipeSrc (row : Nat) : Nat := match row with | 0 => 1 | 1 => 2 | 2 => 3 | 3 => 2 | 6 => 2 | _ => 0
def recipeRound (row : Nat) : Nat := match row with | 1 => 2 | 3 => 1 | 4 => 1 | 5 => 3 | _ => 0

/-- Whether R44 allows escapes for a row with a format. -/
def recipeEscapes (row f : Nat) : Bool := (row == 0 && fmtEscapes f) || (row == 2 && f == 8)

/-- The register value of a recipe row (R45). -/
def recipeWord (row : Nat) (r : Recipe) : Nat :=
  fld r.fmt 0 4 + fld (recipeSrc row) 4 2 + fld (recipeRound row) 6 2 + fld (bit01 r.escEn) 8 1 + fld r.escShift 9 2

end Sys2Proof.Machine
end

