-- ==== Sys2Proof/Machine/Operands.lean ====
section
/-! DEFINITION. How a slab reaches data: the domain's range, the commons, the base and the weight buffers, and the operand descriptor of R80 in every form (R14, R35, R78 to R80, R127, R287, R293, R522). -/

namespace Sys2Proof.Machine

/-- What reading met: poison of the domain's own data, poison of the base, a broken block, a stripe that is LOST. -/
structure Seen where
  own : Bool := false
  shared : Bool := false
  format : Bool := false
  lost : Bool := false
deriving DecidableEq, Repr, Inhabited

def Seen.or (a b : Seen) : Seen :=
  { own := a.own || b.own, shared := a.shared || b.shared, format := a.format || b.format, lost := a.lost || b.lost }

def Seen.all (l : List Seen) : Seen := l.foldl Seen.or {}

/-! ## The device-virtual range (R287, R280) -/

/-- The bytes [a, a + n) lie in the domain's range (R287); in KLN3 memory mode in one of its windows (R280). -/
def State.inRange (s : State) (d a n : Nat) : Bool :=
  let r := (s.dom d).rec_
  if d = 0 then decide (a + n ≤ 2 ^ 48)
  else if r.kln3Mem then
    decide (a + n ≤ 2 ^ 37) || (decide (2 ^ 40 ≤ a) && decide (a + n ≤ 2 ^ 40 + pageBytes * r.range))
  else decide (a + n ≤ pageBytes * r.range)

/-- The domain and address at which a byte of a domain is held: shared pages lie in domain 0 (R293). -/
def State.home (s : State) (d a : Nat) : Nat × Nat :=
  match mapGet (s.dom d).tir.pages (a / pageBytes) with
  | some e => (match e.shared with | some p => (0, pageBytes * p + a % pageBytes) | none => (d, a))
  | none => (d, a)

/-- Cuts [a, a + n) at page boundaries. -/
def pagePieces : Nat → Nat → Nat → List (Nat × Nat)
  | 0, _, _ => []
  | f + 1, a, n =>
    if n = 0 then []
    else
      let k := min n (pageBytes - a % pageBytes)
      (a, k) :: pagePieces f (a + k) (n - k)

/-- Whether one of the 64-byte blocks that [a, a + n) meets is poisoned. -/
def poisonHit (poison : List Nat) (unit a n : Nat) : Bool :=
  n != 0 && poison.any (fun p => decide (p * unit < a + n) && decide (a < p * unit + unit))

/-- A channel has failed with no spare: the content of stacked memory is lost to every domain until the device is reset, and every block reads as poison (R253; log 75). -/
def State.memLost (s : State) : Bool := s.mbds.any (fun m => m.2.failed)

/-- n bytes of a domain's range from an address, and whether a block is poisoned. -/
def State.rdMem (s : State) (d a n : Nat) : List Byte × Bool :=
  let ps := (pagePieces (n / pageBytes + 2) a n).map (fun p =>
    let h := s.home d p.1
    let x := s.dom h.1
    (memGet x.mem h.2 p.2, poisonHit x.poison 64 h.2 p.2))
  (ps.flatMap Prod.fst, ps.any Prod.snd || (n != 0 && s.memLost))

/-- Writes bytes into a domain's own range. A block written whole is replaced; a part of a poisoned block is not written, and poison returns to the issuer (R262). -/
def Dom.wrMem (x : Dom) (a : Nat) (bs : List Byte) : Dom :=
  if poisonHit x.poison 64 a bs.length then
    -- block by block
    let blocks := List.range' (a / 64) ((a + bs.length + 63) / 64 - a / 64)
    blocks.foldl (fun (y : Dom) b =>
      let lo := max a (64 * b)
      let hi := min (a + bs.length) (64 * b + 64)
      let part := (bs.drop (lo - a)).take (hi - lo)
      if y.poison.contains b then
        if hi - lo = 64 then { y with mem := memPut y.mem lo part, poison := numDel y.poison b }
        else { y with tir := { y.tir with wrPoison := true } }
      else { y with mem := memPut y.mem lo part }) x
  else { x with mem := memPut x.mem a bs }

/-- Marks the pages of [a, a + n) written: ZERO clear, and DIRTY where the page holds a frame (R288). -/
def Dom.touch (x : Dom) (a n : Nat) : Dom :=
  if n = 0 then x else
  let ps := List.range' (a / pageBytes) ((a + n - 1) / pageBytes + 1 - a / pageBytes)
  ps.foldl (fun y p =>
    let e := y.entry p
    y.putEntry p { e with dirty := e.dirty || e.state != .flash, zero := false }) x

/-- A store of a slab of domain d to its own range (R293: a shared page is never written). -/
def State.wrMem (s : State) (d a : Nat) (bs : List Byte) : State :=
  if bs.isEmpty then s else s.updDom d (fun x => (x.wrMem a bs).touch a bs.length)

/-! ## The commons (R3, R418, R520) -/

def bankBytes : Nat := 2097152

/-- The bytes [o, o + n) lie in the domain's commons banks (R14). -/
def State.inCommons (s : State) (d o n : Nat) : Bool :=
  let r := (s.dom d).rec_
  decide (bankBytes * r.bankFirst ≤ o) && decide (o + n ≤ bankBytes * (r.bankFirst + r.banks))

def State.rdCommons (s : State) (o n : Nat) : List Byte × Bool :=
  (memGet s.commons o n, poisonHit s.commonsPoison 8 o n)

/-- Writes commons bytes; a word written whole loses its poison (R520). -/
def State.wrCommons (s : State) (o : Nat) (bs : List Byte) : State :=
  { s with commons := memPut s.commons o bs,
           commonsPoison := s.commonsPoison.filter (fun p => !(decide (o ≤ 8 * p) && decide (8 * p + 8 ≤ o + bs.length))) }

/-- Poisoned words of [o, o + n) count once each when first read, and raise COMMONS_UE (R520). -/
def State.uncountedUe (s : State) (o n : Nat) : List Nat :=
  s.commonsPoison.filter (fun p => decide (8 * p < o + n) && decide (o < 8 * p + 8) && !s.commonsCounted.contains p)

/-! ## The base (R80, R226, R237) -/

/-- The copy slot that holds a generation for reading: ACTIVE or RETIRING (R235). -/
def State.copyOfGen (s : State) (gen : Nat) : Option Nat :=
  let ok (c : CopySlot) : Bool := c.gen == gen && (c.state == .active || c.state == .retiring)
  if gen = 0 then none else if ok s.bas.copy0 then some 0 else if ok s.bas.copy1 then some 1 else none

/-- The ACTIVE copy slot (BASE_SEL). -/
def State.activeCopy (s : State) : Option Nat :=
  if s.bas.copy0.state = .active then some 0 else if s.bas.copy1.state = .active then some 1 else none

/-- n image bytes of a copy, with shared poison and LOST stripes. -/
def State.rdBase (s : State) (k o n : Nat) : List Byte × Seen :=
  let c := s.copy k
  let stripes := List.range' (o / 65536) ((o + n + 65535) / 65536 - o / 65536)
  (memGet c.image o n,
    { shared := poisonHit c.poison 64 o n || (n != 0 && s.memLost),
      lost := stripes.any (fun q => ((mapGet c.stripeMap q).getD {}).state == .lost) })

/-! ## Operand descriptors -/

/-- An operand descriptor (R80), with what the manifest supplies for SPACE 2. -/
structure Opd where
  elem : Nat := 0
  fmt : Nat := 0
  space : Nat := 0
  trans : Bool := false
  esc : Bool := false
  scale : Nat := 0
  rowBlocks : Nat := 0
  escBase : Nat := 0
  /-- stored rows, where the manifest gives them -/
  rows : Option Nat := none
  /-- base copy slot, for SPACE 2 -/
  copy : Nat := 0
deriving DecidableEq, Repr, Inhabited

/-- The descriptor in three words (R80). -/
def opdOf (a b c : Nat) : Opd :=
  { elem := bitsOf a 0 48, fmt := bitsOf a 48 4, space := bitsOf a 52 2, trans := bitOf a 54, esc := bitOf a 55,
    scale := bitsOf b 0 48, rowBlocks := bitsOf b 48 16, escBase := bitsOf c 0 48 }

/-- The checks of R80 that need no state: the space, the format, ROW_BLOCKS and the escape flag; reserved bits, and fields the table gives as 0, are ignored (R7; log 17). `fp32` says whether FMT 0x1 may stand here. -/
def Opd.ok (o : Opd) (fp32 : Bool) : Bool :=
  o.space != 3 &&
  (if o.space = 2 then !o.esc
   else fmtDefined o.fmt && (fp32 || o.fmt != 1) && o.rowBlocks != 0 && (!o.esc || fmtEscapes o.fmt))

/-- A SPACE 2 operand with the fields of its manifest entry (R80, R226); none when the number is beyond the table. -/
def State.resolveBase (s : State) (k : Nat) (o : Opd) : Option Opd :=
  match (s.copy k).tensors[o.elem % 2 ^ 24]? with
  | none => none
  | some t => some { o with elem := t.elemOff, fmt := t.fmt, esc := t.esc, scale := t.scaleOff,
                            rowBlocks := t.rowBlocks, escBase := t.escOff, rows := some t.rows, copy := k }

/-- Bytes at an address of an operand's space. -/
def State.rdSpace (s : State) (d : Nat) (o : Opd) (a n : Nat) : List Byte × Seen :=
  match o.space with
  | 0 => let (b, p) := s.rdMem d a n; (b, { own := p })
  | 1 => let (b, p) := s.rdCommons a n; (b, { own := p })
  | _ => s.rdBase o.copy a n

/-- Whether a span of an operand's space belongs to the domain (R14, R522). -/
def State.spanOk (s : State) (d : Nat) (space a n : Nat) : Bool :=
  match space with
  | 0 => s.inRange d a n
  | 1 => s.inCommons d a n
  | _ => true

/-- Block i of an operand as 32 values, of which `valid` lie in the row (R34, R35). -/
def State.rdBlock (s : State) (d : Nat) (o : Opd) (i valid : Nat) : List Num × Seen :=
  let bb := fmtBytes o.fmt
  let (eb, s1) := s.rdSpace d o (o.elem + i * bb) bb
  if fmtBlock o.fmt then
    let (sb, s2) := s.rdSpace d o (o.scale + i) 1
    let (rb, s3) := if o.esc then s.rdSpace d o (o.escBase + 4 * i) 4 else ([], {})
    let (nums, bad) := blockNums o.fmt eb (sb.headD 0) (if o.esc then some (ofLe rb) else none) valid
    (nums, (s1.or s2).or (s3.or { format := bad }))
  else ((blockNums o.fmt eb 0 none valid).1, s1)

/-- The vectors of an operand over groups [g0, g0 + gn): for TRANS 0 stored rows, for TRANS 1 stored columns (R34, R78, R522). Result: values by vector and group. -/
def State.rdVectors (s : State) (d : Nat) (o : Opd) (v0 nv g0 gn : Nat) : Array (Array (List Num)) × Seen :=
  if o.trans then
    -- stored rows 32 g .. of the groups, blocks that hold the columns
    let b0 := v0 / 32
    let bn := (v0 + nv + 31) / 32 - b0
    let rows := (List.range (32 * gn)).map (fun k =>
      let r := 32 * g0 + k
      let beyond := match o.rows with | some m => decide (m ≤ r) | none => false
      (List.range bn).map (fun b =>
        if beyond then (List.replicate 32 Num.zero, ({} : Seen)) else s.rdBlock d o (r * o.rowBlocks + (b0 + b)) 32))
    let seen := Seen.all (rows.flatMap (fun r => r.map Prod.snd))
    let arr : Array (Array (Array Num)) := (rows.map (fun r => (r.map (fun p => p.1.toArray)).toArray)).toArray
    let get (r b j : Nat) : Num := ((arr.getD r #[]).getD b #[]).getD j Num.zero
    (((List.range nv).map (fun v =>
      let c := v0 + v
      ((List.range gn).map (fun g =>
        (List.range 32).map (fun k => get (32 * g + k) (c / 32 - b0) (c % 32)))).toArray)).toArray, seen)
  else
    let rows := (List.range nv).map (fun v =>
      (List.range gn).map (fun g => s.rdBlock d o ((v0 + v) * o.rowBlocks + (g0 + g)) 32))
    ((rows.map (fun r => (r.map Prod.fst).toArray)).toArray, Seen.all (rows.flatMap (fun r => r.map Prod.snd)))

/-- The bytes that vectors [v0, v0 + nv) and groups [g0, g0 + gn) of a SPACE 0 or 1 operand reach lie in the domain's range or banks (R522). -/
def State.extentOk (s : State) (d : Nat) (o : Opd) (v0 nv g0 gn : Nat) : Bool :=
  if nv = 0 ∨ gn = 0 then true else
  let (r0, r1, b0, b1) :=
    if o.trans then (32 * g0, 32 * (g0 + gn) - 1, v0 / 32, (v0 + nv - 1) / 32)
    else (v0, v0 + nv - 1, g0, g0 + gn - 1)
  let inBlocks := decide (b1 < o.rowBlocks)
  let inRows := match o.rows with
    | some m => if o.trans then decide (g0 + gn ≤ ceilDiv m 32) else decide (r1 < m)
    | none => true
  let i0 := r0 * o.rowBlocks + b0
  let i1 := r1 * o.rowBlocks + b1
  let n := i1 + 1 - i0
  let bb := fmtBytes o.fmt
  inBlocks && inRows && (o.space == 2 ||
    (s.spanOk d o.space (o.elem + i0 * bb) (n * bb) &&
      (!fmtBlock o.fmt || s.spanOk d o.space (o.scale + i0) n) &&
      (!o.esc || s.spanOk d o.space (o.escBase + 4 * i0) (4 * n))))

/-- The 64-byte blocks of the image that an operand of the base covers for vectors and groups: the byte spans it reads. -/
def opdSpans (o : Opd) (v0 nv g0 gn : Nat) : List (Nat × Nat) :=
  if nv = 0 ∨ gn = 0 then [] else
  let bb := fmtBytes o.fmt
  let spans (rows : List Nat) (b0 bn : Nat) : List (Nat × Nat) :=
    rows.flatMap (fun r =>
      let i := r * o.rowBlocks + b0
      (o.elem + i * bb, bn * bb) ::
        ((if fmtBlock o.fmt then [(o.scale + i, bn)] else []) ++ (if o.esc then [(o.escBase + 4 * i, 4 * bn)] else [])))
  if o.trans then
    let last := match o.rows with | some m => min m (32 * (g0 + gn)) | none => 32 * (g0 + gn)
    spans (List.range' (32 * g0) (last - 32 * g0)) (v0 / 32) ((v0 + nv + 31) / 32 - v0 / 32)
  else spans (List.range' v0 nv) g0 gn

/-! ## Writing tensors -/

/-- Bytes written to a space of the domain. -/
def State.wrSpace (s : State) (d space a : Nat) (bs : List Byte) : State :=
  if space = 0 then s.wrMem d a bs else s.wrCommons a bs

/-! ## Weight buffers and staged copies (R127, R129, R130, R163) -/

/-- Rows, elements per row and byte offset of a factor in a weight buffer: A (0) is r rows of D_IN, B (1) is D_OUT rows of r (R126, R127). -/
def factorShape (e : SlotEntry) (proj fac : Nat) : Nat × Nat × Nat :=
  let dir := (mapGet e.dir proj).getD ⟨0, 0, 0, 0⟩
  let r := 8 * e.rank8
  if fac = 0 then (r, dir.dIn, dir.aOff) else (dir.dOut, r, dir.bOff)

/-- Offsets of a factor's element, scale and residue regions, and its size (R127). -/
def factorRegions (rows k off : Nat) (train : Bool) : Nat × Nat × Nat × Nat :=
  let nb := rows * ceilDiv k 32
  let sc := off + roundUp (nb * 16) 64
  let rs := sc + roundUp nb 64
  (off, sc, rs, if train then rs + nb * 32 - off else sc + nb - off)

/-- The projections of a mask. -/
def projsOf (mask : W16) : List Nat := (List.range 16).filter (fun p => bitOf mask.toNat p)

/-- The offset and size of a factor of an entry (R127). -/
def factorExtent (e : SlotEntry) (proj fac : Nat) : Nat × Nat :=
  let (rows, k, off) := factorShape e proj fac
  (off, (factorRegions rows k off e.train).2.2.2)

/-- All factors of a slot: offset and size. -/
def SlotEntry.extents (e : SlotEntry) : List (Nat × Nat) :=
  (projsOf e.projMask).flatMap (fun p => [factorExtent e p 0, factorExtent e p 1])

/-- The offset in a weight buffer of the byte at an offset of the home image. The layout is the image's; where gaps in the image would carry it beyond the buffer's granules, the factors close up in their order (R127, R129; DEDUCED, log 136). -/
def SlotEntry.bufOff (e : SlotEntry) (off : Nat) : Nat :=
  if e.extents.all (fun x => decide (x.1 + x.2 ≤ 65536 * e.granules)) then off
  else match e.extents.find? (fun x => decide (x.1 ≤ off) && decide (off < x.1 + x.2)) with
    | none => off
    | some x => 256 + ((e.extents.filter (fun y => decide (y.1 < x.1))).map Prod.snd).sum + (off - x.1)

/-- Cuts [a, a + n) at the multiples of a unit. -/
def unitPieces (unit : Nat) : Nat → Nat → Nat → List (Nat × Nat)
  | 0, _, _ => []
  | f + 1, a, n =>
    if n = 0 then []
    else
      let k := min n (unit - a % unit)
      (a, k) :: unitPieces unit f (a + k) (n - k)

/-- Where byte `a` of a weight buffer lies in the domain's range: in the buffer's granules of the variant cache (R129). -/
def State.bufAddr (s : State) (d : Nat) (e : SlotEntry) (buf : Bool) (a : Nat) : Nat :=
  pageBytes * (s.dom d).rec_.cachePage0 + 65536 * ((if buf then e.gran1 else e.gran0).getD (a / 65536) 0) + a % 65536

/-- n bytes of a weight buffer from byte a, and whether the read met poison. -/
def State.rdBuffer (s : State) (d : Nat) (e : SlotEntry) (buf : Bool) (a n : Nat) : List Byte × Bool :=
  let ps := (unitPieces 65536 (n / 65536 + 2) a n).map (fun p => s.rdMem d (s.bufAddr d e buf p.1) p.2)
  (ps.flatMap Prod.fst, ps.any Prod.snd)

/-- Writes bytes into a weight buffer from byte a. -/
def State.wrBuffer (s : State) (d : Nat) (e : SlotEntry) (buf : Bool) (a : Nat) (bs : List Byte) : State :=
  (unitPieces 65536 (bs.length / 65536 + 2) a bs.length).foldl (fun t p =>
    t.wrMem d (s.bufAddr d e buf p.1) ((bs.drop (p.1 - a)).take p.2)) s

/-- n bytes of a factor from an offset of the image; a factor of buffer 1 that nothing has written holds free values (R129, R181; log 137). -/
def State.rdFactor (s : State) (d slot : Nat) (e : SlotEntry) (buf : Bool) (key a n : Nat) : List Byte × Bool :=
  if buf && !e.buf1Written.contains key then
    ((List.range n).map (fun i => Config.freeByte (65536 * slot + e.gen.toNat) (a + i)), false)
  else s.rdBuffer d e buf (e.bufOff a) n

/-- Bytes of the staged copy of a factor: its element and its scale region, without gaps (R130). -/
def SlotEntry.stagedFactor (e : SlotEntry) (proj fac : Nat) : Nat :=
  let (rows, k, _) := factorShape e proj fac
  rows * ceilDiv k 32 * 17

/-- Where a staged projection's copy holds the elements and the scales of a factor: A's two regions, then B's (DESIGN CHOICE, log 138). -/
def SlotEntry.stagedOff (e : SlotEntry) (proj fac : Nat) : Nat × Nat :=
  let lo := if fac = 0 then 0 else e.stagedFactor proj 0
  (lo, lo + e.stagedFactor proj fac / 17 * 16)

/-- Commons offset of unit u of a domain's staging banks: the units interleave over the banks in ascending order (R130). -/
def State.stageAddr (s : State) (d u : Nat) : Nat :=
  let r := (s.dom d).rec_
  bankBytes * (r.bankFirst + u % max r.nsb 1) + 4096 * (u / max r.nsb 1)

/-- Where byte `a` of a staged projection lies in the commons. -/
def State.stagedAddr (s : State) (d : Nat) (units : List Nat) (a : Nat) : Nat :=
  s.stageAddr d (units.getD (a / 4096) 0) + a % 4096

/-- n bytes of a staged projection from byte a, and whether the read met poison. -/
def State.rdStaged (s : State) (d : Nat) (units : List Nat) (a n : Nat) : List Byte × Bool :=
  let ps := (unitPieces 4096 (n / 4096 + 2) a n).map (fun p => s.rdCommons (s.stagedAddr d units p.1) p.2)
  (ps.flatMap Prod.fst, ps.any Prod.snd)

/-- Where a group reads a slot's factors: the domain, the slot and its entry, the weight buffer, or the staged copy (R131, R163). -/
structure FactorSrc where
  d : Nat
  slot : Nat
  e : SlotEntry
  buf : Bool
  staged : Bool := false
deriving DecidableEq, Repr, Inhabited

/-- Block (row, b) of a factor as stored: codes and scale byte, and whether the read met poison. -/
def State.factorBlock (s : State) (x : FactorSrc) (proj fac row b : Nat) : List Nat × Byte × Bool :=
  let (rows, k, off) := factorShape x.e proj fac
  let i := row * ceilDiv k 32 + b
  let (el, p1, sc, p2) :=
    if x.staged then
      let units := (mapGet x.e.stagedAt proj).getD []
      let (eo, so) := x.e.stagedOff proj fac
      let (el, p1) := s.rdStaged x.d units (eo + 16 * i) 16
      let (sc, p2) := s.rdStaged x.d units (so + i) 1
      (el, p1, sc, p2)
    else
      let (eo, so, _, _) := factorRegions rows k off x.e.train
      let key := 2 * proj + fac
      let (el, p1) := s.rdFactor x.d x.slot x.e x.buf key (eo + 16 * i) 16
      let (sc, p2) := s.rdFactor x.d x.slot x.e x.buf key (so + i) 1
      (el, p1, sc, p2)
  ((blockCodes 8 el).1, sc.headD 0, p1 || p2)

/-- The residues of block (row, b) of a factor, and whether the read met poison; a slot without residues has zeros (R53). -/
def State.factorRho (s : State) (x : FactorSrc) (proj fac row b : Nat) : List Byte × Bool :=
  let (rows, k, off) := factorShape x.e proj fac
  let (_, _, ro, _) := factorRegions rows k off x.e.train
  if x.e.train then s.rdFactor x.d x.slot x.e x.buf (2 * proj + fac) (ro + 32 * (row * ceilDiv k 32 + b)) 32
  else (List.replicate 32 0, false)

/-- The values of a factor block as the arrays read it: elements and scale, no residue (R53); positions beyond the row, and blocks beyond the stored factor, are zero (R34; log 16). -/
def State.factorNums (s : State) (x : FactorSrc) (proj fac row b : Nat) : List Num × Seen :=
  let (rows, k, _) := factorShape x.e proj fac
  if rows ≤ row ∨ ceilDiv k 32 ≤ b then (List.replicate 32 Num.zero, {})
  else
    let (codes, sc, bad) := s.factorBlock x proj fac row b
    ((codes.zipIdx).map (fun p =>
      if k ≤ 32 * b + p.2 then Num.zero
      else match scaleExp? sc with | none => Num.nan | some y => (elemNum 8 p.1).scale y), { own := bad })

/-! ## Accumulators (R64, R75) -/

/-- Key of entry e of cell (i, j) of an array. -/
def accKey (a i j e : Nat) : Nat := 4096 * a + 64 * (8 * i + j) + e

def State.accGet (s : State) (k : Nat) : W32 := (mapGet s.acc k).getD 0

/-- Sets an entry; +0 is the value an unlisted entry holds. -/
def accPut (m : List (Nat × W32)) (k : Nat) (v : W32) : List (Nat × W32) :=
  if v = 0 then mapDel m k else mapSet m k v

def State.accPutAll (s : State) (l : List (Nat × W32)) : State :=
  { s with acc := l.foldl (fun m p => accPut m p.1 p.2) s.acc }

/-- Every entry of arrays [a, a + n) to +0, and their operand buffers to zero when `buffers` (R75). -/
def State.clearArrays (s : State) (a n : Nat) (buffers : Bool) : State :=
  { s with acc := s.acc.filter (fun p => p.1 < 4096 * a || 4096 * (a + n) ≤ p.1),
           opbuf := if buffers then memClear s.opbuf (32768 * a) (32768 * n) else s.opbuf }

/-- Where output element (m, n) lives: tile, array and entry of R64 and R65. -/
def outKey (first acc0 mt8 nt8 cols : Nat) (m n : Nat) : Nat :=
  let mT := 8 * mt8
  let nT := 8 * nt8
  let tc := ceilDiv cols nT
  let t := (m / mT) * tc + n / nT
  accKey (first + t) (m % 8) (n % 8) (acc0 + (m % mT / 8) * nt8 + n % nT / 8)

end Sys2Proof.Machine
end

