-- ==== Sys2Proof/Machine/Desc.lean ====
section
/-! DEFINITION. Slab descriptors: the header of R22, the checks of R23 that every kind shares, the bodies of the kinds as records, and the order of the completion statuses (R515). -/

namespace Sys2Proof.Machine

/-- Bits [lo + width - 1 : lo] of word i of a descriptor; words that are missing read as zero. -/
def wfld (ws : List W64) (i lo width : Nat) : Nat := bitsOf (ws.getD i 0).toNat lo width

/-! ## The header (R22) -/

/-- The four header words. -/
structure Hdr where
  kind : Nat
  sub : Nat
  domain : Nat
  bodyWords : Nat
  share : Bool
  rt : Bool
  accCont : Bool
  completeWord : Bool
  batchEnd : Bool
  tag : Nat
  after : Nat
  batch : Nat
  redSeg : Nat
  wcet : Nat
  first : Nat
  count : Nat
deriving DecidableEq, Repr, Inhabited

def hdrOf (ws : List W64) : Hdr :=
  { kind := wfld ws 0 0 4, sub := wfld ws 0 4 4, domain := wfld ws 0 8 6, bodyWords := wfld ws 0 16 8,
    share := wfld ws 0 24 1 == 1, rt := wfld ws 0 25 1 == 1, accCont := wfld ws 0 26 1 == 1,
    completeWord := wfld ws 0 27 1 == 1, batchEnd := wfld ws 0 28 1 == 1, tag := wfld ws 0 32 32,
    after := wfld ws 1 0 32, batch := wfld ws 1 32 16, redSeg := wfld ws 2 0 5, wcet := wfld ws 2 32 32,
    first := wfld ws 3 0 13, count := wfld ws 3 13 14 }

/-- The subkinds that software may submit for each kind (R81, R83, R192, R97, R169, R384, R291, R446, R283, R452). -/
def subDefined (kind sub : Nat) : Bool :=
  match kind with
  | 1 => sub == 0
  | 2 => sub ≤ 2
  | 3 => sub ≤ 1
  | 4 => sub == 0
  | 5 => sub ≤ 5
  | 6 => sub ≤ 7
  | 7 => sub == 2 || sub == 3 || sub == 4 || sub == 15
  | 8 => sub == 0
  | _ => false

/-- Whether every array of [first, first + count) lies in a unit the domain holds (R23, R427). -/
def State.holdsArrays (s : State) (d first count : Nat) : Bool :=
  if count = 0 then true
  else
    let us := s.unitsOf d
    (List.range' (first / 128) ((first + count - 1) / 128 + 1 - first / 128)).all (fun u => us.contains u)

/-- A slab of the domain that has not completed (R23, R26). -/
def Dom.openTag (x : Dom) (tag : Nat) : Bool :=
  x.slabs.any (fun b => b.state != .ended && (hdrOf b.words).tag == tag)

/-- The rows kind, domain, arrays, array use, reduction, sharing and scrub of R23's table. -/
def State.hdrFits (s : State) (d : Nat) (h : Hdr) : Bool :=
  subDefined h.kind h.sub && h.domain == d &&
  decide (h.first + h.count ≤ 8192) && s.holdsArrays d h.first h.count &&
  (if 1 ≤ h.kind ∧ h.kind ≤ 5 then h.count != 0 else h.count == 0) &&
  (!(1 ≤ h.kind && h.kind ≤ 3) || (5 ≤ h.redSeg && h.redSeg ≤ 16)) &&
  (!h.share || h.kind == 1) && (h.kind != 8 || h.domain == 0)

/-- Those rows and the row tag (R23). -/
def State.hdrOk (s : State) (d : Nat) (h : Hdr) : Bool :=
  s.hdrFits d h && h.tag != 0 && !(s.dom d).openTag h.tag

/-- Kinds that hold the arrays of their range (R74). -/
def Hdr.holdsArrays (h : Hdr) : Bool := (1 ≤ h.kind && h.kind ≤ 4) || (h.kind == 5 && h.sub == 4)

/-- Kinds that hold the VEs bound to their range (R90, R170). -/
def Hdr.holdsVes (h : Hdr) : Bool :=
  h.kind == 3 || h.kind == 4 || h.kind == 5 || (h.kind == 2 && h.sub ≤ 1)

/-- Kinds that use the operand buffers of their arrays (R69). -/
def Hdr.usesBuffers (h : Hdr) : Bool := (1 ≤ h.kind && h.kind ≤ 3) || (h.kind == 5 && h.sub == 4)

/-! ## Completion statuses -/

/-- The code of R415. -/
def Status.code : Status → Nat
  | .done => 0x0
  | .staleSlot => 0x1
  | .descInvalid => 0x2
  | .depFailed => 0x3
  | .sharedPoison => 0x4
  | .formatFault => 0x5
  | .ptFault => 0x6
  | .pageStarved => 0x7
  | .baseUnavailable => 0x8
  | .flashError => 0x9
  | .fabricError => 0xA
  | .peerLost => 0xB
  | .dataPoison => 0xC
  | .hint c => c

/-- The place of a status in the order of R515, first 0. -/
def Status.rank : Status → Nat
  | .descInvalid => 0
  | .depFailed => 1
  | .baseUnavailable => 2
  | .sharedPoison => 3
  | .dataPoison => 4
  | .hint _ => 12
  | .formatFault => 5
  | .ptFault => 6
  | .flashError => 7
  | .fabricError => 8
  | .peerLost => 9
  | .pageStarved => 10
  | .staleSlot => 11
  | .done => 13

/-- The status that R515 puts first. -/
def Status.worse (a b : Status) : Status := if b.rank < a.rank then b else a

/-- What a dependent slab does after its predecessor's status (R25): run (true) or fail (false). R25 names no status of R290: a dependent of a failed HINT runs (log 53). -/
def Status.feeds : Status → Bool
  | .done => true
  | .staleSlot => true
  | .pageStarved => true
  | .sharedPoison => true
  | .descInvalid => false
  | .depFailed => false
  | .formatFault => false
  | .ptFault => false
  | .baseUnavailable => false
  | .flashError => false
  | .fabricError => false
  | .peerLost => false
  | .dataPoison => false
  | .hint _ => true

/-- The status of a slab that met what `e` tells, where no other rule gives one (R515, R237, R243, R524). -/
def Seen.status (e : Seen) : Status :=
  if e.lost then .baseUnavailable
  else if e.shared then .sharedPoison
  else if e.own then .dataPoison
  else if e.format then .formatFault
  else .done

/-! ## Bytes that an operand takes in a buffer (R79, R82) -/

/-- Bytes per vector per group of an operand in the operand buffer. -/
def vecBytes (o : Opd) : Nat :=
  if fmtBlock o.fmt then
    (if o.trans then (if o.esc then 64 else fmtBytes o.fmt + 32)
     else fmtBytes o.fmt + 1 + (if o.esc then 4 else 0))
  else 64

/-- The dot-product width of an operand (R61, R79). -/
def Opd.width (o : Opd) : Nat := if o.trans && o.esc then 8 else fmtWidth o.fmt

/-! ## Bodies -/

/-- BASE_PRODUCT (R81). -/
structure BaseBody where
  row : Opd
  col : Opd
  m : Nat
  n : Nat
  kFirst : Nat
  kBlks : Nat
  mt8 : Nat
  nt8 : Nat
  acc0 : Nat
  sel : Nat
  kib : Nat
  chunk : Nat
  keep : Bool
  reuse : Bool
deriving DecidableEq, Repr, Inhabited

/-- The operand descriptor in words i, i + 1 and i + 2 of a descriptor. -/
def opdAt (ws : List W64) (i : Nat) : Opd := opdOf (wfld ws i 0 64) (wfld ws (i + 1) 0 64) (wfld ws (i + 2) 0 64)

/-- Whether words i to i + n - 1 are zero. -/
def wordsZero (ws : List W64) (i n : Nat) : Bool := (List.range' i n).all (fun k => ws.getD k 0 == 0)

def baseBody (ws : List W64) : BaseBody :=
  { row := opdAt ws 4, col := opdAt ws 7, m := wfld ws 10 0 16, n := wfld ws 10 16 16,
    kFirst := wfld ws 10 32 16, kBlks := wfld ws 10 48 16, mt8 := wfld ws 11 0 7, nt8 := wfld ws 11 7 7,
    acc0 := wfld ws 11 14 6, sel := wfld ws 11 20 2, kib := wfld ws 11 22 4, chunk := wfld ws 11 26 8,
    keep := wfld ws 11 34 1 == 1, reuse := wfld ws 11 35 1 == 1 }

/-- VARIANT_PRODUCT (R87). -/
structure VarBody where
  row : Opd
  q : Opd
  qZero : Bool
  m : Nat
  n : Nat
  kBlks : Nat
  groups : Nat
  mt8 : Nat
  nt8 : Nat
  acc0 : Nat
  h0 : Nat
  proj : Nat
  alpha : Int
  rMax8 : Nat
  gt : Nat
  hAddr : Nat
deriving DecidableEq, Repr, Inhabited

def varBody (ws : List W64) : VarBody :=
  { row := opdAt ws 4, q := opdAt ws 7, qZero := wordsZero ws 7 3, m := wfld ws 10 0 16, n := wfld ws 10 16 16,
    kBlks := wfld ws 10 32 16, groups := wfld ws 10 48 16, mt8 := wfld ws 11 0 7, nt8 := wfld ws 11 7 7,
    acc0 := wfld ws 11 14 6, h0 := wfld ws 11 20 6, proj := wfld ws 11 26 4, alpha := signedOf (wfld ws 11 30 6) 6,
    rMax8 := wfld ws 11 36 6, gt := wfld ws 12 0 32, hAddr := wfld ws 12 32 32 }

/-- Tile rows and columns counted (R65): ⌈M / M_T⌉ and ⌈N / N_T⌉. -/
def tileRows (m mt8 : Nat) : Nat := ceilDiv m (8 * mt8)

end Sys2Proof.Machine
end

