-- ==== Sys2Proof/Machine/Errors.lean ====
section
/-! DEFINITION. What a read error leaves behind: the decode of stacked-memory blocks, the commons words and the array SRAMs (R255, R256, R261, R240, R279, R480, R520). -/

namespace Sys2Proof.Machine

/-! ## Where a byte of a frame lies (R255, R256) -/

/-- First T frame with TMODE 1, and the number of frames (R254). -/
def tFrame0 : Nat := 147456
def frameCount : Nat := 196608

/-- Stack, channel in stack, channel-local unit and block of byte o of a frame. -/
structure BlockPlace where
  stack : Nat
  channel : Nat
  unit : Nat
  block : Nat
deriving DecidableEq, Repr, Inhabited

def blockPlace (tmode : Bool) (frame o : Nat) : BlockPlace :=
  let t := tmode && decide (tFrame0 ≤ frame)
  let a := pageBytes * (if t then frame - tFrame0 else frame) + o
  let u := a / 4096
  let j := a % 4096 / 64
  if t then ⟨u % 8, 24 + u / 8 % 8, u / 64, j⟩
  else if tmode then ⟨u % 8, u / 8 % 24, u / 192, j⟩
  else ⟨u % 8, u / 8 % 32, u / 256, j⟩

/-- Where a block of a channel-local unit lies (R256): bank index, row, pseudo-channel of the channel, and burst column of the 2 KiB row. -/
def bankOf (unit : Nat) : Nat := (unit % 64) ^^^ (unit / 64 % 64)
def bankRow (unit : Nat) : Nat := unit / 64
def blockPseudo (block : Nat) : Nat := block % 2
def burstColumn (block : Nat) : Nat := block / 2

/-- A 2 KiB row of a channel as one number: bank index, row and pseudo-channel (R256). -/
def rowOf (unit block : Nat) : Nat := 2 * (bankOf unit * 8192 + bankRow unit) + blockPseudo block

/-- The frame of a page of a domain (R288); 0 where the page holds none. -/
def State.frameOf (s : State) (d page : Nat) : Nat := ((s.dom d).frame? page).getD 0

/-! ## The maintenance queue -/

/-- Priority of an item (R276), 1 first. -/
def MaintItem.priority : MaintItem → Nat
  | .laneRepair _ _ => 1
  | .hardRepair _ _ => 2
  | .softRepair _ _ => 3
  | .retrain _ => 4
  | .rewrite _ _ => 5
  | .patrol _ _ => 6

def MaintItem.channel : MaintItem → Nat
  | .laneRepair c _ => c
  | .hardRepair c _ => c
  | .softRepair c _ => c
  | .retrain c => c
  | .rewrite c _ => c
  | .patrol c _ => c

/-- Adds an item to a stack's queue unless an equal one waits. -/
def StackState.enqueue (x : StackState) (i : MaintItem) : StackState :=
  if x.queue.contains i then x else { x with queue := x.queue ++ [i] }

/-- Queues one more block of a channel for rewrite (R261). -/
def StackState.rewriteBlock (x : StackState) (ch : Nat) : StackState :=
  let old (i : MaintItem) : Bool := match i with
    | .rewrite c _ => c == ch
    | .laneRepair _ _ => false | .hardRepair _ _ => false | .softRepair _ _ => false
    | .retrain _ => false | .patrol _ _ => false
  match x.queue.find? old with
  | some (.rewrite _ n) => { x with queue := x.queue.map (fun i => if old i then .rewrite ch (n + 1) else i) }
  | _ => { x with queue := x.queue ++ [.rewrite ch 1] }

/-- Soft and hard repair of a row (R279). -/
def StackState.repairRow (x : StackState) (ch row : Nat) : StackState :=
  (x.enqueue (.softRepair ch row)).enqueue (.hardRepair ch row)

/-! ## Decoding a block (R261) -/

/-- A corrected block: counted, queued for rewrite, and its row for repair after four distinct blocks. -/
def State.correctedBlock (s : State) (p : BlockPlace) : State :=
  let row := rowOf p.unit p.block
  let key := 1048576 * p.channel + row
  let s1 := s.bump dev (pMem p.stack) 0 1
  s1.updMbd p.stack (fun x =>
    let c := if x.corrected.contains (key, p.block) then x.corrected else (key, p.block) :: x.corrected
    let x1 := { x.rewriteBlock p.channel with corrected := c }
    if 4 ≤ (c.filter (fun e => e.1 == key)).length then x1.repairRow p.channel row else x1)

/-- An uncorrectable block: counted, recorded in MEM_LAST_UE, UE raised, rewrite and row repair queued (R261, R279, R284). -/
def State.uncorrectableBlock (s : State) (p : BlockPlace) (keyDom : Nat) (base : Bool) : State :=
  let w := fld p.channel 0 5 + fld p.unit 5 19 + fld p.block 24 6 + fld keyDom 30 6 + fld (bit01 base) 36 1 + fld 1 63 1
  let s1 := (s.bump dev (pMem p.stack) 1 1).updMbd p.stack (fun x =>
    ({ x.rewriteBlock p.channel with lastUe := w64 w }).repairRow p.channel (rowOf p.unit p.block))
  s1.raiseDev (pMem p.stack) 7

/-- A block that reads as poison with up to three wrong symbols: rewritten, and not counted as corrected (R261). -/
def State.poisonRewrite (s : State) (p : BlockPlace) : State := s.updMbd p.stack (fun x => x.rewriteBlock p.channel)

/-- Reading a block of a domain's range with `symbols` wrong symbols (R260, R261). -/
def State.readDomainBlock (s : State) (d addr symbols : Nat) : State :=
  let h := s.home d addr
  let p := blockPlace s.memg.tmode (s.frameOf h.1 (h.2 / pageBytes)) (h.2 % pageBytes)
  if symbols = 0 then s
  else if symbols ≤ 3 then (if (s.dom h.1).poison.contains (h.2 / 64) then s.poisonRewrite p else s.correctedBlock p)
  else
    (s.uncorrectableBlock p h.1 false).updDom h.1 (fun x => { x with poison := numAdd x.poison (h.2 / 64) })

/-! ## Where a byte of a base copy lies (R229 to R231, R242, R257) -/

/-- The regions of a tensor in the image: offset and bytes (R35). -/
def Tensor.regions (t : Tensor) : List (Nat × Nat) :=
  let nb := t.rows * t.rowBlocks
  (t.elemOff, nb * fmtBytes t.fmt) ::
    ((if fmtBlock t.fmt then [(t.scaleOff, nb)] else []) ++ (if t.esc then [(t.escOff, 4 * nb)] else []))

/-- A tensor has a byte in stripe q. -/
def Tensor.meets (t : Tensor) (q : Nat) : Bool :=
  t.regions.any (fun r => decide (65536 * q < r.1 + r.2) && decide (r.1 < 65536 * q + 65536))

/-- Octet size of a format on T frames (R257). -/
def octetBytes (f : Nat) : Nat := 2 ^ ceilLog2 (8 * fmtBytes f)

/-- T class offset of image byte o of a tensor on T frames, where one of its regions holds it (R257). -/
def Tensor.octetPlace (t : Tensor) (o : Nat) : Option Nat :=
  let n := t.rows * t.rowBlocks
  let at_ (region lo size step : Nat) : Option Nat :=
    let i := (o - lo) / size
    let r := i / t.rowBlocks
    if lo ≤ o ∧ o < lo + n * size then
      some (4096 * t.tAt.getD region 0 + (r / 8 * t.rowBlocks + i % t.rowBlocks) * step + r % 8 * size + (o - lo) % size)
    else none
  match at_ 0 t.elemOff (fmtBytes t.fmt) (octetBytes t.fmt) with
  | some a => some a
  | none => match (if fmtBlock t.fmt then at_ 1 t.scaleOff 1 8 else none) with
    | some a => some a
    | none => if t.esc then at_ 2 t.escOff 4 32 else none

/-- A stripe needs an ordinary page: it is not of PLACE 2, and not all of its tensors are on T frames. -/
def CopySlot.wantsPage (c : CopySlot) (q : Nat) : Bool :=
  let ts := c.tensors.filter (fun t => t.meets q)
  !ts.any (fun t => t.place == 2) && (ts.isEmpty || ts.any (fun t => !t.onT))

def CopySlot.stripe (c : CopySlot) (q : Nat) : Stripe := (mapGet c.stripeMap q).getD {}

def CopySlot.putStripe (c : CopySlot) (q : Nat) (x : Stripe) : CopySlot := { c with stripeMap := mapSet c.stripeMap q x }

/-- Place of a stripe among those of its copy that need an ordinary page: 32 stripes a page, in ascending order (R230, R238; log 10). -/
def CopySlot.rank (c : CopySlot) (q : Nat) : Nat := ((List.range q).filter c.wantsPage).length

/-- Where image byte o of a base copy lies: on T frames, in the page that a second poisoning gave its stripe, in base staging, or in the copy's own pages (R229 to R231, R242, R257). -/
def State.basePlace (s : State) (k o : Nat) : BlockPlace :=
  let c := s.copy k
  let q := o / 65536
  let x := c.stripe q
  let inPage (i slot : Nat) : BlockPlace :=
    blockPlace s.memg.tmode ((runsNth s.bas.region i).getD 0) (65536 * slot + o % 65536)
  match (c.tensors.filter (fun t => t.onT)).findSome? (fun t => t.octetPlace o) with
  | some a => blockPlace s.memg.tmode (tFrame0 + a / pageBytes) (a % pageBytes)
  | none => match x.page with
    | some i => inPage i 0
    | none =>
      if x.staged then inPage (s.bas.regionPages - s.bas.stagePages + x.slot / 32) (x.slot % 32)
      else inPage (c.pages.getD (c.rank q / 32) 0) (c.rank q % 32)

/-- Reading a block of a base copy: an uncorrectable one is poisoned and its stripe is BAD at once (R240). -/
def State.readBaseBlock (s : State) (k o symbols : Nat) : State :=
  let p := s.basePlace k (o / 64 * 64)
  if symbols = 0 then s
  else if symbols ≤ 3 then (if (s.copy k).poison.contains (o / 64) then s.poisonRewrite p else s.correctedBlock p)
  else
    (s.uncorrectableBlock p 0 true).updCopy k (fun c =>
      { c with poison := numAdd c.poison (o / 64),
               stripeMap := mapSet c.stripeMap (o / 65536)
                 { (mapGet c.stripeMap (o / 65536)).getD {} with state := .bad } })

/-! ## Commons words and array SRAMs -/

/-- The domain that holds a commons bank; errors in free banks count for domain 0 (R520). -/
def State.bankHolder (s : State) (o : Nat) : Nat :=
  let b := o / bankBytes
  match s.doms.find? (fun p => p.2.phase != .free && decide (p.2.rec_.bankFirst ≤ b) &&
      decide (b < p.2.rec_.bankFirst + p.2.rec_.banks)) with
  | some p => p.1
  | none => 0

/-- Poisoned words of a run of commons bytes that are read for the first time: COMMONS_UE (R520). -/
def State.countCommonsUe (s : State) (o n : Nat) : State :=
  (s.uncountedUe o n).foldl (fun t p =>
    let h := t.bankHolder (8 * p)
    let t1 := (t.bump h pDom 6 1).raiseDom pDom 4 h
    { t1 with commonsCounted := numAdd t1.commonsCounted p }) s

/-- A read of a 64-bit commons word with a wrong bit, or two (R520). -/
def State.readCommonsWord (s : State) (o : Nat) (double : Bool) : State :=
  if double then
    ({ s with commonsPoison := numAdd s.commonsPoison (o / 8),
              commonsCounted := numDel s.commonsCounted (o / 8) }).countCommonsUe (o / 8 * 8) 8
  else s.bump (s.bankHolder o) pDom 5 1

/-- A wrong word of an operand buffer or an accumulator (R480, R479, R481). -/
def State.sramError (s : State) (array : Nat) (acc : Bool) (entry : Nat) (double : Bool) : State :=
  let u := array / 128
  if double then
    let s1 := (s.bump dev (pArg u) 4 1).updUnit u (fun x =>
      { x with errArray := array % 128, errAcc := acc, errEntry := entry % 64, errValid := true })
    s1.raiseUnit u 1
  else (s.bump dev (pArg u) 3 1).raiseUnit u 0

/-- One read error of a slab or remote access of domain d, and whether it is poison of the domain's own data that no block of memory holds. -/
def State.meetError (s : State) (d : Nat) : ReadError → State × Bool
  | .domainBlock a n => (s.readDomainBlock d a n, false)
  | .baseBlock k o n => (s.readBaseBlock k.val o n, false)
  | .commonsWord o dbl => (s.readCommonsWord o dbl, false)
  | .operandBuffer a dbl => (s.sramError a false 0 dbl, dbl)
  | .accumulator a e dbl => (s.sramError a true e dbl, dbl)

/-- Every read error of a slab, in the order met. -/
def State.meetErrors (s : State) (d : Nat) (es : List ReadError) : State × Bool :=
  es.foldl (fun p e => let r := p.1.meetError d e; (r.1, p.2 || r.2)) (s, false)

end Sys2Proof.Machine
end

