-- ==== Sys2Proof/Machine/Product.lean ====
section
/-! DEFINITION. BASE_PRODUCT and VARIANT_PRODUCT: their checks, the arithmetic of one output element, the operand buffers, and what a run leaves (R62 to R87, R522, R162, R163). -/

namespace Sys2Proof.Machine

/-- What running a slab leaves: the state, its status, and what it does when it ends. -/
structure RunResult where
  st : State
  status : Status := .done
  effects : List EndEffect := []
  /-- restore copy of R76 -/
  restore : List (Nat × W32) := []
  /-- what the row-statistics buffers of a chain hold, by row (R91) -/
  stats : List (W32 × W32 × W32) := []
deriving Inhabited

/-! ## Arithmetic of one output element (R70 to R72) -/

/-- The group sum of 32 products, rounded once (R70, R71). -/
def groupSum (a b : List Num) : W32 := toF32 ((List.zipWith Num.mul a b).foldl Num.add Num.zero)

/-- One level of the pairwise tree; a value without a partner meets +0 (R72). -/
def pairUp : List W32 → List W32
  | a :: b :: r => fadd a b :: pairUp r
  | [a] => [fadd a 0]
  | [] => []

/-- The balanced tree of 2^n values. -/
def segTree : Nat → List W32 → W32
  | 0, xs => xs.headD 0
  | n + 1, xs => segTree n (pairUp xs)

/-- Cuts a list into runs of n. -/
def runsOf {α : Type} (n : Nat) : Nat → List α → List (List α)
  | 0, _ => []
  | f + 1, xs => if xs.isEmpty then [] else xs.take n :: runsOf n f (xs.drop n)

/-- The segment sums of the group sums, scaled by 2^alpha (R72). -/
def segments (redSeg : Nat) (alpha : Int) (groups : List W32) : List W32 :=
  let l := redSeg - 5
  (runsOf (2 ^ l) groups.length groups).map (fun g =>
    let x := segTree l g
    if alpha = 0 then x else toF32 ((f32 x).scale alpha))

/-- The entry after the segment sums enter it in ascending order (R72). -/
def enterSegs (cont : Bool) (old : W32) : List W32 → W32
  | [] => old
  | x :: r => r.foldl fadd (if cont then fadd old x else x)

/-- The entry of one output element from its two vectors, group by group (R73). -/
def dotEntry (redSeg : Nat) (alpha : Int) (cont : Bool) (old : W32) (row col : Array (List Num)) : W32 :=
  enterSegs cont old (segments redSeg alpha (List.zipWith groupSum row.toList col.toList))

/-- Every entry of tiles on arrays [first, first + n), entries [e0, e0 + e), as NaN (R76). -/
def nanTiles (first n e0 e : Nat) : List (Nat × W32) :=
  (List.range n).flatMap (fun t => (List.range 64).flatMap (fun c =>
    (List.range e).map (fun k => (4096 * (first + t) + 64 * c + (e0 + k), f32Nan))))

/-- The entries of the same tiles as they stand, for the restore copy (R76). -/
def State.tileEntries (s : State) (first n e0 e : Nat) : List (Nat × W32) :=
  (nanTiles first n e0 e).map (fun p => (p.1, s.accGet p.1))

/-! ## Operand buffers (R66, R79) -/

/-- The stored codes of block i of an operand, its scale byte, its escape record and what the read met. -/
def State.rdCodes (s : State) (d : Nat) (o : Opd) (i : Nat) : List Nat × Byte × Nat × Seen :=
  let bb := fmtBytes o.fmt
  let (eb, s1) := s.rdSpace d o (o.elem + i * bb) bb
  if fmtBlock o.fmt then
    let (sb, s2) := s.rdSpace d o (o.scale + i) 1
    let (rb, s3) := if o.esc then s.rdSpace d o (o.escBase + 4 * i) 4 else ([], {})
    let (codes, bad) := blockCodes o.fmt eb
    let badEsc := o.esc && (escEntries (ofLe rb)).2
    (codes, sb.headD 0, ofLe rb, (s1.or s2).or (s3.or { format := bad || badEsc }))
  else ((blockCodes o.fmt eb).1, 0x7F, 0, s1)

/-- The buffer bytes of vector v, group g of an operand (R79), and what the reads met. -/
def State.bufBlock (s : State) (d : Nat) (o : Opd) (v g : Nat) : List Byte × Seen :=
  if o.trans then
    let parts := (List.range 32).map (fun k =>
      let r := 32 * g + k
      let beyond := match o.rows with | some m => decide (m ≤ r) | none => false
      if beyond then (0, (0x7F : Byte), ({} : Seen))
      else
        let (codes, sc, esc, seen) := s.rdCodes d o (r * o.rowBlocks + v / 32)
        let c := codes.getD (v % 32) 0
        if o.esc then
          match (escEntries esc).1.find? (fun e => e.1 == v % 32) with
          | some e => (e.2, sc, seen)
          | none => (encodeElem 4 none (elemNum o.fmt c), sc, seen)
        else (c, sc, seen))
    let seen := Seen.all (parts.map (fun p => p.2.2))
    let codes := parts.map Prod.fst
    let scales := parts.map (fun p => p.2.1)
    if fmtBlock o.fmt then (packCodes (if o.esc then 4 else o.fmt) codes ++ scales, seen)
    else (packCodes o.fmt codes, seen)
  else
    let i := v * o.rowBlocks + g
    let (codes, sc, esc, seen) := s.rdCodes d o i
    (packCodes o.fmt codes ++ (if fmtBlock o.fmt then sc :: (if o.esc then leBytes 4 esc else []) else []), seen)

/-- The values of a block in the operand buffer. -/
def bufNums (o : Opd) (bytes : List Byte) : List Num :=
  if fmtBlock o.fmt then
    if o.trans then
      let f := if o.esc then 4 else o.fmt
      let codes := (blockCodes f (bytes.take (fmtBytes f))).1
      (codes.zipIdx).map (fun p => match scaleExp? (bytes.getD (fmtBytes f + p.2) 0x7F) with
        | none => Num.nan
        | some k => (elemNum f p.1).scale k)
    else
      let bb := fmtBytes o.fmt
      (blockNums o.fmt (bytes.take bb) (bytes.getD bb 0)
        (if o.esc then some (ofLe (bytes.drop (bb + 1))) else none) 32).1
  else (blockNums o.fmt bytes 0 none 32).1

/-- Address in an array's operand buffer of byte p of the stationary operand (R66). -/
def statAddr (kib p : Nat) : Nat := if p < 1024 * kib then p else 0x4000 + (p - 1024 * kib)

/-- Writes the stationary bytes of an array from the start of its areas. -/
def State.putStat (s : State) (array kib : Nat) (bs : List Byte) : State :=
  let base := 32768 * array
  { s with opbuf := memPut (memPut s.opbuf base (bs.take (1024 * kib))) (base + 0x4000) (bs.drop (1024 * kib)) }

/-- n stationary bytes of an array from byte p. -/
def State.getStat (s : State) (array kib p n : Nat) : List Byte :=
  let cap := 1024 * kib
  let base := 32768 * array
  if p + n ≤ cap then memGet s.opbuf (base + p) n
  else if cap ≤ p then memGet s.opbuf (base + 0x4000 + (p - cap)) n
  else memGet s.opbuf (base + p) (cap - p) ++ memGet s.opbuf (base + 0x4000) (n - (cap - p))

/-! ## BASE_PRODUCT (R81, R82) -/

/-- The tiles of an M × N output (R65). -/
def tileCount (m n mt8 nt8 : Nat) : Nat := ceilDiv m (8 * mt8) * ceilDiv n (8 * nt8)

/-- R82's limits on the buffer, for a column operand of `bc` bytes per vector and group. -/
def BaseBody.room (b : BaseBody) (bc : Nat) : Bool :=
  let br := vecBytes b.row
  let mt := 8 * b.mt8
  let nt := 8 * b.nt8
  let area := (16 - b.kib) * 1024
  match b.sel with
  | 0 => decide (mt * b.kBlks * br ≤ 2 * b.kib * 1024) && decide (nt * b.chunk * bc ≤ area)
  | 1 => decide (nt * b.kBlks * bc ≤ 2 * b.kib * 1024) && decide (mt * b.chunk * br ≤ area)
  | _ => decide ((mt * br + nt * bc) * b.chunk ≤ area)

/-- The checks of a BASE_PRODUCT when it arrives (R82); those on the column operand's manifest entry wait for the slab's start (log 18). -/
def State.baseArrives (s : State) (d : Nat) (h : Hdr) (b : BaseBody) : Bool :=
  h.bodyWords == 8 && h.batch != 0 && b.m != 0 && b.n != 0 && b.kBlks != 0 && b.chunk != 0 &&
  1 ≤ b.mt8 && b.mt8 ≤ 64 && 1 ≤ b.nt8 && b.nt8 ≤ 64 &&
  decide (b.mt8 * b.nt8 + b.acc0 ≤ 64) && decide (tileCount b.m b.n b.mt8 b.nt8 ≤ h.count) &&
  b.sel != 3 && b.kib ≤ 14 && (b.sel != 2 || b.kib == 0) &&
  b.row.ok false && b.row.space != 2 && b.col.ok false && b.col.space == 2 &&
  b.room (fmtBytes 10 + 1) && s.extentOk d b.row 0 b.m b.kFirst b.kBlks

/-- The open batch with an id: open until the latch that releases its stamps, also after its closing slab has completed (R21). -/
def Dom.batch? (x : Dom) (id : Nat) : Option Batch := x.batches.find? (fun b => b.id == id)

/-- The next plan latch releases the batch's stamps (R21, R23). -/
def Batch.goes (b : Batch) : Bool := b.closed || b.unopened

/-- The copy slot that a batch's stamp names, or none: BASE_UNAVAILABLE (R237). -/
def State.batchCopy (s : State) (d batch : Nat) : Option Nat :=
  match (s.dom d).batch? batch with
  | some b => s.copyOfGen b.baseGen
  | none => none

/-- Whether reads of image spans reach a LOST stripe (R244). -/
def State.reachesLost (s : State) (k : Nat) (spans : List (Nat × Nat)) : Bool :=
  let c := s.copy k
  let lost := (c.stripeMap.filter (fun p => p.2.state == .lost)).map Prod.fst
  !lost.isEmpty && spans.any (fun p => p.2 != 0 && lost.any (fun q => decide (65536 * q < p.1 + p.2) && decide (p.1 < 65536 * q + 65536)))

/-- The values of vectors [v0, v0 + nv) of the stationary operand on an array, as its buffer holds them. -/
def State.statVectors (s : State) (o : Opd) (array kib nv kBlks : Nat) : Array (Array (List Num)) :=
  let b := vecBytes o
  ((List.range nv).map (fun i => ((List.range kBlks).map (fun g =>
    bufNums o (s.getStat array kib ((i * kBlks + g) * b) b))).toArray)).toArray

/-- Streams the streamed operands of one array through its streaming areas: chunks of CHUNK_G groups, alternating between the halves, the row operand's chunk first where both stream (R67, R68). Each part is an operand with its first vector and the number of them. -/
def State.streamChunks (s : State) (d : Nat) (parts : List (Opd × Nat × Nat)) (array kib chunk kFirst kBlks : Nat) : State :=
  (List.range (ceilDiv kBlks chunk)).foldl (fun t c =>
    let bs := parts.flatMap (fun p => (List.range p.2.2).flatMap (fun i =>
      (List.range (min chunk (kBlks - c * chunk))).flatMap (fun g => (s.bufBlock d p.1 (p.2.1 + i) (kFirst + c * chunk + g)).1)))
    { t with opbuf := memPut t.opbuf (32768 * array + 0x4000 * (c % 2) + 1024 * kib) bs }) s

/-- Loads the stationary operand of one array, in the block order of R34 (R66, R68). -/
def State.loadStat (s : State) (d : Nat) (o : Opd) (array kib v0 nv kFirst kBlks : Nat) : State × Seen :=
  let parts := (List.range nv).flatMap (fun i => (List.range kBlks).map (fun g => s.bufBlock d o (v0 + i) (kFirst + g)))
  (s.putStat array kib (parts.flatMap Prod.fst), Seen.all (parts.map Prod.snd))

/-- Where R69's comparison looks: the descriptor's words and the generation that its base operand had. -/
def reuseKey (ws : List W64) (gen : Nat) : List W64 := ws ++ [w64 gen]

/-- Records, for R69, that the slab with a submission number used the operand buffers of a range, and whether it loaded; a later slab's record stands. -/
def State.noteOperand (s : State) (d first n order : Nat) (key : List W64) (loaded : Bool) : State :=
  s.updDom d (fun x =>
    { x with lastOperand := (List.range' first n).foldl (fun m a =>
        if order < ((mapGet m a).map Prod.fst).getD 0 then m else mapSet m a (order, key, loaded)) x.lastOperand })

/-- Submission number of the slab that runs these words. -/
def Dom.orderOf (x : Dom) (ws : List W64) : Nat :=
  ((x.slabs.find? (fun b => b.state == .running && b.words == ws)).map (fun b => b.order)).getD x.nextOrder

/-- Whether two BASE_PRODUCTs have the same stationary vectors on an array (R69): the kept slab's key, the new slab's key, and the array. -/
def sameStat (old new : List W64) (array : Nat) : Bool :=
  let hb (k : List W64) : Hdr × BaseBody := (hdrOf k, baseBody k)
  let (h1, b1) := hb old
  let (h2, b2) := hb new
  let place (h : Hdr) (b : BaseBody) : Option (Nat × Nat) :=
    let t := array - h.first
    let tc := ceilDiv b.n (8 * b.nt8)
    if array < h.first ∨ tileCount b.m b.n b.mt8 b.nt8 ≤ t then none
    else if b.sel = 0 then some (t / tc * (8 * b.mt8), min b.m ((t / tc + 1) * (8 * b.mt8)))
    else some (t % tc * (8 * b.nt8), min b.n ((t % tc + 1) * (8 * b.nt8)))
  h1.kind == 1 && h2.kind == 1 && b1.keep && b2.reuse && b1.sel != 2 && b1.sel == b2.sel && b1.kib == b2.kib &&
  b1.kFirst == b2.kFirst && b1.kBlks == b2.kBlks && (b1.sel == 0 || old.getLast? == new.getLast?) &&
  (if b1.sel = 0 then (old.drop 4).take 3 == (new.drop 4).take 3 else (old.drop 7).take 3 == (new.drop 7).take 3) &&
  (place h1 b1).isSome && place h1 b1 == place h2 b2

/-- One BASE_PRODUCT run: every tile on its array, whose streaming areas end with the chunks last streamed (R64, R65, R67, R70 to R73). -/
def State.baseCompute (s : State) (d : Nat) (h : Hdr) (b : BaseBody) (col : Opd) (reuse : List Nat) : State × Seen × List (Nat × W32) :=
  let mt := 8 * b.mt8
  let nt := 8 * b.nt8
  let tc := ceilDiv b.n nt
  let (rows, sr) := if b.sel = 0 then (#[], {}) else s.rdVectors d b.row 0 b.m b.kFirst b.kBlks
  let (cols, sc) := if b.sel = 1 then (#[], {}) else s.rdVectors d col 0 b.n b.kFirst b.kBlks
  (List.range (tileCount b.m b.n b.mt8 b.nt8)).foldl (fun acc t =>
    let (st, seen, out) := acc
    let a := h.first + t
    let m0 := t / tc * mt
    let n0 := t % tc * nt
    let mn := min b.m (m0 + mt) - m0
    let nn := min b.n (n0 + nt) - n0
    -- load the stationary operand of this array, unless it is reused
    let (st1, s1) :=
      if b.sel = 2 ∨ reuse.contains a then (st, {})
      else if b.sel = 0 then st.loadStat d b.row a b.kib m0 mn b.kFirst b.kBlks
      else st.loadStat d col a b.kib n0 nn b.kFirst b.kBlks
    let rv := if b.sel = 0 then st1.statVectors b.row a b.kib mn b.kBlks else rows.extract m0 (m0 + mn)
    let cv := if b.sel = 1 then st1.statVectors col a b.kib nn b.kBlks else cols.extract n0 (n0 + nn)
    let outs := (List.range mn).flatMap (fun i => (List.range nn).map (fun j =>
      let k := accKey a (i % 8) (j % 8) (b.acc0 + i / 8 * b.nt8 + j / 8)
      (k, dotEntry h.redSeg 0 h.accCont (s.accGet k) (rv.getD i #[]) (cv.getD j #[]))))
    let rowPart := (b.row, m0, mn)
    let colPart := (col, n0, nn)
    let st2 := st1.streamChunks d (if b.sel = 0 then [colPart] else if b.sel = 1 then [rowPart] else [rowPart, colPart])
      a b.kib b.chunk b.kFirst b.kBlks
    (st2, seen.or s1, out ++ outs)) (s, sr.or sc, [])

/-- A BASE_PRODUCT from its start: checks on the manifest entry, reuse, the restore copy, the product, and the withheld result (R82, R237, R244, R69, R76). -/
def State.runBase (s : State) (d : Nat) (ws : List W64) (reuse : List Nat) (sram : Bool) : RunResult :=
  let h := hdrOf ws
  let b := baseBody ws
  let tiles := tileCount b.m b.n b.mt8 b.nt8
  match s.batchCopy d h.batch with
  | none => { st := s, status := .baseUnavailable }
  | some k =>
    let gen := (s.copy k).gen
    let key := reuseKey ws gen
    match s.resolveBase k b.col with
    | none => { st := s, status := .descInvalid }
    | some col =>
      if col.fmt = 1 ∨ !b.room (vecBytes col) ∨ !s.extentOk d col 0 b.n b.kFirst b.kBlks then
        { st := s, status := .descInvalid }
      else if s.reachesLost k (opdSpans col 0 b.n b.kFirst b.kBlks) then
        { st := s, status := .baseUnavailable }
      else if reuse.any (fun a => match mapGet (s.dom d).lastOperand a with | some (_, _, l) => !l | none => true) then
        { st := s, status := .depFailed }
      else
        let e := b.mt8 * b.nt8
        let restore := if h.accCont then s.tileEntries h.first tiles b.acc0 e else []
        let (s1, seen, out) := s.baseCompute d h b col reuse
        let s2 := (s1.noteOperand d h.first tiles ((s.dom d).orderOf ws) key true)
        let s3 := reuse.foldl (fun t a => t.bump dev (pArg (a / 128)) 2 1) s2
        let status := ({ seen with own := seen.own || sram } : Seen).status
        if status = .done then { st := s3.accPutAll out, restore := restore }
        else { st := s3.accPutAll (nanTiles h.first tiles b.acc0 e), status := status, restore := restore }

/-! ## VARIANT_PRODUCT (R83 to R87) -/

/-- A group table entry (R84). -/
structure Group where
  rowFirst : Nat
  rowCount : Nat
  slot : Nat
  gen : W16
  gArray : Nat
  gAcc : Nat
deriving DecidableEq, Repr, Inhabited

def groupOf (bytes : List Byte) : Group :=
  let w0 := ofLe (bytes.take 8)
  let w1 := ofLe (bytes.drop 8)
  { rowFirst := bitsOf w0 0 16, rowCount := bitsOf w0 16 16, slot := bitsOf w0 32 14,
    gen := BitVec.ofNat 16 (bitsOf w0 48 16), gArray := bitsOf w1 0 13, gAcc := bitsOf w1 13 6 }

/-- Groups ascend without overlap and lie within rows 0 to M - 1 (R84). -/
def groupsOk (m : Nat) : Nat → List Group → Bool
  | _, [] => true
  | lo, g :: r => g.rowCount != 0 && decide (lo ≤ g.rowFirst) && decide (g.rowFirst + g.rowCount ≤ m) &&
      groupsOk m (g.rowFirst + g.rowCount) r

/-- The checks of a VARIANT_PRODUCT when it arrives (R87); the table, the ranks and the rows that the groups of subkind 2 reach wait for its start (R522). A K_BLKS of 0 in subkinds 0 and 1, and an MT8 or NT8 of 0, is refused (DEDUCED, logs 132 and 133); an N of 0 runs and has no output column (log 86). -/
def State.varArrives (s : State) (d : Nat) (h : Hdr) (b : VarBody) : Bool :=
  h.bodyWords == 9 && h.batch != 0 && b.m != 0 && b.groups != 0 && 1 ≤ b.mt8 && 1 ≤ b.nt8 &&
  1 ≤ b.rMax8 && b.rMax8 ≤ 32 && b.row.ok false && b.row.space != 2 &&
  s.inCommons d b.gt (16 * b.groups) &&
  (if h.sub ≤ 1 then
      decide (b.acc0 + b.mt8 * b.nt8 ≤ 64) && decide (b.h0 + b.rMax8 ≤ 64) &&
      !(decide (b.h0 < b.acc0 + b.mt8 * b.nt8) && decide (b.acc0 < b.h0 + b.rMax8)) && b.qZero &&
      decide (tileCount b.m b.n b.mt8 b.nt8 ≤ h.count) && b.kBlks != 0 &&
      s.extentOk d b.row 0 b.m 0 b.kBlks && s.inCommons d b.hAddr (16 * b.rMax8 * b.m)
    else
      b.acc0 == 0 && b.h0 == 0 && b.kBlks == 0 && b.hAddr == 0 && b.row.trans && b.q.trans &&
      b.q.ok false && b.q.space != 2 &&
      decide (ceilDiv b.n 32 ≤ b.q.rowBlocks))

/-- The first `nv` stored columns of stored rows [r0, r0 + rows) of a SPACE 0 or 1 operand lie in the domain's range or banks (R522). -/
def State.rowsOk (s : State) (d : Nat) (o : Opd) (r0 rows nv : Nat) : Bool :=
  nv == 0 || rows == 0 ||
    (let i0 := r0 * o.rowBlocks
     let n := (r0 + rows - 1) * o.rowBlocks + (nv - 1) / 32 + 1 - i0
     let bb := fmtBytes o.fmt
     s.spanOk d o.space (o.elem + i0 * bb) (n * bb) &&
       (!fmtBlock o.fmt || s.spanOk d o.space (o.scale + i0) n) &&
       (!o.esc || s.spanOk d o.space (o.escBase + 4 * i0) (4 * n)))

/-- The reduction groups of subkind 2: the 32-row groups of each table group, in P and in Q (R83, R522). -/
def State.gradExtentOk (s : State) (d : Nat) (b : VarBody) (gs : List Group) : Bool :=
  gs.all (fun g =>
    let rows := 32 * ceilDiv g.rowCount 32
    s.rowsOk d b.row g.rowFirst rows (32 * b.row.rowBlocks) && s.rowsOk d b.q g.rowFirst rows b.n)

/-- How a slot stands for a slab of a batch (R85, R122). -/
inductive SlotUse where
  | corrected (ver : W32)
  | absent
  | stale
deriving DecidableEq, Repr, Inhabited

/-- A slot granted to a domain (R117). -/
def State.granted (s : State) (d slot : Nat) : Bool :=
  let r := (s.dom d).rec_
  decide (r.slotFirst ≤ slot) && decide (slot < r.slotFirst + r.slotCount)

/-- The version a batch stamps for a slot now, or has stamped (R162, R122). -/
def State.stampFor (s : State) (d slot : Nat) (gen : W16) (b : Batch) : Option W32 :=
  let e := s.slot slot
  if !s.granted d slot || e.gen != gen || gen == 0 then none
  else match mapGet b.stamps slot with
    | some v => if e.state == .live || e.state == .parking || e.state == .releasing then some v else none
    | none =>
      if e.state == .live then some (if e.commitTick ≤ b.openTick then e.verCur else e.verCur - 1) else none

/-- Takes the stamps of a batch for the slots of a table that are held and not yet stamped (R162). -/
def State.takeStamps (s : State) (d batch : Nat) (gs : List Group) : State :=
  gs.foldl (fun t g =>
    match (t.dom d).batch? batch with
    | none => t
    | some b =>
      match t.stampFor d g.slot g.gen b with
      | none => t
      | some v =>
        if (mapGet b.stamps g.slot).isSome then t
        else
          let t1 := t.updSlot g.slot (fun e =>
            if v = e.verCur then { e with refCur := e.refCur + 1 } else { e with refOld := e.refOld + 1 })
          t1.updDom d (fun x =>
            { x with batches := x.batches.map (fun y =>
                       if y.id = batch then { y with stamps := mapSet y.stamps g.slot v } else y) })) s

/-- What R85 gives for a group. -/
def State.slotUse (s : State) (d : Nat) (b : Batch) (proj : Nat) (g : Group) : SlotUse :=
  match s.stampFor d g.slot g.gen b with
  | none => .stale
  | some v => if bitOf (s.slot g.slot).projMask.toNat proj then .corrected v else .absent

/-- The weight buffer that holds a stamped version (R163). -/
def SlotEntry.bufOf (e : SlotEntry) (ver : W32) : Bool := if ver = e.verCur then e.curBuf else !e.curBuf

/-- Vector `v` of a factor over `n` groups: a stored row, or a stored column when transposed (R83). -/
def State.factorVec (s : State) (x : FactorSrc) (proj fac : Nat) (trans : Bool) (v n : Nat) : Array (List Num) × Seen :=
  let cut := (List.range n).map (fun g =>
    if trans then
      let col := (List.range 32).map (fun k =>
        let (l, seen) := s.factorNums x proj fac (32 * g + k) (v / 32)
        (l.getD (v % 32) Num.zero, seen))
      (col.map Prod.fst, Seen.all (col.map Prod.snd))
    else s.factorNums x proj fac v g)
  ((cut.map Prod.fst).toArray, Seen.all (cut.map Prod.snd))

/-- Where a group reads its factors: the staged copy where it has the stamped version, the cache otherwise (R131, R163). -/
def SlotEntry.source (e : SlotEntry) (d slot : Nat) (ver : W32) (proj : Nat) : FactorSrc :=
  { d := d, slot := slot, e := e, buf := e.bufOf ver, staged := bitOf e.stagedMask.toNat proj && e.stagedVer == ver }

/-- One group of a stage-1 and stage-2 product (R83, R86): the stage-1 entries, the rows of h in BF16, and the output entries. -/
def State.varGroup (s : State) (d : Nat) (h : Hdr) (b : VarBody) (g : Group) (ver : W32) (unit0 : Nat) :
    Seen × List (Nat × W32) × List (Nat × List W32) × List (Nat × W32) :=
  let e := s.slot g.slot
  let src := e.source d g.slot ver b.proj
  let r := 8 * e.rank8
  let g2 := ceilDiv b.rMax8 4
  let (xs, seen) := s.rdVectors d b.row g.rowFirst g.rowCount 0 b.kBlks
  let stage1 := (List.range r).map (fun c =>
    if h.sub = 0 then s.factorVec src b.proj 0 false c b.kBlks else s.factorVec src b.proj 1 true c b.kBlks)
  let cols1 := (stage1.map Prod.fst).toArray
  -- rows beyond ROW_COUNT are computed on zero operands and discarded (R86)
  let s1 := (List.range g.rowCount).map (fun i =>
    (i, (List.range r).map (fun c => dotEntry h.redSeg 0 false 0 (xs.getD i #[]) (cols1.getD c #[]))))
  let entries := s1.flatMap (fun p =>
    let a := h.first + (unit0 + p.1 / 8) % h.count
    (p.2.zipIdx).map (fun q => (accKey a (p.1 % 8) (q.2 % 8) (b.h0 + q.2 / 8), q.1)))
  let hrows := s1.map (fun p => (g.rowFirst + p.1, p.2.map bf16 ++ List.replicate (8 * b.rMax8 - r) 0))
  let stage2 := (List.range b.n).map (fun n =>
    if h.sub = 0 then s.factorVec src b.proj 1 false n g2 else s.factorVec src b.proj 0 true n g2)
  let cols2 := (stage2.map Prod.fst).toArray
  let outs := hrows.flatMap (fun p =>
    let hv : Array (List Num) := ((List.range g2).map (fun k =>
      (List.range 32).map (fun i => (p.2[32 * k + i]?.map f32).getD Num.zero))).toArray
    (List.range b.n).map (fun n =>
      let k := outKey h.first b.acc0 b.mt8 b.nt8 b.n p.1 n
      (k, dotEntry h.redSeg b.alpha h.accCont (s.accGet k) hv (cols2.getD n #[]))))
  (seen.or (Seen.all (stage1.map Prod.snd ++ stage2.map Prod.snd)), entries, hrows, outs)

/-- Columns [0, nv) of an operand over the stored rows of a group, in groups of 32 rows counted from its first (R83). -/
def State.rdColumns (s : State) (d : Nat) (o : Opd) (nv row0 rows : Nat) : Array (Array (List Num)) × Seen :=
  let bn := ceilDiv nv 32
  let data := (List.range rows).map (fun k =>
    (List.range bn).map (fun b => s.rdBlock d o ((row0 + k) * o.rowBlocks + b) 32))
  let seen := Seen.all (data.flatMap (fun r => r.map Prod.snd))
  let arr : Array (Array (Array Num)) := (data.map (fun r => (r.map (fun p => p.1.toArray)).toArray)).toArray
  let get (k v : Nat) : Num := ((arr.getD k #[]).getD (v / 32) #[]).getD (v % 32) Num.zero
  (((List.range nv).map (fun v => ((List.range (ceilDiv rows 32)).map (fun g =>
    (List.range 32).map (fun i => get (32 * g + i) v))).toArray)).toArray, seen)

/-- One group of a factor gradient (R83), on the entries as `m` holds them; `done` lists keys the slab has added into (R22). -/
def State.gradGroup (s : State) (d : Nat) (h : Hdr) (b : VarBody) (g : Group) (m : List (Nat × W32)) :
    Seen × List (Nat × W32) :=
  let mout := 32 * b.row.rowBlocks
  let (ps, s1) := s.rdColumns d b.row mout g.rowFirst g.rowCount
  let (qs, s2) := s.rdColumns d b.q b.n g.rowFirst g.rowCount
  (s1.or s2, (List.range mout).flatMap (fun p => (List.range b.n).map (fun n =>
    let k := outKey (h.first + g.gArray) g.gAcc b.mt8 b.nt8 b.n p n
    let (cont, old) := match mapGet m k with | some v => (true, v) | none => (h.accCont, s.accGet k)
    (k, dotEntry h.redSeg b.alpha cont old (ps.getD p #[]) (qs.getD n #[])))))

/-- Units of the groups before each group (R86). -/
def withUnits : Nat → List Group → List (Nat × Group)
  | _, [] => []
  | u, g :: r => (u, g) :: withUnits (u + ceilDiv g.rowCount 8) r

/-- The group table of a VARIANT_PRODUCT as the commons hold it (R84). -/
def State.groupTable (s : State) (b : VarBody) : List Group :=
  let bytes := (s.rdCommons b.gt (16 * b.groups)).1
  (List.range b.groups).map (fun i => groupOf ((bytes.drop (16 * i)).take 16))

/-- A VARIANT_PRODUCT from its start (R83 to R87, R143, R162). -/
def State.runVariant (s : State) (d : Nat) (ws : List W64) (sram : Bool) : RunResult :=
  let h := hdrOf ws
  let b := varBody ws
  let e := b.mt8 * b.nt8
  let outTiles := nanTiles h.first (tileCount b.m b.n b.mt8 b.nt8) b.acc0 e
  let bad := (s.rdCommons b.gt (16 * b.groups)).2
  if bad then
    { st := if h.sub ≤ 1 then s.accPutAll outTiles else s, status := .dataPoison }
  else
    let gs := s.groupTable b
    let mout := 32 * b.row.rowBlocks
    let gTiles := tileCount mout b.n b.mt8 b.nt8
    let tableOk := groupsOk b.m 0 gs &&
      (h.sub != 2 || gs.all (fun g => decide (g.gArray + gTiles ≤ h.count) && decide (g.gAcc + e ≤ 64)))
    let rankOk := gs.all (fun g =>
      let x := s.slot g.slot
      !(s.granted d g.slot && x.gen == g.gen && g.gen != 0 && x.state != .free) || decide (x.rank8 ≤ b.rMax8))
    if !tableOk || !rankOk || (h.sub == 2 && !s.gradExtentOk d b gs) then { st := s, status := .descInvalid }
    else
      let s1 := (s.takeStamps d h.batch gs).noteOperand d h.first h.count ((s.dom d).orderOf ws) (reuseKey ws 0) true
      let batch := ((s1.dom d).batch? h.batch).getD { id := 0, openTick := 0, baseGen := 0 }
      let uses := (withUnits 0 gs).map (fun p => (p, s1.slotUse d batch b.proj p.2))
      let stale := (uses.filter (fun p => p.2 == .stale)).length
      let s2 := if stale = 0 then s1 else s1.bump d pVar 3 stale
      let base := if stale = 0 then Status.done else .staleSlot
      if h.sub = 2 then
        let r := uses.foldl (fun (acc : Seen × List (Nat × W32)) p =>
          match p.2 with
          | .corrected _ =>
            let (seen, outs) := s2.gradGroup d h b p.1.2 acc.2
            (acc.1.or seen, outs.foldl (fun m q => mapSet m q.1 q.2) acc.2)
          | .absent => acc
          | .stale => acc) ({}, [])
        let status := base.worse ({ r.1 with own := r.1.own || sram } : Seen).status
        if status = .done ∨ status = .staleSlot then { st := s2.accPutAll r.2, status := status }
        else
          let tiles := uses.flatMap (fun p => match p.2 with
            | .corrected _ => nanTiles (h.first + p.1.2.gArray) gTiles p.1.2.gAcc e
            | .absent => []
            | .stale => [])
          { st := s2.accPutAll tiles, status := status }
      else
        let parts := uses.map (fun p => match p.2 with
          | .corrected v => s2.varGroup d h b p.1.2 v p.1.1
          | .absent => ({}, [], [], [])
          | .stale => ({}, [], [], []))
        let seen := Seen.all (parts.map Prod.fst)
        let status := base.worse ({ seen with own := seen.own || sram } : Seen).status
        if status = .done ∨ status = .staleSlot then
          let s3 := s2.accPutAll (parts.flatMap (fun p => p.2.1))
          let s4 := (parts.flatMap (fun p => p.2.2.1)).foldl (fun t p =>
            t.wrCommons (b.hAddr + p.1 * 16 * b.rMax8) (p.2.flatMap (fun w => leBytes 2 (w.toNat >>> 16)))) s3
          { st := s4.accPutAll (parts.flatMap (fun p => p.2.2.2)), status := status }
        else { st := s2.accPutAll outTiles, status := status }

end Sys2Proof.Machine
end

