-- ==== Sys2Proof/Machine/Special.lean ====
section
/-! DEFINITION. The special functions, correctly rounded to FP32 (R101, R102, R203): each is evaluated in fixed point far beyond FP32 with a sticky bit below. -/

namespace Sys2Proof.Machine

/-- ⌊π/2 × 2^640⌋. -/
def halfPi640 : Nat := 0x1921fb54442d18469898cc51701b839a252049c1114cf98e804177d4c76273644a29410f31c6809bbdf2a33679a748636605614dbe4be286e9fc26adadaa3848bc90b6aecc4bcfd8de89885d34c6fdad6

/-- ⌊ln 2 × 2^320⌋. -/
def ln2x320 : Nat := 0xb17217f7d1cf79abc9e3b39803f2f6af40f343267298b62d8a0d175b8baafa2be7b876206debac98

/-- The sum of the Taylor terms of exp at t × 2^-320: term k is the last term times t / k. -/
def expTaylor (t : Nat) : Nat → Nat → Nat → Nat
  | 0, _, _ => 0
  | n + 1, k, term => term + expTaylor t n (k + 1) ((term * t) >>> 320 / k)

/-- 2^f for f × 2^-320 in [0, 1), as a number of 2^-320. -/
def exp2Frac (f : Nat) : Nat := expTaylor ((f * ln2x320) >>> 320) 90 1 (2 ^ 320)

/-- EXP2 (R101). -/
def exp2 (w : W32) : W32 :=
  match f32 w with
  | .nan => f32Nan
  | .inf neg => if neg then 0 else 0x7F800000
  | .fin neg m e =>
    if m = 0 then 0x3F800000
    else if dyLe 200 0 m e then (if neg then 0 else 0x7F800000)
    else
      -- |x| < 200: x as a whole number of 2^-320, rounded down
      let ax := if e + 320 ≥ 0 then m <<< (e + 320).toNat else m >>> (-(e + 320)).toNat
      let x : Int := if neg then -(ax : Int) else ax
      let k := Int.fdiv x (2 ^ 320)
      let f := (x - k * 2 ^ 320).toNat
      if f = 0 then toF32 (.fin false 1 k)
      else toF32 (.fin false (2 * exp2Frac f + 1) (k - 321))

/-- n bits of log2 of a mantissa y × 2^-400 in [1, 2), most significant first, as a number. -/
def log2Bits : Nat → Nat → Nat → Nat
  | 0, _, acc => acc
  | n + 1, y, acc =>
    let z := (y * y) >>> 400
    if 2 ^ 401 ≤ z then log2Bits n (z >>> 1) (2 * acc + 1) else log2Bits n z (2 * acc)

/-- LOG2 (R101). -/
def flog2 (w : W32) : W32 :=
  match f32 w with
  | .nan => f32Nan
  | .inf neg => if neg then f32Nan else 0x7F800000
  | .fin neg m e =>
    if m = 0 then 0xFF800000
    else if neg then f32Nan
    else
      let l := Nat.log2 m
      let ex : Int := l + e
      let y := (m <<< 400) >>> l
      if m = 2 ^ l then toF32 (.fin (decide (ex < 0)) ex.natAbs 0)
      else
        let v : Int := ex * 2 ^ 200 + log2Bits 200 y 0
        -- the true value lies just above v × 2^-200
        let v2 : Int := 2 * v + 1
        toF32 (.fin (decide (v2 < 0)) v2.natAbs (-201))

/-- RCP (R101). -/
def rcp (w : W32) : W32 := toF32 (Num.one.div (f32 w))

/-- RSQRT (R101). -/
def rsqrt (w : W32) : W32 :=
  match f32 w with
  | .nan => f32Nan
  | .inf neg => if neg then f32Nan else 0
  | .fin neg m e =>
    if m = 0 then (if neg then 0xFF800000 else 0x7F800000)
    else if neg then f32Nan
    else
      let (m1, e1) := if e % 2 = 0 then (m, e) else (2 * m, e - 1)
      let n := 2 ^ 256
      let r := isqrt (n / m1)
      let sticky := bit01 (decide (r * r * m1 ≠ n))
      toF32 (.fin false (2 * r + sticky) (-128 - e1 / 2 - 1))

/-- The alternating Taylor sum with terms t²/(k(k+1)), as positive and negative parts of 2^-320. -/
def trigTaylor (t2 : Nat) : Nat → Nat → Nat → Int
  | 0, _, _ => 0
  | n + 1, k, term => (term : Int) - trigTaylor t2 n (k + 2) ((term * t2) >>> 320 / (k * (k + 1)))

/-- Sine and cosine of r × 2^-320 in [0, π/2]. -/
def sinFix (r : Nat) : Int := trigTaylor ((r * r) >>> 320) 60 2 r
def cosFix (r : Nat) : Int := trigTaylor ((r * r) >>> 320) 60 1 (2 ^ 320)

/-- A fixed-point result as FP32, with a sticky bit. -/
def fixToF32 (v : Int) : W32 :=
  let v2 := 2 * v + 1
  toF32 (.fin (decide (v2 < 0)) v2.natAbs (-321))

/-- cos and sin of a finite FP32, each correctly rounded (R203). -/
def fcosSin (w : W32) : W32 × W32 :=
  match f32 w with
  | .fin neg m e =>
    if m = 0 then (0x3F800000, w)
    else
      let a := m <<< (e + 640).toNat
      let q := a / halfPi640
      let r := (a % halfPi640) >>> 320
      let s := sinFix r
      let c := cosFix r
      let (cc, ss) : Int × Int := match q % 4 with
        | 0 => (c, s) | 1 => (-s, c) | 2 => (-c, -s) | _ => (s, -c)
      (fixToF32 cc, fixToF32 (if neg then -ss else ss))
  | .nan => (f32Nan, f32Nan)
  | .inf _ => (f32Nan, f32Nan)

/-! ## Compound operations (R102) -/

/-- The FP32 constants of R102: log₂ e, ln 2, 0.044715 and 1.5957691. -/
def cL2E : W32 := 0x3FB8AA3B
def cLN2 : W32 := 0x3F317218
def cC : W32 := toF32 ((Num.fin false 44715 0).div (.fin false 1000000 0))
def cK : W32 := toF32 ((Num.fin false 15957691 0).div (.fin false 10000000 0))
def fOne : W32 := 0x3F800000
def fTwo : W32 := 0x40000000
def fNegInf : W32 := 0xFF800000
def fPosInf : W32 := 0x7F800000

def fexp (x : W32) : W32 := exp2 (fmul x cL2E)
def flog (x : W32) : W32 := fmul (flog2 x) cLN2

/-- x < y, x = y on FP32; false when either is NaN. -/
def flt (x y : W32) : Bool := !(f32 x).isNan && !(f32 y).isNan && (f32 x).lt (f32 y)
def feq (x y : W32) : Bool := !(f32 x).isNan && !(f32 y).isNan && !(f32 x).lt (f32 y) && !(f32 y).lt (f32 x)

/-- Maximum and minimum: NaN canonical when either is NaN, +0 above -0 (R104, R175). -/
def fmax (x y : W32) : W32 :=
  if (f32 x).isNan || (f32 y).isNan then f32Nan
  else if (f32 x).isZero && (f32 y).isZero then (if x = 0 ∨ y = 0 then 0 else x)
  else if flt x y then y else x
def fmin (x y : W32) : W32 :=
  if (f32 x).isNan || (f32 y).isNan then f32Nan
  else if (f32 x).isZero && (f32 y).isZero then (if x = 0 ∧ y = 0 then 0 else 0x80000000)
  else if flt y x then y else x

def relu (x : W32) : W32 := if (f32 x).isNan then f32Nan else if flt 0 x then x else 0
def sigmoid (x : W32) : W32 := rcp (fadd fOne (exp2 (fmul (fneg x) cL2E)))
def silu (x : W32) : W32 := fmul x (sigmoid x)
def ftanh (x : W32) : W32 := fsub (fmul fTwo (sigmoid (fmul fTwo x))) fOne
def geluTanh (x : W32) : W32 :=
  let t := fmul x x
  let t := fmul t x
  let t := fmul t cC
  let t := fadd x t
  let t := fmul t cK
  fmul x (sigmoid t)

end Sys2Proof.Machine
end

