-- ==== Sys2Proof/Machine/Vector.lean ====
section
/-! DEFINITION. VECTOR_CHAIN: its stages, checks, conversion and sinks (R90 to R112, R44 to R49, R56 to R58, R203, R524). -/

namespace Sys2Proof.Machine

/-- A stage word (R98). -/
structure Stage where
  op : Nat
  sub : Nat
  aux : Nat
  imm : Nat
deriving DecidableEq, Repr, Inhabited

def stageOf (w : W64) : Stage :=
  { op := bitsOf w.toNat 0 6, sub := bitsOf w.toNat 6 4, aux := bitsOf w.toNat 10 22, imm := bitsOf w.toNat 32 32 }

/-- CONVERT's fields: TKIND, FMT override, HIST_SLOT, reserved bits (R99). -/
def Stage.tkind (x : Stage) : Nat := bitsOf x.aux 0 3
def Stage.ovr (x : Stage) : Nat := bitsOf x.aux 3 4
def Stage.slot (x : Stage) : Nat := bitsOf x.aux 7 7
def Stage.rsv (x : Stage) : Nat := bitsOf x.aux 14 8
/-- ROPE's fields: HEAD_D8 and FREQ_OFF (R203). -/
def Stage.headD8 (x : Stage) : Nat := bitsOf x.aux 0 8
def Stage.freq (x : Stage) : Nat := 16384 * bitsOf x.aux 8 14

/-- The body of a VECTOR_CHAIN (R97). -/
structure ChainBody where
  srcTensor : Bool
  sinkTensor : Bool
  bf16 : Bool
  nStages : Nat
  rows : Nat
  cols : Nat
  mt8 : Nat
  nt8 : Nat
  acc0 : Nat
  src : Opd
  sink : Opd
  stages : List Stage
deriving DecidableEq, Repr, Inhabited

def chainBody (ws : List W64) : ChainBody :=
  { srcTensor := wfld ws 4 0 1 == 1, sinkTensor := wfld ws 4 1 1 == 1, bf16 := wfld ws 4 2 1 == 1,
    nStages := wfld ws 4 3 4, rows := wfld ws 4 7 16, cols := wfld ws 4 23 16, mt8 := wfld ws 4 39 7,
    nt8 := wfld ws 4 46 7, acc0 := wfld ws 4 53 6, src := opdAt ws 5, sink := opdAt ws 8,
    stages := ((ws.drop 11).take (wfld ws 4 3 4)).map stageOf }

/-! ## Recipe rows as a conversion sees them (R44 to R46, R56) -/

/-- Format, scale source, rounding rule and escape shift of a conversion. -/
structure Conv where
  fmt : Nat
  src : Nat
  round : Nat
  esc : Option Nat
deriving DecidableEq, Repr, Inhabited

/-- The conversion that a TKIND and an override give; none where R46 refuses it. Row 3 of a domain in KLN3 gradient mode allows the override 0x3 alone (R56; DEDUCED, log 125). -/
def convOf (rows : List Recipe) (kln3 : Bool) (tkind ovr : Nat) : Option Conv :=
  if kln3 ∧ tkind = 3 then
    (if ovr = 0 ∨ ovr = 3 then some { fmt := 3, src := 0, round := 0, esc := none } else none)
  else
    match rows[tkind]? with
    | none => none
    | some r =>
      if ovr ≠ 0 ∧ !recipeAllows tkind ovr then none
      else
        let f := if ovr = 0 then r.fmt else ovr
        some { fmt := f, src := recipeSrc tkind, round := recipeRound tkind,
               esc := if r.escEn && recipeEscapes tkind f then some r.escShift else none }

/-! ## Costs (R99) -/

/-- Operations that use AUX; in the others all its bits are reserved (R98, R99, R111). -/
def stageUsesAux (op : Nat) : Bool := op == 0x07 || op == 0x0D || op == 0x10

/-- SUB values defined for an operation, and its reserved AUX bits clear (R99, R111). -/
def stageSubOk (x : Stage) : Bool :=
  (stageUsesAux x.op || x.aux == 0) &&
  match x.op with
  | 0x01 => x.sub == 0 | 0x02 => x.sub == 0
  | 0x03 => x.sub ≤ 1 | 0x04 => x.sub ≤ 1 | 0x05 => x.sub ≤ 1 | 0x06 => x.sub ≤ 1
  | 0x07 => x.sub == 0 | 0x08 => x.sub == 0
  | 0x09 => x.sub ≤ 4 | 0x0A => x.sub ≤ 5 | 0x0B => x.sub ≤ 3 | 0x0C => x.sub ≤ 1 | 0x0D => x.sub ≤ 1
  | 0x10 => x.sub == 0 && x.rsv == 0
  | _ => false

/-- Lane cycles per vector of a stage, in half cycles. -/
def stageCost2 (bf : Bool) (stoch : Bool) (x : Stage) : Nat :=
  match x.op with
  | 0x09 => 2 * [1, 6, 7, 9, 12].getD x.sub 0
  | 0x0A => 2 * [2, 2, 2, 2, 3, 3].getD x.sub 0
  | 0x0B => 2 * [4, 5, 4, 6].getD x.sub 0
  | 0x0C => if bf then 2 else 4
  | 0x0D => 4
  | 0x10 => if stoch then 4 else 2
  | _ => if bf then 1 else 2

/-- The stages up to and including ROWSTAT; none without one. -/
def uptoRowstat : List Stage → List Stage
  | [] => []
  | x :: r => if x.op = 0x0B then [x] else match uptoRowstat r with | [] => [] | l => x :: l

def ChainBody.hasRowstat (b : ChainBody) : Bool := b.stages.any (fun x => x.op == 0x0B)
def ChainBody.hasNorm (b : ChainBody) : Bool := b.stages.any (fun x => x.op == 0x0C)
def ChainBody.convert? (b : ChainBody) : Option Stage := b.stages.find? (fun x => x.op == 0x10)

/-- Vectors and row-blocks of each held VE (R95, R112). -/
def ChainBody.perVe (b : ChainBody) (first count : Nat) : List (Nat × Nat) :=
  let v0 := first / 16
  let nve := (first + count - 1) / 16 + 1 - v0
  let ra := ceilDiv b.rows 8
  let cb := ceilDiv b.cols 8
  if b.srcTensor then
    (List.range nve).map (fun v => let n := ra / nve + bit01 (decide (v < ra % nve)); (n * cb, n))
  else
    let tc := ceilDiv b.cols (8 * b.nt8)
    (List.range nve).map (fun v =>
      let tiles := (List.range (ceilDiv b.rows (8 * b.mt8) * tc)).filter (fun t => (first + t) / 16 == v0 + v)
      let vecs := tiles.map (fun t => min b.mt8 (ra - t / tc * b.mt8) * min b.nt8 (cb - t % tc * b.nt8))
      let blocks := (tiles.map (fun t => t / tc)).dedup.map (fun r => min b.mt8 (ra - r * b.mt8))
      (vecs.sum, blocks.sum))

/-- Lane cycles of each held VE (T_lane of R112, times f). -/
def ChainBody.laneCycles (b : ChainBody) (first count : Nat) (stoch : Bool) : List Nat :=
  let c := (b.stages.map (stageCost2 b.bf16 stoch)).sum
  let c1 := ((uptoRowstat b.stages).map (stageCost2 b.bf16 stoch)).sum
  (b.perVe first count).map (fun p => ceilDiv (p.1 * (c + c1) + (if b.hasNorm then 8 * p.2 else 0)) 2)

/-! ## Checks (R111) -/

/-- Commons bytes that the stages read. -/
def ChainBody.stageReads (b : ChainBody) : List (Nat × Nat) :=
  b.stages.flatMap (fun x =>
    let w := if x.sub = 1 then 2 else 4
    match x.op with
    | 0x03 => [(x.imm, w * b.cols)] | 0x04 => [(x.imm, w * b.cols)]
    | 0x05 => [(x.imm, w * b.rows)] | 0x06 => [(x.imm, w * b.rows)]
    | 0x07 => (x.imm, 4) :: (if x.aux = 0x3FFFFF then [] else [(64 * x.aux, 4)])
    | 0x0D => [(x.freq, 16 * x.headD8), (x.imm, 4 * b.rows)]
    | _ => [])

/-- The byte regions of a tensor of `rows` rows and `blocks` blocks per row, row by row as stored (R35). -/
def tensorRegions (o : Opd) (rows blocks : Nat) : List (Nat × Nat × Nat) :=
  let bb := fmtBytes o.fmt
  (List.range rows).flatMap (fun r =>
    let i := r * o.rowBlocks
    (o.space, o.elem + i * bb, blocks * bb) ::
      ((if fmtBlock o.fmt then [(o.space, o.scale + i, blocks)] else []) ++
       (if o.esc then [(o.space, o.escBase + 4 * i, 4 * blocks)] else [])))

/-- Whether two lists of regions share a byte. -/
def regionsMeet (a b : List (Nat × Nat × Nat)) : Bool :=
  a.any (fun x => b.any (fun y => x.1 == y.1 && x.2.2 != 0 && y.2.2 != 0 &&
    decide (x.2.1 < y.2.1 + y.2.2) && decide (y.2.1 < x.2.1 + x.2.2)))

/-- A stage list keeps the rules of ROWSTAT, NORM, CLIP and CONVERT (R107, R108, R111). -/
def stagesOk : List Stage → Option Nat → Bool
  | [], _ => true
  | x :: r, stat =>
    stageSubOk x &&
    (if x.op = 0x0B then stat.isNone && stagesOk r (some x.sub)
     else if x.op = 0x0C then
       (match stat with
        | none => false
        | some k => if x.sub = 0 then k == 1 || k == 3 else k == 3) && stagesOk r stat
     else if x.op = 0x08 then
       (match f32 (w32 x.imm) with | .nan => false | .inf n => !n | .fin n m _ => !n || m == 0) && stagesOk r stat
     else if x.op = 0x10 then r.isEmpty
     else stagesOk r stat)

/-- No row (or no 32-column group) of accumulator tiles lies on arrays of two VEs. -/
def ChainBody.rowsInOneVe (b : ChainBody) (first : Nat) : Bool :=
  let tc := ceilDiv b.cols (8 * b.nt8)
  (List.range (ceilDiv b.rows (8 * b.mt8))).all (fun r =>
    (first + r * tc) / 16 == (first + r * tc + tc - 1) / 16)

def ChainBody.groupsInOneVe (b : ChainBody) (first : Nat) : Bool :=
  let nt := 8 * b.nt8
  let tc := ceilDiv b.cols nt
  (List.range (ceilDiv b.rows (8 * b.mt8))).all (fun r =>
    (List.range (ceilDiv b.cols 32)).all (fun g =>
      (first + r * tc + 32 * g / nt) / 16 == (first + r * tc + min (32 * g + 31) (b.cols - 1) / nt) / 16))

/-- Whether the tensor scale word of the sink is written (R47). -/
def ChainBody.scaleWord (b : ChainBody) : Bool :=
  b.sinkTensor && (match b.convert? with | some x => recipeSrc x.tkind == 3 | none => false)

/-- The checks of a VECTOR_CHAIN when it arrives (R111); the sink's FMT and ESC wait for its start. RED_SEG_LOG2 and ACC_CONTINUE, which R97 says must be 0, are refused otherwise (DEDUCED, log 134). -/
def State.chainArrives (s : State) (d : Nat) (h : Hdr) (b : ChainBody) : Bool :=
  let kb := ceilDiv b.cols 32
  let conv := b.convert?
  1 ≤ b.nStages && b.nStages ≤ 8 && h.bodyWords == 7 + b.nStages && h.redSeg == 0 && !h.accCont &&
  b.rows != 0 && b.cols != 0 && stagesOk b.stages none &&
  (b.srcTensor || (1 ≤ b.mt8 && 1 ≤ b.nt8 && decide (b.acc0 + b.mt8 * b.nt8 ≤ 64) &&
    decide (tileCount b.rows b.cols b.mt8 b.nt8 ≤ h.count))) &&
  (b.sinkTensor || (!b.srcTensor && conv.isNone)) &&
  (match conv with
   | none => true
   | some x => x.tkind ≤ 6 && (x.ovr == 0 || recipeAllows x.tkind x.ovr || (x.tkind == 3 && x.ovr == 3 && (s.dom d).rec_.kln3Grad))) &&
  (!(b.sinkTensor && !b.srcTensor && fmtBlock b.sink.fmt) || b.groupsInOneVe h.first) &&
  (!(b.hasRowstat && !b.srcTensor) || b.rowsInOneVe h.first) &&
  b.stages.all (fun x => x.op != 0x0D || (1 ≤ x.headD8 && x.headD8 ≤ 32 && b.cols % (8 * x.headD8) == 0)) &&
  b.stageReads.all (fun p => s.inCommons d p.1 p.2) &&
  (!b.srcTensor || (b.src.ok true && b.src.space ≤ 1 && !b.src.trans && decide (kb ≤ b.src.rowBlocks) &&
    s.extentOk d b.src 0 b.rows 0 kb)) &&
  (!b.sinkTensor || (b.sink.ok true && b.sink.space ≤ 1 && !b.sink.trans && decide (kb ≤ b.sink.rowBlocks) &&
    s.extentOk d b.sink 0 b.rows 0 kb &&
    (!b.scaleWord || (4 ≤ b.sink.scale && s.spanOk d b.sink.space (b.sink.scale - 4) 4)) &&
    (let out := tensorRegions b.sink b.rows kb ++ (if b.scaleWord then [(b.sink.space, b.sink.scale - 4, 4)] else [])
     !regionsMeet out (b.stageReads.map (fun p => (1, p.1, p.2))) &&
     (!b.srcTensor ||
       ((!b.hasRowstat && b.src.space == b.sink.space && b.src.fmt == b.sink.fmt && b.src.elem == b.sink.elem &&
         b.src.scale == b.sink.scale && b.src.rowBlocks == b.sink.rowBlocks && b.src.esc == b.sink.esc &&
         b.src.escBase == b.sink.escBase) ||
        !regionsMeet out (tensorRegions b.src b.rows kb))))))

/-- The sink's FMT and ESC against the rows of the slab's tick (R108, R45). -/
def ChainBody.sinkMatches (b : ChainBody) (rows : List Recipe) (kln3 : Bool) : Bool :=
  if !b.sinkTensor then true
  else match b.convert? with
    | none => b.sink.fmt == 1
    | some x => match convOf rows kln3 x.tkind x.ovr with
      | none => false
      | some c => c.fmt == b.sink.fmt && c.esc.isSome == b.sink.esc

/-! ## Running the stages -/

/-- A matrix of FP32 values, by row and column. -/
abbrev Mat := Array (Array W32)

def Mat.at (m : Mat) (r c : Nat) : W32 := (m.getD r #[]).getD c 0

/-- An n-element FP32 or BF16 vector in the commons, and poison. -/
def State.commonsVec (s : State) (o n : Nat) (half : Bool) : Array W32 × Bool :=
  let w := if half then 2 else 4
  let (bs, bad) := s.rdCommons o (w * n)
  (((List.range n).map (fun i =>
    let x := ofLe ((bs.drop (w * i)).take w)
    if half then w32 (x <<< 16) else w32 x)).toArray, bad)

/-- The butterfly of R103 over eight values. -/
def butterfly8 (op : W32 → W32 → W32) (v : List W32) : W32 :=
  let g (i : Nat) : W32 := v.getD i 0
  op (op (op (g 0) (g 1)) (op (g 2) (g 3))) (op (op (g 4) (g 5)) (op (g 6) (g 7)))

/-- A row's statistic: eight columns at a time, in ascending order (R105, R96). -/
def rowStat (op : W32 → W32 → W32) (unit : W32) (row : List W32) : W32 :=
  (runsOf 8 row.length row).foldl (fun acc v => op acc (butterfly8 op (v ++ List.replicate (8 - v.length) unit))) unit

/-- What a row's ROWSTAT leaves: SUM, SUMSQ and MAX. -/
def rowStats (row : List W32) : W32 × W32 × W32 :=
  (rowStat fadd 0 row, rowStat fadd 0 (row.map (fun x => fmul x x)), rowStat fmax fNegInf row)

/-- One element of an element-wise stage; `cv`, `rv` are the column and row vectors' elements and `ts` the tensor scale product. -/
def stageElem (x : Stage) (cv rv ts : W32) (v : W32) : W32 :=
  let imm := w32 x.imm
  match x.op with
  | 0x01 => fadd v imm
  | 0x02 => fmul v imm
  | 0x03 => fadd v cv
  | 0x04 => fmul v cv
  | 0x05 => fadd v rv
  | 0x06 => fmul v rv
  | 0x07 => fmul v ts
  | 0x08 => fmin (fmax v (fneg imm)) imm
  | 0x09 => (match x.sub with | 0 => relu v | 1 => sigmoid v | 2 => silu v | 3 => ftanh v | _ => geluTanh v)
  | 0x0A => (match x.sub with | 0 => exp2 v | 1 => flog2 v | 2 => rcp v | 3 => rsqrt v | 4 => fexp v | _ => flog v)
  | _ => v

/-- NORM on one row (R107). -/
def normRow (x : Stage) (cols : Nat) (st : W32 × W32 × W32) (row : Array W32) : Array W32 :=
  let n := f32OfNat cols
  let q := fdiv st.2.1 n
  let eps := w32 x.imm
  if x.sub = 0 then
    let g := rsqrt (fadd q eps)
    row.map (fun v => fmul v g)
  else
    let mu := fdiv st.1 n
    let g := rsqrt (fadd (fsub q (fmul mu mu)) eps)
    row.map (fun v => fmul (fsub v mu) g)

/-- ROPE on one row at a position (R203). -/
def ropeRow (x : Stage) (table : Array W32) (pos : Int) (row : Array W32) : Array W32 :=
  if pos < 0 ∨ 2 ^ 24 ≤ pos then row.map (fun _ => f32Nan)
  else
    let half := 4 * x.headD8
    ((List.range (row.size / 2)).flatMap (fun k =>
      let a := row.getD (2 * k) 0
      let b := row.getD (2 * k + 1) 0
      let f := table.getD (k % half) 0
      if f = 0 then [a, b]
      else
        let ang := fmul (f32OfNat pos.toNat) f
        if !f32Finite ang then [f32Nan, f32Nan]
        else
          let (c, s0) := fcosSin ang
          let s := if x.sub = 1 then fneg s0 else s0
          [ffma a c (fneg (fmul b s)), ffma b c (fmul a s)])).toArray

/-- One stage over the whole tensor; the statistics of each row go along. The Bool tells of poison in a vector the stage reads. -/
def State.applyStage (s : State) (b : ChainBody) (x : Stage) (m : Mat) (st : Array (W32 × W32 × W32)) :
    Mat × Array (W32 × W32 × W32) × Bool :=
  let fin (y : Mat) : Mat := if b.bf16 then y.map (fun r => r.map bf16) else y
  match x.op with
  | 0x0B => (m, m.map (fun r => rowStats r.toList), false)
  | 0x0C => (fin ((m.zipIdx).map (fun p => normRow x b.cols (st.getD p.2 (0, 0, 0)) p.1)), st, false)
  | 0x0D =>
    let (table, bad1) := s.commonsVec x.freq (4 * x.headD8) false
    let (poss, bad2) := s.commonsVec x.imm b.rows false
    (fin ((m.zipIdx).map (fun p => ropeRow x table (signedOf (poss.getD p.2 0).toNat 32) p.1)), st, bad1 || bad2)
  | 0x10 => (m, st, false)
  | _ =>
    let byCol := x.op == 0x03 || x.op == 0x04
    let byRow := x.op == 0x05 || x.op == 0x06
    let (vec, bad1) := if byCol then s.commonsVec x.imm b.cols (x.sub == 1)
      else if byRow then s.commonsVec x.imm b.rows (x.sub == 1) else (#[], false)
    let (s1, bad2) := if x.op = 0x07 then s.commonsVec x.imm 1 false else (#[fOne], false)
    let (s2, bad3) := if x.op = 0x07 ∧ x.aux ≠ 0x3FFFFF then s.commonsVec (64 * x.aux) 1 false else (#[fOne], false)
    let ts := fmul (s1.getD 0 fOne) (s2.getD 0 fOne)
    (fin ((m.zipIdx).map (fun p => (p.1.zipIdx).map (fun q =>
        stageElem x (if byCol then vec.getD q.2 0 else 0) (if byRow then vec.getD p.2 0 else 0) ts q.1))),
      st, bad1 || bad2 || bad3)

/-- Every stage in order: the tensor, the rows' statistics, and poison met. -/
def State.applyStages (s : State) (b : ChainBody) :
    List Stage → Mat → Array (W32 × W32 × W32) → Mat × Array (W32 × W32 × W32) × Bool
  | [], m, st => (m, st, false)
  | x :: r, m, st =>
    let (m1, st1, bad) := s.applyStage b x m st
    let (m2, st2, bad2) := s.applyStages b r m1 st1
    (m2, st2, bad || bad2)

/-! ## Encoding a matrix (R40 to R43, R47 to R49, R108) -/

/-- What a conversion counts and finds. -/
structure EncSeen where
  nonfinite : Nat := 0
  overflow : Bool := false
deriving DecidableEq, Repr, Inhabited

/-- The bytes of one encoded block: elements, scale, escape record. -/
def encBytes (f : Nat) (e : EncBlock) : List Byte × List Byte × List Byte :=
  (packCodes f e.codes, [e.scale], leBytes 4 e.esc)

/-- Encodes elements of one block; a value beyond 65,504 counts as an overflow of R57 before it is rounded (DEDUCED, log 131); `xs` lists the active positions and values, `draw` gives stochastic draws by position. -/
def convBlock (c : Conv) (draw : Nat → Nat) (xs : List (Nat × Num)) : List (Nat × Nat) × EncBlock × EncSeen :=
  let dr : Option (Nat → Nat) := if c.round = 1 then some draw else none
  if fmtBlock c.fmt then
    let e := encodeBlock c.fmt c.esc dr xs
    ([], e, { nonfinite := bit01 e.nonfinite })
  else
    (xs.map (fun p => (p.1, encodePlain c.fmt (dr.map (fun g => g p.1)) p.2)), { codes := [], scale := 0 },
      { overflow := c.fmt == 3 && xs.any (fun p => !p.2.isFinite || dyLe 65504 0 (magOf p.2).1 (magOf p.2).2 && !dyLe (magOf p.2).1 (magOf p.2).2 65504 0) })

/-- Writes one block of a tensor: a block format writes it whole, a plain format only its active elements (R34, R96). -/
def State.wrBlock (s : State) (d : Nat) (o : Opd) (i : Nat) (plain : List (Nat × Nat)) (e : EncBlock) : State :=
  let bb := fmtBytes o.fmt
  if fmtBlock o.fmt then
    let (eb, sb, rb) := encBytes o.fmt e
    let s1 := (s.wrSpace d o.space (o.elem + i * bb) eb).wrSpace d o.space (o.scale + i) sb
    if o.esc then s1.wrSpace d o.space (o.escBase + 4 * i) rb else s1
  else
    let w := bb / 32
    -- active elements of a block are consecutive from its first position
    s.wrSpace d o.space (o.elem + i * bb) (plain.flatMap (fun p => leBytes w p.2))

/-- The rounding generator's key of a domain. -/
def State.roundKeyOf (s : State) (d : Nat) : Nat := roundKey (s.dom d).keys.round

/-- The low 32 bits of the domain's update step number (STEP_NUMBER, R477, R49). -/
def State.stepNumber (s : State) (d : Nat) : Nat := (s.counter d pUpd 2).toNat % 2 ^ 32

/-- Converts a matrix into a sink tensor; `shift` scales every element first (R47 S, R58). -/
def State.convertMat (s : State) (d : Nat) (c : Conv) (o : Opd) (stream : Nat) (shift : Int) (rows cols : Nat) (m : Mat) :
    State × EncSeen :=
  let kb := ceilDiv cols 32
  let key := s.roundKeyOf d
  let step := s.stepNumber d
  (List.range rows).foldl (fun acc r => (List.range kb).foldl (fun acc2 g =>
    let n := min 32 (cols - 32 * g)
    let xs := (List.range n).map (fun j => (j, (f32 (m.at r (32 * g + j))).scale shift))
    let (plain, e, seen) := convBlock c (fun j => stochDraw key stream step (r * 32 * kb + 32 * g + j)) xs
    (acc2.1.wrBlock d o (r * o.rowBlocks + g) plain e,
      { nonfinite := acc2.2.nonfinite + seen.nonfinite, overflow := acc2.2.overflow || seen.overflow })) acc) (s, {})

/-- The sink of a chain whose source met poison or a faulty block (R524). -/
def State.nanSink (s : State) (d : Nat) (o : Opd) (rows cols : Nat) : State :=
  let kb := ceilDiv cols 32
  let nanCode := match o.fmt with | 1 => 0x7FC00000 | 2 => 0x7FC0 | _ => 0x7E00
  (List.range rows).foldl (fun t r => (List.range kb).foldl (fun t2 g =>
    let n := min 32 (cols - 32 * g)
    t2.wrBlock d o (r * o.rowBlocks + g) ((List.range n).map (fun j => (j, nanCode)))
      { codes := List.replicate 32 0, scale := 0xFF }) t) s

/-- The exponent shift of R58: the loss scale of the batch's gradient set over the batch's stamp. The loss gradient seed of R56 is data of the program, which no field of a slab names: no slab multiplies it of its own (DEDUCED, log 135). -/
def State.lossShift (s : State) (d batch : Nat) : Int :=
  let x := s.dom d
  match x.batch? batch with
  | some b => (match (if b.nextSet then x.upd.nextLs else x.upd.setLs) with
    | some set => (set : Int) - b.lsExp
    | none => 0)
  | none => 0

/-- The entries of a chain's accumulators as a matrix (R94). -/
def State.accMat (s : State) (first : Nat) (b : ChainBody) : Mat :=
  ((List.range b.rows).map (fun r => ((List.range b.cols).map (fun c =>
    let v := s.accGet (outKey first b.acc0 b.mt8 b.nt8 b.cols r c)
    if b.bf16 then bf16 v else v)).toArray)).toArray

/-- A tensor source as a matrix of FP32 values. -/
def State.tensorMat (s : State) (d : Nat) (o : Opd) (rows cols : Nat) : Mat × Seen :=
  let kb := ceilDiv cols 32
  let blocks := (List.range rows).map (fun r =>
    (List.range kb).map (fun g => s.rdBlock d o (r * o.rowBlocks + g) (min 32 (cols - 32 * g))))
  ((blocks.map (fun r => ((r.flatMap Prod.fst).take cols |>.map toF32).toArray)).toArray,
    Seen.all (blocks.flatMap (fun r => r.map Prod.snd)))

/-- A VECTOR_CHAIN from its start (R97 to R110, R524). -/
def State.runChain (s : State) (d : Nat) (ws : List W64) (rows : List Recipe) (sram : Bool) : RunResult :=
  let h := hdrOf ws
  let b := chainBody ws
  let kln3 := (s.dom d).rec_.kln3Grad
  if !b.sinkMatches rows kln3 then { st := s, status := .descInvalid }
  else
    let conv := (b.convert?).bind (fun x => (convOf rows kln3 x.tkind x.ovr).map (fun c => (x, c)))
    let stoch := match conv with | some (_, c) => c.round == 1 | none => false
    let s := s.bump d pVec 2 (b.laneCycles h.first h.count stoch).sum
    let (m0, seen) := if b.srcTensor then s.tensorMat d b.src b.rows b.cols else (s.accMat h.first b, {})
    let (m, stats, badVec) := s.applyStages b b.stages m0 #[]
    let slot := match b.convert? with | some x => x.slot | none => 0
    let hist := (mapGet (s.dom d).vec.hist slot).getD []
    let sExp := if b.scaleWord then histScale hist else 0
    let s1 := if b.scaleWord then s.wrSpace d b.sink.space (b.sink.scale - 4) (leBytes 4 (f32Pow2 sExp).toNat) else s
    let status := ({ seen with own := seen.own || sram || badVec } : Seen).status
    if status ≠ .done then
      let s2 := if b.sinkTensor then s1.nanSink d b.sink b.rows b.cols
        else s1.accPutAll ((List.range b.rows).flatMap (fun r => (List.range b.cols).map (fun c =>
          (outKey h.first b.acc0 b.mt8 b.nt8 b.cols r c, f32Nan))))
      { st := s2, status := status }
    else if !b.sinkTensor then
      { st := s1.accPutAll ((List.range b.rows).flatMap (fun r => (List.range b.cols).map (fun c =>
          (outKey h.first b.acc0 b.mt8 b.nt8 b.cols r c, m.at r c)))), stats := stats.toList }
    else
      match conv with
      | none => { st := (s1.convertMat d { fmt := 1, src := 0, round := 3, esc := none } b.sink 0 0 b.rows b.cols m).1, stats := stats.toList }
      | some (x, c) =>
        let shift : Int := if c.src = 3 then -sExp else if kln3 ∧ x.tkind = 3 then s.lossShift d h.batch else 0
        let (s2, seen2) := s1.convertMat d c b.sink x.imm shift b.rows b.cols m
        let s3 := if seen2.nonfinite = 0 then s2 else s2.bump d pVec 0 seen2.nonfinite
        let s4 := if kln3 && x.tkind == 3 && seen2.overflow then
            s3.updDom d (fun y => { y with upd := { y.upd with ovf := true } }) else s3
        let amax := amaxOf ((m.toList.flatMap Array.toList).map f32)
        { st := s4, stats := stats.toList, effects := if c.src = 3 then [.pushAmax x.slot amax] else [] }

end Sys2Proof.Machine
end

