-- ==== Sys2Proof/Machine/Update.lean ====
section
/-! DEFINITION. UPDATE_PASS: its checks, the program that every lane runs, residue-aware write-back, the norm word, the update step, VERIFY, COPY and ROOT (R52 to R60, R164, R168 to R191). -/

namespace Sys2Proof.Machine

/-! ## The body (R171, R172, R174) -/

/-- A stream entry (R172). -/
structure UStream where
  skind : Nat
  role : Nat
  tkind : Nat
  ovr : Nat
  zsSlot : Nat
  zsEn : Bool
  stream : Nat
  op : Opd
  slot : Nat
  gen : W16
  proj : Nat
  fac : Nat
deriving DecidableEq, Repr, Inhabited

/-- Stream entry i of an update pass. -/
def uStream (ws : List W64) (i : Nat) : UStream :=
  let w := 6 + 4 * i
  { skind := wfld ws (w + 3) 0 2, role := wfld ws (w + 3) 2 2, tkind := wfld ws (w + 3) 4 3, ovr := wfld ws (w + 3) 7 4,
    zsSlot := wfld ws (w + 3) 11 10, zsEn := wfld ws (w + 3) 21 1 == 1, stream := wfld ws (w + 3) 32 32,
    op := opdAt ws w, slot := wfld ws w 0 14, gen := BitVec.ofNat 16 (wfld ws w 16 16), proj := wfld ws w 32 4,
    fac := wfld ws w 36 1 }

/-- An op word (R174). -/
structure UOp where
  op : Nat
  d : Nat
  a : Nat
  b : Nat
  c : Nat
  sub : Nat
  rsv : Nat
deriving DecidableEq, Repr, Inhabited

def uOpOf (x : Nat) : UOp :=
  { op := bitsOf x 0 6, d := bitsOf x 6 4, a := bitsOf x 10 5, b := bitsOf x 15 5, c := bitsOf x 20 5,
    sub := bitsOf x 25 4, rsv := bitsOf x 29 3 }

/-- The body of subkinds 0 to 3 and 5 (R171). -/
structure UpdBody where
  nBlk : Nat
  nStreams : Nat
  nOps : Nat
  bpr : Nat
  stepOpen : Bool
  stepClose : Bool
  commit : Bool
  normInit : Bool
  normAddr : Nat
  streams : List UStream
  consts : List W32
  ops : List UOp
deriving DecidableEq, Repr, Inhabited

/-- The 32-bit half k of the words from word i. -/
def halfWord (ws : List W64) (i k : Nat) : Nat := wfld ws (i + k / 2) (32 * (k % 2)) 32

def updBody (ws : List W64) : UpdBody :=
  let ns := wfld ws 4 32 4
  let no := wfld ws 4 36 6
  let c := 6 + 4 * ns
  { nBlk := wfld ws 4 0 32, nStreams := ns, nOps := no, bpr := wfld ws 4 42 16, stepOpen := wfld ws 4 58 1 == 1,
    stepClose := wfld ws 4 59 1 == 1, commit := wfld ws 4 60 1 == 1, normInit := wfld ws 4 61 1 == 1,
    normAddr := wfld ws 5 0 32, streams := (List.range ns).map (uStream ws),
    consts := (List.range 16).map (fun k => w32 (halfWord ws c k)),
    ops := (List.range no).map (fun k => uOpOf (halfWord ws (c + 8) k)) }

/-- The stream that an operation names. -/
def UpdBody.at (b : UpdBody) (i : Nat) : UStream := (b.streams[i]?).getD (uStream [] 0)

/-! ## Checks (R184) -/

/-- Codes and SUB values that R175 lists. -/
def UOp.defined (x : UOp) : Bool :=
  x.rsv == 0 &&
  (match x.op with
   | 0x01 => x.sub ≤ 1
   | 0x02 => x.sub ≤ 6
   | 0x07 => x.sub ≤ 3
   | 0x0D => x.sub ≤ 1
   | 0x03 => x.sub == 0 | 0x04 => x.sub == 0 | 0x05 => x.sub == 0 | 0x06 => x.sub == 0
   | 0x08 => x.sub == 0 | 0x09 => x.sub == 0 | 0x0A => x.sub == 0 | 0x0B => x.sub == 0 | 0x0C => x.sub == 0
   | _ => false)

/-- Lane cycles of an operation (R175), for a stochastic conversion or not. -/
def UOp.cost (x : UOp) (stoch : Bool) : Nat :=
  match x.op with
  | 0x04 => 2
  | 0x05 => 2
  | 0x0A => if stoch then 2 else 1
  | 0x0B => 4
  | 0x0D => 2
  | _ => 1

/-- The operation is one that its subkind and streams allow (R180, R183, R184: ops, roles and subkind rows). -/
def UpdBody.opOk (b : UpdBody) (sub : Nat) (x : UOp) : Bool :=
  x.defined &&
  (match x.op with
   | 0x01 => if x.sub = 0 then decide (x.a < b.nStreams) else decide (x.a ≤ 1) && (x.a == 1 || (sub == 2 && b.normAddr != 0))
   | 0x09 => decide (x.b < b.nStreams) && (b.at x.b).skind == 1 && (b.at x.b).role == 1 && sub != 3
   | 0x0A => decide (x.b < b.nStreams) && (b.at x.b).skind == 0 && (b.at x.b).role != 0
   | 0x0B => decide (x.b < b.nStreams) && (b.at x.b).skind == 1 && (b.at x.b).role == 1 && sub != 3
   | 0x0C => sub == 1
   | _ => true)

/-- Regions of a stream in its space (R173). -/
def UpdBody.regions (b : UpdBody) (x : UStream) : List (Nat × Nat × Nat) :=
  match x.skind with
  | 0 => (x.op.space, x.op.elem, b.nBlk * fmtBytes x.op.fmt) ::
      ((if fmtBlock x.op.fmt then [(x.op.space, x.op.scale, b.nBlk)] else []) ++
       (if x.op.esc then [(x.op.space, x.op.escBase, 4 * b.nBlk)] else []))
  | 2 => [(x.op.space, x.op.elem, 4 * ceilDiv b.nBlk (max b.bpr 1))]
  | 3 => [(x.op.space, x.op.elem, 128 * min b.bpr b.nBlk)]
  | _ => []

/-- How often a stream is written by the program; COPY writes its stream 1. -/
def UpdBody.writes (b : UpdBody) (sub i : Nat) : Nat :=
  if sub = 5 then bit01 (decide (i = 1))
  else (b.ops.filter (fun x => (x.op == 0x0A || x.op == 0x0B) && x.b == i)).length

/-- The TKIND and override of a written stream keep R46, a WEIGHT stream's too; row 3 of a domain in KLN3 gradient mode allows FP16, the format that it reads as, and no other (R44, R56; log 125, DEDUCED). -/
def UStream.rowOk (x : UStream) (kln3 : Bool) : Bool :=
  x.role == 0 || (x.tkind ≤ 6 && (x.ovr == 0 ||
    (if x.tkind = 3 ∧ kln3 then x.ovr == 3 else recipeAllows x.tkind x.ovr)))

/-- One stream keeps the rules of R172, R173 and R184 that need no slot and no recipe row. -/
def State.streamOk (s : State) (d : Nat) (b : UpdBody) (sub i : Nat) (x : UStream) : Bool :=
  x.role != 3 && (x.role == 0 || b.writes sub i == 1) && x.rowOk (s.dom d).rec_.kln3Grad &&
  (x.role != 2 || (sub == 3 && x.skind == 0)) &&
  (if x.skind = 1 then true
   else
     x.op.ok true && x.op.space ≤ 1 && !x.op.trans && (!x.op.esc || (x.skind == 0 && x.role == 1)) &&
     (x.skind == 0 || (b.bpr != 0 && x.op.fmt == 1 && x.role == 0)) &&
     (sub == 5 || (b.regions x).all (fun r => s.spanOk d r.1 r.2.1 r.2.2)))

/-- The checks of subkinds 0 to 3 and 5 when the slab arrives (R184, R180, R182). -/
def State.updArrives (s : State) (d : Nat) (h : Hdr) (b : UpdBody) : Bool :=
  let written := (b.streams.zipIdx).filter (fun p => p.1.role != 0 && p.1.skind == 0)
  let weights := b.streams.filter (fun x => x.skind == 1 && x.role == 1)
  1 ≤ b.nStreams && b.nStreams ≤ 8 && b.nBlk != 0 && b.nOps ≤ 32 && (if h.sub = 5 then b.nOps == 0 else b.nOps != 0) &&
  h.bodyWords == 10 + 4 * b.nStreams + ceilDiv b.nOps 2 && h.redSeg == 0 && !h.accCont &&
  b.ops.all (b.opOk h.sub) && (b.streams.zipIdx).all (fun p => s.streamOk d b h.sub p.2 p.1) &&
  weights.length ≤ 1 && (weights.isEmpty || h.sub == 2 || h.sub == 5) && (!b.commit || !weights.isEmpty) &&
  (b.normAddr == 0 || (b.normAddr % 4 == 0 && s.inCommons d b.normAddr 4)) &&
  written.all (fun p => (b.streams.zipIdx).all (fun q => p.2 == q.2 || !regionsMeet (b.regions p.1) (b.regions q.1))) &&
  (h.sub != 5 ||
    (match b.streams with
     | [x, y] => y.skind == 1 && y.role == 1 && x.role == 0 &&
        (if x.skind = 1 then x.slot == y.slot && x.gen == y.gen && x.proj == y.proj && x.fac == y.fac else x.skind == 0)
     | _ => false))

/-! ## The update step (R168, R57 to R60, R179) -/

/-- The streak length that raises GRAD_SILENT; 0 disables it (R60). -/
def VecDom.limit (v : VecDom) : Nat := min v.zsLimit 1000

/-- One silent or non-silent step of a zero-streak counter (R59, R60). -/
def State.zsStep (s : State) (d slot : Nat) (nonzero : Bool) : State :=
  let v := (s.dom d).vec
  if nonzero then
    s.updDom d (fun x => { x with vec := { x.vec with zs := mapDel x.vec.zs slot, zsRaised := numDel x.vec.zsRaised slot } })
  else
    let n := min ((mapGet v.zs slot).getD 0 + 1) (2 ^ 32 - 1)
    let s1 := s.updDom d (fun x => { x with vec := { x.vec with zs := mapSet x.vec.zs slot n } })
    if v.limit ≠ 0 ∧ v.limit ≤ n ∧ !v.zsRaised.contains slot then
      ((s1.updDom d (fun x => { x with vec := { x.vec with zsRaised := numAdd x.vec.zsRaised slot, zsLast := slot } })).bump
        d pVec 3 1).raiseDom pVec 2 d
    else s1

/-- The end of a step's first pass (R57, R59, R168, R179); `nonfinite` tells of the norm word that the first APPLY read. -/
def State.endFirstPass (s : State) (d : Nat) (nonfinite : Bool) : State :=
  let u := (s.dom d).upd
  if !u.open_ || u.firstPassEnded then s
  else
    let s1 := s.updDom d (fun x => { x with upd := { x.upd with firstPassEnded := true, marks := [] } })
    if (s.dom d).rec_.kln3Grad ∧ (u.ovf || nonfinite) then
      (s1.updDom d (fun x => { x with upd := { x.upd with skip := true, lsExp := x.upd.lsExp - 1, clean := 0 } })).bump
        d pUpd 0 1
    else
      let s2 := if (s.dom d).rec_.kln3Grad then
          s1.updDom d (fun x => { x with upd :=
            if x.upd.clean < 1999 then { x.upd with clean := x.upd.clean + 1 }
            else { x.upd with clean := 0, lsExp := min (x.upd.lsExp + 1) 40 } })
        else s1
      u.marks.foldl (fun t m => t.zsStep d m.1 m.2) s2

/-- STEP_OPEN at a slab's start (R168). The loss scale of the step's gradient set stands from here on: the end of the first pass changes that of later steps (R57, R58). -/
def State.openStep (s : State) (d : Nat) : State :=
  (s.updDom d (fun x => { x with upd :=
    { x.upd with open_ := true, firstPassEnded := false, marks := [],
                 setLs := if x.rec_.kln3Grad then some (x.upd.setLs.getD x.upd.lsExp) else x.upd.setLs } })).bump d pUpd 2 1

/-- STEP_CLOSE at a slab's completion: the first pass ends if no APPLY has ended it; OVF and SKIP are cleared (R168). The micro-batches admitted while the step was open are those of the next gradient set (R58; log 124). -/
def State.closeStep (s : State) (d : Nat) : State :=
  if (s.dom d).upd.open_ then
    (s.endFirstPass d false).updDom d (fun x => { x with
      upd := { x.upd with open_ := false, ovf := false, skip := false, firstPassEnded := false, marks := [],
                          setLs := x.upd.nextLs, nextLs := none },
      batches := x.batches.map (fun b => { b with nextSet := false }) })
  else s

/-- The loss scale of the step's gradient set (R58): that of its first micro-batch, or the one in force when none was admitted. -/
def UpdDom.gradientLs (u : UpdDom) : Nat := u.setLs.getD u.lsExp

/-! ## One lane (R173 to R176) -/

/-- What a lane may load: by stream the 64 elements of the vector, exact; the norm word and the step number. -/
structure LaneEnv where
  vals : Array (Array Num)
  normSq : W32
  step : W32
  /-- streams whose loads are divided by the loss scale, and the exponent 16 - LS (R175) -/
  scaled : List Nat
  shift : Int
deriving Inhabited

/-- A lane's registers, its norm accumulator, what it has written by stream, and the streams it has loaded with their values. -/
structure Lane where
  regs : List W32 := List.replicate 16 0
  acc : W32 := 0
  outs : List (Nat × W32) := []
  loads : List (Nat × W32) := []
deriving DecidableEq, Repr, Inhabited

def Lane.src (x : Lane) (consts : List W32) (i : Nat) : W32 := if i < 16 then x.regs.getD i 0 else consts.getD (i - 16) 0

def Lane.put (x : Lane) (i : Nat) (v : W32) : Lane := { x with regs := x.regs.set i v }

/-- SIGN (R175). -/
def fsign (a : W32) : W32 :=
  match f32 a with
  | .nan => f32Nan
  | .inf n => if n then 0xBF800000 else fOne
  | .fin n m _ => if m = 0 then 0 else if n then 0xBF800000 else fOne

/-- One operation in lane l of a vector. -/
def laneOp (env : LaneEnv) (consts : List W32) (l : Nat) (x : Lane) (o : UOp) : Lane :=
  let a := x.src consts o.a
  let b := x.src consts o.b
  let c := x.src consts o.c
  match o.op with
  | 0x01 =>
    if o.sub = 1 then x.put o.d (if o.a = 0 then env.normSq else env.step)
    else
      let v := toF32 ((env.vals.getD o.a #[]).getD l Num.zero)
      let v1 := if env.scaled.contains o.a then toF32 ((f32 v).scale env.shift) else v
      { x.put o.d v1 with loads := (o.a, v) :: x.loads }
  | 0x02 => x.put o.d (match o.sub with
      | 0 => fadd a b | 1 => fsub a b | 2 => fmul a b | 3 => fmin a b | 4 => fmax a b | 5 => fabs a | _ => fneg a)
  | 0x03 => x.put o.d (ffma a b c)
  | 0x04 => x.put o.d (rcp a)
  | 0x05 => x.put o.d (rsqrt a)
  | 0x06 => x.put o.d (fsign a)
  | 0x07 =>
    let holds := match o.sub with
      | 0 => flt a b
      | 1 => flt a b || feq a b
      | 2 => feq a b
      | _ => !feq a b
    if holds then x.put o.d c else x
  | 0x08 => x.put o.d (fmin (fmax a b) c)
  | 0x09 => x.put o.d (toF32 (((env.vals.getD o.b #[]).getD l Num.zero).add (f32 a)))
  | 0x0A => { x with outs := (o.b, a) :: x.outs }
  | 0x0B => { x with outs := (o.b, a) :: x.outs }
  | 0x0C => { x with acc := ffma a a x.acc }
  | 0x0D => x.put o.d (if o.sub = 0 then exp2 a else flog2 a)
  | _ => x

/-! ## Reading streams (R173) -/

/-- Positions of block i of a factor that lie in its row. -/
def weightValid (e : SlotEntry) (proj fac i : Nat) : Nat :=
  let (_, k, _) := factorShape e proj fac
  min 32 (k - 32 * (i % max (ceilDiv k 32) 1))

/-- The weight elements of a block, w of R52; positions beyond the row read as zero, whatever they hold (R34). -/
def State.weightNums (s : State) (x : FactorSrc) (proj fac i : Nat) : List Num × Seen :=
  let (_, k, _) := factorShape x.e proj fac
  let kb := max (ceilDiv k 32) 1
  let (codes, sc, bad) := s.factorBlock x proj fac (i / kb) (i % kb)
  let (rho, bad2) := s.factorRho x proj fac (i / kb) (i % kb)
  (((List.zipWith (fun c r => weightNum c sc r) codes rho).zipIdx).map (fun p =>
    if weightValid x.e proj fac i ≤ p.2 then Num.zero else p.1), { own := bad || bad2 })

/-- The values of block i of a stream, and what the read met. -/
def State.streamBlock (s : State) (d : Nat) (b : UpdBody) (x : UStream) (i : Nat) : List Num × Seen :=
  if b.nBlk ≤ i then (List.replicate 32 Num.zero, {})
  else match x.skind with
    | 0 => s.rdBlock d x.op i 32
    | 1 => s.weightNums { d := d, slot := x.slot, e := s.slot x.slot, buf := (s.slot x.slot).curBuf } x.proj x.fac i
    | 2 =>
      let (bs, seen) := s.rdSpace d x.op (x.op.elem + 4 * (i / max b.bpr 1)) 4
      (List.replicate 32 (f32 (w32 (ofLe bs))), seen)
    | _ =>
      let (bs, seen) := s.rdSpace d x.op (x.op.elem + 128 * (i % max b.bpr 1)) 128
      ((List.range 32).map (fun j => f32 (w32 (ofLe ((bs.drop (4 * j)).take 4)))), seen)

/-- Blocks of the factor that a WEIGHT stream names. -/
def State.factorBlocks (s : State) (x : UStream) : Nat :=
  let (rows, k, _) := factorShape (s.slot x.slot) x.proj x.fac
  if bitOf (s.slot x.slot).projMask.toNat x.proj then rows * ceilDiv k 32 else 0

/-- A WEIGHT stream's slot is held by R122: LIVE, or on its way out and stamped by the slab's batch before. -/
def State.streamHeld (s : State) (d batch : Nat) (x : UStream) : Bool :=
  let e := s.slot x.slot
  let stamped := match (s.dom d).batch? batch with | some b => (mapGet b.stamps x.slot).isSome | none => false
  x.skind != 1 || (s.granted d x.slot && e.gen == x.gen && x.gen != 0 &&
    (e.state == .live || (stamped && (e.state == .parking || e.state == .releasing))))

/-- A written stream's conversion, against the recipe rows of the slab's tick (R172, R177, R45). -/
def UStream.conv (x : UStream) (rows : List Recipe) (kln3 : Bool) : Option Conv := convOf rows kln3 x.tkind x.ovr

/-- FMT and ESC of a written TENSOR stream against its row; a VERIFY stream holds no escape records. -/
def UStream.matches (x : UStream) (rows : List Recipe) (kln3 : Bool) : Bool :=
  x.role == 0 || x.skind != 0 ||
  (match x.conv rows kln3 with
   | none => false
   | some c => c.fmt == x.op.fmt && (if x.role = 1 then c.esc.isSome == x.op.esc else true))

/-! ## Writing (R54, R176, R177, R183) -/

/-- Puts a factor's bytes into the other buffer of its slot, from an offset of the image. -/
def State.putFactorBytes (s : State) (d slot a : Nat) (key : Nat) (bs : List Byte) : State :=
  let e := s.slot slot
  (s.wrBuffer d e (!e.curBuf) (e.bufOff a) bs).updSlot slot (fun x =>
    if x.curBuf then x else { x with buf1Written := numAdd x.buf1Written key })

/-- CVTW: writes block i of a factor into the other buffer (R54, R176). Returns whether the block is non-finite. -/
def State.writeWeights (s : State) (d : Nat) (x : UStream) (i : Nat) (ws : List W32) : State × Bool :=
  let e := s.slot x.slot
  let (rows, k, off) := factorShape e x.proj x.fac
  let (eo, so, ro, _) := factorRegions rows k off e.train
  let n := weightValid e x.proj x.fac i
  let vals := (ws.map f32).take n
  let wb := encodeWeights vals
  let pad (l : List Nat) : List Nat := l.take n ++ List.replicate (32 - n) 0
  let rho := wb.rho.take n ++ List.replicate (32 - n) 0
  let key := 2 * x.proj + x.fac
  (((s.putFactorBytes d x.slot (eo + 16 * i) key (packCodes 8 (pad wb.codes))).putFactorBytes d x.slot (so + i) key
    [wb.scale]).putFactorBytes d x.slot (ro + 32 * i) key rho, wb.nonfinite)

/-- Magnitude codes that a stochastic conversion may give for a magnitude (R48, R183). -/
def stochCodes (f m : Nat) (e : Int) : List Nat :=
  if 9 ≤ f then [encodeMag f m e]
  else
    let cap := fmtMaxCode f
    let lo := stochMag (fmtEb f) (fmtMb f) false m e 65536
    let q := ulpExp (fmtEb f) (fmtMb f) m e
    let exact := decide (m = 0) || decide (q ≤ e) || decide (m % 2 ^ (q - e).toNat = 0)
    if exact ∨ cap ≤ lo then [min lo cap] else [lo, lo + 1]

/-- Whether a stored element code matches the recomputed value t, already divided by its scale (R183). -/
def verifyElem (f : Nat) (stoch : Bool) (stored : Nat) (t : Num) (recomputed : Nat) : Bool :=
  if !stoch then stored == recomputed
  else match t with
    | .fin neg m e =>
      if fmtBlock f then (stochCodes f m e).any (fun c => signCode f neg c == stored)
      else (stochCodes f m e).any (fun c =>
        (if c = 0 ∧ m ≠ 0 then 0 else c + fld (bit01 neg) (fmtEb f + fmtMb f) 1) == stored)
    | .nan => stored == recomputed
    | .inf _ => stored == recomputed

/-- Checks and writes back one block of a VERIFY stream: what is written, and the mismatching elements (R183). -/
def State.verifyBlock (s : State) (d : Nat) (o : Opd) (c : Conv) (i : Nat) (plain : List (Nat × Nat)) (e : EncBlock)
    (xs : List (Nat × Num)) : List (Nat × Nat) × EncBlock × Nat :=
  let (codes, sc, _, _) := s.rdCodes d o i
  let stoch := c.round == 1
  if fmtBlock c.fmt then
    let k : Int := (e.scale.toNat : Int) - 127
    let bad := if sc ≠ e.scale then List.range 32
      else (List.range 32).filter (fun j =>
        let t := ((xs.find? (fun p => p.1 == j)).map Prod.snd).getD Num.zero
        !verifyElem c.fmt (stoch && !e.nonfinite) (codes.getD j 0) (t.scale (-k)) (e.codes.getD j 0))
    ([], { e with codes := (List.range 32).map (fun j => if bad.contains j then e.codes.getD j 0 else codes.getD j 0) }, bad.length)
  else
    let bad := plain.filter (fun p =>
      let t := ((xs.find? (fun q => q.1 == p.1)).map Prod.snd).getD Num.zero
      !verifyElem c.fmt stoch (codes.getD p.1 0) t p.2)
    (plain.map (fun p => if bad.contains p then p else (p.1, codes.getD p.1 0)), e, bad.length)

/-- What the vectors of a pass leave: the state, the norm accumulators, counts and marks. -/
structure PassAcc where
  st : State
  /-- norm accumulators by VE and lane -/
  norm : Array (Array W32) := #[]
  nonfinite : Nat := 0
  overflow : Bool := false
  mismatches : Nat := 0
  firstBad : Option Nat := none
  /-- zero-streak slots loaded, and whether a loaded value was not zero -/
  marks : List (Nat × Bool) := []
deriving Inhabited

/-- Writes what one block's 32 lanes sent to stream k. A gradient conversion of a micro-batch whose stamp differs from its set's is multiplied by 2^`shift` first (R58). A conversion under a row of SCALE_SRC 3 names no history slot here (R172 gives a stream none): it divides by no tensor scale, writes no scale word and pushes no largest magnitude (R47; log 126, DEDUCED). -/
def PassAcc.writeBlock (p : PassAcc) (s0 : State) (d : Nat) (b : UpdBody) (rows : List Recipe) (kln3 : Bool) (shift : Int)
    (key step : Nat) (k i : Nat) (vals : List W32) : PassAcc :=
  let x := b.at k
  if x.skind = 1 then
    let (st, bad) := p.st.writeWeights d x i vals
    { p with st := st, nonfinite := p.nonfinite + bit01 bad }
  else
    match x.conv rows kln3 with
    | none => p
    | some c0 =>
      let c := if x.role = 2 then { c0 with esc := none } else c0
      let grad := kln3 && x.tkind == 3
      let xs := (vals.zipIdx).map (fun q => (q.2, if grad then (f32 q.1).scale shift else f32 q.1))
      let (plain, e, seen) := convBlock c (fun j => stochDraw key x.stream step (32 * i + j)) xs
      let p1 := { p with nonfinite := p.nonfinite + seen.nonfinite,
                         overflow := p.overflow || (grad && seen.overflow) }
      if x.role = 2 then
        let (plain2, e2, n) := s0.verifyBlock d x.op c i plain e xs
        { p1 with st := p1.st.wrBlock d x.op i plain2 e2, mismatches := p1.mismatches + n,
                  firstBad := if n = 0 then p1.firstBad else some (match p1.firstBad with | some f => min f i | none => i) }
      else { p1 with st := p1.st.wrBlock d x.op i plain e }

/-- Adds a mark for a slot. -/
def markSlot (m : List (Nat × Bool)) (slot : Nat) (nz : Bool) : List (Nat × Bool) :=
  mapSet m slot (nz || (mapGet m slot).getD false)

/-- Runs vector k of a pass. -/
def PassAcc.vector (p : PassAcc) (s0 : State) (d : Nat) (sub : Nat) (b : UpdBody) (rows : List Recipe) (kln3 : Bool)
    (shift : Int) (nve : Nat) (env : LaneEnv) (key step k : Nat) : PassAcc :=
  let vals := (b.streams.map (fun x =>
    ((s0.streamBlock d b x (2 * k)).1 ++ (s0.streamBlock d b x (2 * k + 1)).1).toArray)).toArray
  let env := { env with vals := vals }
  let nLanes := if 2 * k + 1 < b.nBlk then 64 else 32
  let ve := p.norm.getD (k % nve) #[]
  let lanes := (List.range nLanes).map (fun l =>
    b.ops.foldl (laneOp env b.consts l) { acc := ve.getD l 0 })
  let ve1 := ((List.range 64).map (fun l => match lanes[l]? with | some x => x.acc | none => ve.getD l 0)).toArray
  let p1 := { p with norm := p.norm.setIfInBounds (k % nve) ve1 }
  let p2 := if sub ≠ 1 then p1
    else { p1 with marks := (lanes.flatMap (fun x => x.loads)).foldl (fun m q =>
      let st := b.at q.1
      if st.zsEn then markSlot m st.zsSlot (!(f32 q.2).isZero) else m) p1.marks }
  let written := (b.ops.filter (fun o => o.op == 0x0A || o.op == 0x0B)).map (fun o => o.b)
  written.foldl (fun q st =>
    let out (l : Nat) : W32 := (((lanes.getD l {}).outs.find? (fun z => z.1 == st)).map Prod.snd).getD 0
    let q1 := q.writeBlock s0 d b rows kln3 shift key step st (2 * k) ((List.range 32).map out)
    if nLanes = 64 then q1.writeBlock s0 d b rows kln3 shift key step st (2 * k + 1) ((List.range 32).map (fun l => out (32 + l)))
    else q1) p2

/-- The 64 lanes of a VE summed by the six butterfly stages of R103. -/
def butterfly64 (v : Array W32) : W32 := segTree 6 ((List.range 64).map (fun l => v.getD l 0))

/-- Number of VEs held by an array range (R90). -/
def Hdr.nve (h : Hdr) : Nat := (h.first + h.count - 1) / 16 + 1 - h.first / 16

/-- A pass reads stream i: a READ or VERIFY stream, or one that the program loads. A stream that it only writes it does not read (R33, R39, R177). -/
def UpdBody.readsBlocks (b : UpdBody) (i : Nat) (x : UStream) : Bool :=
  x.role != 1 || b.ops.any (fun o => (o.op == 0x01 && o.sub == 0 && o.a == i) || (o.op == 0x09 && o.b == i))

/-- What every block of every stream that the pass reads meets. -/
def State.passSeen (s : State) (d : Nat) (b : UpdBody) : Seen :=
  Seen.all ((b.streams.zipIdx).flatMap (fun p =>
    if b.readsBlocks p.2 p.1 then (List.range b.nBlk).map (fun i => (s.streamBlock d b p.1 i).2) else []))

/-- COPY (R182): elements, scales and residues byte for byte into the other buffer; `none` when the source is outside the domain. -/
def State.copyFactor (s : State) (d : Nat) (src dst : UStream) : Option (State × Seen) :=
  let e := s.slot dst.slot
  let (rows, k, off) := factorShape e dst.proj dst.fac
  let nb := rows * ceilDiv k 32
  let (eo, so, ro, size) := factorRegions rows k off e.train
  let key := 2 * dst.proj + dst.fac
  let parts := [(eo, 16 * nb), (so, nb), (ro, 32 * nb)]
  if src.skind = 1 then
    some (parts.foldl (fun (acc : State × Seen) p =>
      let (bs, bad) := s.rdFactor d dst.slot e e.curBuf key p.1 p.2
      (acc.1.putFactorBytes d dst.slot p.1 key bs, acc.2.or { own := bad })) (s, {}))
  else if !s.spanOk d src.op.space src.op.elem size then none
  else
    some (parts.foldl (fun (acc : State × Seen) p =>
      let (bs, seen) := s.rdSpace d src.op (src.op.elem + (p.1 - off)) p.2
      (acc.1.putFactorBytes d dst.slot p.1 key bs, acc.2.or seen)) (s, {}))

/-- Lane cycles of a pass's program (C of R185). -/
def UpdBody.cost (b : UpdBody) (rows : List Recipe) (kln3 : Bool) : Nat :=
  (b.ops.map (fun o => o.cost (o.op == 0x0A &&
    (match (b.at o.b).conv rows kln3 with | some c => c.round == 1 | none => false)))).sum

/-- The FP32 word at a commons offset. -/
def State.commonsF32 (s : State) (o : Nat) : W32 := w32 (ofLe (s.rdCommons o 4).1)

/-- An UPDATE_PASS of subkind 0 to 3 or 5 from its start (R168 to R184). Poison or a broken block withholds every write. -/
def State.runPass (s : State) (d : Nat) (ws : List W64) (rows : List Recipe) (sram : Bool) : RunResult :=
  let h := hdrOf ws
  let b := updBody ws
  let u := (s.dom d).upd
  let kln3 := (s.dom d).rec_.kln3Grad
  let close : List EndEffect := if b.stepClose then [.stepClose] else []
  let stepOk := !(b.stepOpen && u.open_) && (u.open_ || b.stepOpen || !(h.sub == 1 || h.sub == 2))
  let slotsOk := b.streams.all (fun x => x.skind != 1 || !s.streamHeld d h.batch x ||
    (s.factorBlocks x == b.nBlk && (x.role != 1 || (s.slot x.slot).train)))
  let formatsOk := b.streams.all (fun x => x.matches rows kln3)
  let copyOk := h.sub != 5 || (s.copyFactor d (b.at 0) (b.at 1)).isSome
  if !stepOk || !slotsOk || !formatsOk || !copyOk then { st := s, status := .descInvalid }
  else
    let s1 := if b.stepOpen then s.openStep d else s
    let norm := if b.normAddr = 0 then 0 else s.commonsF32 b.normAddr
    let normBad := b.normAddr != 0 && h.sub != 1 && (s.rdCommons b.normAddr 4).2
    let s2 := if h.sub = 2 then s1.endFirstPass d (b.normAddr != 0 && !f32Finite norm) else s1
    if (s2.dom d).upd.skip && (h.sub == 2 || h.sub == 5) then { st := s2, effects := close }
    else if b.streams.any (fun x => !s.streamHeld d h.batch x) then { st := s2, status := .staleSlot, effects := close }
    else
      let ends : List EndEffect := if b.commit then [.commit (((b.streams.find? (fun x => x.skind == 1 && x.role == 1)).map UStream.slot).getD 0)] else []
      if h.sub = 5 then
        match s2.copyFactor d (b.at 0) (b.at 1) with
        | none => { st := s2, status := .descInvalid }
        | some (s3, seen) =>
          let status := ({ seen with own := seen.own || sram } : Seen).status
          if status = .done then { st := s3, effects := ends ++ close } else { st := s2, status := status, effects := close }
      else
        let s3 := s2.bump d pVec 2 (ceilDiv b.nBlk 2 * b.cost rows kln3)
        let seen := s3.passSeen d b
        let status := ({ seen with own := seen.own || sram || (normBad && h.sub == 2) } : Seen).status
        if status ≠ .done then { st := s3, status := status, effects := close }
        else
          let nve := h.nve
          let ls := (s3.dom d).upd.gradientLs
          let env : LaneEnv :=
            { vals := #[], normSq := norm, step := toF32 (.fin false (s3.counter d pUpd 2).toNat 0),
              scaled := if kln3 && (h.sub == 1 || h.sub == 2) then
                  ((b.streams.zipIdx).filter (fun p => p.1.role == 0 && p.1.tkind == 3)).map Prod.snd else [],
              shift := 16 - (ls : Int) }
          let p0 : PassAcc := { st := s3, norm := Array.replicate nve (Array.replicate 64 0) }
          let p := (List.range (ceilDiv b.nBlk 2)).foldl (fun q k =>
            q.vector s3 d h.sub b rows kln3 (s3.lossShift d h.batch) nve env (s3.roundKeyOf d) (s3.stepNumber d) k) p0
          let t1 := if p.nonfinite = 0 then p.st else p.st.bump d pVec 0 p.nonfinite
          let t2 := t1.updDom d (fun x => { x with upd :=
            { x.upd with ovf := x.upd.ovf || p.overflow,
                         marks := p.marks.foldl (fun m q => markSlot m q.1 q.2) x.upd.marks } })
          let normEnd : List EndEffect :=
            if h.sub = 1 ∧ b.normAddr ≠ 0 then [.addNorm b.normAddr b.normInit (p.norm.toList.map butterfly64)] else []
          let verifyEnd : List EndEffect :=
            if h.sub = 3 then [.verify p.mismatches (p.firstBad.getD 0)] else []
          { st := t2, effects := normEnd ++ (verifyEnd ++ (ends ++ close)) }

/-! ## ROOT (R186 to R190) -/

structure RootBody where
  n64 : Nat
  p4 : Bool
  iters : Nat
  kMin : Nat
  eps : W32
  tol : W32
  sOp : Opd
  rootOp : Opd
  work : Nat
  workSpace : Nat
deriving DecidableEq, Repr, Inhabited

def rootBody (ws : List W64) : RootBody :=
  { n64 := wfld ws 4 0 6, p4 := wfld ws 4 6 1 == 1, iters := wfld ws 4 7 7, kMin := wfld ws 4 14 16,
    eps := w32 (wfld ws 5 0 32), tol := w32 (wfld ws 5 32 32), sOp := opdAt ws 6, rootOp := opdAt ws 9,
    work := wfld ws 12 0 48, workSpace := wfld ws 12 48 2 }

def RootBody.n (b : RootBody) : Nat := 64 * b.n64

/-- The regions of a ROOT slab: statistics, root, trailer, working matrices. -/
def RootBody.regions (b : RootBody) : List (List (Nat × Nat × Nat)) :=
  [tensorRegions b.sOp b.n (2 * b.n64), tensorRegions b.rootOp b.n (2 * b.n64),
   [(b.rootOp.space, b.rootOp.elem + 2 * b.n * b.n, 16)], [(b.workSpace, b.work, 6 * b.n * b.n)]]

/-- No region of the list meets a later one. -/
def apart : List (List (Nat × Nat × Nat)) → Bool
  | [] => true
  | x :: r => r.all (fun y => !regionsMeet x y) && apart r

/-- The checks of a ROOT slab (R186). -/
def State.rootArrives (s : State) (d : Nat) (h : Hdr) (b : RootBody) : Bool :=
  h.bodyWords == 9 && 1 ≤ b.n64 && b.n64 ≤ 32 && 1 ≤ b.iters && b.iters ≤ 64 && 10 ≤ b.kMin &&
  5 ≤ h.redSeg && h.redSeg ≤ 16 && h.count % 16 == 0 &&
  (match f32 b.eps with | .nan => false | .inf neg => !neg | .fin neg m _ => !neg || m == 0) &&
  b.sOp.ok true && b.sOp.fmt == 1 && b.sOp.space ≤ 1 && !b.sOp.trans && b.rootOp.ok true && b.rootOp.fmt == 2 &&
  b.rootOp.space ≤ 1 && !b.rootOp.trans && b.workSpace ≤ 1 &&
  decide (2 * b.n64 ≤ b.sOp.rowBlocks) && decide (2 * b.n64 ≤ b.rootOp.rowBlocks) &&
  apart b.regions && b.regions.all (fun l => l.all (fun r => s.spanOk d r.1 r.2.1 r.2.2))

/-- Rows of a square matrix as vectors of 32-element groups. -/
def matRows (n : Nat) (m : Mat) : Array (Array (List Num)) :=
  ((List.range n).map (fun i => ((List.range (n / 32)).map (fun g =>
    (List.range 32).map (fun k => f32 (m.at i (32 * g + k))))).toArray)).toArray

def matCols (n : Nat) (m : Mat) : Array (Array (List Num)) :=
  ((List.range n).map (fun j => ((List.range (n / 32)).map (fun g =>
    (List.range 32).map (fun k => f32 (m.at (32 * g + k) j)))).toArray)).toArray

/-- The product of two BF16 matrices on the arrays, converted to BF16 (R187, R70 to R72). -/
def matMul (redSeg n : Nat) (a b : Mat) : Mat :=
  let rows := matRows n a
  let cols := matCols n b
  ((List.range n).map (fun i => ((List.range n).map (fun j =>
    bf16 (dotEntry redSeg 0 false 0 (rows.getD i #[]) (cols.getD j #[])))).toArray)).toArray

/-- A matrix element by element. -/
def matMap (n : Nat) (m : Mat) (f : Nat → Nat → W32 → W32) : Mat :=
  ((List.range n).map (fun i => ((List.range n).map (fun j => f i j (m.at i j))).toArray)).toArray

/-- The sum of squares of a matrix, formed as R178 forms it: lanes, butterfly, then VEs in ascending number. -/
def sumSquares (nve n : Nat) (m : Mat) : W32 :=
  let acc := (List.range (n * n / 64)).foldl (fun (t : Array (Array W32)) k =>
    let ve := t.getD (k % nve) #[]
    t.setIfInBounds (k % nve) ((List.range 64).map (fun l =>
      let v := m.at ((64 * k + l) / n) ((64 * k + l) % n)
      ffma v v (ve.getD l 0))).toArray) (Array.replicate nve (Array.replicate 64 0))
  acc.toList.foldl (fun t v => fadd t (butterfly64 v)) 0

/-- `t ← p times m = bf16(t · m)`. -/
def repeatMul (redSeg n : Nat) (t : Mat) : Nat → Mat → Mat
  | 0, m => m
  | p + 1, m => repeatMul redSeg n t p (matMul redSeg n t m)

/-- The coupled iteration of R187. -/
def rootIter (redSeg n p : Nat) : Nat → Mat → Mat → Mat × Mat
  | 0, x, m => (x, m)
  | k + 1, x, m =>
    let t := matMap n m (fun i j v => bf16 (fdiv (fsub (if i = j then f32OfNat (p + 1) else 0) v) (f32OfNat p)))
    rootIter redSeg n p k (matMul redSeg n x t) (repeatMul redSeg n t p m)

/-- The outcome of one attempt: accepted root (BF16 values), residual, and cause (R187, R188). -/
def rootAttempt (redSeg nve n : Nat) (p4 : Bool) (iters : Nat) (eps tol : W32) (sm : Mat) : Mat × W32 × Nat :=
  let a := matMap n sm (fun i j v => fadd v (if i = j then eps else 0))
  let z := rcp (rsqrt (sumSquares nve n a))
  let m := matMap n a (fun _ _ v => bf16 (fdiv v z))
  let p := if p4 then 4 else 2
  let (x, m1) := rootIter redSeg n p iters (matMap n sm (fun i j _ => if i = j then fOne else 0)) m
  let r2 := sumSquares nve n (matMap n m1 (fun i j v => fsub v (if i = j then fOne else 0)))
  let zr := if p4 then fmul (rsqrt z) (rsqrt (rsqrt z)) else rsqrt z
  let finite := x.all (fun r => r.all f32Finite)
  let t2 := fmul tol tol
  let cause := if !finite || (f32 r2).isNan then 2 else if flt r2 t2 || feq r2 t2 then 0 else 1
  (matMap n x (fun _ _ v => bf16 (fmul v zr)), r2, cause)

/-- A ROOT slab from its start (R186 to R189). -/
def State.runRoot (s0 : State) (d : Nat) (ws : List W64) (sram : Bool) : RunResult :=
  let h := hdrOf ws
  let b := rootBody ws
  let n := b.n
  let s := s0.noteOperand d h.first h.count ((s0.dom d).orderOf ws) (reuseKey ws 0) true
  let ends : List EndEffect := [.clearArrays h.first h.count]
  let ta := b.rootOp.elem + 2 * n * n
  let (tr, s1) := s.rdSpace d b.rootOp ta 16
  let (sm, s2) := s.tensorMat d b.sOp n n
  let step := s.stepNumber d
  let w0 := ofLe (tr.take 8)
  let w1 := ofLe (tr.drop 8)
  let tried := bitOf w1 32
  let early := tried && decide ((step + 2 ^ 32 - bitsOf w0 32 32) % 2 ^ 32 < b.kMin)
  let seen := if early then s1 else s1.or s2
  let status := ({ seen with own := seen.own || sram } : Seen).status
  if status ≠ .done then { st := s, status := status, effects := ends }
  else if early then
    { st := s.wrSpace d b.rootOp.space ta (leBytes 8 w0 ++ leBytes 8 (setBits w1 33 2 3)),
      effects := .rootDone false :: ends }
  else
    let (root, r2, cause) := rootAttempt h.redSeg h.nve n b.p4 b.iters b.eps b.tol sm
    let (free, sf) := s.takeFree
    let sw := sf.wrSpace d b.workSpace b.work ((List.range (6 * n * n)).map (Config.freeByte free))
    let seq := bitsOf w0 0 32
    let seq1 := if cause = 0 then (seq + 1) % 2 ^ 32 else seq
    let trail := leBytes 8 (seq1 + fld step 32 32) ++ leBytes 8 (r2.toNat + fld 1 32 1 + fld cause 33 2)
    let st := if cause = 0 then
        (sw.convertMat d { fmt := 2, src := 0, round := 0, esc := none } b.rootOp 0 0 n n root).1 else sw
    { st := st.wrSpace d b.rootOp.space ta trail, effects := .rootDone (cause == 0) :: ends }

/-! ## What an update pass does when it completes (R164, R178, R183, R188) -/

/-- Adds the VE sums of a NORM pass into the norm word (R178). -/
def State.addNorm (s : State) (d addr : Nat) (init : Bool) (sums : List W32) : State :=
  let x := s.dom d
  let start := if init then 0 else s.commonsF32 addr
  let v := if x.rec_.kln3Grad && x.upd.ovf then fPosInf else sums.foldl fadd start
  s.wrCommons addr (leBytes 4 v.toNat)

/-- VERIFY_MISMATCHES, UPD_VERIFY_FIRST and the event (R183). -/
def State.verifyEnd (s : State) (d count first : Nat) : State :=
  if count = 0 then s
  else ((s.bump d pUpd 3 count).updDom d (fun x => { x with upd := { x.upd with verifyFirst := first } })).raiseDom pUpd 1 d

/-- ROOT_ACCEPTS, or ROOT_REJECTS with its event (R188). -/
def State.rootEnd (s : State) (d : Nat) (accepted : Bool) : State :=
  if accepted then s.bump d pUpd 4 1 else (s.bump d pUpd 5 1).raiseDom pUpd 2 d

end Sys2Proof.Machine
end

