-- ==== Sys2Proof/Machine/Attention.lean ====
section
/-! DEFINITION. ATTENTION, forward and backward, and the KV pages it reads and appends to (R192 to R218). -/

namespace Sys2Proof.Machine

/-! ## The body and the sequence list (R193, R194) -/

structure AttBody where
  nSeq : Nat
  d32 : Nat
  hKv : Nat
  gq : Nat
  tensor : Bool
  append : Nat
  layer : Nat
  ur8 : Nat
  scale : W32
  list : Nat
  maskMap : Nat
  bitmap : Nat
  tileSum : Nat
  ktMax : Nat
  split : Nat
  lse : Nat
  appRows : Nat
  q : Opd
  o : Opd
  k : Opd
  v : Opd
  dO : Opd
  dQ : Opd
  dK : Opd
  dV : Opd
  dsScale : W32
deriving DecidableEq, Repr, Inhabited

def attBody (ws : List W64) : AttBody :=
  { nSeq := wfld ws 4 0 16, d32 := wfld ws 4 16 4, hKv := wfld ws 4 20 7, gq := wfld ws 4 27 7,
    tensor := wfld ws 4 34 1 == 1, append := wfld ws 4 35 2, layer := wfld ws 4 37 6, ur8 := wfld ws 4 43 4,
    scale := w32 (wfld ws 5 0 32), list := wfld ws 5 32 32, maskMap := wfld ws 6 0 32, bitmap := wfld ws 6 32 32,
    tileSum := wfld ws 7 0 32, ktMax := wfld ws 7 32 16, split := wfld ws 7 48 16, lse := wfld ws 8 0 32,
    appRows := wfld ws 8 32 16, q := opdAt ws 9, o := opdAt ws 12, k := opdAt ws 15, v := opdAt ws 18,
    dO := opdAt ws 21, dQ := opdAt ws 24, dK := opdAt ws 27, dV := opdAt ws 30, dsScale := w32 (wfld ws 33 0 32) }

/-- A sequence list entry (R194). -/
structure AttEntry where
  seq : Nat
  nq : Nat
  new_ : Nat
  qPos0 : Nat
  maskFirst : Nat
  keyLo : Nat
  keyHi : Nat
deriving DecidableEq, Repr, Inhabited

def attEntryOf (bs : List Byte) : AttEntry :=
  let w0 := ofLe (bs.take 8)
  let w1 := ofLe ((bs.drop 8).take 8)
  let w2 := ofLe (bs.drop 16)
  { seq := bitsOf w0 0 16, nq := bitsOf w0 16 16, new_ := bitsOf w0 32 16, qPos0 := bitsOf w1 0 32,
    maskFirst := bitsOf w1 32 32, keyLo := bitsOf w2 0 32, keyHi := bitsOf w2 32 32 }

/-- An operand of the arrays, or a sink of FP32 or BF16, as R193 and R218 allow it. -/
def AttBody.operand (b : AttBody) (o : Opd) (fmts : Nat → Bool) : Bool :=
  o.ok true && o.space ≤ 1 && !o.trans && !o.esc && fmts o.fmt && decide (b.d32 ≤ o.rowBlocks)

/-- The checks of an ATTENTION when it arrives (R192, R193, R204, R218, R205); those on the list wait for its start. -/
def State.attArrives (s : State) (d : Nat) (h : Hdr) (ws : List W64) : Bool :=
  let b := attBody ws
  let g := (s.dom d).kvp
  let arr (f : Nat) : Bool := fmtDefined f && f != 1
  let kv (f : Nat) : Bool := if b.tensor then arr f else f == 4
  h.bodyWords == (if h.sub = 0 then 17 else 30) && !h.accCont &&
  b.nSeq != 0 && 1 ≤ b.d32 && b.d32 ≤ 8 && 1 ≤ b.hKv && b.hKv ≤ 64 && 1 ≤ b.gq && b.gq ≤ 64 &&
  1 ≤ b.ur8 && b.ur8 ≤ 8 && decide (b.ur8 * (8 + 4 * b.d32) ≤ 64) && decide (b.gq ≤ 8 * b.ur8) &&
  (!b.tensor || b.append == 0) && (b.tensor || (b.hKv == g.h && b.d32 == g.d32)) &&
  b.operand b.q arr && b.operand b.o (fun f => f == 1 || f == 2) &&
  (if b.tensor || b.append != 0 then b.operand b.k kv && b.operand b.v kv else wordsZero ws 15 6) &&
  s.inCommons d b.list (24 * b.nSeq) &&
  (h.sub == 0 ||
    (b.tensor && b.lse != 0 && b.operand b.dO arr && b.operand b.dQ (fun f => f == 1) &&
      b.operand b.dK (fun f => f == 1) && b.operand b.dV (fun f => f == 1)))

/-- The list's entries and whether a word of it is poisoned. -/
def State.attList (s : State) (b : AttBody) : List AttEntry × Bool :=
  let (bs, bad) := s.rdCommons b.list (24 * b.nSeq)
  ((List.range b.nSeq).map (fun i => attEntryOf ((bs.drop (24 * i)).take 24)), bad)

/-! ## Units, tiles and items (R196) -/

def AttEntry.tLo (e : AttEntry) : Nat := e.keyLo / 64
/-- Tiles of an entry. -/
def AttEntry.tiles (e : AttEntry) : Nat := ceilDiv e.keyHi 64 - e.tLo
/-- Query positions of a unit. -/
def AttBody.qu (b : AttBody) : Nat := 8 * b.ur8 / b.gq
def AttBody.units (b : AttBody) (e : AttEntry) : Nat := ceilDiv e.nq (max b.qu 1)
def AttBody.parts (b : AttBody) (e : AttEntry) : Nat := if b.split = 0 then 1 else ceilDiv e.tiles b.split

/-- Sum and largest of the item weights (R196, R219). -/
def AttBody.weights (b : AttBody) (sub : Nat) (es : List AttEntry) : Nat × Nat :=
  let one (e : AttEntry) : Nat × Nat :=
    let big := if b.split = 0 then e.tiles else min b.split e.tiles
    if sub = 0 then (b.hKv * b.units e * (e.tiles + b.parts e), big + 1)
    else (b.hKv * (e.tiles * b.units e + b.parts e), big * b.units e + 1)
  es.foldl (fun a e => (a.1 + (one e).1, max a.2 (one e).2)) (0, 0)

/-! ## KV pages (R205 to R208) -/

/-- BPT and TPP of a geometry (R205). -/
def kvRowBytes (h d32 : Nat) : Nat := 2 * h * 33 * d32
def kvPageRows (h d32 : Nat) : Nat := if kvRowBytes h d32 = 0 then 0 else 65536 / kvRowBytes h d32
def KvpDom.bpt (k : KvpDom) : Nat := kvRowBytes k.h k.d32
def KvpDom.tpp (k : KvpDom) : Nat := kvPageRows k.h k.d32

/-- Sequences that are open. -/
def KvpDom.openSeqs (k : KvpDom) : Nat := (k.seqs.filter (fun p => p.2.state != .closed)).length

/-- KV pages that sequences hold. -/
def KvpDom.heldPages (k : KvpDom) : List Nat := k.seqs.flatMap (fun p => p.2.pages.map Prod.snd)

/-- KV pages taken by the state of n open sequences, 1 KiB each (R208). -/
def statePages (n : Nat) : Nat := ceilDiv n 64

/-- Free KV pages of a domain (KVP_FREE, R221). -/
def Dom.kvFree (x : Dom) : Nat := 32 * x.rec_.kvPages - x.kvp.heldPages.length - statePages x.kvp.openSeqs

/-- The lowest KV page number that no sequence holds. -/
def Dom.lowestKv (x : Dom) : Nat :=
  ((List.range (32 * x.rec_.kvPages)).find? (fun p => !x.kvp.heldPages.contains p)).getD 0

/-- Device-virtual address of a KV page: pool page p / 32, 64 KiB index p mod 32 (R207). -/
def Dom.kvAddr (x : Dom) (p : Nat) : Nat := pageBytes * x.rec_.kvPage0 + 65536 * p

def KvpDom.seq (k : KvpDom) (n : Nat) : SeqEntry := (mapGet k.seqs n).getD {}

def Dom.updSeq (x : Dom) (n : Nat) (f : SeqEntry → SeqEntry) : Dom :=
  { x with kvp := { x.kvp with seqs := mapSet x.kvp.seqs n (f (x.kvp.seq n)) } }

/-- The address of a page table entry (R207). -/
def SeqEntry.ptEntry (q : SeqEntry) (layer col : Nat) : Nat := q.ptAddr + 4 * (layer * q.ptCols + col)

/-- The page that a page table entry names, if it passes the check against the pool; and poison of the entry (R207). -/
def State.ptRead (s : State) (d : Nat) (q : SeqEntry) (layer col : Nat) : Option Nat × Bool :=
  let (bs, bad) := s.rdMem d (q.ptEntry layer col) 4
  let w := ofLe bs
  (if bitOf w 24 ∧ bitsOf w 0 24 < 32 * (s.dom d).rec_.kvPages then some (bitsOf w 0 24) else none, bad)

/-- A token row as a slab reads it: its bytes, poison, or a failed page check. -/
inductive KvRow where
  | row (bytes : List Byte) (bad : Bool)
  | fault
deriving DecidableEq, Repr, Inhabited

/-- A row of a layer of a sequence: from an overflow row, from the rows this slab lost, or from its page (R207, R212). -/
def State.kvRow (s : State) (d seq layer pos : Nat) (lost : List (Nat × Nat × List Byte)) : KvRow :=
  let x := s.dom d
  match lost.find? (fun p => p.1 == seq && p.2.1 == pos) with
  | some p => .row p.2.2 false
  | none =>
    match x.kvp.ovf.find? (fun r => r.seq == seq && r.layer == layer && r.pos == pos) with
    | some r => .row r.bytes false
    | none =>
      match s.ptRead d (x.kvp.seq seq) layer (pos / x.kvp.tpp) with
      | (some p, bad) =>
        let (bs, bad2) := s.rdMem d (x.kvAddr p + pos % x.kvp.tpp * x.kvp.bpt) x.kvp.bpt
        .row bs (bad || bad2)
      | (none, _) => .fault

/-- Key or value vector of head hd in a row's bytes, block by block (R206). -/
def kvVector (h d32 : Nat) (bytes : List Byte) (value : Bool) (hd : Nat) : Array (List Num) :=
  let base := if value then h * 33 * d32 else 0
  ((List.range d32).map (fun g =>
    (blockNums 4 ((bytes.drop (base + 32 * d32 * hd + 32 * g)).take 32)
      (bytes.getD (base + 32 * d32 * h + d32 * hd + g) 0) none 32).1)).toArray

/-! ## Appends (R209, R210, R212) -/

/-- The row that a slab appends: keys and values copied byte for byte from K_OP and V_OP (R206). -/
def State.newRow (s : State) (d : Nat) (b : AttBody) (nb n : Nat) : List Byte × Seen :=
  let part (o : Opd) : List Byte × Seen :=
    let cells := (List.range b.hKv).flatMap (fun h => (List.range b.d32).map (fun g =>
      let i := ((nb + n) * b.hKv + h) * o.rowBlocks + g
      (s.rdSpace d o (o.elem + 32 * i) 32, s.rdSpace d o (o.scale + i) 1)))
    (cells.flatMap (fun p => p.1.1) ++ cells.flatMap (fun p => p.2.1),
      Seen.all (cells.map (fun p => p.1.2.or p.2.2)))
  let (kb, s1) := part b.k
  let (vb, s2) := part b.v
  (kb ++ vb, s1.or s2)

/-- Whether an entry is starved: its key range meets [RF of the layer, DROP_END) (R216). -/
def SeqEntry.starves (q : SeqEntry) (b : AttBody) (e : AttEntry) : Bool :=
  b.append != 3 && q.state == .starved && decide (e.keyLo < q.dropEnd) &&
    decide (q.rf.getD b.layer 0 < e.keyHi) && decide (q.rf.getD b.layer 0 < q.dropEnd)

/-- The sequence after a VERIFY append has discarded the tentative rows of another batch (R209). -/
def SeqEntry.freshBatch (q : SeqEntry) (batch : Nat) : SeqEntry :=
  if q.tentBatch = batch then q else { q with tent := q.tent.map (fun _ => 0), tentBatch := batch }

/-- The checks of R209, R210 and R218 on one entry of a PAGED slab, before anything is written. -/
def KvpDom.entryOk (k : KvpDom) (b : AttBody) (batch : Nat) (e : AttEntry) : Bool :=
  let q := k.seq e.seq
  let wr := q.wr.getD b.layer 0
  q.state != .closed && decide (b.layer < q.layers) &&
  (match b.append with
   | 0 => decide (e.keyHi ≤ wr)
   | 1 => e.qPos0 == wr && q.tent.getD b.layer 0 == 0 && decide (e.qPos0 + e.new_ ≤ q.ptCols * k.tpp) &&
       decide (e.keyHi ≤ wr + e.new_)
   | 2 => e.qPos0 == wr && 1 ≤ e.new_ && e.new_ ≤ 16 && decide (e.qPos0 + e.new_ ≤ q.ptCols * k.tpp) &&
       (q.tentBatch != batch || q.tent.all (fun t => t == 0 || t == e.new_)) && decide (e.keyHi ≤ wr + e.new_)
   | _ => q.state == .starved && e.qPos0 == q.rf.getD b.layer 0 && decide (e.qPos0 + e.new_ ≤ q.dropEnd) &&
       decide (e.keyHi ≤ e.qPos0 + e.new_) && decide (e.qPos0 + e.new_ ≤ q.ptCols * k.tpp))

/-- What an accepted entry does to its sequence's row counts (R209). -/
def SeqEntry.claim (q : SeqEntry) (b : AttBody) (batch : Nat) (e : AttEntry) : SeqEntry :=
  match b.append with
  | 1 => { q with wr := q.wr.set b.layer (q.wr.getD b.layer 0 + e.new_) }
  | 2 => let q1 := q.freshBatch batch; { q1 with tent := q1.tent.set b.layer e.new_ }
  | 3 => { q with rf := q.rf.set b.layer (q.rf.getD b.layer 0 + e.new_) }
  | _ => q

/-- Every entry in turn against the counts that the earlier ones leave. -/
def KvpDom.listOk (k : KvpDom) (b : AttBody) (batch : Nat) : List AttEntry → Bool
  | [] => true
  | e :: r =>
    let q := k.seq e.seq
    let q1 := if q.starves b e then q else q.claim b batch e
    k.entryOk b batch e && KvpDom.listOk { k with seqs := mapSet k.seqs e.seq q1 } b batch r

/-- What the appends of a slab leave. -/
structure AppAcc where
  st : State
  seen : Seen := {}
  fault : Bool := false
  /-- rows lost by R212: sequence, position, bytes -/
  lost : List (Nat × Nat × List Byte) := []
deriving Inhabited

/-- Entries 48 to 63 of an overflow array hold the row's bytes in an order the manual leaves open (R212). -/
def State.fillOverflow (s : State) (array : Nat) : State :=
  let (i, s1) := s.takeFree
  s1.accPutAll ((List.range 64).flatMap (fun c => (List.range 16).map (fun e =>
    (4096 * array + 64 * c + 48 + e,
      w32 (ofLe ((List.range 4).map (fun k => Config.freeByte i (4 * (16 * c + e) + k))))))))

/-- Places one appended row: in its column's page, in a page newly allocated, in an overflow row, or nowhere (R208, R209, R212). -/
def AppAcc.put (p : AppAcc) (d : Nat) (b : AttBody) (seq pos : Nat) (bytes : List Byte) : AppAcc :=
  let s := p.st
  let x := s.dom d
  let k := x.kvp
  let q := k.seq seq
  let col := pos / k.tpp
  let at_ (page : Nat) : Nat := x.kvAddr page + pos % k.tpp * k.bpt
  let same (r : OvfRow) : Bool := r.seq == seq && r.layer == b.layer && r.pos == pos
  match mapGet q.pages (65536 * b.layer + col) with
  | some _ =>
    (match s.ptRead d q b.layer col with
     | (some page, bad) => { p with st := s.wrMem d (at_ page) bytes, seen := p.seen.or { own := bad } }
     | (none, bad) => { p with fault := true, seen := p.seen.or { own := bad } })
  | none =>
    if k.ovf.any same then
      { p with st := s.updDom d (fun y => { y with kvp :=
          { y.kvp with ovf := y.kvp.ovf.map (fun r => if same r then { r with bytes := bytes } else r) } }) }
    else if x.kvFree ≠ 0 then
      let page := x.lowestKv
      let s1 := (s.updDom d (fun y => y.updSeq seq (fun z =>
        { z with pages := mapSet z.pages (65536 * b.layer + col) page,
                 colTick := if (mapGet z.colTick col).isSome then z.colTick else mapSet z.colTick col s.tik.tick }))).bump
        d pKvp 0 1
      { p with st := (s1.wrMem d (q.ptEntry b.layer col) (leBytes 4 (page + 2 ^ 24))).wrMem d (at_ page) bytes }
    else
      match (List.range' k.ovfFirst k.ovfCount).find? (fun a => !k.ovf.any (fun r => r.array == a)) with
      | some a =>
        let s1 := (s.updDom d (fun y => { y with kvp := { y.kvp with ovf := y.kvp.ovf ++
          [{ seq := seq, layer := b.layer, pos := pos, array := a, tentative := b.append == 2, bytes := bytes }] } })).bump d pKvp 2 1
        { p with st := s1.fillOverflow a }
      | none =>
        { p with st := (s.bump d pKvp 4 1).updDom d (fun y => y.updSeq seq (fun z => { z with lostRows := z.lostRows + 1 })),
                 lost := p.lost ++ [(seq, pos, bytes)] }

/-- Sums of a field of the entries before each entry. -/
def before (f : AttEntry → Nat) : Nat → List AttEntry → List (Nat × AttEntry)
  | _, [] => []
  | n, e :: r => (n, e) :: before f (n + f e) r

/-- Every new row of a slab's list with its bytes: sequence, position, bytes, entry (R195, R209). -/
def State.newRows (s : State) (d : Nat) (b : AttBody) (es : List AttEntry) : List (Nat × Nat × List Byte) × Seen :=
  let rows := (before AttEntry.new_ 0 es).flatMap (fun p =>
    (List.range p.2.new_).map (fun n =>
      let (bs, seen) := s.newRow d b p.1 n
      ((p.2.seq, p.2.qPos0 + n, bs), seen)))
  (rows.map Prod.fst, Seen.all (rows.map Prod.snd))

/-- The appends of a slab: counts first, then the rows of the entries that are not starved (R209, R216). -/
def State.appendRows (s : State) (d : Nat) (b : AttBody) (batch : Nat) (es : List AttEntry)
    (rows : List (Nat × Nat × List Byte)) : AppAcc :=
  let feeds := es.filter (fun e => !((s.dom d).kvp.seq e.seq).starves b e)
  let s1 := feeds.foldl (fun t e => t.updDom d (fun x => x.updSeq e.seq (fun q => q.claim b batch e))) s
  (rows.filter (fun r => feeds.any (fun e => e.seq == r.1 && decide (e.qPos0 ≤ r.2.1) && decide (r.2.1 < e.qPos0 + e.new_)))).foldl
    (fun p r => p.put d b r.1 r.2.1 r.2.2) { st := s1 }

/-! ## Masks (R199 to R201) -/

/-- Index of a mask map entry (R199). -/
def AttEntry.maskIndex (e : AttEntry) (p t : Nat) : Nat :=
  e.maskFirst + ((e.qPos0 + p) / 64 - e.qPos0 / 64) * e.tiles + (t - e.tLo)

/-- The mask map entries of an entry, whether each is well formed, and poison. -/
def State.masksOk (s : State) (d : Nat) (b : AttBody) (e : AttEntry) : Bool × Bool :=
  if b.maskMap = 0xFFFFFFFF then (true, false)
  else
    let n := ((e.qPos0 + e.nq - 1) / 64 - e.qPos0 / 64 + 1) * e.tiles
    let a := b.maskMap + 4 * e.maskFirst
    let (bs, bad) := s.rdCommons a (4 * n)
    let ws := (List.range n).map (fun i => ofLe ((bs.drop (4 * i)).take 4))
    let tiles := (ws.filter (fun w => w % 4 == 2)).map (fun w => b.bitmap + 512 * bitsOf w 2 30)
    (s.inCommons d a (4 * n) && ws.all (fun w => w % 4 != 3) && tiles.all (fun t => s.inCommons d t 512),
      bad || tiles.any (fun t => (s.rdCommons t 512).2))

/-- The 64 mask bits of query position p against tile t, without the key range; none: the tile is skipped (R199 to R201). -/
def State.maskBits (s : State) (b : AttBody) (e : AttEntry) (p t : Nat) : Option Nat :=
  if b.maskMap = 0xFFFFFFFF then some (2 ^ 64 - 1)
  else
    let w := ofLe (s.rdCommons (b.maskMap + 4 * e.maskIndex p t) 4).1
    match w % 4 with
    | 0 => none
    | 1 => some (2 ^ 64 - 1)
    | _ => some (ofLe (s.rdCommons (b.bitmap + 512 * bitsOf w 2 30 + 8 * ((e.qPos0 + p) % 64)) 8).1)

/-- Whether some query position of the entry reads tile t: where every one meets a KIND 0 tile, no key of it is read (R201). -/
def State.tileRead (s : State) (b : AttBody) (e : AttEntry) (t : Nat) : Bool :=
  (List.range e.nq).any (fun p => (s.maskBits b e p t).isSome)

/-! ## Keys and values of a tile -/

/-- The keys and values of one tile and head: vectors by key, `none` outside the key range. -/
abbrev Tile := Array (Option (Array (List Num) × Array (List Num)))

/-- Tile t of an entry and head, with what its reads met and failed page checks. -/
def State.readTile (s : State) (d : Nat) (b : AttBody) (kb : Nat) (e : AttEntry) (h t : Nat)
    (lost : List (Nat × Nat × List Byte)) : Tile × Seen × Bool :=
  let keys := (List.range 64).map (fun j =>
    let k := 64 * t + j
    if k < e.keyLo ∨ e.keyHi ≤ k then (none, ({} : Seen), false)
    else if b.tensor then
      let row := (kb + k) * b.hKv + h
      let rd (o : Opd) := (List.range b.d32).map (fun g => s.rdBlock d o (row * o.rowBlocks + g) 32)
      let ks := rd b.k
      let vs := rd b.v
      (some ((ks.map Prod.fst).toArray, (vs.map Prod.fst).toArray), Seen.all ((ks ++ vs).map Prod.snd), false)
    else
      match s.kvRow d e.seq b.layer k lost with
      | .row bytes bad => (some (kvVector b.hKv b.d32 bytes false h, kvVector b.hKv b.d32 bytes true h), { own := bad }, false)
      | .fault => (none, {}, true))
  ((keys.map Prod.fst).toArray, Seen.all (keys.map (fun p => p.2.1)), keys.any (fun p => p.2.2))

/-- The tiles of an entry and head that are read; a skipped one is left empty (R201). -/
def State.readTiles (s : State) (d : Nat) (b : AttBody) (kb : Nat) (e : AttEntry) (h : Nat)
    (lost : List (Nat × Nat × List Byte)) : List (Tile × Seen × Bool) :=
  (List.range e.tiles).map (fun i =>
    if s.tileRead b e (e.tLo + i) then s.readTile d b kb e h (e.tLo + i) lost else (#[], {}, false))

/-- The vectors of a row of an operand. -/
def State.opRow (s : State) (d : Nat) (o : Opd) (d32 row : Nat) : Array (List Num) × Seen :=
  let bs := (List.range d32).map (fun g => s.rdBlock d o (row * o.rowBlocks + g) 32)
  ((bs.map Prod.fst).toArray, Seen.all (bs.map Prod.snd))

/-! ## One query row (R197) -/

/-- The running maximum, sum and output of a part. -/
structure RowAcc where
  m : W32 := fNegInf
  l : W32 := 0
  o : List W32
deriving DecidableEq, Repr, Inhabited

/-- Scores of a row against a tile; none where a key is masked. -/
def scores (redSeg : Nat) (scale : W32) (q : Array (List Num)) (tile : Tile) (mask : Nat) : List (Option W32) :=
  (List.range 64).map (fun j =>
    if mask.testBit j then
      match tile.getD j none with
      | some kv => some (fmul (dotEntry redSeg 0 false 0 q kv.1) scale)
      | none => none
    else none)

/-- The E4M3 blocks of 32 keys from the weights, decoded (R197, R41, R42). -/
def e4m3Of (p : List W32) : List Num :=
  (runsOf 32 2 p).flatMap (fun blk =>
    let e := encodeBlock 4 none none ((blk.zipIdx).map (fun x => (x.2, f32 x.1)))
    (blockNums 4 (packCodes 4 e.codes) e.scale none 32).1)

/-- Element n of the values of the keys that are not masked, in groups of 32 keys. -/
def valueColumn (tile : Tile) (live : List Bool) (n : Nat) : Array (List Num) :=
  ((List.range 2).map (fun g => (List.range 32).map (fun i =>
    let j := 32 * g + i
    if live.getD j false then
      match tile.getD j none with
      | some kv => (kv.2.getD (n / 32) []).getD (n % 32) Num.zero
      | none => Num.zero
    else Num.zero))).toArray

/-- One tile of a row. -/
def RowAcc.tile (a : RowAcc) (redSeg : Nat) (scale : W32) (q : Array (List Num)) (tile : Tile) (mask : Nat) : RowAcc :=
  let s := scores redSeg scale q tile mask
  let mt := s.foldl (fun m v => fmax m (v.getD fNegInf)) a.m
  if mt = fNegInf then a
  else
    let c := if a.m = fNegInf then 0 else exp2 (fsub a.m mt)
    let p := s.map (fun v => match v with | some x => exp2 (fsub x mt) | none => 0)
    let pe := e4m3Of p
    let live := s.map Option.isSome
    let pg : Array (List Num) := #[pe.take 32, pe.drop 32]
    { m := mt, l := fadd (fmul a.l c) (segTree 6 (pe.map toF32)),
      o := (a.o.zipIdx).map (fun x => fadd (fmul x.1 c) (dotEntry redSeg 0 false 0 pg (valueColumn tile live x.2))) }

/-- A later part merged into the earlier ones. -/
def RowAcc.merge (a b : RowAcc) : RowAcc :=
  let mt := fmax a.m b.m
  if mt = fNegInf then a
  else
    let x := if a.m = fNegInf then 0 else exp2 (fsub a.m mt)
    let y := if b.m = fNegInf then 0 else exp2 (fsub b.m mt)
    { m := mt, l := fadd (fmul a.l x) (fmul b.l y),
      o := List.zipWith (fun u v => fadd (fmul u x) (fmul v y)) a.o b.o }

/-- The finished row: output elements, log-sum-exp, and whether its mask was all zeros. -/
def RowAcc.finish (a : RowAcc) : List W32 × W32 × Bool :=
  if a.l = 0 then (a.o.map (fun _ => 0), fNegInf, true)
  else (a.o.map (fun v => fmul v (rcp a.l)), fadd a.m (flog2 a.l), false)

/-- Cuts n tiles into parts of S; S = 0: one part. -/
def partsOf (split n : Nat) : List (List Nat) := if split = 0 then [List.range n] else runsOf split n (List.range n)

/-- One query row over all tiles of its entry and head. -/
def State.attRow (s : State) (redSeg : Nat) (b : AttBody) (e : AttEntry) (tiles : Array Tile) (p : Nat) (q : Array (List Num)) :
    List W32 × W32 × Bool :=
  let zero : RowAcc := { o := List.replicate (32 * b.d32) 0 }
  let one (ts : List Nat) : RowAcc := ts.foldl (fun a i =>
    match s.maskBits b e p (e.tLo + i) with
    | none => a
    | some mask => a.tile redSeg b.scale q (tiles.getD i #[]) mask) zero
  match (partsOf b.split e.tiles).map one with
  | [] => zero.finish
  | x :: r => (r.foldl RowAcc.merge x).finish

/-! ## The slab (R192, R195, R216, R218) -/

/-- Writes a row of FP32 results to a sink of FP32 or BF16. -/
def State.putRow (s : State) (d : Nat) (o : Opd) (row : Nat) (v : List W32) : State :=
  let w := if o.fmt = 1 then 4 else 2
  let bytes := v.flatMap (fun x => if o.fmt = 1 then leBytes 4 x.toNat else leBytes 2 (encodePlain 2 none (f32 x)))
  s.wrSpace d o.space (o.elem + row * o.rowBlocks * 32 * w) bytes

/-- Whether the extents that a list's rows reach belong to the domain (R14, R522). -/
def State.attExtents (s : State) (d : Nat) (sub : Nat) (b : AttBody) (es : List AttEntry) : Bool :=
  let rows := (es.map AttEntry.nq).sum * b.hKv * b.gq
  let keys := (es.map AttEntry.keyHi).sum * b.hKv
  let news := (es.map AttEntry.new_).sum * b.hKv
  let ext (o : Opd) (n : Nat) : Bool := s.extentOk d o 0 n 0 b.d32
  ext b.q rows && ext b.o rows && (b.lse == 0 || s.inCommons d b.lse (4 * rows)) &&
  (if b.tensor then ext b.k keys && ext b.v keys else b.append == 0 || (ext b.k news && ext b.v news)) &&
  (sub == 0 || (ext b.dO rows && ext b.dQ rows && ext b.dK keys && ext b.dV keys))

/-- The checks made at slab start (R209, R212, R218, R204). -/
def State.attStartOk (s : State) (d : Nat) (h : Hdr) (b : AttBody) (es : List AttEntry) : Bool :=
  let k := (s.dom d).kvp
  let w := b.weights h.sub es
  es.all (fun e => e.nq != 0 && decide (e.keyLo < e.keyHi) && decide (e.new_ ≤ e.nq) && (s.masksOk d b e).1 &&
    (b.append != 0 || e.new_ == 0) && (h.sub == 0 || b.split == 0 || b.split % e.tiles == 0)) &&
  decide (w.1 ≤ b.tileSum) && decide (w.2 ≤ b.ktMax) && decide ((es.map AttEntry.new_).sum ≤ b.appRows) &&
  s.attExtents d h.sub b es && (b.tensor || k.listOk b h.batch es) &&
  (List.range' k.ovfFirst k.ovfCount).all (fun a => a < h.first || h.first + h.count ≤ a)

/-- The results of a slab that is withheld: NaN in every output row and log-sum-exp (R207). -/
def State.attNan (s : State) (d : Nat) (sub : Nat) (b : AttBody) (es : List AttEntry) : State :=
  let rows := (es.map AttEntry.nq).sum * b.hKv * b.gq
  let keys := (es.map AttEntry.keyHi).sum * b.hKv
  let nan := List.replicate (32 * b.d32) f32Nan
  let fill (t : State) (o : Opd) (n : Nat) : State := (List.range n).foldl (fun u r => u.putRow d o r nan) t
  if sub = 0 then
    let t := fill s b.o rows
    if b.lse = 0 then t else t.wrCommons b.lse ((List.range rows).flatMap (fun _ => leBytes 4 f32Nan.toNat))
  else fill (fill (fill s b.dQ rows) b.dK keys) b.dV keys

/-- Every row of one entry (R195 to R197, R216): row, output, log-sum-exp, empty; and what the reads met. -/
def State.attEntry (s : State) (d : Nat) (redSeg : Nat) (b : AttBody) (qb kb : Nat) (e : AttEntry) (starved : Bool)
    (lost : List (Nat × Nat × List Byte)) : List (Nat × List W32 × W32 × Bool) × Seen × Bool :=
  let heads := (List.range b.hKv).map (fun h =>
    let rd := if starved then [] else s.readTiles d b kb e h lost
    let tiles := (rd.map Prod.fst).toArray
    let rows := (List.range e.nq).flatMap (fun p => (List.range b.gq).map (fun g =>
      let r := ((qb + p) * b.hKv + h) * b.gq + g
      if starved then ((r, List.replicate (32 * b.d32) f32Nan, f32Nan, false), ({} : Seen))
      else
        let (q, seen) := s.opRow d b.q b.d32 r
        ((r, s.attRow redSeg b e tiles p q), seen)))
    (rows.map Prod.fst, (Seen.all (rd.map (fun x => x.2.1))).or (Seen.all (rows.map Prod.snd)), rd.any (fun x => x.2.2)))
  (heads.flatMap Prod.fst, Seen.all (heads.map (fun x => x.2.1)), heads.any (fun x => x.2.2))

/-- Sets LAST_STATUS of the sequences that a slab names (R208, R216). -/
def State.seqStatus (s : State) (d : Nat) (es : List (AttEntry × Bool)) : State :=
  es.foldl (fun t p => t.updDom d (fun x => x.updSeq p.1.seq (fun q => { q with lastStatus := if p.2 then 0x20 else 0 }))) s

/-- A FORWARD slab from its start. -/
def State.runForward (s : State) (d : Nat) (h : Hdr) (b : AttBody) (es : List AttEntry) (own : Bool) : RunResult :=
  let ends : List EndEffect := [.clearArrays h.first h.count]
  let (rows, seen0) := if b.append = 0 then ([], {}) else s.newRows d b es
  if own || seen0.own || seen0.format then
    { st := s.attNan d 0 b es, status := ({ seen0 with own := own || seen0.own } : Seen).status, effects := ends }
  else
    let starved (e : AttEntry) : Bool := !b.tensor && ((s.dom d).kvp.seq e.seq).starves b e
    let marks := es.map (fun e => (e, starved e))
    let app : AppAcc := if b.append = 0 then { st := s } else s.appendRows d b h.batch es rows
    let s1 := if b.tensor then app.st else app.st.seqStatus d marks
    let qbs := before AttEntry.nq 0 es
    let kbs := before AttEntry.keyHi 0 es
    let parts := (List.zip qbs kbs).map (fun p =>
      s1.attEntry d h.redSeg b p.1.1 p.2.1 p.1.2 (starved p.1.2) app.lost)
    let fault := app.fault || parts.any (fun x => x.2.2)
    let seen := app.seen.or (Seen.all (parts.map (fun x => x.2.1)))
    let base := if fault then Status.ptFault else if marks.any Prod.snd then Status.pageStarved else Status.done
    let status := base.worse seen.status
    if status = .done ∨ status = .pageStarved then
      let outs := parts.flatMap Prod.fst
      let s2 := outs.foldl (fun t r => t.putRow d b.o r.1 r.2.1) s1
      let s3 := if b.lse = 0 then s2
        else outs.foldl (fun t r => t.wrCommons (b.lse + 4 * r.1) (leBytes 4 r.2.2.1.toNat)) s2
      let empty := (outs.filter (fun r => r.2.2.2)).length
      let starving := ((marks.filter Prod.snd).map (fun p => p.1.nq * b.hKv * b.gq)).sum
      let s4 := if empty = 0 then s3 else s3.bump d pVec 1 empty
      { st := if starving = 0 then s4 else s4.bump d pKvp 3 starving, status := status, effects := ends }
    else { st := s1.attNan d 0 b es, status := status, effects := ends }

/-! ## Backward (R204) -/

/-- A vector of weights by row of a unit against an operand's rows, in groups of 32 rows. -/
def unitGroups (n : Nat) (f : Nat → Num) : Array (List Num) :=
  ((List.range (ceilDiv n 32)).map (fun g => (List.range 32).map (fun i =>
    if 32 * g + i < n then f (32 * g + i) else Num.zero))).toArray

/-- What a row of a unit brings to the backward pass. -/
structure BackRow where
  row : Nat
  pos : Nat
  q : Array (List Num)
  dO : Array (List Num)
  dsum : W32
  lse : W32
deriving Inhabited

def vecElem (v : Array (List Num)) (n : Nat) : Num := (v.getD (n / 32) []).getD (n % 32) Num.zero

/-- Weights pe and score gradients ds of one row against one tile (R204); masked keys give +0. -/
def State.backScores (s : State) (redSeg : Nat) (b : AttBody) (e : AttEntry) (r : BackRow) (t : Nat) (tile : Tile) :
    Option (List Num × List W32) :=
  match s.maskBits b e r.pos t with
  | none => none
  | some mask =>
    let sc := scores redSeg b.scale r.q tile mask
    let pe := e4m3Of (sc.map (fun v => match v with | some x => exp2 (fsub x r.lse) | none => 0))
    let ds := (List.range 64).map (fun j =>
      match sc.getD j none, tile.getD j none with
      | some _, some kv =>
        let dp := dotEntry redSeg 0 false 0 r.dO kv.2
        bf16 (fmul (fmul (toF32 (pe.getD j Num.zero)) (fsub dp r.dsum)) b.dsScale)
      | _, _ => 0)
    some (pe, ds)

/-- dK, dV by key and dQ by row of one entry and head (R204). -/
structure BackAcc where
  dK : Array (List W32)
  dV : Array (List W32)
  dQ : Array (List W32)
deriving Inhabited

/-- One unit against one tile. -/
def State.backUnit (s : State) (redSeg : Nat) (b : AttBody) (e : AttEntry) (t : Nat) (tile : Tile)
    (rows : Array BackRow) (u0 un : Nat) (a : BackAcc) : BackAcc :=
  let us := (List.range un).map (fun i => (u0 + i, s.backScores redSeg b e (rows.getD (u0 + i) default) t tile))
  if us.all (fun p => p.2.isNone) then a
  else
    let pe (i j : Nat) : Num := match (us.getD i (0, none)).2 with | some x => x.1.getD j Num.zero | none => Num.zero
    let ds (i j : Nat) : Num := match (us.getD i (0, none)).2 with | some x => f32 (x.2.getD j 0) | none => Num.zero
    let width := 32 * b.d32
    let addKey (m : Array (List W32)) (w : Nat → Nat → Num) (v : BackRow → Array (List Num)) : Array (List W32) :=
      (List.range 64).foldl (fun m j =>
        if (tile.getD j none).isNone then m
        else
          let key := 64 * t + j - e.keyLo
          let old := m.getD key []
          m.setIfInBounds key ((List.range width).map (fun n =>
            fadd (old.getD n 0) (dotEntry redSeg 0 false 0 (unitGroups un (fun i => w i j))
              (unitGroups un (fun i => vecElem (v (rows.getD (u0 + i) default)) n)))))) m
    let dV := addKey a.dV pe BackRow.dO
    let dK := addKey a.dK ds BackRow.q
    let dQ := us.foldl (fun m p =>
      match p.2 with
      | none => m
      | some x =>
        let old := m.getD p.1 []
        m.setIfInBounds p.1 ((List.range width).map (fun n =>
          fadd (old.getD n 0) (dotEntry redSeg 0 false 0 #[(x.2.take 32).map f32, (x.2.drop 32).map f32]
            ((List.range 2).map (fun g => (List.range 32).map (fun i =>
              match tile.getD (32 * g + i) none with
              | some kv => vecElem kv.1 n
              | none => Num.zero))).toArray)))) a.dQ
    { dK := dK, dV := dV, dQ := dQ }

/-- One entry and head of a BACKWARD slab. -/
def State.backHead (s : State) (d : Nat) (redSeg : Nat) (b : AttBody) (qb kb : Nat) (e : AttEntry) (h : Nat) :
    State × Seen :=
  let rd := s.readTiles d b kb e h []
  let rowsOf := (List.range e.nq).flatMap (fun p => (List.range b.gq).map (fun g =>
    let r := ((qb + p) * b.hKv + h) * b.gq + g
    let (q, s1) := s.opRow d b.q b.d32 r
    let (dO, s2) := s.opRow d b.dO b.d32 r
    let (o, s3) := s.opRow d b.o b.d32 r
    let (lb, bad) := s.rdCommons (b.lse + 4 * r) 4
    let dsum := segTree (ceilLog2 (32 * b.d32)) ((List.range (32 * b.d32)).map (fun n =>
      fmul (toF32 (vecElem dO n)) (toF32 (vecElem o n))))
    (({ row := r, pos := p, q := q, dO := dO, dsum := dsum, lse := w32 (ofLe lb) } : BackRow),
      (s1.or s2).or (s3.or { own := bad }))))
  let rows := (rowsOf.map Prod.fst).toArray
  let keys := e.keyHi - e.keyLo
  let zero := List.replicate (32 * b.d32) (0 : W32)
  let acc := (List.range e.tiles).foldl (fun a i =>
    (List.range (b.units e)).foldl (fun a u =>
      let u0 := u * b.qu * b.gq
      s.backUnit redSeg b e (e.tLo + i) ((rd.map Prod.fst).toArray.getD i #[]) rows u0 (min (b.qu * b.gq) (rows.size - u0)) a) a)
    { dK := Array.replicate keys zero, dV := Array.replicate keys zero, dQ := Array.replicate rows.size zero }
  let keyRow (k : Nat) : Nat := (kb + e.keyLo + k) * b.hKv + h
  let t1 := (List.range keys).foldl (fun t k =>
    (t.putRow d b.dK (keyRow k) (acc.dK.getD k [])).putRow d b.dV (keyRow k) (acc.dV.getD k [])) s
  let t2 := (rows.toList.zipIdx).foldl (fun t p => t.putRow d b.dQ p.1.row (acc.dQ.getD p.2 [])) t1
  (t2, (Seen.all (rd.map (fun x => x.2.1))).or (Seen.all (rowsOf.map Prod.snd)))

/-- A BACKWARD slab from its start: every read is of the content at the start. -/
def State.runBackward (s : State) (d : Nat) (h : Hdr) (b : AttBody) (es : List AttEntry) (own : Bool) : RunResult :=
  let ends : List EndEffect := [.clearArrays h.first h.count]
  let work := (List.zip (before AttEntry.nq 0 es) (before AttEntry.keyHi 0 es)).flatMap (fun p =>
    (List.range b.hKv).map (fun hd => (p.1.1, p.2.1, p.1.2, hd)))
  let (st, seen) := work.foldl (fun (acc : State × Seen) w =>
    let (t, x) := acc.1.backHead d h.redSeg b w.1 w.2.1 w.2.2.1 w.2.2.2
    (t, acc.2.or x)) (s, {})
  let status := ({ seen with own := seen.own || own } : Seen).status
  if status = .done then { st := st, effects := ends }
  else { st := s.attNan d 1 b es, status := status, effects := ends }

/-- An ATTENTION slab from its start (R192 to R218). -/
def State.runAttention (s0 : State) (d : Nat) (ws : List W64) (sram : Bool) : RunResult :=
  let h := hdrOf ws
  let b := attBody ws
  let (es, bad) := s0.attList b
  let badMask := es.any (fun e => (s0.masksOk d b e).2)
  if bad then { st := s0, status := .dataPoison, effects := [.clearArrays h.first h.count] }
  else if !s0.attStartOk d h b es then { st := s0, status := .descInvalid }
  else
    let s := s0.noteOperand d h.first h.count ((s0.dom d).orderOf ws) (reuseKey ws 0) true
    if h.sub = 0 then s.runForward d h b es (sram || badMask) else s.runBackward d h b es (sram || badMask)

end Sys2Proof.Machine
end

