-- ==== Sys2Proof/Machine/Route.lean ====
section
/-! DEFINITION. Fabric addresses, directions, ports, routes and slot tables, and the COLLECTIVE body with its rings (R360, R361, R371 to R375, R384 to R387, R389). -/

namespace Sys2Proof.Machine

/-! ## Addresses and directions (R360, R361) -/

/-- The four dimensions in routing order: first bit, width and ring size. -/
def dimOf : Nat → Nat × Nat × Nat
  | 0 => (0, 4, 16)
  | 1 => (4, 4, 16)
  | 2 => (8, 3, 8)
  | _ => (11, 4, 10)

/-- Coordinate of an address in a dimension. -/
def coord (a dim : Nat) : Nat := bitsOf a (dimOf dim).1 (dimOf dim).2.1

/-- The address moved by k steps in a ring, with wrap (R361). -/
def moveBy (a dim k : Nat) : Nat :=
  setBits a (dimOf dim).1 (dimOf dim).2.1 ((coord a dim + k) % (dimOf dim).2.2)

/-- An address names a device of the full system (R360). -/
def addressOk (a : Nat) : Bool := decide (a < 2 ^ 15) && decide (coord a 3 < 10)

/-- Directions: 2 dim for + and 2 dim + 1 for -; 8 and 9 are the bypass directions. -/
def portsOf : Nat → List Nat
  | 0 => [0, 1, 2]
  | 1 => [3, 4, 5]
  | 2 => [6, 7, 8]
  | 3 => [9, 10, 11]
  | 4 => [12]
  | 5 => [13]
  | 6 => [14]
  | 7 => [15]
  | 8 => [16]
  | _ => [17]

/-- The direction of a port. -/
def dirOf (port : Nat) : Nat := if port < 12 then port / 3 else port - 8

/-- The neighbour in a direction (R361). -/
def neighbour (a dir : Nat) : Nat :=
  if dir = 8 then moveBy a 0 2
  else if dir = 9 then moveBy a 0 14
  else
    let n := (dimOf (dir / 2)).2.2
    moveBy a (dir / 2) (if dir % 2 = 0 then 1 else n - 1)

/-- The neighbour's port that a port links to (R361). -/
def farPort (port : Nat) : Nat :=
  if port < 3 then port + 3 else if port < 6 then port - 3 else if port < 9 then port + 3 else if port < 12 then port - 3
  else if port % 2 = 0 then port + 1 else port - 1

/-- Ports 12 to 15 lead to other racks (R361). -/
def interRack (port : Nat) : Bool := decide (12 ≤ port) && decide (port ≤ 15)

/-- The direction of the next hop in dimension order, the shorter way, + on a tie; `skipIx` while a detour is active (R372). -/
def nextDir (self dst : Nat) (skipIx : Bool) : Option Nat :=
  match ((List.range 4).drop (if skipIx then 1 else 0)).find? (fun k => coord self k != coord dst k) with
  | none => none
  | some k =>
    let n := (dimOf k).2.2
    let fwd := (coord dst k + n - coord self k) % n
    some (if 2 * fwd ≤ n then 2 * k else 2 * k + 1)

/-- Remaining distance in the ring of dimension k. -/
def ringDist (self dst k : Nat) : Nat :=
  let n := (dimOf k).2.2
  let fwd := (coord dst k + n - coord self k) % n
  min fwd (n - fwd)

/-- The links of the fault-free route from a to b: device and direction of each hop (R372). -/
def routeLinks : Nat → Nat → Nat → List (Nat × Nat)
  | 0, _, _ => []
  | f + 1, a, b => match nextDir a b false with
    | none => []
    | some d => (a, d) :: routeLinks f (neighbour a d) b

/-- Every route has at most 8 + 8 + 4 + 5 hops (R390). -/
def route (a b : Nat) : List (Nat × Nat) := routeLinks 25 a b

/-- Latency of one hop in a direction, ns (R387). -/
def hopNs (dir : Nat) : Nat := if 4 ≤ dir ∧ dir ≤ 7 then 150 else 100

/-- The hop crosses the wrap link of its ring (R372). -/
def wraps (self dir : Nat) : Bool :=
  if dir = 8 then decide (14 ≤ coord self 0)
  else if dir = 9 then decide (coord self 0 < 2)
  else
    let c := coord self (dir / 2)
    if dir % 2 = 0 then c + 1 == (dimOf (dir / 2)).2.2 else c == 0

/-! ## Ports and slots -/

/-- UP ports of a direction, ascending; a port whose rekey has stalled counts as DOWN (R373, R398). -/
def State.upPorts (s : State) (dir : Nat) : List Nat :=
  (portsOf dir).filter (fun p => (s.port p).state == .up && !(s.port p).rekeyStalled)

/-- The next hop toward a device: its direction, and whether it is in dimension order (0), a bypass (1), a side hop in IY (2) or one in IX (3); none where every way is blocked (R374; log 61). -/
def State.hop (s : State) (self dst : Nat) (skipIx : Bool) : Option (Nat × Nat) :=
  let up (dir : Nat) : Bool := !(s.upPorts dir).isEmpty
  match nextDir self dst skipIx with
  | none => none
  | some dir =>
    if up dir then some (dir, 0)
    else if dir < 2 then
      if 2 ≤ ringDist self dst 0 then (if up (8 + dir) then some (8 + dir, 1) else none)
      else if up 2 then some (2, 2) else if up 3 then some (3, 2) else none
    else if up 0 then some (0, 3) else if up 1 then some (1, 3) else none

/-- Wheel times of a tag in a class (COL_SLOTS, R371, R401). -/
def State.slotsOf (s : State) (tag : Nat) (inter : Bool) : Nat :=
  if tag = 0xFFFF then 0
  else (s.fab.slotTags.filter (fun p => (p.1 / 64 == bit01 inter) && 1 ≤ p.1 % 64 && p.2 == tag)).length

/-- Port widths of a direction as planning sees them, in half ports (R366, R373). -/
def State.plannedHalves (s : State) (dir : Nat) : Nat := ((portsOf dir).map (fun p => (s.port p).plannedWidth)).sum

/-! ## COLLECTIVE (R384, R385) -/

structure CollBody where
  id : W32
  nDev : Nat
  rank : Nat
  bidir : Bool
  group : Nat
  root : Nat
  dtype : Nat
  sfmt : Nat
  aop : Nat
  src : Nat
  srcSpace : Nat
  dst : Nat
  dstSpace : Nat
  bytes : Nat
  startUs : Nat
  scale : Nat
deriving DecidableEq, Repr, Inhabited

def collBody (ws : List W64) : CollBody :=
  { id := w32 (wfld ws 4 0 32), nDev := wfld ws 4 32 15, rank := wfld ws 4 47 15, bidir := wfld ws 4 62 1 == 1,
    group := wfld ws 5 0 32, root := wfld ws 5 32 15, dtype := wfld ws 5 47 2, sfmt := wfld ws 5 49 4,
    aop := wfld ws 5 53 4, src := wfld ws 6 0 48, srcSpace := wfld ws 6 48 1, dst := wfld ws 7 0 48,
    dstSpace := wfld ws 7 48 1, bytes := wfld ws 8 0 40, startUs := wfld ws 8 40 15, scale := wfld ws 9 0 48 }

/-- Bytes of an element of a DTYPE. -/
def dtypeBytes : Nat → Nat
  | 0 => 4
  | 1 => 2
  | 2 => 4
  | _ => 8

/-- Source formats that a stored type accepts, by DTYPE and the code of R27; integers take no format (R265, R379). -/
def raddFormats (dtype sfmt : Nat) : Bool :=
  match dtype with
  | 0 => sfmt == 1 || sfmt == 2 || sfmt == 3 || sfmt == 4 || sfmt == 5
  | 1 => sfmt == 1 || sfmt == 2
  | _ => true

/-- The group list of a collective: device addresses in ring order (R384). -/
def State.groupList (s : State) (b : CollBody) : List Nat :=
  (List.range b.nDev).map (fun i => ofLe (memGet s.commons (b.group + 4 * i) 4) % 2 ^ 32)

/-- Two members are the same device. -/
def repeats : List Nat → Bool
  | [] => false
  | a :: r => r.contains a || repeats r

/-- Source bytes of one data slot of a RADD (R379). -/
def slotBytes (dtype sfmt : Nat) : Nat := if dtype = 0 ∧ (sfmt = 4 ∨ sfmt = 5) then 32 else 64

/-- Elements that ring k carries (R385). -/
def CollBody.ringElems (b : CollBody) (k : Nat) : Nat :=
  let e := b.bytes / dtypeBytes b.dtype
  if !b.bidir then (if k = 0 then e else 0) else if k = 0 then (e + 1) / 2 else e / 2

/-- Steps of an operation (R386). -/
def CollBody.steps (b : CollBody) (sub : Nat) : Nat := if sub = 0 then 2 * (b.nDev - 1) else b.nDev - 1

/-- The links that one step of ring k uses over all its members: every member sends to the next (R385). -/
def ringRoutes (g : List Nat) (rev : Bool) : List (List (Nat × Nat)) :=
  let l := if rev then g.reverse else g
  (l.zip (l.rotate 1)).map (fun p => route p.1 p.2)

/-- Capacity of a link for a tag, in units of R_slot halves: own links by planned width, others at full width (R371, R387; log 52). -/
def State.linkSlots (s : State) (tag : Nat) (l : Nat × Nat) : Nat :=
  let halves := if l.1 = s.fab.self then s.plannedHalves l.2 else 2 * (portsOf l.2).length
  halves * s.slotsOf tag (4 ≤ l.2 && l.2 ≤ 7)

/-- Classes that a route needs and the tag holds (R387). -/
def State.routeOk (s : State) (tag : Nat) (ls : List (Nat × Nat)) : Bool :=
  ls.all (fun l => s.slotsOf tag (4 ≤ l.2 && l.2 ≤ 7) != 0)

/-- The routes that a COLLECTIVE's steps use, by ring (R386, R387). -/
def State.collRoutes (s : State) (sub : Nat) (b : CollBody) : List (List (List (Nat × Nat))) :=
  if sub ≤ 3 then
    let g := s.groupList b
    if b.nDev ≤ 1 then [[]] else ringRoutes g false :: (if b.bidir && sub ≤ 2 then [ringRoutes g true] else [])
  else [[route s.fab.self (b.group % 2 ^ 15)]]

/-- The checks of a COLLECTIVE when it arrives (R389); the group list is read again at its start. -/
def State.collArrives (s : State) (d : Nat) (h : Hdr) (b : CollBody) : Bool :=
  let n := b.bytes
  let ok (space a k : Nat) : Bool := s.spanOk d space a k
  let g := s.groupList b
  h.bodyWords == (if h.sub = 6 then 6 else 5) && h.redSeg == 0 && !h.accCont && (s.dom d).col.ptag != 0xFFFF &&
  (if h.sub ≤ 3 then
      1 ≤ b.nDev && b.nDev ≤ 20480 && decide (b.rank < b.nDev) && decide (b.root < b.nDev) &&
      s.inCommons d b.group (4 * b.nDev) && !repeats g && g.getD b.rank 0 == s.fab.self &&
      n % dtypeBytes b.dtype == 0 && ok b.srcSpace b.src n && ok b.dstSpace b.dst n
    else if h.sub = 7 then n == 8 && b.aop ≤ 7 && ok b.srcSpace b.src 24 && b.dst % 8 == 0
    else
      n != 0 && n % 64 == 0 &&
      (if h.sub = 5 then ok b.dstSpace b.dst n && b.src % 64 == 0 else ok b.srcSpace b.src n && b.dst % 64 == 0) &&
      (h.sub != 6 || (raddFormats b.dtype b.sfmt &&
        (slotBytes b.dtype b.sfmt == 64 || ok b.srcSpace b.scale (n / 32))))) &&
  (s.collRoutes h.sub b).all (fun r => r.all (fun ls => s.routeOk (s.dom d).col.ptag ls))

end Sys2Proof.Machine
end

