-- ==== Sys2Proof/Machine/Cmd.lean ====
section
/-! DEFINITION. Views and the command-and-result pairs: which domain a view shows, which accesses a function may make, and how every command register posts its result (R123, R407, R463, R464, R469). -/

namespace Sys2Proof.Machine

/-- The domain that a page's selector names in region 0; 0 for pages without one (R463). -/
def State.selOf (s : State) (page : Nat) : Nat :=
  if page = pTik then s.tik.domSel
  else if page = pCol then s.fab.colDomSel
  else if page = pLks then s.lks.domSel
  else if 0x10 ≤ page ∧ page ≤ 0x17 then s.memg.regSel
  else if page = pVar ∨ page = pKvp ∨ page = pTir ∨ page = pDom then (mapGet s.sels page).getD 0
  else 0

/-- The domain that a view shows on a page (R463, R464). -/
def State.viewDom (s : State) (v : View) (page : Nat) : Nat :=
  match v with
  | .pf r => if r.val = 0 then s.selOf page else r.val
  | .vf n => n.val

/-- The copy of events, enables and command pairs that a view reaches (R469). -/
def State.viewCopy (s : State) (v : View) (page : Nat) : Nat :=
  match v with
  | .pf _ => 64 + s.viewDom v page
  | .vf n => n.val

/-- Whether a function answers accesses to its base address registers (R403, R425, R506). -/
def State.fnUp (s : State) (v : View) : Bool :=
  s.boot.phase == .running && (match v with | .pf _ => !s.pci.d3hot | .vf n => s.vfUp n.val)

/-- Whether the registers of a view are reached: those of a VF only while its domain is ACTIVE or PREEMPTED (R407, R463); the PF's regions stay open (DEDUCED, log 85). -/
def State.viewOpen (s : State) (v : View) : Bool :=
  s.fnUp v && (match v with
    | .pf _ => true
    | .vf n => (s.dom n.val).alive)

/-- The view is the PF's. -/
def isPf : View → Bool
  | .pf _ => true
  | .vf _ => false

/-- The view is region 0. -/
def isRegion0 : View → Bool
  | .pf r => r.val == 0
  | .vf _ => false

/-- Posts a result word, with VALID, in a pair and raises CMD_DONE (R123); the pair of LKS has no such event, and REQ_DONE tells of LKS_DONE (R459). -/
def State.postResult (s : State) (copy page r : Nat) : State :=
  let s1 := s.putPair copy page { s.pair copy page with result := w64 (r % 2 ^ 63 + 2 ^ 63), issued := true }
  if page = pLks then s1 else s1.raiseCopy page (cmdBits page).1 copy

/-- A write of a command register (R123): ignored with CMD_OVERRUN while the previous result is not posted, else it runs and posts. -/
def State.runCmd (s : State) (v : View) (page : Nat) (posted : Bool) (f : State → State × Nat) : State :=
  if !s.viewOpen v then s
  else
    let c := s.viewCopy v page
    if !posted && (s.pair c page).issued then s.raiseCopy page (cmdBits page).2 c
    else
      let r := f s
      r.1.postResult c page r.2

/-- Argument register i of a pair. -/
def State.arg (s : State) (copy page i : Nat) : Nat := ((s.pair copy page).args.getD i 0).toNat

/-- Writes argument register i of a pair's eight. -/
def State.putArg (s : State) (copy page i : Nat) (w : W64) : State :=
  s.putPair copy page { s.pair copy page with
    args := (List.range 8).map (fun j => if j = i then w else (s.pair copy page).args.getD j 0) }

/-- The slabs of a domain that are admitted: planned, running, paused or withheld (R289, R127). -/
def Slab.admitted (b : Slab) : Bool :=
  b.state == .planned || b.state == .running || b.state == .paused || b.state == .withheld

end Sys2Proof.Machine
end

