-- ==== Sys2Proof/Machine/Variant.lean ====
section
/-! DEFINITION. Variants and the variant cache: slots, Cooper's commands and queue, expert tables, versions and what the plan latch does to a slot (R117 to R145, R161 to R167). -/

namespace Sys2Proof.Machine

/-! ## Slots, sizes and the cache (R117, R119, R126 to R130) -/

/-- The domain that a slot is granted to (OWNER of R119). -/
def State.slotOwner (s : State) (k : Nat) : Option Nat :=
  (s.doms.find? (fun p => p.2.phase != .free && s.granted p.1 k)).map Prod.fst

/-- The next generation after a claim: 0 is skipped (R118). -/
def nextGen (g : W16) : W16 := if g + 1 = 0 then 1 else g + 1

/-- The code of a state in R119. -/
def SlotState.code : SlotState → Nat
  | .free => 0
  | .held => 1
  | .loading => 2
  | .live => 3
  | .parking => 4
  | .releasing => 5

/-- The 32-byte entry, one word per QUERY argument register (R119). -/
def slotWords (e : SlotEntry) (owner : Nat) : List W64 :=
  [w64 (fld e.state.code 0 3 + fld (bit01 e.expert) 3 1 + fld (bit01 e.train) 4 1 + fld (bit01 e.dirty) 5 1 +
      fld owner 6 6 + fld e.rank8 12 6 + fld e.gen.toNat 18 16 + fld e.projMask.toNat 34 16 + fld e.fmt 50 4),
   w64 (fld e.home 0 48 + fld e.stagedMask.toNat 48 16),
   w64 (fld e.verCur.toNat 0 32 + fld (bit01 e.curBuf) 32 1 + fld (bit01 e.oldHeld) 33 1 + fld e.refCur 34 9 +
      fld e.refOld 43 9),
   w64 (fld e.stagedVer.toNat 0 32 + fld e.granules 32 16)]

/-- The directory entries of a home image that PROJ_MASK names, and whether a read met poison (R126). -/
def State.readDir (s : State) (d : Nat) (e : SlotEntry) : List (Nat × DirEntry) × Bool :=
  let (bs, bad) := s.rdMem d e.home 256
  ((projsOf e.projMask).map (fun p =>
    let w0 := ofLe ((bs.drop (16 * p)).take 8)
    let w1 := ofLe ((bs.drop (16 * p + 8)).take 8)
    (p, { dIn := bitsOf w0 0 16, dOut := bitsOf w0 16 16, aOff := bitsOf w1 0 32, bOff := bitsOf w1 32 32 })), bad)

/-- No extent meets another or the directory. -/
def extentsApart : List (Nat × Nat) → Bool
  | [] => true
  | x :: r => decide (256 ≤ x.1) && r.all (fun y => decide (x.1 + x.2 ≤ y.1) || decide (y.1 + y.2 ≤ x.1)) && extentsApart r

/-- Whether LOAD accepts the directory that the entry holds (R126, R128). -/
def State.dirOk (s : State) (d : Nat) (e : SlotEntry) : Bool :=
  e.dir.all (fun p => 8 ≤ p.2.dIn && p.2.dIn % 8 == 0 && 8 ≤ p.2.dOut && p.2.dOut % 8 == 0 &&
    p.2.aOff % 64 == 0 && p.2.bOff % 64 == 0) &&
  extentsApart e.extents && e.extents.all (fun x => s.inRange d (e.home + x.1) x.2)

/-- Bytes of a buffer image: the directory and the factors (R129). -/
def SlotEntry.imageBytes (e : SlotEntry) : Nat := 256 + (e.extents.map Prod.snd).sum

/-- A home image in the order in which Cooper carries it: the directory, then the factors. -/
def SlotEntry.homeSpans (e : SlotEntry) : List (Nat × Nat) := (e.home, 256) :: e.extents.map (fun x => (e.home + x.1, x.2))

/-- Granules of one weight buffer (R129). -/
def SlotEntry.granuleCount (e : SlotEntry) : Nat := ceilDiv e.imageBytes 65536

/-- Granules that a slot occupies in the cache. -/
def SlotEntry.granulesHeld (e : SlotEntry) : Nat := if e.train then 2 * e.granules else e.granules

/-- Free granules of a domain's cache; two hold the expert tables (R129, R140, VAR_CACHE_FREE). -/
def State.cacheFree (s : State) (d : Nat) : Nat :=
  let used := ((s.slots.filter (fun p => s.granted d p.1)).map (fun p => p.2.granulesHeld)).sum
  32 * (s.dom d).rec_.cachePages - 2 - used

/-- Draws of places from those that are free: which of them the device takes, the manual leaves open (log 139). -/
def State.pickFree : Nat → List Nat → State → List Nat × State
  | 0, _, s => ([], s)
  | n + 1, free, s =>
    let (c, s1) := s.takeFree
    let k := free.getD (Config.freeNat c % max free.length 1) 0
    let (r, s2) := State.pickFree n (free.erase k) s1
    (k :: r, s2)

/-- The granules of a domain's cache that no buffer and no expert table holds (R129, R140). -/
def State.freeGranules (s : State) (d : Nat) : List Nat :=
  let held := (s.slots.filter (fun p => s.granted d p.1)).flatMap (fun p => p.2.gran0 ++ p.2.gran1)
  (List.range' 2 (32 * (s.dom d).rec_.cachePages - 2)).filter (fun g => !held.contains g)

/-- Bytes of the staged copy of a projection: element and scale regions of both factors (R130). -/
def SlotEntry.stagedBytes (e : SlotEntry) (proj : Nat) : Nat := e.stagedFactor proj 0 + e.stagedFactor proj 1

/-- The 4 KiB units of a domain's staging banks that no staged copy holds (R130). -/
def State.freeStageUnits (s : State) (d : Nat) : List Nat :=
  let held := (s.slots.filter (fun p => s.granted d p.1)).flatMap (fun p => p.2.stagedAt.flatMap Prod.snd)
  (List.range (512 * (s.dom d).rec_.nsb)).filter (fun u => !held.contains u)

/-- 4 KiB units of a staged copy of the projections of a mask (R130). -/
def SlotEntry.stageUnits (e : SlotEntry) (mask : W16) : Nat :=
  ((projsOf mask).map (fun p => ceilDiv (e.stagedBytes p) 4096)).sum

/-- The projections of a slot that are staged, or that an item of the queue is to stage. -/
def State.stageClaimed (s : State) (d slot : Nat) : W16 :=
  (s.dom d).var_.queue.foldl (fun m i => if i.slot = slot then
    (match i.kind with | .stage k => m ||| k | .restage k => m ||| k | .load => m | .writeBack => m) else m)
    (s.slot slot).stagedMask

/-- Free 4 KiB units of a domain's staging banks (VAR_STAGE_FREE). -/
def State.stageFree (s : State) (d : Nat) : Nat :=
  let used := ((s.slots.filter (fun p => s.granted d p.1)).map (fun p =>
    (s.slot p.1).stageUnits (s.stageClaimed d p.1))).sum
  512 * (s.dom d).rec_.nsb - used

/-! ## The Cooper queue (R133) -/

/-- Puts an item at the end of a domain's Cooper queue, with its size rounded up to 4 KiB. -/
def State.queueCooper (s : State) (d slot : Nat) (k : CoopKind) (bytes : Nat) (blocked : Bool) : State :=
  s.updDom d (fun x => { x with var_ := { x.var_ with queue :=
    x.var_.queue ++ [{ kind := k, slot := slot, left := roundUp bytes 4096, blocked := blocked }] } })

/-- Frees what a slot holds in the cache and the staging banks. -/
def SlotEntry.emptied (e : SlotEntry) : SlotEntry :=
  { e with granules := 0, dir := [], gran0 := [], gran1 := [], buf1Written := [], stagedAt := [], stagedMask := 0,
           dirty := false, writtenBack := false, restageLater := 0, commitDue := false }

/-- A change to a slot's staged copies that waits for its latch. -/
def LatchAct.stages (slot : Nat) : LatchAct → Bool
  | .staged k _ _ _ => k == slot
  | .unstage k _ => k == slot
  | _ => false

/-- Items of a slot leave a domain's Cooper queue, and changes to its staged copies that still wait. -/
def State.dropItems (s : State) (d slot : Nat) : State :=
  { s.updDom d (fun x => { x with var_ := { x.var_ with queue := x.var_.queue.filter (fun i => i.slot != slot) } }) with
    atLatch := s.atLatch.filter (fun a => !a.stages slot) }

/-- Marks the 64-byte blocks of [a, a + n) of a domain's range as poison (R261). -/
def State.markPoison (s : State) (d a n : Nat) : State :=
  if n = 0 then s
  else s.updDom d (fun x =>
    { x with poison := (List.range' (a / 64) ((a + n + 63) / 64 - a / 64)).foldl numAdd x.poison })

/-- Copies n bytes of a weight buffer to an address of the range, block by block; poison goes along (R261). -/
def State.copyOut (s : State) (d slot : Nat) (e : SlotEntry) (buf : Bool) (key : Option Nat) (a n dst : Nat) : State :=
  (unitPieces 64 (n / 64 + 2) a n).foldl (fun t p =>
    let (bs, bad) := match key with
      | some k => s.rdFactor d slot e buf k p.1 p.2
      | none => s.rdBuffer d e buf p.1 p.2
    let t1 := t.wrMem d (dst + (p.1 - a)) bs
    if bad then t1.markPoison d (dst + (p.1 - a)) p.2 else t1) s

/-- A write-back: the current buffer goes to the home image, directory and factors (R126, R133, R143). -/
def State.writeBack (s : State) (d slot : Nat) : State :=
  let e := s.slot slot
  let s1 := s.copyOut d slot e e.curBuf none 0 256 e.home
  let s2 := (projsOf e.projMask).foldl (fun t p => [0, 1].foldl (fun t2 fac =>
    let x := factorExtent e p fac
    t2.copyOut d slot e e.curBuf (some (2 * p + fac)) x.1 x.2 (e.home + x.1)) t) s1
  (s2.bump d pVar 2 e.imageBytes).updSlot slot (fun x => { x with dirty := false, writtenBack := true })

/-- A write-back of the slot waits in the Cooper queue. -/
def VarDom.writesBack (v : VarDom) (slot : Nat) : Bool :=
  v.queue.any (fun i => i.slot == slot && (match i.kind with | .writeBack => true | .load => false | .stage _ => false | .restage _ => false))

/-- Carries up to `budget` bytes of the leading items; write-backs that end are applied, and items that need an end of their own stay with nothing left (R133). Result: the queue, bytes carried, and the slots written back. -/
def carryItems : Nat → List CoopItem → List CoopItem × Nat × List Nat
  | _, [] => ([], 0, [])
  | b, i :: r =>
    if b = 0 ∨ i.blocked then (i :: r, 0, [])
    else
      let n := min b i.left
      if n < i.left then ({ i with left := i.left - n } :: r, n, [])
      else
        let (q, m, w) := carryItems (b - n) r
        match i.kind with
        | .writeBack => (q, n + m, i.slot :: w)
        | .load => ({ i with left := 0 } :: q, n + m, w)
        | .stage _ => ({ i with left := 0 } :: q, n + m, w)
        | .restage _ => ({ i with left := 0 } :: q, n + m, w)

/-- The Cooper slab of a tick ends: its bytes are carried (R133, R143). -/
def State.cooperEnds (s : State) (d amount : Nat) : State :=
  let (q, n, w) := carryItems amount (s.dom d).var_.queue
  let s1 := (s.updDom d (fun x => { x with var_ := { x.var_ with queue := q } })).bump d pVar 1 n
  w.foldl (fun t k => t.writeBack d k) s1

/-- The item of a slot whose bytes have all been carried. -/
def State.carried (s : State) (d slot : Nat) (p : CoopKind → Bool) : Option CoopItem :=
  (s.dom d).var_.queue.find? (fun i => i.slot == slot && i.left == 0 && p i.kind)

def CoopKind.isLoad : CoopKind → Bool
  | .load => true
  | .writeBack => false
  | .stage _ => false
  | .restage _ => false

def CoopKind.isStage : CoopKind → Bool
  | .stage _ => true
  | .restage _ => true
  | .load => false
  | .writeBack => false

/-! ## Commands (R123 to R125) -/

/-- VAR_RESULT without VALID (R123). -/
def varWord (status op index : Nat) (gen : W16) (slot : Nat) : Nat :=
  fld status 0 8 + fld op 8 4 + fld index 12 2 + fld gen.toNat 16 16 + fld slot 32 14

/-- A command of Cooper: reserved bits of the word are BAD_ARG (R123). `f` gives the state, the status, INDEX and the generation returned. -/
def State.varCmd (s : State) (v : View) (posted : Bool) (op slot rsv : Nat)
    (f : Nat → Nat → State → State × Nat × Nat × W16) : State :=
  s.runCmd v pVar posted (fun t =>
    let d := t.viewDom v pVar
    if rsv ≠ 0 then (t, varWord 0x05 op 0 (t.slot slot).gen slot)
    else
      let r := f d (t.viewCopy v pVar) t
      (r.1, varWord r.2.1 op r.2.2.1 r.2.2.2 slot))

/-- Answers a status with the slot's generation and no change. -/
def State.varSays (s : State) (slot status : Nat) : State × Nat × Nat × W16 := (s, status, 0, (s.slot slot).gen)

/-- The checks that every command but CLAIM, QUERY and EXPERT_RELEASE makes first: grant and generation (R117, R124). -/
def State.varGuard (s : State) (d slot : Nat) (gen : W16) (f : State × Nat × Nat × W16) : State × Nat × Nat × W16 :=
  if !s.granted d slot then s.varSays slot 0x04
  else if (s.slot slot).gen ≠ gen then s.varSays slot 0x03
  else f

/-- CLAIM: a compare-and-set on slot and generation (R125). -/
def State.claimSlot (s : State) (d c slot : Nat) (gen : W16) : State × Nat × Nat × W16 :=
  let a0 := s.arg c pVar 0
  let a1 := s.arg c pVar 1
  let e := s.slot slot
  if !s.granted d slot then s.varSays slot 0x04
  else if bitsOf a0 56 8 ≠ 0 ∨ bitsOf a1 20 44 ≠ 0 ∨ bitsOf a1 16 4 ≠ 8 ∨ bitsOf a0 48 6 = 0 ∨ 32 < bitsOf a0 48 6 ∨
      bitsOf a1 0 16 = 0 ∨ bitsOf a0 0 48 % 64 ≠ 0 then s.varSays slot 0x05
  else if e.state ≠ .free then (s.bump d pVar 4 1).varSays slot 0x02
  else if e.gen ≠ gen then (s.bump d pVar 4 1).varSays slot 0x03
  else
    let e1 : SlotEntry :=
      { state := .held, gen := nextGen e.gen, home := bitsOf a0 0 48, rank8 := bitsOf a0 48 6, train := bitOf a0 54,
        expert := bitOf a0 55, projMask := BitVec.ofNat 16 (bitsOf a1 0 16), fmt := bitsOf a1 16 4 }
    (s.putSlot slot e1).varSays slot 0x00

def execClaim (v : View) (posted : Bool) (slot : BitVec 14) (gen : W16) (rsv : BitVec 30) (s : State) :
    Host.Outcome State Fault Refusal :=
  .next (s.varCmd v posted 1 slot.toNat rsv.toNat (fun d c t => t.claimSlot d c slot.toNat gen))

/-- LOAD: reads the directory, takes granules for each buffer and queues the load; from every state but HELD it answers BAD_STATE (R120, R124, R128, R129, R133). -/
def State.loadSlot (s : State) (d slot : Nat) : State × Nat × Nat × W16 :=
  let e0 := s.slot slot
  if e0.state ≠ .held then s.varSays slot 0x0A
  else
    let (dir, bad) := s.readDir d e0
    let e := { e0 with dir := dir }
    if bad ∨ !s.inRange d e.home 256 ∨ !s.dirOk d e then s.varSays slot 0x0B
    else
      let g := e.granuleCount
      if s.cacheFree d < (if e.train then 2 * g else g) then s.varSays slot 0x06
      else
        let (gs, s1) := State.pickFree (if e.train then 2 * g else g) (s.freeGranules d) s
        let e1 := { e with state := .loading, granules := g, gran0 := gs.take g, gran1 := gs.drop g, buf1Written := [] }
        ((s1.putSlot slot e1).queueCooper d slot .load e.imageBytes false).varSays slot 0x01

def execLoad (v : View) (posted : Bool) (slot : BitVec 14) (gen : W16) (rsv : BitVec 30) (s : State) :
    Host.Outcome State Fault Refusal :=
  .next (s.varCmd v posted 2 slot.toNat rsv.toNat (fun d _ t => t.varGuard d slot.toNat gen (t.loadSlot d slot.toNat)))

/-- A PARK or RELEASE of the slot waits for its latch. -/
def State.leaving (s : State) (slot : Nat) : Bool :=
  s.atLatch.contains (.slotPark slot) || s.atLatch.contains (.slotRelease slot)

/-- PARK: at the next plan latch; the write-back of a slot that is DIRTY joins the queue at once, and that of one found DIRTY at or after the latch joins it there (R120, R133). -/
def State.parkSlot (s : State) (d slot : Nat) : State × Nat × Nat × W16 :=
  let e := s.slot slot
  if e.state = .loading ∨ s.leaving slot then s.varSays slot 0x08
  else if e.state ≠ .live then s.varSays slot 0x0A
  else
    let s1 := s.defer (.slotPark slot)
    (if e.dirty then s1.queueCooper d slot .writeBack e.imageBytes true else s1).varSays slot 0x01

def execPark (v : View) (posted : Bool) (slot : BitVec 14) (gen : W16) (rsv : BitVec 30) (s : State) :
    Host.Outcome State Fault Refusal :=
  .next (s.varCmd v posted 3 slot.toNat rsv.toNat (fun d _ t => t.varGuard d slot.toNat gen (t.parkSlot d slot.toNat)))

/-- The slot is bound to a position of one of the domain's expert tables (R139). -/
def VarDom.bound (x : VarDom) (slot : Nat) : Bool := x.experts.any (fun p => p.2.xgen != 0 && p.2.xslot == slot)

/-- RELEASE: from HELD the slot is FREE at once, and the positions that it holds as a parent are free from the next plan latch (R120, R121, R124, R141). -/
def State.releaseSlot (s : State) (d slot : Nat) : State × Nat × Nat × W16 :=
  let e := s.slot slot
  if e.state = .loading ∨ s.leaving slot then s.varSays slot 0x08
  else if (s.dom d).var_.bound slot then s.varSays slot 0x0A
  else match e.state with
    | .held =>
      let s1 := ((s.dom d).var_.experts.filter (fun p => p.2.xgen != 0 && p.2.parent == slot)).foldl
        (fun t p => t.defer (.expertFree d p.1)) s
      (s1.putSlot slot { gen := e.gen }).varSays slot 0x00
    | .live => (s.defer (.slotRelease slot)).varSays slot 0x01
    | .free => s.varSays slot 0x0A
    | .loading => s.varSays slot 0x0A
    | .parking => s.varSays slot 0x0A
    | .releasing => s.varSays slot 0x0A

def execRelease (v : View) (posted : Bool) (slot : BitVec 14) (gen : W16) (rsv : BitVec 30) (s : State) :
    Host.Outcome State Fault Refusal :=
  .next (s.varCmd v posted 4 slot.toNat rsv.toNat (fun d _ t => t.varGuard d slot.toNat gen (t.releaseSlot d slot.toNat)))

/-- STAGE (R124, R130). -/
def State.stageSlot (s : State) (d c slot : Nat) : State × Nat × Nat × W16 :=
  let e := s.slot slot
  let a := s.arg c pVar 0
  let mask : W16 := BitVec.ofNat 16 a
  if 65536 ≤ a then s.varSays slot 0x05
  else if e.state ≠ .live then s.varSays slot 0x0A
  else if mask &&& ~~~ e.projMask ≠ 0 then s.varSays slot 0x05
  else if s.stageFree d < e.stageUnits (mask &&& ~~~ s.stageClaimed d slot) then s.varSays slot 0x07
  else (s.queueCooper d slot (.stage mask) (((projsOf mask).map e.stagedBytes).sum) false).varSays slot 0x01

def execStage (v : View) (posted : Bool) (slot : BitVec 14) (gen : W16) (rsv : BitVec 30) (s : State) :
    Host.Outcome State Fault Refusal :=
  .next (s.varCmd v posted 5 slot.toNat rsv.toNat (fun d c t => t.varGuard d slot.toNat gen (t.stageSlot d c slot.toNat)))

/-- UNSTAGE: at the first plan latch at which no multi-tick slab reads the copies (R132). -/
def State.unstageSlot (s : State) (c slot : Nat) : State × Nat × Nat × W16 :=
  let a := s.arg c pVar 0
  if 65536 ≤ a then s.varSays slot 0x05
  else if (s.slot slot).state ≠ .live then s.varSays slot 0x0A
  else (s.defer (.unstage slot (BitVec.ofNat 16 a))).varSays slot 0x01

def execUnstage (v : View) (posted : Bool) (slot : BitVec 14) (gen : W16) (rsv : BitVec 30) (s : State) :
    Host.Outcome State Fault Refusal :=
  .next (s.varCmd v posted 6 slot.toNat rsv.toNat (fun d c t => t.varGuard d slot.toNat gen (t.unstageSlot c slot.toNat)))

/-- QUERY: the entry in VAR_ARG0 to VAR_ARG3 (R119, R124). -/
def State.querySlot (s : State) (d c slot : Nat) : State × Nat × Nat × W16 :=
  if !s.granted d slot then s.varSays slot 0x04
  else
    let ws := slotWords (s.slot slot) d
    ((ws.zipIdx).foldl (fun t p => t.putArg c pVar p.2 p.1) s).varSays slot 0x00

def execVarQuery (v : View) (posted : Bool) (slot : BitVec 14) (gen : W16) (rsv : BitVec 30) (s : State) :
    Host.Outcome State Fault Refusal :=
  let _ := gen
  .next (s.varCmd v posted 7 slot.toNat rsv.toNat (fun d c t => t.querySlot d c slot.toNat))

/-- FLUSH queues a write-back of a LIVE slot (R124). -/
def State.flushSlot (s : State) (d slot : Nat) : State × Nat × Nat × W16 :=
  let e := s.slot slot
  if e.state ≠ .live then s.varSays slot 0x0A
  else (s.queueCooper d slot .writeBack e.imageBytes false).varSays slot 0x01

def execFlush (v : View) (posted : Bool) (slot : BitVec 14) (gen : W16) (rsv : BitVec 30) (s : State) :
    Host.Outcome State Fault Refusal :=
  .next (s.varCmd v posted 10 slot.toNat rsv.toNat (fun d _ t => t.varGuard d slot.toNat gen (t.flushSlot d slot.toNat)))

/-! ## Expert tables (R138 to R141) -/

/-- One entry of EXPERT_CLAIM's arguments (R138). -/
structure ExpertArg where
  pos : Nat
  posGen : W16
  xslot : Nat
  xgen : W16
  rsv : Nat
deriving DecidableEq, Repr, Inhabited

def expertArgOf (w : Nat) : ExpertArg :=
  { pos := bitsOf w 0 6, posGen := BitVec.ofNat 16 (bitsOf w 6 16), xslot := bitsOf w 22 14,
    xgen := BitVec.ofNat 16 (bitsOf w 36 16), rsv := bitsOf w 52 12 }

/-- Position of a layer's expert table. -/
def VarDom.pos (x : VarDom) (layer pos : Nat) : ExpertPos := (mapGet x.experts (64 * layer + pos)).getD {}

/-- The first failing entry of an EXPERT_CLAIM: its index, status and the generation returned (R139). -/
def State.expertFails (s : State) (d layer : Nat) (parentGen : W16) : Nat → List ExpertArg → Option (Nat × Nat × W16)
  | _, [] => none
  | i, a :: r =>
    let e := s.slot a.xslot
    let p := (s.dom d).var_.pos layer a.pos
    if !s.granted d a.xslot then some (i, 0x04, parentGen)
    else if e.gen ≠ a.xgen then some (i, 0x03, parentGen)
    else if !e.expert || e.state == .free || (s.dom d).var_.bound a.xslot then some (i, 0x0A, parentGen)
    else if p.xgen ≠ 0 then some (i, 0x02, p.posGen)
    else if p.posGen ≠ a.posGen then some (i, 0x03, p.posGen)
    else State.expertFails s d layer parentGen (i + 1) r

/-- MoE layers of the resident manifest (R227, R139). -/
def State.moeLayers (s : State) : Nat :=
  if s.bas.copy0.state == .active then s.bas.copy0.moe.length
  else if s.bas.copy1.state == .active then s.bas.copy1.moe.length else 0

/-- Two entries that name the same position or the same expert slot. -/
def expertClash : List ExpertArg → Bool
  | [] => false
  | a :: r => r.any (fun b => a.pos == b.pos || a.xslot == b.xslot) || expertClash r

/-- EXPERT_CLAIM: all or nothing (R139). -/
def State.expertClaim (s : State) (d c slot : Nat) (gen : W16) : State × Nat × Nat × W16 :=
  let a0 := s.arg c pVar 0
  let layer := bitsOf a0 0 8
  let n := bitsOf a0 8 2 + 1
  let es := (List.range n).map (fun i => expertArgOf (s.arg c pVar (i + 1)))
  let parent := s.slot slot
  let held := ((s.dom d).var_.experts.filter (fun p =>
    p.1 / 64 == layer && p.2.xgen != 0 && p.2.parent == slot)).length
  if !s.granted d slot then s.varSays slot 0x04
  else if parent.gen ≠ gen then (s.bump d pVar 4 1).varSays slot 0x03
  else if parent.expert ∨ parent.state = .free ∨ parent.state = .releasing then s.varSays slot 0x0A
  else if bitsOf a0 10 54 ≠ 0 ∨ es.any (fun a => a.rsv != 0) ∨ expertClash es ∨ s.moeLayers ≤ layer then s.varSays slot 0x05
  else if 4 < held + n then s.varSays slot 0x09
  else match s.expertFails d layer parent.gen 0 es with
    | some (i, st, g) =>
      (if st = 0x02 ∨ st = 0x03 then s.bump d pVar 4 1 else s, st, i, g)
    | none =>
      let s1 := es.foldl (fun t a =>
        let k := 64 * layer + a.pos
        let p : ExpertPos :=
          { xslot := a.xslot, xgen := a.xgen, parent := slot, posGen := nextGen a.posGen, pending := true }
        (t.updDom d (fun x => { x with var_ := { x.var_ with experts := mapSet x.var_.experts k p } })).defer
          (.expertBind d k)) s
      s1.varSays slot 0x00

def execExpertClaim (v : View) (posted : Bool) (slot : BitVec 14) (gen : W16) (rsv : BitVec 30) (s : State) :
    Host.Outcome State Fault Refusal :=
  .next (s.varCmd v posted 8 slot.toNat rsv.toNat (fun d c t => t.expertClaim d c slot.toNat gen))

/-- EXPERT_RELEASE: the position becomes free at the next plan latch (R121, R124). -/
def State.expertRelease (s : State) (d c : Nat) : State × Nat × Nat × W16 :=
  let a := s.arg c pVar 0
  let k := 64 * bitsOf a 0 8 + bitsOf a 8 6
  let p := (s.dom d).var_.pos (bitsOf a 0 8) (bitsOf a 8 6)
  if bitsOf a 30 34 ≠ 0 then (s, 0x05, 0, p.posGen)
  else if p.posGen.toNat ≠ bitsOf a 14 16 then (s, 0x03, 0, p.posGen)
  else (s.defer (.expertFree d k), 0x00, 0, p.posGen)

def execExpertRelease (v : View) (posted : Bool) (slot : BitVec 14) (gen : W16) (rsv : BitVec 30) (s : State) :
    Host.Outcome State Fault Refusal :=
  let _ := gen
  .next (s.varCmd v posted 9 slot.toNat rsv.toNat (fun d c t => t.expertRelease d c))

/-- Word of position x of a layer's table (R140); a binding that waits for its latch does not show. -/
def ExpertPos.word (p : ExpertPos) : Nat :=
  if p.pending ∨ p.xgen = 0 then fld p.posGen.toNat 48 16
  else fld p.xslot 0 14 + fld p.xgen.toNat 16 16 + fld p.parent 32 14 + fld p.posGen.toNat 48 16

/-- The expert tables' base: the start of the variant cache (log 25). -/
def Dom.extBase (x : Dom) : Nat := if x.rec_.cachePages = 0 then 0 else pageBytes * x.rec_.cachePage0

/-- Writes one position's word where slabs read the table (R140). -/
def State.writeExpert (s : State) (d k : Nat) : State :=
  let x := s.dom d
  if x.rec_.cachePages = 0 then s
  else
    let a := x.extBase + 512 * (k / 64) + 8 * (k % 64)
    s.updDom d (fun y => { y with mem := memPut y.mem a (leBytes 8 (((mapGet x.var_.experts k).getD {}).word)) })

/-- A position changes, and its word with it. -/
def State.setExpert (s : State) (d k : Nat) (f : ExpertPos → ExpertPos) : State :=
  (s.updDom d (fun x => x.updVar (fun v =>
    { v with experts := mapSet v.experts k (f ((mapGet v.experts k).getD {})) }))).writeExpert d k

/-- A position without a binding; its generation stays (R141). -/
def ExpertPos.freed (p : ExpertPos) : ExpertPos := { posGen := p.posGen }

/-! ## Ends of Cooper's work (R120, R121, R132, R136) -/

/-- The last byte of a load is written: the image stands in the first buffer, its directory in both (DEDUCED, log 136), and the slot is LIVE at the next plan latch; a home image that reads as poison fails instead (R120, R129, R136). -/
def execLoadComplete (slot : BitVec 14) (s : State) : Host.Outcome State Fault Refusal :=
  let k := slot.toNat
  .next (match s.slotOwner k with
  | none => s
  | some d =>
    let e := s.slot k
    if e.state ≠ .loading ∨ (s.carried d k CoopKind.isLoad).isNone then s
    else
      let reads := ((0, 256) :: e.extents).map (fun x => (x.1, s.rdMem d (e.home + x.1) x.2))
      let s1 := s.dropItems d k
      if reads.any (fun r => r.2.2) then s1.defer (.slotLoadFailed k)
      else
        let s2 := reads.foldl (fun t r => t.wrBuffer d e false (e.bufOff r.1) r.2.1) s1
        let s3 := if e.train then (reads.take 1).foldl (fun t r => t.wrBuffer d e true 0 r.2.1) s2 else s2
        s3.defer (.slotLive k))

/-- Cooper abandons a load: its remaining bytes leave the queue, and the slot is HELD again at the next latch (R136). -/
def State.abandonLoad (s : State) (d k : Nat) : State :=
  if (s.slot k).state ≠ .loading ∨ s.atLatch.contains (.slotLive k) ∨ s.atLatch.contains (.slotLoadFailed k) then s
  else (s.dropItems d k).defer (.slotLoadFailed k)

/-- A read of the home image fails after its retry: the load is abandoned (R136). -/
def execLoadFailed (slot : BitVec 14) (s : State) : Host.Outcome State Fault Refusal :=
  let k := slot.toNat
  .next (match s.slotOwner k with
  | none => s
  | some d =>
    s.abandonLoad d k)

/-- PARKING ends: no batch reads the slot and its write-back is done (R120). -/
def execParkDone (slot : BitVec 14) (s : State) : Host.Outcome State Fault Refusal :=
  let k := slot.toNat
  let e := s.slot k
  .next (match s.slotOwner k with
  | none => s
  | some d =>
    if e.state = .parking ∧ e.refCur = 0 ∧ e.refOld = 0 ∧ !e.dirty then
      ((s.dropItems d k).updSlot k (fun y => { y.emptied with state := .held })).raiseDom pVar 2 d
    else s)

/-- RELEASING ends: no batch reads the slot (R120). -/
def execReleaseDone (slot : BitVec 14) (s : State) : Host.Outcome State Fault Refusal :=
  let k := slot.toNat
  let e := s.slot k
  .next (match s.slotOwner k with
  | none => s
  | some d =>
    if e.state = .releasing ∧ e.refCur = 0 ∧ e.refOld = 0 then (s.dropItems d k).putSlot k { gen := e.gen }
    else s)

/-- What the staged copy of a projection takes from the current buffer: the element and the scale regions of both factors, cut at 64 bytes, each piece with the poison it met (R130). -/
def State.stageCopy (s : State) (d slot : Nat) (e : SlotEntry) (proj : Nat) : List (List Byte × Bool) :=
  [0, 1].flatMap (fun fac =>
    let (rows, k, off) := factorShape e proj fac
    let nb := rows * ceilDiv k 32
    let (eo, so, _, _) := factorRegions rows k off e.train
    [(eo, 16 * nb), (so, nb)].flatMap (fun r => (unitPieces 64 (r.2 / 64 + 2) r.1 r.2).map (fun p =>
      s.rdFactor d slot e e.curBuf (2 * proj + fac) p.1 p.2)))

/-- A stage or restage ends: the staged copy becomes readable at the next plan latch (R121, R132). -/
def execStageComplete (slot : BitVec 14) (s : State) : Host.Outcome State Fault Refusal :=
  let k := slot.toNat
  .next (match s.slotOwner k with
  | none => s
  | some d =>
    match s.carried d k CoopKind.isStage with
    | none => s
    | some i =>
      let e := s.slot k
      let mask : W16 := match i.kind with | .stage m => m | .restage m => m | .load => 0 | .writeBack => 0
      let s1 := s.updDom d (fun x => { x with var_ := { x.var_ with queue := x.var_.queue.erase i } })
      if e.state = .live ∨ e.state = .parking ∨ e.state = .releasing then
        s1.defer (.staged k mask e.verCur ((projsOf mask).map (fun p => (p, s.stageCopy d k e p))))
      else s1)

/-! ## What the plan latch does to slots (R120, R121, R164, R165) -/

/-- A slot enters LIVE (R120, R143, R144, R161). -/
def State.latchSlotLive (s : State) (k : Nat) : State :=
  match s.slotOwner k with
  | none => s
  | some d =>
    if (s.slot k).state ≠ .loading then s
    else
      let s1 := s.updSlot k (fun e =>
        { e with state := .live, verCur := 0, curBuf := false, oldHeld := false, refCur := 0, refOld := 0,
                 commitTick := 0, dirty := false, commitDue := false, writtenBack := false, stagedMask := 0, stagedAt := [] })
      (s1.bump d pVar 0 1).raiseDom pVar 1 d

/-- A load that failed: HELD, granules freed (R136). -/
def State.latchLoadFailed (s : State) (k : Nat) : State :=
  match s.slotOwner k with
  | none => s
  | some d =>
    if (s.slot k).state ≠ .loading then s
    else ((s.updSlot k (fun e => { e.emptied with state := .held })).bump d pVar 5 1).raiseDom pVar 4 d

/-- A slot on its way to HELD that is DIRTY has its write-back in the Cooper queue (R120). -/
def State.queueWriteBack (s : State) (d k : Nat) : State :=
  let e := s.slot k
  if e.state = .parking ∧ e.dirty ∧ !(s.dom d).var_.writesBack k then s.queueCooper d k .writeBack e.imageBytes false else s

/-- PARK or RELEASE takes effect (R120, R141). -/
def State.latchLeave (s : State) (k : Nat) (park : Bool) : State :=
  match s.slotOwner k with
  | none => s
  | some d =>
    if (s.slot k).state ≠ .live then s
    else
      let s1 := s.updSlot k (fun e => { e with state := if park then .parking else .releasing, leaveTick := s.tik.tick })
      let s2 := s1.updDom d (fun x => x.updVar (fun v =>
        { v with queue := v.queue.map (fun i => if i.slot = k then { i with blocked := false } else i) }))
      if park then s2.queueWriteBack d k
      else ((s2.dom d).var_.experts.filter (fun p => p.2.xgen != 0 && p.2.parent == k)).foldl
        (fun t p => t.setExpert d p.1 ExpertPos.freed) s2

/-- A multi-tick VARIANT_PRODUCT of the domain, planned at the staging rate, reads one of the projections (R132). -/
def State.stagedRead (s : State) (d : Nat) (mask : W16) : Bool :=
  (s.dom d).slabs.any (fun b => b.state == .paused && b.staging && (hdrOf b.words).kind == 2 &&
    bitOf mask.toNat (varBody b.words).proj)

/-- Writes a staged copy into its units, piece after piece; a piece read as poison is poison there too (R130, R520). -/
def State.putStaged (s : State) (d : Nat) (units : List Nat) : Nat → List (List Byte × Bool) → State
  | _, [] => s
  | o, (bs, bad) :: r =>
    let s1 := (unitPieces 4096 (bs.length / 4096 + 2) o bs.length).foldl (fun t p =>
      let a := s.stagedAddr d units p.1
      let t1 := t.wrCommons a ((bs.drop (p.1 - o)).take p.2)
      if bad then { t1 with commonsPoison := (List.range' (a / 8) ((a + p.2 + 7) / 8 - a / 8)).foldl numAdd t1.commonsPoison }
      else t1) s
    State.putStaged s1 d units (o + bs.length) r

/-- Puts the copy of one projection into the units that it holds already, or into free ones (R130; log 139). -/
def State.placeStaged (s : State) (d k : Nat) (c : Nat × List (List Byte × Bool)) : State :=
  let e := s.slot k
  let (us, s1) := match mapGet e.stagedAt c.1 with
    | some us => (us, s)
    | none => State.pickFree (ceilDiv (e.stagedBytes c.1) 4096) (s.freeStageUnits d) s
  (State.putStaged s1 d us 0 c.2).updSlot k (fun y => { y with stagedAt := mapSet y.stagedAt c.1 us })

/-- A slot that still holds its buffers as a slab may read them. -/
def SlotState.stands : SlotState → Bool
  | .live => true
  | .parking => true
  | .releasing => true
  | .free => false
  | .held => false
  | .loading => false

/-- A staged copy becomes readable (R121); it waits while a multi-tick slab reads the one it replaces (R132). A slot freed meanwhile keeps none. -/
def State.latchStaged (s : State) (k : Nat) (mask : W16) (ver : W32) (copies : List (Nat × List (List Byte × Bool))) : State :=
  match s.slotOwner k with
  | none => s
  | some d =>
    if !(s.slot k).state.stands then s
    else if s.stagedRead d (mask &&& (s.slot k).stagedMask) then s.defer (.staged k mask ver copies)
    else (copies.foldl (fun t c => t.placeStaged d k c) s).updSlot k (fun e =>
      { e with stagedMask := e.stagedMask ||| mask, stagedVer := ver })

/-- UNSTAGE takes effect, or waits (R132). -/
def State.latchUnstage (s : State) (k : Nat) (mask : W16) : State :=
  match s.slotOwner k with
  | none => s
  | some d =>
    if s.stagedRead d (mask &&& (s.slot k).stagedMask) then s.defer (.unstage k mask)
    else s.updSlot k (fun e =>
      { e with stagedMask := e.stagedMask &&& ~~~ mask, stagedAt := e.stagedAt.filter (fun p => !bitOf mask.toNat p.1) })

/-- A preemption leaves the domain's commons unsaved: its staged copies are lost, and their projections wait for a restage (R132). -/
def State.loseStaged (s : State) (d : Nat) : State :=
  { s with slots := s.slots.map (fun p =>
      if s.granted d p.1 then
        (p.1, { p.2 with restageLater := p.2.restageLater ||| p.2.stagedMask, stagedMask := 0, stagedAt := [] })
      else p) }

/-- The domain is restored: what was staged is restaged, where the slot still stands (R132). -/
def State.restageLost (s : State) (d : Nat) : State :=
  (s.slots.filter (fun p => s.granted d p.1 && p.2.restageLater != 0)).foldl (fun t p =>
    let e := p.2
    let t1 := t.updSlot p.1 (fun y => { y with restageLater := 0 })
    if e.state.stands then
      t1.queueCooper d p.1 (.restage e.restageLater) (((projsOf e.restageLater).map e.stagedBytes).sum) false
    else t1) s

/-- Releases one stamp of a slot (R162). -/
def State.releaseStamp (s : State) (slot : Nat) (ver : W32) : State :=
  s.updSlot slot (fun e =>
    if ver = e.verCur then { e with refCur := e.refCur - 1 } else { e with refOld := e.refOld - 1 })

/-- The commit of a slot's new version, with the restage of its staged projections (R164, R132); that of a PARKING slot is written back too (R120). -/
def State.commitSlot (s : State) (k : Nat) : State :=
  let e := s.slot k
  let s1 := s.updSlot k (fun y =>
    { y with commitDue := false, verCur := y.verCur + 1, curBuf := !y.curBuf, refOld := y.refCur, refCur := 0,
             oldHeld := true, dirty := true, writtenBack := false, commitTick := s.tik.tick })
  match s.slotOwner k with
  | none => s1
  | some d =>
    let s2 := s1.queueWriteBack d k
    if e.stagedMask = 0 then s2
    else s2.queueCooper d k (.restage e.stagedMask) (((projsOf e.stagedMask).map e.stagedBytes).sum) false

/-- Commits of every slot whose write has ended (R165 step 2). -/
def State.applyCommits (s : State) : State :=
  (s.slots.filter (fun p => p.2.commitDue)).foldl (fun t p => t.commitSlot p.1) s

/-- OLD_HELD clears where no stamp covers the old version and no batch opened before the commit is open (R165 step 3). -/
def State.clearOldHeld (s : State) : State :=
  { s with slots := s.slots.map (fun p =>
      if p.2.oldHeld ∧ p.2.refOld = 0 ∧
          !(match s.slotOwner p.1 with
            | some d => (s.dom d).batches.any (fun b => decide (b.openTick < p.2.commitTick))
            | none => false) then
        (p.1, { p.2 with oldHeld := false })
      else p) }

end Sys2Proof.Machine
end

