-- ==== Sys2Proof/Machine/Tier.lean ====
section
/-! DEFINITION. Tiers and the flash port: the page map, the commands of the TIR page, the tier queue's moves and the NVMe root port (R281, R287 to R306). -/

namespace Sys2Proof.Machine

/-! ## The page map (R287, R288) -/

/-- A page number names a page of a domain's range (R287, R280, R423). -/
def State.pageInRange (s : State) (d p : Nat) : Bool :=
  let r := (s.dom d).rec_
  if d = 0 then decide (p < 2 ^ 27)
  else if r.kln3Mem then decide (p < 65536) || (decide (2 ^ 19 ≤ p) && decide (p < 2 ^ 19 + r.range))
  else decide (p < r.range)

/-- The domain and page at which a page's state and frame are held: a shared page's in domain 0 (R293). -/
def State.homePage (s : State) (d p : Nat) : Nat × Nat :=
  match ((s.dom d).entry p).shared with
  | some q => (0, q)
  | none => (d, p)

/-- An entry of domain 0's page map, with what the trace has written to the page (R288, R487). -/
def State.entry0 (s : State) (q : Nat) : PageEntry :=
  let e := (s.dom 0).entry q
  if s.dbg.traced.contains q then { e with dirty := true, zero := false } else e

/-- The page map entry of a page, with a shared page's state taken from domain 0 and its PIN from the domain itself (R293). -/
def State.pageEntry (s : State) (d p : Nat) : PageEntry :=
  let e := (s.dom d).entry p
  match e.shared with
  | some q => { s.entry0 q with pin := e.pin, shared := some q }
  | none => if d = 0 then s.entry0 p else e

/-- Changes the entry that holds a page's state. -/
def State.updHome (s : State) (d p : Nat) (f : PageEntry → PageEntry) : State :=
  let h := s.homePage d p
  s.updDom h.1 (fun x => x.putEntry h.2 (f (x.entry h.2)))

/-- Whether any domain, or the device, pins a page (R289, R293, R421). -/
def State.pinnedPage (s : State) (d p : Nat) : Bool :=
  let h := s.homePage d p
  (s.dom h.1).rec_.devPinned h.2 && h.1 != 0 || ((s.dom h.1).entry h.2).pin != 0 ||
    (h.1 == 0 && s.doms.any (fun y => y.2.tir.pages.any (fun e => e.2.shared == some h.2 && e.2.pin != 0)))

/-- Frames that a domain's pages take: STACKED, UP and DOWN (R290). -/
def Dom.framesUsed (x : Dom) : Nat :=
  let born := min x.quota0 (x.rec_.rangeBelow (2 ^ 27))
  let changed := (x.tir.pages.filter (fun e => x.bornStacked e.1)).length
  born - changed + (x.tir.pages.filter (fun e => e.2.shared.isNone && e.2.state != .flash)).length

/-- Free frames of the quota (TIR_FREE). -/
def Dom.tirFree (x : Dom) : Nat := x.rec_.quota - x.framesUsed

/-- The code of a state in R288. -/
def PageState.code : PageState → Nat
  | .stacked => 0
  | .flash => 1
  | .up => 2
  | .down => 3

/-- What QUERY returns (R288); FRAME reads 0 for a virtual function. -/
def State.pageWord (s : State) (d p : Nat) (pf : Bool) : Nat :=
  let e := s.pageEntry d p
  let h := s.homePage d p
  fld e.state.code 0 2 + fld (bit01 e.dirty) 2 1 + fld (bit01 e.flashValid) 3 1 + fld (bit01 e.zero) 4 1 +
    fld (bit01 e.shared.isSome) 5 1 + fld (bit01 e.keySlot) 6 1 + fld e.pin 7 8 +
    (if pf && e.state != .flash then fld (s.frameOf h.1 h.2) 15 18 else 0)

/-! ## The commands of R290 -/

/-- Queues an item of a domain's tier queue (R295). -/
def State.queueTier (s : State) (d : Nat) (i : TierItem) : State :=
  s.updDom d (fun x => { x with tir := { x.tir with queue := x.tir.queue ++ [i] } })

/-- Changes a domain's own PIN of a page. -/
def State.setPin (s : State) (d p n : Nat) : State :=
  s.updDom d (fun x => x.putEntry p { x.entry p with pin := n })

/-- MOVE_UP on one page: the status, 0x00 DONE or 0x01 ACCEPTED (R290). -/
def State.moveUpPage (s : State) (d p : Nat) : State × Nat :=
  match (s.pageEntry d p).state with
  | .stacked => (s, 0x00)
  | .up => (s, 0x00)
  | .flash => (s.queueTier d (.up p), 0x01)
  | .down => (s.queueTier d (.up p), 0x01)

/-- EVICT on one page (R290, R293). -/
def State.evictPage (s : State) (d p : Nat) : State × Nat :=
  match (s.pageEntry d p).state with
  | .flash => (s, 0x00)
  | .down => (s, 0x00)
  | .up => (s, 0x08)
  | .stacked => if s.pinnedPage d p then (s, 0x0D) else (s.queueTier d (.down p), 0x01)

/-- PIN on one page (R290). -/
def State.pinPage (s : State) (d p : Nat) : State × Nat :=
  let e := s.pageEntry d p
  if e.pin = 255 then (s, 0x05)
  else
    let s1 := s.setPin d p (e.pin + 1)
    (if e.state == .stacked then s1 else s1.queueTier d (.up p), 0x01)

/-- UNPIN on one page (R290). -/
def State.unpinPage (s : State) (d p : Nat) : State × Nat :=
  let e := s.pageEntry d p
  if e.pin = 0 then (s, 0x0A) else (s.setPin d p (e.pin - 1), 0x00)

/-- DISCARD on one page: it takes effect at the next plan latch (R290). -/
def State.discardPage (s : State) (d p : Nat) : State × Nat :=
  if ((s.dom d).entry p).shared.isSome || s.pinnedPage d p then (s, 0x0A) else (s.defer (.discard d p), 0x01)

/-- RELOCATE on one page: a STACKED page of the domain's own, to a free frame of the same domain, which is kept for it until the latch (R290, R279). -/
def State.relocatePage (s : State) (d p frame : Nat) : State × Nat :=
  let x := s.dom d
  let e := x.entry p
  if e.shared.isSome || e.state != .stacked || x.tirFree == 0 then (s, 0x0A)
  else if !runsHave x.tir.spare frame then (s, 0x05)
  else ((s.updDom d (fun y => { y with tir := { y.tir with spare := runsCut y.tir.spare frame 1 } })).defer (.relocate d p frame), 0x01)

/-- Acts on `n` pages from p in ascending order, and stops at the first failure: the state, the status and DONE_PAGES (R290). -/
def State.tierPages (s : State) (d : Nat) (act : State → Nat → State × Nat) : Nat → Nat → Nat → Nat → State × Nat × Nat
  | 0, _, st, done => (s, st, done)
  | n + 1, p, st, done =>
    if !s.pageInRange d p then (s, 0x0E, done)
    else
      let r := act s p
      if r.2 ≤ 1 then State.tierPages r.1 d act n (p + 1) (max st r.2) (done + 1) else (r.1, r.2, done)

/-- TIR_RESULT without VALID (R304). -/
def tirWord (status op done : Nat) : Nat := fld status 0 8 + fld op 8 4 + fld done 12 16

/-- A command on pages (R290): COUNT 0 and reserved bits are BAD_ARG. -/
def State.tirCmd (s : State) (v : View) (posted : Bool) (op page count : Nat) (rsv : Nat)
    (act : Nat → State → Nat → State × Nat) : State :=
  s.runCmd v pTir posted (fun t =>
    let d := t.viewDom v pTir
    if rsv ≠ 0 ∨ count = 0 then (t, tirWord 0x05 op 0)
    else
      let r := t.tierPages d (act d) count page 0 0
      (r.1, tirWord r.2.1 op r.2.2))

def execMoveUp (v : View) (posted : Bool) (page : BitVec 27) (count : W16) (rsv : BitVec 17) (s : State) :
    Host.Outcome State Fault Refusal :=
  .next (s.tirCmd v posted 1 page.toNat count.toNat rsv.toNat (fun d t p => t.moveUpPage d p))

def execEvict (v : View) (posted : Bool) (page : BitVec 27) (count : W16) (rsv : BitVec 17) (s : State) :
    Host.Outcome State Fault Refusal :=
  .next (s.tirCmd v posted 2 page.toNat count.toNat rsv.toNat (fun d t p => t.evictPage d p))

def execPin (v : View) (posted : Bool) (page : BitVec 27) (count : W16) (rsv : BitVec 17) (s : State) :
    Host.Outcome State Fault Refusal :=
  .next (s.tirCmd v posted 3 page.toNat count.toNat rsv.toNat (fun d t p => t.pinPage d p))

def execUnpin (v : View) (posted : Bool) (page : BitVec 27) (count : W16) (rsv : BitVec 17) (s : State) :
    Host.Outcome State Fault Refusal :=
  .next (s.tirCmd v posted 4 page.toNat count.toNat rsv.toNat (fun d t p => t.unpinPage d p))

/-- QUERY: COUNT must be 1; the entry is returned in TIR_ARG0 (R290). -/
def execTirQuery (v : View) (posted : Bool) (page : BitVec 27) (count : W16) (rsv : BitVec 17) (s : State) :
    Host.Outcome State Fault Refusal :=
  .next (s.runCmd v pTir posted (fun t =>
    let d := t.viewDom v pTir
    let c := t.viewCopy v pTir
    if rsv ≠ 0 ∨ count ≠ 1 then (t, tirWord 0x05 5 0)
    else if !t.pageInRange d page.toNat then (t, tirWord 0x0E 5 0)
    else (t.putArg c pTir 0 (w64 (t.pageWord d page.toNat (isPf v))), tirWord 0 5 1)))

def execDiscard (v : View) (posted : Bool) (page : BitVec 27) (count : W16) (rsv : BitVec 17) (s : State) :
    Host.Outcome State Fault Refusal :=
  .next (s.tirCmd v posted 6 page.toNat count.toNat rsv.toNat (fun d t p => t.discardPage d p))

/-- RELOCATE: PF only; a virtual function is not granted it (R290). -/
def execRelocate (v : View) (posted : Bool) (page : BitVec 27) (count : W16) (rsv : BitVec 17) (s : State) :
    Host.Outcome State Fault Refusal :=
  .next (s.tirCmd v posted 7 page.toNat count.toNat rsv.toNat (fun d t p =>
    if isPf v then t.relocatePage d p (t.arg (t.viewCopy v pTir) pTir 0 % 2 ^ 18) else (t, 0x0E)))

/-- Pages whose accepted eviction has not written its page: queued, waiting for an entry, or in flight (R303). -/
def State.evicting (s : State) (d : Nat) : List Nat :=
  let t := (s.dom d).tir
  (t.queue.filterMap (fun i => match i with | .down p => some p | .up _ => none)) ++
    (t.waitingFull.map Prod.fst ++ t.inflight).filter (fun p => (s.pageEntry d p).state == .down)

/-- FLUSH_EXTENT (R290, R303). -/
def execFlushExtent (v : View) (posted : Bool) (page : BitVec 27) (count : W16) (rsv : BitVec 17) (s : State) :
    Host.Outcome State Fault Refusal :=
  .next (s.runCmd v pTir posted (fun t =>
    let d := t.viewDom v pTir
    let x := t.dom d
    if rsv ≠ 0 ∨ page ≠ 0 ∨ count ≠ 0 then (t, tirWord 0x05 8 0)
    else if x.rec_.ns = 0 then (t, tirWord 0x0E 8 0)
    else if x.tir.flushWait.isSome then (t, tirWord 0x08 8 0)
    else
      (t.updDom d (fun y => { y with tir := { y.tir with flushWait := some (t.evicting d), flushIssued := false,
                                                         flushRetried := false } }), tirWord 0x01 8 0)))

/-! ## NVMe commands -/

/-- First logical block of a page of a domain's extent (R300); a shared page lies in that of domain 0 (R293). -/
def State.pageLba (s : State) (d p : Nat) : Nat :=
  let h := s.homePage d p
  (s.dom h.1).rec_.lbaBase + 512 * h.2

/-- Puts out an NVMe command of a domain's queue pair, and counts reads and writes (R300, R303, R306); a Flush and an Abort name no blocks. -/
def State.nvme (s : State) (d op page : Nat) : State :=
  let s1 := s.emit (.nvme d op page (if op = 0 ∨ op = 0x100 then 0 else s.pageLba d page))
  if op = 2 then (s1.bump dev pNvm 0 1).bump dev pNvm 2 pageBytes
  else if op = 1 then (s1.bump dev pNvm 1 1).bump dev pNvm 3 pageBytes
  else s1

/-! ## Flash copies (R301) -/

/-- The domain's flash key of a slot (R301, R441). -/
def Dom.flashKey (x : Dom) (slot : Bool) : Nat :=
  match (if slot then x.keys.slot1 else x.keys.slot0) with
  | some i => (Config.draw i).toNat
  | none => 0

/-- The nonce of a flash copy: page number, domain and write count (R301). -/
def flashNonce (d p : Nat) (count : W32) : Nat := fld p 0 27 + fld d 27 6 + fld count.toNat 33 32

/-- The tag of a ciphertext as the flash copy that an entry records (R301); the message has no further authenticated data (DEDUCED, log 121). -/
def Dom.copyTag (x : Dom) (d p : Nat) (e : PageEntry) (ct : List Byte) : List Byte :=
  gcmTag (x.flashKey e.keySlot) (flashNonce d p e.writeCount) [] ct

/-- The page is written to flash once more: its KEY_SLOT, write count and tag (R289, R301). -/
def Dom.sealed (x : Dom) (d p : Nat) : PageEntry :=
  let e : PageEntry := { x.entry p with keySlot := x.curSlot, writeCount := (x.entry p).writeCount + 1 }
  { e with tag := x.copyTag d p e (gcmData (x.flashKey e.keySlot) (flashNonce d p e.writeCount) (memGet x.mem (pageBytes * p) pageBytes)) }

/-- The tag of what a drive returns for a page verifies: the copy last written does, any other bytes are checked (R301). -/
def State.tagOk (s : State) (d p : Nat) (returned : Option (List Byte)) : Bool :=
  match returned with
  | none => true
  | some ct =>
    let h := s.homePage d p
    let x := s.dom h.1
    x.copyTag h.1 h.2 (x.entry h.2) ct == (x.entry h.2).tag

/-- No accepted eviction of a page stands any more: a Flush waits for it no longer (R303). -/
def State.unflushed (s : State) (h : Nat × Nat) : State :=
  (s.doms.map Prod.fst).foldl (fun t y => t.updDom y (fun x =>
    { x with tir := { x.tir with flushWait := x.tir.flushWait.map (fun l => l.filter (fun q => s.homePage y q != h)) } })) s

/-- The Flush is issued once every earlier accepted eviction has written its page (R303). -/
def execFlushIssue (d : Fin 64) (s : State) : Host.Outcome State Fault Refusal :=
  let x := s.dom d.val
  .next (if x.tir.flushWait = some [] ∧ !x.tir.flushIssued then
    (s.updDom d.val (fun y => { y with tir := { y.tir with flushIssued := true } })).nvme d.val 0 0
  else s)

/-- Ends a domain's pending Flush. -/
def Dom.flushOver (x : Dom) : Dom :=
  { x with tir := { x.tir with flushWait := none, flushIssued := false, flushRetried := false } }

/-- A Flush that failed: once more on the same queue pair, then FLASH_ERROR (R299, R303). -/
def State.flushFails (s : State) (d : Nat) : State :=
  let x := s.dom d
  if !x.tir.flushIssued then s
  else if x.tir.flushRetried then
    ((s.updDom d Dom.flushOver).bump d pTir 6 1).raiseDom pTir 1 d
  else (s.updDom d (fun y => { y with tir := { y.tir with flushRetried := true } })).nvme d 0 0

/-- The drive completes the Flush (R303). -/
def execFlushDone (d : Fin 64) (ok : Bool) (s : State) : Host.Outcome State Fault Refusal :=
  .next (if (s.dom d.val).tir.flushIssued then
    (if ok then (s.updDom d.val Dom.flushOver).raiseDom pTir 5 d.val else s.flushFails d.val)
  else s)

/-! ## Flash stalls (R297, R298) -/

/-- A slab's planned start comes no earlier than another's, and it has its portion still before it. -/
def notYet (st : SlabState) : Bool := st == .planned || st == .paused

/-- The slab `w` and every later slab of its domain move later by ns (R298): those submitted after it, and the device's own slabs placed at or after it that have not started. -/
def Dom.shiftFrom (x : Dom) (w : Slab) (ns : Nat) : Dom :=
  { x with
      slabs := x.slabs.map (fun b =>
        if w.order ≤ b.order ∧ (b.state = .planned ∨ b.state = .running ∨ b.state = .paused) then
          { b with stalledNs := b.stalledNs + ns, demDue := if b.demDue = 0 then 0 else b.demDue + ns } else b),
      devSlabs := x.devSlabs.map (fun r =>
        if notYet r.state ∧ w.planStart ≤ r.planStart then { r with stalledNs := r.stalledNs + ns } else r) }

/-- The device's own slab of a kind and every later slab of its domain move later by ns (R298). -/
def Dom.shiftFromDev (x : Dom) (k : DevSlab) (ns : Nat) : Dom :=
  match x.devSlabs.find? (fun r => r.kind == k && r.state != .ended) with
  | none => x
  | some w =>
    { x with
        slabs := x.slabs.map (fun b =>
          if notYet b.state ∧ w.planStart ≤ b.planStart then { b with stalledNs := b.stalledNs + ns } else b),
        devSlabs := x.devSlabs.map (fun r =>
          if r.kind = k ∨ (notYet r.state ∧ w.planStart ≤ r.planStart) then { r with stalledNs := r.stalledNs + ns } else r),
        tir := { x.tir with due := x.tir.due.map (fun q => if q.2.1 = k then (q.1, k, q.2.2 + ns) else q) } }

/-- What waits on a page, and all that is later, moves later by ns: the first slab that demands it, else the device's slab that transfers it (R298). -/
def Dom.stallOn (x : Dom) (p ns : Nat) : Dom :=
  match x.slabs.find? (fun b => b.state != .ended && b.demand.contains p) with
  | some w => x.shiftFrom w ns
  | none => match mapGet x.tir.due p with
    | some q => x.shiftFromDev q.1 ns
    | none => x

/-- A flash stall of a domain: counted under its cause, in its counter where it has one, and given to what waits on it (R297, R298). -/
def State.stallBy (s : State) (d code : Nat) (counter : Option Nat) (ns : Nat) (waits : Dom → Dom) : State :=
  let s1 := s.addStretch d code ns
  let s2 := match counter with | some i => s1.bump d pTir i ns | none => s1
  s2.updDom d waits

/-- A flash stall of a page; a Flush is awaited by no slab. -/
def State.flashStall (s : State) (d code : Nat) (counter page : Option Nat) (ns : Nat) : State :=
  s.stallBy d code counter ns (fun x => match page with | some p => x.stallOn p ns | none => x)

/-- The time base at which a transfer is to have ended: the first started slab's start + T_dem, else the planned end of the device's slab that started it; none while neither has one (R297). -/
def Dom.dueOf (x : Dom) (p : Nat) : Option Nat :=
  match x.slabs.find? (fun b => b.state != .ended && b.demDue != 0 && b.demand.contains p) with
  | some b => some b.demDue
  | none => (mapGet x.tir.due p).map Prod.snd

/-! ## Page transfers (R289, R296, R299) -/

/-- Takes one of the 32 migration entries for a page, or lists it as waiting for one (R297). -/
def State.takeMigEntry (s : State) (d p : Nat) : State :=
  s.updDom d (fun x =>
    if x.tir.inflight.length < 32 then { x with tir := { x.tir with inflight := numAdd x.tir.inflight p } }
    else { x with tir := { x.tir with waitingFull := x.tir.waitingFull ++ [(p, s.tik.timeNs)] } })

/-- Starts the transfer of a page that has an entry. -/
def State.startTransfer (s : State) (d p op : Nat) : State :=
  let s1 := s.takeMigEntry d p
  if (s1.dom d).tir.inflight.contains p then s1.nvme d op p else s1

/-- How long a demand read has found all 32 entries held by transfers past their planned ends (R297). -/
def Dom.fullNs (x : Dom) (q t0 nowNs : Nat) : Nat :=
  let dues := x.tir.inflight.map x.dueOf
  if !x.slabs.any (fun b => b.state != .ended && b.demand.contains q) || dues.any Option.isNone then 0
  else nowNs - (dues.filterMap id).foldl max t0

/-- Frees the entry of a page; the first page that waits for one takes it, with MIGRATION_QUEUE_FULL counted (R297). -/
def State.freeEntry (s : State) (d p : Nat) : State :=
  let x := s.dom d
  let s1 := s.updDom d (fun x => { x with tir := { x.tir with inflight := numDel x.tir.inflight p,
                                                              retried := numDel x.tir.retried p, due := mapDel x.tir.due p } })
  match x.tir.waitingFull with
  | [] => s1
  | (q, t0) :: r =>
    let ns := x.fullNs q t0 s.tik.timeNs
    let s2 := s1.updDom d (fun x => { x with tir := { x.tir with waitingFull := r, inflight := numAdd x.tir.inflight q } })
    (if ns = 0 then s2 else s2.flashStall d 0x13 (some 4) (some q) ns).nvme d
      (if (s2.pageEntry d q).state == .down then 1 else 2) q

/-- A free frame of a domain's quota: which of them the device takes, the manual leaves open (log 10). -/
def State.pickFrame (s : State) (d : Nat) : Option Nat × State :=
  let sp := (s.dom d).tir.spare
  let (c, s1) := s.takeFree
  match runsNth sp (Config.freeNat c % max (runsCount sp) 1) with
  | none => (none, s1)
  | some f => (some f, s1.updDom d (fun x => { x with tir := { x.tir with spare := runsCut x.tir.spare f 1 } }))

/-- A move-up that starts: a page that needs no flash read is STACKED at the next latch; else UP and a read (R288, R289). False when no frame is free. -/
def State.startUp (s : State) (d p : Nat) : State × Bool :=
  let e := s.pageEntry d p
  let h := s.homePage d p
  if e.state ≠ .flash then (s, true)
  else if (s.dom h.1).tirFree = 0 then (s, false)
  else
    let (f, s0) := s.pickFrame h.1
    let s1 := (s0.updHome d p (fun y => { y with state := .up, frame := f })).bump d pTir 0 1
    if e.zero then (s1.defer (.pageStacked h.1 h.2), true) else (s1.startTransfer d p 2, true)

/-- An eviction that starts: FLASH at once where no write is needed, else DOWN and a write under the current key (R289, R301). -/
def State.startDown (s : State) (d p : Nat) : State :=
  let e := s.pageEntry d p
  let h := s.homePage d p
  if e.state ≠ .stacked then s
  else
    let s1 := s.bump d pTir 1 1
    if !e.dirty && (e.flashValid || e.zero) then
      ((s1.updDom h.1 (fun x => x.freeFrame h.2)).updHome d p (fun y => { y with state := .flash, frame := none })).unflushed h
    else (s1.updDom h.1 (fun x => x.putEntry h.2 { x.sealed h.1 h.2 with state := .down })).startTransfer d p 1

/-- A demand read: into a frame when one is free, else straight to the slab's operand path; a page that reads as zero needs no read (R288, R296). -/
def State.readPage (s : State) (d p : Nat) : State :=
  if (s.dom (s.homePage d p).1).tirFree = 0 then (if (s.pageEntry d p).zero then s else s.startTransfer d p 2)
  else (s.startUp d p).1

/-- Slabs have pages of a set delivered. -/
def Dom.delivered (x : Dom) (f : Nat → Bool) : Dom :=
  { x with slabs := x.slabs.map (fun b => { b with demand := b.demand.filter (fun q => !f q) }) }

/-- Page `q` of domain `y` that the arrived page `p` of domain `d` answers: the page itself, and, where it fills the page's frame, that of every other domain that has no read of its own under way (R293, R296). -/
def State.readServes (s : State) (d p y q : Nat) (own : List Nat) : Bool :=
  s.homePage y q == s.homePage d p && (y == d || ((s.pageEntry d p).state == .up && !own.contains q))

/-- A page's read has arrived: the slabs that wait on it go on, those of the domain and of every domain it answers (R293, R296). -/
def State.served (s : State) (d p : Nat) : State :=
  (s.doms.map Prod.fst).foldl (fun t y => t.updDom y (fun x => x.delivered (fun q => s.readServes d p y q x.tir.inflight))) s

/-- Slabs that wait on a page complete with FLASH_ERROR, their results withheld (R76, R299). -/
def Dom.flashFails (x : Dom) (p : Nat) : Dom :=
  { x with slabs := x.slabs.map (fun b =>
      if b.demand.contains p then { b with demand := numDel b.demand p, status := b.status.worse .flashError, pageFailed := true } else b) }

/-- Pages that a domain's slabs wait on, of those that are one page of domain 0 or its own. -/
def State.waitedPages (s : State) (y : Nat) (h : Nat × Nat) : List Nat :=
  (((s.dom y).slabs.filter (fun b => b.state != .ended)).flatMap (fun b => b.demand.filter (fun q => s.homePage y q == h))).dedup

/-- Another domain that waits on a page whose move-up has failed starts a read of its own: the failure is the first domain's alone (R299). -/
def State.readAgain (s : State) (d : Nat) (h : Nat × Nat) : State :=
  ((s.doms.map Prod.fst).filter (fun y => y != d)).foldl (fun t y =>
    (t.waitedPages y h).foldl (fun u q =>
      if (u.dom y).tir.inflight.contains q || (u.dom y).tir.waitingFull.any (fun w => w.1 == q) then u else u.readPage y q) t) s

/-- Loads that Cooper abandons because a page of their home image cannot be read (R136). -/
def State.homeFails (s : State) (d p : Nat) : State :=
  ((s.dom d).var_.queue.filter (fun i => i.kind.isLoad && (s.slot i.slot).homeSpans.any (fun x =>
    x.2 != 0 && decide (x.1 / pageBytes ≤ p) && decide (p ≤ (x.1 + x.2 - 1) / pageBytes)))).foldl (fun t i => t.abandonLoad d i.slot) s

/-- A page read or write that fails: retried once on the same queue pair, then the outcome of R289 and R299; `code` is the stretch cause. -/
def State.transferFails (s : State) (d p code ns : Nat) : State :=
  let e := s.pageEntry d p
  let h := s.homePage d p
  let t := (s.dom d).tir
  if !t.inflight.contains p then s
  else if !t.retried.contains p then
    (s.updDom d (fun x => { x with tir := { x.tir with retried := numAdd x.tir.retried p } })).nvme d (if e.state == .down then 1 else 2) p
  else
    let other := s.doms.any (fun y => y.1 != d && y.2.tir.inflight.any (fun q => s.homePage y.1 q == h))
    let s0 := if e.state == .down then s.updHome d p (fun y => { y with state := .stacked })
      else if e.state == .up && !other then
        (s.updDom h.1 (fun x => x.freeFrame h.2)).updHome d p (fun y => { y with state := .flash, frame := none })
      else s
    let s1 := if ns = 0 then s0 else s0.flashStall d code none (some p) ns
    let s2 := (s1.freeEntry d p).updDom d (fun x => x.flashFails p)
    let s3 := if e.state == .down then s2.unflushed h else s2.readAgain d h
    let s4 := if (mapGet t.due p).any (fun q => q.1 == .cooper) then s3.homeFails d p else s3
    (s4.bump d pTir 6 1).raiseDom pTir 1 d

/-- The key sweep reads a flash copy whose tag fails: FLASH_ERROR, and the copy keeps its old slot (R444). -/
def State.sweepTagFails (s : State) (d p : Nat) : State :=
  let k := (s.dom d).keys
  if k.sweepPages.contains (2 * p + 1) then
    ((s.updDom d (fun x => x.updKeys (fun y =>
      { y with sweepPages := numDel y.sweepPages (2 * p + 1), sweepStuck := numAdd y.sweepStuck p }))).bump d pTir 6 1).raiseDom pTir 1 d
  else s

/-- A page read arrives (R289, R297): time beyond its planned end is stretch, a tag that does not verify is a failure of R299. -/
def execPageReadDone (d : Fin 64) (page : Nat) (returned : Option (List Byte)) (nowNs : Nat) (s0 : State) :
    Host.Outcome State Fault Refusal :=
  let s := s0.atTime nowNs
  let n := d.val
  let e := s.pageEntry n page
  let ok := s.tagOk n page returned
  .next (if !(s.dom n).tir.inflight.contains page || e.state == .down then
    (if ok then s else s.sweepTagFails n page)
  else
    let late := nowNs - ((s.dom n).dueOf page).getD nowNs
    let s1 := if late = 0 then s else s.flashStall n 0x10 (some 3) (some page) late
    if !ok then s1.transferFails n page 0x11 0
    else
      let h := s.homePage n page
      let s2 := s1.served n page
      (if e.state == .up then s2.defer (.pageStacked h.1 h.2) else s2).freeEntry n page)

/-- An eviction write completes: FLASH at the next latch (R289). -/
def execPageWriteDone (d : Fin 64) (page : Nat) (s : State) : Host.Outcome State Fault Refusal :=
  let x := s.dom d.val
  let e := s.pageEntry d.val page
  .next (if !x.tir.inflight.contains page || e.state != .down then s
  else
    let h := s.homePage d.val page
    ((s.defer (.pageFlash h.1 h.2)).unflushed h).freeEntry d.val page)

/-- The formats at which a root-port link trains: Gen5 and below, x8 and below on the one link, x4 and below on each of two when BIFUR is 1 (R302, R306). -/
def NvmState.trains (n : NvmState) (link speed width : Nat) : Bool :=
  decide (1 ≤ speed) && decide (speed ≤ 5) && decide (1 ≤ width) &&
    (if n.bifur then decide (width ≤ 4) else link == 0 && decide (width ≤ 8))

/-- A root-port link finishes training and reports its speed and width; a link that the layout does not have, or a format beyond it, never trains (R302). -/
def execRootPortLinkUp (link : Fin 2) (speed width : Nat) (s : State) : Host.Outcome State Fault Refusal :=
  let v := (speed, width)
  .next (if s.boot.nvPerstN && s.nvm.trains link.val speed width then
    { s with nvm := if link.val = 0 then { s.nvm with link0 := v } else { s.nvm with link1 := v } }
  else s)

end Sys2Proof.Machine
end

