-- ==== Sys2Proof/Machine/Access.lean ====
section
/-! DEFINITION. What planning counts of a slab: the stored blocks of its operands by stack, their rates, the regulator tokens, the commons bytes and the pages it touches, and from them the planned time of each kind (R88, R89, R112, R185, R190, R219, R268, R271, R283, R340, R387, R446, R452). -/

namespace Sys2Proof.Machine

/-! ## Blocks and stacks (R255, R271) -/

/-- Adds a run [lo, hi) to ascending runs that do not meet. -/
def runAdd : List (Nat × Nat) → Nat → Nat → List (Nat × Nat)
  | [], lo, hi => [(lo, hi)]
  | (a, b) :: r, lo, hi =>
    if hi < a then (lo, hi) :: (a, b) :: r
    else if b < lo then (a, b) :: runAdd r lo hi
    else runAdd r (min a lo) (max b hi)

/-- The bytes of spans as ascending runs. -/
def byteRuns (spans : List (Nat × Nat)) : List (Nat × Nat) :=
  spans.foldr (fun p l => if p.2 = 0 then l else runAdd l p.1 (p.1 + p.2)) []

/-- The 64-byte blocks that spans meet, as ascending runs of block numbers. -/
def blockRuns (spans : List (Nat × Nat)) : List (Nat × Nat) :=
  spans.foldr (fun p l => if p.2 = 0 then l else runAdd l (p.1 / 64) ((p.1 + p.2 + 63) / 64)) []

/-- Sum of the lengths of runs. -/
def runsLength (rs : List (Nat × Nat)) : Nat := (rs.map (fun p => p.2 - p.1)).sum

/-- Blocks below n that lie on a stack: 64 blocks of every 512 (R255). -/
def stackBelow (stack n : Nat) : Nat := n / 512 * 64 + min 64 (n % 512 - 64 * stack)

/-- Blocks of runs on one stack. -/
def stackBlocks (rs : List (Nat × Nat)) (stack : Nat) : Nat :=
  (rs.map (fun p => stackBelow stack p.2 - stackBelow stack p.1)).sum

/-- R271: 8 × 64 × the count of the busiest stack. -/
def busiestBytes (spans : List (Nat × Nat)) : Nat :=
  let rs := blockRuns spans
  512 * (((List.range 8).map (stackBlocks rs)).foldl max 0)

/-- Regulator tokens of reads: one a block (R268). -/
def readTokens (spans : List (Nat × Nat)) : Nat := runsLength (blockRuns spans)

/-- Regulator tokens of writes: one for a block written whole, two for a part (R268). -/
def writeTokens (spans : List (Nat × Nat)) : Nat :=
  let all := readTokens spans
  let whole := ((byteRuns spans).map (fun p => p.2 / 64 - (p.1 + 63) / 64)).sum
  2 * all - whole

/-! ## The context of a plan -/

/-- What a plan takes from its tick and domain (R309, R317). -/
structure PlanCtx where
  d : Nat
  /-- ACLK in MHz at the clock step of the plan -/
  f : Nat
  /-- RATE and RATE_T in force in the tick being planned -/
  rate : Nat
  rateT : Nat
  /-- RD and WR of TIR_FLASH_RATE and LAT_US of NVM_LAT -/
  rd : Nat
  wr : Nat
  latUs : Nat
  /-- the copy slot that the slab's batch reads, if any -/
  copy : Option Nat
deriving DecidableEq, Repr, Inhabited

/-- Nanoseconds of c clock cycles. -/
def PlanCtx.ns (p : PlanCtx) (c : Rat) : Rat := c * 1000 / p.f

/-- B_dom in bytes per ns for ordinary frames and for T frames (R268). -/
def PlanCtx.bDom (p : PlanCtx) : Rat := (p.rate : Rat) * 512 / 5
def PlanCtx.bDomT (p : PlanCtx) : Rat := (p.rateT : Rat) * 512 / 5

/-- 256 bytes per cycle and bank, in bytes per ns (R88). -/
def PlanCtx.banksRate (p : PlanCtx) (n : Nat) : Rat := (256 * n * p.f : Nat) / 1000

/-- The domain's flash rates in bytes per ns (R295). -/
def PlanCtx.flashRd (p : PlanCtx) : Rat := (p.rd : Rat) / 4
def PlanCtx.flashWr (p : PlanCtx) : Rat := (p.wr : Rat) / 4

/-- Commons banks that spans meet. -/
def banksOf (spans : List (Nat × Nat)) : List Nat :=
  spans.foldl (fun l p => if p.2 = 0 then l
    else (List.range' (p.1 / bankBytes) ((p.1 + p.2 - 1) / bankBytes + 1 - p.1 / bankBytes)).foldl numAdd l) []

/-- One transfer as planning counts it. -/
structure Load where
  /-- time of the transfer, ns -/
  time : Rat := 0
  tokens : Nat := 0
  commons : Nat := 0
  /-- device-virtual spans: address, bytes, written -/
  touch : List (Nat × Nat × Bool) := []
  ordinary : Bool := false
  tFrames : Bool := false
deriving DecidableEq, Repr, Inhabited

def Load.and (a b : Load) : Load :=
  { time := a.time + b.time, tokens := a.tokens + b.tokens, commons := a.commons + b.commons, touch := a.touch ++ b.touch,
    ordinary := a.ordinary || b.ordinary, tFrames := a.tFrames || b.tFrames }

/-- The transfer k times over; k = 0 is none of it. -/
def Load.times (a : Load) (k : Nat) : Load :=
  if k = 0 then {} else { a with time := k * a.time, tokens := k * a.tokens, commons := k * a.commons }

/-- Only the counts of a transfer: its time enters elsewhere. -/
def Load.timeless (a : Load) : Load := { a with time := 0 }

/-- A transfer of spans of a space of the domain, `bytes` where it is the commons; `half` on the DMA transpose path (R78, R88, R271). -/
def PlanCtx.spanLoad (p : PlanCtx) (space : Nat) (spans : List (Nat × Nat)) (bytes : Nat) (write half : Bool) : Load :=
  let k : Rat := if half then 2 else 1
  if bytes = 0 ∧ runsLength spans = 0 then {}
  else if space = 1 then
    { time := k * bytes / p.banksRate (banksOf spans).length, commons := bytes }
  else
    { time := k * busiestBytes spans / p.bDom,
      tokens := if write then writeTokens spans else readTokens spans,
      touch := spans.map (fun q => (q.1, q.2, write)), ordinary := true }

/-- The spans that a base operand on T frames covers, by class offset; the three regions lie where Carter chose (R257; log 10). -/
def octetSpans (o : Opd) (tAt : List Nat) (v0 nv g0 gn : Nat) : List (Nat × Nat) :=
  let (r0, r1, b0, bn) :=
    if o.trans then (32 * g0, 32 * (g0 + gn), v0 / 32, (v0 + nv + 31) / 32 - v0 / 32) else (v0, v0 + nv, g0, gn)
  let r1 := min r1 (8 * ceilDiv (o.rows.getD 0) 8)
  let part (region step unit : Nat) : List (Nat × Nat) :=
    let base := 4096 * tAt.getD region 0
    (List.range' (r0 / 8) (ceilDiv r1 8 - r0 / 8)).flatMap (fun q8 =>
      let lo := max r0 (8 * q8) - 8 * q8
      let hi := min r1 (8 * q8 + 8) - 8 * q8
      (List.range bn).map (fun b => (base + (q8 * o.rowBlocks + b0 + b) * step + lo * unit, (hi - lo) * unit)))
  part 0 (octetBytes o.fmt) (fmtBytes o.fmt) ++
    (if fmtBlock o.fmt then part 1 8 1 else []) ++ (if o.esc then part 2 32 4 else [])

/-- An operand's transfer: `u` is its unique bytes, R88's U, which stacked memory replaces by R271. `t` is the base tensor's number and entry for SPACE 2. -/
def PlanCtx.opLoad (p : PlanCtx) (o : Opd) (t : Option (Nat × Tensor)) (v0 nv g0 gn u : Nat) : Load :=
  if o.space = 2 then
    match t with
    | some (_, x) =>
      if x.onT then
        let spans := octetSpans o x.tAt v0 nv g0 gn
        { time := (busiestBytes spans : Rat) / p.bDomT, tokens := readTokens spans, tFrames := true }
      else
        let spans := opdSpans o v0 nv g0 gn
        { time := (if o.trans then 2 else 1) * (busiestBytes spans : Rat) / p.bDom, tokens := readTokens spans,
          ordinary := true }
    | none => {}
  else p.spanLoad o.space (opdSpans o v0 nv g0 gn) u false o.trans

/-- What a kind plans: T_kind and what R340 and R296 take from it. -/
structure KindPlan where
  time : Rat := 0
  /-- arrays whose power is charged -/
  arrays : Nat := 0
  width : Nat := 8
  nve : Nat := 0
  load : Load := {}
deriving DecidableEq, Repr, Inhabited

/-- The larger of two times. -/
def ratMax (a b : Rat) : Rat := if a < b then b else a
def ratMin (a b : Rat) : Rat := if b < a then b else a

/-! ## BASE_PRODUCT (R88) -/

/-- The base tensor that a column operand names. -/
def State.tensorOf (s : State) (p : PlanCtx) (o : Opd) : Option (Nat × Tensor) :=
  match p.copy with
  | none => none
  | some k => ((s.copy k).tensors[o.elem % 2 ^ 24]?).map (fun t => (o.elem % 2 ^ 24, t))

/-- The column operand as its manifest entry gives it; without an entry the slab ends at its start, and the operand adds nothing. -/
def State.planCol (s : State) (p : PlanCtx) (o : Opd) : Opd :=
  match p.copy with
  | none => o
  | some k => (s.resolveBase k o).getD o

/-- The least width of two operands (R63). -/
def productWidth (a b : Opd) : Nat := min a.width b.width

def State.basePlan (s : State) (p : PlanCtx) (h : Hdr) (b : BaseBody) (reuse : Bool) : KindPlan :=
  let mt := 8 * b.mt8
  let nt := 8 * b.nt8
  let t := s.tensorOf p b.col
  let col := s.planCol p b.col
  let br := vecBytes b.row
  let bc := vecBytes col
  let row := p.opLoad b.row none 0 b.m b.kFirst b.kBlks (roundUp b.m mt * b.kBlks * br)
  let cl := p.opLoad col t 0 b.n b.kFirst b.kBlks (roundUp b.n nt * b.kBlks * bc)
  let e := b.mt8 * b.nt8
  let snapBytes := if h.accCont then h.count * e * 256 else 0
  let snap : Load := { time := (snapBytes : Rat) / p.bDom, tokens := snapBytes / 64, ordinary := h.accCont }
  let w := if t.isSome then productWidth b.row col else b.row.width
  let portRow := mt * b.kBlks * br
  let portCol := nt * b.kBlks * bc
  let (stat, statPort) := if b.sel = 0 then (row, portRow) else (cl, portCol)
  let loads := b.sel != 2 && !reuse
  let tStat := if loads then ratMax (p.ns ((statPort : Rat) / 64)) stat.time else 0
  let port := if b.sel = 0 then portCol else if b.sel = 1 then portRow else portRow + portCol
  let src := if b.sel = 0 then cl.time else if b.sel = 1 then row.time else ratMax row.time cl.time
  let tComp := p.ns ((e * b.kBlks * (32 / w) : Nat) : Rat)
  { time := p.ns 96 + snap.time + tStat + ratMax tComp (ratMax (p.ns ((port : Rat) / 64)) src),
    arrays := h.count, width := w,
    load := snap.timeless.and ((if reuse && b.sel == 0 then {} else row.timeless).and
      (if reuse && b.sel == 1 then {} else cl.timeless)) }

/-! ## VARIANT_PRODUCT (R89, R131) -/

/-- Whether every slot that is held for a slab of a batch (R122) and carries a projection is staged at the version that the batch stamps for it (R131). -/
def State.allStaged (s : State) (d proj : Nat) (batch : Batch) : Bool :=
  s.slots.all (fun p =>
    let e := p.2
    !(bitOf e.projMask.toNat proj) ||
      (match s.stampFor d p.1 e.gen batch with
       | none => true
       | some v => bitOf e.stagedMask.toNat proj && v == e.stagedVer))

/-- A factor transfer: from the staging banks or from the cache, at half rate when transposed. -/
def State.factorLoad (s : State) (p : PlanCtx) (staged half : Bool) (bytes : Nat) : Load :=
  let k : Rat := if half then 2 else 1
  if staged then { time := k * bytes / p.banksRate (s.dom p.d).rec_.nsb, commons := bytes }
  else { time := k * bytes / p.bDom, tokens := ceilDiv bytes 64, ordinary := true }

def State.varPlan (s : State) (p : PlanCtx) (h : Hdr) (b : VarBody) (batch : Batch) : KindPlan :=
  let e := b.mt8 * b.nt8
  let mt := 8 * b.mt8
  let nt := 8 * b.nt8
  let table : Load := { commons := 16 * b.groups }
  if h.sub = 2 then
    let k2 := min b.m (b.m / 32 + b.groups)
    let mout := 32 * b.row.rowBlocks
    let bp := vecBytes b.row
    let bq := vecBytes b.q
    let lp := p.opLoad b.row none 0 mout 0 (ceilDiv b.m 32) (roundUp mout mt * k2 * bp)
    let lq := p.opLoad b.q none 0 b.n 0 (ceilDiv b.m 32) (roundUp b.n nt * k2 * bq)
    let w := productWidth b.row b.q
    let port := mt * k2 * bp + nt * k2 * bq
    { time := p.ns 96 + ratMax (p.ns ((e * k2 * (32 / w) : Nat) : Rat)) (ratMax (p.ns ((port : Rat) / 64)) (ratMax lp.time lq.time)),
      arrays := h.count, width := w, load := table.and (lp.timeless.and lq.timeless) }
  else
    let u := min b.m (b.m / 8 + b.groups)
    let g2 := ceilDiv b.rMax8 4
    let bx := vecBytes b.row
    let (bf, half) := if h.sub = 0 then (17, false) else (49, true)
    let staged := s.allStaged p.d b.proj batch
    let w1 := min b.row.width 16
    let lx := p.opLoad b.row none 0 b.m 0 b.kBlks (u * 8 * b.kBlks * bx)
    let lf1 := s.factorLoad p staged half (u * 8 * b.rMax8 * b.kBlks * bf)
    let cyc1 := ratMax ((b.rMax8 * b.kBlks * (32 / w1) : Nat) : Rat) (((8 * b.kBlks * bx + 8 * b.rMax8 * b.kBlks * bf : Nat) : Rat) / 64)
    let t1 := p.ns ((ceilDiv u h.count : Nat) * cyc1) + ratMax lx.time lf1.time
    let vmax := min mt b.groups
    let hBytes := b.m * 16 * b.rMax8
    let lh := p.spanLoad 1 [(b.hAddr, hBytes)] (roundUp b.m mt * g2 * 64) false false
    let lf2 := s.factorLoad p staged half (vmax * b.n * g2 * bf)
    let t2 := ratMax (p.ns ((e * g2 * 8 : Nat) : Rat))
      (ratMax (p.ns (((mt * g2 * 64 + vmax * nt * g2 * bf : Nat) : Rat) / 64)) (lh.time + lf2.time))
    { time := p.ns 192 + t1 + p.ns ((128 + 8 * b.rMax8 : Nat) : Rat) + t2, arrays := h.count,
      -- stage 2 runs at W = 4, whose power is the lowest (R63, R340)
      width := w1,
      nve := h.nve,
      load := table.and (({ commons := hBytes } : Load).and ((lx.timeless.and lf1.timeless).and (lh.timeless.and lf2.timeless))) }

/-! ## VECTOR_CHAIN (R112) -/

/-- Bytes of a tensor on padded sizes: 8⌈ROWS / 8⌉ rows of ⌈COLS / 32⌉ blocks (R112). -/
def paddedBytes (o : Opd) (rows cols : Nat) : Nat :=
  roundUp rows 8 * ceilDiv cols 32 * (fmtBytes o.fmt + bit01 (fmtBlock o.fmt) + (if o.esc then 4 else 0))

/-- The spans of a stored tensor. -/
def tensorSpans (o : Opd) (rows blocks : Nat) : List (Nat × Nat) := (tensorRegions o rows blocks).map (fun r => (r.2.1, r.2.2))

def State.chainPlan (s : State) (p : PlanCtx) (h : Hdr) (b : ChainBody) : KindPlan :=
  let kb := ceilDiv b.cols 32
  let stoch := match b.convert? with
    | some x => (match convOf s.recipe (s.dom p.d).rec_.kln3Grad x.tkind x.ovr with | some c => c.round == 1 | none => false)
    | none => false
  let lane := (b.laneCycles h.first h.count stoch).foldl max 0
  let passes := if b.hasRowstat then 2 else 1
  let src := if b.srcTensor then
      (p.spanLoad b.src.space (tensorSpans b.src b.rows kb) (paddedBytes b.src b.rows b.cols) false false).times passes
    else {}
  let sink := if b.sinkTensor then
      p.spanLoad b.sink.space (tensorSpans b.sink b.rows kb) (paddedBytes b.sink b.rows b.cols) true false
    else {}
  let nvec := ceilDiv b.rows 8 * ceilDiv b.cols 8
  let vecs := b.stages.foldl (fun (l : Load) x =>
    if (3 ≤ x.op ∧ x.op ≤ 6) ∨ x.op = 0x0D then
      let spans := ({ b with stages := [x] } : ChainBody).stageReads
      l.and { time := ((32 * nvec : Nat) : Rat) / p.banksRate (banksOf spans).length, commons := 32 * nvec }
    else l) {}
  { time := p.ns 128 + ratMax (p.ns (lane : Rat)) (ratMax (src.time + vecs.time) sink.time),
    nve := h.nve, load := src.timeless.and (vecs.timeless.and sink.timeless) }

/-! ## UPDATE_PASS (R185, R190) -/

/-- Bytes of a block of a stream (R185). -/
def UStream.blockBytes (x : UStream) : Nat :=
  match x.skind with
  | 0 => fmtBytes x.op.fmt + bit01 (fmtBlock x.op.fmt) + (if x.op.esc then 4 else 0)
  | 1 => 49
  | 2 => 4
  | _ => 128

/-- Whether the program reads stream i: LD, RADD and CVTW of a factor's residue, and every VERIFY stream and COPY source do. -/
def UpdBody.reads (b : UpdBody) (sub i : Nat) : Bool :=
  (sub == 5 && i == 0) || (b.at i).role == 2 ||
    b.ops.any (fun x => (x.op == 0x01 && x.sub == 0 && x.a == i) || (x.op == 0x09 && x.b == i))

/-- The transfer of a stream, one way. -/
def State.streamLoad (s : State) (p : PlanCtx) (b : UpdBody) (sub : Nat) (x : UStream) (write : Bool) : Load :=
  if x.skind = 1 then
    let e := s.slot x.slot
    let (rows, k, off) := factorShape e x.proj x.fac
    let nb := rows * ceilDiv k 32
    let (eo, so, ro, _) := factorRegions rows k off e.train
    { (p.spanLoad 0 [(eo, 16 * nb), (so, nb), (ro, 32 * nb)] (49 * nb) write false) with touch := [] }
  else
    let spans := if sub = 5 then [(x.op.elem, 49 * b.nBlk)] else (b.regions x).map (fun r => (r.2.1, r.2.2))
    p.spanLoad x.op.space spans (b.nBlk * (if sub = 5 then 49 else x.blockBytes)) write false

def State.updPlan (s : State) (p : PlanCtx) (h : Hdr) (b : UpdBody) : KindPlan :=
  let kln3 := (s.dom p.d).rec_.kln3Grad
  let lane := if h.sub = 5 then 0 else ceilDiv (ceilDiv b.nBlk 2) h.nve * b.cost s.recipe kln3
  let mem := (b.streams.zipIdx).foldl (fun (l : Load) q =>
    let rd := if b.reads h.sub q.2 then s.streamLoad p b h.sub q.1 false else {}
    let wr := if q.1.role = 1 ∧ b.writes h.sub q.2 ≠ 0 then s.streamLoad p b h.sub q.1 true
      else if q.1.role = 2 then s.streamLoad p b h.sub q.1 false else {}
    l.and (rd.and wr)) {}
  let norm : Load := { commons := if h.sub = 1 then 8 else 0 }
  { time := p.ns 128 + ratMax (p.ns (lane : Rat)) mem.time + (if h.sub = 1 then p.ns ((6 + h.nve : Nat) : Rat) else 0),
    nve := h.nve, load := mem.timeless.and norm }

def State.rootPlan (p : PlanCtx) (h : Hdr) (b : RootBody) : KindPlan :=
  let n := b.n
  let v := ceilDiv (n * n) (64 * h.nve)
  let pit := if b.p4 then 5 else 3
  let sLoad := (p.spanLoad b.sOp.space (tensorSpans b.sOp n (2 * b.n64)) (4 * n * n) false false).times 2
  let work := p.spanLoad b.workSpace [(b.work, 4 * n * n)] (4 * n * n) false false
  let wout := p.spanLoad b.workSpace [(b.work, 2 * n * n)] (2 * n * n) true false
  let root := p.spanLoad b.rootOp.space (tensorSpans b.rootOp n (2 * b.n64)) (2 * n * n) true false
  let tmm := ratMax (p.ns ((ceilDiv (b.n64 * b.n64) h.count * 16 * n : Nat) : Rat)) work.time
  { time := p.ns 256 + ratMax (p.ns ((2 * v : Nat) : Rat)) sLoad.time +
      b.iters * (pit * tmm + p.ns (((pit + 2) * v : Nat) : Rat)) + (p.ns ((3 * v : Nat) : Rat) + root.time),
    arrays := h.count, width := 4, nve := h.nve,
    load := sLoad.timeless.and (((work.and wout).timeless.times (b.iters * pit)).and root.timeless) }

/-! ## ATTENTION (R219) -/

/-- The device-virtual rows that the slab's list reaches (R296). -/
def State.attTouch (s : State) (h : Hdr) (b : AttBody) : List (Nat × Nat × Bool) :=
  let es := (s.attList b).1
  let rows := (es.map AttEntry.nq).sum * b.hKv * b.gq
  let keys := (es.map AttEntry.keyHi).sum * b.hKv
  let news := (es.map AttEntry.new_).sum * b.hKv
  let one (o : Opd) (n : Nat) (w : Bool) : List (Nat × Nat × Bool) :=
    if o.space = 0 ∧ n ≠ 0 then (tensorSpans o n b.d32).map (fun q => (q.1, q.2, w)) else []
  let kv := if b.tensor then keys else if b.append = 0 then 0 else news
  one b.q rows false ++ one b.k kv false ++ one b.v kv false ++ one b.o rows (h.sub == 0) ++
    (if h.sub = 0 then [] else one b.dO rows false ++ one b.dQ rows true ++ one b.dK keys true ++ one b.dV keys true)

/-- The mask map entries of the slab's list and the bitmap tiles that they name, in commons (R199, R219; log 147). -/
def State.maskSpans (s : State) (b : AttBody) : List (Nat × Nat) :=
  if b.maskMap = 0xFFFFFFFF then []
  else (s.attList b).1.flatMap (fun e =>
    let n := ((e.qPos0 + e.nq - 1) / 64 - e.qPos0 / 64 + 1) * e.tiles
    let a := b.maskMap + 4 * e.maskFirst
    let ws := (List.range n).map (fun i => ofLe ((s.rdCommons (a + 4 * i) 4).1))
    (a, 4 * n) :: (ws.filter (fun w => w % 4 == 2)).map (fun w => (b.bitmap + 512 * bitsOf w 2 30, 512)))

/-- The keys and values of a slab's tiles, and the gradients that a BACKWARD slab writes (R219): the operand, the bytes of one pass at the full rate that its time counts, and the bytes moved, for each of D32 and tile. Values are read on the DMA path at half rate; a BACKWARD slab reads its keys there as well, for dQ. -/
def AttBody.kvParts (b : AttBody) (back : Bool) : List (Opd × Nat × Nat) :=
  if back then [(b.k, 6336, 4224), (b.v, 2112, 2112), (b.dK, 8192, 8192), (b.dV, 8192, 8192)]
  else [(b.k, 2112, 2112), (b.v, 4224, 2112)]

/-- The rows of the operands that a slab's list names, each row once (R340): queries, outputs, gradients, and the new rows of an append. -/
def State.attRows (s : State) (p : PlanCtx) (h : Hdr) (b : AttBody) : Load :=
  let es := (s.attList b).1
  let rows := (es.map AttEntry.nq).sum * b.hKv * b.gq
  let news := (es.map AttEntry.new_).sum * b.hKv
  let one (o : Opd) (n : Nat) (write : Bool) : Load :=
    let spans := tensorSpans o n b.d32
    p.spanLoad o.space spans (spans.map Prod.snd).sum write false
  let io := (one b.q rows false).and (one b.o rows (h.sub == 0))
  let grads := if h.sub = 0 then {} else (one b.dO rows false).and (one b.dQ rows true)
  let app := if b.tensor ∨ b.append = 0 then {} else (one b.k news false).and (one b.v news false)
  { (io.and (grads.and app)).timeless with commons := (io.and (grads.and app)).commons + (if b.lse = 0 then 0 else 4 * rows), touch := [] }

/-- p_arr at step 0, W, by width (R340). -/
def arrayWatts (w : Nat) : Rat := if 32 ≤ w then 0.150 else if 16 ≤ w then 0.160 else if 8 ≤ w then 0.140 else 0.120

/-- The width whose array power is the largest of those that a slab uses (R340). -/
def dearestWidth (ws : List Nat) : Nat := ws.foldl (fun m w => if arrayWatts m < arrayWatts w then w else m) 4

def State.attPlan (s : State) (p : PlanCtx) (h : Hdr) (b : AttBody) : KindPlan :=
  let back := h.sub != 0
  let wk := if b.tensor then fmtWidth b.k.fmt else 8
  let wv := if b.tensor then fmtWidth b.v.fmt else 8
  let w := min (fmtWidth b.q.fmt) wk
  let cTile := b.ur8 * b.d32 * (256 / w + 32) * (if back then 3 else 1)
  let cVe := b.ur8 * (96 + 8 * b.d32) * (if back then 2 else 1)
  let tArr := p.ns (((ceilDiv b.tileSum h.count + 2 * b.ktMax) * cTile : Nat) : Rat)
  let tVe := p.ns (((ceilDiv b.tileSum h.nve + b.ktMax) * cVe : Nat) : Rat)
  let keys := ((s.attList b).1.map AttEntry.keyHi).sum * b.hKv
  let parts := b.kvParts back
  let inCommons (o : Opd) : Bool := b.tensor && o.space == 1
  let banks := (banksOf ((parts.filter (fun q => inCommons q.1)).flatMap (fun q => tensorSpans q.1 keys b.d32))).length
  let rate (o : Opd) : Rat := if inCommons o then p.banksRate (max banks 1) else p.bDom
  let tKv : Rat := (parts.map (fun q => ((b.tileSum * q.2.1 * b.d32 : Nat) : Rat) / rate q.1)).sum
  let moved (c : Bool) : Nat := b.tileSum * b.d32 * ((parts.filter (fun q => inCommons q.1 == c)).map (fun q => q.2.2)).sum
  let mapBytes := if b.maskMap = 0xFFFFFFFF then 0 else b.tileSum * 512
  let tMap : Rat := (mapBytes : Rat) / p.banksRate (max (banksOf (s.maskSpans b)).length 1)
  let appBytes := b.appRows * (s.dom p.d).kvp.bpt
  let tApp := p.ns 64 + (appBytes : Rat) / p.bDom
  let rows := s.attRows p h b
  { time := p.ns 256 + tApp + ratMax (ratMax tArr tVe) (ratMax tKv tMap), arrays := h.count,
    -- score, value and, in a BACKWARD slab, dP, dV and the BF16 products of dK and dQ
    width := dearestWidth (w :: min 8 wv :: (if back then [min (fmtWidth b.dO.fmt) wv, min 8 (fmtWidth b.dO.fmt), 4] else [])), nve := h.nve,
    load := rows.and
      { tokens := ceilDiv (moved false) 64 + ceilDiv appBytes 64, commons := moved true + mapBytes + 24 * b.nSeq,
        touch := s.attTouch h b, ordinary := !(b.tensor && parts.all (fun q => inCommons q.1)) || b.append != 0 } }

/-! ## COLLECTIVE (R386, R387) -/

/-- Half ports of the links of a route, with the class slots, in bytes per ns: R_slot is 4.3847 GB/s for a full port (R371). -/
def State.linkRate (s : State) (tag : Nat) (l : Nat × Nat) : Rat := (s.linkSlots tag l : Rat) * 43847 / 20000

/-- The least rate of the links of a ring's routes, each divided by the routes that use it (R_ring of R387). -/
def State.ringRate (s : State) (tag : Nat) (routes : List (List (Nat × Nat))) : Option Rat :=
  let all := routes.flatMap id
  all.foldl (fun m l =>
    let r := s.linkRate tag l / (all.filter (fun x => x == l)).length
    match m with | none => some r | some x => some (ratMin x r)) none

/-- Latency of the longest step route, ns (R387). -/
def stepNs (routes : List (List (Nat × Nat))) : Nat :=
  200 + ((routes.map (fun r => (r.map (fun l => hopNs l.2)).sum)).foldl max 0)

/-- Bytes that one device sends on a ring (V of R387). -/
def CollBody.ringBytes (b : CollBody) (sub k : Nat) : Nat :=
  let e := b.ringElems k
  let size := dtypeBytes b.dtype
  if sub ≤ 2 then b.steps sub * ceilDiv e b.nDev * size
  else if sub = 3 then b.bytes
  else if sub = 7 then 64
  else if sub = 6 then 64 * (b.bytes / slotBytes b.dtype b.sfmt)
  else b.bytes

/-- Local spans read and written: space, address, bytes, written. -/
def CollBody.localSpans (b : CollBody) (sub : Nat) : List (Nat × Nat × Nat × Bool) :=
  let n := b.bytes
  let src := (b.srcSpace, b.src, n, false)
  let dst := (b.dstSpace, b.dst, n, true)
  match sub with
  | 4 => [src]
  | 5 => [dst]
  | 6 => src :: (if slotBytes b.dtype b.sfmt = 32 then [(b.srcSpace, b.scale, n / 32, false)] else [])
  | 7 => [(b.srcSpace, b.src, 24, true)]
  | _ => [src, dst]

def State.collPlan (s : State) (p : PlanCtx) (h : Hdr) (b : CollBody) : KindPlan :=
  let tag := (s.dom p.d).col.ptag
  let routes := s.collRoutes h.sub b
  let steps := if h.sub ≤ 3 then b.steps h.sub else if h.sub = 5 then 2 else 1
  let ring := ((routes.zipIdx).map (fun q =>
    match s.ringRate tag q.1 with
    | none => (0 : Rat)
    | some r => (b.ringBytes h.sub q.2 : Rat) / r)).foldl ratMax 0
  let loads := (b.localSpans h.sub).foldl (fun (l : Load) q =>
    l.and (p.spanLoad q.1 [(q.2.1, q.2.2.1)] q.2.2.1 q.2.2.2 false)) {}
  { time := 1000 + (steps * stepNs (routes.flatMap id) : Nat) + ratMax ring loads.time, load := loads.timeless }

/-! ## MIGRATION and SCRUB (R283, R291, R446, R452) -/

/-- A copy from SRC to DST (R283, R446): addresses, spaces, KEY and BYTES. -/
structure MoveBody where
  src : Nat
  srcSpace : Nat
  key : Nat
  dst : Nat
  dstSpace : Nat
  bytes : Nat
deriving DecidableEq, Repr, Inhabited

def moveBody (ws : List W64) : MoveBody :=
  { src := wfld ws 4 0 48, srcSpace := wfld ws 4 48 1, key := wfld ws 4 49 2, dst := wfld ws 5 0 48,
    dstSpace := wfld ws 5 48 1, bytes := wfld ws 6 0 40 }

/-- Whether a device-virtual span meets a page that is held in the flash tier. -/
def State.inFlash (s : State) (d a n : Nat) : Bool :=
  n != 0 && (List.range' (a / pageBytes) ((a + n - 1) / pageBytes + 1 - a / pageBytes)).any (fun q =>
    (s.pageEntry d q).state == .flash && !(s.pageEntry d q).zero)

/-- One side of a KLN3_MOVE: B_dom, or the domain's flash rate, which is R_rd, for a far page in the flash tier (R283, R295). -/
def State.moveSide (s : State) (p : PlanCtx) (a n : Nat) (write : Bool) : Load :=
  let l := p.spanLoad 0 [(a, n)] n write false
  if s.inFlash p.d a n then { l with time := (n : Rat) / p.flashRd } else l

def State.movePlan (s : State) (p : PlanCtx) (b : MoveBody) : KindPlan :=
  let src := s.moveSide p b.src b.bytes false
  let dst := s.moveSide p b.dst b.bytes true
  { time := p.ns 256 + src.time + dst.time, load := { (src.and dst).timeless with touch := [] } }

/-- SEAL and UNSEAL (R446): the object has 128 bytes more than the plaintext. -/
def sealPlan (p : PlanCtx) (sub : Nat) (b : MoveBody) : KindPlan :=
  let k := b.bytes + 128
  let (ns, nd) := if sub = 3 then (b.bytes, k) else (k, b.bytes)
  let src := p.spanLoad b.srcSpace [(b.src, ns)] ns false false
  let dst := p.spanLoad b.dstSpace [(b.dst, nd)] nd true false
  { time := p.ns 256 + ratMax (p.ns ((k : Rat) / 256)) (src.time + dst.time), load := (src.and dst).timeless }

def scrubPlan (p : PlanCtx) (count : Nat) : KindPlan :=
  { time := p.ns 256 + ((4194304 * count : Nat) : Rat) / p.bDom, load := { tokens := 65536 * count, ordinary := true } }

/-- T_kind and the counts of a submitted slab (R318). -/
def State.kindPlan (s : State) (p : PlanCtx) (ws : List W64) (batch : Batch) (reuse : Bool) : KindPlan :=
  let h := hdrOf ws
  match h.kind with
  | 1 => s.basePlan p h (baseBody ws) reuse
  | 2 => s.varPlan p h (varBody ws) batch
  | 3 => s.attPlan p h (attBody ws)
  | 4 => s.chainPlan p h (chainBody ws)
  | 5 => if h.sub = 4 then State.rootPlan p h (rootBody ws) else s.updPlan p h (updBody ws)
  | 6 => s.collPlan p h (collBody ws)
  | 7 => if h.sub = 2 then { time := p.ns 64 }
    else if h.sub = 15 then s.movePlan p (moveBody ws) else sealPlan p h.sub (moveBody ws)
  | _ => scrubPlan p (wfld ws 4 27 16)

/-! ## Energy (R337, R340) -/

/-- ACLK at a clock step, MHz (R63). -/
def stepMHz (k : Nat) : Nat := 2100 - 70 * k

end Sys2Proof.Machine
end

