-- ==== Sys2Proof/Machine/Migration.lean ====
section
/-! DEFINITION. MIGRATION slabs that software submits, and SCRUB slabs: the KLN3 move (R283), HINT (R291), SEAL and UNSEAL (R445, R446), SCRUB (R452). -/

namespace Sys2Proof.Machine

/-! ## Checks when the descriptor arrives -/

/-- The bytes of a space lie where the domain may name them (R14, R287). -/
def State.spaceOk (s : State) (d space a n : Nat) : Bool :=
  if space = 0 then s.inRange d a n else s.inCommons d a n

/-- KLN3_MOVE (R283): KLN3 memory mode, aligned, in one window each, not overlapping. -/
def State.moveArrives (s : State) (d : Nat) (h : Hdr) (b : MoveBody) : Bool :=
  h.bodyWords == 3 && h.batch == 0 && (s.dom d).rec_.kln3Mem && b.bytes != 0 && b.bytes % 64 == 0 && b.src % 64 == 0 &&
  b.dst % 64 == 0 && s.inRange d b.src b.bytes && s.inRange d b.dst b.bytes &&
  (decide (b.src + b.bytes ≤ b.dst) || decide (b.dst + b.bytes ≤ b.src))

/-- SEAL and UNSEAL (R446), with the lengths of both sides. -/
def sealSizes (sub bytes : Nat) : Nat × Nat := if sub = 3 then (bytes, bytes + 128) else (bytes + 128, bytes)

def State.sealArrives (s : State) (d : Nat) (h : Hdr) (b : MoveBody) : Bool :=
  let n := sealSizes h.sub b.bytes
  h.bodyWords == 3 && b.bytes != 0 && b.bytes % 64 == 0 && b.src % 64 == 0 && b.dst % 64 == 0 &&
  s.spaceOk d b.srcSpace b.src n.1 && s.spaceOk d b.dstSpace b.dst n.2

/-- SCRUB (R452). -/
def State.scrubArrives (s : State) (h : Hdr) : Bool :=
  h.bodyWords == 1 && h.batch == 0 && s.live 0

/-! ## What they do -/

/-- HINT acts as the matching command of the TIR page (R291); COUNT 0 is BAD_ARG as there. -/
def State.runHint (s : State) (d : Nat) (ws : List W64) : RunResult :=
  let page := wfld ws 4 0 27
  let count := wfld ws 4 27 16
  let act (t : State) (p : Nat) : State × Nat :=
    match wfld ws 4 43 2 with
    | 0 => t.moveUpPage d p
    | 1 => t.evictPage d p
    | 2 => t.pinPage d p
    | _ => t.unpinPage d p
  if count = 0 then { st := s, status := .hint 0x05 }
  else
    let r := s.tierPages d act count page 0 0
    { st := r.1, status := if r.2.1 ≤ 1 then .done else .hint r.2.1 }

/-- Reads and writes of one side (R446). -/
def State.rdSide (s : State) (d space a n : Nat) : List Byte × Bool :=
  if space = 0 then s.rdMem d a n else s.rdCommons a n

def State.wrSide (s : State) (d space a : Nat) (bs : List Byte) : State :=
  if space = 0 then s.wrMem d a bs else s.wrCommons a bs

/-- KLN3_MOVE: a copy; poison in the source withholds it (R283, R261; log 55). -/
def State.runMove (s : State) (d : Nat) (b : MoveBody) : RunResult :=
  let r := s.rdMem d b.src b.bytes
  if r.2 then { st := s, status := .dataPoison } else { st := s.wrMem d b.dst r.1 }

/-- The 64-byte header of a sealed object (R446). -/
def sealHeader (key bytes : Nat) (nonce : List Byte) : List Byte :=
  leBytes 4 0x4C414553 ++ leBytes 1 (key % 4) ++ leBytes 3 0 ++ nonce ++ leBytes 4 0 ++ leBytes 8 bytes ++ leBytes 32 0

/-- SEAL: header, ciphertext, tag and padding (R446). -/
def State.runSeal (s : State) (d : Nat) (b : MoveBody) : RunResult :=
  match mapGet (s.dom d).keys.exports b.key with
  | none => { st := s, status := .descInvalid }
  | some key =>
    let r := s.rdSide d b.srcSpace b.src b.bytes
    if r.2 then { st := s, status := .dataPoison }
    else
      let (i, s1) := s.takeDraw
      let nonce := leBytes 12 (Config.draw i).toNat
      let hd := sealHeader b.key b.bytes nonce
      let k := ofLe key
      let ct := gcmData k (ofLe nonce) r.1
      { st := s1.wrSide d b.dstSpace b.dst (hd ++ ct ++ gcmTag k (ofLe nonce) hd ct ++ leBytes 48 0) }

/-- Whether a header is one that UNSEAL takes (R446). -/
def sealHeaderOk (hd : List Byte) (bytes : Nat) : Bool :=
  ofLe (hd.take 4) == 0x4C414553 && ofLe ((hd.drop 4).take 1) < 4 && ofLe ((hd.drop 5).take 3) == 0 &&
  ofLe ((hd.drop 20).take 4) == 0 && ofLe ((hd.drop 24).take 8) == bytes && ofLe ((hd.drop 32).take 32) == 0

/-- UNSEAL: the plaintext, or FORMAT_FAULT with free bytes at DST (R446; log 6). -/
def State.runUnseal (s : State) (d : Nat) (b : MoveBody) : RunResult :=
  match mapGet (s.dom d).keys.exports b.key with
  | none => { st := s, status := .descInvalid }
  | some key =>
    let r := s.rdSide d b.srcSpace b.src (b.bytes + 128)
    if r.2 then { st := s, status := .dataPoison }
    else
      let hd := r.1.take 64
      let ct := (r.1.drop 64).take b.bytes
      let tag := (r.1.drop (64 + b.bytes)).take 16
      let k := ofLe key
      let nonce := ofLe ((hd.drop 8).take 12)
      if sealHeaderOk hd b.bytes && (tag == gcmTag k nonce hd ct) then
        { st := s.wrSide d b.dstSpace b.dst (gcmData k nonce ct) }
      else
        let (i, s1) := s.takeFree
        { st := s1.wrSide d b.dstSpace b.dst ((List.range b.bytes).map (Config.freeByte i)), status := .formatFault }

/-- A page that SCRUB may take: STACKED, not pinned, not SHARED (R452); base pages lie in no domain's range here. -/
def State.scrubPageOk (s : State) (p : Nat) : Bool :=
  s.pageInRange 0 p && ((s.dom 0).entry p).state == .stacked && !s.pinnedPage 0 p &&
    !(s.doms.any (fun y => y.2.tir.pages.any (fun e => e.2.shared == some p)))

/-- Pages of a domain overwritten: they read as zeros, and no block of them is poisoned (R452). -/
def Dom.scrubPages (x : Dom) (ps : List Nat) : Dom :=
  ps.foldl (fun (y : Dom) p => y.wipePage p { y.entry p with zero := true, dirty := false }) x

/-- SCRUB: the pages' frames are overwritten and the pages read as ZERO (R447, R452). -/
def State.runScrub (s : State) (ws : List W64) : RunResult :=
  let ps := List.range' (wfld ws 4 0 27) (wfld ws 4 27 16)
  if !ps.all s.scrubPageOk then { st := s, status := .descInvalid }
  else
    { st := s.updDom 0 (fun x => x.scrubPages ps) }

/-- A submitted MIGRATION slab from its start (R291, R283, R446). -/
def State.runMigration (s : State) (d : Nat) (ws : List W64) : RunResult :=
  match (hdrOf ws).sub with
  | 2 => s.runHint d ws
  | 3 => s.runSeal d (moveBody ws)
  | 4 => s.runUnseal d (moveBody ws)
  | _ => s.runMove d (moveBody ws)

end Sys2Proof.Machine
end

