-- ==== Sys2Proof/Machine/Arrive.lean ====
section
/-! DEFINITION. The checks of a descriptor, by kind: those made when it arrives and those that hold whatever its tag (R23, R140, R282, R293, R323). -/

namespace Sys2Proof.Machine

/-- The check that a kind's own chapter defines for its body (R82, R84, R193, R107, R184, R186, R389, R283, R291, R446, R452). -/
def State.bodyFits (s : State) (d : Nat) (ws : List W64) : Bool :=
  let h := hdrOf ws
  match h.kind with
  | 1 => s.baseArrives d h (baseBody ws)
  | 2 => s.varArrives d h (varBody ws)
  | 3 => s.attArrives d h ws
  | 4 => s.chainArrives d h (chainBody ws)
  | 5 => if h.sub = 4 then s.rootArrives d h (rootBody ws) else s.updArrives d h (updBody ws)
  | 6 => s.collArrives d h (collBody ws)
  | 7 =>
    if h.sub = 2 then h.bodyWords == 1
    else if h.sub = 15 then s.moveArrives d h (moveBody ws) else s.sealArrives d h (moveBody ws)
  | _ => s.scrubArrives h

/-- The real-time rows of R323. -/
def State.rtFits (s : State) (d : Nat) (h : Hdr) : Bool :=
  let x := s.dom d
  let lo := 128 * x.rtFirst
  let hi := 128 * (x.rtFirst + x.rtUnits)
  if h.count = 0 then true
  else if h.rt then decide (lo ≤ h.first) && decide (h.first + h.count ≤ hi)
  else x.rtUnits == 0 || decide (h.first + h.count ≤ lo) || decide (hi ≤ h.first)

/-- The device-virtual spans that a slab names: address, bytes, and whether it writes them. -/
def State.slabTouches (s : State) (d : Nat) (ws : List W64) : List (Nat × Nat × Bool) :=
  let h := hdrOf ws
  let b := moveBody ws
  match h.kind with
  | 6 => ((collBody ws).localSpans h.sub).filterMap (fun q => if q.1 = 0 then some q.2 else none)
  | 7 =>
    if h.sub = 2 then []
    else if h.sub = 15 then [(b.src, b.bytes, false), (b.dst, b.bytes, true)]
    else
      let n := sealSizes h.sub b.bytes
      (if b.srcSpace = 0 then [(b.src, n.1, false)] else []) ++ (if b.dstSpace = 0 then [(b.dst, n.2, true)] else [])
  | _ =>
    (s.kindPlan { d := d, f := 2100, rate := 1, rateT := 1, rd := 1, wr := 1, latUs := 0, copy := none } ws
      { id := h.batch, openTick := 0, baseGen := 0, stamps := [] } false).load.touch

/-- A written span that touches the domain's expert tables (R140) or a shared page (R293). -/
def State.writesForbidden (s : State) (d a n : Nat) : Bool :=
  let x := s.dom d
  let meets (lo len : Nat) : Bool := n != 0 && decide (lo < a + n) && decide (a < lo + len)
  (x.rec_.cachePages != 0 && meets x.extBase 131072) ||
    x.tir.pages.any (fun p => p.2.shared.isSome && meets (pageBytes * p.1) pageBytes)

/-- R140, R293 and, in KLN3 memory mode, R282. -/
def State.touchesFit (s : State) (d : Nat) (ws : List W64) : Bool :=
  let h := hdrOf ws
  (s.slabTouches d ws).all (fun t =>
    !(t.2.2 && s.writesForbidden d t.1 t.2.1) &&
    !((s.dom d).rec_.kln3Mem && 1 ≤ h.kind && h.kind ≤ 5 && decide (2 ^ 37 < t.1 + t.2.1)))

/-- The pages that spans touch, each with whether it is written. -/
def touchPages (touch : List (Nat × Nat × Bool)) : List (Nat × Bool) :=
  touch.foldl (fun l t =>
    if t.2.1 = 0 then l
    else (List.range' (t.1 / pageBytes) ((t.1 + t.2.1 - 1) / pageBytes + 1 - t.1 / pageBytes)).foldl (fun m p =>
      mapSet m p (t.2.2 || (mapGet m p).getD false)) l) []

/-- Every check of a descriptor but that of its tag (R23). -/
def State.slabFits (s : State) (d : Nat) (ws : List W64) : Bool :=
  s.hdrFits d (hdrOf ws) && s.rtFits d (hdrOf ws) && s.bodyFits d ws && s.touchesFit d ws

/-- The checks made when a descriptor arrives (R23). -/
def State.slabArrives (s : State) (d : Nat) (ws : List W64) : Bool :=
  s.hdrOk d (hdrOf ws) && s.slabFits d ws

/-! ## Stationary operands of slabs that load nothing (R69) -/

/-- The generation that a batch stamps now; 0 while no copy is ACTIVE (R237). -/
def State.stampGen (s : State) : Nat := match s.activeCopy with | some k => (s.copy k).gen | none => 0

/-- The generation that a slab's batch has stamped, or will stamp at this latch (R309). -/
def State.genFor (s : State) (d id : Nat) : Nat :=
  match (s.dom d).batch? id with | some b => b.baseGen | none => s.stampGen

/-- Arrays whose operand buffers a slab uses. -/
def bufferArrays (ws : List W64) : Nat × Nat :=
  let h := hdrOf ws
  let b := baseBody ws
  (h.first, h.first + (if h.kind = 1 then min (tileCount b.m b.n b.mt8 b.nt8) h.count else h.count))

/-- The key by which R69 compares a slab. -/
def State.reuseKeyOf (s : State) (d : Nat) (ws : List W64) : List W64 :=
  reuseKey ws (if (hdrOf ws).kind = 1 then (match s.copyOfGen (s.genFor d (hdrOf ws).batch) with
    | some k => (s.copy k).gen
    | none => 0) else 0)

/-- A slab that uses operand buffers completes without having loaded one: DESC_INVALID, DEP_FAILED or BASE_UNAVAILABLE (R69). -/
def State.noteUnloaded (s : State) (d order : Nat) (ws : List W64) : State :=
  if (hdrOf ws).usesBuffers then
    let r := bufferArrays ws
    s.noteOperand d r.1 (r.2 - r.1) order (s.reuseKeyOf d ws) false
  else s

/-! ## Credits (R411, R408) -/

/-- LIMIT rises by a descriptor's words, once per slab; vector 1 goes out when it has risen by 1,024 since its last message (R408, R411). -/
def State.returnCredit (s : State) (d words : Nat) : State :=
  let limit := (s.dom d).queue.limit + words
  let s1 := s.updDom d (fun x => x.updQueue (fun q => { q with limit := limit }))
  let last := (mapGet s.pci.creditMsg d).getD 16384
  if last + 1024 ≤ limit then
    (s1.updPci (fun p => { p with creditMsg := mapSet p.creditMsg d limit })).msix d 1
  else s1

/-- Changes the slab with a submission number. -/
def Dom.updSlab (x : Dom) (order : Nat) (f : Slab → Slab) : Dom :=
  { x with slabs := x.slabs.map (fun b => if b.order = order then f b else b) }

def State.updSlab (s : State) (d order : Nat) (f : Slab → Slab) : State := s.updDom d (fun x => x.updSlab order f)

/-- Shared poison read now: the tick from which the slab's replay may be planned: the next one, or the one after once the plan of the next is fixed (R243). -/
def State.replayFrom (s : State) : Nat := s.tik.tick + 1 + bit01 s.tik.cutoffPassed

/-- Returns a slab's credits, if they have not been returned (R411). -/
def State.creditSlab (s : State) (d : Nat) (b : Slab) : State :=
  if b.creditReturned then s
  else (s.updSlab d b.order (fun c => { c with creditReturned := true })).returnCredit d b.words.length

/-- The batch that a slab with BATCH_END names closes when the slab completes, whatever its status (R21, R22, R25; log 72). -/
def State.endBatch (s : State) (d : Nat) (ws : List W64) : State :=
  let h := hdrOf ws
  if h.batchEnd ∧ h.batch ≠ 0 then
    s.updDom d (fun x => { x with batches := x.batches.map (fun b => if b.id = h.batch then { b with closed := true } else b) })
  else s

/-- Its dependents run, or fail with it (R25). -/
def State.resolve (s : State) (d order : Nat) (st : Status) : State :=
  s.updDom d (fun x => { x with slabs := x.slabs.map (fun c =>
    if c.dep = .waits order then { c with dep := if st.feeds then .met else .failed } else c) })

/-- The slab ends with a status: its hold ends, its dependents are resolved, its batch closes (R21, R25, R26, R411). -/
def State.endSlab (s : State) (d : Nat) (b : Slab) (st : Status) : State :=
  let s1 := (s.updSlab d b.order (fun c => { c with state := .ended, status := st, tick := s.tik.tick, nextPlan := none })).creditSlab d b
  (s1.resolve d b.order st).endBatch d b.words

end Sys2Proof.Machine
end

