-- ==== Sys2Proof/Machine/Base.lean ====
section
/-! DEFINITION. The base: manifests, placement, copies and their stripes, Carter's commands, and what the plan latch does to a copy (R224 to R248, R404). -/

namespace Sys2Proof.Machine

/-! ## The manifest (R225 to R228) -/

/-- The header of a manifest (R225). -/
structure Manifest where
  format : Nat
  tensors : Nat
  moeLayers : Nat
  peers : Nat
  gen : Nat
  modelId : Nat
  shardIndex : Nat
  stripes : Nat
  moeOff : Nat
  tensorOff : Nat
  digestOff : Nat
  peerOff : Nat
  flashBlk : Nat
  ns : Nat
  hostOk : Bool
  hostOff : Nat
deriving DecidableEq, Repr, Inhabited

def manifestOf (ws : List W64) : Manifest :=
  { format := wfld ws 0 0 16, tensors := wfld ws 0 16 16, moeLayers := wfld ws 0 32 8, peers := wfld ws 0 40 5,
    gen := wfld ws 1 0 32, modelId := wfld ws 1 32 32, shardIndex := wfld ws 2 0 32, stripes := wfld ws 2 32 32,
    moeOff := wfld ws 3 0 32, tensorOff := wfld ws 3 32 32, digestOff := wfld ws 4 0 32, peerOff := wfld ws 4 32 32,
    flashBlk := wfld ws 5 0 48, ns := wfld ws 5 48 4, hostOk := wfld ws 5 52 1 == 1, hostOff := wfld ws 6 0 48 }

/-- Word i holds zeros from bit `lo` up. -/
def wordClear (ws : List W64) (i lo : Nat) : Bool := wfld ws i lo (64 - lo) == 0

/-- The reserved fields of the header and of a tensor entry are clear (R225, R226, R228). -/
def headerClear (ws : List W64) : Bool := wordClear ws 0 45 && wordClear ws 5 53 && wordClear ws 6 48 && wordClear ws 7 0
def tensorClear (ws : List W64) : Bool := wordClear ws 0 55 && wordClear ws 2 48 && wordClear ws 3 32

/-- The header's fields lie in their ranges and name a source (R225, R228). -/
def Manifest.ok (m : Manifest) : Bool :=
  m.format == 1 && m.gen != 0 && m.tensors != 0 && m.peers ≤ 16 && m.stripes != 0 && m.ns ≤ 8 &&
  m.moeOff % 8 == 0 && m.tensorOff % 32 == 0 && m.peerOff % 8 == 0 && !(m.peers == 0 && m.ns == 0 && !m.hostOk)

/-- The header and the tables of non-zero size: offset and bytes. -/
def Manifest.tables (m : Manifest) : List (Nat × Nat) :=
  ([(0, 64), (m.moeOff, 8 * m.moeLayers), (m.tensorOff, 32 * m.tensors), (m.digestOff, 8 * m.stripes),
    (m.peerOff, 8 * m.peers)]).filter (fun x => x.2 != 0)

/-- No two spans share a byte. -/
def spansApart : List (Nat × Nat) → Bool
  | [] => true
  | x :: r => r.all (fun y => decide (x.1 + x.2 ≤ y.1) || decide (y.1 + y.2 ≤ x.1)) && spansApart r

/-- The header passes R228, so that the tables are read: in range, clear, its tables in domain 0's range and apart. -/
def Manifest.readable (m : Manifest) (a : Nat) (hw : List W64) : Bool :=
  m.ok && headerClear hw && m.tables.all (fun x => decide (a + x.1 + x.2 ≤ 2 ^ 48)) && spansApart m.tables

/-- A tensor entry (R226). -/
def tensorOfWords (ws : List W64) : Tensor :=
  { elemOff := wfld ws 0 0 48, fmt := wfld ws 0 48 4, esc := wfld ws 0 52 1 == 1, place := wfld ws 0 53 2,
    scaleOff := wfld ws 1 0 48, rowBlocks := wfld ws 1 48 16, escOff := wfld ws 2 0 48, rows := wfld ws 3 0 32 }

/-- A tensor entry is in range (R226, R228). -/
def Tensor.ok (t : Tensor) (stripes : Nat) (flash : Bool) : Bool :=
  fmtDefined t.fmt && t.elemOff % 64 == 0 && t.rowBlocks != 0 && t.rows != 0 && t.place != 3 &&
  (!t.esc || fmtEscapes t.fmt) && (fmtBlock t.fmt || t.scaleOff == 0) && (t.esc || t.escOff == 0) &&
  (t.place != 2 || flash) && t.regions.all (fun r => decide (r.1 + r.2 ≤ 65536 * stripes))

/-- The first stripe of a tensor. -/
def Tensor.firstStripe (t : Tensor) : Nat :=
  match t.regions.map (fun r => r.1 / 65536) with
  | [] => 0
  | a :: r => r.foldl min a

/-- The stripes that a tensor's regions meet. -/
def Tensor.stripes (t : Tensor) : List Nat :=
  t.regions.foldl (fun l r => (List.range' (r.1 / 65536) ((r.1 + r.2 + 65535) / 65536 - r.1 / 65536)).foldl numAdd l) []

/-- No stripe holds regions of tensors with different PLACE (R228). -/
def placesAgree : List Tensor → Bool
  | [] => true
  | t :: r => r.all (fun u => t.place == u.place || t.stripes.all (fun q => !u.meets q)) && placesAgree r

/-- Words of domain 0's range from an address, and whether one is poisoned. -/
def State.words0 (s : State) (a n : Nat) : List W64 × Bool :=
  let (bs, bad) := s.rdMem 0 a (8 * n)
  (wordsOf n bs, bad)

/-- The header, the tensor table, the MoE table and the peer table at an address, or none where R228 refuses them. -/
def State.readManifest (s : State) (a : Nat) : Option (Manifest × List Tensor × List Nat × List (Nat × Bool)) :=
  if 2 ^ 48 < a + 64 then none
  else
    let (hw, bad0) := s.words0 a 8
    let m := manifestOf hw
    if bad0 ∨ !m.readable a hw then none
    else
      let (tw, bad1) := s.words0 (a + m.tensorOff) (4 * m.tensors)
      let (mw, bad2) := s.words0 (a + m.moeOff) m.moeLayers
      let (pw, bad3) := s.words0 (a + m.peerOff) m.peers
      let bad4 := poisonHit (s.dom 0).poison 64 (a + m.digestOff) (8 * m.stripes)
      let ts := (List.range m.tensors).map (fun i => tensorOfWords ((tw.drop (4 * i)).take 4))
      let clear := (List.range m.tensors).all (fun i => tensorClear ((tw.drop (4 * i)).take 4)) &&
        mw.all (fun w => w.toNat < 2 ^ 16) && pw.all (fun w => w.toNat < 2 ^ 33 && bitsOf w.toNat 15 17 == 0)
      let moe := mw.map (fun w => bitsOf w.toNat 0 16)
      let peers := pw.map (fun w => (bitsOf w.toNat 0 32, bitOf w.toNat 32))
      let ok := ts.all (fun t => t.ok m.stripes (m.ns != 0)) && spansApart (ts.flatMap Tensor.regions) && placesAgree ts &&
        moe.all (fun e => e != 0) && decide ((peers.filter (fun p => p.2)).length ≤ 1)
      if bad1 ∨ bad2 ∨ bad3 ∨ bad4 ∨ !clear ∨ !ok then none else some (m, ts, moe, peers)

/-! ## Placement (R229, R230, R238, R257) -/

/-- 4 KiB units of the regions of a tensor's octet extent (R257). -/
def Tensor.octetUnits (t : Tensor) : List Nat :=
  let q := ceilDiv t.rows 8 * t.rowBlocks
  ceilDiv (q * octetBytes t.fmt) 4096 :: ((if fmtBlock t.fmt then [ceilDiv (8 * q) 4096] else []) ++
    (if t.esc then [ceilDiv (32 * q) 4096] else []))

/-- The T units that a tensor holds, and a copy's tensors. -/
def Tensor.unitsHeld (t : Tensor) : List (Nat × Nat) :=
  let n := t.octetUnits
  if t.onT then
    [(t.tAt.getD 0 0, n.getD 0 0), (t.tAt.getD 1 0, if fmtBlock t.fmt then n.getD 1 0 else 0),
     (t.tAt.getD 2 0, if t.esc then n.getLastD 0 else 0)].filter (fun x => x.2 != 0)
  else []
def CopySlot.unitsHeld (c : CopySlot) : List (Nat × Nat) := c.tensors.flatMap Tensor.unitsHeld

/-- The T units of the region that no copy holds (R230, R235). -/
def State.freeTUnits (s : State) : List (Nat × Nat) :=
  runsMinus [(0, if s.memg.tmode then 49152 * 512 else 0)] (s.bas.copy0.unitsHeld ++ s.bas.copy1.unitsHeld ++ s.bas.backUnits)

/-- Tensors in ascending order of their first stripes. -/
def byFirstStripe (ts : List Tensor) : List (Nat × Nat) :=
  let keyed := (ts.zipIdx).map (fun p => (p.1.firstStripe, p.2))
  keyed.foldl (fun l p => (l.filter (fun q => decide (q.1 < p.1) || (q.1 == p.1 && decide (q.2 < p.2)))) ++
    p :: l.filter (fun q => !(decide (q.1 < p.1) || (q.1 == p.1 && decide (q.2 < p.2))))) []

/-- n consecutive units of free runs: which run that holds as many the device takes, the manual leaves open (log 10). -/
def State.pickSpan (s : State) (n : Nat) (free : List (Nat × Nat)) : Option Nat × State :=
  let (c, s1) := s.takeFree
  let fit := free.filter (fun r => decide (n ≤ r.2))
  ((fit[Config.freeNat c % max fit.length 1]?).map Prod.fst, s1)

/-- First units of regions of a tensor, and what they leave free; none where one of them fits no run (R257). -/
def State.pickSpans : List Nat → List (Nat × Nat) → State → Option (List Nat × List (Nat × Nat)) × State
  | [], free, s => (some ([], free), s)
  | n :: r, free, s =>
    match s.pickSpan n free with
    | (none, s1) => (none, s1)
    | (some a, s1) =>
      match State.pickSpans r (runsCut free a n) s1 with
      | (none, s2) => (none, s2)
      | (some (l, left), s2) => (some (a :: l, left), s2)

/-- The place of the three regions, from the places of those that a tensor has. -/
def Tensor.placeOnT (t : Tensor) (l : List Nat) : Tensor :=
  { t with onT := true, tAt := if fmtBlock t.fmt then l else [l.headD 0, 0] ++ l.drop 1 }

/-- The tensors of a copy placed: those of PLACE 0 that fit the free T units, in ascending order of their first stripes, reach T frames (R230, R257). -/
def State.placeT (s : State) (ts : List Tensor) : List Tensor × State :=
  let r := ((byFirstStripe ts).map Prod.snd).foldl (fun (a : List Tensor × List (Nat × Nat) × State) i =>
    let t := ts.getD i default
    if t.place ≠ 0 then a
    else match a.2.2.pickSpans t.octetUnits a.2.1 with
      | (none, s1) => (a.1, a.2.1, s1)
      | (some (l, left), s1) => (a.1.set i (t.placeOnT l), left, s1)) (ts, s.freeTUnits, s)
  (r.1, r.2.2)

/-- A stripe belongs to PLACE 2 and stays in the flash tier (R229). -/
def CopySlot.flashOnly (c : CopySlot) (q : Nat) : Bool := c.tensors.any (fun t => t.place == 2 && t.meets q)

/-- Pages of the region that a copy holds, by their numbers in it. -/
def CopySlot.pagesHeld (c : CopySlot) : List Nat := c.pages ++ c.stripeMap.filterMap (fun p => p.2.page)

/-- Free ordinary pages of the region beside the staging pages, by their numbers in it (R230, R231). -/
def State.freePages (s : State) : List (Nat × Nat) :=
  (s.bas.copy0.pagesHeld ++ s.bas.copy1.pagesHeld ++ s.bas.backPages).foldl (fun r p => runsCut r p 1)
    [(0, s.bas.regionPages - s.bas.stagePages)]

/-- The numbers in runs. -/
def runsList (r : List (Nat × Nat)) : List Nat := r.flatMap (fun x => List.range' x.1 x.2)

/-- Whether a copy's pages, or free ones, can hold a stripe (R238). -/
def State.fits (s : State) (k q : Nat) : Bool :=
  let c := s.copy k
  c.wantsPage q && decide (c.rank q / 32 < c.pages.length + runsCount s.freePages)

/-- The copy takes the pages that it lacks up to a stripe's (R230, R238). -/
def State.takePages (s : State) (k q : Nat) : State :=
  let c := s.copy k
  let n := c.rank q / 32 + 1 - c.pages.length
  if n = 0 ∨ !c.wantsPage q then s
  else
    let (r, s1) := s.pickRuns n s.freePages
    s1.updCopy k (fun c => { c with pages := c.pages ++ runsList r })

/-- Stripes in base staging pages, and their capacity (R231). -/
def CopySlot.stagedStripes (c : CopySlot) : List Nat :=
  c.staged.foldl (fun l i => ((c.tensors.getD i default).stripes.filter (fun q => (c.stripe q).flashHeld)).foldl numAdd l) []
def State.stageRoom (s : State) : Nat :=
  32 * s.bas.stagePages - s.bas.copy0.stagedStripes.length - s.bas.copy1.stagedStripes.length

/-- The free slots of the base staging pages, 32 a page (R231). -/
def State.freeStageSlots (s : State) : List (Nat × Nat) :=
  ([s.bas.copy0, s.bas.copy1].flatMap (fun c => (c.stripeMap.filter (fun p => p.2.staged)).map (fun p => p.2.slot))).foldl
    (fun r p => runsCut r p 1) [(0, 32 * s.bas.stagePages)]

/-- A tensor with a stripe held only in the flash tier is flash-resident (R231). -/
def CopySlot.flashResident (c : CopySlot) (t : Tensor) : Bool := t.stripes.any (fun q => (c.stripe q).flashHeld)

/-- A flash-resident tensor whose flash-held stripes are all staged (R231). -/
def CopySlot.reachable (c : CopySlot) (t : Tensor) : Bool :=
  t.stripes.all (fun q => !(c.stripe q).flashHeld || (c.stripe q).staged)

/-! ## Sources (R233, R234) -/

/-- The sources of a copy's stripes, in the order in which they are asked; a peer with its device address. -/
def CopySlot.sources (c : CopySlot) : List (StripeSource × Nat) :=
  match c.peers.find? (fun p => p.2), c.parentFailed with
  | some p, false => [(.peer, p.1)]
  | _, _ => ((c.peers.filter (fun p => !p.2)).map (fun p => (StripeSource.peer, p.1))) ++
      (if c.ns ≠ 0 then [(.flash, 0)] else []) ++ (if c.hostOk then [(.host, 0)] else [])

/-- The device fetches from its tree parent alone (R234). -/
def CopySlot.underParent (c : CopySlot) : Bool := c.peers.any (fun p => p.2) && !c.parentFailed

/-- A copy is BUILDING and every stripe that fits is verified or LOST (R235): it becomes READY, with BUILD_DONE. -/
def State.buildCheck (s : State) (k : Nat) : State :=
  let c := s.copy k
  let settled (x : Stripe) : Bool := x.flashHeld || x.state == .resident || x.state == .lost
  if c.state = .building ∧ (c.stripeMap.filter (fun p => settled p.2)).length = c.stripes then
    (s.putCopy k { c with state := .ready }).raiseDev pBas 1
  else s

/-- Slabs withheld for a copy's stripe that is LOST now complete with BASE_UNAVAILABLE instead of being replayed (R244). -/
def State.failReplays (s : State) (k q : Nat) : State :=
  s.eachDom (fun t d => ((t.dom d).slabs.filter (fun b => b.state == .withheld && (hdrOf b.words).kind == 1)).foldl (fun u b =>
    let h := hdrOf b.words
    let body := baseBody b.words
    let hit := u.batchCopy d h.batch == some k && (match u.resolveBase k body.col with
      | some col => (opdSpans col 0 body.n body.kFirst body.kBlks).any (fun p =>
          p.2 != 0 && decide (65536 * q < p.1 + p.2) && decide (p.1 < 65536 * q + 65536))
      | none => false)
    if hit then u.endSlab d b .baseUnavailable else u) t)

/-- A stripe that no source delivers is LOST, and the slabs that wait on it with it (R244). -/
def State.stripeLost (s : State) (k q : Nat) : State :=
  (((s.updCopy k (fun c => c.putStripe q { c.stripe q with state := .lost, pieces := [], asked := false })).failReplays k q).raiseDev
    pBas 4).buildCheck k

/-- The source being asked for a stripe fails: the next one is asked, the tree parent again, or the stripe is LOST (R233, R234, R244). -/
def State.sourceFails (s : State) (k q : Nat) : State :=
  let c := s.copy k
  let n := (c.stripe q).source + 1
  if c.underParent then s.updCopy k (fun c => c.putStripe q { c.stripe q with pieces := [], asked := false })
  else if c.sources.length ≤ n then s.stripeLost k q
  else s.updCopy k (fun c => c.putStripe q { c.stripe q with source := n, pieces := [], asked := false, retried := false })

/-- The digest of a stripe agrees with the manifest's table (R224). -/
def State.digestOk (s : State) (k q : Nat) (bytes : List Byte) : Bool :=
  let c := s.copy k
  let (d, bad) := s.rdMem 0 (c.manifest + c.digestOff + 8 * q) 8
  !bad && bytes.length == 65536 && (sha384 bytes).take 8 == d

/-- Counter of verified stripes by source (R247). -/
def sourceCounter : StripeSource → Nat
  | .peer => 0
  | .flash => 1
  | .host => 2

/-- Writes a stripe's bytes; blocks that were poisoned are clean again (R242). -/
def CopySlot.write (c : CopySlot) (q : Nat) (bytes : List Byte) : CopySlot :=
  let here (b : Nat) : Bool := decide (1024 * q ≤ b) && decide (b < 1024 * q + 1024)
  { c with image := memPut c.image (65536 * q) bytes, poison := c.poison.filter (fun b => !here b),
           poisonedBefore := (c.poison.filter here).foldl numAdd c.poisonedBefore }

/-- A flash-held stripe of the ACTIVE copy whose page there is room for now (R238). -/
def State.fills (s : State) (k q : Nat) : Bool := (s.copy k).state == .active && ((s.copy k).stripe q).flashHeld && s.fits k q

/-- A BAD stripe of a copy that slabs may read: the settle phase refetches it (R242). -/
def State.servedBad (s : State) (k q : Nat) : Bool :=
  ((s.copy k).state == .active || (s.copy k).state == .retiring) && ((s.copy k).stripe q).state == .bad

/-- Whether a stripe is one that Carter fetches now: a stripe of a copy being built, a flash-held stripe that is filled or staged, or one found poisoned while not served (R231, R235, R238, R244). -/
def State.fetching (s : State) (k q : Nat) : Bool :=
  let c := s.copy k
  let x := c.stripe q
  decide (q < c.stripes) && x.state != .lost &&
    ((c.state == .building && x.state == .absent && !x.flashHeld) ||
     ((c.state == .building || c.state == .ready) && x.state == .bad) ||
     ((c.state == .active || c.state == .retiring) && x.flashHeld &&
        ((!x.staged && c.stagedStripes.contains q) || s.fills k q)))

/-- Whether a BAD stripe's refetch goes to another page: one of its blocks has been poisoned before (R242). -/
def CopySlot.movesPage (c : CopySlot) (q : Nat) : Bool :=
  c.poison.any (fun b => decide (1024 * q ≤ b) && decide (b < 1024 * q + 1024) && c.poisonedBefore.contains b)

/-- A BAD stripe whose blocks have been poisoned before takes another page of the region, where one is free (R242). -/
def State.movePage (s : State) (k q : Nat) : State :=
  if !(s.copy k).movesPage q ∨ s.freePages.isEmpty then s
  else
    let (r, s1) := s.pickRuns 1 s.freePages
    s1.updCopy k (fun c => c.putStripe q { c.stripe q with page := (runsList r).head? })

/-- A stripe is written back: clean, resident, and asked of the first source when it is fetched again. -/
def State.writeStripe (s : State) (k q : Nat) (bytes : List Byte) (f : Stripe → Stripe) : State :=
  s.updCopy k (fun c => (c.write q bytes).putStripe q
    (f { c.stripe q with state := .resident, servable := false, source := 0, pieces := [], asked := false, retried := false }))

/-- A stripe arrives from a source: verified and written, or discarded and asked of the next source (R224, R233). -/
def State.stripeArrives (s : State) (k q : Nat) (src : StripeSource) (bytes : List Byte) : State :=
  if !s.fetching k q then s
  else if !s.digestOk k q bytes then (s.bump dev pBas 5 1).sourceFails k q
  else
    let x := (s.copy k).stripe q
    let again := x.state == .bad
    let s1 :=
      if s.fills k q then (s.takePages k q).writeStripe k q bytes (fun y => { y with flashHeld := false, staged := false, slot := 0 })
      else if x.flashHeld then
        let (r, t) := s.pickRuns 1 s.freeStageSlots
        t.writeStripe k q bytes (fun y => { y with staged := true, slot := (runsList r).headD 0 })
      else ((s.takePages k q).movePage k q).writeStripe k q bytes (fun y => { y with flashHeld := false, staged := false, slot := 0 })
    let s2 := s1.bump dev pBas (sourceCounter src) 1
    let s3 := if again then s2.bump dev pBas 4 1 else s2
    let s4 := if (s.copy k).state = .building ∧ !again then s3.updBas (fun b => { b with buildDone := b.buildDone + 1 }) else s3
    s4.buildCheck k

/-- A refetch of a BAD stripe in the settle phase (R242): the tick stretches until it is back; without a source it is LOST (R244). -/
def State.refetched (s : State) (k q : Nat) (src : StripeSource) (bytes : List Byte) : State :=
  if ((s.copy k).stripe q).state ≠ .bad then s
  else if s.digestOk k q bytes then
    (((s.movePage k q).writeStripe k q bytes id).bump dev pBas (sourceCounter src) 1).bump dev pBas 4 1
  else (s.bump dev pBas 5 1).sourceFails k q

/-- A device-scope stall: the plan clock stops, and the stretch is counted by its cause (R313, R314). -/
def State.deviceStall (s : State) (code ns : Nat) : State :=
  (s.addStretch dev code ns).updTik (fun t =>
    { t with stallNs := t.stallNs + ns, stallBy := mapSet t.stallBy code ((mapGet t.stallBy code).getD 0 + ns) })

/-! ## Carter's commands (R245) -/

def basWord (status op : Nat) : Nat := fld status 0 8 + fld op 8 4

/-- A command of Carter: the PF's view in region 0 alone carries it (R246). -/
def State.basCmd (s : State) (v : View) (posted : Bool) (op : Nat) (rsv : Nat) (f : Nat → State → State × Nat) : State :=
  if !isRegion0 v then s
  else s.runCmd v pBas posted (fun t =>
    if rsv ≠ 0 then (t, basWord 0x05 op)
    else
      let r := f (t.viewCopy v pBas) t
      (r.1, basWord r.2 op))

/-- The copy that a manifest makes: its tensors placed, its pages taken, and the stripes that find none held in flash (R229, R230, R238). -/
def State.newCopy (s : State) (a : Nat) (m : Manifest) (ts : List Tensor) (moe : List Nat) (peers : List (Nat × Bool)) : CopySlot × State :=
  let (placed, s1) := s.placeT ts
  let c : CopySlot :=
    { state := .building, gen := m.gen, modelId := m.modelId, shardIndex := m.shardIndex, stripes := m.stripes,
      manifest := a, digestOff := m.digestOff, ns := m.ns, flashBlk := m.flashBlk, hostOk := m.hostOk,
      hostOff := m.hostOff, tensors := placed, moe := moe, peers := peers }
  let n := min (ceilDiv (c.rank m.stripes) 32) (runsCount s.freePages)
  let (r, s2) := s1.pickRuns n s.freePages
  let held := ((List.range m.stripes).foldl (fun (p : List (Nat × Stripe) × Nat) q =>
    if c.flashOnly q then (p.1 ++ [(q, { flashHeld := true })], p.2)
    else if !c.wantsPage q then p
    else if p.2 = 0 then (p.1 ++ [(q, { flashHeld := true })], 0)
    else (p.1, p.2 - 1)) (([] : List (Nat × Stripe)), 32 * n)).1
  ({ c with pages := runsList r, stripeMap := held }, s2)

/-- The ordinary frames that nothing holds: not a domain, nor the base region, nor withheld (R230, R420, R447). -/
def State.freeRuns (s : State) : List (Nat × Nat) :=
  runsMinus [(0, if s.memg.tmode then tFrame0 else frameCount)]
    (s.doms.flatMap (fun p => p.2.tir.frames) ++ s.bas.region ++ s.ful.withheld.map (fun f => (f, 1)))

/-- The first BUILD after reset takes the ordinary part of the region: the highest-numbered free ordinary frames (R230). -/
def State.takeRegion (s : State) : State :=
  if s.bas.regionTaken then s
  else
    { s with freeFrames := s.freeFrames - s.bas.regionPages,
             bas := { s.bas with regionTaken := true,
                                 region := (runsTake (runsCount s.freeRuns - s.bas.regionPages) s.freeRuns).2 } }

/-- BUILD (R245, R235, R230, R228, R238): `errors` are what the reads of the manifest meet; a word that reads as poison is a failed check (R228, R261). -/
def State.build (s0 : State) (k cmdCopy : Nat) (errors : List ReadError) : State × Nat :=
  let a := s0.arg cmdCopy pBas 0 % 2 ^ 48
  let other := (s0.copy (1 - k)).state
  if (s0.copy k).state ≠ .empty then (s0, 0x0A)
  else if other ≠ .empty ∧ other ≠ .active then (s0, 0x08)
  else if a % 64 ≠ 0 then (s0, 0x05)
  else if !s0.bas.regionTaken ∧ (s0.freeFrames < s0.bas.regionPages ∨ s0.bas.regionPages < s0.bas.stagePages) then (s0, 0x05)
  else
   let s := (s0.meetErrors 0 errors).1
   match s.readManifest a with
    | none => (s, 0x0B)
    | some (m, ts, moe, peers) =>
      let (c, taken) := s.takeRegion.newCopy a m ts moe peers
      let partialFit := c.stripeMap.any (fun p => !c.flashOnly p.1)
      if other = .active ∧ (s.copy (1 - k)).gen = m.gen then (s, 0x0B)
      else if partialFit ∧ m.ns = 0 then (s, 0x0B)
      else (((taken.putCopy k c).updBas (fun b => { b with buildDone := 0 })).buildCheck k, 0x01)

def execBuild (v : View) (posted : Bool) (of : BuildOf) (rsv : BitVec 59) (s : State) : Host.Outcome State Fault Refusal :=
  .next (s.basCmd v posted 1 rsv.toNat (fun c t => t.build (bit01 of.copy) c of.errors))

/-- SWITCH of a READY copy (R235, R236): at the next latch, or the one after when the cut-off has passed; one accepted before keeps its latch. -/
def execSwitch (v : View) (posted : Bool) (copy : Bool) (rsv : BitVec 59) (s : State) : Host.Outcome State Fault Refusal :=
  .next (s.basCmd v posted 2 rsv.toNat (fun c t =>
    let k := bit01 copy
    if (t.copy k).state ≠ .ready then (t, 0x0A)
    else if (t.copy k).gen ≠ t.arg c pBas 0 % 2 ^ 32 then (t, 0x05)
    else (t.updBas (fun b =>
      { b with switchAt := if (b.switchAt.map Prod.fst) = some k then b.switchAt
                           else some (k, t.tik.tick + (if t.tik.cutoffPassed then 2 else 1)) }), 0x00)))

/-- ABORT of a copy that is BUILDING or READY: its pages return at the next latch (R235). -/
def execAbort (v : View) (posted : Bool) (copy : Bool) (rsv : BitVec 59) (s : State) : Host.Outcome State Fault Refusal :=
  .next (s.basCmd v posted 3 rsv.toNat (fun _ t =>
    let k := bit01 copy
    let c := t.copy k
    if c.state ≠ .building ∧ c.state ≠ .ready then (t, 0x0A)
    else
      ((t.putCopy k {}).updBas (fun b =>
        { b with backPages := b.backPages ++ c.pagesHeld, backUnits := b.backUnits ++ c.unitsHeld,
                 switchAt := if (b.switchAt.map Prod.fst) = some k then none else b.switchAt }), 0x00)))

/-- STAGE (R231, R245). -/
def execBasStage (v : View) (posted : Bool) (copy : Bool) (rsv : BitVec 59) (s : State) : Host.Outcome State Fault Refusal :=
  let _ := copy
  .next (s.basCmd v posted 4 rsv.toNat (fun c t =>
    let i := t.arg c pBas 0 % 2 ^ 24
    match t.activeCopy with
    | none => (t, 0x05)
    | some k =>
      let x := t.copy k
      if x.tensors.length ≤ i then (t, 0x05)
      else
        let w := x.tensors.getD i default
        if !x.flashResident w then (t, 0x00)
        else
          let y := { x with staged := numAdd x.staged i, unstage := numDel x.unstage i }
          if t.stageRoom < y.stagedStripes.length - x.stagedStripes.length then (t, 0x07) else (t.putCopy k y, 0x01)))

/-- UNSTAGE: at the first latch at which no admitted slab names the tensor (R231). -/
def execBasUnstage (v : View) (posted : Bool) (copy : Bool) (rsv : BitVec 59) (s : State) : Host.Outcome State Fault Refusal :=
  let _ := copy
  .next (s.basCmd v posted 5 rsv.toNat (fun c t =>
    let i := t.arg c pBas 0 % 2 ^ 24
    match t.activeCopy with
    | none => (t, 0x05)
    | some k =>
      let x := t.copy k
      if x.tensors.length ≤ i then (t, 0x05)
      else if x.staged.contains i then (t.putCopy k { x with unstage := numAdd x.unstage i }, 0x00) else (t, 0x00)))

def StripeState.code : StripeState → Nat
  | .absent => 0
  | .resident => 1
  | .bad => 2
  | .lost => 3

/-- QUERY of a stripe (R245). -/
def execBasQuery (v : View) (posted : Bool) (copy : Bool) (rsv : BitVec 59) (s : State) : Host.Outcome State Fault Refusal :=
  let _ := copy
  .next (s.basCmd v posted 6 rsv.toNat (fun c t =>
    let x := (t.copy (t.arg c pBas 1 % 2)).stripe (t.arg c pBas 0 % 2 ^ 32)
    (t.putArg c pBas 0 (w64 (x.state.code + 4 * bit01 x.flashHeld)), 0x00)))

/-! ## The plan latch (R231, R233, R235 to R238) -/

/-- Open batches that stamped a generation (BAS_STAMPS_OLD counts the RETIRING one's). -/
def State.genStamps (s : State) (gen : Nat) : Nat :=
  (s.doms.map (fun p => (p.2.batches.filter (fun b => b.baseGen == gen)).length)).sum

/-- A RETIRING copy without stamps becomes EMPTY (R237). -/
def State.releaseCopy (s : State) (k : Nat) : State :=
  let c := s.copy k
  if c.state = .retiring ∧ s.genStamps c.gen = 0 then (s.putCopy k {}).raiseDev pBas 2 else s

/-- An accepted SWITCH takes effect (R236). -/
def State.latchSwitch (s : State) (tick : Nat) : State :=
  match s.bas.switchAt with
  | none => s
  | some (k, t) =>
    if tick < t ∨ (s.copy k).state ≠ .ready then s
    else
      let s1 := s.updCopy (1 - k) (fun c => if c.state = .active then { c with state := .retiring } else c)
      (s1.updCopy k (fun c => { c with state := .active })).updBas (fun b => { b with switchAt := none })

/-- An admitted slab of a domain, or one that the plan of this latch admits, names a tensor of a copy's generation (R231, R309). -/
def State.namesTensor (s : State) (gen i : Nat) : Bool :=
  s.doms.any (fun p => p.2.slabs.any (fun b =>
    let h := hdrOf b.words
    b.state != .ended && (b.admitted || b.nextPlan.isSome) && h.kind == 1 && (baseBody b.words).col.elem % 2 ^ 24 == i &&
      s.genFor p.1 h.batch == gen))

/-- Tensors of a copy leave base staging when their UNSTAGE takes effect (R231). -/
def State.latchBasUnstage (s : State) (k : Nat) : State :=
  let c := s.copy k
  let gone := c.unstage.filter (fun i => !s.namesTensor c.gen i)
  if gone.isEmpty then s
  else
    let c1 := { c with staged := c.staged.filter (fun i => !gone.contains i), unstage := c.unstage.filter (fun i => !gone.contains i) }
    let keep := c1.stagedStripes
    s.putCopy k { c1 with stripeMap := c1.stripeMap.map (fun p =>
      if p.2.staged ∧ !keep.contains p.1 then (p.1, { p.2 with staged := false, slot := 0, page := none, state := if p.2.state = .lost then .lost else .absent }) else p) }

/-- Stripes verified before this latch may be served to peers from now on; base staging pages never are (R233). -/
def CopySlot.latchServable (c : CopySlot) : CopySlot :=
  { c with stripeMap := c.stripeMap.map (fun p => (p.1, { p.2 with servable := p.2.state == .resident && !p.2.staged })) }

/-- Carter's part of the latch after the switch: pages of aborted copies return, UNSTAGE, serving. -/
def State.latchBase (s : State) : State :=
  let s1 := ((s.latchBasUnstage 0).latchBasUnstage 1).updBas (fun b => { b with backPages := [], backUnits := [] })
  (s1.updCopy 0 CopySlot.latchServable).updCopy 1 CopySlot.latchServable

/-! ## Carter's slabs (R232) -/

/-- Stripes that Carter still has to fetch, fill or stage, in ascending order, copy by copy. -/
def State.carterWork (s : State) : List (Nat × Nat) :=
  [0, 1].flatMap (fun k => ((List.range (s.copy k).stripes).filter (fun q => s.fetching k q && !((s.copy k).stripe q).asked)).map (fun q => (k, q)))

/-- BAD stripes of copies that are served: the refetch of the settle phase (R242). -/
def State.badStripes (s : State) : List (Nat × Nat) :=
  [0, 1].flatMap (fun k =>
    let c := s.copy k
    if c.state = .active ∨ c.state = .retiring then ((c.stripeMap.filter (fun p => p.2.state == .bad)).map (fun p => (k, p.1))) else [])

end Sys2Proof.Machine
end

