-- ==== Sys2Proof/Machine/HostIf.lean ====
section
/-! DEFINITION. The host attachment: the submission aperture and its queue, completion reads, the host window, and MSI-X unmasking (R17, R23, R24, R403 to R419, R482 to R484, R520). -/

namespace Sys2Proof.Machine

/-- A function answers on its queue page and host window: the PF while it is up, a VF while its domain is ACTIVE or PREEMPTED (R403, R407, R413). -/
def State.fnOpen (s : State) (fn : Nat) : Bool :=
  s.boot.phase == .running && (if fn = 0 then !s.pci.d3hot else s.vfUp fn && (s.dom fn).alive)

/-! ## Poisoned writes (R405, R482 to R484) -/

/-- A poisoned write TLP is counted, recorded and reported: AER, and the event in the views of its function (R405). -/
def State.poisonedTlp (s : State) (fn : Nat) : State :=
  let s1 := (s.bump fn pPci 0 1).updPci (fun p => { p with errKind := 1, errFn := fn, errValid := true })
  let copies := if fn = 0 then [64] else [fn, 64 + fn, 64]
  let s2 := copies.foldl (fun t c => t.setEvent c pPci 2) s1
  (s2.trace 0x0D01 0x0D 0 fn false).emit (.aerPoisoned fn)

/-! ## Submission (R17, R23, R24, R410 to R412) -/

/-- The words that a descriptor has, once its first word is known (R17). -/
def descriptorWords (w0 : W64) : Nat := 4 + bitsOf w0.toNat 16 8

/-- How the AFTER_TAG of an arriving slab stands (R24). -/
def Dom.depOf (x : Dom) (after : Nat) : Dep :=
  if after = 0 then .met
  else match x.slabs.find? (fun b => b.state != .ended && (hdrOf b.words).tag == after) with
    | some b => .waits b.order
    | none => .met

/-- The last word of a descriptor has arrived: its checks are made, and it joins the domain's slabs (R17, R23, R24, R411). -/
def State.arrive (s : State) (d : Nat) (ws : List W64) : State :=
  let x := s.dom d
  let ok := s.slabArrives d ws
  let b : Slab :=
    { order := x.nextOrder, words := ws, tick := s.tik.tick,
      state := if ok then .queued else .ended, status := if ok then .done else .descInvalid,
      dep := if ok then x.depOf (hdrOf ws).after else .met }
  let s1 := s.updDom d (fun y => { y with nextOrder := y.nextOrder + 1, slabs := y.slabs ++ [b] })
  if ok then s1 else ((s1.noteUnloaded d b.order ws).creditSlab d b).endBatch d ws

/-- The queue halts (R412). -/
def State.haltQueue (s : State) (d : Nat) : State := s.updDom d (fun x => x.updQueue (fun q => { q with halted := true }))

/-- One word of a write TLP (R410, R412). -/
def State.submitWord (s : State) (d : Nat) (w : TlpWord) : State :=
  let q := (s.dom d).queue
  if q.halted then s.bump d pDom 2 1
  else match w with
    | .incomplete => (s.haltQueue d).raiseDom pDom 1 d
    | .whole v =>
      if q.written = q.limit then (s.haltQueue d).raiseDom pDom 0 d
      else
        let part := q.partial_ ++ [v]
        let whole := part.length = descriptorWords (part.headD 0)
        let s1 := (s.bump d pDom 0 1).updDom d (fun x => x.updQueue (fun y =>
          { y with written := y.written + 1, partial_ := if whole then [] else part }))
        if whole then s1.arrive d part else s1

/-- A write TLP to the submission aperture; a poisoned one loses its words and halts the queue (R405, R410). -/
def execSubmitWord (fn : Fin 64) (words : List TlpWord) (poisoned : Bool) (s : State) : Host.Outcome State Fault Refusal :=
  let d := fn.val
  .next (if !s.fnOpen d then s
  else if poisoned then (words.map (fun _ => TlpWord.incomplete)).foldl (fun t w => t.submitWord d w) (s.poisonedTlp d)
  else words.foldl (fun t w => t.submitWord d w) s)

/-- A write of 1 to RESET of QUEUE_CTRL (R412). -/
def execQueueReset (fn : Fin 64) (s : State) : Host.Outcome State Fault Refusal :=
  let d := fn.val
  let n := (s.dom d).queue.partial_.length
  .next (if !s.fnOpen d then s
  else
    let s1 := if n = 0 then s else s.returnCredit d n
    s1.updDom d (fun x => x.updQueue (fun q => { q with partial_ := [], halted := false })))

/-! ## Completions (R416, R417) -/

/-- A 64-bit read of COMPL_READ: the oldest waiting word, removed, or zero (R417). -/
def execComplRead (fn : Fin 64) (s : State) : Host.Outcome State Fault Refusal :=
  let d := fn.val
  .next (if !s.fnOpen d then s
  else match (s.dom d).queue.compl with
    | [] => s.emit (.value d 0)
    | w :: r => (s.updDom d (fun x => x.updQueue (fun q => { q with compl := r }))).emit (.value d w))

/-! ## The host window (R418, R419, R520) -/

/-- Commons offset of the window's first byte, and the window's bytes (R418). -/
def Dom.hostWindow (x : Dom) : Nat × Nat := (bankBytes * x.rec_.winFirst, bankBytes * x.rec_.winBanks)

/-- A host write to BAR4: bytes beyond the window are discarded, and the write counts once in WINDOW_DISCARDS (R418; log 64). -/
def execHostWindowWrite (fn : Fin 64) (offset : Nat) (bytes : List Byte) (poisoned : Bool) (s : State) :
    Host.Outcome State Fault Refusal :=
  let d := fn.val
  let (base, n) := (s.dom d).hostWindow
  let inside := bytes.take (n - offset)
  .next (if !s.fnOpen d then s
  else if poisoned then s.poisonedTlp d
  else
    let s1 := if inside.isEmpty then s else s.wrCommons (base + offset) inside
    if inside.length < bytes.length then s1.bump d pDom 4 1 else s1)

/-- The bytes of a host read, with zeros for poisoned words and beyond the window. -/
def State.windowBytes (s : State) (base n offset len : Nat) : List Byte :=
  let k := min len (n - offset)
  let bs := memGet s.commons (base + offset) k
  (bs.zipIdx.map (fun p => if s.commonsPoison.contains ((base + offset + p.2) / 8) then 0 else p.1)) ++
    List.replicate (len - k) 0

/-- A host read of BAR4 (R418, R520). -/
def execHostWindowRead (fn : Fin 64) (offset : Nat) (length : Nat) (s : State) : Host.Outcome State Fault Refusal :=
  let d := fn.val
  let (base, n) := (s.dom d).hostWindow
  .next (if s.boot.phase == .running && (d == 0 || s.vfUp d) && !(d == 0 && s.pci.d3hot) then
    if s.fnOpen d then
      ((s.countCommonsUe (base + offset) (min length (n - offset))).emit (.readData d (s.windowBytes base n offset length)))
    else s.emit (.readData d (List.replicate length 0))
  else s)

/-! ## MSI-X (R408) -/

/-- Vectors of a function (R403). -/
def vectorsOf (fn : Nat) : Nat := if fn = 0 then 2048 else 64

/-- Unmasking a vector sends the message that fell due while it was masked (R408). -/
def execMsixUnmask (fn : Fin 64) (vector : Nat) (s : State) : Host.Outcome State Fault Refusal :=
  let d := fn.val
  let k := 2048 * d + vector
  .next (if s.boot.phase != .running || vectorsOf d ≤ vector || !(d == 0 || s.vfUp d) then s
  else
    let s1 := s.updPci (fun p => { p with unmasked := numAdd p.unmasked k, pendingBits := numDel p.pendingBits k })
    if s.pci.pendingBits.contains k then s1.emit (.msix d vector) else s1)

end Sys2Proof.Machine
end

