-- ==== Sys2Proof/Machine/Link.lean ====
section
/-! DEFINITION. The link layer of a fabric port: flits, credits, the replay buffer, encryption between racks, and the routing of a flit through the device (R367 to R374, R377, R395, R396, R398). -/

namespace Sys2Proof.Machine

/-! ## Transactions on the wire (R377) -/

/-- The 224 payload bytes of a DATA flit: transaction header and three data slots. `extra` is word 3 of a COLL_DATA, or nothing. -/
def txnPayload (t : Txn) (top : Nat) (extra : Option Nat) : List Byte :=
  let m (i : Nat) : Nat := (t.masks.getD i 0).toNat
  let w0 := fld top 0 4 + fld t.nblk 4 2 + fld t.dst 8 15 + fld t.src 23 15 + fld t.status 38 4
  let w1 := fld t.addr 0 48 + fld t.sfmt 48 4 + fld t.stype 52 2 + fld t.aop 54 4
  let w2 := t.txid.toNat + fld (m 0) 32 16 + fld (m 1) 48 16
  let w3 := extra.getD (m 2 + fld (m 3) 16 16 + fld (m 4) 32 16 + fld (m 5) 48 16)
  let data := ((t.slots.take 3).flatMap (fun b => (b ++ List.replicate 64 0).take 64))
  leBytes 8 w0 ++ leBytes 8 w1 ++ leBytes 8 w2 ++ leBytes 8 w3 ++ (data ++ List.replicate 192 0).take 192

/-- The transaction that a payload carries under a partition tag: operation, DETOUR, transaction, step and ring. -/
def txnOf (ptag : Nat) (pl : List Byte) : Nat × Nat × Txn × Nat × Bool :=
  let w (i : Nat) : Nat := ofLe ((pl.drop (8 * i)).take 8)
  let n := bitsOf (w 0) 4 2
  let data := pl.drop 32
  (bitsOf (w 0) 0 4, bitsOf (w 0) 6 2,
    { ptag := BitVec.ofNat 16 ptag, nblk := n, dst := bitsOf (w 0) 8 15, src := bitsOf (w 0) 23 15, status := bitsOf (w 0) 38 4,
      addr := bitsOf (w 1) 0 48, sfmt := bitsOf (w 1) 48 4, stype := bitsOf (w 1) 52 2, aop := bitsOf (w 1) 54 4,
      txid := w32 (w 2),
      masks := [BitVec.ofNat 16 (bitsOf (w 2) 32 16), BitVec.ofNat 16 (bitsOf (w 2) 48 16)] ++
        (List.range 4).map (fun i => BitVec.ofNat 16 (bitsOf (w 3) (16 * i) 16)),
      slots := (List.range n).map (fun i => (data.drop (64 * i)).take 64) },
    bitsOf (w 3) 0 16, bitOf (w 3) 16)

/-! ## Encryption between racks (R395, R396) -/

/-- Key and starting value of one direction out of the 88 bytes; `low` for the direction of the device with the lower address. -/
def linkKey (keys : List Byte) (low : Bool) : Nat × Nat :=
  let h := if low then keys else keys.drop 44
  (ofLe (h.take 32), ofLe ((h.drop 32).take 12))

/-- The nonce of the flit with count C (R396). -/
def linkNonce (n0 c : Nat) : Nat := n0 ^^^ (c % 2 ^ 32)

/-- The header with ACK zeroed, as additional data (R396). -/
def linkAad (hdr : Nat) : List Byte := leBytes 8 (setBits hdr 34 12 0)

/-- Keys in use toward the peer, and from it. -/
def PortStateRec.txKeys (x : PortStateRec) : List Byte := if x.txNew then x.newKeys else x.linkKeys
def PortStateRec.rxKeys (x : PortStateRec) : List Byte := if x.rxNew then x.newKeys else x.linkKeys

/-- KEYID that the peer's flits carry under the keys in use from it (R398). -/
def PortStateRec.rxKeyId (x : PortStateRec) : Bool := x.keyId != (x.txNew != x.rxNew)

/-- Ends a switch once both directions use the new keys (R398). -/
def PortStateRec.settleKeys (x : PortStateRec) : PortStateRec :=
  if x.txNew && x.rxNew then { x with linkKeys := x.newKeys, newKeys := [], txNew := false, rxNew := false } else x

/-! ## Sending (R367 to R369, R371) -/

/-- The class of a waiting flit: 65,536 x VC + tag. -/
def classOf (key : Nat) : Nat := key % 262144

/-- A port may send a flit of a class now: it is UP (or keying, for control flits), the replay buffer has room, and a DATA flit has a credit and a wheel time. -/
def State.canSend (s : State) (p key : Nat) : Bool :=
  let x := s.port p
  let k := classOf key
  let control := k / 65536 == 3
  (x.state == .up || (x.state == .keying && control)) && !x.rekeyStalled && decide (x.replay.length < 2048) &&
    (control || ((mapGet x.credits k).getD 0 != 0 && s.slotsOf (k % 65536) (interRack p) != 0))

/-- The link word: credits of one class that are due, at most 255 (R367), and what stays due. -/
def PortStateRec.linkWord (x : PortStateRec) : Nat × List (Nat × Nat) :=
  match x.creditsDue with
  | [] => (0, [])
  | (k, n) :: r =>
    let m := min n 255
    (fld k 0 16 + fld (k / 65536) 16 2 + fld m 18 8, if n ≤ m then r else (k, n - m) :: r)

/-- Link word and CRC close a flit (R367). -/
def closeFlit (body : List Byte) (link : Nat) : List Byte :=
  let b := body ++ leBytes 4 link
  b ++ leBytes 4 (crc32c b)

/-- Sends one flit: `raw` is the header without link fields and the payload, 232 bytes. -/
def State.transmit (s : State) (p : Nat) (raw : List Byte) : State :=
  let x := s.port p
  let low := s.fab.self < x.peerDevice
  let hdr := ofLe (raw.take 8) + fld x.txSeq 22 12 + fld (x.rxSeq + 4095) 34 12 + fld (bit01 x.keyId) 46 1
  let pl := raw.drop 8
  let (body, c) :=
    if x.secure then
      let (k, n0) := linkKey x.txKeys low
      let ct := gcmData k (linkNonce n0 x.txCount) pl
      (leBytes 8 hdr ++ ct ++ gcmTag k (linkNonce n0 x.txCount) (linkAad hdr) ct, x.txCount + 1)
    else (leBytes 8 hdr ++ pl ++ List.replicate 16 0, x.txCount)
  let (link, due) := x.linkWord
  let bytes := closeFlit body link
  ((s.putPort p { x with txSeq := (x.txSeq + 1) % 4096, txCount := c, creditsDue := due,
                         replay := x.replay ++ [(x.txSeq, bytes)] }).bump dev (pFab p) 0 1).emit (.flit p bytes)

/-- A buffer of a class is free again: its credit is due to the peer (R369). -/
def State.oweCredit (s : State) (p k : Nat) : State :=
  s.updPort p (fun x => { x with creditsDue := mapSet x.creditsDue k ((mapGet x.creditsDue k).getD 0 + 1) })

/-- Sends what may be sent of a port's waiting flits; a flit waits only behind flits of its own class (R369). -/
def State.pump (s : State) (p : Nat) : State :=
  let w := (s.port p).waiting
  let r := w.foldl (fun (a : State × List (Nat × List Byte)) q =>
    let (t, kept) := a
    let k := classOf q.1
    if kept.any (fun y => classOf y.1 == k) || !t.canSend p q.1 then (t, kept ++ [q])
    else
      let t1 := if k / 65536 = 3 then t
        else t.updPort p (fun x => { x with credits := mapSet x.credits k ((mapGet x.credits k).getD 0 - 1) })
      let t2 := t1.transmit p q.2
      let origin := q.1 / 262144
      (if origin = 0 then t2 else t2.oweCredit (origin - 1) k, kept)) (s.updPort p (fun x => { x with waiting := [] }), [])
  r.1.updPort p (fun x => { x with waiting := r.2 })

/-- Gives a port a flit to send. -/
def State.queueFlit (s : State) (p key : Nat) (raw : List Byte) : State :=
  (s.updPort p (fun x => { x with waiting := x.waiting ++ [(key, raw)] })).pump p

/-- The header without link fields (R367). -/
def flitHeader (ftype vc : Nat) (dl : Bool) (tag : Nat) : List Byte :=
  leBytes 8 (fld ftype 0 3 + fld vc 3 2 + fld (bit01 dl) 5 1 + fld tag 6 16)

/-- A control flit (TICK 2, DONE 3, CTRL 4); the layout of its payload is open (log 65). -/
def State.controlFlit (s : State) (p ftype : Nat) : State :=
  let (i, s1) := s.takeFree
  s1.queueFlit p (65536 * 3 + 0xFFFF) (flitHeader ftype 3 false 0xFFFF ++ (List.range 224).map (Config.freeByte i))

/-- IDLE flits, as many as return the credits that are due, and at least one that carries ACK (R367, R368; log 66). -/
def State.idleOut (s : State) (p : Nat) : State :=
  let x := s.port p
  let n := max 1 ((x.creditsDue.map (fun q => ceilDiv q.2 255)).sum)
  (List.range n).foldl (fun (t : State) _ =>
    let y := t.port p
    let (i, t1) := t.takeFree
    let (link, due) := y.linkWord
    let hdr := fld (Config.freeNat i) 22 12 + fld (y.rxSeq + 4095) 34 12 + fld (bit01 y.keyId) 46 1
    let body := leBytes 8 hdr ++ (List.range 240).map (Config.freeByte i)
    (t1.updPort p (fun z => { z with creditsDue := due })).emit (.flit p (closeFlit body link))) s

/-! ## Routing (R372 to R374) -/

/-- The port of a direction that a DATA flit takes (R373). -/
def State.pickPort (s : State) (dir dst addr : Nat) : Option Nat :=
  let planned := (portsOf dir).filter (fun p => (s.port p).plannedWidth != 0)
  let up := s.upPorts dir
  match planned[(dst + addr / 64) % planned.length]? with
  | some p => if up.contains p then some p else up.head?
  | none => up.head?

/-- One hop of a DATA flit: the port, its DL and its payload with DETOUR as it leaves; none where it is dropped (R372, R374). `inDim` is the dimension of the link by which it came. -/
def State.nextHop (s : State) (inDim : Option Nat) (dl : Bool) (pl : List Byte) : Option (Nat × Bool × List Byte) :=
  let self := s.fab.self
  let w0 := ofLe (pl.take 8)
  let dst := bitsOf w0 8 15
  let addr := bitsOf (ofLe ((pl.drop 8).take 8)) 0 48
  let detour := bitOf w0 6
  let matched := [1, 2, 3].all (fun k => coord self k == coord dst k)
  let put (w : Nat) : List Byte := leBytes 8 w ++ pl.drop 8
  match s.hop self dst (detour && !matched) with
  | none => none
  | some (dir, kind) =>
    if detour ∧ kind ≠ 0 then none
    else
      let dim := if 8 ≤ dir then 0 else dir / 2
      let dl1 := if kind = 1 ∨ kind = 3 ∨ (detour ∧ matched) then true
        else wraps self dir || (dl && inDim == some dim)
      let w1 := if kind = 3 then setBits w0 6 2 (1 + 2 * (dir % 2)) else if detour ∧ matched then setBits w0 6 2 0 else w0
      (s.pickPort dir dst addr).map (fun p => (p, dl1, put w1))

/-- Passes a DATA flit on; none where it is dropped. `origin` is 0, or one more than the port by which it came. -/
def State.forward (s : State) (origin vc tag : Nat) (dl : Bool) (pl : List Byte) : Option State :=
  let inDim := if origin = 0 then none else some (let d := dirOf (origin - 1); if 8 ≤ d then 0 else d / 2)
  (s.nextHop inDim dl pl).map (fun h =>
    s.queueFlit h.1 (262144 * origin + 65536 * vc + tag) (flitHeader 1 vc h.2.1 tag ++ h.2.2))

/-! ## Ports that come and go (R366, R368, R373) -/

/-- Credits that a receiver gives at first: its buffers, for every VC 0 to 2 and every tag with a wheel time (R369; log 13). -/
def State.firstCredits (s : State) (p : Nat) : List (Nat × Nat) :=
  let tags := ((s.fab.slotTags.filter (fun q => q.1 / 64 == bit01 (interRack p) && q.1 % 64 != 0)).map Prod.snd).foldl numAdd []
  (List.range 3).flatMap (fun v => tags.map (fun t => (65536 * v + t, Config.bufferFlits)))

/-- A port that has lost its link: its DATA flits move to the lowest UP port of its triple, or are routed anew; its replay buffer moves within a triple (R373). -/
def State.moveQueue (s : State) (p : Nat) : State :=
  let x := s.port p
  let s1 := s.updPort p (fun y => { y with waiting := [], replay := [], credits := [], creditsDue := [] })
  let dir := dirOf p
  match s1.upPorts dir with
  | q :: _ =>
    let sent := x.replay.map (fun r =>
      let hdr := ofLe (r.2.take 8)
      (65536 * bitsOf hdr 3 2 + bitsOf hdr 6 16, leBytes 8 (hdr % 2 ^ 22) ++ (r.2.drop 8).take 224))
    ((if interRack p then [] else sent) ++ x.waiting).foldl (fun t w => t.queueFlit q w.1 w.2) s1
  | [] =>
    x.waiting.foldl (fun t w =>
      let k := classOf w.1
      if k / 65536 = 3 then t
      else (t.forward (w.1 / 262144) (k / 65536) (k % 65536) (bitOf (ofLe (w.2.take 8)) 5) (w.2.drop 8)).getD t) s1

/-- A port that was UP or keying leaves service: LINK_DOWN, and its flits move (R366, R368, R400). -/
def State.portDown (s : State) (p : Nat) (next : PortState) : State :=
  let was := (s.port p).state
  let s1 := s.updPort p (fun x =>
    { x with state := next, half := false, halfSel := false, secure := false, exchange := none, linkKeys := [], newKeys := [],
             txNew := false, rxNew := false, rekeyStalled := false, retryCount := 0 })
  if was = .up then
    ((s1.updFab (fun f => { f with portChanged := true })).moveQueue p).raiseDev (pFab p) 0
  else s1.updPort p (fun x => { x with waiting := [], replay := [], credits := [], creditsDue := [] })

/-- In training, each end of a link sends its device address and port number (R362). -/
def State.nameSelf (s : State) (p : Nat) : State := s.emit (.ctrl p 2 (s.fab.self + 2 ^ 15 * p))

/-- A port is ready to carry DATA: LINK_UP (R365, R395, R400). -/
def State.portUp (s : State) (p : Nat) : State :=
  let s1 := s.updPort p (fun x => { x with state := .up })
  (s1.updFab (fun f => { f with portChanged := true })).raiseDev (pFab p) 1

end Sys2Proof.Machine
end

