-- ==== Sys2Proof/Machine/Kv.lean ====
section
/-! DEFINITION. The KV pager's commands, the commit copies and the placement of overflow rows in the settle phase, and what the plan latch does to sequences (R208 to R216, R220 to R223). -/

namespace Sys2Proof.Machine

/-! ## Commands (R220) -/

/-- KVP_RESULT without VALID (R220). -/
def kvpWord (status op seq : Nat) : Nat := fld status 0 8 + fld op 8 4 + fld seq 12 16

/-- A command of the pager: reserved bits of the word are BAD_ARG (R123, R220). -/
def State.kvpCmd (s : State) (v : View) (posted : Bool) (op seq rsv : Nat) (f : Nat → Nat → State → State × Nat) : State :=
  s.runCmd v pKvp posted (fun t =>
    if rsv ≠ 0 then (t, kvpWord 0x05 op seq)
    else
      let r := f (t.viewDom v pKvp) (t.viewCopy v pKvp) t
      (r.1, kvpWord r.2 op seq))

/-- A slab that has not completed names the sequence in its list as it stands now (R214, R220). -/
def State.namesSeq (s : State) (d seq : Nat) : Bool :=
  (s.dom d).slabs.any (fun b =>
    let a := attBody b.words
    b.state != .ended && (hdrOf b.words).kind == 3 && !a.tensor && (s.attList a).1.any (fun e => e.seq == seq))

/-- SEQ_OPEN: the sequence is ACTIVE and its page table is written invalid (R208, R220). -/
def State.openSeq (s : State) (d c seq : Nat) : State × Nat :=
  let a0 := s.arg c pKvp 0
  let a1 := s.arg c pKvp 1
  let x := s.dom d
  let pt := bitsOf a0 0 48
  let cols := bitsOf a0 48 16
  let layers := bitsOf a1 0 6 + 1
  if pt % 4 ≠ 0 ∨ cols = 0 ∨ !s.inRange d pt (4 * layers * cols) then (s, 0x05)
  else if (x.kvp.seq seq).state ≠ .closed then (s, 0x0A)
  else if 32 * x.rec_.kvPages < x.kvp.heldPages.length + statePages (x.kvp.openSeqs + 1) then (s, 0x0C)
  else
    let q : SeqEntry :=
      { state := .active, dropOk := bitOf a1 6, layers := layers, ptAddr := pt, ptCols := cols,
        wr := List.replicate layers 0, rf := List.replicate layers 0, tent := List.replicate layers 0 }
    ((s.updDom d (fun y => y.updSeq seq (fun _ => q))).wrMem d pt (List.replicate (4 * layers * cols) 0), 0x00)

def execSeqOpen (v : View) (posted : Bool) (seq : W16) (rsv : BitVec 44) (s : State) : Host.Outcome State Fault Refusal :=
  .next (s.kvpCmd v posted 1 seq.toNat rsv.toNat (fun d c t => t.openSeq d c seq.toNat))

/-- SEQ_CLOSE: at the next plan latch (R220). -/
def execSeqClose (v : View) (posted : Bool) (seq : W16) (rsv : BitVec 44) (s : State) : Host.Outcome State Fault Refusal :=
  .next (s.kvpCmd v posted 2 seq.toNat rsv.toNat (fun d _ t =>
    if t.namesSeq d seq.toNat then (t, 0x08) else (t.defer (.seqClose d seq.toNat), 0x00)))

/-- The candidates of an ACCEPT mask, in ascending bit order (R211). -/
def accepted (mask : Nat) : List Nat := (List.range 16).filter (fun i => bitOf mask i)

/-- Row copies of a commit in one layer: those whose candidate is not already in place (R211). -/
def commitCopies (mask : Nat) : List (Nat × Nat) := ((accepted mask).zipIdx).filterMap (fun p => if p.1 = p.2 then none else some (p.1, p.2))

/-- COMMIT: accepted when every layer holds TENT rows of the batch, within the copies of the tick (R211). -/
def State.commitSeq (s : State) (d c seq : Nat) : State × Nat :=
  let a := s.arg c pKvp 0
  let x := s.dom d
  let q := x.kvp.seq seq
  let mask := bitsOf a 0 16
  let tent := q.tent.headD 0
  let n := q.layers * (commitCopies mask).length
  if q.state = .closed ∨ q.commitMask.isSome ∨ tent = 0 ∨ !q.tent.all (fun t => t == tent) ∨ q.tentBatch ≠ bitsOf a 16 16 ∨
      2 ^ tent ≤ mask then (s, 0x0A)
  else if x.kvp.commitRows < x.kvp.commitUsed + n then (s, 0x08)
  else
    let s1 := s.updDom d (fun y => y.updSeq seq (fun z => { z with commitMask := some mask }))
    (s1.updDom d (fun y => y.updKvp (fun k => { k with commitUsed := k.commitUsed + n })), 0x00)

def execKvpCommit (v : View) (posted : Bool) (seq : W16) (rsv : BitVec 44) (s : State) : Host.Outcome State Fault Refusal :=
  .next (s.kvpCmd v posted 3 seq.toNat rsv.toNat (fun d c t => t.commitSeq d c seq.toNat))

/-- The committed length: the least WR (R208). -/
def SeqEntry.len (q : SeqEntry) : Nat := match q.wr with | [] => 0 | w :: r => r.foldl min w

def SeqState.code : SeqState → Nat
  | .closed => 0
  | .active => 1
  | .starved => 2

/-- The four words of QUERY (R208). -/
def SeqEntry.words (q : SeqEntry) : List W64 :=
  [w64 (fld q.len 0 32 + fld (q.tent.foldl max 0) 32 5 + fld q.state.code 37 2 + fld (bit01 q.dropOk) 39 1 + fld (q.layers - 1) 40 6),
   w64 (fld q.ptAddr 0 48 + fld q.ptCols 48 16),
   w64 (fld q.dropEnd 0 32 + fld (q.rf.getD (q.layers - 1) 0) 32 32),
   w64 (fld q.tentBatch 0 16 + fld q.lastStatus 16 8)]

/-- Puts words into argument registers from 0 on. -/
def State.putArgs (s : State) (c page : Nat) (ws : List W64) : State :=
  (ws.zipIdx).foldl (fun t p => t.putArg c page p.2 p.1) s

/-- QUERY (R220). -/
def State.querySeq (s : State) (d c seq : Nat) : State × Nat :=
  let a := s.arg c pKvp 0
  let q := (s.dom d).kvp.seq seq
  let l := bitsOf a 0 6
  if !bitOf a 6 then (s.putArgs c pKvp q.words, 0x00)
  else if q.layers ≤ l then (s, 0x05)
  else (s.putArgs c pKvp [w64 (fld (q.wr.getD l 0) 0 32 + fld (q.rf.getD l 0) 32 32), 0, 0, 0], 0x00)

def execKvpQuery (v : View) (posted : Bool) (seq : W16) (rsv : BitVec 44) (s : State) : Host.Outcome State Fault Refusal :=
  .next (s.kvpCmd v posted 4 seq.toNat rsv.toNat (fun d c t => t.querySeq d c seq.toNat))

/-- SET_DROP: at the next plan latch (R220). -/
def execSetDrop (v : View) (posted : Bool) (seq : W16) (rsv : BitVec 44) (s : State) : Host.Outcome State Fault Refusal :=
  .next (s.kvpCmd v posted 5 seq.toNat rsv.toNat (fun d c t =>
    (t.defer (.setDrop d seq.toNat (bitOf (t.arg c pKvp 0) 0)), 0x00)))

/-- KVP_GEOM: written only while no sequence of the domain is open, and refused where fewer than 16 rows fit a page (R205, R221; log 79). -/
def State.writeGeom (s : State) (d value : Nat) : State :=
  if (s.dom d).kvp.openSeqs = 0 ∧ 16 ≤ kvPageRows (bitsOf value 0 7) (bitsOf value 7 4) then
    s.updDom d (fun x => x.updKvp (fun k => { k with h := bitsOf value 0 7, d32 := bitsOf value 7 4 }))
  else s

def execKvpGeomWrite (v : View) (value : W32) (s : State) : Host.Outcome State Fault Refusal :=
  .next (if s.viewOpen v then s.writeGeom (s.viewDom v pKvp) value.toNat else s)

/-! ## Commits in the settle phase (R211) -/

/-- Writes a row at a position of a layer: into its overflow row, or into its column's page; a position without either takes no row. -/
def State.setRow (s : State) (d seq layer pos : Nat) (bytes : List Byte) : State :=
  let x := s.dom d
  let k := x.kvp
  let q := k.seq seq
  let same (r : OvfRow) : Bool := r.seq == seq && r.layer == layer && r.pos == pos
  if k.ovf.any same then
    s.updDom d (fun y => y.updKvp (fun z => { z with ovf := z.ovf.map (fun r => if same r then { r with bytes := bytes } else r) }))
  else match mapGet q.pages (65536 * layer + pos / k.tpp) with
    | some page => s.wrMem d (x.kvAddr page + pos % k.tpp * k.bpt) bytes
    | none => s

/-- The rows that a commit leaves, layer by layer; the source rows are read before any is written. -/
def State.commitLayer (s : State) (d seq layer mask : Nat) : State :=
  let wr := ((s.dom d).kvp.seq seq).wr.getD layer 0
  let rows := (commitCopies mask).map (fun p => (p.2, s.kvRow d seq layer (wr + p.1) []))
  rows.foldl (fun t p => match p.2 with
    | .row bytes _ => t.setRow d seq layer (wr + p.1) bytes
    | .fault => t) s

/-- One accepted commit (R211). -/
def State.commitRun (s : State) (d seq : Nat) : State :=
  let q := (s.dom d).kvp.seq seq
  match q.commitMask with
  | none => s
  | some mask =>
    let s1 := (List.range q.layers).foldl (fun t l => t.commitLayer d seq l mask) s
    let n := (accepted mask).length
    let s2 := s1.updDom d (fun x => x.updSeq seq (fun z =>
      { z with commitMask := none, tent := z.tent.map (fun _ => 0), wrGain := n }))
    s2.updDom d (fun x => x.updKvp (fun k =>
      { k with ovf := k.ovf.filterMap (fun r =>
          if r.seq = seq ∧ r.tentative then
            (if r.pos < q.wr.getD r.layer 0 + n then some { r with tentative := false } else none)
          else some r) }))

/-- Copies that the commits of this tick make (T_pg of R213). -/
def KvpDom.commitCopyCount (k : KvpDom) : Nat :=
  (k.seqs.map (fun p => match p.2.commitMask with | some m => p.2.layers * (commitCopies m).length | none => 0)).sum

/-! ## Overflow placement (R213, R214, R215) -/

/-- The victim column of a sequence, where it has one (R214). -/
def SeqEntry.victim (q : SeqEntry) (tpp : Nat) : Option Nat :=
  let c := q.dropEnd / tpp
  if tpp ≠ 0 ∧ q.state ≠ .closed ∧ (c + 1) * tpp ≤ q.len then some c else none

/-- Clears VALID of page table entries (R214). -/
def State.invalidate (s : State) (d seq : Nat) (keys : List Nat) : State :=
  let q := (s.dom d).kvp.seq seq
  keys.foldl (fun t k =>
    let a := q.ptEntry (k / 65536) (k % 65536)
    t.wrMem d a (leBytes 4 (bitsOf (ofLe (t.rdMem d a 4).1) 0 24))) s

/-- Drops a column of a sequence in every layer (R214). -/
def State.dropColumn (s : State) (d seq col : Nat) : State :=
  let k := (s.dom d).kvp
  let keys := ((k.seq seq).pages.filter (fun p => p.1 % 65536 == col)).map Prod.fst
  let s1 := s.invalidate d seq keys
  (s1.updDom d (fun x => x.updSeq seq (fun q =>
    { q with pages := q.pages.filter (fun p => p.1 % 65536 != col), colTick := mapDel q.colTick col,
             dropEnd := (col + 1) * k.tpp, state := .starved }))).bump d pKvp 1 keys.length

/-- The next victim of other sequences: oldest allocation tick first, lower SEQ on a tie (R214). -/
def State.nextVictim (s : State) (d seq : Nat) : Option (Nat × Nat) :=
  let k := (s.dom d).kvp
  let cands := k.seqs.filterMap (fun p =>
    if p.1 = seq ∨ !p.2.dropOk ∨ s.namesSeq d p.1 then none
    else (p.2.victim k.tpp).map (fun c => ((mapGet p.2.colTick c).getD 0, p.1, c)))
  (cands.foldl (fun best x => match best with
    | none => some x
    | some y => if x.1 < y.1 then some x else some y) (none : Option (Nat × Nat × Nat))).map (fun x => (x.2.1, x.2.2))

/-- Frees victim columns until `need` pages are free or no victim is left; the sequences that lost pages, with the cause (R214, R215). -/
def State.freeFor (s : State) (d seq need : Nat) : Nat → List (Nat × Nat) → State × List (Nat × Nat)
  | 0, lost => (s, lost)
  | f + 1, lost =>
    if need ≤ (s.dom d).kvFree then (s, lost)
    else match s.nextVictim d seq with
      | some (v, c) => State.freeFor (s.dropColumn d v c) d seq need f (lost ++ [(v, 0)])
      | none =>
        if s.namesSeq d seq then (s, lost)
        else match ((s.dom d).kvp.seq seq).victim (s.dom d).kvp.tpp with
          | some c => State.freeFor (s.dropColumn d seq c) d seq need f (lost ++ [(seq, 1)])
          | none => (s, lost)

/-- Drops a sequence whole (R213). -/
def State.dropWhole (s : State) (d seq : Nat) : State :=
  let q := (s.dom d).kvp.seq seq
  let e := q.wr.foldl max 0
  let s1 := s.invalidate d seq (q.pages.map Prod.fst)
  let s2 := s1.updDom d (fun x => x.updSeq seq (fun z =>
    { z with pages := [], colTick := [], dropEnd := e, wr := z.wr.map (fun _ => e), rf := z.rf.map (fun _ => 0),
             tent := z.tent.map (fun _ => 0), commitMask := none, wrGain := 0, lostRows := 0, state := .starved }))
  s2.updDom d (fun x => x.updKvp (fun k => { k with ovf := k.ovf.filter (fun r => r.seq != seq) }))

/-- Columns of a sequence that its overflow rows need and no page backs: layer and column keys. -/
def KvpDom.needs (k : KvpDom) (seq : Nat) : List Nat :=
  let q := k.seq seq
  (((k.ovf.filter (fun r => r.seq == seq)).map (fun r => 65536 * r.layer + r.pos / k.tpp)).filter
    (fun key => (mapGet q.pages key).isNone)).dedup

/-- Takes a page for a column of a sequence, with its page table entry (R208). -/
def State.takePage (s : State) (d seq key : Nat) : State :=
  let x := s.dom d
  let page := x.lowestKv
  let col := key % 65536
  let s1 := (s.updDom d (fun y => y.updSeq seq (fun z =>
    { z with pages := mapSet z.pages key page,
             colTick := if (mapGet z.colTick col).isSome then z.colTick else mapSet z.colTick col s.tik.tick }))).bump
    d pKvp 0 1
  s1.wrMem d ((x.kvp.seq seq).ptEntry (key / 65536) col) (leBytes 4 (page + 2 ^ 24))

/-- One starving sequence (R213): its pages are found and its rows written, or it is dropped whole. -/
def State.placeSeq (s : State) (d seq : Nat) : State × List (Nat × Nat) :=
  let k := (s.dom d).kvp
  let fuel := (k.seqs.map (fun p => p.2.colTick.length)).sum + 1
  if (k.seq seq).lostRows ≠ 0 then (s.dropWhole d seq, [(seq, 2)])
  else
    let need := (k.needs seq).length
    let (s1, lost) := s.freeFor d seq need fuel []
    if (s1.dom d).kvFree < need then (s1.dropWhole d seq, lost ++ [(seq, 2)])
    else
      let s2 := (k.needs seq).foldl (fun t key => t.takePage d seq key) s1
      let rows := k.ovf.filter (fun r => r.seq == seq)
      let s3 := s2.updDom d (fun x => x.updKvp (fun z => { z with ovf := z.ovf.filter (fun r => r.seq != seq) }))
      (rows.foldl (fun t r => t.setRow d seq r.layer r.pos r.bytes) s3, lost)

/-- One drop record, or DROP_RING_FULL (R215). -/
def State.dropRecord (s : State) (d seq cause : Nat) : State :=
  let k := (s.dom d).kvp
  let size := 2 ^ k.dropLog2
  let w := fld seq 0 16 + fld (k.seq seq).dropEnd 16 32 + fld cause 48 2 + fld 1 63 1
  if (k.dropHead - k.dropTail).toNat = size then (s.raiseDom pKvp 2 d).raiseDom pKvp 1 d
  else
    let s1 := s.wrMem d (k.dropBase + 8 * (k.dropHead.toNat % size)) (leBytes 8 w)
    (s1.updDom d (fun x => x.updKvp (fun z => { z with dropHead := z.dropHead + 1 }))).raiseDom pKvp 1 d

/-- One record a sequence, with the last of its causes, in the order of the first losses. -/
def lastCauses (l : List (Nat × Nat)) : List (Nat × Nat) :=
  (l.map Prod.fst).dedup.map (fun q => (q, ((l.filter (fun p => p.1 == q)).map Prod.snd).foldl max 0))

/-- Planned settle work of the pager, in ns, where an overflow row was in use (R213). -/
def Dom.pagerNs (x : Dom) : Nat :=
  let rows := x.kvp.ovf.length
  if rows = 0 then 0
  else 1000 + ceilDiv ((rows + 2 * x.kvp.commitCopyCount) * x.kvp.bpt * 10) (1024 * max x.rate 1)

/-- The pager's settle work for one domain: commits, then overflow placement (R211, R213). -/
def State.kvSettle (s : State) (d : Nat) : State :=
  let x := s.dom d
  let ns := x.pagerNs
  let s1 := (x.kvp.seqs.map Prod.fst).foldl (fun t q => t.commitRun d q) s
  let starving := ((s1.dom d).kvp.ovf.map (fun r => r.seq) ++
    ((s1.dom d).kvp.seqs.filter (fun p => p.2.lostRows != 0)).map Prod.fst).foldl numAdd []
  let (s2, lost) := starving.foldl (fun (a : State × List (Nat × Nat)) q =>
    let r := a.1.placeSeq d q
    (r.1, a.2 ++ r.2)) (s1, [])
  let s3 := (lastCauses lost).foldl (fun t p => t.dropRecord d p.1 p.2) s2
  let excess := ns - 1000 * (s.tik.settleUs - s.tik.gdUs)
  let s4 := s3.updDom d (fun y => { y with kvp := { y.kvp with commitUsed := 0 }, lagNext := y.lagNext + excess })
  if ns = 0 then s4 else s4.addStretch d 0x15 ns

/-! ## The plan latch (R209, R211, R220) -/

/-- SEQ_CLOSE takes effect: pages freed, state CLOSED. -/
def State.latchSeqClose (s : State) (d seq : Nat) : State :=
  (s.updDom d (fun x => x.updSeq seq (fun _ => {}))).updDom d (fun x =>
    x.updKvp (fun k => { k with ovf := k.ovf.filter (fun r => r.seq != seq) }))

/-- A sequence at the latch: accepted rows join WR, and a finished refill makes it ACTIVE again (R209, R211). -/
def SeqEntry.latch (q : SeqEntry) : SeqEntry :=
  let q1 := { q with wr := q.wr.map (fun w => w + q.wrGain), wrGain := 0 }
  if q1.state = .starved ∧ q1.dropEnd ≤ q1.rf.getD (q1.layers - 1) 0 then
    { q1 with state := .active, dropEnd := 0, rf := q1.rf.map (fun _ => 0) }
  else q1

/-- Every sequence of a domain at the latch. -/
def Dom.latchSeqs (x : Dom) : Dom :=
  x.updKvp (fun k => { k with seqs := k.seqs.map (fun p => (p.1, p.2.latch)) })

end Sys2Proof.Machine
end

