-- ==== Sys2Proof/Machine/Domain.lean ====
section
/-! DEFINITION. Domains: the record of CREATE and RESIZE, the pools, the requests that make, change and end a domain, the scrub, and what of them takes effect at the plan latch (R420 to R427, R434, R447, R448, R459). -/

namespace Sys2Proof.Machine

/-! ## Locksmith's mailbox (R459, R460, R123) -/

/-- LKS_RESULT and LKS_DONE without VALID (R460). -/
def lksWord (status op : Nat) : Nat := fld status 0 8 + fld op 8 8

/-- A request written to LKS_CMD: from region 0 or a VF; reserved bits are BAD_ARG, a PF request from a VF is NOT_GRANTED, and the PF is BUSY while a creation report signs (R123, R440, R459). -/
def State.lksCmd (s : State) (v : View) (posted : Bool) (op rsv : Nat) (pfOnly : Bool) (f : Nat → State → State × Nat) : State :=
  if isPf v && !isRegion0 v then s
  else
    s.runCmd v pLks posted (fun t =>
      if rsv ≠ 0 then (t, lksWord 0x05 op)
      else if pfOnly && !isPf v then (t, lksWord 0x0E op)
      else if isPf v && t.lks.engineA != [] then (t, lksWord 0x08 op)
      else
        let r := f (t.viewCopy v pLks) t
        (r.1, lksWord r.2 op))

/-- The domain that a request names: its own for a VF, the DOMAIN field for the PF (R459, R460). -/
def lksDomain (v : View) (d : Fin 64) : Nat :=
  match v with
  | .vf n => n.val
  | .pf _ => d.val

/-- The final status of accepted work: LKS_DONE, REQ_DONE, and vector 32 + d for a PF request (R459, R408). -/
def State.lksFinal (s : State) (copy op status d : Nat) : State :=
  let s1 := (s.putPair copy pLks { s.pair copy pLks with done := w64 (lksWord status op + 2 ^ 63) }).raiseCopy pLks 0 copy
  if 64 ≤ copy then s1.msix 0 (32 + d) else s1

/-! ## The record (R421) -/

/-- The record in argument words 0 to 6. -/
def recordOf (w : List Nat) : DomRecord :=
  let g (i lo n : Nat) : Nat := bitsOf (w.getD i 0) lo n
  { kln3Grad := g 0 6 1 == 1, kln3Mem := g 0 7 1 == 1, attest := g 0 8 1 == 1, arrFirstUnit := g 0 16 6,
    arrUnits := g 0 22 7, bankFirst := g 0 32 7, banks := g 0 39 7, nsb := g 0 46 6, winFirst := g 1 0 7,
    winBanks := g 1 7 6, weight := g 1 13 10, rate := g 1 23 9, rateT := g 1 32 7, range := g 2 0 27, quota := g 2 27 18,
    cachePage0 := g 3 0 27, cachePages := g 3 27 18, kvPage0 := g 4 0 27, kvPages := g 4 27 18, slotFirst := g 5 0 14,
    slotCount := g 5 14 15, ns := g 5 29 4, lbaBase := g 6 0 48 }

/-- The words of a record, with ATTEST and DOMAIN (R421). -/
def recordWords (r : DomRecord) (d : Nat) : List W64 :=
  [w64 (fld d 0 6 + fld (bit01 r.kln3Grad) 6 1 + fld (bit01 r.kln3Mem) 7 1 + fld (bit01 r.attest) 8 1 +
     fld r.arrFirstUnit 16 6 + fld r.arrUnits 22 7 + fld r.bankFirst 32 7 + fld r.banks 39 7 + fld r.nsb 46 6),
   w64 (fld r.winFirst 0 7 + fld r.winBanks 7 6 + fld r.weight 13 10 + fld r.rate 23 9 + fld r.rateT 32 7),
   w64 (fld r.range 0 27 + fld r.quota 27 18), w64 (fld r.cachePage0 0 27 + fld r.cachePages 27 18),
   w64 (fld r.kvPage0 0 27 + fld r.kvPages 27 18),
   w64 (fld r.slotFirst 0 14 + fld r.slotCount 14 15 + fld r.ns 29 4), w64 (fld r.lbaBase 0 48)]

/-- No reserved bit of the record is set. -/
def recordPlain (w : List Nat) : Bool :=
  let z (i lo n : Nat) : Bool := bitsOf (w.getD i 0) lo n == 0
  z 0 9 7 && z 0 29 3 && z 0 52 12 && z 1 39 25 && z 2 45 19 && z 3 45 19 && z 4 45 19 && z 5 33 31 && z 6 48 16

/-- [a, a + n) and [b, b + m) share a number. -/
def meets (a n b m : Nat) : Bool := n != 0 && m != 0 && decide (a < b + m) && decide (b < a + n)

/-- n pages from p lie in the range of a record (R421, R280). -/
def DomRecord.holdsPages (r : DomRecord) (d p n : Nat) : Bool :=
  n == 0 || d == 0 ||
    (if r.kln3Mem then decide (p + n ≤ 65536) || (decide (2 ^ 19 ≤ p) && decide (p + n ≤ 2 ^ 19 + r.range))
     else decide (p + n ≤ r.range))

/-- The fields of a record that do not depend on other domains (BAD_ARG of R422). -/
def DomRecord.fieldsOk (r : DomRecord) (d : Nat) : Bool :=
  (d == 0 || 1 ≤ r.arrUnits) && decide (r.arrUnits ≤ 64) && decide (r.arrFirstUnit + r.arrUnits ≤ 64) &&
  decide (r.banks ≤ 96) && decide (r.bankFirst + r.banks ≤ 96) && decide (r.nsb ≤ 32) && decide (r.nsb ≤ r.banks) &&
  decide (r.winBanks ≤ 32) &&
  (r.winBanks == 0 || (decide (r.bankFirst ≤ r.winFirst) && decide (r.winFirst + r.winBanks ≤ r.bankFirst + r.banks))) &&
  !meets r.winFirst r.winBanks r.bankFirst r.nsb && r.weight != 0 && (d == 0 || r.rate != 0) &&
  (!r.kln3Mem || decide (r.range ≤ 2 ^ 19)) && r.holdsPages d r.cachePage0 r.cachePages && r.holdsPages d r.kvPage0 r.kvPages &&
  !meets r.cachePage0 r.cachePages r.kvPage0 r.kvPages && decide (r.cachePages + r.kvPages ≤ r.quota) &&
  (!r.kln3Mem || decide (65536 ≤ r.quota)) && decide (r.slotFirst + r.slotCount ≤ 16384) && decide (r.ns ≤ 8)

/-- Overhead frames (R420); domain 0's range has 2^27 pages (R423). -/
def DomRecord.ovhFrames (r : DomRecord) (d : Nat) : Nat :=
  let a := 128 * r.arrUnits
  let range := if d = 0 then 2 ^ 27 else if r.kln3Mem then 65536 + r.range else r.range
  ceilDiv (16384 * a + 49152 * a + 4096 * a / 16 + 2097152 * r.banks + 8 * range) 2097152

/-! ## The pools (R420, R422) -/

/-- The record that a domain will hold once the requests waiting for a latch have taken effect. -/
def Dom.dueRecord (x : Dom) : DomRecord :=
  x.requests.foldl (fun r q => match q.1 with
    | .resize r2 => r2
    | .lend _ _ _ => r
    | .reclaim _ => r
    | .mapShared _ _ _ => r
    | .unmapShared _ _ => r) x.rec_

/-- The records whose resources a domain holds: its own, those it is to have, and those it leaves (R427). -/
def Dom.heldRecords (x : Dom) : List DomRecord :=
  if x.phase == .free then []
  else [x.rec_] ++ (match x.leaving with | some r => [r] | none => []) ++ (if x.requests.isEmpty then [] else [x.dueRecord])

/-- WEIGHT, RATE and RATE_T of a domain as they will stand (R269, R321). -/
def State.dueShares (s : State) (d : Nat) : Nat × Nat × Nat :=
  let x := s.dom d
  let r := x.dueRecord
  let base := if x.requests.isEmpty then (x.weight, x.rate, x.rateT) else (r.weight, r.rate, r.rateT)
  s.atLatch.foldl (fun w a => match a with
    | .weight e n => if e = d then (n, w.2) else w
    | .rates e n t => if e = d then (w.1, n, t) else w
    | _ => w) base

/-- WEIGHTs, RATEs and RATE_Ts of all domains but d, summed: the rates over all 64 (R269), the weights of those that are not FREE (R321). -/
def State.otherShares (s : State) (d : Nat) : Nat × Nat × Nat :=
  s.doms.foldl (fun t p => if p.1 = d then t
    else
      let w := s.dueShares p.1
      (t.1 + (if p.2.phase = .free ∧ p.1 ≠ 0 then 0 else w.1), t.2.1 + w.2.1, t.2.2 + w.2.2)) (0, 0, 0)

/-- Total rates keep R269. -/
def State.ratesOk (s : State) (rate rateT : Nat) : Bool :=
  if s.memg.tmode then decide (rate ≤ 192) && decide (rateT ≤ 64) else decide (rate ≤ 256) && rateT == 0

/-- Units out on loan: first, count and lender (R427). -/
def State.loans (s : State) : List (Nat × Nat × Nat) := s.doms.filterMap (fun p => p.2.loan)

/-- A domain's extent lies in its namespace and meets no other extent (R300, R422; log 54). -/
def State.extentFree (s : State) (d : Nat) (r : DomRecord) : Bool :=
  let w := (s.nvm.nsMap.getD (r.ns - 1) 0).toNat
  r.ns == 0 ||
    (bitOf w 33 && decide (r.lbaBase + 512 * r.range ≤ Config.nsBlocks (w % 2 ^ 33)) &&
      s.doms.all (fun p => p.1 == d || p.2.heldRecords.all (fun q =>
        q.ns != r.ns || !meets q.lbaBase (512 * q.range) r.lbaBase (512 * r.range))))

/-- The row NO_RESOURCE of R422 does not apply: what the record takes is free or the domain's own. -/
def State.resourcesFree (s : State) (d : Nat) (r : DomRecord) : Bool :=
  let others := s.doms.filter (fun p => p.1 != d)
  let held := others.flatMap (fun p => p.2.heldRecords)
  let o := s.otherShares d
  held.all (fun q => !meets q.arrFirstUnit q.arrUnits r.arrFirstUnit r.arrUnits && !meets q.bankFirst q.banks r.bankFirst r.banks &&
    !meets q.slotFirst q.slotCount r.slotFirst r.slotCount) &&
  s.loans.all (fun l => l.2.2 == d || !meets l.1 l.2.1 r.arrFirstUnit r.arrUnits) &&
  s.boot.badUnits.all (fun u => !meets u 1 r.arrFirstUnit r.arrUnits) &&
  decide (o.1 + r.weight ≤ s.tik.wCap) && s.ratesOk (o.2.1 + r.rate) (o.2.2 + r.rateT) &&
  decide ((others.map (fun p => if p.2.phase == .free then 0 else p.2.dueRecord.nsb)).sum + r.nsb ≤ 32) &&
  (!r.kln3Mem || decide ((others.filter (fun p => p.2.phase != .free && p.2.rec_.kln3Mem)).length < 2)) &&
  s.extentFree d r

/-! ## CREATE (R422) -/

/-- Drops the event, enable and counter state, the command pairs and the counters of a domain's views (R422, R512); the manager's own mailbox stays. -/
def State.resetViews (s : State) (d : Nat) : State :=
  let mine (c : Nat) : Bool := c / 256 == d || (c / 256 == 64 + d && c % 256 != pLks)
  { s with views := s.views.filter (fun p => !mine p.1), pairs := s.pairs.filter (fun p => !mine p.1),
           counters := s.counters.filter (fun p => p.1 / 8 / 256 != d),
           stretch := s.stretch.filter (fun p => p.1 / 64 != d),
           latches := s.latches.filter (fun p => p.1 / 2 ^ 24 != d),
           pci := { s.pci with creditMsg := mapDel s.pci.creditMsg d } }

/-- Slots that leave or enter a domain's range stand FREE with GEN 0 (R118, R145). -/
def State.freeSlots (s : State) (first count : Nat) : State :=
  { s with slots := s.slots.filter (fun p => p.1 < first || first + count ≤ p.1) }

/-- The frames of a domain at its creation: its overhead, the pages STACKED then, and the rest of its quota (R288, R420). -/
def DomRecord.tirOf (r : DomRecord) (d : Nat) (frames : List (Nat × Nat)) : TirDom :=
  let (ovh, quota) := runsTake (r.ovhFrames d) frames
  let (born, spare) := runsTake (r.rangeBelow (2 ^ 27)) quota
  { frames := frames, ovhFrames := ovh, born := born, spare := spare }

/-- An accepted CREATE: resources taken, keys drawn and loaded, registers at reset but for the record (R422, R441). -/
def State.createDom (s : State) (d copy : Nat) (r : DomRecord) : State :=
  let (k0, s1) := s.takeDraw
  let (k1, s2) := s1.takeDraw
  let (k2, s2') := s2.takeDraw
  let (fr, s3) := s2'.pickRuns (r.quota + r.ovhFrames d) s.freeRuns
  let x : Dom :=
    { phase := .creating, rec_ := r, ovh := r.ovhFrames d, quota0 := r.quota, weight := r.weight, rate := r.rate,
      rateT := r.rateT, doneDue := some (copy, 0x01), tir := r.tirOf d fr,
      keys := { slot0 := some k0, round := .drawn k1, kem := some k2 } }
  let s4 := (((s3.resetViews d).freeSlots r.slotFirst r.slotCount).putDom d x).updLks (fun l =>
    { l with engineA := if r.attest then l.engineA ++ [d] else l.engineA })
  ({ s4 with freeFrames := s4.freeFrames - (r.quota + r.ovhFrames d) }).msix 0 (32 + d)

/-- Life-cycle states that allow tenant domains (R436). -/
def State.tenantsAllowed (s : State) : Bool := s.fuses.life == .devel || s.fuses.life == .prod

/-- CREATE: the first failing row of R422, or the creation. `again` marks a held request that executes. -/
def State.createReq (s : State) (copy : Nat) (w : List Nat) (again : Bool) : State × Nat :=
  let d := bitsOf (w.getD 0 0) 0 6
  let r := recordOf w
  let x := s.dom d
  if !recordPlain w || d == 0 || !r.fieldsOk d then (s, 0x05)
  else if !(x.phase == .free || x.phase == .scrubbing) || !s.tenantsAllowed then (s, 0x0A)
  else if x.held.isSome && !again then (s, 0x08)
  else if !s.resourcesFree d r then (s, 0x0F)
  else if s.freeFrames < r.quota + r.ovhFrames d then (s, 0x10)
  else if x.phase == .scrubbing then (s.updDom d (fun y => { y with held := some (r, copy) }), 0x11)
  else (s.createDom d copy r, 0x01)

/-- The argument words of a mailbox. -/
def State.lksArgs (s : State) (copy : Nat) : List Nat := (List.range 8).map (s.arg copy pLks)

/-- CREATE (R422). -/
def execCreate (v : View) (posted : Bool) (d : Fin 64) (rsv : BitVec 50) (s : State) : Host.Outcome State Fault Refusal :=
  let _ := d
  .next (s.lksCmd v posted 0x01 rsv.toNat true (fun c t => t.createReq c (t.lksArgs c) false))

/-- Creation completes: the domain becomes ACTIVE at the latch that its cut-off allows (R422). A creation report is signed first (R440). -/
def execCreateComplete (d : Fin 64) (s : State) : Host.Outcome State Fault Refusal :=
  let x := s.dom d.val
  .next (if x.phase == .creating && !x.created && !s.lks.engineA.contains d.val then
    s.updDom d.val (fun y => { y with created := true, activeAt := some s.effectTick })
  else s)

/-- A held CREATE executes when the scrub has ended (R422, R425): vector 32 + d, and its final status when it fails. -/
def execHeldRequestExecute (d : Fin 64) (s : State) : Host.Outcome State Fault Refusal :=
  let x := s.dom d.val
  .next (match x.held with
    | none => s
    | some (r, c) =>
      if x.phase != .free then s
      else
        let s1 := s.updDom d.val (fun y => { y with held := none })
        let q := s1.createReq c ((recordWords r d.val).map BitVec.toNat) true
        if q.2 = 0x01 then q.1 else q.1.lksFinal c 0x01 q.2 d.val)

/-! ## The end of a domain (R423 to R425) -/

/-- DESTROY, an FLR or the clearing of VF Enable: the teardown is due at the latch that the cut-off allows, or where a creating domain would have become ACTIVE (R423). -/
def State.tearDown (s : State) (d : Nat) : State :=
  let x := s.dom d
  if x.phase == .free || x.phase == .scrubbing then s
  else s.updDom d (fun y => { y with teardownAt := some (match y.teardownAt with
    | some t => t
    | none => if y.phase == .creating then 0 else s.effectTick) })

/-- DESTROY (R423, R426). -/
def execDestroy (v : View) (posted : Bool) (d : Fin 64) (rsv : BitVec 50) (s : State) : Host.Outcome State Fault Refusal :=
  .next (s.lksCmd v posted 0x03 rsv.toNat true (fun c t =>
    if d.val = 0 then (t, 0x05)
    else if !(t.dom d.val).alive then (t, 0x0A)
    else ((t.tearDown d.val).updDom d.val (fun y => { y with doneDue := some (c, 0x03) }), 0x01)))

/-- A function's MSI-X state goes back to its reset by a Function Level Reset (PRESUMED: PCI Express, log 9). -/
def State.resetFn (s : State) (n : Nat) : State :=
  s.updPci (fun p =>
    { p with unmasked := p.unmasked.filter (fun k => k / 2048 != n), pendingBits := p.pendingBits.filter (fun k => k / 2048 != n),
             msixTable := p.msixTable.filter (fun c => c.1 / 2 ^ 20 != n) })

/-- A Function Level Reset of VF n: Configuration Request Retry Status until its domain is FREE (R423, R425, R483). -/
def execVfFlr (n : Fin 64) (s : State) : Host.Outcome State Fault Refusal :=
  let d := n.val
  .next (if d = 0 ∨ !s.pci.vfEnable ∨ s.pci.numVfs < d then s
  else
    let s1 := ((s.resetFn d).bump dev pPci 3 1).raiseDev pPci 3
    if (s.dom d).phase == .free then s1
    else (s1.updPci (fun p => { p with flr := numAdd p.flr d })).tearDown d)

/-- VF Enable and NumVFs as software writes them (R425, R482, R483). Clearing VF Enable tears every tenant domain down; a VF enabled before its domain is FREE answers with Retry Status. -/
def execVfEnableChange (on : Bool) (numVfs : Nat) (s : State) : Host.Outcome State Fault Refusal :=
  .next (if on = s.pci.vfEnable ∧ numVfs = s.pci.numVfs then s
  else
    let shut := allDomains.filter (fun d => d != 0 && ((s.dom d).teardownAt.isSome || (s.dom d).phase == .scrubbing))
    let s1 := s.updPci (fun p => { p with vfEnable := on, numVfs := numVfs, flr := if on && !s.pci.vfEnable then shut else p.flr })
    let s2 := if on = s.pci.vfEnable then s1 else s1.raiseDev pPci 4
    if on then s2 else (allDomains.drop 1).foldl (fun t d => (t.resetFn d).tearDown d) s2)

/-! ## RESIZE, loans and shared pages (R426, R427) -/

/-- The frames a record takes: QUOTA and overhead. -/
def DomRecord.frames (r : DomRecord) (d : Nat) : Nat := r.quota + r.ovhFrames d

/-- The fields that RESIZE must leave equal (R426). -/
def DomRecord.sameShape (r q : DomRecord) : Bool :=
  r.kln3Grad == q.kln3Grad && r.kln3Mem == q.kln3Mem && r.range == q.range && r.cachePage0 == q.cachePage0 &&
  r.cachePages == q.cachePages && r.kvPage0 == q.kvPage0 && r.kvPages == q.kvPages && r.ns == q.ns && r.lbaBase == q.lbaBase

/-- Numbers of [a, a + n) outside [b, b + m). -/
def removed (a n b m : Nat) : List Nat := (List.range' a n).filter (fun k => k < b || b + m ≤ k)

/-- What RESIZE may remove: FREE slots, units outside the RT range and the overflow arrays, free frames (R427). -/
def State.shrinkOk (s : State) (d : Nat) (r : DomRecord) : Bool :=
  let x := s.dom d
  let q := x.dueRecord
  (removed q.slotFirst q.slotCount r.slotFirst r.slotCount).all (fun k => (s.slot k).state == .free) &&
  (removed q.arrFirstUnit q.arrUnits r.arrFirstUnit r.arrUnits).all (fun u =>
    !meets u 1 x.rtFirst x.rtUnits && !meets (128 * u) 128 x.kvp.ovfFirst x.kvp.ovfCount) &&
  decide (x.framesUsed ≤ r.quota)

/-- RESIZE: the rows of R426 in the order of R422; it waits for its latch, and the frames that it adds are taken now. -/
def State.resizeReq (s : State) (copy : Nat) (w : List Nat) : State × Nat :=
  let d := bitsOf (w.getD 0 0) 0 6
  let r := recordOf w
  let x := s.dom d
  let q := x.dueRecord
  if !recordPlain w || !r.fieldsOk d || !r.sameShape q || !s.shrinkOk d r then (s, 0x05)
  else if x.phase != .active then (s, 0x0A)
  else if !s.resourcesFree d r then (s, 0x0F)
  else if s.freeFrames + q.frames d < r.frames d then (s, 0x10)
  else
    let (fr, s0) := s.pickRuns (r.frames d - q.frames d) s.freeRuns
    let s1 := s0.updDom d (fun y =>
      { y with requests := y.requests ++ [(.resize r, copy)],
               tir := { y.tir with frames := fr.foldl runsPut y.tir.frames, spare := fr.foldl runsPut y.tir.spare } })
    ({ s1 with freeFrames := s1.freeFrames - (r.frames d - q.frames d) }, 0x01)

def execResize (v : View) (posted : Bool) (d : Fin 64) (rsv : BitVec 50) (s : State) : Host.Outcome State Fault Refusal :=
  let _ := d
  .next (s.lksCmd v posted 0x02 rsv.toNat true (fun c t => t.resizeReq c (t.lksArgs c)))

/-- Adds a request that waits for its latch. -/
def State.addRequest (s : State) (d copy : Nat) (q : DomRequest) : State :=
  s.updDom d (fun y => { y with requests := y.requests ++ [(q, copy)] })

/-- A LEND that waits for its latch, to a domain. -/
def State.lendWaits (s : State) (d : Nat) : Bool :=
  s.doms.any (fun p => p.2.requests.any (fun q => match q.1 with
    | .lend tgt _ _ => tgt == d
    | .resize _ => false
    | .reclaim _ => false
    | .mapShared _ _ _ => false
    | .unmapShared _ _ => false))

/-- LEND: FROM PREEMPTED, TO ACTIVE with no loan of its own (R426, R427; log 57). -/
def execLend (v : View) (posted : Bool) (d : Fin 64) (rsv : BitVec 50) (s : State) : Host.Outcome State Fault Refusal :=
  let _ := d
  .next (s.lksCmd v posted 0x04 rsv.toNat true (fun c t =>
    let a := t.arg c pLks 0
    let src := bitsOf a 0 6
    let tgt := bitsOf a 6 6
    let first := bitsOf a 12 6
    let units := bitsOf a 18 7
    if (t.dom src).phase != .preempted || (t.dom tgt).phase != .active || (t.dom tgt).loan.isSome || t.lendWaits tgt then (t, 0x0A)
    else if units = 0 ∨ !(List.range' first units).all (fun u => decide ((t.dom src).rec_.arrFirstUnit ≤ u) &&
        decide (u < (t.dom src).rec_.arrFirstUnit + (t.dom src).rec_.arrUnits) && (t.unitsOf src).contains u) then (t, 0x05)
    else (t.addRequest src c (.lend tgt first units), 0x01)))

/-- RECLAIM (R426, R427). -/
def execReclaim (v : View) (posted : Bool) (d : Fin 64) (rsv : BitVec 50) (s : State) : Host.Outcome State Fault Refusal :=
  let _ := d
  .next (s.lksCmd v posted 0x05 rsv.toNat true (fun c t =>
    let a := t.arg c pLks 0
    let src := bitsOf a 0 6
    let tgt := bitsOf a 6 6
    match (t.dom tgt).loan with
    | some (_, _, l) => if l = src then (t.addRequest src c (.reclaim tgt), 0x01) else (t, 0x0A)
    | none => (t, 0x0A)))

/-- MAP_SHARED (R426): no page outside either range, in the cache or KV pool, or pinned; COUNT 0 is BAD_ARG (log 58). -/
def execMapShared (v : View) (posted : Bool) (d : Fin 64) (rsv : BitVec 50) (s : State) : Host.Outcome State Fault Refusal :=
  .next (s.lksCmd v posted 0x06 rsv.toNat true (fun c t =>
    let page := bitsOf (t.arg c pLks 0) 0 27
    let d0 := bitsOf (t.arg c pLks 1) 0 27
    let n := bitsOf (t.arg c pLks 2) 0 16
    if n = 0 ∨ d.val = 0 ∨ !(t.dom d.val).alive ∨ !(List.range n).all (fun i =>
        t.pageInRange d.val (page + i) && t.pageInRange 0 (d0 + i) && !t.pinnedPage d.val (page + i) &&
          !(t.dom d.val).rec_.devPinned (page + i) && !(t.dom 0).rec_.devPinned (d0 + i) && !t.pinnedPage 0 (d0 + i)) then
      (t, 0x05)
    else (t.addRequest d.val c (.mapShared page d0 n), 0x01)))

/-- UNMAP_SHARED (R426). -/
def execUnmapShared (v : View) (posted : Bool) (d : Fin 64) (rsv : BitVec 50) (s : State) : Host.Outcome State Fault Refusal :=
  .next (s.lksCmd v posted 0x07 rsv.toNat true (fun c t =>
    let page := bitsOf (t.arg c pLks 0) 0 27
    let n := bitsOf (t.arg c pLks 2) 0 16
    if !(List.range n).all (fun i => ((t.dom d.val).entry (page + i)).shared.isSome) then (t, 0x0A)
    else (t.addRequest d.val c (.unmapShared page n), 0x01)))

/-! ## The scrub (R447, R448) -/

/-- Wipes commons banks [first, first + n). -/
def State.clearBanks (s : State) (first n : Nat) : State :=
  { s with commons := memClear s.commons (bankBytes * first) (bankBytes * n),
           commonsPoison := s.commonsPoison.filter (fun p => 8 * p < bankBytes * first || bankBytes * (first + n) ≤ 8 * p),
           commonsCounted := s.commonsCounted.filter (fun p => 8 * p < bankBytes * first || bankBytes * (first + n) ≤ 8 * p) }

/-- Clears the units of a list: operand buffers and accumulators; no kept operand of theirs is reused after it (R69, R75, R447). -/
def State.clearUnits (s : State) (us : List Nat) : State :=
  let s1 := us.foldl (fun t u => t.clearArrays (128 * u) 128 true) s
  { s1 with doms := s1.doms.map (fun p =>
      (p.1, { p.2 with lastOperand := p.2.lastOperand.filter (fun e => !us.contains (e.1 / 128)) })) }

/-- What the manager is told of blocks and words that failed twice (R447, R507). -/
def State.withholdFrames (s : State) (frames units : List Nat) : State :=
  if frames.isEmpty ∧ units.isEmpty then s
  else
    (((s.updFul (fun f => { f with withheld := frames.foldl numAdd f.withheld })).updBoot (fun b =>
      { b with badUnits := units.foldl numAdd b.badUnits })).bump dev pFul 2 frames.length).raiseDev pFul 1

/-- Both phases of a domain's scrub end: what it held reads as zero; it is FREE at the latch that follows (R447, R448, R461). After a RESIZE the removed resources are scrubbed (R427). -/
def execScrubEnd (d : Fin 64) (nowNs : Nat) (withheldFrames : List Nat) (sramFailUnits : List Nat) (s : State) :
    Host.Outcome State Fault Refusal :=
  let x := s.dom d.val
  let old := x.leaving
  .next (if x.scrubEnded || !(x.phase == .scrubbing || old.isSome) then s
  else
    let frames := if x.phase == .scrubbing then x.rec_.quota + x.ovh
      else match old with | some q => q.frames d.val - x.rec_.frames d.val | none => 0
    let s1 := if x.phase == .scrubbing then
        ((s.clearUnits (List.range' x.rec_.arrFirstUnit x.rec_.arrUnits |>.filter (fun u => !(s.lentFrom d.val).contains u))).clearBanks
          x.rec_.bankFirst x.rec_.banks).updDom d.val (fun y => { y with mem := [], poison := [], savedAcc := [], savedOpbuf := [],
                                                                          savedCommons := [] })
      else match old with
        | some q =>
          let t := s.clearUnits (removed q.arrFirstUnit q.arrUnits x.rec_.arrFirstUnit x.rec_.arrUnits)
          (removed q.bankFirst q.banks x.rec_.bankFirst x.rec_.banks).foldl (fun u b => u.clearBanks b 1) t
        | none => s
    let s2 := (s1.updDom d.val (fun y => { y with scrubEnded := true })).updFul (fun f =>
      { f with running := f.running.filter (fun e => e != d.val), lastNs := nowNs - x.scrubStartNs })
    let s3 := ((s2.bump dev pFul 0 1).bump dev pFul 1 frames).withholdFrames withheldFrames sramFailUnits
    let s4 : State := { s3 with freeFrames := s3.freeFrames - withheldFrames.length }
    s4.raiseDev pFul 0)

/-- The MBDs count no read in flight for a dying domain: its memory keys are destroyed (R448). -/
def execMemoryKeyDestroy (d : Fin 64) (s : State) : Host.Outcome State Fault Refusal :=
  .next (if (s.dom d.val).keys.destroyDue then
    s.updDom d.val (fun x => x.updKeys (fun k => { k with slot0 := none, slot1 := none, destroyDue := false }))
  else s)

/-! ## At the plan latch -/

/-- A created domain becomes ACTIVE: LKS_DONE, REQ_DONE, STATE_CHANGE, vector 32 + d (R422). -/
def State.latchActive (s : State) (d : Nat) : State :=
  let x := s.dom d
  let s1 := s.updDom d (fun y => { y with phase := .active, activeAt := none, doneDue := none })
  let s2 := match x.doneDue with | some (c, op) => s1.lksFinal c op 0x00 d | none => s1
  (s2.raiseDom pDom 2 d).msix 0 (32 + d)

/-- R424: slabs dropped, stamps released, COL_PTAG cleared, slots freed, sequences closed; then the scrub starts and Locksmith destroys the keys (R448, R145). -/
def State.latchScrub (s : State) (d nowNs : Nat) : State :=
  let s1 := (s.raiseDom pDom 2 d).freeSlots (s.dom d).rec_.slotFirst (s.dom d).rec_.slotCount
  let s2 := s1.updDom d (fun y =>
    { y with phase := .scrubbing, teardownAt := none, activeAt := none, slabs := [], devSlabs := [], devNext := [], batches := [],
             requests := [], lastOperand := [], preempted := false, saving := false, restoring := false, preemptAt := none,
             resumeAt := none, var_ := {}, kvp := {}, upd := {}, vec := {}, scrubEnded := false, leaving := none,
             scrubStartNs := nowNs,
             col := { y.col with ptag := 0xFFFF, rdEn := false, wrEn := false, ops := [], early := [] },
             tir := { rd := y.tir.rd, wr := y.tir.wr, migBudget := y.tir.migBudget, frames := y.tir.frames },
             keys := { slot0 := y.keys.slot0, slot1 := y.keys.slot1, destroyDue := true } })
  -- units on loan to the domain go back to their lender, cleared
  let s3 := match (s.dom d).loan with
    | some (first, n, _) => (s2.clearUnits (List.range' first n)).updDom d (fun y => { y with loan := none })
    | none => s2
  let s4 : State := { s3 with
    bas := s3.bas, atLatch := s3.atLatch.filter (fun a => match a with
      | .loadBudget e _ => e != d
      | .rates e _ _ => e != d
      | .weight e _ => e != d
      | .slots e _ => e != d
      | .rtEnergy e _ => e != d
      | .rtArrays e _ _ => e != d
      | .flashRate e _ _ => e != d
      | .migBudget e _ => e != d
      | .ptag e _ _ _ => e != d
      | .retain e _ _ => e != d
      | .ovf e _ _ => e != d
      | .expertBind e _ => e != d
      | .expertFree e _ => e != d
      | .seqClose e _ => e != d
      | .setDrop e _ _ => e != d
      | .pageStacked e _ => e != d
      | .pageFlash e _ => e != d
      | .discard e _ => e != d
      | .relocate e _ _ => e != d
      | _ => true) }
  (s4.updFul (fun f => { f with running := f.running ++ [d] })).msix 0 (32 + d)

/-- A domain whose scrub has ended becomes FREE; a held CREATE stays for its own step (R448, R459). -/
def State.latchFree (s : State) (d : Nat) : State :=
  let x := s.dom d
  let s1 : State := { s.putDom d { held := x.held } with freeFrames := s.freeFrames + x.rec_.quota + x.ovh }
  let s2 := s1.updPci (fun p => { p with flr := numDel p.flr d })
  let s3 := s2.msix 0 (32 + d)
  match x.doneDue with
  | some (c, op) => s3.lksFinal c op 0x00 d
  | none => s3

/-- A slab that has started and not ended. -/
def Slab.started (b : Slab) : Bool := b.state == .running || b.state == .paused || b.state == .withheld

/-- Slabs not yet started that fitted before a change and do not fit after it complete with DESC_INVALID (R427). -/
def State.dropMisfits (s before : State) (d : Nat) : State :=
  (s.dom d).slabs.foldl (fun t b =>
    if (b.state == .queued || b.state == .planned) && before.slabFits d b.words && !t.slabFits d b.words then
      (t.updSlab d b.order (fun c => { c with status := .descInvalid, state := .ended, nextPlan := none })).creditSlab d b
    else t) s

/-- The overhead frames become n: what it lacks comes from the quota's free frames, what it has too many goes there (R420, R427). -/
def TirDom.setOvh (t : TirDom) (n : Nat) : TirDom :=
  let have_ := runsCount t.ovhFrames
  if have_ ≤ n then
    let p := runsTake (n - have_) t.spare
    { t with ovhFrames := p.1.foldl runsPut t.ovhFrames, spare := p.2 }
  else
    let p := runsTake n t.ovhFrames
    { t with ovhFrames := p.1, spare := p.2.foldl runsPut t.spare }

/-- RESIZE takes effect, when no started or paused slab holds what it removes; false while it waits (R427). -/
def State.latchResize (s : State) (d copy nowNs : Nat) (r : DomRecord) : State × Bool :=
  let x := s.dom d
  let q := x.rec_
  let s1 := s.updDom d (fun y => 
    { y with rec_ := r, ovh := r.ovhFrames d, weight := r.weight, rate := r.rate, rateT := r.rateT, tir := y.tir.setOvh (r.ovhFrames d) })
  if x.leaving.isSome ∨ x.phase ≠ .active ∨ x.slabs.any (fun b => b.started && s.slabFits d b.words && !s1.slabFits d b.words) then (s, false)
  else
    let gone := removed q.slotFirst q.slotCount r.slotFirst r.slotCount ++ removed r.slotFirst r.slotCount q.slotFirst q.slotCount
    let s2 := (gone.foldl (fun t k => t.freeSlots k 1) s1).dropMisfits s d
    let shrinks := !(removed q.arrFirstUnit q.arrUnits r.arrFirstUnit r.arrUnits).isEmpty ||
      !(removed q.bankFirst q.banks r.bankFirst r.banks).isEmpty || decide (r.frames d < q.frames d)
    let s3 := if shrinks then
        (s2.updDom d (fun y => { y with leaving := some q, scrubEnded := false, scrubStartNs := nowNs })).updFul (fun f =>
          { f with running := f.running ++ [d] })
      else s2
    ((s3.raiseDom pDom 2 d).lksFinal copy 0x02 0x00 d, true)

/-- n free frames of the quota leave the domain (R427). -/
def TirDom.give (t : TirDom) (n : Nat) : TirDom :=
  let p := runsTake n t.spare
  { t with spare := p.2, frames := runsMinus t.frames p.1 }

/-- Resources that a RESIZE removed return to the pools once Fuller has scrubbed them (R427). -/
def State.latchLeft (s : State) (d : Nat) : State :=
  let x := s.dom d
  match x.leaving with
  | some q =>
    if x.scrubEnded then
      { s.updDom d (fun y => { y with leaving := none, scrubEnded := false, tir := y.tir.give (q.frames d - x.rec_.frames d) }) with
          freeFrames := s.freeFrames + (q.frames d - x.rec_.frames d) }
    else s
  | none => s

/-- `n` pages of a domain from `page` become pages of domain 0 from `d0`: their frames, contents and poison go (R293). -/
def Dom.sharePages (x : Dom) (page d0 n : Nat) : Dom :=
  (List.range n).foldl (fun (y : Dom) i =>
    (y.freeFrame (page + i)).wipePage (page + i) { state := .flash, shared := some (d0 + i) }) x

/-- `n` shared pages of a domain from `page` are its own again, and as new (R293). -/
def Dom.unsharePages (x : Dom) (page n : Nat) : Dom :=
  (List.range n).foldl (fun (y : Dom) i => y.putEntry (page + i) { state := .flash }) x

/-- One request at its latch; false while it waits (R427). -/
def State.latchRequest (s : State) (d nowNs : Nat) (q : DomRequest) (copy : Nat) : State × Bool :=
  match q with
  | .resize r => s.latchResize d copy nowNs r
  | .lend tgt first units =>
    (((s.clearUnits (List.range' first units)).updDom tgt (fun y => { y with loan := some (first, units, d) })).lksFinal copy 0x04 0x00 d, true)
  | .reclaim tgt =>
    let s1 := s.updDom tgt (fun y => { y with loan := none })
    if (s.dom tgt).slabs.any (fun b => b.started && s.slabFits tgt b.words && !s1.slabFits tgt b.words) then (s, false)
    else
      let us := match (s.dom tgt).loan with | some (f, n, _) => List.range' f n | none => []
      (((s1.clearUnits us).dropMisfits s tgt).lksFinal copy 0x05 0x00 d, true)
  | .mapShared page d0 n =>
    let s1 := s.updDom d (fun x => x.sharePages page d0 n)
    ((s1.dropMisfits s d).lksFinal copy 0x06 0x00 d, true)
  | .unmapShared page n =>
    let named := (s.dom d).slabs.any (fun b => b.admitted && (s.slabTouches d b.words).any (fun t =>
      meets t.1 t.2.1 (pageBytes * page) (pageBytes * n)))
    if named then (s, false)
    else
      let s1 := s.updDom d (fun x => x.unsharePages page n)
      (s1.lksFinal copy 0x07 0x00 d, true)

/-- Every request of a domain that can take effect at this latch, oldest first. -/
def State.latchRequests (s : State) (d nowNs : Nat) : State :=
  (s.dom d).requests.foldl (fun t q =>
    let r := t.latchRequest d nowNs q.1 q.2
    if r.2 then r.1.updDom d (fun y => { y with requests := y.requests.erase q }) else r.1) s

end Sys2Proof.Machine
end

