-- ==== Sys2Proof/Machine/Locksmith.lean ====
section
/-! DEFINITION. Locksmith's other requests: sessions, key rotation and its sweep, attestation, identity, export keys, the life cycle, MIN_SVN and certificates (R433 to R446, R459). -/

namespace Sys2Proof.Machine

/-! ## The host window of a function (R406, R418) -/

/-- The commons offset of byte `o` of a function's window, when n bytes from it lie in the window. -/
def State.window (s : State) (fn o n : Nat) : Option Nat :=
  let r := (s.dom fn).rec_
  if o + n ≤ bankBytes * r.winBanks then some (bankBytes * r.winFirst + o) else none

/-! ## Sessions and rotation (R442, R443) -/

/-- SESSION: BUSY while an update step is open (R442). -/
def execSession (v : View) (posted : Bool) (d : Fin 64) (rsv : BitVec 50) (s : State) : Host.Outcome State Fault Refusal :=
  let n := lksDomain v d
  .next (s.lksCmd v posted 0x08 rsv.toNat false (fun c t =>
    if !(t.dom n).alive then (t, 0x0A)
    else if (t.dom n).upd.open_ then (t, 0x08)
    else (t.updDom n (fun x => x.updKeys (fun k => { k with sessionBy := some c })), 0x01)))

/-- ROTATE: draws the next generation into the other slot (R443). -/
def execRotate (v : View) (posted : Bool) (d : Fin 64) (rsv : BitVec 50) (s : State) : Host.Outcome State Fault Refusal :=
  let n := lksDomain v d
  .next (s.lksCmd v posted 0x09 rsv.toNat false (fun c t =>
    let k := (t.dom n).keys
    if !(t.dom n).alive then (t, 0x0A)
    else if k.prevLive || k.newCurrent then (t, 0x12)
    else
      let (i, t1) := t.takeDraw
      (t1.updDom n (fun x => x.updKeys (fun y =>
        { y with slot0 := if y.keyGen % 2 = 1 then some i else y.slot0, slot1 := if y.keyGen % 2 = 0 then some i else y.slot1,
                 newCurrent := true, rotateBy := some c })), 0x01)))

/-- The pages that stood STACKED at creation, and still do where the map lists no change (R288). -/
def Dom.bornPages (x : Dom) : List Nat :=
  let r := x.rec_
  let pinned := r.cachePages + r.kvPages + (if r.kln3Mem then 65536 else 0)
  let low := (List.range (x.quota0 + pinned)).filter (fun p => x.bornStacked p)
  ((List.range' r.cachePage0 r.cachePages) ++ (List.range' r.kvPage0 r.kvPages)).foldl numAdd low

/-- What a sweep covers: every frame of the domain's own pages, and every flash copy under the old slot (R443). -/
def Dom.sweepItems (x : Dom) (cur : Bool) : List Nat :=
  let frames := x.bornPages.filter (fun p => (mapGet x.tir.pages p).isNone) ++
    (x.tir.pages.filter (fun e => e.2.shared.isNone && e.2.state != .flash)).map Prod.fst
  let copies := (x.tir.pages.filter (fun e => e.2.shared.isNone && e.2.flashValid && e.2.keySlot != cur)).map Prod.fst
  (frames.map (fun p => 2 * p) ++ copies.map (fun p => 2 * p + 1)).foldl numAdd []

/-- Whether an item still stands to be swept: the frame is held, or the copy records the old slot (R443). -/
def Dom.sweepNeeds (x : Dom) (i : Nat) : Bool :=
  let e := x.entry (i / 2)
  if i % 2 = 0 then e.state != .flash else e.flashValid && e.keySlot != x.curSlot

/-- Carries `amount` items of the sweep: pages ascending, then overhead frames (R444). -/
def State.sweepEnds (s : State) (d amount : Nat) : State :=
  let x := s.dom d
  let live := x.keys.sweepPages.filter x.sweepNeeds
  let now := live.take amount
  let ovh := min x.keys.sweepOvh (amount - now.length)
  let s1 := s.updDom d (fun y =>
    (now.foldl (fun (z : Dom) i =>
      if i % 2 = 1 then z.putEntry (i / 2) (z.sealed d (i / 2))
      else z) y).updKeys (fun k => { k with sweepPages := live.drop amount, sweepOvh := k.sweepOvh - ovh }))
  s1.bump dev pLks 3 (now.length + ovh)

/-- The plan latch: imported keys, a test key, a session, a new generation, and the end of a rotation (R442, R443, R445, R486). -/
def State.latchKeys (s : State) (d : Nat) : State :=
  let x := s.dom d
  let s1 := s.updDom d (fun y => y.updKeys (fun k =>
    { k with exports := k.exportsNext.foldl (fun m e => mapSet m e.1 e.2) k.exports, exportsNext := [] }))
  let s2 := match x.keys.applyPending with
    | some key =>
      if !x.alive then s1.updDom d (fun y => y.updKeys (fun k => { k with applyPending := none }))
      else if x.upd.open_ then s1
      else s1.updDom d (fun y => y.updKeys (fun k => { k with applyPending := none, round := .test key }))
    | none => s1
  let s3 := match x.keys.sessionBy with
    | some c =>
      if x.upd.open_ then s2
      else
        let s3 := match (s2.dom d).keys.round with
          | .test _ => s2
          | .drawn _ => let (i, t) := s2.takeDraw; t.updDom d (fun y => y.updKeys (fun k => { k with round := .drawn i }))
          | .none => let (i, t) := s2.takeDraw; t.updDom d (fun y => y.updKeys (fun k => { k with round := .drawn i }))
        (s3.updDom d (fun y => y.updKeys (fun k => { k with sessionBy := none }))).lksFinal c 0x08 0x00 d
    | none => s2
  let k := (s3.dom d).keys
  if k.newCurrent then
    s3.updDom d (fun y =>
      let y1 := y.updKeys (fun j => { j with newCurrent := false, prevLive := true, sweeping := true, sweepOvh := y.ovh })
      y1.updKeys (fun j => { j with sweepPages := y1.sweepItems y1.curSlot }))
  else if k.sweeping && (k.sweepPages.filter (s3.dom d).sweepNeeds).isEmpty && k.sweepOvh == 0 &&
      (k.sweepStuck.filter (fun p => (s3.dom d).sweepNeeds (2 * p + 1))).isEmpty then
    let s4 := s3.updDom d (fun y => y.updKeys (fun j =>
      { j with keyGen := j.keyGen + 1, prevLive := false, sweeping := false, sweepPages := [], sweepStuck := [], rotateBy := none,
               slot0 := if j.keyGen % 2 = 0 then none else j.slot0, slot1 := if j.keyGen % 2 = 1 then none else j.slot1 }))
    let s5 := (s4.bump dev pLks 1 1).raiseDom pLks 2 d
    match k.rotateBy with
    | some c => s5.lksFinal c 0x09 0x00 d
    | none => s5
  else s3

/-! ## Attestation (R439, R440) -/

/-- LIFE codes of LKS_LIFE (R460). -/
def Life.code : Life → Nat
  | .blank => 0
  | .devel => 1
  | .prod => 2
  | .return_ => 3
  | .retired => 4

/-- Bytes cut or padded with zeros to n. -/
def sized (n : Nat) (bs : List Byte) : List Byte := bs.take n ++ List.replicate (n - bs.length) 0

/-- SHA-384 of the ACTIVE manifest's header and tensor table (R439); 48 zero bytes when no copy is ACTIVE (log 59). -/
def State.manifestDigest (s : State) : List Byte :=
  match s.activeCopy with
  | none => List.replicate 48 0
  | some k =>
    let a := (s.copy k).manifest
    let hd := (s.rdMem 0 a 64).1
    let m := manifestOf (wordsOf 8 hd)
    sha384 (hd ++ (s.rdMem 0 (a + m.tensorOff) (32 * m.tensors)).1)

/-- Whether the DeviceID pair of the present state is uncertified (R438). -/
def State.uncertified (s : State) : Bool :=
  s.fuses.deviceIdFor.contains s.fuses.life && !s.fuses.certifiedFor.contains s.fuses.life

/-- The part of a report that the signatures cover (R439). -/
def State.reportBody (s : State) (kind d : Nat) (nonce : List Byte) : List Byte :=
  let x := s.dom d
  let flags := fld (bit01 s.boot.unlocked) 0 1 + fld (bit01 x.rec_.kln3Grad) 1 1 + fld (bit01 x.rec_.kln3Mem) 2 1 +
    fld (bit01 s.boot.bootSecondary) 3 1 + fld (bit01 s.uncertified) 4 1
  let base := match s.activeCopy with | some k => ((s.copy k).modelId, (s.copy k).gen) | none => (0, 0)
  leBytes 4 0x5450414C ++ leBytes 2 1 ++ leBytes 1 kind ++ leBytes 1 d ++ leBytes 8 Config.serial.toNat ++
  leBytes 1 Config.order ++ leBytes 1 0xA1 ++ leBytes 1 s.fuses.life.code ++ leBytes 1 flags ++ leBytes 4 0x00040001 ++
  leBytes 8 s.tik.tick ++ leBytes 4 s.boot.fwSvn ++ leBytes 4 s.fuses.minSvn ++ leBytes 4 x.keys.keyGen ++
  leBytes 4 base.1 ++ leBytes 4 base.2 ++ leBytes 12 0 ++ sized 48 nonce ++ sized 48 s.boot.fwDigest ++
  sha384 ((recordWords x.rec_ d).flatMap (fun w => leBytes 8 w.toNat)) ++ s.manifestDigest ++
  sized 1568 (match x.keys.kem with | some i => Config.publicKey i | none => [])

/-- A report of 37,872 bytes with both signatures under the Alias keys (R439). -/
def State.report (s : State) (kind d : Nat) (nonce : List Byte) : List Byte :=
  let b := s.reportBody kind d nonce
  b ++ sized 384 (Config.signature 0 b) ++ sized 35664 (Config.signature 1 b)

/-- ATTEST: a 4 KiB aligned offset with 40,960 bytes of window after it (R440). -/
def execAttest (v : View) (posted : Bool) (d : Fin 64) (rsv : BitVec 50) (s : State) : Host.Outcome State Fault Refusal :=
  let n := lksDomain v d
  .next (s.lksCmd v posted 0x0A rsv.toNat false (fun c t =>
    let o := bitsOf (t.arg c pLks 0) 0 26
    if !(t.dom n).alive then (t, 0x0A)
    else if o % 4096 ≠ 0 ∨ (t.window (viewFn v) o 40960).isNone then (t, 0x05)
    else (t.updLks (fun l => { l with engineB := l.engineB ++ [(c, n, o)] }), 0x01)))

/-- Engine B has signed its oldest report: nonce read, report written, DONE (R440). A caller whose window has gone gets nothing. -/
def State.signB (s : State) : State :=
  match s.lks.engineB with
  | [] => s
  | (c, d, o) :: r =>
    let s1 := s.updLks (fun l => { l with engineB := r })
    match s1.window (copyFn c) o 40960 with
    | none => s1
    | some a =>
      if !(s1.dom d).alive then s1
      else ((s1.wrCommons a (s1.report 1 d (s1.rdCommons a 48).1)).bump dev pLks 0 1).lksFinal c 0x0A 0x00 d

/-- Engine A has signed the oldest creation report; where it goes the manual does not state, and its NONCE is free (R440; log 56). -/
def State.signA (s : State) : State :=
  match s.lks.engineA with
  | [] => s
  | d :: r =>
    let (i, s1) := s.takeFree
    (s1.updLks (fun l => { l with engineA := r })).emit (.report d (s1.report 0 d ((List.range 48).map (Config.freeByte i))))

/-! ## Identity and certificates (R438, R439) -/

/-- The chain that IDENTITY writes, root first (R438, R439; log 7). -/
def State.identityChain (s : State) : List Byte :=
  let life := s.fuses.life.code
  Config.rootCert ++
    (if s.uncertified then Config.certRequests life (sha384 (s.fuses.tokenLog.getLast?.getD [])) else s.fuses.certs.flatMap id) ++
    Config.aliasCerts life s.boot.fwDigest

/-- IDENTITY writes the chain to the caller's window (R439). -/
def execIdentity (v : View) (posted : Bool) (d : Fin 64) (rsv : BitVec 50) (s : State) : Host.Outcome State Fault Refusal :=
  let n := lksDomain v d
  .next (s.lksCmd v posted 0x0B rsv.toNat false (fun c t =>
    let chain := t.identityChain
    match t.window (viewFn v) (bitsOf (t.arg c pLks 0) 0 26) chain.length with
    | none => (t, 0x05)
    | some a => ((t.wrCommons a chain).lksFinal c 0x0B 0x00 n, 0x01)))

/-- AUTH_FAIL: counted, and the event in the caller's view (R457, R513). -/
def State.authFail (s : State) (copy : Nat) : State := (s.bump dev pLks 2 1).raiseCopy pLks 3 copy

/-- CERT_INSTALL (R438). -/
def execCertInstall (v : View) (posted : Bool) (d : Fin 64) (rsv : BitVec 50) (s : State) : Host.Outcome State Fault Refusal :=
  .next (s.lksCmd v posted 0x10 rsv.toNat true (fun c t =>
    let len := t.arg c pLks 2
    let n0 := bitsOf len 0 16
    let n1 := bitsOf len 16 16
    if !t.uncertified then (t, 0x0A)
    else match t.window 0 (bitsOf (t.arg c pLks 0) 0 26) n0, t.window 0 (bitsOf (t.arg c pLks 1) 0 26) n1 with
      | some a, some b =>
        let c0 := (t.rdCommons a n0).1
        let c1 := (t.rdCommons b n1).1
        let life := t.fuses.life.code
        if Config.verdict (16 * life + 1) c0 && Config.verdict (16 * life + 2) c1 then
          ((t.updFuses (fun f => { f with certs := [c0, c1], certifiedFor := f.certifiedFor ++ [f.life] })).lksFinal c 0x10 0x00 d.val, 0x01)
        else (t.authFail c, 0x13)
      | _, _ => (t, 0x05)))

/-! ## Export keys (R445) -/

/-- The key-encryption key of an index: HKDF-SHA-384 of the shared secret (R445; DOMAIN and index as one byte each, log 60). -/
def State.exportKek (s : State) (d index : Nat) (ct : List Byte) : Nat :=
  let secret := match (s.dom d).keys.kem with | some i => Config.decapsulate i ct | none => []
  ofLe (hkdf384 secret (leBytes 8 Config.serial.toNat) (asciiBytes "export" ++ leBytes 1 d ++ leBytes 1 index) 32)

/-- KEY_IMPORT: ciphertext and wrapped key in the caller's window; an index in use changes at the next latch (R445). -/
def execKeyImport (v : View) (posted : Bool) (d : Fin 64) (rsv : BitVec 50) (s : State) : Host.Outcome State Fault Refusal :=
  let n := lksDomain v d
  .next (s.lksCmd v posted 0x0C rsv.toNat false (fun c t =>
    let a0 := t.arg c pLks 0
    let index := bitsOf a0 26 2
    if !(t.dom n).alive then (t, 0x0A)
    else match t.window (viewFn v) (bitsOf a0 0 26) 1608 with
      | none => (t, 0x05)
      | some a =>
        let (bs, bad) := t.rdCommons a 1608
        match if bad then none else keyUnwrap (t.exportKek n index (bs.take 1568)) (bs.drop 1568) with
        | none => (t.authFail c, 0x13)
        | some key =>
          let t1 := t.updDom n (fun x => x.updKeys (fun k =>
            if (mapGet k.exports index).isSome then { k with exportsNext := mapSet k.exportsNext index key }
            else { k with exports := mapSet k.exports index key }))
          (t1.lksFinal c 0x0C 0x00 n, 0x01)))

/-- KEY_DROP destroys the key of an index (R445). -/
def execKeyDrop (v : View) (posted : Bool) (d : Fin 64) (rsv : BitVec 50) (s : State) : Host.Outcome State Fault Refusal :=
  let n := lksDomain v d
  .next (s.lksCmd v posted 0x0D rsv.toNat false (fun c t =>
    let index := bitsOf (t.arg c pLks 0) 0 2
    if !(t.dom n).alive then (t, 0x0A)
    else
      ((t.updDom n (fun x => x.updKeys (fun k =>
        { k with exports := mapDel k.exports index, exportsNext := mapDel k.exportsNext index }))).lksFinal c 0x0D 0x00 n, 0x01)))

/-! ## Life cycle and MIN_SVN (R433 to R435) -/

/-- LKS_CHAL (R435). -/
def State.challengeNat (s : State) : Nat := (Config.challenge s.boot.challenge).toNat

/-- A token for a target: SERIAL, target, zeros, the challenge of this reset period, and both signatures (R435, R457). -/
def State.tokenOk (s : State) (target : Nat) (tok : List Byte) : Bool :=
  tok.length == 16672 && ofLe (tok.take 8) == Config.serial.toNat && ofLe ((tok.drop 8).take 1) == target &&
  ofLe ((tok.drop 9).take 23) == 0 && ofLe ((tok.drop 32).take 32) == s.challengeNat && Config.verdict 0 tok

/-- The life-cycle state of a code. -/
def lifeOf : Nat → Option Life
  | 0 => some .blank
  | 1 => some .devel
  | 2 => some .prod
  | 3 => some .return_
  | 4 => some .retired
  | _ => none

/-- The transitions of R434: some true where a token authorises, some false where the request alone does. -/
def transition (a b : Life) : Option Bool :=
  match a, b with
  | .blank, .devel => some true
  | .blank, .prod => some true
  | .devel, .prod => some true
  | .prod, .return_ => some true
  | .devel, .retired => some false
  | .prod, .retired => some false
  | .return_, .retired => some false
  | _, _ => none

/-- LIFECYCLE: the new state takes effect at the next device reset (R434, R438). -/
def execLifecycle (v : View) (posted : Bool) (d : Fin 64) (rsv : BitVec 50) (s : State) : Host.Outcome State Fault Refusal :=
  .next (s.lksCmd v posted 0x0E rsv.toNat true (fun c t =>
    match (lifeOf (bitsOf (t.arg c pLks 0) 0 3)).bind (fun b => (transition t.fuses.life b).map (fun k => (b, k))) with
    | none => (t, 0x0A)
    | some (b, false) => ((t.updFuses (fun f => { f with pending := b })).lksFinal c 0x0E 0x00 d.val, 0x01)
    | some (b, true) =>
      match t.window 0 (bitsOf (t.arg c pLks 1) 0 26) 16672 with
      | none => (t, 0x05)
      | some a =>
        let tok := (t.rdCommons a 16672).1
        if t.tokenOk b.code tok then
          ((t.updFuses (fun f => { f with pending := b, tokenLog := f.tokenLog ++ [tok] })).lksFinal c 0x0E 0x00 d.val, 0x01)
        else (t.authFail c, 0x13)))

/-- SVN_COMMIT raises MIN_SVN to the SVN of the running image, at most 64 times (R433). -/
def execSvnCommit (v : View) (posted : Bool) (d : Fin 64) (rsv : BitVec 50) (s : State) : Host.Outcome State Fault Refusal :=
  .next (s.lksCmd v posted 0x0F rsv.toNat true (fun c t =>
    if t.boot.fwSvn ≤ t.fuses.minSvn ∨ 64 ≤ t.fuses.svnRaises then (t, 0x0A)
    else
      ((t.updFuses (fun f => { f with minSvn := t.boot.fwSvn, svnRaises := f.svnRaises + 1 })).lksFinal c 0x0F 0x00 d.val, 0x01)))

end Sys2Proof.Machine
end

