-- ==== Sys2Proof/Machine/Power.lean ====
section
/-! DEFINITION. Power, heat and ageing: the epoch controller, its bounds, the measurements of a tick, and Badger (R334, R338 to R359, R18). -/

namespace Sys2Proof.Machine

/-! ## The tick's phases (R307) -/

/-- T_tick in ns (R307). -/
def TikState.tickNs (t : TikState) : Nat := 10 * t.len

/-- W in µs: LEN_US in a tick whose number is a multiple of EVERY (R275, R307). -/
def State.windowUs (s : State) (tick : Nat) : Nat := if tick % s.memg.maintEvery = 0 then s.memg.maintLen else 0

/-- Offset of the end of the run phase of a tick, ns (R307). -/
def State.runEndNs (s : State) (tick : Nat) : Nat := s.tik.tickNs - 1000 * (s.windowUs tick + s.tik.settleUs)

/-- Planned length of the run phase of a tick, ns (R307, R345). -/
def State.runNs (s : State) (tick : Nat) : Nat := s.runEndNs tick - 4000

/-! ## Steps and power (R338, R340, R344, R345) -/

/-- s(k) of R340. -/
def stepScale (k : Nat) : Rat := (stepMHz k : Rat) / 2100 * ((850 - 16 * k : Nat) : Rat) / 850 * ((850 - 16 * k : Nat) : Rat) / 850

/-- P_dom(k) in W (R344). -/
def pDomW (k : Nat) : Rat := 1464.32 * stepScale k + 419.4304

/-- E_dom in microjoule of a step and a run phase in ns (R345). -/
def eDom (k runNs : Nat) : Nat := (pDomW k * runNs / 1000).floor.toNat

/-- The least step that satisfies a condition, 15 when none does (R344). -/
def leastStep (p : Nat → Bool) : Nat := ((List.range 16).find? p).getD 15

/-- Badger's term: the slowest unavailable step plus one (R355). -/
def marginStep (unavail : List Nat) : Nat :=
  match unavail with
  | [] => 0
  | l => min 15 (l.foldl max 0 + 1)

/-- The bounds as the registers hold them. -/
def PowerState.bounds (p : PowerState) : PwrBounds :=
  { ceil := p.ceil, floor := p.floor, capW := p.capW, tjTarget := p.tjTarget, dramTarget := p.dramTarget }

/-- Of two bounds the one that allows less, field by field (R348). -/
def PwrBounds.slower (a b : PwrBounds) : PwrBounds :=
  { ceil := max a.ceil b.ceil, floor := max a.floor b.floor, capW := min a.capW b.capW,
    tjTarget := min a.tjTarget b.tjTarget, dramTarget := min a.dramTarget b.dramTarget }

/-- The decision of R344 under bounds p: the step, and the override's cause where the hardware step prevails (R347). -/
def State.levelFor (s : State) (p : PwrBounds) (tj tHot : Nat) (pFix : Rat) (vMin kp : Nat) : Nat × Option Nat :=
  let kt := if p.tjTarget < tj ∨ p.dramTarget < tHot then min 15 (kp + 1)
    else if tj + 5 ≤ p.tjTarget ∧ tHot + 3 ≤ p.dramTarget then kp - 1 else kp
  let pred (k : Nat) : Rat := (pFix + pDomW k) / 0.93
  let ke := leastStep (fun k => decide (pred k ≤ p.capW))
  let ksw := min p.floor (max p.ceil (max kt ke))
  let pel : Rat := if 60000 ≤ vMin then 2600 else 43.3 * vMin / 1000
  let kpow := leastStep (fun k => decide (pred k ≤ pel))
  let kdie := if 105 < tj then min 15 (kp + 1) else 0
  let kdram := if 95 < tHot then min 15 (kp + 1) else 0
  let kmar := marginStep s.bdg.unavail
  let khw := max (max kpow kdie) (max kdram kmar)
  if khw ≤ ksw then (ksw, none)
  else (khw, some (if kpow = khw then 1 else if kdie = khw then 2 else if kdram = khw then 3 else 4))

/-- The epoch decision at the cut-off of tick 64e - 1 (R342, R346): none before the first epoch that began after training has run, none for a window without a measured tick. -/
def execEpochDecision (s : State) : Host.Outcome State Fault Refusal :=
  let p := s.pwr
  .next (if s.tik.ticking && s.tik.tick % 64 == 63 && !s.tik.cutoffPassed && p.epochsRunning && p.winTicks != 0 then
    let vMin := p.winVmin.getD 72000
    let r := s.levelFor p.bounds p.winTj p.winTHot p.winPFix vMin p.level
    s.updPwr (fun q => { q with next := r.1, nextValid := true, nextOverride := r.2,
                                nextBasis := some (q.winTj, q.winTHot, q.winPFix, vMin, q.level),
                                pFix := min 4095 q.winPFix.floor.toNat })
  else s)

/-- The bounds in force for the tick that is planned at this cut-off: every accepted write at an epoch decision, else those that restrict (R348). -/
def State.planBounds (s : State) : PwrBounds := if (s.tik.tick + 1) % 64 = 0 then s.pwr.bounds else s.pwr.inForce

/-- The step and override of the tick that is planned at this cut-off (R309, R342, R346, R348). -/
def State.planLevel (s : State) : Nat × Option Nat :=
  let p := s.pwr
  let edge := (s.tik.tick + 1) % 64 = 0
  let now : Nat × Option Nat :=
    if edge then (if p.nextValid then (p.next, p.nextOverride) else (p.floor, none))
    else (p.level, if p.override then some p.ovrCause else none)
  if p.restrict then
    let basis := if edge then (if p.nextValid then p.nextBasis else none) else p.basis
    let slow := match basis with
      | some (tj, th, pf, v, kp) => s.levelFor s.planBounds tj th pf v kp
      | none => (s.planBounds.floor, none)
    if now.1 < slow.1 then slow else now
  else now

/-- The level at a plan latch: STEP, OVERRIDE, the epoch's counters and Badger's new voltages (R18, R342, R347, R353). -/
def State.latchLevel (s : State) (tick : Nat) (first : Bool) : State :=
  let p := s.pwr
  let lv : Nat × Option Nat := if first then (p.floor, none) else (s.tik.planStep, p.planOverride)
  let edom := if first then eDom lv.1 (s.runNs tick) else s.tik.planEdom
  let edge := tick % 64 = 0
  let counted := p.epochCounted && !edge
  let s1 := (s.updTik (fun t => { t with step := lv.1 })).updPwr (fun q =>
    { q with level := lv.1, edom := edom, inForce := if first then q.bounds else q.inForce, override := lv.2.isSome, ovrCause := lv.2.getD 0, planOverride := none,
             epochCounted := counted || lv.2.isSome, epochsRunning := q.epochsRunning || edge,
             nextValid := q.nextValid && !edge, nextOverride := if edge then none else q.nextOverride,
             basis := if edge then (if q.nextValid then q.nextBasis else none) else q.basis,
             nextBasis := if edge then none else q.nextBasis })
  let s1 := s1.updBdg (fun b => { b with dueFrom := if tick % 2 ^ 20 = 0 ∧ b.dueFrom.isNone then some tick else b.dueFrom })
  let s2 := if edge then (s1.bump dev pPwr 0 1).updPwr (fun q =>
      { q with winTj := 0, winTHot := 0, winPFix := 0, winVmin := none, winTicks := 0 }) else s1
  let s3 := if edge then
      (match s2.bdg.vPlanNext with
      | some v => (s2.updFuses (fun f => { f with vPlan := v })).updBdg (fun b => { b with vPlanNext := none })
      | none => s2)
    else s2
  let s4 := if lv.2.isSome && !counted then s3.bump dev pPwr 1 1 else s3
  let s5 := if lv.2.isSome && !p.override then s4.raiseDev pPwr 1 else s4
  if !first && lv.1 != p.level then (s5.bump dev pPwr 3 1).raiseDev pPwr 2 else s5

/-! ## Measurements (R343, R334) -/

/-- V_IN within the range that raises INPUT_RANGE (R334). -/
def rangeVolts (mV : Nat) : Bool := (decide (56000 ≤ mV) && decide (mV < 60000)) || (decide (80000 < mV) && decide (mV ≤ 84000))

/-- Every 10 µs: the 128 compute-die sensors and the metered input (R343). -/
def execComputeDieSensorRead (sensors : List Nat) (pInW : Nat) (vInMv : Nat) (s : State) : Host.Outcome State Fault Refusal :=
  .next (if s.boot.phase == .running || s.boot.phase == .bringUp then
    (s.updPwr (fun p =>
      { p with tickTj := sensors.foldl max p.tickTj, tickPSum := p.tickPSum + pInW, tickPCount := p.tickPCount + 1,
               tickVmin := some (match p.tickVmin with | some v => min v vInMv | none => vInMv),
               inputRange := p.inputRange || rangeVolts vInMv })).updBoot (fun b => { b with vInMv := vInMv })
  else s)

/-- V_IN enters 56-60 V or 80-84 V: INPUT_RANGE (R334, R358). -/
def execInputRange (mV : Nat) (s : State) : Host.Outcome State Fault Refusal :=
  .next (if rangeVolts mV && (s.boot.phase == .running || s.boot.phase == .bringUp) then
    ((s.updPwr (fun p =>
      { p with tickVmin := some (match p.tickVmin with | some v => min v mV | none => mV), inputRange := true })).updBoot (fun b =>
        { b with vInMv := mV })).raiseDev pPwr 3
  else s)

/-- The measurements of the tick that ends at a latch, and the epoch's maxima (R342, R343, R358). -/
def State.endTickPower (s : State) (nowNs : Nat) : State :=
  let p := s.pwr
  let len := nowNs - s.tik.latchNs
  let tHot := if p.tickTHot = 0 then s.memg.tHot else p.tickTHot
  let clear (q : PowerState) : PowerState :=
    { q with tickTj := 0, tickTHot := 0, tickVmin := none, tickPSum := 0, tickPCount := 0, tickEnergy := 0, inputRange := false }
  let s0 := if p.inputRange then s.bump dev pPwr 4 1 else s
  if p.tickPCount = 0 ∨ len = 0 then s0.updPwr clear
  else
    let pIn : Rat := (p.tickPSum : Rat) / p.tickPCount
    let uj := p.inputFrac + pIn * len / 1000
    let pFix := pIn * 0.93 - p.tickEnergy * 1000 / len
    let vMin := p.tickVmin.getD 72000
    let s1 := (s0.bump dev pPwr 2 uj.floor.toNat).updPwr (fun q =>
      { q with pInW := min 4095 pIn.floor.toNat, vInDv := min 1023 (vMin / 100), tjMax := p.tickTj, tHotLast := tHot,
               inputFrac := uj - uj.floor })
    let s2 := if s.tik.tick % 64 = 63 then s1 else s1.updPwr (fun q =>
      { q with winTj := max q.winTj p.tickTj, winTHot := max q.winTHot tHot,
               winPFix := if q.winTicks = 0 then pFix else ratMax q.winPFix pFix,
               winVmin := some (match q.winVmin with | some v => min v vMin | none => vMin), winTicks := q.winTicks + 1 })
    s2.updPwr clear

/-! ## Bounds and targets (R348, R357) -/

/-- A write of PWR_BOUNDS or PWR_TARGETS in region 0; a write that can only slow the device waits for the next plan alone, any other for the next epoch decision (R348). -/
def State.writeBounds (s : State) (v : View) (ceil floor cap tj dram : Nat) : State :=
  let p := s.pwr
  if !isRegion0 v || !s.viewOpen v then s
  else if floor < ceil ∨ cap < 1000 ∨ 2600 < cap ∨ tj < 70 ∨ 100 < tj ∨ dram < 70 ∨ 90 < dram then s.raiseDev pPwr 0
  else
    let same := ceil = p.ceil ∧ floor = p.floor ∧ cap = p.capW ∧ tj = p.tjTarget ∧ dram = p.dramTarget
    let slows := p.ceil ≤ ceil ∧ p.floor ≤ floor ∧ cap ≤ p.capW ∧ tj ≤ p.tjTarget ∧ dram ≤ p.dramTarget
    s.updPwr (fun q =>
      { q with ceil := ceil, floor := floor, capW := cap, tjTarget := tj, dramTarget := dram,
               restrict := q.restrict || decide (slows ∧ ¬ same),
               inForce := if slows ∧ ¬ same then q.inForce.slower ⟨ceil, floor, cap, tj, dram⟩ else q.inForce })

def execPwrBoundsWrite (v : View) (value : W32) (s : State) : Host.Outcome State Fault Refusal :=
  let w := value.toNat
  .next (s.writeBounds v (bitsOf w 0 4) (bitsOf w 4 4) (bitsOf w 8 12) s.pwr.tjTarget s.pwr.dramTarget)

def execPwrTargetsWrite (v : View) (value : W32) (s : State) : Host.Outcome State Fault Refusal :=
  let w := value.toNat
  .next (s.writeBounds v s.pwr.ceil s.pwr.floor s.pwr.capW (bitsOf w 0 8) (bitsOf w 8 8))

/-! ## Badger (R352 to R355, R359) -/

/-- A maintenance window is open: the settle phase of a tick that has one is over, and its next latch has not come (R275). -/
def State.windowOpen (s : State) : Bool := s.tik.ticking && s.tik.settled && s.windowUs s.tik.tick != 0

/-- BDG_CMD MEASURE: Badger measures in the next window of R352 (R352, R359). -/
def execMeasure (v : View) (s : State) : Host.Outcome State Fault Refusal :=
  .next (if isRegion0 v && s.viewOpen v then
    s.updBdg (fun b => { b with requested := true, dueFrom := some (b.dueFrom.getD s.tik.tick) }) else s)

/-- A maintenance window begins: Badger measures in it when a measurement is due and it is at least 20 µs long (R352). -/
def State.badgerWindow (s : State) : State :=
  if s.bdg.dueFrom.isSome ∧ 20 ≤ s.windowUs s.tik.tick then
    s.updBdg (fun b => { b with measuring := true, dueFrom := none, requested := false })
  else s

/-- Vc_k in mV (R338). -/
def contractMv (k : Nat) : Nat := 850 - 16 * k

/-- The steps that a measurement leaves unavailable: a step out of margin and every faster one (R355). -/
def outOfMargin (vReq : List Nat) : List Nat :=
  match (List.range 16).filter (fun k => contractMv k < vReq.getD k 0 + 20) with
  | [] => []
  | l => List.range (l.foldl max 0 + 1)

/-- GUARD_MV over the available steps (R354); over all of them when none is available. -/
def guardMv (vReq unavail : List Nat) : Int :=
  let ks := (List.range 16).filter (fun k => !unavail.contains k)
  let vs := (if ks.isEmpty then List.range 16 else ks).map (fun k => (contractMv k : Int) - vReq.getD k 0 - 20)
  match vs with
  | [] => 0
  | a :: r => r.foldl min a

/-- V_plan of R353 for a step. -/
def replan (old req k : Nat) : Nat := min (contractMv k) (max (old - 5) (roundUp (req + 20) 5))

/-- V_req of every step, from the monitors and rings that Badger reads at the step and voltage in force (R352; log 152). -/
def State.requiredMvs (s : State) (monitors rings : List Nat) : List Nat :=
  (List.range 16).map (Config.requiredMv monitors rings s.tik.step (s.fuses.vPlan.getD s.tik.step 0))

/-- A measurement gives V_req of every step: the margins, and the new voltages from the next epoch boundary (R353 to R355). -/
def State.measured (s : State) (req : List Nat) : State :=
  let old := s.bdg.vPlanNext.getD s.fuses.vPlan
  let new := (List.range 16).map (fun k => replan (old.getD k 0) (req.getD k 0) k)
  let bad := outOfMargin req
  let guard := guardMv req bad
  let wasLow := match s.bdg.guardLog with | [] => false | g :: _ => decide (g.2 ≤ 15)
  let s1 := (s.updFuses (fun f => { f with vReq := req })).updBdg (fun b =>
    { b with unavail := bad, lastTick := s.tik.tick % 2 ^ 32, measuring := false,
             guardLog := ((s.fuses.onSeconds.toNat, guard) :: b.guardLog).take 16,
             vPlanNext := if new = s.fuses.vPlan then none else some new })
  let s2 := s1.bump dev pBdg 0 1
  let s3 := if new = old then s2 else s2.bump dev pBdg 1 1
  let s4 := if bad.isEmpty then s3 else s3.raiseDev pBdg 0
  if guard ≤ 15 && !wasLow then s4.raiseDev pBdg 1 else s4

/-- Badger reads its monitors in a window of R352 and re-plans the voltage of every step (R352 to R355). -/
def execBadgerMeasure (reading : BadgerReading) (s : State) : Host.Outcome State Fault Refusal :=
  .next (if s.windowOpen && s.bdg.measuring then s.measured (s.requiredMvs reading.monitors reading.rings) else s)

/-- No window came within 2^20 ticks: MEASURE_SKIPPED, and the next multiple of 2^20 is due (R352). -/
def execMeasureSkipped (s : State) : Host.Outcome State Fault Refusal :=
  .next (match s.bdg.dueFrom with
    | some t =>
      if s.tik.ticking && decide (t + 2 ^ 20 ≤ s.tik.tick) then
        (s.updBdg (fun b => { b with dueFrom := some (s.tik.tick / 2 ^ 20 * 2 ^ 20), requested := false })).raiseDev pBdg 2
      else s
    | none => s)

/-- GUARD_MV as BDG_GUARD shows it: the last measurement's, or that of the fused values (R354, R359). -/
def State.guardNow (s : State) : Int :=
  match s.bdg.guardLog with
  | g :: _ => g.2
  | [] => guardMv s.fuses.vReq s.bdg.unavail

/-- DAYS_LEFT: days of powered time until the least-squares line through the last 16 measurements reaches zero (R354). -/
def State.daysLeft (s : State) : Nat :=
  let pts := s.bdg.guardLog
  let n : Rat := pts.length
  let sx : Rat := (pts.map (fun p => (p.1 : Rat))).sum
  let sy : Rat := (pts.map (fun p => (p.2 : Rat))).sum
  let sxx : Rat := (pts.map (fun p => (p.1 : Rat) * p.1)).sum
  let sxy : Rat := (pts.map (fun p => (p.1 : Rat) * p.2)).sum
  let den := n * sxx - sx * sx
  if pts.length < 16 ∨ den = 0 then 0xFFFF
  else
    let slope := (n * sxy - sx * sy) / den
    if 0 ≤ slope then 0xFFFF
    else
      let zero := -((sy - slope * sx) / n) / slope
      min 0xFFFF (((zero - s.fuses.onSeconds.toNat) / 86400).floor.toNat)

end Sys2Proof.Machine
end

