-- ==== Sys2Proof/Machine/Latch.lean ====
section
/-! DEFINITION. The plan latch: what the device applies at the start of a tick, in the order of R308, and the plan that it takes up there (R18, R165, R237, R273, R289, R296, R308 to R311, R316, R321, R325 to R328, R390, R401, R478, R495, R510). -/

namespace Sys2Proof.Machine

/-! ## The changes that wait for a latch (R308 step 5) -/

/-- The last byte of a page has arrived: STACKED; the frame's later writes keep DIRTY (R289). -/
def PageEntry.arrived (e : PageEntry) : PageEntry :=
  if e.state = .up then { e with state := .stacked } else e

/-- What the trace has written to a page of domain 0 no longer stands apart from its flash copy. -/
def State.untraced (s : State) (p : Nat) : State := { s with dbg := { s.dbg with traced := numDel s.dbg.traced p } }

/-- An eviction has written its page: FLASH (R289). -/
def PageEntry.evicted (e : PageEntry) : PageEntry :=
  if e.state = .down then { e with state := .flash, frame := none, dirty := false, flashValid := true, zero := false } else e

/-- The latch of an eviction that has written its page: the frame is free, and the copy holds what the trace wrote (R289, R487). -/
def State.latchEvicted (s : State) (d p : Nat) : State :=
  let s1 := s.updDom d (fun x => if (x.entry p).state = .down then (x.freeFrame p).putEntry p (x.entry p).evicted else x)
  if d = 0 then s1.untraced p else s1

/-- DISCARD takes effect (R290). -/
def State.latchDiscard (s : State) (d p : Nat) : State :=
  let e := (s.dom d).entry p
  let s1 := s.updDom d (fun x => x.wipePage p { e with zero := true, dirty := false, flashValid := false })
  (if d = 0 then s1.untraced p else s1).nvme d 9 p

/-- One change that waited for the latch. -/
def State.latchAct (s : State) : LatchAct → State
  | .recipe row r => { s with recipe := s.recipe.set row r }
  | .loadBudget d n => s.updDom d (fun x => x.updVar (fun v => { v with loadBudget := n }))
  | .rates d r t => s.updDom d (fun x => { x with rate := r, rateT := t })
  | .maint len every => s.updMemg (fun m => { m with maintLen := len, maintEvery := every })
  | .weight d w => s.updDom d (fun x => { x with weight := w })
  | .slots d n => s.updDom d (fun x => { x with slots := n })
  | .rtEnergy d n => s.updDom d (fun x => { x with rtUj := n })
  | .rtArrays d f n => s.updDom d (fun x => { x with rtFirst := f, rtUnits := n })
  | .flashRate d r w => s.updDom d (fun x => x.updTir (fun t => { t with rd := r, wr := w }))
  | .migBudget d n => s.updDom d (fun x => x.updTir (fun t => { t with migBudget := n }))
  | .nvmLat n => { s with nvm := { s.nvm with latUs := n } }
  | .ptag d t r w => s.updDom d (fun x => x.updCol (fun c => { c with ptag := t, rdEn := r, wrEn := w }))
  | .retain d f n => s.updDom d (fun x => x.updUpd (fun u => { u with retFirst := f, retBanks := n }))
  | .ovf d f n => s.updDom d (fun x => x.updKvp (fun k => { k with ovfFirst := f, ovfCount := n }))
  | .fillBudget n => s.updBas (fun b => { b with fillBudget := n })
  | .slotLive k => s.latchSlotLive k
  | .slotLoadFailed k => s.latchLoadFailed k
  | .slotPark k => s.latchLeave k true
  | .slotRelease k => s.latchLeave k false
  | .staged k m v bs => s.latchStaged k m v bs
  | .unstage k m => s.latchUnstage k m
  | .expertBind d p => s.setExpert d p (fun e => { e with pending := false })
  | .expertFree d p => s.setExpert d p ExpertPos.freed
  | .seqClose d q => s.latchSeqClose d q
  | .setDrop d q v => s.updDom d (fun x => x.updSeq q (fun e => { e with dropOk := v }))
  | .pageStacked d p => s.updDom d (fun x => x.putEntry p (x.entry p).arrived)
  | .pageFlash d p => s.latchEvicted d p
  | .discard d p => s.latchDiscard d p
  | .relocate d p f => s.updDom d (fun x =>
      if (x.entry p).state = .stacked then (x.freeFrame p).putEntry p { x.entry p with frame := some f }
      else { x with tir := { x.tir with spare := runsPut x.tir.spare (f, 1) } })

/-- Every waiting change, in the order accepted; one that must wait longer is recorded again (R132). -/
def State.latchActs (s : State) : State :=
  s.atLatch.foldl State.latchAct { s with atLatch := [] }

/-! ## Batches and their stamps (R21, R162, R165, R237) -/

/-- Step 1: the stamps of a domain's closed batches are released, and those of batches that count as not opened (R21, R23). -/
def State.releaseClosed (s : State) (d : Nat) : State :=
  let gone := (s.dom d).batches.filter Batch.goes
  let s1 := gone.foldl (fun t b => b.stamps.foldl (fun u p => u.releaseStamp p.1 p.2) t) s
  if gone.isEmpty then s else s1.updDom d (fun x => { x with batches := x.batches.filter (fun b => !b.goes) })

/-- A micro-batch is admitted: the first of a gradient set gives the set its LS_EXP (R58; log 124). -/
def UpdDom.admits (u : UpdDom) : UpdDom :=
  if u.open_ then { u with nextLs := some (u.nextLs.getD u.lsExp) } else { u with setLs := some (u.setLs.getD u.lsExp) }

/-- The batch of a slab that enters the plan opens at the latch, unless it is open (R18, R21, R58). -/
def Dom.openBatch (x : Dom) (id tick gen : Nat) : Dom :=
  if id = 0 ∨ (x.batch? id).isSome then x
  else
    let y := { x with batches := x.batches ++
      [{ id := id, openTick := tick, baseGen := gen, lsExp := x.upd.lsExp, nextSet := x.upd.open_ }] }
    if x.rec_.kln3Grad then y.updUpd UpdDom.admits else y

/-! ## The plan is taken up (R26, R316, R318, R325) -/

/-- Offset at which the run phase begins, ns (R307). -/
def runStart : Rat := 4000

/-- A slab with its place of the new plan; work that reaches over from the last tick without one comes first (R298, R316). -/
def Slab.takePlan (b : Slab) (tick : Nat) : Slab :=
  match b.nextPlan, b.state with
  | _, .ended => { b with nextPlan := none }
  | some p, st =>
    { b with nextPlan := none, tick := tick, planStart := p.start, planEnd := p.end_, planStop := p.stop, planFull := p.full,
             energy := p.energy, cycles := p.cycles, frac := p.frac, demNs := p.demNs, demand := p.demand, reuse := p.reuse, sharedWith := p.shared,
             staging := p.staging, stalledNs := 0,
             state := (match st with | .paused => .paused | .running => .paused | _ => .planned),
             replay := b.replay || st == .withheld }
  | none, .planned => { b with tick := tick, planStart := runStart, planEnd := runStart, planStop := runStart, stalledNs := 0 }
  | none, .paused =>
    { b with tick := tick, planStart := runStart, planEnd := runStart, planStop := runStart, energy := 0, cycles := 0, stalledNs := 0 }
  | none, _ => b

/-- A preemption save or restore, which no later plan would form anew. -/
def devOnce : DevSlab → Bool
  | .save => true
  | .restore => true
  | .cooper => false
  | .tierQueue => false
  | .carter => false
  | .sweep => false

/-- The device's own slab of a kind that has not ended: the first, where another waits behind it. -/
def Dom.devSlab? (x : Dom) (k : DevSlab) : Option DevSlabRec := x.devSlabs.find? (fun r => r.kind == k && r.state != .ended)

/-- It reaches over into a tick whose plan does not hold it, and comes first (R316, R325). -/
def DevSlabRec.reachOver (r : DevSlabRec) : DevSlabRec :=
  { r with planStart := runStart, planEnd := runStart, planStop := runStart, stalledNs := 0,
           state := if r.state == .planned then .planned else .paused, energy := if r.state == .planned then r.energy else 0 }

/-- The record of a slab that the plan carries on: what remains of it is what remained at its pause. -/
def DevSlabRec.goesOn (q r : DevSlabRec) : DevSlabRec :=
  { q with state := if r.state == .planned then .planned else .paused, remaining := r.remaining, multi := r.multi }

/-- The device's own slabs: those that the new plan carries on, those that reach over, and its new ones; those of one kind run one after the other (R316, R325). -/
def Dom.takeDevPlan (x : Dom) : Dom :=
  let on := x.devNext.filterMap (fun q => if q.state == .paused then (x.devSlab? q.kind).map (fun r => q.goesOn r) else none)
  let over_ := x.devSlabs.filter (fun r => r.state != .ended &&
    !(x.devSlab? r.kind == some r && x.devNext.any (fun q => q.kind == r.kind && q.state == .paused)))
  { x with devSlabs := on ++ over_.map DevSlabRec.reachOver ++ x.devNext.filter (fun q => q.state != .paused), devNext := [] }

/-- A preempted domain takes no plan but its save slab; its other slabs stay paused or go back to their queue, and a restore that has not ended is planned anew when the domain resumes (R327, R328). -/
def Dom.shelved (x : Dom) : Dom :=
  Dom.takeDevPlan { x with
      slabs := x.slabs.map (fun b => { b with nextPlan := none, state := if b.state == .planned then .queued else b.state }),
      devSlabs := x.devSlabs.filter (fun r => r.kind != .restore && (r.state != .planned || r.kind == .save)) }

/-- The slabs of a domain that runs take their places. -/
def Dom.takeSlabs (x : Dom) (tick : Nat) : Dom :=
  Dom.takeDevPlan { x with slabs := x.slabs.map (fun b => b.takePlan tick) }

/-- A planned slab's pages: one that is STACKED by now is no demand page; a FLASH page is read, into a frame when one is free (R294, R296). -/
def State.demandPage (s : State) (d p : Nat) : State :=
  let e := s.pageEntry d p
  let s1 := s.bump d pTir 2 1
  if e.state ≠ .flash ∨ (s.dom d).tir.inflight.contains p ∨ (s.dom d).tir.waitingFull.any (fun q => q.1 == p) then s1
  else s1.readPage d p

/-- The FLASH pages with ZERO that a domain's planned slabs write: each takes a frame (R289, R296). -/
def State.writtenZeros (s : State) (d : Nat) : List Nat :=
  (((s.dom d).slabs.filter (fun b => b.state == .planned)).flatMap (fun b =>
    ((touchPages (s.slabTouches d b.words)).filter (fun q => q.2 && (s.pageEntry d q.1).state == .flash && (s.pageEntry d q.1).zero)).map
      Prod.fst)).dedup

/-- The demand pages of a domain's planned slabs (R296). -/
def State.demandReads (s : State) (d : Nat) : State :=
  let due (b : Slab) : List Nat := if b.state == .planned then b.demand else []
  let s1 := s.updDom d (fun x => { x with slabs := x.slabs.map (fun b =>
    { b with demand := b.demand.filter (fun p => (s.pageEntry d p).state != .stacked && (s.pageEntry d p).state != .down) }) })
  let s1' := (s1.writtenZeros d).foldl (fun t p => (t.startUp d p).1) s1
  let s2 := (((s1'.dom d).slabs.flatMap due).dedup).foldl (fun t p => t.demandPage d p) s1'
  -- a page that needs no flash read delays no slab
  s2.updDom d (fun x => { x with slabs := x.slabs.map (fun b =>
    { b with demand := b.demand.filter (fun p => !(s2.pageEntry d p).zero) }) })

/-- The batches of the slabs that this latch admits, open with their stamps (R18, R21). -/
def Dom.openBatches (x : Dom) (tick gen : Nat) : Dom :=
  ((x.slabs.filter (fun b => b.nextPlan.isSome && b.state == .queued)).map (fun b => (hdrOf b.words).batch)).foldl
    (fun y id => y.openBatch id tick gen) x

/-- A domain's slabs take their places, or are shelved while it is preempted; TIK_ALLOW and TIK_LAG show the tick (R316, R321, R331). -/
def Dom.latchPlan (x : Dom) (tick edom wCap : Nat) : Dom :=
  let z : Dom := if x.phase = .preempted then x.shelved else x.takeSlabs tick
  { z with allow := edom * z.weight / max wCap 1, lagNs := min x.lagNext (2 ^ 32 - 1), lagNext := 0 }

/-- The new plan of one domain: batches open with their stamps, slabs take their places, and those that demand pages read them (R18, R296). -/
def State.takePlan (s : State) (d tick : Nat) : State :=
  let gen := s.stampGen
  let s1 := s.updDom d (fun x => (x.openBatches tick gen).latchPlan tick s.pwr.edom s.tik.wCap)
  if (s1.dom d).phase = .preempted then s1 else s1.demandReads d

/-! ## Preemption (R326 to R328) -/

/-- Preemption states of a domain at the latch of a tick; one that saves no commons loses the staged copies (R132). -/
def State.latchPreempt (s : State) (d tick : Nat) : State :=
  let x := s.dom d
  let s1 := match x.preemptAt with
    | some (t, sc) =>
      if decide (t ≤ tick) && x.phase == DomPhase.active then
        ((s.updDom d (fun y => { y with phase := .preempted, preempted := true, saving := true, saveCommons := sc,
                                        preemptAt := none })).bump d pTik 7 1).msix 0 (32 + d) |> fun (t : State) =>
          if sc then t else t.loseStaged d
      else s
    | none => s
  match (s1.dom d).resumeAt with
  | some t =>
    if decide (t ≤ tick) && (s1.dom d).phase == DomPhase.preempted then
      (s1.updDom d (fun y => { y with phase := .active, restoring := true, saving := false, resumeAt := none })).msix 0 (32 + d)
    else s1
  | none => s1

/-! ## The refresh mode (R273) -/

/-- The mode of a tick from T_hot and the previous tick's mode. -/
def refreshMode (tHot prev : Nat) : Nat :=
  if 95 < tHot then 2 else if 85 < tHot then 1 else if 83 < tHot then min prev 1 else 0

/-! ## The fabric at a latch (R366, R373, R390, R401) -/

/-- Owners of wheel times whose tick has come (R401). -/
def FabState.latchSlots (f : FabState) (tick : Nat) : FabState :=
  let due := f.slotNext.filter (fun w => decide (w.2.2 ≤ tick))
  { f with slotTags := due.foldl (fun m w => if w.2.1 = 0xFFFF then mapDel m w.1 else mapSet m w.1 w.2.1) f.slotTags,
           slotNext := f.slotNext.filter (fun w => !decide (w.2.2 ≤ tick)) }

/-- A port's width as plans see it from now on, in half ports. -/
def PortStateRec.latchWidth (p : PortStateRec) : PortStateRec :=
  { p with plannedWidth := if p.state == .up && !p.rekeyStalled then (if p.half then 1 else 2) else 0 }

/-- The port toward the master: the lowest UP port of the hop; 31 on the master (R390, R399). The depth D is of the whole system, which the device is not told (log 62). -/
def State.chooseParent (s : State) : State :=
  if s.tik.isMaster then
    let alone := !s.fab.ports.any (fun p => p.2.state == .up)
    let (i, s1) := s.takeFree
    (if alone then s else s1).updFab (fun f =>
      { f with parentPort := 31, depth := if alone then 0 else Config.freeNat i % 28, portChanged := false })
  else match s.tik.master with
    | none => s
    | some m =>
      match s.hop s.fab.self m false with
      | none => s
      | some (dir, _) =>
        let (i, s1) := s.takeFree
        s1.updFab (fun f =>
          { f with parentPort := (s.upPorts dir).headD f.parentPort, depth := Config.freeNat i % 28, portChanged := false })

/-- Receivers give credits to the tags that have come to own wheel times, and waiting flits may go (R369, R371). -/
def State.openTags (s before : State) : State :=
  (s.fab.ports.map Prod.fst).foldl (fun t p =>
    if (s.port p).state = .up then
      let old := (before.firstCredits p).map Prod.fst
      let new := (s.firstCredits p).filter (fun c => !old.contains c.1)
      (new.foldl (fun u c => u.updPort p (fun x => { x with creditsDue := mapSet x.creditsDue c.1 c.2 })) t).pump p
    else t) s

/-- The fabric's part of a latch. -/
def State.latchFabric (s : State) (tick : Nat) : State :=
  let s1 := s.updFab (fun f =>
    { f.latchSlots tick with ports := f.ports.map (fun p => (p.1, p.2.latchWidth)) })
  let s2 := if s1.fab.slotTags = s.fab.slotTags then s1 else s1.openTags s
  if s2.fab.portChanged then s2.chooseParent else s2

/-! ## The first latch (R510) -/

/-- Domain 0 becomes ACTIVE at the device's first latch, and its keys are drawn and loaded (R423, R441, R510). -/
def State.firstLatch (s : State) : State :=
  if (s.dom 0).phase = .active then s
  else
    let (k0, s1) := s.takeDraw
    let (k1, s2) := s1.takeDraw
    let (k2, s3) := s2.takeDraw
    (s3.updDom 0 (fun x =>
      { x with phase := .active, ovh := x.rec_.ovhFrames 0,
               keys := { x.keys with slot0 := some k0, round := .drawn k1, kem := some k2 } })).msix 0 32

/-! ## The latch as a whole -/

/-- The tick values that take effect at a latch (R307, R311), and what begins anew in a tick. -/
def TikState.latch (t : TikState) (tick nowNs : Nat) : TikState :=
  let t1 := t.applied tick
  { t1 with ticking := true, tick := tick, latchNs := nowNs, cutoffPassed := false, runEnded := false, settled := false,
            doneSent := none, doneGot := [], stallNs := 0, stallBy := if t.lateNs = 0 then [] else [(6, t.lateNs)], nextLatch := none, lateNs := 0 }

/-- Domains that come, go and change at a latch (R422 to R427, R443, R448). -/
def State.latchDom (s : State) (tick nowNs d : Nat) : State :=
  let x := s.dom d
  let s1 := match x.phase with
    | .creating => match x.activeAt with
      | some t => if t ≤ tick ∧ x.teardownAt.isNone then s.latchActive d else s
      | none => s
    | .scrubbing => if x.scrubEnded then s.latchFree d else s
    | _ => s
  let s2 := (s1.latchLeft d).latchRequests d nowNs
  if (s2.dom d).alive || (s2.dom d).keys.applyPending.isSome then (s2.latchKeys d).updDom d Dom.latchSeqs else s2

/-- A teardown whose latch has come (R423, R424). -/
def State.latchTearDown (s : State) (tick nowNs d : Nat) : State :=
  let x := s.dom d
  match x.teardownAt with
  | none => s
  | some t =>
    let due := match x.phase with
      | .creating => match x.activeAt with | some a => decide (a ≤ tick) | none => false
      | _ => decide (t ≤ tick)
    if due then s.latchScrub d nowNs else s

/-- Holder of a unit as ARG_OWNER shows it: nobody while its domain is FREE or CREATING (R478, R479). -/
def State.ownerOf (s : State) (u : Nat) : Option (Nat × Bool) :=
  match s.unitHolder u with
  | none => none
  | some d =>
    if (s.dom d).phase = .creating then none
    else some (d, match (s.dom d).loan with | some (f, n, _) => decide (f ≤ u) && decide (u < f + n) | none => false)

/-- OWNER_CHANGE of every unit whose holder differs from before (R481). -/
def State.ownerChanges (s before : State) : State :=
  (List.range 64).foldl (fun t u => if s.ownerOf u = before.ownerOf u then t else t.raiseUnit u 2) s

/-- Steps 1 to 6 of R308 at the latch of `tick`; `first` marks the device's first latch. -/
def State.latchState (s : State) (tick nowNs : Nat) (first : Bool) : State :=
  let s0 := ((s.endTickPower nowNs).atTime nowNs).updTik (fun t => t.latch tick nowNs)
  let s1 := if first then s0.firstLatch else s0
  let s2 := s1.eachDom (fun t d => t.latchTearDown tick nowNs d)
  let s3 := s2.eachDom (fun t d => t.releaseClosed d)
  let s4 := (s3.releaseCopy 0).releaseCopy 1
  let s5 := (s4.applyCommits).clearOldHeld
  let s6 := s5.latchSwitch tick
  let s7 := s6.latchActs
  let s8 := s7.eachDom (fun t d => t.latchDom tick nowNs d)
  let s9 := s8.eachDom (fun t d => t.latchPreempt d tick)
  let s10 := { (s9.latchBase).latchFabric tick with mbds := s9.mbds.map (fun (m : Nat × StackState) => (m.1, { m.2 with retrained := [] })) }
  let mode := refreshMode s10.memg.tHot s10.memg.latchedMode
  let s11 := s10.updMemg (fun m => { m with latchedMode := mode, refMode := mode, tickMode := if first then mode else m.planMode, risen := false })
  (s11.latchLevel tick first).ownerChanges s

/-- The number of the tick that the next latch begins: 0 or the announced one at the first (R332, R391). -/
def State.nextTick (s : State) : Nat := if s.tik.ticking then s.tik.tick + 1 else s.tik.tick

/-- BUSY_ARRAY_CYCLES of every unit of a slab's range gains what the slab has held since it was last counted (R481). -/
def State.countBusy (s : State) (d nowNs : Nat) (b : Slab) : State :=
  let h := hdrOf b.words
  let cycles := (nowNs - b.busyFrom) * stepMHz s.tik.step / 1000
  let s1 := s.updSlab d b.order (fun c => { c with busyFrom := max c.busyFrom nowNs })
  if cycles = 0 ∨ !h.holdsArrays ∨ h.count = 0 then s1
  else
    let last := h.first + h.count
    (List.range' (h.first / 128) ((last - 1) / 128 + 1 - h.first / 128)).foldl (fun t u =>
      t.bump dev (pArg u) 0 ((min last (128 * u + 128) - max h.first (128 * u)) * cycles)) s1

/-- The holds of all started slabs up to a latch; the arrays of a preempted domain are not held (R327, R479). -/
def State.countHolds (s : State) (nowNs : Nat) : State :=
  s.eachDom (fun t d =>
    ((t.dom d).slabs.filter (fun b => b.state == .running || b.state == .paused)).foldl (fun u b =>
      if (u.dom d).phase = .preempted then u.updSlab d b.order (fun c => { c with busyFrom := nowNs }) else u.countBusy d nowNs b) t)

/-- The plan latch (R308): the settle phase is over, or it is the first latch of a device that has a master (R509, R510). -/
def execPlanLatch (nowNs : Nat) (s : State) : Host.Outcome State Fault Refusal :=
  let first := !s.tik.ticking
  let tick := s.nextTick
  .next (if s.boot.phase == .running && s.fab.trainStart.isSome &&
      (if first then s.tik.isMaster || s.tik.nextLatch.isSome else s.tik.settled) then
    let s1 := (s.countHolds nowNs).latchState tick nowNs first
    let s2 := s1.eachDom (fun t d => t.takePlan d tick)
    s2.emit .tickOut
  else s)

end Sys2Proof.Machine
end

