-- ==== Sys2Proof/Machine/Plan.lean ====
section
/-! DEFINITION. The plan of the next tick, built at the cut-off: eligibility, planned times, places, horizons and energies of every domain's slabs, and the slabs that the device issues itself (R15 to R26, R69, R74, R90, R109, R133, R134, R166, R231, R232, R243, R269, R274, R291 to R296, R309, R316 to R327, R340, R416, R444). -/

namespace Sys2Proof.Machine

/-! ## The frame of a tick (R272, R274, R307, R309) -/

/-- Length of a refresh pause by mode, ns (R272). -/
def pauseNs (mode : Nat) : Nat := if mode = 2 then 12800 else if mode = 1 then 6400 else 3200

/-- What every domain's plan of a tick shares. -/
structure PlanFrame where
  tick : Nat
  /-- time base at the planned latch, ns (log 63) -/
  latchAt : Nat
  step : Nat
  /-- end of the run phase, ns -/
  re : Rat
  edom : Nat
  /-- offsets at which refresh pauses begin, and their length -/
  pauses : List Rat
  pause : Rat
deriving DecidableEq, Repr, Inhabited

/-- Offset of the first multiple of 125 µs of the time base after a latch (R272). -/
def firstPause (latchAt : Nat) : Nat := (latchAt / 125000 + 1) * 125000 - latchAt

/-- Offsets of the multiples of 125 µs of the time base after a latch, up to beyond the tick's end (R272). -/
def pauseOffsets (latchAt tickNs : Nat) : List Rat :=
  (List.range (tickNs / 125000 + 1)).map (fun i => ((firstPause latchAt + 125000 * i : Nat) : Rat))

/-- The end of work, with the pauses at `o` and every 125 µs after it that begin before the end as so extended (R274). -/
def extendEnd (pause : Rat) : Nat → Rat → Rat → Rat
  | 0, _, e => e
  | n + 1, o, e => if o < e then extendEnd pause n (o + 125000) (e + pause) else e

/-- The end of work that starts at an offset: every pause that begins after the start and before the end as so extended is added, beyond the tick's end too (R274). A pause is shorter than 12.8 µs of each 125 µs, so `work / 100000 + 2` bounds their number. -/
def PlanFrame.endOf (f : PlanFrame) (start work : Rat) : Rat :=
  let p0 : Rat := (firstPause f.latchAt : Nat)
  let o := if start < p0 then p0 else p0 + 125000 * (((start - p0) / 125000).floor + 1 : Int)
  extendEnd f.pause ((work / 100000).ceil.toNat + 2) o (start + work)

/-- The work done between two offsets, pauses excluded (R325). -/
def PlanFrame.workIn (f : PlanFrame) (start stop : Rat) : Rat :=
  stop - start - (f.pauses.map (fun o => if start < o ∧ o < stop then ratMin f.pause (stop - o) else 0)).sum

/-! ## Energy (R340) -/

/-- E(s, k) in microjoule of a planned time in ns; `kp.arrays` is A. -/
def planEnergy (k : Nat) (t : Rat) (kp : KindPlan) : Rat :=
  t * (kp.arrays * (stepScale k * arrayWatts kp.width) + kp.nve * (stepScale k * 0.300)) / 1000 +
    (1024 * kp.load.tokens + 2 * kp.load.commons : Nat) / 1000000

/-- The earliest offset at which the cumulative energy of intervals reaches an allowance, or the end of the run phase (R322); an allowance of 0 is reached at once. -/
def horizon (items : List (Rat × Rat × Rat)) (allow rs re : Rat) : Rat :=
  let cut := items.flatMap (fun i => [i.1, i.2.1])
  let pts := ((cut ++ [re]).filter (fun x => decide (rs < x) && decide (x ≤ re))).foldl (fun (l : List Rat) x =>
    l.filter (fun y => decide (y < x)) ++ x :: l.filter (fun y => decide (x < y))) []
  let walk := pts.foldl (fun (a : Rat × Rat × Option Rat) x =>
    match a with
    | (p, cum, some h) => (p, cum, some h)
    | (p, cum, none) =>
      let rate := (items.map (fun i =>
        if i.1 ≤ p ∧ x ≤ i.2.1 ∧ i.1 < i.2.1 then i.2.2 / (i.2.1 - i.1) else 0)).sum
      let c := cum + rate * (x - p)
      if 0 < rate ∧ allow ≤ c then (x, c, some (p + (allow - cum) / rate)) else (x, c, none)) (rs, 0, none)
  if allow ≤ 0 then rs else walk.2.2.getD re

/-! ## What a slab needs (R74, R90, R109, R231, R294, R296) -/

/-- The arrays that a slab holds, as a half-open range. -/
def Hdr.arraysHeld (h : Hdr) : Option (Nat × Nat) := if h.holdsArrays then some (h.first, h.first + h.count) else none

/-- The VEs that a slab holds. -/
def Hdr.vesHeld (h : Hdr) : Option (Nat × Nat) :=
  if h.holdsVes && h.count != 0 then some (h.first / 16, (h.first + h.count + 15) / 16) else none

/-- Two ranges share a number. -/
def rangesMeet : Option (Nat × Nat) → Option (Nat × Nat) → Bool
  | some a, some b => decide (a.1 < b.2) && decide (b.1 < a.2)
  | _, _ => false

/-- The history slots that a slab names: that of a conversion with delayed scale (R47, R109). -/
def State.histSlots (s : State) (d : Nat) (ws : List W64) : List Nat :=
  if (hdrOf ws).kind = 4 then
    match (chainBody ws).convert? with
    | some x =>
      (match convOf s.recipe (s.dom d).rec_.kln3Grad x.tkind x.ovr with
       | some c => if c.src = 3 then [x.slot] else []
       | none => [])
    | none => []
  else []

/-- The WEIGHT streams that a slab writes, each in the other buffer of its slot (R166, R173). -/
def weightStreams (ws : List W64) : List UStream :=
  let h := hdrOf ws
  if h.kind = 5 ∧ h.sub ≠ 4 then (updBody ws).streams.filter (fun x => x.skind == 1 && x.role == 1) else []

/-- A pass would write over an old version that a batch still holds; a stream whose slot is not held writes no buffer and waits for none (R122, R166, R184). -/
def State.overOld (s : State) (d : Nat) (ws : List W64) : Bool :=
  (weightStreams ws).any (fun x => s.streamHeld d (hdrOf ws).batch x && (s.slot x.slot).oldHeld)

/-- A slab that names a flash-resident tensor not fully staged is not eligible (R231). -/
def State.tensorReady (s : State) (d : Nat) (ws : List W64) : Bool :=
  let h := hdrOf ws
  if h.kind = 1 then
    match s.copyOfGen (s.genFor d h.batch) with
    | none => true
    | some k =>
      let c := s.copy k
      (match c.tensors[(baseBody ws).col.elem % 2 ^ 24]? with
       | some t => c.reachable t
       | none => true)
  else true

/-- The demand pages of touched pages, whether the slab may run for them, and how many frames of its own its writes and its reads want; a shared page is a demand page unless the domain pins it and it stands in its frame (R289, R294, R296). -/
def State.demandFor (s : State) (d : Nat) (touch : List (Nat × Nat × Bool)) : Bool × List Nat × Nat × Nat :=
  (touchPages touch).foldl (fun a q =>
    let (p, w) := q
    let own := (s.dom d).entry p
    let e := s.pageEntry d p
    let (ok, ds, fw, fr) := a
    if own.shared.isSome && own.pin == 0 then (ok, ds ++ [p], fw, fr)
    else if own.shared.isSome then (if (e.state == .flash && !e.zero) || e.state == .up then (ok, ds ++ [p], fw, fr) else a)
    else match e.state with
      | .stacked => a
      | .down => (ok && !w, ds, fw, fr)
      | .up => (ok, ds ++ [p], fw, fr)
      | .flash =>
        let need := if e.zero then ds else ds ++ [p]
        if w then (ok, need, fw + 1, fr) else if e.zero then a else (ok, need, fw, fr + 1)) (true, [], 0, 0)

/-! ## Stationary reuse (R69) -/

/-- The arrays on which a slab reuses the kept operand of the last slab before it. -/
def State.reuseFor (s : State) (d order : Nat) (ws : List W64) : List Nat :=
  let h := hdrOf ws
  if h.kind ≠ 1 ∨ !(baseBody ws).reuse then []
  else
    let key := s.reuseKeyOf d ws
    let (a0, a1) := bufferArrays ws
    let earlier := ((s.dom d).slabs.filter (fun b =>
      decide (b.order < order) && b.state != .ended && (hdrOf b.words).usesBuffers)).reverse
    (List.range' a0 (a1 - a0)).filter (fun a =>
      match earlier.find? (fun b => let r := bufferArrays b.words; decide (r.1 ≤ a) && decide (a < r.2)),
            mapGet (s.dom d).lastOperand a with
      | some b, some (o, k, _) => sameStat (if b.order < o then k else s.reuseKeyOf d b.words) key a
      | some b, none => sameStat (s.reuseKeyOf d b.words) key a
      | none, some (_, k, _) => sameStat k key a
      | none, none => false)

/-! ## Completion words (R416) -/

/-- The completion queue can take one more word. -/
def Dom.wordFree (x : Dom) : Bool := decide (x.queue.compl.length + x.queue.reserved < 4096)

/-- Reserves a word for a slab: the state, and whether it has one. -/
def State.reserveWord (s : State) (d order : Nat) : State × Bool :=
  let x := s.dom d
  match x.slabs.find? (fun b => b.order == order) with
  | none => (s, false)
  | some b =>
    if b.wordReserved then (s, true)
    else if x.wordFree then
      ((s.updSlab d order (fun c => { c with wordReserved := true })).updDom d (fun y =>
        y.updQueue (fun q => { q with reserved := q.reserved + 1 })), true)
    else (s, false)

/-- Reserves the further word that a replay writes (R416): of a slab withheld already, or still running with shared poison read. -/
def State.reserveReplay (s : State) (d order : Nat) : State × Bool :=
  let x := s.dom d
  match x.slabs.find? (fun b => b.order == order) with
  | none => (s, false)
  | some b =>
    if b.state = .withheld then s.reserveWord d order
    else if b.replayWord then (s, true)
    else if x.wordFree then
      ((s.updSlab d order (fun c => { c with replayWord := true })).updDom d (fun y =>
        y.updQueue (fun q => { q with reserved := q.reserved + 1 })), true)
    else (s, false)

/-- A slab ends without running: its status, and the tick in whose settle phase its word is written; its dependents that need a result fail with it (R25, R69). DEDUCED (log 122): a slab that fails at the cut-off of tick n - 1 ends in tick n, the tick whose plan finds it failed. -/
def State.endUnrun (s : State) (d order tick : Nat) (ws : List W64) (st : Status) : State :=
  (s.noteUnloaded d order ws).updDom d (fun x =>
    { x with slabs := x.slabs.map (fun b =>
        if b.order = order then { b with state := .ended, status := b.status.worse st, tick := tick, nextPlan := none }
        else if b.dep = .waits order then { b with dep := if st.feeds then .met else .failed } else b) })

/-! ## Device-issued slabs (R133, R134, R232, R292, R295, R327, R444) -/

/-- The plan of one device-issued slab: T, the counts for its energy, and its items. -/
structure DevPlan where
  kind : DevSlab
  time : Rat
  tokens : Nat
  commons : Nat
  amount : Nat
  /-- the ACLK cycles in T, which a carried slab takes at the clock step of each tick (R325) -/
  cycles : Rat := 256
deriving DecidableEq, Repr, Inhabited

/-- The leading pieces of a Cooper queue within a budget: the item and the bytes of each (R133). -/
def cooperPieces : Nat → List CoopItem → List (CoopItem × Nat)
  | _, [] => []
  | b, i :: r =>
    if b = 0 ∨ i.blocked then []
    else
      let n := min b i.left
      if n < i.left then [(i, n)] else (i, n) :: cooperPieces (b - n) r

/-- A Cooper queue beyond the bytes that slabs not yet ended carry (R133). -/
def cooperSkip : Nat → List CoopItem → List CoopItem
  | _, [] => []
  | b, i :: r => if i.left ≤ b then cooperSkip (b - i.left) r else { i with left := i.left - b } :: r

/-- What slabs of a kind that have not ended carry. -/
def Dom.carrying (x : Dom) (k : DevSlab) : Nat := ((x.devSlabs.filter (fun r => r.kind == k && r.state != .ended)).map DevSlabRec.amount).sum

/-- The bytes of spans from the `skip`th on, at most `n` of them. -/
def cutSpans : Nat → Nat → List (Nat × Nat) → List (Nat × Nat)
  | _, _, [] => []
  | skip, n, (a, k) :: r =>
    if k ≤ skip then cutSpans (skip - k) n r
    else
      let m := min n (k - skip)
      if m = 0 then [] else (a + skip, m) :: cutSpans 0 (n - m) r

/-- The time of `n` bytes of a home image from byte `done` on: each piece at the rate of its own home page, the last 4 KiB's rounding at B_dom (R134). -/
def State.homeTime (s : State) (p : PlanCtx) (e : SlotEntry) (done n : Nat) : Rat :=
  let ps := (cutSpans done n e.homeSpans).flatMap (fun x => pagePieces (x.2 / pageBytes + 2) x.1 x.2)
  (ps.map (fun q => (q.2 : Rat) / (if s.inFlash p.d q.1 q.2 then p.flashRd else p.bDom))).sum +
    ((n - (ps.map Prod.snd).sum : Nat) : Rat) / p.bDom

/-- T of R134. -/
def State.cooperPlan (s : State) (p : PlanCtx) : Option DevPlan :=
  let x := s.dom p.d
  let ps := (cooperPieces (65536 * x.var_.loadBudget) (cooperSkip (x.carrying .cooper) x.var_.queue)).filter (fun q => q.2 != 0)
  if ps.isEmpty then none
  else
    let home (i : CoopItem) (n : Nat) : Rat :=
      let e := s.slot i.slot
      s.homeTime p e (roundUp e.imageBytes 4096 - i.left) n
    let staging := p.banksRate x.rec_.nsb
    let time := (ps.map (fun q =>
      let n : Rat := q.2
      match q.1.kind with
      | .load => home q.1 q.2 + n / p.bDom
      | .writeBack => n / p.bDom + home q.1 q.2
      | .stage _ => n / p.bDom + n / staging
      | .restage _ => n / p.bDom + n / staging)).sum
    let stg := ((ps.filter (fun q => q.1.kind.isStage)).map Prod.snd).sum
    let all := (ps.map Prod.snd).sum
    some { kind := .cooper, time := p.ns 256 + time, tokens := (2 * all - stg) / 64, commons := stg, amount := all,
           cycles := 256 + (stg : Rat) / (256 * x.rec_.nsb : Nat) }

/-- The pages by which a domain names a page of domain 0 or of its own. -/
def State.namesOf (s : State) (y : Nat) (h : Nat × Nat) : List Nat :=
  (if y = h.1 then [h.2] else []) ++
    (if h.1 = 0 then ((s.dom y).tir.pages.filter (fun e => e.2.shared == some h.2)).map Prod.fst else [])

/-- An admitted slab of some domain names a page (R289, R293). -/
def State.slabNames (s : State) (h : Nat × Nat) : Bool :=
  s.doms.any (fun y =>
    let ps := s.namesOf y.1 h
    !ps.isEmpty && y.2.slabs.any (fun b => b.admitted && (s.slabTouches y.1 b.words).any (fun t =>
      t.2.1 != 0 && ps.any (fun p => decide (t.1 / pageBytes ≤ p) && decide (p ≤ (t.1 + t.2.1 - 1) / pageBytes)))))

/-- Whether an eviction of a page may start: unpinned by every domain, and no admitted slab names it (R289). -/
def State.evictable (s : State) (d p : Nat) : Bool :=
  (s.pageEntry d p).state == .stacked && !s.pinnedPage d p && !s.slabNames (s.homePage d p)

/-- The items that a tier-queue slab carries: pages moved up that flash delivers, pages written to it, and all items taken; a move-up without a frame of the domain that holds the page stops the queue, an item that cannot start is passed over (R289, R290, R293, R295). -/
def State.tierItems (s : State) (d budget : Nat) : Nat × Nat × Nat :=
  let r := (s.dom d).tir.queue.foldl (fun (a : Bool × Nat × Nat × Nat × Nat × Nat) i =>
    let (stop, up, dn, n, own, shared) := a
    if stop ∨ budget ≤ n then a
    else match i with
      | .up p =>
        let e := s.pageEntry d p
        let mine := (s.homePage d p).1 == d
        (match e.state with
         | .flash =>
           if (if mine then own else shared) = 0 then (true, up, dn, n, own, shared)
           else (stop, up + bit01 (!e.zero), dn, n + 1, own - bit01 mine, shared - bit01 (!mine))
         | _ => a)
      | .down p =>
        let e := s.pageEntry d p
        if s.evictable d p then (stop, up, dn + bit01 (e.dirty || !(e.flashValid || e.zero)), n + 1, own, shared) else a)
    (false, 0, 0, 0, (s.dom d).tirFree, (s.dom 0).tirFree)
  (r.2.1, r.2.2.1, r.2.2.2.1)

/-- T of R295. -/
def State.tierPlan (s : State) (p : PlanCtx) : Option DevPlan :=
  let x := s.dom p.d
  if x.tir.queue.isEmpty then none
  else
    let (up, dn, n) := s.tierItems p.d x.tir.migBudget
    let any : Rat := if up + dn = 0 then 0 else 1
    let b : Rat := pageBytes
    some { kind := .tierQueue,
           time := p.ns 256 + any * (1000 * p.latUs : Nat) + b * (up / p.flashRd + dn / p.flashWr + (up + dn : Nat) / p.bDom),
           tokens := 32768 * (up + dn), commons := 0, amount := n }

/-- A staging slab of Carter's (R232); it waits while domain 0's RATE is 0 (R521). -/
def State.carterPlan (s : State) (p : PlanCtx) : Option DevPlan :=
  let n := min (65536 * s.bas.fillBudget) (65536 * s.carterWork.length)
  if p.d ≠ 0 ∨ n = 0 ∨ p.rate = 0 then none
  else some { kind := .carter, time := p.ns 256 + (n : Rat) / p.flashRd, tokens := n / 64, commons := 0, amount := n / 65536 }

/-- T of R444. -/
def State.sweepPlan (s : State) (p : PlanCtx) : Option DevPlan :=
  let x := s.dom p.d
  let live := (x.keys.sweepPages.filter x.sweepNeeds).drop (x.carrying .sweep)
  let now := live.take x.keys.rotBudget
  let nf := (now.filter (fun i => i % 2 == 1)).length
  let ovh := min x.keys.sweepOvh (x.keys.rotBudget - now.length)
  let ns := now.length - nf + ovh
  if !x.keys.sweeping ∨ ns + nf = 0 then none
  else
    let any : Rat := if nf = 0 then 0 else 1
    some { kind := .sweep,
           time := p.ns 256 + (4194304 * ns : Nat) / p.bDom + any * (1000 * p.latUs : Nat) +
             (pageBytes * nf : Nat) * (1 / p.flashRd + 1 / p.flashWr),
           tokens := 65536 * ns, commons := 0, amount := x.keys.rotBudget }

/-- Bytes of a preemption save and the commons bytes among them: arrays and VEs held, and the banks (R327, R154). -/
def State.saveBytes (s : State) (d : Nat) (saveCommons : Bool) : Nat × Nat :=
  let x := s.dom d
  let units := (s.unitsOf d).length
  let banks := if saveCommons then x.rec_.banks else if x.batches.isEmpty then 0 else x.upd.retBanks
  (49152 * 128 * units + 4096 * 8 * units + bankBytes * banks, bankBytes * banks)

def State.savePlan (s : State) (p : PlanCtx) (restore saveCommons : Bool) : DevPlan :=
  let (n, c) := s.saveBytes p.d saveCommons
  { kind := if restore then .restore else .save, time := 1000 + (n : Rat) / p.bDom, tokens := n / 64, commons := c, amount := n,
    cycles := 0 }

/-- The device's own slabs of a domain's plan: one for each queue that is not empty (R133, R232, R295, R444). -/
def State.devPlans (s : State) (p : PlanCtx) : List DevPlan :=
  (s.cooperPlan p).toList ++ (s.tierPlan p).toList ++ (s.carterPlan p).toList ++ (s.sweepPlan p).toList

/-! ## Placing a domain's slabs (R318) -/

/-- One placed slab. -/
structure Placed where
  dev : Option DevPlan := none
  order : Nat := 0
  rt : Bool := false
  arrs : Option (Nat × Nat) := none
  ves : Option (Nat × Nat) := none
  hist : List Nat := []
  start : Rat
  end_ : Rat
  full : Rat
  /-- the fraction of its work that is planned from here on -/
  rem : Rat := 1
  /-- energy of that fraction, microjoule -/
  energy : Rat := 0
  demand : List Nat := []
  demNs : Rat := 0
  reuse : List Nat := []
  /-- planned at the staging rate (R131) -/
  staging : Bool := false
  /-- it goes on from an earlier tick (R325) -/
  carried : Bool := false
  pred : Option Nat := none
deriving DecidableEq, Repr, Inhabited

/-- What placing has so far. -/
structure PlanAcc where
  st : State
  placed : List Placed := []
  /-- array ranges and history slots of earlier slabs that wait: later ones may not pass them (R74, R109) -/
  blocked : List (Nat × Nat) := []
  hblock : List Nat := []
  opening : List Nat := []
  starts : Nat := 0
  /-- frames left for pages that slabs move up -/
  frames : Nat := 0
  held : Bool := false

/-- The slab waits; no later one passes it on its arrays or history slot. -/
def PlanAcc.skip (a : PlanAcc) (arrs : Option (Nat × Nat)) (hist : List Nat) : PlanAcc :=
  { a with blocked := a.blocked ++ arrs.toList, hblock := a.hblock ++ hist }

/-- The earliest offset from `t` at which what a slab holds is free by plan (R316, R318). -/
def PlanAcc.freeFrom (a : PlanAcc) (t : Rat) (arrs ves : Option (Nat × Nat)) (hist : List Nat) : Rat :=
  a.placed.foldl (fun m p =>
    if rangesMeet arrs p.arrs || rangesMeet ves p.ves || hist.any (fun q => p.hist.contains q) then ratMax m p.end_ else m) t

/-- A slab of the current plan whose planned portion does not reach its end (R325). -/
def Slab.carries (b : Slab) (tick : Nat) : Bool :=
  (b.state == .paused && (b.tick < tick || decide (b.planStop < b.planEnd))) ||
    ((b.state == .planned || b.state == .running) && decide (b.planStop < b.planEnd))

/-- Its replay is due: it is withheld, or shared poison has been read by its attempt, whose portion ends in the current tick (R243). -/
def Slab.awaitsReplay (b : Slab) (tick : Nat) : Bool :=
  b.state == .withheld ||
    (b.status == .sharedPoison && (b.state == .running || b.state == .paused) && !b.carries tick)

/-- The fraction of its work that remains after the current tick's portion (R325). -/
def Slab.restFrac (b : Slab) : Rat := if b.state = .paused then b.remaining else b.remaining - b.frac

/-- The slab reuses the kept operand on every array of its range: T_stat is 0 (R69, R88). -/
def reusesAll (ws : List W64) (reuse : List Nat) : Bool :=
  let r := bufferArrays ws
  !reuse.isEmpty && (List.range' r.1 (r.2 - r.1)).all (fun a => reuse.contains a)

/-- A VARIANT_PRODUCT is planned at the staging rate (R131). -/
def State.atStagingRate (s : State) (d : Nat) (ws : List W64) (batch : Batch) : Bool :=
  (hdrOf ws).kind == 2 && s.allStaged d (varBody ws).proj batch

/-- A carried slab continues at t + 4 µs; what its start granted stays granted (R325). -/
def State.placeCarried (t : State) (f : PlanFrame) (ctx : PlanCtx) (rs : Rat) (a : PlanAcc) (b : Slab) : PlanAcc :=
  let h := hdrOf b.words
  let c := { ctx with copy := t.copyOfGen (t.genFor ctx.d h.batch) }
  let batch := ((t.dom ctx.d).batch? h.batch).getD { id := h.batch, openTick := f.tick, baseGen := t.stampGen }
  let kp := t.kindPlan c b.words batch (reusesAll b.words b.reuse)
  let full := if b.replay then b.planFull else ratMax (kp.time + b.demNs) (10 * h.wcet : Nat)
  let rem := b.restFrac
  let p : Placed :=
    { order := b.order, rt := h.rt, arrs := h.arraysHeld, ves := h.vesHeld, hist := t.histSlots ctx.d b.words, start := rs,
      end_ := f.endOf rs (full * rem), full := full, rem := rem, energy := planEnergy f.step full kp * rem,
      demand := b.demand, demNs := b.demNs, reuse := b.reuse, staging := b.staging, carried := true }
  { a with placed := a.placed ++ [p], starts := a.starts + 1 }

/-- A withheld slab's replay, with its original planned time, once a further word is reserved for it (R243, R416). -/
def State.placeReplay (t : State) (f : PlanFrame) (ctx : PlanCtx) (rs : Rat) (slots : Nat) (a : PlanAcc) (b : Slab) : PlanAcc :=
  let h := hdrOf b.words
  if (if b.state = .withheld then b.replayTick else b.poisonTick) > f.tick then a.skip h.arraysHeld []
  else if slots ≤ a.starts then
    { a.skip h.arraysHeld [] with st := a.st.bump ctx.d pTik 6 1 }
  else
    let (s1, ok) := a.st.reserveReplay ctx.d b.order
    if !ok then { a.skip h.arraysHeld [] with held := true }
    else
      let batch := ((t.dom ctx.d).batch? h.batch).getD { id := h.batch, openTick := f.tick, baseGen := t.stampGen }
      let kp := t.kindPlan { ctx with copy := t.copyOfGen batch.baseGen } b.words batch false
      let start := a.freeFrom rs h.arraysHeld h.vesHeld []
      let p : Placed :=
        { order := b.order, rt := h.rt, arrs := h.arraysHeld, ves := h.vesHeld, start := start,
          end_ := f.endOf start b.planFull, full := b.planFull, energy := planEnergy f.step b.planFull kp, demNs := b.demNs,
          reuse := b.reuse, staging := b.staging }
      { a with st := s1, placed := a.placed ++ [p], starts := a.starts + 1 }

/-- Where a dependency stands for the plan: an offset when it can be met within the tick, or none (R24, R25). -/
def PlanAcc.depFrom (a : PlanAcc) (d : Nat) (f : PlanFrame) (rs : Rat) (b : Slab) : Option Rat :=
  match b.dep with
  | .met => some rs
  | .failed => none
  | .waits o =>
    match a.placed.find? (fun p => p.dev.isNone && p.order == o) with
    | some p => if p.end_ ≤ f.re then some p.end_ else none
    | none =>
      match (a.st.dom d).slabs.find? (fun c => c.order == o) with
      | none => some rs
      | some c =>
        match c.state with
        | .planned => if c.carries f.tick then none else some rs
        | .running => if c.carries f.tick then none else some rs
        | .paused => if c.carries f.tick then none else some rs
        | .ended => some rs
        | .queued => none
        | .withheld => none

/-- VERSION_WAIT of a slab that is held back (R166). -/
def State.versionWait (s : State) (d : Nat) (b : Slab) : State :=
  let s1 := s.bump d pUpd 1 1
  if b.versionWaited then s1 else (s1.updSlab d b.order (fun c => { c with versionWaited := true })).raiseDom pUpd 0 d

/-- A COLLECTIVE starts no earlier than its START_US (R384). -/
def startUs (ws : List W64) : Rat := if (hdrOf ws).kind = 6 then (1000 * (collBody ws).startUs : Nat) else 0

/-- A slab with RT, which is planned first, waits for an earlier slab without RT on its history slot (R109, R323; log 141). -/
def State.histWaits (t : State) (d tick : Nat) (b : Slab) (hist : List Nat) : Bool :=
  (hdrOf b.words).rt && (t.dom d).slabs.any (fun c =>
    decide (c.order < b.order) && !(hdrOf c.words).rt && (c.state == .queued || c.state == .withheld || c.carries tick) &&
      hist.any (fun q => (t.histSlots d c.words).contains q))

/-- A slab of the queue: it ends, waits, or takes its place (R17 to R26, R166, R231, R269, R296, R316, R318, R319, R416). -/
def State.placeFresh (t : State) (f : PlanFrame) (ctx : PlanCtx) (rs : Rat) (slots : Nat) (a : PlanAcc) (b : Slab) : PlanAcc :=
  let d := ctx.d
  let h := hdrOf b.words
  let arrs := h.arraysHeld
  let hist := t.histSlots d b.words
  let batch := ((t.dom d).batch? h.batch).getD { id := h.batch, openTick := f.tick, baseGen := t.stampGen, lsExp := (t.dom d).upd.lsExp }
  let c := { ctx with copy := t.copyOfGen batch.baseGen }
  let reuse := t.reuseFor d b.order b.words
  let kp := t.kindPlan c b.words batch (reusesAll b.words reuse)
  let fails : Option Status :=
    if b.dep = .failed then some .depFailed
    else if (kp.load.ordinary && ctx.rate == 0) || (kp.load.tFrames && ctx.rateT == 0) then some .descInvalid
    else none
  match fails with
  | some st =>
    let (s1, ok) := a.st.reserveWord d b.order
    { a with st := s1.endUnrun d b.order f.tick b.words st, held := a.held || !ok }
  | none =>
    let waits := t.histWaits d f.tick b hist || hist.any (fun q => a.hblock.contains q) || a.blocked.any (fun r => rangesMeet arrs (some r))
    match (if waits then none else a.depFrom d f rs b) with
    | none => a.skip arrs hist
    | some from0 =>
      let from_ := ratMax from0 (startUs b.words)
      let opens := h.batch != 0 && ((t.dom d).batch? h.batch).isNone && !a.opening.contains h.batch
      let full256 := opens && decide (256 ≤ (t.dom d).batches.length + a.opening.length)
      let (okPages, dem, fw, fr) := t.demandFor d kp.load.touch
      if full256 || !t.tensorReady d b.words || !okPages || decide (a.frames < fw) || (!dem.isEmpty && ctx.rd == 0) then
        a.skip arrs hist
      else if t.overOld d b.words then
        { a.skip arrs hist with st := a.st.versionWait d b }
      else if slots ≤ a.starts then { a with st := a.st.bump d pTik 6 1 }
      else if f.re ≤ a.freeFrom from_ arrs h.vesHeld hist then a.skip arrs hist
      else
        let (s1, ok) := a.st.reserveWord d b.order
        if !ok then { a.skip arrs hist with held := true }
        else
          let demNs : Rat := if dem.isEmpty then 0 else (1000 * ctx.latUs : Nat) + (dem.length * pageBytes : Nat) / ctx.flashRd
          let full := ratMax (kp.time + demNs) (10 * h.wcet : Nat)
          let start := a.freeFrom from_ arrs h.vesHeld hist
          let p : Placed :=
            { order := b.order, rt := h.rt, arrs := arrs, ves := h.vesHeld, hist := hist, start := start,
              end_ := f.endOf start full, full := full, energy := planEnergy f.step full kp, demand := dem, demNs := demNs,
              reuse := reuse, staging := t.atStagingRate d b.words batch, pred := match b.dep with | .waits o => some o | .met => none | .failed => none }
          { a with st := s1, placed := a.placed ++ [p], starts := a.starts + 1, frames := a.frames - fw - min fr (a.frames - fw),
                   opening := if opens then h.batch :: a.opening else a.opening }

/-- A device slab whose planned portion does not reach its end, or that has paused (R325). -/
def DevSlabRec.carries (r : DevSlabRec) : Bool :=
  r.state == .paused || ((r.state == .planned || r.state == .running) && decide (r.planStop < r.planEnd))

/-- The fraction of its work that remains after the current tick's portion (R325). -/
def DevSlabRec.restFrac (r : DevSlabRec) : Rat := if r.state = .paused then r.remaining else r.remaining - r.frac

/-- The place of a new device slab. -/
def DevPlan.placed (q : DevPlan) (f : PlanFrame) (rs : Rat) : Placed :=
  { dev := some q, start := rs, end_ := f.endOf rs q.time, full := q.time,
    energy := planEnergy f.step q.time { load := { tokens := q.tokens, commons := q.commons } } }

/-- The place of a carried device slab: its full time is that of the new clock step (R325). -/
def DevSlabRec.placed (r : DevSlabRec) (f : PlanFrame) (rs : Rat) : Placed :=
  let full := r.full + 1000 * r.cycles * (1 / (stepMHz f.step : Rat) - 1 / (r.mhz : Rat))
  let rem := r.restFrac
  { dev := some { kind := r.kind, time := full, tokens := r.tokens, commons := r.commons, amount := r.amount, cycles := r.cycles },
    start := rs, end_ := f.endOf rs (full * rem), full := full, rem := rem, carried := true,
    energy := planEnergy f.step full { load := { tokens := r.tokens, commons := r.commons } } * rem }

/-- A device slab takes its place, one start of the domain's (R292, R319). -/
def PlanAcc.put (a : PlanAcc) (p : Placed) : PlanAcc := { a with placed := a.placed ++ [p], starts := a.starts + 1 }

/-- A new device slab takes its place while the domain has starts left, after the carried slab of its queue; one beyond them waits in its queue (R133, R292, R319; log 142). -/
def State.placeDev (t : State) (f : PlanFrame) (ctx : PlanCtx) (rs : Rat) (slots : Nat) (a : PlanAcc) (q : DevPlan) : PlanAcc :=
  if slots ≤ a.starts then { a with st := a.st.bump ctx.d pTik 6 1 }
  else a.put (q.placed f (a.placed.foldl (fun m p => match p.dev with
    | some c => if c.kind = q.kind then ratMax m p.end_ else m
    | none => m) rs))

/-! ## Horizons and the plan records (R321 to R325) -/

/-- The record of a placed slab whose portion ends at a stop. -/
def Placed.record (p : Placed) (f : PlanFrame) (stop : Rat) : PlanRec :=
  let done := if p.end_ ≤ stop then p.rem else if p.full = 0 then p.rem else ratMin p.rem (f.workIn p.start stop / p.full)
  { start := p.start, end_ := p.end_, stop := ratMin p.end_ stop, full := p.full,
    energy := if p.rem = 0 then 0 else p.energy * done / p.rem, cycles := p.full * done * stepMHz f.step / 1000,
    demand := p.demand, reuse := p.reuse, frac := done, demNs := p.demNs, staging := p.staging }

/-- The device record of a placed slab. -/
def Placed.devRecord (p : Placed) (f : PlanFrame) (stop : Rat) (q : DevPlan) : DevSlabRec :=
  let r := p.record f stop
  { kind := q.kind, state := if p.carried then .paused else .planned, planStart := r.start, planEnd := r.end_, planStop := r.stop,
    full := r.full, remaining := p.rem, frac := r.frac, energy := r.energy, amount := q.amount, tokens := q.tokens, commons := q.commons,
    cycles := q.cycles, mhz := stepMHz f.step }

/-- The slabs that are not started: those at or after their horizon, and those whose predecessor does not end in the tick (R322). -/
def lateOnes (placed : List Placed) (h : Bool → Rat) : List Nat :=
  placed.foldl (fun (l : List Nat) p =>
    if p.dev.isSome then l
    else
      let hz := h p.rt
      if hz ≤ p.start ∨ hz < p.end_ ∨ (p.pred.map (fun o => l.contains o)).getD false then p.order :: l else l) []

/-- The save or restore slab of a domain's plan: the one that has not ended goes on, or a new one is formed (R325, R327). -/
def State.onceSlab (t : State) (f : PlanFrame) (ctx : PlanCtx) (new restore : Bool) : Option Placed :=
  let x := t.dom ctx.d
  if new then some ((t.savePlan ctx restore x.saveCommons).placed f runStart)
  else (x.devSlabs.find? (fun r => r.kind == (if restore then DevSlab.restore else DevSlab.save) && r.carries)).map (fun r => r.placed f runStart)

/-- The domain's slabs in their places: what is carried first; then those with RT, then the rest with the device's own, each in submission order (R318, R319, R323, R325; log 141). A restore comes before all of them (R327). -/
def State.placeAll (t : State) (f : PlanFrame) (ctx : PlanCtx) (first : Option Placed) (a0 : PlanAcc) : PlanAcc :=
  let y := t.dom ctx.d
  let rs := match first with | some p => p.end_ | none => runStart
  let fresh (rt : Bool) (a : PlanAcc) : PlanAcc :=
    (y.slabs.filter (fun b => b.state == .queued && (hdrOf b.words).rt == rt)).foldl (fun a b =>
      let now := ((a.st.dom ctx.d).slabs.find? (fun c => c.order == b.order)).getD b
      if now.state == .ended then a else t.placeFresh f ctx rs y.slots a now) a
  let replays (rt : Bool) (a : PlanAcc) : PlanAcc :=
    (y.slabs.filter (fun b => b.awaitsReplay f.tick && (hdrOf b.words).rt == rt)).foldl (fun a b => t.placeReplay f ctx rs y.slots a b) a
  let a1 := match first with | some p => a0.put p | none => a0
  let a2 := (y.devSlabs.filter (fun r => r.carries && !devOnce r.kind && y.devSlab? r.kind == some r)).foldl (fun a r => a.put (r.placed f rs)) a1
  let a3 := (y.slabs.filter (fun b => b.carries f.tick)).foldl (fun a b => t.placeCarried f ctx rs a b) a2
  let a4 := (t.devPlans ctx).foldl (fun a q => t.placeDev f ctx rs y.slots a q) (fresh true (replays true a3))
  fresh false (replays false a4)

/-- The plan records of a domain's placed slabs, cut at its horizons; a carried slab at or after its horizon stays paused (R321 to R325, R416). -/
def State.recordPlan (t : State) (f : PlanFrame) (d : Nat) (acc : PlanAcc) : State :=
  let y := t.dom d
  let allow : Rat := ((f.edom * y.weight / max t.tik.wCap 1 : Nat) : Rat)
  let rtAllow := ratMin (y.rtUj : Rat) allow
  let items (rt : Bool) : List (Rat × Rat × Rat) := (acc.placed.filter (fun p => p.rt == rt)).map (fun p => (p.start, p.end_, p.energy))
  let hRt := horizon (items true) rtAllow runStart f.re
  let hOther := horizon (items false) (allow - rtAllow) runStart f.re
  let h (rt : Bool) : Rat := if rt then hRt else hOther
  let late := lateOnes acc.placed h
  let s1 := acc.placed.foldl (fun u p =>
    let stop := h p.rt
    let off := !p.carried && (decide (stop ≤ p.start) || decide (f.re ≤ p.start) || (p.pred.map (fun o => late.contains o)).getD false)
    if off then u
    else match p.dev with
      | some q => u.updDom d (fun x => { x with devNext := x.devNext ++ [p.devRecord f (ratMax stop p.start) q] })
      | none => u.updSlab d p.order (fun b => { b with nextPlan := some (p.record f (ratMax stop p.start)) }))
    (acc.st.updDom d (fun x => { x with devNext := [] }))
  let unreserved := (s1.dom d).slabs.any (fun b => b.state == .ended && !b.wordReserved)
  if acc.held || unreserved then (s1.bump d pDom 3 1).raiseDom pDom 3 d else s1

/-- The plan of one domain (R317): `t` is the state that the latch will find, `s` takes the results. A preempted domain has its save slab, and nothing else (R327). -/
def State.planDomain (s t : State) (f : PlanFrame) (d : Nat) : State :=
  let y := t.dom d
  let ctx : PlanCtx :=
    { d := d, f := stepMHz f.step, rate := y.rate, rateT := y.rateT, rd := y.tir.rd, wr := y.tir.wr, latUs := t.nvm.latUs, copy := none }
  let was := (s.dom d).phase = .preempted
  let a0 : PlanAcc := { st := s, frames := y.tirFree }
  if y.phase = .preempted then
    t.recordPlan f d (match t.onceSlab f ctx (!was) false with | some p => a0.put p | none => a0)
  else if y.phase != .active then s
  else t.recordPlan f d (t.placeAll f ctx (t.onceSlab f ctx was true) a0)

/-! ## Shared fetches (R16) -/

/-- The next plan's place of a BASE_PRODUCT that may join a shared fetch: generation, tensor, formats, segment length and start. -/
def State.fetchKey (t : State) (d : Nat) (b : Slab) : Option (Nat × Nat × Nat × Nat × Rat) :=
  let h := hdrOf b.words
  let body := baseBody b.words
  match b.nextPlan with
  | some p =>
    if h.kind = 1 ∧ h.share then
      some (t.genFor d h.batch, body.col.elem % 2 ^ 24, 16 * body.row.fmt + bit01 body.col.trans, h.redSeg, p.start)
    else none
  | none => none

/-- Every slab of the plan learns the other domains that share its fetch. -/
def State.mergeFetches (s t : State) : State :=
  let all := s.doms.flatMap (fun p => p.2.slabs.filterMap (fun b => (t.fetchKey p.1 b).map (fun k => (p.1, k))))
  if all.length < 2 then s
  else s.eachDom (fun u d => u.updDom d (fun x =>
    { x with slabs := x.slabs.map (fun b =>
        match t.fetchKey d b, b.nextPlan with
        | some k, some p =>
          { b with nextPlan := some { p with shared := ((all.filter (fun q => q.2 == k && q.1 != d)).map Prod.fst).dedup } }
        | _, _ => b) }))

/-! ## The cut-off (R309) -/

/-- Time base at which the next latch is due, as the cut-off knows it (log 63). -/
def State.nextLatchAt (s : State) : Nat := s.tik.nextLatch.getD (s.tik.latchNs + s.tik.tickNs + s.tik.stallNs)

/-- Frame of the next tick: step and E_dom from the power controller, refresh mode from T_hot now (R309, R345). -/
def State.planFrame (s t : State) (step mode : Nat) : PlanFrame :=
  let n := s.nextTick
  { tick := n, latchAt := s.nextLatchAt, step := step, re := (t.runEndNs n : Nat), edom := eDom step (t.runNs n),
    pauses := pauseOffsets s.nextLatchAt t.tik.tickNs, pause := pauseNs mode }

/-- Words for the slabs of a domain that have ended without one (R416). -/
def State.reserveEnded (s : State) (d : Nat) : State :=
  ((s.dom d).slabs.filter (fun b => b.state == .ended && !b.wordReserved)).foldl (fun u b => (u.reserveWord d b.order).1) s

/-- The plan cut-off of the current tick (R309): the state that the next latch will find is made from what is decided now, and every domain is planned from it, independently of the others (R317). -/
def execPlanCutoff (nowNs : Nat) (s0 : State) : Host.Outcome State Fault Refusal :=
  .next (if s0.tik.ticking && !s0.tik.cutoffPassed then
    let s := s0.atTime nowNs
    let n := s.nextTick
    let lv := s.planLevel
    let mode := refreshMode s.memg.tHot s.memg.latchedMode
    let t := s.latchState n s.nextLatchAt false
    let f := s.planFrame t lv.1 mode
    let s1 := ((s.updTik (fun k => { k with cutoffPassed := true, planStep := lv.1, planEdom := f.edom })).updPwr (fun p =>
      { p with planOverride := lv.2, restrict := false, inForce := s.planBounds })).updMemg (fun m => { m with planMode := mode })
    let s2 := s1.eachDom (fun u d => (u.reserveEnded d).planDomain t f d)
    s2.mergeFetches t
  else s0)

end Sys2Proof.Machine
end

