-- ==== Sys2Proof/Machine/Mbd.lean ====
section
/-! DEFINITION. The memory base dies' own work: maintenance windows and their items, routine and emergency retraining, and refresh pauses (R252, R253, R272, R273, R276 to R279, R284 to R286, R313). -/

namespace Sys2Proof.Machine

/-! ## Times and lanes (R252, R276) -/

/-- Time of an item in ns. -/
def itemNs : MaintItem → Nat
  | .laneRepair _ _ => 14000
  | .hardRepair _ _ => 180000
  | .softRepair _ _ => 3000
  | .retrain _ => 12000
  | .rewrite _ n => 1000 * ceilDiv n 16
  | .patrol _ n => 2000 * n

/-- The pseudo-channel of a lane of a channel: 32 data and 4 check lanes each (R252). -/
def pseudoOf (channel lane : Nat) : Nat := 2 * channel + min 1 (lane / 36)

/-- A lane's bits go over the spare of its pseudo-channel, if that is free: LANE_REPAIRED, and SPARES_GONE with the last one (R252, R285, R286). -/
def State.swapLane (s : State) (stack channel lane : Nat) : State :=
  let x := s.mbd stack
  let pc := pseudoOf channel lane
  if x.sparesUsed.contains pc then s
  else
    let s1 := ((s.updMbd stack (fun y => { y with sparesUsed := numAdd y.sparesUsed pc })).bump dev (pMem stack) 4 1).raiseDev (pMem stack) 3
    if (s1.mbd stack).sparesUsed.length = 64 then s1.raiseDev (pMem stack) 4 else s1

/-- A channel that no spare can repair (R253). -/
def State.channelFails (s : State) (stack : Nat) : State :=
  (s.updMbd stack (fun y => { y with failed := true })).raiseDev (pMem stack) 8

/-- A lane fails its training: its pseudo-channel's spare takes its bits; with no spare free the channel has failed (R252, R253). -/
def State.trainFails (s : State) (stack channel lane : Nat) : State :=
  if (s.mbd stack).sparesUsed.contains (pseudoOf channel lane) then s.channelFails stack else s.swapLane stack channel lane

/-! ## The window (R275, R276) -/

/-- Pieces of 64 KiB of a channel that patrol should have covered by a time: 24,576 in 24 hours (R277). -/
def patrolDue (timeNs : Nat) : Nat := timeNs * 24576 / (86400 * 10 ^ 9)

def MaintItem.isPatrol : MaintItem → Bool
  | .patrol _ _ => true
  | .laneRepair _ _ => false | .hardRepair _ _ => false | .softRepair _ _ => false | .retrain _ => false | .rewrite _ _ => false

/-- What a stack has to do as a window of `len` ns begins: what a former window left, what waits, and on each channel the patrol that is due, as far as the window holds it (R276, R277; log 148). -/
def StackState.windowQueue (x : StackState) (timeNs len : Nat) : List MaintItem :=
  (x.running.map Prod.snd ++ x.queue).filter (fun i => !MaintItem.isPatrol i) ++
    (List.range 32).filterMap (fun c =>
      let n := min (patrolDue timeNs - (mapGet x.patrolled c).getD 0) (len / 2000)
      if n = 0 then none else some (.patrol c n))

/-- The waiting item that starts next at an offset: the first of the highest priority that ends within the window, on a channel where nothing runs. -/
def StackState.nextItem (x : StackState) (at_ len : Nat) : Option MaintItem :=
  let ok := x.queue.filter (fun i => decide (at_ + itemNs i ≤ len) && !x.running.any (fun r => MaintItem.channel r.2 == MaintItem.channel i))
  ok.foldl (fun m i => match m with
    | none => some i
    | some b => if MaintItem.priority i < MaintItem.priority b then some i else some b) none

/-- Starts items at an offset of the window, up to eight at once. -/
def StackState.fill (x : StackState) (at_ len : Nat) : Nat → StackState
  | 0 => x
  | n + 1 =>
    if 8 ≤ x.running.length then x
    else match x.nextItem at_ len with
      | none => x
      | some i => StackState.fill { x with queue := x.queue.erase i, running := x.running ++ [(at_ + itemNs i, i)] } at_ len n

/-- A maintenance window begins (R275, R276). -/
def execMaintWindowStart (s : State) : Host.Outcome State Fault Refusal :=
  let len := 1000 * s.windowUs s.tik.tick
  .next (if s.windowOpen then
    ((List.range 8).foldl (fun t k => t.updMbd k (fun x =>
      StackState.fill { x with queue := x.windowQueue s.tik.timeNs len, running := [] } 0 len 8)) s).badgerWindow
  else s)

/-- What an item leaves when it has ended. -/
def State.itemDone (s : State) (stack : Nat) (i : MaintItem) : State :=
  match i with
  | .laneRepair c l => s.swapLane stack c l
  | .hardRepair c row =>
    (s.updMbd stack (fun x => { x with corrected := x.corrected.filter (fun e => e.1 != 1048576 * c + row) })).bump dev (pMem stack) 5 1
  | .softRepair c row =>
    (s.updMbd stack (fun x => { x with corrected := x.corrected.filter (fun e => e.1 != 1048576 * c + row) })).bump dev (pMem stack) 5 1
  | .retrain _ => s
  | .rewrite _ _ => s
  | .patrol c n => (s.updMbd stack (fun x =>
      { x with patrolled := mapSet x.patrolled c ((mapGet x.patrolled c).getD 0 + n) })).bump dev (pMem stack) 7 (1024 * n)

/-- Frames that hold part of a row without a spare are retired (R279). -/
def State.retireFrames (s : State) (stack : Nat) (frames : List Nat) : State :=
  if frames.isEmpty then s
  else (s.updMbd stack (fun x => { x with retired := frames.foldl (fun l f => if l.contains f then l else f :: l) x.retired })).raiseDev
    (pMem stack) 5

/-- A lane repair swaps the spare in before it retrains (R252, R276). -/
def State.itemSwap (s : State) (stack : Nat) : MaintItem → State
  | .laneRepair c l => s.swapLane stack c l
  | .hardRepair _ _ => s | .softRepair _ _ => s | .retrain _ => s | .rewrite _ _ => s | .patrol _ _ => s

/-- What an item leaves by how it ended (R252, R253, R276, R279). -/
def State.itemEnds (s : State) (stack : Nat) (i : MaintItem) : MaintOutcome → State
  | .done => s.itemDone stack i
  | .noSpareRow frames => s.retireFrames stack frames
  | .trainingFailed lane => (s.itemSwap stack i).trainFails stack (MaintItem.channel i) lane

/-- A maintenance item ends (R276, R279, R253); the blocks that it read are decoded (R261); the next one that fits the window starts. -/
def execMaintItemEnd (stack : Fin 8) (item : MaintItem) (ended : MaintEnd) (s : State) :
    Host.Outcome State Fault Refusal :=
  let k := stack.val
  let len := 1000 * s.windowUs s.tik.tick
  .next (if !s.windowOpen then s
  else match (s.mbd k).running.find? (fun r => r.2 == item) with
    | some r =>
      let s1 := ended.errors.foldl (fun t e => (t.meetError e.1.val e.2).1) (s.updMbd k (fun y => { y with running := y.running.erase r }))
      (s1.itemEnds k item ended.outcome).updMbd k (fun y => y.fill r.1 len 8)
    | none => s)

/-- 10 s after a channel's last retraining (R277). -/
def execRoutineRetrainDue (stack : Fin 8) (channel : Fin 32) (s : State) : Host.Outcome State Fault Refusal :=
  .next (s.updMbd stack.val (fun x => x.enqueue (.retrain channel.val)))

/-- Retraining is 60 s overdue, or patrol an hour behind (R277). -/
def execMaintStarved (stack : Fin 8) (s : State) : Host.Outcome State Fault Refusal :=
  .next (s.raiseDev (pMem stack.val) 6)

/-! ## Emergency retraining (R278) -/

/-- The item that an emergency becomes inside a window, or after the channel's first emergency of the tick. -/
def retrainItem (c : RetrainCause) (channel : Nat) : MaintItem :=
  match c with
  | .eyeMargin => .retrain channel
  | .laneBits lane => .laneRepair channel lane

/-- A channel retrains outside a window: a stall of at most 2 µs that every domain bears (R278, R313); `stallNs` is what lies beyond a refresh pause. -/
def execEmergencyRetrain (stack : Fin 8) (channel : Fin 32) (emergency : Emergency) (stallNs : Nat) (inWindow : Bool) (s : State) :
    Host.Outcome State Fault Refusal :=
  let k := stack.val
  .next (if inWindow || (s.mbd k).retrained.contains channel.val then
    s.updMbd k (fun x => x.enqueue (retrainItem emergency.cause channel.val))
  else
    let ns := min stallNs 2000
    let s1 := match emergency.cause with
      | .eyeMargin => s
      | .laneBits lane => s.swapLane k channel.val lane
    let s1 := match emergency.failedLane with
      | none => s1
      | some lane => s1.trainFails k channel.val lane
    let s2 := (s1.updMbd k (fun x => { x with retrained := numAdd x.retrained channel.val })).bump dev (pMem k) 2 ns
    (if ns = 0 then s2 else s2.deviceStall 1 ns).raiseDev (pMem k) 2)

/-! ## Refresh pauses (R272, R273) -/

/-- Mode from the next pause on after a reading: longer when T_hot is above the limit of the mode in force, never shorter (R273). -/
def hotMode (tHot mode : Nat) : Nat :=
  if 95 < tHot then 2 else if 85 < tHot then max mode 1 else mode

/-- The refresh engine after a reading: the mode rises once in a tick at most (R273, R351; log 151). -/
def MemGlobal.takeHot (m : MemGlobal) (tHot : Nat) : MemGlobal :=
  let mode := if m.risen then m.refMode else hotMode tHot m.refMode
  { m with tHot := tHot, refMode := mode, risen := m.risen || mode != m.refMode }

/-- A refresh pause: its length beyond the plan is stretch, and every stack reads its temperature (R272, R273). `temps` are the hottest core dies of stacks 0 to 7. -/
def execRefreshPause (nowNs : Nat) (temps : List Nat) (s0 : State) : Host.Outcome State Fault Refusal :=
  let s := s0.atTime nowNs
  let extra := pauseNs s.memg.refMode - pauseNs s.memg.tickMode
  let s1 := if !s.tik.ticking ∨ extra = 0 then s
    else ((s.deviceStall 2 extra).bump dev (pMem 0) 3 extra).raiseDev (pMem 0) 1
  let s2 := (temps.take 8).zipIdx.foldl (fun t p => t.updMbd p.2 (fun x => { x with tempC := min 255 p.1 })) s1
  let hot := ((List.range 8).map (fun k => (s2.mbd k).tempC)).foldl max 0
  .next ((s2.updMemg (fun m => m.takeHot hot)).updPwr (fun p =>
    { p with tickTHot := max p.tickTHot hot }))

end Sys2Proof.Machine
end

