-- ==== Sys2Proof/Machine/Boot.lean ====
section
/-! DEFINITION. Power, resets and bring-up, the endpoint link, and the management endpoint (R302, R334, R349, R403, R430 to R438, R449, R468, R483, R497 to R499, R503 to R508, R513, R517). -/

namespace Sys2Proof.Machine

/-! ## Reset (R434, R441, R449, R468, R503, R517) -/

/-- Codes of R513 for the cause of a reset. -/
def causeTherm : Nat := 1
def causeSupply : Nat := 2
def causeWatchdog : Nat := 3
def causeHost : Nat := 5
def causePowerOn : Nat := 6

/-- The life-cycle state that waited for this reset takes effect; the UDS is drawn on the way out of BLANK and overwritten at RETIRED (R434). -/
def Fuses.reset (f : Fuses) : Fuses :=
  { f with life := f.pending,
           udsPresent := if f.pending = .retired then false else f.udsPresent || (f.life == .blank && f.pending != .blank) }

/-- What a device reset keeps: fuses and non-volatile storage, the pins and the converter die's record, TMODE_NEXT and BIFUR_NEXT, and on a PF FLR the endpoint link. All else is at its reset value (R254, R306, R434, R435, R468, R513, R517). -/
def State.resetDevice (s : State) (cause : Nat) (keepLink : Bool) : State :=
  { pending := s.pending,
    boot := { vInMv := s.boot.vInMv, perstN := s.boot.perstN, pwrGood := s.boot.pwrGood, thermTrip := s.boot.thermTrip,
              spiResetN := s.boot.spiResetN, nvPerstN := s.boot.nvPerstN, baudSel := s.boot.baudSel, i3cAsel := s.boot.i3cAsel,
              phase := .inReset, resetCause := cause, causeKept := true, challenge := s.boot.challenge + 1 },
    fuses := s.fuses.reset,
    pci := if keepLink then { speed := s.pci.speed, width := s.pci.width, dlUp := s.pci.dlUp, trainedOnce := s.pci.trainedOnce } else {},
    memg := { tmode := s.memg.tmodeNext, tmodeNext := s.memg.tmodeNext },
    nvm := { bifur := s.nvm.bifurNext, bifurNext := s.nvm.bifurNext },
    lks := { draws := s.lks.draws, nonces := s.lks.nonces },
    freeFrames := if s.memg.tmodeNext then tFrame0 else frameCount,
    freeCtr := s.freeCtr, out := s.out }

/-- The outputs that a low PERST_N holds low (R495, R497, R499). -/
def State.pinsLow (s : State) : State :=
  ((s.updBoot (fun b => { b with spiResetN := false, nvPerstN := false })).emit (.pin 2 false)).emit (.pin 3 false)

/-- NV_REFCLK0 is driven while the device has power, NV_REFCLK1 only when BIFUR is 1 (R306, R493). -/
def State.refClocks (s : State) (on : Bool) : State := (s.emit (.pin 4 on)).emit (.pin 5 (on && s.nvm.bifur))

/-- Bring-up starts at p+0: the ROM, the SRAM wipe and channel training run, and SPI_RESET_N rises (R449, R499, R506). -/
def State.startBringUp (s : State) : State :=
  let s1 := (s.updBoot (fun b => { b with phase := .bringUp, spiResetN := true })).updFul (fun f =>
    { f with full := true, wipeStartNs := s.tik.timeNs })
  (if s.boot.spiResetN then s1 else s1.emit (.pin 2 true)).refClocks true

/-- A reset without PERST_N: NV_PERST falls until the root port trains again, and bring-up runs at once (R497, R517). -/
def State.restart (s : State) (cause : Nat) (keepLink : Bool) : State :=
  ((s.resetDevice cause keepLink).updBoot (fun b => { b with nvPerstN := false })).emit (.pin 3 false) |>.startBringUp

/-- The device works: it is neither off, nor held in reset, nor tripped. -/
def State.awake (s : State) : Bool := s.boot.phase == .bringUp || s.boot.phase == .running || s.boot.phase == .romOnly

/-! ## Supply and pins (R334, R336, R349, R497, R498, R503 to R505) -/

/-- V_IN rises past 58 V: the rails come up and PWR_GOOD is released (R503); a PERST_N that rose before is taken now (R504). -/
def execPowerApply (mV : Nat) (s : State) : Host.Outcome State Fault Refusal :=
  .next (if decide (58000 < mV) && decide (mV ≤ 84000) && (s.boot.phase == .off || (s.boot.phase == .inReset && !s.boot.pwrGood)) then
    let s1 := (s.updBoot (fun b => { b with vInMv := mV, phase := .inReset, pwrGood := true })).emit (.pin 0 true)
    if s.boot.perstN then s1.startBringUp else s1
  else s)

/-- PERST_N rises: the straps are sampled and bring-up starts, once PWR_GOOD has been released (R497, R504, R506). -/
def execPerstRise (baudSel i3cAsel : Fin 4) (s : State) : Host.Outcome State Fault Refusal :=
  .next (if s.boot.perstN then s
  else
    let s1 := s.updBoot (fun b => { b with perstN := true, baudSel := baudSel.val, i3cAsel := i3cAsel.val })
    if s.boot.phase = .inReset ∧ s.boot.pwrGood then s1.startBringUp else s1)

/-- PERST_N falls, or the PF has its Function Level Reset: a device reset (R497, R505, R517). -/
def execPerstFall (cause : ResetCause) (s : State) : Host.Outcome State Fault Refusal :=
  .next (match cause with
    | .perst =>
      if !s.boot.perstN then s
      else if s.awake then
        ((s.resetDevice causeHost false).updBoot (fun b => { b with perstN := false })).pinsLow
      else (s.updBoot (fun b => { b with perstN := false }))
    | .pfFlr => if s.boot.phase = .running ∨ s.boot.phase = .romOnly then s.restart causeHost true else s)

/-- PWR_GOOD is pulled low while PERST_N is high: as if PERST_N had fallen; the device waits for PWR_GOOD and a new rising edge (R504). -/
def execPwrGoodLoss (s : State) : Host.Outcome State Fault Refusal :=
  .next (if s.boot.pwrGood ∧ s.boot.perstN ∧ s.boot.phase ≠ .tripped then
    (((s.resetDevice causeHost false).updBoot (fun b => { b with perstN := false, pwrGood := false })).pinsLow).emit (.pin 0 false)
  else s)

/-- Locksmith has not served its watchdog for 100 ms (R430). -/
def execWatchdog (s : State) : Host.Outcome State Fault Refusal :=
  .next (if s.awake then s.restart causeWatchdog false else s)

/-- T_j reaches 115 °C: nothing runs, THERM_TRIP_N is held low, and one PLDM event goes out (R349, R498, R513). -/
def execThermTrip (s : State) : Host.Outcome State Fault Refusal :=
  .next (if s.boot.phase = .off ∨ s.boot.phase = .tripped then s
  else
    let s1 := (s.resetDevice causeTherm false).updBoot (fun b =>
      { b with phase := .tripped, thermTrip := true, tripSent := true, causeKept := false })
    ((s1.pinsLow).emit (.pin 1 false)).emit (.pldm 0x0001 0))

/-- V_IN leaves 56 to 84 V: the converter stops and the device is off; the cause is on record while V_IN stays above 40 V (R334, R336, R498, R513). -/
def execSupplyOut (mV : Nat) (below40V : Bool) (s : State) : Host.Outcome State Fault Refusal :=
  .next (if (decide (mV < 56000) || decide (84000 < mV)) && s.boot.phase != .off then
    let keep := !below40V && !s.boot.thermTrip
    let s1 := (s.resetDevice (if keep then causeSupply else causePowerOn) false).updBoot (fun b =>
      { b with phase := .off, vInMv := mV, pwrGood := false, thermTrip := false, causeKept := keep })
    let s2 := (s1.updMemg (fun m => { m with tmode := false, tmodeNext := false }))
    let s3 : State := { s2 with nvm := {}, freeFrames := frameCount }
    (((s3.pinsLow).refClocks false).emit (.pin 0 false)).emit (.pin 1 true)
  else if below40V && s.boot.phase == .off then
    s.updBoot (fun b => { b with vInMv := mV, causeKept := false, resetCause := causePowerOn })
  else s)

/-! ## Bring-up (R432, R437, R438, R449, R506, R507) -/

/-- MBD channel training ends and the frame wipe starts; with a failed channel there is no stacked memory (R506, R507). -/
def execMbdTrainingDone (failedStacks : List (Fin 8 × Fin 32)) (s : State) : Host.Outcome State Fault Refusal :=
  .next (if s.boot.phase == .bringUp && !s.boot.mbdTrained then
    let ks := (failedStacks.map (fun p => p.1.val)).foldl numAdd []
    let s1 := s.updBoot (fun b => { b with mbdTrained := true, failedStacks := ks })
    if ks.isEmpty then s1
    else ks.foldl (fun t k => t.channelFails k) { s1 with freeFrames := 0 }
  else s)

/-- The checks of R432 on an image slot. -/
def State.imageOk (s : State) (magic : W32) (format keyIndex svn bodyLen : Nat) (digestMatches rsaOk slhOk : Bool) : Bool :=
  magic == 0x4657344B && format == 1 && decide (keyIndex < 4) && !s.fuses.revoked.getLsbD keyIndex &&
    decide (s.fuses.minSvn ≤ svn) && decide (bodyLen ≤ 33537536) && digestMatches && rsaOk && slhOk

/-- The ROM has tried an image slot: slot 0 first, then slot 1 (R432); a RETIRED unit loads no firmware (R436). -/
def execImageVerifyDone (slot : Fin 2) (magic : W32) (format keyIndex svn bodyLen : Nat) (digestMatches rsaOk slhOk : Bool)
    (digest : List Byte) (s : State) : Host.Outcome State Fault Refusal :=
  let ok := s.imageOk magic format keyIndex svn bodyLen digestMatches rsaOk slhOk
  let verdict : SlotVerdict := if ok then .accepted else .refused
  let due := if slot.val = 0 then s.boot.slot0 == .untried else s.boot.slot0 == .refused && s.boot.slot1 == .untried
  .next (if s.boot.phase == .bringUp && s.fuses.life != .retired && due then
    s.updBoot (fun b =>
      let b1 := if slot.val = 0 then { b with slot0 := verdict } else { b with slot1 := verdict }
      if ok then { b1 with fwSvn := svn, fwDigest := digest, bootSecondary := slot.val == 1 }
      else { b1 with bootFailed := slot.val == 1 })
  else s)

/-- Fuller's wipe of the whole device ends (R449, R461, R507). -/
def execDeviceWipeEnd (withheldFrames : List Nat) (sramFailUnits : List Nat) (nowNs : Nat) (s0 : State) :
    Host.Outcome State Fault Refusal :=
  .next (if s0.boot.phase == .bringUp && s0.boot.mbdTrained && !s0.boot.wiped then
    let s := s0.atTime nowNs
    let s1 := ((s.updBoot (fun b => { b with wiped := true })).updFul (fun f =>
      { f with full := false, lastNs := nowNs - f.wipeStartNs })).withholdFrames withheldFrames sramFailUnits
    { s1 with freeFrames := s1.freeFrames - withheldFrames.length }
  else s0)

/-- What names the Alias pairs of a firmware measurement in a life-cycle state (R437). -/
def State.measurement (s : State) : List Byte := s.boot.fwDigest ++ leBytes 4 s.boot.fwSvn ++ leBytes 1 s.fuses.life.code

/-- Verification and wipe have ended: CDI_1 is derived, key pairs of a first boot are made, firmware is released, and the root port starts training (R302, R437, R438, R506). -/
def execFirmwareRelease (s : State) : Host.Outcome State Fault Refusal :=
  .next (if s.boot.phase == .bringUp && s.boot.wiped && !s.boot.fwReleased && (s.boot.slot0 == .accepted || s.boot.slot1 == .accepted) then
    let m := s.measurement
    let s1 := (s.updBoot (fun b => { b with fwReleased := true, nvPerstN := true })).updFuses (fun f =>
      if f.udsPresent then
        { f with aliasFor := if f.aliasFor.contains m then f.aliasFor else f.aliasFor ++ [m],
                 deviceIdFor := if f.deviceIdFor.contains f.life then f.deviceIdFor else f.deviceIdFor ++ [f.life] }
      else f)
    s1.emit (.pin 3 true)
  else s)

/-- The last row of R506: the PF answers; with both slots refused it presents the LKS page alone (R432, R507, R513). -/
def execPfReady (nowNs : Nat) (s0 : State) : Host.Outcome State Fault Refusal :=
  .next (if s0.boot.phase != .bringUp then s0
  else
    let s := (s0.atTime nowNs).emit (.pldm s0.boot.resetCause 0)
    if s.boot.fwReleased then
      let s1 := s.updBoot (fun b => { b with phase := .running, causeKept := true })
      let s2 := if s.boot.bootSecondary then s1.raiseDev pLks 4 else s1
      if s.nvm.link0.1 = 0 ∨ (s.nvm.bifur ∧ s.nvm.link1.1 = 0) then s2.raiseDev pNvm 0 else s2
    else if s.boot.bootFailed then (s.updBoot (fun b => { b with phase := .romOnly, causeKept := true })).emit (.pldm 0x0004 0)
    else s0)

/-! ## The endpoint (R403, R482, R483) -/

/-- The endpoint link changes state (R482, R483): each fall into training after the first counts in LINK_RETRAINS. -/
def execPcieLinkChange (speed width : Nat) (dlUp : Bool) (s : State) : Host.Outcome State Fault Refusal :=
  .next (if s.awake && s.fuses.life != .retired then
    let again := !dlUp && s.pci.trainedOnce
    let s1 := s.updPci (fun p =>
      { p with speed := speed % 16, width := width % 32, dlUp := dlUp, trainedOnce := p.trainedOnce || dlUp })
    (if again then s1.bump dev pPci 4 1 else s1).raiseDev pPci 0
  else s)

/-- D0 and D3hot of the PF (R403). -/
def execPfPowerStateChange (d3hot : Bool) (s : State) : Host.Outcome State Fault Refusal :=
  .next (if s.boot.phase = .running ∨ s.boot.phase = .romOnly then s.updPci (fun p => { p with d3hot := d3hot }) else s)

/-! ## The management endpoint (R432, R497, R513) -/

/-- A PLDM firmware update message writes an image slot of the SPI NOR (R431, R432, R497). -/
def execPldmFirmwareUpdate (slot : Fin 2) (offset : Nat) (bytes : List Byte) (s : State) : Host.Outcome State Fault Refusal :=
  .next (if s.awake && decide (offset + bytes.length ≤ 0x2000000) then
    s.updFuses (fun f => { f with spi := memPut f.spi (0x2000000 * slot.val + offset) bytes })
  else s)

/-- Codes of the events that are set in the PF's device view (R466, R513). -/
def State.eventCodes (s : State) : List Nat :=
  (List.range 128).flatMap (fun p => match blockOf p with
    | none => []
    | some b => ((List.range 32).filter (fun i => (s.view 64 p).event.getLsbD i)).map (fun i => 256 * (b + 1) + i))

/-- A PLDM request for monitoring (R497, R513): the cause of the last reset, T_j and T_hot, input power, or the events set; the codes of the replies are the model's own (log 76). -/
def execPldmRequest (query : PldmQuery) (s : State) : Host.Outcome State Fault Refusal :=
  .next (if s.awake then
    (match query with
     | .resetCause => s.emit (.pldm 0x10000 s.boot.resetCause)
     | .temperatures => s.emit (.pldm 0x10001 (256 * s.memg.tHot + s.pwr.tjMax))
     | .inputPower => s.emit (.pldm 0x10002 s.pwr.pInW)
     | .eventLog => s.eventCodes.foldl (fun t c => t.emit (.pldm 0x10003 c)) s)
  else s)

/-- SETDASA for this device's static address 0x30 + ASEL, or ENTDAA while it has no dynamic address (R497). -/
def execI3cDynamicAddressAssign (how : I3cAssign) (s : State) : Host.Outcome State Fault Refusal :=
  .next (if s.awake then
    (match how with
     | .setdasa st dy =>
       if st = 0x30 + s.boot.i3cAsel then (s.updBoot (fun b => { b with i3cDynamic := some dy })).emit (.i3cAck dy) else s
     | .entdaa dy =>
       if s.boot.i3cDynamic.isNone then (s.updBoot (fun b => { b with i3cDynamic := some dy })).emit (.i3cAck dy) else s)
  else s)

end Sys2Proof.Machine
end

