-- ==== Sys2Proof/Machine/Fabric.lean ====
section
/-! DEFINITION. Fabric transactions and the collective engine: what a device answers to remote accesses, what its own COLLECTIVE slabs send and receive, and Carter's traffic with peers (R233, R234, R265 to R267, R375 to R388, R402). -/

namespace Sys2Proof.Machine

/-! ## The adder (R159, R265, R266) -/

/-- BF16 value of a 16-bit code. -/
def bfNum (code : Nat) : Num := decodeFloat 8 7 true code

/-- The sum of a stored element and a source value, in a stored type: FP32, BF16. -/
def addStored (stype : Nat) (old : Nat) (x : Num) : Nat :=
  if stype = 0 then roundIeee 8 23 ((decodeFloat 8 23 true old).add x) else roundIeee 8 7 ((bfNum old).add x)

/-- The sum of two integer elements of a stored type. -/
def addInt (stype old x : Nat) : Nat := (old + x) % (if stype = 2 then 2 ^ 32 else 2 ^ 64)

/-- Elements of one source slot (R379): values for the floating types; an MXFP8 block is expanded to FP32 (R159). -/
def raddValues (sfmt : Nat) (slot : List Byte) : List Num :=
  if sfmt = 1 then (List.range 16).map (fun i => decodeFloat 8 23 true (ofLe ((slot.drop (4 * i)).take 4)))
  else if sfmt = 2 ∨ sfmt = 3 then (List.range 32).map (fun i => elemNum sfmt (ofLe ((slot.drop (2 * i)).take 2)))
  else
    (blockNums sfmt (slot.take 32) (slot.getD 32 0) none 32).1.map (fun v => f32 (toF32 v))

/-- Storage bytes that one source slot covers (R379). -/
def slotStore (stype sfmt : Nat) : Nat :=
  if stype = 0 then (if sfmt = 1 then 64 else 128) else if stype = 1 ∧ sfmt = 1 then 32 else 64

/-- The mask bit of stored element e (R265): masks in order, 16 bits each. -/
def maskBit (masks : List W16) (e : Nat) : Bool := (masks.getD (e / 16) 0).getLsbD (e % 16)

/-- Whether stored element e, counted from ADDR, is selected (R265). -/
def selected (stype : Nat) (masks : List W16) (e : Nat) : Bool :=
  if stype = 3 then maskBit masks (16 * (e / 8) + e % 8) else maskBit masks e

/-- The stored bytes after a reduce-add (R265 to R267). -/
def raddBytes (stype sfmt : Nat) (masks : List W16) (slots : List (List Byte)) (old : List Byte) : List Byte :=
  let size := dtypeBytes stype
  let n := old.length / size
  let cell (e : Nat) : Nat := ofLe ((old.drop (size * e)).take size)
  if stype ≤ 1 then
    let src := slots.flatMap (raddValues sfmt)
    (List.range n).flatMap (fun e => leBytes size (match src[e]? with
      | some x => if selected stype masks e then addStored stype (cell e) x else cell e
      | none => cell e))
  else
    let src := slots.flatten
    (List.range n).flatMap (fun e =>
      leBytes size (if selected stype masks e then addInt stype (cell e) (ofLe ((src.drop (size * e)).take size)) else cell e))

/-- Atomic operations (R382). -/
def atomicOp (aop old operand compare : Nat) : Nat :=
  match aop with
  | 0 => (old + operand) % 2 ^ 64
  | 1 => old &&& operand
  | 2 => old ||| operand
  | 3 => old ^^^ operand
  | 4 => max old operand
  | 5 => min old operand
  | 6 => operand
  | _ => if old = compare then operand else old

/-! ## Serving remote accesses (R376, R380) -/

/-- The domain that holds a partition tag (R375, R376). -/
def State.tagHolder (s : State) (tag : Nat) : Option Nat :=
  if tag = 0xFFFF then none else (s.doms.find? (fun p => p.2.col.ptag == tag && s.live p.1)).map Prod.fst

/-- A refused access: counted and raised in the domain that its tag names, or in domain 0 (R402; log 67). -/
def State.rejectRemote (s : State) (tag : Nat) : State :=
  let d := (s.tagHolder tag).getD 0
  (s.bump d pCol 4 1).raiseDom pCol 1 d

/-- Whether every page of a span is STACKED (R380). -/
def State.resident (s : State) (d a n : Nat) : Bool :=
  n == 0 || (List.range' (a / pageBytes) ((a + n - 1) / pageBytes + 1 - a / pageBytes)).all (fun p =>
    (s.pageEntry d p).state == .stacked)

/-- A span meets a page that is mapped from domain 0 (R293). -/
def State.sharedSpan (s : State) (d a n : Nat) : Bool :=
  n != 0 && (List.range' (a / pageBytes) ((a + n - 1) / pageBytes + 1 - a / pageBytes)).any (fun p =>
    ((s.dom d).entry p).shared.isSome)

/-- The status of a remote access to [addr, addr + n) of a domain, by the checks of R380. -/
def State.remoteStatus (s : State) (tag addr n : Nat) (write typesOk opOk : Bool) (align : Nat) : Nat :=
  match s.tagHolder tag with
  | none => 1
  | some d =>
    let c := (s.dom d).col
    if (if write then !c.wrEn else !c.rdEn) then 2
    else if !opOk then 8
    else if !typesOk || addr % align != 0 || !s.inRange d addr n || (write && s.sharedSpan d addr n) then 3
    else if !s.resident d addr n then 4
    else 0

/-- The answer to a request: back to its source, with a status (R377, R378). -/
def txnAnswer (t : Txn) (self status : Nat) (slots : List (List Byte)) : Txn :=
  { ptag := t.ptag, nblk := slots.length, dst := t.src, src := self, status := status, addr := t.addr, sfmt := 0, stype := 0,
    aop := 0, txid := t.txid, masks := [], slots := slots }

/-- A remote read (R376, R378, R380). -/
def State.serveRead (s : State) (t : Txn) (errors : List ReadError) : State × Txn :=
  let n := 64 * t.nblk
  let st := s.remoteStatus t.ptag.toNat t.addr n false true true 64
  match s.tagHolder t.ptag.toNat, st with
  | some d, 0 =>
    let (s1, sram) := s.meetErrors d errors
    let (bs, bad) := s1.rdMem d t.addr n
    if bad || sram then (s1.rejectRemote t.ptag.toNat, txnAnswer t s.fab.self 5 [])
    else (s1.bump d pCol 1 n, txnAnswer t s.fab.self 0 ((List.range t.nblk).map (fun i => (bs.drop (64 * i)).take 64)))
  | _, _ => (s.rejectRemote t.ptag.toNat, txnAnswer t s.fab.self st [])

/-- A remote write of full blocks (R262, R376, R378, R380). -/
def State.serveWrite (s : State) (t : Txn) (errors : List ReadError) : State × Txn :=
  let n := 64 * t.nblk
  let st := s.remoteStatus t.ptag.toNat t.addr n true true true 64
  match s.tagHolder t.ptag.toNat, st with
  | some d, 0 =>
    let s1 := (s.meetErrors d errors).1
    (((s1.wrMem d t.addr ((t.slots.flatten).take n)).bump d pCol 2 n), txnAnswer t s.fab.self 0 [])
  | _, _ => (s.rejectRemote t.ptag.toNat, txnAnswer t s.fab.self st [])

/-- ADD_BLOCKS of the stacks whose blocks a reduce-add or an atomic has rewritten (R285). -/
def State.countAdds (s : State) (d a n : Nat) : State :=
  (List.range' (a / 64) ((a + n + 63) / 64 - a / 64)).foldl (fun t b =>
    let h := t.home d (64 * b)
    t.bump dev (pMem (blockPlace t.memg.tmode (t.frameOf h.1 (h.2 / pageBytes)) (h.2 % pageBytes)).stack) 6 1) s

/-- A reduce-add (R262, R265 to R267, R376, R379, R380). -/
def State.serveRadd (s : State) (t : Txn) (errors : List ReadError) : State × Txn :=
  let n := roundUp (t.nblk * slotStore t.stype t.sfmt) 64
  let opOk := 2 ≤ t.stype || fmtDefined t.sfmt
  let st := s.remoteStatus t.ptag.toNat t.addr n true (raddFormats t.stype t.sfmt) opOk 64
  match s.tagHolder t.ptag.toNat, st with
  | some d, 0 =>
    let (s1, sram) := s.meetErrors d errors
    let (old, bad) := s1.rdMem d t.addr n
    if bad || sram then (s1.rejectRemote t.ptag.toNat, txnAnswer t s.fab.self 5 [])
    else
      ((((s1.wrMem d t.addr (raddBytes t.stype t.sfmt t.masks t.slots old)).countAdds d t.addr n).bump d pCol 2 (64 * t.nblk)),
        txnAnswer t s.fab.self 0 [])
  | _, _ => (s.rejectRemote t.ptag.toNat, txnAnswer t s.fab.self st [])

/-- An atomic on an aligned 8-byte word (R262, R267, R382). -/
def State.serveAtom (s : State) (t : Txn) (errors : List ReadError) : State × Txn :=
  let st := s.remoteStatus t.ptag.toNat t.addr 8 true true (t.aop ≤ 7) 8
  match s.tagHolder t.ptag.toNat, st with
  | some d, 0 =>
    let (s1, sram) := s.meetErrors d errors
    let (old, bad) := s1.rdMem d t.addr 8
    if bad || sram then (s1.rejectRemote t.ptag.toNat, txnAnswer t s.fab.self 5 [])
    else
      let slot := t.slots.headD []
      let new := atomicOp t.aop (ofLe old) (ofLe (slot.take 8)) (ofLe ((slot.drop 8).take 8))
      ((((s1.wrMem d t.addr (leBytes 8 new)).countAdds d t.addr 8).bump d pCol 2 64), txnAnswer t s.fab.self 0 [old ++ List.replicate 56 0])
  | _, _ => (s.rejectRemote t.ptag.toNat, txnAnswer t s.fab.self st [])

/-! ## Stripes for peers (R233) -/

/-- What a STRIPE_REQ names (log 68): the stripe in ADDR, SHARD_INDEX in masks 0 and 1, GEN and MODEL_ID in masks 2 to 5. -/
def txnStripe (t : Txn) : Nat × Nat × Nat × Nat :=
  let m (i : Nat) : Nat := (t.masks.getD i 0).toNat
  (t.addr / 65536, m 0 + 65536 * m 1, m 2 + 65536 * m 3, m 4 + 65536 * m 5)

/-- The answers to a STRIPE_REQ: the stripe in order, three pieces a flit, or NOT_HELD with the state of the copy in ADDR [1:0] (R233, R378). -/
def State.serveStripe (s : State) (t : Txn) (errors : List ReadError) : State × List Txn :=
  let self := s.fab.self
  let (q, shard, gen, model) := txnStripe t
  let refuse (u : State) (code : Nat) : State × List Txn :=
    (u.rejectRemote t.ptag.toNat, [{ txnAnswer t self 7 [] with addr := code }])
  if t.ptag.toNat ≠ (s.dom 0).col.ptag ∨ t.ptag = 0xFFFF then
    (s.rejectRemote t.ptag.toNat, [txnAnswer t self 1 []])
  else
    let held (c : CopySlot) : Bool :=
      c.state != .empty && c.state != .retiring && c.gen == gen && c.modelId == model && c.shardIndex == shard
    match [0, 1].find? (fun k => held (s.copy k)) with
    | none => refuse s 0
    | some k =>
      let s1 := (s.meetErrors 0 errors).1
      let c := s1.copy k
      let code := if c.state = .building then 1 else 2
      let x := c.stripe q
      if !x.servable || x.state != .resident || x.staged || poisonHit c.poison 64 (65536 * q) 65536 then refuse s1 code
      else
        let bs := memGet c.image (65536 * q) 65536
        (s1.bump 0 pCol 1 65536, (List.range 342).map (fun i =>
          let part := (bs.drop (192 * i)).take 192
          { txnAnswer t self 0 ((List.range (part.length / 64)).map (fun j => (part.drop (64 * j)).take 64)) with
              addr := 65536 * q + 192 * i }))

/-! ## Answers to the device's own requests (R388) -/

/-- The operation of a domain with a COLL_ID. -/
def Dom.collOp (x : Dom) (id : W32) : Option CollOp := x.col.ops.find? (fun o => o.id == id)

/-- Changes an operation. -/
def State.updOp (s : State) (d : Nat) (id : W32) (f : CollOp → CollOp) : State :=
  s.updDom d (fun x => x.updCol (fun c => { c with ops := c.ops.map (fun o => if o.id = id then f o else o) }))

/-- An operation fails: its slab completes with a status (R388). -/
def State.opFails (s : State) (d : Nat) (o : CollOp) (st : Status) : State :=
  (s.updOp d o.id (fun y => { y with failed := true })).updSlab d o.order (fun b => { b with status := b.status.worse st })

/-- The first failing status of a domain is recorded (R388, R401). -/
def ColDom.record (c : ColDom) (status device : Nat) : ColDom :=
  if c.errValid then c else { c with errStatus := status, errDevice := device, errValid := true }

/-- RD_RESP, WR_ACK, RADD_ACK or ATOM_RESP: matched by TXID to the operation that waits for it (R377, R388). -/
def State.takeAnswer (s : State) (t : Txn) : State :=
  match s.tagHolder t.ptag.toNat with
  | none => s
  | some d =>
    match (s.dom d).col.ops.find? (fun o => o.waiting.any (fun w => w.1 == t.txid)) with
    | none => s
    | some o =>
      let at_ := ((o.waiting.find? (fun w => w.1 == t.txid)).map Prod.snd).getD 0
      let left := o.waiting.filter (fun w => w.1 != t.txid)
      let o1 := { o with waiting := left, finished := left.isEmpty,
                         buffer := if t.status = 0 ∧ !t.slots.isEmpty then memPut o.buffer at_ (t.slots.flatten) else o.buffer }
      let s1 := (s.updOp d o.id (fun _ => o1)).bump d pCol 2 (64 * t.slots.length)
      if t.status = 0 then s1
      else (s1.opFails d o1 .fabricError).updDom d (fun x => x.updCol (fun c => c.record t.status t.src))

/-- The copy and stripe that a TXID of Carter's names (log 69). -/
def stripeOfTxid (x : W32) : Nat × Nat := (x.toNat / 2 ^ 31, x.toNat % 2 ^ 31)

/-- A stripe that Carter is fetching or refetching. -/
def State.wanted (s : State) (k q : Nat) : Bool :=
  s.fetching k q || s.servedBad k q

/-- A tree parent whose copy has failed: the stripes still lacking come from the other sources (R234), and are LOST where there is none (R228). -/
def State.parentGone (s : State) (k : Nat) : State :=
  let s1 := s.updCopy k (fun c =>
    { c with parentFailed := true, stripeMap := c.stripeMap.map (fun p => (p.1, { p.2 with source := 0, pieces := [], asked := false })) })
  if (s1.copy k).sources.isEmpty then
    ((List.range (s1.copy k).stripes).filter (fun q => s1.wanted k q)).foldl (fun t q => t.stripeLost k q) s1
  else s1

/-- A stripe that a source delivers, in a fetch or in the refetch of a BAD one (R224, R242). -/
def State.stripeIn (s : State) (k q : Nat) (src : StripeSource) (bytes : List Byte) : State :=
  if s.servedBad k q then s.refetched k q src bytes else s.stripeArrives k q src bytes

/-- Pieces of a stripe, or NOT_HELD, from the peer being asked (R233, R234, R378): a parent that is BUILDING is asked again in the next tick, and a stripe that a READY or ACTIVE parent lacks is LOST, since no other source may be asked (R234, R244; log 145). -/
def State.takeStripe (s : State) (t : Txn) : State :=
  let (k, q) := stripeOfTxid t.txid
  let c := s.copy k
  let x := c.stripe q
  if !s.wanted k q || c.sources[x.source]? != some (.peer, t.src) then s
  else if t.status = 0 then
    let got := x.pieces ++ t.slots.flatten
    let s1 := (s.updCopy k (fun y => y.putStripe q { y.stripe q with pieces := got })).bump 0 pCol 2 (64 * t.slots.length)
    if got.length < 65536 then s1 else s1.stripeIn k q .peer (got.take 65536)
  else if c.underParent then
    if t.status = 7 ∧ t.addr % 4 = 0 then s.parentGone k
    else if t.status = 7 ∧ t.addr % 4 = 2 then s.stripeLost k q
    else s.updCopy k (fun y => y.putStripe q { y.stripe q with pieces := [], asked := false })
  else s.sourceFails k q

/-! ## Sending (R375, R377, R378) -/

/-- VC of an operation (R378). -/
def vcOf (top : Nat) : Nat := if top = 9 then 2 else if top = 2 ∨ top = 4 ∨ top = 6 ∨ top = 8 ∨ top = 0xB then 1 else 0

/-- An answer reaches its issuer on this device. -/
def State.answered (s : State) (top : Nat) (t : Txn) : State := if top = 0xB then s.takeStripe t else s.takeAnswer t

/-- Sends an answer: through the fabric, or to this device's own issuer; one that is dropped is lost (R374). -/
def State.sendAnswer (s : State) (top : Nat) (t : Txn) : State :=
  if t.dst = s.fab.self then s.answered top t
  else (s.forward 0 1 t.ptag.toNat false (txnPayload t top none)).getD s

/-- What a request does at its destination, with its answers (R378). -/
def State.serve (s : State) (top : Nat) (t : Txn) (errors : List ReadError) : State × List Txn :=
  match top with
  | 1 => let r := s.serveRead t errors; (r.1, [r.2])
  | 3 => let r := s.serveWrite t errors; (r.1, [r.2])
  | 5 => let r := s.serveRadd t errors; (r.1, [r.2])
  | 7 => let r := s.serveAtom t errors; (r.1, [r.2])
  | 0xA => s.serveStripe t errors
  | _ => (s.rejectRemote t.ptag.toNat, [])

/-- A request at its destination: served and answered. -/
def State.serveAndAnswer (s : State) (top : Nat) (t : Txn) (errors : List ReadError) : State :=
  let r := s.serve top t errors
  r.2.foldl (fun u a => u.sendAnswer (top + 1) a) r.1

/-- Sends a request of this device; where it is dropped it is answered UNREACHABLE (R374, R380). -/
def State.sendRequest (s : State) (top : Nat) (t : Txn) : State :=
  if t.dst = s.fab.self then s.serveAndAnswer top t []
  else match s.forward 0 0 t.ptag.toNat false (txnPayload t top none) with
    | some s1 => s1
    | none => s.answered (top + 1) (txnAnswer t s.fab.self 6 [])

/-- A DATA flit that this device cannot pass on: a request is answered UNREACHABLE (R374). -/
def State.unreachable (s : State) (vc : Nat) (top : Nat) (t : Txn) : State :=
  if vc = 0 then s.sendAnswer (top + 1) (txnAnswer t s.fab.self 6 []) else s

/-! ## The rings (R385, R386) -/

/-- Position of this device on a ring. -/
def CollBody.pos (b : CollBody) (ring : Nat) : Nat := if ring = 0 then b.rank else b.nDev - 1 - b.rank

/-- Offset and bytes of chunk c of a ring in the working vector; all of it for BROADCAST. -/
def CollBody.chunk (b : CollBody) (sub ring c : Nat) : Nat × Nat :=
  let size := dtypeBytes b.dtype
  if sub = 3 then (0, if ring = 0 then b.bytes else 0)
  else
    let e := b.ringElems ring
    let base := if ring = 0 then 0 else b.ringElems 0
    let lo := c * e / b.nDev
    (size * (base + lo), size * ((c + 1) * e / b.nDev - lo))

/-- In a step of a ring: the chunk sent, the chunk received, and whether what is received is added. -/
def CollBody.stepOf (b : CollBody) (sub ring step : Nat) : Option Nat × Option Nat × Bool :=
  let n := b.nDev
  let q := b.pos ring
  if sub = 3 then
    let dist := (b.rank + n - b.root) % n
    (if dist = step ∧ ring = 0 then some 0 else none, if dist = step + 1 ∧ ring = 0 then some 0 else none, false)
  else
    let scatter := sub = 1 ∨ (sub = 0 ∧ step < n - 1)
    if scatter then (some ((q + 2 * n - 1 - step) % n), some ((q + 2 * n - 2 - step) % n), true)
    else
      let k := if sub = 0 then step - (n - 1) else step
      (some ((q + n - k) % n), some ((q + 2 * n - 1 - k) % n), false)

/-- The sum of two vectors of a DTYPE (R386, R266). -/
def addVectors (dtype : Nat) (a b : List Byte) : List Byte :=
  let size := dtypeBytes dtype
  (List.range (a.length / size)).flatMap (fun i =>
    let x := ofLe ((a.drop (size * i)).take size)
    let y := ofLe ((b.drop (size * i)).take size)
    leBytes size (match dtype with
      | 0 => addStored 0 x (decodeFloat 8 23 true y)
      | 1 => addStored 1 x (bfNum y)
      | t => addInt t x y))

/-- Sends the chunk of a step to the next device of a ring, three slots a flit. -/
def State.sendChunk (s : State) (d sub : Nat) (b : CollBody) (o : CollOp) (ring step : Nat) : State :=
  match (b.stepOf sub ring step).1 with
  | none => s
  | some c =>
    let (off, n) := b.chunk sub ring c
    let g := s.groupList b
    let l := if ring = 0 then g else g.reverse
    let bs := memGet o.buffer off n
    (List.range (ceilDiv n 192)).foldl (fun u i =>
      let part := (bs.drop (192 * i)).take 192
      let slots := (List.range (ceilDiv part.length 64)).map (fun j =>
        (((part.drop (64 * j)).take 64) ++ List.replicate 64 0).take 64)
      let t : Txn :=
        { ptag := BitVec.ofNat 16 (u.dom d).col.ptag, nblk := slots.length, dst := l.getD ((b.pos ring + 1) % b.nDev) 0,
          src := u.fab.self, status := 0, addr := 192 * i, sfmt := 0, stype := 0, aop := 0, txid := b.id, masks := [],
          slots := slots }
      ((u.forward 0 2 t.ptag.toNat false (txnPayload t 9 (some (fld step 0 16 + fld ring 16 1)))).getD u).bump d pCol 1
        (64 * slots.length)) s

/-- Current step and bytes received in it, on a ring. -/
def CollOp.at (o : CollOp) (ring : Nat) : Nat × Nat := if ring = 0 then (o.step0, o.got0) else (o.step1, o.got1)
def CollOp.putAt (o : CollOp) (ring step got : Nat) : CollOp :=
  if ring = 0 then { o with step0 := step, got0 := got } else { o with step1 := step, got1 := got }

/-- Whether data fits the chunk that the step of a ring receives (R388). -/
def CollBody.fits (b : CollBody) (sub ring step addr slots : Nat) : Bool :=
  match (b.stepOf sub ring step).2.1 with
  | none => false
  | some c =>
    let n := (b.chunk sub ring c).2
    decide (step < b.steps sub) && decide (addr < n) && decide (addr + 64 * slots ≤ roundUp n 64) && addr % 64 == 0

/-- Takes data of the current step into the working vector (R386). -/
def CollOp.take (o : CollOp) (sub : Nat) (b : CollBody) (ring : Nat) (t : Txn) : CollOp :=
  let (step, got) := o.at ring
  match b.stepOf sub ring step with
  | (_, some c, add) =>
    let (off, n) := b.chunk sub ring c
    let bs := (t.slots.flatten).take (n - t.addr)
    let a := off + t.addr
    let new := if add then addVectors b.dtype bs (memGet o.buffer a bs.length) else bs
    { o with buffer := memPut o.buffer a new }.putAt ring step (got + bs.length)
  | _ => o

/-- Runs a ring on as far as what has arrived allows: early data of the current step is taken, a step that is complete or receives nothing ends, and the next one sends (R386, R388). -/
def State.ringRuns (s : State) (d sub : Nat) (b : CollBody) (ring : Nat) : Nat → State
  | 0 => s
  | f + 1 =>
    match (s.dom d).collOp b.id with
    | none => s
    | some o =>
      let (step, got) := o.at ring
      if b.steps sub ≤ step ∨ o.failed then s
      else
        let due := match (b.stepOf sub ring step).2.1 with | some c => (b.chunk sub ring c).2 | none => 0
        if got = due then
          let s1 := s.updOp d b.id (fun y => y.putAt ring (step + 1) 0)
          let s2 := if step + 1 < b.steps sub then s1.sendChunk d sub b o ring (step + 1) else s1
          State.ringRuns s2 d sub b ring f
        else
          match (s.dom d).col.early.find? (fun e => e.txn.txid == b.id && e.step == step && e.ring == (ring == 1)) with
          | none => s
          | some e =>
            let s1 := s.updDom d (fun x => x.updCol (fun c => { c with early := c.early.erase e }))
            let s2 := if e.origin = 0 then s1 else s1.oweCredit (e.origin - 1) (65536 * 2 + e.txn.ptag.toNat)
            let s3 := s2.bump d pCol 2 (64 * e.txn.slots.length)
            if b.fits sub ring step e.txn.addr e.txn.slots.length then
              State.ringRuns (s3.updOp d b.id (fun y => y.take sub b ring e.txn)) d sub b ring f
            else s3.opFails d o .fabricError

/-- Both rings run on; an operation whose rings have ended is finished. -/
def State.ringsRun (s : State) (d sub : Nat) (b : CollBody) : State :=
  let fuel := (s.dom d).col.early.length + 2 * b.steps sub + 2
  let s1 := (s.ringRuns d sub b 0 fuel).ringRuns d sub b 1 fuel
  match (s1.dom d).collOp b.id with
  | none => s1
  | some o =>
    if b.steps sub ≤ o.step0 ∧ b.steps sub ≤ o.step1 ∧ !o.failed then s1.updOp d b.id (fun y => { y with finished := true }) else s1

/-! ## Starting an operation (R384, R386, R388) -/

/-- A transaction of a COLLECTIVE slab to PEER. -/
def State.peerTxn (s : State) (d : Nat) (b : CollBody) (addr : Nat) (slots : List (List Byte)) (nblk : Nat) : Txn :=
  { ptag := BitVec.ofNat 16 (s.dom d).col.ptag, nblk := nblk, dst := b.group % 2 ^ 15, src := s.fab.self, status := 0, addr := addr,
    sfmt := if b.dtype ≤ 1 then b.sfmt else 0, stype := b.dtype, aop := b.aop, txid := (s.dom d).col.nextTxid,
    masks := List.replicate 6 0xFFFF, slots := slots }

/-- Sends one transaction of an operation and waits for its answer. -/
def State.issue (s : State) (d : Nat) (b : CollBody) (top addr nblk : Nat) (slots : List (List Byte)) (localAt : Nat) : State :=
  let t := s.peerTxn d b addr slots nblk
  let s1 := (s.updOp d b.id (fun o => { o with waiting := o.waiting ++ [(t.txid, localAt)] })).updDom d (fun x =>
    x.updCol (fun c => { c with nextTxid := c.nextTxid + 1 }))
  (s1.sendRequest top t).bump d pCol 1 (64 * slots.length)

/-- Source slots of a PUT or RADD, in order; an MXFP8 slot takes its scale byte from SCALE_BASE (R379, R384). -/
def sourceSlots (sub : Nat) (b : CollBody) (data scales : List Byte) : List (List Byte) :=
  let w := if sub = 6 then slotBytes b.dtype b.sfmt else 64
  (List.range (b.bytes / w)).map (fun i =>
    let part := (data.drop (w * i)).take w
    if w = 32 then part ++ scales.getD i 0 :: List.replicate 31 0 else part)

/-- The transactions of PUT, GET, RADD and ATOMIC (R378, R379, R384). -/
def State.issueAll (s : State) (d sub : Nat) (b : CollBody) (data scales : List Byte) : State :=
  if sub = 7 then s.issue d b 7 b.dst 1 [data.take 16 ++ List.replicate 48 0] 0
  else if sub = 5 then
    (List.range (ceilDiv b.bytes 192)).foldl (fun u i =>
      u.issue d b 1 (b.src + 192 * i) (min 3 (b.bytes / 64 - 3 * i)) [] (192 * i)) s
  else
    let slots := sourceSlots sub b data scales
    let store := if sub = 6 then slotStore b.dtype b.sfmt else 64
    let per := if store = 32 then 2 else 3
    (List.range (ceilDiv slots.length per)).foldl (fun u i =>
      let part := (slots.drop (per * i)).take per
      u.issue d b (if sub = 6 then 5 else 3) (b.dst + store * per * i) part.length part 0) s

/-- A COLLECTIVE starts on the engine; poison in its own source withholds it: the state, and the status where it does not run (R384, R386, R261). -/
def State.startColl (s : State) (d order : Nat) (ws : List W64) : State × Status :=
  let h := hdrOf ws
  let b := collBody ws
  let rd (space a n : Nat) : List Byte × Bool := if space = 0 then s.rdMem d a n else s.rdCommons a n
  let (data, bad) := if h.sub = 5 then ([], false) else rd b.srcSpace b.src (if h.sub = 7 then 24 else b.bytes)
  let (scales, bad1) := if h.sub = 6 ∧ slotBytes b.dtype b.sfmt = 32 then rd b.srcSpace b.scale (b.bytes / 32) else ([], false)
  let badG := h.sub ≤ 3 && poisonHit s.commonsPoison 8 b.group (4 * b.nDev)
  if bad || bad1 || badG then (s, .dataPoison)
  else
    let o : CollOp := { id := b.id, order := order, buffer := if h.sub ≤ 3 then memPut [] 0 data else [] }
    let s1 := s.updDom d (fun x => x.updCol (fun c => { c with ops := c.ops ++ [o] }))
    if 4 ≤ h.sub then (s1.issueAll d h.sub b data scales, .done)
    else
      let s2 := if b.steps h.sub = 0 then s1 else (s1.sendChunk d h.sub b o 0 0).sendChunk d h.sub b o 1 0
      (s2.ringsRun d h.sub b, .done)

/-! ## COLL_DATA (R386, R388) -/

/-- The COLLECTIVE slab of a domain with a COLL_ID that has not ended. -/
def Dom.collSlab (x : Dom) (id : W32) : Option Slab :=
  x.slabs.find? (fun b => b.state != .ended && (hdrOf b.words).kind == 6 && (hdrOf b.words).sub ≤ 3 && (collBody b.words).id == id)

/-- Chunk data arrives: taken, kept until its slab starts or its step comes, or refused; true where it is kept and holds its credit (R380, R388). -/
def State.collArrive (s : State) (origin : Nat) (t : Txn) (step : Nat) (ring : Bool) : State × Bool :=
  match s.tagHolder t.ptag.toNat with
  | none => (s.rejectRemote t.ptag.toNat, false)
  | some d =>
    match (s.dom d).collSlab t.txid with
    | none => (s.rejectRemote t.ptag.toNat, false)
    | some sl =>
      let keep := s.updDom d (fun x => x.updCol (fun c => { c with early := c.early ++ [⟨t, step, ring, origin⟩] }))
      match (s.dom d).collOp t.txid with
      | none => (keep, true)
      | some o =>
        let b := collBody sl.words
        let sub := (hdrOf sl.words).sub
        let r := bit01 ring
        let cur := (o.at r).1
        if o.failed then (s, false)
        else if step < cur ∨ !b.fits sub r step t.addr t.slots.length then (s.opFails d o .fabricError, false)
        else if cur < step then (keep, true)
        else
          (((s.bump d pCol 2 (64 * t.slots.length)).updOp d b.id (fun y => y.take sub b r t)).ringsRun d sub b, false)

/-! ## The end of an operation (R384, R388, R402) -/

/-- Bytes that a failed operation leaves: undefined (R388; log 6). -/
def State.freeBytes (s : State) (d space a n : Nat) : State :=
  let (i, s1) := s.takeFree
  let bs := (List.range n).map (Config.freeByte i)
  if space = 0 then s1.wrMem d a bs else s1.wrCommons a bs

/-- The results of a finished operation (R384, R386). -/
def State.collResults (s : State) (d sub : Nat) (b : CollBody) (o : CollOp) : State :=
  let put (u : State) (space a : Nat) (bs : List Byte) : State := if space = 0 then u.wrMem d a bs else u.wrCommons a bs
  match sub with
  | 1 => [0, 1].foldl (fun u r =>
      let (off, n) := b.chunk 1 r (b.pos r)
      put u b.dstSpace (b.dst + off) (memGet o.buffer off n)) s
  | 4 => s
  | 6 => s
  | 5 => put s b.dstSpace b.dst (memGet o.buffer 0 b.bytes)
  | 7 => put s b.srcSpace (b.src + 16) (memGet o.buffer 0 8)
  | _ => put s b.dstSpace b.dst (memGet o.buffer 0 b.bytes)

/-- Bytes that a failed operation leaves undefined. -/
def State.collFailed (s : State) (d sub : Nat) (b : CollBody) : State :=
  match sub with
  | 4 => s
  | 6 => s
  | 7 => s.freeBytes d b.srcSpace (b.src + 16) 8
  | _ => s.freeBytes d b.dstSpace b.dst b.bytes

/-- A COLLECTIVE ends: its results are written, or withheld; early data that nothing takes gives its credits back (R388, R402). -/
def State.endColl (s : State) (d : Nat) (ws : List W64) : State :=
  let sub := (hdrOf ws).sub
  let b := collBody ws
  match (s.dom d).collOp b.id with
  | none => s
  | some o =>
    let s1 := if o.failed then s.collFailed d sub b else (s.collResults d sub b o).bump d pCol 0 1
    let gone := (s1.dom d).col.early.filter (fun e => e.txn.txid == b.id)
    let s2 := s1.updDom d (fun x => x.updCol (fun c =>
      { c with ops := c.ops.filter (fun y => y.id != b.id), early := c.early.filter (fun e => e.txn.txid != b.id) }))
    gone.foldl (fun u e => if e.origin = 0 then u else u.oweCredit (e.origin - 1) (65536 * 2 + e.txn.ptag.toNat)) s2

/-! ## Carter asks (R233, R404) -/

/-- The read of a stripe from the flash tier (R233, R306). -/
def State.readStripe (s : State) (k q : Nat) : State := ((s.emit (.baseRead k q)).bump dev pNvm 0 1).bump dev pNvm 2 65536

/-- Asks the current source of a stripe; with no source left the stripe is LOST (R233, R244). -/
def State.askStripe (s0 : State) (k q : Nat) : State :=
  let c := s0.copy k
  let s := s0.updCopy k (fun y => y.putStripe q { y.stripe q with asked := true })
  match c.sources[(c.stripe q).source]? with
  | none => s0.stripeLost k q
  | some (.peer, a) =>
    let m (x i : Nat) : W16 := BitVec.ofNat 16 (x >>> (16 * i))
    let t : Txn :=
      { ptag := BitVec.ofNat 16 (s.dom 0).col.ptag, nblk := 0, dst := a % 2 ^ 15, src := s.fab.self, status := 0, addr := 65536 * q,
        sfmt := 0, stype := 0, aop := 0, txid := w32 (2 ^ 31 * k + q),
        masks := [m c.shardIndex 0, m c.shardIndex 1, m c.gen 0, m c.gen 1, m c.modelId 0, m c.modelId 1], slots := [] }
    (s.updCopy k (fun y => y.putStripe q { y.stripe q with pieces := [] })).sendRequest 0xA t
  | some (.flash, _) => s.readStripe k q
  | some (.host, _) => s.emit (.hostRead (s.bas.hostBase + w64 (c.hostOff + 65536 * q)))

/-! ## The commands -/

def execRdReq (t : Txn) (errors : List ReadError) (s : State) : Host.Outcome State Fault Refusal :=
  .next (s.serveAndAnswer 1 t errors)

def execRdResp (t : Txn) (s : State) : Host.Outcome State Fault Refusal := .next (s.takeAnswer t)

def execWr (t : Txn) (errors : List ReadError) (s : State) : Host.Outcome State Fault Refusal :=
  .next (s.serveAndAnswer 3 t errors)

def execWrAck (t : Txn) (s : State) : Host.Outcome State Fault Refusal := .next (s.takeAnswer t)

def execRadd (t : Txn) (errors : List ReadError) (s : State) : Host.Outcome State Fault Refusal :=
  .next (s.serveAndAnswer 5 t errors)

def execRaddAck (t : Txn) (s : State) : Host.Outcome State Fault Refusal := .next (s.takeAnswer t)

def execAtom (t : Txn) (errors : List ReadError) (s : State) : Host.Outcome State Fault Refusal :=
  .next (s.serveAndAnswer 7 t errors)

def execAtomResp (t : Txn) (s : State) : Host.Outcome State Fault Refusal := .next (s.takeAnswer t)

def execCollData (t : Txn) (step : Nat) (ring : Bool) (s : State) : Host.Outcome State Fault Refusal :=
  .next (s.collArrive 0 t step ring).1

def execStripeReq (t : Txn) (errors : List ReadError) (s : State) : Host.Outcome State Fault Refusal :=
  .next (s.serveAndAnswer 0xA t errors)

/-- A collective that has waited more than TICKS of COL_TIMEOUT ticks beyond its planned end: PEER_LOST (R388, R401, R402). -/
def execColTimeout (d : Fin 64) (collId : W32) (s : State) : Host.Outcome State Fault Refusal :=
  .next (match (s.dom d.val).collOp collId with
    | none => s
    | some o =>
      if o.sinceTick ≠ 0 ∧ !o.finished ∧ !o.failed ∧ o.sinceTick + (s.dom d.val).col.timeout < s.tik.tick + 1 then
        (s.opFails d.val o .peerLost).raiseDom pCol 0 d.val
      else s)

end Sys2Proof.Machine
end

