-- ==== Sys2Proof/Machine/Tree.lean ====
section
/-! DEFINITION. Fabric ports and the tick tree: training, keying, flits received, the election of the tick master, tick symbols and done tokens (R309 to R315, R360 to R368, R390 to R398, R494, R508, R509). -/

namespace Sys2Proof.Machine

/-! ## The order of masters (R311) -/

/-- Offer a comes before offer b: the higher PRIO, then the lower address. -/
def betterOffer (a b : Nat × Nat) : Bool := decide (b.1 < a.1) || (a.1 == b.1 && decide (a.2 < b.2))

/-- The best of PRIO and address; PRIO 0 never becomes master. -/
def bestOffer (l : List (Nat × Nat)) : Option (Nat × Nat) :=
  (l.filter (fun o => o.1 != 0)).foldl (fun m o => match m with
    | none => some o
    | some b => if betterOffer o b then some o else m) none

/-- Offers heard, and the device's own. -/
def State.allOffers (s : State) : List (Nat × Nat) := (s.tik.prio, s.fab.self) :: s.tik.offers.filter (fun o => o.2 != s.fab.self)

/-- PRIO of a device, as its offer gave it. -/
def State.prioOf (s : State) (device : Nat) : Option Nat := (s.allOffers.find? (fun o => o.2 == device)).map Prod.fst

/-- Master a beats master b, as far as their offers are known (R311, R509; log 70). -/
def State.beats (s : State) (a b : Nat) : Bool :=
  match s.prioOf a, s.prioOf b with
  | some p, some q => betterOffer (p, a) (q, b)
  | _, _ => false

/-! ## The tree (R390) -/

/-- Ports to the devices whose parent this device is: the lowest UP port of each direction whose neighbour's next hop to the master leads here (R390; log 71). -/
def State.childPorts (s : State) : List Nat :=
  match s.tik.master with
  | none => []
  | some m =>
    (List.range 8).filterMap (fun dir =>
      let n := neighbour s.fab.self dir
      if n = m ∨ n = s.fab.self then none
      else match nextDir n m false with
        | some back => if neighbour n back = s.fab.self ∧ back / 2 = dir / 2 ∧ back ≠ dir then (s.upPorts dir).head? else none
        | none => none)

/-- Sends a TICK flit to every child (R391). -/
def State.sendTick (s : State) (sym : TickSymbol) : State :=
  s.childPorts.foldl (fun t p => (t.controlFlit p 2).emit (.tick p sym)) s

/-- The tick symbol of a master: the values in force in its tick, and the new values of an accepted change with the tick from which they apply (R311, R391). -/
def State.symbolFor (s : State) (tick latchNs stretchNs : Nat) : TickSymbol :=
  let t := s.tik.applied tick
  let (n, len, se, g, c) := t.next.getD (0, t.len, t.settleUs, t.gdUs, t.cutUs)
  { tick := w64 tick, latchNs := latchNs, stretchNs := stretchNs, master := s.fab.self, len := t.len, settleUs := t.settleUs,
    gdUs := t.gdUs, cutUs := t.cutUs, newLen := len, newSettleUs := se, newGdUs := g, newCutUs := c, newFromTick := w64 n, accPs := 0 }

/-! ## Stretch of the system (R315) -/

/-- The cause with the largest share: code and ns. -/
def largestCause (l : List (Nat × Nat)) : Nat × Nat := l.foldl (fun m c => if m.2 < c.2 then c else m) (0, 0)

/-- System stretch of a tick: the part that this device's token caused is under its causes, the rest under REMOTE_STRETCH (R315, R331). -/
def State.systemStretch (s : State) (ns code : Nat) : State :=
  let own := (s.tik.stallBy.map Prod.snd).sum
  let rest := ns - own
  let s1 := (s.bump dev pTik 1 ns).updTik (fun t =>
    { t with stretched := ns != 0,
             lastCause := if ns = 0 then t.lastCause else (largestCause ((code, rest) :: t.stallBy)).1 })
  if ns = 0 then s1
  else (if rest = 0 then s1 else s1.addStretch dev code rest).raiseDev pTik 1

/-! ## Done tokens (R392) -/

/-- The token of this device: its stamp, its device-scope stretch and the largest cause. -/
def State.ownToken (s : State) (stampNs : Nat) : DoneToken :=
  { tick := w64 s.tik.tick, stampNs := stampNs, stretchNs := (s.tik.stallBy.map Prod.snd).sum,
    cause := (largestCause s.tik.stallBy).1, device := s.fab.self }

/-- Own token and those of the whole subtree have arrived. -/
def State.tokensReady (s : State) : Bool :=
  s.tik.doneSent.isSome && s.childPorts.all (fun p => s.tik.doneGot.any (fun g => g.1 == p))

/-- The token with the latest STAMP. -/
def State.latestToken (s : State) : DoneToken :=
  (s.tik.doneGot.map Prod.snd).foldl (fun m t => if m.stampNs < t.stampNs then t else m) (s.ownToken (s.tik.doneSent.getD 0))

/-- Forwards the latest token of the subtree to the parent, once all have arrived (R392). -/
def State.forwardToken (s : State) : State :=
  if s.tokensReady && !s.tik.isMaster then
    (s.controlFlit s.fab.parentPort 3).emit (.done s.fab.parentPort s.latestToken)
  else s

/-- The device issues its done token (R307, R392). -/
def State.sendDone (s : State) (nowNs : Nat) : State :=
  if s.tik.doneSent.isSome then s else (s.updTik (fun t => { t with doneSent := some nowNs })).forwardToken

/-- Once no stripe of a served copy is BAD, the stretch of the refetch is counted and the device issues its done token (R242, R307). -/
def State.refetchEnds (s : State) : State :=
  if s.badStripes.isEmpty && s.tik.settled && s.tik.doneSent.isNone then
    (s.deviceStall 3 (s.tik.timeNs - s.bas.refetchFrom)).sendDone (max s.tik.timeNs s.bas.refetchFrom)
  else s

/-- After a source has failed the next one is asked at once, and a stripe that the tick waits for is asked again (R233, R242). -/
def State.askNext (s before : State) (k q : Nat) : State :=
  let x := (s.copy k).stripe q
  let s1 :=
    if !x.asked && (decide (((before.copy k).stripe q).source < x.source) || (s.tik.settled && s.servedBad k q)) then
      s.askStripe k q
    else s
  if before.badStripes.isEmpty then s1 else s1.refetchEnds

/-- A done token of a child arrives (R392). -/
def execDoneTokenReceive (port : Fin 18) (token : DoneToken) (nowNs : Nat) (s0 : State) : Host.Outcome State Fault Refusal :=
  let s := s0.atTime nowNs
  .next (if s0.tik.ticking && token.tick.toNat == s.tik.tick && s.childPorts.contains port.val &&
      !s.tik.doneGot.any (fun g => g.1 == port.val) then
    (s.updTik (fun t => { t with doneGot := t.doneGot ++ [(port.val, token)] })).forwardToken
  else s0)

/-! ## The start of the next tick on the master (R315) -/

/-- The master has every token: it computes the start of the next tick and sends the tick symbol. The previous stretch is the device-scope stretch that the latest token reports (log 82). -/
def execTickStart (nowNs : Nat) (s0 : State) : Host.Outcome State Fault Refusal :=
  let s := s0.atTime nowNs
  let nominal := s.tik.latchNs + s.tik.tickNs
  let last := s.latestToken
  let start := max (nominal + last.stretchNs) (last.stampNs + 1000 * s.tik.gdUs)
  .next (if s0.tik.ticking && s.tik.isMaster && s.tik.settled && s.tik.nextLatch.isNone && s.tokensReady then
    let s1 := (s.updTik (fun t => { t with nextLatch := some start })).systemStretch (start - nominal) 5
    s1.sendTick (s1.symbolFor (s.tik.tick + 1) start (start - nominal))
  else s0)

/-! ## Masters (R311, R312, R509) -/

/-- The device takes a master: it takes its place in the tree; a change of master raises TICK_MASTER_CHANGE (R312, R390). -/
def State.takeMaster (s : State) (m : Nat) : State :=
  let old := s.tik.master
  let s1 := (s.updTik (fun t => { t with master := some m, isMaster := m == s.fab.self })).chooseParent
  if old.isSome && old != some m then s1.raiseDev pTik 2 else s1

/-- f+60 ms: the best offer heard becomes master where no tick symbol has come; the master latches tick 0 at once (R509). -/
def execMasterElection (nowNs : Nat) (s0 : State) : Host.Outcome State Fault Refusal :=
  let s := s0.atTime nowNs
  .next (if s0.fab.trainStart.isSome && !s0.tik.ticking && s0.tik.master.isNone then
    match bestOffer s.allOffers with
    | none => s
    | some o =>
      let s1 := s.takeMaster o.2
      if o.2 = s.fab.self then
        let s2 := s1.updTik (fun t => { t with nextLatch := some nowNs, tick := 0 })
        s2.sendTick (s2.symbolFor 0 nowNs 0)
      else s1
  else s0)

/-- No tick symbol by 2 T_tick after the nominal latch: the next device in the order of R311 takes over (R312). -/
def execTickMasterTimeout (nowNs : Nat) (s0 : State) : Host.Outcome State Fault Refusal :=
  let s := s0.atTime nowNs
  let nominal := s.tik.latchNs + s.tik.tickNs
  .next (match s0.tik.master with
    | none => s0
    | some m =>
      if s0.tik.ticking && !s0.tik.isMaster && s0.tik.nextLatch.isNone && decide (nominal + 2 * s.tik.tickNs ≤ nowNs) then
        let s1 := s.updTik (fun t => { t with offers := t.offers.filter (fun o => o.2 != m) })
        match bestOffer s1.allOffers with
        | none => (s1.updTik (fun t => { t with master := none, dropped := true })).raiseDev pTik 2
        | some o =>
          let s2 := (s1.takeMaster o.2).updTik (fun t => { t with dropped := o.2 != s.fab.self })
          if o.2 = s.fab.self then
            let s3 := (s2.updTik (fun t => { t with nextLatch := some nowNs })).systemStretch (nowNs - nominal) 6
            s3.sendTick (s3.symbolFor (s.tik.tick + 1) nowNs (nowNs - nominal))
          else s2
      else s0)

/-- The edges of TICK_REF_IN stop on a master that reads them (R494). -/
def execTickRefLoss (s : State) : Host.Outcome State Fault Refusal :=
  .next (if s.tik.isMaster && s.tik.refExt && !s.tik.refLost then
    (s.updTik (fun t => { t with refLost := true })).raiseDev (pFab 0) 5
  else s)

/-- The values that a tick symbol carries (R311, R391): an announced change follows one that applies at the symbol's own tick. -/
def TikState.takeSymbol (t : TikState) (sym : TickSymbol) (joins : Bool) : TikState :=
  let new := some (sym.newFromTick.toNat, sym.newLen, sym.newSettleUs, sym.newGdUs, sym.newCutUs)
  let due := match t.next with
    | some (n, _) => !joins && decide (n ≤ sym.tick.toNat)
    | none => false
  let t1 := if sym.tick.toNat < sym.newFromTick.toNat then
      (if due then { t with later := new } else { t with next := new, later := none })
    else if joins then { t with next := none, later := none } else t
  let t2 := if joins then
      { t1 with len := sym.len, settleUs := sym.settleUs, gdUs := sym.gdUs, cutUs := sym.cutUs,
                tick := if t.ticking then sym.tick.toNat - 1 else sym.tick.toNat }
    else t1
  { t2 with nextLatch := some sym.latchNs, dropped := false }

/-- A TICK flit (R391, R394, R509): from this device's master, from one that beats it, or the first that a device hears. -/
def execTickSymbolReceive (port : Fin 18) (sym : TickSymbol) (nowNs : Nat) (s0 : State) : Host.Outcome State Fault Refusal :=
  let known := s0.tik.master
  let takes := s0.fab.trainStart.isSome && (s0.port port.val).state == .up && sym.master != s0.fab.self &&
    (known.isNone || known == some sym.master || !s0.tik.ticking || s0.beats sym.master (known.getD 0))
  .next (if takes then
    let s := if s0.tik.ticking then s0.atTime nowNs else s0.joinTime nowNs
    let changed := known != some sym.master || s.tik.dropped
    let s1 := if changed then s.takeMaster sym.master else s
    let late := nowNs - sym.latchNs
    let nominal := s.tik.latchNs + s.tik.tickNs
    let s2 := s1.updTik (fun t => TikState.takeSymbol { t with lateNs := late } sym (changed || !t.ticking))
    let s3 := if s0.tik.ticking then
        (if changed then s2.systemStretch (sym.latchNs - nominal) 6 else s2.systemStretch sym.stretchNs 5)
      else s2
    let s4 := if late = 0 then s3 else (s3.addStretch dev 6 late).raiseDev (pFab 0) 5
    s4.sendTick { sym with accPs := sym.accPs + (s.port port.val).delayPs }
  else s0)

/-! ## Training (R360 to R366, R508) -/

/-- Fabric training starts: the end of bring-up, and SELF_VALID set (R360, R508). -/
def execFabricTrainingStart (nowNs : Nat) (s0 : State) : Host.Outcome State Fault Refusal :=
  .next (if s0.boot.phase == .running && s0.fab.selfValid && s0.fab.trainStart.isNone then
    (s0.atTime nowNs).updFab (fun f => { f with trainStart := some nowNs })
  else s0)

/-- A peer's signal appears on a port that waits for one, within 10 s of f+0: its stages begin (R508). -/
def execSignalDetect (port : Fin 18) (nowNs : Nat) (s0 : State) : Host.Outcome State Fault Refusal :=
  let x := s0.port port.val
  .next (match s0.fab.trainStart with
    | none => s0
    | some f =>
      if x.state = .down ∧ x.enable ∧ !x.signal ∧ s0.fab.selfValid ∧ nowNs ≤ f + 10 ^ 10 then
        ((s0.atTime nowNs).updPort port.val (fun y => { y with signal := true, state := .training })).nameSelf port.val
      else s0)

/-- A port that misses its stage time is FAILED (R365). -/
def execPortStageTimeout (port : Fin 18) (s : State) : Host.Outcome State Fault Refusal :=
  .next (if (s.port port.val).state = .training ∨ (s.port port.val).state = .keying then s.portDown port.val .failed else s)

/-- Offers that go out on a port that has come UP: the device's own and those that it has heard (R509). -/
def State.offerOn (s : State) (p : Nat) : State :=
  s.allOffers.foldl (fun t o => (t.controlFlit p 4).emit (.ctrl p 1 (o.2 + 2 ^ 15 * o.1))) s

/-- Starts a key exchange; the device with the lower address sends its public keys (R397). -/
def State.startExchange (s : State) (p : Nat) (again : Bool) : State :=
  let x := s.port p
  if s.fab.self < x.peerDevice then
    let (i, s1) := s.takeDraw
    let (j, s2) := s1.takeDraw
    let msg := Config.publicKey i ++ Config.publicKey j
    let e : KeyExchange := { transcript := [msg], sent := true, kem := some i, ecdh := some j, rekey := again }
    ((s2.updPort p (fun y => { y with exchange := some e })).controlFlit p 4).emit (.keyExchange p 0 msg)
  else s.updPort p (fun y => { y with exchange := some { rekey := again } })

/-- A port's lanes have trained and its peer has named itself (R360, R362, R365, R366): `lanes` are the lanes that trained. -/
def execPortTrainingDone (port : Fin 18) (lanes : BitVec 8) (peerDevice peerPort : Nat) (delayPs eyeMv eyeLane : Nat) (s : State) :
    Host.Outcome State Fault Refusal :=
  let p := port.val
  let bad := ~~~lanes
  let low := bad.toNat % 16
  let high := bad.toNat / 16
  .next (if (s.port p).state ≠ .training ∨ !s.fab.selfValid then s
  else
    let s1 := s.updPort p (fun x =>
      { x with badLanes := bad, peerDevice := peerDevice, peerPort := peerPort, delayPs := delayPs, eyeMv := eyeMv,
               eyeLane := eyeLane, half := bad != 0, halfSel := low != 0, txSeq := 0, rxSeq := 0, replay := [], credits := [],
               waiting := [], retryCount := 0, creditsDue := s.firstCredits p, txCount := 0, rxCount := 0 })
    if low ≠ 0 ∧ high ≠ 0 then s1.updPort p (fun x => { x with state := .failed, half := false, halfSel := false })
    else if peerDevice ≠ neighbour s.fab.self (dirOf p) ∨ peerPort ≠ farPort p then
      (s1.updPort p (fun x => { x with state := .miswired, half := false, halfSel := false })).raiseDev (pFab p) 3
    else
      let s2 := if bad = 0 then s1 else s1.raiseDev (pFab p) 2
      if interRack p then (s2.updPort p (fun x => { x with state := .keying })).startExchange p false
      else (s2.portUp p).offerOn p)

/-- A PRIO offer: recorded and flooded on over the other UP ports (R509). -/
def execPrioOffer (port : Fin 18) (device prio : Nat) (s : State) : Host.Outcome State Fault Refusal :=
  .next (if s.fab.trainStart.isSome && (s.port port.val).state == .up && device != s.fab.self &&
      !s.tik.offers.contains (prio, device) then
    let s1 := s.updTik (fun t => { t with offers := t.offers.filter (fun o => o.2 != device) ++ [(prio, device)] })
    let out := ((s.fab.ports.map Prod.fst).filter (fun p => p != port.val && (s.port p).state == .up))
    out.foldl (fun t p => (t.controlFlit p 4).emit (.ctrl p 1 (device % 2 ^ 15 + 2 ^ 15 * prio))) s1
  else s)

/-- The one-way delay of a link is measured again (R365, R393). -/
def execOneWayDelayMeasurement (port : Fin 18) (delayPs : Nat) (s : State) : Host.Outcome State Fault Refusal :=
  .next (if (s.port port.val).state = .up ∨ (s.port port.val).state = .keying then
    s.updPort port.val (fun x => { x with delayPs := delayPs % 2 ^ 24 }) else s)

/-- A lane fails in service: the port goes DOWN and retrains, while SELF_VALID is set (R360, R366). -/
def execLaneFail (port : Fin 18) (lane : Fin 8) (s : State) : Host.Outcome State Fault Refusal :=
  .next (if (s.port port.val).state = .up ∨ (s.port port.val).state = .keying then
    let s1 := (s.portDown port.val (if s.fab.selfValid then .training else .down)).updPort port.val (fun x =>
      { x with badLanes := x.badLanes ||| BitVec.ofNat 8 (2 ^ lane.val) })
    if s.fab.selfValid then s1.nameSelf port.val else s1
  else s)

/-! ## The key exchange (R397, R398) -/

/-- The derived keys of an exchange, from its transcript (R397). -/
def KeyExchange.derive (x : KeyExchange) (salt secret : List Byte) : KeyExchange :=
  { x with secret := secret,
           keys := hkdf384 secret (if salt.isEmpty then List.replicate 48 0 else salt) (sha384 x.transcript.flatten) 88 }

/-- The transcript of a port is known: a rekey is signed at once, a first exchange by engine C (R397, R440). -/
def State.signTranscript (s : State) (p : Nat) : State :=
  match (s.port p).exchange with
  | none => s
  | some e =>
    if e.rekey then
      ((s.updPort p (fun x => { x with exchange := some { e with signed := true } })).controlFlit p 4).emit
        (.keyExchange p 2 (Config.signature 0 (sha384 e.transcript.flatten)))
    else s.updLks (fun l => { l with engineC := l.engineC ++ [p] })

/-- This direction takes the new keys (R398). -/
def PortStateRec.switchTx (x : PortStateRec) : PortStateRec :=
  if x.newKeys.isEmpty ∨ x.txNew then x
  else PortStateRec.settleKeys { x with txNew := true, keyId := !x.keyId, txCount := 0, rekeyStalled := false }

/-- The peer's direction takes the new keys (R398). -/
def PortStateRec.switchRx (x : PortStateRec) : PortStateRec :=
  if x.newKeys.isEmpty ∨ x.rxNew then x else PortStateRec.settleKeys { x with rxNew := true, rxCount := 0, rekeyStalled := false }

/-- The first flit with the new KEYID has come: both directions use the new keys (R398). -/
def State.keySwitch (s : State) (p : Nat) : State :=
  let x := s.port p
  if x.newKeys.isEmpty then s
  else
    let s1 := (s.updPort p (fun y => y.switchTx.switchRx)).updFab (fun f =>
      if x.rekeyStalled then { f with portChanged := true } else f)
    (if x.txNew then s1 else s1.bump dev (pFab p) 5 1).pump p

/-- Both sides have signed and verified: the first keys are in force and the port is UP; a rekey's initiator switches (R395, R397, R398). -/
def State.keysReady (s : State) (p : Nat) : State :=
  let x := s.port p
  match x.exchange with
  | none => s
  | some e =>
    if !e.signed || !e.peerVerified || e.keys.isEmpty then s
    else if e.rekey then
      let s1 := s.updPort p (fun y => { y with exchange := none, newKeys := e.keys, keySalt := e.secret })
      if s.fab.self < x.peerDevice then
        let s2 := (s1.updPort p PortStateRec.switchTx).updFab (fun f =>
          if x.rekeyStalled then { f with portChanged := true } else f)
        (s2.bump dev (pFab p) 5 1).pump p
      else s1
    else
      let s1 := s.updPort p (fun y =>
        { y with exchange := none, linkKeys := e.keys, keySalt := e.secret, secure := true, keyId := false, txCount := 0, rxCount := 0 })
      (s1.portUp p).offerOn p

/-- A message of a key exchange (R397). -/
def State.keyMessage (s : State) (p : Nat) : KeyMessage → State
  | .initiate ek pub =>
    let x := s.port p
    if x.peerDevice < s.fab.self ∧ (x.state = .keying ∨ x.state = .up) then
      let again := x.state == .up
      let (i, s1) := s.takeDraw
      let (j, s2) := s1.takeDraw
      let (ct, kem) := Config.encapsulate i ek
      let mine := ct ++ Config.publicKey j
      let e := KeyExchange.derive { transcript := [ek ++ pub, mine], sent := true, ecdh := some j, rekey := again } x.keySalt
        (kem ++ Config.ecdh j pub)
      (((s2.updPort p (fun y => { y with exchange := some e })).controlFlit p 4).emit (.keyExchange p 1 mine)).signTranscript p
    else s
  | .respond ct pub =>
    let x := s.port p
    match x.exchange with
    | some e =>
      (match e.kem, e.ecdh with
       | some i, some j =>
         if e.keys.isEmpty then
           let e1 := KeyExchange.derive { e with transcript := e.transcript ++ [ct ++ pub] } x.keySalt
             (Config.decapsulate i ct ++ Config.ecdh j pub)
           (s.updPort p (fun y => { y with exchange := some e1 })).signTranscript p
         else s
       | _, _ => s)
    | none => s
  | .signature slh valid =>
    match (s.port p).exchange with
    | some e =>
      if valid && (slh || e.rekey) && !e.keys.isEmpty then
        (s.updPort p (fun y => { y with exchange := some { e with peerVerified := true } })).keysReady p
      else s
    | none => s
  | .switched => s.keySwitch p

def execKeyExchangeMessage (port : Fin 18) (msg : KeyMessage) (s : State) : Host.Outcome State Fault Refusal :=
  .next (if interRack port.val then s.keyMessage port.val msg else s)

/-- A link starts a rekey (R398). -/
def execRekey (port : Fin 18) (s : State) : Host.Outcome State Fault Refusal :=
  let x := s.port port.val
  .next (if interRack port.val ∧ x.state = .up ∧ x.secure ∧ x.exchange.isNone ∧ x.newKeys.isEmpty then
    s.startExchange port.val true else s)

/-- A rekey has not switched in time: only IDLE flits go out, and routing counts the port as DOWN (R398, R400). -/
def execRekeyStall (port : Fin 18) (s : State) : Host.Outcome State Fault Refusal :=
  let x := s.port port.val
  .next (if x.state = .up ∧ x.secure ∧ !x.rekeyStalled ∧ ((x.exchange.map (fun e => e.rekey)).getD false ∨ !x.newKeys.isEmpty) then
    ((s.updPort port.val (fun y => { y with rekeyStalled := true })).updFab (fun f => { f with portChanged := true })).raiseDev
      (pFab port.val) 4
  else s)

/-- Engine C signs the transcripts of all ports that wait, in one signature of each kind over their hashes (R397, R440). -/
def State.signC (s : State) : State :=
  let ps := s.lks.engineC
  let hashes := ps.flatMap (fun p => match (s.port p).exchange with | some e => sha384 e.transcript.flatten | none => [])
  let sig := Config.signature 0 hashes ++ Config.signature 1 hashes
  ps.foldl (fun t p =>
    match (t.port p).exchange with
    | some e =>
      (((t.updPort p (fun x => { x with exchange := some { e with signed := true } })).controlFlit p 4).emit
        (.keyExchange p 3 sig)).keysReady p
    | none => t) (s.updLks (fun l => { l with engineC := [] }))

/-- A signing engine finishes (R440): 0 creation reports, 1 attestations, 2 fabric transcripts. -/
def execReportSigned (engine : Fin 3) (s : State) : Host.Outcome State Fault Refusal :=
  .next (if engine = 0 then s.signA else if engine = 1 then s.signB else s.signC)

/-! ## Flits received (R367 to R369, R396) -/

/-- Sends a retry request for the expected SEQ (R368). -/
def State.askRetry (s : State) (p : Nat) : State := (s.controlFlit p 4).emit (.ctrl p 0 (s.port p).rxSeq)

/-- ACK and credits that a flit brings (R367 to R369). -/
def PortStateRec.takeLink (x : PortStateRec) (ack link : Nat) : PortStateRec :=
  let seqs := x.replay.map Prod.fst
  let n := bitsOf link 18 8
  let k := bitsOf link 0 16 + 65536 * bitsOf link 16 2
  { x with retryCount := if seqs.contains ack then 0 else x.retryCount,
           replay := if seqs.contains ack then (x.replay.dropWhile (fun r => r.1 != ack)).drop 1 else x.replay,
           credits := if n = 0 then x.credits else mapSet x.credits k ((mapGet x.credits k).getD 0 + n) }

/-- A DATA flit of this device's own, or one to pass on (R372 to R378): true where its buffer is free again. -/
def State.takeData (s : State) (p hdr : Nat) (pl : List Byte) (errors : List ReadError) : State × Bool :=
  let tag := bitsOf hdr 6 16
  let vc := bitsOf hdr 3 2
  let (top, _, t, step, ring) := txnOf tag pl
  if t.dst = s.fab.self then
    if top = 9 then
      let r := s.collArrive (p + 1) t step ring
      (r.1, !r.2)
    else if vcOf top = 1 then
      let s1 := s.answered top t
      ((if top = 0xB then s1.askNext s (stripeOfTxid t.txid).1 (stripeOfTxid t.txid).2 else s1), true)
    else (s.serveAndAnswer top t errors, true)
  else match s.forward (p + 1) vc tag (bitOf hdr 5) pl with
    | some s1 => (s1, false)
    | none => (s.unreachable vc top t, true)

/-- A flit in order with its checks passed (R368). -/
def State.acceptFlit (s : State) (p hdr : Nat) (pl : List Byte) (errors : List ReadError) : State :=
  let s1 := (s.updPort p (fun x => { x with rxSeq := (x.rxSeq + 1) % 4096, rxCount := if x.secure then x.rxCount + 1 else x.rxCount })).bump
    dev (pFab p) 1 1
  if bitsOf hdr 0 3 = 1 then
    let (s2, free) := s1.takeData p hdr pl errors
    if free then s2.oweCredit p (65536 * bitsOf hdr 3 2 + bitsOf hdr 6 16) else s2
  else s1

/-- A flit arrives on a port (R364, R367, R368, R396): discarded when its codeword is uncorrectable, retried when CRC, tag or order fail, else accepted. -/
def State.flitIn (s : State) (p : Nat) (bytes : List Byte) (errors : List ReadError) : State :=
  let hdr := ofLe (bytes.take 8)
  let link := ofLe ((bytes.drop 248).take 4)
  let crc := ofLe ((bytes.drop 252).take 4)
  let idle := bitsOf hdr 0 3 = 0
  if crc ≠ crc32c (bytes.take 252) then s.askRetry p
  else if idle then (s.updPort p (fun y => y.takeLink (bitsOf hdr 34 12) link)).pump p
  else if bitsOf hdr 22 12 ≠ (s.port p).rxSeq then s.askRetry p
  else
    let switch := (s.port p).secure && bitOf hdr 46 != (s.port p).rxKeyId && !(s.port p).newKeys.isEmpty && !(s.port p).rxNew
    let y := if switch then (s.port p).switchRx else s.port p
    let (k, n0) := linkKey y.rxKeys (y.peerDevice < s.fab.self)
    let body := (bytes.drop 8).take 224
    let nonce := linkNonce n0 y.rxCount
    if y.secure ∧ (bytes.drop 232).take 16 ≠ gcmTag k nonce (linkAad hdr) body then s.askRetry p
    else
      let s1 := if switch then s.keySwitch p else s
      let pl := if y.secure then gcmData k nonce body else body
      let s2 := (s1.updPort p (fun z => z.takeLink (bitsOf hdr 34 12) link)).acceptFlit p hdr pl errors
      (s2.pump p).idleOut p

def execFlitReceive (port : Fin 18) (bytes : List Byte) (fecOk : Bool) (errors : List ReadError) (s : State) :
    Host.Outcome State Fault Refusal :=
  let p := port.val
  .next (if (s.port p).state ≠ .up ∧ (s.port p).state ≠ .keying ∨ bytes.length ≠ 256 then s
  else if !fecOk then s.bump dev (pFab p) 3 1
  else s.flitIn p bytes errors)

/-- The peer asks for a resend from a SEQ: byte for byte out of the replay buffer; when eight resends in a row for one SEQ have failed the port goes DOWN (R368). -/
def execRetryRequest (port : Fin 18) (seq : Nat) (s : State) : Host.Outcome State Fault Refusal :=
  let p := port.val
  let x := s.port p
  .next (if x.state ≠ .up ∧ x.state ≠ .keying then s
  else
    let n := if x.retrySeq = seq ∧ x.retryCount ≠ 0 then x.retryCount + 1 else 1
    let s1 := (s.updPort p (fun y => { y with retrySeq := seq, retryCount := n })).bump dev (pFab p) 4 1
    if 8 < n then s1.portDown p .down
    else
      let again := x.replay.dropWhile (fun r => r.1 != seq)
      again.foldl (fun t r => t.emit (.flit p r.2)) s1)

end Sys2Proof.Machine
end

