-- ==== Sys2Proof/Machine/Carter.lean ====
section
/-! DEFINITION. What Carter's sources answer, the refetch of the settle phase, and the NVMe commands that end with an error (R224, R232 to R234, R242, R244, R297, R299, R306, R404, R482, R483). -/

namespace Sys2Proof.Machine

/-! ## Carter's slab (R232) -/

/-- A stripe that the flash tier is being asked for. -/
def State.flashAsked (s : State) (k q : Nat) : Bool :=
  let c := s.copy k
  let x := c.stripe q
  s.wanted k q && x.asked && (c.sources[x.source]?).any (fun p => p.1 == .flash)

/-- The flash reads that Carter waits for. -/
def State.flashStripes (s : State) : List (Nat × Nat) :=
  [0, 1].flatMap (fun k => (((s.copy k).stripeMap.map Prod.fst).filter (s.flashAsked k)).map (fun q => (k, q)))

/-- Carter's slab waits for its flash reads. -/
def State.carterWaits (s : State) : Bool := !s.flashStripes.isEmpty

/-- The Carter slab asks for the stripes of its plan, and is to have its flash reads by its planned end (R232, R233, R297). -/
def State.runCarter (s : State) (amount dueNs : Nat) : State :=
  ((s.carterWork.take amount).foldl (fun t q => t.askStripe q.1 q.2) s).updBas (fun b => { b with due := dueNs })

/-- A flash stall of Carter's: it is domain 0's, and moves its slab and every later one of domain 0 (R232, R298). -/
def State.carterStall (s : State) (code : Nat) (counter : Option Nat) (ns : Nat) : State :=
  s.stallBy 0 code counter ns (fun x => x.shiftFromDev .carter ns)

/-- The energy of a slab of the device's own is charged to its domain (R324, R341). -/
def State.chargeDev (s : State) (d : Nat) (energy : Rat) : State :=
  let e := (s.dom d).energyFrac + energy
  let uj := e.floor.toNat
  ((s.updPwr (fun p => { p with tickEnergy := p.tickEnergy + energy })).bump d pTik 3 uj).updDom d (fun x => { x with energyFrac := e - uj })

/-! ## The refetch of the settle phase (R242) -/

/-- The refetch of the BAD stripes begins where the settle work is to end: a MIGRATION slab of domain 0 by its own charge, whatever BAS_FILL_BUDGET holds; while domain 0's RATE is 0 it makes no progress (R232, R521). -/
def State.refetchBegins (s : State) (fromNs : Nat) : State :=
  let bad := s.badStripes
  let s1 := s.updBas (fun b => { b with refetchFrom := fromNs })
  if (s.dom 0).rate = 0 then s1
  else (bad.foldl (fun t q => t.askStripe q.1 q.2) s1).chargeDev 0 (planEnergy s.tik.step 0 { load := { tokens := 1024 * bad.length } })

/-! ## The commands -/

/-- One stripe fetched (R224, R232): a flash read that ends after its planned time stalls Carter's slab (R297). -/
def execStripeFetchDone (copy : Fin 2) (stripe : Nat) (source : StripeSource) (bytes : Timed (List Byte)) (s0 : State) :
    Host.Outcome State Fault Refusal :=
  let s := s0.atTime bytes.nowNs
  let late := if source = .flash ∧ s.flashAsked copy.val stripe ∧ s.inRun then bytes.nowNs - s.bas.due else 0
  let s1 := if late = 0 then s else s.carterStall 0x10 (some 3) late
  .next ((s1.stripeArrives copy.val stripe source bytes.what).askNext s1 copy.val stripe)

/-- A host read for Carter ends (R404, R482, R483): data, or that source fails for the stripe. -/
def execHostReadCompletion (copy : Fin 2) (stripe : Nat) (result : Timed HostReadResult) (s0 : State) :
    Host.Outcome State Fault Refusal :=
  let s := s0.atTime result.nowNs
  let err (t : State) (kind idx : Nat) : State :=
    (t.updPci (fun p => { p with errKind := kind, errFn := 0, errValid := true })).bump dev pPci idx 1
  let fails (t : State) : State :=
    if s.wanted copy.val stripe then (t.sourceFails copy.val stripe).askNext s copy.val stripe else t
  .next (match result.what with
    | .data bytes => (s.stripeIn copy.val stripe .host bytes).askNext s copy.val stripe
    | .timeout => fails ((err s 2 1).raiseDev pPci 2)
    | .errorStatus => fails (err s 3 2))

/-- Pieces of a stripe, or NOT_HELD, from a peer (R233, R378). -/
def execStripeResp (t : Timed Txn) (s0 : State) : Host.Outcome State Fault Refusal :=
  let s := s0.atTime t.nowNs
  let (k, q) := stripeOfTxid t.what.txid
  .next ((s.takeStripe t.what).askNext s k q)

/-- A refetched stripe, or bytes that fail its digest, in the settle phase; the tick stretches until no stripe is BAD (R242, R244, R314). -/
def execBaseRefetchDone (copy : Fin 2) (stripe : Nat) (source : StripeSource) (bytes : List Byte) (nowNs : Nat) (s0 : State) :
    Host.Outcome State Fault Refusal :=
  .next (if s0.badStripes.contains (copy.val, stripe) && s0.tik.settled then
    let s := s0.atTime nowNs
    (s.refetched copy.val stripe source bytes).askNext s copy.val stripe
  else s0)

/-! ## NVMe commands that end with an error (R232, R297, R299, R306) -/

/-- A flash read of Carter's fails: retried once on the same queue pair, then FLASH_ERROR of domain 0 and the next source (R232, R233, R299). -/
def State.stripeReadFails (s : State) (k q : Nat) : State :=
  if !s.flashAsked k q then s
  else if !((s.copy k).stripe q).retried then
    (s.updCopy k (fun c => c.putStripe q { c.stripe q with retried := true })).readStripe k q
  else (((s.bump 0 pTir 6 1).raiseDom pTir 1 0).sourceFails k q).askNext s k q

/-- One NVMe command that ends with an error (R299). -/
def State.workFails (s : State) (d : Nat) (w : NvmeWork) (code ns : Nat) : State :=
  match w with
  | .flush => s.flushFails d
  | .pageRead p => if (s.pageEntry d p).state == .down then s else s.transferFails d p code ns
  | .pageWrite p => if (s.pageEntry d p).state == .down then s.transferFails d p code ns else s
  | .stripeRead k q =>
    if ns = 0 ∨ !((s.copy k.val).stripe q).retried then s.stripeReadFails k.val q
    else (s.carterStall code none ns).stripeReadFails k.val q

/-- Whether a domain has the work in flight; Carter's is domain 0's. -/
def State.workLives (s : State) (d : Nat) (w : NvmeWork) : Bool :=
  match w with
  | .flush => (s.dom d).tir.flushIssued
  | .pageRead p => (s.dom d).tir.inflight.contains p && (s.pageEntry d p).state != .down
  | .pageWrite p => (s.dom d).tir.inflight.contains p && (s.pageEntry d p).state == .down
  | .stripeRead k q => d == 0 && s.flashAsked k.val q

/-- An NVMe error completion (R299): counted in CMD_ERRORS, with DRIVE_ERROR. -/
def execNvmeCommandFail (d : Fin 64) (work : NvmeWork) (stallNs : Nat) (s : State) : Host.Outcome State Fault Refusal :=
  .next (if s.workLives d.val work then
    ((s.bump dev pNvm 4 1).raiseDev pNvm 1).workFails d.val work 0x11 stallNs
  else s)

/-- The page of a work, for the slabs that wait on it; a Flush and a stripe have none. -/
def workPage : NvmeWork → Option Nat
  | .pageRead p => some p
  | .pageWrite p => some p
  | .stripeRead _ _ => none
  | .flush => none

/-- The stall of a command that has timed out, with its cause and counter (R297, R298). -/
def State.timeoutStall (s : State) (d : Nat) (w : NvmeWork) (ns : Nat) : State :=
  match w with
  | .stripeRead _ _ => s.carterStall 0x12 (some 5) ns
  | .pageRead p => s.flashStall d 0x12 (some 5) (some p) ns
  | .pageWrite p => s.flashStall d 0x12 (some 5) (some p) ns
  | .flush => s.flashStall d 0x12 (some 5) none ns

/-- A command outstanding longer than TIMEOUT_MS: aborted, counted, and retried once (R297). -/
def execNvmeTimeout (d : Fin 64) (work : NvmeWork) (stallNs : Nat) (s : State) : Host.Outcome State Fault Refusal :=
  .next (if s.workLives d.val work then
    let s1 := (((s.bump d.val pTir 7 1).timeoutStall d.val work stallNs).raiseDom pTir 2 d.val).nvme
      d.val 0x100 ((workPage work).getD 0)
    s1.workFails d.val work 0x12 0
  else s)

/-- The root-port link of a device namespace (R300, R306); of a domain without an extent the manual names none (log 143). -/
def State.linkOfNs (s : State) (ns : Nat) : Nat := bitsOf ((s.nvm.nsMap.getD (ns - 1) 0).toNat) 32 1

/-- The link on which a page of a domain is read and written: that of the extent that holds it (R293, R300). -/
def State.linkOfPage (s : State) (d p : Nat) : Nat := s.linkOfNs (s.dom (s.homePage d p).1).rec_.ns

/-- The commands of a domain on a link: page transfers and the Flush. -/
def State.failLink (s : State) (d link : Nat) : State :=
  let t := (s.dom d).tir
  let s1 := (t.inflight.filter (fun p => s.linkOfPage d p == link)).foldl (fun u p =>
    if (u.dom d).tir.inflight.contains p then (u.bump dev pNvm 4 1).transferFails d p 0x11 0 else u) s
  if t.flushIssued && s.linkOfNs (s.dom d).rec_.ns == link then (s1.bump dev pNvm 4 1).flushFails d else s1

/-- A root-port link goes down: every command on it fails under R299 (R306). -/
def execNvmeLinkDown (link : Fin 2) (s : State) : Host.Outcome State Fault Refusal :=
  let s1 : State := { s with nvm := if link.val = 0 then { s.nvm with link0 := (0, 0) } else { s.nvm with link1 := (0, 0) } }
  let s2 := (s1.raiseDev pNvm 0).eachDom (fun t d => t.failLink d link.val)
  .next ((s2.flashStripes.filter (fun q => s2.linkOfNs (s2.copy q.1).ns == link.val)).foldl (fun t q =>
    if t.flashAsked q.1 q.2 then (t.bump dev pNvm 4 1).stripeReadFails q.1 q.2 else t) s2)

end Sys2Proof.Machine
end

