-- ==== Sys2Proof/Machine/Tick.lean ====
section
/-! DEFINITION. The run phase and the settle phase: how slabs start, pause and complete, what their completion resolves, the settle work, and preemption (R16, R20 to R26, R69, R74, R76, R90, R133, R232, R240 to R244, R268, R295 to R299, R307, R310, R314, R316, R324 to R328, R388, R414, R416, R444). -/

namespace Sys2Proof.Machine

/-! ## The plan clock (R314) -/

/-- Offset of a time on the plan clock of the current tick, ns. -/
def State.planOff (s : State) (nowNs : Nat) : Rat :=
  ((nowNs : Rat) - (s.tik.latchNs : Rat)) - (s.tik.stallNs : Rat)

/-- Fraction of its work that a slab has done between two offsets, refresh pauses and flash stalls taken out (R272, R298, R325). -/
def State.doneBetween (s : State) (start stop full stalled : Rat) : Rat :=
  let pause : Rat := pauseNs s.memg.tickMode
  let lost := ((pauseOffsets s.tik.latchNs s.tik.tickNs).map (fun o =>
    if start < o ∧ o < stop then ratMin pause (stop - o) else 0)).sum
  if full ≤ 0 then 1 else ratMax 0 (ratMin 1 ((stop - start - lost - stalled) / full))

/-! ## When a slab may start (R316) -/

/-- A slab of the plan that has its portion of this tick still before it. -/
def Slab.waitsStart (b : Slab) : Bool :=
  b.state == .planned || (b.state == .paused && (decide (b.planStart < b.planStop) || decide (b.planStop = b.planEnd)))

/-- Slab c keeps slab b from starting: it holds b's arrays or VEs, or is to hold them first, or is to use b's history slot first (R74, R90, R109). -/
def State.blocks (s : State) (d : Nat) (c b : Slab) : Bool :=
  let hc := hdrOf c.words
  let hb := hdrOf b.words
  let held := c.state == .running || c.state == .paused
  let first := decide (c.order < b.order)
  c.order != b.order && c.state != .ended &&
    ((rangesMeet hc.arraysHeld hb.arraysHeld && (held || first)) ||
     (rangesMeet hc.vesHeld hb.vesHeld && (held || (c.state == .planned && decide (c.planEnd ≤ b.planStart)))) ||
     (first && (s.histSlots d c.words).any (fun q => (s.histSlots d b.words).contains q)))

/-- A PAGED ATTENTION that appends rows (R209). -/
def claimsRows (ws : List W64) : Bool :=
  let b := attBody ws
  (hdrOf ws).kind == 3 && !b.tensor && b.append != 0

/-- The slab could start or resume now but for the order of claims (R316, R325). -/
def State.startable (s : State) (d : Nat) (b : Slab) (off : Rat) : Bool :=
  let x := s.dom d
  s.inRun && x.phase == .active && !x.restoring && b.waitsStart && decide (b.tick ≤ s.tik.tick) &&
    decide (b.planStart + (b.stalledNs : Rat) < off + 1) && decide (startUs b.words < off + 1) &&
    !(match b.dep with | .waits _ => true | .met => false | .failed => false) &&
    !x.slabs.any (fun c => s.blocks d c b)

/-- The slab starts or resumes now (R316, R325): of slabs that start at one offset, the one submitted first claims its rows first (R209). -/
def State.mayStart (s : State) (d : Nat) (b : Slab) (off : Rat) : Bool :=
  s.startable d b off && !(claimsRows b.words && (s.dom d).slabs.any (fun c =>
    decide (c.order < b.order) && claimsRows c.words && decide (c.planStart + c.stalledNs = b.planStart + b.stalledNs) && s.startable d c off))

/-! ## What a slab does (by kind) -/

/-- The accumulator entries that a product, VECTOR_CHAIN or ROOT slab uses: first array, arrays, and the entry after the last (R64, R86, R93, R189, R212; log 146). -/
def State.entriesUsed (s : State) (ws : List W64) : List (Nat × Nat × Nat) :=
  let h := hdrOf ws
  match h.kind with
  | 1 => let b := baseBody ws; [(h.first, tileCount b.m b.n b.mt8 b.nt8, b.acc0 + b.mt8 * b.nt8)]
  | 2 =>
    let b := varBody ws
    let gs := s.groupTable b
    if h.sub ≤ 1 then
      [(h.first, tileCount b.m b.n b.mt8 b.nt8, b.acc0 + b.mt8 * b.nt8),
       (h.first, min h.count (gs.map (fun g => ceilDiv g.rowCount 8)).sum, b.h0 + b.rMax8)]
    else gs.map (fun g => (h.first + g.gArray, tileCount (32 * b.row.rowBlocks) b.n b.mt8 b.nt8, g.gAcc + b.mt8 * b.nt8))
  | 4 =>
    let b := chainBody ws
    if b.srcTensor && b.sinkTensor then [] else [(h.first, tileCount b.rows b.cols b.mt8 b.nt8, b.acc0 + b.mt8 * b.nt8)]
  | 5 => if h.sub = 4 then [(h.first, h.count, 64)] else []
  | _ => []

/-- The slab uses entries 48 to 63 of an overflow array (R212). -/
def State.meetsOverflow (s : State) (d : Nat) (ws : List W64) : Bool :=
  let k := (s.dom d).kvp
  (s.entriesUsed ws).any (fun u => u.2.1 != 0 && decide (48 < u.2.2) && decide (u.1 < k.ovfFirst + k.ovfCount) && decide (k.ovfFirst < u.1 + u.2.1))

/-- The work of a slab by its kind: the state after it, its status, and what it does when it ends. -/
def State.runKind (s : State) (d : Nat) (b : Slab) (sram : Bool) : RunResult :=
  let ws := b.words
  let h := hdrOf ws
  if s.meetsOverflow d ws then { st := s, status := .descInvalid }
  else match h.kind with
  | 1 => s.runBase d ws b.reuse sram
  | 2 => s.runVariant d ws sram
  | 3 => s.runAttention d ws sram
  | 4 => s.runChain d ws b.recipe sram
  | 5 => if h.sub = 4 then s.runRoot d ws sram else s.runPass d ws b.recipe sram
  | 6 => let r := s.startColl d b.order ws; { st := r.1, status := r.2 }
  | 7 => s.runMigration d ws
  | _ => s.runScrub ws

/-- The work of a slab, from the state at its start. A partial write of its own that meets a poisoned block writes nothing and returns poison to the slab (R262), which then withholds its results as its kind does for its own poison; a MIGRATION completes with the status alone (DEDUCED, log 140). -/
def State.runSlab (s : State) (d : Nat) (b : Slab) (sram : Bool) : RunResult :=
  let s0 := s.updDom d (fun x => x.updTir (fun t => { t with wrPoison := false }))
  let r := s0.runKind d b sram
  if !(r.st.dom d).tir.wrPoison then r
  else
    let r1 := if (hdrOf b.words).kind ≤ 5 then s0.runKind d b true else r
    { r1 with status := r1.status.worse .dataPoison }

/-- A slab that fails a check at its start, or whose operand or base is not there, computes nothing and ends at once (R23, R25, R69, R244). -/
def Status.noWork (st : Status) : Bool := st == .descInvalid || st == .depFailed || st == .baseUnavailable

/-! ## The charge (R324, R481) -/

/-- The charge of a start or a resumption at planned values; the replay of a withheld slab is not charged, but its energy is used (R324, R343). -/
def State.chargeSlab (s : State) (d : Nat) (b : Slab) : State :=
  let h := hdrOf b.words
  let s1 := s.updPwr (fun p => { p with tickEnergy := p.tickEnergy + b.energy })
  if b.replay then s1
  else
    let e := (s.dom d).energyFrac + b.energy
    let uj := e.floor.toNat
    ((s1.bump d pTik 2 ((h.count : Rat) * b.cycles).floor.toNat).bump d pTik 3 uj).updDom d (fun x =>
      { x with energyFrac := e - uj })

/-- The units of the arrays that a slab holds. -/
def Hdr.unitsHeld (h : Hdr) : List Nat :=
  if !h.holdsArrays ∨ h.count = 0 then [] else List.range' (h.first / 128) ((h.first + h.count - 1) / 128 + 1 - h.first / 128)

/-- SLABS_STARTED of the units it starts on (R481). -/
def State.countStart (s : State) (ws : List W64) : State :=
  (hdrOf ws).unitsHeld.foldl (fun t u => t.bump dev (pArg u) 1 1) s

/-! ## Ends (R21, R25, R26) -/

/-- STEP_CLOSE of an UPDATE_PASS that completes without having run (R168; log 73). -/
def State.endStep (s : State) (d : Nat) (ws : List W64) : State :=
  let h := hdrOf ws
  if h.kind = 5 ∧ h.sub ≠ 4 ∧ (updBody ws).stepClose then s.closeStep d else s

/-- A slab that ends without having run: DEP_FAILED and BASE_UNAVAILABLE still close the step that they were to close. -/
def State.endIdle (s : State) (d : Nat) (b : Slab) (st : Status) : State :=
  let s1 := if st = .descInvalid then s else s.endStep d b.words
  (s1.noteUnloaded d b.order b.words).endSlab d b st

/-- A batch of which no slab has started counts as not opened once a check at the start has failed: its stamps go at the next latch (R23). DESIGN CHOICE (log 123): until that latch its other planned slabs still find it, and the first of them that starts makes it count as opened again. -/
def State.unopen (s : State) (d : Nat) (ws : List W64) : State :=
  let id := (hdrOf ws).batch
  s.updDom d (fun x => { x with batches := x.batches.map (fun y => if y.id = id ∧ !y.started then { y with unopened := true } else y) })

/-- What completed work does at its end (R47, R108, R164, R168, R178, R183, R188, R189, R192). -/
def State.endEffect (s : State) (d : Nat) : EndEffect → State
  | .pushAmax slot a => s.updDom d (fun x => x.updVec (fun v =>
      { v with hist := mapSet v.hist slot ((a :: (mapGet v.hist slot).getD []).take 16) }))
  | .addNorm addr init sums => s.addNorm d addr init sums
  | .commit slot => s.updSlot slot (fun e => { e with commitDue := true })
  | .stepClose => s.closeStep d
  | .verify count first => s.verifyEnd d count first
  | .rootDone ok => s.rootEnd d ok
  | .clearArrays first count => s.clearArrays first count false

/-! ## Withheld results (R76, R240 to R243, R299) -/

/-- The output tiles of a product slab hold the canonical NaN (R76). -/
def State.withholdTiles (s : State) (ws : List W64) : State :=
  let h := hdrOf ws
  let b := baseBody ws
  let v := varBody ws
  if h.kind = 1 then s.accPutAll (nanTiles h.first (tileCount b.m b.n b.mt8 b.nt8) b.acc0 (b.mt8 * b.nt8))
  else if h.kind = 2 ∧ h.sub ≤ 1 then s.accPutAll (nanTiles h.first (tileCount v.m v.n v.mt8 v.nt8) v.acc0 (v.mt8 * v.nt8))
  else s

/-- Blocks of base copies that read errors have poisoned. -/
def poisonedBy (es : List ReadError) : List (Nat × Nat) :=
  es.filterMap (fun e => match e with
    | .baseBlock k o n => if 4 ≤ n then some (k.val, o / 64) else none
    | .domainBlock _ _ => none
    | .commonsWord _ _ => none
    | .operandBuffer _ _ => none
    | .accumulator _ _ _ => none)

/-- A slab that overlaps a withheld one in arrays and has not started is planned again after the replay; its planned start is kept for the stretch (R74). -/
def State.deferFor (s : State) (d : Nat) (w : Slab) : State :=
  let arrs := (hdrOf w.words).arraysHeld
  s.updDom d (fun x => { x with slabs := x.slabs.map (fun b =>
    if decide (w.order < b.order) && rangesMeet arrs (hdrOf b.words).arraysHeld then
      match b.state, b.nextPlan with
      | .planned, _ =>
        { b with state := .queued, nextPlan := none,
                 deferFrom := some (b.deferFrom.getD (s.tik.latchNs + s.tik.stallNs + b.planStart.floor.toNat)) }
      | .queued, some p =>
        { b with nextPlan := none, deferFrom := some (b.deferFrom.getD (s.nextLatchAt + p.start.floor.toNat)) }
      | _, _ => b
    else b) })

/-- A running participant of a shared fetch that carried one of the blocks is withheld too (R241). -/
def State.poisonPeer (s : State) (d from_ : Nat) (blocks : List (Nat × Nat)) (b : Slab) : State :=
  let h := hdrOf b.words
  let body := baseBody b.words
  if b.state != .running || h.kind != 1 || !b.sharedWith.contains from_ then s
  else match s.batchCopy d h.batch with
    | none => s
    | some k => match s.resolveBase k body.col with
      | none => s
      | some col =>
        let spans := opdSpans col 0 body.n body.kFirst body.kBlks
        if blocks.any (fun q => q.1 == k && spans.any (fun p => p.2 != 0 && decide (64 * q.2 < p.1 + p.2) && decide (p.1 < 64 * q.2 + 64))) then
          ((s.withholdTiles b.words).updSlab d b.order (fun c =>
          { c with status := c.status.worse .sharedPoison, poisonTick := s.replayFrom })).deferFor d b
        else s

/-- Every other domain of a shared fetch (R16, R241). -/
def State.poisonPeers (s : State) (d : Nat) (b : Slab) (blocks : List (Nat × Nat)) : State :=
  if blocks.isEmpty then s
  else b.sharedWith.foldl (fun t e => (t.dom e).slabs.foldl (fun u c => u.poisonPeer e d blocks c) t) s

/-- A slab completes with SHARED_POISON: withheld, and replayed one tick after the poison was read, or two after the cut-off; a replay that the plan holds already keeps its place (R26, R241, R243). -/
def State.withhold (s : State) (d : Nat) (b : Slab) : State :=
  let s1 := s.updSlab d b.order (fun c =>
    { c with state := .withheld, status := .done, effects := [], ran := false, sram := false,
             nextPlan := if c.replayWord then c.nextPlan else none, demand := [], pageFailed := false, withheld := {}, failEffects := [],
             attemptWord := c.wordReserved, wordReserved := c.replayWord, replayWord := false, sharedWith := [],
             replayTick := if c.poisonTick = 0 then s.replayFrom else c.poisonTick, poisonTick := 0 })
  let s2 := ((s1.bump d pBas 3 1).bump dev pBas 3 1).raiseDom pBas 3 d
  if d = 0 then s2 else s2.setEvent 64 pBas 8

/-! ## SLAB_START (R316, R324) -/

/-- The slab of a domain that a tag names: the one that has not ended (R22, R23). -/
def Dom.slabOf (x : Dom) (tag : W32) : Option Slab :=
  x.slabs.find? (fun b => b.state != .ended && (hdrOf b.words).tag == tag.toNat)

/-! ## Results that a demand page can still withhold (R76, R296, R299) -/

/-- The cells in which two memories differ, as the second has them. -/
def cellDiff (a b : List Host.Cell) : List Host.Cell :=
  ((a.filter (fun c => !b.contains c) ++ b.filter (fun c => !a.contains c)).map (fun c => (c.1, memRead b c.1))).dedup

/-- The marks in which two lists of numbers differ, as the second has them. -/
def markDiff (a b : List Nat) : List (Nat × Bool) :=
  (a.filter (fun k => !b.contains k)).map (fun k => (k, false)) ++ (b.filter (fun k => !a.contains k)).map (fun k => (k, true))

def putCells (m : List Host.Cell) (cs : List Host.Cell) : List Host.Cell := cs.foldl (fun n c => memPut n c.1 [c.2]) m

def putMarks (l : List Nat) (ms : List (Nat × Bool)) : List Nat := ms.foldl (fun n m => if m.2 then numAdd n m.1 else numDel n m.1) l

/-- What a slab's results become when a demand page fails: what the run with its results withheld, `w`, leaves in the place of those of the run `r` (R76, R299). -/
def withheldFrom (d : Nat) (ws : List W64) (r w : State) : Withheld :=
  { mem := cellDiff (r.dom d).mem (w.dom d).mem,
    poison := markDiff (r.dom d).poison (w.dom d).poison,
    commons := cellDiff r.commons w.commons,
    commonsPoison := markDiff r.commonsPoison w.commonsPoison,
    acc := ((r.acc ++ w.acc).filter (fun p => r.accGet p.1 != w.accGet p.1)).map (fun p => (p.1, w.accGet p.1)),
    bufs := ((weightStreams ws).map UStream.slot).dedup.map (fun k =>
      (k, (w.slot k).buf1Written)) }

/-- Puts withheld results in the place of a slab's results (R299). -/
def State.putWithheld (s : State) (d : Nat) (w : Withheld) : State :=
  let s1 := s.updDom d (fun x => { x with mem := putCells x.mem w.mem, poison := putMarks x.poison w.poison })
  let s2 : State := { s1 with commons := putCells s1.commons w.commons, commonsPoison := putMarks s1.commonsPoison w.commonsPoison }
  w.bufs.foldl (fun t q => t.updSlot q.1 (fun e => { e with buf1Written := q.2 })) (s2.accPutAll w.acc)

/-- What a run that computed leaves on record of its slab: what it does at its end, its restore copy, and what a failing demand page would put in the place of its results. -/
def Slab.ranAs (c : Slab) (r : RunResult) (withheld : Withheld) (failEffects : List EndEffect) (replayFrom : Nat) : Slab :=
  { c with ran := true, status := c.status.worse r.status, effects := r.effects, restore := r.restore, withheld := withheld,
           chainPos := 0, chainStats := r.stats,
           failEffects := failEffects, poisonTick := if r.status = .sharedPoison then replayFrom else c.poisonTick }

/-- The work itself, from its start, with what it leaves on record. -/
def State.computeSlab (s : State) (d : Nat) (b : Slab) : State :=
  let r := s.runSlab d b b.sram
  if r.status.noWork then
    ((if r.status = .descInvalid then r.st.unopen d b.words else r.st).endIdle d b r.status)
  else
    let s1 :=
      if b.demand.isEmpty then r.st.updSlab d b.order (fun c => c.ranAs r {} [] s.replayFrom)
      else
        let w := s.runSlab d b true
        r.st.updSlab d b.order (fun c => c.ranAs r (withheldFrom d b.words r.st w.st) w.effects s.replayFrom)
    if r.status = .sharedPoison then s1.deferFor d b else s1

/-- A COLLECTIVE or MIGRATION with demand pages does its work when the last of them has arrived: it has no check at its start (R23, R296; log 41). -/
def Slab.waitsPages (b : Slab) : Bool := !b.demand.isEmpty && ((hdrOf b.words).kind == 6 || (hdrOf b.words).kind == 7)

/-- The tick and the time of a collective's planned end (R388). -/
def State.collDue (s : State) (d : Nat) (b : Slab) : State :=
  if (hdrOf b.words).kind = 6 ∧ b.planEnd ≤ b.planStop ∧ b.planStart < b.planStop then
    s.updOp d (collBody b.words).id (fun o =>
      { o with sinceTick := s.tik.tick + 1, dueNs := s.tik.latchNs + s.tik.stallNs + b.planEnd.floor.toNat })
  else s

/-- A slab starts (R316). -/
def State.startSlab (s : State) (d : Nat) (b : Slab) (off : Rat) (nowNs : Nat) (errors : List ReadError) : State :=
  let h := hdrOf b.words
  let late := match b.deferFrom with | some t => nowNs - t | none => 0
  let s1 := s.creditSlab d b
  let s2 := if late = 0 then s1 else s1.addStretch d 0x14 late
  let s3 := if b.replay ∧ !b.restore.isEmpty then s2.accPutAll b.restore else s2
  let (s4, sram) := s3.meetErrors d errors
  let b1 : Slab :=
    { b with state := .running, startOff := off, stalledNs := 0, demDue := if b.demand.isEmpty then 0 else nowNs + b.demNs.floor.toNat, recipe := s.recipe, sram := sram, deferFrom := none,
             busyFrom := nowNs, creditReturned := true }
  let s5 := s4.updSlab d b.order (fun _ => b1)
  let s6 := if b.waitsPages then s5 else s5.computeSlab d b1
  if ((s6.dom d).slabs.find? (fun c => c.order == b.order)).any (fun c => c.state == .ended && (c.status == .descInvalid || c.status == .depFailed)) then s6
  else
    let s7 := ((s6.chargeSlab d b1).countStart b.words).updDom d (fun x =>
      { x with batches := x.batches.map (fun y => if y.id = h.batch then { y with started := true, unopened := false } else y) })
    (s7.poisonPeers d b1 (poisonedBy errors)).collDue d b1

/-- A paused slab goes on (R325). -/
def State.resumeSlab (s : State) (d : Nat) (b : Slab) (off : Rat) (nowNs : Nat) : State :=
  let s1 := (s.countBusy d nowNs b).updSlab d b.order (fun c => { c with state := .running, startOff := off, stalledNs := 0 })
  ((s1.chargeSlab d b).countStart b.words).collDue d b

/-! ## Device-issued slabs (R133, R232, R295, R327, R444) -/

/-- Changes the first record of a kind that has not ended. -/
def updDevs (k : DevSlab) (f : DevSlabRec → DevSlabRec) : List DevSlabRec → List DevSlabRec
  | [] => []
  | r :: l => if r.kind = k ∧ r.state ≠ .ended then f r :: l else r :: updDevs k f l

/-- Changes the device's own slab of a kind: the first that has not ended. -/
def State.updDev (s : State) (d : Nat) (k : DevSlab) (f : DevSlabRec → DevSlabRec) : State :=
  s.updDom d (fun x => { x with devSlabs := updDevs k f x.devSlabs })

/-- One item of the tier queue: the state, whether the slab has carried it, whether it leaves the queue, and whether the queue stops (R289, R290, R295). -/
def State.tierItem (s : State) (d : Nat) : TierItem → State × Bool × Bool × Bool
  | .up p =>
    (match (s.pageEntry d p).state with
     | .flash => let (t, ok) := s.startUp d p; if ok then (t, true, true, false) else (s, false, false, true)
     | .down => (s, false, false, false)
     | .stacked => (s, false, true, false)
     | .up => (s, false, true, false))
  | .down p =>
    (match (s.pageEntry d p).state with
     | .stacked => if s.evictable d p then (s.startDown d p, true, true, false) else (s, false, false, false)
     | .up => (s, false, false, false)
     | .flash => (s.unflushed (s.homePage d p), false, true, false)
     | .down => (s, false, true, false))

/-- A device slab is to have ended its transfer of a page at a time (R297). -/
def State.owes (s : State) (d p : Nat) (k : DevSlab) (dueNs : Nat) : State :=
  s.updDom d (fun x =>
    if x.tir.inflight.contains p || x.tir.waitingFull.any (fun q => q.1 == p) then { x with tir := { x.tir with due := mapSet x.tir.due p (k, dueNs) } }
    else x)

def TierItem.page : TierItem → Nat
  | .up p => p
  | .down p => p

/-- The tier-queue slab starts its items, oldest first, up to the budget of its plan (R295). -/
def State.runTier (s : State) (d amount dueNs : Nat) : State :=
  let r := (s.dom d).tir.queue.foldl (fun (a : State × List TierItem × Nat × Bool) i =>
    let (t, kept, n, stop) := a
    if stop ∨ amount ≤ n then (t, kept ++ [i], n, stop)
    else
      let (t1, did, leaves, stops) := t.tierItem d i
      (if did then t1.owes d i.page .tierQueue dueNs else t1, if leaves then kept else kept ++ [i], n + bit01 did, stops)) (s, [], 0, false)
  r.1.updDom d (fun x => x.updTir (fun t => { t with queue := r.2.1 }))

/-- Cells of [a, a + n) of a memory replaced by those of another. -/
def memMove (m saved : List Host.Cell) (a n : Nat) : List Host.Cell :=
  m.filter (fun c => c.1 < a) ++ (saved.filter (fun c => a ≤ c.1 && c.1 < a + n) ++ m.filter (fun c => a + n ≤ c.1))

/-- Commons banks that a preemption saves: all with SAVE_COMMONS, else the retention banks while a batch is open (R154, R327). -/
def Dom.savedBanks (x : Dom) : Nat × Nat :=
  if x.saveCommons then (bankBytes * x.rec_.bankFirst, bankBytes * x.rec_.banks)
  else if x.batches.isEmpty then (0, 0) else (bankBytes * x.upd.retFirst, bankBytes * x.upd.retBanks)

/-- A paused chain's loop position and row-statistics buffers are saved with the accumulators (R91). -/
def Slab.saveChain (b : Slab) : Slab :=
  if b.state = .paused ∧ (hdrOf b.words).kind = 4 then
    { b with chainSaved := some (b.chainPos, b.chainStats), chainPos := 0, chainStats := [] }
  else b

/-- They come back with the accumulators (R91). -/
def Slab.restoreChain (b : Slab) : Slab :=
  match b.chainSaved with
  | some (p, st) => { b with chainPos := p, chainStats := st, chainSaved := none }
  | none => b

/-- The save slab ends: arrays and banks are in the save area and the arrays are cleared; where a restore has not ended, the save area holds them still (R327). -/
def State.saveEnds (s : State) (d : Nat) : State :=
  let us := s.unitsOf d
  let (a, n) := (s.dom d).savedBanks
  let s1 := s.updDom d (fun x =>
    if x.restoring then { x with saving := false }
    else
      { x with saving := false,
               savedAcc := s.acc.filter (fun p => us.contains (p.1 / 524288)),
               savedOpbuf := s.opbuf.filter (fun c => us.contains (c.1 / 4194304)),
               savedCommons := s.commons.filter (fun c => a ≤ c.1 && c.1 < a + n),
               slabs := x.slabs.map Slab.saveChain })
  (us.foldl (fun t u => t.clearArrays (128 * u) 128 true) s1).raiseDom pTik 4 d

/-- The restore ends: the same transfer in reverse; lost staged copies are restaged (R132, R154, R327). -/
def State.restoreEnds (s : State) (d : Nat) : State :=
  let x := s.dom d
  let (a, n) := x.savedBanks
  let s1 : State :=
    { s with acc := x.savedAcc.foldl (fun m p => mapSet m p.1 p.2) s.acc,
             opbuf := (s.unitsOf d).foldl (fun m u => memMove m x.savedOpbuf (4194304 * u) 4194304) s.opbuf,
             commons := memMove s.commons x.savedCommons a n }
  ((s1.updDom d (fun y =>
    { y with preempted := false, restoring := false, savedAcc := [], savedOpbuf := [], savedCommons := [],
             slabs := y.slabs.map Slab.restoreChain })).restageLost d).raiseDom pTik 5 d

/-- The flash pages of the home images that a Cooper slab loads from (R134). -/
def State.homeReads (s : State) (d amount : Nat) : List Nat :=
  let x := s.dom d
  ((cooperPieces amount x.var_.queue).flatMap (fun q =>
    let e := s.slot q.1.slot
    if q.1.kind.isLoad then
      (touchPages ((cutSpans (roundUp e.imageBytes 4096 - q.1.left) q.2 e.homeSpans).map (fun x => (x.1, x.2, false)))).map Prod.fst
    else [])).dedup.filter (fun p => (s.pageEntry d p).state == .flash && !(s.pageEntry d p).zero)

/-- A Cooper slab starts: the flash pages of its home images are read, straight to it (R134, R136). -/
def State.runCooper (s : State) (d amount dueNs : Nat) : State :=
  (s.homeReads d amount).foldl (fun t p =>
    (if (t.dom d).tir.inflight.contains p || (t.dom d).tir.waitingFull.any (fun q => q.1 == p) then t else t.startTransfer d p 2).owes
      d p .cooper dueNs) s

/-- Time base of a device slab's planned end, ns (R297). -/
def State.devDue (s : State) (r : DevSlabRec) : Nat := s.tik.latchNs + s.tik.stallNs + r.planEnd.floor.toNat

/-- What a device slab does when it starts. -/
def State.devBegins (s : State) (d : Nat) (r : DevSlabRec) : State :=
  match r.kind with
  | .tierQueue => s.runTier d r.amount (s.devDue r)
  | .carter => s.runCarter r.amount (s.devDue r)
  | .cooper => s.runCooper d r.amount (s.devDue r)
  | .sweep => s
  | .save => s
  | .restore => s

/-- What a device slab does when it ends. -/
def State.devEnds (s : State) (d : Nat) (r : DevSlabRec) : State :=
  match r.kind with
  | .cooper => s.cooperEnds d r.amount
  | .sweep => s.sweepEnds d r.amount
  | .save => s.saveEnds d
  | .restore => s.restoreEnds d
  | .tierQueue => s
  | .carter => s

/-- The device slab starts or resumes now (R292, R327). -/
def State.mayStartDev (s : State) (d : Nat) (r : DevSlabRec) (off : Rat) : Bool :=
  let ph := (s.dom d).phase
  s.inRun && (if r.kind = .save then ph == .preempted else ph == .active) && (r.kind == .restore || !(s.dom d).restoring) &&
    (r.state == .planned || (r.state == .paused && (decide (r.planStart < r.planStop) || decide (r.planStop = r.planEnd)))) &&
    decide (r.planStart + (r.stalledNs : Rat) < off + 1)

/-- A device slab starts or resumes; its energy is charged to its domain (R324, R327). -/
def State.startDev (s : State) (d : Nat) (r : DevSlabRec) (off : Rat) : State :=
  let s2 := (s.updDev d r.kind (fun q => { q with state := .running, startOff := off, stalledNs := 0 })).chargeDev d r.energy
  if r.state = .planned then s2.devBegins d r else s2

/-- A planned slab starts, or a paused one resumes (R316, R325). -/
def execSlabStart (d : Fin 64) (slab : SlabRef) (nowNs : Nat) (errors : List ReadError) (s0 : State) :
    Host.Outcome State Fault Refusal :=
  let s := s0.atTime nowNs
  let off := s.planOff nowNs
  .next (match slab with
    | .user tag =>
      (match (s.dom d.val).slabOf tag with
       | none => s0
       | some b =>
         if !s.mayStart d.val b off then s0
         else if b.state = .paused then s.resumeSlab d.val b off nowNs
         else if b.dep = .failed then s.endIdle d.val b .depFailed
         else s.startSlab d.val b off nowNs errors)
    | .device k =>
      (match (s.dom d.val).devSlab? k with
       | none => s0
       | some r => if s.mayStartDev d.val r off then s.startDev d.val r off else s0))

/-! ## SLAB_PAUSE and RUN_PHASE_END (R316, R325) -/

/-- Fraction of the work that a running slab has done in this tick: its planned portion when it kept its times. -/
def State.sliceDone (s : State) (b : Slab) (off : Rat) : Rat :=
  if b.planStop < off + 1 ∧ b.startOff < b.planStart + 1 ∧ b.stalledNs = 0 then ratMin b.frac b.remaining
  else ratMin b.remaining (s.doneBetween b.startOff off b.planFull b.stalledNs)

/-- The vectors of a chain that stand written when a fraction of its work remains; other kinds have no loop position (R91, R94, R325). -/
def Slab.loopPos (b : Slab) (remaining : Rat) : Nat :=
  if (hdrOf b.words).kind = 4 then
    let c := chainBody b.words
    ((1 - remaining) * (ceilDiv c.rows 8 * ceilDiv c.cols 8 : Nat)).floor.toNat
  else 0

/-- A running slab pauses; it counts once in MULTI_TICK (R91, R325). -/
def State.pauseSlab (s : State) (d : Nat) (b : Slab) (off : Rat) : State :=
  let done := s.sliceDone b off
  let s1 := if b.multi then s else s.bump d pTik 5 1
  s1.updSlab d b.order (fun c =>
    { c with state := .paused, multi := true, chainPos := c.loopPos (c.remaining - done), remaining := c.remaining - done, frac := c.frac - ratMin c.frac done, planStart := c.planStop,
             nextPlan := if c.status = .sharedPoison then none else c.nextPlan })

/-- A running device slab pauses; it counts once in MULTI_TICK (R133, R325). -/
def State.pauseDev (s : State) (d : Nat) (r : DevSlabRec) (off : Rat) : State :=
  let done := if r.planStop < off + 1 ∧ r.startOff < r.planStart + 1 ∧ r.stalledNs = 0 then ratMin r.frac r.remaining
    else ratMin r.remaining (s.doneBetween r.startOff off r.full r.stalledNs)
  (if r.multi then s else s.bump d pTik 5 1).updDev d r.kind (fun q =>
    { q with state := .paused, multi := true, remaining := q.remaining - done, frac := q.frac - ratMin q.frac done, planStart := q.planStop })

/-- A slab that spans its domain's horizon pauses there (R322, R325). -/
def execSlabPause (d : Fin 64) (slab : SlabRef) (nowNs : Nat) (s0 : State) : Host.Outcome State Fault Refusal :=
  let s := s0.atTime nowNs
  let off := s.planOff nowNs
  .next (match slab with
    | .user tag =>
      (match (s.dom d.val).slabOf tag with
       | none => s0
       | some b =>
         if s.inRun && b.state == .running && decide (b.planStop < b.planEnd) && decide (b.planStop < off + 1) then
           s.pauseSlab d.val b off
         else s0)
    | .device k =>
      (match (s.dom d.val).devSlab? k with
       | none => s0
       | some r =>
         if s.inRun && r.state == .running && decide (r.planStop < r.planEnd) && decide (r.planStop < off + 1) then
           s.pauseDev d.val r off
         else s0))

/-- How far the portions that a domain has not done reach beyond the end of the run phase (R316; log 74). -/
def State.lagOf (s : State) (d : Nat) (off : Rat) : Nat :=
  let due := (s.dom d).slabs.filter (fun b => b.state == .running || (b.waitsStart && b.tick ≤ s.tik.tick))
  let r := due.foldl (fun (a : List (Option (Nat × Nat) × Option (Nat × Nat) × Rat)) b =>
    let h := hdrOf b.words
    let left := if b.state = .running then ratMax 0 (b.frac - s.sliceDone b off) else b.frac
    let start := a.foldl (fun m q => if rangesMeet q.1 h.arraysHeld || rangesMeet q.2.1 h.vesHeld then ratMax m q.2.2 else m) 0
    a ++ [(h.arraysHeld, h.vesHeld, start + left * b.planFull)]) []
  ((r.map (fun q => q.2.2)).foldl ratMax 0).ceil.toNat

/-- One domain at the end of the run phase: what still runs pauses, and the lag is known (R316, R325, R332). -/
def State.endRunOf (s : State) (off : Rat) (d : Nat) : State :=
  let lag := s.lagOf d off
  let s1 := ((s.dom d).slabs.filter (fun b => b.state == .running)).foldl (fun t b => t.pauseSlab d b off) s
  let s2 := ((s.dom d).devSlabs.filter (fun r => r.state == .running)).foldl (fun t r => t.pauseDev d r off) s1
  if lag = 0 then s2
  else ((s2.updDom d (fun x => { x with lagNext := x.lagNext + lag })).bump d pTik 4 lag).raiseDom pTik 3 d

/-- The run phase ends (R307, R325). -/
def execRunPhaseEnd (nowNs : Nat) (s0 : State) : Host.Outcome State Fault Refusal :=
  let s := s0.atTime nowNs
  let off := s.planOff nowNs
  .next (if s.inRun && decide ((s.runEndNs s.tik.tick : Rat) < off + 1) then
    (s.eachDom (fun t d => t.endRunOf off d)).updTik (fun t => { t with runEnded := true })
  else s0)

/-! ## SLAB_COMPLETE (R25, R26, R241, R388) -/

/-- A collective has ended or failed. -/
def Dom.collReady (x : Dom) (b : Slab) : Bool :=
  match x.collOp (collBody b.words).id with
  | some o => o.finished || o.failed
  | none => true

/-- The wait of a collective beyond its planned end (R313, R388, R402). -/
def State.collWait (s : State) (d : Nat) (b : Slab) (nowNs : Nat) : State :=
  match (s.dom d).collOp (collBody b.words).id with
  | none => s
  | some o =>
    let ns := if o.sinceTick = 0 then 0 else nowNs - o.dueNs
    if ns = 0 then s else (s.addStretch d 0x16 ns).bump d pCol 3 ns

/-- The slab's portion may end now. -/
def State.mayEnd (s : State) (d : Nat) (b : Slab) : Bool :=
  s.inRun && b.state == .running && decide (b.planEnd ≤ b.planStop) && b.demand.isEmpty &&
    ((hdrOf b.words).kind != 6 || !b.ran || (s.dom d).collReady b)

/-- A device slab may end now: its portion is its last, and no transfer of its own is under way (R295, R297). -/
def State.mayEndDev (s : State) (d : Nat) (r : DevSlabRec) : Bool :=
  s.inRun && r.state == .running && decide (r.planEnd ≤ r.planStop) && !(s.dom d).tir.due.any (fun q => q.2.1 == r.kind) &&
    !(r.kind == .carter && s.carterWaits)

/-- The status of a slab decides its end: withheld for a replay, or ended (R26, R241). -/
def State.concludeSlab (s : State) (d : Nat) (b : Slab) (nowNs : Nat) : State :=
  let s1 := s.countBusy d nowNs b
  if b.status = .sharedPoison then s1.withhold d b
  else
    let s2 := if b.pageFailed then b.failEffects.foldl (fun t e => t.endEffect d e) (s1.putWithheld d b.withheld)
      else b.effects.foldl (fun t e => t.endEffect d e) s1
    let s3 := if (hdrOf b.words).kind = 6 then (s2.collWait d b nowNs).endColl d b.words else s2
    s3.endSlab d b b.status

/-- The work of a slab that waited for its demand pages; one whose page failed does none (R296, R299). -/
def State.lateCompute (s : State) (d : Nat) (b : Slab) : State :=
  if b.ran then s
  else if b.status = .done then s.computeSlab d b
  else s.updSlab d b.order (fun c => { c with ran := true })

/-- A slab ends (R26). -/
def execSlabComplete (d : Fin 64) (slab : SlabRef) (nowNs : Nat) (s0 : State) : Host.Outcome State Fault Refusal :=
  let s := s0.atTime nowNs
  .next (match slab with
    | .user tag =>
      (match (s.dom d.val).slabOf tag with
       | none => s0
       | some b =>
         if !s.mayEnd d.val b then s0
         else
           let s1 := (s.lateCompute d.val b).collDue d.val b
           match (s1.dom d.val).slabOf tag with
           | none => s1
           | some c => if (hdrOf c.words).kind != 6 || (s1.dom d.val).collReady c then s1.concludeSlab d.val c nowNs else s1)
    | .device k =>
      (match (s.dom d.val).devSlab? k with
       | none => s0
       | some r =>
         if s.mayEndDev d.val r then
           (s.updDev d.val k (fun q => { q with state := .ended })).devEnds d.val r
         else s0))

/-! ## The settle phase (R26, R307, R310, R414, R416) -/

/-- The completion word of R414. -/
def completionWord (ws : List W64) (st : Status) (replay : Bool) (tick : Nat) : W64 :=
  w64 (fld (hdrOf ws).tag 0 32 + fld st.code 32 8 + fld (hdrOf ws).kind 40 4 + fld (bit01 replay) 44 1 + fld tick 45 15 + 2 ^ 63)

/-- Writes a word that was reserved into the completion queue (R26, R416). -/
def State.writeWord (s : State) (d : Nat) (w : W64) : State :=
  (s.updDom d (fun x => x.updQueue (fun q => { q with compl := q.compl ++ [w], reserved := q.reserved - 1 }))).bump d pDom 1 1

/-- A slab that has ended by now: its credits, batch and step where it ended without running, and its completion word, once it has one reserved (R22, R25, R26, R411, R416). -/
def State.settleSlab (s : State) (d : Nat) (b : Slab) : State :=
  if b.state = .withheld then
    if b.attemptWord then
      (s.writeWord d (completionWord b.words .sharedPoison b.replay s.tik.tick)).updSlab d b.order (fun c => { c with attemptWord := false })
    else s
  else if b.state != .ended || decide (s.tik.tick < b.tick) then s
  else
    let s1 := if b.creditReturned then s
      else ((if b.status = .descInvalid then s else s.endStep d b.words).creditSlab d b).endBatch d b.words
    let gone (t : State) : State := t.updDom d (fun x => { x with slabs := x.slabs.filter (fun c => c.order != b.order) })
    let due := (hdrOf b.words).completeWord || b.status != .done || b.replay
    if due then
      if b.wordReserved then gone (s1.writeWord d (completionWord b.words b.status b.replay s.tik.tick)) else s1
    else gone (if b.wordReserved then s1.updDom d (fun x => x.updQueue (fun q => { q with reserved := q.reserved - 1 })) else s1)

/-- The settle work of one domain: the pager, then the completion words with vector 0 (R211, R213, R26, R408); a pager overrun is lag of the next tick (R316). -/
def State.settleDom (s : State) (d : Nat) : State :=
  let s1 := s.kvSettle d
  let over_ := (s1.dom d).lagNext - (s.dom d).lagNext
  let s2 := if over_ = 0 then s1 else (s1.bump d pTik 4 over_).raiseDom pTik 3 d
  let s2' := s2.reserveEnded d
  let s3 := (s2'.dom d).slabs.foldl (fun t b => t.settleSlab d b) s2'
  if (s2.dom d).queue.compl.length < (s3.dom d).queue.compl.length then s3.msix d 0 else s3

/-- Time of the device's settle work, ns: 3 µs and the commit copies of the domains, each over its own rate (R310). -/
def State.settleNs (s : State) : Nat :=
  3000 + (s.doms.map (fun p =>
    let k := p.2.kvp
    if k.commitCopyCount = 0 then 0 else ceilDiv (2 * k.bpt * k.commitCopyCount * 10) (1024 * max p.2.rate 1))).foldl max 0

/-- The settle phase begins: pager, commits, completion words, refetch of BAD stripes, done token (R307, R310, R242, R392). -/
def execSettleStart (nowNs : Nat) (s0 : State) : Host.Outcome State Fault Refusal :=
  .next (if s0.tik.ticking && s0.tik.runEnded && !s0.tik.settled then
    let s := s0.atTime nowNs
    let over_ := s.settleNs - 1000 * (s.tik.settleUs - s.tik.gdUs)
    let s1 := (s.updTik (fun t => { t with settled := true })).eachDom (fun t d => t.settleDom d)
    let s2 := if over_ = 0 then s1 else s1.deviceStall 4 over_
    if s2.badStripes.isEmpty then s2.sendDone (nowNs + s.settleNs) else s2.refetchBegins (nowNs + s.settleNs)
  else s0)

/-! ## Shared fetches (R16, R268) -/

/-- A participant that has not paid within 4 µs is served by a second read: it leaves the shared fetch (R268). -/
def execSharedFetchHoldExpire (d : Fin 64) (tag : W32) (s : State) : Host.Outcome State Fault Refusal :=
  .next (match (s.dom d.val).slabOf tag with
    | some b => if b.state = .running then s.updSlab d.val b.order (fun c => { c with sharedWith := [] }) else s
    | none => s)

/-! ## TIK_CMD (R326, R331) -/

/-- TIK_RESULT without VALID. -/
def tikWord (status op d : Nat) : Nat := fld status 0 8 + fld op 8 4 + fld d 12 6

/-- TIK_CMD PREEMPT (R326). -/
def State.preemptCmd (s : State) (v : View) (posted : Bool) (d : Nat) (save : Bool) (rsv : Nat) : State :=
  s.runCmd v pTik posted (fun t =>
    let x := t.dom d
    if rsv ≠ 0 ∨ d = 0 then (t, tikWord 0x05 1 d)
    else if x.phase != .active then (t, tikWord 0x0A 1 d)
    else (t.updDom d (fun y => { y with preemptAt := some (y.preemptAt.getD (t.effectTick, save)) }), tikWord 0x01 1 d))

/-- TIK_CMD RESUME (R326); bit 0 of `rsv` is SAVE_COMMONS, which only PREEMPT reads. -/
def State.resumeCmd (s : State) (v : View) (posted : Bool) (d rsv : Nat) : State :=
  s.runCmd v pTik posted (fun t =>
    let x := t.dom d
    if 2 ≤ rsv then (t, tikWord 0x05 2 d)
    else if x.phase != .preempted || !(t.lentFrom d).isEmpty then (t, tikWord 0x0A 2 d)
    else (t.updDom d (fun y => { y with resumeAt := some (y.resumeAt.getD t.effectTick) }), tikWord 0x01 2 d))

/-- PREEMPT by a write of TIK_CMD in region 0 (R326, R331). -/
def execPreempt (posted : Bool) (d : Fin 64) (saveCommons : Bool) (rsv : BitVec 53) (s : State) : Host.Outcome State Fault Refusal :=
  .next (s.preemptCmd (.pf 0) posted d.val saveCommons rsv.toNat)

/-- RESUME by a write of TIK_CMD in region 0 (R326, R331). -/
def execResume (posted : Bool) (d : Fin 64) (rsv : BitVec 54) (s : State) : Host.Outcome State Fault Refusal :=
  .next (s.resumeCmd (.pf 0) posted d.val rsv.toNat)

end Sys2Proof.Machine
end

