-- ==== Sys2Proof/Machine/Read.lean ====
section
/-! DEFINITION. Reading the register pages: which page a view shows, the common header, the counters, and the value of every register of every block (R9, R10, R45, R56, R60, R92, R113 to R116, R142, R143, R153, R167, R168, R191, R221, R222, R246, R247, R284, R285, R304 to R306, R331, R332, R357 to R359, R399 to R402, R413, R428, R429, R460 to R468, R471, R473, R475, R476, R478, R479, R481 to R485). -/

namespace Sys2Proof.Machine

/-! ## Pages and views (R462 to R464, R475, R476, R478) -/

/-- The view is a PF region other than region 0. -/
def isTenantRegion (v : View) : Bool := isPf v && !isRegion0 v

/-- Pages that VFs and PF regions 1 to 63 do not have (R475). -/
def region0Page (p : Nat) : Bool := p == pNvm || p == pFul || p == pBdg || p == pDbg || (decide (0x20 ≤ p) && decide (p ≤ 0x31))

/-- A page is present in a view: ARG pages outside region 0 only for units that the domain holds (R475, R478); with both image slots refused the PF has the LKS page alone (R432). -/
def State.shows (s : State) (v : View) (p : Nat) : Bool :=
  if s.boot.phase = .romOnly then isRegion0 v && !s.pci.d3hot && p == pLks
  else s.viewOpen v && (blockOf p).isSome &&
    (isRegion0 v || (!region0Page p && (decide (p < 0x40) || (s.unitsOf (s.viewDom v p)).contains (p - 0x40))))

/-- All bits of BLK_EVENT that a page defines (R116, R144, R223, R248, R286, R305, R306, R333, R358, R359, R400, R402, R429, R460, R461, R477, R481, R483, R487). -/
def eventMask (p : Nat) : Nat :=
  if p = pTik then 0xFF else if p = pVec then 0x7 else if p = pVar then 0x1F else if p = pKvp then 0xF
  else if p = pUpd then 0x7 else if p = pBas then 0x3F else if p = pTir then 0x3F else if p = pNvm then 0x7
  else if p = pCol then 0x7 else if p = pPci then 0x1F else if p = pDom then 0x1F else if p = pLks then 0x3F
  else if p = pFul then 0x3 else if p = pPwr then 0xF else if p = pBdg then 0x7 else if p = pDbg then 0x1
  else if p = 0x10 then 0x1FF else if p ≤ 0x17 then 0x1FD else if p = 0x20 then 0x3F
  else if p ≤ 0x31 then 0x1F else 0x7

/-- Bits of BLK_EVENT that a view shows (R475, R476). -/
def viewEvents (v : View) (p : Nat) : Nat :=
  if isRegion0 v then eventMask p else if isPf v then regionEventMask p else vfEventMask p

/-- Where a view's CNT_MODE and frozen copy are kept: of VF n, and of each PF region (R468). -/
def modeCopy : View → Nat
  | .pf r => 64 + r.val
  | .vf n => n.val

/-! ## Counters (R10, R465, R468) -/

/-- Scope of counter `idx` of a page in a view that shows domain d; none where the view does not show it (R241, R332, R475, R476, R483, R484). -/
def counterScope (v : View) (p idx d : Nat) : Option Nat :=
  let r0 := isRegion0 v
  if 8 ≤ idx then none
  else if p = pTik then some (if idx ≤ 1 then dev else d)
  else if p = pVec then (if isTenantRegion v && idx != 2 then none else some d)
  else if p = pUpd then (if isTenantRegion v && idx != 1 && idx != 2 then none else some d)
  else if p = pVar ∨ p = pKvp ∨ p = pTir ∨ p = pDom ∨ p = pCol then some d
  else if p = pBas then (if r0 then some dev else if idx = 3 then some d else none)
  else if p = pPci then (if idx = 0 then some (if r0 then 0 else d) else if r0 then some dev else none)
  else if 0x40 ≤ p then some dev
  else if r0 then some dev else none

/-- A counter's live value: TICKS is the tick's number, ON_SECONDS outlives resets (R332, R359). -/
def State.liveCounter (s : State) (v : View) (p idx : Nat) : W64 :=
  match counterScope v p idx (s.viewDom v p) with
  | none => 0
  | some sc =>
    if p = pTik ∧ idx = 0 then w64 s.tik.tick
    else if p = pBdg ∧ idx = 2 then s.fuses.onSeconds
    else s.counter sc p idx

/-- The eight counters of a page as they stand. -/
def State.liveCounters (s : State) (v : View) (p : Nat) : List W64 := (List.range 8).map (s.liveCounter v p)

/-- A counter as the view reads it: the frozen copy while CNT_MODE is 1 (R468). -/
def State.viewCounter (s : State) (v : View) (p idx : Nat) : W64 :=
  let m := s.view (modeCopy v) p
  if m.cntMode = 1 then m.frozen.getD idx 0 else s.liveCounter v p idx

/-! ## The common header (R465 to R467, R471, R92) -/

/-- BLK_CAPS0. -/
def capsLow (p : Nat) : Nat :=
  if p = pVec then fld 512 0 10 + fld 64 10 8 + fld 4 18 4 + fld 1 22 4 + fld 2 26 4
  else if 0x40 ≤ p then fld (128 * (p - 0x40)) 0 13 + fld 128 13 8 + fld (8 * (p - 0x40)) 21 9
  else if 0x20 ≤ p then
    let port := p - 0x20
    fld port 0 5 + fld (bit01 (interRack port)) 5 1 + fld (if port < 12 then 3 * (port / 3) else port) 6 5
  else 0

/-- BLK_CAPS1. -/
def capsHigh (p : Nat) : Nat :=
  if p = pVec then fld 2 0 4 + fld 8 4 4 + fld 128 8 8 + fld 1024 16 11 + fld 9 27 4 else 0

/-- READY: every block once bring-up has ended, but the MEM page of a stack with a channel that failed training (R465, R506, R507). -/
def State.ready (s : State) (p : Nat) : Bool :=
  s.boot.phase == .running && !(decide (0x10 ≤ p) && decide (p ≤ 0x17) && s.boot.failedStacks.contains (p - 0x10))

/-- BLK_EVENT as a view reads it. -/
def State.eventWord (s : State) (v : View) (p : Nat) : W32 := (s.view (s.viewCopy v p) p).event &&& w32 (viewEvents v p)

/-- The header registers of a present page. -/
def State.headerReg (s : State) (v : View) (p o : Nat) : Nat :=
  let c := s.view (s.viewCopy v p) p
  if o = 0x00 then
    fld ((blockOf p).getD 0 + 1) 0 8 + fld (instanceOf p) 8 8 + fld (s.viewDom v p) 16 6 + fld (bit01 (!isPf v)) 22 1
  else if o = 0x04 then 0x00A10100
  else if o = 0x08 then capsLow p
  else if o = 0x0C then capsHigh p
  else if o = 0x10 then (s.view (modeCopy v) p).cntMode.toNat
  else if o = 0x14 then
    fld (bit01 (s.ready p)) 0 1 + fld (bit01 (s.locked.contains p)) 1 1 + fld (bit01 (s.eventWord v p &&& c.enable != 0)) 2 1
  else if o = 0x18 then (s.eventWord v p).toNat
  else if o = 0x1C then c.enable.toNat
  else if o = 0x24 then bit01 (s.locked.contains p)
  else 0

/-! ## Values that wait for a latch (R9: a field that is RW returns the last value written) -/

/-- Folds the waiting writes into a value. -/
def State.due {α : Type} (s : State) (f : α → LatchAct → α) (a : α) : α := s.atLatch.foldl f a

def State.dueWeight (s : State) (d : Nat) : Nat :=
  s.due (fun a x => match x with | .weight e n => if e = d then n else a | _ => a) (s.dom d).weight
def State.dueSlots (s : State) (d : Nat) : Nat :=
  s.due (fun a x => match x with | .slots e n => if e = d then n else a | _ => a) (s.dom d).slots
def State.dueRtEnergy (s : State) (d : Nat) : Nat :=
  s.due (fun a x => match x with | .rtEnergy e n => if e = d then n else a | _ => a) (s.dom d).rtUj
def State.dueRtArrays (s : State) (d : Nat) : Nat × Nat :=
  s.due (fun a x => match x with | .rtArrays e f n => if e = d then (f, n) else a | _ => a) ((s.dom d).rtFirst, (s.dom d).rtUnits)
def State.dueRates (s : State) (d : Nat) : Nat × Nat :=
  s.due (fun a x => match x with | .rates e r t => if e = d then (r, t) else a | _ => a) ((s.dom d).rate, (s.dom d).rateT)
def State.dueLoadBudget (s : State) (d : Nat) : Nat :=
  s.due (fun a x => match x with | .loadBudget e n => if e = d then n else a | _ => a) (s.dom d).var_.loadBudget
def State.dueFlashRate (s : State) (d : Nat) : Nat × Nat :=
  s.due (fun a x => match x with | .flashRate e r w => if e = d then (r, w) else a | _ => a) ((s.dom d).tir.rd, (s.dom d).tir.wr)
def State.dueMigBudget (s : State) (d : Nat) : Nat :=
  s.due (fun a x => match x with | .migBudget e n => if e = d then n else a | _ => a) (s.dom d).tir.migBudget
def State.dueRetain (s : State) (d : Nat) : Nat × Nat :=
  s.due (fun a x => match x with | .retain e f n => if e = d then (f, n) else a | _ => a) ((s.dom d).upd.retFirst, (s.dom d).upd.retBanks)
def State.dueOvf (s : State) (d : Nat) : Nat × Nat :=
  s.due (fun a x => match x with | .ovf e f n => if e = d then (f, n) else a | _ => a) ((s.dom d).kvp.ovfFirst, (s.dom d).kvp.ovfCount)
def State.duePtag (s : State) (d : Nat) : Nat × Bool × Bool :=
  s.due (fun a x => match x with | .ptag e t r w => if e = d then (t, r, w) else a | _ => a)
    ((s.dom d).col.ptag, (s.dom d).col.rdEn, (s.dom d).col.wrEn)
def State.dueMaint (s : State) : Nat × Nat :=
  s.due (fun a x => match x with | .maint l e => (l, e) | _ => a) (s.memg.maintLen, s.memg.maintEvery)
def State.dueFill (s : State) : Nat :=
  s.due (fun a x => match x with | .fillBudget n => n | _ => a) s.bas.fillBudget
def State.dueLat (s : State) : Nat :=
  s.due (fun a x => match x with | .nvmLat n => n | _ => a) s.nvm.latUs

/-- LEN, S, G and CUT as last accepted (R311). -/
def TikState.dueTick (t : TikState) : Nat × Nat × Nat × Nat :=
  match t.later, t.next with
  | some (_, q), _ => q
  | none, some (_, q) => q
  | none, none => (t.len, t.settleUs, t.gdUs, t.cutUs)

/-! ## 64-bit registers -/

/-- Command, result and argument registers of a pair with n arguments (R123). -/
def State.pairReg (s : State) (c p n o : Nat) : Option Nat :=
  if o = 0x100 then some 0
  else if o = 0x108 then some (s.pair c p).result.toNat
  else if 0x110 ≤ o ∧ o < 0x110 + 8 * n then some (s.arg c p ((o - 0x110) / 8))
  else none

/-- Arrays of a unit that started or paused slabs hold (R479); a preempted domain's are not held. -/
def State.heldMap (s : State) (u half : Nat) : Nat :=
  let held (a : Nat) : Bool := s.doms.any (fun p => p.2.phase != .preempted && p.2.slabs.any (fun b =>
    let h := hdrOf b.words
    (b.state == .running || b.state == .paused) && h.holdsArrays && decide (h.first ≤ a) && decide (a < h.first + h.count)))
  (List.range 64).foldl (fun m i => if held (128 * u + 64 * half + i) then m + 2 ^ i else m) 0

/-- Units in the pool (R428, R507). -/
def State.freeUnits (s : State) : Nat :=
  let mine (q : DomRecord) (u : Nat) : Bool := decide (q.arrFirstUnit ≤ u) && decide (u < q.arrFirstUnit + q.arrUnits)
  (List.range 64).foldl (fun m u =>
    if s.boot.badUnits.contains u || s.doms.any (fun p => p.2.heldRecords.any (fun q => mine q u)) then m else m + 2 ^ u) 0

/-- VFs that answer with Configuration Request Retry Status (R482). -/
def State.flrMap (s : State) : Nat := s.pci.flr.foldl (fun m n => if n = 0 ∨ 64 ≤ n then m else m ||| 2 ^ n) 0

/-- The 64-bit registers of a present page at offset o, a multiple of 8; none where the page has 32-bit registers or nothing there. -/
def State.wideReg (s : State) (v : View) (p o : Nat) : Option Nat :=
  let d := s.viewDom v p
  let c := s.viewCopy v p
  let x := s.dom d
  let r0 := isRegion0 v
  let onlyR0 (w : Nat) : Option Nat := some (if r0 then w else 0)
  if 0x40 ≤ o ∧ o < 0x80 then some (s.viewCounter v p ((o - 0x40) / 8)).toNat
  else if p = pTik then
    if o = 0x110 then some s.tik.timeNs
    else if o = 0x138 then some 0
    else if o = 0x140 then (if isPf v then some (s.pair c pTik).result.toNat else some 0)
    else if 0x208 ≤ o ∧ o ≤ 0x2B0 then
      let code := (o - 0x200) / 8
      some ((mapGet s.stretch (64 * (if code < 0x10 then dev else d) + code)).getD 0).toNat
    else none
  else if p = pVar then if o = 0x158 then some x.extBase else s.pairReg c p 5 o
  else if p = pKvp then if o = 0x150 then some x.kvp.dropBase else s.pairReg c p 4 o
  else if p = pBas then
    if o = 0x160 then onlyR0 s.bas.hostBase.toNat
    else (s.pairReg c p 4 o).map (fun w => if r0 then w else 0)
  else if p = pTir then if o = 0x138 then some x.rec_.lbaBase else s.pairReg c p 1 o
  else if p = pNvm then if 0x120 ≤ o ∧ o < 0x160 then some (s.nvm.nsMap.getD ((o - 0x120) / 8) 0).toNat else none
  else if p = pPci then if o = 0x108 then onlyR0 s.flrMap else none
  else if p = pDom then if o = 0x120 then onlyR0 s.freeUnits else none
  else if p = pLks then
    if o = 0x150 then some (s.pair c pLks).done.toNat else s.pairReg c p 8 o
  else if p = pFul then if o = 0x108 then some s.ful.lastNs else none
  else if p = pDbg then if o = 0x120 then some s.dbg.traceBase else none
  else if 0x10 ≤ p ∧ p ≤ 0x17 then if o = 0x120 then onlyR0 (s.mbd (p - 0x10)).lastUe.toNat else none
  else if 0x40 ≤ p then
    if o = 0x108 then some (s.heldMap (p - 0x40) 0) else if o = 0x110 then some (s.heldMap (p - 0x40) 1) else none
  else none

/-! ## 32-bit registers, block by block -/

/-- VEC_RECIPE_k (R45): in the view of a domain in KLN3 gradient mode row 3 reads as FP16 without scale, to nearest even (R56). -/
def recipeReg (rows : List Recipe) (kln3 : Bool) (k : Nat) : Nat :=
  match rows[k]? with
  | none => 0
  | some r => if kln3 ∧ k = 3 then fld 3 0 4 + fld (bit01 r.escEn) 8 1 + fld r.escShift 9 2 else recipeWord k r

/-- TIK (R331). -/
def State.tikReg (s : State) (v : View) (d o : Nat) : Nat :=
  let t := s.tik
  let x := s.dom d
  let (len, se, gd, cut) := t.dueTick
  if o = 0x100 then fld len 0 21
  else if o = 0x104 then fld se 0 8 + fld gd 8 6 + fld cut 14 16
  else if o = 0x108 then fld t.prio 0 8 + fld (bit01 t.refExt) 8 1 + fld (bit01 t.isMaster) 9 1
  else if o = 0x10C then
    fld (if t.ticking then t.step else 0) 0 4 + fld (bit01 (t.ticking && s.windowUs t.tick != 0)) 4 1 +
      fld (bit01 t.stretched) 5 1 + fld t.lastCause 6 5
  else if o = 0x118 then fld t.wCap 0 16
  else if o = 0x11C then (if isPf v then d else 0)
  else if o = 0x120 then fld (s.dueWeight d) 0 10
  else if o = 0x124 then fld (s.dueSlots d) 0 13
  else if o = 0x128 then fld (s.dueRtEnergy d) 0 28
  else if o = 0x12C then fld (s.dueRtArrays d).1 0 6 + fld (s.dueRtArrays d).2 6 7
  else if o = 0x130 then fld x.allow 0 28
  else if o = 0x134 then min x.lagNs (2 ^ 32 - 1)
  else if o = 0x148 then fld (bit01 x.preempted) 0 1 + fld (bit01 x.saving) 1 1 + fld (bit01 x.restoring) 2 1
  else 0

/-- VEC (R45, R60, R113, R114). -/
def State.vecReg (s : State) (v : View) (d o : Nat) : Nat :=
  let e := (s.dom d).vec
  let own (w : Nat) : Nat := if isTenantRegion v then 0 else w
  if 0x100 ≤ o ∧ o < 0x11C then recipeReg s.recipe (s.dom d).rec_.kln3Grad ((o - 0x100) / 4)
  else if o = 0x120 then fld e.zsLimit 0 10
  else if o = 0x130 then own e.histSel
  else if o = 0x134 then own e.histCount
  else if 0x140 ≤ o ∧ o < 0x180 then own (e.histData.getD ((o - 0x140) / 4) 0).toNat
  else if o = 0x180 then e.zsSel
  else if o = 0x184 then own ((mapGet e.zs e.zsSel).getD 0)
  else if o = 0x188 then own e.zsLast
  else 0

/-- VAR (R142). -/
def State.varReg (s : State) (v : View) (d o : Nat) : Nat :=
  let r := (s.dom d).rec_
  if o = 0x140 then fld r.slotFirst 0 14 + fld r.slotCount 14 15
  else if o = 0x144 then fld (s.dueLoadBudget d) 0 16
  else if o = 0x148 then fld r.nsb 0 6 + fld (if r.nsb = 0 then 0 else r.bankFirst) 6 7
  else if o = 0x150 then fld (s.cacheFree d) 0 24
  else if o = 0x154 then fld (s.stageFree d) 0 15
  else if o = 0x160 then (if isPf v then d else 0)
  else 0

/-- KVP (R221). -/
def State.kvpReg (s : State) (v : View) (d o : Nat) : Nat :=
  let k := (s.dom d).kvp
  if o = 0x140 then fld k.h 0 7 + fld k.d32 7 4 + fld k.tpp 11 16
  else if o = 0x144 then fld (s.dom d).kvFree 0 24
  else if o = 0x148 then fld (s.dueOvf d).1 0 13 + fld (s.dueOvf d).2 13 9
  else if o = 0x14C then fld k.commitRows 0 16
  else if o = 0x158 then fld k.dropLog2 0 5
  else if o = 0x15C then k.dropHead.toNat
  else if o = 0x160 then k.dropTail.toNat
  else if o = 0x164 then (if isPf v then d else 0)
  else 0

/-- UPD (R56, R153, R168, R191, R476). -/
def State.updReg (s : State) (v : View) (d o : Nat) : Nat :=
  let u := (s.dom d).upd
  let own (w : Nat) : Nat := if isTenantRegion v then 0 else w
  if o = 0x100 then own (fld u.lsExp 0 6 + fld u.clean 6 11)
  else if o = 0x110 then fld (s.dueRetain d).1 0 7 + fld (s.dueRetain d).2 7 7
  else if o = 0x120 then fld (bit01 u.open_) 0 1 + own (fld (bit01 u.ovf) 1 1 + fld (bit01 u.skip) 2 1)
  else if o = 0x124 then own (u.verifyFirst % 2 ^ 32)
  else 0

def CopyState.code : CopyState → Nat
  | .empty => 0
  | .building => 1
  | .ready => 2
  | .active => 3
  | .retiring => 4

/-- BAS (R246). -/
def State.basReg (s : State) (v : View) (o : Nat) : Nat :=
  let own (w : Nat) : Nat := if isRegion0 v then w else 0
  let old := if s.bas.copy0.state = .retiring then some s.bas.copy0.gen
    else if s.bas.copy1.state = .retiring then some s.bas.copy1.gen else none
  if o = 0x140 then own s.bas.copy0.state.code
  else if o = 0x144 then own s.bas.copy1.state.code
  else if o = 0x148 then s.stampGen
  else if o = 0x14C then fld (s.activeCopy.getD 0) 0 1 + fld (bit01 s.activeCopy.isSome) 1 1
  else if o = 0x150 then own s.bas.regionPages
  else if o = 0x154 then own s.bas.stagePages
  else if o = 0x158 then own s.dueFill
  else if o = 0x15C then own (match old with | some g => s.genStamps g | none => 0)
  else if o = 0x168 then own s.bas.buildDone
  else 0

/-- TIR (R304). -/
def State.tirReg (s : State) (v : View) (d o : Nat) : Nat :=
  let r := (s.dom d).rec_
  if o = 0x120 then fld r.range 0 27
  else if o = 0x124 then fld r.quota 0 18
  else if o = 0x128 then fld (s.dom d).tirFree 0 18
  else if o = 0x12C then fld (s.dueFlashRate d).1 0 7 + fld (s.dueFlashRate d).2 7 7
  else if o = 0x130 then fld (s.dueMigBudget d) 0 10
  else if o = 0x134 then fld r.ns 0 4
  else if o = 0x140 then (if isPf v then d else 0)
  else 0

/-- NVM (R306). -/
def State.nvmReg (s : State) (o : Nat) : Nat :=
  if o = 0x100 then fld (bit01 s.nvm.bifur) 0 1 + fld (bit01 s.nvm.bifurNext) 1 1
  else if o = 0x104 then fld s.nvm.link0.1 0 4 + fld s.nvm.link0.2 4 4
  else if o = 0x108 then fld s.nvm.link1.1 0 4 + fld s.nvm.link1.2 4 4
  else if o = 0x10C then fld s.dueLat 0 16 + fld s.nvm.timeoutMs 16 16
  else 0

/-- The owner of a wheel time as last written (R401). -/
def State.dueSlotTag (s : State) (k : Nat) : Nat :=
  s.fab.slotNext.foldl (fun a w => if w.1 = k then w.2.1 else a) ((mapGet s.fab.slotTags k).getD 0xFFFF)

/-- COL (R401). -/
def State.colReg (s : State) (v : View) (d o : Nat) : Nat :=
  let c := (s.dom d).col
  let own (w : Nat) : Nat := if isRegion0 v then w else 0
  let (tag, rd, wr) := s.duePtag d
  if o = 0x100 then fld tag 0 16 + fld (bit01 rd) 16 1 + fld (bit01 wr) 17 1
  else if o = 0x104 then fld (s.slotsOf c.ptag false) 0 6 + fld (s.slotsOf c.ptag true) 6 6
  else if o = 0x108 then fld c.timeout 0 16
  else if o = 0x10C then fld c.errStatus 0 4 + fld c.errDevice 4 15 + fld (bit01 c.errValid) 31 1
  else if o = 0x110 then (if isPf v then d else 0)
  else if o = 0x180 then own (fld s.fab.slotSel 0 6 + fld (bit01 s.fab.slotClass) 6 1)
  else if o = 0x184 then own (s.dueSlotTag (64 * bit01 s.fab.slotClass + s.fab.slotSel))
  else 0

/-- PCI (R482, R484). -/
def State.pciReg (s : State) (v : View) (o : Nat) : Nat :=
  let p := s.pci
  let own (w : Nat) : Nat := if isRegion0 v then w else 0
  if o = 0x100 then fld p.speed 0 4 + fld p.width 4 5 + fld (bit01 p.dlUp) 9 1
  else if o = 0x104 then own (fld (bit01 p.vfEnable) 0 1 + fld p.numVfs 1 6)
  else if o = 0x110 then own (fld p.errKind 0 8 + fld p.errFn 8 6 + fld (bit01 p.errValid) 31 1)
  else 0

def DomPhase.code : DomPhase → Nat
  | .free => 0
  | .creating => 1
  | .active => 2
  | .preempted => 3
  | .scrubbing => 4

/-- DOM (R428). -/
def State.domReg (s : State) (v : View) (d o : Nat) : Nat :=
  let x := s.dom d
  let r := x.rec_
  let loan := match x.loan with | some (f, n, _) => (f, n) | none => (0, 0)
  if o = 0x100 then (if isPf v then d else 0)
  else if o = 0x104 then
    fld x.phase.code 0 3 + fld (bit01 r.kln3Grad) 3 1 + fld (bit01 r.kln3Mem) 4 1 + fld (bit01 x.held.isSome) 5 1
  else if o = 0x108 then fld r.arrFirstUnit 0 6 + fld r.arrUnits 6 7 + fld loan.1 13 6 + fld loan.2 19 7
  else if o = 0x10C then fld r.bankFirst 0 7 + fld r.banks 7 7 + fld r.nsb 14 6
  else if o = 0x110 then fld r.winFirst 0 7 + fld r.winBanks 7 6
  else if o = 0x114 then fld x.ovh 0 18
  else if o = 0x118 then (if isRegion0 v then fld s.freeFrames 0 18 else 0)
  else 0

/-- LKS (R435, R460). -/
def State.lksReg (s : State) (v : View) (d o : Nat) : Nat :=
  let own (w : Nat) : Nat := if isRegion0 v then w else 0
  let k := (s.dom d).keys
  if o = 0x160 then
    fld s.fuses.life.code 0 3 + fld s.fuses.pending.code 3 3 + fld (bit01 s.boot.bootSecondary) 6 1 +
      fld (bit01 s.boot.bootFailed) 7 1 + fld (bit01 s.boot.unlocked) 8 1
  else if o = 0x164 then own (fld s.boot.fwSvn 0 16 + fld s.fuses.minSvn 16 16)
  else if o = 0x168 then own (k.keyGen % 2 ^ 32)
  else if o = 0x16C then own (fld (bit01 k.sweeping) 0 1 + fld (bit01 k.prevLive) 1 1)
  else if o = 0x170 then own (fld k.rotBudget 0 10)
  else if o = 0x174 then (if isPf v then d else 0)
  else if 0x180 ≤ o ∧ o < 0x1A0 then (s.challengeNat >>> (8 * (o - 0x180))) % 2 ^ 32
  else 0

/-- Frames of the shown scrub that are finished, by the time outside refresh pauses since t+4 µs (R272, R448, R461); open while the device wipe runs (log 80). -/
def State.fulProgress (s : State) : Nat :=
  if s.ful.full then Config.freeNat s.freeCtr % frameCount
  else match s.ful.running with
    | [] => 0
    | d :: _ =>
      let x := s.dom d
      let ns : Rat := (s.tik.timeNs - (x.scrubStartNs + 4000) : Nat)
      let share : Rat := 1 - (pauseNs s.memg.tickMode : Rat) / 125000
      min (x.rec_.quota + x.ovh) ((ns * share * x.rate * 512 / 5 / 4194304).floor.toNat)

/-- FUL (R461). -/
def State.fulReg (s : State) (o : Nat) : Nat :=
  let d := s.ful.running.headD 0
  let busy := s.ful.full || !s.ful.running.isEmpty
  if o = 0x100 then
    fld (bit01 busy) 0 1 + fld (if s.ful.full then 0 else d) 1 6 + fld (bit01 s.ful.full) 7 1 +
      fld (if !busy then 0 else if !s.ful.full ∧ (s.dom d).scrubStartNs + 1004000 ≤ s.tik.timeNs then 2 else 1) 8 2
  else if o = 0x104 then fld s.fulProgress 0 18
  else 0

/-- PWR (R356, R357). -/
def State.pwrReg (s : State) (v : View) (o : Nat) : Nat :=
  let p := s.pwr
  let own (w : Nat) : Nat := if isRegion0 v then w else 0
  if o = 0x100 then own (fld p.ceil 0 4 + fld p.floor 4 4 + fld p.capW 8 12)
  else if o = 0x104 then own (fld p.tjTarget 0 8 + fld p.dramTarget 8 8)
  else if o = 0x108 then
    fld s.tik.step 0 4 + own (fld p.next 4 4 + fld (bit01 p.nextValid) 8 1 + fld (bit01 p.override) 9 1 + fld p.ovrCause 10 3)
  else if o = 0x10C then fld p.edom 0 28
  else if o = 0x110 then own (fld p.pInW 0 12 + fld p.vInDv 12 10)
  else if o = 0x114 then own (fld p.tjMax 0 8 + fld p.tHotLast 8 8)
  else if o = 0x118 then own (fld p.pFix 0 12)
  else if o = 0x11C then 0x00040001
  else 0

/-- BDG (R354, R359). -/
def State.bdgReg (s : State) (o : Nat) : Nat :=
  let k := s.bdg.sel
  if o = 0x100 then k
  else if o = 0x104 then
    fld (s.fuses.vPlan.getD k 0) 0 10 + fld (s.fuses.vReq.getD k 0) 10 10 + fld (contractMv k) 20 10 +
      fld (bit01 (s.bdg.unavail.contains k)) 30 1
  else if o = 0x108 then fld (s.guardNow % 2048).toNat 0 11 + fld s.daysLeft 16 16
  else if o = 0x10C then s.bdg.lastTick % 2 ^ 32
  else 0

/-- The life-cycle states that take a rounding test key and BLK_EVENT_SET (R436, R470, R486). -/
def State.testState (s : State) : Bool := s.fuses.life == .devel || s.fuses.life == .return_

/-- DBG (R485). -/
def State.dbgReg (s : State) (o : Nat) : Nat :=
  let test := match (s.dom s.dbg.domain).keys.round with
    | .test _ => s.testState
    | .drawn _ => false
    | .none => false
  if o = 0x110 then fld s.dbg.domain 0 6 + fld (bit01 test) 7 1
  else if o = 0x128 then fld s.dbg.traceLog2 0 5 + fld (bit01 s.dbg.traceEn) 5 1
  else if o = 0x12C then s.dbg.traceHead.toNat
  else 0

/-- MEM (R284): a global field reads the same in the pages of all stacks. -/
def State.memReg (s : State) (v : View) (stack d o : Nat) : Nat :=
  let x := s.mbd stack
  let own (w : Nat) : Nat := if isRegion0 v then w else 0
  if o = 0x100 then fld (bit01 s.memg.tmode) 0 1 + fld (bit01 s.memg.tmodeNext) 1 1
  else if o = 0x104 then own (fld s.dueMaint.1 0 8 + fld s.dueMaint.2 8 16)
  else if o = 0x108 then (if isPf v then d else 0)
  else if o = 0x10C then fld (s.dueRates d).1 0 9 + fld (s.dueRates d).2 16 7
  else if o = 0x110 then own (fld x.tempC 0 8 + fld s.memg.refMode 8 2)
  else if o = 0x114 then own (64 - x.sparesUsed.length)
  else if o = 0x118 then own (fld x.retired.length 0 18)
  else if o = 0x11C then own (fld (x.retired.headD 0) 0 18)
  else 0

def PortState.code : PortState → Nat
  | .down => 0
  | .training => 1
  | .keying => 2
  | .up => 3
  | .miswired => 4
  | .failed => 5

/-- FAB (R399). -/
def State.fabReg (s : State) (port o : Nat) : Nat :=
  let x := s.port port
  if o = 0x100 then fld s.fab.self 0 15 + fld (bit01 s.fab.selfValid) 15 1
  else if o = 0x104 then bit01 x.enable
  else if o = 0x108 then
    fld x.state.code 0 3 + fld (bit01 x.half) 3 1 + fld (bit01 x.halfSel) 4 1 + fld (bit01 x.secure) 5 1 + fld (bit01 x.keyId) 6 1
  else if o = 0x10C then fld x.peerDevice 0 15 + fld x.peerPort 15 5
  else if o = 0x110 then fld x.delayPs 0 24
  else if o = 0x114 then fld x.eyeMv 0 8 + fld x.eyeLane 8 3
  else if o = 0x118 then fld s.fab.parentPort 0 5 + fld s.fab.depth 5 5
  else 0

/-- ARG (R323, R212, R479). -/
def State.argReg (s : State) (v : View) (u o : Nat) : Nat :=
  let x := s.unit u
  let inRange (f n : Nat) : Bool := decide (f ≤ u) && decide (u < f + n)
  if o = 0x100 then
    (match s.ownerOf u with
     | some (d, loan) =>
       let y := s.dom d
       let ovf := y.kvp.ovfCount != 0 && decide (y.kvp.ovfFirst < 128 * u + 128) && decide (128 * u < y.kvp.ovfFirst + y.kvp.ovfCount)
       fld d 0 6 + fld 1 6 1 + fld (bit01 loan) 7 1 + fld (bit01 (inRange y.rtFirst y.rtUnits)) 8 1 + fld (bit01 ovf) 9 1
     | none => 0) + fld (bit01 x.clearing) 10 1
  else if o = 0x104 then
    (if isRegion0 v then match s.loans.find? (fun l => inRange l.1 l.2.1) with | some l => l.2.2 | none => 0 else 0)
  else if o = 0x118 then
    fld x.errArray 0 7 + fld (bit01 x.errAcc) 7 1 + fld x.errEntry 8 6 + fld (bit01 x.errValid) 31 1
  else 0

/-- A 32-bit register of a present page. -/
def State.wordReg (s : State) (v : View) (p o : Nat) : Nat :=
  let d := s.viewDom v p
  if o < 0x40 then s.headerReg v p o
  else if p = pTik then s.tikReg v d o
  else if p = pVec then s.vecReg v d o
  else if p = pVar then s.varReg v d o
  else if p = pKvp then s.kvpReg v d o
  else if p = pUpd then s.updReg v d o
  else if p = pBas then s.basReg v o
  else if p = pTir then s.tirReg v d o
  else if p = pNvm then s.nvmReg o
  else if p = pCol then s.colReg v d o
  else if p = pPci then s.pciReg v o
  else if p = pDom then s.domReg v d o
  else if p = pLks then s.lksReg v d o
  else if p = pFul then s.fulReg o
  else if p = pPwr then s.pwrReg v o
  else if p = pBdg then s.bdgReg o
  else if p = pDbg then s.dbgReg o
  else if 0x10 ≤ p ∧ p ≤ 0x17 then s.memReg v (p - 0x10) d o
  else if 0x20 ≤ p ∧ p ≤ 0x31 then s.fabReg (p - 0x20) o
  else if 0x40 ≤ p then s.argReg v (p - 0x40) o
  else 0

/-- What a 32-bit read returns at an offset of a page, a multiple of 4, without the latch of R10 (R405, R473). -/
def State.readWord (s : State) (v : View) (p o : Nat) : Nat :=
  if !s.shows v p then 0
  else match s.wideReg v p (o / 8 * 8) with
    | some w => if o % 8 = 0 then w % 2 ^ 32 else w / 2 ^ 32 % 2 ^ 32
    | none => s.wordReg v p o

/-! ## Reading a counter in halves (R10, R468, R473) -/

/-- The 64-bit values that are read by R10: the counters, TIK_TIME, TIK_STRETCH_NSc and FUL_LAST_NS (R331, R461). -/
def latchedReg (p o : Nat) : Bool :=
  (decide (0x40 ≤ o) && decide (o < 0x80)) || (p == pTik && (o == 0x110 || (decide (0x208 ≤ o) && decide (o ≤ 0x2B0)))) ||
    (p == pFul && o == 0x108)

/-- Key of a function's latch for the 64-bit register at o. -/
def State.latchKey (s : State) (v : View) (p o : Nat) : Nat := 2 ^ 24 * viewFn v + 2 ^ 18 * s.viewDom v p + 1024 * p + o / 4

/-- A 32-bit read of a counter's low word latches its high word for the function (R10). -/
def State.readLow (s : State) (v : View) (p o : Nat) : State :=
  let lo := s.readWord v p o
  let s1 := s.emit (.value (viewFn v) (w64 lo))
  if s.shows v p ∧ latchedReg p o ∧ o % 8 = 0 then
    { s1 with latches := mapSet s1.latches (s.latchKey v p o) (w32 (s.readWord v p (o + 4))) }
  else s1

/-- A 32-bit read of a high word takes the pending latch, or the live word (R10). -/
def State.readHigh (s : State) (v : View) (p o : Nat) : State :=
  let k := s.latchKey v p (o - 4)
  match mapGet s.latches k with
  | some h =>
    if s.shows v p ∧ latchedReg p (o - 4) ∧ o % 8 = 4 then
      ({ s with latches := mapDel s.latches k }).emit (.value (viewFn v) (h.setWidth 64))
    else s.emit (.value (viewFn v) (w64 (s.readWord v p o)))
  | none => s.emit (.value (viewFn v) (w64 (s.readWord v p o)))

/-- A read needs a function that answers (R403, R407). -/
def State.answers (s : State) (v : View) : Bool :=
  (s.boot.phase == .running || (s.boot.phase == .romOnly && isPf v)) &&
    (match v with | .pf _ => !s.pci.d3hot | .vf n => s.vfUp n.val)

/-- A 32-bit read at the low word of a counter (R10, R473); a misaligned one returns zero. -/
def execCounterLowRead (v : View) (page : Byte) (offset : Nat) (s : State) : Host.Outcome State Fault Refusal :=
  .next (if !s.answers v then s
  else if offset % 8 = 0 ∧ offset < 4096 then s.readLow v page.toNat offset
  else s.emit (.value (viewFn v) 0))

/-- A 32-bit read at the high word of a counter (R10). -/
def execCounterHighRead (v : View) (page : Byte) (offset : Nat) (s : State) : Host.Outcome State Fault Refusal :=
  .next (if !s.answers v then s
  else if offset % 8 = 4 ∧ offset < 4096 then s.readHigh v page.toNat offset
  else s.emit (.value (viewFn v) 0))

end Sys2Proof.Machine
end

