-- ==== Sys2Proof/Machine/Regs.lean ====
section
/-! DEFINITION. Writing the register pages: every field that a write reaches, by its access code and effect, and the commands of the table that are such writes (R9, R45, R56, R60, R113, R114, R123, R130, R142, R153, R205, R212, R221, R246, R268, R269, R275, R284, R304, R306, R310, R311, R319, R321, R323, R331, R348, R357, R359, R360, R365, R366, R375, R399, R401, R406 to R413, R428, R436, R460, R463 to R476, R479, R482, R485 to R487, R508). A view that does not show a register, or shows it read-only, ignores the write. -/

namespace Sys2Proof.Machine

/-! ## The common header (R465, R468 to R470, R472) -/

/-- A W1C write of BLK_EVENT clears the shown bits of the writing view's copy (R408, R469). -/
def State.clearEvents (s : State) (v : View) (p : Nat) (mask : W32) : State :=
  if !s.shows v p then s
  else
    let c := s.viewCopy v p
    let w := s.view c p
    s.putView c p { w with event := w.event &&& ~~~(mask &&& w32 (viewEvents v p)) }

/-- A write of BLK_EVENT_EN; enabling a bit that is already set sends the vector (R408). -/
def State.enableEvents (s : State) (v : View) (p : Nat) (mask : W32) : State :=
  if !s.shows v p then s
  else
    let c := s.viewCopy v p
    let w := s.view c p
    let s1 := s.putView c p { w with enable := mask }
    match blockOf p with
    | some b => if w.event &&& mask &&& ~~~w.enable = 0 then s1 else s1.msix (copyFn c) (2 + b)
    | none => s1

/-- A write of BLK_EVENT_SET: in DEVEL and RETURN only (R470). -/
def State.setEvents (s : State) (v : View) (p : Nat) (mask : W32) : State :=
  if s.shows v p ∧ s.testState then s.setEvent (s.viewCopy v p) p (mask &&& w32 (viewEvents v p)) else s

/-- A 1 written to BLK_LOCK in region 0 (R472). -/
def State.lockPage (s : State) (v : View) (p : Nat) : State :=
  if s.shows v p ∧ isRegion0 v then { s with locked := numAdd s.locked p } else s

/-- A write of CNT_MODE: 1 takes a new copy of all the page's counters (R468). -/
def State.setCntMode (s : State) (v : View) (p : Nat) (mode : BitVec 2) : State :=
  if !s.shows v p then s
  else
    let c := modeCopy v
    s.putView c p { s.view c p with cntMode := mode, frozen := if mode = 1 then s.liveCounters v p else [] }

/-! ## TIK (R307, R310, R311, R319, R321, R323, R331) -/

/-- Limits of R310 and R307 on LEN, S, G and CUT, with a window of `w` µs. -/
def tickOk (len se gd cut w : Nat) : Bool :=
  decide (5000 ≤ len) && decide (len ≤ 2000000) && decide (4 ≤ se) && decide (1 ≤ gd) && decide (gd + 3 ≤ se) &&
    decide (40 ≤ cut) && decide (100 * cut ≤ len) && decide (1000 * (w + se) + 14000 ≤ 10 * len)

/-- The tick from which a change of LEN or TIK_PHASE written now applies (R311). -/
def State.tickOfChange (s : State) : Nat := (s.tik.tick + 31) / 16 * 16

/-- TIK_LEN (`phase` false) or TIK_PHASE: checked, and applied by the master alone (R310, R311). -/
def State.writeTick (s : State) (v : View) (phase : Bool) (w : Nat) : State :=
  let (len0, se0, gd0, cut0) := s.tik.dueTick
  let len := if phase then len0 else bitsOf w 0 21
  let se := if phase then bitsOf w 0 8 else se0
  let gd := if phase then bitsOf w 8 6 else gd0
  let cut := if phase then bitsOf w 14 16 else cut0
  if !s.shows v pTik || !isPf v then s
  else if !(tickOk len se gd cut s.memg.maintLen && tickOk len se gd cut s.dueMaint.1) then s.raiseDev pTik 0
  else if !s.tik.isMaster then s
  else
    let n := s.tickOfChange
    s.updTik (fun t => match t.next with
      | none => { t with next := some (n, len, se, gd, cut) }
      | some (m, q) =>
        if n ≤ m then { t with next := some (m, len, se, gd, cut) }
        else { t with next := some (m, q), later := some (n, len, se, gd, cut) })

/-- TIK_SHARE (R321, R331). -/
def State.writeShare (s : State) (v : View) (w : Nat) : State :=
  let d := s.viewDom v pTik
  let n := bitsOf w 0 10
  if !s.shows v pTik || !isPf v then s
  else if n = 0 ∨ s.tik.wCap < (s.otherShares d).1 + n then s.raiseDom pTik 0 d
  else s.defer (.weight d n)

/-- TIK_PLAN_SLOTS (R319, R331). -/
def State.writePlanSlots (s : State) (v : View) (w : Nat) : State :=
  let d := s.viewDom v pTik
  let n := bitsOf w 0 13
  let others := (s.doms.map (fun p => if p.1 = d then 0 else s.dueSlots p.1)).sum
  if !s.shows v pTik || !isPf v then s
  else if 4096 < others + n then s.raiseDom pTik 0 d
  else s.defer (.slots d n)

/-- TIK_RT_ARRAYS (R323, R331). -/
def State.writeRtArrays (s : State) (d w : Nat) : State :=
  let f := bitsOf w 0 6
  let n := bitsOf w 6 7
  if (List.range' f n).all (fun u => (s.unitsOf d).contains u) then s.defer (.rtArrays d f n) else s.raiseDom pTik 0 d

/-- The 32-bit registers of TIK. -/
def State.writeTikReg (s : State) (v : View) (d o w : Nat) : State :=
  if o = 0x100 then s.writeTick v false w
  else if o = 0x104 then s.writeTick v true w
  else if o = 0x108 then
    (if isPf v && !s.locked.contains pTik then s.updTik (fun t => { t with prio := bitsOf w 0 8, refExt := bitOf w 8 }) else s)
  else if o = 0x118 then
    (if isPf v && !s.locked.contains pTik then
      (if bitsOf w 0 16 < (s.otherShares 64).1 then s.raiseDev pTik 0 else s.updTik (fun t => { t with wCap := bitsOf w 0 16 }))
    else s)
  else if o = 0x11C then (if isRegion0 v then s.updTik (fun t => { t with domSel := bitsOf w 0 6 }) else s)
  else if o = 0x120 then s.writeShare v w
  else if o = 0x124 then s.writePlanSlots v w
  else if o = 0x128 then (if isPf v then s.defer (.rtEnergy d (bitsOf w 0 28)) else s)
  else if o = 0x12C then (if isPf v then s.writeRtArrays d w else s)
  else s

/-! ## VEC (R45, R60, R113, R114, R476) -/

/-- VEC_RECIPE_k, in region 0 alone (R45, R472, R475): a value outside R44 is rejected whole. -/
def State.writeRecipe (s : State) (v : View) (k w : Nat) : State :=
  let f := bitsOf w 0 4
  if !s.shows v pVec || !isRegion0 v || s.locked.contains pVec then s
  else if !recipeAllows k f || (bitOf w 8 && !recipeEscapes k f) then s.raiseDev pVec 0
  else s.defer (.recipe k { fmt := f, escEn := bitOf w 8, escShift := bitsOf w 9 2 })

/-- A view of VEC that holds the domain's own statistics: not PF regions 1 to 63 (R476). -/
def State.ownVec (s : State) (v : View) : Bool := s.shows v pVec && !isTenantRegion v

/-- VEC_HIST_SEL copies a slot into the count and data registers (R113). -/
def State.writeHistSel (s : State) (v : View) (slot : Nat) : State :=
  if !s.ownVec v then s
  else s.updDom (s.viewDom v pVec) (fun x => x.updVec (fun e =>
    let h := (mapGet e.hist slot).getD []
    { e with histSel := slot, histCount := h.length, histData := (h ++ List.replicate 16 0).take 16 }))

/-- VEC_HIST_COMMIT replaces the slot, unless an admitted slab that has not completed names it (R113). -/
def State.commitHist (s : State) (v : View) (count : Nat) : State :=
  let d := s.viewDom v pVec
  let e := (s.dom d).vec
  if !s.ownVec v || decide (16 < count) then s
  else if (s.dom d).slabs.any (fun b => b.admitted && (s.histSlots d b.words).contains e.histSel) then s.raiseDom pVec 1 d
  else s.updDom d (fun x => x.updVec (fun y =>
    { y with hist := if count = 0 then mapDel y.hist y.histSel else mapSet y.hist y.histSel (y.histData.take count) }))

/-- VEC_ZS_VALUE sets the selected counter while no update step is open, and re-arms GRAD_SILENT below LIMIT (R114). -/
def State.writeZs (s : State) (v : View) (w : Nat) : State :=
  let d := s.viewDom v pVec
  if !s.ownVec v || (s.dom d).upd.open_ then s
  else s.updDom d (fun x => x.updVec (fun e =>
    { e with zs := if w = 0 then mapDel e.zs e.zsSel else mapSet e.zs e.zsSel w,
             zsRaised := if w < e.limit then numDel e.zsRaised e.zsSel else e.zsRaised }))

/-- The 32-bit registers of VEC. -/
def State.writeVecReg (s : State) (v : View) (d o w : Nat) : State :=
  let set (f : VecDom → VecDom) : State := s.updDom d (fun x => x.updVec f)
  if 0x100 ≤ o ∧ o < 0x11C then s.writeRecipe v ((o - 0x100) / 4) w
  else if o = 0x120 then set (fun e => { e with zsLimit := bitsOf w 0 10 })
  else if o = 0x130 then s.writeHistSel v (bitsOf w 0 7)
  else if o = 0x138 then s.commitHist v (bitsOf w 0 5)
  else if 0x140 ≤ o ∧ o < 0x180 then
    (if isTenantRegion v then s else set (fun e => { e with histData := e.histData.set ((o - 0x140) / 4) (w32 w) }))
  else if o = 0x180 then set (fun e => { e with zsSel := bitsOf w 0 10 })
  else if o = 0x184 then s.writeZs v w
  else s

/-! ## UPD (R56, R153, R476) -/

/-- UPD_LOSS_SCALE LS_EXP: ignored while a step is open, and above 40 (R56). -/
def State.writeLossScale (s : State) (v : View) (w : Nat) : State :=
  let d := s.viewDom v pUpd
  let n := bitsOf w 0 6
  if !s.shows v pUpd || isTenantRegion v || (s.dom d).upd.open_ || decide (40 < n) then s
  else s.updDom d (fun x => x.updUpd (fun u => { u with lsExp := n, clean := if n = u.lsExp then u.clean else 0 }))

/-- UPD_RETAIN, in a PF view: its banks must be the domain's and no staging banks, and no batch may be open (R153). -/
def State.writeRetain (s : State) (v : View) (w : Nat) : State :=
  let d := s.viewDom v pUpd
  let r := (s.dom d).rec_
  let f := bitsOf w 0 7
  let n := bitsOf w 7 7
  if !s.shows v pUpd || !isPf v || !(s.dom d).batches.isEmpty then s
  else if n != 0 && (decide (f < r.bankFirst + r.nsb) || decide (r.bankFirst + r.banks < f + n)) then s
  else s.defer (.retain d f n)

/-! ## VAR, KVP, TIR, BAS, NVM (R142, R205, R221, R246, R304, R306) -/

/-- The 32-bit registers of KVP; a range of overflow arrays must be held by the domain, and SIZE_LOG2 is at most 16 (R212, R221; log 78). -/
def State.writeKvpReg (s : State) (v : View) (d o w : Nat) : State :=
  let set (f : KvpDom → KvpDom) : State := s.updDom d (fun x => x.updKvp f)
  if o = 0x140 then s.writeGeom d w
  else if o = 0x148 then
    let f := bitsOf w 0 13
    let n := bitsOf w 13 9
    (if isPf v && decide (n ≤ 256) && (List.range' f n).all (fun a => (s.unitsOf d).contains (a / 128)) then s.defer (.ovf d f n) else s)
  else if o = 0x14C then (if isPf v then set (fun k => { k with commitRows := bitsOf w 0 16 }) else s)
  else if o = 0x158 then (if bitsOf w 0 5 ≤ 16 then set (fun k => { k with dropLog2 := bitsOf w 0 5 }) else s)
  else if o = 0x160 then set (fun k => { k with dropTail := w32 w })
  else if o = 0x164 then (if isRegion0 v then { s with sels := mapSet s.sels pKvp (bitsOf w 0 6) } else s)
  else s

/-- TIR_FLASH_RATE: neither sum may exceed 112 (R304). -/
def State.writeFlashRate (s : State) (v : View) (w : Nat) : State :=
  let d := s.viewDom v pTir
  let rd := bitsOf w 0 7
  let wr := bitsOf w 7 7
  let others (f : Nat × Nat → Nat) : Nat := (s.doms.map (fun p => if p.1 = d then 0 else f (s.dueFlashRate p.1))).sum
  if !s.shows v pTir || !isPf v then s
  else if 112 < others Prod.fst + rd ∨ 112 < others Prod.snd + wr then s.raiseDom pTir 4 d
  else s.defer (.flashRate d rd wr)

/-- The 32-bit registers of TIR. -/
def State.writeTirReg (s : State) (v : View) (d o w : Nat) : State :=
  if o = 0x12C then s.writeFlashRate v w
  else if o = 0x130 then (if isPf v then s.defer (.migBudget d (bitsOf w 0 10)) else s)
  else if o = 0x140 then (if isRegion0 v then { s with sels := mapSet s.sels pTir (bitsOf w 0 6) } else s)
  else s

/-- The 32-bit registers of VAR. -/
def State.writeVarReg (s : State) (v : View) (d o w : Nat) : State :=
  if o = 0x144 then (if isPf v then s.defer (.loadBudget d (bitsOf w 0 16)) else s)
  else if o = 0x160 then (if isRegion0 v then { s with sels := mapSet s.sels pVar (bitsOf w 0 6) } else s)
  else s

/-- The 32-bit registers of BAS, in region 0 (R246, R472); the two page counts are fixed from the first BUILD on (R230). -/
def State.writeBasReg (s : State) (o w : Nat) : State :=
  let lock := s.locked.contains pBas || s.bas.regionTaken
  if o = 0x150 then (if lock then s else s.updBas (fun b => { b with regionPages := bitsOf w 0 24 }))
  else if o = 0x154 then (if lock then s else s.updBas (fun b => { b with stagePages := bitsOf w 0 24 }))
  else if o = 0x158 then s.defer (.fillBudget (bitsOf w 0 16))
  else s

/-- The 32-bit registers of NVM, in region 0 (R306); TIMEOUT_MS is 1 to 65,535 (log 78). -/
def State.writeNvmReg (s : State) (o w : Nat) : State :=
  if o = 0x100 then
    (if s.locked.contains pNvm then s else { s with nvm := { s.nvm with bifurNext := bitOf w 1 } })
  else if o = 0x10C then
    let s1 := s.defer (.nvmLat (bitsOf w 0 16))
    let s2 : State := { s1 with nvm := { s.nvm with timeoutMs := bitsOf w 16 16 } }
    if bitsOf w 16 16 = 0 then s1 else s2
  else s

/-- NVM_NS_MAPk: written while no extent uses the namespace; one whose format is refused does not attach (R302, R306). -/
def State.writeNsMap (s : State) (k w : Nat) : State :=
  let used := s.doms.any (fun p => p.2.heldRecords.any (fun r => r.ns == k + 1)) || s.doms.any (fun p => match p.2.held with
    | some (r, _) => r.ns == k + 1
    | none => false)
  let m := w % 2 ^ 34
  let bad := bitOf m 33 && !Config.nsFormatOk (m % 2 ^ 33)
  if used then s
  else
    let kept := if bad then m % 2 ^ 33 else m
    let s1 : State := { s with nvm := { s.nvm with nsMap := s.nvm.nsMap.set k (w64 kept) } }
    if bad then s1.raiseDev pNvm 2 else s1

/-! ## COL (R375, R401) -/

/-- COL_PTAG: no two domains hold the same tag (R375). -/
def State.writePtag (s : State) (v : View) (w : Nat) : State :=
  let d := s.viewDom v pCol
  let tag := bitsOf w 0 16
  if !s.shows v pCol || !isPf v then s
  else if tag != 0xFFFF && s.doms.any (fun p => p.1 != d && (p.2.col.ptag == tag || (s.duePtag p.1).1 == tag)) then s.raiseDom pCol 2 d
  else s.defer (.ptag d tag (bitOf w 16) (bitOf w 17))

/-- COL_SLOT_TAG, in region 0: in force from the first latch whose tick is a multiple of 64 and at least 64 ticks away (R401). -/
def State.writeSlotTag (s : State) (v : View) (w : Nat) : State :=
  if s.shows v pCol ∧ isRegion0 v then
    s.updFab (fun f =>
      { f with slotNext := f.slotNext ++ [(64 * bit01 f.slotClass + f.slotSel, bitsOf w 0 16, (s.tik.tick + 127) / 64 * 64)] })
  else s

/-- The 32-bit registers of COL; TICKS is 1 to 65,535 (R401; log 78). -/
def State.writeColReg (s : State) (v : View) (d o w : Nat) : State :=
  if o = 0x100 then s.writePtag v w
  else if o = 0x108 then
    (if isPf v && bitsOf w 0 16 != 0 then s.updDom d (fun x => x.updCol (fun c => { c with timeout := bitsOf w 0 16 })) else s)
  else if o = 0x10C then (if bitOf w 31 then s.updDom d (fun x => x.updCol (fun c => { c with errValid := false })) else s)
  else if !isRegion0 v then s
  else if o = 0x110 then s.updFab (fun f => { f with colDomSel := bitsOf w 0 6 })
  else if o = 0x180 then s.updFab (fun f => { f with slotSel := bitsOf w 0 6, slotClass := bitOf w 6 })
  else if o = 0x184 then s.writeSlotTag v w
  else s

/-! ## MEM (R254, R268, R269, R275, R284) -/

/-- CFG_REJECT of a write to the rates of a domain; a domain that takes no events has it in the writer's copy alone (R269, R521; log 150). -/
def State.rejectRates (s : State) (v : View) (d : Nat) : State :=
  if s.live d then s.raiseDom 0x10 0 d else s.raiseCopy 0x10 0 (s.viewCopy v 0x10)

/-- MEM_REG_RATE of the shown domain: the totals over all domains keep R269, and a tenant that is not FREE keeps a rate (R521). -/
def State.writeRates (s : State) (v : View) (w : Nat) : State :=
  let d := s.viewDom v 0x10
  let o := s.otherShares d
  let r := bitsOf w 0 9
  let t := bitsOf w 16 7
  if !s.shows v 0x10 || !isPf v then s
  else if d ≠ 0 ∧ ((s.dom d).phase = .scrubbing ∨ ((s.dom d).phase ≠ .free ∧ r = 0)) then s.rejectRates v d
  else if !s.ratesOk (o.2.1 + r) (o.2.2 + t) then s.rejectRates v d
  else s.defer (.rates d r t)

/-- A window of `len` µs suits a tick length and settle length (R275). -/
def windowFits (len tickLen settleUs : Nat) : Bool := decide (200 * len ≤ tickLen) && decide (1000 * (len + settleUs) + 14000 ≤ 10 * tickLen)

/-- MEM_MAINT, in region 0 (R275; log 81). -/
def State.writeMaint (s : State) (v : View) (w : Nat) : State :=
  let len := bitsOf w 0 8
  let every := bitsOf w 8 16
  let fits (q : Option (Nat × Nat × Nat × Nat × Nat)) : Bool := match q with
    | some (_, l, se, _, _) => windowFits len l se
    | none => true
  if !s.shows v 0x10 || !isRegion0 v then s
  else if every = 0 ∨ 200 < len ∨ !(windowFits len s.tik.len s.tik.settleUs && fits s.tik.next && fits s.tik.later) then s.raiseDev 0x10 0
  else s.defer (.maint len every)

/-- The 32-bit registers of MEM: global fields act in the page of stack 0 alone. -/
def State.writeMemReg (s : State) (v : View) (p o w : Nat) : State :=
  if p ≠ 0x10 then s
  else if o = 0x100 then
    (if isPf v && !s.locked.contains 0x10 then s.updMemg (fun m => { m with tmodeNext := bitOf w 1 }) else s)
  else if o = 0x104 then s.writeMaint v w
  else if o = 0x108 then (if isRegion0 v then s.updMemg (fun m => { m with regSel := bitsOf w 0 6 }) else s)
  else if o = 0x10C then s.writeRates v w
  else s

/-! ## FAB (R360, R365, R366, R399, R508) -/

/-- FAB_CTRL RETRAIN: a port that is enabled trains again once training has started (R365, R366, R508). -/
def State.retrainPort (s : State) (v : View) (port : Nat) : State :=
  if s.shows v (pFab port) ∧ (s.port port).enable ∧ s.fab.trainStart.isSome ∧ s.fab.selfValid then
    ((s.portDown port .training).updPort port (fun x => { x with signal := true })).nameSelf port
  else s

/-- FAB_CTRL ENABLE: 0 holds the port DOWN; a port that is enabled again waits for its peer's signal (R399, R508). -/
def State.enablePort (s : State) (v : View) (port : Nat) (on : Bool) : State :=
  if !s.shows v (pFab port) || (s.port port).enable == on then s
  else if on then s.updPort port (fun x => { x with enable := true, signal := false })
  else (s.portDown port .down).updPort port (fun x => { x with enable := false, signal := false })

/-- The 32-bit registers of FAB, in region 0. -/
def State.writeFabReg (s : State) (v : View) (port o w : Nat) : State :=
  if o = 0x100 then
    (if port = 0 ∧ !s.locked.contains 0x20 then s.updFab (fun f => { f with self := bitsOf w 0 15, selfValid := bitOf w 15 }) else s)
  else if o = 0x104 then
    let s1 := s.enablePort v port (bitOf w 0)
    if bitOf w 1 then s1.retrainPort v port else s1
  else s

/-! ## DBG (R485 to R487) -/

/-- DBG_TEST_CTRL APPLY: in DEVEL and RETURN, for a domain that is ACTIVE or PREEMPTED (R486). -/
def State.applyKey (s : State) (v : View) (d : Nat) : State :=
  if s.shows v pDbg ∧ s.testState ∧ (s.dom d).alive then
    s.updDom d (fun x => x.updKeys (fun k => { k with applyPending := some s.dbg.testKey }))
  else s

/-- DBG_TRACE_CFG: SIZE_LOG2 is ignored while EN is 1; setting EN restarts HEAD (R485, R487). -/
def State.writeTraceCfg (s : State) (v : View) (w : Nat) : State :=
  if !s.shows v pDbg then s
  else s.updDbg (fun g =>
    { g with traceLog2 := if g.traceEn then g.traceLog2 else bitsOf w 0 5, traceEn := bitOf w 5,
             traceHead := if bitOf w 5 && !g.traceEn then 0 else g.traceHead })

/-- The 32-bit registers of DBG, in region 0. -/
def State.writeDbgReg (s : State) (v : View) (o w : Nat) : State :=
  if 0x100 ≤ o ∧ o < 0x110 then
    let k := (o - 0x100) / 4
    (if s.testState then s.updDbg (fun g => { g with testKey := BitVec.ofNat 128 (setBits g.testKey.toNat (32 * k) 32 w) }) else s)
  else if o = 0x110 then
    let s1 := s.updDbg (fun g => { g with domain := bitsOf w 0 6 })
    if bitOf w 6 then s1.applyKey v (bitsOf w 0 6) else s1
  else if o = 0x128 then s.writeTraceCfg v w
  else s

/-! ## Commands written as register words (R123, R220, R245, R290, R326, R459) -/

/-- The state of a command that goes on. -/
def nextOf (o : Host.Outcome State Fault Refusal) (s : State) : State :=
  match o with
  | .next t => t
  | _ => s

/-- VAR_CMD; a reserved OP is BAD_ARG (R123). -/
def State.varWord64 (s : State) (v : View) (w : W64) : State :=
  let slot := w.extractLsb' 4 14
  let gen := w.extractLsb' 18 16
  let rsv := w.extractLsb' 34 30
  match (w.extractLsb' 0 4).toNat with
  | 1 => nextOf (execClaim v true slot gen rsv s) s
  | 2 => nextOf (execLoad v true slot gen rsv s) s
  | 3 => nextOf (execPark v true slot gen rsv s) s
  | 4 => nextOf (execRelease v true slot gen rsv s) s
  | 5 => nextOf (execStage v true slot gen rsv s) s
  | 6 => nextOf (execUnstage v true slot gen rsv s) s
  | 7 => nextOf (execVarQuery v true slot gen rsv s) s
  | 8 => nextOf (execExpertClaim v true slot gen rsv s) s
  | 9 => nextOf (execExpertRelease v true slot gen rsv s) s
  | 10 => nextOf (execFlush v true slot gen rsv s) s
  | op => s.varCmd v true op slot.toNat 1 (fun _ _ t => t.varSays slot.toNat 5)

/-- KVP_CMD (R220). -/
def State.kvpWord64 (s : State) (v : View) (w : W64) : State :=
  let seq := w.extractLsb' 4 16
  let rsv := w.extractLsb' 20 44
  match (w.extractLsb' 0 4).toNat with
  | 1 => nextOf (execSeqOpen v true seq rsv s) s
  | 2 => nextOf (execSeqClose v true seq rsv s) s
  | 3 => nextOf (execKvpCommit v true seq rsv s) s
  | 4 => nextOf (execKvpQuery v true seq rsv s) s
  | 5 => nextOf (execSetDrop v true seq rsv s) s
  | op => s.kvpCmd v true op seq.toNat 1 (fun _ _ t => (t, 5))

/-- BAS_CMD (R245). -/
def State.basWord64 (s : State) (v : View) (w : W64) : State :=
  let copy := w.getLsbD 4
  let rsv := w.extractLsb' 5 59
  match (w.extractLsb' 0 4).toNat with
  | 1 => nextOf (execBuild v true { copy := copy } rsv s) s
  | 2 => nextOf (execSwitch v true copy rsv s) s
  | 3 => nextOf (execAbort v true copy rsv s) s
  | 4 => nextOf (execBasStage v true copy rsv s) s
  | 5 => nextOf (execBasUnstage v true copy rsv s) s
  | 6 => nextOf (execBasQuery v true copy rsv s) s
  | op => s.basCmd v true op 1 (fun _ t => (t, 5))

/-- TIR_CMD (R290). -/
def State.tirWord64 (s : State) (v : View) (w : W64) : State :=
  let page := w.extractLsb' 4 27
  let count := w.extractLsb' 31 16
  let rsv := w.extractLsb' 47 17
  match (w.extractLsb' 0 4).toNat with
  | 1 => nextOf (execMoveUp v true page count rsv s) s
  | 2 => nextOf (execEvict v true page count rsv s) s
  | 3 => nextOf (execPin v true page count rsv s) s
  | 4 => nextOf (execUnpin v true page count rsv s) s
  | 5 => nextOf (execTirQuery v true page count rsv s) s
  | 6 => nextOf (execDiscard v true page count rsv s) s
  | 7 => nextOf (execRelocate v true page count rsv s) s
  | 8 => nextOf (execFlushExtent v true page count rsv s) s
  | op => s.tirCmd v true op page.toNat count.toNat 1 (fun _ t _ => (t, 5))

/-- TIK_CMD, from the PF (R326, R331). -/
def State.tikWord64 (s : State) (v : View) (w : W64) : State :=
  let d := (w.extractLsb' 4 6).toNat
  if !isPf v then s
  else match (w.extractLsb' 0 4).toNat with
    | 1 => s.preemptCmd v true d (w.getLsbD 10) (w.extractLsb' 11 53).toNat
    | 2 => s.resumeCmd v true d (w.extractLsb' 10 54).toNat
    | op => s.runCmd v pTik true (fun t => (t, tikWord 0x05 op d))

/-- LKS_CMD (R459). -/
def State.lksWord64 (s : State) (v : View) (w : W64) : State :=
  let d : Fin 64 := (w.extractLsb' 8 6).toFin
  let rsv := w.extractLsb' 14 50
  match (w.extractLsb' 0 8).toNat with
  | 1 => nextOf (execCreate v true d rsv s) s
  | 2 => nextOf (execResize v true d rsv s) s
  | 3 => nextOf (execDestroy v true d rsv s) s
  | 4 => nextOf (execLend v true d rsv s) s
  | 5 => nextOf (execReclaim v true d rsv s) s
  | 6 => nextOf (execMapShared v true d rsv s) s
  | 7 => nextOf (execUnmapShared v true d rsv s) s
  | 8 => nextOf (execSession v true d rsv s) s
  | 9 => nextOf (execRotate v true d rsv s) s
  | 10 => nextOf (execAttest v true d rsv s) s
  | 11 => nextOf (execIdentity v true d rsv s) s
  | 12 => nextOf (execKeyImport v true d rsv s) s
  | 13 => nextOf (execKeyDrop v true d rsv s) s
  | 14 => nextOf (execLifecycle v true d rsv s) s
  | 15 => nextOf (execSvnCommit v true d rsv s) s
  | 16 => nextOf (execCertInstall v true d rsv s) s
  | op => s.lksCmd v true op 1 false (fun _ t => (t, 5))

/-! ## A register write (R9, R123, R405, R473) -/

/-- A write of a 32-bit register of a present page. -/
def State.writeReg (s : State) (v : View) (p o w : Nat) : State :=
  let d := s.viewDom v p
  if o = 0x10 then s.setCntMode v p (BitVec.ofNat 2 w)
  else if o = 0x18 then s.clearEvents v p (w32 w)
  else if o = 0x1C then s.enableEvents v p (w32 w)
  else if o = 0x20 then s.setEvents v p (w32 w)
  else if o = 0x24 then (if bitOf w 0 then s.lockPage v p else s)
  else if o < 0x80 then s
  else if p = pTik then s.writeTikReg v d o w
  else if p = pVec then s.writeVecReg v d o w
  else if p = pVar then s.writeVarReg v d o w
  else if p = pKvp then s.writeKvpReg v d o w
  else if p = pUpd then (if o = 0x100 then s.writeLossScale v w else if o = 0x110 then s.writeRetain v w else s)
  else if p = pTir then s.writeTirReg v d o w
  else if p = pCol then s.writeColReg v d o w
  else if p = pLks then
    (if !isRegion0 v then s
    else if o = 0x170 then s.updDom d (fun x => x.updKeys (fun k => { k with rotBudget := bitsOf w 0 10 }))
    else if o = 0x174 then s.updLks (fun l => { l with domSel := bitsOf w 0 6 })
    else s)
  else if 0x10 ≤ p ∧ p ≤ 0x17 then s.writeMemReg v p o w
  else if 0x40 ≤ p then
    (if o = 0x118 ∧ bitOf w 31 then s.updUnit (p - 0x40) (fun u => { u with errValid := false }) else s)
  else if !isRegion0 v then s
  else if p = pBas then s.writeBasReg o w
  else if p = pNvm then s.writeNvmReg o w
  else if p = pPci then (if o = 0x110 ∧ bitOf w 31 then s.updPci (fun q => { q with errValid := false }) else s)
  else if p = pDom then (if o = 0x100 then { s with sels := mapSet s.sels pDom (bitsOf w 0 6) } else s)
  else if p = pPwr then
    (if o = 0x100 then nextOf (execPwrBoundsWrite v (w32 w) s) s
    else if o = 0x104 then nextOf (execPwrTargetsWrite v (w32 w) s) s else s)
  else if p = pBdg then
    (if o = 0x100 then s.updBdg (fun b => { b with sel := bitsOf w 0 4 })
    else if o = 0x110 ∧ bitOf w 0 then nextOf (execMeasure v s) s else s)
  else if p = pDbg then s.writeDbgReg v o w
  else if 0x20 ≤ p ∧ p ≤ 0x31 then s.writeFabReg v (p - 0x20) o w
  else s

/-- Argument register of a pair. -/
def State.writeArg (s : State) (c p n o : Nat) (w : W64) : State :=
  if 0x110 ≤ o ∧ o < 0x110 + 8 * n then s.putArg c p ((o - 0x110) / 8) w else s

/-- A write of a whole 64-bit register of a present page. -/
def State.writeWide (s : State) (v : View) (p o : Nat) (w : W64) : State :=
  let d := s.viewDom v p
  let c := s.viewCopy v p
  let r0 := isRegion0 v
  if o < 0x80 then s
  else if p = pVar then (if o = 0x100 then s.varWord64 v w else s.writeArg c p 5 o w)
  else if p = pKvp then
    (if o = 0x100 then s.kvpWord64 v w
    else if o = 0x150 then s.updDom d (fun x => x.updKvp (fun k => { k with dropBase := bitsOf w.toNat 0 48 }))
    else s.writeArg c p 4 o w)
  else if p = pBas then
    (if !r0 then s
    else if o = 0x100 then s.basWord64 v w
    else if o = 0x160 then s.updBas (fun b => { b with hostBase := w })
    else s.writeArg c p 4 o w)
  else if p = pTir then (if o = 0x100 then s.tirWord64 v w else s.writeArg c p 1 o w)
  else if p = pTik then (if o = 0x138 then s.tikWord64 v w else s)
  else if p = pLks then (if o = 0x100 then s.lksWord64 v w else s.writeArg c p 8 o w)
  else if p = pNvm then (if 0x120 ≤ o ∧ o < 0x160 then s.writeNsMap ((o - 0x120) / 8) w.toNat else s)
  else if 0x10 ≤ p ∧ p ≤ 0x17 then
    (if r0 && o == 0x120 && w.getLsbD 63 then s.updMbd (p - 0x10) (fun x => { x with lastUe := x.lastUe &&& 0x7FFFFFFFFFFFFFFF }) else s)
  else if p = pDbg then
    (if o = 0x120 ∧ !s.dbg.traceEn then s.updDbg (fun g => { g with traceBase := bitsOf w.toNat 0 48 }) else s)
  else s

/-- The command registers, which take no 32-bit write (R123, R473). -/
def isCmdReg (p o : Nat) : Bool :=
  (o == 0x100 && (p == pVar || p == pKvp || p == pBas || p == pTir || p == pLks)) || (o == 0x138 && p == pTik)

/-- A 32-bit write at an offset that is a multiple of 4: a register, or one half of a 64-bit register (R473). -/
def State.writeReg32 (s : State) (v : View) (p o w : Nat) : State :=
  if !s.shows v p then s
  else
    let base := o / 8 * 8
    match s.wideReg v p base with
    | none => s.writeReg v p o w
    | some old =>
      if isCmdReg p base then s
      else
        let keep := if 0x10 ≤ p ∧ p ≤ 0x17 then 0 else old
        s.writeWide v p base (w64 (if o % 8 = 0 then setBits keep 0 32 w else setBits keep 32 32 w))

/-- A 64-bit write at an offset that is a multiple of 8 (R473). -/
def State.writeDouble (s : State) (v : View) (p o : Nat) (w : W64) : State :=
  if !s.shows v p then s
  else match s.wideReg v p o with
    | some _ => s.writeWide v p o w
    | none => (s.writeReg32 v p o (w.toNat % 2 ^ 32)).writeReg32 v p (o + 4) (w.toNat / 2 ^ 32)

/-! ## BAR2: the queue page and the MSI-X table (R406, R408, R410 to R413) -/

/-- The function of a view. -/
def viewFin : View → Fin 64
  | .pf _ => 0
  | .vf n => n

/-- A write to the queue page: a whole aligned 64-bit word of the aperture is appended, and RESET acts on the queue (R410, R412, R413). -/
def State.writeQueue (s : State) (fn : Fin 64) (o size : Nat) (w : W64) : State :=
  if o < 0x1000 then nextOf (execSubmitWord fn [if size = 8 then .whole w else .incomplete] false s) s
  else if o = 0x1020 ∧ w.getLsbD 0 then nextOf (execQueueReset fn s) s
  else s

/-- A 32-bit write to an MSI-X table entry: the mask bit of the vector control word, or a word of its address and data (R408). -/
def State.writeMsix (s : State) (fn : Fin 64) (o w : Nat) : State :=
  if o % 16 = 12 then
    (if bitOf w 0 then s.updPci (fun p => { p with unmasked := numDel p.unmasked (2048 * fn.val + o / 16) })
    else nextOf (execMsixUnmask fn (o / 16) s) s)
  else s.updPci (fun p => { p with msixTable := memPut p.msixTable (2 ^ 20 * fn.val + o) (leBytes 4 w) })

/-- First byte and length of a function's MSI-X table in BAR2 (R406). -/
def msixSpan (fn : Nat) : Nat × Nat := if fn = 0 then (0x10000, 0x8000) else (0x2000, 0x400)

/-- A write to BAR2. -/
def State.writeBar2 (s : State) (fn : Fin 64) (o size : Nat) (w : W64) : State :=
  let (base, n) := msixSpan fn.val
  if o < 0x2000 then s.writeQueue fn o size w
  else if base ≤ o ∧ o < base + n then
    let s1 := s.writeMsix fn (o - base) (w.toNat % 2 ^ 32)
    if size = 8 then s1.writeMsix fn (o - base + 4) (w.toNat / 2 ^ 32) else s1
  else s

/-- A write to a register: 32 or 64 bits, aligned; every other size or alignment is ignored (R473), but in the submission aperture it makes an incomplete word (R410). -/
def execRegisterWrite (v : View) (bar : Bar) (offset : Nat) (size : Nat) (value : W64) (s : State) : Host.Outcome State Fault Refusal :=
  let fits := (size == 4 || size == 8) && offset % size == 0
  .next (if !s.answers v then s
  else match bar with
    | .bar0 =>
      if !fits || decide (0x100000 ≤ offset) then s
      else
        let p := offset / 4096
        let o := offset % 4096
        if size = 8 then s.writeDouble v p o value else s.writeReg32 v p o (value.toNat % 2 ^ 32)
    | .bar2 =>
      if fits then s.writeBar2 (viewFin v) offset size value
      else if offset < 0x1000 then nextOf (execSubmitWord (viewFin v) [.incomplete] false s) s
      else s)

/-! ## The register writes that have rows of their own -/

def execRetrain (v : View) (port : Fin 18) (s : State) : Host.Outcome State Fault Refusal := .next (s.retrainPort v port.val)

def execPortEnable (v : View) (port : Fin 18) (enable : Bool) (s : State) : Host.Outcome State Fault Refusal :=
  .next (s.enablePort v port.val enable)

def execRecipeWrite (v : View) (row : Fin 7) (value : W32) (s : State) : Host.Outcome State Fault Refusal :=
  .next (s.writeRecipe v row.val value.toNat)

def execHistSelWrite (v : View) (slot : BitVec 7) (s : State) : Host.Outcome State Fault Refusal := .next (s.writeHistSel v slot.toNat)

def execHistCommit (v : View) (count : BitVec 5) (s : State) : Host.Outcome State Fault Refusal := .next (s.commitHist v count.toNat)

def execZsValueWrite (v : View) (value : W32) (s : State) : Host.Outcome State Fault Refusal := .next (s.writeZs v value.toNat)

def execLossScaleWrite (v : View) (value : W32) (s : State) : Host.Outcome State Fault Refusal := .next (s.writeLossScale v value.toNat)

def execRetainWrite (v : View) (value : W32) (s : State) : Host.Outcome State Fault Refusal := .next (s.writeRetain v value.toNat)

def execRegRateWrite (v : View) (value : W32) (s : State) : Host.Outcome State Fault Refusal := .next (s.writeRates v value.toNat)

def execMaintWrite (v : View) (value : W32) (s : State) : Host.Outcome State Fault Refusal := .next (s.writeMaint v value.toNat)

def execTickConfigWrite (v : View) (phase : Bool) (value : W32) (s : State) : Host.Outcome State Fault Refusal :=
  .next (s.writeTick v phase value.toNat)

def execShareWrite (v : View) (value : W32) (s : State) : Host.Outcome State Fault Refusal := .next (s.writeShare v value.toNat)

def execPlanSlotsWrite (v : View) (value : W32) (s : State) : Host.Outcome State Fault Refusal := .next (s.writePlanSlots v value.toNat)

def execFlashRateWrite (v : View) (value : W32) (s : State) : Host.Outcome State Fault Refusal := .next (s.writeFlashRate v value.toNat)

def execPtagWrite (v : View) (value : W32) (s : State) : Host.Outcome State Fault Refusal := .next (s.writePtag v value.toNat)

def execSlotTagWrite (v : View) (value : W32) (s : State) : Host.Outcome State Fault Refusal := .next (s.writeSlotTag v value.toNat)

def execApply (v : View) (d : Fin 64) (s : State) : Host.Outcome State Fault Refusal := .next (s.applyKey v d.val)

def execTraceCfgWrite (v : View) (value : W32) (s : State) : Host.Outcome State Fault Refusal := .next (s.writeTraceCfg v value.toNat)

def execBlkEventClear (v : View) (page : Byte) (mask : W32) (s : State) : Host.Outcome State Fault Refusal :=
  .next (s.clearEvents v page.toNat mask)

def execBlkEventEnWrite (v : View) (page : Byte) (mask : W32) (s : State) : Host.Outcome State Fault Refusal :=
  .next (s.enableEvents v page.toNat mask)

def execBlkEventSet (v : View) (page : Byte) (mask : W32) (s : State) : Host.Outcome State Fault Refusal :=
  .next (s.setEvents v page.toNat mask)

def execBlkLock (v : View) (page : Byte) (s : State) : Host.Outcome State Fault Refusal := .next (s.lockPage v page.toNat)

def execCntModeWrite (v : View) (page : Byte) (mode : BitVec 2) (s : State) : Host.Outcome State Fault Refusal :=
  .next (s.setCntMode v page.toNat mode)

end Sys2Proof.Machine
end

