-- ==== Sys2Proof/Machine/Monitor.lean ====
section
/-! DEFINITION. The Bytous monitor on the serial port: which command each life-cycle state accepts, and what it answers or does (R435, R436, R456 to R458, R501). -/

namespace Sys2Proof.Machine

/-- The commands of R456 by the rows of its table. -/
inductive MonGroup where
  | id
  | health
  | chal
  | unlock
  /-- PEEK, COUNT and TRACE -/
  | look
  /-- POKE, MEM and DOMREAD -/
  | change
deriving DecidableEq, Repr, Inhabited

/-- The table of R456: whether a life-cycle state, unlocked or not, accepts a group. A BLANK unit is at the factory (log 83). -/
def monitorTakes (life : Life) (unlocked : Bool) (g : MonGroup) : Bool :=
  match g, life with
  | .id, _ => true
  | _, .retired => false
  | .health, _ => true
  | .chal, _ => true
  | .unlock, .prod => !unlocked
  | .unlock, _ => false
  | .look, .prod => unlocked
  | .look, _ => true
  | .change, .prod => false
  | .change, _ => true

/-- One command line: nothing while the device is off or in reset, ERR where the state refuses it or nothing answers, else what `f` does (R456, R501). -/
def State.monitor (s : State) (g : MonGroup) (f : State → Option (List Nat × State)) : State :=
  if !s.awake then s
  else if monitorTakes s.fuses.life s.boot.unlocked g then
    match f s with
    | some (values, t) => t.emit (.monitorOk values)
    | none => s.emit .monitorErr
  else s.emit .monitorErr

/-- The manager's device view. -/
def deviceView : View := .pf 0

/-- Pages whose scope has the device, a function or an array unit in it and no domain (R475); log 84. -/
def devicePage (p : Nat) : Bool :=
  p == pBas || p == pNvm || p == pPci || p == pLks || p == pFul || p == pPwr || p == pBdg || p == pDbg ||
    (decide (0x10 ≤ p) && decide (p ≤ 0x17)) || (decide (0x20 ≤ p) && decide (p ≤ 0x31)) || (decide (0x40 ≤ p) && decide (p ≤ 0x7F))

/-- Registers of those pages that show a domain: the rates of MEM, and of LKS all from KEY_GEN to DOM_SEL and its mailbox (R285, R458, R460; log 84). -/
def domainReg (p o : Nat) : Bool :=
  ((decide (0x10 ≤ p) && decide (p ≤ 0x17)) && (o == 0x108 || o == 0x10C)) ||
    (p == pLks && ((decide (0x100 ≤ o) && decide (o < 0x160)) || (decide (0x168 ≤ o) && decide (o < 0x180))))

/-- The 32-bit word at an offset of a page of a view, whatever the host attachment does; an absent page reads zero (R475, R478). -/
def State.monWord (s : State) (v : View) (p o : Nat) : Nat :=
  let absent := !isRegion0 v && (region0Page p || (decide (0x40 ≤ p) && !(s.unitsOf (s.viewDom v p)).contains (p - 0x40)))
  if (blockOf p).isNone || absent then 0
  else match s.wideReg v p (o / 8 * 8) with
  | some w => if o % 8 = 0 then w % 2 ^ 32 else w / 2 ^ 32 % 2 ^ 32
  | none => s.wordReg v p o

/-- ID: SERIAL, ORDER, STEPPING, LIFE, FW_SVN and CONTRACT_ID (R456). -/
def execId (s : State) : Host.Outcome State Fault Refusal :=
  .next (s.monitor .id (fun t =>
    some ([Config.serial.toNat, Config.order, 0xA1, t.fuses.life.code, t.boot.fwSvn, 0x00040001], t)))

/-- HEALTH: T_j, T_hot, the level in force, the boot slot, the cause of the last reset and the codes of the events set (R456, R513; the order is the model's, log 76). -/
def execHealth (s : State) : Host.Outcome State Fault Refusal :=
  .next (s.monitor .health (fun t =>
    some ([t.pwr.tjMax, t.memg.tHot, t.pwr.level, bit01 t.boot.bootSecondary, t.boot.resetCause] ++ t.eventCodes, t)))

/-- CHAL prints LKS_CHAL (R456). -/
def execChal (s : State) : Host.Outcome State Fault Refusal :=
  .next (s.monitor .chal (fun t => some ([t.challengeNat], t)))

/-- UNLOCK: a token with target 0xFF sets UNLOCKED until the next reset; one that fails counts in AUTH_FAILS (R457). -/
def execUnlock (token : List Byte) (s : State) : Host.Outcome State Fault Refusal :=
  .next (if s.awake && monitorTakes s.fuses.life s.boot.unlocked .unlock && !s.tokenOk 0xFF token then
    (s.authFail 64).emit .monitorErr
  else s.monitor .unlock (fun t => some ([], (t.updBoot (fun b => { b with unlocked := true })).raiseDev pLks 5)))

/-- PEEK reads a register of a device-level page (R456, R458). -/
def execPeek (page : Byte) (offset : Nat) (s : State) : Host.Outcome State Fault Refusal :=
  let p := page.toNat
  .next (s.monitor .look (fun t =>
    if devicePage p && !domainReg p offset && decide (offset < 4096) && offset % 4 == 0 then
      some ([t.monWord deviceView p offset], t)
    else none))

/-- COUNT reads a counter that the device keeps, by its offset (R456, R458, R465). -/
def execCount (page : Byte) (offset : Nat) (s : State) : Host.Outcome State Fault Refusal :=
  let p := page.toNat
  let idx := (offset - 0x40) / 8
  .next (s.monitor .look (fun t =>
    if (blockOf p).isSome && decide (0x40 ≤ offset) && decide (offset < 0x80) && offset % 8 == 0 &&
        counterScope deviceView p idx (t.viewDom deviceView p) == some dev then
      some ([(t.liveCounter deviceView p idx).toNat], t)
    else none))

/-- TRACE reads a record of the trace ring as two 64-bit words (R456, R487). -/
def execTrace (index : Nat) (s : State) : Host.Outcome State Fault Refusal :=
  .next (s.monitor .look (fun t =>
    if index < 2 ^ (min t.dbg.traceLog2 20) then
      let b := (t.rdMem 0 (t.dbg.traceBase + 16 * index) 16).1
      some ([ofLe (b.take 8), ofLe (b.drop 8)], t)
    else none))

/-- POKE writes a 32-bit register as the manager's device view does, where that view shows the page (R456). -/
def execPoke (page : Byte) (offset : Nat) (value : W32) (s : State) : Host.Outcome State Fault Refusal :=
  let p := page.toNat
  .next (s.monitor .change (fun t =>
    if t.shows deviceView p && decide (offset < 4096) && offset % 4 == 0 then
      some ([], t.writeReg32 deviceView p offset value.toNat)
    else none))

/-- MEM reads or writes a byte of a domain's range that is in stacked memory (R456); a poisoned block is not read, and a shared page is not written. -/
def execMem (d : Fin 64) (addr : Nat) (write : Option Byte) (s : State) : Host.Outcome State Fault Refusal :=
  .next (s.monitor .change (fun t =>
    if !t.live d.val || !t.inRange d.val addr 1 || !t.resident d.val addr 1 then none
    else match write with
      | some b => if t.sharedSpan d.val addr 1 then none else some ([], t.wrMem d.val addr [b])
      | none =>
        let (bs, bad) := t.rdMem d.val addr 1
        if bad then none else some ([ofLe bs], t)))

/-- DOMREAD reads a register of a domain's own view (R456). -/
def execDomread (d : Fin 64) (page : Byte) (offset : Nat) (s : State) : Host.Outcome State Fault Refusal :=
  let p := page.toNat
  let v : View := if d.val = 0 then deviceView else .vf d
  .next (s.monitor .change (fun t =>
    if (d.val = 0 || (t.dom d.val).alive) && decide (offset < 4096) && offset % 4 == 0 then some ([t.monWord v p offset], t)
    else none))

end Sys2Proof.Machine
end

