-- ==== Sys2Proof/Machine/Dispatch.lean ====
section
/-! DEFINITION. The one match from a command to its meaning: one arm per constructor of Instr. -/

namespace Sys2Proof.Machine

def exec (i : Instr) (s : State) : Host.Outcome State Fault Refusal :=
  match i with
  | .submitWord fn words poisoned => Sys2Proof.Machine.execSubmitWord fn words poisoned s
  | .queueReset fn => Sys2Proof.Machine.execQueueReset fn s
  | .complRead fn => Sys2Proof.Machine.execComplRead fn s
  | .hostWindowWrite fn offset bytes poisoned => Sys2Proof.Machine.execHostWindowWrite fn offset bytes poisoned s
  | .hostWindowRead fn offset length => Sys2Proof.Machine.execHostWindowRead fn offset length s
  | .msixUnmask fn vector => Sys2Proof.Machine.execMsixUnmask fn vector s
  | .planCutoff nowNs => Sys2Proof.Machine.execPlanCutoff nowNs s
  | .epochDecision => Sys2Proof.Machine.execEpochDecision s
  | .planLatch nowNs => Sys2Proof.Machine.execPlanLatch nowNs s
  | .slabStart d slab nowNs errors => Sys2Proof.Machine.execSlabStart d slab nowNs errors s
  | .slabPause d slab nowNs => Sys2Proof.Machine.execSlabPause d slab nowNs s
  | .slabComplete d slab nowNs => Sys2Proof.Machine.execSlabComplete d slab nowNs s
  | .runPhaseEnd nowNs => Sys2Proof.Machine.execRunPhaseEnd nowNs s
  | .settleStart nowNs => Sys2Proof.Machine.execSettleStart nowNs s
  | .baseRefetchDone copy stripe source bytes nowNs => Sys2Proof.Machine.execBaseRefetchDone copy stripe source bytes nowNs s
  | .maintWindowStart => Sys2Proof.Machine.execMaintWindowStart s
  | .maintItemEnd stack item ended => Sys2Proof.Machine.execMaintItemEnd stack item ended s
  | .routineRetrainDue stack channel => Sys2Proof.Machine.execRoutineRetrainDue stack channel s
  | .maintStarved stack => Sys2Proof.Machine.execMaintStarved stack s
  | .emergencyRetrain stack channel emergency stallNs inWindow => Sys2Proof.Machine.execEmergencyRetrain stack channel emergency stallNs inWindow s
  | .refreshPause nowNs temps => Sys2Proof.Machine.execRefreshPause nowNs temps s
  | .sharedFetchHoldExpire d tag => Sys2Proof.Machine.execSharedFetchHoldExpire d tag s
  | .tickSymbolReceive port sym nowNs => Sys2Proof.Machine.execTickSymbolReceive port sym nowNs s
  | .doneTokenReceive port token nowNs => Sys2Proof.Machine.execDoneTokenReceive port token nowNs s
  | .tickStart nowNs => Sys2Proof.Machine.execTickStart nowNs s
  | .tickMasterTimeout nowNs => Sys2Proof.Machine.execTickMasterTimeout nowNs s
  | .tickRefLoss => Sys2Proof.Machine.execTickRefLoss s
  | .fabricTrainingStart nowNs => Sys2Proof.Machine.execFabricTrainingStart nowNs s
  | .portStageTimeout port => Sys2Proof.Machine.execPortStageTimeout port s
  | .portTrainingDone port lanes peerDevice peerPort delayPs eyeMv eyeLane => Sys2Proof.Machine.execPortTrainingDone port lanes peerDevice peerPort delayPs eyeMv eyeLane s
  | .prioOffer port device prio => Sys2Proof.Machine.execPrioOffer port device prio s
  | .masterElection nowNs => Sys2Proof.Machine.execMasterElection nowNs s
  | .laneFail port lane => Sys2Proof.Machine.execLaneFail port lane s
  | .flitReceive port bytes fecOk errors => Sys2Proof.Machine.execFlitReceive port bytes fecOk errors s
  | .retryRequest port seq => Sys2Proof.Machine.execRetryRequest port seq s
  | .keyExchangeMessage port msg => Sys2Proof.Machine.execKeyExchangeMessage port msg s
  | .rekey port => Sys2Proof.Machine.execRekey port s
  | .rekeyStall port => Sys2Proof.Machine.execRekeyStall port s
  | .rdReq t errors => Sys2Proof.Machine.execRdReq t errors s
  | .rdResp t => Sys2Proof.Machine.execRdResp t s
  | .wr t errors => Sys2Proof.Machine.execWr t errors s
  | .wrAck t => Sys2Proof.Machine.execWrAck t s
  | .radd t errors => Sys2Proof.Machine.execRadd t errors s
  | .raddAck t => Sys2Proof.Machine.execRaddAck t s
  | .atom t errors => Sys2Proof.Machine.execAtom t errors s
  | .atomResp t => Sys2Proof.Machine.execAtomResp t s
  | .collData t step ring => Sys2Proof.Machine.execCollData t step ring s
  | .stripeReq t errors => Sys2Proof.Machine.execStripeReq t errors s
  | .stripeResp t => Sys2Proof.Machine.execStripeResp t s
  | .colTimeout d collId => Sys2Proof.Machine.execColTimeout d collId s
  | .stripeFetchDone copy stripe source bytes => Sys2Proof.Machine.execStripeFetchDone copy stripe source bytes s
  | .hostReadCompletion copy stripe result => Sys2Proof.Machine.execHostReadCompletion copy stripe result s
  | .claim v posted slot gen rsv => Sys2Proof.Machine.execClaim v posted slot gen rsv s
  | .load v posted slot gen rsv => Sys2Proof.Machine.execLoad v posted slot gen rsv s
  | .park v posted slot gen rsv => Sys2Proof.Machine.execPark v posted slot gen rsv s
  | .release v posted slot gen rsv => Sys2Proof.Machine.execRelease v posted slot gen rsv s
  | .stage v posted slot gen rsv => Sys2Proof.Machine.execStage v posted slot gen rsv s
  | .unstage v posted slot gen rsv => Sys2Proof.Machine.execUnstage v posted slot gen rsv s
  | .varQuery v posted slot gen rsv => Sys2Proof.Machine.execVarQuery v posted slot gen rsv s
  | .expertClaim v posted slot gen rsv => Sys2Proof.Machine.execExpertClaim v posted slot gen rsv s
  | .expertRelease v posted slot gen rsv => Sys2Proof.Machine.execExpertRelease v posted slot gen rsv s
  | .flush v posted slot gen rsv => Sys2Proof.Machine.execFlush v posted slot gen rsv s
  | .loadComplete slot => Sys2Proof.Machine.execLoadComplete slot s
  | .loadFailed slot => Sys2Proof.Machine.execLoadFailed slot s
  | .parkDone slot => Sys2Proof.Machine.execParkDone slot s
  | .releaseDone slot => Sys2Proof.Machine.execReleaseDone slot s
  | .stageComplete slot => Sys2Proof.Machine.execStageComplete slot s
  | .seqOpen v posted seq rsv => Sys2Proof.Machine.execSeqOpen v posted seq rsv s
  | .seqClose v posted seq rsv => Sys2Proof.Machine.execSeqClose v posted seq rsv s
  | .kvpCommit v posted seq rsv => Sys2Proof.Machine.execKvpCommit v posted seq rsv s
  | .kvpQuery v posted seq rsv => Sys2Proof.Machine.execKvpQuery v posted seq rsv s
  | .setDrop v posted seq rsv => Sys2Proof.Machine.execSetDrop v posted seq rsv s
  | .kvpGeomWrite v value => Sys2Proof.Machine.execKvpGeomWrite v value s
  | .build v posted of rsv => Sys2Proof.Machine.execBuild v posted of rsv s
  | .switch v posted copy rsv => Sys2Proof.Machine.execSwitch v posted copy rsv s
  | .abort v posted copy rsv => Sys2Proof.Machine.execAbort v posted copy rsv s
  | .basStage v posted copy rsv => Sys2Proof.Machine.execBasStage v posted copy rsv s
  | .basUnstage v posted copy rsv => Sys2Proof.Machine.execBasUnstage v posted copy rsv s
  | .basQuery v posted copy rsv => Sys2Proof.Machine.execBasQuery v posted copy rsv s
  | .moveUp v posted page count rsv => Sys2Proof.Machine.execMoveUp v posted page count rsv s
  | .evict v posted page count rsv => Sys2Proof.Machine.execEvict v posted page count rsv s
  | .pin v posted page count rsv => Sys2Proof.Machine.execPin v posted page count rsv s
  | .unpin v posted page count rsv => Sys2Proof.Machine.execUnpin v posted page count rsv s
  | .tirQuery v posted page count rsv => Sys2Proof.Machine.execTirQuery v posted page count rsv s
  | .discard v posted page count rsv => Sys2Proof.Machine.execDiscard v posted page count rsv s
  | .relocate v posted page count rsv => Sys2Proof.Machine.execRelocate v posted page count rsv s
  | .flushExtent v posted page count rsv => Sys2Proof.Machine.execFlushExtent v posted page count rsv s
  | .flushIssue d => Sys2Proof.Machine.execFlushIssue d s
  | .flushDone d ok => Sys2Proof.Machine.execFlushDone d ok s
  | .pageReadDone d page returned nowNs => Sys2Proof.Machine.execPageReadDone d page returned nowNs s
  | .pageWriteDone d page => Sys2Proof.Machine.execPageWriteDone d page s
  | .nvmeCommandFail d work stallNs => Sys2Proof.Machine.execNvmeCommandFail d work stallNs s
  | .nvmeTimeout d work stallNs => Sys2Proof.Machine.execNvmeTimeout d work stallNs s
  | .nvmeLinkDown link => Sys2Proof.Machine.execNvmeLinkDown link s
  | .preempt posted d saveCommons rsv => Sys2Proof.Machine.execPreempt posted d saveCommons rsv s
  | .resume posted d rsv => Sys2Proof.Machine.execResume posted d rsv s
  | .create v posted d rsv => Sys2Proof.Machine.execCreate v posted d rsv s
  | .createComplete d => Sys2Proof.Machine.execCreateComplete d s
  | .resize v posted d rsv => Sys2Proof.Machine.execResize v posted d rsv s
  | .destroy v posted d rsv => Sys2Proof.Machine.execDestroy v posted d rsv s
  | .lend v posted d rsv => Sys2Proof.Machine.execLend v posted d rsv s
  | .reclaim v posted d rsv => Sys2Proof.Machine.execReclaim v posted d rsv s
  | .mapShared v posted d rsv => Sys2Proof.Machine.execMapShared v posted d rsv s
  | .unmapShared v posted d rsv => Sys2Proof.Machine.execUnmapShared v posted d rsv s
  | .session v posted d rsv => Sys2Proof.Machine.execSession v posted d rsv s
  | .rotate v posted d rsv => Sys2Proof.Machine.execRotate v posted d rsv s
  | .attest v posted d rsv => Sys2Proof.Machine.execAttest v posted d rsv s
  | .reportSigned engine => Sys2Proof.Machine.execReportSigned engine s
  | .identity v posted d rsv => Sys2Proof.Machine.execIdentity v posted d rsv s
  | .keyImport v posted d rsv => Sys2Proof.Machine.execKeyImport v posted d rsv s
  | .keyDrop v posted d rsv => Sys2Proof.Machine.execKeyDrop v posted d rsv s
  | .lifecycle v posted d rsv => Sys2Proof.Machine.execLifecycle v posted d rsv s
  | .svnCommit v posted d rsv => Sys2Proof.Machine.execSvnCommit v posted d rsv s
  | .certInstall v posted d rsv => Sys2Proof.Machine.execCertInstall v posted d rsv s
  | .heldRequestExecute d => Sys2Proof.Machine.execHeldRequestExecute d s
  | .scrubEnd d nowNs withheldFrames sramFailUnits => Sys2Proof.Machine.execScrubEnd d nowNs withheldFrames sramFailUnits s
  | .memoryKeyDestroy d => Sys2Proof.Machine.execMemoryKeyDestroy d s
  | .vfFlr n => Sys2Proof.Machine.execVfFlr n s
  | .vfEnableChange on numVfs => Sys2Proof.Machine.execVfEnableChange on numVfs s
  | .pcieLinkChange speed width dlUp => Sys2Proof.Machine.execPcieLinkChange speed width dlUp s
  | .powerApply mV => Sys2Proof.Machine.execPowerApply mV s
  | .perstRise baudSel i3cAsel => Sys2Proof.Machine.execPerstRise baudSel i3cAsel s
  | .perstFall cause => Sys2Proof.Machine.execPerstFall cause s
  | .pwrGoodLoss => Sys2Proof.Machine.execPwrGoodLoss s
  | .watchdog => Sys2Proof.Machine.execWatchdog s
  | .thermTrip => Sys2Proof.Machine.execThermTrip s
  | .supplyOut mV below40V => Sys2Proof.Machine.execSupplyOut mV below40V s
  | .inputRange mV => Sys2Proof.Machine.execInputRange mV s
  | .mbdTrainingDone failedStacks => Sys2Proof.Machine.execMbdTrainingDone failedStacks s
  | .imageVerifyDone slot magic format keyIndex svn bodyLen digestMatches rsaOk slhOk digest => Sys2Proof.Machine.execImageVerifyDone slot magic format keyIndex svn bodyLen digestMatches rsaOk slhOk digest s
  | .deviceWipeEnd withheldFrames sramFailUnits nowNs => Sys2Proof.Machine.execDeviceWipeEnd withheldFrames sramFailUnits nowNs s
  | .firmwareRelease => Sys2Proof.Machine.execFirmwareRelease s
  | .pfReady nowNs => Sys2Proof.Machine.execPfReady nowNs s
  | .badgerMeasure reading => Sys2Proof.Machine.execBadgerMeasure reading s
  | .measureSkipped => Sys2Proof.Machine.execMeasureSkipped s
  | .measure v => Sys2Proof.Machine.execMeasure v s
  | .pwrBoundsWrite v value => Sys2Proof.Machine.execPwrBoundsWrite v value s
  | .pwrTargetsWrite v value => Sys2Proof.Machine.execPwrTargetsWrite v value s
  | .retrain v port => Sys2Proof.Machine.execRetrain v port s
  | .portEnable v port enable => Sys2Proof.Machine.execPortEnable v port enable s
  | .recipeWrite v row value => Sys2Proof.Machine.execRecipeWrite v row value s
  | .histSelWrite v slot => Sys2Proof.Machine.execHistSelWrite v slot s
  | .histCommit v count => Sys2Proof.Machine.execHistCommit v count s
  | .zsValueWrite v value => Sys2Proof.Machine.execZsValueWrite v value s
  | .lossScaleWrite v value => Sys2Proof.Machine.execLossScaleWrite v value s
  | .retainWrite v value => Sys2Proof.Machine.execRetainWrite v value s
  | .regRateWrite v value => Sys2Proof.Machine.execRegRateWrite v value s
  | .maintWrite v value => Sys2Proof.Machine.execMaintWrite v value s
  | .tickConfigWrite v phase value => Sys2Proof.Machine.execTickConfigWrite v phase value s
  | .shareWrite v value => Sys2Proof.Machine.execShareWrite v value s
  | .planSlotsWrite v value => Sys2Proof.Machine.execPlanSlotsWrite v value s
  | .flashRateWrite v value => Sys2Proof.Machine.execFlashRateWrite v value s
  | .ptagWrite v value => Sys2Proof.Machine.execPtagWrite v value s
  | .slotTagWrite v value => Sys2Proof.Machine.execSlotTagWrite v value s
  | .apply v d => Sys2Proof.Machine.execApply v d s
  | .traceCfgWrite v value => Sys2Proof.Machine.execTraceCfgWrite v value s
  | .blkEventClear v page mask => Sys2Proof.Machine.execBlkEventClear v page mask s
  | .blkEventEnWrite v page mask => Sys2Proof.Machine.execBlkEventEnWrite v page mask s
  | .blkEventSet v page mask => Sys2Proof.Machine.execBlkEventSet v page mask s
  | .blkLock v page => Sys2Proof.Machine.execBlkLock v page s
  | .cntModeWrite v page mode => Sys2Proof.Machine.execCntModeWrite v page mode s
  | .counterLowRead v page offset => Sys2Proof.Machine.execCounterLowRead v page offset s
  | .registerWrite v bar offset size value => Sys2Proof.Machine.execRegisterWrite v bar offset size value s
  | .pldmFirmwareUpdate slot offset bytes => Sys2Proof.Machine.execPldmFirmwareUpdate slot offset bytes s
  | .pldmRequest query => Sys2Proof.Machine.execPldmRequest query s
  | .id => Sys2Proof.Machine.execId s
  | .health => Sys2Proof.Machine.execHealth s
  | .chal => Sys2Proof.Machine.execChal s
  | .unlock token => Sys2Proof.Machine.execUnlock token s
  | .peek page offset => Sys2Proof.Machine.execPeek page offset s
  | .count page offset => Sys2Proof.Machine.execCount page offset s
  | .trace index => Sys2Proof.Machine.execTrace index s
  | .poke page offset value => Sys2Proof.Machine.execPoke page offset value s
  | .mem d addr write => Sys2Proof.Machine.execMem d addr write s
  | .domread d page offset => Sys2Proof.Machine.execDomread d page offset s
  | .counterHighRead v page offset => Sys2Proof.Machine.execCounterHighRead v page offset s
  | .signalDetect port nowNs => Sys2Proof.Machine.execSignalDetect port nowNs s
  | .oneWayDelayMeasurement port delayPs => Sys2Proof.Machine.execOneWayDelayMeasurement port delayPs s
  | .computeDieSensorRead sensors pInW vInMv => Sys2Proof.Machine.execComputeDieSensorRead sensors pInW vInMv s
  | .rootPortLinkUp link speed width => Sys2Proof.Machine.execRootPortLinkUp link speed width s
  | .pfPowerStateChange d3hot => Sys2Proof.Machine.execPfPowerStateChange d3hot s
  | .i3cDynamicAddressAssign how => Sys2Proof.Machine.execI3cDynamicAddressAssign how s

end Sys2Proof.Machine
end

