-- ==== Sys2Proof/Safety.lean ====
section
/-! DEFINITION. What counts as a safe run: every step answers a next state, memories stay in canonical form, and what is fused or drawn never goes back. -/

namespace Sys2Proof.Safety

open Sys2Proof.Machine

/-- The outcome is a next state. -/
def isNext {σ φ ρ : Type} : Host.Outcome σ φ ρ → Bool
  | .next _ => true
  | .fault _ => false
  | .refused _ => false

/-- A state from which n steps run without a fault or a refusal. -/
def safeFor : Nat → State → Bool
  | 0, _ => true
  | n + 1, s =>
    match step s with
    | .next t => safeFor n t
    | .fault _ => false
    | .refused _ => false

/-! ## Memories in canonical form -/

/-- A domain's range and its preemption save area are in canonical form (R287, R327). -/
def DomMem (x : Dom) : Prop := memWf x.mem = true ∧ memWf x.savedOpbuf = true ∧ memWf x.savedCommons = true

/-- Every memory of the device is in canonical form: equal contents are equal lists. -/
structure MemoryWf (s : State) : Prop where
  doms : ∀ p ∈ s.doms, DomMem p.2
  commons : memWf s.commons = true
  opbuf : memWf s.opbuf = true
  image0 : memWf s.bas.copy0.image = true
  image1 : memWf s.bas.copy1.image = true
  spi : memWf s.fuses.spi = true
  msix : memWf s.pci.msixTable = true

/-! ## What never goes back (R433, R434, R441) -/

/-- Place of a life-cycle state in the order of R434. -/
def lifeRank : Life → Nat
  | .blank => 0
  | .devel => 1
  | .prod => 2
  | .return_ => 3
  | .retired => 4

/-- The state that waits for the next reset does not lie before the present one (R434). -/
def LifeForward (s : State) : Prop := lifeRank s.fuses.life ≤ lifeRank s.fuses.pending

/-- Nothing that is fused or drawn has gone back from s to t: MIN_SVN and its raises, the life cycle, and the indices of draws, nonces and free values. -/
structure Forward (s t : State) : Prop where
  minSvn : s.fuses.minSvn ≤ t.fuses.minSvn
  raises : s.fuses.svnRaises ≤ t.fuses.svnRaises
  life : LifeForward s → LifeForward t ∧ lifeRank s.fuses.life ≤ lifeRank t.fuses.life
  draws : s.lks.draws ≤ t.lks.draws
  nonces : s.lks.nonces ≤ t.lks.nonces
  free : s.freeCtr ≤ t.freeCtr

/-- What every command keeps: the queue behind it, canonical memories, and what never goes back. -/
structure Evolves (s t : State) : Prop where
  pending : t.pending = s.pending
  memory : MemoryWf s → MemoryWf t
  forward : Forward s t

/-- An outcome that, where it is a next state, is one that the state evolves to. -/
def EvolvesOut (s : State) (o : Host.Outcome State Fault Refusal) : Prop := ∀ t, o = .next t → Evolves s t

/-! ## Frames: the parts of the state, and what a command may change -/

/-- The parts of the state. `pci` and `dbg` leave out the Pending bits and what the trace moves, which every event may move; the parts that begin with `dom` are those of every domain. -/
inductive Part where
  | boot | fuses | pci | pciPending | tik | pwr | bdg | memg | nvm | bas | fab | lks | ful | dbg | traceHead
  | slots | mbds | units | recipe | views | pairs | counters | stretch | latches | locked | sels
  | commons | commonsPoison | acc | opbuf | freeFrames | atLatch | freeCtr | out
  | domLife | domRecord | domPreempt | domQueue | domSlabs | domSched | domVec | domVar | domUpd | domKvp | domTir
  | domCol | domKeys | domMem | domPoison
deriving DecidableEq, Repr

/-- An address at which the trace may write: in the ring of domain 0, while EN is set (R487). -/
def inRing (s : State) (d a : Nat) : Prop :=
  d = 0 ∧ s.dbg.traceEn = true ∧ s.dbg.traceBase ≤ a ∧ a < s.dbg.traceBase + 16 * 2 ^ (min s.dbg.traceLog2 20)

/-- A part of a domain is the same in x and y. -/
def Part.keptDom (p : Part) (x y : Dom) : Prop :=
  match p with
  | .domLife =>
    y.phase = x.phase ∧ y.held = x.held ∧ y.created = x.created ∧ y.activeAt = x.activeAt ∧ y.doneDue = x.doneDue ∧
    y.teardownAt = x.teardownAt ∧ y.requests = x.requests ∧ y.leaving = x.leaving ∧ y.scrubEnded = x.scrubEnded ∧
    y.scrubStartNs = x.scrubStartNs
  | .domRecord => y.rec_ = x.rec_ ∧ y.ovh = x.ovh ∧ y.loan = x.loan
  | .domPreempt =>
    y.preempted = x.preempted ∧ y.saving = x.saving ∧ y.restoring = x.restoring ∧ y.saveCommons = x.saveCommons ∧
    y.preemptAt = x.preemptAt ∧ y.resumeAt = x.resumeAt ∧ y.savedAcc = x.savedAcc ∧ y.savedOpbuf = x.savedOpbuf ∧
    y.savedCommons = x.savedCommons
  | .domQueue => y.queue = x.queue
  | .domSlabs =>
    y.nextOrder = x.nextOrder ∧ y.slabs = x.slabs ∧ y.devSlabs = x.devSlabs ∧ y.devNext = x.devNext ∧
    y.batches = x.batches ∧ y.lastOperand = x.lastOperand
  | .domSched =>
    y.quota0 = x.quota0 ∧ y.weight = x.weight ∧ y.slots = x.slots ∧ y.rtUj = x.rtUj ∧ y.rtFirst = x.rtFirst ∧
    y.rtUnits = x.rtUnits ∧ y.allow = x.allow ∧ y.lagNs = x.lagNs ∧ y.lagNext = x.lagNext ∧ y.rate = x.rate ∧
    y.rateT = x.rateT ∧ y.energyFrac = x.energyFrac
  | .domVec => y.vec = x.vec
  | .domVar => y.var_ = x.var_
  | .domUpd => y.upd = x.upd
  | .domKvp => y.kvp = x.kvp
  | .domTir => y.tir = x.tir
  | .domCol => y.col = x.col
  | .domKeys => y.keys = x.keys
  | .domMem => ∀ a, memRead y.mem a = memRead x.mem a
  | .domPoison => y.poison = x.poison
  | _ => True

/-- A part of the state is the same in s and t; of a domain's memory, every byte outside the trace ring. -/
def Part.kept (p : Part) (s t : State) : Prop :=
  match p with
  | .boot => t.boot = s.boot
  | .fuses => t.fuses = s.fuses
  | .pci => { t.pci with pendingBits := [] } = { s.pci with pendingBits := [] }
  | .pciPending => t.pci.pendingBits = s.pci.pendingBits
  | .tik => t.tik = s.tik
  | .pwr => t.pwr = s.pwr
  | .bdg => t.bdg = s.bdg
  | .memg => t.memg = s.memg
  | .nvm => t.nvm = s.nvm
  | .bas => t.bas = s.bas
  | .fab => t.fab = s.fab
  | .lks => t.lks = s.lks
  | .ful => t.ful = s.ful
  | .dbg => { t.dbg with traceHead := 0, traced := [] } = { s.dbg with traceHead := 0, traced := [] }
  | .traceHead => t.dbg.traceHead = s.dbg.traceHead ∧ t.dbg.traced = s.dbg.traced
  | .slots => t.slots = s.slots
  | .mbds => t.mbds = s.mbds
  | .units => t.units = s.units
  | .recipe => t.recipe = s.recipe
  | .views => t.views = s.views
  | .pairs => t.pairs = s.pairs
  | .counters => t.counters = s.counters
  | .stretch => t.stretch = s.stretch
  | .latches => t.latches = s.latches
  | .locked => t.locked = s.locked
  | .sels => t.sels = s.sels
  | .commons => t.commons = s.commons
  | .commonsPoison => t.commonsPoison = s.commonsPoison ∧ t.commonsCounted = s.commonsCounted
  | .acc => t.acc = s.acc
  | .opbuf => t.opbuf = s.opbuf
  | .freeFrames => t.freeFrames = s.freeFrames
  | .atLatch => t.atLatch = s.atLatch
  | .freeCtr => t.freeCtr = s.freeCtr
  | .out => t.out = s.out
  | .domMem => ∀ d a, ¬ inRing s d a → memRead (t.dom d).mem a = memRead (s.dom d).mem a
  | q => ∀ d, q.keptDom (s.dom d) (t.dom d)

/-- Every part of a domain but those listed is the same in x and y. -/
def DomFrame (l : List Part) (x y : Dom) : Prop := ∀ p, p ∉ l → p.keptDom x y

/-- Every part of the state but those listed is the same in s and t, and so are the queue and the trace's setting. -/
structure Frame (l : List Part) (s t : State) : Prop where
  pending : t.pending = s.pending
  ring : t.dbg.traceEn = s.dbg.traceEn ∧ t.dbg.traceBase = s.dbg.traceBase ∧ t.dbg.traceLog2 = s.dbg.traceLog2
  kept : ∀ p, p ∉ l → p.kept s t

/-- The parts of l, and those that an event moves: its bit in the views, a Pending bit or a message, and a record of the trace with its counters (R408, R469, R487). -/
def withEvents (l : List Part) : List Part := .pciPending :: .traceHead :: .views :: .counters :: .out :: l

/-- An outcome that, where it is a next state, keeps the frame. -/
def FrameOut (l : List Part) (s : State) (o : Host.Outcome State Fault Refusal) : Prop := ∀ t, o = .next t → Frame l s t

/-! ## What a completed command leaves -/

/-- The command register of a page takes a command from a view: the view is open, and the previous result stands posted (R123). -/
def Ready (s : State) (v : View) (page : Nat) (posted : Bool) : Prop :=
  s.viewOpen v = true ∧ (posted = true ∨ (s.pair (s.viewCopy v page) page).issued = false)

/-- Bits 62 to 0 of r stand in the result register of a pair, with VALID (R123). -/
def Answered (t : State) (copy page r : Nat) : Prop := (t.pair copy page).result = w64 (r % 2 ^ 63 + 2 ^ 63)

/-- Of the pairs, only that of a copy of a page may differ. -/
def OnlyPair (s t : State) (copy page : Nat) : Prop :=
  ∀ e g, 256 * e + g ≠ 256 * copy + page → t.pair e g = s.pair e g

/-- Of the domains, only d may differ; of domain 0's memory, also the trace ring. -/
def OnlyDom (s t : State) (d : Nat) : Prop :=
  ∀ e, e ≠ d → (∀ p : Part, p ≠ .domMem → p.keptDom (s.dom e) (t.dom e)) ∧
    ∀ a, ¬ inRing s e a → memRead (t.dom e).mem a = memRead (s.dom e).mem a

/-- Of the slots, only k may differ. -/
def OnlySlot (s t : State) (k : Nat) : Prop := ∀ j, j ≠ k → t.slot j = s.slot j

/-- Of the stacks, only k may differ. -/
def OnlyMbd (s t : State) (k : Nat) : Prop := ∀ j, j ≠ k → t.mbd j = s.mbd j

/-- Of the ports, only p may differ. -/
def OnlyPort (s t : State) (p : Nat) : Prop := ∀ j, j ≠ p → t.port j = s.port j

/-- Nothing but the parts of l has changed, and domain d alone among the domains. -/
def DomainFrame (l : List Part) (d : Nat) (s t : State) : Prop := Frame l s t ∧ OnlyDom s t d

end Sys2Proof.Safety
end

