-- ==== Sys2Proof/Certificates/Slice0/Obligations.lean ====
section
/-! DEFINITION. The statements about the model, for the provers: what each command completes with, what it leaves alone, and what every step keeps. -/

open Sys2Proof Sys2Proof.Machine Sys2Proof.Safety

/-! ## The block and its queue -/

/-- Log 3: a step takes the command at the front of the queue and runs it on the state with the rest of the queue; on an empty queue the block idles. -/
def Obligations.StepRunsFrontCommand : Prop :=
  (∀ (c : Instr) (rest : List Instr) (s : State), s.pending = c :: rest → step s = exec c { s with pending := rest }) ∧
  ∀ s : State, s.pending = [] → step s = .next s

/-- No command ends in a fault or a refusal, whatever its operands and the state. -/
def Obligations.EveryCommandRuns : Prop := ∀ (c : Instr) (s : State), ∃ t, exec c s = .next t

/-- R423, R44, R413, R449: what reset leaves: no command waits, no supply, every domain FREE with its queue empty and 16,384 words of credit, every slot FREE at generation 0, the recipe rows of R44, every memory reading as zero, no event and no lock set. -/
def Obligations.ResetLeaves : Prop :=
  State.reset.pending = [] ∧ State.reset.boot.phase = .off ∧ State.reset.boot.perstN = false ∧
  (∀ d, (State.reset.dom d).phase = .free ∧ (State.reset.dom d).queue.written = 0 ∧ (State.reset.dom d).queue.limit = 16384 ∧
    (State.reset.dom d).queue.compl = [] ∧ ∀ a, memRead (State.reset.dom d).mem a = 0) ∧
  (∀ k, (State.reset.slot k).state = .free ∧ (State.reset.slot k).gen = 0) ∧
  (∀ p, (State.reset.port p).state = .down ∧ (State.reset.port p).enable = true) ∧
  State.reset.recipe.map (fun r => (r.fmt, r.escEn, r.escShift)) =
    [(8, false, 1), (8, false, 1), (4, false, 1), (5, false, 1), (2, false, 1), (1, false, 1), (4, false, 1)] ∧
  (∀ c p, (State.reset.view c p).event = 0 ∧ (State.reset.view c p).enable = 0 ∧ (State.reset.pair c p).result = 0) ∧
  (∀ e g i, State.reset.counter e g i = 0) ∧ (∀ a, memRead State.reset.commons a = 0) ∧ State.reset.locked = []

/-- The state after reset meets the invariant of every step. -/
def Obligations.ResetMeetsInvariant : Prop := MemoryWf State.reset ∧ LifeForward State.reset

/-- R287, R127, R418, R434: every step, from every state that meets it, keeps the invariant: each memory of the device (the domains' ranges and save areas, the commons, the operand buffers, both base images, the SPI NOR and the MSI-X tables) stays in canonical form, and the life-cycle state that waits for the next reset does not lie before the present one. -/
def Obligations.EveryStepKeepsInvariant : Prop :=
  ∀ s t : State, MemoryWf s → LifeForward s → step s = .next t → MemoryWf t ∧ LifeForward t

/-- R433, R434, R441, R446: no command, whatever its operands and the state, lowers MIN_SVN or the number of its raises, draws an entropy value or a nonce twice, or reaches behind itself in the queue; and from a state whose waiting life-cycle state does not lie before the present one, none moves the life cycle back. -/
def Obligations.NothingFusedGoesBack : Prop :=
  ∀ (c : Instr) (s t : State), exec c s = .next t →
    t.pending = s.pending ∧ s.fuses.minSvn ≤ t.fuses.minSvn ∧ s.fuses.svnRaises ≤ t.fuses.svnRaises ∧
    s.lks.draws ≤ t.lks.draws ∧ s.lks.nonces ≤ t.lks.nonces ∧ s.freeCtr ≤ t.freeCtr ∧
    (LifeForward s → lifeRank s.fuses.life ≤ lifeRank t.fuses.life)

/-! ## What a command register leaves (R123) -/

/-- What a completed command of a page leaves besides its effect: its result word posted, and every other pair and domain as before. -/
def Sys2Proof.Safety.Leaves (s t : State) (v : View) (page r : Nat) : Prop :=
  Answered t (s.viewCopy v page) page r ∧ OnlyPair s t (s.viewCopy v page) page ∧ OnlyDom s t (s.viewDom v page)

/-- The event bit stands in each of the copies of a page (R408, R469). -/
def Sys2Proof.Safety.EventIn (t : State) (copies : List Nat) (page bit : Nat) : Prop :=
  ∀ c ∈ copies, (t.view c page).event.getLsbD bit = true

/-! ## Variants (05) -/

/-- A command of the VAR page that its page takes, on a slot of the domain shown, at the slot's generation (R117, R123, R124). -/
def Sys2Proof.Safety.VarReady (s : State) (v : View) (posted : Bool) (slot : BitVec 14) (gen : W16) : Prop :=
  Ready s v pVar posted ∧ s.granted (s.viewDom v pVar) slot.toNat = true ∧ (s.slot slot.toNat).gen = gen

/-- What a command of the VAR page leaves besides its effect: its result word posted, and every other pair, slot and domain as before. -/
def Sys2Proof.Safety.VarLeaves (s t : State) (v : View) (slot : BitVec 14) (status op : Nat) : Prop :=
  Answered t (s.viewCopy v pVar) pVar (varWord status op 0 (t.slot slot.toNat).gen slot.toNat) ∧
  OnlyPair s t (s.viewCopy v pVar) pVar ∧ OnlySlot s t slot.toNat ∧ OnlyDom s t (s.viewDom v pVar)

/-- R118, R119, R124, R125: a CLAIM with good arguments of a FREE slot at its generation makes the slot HELD with the arguments' fields and the next generation, which skips 0, and answers DONE with it. A CLAIM of a slot that is not FREE, or of a FREE slot at another generation, answers SLOT_HELD or STALE_SLOT with the present generation and changes no slot. -/
def Obligations.ClaimIsCompareAndSet : Prop :=
  ∀ (s : State) (v : View) (posted : Bool) (slot : BitVec 14) (gen : W16),
    let a0 := s.arg (s.viewCopy v pVar) pVar 0
    let a1 := s.arg (s.viewCopy v pVar) pVar 1
    let e := s.slot slot.toNat
    let g : W16 := if gen = 0xFFFF then 1 else gen + 1
    Ready s v pVar posted → s.granted (s.viewDom v pVar) slot.toNat = true → bitsOf a0 56 8 = 0 → bitsOf a1 20 44 = 0 →
    bitsOf a1 16 4 = 8 → 1 ≤ bitsOf a0 48 6 → bitsOf a0 48 6 ≤ 32 → bitsOf a1 0 16 ≠ 0 → bitsOf a0 0 48 % 64 = 0 →
    ∃ t, exec (.claim v posted slot gen 0) s = .next t ∧
      (e.state = .free → e.gen = gen → VarLeaves s t v slot 0x00 1 ∧ t.slot slot.toNat =
        { state := .held, gen := g, home := bitsOf a0 0 48, rank8 := bitsOf a0 48 6, train := bitOf a0 54,
          expert := bitOf a0 55, projMask := BitVec.ofNat 16 (bitsOf a1 0 16), fmt := 8 }) ∧
      (e.state ≠ .free → VarLeaves s t v slot 0x02 1 ∧ t.slots = s.slots) ∧
      (e.state = .free → e.gen ≠ gen → VarLeaves s t v slot 0x03 1 ∧ t.slots = s.slots)

/-- R120, R124, R126, R128, R129, R130, R133: where a slot's state and resources allow it, LOAD makes the slot LOADING with as many free granules as its directory asks for, twice as many for a TRAIN slot (log 139), and queues the load; STAGE queues the copies of the mask's projections; FLUSH queues a write-back; each answers ACCEPTED. -/
def Obligations.LoadStageFlushQueueWork : Prop :=
  ∀ (s : State) (v : View) (posted : Bool) (slot : BitVec 14) (gen : W16), VarReady s v posted slot gen →
    let d := s.viewDom v pVar
    let k := slot.toNat
    let e := s.slot k
    let le := { e with dir := (s.readDir d e).1 }
    let g := le.granuleCount
    let gs := (State.pickFree (if e.train then 2 * g else g) (s.freeGranules d) s).1
    let mask := BitVec.ofNat 16 (s.arg (s.viewCopy v pVar) pVar 0)
    (e.state = .held → (s.readDir d e).2 = false → s.inRange d e.home 256 = true → s.dirOk d le = true →
      (if e.train then 2 * g else g) ≤ s.cacheFree d →
      ∃ t, exec (.load v posted slot gen 0) s = .next t ∧ VarLeaves s t v slot 0x01 2 ∧
        t.slot k = { le with state := .loading, granules := g, gran0 := gs.take g, gran1 := gs.drop g, buf1Written := [] } ∧
        (t.dom d).var_.queue = (s.dom d).var_.queue ++ [{ kind := .load, slot := k, left := roundUp le.imageBytes 4096 }]) ∧
    (e.state = .live → s.arg (s.viewCopy v pVar) pVar 0 < 65536 → mask &&& ~~~ e.projMask = 0 →
      e.stageUnits (mask &&& ~~~ s.stageClaimed d k) ≤ s.stageFree d →
      ∃ t, exec (.stage v posted slot gen 0) s = .next t ∧ VarLeaves s t v slot 0x01 5 ∧ t.slots = s.slots ∧
        (t.dom d).var_.queue = (s.dom d).var_.queue ++
          [{ kind := .stage mask, slot := k, left := roundUp ((projsOf mask).map e.stagedBytes).sum 4096 }]) ∧
    (e.state = .live →
      ∃ t, exec (.flush v posted slot gen 0) s = .next t ∧ VarLeaves s t v slot 0x01 10 ∧ t.slots = s.slots ∧
        (t.dom d).var_.queue = (s.dom d).var_.queue ++ [{ kind := .writeBack, slot := k, left := roundUp e.imageBytes 4096 }])

/-- R120, R121, R124, R132, R133, R141: PARK and RELEASE of a LIVE slot and UNSTAGE wait for the plan latch and answer ACCEPTED, a PARK of a DIRTY slot with its write-back queued; RELEASE of a HELD slot frees it at once, with its generation kept, leaves the positions that it holds as a parent to the plan latch, and answers DONE. -/
def Obligations.ParkReleaseUnstageWaitForLatch : Prop :=
  ∀ (s : State) (v : View) (posted : Bool) (slot : BitVec 14) (gen : W16), VarReady s v posted slot gen →
    let d := s.viewDom v pVar
    let k := slot.toNat
    let e := s.slot k
    let a0 := s.arg (s.viewCopy v pVar) pVar 0
    (e.state = .live → s.leaving k = false →
      ∃ t, exec (.park v posted slot gen 0) s = .next t ∧ VarLeaves s t v slot 0x01 3 ∧ t.slots = s.slots ∧
        t.atLatch = s.atLatch ++ [.slotPark k] ∧
        (t.dom d).var_.queue = (s.dom d).var_.queue ++
          (if e.dirty then [{ kind := .writeBack, slot := k, left := roundUp e.imageBytes 4096, blocked := true }] else [])) ∧
    (e.state = .live → s.leaving k = false → (s.dom d).var_.bound k = false →
      ∃ t, exec (.release v posted slot gen 0) s = .next t ∧ VarLeaves s t v slot 0x01 4 ∧ t.slots = s.slots ∧
        t.atLatch = s.atLatch ++ [.slotRelease k]) ∧
    (e.state = .held → s.leaving k = false → (s.dom d).var_.bound k = false →
      ∃ t, exec (.release v posted slot gen 0) s = .next t ∧ VarLeaves s t v slot 0x00 4 ∧ t.slot k = { gen := e.gen } ∧
        t.atLatch = s.atLatch ++
          ((s.dom d).var_.experts.filter (fun p => p.2.xgen != 0 && p.2.parent == k)).map (fun p => .expertFree d p.1)) ∧
    (e.state = .live → a0 < 65536 →
      ∃ t, exec (.unstage v posted slot gen 0) s = .next t ∧ VarLeaves s t v slot 0x01 6 ∧ t.slots = s.slots ∧
        t.atLatch = s.atLatch ++ [.unstage k (BitVec.ofNat 16 a0)])

/-- R119, R124: QUERY puts the entry of a granted slot into VAR_ARG0 to VAR_ARG3, whatever generation the command carries, and answers DONE. -/
def Obligations.VarQueryReturnsEntry : Prop :=
  ∀ (s : State) (v : View) (posted : Bool) (slot : BitVec 14) (gen : W16), Ready s v pVar posted →
    let d := s.viewDom v pVar
    let e := s.slot slot.toNat
    s.granted d slot.toNat = true →
    ∃ t, exec (.varQuery v posted slot gen 0) s = .next t ∧ VarLeaves s t v slot 0x00 7 ∧ t.slots = s.slots ∧
      t.arg (s.viewCopy v pVar) pVar 0 = fld e.state.code 0 3 + fld (bit01 e.expert) 3 1 + fld (bit01 e.train) 4 1 +
        fld (bit01 e.dirty) 5 1 + fld d 6 6 + fld e.rank8 12 6 + fld e.gen.toNat 18 16 + fld e.projMask.toNat 34 16 + fld e.fmt 50 4 ∧
      t.arg (s.viewCopy v pVar) pVar 1 = fld e.home 0 48 + fld e.stagedMask.toNat 48 16 ∧
      t.arg (s.viewCopy v pVar) pVar 2 = fld e.verCur.toNat 0 32 + fld (bit01 e.curBuf) 32 1 + fld (bit01 e.oldHeld) 33 1 +
        fld e.refCur 34 9 + fld e.refOld 43 9 ∧
      t.arg (s.viewCopy v pVar) pVar 3 = fld e.stagedVer.toNat 0 32 + fld e.granules 32 16 ∧
      ∀ i, 4 ≤ i → i < 8 → t.arg (s.viewCopy v pVar) pVar i = s.arg (s.viewCopy v pVar) pVar i

/-- R138, R139, R121: an EXPERT_CLAIM whose parent and entries pass every check binds each entry's slot to its position, with the position's generation advanced, and leaves the binding to the plan latch; EXPERT_RELEASE at a position's generation leaves the position's release to the plan latch. Both answer DONE. -/
def Obligations.ExpertPositionsChangeAtLatch : Prop :=
  ∀ (s : State) (v : View) (posted : Bool) (slot : BitVec 14) (gen : W16), Ready s v pVar posted →
    let d := s.viewDom v pVar
    let c := s.viewCopy v pVar
    let a0 := s.arg c pVar 0
    let layer := bitsOf a0 0 8
    let x := expertArgOf (s.arg c pVar 1)
    let p := s.slot slot.toNat
    (s.granted d slot.toNat = true → p.gen = gen → p.expert = false → p.state ≠ .free → p.state ≠ .releasing →
      bitsOf a0 8 56 = 0 → x.rsv = 0 → layer < s.moeLayers →
      ((s.dom d).var_.experts.filter (fun q => q.1 / 64 == layer && q.2.xgen != 0 && q.2.parent == slot.toNat)).length < 4 →
      s.granted d x.xslot = true → (s.slot x.xslot).gen = x.xgen → (s.slot x.xslot).expert = true → (s.slot x.xslot).state ≠ .free →
      (s.dom d).var_.bound x.xslot = false → ((s.dom d).var_.pos layer x.pos).xgen = 0 →
      ((s.dom d).var_.pos layer x.pos).posGen = x.posGen →
      ∃ t, exec (.expertClaim v posted slot gen 0) s = .next t ∧ VarLeaves s t v slot 0x00 8 ∧ t.slots = s.slots ∧
        t.atLatch = s.atLatch ++ [.expertBind d (64 * layer + x.pos)] ∧
        (t.dom d).var_.experts = mapSet (s.dom d).var_.experts (64 * layer + x.pos)
          { xslot := x.xslot, xgen := x.xgen, parent := slot.toNat, posGen := if x.posGen = 0xFFFF then 1 else x.posGen + 1,
            pending := true }) ∧
    (bitsOf a0 30 34 = 0 → ((s.dom d).var_.pos layer (bitsOf a0 8 6)).posGen.toNat = bitsOf a0 14 16 →
      ∃ t, exec (.expertRelease v posted slot gen 0) s = .next t ∧ t.slots = s.slots ∧
        Answered t c pVar (varWord 0x00 9 0 ((s.dom d).var_.pos layer (bitsOf a0 8 6)).posGen slot.toNat) ∧
        t.atLatch = s.atLatch ++ [.expertFree d (64 * layer + bitsOf a0 8 6)] ∧ OnlyPair s t c pVar)

/-- R120, R121, R132, R133, R136: the ends of Cooper's work on slot k of domain d. A load whose bytes are carried ends in LIVE at the latch, or in HELD if a byte of the home image or of its directory reads as poison; a failed read drops the load; a PARKING slot without stamps or unwritten bytes becomes HELD and empty; a RELEASING slot without stamps becomes FREE with its generation; a stage whose bytes are carried becomes readable at the latch. -/
def Obligations.CooperWorkEnds : Prop :=
  ∀ (s : State) (slot : BitVec 14) (d : Nat), s.slotOwner slot.toNat = some d →
    let k := slot.toNat
    let e := s.slot k
    let others := fun (t : State) => (t.dom d).var_.queue = (s.dom d).var_.queue.filter (fun i => i.slot != k)
    (e.state = .loading → (s.carried d k CoopKind.isLoad).isSome →
      ∃ t, exec (.loadComplete slot) s = .next t ∧ others t ∧ OnlySlot s t k ∧ OnlyDom s t d ∧
        if ((0, 256) :: e.extents).any (fun x => (s.rdMem d (e.home + x.1) x.2).2) then
          t.slots = s.slots ∧ t.atLatch = s.atLatch ++ [.slotLoadFailed k]
        else t.atLatch = s.atLatch ++ [.slotLive k] ∧ (t.slot k).state = .loading) ∧
    (e.state = .loading → .slotLive k ∉ s.atLatch → .slotLoadFailed k ∉ s.atLatch →
      ∃ t, exec (.loadFailed slot) s = .next t ∧ others t ∧ OnlyDom s t d ∧ t.slots = s.slots ∧
        t.atLatch = s.atLatch ++ [.slotLoadFailed k]) ∧
    (e.state = .parking → e.refCur = 0 → e.refOld = 0 → e.dirty = false →
      ∃ t, exec (.parkDone slot) s = .next t ∧ others t ∧ OnlySlot s t k ∧ OnlyDom s t d ∧ t.atLatch = s.atLatch ∧
        (t.slot k).state = .held ∧ (t.slot k).gen = e.gen ∧ (t.slot k).granules = 0 ∧ (t.slot k).stagedMask = 0 ∧
        (t.slot k).dirty = false) ∧
    (e.state = .releasing → e.refCur = 0 → e.refOld = 0 →
      ∃ t, exec (.releaseDone slot) s = .next t ∧ others t ∧ OnlySlot s t k ∧ OnlyDom s t d ∧ t.slot k = { gen := e.gen }) ∧
    (e.state = .live → ∀ i mask, s.carried d k CoopKind.isStage = some i → i.kind = .stage mask →
      ∃ t, exec (.stageComplete slot) s = .next t ∧ OnlyDom s t d ∧ t.slots = s.slots ∧
        (t.dom d).var_.queue = (s.dom d).var_.queue.erase i ∧
        t.atLatch = s.atLatch ++ [.staged k mask e.verCur ((projsOf mask).map (fun p => (p, s.stageCopy d k e p)))])

/-- R120, R121, R123: each command of the VAR page, whatever it answers, and each end of Cooper's work changes only the parts listed for it. -/
def Obligations.VariantCommandsKeepTheRest : Prop :=
  ∀ (s : State) (v : View) (posted : Bool) (slot : BitVec 14) (gen : W16) (rsv : BitVec 30),
    FrameOut (withEvents [.slots, .pairs]) s (exec (.claim v posted slot gen rsv) s) ∧
    FrameOut (withEvents [.slots, .pairs, .freeCtr, .domVar]) s (exec (.load v posted slot gen rsv) s) ∧
    FrameOut (withEvents [.pairs, .atLatch, .domVar]) s (exec (.park v posted slot gen rsv) s) ∧
    FrameOut (withEvents [.slots, .pairs, .atLatch]) s (exec (.release v posted slot gen rsv) s) ∧
    FrameOut (withEvents [.pairs, .domVar]) s (exec (.stage v posted slot gen rsv) s) ∧
    FrameOut (withEvents [.pairs, .atLatch]) s (exec (.unstage v posted slot gen rsv) s) ∧
    FrameOut (withEvents [.pairs]) s (exec (.varQuery v posted slot gen rsv) s) ∧
    FrameOut (withEvents [.pairs, .domVar]) s (exec (.flush v posted slot gen rsv) s) ∧
    FrameOut (withEvents [.pairs, .atLatch, .domVar]) s (exec (.expertClaim v posted slot gen rsv) s) ∧
    FrameOut (withEvents [.pairs, .atLatch]) s (exec (.expertRelease v posted slot gen rsv) s) ∧
    FrameOut [.atLatch, .domVar, .domTir, .domMem, .domPoison] s (exec (.loadComplete slot) s) ∧
    FrameOut [.atLatch, .domVar] s (exec (.loadFailed slot) s) ∧
    FrameOut (withEvents [.slots, .atLatch, .domVar]) s (exec (.parkDone slot) s) ∧
    FrameOut [.slots, .atLatch, .domVar] s (exec (.releaseDone slot) s) ∧
    FrameOut [.atLatch, .domVar] s (exec (.stageComplete slot) s)

/-! ## Sequences and their pages (08) -/

/-- R207, R208, R220: SEQ_OPEN with good arguments of a CLOSED sequence that the pool still has room for makes it ACTIVE with the arguments' table, columns and layers, no rows written, and answers DONE; every byte of its page table, a range without poison, reads 0, and every other byte of the range outside the trace ring is as before. A sequence that is not CLOSED answers 0x0A and is as before. -/
def Obligations.SeqOpenClearsTable : Prop :=
  ∀ (s : State) (v : View) (posted : Bool) (seq : W16), Ready s v pKvp posted →
    let d := s.viewDom v pKvp
    let a0 := s.arg (s.viewCopy v pKvp) pKvp 0
    let a1 := s.arg (s.viewCopy v pKvp) pKvp 1
    let k := (s.dom d).kvp
    let pt := bitsOf a0 0 48
    let cols := bitsOf a0 48 16
    let layers := bitsOf a1 0 6 + 1
    let n := 4 * layers * cols
    let q : SeqEntry :=
      { state := .active, dropOk := bitOf a1 6, layers := layers, ptAddr := pt, ptCols := cols,
        wr := List.replicate layers 0, rf := List.replicate layers 0, tent := List.replicate layers 0 }
    pt % 4 = 0 → cols ≠ 0 → bitsOf a1 7 57 = 0 → s.inRange d pt n = true →
    ((k.seq seq.toNat).state ≠ .closed →
      ∃ t, exec (.seqOpen v posted seq 0) s = .next t ∧ Leaves s t v pKvp (kvpWord 0x0A 1 seq.toNat) ∧ (t.dom d).kvp = k) ∧
    ((k.seq seq.toNat).state = .closed → k.heldPages.length + statePages (k.openSeqs + 1) ≤ 32 * (s.dom d).rec_.kvPages →
      poisonHit (s.dom d).poison 64 pt n = false →
      ∃ t, exec (.seqOpen v posted seq 0) s = .next t ∧ Leaves s t v pKvp (kvpWord 0x00 1 seq.toNat) ∧
        (t.dom d).kvp = { k with seqs := mapSet k.seqs seq.toNat q } ∧
        ∀ a, ¬ inRing s d a → memRead (t.dom d).mem a = if pt ≤ a ∧ a < pt + n then 0 else memRead (s.dom d).mem a)

/-- R208, R220: SEQ_CLOSE of a sequence that no slab names waits for the plan latch and answers DONE; of one that a slab names it answers 0x08 and nothing waits. SET_DROP waits for the plan latch with bit 0 of its argument. -/
def Obligations.SeqCloseAndDropWaitForLatch : Prop :=
  ∀ (s : State) (v : View) (posted : Bool) (seq : W16), Ready s v pKvp posted →
    let d := s.viewDom v pKvp
    (s.namesSeq d seq.toNat = false →
      ∃ t, exec (.seqClose v posted seq 0) s = .next t ∧ Leaves s t v pKvp (kvpWord 0x00 2 seq.toNat) ∧
        t.atLatch = s.atLatch ++ [.seqClose d seq.toNat] ∧ (t.dom d).kvp = (s.dom d).kvp) ∧
    (s.namesSeq d seq.toNat = true →
      ∃ t, exec (.seqClose v posted seq 0) s = .next t ∧ Leaves s t v pKvp (kvpWord 0x08 2 seq.toNat) ∧
        t.atLatch = s.atLatch ∧ (t.dom d).kvp = (s.dom d).kvp) ∧
    ∃ t, exec (.setDrop v posted seq 0) s = .next t ∧ Leaves s t v pKvp (kvpWord 0x00 5 seq.toNat) ∧
      t.atLatch = s.atLatch ++ [.setDrop d seq.toNat (bitOf (s.arg (s.viewCopy v pKvp) pKvp 0) 0)] ∧ (t.dom d).kvp = (s.dom d).kvp

/-- R205, R211, R221: COMMIT of a batch whose tentative rows stand in every layer keeps its mask for the settle phase and counts its copies, where the tick's rows allow them, and answers DONE; where they do not it answers 0x08. KVP_GEOM takes the row width and the size while no sequence is open and a page holds 16 rows; else it keeps what it holds (log 79). -/
def Obligations.CommitAndGeometry : Prop :=
  ∀ (s : State) (v : View) (posted : Bool) (seq : W16) (value : W32),
    let d := s.viewDom v pKvp
    let a := s.arg (s.viewCopy v pKvp) pKvp 0
    let k := (s.dom d).kvp
    let q := k.seq seq.toNat
    let mask := bitsOf a 0 16
    let tent := q.tent.headD 0
    let n := q.layers * (commitCopies mask).length
    (Ready s v pKvp posted → q.state ≠ .closed → q.commitMask = none → tent ≠ 0 → (∀ x ∈ q.tent, x = tent) →
      q.tentBatch = bitsOf a 16 16 → mask < 2 ^ tent →
      ∃ t, exec (.kvpCommit v posted seq 0) s = .next t ∧ t.atLatch = s.atLatch ∧
        (k.commitUsed + n ≤ k.commitRows → Leaves s t v pKvp (kvpWord 0x00 3 seq.toNat) ∧
          (t.dom d).kvp = { k with seqs := mapSet k.seqs seq.toNat { q with commitMask := some mask }, commitUsed := k.commitUsed + n }) ∧
        (k.commitRows < k.commitUsed + n → Leaves s t v pKvp (kvpWord 0x08 3 seq.toNat) ∧ (t.dom d).kvp = k)) ∧
    (s.viewOpen v = true →
      (k.openSeqs = 0 → 16 ≤ kvPageRows (bitsOf value.toNat 0 7) (bitsOf value.toNat 7 4) →
        ∃ t, exec (.kvpGeomWrite v value) s = .next t ∧ OnlyDom s t d ∧
          (t.dom d).kvp = { k with h := bitsOf value.toNat 0 7, d32 := bitsOf value.toNat 7 4 }) ∧
      (k.openSeqs ≠ 0 ∨ kvPageRows (bitsOf value.toNat 0 7) (bitsOf value.toNat 7 4) < 16 →
        exec (.kvpGeomWrite v value) s = .next s))

/-- R208, R220: QUERY with bit 6 of its argument clear puts the sequence's entry into the argument registers 0 to 3, and with it set the written and refilled rows of the layer named; registers 4 to 7 are as before, and it answers DONE. A layer that the sequence does not have answers 0x05. -/
def Obligations.KvpQueryReturnsSequence : Prop :=
  ∀ (s : State) (v : View) (posted : Bool) (seq : W16), Ready s v pKvp posted →
    let d := s.viewDom v pKvp
    let c := s.viewCopy v pKvp
    let a := s.arg c pKvp 0
    let l := bitsOf a 0 6
    let q := (s.dom d).kvp.seq seq.toNat
    ∃ t, exec (.kvpQuery v posted seq 0) s = .next t ∧ (t.dom d).kvp = (s.dom d).kvp ∧ t.atLatch = s.atLatch ∧
      (bitOf a 6 = true → q.layers ≤ l → Leaves s t v pKvp (kvpWord 0x05 4 seq.toNat) ∧ ∀ i, t.arg c pKvp i = s.arg c pKvp i) ∧
      (bitOf a 6 = true → l < q.layers → Leaves s t v pKvp (kvpWord 0x00 4 seq.toNat) ∧
        t.arg c pKvp 0 = q.wr.getD l 0 % 2 ^ 32 + 2 ^ 32 * (q.rf.getD l 0 % 2 ^ 32) ∧
        ∀ i, 1 ≤ i → i < 8 → t.arg c pKvp i = if i < 4 then 0 else s.arg c pKvp i) ∧
      (bitOf a 6 = false → Leaves s t v pKvp (kvpWord 0x00 4 seq.toNat) ∧
        t.arg c pKvp 0 = fld q.len 0 32 + fld (q.tent.foldl max 0) 32 5 + fld q.state.code 37 2 + fld (bit01 q.dropOk) 39 1 +
          fld (q.layers - 1) 40 6 ∧
        t.arg c pKvp 1 = fld q.ptAddr 0 48 + fld q.ptCols 48 16 ∧
        t.arg c pKvp 2 = fld q.dropEnd 0 32 + fld (q.rf.getD (q.layers - 1) 0) 32 32 ∧
        t.arg c pKvp 3 = fld q.tentBatch 0 16 + fld q.lastStatus 16 8 ∧
        ∀ i, 4 ≤ i → i < 8 → t.arg c pKvp i = s.arg c pKvp i)

/-! ## The base (09) -/

/-- A command of Carter that its page takes: from the PF's view in region 0 (R246, R123). -/
def Sys2Proof.Safety.BasReady (s : State) (v : View) (posted : Bool) : Prop := isRegion0 v = true ∧ Ready s v pBas posted

/-- The region of the base is taken, or the frames for it are free and its staging pages fit it (R230). -/
def Sys2Proof.Safety.RegionFits (s : State) : Prop :=
  s.bas.regionTaken = true ∨ (s.bas.regionPages ≤ s.freeFrames ∧ s.bas.stagePages ≤ s.bas.regionPages)

/-- R228, R230, R235, R238, R245: BUILD of an EMPTY copy slot, with the other EMPTY or ACTIVE at another generation, after whatever errors its reads meet, from a manifest that R228 accepts and whose stripes find pages or the flash tier, takes the region's frames if none holds them, makes the copy of that manifest with no stripe verified, BUILDING, or READY where the flash tier holds every stripe, and answers ACCEPTED; the other copy slot is as before. SWITCH of a READY copy at its generation is due at the next plan latch, or the one after when the cut-off has passed; one accepted before keeps its latch. ABORT of a copy that is BUILDING or READY empties its slot, keeps its pages and T units back until the latch, drops a due switch to it, and answers DONE. -/
def Obligations.BaseCopiesBuildSwitchAbort : Prop :=
  ∀ (s : State) (v : View) (posted : Bool) (copy : Bool), BasReady s v posted →
    let k := bit01 copy
    let a0 := s.arg (s.viewCopy v pBas) pBas 0
    let a := a0 % 2 ^ 48
    (∀ errors m ts moe peers,
      let u := (s.meetErrors 0 errors).1
      (s.copy k).state = .empty →
      (s.copy (1 - k)).state = .empty ∨ ((s.copy (1 - k)).state = .active ∧ (u.copy (1 - k)).gen ≠ m.gen) →
      a % 64 = 0 → RegionFits s → u.readManifest a = some (m, ts, moe, peers) →
      let c := (u.takeRegion.newCopy a m ts moe peers).1
      let held := c.stripeMap.filter (fun p => p.2.flashHeld || p.2.state == .resident || p.2.state == .lost)
      m.ns ≠ 0 ∨ c.stripeMap.any (fun p => !c.flashOnly p.1) = false →
      ∃ t, exec (.build v posted ⟨copy, errors⟩ 0) s = .next t ∧ Leaves u t v pBas (basWord 0x01 1) ∧
        t.freeFrames = (if s.bas.regionTaken then s.freeFrames else s.freeFrames - s.bas.regionPages) ∧
        t.copy (1 - k) = u.copy (1 - k) ∧ t.bas.regionTaken = true ∧ t.bas.buildDone = 0 ∧
        t.copy k = { c with state := if held.length = c.stripes then .ready else .building }) ∧
    ((s.copy k).state = .ready → (s.copy k).gen = a0 % 2 ^ 32 →
      ∃ t, exec (.switch v posted copy 0) s = .next t ∧ Leaves s t v pBas (basWord 0x00 2) ∧
        t.bas = { s.bas with switchAt := if s.bas.switchAt.map Prod.fst = some k then s.bas.switchAt
                                         else some (k, s.tik.tick + if s.tik.cutoffPassed then 2 else 1) }) ∧
    ((s.copy k).state ≠ .ready →
      ∃ t, exec (.switch v posted copy 0) s = .next t ∧ Leaves s t v pBas (basWord 0x0A 2) ∧ t.bas = s.bas) ∧
    ((s.copy k).state = .building ∨ (s.copy k).state = .ready →
      ∃ t, exec (.abort v posted copy 0) s = .next t ∧ Leaves s t v pBas (basWord 0x00 3) ∧ t.copy k = {} ∧
        t.copy (1 - k) = s.copy (1 - k) ∧ t.bas.backPages = s.bas.backPages ++ (s.copy k).pagesHeld ∧
        t.bas.backUnits = s.bas.backUnits ++ (s.copy k).unitsHeld ∧
        t.bas.switchAt = if s.bas.switchAt.map Prod.fst = some k then none else s.bas.switchAt)

/-- R231, R245: STAGE of a tensor of the ACTIVE copy answers DONE where no stripe of it is held in flash alone, else ACCEPTED with the tensor staged where the staging pages have room for its stripes, else 0x07. UNSTAGE of a staged tensor waits for the latch. QUERY puts the state of a stripe of the copy named into the first argument register. -/
def Obligations.BaseStagingAndQuery : Prop :=
  ∀ (s : State) (v : View) (posted : Bool) (copy : Bool), BasReady s v posted →
    let c := s.viewCopy v pBas
    let i := s.arg c pBas 0 % 2 ^ 24
    (∀ k, s.activeCopy = some k → i < (s.copy k).tensors.length →
      let x := s.copy k
      let w := x.tensors.getD i default
      let y := { x with staged := numAdd x.staged i, unstage := numDel x.unstage i }
      let room := y.stagedStripes.length - x.stagedStripes.length ≤ s.stageRoom
      (∃ t, exec (.basStage v posted copy 0) s = .next t ∧
        (x.flashResident w = false → Leaves s t v pBas (basWord 0x00 4) ∧ t.bas = s.bas) ∧
        (x.flashResident w = true → room → Leaves s t v pBas (basWord 0x01 4) ∧ t.copy k = y) ∧
        (x.flashResident w = true → ¬ room → Leaves s t v pBas (basWord 0x07 4) ∧ t.bas = s.bas)) ∧
      (∃ t, exec (.basUnstage v posted copy 0) s = .next t ∧ Leaves s t v pBas (basWord 0x00 5) ∧
        t.copy k = if x.staged.contains i then { x with unstage := numAdd x.unstage i } else x)) ∧
    (∃ t, exec (.basQuery v posted copy 0) s = .next t ∧ Leaves s t v pBas (basWord 0x00 6) ∧ t.bas = s.bas ∧
      let x := (s.copy (s.arg c pBas 1 % 2)).stripe (s.arg c pBas 0 % 2 ^ 32)
      t.arg c pBas 0 = x.state.code + 4 * bit01 x.flashHeld ∧ ∀ j, 1 ≤ j → j < 8 → t.arg c pBas j = s.arg c pBas j)

/-! ## Tiers and flash (11) -/

/-- Of count pages from p in ascending order, the first m are good, and the next, where there is one, fails with status st (R290). -/
def Sys2Proof.Safety.PageRun (fails : Nat → Option Nat) (p count m st : Nat) : Prop :=
  m ≤ count ∧ (∀ i, i < m → fails (p + i) = none) ∧ (m < count → fails (p + m) = some st)

/-- A command of the TIR page on m of count pages: the status of the failure, else ok; and DONE_PAGES (R290, R304). -/
def Sys2Proof.Safety.TirLeaves (s t : State) (v : View) (op count m st ok : Nat) : Prop :=
  Leaves s t v pTir (tirWord (if m = count then ok else st) op m)

/-- R288, R289, R290, R295: MOVE_UP queues a move up of each page without a frame that is not on its way up, EVICT a move down of each STACKED page, in ascending order, over any COUNT, and stop at the first page outside the range (0x0E), for EVICT also at a page that is UP (0x08) or pinned (0x0D), with the number of pages done. DISCARD of pages that are neither shared nor pinned, and RELOCATE by the PF of one STACKED page of the domain's own to a free frame of its quota, which is kept for it, wait for the plan latch; a frame serves one page, so RELOCATE stops at the second. Each answers ACCEPTED where something is queued, else DONE. -/
def Obligations.TierCommandsQueueMoves : Prop :=
  ∀ (s : State) (v : View) (posted : Bool) (page : BitVec 27) (count : W16) (m st : Nat), Ready s v pTir posted → count ≠ 0 →
    let d := s.viewDom v pTir
    let x := s.dom d
    let p := page.toNat
    let n := count.toNat
    let frame := s.arg (s.viewCopy v pTir) pTir 0 % 2 ^ 18
    let state := fun q => (s.pageEntry d q).state
    let ups := (List.range' p m).filter (fun q => state q == .flash || state q == .down)
    let downs := (List.range' p m).filter (fun q => state q == .stacked)
    (PageRun (fun q => if s.pageInRange d q then none else some 0x0E) p n m st →
      ∃ t, exec (.moveUp v posted page count 0) s = .next t ∧ TirLeaves s t v 1 n m st (if ups = [] then 0x00 else 0x01) ∧
        t.atLatch = s.atLatch ∧ (t.dom d).tir = { x.tir with queue := x.tir.queue ++ ups.map .up }) ∧
    (PageRun (fun q => if !s.pageInRange d q then some 0x0E else if state q = .up then some 0x08
        else if state q = .stacked ∧ s.pinnedPage d q = true then some 0x0D else none) p n m st →
      ∃ t, exec (.evict v posted page count 0) s = .next t ∧ TirLeaves s t v 2 n m st (if downs = [] then 0x00 else 0x01) ∧
        t.atLatch = s.atLatch ∧ (t.dom d).tir = { x.tir with queue := x.tir.queue ++ downs.map .down }) ∧
    (PageRun (fun q => if !s.pageInRange d q then some 0x0E
        else if (x.entry q).shared.isSome || s.pinnedPage d q then some 0x0A else none) p n m st →
      ∃ t, exec (.discard v posted page count 0) s = .next t ∧ TirLeaves s t v 6 n m st 0x01 ∧
        t.atLatch = s.atLatch ++ (List.range' p m).map (.discard d) ∧ (t.dom d).tir = x.tir) ∧
    (isPf v = true →
      PageRun (fun q => if !s.pageInRange d q then some 0x0E
        else if (x.entry q).shared.isSome || (x.entry q).state != .stacked || x.tirFree == 0 then some 0x0A
        else if q ≠ p ∨ runsHave x.tir.spare frame = false then some 0x05 else none) p n m st →
      ∃ t, exec (.relocate v posted page count 0) s = .next t ∧ TirLeaves s t v 7 n m st 0x01 ∧
        t.atLatch = s.atLatch ++ (List.range' p m).map (fun q => .relocate d q frame) ∧
        (t.dom d).tir = if m = 0 then x.tir else { x.tir with spare := runsCut x.tir.spare frame 1 })

/-- R288, R290, R295: PIN adds one to the PIN of each page that is not at 255 (0x05), queues a move up of each that is not STACKED, and answers ACCEPTED; UNPIN takes one from the PIN of each page that is not at 0 (0x0A), and answers DONE; both over any COUNT, in ascending order, up to the first page that fails, and every other page map entry of the domain is as before. -/
def Obligations.PinAndUnpinCountPages : Prop :=
  ∀ (s : State) (v : View) (posted : Bool) (page : BitVec 27) (count : W16) (m st : Nat), Ready s v pTir posted → count ≠ 0 →
    let d := s.viewDom v pTir
    let x := s.dom d
    let p := page.toNat
    let n := count.toNat
    let ups := (List.range' p m).filter (fun q => (s.pageEntry d q).state != .stacked)
    (PageRun (fun q => if !s.pageInRange d q then some 0x0E else if (x.entry q).pin = 255 then some 0x05 else none) p n m st →
      ∃ t, exec (.pin v posted page count 0) s = .next t ∧ TirLeaves s t v 3 n m st 0x01 ∧ t.atLatch = s.atLatch ∧
        (t.dom d).tir.queue = x.tir.queue ++ ups.map .up ∧
        ∀ q, (t.dom d).entry q = if p ≤ q ∧ q < p + m then { x.entry q with pin := (x.entry q).pin + 1 } else x.entry q) ∧
    (PageRun (fun q => if !s.pageInRange d q then some 0x0E else if (x.entry q).pin = 0 then some 0x0A else none) p n m st →
      ∃ t, exec (.unpin v posted page count 0) s = .next t ∧ TirLeaves s t v 4 n m st 0x00 ∧ t.atLatch = s.atLatch ∧
        (t.dom d).tir.queue = x.tir.queue ∧
        ∀ q, (t.dom d).entry q = if p ≤ q ∧ q < p + m then { x.entry q with pin := (x.entry q).pin - 1 } else x.entry q)

/-- R288, R290, R293, R303: QUERY of one page of the range puts its page map entry into the first argument register, FRAME only for the PF and a page that has one, and answers DONE. FLUSH_EXTENT of a domain with an extent and no flush pending notes the evictions that the flush waits for and answers ACCEPTED; with one pending it answers 0x08, and for a domain without an extent 0x0E. -/
def Obligations.TirQueryAndFlushExtent : Prop :=
  ∀ (s : State) (v : View) (posted : Bool) (page : BitVec 27), Ready s v pTir posted →
    let d := s.viewDom v pTir
    let c := s.viewCopy v pTir
    let x := s.dom d
    let p := page.toNat
    let e := s.pageEntry d p
    let h := s.homePage d p
    (s.pageInRange d p = true →
      ∃ t, exec (.tirQuery v posted page 1 0) s = .next t ∧ Leaves s t v pTir (tirWord 0x00 5 1) ∧ (t.dom d).tir = x.tir ∧
        t.arg c pTir 0 = fld e.state.code 0 2 + fld (bit01 e.dirty) 2 1 + fld (bit01 e.flashValid) 3 1 + fld (bit01 e.zero) 4 1 +
          fld (bit01 e.shared.isSome) 5 1 + fld (bit01 e.keySlot) 6 1 + fld e.pin 7 8 +
          (if isPf v && e.state != .flash then fld (s.frameOf h.1 h.2) 15 18 else 0) ∧
        ∀ i, 1 ≤ i → i < 8 → t.arg c pTir i = s.arg c pTir i) ∧
    ∃ t, exec (.flushExtent v posted 0 0 0) s = .next t ∧ t.atLatch = s.atLatch ∧
      (x.rec_.ns = 0 → Leaves s t v pTir (tirWord 0x0E 8 0) ∧ (t.dom d).tir = x.tir) ∧
      (x.rec_.ns ≠ 0 → x.tir.flushWait.isSome = true → Leaves s t v pTir (tirWord 0x08 8 0) ∧ (t.dom d).tir = x.tir) ∧
      (x.rec_.ns ≠ 0 → x.tir.flushWait = none → Leaves s t v pTir (tirWord 0x01 8 0) ∧
        (t.dom d).tir = { x.tir with flushWait := some (s.evicting d), flushIssued := false, flushRetried := false })

/-- The migration entry of page p of a domain is free again, or is that of the first page that waited for one; p is retried no more (R297, R299). -/
def Sys2Proof.Safety.EntryPassedOn (x y : Dom) (p : Nat) : Prop :=
  y.tir.waitingFull = x.tir.waitingFull.tail ∧ y.tir.retried = numDel x.tir.retried p ∧
  y.tir.inflight = match x.tir.waitingFull with | [] => numDel x.tir.inflight p | (q, _) :: _ => numAdd (numDel x.tir.inflight p) q

/-- Every other domain than d is as before, but for its page map and its waiting transfers (R299). -/
def Sys2Proof.Safety.Contained (s t : State) (d : Nat) : Prop :=
  ∀ e, e ≠ d → (∀ p : Part, p ≠ .domTir → p ≠ .domMem → p.keptDom (s.dom e) (t.dom e)) ∧
    ∀ a, ¬ inRing s e a → memRead (t.dom e).mem a = memRead (s.dom e).mem a

/-- R289, R293, R296, R297, R303: a Flush that waits for no eviction is issued once; its completion ends it with FLUSH_DONE; a failure of it is tried once more, and a second one ends it with FLASH_ERROR and its counter. A page read in flight that arrives at any time, with bytes whose tag verifies, leaves an UP page to the plan latch to become STACKED, gives its demand to every slab that it answers, counts the time past its planned end in its counter, and passes its entry on; an eviction write that completes leaves the page to the plan latch to become FLASH, and no Flush of any domain waits for it any more. -/
def Obligations.FlashTransfersEnd : Prop :=
  ∀ (s : State) (d : Fin 64) (p nowNs : Nat) (returned : Option (List Byte)),
    let x := s.dom d
    let e := s.pageEntry d p
    let h := s.homePage d p
    let ended : TirDom := { x.tir with flushWait := none, flushIssued := false, flushRetried := false }
    (x.tir.flushWait = some [] → x.tir.flushIssued = false →
      ∃ t, exec (.flushIssue d) s = .next t ∧ OnlyDom s t d ∧ (t.dom d).tir = { x.tir with flushIssued := true } ∧
        t.out = .nvme d 0 0 0 :: s.out) ∧
    (x.tir.flushIssued = true →
      (∃ t, exec (.flushDone d true) s = .next t ∧ OnlyDom s t d ∧ (t.dom d).tir = ended ∧
        (s.live d = true → EventIn t (domCopies pTir 5 d) pTir 5)) ∧
      (∃ t, exec (.flushDone d false) s = .next t ∧ OnlyDom s t d ∧
        (x.tir.flushRetried = false → (t.dom d).tir = { x.tir with flushRetried := true } ∧ t.out = .nvme d 0 0 0 :: s.out) ∧
        (x.tir.flushRetried = true → (t.dom d).tir = ended ∧ (s.live d = true → EventIn t (domCopies pTir 1 d) pTir 1)))) ∧
    (x.tir.inflight.contains p = true → e.state ≠ .down → s.tagOk d p returned = true →
      ∃ t, exec (.pageReadDone d p returned nowNs) s = .next t ∧ EntryPassedOn x (t.dom d) p ∧
        t.atLatch = s.atLatch ++ (if e.state = .up then [.pageStacked h.1 h.2] else []) ∧
        t.counter d pTir 3 = s.counter d pTir 3 + w64 (nowNs - (x.dueOf p).getD nowNs) ∧
        (∀ y, (t.dom y).slabs.map (fun b => b.demand) = (s.dom y).slabs.map (fun b =>
          b.demand.filter (fun q => !s.readServes d p y q (s.dom y).tir.inflight))) ∧
        ∀ y, y ≠ d → (t.dom y).tir = (s.dom y).tir ∧ (t.dom y).mem = (s.dom y).mem ∧ (t.dom y).queue = (s.dom y).queue) ∧
    (x.tir.inflight.contains p = true → e.state = .down →
      ∃ t, exec (.pageWriteDone d p) s = .next t ∧ EntryPassedOn x (t.dom d) p ∧ t.atLatch = s.atLatch ++ [.pageFlash h.1 h.2] ∧
        (∀ y, (t.dom y).tir.flushWait = (s.dom y).tir.flushWait.map (fun l => l.filter (fun q => s.homePage y q != h))) ∧
        ∀ y, y ≠ d → t.dom y = { s.dom y with tir := { (s.dom y).tir with
          flushWait := (s.dom y).tir.flushWait.map (fun l => l.filter (fun q => s.homePage y q != h)) } })

/-- R297, R299, R302, R303, R306: an NVMe error completion of a page's transfer or a Flush that is in flight counts CMD_ERRORS and raises DRIVE_ERROR; a time-out aborts the command, counts it and raises NVME_TIMEOUT; a tag mismatch of a read is a failure too. At the first failure the same command is given again; at the second the page, where no other domain waits on it, is STACKED again if it was on its way down and else FLASH without a frame, the slabs of its domain that wait on it complete no better than FLASH_ERROR without it, FLASH_ERROR is raised, and no other domain is touched but in its page map and transfers. A stripe's read fails in the same way, with FLASH_ERROR of domain 0 at the second failure. A link that goes down reads speed and width 0 with its event, and gives every page command and Flush on it again that has not failed before; a link that trains at a format of its layout, while the drives are out of reset, reads what it trained to, and any other changes nothing. -/
def Obligations.FlashFailuresRetryOnce : Prop :=
  ∀ (s : State) (d : Fin 64) (p stallNs nowNs speed width : Nat) (returned : Option (List Byte)) (link : Fin 2) (copy : Fin 2) (q : Nat),
    let x := s.dom d
    let e := s.pageEntry d p
    let h := s.homePage d p
    let w : NvmeWork := if e.state = .down then .pageWrite p else .pageRead p
    let op := if e.state = .down then 1 else 2
    let alone := ∀ y ∈ s.doms, y.1 ≠ d → s.waitedPages y.1 h = [] ∧ ∀ r ∈ y.2.tir.inflight, s.homePage y.1 r ≠ h
    let again := fun (t : State) => OnlyDom s t d ∧ t.out.head? = some (.nvme d op p (s.pageLba d p)) ∧
      (t.dom d).tir.inflight = x.tir.inflight ∧ (t.dom d).tir.retried = numAdd x.tir.retried p
    let failed := fun (t : State) => EntryPassedOn x (t.dom d) p ∧ Contained s t d ∧
      (t.dom d).slabs.map (fun b => (b.demand, b.status)) = x.slabs.map (fun b =>
        if b.demand.contains p then (numDel b.demand p, b.status.worse .flashError) else (b.demand, b.status)) ∧
      (s.live d = true → EventIn t (domCopies pTir 1 d) pTir 1) ∧
      (e.state = .down → (t.dom h.1).entry h.2 = { (s.dom h.1).entry h.2 with state := .stacked }) ∧
      (e.state = .up → alone → (t.dom h.1).entry h.2 = { (s.dom h.1).entry h.2 with state := .flash, frame := none })
    let page := fun (t : State) => (x.tir.retried.contains p = false → again t) ∧ (x.tir.retried.contains p = true → failed t)
    let flush := fun (t : State) => OnlyDom s t d ∧ (t.dom d).tir.flushIssued = !x.tir.flushRetried ∧
      (x.tir.flushRetried = false → (t.dom d).tir.flushRetried = true ∧ t.out.head? = some (.nvme d 0 0 0)) ∧
      (x.tir.flushRetried = true → (t.dom d).tir.flushWait = none ∧ (s.live d = true → EventIn t (domCopies pTir 1 d) pTir 1))
    let stripe := fun (t : State) => (((s.copy copy).stripe q).retried = false → ((t.copy copy).stripe q).retried = true) ∧
      (((s.copy copy).stripe q).retried = true → EventIn t (domCopies pTir 1 0) pTir 1)
    let drive := fun (t : State) => EventIn t (s.devCopies pNvm 1) pNvm 1
    let late := fun (t : State) (f : Nat) => s.live f = true → EventIn t (domCopies pTir 2 f) pTir 2
    (x.tir.inflight.contains p = true →
      (∃ t, exec (.nvmeCommandFail d w stallNs) s = .next t ∧ drive t ∧ page t) ∧
      (∃ t, exec (.nvmeTimeout d w stallNs) s = .next t ∧ late t d ∧ .nvme d 0x100 p 0 ∈ t.out ∧ page t) ∧
      (e.state ≠ .down → s.tagOk d p returned = false → ∃ t, exec (.pageReadDone d p returned nowNs) s = .next t ∧ page t)) ∧
    (x.tir.flushIssued = true →
      (∃ t, exec (.nvmeCommandFail d .flush stallNs) s = .next t ∧ drive t ∧ flush t) ∧
      (∃ t, exec (.nvmeTimeout d .flush stallNs) s = .next t ∧ late t d ∧ .nvme d 0x100 0 0 ∈ t.out ∧ flush t)) ∧
    (s.flashAsked copy q = true →
      (∃ t, exec (.nvmeCommandFail 0 (.stripeRead copy q) stallNs) s = .next t ∧ drive t ∧ stripe t) ∧
      (∃ t, exec (.nvmeTimeout 0 (.stripeRead copy q) stallNs) s = .next t ∧ late t 0 ∧ .nvme 0 0x100 0 0 ∈ t.out ∧ stripe t)) ∧
    (∃ t, exec (.nvmeLinkDown link) s = .next t ∧ EventIn t (s.devCopies pNvm 0) pNvm 0 ∧
      t.nvm = (if link = 0 then { s.nvm with link0 := (0, 0) } else { s.nvm with link1 := (0, 0) }) ∧
      ((∀ y ∈ s.doms, y.2.tir.inflight.Nodup ∧ (∀ r ∈ y.2.tir.inflight, s.linkOfPage y.1 r = link → y.2.tir.retried.contains r = false) ∧
          (s.linkOfNs y.2.rec_.ns = link → y.2.tir.flushRetried = false)) → s.flashStripes = [] →
        ∀ y, (t.dom y).slabs = (s.dom y).slabs ∧ (t.dom y).tir.inflight = (s.dom y).tir.inflight ∧
          (∀ r, (t.dom y).tir.retried.contains r =
            ((s.dom y).tir.retried.contains r || ((s.dom y).tir.inflight.contains r && s.linkOfPage y r == link.val))) ∧
          (t.dom y).tir.flushRetried = ((s.dom y).tir.flushRetried || ((s.dom y).tir.flushIssued && s.linkOfNs (s.dom y).rec_.ns == link.val)))) ∧
    (s.boot.nvPerstN = true → s.nvm.trains link speed width = true → exec (.rootPortLinkUp link speed width) s = .next
      { s with nvm := if link = 0 then { s.nvm with link0 := (speed, width) } else { s.nvm with link1 := (speed, width) } }) ∧
    (s.nvm.trains link speed width = false → exec (.rootPortLinkUp link speed width) s = .next s)

/-- R123, R220, R245, R290, R303: each command of the KVP, BAS and TIR pages, and each end of the flash port's work, changes only the parts listed for it, whatever it answers. -/
def Obligations.KvBaseTierCommandsKeepTheRest : Prop :=
  ∀ s : State,
    (∀ (v : View) (posted : Bool) (seq : W16) (rsv : BitVec 44), FrameOut (withEvents [.pairs, .domKvp, .domTir, .domMem, .domPoison]) s (exec (.seqOpen v posted seq rsv) s)) ∧
    (∀ (v : View) (posted : Bool) (seq : W16) (rsv : BitVec 44), FrameOut (withEvents [.pairs, .atLatch]) s (exec (.seqClose v posted seq rsv) s)) ∧
    (∀ (v : View) (posted : Bool) (seq : W16) (rsv : BitVec 44), FrameOut (withEvents [.pairs, .domKvp]) s (exec (.kvpCommit v posted seq rsv) s)) ∧
    (∀ (v : View) (posted : Bool) (seq : W16) (rsv : BitVec 44), FrameOut (withEvents [.pairs]) s (exec (.kvpQuery v posted seq rsv) s)) ∧
    (∀ (v : View) (posted : Bool) (seq : W16) (rsv : BitVec 44), FrameOut (withEvents [.pairs, .atLatch]) s (exec (.setDrop v posted seq rsv) s)) ∧
    (∀ (v : View) (value : W32), FrameOut [.domKvp] s (exec (.kvpGeomWrite v value) s)) ∧
    (∀ (v : View) (posted : Bool) (of : BuildOf) (rsv : BitVec 59), FrameOut (withEvents [.bas, .mbds, .units, .pairs, .commonsPoison, .freeFrames, .freeCtr, .domPoison]) s (exec (.build v posted of rsv) s)) ∧
    (∀ (v : View) (posted : Bool) (copy : Bool) (rsv : BitVec 59), FrameOut (withEvents [.bas, .pairs]) s (exec (.switch v posted copy rsv) s)) ∧
    (∀ (v : View) (posted : Bool) (copy : Bool) (rsv : BitVec 59), FrameOut (withEvents [.bas, .pairs]) s (exec (.abort v posted copy rsv) s)) ∧
    (∀ (v : View) (posted : Bool) (copy : Bool) (rsv : BitVec 59), FrameOut (withEvents [.bas, .pairs]) s (exec (.basStage v posted copy rsv) s)) ∧
    (∀ (v : View) (posted : Bool) (copy : Bool) (rsv : BitVec 59), FrameOut (withEvents [.bas, .pairs]) s (exec (.basUnstage v posted copy rsv) s)) ∧
    (∀ (v : View) (posted : Bool) (copy : Bool) (rsv : BitVec 59), FrameOut (withEvents [.pairs]) s (exec (.basQuery v posted copy rsv) s)) ∧
    (∀ (v : View) (posted : Bool) (page : BitVec 27) (count : W16) (rsv : BitVec 17), FrameOut (withEvents [.pairs, .domTir]) s (exec (.moveUp v posted page count rsv) s)) ∧
    (∀ (v : View) (posted : Bool) (page : BitVec 27) (count : W16) (rsv : BitVec 17), FrameOut (withEvents [.pairs, .domTir]) s (exec (.evict v posted page count rsv) s)) ∧
    (∀ (v : View) (posted : Bool) (page : BitVec 27) (count : W16) (rsv : BitVec 17), FrameOut (withEvents [.pairs, .domTir]) s (exec (.pin v posted page count rsv) s)) ∧
    (∀ (v : View) (posted : Bool) (page : BitVec 27) (count : W16) (rsv : BitVec 17), FrameOut (withEvents [.pairs, .domTir]) s (exec (.unpin v posted page count rsv) s)) ∧
    (∀ (v : View) (posted : Bool) (page : BitVec 27) (count : W16) (rsv : BitVec 17), FrameOut (withEvents [.pairs]) s (exec (.tirQuery v posted page count rsv) s)) ∧
    (∀ (v : View) (posted : Bool) (page : BitVec 27) (count : W16) (rsv : BitVec 17), FrameOut (withEvents [.pairs, .atLatch]) s (exec (.discard v posted page count rsv) s)) ∧
    (∀ (v : View) (posted : Bool) (page : BitVec 27) (count : W16) (rsv : BitVec 17), FrameOut (withEvents [.pairs, .atLatch, .domTir]) s (exec (.relocate v posted page count rsv) s)) ∧
    (∀ (v : View) (posted : Bool) (page : BitVec 27) (count : W16) (rsv : BitVec 17), FrameOut (withEvents [.pairs, .domTir]) s (exec (.flushExtent v posted page count rsv) s)) ∧
    (∀ (d : Fin 64), FrameOut [.counters, .out, .domTir] s (exec (.flushIssue d) s)) ∧
    (∀ (d : Fin 64) (ok : Bool), FrameOut (withEvents [.domTir]) s (exec (.flushDone d ok) s)) ∧
    (∀ (d : Fin 64) (page : Nat) (returned : Option (List Byte)) (nowNs : Nat), FrameOut (withEvents [.fuses, .tik, .stretch, .atLatch, .freeCtr, .domSlabs, .domVar, .domTir, .domKeys]) s (exec (.pageReadDone d page returned nowNs) s)) ∧
    (∀ (d : Fin 64) (page : Nat), FrameOut [.counters, .stretch, .atLatch, .out, .domSlabs, .domTir] s (exec (.pageWriteDone d page) s)) ∧
    (∀ (d : Fin 64) (work : NvmeWork) (stallNs : Nat), FrameOut (withEvents [.pci, .tik, .bas, .fab, .mbds, .units, .stretch, .commonsPoison, .atLatch, .freeCtr, .domQueue, .domSlabs, .domVar, .domTir, .domCol, .domMem, .domPoison]) s (exec (.nvmeCommandFail d work stallNs) s)) ∧
    (∀ (d : Fin 64) (work : NvmeWork) (stallNs : Nat), FrameOut (withEvents [.pci, .tik, .bas, .fab, .mbds, .units, .stretch, .commonsPoison, .atLatch, .freeCtr, .domQueue, .domSlabs, .domVar, .domTir, .domCol, .domMem, .domPoison]) s (exec (.nvmeTimeout d work stallNs) s)) ∧
    (∀ (link : Fin 2), FrameOut (withEvents [.pci, .tik, .nvm, .bas, .fab, .mbds, .units, .stretch, .commonsPoison, .atLatch, .freeCtr, .domQueue, .domSlabs, .domVar, .domTir, .domCol, .domMem, .domPoison]) s (exec (.nvmeLinkDown link) s)) ∧
    (∀ (link : Fin 2) (speed width : Nat), FrameOut [.nvm] s (exec (.rootPortLinkUp link speed width) s))

/-! ## Domains and Locksmith (15, 16) -/

/-- A request that the mailbox takes: from a VF, or from the PF in region 0 while no creation report signs (R123, R440, R459). -/
def Sys2Proof.Safety.LksReady (s : State) (v : View) (posted : Bool) : Prop :=
  (isPf v = true → isRegion0 v = true ∧ s.lks.engineA = []) ∧ Ready s v pLks posted

/-- What a request leaves besides its effect on domain n: its result word posted, and every other pair and domain as before. -/
def Sys2Proof.Safety.LksLeaves (s t : State) (v : View) (status op n : Nat) : Prop :=
  Answered t (s.viewCopy v pLks) pLks (lksWord status op) ∧ OnlyPair s t (s.viewCopy v pLks) pLks ∧ OnlyDom s t n

/-- A message of the PF's vector is sent, or its Pending bit stands while it is masked (R408). -/
def Sys2Proof.Safety.Messaged (t : State) (vec : Nat) : Prop :=
  if t.pci.unmasked.contains vec then .msix 0 vec ∈ t.out else vec ∈ t.pci.pendingBits

/-- The final status of accepted work stands in LKS_DONE of a copy, with REQ_DONE, and vector 32 + n for a PF request (R408, R459). -/
def Sys2Proof.Safety.LksFinished (t : State) (copy status op n : Nat) : Prop :=
  (t.pair copy pLks).done = w64 (lksWord status op + 2 ^ 63) ∧ EventIn t [copy] pLks 0 ∧ (64 ≤ copy → Messaged t (32 + n))

/-- The domain that an accepted CREATE makes, with frames that were free: which of them, the manual leaves open (R420, R422, R441; log 10). -/
def Sys2Proof.Safety.createdDom (s : State) (d copy : Nat) (r : DomRecord) : Dom :=
  { phase := .creating, rec_ := r, ovh := r.ovhFrames d, quota0 := r.quota, weight := r.weight, rate := r.rate, rateT := r.rateT,
    doneDue := some (copy, 0x01), tir := r.tirOf d (s.pickRuns (r.quota + r.ovhFrames d) s.freeRuns).1,
    keys := { slot0 := some s.lks.draws, round := .drawn (s.lks.draws + 1), kem := some (s.lks.draws + 2) } }

/-- What an accepted creation of domain d with record r leaves (R118, R420, R422, R441, R512). -/
def Sys2Proof.Safety.Created (s t : State) (d copy : Nat) (r : DomRecord) : Prop :=
  t.dom d = createdDom s d copy r ∧ OnlyDom s t d ∧ t.freeFrames = s.freeFrames - (r.quota + r.ovhFrames d) ∧
  t.lks.draws = s.lks.draws + 3 ∧ t.lks.engineA = (if r.attest then s.lks.engineA ++ [d] else s.lks.engineA) ∧
  (∀ k, t.slot k = if r.slotFirst ≤ k ∧ k < r.slotFirst + r.slotCount then {} else s.slot k) ∧
  (∀ p i, p < 256 → i < 8 → t.view d p = {} ∧ t.counter d p i = 0) ∧ Messaged t (32 + d)

/-- R420, R421, R422, R440, R459, R512: a CREATE that passes every row of R422 takes the frames and the keys, frees the record's slots, resets the domain's views and counters, makes the domain CREATING and answers ACCEPTED with vector 32 + d; of a SCRUBBING domain it is HELD, with nothing taken; where the record's resources are not free it answers NO_RESOURCE, where its frames are not it answers NO_MEMORY. A created domain without a report to sign becomes due to be ACTIVE at the latch that its cut-off allows. A held CREATE executes once the domain is FREE: it passes the same rows, or its final status is that of the row that fails. -/
def Obligations.DomainsAreCreated : Prop :=
  ∀ (s : State) (v : View) (posted : Bool) (d0 : Fin 64),
    let c := s.viewCopy v pLks
    let w := s.lksArgs c
    let d := bitsOf (w.getD 0 0) 0 6
    let r := recordOf w
    let h := s.dom d0
    (LksReady s v posted → isPf v = true → recordPlain w = true → d ≠ 0 → r.fieldsOk d = true → s.tenantsAllowed = true →
      (s.dom d).held = none → (s.dom d).phase = .free ∨ (s.dom d).phase = .scrubbing →
      ∃ t, exec (.create v posted d0 0) s = .next t ∧
        (s.resourcesFree d r = false → LksLeaves s t v 0x0F 0x01 d ∧ t.doms = s.doms ∧ t.freeFrames = s.freeFrames) ∧
        (s.resourcesFree d r = true → s.freeFrames < r.quota + r.ovhFrames d →
          LksLeaves s t v 0x10 0x01 d ∧ t.doms = s.doms ∧ t.freeFrames = s.freeFrames) ∧
        (s.resourcesFree d r = true → r.quota + r.ovhFrames d ≤ s.freeFrames → (s.dom d).phase = .scrubbing →
          LksLeaves s t v 0x11 0x01 d ∧ t.dom d = { s.dom d with held := some (r, c) } ∧ t.freeFrames = s.freeFrames) ∧
        (s.resourcesFree d r = true → r.quota + r.ovhFrames d ≤ s.freeFrames → (s.dom d).phase = .free →
          Answered t c pLks (lksWord 0x01 0x01) ∧ Created s t d c r)) ∧
    (h.phase = .creating → h.created = false → d0.val ∉ s.lks.engineA →
      ∃ t, exec (.createComplete d0) s = .next t ∧ OnlyDom s t d0 ∧
        t.dom d0 = { h with created := true, activeAt := some s.effectTick }) ∧
    (∀ q copy, h.held = some (q, copy) → h.phase = .free →
      let w := (recordWords q d0).map BitVec.toNat
      let r := recordOf w
      let s1 := s.putDom d0 { h with held := none }
      bitsOf (w.getD 0 0) 0 6 = d0.val → recordPlain w = true → d0 ≠ 0 → r.fieldsOk d0 = true → s.tenantsAllowed = true →
      ∃ t, exec (.heldRequestExecute d0) s = .next t ∧ (t.dom d0).held = none ∧
        (s1.resourcesFree d0 r = false → LksFinished t copy 0x0F 0x01 d0 ∧ (t.dom d0).phase = .free) ∧
        (s1.resourcesFree d0 r = true → s.freeFrames < r.quota + r.ovhFrames d0 →
          LksFinished t copy 0x10 0x01 d0 ∧ (t.dom d0).phase = .free) ∧
        (s1.resourcesFree d0 r = true → r.quota + r.ovhFrames d0 ≤ s.freeFrames → Created s1 t d0 copy r))

/-- R403, R423, R424, R425, R426, R447, R448, R482, R483: DESTROY of an ACTIVE or PREEMPTED tenant domain, a Function Level Reset of a VF whose domain stands, and the clearing of VF Enable each make the domain's end due, at the latch that the cut-off allows, or at once while it is being created; a reset function answers with Retry Status until its domain is FREE, and its MSI-X vectors stand as at reset. The end of a SCRUBBING domain's scrub leaves its range, its banks, its arrays and its save areas reading zero, and puts it off the list of scrubs; once no read of it is in flight its memory keys are gone. -/
def Obligations.DomainsEnd : Prop :=
  ∀ (s : State) (v : View) (posted : Bool) (d : Fin 64) (nowNs : Nat) (frames units : List Nat),
    let c := s.viewCopy v pLks
    let x := s.dom d
    let due := match x.teardownAt with | some t => t | none => if x.phase = .creating then 0 else s.effectTick
    let own := (List.range' x.rec_.arrFirstUnit x.rec_.arrUnits).filter (fun u => !(s.lentFrom d).contains u)
    let quiet := fun (t : State) (n : Nat) => ∀ k, k / 2048 = n → t.pci.unmasked.contains k = false
    (LksReady s v posted → isPf v = true → d ≠ 0 → x.alive = true →
      ∃ t, exec (.destroy v posted d 0) s = .next t ∧ LksLeaves s t v 0x01 0x03 d ∧
        t.dom d = { x with teardownAt := some due, doneDue := some (c, 0x03) }) ∧
    (d ≠ 0 → s.pci.vfEnable = true → d ≤ s.pci.numVfs →
      ∃ t, exec (.vfFlr d) s = .next t ∧ OnlyDom s t d ∧ quiet t d ∧ EventIn t (s.devCopies pPci 3) pPci 3 ∧
        (x.phase = .free → t.pci.flr = s.pci.flr ∧ (t.dom d).teardownAt = x.teardownAt) ∧
        (x.phase ≠ .free → d.val ∈ t.pci.flr) ∧
        (x.phase ≠ .free → x.phase ≠ .scrubbing → (t.dom d).teardownAt = some due)) ∧
    (∀ n, ∃ t, exec (.vfEnableChange false n) s = .next t ∧ t.pci.vfEnable = false ∧
      (s.pci.vfEnable = true ∨ s.pci.numVfs ≠ n → t.pci.numVfs = n ∧
        (d ≠ 0 → quiet t d) ∧ (d ≠ 0 → x.phase ≠ .free → x.phase ≠ .scrubbing → (t.dom d).teardownAt = some due) ∧
        ((t.dom 0).teardownAt = (s.dom 0).teardownAt))) ∧
    (∀ n, ∃ t, exec (.vfEnableChange true n) s = .next t ∧ t.pci.vfEnable = true ∧ t.pci.numVfs = n ∧
      (s.pci.vfEnable = false → ∀ k, k ∈ t.pci.flr ↔
        k < 64 ∧ k ≠ 0 ∧ ((s.dom k).teardownAt.isSome = true ∨ (s.dom k).phase = .scrubbing))) ∧
    (x.phase = .scrubbing → x.scrubEnded = false →
      ∃ t, exec (.scrubEnd d nowNs frames units) s = .next t ∧ (t.dom d).scrubEnded = true ∧ (t.dom d).phase = .scrubbing ∧
        (∀ a, ¬ inRing s d a → memRead (t.dom d).mem a = 0) ∧
        (t.dom d).poison = [] ∧ (t.dom d).savedAcc = [] ∧ (t.dom d).savedOpbuf = [] ∧ (t.dom d).savedCommons = [] ∧
        (∀ a, memRead t.commons a = if bankBytes * x.rec_.bankFirst ≤ a ∧ a < bankBytes * x.rec_.bankFirst + bankBytes * x.rec_.banks
          then 0 else memRead s.commons a) ∧
        (∀ k, mapGet t.acc k = if own.any (fun u => 524288 * u ≤ k && k < 524288 * (u + 1)) then none else mapGet s.acc k) ∧
        (∀ a, memRead t.opbuf a = if own.any (fun u => 4194304 * u ≤ a && a < 4194304 * (u + 1)) then 0 else memRead s.opbuf a) ∧
        d.val ∉ t.ful.running ∧ t.freeFrames = s.freeFrames - frames.length ∧ EventIn t (s.devCopies pFul 0) pFul 0) ∧
    (x.keys.destroyDue = true →
      ∃ t, exec (.memoryKeyDestroy d) s = .next t ∧ OnlyDom s t d ∧
        (t.dom d).keys = { x.keys with slot0 := none, slot1 := none, destroyDue := false })

/-- R426, R427, R459: RESIZE to a record of the same shape that fits, LEND of units of a PREEMPTED domain to an ACTIVE one without a loan, RECLAIM of a loan from its lender, MAP_SHARED of pages that no cache, pool or pin holds, and UNMAP_SHARED of shared pages, each wait for the plan latch behind the domain's earlier requests and answer ACCEPTED; a RESIZE takes the frames that it adds at once, from those that are free (log 10). -/
def Obligations.DomainRequestsWaitForLatch : Prop :=
  ∀ (s : State) (v : View) (posted : Bool) (d : Fin 64), LksReady s v posted → isPf v = true →
    let c := s.viewCopy v pLks
    let a := s.arg c pLks
    let w := s.lksArgs c
    let n := bitsOf (w.getD 0 0) 0 6
    let r := recordOf w
    let q := (s.dom n).dueRecord
    let src := bitsOf (a 0) 0 6
    let tgt := bitsOf (a 0) 6 6
    let first := bitsOf (a 0) 12 6
    let units := bitsOf (a 0) 18 7
    let page := bitsOf (a 0) 0 27
    let d0 := bitsOf (a 1) 0 27
    let count := bitsOf (a 2) 0 16
    let waits := fun (t : State) (op e : Nat) (req : DomRequest) =>
      LksLeaves s t v 0x01 op e ∧ t.dom e = { s.dom e with requests := (s.dom e).requests ++ [(req, c)] }
    (recordPlain w = true → r.fieldsOk n = true → r.sameShape q = true → s.shrinkOk n r = true → (s.dom n).phase = .active →
      s.resourcesFree n r = true → r.frames n ≤ s.freeFrames + q.frames n →
      let fr := (s.pickRuns (r.frames n - q.frames n) s.freeRuns).1
      ∃ t, exec (.resize v posted d 0) s = .next t ∧ LksLeaves s t v 0x01 0x02 n ∧
        t.dom n = { s.dom n with requests := (s.dom n).requests ++ [(.resize r, c)],
                                 tir := { (s.dom n).tir with frames := fr.foldl runsPut (s.dom n).tir.frames,
                                                             spare := fr.foldl runsPut (s.dom n).tir.spare } } ∧
        t.freeFrames = s.freeFrames - (r.frames n - q.frames n)) ∧
    ((s.dom src).phase = .preempted → (s.dom tgt).phase = .active → (s.dom tgt).loan = none → s.lendWaits tgt = false → units ≠ 0 →
      (∀ u, first ≤ u → u < first + units → (s.dom src).rec_.arrFirstUnit ≤ u ∧
        u < (s.dom src).rec_.arrFirstUnit + (s.dom src).rec_.arrUnits ∧ u ∈ s.unitsOf src) →
      ∃ t, exec (.lend v posted d 0) s = .next t ∧ waits t 0x04 src (.lend tgt first units) ∧ t.freeFrames = s.freeFrames) ∧
    (∀ f k, (s.dom tgt).loan = some (f, k, src) →
      ∃ t, exec (.reclaim v posted d 0) s = .next t ∧ waits t 0x05 src (.reclaim tgt) ∧ t.freeFrames = s.freeFrames) ∧
    (count ≠ 0 → d ≠ 0 → (s.dom d).alive = true →
      (∀ i, i < count → s.pageInRange d (page + i) = true ∧ s.pageInRange 0 (d0 + i) = true ∧ s.pinnedPage d (page + i) = false ∧
        (s.dom d).rec_.devPinned (page + i) = false ∧ (s.dom 0).rec_.devPinned (d0 + i) = false ∧ s.pinnedPage 0 (d0 + i) = false) →
      ∃ t, exec (.mapShared v posted d 0) s = .next t ∧ waits t 0x06 d (.mapShared page d0 count) ∧ t.freeFrames = s.freeFrames) ∧
    ((∀ i, i < count → ((s.dom d).entry (page + i)).shared.isSome = true) →
      ∃ t, exec (.unmapShared v posted d 0) s = .next t ∧ waits t 0x07 d (.unmapShared page count) ∧ t.freeFrames = s.freeFrames)

/-- R441, R442, R443, R445, R459: SESSION of a live domain without an open update step waits for the latch; ROTATE of one that holds no second generation draws the next key into the slot that the new generation's parity names; KEY_IMPORT of a wrapped key that unwraps puts it at its index, at the next latch where the index is in use, and KEY_DROP destroys an index; the last two finish at once. A wrapped key that fails is AUTH_FAIL, counted, with its event, and changes no key. -/
def Obligations.KeysOfADomain : Prop :=
  ∀ (s : State) (v : View) (posted : Bool) (d : Fin 64), LksReady s v posted →
    let c := s.viewCopy v pLks
    let n := lksDomain v d
    let k := (s.dom n).keys
    let a0 := s.arg c pLks 0
    let index := bitsOf a0 26 2
    (s.dom n).alive = true →
    ((s.dom n).upd.open_ = false →
      ∃ t, exec (.session v posted d 0) s = .next t ∧ LksLeaves s t v 0x01 0x08 n ∧ (t.dom n).keys = { k with sessionBy := some c }) ∧
    (k.prevLive = false → k.newCurrent = false →
      ∃ t, exec (.rotate v posted d 0) s = .next t ∧ LksLeaves s t v 0x01 0x09 n ∧ t.lks.draws = s.lks.draws + 1 ∧
        (t.dom n).keys = { k with slot0 := if k.keyGen % 2 = 1 then some s.lks.draws else k.slot0,
                                  slot1 := if k.keyGen % 2 = 0 then some s.lks.draws else k.slot1,
                                  newCurrent := true, rotateBy := some c }) ∧
    (∀ a bs, s.window (viewFn v) (bitsOf a0 0 26) 1608 = some a → s.rdCommons a 1608 = (bs, false) →
      ∃ t, exec (.keyImport v posted d 0) s = .next t ∧
        (∀ key, keyUnwrap (s.exportKek n index (bs.take 1568)) (bs.drop 1568) = some key →
          LksLeaves s t v 0x01 0x0C n ∧ LksFinished t c 0x00 0x0C n ∧
          (t.dom n).keys = if (mapGet k.exports index).isSome then { k with exportsNext := mapSet k.exportsNext index key }
            else { k with exports := mapSet k.exports index key }) ∧
        (keyUnwrap (s.exportKek n index (bs.take 1568)) (bs.drop 1568) = none →
          LksLeaves s t v 0x13 0x0C n ∧ EventIn t [c] pLks 3 ∧ (t.dom n).keys = k)) ∧
    (∃ t, exec (.keyDrop v posted d 0) s = .next t ∧ LksLeaves s t v 0x01 0x0D n ∧ LksFinished t c 0x00 0x0D n ∧
      (t.dom n).keys = { k with exports := mapDel k.exports (bitsOf a0 0 2), exportsNext := mapDel k.exportsNext (bitsOf a0 0 2) })

/-- R433, R434, R435, R438, R439, R440: ATTEST of a live domain into 40,960 bytes of the caller's window from a 4 KiB boundary joins the queue of the report engine. IDENTITY writes the certificate chain to the window and nothing else of the commons. CERT_INSTALL of an uncertified state takes both certificates where they verify; LIFECYCLE makes a state that R434 allows due at the next reset, with a token where R434 asks for one; each is AUTH_FAIL, with its event and no fuse changed, where the proof fails. SVN_COMMIT below the image's SVN raises MIN_SVN to it, at most 64 times. -/
def Obligations.IdentityAndFuses : Prop :=
  ∀ (s : State) (v : View) (posted : Bool) (d : Fin 64), LksReady s v posted →
    let c := s.viewCopy v pLks
    let n := lksDomain v d
    let a := s.arg c pLks
    let life := s.fuses.life.code
    let done := fun (t : State) (op e : Nat) => Answered t c pLks (lksWord 0x01 op) ∧ OnlyPair s t c pLks ∧ LksFinished t c 0x00 op e
    let refused := fun (t : State) (op : Nat) => Answered t c pLks (lksWord 0x13 op) ∧ OnlyPair s t c pLks ∧ EventIn t [c] pLks 3 ∧
      t.fuses = s.fuses
    (let o := bitsOf (a 0) 0 26
     (s.dom n).alive = true → o % 4096 = 0 → o + 40960 ≤ bankBytes * (s.dom (viewFn v)).rec_.winBanks →
      ∃ t, exec (.attest v posted d 0) s = .next t ∧ LksLeaves s t v 0x01 0x0A n ∧
        t.lks = { s.lks with engineB := s.lks.engineB ++ [(c, n, o)] }) ∧
    (∀ b, s.window (viewFn v) (bitsOf (a 0) 0 26) s.identityChain.length = some b →
      ∃ t, exec (.identity v posted d 0) s = .next t ∧ done t 0x0B n ∧
        ∀ x, memRead t.commons x = if b ≤ x ∧ x < b + s.identityChain.length then s.identityChain.getD (x - b) 0
          else memRead s.commons x) ∧
    (isPf v = true → s.uncertified = true →
      ∀ b0 b1, s.window 0 (bitsOf (a 0) 0 26) (bitsOf (a 2) 0 16) = some b0 →
        s.window 0 (bitsOf (a 1) 0 26) (bitsOf (a 2) 16 16) = some b1 →
        let c0 := (s.rdCommons b0 (bitsOf (a 2) 0 16)).1
        let c1 := (s.rdCommons b1 (bitsOf (a 2) 16 16)).1
        let good := Config.verdict (16 * life + 1) c0 && Config.verdict (16 * life + 2) c1
        ∃ t, exec (.certInstall v posted d 0) s = .next t ∧
          (good = true → done t 0x10 d ∧
            t.fuses = { s.fuses with certs := [c0, c1], certifiedFor := s.fuses.certifiedFor ++ [s.fuses.life] }) ∧
          (good = false → refused t 0x10)) ∧
    (∀ b, isPf v = true → lifeOf (bitsOf (a 0) 0 3) = some b →
      (transition s.fuses.life b = some false →
        ∃ t, exec (.lifecycle v posted d 0) s = .next t ∧ done t 0x0E d ∧ t.fuses = { s.fuses with pending := b }) ∧
      (transition s.fuses.life b = some true → ∀ x, s.window 0 (bitsOf (a 1) 0 26) 16672 = some x →
        let tok := (s.rdCommons x 16672).1
        ∃ t, exec (.lifecycle v posted d 0) s = .next t ∧
          (s.tokenOk b.code tok = true → done t 0x0E d ∧
            t.fuses = { s.fuses with pending := b, tokenLog := s.fuses.tokenLog ++ [tok] }) ∧
          (s.tokenOk b.code tok = false → refused t 0x0E))) ∧
    (isPf v = true →
      ∃ t, exec (.svnCommit v posted d 0) s = .next t ∧
        (s.fuses.minSvn < s.boot.fwSvn → s.fuses.svnRaises < 64 → done t 0x0F d ∧
          t.fuses = { s.fuses with minSvn := s.boot.fwSvn, svnRaises := s.fuses.svnRaises + 1 }) ∧
        (s.boot.fwSvn ≤ s.fuses.minSvn ∨ 64 ≤ s.fuses.svnRaises →
          LksLeaves s t v 0x0A 0x0F 0 ∧ t.fuses = s.fuses))

/-! ## The host attachment (15) -/

/-- A message of a function's vector is sent, or its Pending bit stands while it is masked (R408). -/
def Sys2Proof.Safety.Sent (t : State) (fn vec : Nat) : Prop :=
  if t.pci.unmasked.contains (2048 * fn + vec) then .msix fn vec ∈ t.out else 2048 * fn + vec ∈ t.pci.pendingBits

/-- R405, R410, R411, R412, R17: an open function's write of submission words takes them one after another. A whole word below LIMIT is counted and joins the descriptor; the last word of a descriptor makes a slab of it, queued where every check of R23 holds when it arrives and otherwise ended with DESC_INVALID and its credits returned. A word at LIMIT, or an incomplete one, halts the queue with its event and is lost; while it is halted every word is lost and counted. A poisoned write loses its words, halts the queue and is reported through AER. Resetting the queue takes back the credits of the part of a descriptor that it holds, with vector 1 where LIMIT has risen by 1,024 since its last message. -/
def Obligations.SubmissionQueue : Prop :=
  ∀ (s : State) (fn : Fin 64), s.fnOpen fn = true →
    let d := fn.val
    let x := s.dom d
    let q := x.queue
    (∀ w r t, exec (.submitWord fn [w] false) s = .next t →
      exec (.submitWord fn (w :: r) false) s = exec (.submitWord fn r false) t) ∧
    (q.halted = true → ∀ words, ∃ t, exec (.submitWord fn words false) s = .next t ∧
      t.counter d pDom 2 = s.counter d pDom 2 + w64 words.length ∧ t.doms = s.doms) ∧
    (q.halted = false → ∀ v, q.written ≠ q.limit →
      let part := q.partial_ ++ [v]
      let whole := part.length = descriptorWords (part.headD 0)
      let u := (s.bump d pDom 0 1).updDom d (fun y => y.updQueue (fun z => { z with written := z.written + 1, partial_ := [] }))
      ∃ t, exec (.submitWord fn [.whole v] false) s = .next t ∧ OnlyDom s t d ∧
        t.counter d pDom 0 = s.counter d pDom 0 + 1 ∧
        (¬ whole → t.dom d = { x with queue := { q with written := q.written + 1, partial_ := part } }) ∧
        (whole → u.slabArrives d part = true →
          t.dom d = { x with queue := { q with written := q.written + 1, partial_ := [] }, nextOrder := x.nextOrder + 1,
                             slabs := x.slabs ++ [{ order := x.nextOrder, words := part, tick := s.tik.tick, dep := x.depOf (hdrOf part).after }] }) ∧
        (whole → u.slabArrives d part = false →
          (t.dom d).queue = { q with written := q.written + 1, partial_ := [], limit := q.limit + part.length } ∧
          ∃ b ∈ (t.dom d).slabs, b.order = x.nextOrder ∧ b.words = part ∧ b.state = .ended ∧ b.status = .descInvalid ∧
            b.creditReturned = true)) ∧
    (q.halted = false → ∀ v, q.written = q.limit →
      ∃ t, exec (.submitWord fn [.whole v] false) s = .next t ∧ OnlyDom s t d ∧ (t.dom d).queue = { q with halted := true } ∧
        (t.dom d).slabs = x.slabs ∧ EventIn t (domCopies pDom 0 d) pDom 0) ∧
    (q.halted = false →
      ∃ t, exec (.submitWord fn [.incomplete] false) s = .next t ∧ OnlyDom s t d ∧ (t.dom d).queue = { q with halted := true } ∧
        (t.dom d).slabs = x.slabs ∧ EventIn t (domCopies pDom 1 d) pDom 1) ∧
    (∀ words, words ≠ [] →
      ∃ t, exec (.submitWord fn words true) s = .next t ∧ OnlyDom s t d ∧ (t.dom d).queue = { q with halted := true } ∧
        (t.dom d).slabs = x.slabs ∧ .aerPoisoned d ∈ t.out ∧ t.pci.errKind = 1 ∧ t.pci.errFn = d ∧ t.pci.errValid = true) ∧
    (∃ t, exec (.queueReset fn) s = .next t ∧
      t.dom d = { x with queue := { q with partial_ := [], halted := false, limit := q.limit + q.partial_.length } } ∧ OnlyDom s t d ∧
      (q.partial_ ≠ [] → (mapGet s.pci.creditMsg d).getD 16384 + 1024 ≤ q.limit + q.partial_.length →
        Sent t d 1 ∧ mapGet t.pci.creditMsg d = some (q.limit + q.partial_.length)))

/-- R405, R408, R417, R418, R520: an open function's read of COMPL_READ answers the oldest waiting completion word and removes it, or zero. A write to its host window stores its bytes in the commons banks that the window shows, and what lies beyond the window is discarded and counted once; a poisoned write stores nothing. A read of the window answers its bytes, with zero for each poisoned word and beyond the window, and changes no byte. Unmasking a vector sends the message that fell due while it was masked. -/
def Obligations.CompletionsWindowAndVectors : Prop :=
  ∀ (s : State) (fn : Fin 64),
    let d := fn.val
    let base := bankBytes * (s.dom d).rec_.winFirst
    let size := bankBytes * (s.dom d).rec_.winBanks
    (s.fnOpen fn = true →
      ((s.dom d).queue.compl = [] → ∃ t, exec (.complRead fn) s = .next t ∧ t = { s with out := .value d 0 :: s.out }) ∧
      (∀ w r, (s.dom d).queue.compl = w :: r → ∃ t, exec (.complRead fn) s = .next t ∧ t.out = .value d w :: s.out ∧
        t.dom d = { s.dom d with queue := { (s.dom d).queue with compl := r } } ∧ OnlyDom s t d) ∧
      (∀ offset bytes, ∃ t, exec (.hostWindowWrite fn offset bytes false) s = .next t ∧ t.doms = s.doms ∧
        (∀ a, memRead t.commons a = if base + offset ≤ a ∧ a < base + offset + bytes.length ∧ a < base + size
          then bytes.getD (a - (base + offset)) 0 else memRead s.commons a) ∧
        t.counter d pDom 4 = s.counter d pDom 4 + (if size < offset + bytes.length ∧ bytes ≠ [] then 1 else 0)) ∧
      (∀ offset bytes, ∃ t, exec (.hostWindowWrite fn offset bytes true) s = .next t ∧ t.commons = s.commons ∧
        .aerPoisoned d ∈ t.out) ∧
      (MemoryWf s → ∀ offset length, ∃ t bs, exec (.hostWindowRead fn offset length) s = .next t ∧ t.out.head? = some (.readData d bs) ∧
        bs.length = length ∧ t.commons = s.commons ∧ t.commonsPoison = s.commonsPoison ∧
        ∀ i, i < length → bs.getD i 0 =
          if offset + i < size ∧ s.commonsPoison.contains ((base + offset + i) / 8) = false then memRead s.commons (base + offset + i) else 0)) ∧
    (∀ vector, s.boot.phase = .running → vector < vectorsOf d → d = 0 ∨ s.vfUp d = true →
      ∃ t, exec (.msixUnmask fn vector) s = .next t ∧ 2048 * d + vector ∈ t.pci.unmasked ∧ 2048 * d + vector ∉ t.pci.pendingBits ∧
        t.doms = s.doms ∧
        t.out = if s.pci.pendingBits.contains (2048 * d + vector) then .msix d vector :: s.out else s.out)

/-! ## Power, resets and bring-up (13, 18, 19) -/

/-- What a device reset leaves, whatever its cause (R434, R435, R441, R468, R517): every domain, slot, stack, port, array unit, view, pair and counter at its reset value, memories that read zero, nothing waiting but the queue, and the life-cycle state that was due. What is fused and the counts of draws stand, but for the UDS on the way out of BLANK and at RETIRED. -/
def Sys2Proof.Safety.WasReset (s t : State) (cause : Nat) : Prop :=
  (t.pending = s.pending ∧ t.atLatch = [] ∧ t.latches = [] ∧ t.locked = [] ∧ t.sels = []) ∧
  (∀ d, t.dom d = {}) ∧ (∀ k, t.slot k = {}) ∧ (∀ k, t.mbd k = {}) ∧ (∀ p, t.port p = {}) ∧ (∀ u, t.unit u = {}) ∧
  (∀ c p, t.view c p = {} ∧ t.pair c p = {}) ∧ (∀ e g i, t.counter e g i = 0) ∧ t.stretch = [] ∧
  (∀ a, memRead t.commons a = 0) ∧ t.commonsPoison = [] ∧ (∀ a, memRead t.opbuf a = 0) ∧ (∀ k, mapGet t.acc k = none) ∧
  (t.recipe = Recipe.resetRows ∧ t.tik = {} ∧ t.pwr = {} ∧ t.bdg = {} ∧ t.bas = {} ∧ t.fab = {} ∧ t.dbg = {}) ∧
  t.lks = { draws := s.lks.draws, nonces := s.lks.nonces } ∧
  t.fuses = { s.fuses with
    life := s.fuses.pending,
    udsPresent := if s.fuses.pending = .retired then false
      else s.fuses.udsPresent || (s.fuses.life == .blank && s.fuses.pending != .blank) } ∧
  (t.boot.slot0 = .untried ∧ t.boot.slot1 = .untried ∧ t.boot.bootSecondary = false ∧ t.boot.bootFailed = false ∧
    t.boot.unlocked = false ∧ t.boot.mbdTrained = false ∧ t.boot.wiped = false ∧ t.boot.fwReleased = false ∧
    t.boot.failedStacks = [] ∧ t.boot.badUnits = [] ∧ t.boot.i3cDynamic = none ∧ t.boot.fwSvn = 0 ∧ t.boot.resetCause = cause ∧
    t.boot.challenge = s.boot.challenge + 1)

/-- MEM_TMODE and NVM_CFG take up their NEXT fields at a reset that keeps the supply (R254, R306). -/
def Sys2Proof.Safety.NextModes (s t : State) : Prop :=
  t.memg = { tmode := s.memg.tmodeNext, tmodeNext := s.memg.tmodeNext } ∧ t.nvm = { bifur := s.nvm.bifurNext, bifurNext := s.nvm.bifurNext } ∧
  t.freeFrames = if s.memg.tmodeNext then 147456 else 196608

/-- R254, R306, R334, R430, R493, R497, R498, R503, R504, R505, R513, R517: V_IN past 58 V releases PWR_GOOD. A rise of PERST_N samples the straps and, with PWR_GOOD, starts bring-up with the wipe of the device and drives NV_REFCLK0, and NV_REFCLK1 where BIFUR is 1. PERST_N low, a PF Function Level Reset, the loss of PWR_GOOD and the watchdog each reset the device, with their code of R513; PERST_N and PWR_GOOD hold it there, the others go on to bring-up at once, and a PF reset keeps the endpoint link. At 115 °C the device stops, pulls THERM_TRIP_N low and sends one PLDM event; V_IN outside 56 to 84 V turns it off, with the code SUPPLY_OUT on record while V_IN stays above 40 V, else POWER_ON. -/
def Obligations.PowerAndResets : Prop :=
  ∀ (s : State) (mV : Nat) (baud asel : Fin 4) (low40 : Bool),
    let starts := fun (t : State) => t.boot.phase = .bringUp ∧ t.boot.spiResetN = true ∧ t.ful.full = true ∧
      .pin 4 true ∈ t.out ∧ .pin 5 t.nvm.bifur ∈ t.out
    (s.boot.phase = .off → 58000 < mV → mV ≤ 84000 →
      ∃ t, exec (.powerApply mV) s = .next t ∧ t.boot.vInMv = mV ∧ t.boot.pwrGood = true ∧ .pin 0 true ∈ t.out ∧
        (s.boot.perstN = false → t.boot.phase = .inReset) ∧ (s.boot.perstN = true → starts t)) ∧
    (s.boot.perstN = false →
      ∃ t, exec (.perstRise baud asel) s = .next t ∧ t.boot.perstN = true ∧ t.boot.baudSel = baud.val ∧ t.boot.i3cAsel = asel.val ∧
        (s.boot.phase = .inReset → s.boot.pwrGood = true → starts t) ∧
        (s.boot.phase ≠ .inReset ∨ s.boot.pwrGood = false → t.boot.phase = s.boot.phase)) ∧
    (s.awake = true → s.boot.perstN = true →
      ∃ t, exec (.perstFall .perst) s = .next t ∧ WasReset s t 0x0005 ∧ NextModes s t ∧ t.pci = {} ∧ t.boot.phase = .inReset ∧
        t.boot.perstN = false ∧ t.boot.pwrGood = s.boot.pwrGood ∧ t.out = .pin 3 false :: .pin 2 false :: s.out) ∧
    (s.boot.phase = .running →
      ∃ t, exec (.perstFall .pfFlr) s = .next t ∧ WasReset s t 0x0005 ∧ NextModes s t ∧ starts t ∧ t.boot.perstN = s.boot.perstN ∧
        t.pci = { speed := s.pci.speed, width := s.pci.width, dlUp := s.pci.dlUp, trainedOnce := s.pci.trainedOnce }) ∧
    (s.boot.phase = .running → s.boot.pwrGood = true → s.boot.perstN = true →
      ∃ t, exec .pwrGoodLoss s = .next t ∧ WasReset s t 0x0005 ∧ NextModes s t ∧ t.pci = {} ∧ t.boot.phase = .inReset ∧
        t.boot.perstN = false ∧ t.boot.pwrGood = false ∧ .pin 0 false ∈ t.out) ∧
    (s.awake = true →
      ∃ t, exec .watchdog s = .next t ∧ WasReset s t 0x0003 ∧ NextModes s t ∧ t.pci = {} ∧ starts t ∧ t.boot.perstN = s.boot.perstN) ∧
    (s.awake = true →
      ∃ t, exec .thermTrip s = .next t ∧ WasReset s t 0x0001 ∧ t.boot.phase = .tripped ∧ t.boot.thermTrip = true ∧
        t.boot.pwrGood = s.boot.pwrGood ∧ t.out = .pldm 0x0001 0 :: .pin 1 false :: .pin 3 false :: .pin 2 false :: s.out) ∧
    (s.awake = true → mV < 56000 ∨ 84000 < mV →
      ∃ t, exec (.supplyOut mV low40) s = .next t ∧ t.boot.phase = .off ∧ t.boot.pwrGood = false ∧ t.boot.vInMv = mV ∧
        WasReset s t (if low40 || s.boot.thermTrip then 0x0006 else 0x0002) ∧ t.memg = {} ∧ t.nvm = {} ∧ t.freeFrames = 196608 ∧
        .pin 0 false ∈ t.out ∧ .pin 4 false ∈ t.out ∧ .pin 5 false ∈ t.out)

/-- R302, R432, R436, R437, R438, R447, R449, R506, R507, R513: the steps of bring-up. Training of the channels ends: with no failed channel the pool stands, with one every frame leaves the pool and each failed stack raises CHANNEL_FAIL. An image slot is accepted exactly when R432 accepts it, slot 0 first; a second slot accepted is BOOT_SECONDARY, a second one refused is BOOT_FAILED. The wipe ends and takes the frames and units that fail out of the pool. Once an image is accepted and the wipe has ended, firmware is released, the key pairs of a first boot are made, and the drives leave reset. The PF answers with firmware, or with both slots refused in ROM-only mode, and reports the cause of the reset. -/
def Obligations.BringUpSteps : Prop :=
  ∀ (s : State) (failed : List (Fin 8 × Fin 32)) (slot : Fin 2) (magic : W32) (format keyIndex svn bodyLen nowNs : Nat)
    (digestOk rsaOk slhOk : Bool) (digest : List Byte) (frames units : List Nat), s.boot.phase = .bringUp →
    (s.boot.mbdTrained = false →
      ∃ t, exec (.mbdTrainingDone failed) s = .next t ∧ t.boot.mbdTrained = true ∧
        (∀ k, k ∈ t.boot.failedStacks ↔ ∃ p ∈ failed, p.1.val = k) ∧ t.freeFrames = (if failed = [] then s.freeFrames else 0) ∧
        (∀ p ∈ failed, (t.mbd p.1).failed = true ∧ EventIn t (s.devCopies (pMem p.1) 8) (pMem p.1) 8) ∧
        ∀ k, (∀ p ∈ failed, p.1.val ≠ k) → t.mbd k = s.mbd k) ∧
    (let good := magic = 0x4657344B ∧ format = 1 ∧ keyIndex < 4 ∧ s.fuses.revoked.getLsbD keyIndex = false ∧ s.fuses.minSvn ≤ svn ∧
       bodyLen ≤ 33537536 ∧ digestOk = true ∧ rsaOk = true ∧ slhOk = true
     s.fuses.life ≠ .retired →
     (slot = 0 ∧ s.boot.slot0 = .untried) ∨ (slot = 1 ∧ s.boot.slot0 = .refused ∧ s.boot.slot1 = .untried) →
     ∃ t, exec (.imageVerifyDone slot magic format keyIndex svn bodyLen digestOk rsaOk slhOk digest) s = .next t ∧
       (good → (if slot = 0 then t.boot.slot0 else t.boot.slot1) = .accepted ∧ t.boot.fwSvn = svn ∧ t.boot.fwDigest = digest ∧
         (t.boot.bootSecondary = true ↔ slot = 1)) ∧
       (¬ good → (if slot = 0 then t.boot.slot0 else t.boot.slot1) = .refused ∧ t.boot.fwSvn = s.boot.fwSvn ∧
         (t.boot.bootFailed = true ↔ slot = 1))) ∧
    (s.boot.mbdTrained = true → s.boot.wiped = false →
      ∃ t, exec (.deviceWipeEnd frames units nowNs) s = .next t ∧ t.boot.wiped = true ∧ t.ful.full = false ∧
        t.ful.lastNs = nowNs - s.ful.wipeStartNs ∧ t.freeFrames = s.freeFrames - frames.length ∧
        (∀ u, u ∈ t.boot.badUnits ↔ u ∈ s.boot.badUnits ∨ u ∈ units) ∧ (∀ f, f ∈ t.ful.withheld ↔ f ∈ s.ful.withheld ∨ f ∈ frames) ∧
        (frames ≠ [] ∨ units ≠ [] → EventIn t (s.devCopies pFul 1) pFul 1 ∧
          t.counter dev pFul 2 = s.counter dev pFul 2 + w64 frames.length)) ∧
    (s.boot.wiped = true → s.boot.fwReleased = false → s.boot.slot0 = .accepted ∨ s.boot.slot1 = .accepted →
      ∃ t, exec .firmwareRelease s = .next t ∧ t.boot.fwReleased = true ∧ t.boot.nvPerstN = true ∧ t.out = .pin 3 true :: s.out ∧
        (s.fuses.udsPresent = true → s.measurement ∈ t.fuses.aliasFor ∧ s.fuses.life ∈ t.fuses.deviceIdFor) ∧
        t.fuses.certs = s.fuses.certs ∧ t.fuses.certifiedFor = s.fuses.certifiedFor) ∧
    (s.boot.fwReleased = true →
      ∃ t, exec (.pfReady nowNs) s = .next t ∧ t.boot.phase = .running ∧ .pldm s.boot.resetCause 0 ∈ t.out ∧
        (s.boot.bootSecondary = true → EventIn t (s.devCopies pLks 4) pLks 4) ∧
        (s.nvm.link0.1 = 0 ∨ (s.nvm.bifur = true ∧ s.nvm.link1.1 = 0) → EventIn t (s.devCopies pNvm 0) pNvm 0)) ∧
    (s.boot.fwReleased = false → s.boot.bootFailed = true →
      ∃ t, exec (.pfReady nowNs) s = .next t ∧ t.boot.phase = .romOnly ∧ .pldm 0x0004 0 ∈ t.out ∧ .pldm s.boot.resetCause 0 ∈ t.out)

/-- R403, R431, R432, R436, R482, R483, R497, R513: while the device is awake: a change of the endpoint link shows its speed, width and state, raises LINK_CHANGE, and counts in LINK_RETRAINS when a link that has trained falls; the PF moves between D0 and D3hot; a PLDM firmware update message writes its bytes to the image slot and no other byte; a PLDM request answers the reset cause, the temperatures, the input power, or the code of each event that stands in the PF's device view, and changes nothing else (the codes of its replies are the model's, log 76); SETDASA with the static address 0x30 + ASEL, and ENTDAA without a dynamic address, give the endpoint its dynamic address. -/
def Obligations.EndpointAndManagement : Prop :=
  ∀ (s : State) (speed width address : Nat) (up d3 : Bool) (slot : Fin 2) (offset : Nat) (bytes : List Byte), s.awake = true →
    (s.fuses.life ≠ .retired →
      ∃ t, exec (.pcieLinkChange speed width up) s = .next t ∧ t.pci.speed = speed % 16 ∧ t.pci.width = width % 32 ∧ t.pci.dlUp = up ∧
        EventIn t (s.devCopies pPci 0) pPci 0 ∧
        t.counter dev pPci 4 = s.counter dev pPci 4 + (if up = false ∧ s.pci.trainedOnce = true then 1 else 0)) ∧
    (s.boot.phase = .running →
      ∃ t, exec (.pfPowerStateChange d3) s = .next t ∧ t = { s with pci := { s.pci with d3hot := d3 } }) ∧
    (offset + bytes.length ≤ 0x2000000 →
      ∃ t, exec (.pldmFirmwareUpdate slot offset bytes) s = .next t ∧ t.fuses.life = s.fuses.life ∧ t.fuses.minSvn = s.fuses.minSvn ∧
        ∀ a, memRead t.fuses.spi a =
          if 0x2000000 * slot.val + offset ≤ a ∧ a < 0x2000000 * slot.val + offset + bytes.length
            then bytes.getD (a - (0x2000000 * slot.val + offset)) 0 else memRead s.fuses.spi a) ∧
    exec (.pldmRequest .resetCause) s = .next { s with out := .pldm 0x10000 s.boot.resetCause :: s.out } ∧
    exec (.pldmRequest .temperatures) s = .next { s with out := .pldm 0x10001 (256 * s.memg.tHot + s.pwr.tjMax) :: s.out } ∧
    exec (.pldmRequest .inputPower) s = .next { s with out := .pldm 0x10002 s.pwr.pInW :: s.out } ∧
    (∃ t, exec (.pldmRequest .eventLog) s = .next t ∧ t = { s with out := t.out } ∧
      ∀ page bit b, page < 128 → bit < 32 → blockOf page = some b →
        (s.view 64 page).event.getLsbD bit = true → .pldm 0x10003 (256 * (b + 1) + bit) ∈ t.out) ∧
    (∃ t, exec (.i3cDynamicAddressAssign (.setdasa (0x30 + s.boot.i3cAsel) address)) s = .next t ∧
      t.boot = { s.boot with i3cDynamic := some address }) ∧
    (s.boot.i3cDynamic = none →
      ∃ t, exec (.i3cDynamicAddressAssign (.entdaa address)) s = .next t ∧ t.boot = { s.boot with i3cDynamic := some address })

/-! ## Stacked memory (10) -/

/-- What a memory base die starts from its queue at an offset of a window of len ns (R276): nothing is lost; each item started ends in the window; no two items run on one channel where none did before; at most eight run; and an item that would end in the window waits only where its channel is taken or eight run, in each case by nothing that it goes ahead of. -/
def Sys2Proof.Safety.Started (x y : StackState) (at_ len : Nat) : Prop :=
  ∃ new : List (Nat × MaintItem), y = { x with queue := y.queue, running := x.running ++ new } ∧ x.queue.Perm (new.map Prod.snd ++ y.queue) ∧
    (∀ r ∈ new, r.1 = at_ + itemNs r.2 ∧ r.1 ≤ len) ∧
    ((x.running.map (fun r => MaintItem.channel r.2)).Nodup → (y.running.map (fun r => MaintItem.channel r.2)).Nodup) ∧
    y.running.length ≤ max 8 x.running.length ∧
    ∀ i ∈ y.queue, at_ + itemNs i ≤ len →
      (∃ r ∈ x.running, MaintItem.channel r.2 = MaintItem.channel i) ∨
      (∃ r ∈ new, MaintItem.channel r.2 = MaintItem.channel i ∧ MaintItem.priority r.2 ≤ MaintItem.priority i) ∨
      (8 ≤ y.running.length ∧ ∀ r ∈ new, MaintItem.priority r.2 ≤ MaintItem.priority i)

/-- R252, R253, R261, R275, R276, R277, R279, R285, R286: a maintenance window, of LEN_US, begins in a tick that has one with what waits, what a former window left and the patrol that is due (log 148), and with Badger's measurement where one is due (R352). An item that runs ends in it: the blocks that it read are decoded, it leaves its effect, and the next ones start at its offset. A lane repair takes the spare of its pseudo-channel, if it is free, with its counter and event, and SPARES_GONE with the last of 64; a row repair takes the row's corrected errors off the record; patrol counts its blocks; a row without a spare retires its frames; and a lane that fails its training takes its pseudo-channel's spare, or is CHANNEL_FAIL where that is in use. A routine retraining that falls due is queued, and MAINT_STARVED is raised. Beside what its reads find, each changes one stack alone. -/
def Obligations.MaintenanceWindows : Prop :=
  ∀ (s : State) (stack : Fin 8) (channel : Fin 32) (item : MaintItem) (outcome : MaintOutcome) (errors : List (Fin 64 × ReadError)),
    let k := stack.val
    let x := s.mbd k
    let len := 1000 * s.windowUs s.tik.tick
    let spare := fun (lane : Nat) => 2 * MaintItem.channel item + min 1 (lane / 36)
    (s.windowOpen = true → ∃ t, exec .maintWindowStart s = .next t ∧ (∀ j, 8 ≤ j → t.mbd j = s.mbd j) ∧
      t.bdg = (if s.bdg.dueFrom.isSome = true ∧ 20 ≤ s.windowUs s.tik.tick
        then { s.bdg with measuring := true, dueFrom := none, requested := false } else s.bdg) ∧
      ∀ j, j < 8 → Started { s.mbd j with queue := (s.mbd j).windowQueue s.tik.timeNs len, running := [] } (t.mbd j) 0 len) ∧
    (s.windowOpen = false ∨ x.running.find? (fun r => r.2 == item) = none → exec (.maintItemEnd stack item ⟨outcome, errors⟩) s = .next s) ∧
    (∀ r, s.windowOpen = true → x.running.find? (fun r => r.2 == item) = some r →
      let u := errors.foldl (fun t e => (t.meetError e.1.val e.2).1) (s.updMbd k (fun y => { y with running := y.running.erase r }))
      let z := u.mbd k
      let ends := fun (t : State) => OnlyMbd u t k ∧ ∃ y, Started y (t.mbd k) r.1 len ∧ y.running = z.running ∧ y.queue = z.queue
      let row := fun (t : State) (n : Nat) => (t.mbd k).corrected = z.corrected.filter (fun e => e.1 != 1048576 * MaintItem.channel item + n) ∧
        t.counter dev (pMem k) 5 = u.counter dev (pMem k) 5 + 1
      (∃ t, exec (.maintItemEnd stack item ⟨.done, errors⟩) s = .next t ∧ ends t ∧
        match item with
        | .laneRepair _ lane =>
          (spare lane ∈ z.sparesUsed → (t.mbd k).sparesUsed = z.sparesUsed) ∧
          (spare lane ∉ z.sparesUsed → (t.mbd k).sparesUsed = numAdd z.sparesUsed (spare lane) ∧ EventIn t (u.devCopies (pMem k) 3) (pMem k) 3 ∧
            t.counter dev (pMem k) 4 = u.counter dev (pMem k) 4 + 1 ∧
            (z.sparesUsed.length = 63 → EventIn t (u.devCopies (pMem k) 4) (pMem k) 4))
        | .hardRepair _ n => row t n
        | .softRepair _ n => row t n
        | .patrol c n => t.counter dev (pMem k) 7 = u.counter dev (pMem k) 7 + w64 (1024 * n) ∧
          (t.mbd k).patrolled = mapSet z.patrolled c ((mapGet z.patrolled c).getD 0 + n)
        | .retrain _ => t.counters = u.counters
        | .rewrite _ _ => t.counters = u.counters) ∧
      (∀ frames, frames ≠ [] → ∃ t, exec (.maintItemEnd stack item ⟨.noSpareRow frames, errors⟩) s = .next t ∧ ends t ∧
        (∀ f, f ∈ (t.mbd k).retired ↔ f ∈ z.retired ∨ f ∈ frames) ∧ EventIn t (u.devCopies (pMem k) 5) (pMem k) 5) ∧
      (∀ lane, ∃ t, exec (.maintItemEnd stack item ⟨.trainingFailed lane, errors⟩) s = .next t ∧ ends t ∧
        let taken := spare lane ∈ z.sparesUsed ∨ ∃ c l, item = .laneRepair c l ∧ spare l = spare lane
        (taken → (t.mbd k).failed = true ∧ EventIn t (u.devCopies (pMem k) 8) (pMem k) 8) ∧
        (¬ taken → (t.mbd k).failed = z.failed ∧ spare lane ∈ (t.mbd k).sparesUsed))) ∧
    (∃ t, exec (.routineRetrainDue stack channel) s = .next t ∧ OnlyMbd s t k ∧
      t.mbd k = if x.queue.contains (.retrain channel) then x else { x with queue := x.queue ++ [.retrain channel] }) ∧
    (∃ t, exec (.maintStarved stack) s = .next t ∧ t.mbds = s.mbds ∧ EventIn t (s.devCopies (pMem k) 6) (pMem k) 6)

/-- R252, R253, R272, R273, R278, R285, R286, R313, R314: the first emergency of a channel in a tick, outside a window, stalls it for at most 2,000 ns: counted, given to the plan clock as stretch MEM_RETRAIN, with the event RETRAIN; for a lane's bits its spare is taken if it is free, and a lane that fails in the retraining takes its own, or is CHANNEL_FAIL where that is in use. A later one in the tick, or one in a window, becomes a maintenance item. A refresh pause takes the reading of each stack, and T_hot as the hottest; it never shortens the mode in force, and lengthens it above 85 °C and above 95 °C, once in a tick (log 151); what its pause lasts beyond the plan's is stretch REFRESH_HOT. -/
def Obligations.EmergencyAndRefresh : Prop :=
  ∀ (s : State) (stack : Fin 8) (channel : Fin 32) (cause : RetrainCause) (failedLane : Option Nat) (stallNs nowNs : Nat) (inWindow : Bool) (temps : List Nat),
    let k := stack.val
    let c := channel.val
    let x := s.mbd k
    let ns := min stallNs 2000
    let spare := fun (lane : Nat) => 2 * c + min 1 (lane / 36)
    let took := fun (used : List Nat) (lane : Nat) => if spare lane ∈ used then used else numAdd used (spare lane)
    let used := match cause with
      | .eyeMargin => x.sparesUsed
      | .laneBits lane => took x.sparesUsed lane
    let after := match failedLane with
      | none => used
      | some lane => took used lane
    let fails := match failedLane with
      | none => false
      | some lane => decide (spare lane ∈ used)
    let item : MaintItem := match cause with
      | .eyeMargin => .retrain c
      | .laneBits lane => .laneRepair c lane
    let stalled := fun (t : State) (code d : Nat) => t.tik = { s.tik with stallNs := s.tik.stallNs + d, stallBy := t.tik.stallBy } ∧
      mapGet t.tik.stallBy code = some ((mapGet s.tik.stallBy code).getD 0 + d) ∧
      mapGet t.stretch (64 * dev + code) = some ((mapGet s.stretch (64 * dev + code)).getD 0 + w64 d)
    (inWindow = false → c ∉ x.retrained →
      ∃ t, exec (.emergencyRetrain stack channel ⟨cause, failedLane⟩ stallNs inWindow) s = .next t ∧ OnlyMbd s t k ∧
        (stallNs ≠ 0 → stalled t 1 ns) ∧ (stallNs = 0 → t.tik = s.tik ∧ t.stretch = s.stretch) ∧
        t.mbd k = { x with retrained := numAdd x.retrained c, sparesUsed := after, failed := x.failed || fails } ∧
        (fails = true → EventIn t (s.devCopies (pMem k) 8) (pMem k) 8) ∧
        EventIn t (s.devCopies (pMem k) 2) (pMem k) 2 ∧ t.counter dev (pMem k) 2 = s.counter dev (pMem k) 2 + w64 ns) ∧
    (inWindow = true ∨ c ∈ x.retrained →
      ∃ t, exec (.emergencyRetrain stack channel ⟨cause, failedLane⟩ stallNs inWindow) s = .next t ∧ t.tik = s.tik ∧ OnlyMbd s t k ∧
        t.mbd k = if x.queue.contains item then x else { x with queue := x.queue ++ [item] }) ∧
    (temps.length = 8 → (∀ v ∈ temps, v < 256) →
      let pause := fun mode => if mode = 2 then 12800 else if mode = 1 then 6400 else 3200
      let extra := pause s.memg.refMode - pause s.memg.tickMode
      ∃ t, exec (.refreshPause nowNs temps) s = .next t ∧ (∀ j, j < 8 → (t.mbd j).tempC = temps.getD j 0) ∧
        (∀ v ∈ temps, v ≤ t.memg.tHot) ∧ t.memg.tHot ∈ temps ∧ t.tik.timeNs = max nowNs s.tik.timeNs ∧
        t.memg.refMode = (if s.memg.risen then s.memg.refMode else if 95 < t.memg.tHot then 2 else if 85 < t.memg.tHot then max 1 s.memg.refMode else s.memg.refMode) ∧
        t.pwr.tickTHot = max s.pwr.tickTHot t.memg.tHot ∧
        (s.tik.ticking = true → extra ≠ 0 → t.tik.stallNs = s.tik.stallNs + extra ∧
          mapGet t.stretch (64 * dev + 2) = some ((mapGet s.stretch (64 * dev + 2)).getD 0 + w64 extra) ∧
          t.counter dev (pMem 0) 3 = s.counter dev (pMem 0) 3 + w64 extra ∧ EventIn t (s.devCopies (pMem 0) 1) (pMem 0) 1) ∧
        (s.tik.ticking = false ∨ extra = 0 → t.tik.stallNs = s.tik.stallNs ∧ t.stretch = s.stretch))

/-! ## Power, heat and ageing (13) -/

/-- k is the least step that satisfies a condition, 15 when none does (R344). -/
def Sys2Proof.Safety.LeastStep (p : Nat → Prop) (k : Nat) : Prop := k ≤ 15 ∧ (∀ j, j < k → ¬ p j) ∧ (p k ∨ k = 15)

/-- P_dom(k) in W (R338, R340, R344). -/
def Sys2Proof.Safety.slabPower (k : Nat) : Rat :=
  1464.32 * (((2100 - 70 * k : Nat) : Rat) / 2100 * ((((850 - 16 * k : Nat) : Rat) / 850) * (((850 - 16 * k : Nat) : Rat) / 850))) + 419.4304

/-- R342, R344, R346, R347: the epoch decision at the cut-off of the epoch's last tick, once epochs run: from the maxima of its window it decides the step of R344, the larger of the thermal and the cap step within CEIL and FLOOR, or the hardware step where that is larger, with the lowest cause code that sets it; NEXT_VALID is set and nothing else changes. A window without a measured tick decides nothing. -/
def Obligations.EpochDecision : Prop :=
  ∀ (s : State) (ke kpow vMin : Nat),
    let p := s.pwr
    let k := p.level
    let pred := fun j => (p.winPFix + slabPower j) / 0.93
    let pel : Rat := if 60000 ≤ vMin then 2600 else 43.3 * vMin / 1000
    let hot := p.tjTarget < p.winTj ∨ p.dramTarget < p.winTHot
    let cool := p.winTj + 5 ≤ p.tjTarget ∧ p.winTHot + 3 ≤ p.dramTarget
    let kt := if hot then min 15 (k + 1) else if cool then k - 1 else k
    let ksw := min p.floor (max p.ceil (max kt ke))
    let kdie := if 105 < p.winTj then min 15 (k + 1) else 0
    let kdram := if 95 < p.winTHot then min 15 (k + 1) else 0
    let kmar := if s.bdg.unavail = [] then 0 else min 15 (s.bdg.unavail.foldl max 0 + 1)
    let khw := max kpow (max kdie (max kdram kmar))
    let cause := if kpow = khw then 1 else if kdie = khw then 2 else if kdram = khw then 3 else 4
    s.tik.ticking = true → s.tik.tick % 64 = 63 → s.tik.cutoffPassed = false → p.epochsRunning = true →
    (p.winTicks = 0 → exec .epochDecision s = .next s) ∧
    (p.winTicks ≠ 0 → p.winVmin = some vMin → LeastStep (fun j => pred j ≤ p.capW) ke → LeastStep (fun j => pred j ≤ pel) kpow →
      ∃ t, exec .epochDecision s = .next t ∧ t = { s with pwr := t.pwr } ∧
        t.pwr = { p with next := max ksw khw, nextValid := true, nextOverride := if khw ≤ ksw then none else some cause,
                         nextBasis := t.pwr.nextBasis, pFix := min 4095 p.winPFix.floor.toNat })

/-- R334, R343, R348, R357, R358: a reading of the compute-die sensors keeps the tick's largest temperature and lowest input voltage and adds the input power; input between 56 and 60 V, or between 80 and 84 V, raises INPUT_RANGE. The PF's write of PWR_BOUNDS or PWR_TARGETS in region 0 with every value in range is taken whole, and is in force from the next plan alone where it can only slow the device, else from the next epoch decision; one with a value out of range, or with CEIL above FLOOR, changes no bound and raises CFG_REJECT. -/
def Obligations.SensorsAndBounds : Prop :=
  ∀ (s : State) (v : View) (value : W32) (sensors : List Nat) (pInW mV : Nat),
    let p := s.pwr
    let w := value.toNat
    let ceil := bitsOf w 0 4
    let floor := bitsOf w 4 4
    let cap := bitsOf w 8 12
    let tj := bitsOf w 0 8
    let dram := bitsOf w 8 8
    let lowest := match p.tickVmin with
      | some x => min x mV
      | none => mV
    let inRange := fun c f a j d => c ≤ f ∧ 1000 ≤ a ∧ a ≤ 2600 ∧ 70 ≤ j ∧ j ≤ 100 ∧ 70 ≤ d ∧ d ≤ 90
    let rejected := fun (t : State) => t.pwr = p ∧ EventIn t (s.devCopies pPwr 0) pPwr 0
    (s.boot.phase = .running ∨ s.boot.phase = .bringUp →
      (∃ t, exec (.computeDieSensorRead sensors pInW mV) s = .next t ∧ t.boot = { s.boot with vInMv := mV } ∧
        (∀ x ∈ sensors, x ≤ t.pwr.tickTj) ∧ p.tickTj ≤ t.pwr.tickTj ∧ (t.pwr.tickTj = p.tickTj ∨ t.pwr.tickTj ∈ sensors) ∧
        t.pwr = { p with tickTj := t.pwr.tickTj, tickPSum := p.tickPSum + pInW, tickPCount := p.tickPCount + 1,
                         tickVmin := some lowest, inputRange := t.pwr.inputRange }) ∧
      ((56000 ≤ mV ∧ mV < 60000) ∨ (80000 < mV ∧ mV ≤ 84000) →
        ∃ t, exec (.inputRange mV) s = .next t ∧ t.boot = { s.boot with vInMv := mV } ∧
          t.pwr = { p with tickVmin := some lowest, inputRange := true } ∧ EventIn t (s.devCopies pPwr 3) pPwr 3)) ∧
    (isRegion0 v = true → s.viewOpen v = true →
      (∃ t, exec (.pwrBoundsWrite v value) s = .next t ∧
        (¬ inRange ceil floor cap p.tjTarget p.dramTarget → rejected t) ∧
        (inRange ceil floor cap p.tjTarget p.dramTarget → t = { s with pwr := t.pwr } ∧
          t.pwr = { p with ceil := ceil, floor := floor, capW := cap, restrict := t.pwr.restrict, inForce := t.pwr.inForce } ∧
          (p.ceil ≤ ceil → p.floor ≤ floor → cap ≤ p.capW → ¬ (ceil = p.ceil ∧ floor = p.floor ∧ cap = p.capW) →
            t.pwr.restrict = true ∧ t.pwr.inForce = p.inForce.slower ⟨ceil, floor, cap, p.tjTarget, p.dramTarget⟩) ∧
          (ceil < p.ceil ∨ floor < p.floor ∨ p.capW < cap → t.pwr.restrict = p.restrict ∧ t.pwr.inForce = p.inForce))) ∧
      (∃ t, exec (.pwrTargetsWrite v value) s = .next t ∧
        (¬ inRange p.ceil p.floor p.capW tj dram → rejected t) ∧
        (inRange p.ceil p.floor p.capW tj dram → t = { s with pwr := t.pwr } ∧
          t.pwr = { p with tjTarget := tj, dramTarget := dram, restrict := t.pwr.restrict, inForce := t.pwr.inForce } ∧
          (tj ≤ p.tjTarget → dram ≤ p.dramTarget → ¬ (tj = p.tjTarget ∧ dram = p.dramTarget) →
            t.pwr.restrict = true ∧ t.pwr.inForce = p.inForce.slower ⟨p.ceil, p.floor, p.capW, tj, dram⟩) ∧
          (p.tjTarget < tj ∨ p.dramTarget < dram → t.pwr.restrict = p.restrict ∧ t.pwr.inForce = p.inForce))))

/-- R352, R353, R354, R355, R359: BDG_CMD MEASURE makes a measurement due. In a window in which Badger measures, a measurement gives the required voltage of every step from what its monitors and rings read (a conversion that the manual does not give, log 152) and re-plans the voltage of every step by R353, for the next epoch, counted in REPLANS where a value changes; a step out of margin, and every faster one, is unavailable, with END_OF_MARGIN; GUARD_MV is the least margin of the available steps, and MARGIN_LOW is raised as it falls to 15 mV or below. Outside such a window it changes nothing. A measurement due for 2^20 ticks that no window came for raises MEASURE_SKIPPED and leaves the margin table. -/
def Obligations.BadgerReplans : Prop :=
  ∀ (s : State) (v : View) (monitors rings : List Nat),
    let vc := fun k => 850 - 16 * k
    let vReq := s.requiredMvs monitors rings
    let req := fun k => vReq.getD k 0
    let old := s.bdg.vPlanNext.getD s.fuses.vPlan
    (isRegion0 v = true → s.viewOpen v = true →
      exec (.measure v) s = .next { s with bdg := { s.bdg with requested := true, dueFrom := some (s.bdg.dueFrom.getD s.tik.tick) } }) ∧
    (∀ due, s.bdg.dueFrom = some due → s.tik.ticking = true →
      (due + 2 ^ 20 ≤ s.tik.tick →
        ∃ t, exec .measureSkipped s = .next t ∧ t.fuses = s.fuses ∧ EventIn t (s.devCopies pBdg 2) pBdg 2 ∧
          t.bdg = { s.bdg with dueFrom := some (s.tik.tick / 2 ^ 20 * 2 ^ 20), requested := false }) ∧
      (s.tik.tick < due + 2 ^ 20 → exec .measureSkipped s = .next s)) ∧
    (s.windowOpen = false ∨ s.bdg.measuring = false → exec (.badgerMeasure ⟨monitors, rings⟩) s = .next s) ∧
    (s.windowOpen = true → s.bdg.measuring = true →
        ∃ t new guard, exec (.badgerMeasure ⟨monitors, rings⟩) s = .next t ∧
          (new.length = 16 ∧ ∀ k, k < 16 → new.getD k 0 = min (vc k) (max (old.getD k 0 - 5) (5 * ceilDiv (req k + 20) 5))) ∧
          t.bdg = { s.bdg with unavail := t.bdg.unavail, lastTick := s.tik.tick % 2 ^ 32, measuring := false,
                               guardLog := ((s.fuses.onSeconds.toNat, guard) :: s.bdg.guardLog).take 16,
                               vPlanNext := if new = s.fuses.vPlan then none else some new } ∧
          (∀ k, k ∈ t.bdg.unavail ↔ ∃ j, k ≤ j ∧ j < 16 ∧ vc j < req j + 20) ∧
          t.fuses = { s.fuses with vReq := vReq } ∧
          (t.bdg.unavail.length < 16 → (∃ k, k < 16 ∧ k ∉ t.bdg.unavail ∧ guard = (vc k : Int) - req k - 20) ∧
            ∀ k, k < 16 → k ∉ t.bdg.unavail → guard ≤ (vc k : Int) - req k - 20) ∧
          t.counter dev pBdg 0 = s.counter dev pBdg 0 + 1 ∧
          t.counter dev pBdg 1 = s.counter dev pBdg 1 + (if new = old then 0 else 1) ∧
          (t.bdg.unavail ≠ [] → EventIn t (s.devCopies pBdg 0) pBdg 0) ∧
          (guard ≤ 15 → (∀ g r, s.bdg.guardLog = g :: r → 15 < g.2) → EventIn t (s.devCopies pBdg 1) pBdg 1))

/-! ## The tick (12) -/

/-- The refresh mode of a tick from T_hot and the mode of the tick before (R273). -/
def Sys2Proof.Safety.refreshOf (tHot prev : Nat) : Nat :=
  if 95 < tHot then 2 else if 85 < tHot then 1 else if 83 < tHot then min prev 1 else 0

/-- R307, R308, R309, R314, R342, R346, R348: at the plan cut-off the step of the next tick is fixed, NEXT at the last tick of an epoch (FLOOR without a decision) and the present level else, or a slower one where a write has tightened the bounds (R348), with its refresh mode; planning changes nothing but the records of the plan, events and clocks. At the plan latch the next tick begins: its number, its time, the planned step and E_dom, the refresh mode, a plan clock without stalls, a first emergency for every channel again, a recipe row that waited, and a TICK_OUT pulse. The first latch begins at the announced tick with step FLOOR. -/
def Obligations.CutoffAndLatch : Prop :=
  ∀ (s : State) (nowNs : Nat),
    let k := s.tik
    let time := max nowNs k.timeNs
    let level := if (k.tick + 1) % 64 = 0 then (if s.pwr.nextValid then s.pwr.next else s.pwr.floor) else s.pwr.level
    let begins := fun (t : State) (tick : Nat) => t.tik.ticking = true ∧ t.tik.tick = tick ∧ t.tik.latchNs = nowNs ∧ t.tik.timeNs = time ∧
      t.tik.stallNs = 0 ∧ t.tik.cutoffPassed = false ∧ t.tik.runEnded = false ∧ t.tik.settled = false ∧ t.tik.doneSent = none ∧
      t.tik.doneGot = [] ∧ t.tik.nextLatch = none ∧ (∀ j, (t.mbd j).retrained = []) ∧ t.memg.risen = false ∧ t.out.head? = some .tickOut ∧
      ((∀ a ∈ s.atLatch, ∀ j m v c, a ≠ .staged j m v c) → ∀ a, memRead t.commons a = memRead s.commons a)
    (k.ticking = true → k.cutoffPassed = false → level ≤ s.planLevel.1 ∧ (s.pwr.restrict = false → s.planLevel.1 = level) ∧
      ∃ t, exec (.planCutoff nowNs) s = .next t ∧ Frame (withEvents [.fuses, .tik, .pwr, .memg, .domQueue, .domSlabs]) s t ∧
        t.tik = { k with timeNs := time, cutoffPassed := true, planStep := s.planLevel.1, planEdom := t.tik.planEdom } ∧
        t.pwr = { s.pwr with planOverride := t.pwr.planOverride, restrict := false,
                             inForce := if (k.tick + 1) % 64 = 0 then s.pwr.bounds else s.pwr.inForce } ∧
        t.memg = { s.memg with planMode := refreshOf s.memg.tHot s.memg.latchedMode }) ∧
    (s.boot.phase = .running → s.fab.trainStart.isSome = true →
      (k.ticking = true → k.settled = true →
        ∃ t, exec (.planLatch nowNs) s = .next t ∧ begins t (k.tick + 1) ∧ t.tik.step = k.planStep ∧ t.pwr.level = k.planStep ∧
          t.pwr.edom = k.planEdom ∧ t.pwr.override = s.pwr.planOverride.isSome ∧
          t.memg.latchedMode = refreshOf s.memg.tHot s.memg.latchedMode ∧ t.memg.refMode = t.memg.latchedMode ∧
          t.memg.tickMode = s.memg.planMode ∧
          ∀ row r, s.atLatch = [.recipe row r] → row < s.recipe.length → t.recipe = s.recipe.set row r) ∧
      (k.ticking = false → k.isMaster = true ∨ k.nextLatch.isSome = true →
        ∃ t, exec (.planLatch nowNs) s = .next t ∧ begins t k.tick ∧ t.tik.step = s.pwr.floor ∧ t.pwr.level = s.pwr.floor ∧
          t.pwr.override = false ∧ t.memg.refMode = refreshOf s.memg.tHot s.memg.latchedMode ∧ t.memg.tickMode = t.memg.refMode))

/-- The completion words that the settle phase of a tick writes for a slab (R26, R414): of a withheld attempt, and of a slab that has ended and asks for its word, is a replay or did not end in DONE, once a word is reserved for it. -/
def Sys2Proof.Safety.slabWords (tick : Nat) (b : Slab) : List W64 :=
  if b.state = .withheld then (if b.attemptWord then [completionWord b.words .sharedPoison b.replay tick] else [])
  else if b.state = .ended ∧ b.tick ≤ tick ∧ b.wordReserved = true ∧ ((hdrOf b.words).completeWord = true ∨ b.status ≠ .done ∨ b.replay = true) then
    [completionWord b.words b.status b.replay tick]
  else []

/-- R26, R242, R307, R310, R314, R325, R414, R416: at the end of the run phase, T_tick less SETTLE_US and the tick's window after the latch on the plan clock, every slab and device slab that still runs pauses, and nothing but the slabs and lags changes. The settle phase reserves words for the slabs that have ended without one, as far as the queue has room, writes the completion words of every domain in the order of its slabs, each with tag, status, kind, replay bit, tick and VALID, and sends the done token unless a stripe is BAD. A refetched stripe that verifies is resident with its bytes; once no stripe is BAD the time since the refetch began stretches the tick under BASE_REFETCH, and the token goes. -/
def Obligations.RunPhaseAndSettle : Prop :=
  ∀ (s : State) (nowNs stripe : Nat) (copy : Fin 2) (source : StripeSource) (bytes : List Byte),
    let k := s.tik
    let time := max nowNs k.timeNs
    let window := if k.tick % s.memg.maintEvery = 0 then s.memg.maintLen else 0
    (∀ ws st replay tick, completionWord ws st replay tick = BitVec.ofNat 64 ((hdrOf ws).tag % 2 ^ 32 + 2 ^ 32 * (st.code % 256) +
      2 ^ 40 * ((hdrOf ws).kind % 16) + 2 ^ 44 * (if replay then 1 else 0) + 2 ^ 45 * (tick % 2 ^ 15) + 2 ^ 63)) ∧
    (k.ticking = true → k.runEnded = false → k.latchNs + k.stallNs + (10 * k.len - 1000 * (window + k.settleUs)) ≤ nowNs →
      ∃ t, exec (.runPhaseEnd nowNs) s = .next t ∧ Frame (withEvents [.fuses, .tik, .domSlabs, .domSched]) s t ∧
        t.tik = { k with timeNs := time, runEnded := true } ∧
        (∀ d, ∀ b ∈ (t.dom d).slabs, b.state ≠ .running) ∧ ∀ d kind r, (t.dom d).devSlab? kind = some r → r.state ≠ .running) ∧
    (k.ticking = true → k.runEnded = true → k.settled = false →
      ∃ t, exec (.settleStart nowNs) s = .next t ∧ t.tik.settled = true ∧ t.tik.timeNs = time ∧
        (∀ d, (t.dom d).queue.compl = (s.dom d).queue.compl ++ (((s.reserveEnded d).dom d).slabs.map (slabWords k.tick)).flatten) ∧
        (s.badStripes = [] → t.tik.doneSent.isSome = true)) ∧
    (((s.copy copy.val).stripe stripe).state = .bad → s.badStripes.contains (copy.val, stripe) = true → k.settled = true → s.digestOk copy.val stripe bytes = true →
      ∃ t, exec (.baseRefetchDone copy stripe source bytes nowNs) s = .next t ∧ t.tik.timeNs = time ∧
        ((t.copy copy.val).stripe stripe).state = .resident ∧ 
        (∀ a, memRead (t.copy copy.val).image a = if 65536 * stripe ≤ a ∧ a < 65536 * stripe + 65536 then bytes.getD (a - 65536 * stripe) 0
          else memRead (s.copy copy.val).image a) ∧
        (∀ j, j ≠ stripe → (t.copy copy.val).stripe j = (s.copy copy.val).stripe j) ∧ t.copy (1 - copy.val) = s.copy (1 - copy.val) ∧
        t.counter dev pBas 4 = s.counter dev pBas 4 + 1 ∧ (t.badStripes = [] → t.tik.doneSent.isSome = true) ∧
        (t.badStripes ≠ [] → t.tik = { k with timeNs := time } ∧ t.stretch = s.stretch) ∧
        (t.badStripes = [] → k.doneSent = none →
          let ns := time - s.bas.refetchFrom
          t.tik.stallNs = k.stallNs + ns ∧ mapGet t.tik.stallBy 3 = some ((mapGet k.stallBy 3).getD 0 + ns) ∧
          mapGet t.stretch (64 * dev + 3) = some ((mapGet s.stretch (64 * dev + 3)).getD 0 + w64 ns)))

/-- R26, R123, R326: the manager's TIK_CMD in region 0. PREEMPT of an ACTIVE domain other than 0 is ACCEPTED for the latch that follows the next cut-off, BAD_ARG for domain 0 or a reserved bit, BAD_STATE in every other state; RESUME of a preempted domain that holds all its arrays is ACCEPTED for that latch, BAD_STATE otherwise. The result is posted, and no other domain changes. -/
def Obligations.PreemptAndResume : Prop :=
  ∀ (s : State) (posted save : Bool) (d : Fin 64) (rsv : BitVec 53) (rsv2 : BitVec 54),
    let v : View := .pf 0
    let n := d.val
    let x := s.dom n
    let at_ := if s.tik.ticking then s.tik.tick + 1 + (if s.tik.cutoffPassed then 1 else 0) else 0
    let leaves := fun (t : State) (st op : Nat) => Answered t (s.viewCopy v pTik) pTik (st + 256 * op + 4096 * n) ∧
      OnlyPair s t (s.viewCopy v pTik) pTik ∧ OnlyDom s t n
    Ready s v pTik posted →
    (x.phase = .active → n ≠ 0 → rsv = 0 → x.preemptAt = none →
      ∃ t, exec (.preempt posted d save rsv) s = .next t ∧ leaves t 1 1 ∧ (t.dom n).preemptAt = some (at_, save) ∧ (t.dom n).phase = .active) ∧
    (x.phase ≠ .active → n ≠ 0 → rsv = 0 →
      ∃ t, exec (.preempt posted d save rsv) s = .next t ∧ leaves t 0x0A 1 ∧ (t.dom n).preemptAt = x.preemptAt) ∧
    (n = 0 ∨ rsv ≠ 0 → ∃ t, exec (.preempt posted d save rsv) s = .next t ∧ leaves t 5 1 ∧ (t.dom n).preemptAt = x.preemptAt) ∧
    (x.phase = .preempted → s.lentFrom n = [] → rsv2.toNat < 2 → x.resumeAt = none →
      ∃ t, exec (.resume posted d rsv2) s = .next t ∧ leaves t 1 2 ∧ (t.dom n).resumeAt = some at_ ∧ (t.dom n).phase = .preempted) ∧
    (x.phase ≠ .preempted ∨ s.lentFrom n ≠ [] → rsv2.toNat < 2 →
      ∃ t, exec (.resume posted d rsv2) s = .next t ∧ leaves t 0x0A 2 ∧ (t.dom n).resumeAt = x.resumeAt)

/-- The slabs of a list with that of a submission number changed. -/
def Sys2Proof.Safety.slabsWith (l : List Slab) (order : Nat) (f : Slab → Slab) : List Slab :=
  l.map (fun c => if c.order = order then f c else c)

/-- The slabs of a domain after one of them has ended in tick `tick`: its credits are returned, and its dependents run where its status feeds them, or fail with it (R25, R26, R411). -/
def Sys2Proof.Safety.slabsEnded (l : List Slab) (b : Slab) (st : Status) (tick : Nat) : List Slab :=
  (slabsWith l b.order (fun c => { c with state := .ended, status := st, tick := tick, nextPlan := none,
                                          creditReturned := c.creditReturned || !b.creditReturned })).map
    (fun c => if c.dep = .waits b.order then { c with dep := if st.feeds then .met else .failed } else c)

/-- The state in which the work of a slab that starts begins, and whether a word of an array read wrong: its credits are returned (R411), its delay behind a replay is stretch (R74), a replay has its restore copy back (R76), and its reads have met their errors (R261). -/
def Sys2Proof.Safety.workBegins (a : State) (n : Nat) (b : Slab) (nowNs : Nat) (errors : List ReadError) : State × Bool :=
  let late := match b.deferFrom with
    | some t => nowNs - t
    | none => 0
  let s1 := if late = 0 then a.creditSlab n b else (a.creditSlab n b).addStretch n 0x14 late
  (if b.replay = true ∧ b.restore ≠ [] then s1.accPutAll b.restore else s1).meetErrors n errors

/-- R21, R23, R25, R76, R283, R296, R316, R324, R325, R327, R452, R481: what may start, starts at its time, whatever errors its reads meet. A slab whose predecessor failed ends with DEP_FAILED, and its own dependents with it, and nothing is computed; a paused slab runs again. A planned slab of any kind runs: where its work fails no check and finds what it needs, it leaves in the memories what the work of its kind leaves (the accumulators too, where no other domain shares its fetch) and its batch counts as started; else it ends with that work's status; a collective or migration with demand pages waits for them. A KLN3_MOVE without poison copies its bytes and no other, and a SCRUB slab of the PF leaves every byte of its pages zero and changes no other memory. Each charges its planned energy. A device slab starts or resumes likewise, and one that has no transfer to begin changes only its own domain. -/
def Obligations.SlabsStart : Prop :=
  ∀ (s : State) (d : Fin 64) (tag : W32) (kind : DevSlab) (nowNs : Nat) (errors : List ReadError),
    let n := d.val
    let a := s.atTime nowNs
    let off := a.planOff nowNs
    let energy := fun (t : State) (e : Rat) => t.pwr = { s.pwr with tickEnergy := s.pwr.tickEnergy + e }
    (∀ b, (s.dom n).slabOf tag = some b → a.mayStart n b off = true →
      let m := workBegins a n b nowNs errors
      let run : Slab := { b with state := .running, startOff := off, stalledNs := 0, recipe := s.recipe, sram := m.2, deferFrom := none,
                                 demDue := if b.demand = [] then 0 else nowNs + b.demNs.floor.toNat, busyFrom := nowNs, creditReturned := true }
      let u := m.1.updSlab n b.order (fun _ => run)
      let r := u.runSlab n run m.2
      let h := hdrOf b.words
      let body := moveBody b.words
      (b.state = .paused →
        ∃ t, exec (.slabStart d (.user tag) nowNs errors) s = .next t ∧ OnlyDom s t n ∧ energy t b.energy ∧
          Frame [.fuses, .tik, .pwr, .counters, .domSlabs, .domSched, .domCol] s t ∧
          (t.dom n).slabs = slabsWith (s.dom n).slabs b.order (fun c =>
            { c with state := .running, startOff := off, stalledNs := 0, busyFrom := max c.busyFrom nowNs })) ∧
      (b.state = .planned → b.dep = .failed →
        ∃ t, exec (.slabStart d (.user tag) nowNs errors) s = .next t ∧ OnlyDom s t n ∧
          Frame (withEvents [.fuses, .pci, .tik, .domQueue, .domSlabs, .domVec, .domUpd]) s t ∧
          (t.dom n).slabs = slabsEnded (s.dom n).slabs b .depFailed s.tik.tick) ∧
      (b.state = .planned → b.dep = .met → b.waitsPages = true →
        ∃ t, exec (.slabStart d (.user tag) nowNs errors) s = .next t ∧ energy t b.energy ∧
          ∀ c ∈ (t.dom n).slabs, c.order = b.order → c.state = .running ∧ c.ran = b.ran ∧ c.demand = b.demand) ∧
      (b.state = .planned → b.dep = .met → b.waitsPages = false → r.status.noWork = false →
        ∃ t, exec (.slabStart d (.user tag) nowNs errors) s = .next t ∧ energy t b.energy ∧
          (∀ c ∈ (t.dom n).slabs, c.order = b.order → c.state = .running ∧ c.ran = true ∧ c.demand = b.demand ∧ c.effects = r.effects) ∧
          (∀ y ∈ (t.dom n).batches, y.id = h.batch → y.started = true ∧ y.unopened = false) ∧
          (∀ e, (t.dom e).mem = (r.st.dom e).mem ∧ (t.dom e).poison = (r.st.dom e).poison ∧ (t.dom e).tir = (r.st.dom e).tir) ∧
          t.commons = r.st.commons ∧ t.opbuf = r.st.opbuf ∧ t.slots = r.st.slots ∧ (b.sharedWith = [] → t.acc = r.st.acc) ∧
          (h.kind = 7 → h.sub ≠ 2 → h.sub ≠ 3 → h.sub ≠ 4 → (u.rdMem n body.src body.bytes).2 = false →
            poisonHit (u.dom n).poison 64 body.dst body.bytes = false →
            ∀ x, memRead (t.dom n).mem x = if body.dst ≤ x ∧ x < body.dst + body.bytes
              then (u.rdMem n body.src body.bytes).1.getD (x - body.dst) 0 else memRead (u.dom n).mem x) ∧
          (h.kind = 8 → ∀ x, memRead (t.dom 0).mem x =
            if 2097152 * wfld b.words 4 0 27 ≤ x ∧ x < 2097152 * (wfld b.words 4 0 27 + wfld b.words 4 27 16) then 0
            else memRead (u.dom 0).mem x)) ∧
      (b.state = .planned → b.dep = .met → b.waitsPages = false → r.status.noWork = true →
        ∃ t, exec (.slabStart d (.user tag) nowNs errors) s = .next t ∧
          (∀ c ∈ (t.dom n).slabs, c.order = b.order → c.state = .ended ∧ c.status = r.status) ∧
          (r.status ≠ .baseUnavailable → t.pwr = s.pwr) ∧ (r.status = .baseUnavailable → energy t b.energy))) ∧
    (∀ r, (s.dom n).devSlab? kind = some r → a.mayStartDev n r off = true →
      ∃ t, exec (.slabStart d (.device kind) nowNs errors) s = .next t ∧ energy t r.energy ∧
        (t.dom n).devSlabs = updDevs kind (fun q => { q with state := .running, startOff := off, stalledNs := 0 }) (s.dom n).devSlabs ∧
        (r.state = .paused ∨ (kind ≠ .tierQueue ∧ kind ≠ .carter ∧ kind ≠ .cooper) →
          OnlyDom s t n ∧ Frame [.fuses, .tik, .pwr, .counters, .domSlabs, .domSched] s t ∧ (t.dom n).slabs = (s.dom n).slabs))

/-- R21, R25, R26, R75, R91, R154, R241, R243, R268, R325, R327: a running slab or device slab pauses at its horizon, a chain with its loop position, and counts once in MULTI_TICK. One whose work is done ends with its status, its dependents resolved and its credits back; one that read poison is withheld, with its replay due one tick after the poison was read, or two after the cut-off. A save slab leaves the accumulators of the domain's units at +0 with a copy in the save area, unless a restore has not ended, and raises PREEMPT_DONE; a restore writes the commons banks back and raises RESUME_DONE. A slab that leaves a shared fetch shares with no domain. -/
def Obligations.SlabsPauseAndEnd : Prop :=
  ∀ (s : State) (d : Fin 64) (tag : W32) (kind : DevSlab) (nowNs : Nat),
    let n := d.val
    let a := s.atTime nowNs
    let off := a.planOff nowNs
    let x := s.dom n
    (∀ b, x.slabOf tag = some b → s.inRun = true → b.state = .running → b.planStop < b.planEnd → b.planStop < off + 1 →
      let done := a.sliceDone b off
      ∃ t, exec (.slabPause d (.user tag) nowNs) s = .next t ∧ OnlyDom s t n ∧ Frame [.fuses, .tik, .counters, .domSlabs] s t ∧
        (t.dom n).slabs = slabsWith x.slabs b.order (fun c =>
          { c with state := .paused, multi := true, planStart := c.planStop, remaining := c.remaining - done,
                   frac := c.frac - ratMin c.frac done, chainPos := c.loopPos (c.remaining - done),
                   nextPlan := if c.status = .sharedPoison then none else c.nextPlan }) ∧
        t.counter n pTik 5 = s.counter n pTik 5 + (if b.multi then 0 else 1)) ∧
    (∀ r, x.devSlab? kind = some r → s.inRun = true → r.state = .running → r.planStop < r.planEnd → r.planStop < off + 1 →
      ∃ t done, exec (.slabPause d (.device kind) nowNs) s = .next t ∧ OnlyDom s t n ∧ Frame [.fuses, .tik, .counters, .domSlabs] s t ∧
        (t.dom n).slabs = x.slabs ∧
        (t.dom n).devSlabs = updDevs kind (fun q => { q with state := .paused, multi := true, remaining := q.remaining - done,
                                                             frac := q.frac - ratMin q.frac done, planStart := q.planStop }) x.devSlabs ∧
        t.counter n pTik 5 = s.counter n pTik 5 + (if r.multi then 0 else 1)) ∧
    (∀ b, x.slabOf tag = some b → a.mayEnd n b = true → b.ran = true →
      (b.status ≠ .sharedPoison →
        ∃ t, exec (.slabComplete d (.user tag) nowNs) s = .next t ∧
          (t.dom n).slabs = slabsEnded (slabsWith x.slabs b.order (fun c => { c with busyFrom := max c.busyFrom nowNs })) b b.status s.tik.tick ∧
          ((hdrOf b.words).kind ≠ 6 → b.effects = [] → b.pageFailed = false →
            OnlyDom s t n ∧ Frame (withEvents [.fuses, .pci, .tik, .domQueue, .domSlabs]) s t)) ∧
      (b.status = .sharedPoison →
        ∃ t, exec (.slabComplete d (.user tag) nowNs) s = .next t ∧
          (∀ c ∈ (t.dom n).slabs, c.order = b.order → c.state = .withheld ∧ c.status = .done ∧ c.ran = false ∧
            ((∀ e ∈ x.slabs, e.order = b.order → e = b) →
              c.replayTick = if b.poisonTick = 0 then s.tik.tick + 1 + (if s.tik.cutoffPassed then 1 else 0) else b.poisonTick)) ∧
          t.counter dev pBas 3 = s.counter dev pBas 3 + 1 ∧ (s.live n = true → EventIn t (domCopies pBas 3 n) pBas 3))) ∧
    (∀ r, x.devSlab? kind = some r → a.mayEndDev n r = true →
      ∃ t, exec (.slabComplete d (.device kind) nowNs) s = .next t ∧
        (t.dom n).devSlabs = updDevs kind (fun q => { q with state := .ended }) x.devSlabs ∧
        (kind = .save → (t.dom n).saving = false ∧
          (x.restoring = false → (t.dom n).savedAcc = s.acc.filter (fun p => (s.unitsOf n).contains (p.1 / 524288))) ∧
          (x.restoring = true → (t.dom n).savedAcc = x.savedAcc) ∧
          (∀ u ∈ s.unitsOf n, ∀ key, 524288 * u ≤ key → key < 524288 * (u + 1) → t.accGet key = 0) ∧
          (s.live n = true → EventIn t (domCopies pTik 4 n) pTik 4)) ∧
        (kind = .restore → (t.dom n).preempted = false ∧ (t.dom n).restoring = false ∧
          (∀ o, memRead t.commons o = if x.savedBanks.1 ≤ o ∧ o < x.savedBanks.1 + x.savedBanks.2 then memRead x.savedCommons o
            else memRead s.commons o) ∧
          (s.live n = true → EventIn t (domCopies pTik 5 n) pTik 5))) ∧
    (∀ b, x.slabOf tag = some b → b.state = .running →
      ∃ t, exec (.sharedFetchHoldExpire d tag) s = .next t ∧ OnlyDom s t n ∧ Frame [.domSlabs] s t ∧
        (t.dom n).slabs = slabsWith x.slabs b.order (fun c => { c with sharedWith := [] }))

/-! ## The tick tree (12, 14) -/

/-- o is the best of a list of offers, PRIO and address: the highest PRIO, and the lower address on a tie; PRIO 0 is never taken (R311). -/
def Sys2Proof.Safety.BestOf (l : List (Nat × Nat)) (o : Nat × Nat) : Prop :=
  o ∈ l ∧ o.1 ≠ 0 ∧ ∀ q ∈ l, q.1 ≠ 0 → q.1 < o.1 ∨ (q.1 = o.1 ∧ o.2 ≤ q.2)

/-- R311, R312, R494, R509: a new PRIO offer is recorded and goes on over every other UP port. At the election the best offer heard becomes master, and latches tick 0 at once where it is this device's own. Without a tick symbol for two tick lengths after the nominal latch the master is dropped for the next best offer, with TICK_MASTER_CHANGE; where it is this device's own it announces the next tick. A master that loses the edges it counts keeps its time base and raises TICK_LATE. -/
def Obligations.TickMasters : Prop :=
  ∀ (s : State) (port : Fin 18) (device prio nowNs : Nat),
    let k := s.tik
    let self := s.fab.self
    let others := fun dropped => (k.prio, self) :: (k.offers.filter (fun o => o.2 != dropped)).filter (fun o => o.2 != self)
    let announces := fun (t : State) (tick : Nat) => ∀ p ∈ t.childPorts, ∃ sym, Output.tick p sym ∈ t.out ∧ sym.tick = w64 tick ∧
      sym.latchNs = nowNs ∧ sym.master = self ∧ sym.len = (k.applied tick).len ∧ sym.settleUs = (k.applied tick).settleUs ∧
      sym.gdUs = (k.applied tick).gdUs ∧ sym.cutUs = (k.applied tick).cutUs
    (s.fab.trainStart.isSome = true → (s.port port.val).state = .up → device ≠ self → (prio, device) ∉ k.offers →
      ∃ t, exec (.prioOffer port device prio) s = .next t ∧ Frame [.tik, .fab, .counters, .freeCtr, .out] s t ∧
        t.tik = { k with offers := k.offers.filter (fun o => o.2 != device) ++ [(prio, device)] } ∧
        ∀ p, p ≠ port.val → (s.port p).state = .up → Output.ctrl p 1 (device % 2 ^ 15 + 2 ^ 15 * prio) ∈ t.out) ∧
    (∀ o, s.fab.trainStart.isSome = true → k.ticking = false → k.master = none → BestOf ((k.prio, self) :: k.offers.filter (fun o => o.2 != self)) o →
      ∃ t, exec (.masterElection nowNs) s = .next t ∧ t.tik.master = some o.2 ∧ t.tik.timeNs = max nowNs k.timeNs ∧
        (o.2 ≠ self → t.tik.isMaster = false ∧ t.tik.nextLatch = k.nextLatch) ∧
        (o.2 = self → t.tik.isMaster = true ∧ t.tik.nextLatch = some nowNs ∧ t.tik.tick = 0 ∧ announces t 0)) ∧
    (∀ m, k.ticking = true → k.isMaster = false → k.master = some m → m ≠ self → k.nextLatch = none →
      k.latchNs + 10 * k.len + 2 * (10 * k.len) ≤ nowNs →
      ((∀ o, ¬ BestOf (others m) o) →
        ∃ t, exec (.tickMasterTimeout nowNs) s = .next t ∧ t.tik.master = none ∧ EventIn t (s.devCopies pTik 2) pTik 2) ∧
      (∀ o, BestOf (others m) o →
        ∃ t, exec (.tickMasterTimeout nowNs) s = .next t ∧ t.tik.master = some o.2 ∧ EventIn t (s.devCopies pTik 2) pTik 2 ∧
          (o.2 ≠ self → t.tik.isMaster = false ∧ t.tik.nextLatch = none) ∧
          (o.2 = self → t.tik.isMaster = true ∧ t.tik.nextLatch = some nowNs ∧ announces t (k.tick + 1) ∧
            t.counter dev pTik 1 = s.counter dev pTik 1 + w64 (nowNs - (k.latchNs + 10 * k.len))))) ∧
    (k.isMaster = true → k.refExt = true → k.refLost = false →
      ∃ t, exec .tickRefLoss s = .next t ∧ Frame (withEvents [.tik, .domMem]) s t ∧ t.tik = { k with refLost := true } ∧
        EventIn t (s.devCopies (pFab 0) 5) (pFab 0) 5)

/-- R307, R311, R312, R315, R391, R392, R394: a child's done token is kept; once the device's own and those of its whole subtree are there, the one with the latest STAMP goes to the parent. The master then starts the next tick at the later of the nominal start plus the stretch that token reports, and its STAMP plus G; what this is later than the nominal start is the system stretch, added to STRETCH_NS with TICK_STRETCH, and the symbol goes to every child. A device takes the latch of a symbol of its master, and all values of the first it hears and of the first after its master was dropped, and passes it on with its link's delay added. A symbol of a tick carries the values in force in that tick. -/
def Obligations.TokensAndSymbols : Prop :=
  ∀ (s : State) (port : Fin 18) (token : DoneToken) (sym : TickSymbol) (nowNs : Nat),
    let k := s.tik
    let self := s.fab.self
    let nominal := k.latchNs + 10 * k.len
    let start := max (nominal + s.latestToken.stretchNs) (s.latestToken.stampNs + 1000 * k.gdUs)
    let passes := fun (t : State) => ∀ p ∈ t.childPorts, Output.tick p { sym with accPs := sym.accPs + (s.port port.val).delayPs } ∈ t.out
    (k.ticking = true → token.tick.toNat = k.tick → port.val ∈ s.childPorts → (∀ g ∈ k.doneGot, g.1 ≠ port.val) →
      ∃ t, exec (.doneTokenReceive port token nowNs) s = .next t ∧ Frame [.fuses, .tik, .fab, .counters, .freeCtr, .out] s t ∧
        t.tik = { k with timeNs := max nowNs k.timeNs, doneGot := k.doneGot ++ [(port.val, token)] } ∧
        ∀ own, k.doneSent = some own → k.isMaster = false → (∀ p ∈ s.childPorts, p = port.val ∨ ∃ g ∈ k.doneGot, g.1 = p) →
          ∃ last, Output.done s.fab.parentPort last ∈ t.out ∧ own ≤ last.stampNs ∧ token.stampNs ≤ last.stampNs ∧
            (∀ g ∈ k.doneGot, g.2.stampNs ≤ last.stampNs) ∧
            ((last.device = self ∧ last.stampNs = own) ∨ last = token ∨ ∃ g ∈ k.doneGot, g.2 = last)) ∧
    (k.ticking = true → k.isMaster = true → k.settled = true → k.nextLatch = none → k.doneSent.isSome = true →
      (∀ p ∈ s.childPorts, ∃ g ∈ k.doneGot, g.1 = p) →
      ∃ t, exec (.tickStart nowNs) s = .next t ∧ t.tik.nextLatch = some start ∧ (t.tik.stretched = true ↔ start ≠ nominal) ∧
        t.counter dev pTik 1 = s.counter dev pTik 1 + w64 (start - nominal) ∧
        (start ≠ nominal → EventIn t (s.devCopies pTik 1) pTik 1) ∧
        ∀ p ∈ t.childPorts, ∃ y, Output.tick p y ∈ t.out ∧ y.tick = w64 (k.tick + 1) ∧ y.latchNs = start ∧ y.stretchNs = start - nominal ∧
          y.master = self ∧ y.len = (k.applied (k.tick + 1)).len ∧ y.settleUs = (k.applied (k.tick + 1)).settleUs ∧
          y.gdUs = (k.applied (k.tick + 1)).gdUs ∧ y.cutUs = (k.applied (k.tick + 1)).cutUs) ∧
    (s.fab.trainStart.isSome = true → (s.port port.val).state = .up → sym.master ≠ self →
      (k.master = some sym.master → k.ticking = true → k.dropped = true →
        ∃ t, exec (.tickSymbolReceive port sym nowNs) s = .next t ∧ t.tik.nextLatch = some sym.latchNs ∧ t.tik.master = k.master ∧
          t.tik.dropped = false ∧ t.tik.tick = sym.tick.toNat - 1 ∧ t.tik.len = sym.len ∧ t.tik.settleUs = sym.settleUs ∧
          t.tik.gdUs = sym.gdUs ∧ t.tik.cutUs = sym.cutUs ∧ passes t ∧
          t.counter dev pTik 1 = s.counter dev pTik 1 + w64 (sym.latchNs - nominal)) ∧
      (k.master = some sym.master → k.ticking = true → k.dropped = false →
        ∃ t, exec (.tickSymbolReceive port sym nowNs) s = .next t ∧ t.tik.nextLatch = some sym.latchNs ∧ t.tik.master = k.master ∧
          t.tik.tick = k.tick ∧ t.tik.len = k.len ∧ t.tik.lateNs = nowNs - sym.latchNs ∧ t.counter dev pTik 1 = s.counter dev pTik 1 + w64 sym.stretchNs ∧
          passes t ∧ (sym.latchNs < nowNs → EventIn t (s.devCopies (pFab 0) 5) (pFab 0) 5)) ∧
      (k.master = none → k.ticking = false →
        ∃ t, exec (.tickSymbolReceive port sym nowNs) s = .next t ∧ t.tik.nextLatch = some sym.latchNs ∧
          t.tik.master = some sym.master ∧ t.tik.isMaster = false ∧ t.tik.tick = sym.tick.toNat ∧ t.tik.len = sym.len ∧
          t.tik.settleUs = sym.settleUs ∧ t.tik.gdUs = sym.gdUs ∧ t.tik.cutUs = sym.cutUs ∧ passes t))

/-! ## Fabric ports (14) -/

/-- A port without the flits, credits and sending counts that its traffic moves. -/
def Sys2Proof.Safety.portCore (x : PortStateRec) : PortStateRec :=
  { x with txSeq := 0, replay := [], credits := [], waiting := [], txCount := 0, creditsDue := [] }

/-- R360, R362, R365, R366, R399, R508, R509: training starts once bring-up is over and SELF_VALID set, and a port's stages when its peer's signal comes within 10 s, while SELF_VALID stands: the device names itself and the port to its peer. A port whose lanes trained to the right peer is UP, or KEYING between racks with its exchange begun, at full width or on its healthy half with LINK_HALF; failed lanes in both halves leave it FAILED, and a wrong peer MISWIRED. One that comes UP raises LINK_UP and sends every offer heard. A missed stage leaves it FAILED; a lane that fails, RETRAIN and ENABLE 0 take it out of service, with LINK_DOWN where it was UP. -/
def Obligations.PortsTrain : Prop :=
  ∀ (s : State) (port : Fin 18) (v : View) (lanes : BitVec 8) (lane : Fin 8) (peer peerPort delayPs eyeMv eyeLane nowNs : Nat),
    let n := port.val
    let x := s.port n
    let f := s.fab
    let low := (~~~lanes).toNat % 16
    let high := (~~~lanes).toNat / 16
    let trained : PortStateRec :=
      { x with badLanes := ~~~lanes, peerDevice := peer, peerPort := peerPort, delayPs := delayPs, eyeMv := eyeMv, eyeLane := eyeLane,
               half := lanes != 255, halfSel := low != 0, rxSeq := 0, retryCount := 0, rxCount := 0 }
    let none_ := fun (st : PortState) => { trained with state := st, half := false, halfSel := false }
    let off := fun (st : PortState) =>
      { x with state := st, half := false, halfSel := false, secure := false, exchange := none, linkKeys := [], newKeys := [],
               txNew := false, rxNew := false, rekeyStalled := false, retryCount := 0 }
    let core := fun (t : State) (y : PortStateRec) =>
      portCore (t.port n) = portCore y ∧ ∀ q, q ≠ n → portCore (t.port q) = portCore (s.port q)
    let event := fun (t : State) (bit : Nat) => EventIn t (s.devCopies (pFab n) bit) (pFab n) bit
    let trains := fun (t : State) => exec (.portTrainingDone port lanes peer peerPort delayPs eyeMv eyeLane) s = .next t
    let names := fun (t : State) => Output.ctrl n 2 (f.self + 2 ^ 15 * n) ∈ t.out
    let leaves := fun (t : State) (y : PortStateRec) => core t y ∧ Frame (withEvents [.fab, .domMem]) s t ∧
      (x.state = .up → t.fab.portChanged = true ∧ event t 0)
    (s.boot.phase = .running → f.selfValid = true → f.trainStart = none →
      ∃ t, exec (.fabricTrainingStart nowNs) s = .next t ∧ Frame [.fuses, .tik, .fab] s t ∧ t.fab = { f with trainStart := some nowNs } ∧
        t.tik = { s.tik with timeNs := max nowNs s.tik.timeNs }) ∧
    (∀ start, f.trainStart = some start → x.state = .down → x.enable = true → x.signal = false → f.selfValid = true → nowNs ≤ start + 10 ^ 10 →
      ∃ t, exec (.signalDetect port nowNs) s = .next t ∧ Frame [.fuses, .tik, .fab, .out] s t ∧ OnlyPort s t n ∧
        t.port n = { x with signal := true, state := .training } ∧ names t) ∧
    (x.state = .training ∨ x.state = .keying →
      ∃ t, exec (.portStageTimeout port) s = .next t ∧ Frame [.fab] s t ∧ OnlyPort s t n ∧
        t.port n = { off .failed with waiting := [], replay := [], credits := [], creditsDue := [] }) ∧
    (f.selfValid = false → trains s) ∧
    (f.selfValid = true → x.state = .training →
      (low ≠ 0 → high ≠ 0 → ∃ t, trains t ∧ Frame [.fab] s t ∧ core t (none_ .failed)) ∧
      (low = 0 ∨ high = 0 → peer ≠ neighbour f.self (dirOf n) ∨ peerPort ≠ farPort n →
        ∃ t, trains t ∧ core t (none_ .miswired) ∧ event t 3) ∧
      (low = 0 ∨ high = 0 → peer = neighbour f.self (dirOf n) → peerPort = farPort n →
        (interRack n = false → ∃ t, trains t ∧ core t { trained with state := .up } ∧ t.fab.portChanged = true ∧ event t 1 ∧
          (lanes ≠ 255 → event t 2) ∧
          ∀ o ∈ (s.tik.prio, f.self) :: s.tik.offers.filter (fun o => o.2 != f.self), Output.ctrl n 1 (o.2 + 2 ^ 15 * o.1) ∈ t.out) ∧
        (interRack n = true → ∃ t, trains t ∧ (lanes ≠ 255 → event t 2) ∧ ∃ e, e.rekey = false ∧
          core t { trained with state := .keying, exchange := some e } ∧
          (f.self < peer → ∃ m, e.transcript = [m] ∧ Output.keyExchange n 0 m ∈ t.out)))) ∧
    (x.state = .up ∨ x.state = .keying →
      (∃ t, exec (.oneWayDelayMeasurement port delayPs) s = .next t ∧ Frame [.fab] s t ∧ OnlyPort s t n ∧
        t.port n = { x with delayPs := delayPs % 2 ^ 24 }) ∧
      ∃ t, exec (.laneFail port lane) s = .next t ∧ (f.selfValid = true → names t) ∧
        leaves t { off (if f.selfValid then .training else .down) with badLanes := x.badLanes ||| BitVec.ofNat 8 (2 ^ lane.val) }) ∧
    (s.shows v (pFab n) = true →
      (x.enable = true → f.trainStart.isSome = true → f.selfValid = true →
        ∃ t, exec (.retrain v port) s = .next t ∧ names t ∧ leaves t { off .training with signal := true }) ∧
      (x.enable = true → ∃ t, exec (.portEnable v port false) s = .next t ∧ leaves t { off .down with enable := false, signal := false }) ∧
      (x.enable = false → ∃ t, exec (.portEnable v port true) s = .next t ∧ Frame [.fab] s t ∧ OnlyPort s t n ∧
        t.port n = { x with enable := true, signal := false }))

/-- R364, R367, R368, R374, R396: a flit of an uncorrectable codeword is discarded and counted. One that fails its CRC, its SEQ order or, between racks, its tag is not taken, and a retry request names the expected SEQ. An IDLE flit brings its ACK and credits alone. A flit in order is accepted: the expected SEQ and the count C of the key move on, FLITS_RX counts it, and a flit with the new ACK goes back; one for another device goes on with no effect here. A retry request is answered byte for byte from the replay buffer, RETRIES counts it, and the ninth in a row for one SEQ takes the port DOWN. -/
def Obligations.FlitsArrive : Prop :=
  ∀ (s : State) (port : Fin 18) (bytes : List Byte) (errors : List ReadError) (seq : Nat),
    let n := port.val
    let x := s.port n
    let hdr := ofLe (bytes.take 8)
    let crcOk := ofLe ((bytes.drop 252).take 4) = crc32c (bytes.take 252)
    let acked := bitsOf hdr 34 12 ∈ x.replay.map Prod.fst
    let linked : PortStateRec := { x with retryCount := if acked then 0 else x.retryCount }
    let body := (bytes.drop 8).take 224
    let key := linkKey x.rxKeys (x.peerDevice < s.fab.self)
    let nonce := linkNonce key.2 x.rxCount
    let tagOk := (bytes.drop 232).take 16 = gcmTag key.1 nonce (linkAad hdr) body
    let pl := if x.secure then gcmData key.1 nonce body else body
    let core := fun (t : State) (y : PortStateRec) =>
      portCore (t.port n) = portCore y ∧ ∀ q, q ≠ n → portCore (t.port q) = portCore (s.port q)
    let only := fun (t : State) => Frame [.fab, .counters, .freeCtr, .out] s t
    let receives := fun (t : State) => exec (.flitReceive port bytes true errors) s = .next t
    let asks := fun (t : State) => only t ∧ core t x ∧ Output.ctrl n 0 x.rxSeq ∈ t.out
    let accepted := fun (t : State) => only t ∧ t.counter dev (pFab n) 1 = s.counter dev (pFab n) 1 + 1 ∧ (∃ b, Output.flit n b ∈ t.out) ∧
      core t { linked with rxSeq := (x.rxSeq + 1) % 4096, rxCount := if x.secure then x.rxCount + 1 else x.rxCount }
    let count := if x.retrySeq = seq ∧ x.retryCount ≠ 0 then x.retryCount + 1 else 1
    (x.state = .up ∨ x.state = .keying → bytes.length = 256 →
      (∃ t, exec (.flitReceive port bytes false errors) s = .next t ∧ Frame [.counters] s t ∧
        t.counter dev (pFab n) 3 = s.counter dev (pFab n) 3 + 1) ∧
      (¬ crcOk → ∃ t, receives t ∧ asks t) ∧
      (crcOk → bitsOf hdr 0 3 = 0 → ∃ t, receives t ∧ only t ∧ core t linked) ∧
      (crcOk → bitsOf hdr 0 3 ≠ 0 → bitsOf hdr 22 12 ≠ x.rxSeq → ∃ t, receives t ∧ asks t) ∧
      (crcOk → bitsOf hdr 0 3 ≠ 0 → bitsOf hdr 22 12 = x.rxSeq → (x.secure = true → bitOf hdr 46 = x.rxKeyId) →
        (x.secure = true → ¬ tagOk → ∃ t, receives t ∧ asks t) ∧
        ((x.secure = true → tagOk) →
          (bitsOf hdr 0 3 ≠ 1 → ∃ t, receives t ∧ accepted t) ∧
          (bitsOf hdr 0 3 = 1 → bitsOf (ofLe (pl.take 8)) 8 15 ≠ s.fab.self →
            (s.nextHop (some (let d := dirOf n; if 8 ≤ d then 0 else d / 2)) (bitOf hdr 5) pl).isSome = true → ∃ t, receives t ∧ accepted t)))) ∧
    (x.state = .up ∨ x.state = .keying →
      (count ≤ 8 → ∃ t, exec (.retryRequest port seq) s = .next t ∧ Frame [.fab, .counters, .out] s t ∧ OnlyPort s t n ∧
        t.port n = { x with retrySeq := seq, retryCount := count } ∧ t.counter dev (pFab n) 4 = s.counter dev (pFab n) 4 + 1 ∧
        ∀ r ∈ x.replay.dropWhile (fun r => r.1 != seq), Output.flit n r.2 ∈ t.out) ∧
      (8 < count → ∃ t, exec (.retryRequest port seq) s = .next t ∧ (t.port n).state = .down ∧
        (x.state = .up → t.fab.portChanged = true ∧ EventIn t (s.devCopies (pFab n) 0) (pFab n) 0)))

/-- R397, R398, R400, R440: the responder of a key exchange answers with its ciphertext and public key, and each side derives keys from the ML-KEM secret followed by the ECDH secret, salted by the previous session's secret and bound to the hash of the transcript. A first exchange waits for engine C, which signs all waiting transcripts in one signature of each kind; a rekey is signed at once with RSA alone. Once both sides have signed and verified, first keys bring the port UP and secure, and a rekey's initiator switches; the first flit of the new KEYID switches what is left. A stalled rekey raises REKEY_STALL. Engine A signs creation reports, engine B writes reports of ATTEST. -/
def Obligations.LinkKeys : Prop :=
  ∀ (s : State) (port : Fin 18) (ek ct pub : List Byte) (slh : Bool),
    let n := port.val
    let x := s.port n
    let i := s.lks.draws
    let core := fun (t : State) (y : PortStateRec) =>
      portCore (t.port n) = portCore y ∧ ∀ q, q ≠ n → portCore (t.port q) = portCore (s.port q)
    let salt := if x.keySalt.isEmpty then List.replicate 48 0 else x.keySalt
    let derived := fun (e : KeyExchange) (secret : List Byte) =>
      { e with secret := secret, keys := hkdf384 secret salt (sha384 e.transcript.flatten) 88, signed := e.rekey || e.signed }
    let signs := fun (t : State) (e : KeyExchange) (draws : Nat) =>
      (e.rekey = false → t.lks = { s.lks with draws := draws, engineC := s.lks.engineC ++ [n] }) ∧
      (e.rekey = true → t.lks = { s.lks with draws := draws } ∧
        Output.keyExchange n 2 (Config.signature 0 (sha384 e.transcript.flatten)) ∈ t.out)
    let message := fun (m : KeyMessage) (t : State) => exec (.keyExchangeMessage port m) s = .next t
    (interRack n = true → x.state = .up → x.secure = true → x.exchange = none → x.newKeys = [] →
      ∃ t e, exec (.rekey port) s = .next t ∧ e.rekey = true ∧ core t { x with exchange := some e } ∧
        (s.fab.self < x.peerDevice → ∃ m, e.transcript = [m] ∧ Output.keyExchange n 0 m ∈ t.out)) ∧
    (x.state = .up → x.secure = true → x.rekeyStalled = false → (∃ e, x.exchange = some e ∧ e.rekey = true) ∨ x.newKeys ≠ [] →
      ∃ t, exec (.rekeyStall port) s = .next t ∧ OnlyPort s t n ∧ t.port n = { x with rekeyStalled := true } ∧
        t.fab.portChanged = true ∧ EventIn t (s.devCopies (pFab n) 4) (pFab n) 4) ∧
    (interRack n = true → x.peerDevice < s.fab.self → x.state = .keying ∨ x.state = .up →
      ∃ t, message (.initiate ek pub) t ∧
        let mine := (Config.encapsulate i ek).1 ++ Config.publicKey (i + 1)
        let e := derived { transcript := [ek ++ pub, mine], sent := true, ecdh := some (i + 1), rekey := x.state == .up }
          ((Config.encapsulate i ek).2 ++ Config.ecdh (i + 1) pub)
        core t { x with exchange := some e } ∧ Output.keyExchange n 1 mine ∈ t.out ∧ signs t e (i + 2)) ∧
    (∀ e, interRack n = true → x.exchange = some e →
      (∀ a b, e.kem = some a → e.ecdh = some b → e.keys = [] →
        ∃ t, message (.respond ct pub) t ∧
          let e1 := derived { e with transcript := e.transcript ++ [ct ++ pub] } (Config.decapsulate a ct ++ Config.ecdh b pub)
          core t { x with exchange := some e1 } ∧ signs t e1 i) ∧
      exec (.keyExchangeMessage port (.signature slh false)) s = .next s ∧
      (slh = true ∨ e.rekey = true → e.keys ≠ [] →
        (e.signed = false → ∃ t, message (.signature slh true) t ∧ Frame [.fab] s t ∧ core t { x with exchange := some { e with peerVerified := true } }) ∧
        (e.signed = true → e.rekey = false → ∃ t, message (.signature slh true) t ∧
          core t { x with exchange := none, linkKeys := e.keys, keySalt := e.secret, secure := true, keyId := false, rxCount := 0, state := .up } ∧
          t.fab.portChanged = true ∧ EventIn t (s.devCopies (pFab n) 1) (pFab n) 1) ∧
        (e.signed = true → e.rekey = true → x.txNew = false → x.rxNew = false → ∃ t, message (.signature slh true) t ∧
          (s.fab.self < x.peerDevice → t.counter dev (pFab n) 5 = s.counter dev (pFab n) 5 + 1 ∧
            core t { x with exchange := none, newKeys := e.keys, keySalt := e.secret, txNew := true, keyId := !x.keyId, rekeyStalled := false }) ∧
          (x.peerDevice ≤ s.fab.self → core t { x with exchange := none, newKeys := e.keys, keySalt := e.secret })))) ∧
    (interRack n = true → x.newKeys ≠ [] → x.txNew = false ∨ x.rxNew = false →
      ∃ t, message .switched t ∧ t.counter dev (pFab n) 5 = s.counter dev (pFab n) 5 + (if x.txNew then 0 else 1) ∧
        core t { x with linkKeys := x.newKeys, newKeys := [], txNew := false, rxNew := false, keyId := if x.txNew then x.keyId else !x.keyId,
                        rekeyStalled := false, rxCount := if x.rxNew then x.rxCount else 0 }) ∧
    (∀ d r, s.lks.engineA = d :: r → ∃ t, exec (.reportSigned 0) s = .next t ∧ t = { s with lks := t.lks, freeCtr := t.freeCtr, out := t.out } ∧
      t.lks = { s.lks with engineA := r } ∧ Output.report d (s.report 0 d ((List.range 48).map (Config.freeByte s.freeCtr))) ∈ t.out) ∧
    (∀ c d o r a, s.lks.engineB = (c, d, o) :: r → s.window (copyFn c) o 40960 = some a → (s.dom d).alive = true →
      ∃ t, exec (.reportSigned 1) s = .next t ∧ t.lks = { s.lks with engineB := r } ∧ LksFinished t c 0x00 0x0A d ∧
        t.commons = memPut s.commons a (s.report 1 d (memGet s.commons a 48)) ∧ t.counter dev pLks 0 = s.counter dev pLks 0 + 1) ∧
    (∃ t, exec (.reportSigned 2) s = .next t ∧ t.lks = { s.lks with engineC := [] } ∧
      let hashes := s.lks.engineC.flatMap (fun p => match (s.port p).exchange with
        | some e => sha384 e.transcript.flatten
        | none => [])
      ∀ p ∈ s.lks.engineC, (s.port p).exchange.isSome = true →
        Output.keyExchange p 3 (Config.signature 0 hashes ++ Config.signature 1 hashes) ∈ t.out)

/-! ## Transactions and collectives (14) -/

/-- R233, R261, R262, R265, R267, R376, R378, R380, R382, R402: a request acts on the range of the live domain that holds its tag, and its answer goes back to the source. A read returns its blocks; a write, a reduce-add and an atomic change the bytes they name, each other byte and domain unchanged; an atomic returns the old word. What a request that is allowed reads wrong is met first (`met`, `sram`), and one that reads poison is answered POISON. A refused request changes nothing but the count of rejects and its event: NO_PARTITION, DENIED, BAD_OP, RANGE, NOT_RESIDENT or POISON, in this order of tests (log 67 and the order are the model's). A peer's STRIPE_REQ gets a verified stripe in order, three pieces a flit, or NOT_HELD with the state of the copy it names, 0 for none, 1 for one being built, 2 else. -/
def Obligations.RemoteAccess : Prop :=
  ∀ (s : State) (t : Txn) (d : Nat) (errors : List ReadError),
    let n := 64 * t.nblk
    let k := roundUp (t.nblk * slotStore t.stype t.sfmt) 64
    let c := s.dom d
    let met := (s.meetErrors d errors).1
    let sram := (s.meetErrors d errors).2
    let holds := s.tagHolder t.ptag.toNat = some d
    let answer := fun (st : Nat) (slots : List (List Byte)) =>
      ({ ptag := t.ptag, nblk := slots.length, dst := t.src, src := s.fab.self, status := st, addr := t.addr, sfmt := 0, stype := 0, aop := 0, txid := t.txid, masks := [], slots := slots } : Txn)
    let stores := fun (u : State) (bs : List Byte) => OnlyDom met u d ∧ Frame [.counters, .domTir, .domMem, .domPoison] met u ∧
      (poisonHit (met.dom d).poison 64 t.addr bs.length = false → ∀ x, memRead (u.dom d).mem x =
        if t.addr ≤ x ∧ x < t.addr + bs.length then bs.getD (x - t.addr) 0 else memRead (met.dom d).mem x)
    let mayRead := c.col.rdEn = true ∧ t.addr % 64 = 0 ∧ s.inRange d t.addr n = true ∧ s.resident d t.addr n = true
    let mayWrite := fun (len align : Nat) => c.col.wrEn = true ∧ t.addr % align = 0 ∧ s.inRange d t.addr len = true ∧
      s.sharedSpan d t.addr len = false ∧ s.resident d t.addr len = true
    let reads := fun (len : Nat) => (met.rdMem d t.addr len).2 = false ∧ sram = false
    let word := ofLe (met.rdMem d t.addr 8).1
    let operand := ofLe ((t.slots.headD []).take 8)
    let compare := ofLe (((t.slots.headD []).drop 8).take 8)
    let result := if t.aop = 0 then (word + operand) % 2 ^ 64 else if t.aop = 1 then word &&& operand else if t.aop = 2 then word ||| operand
      else if t.aop = 3 then word ^^^ operand else if t.aop = 4 then max word operand else if t.aop = 5 then min word operand
      else if t.aop = 6 then operand else if word = compare then operand else word
    let opOk := 2 ≤ t.stype ∨ fmtDefined t.sfmt = true
    let fails := fun (base : State) (cmd : Instr) (op st e : Nat) => ∃ u, exec cmd s = .next (u.sendAnswer op (answer st [])) ∧
      Frame (withEvents [.domMem]) base u ∧ u.counter e pCol 4 = base.counter e pCol 4 + 1 ∧ (base.live e = true → EventIn u (domCopies pCol 1 e) pCol 1)
    let refused := fun (cmd : Instr) (op st : Nat) => fails s cmd op st d
    let poisoned := fun (cmd : Instr) (op : Nat) => fails met cmd op 5 ((met.tagHolder t.ptag.toNat).getD 0)
    (Frame (withEvents [.bas, .mbds, .units, .commonsPoison, .domPoison]) s met) ∧
    (holds →
      (mayRead → reads n →
        exec (.rdReq t errors) s = .next ((met.bump d pCol 1 n).sendAnswer 2
          (answer 0 ((List.range t.nblk).map (fun i => ((met.rdMem d t.addr n).1.drop (64 * i)).take 64))))) ∧
      (mayWrite n 64 → ∃ u, exec (.wr t errors) s = .next (u.sendAnswer 4 (answer 0 [])) ∧ stores u (t.slots.flatten.take n) ∧
        u.counter d pCol 2 = met.counter d pCol 2 + w64 n) ∧
      (mayWrite k 64 → raddFormats t.stype t.sfmt = true → opOk → reads k →
        ∃ u, exec (.radd t errors) s = .next (u.sendAnswer 6 (answer 0 [])) ∧
          stores u (raddBytes t.stype t.sfmt t.masks t.slots (met.rdMem d t.addr k).1)) ∧
      (mayWrite 8 8 → t.aop ≤ 7 → reads 8 →
        ∃ u, exec (.atom t errors) s = .next (u.sendAnswer 8 (answer 0 [(met.rdMem d t.addr 8).1 ++ List.replicate 56 0])) ∧ stores u (leBytes 8 result)) ∧
      (mayRead → ¬ reads n → poisoned (.rdReq t errors) 2) ∧
      (mayWrite k 64 → raddFormats t.stype t.sfmt = true → opOk → ¬ reads k → poisoned (.radd t errors) 6) ∧
      (mayWrite 8 8 → t.aop ≤ 7 → ¬ reads 8 → poisoned (.atom t errors) 8)) ∧
    (s.tagHolder t.ptag.toNat = none →
      fails s (.rdReq t errors) 2 1 0 ∧ fails s (.wr t errors) 4 1 0 ∧ fails s (.radd t errors) 6 1 0 ∧ fails s (.atom t errors) 8 1 0) ∧
    (holds → c.col.rdEn = false → refused (.rdReq t errors) 2 2) ∧
    (holds → c.col.wrEn = false → refused (.wr t errors) 4 2 ∧ refused (.radd t errors) 6 2 ∧ refused (.atom t errors) 8 2) ∧
    (holds → c.col.wrEn = true → (7 < t.aop → refused (.atom t errors) 8 8) ∧ (¬ opOk → refused (.radd t errors) 6 8)) ∧
    (holds → c.col.rdEn = true →
      (t.addr % 64 ≠ 0 ∨ s.inRange d t.addr n = false → refused (.rdReq t errors) 2 3) ∧
      (t.addr % 64 = 0 → s.inRange d t.addr n = true → s.resident d t.addr n = false → refused (.rdReq t errors) 2 4)) ∧
    (∀ cmd op len align, holds → c.col.wrEn = true →
      (cmd = .wr t errors ∧ op = 4 ∧ len = n ∧ align = 64) ∨ (cmd = .radd t errors ∧ op = 6 ∧ len = k ∧ align = 64 ∧ opOk) ∨
        (cmd = .atom t errors ∧ op = 8 ∧ len = 8 ∧ align = 8 ∧ t.aop ≤ 7) →
      (t.addr % align ≠ 0 ∨ s.inRange d t.addr len = false ∨ s.sharedSpan d t.addr len = true → refused cmd op 3) ∧
      (op = 6 → raddFormats t.stype t.sfmt = false → refused cmd op 3) ∧
      (t.addr % align = 0 → s.inRange d t.addr len = true → s.sharedSpan d t.addr len = false → s.resident d t.addr len = false →
        op ≠ 6 ∨ raddFormats t.stype t.sfmt = true → refused cmd op 4)) ∧
    (t.ptag.toNat ≠ (s.dom 0).col.ptag ∨ t.ptag = 0xFFFF → ∃ u, exec (.stripeReq t errors) s = .next (u.sendAnswer 0xB (answer 1 [])) ∧
      Frame (withEvents [.domMem]) s u) ∧
    (t.ptag.toNat = (s.dom 0).col.ptag → t.ptag ≠ 0xFFFF →
      let m := fun i => (t.masks.getD i 0).toNat
      let q := t.addr / 65536
      let named := fun (y : CopySlot) => y.state ≠ .empty ∧ y.state ≠ .retiring ∧ y.gen = m 2 + 65536 * m 3 ∧ y.modelId = m 4 + 65536 * m 5 ∧
        y.shardIndex = m 0 + 65536 * m 1
      let met0 := (s.meetErrors 0 errors).1
      let notHeld := fun (base : State) (code : Nat) => ∃ u, exec (.stripeReq t errors) s = .next (u.sendAnswer 0xB { answer 7 [] with addr := code }) ∧
        Frame (withEvents [.domMem]) base u
      (¬ named (s.copy 0) → ¬ named (s.copy 1) → notHeld s 0) ∧
      (∀ i, named (s.copy i) → i = 0 ∨ i = 1 ∧ ¬ named (s.copy 0) →
        let y := met0.copy i
        let serves := (y.stripe q).servable = true ∧ (y.stripe q).state = .resident ∧ (y.stripe q).staged = false ∧
          poisonHit y.poison 64 (65536 * q) 65536 = false
        (¬ serves → notHeld met0 (if y.state = .building then 1 else 2)) ∧
        (serves → exec (.stripeReq t errors) s = .next (((List.range 342).map (fun j =>
          let part := ((memGet y.image (65536 * q) 65536).drop (192 * j)).take 192
          { answer 0 ((List.range (part.length / 64)).map (fun l => (part.drop (64 * l)).take 64)) with addr := 65536 * q + 192 * j })).foldl
            (fun u a => u.sendAnswer 0xB a) (met0.bump 0 pCol 1 65536)))))

/-- R377, R380, R386, R388, R401, R402: an answer is matched by its TXID to the operation that waits for it: its data come to their place in the engine's buffer, and the operation is finished once nothing waits. A status but OK makes its slab FABRIC_ERROR, and the first such status stands in COL_LAST_ERR. Collective data without an open collective is refused and counted; what comes before its slab starts, or for a later step, waits; an earlier step or a wrong size makes the slab FABRIC_ERROR. A collective that has waited more than TICKS ticks beyond its planned end is PEER_LOST. -/
def Obligations.AnswersAndCollectives : Prop :=
  ∀ (s : State) (t : Txn) (d : Fin 64) (o : CollOp) (step : Nat) (ring : Bool),
    let n := d.val
    let c := (s.dom n).col
    let holds := s.tagHolder t.ptag.toNat = some n
    let put := fun (y : CollOp) => c.ops.map (fun z => if z.id = o.id then y else z)
    let marked := c.ops.map (fun z => if z.id = o.id then { z with failed := true } else z)
    let failed := fun (u : State) (st : Status) => (u.dom n).slabs = slabsWith (s.dom n).slabs o.order (fun b => { b with status := b.status.worse st })
    let fabricError := fun (u : State) => Frame [.domSlabs, .domCol] s u ∧ failed u .fabricError ∧ (u.dom n).col = { c with ops := marked }
    let data := fun (u : State) => exec (.collData t step ring) s = .next u
    let rejected := fun (u : State) (e : Nat) => Frame (withEvents [.domMem]) s u ∧ u.counter e pCol 4 = s.counter e pCol 4 + 1
    (∀ at_ cmd, holds → cmd = .rdResp t ∨ cmd = .wrAck t ∨ cmd = .raddAck t ∨ cmd = .atomResp t →
      c.ops.find? (fun p => p.waiting.any (fun w => w.1 == t.txid)) = some o → o.waiting.find? (fun w => w.1 == t.txid) = some (t.txid, at_) →
      let left := o.waiting.filter (fun w => w.1 != t.txid)
      let taken := { o with waiting := left, finished := left.isEmpty }
      (t.status = 0 → ∃ u, exec cmd s = .next u ∧ OnlyDom s u n ∧ Frame [.counters, .domCol] s u ∧
        u.counter n pCol 2 = s.counter n pCol 2 + w64 (64 * t.slots.length) ∧
        (t.slots = [] → (u.dom n).col = { c with ops := put taken }) ∧
        (t.slots ≠ [] → (u.dom n).col = { c with ops := put { taken with buffer := memPut o.buffer at_ t.slots.flatten } })) ∧
      (t.status ≠ 0 → ∃ u, exec cmd s = .next u ∧ OnlyDom s u n ∧ Frame [.counters, .domCol, .domSlabs] s u ∧ failed u .fabricError ∧
        (u.dom n).col.ops = put { taken with failed := true } ∧
        (c.errValid = true → (u.dom n).col.errStatus = c.errStatus ∧ (u.dom n).col.errDevice = c.errDevice ∧ (u.dom n).col.errValid = true) ∧
        (c.errValid = false → (u.dom n).col.errStatus = t.status ∧ (u.dom n).col.errDevice = t.src ∧ (u.dom n).col.errValid = true))) ∧
    (s.tagHolder t.ptag.toNat = none → ∃ u, data u ∧ rejected u 0) ∧
    (holds → (s.dom n).collSlab t.txid = none → ∃ u, data u ∧ rejected u n) ∧
    (∀ sl, holds → (s.dom n).collSlab t.txid = some sl →
      (c.ops.find? (fun p => p.id == t.txid) = none → ∃ u, data u ∧ OnlyDom s u n ∧ Frame [.domCol] s u ∧
        (u.dom n).col = { c with early := c.early ++ [{ txn := t, step := step, ring := ring, origin := 0 }] }) ∧
      (c.ops.find? (fun p => p.id == t.txid) = some o → o.failed = false →
        let cur := if ring then o.step1 else o.step0
        let fits := (collBody sl.words).fits (hdrOf sl.words).sub (bit01 ring) step t.addr t.slots.length
        (step < cur ∨ fits = false → ∃ u, data u ∧ OnlyDom s u n ∧ fabricError u) ∧
        (cur < step → fits = true → ∃ u, data u ∧ OnlyDom s u n ∧ Frame [.domCol] s u ∧
          (u.dom n).col = { c with early := c.early ++ [{ txn := t, step := step, ring := ring, origin := 0 }] }) ∧
        (step = cur → fits = true → ∃ u, data u ∧ Frame [.fab, .counters, .out, .domSlabs, .domCol] s u))) ∧
    (∀ id, c.ops.find? (fun p => p.id == id) = some o → o.sinceTick ≠ 0 → o.finished = false → o.failed = false →
      o.sinceTick + c.timeout < s.tik.tick + 1 →
      ∃ u, exec (.colTimeout d id) s = .next u ∧ failed u .peerLost ∧ (u.dom n).col = { c with ops := marked } ∧
        Frame (withEvents [.domSlabs, .domCol, .domMem]) s u ∧ (s.live n = true → EventIn u (domCopies pCol 0 n) pCol 0))

/-- R224, R228, R233, R234, R235, R238, R242, R244, R247, R297, R404: while a stripe is fetched, a delivery that its digest verifies is written at its place and counted by its source, and the copy becomes READY, with BUILD_DONE, when every stripe that fits is verified or LOST; a flash-held stripe that is filled is held in flash no more, and one that is staged still is. A flash read that ends after its planned end stalls Carter's slab of domain 0. A delivery that fails the digest is counted; a failed source passes the stripe to the next one, which is asked at once, or makes it LOST, with BASE_LOST; a tree parent is asked again, in a later tick, but a stripe that a READY or ACTIVE parent lacks is LOST, and so is each one that still lacks when the parent's copy has failed and no other source is named (log 145). Pieces from a peer are gathered until the stripe is whole. A host read's data count as its source's delivery, those of a BAD stripe being served as its refetch; a timeout and an error status are recorded and counted, and that source fails. -/
def Obligations.StripesOfACopy : Prop :=
  ∀ (s : State) (k : Fin 2) (q : Nat) (bytes : List Byte) (nowNs : Nat),
    let c := s.copy k.val
    let x := c.stripe q
    let now := s.atTime nowNs
    let served := (c.state = .active ∨ c.state = .retiring) ∧ x.state = .bad
    let wanted := s.fetching k.val q = true ∧ ¬ served
    let late := fun (src : StripeSource) => if src = .flash ∧ s.flashAsked k.val q = true ∧ s.inRun = true then nowNs - s.bas.due else 0
    let settled := fun (p : Nat × Stripe) => p.2.flashHeld || p.2.state == .resident || p.2.state == .lost
    let others := fun (u : State) => (∀ j, j < 2 → j ≠ k.val → u.copy j = s.copy j) ∧ ∀ j, j ≠ q → (u.copy k.val).stripe j = c.stripe j
    let lost := fun (u : State) => others u ∧ (u.copy k.val).stripe q = { x with state := .lost, pieces := [], asked := false } ∧
      EventIn u (s.devCopies pBas 4) pBas 4
    let done := fun (b u : State) (src : StripeSource) =>
      let y := u.copy k.val
      others u ∧ Frame (withEvents [.bas, .freeCtr]) b u ∧ y.image = memPut c.image (65536 * q) bytes ∧ (y.stripe q).state = .resident ∧
      (y.stripe q).staged = (x.flashHeld && !s.fills k.val q) ∧ (y.stripe q).flashHeld = (y.stripe q).staged ∧
      u.counter dev pBas (sourceCounter src) = s.counter dev pBas (sourceCounter src) + 1 ∧
      (x.state = .bad → u.counter dev pBas 4 = s.counter dev pBas 4 + 1) ∧
      u.bas.buildDone = s.bas.buildDone + (if c.state = .building ∧ x.state ≠ .bad then 1 else 0) ∧
      (c.state ≠ .building → y.state = c.state) ∧
      (c.state = .building → (y.stripeMap.filter settled).length ≠ c.stripes → y.state = .building) ∧
      (c.state = .building → (y.stripeMap.filter settled).length = c.stripes → y.state = .ready ∧ EventIn u (s.devCopies pBas 1) pBas 1)
    let fails := fun (b u : State) =>
      let z := (u.copy k.val).stripe q
      let next := c.sources[x.source + 1]?
      let passed := { x with source := x.source + 1, pieces := [], asked := true, retried := false }
      (c.underParent = true → others u ∧ z = { x with pieces := [], asked := false } ∧ Frame (withEvents [.pci, .bas]) b u) ∧
      (c.underParent = false →
        (next = none → lost u) ∧
        (∀ a, next = some (.flash, a) → others u ∧ z = passed ∧ u.out.head? = some (.baseRead k.val q)) ∧
        (∀ a, next = some (.host, a) → others u ∧ z = passed ∧ u.out.head? = some (.hostRead (s.bas.hostBase + w64 (c.hostOff + 65536 * q)))) ∧
        (∀ a, next = some (.peer, a) → ∃ w t, (s.badStripes = [] → u = w.sendRequest 0xA t) ∧ (s.badStripes ≠ [] → u = (w.sendRequest 0xA t).refetchEnds) ∧
          t.dst = a % 2 ^ 15 ∧ t.txid = w32 (2 ^ 31 * k + q) ∧ others w ∧ (w.copy k.val).stripe q = passed))
    (∀ src, ∃ b, Frame [.tik, .fuses, .counters, .stretch, .domSlabs, .domTir] s b ∧ b.tik = now.tik ∧
      b.counter 0 pTir 3 = s.counter 0 pTir 3 + w64 (late src) ∧
      (wanted → s.digestOk k.val q bytes = true → ∃ u, exec (.stripeFetchDone k q src ⟨bytes, nowNs⟩) s = .next u ∧ done b u src) ∧
      (wanted → s.digestOk k.val q bytes = false → ∃ u, exec (.stripeFetchDone k q src ⟨bytes, nowNs⟩) s = .next u ∧ fails (b.bump dev pBas 5 1) u ∧
        (c.underParent = true ∨ (∀ a, c.sources[x.source + 1]? ≠ some (.peer, a)) → u.counter dev pBas 5 = s.counter dev pBas 5 + 1))) ∧
    (s.wanted k.val q = false → (∀ src, exec (.stripeFetchDone k q src ⟨bytes, nowNs⟩) s = .next now) ∧
      exec (.hostReadCompletion k q ⟨.data bytes, nowNs⟩) s = .next now) ∧
    (wanted → exec (.hostReadCompletion k q ⟨.data bytes, nowNs⟩) s = exec (.stripeFetchDone k q .host ⟨bytes, nowNs⟩) s) ∧
    (served → s.badStripes.contains (k.val, q) = true → s.tik.settled = true →
      exec (.hostReadCompletion k q ⟨.data bytes, nowNs⟩) s = exec (.baseRefetchDone k q .host bytes nowNs) s) ∧
    (∃ u, exec (.hostReadCompletion k q ⟨.timeout, nowNs⟩) s = .next u ∧ (wanted → fails now u) ∧ (s.wanted k.val q = false →
      Frame (withEvents [.pci]) now u ∧ u.pci.errKind = 2 ∧ u.pci.errValid = true ∧ u.counter dev pPci 1 = s.counter dev pPci 1 + 1 ∧
      EventIn u (s.devCopies pPci 2) pPci 2)) ∧
    (∃ u, exec (.hostReadCompletion k q ⟨.errorStatus, nowNs⟩) s = .next u ∧ (wanted → fails now u) ∧ (s.wanted k.val q = false →
      Frame [.pci, .counters] now u ∧ u.pci.errKind = 3 ∧ u.pci.errValid = true ∧ u.counter dev pPci 2 = s.counter dev pPci 2 + 1)) ∧
    (∀ t, wanted → t.txid.toNat / 2 ^ 31 = k.val → t.txid.toNat % 2 ^ 31 = q → c.sources[x.source]? = some (.peer, t.src) →
      let got := x.pieces ++ t.slots.flatten
      (t.status = 0 → ∃ w, others w ∧ Frame [.bas, .counters] now w ∧ (w.copy k.val).stripe q = { x with pieces := got } ∧
        w.counter 0 pCol 2 = s.counter 0 pCol 2 + w64 (64 * t.slots.length) ∧
        (got.length < 65536 → exec (.stripeResp ⟨t, nowNs⟩) s = .next w) ∧
        (65536 ≤ got.length → exec (.stripeResp ⟨t, nowNs⟩) s = exec (.stripeFetchDone k q .peer ⟨got.take 65536, nowNs⟩) w)) ∧
      (t.status ≠ 0 → t.status ≠ 7 ∨ (t.addr % 4 ≠ 0 ∧ t.addr % 4 ≠ 2) ∨ c.underParent = false →
        ∃ u, exec (.stripeResp ⟨t, nowNs⟩) s = .next u ∧ fails now u) ∧
      (t.status = 7 → t.addr % 4 = 2 → c.underParent = true → ∃ u, exec (.stripeResp ⟨t, nowNs⟩) s = .next u ∧ lost u) ∧
      (t.status = 7 → t.addr % 4 = 0 → c.underParent = true → ∃ u, exec (.stripeResp ⟨t, nowNs⟩) s = .next u ∧ (u.copy k.val).parentFailed = true ∧
        (∀ j, j < 2 → j ≠ k.val → u.copy j = s.copy j) ∧
        (({ c with parentFailed := true } : CopySlot).sources ≠ [] → Frame [.bas] now u ∧ (u.copy k.val).stripe q = { x with source := 0, pieces := [], asked := false }) ∧
        (({ c with parentFailed := true } : CopySlot).sources = [] → ((u.copy k.val).stripe q).state = .lost ∧ EventIn u (s.devCopies pBas 4) pBas 4)))

/-! ## Register writes (02, 04, 06, 09, 11, 14, 18) -/

/-- R153, R269, R304, R319, R321, R375, R521: what the PF writes for a domain takes effect at the next plan latch: its weight, its slots, its memory rates, its flash rates, its partition tag with the remote accesses it grants, and its retention banks. A weight outside 1 to what W_CAP leaves, slots beyond 4,096 in all, a flash rate beyond 112 in all, a memory rate beyond the totals, and a tag that another domain holds change nothing and set CFG_REJECT, a memory rate's of a domain that is FREE or SCRUBBING in the writer's own copy (log 150; the sums count what other accepted writes will leave, and a tenant's RATE stays above 0: log choices); retention banks that the domain does not hold, a staging bank among them, or an open batch make that write ignored. A view that is not the PF's changes nothing. -/
def Obligations.DomainSettingsWaitForLatch : Prop :=
  ∀ (s : State) (v : View) (w : W32),
    let f := fun (lo n : Nat) => bitsOf w.toNat lo n
    let pf := fun (p : Nat) => s.shows v p = true ∧ isPf v = true
    let waits := fun (cmd : Instr) (a : LatchAct) => exec cmd s = .next { s with atLatch := s.atLatch ++ [a] }
    let ignored := fun (cmd : Instr) => exec cmd s = .next s
    let rejected := fun (cmd : Instr) (p b d : Nat) => ∃ u, exec cmd s = .next u ∧ Frame (withEvents []) s u ∧
      (s.live d = true → EventIn u (domCopies p b d) p b)
    let sumOthers := fun (d : Nat) (g : Nat → Nat) => (s.doms.map (fun p => if p.1 = d then 0 else g p.1)).sum
    let t := s.viewDom v pTik
    let m := s.viewDom v 0x10
    let r := s.viewDom v pTir
    let c := s.viewDom v pCol
    let p := s.viewDom v pUpd
    let rates := s.ratesOk ((s.otherShares m).2.1 + f 0 9) ((s.otherShares m).2.2 + f 16 7)
    let tenantStops := m ≠ 0 ∧ ((s.dom m).phase = .scrubbing ∨ ((s.dom m).phase ≠ .free ∧ f 0 9 = 0))
    let flash := sumOthers r (fun e => (s.dueFlashRate e).1) + f 0 7 ≤ 112 ∧ sumOthers r (fun e => (s.dueFlashRate e).2) + f 7 7 ≤ 112
    let held := f 0 16 ≠ 0xFFFF ∧ ∃ q ∈ s.doms, q.1 ≠ c ∧ (q.2.col.ptag = f 0 16 ∨ (s.duePtag q.1).1 = f 0 16)
    let batch := !(s.dom p).batches.isEmpty
    let bank := f 7 7 = 0 ∨ ((s.dom p).rec_.bankFirst + (s.dom p).rec_.nsb ≤ f 0 7 ∧ f 0 7 + f 7 7 ≤ (s.dom p).rec_.bankFirst + (s.dom p).rec_.banks)
    (pf pTik →
      (f 0 10 ≠ 0 ∧ (s.otherShares t).1 + f 0 10 ≤ s.tik.wCap → waits (.shareWrite v w) (.weight t (f 0 10))) ∧
      (f 0 10 = 0 ∨ s.tik.wCap < (s.otherShares t).1 + f 0 10 → rejected (.shareWrite v w) pTik 0 t) ∧
      (sumOthers t s.dueSlots + f 0 13 ≤ 4096 → waits (.planSlotsWrite v w) (.slots t (f 0 13))) ∧
      (4096 < sumOthers t s.dueSlots + f 0 13 → rejected (.planSlotsWrite v w) pTik 0 t)) ∧
    (pf 0x10 →
      (¬ tenantStops → rates = true → waits (.regRateWrite v w) (.rates m (f 0 9) (f 16 7))) ∧
      (tenantStops ∨ rates = false → rejected (.regRateWrite v w) 0x10 0 m ∧ (s.live m = false →
        ∃ u, exec (.regRateWrite v w) s = .next u ∧ EventIn u [s.viewCopy v 0x10] 0x10 0))) ∧
    (pf pTir →
      (flash → waits (.flashRateWrite v w) (.flashRate r (f 0 7) (f 7 7))) ∧
      (¬ flash → rejected (.flashRateWrite v w) pTir 4 r)) ∧
    (pf pCol →
      (¬ held → waits (.ptagWrite v w) (.ptag c (f 0 16) (bitOf w.toNat 16) (bitOf w.toNat 17))) ∧
      (held → rejected (.ptagWrite v w) pCol 2 c)) ∧
    (pf pUpd →
      (batch = false → bank → waits (.retainWrite v w) (.retain p (f 0 7) (f 7 7))) ∧
      (batch = true ∨ ¬ bank → ignored (.retainWrite v w))) ∧
    (¬ pf pTik → ignored (.shareWrite v w) ∧ ignored (.planSlotsWrite v w)) ∧ (¬ pf 0x10 → ignored (.regRateWrite v w)) ∧
    (¬ pf pTir → ignored (.flashRateWrite v w)) ∧ (¬ pf pCol → ignored (.ptagWrite v w)) ∧ (¬ pf pUpd → ignored (.retainWrite v w))

/-- R45, R56, R113, R114, R275, R310, R311, R401, R485, R486, R487: writes of the device's registers and of VEC and UPD. A recipe row outside what R44 allows and a maintenance window that does not fit, or is above 200 µs (log 81), change nothing and set their event; accepted ones wait for the plan latch. TIK_LEN and TIK_PHASE are checked, and the master keeps them for a latch in a multiple of 16 at least 16 ticks away; a slot's tag waits for a multiple of 64. HIST_SEL copies a slot and HIST_COMMIT replaces it, unless an admitted slab that has not completed names it; ZS_VALUE sets a streak and re-arms GRAD_SILENT; LOSS_SCALE sets LS_EXP: both outside an open step. APPLY keeps the test key in DEVEL and RETURN for a domain ACTIVE or PREEMPTED; the trace's size is kept while it runs, and HEAD restarts as it is enabled. -/
def Obligations.DeviceAndStatisticsWrites : Prop :=
  ∀ (s : State) (v : View) (w : W32),
    let f := fun (lo n : Nat) => bitsOf w.toNat lo n
    let r0 := fun (p : Nat) => s.shows v p = true ∧ isRegion0 v = true
    let own := s.shows v pVec = true ∧ isTenantRegion v = false
    let waits := fun (cmd : Instr) (a : LatchAct) => exec cmd s = .next { s with atLatch := s.atLatch ++ [a] }
    let ignored := fun (cmd : Instr) => exec cmd s = .next s
    let rejected := fun (cmd : Instr) (p b : Nat) => ∃ u, exec cmd s = .next u ∧ Frame (withEvents []) s u ∧ EventIn u (s.devCopies p b) p b
    let n := s.viewDom v pVec
    let g := s.viewDom v pUpd
    let e := (s.dom n).vec
    let vec := fun (cmd : Instr) (y : VecDom) => exec cmd s = .next (s.updDom n (fun x => { x with vec := y }))
    let named := (s.dom n).slabs.any (fun b => b.admitted && (s.histSlots n b.words).contains e.histSel)
    (∀ k : Fin 7, let ok := recipeAllows k.val (f 0 4) = true ∧ (bitOf w.toNat 8 = true → recipeEscapes k.val (f 0 4) = true);
      (r0 pVec → s.locked.contains pVec = false →
        (ok → waits (.recipeWrite v k w) (.recipe k.val { fmt := f 0 4, escEn := bitOf w.toNat 8, escShift := f 9 2 })) ∧
        (¬ ok → rejected (.recipeWrite v k w) pVec 0)) ∧
      (¬ r0 pVec ∨ s.locked.contains pVec = true → ignored (.recipeWrite v k w))) ∧
    (let fits := fun (len settle : Nat) => 200 * f 0 8 ≤ len ∧ 1000 * (f 0 8 + settle) + 14000 ≤ 10 * len;
      let due := fun (q : Option (Nat × Nat × Nat × Nat × Nat)) => ∀ k l se gd cut, q = some (k, l, se, gd, cut) → fits l se;
      let ok := f 8 16 ≠ 0 ∧ f 0 8 ≤ 200 ∧ fits s.tik.len s.tik.settleUs ∧ due s.tik.next ∧ due s.tik.later;
      (r0 0x10 → (ok → waits (.maintWrite v w) (.maint (f 0 8) (f 8 16))) ∧ (¬ ok → rejected (.maintWrite v w) 0x10 0)) ∧
      (¬ r0 0x10 → ignored (.maintWrite v w))) ∧
    (∀ phase, let old := s.tik.dueTick;
      let len := if phase then old.1 else f 0 21;
      let se := if phase then f 0 8 else old.2.1;
      let gd := if phase then f 8 6 else old.2.2.1;
      let cut := if phase then f 14 16 else old.2.2.2;
      let ok := fun (window : Nat) => 5000 ≤ len ∧ len ≤ 2000000 ∧ 4 ≤ se ∧ 1 ≤ gd ∧ gd + 3 ≤ se ∧ 40 ≤ cut ∧ 100 * cut ≤ len ∧ 1000 * (window + se) + 14000 ≤ 10 * len;
      let both := ok s.memg.maintLen ∧ ok s.dueMaint.1;
      let at_ := (s.tik.tick + 31) / 16 * 16;
      (s.shows v pTik = true → isPf v = true →
        (¬ both → rejected (.tickConfigWrite v phase w) pTik 0) ∧
        (both → s.tik.isMaster = false → ignored (.tickConfigWrite v phase w)) ∧
        (both → s.tik.isMaster = true → s.tik.next = none →
          exec (.tickConfigWrite v phase w) s = .next (s.updTik (fun t => { t with next := some (at_, len, se, gd, cut) }))) ∧
        (∀ k q, both → s.tik.isMaster = true → s.tik.next = some (k, q) → exec (.tickConfigWrite v phase w) s = .next (s.updTik (fun t =>
          if at_ ≤ k then { t with next := some (k, len, se, gd, cut) } else { t with later := some (at_, len, se, gd, cut) })))) ∧
      (s.shows v pTik = false ∨ isPf v = false → ignored (.tickConfigWrite v phase w))) ∧
    ((r0 pCol → exec (.slotTagWrite v w) s = .next (s.updFab (fun y => { y with slotNext := y.slotNext ++ [(64 * bit01 y.slotClass + y.slotSel, f 0 16, (s.tik.tick + 127) / 64 * 64)] }))) ∧
      (¬ r0 pCol → ignored (.slotTagWrite v w))) ∧
    (∀ d : Fin 64, let ok := s.shows v pDbg = true ∧ s.testState = true ∧ (s.dom d).alive = true;
      (ok → exec (.apply v d) s = .next (s.updDom d (fun x => { x with keys := { x.keys with applyPending := some s.dbg.testKey } }))) ∧
      (¬ ok → ignored (.apply v d))) ∧
    ((s.shows v pDbg = true → exec (.traceCfgWrite v w) s = .next { s with dbg := { s.dbg with
        traceLog2 := if s.dbg.traceEn then s.dbg.traceLog2 else f 0 5, traceEn := bitOf w.toNat 5,
        traceHead := if bitOf w.toNat 5 = true ∧ s.dbg.traceEn = false then 0 else s.dbg.traceHead } }) ∧
      (s.shows v pDbg = false → ignored (.traceCfgWrite v w))) ∧
    (∀ slot : BitVec 7, (own → let h := (mapGet e.hist slot.toNat).getD []
        vec (.histSelWrite v slot) { e with histSel := slot.toNat, histCount := h.length, histData := (h ++ List.replicate 16 0).take 16 }) ∧
      (¬ own → ignored (.histSelWrite v slot))) ∧
    (∀ count : BitVec 5,
      (own → count.toNat ≤ 16 → named = false → vec (.histCommit v count) { e with
        hist := if count.toNat = 0 then mapDel e.hist e.histSel else mapSet e.hist e.histSel (e.histData.take count.toNat) }) ∧
      (own → count.toNat ≤ 16 → named = true → ∃ u, exec (.histCommit v count) s = .next u ∧ Frame (withEvents []) s u ∧
        (s.live n = true → EventIn u (domCopies pVec 1 n) pVec 1)) ∧
      (¬ own ∨ 16 < count.toNat → ignored (.histCommit v count))) ∧
    ((own → (s.dom n).upd.open_ = false → vec (.zsValueWrite v w) { e with
        zs := if w.toNat = 0 then mapDel e.zs e.zsSel else mapSet e.zs e.zsSel w.toNat,
        zsRaised := if w.toNat < e.limit then numDel e.zsRaised e.zsSel else e.zsRaised }) ∧
      (¬ own ∨ (s.dom n).upd.open_ = true → ignored (.zsValueWrite v w))) ∧
    (let ok := s.shows v pUpd = true ∧ isTenantRegion v = false ∧ (s.dom g).upd.open_ = false ∧ f 0 6 ≤ 40;
      (ok → exec (.lossScaleWrite v w) s = .next (s.updDom g (fun x => { x with upd := { x.upd with
        lsExp := f 0 6, clean := if f 0 6 = x.upd.lsExp then x.upd.clean else 0 } }))) ∧
      (¬ ok → ignored (.lossScaleWrite v w)))

/-- R10, R113, R114, R408, R468, R469, R473, R476, R484: the header of a page and accesses to registers. A write to BLK_EVENT clears the shown bits of the writing view's copy alone; a write to BLK_EVENT_EN replaces its enables, and a newly enabled bit that is set sends the view's vector. CNT_MODE 1 freezes the page's counters for the view. A low word that is read latches the high word for the function, and the next read of the high word takes that latch; without one it is live; no function's latch is another's. A 32-bit write reaches the register at its offset, as the command of that register does; a misaligned one, one of another size, and one that no function answers do nothing. -/
def Obligations.HeaderAndRegisterAccess : Prop :=
  ∀ (s : State) (v : View) (page : Byte) (w : W32),
    let p := page.toNat
    let shown := s.shows v p = true
    let c := s.viewCopy v p
    let x := s.view c p
    let y := s.view (modeCopy v) p
    let seen := w32 (viewEvents v p)
    let en := { x with enable := w }
    let sends := x.event &&& w &&& ~~~x.enable ≠ 0
    let only := fun (u : State) (k : Nat) => ∀ j g, 256 * j + g ≠ 256 * k + p → u.view j g = s.view j g
    let write := fun (o : Nat) => exec (.registerWrite v .bar0 (4096 * p + o) 4 (w.setWidth 64)) s
    (shown →
      (∃ u, exec (.blkEventClear v page w) s = .next u ∧ Frame [.views] s u ∧ only u c ∧ u.view c p = { x with event := x.event &&& ~~~(w &&& seen) }) ∧
      (¬ sends → exec (.blkEventEnWrite v page w) s = .next (s.putView c p en)) ∧
      (∀ b, sends → blockOf p = some b → exec (.blkEventEnWrite v page w) s = .next ((s.putView c p en).msix (copyFn c) (2 + b))) ∧
      (∀ mode : BitVec 2, ∃ u, exec (.cntModeWrite v page mode) s = .next u ∧ Frame [.views] s u ∧ only u (modeCopy v) ∧
        u.view (modeCopy v) p = { y with cntMode := mode, frozen := if mode = 1 then (List.range 8).map (fun i => s.liveCounter v p i) else [] })) ∧
    (¬ shown → exec (.blkEventClear v page w) s = .next s ∧ exec (.blkEventEnWrite v page w) s = .next s ∧
      ∀ mode : BitVec 2, exec (.cntModeWrite v page mode) s = .next s) ∧
    (s.answers v = true → shown → ∀ i, i < 8 →
      let value := (if y.cntMode = 1 then y.frozen.getD i 0 else s.liveCounter v p i).toNat
      let key := s.latchKey v p (0x40 + 8 * i)
      let emits := fun (n : Nat) => Output.value (viewFn v) (w64 n) :: s.out
      exec (.counterLowRead v page (0x40 + 8 * i)) s =
        .next { s with out := emits (value % 2 ^ 32), latches := mapSet s.latches key (w32 (value / 2 ^ 32 % 2 ^ 32)) } ∧
      (∀ h, mapGet s.latches key = some h → exec (.counterHighRead v page (0x44 + 8 * i)) s =
        .next { s with out := emits h.toNat, latches := mapDel s.latches key }) ∧
      (mapGet s.latches key = none → exec (.counterHighRead v page (0x44 + 8 * i)) s = .next { s with out := emits (value / 2 ^ 32 % 2 ^ 32) })) ∧
    (∀ v' p' o o', viewFn v ≠ viewFn v' → p' < 256 → o < 4096 → o' < 4096 → s.viewDom v p < 64 → s.viewDom v' p' < 64 →
      s.latchKey v p o ≠ s.latchKey v' p' o') ∧
    (s.answers v = true → shown →
      write 0x18 = exec (.blkEventClear v page w) s ∧ write 0x1C = exec (.blkEventEnWrite v page w) s ∧
      write 0x20 = exec (.blkEventSet v page w) s ∧ (bitOf w.toNat 0 = true → write 0x24 = exec (.blkLock v page) s) ∧
      write 0x10 = exec (.cntModeWrite v page (w.setWidth 2)) s ∧
      (p = pTik → write 0x100 = exec (.tickConfigWrite v false w) s ∧ write 0x104 = exec (.tickConfigWrite v true w) s ∧
        write 0x120 = exec (.shareWrite v w) s ∧ write 0x124 = exec (.planSlotsWrite v w) s) ∧
      (p = pVec → (∀ k : Fin 7, write (0x100 + 4 * k.val) = exec (.recipeWrite v k w) s) ∧ write 0x130 = exec (.histSelWrite v (w.setWidth 7)) s ∧
        write 0x138 = exec (.histCommit v (w.setWidth 5)) s ∧ write 0x184 = exec (.zsValueWrite v w) s ∧
        write 0x180 = .next (s.updDom (s.viewDom v p) (fun z => { z with vec := { z.vec with zsSel := w.toNat % 2 ^ 10 } }))) ∧
      (p = pUpd → write 0x100 = exec (.lossScaleWrite v w) s ∧ write 0x110 = exec (.retainWrite v w) s) ∧
      (p = pTir → write 0x12C = exec (.flashRateWrite v w) s) ∧ (p = pCol → write 0x100 = exec (.ptagWrite v w) s) ∧
      (p = 0x10 → write 0x104 = exec (.maintWrite v w) s ∧ write 0x10C = exec (.regRateWrite v w) s)) ∧
    (∀ bar off size value, s.answers v = false ∨ (bar = .bar0 ∧ (size ≠ 4 ∧ size ≠ 8 ∨ off % size ≠ 0 ∨ 0x100000 ≤ off)) →
      exec (.registerWrite v bar off size value) s = .next s)

/-- R470: in DEVEL and RETURN a 1 written to BLK_EVENT_SET sets that bit in the writing view's copy, and sends the view's vector when the bit was clear and is enabled: the message, or the Pending bit of a masked vector. Nothing else changes: no counter, no state, no other view. In every other state the write is ignored. -/
def Obligations.EventSetInDevelAndReturn : Prop :=
  ∀ (s : State) (v : View) (page : Byte) (mask : W32) (b : Nat),
    let p := page.toNat
    let c := s.viewCopy v p
    let x := s.view c p
    let bits := mask &&& w32 (viewEvents v p)
    let vector := 2048 * copyFn c + (2 + b)
    let works := s.fuses.life = .devel ∨ s.fuses.life = .return_
    let fresh := bits &&& ~~~x.event &&& x.enable ≠ 0
    let reached := copyFn c = 0 ∨ s.vfUp (copyFn c) = true
    (s.shows v p = true → blockOf p = some b → works → ∃ u, exec (.blkEventSet v page mask) s = .next u ∧
      u.view c p = { x with event := x.event ||| bits } ∧ (∀ j g, 256 * j + g ≠ 256 * c + p → u.view j g = s.view j g) ∧
      Frame [.views, .pciPending, .out] s u ∧
      (fresh → reached → s.pci.unmasked.contains vector = true → u.out = .msix (copyFn c) (2 + b) :: s.out ∧ u.pci = s.pci) ∧
      (fresh → reached → s.pci.unmasked.contains vector = false → u.out = s.out ∧ u.pci.pendingBits = numAdd s.pci.pendingBits vector) ∧
      (¬ fresh ∨ ¬ reached → u.out = s.out ∧ u.pci = s.pci)) ∧
    (¬ works → exec (.blkEventSet v page mask) s = .next s)

/-- R472: BLK_LOCK is written in region 0 alone, where a 1 locks the page; in every other view it reads the lock state and ignores writes. While a page is locked, a write to an RWL field of it that arrives leaves the field as it is: PRIO, REF_EXT and W_CAP of TIK, the recipe rows of VEC, the page counts of BAS, TMODE_NEXT of MEM stack 0, BIFUR_NEXT of NVM and FAB_SELF of port 0. The global fields in the pages of the other stacks and ports do not act, locked or not. -/
def Obligations.LocksFreezeFields : Prop :=
  ∀ (s : State) (v : View) (page : Byte) (w : W32),
    let p := page.toNat
    let write := fun (o : Nat) => exec (.registerWrite v .bar0 (4096 * p + o) 4 (w.setWidth 64)) s
    let frozen : List (Nat × Nat) := [(pTik, 0x108), (pTik, 0x118), (pVec, 0x100), (pVec, 0x104), (pVec, 0x108), (pVec, 0x10C), (pVec, 0x110),
      (pVec, 0x114), (pVec, 0x118), (pBas, 0x150), (pBas, 0x154), (0x10, 0x100), (pNvm, 0x100), (0x20, 0x100)]
    (s.shows v p = true → isRegion0 v = true → exec (.blkLock v page) s = .next { s with locked := numAdd s.locked p }) ∧
    (isRegion0 v = false → exec (.blkLock v page) s = .next s ∧ write 0x24 = .next s) ∧
    (s.answers v = true → s.shows v p = true → mapGet s.latches (s.latchKey v p 0x20) = none →
      exec (.counterHighRead v page 0x24) s = .next { s with out := .value (viewFn v) (if s.locked.contains p then 1 else 0) :: s.out }) ∧
    (s.locked.contains p = true → ∀ o, (p, o) ∈ frozen → write o = .next s) ∧
    (0x11 ≤ p → p ≤ 0x17 ∨ 0x21 ≤ p ∧ p ≤ 0x31 → write 0x100 = .next s)

/-! ## The monitor (16) -/

/-- R456, R457, R458: while the device is awake, the monitor answers each command in the life-cycle states that accept it, and ERR in the others. ID, HEALTH and CHAL print their values (their order in HEALTH is the model's, log 76). UNLOCK takes a token for target 0xFF in PROD, sets UNLOCKED with its event, and a token that fails is counted. PEEK reads a register of a device page that shows no domain (log 84), COUNT a counter that the device keeps, TRACE a record of the ring, none of them changing anything; POKE, MEM and DOMREAD, in DEVEL and RETURN, and in BLANK (log 83), write a register as the manager's view does, read or write a byte of a domain's range, and read a register of a domain's view. While the device is off or in reset nothing answers. -/
def Obligations.MonitorCommands : Prop :=
  ∀ (s : State) (page : Byte) (off addr index : Nat) (w : W32) (d : Fin 64) (token : List Byte) (byte : Byte),
    let p := page.toNat
    let life := s.fuses.life
    let answers := fun (cmd : Instr) (values : List Nat) => exec cmd s = .next (s.emit (.monitorOk values))
    let refuses := fun (cmd : Instr) => exec cmd s = .next (s.emit .monitorErr)
    let aligned := off < 4096 ∧ off % 4 = 0
    let reads := (life = .prod ∧ s.boot.unlocked = true) ∨ life = .blank ∨ life = .devel ∨ life = .return_
    let changes := life = .blank ∨ life = .devel ∨ life = .return_
    let shownView : View := if d.val = 0 then .pf 0 else .vf d
    let idx := (off - 0x40) / 8
    let held := s.live d.val = true ∧ s.inRange d.val addr 1 = true ∧ s.resident d.val addr 1 = true
    let lookers : List Instr := [.peek page off, .count page off, .trace index]
    let changers : List Instr := [.poke page off w, .mem d addr none, .mem d addr (some byte), .domread d page off]
    let all : List Instr := [.id, .health, .chal, .unlock token] ++ lookers ++ changers
    (s.awake = false → ∀ cmd ∈ all, exec cmd s = .next s) ∧
    (s.awake = true →
      answers .id [Config.serial.toNat, Config.order, 0xA1, life.code, s.boot.fwSvn, 0x00040001] ∧
      (life = .retired → ∀ cmd ∈ all, cmd ≠ .id → refuses cmd) ∧
      (life ≠ .retired →
        answers .health ([s.pwr.tjMax, s.memg.tHot, s.pwr.level, bit01 s.boot.bootSecondary, s.boot.resetCause] ++ s.eventCodes) ∧
        answers .chal [(Config.challenge s.boot.challenge).toNat]) ∧
      (life ≠ .prod ∨ s.boot.unlocked = true → refuses (.unlock token)) ∧
      (life = .prod → s.boot.unlocked = false →
        (s.tokenOk 0xFF token = true → ∃ u, exec (.unlock token) s = .next u ∧ u.boot = { s.boot with unlocked := true } ∧ Frame (withEvents [.boot]) s u ∧
          EventIn u (s.devCopies pLks 5) pLks 5 ∧ u.out.head? = some (.monitorOk [])) ∧
        (s.tokenOk 0xFF token = false → ∃ u, exec (.unlock token) s = .next u ∧ Frame (withEvents []) s u ∧
          u.counter dev pLks 2 = s.counter dev pLks 2 + 1 ∧ EventIn u [64] pLks 3 ∧ u.out.head? = some .monitorErr)) ∧
      (¬ reads → ∀ cmd ∈ lookers, refuses cmd) ∧
      (¬ changes → ∀ cmd ∈ changers, refuses cmd) ∧
      (reads →
        (devicePage p = true ∧ domainReg p off = false ∧ aligned → answers (.peek page off) [s.monWord (.pf 0) p off]) ∧
        (¬ (devicePage p = true ∧ domainReg p off = false ∧ aligned) → refuses (.peek page off)) ∧
        ((blockOf p).isSome = true → 0x40 ≤ off → off < 0x80 → off % 8 = 0 → counterScope (.pf 0) p idx (s.viewDom (.pf 0) p) = some dev →
          answers (.count page off) [(s.liveCounter (.pf 0) p idx).toNat]) ∧
        ((blockOf p).isSome = false ∨ off < 0x40 ∨ 0x80 ≤ off ∨ off % 8 ≠ 0 ∨ counterScope (.pf 0) p idx (s.viewDom (.pf 0) p) ≠ some dev →
          refuses (.count page off)) ∧
        (let record := (s.rdMem 0 (s.dbg.traceBase + 16 * index) 16).1;
        index < 2 ^ (min s.dbg.traceLog2 20) → answers (.trace index) [ofLe (record.take 8), ofLe (record.drop 8)]) ∧
        (2 ^ (min s.dbg.traceLog2 20) ≤ index → refuses (.trace index))) ∧
      (changes →
        (s.shows (.pf 0) p = true → aligned → ∃ u, exec (.poke page off w) s = .next (u.emit (.monitorOk [])) ∧
          (s.answers (.pf 0) = true → exec (.registerWrite (.pf 0) .bar0 (4096 * p + off) 4 (w.setWidth 64)) s = .next u)) ∧
        (¬ (s.shows (.pf 0) p = true ∧ aligned) → refuses (.poke page off w)) ∧
        (held → (s.rdMem d.val addr 1).2 = false → answers (.mem d addr none) [ofLe (s.rdMem d.val addr 1).1]) ∧
        (held → s.sharedSpan d.val addr 1 = false → ∃ u, exec (.mem d addr (some byte)) s = .next (u.emit (.monitorOk [])) ∧
          OnlyDom s u d.val ∧ Frame [.domTir, .domMem, .domPoison] s u ∧
          (poisonHit (s.dom d.val).poison 64 addr 1 = false → ∀ a, memRead (u.dom d.val).mem a = if a = addr then byte else memRead (s.dom d.val).mem a)) ∧
        (¬ held → refuses (.mem d addr none) ∧ refuses (.mem d addr (some byte))) ∧
        (held → (s.rdMem d.val addr 1).2 = true → refuses (.mem d addr none)) ∧
        (held → s.sharedSpan d.val addr 1 = true → refuses (.mem d addr (some byte))) ∧
        (aligned → d.val = 0 ∨ (s.dom d.val).alive = true → answers (.domread d page off) [s.monWord shownView p off]) ∧
        (¬ (aligned ∧ (d.val = 0 ∨ (s.dom d.val).alive = true)) → refuses (.domread d page off))))

/-- What each of the other commands may change: the parts of the state that its rules name, and what its event moves; every other part, every byte of a domain's memory outside the trace ring, and the queue of commands stay. The commands are those of the queue page and the host window, the plan's slabs and phases, maintenance, the fabric and the tick, remote accesses and collectives, the requests of Locksmith and the ends of domains, the pins and boot, and management. -/
def Obligations.OtherCommandsKeepTheRest : Prop :=
  ∀ s : State,
    (∀ (fn : Fin 64) (words : List TlpWord) (poisoned : Bool), FrameOut (withEvents [.pci, .domQueue, .domSlabs]) s (exec (.submitWord fn words poisoned) s)) ∧
    (∀ (fn : Fin 64), FrameOut [.pci, .pciPending, .out, .domQueue] s (exec (.queueReset fn) s)) ∧
    (∀ (fn : Fin 64), FrameOut [.out, .domQueue] s (exec (.complRead fn) s)) ∧
    (∀ (fn : Fin 64) (offset : Nat) (bytes : List Byte) (poisoned : Bool), FrameOut (withEvents [.pci, .commons, .commonsPoison]) s (exec (.hostWindowWrite fn offset bytes poisoned) s)) ∧
    (∀ (fn : Fin 64) (offset : Nat) (length : Nat), FrameOut (withEvents [.commonsPoison]) s (exec (.hostWindowRead fn offset length) s)) ∧
    (∀ (fn : Fin 64) (vector : Nat), FrameOut [.pci, .pciPending, .out] s (exec (.msixUnmask fn vector) s)) ∧
    FrameOut [.pwr] s (exec .epochDecision s) ∧
    (∀ (d : Fin 64) (slab : SlabRef) (nowNs : Nat) (errors : List ReadError), FrameOut (withEvents [.fuses, .pci, .tik, .pwr, .bas, .fab, .lks, .slots, .mbds, .units, .stretch, .commons, .commonsPoison, .acc, .opbuf, .atLatch, .freeCtr, .domQueue, .domSlabs, .domSched, .domVec, .domUpd, .domKvp, .domTir, .domCol, .domMem, .domPoison]) s (exec (.slabStart d slab nowNs errors) s)) ∧
    (∀ (d : Fin 64) (slab : SlabRef) (nowNs : Nat), FrameOut [.fuses, .tik, .counters, .domSlabs] s (exec (.slabPause d slab nowNs) s)) ∧
    (∀ (d : Fin 64) (slab : SlabRef) (nowNs : Nat), FrameOut (withEvents [.fuses, .pci, .tik, .bas, .fab, .lks, .slots, .mbds, .units, .stretch, .commons, .commonsPoison, .acc, .opbuf, .freeCtr, .domPreempt, .domQueue, .domSlabs, .domVec, .domVar, .domUpd, .domKvp, .domTir, .domCol, .domKeys, .domMem, .domPoison]) s (exec (.slabComplete d slab nowNs) s)) ∧
    (∀ (nowNs : Nat), FrameOut (withEvents [.fuses, .tik, .domSlabs, .domSched]) s (exec (.runPhaseEnd nowNs) s)) ∧
    (∀ (nowNs : Nat), FrameOut (withEvents [.fuses, .pci, .tik, .pwr, .bas, .fab, .mbds, .units, .stretch, .commonsPoison, .freeCtr, .domQueue, .domSlabs, .domSched, .domVec, .domUpd, .domKvp, .domTir, .domCol, .domMem, .domPoison]) s (exec (.settleStart nowNs) s)) ∧
    (∀ (copy : Fin 2) (stripe : Nat) (source : StripeSource) (bytes : List Byte) (nowNs : Nat), FrameOut (withEvents [.fuses, .pci, .tik, .bas, .fab, .mbds, .units, .stretch, .commonsPoison, .freeCtr, .domQueue, .domSlabs, .domTir, .domCol, .domMem, .domPoison]) s (exec (.baseRefetchDone copy stripe source bytes nowNs) s)) ∧
    FrameOut [.bdg, .mbds] s (exec .maintWindowStart s) ∧
    (∀ (stack : Fin 8) (item : MaintItem) (ended : MaintEnd), FrameOut (withEvents [.bas, .mbds, .units, .commonsPoison, .domPoison]) s (exec (.maintItemEnd stack item ended) s)) ∧
    (∀ (stack : Fin 8) (channel : Fin 32), FrameOut [.mbds] s (exec (.routineRetrainDue stack channel) s)) ∧
    (∀ (stack : Fin 8), FrameOut (withEvents []) s (exec (.maintStarved stack) s)) ∧
    (∀ (stack : Fin 8) (channel : Fin 32) (emergency : Emergency) (stallNs : Nat) (inWindow : Bool), FrameOut (withEvents [.tik, .mbds, .stretch]) s (exec (.emergencyRetrain stack channel emergency stallNs inWindow) s)) ∧
    (∀ (nowNs : Nat) (temps : List Nat), FrameOut (withEvents [.fuses, .tik, .pwr, .memg, .mbds, .stretch]) s (exec (.refreshPause nowNs temps) s)) ∧
    (∀ (d : Fin 64) (tag : W32), FrameOut [.domSlabs] s (exec (.sharedFetchHoldExpire d tag) s)) ∧
    (∀ (port : Fin 18) (sym : TickSymbol) (nowNs : Nat), FrameOut (withEvents [.fuses, .tik, .fab, .stretch, .freeCtr]) s (exec (.tickSymbolReceive port sym nowNs) s)) ∧
    (∀ (port : Fin 18) (token : DoneToken) (nowNs : Nat), FrameOut [.fuses, .tik, .fab, .counters, .freeCtr, .out] s (exec (.doneTokenReceive port token nowNs) s)) ∧
    (∀ (nowNs : Nat), FrameOut (withEvents [.fuses, .tik, .fab, .stretch, .freeCtr]) s (exec (.tickStart nowNs) s)) ∧
    (∀ (nowNs : Nat), FrameOut (withEvents [.fuses, .tik, .fab, .stretch, .freeCtr]) s (exec (.tickMasterTimeout nowNs) s)) ∧
    FrameOut (withEvents [.tik]) s (exec .tickRefLoss s) ∧
    (∀ (nowNs : Nat), FrameOut [.fuses, .tik, .fab] s (exec (.fabricTrainingStart nowNs) s)) ∧
    (∀ (port : Fin 18), FrameOut (withEvents [.fab]) s (exec (.portStageTimeout port) s)) ∧
    (∀ (port : Fin 18) (lanes : BitVec 8) (peerDevice peerPort : Nat) (delayPs eyeMv eyeLane : Nat), FrameOut (withEvents [.fab, .lks, .freeCtr]) s (exec (.portTrainingDone port lanes peerDevice peerPort delayPs eyeMv eyeLane) s)) ∧
    (∀ (port : Fin 18) (device prio : Nat), FrameOut [.tik, .fab, .counters, .freeCtr, .out] s (exec (.prioOffer port device prio) s)) ∧
    (∀ (nowNs : Nat), FrameOut (withEvents [.fuses, .tik, .fab, .freeCtr]) s (exec (.masterElection nowNs) s)) ∧
    (∀ (port : Fin 18) (lane : Fin 8), FrameOut (withEvents [.fab]) s (exec (.laneFail port lane) s)) ∧
    (∀ (port : Fin 18) (bytes : List Byte) (fecOk : Bool) (errors : List ReadError), FrameOut (withEvents [.pci, .tik, .bas, .fab, .mbds, .units, .stretch, .commonsPoison, .freeCtr, .domQueue, .domSlabs, .domTir, .domCol, .domMem, .domPoison]) s (exec (.flitReceive port bytes fecOk errors) s)) ∧
    (∀ (port : Fin 18) (seq : Nat), FrameOut (withEvents [.fab]) s (exec (.retryRequest port seq) s)) ∧
    (∀ (port : Fin 18) (msg : KeyMessage), FrameOut (withEvents [.fab, .lks, .freeCtr]) s (exec (.keyExchangeMessage port msg) s)) ∧
    (∀ (port : Fin 18), FrameOut [.fab, .lks, .counters, .freeCtr, .out] s (exec (.rekey port) s)) ∧
    (∀ (port : Fin 18), FrameOut (withEvents [.fab]) s (exec (.rekeyStall port) s)) ∧
    (∀ (t : Txn) (errors : List ReadError), FrameOut (withEvents [.pci, .bas, .fab, .mbds, .units, .commonsPoison, .freeCtr, .domQueue, .domSlabs, .domTir, .domCol, .domMem, .domPoison]) s (exec (.rdReq t errors) s)) ∧
    (∀ (t : Txn), FrameOut [.counters, .domSlabs, .domCol] s (exec (.rdResp t) s)) ∧
    (∀ (t : Txn) (errors : List ReadError), FrameOut (withEvents [.pci, .bas, .fab, .mbds, .units, .commonsPoison, .freeCtr, .domQueue, .domSlabs, .domTir, .domCol, .domMem, .domPoison]) s (exec (.wr t errors) s)) ∧
    (∀ (t : Txn), FrameOut [.counters, .domSlabs, .domCol] s (exec (.wrAck t) s)) ∧
    (∀ (t : Txn) (errors : List ReadError), FrameOut (withEvents [.pci, .bas, .fab, .mbds, .units, .commonsPoison, .freeCtr, .domQueue, .domSlabs, .domTir, .domCol, .domMem, .domPoison]) s (exec (.radd t errors) s)) ∧
    (∀ (t : Txn), FrameOut [.counters, .domSlabs, .domCol] s (exec (.raddAck t) s)) ∧
    (∀ (t : Txn) (errors : List ReadError), FrameOut (withEvents [.pci, .bas, .fab, .mbds, .units, .commonsPoison, .freeCtr, .domQueue, .domSlabs, .domTir, .domCol, .domMem, .domPoison]) s (exec (.atom t errors) s)) ∧
    (∀ (t : Txn), FrameOut [.counters, .domSlabs, .domCol] s (exec (.atomResp t) s)) ∧
    (∀ (t : Txn) (step : Nat) (ring : Bool), FrameOut (withEvents [.fab, .domSlabs, .domCol]) s (exec (.collData t step ring) s)) ∧
    (∀ (t : Txn) (errors : List ReadError), FrameOut (withEvents [.pci, .bas, .fab, .mbds, .units, .commonsPoison, .freeCtr, .domQueue, .domSlabs, .domTir, .domCol, .domMem, .domPoison]) s (exec (.stripeReq t errors) s)) ∧
    (∀ (t : Timed Txn), FrameOut (withEvents [.fuses, .pci, .tik, .bas, .fab, .mbds, .units, .stretch, .commonsPoison, .freeCtr, .domQueue, .domSlabs, .domTir, .domCol, .domMem, .domPoison]) s (exec (.stripeResp t) s)) ∧
    (∀ (d : Fin 64) (collId : W32), FrameOut (withEvents [.domSlabs, .domCol]) s (exec (.colTimeout d collId) s)) ∧
    (∀ (copy : Fin 2) (stripe : Nat) (source : StripeSource) (bytes : Timed (List Byte)), FrameOut (withEvents [.fuses, .pci, .tik, .bas, .fab, .mbds, .units, .stretch, .commonsPoison, .freeCtr, .domQueue, .domSlabs, .domTir, .domCol, .domMem, .domPoison]) s (exec (.stripeFetchDone copy stripe source bytes) s)) ∧
    (∀ (copy : Fin 2) (stripe : Nat) (result : Timed HostReadResult), FrameOut (withEvents [.fuses, .pci, .tik, .bas, .fab, .mbds, .units, .stretch, .commonsPoison, .freeCtr, .domQueue, .domSlabs, .domTir, .domCol, .domMem, .domPoison]) s (exec (.hostReadCompletion copy stripe result) s)) ∧
    (∀ (posted : Bool) (d : Fin 64) (saveCommons : Bool) (rsv : BitVec 53), FrameOut (withEvents [.pairs, .domPreempt]) s (exec (.preempt posted d saveCommons rsv) s)) ∧
    (∀ (posted : Bool) (d : Fin 64) (rsv : BitVec 54), FrameOut (withEvents [.pairs, .domPreempt]) s (exec (.resume posted d rsv) s)) ∧
    (∀ (v : View) (posted : Bool) (d : Fin 64) (rsv : BitVec 50), FrameOut (withEvents [.pci, .lks, .slots, .pairs, .stretch, .latches, .freeFrames, .freeCtr, .domLife, .domRecord, .domPreempt, .domQueue, .domSlabs, .domSched, .domVec, .domVar, .domUpd, .domKvp, .domTir, .domCol, .domKeys, .domMem, .domPoison]) s (exec (.create v posted d rsv) s)) ∧
    (∀ (d : Fin 64), FrameOut [.domLife] s (exec (.createComplete d) s)) ∧
    (∀ (v : View) (posted : Bool) (d : Fin 64) (rsv : BitVec 50), FrameOut (withEvents [.pairs, .freeFrames, .freeCtr, .domLife, .domTir]) s (exec (.resize v posted d rsv) s)) ∧
    (∀ (v : View) (posted : Bool) (d : Fin 64) (rsv : BitVec 50), FrameOut (withEvents [.pairs, .domLife]) s (exec (.destroy v posted d rsv) s)) ∧
    (∀ (v : View) (posted : Bool) (d : Fin 64) (rsv : BitVec 50), FrameOut (withEvents [.pairs, .domLife]) s (exec (.lend v posted d rsv) s)) ∧
    (∀ (v : View) (posted : Bool) (d : Fin 64) (rsv : BitVec 50), FrameOut (withEvents [.pairs, .domLife]) s (exec (.reclaim v posted d rsv) s)) ∧
    (∀ (v : View) (posted : Bool) (d : Fin 64) (rsv : BitVec 50), FrameOut (withEvents [.pairs, .domLife]) s (exec (.mapShared v posted d rsv) s)) ∧
    (∀ (v : View) (posted : Bool) (d : Fin 64) (rsv : BitVec 50), FrameOut (withEvents [.pairs, .domLife]) s (exec (.unmapShared v posted d rsv) s)) ∧
    (∀ (v : View) (posted : Bool) (d : Fin 64) (rsv : BitVec 50), FrameOut (withEvents [.pairs, .domKeys]) s (exec (.session v posted d rsv) s)) ∧
    (∀ (v : View) (posted : Bool) (d : Fin 64) (rsv : BitVec 50), FrameOut (withEvents [.lks, .pairs, .domKeys]) s (exec (.rotate v posted d rsv) s)) ∧
    (∀ (v : View) (posted : Bool) (d : Fin 64) (rsv : BitVec 50), FrameOut (withEvents [.lks, .pairs]) s (exec (.attest v posted d rsv) s)) ∧
    (∀ (engine : Fin 3), FrameOut (withEvents [.fab, .lks, .pairs, .commons, .commonsPoison, .freeCtr]) s (exec (.reportSigned engine) s)) ∧
    (∀ (v : View) (posted : Bool) (d : Fin 64) (rsv : BitVec 50), FrameOut (withEvents [.pairs, .commons, .commonsPoison]) s (exec (.identity v posted d rsv) s)) ∧
    (∀ (v : View) (posted : Bool) (d : Fin 64) (rsv : BitVec 50), FrameOut (withEvents [.pairs, .domKeys]) s (exec (.keyImport v posted d rsv) s)) ∧
    (∀ (v : View) (posted : Bool) (d : Fin 64) (rsv : BitVec 50), FrameOut (withEvents [.pairs, .domKeys]) s (exec (.keyDrop v posted d rsv) s)) ∧
    (∀ (v : View) (posted : Bool) (d : Fin 64) (rsv : BitVec 50), FrameOut (withEvents [.fuses, .pairs]) s (exec (.lifecycle v posted d rsv) s)) ∧
    (∀ (v : View) (posted : Bool) (d : Fin 64) (rsv : BitVec 50), FrameOut (withEvents [.fuses, .pairs]) s (exec (.svnCommit v posted d rsv) s)) ∧
    (∀ (v : View) (posted : Bool) (d : Fin 64) (rsv : BitVec 50), FrameOut (withEvents [.fuses, .pairs]) s (exec (.certInstall v posted d rsv) s)) ∧
    (∀ (d : Fin 64), FrameOut (withEvents [.pci, .lks, .slots, .pairs, .stretch, .latches, .freeFrames, .freeCtr, .domLife, .domRecord, .domPreempt, .domQueue, .domSlabs, .domSched, .domVec, .domVar, .domUpd, .domKvp, .domTir, .domCol, .domKeys, .domMem, .domPoison]) s (exec (.heldRequestExecute d) s)) ∧
    (∀ (d : Fin 64) (nowNs : Nat) (withheldFrames : List Nat) (sramFailUnits : List Nat), FrameOut (withEvents [.boot, .ful, .commons, .commonsPoison, .acc, .opbuf, .freeFrames, .domLife, .domPreempt, .domSlabs, .domMem, .domPoison]) s (exec (.scrubEnd d nowNs withheldFrames sramFailUnits) s)) ∧
    (∀ (d : Fin 64), FrameOut [.domKeys] s (exec (.memoryKeyDestroy d) s)) ∧
    (∀ (n : Fin 64), FrameOut (withEvents [.pci, .domLife]) s (exec (.vfFlr n) s)) ∧
    (∀ (on : Bool) (numVfs : Nat), FrameOut (withEvents [.pci, .domLife]) s (exec (.vfEnableChange on numVfs) s)) ∧
    (∀ (speed width : Nat) (dlUp : Bool), FrameOut (withEvents [.pci]) s (exec (.pcieLinkChange speed width dlUp) s)) ∧
    (∀ (mV : Nat), FrameOut [.boot, .ful, .out] s (exec (.powerApply mV) s)) ∧
    (∀ (baudSel i3cAsel : Fin 4), FrameOut [.boot, .ful, .out] s (exec (.perstRise baudSel i3cAsel) s)) ∧
    (∀ (mV : Nat), FrameOut (withEvents [.boot, .pwr]) s (exec (.inputRange mV) s)) ∧
    (∀ (failedStacks : List (Fin 8 × Fin 32)), FrameOut (withEvents [.boot, .mbds, .freeFrames]) s (exec (.mbdTrainingDone failedStacks) s)) ∧
    (∀ (slot : Fin 2) (magic : W32) (format keyIndex svn bodyLen : Nat) (digestMatches rsaOk slhOk : Bool) (digest : List Byte), FrameOut [.boot] s (exec (.imageVerifyDone slot magic format keyIndex svn bodyLen digestMatches rsaOk slhOk digest) s)) ∧
    (∀ (withheldFrames : List Nat) (sramFailUnits : List Nat) (nowNs : Nat), FrameOut (withEvents [.boot, .fuses, .tik, .ful, .freeFrames]) s (exec (.deviceWipeEnd withheldFrames sramFailUnits nowNs) s)) ∧
    FrameOut [.boot, .fuses, .out] s (exec .firmwareRelease s) ∧
    (∀ (nowNs : Nat), FrameOut (withEvents [.boot, .fuses, .tik]) s (exec (.pfReady nowNs) s)) ∧
    (∀ (reading : BadgerReading), FrameOut (withEvents [.fuses, .bdg]) s (exec (.badgerMeasure reading) s)) ∧
    FrameOut (withEvents [.bdg]) s (exec .measureSkipped s) ∧
    (∀ (v : View), FrameOut [.bdg] s (exec (.measure v) s)) ∧
    (∀ (v : View) (value : W32), FrameOut (withEvents [.pwr]) s (exec (.pwrBoundsWrite v value) s)) ∧
    (∀ (v : View) (value : W32), FrameOut (withEvents [.pwr]) s (exec (.pwrTargetsWrite v value) s)) ∧
    (∀ (v : View) (port : Fin 18), FrameOut (withEvents [.fab]) s (exec (.retrain v port) s)) ∧
    (∀ (v : View) (port : Fin 18) (enable : Bool), FrameOut (withEvents [.fab]) s (exec (.portEnable v port enable) s)) ∧
    (∀ (slot : Fin 2) (offset : Nat) (bytes : List Byte), FrameOut [.fuses] s (exec (.pldmFirmwareUpdate slot offset bytes) s)) ∧
    (∀ (query : PldmQuery), FrameOut [.out] s (exec (.pldmRequest query) s)) ∧
    (∀ (port : Fin 18) (nowNs : Nat), FrameOut [.fuses, .tik, .fab, .out] s (exec (.signalDetect port nowNs) s)) ∧
    (∀ (port : Fin 18) (delayPs : Nat), FrameOut [.fab] s (exec (.oneWayDelayMeasurement port delayPs) s)) ∧
    (∀ (sensors : List Nat) (pInW : Nat) (vInMv : Nat), FrameOut [.boot, .pwr] s (exec (.computeDieSensorRead sensors pInW vInMv) s)) ∧
    (∀ (d3hot : Bool), FrameOut [.pci] s (exec (.pfPowerStateChange d3hot) s)) ∧
    (∀ (how : I3cAssign), FrameOut [.boot, .out] s (exec (.i3cDynamicAddressAssign how) s))
end

