-- ==== Sys2Proof/Laws/Memory.lean ====
section
/-! SUPPORT. The laws of keyed maps and of memories in canonical form: what a lookup gives after a change, and that every memory operation keeps the form. -/

namespace Sys2Proof.Machine

/-! ## Keyed maps -/

@[simp] theorem mapGet_nil {α : Type} (k : Nat) : mapGet ([] : List (Nat × α)) k = none := rfl

theorem mapGet_cons {α : Type} (j : Nat) (w : α) (r : List (Nat × α)) (k : Nat) :
    mapGet ((j, w) :: r) k = if j = k then some w else mapGet r k := by
  unfold mapGet
  by_cases h : j = k <;> simp [h]

@[simp] theorem mapGet_mapSet_self {α : Type} (m : List (Nat × α)) (k : Nat) (v : α) : mapGet (mapSet m k v) k = some v := by
  induction m with
  | nil => simp [mapSet, mapGet_cons]
  | cons p r ih =>
    obtain ⟨j, w⟩ := p
    unfold mapSet
    split
    · simp [mapGet_cons]
    · split
      · simp [mapGet_cons]
      · next h => simp [mapGet_cons, ih, Ne.symm h]

theorem mapGet_mapSet_ne {α : Type} (m : List (Nat × α)) (k j : Nat) (v : α) (h : j ≠ k) :
    mapGet (mapSet m k v) j = mapGet m j := by
  induction m with
  | nil => simp [mapSet, mapGet_cons, Ne.symm h]
  | cons p r ih =>
    obtain ⟨i, w⟩ := p
    unfold mapSet
    split
    · simp [mapGet_cons, Ne.symm h]
    · split
      · next e => subst e; simp [mapGet_cons, Ne.symm h]
      · simp [mapGet_cons, ih]

theorem mapGet_mapSet {α : Type} (m : List (Nat × α)) (k j : Nat) (v : α) :
    mapGet (mapSet m k v) j = if j = k then some v else mapGet m j := by
  split
  · next h => subst h; simp
  · next h => exact mapGet_mapSet_ne m k j v h

theorem mapGet_filter {α : Type} (m : List (Nat × α)) (f : Nat → Bool) (k : Nat) :
    mapGet (m.filter (fun c => f c.1)) k = if f k then mapGet m k else none := by
  induction m with
  | nil => simp
  | cons p r ih =>
    obtain ⟨j, w⟩ := p
    by_cases hj : f j = true
    · rw [List.filter_cons_of_pos (by simpa using hj), mapGet_cons, mapGet_cons, ih]
      by_cases h : j = k
      · subst h; simp [hj]
      · simp [h]
    · rw [List.filter_cons_of_neg (by simpa using hj), mapGet_cons, ih]
      by_cases h : j = k
      · subst h; simp [hj]
      · simp [h]

theorem mapGet_mapDel {α : Type} (m : List (Nat × α)) (k j : Nat) :
    mapGet (mapDel m k) j = if j = k then none else mapGet m j := by
  rw [mapDel, mapGet_filter m (fun i => i != k)]
  by_cases h : j = k <;> simp [h]

/-- What a changed map holds is the new value or was there before. -/
theorem mem_mapSet {α : Type} (m : List (Nat × α)) (k : Nat) (v : α) (p : Nat × α) (h : p ∈ mapSet m k v) :
    p = (k, v) ∨ p ∈ m := by
  induction m with
  | nil => simpa [mapSet] using h
  | cons q r ih =>
    obtain ⟨j, w⟩ := q
    unfold mapSet at h
    split at h
    · simpa using h
    · split at h
      · rcases List.mem_cons.mp h with h | h
        · exact .inl h
        · exact .inr (List.mem_cons_of_mem _ h)
      · rcases List.mem_cons.mp h with h | h
        · exact .inr (h ▸ List.mem_cons_self)
        · exact (ih h).imp_right (List.mem_cons_of_mem _)

theorem mem_of_mapGet {α : Type} (m : List (Nat × α)) (k : Nat) (v : α) (h : mapGet m k = some v) : ∃ j, (j, v) ∈ m := by
  unfold mapGet at h
  cases e : m.find? (fun p => p.1 == k) with
  | none => simp [e] at h
  | some p =>
    obtain ⟨j, w⟩ := p
    simp only [e, Option.map_some, Option.some.injEq] at h
    subst h
    exact ⟨j, List.mem_of_find?_eq_some e⟩

/-! ## The canonical form -/

theorem memWf_iff (m : List Host.Cell) : memWf m = true ↔ m.Pairwise (fun a b => a.1 < b.1) ∧ ∀ c ∈ m, c.2 ≠ 0 := by
  induction m with
  | nil => simp [memWf]
  | cons c r ih =>
    cases r with
    | nil => simp [memWf]
    | cons d q =>
      rw [memWf]
      simp only [Bool.and_eq_true, bne_iff_ne, decide_eq_true_eq, ih, List.pairwise_cons, List.mem_cons, forall_eq_or_imp]
      constructor
      · rintro ⟨⟨h1, h2⟩, ⟨h3, h4⟩, h5, h6⟩
        exact ⟨⟨⟨h2, fun x hx => h2.trans (h3 x hx)⟩, h3, h4⟩, h1, h5, h6⟩
      · rintro ⟨⟨⟨h2, _⟩, h3, h4⟩, h1, h5, h6⟩
        exact ⟨⟨h1, h2⟩, ⟨h3, h4⟩, h5, h6⟩

@[simp] theorem memWf_nil : memWf [] = true := rfl

theorem memWf_filter (m : List Host.Cell) (f : Host.Cell → Bool) (h : memWf m = true) : memWf (m.filter f) = true := by
  rw [memWf_iff] at *
  exact ⟨h.1.filter _, fun c hc => h.2 c (List.mem_of_mem_filter hc)⟩

theorem memClear_wf (m : List Host.Cell) (a n : Nat) (h : memWf m = true) : memWf (memClear m a n) = true := memWf_filter m _ h

theorem memCut_wf (m : List Host.Cell) (a n : Nat) (h : memWf m = true) : memWf (memCut m a n) = true := by
  have hf := (memWf_iff _).mp (memWf_filter m (fun c => a ≤ c.1 && c.1 < a + n) h)
  rw [memCut, memWf_iff]
  refine ⟨?_, fun c hc => ?_⟩
  · rw [List.pairwise_map]
    refine hf.1.imp_of_mem fun {x y} hx hy hxy => ?_
    have h1 := (List.mem_filter.mp hx).2
    have h2 := (List.mem_filter.mp hy).2
    simp only [Bool.and_eq_true, decide_eq_true_eq] at h1 h2
    simp only
    omega
  · obtain ⟨x, hx, rfl⟩ := List.mem_map.mp hc
    exact hf.2 x hx

theorem memCells_mem (bs : List Byte) (a : Nat) (c : Host.Cell) (h : c ∈ memCells a bs) :
    a ≤ c.1 ∧ c.1 < a + bs.length ∧ c.2 ≠ 0 := by
  induction bs generalizing a with
  | nil => simp [memCells] at h
  | cons b r ih =>
    rw [memCells] at h
    split at h
    · have h1 := ih _ h
      simp only [List.length_cons]
      exact ⟨by omega, by omega, h1.2.2⟩
    · next hb =>
      rcases List.mem_cons.mp h with h | h
      · subst h; simp only [List.length_cons]; exact ⟨Nat.le_refl _, by omega, hb⟩
      · have h1 := ih _ h
        simp only [List.length_cons]
        exact ⟨by omega, by omega, h1.2.2⟩

theorem memCells_wf (bs : List Byte) (a : Nat) : memWf (memCells a bs) = true := by
  rw [memWf_iff]
  refine ⟨?_, fun c hc => (memCells_mem bs a c hc).2.2⟩
  induction bs generalizing a with
  | nil => simp [memCells]
  | cons b r ih =>
    rw [memCells]
    split
    · exact ih _
    · exact List.pairwise_cons.mpr ⟨fun c hc => by have := memCells_mem r (a + 1) c hc; simp only; omega, ih _⟩

/-- A write keeps the canonical form. -/
theorem memPut_wf (m : List Host.Cell) (a : Nat) (bs : List Byte) (h : memWf m = true) : memWf (memPut m a bs) = true := by
  have h1 := (memWf_iff _).mp (memWf_filter m (fun c => c.1 < a) h)
  have h2 := (memWf_iff _).mp (memWf_filter m (fun c => a + bs.length ≤ c.1) h)
  have h3 := (memWf_iff _).mp (memCells_wf bs a)
  rw [memPut, memWf_iff]
  constructor
  · rw [List.pairwise_append, List.pairwise_append]
    refine ⟨h1.1, ⟨h3.1, h2.1, fun x hx y hy => ?_⟩, fun x hx y hy => ?_⟩
    · have := memCells_mem bs a x hx
      have := (List.mem_filter.mp hy).2
      simp only [decide_eq_true_eq] at this
      omega
    · have hx' := (List.mem_filter.mp hx).2
      simp only [decide_eq_true_eq] at hx'
      rcases List.mem_append.mp hy with hy | hy
      · have := memCells_mem bs a y hy
        omega
      · have := (List.mem_filter.mp hy).2
        simp only [decide_eq_true_eq] at this
        omega
  · intro c hc
    rcases List.mem_append.mp hc with hc | hc
    · exact h1.2 c hc
    · rcases List.mem_append.mp hc with hc | hc
      · exact h3.2 c hc
      · exact h2.2 c hc

/-! ## Reading one byte -/

theorem mapGet_append {α : Type} (m n : List (Nat × α)) (k : Nat) :
    mapGet (m ++ n) k = (mapGet m k).or (mapGet n k) := by
  unfold mapGet
  rw [List.find?_append]
  cases m.find? (fun p => p.1 == k) <;> simp

theorem memCells_get (bs : List Byte) (a k : Nat) :
    (mapGet (memCells a bs) k).getD 0 = if a ≤ k ∧ k < a + bs.length then bs.getD (k - a) 0 else 0 := by
  induction bs generalizing a with
  | nil => simp [memCells]
  | cons b r ih =>
    rw [memCells]
    by_cases hk : k = a
    · subst hk
      have hr : (mapGet (memCells (k + 1) r) k).getD 0 = 0 := by rw [ih]; simp
      split
      · next hb => rw [hr]; simp [hb]
      · simp [mapGet_cons]
    · have e : (b :: r).getD (k - a) 0 = if a < k then r.getD (k - (a + 1)) 0 else b := by
        split
        · next h =>
          have : k - a = (k - (a + 1)) + 1 := by omega
          rw [this, List.getD_cons_succ]
        · next h =>
          have : k - a = 0 := by omega
          rw [this, List.getD_cons_zero]
      have key : (mapGet (memCells (a + 1) r) k).getD 0 =
          if a ≤ k ∧ k < a + (b :: r).length then (b :: r).getD (k - a) 0 else 0 := by
        rw [ih, e]
        simp only [List.length_cons]
        split <;> split <;> first | rfl | omega | (split <;> first | rfl | omega)
      split
      · exact key
      · rw [mapGet_cons, if_neg (Ne.symm hk)]; exact key

theorem memCells_get_none (bs : List Byte) (a k : Nat) (h : ¬(a ≤ k ∧ k < a + bs.length)) : mapGet (memCells a bs) k = none := by
  unfold mapGet
  rw [Option.map_eq_none_iff, List.find?_eq_none]
  intro c hc
  have := memCells_mem bs a c hc
  simp only [beq_iff_eq]
  omega

/-- Read after write: the byte written inside the run, and the old byte outside it. -/
theorem memRead_memPut (m : List Host.Cell) (a k : Nat) (bs : List Byte) :
    memRead (memPut m a bs) k = if a ≤ k ∧ k < a + bs.length then bs.getD (k - a) 0 else memRead m k := by
  have lo := mapGet_filter m (fun c => decide (c < a)) k
  have hi := mapGet_filter m (fun c => decide (a + bs.length ≤ c)) k
  have mid := memCells_get bs a k
  simp only [memRead, memPut, mapGet_append, lo, hi]
  by_cases h : a ≤ k ∧ k < a + bs.length
  · rw [if_pos h] at mid
    rw [if_pos h, ← mid, if_neg (by simp only [decide_eq_true_eq]; omega), if_neg (by simp only [decide_eq_true_eq]; omega)]
    simp
  · rw [if_neg h, memCells_get_none bs a k h]
    by_cases h1 : k < a
    · rw [if_pos (by simpa using h1), if_neg (by simp only [decide_eq_true_eq]; omega)]
      simp
    · rw [if_neg (by simpa using h1), if_pos (by simp only [decide_eq_true_eq]; omega)]
      simp

theorem memRead_memClear (m : List Host.Cell) (a n k : Nat) :
    memRead (memClear m a n) k = if a ≤ k ∧ k < a + n then 0 else memRead m k := by
  rw [memRead, memClear, mapGet_filter m (fun c => decide (c < a) || decide (a + n ≤ c))]
  by_cases h : a ≤ k ∧ k < a + n
  · rw [if_pos h, if_neg (by simp only [Bool.or_eq_true, decide_eq_true_eq]; omega)]; rfl
  · rw [if_neg h, if_pos (by simp only [Bool.or_eq_true, decide_eq_true_eq]; omega), memRead]

theorem memWf_get (m : List Host.Cell) (h : memWf m = true) (c : Host.Cell) (hc : c ∈ m) : mapGet m c.1 = some c.2 := by
  induction m with
  | nil => simp at hc
  | cons d r ih =>
    have hw := (memWf_iff _).mp h
    have hr : memWf r = true := (memWf_iff _).mpr ⟨(List.pairwise_cons.mp hw.1).2, fun x hx => hw.2 x (List.mem_cons_of_mem _ hx)⟩
    obtain ⟨j, w⟩ := d
    rcases List.mem_cons.mp hc with e | hc'
    · subst e; simp [mapGet_cons]
    · have := (List.pairwise_cons.mp hw.1).1 c hc'
      rw [mapGet_cons, if_neg (Nat.ne_of_lt this)]
      exact ih hr hc'

/-- Two memories in canonical form that read alike are one list. -/
theorem memWf_ext (m n : List Host.Cell) (hm : memWf m = true) (hn : memWf n = true) (h : ∀ a, memRead m a = memRead n a) : m = n := by
  have sub : ∀ p q : List Host.Cell, memWf p = true → memWf q = true → (∀ a, memRead p a = memRead q a) → ∀ c ∈ p, c ∈ q := by
    intro p q hp hq hpq c hc
    have h1 := memWf_get p hp c hc
    have h2 := ((memWf_iff _).mp hp).2 c hc
    have h3 := hpq c.1
    unfold memRead at h3
    rw [h1, Option.getD_some] at h3
    cases e : q.find? (fun x => x.1 == c.1) with
    | none => simp [mapGet, e] at h3; exact absurd h3 h2
    | some x =>
      have hx := List.mem_of_find?_eq_some e
      have hk := List.find?_some e
      simp only [beq_iff_eq] at hk
      simp only [mapGet, e, Option.map_some, Option.getD_some] at h3
      have : x = c := Prod.ext hk h3.symm
      exact this ▸ hx
  have nodup : ∀ p : List Host.Cell, memWf p = true → p.Nodup := fun p hp =>
    ((memWf_iff _).mp hp).1.imp (fun {a b} hab e => by subst e; exact absurd hab (Nat.lt_irrefl _))
  have perm : m.Perm n := (List.perm_ext_iff_of_nodup (nodup m hm) (nodup n hn)).mpr
    (fun c => ⟨sub m n hm hn h c, sub n m hn hm (fun a => (h a).symm) c⟩)
  exact perm.eq_of_pairwise (fun a b _ _ h1 h2 => absurd (Nat.lt_trans h1 h2) (Nat.lt_irrefl _))
    ((memWf_iff _).mp hm).1 ((memWf_iff _).mp hn).1

end Sys2Proof.Machine
end

