-- ==== Sys2Proof/Laws/Evolve.lean ====
section
/-! SUPPORT. Every operation evolves the state (Safety.Evolves): the relation is a preorder, a change of parts that it does not read keeps it, and the named operations and events of Machine/Ops.lean and Machine/Flags.lean keep it. Each lemma says: if s evolves to t, it evolves to what the operation makes of t. -/

namespace Sys2Proof.Laws

open Sys2Proof.Machine Sys2Proof.Safety

theorem Forward.refl (s : State) : Forward s s :=
  ⟨Nat.le_refl _, Nat.le_refl _, fun h => ⟨h, Nat.le_refl _⟩, Nat.le_refl _, Nat.le_refl _, Nat.le_refl _⟩

theorem Forward.trans {s t u : State} (a : Forward s t) (b : Forward t u) : Forward s u :=
  ⟨a.minSvn.trans b.minSvn, a.raises.trans b.raises,
   fun h => ⟨(b.life (a.life h).1).1, (a.life h).2.trans (b.life (a.life h).1).2⟩,
   a.draws.trans b.draws, a.nonces.trans b.nonces, a.free.trans b.free⟩

theorem ev_refl (s : State) : Evolves s s := ⟨rfl, id, Forward.refl s⟩

theorem ev_trans {s t u : State} (a : Evolves s t) (b : Evolves t u) : Evolves s u :=
  ⟨b.pending.trans a.pending, fun h => b.memory (a.memory h), Forward.trans a.forward b.forward⟩

/-- A change of nothing that the relation reads. -/
theorem ev_same {s t u : State} (h : Evolves s t) (hp : u.pending = t.pending) (hf : u.fuses = t.fuses) (hd : u.doms = t.doms)
    (hc : u.commons = t.commons) (ho : u.opbuf = t.opbuf) (hb : u.bas = t.bas) (hm : u.pci = t.pci)
    (hl : u.lks = t.lks) (hr : u.freeCtr = t.freeCtr) : Evolves s u := by
  refine ev_trans h ⟨hp, fun w => ⟨?_, ?_, ?_, ?_, ?_, ?_, ?_⟩, ⟨?_, ?_, ?_, ?_, ?_, ?_⟩⟩
  · rw [hd]; exact w.doms
  · rw [hc]; exact w.commons
  · rw [ho]; exact w.opbuf
  · rw [hb]; exact w.image0
  · rw [hb]; exact w.image1
  · rw [hf]; exact w.spi
  · rw [hm]; exact w.msix
  · rw [hf]
  · rw [hf]
  · unfold LifeForward; rw [hf]; exact fun x => ⟨x, Nat.le_refl _⟩
  · rw [hl]
  · rw [hl]
  · rw [hr]

/-- A record update of parts that the relation does not read. -/
theorem ev_mk {s t : State}
    {x_boot : BootState} {x_tik : TikState} {x_pwr : PowerState} {x_bdg : BdgState} {x_memg : MemGlobal}
    {x_nvm : NvmState} {x_fab : FabState} {x_ful : FulState} {x_dbg : DbgState} {x_mbds : List (Nat × StackState)}
    {x_slots : List (Nat × SlotEntry)} {x_units : List (Nat × ArgUnit)} {x_recipe : List Recipe} {x_views : List (Nat × PageView)}
    {x_pairs : List (Nat × CmdPair)} {x_counters : List (Nat × W64)} {x_stretch : List (Nat × W64)}
    {x_latches : List (Nat × W32)} {x_locked : List Nat} {x_sels : List (Nat × Nat)} {x_commonsPoison : List Nat}
    {x_commonsCounted : List Nat} {x_acc : List (Nat × W32)} {x_freeFrames : Nat} {x_atLatch : List LatchAct}
    {x_out : List Output}
    (h : Evolves s t) : Evolves s
      (State.mk t.pending x_boot t.fuses t.pci x_tik x_pwr x_bdg x_memg x_nvm t.bas x_fab t.lks x_ful x_dbg t.doms
       x_slots x_mbds x_units x_recipe x_views x_pairs x_counters x_stretch x_latches x_locked x_sels t.commons
       x_commonsPoison x_commonsCounted x_acc t.opbuf x_freeFrames x_atLatch t.freeCtr x_out) :=
  ev_same h rfl rfl rfl rfl rfl rfl rfl rfl rfl

/-- A record update of any parts, each with what the relation asks of it. -/
theorem ev_mkAll {s t : State}
    {x_boot : BootState} {x_fuses : Fuses} {x_pci : PciState} {x_tik : TikState} {x_pwr : PowerState}
    {x_bdg : BdgState} {x_memg : MemGlobal} {x_nvm : NvmState} {x_bas : BasState} {x_fab : FabState}
    {x_lks : LksState} {x_ful : FulState} {x_dbg : DbgState} {x_doms : List (Nat × Dom)}
    {x_slots : List (Nat × SlotEntry)} {x_mbds : List (Nat × StackState)} {x_units : List (Nat × ArgUnit)}
    {x_recipe : List Recipe} {x_views : List (Nat × PageView)} {x_pairs : List (Nat × CmdPair)}
    {x_counters : List (Nat × W64)} {x_stretch : List (Nat × W64)} {x_latches : List (Nat × W32)}
    {x_locked : List Nat} {x_sels : List (Nat × Nat)} {x_commons : List Host.Cell} {x_commonsPoison : List Nat}
    {x_commonsCounted : List Nat} {x_acc : List (Nat × W32)} {x_opbuf : List Host.Cell} {x_freeFrames : Nat}
    {x_atLatch : List LatchAct} {x_freeCtr : Nat} {x_out : List Output}
    (h : Evolves s t)
    (hFuses : x_fuses.minSvn = t.fuses.minSvn ∧ x_fuses.svnRaises = t.fuses.svnRaises ∧
      x_fuses.life = t.fuses.life ∧ x_fuses.pending = t.fuses.pending ∧ x_fuses.spi = t.fuses.spi)
    (hPci : MemoryWf t → memWf x_pci.msixTable = true)
    (hBas : MemoryWf t → memWf x_bas.copy0.image = true ∧ memWf x_bas.copy1.image = true)
    (hLks : t.lks.draws ≤ x_lks.draws ∧ t.lks.nonces ≤ x_lks.nonces)
    (hDoms : MemoryWf t → ∀ p ∈ x_doms, DomMem p.2)
    (hCommons : MemoryWf t → memWf x_commons = true) (hOpbuf : MemoryWf t → memWf x_opbuf = true)
    (hFree : t.freeCtr ≤ x_freeCtr) : Evolves s
      (State.mk t.pending x_boot x_fuses x_pci x_tik x_pwr x_bdg x_memg x_nvm x_bas x_fab x_lks x_ful x_dbg x_doms
       x_slots x_mbds x_units x_recipe x_views x_pairs x_counters x_stretch x_latches x_locked x_sels x_commons
       x_commonsPoison x_commonsCounted x_acc x_opbuf x_freeFrames x_atLatch x_freeCtr x_out) := by
  obtain ⟨f1, f2, f3, f4, f5⟩ := hFuses
  refine ev_trans h ⟨rfl, fun w => ⟨hDoms w, hCommons w, hOpbuf w, (hBas w).1, (hBas w).2, ?_, hPci w⟩,
    ⟨le_of_eq f1.symm, le_of_eq f2.symm, ?_, hLks.1, hLks.2, hFree⟩⟩
  · show memWf x_fuses.spi = true
    rw [f5]; exact w.spi
  · show lifeRank t.fuses.life ≤ lifeRank t.fuses.pending →
      lifeRank x_fuses.life ≤ lifeRank x_fuses.pending ∧ lifeRank t.fuses.life ≤ lifeRank x_fuses.life
    rw [f3, f4]; exact fun x => ⟨x, Nat.le_refl _⟩

/-- New domains whose memories are canonical. -/
theorem ev_doms {s t : State} (h : Evolves s t) (m : List (Nat × Dom)) (hm : MemoryWf t → ∀ p ∈ m, DomMem p.2) :
    Evolves s { t with doms := m } :=
  ev_trans h ⟨rfl, fun w => ⟨hm w, w.commons, w.opbuf, w.image0, w.image1, w.spi, w.msix⟩, ⟨Nat.le_refl _, Nat.le_refl _, fun x => ⟨x, Nat.le_refl _⟩, Nat.le_refl _, Nat.le_refl _, Nat.le_refl _⟩⟩

theorem ev_slots {s t : State} (h : Evolves s t) (m : List (Nat × SlotEntry)) : Evolves s { t with slots := m } :=
  ev_same h rfl rfl rfl rfl rfl rfl rfl rfl rfl

theorem ev_commons {s t : State} (h : Evolves s t) (m : List Host.Cell) (hm : MemoryWf t → memWf m = true) :
    Evolves s { t with commons := m } :=
  ev_trans h ⟨rfl, fun w => ⟨w.doms, hm w, w.opbuf, w.image0, w.image1, w.spi, w.msix⟩, ⟨Nat.le_refl _, Nat.le_refl _, fun x => ⟨x, Nat.le_refl _⟩, Nat.le_refl _, Nat.le_refl _, Nat.le_refl _⟩⟩

theorem ev_opbuf {s t : State} (h : Evolves s t) (m : List Host.Cell) (hm : MemoryWf t → memWf m = true) :
    Evolves s { t with opbuf := m } :=
  ev_trans h ⟨rfl, fun w => ⟨w.doms, w.commons, hm w, w.image0, w.image1, w.spi, w.msix⟩, ⟨Nat.le_refl _, Nat.le_refl _, fun x => ⟨x, Nat.le_refl _⟩, Nat.le_refl _, Nat.le_refl _, Nat.le_refl _⟩⟩

theorem ev_bas {s t : State} (h : Evolves s t) (b : BasState)
    (h0 : MemoryWf t → memWf b.copy0.image = true ∧ memWf b.copy1.image = true) : Evolves s { t with bas := b } :=
  ev_trans h ⟨rfl, fun w => ⟨w.doms, w.commons, w.opbuf, (h0 w).1, (h0 w).2, w.spi, w.msix⟩, ⟨Nat.le_refl _, Nat.le_refl _, fun x => ⟨x, Nat.le_refl _⟩, Nat.le_refl _, Nat.le_refl _, Nat.le_refl _⟩⟩

theorem ev_pci {s t : State} (h : Evolves s t) (p : PciState) (h0 : MemoryWf t → memWf p.msixTable = true) :
    Evolves s { t with pci := p } :=
  ev_trans h ⟨rfl, fun w => ⟨w.doms, w.commons, w.opbuf, w.image0, w.image1, w.spi, h0 w⟩, ⟨Nat.le_refl _, Nat.le_refl _, fun x => ⟨x, Nat.le_refl _⟩, Nat.le_refl _, Nat.le_refl _, Nat.le_refl _⟩⟩

theorem ev_lks {s t : State} (h : Evolves s t) (l : LksState) (h0 : t.lks.draws ≤ l.draws) (h1 : t.lks.nonces ≤ l.nonces) :
    Evolves s { t with lks := l } :=
  ev_trans h ⟨rfl, fun w => ⟨w.doms, w.commons, w.opbuf, w.image0, w.image1, w.spi, w.msix⟩,
    ⟨Nat.le_refl _, Nat.le_refl _, fun x => ⟨x, Nat.le_refl _⟩, h0, h1, Nat.le_refl _⟩⟩

theorem ev_free {s t : State} (h : Evolves s t) (n : Nat) (hn : t.freeCtr ≤ n) : Evolves s { t with freeCtr := n } :=
  ev_trans h ⟨rfl, fun w => ⟨w.doms, w.commons, w.opbuf, w.image0, w.image1, w.spi, w.msix⟩,
    ⟨Nat.le_refl _, Nat.le_refl _, fun x => ⟨x, Nat.le_refl _⟩, Nat.le_refl _, Nat.le_refl _, hn⟩⟩

theorem ev_fuses {s t : State} (h : Evolves s t) (f : Fuses) (h0 : t.fuses.minSvn ≤ f.minSvn)
    (h1 : t.fuses.svnRaises ≤ f.svnRaises)
    (h2 : lifeRank t.fuses.life ≤ lifeRank t.fuses.pending →
      lifeRank f.life ≤ lifeRank f.pending ∧ lifeRank t.fuses.life ≤ lifeRank f.life)
    (h3 : memWf t.fuses.spi = true → memWf f.spi = true) : Evolves s { t with fuses := f } :=
  ev_trans h ⟨rfl, fun w => ⟨w.doms, w.commons, w.opbuf, w.image0, w.image1, h3 w.spi, w.msix⟩,
    ⟨h0, h1, h2, Nat.le_refl _, Nat.le_refl _, Nat.le_refl _⟩⟩

theorem evo_next {s t : State} (h : Evolves s t) : EvolvesOut s (.next t) := fun _ e => by cases e; exact h
theorem evo_refused (s : State) (r : Refusal) : EvolvesOut s (.refused r) := fun _ e => by cases e
theorem evo_fault (s : State) (r : Fault) : EvolvesOut s (.fault r) := fun _ e => by cases e

theorem ite_evolves {s a b : State} {c : Prop} [Decidable c] (ha : Evolves s a) (hb : Evolves s b) :
    Evolves s (if c then a else b) := by
  split
  · exact ha
  · exact hb

/-! ## Folds -/

/-- What every step of a fold keeps, the fold keeps. -/
theorem foldl_keeps {α β : Type} (P : β → Prop) (f : β → α → β) (hf : ∀ b a, P b → P (f b a)) :
    ∀ (l : List α) {b : β}, P b → P (l.foldl f b)
  | [], _, h => h
  | a :: r, _, h => foldl_keeps P f hf r (hf _ a h)

theorem ev_foldl {α : Type} {s : State} (f : State → α → State) (hf : ∀ t a, Evolves s t → Evolves s (f t a)) :
    ∀ (l : List α) {t : State}, Evolves s t → Evolves s (l.foldl f t)
  | [], _, h => h
  | a :: r, _, h => ev_foldl f hf r (hf _ a h)

theorem ev_foldl_fst {α β : Type} {s : State} (f : State × β → α → State × β)
    (hf : ∀ t a, Evolves s t.1 → Evolves s (f t a).1) :
    ∀ (l : List α) {t : State × β}, Evolves s t.1 → Evolves s (l.foldl f t).1
  | [], _, h => h
  | a :: r, _, h => ev_foldl_fst f hf r (hf _ a h)

theorem ev_foldl_snd {α β : Type} {s : State} (f : β × State → α → β × State)
    (hf : ∀ t a, Evolves s t.2 → Evolves s (f t a).2) :
    ∀ (l : List α) {t : β × State}, Evolves s t.2 → Evolves s (l.foldl f t).2
  | [], _, h => h
  | a :: r, _, h => ev_foldl_snd f hf r (hf _ a h)

theorem ev_foldl_fst_eq {α β : Type} {s : State} {f : State × β → α → State × β} {l : List α} {t : State × β} {u : State} {b : β}
    (hf : ∀ t a, Evolves s t.1 → Evolves s (f t a).1) (h : Evolves s t.1) (e : l.foldl f t = (u, b)) : Evolves s u := by
  have x := ev_foldl_fst f hf l h
  rw [e] at x
  exact x

theorem ev_foldl_snd_eq {α β : Type} {s : State} {f : β × State → α → β × State} {l : List α} {t : β × State} {u : State} {b : β}
    (hf : ∀ t a, Evolves s t.2 → Evolves s (f t a).2) (h : Evolves s t.2) (e : l.foldl f t = (b, u)) : Evolves s u := by
  have x := ev_foldl_snd f hf l h
  rw [e] at x
  exact x

/-! ## Accessors -/

theorem domMem_default : DomMem ({} : Dom) := ⟨rfl, rfl, rfl⟩

theorem domMem_dom {t : State} (w : MemoryWf t) (d : Nat) : DomMem (t.dom d) := by
  unfold State.dom
  cases h : mapGet t.doms d with
  | none => exact domMem_default
  | some x => obtain ⟨j, hj⟩ := mem_of_mapGet _ _ _ h; exact w.doms _ hj

/-- A record update of a domain that leaves its memories. -/
theorem domMem_mk {x : Dom}
    {x_phase : DomPhase} {x_rec_ : DomRecord} {x_ovh : Nat} {x_loan : Option (Nat × Nat × Nat)}
    {x_held : Option (DomRecord × Nat)} {x_created : Bool} {x_activeAt : Option Nat} {x_doneDue : Option (Nat × Nat)}
    {x_teardownAt : Option Nat} {x_requests : List (DomRequest × Nat)} {x_leaving : Option DomRecord}
    {x_scrubEnded : Bool} {x_scrubStartNs : Nat} {x_preempted : Bool} {x_saving : Bool} {x_restoring : Bool}
    {x_saveCommons : Bool} {x_preemptAt : Option (Nat × Bool)} {x_resumeAt : Option Nat}
    {x_savedAcc : List (Nat × W32)} {x_queue : QueueState} {x_nextOrder : Nat} {x_slabs : List Slab}
    {x_devSlabs : List DevSlabRec} {x_devNext : List DevSlabRec} {x_batches : List Batch}
    {x_lastOperand : List (Nat × Nat × List W64 × Bool)} {x_quota0 : Nat} {x_weight : Nat} {x_slots : Nat} {x_rtUj : Nat}
    {x_rtFirst : Nat} {x_rtUnits : Nat} {x_allow : Nat} {x_lagNs : Nat} {x_lagNext : Nat} {x_rate : Nat}
    {x_rateT : Nat} {x_energyFrac : Rat} {x_vec : VecDom} {x_var_ : VarDom} {x_upd : UpdDom} {x_kvp : KvpDom}
    {x_tir : TirDom} {x_col : ColDom} {x_keys : KeyDom} {x_poison : List Nat}
    (h : DomMem x) : DomMem
      (Dom.mk x_phase x_rec_ x_ovh x_loan x_held x_created x_activeAt x_doneDue x_teardownAt x_requests x_leaving
       x_scrubEnded x_scrubStartNs x_preempted x_saving x_restoring x_saveCommons x_preemptAt x_resumeAt x_savedAcc
       x.savedOpbuf x.savedCommons x_queue x_nextOrder x_slabs x_devSlabs x_devNext x_batches x_lastOperand x_quota0
       x_weight x_slots x_rtUj x_rtFirst x_rtUnits x_allow x_lagNs x_lagNext x_rate x_rateT x_energyFrac x_vec x_var_
       x_upd x_kvp x_tir x_col x_keys x.mem x_poison) := h

/-- A record update of any parts of a domain. -/
theorem domMem_mkAll
    {x_phase : DomPhase} {x_rec_ : DomRecord} {x_ovh : Nat} {x_loan : Option (Nat × Nat × Nat)}
    {x_held : Option (DomRecord × Nat)} {x_created : Bool} {x_activeAt : Option Nat} {x_doneDue : Option (Nat × Nat)}
    {x_teardownAt : Option Nat} {x_requests : List (DomRequest × Nat)} {x_leaving : Option DomRecord}
    {x_scrubEnded : Bool} {x_scrubStartNs : Nat} {x_preempted : Bool} {x_saving : Bool} {x_restoring : Bool}
    {x_saveCommons : Bool} {x_preemptAt : Option (Nat × Bool)} {x_resumeAt : Option Nat}
    {x_savedAcc : List (Nat × W32)} {x_savedOpbuf : List Host.Cell} {x_savedCommons : List Host.Cell}
    {x_queue : QueueState} {x_nextOrder : Nat} {x_slabs : List Slab} {x_devSlabs : List DevSlabRec}
    {x_devNext : List DevSlabRec} {x_batches : List Batch} {x_lastOperand : List (Nat × Nat × List W64 × Bool)}
    {x_quota0 : Nat} {x_weight : Nat} {x_slots : Nat} {x_rtUj : Nat} {x_rtFirst : Nat} {x_rtUnits : Nat}
    {x_allow : Nat} {x_lagNs : Nat} {x_lagNext : Nat} {x_rate : Nat} {x_rateT : Nat} {x_energyFrac : Rat}
    {x_vec : VecDom} {x_var_ : VarDom} {x_upd : UpdDom} {x_kvp : KvpDom} {x_tir : TirDom} {x_col : ColDom}
    {x_keys : KeyDom} {x_mem : List Host.Cell} {x_poison : List Nat}
    (h0 : memWf x_mem = true) (h1 : memWf x_savedOpbuf = true) (h2 : memWf x_savedCommons = true) : DomMem
      (Dom.mk x_phase x_rec_ x_ovh x_loan x_held x_created x_activeAt x_doneDue x_teardownAt x_requests x_leaving
       x_scrubEnded x_scrubStartNs x_preempted x_saving x_restoring x_saveCommons x_preemptAt x_resumeAt x_savedAcc
       x_savedOpbuf x_savedCommons x_queue x_nextOrder x_slabs x_devSlabs x_devNext x_batches x_lastOperand x_quota0
       x_weight x_slots x_rtUj x_rtFirst x_rtUnits x_allow x_lagNs x_lagNext x_rate x_rateT x_energyFrac x_vec x_var_
       x_upd x_kvp x_tir x_col x_keys x_mem x_poison) :=
  ⟨h0, h1, h2⟩

theorem domMem_mem {x : Dom} (h : DomMem x) : memWf x.mem = true := h.1
theorem domMem_savedOpbuf {x : Dom} (h : DomMem x) : memWf x.savedOpbuf = true := h.2.1
theorem domMem_savedCommons {x : Dom} (h : DomMem x) : memWf x.savedCommons = true := h.2.2

theorem domMem_updVar {x : Dom} (h : DomMem x) (f : VarDom → VarDom) : DomMem (x.updVar f) := h
theorem domMem_updTir {x : Dom} (h : DomMem x) (f : TirDom → TirDom) : DomMem (x.updTir f) := h
theorem domMem_updKvp {x : Dom} (h : DomMem x) (f : KvpDom → KvpDom) : DomMem (x.updKvp f) := h
theorem domMem_updUpd {x : Dom} (h : DomMem x) (f : UpdDom → UpdDom) : DomMem (x.updUpd f) := h
theorem domMem_updVec {x : Dom} (h : DomMem x) (f : VecDom → VecDom) : DomMem (x.updVec f) := h
theorem domMem_updCol {x : Dom} (h : DomMem x) (f : ColDom → ColDom) : DomMem (x.updCol f) := h
theorem domMem_updKeys {x : Dom} (h : DomMem x) (f : KeyDom → KeyDom) : DomMem (x.updKeys f) := h
theorem domMem_updQueue {x : Dom} (h : DomMem x) (f : QueueState → QueueState) : DomMem (x.updQueue f) := h

theorem ev_putDom {s t : State} (h : Evolves s t) (d : Nat) (x : Dom) (hx : MemoryWf t → DomMem x) : Evolves s (t.putDom d x) :=
  ev_doms h _ (fun w p hp => (mem_mapSet _ _ _ _ hp).elim (fun e => e ▸ hx w) (w.doms p))

theorem ev_updDom {s t : State} (h : Evolves s t) (d : Nat) (f : Dom → Dom) (hf : ∀ x, DomMem x → DomMem (f x)) :
    Evolves s (t.updDom d f) := ev_putDom h d _ (fun w => hf _ (domMem_dom w d))

theorem ev_putSlot {s t : State} (h : Evolves s t) (k : Nat) (x : SlotEntry) : Evolves s (t.putSlot k x) := ev_slots h _

theorem ev_updSlot {s t : State} (h : Evolves s t) (k : Nat) (f : SlotEntry → SlotEntry) : Evolves s (t.updSlot k f) :=
  ev_putSlot h k _

theorem ev_putMbd {s t : State} (h : Evolves s t) (k : Nat) (x : StackState) : Evolves s (t.putMbd k x) :=
  ev_same h rfl rfl rfl rfl rfl rfl rfl rfl rfl

theorem ev_updMbd {s t : State} (h : Evolves s t) (k : Nat) (f : StackState → StackState) : Evolves s (t.updMbd k f) :=
  ev_putMbd h k _

theorem ev_putPort {s t : State} (h : Evolves s t) (p : Nat) (x : PortStateRec) : Evolves s (t.putPort p x) :=
  ev_same h rfl rfl rfl rfl rfl rfl rfl rfl rfl

theorem ev_updPort {s t : State} (h : Evolves s t) (p : Nat) (f : PortStateRec → PortStateRec) : Evolves s (t.updPort p f) :=
  ev_putPort h p _

theorem ev_updUnit {s t : State} (h : Evolves s t) (u : Nat) (f : ArgUnit → ArgUnit) : Evolves s (t.updUnit u f) :=
  ev_same h rfl rfl rfl rfl rfl rfl rfl rfl rfl

theorem ev_putView {s t : State} (h : Evolves s t) (c p : Nat) (x : PageView) : Evolves s (t.putView c p x) :=
  ev_same h rfl rfl rfl rfl rfl rfl rfl rfl rfl

theorem ev_putPair {s t : State} (h : Evolves s t) (c p : Nat) (x : CmdPair) : Evolves s (t.putPair c p x) :=
  ev_same h rfl rfl rfl rfl rfl rfl rfl rfl rfl

theorem imageWf_copy {t : State} (w : MemoryWf t) (k : Nat) : memWf (t.copy k).image = true := by
  unfold State.copy; split
  · exact w.image0
  · exact w.image1

theorem ev_putCopy {s t : State} (h : Evolves s t) (k : Nat) (x : CopySlot) (hx : MemoryWf t → memWf x.image = true) :
    Evolves s (t.putCopy k x) := by
  unfold State.putCopy; split
  · exact ev_bas h _ (fun w => ⟨hx w, w.image1⟩)
  · exact ev_bas h _ (fun w => ⟨w.image0, hx w⟩)

theorem ev_updCopy {s t : State} (h : Evolves s t) (k : Nat) (f : CopySlot → CopySlot)
    (hf : ∀ x, memWf x.image = true → memWf (f x).image = true) : Evolves s (t.updCopy k f) :=
  ev_putCopy h k _ (fun w => hf _ (imageWf_copy w k))

theorem ev_updTik {s t : State} (h : Evolves s t) (f : TikState → TikState) : Evolves s (t.updTik f) :=
  ev_same h rfl rfl rfl rfl rfl rfl rfl rfl rfl
theorem ev_updPwr {s t : State} (h : Evolves s t) (f : PowerState → PowerState) : Evolves s (t.updPwr f) :=
  ev_same h rfl rfl rfl rfl rfl rfl rfl rfl rfl
theorem ev_updBoot {s t : State} (h : Evolves s t) (f : BootState → BootState) : Evolves s (t.updBoot f) :=
  ev_same h rfl rfl rfl rfl rfl rfl rfl rfl rfl
theorem ev_updFab {s t : State} (h : Evolves s t) (f : FabState → FabState) : Evolves s (t.updFab f) :=
  ev_same h rfl rfl rfl rfl rfl rfl rfl rfl rfl
theorem ev_updFul {s t : State} (h : Evolves s t) (f : FulState → FulState) : Evolves s (t.updFul f) :=
  ev_same h rfl rfl rfl rfl rfl rfl rfl rfl rfl
theorem ev_updMemg {s t : State} (h : Evolves s t) (f : MemGlobal → MemGlobal) : Evolves s (t.updMemg f) :=
  ev_same h rfl rfl rfl rfl rfl rfl rfl rfl rfl
theorem ev_updBdg {s t : State} (h : Evolves s t) (f : BdgState → BdgState) : Evolves s (t.updBdg f) :=
  ev_same h rfl rfl rfl rfl rfl rfl rfl rfl rfl
theorem ev_updDbg {s t : State} (h : Evolves s t) (f : DbgState → DbgState) : Evolves s (t.updDbg f) :=
  ev_same h rfl rfl rfl rfl rfl rfl rfl rfl rfl
theorem ev_updPci {s t : State} (h : Evolves s t) (f : PciState → PciState)
    (hf : ∀ p, memWf p.msixTable = true → memWf (f p).msixTable = true) : Evolves s (t.updPci f) :=
  ev_pci h _ (fun w => hf _ w.msix)
theorem ev_updLks {s t : State} (h : Evolves s t) (f : LksState → LksState) (h0 : ∀ l, l.draws ≤ (f l).draws)
    (h1 : ∀ l, l.nonces ≤ (f l).nonces) : Evolves s (t.updLks f) := ev_lks h _ (h0 _) (h1 _)
theorem ev_updBas {s t : State} (h : Evolves s t) (f : BasState → BasState)
    (h0 : ∀ b, memWf b.copy0.image = true → memWf b.copy1.image = true →
      memWf (f b).copy0.image = true ∧ memWf (f b).copy1.image = true) : Evolves s (t.updBas f) :=
  ev_bas h _ (fun w => h0 _ w.image0 w.image1)
theorem ev_updFuses {s t : State} (h : Evolves s t) (f : Fuses → Fuses) (h0 : t.fuses.minSvn ≤ (f t.fuses).minSvn)
    (h1 : t.fuses.svnRaises ≤ (f t.fuses).svnRaises)
    (h2 : lifeRank t.fuses.life ≤ lifeRank t.fuses.pending →
      lifeRank (f t.fuses).life ≤ lifeRank (f t.fuses).pending ∧ lifeRank t.fuses.life ≤ lifeRank (f t.fuses).life)
    (h3 : memWf t.fuses.spi = true → memWf (f t.fuses).spi = true) : Evolves s (t.updFuses f) := ev_fuses h _ h0 h1 h2 h3

theorem ev_bump {s t : State} (h : Evolves s t) (a b c n : Nat) : Evolves s (t.bump a b c n) :=
  ev_same h rfl rfl rfl rfl rfl rfl rfl rfl rfl
theorem ev_addStretch {s t : State} (h : Evolves s t) (a b n : Nat) : Evolves s (t.addStretch a b n) :=
  ev_same h rfl rfl rfl rfl rfl rfl rfl rfl rfl
theorem ev_emit {s t : State} (h : Evolves s t) (o : Output) : Evolves s (t.emit o) :=
  ev_same h rfl rfl rfl rfl rfl rfl rfl rfl rfl
theorem ev_defer {s t : State} (h : Evolves s t) (a : LatchAct) : Evolves s (t.defer a) :=
  ev_same h rfl rfl rfl rfl rfl rfl rfl rfl rfl

theorem ev_takeFree {s t : State} (h : Evolves s t) : Evolves s t.takeFree.2 := ev_free h _ (Nat.le_succ _)
theorem ev_takeFree_eq {s t u : State} {n : Nat} (h : Evolves s t) (e : t.takeFree = (n, u)) : Evolves s u := by
  have := ev_takeFree h; rw [e] at this; exact this
theorem ev_takeDraw {s t : State} (h : Evolves s t) : Evolves s t.takeDraw.2 :=
  ev_lks h _ (Nat.le_succ _) (Nat.le_refl _)
theorem ev_takeDraw_eq {s t u : State} {n : Nat} (h : Evolves s t) (e : t.takeDraw = (n, u)) : Evolves s u := by
  have := ev_takeDraw h; rw [e] at this; exact this

/-! ## Side conditions of the record updates -/

theorem memWf_nil : memWf [] = true := rfl
theorem images_wf {t : State}
    (w : MemoryWf t) : memWf t.bas.copy0.image = true ∧ memWf t.bas.copy1.image = true := ⟨w.image0, w.image1⟩
theorem images_keep (b : BasState) (h0 : memWf b.copy0.image = true) (h1 : memWf b.copy1.image = true) :
    memWf b.copy0.image = true ∧ memWf b.copy1.image = true := ⟨h0, h1⟩
theorem imageWf_copy' {t : State} (k : Nat) (w : MemoryWf t) : memWf (t.copy k).image = true := imageWf_copy w k
theorem fuses_same (f : Fuses) : f.minSvn = f.minSvn ∧ f.svnRaises = f.svnRaises ∧ f.life = f.life ∧ f.pending = f.pending ∧
    f.spi = f.spi := ⟨rfl, rfl, rfl, rfl, rfl⟩
theorem lks_same (l : LksState) : l.draws ≤ l.draws ∧ l.nonces ≤ l.nonces := ⟨Nat.le_refl _, Nat.le_refl _⟩

theorem doms_map {t : State} (f : Nat × Dom → Nat × Dom) (hf : ∀ p, DomMem p.2 → DomMem (f p).2) :
    MemoryWf t → ∀ p ∈ t.doms.map f, DomMem p.2 := fun w p hp => by
  obtain ⟨q, hq, e⟩ := List.mem_map.1 hp
  rw [← e]
  exact hf q (w.doms q hq)

theorem doms_filter {t : State} (f : Nat × Dom → Bool) : MemoryWf t → ∀ p ∈ t.doms.filter f, DomMem p.2 :=
  fun w p hp => w.doms p (List.mem_filter.1 hp).1

/-- A change of the fuses that leaves what the relation reads. -/
theorem ev_updFusesS {s t : State} (h : Evolves s t) (f : Fuses → Fuses)
    (hf : ∀ x, (f x).minSvn = x.minSvn ∧ (f x).svnRaises = x.svnRaises ∧ (f x).life = x.life ∧ (f x).pending = x.pending ∧
      (f x).spi = x.spi) : Evolves s (t.updFuses f) := by
  obtain ⟨a, b, c, d, e⟩ := hf t.fuses
  refine ev_updFuses h f (le_of_eq a.symm) (le_of_eq b.symm) ?_ ?_
  · rw [c, d]; exact fun x => ⟨x, Nat.le_refl _⟩
  · rw [e]; exact id

/-! ## Events and the trace (Machine/Flags.lean) -/

theorem ev_msix {s t : State} (h : Evolves s t) (fn vec : Nat) : Evolves s (t.msix fn vec) := by
  unfold State.msix
  split
  · split
    · exact ev_emit h _
    · exact ev_pci h _ (fun w => w.msix)
  · exact h

theorem ev_setEvent {s t : State} (h : Evolves s t) (c p : Nat) (b : W32) : Evolves s (t.setEvent c p b) := by
  unfold State.setEvent
  simp only
  split
  · split
    · exact ev_putView h _ _ _
    · exact ev_msix (ev_putView h _ _ _) _ _
  · exact ev_putView h _ _ _

theorem ev_traceWrite {s t : State} (h : Evolves s t) (code type inst d : Nat) (device : Bool) :
    Evolves s (t.traceWrite code type inst d device).2 := by
  unfold State.traceWrite
  have h1 : ∀ g : DbgState, Evolves s { t with dbg := g } := fun _ => ev_same h rfl rfl rfl rfl rfl rfl rfl rfl rfl
  simp only
  split
  · exact ev_bump (h1 _) _ _ _ _
  · exact ev_updDom (ev_bump (h1 _) _ _ _ _) _ _ (fun x hx => ⟨memPut_wf _ _ _ hx.1, hx.2⟩)

theorem ev_trace {s t : State} (h : Evolves s t) (code type inst d : Nat) (device : Bool) :
    Evolves s (t.trace code type inst d device) := by
  unfold State.trace
  split
  · have h1 := ev_traceWrite h code type inst d device
    generalize e : t.traceWrite code type inst d device = r at h1 ⊢
    obtain ⟨w, u⟩ := r
    simp only
    split
    · split
      · exact ev_traceWrite (ev_setEvent h1 _ _ _) _ _ _ _ _
      · exact ev_setEvent h1 _ _ _
    · exact h1
  · exact h

theorem ev_raiseDev {s t : State} (h : Evolves s t) (p b : Nat) : Evolves s (t.raiseDev p b) :=
  ev_trace (ev_foldl _ (fun _ _ h => ev_setEvent h _ _ _) _ h) _ _ _ _ _

theorem ev_raiseDom {s t : State} (h : Evolves s t) (p b d : Nat) : Evolves s (t.raiseDom p b d) := by
  unfold State.raiseDom
  split
  · exact ev_trace (ev_foldl _ (fun _ _ h => ev_setEvent h _ _ _) _ h) _ _ _ _ _
  · exact h

theorem ev_raiseCopy {s t : State} (h : Evolves s t) (p b c : Nat) : Evolves s (t.raiseCopy p b c) :=
  ev_trace (ev_setEvent h _ _ _) _ _ _ _ _

theorem ev_raiseUnit {s t : State} (h : Evolves s t) (u b : Nat) : Evolves s (t.raiseUnit u b) :=
  ev_trace (ev_foldl _ (fun _ _ h => ev_setEvent h _ _ _) _ h) _ _ _ _ _

end Sys2Proof.Laws
end

