-- ==== Sys2Proof/Laws/EvolveOps.lean ====
section
/-! SUPPORT. The operations of Machine/Ops.lean evolve the state: from Evolves s₀ s, Evolves s₀ of what the operation makes of s. -/

namespace Sys2Proof.Laws

open Sys2Proof.Machine Sys2Proof.Safety

theorem domMem_putEntry {x : Dom} (h : DomMem x) (p : Nat) (e : PageEntry) : DomMem (x.putEntry p e) := h

theorem domMem_wipePage {x : Dom} (h : DomMem x) (p : Nat) (e : PageEntry) : DomMem (x.wipePage p e) :=
  ⟨memClear_wf _ _ _ h.1, h.2⟩

theorem domMem_freeFrame {x : Dom} (h : DomMem x) (p : Nat) : DomMem (Dom.freeFrame x p) := by
  unfold Dom.freeFrame
  repeat' (first
    | with_reducible assumption
    | split
    | with_reducible apply domMem_mk)

theorem ev_atTime {s₀ s : State} (h₀ : Evolves s₀ s) (nowNs : Nat) :
    Evolves s₀ (State.atTime s nowNs) := by
  unfold State.atTime
  repeat' (first
    | with_reducible assumption
    | (extract_lets +onlyGivenNames x; ((have y : Nat := x); clear y; clear_value x))
    | with_reducible apply ev_updFusesS
    | with_reducible apply ev_updTik
    | with_reducible exact fuses_same _
    | dsimp only
    | intro)

theorem ev_joinTime {s₀ s : State} (h₀ : Evolves s₀ s) (nowNs : Nat) :
    Evolves s₀ (State.joinTime s nowNs) := by
  unfold State.joinTime
  repeat' (first
    | with_reducible assumption
    | with_reducible apply ev_updTik)

theorem ev_pickRuns {s₀ s : State} (h₀ : Evolves s₀ s) (n : Nat) (free : List (Nat × Nat)) :
    Evolves s₀ (State.pickRuns s n free).2 := by
  unfold State.pickRuns
  repeat' (first
    | with_reducible assumption
    | (extract_lets +onlyGivenNames x; first
        | (refine (fun (hx : Evolves s₀ x) => ?_) ?_; (on_goal 1 => clear_value x); (on_goal 2 => subst x))
        | (refine (fun (hx : Evolves s₀ x.1) => ?_) ?_; (on_goal 1 => clear_value x); (on_goal 2 => subst x))
        | (refine (fun (hx : Evolves s₀ x.2) => ?_) ?_; (on_goal 1 => clear_value x); (on_goal 2 => subst x))
        | ((have y : Nat := x); clear y; clear_value x)
        | ((have y : Bool := x); clear y; clear_value x)
        | ((have y : Hdr := x); clear y; clear_value x)
        | ((have y : Slab := x); clear y; clear_value x)
        | ((have y : List Nat := x); clear y; clear_value x)
        | ((have y : Rat := x); clear y; clear_value x)
        | subst x)
    | with_reducible apply ev_takeFree)
theorem ev_pickRuns_eq {s₀ s : State} (h₀ : Evolves s₀ s) {n : Nat} {free : List (Nat × Nat)} {r₀ : _} {u₀ : State}
    (e₀ : State.pickRuns s n free = (r₀, u₀)) : Evolves s₀ u₀ := by
  have x := ev_pickRuns h₀ n free
  rw [e₀] at x
  exact x

theorem ev_eachDom {s₀ s : State} (h₀ : Evolves s₀ s) (f : State → Nat → State) (hf : ∀ t d, Evolves s₀ t → Evolves s₀ (f t d)) :
    Evolves s₀ (s.eachDom f) := ev_foldl f hf _ h₀

end Sys2Proof.Laws
end

