-- ==== Sys2Proof/Laws/EvolveCmd.lean ====
section
/-! SUPPORT. The operations of Machine/Cmd.lean evolve the state: from Evolves s₀ s, Evolves s₀ of what the operation makes of s. -/

namespace Sys2Proof.Laws

open Sys2Proof.Machine Sys2Proof.Safety

theorem ev_postResult {s₀ s : State} (h₀ : Evolves s₀ s) (copy : Nat) (page : Nat) (r : Nat) :
    Evolves s₀ (State.postResult s copy page r) := by
  unfold State.postResult
  repeat' (first
    | with_reducible assumption
    | (extract_lets +onlyGivenNames x; first
        | (refine (fun (hx : Evolves s₀ x) => ?_) ?_; (on_goal 1 => clear_value x); (on_goal 2 => subst x))
        | subst x)
    | with_reducible apply ev_putPair
    | with_reducible apply ev_raiseCopy
    | split)

theorem ev_runCmd {s₀ s : State} (h₀ : Evolves s₀ s) (v : View) (page : Nat) (posted : Bool) (f : State → State × Nat)
    (hf : Evolves s₀ (f s).1) : Evolves s₀ (s.runCmd v page posted f) := by
  unfold State.runCmd
  split
  · exact h₀
  · dsimp only
    split
    · exact ev_raiseCopy h₀ _ _ _
    · exact ev_postResult hf _ _ _

theorem ev_putArg {s₀ s : State} (h₀ : Evolves s₀ s) (copy : Nat) (page : Nat) (i : Nat) (w : W64) :
    Evolves s₀ (State.putArg s copy page i w) := by
  unfold State.putArg
  repeat' (first
    | with_reducible assumption
    | (extract_lets +onlyGivenNames x; subst x)
    | with_reducible apply ev_putPair)

end Sys2Proof.Laws
end

