-- ==== Sys2Proof/Laws/Frame.lean ====
section
/-! SUPPORT. What each operation may change (Safety.Frame): the relation is a preorder, and the named operations and events of Machine/Ops.lean and Machine/Flags.lean change only the parts that each lemma lists. Each lemma says: if a frame holds from s₀ to s, it holds from s₀ to what the operation makes of s, provided the listed parts may change. -/

namespace Sys2Proof.Laws

open Sys2Proof.Machine Sys2Proof.Safety

theorem sub_trans {l m n : List Part} (h : ∀ p ∈ m, p ∈ n) (h' : ∀ p ∈ l, p ∈ m) : ∀ p ∈ l, p ∈ n := fun p hp => h p (h' p hp)

theorem kept_refl (p : Part) (s : State) : p.kept s s := by
  cases p <;> first | rfl | exact ⟨rfl, rfl⟩ | exact (fun _ _ _ => rfl) | exact (fun _ => rfl) |
    exact fun _ => ⟨rfl, rfl, rfl⟩ | (intro d; simp only [Part.keptDom]; simp)

theorem keptDom_refl (p : Part) (x : Dom) : p.keptDom x x := by
  cases p <;> simp [Part.keptDom]

theorem keptDom_trans {p : Part} {x y z : Dom} (a : p.keptDom x y) (b : p.keptDom y z) : p.keptDom x z := by
  cases p <;> simp only [Part.keptDom] at a b ⊢ <;> simp_all

theorem inRing_congr {s t : State} (h : t.dbg.traceEn = s.dbg.traceEn ∧ t.dbg.traceBase = s.dbg.traceBase ∧
    t.dbg.traceLog2 = s.dbg.traceLog2) (d a : Nat) : inRing t d a ↔ inRing s d a := by
  unfold inRing; rw [h.1, h.2.1, h.2.2]

theorem kept_trans {p : Part} {s t u : State} (h : t.dbg.traceEn = s.dbg.traceEn ∧ t.dbg.traceBase = s.dbg.traceBase ∧
    t.dbg.traceLog2 = s.dbg.traceLog2) (a : p.kept s t) (b : p.kept t u) : p.kept s u := by
  by_cases e : p = .domMem
  · subst e
    exact fun d x hx => (b d x (fun k => hx ((inRing_congr h d x).1 k))).trans (a d x hx)
  · cases p <;> first | exact absurd rfl e | exact Eq.trans b a | exact ⟨b.1.trans a.1, b.2.trans a.2⟩ |
      exact fun d => keptDom_trans (a d) (b d)

theorem fr_refl (L : List Part) (s : State) : Frame L s s := ⟨rfl, ⟨rfl, rfl, rfl⟩, fun p _ => kept_refl p s⟩

theorem fr_trans {L : List Part} {s t u : State} (a : Frame L s t) (b : Frame L t u) : Frame L s u :=
  ⟨b.pending.trans a.pending, ⟨b.ring.1.trans a.ring.1, b.ring.2.1.trans a.ring.2.1, b.ring.2.2.trans a.ring.2.2⟩,
   fun p hp => kept_trans a.ring (a.kept p hp) (b.kept p hp)⟩

theorem fr_mono {L M : List Part} {s t : State} (h : Frame L s t) (hL : ∀ p ∈ L, p ∈ M) : Frame M s t :=
  ⟨h.pending, h.ring, fun p hp => h.kept p (fun x => hp (hL p x))⟩

theorem fro_next {L : List Part} {s t : State} (h : Frame L s t) : FrameOut L s (.next t) := fun _ e => by cases e; exact h
theorem fro_refused (L : List Part) (s : State) (r : Refusal) : FrameOut L s (.refused r) := fun _ e => by cases e
theorem fro_fault (L : List Part) (s : State) (r : Fault) : FrameOut L s (.fault r) := fun _ e => by cases e

theorem ite_frame {L : List Part} {s a b : State} {c : Prop} [Decidable c] (ha : Frame L s a) (hb : Frame L s b) :
    Frame L s (if c then a else b) := by
  split
  · exact ha
  · exact hb

theorem dfr_refl (L : List Part) (x : Dom) : DomFrame L x x := fun p _ => keptDom_refl p x

theorem dfr_trans {L : List Part} {x y z : Dom} (a : DomFrame L x y) (b : DomFrame L y z) : DomFrame L x z :=
  fun p hp => keptDom_trans (a p hp) (b p hp)

/-- A record update of the parts of the state other than the domains. -/
theorem fr_mk {L : List Part} {s t : State}
    {x_boot : BootState} {x_fuses : Fuses} {x_pci : PciState} {x_tik : TikState} {x_pwr : PowerState}
    {x_bdg : BdgState} {x_memg : MemGlobal} {x_nvm : NvmState} {x_bas : BasState} {x_fab : FabState}
    {x_lks : LksState} {x_ful : FulState} {x_dbg : DbgState} {x_slots : List (Nat × SlotEntry) }
    {x_mbds : List (Nat × StackState) } {x_units : List (Nat × ArgUnit) } {x_recipe : List Recipe}
    {x_views : List (Nat × PageView) } {x_pairs : List (Nat × CmdPair) } {x_counters : List (Nat × W64) }
    {x_stretch : List (Nat × W64) } {x_latches : List (Nat × W32) } {x_locked : List Nat} {x_sels : List (Nat × Nat) }
    {x_commons : List Host.Cell} {x_commonsPoison : List Nat} {x_commonsCounted : List Nat} {x_acc : List (Nat × W32)
    } {x_opbuf : List Host.Cell} {x_freeFrames : Nat} {x_atLatch : List LatchAct} {x_freeCtr : Nat}
    {x_out : List Output}
    (h : Frame L s t)
    (h_boot : .boot ∈ L ∨ x_boot = t.boot) (h_fuses : .fuses ∈ L ∨ x_fuses = t.fuses)
    (h_tik : .tik ∈ L ∨ x_tik = t.tik) (h_pwr : .pwr ∈ L ∨ x_pwr = t.pwr) (h_bdg : .bdg ∈ L ∨ x_bdg = t.bdg)
    (h_memg : .memg ∈ L ∨ x_memg = t.memg) (h_nvm : .nvm ∈ L ∨ x_nvm = t.nvm) (h_bas : .bas ∈ L ∨ x_bas = t.bas)
    (h_fab : .fab ∈ L ∨ x_fab = t.fab) (h_lks : .lks ∈ L ∨ x_lks = t.lks) (h_ful : .ful ∈ L ∨ x_ful = t.ful)
    (h_slots : .slots ∈ L ∨ x_slots = t.slots) (h_mbds : .mbds ∈ L ∨ x_mbds = t.mbds)
    (h_units : .units ∈ L ∨ x_units = t.units) (h_recipe : .recipe ∈ L ∨ x_recipe = t.recipe)
    (h_views : .views ∈ L ∨ x_views = t.views) (h_pairs : .pairs ∈ L ∨ x_pairs = t.pairs)
    (h_counters : .counters ∈ L ∨ x_counters = t.counters) (h_stretch : .stretch ∈ L ∨ x_stretch = t.stretch)
    (h_latches : .latches ∈ L ∨ x_latches = t.latches) (h_locked : .locked ∈ L ∨ x_locked = t.locked)
    (h_sels : .sels ∈ L ∨ x_sels = t.sels) (h_commons : .commons ∈ L ∨ x_commons = t.commons)
    (h_acc : .acc ∈ L ∨ x_acc = t.acc) (h_opbuf : .opbuf ∈ L ∨ x_opbuf = t.opbuf)
    (h_freeFrames : .freeFrames ∈ L ∨ x_freeFrames = t.freeFrames) (h_atLatch : .atLatch ∈ L ∨ x_atLatch = t.atLatch)
    (h_freeCtr : .freeCtr ∈ L ∨ x_freeCtr = t.freeCtr) (h_out : .out ∈ L ∨ x_out = t.out)
    (h_pci : .pci ∈ L ∨ { x_pci with pendingBits := [] } = { t.pci with pendingBits := [] } )
    (h_pend : .pciPending ∈ L ∨ x_pci.pendingBits = t.pci.pendingBits)
    (h_dbg : .dbg ∈ L ∨ { x_dbg with traceHead := 0, traced := [] } = { t.dbg with traceHead := 0, traced := [] } )
    (h_head : .traceHead ∈ L ∨ (x_dbg.traceHead = t.dbg.traceHead ∧ x_dbg.traced = t.dbg.traced))
    (h_poison : .commonsPoison ∈ L ∨ (x_commonsPoison = t.commonsPoison ∧ x_commonsCounted = t.commonsCounted) )
    (h_ring : x_dbg.traceEn = t.dbg.traceEn ∧ x_dbg.traceBase = t.dbg.traceBase ∧ x_dbg.traceLog2 = t.dbg.traceLog2) : Frame L s
      (State.mk t.pending x_boot x_fuses x_pci x_tik x_pwr x_bdg x_memg x_nvm x_bas x_fab x_lks x_ful x_dbg t.doms
       x_slots x_mbds x_units x_recipe x_views x_pairs x_counters x_stretch x_latches x_locked x_sels x_commons
       x_commonsPoison x_commonsCounted x_acc x_opbuf x_freeFrames x_atLatch x_freeCtr x_out) := by
  refine fr_trans h ⟨rfl, h_ring, fun p hp => ?_⟩
  cases p
  · exact (h_boot).resolve_left hp
  · exact (h_fuses).resolve_left hp
  · exact (h_pci).resolve_left hp
  · exact (h_pend).resolve_left hp
  · exact (h_tik).resolve_left hp
  · exact (h_pwr).resolve_left hp
  · exact (h_bdg).resolve_left hp
  · exact (h_memg).resolve_left hp
  · exact (h_nvm).resolve_left hp
  · exact (h_bas).resolve_left hp
  · exact (h_fab).resolve_left hp
  · exact (h_lks).resolve_left hp
  · exact (h_ful).resolve_left hp
  · exact (h_dbg).resolve_left hp
  · exact (h_head).resolve_left hp
  · exact (h_slots).resolve_left hp
  · exact (h_mbds).resolve_left hp
  · exact (h_units).resolve_left hp
  · exact (h_recipe).resolve_left hp
  · exact (h_views).resolve_left hp
  · exact (h_pairs).resolve_left hp
  · exact (h_counters).resolve_left hp
  · exact (h_stretch).resolve_left hp
  · exact (h_latches).resolve_left hp
  · exact (h_locked).resolve_left hp
  · exact (h_sels).resolve_left hp
  · exact (h_commons).resolve_left hp
  · exact (h_poison).resolve_left hp
  · exact (h_acc).resolve_left hp
  · exact (h_opbuf).resolve_left hp
  · exact (h_freeFrames).resolve_left hp
  · exact (h_atLatch).resolve_left hp
  · exact (h_freeCtr).resolve_left hp
  · exact (h_out).resolve_left hp
  · exact fun d => keptDom_refl _ (t.dom d)
  · exact fun d => keptDom_refl _ (t.dom d)
  · exact fun d => keptDom_refl _ (t.dom d)
  · exact fun d => keptDom_refl _ (t.dom d)
  · exact fun d => keptDom_refl _ (t.dom d)
  · exact fun d => keptDom_refl _ (t.dom d)
  · exact fun d => keptDom_refl _ (t.dom d)
  · exact fun d => keptDom_refl _ (t.dom d)
  · exact fun d => keptDom_refl _ (t.dom d)
  · exact fun d => keptDom_refl _ (t.dom d)
  · exact fun d => keptDom_refl _ (t.dom d)
  · exact fun d => keptDom_refl _ (t.dom d)
  · exact fun d => keptDom_refl _ (t.dom d)
  · exact fun _ _ _ => rfl
  · exact fun d => keptDom_refl _ (t.dom d)

/-- A record update of parts of a domain. -/
theorem dfr_mk {L : List Part} {x : Dom}
    {x_phase : DomPhase} {x_rec_ : DomRecord} {x_ovh : Nat} {x_loan : Option (Nat × Nat × Nat) }
    {x_held : Option (DomRecord × Nat) } {x_created : Bool} {x_activeAt : Option Nat} {x_doneDue : Option (Nat × Nat)
    } {x_teardownAt : Option Nat} {x_requests : List (DomRequest × Nat) } {x_leaving : Option DomRecord}
    {x_scrubEnded : Bool} {x_scrubStartNs : Nat} {x_preempted : Bool} {x_saving : Bool} {x_restoring : Bool}
    {x_saveCommons : Bool} {x_preemptAt : Option (Nat × Bool) } {x_resumeAt : Option Nat}
    {x_savedAcc : List (Nat × W32) } {x_savedOpbuf : List Host.Cell} {x_savedCommons : List Host.Cell}
    {x_queue : QueueState} {x_nextOrder : Nat} {x_slabs : List Slab} {x_devSlabs : List DevSlabRec}
    {x_devNext : List DevSlabRec} {x_batches : List Batch} {x_lastOperand : List (Nat × Nat × List W64 × Bool)}
    {x_quota0 : Nat} {x_weight : Nat} {x_slots : Nat} {x_rtUj : Nat} {x_rtFirst : Nat} {x_rtUnits : Nat}
    {x_allow : Nat} {x_lagNs : Nat} {x_lagNext : Nat} {x_rate : Nat} {x_rateT : Nat} {x_energyFrac : Rat}
    {x_vec : VecDom} {x_var_ : VarDom} {x_upd : UpdDom} {x_kvp : KvpDom} {x_tir : TirDom} {x_col : ColDom}
    {x_keys : KeyDom} {x_mem : List Host.Cell} {x_poison : List Nat}
    (h_domLife : .domLife ∈ L ∨ (x_phase = x.phase ∧ x_held = x.held ∧ x_created = x.created ∧ x_activeAt = x.activeAt ∧ x_doneDue = x.doneDue ∧ x_teardownAt = x.teardownAt ∧ x_requests = x.requests ∧ x_leaving = x.leaving ∧ x_scrubEnded = x.scrubEnded ∧ x_scrubStartNs = x.scrubStartNs))
    (h_domRecord : .domRecord ∈ L ∨ (x_rec_ = x.rec_ ∧ x_ovh = x.ovh ∧ x_loan = x.loan))
    (h_domPreempt : .domPreempt ∈ L ∨ (x_preempted = x.preempted ∧ x_saving = x.saving ∧ x_restoring = x.restoring ∧ x_saveCommons = x.saveCommons ∧ x_preemptAt = x.preemptAt ∧ x_resumeAt = x.resumeAt ∧ x_savedAcc = x.savedAcc ∧ x_savedOpbuf = x.savedOpbuf ∧ x_savedCommons = x.savedCommons))
    (h_domQueue : .domQueue ∈ L ∨ x_queue = x.queue)
    (h_domSlabs : .domSlabs ∈ L ∨ (x_nextOrder = x.nextOrder ∧ x_slabs = x.slabs ∧ x_devSlabs = x.devSlabs ∧ x_devNext = x.devNext ∧ x_batches = x.batches ∧ x_lastOperand = x.lastOperand))
    (h_domSched : .domSched ∈ L ∨ (x_quota0 = x.quota0 ∧ x_weight = x.weight ∧ x_slots = x.slots ∧ x_rtUj = x.rtUj ∧ x_rtFirst = x.rtFirst ∧ x_rtUnits = x.rtUnits ∧ x_allow = x.allow ∧ x_lagNs = x.lagNs ∧ x_lagNext = x.lagNext ∧ x_rate = x.rate ∧ x_rateT = x.rateT ∧ x_energyFrac = x.energyFrac))
    (h_domVec : .domVec ∈ L ∨ x_vec = x.vec)
    (h_domVar : .domVar ∈ L ∨ x_var_ = x.var_)
    (h_domUpd : .domUpd ∈ L ∨ x_upd = x.upd)
    (h_domKvp : .domKvp ∈ L ∨ x_kvp = x.kvp)
    (h_domTir : .domTir ∈ L ∨ x_tir = x.tir)
    (h_domCol : .domCol ∈ L ∨ x_col = x.col)
    (h_domKeys : .domKeys ∈ L ∨ x_keys = x.keys)
    (h_domMem : .domMem ∈ L ∨ ∀ a, memRead x_mem a = memRead x.mem a)
    (h_domPoison : .domPoison ∈ L ∨ x_poison = x.poison) : DomFrame L x
      (Dom.mk x_phase x_rec_ x_ovh x_loan x_held x_created x_activeAt x_doneDue x_teardownAt x_requests x_leaving
       x_scrubEnded x_scrubStartNs x_preempted x_saving x_restoring x_saveCommons x_preemptAt x_resumeAt x_savedAcc
       x_savedOpbuf x_savedCommons x_queue x_nextOrder x_slabs x_devSlabs x_devNext x_batches x_lastOperand x_quota0
       x_weight x_slots x_rtUj x_rtFirst x_rtUnits x_allow x_lagNs x_lagNext x_rate x_rateT x_energyFrac x_vec x_var_
       x_upd x_kvp x_tir x_col x_keys x_mem x_poison) := by
  intro p hp
  cases p <;> first | exact trivial |
    exact (h_domLife).resolve_left hp |
    exact (h_domRecord).resolve_left hp |
    exact (h_domPreempt).resolve_left hp |
    exact (h_domQueue).resolve_left hp |
    exact (h_domSlabs).resolve_left hp |
    exact (h_domSched).resolve_left hp |
    exact (h_domVec).resolve_left hp |
    exact (h_domVar).resolve_left hp |
    exact (h_domUpd).resolve_left hp |
    exact (h_domKvp).resolve_left hp |
    exact (h_domTir).resolve_left hp |
    exact (h_domCol).resolve_left hp |
    exact (h_domKeys).resolve_left hp |
    exact (h_domMem).resolve_left hp |
    exact (h_domPoison).resolve_left hp

theorem same_domLife (x : Dom) : x.phase = x.phase ∧ x.held = x.held ∧ x.created = x.created ∧ x.activeAt = x.activeAt ∧ x.doneDue = x.doneDue ∧ x.teardownAt = x.teardownAt ∧ x.requests = x.requests ∧ x.leaving = x.leaving ∧ x.scrubEnded = x.scrubEnded ∧ x.scrubStartNs = x.scrubStartNs :=
  ⟨rfl, rfl, rfl, rfl, rfl, rfl, rfl, rfl, rfl, rfl⟩

theorem same_domRecord (x : Dom) : x.rec_ = x.rec_ ∧ x.ovh = x.ovh ∧ x.loan = x.loan :=
  ⟨rfl, rfl, rfl⟩

theorem same_domPreempt (x : Dom) : x.preempted = x.preempted ∧ x.saving = x.saving ∧ x.restoring = x.restoring ∧ x.saveCommons = x.saveCommons ∧ x.preemptAt = x.preemptAt ∧ x.resumeAt = x.resumeAt ∧ x.savedAcc = x.savedAcc ∧ x.savedOpbuf = x.savedOpbuf ∧ x.savedCommons = x.savedCommons :=
  ⟨rfl, rfl, rfl, rfl, rfl, rfl, rfl, rfl, rfl⟩

theorem same_domSlabs (x : Dom) : x.nextOrder = x.nextOrder ∧ x.slabs = x.slabs ∧ x.devSlabs = x.devSlabs ∧ x.devNext = x.devNext ∧ x.batches = x.batches ∧ x.lastOperand = x.lastOperand :=
  ⟨rfl, rfl, rfl, rfl, rfl, rfl⟩

theorem same_domSched (x : Dom) : x.quota0 = x.quota0 ∧ x.weight = x.weight ∧ x.slots = x.slots ∧ x.rtUj = x.rtUj ∧ x.rtFirst = x.rtFirst ∧ x.rtUnits = x.rtUnits ∧ x.allow = x.allow ∧ x.lagNs = x.lagNs ∧ x.lagNext = x.lagNext ∧ x.rate = x.rate ∧ x.rateT = x.rateT ∧ x.energyFrac = x.energyFrac :=
  ⟨rfl, rfl, rfl, rfl, rfl, rfl, rfl, rfl, rfl, rfl, rfl, rfl⟩

theorem same_mem (m : List Host.Cell) : ∀ a, memRead m a = memRead m a := fun _ => rfl
theorem same_poison (s : State) : s.commonsPoison = s.commonsPoison ∧ s.commonsCounted = s.commonsCounted := ⟨rfl, rfl⟩
theorem same_head (s : State) : s.dbg.traceHead = s.dbg.traceHead ∧ s.dbg.traced = s.dbg.traced := ⟨rfl, rfl⟩
theorem same_ring (s : State) : s.dbg.traceEn = s.dbg.traceEn ∧ s.dbg.traceBase = s.dbg.traceBase ∧
    s.dbg.traceLog2 = s.dbg.traceLog2 := ⟨rfl, rfl, rfl⟩

theorem dfr_updVar {L : List Part} {x₀ x : Dom} (h : DomFrame L x₀ x) (f : VarDom → VarDom)
    (hL : ∀ p ∈ [Part.domVar], p ∈ L) : DomFrame L x₀ (x.updVar f) :=
  dfr_trans h (dfr_mk (.inr (same_domLife _)) (.inr (same_domRecord _)) (.inr (same_domPreempt _)) (.inr rfl) (.inr (same_domSlabs _)) (.inr (same_domSched _)) (.inr rfl) (.inl (hL _ (by decide))) (.inr rfl) (.inr rfl) (.inr rfl) (.inr rfl) (.inr rfl) (.inr (same_mem _)) (.inr rfl))

theorem dfr_updTir {L : List Part} {x₀ x : Dom} (h : DomFrame L x₀ x) (f : TirDom → TirDom)
    (hL : ∀ p ∈ [Part.domTir], p ∈ L) : DomFrame L x₀ (x.updTir f) :=
  dfr_trans h (dfr_mk (.inr (same_domLife _)) (.inr (same_domRecord _)) (.inr (same_domPreempt _)) (.inr rfl) (.inr (same_domSlabs _)) (.inr (same_domSched _)) (.inr rfl) (.inr rfl) (.inr rfl) (.inr rfl) (.inl (hL _ (by decide))) (.inr rfl) (.inr rfl) (.inr (same_mem _)) (.inr rfl))

theorem dfr_updKvp {L : List Part} {x₀ x : Dom} (h : DomFrame L x₀ x) (f : KvpDom → KvpDom)
    (hL : ∀ p ∈ [Part.domKvp], p ∈ L) : DomFrame L x₀ (x.updKvp f) :=
  dfr_trans h (dfr_mk (.inr (same_domLife _)) (.inr (same_domRecord _)) (.inr (same_domPreempt _)) (.inr rfl) (.inr (same_domSlabs _)) (.inr (same_domSched _)) (.inr rfl) (.inr rfl) (.inr rfl) (.inl (hL _ (by decide))) (.inr rfl) (.inr rfl) (.inr rfl) (.inr (same_mem _)) (.inr rfl))

theorem dfr_updUpd {L : List Part} {x₀ x : Dom} (h : DomFrame L x₀ x) (f : UpdDom → UpdDom)
    (hL : ∀ p ∈ [Part.domUpd], p ∈ L) : DomFrame L x₀ (x.updUpd f) :=
  dfr_trans h (dfr_mk (.inr (same_domLife _)) (.inr (same_domRecord _)) (.inr (same_domPreempt _)) (.inr rfl) (.inr (same_domSlabs _)) (.inr (same_domSched _)) (.inr rfl) (.inr rfl) (.inl (hL _ (by decide))) (.inr rfl) (.inr rfl) (.inr rfl) (.inr rfl) (.inr (same_mem _)) (.inr rfl))

theorem dfr_updVec {L : List Part} {x₀ x : Dom} (h : DomFrame L x₀ x) (f : VecDom → VecDom)
    (hL : ∀ p ∈ [Part.domVec], p ∈ L) : DomFrame L x₀ (x.updVec f) :=
  dfr_trans h (dfr_mk (.inr (same_domLife _)) (.inr (same_domRecord _)) (.inr (same_domPreempt _)) (.inr rfl) (.inr (same_domSlabs _)) (.inr (same_domSched _)) (.inl (hL _ (by decide))) (.inr rfl) (.inr rfl) (.inr rfl) (.inr rfl) (.inr rfl) (.inr rfl) (.inr (same_mem _)) (.inr rfl))

theorem dfr_updCol {L : List Part} {x₀ x : Dom} (h : DomFrame L x₀ x) (f : ColDom → ColDom)
    (hL : ∀ p ∈ [Part.domCol], p ∈ L) : DomFrame L x₀ (x.updCol f) :=
  dfr_trans h (dfr_mk (.inr (same_domLife _)) (.inr (same_domRecord _)) (.inr (same_domPreempt _)) (.inr rfl) (.inr (same_domSlabs _)) (.inr (same_domSched _)) (.inr rfl) (.inr rfl) (.inr rfl) (.inr rfl) (.inr rfl) (.inl (hL _ (by decide))) (.inr rfl) (.inr (same_mem _)) (.inr rfl))

theorem dfr_updKeys {L : List Part} {x₀ x : Dom} (h : DomFrame L x₀ x) (f : KeyDom → KeyDom)
    (hL : ∀ p ∈ [Part.domKeys], p ∈ L) : DomFrame L x₀ (x.updKeys f) :=
  dfr_trans h (dfr_mk (.inr (same_domLife _)) (.inr (same_domRecord _)) (.inr (same_domPreempt _)) (.inr rfl) (.inr (same_domSlabs _)) (.inr (same_domSched _)) (.inr rfl) (.inr rfl) (.inr rfl) (.inr rfl) (.inr rfl) (.inr rfl) (.inl (hL _ (by decide))) (.inr (same_mem _)) (.inr rfl))

theorem dfr_updQueue {L : List Part} {x₀ x : Dom} (h : DomFrame L x₀ x) (f : QueueState → QueueState)
    (hL : ∀ p ∈ [Part.domQueue], p ∈ L) : DomFrame L x₀ (x.updQueue f) :=
  dfr_trans h (dfr_mk (.inr (same_domLife _)) (.inr (same_domRecord _)) (.inr (same_domPreempt _)) (.inl (hL _ (by decide))) (.inr (same_domSlabs _)) (.inr (same_domSched _)) (.inr rfl) (.inr rfl) (.inr rfl) (.inr rfl) (.inr rfl) (.inr rfl) (.inr rfl) (.inr (same_mem _)) (.inr rfl))

/-! ## Accessors -/

theorem dom_putDom (s : State) (d e : Nat) (x : Dom) : (s.putDom d x).dom e = if e = d then x else s.dom e := by
  unfold State.dom State.putDom
  rw [mapGet_mapSet]
  split <;> rfl

theorem fr_putDom {L : List Part} {s₀ s : State} (h : Frame L s₀ s) (d : Nat) (x : Dom) (hx : DomFrame L (s.dom d) x) :
    Frame L s₀ (s.putDom d x) := by
  refine fr_trans h ⟨rfl, ⟨rfl, rfl, rfl⟩, fun p hp => ?_⟩
  have key : ∀ e, p.keptDom (s.dom e) ((s.putDom d x).dom e) := by
    intro e
    rw [dom_putDom]
    split
    · next k => subst k; exact hx p hp
    · exact keptDom_refl _ _
  cases p <;> first | rfl | exact ⟨rfl, rfl⟩ | exact fun e a _ => key e a | exact key

theorem fr_updDom {L : List Part} {s₀ s : State} (h : Frame L s₀ s) (d : Nat) (f : Dom → Dom) (hf : ∀ x, DomFrame L x (f x)) :
    Frame L s₀ (s.updDom d f) := fr_putDom h d _ (hf _)

theorem fr_putSlot {L : List Part} {s₀ s : State} (h : Frame L s₀ s) (k : Nat) (x : SlotEntry)
    (hL : ∀ p ∈ [Part.slots], p ∈ L) :
    Frame L s₀ (s.putSlot k x) :=
  fr_mk h
    (.inr rfl) (.inr rfl) (.inr rfl) (.inr rfl) (.inr rfl) (.inr rfl) (.inr rfl) (.inr rfl) (.inr rfl) (.inr rfl)
    (.inr rfl) (.inl (hL _ (by decide))) (.inr rfl) (.inr rfl) (.inr rfl) (.inr rfl) (.inr rfl) (.inr rfl) (.inr rfl)
    (.inr rfl) (.inr rfl) (.inr rfl) (.inr rfl) (.inr rfl) (.inr rfl) (.inr rfl) (.inr rfl) (.inr rfl) (.inr rfl)
    (.inr rfl) (.inr rfl) (.inr rfl) (.inr (same_head _)) (.inr (same_poison _)) (same_ring _)

theorem fr_updSlot {L : List Part} {s₀ s : State} (h : Frame L s₀ s) (k : Nat) (f : SlotEntry → SlotEntry)
    (hL : ∀ p ∈ [Part.slots], p ∈ L) :
    Frame L s₀ (s.updSlot k f) :=
  fr_mk h
    (.inr rfl) (.inr rfl) (.inr rfl) (.inr rfl) (.inr rfl) (.inr rfl) (.inr rfl) (.inr rfl) (.inr rfl) (.inr rfl)
    (.inr rfl) (.inl (hL _ (by decide))) (.inr rfl) (.inr rfl) (.inr rfl) (.inr rfl) (.inr rfl) (.inr rfl) (.inr rfl)
    (.inr rfl) (.inr rfl) (.inr rfl) (.inr rfl) (.inr rfl) (.inr rfl) (.inr rfl) (.inr rfl) (.inr rfl) (.inr rfl)
    (.inr rfl) (.inr rfl) (.inr rfl) (.inr (same_head _)) (.inr (same_poison _)) (same_ring _)

theorem fr_putMbd {L : List Part} {s₀ s : State} (h : Frame L s₀ s) (k : Nat) (x : StackState)
    (hL : ∀ p ∈ [Part.mbds], p ∈ L) :
    Frame L s₀ (s.putMbd k x) :=
  fr_mk h
    (.inr rfl) (.inr rfl) (.inr rfl) (.inr rfl) (.inr rfl) (.inr rfl) (.inr rfl) (.inr rfl) (.inr rfl) (.inr rfl)
    (.inr rfl) (.inr rfl) (.inl (hL _ (by decide))) (.inr rfl) (.inr rfl) (.inr rfl) (.inr rfl) (.inr rfl) (.inr rfl)
    (.inr rfl) (.inr rfl) (.inr rfl) (.inr rfl) (.inr rfl) (.inr rfl) (.inr rfl) (.inr rfl) (.inr rfl) (.inr rfl)
    (.inr rfl) (.inr rfl) (.inr rfl) (.inr (same_head _)) (.inr (same_poison _)) (same_ring _)

theorem fr_updMbd {L : List Part} {s₀ s : State} (h : Frame L s₀ s) (k : Nat) (f : StackState → StackState)
    (hL : ∀ p ∈ [Part.mbds], p ∈ L) :
    Frame L s₀ (s.updMbd k f) :=
  fr_mk h
    (.inr rfl) (.inr rfl) (.inr rfl) (.inr rfl) (.inr rfl) (.inr rfl) (.inr rfl) (.inr rfl) (.inr rfl) (.inr rfl)
    (.inr rfl) (.inr rfl) (.inl (hL _ (by decide))) (.inr rfl) (.inr rfl) (.inr rfl) (.inr rfl) (.inr rfl) (.inr rfl)
    (.inr rfl) (.inr rfl) (.inr rfl) (.inr rfl) (.inr rfl) (.inr rfl) (.inr rfl) (.inr rfl) (.inr rfl) (.inr rfl)
    (.inr rfl) (.inr rfl) (.inr rfl) (.inr (same_head _)) (.inr (same_poison _)) (same_ring _)

theorem fr_putPort {L : List Part} {s₀ s : State} (h : Frame L s₀ s) (k : Nat) (x : PortStateRec)
    (hL : ∀ p ∈ [Part.fab], p ∈ L) :
    Frame L s₀ (s.putPort k x) :=
  fr_mk h
    (.inr rfl) (.inr rfl) (.inr rfl) (.inr rfl) (.inr rfl) (.inr rfl) (.inr rfl) (.inr rfl) (.inl (hL _ (by decide)))
    (.inr rfl) (.inr rfl) (.inr rfl) (.inr rfl) (.inr rfl) (.inr rfl) (.inr rfl) (.inr rfl) (.inr rfl) (.inr rfl)
    (.inr rfl) (.inr rfl) (.inr rfl) (.inr rfl) (.inr rfl) (.inr rfl) (.inr rfl) (.inr rfl) (.inr rfl) (.inr rfl)
    (.inr rfl) (.inr rfl) (.inr rfl) (.inr (same_head _)) (.inr (same_poison _)) (same_ring _)

theorem fr_updPort {L : List Part} {s₀ s : State} (h : Frame L s₀ s) (k : Nat) (f : PortStateRec → PortStateRec)
    (hL : ∀ p ∈ [Part.fab], p ∈ L) :
    Frame L s₀ (s.updPort k f) :=
  fr_mk h
    (.inr rfl) (.inr rfl) (.inr rfl) (.inr rfl) (.inr rfl) (.inr rfl) (.inr rfl) (.inr rfl) (.inl (hL _ (by decide)))
    (.inr rfl) (.inr rfl) (.inr rfl) (.inr rfl) (.inr rfl) (.inr rfl) (.inr rfl) (.inr rfl) (.inr rfl) (.inr rfl)
    (.inr rfl) (.inr rfl) (.inr rfl) (.inr rfl) (.inr rfl) (.inr rfl) (.inr rfl) (.inr rfl) (.inr rfl) (.inr rfl)
    (.inr rfl) (.inr rfl) (.inr rfl) (.inr (same_head _)) (.inr (same_poison _)) (same_ring _)

theorem fr_updUnit {L : List Part} {s₀ s : State} (h : Frame L s₀ s) (k : Nat) (f : ArgUnit → ArgUnit)
    (hL : ∀ p ∈ [Part.units], p ∈ L) :
    Frame L s₀ (s.updUnit k f) :=
  fr_mk h
    (.inr rfl) (.inr rfl) (.inr rfl) (.inr rfl) (.inr rfl) (.inr rfl) (.inr rfl) (.inr rfl) (.inr rfl) (.inr rfl)
    (.inr rfl) (.inr rfl) (.inr rfl) (.inl (hL _ (by decide))) (.inr rfl) (.inr rfl) (.inr rfl) (.inr rfl) (.inr rfl)
    (.inr rfl) (.inr rfl) (.inr rfl) (.inr rfl) (.inr rfl) (.inr rfl) (.inr rfl) (.inr rfl) (.inr rfl) (.inr rfl)
    (.inr rfl) (.inr rfl) (.inr rfl) (.inr (same_head _)) (.inr (same_poison _)) (same_ring _)

theorem fr_putView {L : List Part} {s₀ s : State} (h : Frame L s₀ s) (c k : Nat) (x : PageView)
    (hL : ∀ p ∈ [Part.views], p ∈ L) :
    Frame L s₀ (s.putView c k x) :=
  fr_mk h
    (.inr rfl) (.inr rfl) (.inr rfl) (.inr rfl) (.inr rfl) (.inr rfl) (.inr rfl) (.inr rfl) (.inr rfl) (.inr rfl)
    (.inr rfl) (.inr rfl) (.inr rfl) (.inr rfl) (.inr rfl) (.inl (hL _ (by decide))) (.inr rfl) (.inr rfl) (.inr rfl)
    (.inr rfl) (.inr rfl) (.inr rfl) (.inr rfl) (.inr rfl) (.inr rfl) (.inr rfl) (.inr rfl) (.inr rfl) (.inr rfl)
    (.inr rfl) (.inr rfl) (.inr rfl) (.inr (same_head _)) (.inr (same_poison _)) (same_ring _)

theorem fr_putPair {L : List Part} {s₀ s : State} (h : Frame L s₀ s) (c k : Nat) (x : CmdPair)
    (hL : ∀ p ∈ [Part.pairs], p ∈ L) :
    Frame L s₀ (s.putPair c k x) :=
  fr_mk h
    (.inr rfl) (.inr rfl) (.inr rfl) (.inr rfl) (.inr rfl) (.inr rfl) (.inr rfl) (.inr rfl) (.inr rfl) (.inr rfl)
    (.inr rfl) (.inr rfl) (.inr rfl) (.inr rfl) (.inr rfl) (.inr rfl) (.inl (hL _ (by decide))) (.inr rfl) (.inr rfl)
    (.inr rfl) (.inr rfl) (.inr rfl) (.inr rfl) (.inr rfl) (.inr rfl) (.inr rfl) (.inr rfl) (.inr rfl) (.inr rfl)
    (.inr rfl) (.inr rfl) (.inr rfl) (.inr (same_head _)) (.inr (same_poison _)) (same_ring _)

theorem fr_updTik {L : List Part} {s₀ s : State} (h : Frame L s₀ s) (f : TikState → TikState)
    (hL : ∀ p ∈ [Part.tik], p ∈ L) :
    Frame L s₀ (s.updTik f) :=
  fr_mk h
    (.inr rfl) (.inr rfl) (.inl (hL _ (by decide))) (.inr rfl) (.inr rfl) (.inr rfl) (.inr rfl) (.inr rfl) (.inr rfl)
    (.inr rfl) (.inr rfl) (.inr rfl) (.inr rfl) (.inr rfl) (.inr rfl) (.inr rfl) (.inr rfl) (.inr rfl) (.inr rfl)
    (.inr rfl) (.inr rfl) (.inr rfl) (.inr rfl) (.inr rfl) (.inr rfl) (.inr rfl) (.inr rfl) (.inr rfl) (.inr rfl)
    (.inr rfl) (.inr rfl) (.inr rfl) (.inr (same_head _)) (.inr (same_poison _)) (same_ring _)

theorem fr_updPwr {L : List Part} {s₀ s : State} (h : Frame L s₀ s) (f : PowerState → PowerState)
    (hL : ∀ p ∈ [Part.pwr], p ∈ L) :
    Frame L s₀ (s.updPwr f) :=
  fr_mk h
    (.inr rfl) (.inr rfl) (.inr rfl) (.inl (hL _ (by decide))) (.inr rfl) (.inr rfl) (.inr rfl) (.inr rfl) (.inr rfl)
    (.inr rfl) (.inr rfl) (.inr rfl) (.inr rfl) (.inr rfl) (.inr rfl) (.inr rfl) (.inr rfl) (.inr rfl) (.inr rfl)
    (.inr rfl) (.inr rfl) (.inr rfl) (.inr rfl) (.inr rfl) (.inr rfl) (.inr rfl) (.inr rfl) (.inr rfl) (.inr rfl)
    (.inr rfl) (.inr rfl) (.inr rfl) (.inr (same_head _)) (.inr (same_poison _)) (same_ring _)

theorem fr_updBoot {L : List Part} {s₀ s : State} (h : Frame L s₀ s) (f : BootState → BootState)
    (hL : ∀ p ∈ [Part.boot], p ∈ L) :
    Frame L s₀ (s.updBoot f) :=
  fr_mk h
    (.inl (hL _ (by decide))) (.inr rfl) (.inr rfl) (.inr rfl) (.inr rfl) (.inr rfl) (.inr rfl) (.inr rfl) (.inr rfl)
    (.inr rfl) (.inr rfl) (.inr rfl) (.inr rfl) (.inr rfl) (.inr rfl) (.inr rfl) (.inr rfl) (.inr rfl) (.inr rfl)
    (.inr rfl) (.inr rfl) (.inr rfl) (.inr rfl) (.inr rfl) (.inr rfl) (.inr rfl) (.inr rfl) (.inr rfl) (.inr rfl)
    (.inr rfl) (.inr rfl) (.inr rfl) (.inr (same_head _)) (.inr (same_poison _)) (same_ring _)

theorem fr_updFuses {L : List Part} {s₀ s : State} (h : Frame L s₀ s) (f : Fuses → Fuses)
    (hL : ∀ p ∈ [Part.fuses], p ∈ L) :
    Frame L s₀ (s.updFuses f) :=
  fr_mk h
    (.inr rfl) (.inl (hL _ (by decide))) (.inr rfl) (.inr rfl) (.inr rfl) (.inr rfl) (.inr rfl) (.inr rfl) (.inr rfl)
    (.inr rfl) (.inr rfl) (.inr rfl) (.inr rfl) (.inr rfl) (.inr rfl) (.inr rfl) (.inr rfl) (.inr rfl) (.inr rfl)
    (.inr rfl) (.inr rfl) (.inr rfl) (.inr rfl) (.inr rfl) (.inr rfl) (.inr rfl) (.inr rfl) (.inr rfl) (.inr rfl)
    (.inr rfl) (.inr rfl) (.inr rfl) (.inr (same_head _)) (.inr (same_poison _)) (same_ring _)

theorem fr_updFab {L : List Part} {s₀ s : State} (h : Frame L s₀ s) (f : FabState → FabState)
    (hL : ∀ p ∈ [Part.fab], p ∈ L) :
    Frame L s₀ (s.updFab f) :=
  fr_mk h
    (.inr rfl) (.inr rfl) (.inr rfl) (.inr rfl) (.inr rfl) (.inr rfl) (.inr rfl) (.inr rfl) (.inl (hL _ (by decide)))
    (.inr rfl) (.inr rfl) (.inr rfl) (.inr rfl) (.inr rfl) (.inr rfl) (.inr rfl) (.inr rfl) (.inr rfl) (.inr rfl)
    (.inr rfl) (.inr rfl) (.inr rfl) (.inr rfl) (.inr rfl) (.inr rfl) (.inr rfl) (.inr rfl) (.inr rfl) (.inr rfl)
    (.inr rfl) (.inr rfl) (.inr rfl) (.inr (same_head _)) (.inr (same_poison _)) (same_ring _)

theorem fr_updLks {L : List Part} {s₀ s : State} (h : Frame L s₀ s) (f : LksState → LksState)
    (hL : ∀ p ∈ [Part.lks], p ∈ L) :
    Frame L s₀ (s.updLks f) :=
  fr_mk h
    (.inr rfl) (.inr rfl) (.inr rfl) (.inr rfl) (.inr rfl) (.inr rfl) (.inr rfl) (.inr rfl) (.inr rfl)
    (.inl (hL _ (by decide))) (.inr rfl) (.inr rfl) (.inr rfl) (.inr rfl) (.inr rfl) (.inr rfl) (.inr rfl) (.inr rfl)
    (.inr rfl) (.inr rfl) (.inr rfl) (.inr rfl) (.inr rfl) (.inr rfl) (.inr rfl) (.inr rfl) (.inr rfl) (.inr rfl)
    (.inr rfl) (.inr rfl) (.inr rfl) (.inr rfl) (.inr (same_head _)) (.inr (same_poison _)) (same_ring _)

theorem fr_updFul {L : List Part} {s₀ s : State} (h : Frame L s₀ s) (f : FulState → FulState)
    (hL : ∀ p ∈ [Part.ful], p ∈ L) :
    Frame L s₀ (s.updFul f) :=
  fr_mk h
    (.inr rfl) (.inr rfl) (.inr rfl) (.inr rfl) (.inr rfl) (.inr rfl) (.inr rfl) (.inr rfl) (.inr rfl) (.inr rfl)
    (.inl (hL _ (by decide))) (.inr rfl) (.inr rfl) (.inr rfl) (.inr rfl) (.inr rfl) (.inr rfl) (.inr rfl) (.inr rfl)
    (.inr rfl) (.inr rfl) (.inr rfl) (.inr rfl) (.inr rfl) (.inr rfl) (.inr rfl) (.inr rfl) (.inr rfl) (.inr rfl)
    (.inr rfl) (.inr rfl) (.inr rfl) (.inr (same_head _)) (.inr (same_poison _)) (same_ring _)

theorem fr_updBas {L : List Part} {s₀ s : State} (h : Frame L s₀ s) (f : BasState → BasState)
    (hL : ∀ p ∈ [Part.bas], p ∈ L) :
    Frame L s₀ (s.updBas f) :=
  fr_mk h
    (.inr rfl) (.inr rfl) (.inr rfl) (.inr rfl) (.inr rfl) (.inr rfl) (.inr rfl) (.inl (hL _ (by decide))) (.inr rfl)
    (.inr rfl) (.inr rfl) (.inr rfl) (.inr rfl) (.inr rfl) (.inr rfl) (.inr rfl) (.inr rfl) (.inr rfl) (.inr rfl)
    (.inr rfl) (.inr rfl) (.inr rfl) (.inr rfl) (.inr rfl) (.inr rfl) (.inr rfl) (.inr rfl) (.inr rfl) (.inr rfl)
    (.inr rfl) (.inr rfl) (.inr rfl) (.inr (same_head _)) (.inr (same_poison _)) (same_ring _)

theorem fr_updMemg {L : List Part} {s₀ s : State} (h : Frame L s₀ s) (f : MemGlobal → MemGlobal)
    (hL : ∀ p ∈ [Part.memg], p ∈ L) :
    Frame L s₀ (s.updMemg f) :=
  fr_mk h
    (.inr rfl) (.inr rfl) (.inr rfl) (.inr rfl) (.inr rfl) (.inl (hL _ (by decide))) (.inr rfl) (.inr rfl) (.inr rfl)
    (.inr rfl) (.inr rfl) (.inr rfl) (.inr rfl) (.inr rfl) (.inr rfl) (.inr rfl) (.inr rfl) (.inr rfl) (.inr rfl)
    (.inr rfl) (.inr rfl) (.inr rfl) (.inr rfl) (.inr rfl) (.inr rfl) (.inr rfl) (.inr rfl) (.inr rfl) (.inr rfl)
    (.inr rfl) (.inr rfl) (.inr rfl) (.inr (same_head _)) (.inr (same_poison _)) (same_ring _)

theorem fr_updBdg {L : List Part} {s₀ s : State} (h : Frame L s₀ s) (f : BdgState → BdgState)
    (hL : ∀ p ∈ [Part.bdg], p ∈ L) :
    Frame L s₀ (s.updBdg f) :=
  fr_mk h
    (.inr rfl) (.inr rfl) (.inr rfl) (.inr rfl) (.inl (hL _ (by decide))) (.inr rfl) (.inr rfl) (.inr rfl) (.inr rfl)
    (.inr rfl) (.inr rfl) (.inr rfl) (.inr rfl) (.inr rfl) (.inr rfl) (.inr rfl) (.inr rfl) (.inr rfl) (.inr rfl)
    (.inr rfl) (.inr rfl) (.inr rfl) (.inr rfl) (.inr rfl) (.inr rfl) (.inr rfl) (.inr rfl) (.inr rfl) (.inr rfl)
    (.inr rfl) (.inr rfl) (.inr rfl) (.inr (same_head _)) (.inr (same_poison _)) (same_ring _)

theorem fr_bump {L : List Part} {s₀ s : State} (h : Frame L s₀ s) (a b c n : Nat)
    (hL : ∀ p ∈ [Part.counters], p ∈ L) :
    Frame L s₀ (s.bump a b c n) :=
  fr_mk h
    (.inr rfl) (.inr rfl) (.inr rfl) (.inr rfl) (.inr rfl) (.inr rfl) (.inr rfl) (.inr rfl) (.inr rfl) (.inr rfl)
    (.inr rfl) (.inr rfl) (.inr rfl) (.inr rfl) (.inr rfl) (.inr rfl) (.inr rfl) (.inl (hL _ (by decide))) (.inr rfl)
    (.inr rfl) (.inr rfl) (.inr rfl) (.inr rfl) (.inr rfl) (.inr rfl) (.inr rfl) (.inr rfl) (.inr rfl) (.inr rfl)
    (.inr rfl) (.inr rfl) (.inr rfl) (.inr (same_head _)) (.inr (same_poison _)) (same_ring _)

theorem fr_addStretch {L : List Part} {s₀ s : State} (h : Frame L s₀ s) (a b n : Nat)
    (hL : ∀ p ∈ [Part.stretch], p ∈ L) :
    Frame L s₀ (s.addStretch a b n) :=
  fr_mk h
    (.inr rfl) (.inr rfl) (.inr rfl) (.inr rfl) (.inr rfl) (.inr rfl) (.inr rfl) (.inr rfl) (.inr rfl) (.inr rfl)
    (.inr rfl) (.inr rfl) (.inr rfl) (.inr rfl) (.inr rfl) (.inr rfl) (.inr rfl) (.inr rfl) (.inl (hL _ (by decide)))
    (.inr rfl) (.inr rfl) (.inr rfl) (.inr rfl) (.inr rfl) (.inr rfl) (.inr rfl) (.inr rfl) (.inr rfl) (.inr rfl)
    (.inr rfl) (.inr rfl) (.inr rfl) (.inr (same_head _)) (.inr (same_poison _)) (same_ring _)

theorem fr_emit {L : List Part} {s₀ s : State} (h : Frame L s₀ s) (o : Output)
    (hL : ∀ p ∈ [Part.out], p ∈ L) :
    Frame L s₀ (s.emit o) :=
  fr_mk h
    (.inr rfl) (.inr rfl) (.inr rfl) (.inr rfl) (.inr rfl) (.inr rfl) (.inr rfl) (.inr rfl) (.inr rfl) (.inr rfl)
    (.inr rfl) (.inr rfl) (.inr rfl) (.inr rfl) (.inr rfl) (.inr rfl) (.inr rfl) (.inr rfl) (.inr rfl) (.inr rfl)
    (.inr rfl) (.inr rfl) (.inr rfl) (.inr rfl) (.inr rfl) (.inr rfl) (.inr rfl) (.inr rfl) (.inl (hL _ (by decide)))
    (.inr rfl) (.inr rfl) (.inr rfl) (.inr (same_head _)) (.inr (same_poison _)) (same_ring _)

theorem fr_defer {L : List Part} {s₀ s : State} (h : Frame L s₀ s) (a : LatchAct)
    (hL : ∀ p ∈ [Part.atLatch], p ∈ L) :
    Frame L s₀ (s.defer a) :=
  fr_mk h
    (.inr rfl) (.inr rfl) (.inr rfl) (.inr rfl) (.inr rfl) (.inr rfl) (.inr rfl) (.inr rfl) (.inr rfl) (.inr rfl)
    (.inr rfl) (.inr rfl) (.inr rfl) (.inr rfl) (.inr rfl) (.inr rfl) (.inr rfl) (.inr rfl) (.inr rfl) (.inr rfl)
    (.inr rfl) (.inr rfl) (.inr rfl) (.inr rfl) (.inr rfl) (.inr rfl) (.inl (hL _ (by decide))) (.inr rfl) (.inr rfl)
    (.inr rfl) (.inr rfl) (.inr rfl) (.inr (same_head _)) (.inr (same_poison _)) (same_ring _)

theorem fr_putCopy {L : List Part} {s₀ s : State} (h : Frame L s₀ s) (k : Nat) (x : CopySlot)
    (hL : ∀ p ∈ [Part.bas], p ∈ L) :
    Frame L s₀ (s.putCopy k x) := by
  unfold State.putCopy
  split
  · exact fr_updBas h (fun b => { b with copy0 := x }) (sub_trans hL (by decide))
  · exact fr_updBas h (fun b => { b with copy1 := x }) (sub_trans hL (by decide))

theorem fr_updCopy {L : List Part} {s₀ s : State} (h : Frame L s₀ s) (k : Nat) (f : CopySlot → CopySlot)
    (hL : ∀ p ∈ [Part.bas], p ∈ L) :
    Frame L s₀ (s.updCopy k f) := fr_putCopy h k _ (sub_trans hL (by decide))

/-- A change of the PCI state, of the Pending bits or the rest. -/
theorem fr_updPci {L : List Part} {s₀ s : State} (h : Frame L s₀ s) (f : PciState → PciState)
    (h1 : .pci ∈ L ∨ ∀ p, { f p with pendingBits := [] } = { p with pendingBits := [] })
    (h2 : .pciPending ∈ L ∨ ∀ p, (f p).pendingBits = p.pendingBits) : Frame L s₀ (s.updPci f) :=
  fr_mk h
    (.inr rfl) (.inr rfl) (.inr rfl) (.inr rfl) (.inr rfl) (.inr rfl) (.inr rfl) (.inr rfl) (.inr rfl) (.inr rfl)
    (.inr rfl) (.inr rfl) (.inr rfl) (.inr rfl) (.inr rfl) (.inr rfl) (.inr rfl) (.inr rfl) (.inr rfl) (.inr rfl)
    (.inr rfl) (.inr rfl) (.inr rfl) (.inr rfl) (.inr rfl) (.inr rfl) (.inr rfl) (.inr rfl) (.inr rfl)
    (h1.imp_right fun k => k _) (h2.imp_right fun k => k _) (.inr rfl) (.inr (same_head _)) (.inr (same_poison _))
    (same_ring _)

/-- A change of the debug state, of the head of the trace or the rest. -/
theorem fr_updDbg {L : List Part} {s₀ s : State} (h : Frame L s₀ s) (f : DbgState → DbgState)
    (h0 : ∀ g, (f g).traceEn = g.traceEn ∧ (f g).traceBase = g.traceBase ∧ (f g).traceLog2 = g.traceLog2)
    (h1 : .dbg ∈ L ∨ ∀ g, { f g with traceHead := 0, traced := [] } = { g with traceHead := 0, traced := [] })
    (h2 : .traceHead ∈ L ∨ ∀ g, (f g).traceHead = g.traceHead ∧ (f g).traced = g.traced) : Frame L s₀ (s.updDbg f) :=
  fr_mk h
    (.inr rfl) (.inr rfl) (.inr rfl) (.inr rfl) (.inr rfl) (.inr rfl) (.inr rfl) (.inr rfl) (.inr rfl) (.inr rfl)
    (.inr rfl) (.inr rfl) (.inr rfl) (.inr rfl) (.inr rfl) (.inr rfl) (.inr rfl) (.inr rfl) (.inr rfl) (.inr rfl)
    (.inr rfl) (.inr rfl) (.inr rfl) (.inr rfl) (.inr rfl) (.inr rfl) (.inr rfl) (.inr rfl) (.inr rfl) (.inr rfl)
    (.inr rfl) (h1.imp_right fun k => k _) (h2.imp_right fun k => k _) (.inr (same_poison _)) (h0 _)

theorem fr_takeFree {L : List Part} {s₀ s : State} (h : Frame L s₀ s)
    (hL : ∀ p ∈ [Part.freeCtr], p ∈ L) :
    Frame L s₀ s.takeFree.2 :=
  fr_mk h
    (.inr rfl) (.inr rfl) (.inr rfl) (.inr rfl) (.inr rfl) (.inr rfl) (.inr rfl) (.inr rfl) (.inr rfl) (.inr rfl)
    (.inr rfl) (.inr rfl) (.inr rfl) (.inr rfl) (.inr rfl) (.inr rfl) (.inr rfl) (.inr rfl) (.inr rfl) (.inr rfl)
    (.inr rfl) (.inr rfl) (.inr rfl) (.inr rfl) (.inr rfl) (.inr rfl) (.inr rfl) (.inl (hL _ (by decide))) (.inr rfl)
    (.inr rfl) (.inr rfl) (.inr rfl) (.inr (same_head _)) (.inr (same_poison _)) (same_ring _)

theorem fr_takeFree_eq {L : List Part} {s₀ s u : State} {n : Nat} (h : Frame L s₀ s) (e : s.takeFree = (n, u))
    (hL : ∀ p ∈ [Part.freeCtr], p ∈ L) : Frame L s₀ u := by
  have x := fr_takeFree h hL; rw [e] at x; exact x

theorem fr_takeDraw {L : List Part} {s₀ s : State} (h : Frame L s₀ s)
    (hL : ∀ p ∈ [Part.lks], p ∈ L) :
    Frame L s₀ s.takeDraw.2 :=
  fr_mk h
    (.inr rfl) (.inr rfl) (.inr rfl) (.inr rfl) (.inr rfl) (.inr rfl) (.inr rfl) (.inr rfl) (.inr rfl)
    (.inl (hL _ (by decide))) (.inr rfl) (.inr rfl) (.inr rfl) (.inr rfl) (.inr rfl) (.inr rfl) (.inr rfl) (.inr rfl)
    (.inr rfl) (.inr rfl) (.inr rfl) (.inr rfl) (.inr rfl) (.inr rfl) (.inr rfl) (.inr rfl) (.inr rfl) (.inr rfl)
    (.inr rfl) (.inr rfl) (.inr rfl) (.inr rfl) (.inr (same_head _)) (.inr (same_poison _)) (same_ring _)

theorem fr_takeDraw_eq {L : List Part} {s₀ s u : State} {n : Nat} (h : Frame L s₀ s) (e : s.takeDraw = (n, u))
    (hL : ∀ p ∈ [Part.lks], p ∈ L) : Frame L s₀ u := by
  have x := fr_takeDraw h hL; rw [e] at x; exact x

/-! ## Folds -/

theorem fr_foldl {α : Type} {L : List Part} {s₀ : State} (f : State → α → State) (hf : ∀ t a, Frame L s₀ t → Frame L s₀ (f t a))
    (l : List α) {t : State} (h : Frame L s₀ t) : Frame L s₀ (l.foldl f t) := foldl_keeps (Frame L s₀) f hf l h

theorem fr_foldl_fst {α β : Type} {L : List Part} {s₀ : State} (f : State × β → α → State × β)
    (hf : ∀ t a, Frame L s₀ t.1 → Frame L s₀ (f t a).1) (l : List α) {t : State × β} (h : Frame L s₀ t.1) :
    Frame L s₀ (l.foldl f t).1 := foldl_keeps (fun r => Frame L s₀ r.1) f hf l h

theorem fr_foldl_snd {α β : Type} {L : List Part} {s₀ : State} (f : β × State → α → β × State)
    (hf : ∀ t a, Frame L s₀ t.2 → Frame L s₀ (f t a).2) (l : List α) {t : β × State} (h : Frame L s₀ t.2) :
    Frame L s₀ (l.foldl f t).2 := foldl_keeps (fun r => Frame L s₀ r.2) f hf l h

theorem fr_foldl_fst_eq {α β : Type} {L : List Part} {s₀ : State} {f : State × β → α → State × β} {l : List α} {t : State × β}
    {u : State} {b : β} (hf : ∀ t a, Frame L s₀ t.1 → Frame L s₀ (f t a).1) (h : Frame L s₀ t.1) (e : l.foldl f t = (u, b)) :
    Frame L s₀ u := by
  have x := fr_foldl_fst f hf l h
  rw [e] at x
  exact x

theorem fr_foldl_snd_eq {α β : Type} {L : List Part} {s₀ : State} {f : β × State → α → β × State} {l : List α} {t : β × State}
    {u : State} {b : β} (hf : ∀ t a, Frame L s₀ t.2 → Frame L s₀ (f t a).2) (h : Frame L s₀ t.2) (e : l.foldl f t = (b, u)) :
    Frame L s₀ u := by
  have x := fr_foldl_snd f hf l h
  rw [e] at x
  exact x

/-! ## Events and the trace (Machine/Flags.lean): they move views, Pending bits, the outputs, two counters and the trace -/

theorem fr_msix {L : List Part} {s₀ s : State} (h : Frame L s₀ s) (fn vec : Nat)
    (hL : ∀ p ∈ [Part.pciPending, .out], p ∈ L) :
    Frame L s₀ (s.msix fn vec) := by
  unfold State.msix
  split
  · split
    · exact fr_emit h _ (sub_trans hL (by decide))
    · exact fr_updPci h (fun p => { p with pendingBits := numAdd p.pendingBits (2048 * fn + vec) }) (.inr fun _ => rfl)
        (.inl (hL _ (by decide)))
  · exact h

theorem fr_setEvent {L : List Part} {s₀ s : State} (h : Frame L s₀ s) (c p : Nat) (b : W32)
    (hL : ∀ p ∈ [Part.pciPending, .views, .out], p ∈ L) :
    Frame L s₀ (s.setEvent c p b) := by
  unfold State.setEvent
  simp only
  split
  · split
    · exact fr_putView h _ _ _ (sub_trans hL (by decide))
    · exact fr_msix (fr_putView h _ _ _ (sub_trans hL (by decide))) _ _ (sub_trans hL (by decide))
  · exact fr_putView h _ _ _ (sub_trans hL (by decide))

theorem fr_traceWrite {L : List Part} {s₀ s : State} (h : Frame L s₀ s) (en : s.dbg.traceEn = true) (code type inst d : Nat)
    (device : Bool)
    (hL : ∀ p ∈ [Part.traceHead, .counters], p ∈ L) :
    Frame L s₀ (s.traceWrite code type inst d device).2 := by
  unfold State.traceWrite
  have h1 : ∀ w l, Frame L s₀ { s with dbg := { s.dbg with traceHead := w, traced := l } } := fun w l =>
    fr_updDbg h (fun g => { g with traceHead := w, traced := l }) (fun _ => ⟨rfl, rfl, rfl⟩) (.inr fun _ => rfl)
      (.inl (hL _ (by decide)))
  simp only
  split
  · exact fr_bump (h1 _ _) _ _ _ _ (sub_trans hL (by decide))
  · refine fr_trans (fr_bump (h1 _ _) dev pDbg 0 1 (sub_trans hL (by decide))) ⟨rfl, ⟨rfl, rfl, rfl⟩, fun p _ => ?_⟩
    by_cases e : p = .domMem
    · subst e
      intro e a ha
      rw [State.updDom, dom_putDom]
      split
      · next k =>
        subst k
        rw [memRead_memPut, if_neg]
        intro k
        refine ha ⟨rfl, en, ?_, ?_⟩
        · exact Nat.le_trans (Nat.le_add_right _ _) k.1
        · have hl : (traceBytes s.tik.timeNs code type inst d device).length = 16 := by
            simp [traceBytes, leBytes]
          rw [hl] at k
          have : s.dbg.traceHead.toNat % 2 ^ (min s.dbg.traceLog2 20) < 2 ^ (min s.dbg.traceLog2 20) :=
            Nat.mod_lt _ (Nat.two_pow_pos _)
          show a < s.dbg.traceBase + 16 * 2 ^ (min s.dbg.traceLog2 20)
          generalize 2 ^ (min s.dbg.traceLog2 20) = n at this k ⊢
          generalize s.dbg.traceHead.toNat % n = i at this k
          omega
      · rfl
    · have key : ∀ f : Dom → Dom, (∀ x, ∀ q : Part, q ≠ .domMem → q.keptDom x (f x)) → ∀ u : State, p.kept u (u.updDom 0 f) := by
        intro f hf u
        have k : ∀ d, p.keptDom (u.dom d) ((u.updDom 0 f).dom d) := by
          intro d
          rw [State.updDom, dom_putDom]
          split
          · next k => subst k; exact hf _ _ e
          · exact keptDom_refl _ _
        cases p <;> first | exact absurd rfl e | rfl | exact ⟨rfl, rfl⟩ | exact k
      refine key _ (fun x q hq => ?_) _
      cases q <;> first | exact absurd rfl hq | exact trivial | exact rfl | exact (fun _ => rfl) | exact same_domLife x | exact same_domRecord x | exact same_domPreempt x | exact same_domSlabs x | exact same_domSched x

theorem fr_trace {L : List Part} {s₀ s : State} (h : Frame L s₀ s) (code type inst d : Nat) (device : Bool)
    (hL : ∀ p ∈ [Part.pciPending, .traceHead, .views, .counters, .out], p ∈ L) :
    Frame L s₀ (s.trace code type inst d device) := by
  unfold State.trace
  split
  · next c =>
    have en : s.dbg.traceEn = true := by
      simp only [Bool.and_eq_true] at c; exact c.1
    have h0 := fr_traceWrite (fr_refl [Part.traceHead, .counters] s) en code type inst d device (fun _ h => h)
    have h1 := fr_traceWrite h en code type inst d device (sub_trans hL (by decide))
    generalize e : s.traceWrite code type inst d device = r at h0 h1 ⊢
    obtain ⟨w, u⟩ := r
    simp only
    split
    · have h2 := fr_setEvent h1 64 pDbg 1 (sub_trans hL (by decide))
      split
      · refine fr_traceWrite h2 ?_ _ _ _ _ _ (sub_trans hL (by decide))
        have := (fr_setEvent (fr_refl [Part.pciPending, .views, .out] u) 64 pDbg 1 (fun _ h => h)).ring.1
        rw [this, h0.ring.1, en]
      · exact h2
    · exact h1
  · exact h

theorem fr_raiseDev {L : List Part} {s₀ s : State} (h : Frame L s₀ s) (p b : Nat)
    (hL : ∀ p ∈ [Part.pciPending, .traceHead, .views, .counters, .out], p ∈ L) : Frame L s₀ (s.raiseDev p b) :=
  fr_trace (fr_foldl _ (fun _ _ h => fr_setEvent h _ _ _ (sub_trans hL (by decide))) _ h) _ _ _ _ _ (sub_trans hL (by decide))

theorem fr_raiseDom {L : List Part} {s₀ s : State} (h : Frame L s₀ s) (p b d : Nat)
    (hL : ∀ p ∈ [Part.pciPending, .traceHead, .views, .counters, .out], p ∈ L) : Frame L s₀ (s.raiseDom p b d) := by
  unfold State.raiseDom
  split
  · exact fr_trace (fr_foldl _ (fun _ _ h => fr_setEvent h _ _ _ (sub_trans hL (by decide))) _ h) _ _ _ _ _ (sub_trans hL (by decide))
  · exact h

theorem fr_raiseCopy {L : List Part} {s₀ s : State} (h : Frame L s₀ s) (p b c : Nat)
    (hL : ∀ p ∈ [Part.pciPending, .traceHead, .views, .counters, .out], p ∈ L) : Frame L s₀ (s.raiseCopy p b c) :=
  fr_trace (fr_setEvent h _ _ _ (sub_trans hL (by decide))) _ _ _ _ _ (sub_trans hL (by decide))

theorem fr_raiseUnit {L : List Part} {s₀ s : State} (h : Frame L s₀ s) (u b : Nat)
    (hL : ∀ p ∈ [Part.pciPending, .traceHead, .views, .counters, .out], p ∈ L) : Frame L s₀ (s.raiseUnit u b) :=
  fr_trace (fr_foldl _ (fun _ _ h => fr_setEvent h _ _ _ (sub_trans hL (by decide))) _ h) _ _ _ _ _ (sub_trans hL (by decide))

end Sys2Proof.Laws
end

