-- ==== Sys2Proof/Laws/FrameOps.lean ====
section
/-! SUPPORT. What the operations of Machine/Ops.lean may change (Safety.Frame): each lemma lists the parts. -/

namespace Sys2Proof.Laws

open Sys2Proof.Machine Sys2Proof.Safety

theorem dfr_putEntry {L : List Part} {x₀ x : Dom} (h : DomFrame L x₀ x) (p : Nat) (e : PageEntry)
    (hL : ∀ p ∈ [Part.domTir], p ∈ L) :
    DomFrame L x₀ (x.putEntry p e) := by
  refine dfr_trans h ?_
  unfold Dom.putEntry
  with_reducible apply dfr_mk
  repeat' first
    | with_reducible exact Or.inr rfl
    | with_reducible exact Or.inr (same_domLife _)
    | with_reducible exact Or.inr (same_domRecord _)
    | with_reducible exact Or.inr (same_domPreempt _)
    | with_reducible exact Or.inr (same_domSlabs _)
    | with_reducible exact Or.inr (same_domSched _)
    | with_reducible exact Or.inr (same_mem _)
    | exact Or.inl (hL .domTir (by decide))

theorem dfr_wipePage {L : List Part} {x₀ x : Dom} (h : DomFrame L x₀ x) (p : Nat) (e : PageEntry)
    (hL : ∀ p ∈ [Part.domTir, .domMem, .domPoison], p ∈ L) : DomFrame L x₀ (x.wipePage p e) := by
  refine dfr_trans (dfr_putEntry h p e (sub_trans hL (by decide))) ?_
  with_reducible apply dfr_mk
  repeat' first
    | with_reducible exact Or.inr rfl
    | with_reducible exact Or.inr (same_domLife _)
    | with_reducible exact Or.inr (same_domRecord _)
    | with_reducible exact Or.inr (same_domPreempt _)
    | with_reducible exact Or.inr (same_domSlabs _)
    | with_reducible exact Or.inr (same_domSched _)
    | exact Or.inl (hL .domMem (by decide))
    | exact Or.inl (hL .domPoison (by decide))

theorem dfr_freeFrame {L : List Part} {x₀ x : Dom} (h : DomFrame L x₀ x) (p : Nat)
    (hL : ∀ p ∈ [Part.domTir], p ∈ L) : DomFrame L x₀ (Dom.freeFrame x p) := by
  unfold Dom.freeFrame
  repeat' (first
    | with_reducible assumption
    | exact sub_trans hL (by decide)
    | split
    | (refine dfr_trans h ?_; with_reducible apply dfr_mk)
    | with_reducible apply dfr_mk
    | with_reducible exact Or.inr rfl
    | with_reducible exact Or.inr (same_mem _)
    | with_reducible exact Or.inr (same_domLife _)
    | with_reducible exact Or.inr (same_domRecord _)
    | with_reducible exact Or.inr (same_domPreempt _)
    | with_reducible exact Or.inr (same_domSlabs _)
    | with_reducible exact Or.inr (same_domSched _)
    | with_reducible exact Or.inl (hL .domTir (by decide)))

theorem fr_atTime {L : List Part} {s₀ s : State} (h₀ : Frame L s₀ s) (nowNs : Nat)
    (hL : ∀ p ∈ [Part.fuses, .tik], p ∈ L) :
    Frame L s₀ (State.atTime s nowNs) := by
  unfold State.atTime
  repeat' (first
    | with_reducible assumption
    | exact sub_trans hL (by decide)
    | (extract_lets +onlyGivenNames x; ((have y : Nat := x); clear y; clear_value x))
    | with_reducible apply fr_updFuses
    | with_reducible apply fr_updTik)

theorem fr_joinTime {L : List Part} {s₀ s : State} (h₀ : Frame L s₀ s) (nowNs : Nat)
    (hL : ∀ p ∈ [Part.tik], p ∈ L) :
    Frame L s₀ (State.joinTime s nowNs) := by
  unfold State.joinTime
  repeat' (first
    | with_reducible assumption
    | exact sub_trans hL (by decide)
    | with_reducible apply fr_updTik)

theorem fr_pickRuns {L : List Part} {s₀ s : State} (h₀ : Frame L s₀ s) (n : Nat) (free : List (Nat × Nat))
    (hL : ∀ p ∈ [Part.freeCtr], p ∈ L) :
    Frame L s₀ (State.pickRuns s n free).2 := by
  unfold State.pickRuns
  repeat' (first
    | with_reducible assumption
    | exact sub_trans hL (by decide)
    | (extract_lets +onlyGivenNames x; first
        | (refine (fun (hx : Frame L s₀ x) => ?_) ?_; (on_goal 1 => clear_value x); (on_goal 2 => subst x))
        | (refine (fun (hx : Frame L s₀ x.1) => ?_) ?_; (on_goal 1 => clear_value x); (on_goal 2 => subst x))
        | (refine (fun (hx : Frame L s₀ x.2) => ?_) ?_; (on_goal 1 => clear_value x); (on_goal 2 => subst x))
        | ((have y : Nat := x); clear y; clear_value x)
        | ((have y : Bool := x); clear y; clear_value x)
        | ((have y : Hdr := x); clear y; clear_value x)
        | ((have y : Slab := x); clear y; clear_value x)
        | ((have y : List Nat := x); clear y; clear_value x)
        | ((have y : Rat := x); clear y; clear_value x)
        | subst x)
    | with_reducible apply fr_takeFree)
theorem fr_pickRuns_eq {L : List Part} {s₀ s : State} (h₀ : Frame L s₀ s) {n : Nat} {free : List (Nat × Nat)} {r₀ : _} {u₀ : State}
    (e₀ : State.pickRuns s n free = (r₀, u₀))
    (hL : ∀ p ∈ [Part.freeCtr], p ∈ L) : Frame L s₀ u₀ := by
  have x := fr_pickRuns h₀ n free hL
  rw [e₀] at x
  exact x

theorem fr_eachDom {L : List Part} {s₀ s : State} (h₀ : Frame L s₀ s) (f : State → Nat → State)
    (hf : ∀ t d, Frame L s₀ t → Frame L s₀ (f t d)) : Frame L s₀ (s.eachDom f) := fr_foldl f hf _ h₀

end Sys2Proof.Laws
end

