-- ==== Sys2Proof/Laws/FrameCmd.lean ====
section
/-! SUPPORT. What the operations of Machine/Cmd.lean may change (Safety.Frame): each lemma lists the parts. -/

namespace Sys2Proof.Laws

open Sys2Proof.Machine Sys2Proof.Safety

theorem fr_postResult {L : List Part} {s₀ s : State} (h₀ : Frame L s₀ s) (copy : Nat) (page : Nat) (r : Nat)
    (hL : ∀ p ∈ [Part.pciPending, .traceHead, .views, .pairs, .counters, .out], p ∈ L) :
    Frame L s₀ (State.postResult s copy page r) := by
  unfold State.postResult
  repeat' (first
    | with_reducible assumption
    | exact sub_trans hL (by decide)
    | (extract_lets +onlyGivenNames x; first
        | (refine (fun (hx : Frame L s₀ x) => ?_) ?_; (on_goal 1 => clear_value x); (on_goal 2 => subst x))
        | subst x)
    | with_reducible apply fr_putPair
    | with_reducible apply fr_raiseCopy
    | split)

theorem fr_runCmd {L : List Part} {s₀ s : State} (h₀ : Frame L s₀ s) (v : View) (page : Nat) (posted : Bool) (f : State → State × Nat)
    (hf : Frame L s₀ (f s).1)
    (hL : ∀ p ∈ [Part.pciPending, .traceHead, .views, .pairs, .counters, .out], p ∈ L) : Frame L s₀ (s.runCmd v page posted f) := by
  unfold State.runCmd
  split
  · exact h₀
  · dsimp only
    split
    · exact fr_raiseCopy h₀ _ _ _ (sub_trans hL (by decide))
    · exact fr_postResult hf _ _ _ (sub_trans hL (by decide))

theorem fr_putArg {L : List Part} {s₀ s : State} (h₀ : Frame L s₀ s) (copy : Nat) (page : Nat) (i : Nat) (w : W64)
    (hL : ∀ p ∈ [Part.pairs], p ∈ L) :
    Frame L s₀ (State.putArg s copy page i w) := by
  unfold State.putArg
  repeat' (first
    | with_reducible assumption
    | exact sub_trans hL (by decide)
    | (extract_lets +onlyGivenNames x; subst x)
    | with_reducible apply fr_putPair)

end Sys2Proof.Laws
end

