-- ==== Sys2Proof/Laws/State.lean ====
section
/-! SUPPORT. What each named update of Machine/Ops.lean leaves in each field and accessor of the state, true by unfolding, and what the events of Machine/Flags.lean keep: no later proof unfolds a record update or an event. -/

namespace Sys2Proof.Laws

open Sys2Proof.Machine Sys2Proof.Safety

/-! ## putDom -/

@[simp] theorem putDom_pending (s : State) (d : Nat) (x : Dom) : (s.putDom d x).pending = s.pending := rfl
@[simp] theorem putDom_boot (s : State) (d : Nat) (x : Dom) : (s.putDom d x).boot = s.boot := rfl
@[simp] theorem putDom_fuses (s : State) (d : Nat) (x : Dom) : (s.putDom d x).fuses = s.fuses := rfl
@[simp] theorem putDom_pci (s : State) (d : Nat) (x : Dom) : (s.putDom d x).pci = s.pci := rfl
@[simp] theorem putDom_tik (s : State) (d : Nat) (x : Dom) : (s.putDom d x).tik = s.tik := rfl
@[simp] theorem putDom_pwr (s : State) (d : Nat) (x : Dom) : (s.putDom d x).pwr = s.pwr := rfl
@[simp] theorem putDom_bdg (s : State) (d : Nat) (x : Dom) : (s.putDom d x).bdg = s.bdg := rfl
@[simp] theorem putDom_memg (s : State) (d : Nat) (x : Dom) : (s.putDom d x).memg = s.memg := rfl
@[simp] theorem putDom_nvm (s : State) (d : Nat) (x : Dom) : (s.putDom d x).nvm = s.nvm := rfl
@[simp] theorem putDom_bas (s : State) (d : Nat) (x : Dom) : (s.putDom d x).bas = s.bas := rfl
@[simp] theorem putDom_fab (s : State) (d : Nat) (x : Dom) : (s.putDom d x).fab = s.fab := rfl
@[simp] theorem putDom_lks (s : State) (d : Nat) (x : Dom) : (s.putDom d x).lks = s.lks := rfl
@[simp] theorem putDom_ful (s : State) (d : Nat) (x : Dom) : (s.putDom d x).ful = s.ful := rfl
@[simp] theorem putDom_dbg (s : State) (d : Nat) (x : Dom) : (s.putDom d x).dbg = s.dbg := rfl
@[simp] theorem putDom_slots (s : State) (d : Nat) (x : Dom) : (s.putDom d x).slots = s.slots := rfl
@[simp] theorem putDom_mbds (s : State) (d : Nat) (x : Dom) : (s.putDom d x).mbds = s.mbds := rfl
@[simp] theorem putDom_units (s : State) (d : Nat) (x : Dom) : (s.putDom d x).units = s.units := rfl
@[simp] theorem putDom_recipe (s : State) (d : Nat) (x : Dom) : (s.putDom d x).recipe = s.recipe := rfl
@[simp] theorem putDom_views (s : State) (d : Nat) (x : Dom) : (s.putDom d x).views = s.views := rfl
@[simp] theorem putDom_pairs (s : State) (d : Nat) (x : Dom) : (s.putDom d x).pairs = s.pairs := rfl
@[simp] theorem putDom_counters (s : State) (d : Nat) (x : Dom) : (s.putDom d x).counters = s.counters := rfl
@[simp] theorem putDom_stretch (s : State) (d : Nat) (x : Dom) : (s.putDom d x).stretch = s.stretch := rfl
@[simp] theorem putDom_latches (s : State) (d : Nat) (x : Dom) : (s.putDom d x).latches = s.latches := rfl
@[simp] theorem putDom_locked (s : State) (d : Nat) (x : Dom) : (s.putDom d x).locked = s.locked := rfl
@[simp] theorem putDom_sels (s : State) (d : Nat) (x : Dom) : (s.putDom d x).sels = s.sels := rfl
@[simp] theorem putDom_commons (s : State) (d : Nat) (x : Dom) : (s.putDom d x).commons = s.commons := rfl
@[simp] theorem putDom_commonsPoison (s : State) (d : Nat) (x : Dom) : (s.putDom d x).commonsPoison = s.commonsPoison := rfl
@[simp] theorem putDom_commonsCounted (s : State) (d : Nat) (x : Dom) : (s.putDom d x).commonsCounted = s.commonsCounted := rfl
@[simp] theorem putDom_acc (s : State) (d : Nat) (x : Dom) : (s.putDom d x).acc = s.acc := rfl
@[simp] theorem putDom_opbuf (s : State) (d : Nat) (x : Dom) : (s.putDom d x).opbuf = s.opbuf := rfl
@[simp] theorem putDom_freeFrames (s : State) (d : Nat) (x : Dom) : (s.putDom d x).freeFrames = s.freeFrames := rfl
@[simp] theorem putDom_atLatch (s : State) (d : Nat) (x : Dom) : (s.putDom d x).atLatch = s.atLatch := rfl
@[simp] theorem putDom_freeCtr (s : State) (d : Nat) (x : Dom) : (s.putDom d x).freeCtr = s.freeCtr := rfl
@[simp] theorem putDom_out (s : State) (d : Nat) (x : Dom) : (s.putDom d x).out = s.out := rfl
@[simp] theorem putDom_slot (s : State) (d : Nat) (x : Dom) (e : Nat) : (s.putDom d x).slot e = s.slot e := rfl
@[simp] theorem putDom_mbd (s : State) (d : Nat) (x : Dom) (e : Nat) : (s.putDom d x).mbd e = s.mbd e := rfl
@[simp] theorem putDom_port (s : State) (d : Nat) (x : Dom) (e : Nat) : (s.putDom d x).port e = s.port e := rfl
@[simp] theorem putDom_unit (s : State) (d : Nat) (x : Dom) (e : Nat) : (s.putDom d x).unit e = s.unit e := rfl
@[simp] theorem putDom_view (s : State) (d : Nat) (x : Dom) (e g : Nat) : (s.putDom d x).view e g = s.view e g := rfl
@[simp] theorem putDom_pair (s : State) (d : Nat) (x : Dom) (e g : Nat) : (s.putDom d x).pair e g = s.pair e g := rfl
@[simp] theorem putDom_counter (s : State) (d : Nat) (x : Dom) (e g i : Nat) : (s.putDom d x).counter e g i = s.counter e g i := rfl
@[simp] theorem putDom_copy (s : State) (d : Nat) (x : Dom) (e : Nat) : (s.putDom d x).copy e = s.copy e := rfl

/-! ## updDom -/

@[simp] theorem updDom_pending (s : State) (d : Nat) (f : Dom → Dom) : (s.updDom d f).pending = s.pending := rfl
@[simp] theorem updDom_boot (s : State) (d : Nat) (f : Dom → Dom) : (s.updDom d f).boot = s.boot := rfl
@[simp] theorem updDom_fuses (s : State) (d : Nat) (f : Dom → Dom) : (s.updDom d f).fuses = s.fuses := rfl
@[simp] theorem updDom_pci (s : State) (d : Nat) (f : Dom → Dom) : (s.updDom d f).pci = s.pci := rfl
@[simp] theorem updDom_tik (s : State) (d : Nat) (f : Dom → Dom) : (s.updDom d f).tik = s.tik := rfl
@[simp] theorem updDom_pwr (s : State) (d : Nat) (f : Dom → Dom) : (s.updDom d f).pwr = s.pwr := rfl
@[simp] theorem updDom_bdg (s : State) (d : Nat) (f : Dom → Dom) : (s.updDom d f).bdg = s.bdg := rfl
@[simp] theorem updDom_memg (s : State) (d : Nat) (f : Dom → Dom) : (s.updDom d f).memg = s.memg := rfl
@[simp] theorem updDom_nvm (s : State) (d : Nat) (f : Dom → Dom) : (s.updDom d f).nvm = s.nvm := rfl
@[simp] theorem updDom_bas (s : State) (d : Nat) (f : Dom → Dom) : (s.updDom d f).bas = s.bas := rfl
@[simp] theorem updDom_fab (s : State) (d : Nat) (f : Dom → Dom) : (s.updDom d f).fab = s.fab := rfl
@[simp] theorem updDom_lks (s : State) (d : Nat) (f : Dom → Dom) : (s.updDom d f).lks = s.lks := rfl
@[simp] theorem updDom_ful (s : State) (d : Nat) (f : Dom → Dom) : (s.updDom d f).ful = s.ful := rfl
@[simp] theorem updDom_dbg (s : State) (d : Nat) (f : Dom → Dom) : (s.updDom d f).dbg = s.dbg := rfl
@[simp] theorem updDom_slots (s : State) (d : Nat) (f : Dom → Dom) : (s.updDom d f).slots = s.slots := rfl
@[simp] theorem updDom_mbds (s : State) (d : Nat) (f : Dom → Dom) : (s.updDom d f).mbds = s.mbds := rfl
@[simp] theorem updDom_units (s : State) (d : Nat) (f : Dom → Dom) : (s.updDom d f).units = s.units := rfl
@[simp] theorem updDom_recipe (s : State) (d : Nat) (f : Dom → Dom) : (s.updDom d f).recipe = s.recipe := rfl
@[simp] theorem updDom_views (s : State) (d : Nat) (f : Dom → Dom) : (s.updDom d f).views = s.views := rfl
@[simp] theorem updDom_pairs (s : State) (d : Nat) (f : Dom → Dom) : (s.updDom d f).pairs = s.pairs := rfl
@[simp] theorem updDom_counters (s : State) (d : Nat) (f : Dom → Dom) : (s.updDom d f).counters = s.counters := rfl
@[simp] theorem updDom_stretch (s : State) (d : Nat) (f : Dom → Dom) : (s.updDom d f).stretch = s.stretch := rfl
@[simp] theorem updDom_latches (s : State) (d : Nat) (f : Dom → Dom) : (s.updDom d f).latches = s.latches := rfl
@[simp] theorem updDom_locked (s : State) (d : Nat) (f : Dom → Dom) : (s.updDom d f).locked = s.locked := rfl
@[simp] theorem updDom_sels (s : State) (d : Nat) (f : Dom → Dom) : (s.updDom d f).sels = s.sels := rfl
@[simp] theorem updDom_commons (s : State) (d : Nat) (f : Dom → Dom) : (s.updDom d f).commons = s.commons := rfl
@[simp] theorem updDom_commonsPoison (s : State) (d : Nat) (f : Dom → Dom) : (s.updDom d f).commonsPoison = s.commonsPoison := rfl
@[simp] theorem updDom_commonsCounted (s : State) (d : Nat) (f : Dom → Dom) : (s.updDom d f).commonsCounted = s.commonsCounted := rfl
@[simp] theorem updDom_acc (s : State) (d : Nat) (f : Dom → Dom) : (s.updDom d f).acc = s.acc := rfl
@[simp] theorem updDom_opbuf (s : State) (d : Nat) (f : Dom → Dom) : (s.updDom d f).opbuf = s.opbuf := rfl
@[simp] theorem updDom_freeFrames (s : State) (d : Nat) (f : Dom → Dom) : (s.updDom d f).freeFrames = s.freeFrames := rfl
@[simp] theorem updDom_atLatch (s : State) (d : Nat) (f : Dom → Dom) : (s.updDom d f).atLatch = s.atLatch := rfl
@[simp] theorem updDom_freeCtr (s : State) (d : Nat) (f : Dom → Dom) : (s.updDom d f).freeCtr = s.freeCtr := rfl
@[simp] theorem updDom_out (s : State) (d : Nat) (f : Dom → Dom) : (s.updDom d f).out = s.out := rfl
@[simp] theorem updDom_slot (s : State) (d : Nat) (f : Dom → Dom) (e : Nat) : (s.updDom d f).slot e = s.slot e := rfl
@[simp] theorem updDom_mbd (s : State) (d : Nat) (f : Dom → Dom) (e : Nat) : (s.updDom d f).mbd e = s.mbd e := rfl
@[simp] theorem updDom_port (s : State) (d : Nat) (f : Dom → Dom) (e : Nat) : (s.updDom d f).port e = s.port e := rfl
@[simp] theorem updDom_unit (s : State) (d : Nat) (f : Dom → Dom) (e : Nat) : (s.updDom d f).unit e = s.unit e := rfl
@[simp] theorem updDom_view (s : State) (d : Nat) (f : Dom → Dom) (e g : Nat) : (s.updDom d f).view e g = s.view e g := rfl
@[simp] theorem updDom_pair (s : State) (d : Nat) (f : Dom → Dom) (e g : Nat) : (s.updDom d f).pair e g = s.pair e g := rfl
@[simp] theorem updDom_counter (s : State) (d : Nat) (f : Dom → Dom) (e g i : Nat) : (s.updDom d f).counter e g i = s.counter e g i := rfl
@[simp] theorem updDom_copy (s : State) (d : Nat) (f : Dom → Dom) (e : Nat) : (s.updDom d f).copy e = s.copy e := rfl

/-! ## putSlot -/

@[simp] theorem putSlot_pending (s : State) (k : Nat) (x : SlotEntry) : (s.putSlot k x).pending = s.pending := rfl
@[simp] theorem putSlot_boot (s : State) (k : Nat) (x : SlotEntry) : (s.putSlot k x).boot = s.boot := rfl
@[simp] theorem putSlot_fuses (s : State) (k : Nat) (x : SlotEntry) : (s.putSlot k x).fuses = s.fuses := rfl
@[simp] theorem putSlot_pci (s : State) (k : Nat) (x : SlotEntry) : (s.putSlot k x).pci = s.pci := rfl
@[simp] theorem putSlot_tik (s : State) (k : Nat) (x : SlotEntry) : (s.putSlot k x).tik = s.tik := rfl
@[simp] theorem putSlot_pwr (s : State) (k : Nat) (x : SlotEntry) : (s.putSlot k x).pwr = s.pwr := rfl
@[simp] theorem putSlot_bdg (s : State) (k : Nat) (x : SlotEntry) : (s.putSlot k x).bdg = s.bdg := rfl
@[simp] theorem putSlot_memg (s : State) (k : Nat) (x : SlotEntry) : (s.putSlot k x).memg = s.memg := rfl
@[simp] theorem putSlot_nvm (s : State) (k : Nat) (x : SlotEntry) : (s.putSlot k x).nvm = s.nvm := rfl
@[simp] theorem putSlot_bas (s : State) (k : Nat) (x : SlotEntry) : (s.putSlot k x).bas = s.bas := rfl
@[simp] theorem putSlot_fab (s : State) (k : Nat) (x : SlotEntry) : (s.putSlot k x).fab = s.fab := rfl
@[simp] theorem putSlot_lks (s : State) (k : Nat) (x : SlotEntry) : (s.putSlot k x).lks = s.lks := rfl
@[simp] theorem putSlot_ful (s : State) (k : Nat) (x : SlotEntry) : (s.putSlot k x).ful = s.ful := rfl
@[simp] theorem putSlot_dbg (s : State) (k : Nat) (x : SlotEntry) : (s.putSlot k x).dbg = s.dbg := rfl
@[simp] theorem putSlot_doms (s : State) (k : Nat) (x : SlotEntry) : (s.putSlot k x).doms = s.doms := rfl
@[simp] theorem putSlot_mbds (s : State) (k : Nat) (x : SlotEntry) : (s.putSlot k x).mbds = s.mbds := rfl
@[simp] theorem putSlot_units (s : State) (k : Nat) (x : SlotEntry) : (s.putSlot k x).units = s.units := rfl
@[simp] theorem putSlot_recipe (s : State) (k : Nat) (x : SlotEntry) : (s.putSlot k x).recipe = s.recipe := rfl
@[simp] theorem putSlot_views (s : State) (k : Nat) (x : SlotEntry) : (s.putSlot k x).views = s.views := rfl
@[simp] theorem putSlot_pairs (s : State) (k : Nat) (x : SlotEntry) : (s.putSlot k x).pairs = s.pairs := rfl
@[simp] theorem putSlot_counters (s : State) (k : Nat) (x : SlotEntry) : (s.putSlot k x).counters = s.counters := rfl
@[simp] theorem putSlot_stretch (s : State) (k : Nat) (x : SlotEntry) : (s.putSlot k x).stretch = s.stretch := rfl
@[simp] theorem putSlot_latches (s : State) (k : Nat) (x : SlotEntry) : (s.putSlot k x).latches = s.latches := rfl
@[simp] theorem putSlot_locked (s : State) (k : Nat) (x : SlotEntry) : (s.putSlot k x).locked = s.locked := rfl
@[simp] theorem putSlot_sels (s : State) (k : Nat) (x : SlotEntry) : (s.putSlot k x).sels = s.sels := rfl
@[simp] theorem putSlot_commons (s : State) (k : Nat) (x : SlotEntry) : (s.putSlot k x).commons = s.commons := rfl
@[simp] theorem putSlot_commonsPoison (s : State) (k : Nat) (x : SlotEntry) : (s.putSlot k x).commonsPoison = s.commonsPoison := rfl
@[simp] theorem putSlot_commonsCounted (s : State) (k : Nat) (x : SlotEntry) : (s.putSlot k x).commonsCounted = s.commonsCounted := rfl
@[simp] theorem putSlot_acc (s : State) (k : Nat) (x : SlotEntry) : (s.putSlot k x).acc = s.acc := rfl
@[simp] theorem putSlot_opbuf (s : State) (k : Nat) (x : SlotEntry) : (s.putSlot k x).opbuf = s.opbuf := rfl
@[simp] theorem putSlot_freeFrames (s : State) (k : Nat) (x : SlotEntry) : (s.putSlot k x).freeFrames = s.freeFrames := rfl
@[simp] theorem putSlot_atLatch (s : State) (k : Nat) (x : SlotEntry) : (s.putSlot k x).atLatch = s.atLatch := rfl
@[simp] theorem putSlot_freeCtr (s : State) (k : Nat) (x : SlotEntry) : (s.putSlot k x).freeCtr = s.freeCtr := rfl
@[simp] theorem putSlot_out (s : State) (k : Nat) (x : SlotEntry) : (s.putSlot k x).out = s.out := rfl
@[simp] theorem putSlot_dom (s : State) (k : Nat) (x : SlotEntry) (e : Nat) : (s.putSlot k x).dom e = s.dom e := rfl
@[simp] theorem putSlot_mbd (s : State) (k : Nat) (x : SlotEntry) (e : Nat) : (s.putSlot k x).mbd e = s.mbd e := rfl
@[simp] theorem putSlot_port (s : State) (k : Nat) (x : SlotEntry) (e : Nat) : (s.putSlot k x).port e = s.port e := rfl
@[simp] theorem putSlot_unit (s : State) (k : Nat) (x : SlotEntry) (e : Nat) : (s.putSlot k x).unit e = s.unit e := rfl
@[simp] theorem putSlot_view (s : State) (k : Nat) (x : SlotEntry) (e g : Nat) : (s.putSlot k x).view e g = s.view e g := rfl
@[simp] theorem putSlot_pair (s : State) (k : Nat) (x : SlotEntry) (e g : Nat) : (s.putSlot k x).pair e g = s.pair e g := rfl
@[simp] theorem putSlot_counter (s : State) (k : Nat) (x : SlotEntry) (e g i : Nat) : (s.putSlot k x).counter e g i = s.counter e g i := rfl
@[simp] theorem putSlot_copy (s : State) (k : Nat) (x : SlotEntry) (e : Nat) : (s.putSlot k x).copy e = s.copy e := rfl

/-! ## updSlot -/

@[simp] theorem updSlot_pending (s : State) (k : Nat) (f : SlotEntry → SlotEntry) : (s.updSlot k f).pending = s.pending := rfl
@[simp] theorem updSlot_boot (s : State) (k : Nat) (f : SlotEntry → SlotEntry) : (s.updSlot k f).boot = s.boot := rfl
@[simp] theorem updSlot_fuses (s : State) (k : Nat) (f : SlotEntry → SlotEntry) : (s.updSlot k f).fuses = s.fuses := rfl
@[simp] theorem updSlot_pci (s : State) (k : Nat) (f : SlotEntry → SlotEntry) : (s.updSlot k f).pci = s.pci := rfl
@[simp] theorem updSlot_tik (s : State) (k : Nat) (f : SlotEntry → SlotEntry) : (s.updSlot k f).tik = s.tik := rfl
@[simp] theorem updSlot_pwr (s : State) (k : Nat) (f : SlotEntry → SlotEntry) : (s.updSlot k f).pwr = s.pwr := rfl
@[simp] theorem updSlot_bdg (s : State) (k : Nat) (f : SlotEntry → SlotEntry) : (s.updSlot k f).bdg = s.bdg := rfl
@[simp] theorem updSlot_memg (s : State) (k : Nat) (f : SlotEntry → SlotEntry) : (s.updSlot k f).memg = s.memg := rfl
@[simp] theorem updSlot_nvm (s : State) (k : Nat) (f : SlotEntry → SlotEntry) : (s.updSlot k f).nvm = s.nvm := rfl
@[simp] theorem updSlot_bas (s : State) (k : Nat) (f : SlotEntry → SlotEntry) : (s.updSlot k f).bas = s.bas := rfl
@[simp] theorem updSlot_fab (s : State) (k : Nat) (f : SlotEntry → SlotEntry) : (s.updSlot k f).fab = s.fab := rfl
@[simp] theorem updSlot_lks (s : State) (k : Nat) (f : SlotEntry → SlotEntry) : (s.updSlot k f).lks = s.lks := rfl
@[simp] theorem updSlot_ful (s : State) (k : Nat) (f : SlotEntry → SlotEntry) : (s.updSlot k f).ful = s.ful := rfl
@[simp] theorem updSlot_dbg (s : State) (k : Nat) (f : SlotEntry → SlotEntry) : (s.updSlot k f).dbg = s.dbg := rfl
@[simp] theorem updSlot_doms (s : State) (k : Nat) (f : SlotEntry → SlotEntry) : (s.updSlot k f).doms = s.doms := rfl
@[simp] theorem updSlot_mbds (s : State) (k : Nat) (f : SlotEntry → SlotEntry) : (s.updSlot k f).mbds = s.mbds := rfl
@[simp] theorem updSlot_units (s : State) (k : Nat) (f : SlotEntry → SlotEntry) : (s.updSlot k f).units = s.units := rfl
@[simp] theorem updSlot_recipe (s : State) (k : Nat) (f : SlotEntry → SlotEntry) : (s.updSlot k f).recipe = s.recipe := rfl
@[simp] theorem updSlot_views (s : State) (k : Nat) (f : SlotEntry → SlotEntry) : (s.updSlot k f).views = s.views := rfl
@[simp] theorem updSlot_pairs (s : State) (k : Nat) (f : SlotEntry → SlotEntry) : (s.updSlot k f).pairs = s.pairs := rfl
@[simp] theorem updSlot_counters (s : State) (k : Nat) (f : SlotEntry → SlotEntry) : (s.updSlot k f).counters = s.counters := rfl
@[simp] theorem updSlot_stretch (s : State) (k : Nat) (f : SlotEntry → SlotEntry) : (s.updSlot k f).stretch = s.stretch := rfl
@[simp] theorem updSlot_latches (s : State) (k : Nat) (f : SlotEntry → SlotEntry) : (s.updSlot k f).latches = s.latches := rfl
@[simp] theorem updSlot_locked (s : State) (k : Nat) (f : SlotEntry → SlotEntry) : (s.updSlot k f).locked = s.locked := rfl
@[simp] theorem updSlot_sels (s : State) (k : Nat) (f : SlotEntry → SlotEntry) : (s.updSlot k f).sels = s.sels := rfl
@[simp] theorem updSlot_commons (s : State) (k : Nat) (f : SlotEntry → SlotEntry) : (s.updSlot k f).commons = s.commons := rfl
@[simp] theorem updSlot_commonsPoison (s : State) (k : Nat) (f : SlotEntry → SlotEntry) : (s.updSlot k f).commonsPoison = s.commonsPoison := rfl
@[simp] theorem updSlot_commonsCounted (s : State) (k : Nat) (f : SlotEntry → SlotEntry) : (s.updSlot k f).commonsCounted = s.commonsCounted := rfl
@[simp] theorem updSlot_acc (s : State) (k : Nat) (f : SlotEntry → SlotEntry) : (s.updSlot k f).acc = s.acc := rfl
@[simp] theorem updSlot_opbuf (s : State) (k : Nat) (f : SlotEntry → SlotEntry) : (s.updSlot k f).opbuf = s.opbuf := rfl
@[simp] theorem updSlot_freeFrames (s : State) (k : Nat) (f : SlotEntry → SlotEntry) : (s.updSlot k f).freeFrames = s.freeFrames := rfl
@[simp] theorem updSlot_atLatch (s : State) (k : Nat) (f : SlotEntry → SlotEntry) : (s.updSlot k f).atLatch = s.atLatch := rfl
@[simp] theorem updSlot_freeCtr (s : State) (k : Nat) (f : SlotEntry → SlotEntry) : (s.updSlot k f).freeCtr = s.freeCtr := rfl
@[simp] theorem updSlot_out (s : State) (k : Nat) (f : SlotEntry → SlotEntry) : (s.updSlot k f).out = s.out := rfl
@[simp] theorem updSlot_dom (s : State) (k : Nat) (f : SlotEntry → SlotEntry) (e : Nat) : (s.updSlot k f).dom e = s.dom e := rfl
@[simp] theorem updSlot_mbd (s : State) (k : Nat) (f : SlotEntry → SlotEntry) (e : Nat) : (s.updSlot k f).mbd e = s.mbd e := rfl
@[simp] theorem updSlot_port (s : State) (k : Nat) (f : SlotEntry → SlotEntry) (e : Nat) : (s.updSlot k f).port e = s.port e := rfl
@[simp] theorem updSlot_unit (s : State) (k : Nat) (f : SlotEntry → SlotEntry) (e : Nat) : (s.updSlot k f).unit e = s.unit e := rfl
@[simp] theorem updSlot_view (s : State) (k : Nat) (f : SlotEntry → SlotEntry) (e g : Nat) : (s.updSlot k f).view e g = s.view e g := rfl
@[simp] theorem updSlot_pair (s : State) (k : Nat) (f : SlotEntry → SlotEntry) (e g : Nat) : (s.updSlot k f).pair e g = s.pair e g := rfl
@[simp] theorem updSlot_counter (s : State) (k : Nat) (f : SlotEntry → SlotEntry) (e g i : Nat) : (s.updSlot k f).counter e g i = s.counter e g i := rfl
@[simp] theorem updSlot_copy (s : State) (k : Nat) (f : SlotEntry → SlotEntry) (e : Nat) : (s.updSlot k f).copy e = s.copy e := rfl

/-! ## putMbd -/

@[simp] theorem putMbd_pending (s : State) (k : Nat) (x : StackState) : (s.putMbd k x).pending = s.pending := rfl
@[simp] theorem putMbd_boot (s : State) (k : Nat) (x : StackState) : (s.putMbd k x).boot = s.boot := rfl
@[simp] theorem putMbd_fuses (s : State) (k : Nat) (x : StackState) : (s.putMbd k x).fuses = s.fuses := rfl
@[simp] theorem putMbd_pci (s : State) (k : Nat) (x : StackState) : (s.putMbd k x).pci = s.pci := rfl
@[simp] theorem putMbd_tik (s : State) (k : Nat) (x : StackState) : (s.putMbd k x).tik = s.tik := rfl
@[simp] theorem putMbd_pwr (s : State) (k : Nat) (x : StackState) : (s.putMbd k x).pwr = s.pwr := rfl
@[simp] theorem putMbd_bdg (s : State) (k : Nat) (x : StackState) : (s.putMbd k x).bdg = s.bdg := rfl
@[simp] theorem putMbd_memg (s : State) (k : Nat) (x : StackState) : (s.putMbd k x).memg = s.memg := rfl
@[simp] theorem putMbd_nvm (s : State) (k : Nat) (x : StackState) : (s.putMbd k x).nvm = s.nvm := rfl
@[simp] theorem putMbd_bas (s : State) (k : Nat) (x : StackState) : (s.putMbd k x).bas = s.bas := rfl
@[simp] theorem putMbd_fab (s : State) (k : Nat) (x : StackState) : (s.putMbd k x).fab = s.fab := rfl
@[simp] theorem putMbd_lks (s : State) (k : Nat) (x : StackState) : (s.putMbd k x).lks = s.lks := rfl
@[simp] theorem putMbd_ful (s : State) (k : Nat) (x : StackState) : (s.putMbd k x).ful = s.ful := rfl
@[simp] theorem putMbd_dbg (s : State) (k : Nat) (x : StackState) : (s.putMbd k x).dbg = s.dbg := rfl
@[simp] theorem putMbd_doms (s : State) (k : Nat) (x : StackState) : (s.putMbd k x).doms = s.doms := rfl
@[simp] theorem putMbd_slots (s : State) (k : Nat) (x : StackState) : (s.putMbd k x).slots = s.slots := rfl
@[simp] theorem putMbd_units (s : State) (k : Nat) (x : StackState) : (s.putMbd k x).units = s.units := rfl
@[simp] theorem putMbd_recipe (s : State) (k : Nat) (x : StackState) : (s.putMbd k x).recipe = s.recipe := rfl
@[simp] theorem putMbd_views (s : State) (k : Nat) (x : StackState) : (s.putMbd k x).views = s.views := rfl
@[simp] theorem putMbd_pairs (s : State) (k : Nat) (x : StackState) : (s.putMbd k x).pairs = s.pairs := rfl
@[simp] theorem putMbd_counters (s : State) (k : Nat) (x : StackState) : (s.putMbd k x).counters = s.counters := rfl
@[simp] theorem putMbd_stretch (s : State) (k : Nat) (x : StackState) : (s.putMbd k x).stretch = s.stretch := rfl
@[simp] theorem putMbd_latches (s : State) (k : Nat) (x : StackState) : (s.putMbd k x).latches = s.latches := rfl
@[simp] theorem putMbd_locked (s : State) (k : Nat) (x : StackState) : (s.putMbd k x).locked = s.locked := rfl
@[simp] theorem putMbd_sels (s : State) (k : Nat) (x : StackState) : (s.putMbd k x).sels = s.sels := rfl
@[simp] theorem putMbd_commons (s : State) (k : Nat) (x : StackState) : (s.putMbd k x).commons = s.commons := rfl
@[simp] theorem putMbd_commonsPoison (s : State) (k : Nat) (x : StackState) : (s.putMbd k x).commonsPoison = s.commonsPoison := rfl
@[simp] theorem putMbd_commonsCounted (s : State) (k : Nat) (x : StackState) : (s.putMbd k x).commonsCounted = s.commonsCounted := rfl
@[simp] theorem putMbd_acc (s : State) (k : Nat) (x : StackState) : (s.putMbd k x).acc = s.acc := rfl
@[simp] theorem putMbd_opbuf (s : State) (k : Nat) (x : StackState) : (s.putMbd k x).opbuf = s.opbuf := rfl
@[simp] theorem putMbd_freeFrames (s : State) (k : Nat) (x : StackState) : (s.putMbd k x).freeFrames = s.freeFrames := rfl
@[simp] theorem putMbd_atLatch (s : State) (k : Nat) (x : StackState) : (s.putMbd k x).atLatch = s.atLatch := rfl
@[simp] theorem putMbd_freeCtr (s : State) (k : Nat) (x : StackState) : (s.putMbd k x).freeCtr = s.freeCtr := rfl
@[simp] theorem putMbd_out (s : State) (k : Nat) (x : StackState) : (s.putMbd k x).out = s.out := rfl
@[simp] theorem putMbd_dom (s : State) (k : Nat) (x : StackState) (e : Nat) : (s.putMbd k x).dom e = s.dom e := rfl
@[simp] theorem putMbd_slot (s : State) (k : Nat) (x : StackState) (e : Nat) : (s.putMbd k x).slot e = s.slot e := rfl
@[simp] theorem putMbd_port (s : State) (k : Nat) (x : StackState) (e : Nat) : (s.putMbd k x).port e = s.port e := rfl
@[simp] theorem putMbd_unit (s : State) (k : Nat) (x : StackState) (e : Nat) : (s.putMbd k x).unit e = s.unit e := rfl
@[simp] theorem putMbd_view (s : State) (k : Nat) (x : StackState) (e g : Nat) : (s.putMbd k x).view e g = s.view e g := rfl
@[simp] theorem putMbd_pair (s : State) (k : Nat) (x : StackState) (e g : Nat) : (s.putMbd k x).pair e g = s.pair e g := rfl
@[simp] theorem putMbd_counter (s : State) (k : Nat) (x : StackState) (e g i : Nat) : (s.putMbd k x).counter e g i = s.counter e g i := rfl
@[simp] theorem putMbd_copy (s : State) (k : Nat) (x : StackState) (e : Nat) : (s.putMbd k x).copy e = s.copy e := rfl

/-! ## updMbd -/

@[simp] theorem updMbd_pending (s : State) (k : Nat) (f : StackState → StackState) : (s.updMbd k f).pending = s.pending := rfl
@[simp] theorem updMbd_boot (s : State) (k : Nat) (f : StackState → StackState) : (s.updMbd k f).boot = s.boot := rfl
@[simp] theorem updMbd_fuses (s : State) (k : Nat) (f : StackState → StackState) : (s.updMbd k f).fuses = s.fuses := rfl
@[simp] theorem updMbd_pci (s : State) (k : Nat) (f : StackState → StackState) : (s.updMbd k f).pci = s.pci := rfl
@[simp] theorem updMbd_tik (s : State) (k : Nat) (f : StackState → StackState) : (s.updMbd k f).tik = s.tik := rfl
@[simp] theorem updMbd_pwr (s : State) (k : Nat) (f : StackState → StackState) : (s.updMbd k f).pwr = s.pwr := rfl
@[simp] theorem updMbd_bdg (s : State) (k : Nat) (f : StackState → StackState) : (s.updMbd k f).bdg = s.bdg := rfl
@[simp] theorem updMbd_memg (s : State) (k : Nat) (f : StackState → StackState) : (s.updMbd k f).memg = s.memg := rfl
@[simp] theorem updMbd_nvm (s : State) (k : Nat) (f : StackState → StackState) : (s.updMbd k f).nvm = s.nvm := rfl
@[simp] theorem updMbd_bas (s : State) (k : Nat) (f : StackState → StackState) : (s.updMbd k f).bas = s.bas := rfl
@[simp] theorem updMbd_fab (s : State) (k : Nat) (f : StackState → StackState) : (s.updMbd k f).fab = s.fab := rfl
@[simp] theorem updMbd_lks (s : State) (k : Nat) (f : StackState → StackState) : (s.updMbd k f).lks = s.lks := rfl
@[simp] theorem updMbd_ful (s : State) (k : Nat) (f : StackState → StackState) : (s.updMbd k f).ful = s.ful := rfl
@[simp] theorem updMbd_dbg (s : State) (k : Nat) (f : StackState → StackState) : (s.updMbd k f).dbg = s.dbg := rfl
@[simp] theorem updMbd_doms (s : State) (k : Nat) (f : StackState → StackState) : (s.updMbd k f).doms = s.doms := rfl
@[simp] theorem updMbd_slots (s : State) (k : Nat) (f : StackState → StackState) : (s.updMbd k f).slots = s.slots := rfl
@[simp] theorem updMbd_units (s : State) (k : Nat) (f : StackState → StackState) : (s.updMbd k f).units = s.units := rfl
@[simp] theorem updMbd_recipe (s : State) (k : Nat) (f : StackState → StackState) : (s.updMbd k f).recipe = s.recipe := rfl
@[simp] theorem updMbd_views (s : State) (k : Nat) (f : StackState → StackState) : (s.updMbd k f).views = s.views := rfl
@[simp] theorem updMbd_pairs (s : State) (k : Nat) (f : StackState → StackState) : (s.updMbd k f).pairs = s.pairs := rfl
@[simp] theorem updMbd_counters (s : State) (k : Nat) (f : StackState → StackState) : (s.updMbd k f).counters = s.counters := rfl
@[simp] theorem updMbd_stretch (s : State) (k : Nat) (f : StackState → StackState) : (s.updMbd k f).stretch = s.stretch := rfl
@[simp] theorem updMbd_latches (s : State) (k : Nat) (f : StackState → StackState) : (s.updMbd k f).latches = s.latches := rfl
@[simp] theorem updMbd_locked (s : State) (k : Nat) (f : StackState → StackState) : (s.updMbd k f).locked = s.locked := rfl
@[simp] theorem updMbd_sels (s : State) (k : Nat) (f : StackState → StackState) : (s.updMbd k f).sels = s.sels := rfl
@[simp] theorem updMbd_commons (s : State) (k : Nat) (f : StackState → StackState) : (s.updMbd k f).commons = s.commons := rfl
@[simp] theorem updMbd_commonsPoison (s : State) (k : Nat) (f : StackState → StackState) : (s.updMbd k f).commonsPoison = s.commonsPoison := rfl
@[simp] theorem updMbd_commonsCounted (s : State) (k : Nat) (f : StackState → StackState) : (s.updMbd k f).commonsCounted = s.commonsCounted := rfl
@[simp] theorem updMbd_acc (s : State) (k : Nat) (f : StackState → StackState) : (s.updMbd k f).acc = s.acc := rfl
@[simp] theorem updMbd_opbuf (s : State) (k : Nat) (f : StackState → StackState) : (s.updMbd k f).opbuf = s.opbuf := rfl
@[simp] theorem updMbd_freeFrames (s : State) (k : Nat) (f : StackState → StackState) : (s.updMbd k f).freeFrames = s.freeFrames := rfl
@[simp] theorem updMbd_atLatch (s : State) (k : Nat) (f : StackState → StackState) : (s.updMbd k f).atLatch = s.atLatch := rfl
@[simp] theorem updMbd_freeCtr (s : State) (k : Nat) (f : StackState → StackState) : (s.updMbd k f).freeCtr = s.freeCtr := rfl
@[simp] theorem updMbd_out (s : State) (k : Nat) (f : StackState → StackState) : (s.updMbd k f).out = s.out := rfl
@[simp] theorem updMbd_dom (s : State) (k : Nat) (f : StackState → StackState) (e : Nat) : (s.updMbd k f).dom e = s.dom e := rfl
@[simp] theorem updMbd_slot (s : State) (k : Nat) (f : StackState → StackState) (e : Nat) : (s.updMbd k f).slot e = s.slot e := rfl
@[simp] theorem updMbd_port (s : State) (k : Nat) (f : StackState → StackState) (e : Nat) : (s.updMbd k f).port e = s.port e := rfl
@[simp] theorem updMbd_unit (s : State) (k : Nat) (f : StackState → StackState) (e : Nat) : (s.updMbd k f).unit e = s.unit e := rfl
@[simp] theorem updMbd_view (s : State) (k : Nat) (f : StackState → StackState) (e g : Nat) : (s.updMbd k f).view e g = s.view e g := rfl
@[simp] theorem updMbd_pair (s : State) (k : Nat) (f : StackState → StackState) (e g : Nat) : (s.updMbd k f).pair e g = s.pair e g := rfl
@[simp] theorem updMbd_counter (s : State) (k : Nat) (f : StackState → StackState) (e g i : Nat) : (s.updMbd k f).counter e g i = s.counter e g i := rfl
@[simp] theorem updMbd_copy (s : State) (k : Nat) (f : StackState → StackState) (e : Nat) : (s.updMbd k f).copy e = s.copy e := rfl

/-! ## putPort -/

@[simp] theorem putPort_pending (s : State) (k : Nat) (x : PortStateRec) : (s.putPort k x).pending = s.pending := rfl
@[simp] theorem putPort_boot (s : State) (k : Nat) (x : PortStateRec) : (s.putPort k x).boot = s.boot := rfl
@[simp] theorem putPort_fuses (s : State) (k : Nat) (x : PortStateRec) : (s.putPort k x).fuses = s.fuses := rfl
@[simp] theorem putPort_pci (s : State) (k : Nat) (x : PortStateRec) : (s.putPort k x).pci = s.pci := rfl
@[simp] theorem putPort_tik (s : State) (k : Nat) (x : PortStateRec) : (s.putPort k x).tik = s.tik := rfl
@[simp] theorem putPort_pwr (s : State) (k : Nat) (x : PortStateRec) : (s.putPort k x).pwr = s.pwr := rfl
@[simp] theorem putPort_bdg (s : State) (k : Nat) (x : PortStateRec) : (s.putPort k x).bdg = s.bdg := rfl
@[simp] theorem putPort_memg (s : State) (k : Nat) (x : PortStateRec) : (s.putPort k x).memg = s.memg := rfl
@[simp] theorem putPort_nvm (s : State) (k : Nat) (x : PortStateRec) : (s.putPort k x).nvm = s.nvm := rfl
@[simp] theorem putPort_bas (s : State) (k : Nat) (x : PortStateRec) : (s.putPort k x).bas = s.bas := rfl
@[simp] theorem putPort_lks (s : State) (k : Nat) (x : PortStateRec) : (s.putPort k x).lks = s.lks := rfl
@[simp] theorem putPort_ful (s : State) (k : Nat) (x : PortStateRec) : (s.putPort k x).ful = s.ful := rfl
@[simp] theorem putPort_dbg (s : State) (k : Nat) (x : PortStateRec) : (s.putPort k x).dbg = s.dbg := rfl
@[simp] theorem putPort_doms (s : State) (k : Nat) (x : PortStateRec) : (s.putPort k x).doms = s.doms := rfl
@[simp] theorem putPort_slots (s : State) (k : Nat) (x : PortStateRec) : (s.putPort k x).slots = s.slots := rfl
@[simp] theorem putPort_mbds (s : State) (k : Nat) (x : PortStateRec) : (s.putPort k x).mbds = s.mbds := rfl
@[simp] theorem putPort_units (s : State) (k : Nat) (x : PortStateRec) : (s.putPort k x).units = s.units := rfl
@[simp] theorem putPort_recipe (s : State) (k : Nat) (x : PortStateRec) : (s.putPort k x).recipe = s.recipe := rfl
@[simp] theorem putPort_views (s : State) (k : Nat) (x : PortStateRec) : (s.putPort k x).views = s.views := rfl
@[simp] theorem putPort_pairs (s : State) (k : Nat) (x : PortStateRec) : (s.putPort k x).pairs = s.pairs := rfl
@[simp] theorem putPort_counters (s : State) (k : Nat) (x : PortStateRec) : (s.putPort k x).counters = s.counters := rfl
@[simp] theorem putPort_stretch (s : State) (k : Nat) (x : PortStateRec) : (s.putPort k x).stretch = s.stretch := rfl
@[simp] theorem putPort_latches (s : State) (k : Nat) (x : PortStateRec) : (s.putPort k x).latches = s.latches := rfl
@[simp] theorem putPort_locked (s : State) (k : Nat) (x : PortStateRec) : (s.putPort k x).locked = s.locked := rfl
@[simp] theorem putPort_sels (s : State) (k : Nat) (x : PortStateRec) : (s.putPort k x).sels = s.sels := rfl
@[simp] theorem putPort_commons (s : State) (k : Nat) (x : PortStateRec) : (s.putPort k x).commons = s.commons := rfl
@[simp] theorem putPort_commonsPoison (s : State) (k : Nat) (x : PortStateRec) : (s.putPort k x).commonsPoison = s.commonsPoison := rfl
@[simp] theorem putPort_commonsCounted (s : State) (k : Nat) (x : PortStateRec) : (s.putPort k x).commonsCounted = s.commonsCounted := rfl
@[simp] theorem putPort_acc (s : State) (k : Nat) (x : PortStateRec) : (s.putPort k x).acc = s.acc := rfl
@[simp] theorem putPort_opbuf (s : State) (k : Nat) (x : PortStateRec) : (s.putPort k x).opbuf = s.opbuf := rfl
@[simp] theorem putPort_freeFrames (s : State) (k : Nat) (x : PortStateRec) : (s.putPort k x).freeFrames = s.freeFrames := rfl
@[simp] theorem putPort_atLatch (s : State) (k : Nat) (x : PortStateRec) : (s.putPort k x).atLatch = s.atLatch := rfl
@[simp] theorem putPort_freeCtr (s : State) (k : Nat) (x : PortStateRec) : (s.putPort k x).freeCtr = s.freeCtr := rfl
@[simp] theorem putPort_out (s : State) (k : Nat) (x : PortStateRec) : (s.putPort k x).out = s.out := rfl
@[simp] theorem putPort_dom (s : State) (k : Nat) (x : PortStateRec) (e : Nat) : (s.putPort k x).dom e = s.dom e := rfl
@[simp] theorem putPort_slot (s : State) (k : Nat) (x : PortStateRec) (e : Nat) : (s.putPort k x).slot e = s.slot e := rfl
@[simp] theorem putPort_mbd (s : State) (k : Nat) (x : PortStateRec) (e : Nat) : (s.putPort k x).mbd e = s.mbd e := rfl
@[simp] theorem putPort_unit (s : State) (k : Nat) (x : PortStateRec) (e : Nat) : (s.putPort k x).unit e = s.unit e := rfl
@[simp] theorem putPort_view (s : State) (k : Nat) (x : PortStateRec) (e g : Nat) : (s.putPort k x).view e g = s.view e g := rfl
@[simp] theorem putPort_pair (s : State) (k : Nat) (x : PortStateRec) (e g : Nat) : (s.putPort k x).pair e g = s.pair e g := rfl
@[simp] theorem putPort_counter (s : State) (k : Nat) (x : PortStateRec) (e g i : Nat) : (s.putPort k x).counter e g i = s.counter e g i := rfl
@[simp] theorem putPort_copy (s : State) (k : Nat) (x : PortStateRec) (e : Nat) : (s.putPort k x).copy e = s.copy e := rfl

/-! ## updPort -/

@[simp] theorem updPort_pending (s : State) (k : Nat) (f : PortStateRec → PortStateRec) : (s.updPort k f).pending = s.pending := rfl
@[simp] theorem updPort_boot (s : State) (k : Nat) (f : PortStateRec → PortStateRec) : (s.updPort k f).boot = s.boot := rfl
@[simp] theorem updPort_fuses (s : State) (k : Nat) (f : PortStateRec → PortStateRec) : (s.updPort k f).fuses = s.fuses := rfl
@[simp] theorem updPort_pci (s : State) (k : Nat) (f : PortStateRec → PortStateRec) : (s.updPort k f).pci = s.pci := rfl
@[simp] theorem updPort_tik (s : State) (k : Nat) (f : PortStateRec → PortStateRec) : (s.updPort k f).tik = s.tik := rfl
@[simp] theorem updPort_pwr (s : State) (k : Nat) (f : PortStateRec → PortStateRec) : (s.updPort k f).pwr = s.pwr := rfl
@[simp] theorem updPort_bdg (s : State) (k : Nat) (f : PortStateRec → PortStateRec) : (s.updPort k f).bdg = s.bdg := rfl
@[simp] theorem updPort_memg (s : State) (k : Nat) (f : PortStateRec → PortStateRec) : (s.updPort k f).memg = s.memg := rfl
@[simp] theorem updPort_nvm (s : State) (k : Nat) (f : PortStateRec → PortStateRec) : (s.updPort k f).nvm = s.nvm := rfl
@[simp] theorem updPort_bas (s : State) (k : Nat) (f : PortStateRec → PortStateRec) : (s.updPort k f).bas = s.bas := rfl
@[simp] theorem updPort_lks (s : State) (k : Nat) (f : PortStateRec → PortStateRec) : (s.updPort k f).lks = s.lks := rfl
@[simp] theorem updPort_ful (s : State) (k : Nat) (f : PortStateRec → PortStateRec) : (s.updPort k f).ful = s.ful := rfl
@[simp] theorem updPort_dbg (s : State) (k : Nat) (f : PortStateRec → PortStateRec) : (s.updPort k f).dbg = s.dbg := rfl
@[simp] theorem updPort_doms (s : State) (k : Nat) (f : PortStateRec → PortStateRec) : (s.updPort k f).doms = s.doms := rfl
@[simp] theorem updPort_slots (s : State) (k : Nat) (f : PortStateRec → PortStateRec) : (s.updPort k f).slots = s.slots := rfl
@[simp] theorem updPort_mbds (s : State) (k : Nat) (f : PortStateRec → PortStateRec) : (s.updPort k f).mbds = s.mbds := rfl
@[simp] theorem updPort_units (s : State) (k : Nat) (f : PortStateRec → PortStateRec) : (s.updPort k f).units = s.units := rfl
@[simp] theorem updPort_recipe (s : State) (k : Nat) (f : PortStateRec → PortStateRec) : (s.updPort k f).recipe = s.recipe := rfl
@[simp] theorem updPort_views (s : State) (k : Nat) (f : PortStateRec → PortStateRec) : (s.updPort k f).views = s.views := rfl
@[simp] theorem updPort_pairs (s : State) (k : Nat) (f : PortStateRec → PortStateRec) : (s.updPort k f).pairs = s.pairs := rfl
@[simp] theorem updPort_counters (s : State) (k : Nat) (f : PortStateRec → PortStateRec) : (s.updPort k f).counters = s.counters := rfl
@[simp] theorem updPort_stretch (s : State) (k : Nat) (f : PortStateRec → PortStateRec) : (s.updPort k f).stretch = s.stretch := rfl
@[simp] theorem updPort_latches (s : State) (k : Nat) (f : PortStateRec → PortStateRec) : (s.updPort k f).latches = s.latches := rfl
@[simp] theorem updPort_locked (s : State) (k : Nat) (f : PortStateRec → PortStateRec) : (s.updPort k f).locked = s.locked := rfl
@[simp] theorem updPort_sels (s : State) (k : Nat) (f : PortStateRec → PortStateRec) : (s.updPort k f).sels = s.sels := rfl
@[simp] theorem updPort_commons (s : State) (k : Nat) (f : PortStateRec → PortStateRec) : (s.updPort k f).commons = s.commons := rfl
@[simp] theorem updPort_commonsPoison (s : State) (k : Nat) (f : PortStateRec → PortStateRec) : (s.updPort k f).commonsPoison = s.commonsPoison := rfl
@[simp] theorem updPort_commonsCounted (s : State) (k : Nat) (f : PortStateRec → PortStateRec) : (s.updPort k f).commonsCounted = s.commonsCounted := rfl
@[simp] theorem updPort_acc (s : State) (k : Nat) (f : PortStateRec → PortStateRec) : (s.updPort k f).acc = s.acc := rfl
@[simp] theorem updPort_opbuf (s : State) (k : Nat) (f : PortStateRec → PortStateRec) : (s.updPort k f).opbuf = s.opbuf := rfl
@[simp] theorem updPort_freeFrames (s : State) (k : Nat) (f : PortStateRec → PortStateRec) : (s.updPort k f).freeFrames = s.freeFrames := rfl
@[simp] theorem updPort_atLatch (s : State) (k : Nat) (f : PortStateRec → PortStateRec) : (s.updPort k f).atLatch = s.atLatch := rfl
@[simp] theorem updPort_freeCtr (s : State) (k : Nat) (f : PortStateRec → PortStateRec) : (s.updPort k f).freeCtr = s.freeCtr := rfl
@[simp] theorem updPort_out (s : State) (k : Nat) (f : PortStateRec → PortStateRec) : (s.updPort k f).out = s.out := rfl
@[simp] theorem updPort_dom (s : State) (k : Nat) (f : PortStateRec → PortStateRec) (e : Nat) : (s.updPort k f).dom e = s.dom e := rfl
@[simp] theorem updPort_slot (s : State) (k : Nat) (f : PortStateRec → PortStateRec) (e : Nat) : (s.updPort k f).slot e = s.slot e := rfl
@[simp] theorem updPort_mbd (s : State) (k : Nat) (f : PortStateRec → PortStateRec) (e : Nat) : (s.updPort k f).mbd e = s.mbd e := rfl
@[simp] theorem updPort_unit (s : State) (k : Nat) (f : PortStateRec → PortStateRec) (e : Nat) : (s.updPort k f).unit e = s.unit e := rfl
@[simp] theorem updPort_view (s : State) (k : Nat) (f : PortStateRec → PortStateRec) (e g : Nat) : (s.updPort k f).view e g = s.view e g := rfl
@[simp] theorem updPort_pair (s : State) (k : Nat) (f : PortStateRec → PortStateRec) (e g : Nat) : (s.updPort k f).pair e g = s.pair e g := rfl
@[simp] theorem updPort_counter (s : State) (k : Nat) (f : PortStateRec → PortStateRec) (e g i : Nat) : (s.updPort k f).counter e g i = s.counter e g i := rfl
@[simp] theorem updPort_copy (s : State) (k : Nat) (f : PortStateRec → PortStateRec) (e : Nat) : (s.updPort k f).copy e = s.copy e := rfl

/-! ## updUnit -/

@[simp] theorem updUnit_pending (s : State) (k : Nat) (f : ArgUnit → ArgUnit) : (s.updUnit k f).pending = s.pending := rfl
@[simp] theorem updUnit_boot (s : State) (k : Nat) (f : ArgUnit → ArgUnit) : (s.updUnit k f).boot = s.boot := rfl
@[simp] theorem updUnit_fuses (s : State) (k : Nat) (f : ArgUnit → ArgUnit) : (s.updUnit k f).fuses = s.fuses := rfl
@[simp] theorem updUnit_pci (s : State) (k : Nat) (f : ArgUnit → ArgUnit) : (s.updUnit k f).pci = s.pci := rfl
@[simp] theorem updUnit_tik (s : State) (k : Nat) (f : ArgUnit → ArgUnit) : (s.updUnit k f).tik = s.tik := rfl
@[simp] theorem updUnit_pwr (s : State) (k : Nat) (f : ArgUnit → ArgUnit) : (s.updUnit k f).pwr = s.pwr := rfl
@[simp] theorem updUnit_bdg (s : State) (k : Nat) (f : ArgUnit → ArgUnit) : (s.updUnit k f).bdg = s.bdg := rfl
@[simp] theorem updUnit_memg (s : State) (k : Nat) (f : ArgUnit → ArgUnit) : (s.updUnit k f).memg = s.memg := rfl
@[simp] theorem updUnit_nvm (s : State) (k : Nat) (f : ArgUnit → ArgUnit) : (s.updUnit k f).nvm = s.nvm := rfl
@[simp] theorem updUnit_bas (s : State) (k : Nat) (f : ArgUnit → ArgUnit) : (s.updUnit k f).bas = s.bas := rfl
@[simp] theorem updUnit_fab (s : State) (k : Nat) (f : ArgUnit → ArgUnit) : (s.updUnit k f).fab = s.fab := rfl
@[simp] theorem updUnit_lks (s : State) (k : Nat) (f : ArgUnit → ArgUnit) : (s.updUnit k f).lks = s.lks := rfl
@[simp] theorem updUnit_ful (s : State) (k : Nat) (f : ArgUnit → ArgUnit) : (s.updUnit k f).ful = s.ful := rfl
@[simp] theorem updUnit_dbg (s : State) (k : Nat) (f : ArgUnit → ArgUnit) : (s.updUnit k f).dbg = s.dbg := rfl
@[simp] theorem updUnit_doms (s : State) (k : Nat) (f : ArgUnit → ArgUnit) : (s.updUnit k f).doms = s.doms := rfl
@[simp] theorem updUnit_slots (s : State) (k : Nat) (f : ArgUnit → ArgUnit) : (s.updUnit k f).slots = s.slots := rfl
@[simp] theorem updUnit_mbds (s : State) (k : Nat) (f : ArgUnit → ArgUnit) : (s.updUnit k f).mbds = s.mbds := rfl
@[simp] theorem updUnit_recipe (s : State) (k : Nat) (f : ArgUnit → ArgUnit) : (s.updUnit k f).recipe = s.recipe := rfl
@[simp] theorem updUnit_views (s : State) (k : Nat) (f : ArgUnit → ArgUnit) : (s.updUnit k f).views = s.views := rfl
@[simp] theorem updUnit_pairs (s : State) (k : Nat) (f : ArgUnit → ArgUnit) : (s.updUnit k f).pairs = s.pairs := rfl
@[simp] theorem updUnit_counters (s : State) (k : Nat) (f : ArgUnit → ArgUnit) : (s.updUnit k f).counters = s.counters := rfl
@[simp] theorem updUnit_stretch (s : State) (k : Nat) (f : ArgUnit → ArgUnit) : (s.updUnit k f).stretch = s.stretch := rfl
@[simp] theorem updUnit_latches (s : State) (k : Nat) (f : ArgUnit → ArgUnit) : (s.updUnit k f).latches = s.latches := rfl
@[simp] theorem updUnit_locked (s : State) (k : Nat) (f : ArgUnit → ArgUnit) : (s.updUnit k f).locked = s.locked := rfl
@[simp] theorem updUnit_sels (s : State) (k : Nat) (f : ArgUnit → ArgUnit) : (s.updUnit k f).sels = s.sels := rfl
@[simp] theorem updUnit_commons (s : State) (k : Nat) (f : ArgUnit → ArgUnit) : (s.updUnit k f).commons = s.commons := rfl
@[simp] theorem updUnit_commonsPoison (s : State) (k : Nat) (f : ArgUnit → ArgUnit) : (s.updUnit k f).commonsPoison = s.commonsPoison := rfl
@[simp] theorem updUnit_commonsCounted (s : State) (k : Nat) (f : ArgUnit → ArgUnit) : (s.updUnit k f).commonsCounted = s.commonsCounted := rfl
@[simp] theorem updUnit_acc (s : State) (k : Nat) (f : ArgUnit → ArgUnit) : (s.updUnit k f).acc = s.acc := rfl
@[simp] theorem updUnit_opbuf (s : State) (k : Nat) (f : ArgUnit → ArgUnit) : (s.updUnit k f).opbuf = s.opbuf := rfl
@[simp] theorem updUnit_freeFrames (s : State) (k : Nat) (f : ArgUnit → ArgUnit) : (s.updUnit k f).freeFrames = s.freeFrames := rfl
@[simp] theorem updUnit_atLatch (s : State) (k : Nat) (f : ArgUnit → ArgUnit) : (s.updUnit k f).atLatch = s.atLatch := rfl
@[simp] theorem updUnit_freeCtr (s : State) (k : Nat) (f : ArgUnit → ArgUnit) : (s.updUnit k f).freeCtr = s.freeCtr := rfl
@[simp] theorem updUnit_out (s : State) (k : Nat) (f : ArgUnit → ArgUnit) : (s.updUnit k f).out = s.out := rfl
@[simp] theorem updUnit_dom (s : State) (k : Nat) (f : ArgUnit → ArgUnit) (e : Nat) : (s.updUnit k f).dom e = s.dom e := rfl
@[simp] theorem updUnit_slot (s : State) (k : Nat) (f : ArgUnit → ArgUnit) (e : Nat) : (s.updUnit k f).slot e = s.slot e := rfl
@[simp] theorem updUnit_mbd (s : State) (k : Nat) (f : ArgUnit → ArgUnit) (e : Nat) : (s.updUnit k f).mbd e = s.mbd e := rfl
@[simp] theorem updUnit_port (s : State) (k : Nat) (f : ArgUnit → ArgUnit) (e : Nat) : (s.updUnit k f).port e = s.port e := rfl
@[simp] theorem updUnit_view (s : State) (k : Nat) (f : ArgUnit → ArgUnit) (e g : Nat) : (s.updUnit k f).view e g = s.view e g := rfl
@[simp] theorem updUnit_pair (s : State) (k : Nat) (f : ArgUnit → ArgUnit) (e g : Nat) : (s.updUnit k f).pair e g = s.pair e g := rfl
@[simp] theorem updUnit_counter (s : State) (k : Nat) (f : ArgUnit → ArgUnit) (e g i : Nat) : (s.updUnit k f).counter e g i = s.counter e g i := rfl
@[simp] theorem updUnit_copy (s : State) (k : Nat) (f : ArgUnit → ArgUnit) (e : Nat) : (s.updUnit k f).copy e = s.copy e := rfl

/-! ## putView -/

@[simp] theorem putView_pending (s : State) (c k : Nat) (x : PageView) : (s.putView c k x).pending = s.pending := rfl
@[simp] theorem putView_boot (s : State) (c k : Nat) (x : PageView) : (s.putView c k x).boot = s.boot := rfl
@[simp] theorem putView_fuses (s : State) (c k : Nat) (x : PageView) : (s.putView c k x).fuses = s.fuses := rfl
@[simp] theorem putView_pci (s : State) (c k : Nat) (x : PageView) : (s.putView c k x).pci = s.pci := rfl
@[simp] theorem putView_tik (s : State) (c k : Nat) (x : PageView) : (s.putView c k x).tik = s.tik := rfl
@[simp] theorem putView_pwr (s : State) (c k : Nat) (x : PageView) : (s.putView c k x).pwr = s.pwr := rfl
@[simp] theorem putView_bdg (s : State) (c k : Nat) (x : PageView) : (s.putView c k x).bdg = s.bdg := rfl
@[simp] theorem putView_memg (s : State) (c k : Nat) (x : PageView) : (s.putView c k x).memg = s.memg := rfl
@[simp] theorem putView_nvm (s : State) (c k : Nat) (x : PageView) : (s.putView c k x).nvm = s.nvm := rfl
@[simp] theorem putView_bas (s : State) (c k : Nat) (x : PageView) : (s.putView c k x).bas = s.bas := rfl
@[simp] theorem putView_fab (s : State) (c k : Nat) (x : PageView) : (s.putView c k x).fab = s.fab := rfl
@[simp] theorem putView_lks (s : State) (c k : Nat) (x : PageView) : (s.putView c k x).lks = s.lks := rfl
@[simp] theorem putView_ful (s : State) (c k : Nat) (x : PageView) : (s.putView c k x).ful = s.ful := rfl
@[simp] theorem putView_dbg (s : State) (c k : Nat) (x : PageView) : (s.putView c k x).dbg = s.dbg := rfl
@[simp] theorem putView_doms (s : State) (c k : Nat) (x : PageView) : (s.putView c k x).doms = s.doms := rfl
@[simp] theorem putView_slots (s : State) (c k : Nat) (x : PageView) : (s.putView c k x).slots = s.slots := rfl
@[simp] theorem putView_mbds (s : State) (c k : Nat) (x : PageView) : (s.putView c k x).mbds = s.mbds := rfl
@[simp] theorem putView_units (s : State) (c k : Nat) (x : PageView) : (s.putView c k x).units = s.units := rfl
@[simp] theorem putView_recipe (s : State) (c k : Nat) (x : PageView) : (s.putView c k x).recipe = s.recipe := rfl
@[simp] theorem putView_pairs (s : State) (c k : Nat) (x : PageView) : (s.putView c k x).pairs = s.pairs := rfl
@[simp] theorem putView_counters (s : State) (c k : Nat) (x : PageView) : (s.putView c k x).counters = s.counters := rfl
@[simp] theorem putView_stretch (s : State) (c k : Nat) (x : PageView) : (s.putView c k x).stretch = s.stretch := rfl
@[simp] theorem putView_latches (s : State) (c k : Nat) (x : PageView) : (s.putView c k x).latches = s.latches := rfl
@[simp] theorem putView_locked (s : State) (c k : Nat) (x : PageView) : (s.putView c k x).locked = s.locked := rfl
@[simp] theorem putView_sels (s : State) (c k : Nat) (x : PageView) : (s.putView c k x).sels = s.sels := rfl
@[simp] theorem putView_commons (s : State) (c k : Nat) (x : PageView) : (s.putView c k x).commons = s.commons := rfl
@[simp] theorem putView_commonsPoison (s : State) (c k : Nat) (x : PageView) : (s.putView c k x).commonsPoison = s.commonsPoison := rfl
@[simp] theorem putView_commonsCounted (s : State) (c k : Nat) (x : PageView) : (s.putView c k x).commonsCounted = s.commonsCounted := rfl
@[simp] theorem putView_acc (s : State) (c k : Nat) (x : PageView) : (s.putView c k x).acc = s.acc := rfl
@[simp] theorem putView_opbuf (s : State) (c k : Nat) (x : PageView) : (s.putView c k x).opbuf = s.opbuf := rfl
@[simp] theorem putView_freeFrames (s : State) (c k : Nat) (x : PageView) : (s.putView c k x).freeFrames = s.freeFrames := rfl
@[simp] theorem putView_atLatch (s : State) (c k : Nat) (x : PageView) : (s.putView c k x).atLatch = s.atLatch := rfl
@[simp] theorem putView_freeCtr (s : State) (c k : Nat) (x : PageView) : (s.putView c k x).freeCtr = s.freeCtr := rfl
@[simp] theorem putView_out (s : State) (c k : Nat) (x : PageView) : (s.putView c k x).out = s.out := rfl
@[simp] theorem putView_dom (s : State) (c k : Nat) (x : PageView) (e : Nat) : (s.putView c k x).dom e = s.dom e := rfl
@[simp] theorem putView_slot (s : State) (c k : Nat) (x : PageView) (e : Nat) : (s.putView c k x).slot e = s.slot e := rfl
@[simp] theorem putView_mbd (s : State) (c k : Nat) (x : PageView) (e : Nat) : (s.putView c k x).mbd e = s.mbd e := rfl
@[simp] theorem putView_port (s : State) (c k : Nat) (x : PageView) (e : Nat) : (s.putView c k x).port e = s.port e := rfl
@[simp] theorem putView_unit (s : State) (c k : Nat) (x : PageView) (e : Nat) : (s.putView c k x).unit e = s.unit e := rfl
@[simp] theorem putView_pair (s : State) (c k : Nat) (x : PageView) (e g : Nat) : (s.putView c k x).pair e g = s.pair e g := rfl
@[simp] theorem putView_counter (s : State) (c k : Nat) (x : PageView) (e g i : Nat) : (s.putView c k x).counter e g i = s.counter e g i := rfl
@[simp] theorem putView_copy (s : State) (c k : Nat) (x : PageView) (e : Nat) : (s.putView c k x).copy e = s.copy e := rfl

/-! ## putPair -/

@[simp] theorem putPair_pending (s : State) (c k : Nat) (x : CmdPair) : (s.putPair c k x).pending = s.pending := rfl
@[simp] theorem putPair_boot (s : State) (c k : Nat) (x : CmdPair) : (s.putPair c k x).boot = s.boot := rfl
@[simp] theorem putPair_fuses (s : State) (c k : Nat) (x : CmdPair) : (s.putPair c k x).fuses = s.fuses := rfl
@[simp] theorem putPair_pci (s : State) (c k : Nat) (x : CmdPair) : (s.putPair c k x).pci = s.pci := rfl
@[simp] theorem putPair_tik (s : State) (c k : Nat) (x : CmdPair) : (s.putPair c k x).tik = s.tik := rfl
@[simp] theorem putPair_pwr (s : State) (c k : Nat) (x : CmdPair) : (s.putPair c k x).pwr = s.pwr := rfl
@[simp] theorem putPair_bdg (s : State) (c k : Nat) (x : CmdPair) : (s.putPair c k x).bdg = s.bdg := rfl
@[simp] theorem putPair_memg (s : State) (c k : Nat) (x : CmdPair) : (s.putPair c k x).memg = s.memg := rfl
@[simp] theorem putPair_nvm (s : State) (c k : Nat) (x : CmdPair) : (s.putPair c k x).nvm = s.nvm := rfl
@[simp] theorem putPair_bas (s : State) (c k : Nat) (x : CmdPair) : (s.putPair c k x).bas = s.bas := rfl
@[simp] theorem putPair_fab (s : State) (c k : Nat) (x : CmdPair) : (s.putPair c k x).fab = s.fab := rfl
@[simp] theorem putPair_lks (s : State) (c k : Nat) (x : CmdPair) : (s.putPair c k x).lks = s.lks := rfl
@[simp] theorem putPair_ful (s : State) (c k : Nat) (x : CmdPair) : (s.putPair c k x).ful = s.ful := rfl
@[simp] theorem putPair_dbg (s : State) (c k : Nat) (x : CmdPair) : (s.putPair c k x).dbg = s.dbg := rfl
@[simp] theorem putPair_doms (s : State) (c k : Nat) (x : CmdPair) : (s.putPair c k x).doms = s.doms := rfl
@[simp] theorem putPair_slots (s : State) (c k : Nat) (x : CmdPair) : (s.putPair c k x).slots = s.slots := rfl
@[simp] theorem putPair_mbds (s : State) (c k : Nat) (x : CmdPair) : (s.putPair c k x).mbds = s.mbds := rfl
@[simp] theorem putPair_units (s : State) (c k : Nat) (x : CmdPair) : (s.putPair c k x).units = s.units := rfl
@[simp] theorem putPair_recipe (s : State) (c k : Nat) (x : CmdPair) : (s.putPair c k x).recipe = s.recipe := rfl
@[simp] theorem putPair_views (s : State) (c k : Nat) (x : CmdPair) : (s.putPair c k x).views = s.views := rfl
@[simp] theorem putPair_counters (s : State) (c k : Nat) (x : CmdPair) : (s.putPair c k x).counters = s.counters := rfl
@[simp] theorem putPair_stretch (s : State) (c k : Nat) (x : CmdPair) : (s.putPair c k x).stretch = s.stretch := rfl
@[simp] theorem putPair_latches (s : State) (c k : Nat) (x : CmdPair) : (s.putPair c k x).latches = s.latches := rfl
@[simp] theorem putPair_locked (s : State) (c k : Nat) (x : CmdPair) : (s.putPair c k x).locked = s.locked := rfl
@[simp] theorem putPair_sels (s : State) (c k : Nat) (x : CmdPair) : (s.putPair c k x).sels = s.sels := rfl
@[simp] theorem putPair_commons (s : State) (c k : Nat) (x : CmdPair) : (s.putPair c k x).commons = s.commons := rfl
@[simp] theorem putPair_commonsPoison (s : State) (c k : Nat) (x : CmdPair) : (s.putPair c k x).commonsPoison = s.commonsPoison := rfl
@[simp] theorem putPair_commonsCounted (s : State) (c k : Nat) (x : CmdPair) : (s.putPair c k x).commonsCounted = s.commonsCounted := rfl
@[simp] theorem putPair_acc (s : State) (c k : Nat) (x : CmdPair) : (s.putPair c k x).acc = s.acc := rfl
@[simp] theorem putPair_opbuf (s : State) (c k : Nat) (x : CmdPair) : (s.putPair c k x).opbuf = s.opbuf := rfl
@[simp] theorem putPair_freeFrames (s : State) (c k : Nat) (x : CmdPair) : (s.putPair c k x).freeFrames = s.freeFrames := rfl
@[simp] theorem putPair_atLatch (s : State) (c k : Nat) (x : CmdPair) : (s.putPair c k x).atLatch = s.atLatch := rfl
@[simp] theorem putPair_freeCtr (s : State) (c k : Nat) (x : CmdPair) : (s.putPair c k x).freeCtr = s.freeCtr := rfl
@[simp] theorem putPair_out (s : State) (c k : Nat) (x : CmdPair) : (s.putPair c k x).out = s.out := rfl
@[simp] theorem putPair_dom (s : State) (c k : Nat) (x : CmdPair) (e : Nat) : (s.putPair c k x).dom e = s.dom e := rfl
@[simp] theorem putPair_slot (s : State) (c k : Nat) (x : CmdPair) (e : Nat) : (s.putPair c k x).slot e = s.slot e := rfl
@[simp] theorem putPair_mbd (s : State) (c k : Nat) (x : CmdPair) (e : Nat) : (s.putPair c k x).mbd e = s.mbd e := rfl
@[simp] theorem putPair_port (s : State) (c k : Nat) (x : CmdPair) (e : Nat) : (s.putPair c k x).port e = s.port e := rfl
@[simp] theorem putPair_unit (s : State) (c k : Nat) (x : CmdPair) (e : Nat) : (s.putPair c k x).unit e = s.unit e := rfl
@[simp] theorem putPair_view (s : State) (c k : Nat) (x : CmdPair) (e g : Nat) : (s.putPair c k x).view e g = s.view e g := rfl
@[simp] theorem putPair_counter (s : State) (c k : Nat) (x : CmdPair) (e g i : Nat) : (s.putPair c k x).counter e g i = s.counter e g i := rfl
@[simp] theorem putPair_copy (s : State) (c k : Nat) (x : CmdPair) (e : Nat) : (s.putPair c k x).copy e = s.copy e := rfl

/-! ## updTik -/

@[simp] theorem updTik_pending (s : State) (f : TikState → TikState) : (s.updTik f).pending = s.pending := rfl
@[simp] theorem updTik_boot (s : State) (f : TikState → TikState) : (s.updTik f).boot = s.boot := rfl
@[simp] theorem updTik_fuses (s : State) (f : TikState → TikState) : (s.updTik f).fuses = s.fuses := rfl
@[simp] theorem updTik_pci (s : State) (f : TikState → TikState) : (s.updTik f).pci = s.pci := rfl
@[simp] theorem updTik_tik (s : State) (f : TikState → TikState) : (s.updTik f).tik = f s.tik := rfl
@[simp] theorem updTik_pwr (s : State) (f : TikState → TikState) : (s.updTik f).pwr = s.pwr := rfl
@[simp] theorem updTik_bdg (s : State) (f : TikState → TikState) : (s.updTik f).bdg = s.bdg := rfl
@[simp] theorem updTik_memg (s : State) (f : TikState → TikState) : (s.updTik f).memg = s.memg := rfl
@[simp] theorem updTik_nvm (s : State) (f : TikState → TikState) : (s.updTik f).nvm = s.nvm := rfl
@[simp] theorem updTik_bas (s : State) (f : TikState → TikState) : (s.updTik f).bas = s.bas := rfl
@[simp] theorem updTik_fab (s : State) (f : TikState → TikState) : (s.updTik f).fab = s.fab := rfl
@[simp] theorem updTik_lks (s : State) (f : TikState → TikState) : (s.updTik f).lks = s.lks := rfl
@[simp] theorem updTik_ful (s : State) (f : TikState → TikState) : (s.updTik f).ful = s.ful := rfl
@[simp] theorem updTik_dbg (s : State) (f : TikState → TikState) : (s.updTik f).dbg = s.dbg := rfl
@[simp] theorem updTik_doms (s : State) (f : TikState → TikState) : (s.updTik f).doms = s.doms := rfl
@[simp] theorem updTik_slots (s : State) (f : TikState → TikState) : (s.updTik f).slots = s.slots := rfl
@[simp] theorem updTik_mbds (s : State) (f : TikState → TikState) : (s.updTik f).mbds = s.mbds := rfl
@[simp] theorem updTik_units (s : State) (f : TikState → TikState) : (s.updTik f).units = s.units := rfl
@[simp] theorem updTik_recipe (s : State) (f : TikState → TikState) : (s.updTik f).recipe = s.recipe := rfl
@[simp] theorem updTik_views (s : State) (f : TikState → TikState) : (s.updTik f).views = s.views := rfl
@[simp] theorem updTik_pairs (s : State) (f : TikState → TikState) : (s.updTik f).pairs = s.pairs := rfl
@[simp] theorem updTik_counters (s : State) (f : TikState → TikState) : (s.updTik f).counters = s.counters := rfl
@[simp] theorem updTik_stretch (s : State) (f : TikState → TikState) : (s.updTik f).stretch = s.stretch := rfl
@[simp] theorem updTik_latches (s : State) (f : TikState → TikState) : (s.updTik f).latches = s.latches := rfl
@[simp] theorem updTik_locked (s : State) (f : TikState → TikState) : (s.updTik f).locked = s.locked := rfl
@[simp] theorem updTik_sels (s : State) (f : TikState → TikState) : (s.updTik f).sels = s.sels := rfl
@[simp] theorem updTik_commons (s : State) (f : TikState → TikState) : (s.updTik f).commons = s.commons := rfl
@[simp] theorem updTik_commonsPoison (s : State) (f : TikState → TikState) : (s.updTik f).commonsPoison = s.commonsPoison := rfl
@[simp] theorem updTik_commonsCounted (s : State) (f : TikState → TikState) : (s.updTik f).commonsCounted = s.commonsCounted := rfl
@[simp] theorem updTik_acc (s : State) (f : TikState → TikState) : (s.updTik f).acc = s.acc := rfl
@[simp] theorem updTik_opbuf (s : State) (f : TikState → TikState) : (s.updTik f).opbuf = s.opbuf := rfl
@[simp] theorem updTik_freeFrames (s : State) (f : TikState → TikState) : (s.updTik f).freeFrames = s.freeFrames := rfl
@[simp] theorem updTik_atLatch (s : State) (f : TikState → TikState) : (s.updTik f).atLatch = s.atLatch := rfl
@[simp] theorem updTik_freeCtr (s : State) (f : TikState → TikState) : (s.updTik f).freeCtr = s.freeCtr := rfl
@[simp] theorem updTik_out (s : State) (f : TikState → TikState) : (s.updTik f).out = s.out := rfl
@[simp] theorem updTik_dom (s : State) (f : TikState → TikState) (e : Nat) : (s.updTik f).dom e = s.dom e := rfl
@[simp] theorem updTik_slot (s : State) (f : TikState → TikState) (e : Nat) : (s.updTik f).slot e = s.slot e := rfl
@[simp] theorem updTik_mbd (s : State) (f : TikState → TikState) (e : Nat) : (s.updTik f).mbd e = s.mbd e := rfl
@[simp] theorem updTik_port (s : State) (f : TikState → TikState) (e : Nat) : (s.updTik f).port e = s.port e := rfl
@[simp] theorem updTik_unit (s : State) (f : TikState → TikState) (e : Nat) : (s.updTik f).unit e = s.unit e := rfl
@[simp] theorem updTik_view (s : State) (f : TikState → TikState) (e g : Nat) : (s.updTik f).view e g = s.view e g := rfl
@[simp] theorem updTik_pair (s : State) (f : TikState → TikState) (e g : Nat) : (s.updTik f).pair e g = s.pair e g := rfl
@[simp] theorem updTik_counter (s : State) (f : TikState → TikState) (e g i : Nat) : (s.updTik f).counter e g i = s.counter e g i := rfl
@[simp] theorem updTik_copy (s : State) (f : TikState → TikState) (e : Nat) : (s.updTik f).copy e = s.copy e := rfl

/-! ## updPwr -/

@[simp] theorem updPwr_pending (s : State) (f : PowerState → PowerState) : (s.updPwr f).pending = s.pending := rfl
@[simp] theorem updPwr_boot (s : State) (f : PowerState → PowerState) : (s.updPwr f).boot = s.boot := rfl
@[simp] theorem updPwr_fuses (s : State) (f : PowerState → PowerState) : (s.updPwr f).fuses = s.fuses := rfl
@[simp] theorem updPwr_pci (s : State) (f : PowerState → PowerState) : (s.updPwr f).pci = s.pci := rfl
@[simp] theorem updPwr_tik (s : State) (f : PowerState → PowerState) : (s.updPwr f).tik = s.tik := rfl
@[simp] theorem updPwr_pwr (s : State) (f : PowerState → PowerState) : (s.updPwr f).pwr = f s.pwr := rfl
@[simp] theorem updPwr_bdg (s : State) (f : PowerState → PowerState) : (s.updPwr f).bdg = s.bdg := rfl
@[simp] theorem updPwr_memg (s : State) (f : PowerState → PowerState) : (s.updPwr f).memg = s.memg := rfl
@[simp] theorem updPwr_nvm (s : State) (f : PowerState → PowerState) : (s.updPwr f).nvm = s.nvm := rfl
@[simp] theorem updPwr_bas (s : State) (f : PowerState → PowerState) : (s.updPwr f).bas = s.bas := rfl
@[simp] theorem updPwr_fab (s : State) (f : PowerState → PowerState) : (s.updPwr f).fab = s.fab := rfl
@[simp] theorem updPwr_lks (s : State) (f : PowerState → PowerState) : (s.updPwr f).lks = s.lks := rfl
@[simp] theorem updPwr_ful (s : State) (f : PowerState → PowerState) : (s.updPwr f).ful = s.ful := rfl
@[simp] theorem updPwr_dbg (s : State) (f : PowerState → PowerState) : (s.updPwr f).dbg = s.dbg := rfl
@[simp] theorem updPwr_doms (s : State) (f : PowerState → PowerState) : (s.updPwr f).doms = s.doms := rfl
@[simp] theorem updPwr_slots (s : State) (f : PowerState → PowerState) : (s.updPwr f).slots = s.slots := rfl
@[simp] theorem updPwr_mbds (s : State) (f : PowerState → PowerState) : (s.updPwr f).mbds = s.mbds := rfl
@[simp] theorem updPwr_units (s : State) (f : PowerState → PowerState) : (s.updPwr f).units = s.units := rfl
@[simp] theorem updPwr_recipe (s : State) (f : PowerState → PowerState) : (s.updPwr f).recipe = s.recipe := rfl
@[simp] theorem updPwr_views (s : State) (f : PowerState → PowerState) : (s.updPwr f).views = s.views := rfl
@[simp] theorem updPwr_pairs (s : State) (f : PowerState → PowerState) : (s.updPwr f).pairs = s.pairs := rfl
@[simp] theorem updPwr_counters (s : State) (f : PowerState → PowerState) : (s.updPwr f).counters = s.counters := rfl
@[simp] theorem updPwr_stretch (s : State) (f : PowerState → PowerState) : (s.updPwr f).stretch = s.stretch := rfl
@[simp] theorem updPwr_latches (s : State) (f : PowerState → PowerState) : (s.updPwr f).latches = s.latches := rfl
@[simp] theorem updPwr_locked (s : State) (f : PowerState → PowerState) : (s.updPwr f).locked = s.locked := rfl
@[simp] theorem updPwr_sels (s : State) (f : PowerState → PowerState) : (s.updPwr f).sels = s.sels := rfl
@[simp] theorem updPwr_commons (s : State) (f : PowerState → PowerState) : (s.updPwr f).commons = s.commons := rfl
@[simp] theorem updPwr_commonsPoison (s : State) (f : PowerState → PowerState) : (s.updPwr f).commonsPoison = s.commonsPoison := rfl
@[simp] theorem updPwr_commonsCounted (s : State) (f : PowerState → PowerState) : (s.updPwr f).commonsCounted = s.commonsCounted := rfl
@[simp] theorem updPwr_acc (s : State) (f : PowerState → PowerState) : (s.updPwr f).acc = s.acc := rfl
@[simp] theorem updPwr_opbuf (s : State) (f : PowerState → PowerState) : (s.updPwr f).opbuf = s.opbuf := rfl
@[simp] theorem updPwr_freeFrames (s : State) (f : PowerState → PowerState) : (s.updPwr f).freeFrames = s.freeFrames := rfl
@[simp] theorem updPwr_atLatch (s : State) (f : PowerState → PowerState) : (s.updPwr f).atLatch = s.atLatch := rfl
@[simp] theorem updPwr_freeCtr (s : State) (f : PowerState → PowerState) : (s.updPwr f).freeCtr = s.freeCtr := rfl
@[simp] theorem updPwr_out (s : State) (f : PowerState → PowerState) : (s.updPwr f).out = s.out := rfl
@[simp] theorem updPwr_dom (s : State) (f : PowerState → PowerState) (e : Nat) : (s.updPwr f).dom e = s.dom e := rfl
@[simp] theorem updPwr_slot (s : State) (f : PowerState → PowerState) (e : Nat) : (s.updPwr f).slot e = s.slot e := rfl
@[simp] theorem updPwr_mbd (s : State) (f : PowerState → PowerState) (e : Nat) : (s.updPwr f).mbd e = s.mbd e := rfl
@[simp] theorem updPwr_port (s : State) (f : PowerState → PowerState) (e : Nat) : (s.updPwr f).port e = s.port e := rfl
@[simp] theorem updPwr_unit (s : State) (f : PowerState → PowerState) (e : Nat) : (s.updPwr f).unit e = s.unit e := rfl
@[simp] theorem updPwr_view (s : State) (f : PowerState → PowerState) (e g : Nat) : (s.updPwr f).view e g = s.view e g := rfl
@[simp] theorem updPwr_pair (s : State) (f : PowerState → PowerState) (e g : Nat) : (s.updPwr f).pair e g = s.pair e g := rfl
@[simp] theorem updPwr_counter (s : State) (f : PowerState → PowerState) (e g i : Nat) : (s.updPwr f).counter e g i = s.counter e g i := rfl
@[simp] theorem updPwr_copy (s : State) (f : PowerState → PowerState) (e : Nat) : (s.updPwr f).copy e = s.copy e := rfl

/-! ## updPci -/

@[simp] theorem updPci_pending (s : State) (f : PciState → PciState) : (s.updPci f).pending = s.pending := rfl
@[simp] theorem updPci_boot (s : State) (f : PciState → PciState) : (s.updPci f).boot = s.boot := rfl
@[simp] theorem updPci_fuses (s : State) (f : PciState → PciState) : (s.updPci f).fuses = s.fuses := rfl
@[simp] theorem updPci_pci (s : State) (f : PciState → PciState) : (s.updPci f).pci = f s.pci := rfl
@[simp] theorem updPci_tik (s : State) (f : PciState → PciState) : (s.updPci f).tik = s.tik := rfl
@[simp] theorem updPci_pwr (s : State) (f : PciState → PciState) : (s.updPci f).pwr = s.pwr := rfl
@[simp] theorem updPci_bdg (s : State) (f : PciState → PciState) : (s.updPci f).bdg = s.bdg := rfl
@[simp] theorem updPci_memg (s : State) (f : PciState → PciState) : (s.updPci f).memg = s.memg := rfl
@[simp] theorem updPci_nvm (s : State) (f : PciState → PciState) : (s.updPci f).nvm = s.nvm := rfl
@[simp] theorem updPci_bas (s : State) (f : PciState → PciState) : (s.updPci f).bas = s.bas := rfl
@[simp] theorem updPci_fab (s : State) (f : PciState → PciState) : (s.updPci f).fab = s.fab := rfl
@[simp] theorem updPci_lks (s : State) (f : PciState → PciState) : (s.updPci f).lks = s.lks := rfl
@[simp] theorem updPci_ful (s : State) (f : PciState → PciState) : (s.updPci f).ful = s.ful := rfl
@[simp] theorem updPci_dbg (s : State) (f : PciState → PciState) : (s.updPci f).dbg = s.dbg := rfl
@[simp] theorem updPci_doms (s : State) (f : PciState → PciState) : (s.updPci f).doms = s.doms := rfl
@[simp] theorem updPci_slots (s : State) (f : PciState → PciState) : (s.updPci f).slots = s.slots := rfl
@[simp] theorem updPci_mbds (s : State) (f : PciState → PciState) : (s.updPci f).mbds = s.mbds := rfl
@[simp] theorem updPci_units (s : State) (f : PciState → PciState) : (s.updPci f).units = s.units := rfl
@[simp] theorem updPci_recipe (s : State) (f : PciState → PciState) : (s.updPci f).recipe = s.recipe := rfl
@[simp] theorem updPci_views (s : State) (f : PciState → PciState) : (s.updPci f).views = s.views := rfl
@[simp] theorem updPci_pairs (s : State) (f : PciState → PciState) : (s.updPci f).pairs = s.pairs := rfl
@[simp] theorem updPci_counters (s : State) (f : PciState → PciState) : (s.updPci f).counters = s.counters := rfl
@[simp] theorem updPci_stretch (s : State) (f : PciState → PciState) : (s.updPci f).stretch = s.stretch := rfl
@[simp] theorem updPci_latches (s : State) (f : PciState → PciState) : (s.updPci f).latches = s.latches := rfl
@[simp] theorem updPci_locked (s : State) (f : PciState → PciState) : (s.updPci f).locked = s.locked := rfl
@[simp] theorem updPci_sels (s : State) (f : PciState → PciState) : (s.updPci f).sels = s.sels := rfl
@[simp] theorem updPci_commons (s : State) (f : PciState → PciState) : (s.updPci f).commons = s.commons := rfl
@[simp] theorem updPci_commonsPoison (s : State) (f : PciState → PciState) : (s.updPci f).commonsPoison = s.commonsPoison := rfl
@[simp] theorem updPci_commonsCounted (s : State) (f : PciState → PciState) : (s.updPci f).commonsCounted = s.commonsCounted := rfl
@[simp] theorem updPci_acc (s : State) (f : PciState → PciState) : (s.updPci f).acc = s.acc := rfl
@[simp] theorem updPci_opbuf (s : State) (f : PciState → PciState) : (s.updPci f).opbuf = s.opbuf := rfl
@[simp] theorem updPci_freeFrames (s : State) (f : PciState → PciState) : (s.updPci f).freeFrames = s.freeFrames := rfl
@[simp] theorem updPci_atLatch (s : State) (f : PciState → PciState) : (s.updPci f).atLatch = s.atLatch := rfl
@[simp] theorem updPci_freeCtr (s : State) (f : PciState → PciState) : (s.updPci f).freeCtr = s.freeCtr := rfl
@[simp] theorem updPci_out (s : State) (f : PciState → PciState) : (s.updPci f).out = s.out := rfl
@[simp] theorem updPci_dom (s : State) (f : PciState → PciState) (e : Nat) : (s.updPci f).dom e = s.dom e := rfl
@[simp] theorem updPci_slot (s : State) (f : PciState → PciState) (e : Nat) : (s.updPci f).slot e = s.slot e := rfl
@[simp] theorem updPci_mbd (s : State) (f : PciState → PciState) (e : Nat) : (s.updPci f).mbd e = s.mbd e := rfl
@[simp] theorem updPci_port (s : State) (f : PciState → PciState) (e : Nat) : (s.updPci f).port e = s.port e := rfl
@[simp] theorem updPci_unit (s : State) (f : PciState → PciState) (e : Nat) : (s.updPci f).unit e = s.unit e := rfl
@[simp] theorem updPci_view (s : State) (f : PciState → PciState) (e g : Nat) : (s.updPci f).view e g = s.view e g := rfl
@[simp] theorem updPci_pair (s : State) (f : PciState → PciState) (e g : Nat) : (s.updPci f).pair e g = s.pair e g := rfl
@[simp] theorem updPci_counter (s : State) (f : PciState → PciState) (e g i : Nat) : (s.updPci f).counter e g i = s.counter e g i := rfl
@[simp] theorem updPci_copy (s : State) (f : PciState → PciState) (e : Nat) : (s.updPci f).copy e = s.copy e := rfl

/-! ## updBoot -/

@[simp] theorem updBoot_pending (s : State) (f : BootState → BootState) : (s.updBoot f).pending = s.pending := rfl
@[simp] theorem updBoot_boot (s : State) (f : BootState → BootState) : (s.updBoot f).boot = f s.boot := rfl
@[simp] theorem updBoot_fuses (s : State) (f : BootState → BootState) : (s.updBoot f).fuses = s.fuses := rfl
@[simp] theorem updBoot_pci (s : State) (f : BootState → BootState) : (s.updBoot f).pci = s.pci := rfl
@[simp] theorem updBoot_tik (s : State) (f : BootState → BootState) : (s.updBoot f).tik = s.tik := rfl
@[simp] theorem updBoot_pwr (s : State) (f : BootState → BootState) : (s.updBoot f).pwr = s.pwr := rfl
@[simp] theorem updBoot_bdg (s : State) (f : BootState → BootState) : (s.updBoot f).bdg = s.bdg := rfl
@[simp] theorem updBoot_memg (s : State) (f : BootState → BootState) : (s.updBoot f).memg = s.memg := rfl
@[simp] theorem updBoot_nvm (s : State) (f : BootState → BootState) : (s.updBoot f).nvm = s.nvm := rfl
@[simp] theorem updBoot_bas (s : State) (f : BootState → BootState) : (s.updBoot f).bas = s.bas := rfl
@[simp] theorem updBoot_fab (s : State) (f : BootState → BootState) : (s.updBoot f).fab = s.fab := rfl
@[simp] theorem updBoot_lks (s : State) (f : BootState → BootState) : (s.updBoot f).lks = s.lks := rfl
@[simp] theorem updBoot_ful (s : State) (f : BootState → BootState) : (s.updBoot f).ful = s.ful := rfl
@[simp] theorem updBoot_dbg (s : State) (f : BootState → BootState) : (s.updBoot f).dbg = s.dbg := rfl
@[simp] theorem updBoot_doms (s : State) (f : BootState → BootState) : (s.updBoot f).doms = s.doms := rfl
@[simp] theorem updBoot_slots (s : State) (f : BootState → BootState) : (s.updBoot f).slots = s.slots := rfl
@[simp] theorem updBoot_mbds (s : State) (f : BootState → BootState) : (s.updBoot f).mbds = s.mbds := rfl
@[simp] theorem updBoot_units (s : State) (f : BootState → BootState) : (s.updBoot f).units = s.units := rfl
@[simp] theorem updBoot_recipe (s : State) (f : BootState → BootState) : (s.updBoot f).recipe = s.recipe := rfl
@[simp] theorem updBoot_views (s : State) (f : BootState → BootState) : (s.updBoot f).views = s.views := rfl
@[simp] theorem updBoot_pairs (s : State) (f : BootState → BootState) : (s.updBoot f).pairs = s.pairs := rfl
@[simp] theorem updBoot_counters (s : State) (f : BootState → BootState) : (s.updBoot f).counters = s.counters := rfl
@[simp] theorem updBoot_stretch (s : State) (f : BootState → BootState) : (s.updBoot f).stretch = s.stretch := rfl
@[simp] theorem updBoot_latches (s : State) (f : BootState → BootState) : (s.updBoot f).latches = s.latches := rfl
@[simp] theorem updBoot_locked (s : State) (f : BootState → BootState) : (s.updBoot f).locked = s.locked := rfl
@[simp] theorem updBoot_sels (s : State) (f : BootState → BootState) : (s.updBoot f).sels = s.sels := rfl
@[simp] theorem updBoot_commons (s : State) (f : BootState → BootState) : (s.updBoot f).commons = s.commons := rfl
@[simp] theorem updBoot_commonsPoison (s : State) (f : BootState → BootState) : (s.updBoot f).commonsPoison = s.commonsPoison := rfl
@[simp] theorem updBoot_commonsCounted (s : State) (f : BootState → BootState) : (s.updBoot f).commonsCounted = s.commonsCounted := rfl
@[simp] theorem updBoot_acc (s : State) (f : BootState → BootState) : (s.updBoot f).acc = s.acc := rfl
@[simp] theorem updBoot_opbuf (s : State) (f : BootState → BootState) : (s.updBoot f).opbuf = s.opbuf := rfl
@[simp] theorem updBoot_freeFrames (s : State) (f : BootState → BootState) : (s.updBoot f).freeFrames = s.freeFrames := rfl
@[simp] theorem updBoot_atLatch (s : State) (f : BootState → BootState) : (s.updBoot f).atLatch = s.atLatch := rfl
@[simp] theorem updBoot_freeCtr (s : State) (f : BootState → BootState) : (s.updBoot f).freeCtr = s.freeCtr := rfl
@[simp] theorem updBoot_out (s : State) (f : BootState → BootState) : (s.updBoot f).out = s.out := rfl
@[simp] theorem updBoot_dom (s : State) (f : BootState → BootState) (e : Nat) : (s.updBoot f).dom e = s.dom e := rfl
@[simp] theorem updBoot_slot (s : State) (f : BootState → BootState) (e : Nat) : (s.updBoot f).slot e = s.slot e := rfl
@[simp] theorem updBoot_mbd (s : State) (f : BootState → BootState) (e : Nat) : (s.updBoot f).mbd e = s.mbd e := rfl
@[simp] theorem updBoot_port (s : State) (f : BootState → BootState) (e : Nat) : (s.updBoot f).port e = s.port e := rfl
@[simp] theorem updBoot_unit (s : State) (f : BootState → BootState) (e : Nat) : (s.updBoot f).unit e = s.unit e := rfl
@[simp] theorem updBoot_view (s : State) (f : BootState → BootState) (e g : Nat) : (s.updBoot f).view e g = s.view e g := rfl
@[simp] theorem updBoot_pair (s : State) (f : BootState → BootState) (e g : Nat) : (s.updBoot f).pair e g = s.pair e g := rfl
@[simp] theorem updBoot_counter (s : State) (f : BootState → BootState) (e g i : Nat) : (s.updBoot f).counter e g i = s.counter e g i := rfl
@[simp] theorem updBoot_copy (s : State) (f : BootState → BootState) (e : Nat) : (s.updBoot f).copy e = s.copy e := rfl

/-! ## updFuses -/

@[simp] theorem updFuses_pending (s : State) (f : Fuses → Fuses) : (s.updFuses f).pending = s.pending := rfl
@[simp] theorem updFuses_boot (s : State) (f : Fuses → Fuses) : (s.updFuses f).boot = s.boot := rfl
@[simp] theorem updFuses_fuses (s : State) (f : Fuses → Fuses) : (s.updFuses f).fuses = f s.fuses := rfl
@[simp] theorem updFuses_pci (s : State) (f : Fuses → Fuses) : (s.updFuses f).pci = s.pci := rfl
@[simp] theorem updFuses_tik (s : State) (f : Fuses → Fuses) : (s.updFuses f).tik = s.tik := rfl
@[simp] theorem updFuses_pwr (s : State) (f : Fuses → Fuses) : (s.updFuses f).pwr = s.pwr := rfl
@[simp] theorem updFuses_bdg (s : State) (f : Fuses → Fuses) : (s.updFuses f).bdg = s.bdg := rfl
@[simp] theorem updFuses_memg (s : State) (f : Fuses → Fuses) : (s.updFuses f).memg = s.memg := rfl
@[simp] theorem updFuses_nvm (s : State) (f : Fuses → Fuses) : (s.updFuses f).nvm = s.nvm := rfl
@[simp] theorem updFuses_bas (s : State) (f : Fuses → Fuses) : (s.updFuses f).bas = s.bas := rfl
@[simp] theorem updFuses_fab (s : State) (f : Fuses → Fuses) : (s.updFuses f).fab = s.fab := rfl
@[simp] theorem updFuses_lks (s : State) (f : Fuses → Fuses) : (s.updFuses f).lks = s.lks := rfl
@[simp] theorem updFuses_ful (s : State) (f : Fuses → Fuses) : (s.updFuses f).ful = s.ful := rfl
@[simp] theorem updFuses_dbg (s : State) (f : Fuses → Fuses) : (s.updFuses f).dbg = s.dbg := rfl
@[simp] theorem updFuses_doms (s : State) (f : Fuses → Fuses) : (s.updFuses f).doms = s.doms := rfl
@[simp] theorem updFuses_slots (s : State) (f : Fuses → Fuses) : (s.updFuses f).slots = s.slots := rfl
@[simp] theorem updFuses_mbds (s : State) (f : Fuses → Fuses) : (s.updFuses f).mbds = s.mbds := rfl
@[simp] theorem updFuses_units (s : State) (f : Fuses → Fuses) : (s.updFuses f).units = s.units := rfl
@[simp] theorem updFuses_recipe (s : State) (f : Fuses → Fuses) : (s.updFuses f).recipe = s.recipe := rfl
@[simp] theorem updFuses_views (s : State) (f : Fuses → Fuses) : (s.updFuses f).views = s.views := rfl
@[simp] theorem updFuses_pairs (s : State) (f : Fuses → Fuses) : (s.updFuses f).pairs = s.pairs := rfl
@[simp] theorem updFuses_counters (s : State) (f : Fuses → Fuses) : (s.updFuses f).counters = s.counters := rfl
@[simp] theorem updFuses_stretch (s : State) (f : Fuses → Fuses) : (s.updFuses f).stretch = s.stretch := rfl
@[simp] theorem updFuses_latches (s : State) (f : Fuses → Fuses) : (s.updFuses f).latches = s.latches := rfl
@[simp] theorem updFuses_locked (s : State) (f : Fuses → Fuses) : (s.updFuses f).locked = s.locked := rfl
@[simp] theorem updFuses_sels (s : State) (f : Fuses → Fuses) : (s.updFuses f).sels = s.sels := rfl
@[simp] theorem updFuses_commons (s : State) (f : Fuses → Fuses) : (s.updFuses f).commons = s.commons := rfl
@[simp] theorem updFuses_commonsPoison (s : State) (f : Fuses → Fuses) : (s.updFuses f).commonsPoison = s.commonsPoison := rfl
@[simp] theorem updFuses_commonsCounted (s : State) (f : Fuses → Fuses) : (s.updFuses f).commonsCounted = s.commonsCounted := rfl
@[simp] theorem updFuses_acc (s : State) (f : Fuses → Fuses) : (s.updFuses f).acc = s.acc := rfl
@[simp] theorem updFuses_opbuf (s : State) (f : Fuses → Fuses) : (s.updFuses f).opbuf = s.opbuf := rfl
@[simp] theorem updFuses_freeFrames (s : State) (f : Fuses → Fuses) : (s.updFuses f).freeFrames = s.freeFrames := rfl
@[simp] theorem updFuses_atLatch (s : State) (f : Fuses → Fuses) : (s.updFuses f).atLatch = s.atLatch := rfl
@[simp] theorem updFuses_freeCtr (s : State) (f : Fuses → Fuses) : (s.updFuses f).freeCtr = s.freeCtr := rfl
@[simp] theorem updFuses_out (s : State) (f : Fuses → Fuses) : (s.updFuses f).out = s.out := rfl
@[simp] theorem updFuses_dom (s : State) (f : Fuses → Fuses) (e : Nat) : (s.updFuses f).dom e = s.dom e := rfl
@[simp] theorem updFuses_slot (s : State) (f : Fuses → Fuses) (e : Nat) : (s.updFuses f).slot e = s.slot e := rfl
@[simp] theorem updFuses_mbd (s : State) (f : Fuses → Fuses) (e : Nat) : (s.updFuses f).mbd e = s.mbd e := rfl
@[simp] theorem updFuses_port (s : State) (f : Fuses → Fuses) (e : Nat) : (s.updFuses f).port e = s.port e := rfl
@[simp] theorem updFuses_unit (s : State) (f : Fuses → Fuses) (e : Nat) : (s.updFuses f).unit e = s.unit e := rfl
@[simp] theorem updFuses_view (s : State) (f : Fuses → Fuses) (e g : Nat) : (s.updFuses f).view e g = s.view e g := rfl
@[simp] theorem updFuses_pair (s : State) (f : Fuses → Fuses) (e g : Nat) : (s.updFuses f).pair e g = s.pair e g := rfl
@[simp] theorem updFuses_counter (s : State) (f : Fuses → Fuses) (e g i : Nat) : (s.updFuses f).counter e g i = s.counter e g i := rfl
@[simp] theorem updFuses_copy (s : State) (f : Fuses → Fuses) (e : Nat) : (s.updFuses f).copy e = s.copy e := rfl

/-! ## updFab -/

@[simp] theorem updFab_pending (s : State) (f : FabState → FabState) : (s.updFab f).pending = s.pending := rfl
@[simp] theorem updFab_boot (s : State) (f : FabState → FabState) : (s.updFab f).boot = s.boot := rfl
@[simp] theorem updFab_fuses (s : State) (f : FabState → FabState) : (s.updFab f).fuses = s.fuses := rfl
@[simp] theorem updFab_pci (s : State) (f : FabState → FabState) : (s.updFab f).pci = s.pci := rfl
@[simp] theorem updFab_tik (s : State) (f : FabState → FabState) : (s.updFab f).tik = s.tik := rfl
@[simp] theorem updFab_pwr (s : State) (f : FabState → FabState) : (s.updFab f).pwr = s.pwr := rfl
@[simp] theorem updFab_bdg (s : State) (f : FabState → FabState) : (s.updFab f).bdg = s.bdg := rfl
@[simp] theorem updFab_memg (s : State) (f : FabState → FabState) : (s.updFab f).memg = s.memg := rfl
@[simp] theorem updFab_nvm (s : State) (f : FabState → FabState) : (s.updFab f).nvm = s.nvm := rfl
@[simp] theorem updFab_bas (s : State) (f : FabState → FabState) : (s.updFab f).bas = s.bas := rfl
@[simp] theorem updFab_fab (s : State) (f : FabState → FabState) : (s.updFab f).fab = f s.fab := rfl
@[simp] theorem updFab_lks (s : State) (f : FabState → FabState) : (s.updFab f).lks = s.lks := rfl
@[simp] theorem updFab_ful (s : State) (f : FabState → FabState) : (s.updFab f).ful = s.ful := rfl
@[simp] theorem updFab_dbg (s : State) (f : FabState → FabState) : (s.updFab f).dbg = s.dbg := rfl
@[simp] theorem updFab_doms (s : State) (f : FabState → FabState) : (s.updFab f).doms = s.doms := rfl
@[simp] theorem updFab_slots (s : State) (f : FabState → FabState) : (s.updFab f).slots = s.slots := rfl
@[simp] theorem updFab_mbds (s : State) (f : FabState → FabState) : (s.updFab f).mbds = s.mbds := rfl
@[simp] theorem updFab_units (s : State) (f : FabState → FabState) : (s.updFab f).units = s.units := rfl
@[simp] theorem updFab_recipe (s : State) (f : FabState → FabState) : (s.updFab f).recipe = s.recipe := rfl
@[simp] theorem updFab_views (s : State) (f : FabState → FabState) : (s.updFab f).views = s.views := rfl
@[simp] theorem updFab_pairs (s : State) (f : FabState → FabState) : (s.updFab f).pairs = s.pairs := rfl
@[simp] theorem updFab_counters (s : State) (f : FabState → FabState) : (s.updFab f).counters = s.counters := rfl
@[simp] theorem updFab_stretch (s : State) (f : FabState → FabState) : (s.updFab f).stretch = s.stretch := rfl
@[simp] theorem updFab_latches (s : State) (f : FabState → FabState) : (s.updFab f).latches = s.latches := rfl
@[simp] theorem updFab_locked (s : State) (f : FabState → FabState) : (s.updFab f).locked = s.locked := rfl
@[simp] theorem updFab_sels (s : State) (f : FabState → FabState) : (s.updFab f).sels = s.sels := rfl
@[simp] theorem updFab_commons (s : State) (f : FabState → FabState) : (s.updFab f).commons = s.commons := rfl
@[simp] theorem updFab_commonsPoison (s : State) (f : FabState → FabState) : (s.updFab f).commonsPoison = s.commonsPoison := rfl
@[simp] theorem updFab_commonsCounted (s : State) (f : FabState → FabState) : (s.updFab f).commonsCounted = s.commonsCounted := rfl
@[simp] theorem updFab_acc (s : State) (f : FabState → FabState) : (s.updFab f).acc = s.acc := rfl
@[simp] theorem updFab_opbuf (s : State) (f : FabState → FabState) : (s.updFab f).opbuf = s.opbuf := rfl
@[simp] theorem updFab_freeFrames (s : State) (f : FabState → FabState) : (s.updFab f).freeFrames = s.freeFrames := rfl
@[simp] theorem updFab_atLatch (s : State) (f : FabState → FabState) : (s.updFab f).atLatch = s.atLatch := rfl
@[simp] theorem updFab_freeCtr (s : State) (f : FabState → FabState) : (s.updFab f).freeCtr = s.freeCtr := rfl
@[simp] theorem updFab_out (s : State) (f : FabState → FabState) : (s.updFab f).out = s.out := rfl
@[simp] theorem updFab_dom (s : State) (f : FabState → FabState) (e : Nat) : (s.updFab f).dom e = s.dom e := rfl
@[simp] theorem updFab_slot (s : State) (f : FabState → FabState) (e : Nat) : (s.updFab f).slot e = s.slot e := rfl
@[simp] theorem updFab_mbd (s : State) (f : FabState → FabState) (e : Nat) : (s.updFab f).mbd e = s.mbd e := rfl
@[simp] theorem updFab_unit (s : State) (f : FabState → FabState) (e : Nat) : (s.updFab f).unit e = s.unit e := rfl
@[simp] theorem updFab_view (s : State) (f : FabState → FabState) (e g : Nat) : (s.updFab f).view e g = s.view e g := rfl
@[simp] theorem updFab_pair (s : State) (f : FabState → FabState) (e g : Nat) : (s.updFab f).pair e g = s.pair e g := rfl
@[simp] theorem updFab_counter (s : State) (f : FabState → FabState) (e g i : Nat) : (s.updFab f).counter e g i = s.counter e g i := rfl
@[simp] theorem updFab_copy (s : State) (f : FabState → FabState) (e : Nat) : (s.updFab f).copy e = s.copy e := rfl

/-! ## updLks -/

@[simp] theorem updLks_pending (s : State) (f : LksState → LksState) : (s.updLks f).pending = s.pending := rfl
@[simp] theorem updLks_boot (s : State) (f : LksState → LksState) : (s.updLks f).boot = s.boot := rfl
@[simp] theorem updLks_fuses (s : State) (f : LksState → LksState) : (s.updLks f).fuses = s.fuses := rfl
@[simp] theorem updLks_pci (s : State) (f : LksState → LksState) : (s.updLks f).pci = s.pci := rfl
@[simp] theorem updLks_tik (s : State) (f : LksState → LksState) : (s.updLks f).tik = s.tik := rfl
@[simp] theorem updLks_pwr (s : State) (f : LksState → LksState) : (s.updLks f).pwr = s.pwr := rfl
@[simp] theorem updLks_bdg (s : State) (f : LksState → LksState) : (s.updLks f).bdg = s.bdg := rfl
@[simp] theorem updLks_memg (s : State) (f : LksState → LksState) : (s.updLks f).memg = s.memg := rfl
@[simp] theorem updLks_nvm (s : State) (f : LksState → LksState) : (s.updLks f).nvm = s.nvm := rfl
@[simp] theorem updLks_bas (s : State) (f : LksState → LksState) : (s.updLks f).bas = s.bas := rfl
@[simp] theorem updLks_fab (s : State) (f : LksState → LksState) : (s.updLks f).fab = s.fab := rfl
@[simp] theorem updLks_lks (s : State) (f : LksState → LksState) : (s.updLks f).lks = f s.lks := rfl
@[simp] theorem updLks_ful (s : State) (f : LksState → LksState) : (s.updLks f).ful = s.ful := rfl
@[simp] theorem updLks_dbg (s : State) (f : LksState → LksState) : (s.updLks f).dbg = s.dbg := rfl
@[simp] theorem updLks_doms (s : State) (f : LksState → LksState) : (s.updLks f).doms = s.doms := rfl
@[simp] theorem updLks_slots (s : State) (f : LksState → LksState) : (s.updLks f).slots = s.slots := rfl
@[simp] theorem updLks_mbds (s : State) (f : LksState → LksState) : (s.updLks f).mbds = s.mbds := rfl
@[simp] theorem updLks_units (s : State) (f : LksState → LksState) : (s.updLks f).units = s.units := rfl
@[simp] theorem updLks_recipe (s : State) (f : LksState → LksState) : (s.updLks f).recipe = s.recipe := rfl
@[simp] theorem updLks_views (s : State) (f : LksState → LksState) : (s.updLks f).views = s.views := rfl
@[simp] theorem updLks_pairs (s : State) (f : LksState → LksState) : (s.updLks f).pairs = s.pairs := rfl
@[simp] theorem updLks_counters (s : State) (f : LksState → LksState) : (s.updLks f).counters = s.counters := rfl
@[simp] theorem updLks_stretch (s : State) (f : LksState → LksState) : (s.updLks f).stretch = s.stretch := rfl
@[simp] theorem updLks_latches (s : State) (f : LksState → LksState) : (s.updLks f).latches = s.latches := rfl
@[simp] theorem updLks_locked (s : State) (f : LksState → LksState) : (s.updLks f).locked = s.locked := rfl
@[simp] theorem updLks_sels (s : State) (f : LksState → LksState) : (s.updLks f).sels = s.sels := rfl
@[simp] theorem updLks_commons (s : State) (f : LksState → LksState) : (s.updLks f).commons = s.commons := rfl
@[simp] theorem updLks_commonsPoison (s : State) (f : LksState → LksState) : (s.updLks f).commonsPoison = s.commonsPoison := rfl
@[simp] theorem updLks_commonsCounted (s : State) (f : LksState → LksState) : (s.updLks f).commonsCounted = s.commonsCounted := rfl
@[simp] theorem updLks_acc (s : State) (f : LksState → LksState) : (s.updLks f).acc = s.acc := rfl
@[simp] theorem updLks_opbuf (s : State) (f : LksState → LksState) : (s.updLks f).opbuf = s.opbuf := rfl
@[simp] theorem updLks_freeFrames (s : State) (f : LksState → LksState) : (s.updLks f).freeFrames = s.freeFrames := rfl
@[simp] theorem updLks_atLatch (s : State) (f : LksState → LksState) : (s.updLks f).atLatch = s.atLatch := rfl
@[simp] theorem updLks_freeCtr (s : State) (f : LksState → LksState) : (s.updLks f).freeCtr = s.freeCtr := rfl
@[simp] theorem updLks_out (s : State) (f : LksState → LksState) : (s.updLks f).out = s.out := rfl
@[simp] theorem updLks_dom (s : State) (f : LksState → LksState) (e : Nat) : (s.updLks f).dom e = s.dom e := rfl
@[simp] theorem updLks_slot (s : State) (f : LksState → LksState) (e : Nat) : (s.updLks f).slot e = s.slot e := rfl
@[simp] theorem updLks_mbd (s : State) (f : LksState → LksState) (e : Nat) : (s.updLks f).mbd e = s.mbd e := rfl
@[simp] theorem updLks_port (s : State) (f : LksState → LksState) (e : Nat) : (s.updLks f).port e = s.port e := rfl
@[simp] theorem updLks_unit (s : State) (f : LksState → LksState) (e : Nat) : (s.updLks f).unit e = s.unit e := rfl
@[simp] theorem updLks_view (s : State) (f : LksState → LksState) (e g : Nat) : (s.updLks f).view e g = s.view e g := rfl
@[simp] theorem updLks_pair (s : State) (f : LksState → LksState) (e g : Nat) : (s.updLks f).pair e g = s.pair e g := rfl
@[simp] theorem updLks_counter (s : State) (f : LksState → LksState) (e g i : Nat) : (s.updLks f).counter e g i = s.counter e g i := rfl
@[simp] theorem updLks_copy (s : State) (f : LksState → LksState) (e : Nat) : (s.updLks f).copy e = s.copy e := rfl

/-! ## updFul -/

@[simp] theorem updFul_pending (s : State) (f : FulState → FulState) : (s.updFul f).pending = s.pending := rfl
@[simp] theorem updFul_boot (s : State) (f : FulState → FulState) : (s.updFul f).boot = s.boot := rfl
@[simp] theorem updFul_fuses (s : State) (f : FulState → FulState) : (s.updFul f).fuses = s.fuses := rfl
@[simp] theorem updFul_pci (s : State) (f : FulState → FulState) : (s.updFul f).pci = s.pci := rfl
@[simp] theorem updFul_tik (s : State) (f : FulState → FulState) : (s.updFul f).tik = s.tik := rfl
@[simp] theorem updFul_pwr (s : State) (f : FulState → FulState) : (s.updFul f).pwr = s.pwr := rfl
@[simp] theorem updFul_bdg (s : State) (f : FulState → FulState) : (s.updFul f).bdg = s.bdg := rfl
@[simp] theorem updFul_memg (s : State) (f : FulState → FulState) : (s.updFul f).memg = s.memg := rfl
@[simp] theorem updFul_nvm (s : State) (f : FulState → FulState) : (s.updFul f).nvm = s.nvm := rfl
@[simp] theorem updFul_bas (s : State) (f : FulState → FulState) : (s.updFul f).bas = s.bas := rfl
@[simp] theorem updFul_fab (s : State) (f : FulState → FulState) : (s.updFul f).fab = s.fab := rfl
@[simp] theorem updFul_lks (s : State) (f : FulState → FulState) : (s.updFul f).lks = s.lks := rfl
@[simp] theorem updFul_ful (s : State) (f : FulState → FulState) : (s.updFul f).ful = f s.ful := rfl
@[simp] theorem updFul_dbg (s : State) (f : FulState → FulState) : (s.updFul f).dbg = s.dbg := rfl
@[simp] theorem updFul_doms (s : State) (f : FulState → FulState) : (s.updFul f).doms = s.doms := rfl
@[simp] theorem updFul_slots (s : State) (f : FulState → FulState) : (s.updFul f).slots = s.slots := rfl
@[simp] theorem updFul_mbds (s : State) (f : FulState → FulState) : (s.updFul f).mbds = s.mbds := rfl
@[simp] theorem updFul_units (s : State) (f : FulState → FulState) : (s.updFul f).units = s.units := rfl
@[simp] theorem updFul_recipe (s : State) (f : FulState → FulState) : (s.updFul f).recipe = s.recipe := rfl
@[simp] theorem updFul_views (s : State) (f : FulState → FulState) : (s.updFul f).views = s.views := rfl
@[simp] theorem updFul_pairs (s : State) (f : FulState → FulState) : (s.updFul f).pairs = s.pairs := rfl
@[simp] theorem updFul_counters (s : State) (f : FulState → FulState) : (s.updFul f).counters = s.counters := rfl
@[simp] theorem updFul_stretch (s : State) (f : FulState → FulState) : (s.updFul f).stretch = s.stretch := rfl
@[simp] theorem updFul_latches (s : State) (f : FulState → FulState) : (s.updFul f).latches = s.latches := rfl
@[simp] theorem updFul_locked (s : State) (f : FulState → FulState) : (s.updFul f).locked = s.locked := rfl
@[simp] theorem updFul_sels (s : State) (f : FulState → FulState) : (s.updFul f).sels = s.sels := rfl
@[simp] theorem updFul_commons (s : State) (f : FulState → FulState) : (s.updFul f).commons = s.commons := rfl
@[simp] theorem updFul_commonsPoison (s : State) (f : FulState → FulState) : (s.updFul f).commonsPoison = s.commonsPoison := rfl
@[simp] theorem updFul_commonsCounted (s : State) (f : FulState → FulState) : (s.updFul f).commonsCounted = s.commonsCounted := rfl
@[simp] theorem updFul_acc (s : State) (f : FulState → FulState) : (s.updFul f).acc = s.acc := rfl
@[simp] theorem updFul_opbuf (s : State) (f : FulState → FulState) : (s.updFul f).opbuf = s.opbuf := rfl
@[simp] theorem updFul_freeFrames (s : State) (f : FulState → FulState) : (s.updFul f).freeFrames = s.freeFrames := rfl
@[simp] theorem updFul_atLatch (s : State) (f : FulState → FulState) : (s.updFul f).atLatch = s.atLatch := rfl
@[simp] theorem updFul_freeCtr (s : State) (f : FulState → FulState) : (s.updFul f).freeCtr = s.freeCtr := rfl
@[simp] theorem updFul_out (s : State) (f : FulState → FulState) : (s.updFul f).out = s.out := rfl
@[simp] theorem updFul_dom (s : State) (f : FulState → FulState) (e : Nat) : (s.updFul f).dom e = s.dom e := rfl
@[simp] theorem updFul_slot (s : State) (f : FulState → FulState) (e : Nat) : (s.updFul f).slot e = s.slot e := rfl
@[simp] theorem updFul_mbd (s : State) (f : FulState → FulState) (e : Nat) : (s.updFul f).mbd e = s.mbd e := rfl
@[simp] theorem updFul_port (s : State) (f : FulState → FulState) (e : Nat) : (s.updFul f).port e = s.port e := rfl
@[simp] theorem updFul_unit (s : State) (f : FulState → FulState) (e : Nat) : (s.updFul f).unit e = s.unit e := rfl
@[simp] theorem updFul_view (s : State) (f : FulState → FulState) (e g : Nat) : (s.updFul f).view e g = s.view e g := rfl
@[simp] theorem updFul_pair (s : State) (f : FulState → FulState) (e g : Nat) : (s.updFul f).pair e g = s.pair e g := rfl
@[simp] theorem updFul_counter (s : State) (f : FulState → FulState) (e g i : Nat) : (s.updFul f).counter e g i = s.counter e g i := rfl
@[simp] theorem updFul_copy (s : State) (f : FulState → FulState) (e : Nat) : (s.updFul f).copy e = s.copy e := rfl

/-! ## updBas -/

@[simp] theorem updBas_pending (s : State) (f : BasState → BasState) : (s.updBas f).pending = s.pending := rfl
@[simp] theorem updBas_boot (s : State) (f : BasState → BasState) : (s.updBas f).boot = s.boot := rfl
@[simp] theorem updBas_fuses (s : State) (f : BasState → BasState) : (s.updBas f).fuses = s.fuses := rfl
@[simp] theorem updBas_pci (s : State) (f : BasState → BasState) : (s.updBas f).pci = s.pci := rfl
@[simp] theorem updBas_tik (s : State) (f : BasState → BasState) : (s.updBas f).tik = s.tik := rfl
@[simp] theorem updBas_pwr (s : State) (f : BasState → BasState) : (s.updBas f).pwr = s.pwr := rfl
@[simp] theorem updBas_bdg (s : State) (f : BasState → BasState) : (s.updBas f).bdg = s.bdg := rfl
@[simp] theorem updBas_memg (s : State) (f : BasState → BasState) : (s.updBas f).memg = s.memg := rfl
@[simp] theorem updBas_nvm (s : State) (f : BasState → BasState) : (s.updBas f).nvm = s.nvm := rfl
@[simp] theorem updBas_bas (s : State) (f : BasState → BasState) : (s.updBas f).bas = f s.bas := rfl
@[simp] theorem updBas_fab (s : State) (f : BasState → BasState) : (s.updBas f).fab = s.fab := rfl
@[simp] theorem updBas_lks (s : State) (f : BasState → BasState) : (s.updBas f).lks = s.lks := rfl
@[simp] theorem updBas_ful (s : State) (f : BasState → BasState) : (s.updBas f).ful = s.ful := rfl
@[simp] theorem updBas_dbg (s : State) (f : BasState → BasState) : (s.updBas f).dbg = s.dbg := rfl
@[simp] theorem updBas_doms (s : State) (f : BasState → BasState) : (s.updBas f).doms = s.doms := rfl
@[simp] theorem updBas_slots (s : State) (f : BasState → BasState) : (s.updBas f).slots = s.slots := rfl
@[simp] theorem updBas_mbds (s : State) (f : BasState → BasState) : (s.updBas f).mbds = s.mbds := rfl
@[simp] theorem updBas_units (s : State) (f : BasState → BasState) : (s.updBas f).units = s.units := rfl
@[simp] theorem updBas_recipe (s : State) (f : BasState → BasState) : (s.updBas f).recipe = s.recipe := rfl
@[simp] theorem updBas_views (s : State) (f : BasState → BasState) : (s.updBas f).views = s.views := rfl
@[simp] theorem updBas_pairs (s : State) (f : BasState → BasState) : (s.updBas f).pairs = s.pairs := rfl
@[simp] theorem updBas_counters (s : State) (f : BasState → BasState) : (s.updBas f).counters = s.counters := rfl
@[simp] theorem updBas_stretch (s : State) (f : BasState → BasState) : (s.updBas f).stretch = s.stretch := rfl
@[simp] theorem updBas_latches (s : State) (f : BasState → BasState) : (s.updBas f).latches = s.latches := rfl
@[simp] theorem updBas_locked (s : State) (f : BasState → BasState) : (s.updBas f).locked = s.locked := rfl
@[simp] theorem updBas_sels (s : State) (f : BasState → BasState) : (s.updBas f).sels = s.sels := rfl
@[simp] theorem updBas_commons (s : State) (f : BasState → BasState) : (s.updBas f).commons = s.commons := rfl
@[simp] theorem updBas_commonsPoison (s : State) (f : BasState → BasState) : (s.updBas f).commonsPoison = s.commonsPoison := rfl
@[simp] theorem updBas_commonsCounted (s : State) (f : BasState → BasState) : (s.updBas f).commonsCounted = s.commonsCounted := rfl
@[simp] theorem updBas_acc (s : State) (f : BasState → BasState) : (s.updBas f).acc = s.acc := rfl
@[simp] theorem updBas_opbuf (s : State) (f : BasState → BasState) : (s.updBas f).opbuf = s.opbuf := rfl
@[simp] theorem updBas_freeFrames (s : State) (f : BasState → BasState) : (s.updBas f).freeFrames = s.freeFrames := rfl
@[simp] theorem updBas_atLatch (s : State) (f : BasState → BasState) : (s.updBas f).atLatch = s.atLatch := rfl
@[simp] theorem updBas_freeCtr (s : State) (f : BasState → BasState) : (s.updBas f).freeCtr = s.freeCtr := rfl
@[simp] theorem updBas_out (s : State) (f : BasState → BasState) : (s.updBas f).out = s.out := rfl
@[simp] theorem updBas_dom (s : State) (f : BasState → BasState) (e : Nat) : (s.updBas f).dom e = s.dom e := rfl
@[simp] theorem updBas_slot (s : State) (f : BasState → BasState) (e : Nat) : (s.updBas f).slot e = s.slot e := rfl
@[simp] theorem updBas_mbd (s : State) (f : BasState → BasState) (e : Nat) : (s.updBas f).mbd e = s.mbd e := rfl
@[simp] theorem updBas_port (s : State) (f : BasState → BasState) (e : Nat) : (s.updBas f).port e = s.port e := rfl
@[simp] theorem updBas_unit (s : State) (f : BasState → BasState) (e : Nat) : (s.updBas f).unit e = s.unit e := rfl
@[simp] theorem updBas_view (s : State) (f : BasState → BasState) (e g : Nat) : (s.updBas f).view e g = s.view e g := rfl
@[simp] theorem updBas_pair (s : State) (f : BasState → BasState) (e g : Nat) : (s.updBas f).pair e g = s.pair e g := rfl
@[simp] theorem updBas_counter (s : State) (f : BasState → BasState) (e g i : Nat) : (s.updBas f).counter e g i = s.counter e g i := rfl

/-! ## updMemg -/

@[simp] theorem updMemg_pending (s : State) (f : MemGlobal → MemGlobal) : (s.updMemg f).pending = s.pending := rfl
@[simp] theorem updMemg_boot (s : State) (f : MemGlobal → MemGlobal) : (s.updMemg f).boot = s.boot := rfl
@[simp] theorem updMemg_fuses (s : State) (f : MemGlobal → MemGlobal) : (s.updMemg f).fuses = s.fuses := rfl
@[simp] theorem updMemg_pci (s : State) (f : MemGlobal → MemGlobal) : (s.updMemg f).pci = s.pci := rfl
@[simp] theorem updMemg_tik (s : State) (f : MemGlobal → MemGlobal) : (s.updMemg f).tik = s.tik := rfl
@[simp] theorem updMemg_pwr (s : State) (f : MemGlobal → MemGlobal) : (s.updMemg f).pwr = s.pwr := rfl
@[simp] theorem updMemg_bdg (s : State) (f : MemGlobal → MemGlobal) : (s.updMemg f).bdg = s.bdg := rfl
@[simp] theorem updMemg_memg (s : State) (f : MemGlobal → MemGlobal) : (s.updMemg f).memg = f s.memg := rfl
@[simp] theorem updMemg_nvm (s : State) (f : MemGlobal → MemGlobal) : (s.updMemg f).nvm = s.nvm := rfl
@[simp] theorem updMemg_bas (s : State) (f : MemGlobal → MemGlobal) : (s.updMemg f).bas = s.bas := rfl
@[simp] theorem updMemg_fab (s : State) (f : MemGlobal → MemGlobal) : (s.updMemg f).fab = s.fab := rfl
@[simp] theorem updMemg_lks (s : State) (f : MemGlobal → MemGlobal) : (s.updMemg f).lks = s.lks := rfl
@[simp] theorem updMemg_ful (s : State) (f : MemGlobal → MemGlobal) : (s.updMemg f).ful = s.ful := rfl
@[simp] theorem updMemg_dbg (s : State) (f : MemGlobal → MemGlobal) : (s.updMemg f).dbg = s.dbg := rfl
@[simp] theorem updMemg_doms (s : State) (f : MemGlobal → MemGlobal) : (s.updMemg f).doms = s.doms := rfl
@[simp] theorem updMemg_slots (s : State) (f : MemGlobal → MemGlobal) : (s.updMemg f).slots = s.slots := rfl
@[simp] theorem updMemg_mbds (s : State) (f : MemGlobal → MemGlobal) : (s.updMemg f).mbds = s.mbds := rfl
@[simp] theorem updMemg_units (s : State) (f : MemGlobal → MemGlobal) : (s.updMemg f).units = s.units := rfl
@[simp] theorem updMemg_recipe (s : State) (f : MemGlobal → MemGlobal) : (s.updMemg f).recipe = s.recipe := rfl
@[simp] theorem updMemg_views (s : State) (f : MemGlobal → MemGlobal) : (s.updMemg f).views = s.views := rfl
@[simp] theorem updMemg_pairs (s : State) (f : MemGlobal → MemGlobal) : (s.updMemg f).pairs = s.pairs := rfl
@[simp] theorem updMemg_counters (s : State) (f : MemGlobal → MemGlobal) : (s.updMemg f).counters = s.counters := rfl
@[simp] theorem updMemg_stretch (s : State) (f : MemGlobal → MemGlobal) : (s.updMemg f).stretch = s.stretch := rfl
@[simp] theorem updMemg_latches (s : State) (f : MemGlobal → MemGlobal) : (s.updMemg f).latches = s.latches := rfl
@[simp] theorem updMemg_locked (s : State) (f : MemGlobal → MemGlobal) : (s.updMemg f).locked = s.locked := rfl
@[simp] theorem updMemg_sels (s : State) (f : MemGlobal → MemGlobal) : (s.updMemg f).sels = s.sels := rfl
@[simp] theorem updMemg_commons (s : State) (f : MemGlobal → MemGlobal) : (s.updMemg f).commons = s.commons := rfl
@[simp] theorem updMemg_commonsPoison (s : State) (f : MemGlobal → MemGlobal) : (s.updMemg f).commonsPoison = s.commonsPoison := rfl
@[simp] theorem updMemg_commonsCounted (s : State) (f : MemGlobal → MemGlobal) : (s.updMemg f).commonsCounted = s.commonsCounted := rfl
@[simp] theorem updMemg_acc (s : State) (f : MemGlobal → MemGlobal) : (s.updMemg f).acc = s.acc := rfl
@[simp] theorem updMemg_opbuf (s : State) (f : MemGlobal → MemGlobal) : (s.updMemg f).opbuf = s.opbuf := rfl
@[simp] theorem updMemg_freeFrames (s : State) (f : MemGlobal → MemGlobal) : (s.updMemg f).freeFrames = s.freeFrames := rfl
@[simp] theorem updMemg_atLatch (s : State) (f : MemGlobal → MemGlobal) : (s.updMemg f).atLatch = s.atLatch := rfl
@[simp] theorem updMemg_freeCtr (s : State) (f : MemGlobal → MemGlobal) : (s.updMemg f).freeCtr = s.freeCtr := rfl
@[simp] theorem updMemg_out (s : State) (f : MemGlobal → MemGlobal) : (s.updMemg f).out = s.out := rfl
@[simp] theorem updMemg_dom (s : State) (f : MemGlobal → MemGlobal) (e : Nat) : (s.updMemg f).dom e = s.dom e := rfl
@[simp] theorem updMemg_slot (s : State) (f : MemGlobal → MemGlobal) (e : Nat) : (s.updMemg f).slot e = s.slot e := rfl
@[simp] theorem updMemg_mbd (s : State) (f : MemGlobal → MemGlobal) (e : Nat) : (s.updMemg f).mbd e = s.mbd e := rfl
@[simp] theorem updMemg_port (s : State) (f : MemGlobal → MemGlobal) (e : Nat) : (s.updMemg f).port e = s.port e := rfl
@[simp] theorem updMemg_unit (s : State) (f : MemGlobal → MemGlobal) (e : Nat) : (s.updMemg f).unit e = s.unit e := rfl
@[simp] theorem updMemg_view (s : State) (f : MemGlobal → MemGlobal) (e g : Nat) : (s.updMemg f).view e g = s.view e g := rfl
@[simp] theorem updMemg_pair (s : State) (f : MemGlobal → MemGlobal) (e g : Nat) : (s.updMemg f).pair e g = s.pair e g := rfl
@[simp] theorem updMemg_counter (s : State) (f : MemGlobal → MemGlobal) (e g i : Nat) : (s.updMemg f).counter e g i = s.counter e g i := rfl
@[simp] theorem updMemg_copy (s : State) (f : MemGlobal → MemGlobal) (e : Nat) : (s.updMemg f).copy e = s.copy e := rfl

/-! ## updBdg -/

@[simp] theorem updBdg_pending (s : State) (f : BdgState → BdgState) : (s.updBdg f).pending = s.pending := rfl
@[simp] theorem updBdg_boot (s : State) (f : BdgState → BdgState) : (s.updBdg f).boot = s.boot := rfl
@[simp] theorem updBdg_fuses (s : State) (f : BdgState → BdgState) : (s.updBdg f).fuses = s.fuses := rfl
@[simp] theorem updBdg_pci (s : State) (f : BdgState → BdgState) : (s.updBdg f).pci = s.pci := rfl
@[simp] theorem updBdg_tik (s : State) (f : BdgState → BdgState) : (s.updBdg f).tik = s.tik := rfl
@[simp] theorem updBdg_pwr (s : State) (f : BdgState → BdgState) : (s.updBdg f).pwr = s.pwr := rfl
@[simp] theorem updBdg_bdg (s : State) (f : BdgState → BdgState) : (s.updBdg f).bdg = f s.bdg := rfl
@[simp] theorem updBdg_memg (s : State) (f : BdgState → BdgState) : (s.updBdg f).memg = s.memg := rfl
@[simp] theorem updBdg_nvm (s : State) (f : BdgState → BdgState) : (s.updBdg f).nvm = s.nvm := rfl
@[simp] theorem updBdg_bas (s : State) (f : BdgState → BdgState) : (s.updBdg f).bas = s.bas := rfl
@[simp] theorem updBdg_fab (s : State) (f : BdgState → BdgState) : (s.updBdg f).fab = s.fab := rfl
@[simp] theorem updBdg_lks (s : State) (f : BdgState → BdgState) : (s.updBdg f).lks = s.lks := rfl
@[simp] theorem updBdg_ful (s : State) (f : BdgState → BdgState) : (s.updBdg f).ful = s.ful := rfl
@[simp] theorem updBdg_dbg (s : State) (f : BdgState → BdgState) : (s.updBdg f).dbg = s.dbg := rfl
@[simp] theorem updBdg_doms (s : State) (f : BdgState → BdgState) : (s.updBdg f).doms = s.doms := rfl
@[simp] theorem updBdg_slots (s : State) (f : BdgState → BdgState) : (s.updBdg f).slots = s.slots := rfl
@[simp] theorem updBdg_mbds (s : State) (f : BdgState → BdgState) : (s.updBdg f).mbds = s.mbds := rfl
@[simp] theorem updBdg_units (s : State) (f : BdgState → BdgState) : (s.updBdg f).units = s.units := rfl
@[simp] theorem updBdg_recipe (s : State) (f : BdgState → BdgState) : (s.updBdg f).recipe = s.recipe := rfl
@[simp] theorem updBdg_views (s : State) (f : BdgState → BdgState) : (s.updBdg f).views = s.views := rfl
@[simp] theorem updBdg_pairs (s : State) (f : BdgState → BdgState) : (s.updBdg f).pairs = s.pairs := rfl
@[simp] theorem updBdg_counters (s : State) (f : BdgState → BdgState) : (s.updBdg f).counters = s.counters := rfl
@[simp] theorem updBdg_stretch (s : State) (f : BdgState → BdgState) : (s.updBdg f).stretch = s.stretch := rfl
@[simp] theorem updBdg_latches (s : State) (f : BdgState → BdgState) : (s.updBdg f).latches = s.latches := rfl
@[simp] theorem updBdg_locked (s : State) (f : BdgState → BdgState) : (s.updBdg f).locked = s.locked := rfl
@[simp] theorem updBdg_sels (s : State) (f : BdgState → BdgState) : (s.updBdg f).sels = s.sels := rfl
@[simp] theorem updBdg_commons (s : State) (f : BdgState → BdgState) : (s.updBdg f).commons = s.commons := rfl
@[simp] theorem updBdg_commonsPoison (s : State) (f : BdgState → BdgState) : (s.updBdg f).commonsPoison = s.commonsPoison := rfl
@[simp] theorem updBdg_commonsCounted (s : State) (f : BdgState → BdgState) : (s.updBdg f).commonsCounted = s.commonsCounted := rfl
@[simp] theorem updBdg_acc (s : State) (f : BdgState → BdgState) : (s.updBdg f).acc = s.acc := rfl
@[simp] theorem updBdg_opbuf (s : State) (f : BdgState → BdgState) : (s.updBdg f).opbuf = s.opbuf := rfl
@[simp] theorem updBdg_freeFrames (s : State) (f : BdgState → BdgState) : (s.updBdg f).freeFrames = s.freeFrames := rfl
@[simp] theorem updBdg_atLatch (s : State) (f : BdgState → BdgState) : (s.updBdg f).atLatch = s.atLatch := rfl
@[simp] theorem updBdg_freeCtr (s : State) (f : BdgState → BdgState) : (s.updBdg f).freeCtr = s.freeCtr := rfl
@[simp] theorem updBdg_out (s : State) (f : BdgState → BdgState) : (s.updBdg f).out = s.out := rfl
@[simp] theorem updBdg_dom (s : State) (f : BdgState → BdgState) (e : Nat) : (s.updBdg f).dom e = s.dom e := rfl
@[simp] theorem updBdg_slot (s : State) (f : BdgState → BdgState) (e : Nat) : (s.updBdg f).slot e = s.slot e := rfl
@[simp] theorem updBdg_mbd (s : State) (f : BdgState → BdgState) (e : Nat) : (s.updBdg f).mbd e = s.mbd e := rfl
@[simp] theorem updBdg_port (s : State) (f : BdgState → BdgState) (e : Nat) : (s.updBdg f).port e = s.port e := rfl
@[simp] theorem updBdg_unit (s : State) (f : BdgState → BdgState) (e : Nat) : (s.updBdg f).unit e = s.unit e := rfl
@[simp] theorem updBdg_view (s : State) (f : BdgState → BdgState) (e g : Nat) : (s.updBdg f).view e g = s.view e g := rfl
@[simp] theorem updBdg_pair (s : State) (f : BdgState → BdgState) (e g : Nat) : (s.updBdg f).pair e g = s.pair e g := rfl
@[simp] theorem updBdg_counter (s : State) (f : BdgState → BdgState) (e g i : Nat) : (s.updBdg f).counter e g i = s.counter e g i := rfl
@[simp] theorem updBdg_copy (s : State) (f : BdgState → BdgState) (e : Nat) : (s.updBdg f).copy e = s.copy e := rfl

/-! ## updDbg -/

@[simp] theorem updDbg_pending (s : State) (f : DbgState → DbgState) : (s.updDbg f).pending = s.pending := rfl
@[simp] theorem updDbg_boot (s : State) (f : DbgState → DbgState) : (s.updDbg f).boot = s.boot := rfl
@[simp] theorem updDbg_fuses (s : State) (f : DbgState → DbgState) : (s.updDbg f).fuses = s.fuses := rfl
@[simp] theorem updDbg_pci (s : State) (f : DbgState → DbgState) : (s.updDbg f).pci = s.pci := rfl
@[simp] theorem updDbg_tik (s : State) (f : DbgState → DbgState) : (s.updDbg f).tik = s.tik := rfl
@[simp] theorem updDbg_pwr (s : State) (f : DbgState → DbgState) : (s.updDbg f).pwr = s.pwr := rfl
@[simp] theorem updDbg_bdg (s : State) (f : DbgState → DbgState) : (s.updDbg f).bdg = s.bdg := rfl
@[simp] theorem updDbg_memg (s : State) (f : DbgState → DbgState) : (s.updDbg f).memg = s.memg := rfl
@[simp] theorem updDbg_nvm (s : State) (f : DbgState → DbgState) : (s.updDbg f).nvm = s.nvm := rfl
@[simp] theorem updDbg_bas (s : State) (f : DbgState → DbgState) : (s.updDbg f).bas = s.bas := rfl
@[simp] theorem updDbg_fab (s : State) (f : DbgState → DbgState) : (s.updDbg f).fab = s.fab := rfl
@[simp] theorem updDbg_lks (s : State) (f : DbgState → DbgState) : (s.updDbg f).lks = s.lks := rfl
@[simp] theorem updDbg_ful (s : State) (f : DbgState → DbgState) : (s.updDbg f).ful = s.ful := rfl
@[simp] theorem updDbg_dbg (s : State) (f : DbgState → DbgState) : (s.updDbg f).dbg = f s.dbg := rfl
@[simp] theorem updDbg_doms (s : State) (f : DbgState → DbgState) : (s.updDbg f).doms = s.doms := rfl
@[simp] theorem updDbg_slots (s : State) (f : DbgState → DbgState) : (s.updDbg f).slots = s.slots := rfl
@[simp] theorem updDbg_mbds (s : State) (f : DbgState → DbgState) : (s.updDbg f).mbds = s.mbds := rfl
@[simp] theorem updDbg_units (s : State) (f : DbgState → DbgState) : (s.updDbg f).units = s.units := rfl
@[simp] theorem updDbg_recipe (s : State) (f : DbgState → DbgState) : (s.updDbg f).recipe = s.recipe := rfl
@[simp] theorem updDbg_views (s : State) (f : DbgState → DbgState) : (s.updDbg f).views = s.views := rfl
@[simp] theorem updDbg_pairs (s : State) (f : DbgState → DbgState) : (s.updDbg f).pairs = s.pairs := rfl
@[simp] theorem updDbg_counters (s : State) (f : DbgState → DbgState) : (s.updDbg f).counters = s.counters := rfl
@[simp] theorem updDbg_stretch (s : State) (f : DbgState → DbgState) : (s.updDbg f).stretch = s.stretch := rfl
@[simp] theorem updDbg_latches (s : State) (f : DbgState → DbgState) : (s.updDbg f).latches = s.latches := rfl
@[simp] theorem updDbg_locked (s : State) (f : DbgState → DbgState) : (s.updDbg f).locked = s.locked := rfl
@[simp] theorem updDbg_sels (s : State) (f : DbgState → DbgState) : (s.updDbg f).sels = s.sels := rfl
@[simp] theorem updDbg_commons (s : State) (f : DbgState → DbgState) : (s.updDbg f).commons = s.commons := rfl
@[simp] theorem updDbg_commonsPoison (s : State) (f : DbgState → DbgState) : (s.updDbg f).commonsPoison = s.commonsPoison := rfl
@[simp] theorem updDbg_commonsCounted (s : State) (f : DbgState → DbgState) : (s.updDbg f).commonsCounted = s.commonsCounted := rfl
@[simp] theorem updDbg_acc (s : State) (f : DbgState → DbgState) : (s.updDbg f).acc = s.acc := rfl
@[simp] theorem updDbg_opbuf (s : State) (f : DbgState → DbgState) : (s.updDbg f).opbuf = s.opbuf := rfl
@[simp] theorem updDbg_freeFrames (s : State) (f : DbgState → DbgState) : (s.updDbg f).freeFrames = s.freeFrames := rfl
@[simp] theorem updDbg_atLatch (s : State) (f : DbgState → DbgState) : (s.updDbg f).atLatch = s.atLatch := rfl
@[simp] theorem updDbg_freeCtr (s : State) (f : DbgState → DbgState) : (s.updDbg f).freeCtr = s.freeCtr := rfl
@[simp] theorem updDbg_out (s : State) (f : DbgState → DbgState) : (s.updDbg f).out = s.out := rfl
@[simp] theorem updDbg_dom (s : State) (f : DbgState → DbgState) (e : Nat) : (s.updDbg f).dom e = s.dom e := rfl
@[simp] theorem updDbg_slot (s : State) (f : DbgState → DbgState) (e : Nat) : (s.updDbg f).slot e = s.slot e := rfl
@[simp] theorem updDbg_mbd (s : State) (f : DbgState → DbgState) (e : Nat) : (s.updDbg f).mbd e = s.mbd e := rfl
@[simp] theorem updDbg_port (s : State) (f : DbgState → DbgState) (e : Nat) : (s.updDbg f).port e = s.port e := rfl
@[simp] theorem updDbg_unit (s : State) (f : DbgState → DbgState) (e : Nat) : (s.updDbg f).unit e = s.unit e := rfl
@[simp] theorem updDbg_view (s : State) (f : DbgState → DbgState) (e g : Nat) : (s.updDbg f).view e g = s.view e g := rfl
@[simp] theorem updDbg_pair (s : State) (f : DbgState → DbgState) (e g : Nat) : (s.updDbg f).pair e g = s.pair e g := rfl
@[simp] theorem updDbg_counter (s : State) (f : DbgState → DbgState) (e g i : Nat) : (s.updDbg f).counter e g i = s.counter e g i := rfl
@[simp] theorem updDbg_copy (s : State) (f : DbgState → DbgState) (e : Nat) : (s.updDbg f).copy e = s.copy e := rfl

/-! ## bump -/

@[simp] theorem bump_pending (s : State) (c k i n : Nat) : (s.bump c k i n).pending = s.pending := rfl
@[simp] theorem bump_boot (s : State) (c k i n : Nat) : (s.bump c k i n).boot = s.boot := rfl
@[simp] theorem bump_fuses (s : State) (c k i n : Nat) : (s.bump c k i n).fuses = s.fuses := rfl
@[simp] theorem bump_pci (s : State) (c k i n : Nat) : (s.bump c k i n).pci = s.pci := rfl
@[simp] theorem bump_tik (s : State) (c k i n : Nat) : (s.bump c k i n).tik = s.tik := rfl
@[simp] theorem bump_pwr (s : State) (c k i n : Nat) : (s.bump c k i n).pwr = s.pwr := rfl
@[simp] theorem bump_bdg (s : State) (c k i n : Nat) : (s.bump c k i n).bdg = s.bdg := rfl
@[simp] theorem bump_memg (s : State) (c k i n : Nat) : (s.bump c k i n).memg = s.memg := rfl
@[simp] theorem bump_nvm (s : State) (c k i n : Nat) : (s.bump c k i n).nvm = s.nvm := rfl
@[simp] theorem bump_bas (s : State) (c k i n : Nat) : (s.bump c k i n).bas = s.bas := rfl
@[simp] theorem bump_fab (s : State) (c k i n : Nat) : (s.bump c k i n).fab = s.fab := rfl
@[simp] theorem bump_lks (s : State) (c k i n : Nat) : (s.bump c k i n).lks = s.lks := rfl
@[simp] theorem bump_ful (s : State) (c k i n : Nat) : (s.bump c k i n).ful = s.ful := rfl
@[simp] theorem bump_dbg (s : State) (c k i n : Nat) : (s.bump c k i n).dbg = s.dbg := rfl
@[simp] theorem bump_doms (s : State) (c k i n : Nat) : (s.bump c k i n).doms = s.doms := rfl
@[simp] theorem bump_slots (s : State) (c k i n : Nat) : (s.bump c k i n).slots = s.slots := rfl
@[simp] theorem bump_mbds (s : State) (c k i n : Nat) : (s.bump c k i n).mbds = s.mbds := rfl
@[simp] theorem bump_units (s : State) (c k i n : Nat) : (s.bump c k i n).units = s.units := rfl
@[simp] theorem bump_recipe (s : State) (c k i n : Nat) : (s.bump c k i n).recipe = s.recipe := rfl
@[simp] theorem bump_views (s : State) (c k i n : Nat) : (s.bump c k i n).views = s.views := rfl
@[simp] theorem bump_pairs (s : State) (c k i n : Nat) : (s.bump c k i n).pairs = s.pairs := rfl
@[simp] theorem bump_stretch (s : State) (c k i n : Nat) : (s.bump c k i n).stretch = s.stretch := rfl
@[simp] theorem bump_latches (s : State) (c k i n : Nat) : (s.bump c k i n).latches = s.latches := rfl
@[simp] theorem bump_locked (s : State) (c k i n : Nat) : (s.bump c k i n).locked = s.locked := rfl
@[simp] theorem bump_sels (s : State) (c k i n : Nat) : (s.bump c k i n).sels = s.sels := rfl
@[simp] theorem bump_commons (s : State) (c k i n : Nat) : (s.bump c k i n).commons = s.commons := rfl
@[simp] theorem bump_commonsPoison (s : State) (c k i n : Nat) : (s.bump c k i n).commonsPoison = s.commonsPoison := rfl
@[simp] theorem bump_commonsCounted (s : State) (c k i n : Nat) : (s.bump c k i n).commonsCounted = s.commonsCounted := rfl
@[simp] theorem bump_acc (s : State) (c k i n : Nat) : (s.bump c k i n).acc = s.acc := rfl
@[simp] theorem bump_opbuf (s : State) (c k i n : Nat) : (s.bump c k i n).opbuf = s.opbuf := rfl
@[simp] theorem bump_freeFrames (s : State) (c k i n : Nat) : (s.bump c k i n).freeFrames = s.freeFrames := rfl
@[simp] theorem bump_atLatch (s : State) (c k i n : Nat) : (s.bump c k i n).atLatch = s.atLatch := rfl
@[simp] theorem bump_freeCtr (s : State) (c k i n : Nat) : (s.bump c k i n).freeCtr = s.freeCtr := rfl
@[simp] theorem bump_out (s : State) (c k i n : Nat) : (s.bump c k i n).out = s.out := rfl
@[simp] theorem bump_dom (s : State) (c k i n : Nat) (e : Nat) : (s.bump c k i n).dom e = s.dom e := rfl
@[simp] theorem bump_slot (s : State) (c k i n : Nat) (e : Nat) : (s.bump c k i n).slot e = s.slot e := rfl
@[simp] theorem bump_mbd (s : State) (c k i n : Nat) (e : Nat) : (s.bump c k i n).mbd e = s.mbd e := rfl
@[simp] theorem bump_port (s : State) (c k i n : Nat) (e : Nat) : (s.bump c k i n).port e = s.port e := rfl
@[simp] theorem bump_unit (s : State) (c k i n : Nat) (e : Nat) : (s.bump c k i n).unit e = s.unit e := rfl
@[simp] theorem bump_view (s : State) (c k i n : Nat) (e g : Nat) : (s.bump c k i n).view e g = s.view e g := rfl
@[simp] theorem bump_pair (s : State) (c k i n : Nat) (e g : Nat) : (s.bump c k i n).pair e g = s.pair e g := rfl
@[simp] theorem bump_copy (s : State) (c k i n : Nat) (e : Nat) : (s.bump c k i n).copy e = s.copy e := rfl

/-! ## addStretch -/

@[simp] theorem addStretch_pending (s : State) (c k n : Nat) : (s.addStretch c k n).pending = s.pending := rfl
@[simp] theorem addStretch_boot (s : State) (c k n : Nat) : (s.addStretch c k n).boot = s.boot := rfl
@[simp] theorem addStretch_fuses (s : State) (c k n : Nat) : (s.addStretch c k n).fuses = s.fuses := rfl
@[simp] theorem addStretch_pci (s : State) (c k n : Nat) : (s.addStretch c k n).pci = s.pci := rfl
@[simp] theorem addStretch_tik (s : State) (c k n : Nat) : (s.addStretch c k n).tik = s.tik := rfl
@[simp] theorem addStretch_pwr (s : State) (c k n : Nat) : (s.addStretch c k n).pwr = s.pwr := rfl
@[simp] theorem addStretch_bdg (s : State) (c k n : Nat) : (s.addStretch c k n).bdg = s.bdg := rfl
@[simp] theorem addStretch_memg (s : State) (c k n : Nat) : (s.addStretch c k n).memg = s.memg := rfl
@[simp] theorem addStretch_nvm (s : State) (c k n : Nat) : (s.addStretch c k n).nvm = s.nvm := rfl
@[simp] theorem addStretch_bas (s : State) (c k n : Nat) : (s.addStretch c k n).bas = s.bas := rfl
@[simp] theorem addStretch_fab (s : State) (c k n : Nat) : (s.addStretch c k n).fab = s.fab := rfl
@[simp] theorem addStretch_lks (s : State) (c k n : Nat) : (s.addStretch c k n).lks = s.lks := rfl
@[simp] theorem addStretch_ful (s : State) (c k n : Nat) : (s.addStretch c k n).ful = s.ful := rfl
@[simp] theorem addStretch_dbg (s : State) (c k n : Nat) : (s.addStretch c k n).dbg = s.dbg := rfl
@[simp] theorem addStretch_doms (s : State) (c k n : Nat) : (s.addStretch c k n).doms = s.doms := rfl
@[simp] theorem addStretch_slots (s : State) (c k n : Nat) : (s.addStretch c k n).slots = s.slots := rfl
@[simp] theorem addStretch_mbds (s : State) (c k n : Nat) : (s.addStretch c k n).mbds = s.mbds := rfl
@[simp] theorem addStretch_units (s : State) (c k n : Nat) : (s.addStretch c k n).units = s.units := rfl
@[simp] theorem addStretch_recipe (s : State) (c k n : Nat) : (s.addStretch c k n).recipe = s.recipe := rfl
@[simp] theorem addStretch_views (s : State) (c k n : Nat) : (s.addStretch c k n).views = s.views := rfl
@[simp] theorem addStretch_pairs (s : State) (c k n : Nat) : (s.addStretch c k n).pairs = s.pairs := rfl
@[simp] theorem addStretch_counters (s : State) (c k n : Nat) : (s.addStretch c k n).counters = s.counters := rfl
@[simp] theorem addStretch_latches (s : State) (c k n : Nat) : (s.addStretch c k n).latches = s.latches := rfl
@[simp] theorem addStretch_locked (s : State) (c k n : Nat) : (s.addStretch c k n).locked = s.locked := rfl
@[simp] theorem addStretch_sels (s : State) (c k n : Nat) : (s.addStretch c k n).sels = s.sels := rfl
@[simp] theorem addStretch_commons (s : State) (c k n : Nat) : (s.addStretch c k n).commons = s.commons := rfl
@[simp] theorem addStretch_commonsPoison (s : State) (c k n : Nat) : (s.addStretch c k n).commonsPoison = s.commonsPoison := rfl
@[simp] theorem addStretch_commonsCounted (s : State) (c k n : Nat) : (s.addStretch c k n).commonsCounted = s.commonsCounted := rfl
@[simp] theorem addStretch_acc (s : State) (c k n : Nat) : (s.addStretch c k n).acc = s.acc := rfl
@[simp] theorem addStretch_opbuf (s : State) (c k n : Nat) : (s.addStretch c k n).opbuf = s.opbuf := rfl
@[simp] theorem addStretch_freeFrames (s : State) (c k n : Nat) : (s.addStretch c k n).freeFrames = s.freeFrames := rfl
@[simp] theorem addStretch_atLatch (s : State) (c k n : Nat) : (s.addStretch c k n).atLatch = s.atLatch := rfl
@[simp] theorem addStretch_freeCtr (s : State) (c k n : Nat) : (s.addStretch c k n).freeCtr = s.freeCtr := rfl
@[simp] theorem addStretch_out (s : State) (c k n : Nat) : (s.addStretch c k n).out = s.out := rfl
@[simp] theorem addStretch_dom (s : State) (c k n : Nat) (e : Nat) : (s.addStretch c k n).dom e = s.dom e := rfl
@[simp] theorem addStretch_slot (s : State) (c k n : Nat) (e : Nat) : (s.addStretch c k n).slot e = s.slot e := rfl
@[simp] theorem addStretch_mbd (s : State) (c k n : Nat) (e : Nat) : (s.addStretch c k n).mbd e = s.mbd e := rfl
@[simp] theorem addStretch_port (s : State) (c k n : Nat) (e : Nat) : (s.addStretch c k n).port e = s.port e := rfl
@[simp] theorem addStretch_unit (s : State) (c k n : Nat) (e : Nat) : (s.addStretch c k n).unit e = s.unit e := rfl
@[simp] theorem addStretch_view (s : State) (c k n : Nat) (e g : Nat) : (s.addStretch c k n).view e g = s.view e g := rfl
@[simp] theorem addStretch_pair (s : State) (c k n : Nat) (e g : Nat) : (s.addStretch c k n).pair e g = s.pair e g := rfl
@[simp] theorem addStretch_counter (s : State) (c k n : Nat) (e g i : Nat) : (s.addStretch c k n).counter e g i = s.counter e g i := rfl
@[simp] theorem addStretch_copy (s : State) (c k n : Nat) (e : Nat) : (s.addStretch c k n).copy e = s.copy e := rfl

/-! ## emit -/

@[simp] theorem emit_pending (s : State) (o : Output) : (s.emit o).pending = s.pending := rfl
@[simp] theorem emit_boot (s : State) (o : Output) : (s.emit o).boot = s.boot := rfl
@[simp] theorem emit_fuses (s : State) (o : Output) : (s.emit o).fuses = s.fuses := rfl
@[simp] theorem emit_pci (s : State) (o : Output) : (s.emit o).pci = s.pci := rfl
@[simp] theorem emit_tik (s : State) (o : Output) : (s.emit o).tik = s.tik := rfl
@[simp] theorem emit_pwr (s : State) (o : Output) : (s.emit o).pwr = s.pwr := rfl
@[simp] theorem emit_bdg (s : State) (o : Output) : (s.emit o).bdg = s.bdg := rfl
@[simp] theorem emit_memg (s : State) (o : Output) : (s.emit o).memg = s.memg := rfl
@[simp] theorem emit_nvm (s : State) (o : Output) : (s.emit o).nvm = s.nvm := rfl
@[simp] theorem emit_bas (s : State) (o : Output) : (s.emit o).bas = s.bas := rfl
@[simp] theorem emit_fab (s : State) (o : Output) : (s.emit o).fab = s.fab := rfl
@[simp] theorem emit_lks (s : State) (o : Output) : (s.emit o).lks = s.lks := rfl
@[simp] theorem emit_ful (s : State) (o : Output) : (s.emit o).ful = s.ful := rfl
@[simp] theorem emit_dbg (s : State) (o : Output) : (s.emit o).dbg = s.dbg := rfl
@[simp] theorem emit_doms (s : State) (o : Output) : (s.emit o).doms = s.doms := rfl
@[simp] theorem emit_slots (s : State) (o : Output) : (s.emit o).slots = s.slots := rfl
@[simp] theorem emit_mbds (s : State) (o : Output) : (s.emit o).mbds = s.mbds := rfl
@[simp] theorem emit_units (s : State) (o : Output) : (s.emit o).units = s.units := rfl
@[simp] theorem emit_recipe (s : State) (o : Output) : (s.emit o).recipe = s.recipe := rfl
@[simp] theorem emit_views (s : State) (o : Output) : (s.emit o).views = s.views := rfl
@[simp] theorem emit_pairs (s : State) (o : Output) : (s.emit o).pairs = s.pairs := rfl
@[simp] theorem emit_counters (s : State) (o : Output) : (s.emit o).counters = s.counters := rfl
@[simp] theorem emit_stretch (s : State) (o : Output) : (s.emit o).stretch = s.stretch := rfl
@[simp] theorem emit_latches (s : State) (o : Output) : (s.emit o).latches = s.latches := rfl
@[simp] theorem emit_locked (s : State) (o : Output) : (s.emit o).locked = s.locked := rfl
@[simp] theorem emit_sels (s : State) (o : Output) : (s.emit o).sels = s.sels := rfl
@[simp] theorem emit_commons (s : State) (o : Output) : (s.emit o).commons = s.commons := rfl
@[simp] theorem emit_commonsPoison (s : State) (o : Output) : (s.emit o).commonsPoison = s.commonsPoison := rfl
@[simp] theorem emit_commonsCounted (s : State) (o : Output) : (s.emit o).commonsCounted = s.commonsCounted := rfl
@[simp] theorem emit_acc (s : State) (o : Output) : (s.emit o).acc = s.acc := rfl
@[simp] theorem emit_opbuf (s : State) (o : Output) : (s.emit o).opbuf = s.opbuf := rfl
@[simp] theorem emit_freeFrames (s : State) (o : Output) : (s.emit o).freeFrames = s.freeFrames := rfl
@[simp] theorem emit_atLatch (s : State) (o : Output) : (s.emit o).atLatch = s.atLatch := rfl
@[simp] theorem emit_freeCtr (s : State) (o : Output) : (s.emit o).freeCtr = s.freeCtr := rfl
@[simp] theorem emit_out (s : State) (o : Output) : (s.emit o).out = o :: s.out := rfl
@[simp] theorem emit_dom (s : State) (o : Output) (e : Nat) : (s.emit o).dom e = s.dom e := rfl
@[simp] theorem emit_slot (s : State) (o : Output) (e : Nat) : (s.emit o).slot e = s.slot e := rfl
@[simp] theorem emit_mbd (s : State) (o : Output) (e : Nat) : (s.emit o).mbd e = s.mbd e := rfl
@[simp] theorem emit_port (s : State) (o : Output) (e : Nat) : (s.emit o).port e = s.port e := rfl
@[simp] theorem emit_unit (s : State) (o : Output) (e : Nat) : (s.emit o).unit e = s.unit e := rfl
@[simp] theorem emit_view (s : State) (o : Output) (e g : Nat) : (s.emit o).view e g = s.view e g := rfl
@[simp] theorem emit_pair (s : State) (o : Output) (e g : Nat) : (s.emit o).pair e g = s.pair e g := rfl
@[simp] theorem emit_counter (s : State) (o : Output) (e g i : Nat) : (s.emit o).counter e g i = s.counter e g i := rfl
@[simp] theorem emit_copy (s : State) (o : Output) (e : Nat) : (s.emit o).copy e = s.copy e := rfl

/-! ## defer -/

@[simp] theorem defer_pending (s : State) (a : LatchAct) : (s.defer a).pending = s.pending := rfl
@[simp] theorem defer_boot (s : State) (a : LatchAct) : (s.defer a).boot = s.boot := rfl
@[simp] theorem defer_fuses (s : State) (a : LatchAct) : (s.defer a).fuses = s.fuses := rfl
@[simp] theorem defer_pci (s : State) (a : LatchAct) : (s.defer a).pci = s.pci := rfl
@[simp] theorem defer_tik (s : State) (a : LatchAct) : (s.defer a).tik = s.tik := rfl
@[simp] theorem defer_pwr (s : State) (a : LatchAct) : (s.defer a).pwr = s.pwr := rfl
@[simp] theorem defer_bdg (s : State) (a : LatchAct) : (s.defer a).bdg = s.bdg := rfl
@[simp] theorem defer_memg (s : State) (a : LatchAct) : (s.defer a).memg = s.memg := rfl
@[simp] theorem defer_nvm (s : State) (a : LatchAct) : (s.defer a).nvm = s.nvm := rfl
@[simp] theorem defer_bas (s : State) (a : LatchAct) : (s.defer a).bas = s.bas := rfl
@[simp] theorem defer_fab (s : State) (a : LatchAct) : (s.defer a).fab = s.fab := rfl
@[simp] theorem defer_lks (s : State) (a : LatchAct) : (s.defer a).lks = s.lks := rfl
@[simp] theorem defer_ful (s : State) (a : LatchAct) : (s.defer a).ful = s.ful := rfl
@[simp] theorem defer_dbg (s : State) (a : LatchAct) : (s.defer a).dbg = s.dbg := rfl
@[simp] theorem defer_doms (s : State) (a : LatchAct) : (s.defer a).doms = s.doms := rfl
@[simp] theorem defer_slots (s : State) (a : LatchAct) : (s.defer a).slots = s.slots := rfl
@[simp] theorem defer_mbds (s : State) (a : LatchAct) : (s.defer a).mbds = s.mbds := rfl
@[simp] theorem defer_units (s : State) (a : LatchAct) : (s.defer a).units = s.units := rfl
@[simp] theorem defer_recipe (s : State) (a : LatchAct) : (s.defer a).recipe = s.recipe := rfl
@[simp] theorem defer_views (s : State) (a : LatchAct) : (s.defer a).views = s.views := rfl
@[simp] theorem defer_pairs (s : State) (a : LatchAct) : (s.defer a).pairs = s.pairs := rfl
@[simp] theorem defer_counters (s : State) (a : LatchAct) : (s.defer a).counters = s.counters := rfl
@[simp] theorem defer_stretch (s : State) (a : LatchAct) : (s.defer a).stretch = s.stretch := rfl
@[simp] theorem defer_latches (s : State) (a : LatchAct) : (s.defer a).latches = s.latches := rfl
@[simp] theorem defer_locked (s : State) (a : LatchAct) : (s.defer a).locked = s.locked := rfl
@[simp] theorem defer_sels (s : State) (a : LatchAct) : (s.defer a).sels = s.sels := rfl
@[simp] theorem defer_commons (s : State) (a : LatchAct) : (s.defer a).commons = s.commons := rfl
@[simp] theorem defer_commonsPoison (s : State) (a : LatchAct) : (s.defer a).commonsPoison = s.commonsPoison := rfl
@[simp] theorem defer_commonsCounted (s : State) (a : LatchAct) : (s.defer a).commonsCounted = s.commonsCounted := rfl
@[simp] theorem defer_acc (s : State) (a : LatchAct) : (s.defer a).acc = s.acc := rfl
@[simp] theorem defer_opbuf (s : State) (a : LatchAct) : (s.defer a).opbuf = s.opbuf := rfl
@[simp] theorem defer_freeFrames (s : State) (a : LatchAct) : (s.defer a).freeFrames = s.freeFrames := rfl
@[simp] theorem defer_atLatch (s : State) (a : LatchAct) : (s.defer a).atLatch = s.atLatch ++ [a] := rfl
@[simp] theorem defer_freeCtr (s : State) (a : LatchAct) : (s.defer a).freeCtr = s.freeCtr := rfl
@[simp] theorem defer_out (s : State) (a : LatchAct) : (s.defer a).out = s.out := rfl
@[simp] theorem defer_dom (s : State) (a : LatchAct) (e : Nat) : (s.defer a).dom e = s.dom e := rfl
@[simp] theorem defer_slot (s : State) (a : LatchAct) (e : Nat) : (s.defer a).slot e = s.slot e := rfl
@[simp] theorem defer_mbd (s : State) (a : LatchAct) (e : Nat) : (s.defer a).mbd e = s.mbd e := rfl
@[simp] theorem defer_port (s : State) (a : LatchAct) (e : Nat) : (s.defer a).port e = s.port e := rfl
@[simp] theorem defer_unit (s : State) (a : LatchAct) (e : Nat) : (s.defer a).unit e = s.unit e := rfl
@[simp] theorem defer_view (s : State) (a : LatchAct) (e g : Nat) : (s.defer a).view e g = s.view e g := rfl
@[simp] theorem defer_pair (s : State) (a : LatchAct) (e g : Nat) : (s.defer a).pair e g = s.pair e g := rfl
@[simp] theorem defer_counter (s : State) (a : LatchAct) (e g i : Nat) : (s.defer a).counter e g i = s.counter e g i := rfl
@[simp] theorem defer_copy (s : State) (a : LatchAct) (e : Nat) : (s.defer a).copy e = s.copy e := rfl

/-! ## Reading back what was put -/

@[simp] theorem dom_putDom_self (s : State) (d : Nat) (x : Dom) : (s.putDom d x).dom d = x := by rw [dom_putDom, if_pos rfl]
@[simp] theorem dom_updDom_self (s : State) (d : Nat) (f : Dom → Dom) : (s.updDom d f).dom d = f (s.dom d) := dom_putDom_self _ _ _
theorem dom_putDom_ne (s : State) (d e : Nat) (x : Dom) (h : e ≠ d) : (s.putDom d x).dom e = s.dom e := by rw [dom_putDom, if_neg h]
theorem dom_updDom_ne (s : State) (d e : Nat) (f : Dom → Dom) (h : e ≠ d) : (s.updDom d f).dom e = s.dom e := dom_putDom_ne _ _ _ _ h
theorem dom_updDom (s : State) (d e : Nat) (f : Dom → Dom) : (s.updDom d f).dom e = if e = d then f (s.dom d) else s.dom e :=
  dom_putDom _ _ _ _

theorem slot_putSlot (s : State) (k j : Nat) (x : SlotEntry) : (s.putSlot k x).slot j = if j = k then x else s.slot j := by
  unfold State.slot State.putSlot
  rw [mapGet_mapSet]
  split <;> rfl

@[simp] theorem slot_putSlot_self (s : State) (k : Nat) (x : SlotEntry) : (s.putSlot k x).slot k = x := by rw [slot_putSlot, if_pos rfl]
@[simp] theorem slot_updSlot_self (s : State) (k : Nat) (f : SlotEntry → SlotEntry) : (s.updSlot k f).slot k = f (s.slot k) :=
  slot_putSlot_self _ _ _
theorem slot_updSlot_ne (s : State) (k j : Nat) (f : SlotEntry → SlotEntry) (h : j ≠ k) : (s.updSlot k f).slot j = s.slot j := by
  rw [State.updSlot, slot_putSlot, if_neg h]

theorem mbd_updMbd (s : State) (k j : Nat) (f : StackState → StackState) :
    (s.updMbd k f).mbd j = if j = k then f (s.mbd k) else s.mbd j := by
  unfold State.mbd State.updMbd State.putMbd
  rw [mapGet_mapSet]
  split <;> rfl

@[simp] theorem mbd_updMbd_self (s : State) (k : Nat) (f : StackState → StackState) : (s.updMbd k f).mbd k = f (s.mbd k) := by
  rw [mbd_updMbd, if_pos rfl]

theorem port_putPort (s : State) (k j : Nat) (x : PortStateRec) : (s.putPort k x).port j = if j = k then x else s.port j := by
  unfold State.port State.putPort
  rw [mapGet_mapSet]
  split <;> rfl

@[simp] theorem port_putPort_self (s : State) (k : Nat) (x : PortStateRec) : (s.putPort k x).port k = x := by
  rw [port_putPort, if_pos rfl]
@[simp] theorem port_updPort_self (s : State) (k : Nat) (f : PortStateRec → PortStateRec) : (s.updPort k f).port k = f (s.port k) :=
  port_putPort_self _ _ _
theorem port_updPort_ne (s : State) (k j : Nat) (f : PortStateRec → PortStateRec) (h : j ≠ k) : (s.updPort k f).port j = s.port j := by
  rw [State.updPort, port_putPort, if_neg h]

theorem unit_updUnit (s : State) (k j : Nat) (f : ArgUnit → ArgUnit) :
    (s.updUnit k f).unit j = if j = k then f (s.unit k) else s.unit j := by
  unfold State.unit State.updUnit
  rw [mapGet_mapSet]
  split <;> rfl

theorem pair_putPair (s : State) (c k e g : Nat) (x : CmdPair) :
    (s.putPair c k x).pair e g = if 256 * e + g = 256 * c + k then x else s.pair e g := by
  unfold State.pair State.putPair
  rw [mapGet_mapSet]
  split <;> rfl

@[simp] theorem pair_putPair_self (s : State) (c k : Nat) (x : CmdPair) : (s.putPair c k x).pair c k = x := by
  rw [pair_putPair, if_pos rfl]

theorem view_putView (s : State) (c k e g : Nat) (x : PageView) :
    (s.putView c k x).view e g = if 256 * e + g = 256 * c + k then x else s.view e g := by
  unfold State.view State.putView
  rw [mapGet_mapSet]
  split <;> rfl

@[simp] theorem view_putView_self (s : State) (c k : Nat) (x : PageView) : (s.putView c k x).view c k = x := by
  rw [view_putView, if_pos rfl]

theorem counter_bump (s : State) (a b c n e g i : Nat) :
    (s.bump a b c n).counter e g i = if counterKey e g i = counterKey a b c then s.counter a b c + w64 n else s.counter e g i := by
  unfold State.counter State.bump
  rw [mapGet_mapSet]
  split
  · rfl
  · rfl

@[simp] theorem counter_bump_self (s : State) (a b c n : Nat) : (s.bump a b c n).counter a b c = s.counter a b c + w64 n := by
  rw [counter_bump, if_pos rfl]

/-! ## What the events keep -/

/-- The parts that an event may move. -/
abbrev evParts : List Part := [Part.pciPending, .traceHead, .views, .counters, .out]

/-! ### raiseDev -/

theorem raiseDev_frame (s : State) (p b : Nat) : Frame evParts s (s.raiseDev p b) := fr_raiseDev (fr_refl _ s) p b (fun _ h => h)
@[simp] theorem raiseDev_pending (s : State) (p b : Nat) : (s.raiseDev p b).pending = s.pending := (raiseDev_frame s p b).pending
@[simp] theorem raiseDev_boot (s : State) (p b : Nat) : (s.raiseDev p b).boot = s.boot := (raiseDev_frame s p b).kept .boot (by decide)
@[simp] theorem raiseDev_fuses (s : State) (p b : Nat) : (s.raiseDev p b).fuses = s.fuses := (raiseDev_frame s p b).kept .fuses (by decide)
@[simp] theorem raiseDev_tik (s : State) (p b : Nat) : (s.raiseDev p b).tik = s.tik := (raiseDev_frame s p b).kept .tik (by decide)
@[simp] theorem raiseDev_pwr (s : State) (p b : Nat) : (s.raiseDev p b).pwr = s.pwr := (raiseDev_frame s p b).kept .pwr (by decide)
@[simp] theorem raiseDev_bdg (s : State) (p b : Nat) : (s.raiseDev p b).bdg = s.bdg := (raiseDev_frame s p b).kept .bdg (by decide)
@[simp] theorem raiseDev_memg (s : State) (p b : Nat) : (s.raiseDev p b).memg = s.memg := (raiseDev_frame s p b).kept .memg (by decide)
@[simp] theorem raiseDev_nvm (s : State) (p b : Nat) : (s.raiseDev p b).nvm = s.nvm := (raiseDev_frame s p b).kept .nvm (by decide)
@[simp] theorem raiseDev_bas (s : State) (p b : Nat) : (s.raiseDev p b).bas = s.bas := (raiseDev_frame s p b).kept .bas (by decide)
@[simp] theorem raiseDev_fab (s : State) (p b : Nat) : (s.raiseDev p b).fab = s.fab := (raiseDev_frame s p b).kept .fab (by decide)
@[simp] theorem raiseDev_lks (s : State) (p b : Nat) : (s.raiseDev p b).lks = s.lks := (raiseDev_frame s p b).kept .lks (by decide)
@[simp] theorem raiseDev_ful (s : State) (p b : Nat) : (s.raiseDev p b).ful = s.ful := (raiseDev_frame s p b).kept .ful (by decide)
@[simp] theorem raiseDev_slots (s : State) (p b : Nat) : (s.raiseDev p b).slots = s.slots := (raiseDev_frame s p b).kept .slots (by decide)
@[simp] theorem raiseDev_mbds (s : State) (p b : Nat) : (s.raiseDev p b).mbds = s.mbds := (raiseDev_frame s p b).kept .mbds (by decide)
@[simp] theorem raiseDev_units (s : State) (p b : Nat) : (s.raiseDev p b).units = s.units := (raiseDev_frame s p b).kept .units (by decide)
@[simp] theorem raiseDev_recipe (s : State) (p b : Nat) : (s.raiseDev p b).recipe = s.recipe := (raiseDev_frame s p b).kept .recipe (by decide)
@[simp] theorem raiseDev_pairs (s : State) (p b : Nat) : (s.raiseDev p b).pairs = s.pairs := (raiseDev_frame s p b).kept .pairs (by decide)
@[simp] theorem raiseDev_stretch (s : State) (p b : Nat) : (s.raiseDev p b).stretch = s.stretch := (raiseDev_frame s p b).kept .stretch (by decide)
@[simp] theorem raiseDev_latches (s : State) (p b : Nat) : (s.raiseDev p b).latches = s.latches := (raiseDev_frame s p b).kept .latches (by decide)
@[simp] theorem raiseDev_locked (s : State) (p b : Nat) : (s.raiseDev p b).locked = s.locked := (raiseDev_frame s p b).kept .locked (by decide)
@[simp] theorem raiseDev_sels (s : State) (p b : Nat) : (s.raiseDev p b).sels = s.sels := (raiseDev_frame s p b).kept .sels (by decide)
@[simp] theorem raiseDev_commons (s : State) (p b : Nat) : (s.raiseDev p b).commons = s.commons := (raiseDev_frame s p b).kept .commons (by decide)
@[simp] theorem raiseDev_acc (s : State) (p b : Nat) : (s.raiseDev p b).acc = s.acc := (raiseDev_frame s p b).kept .acc (by decide)
@[simp] theorem raiseDev_opbuf (s : State) (p b : Nat) : (s.raiseDev p b).opbuf = s.opbuf := (raiseDev_frame s p b).kept .opbuf (by decide)
@[simp] theorem raiseDev_freeFrames (s : State) (p b : Nat) : (s.raiseDev p b).freeFrames = s.freeFrames := (raiseDev_frame s p b).kept .freeFrames (by decide)
@[simp] theorem raiseDev_atLatch (s : State) (p b : Nat) : (s.raiseDev p b).atLatch = s.atLatch := (raiseDev_frame s p b).kept .atLatch (by decide)
@[simp] theorem raiseDev_freeCtr (s : State) (p b : Nat) : (s.raiseDev p b).freeCtr = s.freeCtr := (raiseDev_frame s p b).kept .freeCtr (by decide)
@[simp] theorem raiseDev_commonsPoison (s : State) (p b : Nat) : (s.raiseDev p b).commonsPoison = s.commonsPoison :=
  ((raiseDev_frame s p b).kept .commonsPoison (by decide)).1
@[simp] theorem raiseDev_slot (s : State) (p b : Nat) (e : Nat) : (s.raiseDev p b).slot e = s.slot e := by
  unfold State.slot; rw [raiseDev_slots]
@[simp] theorem raiseDev_mbd (s : State) (p b : Nat) (e : Nat) : (s.raiseDev p b).mbd e = s.mbd e := by
  unfold State.mbd; rw [raiseDev_mbds]
@[simp] theorem raiseDev_port (s : State) (p b : Nat) (e : Nat) : (s.raiseDev p b).port e = s.port e := by
  unfold State.port; rw [raiseDev_fab]
@[simp] theorem raiseDev_unit (s : State) (p b : Nat) (e : Nat) : (s.raiseDev p b).unit e = s.unit e := by
  unfold State.unit; rw [raiseDev_units]
@[simp] theorem raiseDev_pair (s : State) (p b : Nat) (e g : Nat) : (s.raiseDev p b).pair e g = s.pair e g := by
  unfold State.pair; rw [raiseDev_pairs]
@[simp] theorem raiseDev_copy (s : State) (p b : Nat) (e : Nat) : (s.raiseDev p b).copy e = s.copy e := by
  unfold State.copy; rw [raiseDev_bas]
theorem raiseDev_pci (s : State) (p b : Nat) : { (s.raiseDev p b).pci with pendingBits := [] } = { s.pci with pendingBits := [] } :=
  (raiseDev_frame s p b).kept .pci (by decide)
@[simp] theorem raiseDev_pci_speed (s : State) (p b : Nat) : (s.raiseDev p b).pci.speed = s.pci.speed := (congrArg PciState.speed (raiseDev_pci s p b) :)
@[simp] theorem raiseDev_pci_width (s : State) (p b : Nat) : (s.raiseDev p b).pci.width = s.pci.width := (congrArg PciState.width (raiseDev_pci s p b) :)
@[simp] theorem raiseDev_pci_dlUp (s : State) (p b : Nat) : (s.raiseDev p b).pci.dlUp = s.pci.dlUp := (congrArg PciState.dlUp (raiseDev_pci s p b) :)
@[simp] theorem raiseDev_pci_vfEnable (s : State) (p b : Nat) : (s.raiseDev p b).pci.vfEnable = s.pci.vfEnable := (congrArg PciState.vfEnable (raiseDev_pci s p b) :)
@[simp] theorem raiseDev_pci_numVfs (s : State) (p b : Nat) : (s.raiseDev p b).pci.numVfs = s.pci.numVfs := (congrArg PciState.numVfs (raiseDev_pci s p b) :)
@[simp] theorem raiseDev_pci_flr (s : State) (p b : Nat) : (s.raiseDev p b).pci.flr = s.pci.flr := (congrArg PciState.flr (raiseDev_pci s p b) :)
@[simp] theorem raiseDev_pci_errKind (s : State) (p b : Nat) : (s.raiseDev p b).pci.errKind = s.pci.errKind := (congrArg PciState.errKind (raiseDev_pci s p b) :)
@[simp] theorem raiseDev_pci_errFn (s : State) (p b : Nat) : (s.raiseDev p b).pci.errFn = s.pci.errFn := (congrArg PciState.errFn (raiseDev_pci s p b) :)
@[simp] theorem raiseDev_pci_errValid (s : State) (p b : Nat) : (s.raiseDev p b).pci.errValid = s.pci.errValid := (congrArg PciState.errValid (raiseDev_pci s p b) :)
@[simp] theorem raiseDev_pci_d3hot (s : State) (p b : Nat) : (s.raiseDev p b).pci.d3hot = s.pci.d3hot := (congrArg PciState.d3hot (raiseDev_pci s p b) :)
@[simp] theorem raiseDev_pci_unmasked (s : State) (p b : Nat) : (s.raiseDev p b).pci.unmasked = s.pci.unmasked := (congrArg PciState.unmasked (raiseDev_pci s p b) :)
@[simp] theorem raiseDev_pci_msixTable (s : State) (p b : Nat) : (s.raiseDev p b).pci.msixTable = s.pci.msixTable := (congrArg PciState.msixTable (raiseDev_pci s p b) :)
@[simp] theorem raiseDev_pci_creditMsg (s : State) (p b : Nat) : (s.raiseDev p b).pci.creditMsg = s.pci.creditMsg := (congrArg PciState.creditMsg (raiseDev_pci s p b) :)
@[simp] theorem raiseDev_pci_trainedOnce (s : State) (p b : Nat) : (s.raiseDev p b).pci.trainedOnce = s.pci.trainedOnce := (congrArg PciState.trainedOnce (raiseDev_pci s p b) :)
@[simp] theorem raiseDev_dom_phase (s : State) (p b : Nat) (e : Nat) : ((s.raiseDev p b).dom e).phase = (s.dom e).phase :=
  ((raiseDev_frame s p b).kept .domLife (by decide) e).1
@[simp] theorem raiseDev_dom_held (s : State) (p b : Nat) (e : Nat) : ((s.raiseDev p b).dom e).held = (s.dom e).held :=
  ((raiseDev_frame s p b).kept .domLife (by decide) e).2.1
@[simp] theorem raiseDev_dom_created (s : State) (p b : Nat) (e : Nat) : ((s.raiseDev p b).dom e).created = (s.dom e).created :=
  ((raiseDev_frame s p b).kept .domLife (by decide) e).2.2.1
@[simp] theorem raiseDev_dom_activeAt (s : State) (p b : Nat) (e : Nat) : ((s.raiseDev p b).dom e).activeAt = (s.dom e).activeAt :=
  ((raiseDev_frame s p b).kept .domLife (by decide) e).2.2.2.1
@[simp] theorem raiseDev_dom_doneDue (s : State) (p b : Nat) (e : Nat) : ((s.raiseDev p b).dom e).doneDue = (s.dom e).doneDue :=
  ((raiseDev_frame s p b).kept .domLife (by decide) e).2.2.2.2.1
@[simp] theorem raiseDev_dom_teardownAt (s : State) (p b : Nat) (e : Nat) : ((s.raiseDev p b).dom e).teardownAt = (s.dom e).teardownAt :=
  ((raiseDev_frame s p b).kept .domLife (by decide) e).2.2.2.2.2.1
@[simp] theorem raiseDev_dom_requests (s : State) (p b : Nat) (e : Nat) : ((s.raiseDev p b).dom e).requests = (s.dom e).requests :=
  ((raiseDev_frame s p b).kept .domLife (by decide) e).2.2.2.2.2.2.1
@[simp] theorem raiseDev_dom_leaving (s : State) (p b : Nat) (e : Nat) : ((s.raiseDev p b).dom e).leaving = (s.dom e).leaving :=
  ((raiseDev_frame s p b).kept .domLife (by decide) e).2.2.2.2.2.2.2.1
@[simp] theorem raiseDev_dom_scrubEnded (s : State) (p b : Nat) (e : Nat) : ((s.raiseDev p b).dom e).scrubEnded = (s.dom e).scrubEnded :=
  ((raiseDev_frame s p b).kept .domLife (by decide) e).2.2.2.2.2.2.2.2.1
@[simp] theorem raiseDev_dom_scrubStartNs (s : State) (p b : Nat) (e : Nat) : ((s.raiseDev p b).dom e).scrubStartNs = (s.dom e).scrubStartNs :=
  ((raiseDev_frame s p b).kept .domLife (by decide) e).2.2.2.2.2.2.2.2.2
@[simp] theorem raiseDev_dom_rec_ (s : State) (p b : Nat) (e : Nat) : ((s.raiseDev p b).dom e).rec_ = (s.dom e).rec_ :=
  ((raiseDev_frame s p b).kept .domRecord (by decide) e).1
@[simp] theorem raiseDev_dom_ovh (s : State) (p b : Nat) (e : Nat) : ((s.raiseDev p b).dom e).ovh = (s.dom e).ovh :=
  ((raiseDev_frame s p b).kept .domRecord (by decide) e).2.1
@[simp] theorem raiseDev_dom_loan (s : State) (p b : Nat) (e : Nat) : ((s.raiseDev p b).dom e).loan = (s.dom e).loan :=
  ((raiseDev_frame s p b).kept .domRecord (by decide) e).2.2
@[simp] theorem raiseDev_dom_preempted (s : State) (p b : Nat) (e : Nat) : ((s.raiseDev p b).dom e).preempted = (s.dom e).preempted :=
  ((raiseDev_frame s p b).kept .domPreempt (by decide) e).1
@[simp] theorem raiseDev_dom_saving (s : State) (p b : Nat) (e : Nat) : ((s.raiseDev p b).dom e).saving = (s.dom e).saving :=
  ((raiseDev_frame s p b).kept .domPreempt (by decide) e).2.1
@[simp] theorem raiseDev_dom_restoring (s : State) (p b : Nat) (e : Nat) : ((s.raiseDev p b).dom e).restoring = (s.dom e).restoring :=
  ((raiseDev_frame s p b).kept .domPreempt (by decide) e).2.2.1
@[simp] theorem raiseDev_dom_saveCommons (s : State) (p b : Nat) (e : Nat) : ((s.raiseDev p b).dom e).saveCommons = (s.dom e).saveCommons :=
  ((raiseDev_frame s p b).kept .domPreempt (by decide) e).2.2.2.1
@[simp] theorem raiseDev_dom_preemptAt (s : State) (p b : Nat) (e : Nat) : ((s.raiseDev p b).dom e).preemptAt = (s.dom e).preemptAt :=
  ((raiseDev_frame s p b).kept .domPreempt (by decide) e).2.2.2.2.1
@[simp] theorem raiseDev_dom_resumeAt (s : State) (p b : Nat) (e : Nat) : ((s.raiseDev p b).dom e).resumeAt = (s.dom e).resumeAt :=
  ((raiseDev_frame s p b).kept .domPreempt (by decide) e).2.2.2.2.2.1
@[simp] theorem raiseDev_dom_savedAcc (s : State) (p b : Nat) (e : Nat) : ((s.raiseDev p b).dom e).savedAcc = (s.dom e).savedAcc :=
  ((raiseDev_frame s p b).kept .domPreempt (by decide) e).2.2.2.2.2.2.1
@[simp] theorem raiseDev_dom_savedOpbuf (s : State) (p b : Nat) (e : Nat) : ((s.raiseDev p b).dom e).savedOpbuf = (s.dom e).savedOpbuf :=
  ((raiseDev_frame s p b).kept .domPreempt (by decide) e).2.2.2.2.2.2.2.1
@[simp] theorem raiseDev_dom_savedCommons (s : State) (p b : Nat) (e : Nat) : ((s.raiseDev p b).dom e).savedCommons = (s.dom e).savedCommons :=
  ((raiseDev_frame s p b).kept .domPreempt (by decide) e).2.2.2.2.2.2.2.2
@[simp] theorem raiseDev_dom_queue (s : State) (p b : Nat) (e : Nat) : ((s.raiseDev p b).dom e).queue = (s.dom e).queue :=
  ((raiseDev_frame s p b).kept .domQueue (by decide) e)
@[simp] theorem raiseDev_dom_nextOrder (s : State) (p b : Nat) (e : Nat) : ((s.raiseDev p b).dom e).nextOrder = (s.dom e).nextOrder :=
  ((raiseDev_frame s p b).kept .domSlabs (by decide) e).1
@[simp] theorem raiseDev_dom_slabs (s : State) (p b : Nat) (e : Nat) : ((s.raiseDev p b).dom e).slabs = (s.dom e).slabs :=
  ((raiseDev_frame s p b).kept .domSlabs (by decide) e).2.1
@[simp] theorem raiseDev_dom_devSlabs (s : State) (p b : Nat) (e : Nat) : ((s.raiseDev p b).dom e).devSlabs = (s.dom e).devSlabs :=
  ((raiseDev_frame s p b).kept .domSlabs (by decide) e).2.2.1
@[simp] theorem raiseDev_dom_devNext (s : State) (p b : Nat) (e : Nat) : ((s.raiseDev p b).dom e).devNext = (s.dom e).devNext :=
  ((raiseDev_frame s p b).kept .domSlabs (by decide) e).2.2.2.1
@[simp] theorem raiseDev_dom_batches (s : State) (p b : Nat) (e : Nat) : ((s.raiseDev p b).dom e).batches = (s.dom e).batches :=
  ((raiseDev_frame s p b).kept .domSlabs (by decide) e).2.2.2.2.1
@[simp] theorem raiseDev_dom_lastOperand (s : State) (p b : Nat) (e : Nat) : ((s.raiseDev p b).dom e).lastOperand = (s.dom e).lastOperand :=
  ((raiseDev_frame s p b).kept .domSlabs (by decide) e).2.2.2.2.2
@[simp] theorem raiseDev_dom_quota0 (s : State) (p b : Nat) (e : Nat) : ((s.raiseDev p b).dom e).quota0 = (s.dom e).quota0 :=
  ((raiseDev_frame s p b).kept .domSched (by decide) e).1
@[simp] theorem raiseDev_dom_weight (s : State) (p b : Nat) (e : Nat) : ((s.raiseDev p b).dom e).weight = (s.dom e).weight :=
  ((raiseDev_frame s p b).kept .domSched (by decide) e).2.1
@[simp] theorem raiseDev_dom_slots (s : State) (p b : Nat) (e : Nat) : ((s.raiseDev p b).dom e).slots = (s.dom e).slots :=
  ((raiseDev_frame s p b).kept .domSched (by decide) e).2.2.1
@[simp] theorem raiseDev_dom_rtUj (s : State) (p b : Nat) (e : Nat) : ((s.raiseDev p b).dom e).rtUj = (s.dom e).rtUj :=
  ((raiseDev_frame s p b).kept .domSched (by decide) e).2.2.2.1
@[simp] theorem raiseDev_dom_rtFirst (s : State) (p b : Nat) (e : Nat) : ((s.raiseDev p b).dom e).rtFirst = (s.dom e).rtFirst :=
  ((raiseDev_frame s p b).kept .domSched (by decide) e).2.2.2.2.1
@[simp] theorem raiseDev_dom_rtUnits (s : State) (p b : Nat) (e : Nat) : ((s.raiseDev p b).dom e).rtUnits = (s.dom e).rtUnits :=
  ((raiseDev_frame s p b).kept .domSched (by decide) e).2.2.2.2.2.1
@[simp] theorem raiseDev_dom_allow (s : State) (p b : Nat) (e : Nat) : ((s.raiseDev p b).dom e).allow = (s.dom e).allow :=
  ((raiseDev_frame s p b).kept .domSched (by decide) e).2.2.2.2.2.2.1
@[simp] theorem raiseDev_dom_lagNs (s : State) (p b : Nat) (e : Nat) : ((s.raiseDev p b).dom e).lagNs = (s.dom e).lagNs :=
  ((raiseDev_frame s p b).kept .domSched (by decide) e).2.2.2.2.2.2.2.1
@[simp] theorem raiseDev_dom_lagNext (s : State) (p b : Nat) (e : Nat) : ((s.raiseDev p b).dom e).lagNext = (s.dom e).lagNext :=
  ((raiseDev_frame s p b).kept .domSched (by decide) e).2.2.2.2.2.2.2.2.1
@[simp] theorem raiseDev_dom_rate (s : State) (p b : Nat) (e : Nat) : ((s.raiseDev p b).dom e).rate = (s.dom e).rate :=
  ((raiseDev_frame s p b).kept .domSched (by decide) e).2.2.2.2.2.2.2.2.2.1
@[simp] theorem raiseDev_dom_rateT (s : State) (p b : Nat) (e : Nat) : ((s.raiseDev p b).dom e).rateT = (s.dom e).rateT :=
  ((raiseDev_frame s p b).kept .domSched (by decide) e).2.2.2.2.2.2.2.2.2.2.1
@[simp] theorem raiseDev_dom_energyFrac (s : State) (p b : Nat) (e : Nat) : ((s.raiseDev p b).dom e).energyFrac = (s.dom e).energyFrac :=
  ((raiseDev_frame s p b).kept .domSched (by decide) e).2.2.2.2.2.2.2.2.2.2.2
@[simp] theorem raiseDev_dom_vec (s : State) (p b : Nat) (e : Nat) : ((s.raiseDev p b).dom e).vec = (s.dom e).vec :=
  ((raiseDev_frame s p b).kept .domVec (by decide) e)
@[simp] theorem raiseDev_dom_var_ (s : State) (p b : Nat) (e : Nat) : ((s.raiseDev p b).dom e).var_ = (s.dom e).var_ :=
  ((raiseDev_frame s p b).kept .domVar (by decide) e)
@[simp] theorem raiseDev_dom_upd (s : State) (p b : Nat) (e : Nat) : ((s.raiseDev p b).dom e).upd = (s.dom e).upd :=
  ((raiseDev_frame s p b).kept .domUpd (by decide) e)
@[simp] theorem raiseDev_dom_kvp (s : State) (p b : Nat) (e : Nat) : ((s.raiseDev p b).dom e).kvp = (s.dom e).kvp :=
  ((raiseDev_frame s p b).kept .domKvp (by decide) e)
@[simp] theorem raiseDev_dom_tir (s : State) (p b : Nat) (e : Nat) : ((s.raiseDev p b).dom e).tir = (s.dom e).tir :=
  ((raiseDev_frame s p b).kept .domTir (by decide) e)
@[simp] theorem raiseDev_dom_col (s : State) (p b : Nat) (e : Nat) : ((s.raiseDev p b).dom e).col = (s.dom e).col :=
  ((raiseDev_frame s p b).kept .domCol (by decide) e)
@[simp] theorem raiseDev_dom_keys (s : State) (p b : Nat) (e : Nat) : ((s.raiseDev p b).dom e).keys = (s.dom e).keys :=
  ((raiseDev_frame s p b).kept .domKeys (by decide) e)
@[simp] theorem raiseDev_dom_poison (s : State) (p b : Nat) (e : Nat) : ((s.raiseDev p b).dom e).poison = (s.dom e).poison :=
  ((raiseDev_frame s p b).kept .domPoison (by decide) e)

/-! ### raiseDom -/

theorem raiseDom_frame (s : State) (p b d : Nat) : Frame evParts s (s.raiseDom p b d) := fr_raiseDom (fr_refl _ s) p b d (fun _ h => h)
@[simp] theorem raiseDom_pending (s : State) (p b d : Nat) : (s.raiseDom p b d).pending = s.pending := (raiseDom_frame s p b d).pending
@[simp] theorem raiseDom_boot (s : State) (p b d : Nat) : (s.raiseDom p b d).boot = s.boot := (raiseDom_frame s p b d).kept .boot (by decide)
@[simp] theorem raiseDom_fuses (s : State) (p b d : Nat) : (s.raiseDom p b d).fuses = s.fuses := (raiseDom_frame s p b d).kept .fuses (by decide)
@[simp] theorem raiseDom_tik (s : State) (p b d : Nat) : (s.raiseDom p b d).tik = s.tik := (raiseDom_frame s p b d).kept .tik (by decide)
@[simp] theorem raiseDom_pwr (s : State) (p b d : Nat) : (s.raiseDom p b d).pwr = s.pwr := (raiseDom_frame s p b d).kept .pwr (by decide)
@[simp] theorem raiseDom_bdg (s : State) (p b d : Nat) : (s.raiseDom p b d).bdg = s.bdg := (raiseDom_frame s p b d).kept .bdg (by decide)
@[simp] theorem raiseDom_memg (s : State) (p b d : Nat) : (s.raiseDom p b d).memg = s.memg := (raiseDom_frame s p b d).kept .memg (by decide)
@[simp] theorem raiseDom_nvm (s : State) (p b d : Nat) : (s.raiseDom p b d).nvm = s.nvm := (raiseDom_frame s p b d).kept .nvm (by decide)
@[simp] theorem raiseDom_bas (s : State) (p b d : Nat) : (s.raiseDom p b d).bas = s.bas := (raiseDom_frame s p b d).kept .bas (by decide)
@[simp] theorem raiseDom_fab (s : State) (p b d : Nat) : (s.raiseDom p b d).fab = s.fab := (raiseDom_frame s p b d).kept .fab (by decide)
@[simp] theorem raiseDom_lks (s : State) (p b d : Nat) : (s.raiseDom p b d).lks = s.lks := (raiseDom_frame s p b d).kept .lks (by decide)
@[simp] theorem raiseDom_ful (s : State) (p b d : Nat) : (s.raiseDom p b d).ful = s.ful := (raiseDom_frame s p b d).kept .ful (by decide)
@[simp] theorem raiseDom_slots (s : State) (p b d : Nat) : (s.raiseDom p b d).slots = s.slots := (raiseDom_frame s p b d).kept .slots (by decide)
@[simp] theorem raiseDom_mbds (s : State) (p b d : Nat) : (s.raiseDom p b d).mbds = s.mbds := (raiseDom_frame s p b d).kept .mbds (by decide)
@[simp] theorem raiseDom_units (s : State) (p b d : Nat) : (s.raiseDom p b d).units = s.units := (raiseDom_frame s p b d).kept .units (by decide)
@[simp] theorem raiseDom_recipe (s : State) (p b d : Nat) : (s.raiseDom p b d).recipe = s.recipe := (raiseDom_frame s p b d).kept .recipe (by decide)
@[simp] theorem raiseDom_pairs (s : State) (p b d : Nat) : (s.raiseDom p b d).pairs = s.pairs := (raiseDom_frame s p b d).kept .pairs (by decide)
@[simp] theorem raiseDom_stretch (s : State) (p b d : Nat) : (s.raiseDom p b d).stretch = s.stretch := (raiseDom_frame s p b d).kept .stretch (by decide)
@[simp] theorem raiseDom_latches (s : State) (p b d : Nat) : (s.raiseDom p b d).latches = s.latches := (raiseDom_frame s p b d).kept .latches (by decide)
@[simp] theorem raiseDom_locked (s : State) (p b d : Nat) : (s.raiseDom p b d).locked = s.locked := (raiseDom_frame s p b d).kept .locked (by decide)
@[simp] theorem raiseDom_sels (s : State) (p b d : Nat) : (s.raiseDom p b d).sels = s.sels := (raiseDom_frame s p b d).kept .sels (by decide)
@[simp] theorem raiseDom_commons (s : State) (p b d : Nat) : (s.raiseDom p b d).commons = s.commons := (raiseDom_frame s p b d).kept .commons (by decide)
@[simp] theorem raiseDom_acc (s : State) (p b d : Nat) : (s.raiseDom p b d).acc = s.acc := (raiseDom_frame s p b d).kept .acc (by decide)
@[simp] theorem raiseDom_opbuf (s : State) (p b d : Nat) : (s.raiseDom p b d).opbuf = s.opbuf := (raiseDom_frame s p b d).kept .opbuf (by decide)
@[simp] theorem raiseDom_freeFrames (s : State) (p b d : Nat) : (s.raiseDom p b d).freeFrames = s.freeFrames := (raiseDom_frame s p b d).kept .freeFrames (by decide)
@[simp] theorem raiseDom_atLatch (s : State) (p b d : Nat) : (s.raiseDom p b d).atLatch = s.atLatch := (raiseDom_frame s p b d).kept .atLatch (by decide)
@[simp] theorem raiseDom_freeCtr (s : State) (p b d : Nat) : (s.raiseDom p b d).freeCtr = s.freeCtr := (raiseDom_frame s p b d).kept .freeCtr (by decide)
@[simp] theorem raiseDom_commonsPoison (s : State) (p b d : Nat) : (s.raiseDom p b d).commonsPoison = s.commonsPoison :=
  ((raiseDom_frame s p b d).kept .commonsPoison (by decide)).1
@[simp] theorem raiseDom_slot (s : State) (p b d : Nat) (e : Nat) : (s.raiseDom p b d).slot e = s.slot e := by
  unfold State.slot; rw [raiseDom_slots]
@[simp] theorem raiseDom_mbd (s : State) (p b d : Nat) (e : Nat) : (s.raiseDom p b d).mbd e = s.mbd e := by
  unfold State.mbd; rw [raiseDom_mbds]
@[simp] theorem raiseDom_port (s : State) (p b d : Nat) (e : Nat) : (s.raiseDom p b d).port e = s.port e := by
  unfold State.port; rw [raiseDom_fab]
@[simp] theorem raiseDom_unit (s : State) (p b d : Nat) (e : Nat) : (s.raiseDom p b d).unit e = s.unit e := by
  unfold State.unit; rw [raiseDom_units]
@[simp] theorem raiseDom_pair (s : State) (p b d : Nat) (e g : Nat) : (s.raiseDom p b d).pair e g = s.pair e g := by
  unfold State.pair; rw [raiseDom_pairs]
@[simp] theorem raiseDom_copy (s : State) (p b d : Nat) (e : Nat) : (s.raiseDom p b d).copy e = s.copy e := by
  unfold State.copy; rw [raiseDom_bas]
theorem raiseDom_pci (s : State) (p b d : Nat) : { (s.raiseDom p b d).pci with pendingBits := [] } = { s.pci with pendingBits := [] } :=
  (raiseDom_frame s p b d).kept .pci (by decide)
@[simp] theorem raiseDom_pci_speed (s : State) (p b d : Nat) : (s.raiseDom p b d).pci.speed = s.pci.speed := (congrArg PciState.speed (raiseDom_pci s p b d) :)
@[simp] theorem raiseDom_pci_width (s : State) (p b d : Nat) : (s.raiseDom p b d).pci.width = s.pci.width := (congrArg PciState.width (raiseDom_pci s p b d) :)
@[simp] theorem raiseDom_pci_dlUp (s : State) (p b d : Nat) : (s.raiseDom p b d).pci.dlUp = s.pci.dlUp := (congrArg PciState.dlUp (raiseDom_pci s p b d) :)
@[simp] theorem raiseDom_pci_vfEnable (s : State) (p b d : Nat) : (s.raiseDom p b d).pci.vfEnable = s.pci.vfEnable := (congrArg PciState.vfEnable (raiseDom_pci s p b d) :)
@[simp] theorem raiseDom_pci_numVfs (s : State) (p b d : Nat) : (s.raiseDom p b d).pci.numVfs = s.pci.numVfs := (congrArg PciState.numVfs (raiseDom_pci s p b d) :)
@[simp] theorem raiseDom_pci_flr (s : State) (p b d : Nat) : (s.raiseDom p b d).pci.flr = s.pci.flr := (congrArg PciState.flr (raiseDom_pci s p b d) :)
@[simp] theorem raiseDom_pci_errKind (s : State) (p b d : Nat) : (s.raiseDom p b d).pci.errKind = s.pci.errKind := (congrArg PciState.errKind (raiseDom_pci s p b d) :)
@[simp] theorem raiseDom_pci_errFn (s : State) (p b d : Nat) : (s.raiseDom p b d).pci.errFn = s.pci.errFn := (congrArg PciState.errFn (raiseDom_pci s p b d) :)
@[simp] theorem raiseDom_pci_errValid (s : State) (p b d : Nat) : (s.raiseDom p b d).pci.errValid = s.pci.errValid := (congrArg PciState.errValid (raiseDom_pci s p b d) :)
@[simp] theorem raiseDom_pci_d3hot (s : State) (p b d : Nat) : (s.raiseDom p b d).pci.d3hot = s.pci.d3hot := (congrArg PciState.d3hot (raiseDom_pci s p b d) :)
@[simp] theorem raiseDom_pci_unmasked (s : State) (p b d : Nat) : (s.raiseDom p b d).pci.unmasked = s.pci.unmasked := (congrArg PciState.unmasked (raiseDom_pci s p b d) :)
@[simp] theorem raiseDom_pci_msixTable (s : State) (p b d : Nat) : (s.raiseDom p b d).pci.msixTable = s.pci.msixTable := (congrArg PciState.msixTable (raiseDom_pci s p b d) :)
@[simp] theorem raiseDom_pci_creditMsg (s : State) (p b d : Nat) : (s.raiseDom p b d).pci.creditMsg = s.pci.creditMsg := (congrArg PciState.creditMsg (raiseDom_pci s p b d) :)
@[simp] theorem raiseDom_pci_trainedOnce (s : State) (p b d : Nat) : (s.raiseDom p b d).pci.trainedOnce = s.pci.trainedOnce := (congrArg PciState.trainedOnce (raiseDom_pci s p b d) :)
@[simp] theorem raiseDom_dom_phase (s : State) (p b d : Nat) (e : Nat) : ((s.raiseDom p b d).dom e).phase = (s.dom e).phase :=
  ((raiseDom_frame s p b d).kept .domLife (by decide) e).1
@[simp] theorem raiseDom_dom_held (s : State) (p b d : Nat) (e : Nat) : ((s.raiseDom p b d).dom e).held = (s.dom e).held :=
  ((raiseDom_frame s p b d).kept .domLife (by decide) e).2.1
@[simp] theorem raiseDom_dom_created (s : State) (p b d : Nat) (e : Nat) : ((s.raiseDom p b d).dom e).created = (s.dom e).created :=
  ((raiseDom_frame s p b d).kept .domLife (by decide) e).2.2.1
@[simp] theorem raiseDom_dom_activeAt (s : State) (p b d : Nat) (e : Nat) : ((s.raiseDom p b d).dom e).activeAt = (s.dom e).activeAt :=
  ((raiseDom_frame s p b d).kept .domLife (by decide) e).2.2.2.1
@[simp] theorem raiseDom_dom_doneDue (s : State) (p b d : Nat) (e : Nat) : ((s.raiseDom p b d).dom e).doneDue = (s.dom e).doneDue :=
  ((raiseDom_frame s p b d).kept .domLife (by decide) e).2.2.2.2.1
@[simp] theorem raiseDom_dom_teardownAt (s : State) (p b d : Nat) (e : Nat) : ((s.raiseDom p b d).dom e).teardownAt = (s.dom e).teardownAt :=
  ((raiseDom_frame s p b d).kept .domLife (by decide) e).2.2.2.2.2.1
@[simp] theorem raiseDom_dom_requests (s : State) (p b d : Nat) (e : Nat) : ((s.raiseDom p b d).dom e).requests = (s.dom e).requests :=
  ((raiseDom_frame s p b d).kept .domLife (by decide) e).2.2.2.2.2.2.1
@[simp] theorem raiseDom_dom_leaving (s : State) (p b d : Nat) (e : Nat) : ((s.raiseDom p b d).dom e).leaving = (s.dom e).leaving :=
  ((raiseDom_frame s p b d).kept .domLife (by decide) e).2.2.2.2.2.2.2.1
@[simp] theorem raiseDom_dom_scrubEnded (s : State) (p b d : Nat) (e : Nat) : ((s.raiseDom p b d).dom e).scrubEnded = (s.dom e).scrubEnded :=
  ((raiseDom_frame s p b d).kept .domLife (by decide) e).2.2.2.2.2.2.2.2.1
@[simp] theorem raiseDom_dom_scrubStartNs (s : State) (p b d : Nat) (e : Nat) : ((s.raiseDom p b d).dom e).scrubStartNs = (s.dom e).scrubStartNs :=
  ((raiseDom_frame s p b d).kept .domLife (by decide) e).2.2.2.2.2.2.2.2.2
@[simp] theorem raiseDom_dom_rec_ (s : State) (p b d : Nat) (e : Nat) : ((s.raiseDom p b d).dom e).rec_ = (s.dom e).rec_ :=
  ((raiseDom_frame s p b d).kept .domRecord (by decide) e).1
@[simp] theorem raiseDom_dom_ovh (s : State) (p b d : Nat) (e : Nat) : ((s.raiseDom p b d).dom e).ovh = (s.dom e).ovh :=
  ((raiseDom_frame s p b d).kept .domRecord (by decide) e).2.1
@[simp] theorem raiseDom_dom_loan (s : State) (p b d : Nat) (e : Nat) : ((s.raiseDom p b d).dom e).loan = (s.dom e).loan :=
  ((raiseDom_frame s p b d).kept .domRecord (by decide) e).2.2
@[simp] theorem raiseDom_dom_preempted (s : State) (p b d : Nat) (e : Nat) : ((s.raiseDom p b d).dom e).preempted = (s.dom e).preempted :=
  ((raiseDom_frame s p b d).kept .domPreempt (by decide) e).1
@[simp] theorem raiseDom_dom_saving (s : State) (p b d : Nat) (e : Nat) : ((s.raiseDom p b d).dom e).saving = (s.dom e).saving :=
  ((raiseDom_frame s p b d).kept .domPreempt (by decide) e).2.1
@[simp] theorem raiseDom_dom_restoring (s : State) (p b d : Nat) (e : Nat) : ((s.raiseDom p b d).dom e).restoring = (s.dom e).restoring :=
  ((raiseDom_frame s p b d).kept .domPreempt (by decide) e).2.2.1
@[simp] theorem raiseDom_dom_saveCommons (s : State) (p b d : Nat) (e : Nat) : ((s.raiseDom p b d).dom e).saveCommons = (s.dom e).saveCommons :=
  ((raiseDom_frame s p b d).kept .domPreempt (by decide) e).2.2.2.1
@[simp] theorem raiseDom_dom_preemptAt (s : State) (p b d : Nat) (e : Nat) : ((s.raiseDom p b d).dom e).preemptAt = (s.dom e).preemptAt :=
  ((raiseDom_frame s p b d).kept .domPreempt (by decide) e).2.2.2.2.1
@[simp] theorem raiseDom_dom_resumeAt (s : State) (p b d : Nat) (e : Nat) : ((s.raiseDom p b d).dom e).resumeAt = (s.dom e).resumeAt :=
  ((raiseDom_frame s p b d).kept .domPreempt (by decide) e).2.2.2.2.2.1
@[simp] theorem raiseDom_dom_savedAcc (s : State) (p b d : Nat) (e : Nat) : ((s.raiseDom p b d).dom e).savedAcc = (s.dom e).savedAcc :=
  ((raiseDom_frame s p b d).kept .domPreempt (by decide) e).2.2.2.2.2.2.1
@[simp] theorem raiseDom_dom_savedOpbuf (s : State) (p b d : Nat) (e : Nat) : ((s.raiseDom p b d).dom e).savedOpbuf = (s.dom e).savedOpbuf :=
  ((raiseDom_frame s p b d).kept .domPreempt (by decide) e).2.2.2.2.2.2.2.1
@[simp] theorem raiseDom_dom_savedCommons (s : State) (p b d : Nat) (e : Nat) : ((s.raiseDom p b d).dom e).savedCommons = (s.dom e).savedCommons :=
  ((raiseDom_frame s p b d).kept .domPreempt (by decide) e).2.2.2.2.2.2.2.2
@[simp] theorem raiseDom_dom_queue (s : State) (p b d : Nat) (e : Nat) : ((s.raiseDom p b d).dom e).queue = (s.dom e).queue :=
  ((raiseDom_frame s p b d).kept .domQueue (by decide) e)
@[simp] theorem raiseDom_dom_nextOrder (s : State) (p b d : Nat) (e : Nat) : ((s.raiseDom p b d).dom e).nextOrder = (s.dom e).nextOrder :=
  ((raiseDom_frame s p b d).kept .domSlabs (by decide) e).1
@[simp] theorem raiseDom_dom_slabs (s : State) (p b d : Nat) (e : Nat) : ((s.raiseDom p b d).dom e).slabs = (s.dom e).slabs :=
  ((raiseDom_frame s p b d).kept .domSlabs (by decide) e).2.1
@[simp] theorem raiseDom_dom_devSlabs (s : State) (p b d : Nat) (e : Nat) : ((s.raiseDom p b d).dom e).devSlabs = (s.dom e).devSlabs :=
  ((raiseDom_frame s p b d).kept .domSlabs (by decide) e).2.2.1
@[simp] theorem raiseDom_dom_devNext (s : State) (p b d : Nat) (e : Nat) : ((s.raiseDom p b d).dom e).devNext = (s.dom e).devNext :=
  ((raiseDom_frame s p b d).kept .domSlabs (by decide) e).2.2.2.1
@[simp] theorem raiseDom_dom_batches (s : State) (p b d : Nat) (e : Nat) : ((s.raiseDom p b d).dom e).batches = (s.dom e).batches :=
  ((raiseDom_frame s p b d).kept .domSlabs (by decide) e).2.2.2.2.1
@[simp] theorem raiseDom_dom_lastOperand (s : State) (p b d : Nat) (e : Nat) : ((s.raiseDom p b d).dom e).lastOperand = (s.dom e).lastOperand :=
  ((raiseDom_frame s p b d).kept .domSlabs (by decide) e).2.2.2.2.2
@[simp] theorem raiseDom_dom_quota0 (s : State) (p b d : Nat) (e : Nat) : ((s.raiseDom p b d).dom e).quota0 = (s.dom e).quota0 :=
  ((raiseDom_frame s p b d).kept .domSched (by decide) e).1
@[simp] theorem raiseDom_dom_weight (s : State) (p b d : Nat) (e : Nat) : ((s.raiseDom p b d).dom e).weight = (s.dom e).weight :=
  ((raiseDom_frame s p b d).kept .domSched (by decide) e).2.1
@[simp] theorem raiseDom_dom_slots (s : State) (p b d : Nat) (e : Nat) : ((s.raiseDom p b d).dom e).slots = (s.dom e).slots :=
  ((raiseDom_frame s p b d).kept .domSched (by decide) e).2.2.1
@[simp] theorem raiseDom_dom_rtUj (s : State) (p b d : Nat) (e : Nat) : ((s.raiseDom p b d).dom e).rtUj = (s.dom e).rtUj :=
  ((raiseDom_frame s p b d).kept .domSched (by decide) e).2.2.2.1
@[simp] theorem raiseDom_dom_rtFirst (s : State) (p b d : Nat) (e : Nat) : ((s.raiseDom p b d).dom e).rtFirst = (s.dom e).rtFirst :=
  ((raiseDom_frame s p b d).kept .domSched (by decide) e).2.2.2.2.1
@[simp] theorem raiseDom_dom_rtUnits (s : State) (p b d : Nat) (e : Nat) : ((s.raiseDom p b d).dom e).rtUnits = (s.dom e).rtUnits :=
  ((raiseDom_frame s p b d).kept .domSched (by decide) e).2.2.2.2.2.1
@[simp] theorem raiseDom_dom_allow (s : State) (p b d : Nat) (e : Nat) : ((s.raiseDom p b d).dom e).allow = (s.dom e).allow :=
  ((raiseDom_frame s p b d).kept .domSched (by decide) e).2.2.2.2.2.2.1
@[simp] theorem raiseDom_dom_lagNs (s : State) (p b d : Nat) (e : Nat) : ((s.raiseDom p b d).dom e).lagNs = (s.dom e).lagNs :=
  ((raiseDom_frame s p b d).kept .domSched (by decide) e).2.2.2.2.2.2.2.1
@[simp] theorem raiseDom_dom_lagNext (s : State) (p b d : Nat) (e : Nat) : ((s.raiseDom p b d).dom e).lagNext = (s.dom e).lagNext :=
  ((raiseDom_frame s p b d).kept .domSched (by decide) e).2.2.2.2.2.2.2.2.1
@[simp] theorem raiseDom_dom_rate (s : State) (p b d : Nat) (e : Nat) : ((s.raiseDom p b d).dom e).rate = (s.dom e).rate :=
  ((raiseDom_frame s p b d).kept .domSched (by decide) e).2.2.2.2.2.2.2.2.2.1
@[simp] theorem raiseDom_dom_rateT (s : State) (p b d : Nat) (e : Nat) : ((s.raiseDom p b d).dom e).rateT = (s.dom e).rateT :=
  ((raiseDom_frame s p b d).kept .domSched (by decide) e).2.2.2.2.2.2.2.2.2.2.1
@[simp] theorem raiseDom_dom_energyFrac (s : State) (p b d : Nat) (e : Nat) : ((s.raiseDom p b d).dom e).energyFrac = (s.dom e).energyFrac :=
  ((raiseDom_frame s p b d).kept .domSched (by decide) e).2.2.2.2.2.2.2.2.2.2.2
@[simp] theorem raiseDom_dom_vec (s : State) (p b d : Nat) (e : Nat) : ((s.raiseDom p b d).dom e).vec = (s.dom e).vec :=
  ((raiseDom_frame s p b d).kept .domVec (by decide) e)
@[simp] theorem raiseDom_dom_var_ (s : State) (p b d : Nat) (e : Nat) : ((s.raiseDom p b d).dom e).var_ = (s.dom e).var_ :=
  ((raiseDom_frame s p b d).kept .domVar (by decide) e)
@[simp] theorem raiseDom_dom_upd (s : State) (p b d : Nat) (e : Nat) : ((s.raiseDom p b d).dom e).upd = (s.dom e).upd :=
  ((raiseDom_frame s p b d).kept .domUpd (by decide) e)
@[simp] theorem raiseDom_dom_kvp (s : State) (p b d : Nat) (e : Nat) : ((s.raiseDom p b d).dom e).kvp = (s.dom e).kvp :=
  ((raiseDom_frame s p b d).kept .domKvp (by decide) e)
@[simp] theorem raiseDom_dom_tir (s : State) (p b d : Nat) (e : Nat) : ((s.raiseDom p b d).dom e).tir = (s.dom e).tir :=
  ((raiseDom_frame s p b d).kept .domTir (by decide) e)
@[simp] theorem raiseDom_dom_col (s : State) (p b d : Nat) (e : Nat) : ((s.raiseDom p b d).dom e).col = (s.dom e).col :=
  ((raiseDom_frame s p b d).kept .domCol (by decide) e)
@[simp] theorem raiseDom_dom_keys (s : State) (p b d : Nat) (e : Nat) : ((s.raiseDom p b d).dom e).keys = (s.dom e).keys :=
  ((raiseDom_frame s p b d).kept .domKeys (by decide) e)
@[simp] theorem raiseDom_dom_poison (s : State) (p b d : Nat) (e : Nat) : ((s.raiseDom p b d).dom e).poison = (s.dom e).poison :=
  ((raiseDom_frame s p b d).kept .domPoison (by decide) e)

/-! ### raiseCopy -/

theorem raiseCopy_frame (s : State) (p b c : Nat) : Frame evParts s (s.raiseCopy p b c) := fr_raiseCopy (fr_refl _ s) p b c (fun _ h => h)
@[simp] theorem raiseCopy_pending (s : State) (p b c : Nat) : (s.raiseCopy p b c).pending = s.pending := (raiseCopy_frame s p b c).pending
@[simp] theorem raiseCopy_boot (s : State) (p b c : Nat) : (s.raiseCopy p b c).boot = s.boot := (raiseCopy_frame s p b c).kept .boot (by decide)
@[simp] theorem raiseCopy_fuses (s : State) (p b c : Nat) : (s.raiseCopy p b c).fuses = s.fuses := (raiseCopy_frame s p b c).kept .fuses (by decide)
@[simp] theorem raiseCopy_tik (s : State) (p b c : Nat) : (s.raiseCopy p b c).tik = s.tik := (raiseCopy_frame s p b c).kept .tik (by decide)
@[simp] theorem raiseCopy_pwr (s : State) (p b c : Nat) : (s.raiseCopy p b c).pwr = s.pwr := (raiseCopy_frame s p b c).kept .pwr (by decide)
@[simp] theorem raiseCopy_bdg (s : State) (p b c : Nat) : (s.raiseCopy p b c).bdg = s.bdg := (raiseCopy_frame s p b c).kept .bdg (by decide)
@[simp] theorem raiseCopy_memg (s : State) (p b c : Nat) : (s.raiseCopy p b c).memg = s.memg := (raiseCopy_frame s p b c).kept .memg (by decide)
@[simp] theorem raiseCopy_nvm (s : State) (p b c : Nat) : (s.raiseCopy p b c).nvm = s.nvm := (raiseCopy_frame s p b c).kept .nvm (by decide)
@[simp] theorem raiseCopy_bas (s : State) (p b c : Nat) : (s.raiseCopy p b c).bas = s.bas := (raiseCopy_frame s p b c).kept .bas (by decide)
@[simp] theorem raiseCopy_fab (s : State) (p b c : Nat) : (s.raiseCopy p b c).fab = s.fab := (raiseCopy_frame s p b c).kept .fab (by decide)
@[simp] theorem raiseCopy_lks (s : State) (p b c : Nat) : (s.raiseCopy p b c).lks = s.lks := (raiseCopy_frame s p b c).kept .lks (by decide)
@[simp] theorem raiseCopy_ful (s : State) (p b c : Nat) : (s.raiseCopy p b c).ful = s.ful := (raiseCopy_frame s p b c).kept .ful (by decide)
@[simp] theorem raiseCopy_slots (s : State) (p b c : Nat) : (s.raiseCopy p b c).slots = s.slots := (raiseCopy_frame s p b c).kept .slots (by decide)
@[simp] theorem raiseCopy_mbds (s : State) (p b c : Nat) : (s.raiseCopy p b c).mbds = s.mbds := (raiseCopy_frame s p b c).kept .mbds (by decide)
@[simp] theorem raiseCopy_units (s : State) (p b c : Nat) : (s.raiseCopy p b c).units = s.units := (raiseCopy_frame s p b c).kept .units (by decide)
@[simp] theorem raiseCopy_recipe (s : State) (p b c : Nat) : (s.raiseCopy p b c).recipe = s.recipe := (raiseCopy_frame s p b c).kept .recipe (by decide)
@[simp] theorem raiseCopy_pairs (s : State) (p b c : Nat) : (s.raiseCopy p b c).pairs = s.pairs := (raiseCopy_frame s p b c).kept .pairs (by decide)
@[simp] theorem raiseCopy_stretch (s : State) (p b c : Nat) : (s.raiseCopy p b c).stretch = s.stretch := (raiseCopy_frame s p b c).kept .stretch (by decide)
@[simp] theorem raiseCopy_latches (s : State) (p b c : Nat) : (s.raiseCopy p b c).latches = s.latches := (raiseCopy_frame s p b c).kept .latches (by decide)
@[simp] theorem raiseCopy_locked (s : State) (p b c : Nat) : (s.raiseCopy p b c).locked = s.locked := (raiseCopy_frame s p b c).kept .locked (by decide)
@[simp] theorem raiseCopy_sels (s : State) (p b c : Nat) : (s.raiseCopy p b c).sels = s.sels := (raiseCopy_frame s p b c).kept .sels (by decide)
@[simp] theorem raiseCopy_commons (s : State) (p b c : Nat) : (s.raiseCopy p b c).commons = s.commons := (raiseCopy_frame s p b c).kept .commons (by decide)
@[simp] theorem raiseCopy_acc (s : State) (p b c : Nat) : (s.raiseCopy p b c).acc = s.acc := (raiseCopy_frame s p b c).kept .acc (by decide)
@[simp] theorem raiseCopy_opbuf (s : State) (p b c : Nat) : (s.raiseCopy p b c).opbuf = s.opbuf := (raiseCopy_frame s p b c).kept .opbuf (by decide)
@[simp] theorem raiseCopy_freeFrames (s : State) (p b c : Nat) : (s.raiseCopy p b c).freeFrames = s.freeFrames := (raiseCopy_frame s p b c).kept .freeFrames (by decide)
@[simp] theorem raiseCopy_atLatch (s : State) (p b c : Nat) : (s.raiseCopy p b c).atLatch = s.atLatch := (raiseCopy_frame s p b c).kept .atLatch (by decide)
@[simp] theorem raiseCopy_freeCtr (s : State) (p b c : Nat) : (s.raiseCopy p b c).freeCtr = s.freeCtr := (raiseCopy_frame s p b c).kept .freeCtr (by decide)
@[simp] theorem raiseCopy_commonsPoison (s : State) (p b c : Nat) : (s.raiseCopy p b c).commonsPoison = s.commonsPoison :=
  ((raiseCopy_frame s p b c).kept .commonsPoison (by decide)).1
@[simp] theorem raiseCopy_slot (s : State) (p b c : Nat) (e : Nat) : (s.raiseCopy p b c).slot e = s.slot e := by
  unfold State.slot; rw [raiseCopy_slots]
@[simp] theorem raiseCopy_mbd (s : State) (p b c : Nat) (e : Nat) : (s.raiseCopy p b c).mbd e = s.mbd e := by
  unfold State.mbd; rw [raiseCopy_mbds]
@[simp] theorem raiseCopy_port (s : State) (p b c : Nat) (e : Nat) : (s.raiseCopy p b c).port e = s.port e := by
  unfold State.port; rw [raiseCopy_fab]
@[simp] theorem raiseCopy_unit (s : State) (p b c : Nat) (e : Nat) : (s.raiseCopy p b c).unit e = s.unit e := by
  unfold State.unit; rw [raiseCopy_units]
@[simp] theorem raiseCopy_pair (s : State) (p b c : Nat) (e g : Nat) : (s.raiseCopy p b c).pair e g = s.pair e g := by
  unfold State.pair; rw [raiseCopy_pairs]
@[simp] theorem raiseCopy_copy (s : State) (p b c : Nat) (e : Nat) : (s.raiseCopy p b c).copy e = s.copy e := by
  unfold State.copy; rw [raiseCopy_bas]
theorem raiseCopy_pci (s : State) (p b c : Nat) : { (s.raiseCopy p b c).pci with pendingBits := [] } = { s.pci with pendingBits := [] } :=
  (raiseCopy_frame s p b c).kept .pci (by decide)
@[simp] theorem raiseCopy_pci_speed (s : State) (p b c : Nat) : (s.raiseCopy p b c).pci.speed = s.pci.speed := (congrArg PciState.speed (raiseCopy_pci s p b c) :)
@[simp] theorem raiseCopy_pci_width (s : State) (p b c : Nat) : (s.raiseCopy p b c).pci.width = s.pci.width := (congrArg PciState.width (raiseCopy_pci s p b c) :)
@[simp] theorem raiseCopy_pci_dlUp (s : State) (p b c : Nat) : (s.raiseCopy p b c).pci.dlUp = s.pci.dlUp := (congrArg PciState.dlUp (raiseCopy_pci s p b c) :)
@[simp] theorem raiseCopy_pci_vfEnable (s : State) (p b c : Nat) : (s.raiseCopy p b c).pci.vfEnable = s.pci.vfEnable := (congrArg PciState.vfEnable (raiseCopy_pci s p b c) :)
@[simp] theorem raiseCopy_pci_numVfs (s : State) (p b c : Nat) : (s.raiseCopy p b c).pci.numVfs = s.pci.numVfs := (congrArg PciState.numVfs (raiseCopy_pci s p b c) :)
@[simp] theorem raiseCopy_pci_flr (s : State) (p b c : Nat) : (s.raiseCopy p b c).pci.flr = s.pci.flr := (congrArg PciState.flr (raiseCopy_pci s p b c) :)
@[simp] theorem raiseCopy_pci_errKind (s : State) (p b c : Nat) : (s.raiseCopy p b c).pci.errKind = s.pci.errKind := (congrArg PciState.errKind (raiseCopy_pci s p b c) :)
@[simp] theorem raiseCopy_pci_errFn (s : State) (p b c : Nat) : (s.raiseCopy p b c).pci.errFn = s.pci.errFn := (congrArg PciState.errFn (raiseCopy_pci s p b c) :)
@[simp] theorem raiseCopy_pci_errValid (s : State) (p b c : Nat) : (s.raiseCopy p b c).pci.errValid = s.pci.errValid := (congrArg PciState.errValid (raiseCopy_pci s p b c) :)
@[simp] theorem raiseCopy_pci_d3hot (s : State) (p b c : Nat) : (s.raiseCopy p b c).pci.d3hot = s.pci.d3hot := (congrArg PciState.d3hot (raiseCopy_pci s p b c) :)
@[simp] theorem raiseCopy_pci_unmasked (s : State) (p b c : Nat) : (s.raiseCopy p b c).pci.unmasked = s.pci.unmasked := (congrArg PciState.unmasked (raiseCopy_pci s p b c) :)
@[simp] theorem raiseCopy_pci_msixTable (s : State) (p b c : Nat) : (s.raiseCopy p b c).pci.msixTable = s.pci.msixTable := (congrArg PciState.msixTable (raiseCopy_pci s p b c) :)
@[simp] theorem raiseCopy_pci_creditMsg (s : State) (p b c : Nat) : (s.raiseCopy p b c).pci.creditMsg = s.pci.creditMsg := (congrArg PciState.creditMsg (raiseCopy_pci s p b c) :)
@[simp] theorem raiseCopy_pci_trainedOnce (s : State) (p b c : Nat) : (s.raiseCopy p b c).pci.trainedOnce = s.pci.trainedOnce := (congrArg PciState.trainedOnce (raiseCopy_pci s p b c) :)
@[simp] theorem raiseCopy_dom_phase (s : State) (p b c : Nat) (e : Nat) : ((s.raiseCopy p b c).dom e).phase = (s.dom e).phase :=
  ((raiseCopy_frame s p b c).kept .domLife (by decide) e).1
@[simp] theorem raiseCopy_dom_held (s : State) (p b c : Nat) (e : Nat) : ((s.raiseCopy p b c).dom e).held = (s.dom e).held :=
  ((raiseCopy_frame s p b c).kept .domLife (by decide) e).2.1
@[simp] theorem raiseCopy_dom_created (s : State) (p b c : Nat) (e : Nat) : ((s.raiseCopy p b c).dom e).created = (s.dom e).created :=
  ((raiseCopy_frame s p b c).kept .domLife (by decide) e).2.2.1
@[simp] theorem raiseCopy_dom_activeAt (s : State) (p b c : Nat) (e : Nat) : ((s.raiseCopy p b c).dom e).activeAt = (s.dom e).activeAt :=
  ((raiseCopy_frame s p b c).kept .domLife (by decide) e).2.2.2.1
@[simp] theorem raiseCopy_dom_doneDue (s : State) (p b c : Nat) (e : Nat) : ((s.raiseCopy p b c).dom e).doneDue = (s.dom e).doneDue :=
  ((raiseCopy_frame s p b c).kept .domLife (by decide) e).2.2.2.2.1
@[simp] theorem raiseCopy_dom_teardownAt (s : State) (p b c : Nat) (e : Nat) : ((s.raiseCopy p b c).dom e).teardownAt = (s.dom e).teardownAt :=
  ((raiseCopy_frame s p b c).kept .domLife (by decide) e).2.2.2.2.2.1
@[simp] theorem raiseCopy_dom_requests (s : State) (p b c : Nat) (e : Nat) : ((s.raiseCopy p b c).dom e).requests = (s.dom e).requests :=
  ((raiseCopy_frame s p b c).kept .domLife (by decide) e).2.2.2.2.2.2.1
@[simp] theorem raiseCopy_dom_leaving (s : State) (p b c : Nat) (e : Nat) : ((s.raiseCopy p b c).dom e).leaving = (s.dom e).leaving :=
  ((raiseCopy_frame s p b c).kept .domLife (by decide) e).2.2.2.2.2.2.2.1
@[simp] theorem raiseCopy_dom_scrubEnded (s : State) (p b c : Nat) (e : Nat) : ((s.raiseCopy p b c).dom e).scrubEnded = (s.dom e).scrubEnded :=
  ((raiseCopy_frame s p b c).kept .domLife (by decide) e).2.2.2.2.2.2.2.2.1
@[simp] theorem raiseCopy_dom_scrubStartNs (s : State) (p b c : Nat) (e : Nat) : ((s.raiseCopy p b c).dom e).scrubStartNs = (s.dom e).scrubStartNs :=
  ((raiseCopy_frame s p b c).kept .domLife (by decide) e).2.2.2.2.2.2.2.2.2
@[simp] theorem raiseCopy_dom_rec_ (s : State) (p b c : Nat) (e : Nat) : ((s.raiseCopy p b c).dom e).rec_ = (s.dom e).rec_ :=
  ((raiseCopy_frame s p b c).kept .domRecord (by decide) e).1
@[simp] theorem raiseCopy_dom_ovh (s : State) (p b c : Nat) (e : Nat) : ((s.raiseCopy p b c).dom e).ovh = (s.dom e).ovh :=
  ((raiseCopy_frame s p b c).kept .domRecord (by decide) e).2.1
@[simp] theorem raiseCopy_dom_loan (s : State) (p b c : Nat) (e : Nat) : ((s.raiseCopy p b c).dom e).loan = (s.dom e).loan :=
  ((raiseCopy_frame s p b c).kept .domRecord (by decide) e).2.2
@[simp] theorem raiseCopy_dom_preempted (s : State) (p b c : Nat) (e : Nat) : ((s.raiseCopy p b c).dom e).preempted = (s.dom e).preempted :=
  ((raiseCopy_frame s p b c).kept .domPreempt (by decide) e).1
@[simp] theorem raiseCopy_dom_saving (s : State) (p b c : Nat) (e : Nat) : ((s.raiseCopy p b c).dom e).saving = (s.dom e).saving :=
  ((raiseCopy_frame s p b c).kept .domPreempt (by decide) e).2.1
@[simp] theorem raiseCopy_dom_restoring (s : State) (p b c : Nat) (e : Nat) : ((s.raiseCopy p b c).dom e).restoring = (s.dom e).restoring :=
  ((raiseCopy_frame s p b c).kept .domPreempt (by decide) e).2.2.1
@[simp] theorem raiseCopy_dom_saveCommons (s : State) (p b c : Nat) (e : Nat) : ((s.raiseCopy p b c).dom e).saveCommons = (s.dom e).saveCommons :=
  ((raiseCopy_frame s p b c).kept .domPreempt (by decide) e).2.2.2.1
@[simp] theorem raiseCopy_dom_preemptAt (s : State) (p b c : Nat) (e : Nat) : ((s.raiseCopy p b c).dom e).preemptAt = (s.dom e).preemptAt :=
  ((raiseCopy_frame s p b c).kept .domPreempt (by decide) e).2.2.2.2.1
@[simp] theorem raiseCopy_dom_resumeAt (s : State) (p b c : Nat) (e : Nat) : ((s.raiseCopy p b c).dom e).resumeAt = (s.dom e).resumeAt :=
  ((raiseCopy_frame s p b c).kept .domPreempt (by decide) e).2.2.2.2.2.1
@[simp] theorem raiseCopy_dom_savedAcc (s : State) (p b c : Nat) (e : Nat) : ((s.raiseCopy p b c).dom e).savedAcc = (s.dom e).savedAcc :=
  ((raiseCopy_frame s p b c).kept .domPreempt (by decide) e).2.2.2.2.2.2.1
@[simp] theorem raiseCopy_dom_savedOpbuf (s : State) (p b c : Nat) (e : Nat) : ((s.raiseCopy p b c).dom e).savedOpbuf = (s.dom e).savedOpbuf :=
  ((raiseCopy_frame s p b c).kept .domPreempt (by decide) e).2.2.2.2.2.2.2.1
@[simp] theorem raiseCopy_dom_savedCommons (s : State) (p b c : Nat) (e : Nat) : ((s.raiseCopy p b c).dom e).savedCommons = (s.dom e).savedCommons :=
  ((raiseCopy_frame s p b c).kept .domPreempt (by decide) e).2.2.2.2.2.2.2.2
@[simp] theorem raiseCopy_dom_queue (s : State) (p b c : Nat) (e : Nat) : ((s.raiseCopy p b c).dom e).queue = (s.dom e).queue :=
  ((raiseCopy_frame s p b c).kept .domQueue (by decide) e)
@[simp] theorem raiseCopy_dom_nextOrder (s : State) (p b c : Nat) (e : Nat) : ((s.raiseCopy p b c).dom e).nextOrder = (s.dom e).nextOrder :=
  ((raiseCopy_frame s p b c).kept .domSlabs (by decide) e).1
@[simp] theorem raiseCopy_dom_slabs (s : State) (p b c : Nat) (e : Nat) : ((s.raiseCopy p b c).dom e).slabs = (s.dom e).slabs :=
  ((raiseCopy_frame s p b c).kept .domSlabs (by decide) e).2.1
@[simp] theorem raiseCopy_dom_devSlabs (s : State) (p b c : Nat) (e : Nat) : ((s.raiseCopy p b c).dom e).devSlabs = (s.dom e).devSlabs :=
  ((raiseCopy_frame s p b c).kept .domSlabs (by decide) e).2.2.1
@[simp] theorem raiseCopy_dom_devNext (s : State) (p b c : Nat) (e : Nat) : ((s.raiseCopy p b c).dom e).devNext = (s.dom e).devNext :=
  ((raiseCopy_frame s p b c).kept .domSlabs (by decide) e).2.2.2.1
@[simp] theorem raiseCopy_dom_batches (s : State) (p b c : Nat) (e : Nat) : ((s.raiseCopy p b c).dom e).batches = (s.dom e).batches :=
  ((raiseCopy_frame s p b c).kept .domSlabs (by decide) e).2.2.2.2.1
@[simp] theorem raiseCopy_dom_lastOperand (s : State) (p b c : Nat) (e : Nat) : ((s.raiseCopy p b c).dom e).lastOperand = (s.dom e).lastOperand :=
  ((raiseCopy_frame s p b c).kept .domSlabs (by decide) e).2.2.2.2.2
@[simp] theorem raiseCopy_dom_quota0 (s : State) (p b c : Nat) (e : Nat) : ((s.raiseCopy p b c).dom e).quota0 = (s.dom e).quota0 :=
  ((raiseCopy_frame s p b c).kept .domSched (by decide) e).1
@[simp] theorem raiseCopy_dom_weight (s : State) (p b c : Nat) (e : Nat) : ((s.raiseCopy p b c).dom e).weight = (s.dom e).weight :=
  ((raiseCopy_frame s p b c).kept .domSched (by decide) e).2.1
@[simp] theorem raiseCopy_dom_slots (s : State) (p b c : Nat) (e : Nat) : ((s.raiseCopy p b c).dom e).slots = (s.dom e).slots :=
  ((raiseCopy_frame s p b c).kept .domSched (by decide) e).2.2.1
@[simp] theorem raiseCopy_dom_rtUj (s : State) (p b c : Nat) (e : Nat) : ((s.raiseCopy p b c).dom e).rtUj = (s.dom e).rtUj :=
  ((raiseCopy_frame s p b c).kept .domSched (by decide) e).2.2.2.1
@[simp] theorem raiseCopy_dom_rtFirst (s : State) (p b c : Nat) (e : Nat) : ((s.raiseCopy p b c).dom e).rtFirst = (s.dom e).rtFirst :=
  ((raiseCopy_frame s p b c).kept .domSched (by decide) e).2.2.2.2.1
@[simp] theorem raiseCopy_dom_rtUnits (s : State) (p b c : Nat) (e : Nat) : ((s.raiseCopy p b c).dom e).rtUnits = (s.dom e).rtUnits :=
  ((raiseCopy_frame s p b c).kept .domSched (by decide) e).2.2.2.2.2.1
@[simp] theorem raiseCopy_dom_allow (s : State) (p b c : Nat) (e : Nat) : ((s.raiseCopy p b c).dom e).allow = (s.dom e).allow :=
  ((raiseCopy_frame s p b c).kept .domSched (by decide) e).2.2.2.2.2.2.1
@[simp] theorem raiseCopy_dom_lagNs (s : State) (p b c : Nat) (e : Nat) : ((s.raiseCopy p b c).dom e).lagNs = (s.dom e).lagNs :=
  ((raiseCopy_frame s p b c).kept .domSched (by decide) e).2.2.2.2.2.2.2.1
@[simp] theorem raiseCopy_dom_lagNext (s : State) (p b c : Nat) (e : Nat) : ((s.raiseCopy p b c).dom e).lagNext = (s.dom e).lagNext :=
  ((raiseCopy_frame s p b c).kept .domSched (by decide) e).2.2.2.2.2.2.2.2.1
@[simp] theorem raiseCopy_dom_rate (s : State) (p b c : Nat) (e : Nat) : ((s.raiseCopy p b c).dom e).rate = (s.dom e).rate :=
  ((raiseCopy_frame s p b c).kept .domSched (by decide) e).2.2.2.2.2.2.2.2.2.1
@[simp] theorem raiseCopy_dom_rateT (s : State) (p b c : Nat) (e : Nat) : ((s.raiseCopy p b c).dom e).rateT = (s.dom e).rateT :=
  ((raiseCopy_frame s p b c).kept .domSched (by decide) e).2.2.2.2.2.2.2.2.2.2.1
@[simp] theorem raiseCopy_dom_energyFrac (s : State) (p b c : Nat) (e : Nat) : ((s.raiseCopy p b c).dom e).energyFrac = (s.dom e).energyFrac :=
  ((raiseCopy_frame s p b c).kept .domSched (by decide) e).2.2.2.2.2.2.2.2.2.2.2
@[simp] theorem raiseCopy_dom_vec (s : State) (p b c : Nat) (e : Nat) : ((s.raiseCopy p b c).dom e).vec = (s.dom e).vec :=
  ((raiseCopy_frame s p b c).kept .domVec (by decide) e)
@[simp] theorem raiseCopy_dom_var_ (s : State) (p b c : Nat) (e : Nat) : ((s.raiseCopy p b c).dom e).var_ = (s.dom e).var_ :=
  ((raiseCopy_frame s p b c).kept .domVar (by decide) e)
@[simp] theorem raiseCopy_dom_upd (s : State) (p b c : Nat) (e : Nat) : ((s.raiseCopy p b c).dom e).upd = (s.dom e).upd :=
  ((raiseCopy_frame s p b c).kept .domUpd (by decide) e)
@[simp] theorem raiseCopy_dom_kvp (s : State) (p b c : Nat) (e : Nat) : ((s.raiseCopy p b c).dom e).kvp = (s.dom e).kvp :=
  ((raiseCopy_frame s p b c).kept .domKvp (by decide) e)
@[simp] theorem raiseCopy_dom_tir (s : State) (p b c : Nat) (e : Nat) : ((s.raiseCopy p b c).dom e).tir = (s.dom e).tir :=
  ((raiseCopy_frame s p b c).kept .domTir (by decide) e)
@[simp] theorem raiseCopy_dom_col (s : State) (p b c : Nat) (e : Nat) : ((s.raiseCopy p b c).dom e).col = (s.dom e).col :=
  ((raiseCopy_frame s p b c).kept .domCol (by decide) e)
@[simp] theorem raiseCopy_dom_keys (s : State) (p b c : Nat) (e : Nat) : ((s.raiseCopy p b c).dom e).keys = (s.dom e).keys :=
  ((raiseCopy_frame s p b c).kept .domKeys (by decide) e)
@[simp] theorem raiseCopy_dom_poison (s : State) (p b c : Nat) (e : Nat) : ((s.raiseCopy p b c).dom e).poison = (s.dom e).poison :=
  ((raiseCopy_frame s p b c).kept .domPoison (by decide) e)

/-! ### raiseUnit -/

theorem raiseUnit_frame (s : State) (u b : Nat) : Frame evParts s (s.raiseUnit u b) := fr_raiseUnit (fr_refl _ s) u b (fun _ h => h)
@[simp] theorem raiseUnit_pending (s : State) (u b : Nat) : (s.raiseUnit u b).pending = s.pending := (raiseUnit_frame s u b).pending
@[simp] theorem raiseUnit_boot (s : State) (u b : Nat) : (s.raiseUnit u b).boot = s.boot := (raiseUnit_frame s u b).kept .boot (by decide)
@[simp] theorem raiseUnit_fuses (s : State) (u b : Nat) : (s.raiseUnit u b).fuses = s.fuses := (raiseUnit_frame s u b).kept .fuses (by decide)
@[simp] theorem raiseUnit_tik (s : State) (u b : Nat) : (s.raiseUnit u b).tik = s.tik := (raiseUnit_frame s u b).kept .tik (by decide)
@[simp] theorem raiseUnit_pwr (s : State) (u b : Nat) : (s.raiseUnit u b).pwr = s.pwr := (raiseUnit_frame s u b).kept .pwr (by decide)
@[simp] theorem raiseUnit_bdg (s : State) (u b : Nat) : (s.raiseUnit u b).bdg = s.bdg := (raiseUnit_frame s u b).kept .bdg (by decide)
@[simp] theorem raiseUnit_memg (s : State) (u b : Nat) : (s.raiseUnit u b).memg = s.memg := (raiseUnit_frame s u b).kept .memg (by decide)
@[simp] theorem raiseUnit_nvm (s : State) (u b : Nat) : (s.raiseUnit u b).nvm = s.nvm := (raiseUnit_frame s u b).kept .nvm (by decide)
@[simp] theorem raiseUnit_bas (s : State) (u b : Nat) : (s.raiseUnit u b).bas = s.bas := (raiseUnit_frame s u b).kept .bas (by decide)
@[simp] theorem raiseUnit_fab (s : State) (u b : Nat) : (s.raiseUnit u b).fab = s.fab := (raiseUnit_frame s u b).kept .fab (by decide)
@[simp] theorem raiseUnit_lks (s : State) (u b : Nat) : (s.raiseUnit u b).lks = s.lks := (raiseUnit_frame s u b).kept .lks (by decide)
@[simp] theorem raiseUnit_ful (s : State) (u b : Nat) : (s.raiseUnit u b).ful = s.ful := (raiseUnit_frame s u b).kept .ful (by decide)
@[simp] theorem raiseUnit_slots (s : State) (u b : Nat) : (s.raiseUnit u b).slots = s.slots := (raiseUnit_frame s u b).kept .slots (by decide)
@[simp] theorem raiseUnit_mbds (s : State) (u b : Nat) : (s.raiseUnit u b).mbds = s.mbds := (raiseUnit_frame s u b).kept .mbds (by decide)
@[simp] theorem raiseUnit_units (s : State) (u b : Nat) : (s.raiseUnit u b).units = s.units := (raiseUnit_frame s u b).kept .units (by decide)
@[simp] theorem raiseUnit_recipe (s : State) (u b : Nat) : (s.raiseUnit u b).recipe = s.recipe := (raiseUnit_frame s u b).kept .recipe (by decide)
@[simp] theorem raiseUnit_pairs (s : State) (u b : Nat) : (s.raiseUnit u b).pairs = s.pairs := (raiseUnit_frame s u b).kept .pairs (by decide)
@[simp] theorem raiseUnit_stretch (s : State) (u b : Nat) : (s.raiseUnit u b).stretch = s.stretch := (raiseUnit_frame s u b).kept .stretch (by decide)
@[simp] theorem raiseUnit_latches (s : State) (u b : Nat) : (s.raiseUnit u b).latches = s.latches := (raiseUnit_frame s u b).kept .latches (by decide)
@[simp] theorem raiseUnit_locked (s : State) (u b : Nat) : (s.raiseUnit u b).locked = s.locked := (raiseUnit_frame s u b).kept .locked (by decide)
@[simp] theorem raiseUnit_sels (s : State) (u b : Nat) : (s.raiseUnit u b).sels = s.sels := (raiseUnit_frame s u b).kept .sels (by decide)
@[simp] theorem raiseUnit_commons (s : State) (u b : Nat) : (s.raiseUnit u b).commons = s.commons := (raiseUnit_frame s u b).kept .commons (by decide)
@[simp] theorem raiseUnit_acc (s : State) (u b : Nat) : (s.raiseUnit u b).acc = s.acc := (raiseUnit_frame s u b).kept .acc (by decide)
@[simp] theorem raiseUnit_opbuf (s : State) (u b : Nat) : (s.raiseUnit u b).opbuf = s.opbuf := (raiseUnit_frame s u b).kept .opbuf (by decide)
@[simp] theorem raiseUnit_freeFrames (s : State) (u b : Nat) : (s.raiseUnit u b).freeFrames = s.freeFrames := (raiseUnit_frame s u b).kept .freeFrames (by decide)
@[simp] theorem raiseUnit_atLatch (s : State) (u b : Nat) : (s.raiseUnit u b).atLatch = s.atLatch := (raiseUnit_frame s u b).kept .atLatch (by decide)
@[simp] theorem raiseUnit_freeCtr (s : State) (u b : Nat) : (s.raiseUnit u b).freeCtr = s.freeCtr := (raiseUnit_frame s u b).kept .freeCtr (by decide)
@[simp] theorem raiseUnit_commonsPoison (s : State) (u b : Nat) : (s.raiseUnit u b).commonsPoison = s.commonsPoison :=
  ((raiseUnit_frame s u b).kept .commonsPoison (by decide)).1
@[simp] theorem raiseUnit_slot (s : State) (u b : Nat) (e : Nat) : (s.raiseUnit u b).slot e = s.slot e := by
  unfold State.slot; rw [raiseUnit_slots]
@[simp] theorem raiseUnit_mbd (s : State) (u b : Nat) (e : Nat) : (s.raiseUnit u b).mbd e = s.mbd e := by
  unfold State.mbd; rw [raiseUnit_mbds]
@[simp] theorem raiseUnit_port (s : State) (u b : Nat) (e : Nat) : (s.raiseUnit u b).port e = s.port e := by
  unfold State.port; rw [raiseUnit_fab]
@[simp] theorem raiseUnit_unit (s : State) (u b : Nat) (e : Nat) : (s.raiseUnit u b).unit e = s.unit e := by
  unfold State.unit; rw [raiseUnit_units]
@[simp] theorem raiseUnit_pair (s : State) (u b : Nat) (e g : Nat) : (s.raiseUnit u b).pair e g = s.pair e g := by
  unfold State.pair; rw [raiseUnit_pairs]
@[simp] theorem raiseUnit_copy (s : State) (u b : Nat) (e : Nat) : (s.raiseUnit u b).copy e = s.copy e := by
  unfold State.copy; rw [raiseUnit_bas]
theorem raiseUnit_pci (s : State) (u b : Nat) : { (s.raiseUnit u b).pci with pendingBits := [] } = { s.pci with pendingBits := [] } :=
  (raiseUnit_frame s u b).kept .pci (by decide)
@[simp] theorem raiseUnit_pci_speed (s : State) (u b : Nat) : (s.raiseUnit u b).pci.speed = s.pci.speed := (congrArg PciState.speed (raiseUnit_pci s u b) :)
@[simp] theorem raiseUnit_pci_width (s : State) (u b : Nat) : (s.raiseUnit u b).pci.width = s.pci.width := (congrArg PciState.width (raiseUnit_pci s u b) :)
@[simp] theorem raiseUnit_pci_dlUp (s : State) (u b : Nat) : (s.raiseUnit u b).pci.dlUp = s.pci.dlUp := (congrArg PciState.dlUp (raiseUnit_pci s u b) :)
@[simp] theorem raiseUnit_pci_vfEnable (s : State) (u b : Nat) : (s.raiseUnit u b).pci.vfEnable = s.pci.vfEnable := (congrArg PciState.vfEnable (raiseUnit_pci s u b) :)
@[simp] theorem raiseUnit_pci_numVfs (s : State) (u b : Nat) : (s.raiseUnit u b).pci.numVfs = s.pci.numVfs := (congrArg PciState.numVfs (raiseUnit_pci s u b) :)
@[simp] theorem raiseUnit_pci_flr (s : State) (u b : Nat) : (s.raiseUnit u b).pci.flr = s.pci.flr := (congrArg PciState.flr (raiseUnit_pci s u b) :)
@[simp] theorem raiseUnit_pci_errKind (s : State) (u b : Nat) : (s.raiseUnit u b).pci.errKind = s.pci.errKind := (congrArg PciState.errKind (raiseUnit_pci s u b) :)
@[simp] theorem raiseUnit_pci_errFn (s : State) (u b : Nat) : (s.raiseUnit u b).pci.errFn = s.pci.errFn := (congrArg PciState.errFn (raiseUnit_pci s u b) :)
@[simp] theorem raiseUnit_pci_errValid (s : State) (u b : Nat) : (s.raiseUnit u b).pci.errValid = s.pci.errValid := (congrArg PciState.errValid (raiseUnit_pci s u b) :)
@[simp] theorem raiseUnit_pci_d3hot (s : State) (u b : Nat) : (s.raiseUnit u b).pci.d3hot = s.pci.d3hot := (congrArg PciState.d3hot (raiseUnit_pci s u b) :)
@[simp] theorem raiseUnit_pci_unmasked (s : State) (u b : Nat) : (s.raiseUnit u b).pci.unmasked = s.pci.unmasked := (congrArg PciState.unmasked (raiseUnit_pci s u b) :)
@[simp] theorem raiseUnit_pci_msixTable (s : State) (u b : Nat) : (s.raiseUnit u b).pci.msixTable = s.pci.msixTable := (congrArg PciState.msixTable (raiseUnit_pci s u b) :)
@[simp] theorem raiseUnit_pci_creditMsg (s : State) (u b : Nat) : (s.raiseUnit u b).pci.creditMsg = s.pci.creditMsg := (congrArg PciState.creditMsg (raiseUnit_pci s u b) :)
@[simp] theorem raiseUnit_pci_trainedOnce (s : State) (u b : Nat) : (s.raiseUnit u b).pci.trainedOnce = s.pci.trainedOnce := (congrArg PciState.trainedOnce (raiseUnit_pci s u b) :)
@[simp] theorem raiseUnit_dom_phase (s : State) (u b : Nat) (e : Nat) : ((s.raiseUnit u b).dom e).phase = (s.dom e).phase :=
  ((raiseUnit_frame s u b).kept .domLife (by decide) e).1
@[simp] theorem raiseUnit_dom_held (s : State) (u b : Nat) (e : Nat) : ((s.raiseUnit u b).dom e).held = (s.dom e).held :=
  ((raiseUnit_frame s u b).kept .domLife (by decide) e).2.1
@[simp] theorem raiseUnit_dom_created (s : State) (u b : Nat) (e : Nat) : ((s.raiseUnit u b).dom e).created = (s.dom e).created :=
  ((raiseUnit_frame s u b).kept .domLife (by decide) e).2.2.1
@[simp] theorem raiseUnit_dom_activeAt (s : State) (u b : Nat) (e : Nat) : ((s.raiseUnit u b).dom e).activeAt = (s.dom e).activeAt :=
  ((raiseUnit_frame s u b).kept .domLife (by decide) e).2.2.2.1
@[simp] theorem raiseUnit_dom_doneDue (s : State) (u b : Nat) (e : Nat) : ((s.raiseUnit u b).dom e).doneDue = (s.dom e).doneDue :=
  ((raiseUnit_frame s u b).kept .domLife (by decide) e).2.2.2.2.1
@[simp] theorem raiseUnit_dom_teardownAt (s : State) (u b : Nat) (e : Nat) : ((s.raiseUnit u b).dom e).teardownAt = (s.dom e).teardownAt :=
  ((raiseUnit_frame s u b).kept .domLife (by decide) e).2.2.2.2.2.1
@[simp] theorem raiseUnit_dom_requests (s : State) (u b : Nat) (e : Nat) : ((s.raiseUnit u b).dom e).requests = (s.dom e).requests :=
  ((raiseUnit_frame s u b).kept .domLife (by decide) e).2.2.2.2.2.2.1
@[simp] theorem raiseUnit_dom_leaving (s : State) (u b : Nat) (e : Nat) : ((s.raiseUnit u b).dom e).leaving = (s.dom e).leaving :=
  ((raiseUnit_frame s u b).kept .domLife (by decide) e).2.2.2.2.2.2.2.1
@[simp] theorem raiseUnit_dom_scrubEnded (s : State) (u b : Nat) (e : Nat) : ((s.raiseUnit u b).dom e).scrubEnded = (s.dom e).scrubEnded :=
  ((raiseUnit_frame s u b).kept .domLife (by decide) e).2.2.2.2.2.2.2.2.1
@[simp] theorem raiseUnit_dom_scrubStartNs (s : State) (u b : Nat) (e : Nat) : ((s.raiseUnit u b).dom e).scrubStartNs = (s.dom e).scrubStartNs :=
  ((raiseUnit_frame s u b).kept .domLife (by decide) e).2.2.2.2.2.2.2.2.2
@[simp] theorem raiseUnit_dom_rec_ (s : State) (u b : Nat) (e : Nat) : ((s.raiseUnit u b).dom e).rec_ = (s.dom e).rec_ :=
  ((raiseUnit_frame s u b).kept .domRecord (by decide) e).1
@[simp] theorem raiseUnit_dom_ovh (s : State) (u b : Nat) (e : Nat) : ((s.raiseUnit u b).dom e).ovh = (s.dom e).ovh :=
  ((raiseUnit_frame s u b).kept .domRecord (by decide) e).2.1
@[simp] theorem raiseUnit_dom_loan (s : State) (u b : Nat) (e : Nat) : ((s.raiseUnit u b).dom e).loan = (s.dom e).loan :=
  ((raiseUnit_frame s u b).kept .domRecord (by decide) e).2.2
@[simp] theorem raiseUnit_dom_preempted (s : State) (u b : Nat) (e : Nat) : ((s.raiseUnit u b).dom e).preempted = (s.dom e).preempted :=
  ((raiseUnit_frame s u b).kept .domPreempt (by decide) e).1
@[simp] theorem raiseUnit_dom_saving (s : State) (u b : Nat) (e : Nat) : ((s.raiseUnit u b).dom e).saving = (s.dom e).saving :=
  ((raiseUnit_frame s u b).kept .domPreempt (by decide) e).2.1
@[simp] theorem raiseUnit_dom_restoring (s : State) (u b : Nat) (e : Nat) : ((s.raiseUnit u b).dom e).restoring = (s.dom e).restoring :=
  ((raiseUnit_frame s u b).kept .domPreempt (by decide) e).2.2.1
@[simp] theorem raiseUnit_dom_saveCommons (s : State) (u b : Nat) (e : Nat) : ((s.raiseUnit u b).dom e).saveCommons = (s.dom e).saveCommons :=
  ((raiseUnit_frame s u b).kept .domPreempt (by decide) e).2.2.2.1
@[simp] theorem raiseUnit_dom_preemptAt (s : State) (u b : Nat) (e : Nat) : ((s.raiseUnit u b).dom e).preemptAt = (s.dom e).preemptAt :=
  ((raiseUnit_frame s u b).kept .domPreempt (by decide) e).2.2.2.2.1
@[simp] theorem raiseUnit_dom_resumeAt (s : State) (u b : Nat) (e : Nat) : ((s.raiseUnit u b).dom e).resumeAt = (s.dom e).resumeAt :=
  ((raiseUnit_frame s u b).kept .domPreempt (by decide) e).2.2.2.2.2.1
@[simp] theorem raiseUnit_dom_savedAcc (s : State) (u b : Nat) (e : Nat) : ((s.raiseUnit u b).dom e).savedAcc = (s.dom e).savedAcc :=
  ((raiseUnit_frame s u b).kept .domPreempt (by decide) e).2.2.2.2.2.2.1
@[simp] theorem raiseUnit_dom_savedOpbuf (s : State) (u b : Nat) (e : Nat) : ((s.raiseUnit u b).dom e).savedOpbuf = (s.dom e).savedOpbuf :=
  ((raiseUnit_frame s u b).kept .domPreempt (by decide) e).2.2.2.2.2.2.2.1
@[simp] theorem raiseUnit_dom_savedCommons (s : State) (u b : Nat) (e : Nat) : ((s.raiseUnit u b).dom e).savedCommons = (s.dom e).savedCommons :=
  ((raiseUnit_frame s u b).kept .domPreempt (by decide) e).2.2.2.2.2.2.2.2
@[simp] theorem raiseUnit_dom_queue (s : State) (u b : Nat) (e : Nat) : ((s.raiseUnit u b).dom e).queue = (s.dom e).queue :=
  ((raiseUnit_frame s u b).kept .domQueue (by decide) e)
@[simp] theorem raiseUnit_dom_nextOrder (s : State) (u b : Nat) (e : Nat) : ((s.raiseUnit u b).dom e).nextOrder = (s.dom e).nextOrder :=
  ((raiseUnit_frame s u b).kept .domSlabs (by decide) e).1
@[simp] theorem raiseUnit_dom_slabs (s : State) (u b : Nat) (e : Nat) : ((s.raiseUnit u b).dom e).slabs = (s.dom e).slabs :=
  ((raiseUnit_frame s u b).kept .domSlabs (by decide) e).2.1
@[simp] theorem raiseUnit_dom_devSlabs (s : State) (u b : Nat) (e : Nat) : ((s.raiseUnit u b).dom e).devSlabs = (s.dom e).devSlabs :=
  ((raiseUnit_frame s u b).kept .domSlabs (by decide) e).2.2.1
@[simp] theorem raiseUnit_dom_devNext (s : State) (u b : Nat) (e : Nat) : ((s.raiseUnit u b).dom e).devNext = (s.dom e).devNext :=
  ((raiseUnit_frame s u b).kept .domSlabs (by decide) e).2.2.2.1
@[simp] theorem raiseUnit_dom_batches (s : State) (u b : Nat) (e : Nat) : ((s.raiseUnit u b).dom e).batches = (s.dom e).batches :=
  ((raiseUnit_frame s u b).kept .domSlabs (by decide) e).2.2.2.2.1
@[simp] theorem raiseUnit_dom_lastOperand (s : State) (u b : Nat) (e : Nat) : ((s.raiseUnit u b).dom e).lastOperand = (s.dom e).lastOperand :=
  ((raiseUnit_frame s u b).kept .domSlabs (by decide) e).2.2.2.2.2
@[simp] theorem raiseUnit_dom_quota0 (s : State) (u b : Nat) (e : Nat) : ((s.raiseUnit u b).dom e).quota0 = (s.dom e).quota0 :=
  ((raiseUnit_frame s u b).kept .domSched (by decide) e).1
@[simp] theorem raiseUnit_dom_weight (s : State) (u b : Nat) (e : Nat) : ((s.raiseUnit u b).dom e).weight = (s.dom e).weight :=
  ((raiseUnit_frame s u b).kept .domSched (by decide) e).2.1
@[simp] theorem raiseUnit_dom_slots (s : State) (u b : Nat) (e : Nat) : ((s.raiseUnit u b).dom e).slots = (s.dom e).slots :=
  ((raiseUnit_frame s u b).kept .domSched (by decide) e).2.2.1
@[simp] theorem raiseUnit_dom_rtUj (s : State) (u b : Nat) (e : Nat) : ((s.raiseUnit u b).dom e).rtUj = (s.dom e).rtUj :=
  ((raiseUnit_frame s u b).kept .domSched (by decide) e).2.2.2.1
@[simp] theorem raiseUnit_dom_rtFirst (s : State) (u b : Nat) (e : Nat) : ((s.raiseUnit u b).dom e).rtFirst = (s.dom e).rtFirst :=
  ((raiseUnit_frame s u b).kept .domSched (by decide) e).2.2.2.2.1
@[simp] theorem raiseUnit_dom_rtUnits (s : State) (u b : Nat) (e : Nat) : ((s.raiseUnit u b).dom e).rtUnits = (s.dom e).rtUnits :=
  ((raiseUnit_frame s u b).kept .domSched (by decide) e).2.2.2.2.2.1
@[simp] theorem raiseUnit_dom_allow (s : State) (u b : Nat) (e : Nat) : ((s.raiseUnit u b).dom e).allow = (s.dom e).allow :=
  ((raiseUnit_frame s u b).kept .domSched (by decide) e).2.2.2.2.2.2.1
@[simp] theorem raiseUnit_dom_lagNs (s : State) (u b : Nat) (e : Nat) : ((s.raiseUnit u b).dom e).lagNs = (s.dom e).lagNs :=
  ((raiseUnit_frame s u b).kept .domSched (by decide) e).2.2.2.2.2.2.2.1
@[simp] theorem raiseUnit_dom_lagNext (s : State) (u b : Nat) (e : Nat) : ((s.raiseUnit u b).dom e).lagNext = (s.dom e).lagNext :=
  ((raiseUnit_frame s u b).kept .domSched (by decide) e).2.2.2.2.2.2.2.2.1
@[simp] theorem raiseUnit_dom_rate (s : State) (u b : Nat) (e : Nat) : ((s.raiseUnit u b).dom e).rate = (s.dom e).rate :=
  ((raiseUnit_frame s u b).kept .domSched (by decide) e).2.2.2.2.2.2.2.2.2.1
@[simp] theorem raiseUnit_dom_rateT (s : State) (u b : Nat) (e : Nat) : ((s.raiseUnit u b).dom e).rateT = (s.dom e).rateT :=
  ((raiseUnit_frame s u b).kept .domSched (by decide) e).2.2.2.2.2.2.2.2.2.2.1
@[simp] theorem raiseUnit_dom_energyFrac (s : State) (u b : Nat) (e : Nat) : ((s.raiseUnit u b).dom e).energyFrac = (s.dom e).energyFrac :=
  ((raiseUnit_frame s u b).kept .domSched (by decide) e).2.2.2.2.2.2.2.2.2.2.2
@[simp] theorem raiseUnit_dom_vec (s : State) (u b : Nat) (e : Nat) : ((s.raiseUnit u b).dom e).vec = (s.dom e).vec :=
  ((raiseUnit_frame s u b).kept .domVec (by decide) e)
@[simp] theorem raiseUnit_dom_var_ (s : State) (u b : Nat) (e : Nat) : ((s.raiseUnit u b).dom e).var_ = (s.dom e).var_ :=
  ((raiseUnit_frame s u b).kept .domVar (by decide) e)
@[simp] theorem raiseUnit_dom_upd (s : State) (u b : Nat) (e : Nat) : ((s.raiseUnit u b).dom e).upd = (s.dom e).upd :=
  ((raiseUnit_frame s u b).kept .domUpd (by decide) e)
@[simp] theorem raiseUnit_dom_kvp (s : State) (u b : Nat) (e : Nat) : ((s.raiseUnit u b).dom e).kvp = (s.dom e).kvp :=
  ((raiseUnit_frame s u b).kept .domKvp (by decide) e)
@[simp] theorem raiseUnit_dom_tir (s : State) (u b : Nat) (e : Nat) : ((s.raiseUnit u b).dom e).tir = (s.dom e).tir :=
  ((raiseUnit_frame s u b).kept .domTir (by decide) e)
@[simp] theorem raiseUnit_dom_col (s : State) (u b : Nat) (e : Nat) : ((s.raiseUnit u b).dom e).col = (s.dom e).col :=
  ((raiseUnit_frame s u b).kept .domCol (by decide) e)
@[simp] theorem raiseUnit_dom_keys (s : State) (u b : Nat) (e : Nat) : ((s.raiseUnit u b).dom e).keys = (s.dom e).keys :=
  ((raiseUnit_frame s u b).kept .domKeys (by decide) e)
@[simp] theorem raiseUnit_dom_poison (s : State) (u b : Nat) (e : Nat) : ((s.raiseUnit u b).dom e).poison = (s.dom e).poison :=
  ((raiseUnit_frame s u b).kept .domPoison (by decide) e)

end Sys2Proof.Laws
end

