-- ==== Sys2Proof/Laws/Commands.lean ====
section
/-! SUPPORT. What the shared path of every command register does (R123): a command that is ready runs and posts, and posting keeps everything but the pair and what an event moves. -/

namespace Sys2Proof.Laws

open Sys2Proof.Machine Sys2Proof.Safety

theorem runCmd_ready {s : State} {v : View} {page : Nat} {posted : Bool} (h : Ready s v page posted) (f : State → State × Nat) :
    s.runCmd v page posted f = (f s).1.postResult (s.viewCopy v page) page (f s).2 := by
  obtain ⟨h1, h2⟩ := h
  unfold State.runCmd
  rw [h1]
  rcases h2 with h2 | h2 <;> simp [h2]

theorem answered_postResult (s : State) (c page r : Nat) : Answered (s.postResult c page r) c page r := by
  unfold Answered State.postResult
  split
  · simp
  · simp

theorem pair_postResult_ne (s : State) (c page r e g : Nat) (h : 256 * e + g ≠ 256 * c + page) :
    (s.postResult c page r).pair e g = s.pair e g := by
  unfold State.postResult
  split
  · rw [pair_putPair, if_neg h]
  · rw [raiseCopy_pair, pair_putPair, if_neg h]

theorem pair_postResult_args (s : State) (c page r : Nat) : ((s.postResult c page r).pair c page).args = (s.pair c page).args := by
  unfold State.postResult
  split
  · simp
  · simp

theorem pair_postResult_done (s : State) (c page r : Nat) : ((s.postResult c page r).pair c page).done = (s.pair c page).done := by
  unfold State.postResult
  split
  · simp
  · simp

theorem onlyPair_postResult (s : State) (c page r : Nat) : OnlyPair s (s.postResult c page r) c page :=
  fun e g h => pair_postResult_ne s c page r e g h

theorem postResult_frame (s : State) (c page r : Nat) :
    Frame [Part.pciPending, .traceHead, .views, .pairs, .counters, .out] s (s.postResult c page r) :=
  fr_postResult (fr_refl _ s) c page r (fun _ h => h)

theorem arg_putArg (s : State) (c page i j : Nat) (w : W64) (hj : j < 8) :
    (s.putArg c page i w).arg c page j = if j = i then w.toNat else s.arg c page j := by
  unfold State.arg State.putArg
  rw [pair_putPair_self]
  simp only [List.getD_eq_getElem?_getD, List.getElem?_map, List.getElem?_range hj, Option.map_some, Option.getD_some]
  split <;> rfl

theorem arg_postResult (s : State) (c page r i : Nat) : (s.postResult c page r).arg c page i = s.arg c page i := by
  unfold State.arg
  rw [pair_postResult_args]

/-! A frame without the parts of the domains keeps every domain. -/

theorem onlyDom_frame {L : List Part} {s t : State} (h : Frame L s t) (d : Nat)
    (hL : ∀ p ∈ [Part.domLife, .domRecord, .domPreempt, .domQueue, .domSlabs, .domSched, .domVec, .domVar, .domUpd, .domKvp, .domTir,
      .domCol, .domKeys, .domMem, .domPoison], p ∉ L) : OnlyDom s t d := by
  intro e _
  refine ⟨fun p hp => ?_, fun a ha => h.kept .domMem (hL _ (by decide)) e a ha⟩
  cases p <;> first | exact trivial | exact absurd rfl hp |
    exact h.kept .domLife (hL .domLife (by decide)) e |
    exact h.kept .domRecord (hL .domRecord (by decide)) e |
    exact h.kept .domPreempt (hL .domPreempt (by decide)) e |
    exact h.kept .domQueue (hL .domQueue (by decide)) e |
    exact h.kept .domSlabs (hL .domSlabs (by decide)) e |
    exact h.kept .domSched (hL .domSched (by decide)) e |
    exact h.kept .domVec (hL .domVec (by decide)) e |
    exact h.kept .domVar (hL .domVar (by decide)) e |
    exact h.kept .domUpd (hL .domUpd (by decide)) e |
    exact h.kept .domKvp (hL .domKvp (by decide)) e |
    exact h.kept .domTir (hL .domTir (by decide)) e |
    exact h.kept .domCol (hL .domCol (by decide)) e |
    exact h.kept .domKeys (hL .domKeys (by decide)) e |
    exact h.kept .domPoison (hL .domPoison (by decide)) e

theorem onlyDom_trans {s t u : State} {d : Nat} (hr : t.dbg.traceEn = s.dbg.traceEn ∧ t.dbg.traceBase = s.dbg.traceBase ∧
    t.dbg.traceLog2 = s.dbg.traceLog2) (a : OnlyDom s t d) (b : OnlyDom t u d) : OnlyDom s u d := fun e he =>
  ⟨fun p hp => keptDom_trans ((a e he).1 p hp) ((b e he).1 p hp), fun x hx =>
    ((b e he).2 x (fun k => hx ((inRing_congr hr e x).1 k))).trans ((a e he).2 x hx)⟩

theorem onlyDom_refl (s : State) (d : Nat) : OnlyDom s s d := fun _ _ => ⟨fun _ _ => keptDom_refl _ _, fun _ _ => rfl⟩

theorem onlyDom_putDom (s : State) (d : Nat) (x : Dom) : OnlyDom s (s.putDom d x) d := fun e he => by
  rw [dom_putDom_ne _ _ _ _ he]
  exact ⟨fun _ _ => keptDom_refl _ _, fun _ _ => rfl⟩

end Sys2Proof.Laws
end

