-- ==== Sys2Proof/Laws/Events.lean ====
section
/-! SUPPORT. Events set their bits in the views that see them, and no event clears a bit (R408, R469). -/

namespace Sys2Proof.Laws

open Sys2Proof.Machine Sys2Proof.Safety

theorem traceWrite_views (s : State) (a b c d : Nat) (v : Bool) : (s.traceWrite a b c d v).2.views = s.views := by
  unfold State.traceWrite
  dsimp only
  split <;> rfl

theorem msix_views (s : State) (f v : Nat) : (s.msix f v).views = s.views := by
  unfold State.msix
  split
  · split <;> rfl
  · rfl

theorem view_congr {s t : State} (h : t.views = s.views) (c p : Nat) : t.view c p = s.view c p := by unfold State.view; rw [h]

theorem view_setEvent (s : State) (c p e g : Nat) (b : W32) :
    (s.setEvent c p b).view e g =
      if 256 * e + g = 256 * c + p then { s.view c p with event := (s.view c p).event ||| b } else s.view e g := by
  rw [← view_putView]
  unfold State.setEvent
  dsimp only
  split
  · split
    · rfl
    · exact view_congr (msix_views _ _ _) _ _
  · rfl

/-- Every bit of an event register of s is one of t. -/
def EventsStay (s t : State) : Prop := ∀ c p i, (s.view c p).event.getLsbD i = true → (t.view c p).event.getLsbD i = true

theorem eventsStay_refl (s : State) : EventsStay s s := fun _ _ _ h => h
theorem eventsStay_trans {s t u : State} (a : EventsStay s t) (b : EventsStay t u) : EventsStay s u :=
  fun c p i h => b c p i (a c p i h)
theorem eventsStay_views {s t : State} (h : t.views = s.views) : EventsStay s t := fun c p i k => by
  rw [view_congr h]; exact k

theorem eventsStay_setEvent (s : State) (c p : Nat) (b : W32) : EventsStay s (s.setEvent c p b) := by
  intro e g i h
  rw [view_setEvent]
  split
  · next k =>
    have : s.view e g = s.view c p := by unfold State.view; rw [k]
    rw [this] at h
    simp [h]
  · exact h

theorem eventsStay_foldl (l : List Nat) (p : Nat) (b : W32) (s : State) :
    EventsStay s (l.foldl (fun t c => t.setEvent c p b) s) := by
  induction l generalizing s with
  | nil => exact eventsStay_refl _
  | cons a l ih => exact eventsStay_trans (eventsStay_setEvent s a p b) (ih _)

theorem eventsStay_trace (s : State) (a b c d : Nat) (v : Bool) : EventsStay s (s.trace a b c d v) := by
  unfold State.trace
  split
  · have h := traceWrite_views s a b c d v
    generalize s.traceWrite a b c d v = r at h
    obtain ⟨w, u⟩ := r
    dsimp only at h ⊢
    split
    · have h2 := eventsStay_trans (eventsStay_views h) (eventsStay_setEvent u 64 pDbg 1)
      split
      · exact eventsStay_trans h2 (eventsStay_views (traceWrite_views _ _ _ _ _ _))
      · exact h2
    · exact eventsStay_views h
  · exact eventsStay_refl _

theorem eventsStay_raiseDev (s : State) (p b : Nat) : EventsStay s (s.raiseDev p b) :=
  eventsStay_trans (eventsStay_foldl _ _ _ _) (eventsStay_trace _ _ _ _ _ _)
theorem eventsStay_raiseDom (s : State) (p b d : Nat) : EventsStay s (s.raiseDom p b d) := by
  unfold State.raiseDom
  split
  · exact eventsStay_trans (eventsStay_foldl _ _ _ _) (eventsStay_trace _ _ _ _ _ _)
  · exact eventsStay_refl _
theorem eventsStay_raiseCopy (s : State) (p b c : Nat) : EventsStay s (s.raiseCopy p b c) :=
  eventsStay_trans (eventsStay_setEvent _ _ _ _) (eventsStay_trace _ _ _ _ _ _)
theorem eventsStay_raiseUnit (s : State) (u b : Nat) : EventsStay s (s.raiseUnit u b) :=
  eventsStay_trans (eventsStay_foldl _ _ _ _) (eventsStay_trace _ _ _ _ _ _)
theorem eventsStay_postResult (s : State) (c p r : Nat) : EventsStay s (s.postResult c p r) := by
  unfold State.postResult
  split
  · exact fun _ _ _ h => h
  · exact eventsStay_trans (t := s.putPair _ _ _) (fun _ _ _ h => h) (eventsStay_raiseCopy _ _ _ _)

theorem bit_two_pow (b : Nat) (hb : b < 32) : (w32 (2 ^ b)).getLsbD b = true := by
  show (BitVec.ofNat 32 (2 ^ b)).getLsbD b = true
  rw [BitVec.getLsbD_ofNat, Nat.testBit_two_pow_self]
  simp [hb]

theorem event_setEvent (s : State) (c p b : Nat) (hb : b < 32) : ((s.setEvent c p (w32 (2 ^ b))).view c p).event.getLsbD b = true := by
  rw [view_setEvent, if_pos rfl]
  simp [bit_two_pow b hb]

theorem event_foldl (l : List Nat) (p b : Nat) (hb : b < 32) (s : State) (c : Nat) (hc : c ∈ l) :
    ((l.foldl (fun t c => t.setEvent c p (w32 (2 ^ b))) s).view c p).event.getLsbD b = true := by
  induction l generalizing s with
  | nil => cases hc
  | cons a l ih =>
    rcases List.mem_cons.1 hc with rfl | h
    · exact eventsStay_foldl l p _ _ _ _ _ (event_setEvent s c p b hb)
    · exact ih _ h

/-- A device event stands in every view that can see it. -/
theorem raiseDev_event (s : State) (p b : Nat) (hb : b < 32) (c : Nat) (hc : c ∈ s.devCopies p b) :
    ((s.raiseDev p b).view c p).event.getLsbD b = true :=
  eventsStay_trace _ _ _ _ _ _ _ _ _ (event_foldl _ p b hb s c hc)

/-- An event of a live domain stands in the domain's views. -/
theorem raiseDom_event (s : State) (p b d : Nat) (hb : b < 32) (hl : s.live d = true) (c : Nat) (hc : c ∈ domCopies p b d) :
    ((s.raiseDom p b d).view c p).event.getLsbD b = true := by
  unfold State.raiseDom
  rw [if_pos hl]
  exact eventsStay_trace _ _ _ _ _ _ _ _ _ (event_foldl _ p b hb s c hc)

theorem raiseCopy_event (s : State) (p b c : Nat) (hb : b < 32) : ((s.raiseCopy p b c).view c p).event.getLsbD b = true :=
  eventsStay_trace _ _ _ _ _ _ _ _ _ (event_setEvent s c p b hb)

/-- What has been put out stays out, in order. -/
def OutGrows (s t : State) : Prop := ∃ l, t.out = l ++ s.out

theorem outGrows_same {s t : State} (h : t.out = s.out) : OutGrows s t := ⟨[], by rw [h]; rfl⟩
theorem outGrows_refl (s : State) : OutGrows s s := outGrows_same rfl
theorem outGrows_trans {s t u : State} (a : OutGrows s t) (b : OutGrows t u) : OutGrows s u := by
  obtain ⟨l, h⟩ := a
  obtain ⟨k, g⟩ := b
  exact ⟨k ++ l, by rw [g, h, List.append_assoc]⟩
theorem outGrows_emit (s : State) (o : Output) : OutGrows s (s.emit o) := ⟨[o], rfl⟩

theorem outGrows_setEvent (s : State) (c p : Nat) (b : W32) : OutGrows s (s.setEvent c p b) := by
  unfold State.setEvent
  dsimp only
  split
  · split
    · exact outGrows_same rfl
    · unfold State.msix
      split
      · split
        · exact ⟨[_], rfl⟩
        · exact outGrows_same rfl
      · exact outGrows_same rfl
  · exact outGrows_same rfl

theorem outGrows_foldl (l : List Nat) (p : Nat) (b : W32) (s : State) : OutGrows s (l.foldl (fun t c => t.setEvent c p b) s) := by
  induction l generalizing s with
  | nil => exact outGrows_refl _
  | cons a l ih => exact outGrows_trans (outGrows_setEvent s a p b) (ih _)

theorem traceWrite_out (s : State) (a b c d : Nat) (v : Bool) : (s.traceWrite a b c d v).2.out = s.out := by
  unfold State.traceWrite
  dsimp only
  split <;> rfl

theorem outGrows_trace (s : State) (a b c d : Nat) (v : Bool) : OutGrows s (s.trace a b c d v) := by
  unfold State.trace
  split
  · have h := traceWrite_out s a b c d v
    generalize s.traceWrite a b c d v = r at h
    obtain ⟨w, u⟩ := r
    dsimp only at h ⊢
    split
    · have h2 := outGrows_trans (outGrows_same h) (outGrows_setEvent u 64 pDbg 1)
      split
      · exact outGrows_trans h2 (outGrows_same (traceWrite_out _ _ _ _ _ _))
      · exact h2
    · exact outGrows_same h
  · exact outGrows_refl _

theorem outGrows_raiseDev (s : State) (p b : Nat) : OutGrows s (s.raiseDev p b) :=
  outGrows_trans (outGrows_foldl _ _ _ _) (outGrows_trace _ _ _ _ _ _)
theorem outGrows_raiseDom (s : State) (p b d : Nat) : OutGrows s (s.raiseDom p b d) := by
  unfold State.raiseDom
  split
  · exact outGrows_trans (outGrows_foldl _ _ _ _) (outGrows_trace _ _ _ _ _ _)
  · exact outGrows_refl _
theorem outGrows_raiseCopy (s : State) (p b c : Nat) : OutGrows s (s.raiseCopy p b c) :=
  outGrows_trans (outGrows_setEvent _ _ _ _) (outGrows_trace _ _ _ _ _ _)
theorem outGrows_raiseUnit (s : State) (u b : Nat) : OutGrows s (s.raiseUnit u b) :=
  outGrows_trans (outGrows_foldl _ _ _ _) (outGrows_trace _ _ _ _ _ _)
theorem outGrows_postResult (s : State) (c p r : Nat) : OutGrows s (s.postResult c p r) := by
  unfold State.postResult
  split
  · exact outGrows_same rfl
  · exact outGrows_trans (t := s.putPair _ _ _) (outGrows_same rfl) (outGrows_raiseCopy _ _ _ _)

theorem outGrows_mem {s t : State} (h : OutGrows s t) {o : Output} (k : o ∈ s.out) : o ∈ t.out := by
  obtain ⟨l, e⟩ := h
  rw [e]
  exact List.mem_append_right _ k

end Sys2Proof.Laws
end

