-- ==== Sys2Proof/Laws/Counters.lean ====
section
/-! SUPPORT. Counters (R468): what adding to one does to each, and that an event moves none but the two of the trace (R487). -/

namespace Sys2Proof.Laws

open Sys2Proof.Machine Sys2Proof.Safety

theorem counter_congr {s t : State} (h : t.counters = s.counters) (e g i : Nat) : t.counter e g i = s.counter e g i := by
  unfold State.counter; rw [h]

/-- A counter that no record of the trace moves: neither RECORDS nor DROPPED of the DBG page. -/
def Untraced (e g i : Nat) : Prop := counterKey e g i ≠ counterKey dev pDbg 0 ∧ counterKey e g i ≠ counterKey dev pDbg 1

theorem msix_counters (s : State) (f v : Nat) : (s.msix f v).counters = s.counters := by
  unfold State.msix
  split
  · split <;> rfl
  · rfl

theorem setEvent_counters (s : State) (c p : Nat) (b : W32) : (s.setEvent c p b).counters = s.counters := by
  unfold State.setEvent
  dsimp only
  split
  · split
    · rfl
    · exact msix_counters _ _ _
  · rfl

theorem foldl_setEvent_counters (l : List Nat) (p : Nat) (b : W32) (s : State) :
    (l.foldl (fun t c => t.setEvent c p b) s).counters = s.counters := by
  induction l generalizing s with
  | nil => rfl
  | cons a l ih => rw [List.foldl_cons, ih, setEvent_counters]

theorem counter_traceWrite (s : State) (a b c d : Nat) (v : Bool) {e g i : Nat} (h : Untraced e g i) :
    (s.traceWrite a b c d v).2.counter e g i = s.counter e g i := by
  unfold State.traceWrite
  dsimp only
  split
  · rw [counter_bump, if_neg h.2]; rfl
  · rw [updDom_counter, counter_bump, if_neg h.1]; rfl

theorem counter_trace (s : State) (a b c d : Nat) (v : Bool) {e g i : Nat} (h : Untraced e g i) :
    (s.trace a b c d v).counter e g i = s.counter e g i := by
  unfold State.trace
  split
  · have k := counter_traceWrite s a b c d v h
    generalize s.traceWrite a b c d v = r at k
    obtain ⟨w, u⟩ := r
    dsimp only at k ⊢
    split
    · have k2 := counter_congr (setEvent_counters u 64 pDbg 1) e g i
      split
      · rw [counter_traceWrite _ _ _ _ _ _ h, k2, k]
      · rw [k2, k]
    · exact k
  · rfl

theorem counter_raiseDev (s : State) (p b : Nat) {e g i : Nat} (h : Untraced e g i) :
    (s.raiseDev p b).counter e g i = s.counter e g i := by
  unfold State.raiseDev
  dsimp only
  rw [counter_trace _ _ _ _ _ _ h, counter_congr (foldl_setEvent_counters _ _ _ _)]

theorem counter_raiseDom (s : State) (p b d : Nat) {e g i : Nat} (h : Untraced e g i) :
    (s.raiseDom p b d).counter e g i = s.counter e g i := by
  unfold State.raiseDom
  split
  · dsimp only
    rw [counter_trace _ _ _ _ _ _ h, counter_congr (foldl_setEvent_counters _ _ _ _)]
  · rfl

theorem counter_raiseCopy (s : State) (p b c : Nat) {e g i : Nat} (h : Untraced e g i) :
    (s.raiseCopy p b c).counter e g i = s.counter e g i := by
  unfold State.raiseCopy
  dsimp only
  rw [counter_trace _ _ _ _ _ _ h, counter_congr (setEvent_counters _ _ _ _)]

theorem counter_raiseUnit (s : State) (u b : Nat) {e g i : Nat} (h : Untraced e g i) :
    (s.raiseUnit u b).counter e g i = s.counter e g i := by
  unfold State.raiseUnit
  dsimp only
  rw [counter_trace _ _ _ _ _ _ h, counter_congr (foldl_setEvent_counters _ _ _ _)]

theorem counter_postResult (s : State) (c p r : Nat) {e g i : Nat} (h : Untraced e g i) :
    (s.postResult c p r).counter e g i = s.counter e g i := by
  unfold State.postResult
  split
  · rfl
  · rw [counter_raiseCopy _ _ _ _ h]; rfl

/-! Which views an event of the device reaches depends on the phases of the domains alone. -/

theorem live_congr {s t : State} (h : ∀ d, (t.dom d).phase = (s.dom d).phase) (d : Nat) : t.live d = s.live d := by
  unfold State.live; rw [h]

theorem devCopies_congr {s t : State} (h : ∀ d, (t.dom d).phase = (s.dom d).phase) (p b : Nat) : t.devCopies p b = s.devCopies p b := by
  unfold State.devCopies
  simp only [live_congr h]

theorem mem_numAdd (l : List Nat) (k j : Nat) : j ∈ numAdd l k ↔ j = k ∨ j ∈ l := by
  induction l with
  | nil => simp [numAdd]
  | cons a l ih =>
    unfold numAdd
    split
    · simp
    · split
      · next h => subst h; simp
      · simp [ih]; tauto

theorem mem_foldl_numAdd (l : List Nat) : ∀ (m : List Nat) (j : Nat), j ∈ l.foldl numAdd m ↔ j ∈ m ∨ j ∈ l := by
  induction l with
  | nil => simp
  | cons a l ih => intro m j; rw [List.foldl_cons, ih, mem_numAdd]; simp; tauto

end Sys2Proof.Laws
end

