-- ==== Sys2Proof/Laws/EvolveOperands.lean ====
section
/-! SUPPORT. The operations of Machine/Operands.lean evolve the state: from Evolves s₀ s, Evolves s₀ of what the operation makes of s. -/

namespace Sys2Proof.Laws

open Sys2Proof.Machine Sys2Proof.Safety

theorem domMem_wrMem {x : Dom} (h : DomMem x) (a : Nat) (bs : List Byte) : DomMem (x.wrMem a bs) := by
  unfold Dom.wrMem
  split
  · dsimp only
    refine foldl_keeps DomMem _ (fun y b h => ?_) _ h
    split
    · split
      · exact ⟨memPut_wf _ _ _ h.1, h.2⟩
      · exact h
    · exact ⟨memPut_wf _ _ _ h.1, h.2⟩
  · exact ⟨memPut_wf _ _ _ h.1, h.2⟩

theorem domMem_touch {x : Dom} (h : DomMem x) (a : Nat) (n : Nat) : DomMem (Dom.touch x a n) := by
  unfold Dom.touch
  repeat' (first
    | with_reducible assumption
    | (extract_lets +onlyGivenNames z; subst z)
    | with_reducible apply domMem_putEntry
    | with_reducible refine foldl_keeps DomMem _ ?_ _ ?_
    | split
    | with_reducible apply domMem_mk
    | dsimp only
    | intro)

theorem ev_wrMem {s₀ s : State} (h₀ : Evolves s₀ s) (d : Nat) (a : Nat) (bs : List Byte) :
    Evolves s₀ (State.wrMem s d a bs) := by
  unfold State.wrMem
  repeat' (first
    | with_reducible assumption
    | with_reducible apply ev_updDom
    | split
    | with_reducible apply domMem_wrMem
    | with_reducible apply domMem_touch
    | intro)

theorem ev_wrCommons {s₀ s : State} (h₀ : Evolves s₀ s) (o : Nat) (bs : List Byte) :
    Evolves s₀ (State.wrCommons s o bs) := by
  unfold State.wrCommons
  repeat' (first
    | with_reducible assumption
    | with_reducible apply ev_mkAll
    | with_reducible exact fuses_same _
    | with_reducible exact lks_same _
    | with_reducible exact Nat.le_refl _
    | with_reducible exact MemoryWf.msix
    | with_reducible exact images_wf
    | with_reducible exact MemoryWf.doms
    | with_reducible exact MemoryWf.slots
    | with_reducible exact MemoryWf.opbuf
    | with_reducible apply memPut_wf
    | with_reducible exact MemoryWf.commons (by assumption)
    | intro)

theorem ev_wrSpace {s₀ s : State} (h₀ : Evolves s₀ s) (d : Nat) (space : Nat) (a : Nat) (bs : List Byte) :
    Evolves s₀ (State.wrSpace s d space a bs) := by
  unfold State.wrSpace
  repeat' (first
    | with_reducible assumption
    | with_reducible apply ev_wrMem
    | with_reducible apply ev_wrCommons
    | split)

theorem ev_wrBuffer {s₀ s : State} (h₀ : Evolves s₀ s) (d : Nat) (e : SlotEntry) (buf : Bool) (a : Nat) (bs : List Byte) :
    Evolves s₀ (State.wrBuffer s d e buf a bs) := by
  unfold State.wrBuffer
  repeat' (first
    | with_reducible assumption
    | with_reducible apply ev_wrMem
    | with_reducible apply ev_foldl
    | with_reducible apply ev_foldl_fst
    | with_reducible apply ev_foldl_snd
    | (refine ev_foldl_fst_eq ?_ ?_ (by assumption))
    | (refine ev_foldl_snd_eq ?_ ?_ (by assumption))
    | split
    | with_reducible apply domMem_wrMem
    | with_reducible apply ev_mk
    | dsimp only
    | intro)

theorem ev_accPutAll {s₀ s : State} (h₀ : Evolves s₀ s) (l : List (Nat × W32)) :
    Evolves s₀ (State.accPutAll s l) := by
  unfold State.accPutAll
  repeat' (first
    | with_reducible assumption
    | with_reducible apply ev_mk)

theorem ev_clearArrays {s₀ s : State} (h₀ : Evolves s₀ s) (a : Nat) (n : Nat) (buffers : Bool) :
    Evolves s₀ (State.clearArrays s a n buffers) := by
  unfold State.clearArrays
  repeat' (first
    | with_reducible assumption
    | split
    | with_reducible apply ev_mk
    | with_reducible apply ev_mkAll
    | with_reducible exact fuses_same _
    | with_reducible exact lks_same _
    | with_reducible exact Nat.le_refl _
    | with_reducible exact MemoryWf.msix
    | with_reducible exact images_wf
    | with_reducible exact MemoryWf.doms
    | with_reducible exact MemoryWf.slots
    | with_reducible exact MemoryWf.commons
    | with_reducible apply memClear_wf
    | with_reducible exact MemoryWf.opbuf (by assumption)
    | intro)

end Sys2Proof.Laws
end

