-- ==== Sys2Proof/Laws/EvolveErrors.lean ====
section
/-! SUPPORT. The operations of Machine/Errors.lean evolve the state: from Evolves s₀ s, Evolves s₀ of what the operation makes of s. -/

namespace Sys2Proof.Laws

open Sys2Proof.Machine Sys2Proof.Safety

theorem ev_correctedBlock {s₀ s : State} (h₀ : Evolves s₀ s) (p : BlockPlace) :
    Evolves s₀ (State.correctedBlock s p) := by
  unfold State.correctedBlock
  repeat' (first
    | with_reducible assumption
    | (extract_lets +onlyGivenNames x; first
        | (refine (fun (hx : Evolves s₀ x) => ?_) ?_; (on_goal 1 => clear_value x); (on_goal 2 => subst x))
        | ((have y : Nat := x); clear y; clear_value x))
    | with_reducible apply ev_bump
    | with_reducible apply ev_updMbd)

theorem ev_uncorrectableBlock {s₀ s : State} (h₀ : Evolves s₀ s) (p : BlockPlace) (keyDom : Nat) (base : Bool) :
    Evolves s₀ (State.uncorrectableBlock s p keyDom base) := by
  unfold State.uncorrectableBlock
  repeat' (first
    | with_reducible assumption
    | (extract_lets +onlyGivenNames x; first
        | (refine (fun (hx : Evolves s₀ x) => ?_) ?_; (on_goal 1 => clear_value x); (on_goal 2 => subst x))
        | ((have y : Nat := x); clear y; clear_value x))
    | with_reducible apply ev_updMbd
    | with_reducible apply ev_bump
    | with_reducible apply ev_raiseDev)

theorem ev_poisonRewrite {s₀ s : State} (h₀ : Evolves s₀ s) (p : BlockPlace) :
    Evolves s₀ (State.poisonRewrite s p) := by
  unfold State.poisonRewrite
  repeat' (first
    | with_reducible assumption
    | with_reducible apply ev_updMbd)

theorem ev_readDomainBlock {s₀ s : State} (h₀ : Evolves s₀ s) (d : Nat) (addr : Nat) (symbols : Nat) :
    Evolves s₀ (State.readDomainBlock s d addr symbols) := by
  unfold State.readDomainBlock
  repeat' (first
    | with_reducible assumption
    | (extract_lets +onlyGivenNames x; first
        | subst x)
    | with_reducible apply ev_poisonRewrite
    | with_reducible apply ev_correctedBlock
    | with_reducible apply ev_uncorrectableBlock
    | with_reducible apply ev_updDom
    | split
    | with_reducible apply domMem_mk
    | with_reducible exact domMem_dom (by assumption) _
    | with_reducible apply ev_mk
    | dsimp only
    | intro)

theorem ev_readBaseBlock {s₀ s : State} (h₀ : Evolves s₀ s) (k : Nat) (o : Nat) (symbols : Nat) :
    Evolves s₀ (State.readBaseBlock s k o symbols) := by
  unfold State.readBaseBlock
  repeat' (first
    | with_reducible assumption
    | (extract_lets +onlyGivenNames x; first
        | subst x)
    | with_reducible apply ev_poisonRewrite
    | with_reducible apply ev_correctedBlock
    | with_reducible apply ev_uncorrectableBlock
    | with_reducible apply ev_updCopy
    | split
    | with_reducible apply ev_mk
    | with_reducible apply imageWf_putStripe
    | with_reducible apply imageWf_write
    | with_reducible exact imageWf_copy' _
    | with_reducible exact imageWf_copy (by assumption) _
    | dsimp only
    | intro)

theorem ev_countCommonsUe {s₀ s : State} (h₀ : Evolves s₀ s) (o : Nat) (n : Nat) :
    Evolves s₀ (State.countCommonsUe s o n) := by
  unfold State.countCommonsUe
  repeat' (first
    | with_reducible assumption
    | with_reducible apply ev_raiseDom
    | with_reducible apply ev_bump
    | with_reducible apply ev_foldl
    | with_reducible apply ev_mk
    | dsimp only
    | intro)

theorem ev_readCommonsWord {s₀ s : State} (h₀ : Evolves s₀ s) (o : Nat) (double : Bool) :
    Evolves s₀ (State.readCommonsWord s o double) := by
  unfold State.readCommonsWord
  repeat' (first
    | with_reducible assumption
    | with_reducible apply ev_countCommonsUe
    | with_reducible apply ev_bump
    | split
    | with_reducible apply ev_mk)

theorem ev_sramError {s₀ s : State} (h₀ : Evolves s₀ s) (array : Nat) (acc : Bool) (entry : Nat) (double : Bool) :
    Evolves s₀ (State.sramError s array acc entry double) := by
  unfold State.sramError
  repeat' (first
    | with_reducible assumption
    | (extract_lets +onlyGivenNames x; first
        | (refine (fun (hx : Evolves s₀ x) => ?_) ?_; (on_goal 1 => clear_value x); (on_goal 2 => subst x))
        | ((have y : Nat := x); clear y; clear_value x))
    | with_reducible apply ev_updUnit
    | with_reducible apply ev_bump
    | with_reducible apply ev_raiseUnit
    | split)

theorem ev_meetError {s₀ s : State} (h₀ : Evolves s₀ s) (d : Nat) (a1 : ReadError) :
    Evolves s₀ (State.meetError s d a1).1 := by
  unfold State.meetError
  repeat' (first
    | with_reducible assumption
    | with_reducible apply ev_readDomainBlock
    | with_reducible apply ev_readBaseBlock
    | with_reducible apply ev_readCommonsWord
    | with_reducible apply ev_sramError
    | split)
theorem ev_meetError_eq {s₀ s : State} (h₀ : Evolves s₀ s) {d : Nat} {a1 : ReadError} {r₀ : _} {u₀ : State}
    (e₀ : State.meetError s d a1 = (u₀, r₀)) : Evolves s₀ u₀ := by
  have x := ev_meetError h₀ d a1
  rw [e₀] at x
  exact x

theorem ev_meetErrors {s₀ s : State} (h₀ : Evolves s₀ s) (d : Nat) (es : List ReadError) :
    Evolves s₀ (State.meetErrors s d es).1 := by
  unfold State.meetErrors
  repeat' (first
    | with_reducible assumption
    | with_reducible apply ev_meetError
    | with_reducible apply ev_foldl_fst
    | dsimp only
    | intro)
theorem ev_meetErrors_eq {s₀ s : State} (h₀ : Evolves s₀ s) {d : Nat} {es : List ReadError} {r₀ : _} {u₀ : State}
    (e₀ : State.meetErrors s d es = (u₀, r₀)) : Evolves s₀ u₀ := by
  have x := ev_meetErrors h₀ d es
  rw [e₀] at x
  exact x

end Sys2Proof.Laws
end

