-- ==== Sys2Proof/Laws/EvolveProduct.lean ====
section
/-! SUPPORT. The operations of Machine/Product.lean evolve the state: from Evolves s₀ s, Evolves s₀ of what the operation makes of s. -/

namespace Sys2Proof.Laws

open Sys2Proof.Machine Sys2Proof.Safety

theorem ev_putStat {s₀ s : State} (h₀ : Evolves s₀ s) (array : Nat) (kib : Nat) (bs : List Byte) :
    Evolves s₀ (State.putStat s array kib bs) := by
  unfold State.putStat
  repeat' (first
    | with_reducible assumption
    | (extract_lets +onlyGivenNames x; ((have y : Nat := x); clear y; clear_value x))
    | with_reducible apply ev_mkAll
    | with_reducible exact fuses_same _
    | with_reducible exact lks_same _
    | with_reducible exact Nat.le_refl _
    | with_reducible exact MemoryWf.msix
    | with_reducible exact images_wf
    | with_reducible exact MemoryWf.doms
    | with_reducible exact MemoryWf.slots
    | with_reducible exact MemoryWf.commons
    | with_reducible apply memPut_wf
    | with_reducible exact MemoryWf.opbuf (by assumption)
    | intro)

theorem ev_streamChunks {s₀ s : State} (h₀ : Evolves s₀ s) (d : Nat) (parts : List (Opd × Nat × Nat)) (array : Nat) (kib : Nat) (chunk : Nat) (kFirst : Nat) (kBlks : Nat) :
    Evolves s₀ (State.streamChunks s d parts array kib chunk kFirst kBlks) := by
  unfold State.streamChunks
  repeat' (first
    | with_reducible assumption
    | (extract_lets +onlyGivenNames x; first
        | subst x)
    | with_reducible apply ev_foldl
    | with_reducible apply ev_foldl_fst
    | with_reducible apply ev_foldl_snd
    | (refine ev_foldl_fst_eq ?_ ?_ (by assumption))
    | (refine ev_foldl_snd_eq ?_ ?_ (by assumption))
    | split
    | with_reducible apply ev_mk
    | with_reducible apply ev_mkAll
    | with_reducible exact fuses_same _
    | with_reducible exact MemoryWf.msix
    | with_reducible exact images_wf
    | with_reducible exact lks_same _
    | with_reducible exact MemoryWf.doms
    | with_reducible exact MemoryWf.commons
    | with_reducible exact MemoryWf.opbuf
    | with_reducible exact Nat.le_refl _
    | with_reducible exact MemoryWf.commons (by assumption)
    | with_reducible exact MemoryWf.opbuf (by assumption)
    | with_reducible exact memWf_nil
    | with_reducible apply memPut_wf
    | with_reducible apply memClear_wf
    | with_reducible apply memWf_filter
    | with_reducible refine foldl_keeps (fun m => memWf m = true) _ ?_ _ ?_
    | dsimp only
    | intro)

theorem ev_loadStat {s₀ s : State} (h₀ : Evolves s₀ s) (d : Nat) (o : Opd) (array : Nat) (kib : Nat) (v0 : Nat) (nv : Nat)
    (kFirst : Nat) (kBlks : Nat) :
    Evolves s₀ (State.loadStat s d o array kib v0 nv kFirst kBlks).1 := by
  unfold State.loadStat
  repeat' (first
    | with_reducible assumption
    | (extract_lets +onlyGivenNames x; subst x)
    | with_reducible apply ev_putStat)
theorem ev_loadStat_eq {s₀ s : State} (h₀ : Evolves s₀ s) {d : Nat} {o : Opd} {array : Nat} {kib : Nat} {v0 : Nat}
    {nv : Nat} {kFirst : Nat} {kBlks : Nat} {r₀ : _} {u₀ : State}
    (e₀ : State.loadStat s d o array kib v0 nv kFirst kBlks = (u₀, r₀)) : Evolves s₀ u₀ := by
  have x := ev_loadStat h₀ d o array kib v0 nv kFirst kBlks
  rw [e₀] at x
  exact x

theorem ev_noteOperand {s₀ s : State} (h₀ : Evolves s₀ s) (d : Nat) (first : Nat) (n : Nat) (order : Nat) (key : List W64) (loaded : Bool) :
    Evolves s₀ (State.noteOperand s d first n order key loaded) := by
  unfold State.noteOperand
  repeat' (first
    | with_reducible assumption
    | with_reducible apply ev_updDom
    | with_reducible apply ev_foldl
    | with_reducible apply ev_foldl_fst
    | with_reducible apply ev_foldl_snd
    | (refine ev_foldl_fst_eq ?_ ?_ (by assumption))
    | (refine ev_foldl_snd_eq ?_ ?_ (by assumption))
    | split
    | with_reducible apply domMem_mk
    | with_reducible exact domMem_dom (by assumption) _
    | with_reducible apply ev_mk
    | dsimp only
    | intro)

theorem ev_baseCompute {s₀ s : State} (h₀ : Evolves s₀ s) (d : Nat) (h : Hdr) (b : BaseBody) (col : Opd) (reuse : List Nat) :
    Evolves s₀ (State.baseCompute s d h b col reuse).1 := by
  unfold State.baseCompute
  repeat' (first
    | with_reducible assumption
    | (extract_lets +onlyGivenNames x; first
        | ((have y : Nat := x); clear y; clear_value x)
        | subst x)
    | with_reducible apply ev_loadStat
    | (refine ev_loadStat_eq ?_ (by assumption))
    | with_reducible apply ev_streamChunks
    | with_reducible apply ev_foldl
    | with_reducible apply ev_foldl_fst
    | with_reducible apply ev_foldl_snd
    | (refine ev_foldl_fst_eq ?_ ?_ (by assumption))
    | (refine ev_foldl_snd_eq ?_ ?_ (by assumption))
    | split
    | dsimp only
    | intro)
theorem ev_baseCompute_eq {s₀ s : State} (h₀ : Evolves s₀ s) {d : Nat} {h : Hdr} {b : BaseBody} {col : Opd} {reuse : List Nat} {r₁ : _} {r₂ : _} {u₀ : State}
    (e₀ : State.baseCompute s d h b col reuse = (u₀, r₁, r₂)) : Evolves s₀ u₀ := by
  have x := ev_baseCompute h₀ d h b col reuse
  rw [e₀] at x
  exact x

theorem ev_runBase {s₀ s : State} (h₀ : Evolves s₀ s) (d : Nat) (ws : List W64) (reuse : List Nat) (sram : Bool) :
    Evolves s₀ (State.runBase s d ws reuse sram).st := by
  unfold State.runBase
  repeat' (first
    | with_reducible assumption
    | (extract_lets +onlyGivenNames x; first
        | (refine (fun (hx : Evolves s₀ x) => ?_) ?_; (on_goal 1 => clear_value x); (on_goal 2 => subst x))
        | ((have y : Nat := x); clear y; clear_value x)
        | ((have y : Hdr := x); clear y; clear_value x)
        | subst x)
    | with_reducible apply ev_baseCompute
    | (refine ev_baseCompute_eq ?_ (by assumption))
    | with_reducible apply ev_noteOperand
    | with_reducible apply ev_bump
    | with_reducible apply ev_accPutAll
    | with_reducible apply ev_foldl
    | with_reducible apply ev_foldl_fst
    | with_reducible apply ev_foldl_snd
    | (refine ev_foldl_fst_eq ?_ ?_ (by assumption))
    | (refine ev_foldl_snd_eq ?_ ?_ (by assumption))
    | with_reducible refine foldl_keeps (fun q : RunResult => Evolves s₀ q.st) _ ?_ _ ?_
    | split
    | dsimp only
    | intro)

theorem ev_takeStamps {s₀ s : State} (h₀ : Evolves s₀ s) (d : Nat) (batch : Nat) (gs : List Group) :
    Evolves s₀ (State.takeStamps s d batch gs) := by
  unfold State.takeStamps
  repeat' (first
    | with_reducible assumption
    | with_reducible apply ev_updSlot
    | with_reducible apply ev_updDom
    | with_reducible apply ev_foldl
    | split
    | with_reducible apply ev_mk
    | with_reducible apply domMem_mk
    | with_reducible apply slotMem_mkAll
    | dsimp only
    | intro)

theorem ev_runVariant {s₀ s : State} (h₀ : Evolves s₀ s) (d : Nat) (ws : List W64) (sram : Bool) :
    Evolves s₀ (State.runVariant s d ws sram).st := by
  unfold State.runVariant
  repeat' (first
    | with_reducible assumption
    | (extract_lets +onlyGivenNames x; first
        | (refine (fun (hx : Evolves s₀ x) => ?_) ?_; (on_goal 1 => clear_value x); (on_goal 2 => subst x))
        | ((have y : Nat := x); clear y; clear_value x)
        | ((have y : Bool := x); clear y; clear_value x)
        | ((have y : Hdr := x); clear y; clear_value x)
        | subst x)
    | with_reducible apply ev_accPutAll
    | with_reducible apply ev_takeStamps
    | with_reducible apply ev_noteOperand
    | with_reducible apply ev_bump
    | with_reducible apply ev_wrCommons
    | with_reducible apply ev_foldl
    | with_reducible apply ev_foldl_fst
    | with_reducible apply ev_foldl_snd
    | (refine ev_foldl_fst_eq ?_ ?_ (by assumption))
    | (refine ev_foldl_snd_eq ?_ ?_ (by assumption))
    | with_reducible refine foldl_keeps (fun q : RunResult => Evolves s₀ q.st) _ ?_ _ ?_
    | split
    | dsimp only
    | intro)

end Sys2Proof.Laws
end

