-- ==== Sys2Proof/Laws/EvolveVector.lean ====
section
/-! SUPPORT. The operations of Machine/Vector.lean evolve the state: from Evolves s₀ s, Evolves s₀ of what the operation makes of s. -/

namespace Sys2Proof.Laws

open Sys2Proof.Machine Sys2Proof.Safety

theorem ev_wrBlock {s₀ s : State} (h₀ : Evolves s₀ s) (d : Nat) (o : Opd) (i : Nat) (plain : List (Nat × Nat)) (e : EncBlock) :
    Evolves s₀ (State.wrBlock s d o i plain e) := by
  unfold State.wrBlock
  repeat' (first
    | with_reducible assumption
    | (extract_lets +onlyGivenNames x; first
        | (refine (fun (hx : Evolves s₀ x) => ?_) ?_; (on_goal 1 => clear_value x); (on_goal 2 => subst x))
        | ((have y : Nat := x); clear y; clear_value x))
    | with_reducible apply ev_wrSpace
    | split)

theorem ev_convertMat {s₀ s : State} (h₀ : Evolves s₀ s) (d : Nat) (c : Conv) (o : Opd) (stream : Nat) (shift : Int)
    (rows : Nat) (cols : Nat) (m : Mat) :
    Evolves s₀ (State.convertMat s d c o stream shift rows cols m).1 := by
  unfold State.convertMat
  repeat' (first
    | with_reducible assumption
    | (extract_lets +onlyGivenNames x; ((have y : Nat := x); clear y; clear_value x))
    | with_reducible apply ev_wrBlock
    | with_reducible apply ev_foldl_fst
    | dsimp only
    | intro)
theorem ev_convertMat_eq {s₀ s : State} (h₀ : Evolves s₀ s) {d : Nat} {c : Conv} {o : Opd} {stream : Nat} {shift : Int}
    {rows : Nat} {cols : Nat} {m : Mat} {r₀ : _} {u₀ : State}
    (e₀ : State.convertMat s d c o stream shift rows cols m = (u₀, r₀)) : Evolves s₀ u₀ := by
  have x := ev_convertMat h₀ d c o stream shift rows cols m
  rw [e₀] at x
  exact x

theorem ev_nanSink {s₀ s : State} (h₀ : Evolves s₀ s) (d : Nat) (o : Opd) (rows : Nat) (cols : Nat) :
    Evolves s₀ (State.nanSink s d o rows cols) := by
  unfold State.nanSink
  repeat' (first
    | with_reducible assumption
    | (extract_lets +onlyGivenNames x; ((have y : Nat := x); clear y; clear_value x))
    | with_reducible apply ev_wrBlock
    | with_reducible apply ev_foldl
    | dsimp only
    | intro)

theorem ev_runChain {s₀ s : State} (h₀ : Evolves s₀ s) (d : Nat) (ws : List W64) (rows : List Recipe) (sram : Bool) :
    Evolves s₀ (State.runChain s d ws rows sram).st := by
  unfold State.runChain
  repeat' (first
    | with_reducible assumption
    | (extract_lets +onlyGivenNames x; first
        | (refine (fun (hx : Evolves s₀ x) => ?_) ?_; (on_goal 1 => clear_value x); (on_goal 2 => subst x))
        | ((have y : Nat := x); clear y; clear_value x)
        | ((have y : Bool := x); clear y; clear_value x)
        | ((have y : Hdr := x); clear y; clear_value x)
        | subst x)
    | with_reducible apply ev_bump
    | with_reducible apply ev_wrSpace
    | with_reducible apply ev_nanSink
    | with_reducible apply ev_accPutAll
    | (refine ev_convertMat_eq ?_ (by assumption))
    | with_reducible apply ev_convertMat
    | with_reducible apply ev_updDom
    | split
    | with_reducible apply domMem_mk
    | dsimp only
    | intro)

end Sys2Proof.Laws
end

