-- ==== Sys2Proof/Laws/EvolveUpdate.lean ====
section
/-! SUPPORT. The operations of Machine/Update.lean evolve the state: from Evolves s₀ s, Evolves s₀ of what the operation makes of s. -/

namespace Sys2Proof.Laws

open Sys2Proof.Machine Sys2Proof.Safety

theorem ev_zsStep {s₀ s : State} (h₀ : Evolves s₀ s) (d : Nat) (slot : Nat) (nonzero : Bool) :
    Evolves s₀ (State.zsStep s d slot nonzero) := by
  unfold State.zsStep
  repeat' (first
    | with_reducible assumption
    | (extract_lets +onlyGivenNames x; first
        | (refine (fun (hx : Evolves s₀ x) => ?_) ?_; (on_goal 1 => clear_value x); (on_goal 2 => subst x))
        | ((have y : Nat := x); clear y; clear_value x)
        | subst x)
    | with_reducible apply ev_updDom
    | with_reducible apply ev_raiseDom
    | with_reducible apply ev_bump
    | split
    | with_reducible apply domMem_mk
    | dsimp only
    | intro)

theorem ev_endFirstPass {s₀ s : State} (h₀ : Evolves s₀ s) (d : Nat) (nonfinite : Bool) :
    Evolves s₀ (State.endFirstPass s d nonfinite) := by
  unfold State.endFirstPass
  repeat' (first
    | with_reducible assumption
    | (extract_lets +onlyGivenNames x; first
        | (refine (fun (hx : Evolves s₀ x) => ?_) ?_; (on_goal 1 => clear_value x); (on_goal 2 => subst x))
        | subst x)
    | with_reducible apply ev_updDom
    | with_reducible apply ev_bump
    | with_reducible apply ev_zsStep
    | with_reducible apply ev_foldl
    | split
    | with_reducible apply domMem_mk
    | dsimp only
    | intro)

theorem ev_openStep {s₀ s : State} (h₀ : Evolves s₀ s) (d : Nat) :
    Evolves s₀ (State.openStep s d) := by
  unfold State.openStep
  repeat' (first
    | with_reducible assumption
    | with_reducible apply ev_bump
    | with_reducible apply ev_updDom
    | with_reducible apply domMem_mk
    | dsimp only
    | intro)

theorem ev_closeStep {s₀ s : State} (h₀ : Evolves s₀ s) (d : Nat) :
    Evolves s₀ (State.closeStep s d) := by
  unfold State.closeStep
  repeat' (first
    | with_reducible assumption
    | with_reducible apply ev_updDom
    | with_reducible apply ev_endFirstPass
    | split
    | with_reducible apply domMem_mk
    | dsimp only
    | intro)

theorem ev_putFactorBytes {s₀ s : State} (h₀ : Evolves s₀ s) (d : Nat) (slot : Nat) (a : Nat) (key : Nat) (bs : List Byte) :
    Evolves s₀ (State.putFactorBytes s d slot a key bs) := by
  unfold State.putFactorBytes
  repeat' (first
    | with_reducible assumption
    | (extract_lets +onlyGivenNames x; first
        | subst x)
    | with_reducible apply ev_wrBuffer
    | with_reducible apply ev_updSlot)

theorem ev_writeWeights {s₀ s : State} (h₀ : Evolves s₀ s) (d : Nat) (x : UStream) (i : Nat) (ws : List W32) :
    Evolves s₀ (State.writeWeights s d x i ws).1 := by
  unfold State.writeWeights
  repeat' (first
    | with_reducible assumption
    | (extract_lets +onlyGivenNames x; first
        | ((have y : Nat := x); clear y; clear_value x)
        | subst x)
    | with_reducible apply ev_putFactorBytes)
theorem ev_writeWeights_eq {s₀ s : State} (h₀ : Evolves s₀ s) {d : Nat} {x : UStream} {i : Nat} {ws : List W32} {r₁ : _} {u₀ : State}
    (e₀ : State.writeWeights s d x i ws = (u₀, r₁)) : Evolves s₀ u₀ := by
  have x := ev_writeWeights h₀ d x i ws
  rw [e₀] at x
  exact x

theorem ev_PassAcc.writeBlock {s₀ : State} {p : PassAcc} (h₀ : Evolves s₀ p.st) (s0 : State) (d : Nat) (b : UpdBody) (rows : List Recipe) (kln3 : Bool) (shift : Int) (key : Nat) (step : Nat) (k : Nat) (i : Nat) (vals : List W32) :
    Evolves s₀ (PassAcc.writeBlock p s0 d b rows kln3 shift key step k i vals).st := by
  unfold PassAcc.writeBlock
  repeat' (first
    | with_reducible assumption
    | (extract_lets +onlyGivenNames x; first
        | (refine (fun (hx : Evolves s₀ x.st) => ?_) ?_; (on_goal 1 => clear_value x); (on_goal 2 => subst x))
        | ((have y : Bool := x); clear y; clear_value x)
        | subst x)
    | with_reducible apply ev_writeWeights
    | (refine ev_writeWeights_eq ?_ (by assumption))
    | with_reducible apply ev_step
    | with_reducible apply ev_wrBlock
    | with_reducible refine foldl_keeps (fun q : PassAcc => Evolves s₀ q.st) _ ?_ _ ?_
    | split)

theorem ev_PassAcc.vector {s₀ : State} {p : PassAcc} (h₀ : Evolves s₀ p.st) (s0 : State) (d : Nat) (sub : Nat) (b : UpdBody) (rows : List Recipe) (kln3 : Bool) (shift : Int) (nve : Nat) (env : LaneEnv) (key : Nat) (step : Nat) (k : Nat) :
    Evolves s₀ (PassAcc.vector p s0 d sub b rows kln3 shift nve env key step k).st := by
  unfold PassAcc.vector
  repeat' (first
    | with_reducible assumption
    | (extract_lets +onlyGivenNames x; first
        | (refine (fun (hx : Evolves s₀ x.st) => ?_) ?_; (on_goal 1 => clear_value x); (on_goal 2 => subst x))
        | ((have y : Nat := x); clear y; clear_value x)
        | ((have y : List Nat := x); clear y; clear_value x)
        | subst x)
    | with_reducible apply ev_PassAcc.writeBlock
    | with_reducible apply ev_step
    | with_reducible apply ev_foldl
    | with_reducible apply ev_foldl_fst
    | with_reducible apply ev_foldl_snd
    | (refine ev_foldl_fst_eq ?_ ?_ (by assumption))
    | (refine ev_foldl_snd_eq ?_ ?_ (by assumption))
    | with_reducible refine foldl_keeps (fun q : PassAcc => Evolves s₀ q.st) _ ?_ _ ?_
    | split
    | dsimp only
    | intro)

theorem ev_copyFactor {s₀ s u : State} {d : Nat} {src dst : UStream} {r : Seen} (h₀ : Evolves s₀ s)
    (e : s.copyFactor d src dst = some (u, r)) : Evolves s₀ u := by
  unfold State.copyFactor at e
  dsimp only at e
  split at e
  · simp only [Option.some.injEq] at e
    have x : Evolves s₀ (u, r).1 := by
      rw [← e]
      exact ev_foldl_fst _ (fun _ _ h => ev_putFactorBytes h _ _ _ _ _) _ h₀
    exact x
  · split at e
    · cases e
    · simp only [Option.some.injEq] at e
      have x : Evolves s₀ (u, r).1 := by
        rw [← e]
        exact ev_foldl_fst _ (fun _ _ h => ev_putFactorBytes h _ _ _ _ _) _ h₀
      exact x

theorem ev_runPass {s₀ s : State} (h₀ : Evolves s₀ s) (d : Nat) (ws : List W64) (rows : List Recipe) (sram : Bool) :
    Evolves s₀ (State.runPass s d ws rows sram).st := by
  unfold State.runPass
  repeat' (first
    | with_reducible assumption
    | (extract_lets +onlyGivenNames x; first
        | (refine (fun (hx : Evolves s₀ x) => ?_) ?_; (on_goal 1 => clear_value x); (on_goal 2 => subst x))
        | (refine (fun (hx : Evolves s₀ x.st) => ?_) ?_; (on_goal 1 => clear_value x); (on_goal 2 => subst x))
        | ((have y : Nat := x); clear y; clear_value x)
        | ((have y : Bool := x); clear y; clear_value x)
        | ((have y : Hdr := x); clear y; clear_value x)
        | subst x)
    | (refine ev_copyFactor ?_ (by assumption))
    | with_reducible apply ev_openStep
    | with_reducible apply ev_endFirstPass
    | with_reducible apply ev_PlanAcc.skip
    | with_reducible apply ev_bump
    | with_reducible apply ev_step
    | with_reducible apply ev_PassAcc.vector
    | with_reducible apply ev_updDom
    | with_reducible apply ev_addNorm
    | with_reducible apply ev_foldl
    | with_reducible apply ev_foldl_fst
    | with_reducible apply ev_foldl_snd
    | (refine ev_foldl_fst_eq ?_ ?_ (by assumption))
    | (refine ev_foldl_snd_eq ?_ ?_ (by assumption))
    | with_reducible refine foldl_keeps (fun q : RunResult => Evolves s₀ q.st) _ ?_ _ ?_
    | with_reducible refine foldl_keeps (fun q : PassAcc => Evolves s₀ q.st) _ ?_ _ ?_
    | with_reducible refine foldl_keeps (fun q : PlanAcc => Evolves s₀ q.st) _ ?_ _ ?_
    | split
    | with_reducible apply domMem_mk
    | with_reducible exact domMem_dom (by assumption) _
    | dsimp only
    | intro)

theorem ev_runRoot {s₀ s0 : State} (h₀ : Evolves s₀ s0) (d : Nat) (ws : List W64) (sram : Bool) :
    Evolves s₀ (State.runRoot s0 d ws sram).st := by
  unfold State.runRoot
  repeat' (first
    | with_reducible assumption
    | (extract_lets +onlyGivenNames x; first
        | (refine (fun (hx : Evolves s₀ x) => ?_) ?_; (on_goal 1 => clear_value x); (on_goal 2 => subst x))
        | ((have y : Nat := x); clear y; clear_value x)
        | ((have y : Bool := x); clear y; clear_value x)
        | ((have y : Hdr := x); clear y; clear_value x)
        | subst x)
    | with_reducible apply ev_noteOperand
    | with_reducible apply ev_wrSpace
    | with_reducible apply ev_takeFree
    | with_reducible apply ev_convertMat
    | split)

theorem ev_addNorm {s₀ s : State} (h₀ : Evolves s₀ s) (d : Nat) (addr : Nat) (init : Bool) (sums : List W32) :
    Evolves s₀ (State.addNorm s d addr init sums) := by
  unfold State.addNorm
  repeat' (first
    | with_reducible assumption
    | (extract_lets +onlyGivenNames x; subst x)
    | with_reducible apply ev_wrCommons)

theorem ev_verifyEnd {s₀ s : State} (h₀ : Evolves s₀ s) (d : Nat) (count : Nat) (first : Nat) :
    Evolves s₀ (State.verifyEnd s d count first) := by
  unfold State.verifyEnd
  repeat' (first
    | with_reducible assumption
    | with_reducible apply ev_raiseDom
    | with_reducible apply ev_updDom
    | with_reducible apply ev_bump
    | split
    | with_reducible apply domMem_mk
    | dsimp only
    | intro)

theorem ev_rootEnd {s₀ s : State} (h₀ : Evolves s₀ s) (d : Nat) (accepted : Bool) :
    Evolves s₀ (State.rootEnd s d accepted) := by
  unfold State.rootEnd
  repeat' (first
    | with_reducible assumption
    | with_reducible apply ev_bump
    | with_reducible apply ev_raiseDom
    | split)

end Sys2Proof.Laws
end

