-- ==== Sys2Proof/Laws/EvolveAttention.lean ====
section
/-! SUPPORT. The operations of Machine/Attention.lean evolve the state: from Evolves s₀ s, Evolves s₀ of what the operation makes of s. -/

namespace Sys2Proof.Laws

open Sys2Proof.Machine Sys2Proof.Safety

theorem domMem_updSeq {x : Dom} (h : DomMem x) (n : Nat) (f : SeqEntry → SeqEntry) : DomMem (x.updSeq n f) := h

theorem ev_fillOverflow {s₀ s : State} (h₀ : Evolves s₀ s) (array : Nat) :
    Evolves s₀ (State.fillOverflow s array) := by
  unfold State.fillOverflow
  repeat' (first
    | with_reducible assumption
    | with_reducible apply ev_takeFree
    | with_reducible apply ev_accPutAll)

theorem ev_AppAcc.put {s₀ : State} {p : AppAcc} (h₀ : Evolves s₀ p.st) (d : Nat) (b : AttBody) (seq : Nat) (pos : Nat)
    (bytes : List Byte) :
    Evolves s₀ (AppAcc.put p d b seq pos bytes).st := by
  unfold AppAcc.put
  repeat' (first
    | with_reducible assumption
    | (extract_lets +onlyGivenNames x; first
        | (refine (fun (hx : Evolves s₀ x) => ?_) ?_; (on_goal 1 => clear_value x); (on_goal 2 => subst x))
        | ((have y : Nat := x); clear y; clear_value x)
        | subst x)
    | with_reducible apply ev_wrMem
    | with_reducible apply ev_updDom
    | with_reducible apply ev_bump
    | with_reducible apply ev_fillOverflow
    | split
    | with_reducible apply domMem_updSeq
    | with_reducible apply domMem_mk
    | dsimp only
    | intro)

theorem ev_appendRows {s₀ s : State} (h₀ : Evolves s₀ s) (d : Nat) (b : AttBody) (batch : Nat) (es : List AttEntry)
    (rows : List (Nat × Nat × List Byte)) :
    Evolves s₀ (State.appendRows s d b batch es rows).st := by
  unfold State.appendRows
  repeat' (first
    | with_reducible assumption
    | (extract_lets +onlyGivenNames x; first
        | (refine (fun (hx : Evolves s₀ x) => ?_) ?_; (on_goal 1 => clear_value x); (on_goal 2 => subst x))
        | subst x)
    | with_reducible apply ev_updDom
    | with_reducible apply ev_AppAcc.put
    | with_reducible apply ev_foldl
    | with_reducible refine foldl_keeps (fun q : AppAcc => Evolves s₀ q.st) _ ?_ _ ?_
    | with_reducible apply domMem_updSeq
    | intro)

theorem ev_putRow {s₀ s : State} (h₀ : Evolves s₀ s) (d : Nat) (o : Opd) (row : Nat) (v : List W32) :
    Evolves s₀ (State.putRow s d o row v) := by
  unfold State.putRow
  repeat' (first
    | with_reducible assumption
    | (extract_lets +onlyGivenNames x; first
        | ((have y : Nat := x); clear y; clear_value x)
        | ((have y : List Byte := x); clear y; clear_value x))
    | with_reducible apply ev_wrSpace)

theorem ev_attNan {s₀ s : State} (h₀ : Evolves s₀ s) (d sub : Nat) (b : AttBody) (es : List AttEntry) :
    Evolves s₀ (s.attNan d sub b es) := by
  have fill : ∀ (o : Opd) (n : Nat) (bs : List W32) {t : State}, Evolves s₀ t →
      Evolves s₀ ((List.range n).foldl (fun u r => u.putRow d o r bs) t) :=
    fun o n bs _ h => ev_foldl _ (fun _ _ h => ev_putRow h _ _ _ _) _ h
  unfold State.attNan
  dsimp only
  split
  · split
    · exact fill _ _ _ h₀
    · exact ev_wrCommons (fill _ _ _ h₀) _ _
  · exact fill _ _ _ (fill _ _ _ (fill _ _ _ h₀))

theorem ev_seqStatus {s₀ s : State} (h₀ : Evolves s₀ s) (d : Nat) (es : List (AttEntry × Bool)) :
    Evolves s₀ (State.seqStatus s d es) := by
  unfold State.seqStatus
  repeat' (first
    | with_reducible assumption
    | with_reducible apply ev_updDom
    | with_reducible apply ev_foldl
    | split
    | with_reducible apply domMem_updSeq
    | intro)

theorem ev_runForward {s₀ s : State} (h₀ : Evolves s₀ s) (d : Nat) (h : Hdr) (b : AttBody) (es : List AttEntry) (own : Bool) :
    Evolves s₀ (State.runForward s d h b es own).st := by
  unfold State.runForward
  repeat' (first
    | with_reducible assumption
    | (extract_lets +onlyGivenNames x; first
        | (refine (fun (hx : Evolves s₀ x) => ?_) ?_; (on_goal 1 => clear_value x); (on_goal 2 => subst x))
        | (refine (fun (hx : Evolves s₀ x.1) => ?_) ?_; (on_goal 1 => clear_value x); (on_goal 2 => subst x))
        | ((have y : Nat := x); clear y; clear_value x)
        | ((have y : Bool := x); clear y; clear_value x)
        | subst x)
    | with_reducible apply ev_attNan
    | with_reducible apply ev_appendRows
    | with_reducible apply ev_seqStatus
    | with_reducible apply ev_putRow
    | with_reducible apply ev_wrCommons
    | with_reducible apply ev_bump
    | with_reducible apply ev_foldl
    | split
    | intro)

theorem ev_backHead {s₀ s : State} (h₀ : Evolves s₀ s) (d : Nat) (redSeg : Nat) (b : AttBody) (qb : Nat) (kb : Nat)
    (e : AttEntry) (h : Nat) :
    Evolves s₀ (State.backHead s d redSeg b qb kb e h).1 := by
  unfold State.backHead
  repeat' (first
    | with_reducible assumption
    | (extract_lets +onlyGivenNames x; first
        | (refine (fun (hx : Evolves s₀ x) => ?_) ?_; (on_goal 1 => clear_value x); (on_goal 2 => subst x))
        | ((have y : Nat := x); clear y; clear_value x)
        | subst x)
    | with_reducible apply ev_putRow
    | with_reducible apply ev_foldl
    | dsimp only
    | intro)
theorem ev_backHead_eq {s₀ s : State} (h₀ : Evolves s₀ s) {d : Nat} {redSeg : Nat} {b : AttBody} {qb : Nat} {kb : Nat}
    {e : AttEntry} {h : Nat} {r₀ : _} {u₀ : State}
    (e₀ : State.backHead s d redSeg b qb kb e h = (u₀, r₀)) : Evolves s₀ u₀ := by
  have x := ev_backHead h₀ d redSeg b qb kb e h
  rw [e₀] at x
  exact x

theorem ev_runBackward {s₀ s : State} (h₀ : Evolves s₀ s) (d : Nat) (h : Hdr) (b : AttBody) (es : List AttEntry) (own : Bool) :
    Evolves s₀ (State.runBackward s d h b es own).st := by
  unfold State.runBackward
  repeat' (first
    | with_reducible assumption
    | (extract_lets +onlyGivenNames x; subst x)
    | with_reducible apply ev_backHead
    | with_reducible apply ev_attNan
    | (refine ev_foldl_fst_eq ?_ ?_ (by assumption))
    | split
    | dsimp only
    | intro)

theorem ev_runAttention {s₀ s0 : State} (h₀ : Evolves s₀ s0) (d : Nat) (ws : List W64) (sram : Bool) :
    Evolves s₀ (State.runAttention s0 d ws sram).st := by
  unfold State.runAttention
  repeat' (first
    | with_reducible assumption
    | (extract_lets +onlyGivenNames x; first
        | (refine (fun (hx : Evolves s₀ x) => ?_) ?_; (on_goal 1 => clear_value x); (on_goal 2 => subst x))
        | ((have y : Bool := x); clear y; clear_value x)
        | ((have y : Hdr := x); clear y; clear_value x)
        | subst x)
    | with_reducible apply ev_noteOperand
    | with_reducible apply ev_runForward
    | with_reducible apply ev_runBackward
    | split)

end Sys2Proof.Laws
end

