-- ==== Sys2Proof/Laws/EvolveVariant.lean ====
section
/-! SUPPORT. The operations of Machine/Variant.lean evolve the state: from Evolves s₀ s, Evolves s₀ of what the operation makes of s. -/

namespace Sys2Proof.Laws

open Sys2Proof.Machine Sys2Proof.Safety

theorem ev_pickFree {s₀ s : State} (h₀ : Evolves s₀ s) (n : Nat) (l : List Nat) : Evolves s₀ (State.pickFree n l s).2 := by
  induction n generalizing l s with
  | zero => exact h₀
  | succ n ih => exact ih (ev_takeFree h₀) _
theorem ev_pickFree_eq {s₀ s : State} (h₀ : Evolves s₀ s) {n : Nat} {l : List Nat} {r₀ : _} {u₀ : State}
    (e₀ : State.pickFree n l s = (r₀, u₀)) : Evolves s₀ u₀ := by
  have x := ev_pickFree h₀ n l
  rw [e₀] at x
  exact x

theorem ev_queueCooper {s₀ s : State} (h₀ : Evolves s₀ s) (d : Nat) (slot : Nat) (k : CoopKind) (bytes : Nat) (blocked : Bool) :
    Evolves s₀ (State.queueCooper s d slot k bytes blocked) := by
  unfold State.queueCooper
  repeat' (first
    | with_reducible assumption
    | with_reducible apply ev_updDom
    | with_reducible apply domMem_mk
    | dsimp only
    | intro)

theorem ev_dropItems {s₀ s : State} (h₀ : Evolves s₀ s) (d : Nat) (slot : Nat) :
    Evolves s₀ (State.dropItems s d slot) := by
  unfold State.dropItems
  repeat' (first
    | with_reducible assumption
    | with_reducible apply ev_updDom
    | split
    | with_reducible apply domMem_mk
    | with_reducible exact domMem_dom (by assumption) _
    | with_reducible apply ev_mk
    | dsimp only
    | intro)

theorem ev_markPoison {s₀ s : State} (h₀ : Evolves s₀ s) (d : Nat) (a : Nat) (n : Nat) :
    Evolves s₀ (State.markPoison s d a n) := by
  unfold State.markPoison
  repeat' (first
    | with_reducible assumption
    | with_reducible apply ev_updDom
    | with_reducible apply ev_foldl
    | with_reducible apply ev_foldl_fst
    | with_reducible apply ev_foldl_snd
    | (refine ev_foldl_fst_eq ?_ ?_ (by assumption))
    | (refine ev_foldl_snd_eq ?_ ?_ (by assumption))
    | split
    | with_reducible apply domMem_mk
    | with_reducible exact domMem_dom (by assumption) _
    | with_reducible apply ev_mk
    | dsimp only
    | intro)

theorem ev_copyOut {s₀ s : State} (h₀ : Evolves s₀ s) (d : Nat) (slot : Nat) (e : SlotEntry) (buf : Bool) (key : Option Nat) (a : Nat) (n : Nat) (dst : Nat) :
    Evolves s₀ (State.copyOut s d slot e buf key a n dst) := by
  unfold State.copyOut
  repeat' (first
    | with_reducible assumption
    | (extract_lets +onlyGivenNames x; first
        | subst x)
    | with_reducible apply ev_wrMem
    | with_reducible apply ev_markPoison
    | with_reducible apply ev_foldl
    | with_reducible apply ev_foldl_fst
    | with_reducible apply ev_foldl_snd
    | (refine ev_foldl_fst_eq ?_ ?_ (by assumption))
    | (refine ev_foldl_snd_eq ?_ ?_ (by assumption))
    | split
    | with_reducible apply domMem_wrMem
    | with_reducible apply ev_mk
    | dsimp only
    | intro)

theorem ev_writeBack {s₀ s : State} (h₀ : Evolves s₀ s) (d : Nat) (slot : Nat) :
    Evolves s₀ (State.writeBack s d slot) := by
  unfold State.writeBack
  repeat' (first
    | with_reducible assumption
    | (extract_lets +onlyGivenNames x; first
        | (refine (fun (hx : Evolves s₀ x) => ?_) ?_; (on_goal 1 => clear_value x); (on_goal 2 => subst x))
        | subst x)
    | with_reducible apply ev_copyOut
    | with_reducible apply ev_bump
    | with_reducible apply ev_updSlot
    | with_reducible apply ev_foldl
    | with_reducible apply ev_foldl_fst
    | with_reducible apply ev_foldl_snd
    | (refine ev_foldl_fst_eq ?_ ?_ (by assumption))
    | (refine ev_foldl_snd_eq ?_ ?_ (by assumption))
    | split
    | with_reducible apply ev_mk
    | dsimp only
    | intro)

theorem ev_cooperEnds {s₀ s : State} (h₀ : Evolves s₀ s) (d : Nat) (amount : Nat) :
    Evolves s₀ (State.cooperEnds s d amount) := by
  unfold State.cooperEnds
  repeat' (first
    | with_reducible assumption
    | with_reducible apply ev_bump
    | with_reducible apply ev_updDom
    | with_reducible apply ev_writeBack
    | with_reducible apply ev_foldl
    | with_reducible apply domMem_mk
    | dsimp only
    | intro)

theorem ev_varCmd {s₀ s : State} (h₀ : Evolves s₀ s) (v : View) (posted : Bool) (op slot rsv : Nat)
    (f : Nat → Nat → State → State × Nat × Nat × W16) (hf : ∀ d c t, Evolves s₀ t → Evolves s₀ (f d c t).1) :
    Evolves s₀ (s.varCmd v posted op slot rsv f) := by
  unfold State.varCmd
  refine ev_runCmd h₀ _ _ _ _ ?_
  dsimp only
  split
  · exact h₀
  · exact hf _ _ _ h₀

theorem ev_varSays {s₀ s : State} (h₀ : Evolves s₀ s) (slot : Nat) (status : Nat) :
    Evolves s₀ (State.varSays s slot status).1 := by
  unfold State.varSays
  repeat' (first
    | with_reducible assumption)
theorem ev_varSays_eq {s₀ s : State} (h₀ : Evolves s₀ s) {slot : Nat} {status : Nat} {r₀ : _} {u₀ : State}
    (e₀ : State.varSays s slot status = (u₀, r₀)) : Evolves s₀ u₀ := by
  have x := ev_varSays h₀ slot status
  rw [e₀] at x
  exact x

theorem ev_varGuard {s₀ s : State} (h₀ : Evolves s₀ s) (d slot : Nat) (gen : W16) (f : State × Nat × Nat × W16)
    (hf : Evolves s₀ f.1) : Evolves s₀ (s.varGuard d slot gen f).1 := by
  unfold State.varGuard State.varSays
  split
  · exact h₀
  · split
    · exact h₀
    · exact hf

theorem ev_claimSlot {s₀ s : State} (h₀ : Evolves s₀ s) (d : Nat) (c : Nat) (slot : Nat) (gen : W16) :
    Evolves s₀ (State.claimSlot s d c slot gen).1 := by
  unfold State.claimSlot
  repeat' (first
    | with_reducible assumption
    | (extract_lets +onlyGivenNames x; first
        | ((have y : Nat := x); clear y; clear_value x)
        | subst x)
    | with_reducible apply ev_varSays
    | with_reducible apply ev_bump
    | with_reducible apply ev_putSlot
    | split)
theorem ev_claimSlot_eq {s₀ s : State} (h₀ : Evolves s₀ s) {d : Nat} {c : Nat} {slot : Nat} {gen : W16} {r₀ : _} {u₀ : State}
    (e₀ : State.claimSlot s d c slot gen = (u₀, r₀)) : Evolves s₀ u₀ := by
  have x := ev_claimSlot h₀ d c slot gen
  rw [e₀] at x
  exact x

theorem ev_execClaim {s₀ s : State} (h₀ : Evolves s₀ s) (v : View) (posted : Bool) (slot : BitVec 14) (gen : W16)
    (rsv : BitVec 30) :
    EvolvesOut s₀ (execClaim v posted slot gen rsv s) := by
  unfold execClaim
  repeat' (first
    | with_reducible assumption
    | with_reducible apply ev_varCmd
    | with_reducible apply ev_claimSlot
    | with_reducible apply evo_next
    | intro)

theorem ev_loadSlot {s₀ s : State} (h₀ : Evolves s₀ s) (d : Nat) (slot : Nat) :
    Evolves s₀ (State.loadSlot s d slot).1 := by
  unfold State.loadSlot
  repeat' (first
    | with_reducible assumption
    | (extract_lets +onlyGivenNames x; first
        | ((have y : Nat := x); clear y; clear_value x)
        | subst x)
    | with_reducible apply ev_varSays
    | (refine ev_varSays_eq ?_ (by assumption))
    | with_reducible apply ev_pickFree
    | (refine ev_pickFree_eq ?_ (by assumption))
    | with_reducible apply ev_putSlot
    | with_reducible apply ev_queueCooper
    | split)
theorem ev_loadSlot_eq {s₀ s : State} (h₀ : Evolves s₀ s) {d : Nat} {slot : Nat} {r₁ : _} {r₂ : _} {r₃ : _} {u₀ : State}
    (e₀ : State.loadSlot s d slot = (u₀, r₁, r₂, r₃)) : Evolves s₀ u₀ := by
  have x := ev_loadSlot h₀ d slot
  rw [e₀] at x
  exact x

theorem ev_execLoad {s₀ s : State} (h₀ : Evolves s₀ s) (v : View) (posted : Bool) (slot : BitVec 14) (gen : W16)
    (rsv : BitVec 30) :
    EvolvesOut s₀ (execLoad v posted slot gen rsv s) := by
  unfold execLoad
  repeat' (first
    | with_reducible assumption
    | with_reducible apply ev_varCmd
    | with_reducible apply ev_varGuard
    | with_reducible apply ev_loadSlot
    | with_reducible apply evo_next
    | intro)

theorem ev_parkSlot {s₀ s : State} (h₀ : Evolves s₀ s) (d : Nat) (slot : Nat) :
    Evolves s₀ (State.parkSlot s d slot).1 := by
  unfold State.parkSlot
  repeat' (first
    | with_reducible assumption
    | (extract_lets +onlyGivenNames x; first
        | (refine (fun (hx : Evolves s₀ x) => ?_) ?_; (on_goal 1 => clear_value x); (on_goal 2 => subst x))
        | subst x)
    | with_reducible apply ev_varSays
    | with_reducible apply ev_defer
    | with_reducible apply ev_queueCooper
    | split)
theorem ev_parkSlot_eq {s₀ s : State} (h₀ : Evolves s₀ s) {d : Nat} {slot : Nat} {r₀ : _} {u₀ : State}
    (e₀ : State.parkSlot s d slot = (u₀, r₀)) : Evolves s₀ u₀ := by
  have x := ev_parkSlot h₀ d slot
  rw [e₀] at x
  exact x

theorem ev_execPark {s₀ s : State} (h₀ : Evolves s₀ s) (v : View) (posted : Bool) (slot : BitVec 14) (gen : W16)
    (rsv : BitVec 30) :
    EvolvesOut s₀ (execPark v posted slot gen rsv s) := by
  unfold execPark
  repeat' (first
    | with_reducible assumption
    | with_reducible apply ev_varCmd
    | with_reducible apply ev_varGuard
    | with_reducible apply ev_parkSlot
    | with_reducible apply evo_next
    | intro)

theorem ev_releaseSlot {s₀ s : State} (h₀ : Evolves s₀ s) (d : Nat) (slot : Nat) :
    Evolves s₀ (State.releaseSlot s d slot).1 := by
  unfold State.releaseSlot
  repeat' (first
    | with_reducible assumption
    | (extract_lets +onlyGivenNames x; first
        | (refine (fun (hx : Evolves s₀ x) => ?_) ?_; (on_goal 1 => clear_value x); (on_goal 2 => subst x))
        | subst x)
    | with_reducible apply ev_varSays
    | (refine ev_varSays_eq ?_ (by assumption))
    | with_reducible apply ev_defer
    | with_reducible apply ev_putSlot
    | with_reducible apply ev_foldl
    | with_reducible apply ev_foldl_fst
    | with_reducible apply ev_foldl_snd
    | (refine ev_foldl_fst_eq ?_ ?_ (by assumption))
    | (refine ev_foldl_snd_eq ?_ ?_ (by assumption))
    | split
    | dsimp only
    | intro)
theorem ev_releaseSlot_eq {s₀ s : State} (h₀ : Evolves s₀ s) {d : Nat} {slot : Nat} {r₁ : _} {r₂ : _} {r₃ : _} {u₀ : State}
    (e₀ : State.releaseSlot s d slot = (u₀, r₁, r₂, r₃)) : Evolves s₀ u₀ := by
  have x := ev_releaseSlot h₀ d slot
  rw [e₀] at x
  exact x

theorem ev_execRelease {s₀ s : State} (h₀ : Evolves s₀ s) (v : View) (posted : Bool) (slot : BitVec 14) (gen : W16)
    (rsv : BitVec 30) :
    EvolvesOut s₀ (execRelease v posted slot gen rsv s) := by
  unfold execRelease
  repeat' (first
    | with_reducible assumption
    | with_reducible apply ev_varCmd
    | with_reducible apply ev_varGuard
    | with_reducible apply ev_releaseSlot
    | with_reducible apply evo_next
    | intro)

theorem ev_stageSlot {s₀ s : State} (h₀ : Evolves s₀ s) (d : Nat) (c : Nat) (slot : Nat) :
    Evolves s₀ (State.stageSlot s d c slot).1 := by
  unfold State.stageSlot
  repeat' (first
    | with_reducible assumption
    | (extract_lets +onlyGivenNames x; first
        | ((have y : Nat := x); clear y; clear_value x)
        | subst x)
    | with_reducible apply ev_varSays
    | with_reducible apply ev_queueCooper
    | split)
theorem ev_stageSlot_eq {s₀ s : State} (h₀ : Evolves s₀ s) {d : Nat} {c : Nat} {slot : Nat} {r₀ : _} {u₀ : State}
    (e₀ : State.stageSlot s d c slot = (u₀, r₀)) : Evolves s₀ u₀ := by
  have x := ev_stageSlot h₀ d c slot
  rw [e₀] at x
  exact x

theorem ev_execStage {s₀ s : State} (h₀ : Evolves s₀ s) (v : View) (posted : Bool) (slot : BitVec 14) (gen : W16)
    (rsv : BitVec 30) :
    EvolvesOut s₀ (execStage v posted slot gen rsv s) := by
  unfold execStage
  repeat' (first
    | with_reducible assumption
    | with_reducible apply ev_varCmd
    | with_reducible apply ev_varGuard
    | with_reducible apply ev_stageSlot
    | with_reducible apply evo_next
    | intro)

theorem ev_unstageSlot {s₀ s : State} (h₀ : Evolves s₀ s) (c : Nat) (slot : Nat) :
    Evolves s₀ (State.unstageSlot s c slot).1 := by
  unfold State.unstageSlot
  repeat' (first
    | with_reducible assumption
    | (extract_lets +onlyGivenNames x; ((have y : Nat := x); clear y; clear_value x))
    | with_reducible apply ev_varSays
    | with_reducible apply ev_defer
    | split)
theorem ev_unstageSlot_eq {s₀ s : State} (h₀ : Evolves s₀ s) {c : Nat} {slot : Nat} {r₀ : _} {u₀ : State}
    (e₀ : State.unstageSlot s c slot = (u₀, r₀)) : Evolves s₀ u₀ := by
  have x := ev_unstageSlot h₀ c slot
  rw [e₀] at x
  exact x

theorem ev_execUnstage {s₀ s : State} (h₀ : Evolves s₀ s) (v : View) (posted : Bool) (slot : BitVec 14) (gen : W16)
    (rsv : BitVec 30) :
    EvolvesOut s₀ (execUnstage v posted slot gen rsv s) := by
  unfold execUnstage
  repeat' (first
    | with_reducible assumption
    | with_reducible apply ev_varCmd
    | with_reducible apply ev_varGuard
    | with_reducible apply ev_unstageSlot
    | with_reducible apply evo_next
    | intro)

theorem ev_querySlot {s₀ s : State} (h₀ : Evolves s₀ s) (d : Nat) (c : Nat) (slot : Nat) :
    Evolves s₀ (State.querySlot s d c slot).1 := by
  unfold State.querySlot
  repeat' (first
    | with_reducible assumption
    | (extract_lets +onlyGivenNames x; subst x)
    | with_reducible apply ev_varSays
    | with_reducible apply ev_putArg
    | with_reducible apply ev_foldl
    | split
    | intro)
theorem ev_querySlot_eq {s₀ s : State} (h₀ : Evolves s₀ s) {d : Nat} {c : Nat} {slot : Nat} {r₀ : _} {u₀ : State}
    (e₀ : State.querySlot s d c slot = (u₀, r₀)) : Evolves s₀ u₀ := by
  have x := ev_querySlot h₀ d c slot
  rw [e₀] at x
  exact x

theorem ev_execVarQuery {s₀ s : State} (h₀ : Evolves s₀ s) (v : View) (posted : Bool) (slot : BitVec 14) (gen : W16)
    (rsv : BitVec 30) :
    EvolvesOut s₀ (execVarQuery v posted slot gen rsv s) := by
  unfold execVarQuery
  repeat' (first
    | with_reducible assumption
    | (extract_lets +onlyGivenNames x; subst x)
    | with_reducible apply ev_varCmd
    | with_reducible apply ev_querySlot
    | with_reducible apply evo_next
    | intro)

theorem ev_flushSlot {s₀ s : State} (h₀ : Evolves s₀ s) (d : Nat) (slot : Nat) :
    Evolves s₀ (State.flushSlot s d slot).1 := by
  unfold State.flushSlot
  repeat' (first
    | with_reducible assumption
    | (extract_lets +onlyGivenNames x; subst x)
    | with_reducible apply ev_varSays
    | with_reducible apply ev_queueCooper
    | split)
theorem ev_flushSlot_eq {s₀ s : State} (h₀ : Evolves s₀ s) {d : Nat} {slot : Nat} {r₀ : _} {u₀ : State}
    (e₀ : State.flushSlot s d slot = (u₀, r₀)) : Evolves s₀ u₀ := by
  have x := ev_flushSlot h₀ d slot
  rw [e₀] at x
  exact x

theorem ev_execFlush {s₀ s : State} (h₀ : Evolves s₀ s) (v : View) (posted : Bool) (slot : BitVec 14) (gen : W16)
    (rsv : BitVec 30) :
    EvolvesOut s₀ (execFlush v posted slot gen rsv s) := by
  unfold execFlush
  repeat' (first
    | with_reducible assumption
    | with_reducible apply ev_varCmd
    | with_reducible apply ev_varGuard
    | with_reducible apply ev_flushSlot
    | with_reducible apply evo_next
    | intro)

theorem ev_expertClaim {s₀ s : State} (h₀ : Evolves s₀ s) (d : Nat) (c : Nat) (slot : Nat) (gen : W16) :
    Evolves s₀ (State.expertClaim s d c slot gen).1 := by
  unfold State.expertClaim
  repeat' (first
    | with_reducible assumption
    | (extract_lets +onlyGivenNames x; first
        | (refine (fun (hx : Evolves s₀ x) => ?_) ?_; (on_goal 1 => clear_value x); (on_goal 2 => subst x))
        | ((have y : Nat := x); clear y; clear_value x)
        | subst x)
    | with_reducible apply ev_varSays
    | with_reducible apply ev_bump
    | with_reducible apply ev_defer
    | with_reducible apply ev_updDom
    | with_reducible apply ev_foldl
    | split
    | with_reducible apply domMem_mk
    | dsimp only
    | intro)
theorem ev_expertClaim_eq {s₀ s : State} (h₀ : Evolves s₀ s) {d : Nat} {c : Nat} {slot : Nat} {gen : W16} {r₀ : _} {u₀ : State}
    (e₀ : State.expertClaim s d c slot gen = (u₀, r₀)) : Evolves s₀ u₀ := by
  have x := ev_expertClaim h₀ d c slot gen
  rw [e₀] at x
  exact x

theorem ev_execExpertClaim {s₀ s : State} (h₀ : Evolves s₀ s) (v : View) (posted : Bool) (slot : BitVec 14) (gen : W16)
    (rsv : BitVec 30) :
    EvolvesOut s₀ (execExpertClaim v posted slot gen rsv s) := by
  unfold execExpertClaim
  repeat' (first
    | with_reducible assumption
    | with_reducible apply ev_varCmd
    | with_reducible apply ev_expertClaim
    | with_reducible apply evo_next
    | intro)

theorem ev_expertRelease {s₀ s : State} (h₀ : Evolves s₀ s) (d : Nat) (c : Nat) :
    Evolves s₀ (State.expertRelease s d c).1 := by
  unfold State.expertRelease
  repeat' (first
    | with_reducible assumption
    | (extract_lets +onlyGivenNames x; first
        | ((have y : Nat := x); clear y; clear_value x)
        | subst x)
    | with_reducible apply ev_defer
    | split)
theorem ev_expertRelease_eq {s₀ s : State} (h₀ : Evolves s₀ s) {d : Nat} {c : Nat} {r₀ : _} {u₀ : State}
    (e₀ : State.expertRelease s d c = (u₀, r₀)) : Evolves s₀ u₀ := by
  have x := ev_expertRelease h₀ d c
  rw [e₀] at x
  exact x

theorem ev_execExpertRelease {s₀ s : State} (h₀ : Evolves s₀ s) (v : View) (posted : Bool) (slot : BitVec 14) (gen : W16)
    (rsv : BitVec 30) :
    EvolvesOut s₀ (execExpertRelease v posted slot gen rsv s) := by
  unfold execExpertRelease
  repeat' (first
    | with_reducible assumption
    | (extract_lets +onlyGivenNames x; subst x)
    | with_reducible apply ev_varCmd
    | with_reducible apply ev_expertRelease
    | with_reducible apply evo_next
    | intro)

theorem ev_writeExpert {s₀ s : State} (h₀ : Evolves s₀ s) (d : Nat) (k : Nat) :
    Evolves s₀ (State.writeExpert s d k) := by
  unfold State.writeExpert
  repeat' (first
    | with_reducible assumption
    | (extract_lets +onlyGivenNames x; first
        | ((have y : Nat := x); clear y; clear_value x)
        | subst x)
    | with_reducible apply ev_updDom
    | split
    | with_reducible apply domMem_mkAll
    | with_reducible apply memPut_wf
    | with_reducible apply domMem_mem
    | with_reducible apply domMem_savedOpbuf
    | with_reducible apply domMem_savedCommons
    | intro)

theorem ev_setExpert {s₀ s : State} (h₀ : Evolves s₀ s) (d : Nat) (k : Nat) (f : ExpertPos → ExpertPos) :
    Evolves s₀ (State.setExpert s d k f) := by
  unfold State.setExpert
  repeat' (first
    | with_reducible assumption
    | with_reducible apply ev_writeExpert
    | with_reducible apply ev_updDom
    | with_reducible apply domMem_updVar
    | intro)

theorem ev_execLoadComplete {s₀ s : State} (h₀ : Evolves s₀ s) (slot : BitVec 14) :
    EvolvesOut s₀ (execLoadComplete slot s) := by
  unfold execLoadComplete
  repeat' (first
    | with_reducible assumption
    | (extract_lets +onlyGivenNames x; first
        | (refine (fun (hx : Evolves s₀ x) => ?_) ?_; (on_goal 1 => clear_value x); (on_goal 2 => subst x))
        | ((have y : Nat := x); clear y; clear_value x)
        | subst x)
    | with_reducible apply ev_dropItems
    | with_reducible apply ev_defer
    | with_reducible apply ev_wrBuffer
    | with_reducible apply ev_foldl
    | with_reducible apply ev_foldl_fst
    | with_reducible apply ev_foldl_snd
    | (refine ev_foldl_fst_eq ?_ ?_ (by assumption))
    | (refine ev_foldl_snd_eq ?_ ?_ (by assumption))
    | split
    | with_reducible apply evo_next
    | dsimp only
    | intro)

theorem ev_abandonLoad {s₀ s : State} (h₀ : Evolves s₀ s) (d : Nat) (k : Nat) :
    Evolves s₀ (State.abandonLoad s d k) := by
  unfold State.abandonLoad
  repeat' (first
    | with_reducible assumption
    | with_reducible apply ev_dropItems
    | with_reducible apply ev_defer
    | split)

theorem ev_execLoadFailed {s₀ s : State} (h₀ : Evolves s₀ s) (slot : BitVec 14) :
    EvolvesOut s₀ (execLoadFailed slot s) := by
  unfold execLoadFailed
  repeat' (first
    | with_reducible assumption
    | (extract_lets +onlyGivenNames x; first
        | ((have y : Nat := x); clear y; clear_value x)
        | subst x)
    | with_reducible apply ev_abandonLoad
    | split
    | with_reducible apply evo_next)

theorem ev_execParkDone {s₀ s : State} (h₀ : Evolves s₀ s) (slot : BitVec 14) :
    EvolvesOut s₀ (execParkDone slot s) := by
  unfold execParkDone
  repeat' (first
    | with_reducible assumption
    | (extract_lets +onlyGivenNames x; first
        | ((have y : Nat := x); clear y; clear_value x)
        | subst x)
    | with_reducible apply ev_raiseDom
    | with_reducible apply ev_updSlot
    | with_reducible apply ev_dropItems
    | split
    | with_reducible apply evo_next)

theorem ev_execReleaseDone {s₀ s : State} (h₀ : Evolves s₀ s) (slot : BitVec 14) :
    EvolvesOut s₀ (execReleaseDone slot s) := by
  unfold execReleaseDone
  repeat' (first
    | with_reducible assumption
    | (extract_lets +onlyGivenNames x; first
        | ((have y : Nat := x); clear y; clear_value x)
        | subst x)
    | with_reducible apply ev_putSlot
    | with_reducible apply ev_dropItems
    | split
    | with_reducible apply evo_next)

theorem ev_execStageComplete {s₀ s : State} (h₀ : Evolves s₀ s) (slot : BitVec 14) :
    EvolvesOut s₀ (execStageComplete slot s) := by
  unfold execStageComplete
  repeat' (first
    | with_reducible assumption
    | (extract_lets +onlyGivenNames x; first
        | (refine (fun (hx : Evolves s₀ x) => ?_) ?_; (on_goal 1 => clear_value x); (on_goal 2 => subst x))
        | ((have y : Nat := x); clear y; clear_value x)
        | subst x)
    | with_reducible apply ev_updDom
    | with_reducible apply ev_defer
    | split
    | with_reducible apply evo_next
    | with_reducible apply domMem_mk
    | dsimp only
    | intro)

theorem ev_latchSlotLive {s₀ s : State} (h₀ : Evolves s₀ s) (k : Nat) :
    Evolves s₀ (State.latchSlotLive s k) := by
  unfold State.latchSlotLive
  repeat' (first
    | with_reducible assumption
    | (extract_lets +onlyGivenNames x; (refine (fun (hx : Evolves s₀ x) => ?_) ?_; (on_goal 1 => clear_value x); (on_goal 2 => subst x)))
    | with_reducible apply ev_updSlot
    | with_reducible apply ev_raiseDom
    | with_reducible apply ev_bump
    | split)

theorem ev_latchLoadFailed {s₀ s : State} (h₀ : Evolves s₀ s) (k : Nat) :
    Evolves s₀ (State.latchLoadFailed s k) := by
  unfold State.latchLoadFailed
  repeat' (first
    | with_reducible assumption
    | with_reducible apply ev_raiseDom
    | with_reducible apply ev_bump
    | with_reducible apply ev_updSlot
    | split)

theorem ev_queueWriteBack {s₀ s : State} (h₀ : Evolves s₀ s) (d : Nat) (k : Nat) :
    Evolves s₀ (State.queueWriteBack s d k) := by
  unfold State.queueWriteBack
  repeat' (first
    | with_reducible assumption
    | (extract_lets +onlyGivenNames x; first
        | subst x)
    | with_reducible apply ev_queueCooper
    | with_reducible apply ev_writeBack
    | split)

theorem ev_latchLeave {s₀ s : State} (h₀ : Evolves s₀ s) (k : Nat) (park : Bool) :
    Evolves s₀ (State.latchLeave s k park) := by
  unfold State.latchLeave
  repeat' (first
    | with_reducible assumption
    | (extract_lets +onlyGivenNames x; first
        | (refine (fun (hx : Evolves s₀ x) => ?_) ?_; (on_goal 1 => clear_value x); (on_goal 2 => subst x))
        | subst x)
    | with_reducible apply ev_updSlot
    | with_reducible apply ev_updDom
    | with_reducible apply ev_queueWriteBack
    | with_reducible apply ev_setExpert
    | with_reducible apply ev_foldl
    | with_reducible apply ev_foldl_fst
    | with_reducible apply ev_foldl_snd
    | (refine ev_foldl_fst_eq ?_ ?_ (by assumption))
    | (refine ev_foldl_snd_eq ?_ ?_ (by assumption))
    | split
    | with_reducible apply domMem_updVar
    | with_reducible apply domMem_mk
    | with_reducible exact domMem_dom (by assumption) _
    | dsimp only
    | intro)

theorem ev_putStaged {s₀ s : State} (h₀ : Evolves s₀ s) (d : Nat) (units : List Nat) (o : Nat) (l : List (List Byte × Bool)) :
    Evolves s₀ (State.putStaged s d units o l) := by
  induction l generalizing s o with
  | nil => exact h₀
  | cons a r ih =>
    refine ih ?_ _
    refine ev_foldl _ (fun t p h => ?_) _ h₀
    dsimp only
    split
    · exact ev_mk (ev_wrCommons h _ _)
    · exact ev_wrCommons h _ _

theorem ev_placeStaged {s₀ s : State} (h₀ : Evolves s₀ s) (d : Nat) (k : Nat) (c : Nat × List (List Byte × Bool)) :
    Evolves s₀ (State.placeStaged s d k c) := by
  unfold State.placeStaged
  repeat' (first
    | with_reducible assumption
    | (extract_lets +onlyGivenNames x; first
        | subst x)
    | with_reducible apply ev_pickFree
    | (refine ev_pickFree_eq ?_ (by assumption))
    | with_reducible apply ev_putStaged
    | with_reducible apply ev_updSlot
    | split)

theorem ev_latchStaged {s₀ s : State} (h₀ : Evolves s₀ s) (k : Nat) (mask : W16) (ver : W32) (copies : List (Nat × List (List Byte × Bool))) :
    Evolves s₀ (State.latchStaged s k mask ver copies) := by
  unfold State.latchStaged
  repeat' (first
    | with_reducible assumption
    | with_reducible apply ev_defer
    | with_reducible apply ev_placeStaged
    | with_reducible apply ev_updSlot
    | with_reducible apply ev_foldl
    | with_reducible apply ev_foldl_fst
    | with_reducible apply ev_foldl_snd
    | (refine ev_foldl_fst_eq ?_ ?_ (by assumption))
    | (refine ev_foldl_snd_eq ?_ ?_ (by assumption))
    | split
    | with_reducible apply ev_mk
    | dsimp only
    | intro)

theorem ev_latchUnstage {s₀ s : State} (h₀ : Evolves s₀ s) (k : Nat) (mask : W16) :
    Evolves s₀ (State.latchUnstage s k mask) := by
  unfold State.latchUnstage
  repeat' (first
    | with_reducible assumption
    | with_reducible apply ev_defer
    | with_reducible apply ev_updSlot
    | split)

theorem ev_loseStaged {s₀ s : State} (h₀ : Evolves s₀ s) (d : Nat) :
    Evolves s₀ (State.loseStaged s d) := by
  unfold State.loseStaged
  repeat' (first
    | with_reducible assumption
    | split
    | with_reducible apply ev_mk)

theorem ev_restageLost {s₀ s : State} (h₀ : Evolves s₀ s) (d : Nat) :
    Evolves s₀ (State.restageLost s d) := by
  unfold State.restageLost
  repeat' (first
    | with_reducible assumption
    | (extract_lets +onlyGivenNames x; first
        | subst x)
    | with_reducible apply ev_updSlot
    | with_reducible apply ev_queueCooper
    | with_reducible apply ev_foldl
    | with_reducible apply ev_foldl_fst
    | with_reducible apply ev_foldl_snd
    | (refine ev_foldl_fst_eq ?_ ?_ (by assumption))
    | (refine ev_foldl_snd_eq ?_ ?_ (by assumption))
    | split
    | with_reducible apply ev_mk
    | dsimp only
    | intro)

theorem ev_releaseStamp {s₀ s : State} (h₀ : Evolves s₀ s) (slot : Nat) (ver : W32) :
    Evolves s₀ (State.releaseStamp s slot ver) := by
  unfold State.releaseStamp
  repeat' (first
    | with_reducible assumption
    | with_reducible apply ev_updSlot)

theorem ev_commitSlot {s₀ s : State} (h₀ : Evolves s₀ s) (k : Nat) :
    Evolves s₀ (State.commitSlot s k) := by
  unfold State.commitSlot
  repeat' (first
    | with_reducible assumption
    | (extract_lets +onlyGivenNames x; first
        | (refine (fun (hx : Evolves s₀ x) => ?_) ?_; (on_goal 1 => clear_value x); (on_goal 2 => subst x))
        | subst x)
    | with_reducible apply ev_updSlot
    | with_reducible apply ev_queueWriteBack
    | with_reducible apply ev_queueCooper
    | split)

theorem ev_applyCommits {s₀ s : State} (h₀ : Evolves s₀ s)  :
    Evolves s₀ (State.applyCommits s) := by
  unfold State.applyCommits
  repeat' (first
    | with_reducible assumption
    | with_reducible apply ev_commitSlot
    | with_reducible apply ev_foldl
    | intro)

theorem ev_clearOldHeld {s₀ s : State} (h₀ : Evolves s₀ s)  :
    Evolves s₀ (State.clearOldHeld s) := by
  unfold State.clearOldHeld
  repeat' (first
    | with_reducible assumption
    | split
    | with_reducible apply ev_mkAll
    | with_reducible apply slotMem_mkAll
    | with_reducible exact fuses_same _
    | with_reducible exact lks_same _
    | with_reducible exact Nat.le_refl _
    | with_reducible exact MemoryWf.msix
    | with_reducible exact images_wf
    | with_reducible exact MemoryWf.doms
    | with_reducible exact MemoryWf.commons
    | with_reducible exact MemoryWf.opbuf)

end Sys2Proof.Laws
end

