-- ==== Sys2Proof/Laws/EvolveTier.lean ====
section
/-! SUPPORT. The operations of Machine/Tier.lean evolve the state: from Evolves s₀ s, Evolves s₀ of what the operation makes of s. -/

namespace Sys2Proof.Laws

open Sys2Proof.Machine Sys2Proof.Safety

theorem domMem_flushOver {x : Dom} (h : DomMem x) : DomMem x.flushOver := h

theorem domMem_shiftFrom {x : Dom} (h : DomMem x) (w : Slab) (ns : Nat) : DomMem (Dom.shiftFrom x w ns) := by
  unfold Dom.shiftFrom
  repeat' (first
    | with_reducible assumption
    | split
    | with_reducible apply domMem_mk)

theorem domMem_shiftFromDev {x : Dom} (h : DomMem x) (k : DevSlab) (ns : Nat) : DomMem (Dom.shiftFromDev x k ns) := by
  unfold Dom.shiftFromDev
  repeat' (first
    | with_reducible assumption
    | split
    | with_reducible apply domMem_mk)

theorem domMem_stallOn {x : Dom} (h : DomMem x) (p : Nat) (ns : Nat) : DomMem (Dom.stallOn x p ns) := by
  unfold Dom.stallOn
  repeat' (first
    | with_reducible assumption
    | with_reducible apply domMem_shiftFrom
    | with_reducible apply domMem_shiftFromDev
    | split)

theorem domMem_delivered {x : Dom} (h : DomMem x) (f : Nat → Bool) : DomMem (x.delivered f) := h

theorem domMem_flashFails {x : Dom} (h : DomMem x) (p : Nat) : DomMem (x.flashFails p) := h

theorem ev_updHome {s₀ s : State} (h₀ : Evolves s₀ s) (d : Nat) (p : Nat) (f : PageEntry → PageEntry) :
    Evolves s₀ (State.updHome s d p f) := by
  unfold State.updHome
  repeat' (first
    | with_reducible assumption
    | (extract_lets +onlyGivenNames x; subst x)
    | with_reducible apply ev_updDom
    | with_reducible apply domMem_putEntry
    | intro)

theorem ev_queueTier {s₀ s : State} (h₀ : Evolves s₀ s) (d : Nat) (i : TierItem) :
    Evolves s₀ (State.queueTier s d i) := by
  unfold State.queueTier
  repeat' (first
    | with_reducible assumption
    | with_reducible apply ev_updDom
    | with_reducible apply domMem_mk
    | dsimp only
    | intro)

theorem ev_setPin {s₀ s : State} (h₀ : Evolves s₀ s) (d : Nat) (p : Nat) (n : Nat) :
    Evolves s₀ (State.setPin s d p n) := by
  unfold State.setPin
  repeat' (first
    | with_reducible assumption
    | with_reducible apply ev_updDom
    | with_reducible apply domMem_putEntry
    | dsimp only
    | intro)

theorem ev_moveUpPage {s₀ s : State} (h₀ : Evolves s₀ s) (d : Nat) (p : Nat) :
    Evolves s₀ (State.moveUpPage s d p).1 := by
  unfold State.moveUpPage
  repeat' (first
    | with_reducible assumption
    | with_reducible apply ev_queueTier
    | split)
theorem ev_moveUpPage_eq {s₀ s : State} (h₀ : Evolves s₀ s) {d : Nat} {p : Nat} {r₀ : _} {u₀ : State}
    (e₀ : State.moveUpPage s d p = (u₀, r₀)) : Evolves s₀ u₀ := by
  have x := ev_moveUpPage h₀ d p
  rw [e₀] at x
  exact x

theorem ev_evictPage {s₀ s : State} (h₀ : Evolves s₀ s) (d : Nat) (p : Nat) :
    Evolves s₀ (State.evictPage s d p).1 := by
  unfold State.evictPage
  repeat' (first
    | with_reducible assumption
    | with_reducible apply ev_queueTier
    | split)
theorem ev_evictPage_eq {s₀ s : State} (h₀ : Evolves s₀ s) {d : Nat} {p : Nat} {r₀ : _} {u₀ : State}
    (e₀ : State.evictPage s d p = (u₀, r₀)) : Evolves s₀ u₀ := by
  have x := ev_evictPage h₀ d p
  rw [e₀] at x
  exact x

theorem ev_pinPage {s₀ s : State} (h₀ : Evolves s₀ s) (d : Nat) (p : Nat) :
    Evolves s₀ (State.pinPage s d p).1 := by
  unfold State.pinPage
  repeat' (first
    | with_reducible assumption
    | (extract_lets +onlyGivenNames x; first
        | (refine (fun (hx : Evolves s₀ x) => ?_) ?_; (on_goal 1 => clear_value x); (on_goal 2 => subst x))
        | subst x)
    | with_reducible apply ev_setPin
    | with_reducible apply ev_queueTier
    | split)
theorem ev_pinPage_eq {s₀ s : State} (h₀ : Evolves s₀ s) {d : Nat} {p : Nat} {r₀ : _} {u₀ : State}
    (e₀ : State.pinPage s d p = (u₀, r₀)) : Evolves s₀ u₀ := by
  have x := ev_pinPage h₀ d p
  rw [e₀] at x
  exact x

theorem ev_unpinPage {s₀ s : State} (h₀ : Evolves s₀ s) (d : Nat) (p : Nat) :
    Evolves s₀ (State.unpinPage s d p).1 := by
  unfold State.unpinPage
  repeat' (first
    | with_reducible assumption
    | (extract_lets +onlyGivenNames x; subst x)
    | with_reducible apply ev_setPin
    | split)
theorem ev_unpinPage_eq {s₀ s : State} (h₀ : Evolves s₀ s) {d : Nat} {p : Nat} {r₀ : _} {u₀ : State}
    (e₀ : State.unpinPage s d p = (u₀, r₀)) : Evolves s₀ u₀ := by
  have x := ev_unpinPage h₀ d p
  rw [e₀] at x
  exact x

theorem ev_discardPage {s₀ s : State} (h₀ : Evolves s₀ s) (d : Nat) (p : Nat) :
    Evolves s₀ (State.discardPage s d p).1 := by
  unfold State.discardPage
  repeat' (first
    | with_reducible assumption
    | with_reducible apply ev_defer
    | split)
theorem ev_discardPage_eq {s₀ s : State} (h₀ : Evolves s₀ s) {d : Nat} {p : Nat} {r₀ : _} {u₀ : State}
    (e₀ : State.discardPage s d p = (u₀, r₀)) : Evolves s₀ u₀ := by
  have x := ev_discardPage h₀ d p
  rw [e₀] at x
  exact x

theorem ev_relocatePage {s₀ s : State} (h₀ : Evolves s₀ s) (d : Nat) (p : Nat) (frame : Nat) :
    Evolves s₀ (State.relocatePage s d p frame).1 := by
  unfold State.relocatePage
  repeat' (first
    | with_reducible assumption
    | (extract_lets +onlyGivenNames x; first
        | subst x)
    | with_reducible apply ev_updDom
    | with_reducible apply ev_defer
    | split
    | with_reducible apply domMem_mk
    | with_reducible exact domMem_dom (by assumption) _
    | dsimp only
    | intro)
theorem ev_relocatePage_eq {s₀ s : State} (h₀ : Evolves s₀ s) {d : Nat} {p : Nat} {frame : Nat} {r₁ : _} {u₀ : State}
    (e₀ : State.relocatePage s d p frame = (u₀, r₁)) : Evolves s₀ u₀ := by
  have x := ev_relocatePage h₀ d p frame
  rw [e₀] at x
  exact x

theorem ev_tierPages {s₀ : State} (d : Nat) (act : State → Nat → State × Nat)
    (ha : ∀ t p, Evolves s₀ t → Evolves s₀ (act t p).1) :
    ∀ (n p left moved : Nat) {s : State}, Evolves s₀ s → Evolves s₀ (s.tierPages d act n p left moved).1
  | 0, _, _, _, _, h => h
  | n + 1, p, left, moved, s, h => by
    unfold State.tierPages
    split
    · exact h
    · dsimp only
      split
      · exact ev_tierPages d act ha n _ _ _ (ha _ _ h)
      · exact ha _ _ h

theorem ev_tirCmd {s₀ s : State} (h₀ : Evolves s₀ s) (v : View) (posted : Bool) (op page count rsv : Nat)
    (act : Nat → State → Nat → State × Nat) (ha : ∀ d t p, Evolves s₀ t → Evolves s₀ (act d t p).1) :
    Evolves s₀ (s.tirCmd v posted op page count rsv act) := by
  unfold State.tirCmd
  refine ev_runCmd h₀ _ _ _ _ ?_
  dsimp only
  split
  · exact h₀
  · exact ev_tierPages _ _ (ha _) _ _ _ _ h₀

theorem ev_execMoveUp {s₀ s : State} (h₀ : Evolves s₀ s) (v : View) (posted : Bool) (page : BitVec 27) (count : W16)
    (rsv : BitVec 17) :
    EvolvesOut s₀ (execMoveUp v posted page count rsv s) := by
  unfold execMoveUp
  repeat' (first
    | with_reducible assumption
    | with_reducible apply ev_tirCmd
    | with_reducible apply ev_moveUpPage
    | with_reducible apply evo_next
    | intro)

theorem ev_execEvict {s₀ s : State} (h₀ : Evolves s₀ s) (v : View) (posted : Bool) (page : BitVec 27) (count : W16)
    (rsv : BitVec 17) :
    EvolvesOut s₀ (execEvict v posted page count rsv s) := by
  unfold execEvict
  repeat' (first
    | with_reducible assumption
    | with_reducible apply ev_tirCmd
    | with_reducible apply ev_evictPage
    | with_reducible apply evo_next
    | intro)

theorem ev_execPin {s₀ s : State} (h₀ : Evolves s₀ s) (v : View) (posted : Bool) (page : BitVec 27) (count : W16)
    (rsv : BitVec 17) :
    EvolvesOut s₀ (execPin v posted page count rsv s) := by
  unfold execPin
  repeat' (first
    | with_reducible assumption
    | with_reducible apply ev_tirCmd
    | with_reducible apply ev_pinPage
    | with_reducible apply evo_next
    | intro)

theorem ev_execUnpin {s₀ s : State} (h₀ : Evolves s₀ s) (v : View) (posted : Bool) (page : BitVec 27) (count : W16)
    (rsv : BitVec 17) :
    EvolvesOut s₀ (execUnpin v posted page count rsv s) := by
  unfold execUnpin
  repeat' (first
    | with_reducible assumption
    | with_reducible apply ev_tirCmd
    | with_reducible apply ev_unpinPage
    | with_reducible apply evo_next
    | intro)

theorem ev_execTirQuery {s₀ s : State} (h₀ : Evolves s₀ s) (v : View) (posted : Bool) (page : BitVec 27) (count : W16)
    (rsv : BitVec 17) :
    EvolvesOut s₀ (execTirQuery v posted page count rsv s) := by
  unfold execTirQuery
  repeat' (first
    | with_reducible assumption
    | (extract_lets +onlyGivenNames x; ((have y : Nat := x); clear y; clear_value x))
    | with_reducible apply ev_runCmd
    | with_reducible apply ev_putArg
    | split
    | with_reducible apply evo_next)

theorem ev_execDiscard {s₀ s : State} (h₀ : Evolves s₀ s) (v : View) (posted : Bool) (page : BitVec 27) (count : W16)
    (rsv : BitVec 17) :
    EvolvesOut s₀ (execDiscard v posted page count rsv s) := by
  unfold execDiscard
  repeat' (first
    | with_reducible assumption
    | with_reducible apply ev_tirCmd
    | with_reducible apply ev_discardPage
    | with_reducible apply evo_next
    | intro)

theorem ev_execRelocate {s₀ s : State} (h₀ : Evolves s₀ s) (v : View) (posted : Bool) (page : BitVec 27) (count : W16)
    (rsv : BitVec 17) :
    EvolvesOut s₀ (execRelocate v posted page count rsv s) := by
  unfold execRelocate
  repeat' (first
    | with_reducible assumption
    | with_reducible apply ev_tirCmd
    | with_reducible apply ev_relocatePage
    | split
    | with_reducible apply ev_mk
    | with_reducible apply evo_next
    | dsimp only
    | intro)

theorem ev_execFlushExtent {s₀ s : State} (h₀ : Evolves s₀ s) (v : View) (posted : Bool) (page : BitVec 27) (count : W16)
    (rsv : BitVec 17) :
    EvolvesOut s₀ (execFlushExtent v posted page count rsv s) := by
  unfold execFlushExtent
  repeat' (first
    | with_reducible assumption
    | (extract_lets +onlyGivenNames x; first
        | ((have y : Nat := x); clear y; clear_value x)
        | subst x)
    | with_reducible apply ev_runCmd
    | with_reducible apply ev_updDom
    | split
    | with_reducible apply evo_next
    | with_reducible apply domMem_mk
    | dsimp only
    | intro)

theorem ev_nvme {s₀ s : State} (h₀ : Evolves s₀ s) (d : Nat) (op : Nat) (page : Nat) :
    Evolves s₀ (State.nvme s d op page) := by
  unfold State.nvme
  repeat' (first
    | with_reducible assumption
    | (extract_lets +onlyGivenNames x; (refine (fun (hx : Evolves s₀ x) => ?_) ?_; (on_goal 1 => clear_value x); (on_goal 2 => subst x)))
    | with_reducible apply ev_emit
    | with_reducible apply ev_bump
    | split)

theorem ev_unflushed {s₀ s : State} (h₀ : Evolves s₀ s) (h : Nat × Nat) :
    Evolves s₀ (State.unflushed s h) := by
  unfold State.unflushed
  repeat' (first
    | with_reducible assumption
    | with_reducible apply ev_updDom
    | with_reducible apply ev_foldl
    | with_reducible apply ev_foldl_fst
    | with_reducible apply ev_foldl_snd
    | (refine ev_foldl_fst_eq ?_ ?_ (by assumption))
    | (refine ev_foldl_snd_eq ?_ ?_ (by assumption))
    | split
    | with_reducible apply domMem_mk
    | with_reducible exact domMem_dom (by assumption) _
    | with_reducible apply ev_mk
    | dsimp only
    | intro)

theorem ev_execFlushIssue {s₀ s : State} (h₀ : Evolves s₀ s) (d : Fin 64) :
    EvolvesOut s₀ (execFlushIssue d s) := by
  unfold execFlushIssue
  repeat' (first
    | with_reducible assumption
    | (extract_lets +onlyGivenNames x; subst x)
    | with_reducible apply ev_nvme
    | with_reducible apply ev_updDom
    | split
    | with_reducible apply evo_next
    | with_reducible apply domMem_mk
    | dsimp only
    | intro)

theorem ev_flushFails {s₀ s : State} (h₀ : Evolves s₀ s) (d : Nat) :
    Evolves s₀ (State.flushFails s d) := by
  unfold State.flushFails
  repeat' (first
    | with_reducible assumption
    | (extract_lets +onlyGivenNames x; subst x)
    | with_reducible apply ev_raiseDom
    | with_reducible apply ev_bump
    | with_reducible apply ev_updDom
    | with_reducible apply ev_nvme
    | split
    | with_reducible apply domMem_flushOver
    | with_reducible apply domMem_mk
    | dsimp only
    | intro)

theorem ev_execFlushDone {s₀ s : State} (h₀ : Evolves s₀ s) (d : Fin 64) (ok : Bool) :
    EvolvesOut s₀ (execFlushDone d ok s) := by
  unfold execFlushDone
  repeat' (first
    | with_reducible assumption
    | with_reducible apply ev_raiseDom
    | with_reducible apply ev_updDom
    | with_reducible apply ev_flushFails
    | split
    | with_reducible apply domMem_flushOver
    | with_reducible apply evo_next)

theorem ev_stallBy {s₀ s : State} (h₀ : Evolves s₀ s) (d code : Nat) (counter : Option Nat) (ns : Nat) (waits : Dom → Dom)
    (hw : ∀ x, DomMem x → DomMem (waits x)) : Evolves s₀ (State.stallBy s d code counter ns waits) := by
  unfold State.stallBy
  refine ev_updDom ?_ _ _ hw
  split
  · exact ev_bump (ev_addStretch h₀ _ _ _) _ _ _ _
  · exact ev_addStretch h₀ _ _ _

theorem ev_flashStall {s₀ s : State} (h₀ : Evolves s₀ s) (d code : Nat) (counter page : Option Nat) (ns : Nat) :
    Evolves s₀ (State.flashStall s d code counter page ns) := by
  refine ev_stallBy h₀ _ _ _ _ _ (fun x hx => ?_)
  split
  · exact domMem_stallOn hx _ _
  · exact hx

theorem ev_takeMigEntry {s₀ s : State} (h₀ : Evolves s₀ s) (d : Nat) (p : Nat) :
    Evolves s₀ (State.takeMigEntry s d p) := by
  unfold State.takeMigEntry
  repeat' (first
    | with_reducible assumption
    | with_reducible apply ev_updDom
    | split
    | with_reducible apply domMem_mk
    | dsimp only
    | intro)

theorem ev_startTransfer {s₀ s : State} (h₀ : Evolves s₀ s) (d : Nat) (p : Nat) (op : Nat) :
    Evolves s₀ (State.startTransfer s d p op) := by
  unfold State.startTransfer
  repeat' (first
    | with_reducible assumption
    | (extract_lets +onlyGivenNames x; (refine (fun (hx : Evolves s₀ x) => ?_) ?_; (on_goal 1 => clear_value x); (on_goal 2 => subst x)))
    | with_reducible apply ev_takeMigEntry
    | with_reducible apply ev_nvme
    | split)

theorem ev_freeEntry {s₀ s : State} (h₀ : Evolves s₀ s) (d : Nat) (p : Nat) :
    Evolves s₀ (State.freeEntry s d p) := by
  unfold State.freeEntry
  repeat' (first
    | with_reducible assumption
    | with_reducible apply ev_updDom
    | with_reducible apply ev_nvme
    | with_reducible apply ev_flashStall
    | split
    | with_reducible apply domMem_mk
    | dsimp only
    | intro)

theorem ev_pickFrame {s₀ s : State} (h₀ : Evolves s₀ s) (d : Nat) :
    Evolves s₀ (State.pickFrame s d).2 := by
  unfold State.pickFrame
  repeat' (first
    | with_reducible assumption
    | (extract_lets +onlyGivenNames x; first
        | subst x)
    | with_reducible apply ev_takeFree
    | (refine ev_takeFree_eq ?_ (by assumption))
    | with_reducible apply ev_updDom
    | split
    | with_reducible apply domMem_mk
    | with_reducible exact domMem_dom (by assumption) _
    | dsimp only
    | intro)
theorem ev_pickFrame_eq {s₀ s : State} (h₀ : Evolves s₀ s) {d : Nat} {r₀ : _} {u₀ : State}
    (e₀ : State.pickFrame s d = (r₀, u₀)) : Evolves s₀ u₀ := by
  have x := ev_pickFrame h₀ d
  rw [e₀] at x
  exact x

theorem ev_startUp {s₀ s : State} (h₀ : Evolves s₀ s) (d : Nat) (p : Nat) :
    Evolves s₀ (State.startUp s d p).1 := by
  unfold State.startUp
  repeat' (first
    | with_reducible assumption
    | (extract_lets +onlyGivenNames x; first
        | (refine (fun (hx : Evolves s₀ x) => ?_) ?_; (on_goal 1 => clear_value x); (on_goal 2 => subst x))
        | subst x)
    | with_reducible apply ev_pickFrame
    | (refine ev_pickFrame_eq ?_ (by assumption))
    | with_reducible apply ev_updHome
    | with_reducible apply ev_bump
    | with_reducible apply ev_defer
    | with_reducible apply ev_startTransfer
    | split)
theorem ev_startUp_eq {s₀ s : State} (h₀ : Evolves s₀ s) {d : Nat} {p : Nat} {r₁ : _} {u₀ : State}
    (e₀ : State.startUp s d p = (u₀, r₁)) : Evolves s₀ u₀ := by
  have x := ev_startUp h₀ d p
  rw [e₀] at x
  exact x

theorem ev_startDown {s₀ s : State} (h₀ : Evolves s₀ s) (d : Nat) (p : Nat) :
    Evolves s₀ (State.startDown s d p) := by
  unfold State.startDown
  repeat' (first
    | with_reducible assumption
    | (extract_lets +onlyGivenNames x; first
        | (refine (fun (hx : Evolves s₀ x) => ?_) ?_; (on_goal 1 => clear_value x); (on_goal 2 => subst x))
        | subst x)
    | with_reducible apply ev_bump
    | with_reducible apply ev_updDom
    | with_reducible apply ev_updHome
    | with_reducible apply ev_unflushed
    | with_reducible apply ev_startTransfer
    | split
    | with_reducible apply domMem_freeFrame
    | with_reducible apply domMem_putEntry
    | with_reducible apply domMem_mk
    | with_reducible exact domMem_dom (by assumption) _
    | dsimp only
    | intro)

theorem ev_readPage {s₀ s : State} (h₀ : Evolves s₀ s) (d : Nat) (p : Nat) :
    Evolves s₀ (State.readPage s d p) := by
  unfold State.readPage
  repeat' (first
    | with_reducible assumption
    | with_reducible apply ev_startTransfer
    | with_reducible apply ev_startUp
    | (refine ev_startUp_eq ?_ (by assumption))
    | split)

theorem ev_served {s₀ s : State} (h₀ : Evolves s₀ s) (d : Nat) (p : Nat) :
    Evolves s₀ (State.served s d p) :=
  ev_foldl _ (fun t y h => ev_updDom h _ _ (fun x hx => domMem_delivered hx _)) _ h₀

theorem ev_readAgain {s₀ s : State} (h₀ : Evolves s₀ s) (d : Nat) (h : Nat × Nat) :
    Evolves s₀ (State.readAgain s d h) := by
  unfold State.readAgain
  repeat' (first
    | with_reducible assumption
    | with_reducible apply ev_readPage
    | with_reducible apply ev_foldl
    | with_reducible apply ev_foldl_fst
    | with_reducible apply ev_foldl_snd
    | (refine ev_foldl_fst_eq ?_ ?_ (by assumption))
    | (refine ev_foldl_snd_eq ?_ ?_ (by assumption))
    | split
    | with_reducible apply ev_mk
    | dsimp only
    | intro)

theorem ev_homeFails {s₀ s : State} (h₀ : Evolves s₀ s) (d : Nat) (p : Nat) :
    Evolves s₀ (State.homeFails s d p) := by
  unfold State.homeFails
  repeat' (first
    | with_reducible assumption
    | with_reducible apply ev_abandonLoad
    | with_reducible apply ev_foldl
    | with_reducible apply ev_foldl_fst
    | with_reducible apply ev_foldl_snd
    | (refine ev_foldl_fst_eq ?_ ?_ (by assumption))
    | (refine ev_foldl_snd_eq ?_ ?_ (by assumption))
    | split
    | with_reducible apply ev_mk
    | dsimp only
    | intro)

theorem ev_transferFails {s₀ s : State} (h₀ : Evolves s₀ s) (d : Nat) (p : Nat) (code : Nat) (ns : Nat) :
    Evolves s₀ (State.transferFails s d p code ns) := by
  unfold State.transferFails
  repeat' (first
    | with_reducible assumption
    | (extract_lets +onlyGivenNames x; first
        | (refine (fun (hx : Evolves s₀ x) => ?_) ?_; (on_goal 1 => clear_value x); (on_goal 2 => subst x))
        | ((have y : Bool := x); clear y; clear_value x)
        | subst x)
    | with_reducible apply ev_updDom
    | with_reducible apply ev_nvme
    | with_reducible apply ev_updHome
    | with_reducible apply ev_flashStall
    | with_reducible apply ev_freeEntry
    | with_reducible apply ev_unflushed
    | with_reducible apply ev_readAgain
    | with_reducible apply ev_homeFails
    | with_reducible apply ev_bump
    | with_reducible apply ev_raiseDom
    | split
    | with_reducible apply domMem_freeFrame
    | with_reducible apply domMem_flashFails
    | with_reducible apply domMem_mk
    | with_reducible exact domMem_dom (by assumption) _
    | dsimp only
    | intro)

theorem ev_sweepTagFails {s₀ s : State} (h₀ : Evolves s₀ s) (d : Nat) (p : Nat) :
    Evolves s₀ (State.sweepTagFails s d p) := by
  unfold State.sweepTagFails
  repeat' (first
    | with_reducible assumption
    | (extract_lets +onlyGivenNames x; subst x)
    | with_reducible apply ev_raiseDom
    | with_reducible apply ev_bump
    | with_reducible apply ev_updDom
    | split
    | with_reducible apply domMem_updKeys
    | intro)

theorem ev_execPageReadDone {s₀ s0 : State} (h₀ : Evolves s₀ s0) (d : Fin 64) (page : Nat) (returned : Option (List Byte)) (nowNs : Nat) :
    EvolvesOut s₀ (execPageReadDone d page returned nowNs s0) := by
  unfold execPageReadDone
  repeat' (first
    | with_reducible assumption
    | (extract_lets +onlyGivenNames x; first
        | (refine (fun (hx : Evolves s₀ x) => ?_) ?_; (on_goal 1 => clear_value x); (on_goal 2 => subst x))
        | ((have y : Nat := x); clear y; clear_value x)
        | ((have y : Bool := x); clear y; clear_value x)
        | subst x)
    | with_reducible apply ev_atTime
    | with_reducible apply ev_sweepTagFails
    | with_reducible apply ev_flashStall
    | with_reducible apply ev_transferFails
    | with_reducible apply ev_served
    | with_reducible apply ev_defer
    | with_reducible apply ev_freeEntry
    | split
    | with_reducible apply evo_next)

theorem ev_execPageWriteDone {s₀ s : State} (h₀ : Evolves s₀ s) (d : Fin 64) (page : Nat) :
    EvolvesOut s₀ (execPageWriteDone d page s) := by
  unfold execPageWriteDone
  repeat' (first
    | with_reducible assumption
    | (extract_lets +onlyGivenNames x; first
        | subst x)
    | with_reducible apply ev_defer
    | with_reducible apply ev_unflushed
    | with_reducible apply ev_freeEntry
    | split
    | with_reducible apply evo_next)

theorem ev_execRootPortLinkUp {s₀ s : State} (h₀ : Evolves s₀ s) (link : Fin 2) (speed : Nat) (width : Nat) :
    EvolvesOut s₀ (execRootPortLinkUp link speed width s) := by
  unfold execRootPortLinkUp
  repeat' (first
    | with_reducible assumption
    | (extract_lets +onlyGivenNames x; subst x)
    | split
    | with_reducible apply ev_mk
    | with_reducible apply evo_next)

end Sys2Proof.Laws
end

