-- ==== Sys2Proof/Laws/EvolveMigration.lean ====
section
/-! SUPPORT. The operations of Machine/Migration.lean evolve the state: from Evolves s₀ s, Evolves s₀ of what the operation makes of s. -/

namespace Sys2Proof.Laws

open Sys2Proof.Machine Sys2Proof.Safety

theorem ev_runHint {s₀ s : State} (h₀ : Evolves s₀ s) (d : Nat) (ws : List W64) : Evolves s₀ (s.runHint d ws).st := by
  unfold State.runHint
  dsimp only
  split
  · exact h₀
  · refine ev_tierPages _ _ (fun t p h => ?_) _ _ _ _ h₀
    split
    · exact ev_moveUpPage h _ _
    · exact ev_evictPage h _ _
    · exact ev_pinPage h _ _
    · exact ev_unpinPage h _ _

theorem ev_wrSide {s₀ s : State} (h₀ : Evolves s₀ s) (d : Nat) (space : Nat) (a : Nat) (bs : List Byte) :
    Evolves s₀ (State.wrSide s d space a bs) := by
  unfold State.wrSide
  repeat' (first
    | with_reducible assumption
    | with_reducible apply ev_wrMem
    | with_reducible apply ev_wrCommons
    | split)

theorem ev_runMove {s₀ s : State} (h₀ : Evolves s₀ s) (d : Nat) (b : MoveBody) :
    Evolves s₀ (State.runMove s d b).st := by
  unfold State.runMove
  repeat' (first
    | with_reducible assumption
    | (extract_lets +onlyGivenNames x; subst x)
    | with_reducible apply ev_wrMem
    | split)

theorem ev_runSeal {s₀ s : State} (h₀ : Evolves s₀ s) (d : Nat) (b : MoveBody) :
    Evolves s₀ (State.runSeal s d b).st := by
  unfold State.runSeal
  repeat' (first
    | with_reducible assumption
    | (extract_lets +onlyGivenNames x; first
        | ((have y : Nat := x); clear y; clear_value x)
        | subst x)
    | with_reducible apply ev_takeDraw
    | with_reducible apply ev_wrSide
    | split)

theorem ev_runUnseal {s₀ s : State} (h₀ : Evolves s₀ s) (d : Nat) (b : MoveBody) :
    Evolves s₀ (State.runUnseal s d b).st := by
  unfold State.runUnseal
  repeat' (first
    | with_reducible assumption
    | (extract_lets +onlyGivenNames x; first
        | ((have y : Nat := x); clear y; clear_value x)
        | ((have y : List Byte := x); clear y; clear_value x)
        | subst x)
    | with_reducible apply ev_wrSide
    | with_reducible apply ev_takeFree
    | split)

theorem domMem_scrubPages {x : Dom} (h : DomMem x) (ps : List Nat) : DomMem (x.scrubPages ps) :=
  foldl_keeps DomMem _ (fun _ _ hy => domMem_wipePage hy _ _) _ h

theorem ev_runScrub {s₀ s : State} (h₀ : Evolves s₀ s) (ws : List W64) : Evolves s₀ (s.runScrub ws).st := by
  unfold State.runScrub
  dsimp only
  split
  · exact h₀
  · exact ev_updDom h₀ 0 _ (fun x hx => domMem_scrubPages hx _)

theorem ev_runMigration {s₀ s : State} (h₀ : Evolves s₀ s) (d : Nat) (ws : List W64) :
    Evolves s₀ (State.runMigration s d ws).st := by
  unfold State.runMigration
  repeat' (first
    | with_reducible assumption
    | with_reducible apply ev_runHint
    | with_reducible apply ev_runSeal
    | with_reducible apply ev_runUnseal
    | with_reducible apply ev_runMove
    | split)

end Sys2Proof.Laws
end

