-- ==== Sys2Proof/Laws/EvolveArrive.lean ====
section
/-! SUPPORT. The operations of Machine/Arrive.lean evolve the state: from Evolves s₀ s, Evolves s₀ of what the operation makes of s. -/

namespace Sys2Proof.Laws

open Sys2Proof.Machine Sys2Proof.Safety

theorem domMem_updSlab {x : Dom} (h : DomMem x) (order : Nat) (f : Slab → Slab) : DomMem (x.updSlab order f) := h

theorem ev_noteUnloaded {s₀ s : State} (h₀ : Evolves s₀ s) (d : Nat) (order : Nat) (ws : List W64) :
    Evolves s₀ (State.noteUnloaded s d order ws) := by
  unfold State.noteUnloaded
  repeat' (first
    | with_reducible assumption
    | (extract_lets +onlyGivenNames x; first
        | subst x)
    | with_reducible apply ev_noteOperand
    | split)

theorem ev_returnCredit {s₀ s : State} (h₀ : Evolves s₀ s) (d : Nat) (words : Nat) :
    Evolves s₀ (State.returnCredit s d words) := by
  unfold State.returnCredit
  repeat' (first
    | with_reducible assumption
    | (extract_lets +onlyGivenNames x; first
        | (refine (fun (hx : Evolves s₀ x) => ?_) ?_; (on_goal 1 => clear_value x); (on_goal 2 => subst x))
        | ((have y : Nat := x); clear y; clear_value x))
    | with_reducible apply ev_updDom
    | with_reducible apply ev_msix
    | with_reducible apply ev_updPci
    | split
    | with_reducible apply domMem_updQueue
    | dsimp only
    | intro)

theorem ev_updSlab {s₀ s : State} (h₀ : Evolves s₀ s) (d : Nat) (order : Nat) (f : Slab → Slab) :
    Evolves s₀ (State.updSlab s d order f) := by
  unfold State.updSlab
  repeat' (first
    | with_reducible assumption
    | with_reducible apply ev_updDom
    | with_reducible apply domMem_updSlab
    | intro)

theorem ev_creditSlab {s₀ s : State} (h₀ : Evolves s₀ s) (d : Nat) (b : Slab) :
    Evolves s₀ (State.creditSlab s d b) := by
  unfold State.creditSlab
  repeat' (first
    | with_reducible assumption
    | with_reducible apply ev_returnCredit
    | with_reducible apply ev_updSlab
    | split)

theorem ev_endBatch {s₀ s : State} (h₀ : Evolves s₀ s) (d : Nat) (ws : List W64) :
    Evolves s₀ (State.endBatch s d ws) := by
  unfold State.endBatch
  repeat' (first
    | with_reducible assumption
    | (extract_lets +onlyGivenNames x; ((have y : Hdr := x); clear y; clear_value x))
    | with_reducible apply ev_updDom
    | split
    | with_reducible apply domMem_mk
    | intro)

theorem ev_resolve {s₀ s : State} (h₀ : Evolves s₀ s) (d : Nat) (order : Nat) (st : Status) :
    Evolves s₀ (State.resolve s d order st) := by
  unfold State.resolve
  repeat' (first
    | with_reducible assumption
    | with_reducible apply ev_updDom
    | split
    | with_reducible apply domMem_mk
    | intro)

theorem ev_endSlab {s₀ s : State} (h₀ : Evolves s₀ s) (d : Nat) (b : Slab) (st : Status) :
    Evolves s₀ (State.endSlab s d b st) := by
  unfold State.endSlab
  repeat' (first
    | with_reducible assumption
    | (extract_lets +onlyGivenNames x; (refine (fun (hx : Evolves s₀ x) => ?_) ?_; (on_goal 1 => clear_value x); (on_goal 2 => subst x)))
    | with_reducible apply ev_creditSlab
    | with_reducible apply ev_updSlab
    | with_reducible apply ev_endBatch
    | with_reducible apply ev_resolve)

end Sys2Proof.Laws
end

