-- ==== Sys2Proof/Laws/EvolveBase.lean ====
section
/-! SUPPORT. The operations of Machine/Base.lean evolve the state: from Evolves s₀ s, Evolves s₀ of what the operation makes of s. -/

namespace Sys2Proof.Laws

open Sys2Proof.Machine Sys2Proof.Safety

theorem ev_pickSpan {s₀ s : State} (h₀ : Evolves s₀ s) (n : Nat) (free : List (Nat × Nat)) :
    Evolves s₀ (State.pickSpan s n free).2 := by
  unfold State.pickSpan
  repeat' (first
    | with_reducible assumption
    | (extract_lets +onlyGivenNames x; first
        | subst x)
    | with_reducible apply ev_takeFree)
theorem ev_pickSpan_eq {s₀ s : State} (h₀ : Evolves s₀ s) {n : Nat} {free : List (Nat × Nat)} {r₀ : _} {u₀ : State}
    (e₀ : State.pickSpan s n free = (r₀, u₀)) : Evolves s₀ u₀ := by
  have x := ev_pickSpan h₀ n free
  rw [e₀] at x
  exact x

theorem ev_pickSpans {s₀ s : State} (h₀ : Evolves s₀ s) (a1 : List Nat) (a2 : List (Nat × Nat)) :
    Evolves s₀ (State.pickSpans a1 a2 s).2 := by
  induction a1 generalizing s a2 with
  | nil => exact h₀
  | cons n r ih =>
    unfold State.pickSpans
    split
    · exact ev_pickSpan_eq h₀ (by assumption)
    · rename_i x a s1 e
      have h := ih (ev_pickSpan_eq h₀ e) (runsCut a2 a n)
      split <;> (rename_i e2; rw [e2] at h; exact h)

theorem ev_pickSpans_eq {s₀ s : State} (h₀ : Evolves s₀ s) {a1 : List Nat} {a2 : List (Nat × Nat)} {r₀ : _} {u₀ : State}
    (e₀ : State.pickSpans a1 a2 s = (r₀, u₀)) : Evolves s₀ u₀ := by
  have x := ev_pickSpans h₀ a1 a2
  rw [e₀] at x
  exact x

theorem ev_placeT {s₀ s : State} (h₀ : Evolves s₀ s) (ts : List Tensor) :
    Evolves s₀ (State.placeT s ts).2 := by
  unfold State.placeT
  refine foldl_keeps (fun (a : List Tensor × List (Nat × Nat) × State) => Evolves s₀ a.2.2) _ (fun a i ha => ?_) _ h₀
  dsimp only
  split
  · exact ha
  · split <;> exact ev_pickSpans_eq ha (by assumption)

theorem ev_placeT_eq {s₀ s : State} (h₀ : Evolves s₀ s) {ts : List Tensor} {r₀ : _} {u₀ : State}
    (e₀ : State.placeT s ts = (r₀, u₀)) : Evolves s₀ u₀ := by
  have x := ev_placeT h₀ ts
  rw [e₀] at x
  exact x

theorem ev_takePages {s₀ s : State} (h₀ : Evolves s₀ s) (k : Nat) (q : Nat) :
    Evolves s₀ (State.takePages s k q) := by
  unfold State.takePages
  repeat' (first
    | with_reducible assumption
    | (extract_lets +onlyGivenNames x; first
        | ((have y : Nat := x); clear y; clear_value x)
        | subst x)
    | with_reducible apply ev_pickRuns
    | (refine ev_pickRuns_eq ?_ (by assumption))
    | with_reducible apply ev_updCopy
    | split
    | with_reducible apply ev_mk
    | with_reducible apply imageWf_putStripe
    | with_reducible apply imageWf_write
    | with_reducible exact imageWf_copy' _
    | with_reducible exact imageWf_copy (by assumption) _
    | dsimp only
    | intro)

theorem imageWf_putStripe {c : CopySlot} (h : memWf c.image = true) (q : Nat) (x : Stripe) : memWf
    (c.putStripe q x).image = true := h

theorem imageWf_write {c : CopySlot} (h : memWf c.image = true) (q : Nat) (bs : List Byte) : memWf (c.write q bs).image = true :=
  memPut_wf _ _ _ h

theorem imageWf_newCopy (s : State) (a : Nat) (m : Manifest) (ts : List Tensor) (moe : List Nat) (peers : List (Nat × Bool)) :
    memWf (s.newCopy a m ts moe peers).1.image = true := rfl
theorem imageWf_newCopy_eq {s u : State} {a : Nat} {m : Manifest} {ts : List Tensor} {moe : List Nat} {peers : List (Nat × Bool)}
    {c : CopySlot} (e : s.newCopy a m ts moe peers = (c, u)) : memWf c.image = true := by
  have x := imageWf_newCopy s a m ts moe peers
  rw [e] at x
  exact x

theorem imageWf_latchServable {c : CopySlot} (h : memWf c.image = true) : memWf c.latchServable.image = true := h

theorem ev_buildCheck {s₀ s : State} (h₀ : Evolves s₀ s) (k : Nat) :
    Evolves s₀ (State.buildCheck s k) := by
  unfold State.buildCheck
  repeat' (first
    | with_reducible assumption
    | (extract_lets +onlyGivenNames x; subst x)
    | with_reducible apply ev_raiseDev
    | with_reducible apply ev_putCopy
    | split
    | with_reducible exact imageWf_copy' _)

theorem ev_failReplays {s₀ s : State} (h₀ : Evolves s₀ s) (k : Nat) (q : Nat) :
    Evolves s₀ (State.failReplays s k q) := by
  unfold State.failReplays
  repeat' (first
    | with_reducible assumption
    | with_reducible apply ev_eachDom
    | with_reducible apply ev_endSlab
    | with_reducible apply ev_foldl
    | split
    | with_reducible apply ev_mk
    | dsimp only
    | intro)

theorem ev_stripeLost {s₀ s : State} (h₀ : Evolves s₀ s) (k : Nat) (q : Nat) :
    Evolves s₀ (State.stripeLost s k q) := by
  unfold State.stripeLost
  repeat' (first
    | with_reducible assumption
    | with_reducible apply ev_updCopy
    | with_reducible apply ev_failReplays
    | with_reducible apply ev_raiseDev
    | with_reducible apply ev_buildCheck
    | split
    | with_reducible apply imageWf_putStripe
    | with_reducible apply imageWf_write
    | with_reducible exact imageWf_copy' _
    | with_reducible exact imageWf_copy (by assumption) _
    | dsimp only
    | intro)

theorem ev_sourceFails {s₀ s : State} (h₀ : Evolves s₀ s) (k : Nat) (q : Nat) :
    Evolves s₀ (State.sourceFails s k q) := by
  unfold State.sourceFails
  repeat' (first
    | with_reducible assumption
    | (extract_lets +onlyGivenNames x; first
        | ((have y : Nat := x); clear y; clear_value x)
        | subst x)
    | with_reducible apply ev_updCopy
    | with_reducible apply ev_stripeLost
    | split
    | with_reducible apply imageWf_putStripe
    | dsimp only
    | intro)

theorem ev_movePage {s₀ s : State} (h₀ : Evolves s₀ s) (k : Nat) (q : Nat) :
    Evolves s₀ (State.movePage s k q) := by
  unfold State.movePage
  repeat' (first
    | with_reducible assumption
    | (extract_lets +onlyGivenNames x; first
        | subst x)
    | with_reducible apply ev_pickRuns
    | (refine ev_pickRuns_eq ?_ (by assumption))
    | with_reducible apply ev_updCopy
    | split
    | with_reducible apply ev_mk
    | with_reducible apply imageWf_putStripe
    | with_reducible apply imageWf_write
    | with_reducible exact imageWf_copy' _
    | with_reducible exact imageWf_copy (by assumption) _
    | dsimp only
    | intro)

theorem ev_writeStripe {s₀ s : State} (h₀ : Evolves s₀ s) (k : Nat) (q : Nat) (bytes : List Byte) (f : Stripe → Stripe) :
    Evolves s₀ (State.writeStripe s k q bytes f) := by
  unfold State.writeStripe
  repeat' (first
    | with_reducible assumption
    | with_reducible apply ev_updCopy
    | split
    | with_reducible apply ev_mk
    | with_reducible apply imageWf_putStripe
    | with_reducible apply imageWf_write
    | with_reducible exact imageWf_copy' _
    | with_reducible exact imageWf_copy (by assumption) _
    | dsimp only
    | intro)

theorem ev_stripeArrives {s₀ s : State} (h₀ : Evolves s₀ s) (k : Nat) (q : Nat) (src : StripeSource) (bytes : List Byte) :
    Evolves s₀ (State.stripeArrives s k q src bytes) := by
  unfold State.stripeArrives
  repeat' (first
    | with_reducible assumption
    | (extract_lets +onlyGivenNames x; first
        | (refine (fun (hx : Evolves s₀ x) => ?_) ?_; (on_goal 1 => clear_value x); (on_goal 2 => subst x))
        | ((have y : Bool := x); clear y; clear_value x)
        | subst x)
    | with_reducible apply ev_bump
    | with_reducible apply ev_sourceFails
    | with_reducible apply ev_takePages
    | with_reducible apply ev_writeStripe
    | with_reducible apply ev_pickRuns
    | (refine ev_pickRuns_eq ?_ (by assumption))
    | with_reducible apply ev_movePage
    | with_reducible apply ev_updBas
    | with_reducible apply ev_buildCheck
    | split
    | with_reducible exact images_keep)

theorem ev_refetched {s₀ s : State} (h₀ : Evolves s₀ s) (k : Nat) (q : Nat) (src : StripeSource) (bytes : List Byte) :
    Evolves s₀ (State.refetched s k q src bytes) := by
  unfold State.refetched
  repeat' (first
    | with_reducible assumption
    | with_reducible apply ev_movePage
    | with_reducible apply ev_writeStripe
    | with_reducible apply ev_bump
    | with_reducible apply ev_sourceFails
    | split)

theorem ev_deviceStall {s₀ s : State} (h₀ : Evolves s₀ s) (code : Nat) (ns : Nat) :
    Evolves s₀ (State.deviceStall s code ns) := by
  unfold State.deviceStall
  repeat' (first
    | with_reducible assumption
    | with_reducible apply ev_updTik
    | with_reducible apply ev_addStretch)

theorem ev_basCmd {s₀ s : State} (h₀ : Evolves s₀ s) (v : View) (posted : Bool) (op rsv : Nat) (f : Nat → State → State × Nat)
    (hf : ∀ c t, Evolves s₀ t → Evolves s₀ (f c t).1) : Evolves s₀ (s.basCmd v posted op rsv f) := by
  unfold State.basCmd
  split
  · exact h₀
  · refine ev_runCmd h₀ _ _ _ _ ?_
    dsimp only
    split
    · exact h₀
    · exact hf _ _ h₀

theorem ev_newCopy {s₀ s : State} (h₀ : Evolves s₀ s) (a : Nat) (m : Manifest) (ts : List Tensor) (moe : List Nat) (peers : List (Nat × Bool)) :
    Evolves s₀ (State.newCopy s a m ts moe peers).2 := by
  unfold State.newCopy
  repeat' (first
    | with_reducible assumption
    | (extract_lets +onlyGivenNames x; first
        | subst x)
    | with_reducible apply ev_placeT
    | (refine ev_placeT_eq ?_ (by assumption))
    | with_reducible apply ev_pickRuns)
theorem ev_newCopy_eq {s₀ s : State} (h₀ : Evolves s₀ s) {a : Nat} {m : Manifest} {ts : List Tensor} {moe : List Nat} {peers : List (Nat × Bool)} {r₀ : _} {u₀ : State}
    (e₀ : State.newCopy s a m ts moe peers = (r₀, u₀)) : Evolves s₀ u₀ := by
  have x := ev_newCopy h₀ a m ts moe peers
  rw [e₀] at x
  exact x

theorem ev_takeRegion {s₀ s : State} (h₀ : Evolves s₀ s) :
    Evolves s₀ (State.takeRegion s) := by
  unfold State.takeRegion
  repeat' (first
    | with_reducible assumption
    | split
    | with_reducible apply ev_mk
    | with_reducible apply ev_mkAll
    | with_reducible exact fuses_same _
    | with_reducible exact MemoryWf.msix
    | with_reducible exact images_wf
    | with_reducible exact lks_same _
    | with_reducible exact MemoryWf.doms
    | with_reducible exact MemoryWf.commons
    | with_reducible exact MemoryWf.opbuf
    | with_reducible exact Nat.le_refl _)

theorem ev_build {s₀ s0 : State} (h₀ : Evolves s₀ s0) (k : Nat) (cmdCopy : Nat) (errors : List ReadError) :
    Evolves s₀ (State.build s0 k cmdCopy errors).1 := by
  unfold State.build
  repeat' (first
    | with_reducible assumption
    | (extract_lets +onlyGivenNames x; first
        | (refine (fun (hx : Evolves s₀ x) => ?_) ?_; (on_goal 1 => clear_value x); (on_goal 2 => subst x))
        | ((have y : Nat := x); clear y; clear_value x)
        | ((have y : Bool := x); clear y; clear_value x)
        | subst x)
    | with_reducible apply ev_meetErrors
    | (refine ev_meetErrors_eq ?_ (by assumption))
    | with_reducible apply ev_takeRegion
    | with_reducible apply ev_newCopy
    | (refine ev_newCopy_eq ?_ (by assumption))
    | with_reducible apply ev_putCopy
    | with_reducible apply ev_updBas
    | with_reducible apply ev_buildCheck
    | split
    | with_reducible exact images_keep
    | exact imageWf_newCopy_eq (by assumption)
    | dsimp only
    | intro)
theorem ev_build_eq {s₀ s0 : State} (h₀ : Evolves s₀ s0) {k : Nat} {cmdCopy : Nat} {errors : List ReadError} {r₁ : _} {u₀ : State}
    (e₀ : State.build s0 k cmdCopy errors = (u₀, r₁)) : Evolves s₀ u₀ := by
  have x := ev_build h₀ k cmdCopy errors
  rw [e₀] at x
  exact x

theorem ev_execBuild {s₀ s : State} (h₀ : Evolves s₀ s) (v : View) (posted : Bool) (of : BuildOf) (rsv : BitVec 59) :
    EvolvesOut s₀ (execBuild v posted of rsv s) := by
  unfold execBuild
  repeat' (first
    | with_reducible assumption
    | with_reducible apply ev_basCmd
    | with_reducible apply ev_build
    | (refine ev_build_eq ?_ (by assumption))
    | split
    | with_reducible apply evo_next
    | dsimp only
    | intro)

theorem ev_execSwitch {s₀ s : State} (h₀ : Evolves s₀ s) (v : View) (posted : Bool) (copy : Bool) (rsv : BitVec 59) :
    EvolvesOut s₀ (execSwitch v posted copy rsv s) := by
  unfold execSwitch
  repeat' (first
    | with_reducible assumption
    | (extract_lets +onlyGivenNames x; ((have y : Nat := x); clear y; clear_value x))
    | with_reducible apply ev_basCmd
    | with_reducible apply ev_updBas
    | split
    | with_reducible apply ev_mk
    | with_reducible apply evo_next
    | with_reducible exact images_keep
    | dsimp only
    | intro)

theorem ev_execAbort {s₀ s : State} (h₀ : Evolves s₀ s) (v : View) (posted : Bool) (copy : Bool) (rsv : BitVec 59) :
    EvolvesOut s₀ (execAbort v posted copy rsv s) := by
  unfold execAbort
  repeat' (first
    | with_reducible assumption
    | (extract_lets +onlyGivenNames x; ((have y : Nat := x); clear y; clear_value x))
    | with_reducible apply ev_basCmd
    | with_reducible apply ev_updBas
    | with_reducible apply ev_putCopy
    | split
    | with_reducible apply ev_mk
    | with_reducible apply evo_next
    | with_reducible exact images_keep
    | with_reducible exact memWf_nil
    | dsimp only
    | intro)

theorem ev_execBasStage {s₀ s : State} (h₀ : Evolves s₀ s) (v : View) (posted : Bool) (copy : Bool) (rsv : BitVec 59) :
    EvolvesOut s₀ (execBasStage v posted copy rsv s) := by
  unfold execBasStage
  repeat' (first
    | with_reducible assumption
    | (extract_lets +onlyGivenNames x; ((have y : Bool := x); clear y; clear_value x))
    | with_reducible apply ev_basCmd
    | with_reducible apply ev_putCopy
    | split
    | with_reducible apply ev_mk
    | with_reducible apply evo_next
    | with_reducible exact imageWf_copy' _
    | dsimp only
    | intro)

theorem ev_execBasUnstage {s₀ s : State} (h₀ : Evolves s₀ s) (v : View) (posted : Bool) (copy : Bool) (rsv : BitVec 59) :
    EvolvesOut s₀ (execBasUnstage v posted copy rsv s) := by
  unfold execBasUnstage
  repeat' (first
    | with_reducible assumption
    | (extract_lets +onlyGivenNames x; ((have y : Bool := x); clear y; clear_value x))
    | with_reducible apply ev_basCmd
    | with_reducible apply ev_putCopy
    | split
    | with_reducible apply ev_mk
    | with_reducible apply evo_next
    | with_reducible exact imageWf_copy' _
    | dsimp only
    | intro)

theorem ev_execBasQuery {s₀ s : State} (h₀ : Evolves s₀ s) (v : View) (posted : Bool) (copy : Bool) (rsv : BitVec 59) :
    EvolvesOut s₀ (execBasQuery v posted copy rsv s) := by
  unfold execBasQuery
  repeat' (first
    | with_reducible assumption
    | (extract_lets +onlyGivenNames x; ((have y : Bool := x); clear y; clear_value x))
    | with_reducible apply ev_basCmd
    | with_reducible apply ev_putArg
    | with_reducible apply evo_next
    | dsimp only
    | intro)

theorem ev_releaseCopy {s₀ s : State} (h₀ : Evolves s₀ s) (k : Nat) :
    Evolves s₀ (State.releaseCopy s k) := by
  unfold State.releaseCopy
  repeat' (first
    | with_reducible assumption
    | (extract_lets +onlyGivenNames x; subst x)
    | with_reducible apply ev_raiseDev
    | with_reducible apply ev_putCopy
    | split
    | with_reducible exact memWf_nil
    | dsimp only
    | intro)

theorem ev_latchSwitch {s₀ s : State} (h₀ : Evolves s₀ s) (tick : Nat) :
    Evolves s₀ (State.latchSwitch s tick) := by
  unfold State.latchSwitch
  repeat' (first
    | with_reducible assumption
    | (extract_lets +onlyGivenNames x; (refine (fun (hx : Evolves s₀ x) => ?_) ?_; (on_goal 1 => clear_value x); (on_goal 2 => subst x)))
    | with_reducible apply ev_updCopy
    | with_reducible apply ev_updBas
    | split
    | with_reducible exact images_keep
    | dsimp only
    | intro)

theorem ev_latchBasUnstage {s₀ s : State} (h₀ : Evolves s₀ s) (k : Nat) :
    Evolves s₀ (State.latchBasUnstage s k) := by
  unfold State.latchBasUnstage
  repeat' (first
    | with_reducible assumption
    | (extract_lets +onlyGivenNames x; first
        | ((have y : List Nat := x); clear y; clear_value x)
        | subst x)
    | with_reducible apply ev_putCopy
    | split
    | with_reducible exact imageWf_copy' _)

theorem ev_latchBase {s₀ s : State} (h₀ : Evolves s₀ s)  :
    Evolves s₀ (State.latchBase s) := by
  unfold State.latchBase
  repeat' (first
    | with_reducible assumption
    | (extract_lets +onlyGivenNames x; (refine (fun (hx : Evolves s₀ x) => ?_) ?_; (on_goal 1 => clear_value x); (on_goal 2 => subst x)))
    | with_reducible apply ev_updBas
    | with_reducible apply ev_latchBasUnstage
    | with_reducible apply ev_updCopy
    | with_reducible apply imageWf_latchServable
    | with_reducible exact images_keep)

end Sys2Proof.Laws
end

