-- ==== Sys2Proof/Laws/EvolveHostIf.lean ====
section
/-! SUPPORT. The operations of Machine/HostIf.lean evolve the state: from Evolves s₀ s, Evolves s₀ of what the operation makes of s. -/

namespace Sys2Proof.Laws

open Sys2Proof.Machine Sys2Proof.Safety

theorem ev_poisonedTlp {s₀ s : State} (h₀ : Evolves s₀ s) (fn : Nat) :
    Evolves s₀ (State.poisonedTlp s fn) := by
  unfold State.poisonedTlp
  repeat' (first
    | with_reducible assumption
    | (extract_lets +onlyGivenNames x; first
        | (refine (fun (hx : Evolves s₀ x) => ?_) ?_; (on_goal 1 => clear_value x); (on_goal 2 => subst x))
        | ((have y : List Nat := x); clear y; clear_value x))
    | with_reducible apply ev_updPci
    | with_reducible apply ev_bump
    | with_reducible apply ev_setEvent
    | with_reducible apply ev_emit
    | with_reducible apply ev_trace
    | with_reducible apply ev_foldl
    | dsimp only
    | intro)

theorem ev_arrive {s₀ s : State} (h₀ : Evolves s₀ s) (d : Nat) (ws : List W64) :
    Evolves s₀ (State.arrive s d ws) := by
  unfold State.arrive
  repeat' (first
    | with_reducible assumption
    | (extract_lets +onlyGivenNames x; first
        | (refine (fun (hx : Evolves s₀ x) => ?_) ?_; (on_goal 1 => clear_value x); (on_goal 2 => subst x))
        | ((have y : Bool := x); clear y; clear_value x)
        | ((have y : Slab := x); clear y; clear_value x)
        | subst x)
    | with_reducible apply ev_updDom
    | with_reducible apply ev_noteUnloaded
    | with_reducible apply ev_creditSlab
    | with_reducible apply ev_endBatch
    | split
    | with_reducible apply domMem_mk
    | with_reducible exact domMem_dom (by assumption) _
    | dsimp only
    | intro)

theorem ev_haltQueue {s₀ s : State} (h₀ : Evolves s₀ s) (d : Nat) :
    Evolves s₀ (State.haltQueue s d) := by
  unfold State.haltQueue
  repeat' (first
    | with_reducible assumption
    | with_reducible apply ev_updDom
    | with_reducible apply domMem_updQueue
    | intro)

theorem ev_submitWord {s₀ s : State} (h₀ : Evolves s₀ s) (d : Nat) (w : TlpWord) :
    Evolves s₀ (State.submitWord s d w) := by
  unfold State.submitWord
  repeat' (first
    | with_reducible assumption
    | (extract_lets +onlyGivenNames x; first
        | (refine (fun (hx : Evolves s₀ x) => ?_) ?_; (on_goal 1 => clear_value x); (on_goal 2 => subst x))
        | subst x)
    | with_reducible apply ev_bump
    | with_reducible apply ev_raiseDom
    | with_reducible apply ev_haltQueue
    | with_reducible apply ev_updDom
    | with_reducible apply ev_arrive
    | split
    | with_reducible apply domMem_updQueue
    | intro)

theorem ev_execSubmitWord {s₀ s : State} (h₀ : Evolves s₀ s) (fn : Fin 64) (words : List TlpWord) (poisoned : Bool) :
    EvolvesOut s₀ (execSubmitWord fn words poisoned s) := by
  unfold execSubmitWord
  repeat' (first
    | with_reducible assumption
    | (extract_lets +onlyGivenNames x; ((have y : Nat := x); clear y; clear_value x))
    | with_reducible apply ev_submitWord
    | with_reducible apply ev_poisonedTlp
    | with_reducible apply ev_foldl
    | split
    | with_reducible apply evo_next
    | intro)

theorem ev_execQueueReset {s₀ s : State} (h₀ : Evolves s₀ s) (fn : Fin 64) :
    EvolvesOut s₀ (execQueueReset fn s) := by
  unfold execQueueReset
  repeat' (first
    | with_reducible assumption
    | (extract_lets +onlyGivenNames x; first
        | (refine (fun (hx : Evolves s₀ x) => ?_) ?_; (on_goal 1 => clear_value x); (on_goal 2 => subst x))
        | ((have y : Nat := x); clear y; clear_value x))
    | with_reducible apply ev_returnCredit
    | with_reducible apply ev_updDom
    | split
    | with_reducible apply domMem_updQueue
    | with_reducible apply evo_next
    | intro)

theorem ev_execComplRead {s₀ s : State} (h₀ : Evolves s₀ s) (fn : Fin 64) :
    EvolvesOut s₀ (execComplRead fn s) := by
  unfold execComplRead
  repeat' (first
    | with_reducible assumption
    | (extract_lets +onlyGivenNames x; ((have y : Nat := x); clear y; clear_value x))
    | with_reducible apply ev_emit
    | with_reducible apply ev_updDom
    | split
    | with_reducible apply domMem_updQueue
    | with_reducible apply evo_next
    | intro)

theorem ev_execHostWindowWrite {s₀ s : State} (h₀ : Evolves s₀ s) (fn : Fin 64) (offset : Nat) (bytes : List Byte)
    (poisoned : Bool) :
    EvolvesOut s₀ (execHostWindowWrite fn offset bytes poisoned s) := by
  unfold execHostWindowWrite
  repeat' (first
    | with_reducible assumption
    | (extract_lets +onlyGivenNames x; first
        | (refine (fun (hx : Evolves s₀ x) => ?_) ?_; (on_goal 1 => clear_value x); (on_goal 2 => subst x))
        | ((have y : Nat := x); clear y; clear_value x)
        | ((have y : List Byte := x); clear y; clear_value x))
    | with_reducible apply ev_poisonedTlp
    | with_reducible apply ev_wrCommons
    | with_reducible apply ev_bump
    | split
    | with_reducible apply evo_next)

theorem ev_execHostWindowRead {s₀ s : State} (h₀ : Evolves s₀ s) (fn : Fin 64) (offset : Nat) (length : Nat) :
    EvolvesOut s₀ (execHostWindowRead fn offset length s) := by
  unfold execHostWindowRead
  repeat' (first
    | with_reducible assumption
    | (extract_lets +onlyGivenNames x; ((have y : Nat := x); clear y; clear_value x))
    | with_reducible apply ev_emit
    | with_reducible apply ev_countCommonsUe
    | split
    | with_reducible apply evo_next)

theorem ev_execMsixUnmask {s₀ s : State} (h₀ : Evolves s₀ s) (fn : Fin 64) (vector : Nat) :
    EvolvesOut s₀ (execMsixUnmask fn vector s) := by
  unfold execMsixUnmask
  repeat' (first
    | with_reducible assumption
    | (extract_lets +onlyGivenNames x; first
        | (refine (fun (hx : Evolves s₀ x) => ?_) ?_; (on_goal 1 => clear_value x); (on_goal 2 => subst x))
        | ((have y : Nat := x); clear y; clear_value x))
    | with_reducible apply ev_updPci
    | with_reducible apply ev_emit
    | split
    | with_reducible apply evo_next
    | dsimp only
    | intro)

end Sys2Proof.Laws
end

