-- ==== Sys2Proof/Laws/EvolveLink.lean ====
section
/-! SUPPORT. The operations of Machine/Link.lean evolve the state: from Evolves s₀ s, Evolves s₀ of what the operation makes of s. -/

namespace Sys2Proof.Laws

open Sys2Proof.Machine Sys2Proof.Safety

theorem ev_transmit {s₀ s : State} (h₀ : Evolves s₀ s) (p : Nat) (raw : List Byte) :
    Evolves s₀ (State.transmit s p raw) := by
  unfold State.transmit
  repeat' (first
    | with_reducible assumption
    | (extract_lets +onlyGivenNames x; first
        | ((have y : Nat := x); clear y; clear_value x)
        | ((have y : List Byte := x); clear y; clear_value x)
        | subst x)
    | with_reducible apply ev_emit
    | with_reducible apply ev_bump
    | with_reducible apply ev_putPort)

theorem ev_oweCredit {s₀ s : State} (h₀ : Evolves s₀ s) (p : Nat) (k : Nat) :
    Evolves s₀ (State.oweCredit s p k) := by
  unfold State.oweCredit
  repeat' (first
    | with_reducible assumption
    | with_reducible apply ev_updPort)

theorem ev_pump {s₀ s : State} (h₀ : Evolves s₀ s) (p : Nat) :
    Evolves s₀ (State.pump s p) := by
  unfold State.pump
  repeat' (first
    | with_reducible assumption
    | (extract_lets +onlyGivenNames x; first
        | (refine (fun (hx : Evolves s₀ x.1) => ?_) ?_; (on_goal 1 => clear_value x); (on_goal 2 => subst x))
        | subst x)
    | with_reducible apply ev_updPort
    | with_reducible apply ev_transmit
    | with_reducible apply ev_oweCredit
    | with_reducible apply ev_foldl_fst
    | split
    | with_reducible apply ev_mk
    | dsimp only
    | intro)

theorem ev_queueFlit {s₀ s : State} (h₀ : Evolves s₀ s) (p : Nat) (key : Nat) (raw : List Byte) :
    Evolves s₀ (State.queueFlit s p key raw) := by
  unfold State.queueFlit
  repeat' (first
    | with_reducible assumption
    | with_reducible apply ev_pump
    | with_reducible apply ev_updPort)

theorem ev_controlFlit {s₀ s : State} (h₀ : Evolves s₀ s) (p : Nat) (ftype : Nat) :
    Evolves s₀ (State.controlFlit s p ftype) := by
  unfold State.controlFlit
  repeat' (first
    | with_reducible assumption
    | with_reducible apply ev_takeFree
    | with_reducible apply ev_queueFlit)

theorem ev_idleOut {s₀ s : State} (h₀ : Evolves s₀ s) (p : Nat) :
    Evolves s₀ (State.idleOut s p) := by
  unfold State.idleOut
  repeat' (first
    | with_reducible assumption
    | (extract_lets +onlyGivenNames x; first
        | ((have y : Nat := x); clear y; clear_value x)
        | subst x)
    | with_reducible apply ev_takeFree
    | with_reducible apply ev_emit
    | with_reducible apply ev_updPort
    | with_reducible apply ev_foldl
    | dsimp only
    | intro)

theorem ev_forward {s₀ s u : State} {origin vc tag : Nat} {dl : Bool} {pl : List Byte} (h₀ : Evolves s₀ s)
    (e : s.forward origin vc tag dl pl = some u) : Evolves s₀ u := by
  unfold State.forward at e
  obtain ⟨h, _, rfl⟩ := Option.map_eq_some_iff.1 e
  exact ev_queueFlit h₀ _ _ _

theorem ev_forwardD {s₀ s : State} (h₀ : Evolves s₀ s) (origin vc tag : Nat) (dl : Bool) (pl : List Byte) :
    Evolves s₀ ((s.forward origin vc tag dl pl).getD s) := by
  cases e : s.forward origin vc tag dl pl with
  | none => exact h₀
  | some u => exact ev_forward h₀ e

theorem ev_moveQueue {s₀ s : State} (h₀ : Evolves s₀ s) (p : Nat) : Evolves s₀ (s.moveQueue p) := by
  have h1 := ev_updPort h₀ p (fun y => { y with waiting := [], replay := [], credits := [], creditsDue := [] })
  unfold State.moveQueue
  dsimp only
  split
  · exact ev_foldl _ (fun _ _ h => ev_queueFlit h _ _ _) _ h1
  · refine ev_foldl _ (fun t w h => ?_) _ h1
    split
    · exact h
    · exact ev_forwardD h _ _ _ _ _

theorem ev_portDown {s₀ s : State} (h₀ : Evolves s₀ s) (p : Nat) (next : PortState) :
    Evolves s₀ (State.portDown s p next) := by
  unfold State.portDown
  repeat' (first
    | with_reducible assumption
    | (extract_lets +onlyGivenNames x; first
        | (refine (fun (hx : Evolves s₀ x) => ?_) ?_; (on_goal 1 => clear_value x); (on_goal 2 => subst x))
        | subst x)
    | with_reducible apply ev_updPort
    | with_reducible apply ev_raiseDev
    | with_reducible apply ev_moveQueue
    | with_reducible apply ev_updFab
    | split)

theorem ev_nameSelf {s₀ s : State} (h₀ : Evolves s₀ s) (p : Nat) :
    Evolves s₀ (State.nameSelf s p) := by
  unfold State.nameSelf
  repeat' (first
    | with_reducible assumption
    | with_reducible apply ev_emit)

theorem ev_portUp {s₀ s : State} (h₀ : Evolves s₀ s) (p : Nat) :
    Evolves s₀ (State.portUp s p) := by
  unfold State.portUp
  repeat' (first
    | with_reducible assumption
    | (extract_lets +onlyGivenNames x; (refine (fun (hx : Evolves s₀ x) => ?_) ?_; (on_goal 1 => clear_value x); (on_goal 2 => subst x)))
    | with_reducible apply ev_updPort
    | with_reducible apply ev_raiseDev
    | with_reducible apply ev_updFab)

end Sys2Proof.Laws
end

