-- ==== Sys2Proof/Laws/EvolveKv.lean ====
section
/-! SUPPORT. The operations of Machine/Kv.lean evolve the state: from Evolves s₀ s, Evolves s₀ of what the operation makes of s. -/

namespace Sys2Proof.Laws

open Sys2Proof.Machine Sys2Proof.Safety

theorem domMem_latchSeqs {x : Dom} (h : DomMem x) : DomMem x.latchSeqs := h

theorem ev_kvpCmd {s₀ s : State} (h₀ : Evolves s₀ s) (v : View) (posted : Bool) (op seq rsv : Nat)
    (f : Nat → Nat → State → State × Nat) (hf : ∀ d c t, Evolves s₀ t → Evolves s₀ (f d c t).1) :
    Evolves s₀ (s.kvpCmd v posted op seq rsv f) := by
  unfold State.kvpCmd
  refine ev_runCmd h₀ _ _ _ _ ?_
  dsimp only
  split
  · exact h₀
  · exact hf _ _ _ h₀

theorem ev_openSeq {s₀ s : State} (h₀ : Evolves s₀ s) (d : Nat) (c : Nat) (seq : Nat) :
    Evolves s₀ (State.openSeq s d c seq).1 := by
  unfold State.openSeq
  repeat' (first
    | with_reducible assumption
    | (extract_lets +onlyGivenNames x; first
        | ((have y : Nat := x); clear y; clear_value x)
        | subst x)
    | with_reducible apply ev_wrMem
    | with_reducible apply ev_updDom
    | split
    | with_reducible apply domMem_updSeq
    | intro)
theorem ev_openSeq_eq {s₀ s : State} (h₀ : Evolves s₀ s) {d : Nat} {c : Nat} {seq : Nat} {r₀ : _} {u₀ : State}
    (e₀ : State.openSeq s d c seq = (u₀, r₀)) : Evolves s₀ u₀ := by
  have x := ev_openSeq h₀ d c seq
  rw [e₀] at x
  exact x

theorem ev_execSeqOpen {s₀ s : State} (h₀ : Evolves s₀ s) (v : View) (posted : Bool) (seq : W16) (rsv : BitVec 44) :
    EvolvesOut s₀ (execSeqOpen v posted seq rsv s) := by
  unfold execSeqOpen
  repeat' (first
    | with_reducible assumption
    | with_reducible apply ev_kvpCmd
    | with_reducible apply ev_openSeq
    | with_reducible apply evo_next
    | intro)

theorem ev_execSeqClose {s₀ s : State} (h₀ : Evolves s₀ s) (v : View) (posted : Bool) (seq : W16) (rsv : BitVec 44) :
    EvolvesOut s₀ (execSeqClose v posted seq rsv s) := by
  unfold execSeqClose
  repeat' (first
    | with_reducible assumption
    | with_reducible apply ev_kvpCmd
    | with_reducible apply ev_defer
    | split
    | with_reducible apply ev_mk
    | with_reducible apply evo_next
    | dsimp only
    | intro)

theorem ev_commitSeq {s₀ s : State} (h₀ : Evolves s₀ s) (d : Nat) (c : Nat) (seq : Nat) :
    Evolves s₀ (State.commitSeq s d c seq).1 := by
  unfold State.commitSeq
  repeat' (first
    | with_reducible assumption
    | (extract_lets +onlyGivenNames x; first
        | (refine (fun (hx : Evolves s₀ x) => ?_) ?_; (on_goal 1 => clear_value x); (on_goal 2 => subst x))
        | ((have y : Nat := x); clear y; clear_value x)
        | subst x)
    | with_reducible apply ev_updDom
    | split
    | with_reducible apply domMem_updKvp
    | with_reducible apply domMem_updSeq
    | intro)
theorem ev_commitSeq_eq {s₀ s : State} (h₀ : Evolves s₀ s) {d : Nat} {c : Nat} {seq : Nat} {r₀ : _} {u₀ : State}
    (e₀ : State.commitSeq s d c seq = (u₀, r₀)) : Evolves s₀ u₀ := by
  have x := ev_commitSeq h₀ d c seq
  rw [e₀] at x
  exact x

theorem ev_execKvpCommit {s₀ s : State} (h₀ : Evolves s₀ s) (v : View) (posted : Bool) (seq : W16) (rsv : BitVec 44) :
    EvolvesOut s₀ (execKvpCommit v posted seq rsv s) := by
  unfold execKvpCommit
  repeat' (first
    | with_reducible assumption
    | with_reducible apply ev_kvpCmd
    | with_reducible apply ev_commitSeq
    | with_reducible apply evo_next
    | intro)

theorem ev_putArgs {s₀ s : State} (h₀ : Evolves s₀ s) (c : Nat) (page : Nat) (ws : List W64) :
    Evolves s₀ (State.putArgs s c page ws) := by
  unfold State.putArgs
  repeat' (first
    | with_reducible assumption
    | with_reducible apply ev_putArg
    | with_reducible apply ev_foldl
    | intro)

theorem ev_querySeq {s₀ s : State} (h₀ : Evolves s₀ s) (d : Nat) (c : Nat) (seq : Nat) :
    Evolves s₀ (State.querySeq s d c seq).1 := by
  unfold State.querySeq
  repeat' (first
    | with_reducible assumption
    | (extract_lets +onlyGivenNames x; first
        | ((have y : Nat := x); clear y; clear_value x)
        | subst x)
    | with_reducible apply ev_putArgs
    | split)
theorem ev_querySeq_eq {s₀ s : State} (h₀ : Evolves s₀ s) {d : Nat} {c : Nat} {seq : Nat} {r₀ : _} {u₀ : State}
    (e₀ : State.querySeq s d c seq = (u₀, r₀)) : Evolves s₀ u₀ := by
  have x := ev_querySeq h₀ d c seq
  rw [e₀] at x
  exact x

theorem ev_execKvpQuery {s₀ s : State} (h₀ : Evolves s₀ s) (v : View) (posted : Bool) (seq : W16) (rsv : BitVec 44) :
    EvolvesOut s₀ (execKvpQuery v posted seq rsv s) := by
  unfold execKvpQuery
  repeat' (first
    | with_reducible assumption
    | with_reducible apply ev_kvpCmd
    | with_reducible apply ev_querySeq
    | with_reducible apply evo_next
    | intro)

theorem ev_execSetDrop {s₀ s : State} (h₀ : Evolves s₀ s) (v : View) (posted : Bool) (seq : W16) (rsv : BitVec 44) :
    EvolvesOut s₀ (execSetDrop v posted seq rsv s) := by
  unfold execSetDrop
  repeat' (first
    | with_reducible assumption
    | with_reducible apply ev_kvpCmd
    | with_reducible apply ev_defer
    | with_reducible apply evo_next
    | dsimp only
    | intro)

theorem ev_writeGeom {s₀ s : State} (h₀ : Evolves s₀ s) (d : Nat) (value : Nat) :
    Evolves s₀ (State.writeGeom s d value) := by
  unfold State.writeGeom
  repeat' (first
    | with_reducible assumption
    | with_reducible apply ev_updDom
    | split
    | with_reducible apply domMem_updKvp
    | intro)

theorem ev_execKvpGeomWrite {s₀ s : State} (h₀ : Evolves s₀ s) (v : View) (value : W32) :
    EvolvesOut s₀ (execKvpGeomWrite v value s) := by
  unfold execKvpGeomWrite
  repeat' (first
    | with_reducible assumption
    | with_reducible apply ev_writeGeom
    | split
    | with_reducible apply evo_next)

theorem ev_setRow {s₀ s : State} (h₀ : Evolves s₀ s) (d : Nat) (seq : Nat) (layer : Nat) (pos : Nat) (bytes : List Byte) :
    Evolves s₀ (State.setRow s d seq layer pos bytes) := by
  unfold State.setRow
  repeat' (first
    | with_reducible assumption
    | (extract_lets +onlyGivenNames x; subst x)
    | with_reducible apply ev_updDom
    | with_reducible apply ev_wrMem
    | split
    | with_reducible apply domMem_updKvp
    | dsimp only
    | intro)

theorem ev_commitLayer {s₀ s : State} (h₀ : Evolves s₀ s) (d : Nat) (seq : Nat) (layer : Nat) (mask : Nat) :
    Evolves s₀ (State.commitLayer s d seq layer mask) := by
  unfold State.commitLayer
  repeat' (first
    | with_reducible assumption
    | (extract_lets +onlyGivenNames x; first
        | ((have y : Nat := x); clear y; clear_value x)
        | subst x)
    | with_reducible apply ev_setRow
    | with_reducible apply ev_foldl
    | split
    | with_reducible apply ev_mk
    | intro)

theorem ev_commitRun {s₀ s : State} (h₀ : Evolves s₀ s) (d : Nat) (seq : Nat) :
    Evolves s₀ (State.commitRun s d seq) := by
  unfold State.commitRun
  repeat' (first
    | with_reducible assumption
    | (extract_lets +onlyGivenNames x; first
        | (refine (fun (hx : Evolves s₀ x) => ?_) ?_; (on_goal 1 => clear_value x); (on_goal 2 => subst x))
        | ((have y : Nat := x); clear y; clear_value x)
        | subst x)
    | with_reducible apply ev_commitLayer
    | with_reducible apply ev_updDom
    | with_reducible apply ev_foldl
    | split
    | with_reducible apply domMem_updKvp
    | with_reducible apply domMem_updSeq
    | intro)

theorem ev_invalidate {s₀ s : State} (h₀ : Evolves s₀ s) (d : Nat) (seq : Nat) (keys : List Nat) :
    Evolves s₀ (State.invalidate s d seq keys) := by
  unfold State.invalidate
  repeat' (first
    | with_reducible assumption
    | (extract_lets +onlyGivenNames x; subst x)
    | with_reducible apply ev_wrMem
    | with_reducible apply ev_foldl
    | dsimp only
    | intro)

theorem ev_dropColumn {s₀ s : State} (h₀ : Evolves s₀ s) (d : Nat) (seq : Nat) (col : Nat) :
    Evolves s₀ (State.dropColumn s d seq col) := by
  unfold State.dropColumn
  repeat' (first
    | with_reducible assumption
    | (extract_lets +onlyGivenNames x; first
        | (refine (fun (hx : Evolves s₀ x) => ?_) ?_; (on_goal 1 => clear_value x); (on_goal 2 => subst x))
        | ((have y : List Nat := x); clear y; clear_value x)
        | subst x)
    | with_reducible apply ev_invalidate
    | with_reducible apply ev_bump
    | with_reducible apply ev_updDom
    | with_reducible apply domMem_updSeq
    | intro)

theorem ev_freeFor {s₀ : State} (d seq need : Nat) :
    ∀ (n : Nat) (lost : List (Nat × Nat)) {s : State}, Evolves s₀ s → Evolves s₀ (s.freeFor d seq need n lost).1
  | 0, _, _, h => h
  | n + 1, lost, s, h => by
    unfold State.freeFor
    split
    · exact h
    · split
      · exact ev_freeFor d seq need n _ (ev_dropColumn h _ _ _)
      · split
        · exact h
        · split
          · exact ev_freeFor d seq need n _ (ev_dropColumn h _ _ _)
          · exact h

theorem ev_dropWhole {s₀ s : State} (h₀ : Evolves s₀ s) (d : Nat) (seq : Nat) :
    Evolves s₀ (State.dropWhole s d seq) := by
  unfold State.dropWhole
  repeat' (first
    | with_reducible assumption
    | (extract_lets +onlyGivenNames x; first
        | (refine (fun (hx : Evolves s₀ x) => ?_) ?_; (on_goal 1 => clear_value x); (on_goal 2 => subst x))
        | ((have y : Nat := x); clear y; clear_value x)
        | subst x)
    | with_reducible apply ev_invalidate
    | with_reducible apply ev_updDom
    | with_reducible apply domMem_updKvp
    | with_reducible apply domMem_updSeq
    | intro)

theorem ev_takePage {s₀ s : State} (h₀ : Evolves s₀ s) (d : Nat) (seq : Nat) (key : Nat) :
    Evolves s₀ (State.takePage s d seq key) := by
  unfold State.takePage
  repeat' (first
    | with_reducible assumption
    | (extract_lets +onlyGivenNames x; first
        | (refine (fun (hx : Evolves s₀ x) => ?_) ?_; (on_goal 1 => clear_value x); (on_goal 2 => subst x))
        | ((have y : Nat := x); clear y; clear_value x)
        | subst x)
    | with_reducible apply ev_bump
    | with_reducible apply ev_updDom
    | with_reducible apply ev_wrMem
    | with_reducible apply domMem_updSeq
    | intro)

theorem ev_placeSeq {s₀ s : State} (h₀ : Evolves s₀ s) (d seq : Nat) : Evolves s₀ (s.placeSeq d seq).1 := by
  unfold State.placeSeq
  dsimp only
  split
  · exact ev_dropWhole h₀ _ _
  · have h1 := ev_freeFor d seq (((s.dom d).kvp.needs seq).length)
      (((s.dom d).kvp.seqs.map (fun p => p.2.colTick.length)).sum + 1) [] h₀
    generalize s.freeFor d seq _ _ [] = r at h1 ⊢
    obtain ⟨s1, lost⟩ := r
    dsimp only
    split
    · exact ev_dropWhole h1 _ _
    · refine ev_foldl _ (fun _ _ h => ev_setRow h _ _ _ _ _) _ (ev_updDom (ev_foldl _ (fun _ _ h => ev_takePage h _ _ _) _ h1) _ _ ?_)
      exact fun _ hx => hx
theorem ev_placeSeq_eq {s₀ s u : State} {d seq : Nat} {r : List (Nat × Nat)} (h₀ : Evolves s₀ s)
    (e : s.placeSeq d seq = (u, r)) : Evolves s₀ u := by
  have x := ev_placeSeq h₀ d seq
  rw [e] at x
  exact x

theorem ev_dropRecord {s₀ s : State} (h₀ : Evolves s₀ s) (d : Nat) (seq : Nat) (cause : Nat) :
    Evolves s₀ (State.dropRecord s d seq cause) := by
  unfold State.dropRecord
  repeat' (first
    | with_reducible assumption
    | (extract_lets +onlyGivenNames x; first
        | (refine (fun (hx : Evolves s₀ x) => ?_) ?_; (on_goal 1 => clear_value x); (on_goal 2 => subst x))
        | ((have y : Nat := x); clear y; clear_value x)
        | subst x)
    | with_reducible apply ev_raiseDom
    | with_reducible apply ev_wrMem
    | with_reducible apply ev_updDom
    | split
    | with_reducible apply domMem_updKvp
    | intro)

theorem ev_kvSettle {s₀ s : State} (h₀ : Evolves s₀ s) (d : Nat) :
    Evolves s₀ (State.kvSettle s d) := by
  unfold State.kvSettle
  repeat' (first
    | with_reducible assumption
    | (extract_lets +onlyGivenNames x; first
        | (refine (fun (hx : Evolves s₀ x) => ?_) ?_; (on_goal 1 => clear_value x); (on_goal 2 => subst x))
        | ((have y : Nat := x); clear y; clear_value x)
        | ((have y : List Nat := x); clear y; clear_value x)
        | subst x)
    | with_reducible apply ev_commitRun
    | with_reducible apply ev_placeSeq
    | with_reducible apply ev_dropRecord
    | with_reducible apply ev_updDom
    | with_reducible apply ev_addStretch
    | (refine ev_foldl_fst_eq ?_ ?_ (by assumption))
    | with_reducible apply ev_foldl
    | split
    | with_reducible apply domMem_mk
    | dsimp only
    | intro)

theorem ev_latchSeqClose {s₀ s : State} (h₀ : Evolves s₀ s) (d : Nat) (seq : Nat) :
    Evolves s₀ (State.latchSeqClose s d seq) := by
  unfold State.latchSeqClose
  repeat' (first
    | with_reducible assumption
    | with_reducible apply ev_updDom
    | with_reducible apply domMem_updKvp
    | with_reducible apply domMem_updSeq
    | intro)

end Sys2Proof.Laws
end

