-- ==== Sys2Proof/Laws/EvolveDomain.lean ====
section
/-! SUPPORT. The operations of Machine/Domain.lean evolve the state: from Evolves s₀ s, Evolves s₀ of what the operation makes of s. -/

namespace Sys2Proof.Laws

open Sys2Proof.Machine Sys2Proof.Safety

theorem ev_lksCmd {s₀ s : State} (h₀ : Evolves s₀ s) (v : View) (posted : Bool) (op rsv : Nat) (pfOnly : Bool)
    (f : Nat → State → State × Nat) (hf : ∀ c t, Evolves s₀ t → Evolves s₀ (f c t).1) :
    Evolves s₀ (s.lksCmd v posted op rsv pfOnly f) := by
  unfold State.lksCmd
  split
  · exact h₀
  · refine ev_runCmd h₀ _ _ _ _ ?_
    dsimp only
    split
    · exact h₀
    · split
      · exact h₀
      · split
        · exact h₀
        · exact hf _ _ h₀

theorem ev_lksFinal {s₀ s : State} (h₀ : Evolves s₀ s) (copy : Nat) (op : Nat) (status : Nat) (d : Nat) :
    Evolves s₀ (State.lksFinal s copy op status d) := by
  unfold State.lksFinal
  repeat' (first
    | with_reducible assumption
    | (extract_lets +onlyGivenNames x; first
        | (refine (fun (hx : Evolves s₀ x) => ?_) ?_; (on_goal 1 => clear_value x); (on_goal 2 => subst x))
        | subst x)
    | with_reducible apply ev_raiseCopy
    | with_reducible apply ev_putPair
    | with_reducible apply ev_msix
    | split)

theorem ev_resetViews {s₀ s : State} (h₀ : Evolves s₀ s) (d : Nat) :
    Evolves s₀ (State.resetViews s d) := by
  unfold State.resetViews
  repeat' (first
    | with_reducible assumption
    | (extract_lets +onlyGivenNames x; subst x)
    | with_reducible apply ev_mkAll
    | with_reducible exact fuses_same _
    | with_reducible exact lks_same _
    | with_reducible exact Nat.le_refl _
    | with_reducible exact MemoryWf.msix
    | with_reducible exact images_wf
    | with_reducible exact MemoryWf.doms
    | with_reducible exact MemoryWf.slots
    | with_reducible exact MemoryWf.commons
    | with_reducible exact MemoryWf.opbuf)

theorem ev_freeSlots {s₀ s : State} (h₀ : Evolves s₀ s) (first : Nat) (count : Nat) :
    Evolves s₀ (State.freeSlots s first count) := by
  unfold State.freeSlots
  repeat' (first
    | with_reducible assumption
    | with_reducible apply ev_mkAll
    | with_reducible exact fuses_same _
    | with_reducible exact lks_same _
    | with_reducible exact Nat.le_refl _
    | with_reducible exact MemoryWf.msix
    | with_reducible exact images_wf
    | with_reducible exact MemoryWf.doms
    | with_reducible exact MemoryWf.commons
    | with_reducible exact MemoryWf.opbuf)

theorem ev_createDom {s₀ s : State} (h₀ : Evolves s₀ s) (d : Nat) (copy : Nat) (r : DomRecord) :
    Evolves s₀ (State.createDom s d copy r) := by
  unfold State.createDom
  repeat' (first
    | with_reducible assumption
    | (extract_lets +onlyGivenNames x; first
        | subst x)
    | with_reducible apply ev_takeDraw
    | (refine ev_takeDraw_eq ?_ (by assumption))
    | with_reducible apply ev_pickRuns
    | (refine ev_pickRuns_eq ?_ (by assumption))
    | with_reducible apply ev_resetViews
    | with_reducible apply ev_freeSlots
    | with_reducible apply ev_putDom
    | with_reducible apply ev_updLks
    | with_reducible apply ev_msix
    | split
    | with_reducible apply domMem_mkAll
    | with_reducible exact memWf_nil
    | with_reducible exact domMem_dom (by assumption) _
    | with_reducible apply ev_mk
    | with_reducible exact Nat.le_refl _
    | dsimp only
    | intro)

theorem ev_createReq {s₀ s : State} (h₀ : Evolves s₀ s) (copy : Nat) (w : List Nat) (again : Bool) :
    Evolves s₀ (State.createReq s copy w again).1 := by
  unfold State.createReq
  repeat' (first
    | with_reducible assumption
    | (extract_lets +onlyGivenNames x; first
        | ((have y : Nat := x); clear y; clear_value x)
        | subst x)
    | with_reducible apply ev_updDom
    | with_reducible apply ev_createDom
    | split
    | with_reducible apply domMem_mk
    | with_reducible exact domMem_dom (by assumption) _
    | dsimp only
    | intro)
theorem ev_createReq_eq {s₀ s : State} (h₀ : Evolves s₀ s) {copy : Nat} {w : List Nat} {again : Bool} {r₁ : _} {u₀ : State}
    (e₀ : State.createReq s copy w again = (u₀, r₁)) : Evolves s₀ u₀ := by
  have x := ev_createReq h₀ copy w again
  rw [e₀] at x
  exact x

theorem ev_execCreate {s₀ s : State} (h₀ : Evolves s₀ s) (v : View) (posted : Bool) (d : Fin 64) (rsv : BitVec 50) :
    EvolvesOut s₀ (execCreate v posted d rsv s) := by
  unfold execCreate
  repeat' (first
    | with_reducible assumption
    | (extract_lets +onlyGivenNames x; ((have y : Nat := x); clear y; clear_value x))
    | with_reducible apply ev_lksCmd
    | with_reducible apply ev_createReq
    | with_reducible apply evo_next
    | intro)

theorem ev_execCreateComplete {s₀ s : State} (h₀ : Evolves s₀ s) (d : Fin 64) :
    EvolvesOut s₀ (execCreateComplete d s) := by
  unfold execCreateComplete
  repeat' (first
    | with_reducible assumption
    | (extract_lets +onlyGivenNames x; subst x)
    | with_reducible apply ev_updDom
    | split
    | with_reducible apply evo_next
    | with_reducible apply domMem_mk
    | intro)

theorem ev_execHeldRequestExecute {s₀ s : State} (h₀ : Evolves s₀ s) (d : Fin 64) :
    EvolvesOut s₀ (execHeldRequestExecute d s) := by
  unfold execHeldRequestExecute
  repeat' (first
    | with_reducible assumption
    | (extract_lets +onlyGivenNames x; first
        | (refine (fun (hx : Evolves s₀ x) => ?_) ?_; (on_goal 1 => clear_value x); (on_goal 2 => subst x))
        | (refine (fun (hx : Evolves s₀ x.1) => ?_) ?_; (on_goal 1 => clear_value x); (on_goal 2 => subst x))
        | subst x)
    | with_reducible apply ev_updDom
    | with_reducible apply ev_createReq
    | with_reducible apply ev_lksFinal
    | split
    | with_reducible apply evo_next
    | with_reducible apply domMem_mk
    | intro)

theorem ev_tearDown {s₀ s : State} (h₀ : Evolves s₀ s) (d : Nat) :
    Evolves s₀ (State.tearDown s d) := by
  unfold State.tearDown
  repeat' (first
    | with_reducible assumption
    | (extract_lets +onlyGivenNames x; subst x)
    | with_reducible apply ev_updDom
    | split
    | with_reducible apply domMem_mk
    | intro)

theorem ev_execDestroy {s₀ s : State} (h₀ : Evolves s₀ s) (v : View) (posted : Bool) (d : Fin 64) (rsv : BitVec 50) :
    EvolvesOut s₀ (execDestroy v posted d rsv s) := by
  unfold execDestroy
  repeat' (first
    | with_reducible assumption
    | with_reducible apply ev_lksCmd
    | with_reducible apply ev_updDom
    | with_reducible apply ev_tearDown
    | split
    | with_reducible apply ev_mk
    | with_reducible apply evo_next
    | with_reducible apply domMem_mk
    | dsimp only
    | intro)

theorem ev_resetFn {s₀ s : State} (h₀ : Evolves s₀ s) (n : Nat) :
    Evolves s₀ (State.resetFn s n) := by
  unfold State.resetFn
  repeat' (first
    | with_reducible assumption
    | with_reducible apply ev_updPci
    | with_reducible apply memWf_filter
    | dsimp only
    | intro)

theorem ev_execVfFlr {s₀ s : State} (h₀ : Evolves s₀ s) (n : Fin 64) :
    EvolvesOut s₀ (execVfFlr n s) := by
  unfold execVfFlr
  repeat' (first
    | with_reducible assumption
    | (extract_lets +onlyGivenNames x; first
        | (refine (fun (hx : Evolves s₀ x) => ?_) ?_; (on_goal 1 => clear_value x); (on_goal 2 => subst x))
        | ((have y : Nat := x); clear y; clear_value x))
    | with_reducible apply ev_raiseDev
    | with_reducible apply ev_bump
    | with_reducible apply ev_resetFn
    | with_reducible apply ev_tearDown
    | with_reducible apply ev_updPci
    | split
    | with_reducible apply evo_next
    | dsimp only
    | intro)

theorem ev_execVfEnableChange {s₀ s : State} (h₀ : Evolves s₀ s) (on : Bool) (numVfs : Nat) :
    EvolvesOut s₀ (execVfEnableChange on numVfs s) := by
  unfold execVfEnableChange
  repeat' (first
    | with_reducible assumption
    | (extract_lets +onlyGivenNames x; first
        | (refine (fun (hx : Evolves s₀ x) => ?_) ?_; (on_goal 1 => clear_value x); (on_goal 2 => subst x))
        | ((have y : List Nat := x); clear y; clear_value x))
    | with_reducible apply ev_updPci
    | with_reducible apply ev_raiseDev
    | with_reducible apply ev_tearDown
    | with_reducible apply ev_resetFn
    | with_reducible apply ev_foldl
    | split
    | with_reducible apply evo_next
    | dsimp only
    | intro)

theorem ev_resizeReq {s₀ s : State} (h₀ : Evolves s₀ s) (copy : Nat) (w : List Nat) :
    Evolves s₀ (State.resizeReq s copy w).1 := by
  unfold State.resizeReq
  repeat' (first
    | with_reducible assumption
    | (extract_lets +onlyGivenNames x; first
        | (refine (fun (hx : Evolves s₀ x) => ?_) ?_; (on_goal 1 => clear_value x); (on_goal 2 => subst x))
        | ((have y : Nat := x); clear y; clear_value x)
        | subst x)
    | with_reducible apply ev_pickRuns
    | (refine ev_pickRuns_eq ?_ (by assumption))
    | with_reducible apply ev_updDom
    | with_reducible apply ev_foldl
    | with_reducible apply ev_foldl_fst
    | with_reducible apply ev_foldl_snd
    | (refine ev_foldl_fst_eq ?_ ?_ (by assumption))
    | (refine ev_foldl_snd_eq ?_ ?_ (by assumption))
    | split
    | with_reducible apply domMem_mk
    | with_reducible exact domMem_dom (by assumption) _
    | with_reducible apply ev_mk
    | dsimp only
    | intro)
theorem ev_resizeReq_eq {s₀ s : State} (h₀ : Evolves s₀ s) {copy : Nat} {w : List Nat} {r₁ : _} {u₀ : State}
    (e₀ : State.resizeReq s copy w = (u₀, r₁)) : Evolves s₀ u₀ := by
  have x := ev_resizeReq h₀ copy w
  rw [e₀] at x
  exact x

theorem ev_execResize {s₀ s : State} (h₀ : Evolves s₀ s) (v : View) (posted : Bool) (d : Fin 64) (rsv : BitVec 50) :
    EvolvesOut s₀ (execResize v posted d rsv s) := by
  unfold execResize
  repeat' (first
    | with_reducible assumption
    | (extract_lets +onlyGivenNames x; first
        | ((have y : Nat := x); clear y; clear_value x)
        | subst x)
    | with_reducible apply ev_lksCmd
    | with_reducible apply ev_resizeReq
    | (refine ev_resizeReq_eq ?_ (by assumption))
    | split
    | with_reducible apply evo_next
    | dsimp only
    | intro)

theorem ev_addRequest {s₀ s : State} (h₀ : Evolves s₀ s) (d : Nat) (copy : Nat) (q : DomRequest) :
    Evolves s₀ (State.addRequest s d copy q) := by
  unfold State.addRequest
  repeat' (first
    | with_reducible assumption
    | with_reducible apply ev_updDom
    | with_reducible apply domMem_mk
    | intro)

theorem ev_execLend {s₀ s : State} (h₀ : Evolves s₀ s) (v : View) (posted : Bool) (d : Fin 64) (rsv : BitVec 50) :
    EvolvesOut s₀ (execLend v posted d rsv s) := by
  unfold execLend
  repeat' (first
    | with_reducible assumption
    | (extract_lets +onlyGivenNames x; ((have y : Nat := x); clear y; clear_value x))
    | with_reducible apply ev_lksCmd
    | with_reducible apply ev_addRequest
    | split
    | with_reducible apply ev_mk
    | with_reducible apply evo_next
    | dsimp only
    | intro)

theorem ev_execReclaim {s₀ s : State} (h₀ : Evolves s₀ s) (v : View) (posted : Bool) (d : Fin 64) (rsv : BitVec 50) :
    EvolvesOut s₀ (execReclaim v posted d rsv s) := by
  unfold execReclaim
  repeat' (first
    | with_reducible assumption
    | (extract_lets +onlyGivenNames x; ((have y : Nat := x); clear y; clear_value x))
    | with_reducible apply ev_lksCmd
    | with_reducible apply ev_addRequest
    | split
    | with_reducible apply ev_mk
    | with_reducible apply evo_next
    | dsimp only
    | intro)

theorem ev_execMapShared {s₀ s : State} (h₀ : Evolves s₀ s) (v : View) (posted : Bool) (d : Fin 64) (rsv : BitVec 50) :
    EvolvesOut s₀ (execMapShared v posted d rsv s) := by
  unfold execMapShared
  repeat' (first
    | with_reducible assumption
    | with_reducible apply ev_lksCmd
    | with_reducible apply ev_addRequest
    | split
    | with_reducible apply ev_mk
    | with_reducible apply evo_next
    | dsimp only
    | intro)

theorem ev_execUnmapShared {s₀ s : State} (h₀ : Evolves s₀ s) (v : View) (posted : Bool) (d : Fin 64) (rsv : BitVec 50) :
    EvolvesOut s₀ (execUnmapShared v posted d rsv s) := by
  unfold execUnmapShared
  repeat' (first
    | with_reducible assumption
    | with_reducible apply ev_lksCmd
    | with_reducible apply ev_addRequest
    | split
    | with_reducible apply ev_mk
    | with_reducible apply evo_next
    | dsimp only
    | intro)

theorem ev_clearBanks {s₀ s : State} (h₀ : Evolves s₀ s) (first : Nat) (n : Nat) :
    Evolves s₀ (State.clearBanks s first n) := by
  unfold State.clearBanks
  repeat' (first
    | with_reducible assumption
    | with_reducible apply ev_mkAll
    | with_reducible exact fuses_same _
    | with_reducible exact lks_same _
    | with_reducible exact Nat.le_refl _
    | with_reducible exact MemoryWf.msix
    | with_reducible exact images_wf
    | with_reducible exact MemoryWf.doms
    | with_reducible exact MemoryWf.slots
    | with_reducible exact MemoryWf.opbuf
    | with_reducible apply memClear_wf
    | with_reducible exact MemoryWf.commons (by assumption)
    | intro)

theorem ev_clearUnits {s₀ s : State} (h₀ : Evolves s₀ s) (us : List Nat) :
    Evolves s₀ (State.clearUnits s us) := by
  unfold State.clearUnits
  repeat' (first
    | with_reducible assumption
    | (extract_lets +onlyGivenNames x; (refine (fun (hx : Evolves s₀ x) => ?_) ?_; (on_goal 1 => clear_value x); (on_goal 2 => subst x)))
    | with_reducible apply ev_clearArrays
    | with_reducible apply ev_foldl
    | with_reducible apply ev_mkAll
    | with_reducible apply domMem_mk
    | with_reducible exact fuses_same _
    | with_reducible exact lks_same _
    | with_reducible exact Nat.le_refl _
    | with_reducible exact MemoryWf.msix
    | with_reducible exact images_wf
    | with_reducible exact MemoryWf.slots
    | with_reducible exact MemoryWf.commons
    | with_reducible exact MemoryWf.opbuf
    | with_reducible apply doms_map
    | dsimp only
    | intro)

theorem ev_withholdFrames {s₀ s : State} (h₀ : Evolves s₀ s) (frames : List Nat) (units : List Nat) :
    Evolves s₀ (State.withholdFrames s frames units) := by
  unfold State.withholdFrames
  repeat' (first
    | with_reducible assumption
    | with_reducible apply ev_raiseDev
    | with_reducible apply ev_bump
    | with_reducible apply ev_updBoot
    | with_reducible apply ev_updFul
    | split)

theorem ev_execScrubEnd {s₀ s : State} (h₀ : Evolves s₀ s) (d : Fin 64) (nowNs : Nat) (withheldFrames : List Nat)
    (sramFailUnits : List Nat) :
    EvolvesOut s₀ (execScrubEnd d nowNs withheldFrames sramFailUnits s) := by
  unfold execScrubEnd
  repeat' (first
    | with_reducible assumption
    | (extract_lets +onlyGivenNames x; first
        | (refine (fun (hx : Evolves s₀ x) => ?_) ?_; (on_goal 1 => clear_value x); (on_goal 2 => subst x))
        | ((have y : Nat := x); clear y; clear_value x)
        | subst x)
    | with_reducible apply ev_updDom
    | with_reducible apply ev_clearBanks
    | with_reducible apply ev_clearUnits
    | with_reducible apply ev_updFul
    | with_reducible apply ev_withholdFrames
    | with_reducible apply ev_bump
    | with_reducible apply ev_raiseDev
    | with_reducible apply ev_foldl
    | split
    | with_reducible apply ev_mk
    | with_reducible apply evo_next
    | with_reducible apply domMem_mk
    | with_reducible apply domMem_mkAll
    | with_reducible exact memWf_nil
    | intro)

theorem ev_execMemoryKeyDestroy {s₀ s : State} (h₀ : Evolves s₀ s) (d : Fin 64) :
    EvolvesOut s₀ (execMemoryKeyDestroy d s) := by
  unfold execMemoryKeyDestroy
  repeat' (first
    | with_reducible assumption
    | with_reducible apply ev_updDom
    | split
    | with_reducible apply domMem_updKeys
    | with_reducible apply evo_next
    | intro)

theorem ev_latchActive {s₀ s : State} (h₀ : Evolves s₀ s) (d : Nat) :
    Evolves s₀ (State.latchActive s d) := by
  unfold State.latchActive
  repeat' (first
    | with_reducible assumption
    | (extract_lets +onlyGivenNames x; first
        | (refine (fun (hx : Evolves s₀ x) => ?_) ?_; (on_goal 1 => clear_value x); (on_goal 2 => subst x))
        | subst x)
    | with_reducible apply ev_updDom
    | with_reducible apply ev_lksFinal
    | with_reducible apply ev_msix
    | with_reducible apply ev_raiseDom
    | split
    | with_reducible apply domMem_mk
    | intro)

theorem ev_latchScrub {s₀ s : State} (h₀ : Evolves s₀ s) (d : Nat) (nowNs : Nat) :
    Evolves s₀ (State.latchScrub s d nowNs) := by
  unfold State.latchScrub
  repeat' (first
    | with_reducible assumption
    | (extract_lets +onlyGivenNames x; (refine (fun (hx : Evolves s₀ x) => ?_) ?_; (on_goal 1 => clear_value x); (on_goal 2 => subst x)))
    | with_reducible apply ev_freeSlots
    | with_reducible apply ev_raiseDom
    | with_reducible apply ev_updDom
    | with_reducible apply ev_clearUnits
    | with_reducible apply ev_msix
    | with_reducible apply ev_updFul
    | split
    | with_reducible apply ev_mk
    | with_reducible apply domMem_mk
    | dsimp only
    | intro)

theorem ev_latchFree {s₀ s : State} (h₀ : Evolves s₀ s) (d : Nat) :
    Evolves s₀ (State.latchFree s d) := by
  unfold State.latchFree
  repeat' (first
    | with_reducible assumption
    | (extract_lets +onlyGivenNames x; first
        | (refine (fun (hx : Evolves s₀ x) => ?_) ?_; (on_goal 1 => clear_value x); (on_goal 2 => subst x))
        | subst x)
    | with_reducible apply ev_putDom
    | with_reducible apply ev_updPci
    | with_reducible apply ev_msix
    | with_reducible apply ev_lksFinal
    | split
    | with_reducible apply domMem_mkAll
    | with_reducible exact memWf_nil
    | with_reducible apply domMem_mk
    | with_reducible exact domMem_dom (by assumption) _
    | with_reducible apply ev_mk
    | exact fun _ hx => hx
    | dsimp only
    | intro)

theorem ev_dropMisfits {s₀ s : State} (h₀ : Evolves s₀ s) (before : State) (d : Nat) :
    Evolves s₀ (State.dropMisfits s before d) := by
  unfold State.dropMisfits
  repeat' (first
    | with_reducible assumption
    | with_reducible apply ev_creditSlab
    | with_reducible apply ev_updSlab
    | with_reducible apply ev_foldl
    | split
    | with_reducible apply ev_mk
    | intro)

theorem ev_latchResize {s₀ s : State} (h₀ : Evolves s₀ s) (d : Nat) (copy : Nat) (nowNs : Nat) (r : DomRecord) :
    Evolves s₀ (State.latchResize s d copy nowNs r).1 := by
  unfold State.latchResize
  repeat' (first
    | with_reducible assumption
    | (extract_lets +onlyGivenNames x; first
        | (refine (fun (hx : Evolves s₀ x) => ?_) ?_; (on_goal 1 => clear_value x); (on_goal 2 => subst x))
        | ((have y : Bool := x); clear y; clear_value x)
        | ((have y : List Nat := x); clear y; clear_value x)
        | subst x)
    | with_reducible apply ev_updDom
    | with_reducible apply ev_dropMisfits
    | with_reducible apply ev_freeSlots
    | with_reducible apply ev_updFul
    | with_reducible apply ev_lksFinal
    | with_reducible apply ev_raiseDom
    | with_reducible apply ev_foldl
    | split
    | with_reducible apply domMem_mk
    | intro)
theorem ev_latchResize_eq {s₀ s : State} (h₀ : Evolves s₀ s) {d : Nat} {copy : Nat} {nowNs : Nat} {r : DomRecord} {r₀ : _}
    {u₀ : State}
    (e₀ : State.latchResize s d copy nowNs r = (u₀, r₀)) : Evolves s₀ u₀ := by
  have x := ev_latchResize h₀ d copy nowNs r
  rw [e₀] at x
  exact x

theorem ev_latchLeft {s₀ s : State} (h₀ : Evolves s₀ s) (d : Nat) :
    Evolves s₀ (State.latchLeft s d) := by
  unfold State.latchLeft
  repeat' (first
    | with_reducible assumption
    | (extract_lets +onlyGivenNames x; first
        | (refine (fun (hx : Evolves s₀ x) => ?_) ?_; (on_goal 1 => clear_value x); (on_goal 2 => subst x))
        | subst x)
    | with_reducible apply ev_updDom
    | split
    | with_reducible apply ev_mk
    | with_reducible apply domMem_mk
    | intro)

theorem domMem_sharePages {x : Dom} (h : DomMem x) (page d0 n : Nat) : DomMem (x.sharePages page d0 n) :=
  foldl_keeps DomMem _ (fun _ _ hy => domMem_wipePage (domMem_freeFrame hy _) _ _) _ h

theorem domMem_unsharePages {x : Dom} (h : DomMem x) (page n : Nat) : DomMem (x.unsharePages page n) :=
  foldl_keeps DomMem _ (fun _ _ hy => domMem_putEntry hy _ _) _ h

theorem ev_latchRequest {s₀ s : State} (h₀ : Evolves s₀ s) (d : Nat) (nowNs : Nat) (q : DomRequest) (copy : Nat) :
    Evolves s₀ (State.latchRequest s d nowNs q copy).1 := by
  unfold State.latchRequest
  repeat' (first
    | with_reducible assumption
    | (extract_lets +onlyGivenNames x; first
        | (refine (fun (hx : Evolves s₀ x) => ?_) ?_; (on_goal 1 => clear_value x); (on_goal 2 => subst x))
        | ((have y : Bool := x); clear y; clear_value x)
        | ((have y : List Nat := x); clear y; clear_value x)
        | subst x)
    | with_reducible apply ev_latchResize
    | (refine ev_latchResize_eq ?_ (by assumption))
    | with_reducible apply ev_clearUnits
    | with_reducible apply ev_updDom
    | with_reducible apply ev_lksFinal
    | with_reducible apply ev_dropMisfits
    | split
    | with_reducible apply domMem_sharePages
    | with_reducible apply domMem_unsharePages
    | with_reducible apply domMem_mk
    | with_reducible exact domMem_dom (by assumption) _
    | dsimp only
    | intro)
theorem ev_latchRequest_eq {s₀ s : State} (h₀ : Evolves s₀ s) {d : Nat} {nowNs : Nat} {q : DomRequest} {copy : Nat} {r₁ : _} {u₀ : State}
    (e₀ : State.latchRequest s d nowNs q copy = (u₀, r₁)) : Evolves s₀ u₀ := by
  have x := ev_latchRequest h₀ d nowNs q copy
  rw [e₀] at x
  exact x

theorem ev_latchRequests {s₀ s : State} (h₀ : Evolves s₀ s) (d : Nat) (nowNs : Nat) :
    Evolves s₀ (State.latchRequests s d nowNs) := by
  unfold State.latchRequests
  repeat' (first
    | with_reducible assumption
    | (extract_lets +onlyGivenNames x; first
        | subst x)
    | with_reducible apply ev_latchRequest
    | (refine ev_latchRequest_eq ?_ (by assumption))
    | with_reducible apply ev_updDom
    | with_reducible apply ev_foldl
    | with_reducible apply ev_foldl_fst
    | with_reducible apply ev_foldl_snd
    | (refine ev_foldl_fst_eq ?_ ?_ (by assumption))
    | (refine ev_foldl_snd_eq ?_ ?_ (by assumption))
    | split
    | with_reducible apply domMem_mk
    | with_reducible exact domMem_dom (by assumption) _
    | dsimp only
    | intro)

end Sys2Proof.Laws
end

