-- ==== Sys2Proof/Laws/EvolveLocksmith.lean ====
section
/-! SUPPORT. The operations of Machine/Locksmith.lean evolve the state: from Evolves s₀ s, Evolves s₀ of what the operation makes of s. -/

namespace Sys2Proof.Laws

open Sys2Proof.Machine Sys2Proof.Safety

theorem transition_rank {a b : Life} {k : Bool} (h : transition a b = some k) : lifeRank a ≤ lifeRank b := by
  cases a <;> cases b <;> first | exact (by decide) | (cases h)

theorem ev_lifePending {s t : State} (h : Evolves s t) (f : Fuses → Fuses) (b : Life)
    (hb : lifeRank t.fuses.life ≤ lifeRank b) (hp : (f t.fuses).pending = b) (h0 : (f t.fuses).minSvn = t.fuses.minSvn)
    (h1 : (f t.fuses).svnRaises = t.fuses.svnRaises) (h2 : (f t.fuses).life = t.fuses.life) (h3 : (f t.fuses).spi = t.fuses.spi) :
    Evolves s (t.updFuses f) := by
  refine ev_updFuses h f (le_of_eq h0.symm) (le_of_eq h1.symm) ?_ ?_
  · rw [h2, hp]; exact fun _ => ⟨hb, Nat.le_refl _⟩
  · rw [h3]; exact id

theorem ev_execSession {s₀ s : State} (h₀ : Evolves s₀ s) (v : View) (posted : Bool) (d : Fin 64) (rsv : BitVec 50) :
    EvolvesOut s₀ (execSession v posted d rsv s) := by
  unfold execSession
  repeat' (first
    | with_reducible assumption
    | (extract_lets +onlyGivenNames x; ((have y : Nat := x); clear y; clear_value x))
    | with_reducible apply ev_lksCmd
    | with_reducible apply ev_updDom
    | split
    | with_reducible apply ev_mk
    | with_reducible apply domMem_updKeys
    | with_reducible apply evo_next
    | dsimp only
    | intro)

theorem ev_execRotate {s₀ s : State} (h₀ : Evolves s₀ s) (v : View) (posted : Bool) (d : Fin 64) (rsv : BitVec 50) :
    EvolvesOut s₀ (execRotate v posted d rsv s) := by
  unfold execRotate
  repeat' (first
    | with_reducible assumption
    | (extract_lets +onlyGivenNames x; ((have y : Nat := x); clear y; clear_value x))
    | with_reducible apply ev_lksCmd
    | with_reducible apply ev_takeDraw
    | with_reducible apply ev_updDom
    | split
    | with_reducible apply ev_mk
    | with_reducible apply domMem_updKeys
    | with_reducible apply evo_next
    | dsimp only
    | intro)

theorem ev_sweepEnds {s₀ s : State} (h₀ : Evolves s₀ s) (d : Nat) (amount : Nat) :
    Evolves s₀ (State.sweepEnds s d amount) := by
  unfold State.sweepEnds
  repeat' (first
    | with_reducible assumption
    | (extract_lets +onlyGivenNames x; first
        | (refine (fun (hx : Evolves s₀ x) => ?_) ?_; (on_goal 1 => clear_value x); (on_goal 2 => subst x))
        | ((have y : Nat := x); clear y; clear_value x)
        | ((have y : List Nat := x); clear y; clear_value x)
        | subst x)
    | with_reducible apply ev_updDom
    | with_reducible apply ev_bump
    | with_reducible refine foldl_keeps DomMem _ ?_ _ ?_
    | split
    | with_reducible apply domMem_updKeys
    | with_reducible apply domMem_putEntry
    | with_reducible apply domMem_mk
    | dsimp only
    | intro)

theorem ev_latchKeys {s₀ s : State} (h₀ : Evolves s₀ s) (d : Nat) :
    Evolves s₀ (State.latchKeys s d) := by
  unfold State.latchKeys
  repeat' (first
    | with_reducible assumption
    | (extract_lets +onlyGivenNames x; first
        | (refine (fun (hx : Evolves s₀ x) => ?_) ?_; (on_goal 1 => clear_value x); (on_goal 2 => subst x))
        | subst x)
    | with_reducible apply ev_updDom
    | with_reducible apply ev_takeDraw
    | with_reducible apply ev_lksFinal
    | with_reducible apply ev_raiseDom
    | with_reducible apply ev_bump
    | split
    | with_reducible apply domMem_updKeys
    | dsimp only
    | intro)

theorem ev_execAttest {s₀ s : State} (h₀ : Evolves s₀ s) (v : View) (posted : Bool) (d : Fin 64) (rsv : BitVec 50) :
    EvolvesOut s₀ (execAttest v posted d rsv s) := by
  unfold execAttest
  repeat' (first
    | with_reducible assumption
    | (extract_lets +onlyGivenNames x; ((have y : Nat := x); clear y; clear_value x))
    | with_reducible apply ev_lksCmd
    | with_reducible apply ev_updLks
    | split
    | with_reducible apply ev_mk
    | with_reducible apply evo_next
    | with_reducible exact Nat.le_refl _
    | dsimp only
    | intro)

theorem ev_signB {s₀ s : State} (h₀ : Evolves s₀ s)  :
    Evolves s₀ (State.signB s) := by
  unfold State.signB
  repeat' (first
    | with_reducible assumption
    | (extract_lets +onlyGivenNames x; (refine (fun (hx : Evolves s₀ x) => ?_) ?_; (on_goal 1 => clear_value x); (on_goal 2 => subst x)))
    | with_reducible apply ev_updLks
    | with_reducible apply ev_lksFinal
    | with_reducible apply ev_bump
    | with_reducible apply ev_wrCommons
    | split
    | with_reducible exact Nat.le_refl _
    | dsimp only
    | intro)

theorem ev_signA {s₀ s : State} (h₀ : Evolves s₀ s)  :
    Evolves s₀ (State.signA s) := by
  unfold State.signA
  repeat' (first
    | with_reducible assumption
    | with_reducible apply ev_takeFree
    | with_reducible apply ev_emit
    | with_reducible apply ev_updLks
    | split
    | with_reducible exact Nat.le_refl _
    | dsimp only
    | intro)

theorem ev_execIdentity {s₀ s : State} (h₀ : Evolves s₀ s) (v : View) (posted : Bool) (d : Fin 64) (rsv : BitVec 50) :
    EvolvesOut s₀ (execIdentity v posted d rsv s) := by
  unfold execIdentity
  repeat' (first
    | with_reducible assumption
    | (extract_lets +onlyGivenNames x; ((have y : Nat := x); clear y; clear_value x))
    | with_reducible apply ev_lksCmd
    | with_reducible apply ev_lksFinal
    | with_reducible apply ev_wrCommons
    | split
    | with_reducible apply ev_mk
    | with_reducible apply evo_next
    | dsimp only
    | intro)

theorem ev_authFail {s₀ s : State} (h₀ : Evolves s₀ s) (copy : Nat) :
    Evolves s₀ (State.authFail s copy) := by
  unfold State.authFail
  repeat' (first
    | with_reducible assumption
    | with_reducible apply ev_raiseCopy
    | with_reducible apply ev_bump)

theorem ev_execCertInstall {s₀ s : State} (h₀ : Evolves s₀ s) (v : View) (posted : Bool) (d : Fin 64) (rsv : BitVec 50) :
    EvolvesOut s₀ (execCertInstall v posted d rsv s) := by
  unfold execCertInstall
  repeat' (first
    | with_reducible assumption
    | with_reducible apply ev_lksCmd
    | with_reducible apply ev_lksFinal
    | with_reducible apply ev_updFusesS
    | with_reducible apply ev_authFail
    | split
    | with_reducible apply ev_mk
    | with_reducible apply evo_next
    | with_reducible exact fuses_same _
    | dsimp only
    | intro)

theorem ev_execKeyImport {s₀ s : State} (h₀ : Evolves s₀ s) (v : View) (posted : Bool) (d : Fin 64) (rsv : BitVec 50) :
    EvolvesOut s₀ (execKeyImport v posted d rsv s) := by
  unfold execKeyImport
  repeat' (first
    | with_reducible assumption
    | (extract_lets +onlyGivenNames x; ((have y : Nat := x); clear y; clear_value x))
    | with_reducible apply ev_lksCmd
    | with_reducible apply ev_authFail
    | with_reducible apply ev_updDom
    | with_reducible apply ev_lksFinal
    | split
    | with_reducible apply ev_mk
    | with_reducible apply domMem_updKeys
    | with_reducible apply evo_next
    | dsimp only
    | intro)

theorem ev_execKeyDrop {s₀ s : State} (h₀ : Evolves s₀ s) (v : View) (posted : Bool) (d : Fin 64) (rsv : BitVec 50) :
    EvolvesOut s₀ (execKeyDrop v posted d rsv s) := by
  unfold execKeyDrop
  repeat' (first
    | with_reducible assumption
    | (extract_lets +onlyGivenNames x; ((have y : Nat := x); clear y; clear_value x))
    | with_reducible apply ev_lksCmd
    | with_reducible apply ev_lksFinal
    | with_reducible apply ev_updDom
    | split
    | with_reducible apply ev_mk
    | with_reducible apply domMem_updKeys
    | with_reducible apply evo_next
    | dsimp only
    | intro)

theorem ev_execLifecycle {s₀ s : State} (h₀ : Evolves s₀ s) (v : View) (posted : Bool) (d : Fin 64) (rsv : BitVec 50) :
    EvolvesOut s₀ (execLifecycle v posted d rsv s) := by
  unfold execLifecycle
  refine evo_next (ev_lksCmd h₀ _ _ _ _ _ _ (fun c t h => ?_))
  have rank : ∀ {b : Life} {k : Bool}, (lifeOf (bitsOf (t.arg c pLks 0) 0 3)).bind
      (fun b => (transition t.fuses.life b).map (fun k => (b, k))) = some (b, k) → lifeRank t.fuses.life ≤ lifeRank b := by
    intro b k e
    obtain ⟨a, -, e⟩ := Option.bind_eq_some_iff.1 e
    obtain ⟨k', e1, e2⟩ := Option.map_eq_some_iff.1 e
    cases e2
    exact transition_rank e1
  split
  · exact h
  · rename_i b e
    exact ev_lksFinal (ev_lifePending h _ b (rank e) rfl rfl rfl rfl rfl) _ _ _ _
  · rename_i b e
    split
    · exact h
    · dsimp only
      split
      · exact ev_lksFinal (ev_lifePending h _ b (rank e) rfl rfl rfl rfl rfl) _ _ _ _
      · exact ev_authFail h _

theorem ev_execSvnCommit {s₀ s : State} (h₀ : Evolves s₀ s) (v : View) (posted : Bool) (d : Fin 64) (rsv : BitVec 50) :
    EvolvesOut s₀ (execSvnCommit v posted d rsv s) := by
  unfold execSvnCommit
  refine evo_next (ev_lksCmd h₀ _ _ _ _ _ _ (fun c t h => ?_))
  split
  · exact h
  · rename_i hn
    refine ev_lksFinal (ev_updFuses h _ ?_ (Nat.le_succ _) ?_ ?_) _ _ _ _
    · exact Nat.le_of_lt (Nat.lt_of_not_le (fun x => hn (.inl x)))
    · exact fun x => ⟨x, Nat.le_refl _⟩
    · exact fun x => x

end Sys2Proof.Laws
end

