-- ==== Sys2Proof/Laws/EvolvePower.lean ====
section
/-! SUPPORT. The operations of Machine/Power.lean evolve the state: from Evolves s₀ s, Evolves s₀ of what the operation makes of s. -/

namespace Sys2Proof.Laws

open Sys2Proof.Machine Sys2Proof.Safety

theorem ev_execEpochDecision {s₀ s : State} (h₀ : Evolves s₀ s)  :
    EvolvesOut s₀ (execEpochDecision s) := by
  unfold execEpochDecision
  repeat' (first
    | with_reducible assumption
    | (extract_lets +onlyGivenNames x; first
        | ((have y : Nat := x); clear y; clear_value x)
        | subst x)
    | with_reducible apply ev_updPwr
    | split
    | with_reducible apply evo_next)

theorem ev_latchLevel {s₀ s : State} (h₀ : Evolves s₀ s) (tick : Nat) (first : Bool) :
    Evolves s₀ (State.latchLevel s tick first) := by
  unfold State.latchLevel
  repeat' (first
    | with_reducible assumption
    | (extract_lets +onlyGivenNames x; first
        | (refine (fun (hx : Evolves s₀ x) => ?_) ?_; (on_goal 1 => clear_value x); (on_goal 2 => subst x))
        | ((have y : Nat := x); clear y; clear_value x)
        | ((have y : Bool := x); clear y; clear_value x)
        | subst x)
    | with_reducible apply ev_updPwr
    | with_reducible apply ev_updTik
    | with_reducible apply ev_bump
    | with_reducible apply ev_updBdg
    | with_reducible apply ev_updFusesS
    | with_reducible apply ev_raiseDev
    | split
    | with_reducible exact fuses_same _
    | dsimp only
    | intro)

theorem ev_execComputeDieSensorRead {s₀ s : State} (h₀ : Evolves s₀ s) (sensors : List Nat) (pInW : Nat) (vInMv : Nat) :
    EvolvesOut s₀ (execComputeDieSensorRead sensors pInW vInMv s) := by
  unfold execComputeDieSensorRead
  repeat' (first
    | with_reducible assumption
    | with_reducible apply ev_updBoot
    | with_reducible apply ev_updPwr
    | split
    | with_reducible apply evo_next)

theorem ev_execInputRange {s₀ s : State} (h₀ : Evolves s₀ s) (mV : Nat) :
    EvolvesOut s₀ (execInputRange mV s) := by
  unfold execInputRange
  repeat' (first
    | with_reducible assumption
    | with_reducible apply ev_raiseDev
    | with_reducible apply ev_updBoot
    | with_reducible apply ev_updPwr
    | split
    | with_reducible apply evo_next)

theorem ev_endTickPower {s₀ s : State} (h₀ : Evolves s₀ s) (nowNs : Nat) :
    Evolves s₀ (State.endTickPower s nowNs) := by
  unfold State.endTickPower
  repeat' (first
    | with_reducible assumption
    | (extract_lets +onlyGivenNames x; first
        | (refine (fun (hx : Evolves s₀ x) => ?_) ?_; (on_goal 1 => clear_value x); (on_goal 2 => subst x))
        | ((have y : Nat := x); clear y; clear_value x)
        | subst x)
    | with_reducible apply ev_bump
    | with_reducible apply ev_updPwr
    | split)

theorem ev_writeBounds {s₀ s : State} (h₀ : Evolves s₀ s) (v : View) (ceil : Nat) (floor : Nat) (cap : Nat) (tj : Nat)
    (dram : Nat) :
    Evolves s₀ (State.writeBounds s v ceil floor cap tj dram) := by
  unfold State.writeBounds
  repeat' (first
    | with_reducible assumption
    | (extract_lets +onlyGivenNames x; subst x)
    | with_reducible apply ev_raiseDev
    | with_reducible apply ev_updPwr
    | split)

theorem ev_execPwrBoundsWrite {s₀ s : State} (h₀ : Evolves s₀ s) (v : View) (value : W32) :
    EvolvesOut s₀ (execPwrBoundsWrite v value s) := by
  unfold execPwrBoundsWrite
  repeat' (first
    | with_reducible assumption
    | (extract_lets +onlyGivenNames x; ((have y : Nat := x); clear y; clear_value x))
    | with_reducible apply ev_writeBounds
    | with_reducible apply evo_next)

theorem ev_execPwrTargetsWrite {s₀ s : State} (h₀ : Evolves s₀ s) (v : View) (value : W32) :
    EvolvesOut s₀ (execPwrTargetsWrite v value s) := by
  unfold execPwrTargetsWrite
  repeat' (first
    | with_reducible assumption
    | (extract_lets +onlyGivenNames x; ((have y : Nat := x); clear y; clear_value x))
    | with_reducible apply ev_writeBounds
    | with_reducible apply evo_next)

theorem ev_execMeasure {s₀ s : State} (h₀ : Evolves s₀ s) (v : View) :
    EvolvesOut s₀ (execMeasure v s) := by
  unfold execMeasure
  repeat' (first
    | with_reducible assumption
    | with_reducible apply ev_updBdg
    | split
    | with_reducible apply evo_next)

theorem ev_badgerWindow {s₀ s : State} (h₀ : Evolves s₀ s) :
    Evolves s₀ (State.badgerWindow s) := by
  unfold State.badgerWindow
  repeat' (first
    | with_reducible assumption
    | with_reducible apply ev_updBdg
    | split)

theorem ev_measured {s₀ s : State} (h₀ : Evolves s₀ s) (req : List Nat) :
    Evolves s₀ (State.measured s req) := by
  unfold State.measured
  repeat' (first
    | with_reducible assumption
    | (extract_lets +onlyGivenNames x; first
        | (refine (fun (hx : Evolves s₀ x) => ?_) ?_; (on_goal 1 => clear_value x); (on_goal 2 => subst x))
        | ((have y : Bool := x); clear y; clear_value x)
        | ((have y : List Nat := x); clear y; clear_value x)
        | subst x)
    | with_reducible apply ev_updFuses
    | with_reducible apply ev_updBdg
    | with_reducible apply ev_bump
    | with_reducible apply ev_raiseDev
    | split
    | with_reducible apply ev_updFusesS
    | with_reducible exact fuses_same _
    | exact Nat.le_refl _
    | exact ⟨by assumption, Nat.le_refl _⟩
    | dsimp only
    | intro)

theorem ev_execBadgerMeasure {s₀ s : State} (h₀ : Evolves s₀ s) (reading : BadgerReading) :
    EvolvesOut s₀ (execBadgerMeasure reading s) := by
  unfold execBadgerMeasure
  repeat' (first
    | with_reducible assumption
    | with_reducible apply ev_measured
    | split
    | with_reducible apply evo_next)

theorem ev_execMeasureSkipped {s₀ s : State} (h₀ : Evolves s₀ s) :
    EvolvesOut s₀ (execMeasureSkipped s) := by
  unfold execMeasureSkipped
  repeat' (first
    | with_reducible assumption
    | with_reducible apply ev_updBdg
    | with_reducible apply ev_raiseDev
    | split
    | with_reducible apply evo_next)

end Sys2Proof.Laws
end

