-- ==== Sys2Proof/Laws/EvolveLatch.lean ====
section
/-! SUPPORT. The operations of Machine/Latch.lean evolve the state: from Evolves s₀ s, Evolves s₀ of what the operation makes of s. -/

namespace Sys2Proof.Laws

open Sys2Proof.Machine Sys2Proof.Safety

theorem domMem_openBatch {x : Dom} (h : DomMem x) (id tick gen : Nat) : DomMem (x.openBatch id tick gen) := by
  unfold Dom.openBatch
  split
  · exact h
  · dsimp only
    split
    · exact h
    · exact h

theorem domMem_takeDevPlan {x : Dom} (h : DomMem x) : DomMem x.takeDevPlan := h

theorem domMem_shelved {x : Dom} (h : DomMem x) : DomMem x.shelved := h

theorem domMem_takeSlabs {x : Dom} (h : DomMem x) (tick : Nat) : DomMem (x.takeSlabs tick) := h

theorem ev_untraced {s₀ s : State} (h₀ : Evolves s₀ s) (p : Nat) :
    Evolves s₀ (State.untraced s p) := by
  unfold State.untraced
  repeat' (first
    | with_reducible assumption
    | split
    | with_reducible apply ev_mk)

theorem ev_latchEvicted {s₀ s : State} (h₀ : Evolves s₀ s) (d : Nat) (p : Nat) :
    Evolves s₀ (State.latchEvicted s d p) := by
  unfold State.latchEvicted
  repeat' (first
    | with_reducible assumption
    | (extract_lets +onlyGivenNames x; first
        | (refine (fun (hx : Evolves s₀ x) => ?_) ?_; (on_goal 1 => clear_value x); (on_goal 2 => subst x))
        | subst x)
    | with_reducible apply ev_updDom
    | with_reducible apply ev_untraced
    | split
    | with_reducible apply domMem_freeFrame
    | with_reducible apply domMem_putEntry
    | with_reducible apply domMem_mk
    | with_reducible exact domMem_dom (by assumption) _
    | dsimp only
    | intro)

theorem ev_latchDiscard {s₀ s : State} (h₀ : Evolves s₀ s) (d : Nat) (p : Nat) :
    Evolves s₀ (State.latchDiscard s d p) := by
  unfold State.latchDiscard
  repeat' (first
    | with_reducible assumption
    | (extract_lets +onlyGivenNames x; first
        | (refine (fun (hx : Evolves s₀ x) => ?_) ?_; (on_goal 1 => clear_value x); (on_goal 2 => subst x))
        | subst x)
    | with_reducible apply ev_updDom
    | with_reducible apply ev_untraced
    | with_reducible apply ev_nvme
    | split
    | with_reducible apply domMem_wipePage
    | with_reducible apply domMem_mk
    | with_reducible exact domMem_dom (by assumption) _
    | dsimp only
    | intro)

theorem ev_latchAct {s₀ s : State} (h₀ : Evolves s₀ s) (a1 : LatchAct) :
    Evolves s₀ (State.latchAct s a1) := by
  unfold State.latchAct
  repeat' (first
    | with_reducible assumption
    | with_reducible apply ev_updDom
    | with_reducible apply ev_updMemg
    | with_reducible apply ev_updBas
    | with_reducible apply ev_latchSlotLive
    | with_reducible apply ev_latchLoadFailed
    | with_reducible apply ev_latchLeave
    | with_reducible apply ev_latchStaged
    | with_reducible apply ev_latchUnstage
    | with_reducible apply ev_setExpert
    | with_reducible apply ev_latchSeqClose
    | with_reducible apply ev_latchEvicted
    | with_reducible apply ev_latchDiscard
    | split
    | with_reducible apply domMem_updVar
    | with_reducible apply domMem_updTir
    | with_reducible apply domMem_updCol
    | with_reducible apply domMem_updUpd
    | with_reducible apply domMem_updKvp
    | with_reducible apply domMem_updSeq
    | with_reducible apply domMem_putEntry
    | with_reducible apply domMem_freeFrame
    | with_reducible apply domMem_mk
    | with_reducible exact domMem_dom (by assumption) _
    | with_reducible apply ev_mk
    | with_reducible exact images_keep
    | dsimp only
    | intro)

theorem ev_latchActs {s₀ s : State} (h₀ : Evolves s₀ s)  :
    Evolves s₀ (State.latchActs s) := by
  unfold State.latchActs
  repeat' (first
    | with_reducible assumption
    | with_reducible apply ev_latchAct
    | with_reducible apply ev_foldl
    | with_reducible apply ev_mk
    | intro)

theorem ev_releaseClosed {s₀ s : State} (h₀ : Evolves s₀ s) (d : Nat) :
    Evolves s₀ (State.releaseClosed s d) := by
  unfold State.releaseClosed
  repeat' (first
    | with_reducible assumption
    | (extract_lets +onlyGivenNames x; first
        | (refine (fun (hx : Evolves s₀ x) => ?_) ?_; (on_goal 1 => clear_value x); (on_goal 2 => subst x))
        | subst x)
    | with_reducible apply ev_releaseStamp
    | with_reducible apply ev_updDom
    | with_reducible apply ev_foldl
    | split
    | with_reducible apply domMem_mk
    | intro)

theorem ev_demandPage {s₀ s : State} (h₀ : Evolves s₀ s) (d : Nat) (p : Nat) :
    Evolves s₀ (State.demandPage s d p) := by
  unfold State.demandPage
  repeat' (first
    | with_reducible assumption
    | (extract_lets +onlyGivenNames x; first
        | (refine (fun (hx : Evolves s₀ x) => ?_) ?_; (on_goal 1 => clear_value x); (on_goal 2 => subst x))
        | subst x)
    | with_reducible apply ev_bump
    | with_reducible apply ev_readPage
    | split)

theorem ev_demandReads {s₀ s : State} (h₀ : Evolves s₀ s) (d : Nat) :
    Evolves s₀ (State.demandReads s d) := by
  unfold State.demandReads
  repeat' (first
    | with_reducible assumption
    | (extract_lets +onlyGivenNames x; first
        | (refine (fun (hx : Evolves s₀ x) => ?_) ?_; (on_goal 1 => clear_value x); (on_goal 2 => subst x))
        | subst x)
    | with_reducible apply ev_updDom
    | with_reducible apply ev_startUp
    | (refine ev_startUp_eq ?_ (by assumption))
    | with_reducible apply ev_demandPage
    | with_reducible apply ev_foldl
    | with_reducible apply ev_foldl_fst
    | with_reducible apply ev_foldl_snd
    | (refine ev_foldl_fst_eq ?_ ?_ (by assumption))
    | (refine ev_foldl_snd_eq ?_ ?_ (by assumption))
    | split
    | with_reducible apply domMem_mk
    | with_reducible exact domMem_dom (by assumption) _
    | dsimp only
    | intro)

theorem domMem_openBatches {x : Dom} (h : DomMem x) (tick gen : Nat) : DomMem (x.openBatches tick gen) :=
  foldl_keeps DomMem _ (fun _ _ hy => domMem_openBatch hy _ _ _) _ h

theorem domMem_latchPlan {x : Dom} (h : DomMem x) (tick edom wCap : Nat) : DomMem (x.latchPlan tick edom wCap) := by
  unfold Dom.latchPlan
  dsimp only
  split
  · exact domMem_shelved h
  · exact domMem_takeSlabs h tick

theorem ev_takePlan {s₀ s : State} (h₀ : Evolves s₀ s) (d : Nat) (tick : Nat) :
    Evolves s₀ (State.takePlan s d tick) := by
  have h1 := ev_updDom h₀ d _ (fun x hx => domMem_latchPlan (domMem_openBatches hx tick s.stampGen) tick s.pwr.edom s.tik.wCap)
  unfold State.takePlan
  dsimp only
  split
  · exact h1
  · exact ev_demandReads h1 d

theorem ev_latchPreempt {s₀ s : State} (h₀ : Evolves s₀ s) (d : Nat) (tick : Nat) :
    Evolves s₀ (State.latchPreempt s d tick) := by
  unfold State.latchPreempt
  repeat' (first
    | with_reducible assumption
    | (extract_lets +onlyGivenNames x; first
        | (refine (fun (hx : Evolves s₀ x) => ?_) ?_; (on_goal 1 => clear_value x); (on_goal 2 => subst x))
        | subst x)
    | with_reducible apply ev_updDom
    | with_reducible apply ev_bump
    | with_reducible apply ev_msix
    | with_reducible apply ev_loseStaged
    | split
    | with_reducible apply domMem_mk
    | with_reducible exact domMem_dom (by assumption) _
    | dsimp only
    | intro)

theorem ev_chooseParent {s₀ s : State} (h₀ : Evolves s₀ s)  :
    Evolves s₀ (State.chooseParent s) := by
  unfold State.chooseParent
  repeat' (first
    | with_reducible assumption
    | (extract_lets +onlyGivenNames x; ((have y : Bool := x); clear y; clear_value x))
    | with_reducible apply ev_takeFree
    | with_reducible apply ev_updFab
    | split)

theorem ev_openTags {s₀ s : State} (h₀ : Evolves s₀ s) (before : State) :
    Evolves s₀ (State.openTags s before) := by
  unfold State.openTags
  repeat' (first
    | with_reducible assumption
    | with_reducible apply ev_pump
    | with_reducible apply ev_updPort
    | with_reducible apply ev_foldl
    | split
    | with_reducible apply ev_mk
    | dsimp only
    | intro)

theorem ev_latchFabric {s₀ s : State} (h₀ : Evolves s₀ s) (tick : Nat) :
    Evolves s₀ (State.latchFabric s tick) := by
  unfold State.latchFabric
  repeat' (first
    | with_reducible assumption
    | (extract_lets +onlyGivenNames x; (refine (fun (hx : Evolves s₀ x) => ?_) ?_; (on_goal 1 => clear_value x); (on_goal 2 => subst x)))
    | with_reducible apply ev_updFab
    | with_reducible apply ev_openTags
    | with_reducible apply ev_chooseParent
    | split)

theorem ev_firstLatch {s₀ s : State} (h₀ : Evolves s₀ s)  :
    Evolves s₀ (State.firstLatch s) := by
  unfold State.firstLatch
  repeat' (first
    | with_reducible assumption
    | with_reducible apply ev_takeDraw
    | with_reducible apply ev_msix
    | with_reducible apply ev_updDom
    | split
    | with_reducible apply domMem_mk
    | dsimp only
    | intro)

theorem ev_latchDom {s₀ s : State} (h₀ : Evolves s₀ s) (tick : Nat) (nowNs : Nat) (d : Nat) :
    Evolves s₀ (State.latchDom s tick nowNs d) := by
  unfold State.latchDom
  repeat' (first
    | with_reducible assumption
    | (extract_lets +onlyGivenNames x; first
        | (refine (fun (hx : Evolves s₀ x) => ?_) ?_; (on_goal 1 => clear_value x); (on_goal 2 => subst x))
        | subst x)
    | with_reducible apply ev_latchActive
    | with_reducible apply ev_latchFree
    | with_reducible apply ev_latchRequests
    | with_reducible apply ev_latchLeft
    | with_reducible apply ev_updDom
    | with_reducible apply ev_latchKeys
    | split
    | with_reducible apply domMem_latchSeqs)

theorem ev_latchTearDown {s₀ s : State} (h₀ : Evolves s₀ s) (tick : Nat) (nowNs : Nat) (d : Nat) :
    Evolves s₀ (State.latchTearDown s tick nowNs d) := by
  unfold State.latchTearDown
  repeat' (first
    | with_reducible assumption
    | (extract_lets +onlyGivenNames x; first
        | ((have y : Bool := x); clear y; clear_value x)
        | subst x)
    | with_reducible apply ev_latchScrub
    | split)

theorem ev_ownerChanges {s₀ s : State} (h₀ : Evolves s₀ s) (before : State) :
    Evolves s₀ (State.ownerChanges s before) := by
  unfold State.ownerChanges
  repeat' (first
    | with_reducible assumption
    | with_reducible apply ev_raiseUnit
    | with_reducible apply ev_foldl
    | split
    | with_reducible apply ev_mk
    | intro)

theorem ev_latchState {s₀ s : State} (h₀ : Evolves s₀ s) (tick : Nat) (nowNs : Nat) (first : Bool) :
    Evolves s₀ (State.latchState s tick nowNs first) := by
  unfold State.latchState
  repeat' (first
    | with_reducible assumption
    | (extract_lets +onlyGivenNames x; first
        | (refine (fun (hx : Evolves s₀ x) => ?_) ?_; (on_goal 1 => clear_value x); (on_goal 2 => subst x))
        | ((have y : Nat := x); clear y; clear_value x))
    | with_reducible apply ev_updTik
    | with_reducible apply ev_atTime
    | with_reducible apply ev_endTickPower
    | with_reducible apply ev_firstLatch
    | with_reducible apply ev_eachDom
    | with_reducible apply ev_latchTearDown
    | with_reducible apply ev_releaseClosed
    | with_reducible apply ev_releaseCopy
    | with_reducible apply ev_clearOldHeld
    | with_reducible apply ev_applyCommits
    | with_reducible apply ev_latchSwitch
    | with_reducible apply ev_latchActs
    | with_reducible apply ev_latchDom
    | with_reducible apply ev_latchPreempt
    | with_reducible apply ev_latchFabric
    | with_reducible apply ev_latchBase
    | with_reducible apply ev_updMemg
    | with_reducible apply ev_ownerChanges
    | with_reducible apply ev_latchLevel
    | split
    | with_reducible apply ev_mk
    | intro)

theorem ev_countBusy {s₀ s : State} (h₀ : Evolves s₀ s) (d : Nat) (nowNs : Nat) (b : Slab) :
    Evolves s₀ (State.countBusy s d nowNs b) := by
  unfold State.countBusy
  repeat' (first
    | with_reducible assumption
    | (extract_lets +onlyGivenNames x; first
        | (refine (fun (hx : Evolves s₀ x) => ?_) ?_; (on_goal 1 => clear_value x); (on_goal 2 => subst x))
        | ((have y : Nat := x); clear y; clear_value x)
        | ((have y : Hdr := x); clear y; clear_value x))
    | with_reducible apply ev_updSlab
    | with_reducible apply ev_bump
    | with_reducible apply ev_foldl
    | split
    | intro)

theorem ev_countHolds {s₀ s : State} (h₀ : Evolves s₀ s) (nowNs : Nat) :
    Evolves s₀ (State.countHolds s nowNs) := by
  unfold State.countHolds
  repeat' (first
    | with_reducible assumption
    | with_reducible apply ev_eachDom
    | with_reducible apply ev_updSlab
    | with_reducible apply ev_countBusy
    | with_reducible apply ev_foldl
    | split
    | intro)

theorem ev_execPlanLatch {s₀ s : State} (h₀ : Evolves s₀ s) (nowNs : Nat) :
    EvolvesOut s₀ (execPlanLatch nowNs s) := by
  unfold execPlanLatch
  repeat' (first
    | with_reducible assumption
    | (extract_lets +onlyGivenNames x; first
        | (refine (fun (hx : Evolves s₀ x) => ?_) ?_; (on_goal 1 => clear_value x); (on_goal 2 => subst x))
        | ((have y : Nat := x); clear y; clear_value x)
        | ((have y : Bool := x); clear y; clear_value x))
    | with_reducible apply ev_latchState
    | with_reducible apply ev_countHolds
    | with_reducible apply ev_eachDom
    | with_reducible apply ev_takePlan
    | with_reducible apply ev_emit
    | split
    | with_reducible apply evo_next
    | intro)

end Sys2Proof.Laws
end

