-- ==== Sys2Proof/Laws/EvolvePlan.lean ====
section
/-! SUPPORT. The operations of Machine/Plan.lean evolve the state: from Evolves s₀ s, Evolves s₀ of what the operation makes of s. -/

namespace Sys2Proof.Laws

open Sys2Proof.Machine Sys2Proof.Safety

theorem ev_reserveWord {s₀ s : State} (h₀ : Evolves s₀ s) (d : Nat) (order : Nat) :
    Evolves s₀ (State.reserveWord s d order).1 := by
  unfold State.reserveWord
  repeat' (first
    | with_reducible assumption
    | (extract_lets +onlyGivenNames x; subst x)
    | with_reducible apply ev_updDom
    | with_reducible apply ev_updSlab
    | split
    | with_reducible apply domMem_updQueue
    | intro)
theorem ev_reserveWord_eq {s₀ s : State} (h₀ : Evolves s₀ s) {d : Nat} {order : Nat} {r₀ : _} {u₀ : State}
    (e₀ : State.reserveWord s d order = (u₀, r₀)) : Evolves s₀ u₀ := by
  have x := ev_reserveWord h₀ d order
  rw [e₀] at x
  exact x

theorem ev_reserveReplay {s₀ s : State} (h₀ : Evolves s₀ s) (d : Nat) (order : Nat) :
    Evolves s₀ (State.reserveReplay s d order).1 := by
  unfold State.reserveReplay
  repeat' (first
    | with_reducible assumption
    | (extract_lets +onlyGivenNames x; first
        | subst x)
    | with_reducible apply ev_reserveWord
    | (refine ev_reserveWord_eq ?_ (by assumption))
    | with_reducible apply ev_updSlab
    | with_reducible apply ev_updDom
    | split
    | with_reducible apply domMem_updSlab
    | with_reducible apply domMem_updQueue
    | with_reducible apply domMem_mk
    | with_reducible exact domMem_dom (by assumption) _
    | dsimp only
    | intro)
theorem ev_reserveReplay_eq {s₀ s : State} (h₀ : Evolves s₀ s) {d : Nat} {order : Nat} {r₁ : _} {u₀ : State}
    (e₀ : State.reserveReplay s d order = (u₀, r₁)) : Evolves s₀ u₀ := by
  have x := ev_reserveReplay h₀ d order
  rw [e₀] at x
  exact x

theorem ev_endUnrun {s₀ s : State} (h₀ : Evolves s₀ s) (d : Nat) (order : Nat) (tick : Nat) (ws : List W64) (st : Status) :
    Evolves s₀ (State.endUnrun s d order tick ws st) := by
  unfold State.endUnrun
  repeat' (first
    | with_reducible assumption
    | with_reducible apply ev_noteUnloaded
    | with_reducible apply ev_updDom
    | split
    | with_reducible apply domMem_mk
    | with_reducible exact domMem_dom (by assumption) _
    | dsimp only
    | intro)

theorem ev_PlanAcc.skip {s₀ : State} {a : PlanAcc} (h₀ : Evolves s₀ a.st) (arrs : Option (Nat × Nat)) (hist : List Nat) :
    Evolves s₀ (PlanAcc.skip a arrs hist).st := by
  unfold PlanAcc.skip
  repeat' (first
    | with_reducible assumption)

theorem ev_placeCarried {s₀ : State} {a : PlanAcc} (h₀ : Evolves s₀ a.st) (t : State) (f : PlanFrame) (ctx : PlanCtx)
    (rs : Rat) (b : Slab) :
    Evolves s₀ (State.placeCarried t f ctx rs a b).st := by
  unfold State.placeCarried
  repeat' (first
    | with_reducible assumption)

theorem ev_placeReplay {s₀ : State} {a : PlanAcc} (h₀ : Evolves s₀ a.st) (t : State) (f : PlanFrame) (ctx : PlanCtx) (rs : Rat) (slots : Nat) (b : Slab) :
    Evolves s₀ (State.placeReplay t f ctx rs slots a b).st := by
  unfold State.placeReplay
  repeat' (first
    | with_reducible assumption
    | (extract_lets +onlyGivenNames x; first
        | (refine (fun (hx : Evolves s₀ x.st) => ?_) ?_; (on_goal 1 => clear_value x); (on_goal 2 => subst x))
        | ((have y : Hdr := x); clear y; clear_value x)
        | ((have y : Rat := x); clear y; clear_value x)
        | subst x)
    | with_reducible apply ev_PlanAcc.skip
    | with_reducible apply ev_bump
    | with_reducible apply ev_reserveReplay
    | (refine ev_reserveReplay_eq ?_ (by assumption))
    | with_reducible refine foldl_keeps (fun q : PlanAcc => Evolves s₀ q.st) _ ?_ _ ?_
    | split)

theorem ev_versionWait {s₀ s : State} (h₀ : Evolves s₀ s) (d : Nat) (b : Slab) :
    Evolves s₀ (State.versionWait s d b) := by
  unfold State.versionWait
  repeat' (first
    | with_reducible assumption
    | (extract_lets +onlyGivenNames x; (refine (fun (hx : Evolves s₀ x) => ?_) ?_; (on_goal 1 => clear_value x); (on_goal 2 => subst x)))
    | with_reducible apply ev_bump
    | with_reducible apply ev_raiseDom
    | with_reducible apply ev_updSlab
    | split)

theorem ev_placeFresh {s₀ : State} {a : PlanAcc} (h₀ : Evolves s₀ a.st) (t : State) (f : PlanFrame) (ctx : PlanCtx) (rs : Rat) (slots : Nat) (b : Slab) :
    Evolves s₀ (State.placeFresh t f ctx rs slots a b).st := by
  unfold State.placeFresh
  repeat' (first
    | with_reducible assumption
    | (extract_lets +onlyGivenNames x; first
        | (refine (fun (hx : Evolves s₀ x.st) => ?_) ?_; (on_goal 1 => clear_value x); (on_goal 2 => subst x))
        | ((have y : Nat := x); clear y; clear_value x)
        | ((have y : Bool := x); clear y; clear_value x)
        | ((have y : Hdr := x); clear y; clear_value x)
        | ((have y : List Nat := x); clear y; clear_value x)
        | ((have y : Rat := x); clear y; clear_value x)
        | subst x)
    | with_reducible apply ev_reserveWord
    | (refine ev_reserveWord_eq ?_ (by assumption))
    | with_reducible apply ev_endUnrun
    | with_reducible apply ev_PlanAcc.skip
    | with_reducible apply ev_versionWait
    | with_reducible apply ev_bump
    | with_reducible refine foldl_keeps (fun q : PlanAcc => Evolves s₀ q.st) _ ?_ _ ?_
    | split)

theorem ev_PlanAcc.put {s₀ : State} {a : PlanAcc} (h₀ : Evolves s₀ a.st) (p : Placed) :
    Evolves s₀ (PlanAcc.put a p).st := by
  unfold PlanAcc.put
  repeat' (first
    | with_reducible assumption)

theorem ev_placeDev {s₀ : State} {a : PlanAcc} (h₀ : Evolves s₀ a.st) (t : State) (f : PlanFrame) (ctx : PlanCtx) (rs : Rat) (slots : Nat) (q : DevPlan) :
    Evolves s₀ (State.placeDev t f ctx rs slots a q).st := by
  unfold State.placeDev
  repeat' (first
    | with_reducible assumption
    | with_reducible apply ev_bump
    | with_reducible apply ev_PlanAcc.put
    | with_reducible apply ev_foldl
    | with_reducible apply ev_foldl_fst
    | with_reducible apply ev_foldl_snd
    | (refine ev_foldl_fst_eq ?_ ?_ (by assumption))
    | (refine ev_foldl_snd_eq ?_ ?_ (by assumption))
    | with_reducible refine foldl_keeps (fun q : PlanAcc => Evolves s₀ q.st) _ ?_ _ ?_
    | split)

theorem ev_placeAll {s₀ : State} {a0 : PlanAcc} (h₀ : Evolves s₀ a0.st) (t : State) (f : PlanFrame) (ctx : PlanCtx) (first : Option Placed) :
    Evolves s₀ (State.placeAll t f ctx first a0).st := by
  unfold State.placeAll
  repeat' (first
    | with_reducible assumption
    | (extract_lets +onlyGivenNames x; first
        | (refine (fun (hx : Evolves s₀ x.st) => ?_) ?_; (on_goal 1 => clear_value x); (on_goal 2 => subst x))
        | ((have y : Rat := x); clear y; clear_value x)
        | subst x)
    | with_reducible apply ev_placeFresh
    | with_reducible apply ev_placeReplay
    | with_reducible apply ev_PlanAcc.put
    | with_reducible apply ev_placeCarried
    | with_reducible apply ev_placeDev
    | with_reducible apply ev_foldl
    | with_reducible apply ev_foldl_fst
    | with_reducible apply ev_foldl_snd
    | (refine ev_foldl_fst_eq ?_ ?_ (by assumption))
    | (refine ev_foldl_snd_eq ?_ ?_ (by assumption))
    | with_reducible refine foldl_keeps (fun q : PlanAcc => Evolves s₀ q.st) _ ?_ _ ?_
    | split
    | dsimp only
    | intro)

theorem ev_recordPlan {s₀ : State} {acc : PlanAcc} (h₀ : Evolves s₀ acc.st) (t : State) (f : PlanFrame) (d : Nat) :
    Evolves s₀ (State.recordPlan t f d acc) := by
  unfold State.recordPlan
  extract_lets y allow rtAllow items hRt hOther h late s1 unreserved
  have h1 : Evolves s₀ s1 := by
    refine ev_foldl _ (fun u p hu => ?_) _ (ev_updDom h₀ d _ (fun x hx => hx))
    dsimp only
    split
    · exact hu
    · split
      · exact ev_updDom hu d _ (fun x hx => hx)
      · exact ev_updSlab hu d _ _
  split
  · exact ev_raiseDom (ev_bump h1 d pDom 3 1) pDom 3 d
  · exact h1

theorem ev_planDomain {s₀ s : State} (h₀ : Evolves s₀ s) (t : State) (f : PlanFrame) (d : Nat) :
    Evolves s₀ (State.planDomain s t f d) := by
  unfold State.planDomain
  extract_lets y ctx was a0
  split
  · refine ev_recordPlan ?_ t f d
    split
    · exact ev_PlanAcc.put h₀ _
    · exact h₀
  · split
    · exact h₀
    · exact ev_recordPlan (ev_placeAll h₀ t f ctx _) t f d

theorem ev_mergeFetches {s₀ s : State} (h₀ : Evolves s₀ s) (t : State) :
    Evolves s₀ (State.mergeFetches s t) := by
  unfold State.mergeFetches
  repeat' (first
    | with_reducible assumption
    | (extract_lets +onlyGivenNames x; subst x)
    | with_reducible apply ev_eachDom
    | with_reducible apply ev_updDom
    | split
    | with_reducible apply domMem_mk
    | intro)

theorem ev_reserveEnded {s₀ s : State} (h₀ : Evolves s₀ s) (d : Nat) :
    Evolves s₀ (State.reserveEnded s d) := by
  unfold State.reserveEnded
  repeat' (first
    | with_reducible assumption
    | with_reducible apply ev_reserveWord
    | with_reducible apply ev_foldl
    | intro)

theorem ev_execPlanCutoff {s₀ s0 : State} (h₀ : Evolves s₀ s0) (nowNs : Nat) :
    EvolvesOut s₀ (execPlanCutoff nowNs s0) := by
  unfold execPlanCutoff
  repeat' (first
    | with_reducible assumption
    | (extract_lets +onlyGivenNames x; first
        | (refine (fun (hx : Evolves s₀ x) => ?_) ?_; (on_goal 1 => clear_value x); (on_goal 2 => subst x))
        | ((have y : Nat := x); clear y; clear_value x)
        | subst x)
    | with_reducible apply ev_atTime
    | with_reducible apply ev_latchState
    | with_reducible apply ev_updTik
    | with_reducible apply ev_updPwr
    | with_reducible apply ev_updMemg
    | with_reducible apply ev_eachDom
    | with_reducible apply ev_reserveEnded
    | with_reducible apply ev_planDomain
    | with_reducible apply ev_mergeFetches
    | with_reducible apply ev_foldl
    | with_reducible apply ev_foldl_fst
    | with_reducible apply ev_foldl_snd
    | (refine ev_foldl_fst_eq ?_ ?_ (by assumption))
    | (refine ev_foldl_snd_eq ?_ ?_ (by assumption))
    | split
    | with_reducible apply evo_next
    | dsimp only
    | intro)

end Sys2Proof.Laws
end

