-- ==== Sys2Proof/Laws/EvolveMbd.lean ====
section
/-! SUPPORT. The operations of Machine/Mbd.lean evolve the state: from Evolves s₀ s, Evolves s₀ of what the operation makes of s. -/

namespace Sys2Proof.Laws

open Sys2Proof.Machine Sys2Proof.Safety

theorem ev_swapLane {s₀ s : State} (h₀ : Evolves s₀ s) (stack : Nat) (channel : Nat) (lane : Nat) :
    Evolves s₀ (State.swapLane s stack channel lane) := by
  unfold State.swapLane
  repeat' (first
    | with_reducible assumption
    | (extract_lets +onlyGivenNames x; first
        | (refine (fun (hx : Evolves s₀ x) => ?_) ?_; (on_goal 1 => clear_value x); (on_goal 2 => subst x))
        | ((have y : Nat := x); clear y; clear_value x)
        | subst x)
    | with_reducible apply ev_raiseDev
    | with_reducible apply ev_bump
    | with_reducible apply ev_updMbd
    | split)

theorem ev_channelFails {s₀ s : State} (h₀ : Evolves s₀ s) (stack : Nat) :
    Evolves s₀ (State.channelFails s stack) := by
  unfold State.channelFails
  repeat' (first
    | with_reducible assumption
    | with_reducible apply ev_raiseDev
    | with_reducible apply ev_updMbd)

theorem ev_trainFails {s₀ s : State} (h₀ : Evolves s₀ s) (stack : Nat) (channel : Nat) (lane : Nat) :
    Evolves s₀ (State.trainFails s stack channel lane) := by
  unfold State.trainFails
  repeat' (first
    | with_reducible assumption
    | with_reducible apply ev_channelFails
    | with_reducible apply ev_swapLane
    | split)

theorem ev_execMaintWindowStart {s₀ s : State} (h₀ : Evolves s₀ s) :
    EvolvesOut s₀ (execMaintWindowStart s) := by
  unfold execMaintWindowStart
  repeat' (first
    | with_reducible assumption
    | (extract_lets +onlyGivenNames x; first
        | ((have y : Nat := x); clear y; clear_value x)
        | subst x)
    | with_reducible apply ev_updMbd
    | with_reducible apply ev_badgerWindow
    | with_reducible apply ev_foldl
    | with_reducible apply ev_foldl_fst
    | with_reducible apply ev_foldl_snd
    | (refine ev_foldl_fst_eq ?_ ?_ (by assumption))
    | (refine ev_foldl_snd_eq ?_ ?_ (by assumption))
    | split
    | with_reducible apply evo_next
    | dsimp only
    | intro)

theorem ev_itemDone {s₀ s : State} (h₀ : Evolves s₀ s) (stack : Nat) (i : MaintItem) :
    Evolves s₀ (State.itemDone s stack i) := by
  unfold State.itemDone
  repeat' (first
    | with_reducible assumption
    | with_reducible apply ev_swapLane
    | with_reducible apply ev_bump
    | with_reducible apply ev_updMbd
    | split)

theorem ev_retireFrames {s₀ s : State} (h₀ : Evolves s₀ s) (stack : Nat) (frames : List Nat) :
    Evolves s₀ (State.retireFrames s stack frames) := by
  unfold State.retireFrames
  repeat' (first
    | with_reducible assumption
    | with_reducible apply ev_raiseDev
    | with_reducible apply ev_updMbd
    | split)

theorem ev_itemSwap {s₀ s : State} (h₀ : Evolves s₀ s) (stack : Nat) (a1 : MaintItem) :
    Evolves s₀ (State.itemSwap s stack a1) := by
  unfold State.itemSwap
  repeat' (first
    | with_reducible assumption
    | with_reducible apply ev_swapLane
    | split)

theorem ev_itemEnds {s₀ s : State} (h₀ : Evolves s₀ s) (stack : Nat) (i : MaintItem) (a1 : MaintOutcome) :
    Evolves s₀ (State.itemEnds s stack i a1) := by
  unfold State.itemEnds
  repeat' (first
    | with_reducible assumption
    | with_reducible apply ev_itemDone
    | with_reducible apply ev_retireFrames
    | with_reducible apply ev_itemSwap
    | with_reducible apply ev_trainFails
    | split)

theorem ev_execMaintItemEnd {s₀ s : State} (h₀ : Evolves s₀ s) (stack : Fin 8) (item : MaintItem) (ended : MaintEnd) :
    EvolvesOut s₀ (execMaintItemEnd stack item ended s) := by
  unfold execMaintItemEnd
  repeat' (first
    | with_reducible assumption
    | (extract_lets +onlyGivenNames x; first
        | (refine (fun (hx : Evolves s₀ x) => ?_) ?_; (on_goal 1 => clear_value x); (on_goal 2 => subst x))
        | ((have y : Nat := x); clear y; clear_value x)
        | subst x)
    | with_reducible apply ev_meetError
    | (refine ev_meetError_eq ?_ (by assumption))
    | with_reducible apply ev_updMbd
    | with_reducible apply ev_itemEnds
    | with_reducible apply ev_foldl
    | with_reducible apply ev_foldl_fst
    | with_reducible apply ev_foldl_snd
    | (refine ev_foldl_fst_eq ?_ ?_ (by assumption))
    | (refine ev_foldl_snd_eq ?_ ?_ (by assumption))
    | split
    | with_reducible apply evo_next
    | dsimp only
    | intro)

theorem ev_execRoutineRetrainDue {s₀ s : State} (h₀ : Evolves s₀ s) (stack : Fin 8) (channel : Fin 32) :
    EvolvesOut s₀ (execRoutineRetrainDue stack channel s) := by
  unfold execRoutineRetrainDue
  repeat' (first
    | with_reducible assumption
    | with_reducible apply ev_updMbd
    | with_reducible apply evo_next)

theorem ev_execMaintStarved {s₀ s : State} (h₀ : Evolves s₀ s) (stack : Fin 8) :
    EvolvesOut s₀ (execMaintStarved stack s) := by
  unfold execMaintStarved
  repeat' (first
    | with_reducible assumption
    | with_reducible apply ev_raiseDev
    | with_reducible apply evo_next)

theorem ev_execEmergencyRetrain {s₀ s : State} (h₀ : Evolves s₀ s) (stack : Fin 8) (channel : Fin 32) (emergency : Emergency) (stallNs : Nat) (inWindow : Bool) :
    EvolvesOut s₀ (execEmergencyRetrain stack channel emergency stallNs inWindow s) := by
  unfold execEmergencyRetrain
  repeat' (first
    | with_reducible assumption
    | (extract_lets +onlyGivenNames x; first
        | (refine (fun (hx : Evolves s₀ x) => ?_) ?_; (on_goal 1 => clear_value x); (on_goal 2 => subst x))
        | ((have y : Nat := x); clear y; clear_value x)
        | subst x)
    | with_reducible apply ev_updMbd
    | with_reducible apply ev_swapLane
    | with_reducible apply ev_trainFails
    | with_reducible apply ev_bump
    | with_reducible apply ev_deviceStall
    | with_reducible apply ev_raiseDev
    | split
    | with_reducible apply evo_next)

theorem ev_execRefreshPause {s₀ s0 : State} (h₀ : Evolves s₀ s0) (nowNs : Nat) (temps : List Nat) :
    EvolvesOut s₀ (execRefreshPause nowNs temps s0) := by
  unfold execRefreshPause
  repeat' (first
    | with_reducible assumption
    | (extract_lets +onlyGivenNames x; first
        | (refine (fun (hx : Evolves s₀ x) => ?_) ?_; (on_goal 1 => clear_value x); (on_goal 2 => subst x))
        | ((have y : Nat := x); clear y; clear_value x))
    | with_reducible apply ev_atTime
    | with_reducible apply ev_raiseDev
    | with_reducible apply ev_bump
    | with_reducible apply ev_deviceStall
    | with_reducible apply ev_updMbd
    | with_reducible apply ev_updPwr
    | with_reducible apply ev_updMemg
    | with_reducible apply ev_foldl
    | split
    | with_reducible apply evo_next
    | intro)

end Sys2Proof.Laws
end

