-- ==== Sys2Proof/Laws/EvolveBoot.lean ====
section
/-! SUPPORT. The operations of Machine/Boot.lean evolve the state: from Evolves s₀ s, Evolves s₀ of what the operation makes of s. -/

namespace Sys2Proof.Laws

open Sys2Proof.Machine Sys2Proof.Safety

theorem ev_resetDevice {s₀ s : State} (h₀ : Evolves s₀ s) (cause : Nat) (keepLink : Bool) :
    Evolves s₀ (s.resetDevice cause keepLink) := by
  refine ev_trans h₀ ⟨rfl, fun w => ⟨?_, rfl, rfl, rfl, rfl, w.spi, ?_⟩, ⟨Nat.le_refl _, Nat.le_refl _, ?_, Nat.le_refl _,
    Nat.le_refl _, Nat.le_refl _⟩⟩
  · exact fun p hp => absurd hp List.not_mem_nil
  · show memWf (if keepLink = true then _ else _ : PciState).msixTable = true
    split <;> rfl
  · exact fun x => ⟨Nat.le_refl _, x⟩

theorem ev_pinsLow {s₀ s : State} (h₀ : Evolves s₀ s)  :
    Evolves s₀ (State.pinsLow s) := by
  unfold State.pinsLow
  repeat' (first
    | with_reducible assumption
    | with_reducible apply ev_emit
    | with_reducible apply ev_updBoot)

theorem ev_refClocks {s₀ s : State} (h₀ : Evolves s₀ s) (on : Bool) :
    Evolves s₀ (State.refClocks s on) := by
  unfold State.refClocks
  repeat' (first
    | with_reducible assumption
    | with_reducible apply ev_emit)

theorem ev_startBringUp {s₀ s : State} (h₀ : Evolves s₀ s) :
    Evolves s₀ (State.startBringUp s) := by
  unfold State.startBringUp
  repeat' (first
    | with_reducible assumption
    | (extract_lets +onlyGivenNames x; first
        | (refine (fun (hx : Evolves s₀ x) => ?_) ?_; (on_goal 1 => clear_value x); (on_goal 2 => subst x))
        | subst x)
    | with_reducible apply ev_updBoot
    | with_reducible apply ev_updFul
    | with_reducible apply ev_emit
    | with_reducible apply ev_refClocks
    | split)

theorem ev_restart {s₀ s : State} (h₀ : Evolves s₀ s) (cause : Nat) (keepLink : Bool) :
    Evolves s₀ (State.restart s cause keepLink) := by
  unfold State.restart
  repeat' (first
    | with_reducible assumption
    | with_reducible apply ev_startBringUp
    | with_reducible apply ev_emit
    | with_reducible apply ev_updBoot
    | with_reducible apply ev_resetDevice)

theorem ev_execPowerApply {s₀ s : State} (h₀ : Evolves s₀ s) (mV : Nat) :
    EvolvesOut s₀ (execPowerApply mV s) := by
  unfold execPowerApply
  repeat' (first
    | with_reducible assumption
    | (extract_lets +onlyGivenNames x; (refine (fun (hx : Evolves s₀ x) => ?_) ?_; (on_goal 1 => clear_value x); (on_goal 2 => subst x)))
    | with_reducible apply ev_emit
    | with_reducible apply ev_updBoot
    | with_reducible apply ev_startBringUp
    | split
    | with_reducible apply evo_next)

theorem ev_execPerstRise {s₀ s : State} (h₀ : Evolves s₀ s) (baudSel : Fin 4) (i3cAsel : Fin 4) :
    EvolvesOut s₀ (execPerstRise baudSel i3cAsel s) := by
  unfold execPerstRise
  repeat' (first
    | with_reducible assumption
    | (extract_lets +onlyGivenNames x; (refine (fun (hx : Evolves s₀ x) => ?_) ?_; (on_goal 1 => clear_value x); (on_goal 2 => subst x)))
    | with_reducible apply ev_updBoot
    | with_reducible apply ev_startBringUp
    | split
    | with_reducible apply evo_next)

theorem ev_execPerstFall {s₀ s : State} (h₀ : Evolves s₀ s) (cause : ResetCause) :
    EvolvesOut s₀ (execPerstFall cause s) := by
  unfold execPerstFall
  repeat' (first
    | with_reducible assumption
    | with_reducible apply ev_pinsLow
    | with_reducible apply ev_updBoot
    | with_reducible apply ev_resetDevice
    | with_reducible apply ev_restart
    | split
    | with_reducible apply evo_next)

theorem ev_execPwrGoodLoss {s₀ s : State} (h₀ : Evolves s₀ s)  :
    EvolvesOut s₀ (execPwrGoodLoss s) := by
  unfold execPwrGoodLoss
  repeat' (first
    | with_reducible assumption
    | with_reducible apply ev_emit
    | with_reducible apply ev_pinsLow
    | with_reducible apply ev_updBoot
    | with_reducible apply ev_resetDevice
    | split
    | with_reducible apply evo_next)

theorem ev_execWatchdog {s₀ s : State} (h₀ : Evolves s₀ s)  :
    EvolvesOut s₀ (execWatchdog s) := by
  unfold execWatchdog
  repeat' (first
    | with_reducible assumption
    | with_reducible apply ev_restart
    | split
    | with_reducible apply evo_next)

theorem ev_execThermTrip {s₀ s : State} (h₀ : Evolves s₀ s)  :
    EvolvesOut s₀ (execThermTrip s) := by
  unfold execThermTrip
  repeat' (first
    | with_reducible assumption
    | (extract_lets +onlyGivenNames x; (refine (fun (hx : Evolves s₀ x) => ?_) ?_; (on_goal 1 => clear_value x); (on_goal 2 => subst x)))
    | with_reducible apply ev_updBoot
    | with_reducible apply ev_resetDevice
    | with_reducible apply ev_emit
    | with_reducible apply ev_pinsLow
    | split
    | with_reducible apply evo_next)

theorem ev_execSupplyOut {s₀ s : State} (h₀ : Evolves s₀ s) (mV : Nat) (below40V : Bool) :
    EvolvesOut s₀ (execSupplyOut mV below40V s) := by
  unfold execSupplyOut
  repeat' (first
    | with_reducible assumption
    | (extract_lets +onlyGivenNames x; first
        | (refine (fun (hx : Evolves s₀ x) => ?_) ?_; (on_goal 1 => clear_value x); (on_goal 2 => subst x))
        | ((have y : Bool := x); clear y; clear_value x)
        | subst x)
    | with_reducible apply ev_resetDevice
    | with_reducible apply ev_updBoot
    | with_reducible apply ev_updMemg
    | with_reducible apply ev_pinsLow
    | with_reducible apply ev_refClocks
    | with_reducible apply ev_emit
    | split
    | with_reducible apply ev_mk
    | with_reducible apply evo_next)

theorem ev_execMbdTrainingDone {s₀ s : State} (h₀ : Evolves s₀ s) (failedStacks : List (Fin 8 × Fin 32)) :
    EvolvesOut s₀ (execMbdTrainingDone failedStacks s) := by
  unfold execMbdTrainingDone
  repeat' (first
    | with_reducible assumption
    | (extract_lets +onlyGivenNames x; first
        | (refine (fun (hx : Evolves s₀ x) => ?_) ?_; (on_goal 1 => clear_value x); (on_goal 2 => subst x))
        | ((have y : List Nat := x); clear y; clear_value x))
    | with_reducible apply ev_updBoot
    | with_reducible apply ev_channelFails
    | with_reducible apply ev_foldl
    | split
    | with_reducible apply ev_mk
    | with_reducible apply evo_next
    | intro)

theorem ev_execImageVerifyDone {s₀ s : State} (h₀ : Evolves s₀ s) (slot : Fin 2) (magic : W32) (format : Nat)
    (keyIndex : Nat) (svn : Nat) (bodyLen : Nat) (digestMatches : Bool) (rsaOk : Bool) (slhOk : Bool) (digest : List Byte) :
    EvolvesOut s₀ (execImageVerifyDone slot magic format keyIndex svn bodyLen digestMatches rsaOk slhOk digest s) := by
  unfold execImageVerifyDone
  repeat' (first
    | with_reducible assumption
    | (extract_lets +onlyGivenNames x; first
        | ((have y : Bool := x); clear y; clear_value x)
        | subst x)
    | with_reducible apply ev_updBoot
    | split
    | with_reducible apply evo_next)

theorem ev_execDeviceWipeEnd {s₀ s0 : State} (h₀ : Evolves s₀ s0) (withheldFrames : List Nat) (sramFailUnits : List Nat)
    (nowNs : Nat) :
    EvolvesOut s₀ (execDeviceWipeEnd withheldFrames sramFailUnits nowNs s0) := by
  unfold execDeviceWipeEnd
  repeat' (first
    | with_reducible assumption
    | (extract_lets +onlyGivenNames x; (refine (fun (hx : Evolves s₀ x) => ?_) ?_; (on_goal 1 => clear_value x); (on_goal 2 => subst x)))
    | with_reducible apply ev_atTime
    | with_reducible apply ev_withholdFrames
    | with_reducible apply ev_updFul
    | with_reducible apply ev_updBoot
    | split
    | with_reducible apply ev_mk
    | with_reducible apply evo_next)

theorem ev_execFirmwareRelease {s₀ s : State} (h₀ : Evolves s₀ s)  :
    EvolvesOut s₀ (execFirmwareRelease s) := by
  unfold execFirmwareRelease
  repeat' (first
    | with_reducible assumption
    | (extract_lets +onlyGivenNames x; first
        | (refine (fun (hx : Evolves s₀ x) => ?_) ?_; (on_goal 1 => clear_value x); (on_goal 2 => subst x))
        | ((have y : List Byte := x); clear y; clear_value x))
    | with_reducible apply ev_updFusesS
    | with_reducible apply ev_updBoot
    | with_reducible apply ev_emit
    | split
    | with_reducible apply evo_next
    | with_reducible exact fuses_same _
    | intro)

theorem ev_execPfReady {s₀ s0 : State} (h₀ : Evolves s₀ s0) (nowNs : Nat) :
    EvolvesOut s₀ (execPfReady nowNs s0) := by
  unfold execPfReady
  repeat' (first
    | with_reducible assumption
    | (extract_lets +onlyGivenNames x; (refine (fun (hx : Evolves s₀ x) => ?_) ?_; (on_goal 1 => clear_value x); (on_goal 2 => subst x)))
    | with_reducible apply ev_emit
    | with_reducible apply ev_atTime
    | with_reducible apply ev_updBoot
    | with_reducible apply ev_raiseDev
    | split
    | with_reducible apply evo_next)

theorem ev_execPcieLinkChange {s₀ s : State} (h₀ : Evolves s₀ s) (speed : Nat) (width : Nat) (dlUp : Bool) :
    EvolvesOut s₀ (execPcieLinkChange speed width dlUp s) := by
  unfold execPcieLinkChange
  repeat' (first
    | with_reducible assumption
    | (extract_lets +onlyGivenNames x; first
        | (refine (fun (hx : Evolves s₀ x) => ?_) ?_; (on_goal 1 => clear_value x); (on_goal 2 => subst x))
        | ((have y : Bool := x); clear y; clear_value x))
    | with_reducible apply ev_updPci
    | with_reducible apply ev_raiseDev
    | with_reducible apply ev_bump
    | split
    | with_reducible apply evo_next
    | dsimp only
    | intro)

theorem ev_execPfPowerStateChange {s₀ s : State} (h₀ : Evolves s₀ s) (d3hot : Bool) :
    EvolvesOut s₀ (execPfPowerStateChange d3hot s) := by
  unfold execPfPowerStateChange
  repeat' (first
    | with_reducible assumption
    | with_reducible apply ev_updPci
    | split
    | with_reducible apply evo_next
    | dsimp only
    | intro)

theorem ev_execPldmFirmwareUpdate {s₀ s : State} (h₀ : Evolves s₀ s) (slot : Fin 2) (offset : Nat) (bytes : List Byte) :
    EvolvesOut s₀ (execPldmFirmwareUpdate slot offset bytes s) := by
  unfold execPldmFirmwareUpdate
  apply evo_next
  split
  · exact ev_updFuses h₀ _ (Nat.le_refl _) (Nat.le_refl _) (fun x => ⟨x, Nat.le_refl _⟩) (fun x => memPut_wf _ _ _ x)
  · exact h₀

theorem ev_execPldmRequest {s₀ s : State} (h₀ : Evolves s₀ s) (query : PldmQuery) :
    EvolvesOut s₀ (execPldmRequest query s) := by
  unfold execPldmRequest
  repeat' (first
    | with_reducible assumption
    | with_reducible apply ev_emit
    | with_reducible apply ev_foldl
    | split
    | with_reducible apply evo_next
    | intro)

theorem ev_execI3cDynamicAddressAssign {s₀ s : State} (h₀ : Evolves s₀ s) (how : I3cAssign) :
    EvolvesOut s₀ (execI3cDynamicAddressAssign how s) := by
  unfold execI3cDynamicAddressAssign
  repeat' (first
    | with_reducible assumption
    | with_reducible apply ev_emit
    | with_reducible apply ev_updBoot
    | split
    | with_reducible apply evo_next)

end Sys2Proof.Laws
end

