-- ==== Sys2Proof/Laws/EvolveFabric.lean ====
section
/-! SUPPORT. The operations of Machine/Fabric.lean evolve the state: from Evolves s₀ s, Evolves s₀ of what the operation makes of s. -/

namespace Sys2Proof.Laws

open Sys2Proof.Machine Sys2Proof.Safety

theorem ev_rejectRemote {s₀ s : State} (h₀ : Evolves s₀ s) (tag : Nat) :
    Evolves s₀ (State.rejectRemote s tag) := by
  unfold State.rejectRemote
  repeat' (first
    | with_reducible assumption
    | (extract_lets +onlyGivenNames x; ((have y : Nat := x); clear y; clear_value x))
    | with_reducible apply ev_raiseDom
    | with_reducible apply ev_bump)

theorem ev_serveRead {s₀ s : State} (h₀ : Evolves s₀ s) (t : Txn) (errors : List ReadError) :
    Evolves s₀ (State.serveRead s t errors).1 := by
  unfold State.serveRead
  repeat' (first
    | with_reducible assumption
    | (extract_lets +onlyGivenNames x; ((have y : Nat := x); clear y; clear_value x))
    | (refine ev_meetErrors_eq ?_ (by assumption))
    | with_reducible apply ev_rejectRemote
    | with_reducible apply ev_bump
    | split)
theorem ev_serveRead_eq {s₀ s : State} (h₀ : Evolves s₀ s) {t : Txn} {errors : List ReadError} {r₀ : _} {u₀ : State}
    (e₀ : State.serveRead s t errors = (u₀, r₀)) : Evolves s₀ u₀ := by
  have x := ev_serveRead h₀ t errors
  rw [e₀] at x
  exact x

theorem ev_serveWrite {s₀ s : State} (h₀ : Evolves s₀ s) (t : Txn) (errors : List ReadError) :
    Evolves s₀ (State.serveWrite s t errors).1 := by
  unfold State.serveWrite
  repeat' (first
    | with_reducible assumption
    | (extract_lets +onlyGivenNames x; first
        | (refine (fun (hx : Evolves s₀ x) => ?_) ?_; (on_goal 1 => clear_value x); (on_goal 2 => subst x))
        | ((have y : Nat := x); clear y; clear_value x))
    | with_reducible apply ev_meetErrors
    | with_reducible apply ev_bump
    | with_reducible apply ev_wrMem
    | with_reducible apply ev_rejectRemote
    | split)
theorem ev_serveWrite_eq {s₀ s : State} (h₀ : Evolves s₀ s) {t : Txn} {errors : List ReadError} {r₀ : _} {u₀ : State}
    (e₀ : State.serveWrite s t errors = (u₀, r₀)) : Evolves s₀ u₀ := by
  have x := ev_serveWrite h₀ t errors
  rw [e₀] at x
  exact x

theorem ev_countAdds {s₀ s : State} (h₀ : Evolves s₀ s) (d : Nat) (a : Nat) (n : Nat) :
    Evolves s₀ (State.countAdds s d a n) := by
  unfold State.countAdds
  repeat' (first
    | with_reducible assumption
    | with_reducible apply ev_bump
    | with_reducible apply ev_foldl
    | dsimp only
    | intro)

theorem ev_serveRadd {s₀ s : State} (h₀ : Evolves s₀ s) (t : Txn) (errors : List ReadError) :
    Evolves s₀ (State.serveRadd s t errors).1 := by
  unfold State.serveRadd
  repeat' (first
    | with_reducible assumption
    | (extract_lets +onlyGivenNames x; first
        | ((have y : Nat := x); clear y; clear_value x)
        | ((have y : Bool := x); clear y; clear_value x))
    | (refine ev_meetErrors_eq ?_ (by assumption))
    | with_reducible apply ev_rejectRemote
    | with_reducible apply ev_bump
    | with_reducible apply ev_countAdds
    | with_reducible apply ev_wrMem
    | split)
theorem ev_serveRadd_eq {s₀ s : State} (h₀ : Evolves s₀ s) {t : Txn} {errors : List ReadError} {r₀ : _} {u₀ : State}
    (e₀ : State.serveRadd s t errors = (u₀, r₀)) : Evolves s₀ u₀ := by
  have x := ev_serveRadd h₀ t errors
  rw [e₀] at x
  exact x

theorem ev_serveAtom {s₀ s : State} (h₀ : Evolves s₀ s) (t : Txn) (errors : List ReadError) :
    Evolves s₀ (State.serveAtom s t errors).1 := by
  unfold State.serveAtom
  repeat' (first
    | with_reducible assumption
    | (extract_lets +onlyGivenNames x; first
        | ((have y : Nat := x); clear y; clear_value x)
        | ((have y : List Byte := x); clear y; clear_value x))
    | (refine ev_meetErrors_eq ?_ (by assumption))
    | with_reducible apply ev_rejectRemote
    | with_reducible apply ev_bump
    | with_reducible apply ev_countAdds
    | with_reducible apply ev_wrMem
    | split)
theorem ev_serveAtom_eq {s₀ s : State} (h₀ : Evolves s₀ s) {t : Txn} {errors : List ReadError} {r₀ : _} {u₀ : State}
    (e₀ : State.serveAtom s t errors = (u₀, r₀)) : Evolves s₀ u₀ := by
  have x := ev_serveAtom h₀ t errors
  rw [e₀] at x
  exact x

theorem ev_serveStripe {s₀ s : State} (h₀ : Evolves s₀ s) (t : Txn) (errors : List ReadError) :
    Evolves s₀ (State.serveStripe s t errors).1 := by
  unfold State.serveStripe
  repeat' (first
    | with_reducible assumption
    | (extract_lets +onlyGivenNames x; first
        | (refine (fun (hx : Evolves s₀ x) => ?_) ?_; (on_goal 1 => clear_value x); (on_goal 2 => subst x))
        | ((have y : Nat := x); clear y; clear_value x)
        | ((have y : List Byte := x); clear y; clear_value x)
        | ((have y : Stripe := x); clear y; clear_value x)
        | subst x)
    | with_reducible apply ev_rejectRemote
    | with_reducible apply ev_meetErrors
    | with_reducible apply ev_bump
    | split)
theorem ev_serveStripe_eq {s₀ s : State} (h₀ : Evolves s₀ s) {t : Txn} {errors : List ReadError} {r₀ : _} {u₀ : State}
    (e₀ : State.serveStripe s t errors = (u₀, r₀)) : Evolves s₀ u₀ := by
  have x := ev_serveStripe h₀ t errors
  rw [e₀] at x
  exact x

theorem ev_updOp {s₀ s : State} (h₀ : Evolves s₀ s) (d : Nat) (id : W32) (f : CollOp → CollOp) :
    Evolves s₀ (State.updOp s d id f) := by
  unfold State.updOp
  repeat' (first
    | with_reducible assumption
    | with_reducible apply ev_updDom
    | with_reducible apply domMem_updCol
    | intro)

theorem ev_opFails {s₀ s : State} (h₀ : Evolves s₀ s) (d : Nat) (o : CollOp) (st : Status) :
    Evolves s₀ (State.opFails s d o st) := by
  unfold State.opFails
  repeat' (first
    | with_reducible assumption
    | with_reducible apply ev_updSlab
    | with_reducible apply ev_updOp)

theorem ev_takeAnswer {s₀ s : State} (h₀ : Evolves s₀ s) (t : Txn) :
    Evolves s₀ (State.takeAnswer s t) := by
  unfold State.takeAnswer
  repeat' (first
    | with_reducible assumption
    | (extract_lets +onlyGivenNames x; first
        | (refine (fun (hx : Evolves s₀ x) => ?_) ?_; (on_goal 1 => clear_value x); (on_goal 2 => subst x))
        | ((have y : Nat := x); clear y; clear_value x)
        | subst x)
    | with_reducible apply ev_bump
    | with_reducible apply ev_updOp
    | with_reducible apply ev_updDom
    | with_reducible apply ev_opFails
    | split
    | with_reducible apply domMem_updCol
    | intro)

theorem ev_parentGone {s₀ s : State} (h₀ : Evolves s₀ s) (k : Nat) :
    Evolves s₀ (State.parentGone s k) := by
  unfold State.parentGone
  repeat' (first
    | with_reducible assumption
    | (extract_lets +onlyGivenNames x; first
        | (refine (fun (hx : Evolves s₀ x) => ?_) ?_; (on_goal 1 => clear_value x); (on_goal 2 => subst x))
        | subst x)
    | with_reducible apply ev_updCopy
    | with_reducible apply ev_stripeLost
    | with_reducible apply ev_foldl
    | with_reducible apply ev_foldl_fst
    | with_reducible apply ev_foldl_snd
    | (refine ev_foldl_fst_eq ?_ ?_ (by assumption))
    | (refine ev_foldl_snd_eq ?_ ?_ (by assumption))
    | split
    | with_reducible apply ev_mk
    | with_reducible apply imageWf_putStripe
    | with_reducible apply imageWf_write
    | with_reducible exact imageWf_copy' _
    | with_reducible exact imageWf_copy (by assumption) _
    | dsimp only
    | intro)

theorem ev_stripeIn {s₀ s : State} (h₀ : Evolves s₀ s) (k : Nat) (q : Nat) (src : StripeSource) (bytes : List Byte) :
    Evolves s₀ (State.stripeIn s k q src bytes) := by
  unfold State.stripeIn
  repeat' (first
    | with_reducible assumption
    | (extract_lets +onlyGivenNames x; subst x)
    | with_reducible apply ev_refetched
    | with_reducible apply ev_stripeArrives
    | split)

theorem ev_takeStripe {s₀ s : State} (h₀ : Evolves s₀ s) (t : Txn) :
    Evolves s₀ (State.takeStripe s t) := by
  unfold State.takeStripe
  repeat' (first
    | with_reducible assumption
    | (extract_lets +onlyGivenNames x; first
        | (refine (fun (hx : Evolves s₀ x) => ?_) ?_; (on_goal 1 => clear_value x); (on_goal 2 => subst x))
        | subst x)
    | with_reducible apply ev_updCopy
    | with_reducible apply ev_bump
    | with_reducible apply ev_stripeIn
    | with_reducible apply ev_parentGone
    | with_reducible apply ev_stripeLost
    | with_reducible apply ev_sourceFails
    | split
    | with_reducible apply imageWf_putStripe
    | with_reducible apply imageWf_write
    | with_reducible exact imageWf_copy' _
    | with_reducible exact imageWf_copy (by assumption) _
    | dsimp only
    | intro)

theorem ev_answered {s₀ s : State} (h₀ : Evolves s₀ s) (top : Nat) (t : Txn) :
    Evolves s₀ (State.answered s top t) := by
  unfold State.answered
  repeat' (first
    | with_reducible assumption
    | with_reducible apply ev_takeStripe
    | with_reducible apply ev_takeAnswer
    | split)

theorem ev_sendAnswer {s₀ s : State} (h₀ : Evolves s₀ s) (top : Nat) (t : Txn) : Evolves s₀ (s.sendAnswer top t) := by
  unfold State.sendAnswer
  split
  · exact ev_answered h₀ _ _
  · exact ev_forwardD h₀ _ _ _ _ _

theorem ev_serve {s₀ s : State} (h₀ : Evolves s₀ s) (top : Nat) (t : Txn) (errors : List ReadError) :
    Evolves s₀ (State.serve s top t errors).1 := by
  unfold State.serve
  repeat' (first
    | with_reducible assumption
    | (extract_lets +onlyGivenNames x; (refine (fun (hx : Evolves s₀ x.1) => ?_) ?_; (on_goal 1 => clear_value x); (on_goal 2 => subst x)))
    | with_reducible apply ev_serveRead
    | with_reducible apply ev_serveWrite
    | with_reducible apply ev_serveRadd
    | with_reducible apply ev_serveAtom
    | with_reducible apply ev_serveStripe
    | with_reducible apply ev_rejectRemote
    | split)
theorem ev_serve_eq {s₀ s : State} (h₀ : Evolves s₀ s) {top : Nat} {t : Txn} {errors : List ReadError} {r₀ : _} {u₀ : State}
    (e₀ : State.serve s top t errors = (u₀, r₀)) : Evolves s₀ u₀ := by
  have x := ev_serve h₀ top t errors
  rw [e₀] at x
  exact x

theorem ev_serveAndAnswer {s₀ s : State} (h₀ : Evolves s₀ s) (top : Nat) (t : Txn) (errors : List ReadError) :
    Evolves s₀ (State.serveAndAnswer s top t errors) := by
  unfold State.serveAndAnswer
  repeat' (first
    | with_reducible assumption
    | (extract_lets +onlyGivenNames x; (refine (fun (hx : Evolves s₀ x.1) => ?_) ?_; (on_goal 1 => clear_value x); (on_goal 2 => subst x)))
    | with_reducible apply ev_serve
    | with_reducible apply ev_sendAnswer
    | with_reducible apply ev_foldl
    | intro)

theorem ev_sendRequest {s₀ s : State} (h₀ : Evolves s₀ s) (top : Nat) (t : Txn) :
    Evolves s₀ (State.sendRequest s top t) := by
  unfold State.sendRequest
  repeat' (first
    | with_reducible assumption
    | with_reducible apply ev_serveAndAnswer
    | (refine ev_forward ?_ (by assumption))
    | with_reducible apply ev_answered
    | split)

theorem ev_unreachable {s₀ s : State} (h₀ : Evolves s₀ s) (vc : Nat) (top : Nat) (t : Txn) :
    Evolves s₀ (State.unreachable s vc top t) := by
  unfold State.unreachable
  repeat' (first
    | with_reducible assumption
    | with_reducible apply ev_sendAnswer
    | split)

theorem ev_sendChunk {s₀ s : State} (h₀ : Evolves s₀ s) (d : Nat) (sub : Nat) (b : CollBody) (o : CollOp) (ring : Nat)
    (step : Nat) :
    Evolves s₀ (State.sendChunk s d sub b o ring step) := by
  unfold State.sendChunk
  repeat' (first
    | with_reducible assumption
    | (extract_lets +onlyGivenNames x; ((have y : List Nat := x); clear y; clear_value x))
    | with_reducible apply ev_bump
    | with_reducible apply ev_forwardD
    | with_reducible apply ev_foldl
    | split
    | dsimp only
    | intro)

theorem ev_ringRuns {s₀ : State} (d sub : Nat) (b : CollBody) (ring : Nat) :
    ∀ (n : Nat) {s : State}, Evolves s₀ s → Evolves s₀ (s.ringRuns d sub b ring n)
  | 0, _, h => h
  | n + 1, s, h => by
    unfold State.ringRuns
    dsimp only
    repeat' (first
      | with_reducible assumption
      | with_reducible apply ev_ringRuns d sub b ring n
      | with_reducible apply ev_sendChunk
      | with_reducible apply ev_updOp
      | with_reducible apply ev_opFails
      | with_reducible apply ev_oweCredit
      | with_reducible apply ev_bump
      | with_reducible apply ev_updDom
      | split
      | exact fun _ hx => hx)

theorem ev_ringsRun {s₀ s : State} (h₀ : Evolves s₀ s) (d : Nat) (sub : Nat) (b : CollBody) :
    Evolves s₀ (State.ringsRun s d sub b) := by
  unfold State.ringsRun
  repeat' (first
    | with_reducible assumption
    | (extract_lets +onlyGivenNames x; first
        | (refine (fun (hx : Evolves s₀ x) => ?_) ?_; (on_goal 1 => clear_value x); (on_goal 2 => subst x))
        | ((have y : Nat := x); clear y; clear_value x))
    | with_reducible apply ev_ringRuns
    | with_reducible apply ev_updOp
    | split)

theorem ev_issue {s₀ s : State} (h₀ : Evolves s₀ s) (d : Nat) (b : CollBody) (top : Nat) (addr : Nat) (nblk : Nat)
    (slots : List (List Byte)) (localAt : Nat) :
    Evolves s₀ (State.issue s d b top addr nblk slots localAt) := by
  unfold State.issue
  repeat' (first
    | with_reducible assumption
    | (extract_lets +onlyGivenNames x; first
        | (refine (fun (hx : Evolves s₀ x) => ?_) ?_; (on_goal 1 => clear_value x); (on_goal 2 => subst x))
        | subst x)
    | with_reducible apply ev_updDom
    | with_reducible apply ev_updOp
    | with_reducible apply ev_bump
    | with_reducible apply ev_sendRequest
    | with_reducible apply domMem_updCol
    | intro)

theorem ev_issueAll {s₀ s : State} (h₀ : Evolves s₀ s) (d : Nat) (sub : Nat) (b : CollBody) (data : List Byte)
    (scales : List Byte) :
    Evolves s₀ (State.issueAll s d sub b data scales) := by
  unfold State.issueAll
  repeat' (first
    | with_reducible assumption
    | (extract_lets +onlyGivenNames x; first
        | ((have y : Nat := x); clear y; clear_value x)
        | subst x)
    | with_reducible apply ev_issue
    | with_reducible apply ev_foldl
    | split
    | dsimp only
    | intro)

theorem ev_startColl {s₀ s : State} (h₀ : Evolves s₀ s) (d : Nat) (order : Nat) (ws : List W64) :
    Evolves s₀ (State.startColl s d order ws).1 := by
  unfold State.startColl
  repeat' (first
    | with_reducible assumption
    | (extract_lets +onlyGivenNames x; first
        | (refine (fun (hx : Evolves s₀ x) => ?_) ?_; (on_goal 1 => clear_value x); (on_goal 2 => subst x))
        | ((have y : Bool := x); clear y; clear_value x)
        | ((have y : Hdr := x); clear y; clear_value x)
        | subst x)
    | with_reducible apply ev_updDom
    | with_reducible apply ev_issueAll
    | with_reducible apply ev_sendChunk
    | with_reducible apply ev_ringsRun
    | split
    | with_reducible apply domMem_updCol
    | intro)
theorem ev_startColl_eq {s₀ s : State} (h₀ : Evolves s₀ s) {d : Nat} {order : Nat} {ws : List W64} {r₀ : _} {u₀ : State}
    (e₀ : State.startColl s d order ws = (u₀, r₀)) : Evolves s₀ u₀ := by
  have x := ev_startColl h₀ d order ws
  rw [e₀] at x
  exact x

theorem ev_collArrive {s₀ s : State} (h₀ : Evolves s₀ s) (origin : Nat) (t : Txn) (step : Nat) (ring : Bool) :
    Evolves s₀ (State.collArrive s origin t step ring).1 := by
  unfold State.collArrive
  repeat' (first
    | with_reducible assumption
    | (extract_lets +onlyGivenNames x; first
        | (refine (fun (hx : Evolves s₀ x) => ?_) ?_; (on_goal 1 => clear_value x); (on_goal 2 => subst x))
        | ((have y : Nat := x); clear y; clear_value x)
        | subst x)
    | with_reducible apply ev_rejectRemote
    | with_reducible apply ev_updDom
    | with_reducible apply ev_opFails
    | with_reducible apply ev_ringsRun
    | with_reducible apply ev_updOp
    | with_reducible apply ev_bump
    | split
    | with_reducible apply domMem_updCol
    | intro)
theorem ev_collArrive_eq {s₀ s : State} (h₀ : Evolves s₀ s) {origin : Nat} {t : Txn} {step : Nat} {ring : Bool} {r₀ : _}
    {u₀ : State}
    (e₀ : State.collArrive s origin t step ring = (u₀, r₀)) : Evolves s₀ u₀ := by
  have x := ev_collArrive h₀ origin t step ring
  rw [e₀] at x
  exact x

theorem ev_freeBytes {s₀ s : State} (h₀ : Evolves s₀ s) (d : Nat) (space : Nat) (a : Nat) (n : Nat) :
    Evolves s₀ (State.freeBytes s d space a n) := by
  unfold State.freeBytes
  repeat' (first
    | with_reducible assumption
    | (extract_lets +onlyGivenNames x; ((have y : List Byte := x); clear y; clear_value x))
    | (refine ev_takeFree_eq ?_ (by assumption))
    | with_reducible apply ev_wrMem
    | with_reducible apply ev_wrCommons
    | split)

theorem ev_collResults {s₀ s : State} (h₀ : Evolves s₀ s) (d : Nat) (sub : Nat) (b : CollBody) (o : CollOp) :
    Evolves s₀ (State.collResults s d sub b o) := by
  unfold State.collResults
  repeat' (first
    | with_reducible assumption
    | (extract_lets +onlyGivenNames x; subst x)
    | with_reducible apply ev_wrMem
    | with_reducible apply ev_wrCommons
    | with_reducible apply ev_foldl
    | split
    | with_reducible apply ev_mk
    | dsimp only
    | intro)

theorem ev_collFailed {s₀ s : State} (h₀ : Evolves s₀ s) (d : Nat) (sub : Nat) (b : CollBody) :
    Evolves s₀ (State.collFailed s d sub b) := by
  unfold State.collFailed
  repeat' (first
    | with_reducible assumption
    | with_reducible apply ev_freeBytes
    | split)

theorem ev_endColl {s₀ s : State} (h₀ : Evolves s₀ s) (d : Nat) (ws : List W64) :
    Evolves s₀ (State.endColl s d ws) := by
  unfold State.endColl
  repeat' (first
    | with_reducible assumption
    | (extract_lets +onlyGivenNames x; first
        | (refine (fun (hx : Evolves s₀ x) => ?_) ?_; (on_goal 1 => clear_value x); (on_goal 2 => subst x))
        | ((have y : Nat := x); clear y; clear_value x)
        | subst x)
    | with_reducible apply ev_collFailed
    | with_reducible apply ev_bump
    | with_reducible apply ev_collResults
    | with_reducible apply ev_updDom
    | with_reducible apply ev_oweCredit
    | with_reducible apply ev_foldl
    | split
    | with_reducible apply ev_mk
    | with_reducible apply domMem_updCol
    | intro)

theorem ev_readStripe {s₀ s : State} (h₀ : Evolves s₀ s) (k : Nat) (q : Nat) :
    Evolves s₀ (State.readStripe s k q) := by
  unfold State.readStripe
  repeat' (first
    | with_reducible assumption
    | with_reducible apply ev_emit
    | with_reducible apply ev_bump)

theorem ev_askStripe {s₀ s0 : State} (h₀ : Evolves s₀ s0) (k : Nat) (q : Nat) :
    Evolves s₀ (State.askStripe s0 k q) := by
  unfold State.askStripe
  repeat' (first
    | with_reducible assumption
    | (extract_lets +onlyGivenNames x; first
        | (refine (fun (hx : Evolves s₀ x) => ?_) ?_; (on_goal 1 => clear_value x); (on_goal 2 => subst x))
        | subst x)
    | with_reducible apply ev_updCopy
    | with_reducible apply ev_stripeLost
    | with_reducible apply ev_sendRequest
    | with_reducible apply ev_readStripe
    | with_reducible apply ev_emit
    | split
    | with_reducible apply imageWf_putStripe
    | with_reducible apply imageWf_write
    | with_reducible exact imageWf_copy' _
    | with_reducible exact imageWf_copy (by assumption) _
    | dsimp only
    | intro)

theorem ev_execRdReq {s₀ s : State} (h₀ : Evolves s₀ s) (t : Txn) (errors : List ReadError) :
    EvolvesOut s₀ (execRdReq t errors s) := by
  unfold execRdReq
  repeat' (first
    | with_reducible assumption
    | with_reducible apply ev_serveAndAnswer
    | with_reducible apply evo_next)

theorem ev_execRdResp {s₀ s : State} (h₀ : Evolves s₀ s) (t : Txn) :
    EvolvesOut s₀ (execRdResp t s) := by
  unfold execRdResp
  repeat' (first
    | with_reducible assumption
    | with_reducible apply ev_takeAnswer
    | with_reducible apply evo_next)

theorem ev_execWr {s₀ s : State} (h₀ : Evolves s₀ s) (t : Txn) (errors : List ReadError) :
    EvolvesOut s₀ (execWr t errors s) := by
  unfold execWr
  repeat' (first
    | with_reducible assumption
    | with_reducible apply ev_serveAndAnswer
    | with_reducible apply evo_next)

theorem ev_execWrAck {s₀ s : State} (h₀ : Evolves s₀ s) (t : Txn) :
    EvolvesOut s₀ (execWrAck t s) := by
  unfold execWrAck
  repeat' (first
    | with_reducible assumption
    | with_reducible apply ev_takeAnswer
    | with_reducible apply evo_next)

theorem ev_execRadd {s₀ s : State} (h₀ : Evolves s₀ s) (t : Txn) (errors : List ReadError) :
    EvolvesOut s₀ (execRadd t errors s) := by
  unfold execRadd
  repeat' (first
    | with_reducible assumption
    | with_reducible apply ev_serveAndAnswer
    | with_reducible apply evo_next)

theorem ev_execRaddAck {s₀ s : State} (h₀ : Evolves s₀ s) (t : Txn) :
    EvolvesOut s₀ (execRaddAck t s) := by
  unfold execRaddAck
  repeat' (first
    | with_reducible assumption
    | with_reducible apply ev_takeAnswer
    | with_reducible apply evo_next)

theorem ev_execAtom {s₀ s : State} (h₀ : Evolves s₀ s) (t : Txn) (errors : List ReadError) :
    EvolvesOut s₀ (execAtom t errors s) := by
  unfold execAtom
  repeat' (first
    | with_reducible assumption
    | with_reducible apply ev_serveAndAnswer
    | with_reducible apply evo_next)

theorem ev_execAtomResp {s₀ s : State} (h₀ : Evolves s₀ s) (t : Txn) :
    EvolvesOut s₀ (execAtomResp t s) := by
  unfold execAtomResp
  repeat' (first
    | with_reducible assumption
    | with_reducible apply ev_takeAnswer
    | with_reducible apply evo_next)

theorem ev_execCollData {s₀ s : State} (h₀ : Evolves s₀ s) (t : Txn) (step : Nat) (ring : Bool) :
    EvolvesOut s₀ (execCollData t step ring s) := by
  unfold execCollData
  repeat' (first
    | with_reducible assumption
    | with_reducible apply ev_collArrive
    | with_reducible apply evo_next)

theorem ev_execStripeReq {s₀ s : State} (h₀ : Evolves s₀ s) (t : Txn) (errors : List ReadError) :
    EvolvesOut s₀ (execStripeReq t errors s) := by
  unfold execStripeReq
  repeat' (first
    | with_reducible assumption
    | with_reducible apply ev_serveAndAnswer
    | with_reducible apply evo_next)

theorem ev_execColTimeout {s₀ s : State} (h₀ : Evolves s₀ s) (d : Fin 64) (collId : W32) :
    EvolvesOut s₀ (execColTimeout d collId s) := by
  unfold execColTimeout
  repeat' (first
    | with_reducible assumption
    | with_reducible apply ev_raiseDom
    | with_reducible apply ev_opFails
    | split
    | with_reducible apply evo_next)

end Sys2Proof.Laws
end

