-- ==== Sys2Proof/Laws/EvolveTree.lean ====
section
/-! SUPPORT. The operations of Machine/Tree.lean evolve the state: from Evolves s₀ s, Evolves s₀ of what the operation makes of s. -/

namespace Sys2Proof.Laws

open Sys2Proof.Machine Sys2Proof.Safety

theorem ev_sendTick {s₀ s : State} (h₀ : Evolves s₀ s) (sym : TickSymbol) :
    Evolves s₀ (State.sendTick s sym) := by
  unfold State.sendTick
  repeat' (first
    | with_reducible assumption
    | with_reducible apply ev_emit
    | with_reducible apply ev_controlFlit
    | with_reducible apply ev_foldl
    | intro)

theorem ev_systemStretch {s₀ s : State} (h₀ : Evolves s₀ s) (ns : Nat) (code : Nat) :
    Evolves s₀ (State.systemStretch s ns code) := by
  unfold State.systemStretch
  repeat' (first
    | with_reducible assumption
    | (extract_lets +onlyGivenNames x; first
        | (refine (fun (hx : Evolves s₀ x) => ?_) ?_; (on_goal 1 => clear_value x); (on_goal 2 => subst x))
        | ((have y : Nat := x); clear y; clear_value x))
    | with_reducible apply ev_updTik
    | with_reducible apply ev_bump
    | with_reducible apply ev_raiseDev
    | with_reducible apply ev_addStretch
    | split)

theorem ev_forwardToken {s₀ s : State} (h₀ : Evolves s₀ s)  :
    Evolves s₀ (State.forwardToken s) := by
  unfold State.forwardToken
  repeat' (first
    | with_reducible assumption
    | with_reducible apply ev_emit
    | with_reducible apply ev_controlFlit
    | split)

theorem ev_sendDone {s₀ s : State} (h₀ : Evolves s₀ s) (nowNs : Nat) :
    Evolves s₀ (State.sendDone s nowNs) := by
  unfold State.sendDone
  repeat' (first
    | with_reducible assumption
    | with_reducible apply ev_forwardToken
    | with_reducible apply ev_updTik
    | split)

theorem ev_refetchEnds {s₀ s : State} (h₀ : Evolves s₀ s) :
    Evolves s₀ (State.refetchEnds s) := by
  unfold State.refetchEnds
  repeat' (first
    | with_reducible assumption
    | with_reducible apply ev_deviceStall
    | with_reducible apply ev_sendDone
    | split)

theorem ev_askNext {s₀ s : State} (h₀ : Evolves s₀ s) (before : State) (k : Nat) (q : Nat) :
    Evolves s₀ (State.askNext s before k q) := by
  unfold State.askNext
  repeat' (first
    | with_reducible assumption
    | (extract_lets +onlyGivenNames x; first
        | (refine (fun (hx : Evolves s₀ x) => ?_) ?_; (on_goal 1 => clear_value x); (on_goal 2 => subst x))
        | subst x)
    | with_reducible apply ev_askStripe
    | with_reducible apply ev_refetchEnds
    | split)

theorem ev_execDoneTokenReceive {s₀ s0 : State} (h₀ : Evolves s₀ s0) (port : Fin 18) (token : DoneToken) (nowNs : Nat) :
    EvolvesOut s₀ (execDoneTokenReceive port token nowNs s0) := by
  unfold execDoneTokenReceive
  repeat' (first
    | with_reducible assumption
    | (extract_lets +onlyGivenNames x; (refine (fun (hx : Evolves s₀ x) => ?_) ?_; (on_goal 1 => clear_value x); (on_goal 2 => subst x)))
    | with_reducible apply ev_atTime
    | with_reducible apply ev_forwardToken
    | with_reducible apply ev_updTik
    | split
    | with_reducible apply evo_next)

theorem ev_execTickStart {s₀ s0 : State} (h₀ : Evolves s₀ s0) (nowNs : Nat) :
    EvolvesOut s₀ (execTickStart nowNs s0) := by
  unfold execTickStart
  repeat' (first
    | with_reducible assumption
    | (extract_lets +onlyGivenNames x; first
        | (refine (fun (hx : Evolves s₀ x) => ?_) ?_; (on_goal 1 => clear_value x); (on_goal 2 => subst x))
        | ((have y : Nat := x); clear y; clear_value x)
        | subst x)
    | with_reducible apply ev_atTime
    | with_reducible apply ev_systemStretch
    | with_reducible apply ev_updTik
    | with_reducible apply ev_sendTick
    | split
    | with_reducible apply evo_next)

theorem ev_takeMaster {s₀ s : State} (h₀ : Evolves s₀ s) (m : Nat) :
    Evolves s₀ (State.takeMaster s m) := by
  unfold State.takeMaster
  repeat' (first
    | with_reducible assumption
    | (extract_lets +onlyGivenNames x; first
        | (refine (fun (hx : Evolves s₀ x) => ?_) ?_; (on_goal 1 => clear_value x); (on_goal 2 => subst x))
        | subst x)
    | with_reducible apply ev_chooseParent
    | with_reducible apply ev_updTik
    | with_reducible apply ev_raiseDev
    | split)

theorem ev_execMasterElection {s₀ s0 : State} (h₀ : Evolves s₀ s0) (nowNs : Nat) :
    EvolvesOut s₀ (execMasterElection nowNs s0) := by
  unfold execMasterElection
  repeat' (first
    | with_reducible assumption
    | (extract_lets +onlyGivenNames x; (refine (fun (hx : Evolves s₀ x) => ?_) ?_; (on_goal 1 => clear_value x); (on_goal 2 => subst x)))
    | with_reducible apply ev_atTime
    | with_reducible apply ev_takeMaster
    | with_reducible apply ev_updTik
    | with_reducible apply ev_sendTick
    | split
    | with_reducible apply evo_next)

theorem ev_execTickMasterTimeout {s₀ s0 : State} (h₀ : Evolves s₀ s0) (nowNs : Nat) :
    EvolvesOut s₀ (execTickMasterTimeout nowNs s0) := by
  unfold execTickMasterTimeout
  repeat' (first
    | with_reducible assumption
    | (extract_lets +onlyGivenNames x; first
        | (refine (fun (hx : Evolves s₀ x) => ?_) ?_; (on_goal 1 => clear_value x); (on_goal 2 => subst x))
        | ((have y : Nat := x); clear y; clear_value x))
    | with_reducible apply ev_atTime
    | with_reducible apply ev_updTik
    | with_reducible apply ev_raiseDev
    | with_reducible apply ev_takeMaster
    | with_reducible apply ev_systemStretch
    | with_reducible apply ev_sendTick
    | split
    | with_reducible apply evo_next)

theorem ev_execTickRefLoss {s₀ s : State} (h₀ : Evolves s₀ s)  :
    EvolvesOut s₀ (execTickRefLoss s) := by
  unfold execTickRefLoss
  repeat' (first
    | with_reducible assumption
    | with_reducible apply ev_raiseDev
    | with_reducible apply ev_updTik
    | split
    | with_reducible apply evo_next)

theorem ev_execTickSymbolReceive {s₀ s0 : State} (h₀ : Evolves s₀ s0) (port : Fin 18) (sym : TickSymbol) (nowNs : Nat) :
    EvolvesOut s₀ (execTickSymbolReceive port sym nowNs s0) := by
  unfold execTickSymbolReceive
  repeat' (first
    | with_reducible assumption
    | (extract_lets +onlyGivenNames x; first
        | (refine (fun (hx : Evolves s₀ x) => ?_) ?_; (on_goal 1 => clear_value x); (on_goal 2 => subst x))
        | ((have y : Nat := x); clear y; clear_value x)
        | ((have y : Bool := x); clear y; clear_value x)
        | subst x)
    | with_reducible apply ev_atTime
    | with_reducible apply ev_joinTime
    | with_reducible apply ev_takeMaster
    | with_reducible apply ev_updTik
    | with_reducible apply ev_systemStretch
    | with_reducible apply ev_addStretch
    | with_reducible apply ev_raiseDev
    | with_reducible apply ev_sendTick
    | split
    | with_reducible apply evo_next)

theorem ev_execFabricTrainingStart {s₀ s0 : State} (h₀ : Evolves s₀ s0) (nowNs : Nat) :
    EvolvesOut s₀ (execFabricTrainingStart nowNs s0) := by
  unfold execFabricTrainingStart
  repeat' (first
    | with_reducible assumption
    | with_reducible apply ev_updFab
    | with_reducible apply ev_atTime
    | split
    | with_reducible apply evo_next)

theorem ev_execSignalDetect {s₀ s0 : State} (h₀ : Evolves s₀ s0) (port : Fin 18) (nowNs : Nat) :
    EvolvesOut s₀ (execSignalDetect port nowNs s0) := by
  unfold execSignalDetect
  repeat' (first
    | with_reducible assumption
    | (extract_lets +onlyGivenNames x; first
        | subst x)
    | with_reducible apply ev_atTime
    | with_reducible apply ev_updPort
    | with_reducible apply ev_nameSelf
    | split
    | with_reducible apply evo_next)

theorem ev_execPortStageTimeout {s₀ s : State} (h₀ : Evolves s₀ s) (port : Fin 18) :
    EvolvesOut s₀ (execPortStageTimeout port s) := by
  unfold execPortStageTimeout
  repeat' (first
    | with_reducible assumption
    | with_reducible apply ev_portDown
    | split
    | with_reducible apply evo_next)

theorem ev_offerOn {s₀ s : State} (h₀ : Evolves s₀ s) (p : Nat) :
    Evolves s₀ (State.offerOn s p) := by
  unfold State.offerOn
  repeat' (first
    | with_reducible assumption
    | with_reducible apply ev_emit
    | with_reducible apply ev_controlFlit
    | with_reducible apply ev_foldl
    | intro)

theorem ev_startExchange {s₀ s : State} (h₀ : Evolves s₀ s) (p : Nat) (again : Bool) :
    Evolves s₀ (State.startExchange s p again) := by
  unfold State.startExchange
  repeat' (first
    | with_reducible assumption
    | (extract_lets +onlyGivenNames x; subst x)
    | with_reducible apply ev_takeDraw
    | with_reducible apply ev_emit
    | with_reducible apply ev_controlFlit
    | with_reducible apply ev_updPort
    | split)

theorem ev_execPortTrainingDone {s₀ s : State} (h₀ : Evolves s₀ s) (port : Fin 18) (lanes : BitVec 8) (peerDevice : Nat)
    (peerPort : Nat) (delayPs : Nat) (eyeMv : Nat) (eyeLane : Nat) :
    EvolvesOut s₀ (execPortTrainingDone port lanes peerDevice peerPort delayPs eyeMv eyeLane s) := by
  unfold execPortTrainingDone
  repeat' (first
    | with_reducible assumption
    | (extract_lets +onlyGivenNames x; first
        | (refine (fun (hx : Evolves s₀ x) => ?_) ?_; (on_goal 1 => clear_value x); (on_goal 2 => subst x))
        | ((have y : Nat := x); clear y; clear_value x)
        | subst x)
    | with_reducible apply ev_updPort
    | with_reducible apply ev_raiseDev
    | with_reducible apply ev_startExchange
    | with_reducible apply ev_offerOn
    | with_reducible apply ev_portUp
    | split
    | with_reducible apply evo_next)

theorem ev_execPrioOffer {s₀ s : State} (h₀ : Evolves s₀ s) (port : Fin 18) (device : Nat) (prio : Nat) :
    EvolvesOut s₀ (execPrioOffer port device prio s) := by
  unfold execPrioOffer
  repeat' (first
    | with_reducible assumption
    | (extract_lets +onlyGivenNames x; first
        | (refine (fun (hx : Evolves s₀ x) => ?_) ?_; (on_goal 1 => clear_value x); (on_goal 2 => subst x))
        | ((have y : List Nat := x); clear y; clear_value x))
    | with_reducible apply ev_updTik
    | with_reducible apply ev_emit
    | with_reducible apply ev_controlFlit
    | with_reducible apply ev_foldl
    | split
    | with_reducible apply evo_next
    | intro)

theorem ev_execOneWayDelayMeasurement {s₀ s : State} (h₀ : Evolves s₀ s) (port : Fin 18) (delayPs : Nat) :
    EvolvesOut s₀ (execOneWayDelayMeasurement port delayPs s) := by
  unfold execOneWayDelayMeasurement
  repeat' (first
    | with_reducible assumption
    | with_reducible apply ev_updPort
    | split
    | with_reducible apply evo_next)

theorem ev_execLaneFail {s₀ s : State} (h₀ : Evolves s₀ s) (port : Fin 18) (lane : Fin 8) :
    EvolvesOut s₀ (execLaneFail port lane s) := by
  unfold execLaneFail
  repeat' (first
    | with_reducible assumption
    | (extract_lets +onlyGivenNames x; first
        | (refine (fun (hx : Evolves s₀ x) => ?_) ?_; (on_goal 1 => clear_value x); (on_goal 2 => subst x))
        | subst x)
    | with_reducible apply ev_portDown
    | with_reducible apply ev_updPort
    | with_reducible apply ev_nameSelf
    | split
    | with_reducible apply evo_next)

theorem ev_signTranscript {s₀ s : State} (h₀ : Evolves s₀ s) (p : Nat) :
    Evolves s₀ (State.signTranscript s p) := by
  unfold State.signTranscript
  repeat' (first
    | with_reducible assumption
    | with_reducible apply ev_emit
    | with_reducible apply ev_controlFlit
    | with_reducible apply ev_updPort
    | with_reducible apply ev_updLks
    | split
    | with_reducible exact Nat.le_refl _
    | dsimp only
    | intro)

theorem ev_keySwitch {s₀ s : State} (h₀ : Evolves s₀ s) (p : Nat) :
    Evolves s₀ (State.keySwitch s p) := by
  unfold State.keySwitch
  repeat' (first
    | with_reducible assumption
    | (extract_lets +onlyGivenNames x; first
        | (refine (fun (hx : Evolves s₀ x) => ?_) ?_; (on_goal 1 => clear_value x); (on_goal 2 => subst x))
        | subst x)
    | with_reducible apply ev_updFab
    | with_reducible apply ev_updPort
    | with_reducible apply ev_pump
    | with_reducible apply ev_bump
    | split)

theorem ev_keysReady {s₀ s : State} (h₀ : Evolves s₀ s) (p : Nat) :
    Evolves s₀ (State.keysReady s p) := by
  unfold State.keysReady
  repeat' (first
    | with_reducible assumption
    | (extract_lets +onlyGivenNames x; first
        | (refine (fun (hx : Evolves s₀ x) => ?_) ?_; (on_goal 1 => clear_value x); (on_goal 2 => subst x))
        | subst x)
    | with_reducible apply ev_updPort
    | with_reducible apply ev_updFab
    | with_reducible apply ev_pump
    | with_reducible apply ev_bump
    | with_reducible apply ev_offerOn
    | with_reducible apply ev_portUp
    | split)

theorem ev_keyMessage {s₀ s : State} (h₀ : Evolves s₀ s) (p : Nat) (a1 : KeyMessage) :
    Evolves s₀ (State.keyMessage s p a1) := by
  unfold State.keyMessage
  repeat' (first
    | with_reducible assumption
    | (extract_lets +onlyGivenNames x; first
        | ((have y : Bool := x); clear y; clear_value x)
        | subst x)
    | with_reducible apply ev_takeDraw
    | with_reducible apply ev_signTranscript
    | with_reducible apply ev_emit
    | with_reducible apply ev_controlFlit
    | with_reducible apply ev_updPort
    | with_reducible apply ev_keysReady
    | with_reducible apply ev_keySwitch
    | split)

theorem ev_execKeyExchangeMessage {s₀ s : State} (h₀ : Evolves s₀ s) (port : Fin 18) (msg : KeyMessage) :
    EvolvesOut s₀ (execKeyExchangeMessage port msg s) := by
  unfold execKeyExchangeMessage
  repeat' (first
    | with_reducible assumption
    | with_reducible apply ev_keyMessage
    | split
    | with_reducible apply evo_next)

theorem ev_execRekey {s₀ s : State} (h₀ : Evolves s₀ s) (port : Fin 18) :
    EvolvesOut s₀ (execRekey port s) := by
  unfold execRekey
  repeat' (first
    | with_reducible assumption
    | (extract_lets +onlyGivenNames x; subst x)
    | with_reducible apply ev_startExchange
    | split
    | with_reducible apply evo_next)

theorem ev_execRekeyStall {s₀ s : State} (h₀ : Evolves s₀ s) (port : Fin 18) :
    EvolvesOut s₀ (execRekeyStall port s) := by
  unfold execRekeyStall
  repeat' (first
    | with_reducible assumption
    | (extract_lets +onlyGivenNames x; subst x)
    | with_reducible apply ev_raiseDev
    | with_reducible apply ev_updFab
    | with_reducible apply ev_updPort
    | split
    | with_reducible apply evo_next)

theorem ev_signC {s₀ s : State} (h₀ : Evolves s₀ s)  :
    Evolves s₀ (State.signC s) := by
  unfold State.signC
  repeat' (first
    | with_reducible assumption
    | (extract_lets +onlyGivenNames x; first
        | ((have y : List Nat := x); clear y; clear_value x)
        | ((have y : List Byte := x); clear y; clear_value x))
    | with_reducible apply ev_keysReady
    | with_reducible apply ev_emit
    | with_reducible apply ev_controlFlit
    | with_reducible apply ev_updPort
    | with_reducible apply ev_updLks
    | with_reducible apply ev_foldl
    | split
    | with_reducible apply ev_mk
    | with_reducible exact Nat.le_refl _
    | dsimp only
    | intro)

theorem ev_execReportSigned {s₀ s : State} (h₀ : Evolves s₀ s) (engine : Fin 3) :
    EvolvesOut s₀ (execReportSigned engine s) := by
  unfold execReportSigned
  repeat' (first
    | with_reducible assumption
    | with_reducible apply ev_signA
    | with_reducible apply ev_signB
    | with_reducible apply ev_signC
    | split
    | with_reducible apply evo_next)

theorem ev_askRetry {s₀ s : State} (h₀ : Evolves s₀ s) (p : Nat) :
    Evolves s₀ (State.askRetry s p) := by
  unfold State.askRetry
  repeat' (first
    | with_reducible assumption
    | with_reducible apply ev_emit
    | with_reducible apply ev_controlFlit)

theorem ev_takeData {s₀ s : State} (h₀ : Evolves s₀ s) (p : Nat) (hdr : Nat) (pl : List Byte) (errors : List ReadError) :
    Evolves s₀ (State.takeData s p hdr pl errors).1 := by
  unfold State.takeData
  repeat' (first
    | with_reducible assumption
    | (extract_lets +onlyGivenNames x; first
        | (refine (fun (hx : Evolves s₀ x) => ?_) ?_; (on_goal 1 => clear_value x); (on_goal 2 => subst x))
        | (refine (fun (hx : Evolves s₀ x.1) => ?_) ?_; (on_goal 1 => clear_value x); (on_goal 2 => subst x))
        | ((have y : Nat := x); clear y; clear_value x))
    | with_reducible apply ev_collArrive
    | with_reducible apply ev_answered
    | with_reducible apply ev_askNext
    | with_reducible apply ev_serveAndAnswer
    | (refine ev_forward ?_ (by assumption))
    | with_reducible apply ev_unreachable
    | split)
theorem ev_takeData_eq {s₀ s : State} (h₀ : Evolves s₀ s) {p : Nat} {hdr : Nat} {pl : List Byte} {errors : List ReadError}
    {r₀ : _} {u₀ : State}
    (e₀ : State.takeData s p hdr pl errors = (u₀, r₀)) : Evolves s₀ u₀ := by
  have x := ev_takeData h₀ p hdr pl errors
  rw [e₀] at x
  exact x

theorem ev_acceptFlit {s₀ s : State} (h₀ : Evolves s₀ s) (p : Nat) (hdr : Nat) (pl : List Byte) (errors : List ReadError) :
    Evolves s₀ (State.acceptFlit s p hdr pl errors) := by
  unfold State.acceptFlit
  repeat' (first
    | with_reducible assumption
    | (extract_lets +onlyGivenNames x; (refine (fun (hx : Evolves s₀ x) => ?_) ?_; (on_goal 1 => clear_value x); (on_goal 2 => subst x)))
    | with_reducible apply ev_bump
    | with_reducible apply ev_updPort
    | (refine ev_takeData_eq ?_ (by assumption))
    | with_reducible apply ev_oweCredit
    | split)

theorem ev_flitIn {s₀ s : State} (h₀ : Evolves s₀ s) (p : Nat) (bytes : List Byte) (errors : List ReadError) :
    Evolves s₀ (State.flitIn s p bytes errors) := by
  unfold State.flitIn
  repeat' (first
    | with_reducible assumption
    | (extract_lets +onlyGivenNames x; first
        | (refine (fun (hx : Evolves s₀ x) => ?_) ?_; (on_goal 1 => clear_value x); (on_goal 2 => subst x))
        | ((have y : Nat := x); clear y; clear_value x)
        | ((have y : Bool := x); clear y; clear_value x)
        | ((have y : List Byte := x); clear y; clear_value x)
        | subst x)
    | with_reducible apply ev_askRetry
    | with_reducible apply ev_pump
    | with_reducible apply ev_updPort
    | with_reducible apply ev_keySwitch
    | with_reducible apply ev_acceptFlit
    | with_reducible apply ev_idleOut
    | split)

theorem ev_execFlitReceive {s₀ s : State} (h₀ : Evolves s₀ s) (port : Fin 18) (bytes : List Byte) (fecOk : Bool)
    (errors : List ReadError) :
    EvolvesOut s₀ (execFlitReceive port bytes fecOk errors s) := by
  unfold execFlitReceive
  repeat' (first
    | with_reducible assumption
    | (extract_lets +onlyGivenNames x; ((have y : Nat := x); clear y; clear_value x))
    | with_reducible apply ev_bump
    | with_reducible apply ev_flitIn
    | split
    | with_reducible apply evo_next)

theorem ev_execRetryRequest {s₀ s : State} (h₀ : Evolves s₀ s) (port : Fin 18) (seq : Nat) :
    EvolvesOut s₀ (execRetryRequest port seq s) := by
  unfold execRetryRequest
  repeat' (first
    | with_reducible assumption
    | (extract_lets +onlyGivenNames x; first
        | (refine (fun (hx : Evolves s₀ x) => ?_) ?_; (on_goal 1 => clear_value x); (on_goal 2 => subst x))
        | ((have y : Nat := x); clear y; clear_value x)
        | subst x)
    | with_reducible apply ev_bump
    | with_reducible apply ev_updPort
    | with_reducible apply ev_portDown
    | with_reducible apply ev_emit
    | with_reducible apply ev_foldl
    | split
    | with_reducible apply evo_next
    | intro)

end Sys2Proof.Laws
end

