-- ==== Sys2Proof/Laws/EvolveCarter.lean ====
section
/-! SUPPORT. The operations of Machine/Carter.lean evolve the state: from Evolves s₀ s, Evolves s₀ of what the operation makes of s. -/

namespace Sys2Proof.Laws

open Sys2Proof.Machine Sys2Proof.Safety

theorem ev_runCarter {s₀ s : State} (h₀ : Evolves s₀ s) (amount : Nat) (dueNs : Nat) :
    Evolves s₀ (State.runCarter s amount dueNs) := by
  unfold State.runCarter
  repeat' (first
    | with_reducible assumption
    | with_reducible apply ev_askStripe
    | with_reducible apply ev_updBas
    | with_reducible apply ev_foldl
    | with_reducible apply ev_foldl_fst
    | with_reducible apply ev_foldl_snd
    | (refine ev_foldl_fst_eq ?_ ?_ (by assumption))
    | (refine ev_foldl_snd_eq ?_ ?_ (by assumption))
    | split
    | with_reducible exact images_keep
    | dsimp only
    | intro)

theorem ev_carterStall {s₀ s : State} (h₀ : Evolves s₀ s) (code : Nat) (counter : Option Nat) (ns : Nat) :
    Evolves s₀ (State.carterStall s code counter ns) := by
  unfold State.carterStall
  repeat' (first
    | with_reducible assumption
    | with_reducible apply ev_stallBy
    | split
    | with_reducible apply domMem_shiftFromDev
    | with_reducible apply ev_mk
    | dsimp only
    | intro)

theorem ev_chargeDev {s₀ s : State} (h₀ : Evolves s₀ s) (d : Nat) (energy : Rat) :
    Evolves s₀ (State.chargeDev s d energy) := by
  unfold State.chargeDev
  repeat' (first
    | with_reducible assumption
    | (extract_lets +onlyGivenNames x; first
        | ((have y : Nat := x); clear y; clear_value x)
        | ((have y : Rat := x); clear y; clear_value x)
        | subst x)
    | with_reducible apply ev_updPwr
    | with_reducible apply ev_bump
    | with_reducible apply ev_updDom
    | split
    | with_reducible apply domMem_mk
    | with_reducible exact domMem_dom (by assumption) _
    | with_reducible apply ev_mk
    | dsimp only
    | intro)

theorem ev_refetchBegins {s₀ s : State} (h₀ : Evolves s₀ s) (fromNs : Nat) :
    Evolves s₀ (State.refetchBegins s fromNs) := by
  unfold State.refetchBegins
  repeat' (first
    | with_reducible assumption
    | (extract_lets +onlyGivenNames x; first
        | (refine (fun (hx : Evolves s₀ x) => ?_) ?_; (on_goal 1 => clear_value x); (on_goal 2 => subst x))
        | subst x)
    | with_reducible apply ev_updBas
    | with_reducible apply ev_askStripe
    | with_reducible apply ev_chargeDev
    | with_reducible apply ev_step
    | with_reducible apply ev_foldl
    | with_reducible apply ev_foldl_fst
    | with_reducible apply ev_foldl_snd
    | (refine ev_foldl_fst_eq ?_ ?_ (by assumption))
    | (refine ev_foldl_snd_eq ?_ ?_ (by assumption))
    | split
    | with_reducible apply ev_mk
    | with_reducible exact images_keep
    | dsimp only
    | intro)

theorem ev_execStripeFetchDone {s₀ s0 : State} (h₀ : Evolves s₀ s0) (copy : Fin 2) (stripe : Nat) (source : StripeSource) (bytes : Timed (List Byte)) :
    EvolvesOut s₀ (execStripeFetchDone copy stripe source bytes s0) := by
  unfold execStripeFetchDone
  repeat' (first
    | with_reducible assumption
    | (extract_lets +onlyGivenNames x; first
        | (refine (fun (hx : Evolves s₀ x) => ?_) ?_; (on_goal 1 => clear_value x); (on_goal 2 => subst x))
        | ((have y : Nat := x); clear y; clear_value x)
        | subst x)
    | with_reducible apply ev_atTime
    | with_reducible apply ev_carterStall
    | with_reducible apply ev_stripeArrives
    | with_reducible apply ev_askNext
    | with_reducible apply ev_foldl
    | with_reducible apply ev_foldl_fst
    | with_reducible apply ev_foldl_snd
    | (refine ev_foldl_fst_eq ?_ ?_ (by assumption))
    | (refine ev_foldl_snd_eq ?_ ?_ (by assumption))
    | split
    | with_reducible apply evo_next)

theorem ev_execHostReadCompletion {s₀ s0 : State} (h₀ : Evolves s₀ s0) (copy : Fin 2) (stripe : Nat) (result : Timed HostReadResult) :
    EvolvesOut s₀ (execHostReadCompletion copy stripe result s0) := by
  unfold execHostReadCompletion
  repeat' (first
    | with_reducible assumption
    | (extract_lets +onlyGivenNames x; first
        | (refine (fun (hx : Evolves s₀ x) => ?_) ?_; (on_goal 1 => clear_value x); (on_goal 2 => subst x))
        | subst x)
    | with_reducible apply ev_atTime
    | with_reducible apply ev_updPci
    | with_reducible apply ev_bump
    | with_reducible apply ev_sourceFails
    | with_reducible apply ev_askNext
    | with_reducible apply ev_stripeIn
    | with_reducible apply ev_raiseDev
    | split
    | with_reducible apply ev_mk
    | exact fun _ hx => hx
    | with_reducible apply evo_next)

theorem ev_execStripeResp {s₀ s0 : State} (h₀ : Evolves s₀ s0) (t : Timed Txn) :
    EvolvesOut s₀ (execStripeResp t s0) := by
  unfold execStripeResp
  repeat' (first
    | with_reducible assumption
    | (extract_lets +onlyGivenNames x; first
        | (refine (fun (hx : Evolves s₀ x) => ?_) ?_; (on_goal 1 => clear_value x); (on_goal 2 => subst x))
        | subst x)
    | with_reducible apply ev_atTime
    | with_reducible apply ev_takeStripe
    | with_reducible apply ev_askNext
    | split
    | with_reducible apply evo_next)

theorem ev_execBaseRefetchDone {s₀ s : State} (h₀ : Evolves s₀ s) (copy : Fin 2) (stripe : Nat) (source : StripeSource)
    (bytes : List Byte) (stretchNs : Nat) :
    EvolvesOut s₀ (execBaseRefetchDone copy stripe source bytes stretchNs s) := by
  unfold execBaseRefetchDone
  repeat' (first
    | with_reducible assumption
    | (extract_lets +onlyGivenNames x; first
        | (refine (fun (hx : Evolves s₀ x) => ?_) ?_; (on_goal 1 => clear_value x); (on_goal 2 => subst x)))
    | with_reducible apply ev_askNext
    | with_reducible apply ev_deviceStall
    | with_reducible apply ev_refetched
    | with_reducible apply ev_failReplays
    | with_reducible apply ev_sendDone
    | with_reducible apply ev_atTime
    | split
    | with_reducible apply evo_next)

theorem ev_stripeReadFails {s₀ s : State} (h₀ : Evolves s₀ s) (k : Nat) (q : Nat) :
    Evolves s₀ (State.stripeReadFails s k q) := by
  unfold State.stripeReadFails
  repeat' (first
    | with_reducible assumption
    | with_reducible apply ev_updCopy
    | with_reducible apply ev_readStripe
    | with_reducible apply ev_bump
    | with_reducible apply ev_raiseDom
    | with_reducible apply ev_sourceFails
    | with_reducible apply ev_askNext
    | split
    | with_reducible apply ev_mk
    | with_reducible apply imageWf_putStripe
    | with_reducible apply imageWf_write
    | with_reducible exact imageWf_copy' _
    | with_reducible exact imageWf_copy (by assumption) _
    | dsimp only
    | intro)

theorem ev_workFails {s₀ s : State} (h₀ : Evolves s₀ s) (d : Nat) (w : NvmeWork) (code : Nat) (ns : Nat) :
    Evolves s₀ (State.workFails s d w code ns) := by
  unfold State.workFails
  repeat' (first
    | with_reducible assumption
    | with_reducible apply ev_flushFails
    | with_reducible apply ev_transferFails
    | with_reducible apply ev_stripeReadFails
    | with_reducible apply ev_carterStall
    | split)

theorem ev_execNvmeCommandFail {s₀ s : State} (h₀ : Evolves s₀ s) (d : Fin 64) (work : NvmeWork) (stallNs : Nat) :
    EvolvesOut s₀ (execNvmeCommandFail d work stallNs s) := by
  unfold execNvmeCommandFail
  repeat' (first
    | with_reducible assumption
    | with_reducible apply ev_workFails
    | with_reducible apply ev_raiseDev
    | with_reducible apply ev_bump
    | split
    | with_reducible apply evo_next)

theorem ev_timeoutStall {s₀ s : State} (h₀ : Evolves s₀ s) (d : Nat) (w : NvmeWork) (ns : Nat) :
    Evolves s₀ (State.timeoutStall s d w ns) := by
  unfold State.timeoutStall
  repeat' (first
    | with_reducible assumption
    | with_reducible apply ev_carterStall
    | with_reducible apply ev_flashStall
    | split)

theorem ev_execNvmeTimeout {s₀ s : State} (h₀ : Evolves s₀ s) (d : Fin 64) (work : NvmeWork) (stallNs : Nat) :
    EvolvesOut s₀ (execNvmeTimeout d work stallNs s) := by
  unfold execNvmeTimeout
  repeat' (first
    | with_reducible assumption
    | (extract_lets +onlyGivenNames x; first
        | (refine (fun (hx : Evolves s₀ x) => ?_) ?_; (on_goal 1 => clear_value x); (on_goal 2 => subst x))
        | subst x)
    | with_reducible apply ev_bump
    | with_reducible apply ev_timeoutStall
    | with_reducible apply ev_raiseDom
    | with_reducible apply ev_nvme
    | with_reducible apply ev_workFails
    | split
    | with_reducible apply evo_next)

theorem ev_failLink {s₀ s : State} (h₀ : Evolves s₀ s) (d : Nat) (link : Nat) :
    Evolves s₀ (State.failLink s d link) := by
  unfold State.failLink
  repeat' (first
    | with_reducible assumption
    | (extract_lets +onlyGivenNames x; first
        | (refine (fun (hx : Evolves s₀ x) => ?_) ?_; (on_goal 1 => clear_value x); (on_goal 2 => subst x))
        | subst x)
    | with_reducible apply ev_bump
    | with_reducible apply ev_transferFails
    | with_reducible apply ev_flushFails
    | with_reducible apply ev_foldl
    | with_reducible apply ev_foldl_fst
    | with_reducible apply ev_foldl_snd
    | (refine ev_foldl_fst_eq ?_ ?_ (by assumption))
    | (refine ev_foldl_snd_eq ?_ ?_ (by assumption))
    | split
    | with_reducible apply ev_mk
    | dsimp only
    | intro)

theorem ev_execNvmeLinkDown {s₀ s : State} (h₀ : Evolves s₀ s) (link : Fin 2) :
    EvolvesOut s₀ (execNvmeLinkDown link s) := by
  unfold execNvmeLinkDown
  repeat' (first
    | with_reducible assumption
    | (extract_lets +onlyGivenNames x; first
        | (refine (fun (hx : Evolves s₀ x) => ?_) ?_; (on_goal 1 => clear_value x); (on_goal 2 => subst x))
        | subst x)
    | with_reducible apply ev_raiseDev
    | with_reducible apply ev_eachDom
    | with_reducible apply ev_failLink
    | with_reducible apply ev_bump
    | with_reducible apply ev_stripeReadFails
    | with_reducible apply ev_foldl
    | with_reducible apply ev_foldl_fst
    | with_reducible apply ev_foldl_snd
    | (refine ev_foldl_fst_eq ?_ ?_ (by assumption))
    | (refine ev_foldl_snd_eq ?_ ?_ (by assumption))
    | split
    | with_reducible apply ev_mk
    | with_reducible apply evo_next
    | dsimp only
    | intro)

end Sys2Proof.Laws
end

