-- ==== Sys2Proof/Laws/EvolveTick.lean ====
section
/-! SUPPORT. The operations of Machine/Tick.lean evolve the state: from Evolves s₀ s, Evolves s₀ of what the operation makes of s. -/

namespace Sys2Proof.Laws

open Sys2Proof.Machine Sys2Proof.Safety

theorem ev_runKind {s₀ s : State} (h₀ : Evolves s₀ s) (d : Nat) (b : Slab) (sram : Bool) :
    Evolves s₀ (State.runKind s d b sram).st := by
  unfold State.runKind
  repeat' (first
    | with_reducible assumption
    | (extract_lets +onlyGivenNames x; first
        | (refine (fun (hx : Evolves s₀ x.1) => ?_) ?_; (on_goal 1 => clear_value x); (on_goal 2 => subst x))
        | ((have y : Hdr := x); clear y; clear_value x)
        | subst x)
    | with_reducible apply ev_runBase
    | with_reducible apply ev_runVariant
    | with_reducible apply ev_runAttention
    | with_reducible apply ev_runChain
    | with_reducible apply ev_runRoot
    | with_reducible apply ev_runPass
    | with_reducible apply ev_startColl
    | (refine ev_startColl_eq ?_ (by assumption))
    | with_reducible apply ev_runMigration
    | with_reducible apply ev_runScrub
    | with_reducible refine foldl_keeps (fun q : RunResult => Evolves s₀ q.st) _ ?_ _ ?_
    | split)

theorem memMove_wf (m sv : List Host.Cell) (a n : Nat) (h : memWf m = true) (h' : memWf sv = true) : memWf
    (memMove m sv a n) = true := by
  have h1 := (memWf_iff _).mp (memWf_filter m (fun c => c.1 < a) h)
  have h2 := (memWf_iff _).mp (memWf_filter sv (fun c => a ≤ c.1 && c.1 < a + n) h')
  have h3 := (memWf_iff _).mp (memWf_filter m (fun c => a + n ≤ c.1) h)
  rw [memMove, memWf_iff]
  refine ⟨?_, fun c hc => ?_⟩
  · rw [List.pairwise_append]
    refine ⟨h1.1, ?_, fun x hx y hy => ?_⟩
    · rw [List.pairwise_append]
      refine ⟨h2.1, h3.1, fun x hx y hy => ?_⟩
      have hx := (List.mem_filter.mp hx).2
      have hy := (List.mem_filter.mp hy).2
      simp only [Bool.and_eq_true, decide_eq_true_eq] at hx hy
      omega
    · have hx := (List.mem_filter.mp hx).2
      simp only [decide_eq_true_eq] at hx
      rcases List.mem_append.mp hy with hy | hy
      · have hy := (List.mem_filter.mp hy).2
        simp only [Bool.and_eq_true, decide_eq_true_eq] at hy
        omega
      · have hy := (List.mem_filter.mp hy).2
        simp only [decide_eq_true_eq] at hy
        omega
  · rcases List.mem_append.mp hc with hc | hc
    · exact h1.2 c hc
    · rcases List.mem_append.mp hc with hc | hc
      · exact h2.2 c hc
      · exact h3.2 c hc

theorem ev_runSlab {s₀ s : State} (h₀ : Evolves s₀ s) (d : Nat) (b : Slab) (sram : Bool) :
    Evolves s₀ (State.runSlab s d b sram).st := by
  unfold State.runSlab
  repeat' (first
    | with_reducible assumption
    | (extract_lets +onlyGivenNames x; first
        | (refine (fun (hx : Evolves s₀ x) => ?_) ?_; (on_goal 1 => clear_value x); (on_goal 2 => subst x))
        | (refine (fun (hx : Evolves s₀ x.st) => ?_) ?_; (on_goal 1 => clear_value x); (on_goal 2 => subst x))
        | subst x)
    | with_reducible apply ev_updDom
    | with_reducible apply ev_runKind
    | with_reducible refine foldl_keeps (fun q : RunResult => Evolves s₀ q.st) _ ?_ _ ?_
    | split
    | with_reducible apply domMem_updTir
    | with_reducible apply domMem_mk
    | with_reducible exact domMem_dom (by assumption) _
    | dsimp only
    | intro)

theorem ev_chargeSlab {s₀ s : State} (h₀ : Evolves s₀ s) (d : Nat) (b : Slab) :
    Evolves s₀ (State.chargeSlab s d b) := by
  unfold State.chargeSlab
  repeat' (first
    | with_reducible assumption
    | (extract_lets +onlyGivenNames x; first
        | (refine (fun (hx : Evolves s₀ x) => ?_) ?_; (on_goal 1 => clear_value x); (on_goal 2 => subst x))
        | ((have y : Nat := x); clear y; clear_value x)
        | ((have y : Hdr := x); clear y; clear_value x)
        | subst x)
    | with_reducible apply ev_updPwr
    | with_reducible apply ev_updDom
    | with_reducible apply ev_bump
    | split
    | with_reducible apply domMem_mk
    | intro)

theorem ev_countStart {s₀ s : State} (h₀ : Evolves s₀ s) (ws : List W64) :
    Evolves s₀ (State.countStart s ws) := by
  unfold State.countStart
  repeat' (first
    | with_reducible assumption
    | with_reducible apply ev_bump
    | with_reducible apply ev_foldl
    | intro)

theorem ev_endStep {s₀ s : State} (h₀ : Evolves s₀ s) (d : Nat) (ws : List W64) :
    Evolves s₀ (State.endStep s d ws) := by
  unfold State.endStep
  repeat' (first
    | with_reducible assumption
    | (extract_lets +onlyGivenNames x; ((have y : Hdr := x); clear y; clear_value x))
    | with_reducible apply ev_closeStep
    | split)

theorem ev_endIdle {s₀ s : State} (h₀ : Evolves s₀ s) (d : Nat) (b : Slab) (st : Status) :
    Evolves s₀ (State.endIdle s d b st) := by
  unfold State.endIdle
  repeat' (first
    | with_reducible assumption
    | (extract_lets +onlyGivenNames x; first
        | (refine (fun (hx : Evolves s₀ x) => ?_) ?_; (on_goal 1 => clear_value x); (on_goal 2 => subst x))
        | subst x)
    | with_reducible apply ev_endStep
    | with_reducible apply ev_noteUnloaded
    | with_reducible apply ev_endSlab
    | split)

theorem ev_unopen {s₀ s : State} (h₀ : Evolves s₀ s) (d : Nat) (ws : List W64) :
    Evolves s₀ (State.unopen s d ws) := by
  unfold State.unopen
  repeat' (first
    | with_reducible assumption
    | (extract_lets +onlyGivenNames x; ((have y : Nat := x); clear y; clear_value x))
    | with_reducible apply ev_updDom
    | with_reducible apply domMem_mk
    | intro)

theorem ev_endEffect {s₀ s : State} (h₀ : Evolves s₀ s) (d : Nat) (a1 : EndEffect) :
    Evolves s₀ (State.endEffect s d a1) := by
  unfold State.endEffect
  repeat' (first
    | with_reducible assumption
    | with_reducible apply ev_updDom
    | with_reducible apply ev_addNorm
    | with_reducible apply ev_updSlot
    | with_reducible apply ev_closeStep
    | with_reducible apply ev_verifyEnd
    | with_reducible apply ev_rootEnd
    | with_reducible apply ev_clearArrays
    | split
    | with_reducible apply domMem_updVec
    | with_reducible apply slotMem_mkAll
    | intro)

theorem ev_withholdTiles {s₀ s : State} (h₀ : Evolves s₀ s) (ws : List W64) :
    Evolves s₀ (State.withholdTiles s ws) := by
  unfold State.withholdTiles
  repeat' (first
    | with_reducible assumption
    | (extract_lets +onlyGivenNames x; first
        | ((have y : Hdr := x); clear y; clear_value x)
        | subst x)
    | with_reducible apply ev_accPutAll
    | split)

theorem ev_deferFor {s₀ s : State} (h₀ : Evolves s₀ s) (d : Nat) (w : Slab) :
    Evolves s₀ (State.deferFor s d w) := by
  unfold State.deferFor
  repeat' (first
    | with_reducible assumption
    | (extract_lets +onlyGivenNames x; subst x)
    | with_reducible apply ev_updDom
    | with_reducible apply domMem_mk
    | intro)

theorem ev_poisonPeer {s₀ s : State} (h₀ : Evolves s₀ s) (d : Nat) (from_ : Nat) (blocks : List (Nat × Nat)) (b : Slab) :
    Evolves s₀ (State.poisonPeer s d from_ blocks b) := by
  unfold State.poisonPeer
  repeat' (first
    | with_reducible assumption
    | (extract_lets +onlyGivenNames x; first
        | ((have y : Hdr := x); clear y; clear_value x)
        | subst x)
    | with_reducible apply ev_withholdTiles
    | with_reducible apply ev_updSlab
    | with_reducible apply ev_deferFor
    | split)

theorem ev_poisonPeers {s₀ s : State} (h₀ : Evolves s₀ s) (d : Nat) (b : Slab) (blocks : List (Nat × Nat)) :
    Evolves s₀ (State.poisonPeers s d b blocks) := by
  unfold State.poisonPeers
  repeat' (first
    | with_reducible assumption
    | with_reducible apply ev_poisonPeer
    | with_reducible apply ev_foldl
    | split
    | intro)

theorem ev_withhold {s₀ s : State} (h₀ : Evolves s₀ s) (d : Nat) (b : Slab) :
    Evolves s₀ (State.withhold s d b) := by
  unfold State.withhold
  repeat' (first
    | with_reducible assumption
    | (extract_lets +onlyGivenNames x; (refine (fun (hx : Evolves s₀ x) => ?_) ?_; (on_goal 1 => clear_value x); (on_goal 2 => subst x)))
    | with_reducible apply ev_updSlab
    | with_reducible apply ev_raiseDom
    | with_reducible apply ev_bump
    | with_reducible apply ev_deferFor
    | with_reducible apply ev_setEvent
    | split)

theorem putCells_wf (m : List Host.Cell) (cs : List Host.Cell) (h : memWf m = true) : memWf (putCells m cs) = true :=
  foldl_keeps (fun n => memWf n = true) _ (fun _ _ hn => memPut_wf _ _ _ hn) _ h

theorem ev_putWithheld {s₀ s : State} (h₀ : Evolves s₀ s) (d : Nat) (w : Withheld) :
    Evolves s₀ (State.putWithheld s d w) := by
  unfold State.putWithheld
  extract_lets s1 s2
  have h1 : Evolves s₀ s1 := ev_updDom h₀ d _ (fun x hx => ⟨putCells_wf _ _ hx.1, hx.2⟩)
  have h2 : Evolves s₀ { s1 with commons := putCells s1.commons w.commons } :=
    ev_commons h1 _ (fun m => putCells_wf _ _ m.commons)
  have h3 : Evolves s₀ s2 := ev_same h2 rfl rfl rfl rfl rfl rfl rfl rfl rfl
  exact ev_foldl _ (fun t q h => ev_updSlot h _ _) _ (ev_accPutAll h3 _)

theorem ev_computeSlab {s₀ s : State} (h₀ : Evolves s₀ s) (d : Nat) (b : Slab) :
    Evolves s₀ (State.computeSlab s d b) := by
  unfold State.computeSlab
  repeat' (first
    | with_reducible assumption
    | (extract_lets +onlyGivenNames x; first
        | (refine (fun (hx : Evolves s₀ x) => ?_) ?_; (on_goal 1 => clear_value x); (on_goal 2 => subst x))
        | (refine (fun (hx : Evolves s₀ x.st) => ?_) ?_; (on_goal 1 => clear_value x); (on_goal 2 => subst x))
        | subst x)
    | with_reducible apply ev_runSlab
    | with_reducible apply ev_unopen
    | with_reducible apply ev_endIdle
    | with_reducible apply ev_updSlab
    | with_reducible apply ev_deferFor
    | with_reducible refine foldl_keeps (fun q : RunResult => Evolves s₀ q.st) _ ?_ _ ?_
    | split)

theorem ev_collDue {s₀ s : State} (h₀ : Evolves s₀ s) (d : Nat) (b : Slab) :
    Evolves s₀ (State.collDue s d b) := by
  unfold State.collDue
  repeat' (first
    | with_reducible assumption
    | with_reducible apply ev_updOp
    | split)

theorem ev_startSlab {s₀ s : State} (h₀ : Evolves s₀ s) (d : Nat) (b : Slab) (off : Rat) (nowNs : Nat) (errors : List ReadError) :
    Evolves s₀ (State.startSlab s d b off nowNs errors) := by
  unfold State.startSlab
  repeat' (first
    | with_reducible assumption
    | (extract_lets +onlyGivenNames x; first
        | (refine (fun (hx : Evolves s₀ x) => ?_) ?_; (on_goal 1 => clear_value x); (on_goal 2 => subst x))
        | ((have y : Nat := x); clear y; clear_value x)
        | ((have y : Hdr := x); clear y; clear_value x)
        | ((have y : Slab := x); clear y; clear_value x))
    | with_reducible apply ev_creditSlab
    | with_reducible apply ev_addStretch
    | with_reducible apply ev_accPutAll
    | (refine ev_meetErrors_eq ?_ (by assumption))
    | with_reducible apply ev_updSlab
    | with_reducible apply ev_computeSlab
    | with_reducible apply ev_updDom
    | with_reducible apply ev_countStart
    | with_reducible apply ev_chargeSlab
    | with_reducible apply ev_collDue
    | with_reducible apply ev_poisonPeers
    | split
    | with_reducible apply domMem_mk
    | intro)

theorem ev_resumeSlab {s₀ s : State} (h₀ : Evolves s₀ s) (d : Nat) (b : Slab) (off : Rat) (nowNs : Nat) :
    Evolves s₀ (State.resumeSlab s d b off nowNs) := by
  unfold State.resumeSlab
  repeat' (first
    | with_reducible assumption
    | (extract_lets +onlyGivenNames x; (refine (fun (hx : Evolves s₀ x) => ?_) ?_; (on_goal 1 => clear_value x); (on_goal 2 => subst x)))
    | with_reducible apply ev_updSlab
    | with_reducible apply ev_countBusy
    | with_reducible apply ev_collDue
    | with_reducible apply ev_countStart
    | with_reducible apply ev_chargeSlab)

theorem ev_updDev {s₀ s : State} (h₀ : Evolves s₀ s) (d : Nat) (k : DevSlab) (f : DevSlabRec → DevSlabRec) :
    Evolves s₀ (State.updDev s d k f) := by
  unfold State.updDev
  repeat' (first
    | with_reducible assumption
    | with_reducible apply ev_updDom
    | with_reducible apply domMem_mk
    | intro)

theorem ev_tierItem {s₀ s : State} (h₀ : Evolves s₀ s) (d : Nat) (a1 : TierItem) :
    Evolves s₀ (State.tierItem s d a1).1 := by
  unfold State.tierItem
  repeat' (first
    | with_reducible assumption
    | (extract_lets +onlyGivenNames x; first
        | (refine (fun (hx : Evolves s₀ x) => ?_) ?_; (on_goal 1 => clear_value x); (on_goal 2 => subst x))
        | (refine (fun (hx : Evolves s₀ x.1) => ?_) ?_; (on_goal 1 => clear_value x); (on_goal 2 => subst x))
        | (refine (fun (hx : Evolves s₀ x.2) => ?_) ?_; (on_goal 1 => clear_value x); (on_goal 2 => subst x))
        | ((have y : Nat := x); clear y; clear_value x)
        | ((have y : Bool := x); clear y; clear_value x)
        | ((have y : Hdr := x); clear y; clear_value x)
        | ((have y : Slab := x); clear y; clear_value x)
        | ((have y : List Nat := x); clear y; clear_value x)
        | ((have y : Rat := x); clear y; clear_value x)
        | subst x)
    | with_reducible apply ev_startUp
    | (refine ev_startUp_eq ?_ (by assumption))
    | with_reducible apply ev_startDown
    | with_reducible apply ev_unflushed
    | split)
theorem ev_tierItem_eq {s₀ s : State} (h₀ : Evolves s₀ s) {d : Nat} {a1 : TierItem} {r₁ : _} {r₂ : _} {r₃ : _} {u₀ : State}
    (e₀ : State.tierItem s d a1 = (u₀, r₁, r₂, r₃)) : Evolves s₀ u₀ := by
  have x := ev_tierItem h₀ d a1
  rw [e₀] at x
  exact x

theorem ev_owes {s₀ s : State} (h₀ : Evolves s₀ s) (d : Nat) (p : Nat) (k : DevSlab) (dueNs : Nat) :
    Evolves s₀ (State.owes s d p k dueNs) := by
  unfold State.owes
  repeat' (first
    | with_reducible assumption
    | with_reducible apply ev_updDom
    | split
    | with_reducible apply domMem_mk
    | with_reducible exact domMem_dom (by assumption) _
    | with_reducible apply ev_mk
    | dsimp only
    | intro)

theorem ev_runTier {s₀ s : State} (h₀ : Evolves s₀ s) (d : Nat) (amount : Nat) (dueNs : Nat) :
    Evolves s₀ (State.runTier s d amount dueNs) := by
  unfold State.runTier
  repeat' (first
    | with_reducible assumption
    | (extract_lets +onlyGivenNames x; first
        | (refine (fun (hx : Evolves s₀ x.1) => ?_) ?_; (on_goal 1 => clear_value x); (on_goal 2 => subst x))
        | subst x)
    | with_reducible apply ev_tierItem
    | (refine ev_tierItem_eq ?_ (by assumption))
    | with_reducible apply ev_owes
    | with_reducible apply ev_updDom
    | with_reducible apply ev_foldl
    | with_reducible apply ev_foldl_fst
    | with_reducible apply ev_foldl_snd
    | (refine ev_foldl_fst_eq ?_ ?_ (by assumption))
    | (refine ev_foldl_snd_eq ?_ ?_ (by assumption))
    | split
    | with_reducible apply domMem_updTir
    | with_reducible apply domMem_mk
    | with_reducible exact domMem_dom (by assumption) _
    | dsimp only
    | intro)

theorem ev_saveEnds {s₀ s : State} (h₀ : Evolves s₀ s) (d : Nat) : Evolves s₀ (s.saveEnds d) := by
  unfold State.saveEnds
  dsimp only
  refine ev_raiseDom (ev_foldl _ (fun _ _ h => ev_clearArrays h _ _ _) _ (ev_putDom h₀ _ _ (fun w => ?_))) _ _ _
  dsimp only
  split
  · exact domMem_dom w d
  · exact ⟨(domMem_dom w d).1, memWf_filter _ _ w.opbuf, memWf_filter _ _ w.commons⟩

theorem ev_restoreEnds {s₀ s : State} (h₀ : Evolves s₀ s) (d : Nat) : Evolves s₀ (s.restoreEnds d) := by
  unfold State.restoreEnds
  dsimp only
  refine ev_raiseDom (ev_restageLost (ev_updDom (ev_mkAll h₀ (fuses_same _) MemoryWf.msix images_wf (lks_same _) MemoryWf.doms
    (fun w => ?_) (fun w => ?_) (Nat.le_refl _)) _ _ ?_) _) _ _ _
  · exact memMove_wf _ _ _ _ w.commons (domMem_dom w d).2.2
  · exact foldl_keeps (fun m => memWf m = true) _ (fun _ _ h => memMove_wf _ _ _ _ h (domMem_dom w d).2.1) _ w.opbuf
  · exact fun _ hx => ⟨hx.1, rfl, rfl⟩

theorem ev_runCooper {s₀ s : State} (h₀ : Evolves s₀ s) (d : Nat) (amount : Nat) (dueNs : Nat) :
    Evolves s₀ (State.runCooper s d amount dueNs) := by
  unfold State.runCooper
  repeat' (first
    | with_reducible assumption
    | with_reducible apply ev_startTransfer
    | with_reducible apply ev_owes
    | with_reducible apply ev_foldl
    | with_reducible apply ev_foldl_fst
    | with_reducible apply ev_foldl_snd
    | (refine ev_foldl_fst_eq ?_ ?_ (by assumption))
    | (refine ev_foldl_snd_eq ?_ ?_ (by assumption))
    | split
    | with_reducible apply ev_mk
    | dsimp only
    | intro)

theorem ev_devBegins {s₀ s : State} (h₀ : Evolves s₀ s) (d : Nat) (r : DevSlabRec) :
    Evolves s₀ (State.devBegins s d r) := by
  unfold State.devBegins
  repeat' (first
    | with_reducible assumption
    | with_reducible apply ev_runTier
    | with_reducible apply ev_runCarter
    | with_reducible apply ev_runCooper
    | split)

theorem ev_devEnds {s₀ s : State} (h₀ : Evolves s₀ s) (d : Nat) (r : DevSlabRec) :
    Evolves s₀ (State.devEnds s d r) := by
  unfold State.devEnds
  repeat' (first
    | with_reducible assumption
    | with_reducible apply ev_cooperEnds
    | with_reducible apply ev_sweepEnds
    | with_reducible apply ev_saveEnds
    | with_reducible apply ev_restoreEnds
    | split)

theorem ev_startDev {s₀ s : State} (h₀ : Evolves s₀ s) (d : Nat) (r : DevSlabRec) (off : Rat) :
    Evolves s₀ (State.startDev s d r off) := by
  unfold State.startDev
  repeat' (first
    | with_reducible assumption
    | (extract_lets +onlyGivenNames x; first
        | (refine (fun (hx : Evolves s₀ x) => ?_) ?_; (on_goal 1 => clear_value x); (on_goal 2 => subst x))
        | subst x)
    | with_reducible apply ev_updDev
    | with_reducible apply ev_chargeDev
    | with_reducible apply ev_devBegins
    | split)

theorem ev_execSlabStart {s₀ s0 : State} (h₀ : Evolves s₀ s0) (d : Fin 64) (slab : SlabRef) (nowNs : Nat)
    (errors : List ReadError) :
    EvolvesOut s₀ (execSlabStart d slab nowNs errors s0) := by
  unfold execSlabStart
  repeat' (first
    | with_reducible assumption
    | (extract_lets +onlyGivenNames x; first
        | (refine (fun (hx : Evolves s₀ x) => ?_) ?_; (on_goal 1 => clear_value x); (on_goal 2 => subst x))
        | subst x)
    | with_reducible apply ev_atTime
    | with_reducible apply ev_resumeSlab
    | with_reducible apply ev_endIdle
    | with_reducible apply ev_startSlab
    | with_reducible apply ev_startDev
    | split
    | with_reducible apply evo_next)

theorem ev_pauseSlab {s₀ s : State} (h₀ : Evolves s₀ s) (d : Nat) (b : Slab) (off : Rat) :
    Evolves s₀ (State.pauseSlab s d b off) := by
  unfold State.pauseSlab
  repeat' (first
    | with_reducible assumption
    | (extract_lets +onlyGivenNames x; first
        | (refine (fun (hx : Evolves s₀ x) => ?_) ?_; (on_goal 1 => clear_value x); (on_goal 2 => subst x))
        | subst x)
    | with_reducible apply ev_bump
    | with_reducible apply ev_updSlab
    | split)

theorem ev_pauseDev {s₀ s : State} (h₀ : Evolves s₀ s) (d : Nat) (r : DevSlabRec) (off : Rat) :
    Evolves s₀ (State.pauseDev s d r off) := by
  unfold State.pauseDev
  repeat' (first
    | with_reducible assumption
    | (extract_lets +onlyGivenNames x; first
        | ((have y : Rat := x); clear y; clear_value x)
        | subst x)
    | with_reducible apply ev_bump
    | with_reducible apply ev_updDev
    | split)

theorem ev_execSlabPause {s₀ s0 : State} (h₀ : Evolves s₀ s0) (d : Fin 64) (slab : SlabRef) (nowNs : Nat) :
    EvolvesOut s₀ (execSlabPause d slab nowNs s0) := by
  unfold execSlabPause
  repeat' (first
    | with_reducible assumption
    | (extract_lets +onlyGivenNames x; first
        | (refine (fun (hx : Evolves s₀ x) => ?_) ?_; (on_goal 1 => clear_value x); (on_goal 2 => subst x))
        | subst x)
    | with_reducible apply ev_atTime
    | with_reducible apply ev_pauseSlab
    | with_reducible apply ev_pauseDev
    | split
    | with_reducible apply evo_next)

theorem ev_endRunOf {s₀ s : State} (h₀ : Evolves s₀ s) (off : Rat) (d : Nat) :
    Evolves s₀ (State.endRunOf s off d) := by
  unfold State.endRunOf
  repeat' (first
    | with_reducible assumption
    | (extract_lets +onlyGivenNames x; first
        | (refine (fun (hx : Evolves s₀ x) => ?_) ?_; (on_goal 1 => clear_value x); (on_goal 2 => subst x))
        | ((have y : Nat := x); clear y; clear_value x))
    | with_reducible apply ev_pauseSlab
    | with_reducible apply ev_pauseDev
    | with_reducible apply ev_raiseDom
    | with_reducible apply ev_bump
    | with_reducible apply ev_updDom
    | with_reducible apply ev_foldl
    | split
    | with_reducible apply domMem_mk
    | intro)

theorem ev_execRunPhaseEnd {s₀ s0 : State} (h₀ : Evolves s₀ s0) (nowNs : Nat) :
    EvolvesOut s₀ (execRunPhaseEnd nowNs s0) := by
  unfold execRunPhaseEnd
  repeat' (first
    | with_reducible assumption
    | (extract_lets +onlyGivenNames x; first
        | (refine (fun (hx : Evolves s₀ x) => ?_) ?_; (on_goal 1 => clear_value x); (on_goal 2 => subst x))
        | subst x)
    | with_reducible apply ev_atTime
    | with_reducible apply ev_updTik
    | with_reducible apply ev_eachDom
    | with_reducible apply ev_endRunOf
    | split
    | with_reducible apply evo_next
    | intro)

theorem ev_collWait {s₀ s : State} (h₀ : Evolves s₀ s) (d : Nat) (b : Slab) (nowNs : Nat) :
    Evolves s₀ (State.collWait s d b nowNs) := by
  unfold State.collWait
  repeat' (first
    | with_reducible assumption
    | (extract_lets +onlyGivenNames x; ((have y : Nat := x); clear y; clear_value x))
    | with_reducible apply ev_bump
    | with_reducible apply ev_addStretch
    | split)

theorem ev_concludeSlab {s₀ s : State} (h₀ : Evolves s₀ s) (d : Nat) (b : Slab) (nowNs : Nat) :
    Evolves s₀ (State.concludeSlab s d b nowNs) := by
  unfold State.concludeSlab
  repeat' (first
    | with_reducible assumption
    | (extract_lets +onlyGivenNames x; first
        | (refine (fun (hx : Evolves s₀ x) => ?_) ?_; (on_goal 1 => clear_value x); (on_goal 2 => subst x))
        | subst x)
    | with_reducible apply ev_countBusy
    | with_reducible apply ev_withhold
    | with_reducible apply ev_endEffect
    | with_reducible apply ev_putWithheld
    | with_reducible apply ev_collWait
    | with_reducible apply ev_endColl
    | with_reducible apply ev_endSlab
    | with_reducible apply ev_foldl
    | with_reducible apply ev_foldl_fst
    | with_reducible apply ev_foldl_snd
    | (refine ev_foldl_fst_eq ?_ ?_ (by assumption))
    | (refine ev_foldl_snd_eq ?_ ?_ (by assumption))
    | split
    | dsimp only
    | intro)

theorem ev_lateCompute {s₀ s : State} (h₀ : Evolves s₀ s) (d : Nat) (b : Slab) :
    Evolves s₀ (State.lateCompute s d b) := by
  unfold State.lateCompute
  repeat' (first
    | with_reducible assumption
    | with_reducible apply ev_computeSlab
    | with_reducible apply ev_updSlab
    | with_reducible apply ev_withholdTiles
    | split)

theorem ev_execSlabComplete {s₀ s0 : State} (h₀ : Evolves s₀ s0) (d : Fin 64) (slab : SlabRef) (nowNs : Nat) :
    EvolvesOut s₀ (execSlabComplete d slab nowNs s0) := by
  unfold execSlabComplete
  repeat' (first
    | with_reducible assumption
    | (extract_lets +onlyGivenNames x; (refine (fun (hx : Evolves s₀ x) => ?_) ?_; (on_goal 1 => clear_value x); (on_goal 2 => subst x)))
    | with_reducible apply ev_atTime
    | with_reducible apply ev_collDue
    | with_reducible apply ev_lateCompute
    | with_reducible apply ev_concludeSlab
    | with_reducible apply ev_devEnds
    | with_reducible apply ev_updDev
    | split
    | with_reducible apply evo_next)

theorem ev_writeWord {s₀ s : State} (h₀ : Evolves s₀ s) (d : Nat) (w : W64) :
    Evolves s₀ (State.writeWord s d w) := by
  unfold State.writeWord
  repeat' (first
    | with_reducible assumption
    | with_reducible apply ev_bump
    | with_reducible apply ev_updDom
    | with_reducible apply domMem_updQueue
    | intro)

theorem ev_settleSlab {s₀ s : State} (h₀ : Evolves s₀ s) (d : Nat) (b : Slab) :
    Evolves s₀ (State.settleSlab s d b) := by
  unfold State.settleSlab
  repeat' (first
    | with_reducible assumption
    | (extract_lets +onlyGivenNames x; first
        | (refine (fun (hx : Evolves s₀ x) => ?_) ?_; (on_goal 1 => clear_value x); (on_goal 2 => subst x))
        | ((have y : Bool := x); clear y; clear_value x)
        | subst x)
    | with_reducible apply ev_updSlab
    | with_reducible apply ev_writeWord
    | with_reducible apply ev_endBatch
    | with_reducible apply ev_creditSlab
    | with_reducible apply ev_endStep
    | with_reducible apply ev_updDom
    | split
    | with_reducible apply domMem_updQueue
    | with_reducible apply domMem_mk
    | intro)

theorem ev_settleDom {s₀ s : State} (h₀ : Evolves s₀ s) (d : Nat) :
    Evolves s₀ (State.settleDom s d) := by
  unfold State.settleDom
  repeat' (first
    | with_reducible assumption
    | (extract_lets +onlyGivenNames x; first
        | (refine (fun (hx : Evolves s₀ x) => ?_) ?_; (on_goal 1 => clear_value x); (on_goal 2 => subst x))
        | ((have y : Nat := x); clear y; clear_value x)
        | subst x)
    | with_reducible apply ev_kvSettle
    | with_reducible apply ev_bump
    | with_reducible apply ev_raiseDom
    | with_reducible apply ev_reserveEnded
    | with_reducible apply ev_settleSlab
    | with_reducible apply ev_msix
    | with_reducible apply ev_foldl
    | with_reducible apply ev_foldl_fst
    | with_reducible apply ev_foldl_snd
    | (refine ev_foldl_fst_eq ?_ ?_ (by assumption))
    | (refine ev_foldl_snd_eq ?_ ?_ (by assumption))
    | split
    | dsimp only
    | intro)

theorem ev_execSettleStart {s₀ s0 : State} (h₀ : Evolves s₀ s0) (nowNs : Nat) :
    EvolvesOut s₀ (execSettleStart nowNs s0) := by
  unfold execSettleStart
  repeat' (first
    | with_reducible assumption
    | (extract_lets +onlyGivenNames x; first
        | (refine (fun (hx : Evolves s₀ x) => ?_) ?_; (on_goal 1 => clear_value x); (on_goal 2 => subst x))
        | ((have y : Nat := x); clear y; clear_value x)
        | subst x)
    | with_reducible apply ev_atTime
    | with_reducible apply ev_updTik
    | with_reducible apply ev_eachDom
    | with_reducible apply ev_settleDom
    | with_reducible apply ev_deviceStall
    | with_reducible apply ev_sendDone
    | with_reducible apply ev_refetchBegins
    | with_reducible apply ev_foldl
    | with_reducible apply ev_foldl_fst
    | with_reducible apply ev_foldl_snd
    | (refine ev_foldl_fst_eq ?_ ?_ (by assumption))
    | (refine ev_foldl_snd_eq ?_ ?_ (by assumption))
    | split
    | with_reducible apply evo_next
    | dsimp only
    | intro)

theorem ev_execSharedFetchHoldExpire {s₀ s : State} (h₀ : Evolves s₀ s) (d : Fin 64) (tag : W32) :
    EvolvesOut s₀ (execSharedFetchHoldExpire d tag s) := by
  unfold execSharedFetchHoldExpire
  repeat' (first
    | with_reducible assumption
    | with_reducible apply ev_updSlab
    | split
    | with_reducible apply evo_next)

theorem ev_preemptCmd {s₀ s : State} (h₀ : Evolves s₀ s) (v : View) (posted : Bool) (d : Nat) (save : Bool) (rsv : Nat) :
    Evolves s₀ (State.preemptCmd s v posted d save rsv) := by
  unfold State.preemptCmd
  repeat' (first
    | with_reducible assumption
    | (extract_lets +onlyGivenNames x; subst x)
    | with_reducible apply ev_runCmd
    | with_reducible apply ev_updDom
    | split
    | with_reducible apply domMem_mk
    | intro)

theorem ev_resumeCmd {s₀ s : State} (h₀ : Evolves s₀ s) (v : View) (posted : Bool) (d : Nat) (rsv : Nat) :
    Evolves s₀ (State.resumeCmd s v posted d rsv) := by
  unfold State.resumeCmd
  repeat' (first
    | with_reducible assumption
    | (extract_lets +onlyGivenNames x; subst x)
    | with_reducible apply ev_runCmd
    | with_reducible apply ev_updDom
    | split
    | with_reducible apply domMem_mk
    | intro)

theorem ev_execPreempt {s₀ s : State} (h₀ : Evolves s₀ s) (posted : Bool) (d : Fin 64) (saveCommons : Bool) (rsv : BitVec 53) :
    EvolvesOut s₀ (execPreempt posted d saveCommons rsv s) := by
  unfold execPreempt
  repeat' (first
    | with_reducible assumption
    | with_reducible apply ev_preemptCmd
    | with_reducible apply evo_next)

theorem ev_execResume {s₀ s : State} (h₀ : Evolves s₀ s) (posted : Bool) (d : Fin 64) (rsv : BitVec 54) :
    EvolvesOut s₀ (execResume posted d rsv s) := by
  unfold execResume
  repeat' (first
    | with_reducible assumption
    | with_reducible apply ev_resumeCmd
    | with_reducible apply evo_next)

end Sys2Proof.Laws
end

