-- ==== Sys2Proof/Laws/EvolveRead.lean ====
section
/-! SUPPORT. The operations of Machine/Read.lean evolve the state: from Evolves s₀ s, Evolves s₀ of what the operation makes of s. -/

namespace Sys2Proof.Laws

open Sys2Proof.Machine Sys2Proof.Safety

theorem ev_readLow {s₀ s : State} (h₀ : Evolves s₀ s) (v : View) (p : Nat) (o : Nat) :
    Evolves s₀ (State.readLow s v p o) := by
  unfold State.readLow
  repeat' (first
    | with_reducible assumption
    | (extract_lets +onlyGivenNames x; first
        | (refine (fun (hx : Evolves s₀ x) => ?_) ?_; (on_goal 1 => clear_value x); (on_goal 2 => subst x))
        | ((have y : Nat := x); clear y; clear_value x))
    | with_reducible apply ev_emit
    | split
    | with_reducible apply ev_mk)

theorem ev_readHigh {s₀ s : State} (h₀ : Evolves s₀ s) (v : View) (p : Nat) (o : Nat) :
    Evolves s₀ (State.readHigh s v p o) := by
  unfold State.readHigh
  repeat' (first
    | with_reducible assumption
    | (extract_lets +onlyGivenNames x; ((have y : Nat := x); clear y; clear_value x))
    | with_reducible apply ev_emit
    | split
    | with_reducible apply ev_mk)

theorem ev_execCounterLowRead {s₀ s : State} (h₀ : Evolves s₀ s) (v : View) (page : Byte) (offset : Nat) :
    EvolvesOut s₀ (execCounterLowRead v page offset s) := by
  unfold execCounterLowRead
  repeat' (first
    | with_reducible assumption
    | with_reducible apply ev_readLow
    | with_reducible apply ev_emit
    | split
    | with_reducible apply evo_next)

theorem ev_execCounterHighRead {s₀ s : State} (h₀ : Evolves s₀ s) (v : View) (page : Byte) (offset : Nat) :
    EvolvesOut s₀ (execCounterHighRead v page offset s) := by
  unfold execCounterHighRead
  repeat' (first
    | with_reducible assumption
    | with_reducible apply ev_readHigh
    | with_reducible apply ev_emit
    | split
    | with_reducible apply evo_next)

end Sys2Proof.Laws
end

