-- ==== Sys2Proof/Laws/EvolveRegs.lean ====
section
/-! SUPPORT. The operations of Machine/Regs.lean evolve the state: from Evolves s₀ s, Evolves s₀ of what the operation makes of s. -/

namespace Sys2Proof.Laws

open Sys2Proof.Machine Sys2Proof.Safety

theorem ev_clearEvents {s₀ s : State} (h₀ : Evolves s₀ s) (v : View) (p : Nat) (mask : W32) :
    Evolves s₀ (State.clearEvents s v p mask) := by
  unfold State.clearEvents
  repeat' (first
    | with_reducible assumption
    | (extract_lets +onlyGivenNames x; first
        | ((have y : Nat := x); clear y; clear_value x)
        | subst x)
    | with_reducible apply ev_putView
    | split)

theorem ev_enableEvents {s₀ s : State} (h₀ : Evolves s₀ s) (v : View) (p : Nat) (mask : W32) :
    Evolves s₀ (State.enableEvents s v p mask) := by
  unfold State.enableEvents
  repeat' (first
    | with_reducible assumption
    | (extract_lets +onlyGivenNames x; first
        | (refine (fun (hx : Evolves s₀ x) => ?_) ?_; (on_goal 1 => clear_value x); (on_goal 2 => subst x))
        | ((have y : Nat := x); clear y; clear_value x)
        | subst x)
    | with_reducible apply ev_putView
    | with_reducible apply ev_msix
    | split)

theorem ev_setEvents {s₀ s : State} (h₀ : Evolves s₀ s) (v : View) (p : Nat) (mask : W32) :
    Evolves s₀ (State.setEvents s v p mask) := by
  unfold State.setEvents
  repeat' (first
    | with_reducible assumption
    | with_reducible apply ev_setEvent
    | split)

theorem ev_lockPage {s₀ s : State} (h₀ : Evolves s₀ s) (v : View) (p : Nat) :
    Evolves s₀ (State.lockPage s v p) := by
  unfold State.lockPage
  repeat' (first
    | with_reducible assumption
    | split
    | with_reducible apply ev_mk)

theorem ev_setCntMode {s₀ s : State} (h₀ : Evolves s₀ s) (v : View) (p : Nat) (mode : BitVec 2) :
    Evolves s₀ (State.setCntMode s v p mode) := by
  unfold State.setCntMode
  repeat' (first
    | with_reducible assumption
    | (extract_lets +onlyGivenNames x; first
        | ((have y : Nat := x); clear y; clear_value x)
        | subst x)
    | with_reducible apply ev_putView
    | split)

theorem ev_writeTick {s₀ s : State} (h₀ : Evolves s₀ s) (v : View) (phase : Bool) (w : Nat) :
    Evolves s₀ (State.writeTick s v phase w) := by
  unfold State.writeTick
  repeat' (first
    | with_reducible assumption
    | (extract_lets +onlyGivenNames x; ((have y : Nat := x); clear y; clear_value x))
    | with_reducible apply ev_raiseDev
    | with_reducible apply ev_updTik
    | split)

theorem ev_writeShare {s₀ s : State} (h₀ : Evolves s₀ s) (v : View) (w : Nat) :
    Evolves s₀ (State.writeShare s v w) := by
  unfold State.writeShare
  repeat' (first
    | with_reducible assumption
    | (extract_lets +onlyGivenNames x; ((have y : Nat := x); clear y; clear_value x))
    | with_reducible apply ev_raiseDom
    | with_reducible apply ev_defer
    | split)

theorem ev_writePlanSlots {s₀ s : State} (h₀ : Evolves s₀ s) (v : View) (w : Nat) :
    Evolves s₀ (State.writePlanSlots s v w) := by
  unfold State.writePlanSlots
  repeat' (first
    | with_reducible assumption
    | (extract_lets +onlyGivenNames x; ((have y : Nat := x); clear y; clear_value x))
    | with_reducible apply ev_raiseDom
    | with_reducible apply ev_defer
    | split)

theorem ev_writeRtArrays {s₀ s : State} (h₀ : Evolves s₀ s) (d : Nat) (w : Nat) :
    Evolves s₀ (State.writeRtArrays s d w) := by
  unfold State.writeRtArrays
  repeat' (first
    | with_reducible assumption
    | (extract_lets +onlyGivenNames x; ((have y : Nat := x); clear y; clear_value x))
    | with_reducible apply ev_defer
    | with_reducible apply ev_raiseDom
    | split)

theorem ev_writeTikReg {s₀ s : State} (h₀ : Evolves s₀ s) (v : View) (d : Nat) (o : Nat) (w : Nat) :
    Evolves s₀ (State.writeTikReg s v d o w) := by
  unfold State.writeTikReg
  repeat' (first
    | with_reducible assumption
    | with_reducible apply ev_writeTick
    | with_reducible apply ev_updTik
    | with_reducible apply ev_raiseDev
    | with_reducible apply ev_writeShare
    | with_reducible apply ev_writePlanSlots
    | with_reducible apply ev_defer
    | with_reducible apply ev_writeRtArrays
    | split)

theorem ev_writeRecipe {s₀ s : State} (h₀ : Evolves s₀ s) (v : View) (k : Nat) (w : Nat) :
    Evolves s₀ (State.writeRecipe s v k w) := by
  unfold State.writeRecipe
  repeat' (first
    | with_reducible assumption
    | (extract_lets +onlyGivenNames x; ((have y : Nat := x); clear y; clear_value x))
    | with_reducible apply ev_raiseDev
    | with_reducible apply ev_defer
    | split)

theorem ev_writeHistSel {s₀ s : State} (h₀ : Evolves s₀ s) (v : View) (slot : Nat) :
    Evolves s₀ (State.writeHistSel s v slot) := by
  unfold State.writeHistSel
  repeat' (first
    | with_reducible assumption
    | with_reducible apply ev_updDom
    | split
    | with_reducible apply domMem_updVec
    | dsimp only
    | intro)

theorem ev_commitHist {s₀ s : State} (h₀ : Evolves s₀ s) (v : View) (count : Nat) :
    Evolves s₀ (State.commitHist s v count) := by
  unfold State.commitHist
  repeat' (first
    | with_reducible assumption
    | (extract_lets +onlyGivenNames x; first
        | ((have y : Nat := x); clear y; clear_value x)
        | subst x)
    | with_reducible apply ev_raiseDom
    | with_reducible apply ev_updDom
    | split
    | with_reducible apply domMem_updVec
    | intro)

theorem ev_writeZs {s₀ s : State} (h₀ : Evolves s₀ s) (v : View) (w : Nat) :
    Evolves s₀ (State.writeZs s v w) := by
  unfold State.writeZs
  repeat' (first
    | with_reducible assumption
    | (extract_lets +onlyGivenNames x; ((have y : Nat := x); clear y; clear_value x))
    | with_reducible apply ev_updDom
    | split
    | with_reducible apply domMem_updVec
    | intro)

theorem ev_writeVecReg {s₀ s : State} (h₀ : Evolves s₀ s) (v : View) (d : Nat) (o : Nat) (w : Nat) :
    Evolves s₀ (State.writeVecReg s v d o w) := by
  unfold State.writeVecReg
  repeat' (first
    | with_reducible assumption
    | (extract_lets +onlyGivenNames x; subst x)
    | with_reducible apply ev_updDom
    | with_reducible apply ev_writeRecipe
    | with_reducible apply ev_writeHistSel
    | with_reducible apply ev_commitHist
    | with_reducible apply ev_writeZs
    | split
    | with_reducible apply domMem_updVec
    | intro)

theorem ev_writeLossScale {s₀ s : State} (h₀ : Evolves s₀ s) (v : View) (w : Nat) :
    Evolves s₀ (State.writeLossScale s v w) := by
  unfold State.writeLossScale
  repeat' (first
    | with_reducible assumption
    | (extract_lets +onlyGivenNames x; ((have y : Nat := x); clear y; clear_value x))
    | with_reducible apply ev_updDom
    | split
    | with_reducible apply domMem_updUpd
    | intro)

theorem ev_writeRetain {s₀ s : State} (h₀ : Evolves s₀ s) (v : View) (w : Nat) :
    Evolves s₀ (State.writeRetain s v w) := by
  unfold State.writeRetain
  repeat' (first
    | with_reducible assumption
    | (extract_lets +onlyGivenNames x; first
        | ((have y : Nat := x); clear y; clear_value x)
        | subst x)
    | with_reducible apply ev_defer
    | split)

theorem ev_writeKvpReg {s₀ s : State} (h₀ : Evolves s₀ s) (v : View) (d : Nat) (o : Nat) (w : Nat) :
    Evolves s₀ (State.writeKvpReg s v d o w) := by
  unfold State.writeKvpReg
  repeat' (first
    | with_reducible assumption
    | (extract_lets +onlyGivenNames x; first
        | ((have y : Nat := x); clear y; clear_value x)
        | subst x)
    | with_reducible apply ev_updDom
    | with_reducible apply ev_writeGeom
    | with_reducible apply ev_defer
    | split
    | with_reducible apply ev_mk
    | with_reducible apply domMem_updKvp
    | intro)

theorem ev_writeFlashRate {s₀ s : State} (h₀ : Evolves s₀ s) (v : View) (w : Nat) :
    Evolves s₀ (State.writeFlashRate s v w) := by
  unfold State.writeFlashRate
  repeat' (first
    | with_reducible assumption
    | (extract_lets +onlyGivenNames x; first
        | ((have y : Nat := x); clear y; clear_value x)
        | subst x)
    | with_reducible apply ev_raiseDom
    | with_reducible apply ev_defer
    | split)

theorem ev_writeTirReg {s₀ s : State} (h₀ : Evolves s₀ s) (v : View) (d : Nat) (o : Nat) (w : Nat) :
    Evolves s₀ (State.writeTirReg s v d o w) := by
  unfold State.writeTirReg
  repeat' (first
    | with_reducible assumption
    | with_reducible apply ev_writeFlashRate
    | with_reducible apply ev_defer
    | split
    | with_reducible apply ev_mk)

theorem ev_writeVarReg {s₀ s : State} (h₀ : Evolves s₀ s) (v : View) (d : Nat) (o : Nat) (w : Nat) :
    Evolves s₀ (State.writeVarReg s v d o w) := by
  unfold State.writeVarReg
  repeat' (first
    | with_reducible assumption
    | with_reducible apply ev_defer
    | split
    | with_reducible apply ev_mk)

theorem ev_writeBasReg {s₀ s : State} (h₀ : Evolves s₀ s) (o : Nat) (w : Nat) :
    Evolves s₀ (State.writeBasReg s o w) := by
  unfold State.writeBasReg
  repeat' (first
    | with_reducible assumption
    | (extract_lets +onlyGivenNames x; ((have y : Bool := x); clear y; clear_value x))
    | with_reducible apply ev_updBas
    | with_reducible apply ev_defer
    | split
    | with_reducible exact images_keep)

theorem ev_writeNvmReg {s₀ s : State} (h₀ : Evolves s₀ s) (o : Nat) (w : Nat) :
    Evolves s₀ (State.writeNvmReg s o w) := by
  unfold State.writeNvmReg
  repeat' (first
    | with_reducible assumption
    | (extract_lets +onlyGivenNames x; first
        | (refine (fun (hx : Evolves s₀ x) => ?_) ?_; (on_goal 1 => clear_value x); (on_goal 2 => subst x))
        | subst x)
    | with_reducible apply ev_defer
    | split
    | with_reducible apply ev_mk)

theorem ev_writeNsMap {s₀ s : State} (h₀ : Evolves s₀ s) (k : Nat) (w : Nat) :
    Evolves s₀ (State.writeNsMap s k w) := by
  unfold State.writeNsMap
  repeat' (first
    | with_reducible assumption
    | (extract_lets +onlyGivenNames x; first
        | (refine (fun (hx : Evolves s₀ x) => ?_) ?_; (on_goal 1 => clear_value x); (on_goal 2 => subst x))
        | ((have y : Nat := x); clear y; clear_value x)
        | ((have y : Bool := x); clear y; clear_value x)
        | subst x)
    | with_reducible apply ev_raiseDev
    | split
    | with_reducible apply ev_mk)

theorem ev_writePtag {s₀ s : State} (h₀ : Evolves s₀ s) (v : View) (w : Nat) :
    Evolves s₀ (State.writePtag s v w) := by
  unfold State.writePtag
  repeat' (first
    | with_reducible assumption
    | (extract_lets +onlyGivenNames x; ((have y : Nat := x); clear y; clear_value x))
    | with_reducible apply ev_raiseDom
    | with_reducible apply ev_defer
    | split)

theorem ev_writeSlotTag {s₀ s : State} (h₀ : Evolves s₀ s) (v : View) (w : Nat) :
    Evolves s₀ (State.writeSlotTag s v w) := by
  unfold State.writeSlotTag
  repeat' (first
    | with_reducible assumption
    | with_reducible apply ev_updFab
    | split)

theorem ev_writeColReg {s₀ s : State} (h₀ : Evolves s₀ s) (v : View) (d : Nat) (o : Nat) (w : Nat) :
    Evolves s₀ (State.writeColReg s v d o w) := by
  unfold State.writeColReg
  repeat' (first
    | with_reducible assumption
    | with_reducible apply ev_writePtag
    | with_reducible apply ev_updDom
    | with_reducible apply ev_updFab
    | with_reducible apply ev_writeSlotTag
    | split
    | with_reducible apply domMem_updCol
    | intro)

theorem ev_rejectRates {s₀ s : State} (h₀ : Evolves s₀ s) (v : View) (d : Nat) :
    Evolves s₀ (State.rejectRates s v d) := by
  unfold State.rejectRates
  repeat' (first
    | with_reducible assumption
    | with_reducible apply ev_raiseDom
    | with_reducible apply ev_raiseCopy
    | split)

theorem ev_writeRates {s₀ s : State} (h₀ : Evolves s₀ s) (v : View) (w : Nat) :
    Evolves s₀ (State.writeRates s v w) := by
  unfold State.writeRates
  repeat' (first
    | with_reducible assumption
    | (extract_lets +onlyGivenNames x; first
        | ((have y : Nat := x); clear y; clear_value x)
        | subst x)
    | with_reducible apply ev_rejectRates
    | with_reducible apply ev_defer
    | split)

theorem ev_writeMaint {s₀ s : State} (h₀ : Evolves s₀ s) (v : View) (w : Nat) :
    Evolves s₀ (State.writeMaint s v w) := by
  unfold State.writeMaint
  repeat' (first
    | with_reducible assumption
    | (extract_lets +onlyGivenNames x; first
        | ((have y : Nat := x); clear y; clear_value x)
        | subst x)
    | with_reducible apply ev_raiseDev
    | with_reducible apply ev_defer
    | split)

theorem ev_writeMemReg {s₀ s : State} (h₀ : Evolves s₀ s) (v : View) (p : Nat) (o : Nat) (w : Nat) :
    Evolves s₀ (State.writeMemReg s v p o w) := by
  unfold State.writeMemReg
  repeat' (first
    | with_reducible assumption
    | with_reducible apply ev_updMemg
    | with_reducible apply ev_writeMaint
    | with_reducible apply ev_writeRates
    | split)

theorem ev_retrainPort {s₀ s : State} (h₀ : Evolves s₀ s) (v : View) (port : Nat) :
    Evolves s₀ (State.retrainPort s v port) := by
  unfold State.retrainPort
  repeat' (first
    | with_reducible assumption
    | with_reducible apply ev_portDown
    | with_reducible apply ev_updPort
    | with_reducible apply ev_nameSelf
    | split)

theorem ev_enablePort {s₀ s : State} (h₀ : Evolves s₀ s) (v : View) (port : Nat) (on : Bool) :
    Evolves s₀ (State.enablePort s v port on) := by
  unfold State.enablePort
  repeat' (first
    | with_reducible assumption
    | with_reducible apply ev_updPort
    | with_reducible apply ev_portDown
    | split)

theorem ev_writeFabReg {s₀ s : State} (h₀ : Evolves s₀ s) (v : View) (port : Nat) (o : Nat) (w : Nat) :
    Evolves s₀ (State.writeFabReg s v port o w) := by
  unfold State.writeFabReg
  repeat' (first
    | with_reducible assumption
    | (extract_lets +onlyGivenNames x; (refine (fun (hx : Evolves s₀ x) => ?_) ?_; (on_goal 1 => clear_value x); (on_goal 2 => subst x)))
    | with_reducible apply ev_updFab
    | with_reducible apply ev_enablePort
    | with_reducible apply ev_retrainPort
    | split)

theorem ev_applyKey {s₀ s : State} (h₀ : Evolves s₀ s) (v : View) (d : Nat) :
    Evolves s₀ (State.applyKey s v d) := by
  unfold State.applyKey
  repeat' (first
    | with_reducible assumption
    | with_reducible apply ev_updDom
    | split
    | with_reducible apply domMem_updKeys
    | intro)

theorem ev_writeTraceCfg {s₀ s : State} (h₀ : Evolves s₀ s) (v : View) (w : Nat) :
    Evolves s₀ (State.writeTraceCfg s v w) := by
  unfold State.writeTraceCfg
  repeat' (first
    | with_reducible assumption
    | with_reducible apply ev_updDbg
    | split)

theorem ev_writeDbgReg {s₀ s : State} (h₀ : Evolves s₀ s) (v : View) (o : Nat) (w : Nat) :
    Evolves s₀ (State.writeDbgReg s v o w) := by
  unfold State.writeDbgReg
  repeat' (first
    | with_reducible assumption
    | (extract_lets +onlyGivenNames x; first
        | (refine (fun (hx : Evolves s₀ x) => ?_) ?_; (on_goal 1 => clear_value x); (on_goal 2 => subst x))
        | ((have y : Nat := x); clear y; clear_value x))
    | with_reducible apply ev_updDbg
    | with_reducible apply ev_applyKey
    | with_reducible apply ev_writeTraceCfg
    | split)

theorem ev_nextOf {s₀ s : State} (h₀ : Evolves s₀ s) {o : Host.Outcome State Fault Refusal} (ho : EvolvesOut s₀ o) :
    Evolves s₀ (nextOf o s) := by
  unfold nextOf
  split
  · exact ho _ rfl
  · exact h₀

theorem ev_varWord64 {s₀ s : State} (h₀ : Evolves s₀ s) (v : View) (w : W64) :
    Evolves s₀ (State.varWord64 s v w) := by
  unfold State.varWord64
  repeat' (first
    | with_reducible assumption
    | (extract_lets +onlyGivenNames x; subst x)
    | with_reducible apply ev_nextOf
    | with_reducible apply ev_execClaim
    | with_reducible apply ev_execLoad
    | with_reducible apply ev_execPark
    | with_reducible apply ev_execRelease
    | with_reducible apply ev_execStage
    | with_reducible apply ev_execUnstage
    | with_reducible apply ev_execVarQuery
    | with_reducible apply ev_execExpertClaim
    | with_reducible apply ev_execExpertRelease
    | with_reducible apply ev_execFlush
    | with_reducible apply ev_varCmd
    | with_reducible apply ev_varSays
    | split
    | intro)

theorem ev_kvpWord64 {s₀ s : State} (h₀ : Evolves s₀ s) (v : View) (w : W64) :
    Evolves s₀ (State.kvpWord64 s v w) := by
  unfold State.kvpWord64
  repeat' (first
    | with_reducible assumption
    | (extract_lets +onlyGivenNames x; subst x)
    | with_reducible apply ev_nextOf
    | with_reducible apply ev_execSeqOpen
    | with_reducible apply ev_execSeqClose
    | with_reducible apply ev_execKvpCommit
    | with_reducible apply ev_execKvpQuery
    | with_reducible apply ev_execSetDrop
    | with_reducible apply ev_kvpCmd
    | split
    | with_reducible apply ev_mk
    | dsimp only
    | intro)

theorem ev_basWord64 {s₀ s : State} (h₀ : Evolves s₀ s) (v : View) (w : W64) :
    Evolves s₀ (State.basWord64 s v w) := by
  unfold State.basWord64
  repeat' (first
    | with_reducible assumption
    | (extract_lets +onlyGivenNames x; first
        | ((have y : Bool := x); clear y; clear_value x)
        | subst x)
    | with_reducible apply ev_nextOf
    | with_reducible apply ev_execBuild
    | with_reducible apply ev_execSwitch
    | with_reducible apply ev_execAbort
    | with_reducible apply ev_execBasStage
    | with_reducible apply ev_execBasUnstage
    | with_reducible apply ev_execBasQuery
    | with_reducible apply ev_basCmd
    | split
    | with_reducible apply ev_mk
    | dsimp only
    | intro)

theorem ev_tirWord64 {s₀ s : State} (h₀ : Evolves s₀ s) (v : View) (w : W64) :
    Evolves s₀ (State.tirWord64 s v w) := by
  unfold State.tirWord64
  repeat' (first
    | with_reducible assumption
    | (extract_lets +onlyGivenNames x; subst x)
    | with_reducible apply ev_nextOf
    | with_reducible apply ev_execMoveUp
    | with_reducible apply ev_execEvict
    | with_reducible apply ev_execPin
    | with_reducible apply ev_execUnpin
    | with_reducible apply ev_execTirQuery
    | with_reducible apply ev_execDiscard
    | with_reducible apply ev_execRelocate
    | with_reducible apply ev_execFlushExtent
    | with_reducible apply ev_tirCmd
    | split
    | with_reducible apply ev_mk
    | dsimp only
    | intro)

theorem ev_tikWord64 {s₀ s : State} (h₀ : Evolves s₀ s) (v : View) (w : W64) :
    Evolves s₀ (State.tikWord64 s v w) := by
  unfold State.tikWord64
  repeat' (first
    | with_reducible assumption
    | (extract_lets +onlyGivenNames x; ((have y : Nat := x); clear y; clear_value x))
    | with_reducible apply ev_preemptCmd
    | with_reducible apply ev_resumeCmd
    | with_reducible apply ev_runCmd
    | split)

theorem ev_lksWord64 {s₀ s : State} (h₀ : Evolves s₀ s) (v : View) (w : W64) :
    Evolves s₀ (State.lksWord64 s v w) := by
  unfold State.lksWord64
  repeat' (first
    | with_reducible assumption
    | (extract_lets +onlyGivenNames x; first
        | ((have y : Nat := x); clear y; clear_value x)
        | subst x)
    | with_reducible apply ev_nextOf
    | with_reducible apply ev_execCreate
    | with_reducible apply ev_execResize
    | with_reducible apply ev_execDestroy
    | with_reducible apply ev_execLend
    | with_reducible apply ev_execReclaim
    | with_reducible apply ev_execMapShared
    | with_reducible apply ev_execUnmapShared
    | with_reducible apply ev_execSession
    | with_reducible apply ev_execRotate
    | with_reducible apply ev_execAttest
    | with_reducible apply ev_execIdentity
    | with_reducible apply ev_execKeyImport
    | with_reducible apply ev_execKeyDrop
    | with_reducible apply ev_execLifecycle
    | with_reducible apply ev_execSvnCommit
    | with_reducible apply ev_execCertInstall
    | with_reducible apply ev_lksCmd
    | split
    | with_reducible apply ev_mk
    | dsimp only
    | intro)

theorem ev_writeReg {s₀ s : State} (h₀ : Evolves s₀ s) (v : View) (p : Nat) (o : Nat) (w : Nat) :
    Evolves s₀ (State.writeReg s v p o w) := by
  unfold State.writeReg
  dsimp only
  repeat' (first
    | with_reducible exact h₀
    | with_reducible refine ite_evolves ?_ ?_
    | with_reducible apply ev_setCntMode h₀
    | with_reducible apply ev_clearEvents h₀
    | with_reducible apply ev_enableEvents h₀
    | with_reducible apply ev_setEvents h₀
    | with_reducible apply ev_lockPage h₀
    | with_reducible apply ev_writeTikReg h₀
    | with_reducible apply ev_writeVecReg h₀
    | with_reducible apply ev_writeVarReg h₀
    | with_reducible apply ev_writeKvpReg h₀
    | with_reducible apply ev_writeLossScale h₀
    | with_reducible apply ev_writeRetain h₀
    | with_reducible apply ev_writeTirReg h₀
    | with_reducible apply ev_writeColReg h₀
    | with_reducible apply ev_updDom h₀
    | with_reducible apply ev_updLks h₀
    | with_reducible apply ev_writeMemReg h₀
    | with_reducible apply ev_updUnit h₀
    | with_reducible apply ev_writeBasReg h₀
    | with_reducible apply ev_writeNvmReg h₀
    | with_reducible apply ev_updPci h₀
    | with_reducible apply ev_nextOf h₀
    | with_reducible apply ev_execPwrBoundsWrite h₀
    | with_reducible apply ev_execPwrTargetsWrite h₀
    | with_reducible apply ev_updBdg h₀
    | with_reducible apply ev_execMeasure h₀
    | with_reducible apply ev_writeDbgReg h₀
    | with_reducible apply ev_writeFabReg h₀
    | with_reducible apply ev_mk h₀
    | exact fun _ hx => hx
    | exact fun _ => Nat.le_refl _)

theorem ev_writeArg {s₀ s : State} (h₀ : Evolves s₀ s) (c : Nat) (p : Nat) (n : Nat) (o : Nat) (w : W64) :
    Evolves s₀ (State.writeArg s c p n o w) := by
  unfold State.writeArg
  repeat' (first
    | with_reducible assumption
    | with_reducible apply ev_putArg
    | split)

theorem ev_writeWide {s₀ s : State} (h₀ : Evolves s₀ s) (v : View) (p : Nat) (o : Nat) (w : W64) :
    Evolves s₀ (State.writeWide s v p o w) := by
  unfold State.writeWide
  dsimp only
  repeat' (first
    | with_reducible exact h₀
    | with_reducible refine ite_evolves ?_ ?_
    | with_reducible apply ev_varWord64 h₀
    | with_reducible apply ev_writeArg h₀
    | with_reducible apply ev_kvpWord64 h₀
    | with_reducible apply ev_updDom h₀
    | with_reducible apply ev_basWord64 h₀
    | with_reducible apply ev_updBas h₀
    | with_reducible apply ev_tirWord64 h₀
    | with_reducible apply ev_tikWord64 h₀
    | with_reducible apply ev_lksWord64 h₀
    | with_reducible apply ev_writeNsMap h₀
    | with_reducible apply ev_updMbd h₀
    | with_reducible apply ev_updDbg h₀
    | exact fun _ hx => hx
    | exact fun _ a b => ⟨a, b⟩)

theorem ev_writeReg32 {s₀ s : State} (h₀ : Evolves s₀ s) (v : View) (p : Nat) (o : Nat) (w : Nat) :
    Evolves s₀ (State.writeReg32 s v p o w) := by
  unfold State.writeReg32
  repeat' (first
    | with_reducible assumption
    | (extract_lets +onlyGivenNames x; ((have y : Nat := x); clear y; clear_value x))
    | with_reducible apply ev_writeReg
    | with_reducible apply ev_writeWide
    | split)

theorem ev_writeDouble {s₀ s : State} (h₀ : Evolves s₀ s) (v : View) (p : Nat) (o : Nat) (w : W64) :
    Evolves s₀ (State.writeDouble s v p o w) := by
  unfold State.writeDouble
  repeat' (first
    | with_reducible assumption
    | with_reducible apply ev_writeWide
    | with_reducible apply ev_writeReg32
    | split)

theorem ev_writeQueue {s₀ s : State} (h₀ : Evolves s₀ s) (fn : Fin 64) (o : Nat) (size : Nat) (w : W64) :
    Evolves s₀ (State.writeQueue s fn o size w) := by
  unfold State.writeQueue
  repeat' (first
    | with_reducible assumption
    | with_reducible apply ev_nextOf
    | with_reducible apply ev_execSubmitWord
    | with_reducible apply ev_execQueueReset
    | split)

theorem ev_writeMsix {s₀ s : State} (h₀ : Evolves s₀ s) (fn : Fin 64) (o : Nat) (w : Nat) :
    Evolves s₀ (State.writeMsix s fn o w) := by
  unfold State.writeMsix
  repeat' (first
    | with_reducible assumption
    | with_reducible apply ev_updPci
    | with_reducible apply ev_nextOf
    | with_reducible apply ev_execMsixUnmask
    | split
    | with_reducible apply memPut_wf
    | dsimp only
    | intro)

theorem ev_writeBar2 {s₀ s : State} (h₀ : Evolves s₀ s) (fn : Fin 64) (o : Nat) (size : Nat) (w : W64) :
    Evolves s₀ (State.writeBar2 s fn o size w) := by
  unfold State.writeBar2
  repeat' (first
    | with_reducible assumption
    | (extract_lets +onlyGivenNames x; (refine (fun (hx : Evolves s₀ x) => ?_) ?_; (on_goal 1 => clear_value x); (on_goal 2 => subst x)))
    | with_reducible apply ev_writeQueue
    | with_reducible apply ev_writeMsix
    | split)

theorem ev_execRegisterWrite {s₀ s : State} (h₀ : Evolves s₀ s) (v : View) (bar : Bar) (offset : Nat) (size : Nat) (value : W64) :
    EvolvesOut s₀ (execRegisterWrite v bar offset size value s) := by
  unfold execRegisterWrite
  repeat' (first
    | with_reducible assumption
    | (extract_lets +onlyGivenNames x; first
        | ((have y : Nat := x); clear y; clear_value x)
        | ((have y : Bool := x); clear y; clear_value x))
    | with_reducible apply ev_writeDouble
    | with_reducible apply ev_writeReg32
    | with_reducible apply ev_writeBar2
    | with_reducible apply ev_nextOf
    | with_reducible apply ev_execSubmitWord
    | split
    | with_reducible apply evo_next)

theorem ev_execRetrain {s₀ s : State} (h₀ : Evolves s₀ s) (v : View) (port : Fin 18) :
    EvolvesOut s₀ (execRetrain v port s) := by
  unfold execRetrain
  repeat' (first
    | with_reducible assumption
    | with_reducible apply ev_retrainPort
    | with_reducible apply evo_next)

theorem ev_execPortEnable {s₀ s : State} (h₀ : Evolves s₀ s) (v : View) (port : Fin 18) (enable : Bool) :
    EvolvesOut s₀ (execPortEnable v port enable s) := by
  unfold execPortEnable
  repeat' (first
    | with_reducible assumption
    | with_reducible apply ev_enablePort
    | with_reducible apply evo_next)

theorem ev_execRecipeWrite {s₀ s : State} (h₀ : Evolves s₀ s) (v : View) (row : Fin 7) (value : W32) :
    EvolvesOut s₀ (execRecipeWrite v row value s) := by
  unfold execRecipeWrite
  repeat' (first
    | with_reducible assumption
    | with_reducible apply ev_writeRecipe
    | with_reducible apply evo_next)

theorem ev_execHistSelWrite {s₀ s : State} (h₀ : Evolves s₀ s) (v : View) (slot : BitVec 7) :
    EvolvesOut s₀ (execHistSelWrite v slot s) := by
  unfold execHistSelWrite
  repeat' (first
    | with_reducible assumption
    | with_reducible apply ev_writeHistSel
    | with_reducible apply evo_next)

theorem ev_execHistCommit {s₀ s : State} (h₀ : Evolves s₀ s) (v : View) (count : BitVec 5) :
    EvolvesOut s₀ (execHistCommit v count s) := by
  unfold execHistCommit
  repeat' (first
    | with_reducible assumption
    | with_reducible apply ev_commitHist
    | with_reducible apply evo_next)

theorem ev_execZsValueWrite {s₀ s : State} (h₀ : Evolves s₀ s) (v : View) (value : W32) :
    EvolvesOut s₀ (execZsValueWrite v value s) := by
  unfold execZsValueWrite
  repeat' (first
    | with_reducible assumption
    | with_reducible apply ev_writeZs
    | with_reducible apply evo_next)

theorem ev_execLossScaleWrite {s₀ s : State} (h₀ : Evolves s₀ s) (v : View) (value : W32) :
    EvolvesOut s₀ (execLossScaleWrite v value s) := by
  unfold execLossScaleWrite
  repeat' (first
    | with_reducible assumption
    | with_reducible apply ev_writeLossScale
    | with_reducible apply evo_next)

theorem ev_execRetainWrite {s₀ s : State} (h₀ : Evolves s₀ s) (v : View) (value : W32) :
    EvolvesOut s₀ (execRetainWrite v value s) := by
  unfold execRetainWrite
  repeat' (first
    | with_reducible assumption
    | with_reducible apply ev_writeRetain
    | with_reducible apply evo_next)

theorem ev_execRegRateWrite {s₀ s : State} (h₀ : Evolves s₀ s) (v : View) (value : W32) :
    EvolvesOut s₀ (execRegRateWrite v value s) := by
  unfold execRegRateWrite
  repeat' (first
    | with_reducible assumption
    | with_reducible apply ev_writeRates
    | with_reducible apply evo_next)

theorem ev_execMaintWrite {s₀ s : State} (h₀ : Evolves s₀ s) (v : View) (value : W32) :
    EvolvesOut s₀ (execMaintWrite v value s) := by
  unfold execMaintWrite
  repeat' (first
    | with_reducible assumption
    | with_reducible apply ev_writeMaint
    | with_reducible apply evo_next)

theorem ev_execTickConfigWrite {s₀ s : State} (h₀ : Evolves s₀ s) (v : View) (phase : Bool) (value : W32) :
    EvolvesOut s₀ (execTickConfigWrite v phase value s) := by
  unfold execTickConfigWrite
  repeat' (first
    | with_reducible assumption
    | with_reducible apply ev_writeTick
    | with_reducible apply evo_next)

theorem ev_execShareWrite {s₀ s : State} (h₀ : Evolves s₀ s) (v : View) (value : W32) :
    EvolvesOut s₀ (execShareWrite v value s) := by
  unfold execShareWrite
  repeat' (first
    | with_reducible assumption
    | with_reducible apply ev_writeShare
    | with_reducible apply evo_next)

theorem ev_execPlanSlotsWrite {s₀ s : State} (h₀ : Evolves s₀ s) (v : View) (value : W32) :
    EvolvesOut s₀ (execPlanSlotsWrite v value s) := by
  unfold execPlanSlotsWrite
  repeat' (first
    | with_reducible assumption
    | with_reducible apply ev_writePlanSlots
    | with_reducible apply evo_next)

theorem ev_execFlashRateWrite {s₀ s : State} (h₀ : Evolves s₀ s) (v : View) (value : W32) :
    EvolvesOut s₀ (execFlashRateWrite v value s) := by
  unfold execFlashRateWrite
  repeat' (first
    | with_reducible assumption
    | with_reducible apply ev_writeFlashRate
    | with_reducible apply evo_next)

theorem ev_execPtagWrite {s₀ s : State} (h₀ : Evolves s₀ s) (v : View) (value : W32) :
    EvolvesOut s₀ (execPtagWrite v value s) := by
  unfold execPtagWrite
  repeat' (first
    | with_reducible assumption
    | with_reducible apply ev_writePtag
    | with_reducible apply evo_next)

theorem ev_execSlotTagWrite {s₀ s : State} (h₀ : Evolves s₀ s) (v : View) (value : W32) :
    EvolvesOut s₀ (execSlotTagWrite v value s) := by
  unfold execSlotTagWrite
  repeat' (first
    | with_reducible assumption
    | with_reducible apply ev_writeSlotTag
    | with_reducible apply evo_next)

theorem ev_execApply {s₀ s : State} (h₀ : Evolves s₀ s) (v : View) (d : Fin 64) :
    EvolvesOut s₀ (execApply v d s) := by
  unfold execApply
  repeat' (first
    | with_reducible assumption
    | with_reducible apply ev_applyKey
    | with_reducible apply evo_next)

theorem ev_execTraceCfgWrite {s₀ s : State} (h₀ : Evolves s₀ s) (v : View) (value : W32) :
    EvolvesOut s₀ (execTraceCfgWrite v value s) := by
  unfold execTraceCfgWrite
  repeat' (first
    | with_reducible assumption
    | with_reducible apply ev_writeTraceCfg
    | with_reducible apply evo_next)

theorem ev_execBlkEventClear {s₀ s : State} (h₀ : Evolves s₀ s) (v : View) (page : Byte) (mask : W32) :
    EvolvesOut s₀ (execBlkEventClear v page mask s) := by
  unfold execBlkEventClear
  repeat' (first
    | with_reducible assumption
    | with_reducible apply ev_clearEvents
    | with_reducible apply evo_next)

theorem ev_execBlkEventEnWrite {s₀ s : State} (h₀ : Evolves s₀ s) (v : View) (page : Byte) (mask : W32) :
    EvolvesOut s₀ (execBlkEventEnWrite v page mask s) := by
  unfold execBlkEventEnWrite
  repeat' (first
    | with_reducible assumption
    | with_reducible apply ev_enableEvents
    | with_reducible apply evo_next)

theorem ev_execBlkEventSet {s₀ s : State} (h₀ : Evolves s₀ s) (v : View) (page : Byte) (mask : W32) :
    EvolvesOut s₀ (execBlkEventSet v page mask s) := by
  unfold execBlkEventSet
  repeat' (first
    | with_reducible assumption
    | with_reducible apply ev_setEvents
    | with_reducible apply evo_next)

theorem ev_execBlkLock {s₀ s : State} (h₀ : Evolves s₀ s) (v : View) (page : Byte) :
    EvolvesOut s₀ (execBlkLock v page s) := by
  unfold execBlkLock
  repeat' (first
    | with_reducible assumption
    | with_reducible apply ev_lockPage
    | with_reducible apply evo_next)

theorem ev_execCntModeWrite {s₀ s : State} (h₀ : Evolves s₀ s) (v : View) (page : Byte) (mode : BitVec 2) :
    EvolvesOut s₀ (execCntModeWrite v page mode s) := by
  unfold execCntModeWrite
  repeat' (first
    | with_reducible assumption
    | with_reducible apply ev_setCntMode
    | with_reducible apply evo_next)

end Sys2Proof.Laws
end

