-- ==== Sys2Proof/Laws/EvolveMonitor.lean ====
section
/-! SUPPORT. The operations of Machine/Monitor.lean evolve the state: from Evolves s₀ s, Evolves s₀ of what the operation makes of s. -/

namespace Sys2Proof.Laws

open Sys2Proof.Machine Sys2Proof.Safety

theorem mon_some {s₀ t : State} {vs : List Nat} (h : Evolves s₀ t) :
    (some (vs, t)).elim True (fun r : List Nat × State => Evolves s₀ r.2) := h

theorem mon_none {s₀ : State} : (none : Option (List Nat × State)).elim True (fun r => Evolves s₀ r.2) := trivial

theorem ev_monitor {s₀ s : State} (h₀ : Evolves s₀ s) (g : MonGroup) (f : State → Option (List Nat × State))
    (hf : (f s).elim True (fun r => Evolves s₀ r.2)) : Evolves s₀ (s.monitor g f) := by
  unfold State.monitor
  split
  · exact h₀
  · split
    · cases e : f s with
      | none => exact ev_emit h₀ _
      | some r => rw [e] at hf; exact ev_emit hf _
    · exact ev_emit h₀ _

theorem ev_execId {s₀ s : State} (h₀ : Evolves s₀ s)  :
    EvolvesOut s₀ (execId s) := by
  unfold execId
  repeat' (first
    | with_reducible assumption
    | with_reducible apply ev_monitor
    | with_reducible apply evo_next
    | with_reducible apply mon_some)

theorem ev_execHealth {s₀ s : State} (h₀ : Evolves s₀ s)  :
    EvolvesOut s₀ (execHealth s) := by
  unfold execHealth
  repeat' (first
    | with_reducible assumption
    | with_reducible apply ev_monitor
    | with_reducible apply evo_next
    | with_reducible apply mon_some)

theorem ev_execChal {s₀ s : State} (h₀ : Evolves s₀ s)  :
    EvolvesOut s₀ (execChal s) := by
  unfold execChal
  repeat' (first
    | with_reducible assumption
    | with_reducible apply ev_monitor
    | with_reducible apply evo_next
    | with_reducible apply mon_some)

theorem ev_execUnlock {s₀ s : State} (h₀ : Evolves s₀ s) (token : List Byte) :
    EvolvesOut s₀ (execUnlock token s) := by
  unfold execUnlock
  repeat' (first
    | with_reducible assumption
    | with_reducible apply ev_emit
    | with_reducible apply ev_authFail
    | with_reducible apply ev_monitor
    | with_reducible apply ev_raiseDev
    | with_reducible apply ev_updBoot
    | split
    | with_reducible apply evo_next
    | with_reducible apply mon_some)

theorem ev_execPeek {s₀ s : State} (h₀ : Evolves s₀ s) (page : Byte) (offset : Nat) :
    EvolvesOut s₀ (execPeek page offset s) := by
  unfold execPeek
  repeat' (first
    | with_reducible assumption
    | (extract_lets +onlyGivenNames x; ((have y : Nat := x); clear y; clear_value x))
    | with_reducible apply ev_monitor
    | split
    | with_reducible apply evo_next
    | with_reducible apply mon_some
    | with_reducible exact mon_none)

theorem ev_execCount {s₀ s : State} (h₀ : Evolves s₀ s) (page : Byte) (offset : Nat) :
    EvolvesOut s₀ (execCount page offset s) := by
  unfold execCount
  repeat' (first
    | with_reducible assumption
    | (extract_lets +onlyGivenNames x; ((have y : Nat := x); clear y; clear_value x))
    | with_reducible apply ev_monitor
    | split
    | with_reducible apply evo_next
    | with_reducible apply mon_some
    | with_reducible exact mon_none)

theorem ev_execTrace {s₀ s : State} (h₀ : Evolves s₀ s) (index : Nat) :
    EvolvesOut s₀ (execTrace index s) := by
  unfold execTrace
  repeat' (first
    | with_reducible assumption
    | (extract_lets +onlyGivenNames x; ((have y : List Byte := x); clear y; clear_value x))
    | with_reducible apply ev_monitor
    | split
    | with_reducible apply evo_next
    | with_reducible apply mon_some
    | with_reducible exact mon_none)

theorem ev_execPoke {s₀ s : State} (h₀ : Evolves s₀ s) (page : Byte) (offset : Nat) (value : W32) :
    EvolvesOut s₀ (execPoke page offset value s) := by
  unfold execPoke
  repeat' (first
    | with_reducible assumption
    | (extract_lets +onlyGivenNames x; ((have y : Nat := x); clear y; clear_value x))
    | with_reducible apply ev_monitor
    | with_reducible apply ev_writeReg32
    | split
    | with_reducible apply evo_next
    | with_reducible apply mon_some
    | with_reducible exact mon_none)

theorem ev_execMem {s₀ s : State} (h₀ : Evolves s₀ s) (d : Fin 64) (addr : Nat) (write : Option Byte) :
    EvolvesOut s₀ (execMem d addr write s) := by
  unfold execMem
  repeat' (first
    | with_reducible assumption
    | with_reducible apply ev_monitor
    | with_reducible apply ev_wrMem
    | split
    | with_reducible apply evo_next
    | with_reducible apply mon_some
    | with_reducible exact mon_none)

theorem ev_execDomread {s₀ s : State} (h₀ : Evolves s₀ s) (d : Fin 64) (page : Byte) (offset : Nat) :
    EvolvesOut s₀ (execDomread d page offset s) := by
  unfold execDomread
  repeat' (first
    | with_reducible assumption
    | (extract_lets +onlyGivenNames x; first
        | ((have y : Nat := x); clear y; clear_value x)
        | subst x)
    | with_reducible apply ev_monitor
    | split
    | with_reducible apply evo_next
    | with_reducible apply mon_some
    | with_reducible exact mon_none)

end Sys2Proof.Laws
end

