-- ==== Sys2Proof/Laws/FrameOperands.lean ====
section
/-! SUPPORT. What the operations of Machine/Operands.lean may change (Safety.Frame): each lemma lists the parts. -/

namespace Sys2Proof.Laws

open Sys2Proof.Machine Sys2Proof.Safety

theorem dfr_wrMem {L : List Part} {x₀ x : Dom} (h : DomFrame L x₀ x) (a : Nat) (bs : List Byte)
    (hL : ∀ p ∈ [Part.domTir, .domMem, .domPoison], p ∈ L) : DomFrame L x₀ (Dom.wrMem x a bs) := by
  unfold Dom.wrMem
  repeat' (first
    | with_reducible assumption
    | exact sub_trans hL (by decide)
    | (extract_lets +onlyGivenNames z; subst z)
    | with_reducible refine foldl_keeps (DomFrame L _) _ ?_ _ ?_
    | split
    | (refine dfr_trans (by assumption) ?_; with_reducible apply dfr_mk)
    | with_reducible apply dfr_mk
    | with_reducible exact Or.inr rfl
    | with_reducible exact Or.inr (same_mem _)
    | with_reducible exact Or.inr (same_domLife _)
    | with_reducible exact Or.inr (same_domRecord _)
    | with_reducible exact Or.inr (same_domPreempt _)
    | with_reducible exact Or.inr (same_domSlabs _)
    | with_reducible exact Or.inr (same_domSched _)
    | with_reducible exact Or.inl (hL .domTir (by decide))
    | with_reducible exact Or.inl (hL .domMem (by decide))
    | with_reducible exact Or.inl (hL .domPoison (by decide))
    | dsimp only
    | intro)

theorem dfr_touch {L : List Part} {x₀ x : Dom} (h : DomFrame L x₀ x) (a : Nat) (n : Nat)
    (hL : ∀ p ∈ [Part.domTir], p ∈ L) : DomFrame L x₀ (Dom.touch x a n) := by
  unfold Dom.touch
  repeat' (first
    | with_reducible assumption
    | exact sub_trans hL (by decide)
    | (extract_lets +onlyGivenNames z; subst z)
    | with_reducible apply dfr_putEntry
    | with_reducible refine foldl_keeps (DomFrame L _) _ ?_ _ ?_
    | split
    | with_reducible apply dfr_mk
    | with_reducible exact Or.inr rfl
    | with_reducible exact Or.inr (same_mem _)
    | with_reducible exact Or.inr (same_domLife _)
    | with_reducible exact Or.inr (same_domRecord _)
    | with_reducible exact Or.inr (same_domPreempt _)
    | with_reducible exact Or.inr (same_domSlabs _)
    | with_reducible exact Or.inr (same_domSched _)
    | with_reducible exact Or.inl (hL .domTir (by decide))
    | dsimp only
    | intro)

theorem fr_wrMem {L : List Part} {s₀ s : State} (h₀ : Frame L s₀ s) (d : Nat) (a : Nat) (bs : List Byte)
    (hL : ∀ p ∈ [Part.domTir, .domMem, .domPoison], p ∈ L) :
    Frame L s₀ (State.wrMem s d a bs) := by
  unfold State.wrMem
  repeat' (first
    | with_reducible assumption
    | exact sub_trans hL (by decide)
    | with_reducible apply fr_updDom
    | split
    | with_reducible apply dfr_wrMem
    | with_reducible apply dfr_touch
    | with_reducible exact dfr_refl _ _
    | intro)

theorem fr_wrCommons {L : List Part} {s₀ s : State} (h₀ : Frame L s₀ s) (o : Nat) (bs : List Byte)
    (hL : ∀ p ∈ [Part.commons, .commonsPoison], p ∈ L) :
    Frame L s₀ (State.wrCommons s o bs) := by
  unfold State.wrCommons
  repeat' (first
    | with_reducible assumption
    | exact sub_trans hL (by decide)
    | split
    | with_reducible apply fr_mk
    | with_reducible exact Or.inr rfl
    | with_reducible exact Or.inr (same_mem _)
    | with_reducible exact Or.inr (same_poison _)
    | with_reducible exact Or.inr (same_head _)
    | with_reducible exact same_ring _
    | exact Or.inr (fun _ => rfl)
    | with_reducible exact Or.inl (hL .commons (by decide))
    | with_reducible exact Or.inl (hL .commonsPoison (by decide)))

theorem fr_wrSpace {L : List Part} {s₀ s : State} (h₀ : Frame L s₀ s) (d : Nat) (space : Nat) (a : Nat) (bs : List Byte)
    (hL : ∀ p ∈ [Part.commons, .commonsPoison, .domTir, .domMem, .domPoison], p ∈ L) :
    Frame L s₀ (State.wrSpace s d space a bs) := by
  unfold State.wrSpace
  repeat' (first
    | with_reducible assumption
    | exact sub_trans hL (by decide)
    | with_reducible apply fr_wrMem
    | with_reducible apply fr_wrCommons
    | split)

theorem fr_wrBuffer {L : List Part} {s₀ s : State} (h₀ : Frame L s₀ s) (d : Nat) (e : SlotEntry) (buf : Bool) (a : Nat) (bs : List Byte)
    (hL : ∀ p ∈ [Part.domTir, .domMem, .domPoison], p ∈ L) :
    Frame L s₀ (State.wrBuffer s d e buf a bs) := by
  unfold State.wrBuffer
  repeat' (first
    | with_reducible assumption
    | exact sub_trans hL (by decide)
    | with_reducible apply fr_wrMem
    | with_reducible apply fr_foldl
    | with_reducible apply fr_foldl_fst
    | with_reducible apply fr_foldl_snd
    | (refine fr_foldl_fst_eq ?_ ?_ (by assumption))
    | (refine fr_foldl_snd_eq ?_ ?_ (by assumption))
    | split
    | with_reducible apply dfr_wrMem
    | with_reducible apply fr_mk
    | with_reducible exact Or.inr rfl
    | with_reducible exact Or.inr (same_mem _)
    | with_reducible exact Or.inr (same_poison _)
    | with_reducible exact Or.inr (same_head _)
    | with_reducible exact same_ring _
    | exact Or.inr (fun _ => rfl)
    | with_reducible exact Or.inl (hL .domTir (by decide))
    | with_reducible exact Or.inl (hL .domMem (by decide))
    | with_reducible exact Or.inl (hL .domPoison (by decide))
    | dsimp only
    | intro)

theorem fr_accPutAll {L : List Part} {s₀ s : State} (h₀ : Frame L s₀ s) (l : List (Nat × W32))
    (hL : ∀ p ∈ [Part.acc], p ∈ L) :
    Frame L s₀ (State.accPutAll s l) := by
  unfold State.accPutAll
  repeat' (first
    | with_reducible assumption
    | exact sub_trans hL (by decide)
    | with_reducible apply fr_foldl
    | with_reducible apply fr_foldl_fst
    | with_reducible apply fr_foldl_snd
    | (refine fr_foldl_fst_eq ?_ ?_ (by assumption))
    | (refine fr_foldl_snd_eq ?_ ?_ (by assumption))
    | split
    | with_reducible apply fr_mk
    | with_reducible exact Or.inr rfl
    | with_reducible exact Or.inr (same_mem _)
    | with_reducible exact Or.inr (same_poison _)
    | with_reducible exact Or.inr (same_head _)
    | with_reducible exact same_ring _
    | exact Or.inr (fun _ => rfl)
    | with_reducible exact Or.inl (hL .acc (by decide)))

theorem fr_clearArrays {L : List Part} {s₀ s : State} (h₀ : Frame L s₀ s) (a : Nat) (n : Nat) (buffers : Bool)
    (hL : ∀ p ∈ [Part.acc, .opbuf], p ∈ L) :
    Frame L s₀ (State.clearArrays s a n buffers) := by
  unfold State.clearArrays
  repeat' (first
    | with_reducible assumption
    | exact sub_trans hL (by decide)
    | split
    | with_reducible apply fr_mk
    | with_reducible exact Or.inr rfl
    | with_reducible exact Or.inr (same_mem _)
    | with_reducible exact Or.inr (same_poison _)
    | with_reducible exact Or.inr (same_head _)
    | with_reducible exact same_ring _
    | exact Or.inr (fun _ => rfl)
    | with_reducible exact Or.inl (hL .acc (by decide))
    | with_reducible exact Or.inl (hL .opbuf (by decide)))

end Sys2Proof.Laws
end

