-- ==== Sys2Proof/Laws/FrameErrors.lean ====
section
/-! SUPPORT. What the operations of Machine/Errors.lean may change (Safety.Frame): each lemma lists the parts. -/

namespace Sys2Proof.Laws

open Sys2Proof.Machine Sys2Proof.Safety

theorem fr_correctedBlock {L : List Part} {s₀ s : State} (h₀ : Frame L s₀ s) (p : BlockPlace)
    (hL : ∀ p ∈ [Part.mbds, .counters], p ∈ L) :
    Frame L s₀ (State.correctedBlock s p) := by
  unfold State.correctedBlock
  repeat' (first
    | with_reducible assumption
    | exact sub_trans hL (by decide)
    | (extract_lets +onlyGivenNames x; first
        | (refine (fun (hx : Frame L s₀ x) => ?_) ?_; (on_goal 1 => clear_value x); (on_goal 2 => subst x))
        | ((have y : Nat := x); clear y; clear_value x))
    | with_reducible apply fr_bump
    | with_reducible apply fr_updMbd)

theorem fr_uncorrectableBlock {L : List Part} {s₀ s : State} (h₀ : Frame L s₀ s) (p : BlockPlace) (keyDom : Nat) (base : Bool)
    (hL : ∀ p ∈ [Part.pciPending, .traceHead, .mbds, .views, .counters, .out], p ∈ L) :
    Frame L s₀ (State.uncorrectableBlock s p keyDom base) := by
  unfold State.uncorrectableBlock
  repeat' (first
    | with_reducible assumption
    | exact sub_trans hL (by decide)
    | (extract_lets +onlyGivenNames x; first
        | (refine (fun (hx : Frame L s₀ x) => ?_) ?_; (on_goal 1 => clear_value x); (on_goal 2 => subst x))
        | ((have y : Nat := x); clear y; clear_value x))
    | with_reducible apply fr_updMbd
    | with_reducible apply fr_bump
    | with_reducible apply fr_raiseDev)

theorem fr_poisonRewrite {L : List Part} {s₀ s : State} (h₀ : Frame L s₀ s) (p : BlockPlace)
    (hL : ∀ p ∈ [Part.mbds], p ∈ L) :
    Frame L s₀ (State.poisonRewrite s p) := by
  unfold State.poisonRewrite
  repeat' (first
    | with_reducible assumption
    | exact sub_trans hL (by decide)
    | with_reducible apply fr_updMbd)

theorem fr_readDomainBlock {L : List Part} {s₀ s : State} (h₀ : Frame L s₀ s) (d : Nat) (addr : Nat) (symbols : Nat)
    (hL : ∀ p ∈ [Part.pciPending, .traceHead, .mbds, .views, .counters, .out, .domPoison], p ∈ L) :
    Frame L s₀ (State.readDomainBlock s d addr symbols) := by
  unfold State.readDomainBlock
  repeat' (first
    | with_reducible assumption
    | exact sub_trans hL (by decide)
    | (extract_lets +onlyGivenNames x; first
        | subst x)
    | with_reducible apply fr_poisonRewrite
    | with_reducible apply fr_correctedBlock
    | with_reducible apply fr_uncorrectableBlock
    | with_reducible apply fr_updDom
    | split
    | with_reducible apply dfr_mk
    | with_reducible exact dfr_refl _ _
    | with_reducible apply fr_mk
    | with_reducible exact Or.inr rfl
    | with_reducible exact Or.inr (same_mem _)
    | with_reducible exact Or.inr (same_domLife _)
    | with_reducible exact Or.inr (same_domRecord _)
    | with_reducible exact Or.inr (same_domPreempt _)
    | with_reducible exact Or.inr (same_domSlabs _)
    | with_reducible exact Or.inr (same_domSched _)
    | with_reducible exact Or.inr (same_poison _)
    | with_reducible exact Or.inr (same_head _)
    | with_reducible exact same_ring _
    | exact Or.inr (fun _ => rfl)
    | with_reducible exact Or.inl (hL .pciPending (by decide))
    | with_reducible exact Or.inl (hL .traceHead (by decide))
    | with_reducible exact Or.inl (hL .mbds (by decide))
    | with_reducible exact Or.inl (hL .views (by decide))
    | with_reducible exact Or.inl (hL .counters (by decide))
    | with_reducible exact Or.inl (hL .out (by decide))
    | with_reducible exact Or.inl (hL .domPoison (by decide))
    | dsimp only
    | intro)

theorem fr_readBaseBlock {L : List Part} {s₀ s : State} (h₀ : Frame L s₀ s) (k : Nat) (o : Nat) (symbols : Nat)
    (hL : ∀ p ∈ [Part.pciPending, .bas, .traceHead, .mbds, .views, .counters, .out], p ∈ L) :
    Frame L s₀ (State.readBaseBlock s k o symbols) := by
  unfold State.readBaseBlock
  repeat' (first
    | with_reducible assumption
    | exact sub_trans hL (by decide)
    | (extract_lets +onlyGivenNames x; first
        | subst x)
    | with_reducible apply fr_poisonRewrite
    | with_reducible apply fr_correctedBlock
    | with_reducible apply fr_uncorrectableBlock
    | with_reducible apply fr_updCopy
    | split)

theorem fr_countCommonsUe {L : List Part} {s₀ s : State} (h₀ : Frame L s₀ s) (o : Nat) (n : Nat)
    (hL : ∀ p ∈ [Part.pciPending, .traceHead, .views, .counters, .commonsPoison, .out], p ∈ L) :
    Frame L s₀ (State.countCommonsUe s o n) := by
  unfold State.countCommonsUe
  repeat' (first
    | with_reducible assumption
    | exact sub_trans hL (by decide)
    | (extract_lets +onlyGivenNames x; first
        | subst x)
    | with_reducible apply fr_bump
    | with_reducible apply fr_raiseDom
    | with_reducible apply fr_foldl
    | with_reducible apply fr_foldl_fst
    | with_reducible apply fr_foldl_snd
    | (refine fr_foldl_fst_eq ?_ ?_ (by assumption))
    | (refine fr_foldl_snd_eq ?_ ?_ (by assumption))
    | split
    | with_reducible apply fr_mk
    | with_reducible exact Or.inr rfl
    | with_reducible exact Or.inr (same_mem _)
    | with_reducible exact Or.inr (same_poison _)
    | with_reducible exact Or.inr (same_head _)
    | with_reducible exact same_ring _
    | exact Or.inr (fun _ => rfl)
    | with_reducible exact Or.inl (hL .pciPending (by decide))
    | with_reducible exact Or.inl (hL .traceHead (by decide))
    | with_reducible exact Or.inl (hL .views (by decide))
    | with_reducible exact Or.inl (hL .counters (by decide))
    | with_reducible exact Or.inl (hL .commonsPoison (by decide))
    | with_reducible exact Or.inl (hL .out (by decide))
    | dsimp only
    | intro)

theorem fr_readCommonsWord {L : List Part} {s₀ s : State} (h₀ : Frame L s₀ s) (o : Nat) (double : Bool)
    (hL : ∀ p ∈ [Part.pciPending, .traceHead, .views, .counters, .commonsPoison, .out], p ∈ L) :
    Frame L s₀ (State.readCommonsWord s o double) := by
  unfold State.readCommonsWord
  repeat' (first
    | with_reducible assumption
    | exact sub_trans hL (by decide)
    | with_reducible apply fr_countCommonsUe
    | with_reducible apply fr_bump
    | split
    | with_reducible apply fr_mk
    | with_reducible exact Or.inr rfl
    | with_reducible exact Or.inr (same_mem _)
    | with_reducible exact Or.inr (same_poison _)
    | with_reducible exact Or.inr (same_head _)
    | with_reducible exact same_ring _
    | exact Or.inr (fun _ => rfl)
    | with_reducible exact Or.inl (hL .commonsPoison (by decide)))

theorem fr_sramError {L : List Part} {s₀ s : State} (h₀ : Frame L s₀ s) (array : Nat) (acc : Bool) (entry : Nat)
    (double : Bool)
    (hL : ∀ p ∈ [Part.pciPending, .traceHead, .units, .views, .counters, .out], p ∈ L) :
    Frame L s₀ (State.sramError s array acc entry double) := by
  unfold State.sramError
  repeat' (first
    | with_reducible assumption
    | exact sub_trans hL (by decide)
    | (extract_lets +onlyGivenNames x; first
        | (refine (fun (hx : Frame L s₀ x) => ?_) ?_; (on_goal 1 => clear_value x); (on_goal 2 => subst x))
        | ((have y : Nat := x); clear y; clear_value x))
    | with_reducible apply fr_updUnit
    | with_reducible apply fr_bump
    | with_reducible apply fr_raiseUnit
    | split)

theorem fr_meetError {L : List Part} {s₀ s : State} (h₀ : Frame L s₀ s) (d : Nat) (a1 : ReadError)
    (hL : ∀ p ∈ [Part.pciPending, .bas, .traceHead, .mbds, .units, .views, .counters, .commonsPoison, .out, .domPoison], p ∈ L) :
    Frame L s₀ (State.meetError s d a1).1 := by
  unfold State.meetError
  repeat' (first
    | with_reducible assumption
    | exact sub_trans hL (by decide)
    | with_reducible apply fr_readDomainBlock
    | with_reducible apply fr_readBaseBlock
    | with_reducible apply fr_readCommonsWord
    | with_reducible apply fr_sramError
    | split)
theorem fr_meetError_eq {L : List Part} {s₀ s : State} (h₀ : Frame L s₀ s) {d : Nat} {a1 : ReadError} {r₀ : _} {u₀ : State}
    (e₀ : State.meetError s d a1 = (u₀, r₀))
    (hL : ∀ p ∈ [Part.pciPending, .bas, .traceHead, .mbds, .units, .views, .counters, .commonsPoison, .out, .domPoison], p ∈ L) : Frame L s₀ u₀ := by
  have x := fr_meetError h₀ d a1 hL
  rw [e₀] at x
  exact x

theorem fr_meetErrors {L : List Part} {s₀ s : State} (h₀ : Frame L s₀ s) (d : Nat) (es : List ReadError)
    (hL : ∀ p ∈ [Part.pciPending, .bas, .traceHead, .mbds, .units, .views, .counters, .commonsPoison, .out, .domPoison], p ∈ L) :
    Frame L s₀ (State.meetErrors s d es).1 := by
  unfold State.meetErrors
  repeat' (first
    | with_reducible assumption
    | exact sub_trans hL (by decide)
    | with_reducible apply fr_meetError
    | with_reducible apply fr_foldl_fst
    | dsimp only
    | intro)
theorem fr_meetErrors_eq {L : List Part} {s₀ s : State} (h₀ : Frame L s₀ s) {d : Nat} {es : List ReadError} {r₀ : _}
    {u₀ : State}
    (e₀ : State.meetErrors s d es = (u₀, r₀))
    (hL : ∀ p ∈ [Part.pciPending, .bas, .traceHead, .mbds, .units, .views, .counters, .commonsPoison, .out, .domPoison], p ∈ L) : Frame L s₀ u₀ := by
  have x := fr_meetErrors h₀ d es hL
  rw [e₀] at x
  exact x

end Sys2Proof.Laws
end

