-- ==== Sys2Proof/Laws/FrameProduct.lean ====
section
/-! SUPPORT. What the operations of Machine/Product.lean may change (Safety.Frame): each lemma lists the parts. -/

namespace Sys2Proof.Laws

open Sys2Proof.Machine Sys2Proof.Safety

theorem fr_putStat {L : List Part} {s₀ s : State} (h₀ : Frame L s₀ s) (array : Nat) (kib : Nat) (bs : List Byte)
    (hL : ∀ p ∈ [Part.opbuf], p ∈ L) :
    Frame L s₀ (State.putStat s array kib bs) := by
  unfold State.putStat
  repeat' (first
    | with_reducible assumption
    | exact sub_trans hL (by decide)
    | (extract_lets +onlyGivenNames x; first
        | ((have y : Nat := x); clear y; clear_value x)
        | subst x)
    | split
    | with_reducible apply fr_mk
    | with_reducible exact Or.inr rfl
    | with_reducible exact Or.inr (same_mem _)
    | with_reducible exact Or.inr (same_poison _)
    | with_reducible exact Or.inr (same_head _)
    | with_reducible exact same_ring _
    | exact Or.inr (fun _ => rfl)
    | with_reducible exact Or.inl (hL .opbuf (by decide)))

theorem fr_streamChunks {L : List Part} {s₀ s : State} (h₀ : Frame L s₀ s) (d : Nat) (parts : List (Opd × Nat × Nat)) (array : Nat) (kib : Nat) (chunk : Nat) (kFirst : Nat) (kBlks : Nat)
    (hL : ∀ p ∈ [Part.opbuf], p ∈ L) :
    Frame L s₀ (State.streamChunks s d parts array kib chunk kFirst kBlks) := by
  unfold State.streamChunks
  repeat' (first
    | with_reducible assumption
    | exact sub_trans hL (by decide)
    | (extract_lets +onlyGivenNames x; first
        | subst x)
    | with_reducible apply fr_foldl
    | with_reducible apply fr_foldl_fst
    | with_reducible apply fr_foldl_snd
    | (refine fr_foldl_fst_eq ?_ ?_ (by assumption))
    | (refine fr_foldl_snd_eq ?_ ?_ (by assumption))
    | split
    | with_reducible apply fr_mk
    | with_reducible exact Or.inr rfl
    | with_reducible exact Or.inr (same_mem _)
    | with_reducible exact Or.inr (same_poison _)
    | with_reducible exact Or.inr (same_head _)
    | with_reducible exact same_ring _
    | exact Or.inr (fun _ => rfl)
    | with_reducible exact Or.inl (hL .opbuf (by decide))
    | dsimp only
    | intro)

theorem fr_loadStat {L : List Part} {s₀ s : State} (h₀ : Frame L s₀ s) (d : Nat) (o : Opd) (array : Nat) (kib : Nat)
    (v0 : Nat) (nv : Nat) (kFirst : Nat) (kBlks : Nat)
    (hL : ∀ p ∈ [Part.opbuf], p ∈ L) :
    Frame L s₀ (State.loadStat s d o array kib v0 nv kFirst kBlks).1 := by
  unfold State.loadStat
  repeat' (first
    | with_reducible assumption
    | exact sub_trans hL (by decide)
    | (extract_lets +onlyGivenNames x; subst x)
    | with_reducible apply fr_putStat)
theorem fr_loadStat_eq {L : List Part} {s₀ s : State} (h₀ : Frame L s₀ s) {d : Nat} {o : Opd} {array : Nat} {kib : Nat}
    {v0 : Nat} {nv : Nat} {kFirst : Nat} {kBlks : Nat} {r₀ : _} {u₀ : State}
    (e₀ : State.loadStat s d o array kib v0 nv kFirst kBlks = (u₀, r₀))
    (hL : ∀ p ∈ [Part.opbuf], p ∈ L) : Frame L s₀ u₀ := by
  have x := fr_loadStat h₀ d o array kib v0 nv kFirst kBlks hL
  rw [e₀] at x
  exact x

theorem fr_noteOperand {L : List Part} {s₀ s : State} (h₀ : Frame L s₀ s) (d : Nat) (first : Nat) (n : Nat) (order : Nat) (key : List W64) (loaded : Bool)
    (hL : ∀ p ∈ [Part.domSlabs], p ∈ L) :
    Frame L s₀ (State.noteOperand s d first n order key loaded) := by
  unfold State.noteOperand
  repeat' (first
    | with_reducible assumption
    | exact sub_trans hL (by decide)
    | with_reducible apply fr_updDom
    | with_reducible apply fr_foldl
    | with_reducible apply fr_foldl_fst
    | with_reducible apply fr_foldl_snd
    | (refine fr_foldl_fst_eq ?_ ?_ (by assumption))
    | (refine fr_foldl_snd_eq ?_ ?_ (by assumption))
    | split
    | with_reducible apply dfr_mk
    | with_reducible exact dfr_refl _ _
    | with_reducible apply fr_mk
    | with_reducible exact Or.inr rfl
    | with_reducible exact Or.inr (same_mem _)
    | with_reducible exact Or.inr (same_domLife _)
    | with_reducible exact Or.inr (same_domRecord _)
    | with_reducible exact Or.inr (same_domPreempt _)
    | with_reducible exact Or.inr (same_domSlabs _)
    | with_reducible exact Or.inr (same_domSched _)
    | with_reducible exact Or.inr (same_poison _)
    | with_reducible exact Or.inr (same_head _)
    | with_reducible exact same_ring _
    | exact Or.inr (fun _ => rfl)
    | with_reducible exact Or.inl (hL .domSlabs (by decide))
    | dsimp only
    | intro)

theorem fr_baseCompute {L : List Part} {s₀ s : State} (h₀ : Frame L s₀ s) (d : Nat) (h : Hdr) (b : BaseBody) (col : Opd) (reuse : List Nat)
    (hL : ∀ p ∈ [Part.opbuf], p ∈ L) :
    Frame L s₀ (State.baseCompute s d h b col reuse).1 := by
  unfold State.baseCompute
  repeat' (first
    | with_reducible assumption
    | exact sub_trans hL (by decide)
    | (extract_lets +onlyGivenNames x; first
        | ((have y : Nat := x); clear y; clear_value x)
        | subst x)
    | with_reducible apply fr_loadStat
    | (refine fr_loadStat_eq ?_ (by assumption) ?_)
    | with_reducible apply fr_streamChunks
    | with_reducible apply fr_foldl
    | with_reducible apply fr_foldl_fst
    | with_reducible apply fr_foldl_snd
    | (refine fr_foldl_fst_eq ?_ ?_ (by assumption))
    | (refine fr_foldl_snd_eq ?_ ?_ (by assumption))
    | split
    | dsimp only
    | intro)
theorem fr_baseCompute_eq {L : List Part} {s₀ s : State} (h₀ : Frame L s₀ s) {d : Nat} {h : Hdr} {b : BaseBody} {col : Opd} {reuse : List Nat} {r₁ : _} {r₂ : _} {u₀ : State}
    (e₀ : State.baseCompute s d h b col reuse = (u₀, r₁, r₂))
    (hL : ∀ p ∈ [Part.opbuf], p ∈ L) : Frame L s₀ u₀ := by
  have x := fr_baseCompute h₀ d h b col reuse hL
  rw [e₀] at x
  exact x

theorem fr_runBase {L : List Part} {s₀ s : State} (h₀ : Frame L s₀ s) (d : Nat) (ws : List W64) (reuse : List Nat) (sram : Bool)
    (hL : ∀ p ∈ [Part.counters, .acc, .opbuf, .domSlabs], p ∈ L) :
    Frame L s₀ (State.runBase s d ws reuse sram).st := by
  unfold State.runBase
  repeat' (first
    | with_reducible assumption
    | exact sub_trans hL (by decide)
    | (extract_lets +onlyGivenNames x; first
        | (refine (fun (hx : Frame L s₀ x) => ?_) ?_; (on_goal 1 => clear_value x); (on_goal 2 => subst x))
        | ((have y : Nat := x); clear y; clear_value x)
        | ((have y : Hdr := x); clear y; clear_value x)
        | subst x)
    | with_reducible apply fr_baseCompute
    | (refine fr_baseCompute_eq ?_ (by assumption) ?_)
    | with_reducible apply fr_noteOperand
    | with_reducible apply fr_bump
    | with_reducible apply fr_accPutAll
    | with_reducible apply fr_foldl
    | with_reducible apply fr_foldl_fst
    | with_reducible apply fr_foldl_snd
    | (refine fr_foldl_fst_eq ?_ ?_ (by assumption))
    | (refine fr_foldl_snd_eq ?_ ?_ (by assumption))
    | with_reducible refine foldl_keeps (fun q : RunResult => Frame L s₀ q.st) _ ?_ _ ?_
    | split
    | dsimp only
    | intro)

theorem fr_takeStamps {L : List Part} {s₀ s : State} (h₀ : Frame L s₀ s) (d : Nat) (batch : Nat) (gs : List Group)
    (hL : ∀ p ∈ [Part.slots, .domSlabs], p ∈ L) :
    Frame L s₀ (State.takeStamps s d batch gs) := by
  unfold State.takeStamps
  repeat' (first
    | with_reducible assumption
    | exact sub_trans hL (by decide)
    | with_reducible apply fr_updSlot
    | with_reducible apply fr_updDom
    | with_reducible apply fr_foldl
    | split
    | with_reducible apply dfr_mk
    | with_reducible exact Or.inr rfl
    | with_reducible exact Or.inr (same_mem _)
    | with_reducible exact Or.inr (same_domLife _)
    | with_reducible exact Or.inr (same_domRecord _)
    | with_reducible exact Or.inr (same_domPreempt _)
    | with_reducible exact Or.inr (same_domSched _)
    | with_reducible exact Or.inl (hL .domSlabs (by decide))
    | dsimp only
    | intro)

theorem fr_runVariant {L : List Part} {s₀ s : State} (h₀ : Frame L s₀ s) (d : Nat) (ws : List W64) (sram : Bool)
    (hL : ∀ p ∈ [Part.slots, .counters, .commons, .commonsPoison, .acc, .domSlabs], p ∈ L) :
    Frame L s₀ (State.runVariant s d ws sram).st := by
  unfold State.runVariant
  repeat' (first
    | with_reducible assumption
    | exact sub_trans hL (by decide)
    | (extract_lets +onlyGivenNames x; first
        | (refine (fun (hx : Frame L s₀ x) => ?_) ?_; (on_goal 1 => clear_value x); (on_goal 2 => subst x))
        | ((have y : Nat := x); clear y; clear_value x)
        | ((have y : Bool := x); clear y; clear_value x)
        | ((have y : Hdr := x); clear y; clear_value x)
        | subst x)
    | with_reducible apply fr_accPutAll
    | with_reducible apply fr_takeStamps
    | with_reducible apply fr_noteOperand
    | with_reducible apply fr_bump
    | with_reducible apply fr_wrCommons
    | with_reducible apply fr_foldl
    | with_reducible apply fr_foldl_fst
    | with_reducible apply fr_foldl_snd
    | (refine fr_foldl_fst_eq ?_ ?_ (by assumption))
    | (refine fr_foldl_snd_eq ?_ ?_ (by assumption))
    | with_reducible refine foldl_keeps (fun q : RunResult => Frame L s₀ q.st) _ ?_ _ ?_
    | split
    | dsimp only
    | intro)

end Sys2Proof.Laws
end

