-- ==== Sys2Proof/Laws/FrameVector.lean ====
section
/-! SUPPORT. What the operations of Machine/Vector.lean may change (Safety.Frame): each lemma lists the parts. -/

namespace Sys2Proof.Laws

open Sys2Proof.Machine Sys2Proof.Safety

theorem fr_wrBlock {L : List Part} {s₀ s : State} (h₀ : Frame L s₀ s) (d : Nat) (o : Opd) (i : Nat)
    (plain : List (Nat × Nat)) (e : EncBlock)
    (hL : ∀ p ∈ [Part.commons, .commonsPoison, .domTir, .domMem, .domPoison], p ∈ L) :
    Frame L s₀ (State.wrBlock s d o i plain e) := by
  unfold State.wrBlock
  repeat' (first
    | with_reducible assumption
    | exact sub_trans hL (by decide)
    | (extract_lets +onlyGivenNames x; first
        | (refine (fun (hx : Frame L s₀ x) => ?_) ?_; (on_goal 1 => clear_value x); (on_goal 2 => subst x))
        | ((have y : Nat := x); clear y; clear_value x))
    | with_reducible apply fr_wrSpace
    | split)

theorem fr_convertMat {L : List Part} {s₀ s : State} (h₀ : Frame L s₀ s) (d : Nat) (c : Conv) (o : Opd) (stream : Nat)
    (shift : Int) (rows : Nat) (cols : Nat) (m : Mat)
    (hL : ∀ p ∈ [Part.commons, .commonsPoison, .domTir, .domMem, .domPoison], p ∈ L) :
    Frame L s₀ (State.convertMat s d c o stream shift rows cols m).1 := by
  unfold State.convertMat
  repeat' (first
    | with_reducible assumption
    | exact sub_trans hL (by decide)
    | (extract_lets +onlyGivenNames x; ((have y : Nat := x); clear y; clear_value x))
    | with_reducible apply fr_wrBlock
    | with_reducible apply fr_foldl_fst
    | dsimp only
    | intro)
theorem fr_convertMat_eq {L : List Part} {s₀ s : State} (h₀ : Frame L s₀ s) {d : Nat} {c : Conv} {o : Opd}
    {stream : Nat} {shift : Int} {rows : Nat} {cols : Nat} {m : Mat} {r₀ : _} {u₀ : State}
    (e₀ : State.convertMat s d c o stream shift rows cols m = (u₀, r₀))
    (hL : ∀ p ∈ [Part.commons, .commonsPoison, .domTir, .domMem, .domPoison], p ∈ L) : Frame L s₀ u₀ := by
  have x := fr_convertMat h₀ d c o stream shift rows cols m hL
  rw [e₀] at x
  exact x

theorem fr_nanSink {L : List Part} {s₀ s : State} (h₀ : Frame L s₀ s) (d : Nat) (o : Opd) (rows : Nat) (cols : Nat)
    (hL : ∀ p ∈ [Part.commons, .commonsPoison, .domTir, .domMem, .domPoison], p ∈ L) :
    Frame L s₀ (State.nanSink s d o rows cols) := by
  unfold State.nanSink
  repeat' (first
    | with_reducible assumption
    | exact sub_trans hL (by decide)
    | (extract_lets +onlyGivenNames x; ((have y : Nat := x); clear y; clear_value x))
    | with_reducible apply fr_wrBlock
    | with_reducible apply fr_foldl
    | dsimp only
    | intro)

theorem fr_runChain {L : List Part} {s₀ s : State} (h₀ : Frame L s₀ s) (d : Nat) (ws : List W64) (rows : List Recipe)
    (sram : Bool)
    (hL : ∀ p ∈ [Part.counters, .commons, .commonsPoison, .acc, .domUpd, .domTir, .domMem, .domPoison], p ∈ L) :
    Frame L s₀ (State.runChain s d ws rows sram).st := by
  unfold State.runChain
  repeat' (first
    | with_reducible assumption
    | exact sub_trans hL (by decide)
    | (extract_lets +onlyGivenNames x; first
        | (refine (fun (hx : Frame L s₀ x) => ?_) ?_; (on_goal 1 => clear_value x); (on_goal 2 => subst x))
        | ((have y : Nat := x); clear y; clear_value x)
        | ((have y : Bool := x); clear y; clear_value x)
        | ((have y : Hdr := x); clear y; clear_value x)
        | subst x)
    | with_reducible apply fr_bump
    | with_reducible apply fr_wrSpace
    | with_reducible apply fr_nanSink
    | with_reducible apply fr_accPutAll
    | (refine fr_convertMat_eq ?_ (by assumption) ?_)
    | with_reducible apply fr_convertMat
    | with_reducible apply fr_updDom
    | split
    | with_reducible apply dfr_mk
    | with_reducible exact Or.inr rfl
    | with_reducible exact Or.inr (same_mem _)
    | with_reducible exact Or.inr (same_domLife _)
    | with_reducible exact Or.inr (same_domRecord _)
    | with_reducible exact Or.inr (same_domPreempt _)
    | with_reducible exact Or.inr (same_domSlabs _)
    | with_reducible exact Or.inr (same_domSched _)
    | with_reducible exact Or.inl (hL .domUpd (by decide))
    | dsimp only
    | intro)

end Sys2Proof.Laws
end

