-- ==== Sys2Proof/Laws/FrameUpdate.lean ====
section
/-! SUPPORT. What the operations of Machine/Update.lean may change (Safety.Frame): each lemma lists the parts. -/

namespace Sys2Proof.Laws

open Sys2Proof.Machine Sys2Proof.Safety

theorem fr_zsStep {L : List Part} {s₀ s : State} (h₀ : Frame L s₀ s) (d : Nat) (slot : Nat) (nonzero : Bool)
    (hL : ∀ p ∈ [Part.pciPending, .traceHead, .views, .counters, .out, .domVec], p ∈ L) :
    Frame L s₀ (State.zsStep s d slot nonzero) := by
  unfold State.zsStep
  repeat' (first
    | with_reducible assumption
    | exact sub_trans hL (by decide)
    | (extract_lets +onlyGivenNames x; first
        | (refine (fun (hx : Frame L s₀ x) => ?_) ?_; (on_goal 1 => clear_value x); (on_goal 2 => subst x))
        | ((have y : Nat := x); clear y; clear_value x)
        | subst x)
    | with_reducible apply fr_updDom
    | with_reducible apply fr_raiseDom
    | with_reducible apply fr_bump
    | split
    | with_reducible apply dfr_mk
    | with_reducible exact Or.inr rfl
    | with_reducible exact Or.inr (same_mem _)
    | with_reducible exact Or.inr (same_domLife _)
    | with_reducible exact Or.inr (same_domRecord _)
    | with_reducible exact Or.inr (same_domPreempt _)
    | with_reducible exact Or.inr (same_domSlabs _)
    | with_reducible exact Or.inr (same_domSched _)
    | with_reducible exact Or.inl (hL .domVec (by decide))
    | dsimp only
    | intro)

theorem fr_endFirstPass {L : List Part} {s₀ s : State} (h₀ : Frame L s₀ s) (d : Nat) (nonfinite : Bool)
    (hL : ∀ p ∈ [Part.pciPending, .traceHead, .views, .counters, .out, .domVec, .domUpd], p ∈ L) :
    Frame L s₀ (State.endFirstPass s d nonfinite) := by
  unfold State.endFirstPass
  repeat' (first
    | with_reducible assumption
    | exact sub_trans hL (by decide)
    | (extract_lets +onlyGivenNames x; first
        | (refine (fun (hx : Frame L s₀ x) => ?_) ?_; (on_goal 1 => clear_value x); (on_goal 2 => subst x))
        | subst x)
    | with_reducible apply fr_updDom
    | with_reducible apply fr_bump
    | with_reducible apply fr_zsStep
    | with_reducible apply fr_foldl
    | split
    | with_reducible apply dfr_mk
    | with_reducible exact Or.inr rfl
    | with_reducible exact Or.inr (same_mem _)
    | with_reducible exact Or.inr (same_domLife _)
    | with_reducible exact Or.inr (same_domRecord _)
    | with_reducible exact Or.inr (same_domPreempt _)
    | with_reducible exact Or.inr (same_domSlabs _)
    | with_reducible exact Or.inr (same_domSched _)
    | with_reducible exact Or.inl (hL .domUpd (by decide))
    | dsimp only
    | intro)

theorem fr_openStep {L : List Part} {s₀ s : State} (h₀ : Frame L s₀ s) (d : Nat)
    (hL : ∀ p ∈ [Part.counters, .domUpd], p ∈ L) :
    Frame L s₀ (State.openStep s d) := by
  unfold State.openStep
  repeat' (first
    | with_reducible assumption
    | exact sub_trans hL (by decide)
    | with_reducible apply fr_bump
    | with_reducible apply fr_updDom
    | with_reducible apply dfr_mk
    | with_reducible exact Or.inr rfl
    | with_reducible exact Or.inr (same_mem _)
    | with_reducible exact Or.inr (same_domLife _)
    | with_reducible exact Or.inr (same_domRecord _)
    | with_reducible exact Or.inr (same_domPreempt _)
    | with_reducible exact Or.inr (same_domSlabs _)
    | with_reducible exact Or.inr (same_domSched _)
    | with_reducible exact Or.inl (hL .domUpd (by decide))
    | dsimp only
    | intro)

theorem fr_closeStep {L : List Part} {s₀ s : State} (h₀ : Frame L s₀ s) (d : Nat)
    (hL : ∀ p ∈ [Part.pciPending, .traceHead, .views, .counters, .out, .domSlabs, .domVec, .domUpd], p ∈ L) :
    Frame L s₀ (State.closeStep s d) := by
  unfold State.closeStep
  repeat' (first
    | with_reducible assumption
    | exact sub_trans hL (by decide)
    | with_reducible apply fr_endFirstPass
    | with_reducible apply fr_updDom
    | split
    | with_reducible apply dfr_mk
    | with_reducible exact dfr_refl _ _
    | with_reducible apply fr_mk
    | with_reducible exact Or.inr rfl
    | with_reducible exact Or.inr (same_mem _)
    | with_reducible exact Or.inr (same_domLife _)
    | with_reducible exact Or.inr (same_domRecord _)
    | with_reducible exact Or.inr (same_domPreempt _)
    | with_reducible exact Or.inr (same_domSlabs _)
    | with_reducible exact Or.inr (same_domSched _)
    | with_reducible exact Or.inr (same_poison _)
    | with_reducible exact Or.inr (same_head _)
    | with_reducible exact same_ring _
    | exact Or.inr (fun _ => rfl)
    | with_reducible exact Or.inl (hL .pciPending (by decide))
    | with_reducible exact Or.inl (hL .traceHead (by decide))
    | with_reducible exact Or.inl (hL .views (by decide))
    | with_reducible exact Or.inl (hL .counters (by decide))
    | with_reducible exact Or.inl (hL .out (by decide))
    | with_reducible exact Or.inl (hL .domSlabs (by decide))
    | with_reducible exact Or.inl (hL .domVec (by decide))
    | with_reducible exact Or.inl (hL .domUpd (by decide))
    | dsimp only
    | intro)

theorem fr_putFactorBytes {L : List Part} {s₀ s : State} (h₀ : Frame L s₀ s) (d : Nat) (slot : Nat) (a : Nat) (key : Nat) (bs : List Byte)
    (hL : ∀ p ∈ [Part.slots, .domTir, .domMem, .domPoison], p ∈ L) :
    Frame L s₀ (State.putFactorBytes s d slot a key bs) := by
  unfold State.putFactorBytes
  repeat' (first
    | with_reducible assumption
    | exact sub_trans hL (by decide)
    | (extract_lets +onlyGivenNames x; first
        | subst x)
    | with_reducible apply fr_wrBuffer
    | with_reducible apply fr_updSlot)

theorem fr_writeWeights {L : List Part} {s₀ s : State} (h₀ : Frame L s₀ s) (d : Nat) (x : UStream) (i : Nat) (ws : List W32)
    (hL : ∀ p ∈ [Part.slots, .domTir, .domMem, .domPoison], p ∈ L) :
    Frame L s₀ (State.writeWeights s d x i ws).1 := by
  unfold State.writeWeights
  repeat' (first
    | with_reducible assumption
    | exact sub_trans hL (by decide)
    | (extract_lets +onlyGivenNames x; first
        | ((have y : Nat := x); clear y; clear_value x)
        | subst x)
    | with_reducible apply fr_putFactorBytes)
theorem fr_writeWeights_eq {L : List Part} {s₀ s : State} (h₀ : Frame L s₀ s) {d : Nat} {x : UStream} {i : Nat} {ws : List W32} {r₁ : _} {u₀ : State}
    (e₀ : State.writeWeights s d x i ws = (u₀, r₁))
    (hL : ∀ p ∈ [Part.slots, .domTir, .domMem, .domPoison], p ∈ L) : Frame L s₀ u₀ := by
  have x := fr_writeWeights h₀ d x i ws hL
  rw [e₀] at x
  exact x

theorem fr_PassAcc.writeBlock {L : List Part} {s₀ : State} {p : PassAcc} (h₀ : Frame L s₀ p.st) (s0 : State) (d : Nat) (b : UpdBody) (rows : List Recipe) (kln3 : Bool) (shift : Int) (key : Nat) (step : Nat) (k : Nat) (i : Nat) (vals : List W32)
    (hL : ∀ p ∈ [Part.slots, .commons, .commonsPoison, .domTir, .domMem, .domPoison], p ∈ L) :
    Frame L s₀ (PassAcc.writeBlock p s0 d b rows kln3 shift key step k i vals).st := by
  unfold PassAcc.writeBlock
  repeat' (first
    | with_reducible assumption
    | exact sub_trans hL (by decide)
    | (extract_lets +onlyGivenNames x; first
        | (refine (fun (hx : Frame L s₀ x.st) => ?_) ?_; (on_goal 1 => clear_value x); (on_goal 2 => subst x))
        | ((have y : Bool := x); clear y; clear_value x)
        | subst x)
    | with_reducible apply fr_writeWeights
    | (refine fr_writeWeights_eq ?_ (by assumption) ?_)
    | with_reducible apply fr_step
    | with_reducible apply fr_wrBlock
    | with_reducible refine foldl_keeps (fun q : PassAcc => Frame L s₀ q.st) _ ?_ _ ?_
    | split)

theorem fr_PassAcc.vector {L : List Part} {s₀ : State} {p : PassAcc} (h₀ : Frame L s₀ p.st) (s0 : State) (d : Nat) (sub : Nat) (b : UpdBody) (rows : List Recipe) (kln3 : Bool) (shift : Int) (nve : Nat) (env : LaneEnv) (key : Nat) (step : Nat) (k : Nat)
    (hL : ∀ p ∈ [Part.slots, .commons, .commonsPoison, .domTir, .domMem, .domPoison], p ∈ L) :
    Frame L s₀ (PassAcc.vector p s0 d sub b rows kln3 shift nve env key step k).st := by
  unfold PassAcc.vector
  repeat' (first
    | with_reducible assumption
    | exact sub_trans hL (by decide)
    | (extract_lets +onlyGivenNames x; first
        | (refine (fun (hx : Frame L s₀ x.st) => ?_) ?_; (on_goal 1 => clear_value x); (on_goal 2 => subst x))
        | ((have y : Nat := x); clear y; clear_value x)
        | ((have y : List Nat := x); clear y; clear_value x)
        | subst x)
    | with_reducible apply fr_PassAcc.writeBlock
    | with_reducible apply fr_step
    | with_reducible apply fr_foldl
    | with_reducible apply fr_foldl_fst
    | with_reducible apply fr_foldl_snd
    | (refine fr_foldl_fst_eq ?_ ?_ (by assumption))
    | (refine fr_foldl_snd_eq ?_ ?_ (by assumption))
    | with_reducible refine foldl_keeps (fun q : PassAcc => Frame L s₀ q.st) _ ?_ _ ?_
    | split
    | dsimp only
    | intro)

theorem fr_copyFactor {L : List Part} {s₀ s u : State} {d : Nat} {src dst : UStream} {r : Seen} (h₀ : Frame L s₀ s)
    (e : s.copyFactor d src dst = some (u, r))
    (hL : ∀ p ∈ [Part.slots, .domTir, .domMem, .domPoison], p ∈ L) : Frame L s₀ u := by
  unfold State.copyFactor at e
  dsimp only at e
  split at e
  · simp only [Option.some.injEq] at e
    have x : Frame L s₀ (u, r).1 := by
      rw [← e]
      exact fr_foldl_fst _ (fun _ _ h => fr_putFactorBytes h _ _ _ _ _ (sub_trans hL (by decide))) _ h₀
    exact x
  · split at e
    · cases e
    · simp only [Option.some.injEq] at e
      have x : Frame L s₀ (u, r).1 := by
        rw [← e]
        exact fr_foldl_fst _ (fun _ _ h => fr_putFactorBytes h _ _ _ _ _ (sub_trans hL (by decide))) _ h₀
      exact x

theorem fr_runPass {L : List Part} {s₀ s : State} (h₀ : Frame L s₀ s) (d : Nat) (ws : List W64) (rows : List Recipe) (sram : Bool)
    (hL : ∀ p ∈ [Part.pciPending, .traceHead, .slots, .views, .counters, .commons, .commonsPoison, .out, .domVec, .domUpd, .domTir, .domMem, .domPoison], p ∈ L) :
    Frame L s₀ (State.runPass s d ws rows sram).st := by
  unfold State.runPass
  repeat' (first
    | with_reducible assumption
    | exact sub_trans hL (by decide)
    | (extract_lets +onlyGivenNames x; first
        | (refine (fun (hx : Frame L s₀ x) => ?_) ?_; (on_goal 1 => clear_value x); (on_goal 2 => subst x))
        | (refine (fun (hx : Frame L s₀ x.st) => ?_) ?_; (on_goal 1 => clear_value x); (on_goal 2 => subst x))
        | ((have y : Nat := x); clear y; clear_value x)
        | ((have y : Bool := x); clear y; clear_value x)
        | ((have y : Hdr := x); clear y; clear_value x)
        | subst x)
    | (refine fr_copyFactor ?_ (by assumption) ?_)
    | with_reducible apply fr_openStep
    | with_reducible apply fr_endFirstPass
    | with_reducible apply fr_PlanAcc.skip
    | with_reducible apply fr_bump
    | with_reducible apply fr_step
    | with_reducible apply fr_PassAcc.vector
    | with_reducible apply fr_updDom
    | with_reducible apply fr_addNorm
    | with_reducible apply fr_foldl
    | with_reducible apply fr_foldl_fst
    | with_reducible apply fr_foldl_snd
    | (refine fr_foldl_fst_eq ?_ ?_ (by assumption))
    | (refine fr_foldl_snd_eq ?_ ?_ (by assumption))
    | with_reducible refine foldl_keeps (fun q : RunResult => Frame L s₀ q.st) _ ?_ _ ?_
    | with_reducible refine foldl_keeps (fun q : PassAcc => Frame L s₀ q.st) _ ?_ _ ?_
    | with_reducible refine foldl_keeps (fun q : PlanAcc => Frame L s₀ q.st) _ ?_ _ ?_
    | split
    | with_reducible apply dfr_mk
    | with_reducible exact dfr_refl _ _
    | with_reducible exact Or.inr rfl
    | with_reducible exact Or.inr (same_mem _)
    | with_reducible exact Or.inr (same_domLife _)
    | with_reducible exact Or.inr (same_domRecord _)
    | with_reducible exact Or.inr (same_domPreempt _)
    | with_reducible exact Or.inr (same_domSlabs _)
    | with_reducible exact Or.inr (same_domSched _)
    | exact Or.inr (fun _ => rfl)
    | with_reducible exact Or.inl (hL .pciPending (by decide))
    | with_reducible exact Or.inl (hL .traceHead (by decide))
    | with_reducible exact Or.inl (hL .slots (by decide))
    | with_reducible exact Or.inl (hL .views (by decide))
    | with_reducible exact Or.inl (hL .counters (by decide))
    | with_reducible exact Or.inl (hL .commons (by decide))
    | with_reducible exact Or.inl (hL .commonsPoison (by decide))
    | with_reducible exact Or.inl (hL .out (by decide))
    | with_reducible exact Or.inl (hL .domVec (by decide))
    | with_reducible exact Or.inl (hL .domUpd (by decide))
    | with_reducible exact Or.inl (hL .domTir (by decide))
    | with_reducible exact Or.inl (hL .domMem (by decide))
    | with_reducible exact Or.inl (hL .domPoison (by decide))
    | dsimp only
    | intro)

theorem fr_runRoot {L : List Part} {s₀ s0 : State} (h₀ : Frame L s₀ s0) (d : Nat) (ws : List W64) (sram : Bool)
    (hL : ∀ p ∈ [Part.commons, .commonsPoison, .freeCtr, .domSlabs, .domTir, .domMem, .domPoison], p ∈ L) :
    Frame L s₀ (State.runRoot s0 d ws sram).st := by
  unfold State.runRoot
  repeat' (first
    | with_reducible assumption
    | exact sub_trans hL (by decide)
    | (extract_lets +onlyGivenNames x; first
        | (refine (fun (hx : Frame L s₀ x) => ?_) ?_; (on_goal 1 => clear_value x); (on_goal 2 => subst x))
        | ((have y : Nat := x); clear y; clear_value x)
        | ((have y : Bool := x); clear y; clear_value x)
        | ((have y : Hdr := x); clear y; clear_value x)
        | subst x)
    | with_reducible apply fr_noteOperand
    | with_reducible apply fr_wrSpace
    | with_reducible apply fr_takeFree
    | with_reducible apply fr_convertMat
    | split)

theorem fr_addNorm {L : List Part} {s₀ s : State} (h₀ : Frame L s₀ s) (d : Nat) (addr : Nat) (init : Bool) (sums : List W32)
    (hL : ∀ p ∈ [Part.commons, .commonsPoison], p ∈ L) :
    Frame L s₀ (State.addNorm s d addr init sums) := by
  unfold State.addNorm
  repeat' (first
    | with_reducible assumption
    | exact sub_trans hL (by decide)
    | (extract_lets +onlyGivenNames x; subst x)
    | with_reducible apply fr_wrCommons)

theorem fr_verifyEnd {L : List Part} {s₀ s : State} (h₀ : Frame L s₀ s) (d : Nat) (count : Nat) (first : Nat)
    (hL : ∀ p ∈ [Part.pciPending, .traceHead, .views, .counters, .out, .domUpd], p ∈ L) :
    Frame L s₀ (State.verifyEnd s d count first) := by
  unfold State.verifyEnd
  repeat' (first
    | with_reducible assumption
    | exact sub_trans hL (by decide)
    | with_reducible apply fr_raiseDom
    | with_reducible apply fr_updDom
    | with_reducible apply fr_bump
    | split
    | with_reducible apply dfr_mk
    | with_reducible exact Or.inr rfl
    | with_reducible exact Or.inr (same_mem _)
    | with_reducible exact Or.inr (same_domLife _)
    | with_reducible exact Or.inr (same_domRecord _)
    | with_reducible exact Or.inr (same_domPreempt _)
    | with_reducible exact Or.inr (same_domSlabs _)
    | with_reducible exact Or.inr (same_domSched _)
    | with_reducible exact Or.inl (hL .domUpd (by decide))
    | dsimp only
    | intro)

theorem fr_rootEnd {L : List Part} {s₀ s : State} (h₀ : Frame L s₀ s) (d : Nat) (accepted : Bool)
    (hL : ∀ p ∈ [Part.pciPending, .traceHead, .views, .counters, .out], p ∈ L) :
    Frame L s₀ (State.rootEnd s d accepted) := by
  unfold State.rootEnd
  repeat' (first
    | with_reducible assumption
    | exact sub_trans hL (by decide)
    | with_reducible apply fr_bump
    | with_reducible apply fr_raiseDom
    | split)

end Sys2Proof.Laws
end

