-- ==== Sys2Proof/Laws/FrameAttention.lean ====
section
/-! SUPPORT. What the operations of Machine/Attention.lean may change (Safety.Frame): each lemma lists the parts. -/

namespace Sys2Proof.Laws

open Sys2Proof.Machine Sys2Proof.Safety

theorem dfr_updSeq {L : List Part} {x₀ x : Dom} (h : DomFrame L x₀ x) (n : Nat) (f : SeqEntry → SeqEntry)
    (hL : ∀ p ∈ [Part.domKvp], p ∈ L) :
    DomFrame L x₀ (x.updSeq n f) := by
  refine dfr_trans h ?_
  unfold Dom.updSeq
  with_reducible apply dfr_mk
  repeat' first
    | with_reducible exact Or.inr rfl
    | with_reducible exact Or.inr (same_domLife _)
    | with_reducible exact Or.inr (same_domRecord _)
    | with_reducible exact Or.inr (same_domPreempt _)
    | with_reducible exact Or.inr (same_domSlabs _)
    | with_reducible exact Or.inr (same_domSched _)
    | with_reducible exact Or.inr (same_mem _)
    | exact Or.inl (hL .domKvp (by decide))

theorem fr_fillOverflow {L : List Part} {s₀ s : State} (h₀ : Frame L s₀ s) (array : Nat)
    (hL : ∀ p ∈ [Part.acc, .freeCtr], p ∈ L) :
    Frame L s₀ (State.fillOverflow s array) := by
  unfold State.fillOverflow
  repeat' (first
    | with_reducible assumption
    | exact sub_trans hL (by decide)
    | with_reducible apply fr_takeFree
    | with_reducible apply fr_accPutAll)

theorem fr_AppAcc.put {L : List Part} {s₀ : State} {p : AppAcc} (h₀ : Frame L s₀ p.st) (d : Nat) (b : AttBody)
    (seq : Nat) (pos : Nat) (bytes : List Byte)
    (hL : ∀ p ∈ [Part.counters, .acc, .freeCtr, .domKvp, .domTir, .domMem, .domPoison], p ∈ L) :
    Frame L s₀ (AppAcc.put p d b seq pos bytes).st := by
  unfold AppAcc.put
  repeat' (first
    | with_reducible assumption
    | exact sub_trans hL (by decide)
    | (extract_lets +onlyGivenNames x; first
        | (refine (fun (hx : Frame L s₀ x) => ?_) ?_; (on_goal 1 => clear_value x); (on_goal 2 => subst x))
        | ((have y : Nat := x); clear y; clear_value x)
        | subst x)
    | with_reducible apply fr_wrMem
    | with_reducible apply fr_updDom
    | with_reducible apply fr_bump
    | with_reducible apply fr_fillOverflow
    | split
    | with_reducible apply dfr_updSeq
    | with_reducible exact dfr_refl _ _
    | with_reducible apply dfr_mk
    | with_reducible exact Or.inr rfl
    | with_reducible exact Or.inr (same_mem _)
    | with_reducible exact Or.inr (same_domLife _)
    | with_reducible exact Or.inr (same_domRecord _)
    | with_reducible exact Or.inr (same_domPreempt _)
    | with_reducible exact Or.inr (same_domSlabs _)
    | with_reducible exact Or.inr (same_domSched _)
    | with_reducible exact Or.inl (hL .domKvp (by decide))
    | dsimp only
    | intro)

theorem fr_appendRows {L : List Part} {s₀ s : State} (h₀ : Frame L s₀ s) (d : Nat) (b : AttBody) (batch : Nat)
    (es : List AttEntry) (rows : List (Nat × Nat × List Byte))
    (hL : ∀ p ∈ [Part.counters, .acc, .freeCtr, .domKvp, .domTir, .domMem, .domPoison], p ∈ L) :
    Frame L s₀ (State.appendRows s d b batch es rows).st := by
  unfold State.appendRows
  repeat' (first
    | with_reducible assumption
    | exact sub_trans hL (by decide)
    | (extract_lets +onlyGivenNames x; first
        | (refine (fun (hx : Frame L s₀ x) => ?_) ?_; (on_goal 1 => clear_value x); (on_goal 2 => subst x))
        | subst x)
    | with_reducible apply fr_updDom
    | with_reducible apply fr_AppAcc.put
    | with_reducible apply fr_foldl
    | with_reducible refine foldl_keeps (fun q : AppAcc => Frame L s₀ q.st) _ ?_ _ ?_
    | with_reducible apply dfr_updSeq
    | with_reducible exact dfr_refl _ _
    | intro)

theorem fr_putRow {L : List Part} {s₀ s : State} (h₀ : Frame L s₀ s) (d : Nat) (o : Opd) (row : Nat) (v : List W32)
    (hL : ∀ p ∈ [Part.commons, .commonsPoison, .domTir, .domMem, .domPoison], p ∈ L) :
    Frame L s₀ (State.putRow s d o row v) := by
  unfold State.putRow
  repeat' (first
    | with_reducible assumption
    | exact sub_trans hL (by decide)
    | (extract_lets +onlyGivenNames x; first
        | ((have y : Nat := x); clear y; clear_value x)
        | ((have y : List Byte := x); clear y; clear_value x))
    | with_reducible apply fr_wrSpace)

theorem fr_attNan {L : List Part} {s₀ s : State} (h₀ : Frame L s₀ s) (d sub : Nat) (b : AttBody) (es : List AttEntry)
    (hL : ∀ p ∈ [Part.commons, .commonsPoison, .domTir, .domMem, .domPoison], p ∈ L) :
    Frame L s₀ (s.attNan d sub b es) := by
  have fill : ∀ (o : Opd) (n : Nat) (bs : List W32) {t : State}, Frame L s₀ t →
      Frame L s₀ ((List.range n).foldl (fun u r => u.putRow d o r bs) t) :=
    fun o n bs _ h => fr_foldl _ (fun _ _ h => fr_putRow h _ _ _ _ (sub_trans hL (by decide))) _ h
  unfold State.attNan
  dsimp only
  split
  · split
    · exact fill _ _ _ h₀
    · exact fr_wrCommons (fill _ _ _ h₀) _ _ (sub_trans hL (by decide))
  · exact fill _ _ _ (fill _ _ _ (fill _ _ _ h₀))

theorem fr_seqStatus {L : List Part} {s₀ s : State} (h₀ : Frame L s₀ s) (d : Nat) (es : List (AttEntry × Bool))
    (hL : ∀ p ∈ [Part.domKvp], p ∈ L) :
    Frame L s₀ (State.seqStatus s d es) := by
  unfold State.seqStatus
  repeat' (first
    | with_reducible assumption
    | exact sub_trans hL (by decide)
    | with_reducible apply fr_updDom
    | with_reducible apply fr_foldl
    | split
    | with_reducible apply dfr_updSeq
    | with_reducible exact dfr_refl _ _
    | intro)

theorem fr_runForward {L : List Part} {s₀ s : State} (h₀ : Frame L s₀ s) (d : Nat) (h : Hdr) (b : AttBody)
    (es : List AttEntry) (own : Bool)
    (hL : ∀ p ∈ [Part.counters, .commons, .commonsPoison, .acc, .freeCtr, .domKvp, .domTir, .domMem, .domPoison], p ∈ L) :
    Frame L s₀ (State.runForward s d h b es own).st := by
  unfold State.runForward
  repeat' (first
    | with_reducible assumption
    | exact sub_trans hL (by decide)
    | (extract_lets +onlyGivenNames x; first
        | (refine (fun (hx : Frame L s₀ x) => ?_) ?_; (on_goal 1 => clear_value x); (on_goal 2 => subst x))
        | (refine (fun (hx : Frame L s₀ x.1) => ?_) ?_; (on_goal 1 => clear_value x); (on_goal 2 => subst x))
        | ((have y : Nat := x); clear y; clear_value x)
        | ((have y : Bool := x); clear y; clear_value x)
        | subst x)
    | with_reducible apply fr_attNan
    | with_reducible apply fr_appendRows
    | with_reducible apply fr_seqStatus
    | with_reducible apply fr_putRow
    | with_reducible apply fr_wrCommons
    | with_reducible apply fr_bump
    | with_reducible apply fr_foldl
    | split
    | intro)

theorem fr_backHead {L : List Part} {s₀ s : State} (h₀ : Frame L s₀ s) (d : Nat) (redSeg : Nat) (b : AttBody) (qb : Nat)
    (kb : Nat) (e : AttEntry) (h : Nat)
    (hL : ∀ p ∈ [Part.commons, .commonsPoison, .domTir, .domMem, .domPoison], p ∈ L) :
    Frame L s₀ (State.backHead s d redSeg b qb kb e h).1 := by
  unfold State.backHead
  repeat' (first
    | with_reducible assumption
    | exact sub_trans hL (by decide)
    | (extract_lets +onlyGivenNames x; first
        | (refine (fun (hx : Frame L s₀ x) => ?_) ?_; (on_goal 1 => clear_value x); (on_goal 2 => subst x))
        | ((have y : Nat := x); clear y; clear_value x)
        | subst x)
    | with_reducible apply fr_putRow
    | with_reducible apply fr_foldl
    | dsimp only
    | intro)
theorem fr_backHead_eq {L : List Part} {s₀ s : State} (h₀ : Frame L s₀ s) {d : Nat} {redSeg : Nat} {b : AttBody}
    {qb : Nat} {kb : Nat} {e : AttEntry} {h : Nat} {r₀ : _} {u₀ : State}
    (e₀ : State.backHead s d redSeg b qb kb e h = (u₀, r₀))
    (hL : ∀ p ∈ [Part.commons, .commonsPoison, .domTir, .domMem, .domPoison], p ∈ L) : Frame L s₀ u₀ := by
  have x := fr_backHead h₀ d redSeg b qb kb e h hL
  rw [e₀] at x
  exact x

theorem fr_runBackward {L : List Part} {s₀ s : State} (h₀ : Frame L s₀ s) (d : Nat) (h : Hdr) (b : AttBody)
    (es : List AttEntry) (own : Bool)
    (hL : ∀ p ∈ [Part.commons, .commonsPoison, .domTir, .domMem, .domPoison], p ∈ L) :
    Frame L s₀ (State.runBackward s d h b es own).st := by
  unfold State.runBackward
  repeat' (first
    | with_reducible assumption
    | exact sub_trans hL (by decide)
    | (extract_lets +onlyGivenNames x; subst x)
    | with_reducible apply fr_backHead
    | with_reducible apply fr_attNan
    | (refine fr_foldl_fst_eq ?_ ?_ (by assumption))
    | split
    | dsimp only
    | intro)

theorem fr_runAttention {L : List Part} {s₀ s0 : State} (h₀ : Frame L s₀ s0) (d : Nat) (ws : List W64) (sram : Bool)
    (hL : ∀ p ∈ [Part.counters, .commons, .commonsPoison, .acc, .freeCtr, .domSlabs, .domKvp, .domTir, .domMem, .domPoison], p ∈ L) :
    Frame L s₀ (State.runAttention s0 d ws sram).st := by
  unfold State.runAttention
  repeat' (first
    | with_reducible assumption
    | exact sub_trans hL (by decide)
    | (extract_lets +onlyGivenNames x; first
        | (refine (fun (hx : Frame L s₀ x) => ?_) ?_; (on_goal 1 => clear_value x); (on_goal 2 => subst x))
        | ((have y : Bool := x); clear y; clear_value x)
        | ((have y : Hdr := x); clear y; clear_value x)
        | subst x)
    | with_reducible apply fr_noteOperand
    | with_reducible apply fr_runForward
    | with_reducible apply fr_runBackward
    | split)

end Sys2Proof.Laws
end

