-- ==== Sys2Proof/Laws/FrameVariant.lean ====
section
/-! SUPPORT. What the operations of Machine/Variant.lean may change (Safety.Frame): each lemma lists the parts. -/

namespace Sys2Proof.Laws

open Sys2Proof.Machine Sys2Proof.Safety

theorem fr_pickFree {L : List Part} {s₀ s : State} (h₀ : Frame L s₀ s) (n : Nat) (l : List Nat)
    (hL : ∀ p ∈ [Part.freeCtr], p ∈ L) : Frame L s₀ (State.pickFree n l s).2 := by
  induction n generalizing l s with
  | zero => exact h₀
  | succ n ih => exact ih (fr_takeFree h₀ (sub_trans hL (by decide))) _
theorem fr_pickFree_eq {L : List Part} {s₀ s : State} (h₀ : Frame L s₀ s) {n : Nat} {l : List Nat} {r₀ : _} {u₀ : State}
    (e₀ : State.pickFree n l s = (r₀, u₀)) (hL : ∀ p ∈ [Part.freeCtr], p ∈ L) : Frame L s₀ u₀ := by
  have x := fr_pickFree h₀ n l hL
  rw [e₀] at x
  exact x

theorem fr_queueCooper {L : List Part} {s₀ s : State} (h₀ : Frame L s₀ s) (d : Nat) (slot : Nat) (k : CoopKind)
    (bytes : Nat) (blocked : Bool)
    (hL : ∀ p ∈ [Part.domVar], p ∈ L) :
    Frame L s₀ (State.queueCooper s d slot k bytes blocked) := by
  unfold State.queueCooper
  repeat' (first
    | with_reducible assumption
    | exact sub_trans hL (by decide)
    | with_reducible apply fr_updDom
    | with_reducible apply dfr_mk
    | with_reducible exact Or.inr rfl
    | with_reducible exact Or.inr (same_mem _)
    | with_reducible exact Or.inr (same_domLife _)
    | with_reducible exact Or.inr (same_domRecord _)
    | with_reducible exact Or.inr (same_domPreempt _)
    | with_reducible exact Or.inr (same_domSlabs _)
    | with_reducible exact Or.inr (same_domSched _)
    | with_reducible exact Or.inl (hL .domVar (by decide))
    | dsimp only
    | intro)

theorem fr_dropItems {L : List Part} {s₀ s : State} (h₀ : Frame L s₀ s) (d : Nat) (slot : Nat)
    (hL : ∀ p ∈ [Part.atLatch, .domVar], p ∈ L) :
    Frame L s₀ (State.dropItems s d slot) := by
  unfold State.dropItems
  repeat' (first
    | with_reducible assumption
    | exact sub_trans hL (by decide)
    | with_reducible apply fr_updDom
    | split
    | with_reducible apply dfr_mk
    | with_reducible exact dfr_refl _ _
    | with_reducible apply fr_mk
    | with_reducible exact Or.inr rfl
    | with_reducible exact Or.inr (same_mem _)
    | with_reducible exact Or.inr (same_domLife _)
    | with_reducible exact Or.inr (same_domRecord _)
    | with_reducible exact Or.inr (same_domPreempt _)
    | with_reducible exact Or.inr (same_domSlabs _)
    | with_reducible exact Or.inr (same_domSched _)
    | with_reducible exact Or.inr (same_poison _)
    | with_reducible exact Or.inr (same_head _)
    | with_reducible exact same_ring _
    | exact Or.inr (fun _ => rfl)
    | with_reducible exact Or.inl (hL .atLatch (by decide))
    | with_reducible exact Or.inl (hL .domVar (by decide))
    | dsimp only
    | intro)

theorem fr_markPoison {L : List Part} {s₀ s : State} (h₀ : Frame L s₀ s) (d : Nat) (a : Nat) (n : Nat)
    (hL : ∀ p ∈ [Part.domPoison], p ∈ L) :
    Frame L s₀ (State.markPoison s d a n) := by
  unfold State.markPoison
  repeat' (first
    | with_reducible assumption
    | exact sub_trans hL (by decide)
    | with_reducible apply fr_updDom
    | with_reducible apply fr_foldl
    | with_reducible apply fr_foldl_fst
    | with_reducible apply fr_foldl_snd
    | (refine fr_foldl_fst_eq ?_ ?_ (by assumption))
    | (refine fr_foldl_snd_eq ?_ ?_ (by assumption))
    | split
    | with_reducible apply dfr_mk
    | with_reducible exact dfr_refl _ _
    | with_reducible apply fr_mk
    | with_reducible exact Or.inr rfl
    | with_reducible exact Or.inr (same_mem _)
    | with_reducible exact Or.inr (same_domLife _)
    | with_reducible exact Or.inr (same_domRecord _)
    | with_reducible exact Or.inr (same_domPreempt _)
    | with_reducible exact Or.inr (same_domSlabs _)
    | with_reducible exact Or.inr (same_domSched _)
    | with_reducible exact Or.inr (same_poison _)
    | with_reducible exact Or.inr (same_head _)
    | with_reducible exact same_ring _
    | exact Or.inr (fun _ => rfl)
    | with_reducible exact Or.inl (hL .domPoison (by decide))
    | dsimp only
    | intro)

theorem fr_copyOut {L : List Part} {s₀ s : State} (h₀ : Frame L s₀ s) (d : Nat) (slot : Nat) (e : SlotEntry) (buf : Bool) (key : Option Nat) (a : Nat) (n : Nat) (dst : Nat)
    (hL : ∀ p ∈ [Part.domTir, .domMem, .domPoison], p ∈ L) :
    Frame L s₀ (State.copyOut s d slot e buf key a n dst) := by
  unfold State.copyOut
  repeat' (first
    | with_reducible assumption
    | exact sub_trans hL (by decide)
    | (extract_lets +onlyGivenNames x; first
        | subst x)
    | with_reducible apply fr_wrMem
    | with_reducible apply fr_markPoison
    | with_reducible apply fr_foldl
    | with_reducible apply fr_foldl_fst
    | with_reducible apply fr_foldl_snd
    | (refine fr_foldl_fst_eq ?_ ?_ (by assumption))
    | (refine fr_foldl_snd_eq ?_ ?_ (by assumption))
    | split
    | with_reducible apply dfr_wrMem
    | with_reducible apply fr_mk
    | with_reducible exact Or.inr rfl
    | with_reducible exact Or.inr (same_mem _)
    | with_reducible exact Or.inr (same_poison _)
    | with_reducible exact Or.inr (same_head _)
    | with_reducible exact same_ring _
    | exact Or.inr (fun _ => rfl)
    | with_reducible exact Or.inl (hL .domTir (by decide))
    | with_reducible exact Or.inl (hL .domMem (by decide))
    | with_reducible exact Or.inl (hL .domPoison (by decide))
    | dsimp only
    | intro)

theorem fr_writeBack {L : List Part} {s₀ s : State} (h₀ : Frame L s₀ s) (d : Nat) (slot : Nat)
    (hL : ∀ p ∈ [Part.slots, .counters, .domTir, .domMem, .domPoison], p ∈ L) :
    Frame L s₀ (State.writeBack s d slot) := by
  unfold State.writeBack
  repeat' (first
    | with_reducible assumption
    | exact sub_trans hL (by decide)
    | (extract_lets +onlyGivenNames x; first
        | (refine (fun (hx : Frame L s₀ x) => ?_) ?_; (on_goal 1 => clear_value x); (on_goal 2 => subst x))
        | subst x)
    | with_reducible apply fr_copyOut
    | with_reducible apply fr_bump
    | with_reducible apply fr_updSlot
    | with_reducible apply fr_foldl
    | with_reducible apply fr_foldl_fst
    | with_reducible apply fr_foldl_snd
    | (refine fr_foldl_fst_eq ?_ ?_ (by assumption))
    | (refine fr_foldl_snd_eq ?_ ?_ (by assumption))
    | split
    | dsimp only
    | intro)

theorem fr_cooperEnds {L : List Part} {s₀ s : State} (h₀ : Frame L s₀ s) (d : Nat) (amount : Nat)
    (hL : ∀ p ∈ [Part.slots, .counters, .domVar, .domTir, .domMem, .domPoison], p ∈ L) :
    Frame L s₀ (State.cooperEnds s d amount) := by
  unfold State.cooperEnds
  repeat' (first
    | with_reducible assumption
    | exact sub_trans hL (by decide)
    | with_reducible apply fr_bump
    | with_reducible apply fr_updDom
    | with_reducible apply fr_writeBack
    | with_reducible apply fr_foldl
    | with_reducible apply dfr_mk
    | with_reducible exact Or.inr rfl
    | with_reducible exact Or.inr (same_mem _)
    | with_reducible exact Or.inr (same_domLife _)
    | with_reducible exact Or.inr (same_domRecord _)
    | with_reducible exact Or.inr (same_domPreempt _)
    | with_reducible exact Or.inr (same_domSlabs _)
    | with_reducible exact Or.inr (same_domSched _)
    | with_reducible exact Or.inl (hL .domVar (by decide))
    | dsimp only
    | intro)

theorem fr_varCmd {L : List Part} {s₀ s : State} (h₀ : Frame L s₀ s) (v : View) (posted : Bool) (op slot rsv : Nat)
    (f : Nat → Nat → State → State × Nat × Nat × W16) (hf : ∀ d c t, Frame L s₀ t → Frame L s₀ (f d c t).1)
    (hL : ∀ p ∈ [Part.pciPending, .traceHead, .views, .pairs, .counters, .out], p ∈ L) :
    Frame L s₀ (s.varCmd v posted op slot rsv f) := by
  unfold State.varCmd
  refine fr_runCmd h₀ _ _ _ _ ?_ (sub_trans hL (by decide))
  dsimp only
  split
  · exact h₀
  · exact hf _ _ _ h₀

theorem fr_varSays {L : List Part} {s₀ s : State} (h₀ : Frame L s₀ s) (slot : Nat) (status : Nat)
    (hL : ∀ p ∈ [Part.out], p ∈ L) :
    Frame L s₀ (State.varSays s slot status).1 := by
  unfold State.varSays
  repeat' (first
    | with_reducible assumption)
theorem fr_varSays_eq {L : List Part} {s₀ s : State} (h₀ : Frame L s₀ s) {slot : Nat} {status : Nat} {r₀ : _} {u₀ : State}
    (e₀ : State.varSays s slot status = (u₀, r₀))
    (hL : ∀ p ∈ [Part.out], p ∈ L) : Frame L s₀ u₀ := by
  have x := fr_varSays h₀ slot status hL
  rw [e₀] at x
  exact x

theorem fr_varGuard {L : List Part} {s₀ s : State} (h₀ : Frame L s₀ s) (d slot : Nat) (gen : W16) (f : State × Nat × Nat × W16)
    (hf : Frame L s₀ f.1)
    (hL : ∀ p ∈ ([] : List Part), p ∈ L) : Frame L s₀ (s.varGuard d slot gen f).1 := by
  unfold State.varGuard State.varSays
  split
  · exact h₀
  · split
    · exact h₀
    · exact hf

theorem fr_claimSlot {L : List Part} {s₀ s : State} (h₀ : Frame L s₀ s) (d : Nat) (c : Nat) (slot : Nat) (gen : W16)
    (hL : ∀ p ∈ [Part.slots, .counters, .out], p ∈ L) :
    Frame L s₀ (State.claimSlot s d c slot gen).1 := by
  unfold State.claimSlot
  repeat' (first
    | with_reducible assumption
    | exact sub_trans hL (by decide)
    | (extract_lets +onlyGivenNames x; first
        | ((have y : Nat := x); clear y; clear_value x)
        | subst x)
    | with_reducible apply fr_varSays
    | with_reducible apply fr_bump
    | with_reducible apply fr_putSlot
    | split)
theorem fr_claimSlot_eq {L : List Part} {s₀ s : State} (h₀ : Frame L s₀ s) {d : Nat} {c : Nat} {slot : Nat} {gen : W16}
    {r₀ : _} {u₀ : State}
    (e₀ : State.claimSlot s d c slot gen = (u₀, r₀))
    (hL : ∀ p ∈ [Part.slots, .counters, .out], p ∈ L) : Frame L s₀ u₀ := by
  have x := fr_claimSlot h₀ d c slot gen hL
  rw [e₀] at x
  exact x

theorem fr_execClaim {L : List Part} {s₀ s : State} (h₀ : Frame L s₀ s) (v : View) (posted : Bool) (slot : BitVec 14)
    (gen : W16) (rsv : BitVec 30)
    (hL : ∀ p ∈ [Part.pciPending, .traceHead, .slots, .views, .pairs, .counters, .out], p ∈ L) :
    FrameOut L s₀ (execClaim v posted slot gen rsv s) := by
  unfold execClaim
  repeat' (first
    | with_reducible assumption
    | exact sub_trans hL (by decide)
    | with_reducible apply fr_varCmd
    | with_reducible apply fr_claimSlot
    | with_reducible apply fro_next
    | intro)

theorem fr_loadSlot {L : List Part} {s₀ s : State} (h₀ : Frame L s₀ s) (d : Nat) (slot : Nat)
    (hL : ∀ p ∈ [Part.slots, .freeCtr, .out, .domVar], p ∈ L) :
    Frame L s₀ (State.loadSlot s d slot).1 := by
  unfold State.loadSlot
  repeat' (first
    | with_reducible assumption
    | exact sub_trans hL (by decide)
    | (extract_lets +onlyGivenNames x; first
        | ((have y : Nat := x); clear y; clear_value x)
        | subst x)
    | with_reducible apply fr_varSays
    | (refine fr_varSays_eq ?_ (by assumption) ?_)
    | with_reducible apply fr_pickFree
    | (refine fr_pickFree_eq ?_ (by assumption) ?_)
    | with_reducible apply fr_putSlot
    | with_reducible apply fr_queueCooper
    | split)
theorem fr_loadSlot_eq {L : List Part} {s₀ s : State} (h₀ : Frame L s₀ s) {d : Nat} {slot : Nat} {r₁ : _} {r₂ : _} {r₃ : _} {u₀ : State}
    (e₀ : State.loadSlot s d slot = (u₀, r₁, r₂, r₃))
    (hL : ∀ p ∈ [Part.slots, .freeCtr, .out, .domVar], p ∈ L) : Frame L s₀ u₀ := by
  have x := fr_loadSlot h₀ d slot hL
  rw [e₀] at x
  exact x

theorem fr_execLoad {L : List Part} {s₀ s : State} (h₀ : Frame L s₀ s) (v : View) (posted : Bool) (slot : BitVec 14) (gen : W16) (rsv : BitVec 30)
    (hL : ∀ p ∈ [Part.pciPending, .traceHead, .slots, .views, .pairs, .counters, .freeCtr, .out, .domVar], p ∈ L) :
    FrameOut L s₀ (execLoad v posted slot gen rsv s) := by
  unfold execLoad
  repeat' (first
    | with_reducible assumption
    | exact sub_trans hL (by decide)
    | with_reducible apply fr_varCmd
    | with_reducible apply fr_varGuard
    | with_reducible apply fr_loadSlot
    | (refine fr_loadSlot_eq ?_ (by assumption) ?_)
    | split
    | with_reducible apply fro_next
    | dsimp only
    | intro)

theorem fr_parkSlot {L : List Part} {s₀ s : State} (h₀ : Frame L s₀ s) (d : Nat) (slot : Nat)
    (hL : ∀ p ∈ [Part.atLatch, .out, .domVar], p ∈ L) :
    Frame L s₀ (State.parkSlot s d slot).1 := by
  unfold State.parkSlot
  repeat' (first
    | with_reducible assumption
    | exact sub_trans hL (by decide)
    | (extract_lets +onlyGivenNames x; first
        | (refine (fun (hx : Frame L s₀ x) => ?_) ?_; (on_goal 1 => clear_value x); (on_goal 2 => subst x))
        | subst x)
    | with_reducible apply fr_varSays
    | with_reducible apply fr_defer
    | with_reducible apply fr_queueCooper
    | split)
theorem fr_parkSlot_eq {L : List Part} {s₀ s : State} (h₀ : Frame L s₀ s) {d : Nat} {slot : Nat} {r₀ : _} {u₀ : State}
    (e₀ : State.parkSlot s d slot = (u₀, r₀))
    (hL : ∀ p ∈ [Part.atLatch, .out, .domVar], p ∈ L) : Frame L s₀ u₀ := by
  have x := fr_parkSlot h₀ d slot hL
  rw [e₀] at x
  exact x

theorem fr_execPark {L : List Part} {s₀ s : State} (h₀ : Frame L s₀ s) (v : View) (posted : Bool) (slot : BitVec 14)
    (gen : W16) (rsv : BitVec 30)
    (hL : ∀ p ∈ [Part.pciPending, .traceHead, .views, .pairs, .counters, .atLatch, .out, .domVar], p ∈ L) :
    FrameOut L s₀ (execPark v posted slot gen rsv s) := by
  unfold execPark
  repeat' (first
    | with_reducible assumption
    | exact sub_trans hL (by decide)
    | with_reducible apply fr_varCmd
    | with_reducible apply fr_varGuard
    | with_reducible apply fr_parkSlot
    | with_reducible apply fro_next
    | intro)

theorem fr_releaseSlot {L : List Part} {s₀ s : State} (h₀ : Frame L s₀ s) (d : Nat) (slot : Nat)
    (hL : ∀ p ∈ [Part.slots, .atLatch, .out], p ∈ L) :
    Frame L s₀ (State.releaseSlot s d slot).1 := by
  unfold State.releaseSlot
  repeat' (first
    | with_reducible assumption
    | exact sub_trans hL (by decide)
    | (extract_lets +onlyGivenNames x; first
        | (refine (fun (hx : Frame L s₀ x) => ?_) ?_; (on_goal 1 => clear_value x); (on_goal 2 => subst x))
        | subst x)
    | with_reducible apply fr_varSays
    | (refine fr_varSays_eq ?_ (by assumption) ?_)
    | with_reducible apply fr_defer
    | with_reducible apply fr_putSlot
    | with_reducible apply fr_foldl
    | with_reducible apply fr_foldl_fst
    | with_reducible apply fr_foldl_snd
    | (refine fr_foldl_fst_eq ?_ ?_ (by assumption))
    | (refine fr_foldl_snd_eq ?_ ?_ (by assumption))
    | split
    | dsimp only
    | intro)
theorem fr_releaseSlot_eq {L : List Part} {s₀ s : State} (h₀ : Frame L s₀ s) {d : Nat} {slot : Nat} {r₁ : _} {r₂ : _} {r₃ : _} {u₀ : State}
    (e₀ : State.releaseSlot s d slot = (u₀, r₁, r₂, r₃))
    (hL : ∀ p ∈ [Part.slots, .atLatch, .out], p ∈ L) : Frame L s₀ u₀ := by
  have x := fr_releaseSlot h₀ d slot hL
  rw [e₀] at x
  exact x

theorem fr_execRelease {L : List Part} {s₀ s : State} (h₀ : Frame L s₀ s) (v : View) (posted : Bool) (slot : BitVec 14)
    (gen : W16) (rsv : BitVec 30)
    (hL : ∀ p ∈ [Part.pciPending, .traceHead, .slots, .views, .pairs, .counters, .atLatch, .out], p ∈ L) :
    FrameOut L s₀ (execRelease v posted slot gen rsv s) := by
  unfold execRelease
  repeat' (first
    | with_reducible assumption
    | exact sub_trans hL (by decide)
    | with_reducible apply fr_varCmd
    | with_reducible apply fr_varGuard
    | with_reducible apply fr_releaseSlot
    | with_reducible apply fro_next
    | intro)

theorem fr_stageSlot {L : List Part} {s₀ s : State} (h₀ : Frame L s₀ s) (d : Nat) (c : Nat) (slot : Nat)
    (hL : ∀ p ∈ [Part.out, .domVar], p ∈ L) :
    Frame L s₀ (State.stageSlot s d c slot).1 := by
  unfold State.stageSlot
  repeat' (first
    | with_reducible assumption
    | exact sub_trans hL (by decide)
    | (extract_lets +onlyGivenNames x; first
        | ((have y : Nat := x); clear y; clear_value x)
        | subst x)
    | with_reducible apply fr_varSays
    | with_reducible apply fr_queueCooper
    | split)
theorem fr_stageSlot_eq {L : List Part} {s₀ s : State} (h₀ : Frame L s₀ s) {d : Nat} {c : Nat} {slot : Nat} {r₀ : _}
    {u₀ : State}
    (e₀ : State.stageSlot s d c slot = (u₀, r₀))
    (hL : ∀ p ∈ [Part.out, .domVar], p ∈ L) : Frame L s₀ u₀ := by
  have x := fr_stageSlot h₀ d c slot hL
  rw [e₀] at x
  exact x

theorem fr_execStage {L : List Part} {s₀ s : State} (h₀ : Frame L s₀ s) (v : View) (posted : Bool) (slot : BitVec 14)
    (gen : W16) (rsv : BitVec 30)
    (hL : ∀ p ∈ [Part.pciPending, .traceHead, .views, .pairs, .counters, .out, .domVar], p ∈ L) :
    FrameOut L s₀ (execStage v posted slot gen rsv s) := by
  unfold execStage
  repeat' (first
    | with_reducible assumption
    | exact sub_trans hL (by decide)
    | with_reducible apply fr_varCmd
    | with_reducible apply fr_varGuard
    | with_reducible apply fr_stageSlot
    | with_reducible apply fro_next
    | intro)

theorem fr_unstageSlot {L : List Part} {s₀ s : State} (h₀ : Frame L s₀ s) (c : Nat) (slot : Nat)
    (hL : ∀ p ∈ [Part.atLatch, .out], p ∈ L) :
    Frame L s₀ (State.unstageSlot s c slot).1 := by
  unfold State.unstageSlot
  repeat' (first
    | with_reducible assumption
    | exact sub_trans hL (by decide)
    | (extract_lets +onlyGivenNames x; ((have y : Nat := x); clear y; clear_value x))
    | with_reducible apply fr_varSays
    | with_reducible apply fr_defer
    | split)
theorem fr_unstageSlot_eq {L : List Part} {s₀ s : State} (h₀ : Frame L s₀ s) {c : Nat} {slot : Nat} {r₀ : _} {u₀ : State}
    (e₀ : State.unstageSlot s c slot = (u₀, r₀))
    (hL : ∀ p ∈ [Part.atLatch, .out], p ∈ L) : Frame L s₀ u₀ := by
  have x := fr_unstageSlot h₀ c slot hL
  rw [e₀] at x
  exact x

theorem fr_execUnstage {L : List Part} {s₀ s : State} (h₀ : Frame L s₀ s) (v : View) (posted : Bool) (slot : BitVec 14)
    (gen : W16) (rsv : BitVec 30)
    (hL : ∀ p ∈ [Part.pciPending, .traceHead, .views, .pairs, .counters, .atLatch, .out], p ∈ L) :
    FrameOut L s₀ (execUnstage v posted slot gen rsv s) := by
  unfold execUnstage
  repeat' (first
    | with_reducible assumption
    | exact sub_trans hL (by decide)
    | with_reducible apply fr_varCmd
    | with_reducible apply fr_varGuard
    | with_reducible apply fr_unstageSlot
    | with_reducible apply fro_next
    | intro)

theorem fr_querySlot {L : List Part} {s₀ s : State} (h₀ : Frame L s₀ s) (d : Nat) (c : Nat) (slot : Nat)
    (hL : ∀ p ∈ [Part.pairs, .out], p ∈ L) :
    Frame L s₀ (State.querySlot s d c slot).1 := by
  unfold State.querySlot
  repeat' (first
    | with_reducible assumption
    | exact sub_trans hL (by decide)
    | (extract_lets +onlyGivenNames x; subst x)
    | with_reducible apply fr_varSays
    | with_reducible apply fr_putArg
    | with_reducible apply fr_foldl
    | split
    | intro)
theorem fr_querySlot_eq {L : List Part} {s₀ s : State} (h₀ : Frame L s₀ s) {d : Nat} {c : Nat} {slot : Nat} {r₀ : _}
    {u₀ : State}
    (e₀ : State.querySlot s d c slot = (u₀, r₀))
    (hL : ∀ p ∈ [Part.pairs, .out], p ∈ L) : Frame L s₀ u₀ := by
  have x := fr_querySlot h₀ d c slot hL
  rw [e₀] at x
  exact x

theorem fr_execVarQuery {L : List Part} {s₀ s : State} (h₀ : Frame L s₀ s) (v : View) (posted : Bool) (slot : BitVec 14)
    (gen : W16) (rsv : BitVec 30)
    (hL : ∀ p ∈ [Part.pciPending, .traceHead, .views, .pairs, .counters, .out], p ∈ L) :
    FrameOut L s₀ (execVarQuery v posted slot gen rsv s) := by
  unfold execVarQuery
  repeat' (first
    | with_reducible assumption
    | exact sub_trans hL (by decide)
    | (extract_lets +onlyGivenNames x; subst x)
    | with_reducible apply fr_varCmd
    | with_reducible apply fr_querySlot
    | with_reducible apply fro_next
    | intro)

theorem fr_flushSlot {L : List Part} {s₀ s : State} (h₀ : Frame L s₀ s) (d : Nat) (slot : Nat)
    (hL : ∀ p ∈ [Part.out, .domVar], p ∈ L) :
    Frame L s₀ (State.flushSlot s d slot).1 := by
  unfold State.flushSlot
  repeat' (first
    | with_reducible assumption
    | exact sub_trans hL (by decide)
    | (extract_lets +onlyGivenNames x; subst x)
    | with_reducible apply fr_varSays
    | with_reducible apply fr_queueCooper
    | split)
theorem fr_flushSlot_eq {L : List Part} {s₀ s : State} (h₀ : Frame L s₀ s) {d : Nat} {slot : Nat} {r₀ : _} {u₀ : State}
    (e₀ : State.flushSlot s d slot = (u₀, r₀))
    (hL : ∀ p ∈ [Part.out, .domVar], p ∈ L) : Frame L s₀ u₀ := by
  have x := fr_flushSlot h₀ d slot hL
  rw [e₀] at x
  exact x

theorem fr_execFlush {L : List Part} {s₀ s : State} (h₀ : Frame L s₀ s) (v : View) (posted : Bool) (slot : BitVec 14)
    (gen : W16) (rsv : BitVec 30)
    (hL : ∀ p ∈ [Part.pciPending, .traceHead, .views, .pairs, .counters, .out, .domVar], p ∈ L) :
    FrameOut L s₀ (execFlush v posted slot gen rsv s) := by
  unfold execFlush
  repeat' (first
    | with_reducible assumption
    | exact sub_trans hL (by decide)
    | with_reducible apply fr_varCmd
    | with_reducible apply fr_varGuard
    | with_reducible apply fr_flushSlot
    | with_reducible apply fro_next
    | intro)

theorem fr_expertClaim {L : List Part} {s₀ s : State} (h₀ : Frame L s₀ s) (d : Nat) (c : Nat) (slot : Nat) (gen : W16)
    (hL : ∀ p ∈ [Part.counters, .atLatch, .out, .domVar], p ∈ L) :
    Frame L s₀ (State.expertClaim s d c slot gen).1 := by
  unfold State.expertClaim
  repeat' (first
    | with_reducible assumption
    | exact sub_trans hL (by decide)
    | (extract_lets +onlyGivenNames x; first
        | (refine (fun (hx : Frame L s₀ x) => ?_) ?_; (on_goal 1 => clear_value x); (on_goal 2 => subst x))
        | ((have y : Nat := x); clear y; clear_value x)
        | subst x)
    | with_reducible apply fr_varSays
    | with_reducible apply fr_bump
    | with_reducible apply fr_defer
    | with_reducible apply fr_updDom
    | with_reducible apply fr_foldl
    | split
    | with_reducible apply dfr_mk
    | with_reducible exact Or.inr rfl
    | with_reducible exact Or.inr (same_mem _)
    | with_reducible exact Or.inr (same_domLife _)
    | with_reducible exact Or.inr (same_domRecord _)
    | with_reducible exact Or.inr (same_domPreempt _)
    | with_reducible exact Or.inr (same_domSlabs _)
    | with_reducible exact Or.inr (same_domSched _)
    | with_reducible exact Or.inl (hL .domVar (by decide))
    | dsimp only
    | intro)
theorem fr_expertClaim_eq {L : List Part} {s₀ s : State} (h₀ : Frame L s₀ s) {d : Nat} {c : Nat} {slot : Nat}
    {gen : W16} {r₀ : _} {u₀ : State}
    (e₀ : State.expertClaim s d c slot gen = (u₀, r₀))
    (hL : ∀ p ∈ [Part.counters, .atLatch, .out, .domVar], p ∈ L) : Frame L s₀ u₀ := by
  have x := fr_expertClaim h₀ d c slot gen hL
  rw [e₀] at x
  exact x

theorem fr_execExpertClaim {L : List Part} {s₀ s : State} (h₀ : Frame L s₀ s) (v : View) (posted : Bool)
    (slot : BitVec 14) (gen : W16) (rsv : BitVec 30)
    (hL : ∀ p ∈ [Part.pciPending, .traceHead, .views, .pairs, .counters, .atLatch, .out, .domVar], p ∈ L) :
    FrameOut L s₀ (execExpertClaim v posted slot gen rsv s) := by
  unfold execExpertClaim
  repeat' (first
    | with_reducible assumption
    | exact sub_trans hL (by decide)
    | with_reducible apply fr_varCmd
    | with_reducible apply fr_expertClaim
    | with_reducible apply fro_next
    | intro)

theorem fr_expertRelease {L : List Part} {s₀ s : State} (h₀ : Frame L s₀ s) (d : Nat) (c : Nat)
    (hL : ∀ p ∈ [Part.atLatch], p ∈ L) :
    Frame L s₀ (State.expertRelease s d c).1 := by
  unfold State.expertRelease
  repeat' (first
    | with_reducible assumption
    | exact sub_trans hL (by decide)
    | (extract_lets +onlyGivenNames x; first
        | ((have y : Nat := x); clear y; clear_value x)
        | subst x)
    | with_reducible apply fr_defer
    | split)
theorem fr_expertRelease_eq {L : List Part} {s₀ s : State} (h₀ : Frame L s₀ s) {d : Nat} {c : Nat} {r₀ : _} {u₀ : State}
    (e₀ : State.expertRelease s d c = (u₀, r₀))
    (hL : ∀ p ∈ [Part.atLatch], p ∈ L) : Frame L s₀ u₀ := by
  have x := fr_expertRelease h₀ d c hL
  rw [e₀] at x
  exact x

theorem fr_execExpertRelease {L : List Part} {s₀ s : State} (h₀ : Frame L s₀ s) (v : View) (posted : Bool)
    (slot : BitVec 14) (gen : W16) (rsv : BitVec 30)
    (hL : ∀ p ∈ [Part.pciPending, .traceHead, .views, .pairs, .counters, .atLatch, .out], p ∈ L) :
    FrameOut L s₀ (execExpertRelease v posted slot gen rsv s) := by
  unfold execExpertRelease
  repeat' (first
    | with_reducible assumption
    | exact sub_trans hL (by decide)
    | (extract_lets +onlyGivenNames x; subst x)
    | with_reducible apply fr_varCmd
    | with_reducible apply fr_expertRelease
    | with_reducible apply fro_next
    | intro)

theorem fr_writeExpert {L : List Part} {s₀ s : State} (h₀ : Frame L s₀ s) (d : Nat) (k : Nat)
    (hL : ∀ p ∈ [Part.domMem], p ∈ L) :
    Frame L s₀ (State.writeExpert s d k) := by
  unfold State.writeExpert
  repeat' (first
    | with_reducible assumption
    | exact sub_trans hL (by decide)
    | (extract_lets +onlyGivenNames x; first
        | ((have y : Nat := x); clear y; clear_value x)
        | subst x)
    | with_reducible apply fr_updDom
    | split
    | with_reducible apply dfr_mk
    | with_reducible exact Or.inr rfl
    | with_reducible exact Or.inr (same_domLife _)
    | with_reducible exact Or.inr (same_domRecord _)
    | with_reducible exact Or.inr (same_domPreempt _)
    | with_reducible exact Or.inr (same_domSlabs _)
    | with_reducible exact Or.inr (same_domSched _)
    | with_reducible exact Or.inl (hL .domMem (by decide))
    | intro)

theorem fr_setExpert {L : List Part} {s₀ s : State} (h₀ : Frame L s₀ s) (d : Nat) (k : Nat) (f : ExpertPos → ExpertPos)
    (hL : ∀ p ∈ [Part.domVar, .domMem], p ∈ L) :
    Frame L s₀ (State.setExpert s d k f) := by
  unfold State.setExpert
  repeat' (first
    | with_reducible assumption
    | exact sub_trans hL (by decide)
    | with_reducible apply fr_writeExpert
    | with_reducible apply fr_updDom
    | with_reducible apply dfr_updVar
    | with_reducible exact dfr_refl _ _
    | intro)

theorem fr_execLoadComplete {L : List Part} {s₀ s : State} (h₀ : Frame L s₀ s) (slot : BitVec 14)
    (hL : ∀ p ∈ [Part.atLatch, .domVar, .domTir, .domMem, .domPoison], p ∈ L) :
    FrameOut L s₀ (execLoadComplete slot s) := by
  unfold execLoadComplete
  repeat' (first
    | with_reducible assumption
    | exact sub_trans hL (by decide)
    | (extract_lets +onlyGivenNames x; first
        | (refine (fun (hx : Frame L s₀ x) => ?_) ?_; (on_goal 1 => clear_value x); (on_goal 2 => subst x))
        | ((have y : Nat := x); clear y; clear_value x)
        | subst x)
    | with_reducible apply fr_dropItems
    | with_reducible apply fr_defer
    | with_reducible apply fr_wrBuffer
    | with_reducible apply fr_foldl
    | with_reducible apply fr_foldl_fst
    | with_reducible apply fr_foldl_snd
    | (refine fr_foldl_fst_eq ?_ ?_ (by assumption))
    | (refine fr_foldl_snd_eq ?_ ?_ (by assumption))
    | split
    | with_reducible apply fro_next
    | dsimp only
    | intro)

theorem fr_abandonLoad {L : List Part} {s₀ s : State} (h₀ : Frame L s₀ s) (d : Nat) (k : Nat)
    (hL : ∀ p ∈ [Part.atLatch, .domVar], p ∈ L) :
    Frame L s₀ (State.abandonLoad s d k) := by
  unfold State.abandonLoad
  repeat' (first
    | with_reducible assumption
    | exact sub_trans hL (by decide)
    | with_reducible apply fr_dropItems
    | with_reducible apply fr_defer
    | split)

theorem fr_execLoadFailed {L : List Part} {s₀ s : State} (h₀ : Frame L s₀ s) (slot : BitVec 14)
    (hL : ∀ p ∈ [Part.atLatch, .domVar], p ∈ L) :
    FrameOut L s₀ (execLoadFailed slot s) := by
  unfold execLoadFailed
  repeat' (first
    | with_reducible assumption
    | exact sub_trans hL (by decide)
    | (extract_lets +onlyGivenNames x; first
        | ((have y : Nat := x); clear y; clear_value x)
        | subst x)
    | with_reducible apply fr_abandonLoad
    | split
    | with_reducible apply fro_next)

theorem fr_execParkDone {L : List Part} {s₀ s : State} (h₀ : Frame L s₀ s) (slot : BitVec 14)
    (hL : ∀ p ∈ [Part.pciPending, .traceHead, .slots, .views, .counters, .atLatch, .out, .domVar], p ∈ L) :
    FrameOut L s₀ (execParkDone slot s) := by
  unfold execParkDone
  repeat' (first
    | with_reducible assumption
    | exact sub_trans hL (by decide)
    | (extract_lets +onlyGivenNames x; first
        | ((have y : Nat := x); clear y; clear_value x)
        | subst x)
    | with_reducible apply fr_dropItems
    | with_reducible apply fr_updSlot
    | with_reducible apply fr_raiseDom
    | split
    | with_reducible apply fro_next)

theorem fr_execReleaseDone {L : List Part} {s₀ s : State} (h₀ : Frame L s₀ s) (slot : BitVec 14)
    (hL : ∀ p ∈ [Part.slots, .atLatch, .domVar], p ∈ L) :
    FrameOut L s₀ (execReleaseDone slot s) := by
  unfold execReleaseDone
  repeat' (first
    | with_reducible assumption
    | exact sub_trans hL (by decide)
    | (extract_lets +onlyGivenNames x; first
        | ((have y : Nat := x); clear y; clear_value x)
        | subst x)
    | with_reducible apply fr_dropItems
    | with_reducible apply fr_putSlot
    | split
    | with_reducible apply fro_next)

theorem fr_execStageComplete {L : List Part} {s₀ s : State} (h₀ : Frame L s₀ s) (slot : BitVec 14)
    (hL : ∀ p ∈ [Part.atLatch, .domVar], p ∈ L) :
    FrameOut L s₀ (execStageComplete slot s) := by
  unfold execStageComplete
  repeat' (first
    | with_reducible assumption
    | exact sub_trans hL (by decide)
    | (extract_lets +onlyGivenNames x; first
        | (refine (fun (hx : Frame L s₀ x) => ?_) ?_; (on_goal 1 => clear_value x); (on_goal 2 => subst x))
        | ((have y : Nat := x); clear y; clear_value x)
        | subst x)
    | with_reducible apply fr_updDom
    | with_reducible apply fr_defer
    | split
    | with_reducible apply fro_next
    | with_reducible apply dfr_mk
    | with_reducible exact Or.inr rfl
    | with_reducible exact Or.inr (same_mem _)
    | with_reducible exact Or.inr (same_domLife _)
    | with_reducible exact Or.inr (same_domRecord _)
    | with_reducible exact Or.inr (same_domPreempt _)
    | with_reducible exact Or.inr (same_domSlabs _)
    | with_reducible exact Or.inr (same_domSched _)
    | with_reducible exact Or.inl (hL .domVar (by decide))
    | dsimp only
    | intro)

theorem fr_latchSlotLive {L : List Part} {s₀ s : State} (h₀ : Frame L s₀ s) (k : Nat)
    (hL : ∀ p ∈ [Part.pciPending, .traceHead, .slots, .views, .counters, .out], p ∈ L) :
    Frame L s₀ (State.latchSlotLive s k) := by
  unfold State.latchSlotLive
  repeat' (first
    | with_reducible assumption
    | exact sub_trans hL (by decide)
    | (extract_lets +onlyGivenNames x; (refine (fun (hx : Frame L s₀ x) => ?_) ?_; (on_goal 1 => clear_value x); (on_goal 2 => subst x)))
    | with_reducible apply fr_updSlot
    | with_reducible apply fr_raiseDom
    | with_reducible apply fr_bump
    | split)

theorem fr_latchLoadFailed {L : List Part} {s₀ s : State} (h₀ : Frame L s₀ s) (k : Nat)
    (hL : ∀ p ∈ [Part.pciPending, .traceHead, .slots, .views, .counters, .out], p ∈ L) :
    Frame L s₀ (State.latchLoadFailed s k) := by
  unfold State.latchLoadFailed
  repeat' (first
    | with_reducible assumption
    | exact sub_trans hL (by decide)
    | with_reducible apply fr_raiseDom
    | with_reducible apply fr_bump
    | with_reducible apply fr_updSlot
    | split)

theorem fr_queueWriteBack {L : List Part} {s₀ s : State} (h₀ : Frame L s₀ s) (d : Nat) (k : Nat)
    (hL : ∀ p ∈ [Part.slots, .counters, .domVar, .domTir, .domMem, .domPoison], p ∈ L) :
    Frame L s₀ (State.queueWriteBack s d k) := by
  unfold State.queueWriteBack
  repeat' (first
    | with_reducible assumption
    | exact sub_trans hL (by decide)
    | (extract_lets +onlyGivenNames x; first
        | subst x)
    | with_reducible apply fr_queueCooper
    | with_reducible apply fr_writeBack
    | split)

theorem fr_latchLeave {L : List Part} {s₀ s : State} (h₀ : Frame L s₀ s) (k : Nat) (park : Bool)
    (hL : ∀ p ∈ [Part.slots, .counters, .domVar, .domTir, .domMem, .domPoison], p ∈ L) :
    Frame L s₀ (State.latchLeave s k park) := by
  unfold State.latchLeave
  repeat' (first
    | with_reducible assumption
    | exact sub_trans hL (by decide)
    | (extract_lets +onlyGivenNames x; first
        | (refine (fun (hx : Frame L s₀ x) => ?_) ?_; (on_goal 1 => clear_value x); (on_goal 2 => subst x))
        | subst x)
    | with_reducible apply fr_updSlot
    | with_reducible apply fr_updDom
    | with_reducible apply fr_queueWriteBack
    | with_reducible apply fr_setExpert
    | with_reducible apply fr_foldl
    | with_reducible apply fr_foldl_fst
    | with_reducible apply fr_foldl_snd
    | (refine fr_foldl_fst_eq ?_ ?_ (by assumption))
    | (refine fr_foldl_snd_eq ?_ ?_ (by assumption))
    | split
    | with_reducible apply dfr_updVar
    | with_reducible apply dfr_mk
    | with_reducible exact dfr_refl _ _
    | with_reducible exact Or.inr rfl
    | with_reducible exact Or.inr (same_mem _)
    | with_reducible exact Or.inr (same_domLife _)
    | with_reducible exact Or.inr (same_domRecord _)
    | with_reducible exact Or.inr (same_domPreempt _)
    | with_reducible exact Or.inr (same_domSlabs _)
    | with_reducible exact Or.inr (same_domSched _)
    | exact Or.inr (fun _ => rfl)
    | with_reducible exact Or.inl (hL .slots (by decide))
    | with_reducible exact Or.inl (hL .counters (by decide))
    | with_reducible exact Or.inl (hL .domVar (by decide))
    | with_reducible exact Or.inl (hL .domTir (by decide))
    | with_reducible exact Or.inl (hL .domMem (by decide))
    | with_reducible exact Or.inl (hL .domPoison (by decide))
    | dsimp only
    | intro)

theorem fr_putStaged {L : List Part} {s₀ s : State} (h₀ : Frame L s₀ s) (d : Nat) (units : List Nat) (o : Nat)
    (l : List (List Byte × Bool)) (hL : ∀ p ∈ [Part.commons, .commonsPoison], p ∈ L) :
    Frame L s₀ (State.putStaged s d units o l) := by
  induction l generalizing s o with
  | nil => exact h₀
  | cons a r ih =>
    refine ih ?_ _
    refine fr_foldl _ (fun t p h => ?_) _ h₀
    have h1 := fr_wrCommons h (s.stagedAddr d units p.1) ((a.1.drop (p.1 - o)).take p.2) (sub_trans hL (by decide))
    dsimp only
    split
    · with_reducible apply fr_mk h1 <;> first
        | with_reducible exact Or.inr rfl
        | with_reducible exact Or.inr (same_head _)
        | with_reducible exact same_ring _
        | exact Or.inl (hL .commonsPoison (by decide))
    · exact h1

theorem fr_placeStaged {L : List Part} {s₀ s : State} (h₀ : Frame L s₀ s) (d : Nat) (k : Nat) (c : Nat × List (List Byte × Bool))
    (hL : ∀ p ∈ [Part.slots, .commons, .commonsPoison, .freeCtr], p ∈ L) :
    Frame L s₀ (State.placeStaged s d k c) := by
  unfold State.placeStaged
  repeat' (first
    | with_reducible assumption
    | exact sub_trans hL (by decide)
    | (extract_lets +onlyGivenNames x; first
        | subst x)
    | with_reducible apply fr_pickFree
    | (refine fr_pickFree_eq ?_ (by assumption) ?_)
    | with_reducible apply fr_putStaged
    | with_reducible apply fr_updSlot
    | split)

theorem fr_latchStaged {L : List Part} {s₀ s : State} (h₀ : Frame L s₀ s) (k : Nat) (mask : W16) (ver : W32) (copies : List (Nat × List (List Byte × Bool)))
    (hL : ∀ p ∈ [Part.slots, .commons, .commonsPoison, .atLatch, .freeCtr], p ∈ L) :
    Frame L s₀ (State.latchStaged s k mask ver copies) := by
  unfold State.latchStaged
  repeat' (first
    | with_reducible assumption
    | exact sub_trans hL (by decide)
    | with_reducible apply fr_defer
    | with_reducible apply fr_placeStaged
    | with_reducible apply fr_updSlot
    | with_reducible apply fr_foldl
    | with_reducible apply fr_foldl_fst
    | with_reducible apply fr_foldl_snd
    | (refine fr_foldl_fst_eq ?_ ?_ (by assumption))
    | (refine fr_foldl_snd_eq ?_ ?_ (by assumption))
    | split
    | dsimp only
    | intro)

theorem fr_latchUnstage {L : List Part} {s₀ s : State} (h₀ : Frame L s₀ s) (k : Nat) (mask : W16)
    (hL : ∀ p ∈ [Part.slots, .atLatch], p ∈ L) :
    Frame L s₀ (State.latchUnstage s k mask) := by
  unfold State.latchUnstage
  repeat' (first
    | with_reducible assumption
    | exact sub_trans hL (by decide)
    | with_reducible apply fr_defer
    | with_reducible apply fr_updSlot
    | split)

theorem fr_loseStaged {L : List Part} {s₀ s : State} (h₀ : Frame L s₀ s) (d : Nat)
    (hL : ∀ p ∈ [Part.slots], p ∈ L) :
    Frame L s₀ (State.loseStaged s d) := by
  unfold State.loseStaged
  repeat' (first
    | with_reducible assumption
    | exact sub_trans hL (by decide)
    | split
    | with_reducible apply fr_mk
    | with_reducible exact Or.inr rfl
    | with_reducible exact Or.inr (same_mem _)
    | with_reducible exact Or.inr (same_poison _)
    | with_reducible exact Or.inr (same_head _)
    | with_reducible exact same_ring _
    | exact Or.inr (fun _ => rfl)
    | with_reducible exact Or.inl (hL .slots (by decide)))

theorem fr_restageLost {L : List Part} {s₀ s : State} (h₀ : Frame L s₀ s) (d : Nat)
    (hL : ∀ p ∈ [Part.slots, .domVar], p ∈ L) :
    Frame L s₀ (State.restageLost s d) := by
  unfold State.restageLost
  repeat' (first
    | with_reducible assumption
    | exact sub_trans hL (by decide)
    | (extract_lets +onlyGivenNames x; first
        | subst x)
    | with_reducible apply fr_updSlot
    | with_reducible apply fr_queueCooper
    | with_reducible apply fr_foldl
    | with_reducible apply fr_foldl_fst
    | with_reducible apply fr_foldl_snd
    | (refine fr_foldl_fst_eq ?_ ?_ (by assumption))
    | (refine fr_foldl_snd_eq ?_ ?_ (by assumption))
    | split
    | with_reducible apply fr_mk
    | with_reducible exact Or.inr rfl
    | with_reducible exact Or.inr (same_mem _)
    | with_reducible exact Or.inr (same_poison _)
    | with_reducible exact Or.inr (same_head _)
    | with_reducible exact same_ring _
    | exact Or.inr (fun _ => rfl)
    | with_reducible exact Or.inl (hL .slots (by decide))
    | with_reducible exact Or.inl (hL .domVar (by decide))
    | dsimp only
    | intro)

theorem fr_releaseStamp {L : List Part} {s₀ s : State} (h₀ : Frame L s₀ s) (slot : Nat) (ver : W32)
    (hL : ∀ p ∈ [Part.slots], p ∈ L) :
    Frame L s₀ (State.releaseStamp s slot ver) := by
  unfold State.releaseStamp
  repeat' (first
    | with_reducible assumption
    | exact sub_trans hL (by decide)
    | with_reducible apply fr_updSlot)

theorem fr_commitSlot {L : List Part} {s₀ s : State} (h₀ : Frame L s₀ s) (k : Nat)
    (hL : ∀ p ∈ [Part.slots, .counters, .domVar, .domTir, .domMem, .domPoison], p ∈ L) :
    Frame L s₀ (State.commitSlot s k) := by
  unfold State.commitSlot
  repeat' (first
    | with_reducible assumption
    | exact sub_trans hL (by decide)
    | (extract_lets +onlyGivenNames x; first
        | (refine (fun (hx : Frame L s₀ x) => ?_) ?_; (on_goal 1 => clear_value x); (on_goal 2 => subst x))
        | subst x)
    | with_reducible apply fr_updSlot
    | with_reducible apply fr_queueWriteBack
    | with_reducible apply fr_queueCooper
    | split)

theorem fr_applyCommits {L : List Part} {s₀ s : State} (h₀ : Frame L s₀ s)
    (hL : ∀ p ∈ [Part.slots, .counters, .domVar, .domTir, .domMem, .domPoison], p ∈ L) :
    Frame L s₀ (State.applyCommits s) := by
  unfold State.applyCommits
  repeat' (first
    | with_reducible assumption
    | exact sub_trans hL (by decide)
    | with_reducible apply fr_commitSlot
    | with_reducible apply fr_foldl
    | with_reducible apply fr_foldl_fst
    | with_reducible apply fr_foldl_snd
    | (refine fr_foldl_fst_eq ?_ ?_ (by assumption))
    | (refine fr_foldl_snd_eq ?_ ?_ (by assumption))
    | split
    | dsimp only
    | intro)

theorem fr_clearOldHeld {L : List Part} {s₀ s : State} (h₀ : Frame L s₀ s)
    (hL : ∀ p ∈ [Part.slots], p ∈ L) :
    Frame L s₀ (State.clearOldHeld s) := by
  unfold State.clearOldHeld
  repeat' (first
    | with_reducible assumption
    | exact sub_trans hL (by decide)
    | split
    | with_reducible apply fr_mk
    | with_reducible exact Or.inr rfl
    | with_reducible exact Or.inr (same_mem _)
    | with_reducible exact Or.inr (same_poison _)
    | with_reducible exact Or.inr (same_head _)
    | with_reducible exact same_ring _
    | exact Or.inr (fun _ => rfl)
    | with_reducible exact Or.inl (hL .slots (by decide)))

end Sys2Proof.Laws
end

