-- ==== Sys2Proof/Laws/FrameTier.lean ====
section
/-! SUPPORT. What the operations of Machine/Tier.lean may change (Safety.Frame): each lemma lists the parts. -/

namespace Sys2Proof.Laws

open Sys2Proof.Machine Sys2Proof.Safety

theorem dfr_flushOver {L : List Part} {x₀ x : Dom} (h : DomFrame L x₀ x)
    (hL : ∀ p ∈ [Part.domTir], p ∈ L) :
    DomFrame L x₀ (x.flushOver) := by
  refine dfr_trans h ?_
  unfold Dom.flushOver
  with_reducible apply dfr_mk
  repeat' first
    | with_reducible exact Or.inr rfl
    | with_reducible exact Or.inr (same_domLife _)
    | with_reducible exact Or.inr (same_domRecord _)
    | with_reducible exact Or.inr (same_domPreempt _)
    | with_reducible exact Or.inr (same_domSlabs _)
    | with_reducible exact Or.inr (same_domSched _)
    | with_reducible exact Or.inr (same_mem _)
    | exact Or.inl (hL .domTir (by decide))

theorem dfr_shiftFrom {L : List Part} {x₀ x : Dom} (h : DomFrame L x₀ x) (w : Slab) (ns : Nat)
    (hL : ∀ p ∈ [Part.domSlabs], p ∈ L) : DomFrame L x₀ (Dom.shiftFrom x w ns) := by
  unfold Dom.shiftFrom
  repeat' (first
    | with_reducible assumption
    | exact sub_trans hL (by decide)
    | split
    | (refine dfr_trans h ?_; with_reducible apply dfr_mk)
    | with_reducible apply dfr_mk
    | with_reducible exact Or.inr rfl
    | with_reducible exact Or.inr (same_mem _)
    | with_reducible exact Or.inr (same_domLife _)
    | with_reducible exact Or.inr (same_domRecord _)
    | with_reducible exact Or.inr (same_domPreempt _)
    | with_reducible exact Or.inr (same_domSlabs _)
    | with_reducible exact Or.inr (same_domSched _)
    | with_reducible exact Or.inl (hL .domSlabs (by decide)))

theorem dfr_shiftFromDev {L : List Part} {x₀ x : Dom} (h : DomFrame L x₀ x) (k : DevSlab) (ns : Nat)
    (hL : ∀ p ∈ [Part.domSlabs, .domTir], p ∈ L) : DomFrame L x₀ (Dom.shiftFromDev x k ns) := by
  unfold Dom.shiftFromDev
  repeat' (first
    | with_reducible assumption
    | exact sub_trans hL (by decide)
    | split
    | (refine dfr_trans h ?_; with_reducible apply dfr_mk)
    | with_reducible apply dfr_mk
    | with_reducible exact Or.inr rfl
    | with_reducible exact Or.inr (same_mem _)
    | with_reducible exact Or.inr (same_domLife _)
    | with_reducible exact Or.inr (same_domRecord _)
    | with_reducible exact Or.inr (same_domPreempt _)
    | with_reducible exact Or.inr (same_domSlabs _)
    | with_reducible exact Or.inr (same_domSched _)
    | with_reducible exact Or.inl (hL .domSlabs (by decide))
    | with_reducible exact Or.inl (hL .domTir (by decide)))

theorem dfr_stallOn {L : List Part} {x₀ x : Dom} (h : DomFrame L x₀ x) (p : Nat) (ns : Nat)
    (hL : ∀ p ∈ [Part.domSlabs, .domTir], p ∈ L) : DomFrame L x₀ (Dom.stallOn x p ns) := by
  unfold Dom.stallOn
  repeat' (first
    | with_reducible assumption
    | exact sub_trans hL (by decide)
    | with_reducible apply dfr_shiftFrom
    | with_reducible apply dfr_shiftFromDev
    | split)

theorem dfr_delivered {L : List Part} {x₀ x : Dom} (h : DomFrame L x₀ x) (f : Nat → Bool)
    (hL : ∀ p ∈ [Part.domSlabs], p ∈ L) :
    DomFrame L x₀ (x.delivered f) := by
  refine dfr_trans h ?_
  unfold Dom.delivered
  with_reducible apply dfr_mk
  repeat' first
    | with_reducible exact Or.inr rfl
    | with_reducible exact Or.inr (same_domLife _)
    | with_reducible exact Or.inr (same_domRecord _)
    | with_reducible exact Or.inr (same_domPreempt _)
    | with_reducible exact Or.inr (same_domSlabs _)
    | with_reducible exact Or.inr (same_domSched _)
    | with_reducible exact Or.inr (same_mem _)
    | exact Or.inl (hL .domSlabs (by decide))

theorem dfr_flashFails {L : List Part} {x₀ x : Dom} (h : DomFrame L x₀ x) (p : Nat)
    (hL : ∀ p ∈ [Part.domSlabs], p ∈ L) :
    DomFrame L x₀ (x.flashFails p) := by
  refine dfr_trans h ?_
  unfold Dom.flashFails
  with_reducible apply dfr_mk
  repeat' first
    | with_reducible exact Or.inr rfl
    | with_reducible exact Or.inr (same_domLife _)
    | with_reducible exact Or.inr (same_domRecord _)
    | with_reducible exact Or.inr (same_domPreempt _)
    | with_reducible exact Or.inr (same_domSlabs _)
    | with_reducible exact Or.inr (same_domSched _)
    | with_reducible exact Or.inr (same_mem _)
    | exact Or.inl (hL .domSlabs (by decide))

theorem fr_updHome {L : List Part} {s₀ s : State} (h₀ : Frame L s₀ s) (d : Nat) (p : Nat) (f : PageEntry → PageEntry)
    (hL : ∀ p ∈ [Part.domTir], p ∈ L) :
    Frame L s₀ (State.updHome s d p f) := by
  unfold State.updHome
  repeat' (first
    | with_reducible assumption
    | exact sub_trans hL (by decide)
    | (extract_lets +onlyGivenNames x; subst x)
    | with_reducible apply fr_updDom
    | with_reducible apply dfr_putEntry
    | with_reducible exact dfr_refl _ _
    | intro)

theorem fr_queueTier {L : List Part} {s₀ s : State} (h₀ : Frame L s₀ s) (d : Nat) (i : TierItem)
    (hL : ∀ p ∈ [Part.domTir], p ∈ L) :
    Frame L s₀ (State.queueTier s d i) := by
  unfold State.queueTier
  repeat' (first
    | with_reducible assumption
    | exact sub_trans hL (by decide)
    | with_reducible apply fr_updDom
    | with_reducible apply dfr_mk
    | with_reducible exact Or.inr rfl
    | with_reducible exact Or.inr (same_mem _)
    | with_reducible exact Or.inr (same_domLife _)
    | with_reducible exact Or.inr (same_domRecord _)
    | with_reducible exact Or.inr (same_domPreempt _)
    | with_reducible exact Or.inr (same_domSlabs _)
    | with_reducible exact Or.inr (same_domSched _)
    | with_reducible exact Or.inl (hL .domTir (by decide))
    | dsimp only
    | intro)

theorem fr_setPin {L : List Part} {s₀ s : State} (h₀ : Frame L s₀ s) (d : Nat) (p : Nat) (n : Nat)
    (hL : ∀ p ∈ [Part.domTir], p ∈ L) :
    Frame L s₀ (State.setPin s d p n) := by
  unfold State.setPin
  repeat' (first
    | with_reducible assumption
    | exact sub_trans hL (by decide)
    | with_reducible apply fr_updDom
    | with_reducible apply dfr_putEntry
    | with_reducible exact dfr_refl _ _
    | dsimp only
    | intro)

theorem fr_moveUpPage {L : List Part} {s₀ s : State} (h₀ : Frame L s₀ s) (d : Nat) (p : Nat)
    (hL : ∀ p ∈ [Part.domTir], p ∈ L) :
    Frame L s₀ (State.moveUpPage s d p).1 := by
  unfold State.moveUpPage
  repeat' (first
    | with_reducible assumption
    | exact sub_trans hL (by decide)
    | with_reducible apply fr_queueTier
    | split)
theorem fr_moveUpPage_eq {L : List Part} {s₀ s : State} (h₀ : Frame L s₀ s) {d : Nat} {p : Nat} {r₀ : _} {u₀ : State}
    (e₀ : State.moveUpPage s d p = (u₀, r₀))
    (hL : ∀ p ∈ [Part.domTir], p ∈ L) : Frame L s₀ u₀ := by
  have x := fr_moveUpPage h₀ d p hL
  rw [e₀] at x
  exact x

theorem fr_evictPage {L : List Part} {s₀ s : State} (h₀ : Frame L s₀ s) (d : Nat) (p : Nat)
    (hL : ∀ p ∈ [Part.domTir], p ∈ L) :
    Frame L s₀ (State.evictPage s d p).1 := by
  unfold State.evictPage
  repeat' (first
    | with_reducible assumption
    | exact sub_trans hL (by decide)
    | with_reducible apply fr_queueTier
    | split)
theorem fr_evictPage_eq {L : List Part} {s₀ s : State} (h₀ : Frame L s₀ s) {d : Nat} {p : Nat} {r₀ : _} {u₀ : State}
    (e₀ : State.evictPage s d p = (u₀, r₀))
    (hL : ∀ p ∈ [Part.domTir], p ∈ L) : Frame L s₀ u₀ := by
  have x := fr_evictPage h₀ d p hL
  rw [e₀] at x
  exact x

theorem fr_pinPage {L : List Part} {s₀ s : State} (h₀ : Frame L s₀ s) (d : Nat) (p : Nat)
    (hL : ∀ p ∈ [Part.domTir], p ∈ L) :
    Frame L s₀ (State.pinPage s d p).1 := by
  unfold State.pinPage
  repeat' (first
    | with_reducible assumption
    | exact sub_trans hL (by decide)
    | (extract_lets +onlyGivenNames x; first
        | (refine (fun (hx : Frame L s₀ x) => ?_) ?_; (on_goal 1 => clear_value x); (on_goal 2 => subst x))
        | subst x)
    | with_reducible apply fr_setPin
    | with_reducible apply fr_queueTier
    | split)
theorem fr_pinPage_eq {L : List Part} {s₀ s : State} (h₀ : Frame L s₀ s) {d : Nat} {p : Nat} {r₀ : _} {u₀ : State}
    (e₀ : State.pinPage s d p = (u₀, r₀))
    (hL : ∀ p ∈ [Part.domTir], p ∈ L) : Frame L s₀ u₀ := by
  have x := fr_pinPage h₀ d p hL
  rw [e₀] at x
  exact x

theorem fr_unpinPage {L : List Part} {s₀ s : State} (h₀ : Frame L s₀ s) (d : Nat) (p : Nat)
    (hL : ∀ p ∈ [Part.domTir], p ∈ L) :
    Frame L s₀ (State.unpinPage s d p).1 := by
  unfold State.unpinPage
  repeat' (first
    | with_reducible assumption
    | exact sub_trans hL (by decide)
    | (extract_lets +onlyGivenNames x; subst x)
    | with_reducible apply fr_setPin
    | split)
theorem fr_unpinPage_eq {L : List Part} {s₀ s : State} (h₀ : Frame L s₀ s) {d : Nat} {p : Nat} {r₀ : _} {u₀ : State}
    (e₀ : State.unpinPage s d p = (u₀, r₀))
    (hL : ∀ p ∈ [Part.domTir], p ∈ L) : Frame L s₀ u₀ := by
  have x := fr_unpinPage h₀ d p hL
  rw [e₀] at x
  exact x

theorem fr_discardPage {L : List Part} {s₀ s : State} (h₀ : Frame L s₀ s) (d : Nat) (p : Nat)
    (hL : ∀ p ∈ [Part.atLatch], p ∈ L) :
    Frame L s₀ (State.discardPage s d p).1 := by
  unfold State.discardPage
  repeat' (first
    | with_reducible assumption
    | exact sub_trans hL (by decide)
    | with_reducible apply fr_defer
    | split)
theorem fr_discardPage_eq {L : List Part} {s₀ s : State} (h₀ : Frame L s₀ s) {d : Nat} {p : Nat} {r₀ : _} {u₀ : State}
    (e₀ : State.discardPage s d p = (u₀, r₀))
    (hL : ∀ p ∈ [Part.atLatch], p ∈ L) : Frame L s₀ u₀ := by
  have x := fr_discardPage h₀ d p hL
  rw [e₀] at x
  exact x

theorem fr_relocatePage {L : List Part} {s₀ s : State} (h₀ : Frame L s₀ s) (d : Nat) (p : Nat) (frame : Nat)
    (hL : ∀ p ∈ [Part.atLatch, .domTir], p ∈ L) :
    Frame L s₀ (State.relocatePage s d p frame).1 := by
  unfold State.relocatePage
  repeat' (first
    | with_reducible assumption
    | exact sub_trans hL (by decide)
    | (extract_lets +onlyGivenNames x; first
        | subst x)
    | with_reducible apply fr_updDom
    | with_reducible apply fr_defer
    | split
    | with_reducible apply dfr_mk
    | with_reducible exact dfr_refl _ _
    | with_reducible exact Or.inr rfl
    | with_reducible exact Or.inr (same_mem _)
    | with_reducible exact Or.inr (same_domLife _)
    | with_reducible exact Or.inr (same_domRecord _)
    | with_reducible exact Or.inr (same_domPreempt _)
    | with_reducible exact Or.inr (same_domSlabs _)
    | with_reducible exact Or.inr (same_domSched _)
    | exact Or.inr (fun _ => rfl)
    | with_reducible exact Or.inl (hL .atLatch (by decide))
    | with_reducible exact Or.inl (hL .domTir (by decide))
    | dsimp only
    | intro)
theorem fr_relocatePage_eq {L : List Part} {s₀ s : State} (h₀ : Frame L s₀ s) {d : Nat} {p : Nat} {frame : Nat} {r₁ : _} {u₀ : State}
    (e₀ : State.relocatePage s d p frame = (u₀, r₁))
    (hL : ∀ p ∈ [Part.atLatch, .domTir], p ∈ L) : Frame L s₀ u₀ := by
  have x := fr_relocatePage h₀ d p frame hL
  rw [e₀] at x
  exact x

theorem fr_tierPages {L : List Part} {s₀ : State} (d : Nat) (act : State → Nat → State × Nat)
    (ha : ∀ t p, Frame L s₀ t → Frame L s₀ (act t p).1)
    (hL : ∀ p ∈ ([] : List Part), p ∈ L) :
    ∀ (n p left moved : Nat) {s : State}, Frame L s₀ s → Frame L s₀ (s.tierPages d act n p left moved).1
  | 0, _, _, _, _, h => h
  | n + 1, p, left, moved, s, h => by
    unfold State.tierPages
    split
    · exact h
    · dsimp only
      split
      · exact fr_tierPages d act ha hL n _ _ _ (ha _ _ h)
      · exact ha _ _ h

theorem fr_tirCmd {L : List Part} {s₀ s : State} (h₀ : Frame L s₀ s) (v : View) (posted : Bool) (op page count rsv : Nat)
    (act : Nat → State → Nat → State × Nat) (ha : ∀ d t p, Frame L s₀ t → Frame L s₀ (act d t p).1)
    (hL : ∀ p ∈ [Part.pciPending, .traceHead, .views, .pairs, .counters, .out], p ∈ L) :
    Frame L s₀ (s.tirCmd v posted op page count rsv act) := by
  unfold State.tirCmd
  refine fr_runCmd h₀ _ _ _ _ ?_ (sub_trans hL (by decide))
  dsimp only
  split
  · exact h₀
  · exact fr_tierPages _ _ (ha _) (sub_trans hL (by decide)) _ _ _ _ h₀

theorem fr_execMoveUp {L : List Part} {s₀ s : State} (h₀ : Frame L s₀ s) (v : View) (posted : Bool) (page : BitVec 27)
    (count : W16) (rsv : BitVec 17)
    (hL : ∀ p ∈ [Part.pciPending, .traceHead, .views, .pairs, .counters, .out, .domTir], p ∈ L) :
    FrameOut L s₀ (execMoveUp v posted page count rsv s) := by
  unfold execMoveUp
  repeat' (first
    | with_reducible assumption
    | exact sub_trans hL (by decide)
    | with_reducible apply fr_tirCmd
    | with_reducible apply fr_moveUpPage
    | with_reducible apply fro_next
    | intro)

theorem fr_execEvict {L : List Part} {s₀ s : State} (h₀ : Frame L s₀ s) (v : View) (posted : Bool) (page : BitVec 27)
    (count : W16) (rsv : BitVec 17)
    (hL : ∀ p ∈ [Part.pciPending, .traceHead, .views, .pairs, .counters, .out, .domTir], p ∈ L) :
    FrameOut L s₀ (execEvict v posted page count rsv s) := by
  unfold execEvict
  repeat' (first
    | with_reducible assumption
    | exact sub_trans hL (by decide)
    | with_reducible apply fr_tirCmd
    | with_reducible apply fr_evictPage
    | with_reducible apply fro_next
    | intro)

theorem fr_execPin {L : List Part} {s₀ s : State} (h₀ : Frame L s₀ s) (v : View) (posted : Bool) (page : BitVec 27)
    (count : W16) (rsv : BitVec 17)
    (hL : ∀ p ∈ [Part.pciPending, .traceHead, .views, .pairs, .counters, .out, .domTir], p ∈ L) :
    FrameOut L s₀ (execPin v posted page count rsv s) := by
  unfold execPin
  repeat' (first
    | with_reducible assumption
    | exact sub_trans hL (by decide)
    | with_reducible apply fr_tirCmd
    | with_reducible apply fr_pinPage
    | with_reducible apply fro_next
    | intro)

theorem fr_execUnpin {L : List Part} {s₀ s : State} (h₀ : Frame L s₀ s) (v : View) (posted : Bool) (page : BitVec 27)
    (count : W16) (rsv : BitVec 17)
    (hL : ∀ p ∈ [Part.pciPending, .traceHead, .views, .pairs, .counters, .out, .domTir], p ∈ L) :
    FrameOut L s₀ (execUnpin v posted page count rsv s) := by
  unfold execUnpin
  repeat' (first
    | with_reducible assumption
    | exact sub_trans hL (by decide)
    | with_reducible apply fr_tirCmd
    | with_reducible apply fr_unpinPage
    | with_reducible apply fro_next
    | intro)

theorem fr_execTirQuery {L : List Part} {s₀ s : State} (h₀ : Frame L s₀ s) (v : View) (posted : Bool) (page : BitVec 27)
    (count : W16) (rsv : BitVec 17)
    (hL : ∀ p ∈ [Part.pciPending, .traceHead, .views, .pairs, .counters, .out], p ∈ L) :
    FrameOut L s₀ (execTirQuery v posted page count rsv s) := by
  unfold execTirQuery
  repeat' (first
    | with_reducible assumption
    | exact sub_trans hL (by decide)
    | (extract_lets +onlyGivenNames x; ((have y : Nat := x); clear y; clear_value x))
    | with_reducible apply fr_runCmd
    | with_reducible apply fr_putArg
    | split
    | with_reducible apply fro_next)

theorem fr_execDiscard {L : List Part} {s₀ s : State} (h₀ : Frame L s₀ s) (v : View) (posted : Bool) (page : BitVec 27)
    (count : W16) (rsv : BitVec 17)
    (hL : ∀ p ∈ [Part.pciPending, .traceHead, .views, .pairs, .counters, .atLatch, .out], p ∈ L) :
    FrameOut L s₀ (execDiscard v posted page count rsv s) := by
  unfold execDiscard
  repeat' (first
    | with_reducible assumption
    | exact sub_trans hL (by decide)
    | with_reducible apply fr_tirCmd
    | with_reducible apply fr_discardPage
    | with_reducible apply fro_next
    | intro)

theorem fr_execRelocate {L : List Part} {s₀ s : State} (h₀ : Frame L s₀ s) (v : View) (posted : Bool) (page : BitVec 27) (count : W16) (rsv : BitVec 17)
    (hL : ∀ p ∈ [Part.pciPending, .traceHead, .views, .pairs, .counters, .atLatch, .out, .domTir], p ∈ L) :
    FrameOut L s₀ (execRelocate v posted page count rsv s) := by
  unfold execRelocate
  repeat' (first
    | with_reducible assumption
    | exact sub_trans hL (by decide)
    | with_reducible apply fr_tirCmd
    | with_reducible apply fr_relocatePage
    | (refine fr_relocatePage_eq ?_ (by assumption) ?_)
    | split
    | with_reducible apply fro_next
    | dsimp only
    | intro)

theorem fr_execFlushExtent {L : List Part} {s₀ s : State} (h₀ : Frame L s₀ s) (v : View) (posted : Bool)
    (page : BitVec 27) (count : W16) (rsv : BitVec 17)
    (hL : ∀ p ∈ [Part.pciPending, .traceHead, .views, .pairs, .counters, .out, .domTir], p ∈ L) :
    FrameOut L s₀ (execFlushExtent v posted page count rsv s) := by
  unfold execFlushExtent
  repeat' (first
    | with_reducible assumption
    | exact sub_trans hL (by decide)
    | (extract_lets +onlyGivenNames x; first
        | ((have y : Nat := x); clear y; clear_value x)
        | subst x)
    | with_reducible apply fr_runCmd
    | with_reducible apply fr_updDom
    | split
    | with_reducible apply fro_next
    | with_reducible apply dfr_mk
    | with_reducible exact Or.inr rfl
    | with_reducible exact Or.inr (same_mem _)
    | with_reducible exact Or.inr (same_domLife _)
    | with_reducible exact Or.inr (same_domRecord _)
    | with_reducible exact Or.inr (same_domPreempt _)
    | with_reducible exact Or.inr (same_domSlabs _)
    | with_reducible exact Or.inr (same_domSched _)
    | with_reducible exact Or.inl (hL .domTir (by decide))
    | dsimp only
    | intro)

theorem fr_nvme {L : List Part} {s₀ s : State} (h₀ : Frame L s₀ s) (d : Nat) (op : Nat) (page : Nat)
    (hL : ∀ p ∈ [Part.counters, .out], p ∈ L) :
    Frame L s₀ (State.nvme s d op page) := by
  unfold State.nvme
  repeat' (first
    | with_reducible assumption
    | exact sub_trans hL (by decide)
    | (extract_lets +onlyGivenNames x; (refine (fun (hx : Frame L s₀ x) => ?_) ?_; (on_goal 1 => clear_value x); (on_goal 2 => subst x)))
    | with_reducible apply fr_emit
    | with_reducible apply fr_bump
    | split)

theorem fr_unflushed {L : List Part} {s₀ s : State} (h₀ : Frame L s₀ s) (h : Nat × Nat)
    (hL : ∀ p ∈ [Part.domTir], p ∈ L) :
    Frame L s₀ (State.unflushed s h) := by
  unfold State.unflushed
  repeat' (first
    | with_reducible assumption
    | exact sub_trans hL (by decide)
    | with_reducible apply fr_updDom
    | with_reducible apply fr_foldl
    | with_reducible apply fr_foldl_fst
    | with_reducible apply fr_foldl_snd
    | (refine fr_foldl_fst_eq ?_ ?_ (by assumption))
    | (refine fr_foldl_snd_eq ?_ ?_ (by assumption))
    | split
    | with_reducible apply dfr_mk
    | with_reducible exact dfr_refl _ _
    | with_reducible apply fr_mk
    | with_reducible exact Or.inr rfl
    | with_reducible exact Or.inr (same_mem _)
    | with_reducible exact Or.inr (same_domLife _)
    | with_reducible exact Or.inr (same_domRecord _)
    | with_reducible exact Or.inr (same_domPreempt _)
    | with_reducible exact Or.inr (same_domSlabs _)
    | with_reducible exact Or.inr (same_domSched _)
    | with_reducible exact Or.inr (same_poison _)
    | with_reducible exact Or.inr (same_head _)
    | with_reducible exact same_ring _
    | exact Or.inr (fun _ => rfl)
    | with_reducible exact Or.inl (hL .domTir (by decide))
    | dsimp only
    | intro)

theorem fr_execFlushIssue {L : List Part} {s₀ s : State} (h₀ : Frame L s₀ s) (d : Fin 64)
    (hL : ∀ p ∈ [Part.counters, .out, .domTir], p ∈ L) :
    FrameOut L s₀ (execFlushIssue d s) := by
  unfold execFlushIssue
  repeat' (first
    | with_reducible assumption
    | exact sub_trans hL (by decide)
    | (extract_lets +onlyGivenNames x; subst x)
    | with_reducible apply fr_nvme
    | with_reducible apply fr_updDom
    | split
    | with_reducible apply fro_next
    | with_reducible apply dfr_mk
    | with_reducible exact Or.inr rfl
    | with_reducible exact Or.inr (same_mem _)
    | with_reducible exact Or.inr (same_domLife _)
    | with_reducible exact Or.inr (same_domRecord _)
    | with_reducible exact Or.inr (same_domPreempt _)
    | with_reducible exact Or.inr (same_domSlabs _)
    | with_reducible exact Or.inr (same_domSched _)
    | with_reducible exact Or.inl (hL .domTir (by decide))
    | dsimp only
    | intro)

theorem fr_flushFails {L : List Part} {s₀ s : State} (h₀ : Frame L s₀ s) (d : Nat)
    (hL : ∀ p ∈ [Part.pciPending, .traceHead, .views, .counters, .out, .domTir], p ∈ L) :
    Frame L s₀ (State.flushFails s d) := by
  unfold State.flushFails
  repeat' (first
    | with_reducible assumption
    | exact sub_trans hL (by decide)
    | (extract_lets +onlyGivenNames x; subst x)
    | with_reducible apply fr_raiseDom
    | with_reducible apply fr_bump
    | with_reducible apply fr_updDom
    | with_reducible apply fr_nvme
    | split
    | with_reducible apply dfr_flushOver
    | with_reducible exact dfr_refl _ _
    | with_reducible apply dfr_mk
    | with_reducible exact Or.inr rfl
    | with_reducible exact Or.inr (same_mem _)
    | with_reducible exact Or.inr (same_domLife _)
    | with_reducible exact Or.inr (same_domRecord _)
    | with_reducible exact Or.inr (same_domPreempt _)
    | with_reducible exact Or.inr (same_domSlabs _)
    | with_reducible exact Or.inr (same_domSched _)
    | with_reducible exact Or.inl (hL .domTir (by decide))
    | dsimp only
    | intro)

theorem fr_execFlushDone {L : List Part} {s₀ s : State} (h₀ : Frame L s₀ s) (d : Fin 64) (ok : Bool)
    (hL : ∀ p ∈ [Part.pciPending, .traceHead, .views, .counters, .out, .domTir], p ∈ L) :
    FrameOut L s₀ (execFlushDone d ok s) := by
  unfold execFlushDone
  repeat' (first
    | with_reducible assumption
    | exact sub_trans hL (by decide)
    | with_reducible apply fr_raiseDom
    | with_reducible apply fr_updDom
    | with_reducible apply fr_flushFails
    | split
    | with_reducible apply dfr_flushOver
    | with_reducible apply fro_next
    | with_reducible exact dfr_refl _ _
    | intro)

theorem fr_stallBy {L : List Part} {s₀ s : State} (h₀ : Frame L s₀ s) (d code : Nat) (counter : Option Nat) (ns : Nat)
    (waits : Dom → Dom) (hw : ∀ x, DomFrame L x (waits x)) (hL : ∀ p ∈ [Part.counters, .stretch], p ∈ L) :
    Frame L s₀ (State.stallBy s d code counter ns waits) := by
  unfold State.stallBy
  refine fr_updDom ?_ _ _ hw
  split
  · exact fr_bump (fr_addStretch h₀ _ _ _ (sub_trans hL (by decide))) _ _ _ _ (sub_trans hL (by decide))
  · exact fr_addStretch h₀ _ _ _ (sub_trans hL (by decide))

theorem fr_flashStall {L : List Part} {s₀ s : State} (h₀ : Frame L s₀ s) (d : Nat) (code : Nat) (counter : Option Nat) (page : Option Nat) (ns : Nat)
    (hL : ∀ p ∈ [Part.counters, .stretch, .domSlabs, .domTir], p ∈ L) :
    Frame L s₀ (State.flashStall s d code counter page ns) := by
  unfold State.flashStall
  repeat' (first
    | with_reducible assumption
    | exact sub_trans hL (by decide)
    | with_reducible apply fr_stallBy
    | split
    | with_reducible apply dfr_stallOn
    | exact dfr_refl _ _
    | dsimp only
    | intro)

theorem fr_takeMigEntry {L : List Part} {s₀ s : State} (h₀ : Frame L s₀ s) (d : Nat) (p : Nat)
    (hL : ∀ p ∈ [Part.domTir], p ∈ L) :
    Frame L s₀ (State.takeMigEntry s d p) := by
  unfold State.takeMigEntry
  repeat' (first
    | with_reducible assumption
    | exact sub_trans hL (by decide)
    | with_reducible apply fr_updDom
    | split
    | with_reducible apply dfr_mk
    | with_reducible exact Or.inr rfl
    | with_reducible exact Or.inr (same_mem _)
    | with_reducible exact Or.inr (same_domLife _)
    | with_reducible exact Or.inr (same_domRecord _)
    | with_reducible exact Or.inr (same_domPreempt _)
    | with_reducible exact Or.inr (same_domSlabs _)
    | with_reducible exact Or.inr (same_domSched _)
    | with_reducible exact Or.inl (hL .domTir (by decide))
    | dsimp only
    | intro)

theorem fr_startTransfer {L : List Part} {s₀ s : State} (h₀ : Frame L s₀ s) (d : Nat) (p : Nat) (op : Nat)
    (hL : ∀ p ∈ [Part.counters, .out, .domTir], p ∈ L) :
    Frame L s₀ (State.startTransfer s d p op) := by
  unfold State.startTransfer
  repeat' (first
    | with_reducible assumption
    | exact sub_trans hL (by decide)
    | (extract_lets +onlyGivenNames x; (refine (fun (hx : Frame L s₀ x) => ?_) ?_; (on_goal 1 => clear_value x); (on_goal 2 => subst x)))
    | with_reducible apply fr_takeMigEntry
    | with_reducible apply fr_nvme
    | split)

theorem fr_freeEntry {L : List Part} {s₀ s : State} (h₀ : Frame L s₀ s) (d : Nat) (p : Nat)
    (hL : ∀ p ∈ [Part.counters, .stretch, .out, .domSlabs, .domTir], p ∈ L) :
    Frame L s₀ (State.freeEntry s d p) := by
  unfold State.freeEntry
  repeat' (first
    | with_reducible assumption
    | exact sub_trans hL (by decide)
    | with_reducible apply fr_updDom
    | with_reducible apply fr_nvme
    | with_reducible apply fr_flashStall
    | split
    | with_reducible apply dfr_mk
    | with_reducible exact Or.inr rfl
    | with_reducible exact Or.inr (same_mem _)
    | with_reducible exact Or.inr (same_domLife _)
    | with_reducible exact Or.inr (same_domRecord _)
    | with_reducible exact Or.inr (same_domPreempt _)
    | with_reducible exact Or.inr (same_domSlabs _)
    | with_reducible exact Or.inr (same_domSched _)
    | with_reducible exact Or.inl (hL .domTir (by decide))
    | dsimp only
    | intro)

theorem fr_pickFrame {L : List Part} {s₀ s : State} (h₀ : Frame L s₀ s) (d : Nat)
    (hL : ∀ p ∈ [Part.freeCtr, .domTir], p ∈ L) :
    Frame L s₀ (State.pickFrame s d).2 := by
  unfold State.pickFrame
  repeat' (first
    | with_reducible assumption
    | exact sub_trans hL (by decide)
    | (extract_lets +onlyGivenNames x; first
        | subst x)
    | with_reducible apply fr_takeFree
    | (refine fr_takeFree_eq ?_ (by assumption) ?_)
    | with_reducible apply fr_updDom
    | split
    | with_reducible apply dfr_mk
    | with_reducible exact dfr_refl _ _
    | with_reducible exact Or.inr rfl
    | with_reducible exact Or.inr (same_mem _)
    | with_reducible exact Or.inr (same_domLife _)
    | with_reducible exact Or.inr (same_domRecord _)
    | with_reducible exact Or.inr (same_domPreempt _)
    | with_reducible exact Or.inr (same_domSlabs _)
    | with_reducible exact Or.inr (same_domSched _)
    | exact Or.inr (fun _ => rfl)
    | with_reducible exact Or.inl (hL .freeCtr (by decide))
    | with_reducible exact Or.inl (hL .domTir (by decide))
    | dsimp only
    | intro)
theorem fr_pickFrame_eq {L : List Part} {s₀ s : State} (h₀ : Frame L s₀ s) {d : Nat} {r₀ : _} {u₀ : State}
    (e₀ : State.pickFrame s d = (r₀, u₀))
    (hL : ∀ p ∈ [Part.freeCtr, .domTir], p ∈ L) : Frame L s₀ u₀ := by
  have x := fr_pickFrame h₀ d hL
  rw [e₀] at x
  exact x

theorem fr_startUp {L : List Part} {s₀ s : State} (h₀ : Frame L s₀ s) (d : Nat) (p : Nat)
    (hL : ∀ p ∈ [Part.counters, .atLatch, .freeCtr, .out, .domTir], p ∈ L) :
    Frame L s₀ (State.startUp s d p).1 := by
  unfold State.startUp
  repeat' (first
    | with_reducible assumption
    | exact sub_trans hL (by decide)
    | (extract_lets +onlyGivenNames x; first
        | (refine (fun (hx : Frame L s₀ x) => ?_) ?_; (on_goal 1 => clear_value x); (on_goal 2 => subst x))
        | subst x)
    | with_reducible apply fr_pickFrame
    | (refine fr_pickFrame_eq ?_ (by assumption) ?_)
    | with_reducible apply fr_updHome
    | with_reducible apply fr_bump
    | with_reducible apply fr_defer
    | with_reducible apply fr_startTransfer
    | split)
theorem fr_startUp_eq {L : List Part} {s₀ s : State} (h₀ : Frame L s₀ s) {d : Nat} {p : Nat} {r₁ : _} {u₀ : State}
    (e₀ : State.startUp s d p = (u₀, r₁))
    (hL : ∀ p ∈ [Part.counters, .atLatch, .freeCtr, .out, .domTir], p ∈ L) : Frame L s₀ u₀ := by
  have x := fr_startUp h₀ d p hL
  rw [e₀] at x
  exact x

theorem fr_startDown {L : List Part} {s₀ s : State} (h₀ : Frame L s₀ s) (d : Nat) (p : Nat)
    (hL : ∀ p ∈ [Part.counters, .out, .domTir], p ∈ L) :
    Frame L s₀ (State.startDown s d p) := by
  unfold State.startDown
  repeat' (first
    | with_reducible assumption
    | exact sub_trans hL (by decide)
    | (extract_lets +onlyGivenNames x; first
        | (refine (fun (hx : Frame L s₀ x) => ?_) ?_; (on_goal 1 => clear_value x); (on_goal 2 => subst x))
        | subst x)
    | with_reducible apply fr_bump
    | with_reducible apply fr_updDom
    | with_reducible apply fr_updHome
    | with_reducible apply fr_unflushed
    | with_reducible apply fr_startTransfer
    | split
    | with_reducible apply dfr_freeFrame
    | with_reducible apply dfr_putEntry
    | with_reducible apply dfr_mk
    | with_reducible exact dfr_refl _ _
    | with_reducible exact Or.inr rfl
    | with_reducible exact Or.inr (same_mem _)
    | with_reducible exact Or.inr (same_domLife _)
    | with_reducible exact Or.inr (same_domRecord _)
    | with_reducible exact Or.inr (same_domPreempt _)
    | with_reducible exact Or.inr (same_domSlabs _)
    | with_reducible exact Or.inr (same_domSched _)
    | exact Or.inr (fun _ => rfl)
    | with_reducible exact Or.inl (hL .counters (by decide))
    | with_reducible exact Or.inl (hL .out (by decide))
    | with_reducible exact Or.inl (hL .domTir (by decide))
    | dsimp only
    | intro)

theorem fr_readPage {L : List Part} {s₀ s : State} (h₀ : Frame L s₀ s) (d : Nat) (p : Nat)
    (hL : ∀ p ∈ [Part.counters, .atLatch, .freeCtr, .out, .domTir], p ∈ L) :
    Frame L s₀ (State.readPage s d p) := by
  unfold State.readPage
  repeat' (first
    | with_reducible assumption
    | exact sub_trans hL (by decide)
    | with_reducible apply fr_startTransfer
    | with_reducible apply fr_startUp
    | (refine fr_startUp_eq ?_ (by assumption) ?_)
    | split)

theorem fr_served {L : List Part} {s₀ s : State} (h₀ : Frame L s₀ s) (d p : Nat)
    (hL : ∀ p ∈ [Part.domSlabs], p ∈ L) : Frame L s₀ (State.served s d p) := by
  unfold State.served
  exact fr_foldl _ (fun t y h => fr_updDom h _ _ (fun x => dfr_delivered (dfr_refl _ _) _ (sub_trans hL (by decide)))) _ h₀

theorem fr_readAgain {L : List Part} {s₀ s : State} (h₀ : Frame L s₀ s) (d : Nat) (h : Nat × Nat)
    (hL : ∀ p ∈ [Part.counters, .atLatch, .freeCtr, .out, .domTir], p ∈ L) :
    Frame L s₀ (State.readAgain s d h) := by
  unfold State.readAgain
  repeat' (first
    | with_reducible assumption
    | exact sub_trans hL (by decide)
    | with_reducible apply fr_readPage
    | with_reducible apply fr_foldl
    | with_reducible apply fr_foldl_fst
    | with_reducible apply fr_foldl_snd
    | (refine fr_foldl_fst_eq ?_ ?_ (by assumption))
    | (refine fr_foldl_snd_eq ?_ ?_ (by assumption))
    | split
    | dsimp only
    | intro)

theorem fr_homeFails {L : List Part} {s₀ s : State} (h₀ : Frame L s₀ s) (d : Nat) (p : Nat)
    (hL : ∀ p ∈ [Part.atLatch, .domVar], p ∈ L) :
    Frame L s₀ (State.homeFails s d p) := by
  unfold State.homeFails
  repeat' (first
    | with_reducible assumption
    | exact sub_trans hL (by decide)
    | with_reducible apply fr_abandonLoad
    | with_reducible apply fr_foldl
    | with_reducible apply fr_foldl_fst
    | with_reducible apply fr_foldl_snd
    | (refine fr_foldl_fst_eq ?_ ?_ (by assumption))
    | (refine fr_foldl_snd_eq ?_ ?_ (by assumption))
    | split
    | with_reducible apply fr_mk
    | with_reducible exact Or.inr rfl
    | with_reducible exact Or.inr (same_mem _)
    | with_reducible exact Or.inr (same_poison _)
    | with_reducible exact Or.inr (same_head _)
    | with_reducible exact same_ring _
    | exact Or.inr (fun _ => rfl)
    | with_reducible exact Or.inl (hL .atLatch (by decide))
    | with_reducible exact Or.inl (hL .domVar (by decide))
    | dsimp only
    | intro)

theorem fr_transferFails {L : List Part} {s₀ s : State} (h₀ : Frame L s₀ s) (d : Nat) (p : Nat) (code : Nat) (ns : Nat)
    (hL : ∀ p ∈ [Part.pciPending, .traceHead, .views, .counters, .stretch, .atLatch, .freeCtr, .out, .domSlabs, .domVar, .domTir], p ∈ L) :
    Frame L s₀ (State.transferFails s d p code ns) := by
  unfold State.transferFails
  repeat' (first
    | with_reducible assumption
    | exact sub_trans hL (by decide)
    | (extract_lets +onlyGivenNames x; first
        | (refine (fun (hx : Frame L s₀ x) => ?_) ?_; (on_goal 1 => clear_value x); (on_goal 2 => subst x))
        | ((have y : Bool := x); clear y; clear_value x)
        | subst x)
    | with_reducible apply fr_updDom
    | with_reducible apply fr_nvme
    | with_reducible apply fr_updHome
    | with_reducible apply fr_flashStall
    | with_reducible apply fr_freeEntry
    | with_reducible apply fr_unflushed
    | with_reducible apply fr_readAgain
    | with_reducible apply fr_homeFails
    | with_reducible apply fr_bump
    | with_reducible apply fr_raiseDom
    | split
    | with_reducible apply dfr_freeFrame
    | with_reducible apply dfr_flashFails
    | with_reducible apply dfr_mk
    | with_reducible exact dfr_refl _ _
    | with_reducible exact Or.inr rfl
    | with_reducible exact Or.inr (same_mem _)
    | with_reducible exact Or.inr (same_domLife _)
    | with_reducible exact Or.inr (same_domRecord _)
    | with_reducible exact Or.inr (same_domPreempt _)
    | with_reducible exact Or.inr (same_domSlabs _)
    | with_reducible exact Or.inr (same_domSched _)
    | exact Or.inr (fun _ => rfl)
    | with_reducible exact Or.inl (hL .pciPending (by decide))
    | with_reducible exact Or.inl (hL .traceHead (by decide))
    | with_reducible exact Or.inl (hL .views (by decide))
    | with_reducible exact Or.inl (hL .counters (by decide))
    | with_reducible exact Or.inl (hL .stretch (by decide))
    | with_reducible exact Or.inl (hL .atLatch (by decide))
    | with_reducible exact Or.inl (hL .freeCtr (by decide))
    | with_reducible exact Or.inl (hL .out (by decide))
    | with_reducible exact Or.inl (hL .domSlabs (by decide))
    | with_reducible exact Or.inl (hL .domVar (by decide))
    | with_reducible exact Or.inl (hL .domTir (by decide))
    | dsimp only
    | intro)

theorem fr_sweepTagFails {L : List Part} {s₀ s : State} (h₀ : Frame L s₀ s) (d : Nat) (p : Nat)
    (hL : ∀ p ∈ [Part.pciPending, .traceHead, .views, .counters, .out, .domKeys], p ∈ L) :
    Frame L s₀ (State.sweepTagFails s d p) := by
  unfold State.sweepTagFails
  repeat' (first
    | with_reducible assumption
    | exact sub_trans hL (by decide)
    | (extract_lets +onlyGivenNames x; subst x)
    | with_reducible apply fr_raiseDom
    | with_reducible apply fr_bump
    | with_reducible apply fr_updDom
    | split
    | with_reducible apply dfr_updKeys
    | with_reducible exact dfr_refl _ _
    | intro)

theorem fr_execPageReadDone {L : List Part} {s₀ s0 : State} (h₀ : Frame L s₀ s0) (d : Fin 64) (page : Nat) (returned : Option (List Byte)) (nowNs : Nat)
    (hL : ∀ p ∈ [Part.fuses, .pciPending, .tik, .traceHead, .views, .counters, .stretch, .atLatch, .freeCtr, .out, .domSlabs, .domVar, .domTir, .domKeys], p ∈ L) :
    FrameOut L s₀ (execPageReadDone d page returned nowNs s0) := by
  unfold execPageReadDone
  repeat' (first
    | with_reducible assumption
    | exact sub_trans hL (by decide)
    | (extract_lets +onlyGivenNames x; first
        | (refine (fun (hx : Frame L s₀ x) => ?_) ?_; (on_goal 1 => clear_value x); (on_goal 2 => subst x))
        | ((have y : Nat := x); clear y; clear_value x)
        | ((have y : Bool := x); clear y; clear_value x)
        | subst x)
    | with_reducible apply fr_atTime
    | with_reducible apply fr_sweepTagFails
    | with_reducible apply fr_flashStall
    | with_reducible apply fr_transferFails
    | with_reducible apply fr_served
    | with_reducible apply fr_defer
    | with_reducible apply fr_freeEntry
    | split
    | with_reducible apply fro_next)

theorem fr_execPageWriteDone {L : List Part} {s₀ s : State} (h₀ : Frame L s₀ s) (d : Fin 64) (page : Nat)
    (hL : ∀ p ∈ [Part.counters, .stretch, .atLatch, .out, .domSlabs, .domTir], p ∈ L) :
    FrameOut L s₀ (execPageWriteDone d page s) := by
  unfold execPageWriteDone
  repeat' (first
    | with_reducible assumption
    | exact sub_trans hL (by decide)
    | (extract_lets +onlyGivenNames x; first
        | subst x)
    | with_reducible apply fr_defer
    | with_reducible apply fr_unflushed
    | with_reducible apply fr_freeEntry
    | split
    | with_reducible apply fro_next)

theorem fr_execRootPortLinkUp {L : List Part} {s₀ s : State} (h₀ : Frame L s₀ s) (link : Fin 2) (speed : Nat) (width : Nat)
    (hL : ∀ p ∈ [Part.nvm], p ∈ L) :
    FrameOut L s₀ (execRootPortLinkUp link speed width s) := by
  unfold execRootPortLinkUp
  repeat' (first
    | with_reducible assumption
    | exact sub_trans hL (by decide)
    | (extract_lets +onlyGivenNames x; first
        | subst x)
    | split
    | with_reducible apply fr_mk
    | with_reducible exact Or.inr rfl
    | with_reducible exact Or.inr (same_mem _)
    | with_reducible exact Or.inr (same_poison _)
    | with_reducible exact Or.inr (same_head _)
    | with_reducible exact same_ring _
    | exact Or.inr (fun _ => rfl)
    | with_reducible exact Or.inl (hL .nvm (by decide))
    | with_reducible apply fro_next)

end Sys2Proof.Laws
end

