-- ==== Sys2Proof/Laws/FrameMigration.lean ====
section
/-! SUPPORT. What the operations of Machine/Migration.lean may change (Safety.Frame): each lemma lists the parts. -/

namespace Sys2Proof.Laws

open Sys2Proof.Machine Sys2Proof.Safety

theorem fr_runHint {L : List Part} {s₀ s : State} (h₀ : Frame L s₀ s) (d : Nat) (ws : List W64)
    (hL : ∀ p ∈ [Part.domTir], p ∈ L) : Frame L s₀ (s.runHint d ws).st := by
  unfold State.runHint
  dsimp only
  split
  · exact h₀
  · refine fr_tierPages _ _ (fun t p h => ?_) (sub_trans hL (by decide)) _ _ _ _ h₀
    split
    · exact fr_moveUpPage h _ _ (sub_trans hL (by decide))
    · exact fr_evictPage h _ _ (sub_trans hL (by decide))
    · exact fr_pinPage h _ _ (sub_trans hL (by decide))
    · exact fr_unpinPage h _ _ (sub_trans hL (by decide))

theorem fr_wrSide {L : List Part} {s₀ s : State} (h₀ : Frame L s₀ s) (d : Nat) (space : Nat) (a : Nat) (bs : List Byte)
    (hL : ∀ p ∈ [Part.commons, .commonsPoison, .domTir, .domMem, .domPoison], p ∈ L) :
    Frame L s₀ (State.wrSide s d space a bs) := by
  unfold State.wrSide
  repeat' (first
    | with_reducible assumption
    | exact sub_trans hL (by decide)
    | with_reducible apply fr_wrMem
    | with_reducible apply fr_wrCommons
    | split)

theorem fr_runMove {L : List Part} {s₀ s : State} (h₀ : Frame L s₀ s) (d : Nat) (b : MoveBody)
    (hL : ∀ p ∈ [Part.domTir, .domMem, .domPoison], p ∈ L) :
    Frame L s₀ (State.runMove s d b).st := by
  unfold State.runMove
  repeat' (first
    | with_reducible assumption
    | exact sub_trans hL (by decide)
    | (extract_lets +onlyGivenNames x; subst x)
    | with_reducible apply fr_wrMem
    | split)

theorem fr_runSeal {L : List Part} {s₀ s : State} (h₀ : Frame L s₀ s) (d : Nat) (b : MoveBody)
    (hL : ∀ p ∈ [Part.lks, .commons, .commonsPoison, .domTir, .domMem, .domPoison], p ∈ L) :
    Frame L s₀ (State.runSeal s d b).st := by
  unfold State.runSeal
  repeat' (first
    | with_reducible assumption
    | exact sub_trans hL (by decide)
    | (extract_lets +onlyGivenNames x; first
        | ((have y : Nat := x); clear y; clear_value x)
        | subst x)
    | with_reducible apply fr_takeDraw
    | with_reducible apply fr_wrSide
    | split)

theorem fr_runUnseal {L : List Part} {s₀ s : State} (h₀ : Frame L s₀ s) (d : Nat) (b : MoveBody)
    (hL : ∀ p ∈ [Part.commons, .commonsPoison, .freeCtr, .domTir, .domMem, .domPoison], p ∈ L) :
    Frame L s₀ (State.runUnseal s d b).st := by
  unfold State.runUnseal
  repeat' (first
    | with_reducible assumption
    | exact sub_trans hL (by decide)
    | (extract_lets +onlyGivenNames x; first
        | ((have y : Nat := x); clear y; clear_value x)
        | ((have y : List Byte := x); clear y; clear_value x)
        | subst x)
    | with_reducible apply fr_wrSide
    | with_reducible apply fr_takeFree
    | split)

theorem dfr_scrubPages {L : List Part} (x : Dom) (ps : List Nat)
    (hL : ∀ p ∈ [Part.domTir, .domMem, .domPoison], p ∈ L) : DomFrame L x (x.scrubPages ps) :=
  foldl_keeps (DomFrame L x) _ (fun _ _ hy => dfr_wipePage hy _ _ hL) _ (dfr_refl L x)

theorem fr_runScrub {L : List Part} {s₀ s : State} (h₀ : Frame L s₀ s) (ws : List W64)
    (hL : ∀ p ∈ [Part.domTir, .domMem, .domPoison], p ∈ L) : Frame L s₀ (s.runScrub ws).st := by
  unfold State.runScrub
  dsimp only
  split
  · exact h₀
  · exact fr_updDom h₀ 0 _ (fun x => dfr_scrubPages x _ (sub_trans hL (by decide)))

theorem fr_runMigration {L : List Part} {s₀ s : State} (h₀ : Frame L s₀ s) (d : Nat) (ws : List W64)
    (hL : ∀ p ∈ [Part.lks, .commons, .commonsPoison, .freeCtr, .domTir, .domMem, .domPoison], p ∈ L) :
    Frame L s₀ (State.runMigration s d ws).st := by
  unfold State.runMigration
  repeat' (first
    | with_reducible assumption
    | exact sub_trans hL (by decide)
    | with_reducible apply fr_runHint
    | with_reducible apply fr_runSeal
    | with_reducible apply fr_runUnseal
    | with_reducible apply fr_runMove
    | split)

end Sys2Proof.Laws
end

