-- ==== Sys2Proof/Laws/FrameArrive.lean ====
section
/-! SUPPORT. What the operations of Machine/Arrive.lean may change (Safety.Frame): each lemma lists the parts. -/

namespace Sys2Proof.Laws

open Sys2Proof.Machine Sys2Proof.Safety

theorem dfr_updSlab {L : List Part} {x₀ x : Dom} (h : DomFrame L x₀ x) (order : Nat) (f : Slab → Slab)
    (hL : ∀ p ∈ [Part.domSlabs], p ∈ L) :
    DomFrame L x₀ (x.updSlab order f) := by
  refine dfr_trans h ?_
  unfold Dom.updSlab
  with_reducible apply dfr_mk
  repeat' first
    | with_reducible exact Or.inr rfl
    | with_reducible exact Or.inr (same_domLife _)
    | with_reducible exact Or.inr (same_domRecord _)
    | with_reducible exact Or.inr (same_domPreempt _)
    | with_reducible exact Or.inr (same_domSlabs _)
    | with_reducible exact Or.inr (same_domSched _)
    | with_reducible exact Or.inr (same_mem _)
    | exact Or.inl (hL .domSlabs (by decide))

theorem fr_noteUnloaded {L : List Part} {s₀ s : State} (h₀ : Frame L s₀ s) (d : Nat) (order : Nat) (ws : List W64)
    (hL : ∀ p ∈ [Part.domSlabs], p ∈ L) :
    Frame L s₀ (State.noteUnloaded s d order ws) := by
  unfold State.noteUnloaded
  repeat' (first
    | with_reducible assumption
    | exact sub_trans hL (by decide)
    | (extract_lets +onlyGivenNames x; first
        | subst x)
    | with_reducible apply fr_noteOperand
    | split)

theorem fr_returnCredit {L : List Part} {s₀ s : State} (h₀ : Frame L s₀ s) (d : Nat) (words : Nat)
    (hL : ∀ p ∈ [Part.pci, .pciPending, .out, .domQueue], p ∈ L) :
    Frame L s₀ (State.returnCredit s d words) := by
  unfold State.returnCredit
  repeat' (first
    | with_reducible assumption
    | exact sub_trans hL (by decide)
    | (extract_lets +onlyGivenNames x; first
        | (refine (fun (hx : Frame L s₀ x) => ?_) ?_; (on_goal 1 => clear_value x); (on_goal 2 => subst x))
        | ((have y : Nat := x); clear y; clear_value x))
    | with_reducible apply fr_updDom
    | with_reducible apply fr_msix
    | with_reducible apply fr_updPci
    | split
    | with_reducible apply dfr_updQueue
    | with_reducible exact dfr_refl _ _
    | exact Or.inr (fun _ => rfl)
    | with_reducible exact Or.inl (hL .pci (by decide))
    | intro)

theorem fr_updSlab {L : List Part} {s₀ s : State} (h₀ : Frame L s₀ s) (d : Nat) (order : Nat) (f : Slab → Slab)
    (hL : ∀ p ∈ [Part.domSlabs], p ∈ L) :
    Frame L s₀ (State.updSlab s d order f) := by
  unfold State.updSlab
  repeat' (first
    | with_reducible assumption
    | exact sub_trans hL (by decide)
    | with_reducible apply fr_updDom
    | with_reducible apply dfr_updSlab
    | with_reducible exact dfr_refl _ _
    | intro)

theorem fr_creditSlab {L : List Part} {s₀ s : State} (h₀ : Frame L s₀ s) (d : Nat) (b : Slab)
    (hL : ∀ p ∈ [Part.pci, .pciPending, .out, .domQueue, .domSlabs], p ∈ L) :
    Frame L s₀ (State.creditSlab s d b) := by
  unfold State.creditSlab
  repeat' (first
    | with_reducible assumption
    | exact sub_trans hL (by decide)
    | with_reducible apply fr_returnCredit
    | with_reducible apply fr_updSlab
    | split)

theorem fr_endBatch {L : List Part} {s₀ s : State} (h₀ : Frame L s₀ s) (d : Nat) (ws : List W64)
    (hL : ∀ p ∈ [Part.domSlabs], p ∈ L) :
    Frame L s₀ (State.endBatch s d ws) := by
  unfold State.endBatch
  repeat' (first
    | with_reducible assumption
    | exact sub_trans hL (by decide)
    | (extract_lets +onlyGivenNames x; ((have y : Hdr := x); clear y; clear_value x))
    | with_reducible apply fr_updDom
    | split
    | with_reducible apply dfr_mk
    | with_reducible exact Or.inr rfl
    | with_reducible exact Or.inr (same_mem _)
    | with_reducible exact Or.inr (same_domLife _)
    | with_reducible exact Or.inr (same_domRecord _)
    | with_reducible exact Or.inr (same_domPreempt _)
    | with_reducible exact Or.inr (same_domSched _)
    | with_reducible exact Or.inl (hL .domSlabs (by decide))
    | intro)

theorem fr_resolve {L : List Part} {s₀ s : State} (h₀ : Frame L s₀ s) (d : Nat) (order : Nat) (st : Status)
    (hL : ∀ p ∈ [Part.domSlabs], p ∈ L) :
    Frame L s₀ (State.resolve s d order st) := by
  unfold State.resolve
  repeat' (first
    | with_reducible assumption
    | exact sub_trans hL (by decide)
    | with_reducible apply fr_updDom
    | split
    | with_reducible apply dfr_mk
    | with_reducible exact Or.inr rfl
    | with_reducible exact Or.inr (same_mem _)
    | with_reducible exact Or.inr (same_domLife _)
    | with_reducible exact Or.inr (same_domRecord _)
    | with_reducible exact Or.inr (same_domPreempt _)
    | with_reducible exact Or.inr (same_domSched _)
    | with_reducible exact Or.inl (hL .domSlabs (by decide))
    | intro)

theorem fr_endSlab {L : List Part} {s₀ s : State} (h₀ : Frame L s₀ s) (d : Nat) (b : Slab) (st : Status)
    (hL : ∀ p ∈ [Part.pci, .pciPending, .out, .domQueue, .domSlabs], p ∈ L) :
    Frame L s₀ (State.endSlab s d b st) := by
  unfold State.endSlab
  repeat' (first
    | with_reducible assumption
    | exact sub_trans hL (by decide)
    | (extract_lets +onlyGivenNames x; (refine (fun (hx : Frame L s₀ x) => ?_) ?_; (on_goal 1 => clear_value x); (on_goal 2 => subst x)))
    | with_reducible apply fr_creditSlab
    | with_reducible apply fr_updSlab
    | with_reducible apply fr_endBatch
    | with_reducible apply fr_resolve)

end Sys2Proof.Laws
end

