-- ==== Sys2Proof/Laws/FrameBase.lean ====
section
/-! SUPPORT. What the operations of Machine/Base.lean may change (Safety.Frame): each lemma lists the parts. -/

namespace Sys2Proof.Laws

open Sys2Proof.Machine Sys2Proof.Safety

theorem fr_pickSpan {L : List Part} {s₀ s : State} (h₀ : Frame L s₀ s) (n : Nat) (free : List (Nat × Nat))
    (hL : ∀ p ∈ [Part.freeCtr], p ∈ L) :
    Frame L s₀ (State.pickSpan s n free).2 := by
  unfold State.pickSpan
  repeat' (first
    | with_reducible assumption
    | exact sub_trans hL (by decide)
    | (extract_lets +onlyGivenNames x; first
        | subst x)
    | with_reducible apply fr_takeFree)
theorem fr_pickSpan_eq {L : List Part} {s₀ s : State} (h₀ : Frame L s₀ s) {n : Nat} {free : List (Nat × Nat)} {r₀ : _} {u₀ : State}
    (e₀ : State.pickSpan s n free = (r₀, u₀))
    (hL : ∀ p ∈ [Part.freeCtr], p ∈ L) : Frame L s₀ u₀ := by
  have x := fr_pickSpan h₀ n free hL
  rw [e₀] at x
  exact x

theorem fr_pickSpans {L : List Part} {s₀ s : State} (h₀ : Frame L s₀ s) (a1 : List Nat) (a2 : List (Nat × Nat))
    (hL : ∀ p ∈ [Part.freeCtr], p ∈ L) : Frame L s₀ (State.pickSpans a1 a2 s).2 := by
  induction a1 generalizing s a2 with
  | nil => exact h₀
  | cons n r ih =>
    unfold State.pickSpans
    split
    · exact fr_pickSpan_eq h₀ (by assumption) hL
    · rename_i x a s1 e
      have h := ih (fr_pickSpan_eq h₀ e hL) (runsCut a2 a n)
      split <;> (rename_i e2; rw [e2] at h; exact h)

theorem fr_pickSpans_eq {L : List Part} {s₀ s : State} (h₀ : Frame L s₀ s) {a1 : List Nat} {a2 : List (Nat × Nat)} {r₀ : _} {u₀ : State}
    (e₀ : State.pickSpans a1 a2 s = (r₀, u₀))
    (hL : ∀ p ∈ [Part.freeCtr], p ∈ L) : Frame L s₀ u₀ := by
  have x := fr_pickSpans h₀ a1 a2 hL
  rw [e₀] at x
  exact x

theorem fr_placeT {L : List Part} {s₀ s : State} (h₀ : Frame L s₀ s) (ts : List Tensor)
    (hL : ∀ p ∈ [Part.freeCtr], p ∈ L) : Frame L s₀ (State.placeT s ts).2 := by
  unfold State.placeT
  refine foldl_keeps (fun (a : List Tensor × List (Nat × Nat) × State) => Frame L s₀ a.2.2) _ (fun a i ha => ?_) _ h₀
  dsimp only
  split
  · exact ha
  · split <;> exact fr_pickSpans_eq ha (by assumption) hL

theorem fr_placeT_eq {L : List Part} {s₀ s : State} (h₀ : Frame L s₀ s) {ts : List Tensor} {r₀ : _} {u₀ : State}
    (e₀ : State.placeT s ts = (r₀, u₀))
    (hL : ∀ p ∈ [Part.freeCtr], p ∈ L) : Frame L s₀ u₀ := by
  have x := fr_placeT h₀ ts hL
  rw [e₀] at x
  exact x

theorem fr_takePages {L : List Part} {s₀ s : State} (h₀ : Frame L s₀ s) (k : Nat) (q : Nat)
    (hL : ∀ p ∈ [Part.bas, .freeCtr], p ∈ L) :
    Frame L s₀ (State.takePages s k q) := by
  unfold State.takePages
  repeat' (first
    | with_reducible assumption
    | exact sub_trans hL (by decide)
    | (extract_lets +onlyGivenNames x; first
        | ((have y : Nat := x); clear y; clear_value x)
        | subst x)
    | with_reducible apply fr_pickRuns
    | (refine fr_pickRuns_eq ?_ (by assumption) ?_)
    | with_reducible apply fr_updCopy
    | split)

theorem fr_buildCheck {L : List Part} {s₀ s : State} (h₀ : Frame L s₀ s) (k : Nat)
    (hL : ∀ p ∈ [Part.pciPending, .bas, .traceHead, .views, .counters, .out], p ∈ L) :
    Frame L s₀ (State.buildCheck s k) := by
  unfold State.buildCheck
  repeat' (first
    | with_reducible assumption
    | exact sub_trans hL (by decide)
    | (extract_lets +onlyGivenNames x; subst x)
    | with_reducible apply fr_raiseDev
    | with_reducible apply fr_putCopy
    | split)

theorem fr_failReplays {L : List Part} {s₀ s : State} (h₀ : Frame L s₀ s) (k : Nat) (q : Nat)
    (hL : ∀ p ∈ [Part.pci, .pciPending, .out, .domQueue, .domSlabs], p ∈ L) :
    Frame L s₀ (State.failReplays s k q) := by
  unfold State.failReplays
  repeat' (first
    | with_reducible assumption
    | exact sub_trans hL (by decide)
    | with_reducible apply fr_eachDom
    | with_reducible apply fr_endSlab
    | with_reducible apply fr_foldl
    | split
    | dsimp only
    | intro)

theorem fr_stripeLost {L : List Part} {s₀ s : State} (h₀ : Frame L s₀ s) (k : Nat) (q : Nat)
    (hL : ∀ p ∈ [Part.pci, .pciPending, .bas, .traceHead, .views, .counters, .out, .domQueue, .domSlabs], p ∈ L) :
    Frame L s₀ (State.stripeLost s k q) := by
  unfold State.stripeLost
  repeat' (first
    | with_reducible assumption
    | exact sub_trans hL (by decide)
    | with_reducible apply fr_updCopy
    | with_reducible apply fr_failReplays
    | with_reducible apply fr_raiseDev
    | with_reducible apply fr_buildCheck)

theorem fr_sourceFails {L : List Part} {s₀ s : State} (h₀ : Frame L s₀ s) (k : Nat) (q : Nat)
    (hL : ∀ p ∈ [Part.pci, .pciPending, .bas, .traceHead, .views, .counters, .out, .domQueue, .domSlabs], p ∈ L) :
    Frame L s₀ (State.sourceFails s k q) := by
  unfold State.sourceFails
  repeat' (first
    | with_reducible assumption
    | exact sub_trans hL (by decide)
    | (extract_lets +onlyGivenNames x; first
        | ((have y : Nat := x); clear y; clear_value x)
        | subst x)
    | with_reducible apply fr_updCopy
    | with_reducible apply fr_stripeLost
    | split)

theorem fr_movePage {L : List Part} {s₀ s : State} (h₀ : Frame L s₀ s) (k : Nat) (q : Nat)
    (hL : ∀ p ∈ [Part.bas, .freeCtr], p ∈ L) :
    Frame L s₀ (State.movePage s k q) := by
  unfold State.movePage
  repeat' (first
    | with_reducible assumption
    | exact sub_trans hL (by decide)
    | (extract_lets +onlyGivenNames x; first
        | subst x)
    | with_reducible apply fr_pickRuns
    | (refine fr_pickRuns_eq ?_ (by assumption) ?_)
    | with_reducible apply fr_updCopy
    | split)

theorem fr_writeStripe {L : List Part} {s₀ s : State} (h₀ : Frame L s₀ s) (k : Nat) (q : Nat) (bytes : List Byte) (f : Stripe → Stripe)
    (hL : ∀ p ∈ [Part.bas], p ∈ L) :
    Frame L s₀ (State.writeStripe s k q bytes f) := by
  unfold State.writeStripe
  repeat' (first
    | with_reducible assumption
    | exact sub_trans hL (by decide)
    | with_reducible apply fr_updCopy)

theorem fr_stripeArrives {L : List Part} {s₀ s : State} (h₀ : Frame L s₀ s) (k : Nat) (q : Nat) (src : StripeSource) (bytes : List Byte)
    (hL : ∀ p ∈ [Part.pci, .pciPending, .bas, .traceHead, .views, .counters, .freeCtr, .out, .domQueue, .domSlabs], p ∈ L) :
    Frame L s₀ (State.stripeArrives s k q src bytes) := by
  unfold State.stripeArrives
  repeat' (first
    | with_reducible assumption
    | exact sub_trans hL (by decide)
    | (extract_lets +onlyGivenNames x; first
        | (refine (fun (hx : Frame L s₀ x) => ?_) ?_; (on_goal 1 => clear_value x); (on_goal 2 => subst x))
        | ((have y : Bool := x); clear y; clear_value x)
        | subst x)
    | with_reducible apply fr_bump
    | with_reducible apply fr_sourceFails
    | with_reducible apply fr_takePages
    | with_reducible apply fr_writeStripe
    | with_reducible apply fr_pickRuns
    | (refine fr_pickRuns_eq ?_ (by assumption) ?_)
    | with_reducible apply fr_movePage
    | with_reducible apply fr_updBas
    | with_reducible apply fr_buildCheck
    | split)

theorem fr_refetched {L : List Part} {s₀ s : State} (h₀ : Frame L s₀ s) (k : Nat) (q : Nat) (src : StripeSource) (bytes : List Byte)
    (hL : ∀ p ∈ [Part.pci, .pciPending, .bas, .traceHead, .views, .counters, .freeCtr, .out, .domQueue, .domSlabs], p ∈ L) :
    Frame L s₀ (State.refetched s k q src bytes) := by
  unfold State.refetched
  repeat' (first
    | with_reducible assumption
    | exact sub_trans hL (by decide)
    | with_reducible apply fr_movePage
    | with_reducible apply fr_writeStripe
    | with_reducible apply fr_bump
    | with_reducible apply fr_sourceFails
    | split)

theorem fr_deviceStall {L : List Part} {s₀ s : State} (h₀ : Frame L s₀ s) (code : Nat) (ns : Nat)
    (hL : ∀ p ∈ [Part.tik, .stretch], p ∈ L) :
    Frame L s₀ (State.deviceStall s code ns) := by
  unfold State.deviceStall
  repeat' (first
    | with_reducible assumption
    | exact sub_trans hL (by decide)
    | with_reducible apply fr_updTik
    | with_reducible apply fr_addStretch)

theorem fr_basCmd {L : List Part} {s₀ s : State} (h₀ : Frame L s₀ s) (v : View) (posted : Bool) (op rsv : Nat) (f : Nat → State → State × Nat)
    (hf : ∀ c t, Frame L s₀ t → Frame L s₀ (f c t).1)
    (hL : ∀ p ∈ [Part.pciPending, .traceHead, .views, .pairs, .counters, .out], p ∈ L) : Frame L s₀ (s.basCmd v posted op rsv f) := by
  unfold State.basCmd
  split
  · exact h₀
  · refine fr_runCmd h₀ _ _ _ _ ?_ (sub_trans hL (by decide))
    dsimp only
    split
    · exact h₀
    · exact hf _ _ h₀

theorem fr_newCopy {L : List Part} {s₀ s : State} (h₀ : Frame L s₀ s) (a : Nat) (m : Manifest) (ts : List Tensor) (moe : List Nat) (peers : List (Nat × Bool))
    (hL : ∀ p ∈ [Part.freeCtr], p ∈ L) :
    Frame L s₀ (State.newCopy s a m ts moe peers).2 := by
  unfold State.newCopy
  repeat' (first
    | with_reducible assumption
    | exact sub_trans hL (by decide)
    | (extract_lets +onlyGivenNames x; first
        | subst x)
    | with_reducible apply fr_placeT
    | (refine fr_placeT_eq ?_ (by assumption) ?_)
    | with_reducible apply fr_pickRuns)
theorem fr_newCopy_eq {L : List Part} {s₀ s : State} (h₀ : Frame L s₀ s) {a : Nat} {m : Manifest} {ts : List Tensor} {moe : List Nat} {peers : List (Nat × Bool)} {r₀ : _} {u₀ : State}
    (e₀ : State.newCopy s a m ts moe peers = (r₀, u₀))
    (hL : ∀ p ∈ [Part.freeCtr], p ∈ L) : Frame L s₀ u₀ := by
  have x := fr_newCopy h₀ a m ts moe peers hL
  rw [e₀] at x
  exact x

theorem fr_takeRegion {L : List Part} {s₀ s : State} (h₀ : Frame L s₀ s)
    (hL : ∀ p ∈ [Part.bas, .freeFrames], p ∈ L) :
    Frame L s₀ (State.takeRegion s) := by
  unfold State.takeRegion
  repeat' (first
    | with_reducible assumption
    | exact sub_trans hL (by decide)
    | split
    | with_reducible apply fr_mk
    | with_reducible exact Or.inr rfl
    | with_reducible exact Or.inr (same_mem _)
    | with_reducible exact Or.inr (same_poison _)
    | with_reducible exact Or.inr (same_head _)
    | with_reducible exact same_ring _
    | exact Or.inr (fun _ => rfl)
    | with_reducible exact Or.inl (hL .bas (by decide))
    | with_reducible exact Or.inl (hL .freeFrames (by decide)))

theorem fr_build {L : List Part} {s₀ s0 : State} (h₀ : Frame L s₀ s0) (k : Nat) (cmdCopy : Nat) (errors : List ReadError)
    (hL : ∀ p ∈ [Part.pciPending, .bas, .traceHead, .mbds, .units, .views, .counters, .commonsPoison, .freeFrames, .freeCtr, .out, .domPoison], p ∈ L) :
    Frame L s₀ (State.build s0 k cmdCopy errors).1 := by
  unfold State.build
  repeat' (first
    | with_reducible assumption
    | exact sub_trans hL (by decide)
    | (extract_lets +onlyGivenNames x; first
        | (refine (fun (hx : Frame L s₀ x) => ?_) ?_; (on_goal 1 => clear_value x); (on_goal 2 => subst x))
        | ((have y : Nat := x); clear y; clear_value x)
        | ((have y : Bool := x); clear y; clear_value x)
        | subst x)
    | with_reducible apply fr_meetErrors
    | (refine fr_meetErrors_eq ?_ (by assumption) ?_)
    | with_reducible apply fr_takeRegion
    | with_reducible apply fr_newCopy
    | (refine fr_newCopy_eq ?_ (by assumption) ?_)
    | with_reducible apply fr_putCopy
    | with_reducible apply fr_updBas
    | with_reducible apply fr_buildCheck
    | split)
theorem fr_build_eq {L : List Part} {s₀ s0 : State} (h₀ : Frame L s₀ s0) {k : Nat} {cmdCopy : Nat} {errors : List ReadError} {r₁ : _} {u₀ : State}
    (e₀ : State.build s0 k cmdCopy errors = (u₀, r₁))
    (hL : ∀ p ∈ [Part.pciPending, .bas, .traceHead, .mbds, .units, .views, .counters, .commonsPoison, .freeFrames, .freeCtr, .out, .domPoison], p ∈ L) : Frame L s₀ u₀ := by
  have x := fr_build h₀ k cmdCopy errors hL
  rw [e₀] at x
  exact x

theorem fr_execBuild {L : List Part} {s₀ s : State} (h₀ : Frame L s₀ s) (v : View) (posted : Bool) (of : BuildOf) (rsv : BitVec 59)
    (hL : ∀ p ∈ [Part.pciPending, .bas, .traceHead, .mbds, .units, .views, .pairs, .counters, .commonsPoison, .freeFrames, .freeCtr, .out, .domPoison], p ∈ L) :
    FrameOut L s₀ (execBuild v posted of rsv s) := by
  unfold execBuild
  repeat' (first
    | with_reducible assumption
    | exact sub_trans hL (by decide)
    | with_reducible apply fr_basCmd
    | with_reducible apply fr_build
    | (refine fr_build_eq ?_ (by assumption) ?_)
    | split
    | with_reducible apply fro_next
    | dsimp only
    | intro)

theorem fr_execSwitch {L : List Part} {s₀ s : State} (h₀ : Frame L s₀ s) (v : View) (posted : Bool) (copy : Bool)
    (rsv : BitVec 59)
    (hL : ∀ p ∈ [Part.pciPending, .bas, .traceHead, .views, .pairs, .counters, .out], p ∈ L) :
    FrameOut L s₀ (execSwitch v posted copy rsv s) := by
  unfold execSwitch
  repeat' (first
    | with_reducible assumption
    | exact sub_trans hL (by decide)
    | (extract_lets +onlyGivenNames x; ((have y : Nat := x); clear y; clear_value x))
    | with_reducible apply fr_basCmd
    | with_reducible apply fr_updBas
    | split
    | with_reducible apply fro_next
    | dsimp only
    | intro)

theorem fr_execAbort {L : List Part} {s₀ s : State} (h₀ : Frame L s₀ s) (v : View) (posted : Bool) (copy : Bool)
    (rsv : BitVec 59)
    (hL : ∀ p ∈ [Part.pciPending, .bas, .traceHead, .views, .pairs, .counters, .out], p ∈ L) :
    FrameOut L s₀ (execAbort v posted copy rsv s) := by
  unfold execAbort
  repeat' (first
    | with_reducible assumption
    | exact sub_trans hL (by decide)
    | (extract_lets +onlyGivenNames x; ((have y : Nat := x); clear y; clear_value x))
    | with_reducible apply fr_basCmd
    | with_reducible apply fr_updBas
    | with_reducible apply fr_putCopy
    | split
    | with_reducible apply fro_next
    | dsimp only
    | intro)

theorem fr_execBasStage {L : List Part} {s₀ s : State} (h₀ : Frame L s₀ s) (v : View) (posted : Bool) (copy : Bool)
    (rsv : BitVec 59)
    (hL : ∀ p ∈ [Part.pciPending, .bas, .traceHead, .views, .pairs, .counters, .out], p ∈ L) :
    FrameOut L s₀ (execBasStage v posted copy rsv s) := by
  unfold execBasStage
  repeat' (first
    | with_reducible assumption
    | exact sub_trans hL (by decide)
    | (extract_lets +onlyGivenNames x; ((have y : Bool := x); clear y; clear_value x))
    | with_reducible apply fr_basCmd
    | with_reducible apply fr_putCopy
    | split
    | with_reducible apply fro_next
    | dsimp only
    | intro)

theorem fr_execBasUnstage {L : List Part} {s₀ s : State} (h₀ : Frame L s₀ s) (v : View) (posted : Bool) (copy : Bool)
    (rsv : BitVec 59)
    (hL : ∀ p ∈ [Part.pciPending, .bas, .traceHead, .views, .pairs, .counters, .out], p ∈ L) :
    FrameOut L s₀ (execBasUnstage v posted copy rsv s) := by
  unfold execBasUnstage
  repeat' (first
    | with_reducible assumption
    | exact sub_trans hL (by decide)
    | (extract_lets +onlyGivenNames x; ((have y : Bool := x); clear y; clear_value x))
    | with_reducible apply fr_basCmd
    | with_reducible apply fr_putCopy
    | split
    | with_reducible apply fro_next
    | dsimp only
    | intro)

theorem fr_execBasQuery {L : List Part} {s₀ s : State} (h₀ : Frame L s₀ s) (v : View) (posted : Bool) (copy : Bool)
    (rsv : BitVec 59)
    (hL : ∀ p ∈ [Part.pciPending, .traceHead, .views, .pairs, .counters, .out], p ∈ L) :
    FrameOut L s₀ (execBasQuery v posted copy rsv s) := by
  unfold execBasQuery
  repeat' (first
    | with_reducible assumption
    | exact sub_trans hL (by decide)
    | (extract_lets +onlyGivenNames x; ((have y : Bool := x); clear y; clear_value x))
    | with_reducible apply fr_basCmd
    | with_reducible apply fr_putArg
    | with_reducible apply fro_next
    | dsimp only
    | intro)

theorem fr_releaseCopy {L : List Part} {s₀ s : State} (h₀ : Frame L s₀ s) (k : Nat)
    (hL : ∀ p ∈ [Part.pciPending, .bas, .traceHead, .views, .counters, .out], p ∈ L) :
    Frame L s₀ (State.releaseCopy s k) := by
  unfold State.releaseCopy
  repeat' (first
    | with_reducible assumption
    | exact sub_trans hL (by decide)
    | (extract_lets +onlyGivenNames x; subst x)
    | with_reducible apply fr_raiseDev
    | with_reducible apply fr_putCopy
    | split)

theorem fr_latchSwitch {L : List Part} {s₀ s : State} (h₀ : Frame L s₀ s) (tick : Nat)
    (hL : ∀ p ∈ [Part.bas], p ∈ L) :
    Frame L s₀ (State.latchSwitch s tick) := by
  unfold State.latchSwitch
  repeat' (first
    | with_reducible assumption
    | exact sub_trans hL (by decide)
    | (extract_lets +onlyGivenNames x; (refine (fun (hx : Frame L s₀ x) => ?_) ?_; (on_goal 1 => clear_value x); (on_goal 2 => subst x)))
    | with_reducible apply fr_updCopy
    | with_reducible apply fr_updBas
    | split)

theorem fr_latchBasUnstage {L : List Part} {s₀ s : State} (h₀ : Frame L s₀ s) (k : Nat)
    (hL : ∀ p ∈ [Part.bas], p ∈ L) :
    Frame L s₀ (State.latchBasUnstage s k) := by
  unfold State.latchBasUnstage
  repeat' (first
    | with_reducible assumption
    | exact sub_trans hL (by decide)
    | (extract_lets +onlyGivenNames x; first
        | ((have y : List Nat := x); clear y; clear_value x)
        | subst x)
    | with_reducible apply fr_putCopy
    | split)

theorem fr_latchBase {L : List Part} {s₀ s : State} (h₀ : Frame L s₀ s) 
    (hL : ∀ p ∈ [Part.bas], p ∈ L) :
    Frame L s₀ (State.latchBase s) := by
  unfold State.latchBase
  repeat' (first
    | with_reducible assumption
    | exact sub_trans hL (by decide)
    | (extract_lets +onlyGivenNames x; (refine (fun (hx : Frame L s₀ x) => ?_) ?_; (on_goal 1 => clear_value x); (on_goal 2 => subst x)))
    | with_reducible apply fr_updBas
    | with_reducible apply fr_latchBasUnstage
    | with_reducible apply fr_updCopy)

end Sys2Proof.Laws
end

