-- ==== Sys2Proof/Laws/FrameHostIf.lean ====
section
/-! SUPPORT. What the operations of Machine/HostIf.lean may change (Safety.Frame): each lemma lists the parts. -/

namespace Sys2Proof.Laws

open Sys2Proof.Machine Sys2Proof.Safety

theorem fr_poisonedTlp {L : List Part} {s₀ s : State} (h₀ : Frame L s₀ s) (fn : Nat)
    (hL : ∀ p ∈ [Part.pci, .pciPending, .traceHead, .views, .counters, .out], p ∈ L) :
    Frame L s₀ (State.poisonedTlp s fn) := by
  unfold State.poisonedTlp
  repeat' (first
    | with_reducible assumption
    | exact sub_trans hL (by decide)
    | (extract_lets +onlyGivenNames x; first
        | (refine (fun (hx : Frame L s₀ x) => ?_) ?_; (on_goal 1 => clear_value x); (on_goal 2 => subst x))
        | ((have y : List Nat := x); clear y; clear_value x))
    | with_reducible apply fr_updPci
    | with_reducible apply fr_bump
    | with_reducible apply fr_setEvent
    | with_reducible apply fr_emit
    | with_reducible apply fr_trace
    | with_reducible apply fr_foldl
    | exact Or.inr (fun _ => rfl)
    | with_reducible exact Or.inl (hL .pci (by decide))
    | intro)

theorem fr_arrive {L : List Part} {s₀ s : State} (h₀ : Frame L s₀ s) (d : Nat) (ws : List W64)
    (hL : ∀ p ∈ [Part.pci, .pciPending, .out, .domQueue, .domSlabs], p ∈ L) :
    Frame L s₀ (State.arrive s d ws) := by
  unfold State.arrive
  repeat' (first
    | with_reducible assumption
    | exact sub_trans hL (by decide)
    | (extract_lets +onlyGivenNames x; first
        | (refine (fun (hx : Frame L s₀ x) => ?_) ?_; (on_goal 1 => clear_value x); (on_goal 2 => subst x))
        | ((have y : Bool := x); clear y; clear_value x)
        | ((have y : Slab := x); clear y; clear_value x)
        | subst x)
    | with_reducible apply fr_updDom
    | with_reducible apply fr_noteUnloaded
    | with_reducible apply fr_creditSlab
    | with_reducible apply fr_endBatch
    | split
    | with_reducible apply dfr_mk
    | with_reducible exact dfr_refl _ _
    | with_reducible exact Or.inr rfl
    | with_reducible exact Or.inr (same_mem _)
    | with_reducible exact Or.inr (same_domLife _)
    | with_reducible exact Or.inr (same_domRecord _)
    | with_reducible exact Or.inr (same_domPreempt _)
    | with_reducible exact Or.inr (same_domSlabs _)
    | with_reducible exact Or.inr (same_domSched _)
    | exact Or.inr (fun _ => rfl)
    | with_reducible exact Or.inl (hL .pci (by decide))
    | with_reducible exact Or.inl (hL .pciPending (by decide))
    | with_reducible exact Or.inl (hL .out (by decide))
    | with_reducible exact Or.inl (hL .domQueue (by decide))
    | with_reducible exact Or.inl (hL .domSlabs (by decide))
    | dsimp only
    | intro)

theorem fr_haltQueue {L : List Part} {s₀ s : State} (h₀ : Frame L s₀ s) (d : Nat)
    (hL : ∀ p ∈ [Part.domQueue], p ∈ L) :
    Frame L s₀ (State.haltQueue s d) := by
  unfold State.haltQueue
  repeat' (first
    | with_reducible assumption
    | exact sub_trans hL (by decide)
    | with_reducible apply fr_updDom
    | with_reducible apply dfr_updQueue
    | with_reducible exact dfr_refl _ _
    | intro)

theorem fr_submitWord {L : List Part} {s₀ s : State} (h₀ : Frame L s₀ s) (d : Nat) (w : TlpWord)
    (hL : ∀ p ∈ [Part.pci, .pciPending, .traceHead, .views, .counters, .out, .domQueue, .domSlabs], p ∈ L) :
    Frame L s₀ (State.submitWord s d w) := by
  unfold State.submitWord
  repeat' (first
    | with_reducible assumption
    | exact sub_trans hL (by decide)
    | (extract_lets +onlyGivenNames x; first
        | (refine (fun (hx : Frame L s₀ x) => ?_) ?_; (on_goal 1 => clear_value x); (on_goal 2 => subst x))
        | subst x)
    | with_reducible apply fr_bump
    | with_reducible apply fr_raiseDom
    | with_reducible apply fr_haltQueue
    | with_reducible apply fr_updDom
    | with_reducible apply fr_arrive
    | split
    | with_reducible apply dfr_updQueue
    | with_reducible exact dfr_refl _ _
    | intro)

theorem fr_execSubmitWord {L : List Part} {s₀ s : State} (h₀ : Frame L s₀ s) (fn : Fin 64) (words : List TlpWord)
    (poisoned : Bool)
    (hL : ∀ p ∈ [Part.pci, .pciPending, .traceHead, .views, .counters, .out, .domQueue, .domSlabs], p ∈ L) :
    FrameOut L s₀ (execSubmitWord fn words poisoned s) := by
  unfold execSubmitWord
  repeat' (first
    | with_reducible assumption
    | exact sub_trans hL (by decide)
    | (extract_lets +onlyGivenNames x; ((have y : Nat := x); clear y; clear_value x))
    | with_reducible apply fr_submitWord
    | with_reducible apply fr_poisonedTlp
    | with_reducible apply fr_foldl
    | split
    | with_reducible apply fro_next
    | intro)

theorem fr_execQueueReset {L : List Part} {s₀ s : State} (h₀ : Frame L s₀ s) (fn : Fin 64)
    (hL : ∀ p ∈ [Part.pci, .pciPending, .out, .domQueue], p ∈ L) :
    FrameOut L s₀ (execQueueReset fn s) := by
  unfold execQueueReset
  repeat' (first
    | with_reducible assumption
    | exact sub_trans hL (by decide)
    | (extract_lets +onlyGivenNames x; first
        | (refine (fun (hx : Frame L s₀ x) => ?_) ?_; (on_goal 1 => clear_value x); (on_goal 2 => subst x))
        | ((have y : Nat := x); clear y; clear_value x))
    | with_reducible apply fr_returnCredit
    | with_reducible apply fr_updDom
    | split
    | with_reducible apply dfr_updQueue
    | with_reducible apply fro_next
    | with_reducible exact dfr_refl _ _
    | intro)

theorem fr_execComplRead {L : List Part} {s₀ s : State} (h₀ : Frame L s₀ s) (fn : Fin 64)
    (hL : ∀ p ∈ [Part.out, .domQueue], p ∈ L) :
    FrameOut L s₀ (execComplRead fn s) := by
  unfold execComplRead
  repeat' (first
    | with_reducible assumption
    | exact sub_trans hL (by decide)
    | (extract_lets +onlyGivenNames x; ((have y : Nat := x); clear y; clear_value x))
    | with_reducible apply fr_emit
    | with_reducible apply fr_updDom
    | split
    | with_reducible apply dfr_updQueue
    | with_reducible apply fro_next
    | with_reducible exact dfr_refl _ _
    | intro)

theorem fr_execHostWindowWrite {L : List Part} {s₀ s : State} (h₀ : Frame L s₀ s) (fn : Fin 64) (offset : Nat)
    (bytes : List Byte) (poisoned : Bool)
    (hL : ∀ p ∈ [Part.pci, .pciPending, .traceHead, .views, .counters, .commons, .commonsPoison, .out], p ∈ L) :
    FrameOut L s₀ (execHostWindowWrite fn offset bytes poisoned s) := by
  unfold execHostWindowWrite
  repeat' (first
    | with_reducible assumption
    | exact sub_trans hL (by decide)
    | (extract_lets +onlyGivenNames x; first
        | (refine (fun (hx : Frame L s₀ x) => ?_) ?_; (on_goal 1 => clear_value x); (on_goal 2 => subst x))
        | ((have y : Nat := x); clear y; clear_value x)
        | ((have y : List Byte := x); clear y; clear_value x))
    | with_reducible apply fr_poisonedTlp
    | with_reducible apply fr_wrCommons
    | with_reducible apply fr_bump
    | split
    | with_reducible apply fro_next)

theorem fr_execHostWindowRead {L : List Part} {s₀ s : State} (h₀ : Frame L s₀ s) (fn : Fin 64) (offset : Nat) (length : Nat)
    (hL : ∀ p ∈ [Part.pciPending, .traceHead, .views, .counters, .commonsPoison, .out], p ∈ L) :
    FrameOut L s₀ (execHostWindowRead fn offset length s) := by
  unfold execHostWindowRead
  repeat' (first
    | with_reducible assumption
    | exact sub_trans hL (by decide)
    | (extract_lets +onlyGivenNames x; ((have y : Nat := x); clear y; clear_value x))
    | with_reducible apply fr_emit
    | with_reducible apply fr_countCommonsUe
    | split
    | with_reducible apply fro_next)

theorem fr_execMsixUnmask {L : List Part} {s₀ s : State} (h₀ : Frame L s₀ s) (fn : Fin 64) (vector : Nat)
    (hL : ∀ p ∈ [Part.pci, .pciPending, .out], p ∈ L) :
    FrameOut L s₀ (execMsixUnmask fn vector s) := by
  unfold execMsixUnmask
  repeat' (first
    | with_reducible assumption
    | exact sub_trans hL (by decide)
    | (extract_lets +onlyGivenNames x; first
        | (refine (fun (hx : Frame L s₀ x) => ?_) ?_; (on_goal 1 => clear_value x); (on_goal 2 => subst x))
        | ((have y : Nat := x); clear y; clear_value x))
    | with_reducible apply fr_updPci
    | with_reducible apply fr_emit
    | split
    | with_reducible apply fro_next
    | with_reducible exact Or.inl (hL .pci (by decide))
    | with_reducible exact Or.inl (hL .pciPending (by decide)))

end Sys2Proof.Laws
end

