-- ==== Sys2Proof/Laws/FrameLink.lean ====
section
/-! SUPPORT. What the operations of Machine/Link.lean may change (Safety.Frame): each lemma lists the parts. -/

namespace Sys2Proof.Laws

open Sys2Proof.Machine Sys2Proof.Safety

theorem fr_transmit {L : List Part} {s₀ s : State} (h₀ : Frame L s₀ s) (p : Nat) (raw : List Byte)
    (hL : ∀ p ∈ [Part.fab, .counters, .out], p ∈ L) :
    Frame L s₀ (State.transmit s p raw) := by
  unfold State.transmit
  repeat' (first
    | with_reducible assumption
    | exact sub_trans hL (by decide)
    | (extract_lets +onlyGivenNames x; first
        | ((have y : Nat := x); clear y; clear_value x)
        | ((have y : List Byte := x); clear y; clear_value x)
        | subst x)
    | with_reducible apply fr_emit
    | with_reducible apply fr_bump
    | with_reducible apply fr_putPort)

theorem fr_oweCredit {L : List Part} {s₀ s : State} (h₀ : Frame L s₀ s) (p : Nat) (k : Nat)
    (hL : ∀ p ∈ [Part.fab], p ∈ L) :
    Frame L s₀ (State.oweCredit s p k) := by
  unfold State.oweCredit
  repeat' (first
    | with_reducible assumption
    | exact sub_trans hL (by decide)
    | with_reducible apply fr_updPort)

theorem fr_pump {L : List Part} {s₀ s : State} (h₀ : Frame L s₀ s) (p : Nat)
    (hL : ∀ p ∈ [Part.fab, .counters, .out], p ∈ L) :
    Frame L s₀ (State.pump s p) := by
  unfold State.pump
  repeat' (first
    | with_reducible assumption
    | exact sub_trans hL (by decide)
    | (extract_lets +onlyGivenNames x; first
        | (refine (fun (hx : Frame L s₀ x.1) => ?_) ?_; (on_goal 1 => clear_value x); (on_goal 2 => subst x))
        | subst x)
    | with_reducible apply fr_updPort
    | with_reducible apply fr_transmit
    | with_reducible apply fr_oweCredit
    | with_reducible apply fr_foldl_fst
    | split
    | dsimp only
    | intro)

theorem fr_queueFlit {L : List Part} {s₀ s : State} (h₀ : Frame L s₀ s) (p : Nat) (key : Nat) (raw : List Byte)
    (hL : ∀ p ∈ [Part.fab, .counters, .out], p ∈ L) :
    Frame L s₀ (State.queueFlit s p key raw) := by
  unfold State.queueFlit
  repeat' (first
    | with_reducible assumption
    | exact sub_trans hL (by decide)
    | with_reducible apply fr_pump
    | with_reducible apply fr_updPort)

theorem fr_controlFlit {L : List Part} {s₀ s : State} (h₀ : Frame L s₀ s) (p : Nat) (ftype : Nat)
    (hL : ∀ p ∈ [Part.fab, .counters, .freeCtr, .out], p ∈ L) :
    Frame L s₀ (State.controlFlit s p ftype) := by
  unfold State.controlFlit
  repeat' (first
    | with_reducible assumption
    | exact sub_trans hL (by decide)
    | with_reducible apply fr_takeFree
    | with_reducible apply fr_queueFlit)

theorem fr_idleOut {L : List Part} {s₀ s : State} (h₀ : Frame L s₀ s) (p : Nat)
    (hL : ∀ p ∈ [Part.fab, .freeCtr, .out], p ∈ L) :
    Frame L s₀ (State.idleOut s p) := by
  unfold State.idleOut
  repeat' (first
    | with_reducible assumption
    | exact sub_trans hL (by decide)
    | (extract_lets +onlyGivenNames x; first
        | ((have y : Nat := x); clear y; clear_value x)
        | subst x)
    | with_reducible apply fr_takeFree
    | with_reducible apply fr_emit
    | with_reducible apply fr_updPort
    | with_reducible apply fr_foldl
    | dsimp only
    | intro)

theorem fr_forward {L : List Part} {s₀ s u : State} {origin vc tag : Nat} {dl : Bool} {pl : List Byte} (h₀ : Frame L s₀ s)
    (e : s.forward origin vc tag dl pl = some u)
    (hL : ∀ p ∈ [Part.fab, .counters, .out], p ∈ L) : Frame L s₀ u := by
  unfold State.forward at e
  obtain ⟨h, _, rfl⟩ := Option.map_eq_some_iff.1 e
  exact fr_queueFlit h₀ _ _ _ (sub_trans hL (by decide))

theorem fr_forwardD {L : List Part} {s₀ s : State} (h₀ : Frame L s₀ s) (origin vc tag : Nat) (dl : Bool) (pl : List Byte)
    (hL : ∀ p ∈ [Part.fab, .counters, .out], p ∈ L) :
    Frame L s₀ ((s.forward origin vc tag dl pl).getD s) := by
  cases e : s.forward origin vc tag dl pl with
  | none => exact h₀
  | some u => exact fr_forward h₀ e (sub_trans hL (by decide))

theorem fr_moveQueue {L : List Part} {s₀ s : State} (h₀ : Frame L s₀ s) (p : Nat)
    (hL : ∀ p ∈ [Part.fab, .counters, .out], p ∈ L) : Frame L s₀ (s.moveQueue p) := by
  have h1 := fr_updPort h₀ p (fun y => { y with waiting := [], replay := [], credits := [], creditsDue := [] }) (sub_trans hL (by decide))
  unfold State.moveQueue
  dsimp only
  split
  · exact fr_foldl _ (fun _ _ h => fr_queueFlit h _ _ _ (sub_trans hL (by decide))) _ h1
  · refine fr_foldl _ (fun t w h => ?_) _ h1
    split
    · exact h
    · exact fr_forwardD h _ _ _ _ _ (sub_trans hL (by decide))

theorem fr_portDown {L : List Part} {s₀ s : State} (h₀ : Frame L s₀ s) (p : Nat) (next : PortState)
    (hL : ∀ p ∈ [Part.pciPending, .fab, .traceHead, .views, .counters, .out], p ∈ L) :
    Frame L s₀ (State.portDown s p next) := by
  unfold State.portDown
  repeat' (first
    | with_reducible assumption
    | exact sub_trans hL (by decide)
    | (extract_lets +onlyGivenNames x; first
        | (refine (fun (hx : Frame L s₀ x) => ?_) ?_; (on_goal 1 => clear_value x); (on_goal 2 => subst x))
        | subst x)
    | with_reducible apply fr_updPort
    | with_reducible apply fr_raiseDev
    | with_reducible apply fr_moveQueue
    | with_reducible apply fr_updFab
    | split)

theorem fr_nameSelf {L : List Part} {s₀ s : State} (h₀ : Frame L s₀ s) (p : Nat)
    (hL : ∀ p ∈ [Part.out], p ∈ L) :
    Frame L s₀ (State.nameSelf s p) := by
  unfold State.nameSelf
  repeat' (first
    | with_reducible assumption
    | exact sub_trans hL (by decide)
    | with_reducible apply fr_emit)

theorem fr_portUp {L : List Part} {s₀ s : State} (h₀ : Frame L s₀ s) (p : Nat)
    (hL : ∀ p ∈ [Part.pciPending, .fab, .traceHead, .views, .counters, .out], p ∈ L) :
    Frame L s₀ (State.portUp s p) := by
  unfold State.portUp
  repeat' (first
    | with_reducible assumption
    | exact sub_trans hL (by decide)
    | (extract_lets +onlyGivenNames x; (refine (fun (hx : Frame L s₀ x) => ?_) ?_; (on_goal 1 => clear_value x); (on_goal 2 => subst x)))
    | with_reducible apply fr_updPort
    | with_reducible apply fr_raiseDev
    | with_reducible apply fr_updFab)

end Sys2Proof.Laws
end

