-- ==== Sys2Proof/Laws/FrameKv.lean ====
section
/-! SUPPORT. What the operations of Machine/Kv.lean may change (Safety.Frame): each lemma lists the parts. -/

namespace Sys2Proof.Laws

open Sys2Proof.Machine Sys2Proof.Safety

theorem dfr_latchSeqs {L : List Part} {x₀ x : Dom} (h : DomFrame L x₀ x)
    (hL : ∀ p ∈ [Part.domKvp], p ∈ L) :
    DomFrame L x₀ (x.latchSeqs) := by
  exact dfr_updKvp h _ (sub_trans hL (by decide))

theorem fr_kvpCmd {L : List Part} {s₀ s : State} (h₀ : Frame L s₀ s) (v : View) (posted : Bool) (op seq rsv : Nat)
    (f : Nat → Nat → State → State × Nat) (hf : ∀ d c t, Frame L s₀ t → Frame L s₀ (f d c t).1)
    (hL : ∀ p ∈ [Part.pciPending, .traceHead, .views, .pairs, .counters, .out], p ∈ L) :
    Frame L s₀ (s.kvpCmd v posted op seq rsv f) := by
  unfold State.kvpCmd
  refine fr_runCmd h₀ _ _ _ _ ?_ (sub_trans hL (by decide))
  dsimp only
  split
  · exact h₀
  · exact hf _ _ _ h₀

theorem fr_openSeq {L : List Part} {s₀ s : State} (h₀ : Frame L s₀ s) (d : Nat) (c : Nat) (seq : Nat)
    (hL : ∀ p ∈ [Part.domKvp, .domTir, .domMem, .domPoison], p ∈ L) :
    Frame L s₀ (State.openSeq s d c seq).1 := by
  unfold State.openSeq
  repeat' (first
    | with_reducible assumption
    | exact sub_trans hL (by decide)
    | (extract_lets +onlyGivenNames x; first
        | ((have y : Nat := x); clear y; clear_value x)
        | subst x)
    | with_reducible apply fr_wrMem
    | with_reducible apply fr_updDom
    | split
    | with_reducible apply dfr_updSeq
    | with_reducible exact dfr_refl _ _
    | intro)
theorem fr_openSeq_eq {L : List Part} {s₀ s : State} (h₀ : Frame L s₀ s) {d : Nat} {c : Nat} {seq : Nat} {r₀ : _} {u₀ : State}
    (e₀ : State.openSeq s d c seq = (u₀, r₀))
    (hL : ∀ p ∈ [Part.domKvp, .domTir, .domMem, .domPoison], p ∈ L) : Frame L s₀ u₀ := by
  have x := fr_openSeq h₀ d c seq hL
  rw [e₀] at x
  exact x

theorem fr_execSeqOpen {L : List Part} {s₀ s : State} (h₀ : Frame L s₀ s) (v : View) (posted : Bool) (seq : W16)
    (rsv : BitVec 44)
    (hL : ∀ p ∈ [Part.pciPending, .traceHead, .views, .pairs, .counters, .out, .domKvp, .domTir, .domMem, .domPoison], p ∈ L) :
    FrameOut L s₀ (execSeqOpen v posted seq rsv s) := by
  unfold execSeqOpen
  repeat' (first
    | with_reducible assumption
    | exact sub_trans hL (by decide)
    | with_reducible apply fr_kvpCmd
    | with_reducible apply fr_openSeq
    | with_reducible apply fro_next
    | intro)

theorem fr_execSeqClose {L : List Part} {s₀ s : State} (h₀ : Frame L s₀ s) (v : View) (posted : Bool) (seq : W16)
    (rsv : BitVec 44)
    (hL : ∀ p ∈ [Part.pciPending, .traceHead, .views, .pairs, .counters, .atLatch, .out], p ∈ L) :
    FrameOut L s₀ (execSeqClose v posted seq rsv s) := by
  unfold execSeqClose
  repeat' (first
    | with_reducible assumption
    | exact sub_trans hL (by decide)
    | with_reducible apply fr_kvpCmd
    | with_reducible apply fr_defer
    | split
    | with_reducible apply fro_next
    | dsimp only
    | intro)

theorem fr_commitSeq {L : List Part} {s₀ s : State} (h₀ : Frame L s₀ s) (d : Nat) (c : Nat) (seq : Nat)
    (hL : ∀ p ∈ [Part.domKvp], p ∈ L) :
    Frame L s₀ (State.commitSeq s d c seq).1 := by
  unfold State.commitSeq
  repeat' (first
    | with_reducible assumption
    | exact sub_trans hL (by decide)
    | (extract_lets +onlyGivenNames x; first
        | (refine (fun (hx : Frame L s₀ x) => ?_) ?_; (on_goal 1 => clear_value x); (on_goal 2 => subst x))
        | ((have y : Nat := x); clear y; clear_value x)
        | subst x)
    | with_reducible apply fr_updDom
    | split
    | with_reducible apply dfr_updKvp
    | with_reducible apply dfr_updSeq
    | with_reducible exact dfr_refl _ _
    | intro)
theorem fr_commitSeq_eq {L : List Part} {s₀ s : State} (h₀ : Frame L s₀ s) {d : Nat} {c : Nat} {seq : Nat} {r₀ : _}
    {u₀ : State}
    (e₀ : State.commitSeq s d c seq = (u₀, r₀))
    (hL : ∀ p ∈ [Part.domKvp], p ∈ L) : Frame L s₀ u₀ := by
  have x := fr_commitSeq h₀ d c seq hL
  rw [e₀] at x
  exact x

theorem fr_execKvpCommit {L : List Part} {s₀ s : State} (h₀ : Frame L s₀ s) (v : View) (posted : Bool) (seq : W16)
    (rsv : BitVec 44)
    (hL : ∀ p ∈ [Part.pciPending, .traceHead, .views, .pairs, .counters, .out, .domKvp], p ∈ L) :
    FrameOut L s₀ (execKvpCommit v posted seq rsv s) := by
  unfold execKvpCommit
  repeat' (first
    | with_reducible assumption
    | exact sub_trans hL (by decide)
    | with_reducible apply fr_kvpCmd
    | with_reducible apply fr_commitSeq
    | with_reducible apply fro_next
    | intro)

theorem fr_putArgs {L : List Part} {s₀ s : State} (h₀ : Frame L s₀ s) (c : Nat) (page : Nat) (ws : List W64)
    (hL : ∀ p ∈ [Part.pairs], p ∈ L) :
    Frame L s₀ (State.putArgs s c page ws) := by
  unfold State.putArgs
  repeat' (first
    | with_reducible assumption
    | exact sub_trans hL (by decide)
    | with_reducible apply fr_putArg
    | with_reducible apply fr_foldl
    | intro)

theorem fr_querySeq {L : List Part} {s₀ s : State} (h₀ : Frame L s₀ s) (d : Nat) (c : Nat) (seq : Nat)
    (hL : ∀ p ∈ [Part.pairs], p ∈ L) :
    Frame L s₀ (State.querySeq s d c seq).1 := by
  unfold State.querySeq
  repeat' (first
    | with_reducible assumption
    | exact sub_trans hL (by decide)
    | (extract_lets +onlyGivenNames x; first
        | ((have y : Nat := x); clear y; clear_value x)
        | subst x)
    | with_reducible apply fr_putArgs
    | split)
theorem fr_querySeq_eq {L : List Part} {s₀ s : State} (h₀ : Frame L s₀ s) {d : Nat} {c : Nat} {seq : Nat} {r₀ : _}
    {u₀ : State}
    (e₀ : State.querySeq s d c seq = (u₀, r₀))
    (hL : ∀ p ∈ [Part.pairs], p ∈ L) : Frame L s₀ u₀ := by
  have x := fr_querySeq h₀ d c seq hL
  rw [e₀] at x
  exact x

theorem fr_execKvpQuery {L : List Part} {s₀ s : State} (h₀ : Frame L s₀ s) (v : View) (posted : Bool) (seq : W16)
    (rsv : BitVec 44)
    (hL : ∀ p ∈ [Part.pciPending, .traceHead, .views, .pairs, .counters, .out], p ∈ L) :
    FrameOut L s₀ (execKvpQuery v posted seq rsv s) := by
  unfold execKvpQuery
  repeat' (first
    | with_reducible assumption
    | exact sub_trans hL (by decide)
    | with_reducible apply fr_kvpCmd
    | with_reducible apply fr_querySeq
    | with_reducible apply fro_next
    | intro)

theorem fr_execSetDrop {L : List Part} {s₀ s : State} (h₀ : Frame L s₀ s) (v : View) (posted : Bool) (seq : W16)
    (rsv : BitVec 44)
    (hL : ∀ p ∈ [Part.pciPending, .traceHead, .views, .pairs, .counters, .atLatch, .out], p ∈ L) :
    FrameOut L s₀ (execSetDrop v posted seq rsv s) := by
  unfold execSetDrop
  repeat' (first
    | with_reducible assumption
    | exact sub_trans hL (by decide)
    | with_reducible apply fr_kvpCmd
    | with_reducible apply fr_defer
    | with_reducible apply fro_next
    | dsimp only
    | intro)

theorem fr_writeGeom {L : List Part} {s₀ s : State} (h₀ : Frame L s₀ s) (d : Nat) (value : Nat)
    (hL : ∀ p ∈ [Part.domKvp], p ∈ L) :
    Frame L s₀ (State.writeGeom s d value) := by
  unfold State.writeGeom
  repeat' (first
    | with_reducible assumption
    | exact sub_trans hL (by decide)
    | with_reducible apply fr_updDom
    | split
    | with_reducible apply dfr_updKvp
    | with_reducible exact dfr_refl _ _
    | intro)

theorem fr_execKvpGeomWrite {L : List Part} {s₀ s : State} (h₀ : Frame L s₀ s) (v : View) (value : W32)
    (hL : ∀ p ∈ [Part.domKvp], p ∈ L) :
    FrameOut L s₀ (execKvpGeomWrite v value s) := by
  unfold execKvpGeomWrite
  repeat' (first
    | with_reducible assumption
    | exact sub_trans hL (by decide)
    | with_reducible apply fr_writeGeom
    | split
    | with_reducible apply fro_next)

theorem fr_setRow {L : List Part} {s₀ s : State} (h₀ : Frame L s₀ s) (d : Nat) (seq : Nat) (layer : Nat) (pos : Nat)
    (bytes : List Byte)
    (hL : ∀ p ∈ [Part.domKvp, .domTir, .domMem, .domPoison], p ∈ L) :
    Frame L s₀ (State.setRow s d seq layer pos bytes) := by
  unfold State.setRow
  repeat' (first
    | with_reducible assumption
    | exact sub_trans hL (by decide)
    | (extract_lets +onlyGivenNames x; subst x)
    | with_reducible apply fr_updDom
    | with_reducible apply fr_wrMem
    | split
    | with_reducible apply dfr_updKvp
    | with_reducible exact dfr_refl _ _
    | dsimp only
    | intro)

theorem fr_commitLayer {L : List Part} {s₀ s : State} (h₀ : Frame L s₀ s) (d : Nat) (seq : Nat) (layer : Nat) (mask : Nat)
    (hL : ∀ p ∈ [Part.domKvp, .domTir, .domMem, .domPoison], p ∈ L) :
    Frame L s₀ (State.commitLayer s d seq layer mask) := by
  unfold State.commitLayer
  repeat' (first
    | with_reducible assumption
    | exact sub_trans hL (by decide)
    | (extract_lets +onlyGivenNames x; first
        | ((have y : Nat := x); clear y; clear_value x)
        | subst x)
    | with_reducible apply fr_setRow
    | with_reducible apply fr_foldl
    | split
    | intro)

theorem fr_commitRun {L : List Part} {s₀ s : State} (h₀ : Frame L s₀ s) (d : Nat) (seq : Nat)
    (hL : ∀ p ∈ [Part.domKvp, .domTir, .domMem, .domPoison], p ∈ L) :
    Frame L s₀ (State.commitRun s d seq) := by
  unfold State.commitRun
  repeat' (first
    | with_reducible assumption
    | exact sub_trans hL (by decide)
    | (extract_lets +onlyGivenNames x; first
        | (refine (fun (hx : Frame L s₀ x) => ?_) ?_; (on_goal 1 => clear_value x); (on_goal 2 => subst x))
        | ((have y : Nat := x); clear y; clear_value x)
        | subst x)
    | with_reducible apply fr_commitLayer
    | with_reducible apply fr_updDom
    | with_reducible apply fr_foldl
    | split
    | with_reducible apply dfr_updKvp
    | with_reducible apply dfr_updSeq
    | with_reducible exact dfr_refl _ _
    | intro)

theorem fr_invalidate {L : List Part} {s₀ s : State} (h₀ : Frame L s₀ s) (d : Nat) (seq : Nat) (keys : List Nat)
    (hL : ∀ p ∈ [Part.domTir, .domMem, .domPoison], p ∈ L) :
    Frame L s₀ (State.invalidate s d seq keys) := by
  unfold State.invalidate
  repeat' (first
    | with_reducible assumption
    | exact sub_trans hL (by decide)
    | (extract_lets +onlyGivenNames x; subst x)
    | with_reducible apply fr_wrMem
    | with_reducible apply fr_foldl
    | dsimp only
    | intro)

theorem fr_dropColumn {L : List Part} {s₀ s : State} (h₀ : Frame L s₀ s) (d : Nat) (seq : Nat) (col : Nat)
    (hL : ∀ p ∈ [Part.counters, .domKvp, .domTir, .domMem, .domPoison], p ∈ L) :
    Frame L s₀ (State.dropColumn s d seq col) := by
  unfold State.dropColumn
  repeat' (first
    | with_reducible assumption
    | exact sub_trans hL (by decide)
    | (extract_lets +onlyGivenNames x; first
        | (refine (fun (hx : Frame L s₀ x) => ?_) ?_; (on_goal 1 => clear_value x); (on_goal 2 => subst x))
        | ((have y : List Nat := x); clear y; clear_value x)
        | subst x)
    | with_reducible apply fr_invalidate
    | with_reducible apply fr_bump
    | with_reducible apply fr_updDom
    | with_reducible apply dfr_updSeq
    | with_reducible exact dfr_refl _ _
    | intro)

theorem fr_freeFor {L : List Part} {s₀ : State} (d seq need : Nat)
    (hL : ∀ p ∈ [Part.counters, .domKvp, .domTir, .domMem, .domPoison], p ∈ L) :
    ∀ (n : Nat) (lost : List (Nat × Nat)) {s : State}, Frame L s₀ s → Frame L s₀ (s.freeFor d seq need n lost).1
  | 0, _, _, h => h
  | n + 1, lost, s, h => by
    unfold State.freeFor
    split
    · exact h
    · split
      · exact fr_freeFor d seq need hL n _ (fr_dropColumn h _ _ _ (sub_trans hL (by decide)))
      · split
        · exact h
        · split
          · exact fr_freeFor d seq need hL n _ (fr_dropColumn h _ _ _ (sub_trans hL (by decide)))
          · exact h

theorem fr_dropWhole {L : List Part} {s₀ s : State} (h₀ : Frame L s₀ s) (d : Nat) (seq : Nat)
    (hL : ∀ p ∈ [Part.domKvp, .domTir, .domMem, .domPoison], p ∈ L) :
    Frame L s₀ (State.dropWhole s d seq) := by
  unfold State.dropWhole
  repeat' (first
    | with_reducible assumption
    | exact sub_trans hL (by decide)
    | (extract_lets +onlyGivenNames x; first
        | (refine (fun (hx : Frame L s₀ x) => ?_) ?_; (on_goal 1 => clear_value x); (on_goal 2 => subst x))
        | ((have y : Nat := x); clear y; clear_value x)
        | subst x)
    | with_reducible apply fr_invalidate
    | with_reducible apply fr_updDom
    | with_reducible apply dfr_updKvp
    | with_reducible apply dfr_updSeq
    | with_reducible exact dfr_refl _ _
    | intro)

theorem fr_takePage {L : List Part} {s₀ s : State} (h₀ : Frame L s₀ s) (d : Nat) (seq : Nat) (key : Nat)
    (hL : ∀ p ∈ [Part.counters, .domKvp, .domTir, .domMem, .domPoison], p ∈ L) :
    Frame L s₀ (State.takePage s d seq key) := by
  unfold State.takePage
  repeat' (first
    | with_reducible assumption
    | exact sub_trans hL (by decide)
    | (extract_lets +onlyGivenNames x; first
        | (refine (fun (hx : Frame L s₀ x) => ?_) ?_; (on_goal 1 => clear_value x); (on_goal 2 => subst x))
        | ((have y : Nat := x); clear y; clear_value x)
        | subst x)
    | with_reducible apply fr_bump
    | with_reducible apply fr_updDom
    | with_reducible apply fr_wrMem
    | with_reducible apply dfr_updSeq
    | with_reducible exact dfr_refl _ _
    | intro)

theorem fr_placeSeq {L : List Part} {s₀ s : State} (h₀ : Frame L s₀ s) (d seq : Nat)
    (hL : ∀ p ∈ [Part.counters, .domKvp, .domTir, .domMem, .domPoison], p ∈ L) : Frame L s₀ (s.placeSeq d seq).1 := by
  unfold State.placeSeq
  dsimp only
  split
  · exact fr_dropWhole h₀ _ _ (sub_trans hL (by decide))
  · have h1 := fr_freeFor d seq (((s.dom d).kvp.needs seq).length) (sub_trans hL (by decide))
      (((s.dom d).kvp.seqs.map (fun p => p.2.colTick.length)).sum + 1) [] h₀
    generalize s.freeFor d seq _ _ [] = r at h1 ⊢
    obtain ⟨s1, lost⟩ := r
    dsimp only
    split
    · exact fr_dropWhole h1 _ _ (sub_trans hL (by decide))
    · refine fr_foldl _ (fun _ _ h => fr_setRow h _ _ _ _ _ (sub_trans hL (by decide))) _ (fr_updDom (fr_foldl _ (fun _ _ h => fr_takePage h _ _ _ (sub_trans hL (by decide))) _ h1) _ _ ?_)
      exact fun x => dfr_updKvp (dfr_refl L x) _ (sub_trans hL (by decide))
theorem fr_placeSeq_eq {L : List Part} {s₀ s u : State} {d seq : Nat} {r : List (Nat × Nat)} (h₀ : Frame L s₀ s)
    (e : s.placeSeq d seq = (u, r))
    (hL : ∀ p ∈ [Part.counters, .domKvp, .domTir, .domMem, .domPoison], p ∈ L) : Frame L s₀ u := by
  have x := fr_placeSeq h₀ d seq (sub_trans hL (by decide))
  rw [e] at x
  exact x

theorem fr_dropRecord {L : List Part} {s₀ s : State} (h₀ : Frame L s₀ s) (d : Nat) (seq : Nat) (cause : Nat)
    (hL : ∀ p ∈ [Part.pciPending, .traceHead, .views, .counters, .out, .domKvp, .domTir, .domMem, .domPoison], p ∈ L) :
    Frame L s₀ (State.dropRecord s d seq cause) := by
  unfold State.dropRecord
  repeat' (first
    | with_reducible assumption
    | exact sub_trans hL (by decide)
    | (extract_lets +onlyGivenNames x; first
        | (refine (fun (hx : Frame L s₀ x) => ?_) ?_; (on_goal 1 => clear_value x); (on_goal 2 => subst x))
        | ((have y : Nat := x); clear y; clear_value x)
        | subst x)
    | with_reducible apply fr_raiseDom
    | with_reducible apply fr_wrMem
    | with_reducible apply fr_updDom
    | split
    | with_reducible apply dfr_updKvp
    | with_reducible exact dfr_refl _ _
    | intro)

theorem fr_kvSettle {L : List Part} {s₀ s : State} (h₀ : Frame L s₀ s) (d : Nat)
    (hL : ∀ p ∈ [Part.pciPending, .traceHead, .views, .counters, .stretch, .out, .domSched, .domKvp, .domTir, .domMem, .domPoison], p ∈ L) :
    Frame L s₀ (State.kvSettle s d) := by
  unfold State.kvSettle
  repeat' (first
    | with_reducible assumption
    | exact sub_trans hL (by decide)
    | (extract_lets +onlyGivenNames x; first
        | (refine (fun (hx : Frame L s₀ x) => ?_) ?_; (on_goal 1 => clear_value x); (on_goal 2 => subst x))
        | ((have y : Nat := x); clear y; clear_value x)
        | ((have y : List Nat := x); clear y; clear_value x)
        | subst x)
    | with_reducible apply fr_commitRun
    | with_reducible apply fr_placeSeq
    | with_reducible apply fr_dropRecord
    | with_reducible apply fr_updDom
    | with_reducible apply fr_addStretch
    | (refine fr_foldl_fst_eq ?_ ?_ (by assumption))
    | with_reducible apply fr_foldl
    | split
    | with_reducible apply dfr_mk
    | with_reducible exact Or.inr rfl
    | with_reducible exact Or.inr (same_mem _)
    | with_reducible exact Or.inr (same_domLife _)
    | with_reducible exact Or.inr (same_domRecord _)
    | with_reducible exact Or.inr (same_domPreempt _)
    | with_reducible exact Or.inr (same_domSlabs _)
    | with_reducible exact Or.inl (hL .domSched (by decide))
    | with_reducible exact Or.inl (hL .domKvp (by decide))
    | dsimp only
    | intro)

theorem fr_latchSeqClose {L : List Part} {s₀ s : State} (h₀ : Frame L s₀ s) (d : Nat) (seq : Nat)
    (hL : ∀ p ∈ [Part.domKvp], p ∈ L) :
    Frame L s₀ (State.latchSeqClose s d seq) := by
  unfold State.latchSeqClose
  repeat' (first
    | with_reducible assumption
    | exact sub_trans hL (by decide)
    | with_reducible apply fr_updDom
    | with_reducible apply dfr_updKvp
    | with_reducible apply dfr_updSeq
    | with_reducible exact dfr_refl _ _
    | intro)

end Sys2Proof.Laws
end

