-- ==== Sys2Proof/Laws/FrameDomain.lean ====
section
/-! SUPPORT. What the operations of Machine/Domain.lean may change (Safety.Frame): each lemma lists the parts. -/

namespace Sys2Proof.Laws

open Sys2Proof.Machine Sys2Proof.Safety

theorem mapGet_map {α : Type} (m : List (Nat × α)) (f : α → α) (k : Nat) :
    mapGet (m.map (fun p => (p.1, f p.2))) k = (mapGet m k).map f := by
  induction m with
  | nil => rfl
  | cons p m ih =>
    rw [List.map_cons, mapGet_cons, mapGet_cons, ih]
    split <;> rfl

/-- Every domain that holds anything changed in the same way. -/
theorem fr_mapDoms {L : List Part} {s₀ s : State} (h : Frame L s₀ s) (f : Dom → Dom) (hf : ∀ x, DomFrame L x (f x)) :
    Frame L s₀ { s with doms := s.doms.map (fun p => (p.1, f p.2)) } := by
  refine fr_trans h ⟨rfl, ⟨rfl, rfl, rfl⟩, fun p hp => ?_⟩
  have key : ∀ e, p.keptDom (s.dom e) (State.dom { s with doms := s.doms.map (fun p => (p.1, f p.2)) } e) := by
    intro e
    have x : State.dom { s with doms := s.doms.map (fun p => (p.1, f p.2)) } e = ((mapGet s.doms e).map f).getD {} :=
      congrArg (fun o => o.getD {}) (mapGet_map s.doms f e)
    rw [x]
    unfold State.dom
    cases mapGet s.doms e with
    | none => exact keptDom_refl _ _
    | some x => exact hf x p hp
  cases p <;> first | rfl | exact ⟨rfl, rfl⟩ | exact fun e a _ => key e a | exact key

theorem fr_lksCmd {L : List Part} {s₀ s : State} (h₀ : Frame L s₀ s) (v : View) (posted : Bool) (op rsv : Nat) (pfOnly : Bool)
    (f : Nat → State → State × Nat) (hf : ∀ c t, Frame L s₀ t → Frame L s₀ (f c t).1)
    (hL : ∀ p ∈ [Part.pciPending, .traceHead, .views, .pairs, .counters, .out], p ∈ L) :
    Frame L s₀ (s.lksCmd v posted op rsv pfOnly f) := by
  unfold State.lksCmd
  split
  · exact h₀
  · refine fr_runCmd h₀ _ _ _ _ ?_ (sub_trans hL (by decide))
    dsimp only
    split
    · exact h₀
    · split
      · exact h₀
      · split
        · exact h₀
        · exact hf _ _ h₀

theorem fr_lksFinal {L : List Part} {s₀ s : State} (h₀ : Frame L s₀ s) (copy : Nat) (op : Nat) (status : Nat) (d : Nat)
    (hL : ∀ p ∈ [Part.pciPending, .traceHead, .views, .pairs, .counters, .out], p ∈ L) :
    Frame L s₀ (State.lksFinal s copy op status d) := by
  unfold State.lksFinal
  repeat' (first
    | with_reducible assumption
    | exact sub_trans hL (by decide)
    | (extract_lets +onlyGivenNames x; first
        | (refine (fun (hx : Frame L s₀ x) => ?_) ?_; (on_goal 1 => clear_value x); (on_goal 2 => subst x))
        | subst x)
    | with_reducible apply fr_raiseCopy
    | with_reducible apply fr_putPair
    | with_reducible apply fr_msix
    | split)

theorem fr_resetViews {L : List Part} {s₀ s : State} (h₀ : Frame L s₀ s) (d : Nat)
    (hL : ∀ p ∈ [Part.pci, .views, .pairs, .counters, .stretch, .latches], p ∈ L) :
    Frame L s₀ (State.resetViews s d) := by
  unfold State.resetViews
  repeat' (first
    | with_reducible assumption
    | exact sub_trans hL (by decide)
    | (extract_lets +onlyGivenNames x; first
        | subst x)
    | split
    | with_reducible apply fr_mk
    | with_reducible exact Or.inr rfl
    | with_reducible exact Or.inr (same_mem _)
    | with_reducible exact Or.inr (same_poison _)
    | with_reducible exact Or.inr (same_head _)
    | with_reducible exact same_ring _
    | exact Or.inr (fun _ => rfl)
    | with_reducible exact Or.inl (hL .pci (by decide))
    | with_reducible exact Or.inl (hL .views (by decide))
    | with_reducible exact Or.inl (hL .pairs (by decide))
    | with_reducible exact Or.inl (hL .counters (by decide))
    | with_reducible exact Or.inl (hL .stretch (by decide))
    | with_reducible exact Or.inl (hL .latches (by decide)))

theorem fr_freeSlots {L : List Part} {s₀ s : State} (h₀ : Frame L s₀ s) (first : Nat) (count : Nat)
    (hL : ∀ p ∈ [Part.slots], p ∈ L) :
    Frame L s₀ (State.freeSlots s first count) := by
  unfold State.freeSlots
  repeat' (first
    | with_reducible assumption
    | exact sub_trans hL (by decide)
    | split
    | with_reducible apply fr_mk
    | with_reducible exact Or.inr rfl
    | with_reducible exact Or.inr (same_mem _)
    | with_reducible exact Or.inr (same_poison _)
    | with_reducible exact Or.inr (same_head _)
    | with_reducible exact same_ring _
    | exact Or.inr (fun _ => rfl)
    | with_reducible exact Or.inl (hL .slots (by decide)))

theorem fr_createDom {L : List Part} {s₀ s : State} (h₀ : Frame L s₀ s) (d : Nat) (copy : Nat) (r : DomRecord)
    (hL : ∀ p ∈ [Part.pci, .pciPending, .lks, .slots, .views, .pairs, .counters, .stretch, .latches, .freeFrames, .freeCtr, .out, .domLife, .domRecord, .domPreempt, .domQueue, .domSlabs, .domSched, .domVec, .domVar, .domUpd, .domKvp, .domTir, .domCol, .domKeys, .domMem, .domPoison], p ∈ L) :
    Frame L s₀ (State.createDom s d copy r) := by
  unfold State.createDom
  repeat' (first
    | with_reducible assumption
    | exact sub_trans hL (by decide)
    | (extract_lets +onlyGivenNames x; first
        | subst x)
    | with_reducible apply fr_takeDraw
    | (refine fr_takeDraw_eq ?_ (by assumption) ?_)
    | with_reducible apply fr_pickRuns
    | (refine fr_pickRuns_eq ?_ (by assumption) ?_)
    | with_reducible apply fr_resetViews
    | with_reducible apply fr_freeSlots
    | with_reducible apply fr_putDom
    | with_reducible apply fr_updLks
    | with_reducible apply fr_msix
    | split
    | with_reducible apply dfr_mk
    | with_reducible exact dfr_refl _ _
    | with_reducible apply fr_mk
    | with_reducible exact Or.inr rfl
    | with_reducible exact Or.inr (same_mem _)
    | with_reducible exact Or.inr (same_domLife _)
    | with_reducible exact Or.inr (same_domRecord _)
    | with_reducible exact Or.inr (same_domPreempt _)
    | with_reducible exact Or.inr (same_domSlabs _)
    | with_reducible exact Or.inr (same_domSched _)
    | with_reducible exact Or.inr (same_poison _)
    | with_reducible exact Or.inr (same_head _)
    | with_reducible exact same_ring _
    | exact Or.inr (fun _ => rfl)
    | with_reducible exact Or.inl (hL .freeFrames (by decide))
    | with_reducible exact Or.inl (hL .domLife (by decide))
    | with_reducible exact Or.inl (hL .domRecord (by decide))
    | with_reducible exact Or.inl (hL .domPreempt (by decide))
    | with_reducible exact Or.inl (hL .domQueue (by decide))
    | with_reducible exact Or.inl (hL .domSlabs (by decide))
    | with_reducible exact Or.inl (hL .domSched (by decide))
    | with_reducible exact Or.inl (hL .domVec (by decide))
    | with_reducible exact Or.inl (hL .domVar (by decide))
    | with_reducible exact Or.inl (hL .domUpd (by decide))
    | with_reducible exact Or.inl (hL .domKvp (by decide))
    | with_reducible exact Or.inl (hL .domTir (by decide))
    | with_reducible exact Or.inl (hL .domCol (by decide))
    | with_reducible exact Or.inl (hL .domKeys (by decide))
    | with_reducible exact Or.inl (hL .domMem (by decide))
    | with_reducible exact Or.inl (hL .domPoison (by decide)))

theorem fr_createReq {L : List Part} {s₀ s : State} (h₀ : Frame L s₀ s) (copy : Nat) (w : List Nat) (again : Bool)
    (hL : ∀ p ∈ [Part.pci, .pciPending, .lks, .slots, .views, .pairs, .counters, .stretch, .latches, .freeFrames, .freeCtr, .out, .domLife, .domRecord, .domPreempt, .domQueue, .domSlabs, .domSched, .domVec, .domVar, .domUpd, .domKvp, .domTir, .domCol, .domKeys, .domMem, .domPoison], p ∈ L) :
    Frame L s₀ (State.createReq s copy w again).1 := by
  unfold State.createReq
  repeat' (first
    | with_reducible assumption
    | exact sub_trans hL (by decide)
    | (extract_lets +onlyGivenNames x; first
        | ((have y : Nat := x); clear y; clear_value x)
        | subst x)
    | with_reducible apply fr_updDom
    | with_reducible apply fr_createDom
    | split
    | with_reducible apply dfr_mk
    | with_reducible exact dfr_refl _ _
    | with_reducible exact Or.inr rfl
    | with_reducible exact Or.inr (same_mem _)
    | with_reducible exact Or.inr (same_domLife _)
    | with_reducible exact Or.inr (same_domRecord _)
    | with_reducible exact Or.inr (same_domPreempt _)
    | with_reducible exact Or.inr (same_domSlabs _)
    | with_reducible exact Or.inr (same_domSched _)
    | exact Or.inr (fun _ => rfl)
    | with_reducible exact Or.inl (hL .pci (by decide))
    | with_reducible exact Or.inl (hL .pciPending (by decide))
    | with_reducible exact Or.inl (hL .lks (by decide))
    | with_reducible exact Or.inl (hL .slots (by decide))
    | with_reducible exact Or.inl (hL .views (by decide))
    | with_reducible exact Or.inl (hL .pairs (by decide))
    | with_reducible exact Or.inl (hL .counters (by decide))
    | with_reducible exact Or.inl (hL .stretch (by decide))
    | with_reducible exact Or.inl (hL .latches (by decide))
    | with_reducible exact Or.inl (hL .freeFrames (by decide))
    | with_reducible exact Or.inl (hL .freeCtr (by decide))
    | with_reducible exact Or.inl (hL .out (by decide))
    | with_reducible exact Or.inl (hL .domLife (by decide))
    | with_reducible exact Or.inl (hL .domRecord (by decide))
    | with_reducible exact Or.inl (hL .domPreempt (by decide))
    | with_reducible exact Or.inl (hL .domQueue (by decide))
    | with_reducible exact Or.inl (hL .domSlabs (by decide))
    | with_reducible exact Or.inl (hL .domSched (by decide))
    | with_reducible exact Or.inl (hL .domVec (by decide))
    | with_reducible exact Or.inl (hL .domVar (by decide))
    | with_reducible exact Or.inl (hL .domUpd (by decide))
    | with_reducible exact Or.inl (hL .domKvp (by decide))
    | with_reducible exact Or.inl (hL .domTir (by decide))
    | with_reducible exact Or.inl (hL .domCol (by decide))
    | with_reducible exact Or.inl (hL .domKeys (by decide))
    | with_reducible exact Or.inl (hL .domMem (by decide))
    | with_reducible exact Or.inl (hL .domPoison (by decide))
    | dsimp only
    | intro)
theorem fr_createReq_eq {L : List Part} {s₀ s : State} (h₀ : Frame L s₀ s) {copy : Nat} {w : List Nat} {again : Bool} {r₁ : _} {u₀ : State}
    (e₀ : State.createReq s copy w again = (u₀, r₁))
    (hL : ∀ p ∈ [Part.pci, .pciPending, .lks, .slots, .views, .pairs, .counters, .stretch, .latches, .freeFrames, .freeCtr, .out, .domLife, .domRecord, .domPreempt, .domQueue, .domSlabs, .domSched, .domVec, .domVar, .domUpd, .domKvp, .domTir, .domCol, .domKeys, .domMem, .domPoison], p ∈ L) : Frame L s₀ u₀ := by
  have x := fr_createReq h₀ copy w again hL
  rw [e₀] at x
  exact x

theorem fr_execCreate {L : List Part} {s₀ s : State} (h₀ : Frame L s₀ s) (v : View) (posted : Bool) (d : Fin 64) (rsv : BitVec 50)
    (hL : ∀ p ∈ [Part.pci, .pciPending, .lks, .traceHead, .slots, .views, .pairs, .counters, .stretch, .latches, .freeFrames, .freeCtr, .out, .domLife, .domRecord, .domPreempt, .domQueue, .domSlabs, .domSched, .domVec, .domVar, .domUpd, .domKvp, .domTir, .domCol, .domKeys, .domMem, .domPoison], p ∈ L) :
    FrameOut L s₀ (execCreate v posted d rsv s) := by
  unfold execCreate
  repeat' (first
    | with_reducible assumption
    | exact sub_trans hL (by decide)
    | (extract_lets +onlyGivenNames x; first
        | ((have y : Nat := x); clear y; clear_value x)
        | subst x)
    | with_reducible apply fr_lksCmd
    | with_reducible apply fr_createReq
    | (refine fr_createReq_eq ?_ (by assumption) ?_)
    | split
    | with_reducible apply fro_next
    | dsimp only
    | intro)

theorem fr_execCreateComplete {L : List Part} {s₀ s : State} (h₀ : Frame L s₀ s) (d : Fin 64)
    (hL : ∀ p ∈ [Part.domLife], p ∈ L) :
    FrameOut L s₀ (execCreateComplete d s) := by
  unfold execCreateComplete
  repeat' (first
    | with_reducible assumption
    | exact sub_trans hL (by decide)
    | (extract_lets +onlyGivenNames x; subst x)
    | with_reducible apply fr_updDom
    | split
    | with_reducible apply fro_next
    | with_reducible apply dfr_mk
    | with_reducible exact Or.inr rfl
    | with_reducible exact Or.inr (same_mem _)
    | with_reducible exact Or.inr (same_domRecord _)
    | with_reducible exact Or.inr (same_domPreempt _)
    | with_reducible exact Or.inr (same_domSlabs _)
    | with_reducible exact Or.inr (same_domSched _)
    | with_reducible exact Or.inl (hL .domLife (by decide))
    | intro)

theorem fr_execHeldRequestExecute {L : List Part} {s₀ s : State} (h₀ : Frame L s₀ s) (d : Fin 64)
    (hL : ∀ p ∈ [Part.pci, .pciPending, .lks, .traceHead, .slots, .views, .pairs, .counters, .stretch, .latches, .freeFrames, .freeCtr, .out, .domLife, .domRecord, .domPreempt, .domQueue, .domSlabs, .domSched, .domVec, .domVar, .domUpd, .domKvp, .domTir, .domCol, .domKeys, .domMem, .domPoison], p ∈ L) :
    FrameOut L s₀ (execHeldRequestExecute d s) := by
  unfold execHeldRequestExecute
  repeat' (first
    | with_reducible assumption
    | exact sub_trans hL (by decide)
    | (extract_lets +onlyGivenNames x; first
        | (refine (fun (hx : Frame L s₀ x) => ?_) ?_; (on_goal 1 => clear_value x); (on_goal 2 => subst x))
        | (refine (fun (hx : Frame L s₀ x.1) => ?_) ?_; (on_goal 1 => clear_value x); (on_goal 2 => subst x))
        | subst x)
    | with_reducible apply fr_updDom
    | with_reducible apply fr_createReq
    | (refine fr_createReq_eq ?_ (by assumption) ?_)
    | with_reducible apply fr_lksFinal
    | split
    | with_reducible apply dfr_mk
    | with_reducible exact dfr_refl _ _
    | with_reducible exact Or.inr rfl
    | with_reducible exact Or.inr (same_mem _)
    | with_reducible exact Or.inr (same_domLife _)
    | with_reducible exact Or.inr (same_domRecord _)
    | with_reducible exact Or.inr (same_domPreempt _)
    | with_reducible exact Or.inr (same_domSlabs _)
    | with_reducible exact Or.inr (same_domSched _)
    | exact Or.inr (fun _ => rfl)
    | with_reducible exact Or.inl (hL .pci (by decide))
    | with_reducible exact Or.inl (hL .pciPending (by decide))
    | with_reducible exact Or.inl (hL .lks (by decide))
    | with_reducible exact Or.inl (hL .traceHead (by decide))
    | with_reducible exact Or.inl (hL .slots (by decide))
    | with_reducible exact Or.inl (hL .views (by decide))
    | with_reducible exact Or.inl (hL .pairs (by decide))
    | with_reducible exact Or.inl (hL .counters (by decide))
    | with_reducible exact Or.inl (hL .stretch (by decide))
    | with_reducible exact Or.inl (hL .latches (by decide))
    | with_reducible exact Or.inl (hL .freeFrames (by decide))
    | with_reducible exact Or.inl (hL .freeCtr (by decide))
    | with_reducible exact Or.inl (hL .out (by decide))
    | with_reducible exact Or.inl (hL .domLife (by decide))
    | with_reducible exact Or.inl (hL .domRecord (by decide))
    | with_reducible exact Or.inl (hL .domPreempt (by decide))
    | with_reducible exact Or.inl (hL .domQueue (by decide))
    | with_reducible exact Or.inl (hL .domSlabs (by decide))
    | with_reducible exact Or.inl (hL .domSched (by decide))
    | with_reducible exact Or.inl (hL .domVec (by decide))
    | with_reducible exact Or.inl (hL .domVar (by decide))
    | with_reducible exact Or.inl (hL .domUpd (by decide))
    | with_reducible exact Or.inl (hL .domKvp (by decide))
    | with_reducible exact Or.inl (hL .domTir (by decide))
    | with_reducible exact Or.inl (hL .domCol (by decide))
    | with_reducible exact Or.inl (hL .domKeys (by decide))
    | with_reducible exact Or.inl (hL .domMem (by decide))
    | with_reducible exact Or.inl (hL .domPoison (by decide))
    | with_reducible apply fro_next
    | dsimp only
    | intro)

theorem fr_tearDown {L : List Part} {s₀ s : State} (h₀ : Frame L s₀ s) (d : Nat)
    (hL : ∀ p ∈ [Part.domLife], p ∈ L) :
    Frame L s₀ (State.tearDown s d) := by
  unfold State.tearDown
  repeat' (first
    | with_reducible assumption
    | exact sub_trans hL (by decide)
    | (extract_lets +onlyGivenNames x; subst x)
    | with_reducible apply fr_updDom
    | split
    | with_reducible apply dfr_mk
    | with_reducible exact Or.inr rfl
    | with_reducible exact Or.inr (same_mem _)
    | with_reducible exact Or.inr (same_domRecord _)
    | with_reducible exact Or.inr (same_domPreempt _)
    | with_reducible exact Or.inr (same_domSlabs _)
    | with_reducible exact Or.inr (same_domSched _)
    | with_reducible exact Or.inl (hL .domLife (by decide))
    | intro)

theorem fr_execDestroy {L : List Part} {s₀ s : State} (h₀ : Frame L s₀ s) (v : View) (posted : Bool) (d : Fin 64)
    (rsv : BitVec 50)
    (hL : ∀ p ∈ [Part.pciPending, .traceHead, .views, .pairs, .counters, .out, .domLife], p ∈ L) :
    FrameOut L s₀ (execDestroy v posted d rsv s) := by
  unfold execDestroy
  repeat' (first
    | with_reducible assumption
    | exact sub_trans hL (by decide)
    | with_reducible apply fr_lksCmd
    | with_reducible apply fr_updDom
    | with_reducible apply fr_tearDown
    | split
    | with_reducible apply fro_next
    | with_reducible apply dfr_mk
    | with_reducible exact Or.inr rfl
    | with_reducible exact Or.inr (same_mem _)
    | with_reducible exact Or.inr (same_domRecord _)
    | with_reducible exact Or.inr (same_domPreempt _)
    | with_reducible exact Or.inr (same_domSlabs _)
    | with_reducible exact Or.inr (same_domSched _)
    | with_reducible exact Or.inl (hL .domLife (by decide))
    | dsimp only
    | intro)

theorem fr_resetFn {L : List Part} {s₀ s : State} (h₀ : Frame L s₀ s) (n : Nat)
    (hL : ∀ p ∈ [Part.pci, .pciPending], p ∈ L) :
    Frame L s₀ (State.resetFn s n) := by
  unfold State.resetFn
  repeat' (first
    | with_reducible assumption
    | exact sub_trans hL (by decide)
    | with_reducible apply fr_updPci
    | with_reducible exact Or.inl (hL .pci (by decide))
    | with_reducible exact Or.inl (hL .pciPending (by decide)))

theorem fr_execVfFlr {L : List Part} {s₀ s : State} (h₀ : Frame L s₀ s) (n : Fin 64)
    (hL : ∀ p ∈ [Part.pci, .pciPending, .traceHead, .views, .counters, .out, .domLife], p ∈ L) :
    FrameOut L s₀ (execVfFlr n s) := by
  unfold execVfFlr
  repeat' (first
    | with_reducible assumption
    | exact sub_trans hL (by decide)
    | (extract_lets +onlyGivenNames x; first
        | (refine (fun (hx : Frame L s₀ x) => ?_) ?_; (on_goal 1 => clear_value x); (on_goal 2 => subst x))
        | ((have y : Nat := x); clear y; clear_value x))
    | with_reducible apply fr_raiseDev
    | with_reducible apply fr_bump
    | with_reducible apply fr_resetFn
    | with_reducible apply fr_tearDown
    | with_reducible apply fr_updPci
    | split
    | with_reducible apply fro_next
    | exact Or.inr (fun _ => rfl)
    | with_reducible exact Or.inl (hL .pci (by decide)))

theorem fr_execVfEnableChange {L : List Part} {s₀ s : State} (h₀ : Frame L s₀ s) (on : Bool) (numVfs : Nat)
    (hL : ∀ p ∈ [Part.pci, .pciPending, .traceHead, .views, .counters, .out, .domLife], p ∈ L) :
    FrameOut L s₀ (execVfEnableChange on numVfs s) := by
  unfold execVfEnableChange
  repeat' (first
    | with_reducible assumption
    | exact sub_trans hL (by decide)
    | (extract_lets +onlyGivenNames x; first
        | (refine (fun (hx : Frame L s₀ x) => ?_) ?_; (on_goal 1 => clear_value x); (on_goal 2 => subst x))
        | ((have y : List Nat := x); clear y; clear_value x))
    | with_reducible apply fr_updPci
    | with_reducible apply fr_raiseDev
    | with_reducible apply fr_tearDown
    | with_reducible apply fr_resetFn
    | with_reducible apply fr_foldl
    | split
    | with_reducible apply fro_next
    | exact Or.inr (fun _ => rfl)
    | with_reducible exact Or.inl (hL .pci (by decide))
    | intro)

theorem fr_resizeReq {L : List Part} {s₀ s : State} (h₀ : Frame L s₀ s) (copy : Nat) (w : List Nat)
    (hL : ∀ p ∈ [Part.freeFrames, .freeCtr, .domLife, .domTir], p ∈ L) :
    Frame L s₀ (State.resizeReq s copy w).1 := by
  unfold State.resizeReq
  repeat' (first
    | with_reducible assumption
    | exact sub_trans hL (by decide)
    | (extract_lets +onlyGivenNames x; first
        | (refine (fun (hx : Frame L s₀ x) => ?_) ?_; (on_goal 1 => clear_value x); (on_goal 2 => subst x))
        | ((have y : Nat := x); clear y; clear_value x)
        | subst x)
    | with_reducible apply fr_pickRuns
    | (refine fr_pickRuns_eq ?_ (by assumption) ?_)
    | with_reducible apply fr_updDom
    | with_reducible apply fr_foldl
    | with_reducible apply fr_foldl_fst
    | with_reducible apply fr_foldl_snd
    | (refine fr_foldl_fst_eq ?_ ?_ (by assumption))
    | (refine fr_foldl_snd_eq ?_ ?_ (by assumption))
    | split
    | with_reducible apply dfr_mk
    | with_reducible exact dfr_refl _ _
    | with_reducible apply fr_mk
    | with_reducible exact Or.inr rfl
    | with_reducible exact Or.inr (same_mem _)
    | with_reducible exact Or.inr (same_domLife _)
    | with_reducible exact Or.inr (same_domRecord _)
    | with_reducible exact Or.inr (same_domPreempt _)
    | with_reducible exact Or.inr (same_domSlabs _)
    | with_reducible exact Or.inr (same_domSched _)
    | with_reducible exact Or.inr (same_poison _)
    | with_reducible exact Or.inr (same_head _)
    | with_reducible exact same_ring _
    | exact Or.inr (fun _ => rfl)
    | with_reducible exact Or.inl (hL .freeFrames (by decide))
    | with_reducible exact Or.inl (hL .freeCtr (by decide))
    | with_reducible exact Or.inl (hL .domLife (by decide))
    | with_reducible exact Or.inl (hL .domTir (by decide))
    | dsimp only
    | intro)
theorem fr_resizeReq_eq {L : List Part} {s₀ s : State} (h₀ : Frame L s₀ s) {copy : Nat} {w : List Nat} {r₁ : _} {u₀ : State}
    (e₀ : State.resizeReq s copy w = (u₀, r₁))
    (hL : ∀ p ∈ [Part.freeFrames, .freeCtr, .domLife, .domTir], p ∈ L) : Frame L s₀ u₀ := by
  have x := fr_resizeReq h₀ copy w hL
  rw [e₀] at x
  exact x

theorem fr_execResize {L : List Part} {s₀ s : State} (h₀ : Frame L s₀ s) (v : View) (posted : Bool) (d : Fin 64) (rsv : BitVec 50)
    (hL : ∀ p ∈ [Part.pciPending, .traceHead, .views, .pairs, .counters, .freeFrames, .freeCtr, .out, .domLife, .domTir], p ∈ L) :
    FrameOut L s₀ (execResize v posted d rsv s) := by
  unfold execResize
  repeat' (first
    | with_reducible assumption
    | exact sub_trans hL (by decide)
    | (extract_lets +onlyGivenNames x; first
        | ((have y : Nat := x); clear y; clear_value x)
        | subst x)
    | with_reducible apply fr_lksCmd
    | with_reducible apply fr_resizeReq
    | (refine fr_resizeReq_eq ?_ (by assumption) ?_)
    | split
    | with_reducible apply fro_next
    | dsimp only
    | intro)

theorem fr_addRequest {L : List Part} {s₀ s : State} (h₀ : Frame L s₀ s) (d : Nat) (copy : Nat) (q : DomRequest)
    (hL : ∀ p ∈ [Part.domLife], p ∈ L) :
    Frame L s₀ (State.addRequest s d copy q) := by
  unfold State.addRequest
  repeat' (first
    | with_reducible assumption
    | exact sub_trans hL (by decide)
    | with_reducible apply fr_updDom
    | with_reducible apply dfr_mk
    | with_reducible exact Or.inr rfl
    | with_reducible exact Or.inr (same_mem _)
    | with_reducible exact Or.inr (same_domRecord _)
    | with_reducible exact Or.inr (same_domPreempt _)
    | with_reducible exact Or.inr (same_domSlabs _)
    | with_reducible exact Or.inr (same_domSched _)
    | with_reducible exact Or.inl (hL .domLife (by decide))
    | intro)

theorem fr_execLend {L : List Part} {s₀ s : State} (h₀ : Frame L s₀ s) (v : View) (posted : Bool) (d : Fin 64)
    (rsv : BitVec 50)
    (hL : ∀ p ∈ [Part.pciPending, .traceHead, .views, .pairs, .counters, .out, .domLife], p ∈ L) :
    FrameOut L s₀ (execLend v posted d rsv s) := by
  unfold execLend
  repeat' (first
    | with_reducible assumption
    | exact sub_trans hL (by decide)
    | (extract_lets +onlyGivenNames x; ((have y : Nat := x); clear y; clear_value x))
    | with_reducible apply fr_lksCmd
    | with_reducible apply fr_addRequest
    | split
    | with_reducible apply fro_next
    | dsimp only
    | intro)

theorem fr_execReclaim {L : List Part} {s₀ s : State} (h₀ : Frame L s₀ s) (v : View) (posted : Bool) (d : Fin 64)
    (rsv : BitVec 50)
    (hL : ∀ p ∈ [Part.pciPending, .traceHead, .views, .pairs, .counters, .out, .domLife], p ∈ L) :
    FrameOut L s₀ (execReclaim v posted d rsv s) := by
  unfold execReclaim
  repeat' (first
    | with_reducible assumption
    | exact sub_trans hL (by decide)
    | (extract_lets +onlyGivenNames x; ((have y : Nat := x); clear y; clear_value x))
    | with_reducible apply fr_lksCmd
    | with_reducible apply fr_addRequest
    | split
    | with_reducible apply fro_next
    | dsimp only
    | intro)

theorem fr_execMapShared {L : List Part} {s₀ s : State} (h₀ : Frame L s₀ s) (v : View) (posted : Bool) (d : Fin 64)
    (rsv : BitVec 50)
    (hL : ∀ p ∈ [Part.pciPending, .traceHead, .views, .pairs, .counters, .out, .domLife], p ∈ L) :
    FrameOut L s₀ (execMapShared v posted d rsv s) := by
  unfold execMapShared
  repeat' (first
    | with_reducible assumption
    | exact sub_trans hL (by decide)
    | with_reducible apply fr_lksCmd
    | with_reducible apply fr_addRequest
    | split
    | with_reducible apply fro_next
    | dsimp only
    | intro)

theorem fr_execUnmapShared {L : List Part} {s₀ s : State} (h₀ : Frame L s₀ s) (v : View) (posted : Bool) (d : Fin 64)
    (rsv : BitVec 50)
    (hL : ∀ p ∈ [Part.pciPending, .traceHead, .views, .pairs, .counters, .out, .domLife], p ∈ L) :
    FrameOut L s₀ (execUnmapShared v posted d rsv s) := by
  unfold execUnmapShared
  repeat' (first
    | with_reducible assumption
    | exact sub_trans hL (by decide)
    | with_reducible apply fr_lksCmd
    | with_reducible apply fr_addRequest
    | split
    | with_reducible apply fro_next
    | dsimp only
    | intro)

theorem fr_clearBanks {L : List Part} {s₀ s : State} (h₀ : Frame L s₀ s) (first : Nat) (n : Nat)
    (hL : ∀ p ∈ [Part.commons, .commonsPoison], p ∈ L) :
    Frame L s₀ (State.clearBanks s first n) := by
  unfold State.clearBanks
  repeat' (first
    | with_reducible assumption
    | exact sub_trans hL (by decide)
    | split
    | with_reducible apply fr_mk
    | with_reducible exact Or.inr rfl
    | with_reducible exact Or.inr (same_mem _)
    | with_reducible exact Or.inr (same_poison _)
    | with_reducible exact Or.inr (same_head _)
    | with_reducible exact same_ring _
    | exact Or.inr (fun _ => rfl)
    | with_reducible exact Or.inl (hL .commons (by decide))
    | with_reducible exact Or.inl (hL .commonsPoison (by decide)))

theorem fr_clearUnits {L : List Part} {s₀ s : State} (h₀ : Frame L s₀ s) (us : List Nat)
    (hL : ∀ p ∈ [Part.acc, .opbuf, .domSlabs], p ∈ L) : Frame L s₀ (s.clearUnits us) := by
  have h1 : Frame L s₀ (us.foldl (fun t u => t.clearArrays (128 * u) 128 true) s) :=
    fr_foldl _ (fun _ _ h => fr_clearArrays h _ _ _ (sub_trans hL (by decide))) _ h₀
  refine fr_mapDoms h1 (fun x => { x with lastOperand := x.lastOperand.filter (fun e => !us.contains (e.1 / 128)) }) (fun x => ?_)
  with_reducible apply dfr_mk
  repeat' first
    | with_reducible exact Or.inr rfl
    | with_reducible exact Or.inr (same_domLife _)
    | with_reducible exact Or.inr (same_domRecord _)
    | with_reducible exact Or.inr (same_domPreempt _)
    | with_reducible exact Or.inr (same_domSched _)
    | with_reducible exact Or.inr (same_mem _)
    | exact Or.inl (hL .domSlabs (by decide))

theorem fr_withholdFrames {L : List Part} {s₀ s : State} (h₀ : Frame L s₀ s) (frames : List Nat) (units : List Nat)
    (hL : ∀ p ∈ [Part.boot, .pciPending, .ful, .traceHead, .views, .counters, .out], p ∈ L) :
    Frame L s₀ (State.withholdFrames s frames units) := by
  unfold State.withholdFrames
  repeat' (first
    | with_reducible assumption
    | exact sub_trans hL (by decide)
    | with_reducible apply fr_raiseDev
    | with_reducible apply fr_bump
    | with_reducible apply fr_updBoot
    | with_reducible apply fr_updFul
    | split)

theorem fr_execScrubEnd {L : List Part} {s₀ s : State} (h₀ : Frame L s₀ s) (d : Fin 64) (nowNs : Nat) (withheldFrames : List Nat) (sramFailUnits : List Nat)
    (hL : ∀ p ∈ [Part.boot, .pciPending, .ful, .traceHead, .views, .counters, .commons, .commonsPoison, .acc, .opbuf, .freeFrames, .out, .domLife, .domPreempt, .domSlabs, .domMem, .domPoison], p ∈ L) :
    FrameOut L s₀ (execScrubEnd d nowNs withheldFrames sramFailUnits s) := by
  unfold execScrubEnd
  repeat' (first
    | with_reducible assumption
    | exact sub_trans hL (by decide)
    | (extract_lets +onlyGivenNames x; first
        | (refine (fun (hx : Frame L s₀ x) => ?_) ?_; (on_goal 1 => clear_value x); (on_goal 2 => subst x))
        | ((have y : Nat := x); clear y; clear_value x)
        | subst x)
    | with_reducible apply fr_clearUnits
    | with_reducible apply fr_clearBanks
    | with_reducible apply fr_updDom
    | with_reducible apply fr_updFul
    | with_reducible apply fr_bump
    | with_reducible apply fr_withholdFrames
    | with_reducible apply fr_raiseDev
    | with_reducible apply fr_foldl
    | with_reducible apply fr_foldl_fst
    | with_reducible apply fr_foldl_snd
    | (refine fr_foldl_fst_eq ?_ ?_ (by assumption))
    | (refine fr_foldl_snd_eq ?_ ?_ (by assumption))
    | split
    | with_reducible apply dfr_mk
    | with_reducible exact dfr_refl _ _
    | with_reducible apply fr_mk
    | with_reducible exact Or.inr rfl
    | with_reducible exact Or.inr (same_mem _)
    | with_reducible exact Or.inr (same_domLife _)
    | with_reducible exact Or.inr (same_domRecord _)
    | with_reducible exact Or.inr (same_domPreempt _)
    | with_reducible exact Or.inr (same_domSlabs _)
    | with_reducible exact Or.inr (same_domSched _)
    | with_reducible exact Or.inr (same_poison _)
    | with_reducible exact Or.inr (same_head _)
    | with_reducible exact same_ring _
    | exact Or.inr (fun _ => rfl)
    | with_reducible exact Or.inl (hL .boot (by decide))
    | with_reducible exact Or.inl (hL .pciPending (by decide))
    | with_reducible exact Or.inl (hL .ful (by decide))
    | with_reducible exact Or.inl (hL .traceHead (by decide))
    | with_reducible exact Or.inl (hL .views (by decide))
    | with_reducible exact Or.inl (hL .counters (by decide))
    | with_reducible exact Or.inl (hL .commons (by decide))
    | with_reducible exact Or.inl (hL .commonsPoison (by decide))
    | with_reducible exact Or.inl (hL .acc (by decide))
    | with_reducible exact Or.inl (hL .opbuf (by decide))
    | with_reducible exact Or.inl (hL .freeFrames (by decide))
    | with_reducible exact Or.inl (hL .out (by decide))
    | with_reducible exact Or.inl (hL .domLife (by decide))
    | with_reducible exact Or.inl (hL .domPreempt (by decide))
    | with_reducible exact Or.inl (hL .domSlabs (by decide))
    | with_reducible exact Or.inl (hL .domMem (by decide))
    | with_reducible exact Or.inl (hL .domPoison (by decide))
    | with_reducible apply fro_next
    | dsimp only
    | intro)

theorem fr_execMemoryKeyDestroy {L : List Part} {s₀ s : State} (h₀ : Frame L s₀ s) (d : Fin 64)
    (hL : ∀ p ∈ [Part.domKeys], p ∈ L) :
    FrameOut L s₀ (execMemoryKeyDestroy d s) := by
  unfold execMemoryKeyDestroy
  repeat' (first
    | with_reducible assumption
    | exact sub_trans hL (by decide)
    | with_reducible apply fr_updDom
    | split
    | with_reducible apply dfr_updKeys
    | with_reducible apply fro_next
    | with_reducible exact dfr_refl _ _
    | intro)

theorem fr_latchActive {L : List Part} {s₀ s : State} (h₀ : Frame L s₀ s) (d : Nat)
    (hL : ∀ p ∈ [Part.pciPending, .traceHead, .views, .pairs, .counters, .out, .domLife], p ∈ L) :
    Frame L s₀ (State.latchActive s d) := by
  unfold State.latchActive
  repeat' (first
    | with_reducible assumption
    | exact sub_trans hL (by decide)
    | (extract_lets +onlyGivenNames x; first
        | (refine (fun (hx : Frame L s₀ x) => ?_) ?_; (on_goal 1 => clear_value x); (on_goal 2 => subst x))
        | subst x)
    | with_reducible apply fr_updDom
    | with_reducible apply fr_lksFinal
    | with_reducible apply fr_msix
    | with_reducible apply fr_raiseDom
    | split
    | with_reducible apply dfr_mk
    | with_reducible exact Or.inr rfl
    | with_reducible exact Or.inr (same_mem _)
    | with_reducible exact Or.inr (same_domRecord _)
    | with_reducible exact Or.inr (same_domPreempt _)
    | with_reducible exact Or.inr (same_domSlabs _)
    | with_reducible exact Or.inr (same_domSched _)
    | with_reducible exact Or.inl (hL .domLife (by decide))
    | intro)

theorem fr_latchScrub {L : List Part} {s₀ s : State} (h₀ : Frame L s₀ s) (d : Nat) (nowNs : Nat)
    (hL : ∀ p ∈ [Part.pciPending, .bas, .ful, .traceHead, .slots, .views, .counters, .acc, .opbuf, .atLatch, .out, .domLife, .domRecord, .domPreempt, .domSlabs, .domVec, .domVar, .domUpd, .domKvp, .domTir, .domCol, .domKeys], p ∈ L) :
    Frame L s₀ (State.latchScrub s d nowNs) := by
  unfold State.latchScrub
  repeat' (first
    | with_reducible assumption
    | exact sub_trans hL (by decide)
    | (extract_lets +onlyGivenNames x; first
        | (refine (fun (hx : Frame L s₀ x) => ?_) ?_; (on_goal 1 => clear_value x); (on_goal 2 => subst x))
        | subst x)
    | with_reducible apply fr_raiseDom
    | with_reducible apply fr_freeSlots
    | with_reducible apply fr_updDom
    | with_reducible apply fr_clearUnits
    | with_reducible apply fr_updFul
    | with_reducible apply fr_msix
    | split
    | with_reducible apply dfr_mk
    | with_reducible exact dfr_refl _ _
    | with_reducible apply fr_mk
    | with_reducible exact Or.inr rfl
    | with_reducible exact Or.inr (same_mem _)
    | with_reducible exact Or.inr (same_domLife _)
    | with_reducible exact Or.inr (same_domRecord _)
    | with_reducible exact Or.inr (same_domPreempt _)
    | with_reducible exact Or.inr (same_domSlabs _)
    | with_reducible exact Or.inr (same_domSched _)
    | with_reducible exact Or.inr (same_poison _)
    | with_reducible exact Or.inr (same_head _)
    | with_reducible exact same_ring _
    | exact Or.inr (fun _ => rfl)
    | with_reducible exact Or.inl (hL .pciPending (by decide))
    | with_reducible exact Or.inl (hL .bas (by decide))
    | with_reducible exact Or.inl (hL .ful (by decide))
    | with_reducible exact Or.inl (hL .traceHead (by decide))
    | with_reducible exact Or.inl (hL .slots (by decide))
    | with_reducible exact Or.inl (hL .views (by decide))
    | with_reducible exact Or.inl (hL .counters (by decide))
    | with_reducible exact Or.inl (hL .acc (by decide))
    | with_reducible exact Or.inl (hL .opbuf (by decide))
    | with_reducible exact Or.inl (hL .atLatch (by decide))
    | with_reducible exact Or.inl (hL .out (by decide))
    | with_reducible exact Or.inl (hL .domLife (by decide))
    | with_reducible exact Or.inl (hL .domRecord (by decide))
    | with_reducible exact Or.inl (hL .domPreempt (by decide))
    | with_reducible exact Or.inl (hL .domSlabs (by decide))
    | with_reducible exact Or.inl (hL .domVec (by decide))
    | with_reducible exact Or.inl (hL .domVar (by decide))
    | with_reducible exact Or.inl (hL .domUpd (by decide))
    | with_reducible exact Or.inl (hL .domKvp (by decide))
    | with_reducible exact Or.inl (hL .domTir (by decide))
    | with_reducible exact Or.inl (hL .domCol (by decide))
    | with_reducible exact Or.inl (hL .domKeys (by decide))
    | dsimp only
    | intro)

theorem fr_latchFree {L : List Part} {s₀ s : State} (h₀ : Frame L s₀ s) (d : Nat)
    (hL : ∀ p ∈ [Part.pci, .pciPending, .traceHead, .views, .pairs, .counters, .freeFrames, .out, .domLife, .domRecord, .domPreempt, .domQueue, .domSlabs, .domSched, .domVec, .domVar, .domUpd, .domKvp, .domTir, .domCol, .domKeys, .domMem, .domPoison], p ∈ L) :
    Frame L s₀ (State.latchFree s d) := by
  unfold State.latchFree
  repeat' (first
    | with_reducible assumption
    | exact sub_trans hL (by decide)
    | (extract_lets +onlyGivenNames x; first
        | (refine (fun (hx : Frame L s₀ x) => ?_) ?_; (on_goal 1 => clear_value x); (on_goal 2 => subst x))
        | subst x)
    | with_reducible apply fr_putDom
    | with_reducible apply fr_updPci
    | with_reducible apply fr_msix
    | with_reducible apply fr_lksFinal
    | split
    | with_reducible apply dfr_mk
    | with_reducible exact dfr_refl _ _
    | with_reducible apply fr_mk
    | with_reducible exact Or.inr rfl
    | with_reducible exact Or.inr (same_mem _)
    | with_reducible exact Or.inr (same_domLife _)
    | with_reducible exact Or.inr (same_domRecord _)
    | with_reducible exact Or.inr (same_domPreempt _)
    | with_reducible exact Or.inr (same_domSlabs _)
    | with_reducible exact Or.inr (same_domSched _)
    | with_reducible exact Or.inr (same_poison _)
    | with_reducible exact Or.inr (same_head _)
    | with_reducible exact same_ring _
    | exact Or.inr (fun _ => rfl)
    | with_reducible exact Or.inl (hL .pci (by decide))
    | with_reducible exact Or.inl (hL .freeFrames (by decide))
    | with_reducible exact Or.inl (hL .domLife (by decide))
    | with_reducible exact Or.inl (hL .domRecord (by decide))
    | with_reducible exact Or.inl (hL .domPreempt (by decide))
    | with_reducible exact Or.inl (hL .domQueue (by decide))
    | with_reducible exact Or.inl (hL .domSlabs (by decide))
    | with_reducible exact Or.inl (hL .domSched (by decide))
    | with_reducible exact Or.inl (hL .domVec (by decide))
    | with_reducible exact Or.inl (hL .domVar (by decide))
    | with_reducible exact Or.inl (hL .domUpd (by decide))
    | with_reducible exact Or.inl (hL .domKvp (by decide))
    | with_reducible exact Or.inl (hL .domTir (by decide))
    | with_reducible exact Or.inl (hL .domCol (by decide))
    | with_reducible exact Or.inl (hL .domKeys (by decide))
    | with_reducible exact Or.inl (hL .domMem (by decide))
    | with_reducible exact Or.inl (hL .domPoison (by decide)))

theorem fr_dropMisfits {L : List Part} {s₀ s : State} (h₀ : Frame L s₀ s) (before : State) (d : Nat)
    (hL : ∀ p ∈ [Part.pci, .pciPending, .out, .domQueue, .domSlabs], p ∈ L) :
    Frame L s₀ (State.dropMisfits s before d) := by
  unfold State.dropMisfits
  repeat' (first
    | with_reducible assumption
    | exact sub_trans hL (by decide)
    | with_reducible apply fr_creditSlab
    | with_reducible apply fr_updSlab
    | with_reducible apply fr_foldl
    | split
    | intro)

theorem fr_latchResize {L : List Part} {s₀ s : State} (h₀ : Frame L s₀ s) (d : Nat) (copy : Nat) (nowNs : Nat) (r : DomRecord)
    (hL : ∀ p ∈ [Part.pci, .pciPending, .ful, .traceHead, .slots, .views, .pairs, .counters, .out, .domLife, .domRecord, .domQueue, .domSlabs, .domSched, .domTir], p ∈ L) :
    Frame L s₀ (State.latchResize s d copy nowNs r).1 := by
  unfold State.latchResize
  repeat' (first
    | with_reducible assumption
    | exact sub_trans hL (by decide)
    | (extract_lets +onlyGivenNames x; first
        | (refine (fun (hx : Frame L s₀ x) => ?_) ?_; (on_goal 1 => clear_value x); (on_goal 2 => subst x))
        | ((have y : Bool := x); clear y; clear_value x)
        | ((have y : List Nat := x); clear y; clear_value x)
        | subst x)
    | with_reducible apply fr_updDom
    | with_reducible apply fr_freeSlots
    | with_reducible apply fr_dropMisfits
    | with_reducible apply fr_updFul
    | with_reducible apply fr_raiseDom
    | with_reducible apply fr_lksFinal
    | with_reducible apply fr_foldl
    | with_reducible apply fr_foldl_fst
    | with_reducible apply fr_foldl_snd
    | (refine fr_foldl_fst_eq ?_ ?_ (by assumption))
    | (refine fr_foldl_snd_eq ?_ ?_ (by assumption))
    | split
    | with_reducible apply dfr_mk
    | with_reducible exact dfr_refl _ _
    | with_reducible exact Or.inr rfl
    | with_reducible exact Or.inr (same_mem _)
    | with_reducible exact Or.inr (same_domLife _)
    | with_reducible exact Or.inr (same_domRecord _)
    | with_reducible exact Or.inr (same_domPreempt _)
    | with_reducible exact Or.inr (same_domSlabs _)
    | with_reducible exact Or.inr (same_domSched _)
    | exact Or.inr (fun _ => rfl)
    | with_reducible exact Or.inl (hL .pci (by decide))
    | with_reducible exact Or.inl (hL .pciPending (by decide))
    | with_reducible exact Or.inl (hL .ful (by decide))
    | with_reducible exact Or.inl (hL .traceHead (by decide))
    | with_reducible exact Or.inl (hL .slots (by decide))
    | with_reducible exact Or.inl (hL .views (by decide))
    | with_reducible exact Or.inl (hL .pairs (by decide))
    | with_reducible exact Or.inl (hL .counters (by decide))
    | with_reducible exact Or.inl (hL .out (by decide))
    | with_reducible exact Or.inl (hL .domLife (by decide))
    | with_reducible exact Or.inl (hL .domRecord (by decide))
    | with_reducible exact Or.inl (hL .domQueue (by decide))
    | with_reducible exact Or.inl (hL .domSlabs (by decide))
    | with_reducible exact Or.inl (hL .domSched (by decide))
    | with_reducible exact Or.inl (hL .domTir (by decide))
    | dsimp only
    | intro)
theorem fr_latchResize_eq {L : List Part} {s₀ s : State} (h₀ : Frame L s₀ s) {d : Nat} {copy : Nat} {nowNs : Nat} {r : DomRecord} {r₁ : _} {u₀ : State}
    (e₀ : State.latchResize s d copy nowNs r = (u₀, r₁))
    (hL : ∀ p ∈ [Part.pci, .pciPending, .ful, .traceHead, .slots, .views, .pairs, .counters, .out, .domLife, .domRecord, .domQueue, .domSlabs, .domSched, .domTir], p ∈ L) : Frame L s₀ u₀ := by
  have x := fr_latchResize h₀ d copy nowNs r hL
  rw [e₀] at x
  exact x

theorem fr_latchLeft {L : List Part} {s₀ s : State} (h₀ : Frame L s₀ s) (d : Nat)
    (hL : ∀ p ∈ [Part.freeFrames, .domLife, .domTir], p ∈ L) :
    Frame L s₀ (State.latchLeft s d) := by
  unfold State.latchLeft
  repeat' (first
    | with_reducible assumption
    | exact sub_trans hL (by decide)
    | (extract_lets +onlyGivenNames x; first
        | (refine (fun (hx : Frame L s₀ x) => ?_) ?_; (on_goal 1 => clear_value x); (on_goal 2 => subst x))
        | subst x)
    | with_reducible apply fr_updDom
    | split
    | with_reducible apply dfr_mk
    | with_reducible exact dfr_refl _ _
    | with_reducible apply fr_mk
    | with_reducible exact Or.inr rfl
    | with_reducible exact Or.inr (same_mem _)
    | with_reducible exact Or.inr (same_domLife _)
    | with_reducible exact Or.inr (same_domRecord _)
    | with_reducible exact Or.inr (same_domPreempt _)
    | with_reducible exact Or.inr (same_domSlabs _)
    | with_reducible exact Or.inr (same_domSched _)
    | with_reducible exact Or.inr (same_poison _)
    | with_reducible exact Or.inr (same_head _)
    | with_reducible exact same_ring _
    | exact Or.inr (fun _ => rfl)
    | with_reducible exact Or.inl (hL .freeFrames (by decide))
    | with_reducible exact Or.inl (hL .domLife (by decide))
    | with_reducible exact Or.inl (hL .domTir (by decide))
    | dsimp only
    | intro)

theorem dfr_sharePages {L : List Part} {x₀ x : Dom} (h : DomFrame L x₀ x) (page d0 n : Nat)
    (hL : ∀ p ∈ [Part.domTir, .domMem, .domPoison], p ∈ L) : DomFrame L x₀ (x.sharePages page d0 n) :=
  foldl_keeps (DomFrame L x₀) _ (fun _ _ hy => dfr_wipePage (dfr_freeFrame hy _ (sub_trans hL (by decide))) _ _ hL) _ h

theorem dfr_unsharePages {L : List Part} {x₀ x : Dom} (h : DomFrame L x₀ x) (page n : Nat)
    (hL : ∀ p ∈ [Part.domTir], p ∈ L) : DomFrame L x₀ (x.unsharePages page n) :=
  foldl_keeps (DomFrame L x₀) _ (fun _ _ hy => dfr_putEntry hy _ _ hL) _ h

theorem fr_latchRequest {L : List Part} {s₀ s : State} (h₀ : Frame L s₀ s) (d : Nat) (nowNs : Nat) (q : DomRequest) (copy : Nat)
    (hL : ∀ p ∈ [Part.pci, .pciPending, .ful, .traceHead, .slots, .views, .pairs, .counters, .acc, .opbuf, .out, .domLife, .domRecord, .domQueue, .domSlabs, .domSched, .domTir, .domMem, .domPoison], p ∈ L) :
    Frame L s₀ (State.latchRequest s d nowNs q copy).1 := by
  unfold State.latchRequest
  repeat' (first
    | with_reducible assumption
    | exact sub_trans hL (by decide)
    | (extract_lets +onlyGivenNames x; first
        | (refine (fun (hx : Frame L s₀ x) => ?_) ?_; (on_goal 1 => clear_value x); (on_goal 2 => subst x))
        | ((have y : Bool := x); clear y; clear_value x)
        | ((have y : List Nat := x); clear y; clear_value x)
        | subst x)
    | with_reducible apply fr_latchResize
    | (refine fr_latchResize_eq ?_ (by assumption) ?_)
    | with_reducible apply fr_clearUnits
    | with_reducible apply fr_updDom
    | with_reducible apply fr_lksFinal
    | with_reducible apply fr_dropMisfits
    | split
    | with_reducible apply dfr_sharePages
    | with_reducible apply dfr_unsharePages
    | with_reducible apply dfr_mk
    | with_reducible exact dfr_refl _ _
    | with_reducible exact Or.inr rfl
    | with_reducible exact Or.inr (same_mem _)
    | with_reducible exact Or.inr (same_domLife _)
    | with_reducible exact Or.inr (same_domRecord _)
    | with_reducible exact Or.inr (same_domPreempt _)
    | with_reducible exact Or.inr (same_domSlabs _)
    | with_reducible exact Or.inr (same_domSched _)
    | exact Or.inr (fun _ => rfl)
    | with_reducible exact Or.inl (hL .pci (by decide))
    | with_reducible exact Or.inl (hL .pciPending (by decide))
    | with_reducible exact Or.inl (hL .ful (by decide))
    | with_reducible exact Or.inl (hL .traceHead (by decide))
    | with_reducible exact Or.inl (hL .slots (by decide))
    | with_reducible exact Or.inl (hL .views (by decide))
    | with_reducible exact Or.inl (hL .pairs (by decide))
    | with_reducible exact Or.inl (hL .counters (by decide))
    | with_reducible exact Or.inl (hL .acc (by decide))
    | with_reducible exact Or.inl (hL .opbuf (by decide))
    | with_reducible exact Or.inl (hL .out (by decide))
    | with_reducible exact Or.inl (hL .domLife (by decide))
    | with_reducible exact Or.inl (hL .domRecord (by decide))
    | with_reducible exact Or.inl (hL .domQueue (by decide))
    | with_reducible exact Or.inl (hL .domSlabs (by decide))
    | with_reducible exact Or.inl (hL .domSched (by decide))
    | with_reducible exact Or.inl (hL .domTir (by decide))
    | with_reducible exact Or.inl (hL .domMem (by decide))
    | with_reducible exact Or.inl (hL .domPoison (by decide))
    | dsimp only
    | intro)
theorem fr_latchRequest_eq {L : List Part} {s₀ s : State} (h₀ : Frame L s₀ s) {d : Nat} {nowNs : Nat} {q : DomRequest} {copy : Nat} {r₁ : _} {u₀ : State}
    (e₀ : State.latchRequest s d nowNs q copy = (u₀, r₁))
    (hL : ∀ p ∈ [Part.pci, .pciPending, .ful, .traceHead, .slots, .views, .pairs, .counters, .acc, .opbuf, .out, .domLife, .domRecord, .domQueue, .domSlabs, .domSched, .domTir, .domMem, .domPoison], p ∈ L) : Frame L s₀ u₀ := by
  have x := fr_latchRequest h₀ d nowNs q copy hL
  rw [e₀] at x
  exact x

theorem fr_latchRequests {L : List Part} {s₀ s : State} (h₀ : Frame L s₀ s) (d : Nat) (nowNs : Nat)
    (hL : ∀ p ∈ [Part.pci, .pciPending, .ful, .traceHead, .slots, .views, .pairs, .counters, .acc, .opbuf, .out, .domLife, .domRecord, .domPreempt, .domQueue, .domSlabs, .domSched, .domVec, .domVar, .domUpd, .domKvp, .domTir, .domCol, .domKeys, .domMem, .domPoison], p ∈ L) :
    Frame L s₀ (State.latchRequests s d nowNs) := by
  unfold State.latchRequests
  repeat' (first
    | with_reducible assumption
    | exact sub_trans hL (by decide)
    | with_reducible apply fr_latchRequest
    | with_reducible apply fr_updDom
    | with_reducible apply fr_foldl
    | split
    | with_reducible apply dfr_mk
    | with_reducible exact Or.inr rfl
    | with_reducible exact Or.inr (same_mem _)
    | with_reducible exact Or.inr (same_domRecord _)
    | with_reducible exact Or.inr (same_domPreempt _)
    | with_reducible exact Or.inr (same_domSlabs _)
    | with_reducible exact Or.inr (same_domSched _)
    | with_reducible exact Or.inl (hL .domLife (by decide))
    | dsimp only
    | intro)

end Sys2Proof.Laws
end

