-- ==== Sys2Proof/Laws/FrameLocksmith.lean ====
section
/-! SUPPORT. What the operations of Machine/Locksmith.lean may change (Safety.Frame): each lemma lists the parts. -/

namespace Sys2Proof.Laws

open Sys2Proof.Machine Sys2Proof.Safety

theorem fr_execSession {L : List Part} {s₀ s : State} (h₀ : Frame L s₀ s) (v : View) (posted : Bool) (d : Fin 64)
    (rsv : BitVec 50)
    (hL : ∀ p ∈ [Part.pciPending, .traceHead, .views, .pairs, .counters, .out, .domKeys], p ∈ L) :
    FrameOut L s₀ (execSession v posted d rsv s) := by
  unfold execSession
  repeat' (first
    | with_reducible assumption
    | exact sub_trans hL (by decide)
    | (extract_lets +onlyGivenNames x; ((have y : Nat := x); clear y; clear_value x))
    | with_reducible apply fr_lksCmd
    | with_reducible apply fr_updDom
    | split
    | with_reducible apply dfr_updKeys
    | with_reducible apply fro_next
    | with_reducible exact dfr_refl _ _
    | dsimp only
    | intro)

theorem fr_execRotate {L : List Part} {s₀ s : State} (h₀ : Frame L s₀ s) (v : View) (posted : Bool) (d : Fin 64)
    (rsv : BitVec 50)
    (hL : ∀ p ∈ [Part.pciPending, .lks, .traceHead, .views, .pairs, .counters, .out, .domKeys], p ∈ L) :
    FrameOut L s₀ (execRotate v posted d rsv s) := by
  unfold execRotate
  repeat' (first
    | with_reducible assumption
    | exact sub_trans hL (by decide)
    | (extract_lets +onlyGivenNames x; ((have y : Nat := x); clear y; clear_value x))
    | with_reducible apply fr_lksCmd
    | with_reducible apply fr_takeDraw
    | with_reducible apply fr_updDom
    | split
    | with_reducible apply dfr_updKeys
    | with_reducible apply fro_next
    | with_reducible exact dfr_refl _ _
    | dsimp only
    | intro)

theorem fr_sweepEnds {L : List Part} {s₀ s : State} (h₀ : Frame L s₀ s) (d : Nat) (amount : Nat)
    (hL : ∀ p ∈ [Part.counters, .domTir, .domKeys], p ∈ L) :
    Frame L s₀ (State.sweepEnds s d amount) := by
  unfold State.sweepEnds
  repeat' (first
    | with_reducible assumption
    | exact sub_trans hL (by decide)
    | (extract_lets +onlyGivenNames x; first
        | (refine (fun (hx : Frame L s₀ x) => ?_) ?_; (on_goal 1 => clear_value x); (on_goal 2 => subst x))
        | ((have y : Nat := x); clear y; clear_value x)
        | ((have y : List Nat := x); clear y; clear_value x)
        | subst x)
    | with_reducible apply fr_updDom
    | with_reducible apply fr_bump
    | with_reducible refine foldl_keeps (DomFrame L _) _ ?_ _ ?_
    | split
    | with_reducible apply dfr_updKeys
    | with_reducible apply dfr_putEntry
    | with_reducible exact dfr_refl _ _
    | dsimp only
    | intro)

theorem fr_latchKeys {L : List Part} {s₀ s : State} (h₀ : Frame L s₀ s) (d : Nat)
    (hL : ∀ p ∈ [Part.pciPending, .lks, .traceHead, .views, .pairs, .counters, .out, .domKeys], p ∈ L) :
    Frame L s₀ (State.latchKeys s d) := by
  unfold State.latchKeys
  repeat' (first
    | with_reducible assumption
    | exact sub_trans hL (by decide)
    | (extract_lets +onlyGivenNames x; first
        | (refine (fun (hx : Frame L s₀ x) => ?_) ?_; (on_goal 1 => clear_value x); (on_goal 2 => subst x))
        | subst x)
    | with_reducible apply fr_updDom
    | with_reducible apply fr_takeDraw
    | with_reducible apply fr_lksFinal
    | with_reducible apply fr_raiseDom
    | with_reducible apply fr_bump
    | split
    | with_reducible apply dfr_updKeys
    | with_reducible exact dfr_refl _ _
    | dsimp only
    | intro)

theorem fr_execAttest {L : List Part} {s₀ s : State} (h₀ : Frame L s₀ s) (v : View) (posted : Bool) (d : Fin 64)
    (rsv : BitVec 50)
    (hL : ∀ p ∈ [Part.pciPending, .lks, .traceHead, .views, .pairs, .counters, .out], p ∈ L) :
    FrameOut L s₀ (execAttest v posted d rsv s) := by
  unfold execAttest
  repeat' (first
    | with_reducible assumption
    | exact sub_trans hL (by decide)
    | (extract_lets +onlyGivenNames x; ((have y : Nat := x); clear y; clear_value x))
    | with_reducible apply fr_lksCmd
    | with_reducible apply fr_updLks
    | split
    | with_reducible apply fro_next
    | dsimp only
    | intro)

theorem fr_signB {L : List Part} {s₀ s : State} (h₀ : Frame L s₀ s) 
    (hL : ∀ p ∈ [Part.pciPending, .lks, .traceHead, .views, .pairs, .counters, .commons, .commonsPoison, .out], p ∈ L) :
    Frame L s₀ (State.signB s) := by
  unfold State.signB
  repeat' (first
    | with_reducible assumption
    | exact sub_trans hL (by decide)
    | (extract_lets +onlyGivenNames x; (refine (fun (hx : Frame L s₀ x) => ?_) ?_; (on_goal 1 => clear_value x); (on_goal 2 => subst x)))
    | with_reducible apply fr_updLks
    | with_reducible apply fr_lksFinal
    | with_reducible apply fr_bump
    | with_reducible apply fr_wrCommons
    | split)

theorem fr_signA {L : List Part} {s₀ s : State} (h₀ : Frame L s₀ s) 
    (hL : ∀ p ∈ [Part.lks, .freeCtr, .out], p ∈ L) :
    Frame L s₀ (State.signA s) := by
  unfold State.signA
  repeat' (first
    | with_reducible assumption
    | exact sub_trans hL (by decide)
    | with_reducible apply fr_takeFree
    | with_reducible apply fr_emit
    | with_reducible apply fr_updLks
    | split)

theorem fr_execIdentity {L : List Part} {s₀ s : State} (h₀ : Frame L s₀ s) (v : View) (posted : Bool) (d : Fin 64)
    (rsv : BitVec 50)
    (hL : ∀ p ∈ [Part.pciPending, .traceHead, .views, .pairs, .counters, .commons, .commonsPoison, .out], p ∈ L) :
    FrameOut L s₀ (execIdentity v posted d rsv s) := by
  unfold execIdentity
  repeat' (first
    | with_reducible assumption
    | exact sub_trans hL (by decide)
    | (extract_lets +onlyGivenNames x; ((have y : Nat := x); clear y; clear_value x))
    | with_reducible apply fr_lksCmd
    | with_reducible apply fr_lksFinal
    | with_reducible apply fr_wrCommons
    | split
    | with_reducible apply fro_next
    | dsimp only
    | intro)

theorem fr_authFail {L : List Part} {s₀ s : State} (h₀ : Frame L s₀ s) (copy : Nat)
    (hL : ∀ p ∈ [Part.pciPending, .traceHead, .views, .counters, .out], p ∈ L) :
    Frame L s₀ (State.authFail s copy) := by
  unfold State.authFail
  repeat' (first
    | with_reducible assumption
    | exact sub_trans hL (by decide)
    | with_reducible apply fr_raiseCopy
    | with_reducible apply fr_bump)

theorem fr_execCertInstall {L : List Part} {s₀ s : State} (h₀ : Frame L s₀ s) (v : View) (posted : Bool) (d : Fin 64)
    (rsv : BitVec 50)
    (hL : ∀ p ∈ [Part.fuses, .pciPending, .traceHead, .views, .pairs, .counters, .out], p ∈ L) :
    FrameOut L s₀ (execCertInstall v posted d rsv s) := by
  unfold execCertInstall
  repeat' (first
    | with_reducible assumption
    | exact sub_trans hL (by decide)
    | with_reducible apply fr_lksCmd
    | with_reducible apply fr_lksFinal
    | with_reducible apply fr_updFuses
    | with_reducible apply fr_authFail
    | split
    | with_reducible apply fro_next
    | dsimp only
    | intro)

theorem fr_execKeyImport {L : List Part} {s₀ s : State} (h₀ : Frame L s₀ s) (v : View) (posted : Bool) (d : Fin 64)
    (rsv : BitVec 50)
    (hL : ∀ p ∈ [Part.pciPending, .traceHead, .views, .pairs, .counters, .out, .domKeys], p ∈ L) :
    FrameOut L s₀ (execKeyImport v posted d rsv s) := by
  unfold execKeyImport
  repeat' (first
    | with_reducible assumption
    | exact sub_trans hL (by decide)
    | (extract_lets +onlyGivenNames x; ((have y : Nat := x); clear y; clear_value x))
    | with_reducible apply fr_lksCmd
    | with_reducible apply fr_authFail
    | with_reducible apply fr_updDom
    | with_reducible apply fr_lksFinal
    | split
    | with_reducible apply dfr_updKeys
    | with_reducible apply fro_next
    | with_reducible exact dfr_refl _ _
    | dsimp only
    | intro)

theorem fr_execKeyDrop {L : List Part} {s₀ s : State} (h₀ : Frame L s₀ s) (v : View) (posted : Bool) (d : Fin 64)
    (rsv : BitVec 50)
    (hL : ∀ p ∈ [Part.pciPending, .traceHead, .views, .pairs, .counters, .out, .domKeys], p ∈ L) :
    FrameOut L s₀ (execKeyDrop v posted d rsv s) := by
  unfold execKeyDrop
  repeat' (first
    | with_reducible assumption
    | exact sub_trans hL (by decide)
    | (extract_lets +onlyGivenNames x; ((have y : Nat := x); clear y; clear_value x))
    | with_reducible apply fr_lksCmd
    | with_reducible apply fr_lksFinal
    | with_reducible apply fr_updDom
    | split
    | with_reducible apply dfr_updKeys
    | with_reducible apply fro_next
    | with_reducible exact dfr_refl _ _
    | dsimp only
    | intro)

theorem fr_execLifecycle {L : List Part} {s₀ s : State} (h₀ : Frame L s₀ s) (v : View) (posted : Bool) (d : Fin 64) (rsv : BitVec 50)
    (hL : ∀ p ∈ [Part.fuses, .pciPending, .traceHead, .views, .pairs, .counters, .out], p ∈ L) :
    FrameOut L s₀ (execLifecycle v posted d rsv s) := by
  unfold execLifecycle
  refine fro_next (fr_lksCmd h₀ _ _ _ _ _ _ (fun c t h => ?_) (sub_trans hL (by decide)))
  split
  · exact h
  · exact fr_lksFinal (fr_updFuses h _ (sub_trans hL (by decide))) _ _ _ _ (sub_trans hL (by decide))
  · split
    · exact h
    · dsimp only
      split
      · exact fr_lksFinal (fr_updFuses h _ (sub_trans hL (by decide))) _ _ _ _ (sub_trans hL (by decide))
      · exact fr_authFail h _ (sub_trans hL (by decide))

theorem fr_execSvnCommit {L : List Part} {s₀ s : State} (h₀ : Frame L s₀ s) (v : View) (posted : Bool) (d : Fin 64) (rsv : BitVec 50)
    (hL : ∀ p ∈ [Part.fuses, .pciPending, .traceHead, .views, .pairs, .counters, .out], p ∈ L) :
    FrameOut L s₀ (execSvnCommit v posted d rsv s) := by
  unfold execSvnCommit
  refine fro_next (fr_lksCmd h₀ _ _ _ _ _ _ (fun c t h => ?_) (sub_trans hL (by decide)))
  split
  · exact h
  · rename_i hn
    exact fr_lksFinal (fr_updFuses h _ (sub_trans hL (by decide))) _ _ _ _ (sub_trans hL (by decide))

end Sys2Proof.Laws
end

