-- ==== Sys2Proof/Laws/FramePower.lean ====
section
/-! SUPPORT. What the operations of Machine/Power.lean may change (Safety.Frame): each lemma lists the parts. -/

namespace Sys2Proof.Laws

open Sys2Proof.Machine Sys2Proof.Safety

theorem fr_execEpochDecision {L : List Part} {s₀ s : State} (h₀ : Frame L s₀ s) 
    (hL : ∀ p ∈ [Part.pwr], p ∈ L) :
    FrameOut L s₀ (execEpochDecision s) := by
  unfold execEpochDecision
  repeat' (first
    | with_reducible assumption
    | exact sub_trans hL (by decide)
    | (extract_lets +onlyGivenNames x; first
        | ((have y : Nat := x); clear y; clear_value x)
        | subst x)
    | with_reducible apply fr_updPwr
    | split
    | with_reducible apply fro_next)

theorem fr_latchLevel {L : List Part} {s₀ s : State} (h₀ : Frame L s₀ s) (tick : Nat) (first : Bool)
    (hL : ∀ p ∈ [Part.fuses, .pciPending, .tik, .pwr, .bdg, .traceHead, .views, .counters, .out], p ∈ L) :
    Frame L s₀ (State.latchLevel s tick first) := by
  unfold State.latchLevel
  repeat' (first
    | with_reducible assumption
    | exact sub_trans hL (by decide)
    | (extract_lets +onlyGivenNames x; first
        | (refine (fun (hx : Frame L s₀ x) => ?_) ?_; (on_goal 1 => clear_value x); (on_goal 2 => subst x))
        | ((have y : Nat := x); clear y; clear_value x)
        | ((have y : Bool := x); clear y; clear_value x)
        | subst x)
    | with_reducible apply fr_updPwr
    | with_reducible apply fr_updTik
    | with_reducible apply fr_bump
    | with_reducible apply fr_updBdg
    | with_reducible apply fr_updFuses
    | with_reducible apply fr_raiseDev
    | split)

theorem fr_execComputeDieSensorRead {L : List Part} {s₀ s : State} (h₀ : Frame L s₀ s) (sensors : List Nat) (pInW : Nat)
    (vInMv : Nat)
    (hL : ∀ p ∈ [Part.boot, .pwr], p ∈ L) :
    FrameOut L s₀ (execComputeDieSensorRead sensors pInW vInMv s) := by
  unfold execComputeDieSensorRead
  repeat' (first
    | with_reducible assumption
    | exact sub_trans hL (by decide)
    | with_reducible apply fr_updBoot
    | with_reducible apply fr_updPwr
    | split
    | with_reducible apply fro_next)

theorem fr_execInputRange {L : List Part} {s₀ s : State} (h₀ : Frame L s₀ s) (mV : Nat)
    (hL : ∀ p ∈ [Part.boot, .pciPending, .pwr, .traceHead, .views, .counters, .out], p ∈ L) :
    FrameOut L s₀ (execInputRange mV s) := by
  unfold execInputRange
  repeat' (first
    | with_reducible assumption
    | exact sub_trans hL (by decide)
    | with_reducible apply fr_raiseDev
    | with_reducible apply fr_updBoot
    | with_reducible apply fr_updPwr
    | split
    | with_reducible apply fro_next)

theorem fr_endTickPower {L : List Part} {s₀ s : State} (h₀ : Frame L s₀ s) (nowNs : Nat)
    (hL : ∀ p ∈ [Part.pwr, .counters], p ∈ L) :
    Frame L s₀ (State.endTickPower s nowNs) := by
  unfold State.endTickPower
  repeat' (first
    | with_reducible assumption
    | exact sub_trans hL (by decide)
    | (extract_lets +onlyGivenNames x; first
        | (refine (fun (hx : Frame L s₀ x) => ?_) ?_; (on_goal 1 => clear_value x); (on_goal 2 => subst x))
        | ((have y : Nat := x); clear y; clear_value x)
        | subst x)
    | with_reducible apply fr_bump
    | with_reducible apply fr_updPwr
    | split)

theorem fr_writeBounds {L : List Part} {s₀ s : State} (h₀ : Frame L s₀ s) (v : View) (ceil : Nat) (floor : Nat)
    (cap : Nat) (tj : Nat) (dram : Nat)
    (hL : ∀ p ∈ [Part.pciPending, .pwr, .traceHead, .views, .counters, .out], p ∈ L) :
    Frame L s₀ (State.writeBounds s v ceil floor cap tj dram) := by
  unfold State.writeBounds
  repeat' (first
    | with_reducible assumption
    | exact sub_trans hL (by decide)
    | (extract_lets +onlyGivenNames x; subst x)
    | with_reducible apply fr_raiseDev
    | with_reducible apply fr_updPwr
    | split)

theorem fr_execPwrBoundsWrite {L : List Part} {s₀ s : State} (h₀ : Frame L s₀ s) (v : View) (value : W32)
    (hL : ∀ p ∈ [Part.pciPending, .pwr, .traceHead, .views, .counters, .out], p ∈ L) :
    FrameOut L s₀ (execPwrBoundsWrite v value s) := by
  unfold execPwrBoundsWrite
  repeat' (first
    | with_reducible assumption
    | exact sub_trans hL (by decide)
    | (extract_lets +onlyGivenNames x; ((have y : Nat := x); clear y; clear_value x))
    | with_reducible apply fr_writeBounds
    | with_reducible apply fro_next)

theorem fr_execPwrTargetsWrite {L : List Part} {s₀ s : State} (h₀ : Frame L s₀ s) (v : View) (value : W32)
    (hL : ∀ p ∈ [Part.pciPending, .pwr, .traceHead, .views, .counters, .out], p ∈ L) :
    FrameOut L s₀ (execPwrTargetsWrite v value s) := by
  unfold execPwrTargetsWrite
  repeat' (first
    | with_reducible assumption
    | exact sub_trans hL (by decide)
    | (extract_lets +onlyGivenNames x; ((have y : Nat := x); clear y; clear_value x))
    | with_reducible apply fr_writeBounds
    | with_reducible apply fro_next)

theorem fr_execMeasure {L : List Part} {s₀ s : State} (h₀ : Frame L s₀ s) (v : View)
    (hL : ∀ p ∈ [Part.bdg], p ∈ L) :
    FrameOut L s₀ (execMeasure v s) := by
  unfold execMeasure
  repeat' (first
    | with_reducible assumption
    | exact sub_trans hL (by decide)
    | with_reducible apply fr_updBdg
    | split
    | with_reducible apply fro_next)

theorem fr_badgerWindow {L : List Part} {s₀ s : State} (h₀ : Frame L s₀ s)
    (hL : ∀ p ∈ [Part.bdg], p ∈ L) :
    Frame L s₀ (State.badgerWindow s) := by
  unfold State.badgerWindow
  repeat' (first
    | with_reducible assumption
    | exact sub_trans hL (by decide)
    | with_reducible apply fr_updBdg
    | split)

theorem fr_measured {L : List Part} {s₀ s : State} (h₀ : Frame L s₀ s) (req : List Nat)
    (hL : ∀ p ∈ [Part.fuses, .pciPending, .bdg, .traceHead, .views, .counters, .out], p ∈ L) :
    Frame L s₀ (State.measured s req) := by
  unfold State.measured
  repeat' (first
    | with_reducible assumption
    | exact sub_trans hL (by decide)
    | (extract_lets +onlyGivenNames x; first
        | (refine (fun (hx : Frame L s₀ x) => ?_) ?_; (on_goal 1 => clear_value x); (on_goal 2 => subst x))
        | ((have y : Bool := x); clear y; clear_value x)
        | ((have y : List Nat := x); clear y; clear_value x)
        | subst x)
    | with_reducible apply fr_updFuses
    | with_reducible apply fr_updBdg
    | with_reducible apply fr_bump
    | with_reducible apply fr_raiseDev
    | split)

theorem fr_execBadgerMeasure {L : List Part} {s₀ s : State} (h₀ : Frame L s₀ s) (reading : BadgerReading)
    (hL : ∀ p ∈ [Part.fuses, .pciPending, .bdg, .traceHead, .views, .counters, .out], p ∈ L) :
    FrameOut L s₀ (execBadgerMeasure reading s) := by
  unfold execBadgerMeasure
  repeat' (first
    | with_reducible assumption
    | exact sub_trans hL (by decide)
    | with_reducible apply fr_measured
    | split
    | with_reducible apply fro_next)

theorem fr_execMeasureSkipped {L : List Part} {s₀ s : State} (h₀ : Frame L s₀ s)
    (hL : ∀ p ∈ [Part.pciPending, .bdg, .traceHead, .views, .counters, .out], p ∈ L) :
    FrameOut L s₀ (execMeasureSkipped s) := by
  unfold execMeasureSkipped
  repeat' (first
    | with_reducible assumption
    | exact sub_trans hL (by decide)
    | with_reducible apply fr_updBdg
    | with_reducible apply fr_raiseDev
    | split
    | with_reducible apply fro_next)

end Sys2Proof.Laws
end

