-- ==== Sys2Proof/Laws/FrameLatch.lean ====
section
/-! SUPPORT. What the operations of Machine/Latch.lean may change (Safety.Frame): each lemma lists the parts. -/

namespace Sys2Proof.Laws

open Sys2Proof.Machine Sys2Proof.Safety

theorem dfr_openBatch {L : List Part} {x₀ x : Dom} (h : DomFrame L x₀ x) (id : Nat) (tick : Nat) (gen : Nat)
    (hL : ∀ p ∈ [Part.domSlabs, .domUpd], p ∈ L) : DomFrame L x₀ (Dom.openBatch x id tick gen) := by
  unfold Dom.openBatch
  repeat' (first
    | with_reducible assumption
    | exact sub_trans hL (by decide)
    | (extract_lets +onlyGivenNames z; subst z)
    | with_reducible apply dfr_updUpd
    | split
    | (refine dfr_trans (by assumption) ?_; with_reducible apply dfr_mk)
    | with_reducible apply dfr_mk
    | with_reducible exact Or.inr rfl
    | with_reducible exact Or.inr (same_mem _)
    | with_reducible exact Or.inr (same_domLife _)
    | with_reducible exact Or.inr (same_domRecord _)
    | with_reducible exact Or.inr (same_domPreempt _)
    | with_reducible exact Or.inr (same_domSlabs _)
    | with_reducible exact Or.inr (same_domSched _)
    | with_reducible exact Or.inl (hL .domSlabs (by decide)))

theorem dfr_takeDevPlan {L : List Part} {x₀ x : Dom} (h : DomFrame L x₀ x)
    (hL : ∀ p ∈ [Part.domSlabs], p ∈ L) :
    DomFrame L x₀ (x.takeDevPlan) := by
  refine dfr_trans h ?_
  unfold Dom.takeDevPlan
  dsimp only
  with_reducible apply dfr_mk
  repeat' first
    | with_reducible exact Or.inr rfl
    | with_reducible exact Or.inr (same_domLife _)
    | with_reducible exact Or.inr (same_domRecord _)
    | with_reducible exact Or.inr (same_domPreempt _)
    | with_reducible exact Or.inr (same_domSlabs _)
    | with_reducible exact Or.inr (same_domSched _)
    | with_reducible exact Or.inr (same_mem _)
    | exact Or.inl (hL .domSlabs (by decide))

theorem dfr_shelved {L : List Part} {x₀ x : Dom} (h : DomFrame L x₀ x)
    (hL : ∀ p ∈ [Part.domSlabs], p ∈ L) :
    DomFrame L x₀ (x.shelved) := by
  refine dfr_trans h ?_
  unfold Dom.shelved
  with_reducible apply dfr_mk
  repeat' first
    | with_reducible exact Or.inr rfl
    | with_reducible exact Or.inr (same_domLife _)
    | with_reducible exact Or.inr (same_domRecord _)
    | with_reducible exact Or.inr (same_domPreempt _)
    | with_reducible exact Or.inr (same_domSlabs _)
    | with_reducible exact Or.inr (same_domSched _)
    | with_reducible exact Or.inr (same_mem _)
    | exact Or.inl (hL .domSlabs (by decide))

theorem dfr_takeSlabs {L : List Part} {x₀ x : Dom} (h : DomFrame L x₀ x) (tick : Nat)
    (hL : ∀ p ∈ [Part.domSlabs], p ∈ L) :
    DomFrame L x₀ (x.takeSlabs tick) := by
  have h1 : DomFrame L x₀ { x with slabs := x.slabs.map (fun b => b.takePlan tick) } := by
    refine dfr_trans h ?_
    with_reducible apply dfr_mk
    repeat' first
      | with_reducible exact Or.inr rfl
      | with_reducible exact Or.inr (same_domLife _)
      | with_reducible exact Or.inr (same_domRecord _)
      | with_reducible exact Or.inr (same_domPreempt _)
      | with_reducible exact Or.inr (same_domSlabs _)
      | with_reducible exact Or.inr (same_domSched _)
      | with_reducible exact Or.inr (same_mem _)
      | exact Or.inl (hL .domSlabs (by decide))
  exact dfr_takeDevPlan h1 (sub_trans hL (by decide))

theorem fr_untraced {L : List Part} {s₀ s : State} (h₀ : Frame L s₀ s) (p : Nat)
    (hL : ∀ p ∈ [Part.dbg, .traceHead], p ∈ L) :
    Frame L s₀ (State.untraced s p) := by
  unfold State.untraced
  repeat' (first
    | with_reducible assumption
    | exact sub_trans hL (by decide)
    | split
    | with_reducible apply fr_mk
    | with_reducible exact Or.inr rfl
    | with_reducible exact Or.inr (same_mem _)
    | with_reducible exact Or.inr (same_poison _)
    | with_reducible exact Or.inr (same_head _)
    | with_reducible exact same_ring _
    | exact Or.inr (fun _ => rfl)
    | with_reducible exact Or.inl (hL .traceHead (by decide)))

theorem fr_latchEvicted {L : List Part} {s₀ s : State} (h₀ : Frame L s₀ s) (d : Nat) (p : Nat)
    (hL : ∀ p ∈ [Part.dbg, .traceHead, .domTir], p ∈ L) :
    Frame L s₀ (State.latchEvicted s d p) := by
  unfold State.latchEvicted
  repeat' (first
    | with_reducible assumption
    | exact sub_trans hL (by decide)
    | (extract_lets +onlyGivenNames x; first
        | (refine (fun (hx : Frame L s₀ x) => ?_) ?_; (on_goal 1 => clear_value x); (on_goal 2 => subst x))
        | subst x)
    | with_reducible apply fr_updDom
    | with_reducible apply fr_untraced
    | split
    | with_reducible apply dfr_freeFrame
    | with_reducible apply dfr_putEntry
    | with_reducible apply dfr_mk
    | with_reducible exact dfr_refl _ _
    | with_reducible exact Or.inr rfl
    | with_reducible exact Or.inr (same_mem _)
    | with_reducible exact Or.inr (same_domLife _)
    | with_reducible exact Or.inr (same_domRecord _)
    | with_reducible exact Or.inr (same_domPreempt _)
    | with_reducible exact Or.inr (same_domSlabs _)
    | with_reducible exact Or.inr (same_domSched _)
    | exact Or.inr (fun _ => rfl)
    | with_reducible exact Or.inl (hL .dbg (by decide))
    | with_reducible exact Or.inl (hL .traceHead (by decide))
    | with_reducible exact Or.inl (hL .domTir (by decide))
    | dsimp only
    | intro)

theorem fr_latchDiscard {L : List Part} {s₀ s : State} (h₀ : Frame L s₀ s) (d : Nat) (p : Nat)
    (hL : ∀ p ∈ [Part.dbg, .traceHead, .counters, .out, .domTir, .domMem, .domPoison], p ∈ L) :
    Frame L s₀ (State.latchDiscard s d p) := by
  unfold State.latchDiscard
  repeat' (first
    | with_reducible assumption
    | exact sub_trans hL (by decide)
    | (extract_lets +onlyGivenNames x; first
        | (refine (fun (hx : Frame L s₀ x) => ?_) ?_; (on_goal 1 => clear_value x); (on_goal 2 => subst x))
        | subst x)
    | with_reducible apply fr_updDom
    | with_reducible apply fr_untraced
    | with_reducible apply fr_nvme
    | split
    | with_reducible apply dfr_wipePage
    | with_reducible apply dfr_mk
    | with_reducible exact dfr_refl _ _
    | with_reducible exact Or.inr rfl
    | with_reducible exact Or.inr (same_mem _)
    | with_reducible exact Or.inr (same_domLife _)
    | with_reducible exact Or.inr (same_domRecord _)
    | with_reducible exact Or.inr (same_domPreempt _)
    | with_reducible exact Or.inr (same_domSlabs _)
    | with_reducible exact Or.inr (same_domSched _)
    | exact Or.inr (fun _ => rfl)
    | with_reducible exact Or.inl (hL .dbg (by decide))
    | with_reducible exact Or.inl (hL .traceHead (by decide))
    | with_reducible exact Or.inl (hL .counters (by decide))
    | with_reducible exact Or.inl (hL .out (by decide))
    | with_reducible exact Or.inl (hL .domTir (by decide))
    | with_reducible exact Or.inl (hL .domMem (by decide))
    | with_reducible exact Or.inl (hL .domPoison (by decide))
    | dsimp only
    | intro)

theorem fr_latchAct {L : List Part} {s₀ s : State} (h₀ : Frame L s₀ s) (a1 : LatchAct)
    (hL : ∀ p ∈ [Part.pciPending, .memg, .nvm, .bas, .dbg, .traceHead, .slots, .recipe, .views, .counters, .commons, .commonsPoison, .atLatch, .freeCtr, .out, .domSched, .domVar, .domUpd, .domKvp, .domTir, .domCol, .domMem, .domPoison], p ∈ L) :
    Frame L s₀ (State.latchAct s a1) := by
  unfold State.latchAct
  repeat' (first
    | with_reducible assumption
    | exact sub_trans hL (by decide)
    | with_reducible apply fr_updDom
    | with_reducible apply fr_updMemg
    | with_reducible apply fr_updBas
    | with_reducible apply fr_latchSlotLive
    | with_reducible apply fr_latchLoadFailed
    | with_reducible apply fr_latchLeave
    | with_reducible apply fr_latchStaged
    | with_reducible apply fr_latchUnstage
    | with_reducible apply fr_setExpert
    | with_reducible apply fr_latchSeqClose
    | with_reducible apply fr_latchEvicted
    | with_reducible apply fr_latchDiscard
    | split
    | with_reducible apply dfr_updVar
    | with_reducible apply dfr_updTir
    | with_reducible apply dfr_updCol
    | with_reducible apply dfr_updUpd
    | with_reducible apply dfr_updKvp
    | with_reducible apply dfr_updSeq
    | with_reducible apply dfr_putEntry
    | with_reducible apply dfr_freeFrame
    | with_reducible apply dfr_mk
    | with_reducible exact dfr_refl _ _
    | with_reducible apply fr_mk
    | with_reducible exact Or.inr rfl
    | with_reducible exact Or.inr (same_mem _)
    | with_reducible exact Or.inr (same_domLife _)
    | with_reducible exact Or.inr (same_domRecord _)
    | with_reducible exact Or.inr (same_domPreempt _)
    | with_reducible exact Or.inr (same_domSlabs _)
    | with_reducible exact Or.inr (same_domSched _)
    | with_reducible exact Or.inr (same_poison _)
    | with_reducible exact Or.inr (same_head _)
    | with_reducible exact same_ring _
    | exact Or.inr (fun _ => rfl)
    | with_reducible exact Or.inl (hL .pciPending (by decide))
    | with_reducible exact Or.inl (hL .memg (by decide))
    | with_reducible exact Or.inl (hL .nvm (by decide))
    | with_reducible exact Or.inl (hL .bas (by decide))
    | with_reducible exact Or.inl (hL .dbg (by decide))
    | with_reducible exact Or.inl (hL .traceHead (by decide))
    | with_reducible exact Or.inl (hL .slots (by decide))
    | with_reducible exact Or.inl (hL .recipe (by decide))
    | with_reducible exact Or.inl (hL .views (by decide))
    | with_reducible exact Or.inl (hL .counters (by decide))
    | with_reducible exact Or.inl (hL .commons (by decide))
    | with_reducible exact Or.inl (hL .commonsPoison (by decide))
    | with_reducible exact Or.inl (hL .atLatch (by decide))
    | with_reducible exact Or.inl (hL .freeCtr (by decide))
    | with_reducible exact Or.inl (hL .out (by decide))
    | with_reducible exact Or.inl (hL .domSched (by decide))
    | with_reducible exact Or.inl (hL .domVar (by decide))
    | with_reducible exact Or.inl (hL .domUpd (by decide))
    | with_reducible exact Or.inl (hL .domKvp (by decide))
    | with_reducible exact Or.inl (hL .domTir (by decide))
    | with_reducible exact Or.inl (hL .domCol (by decide))
    | with_reducible exact Or.inl (hL .domMem (by decide))
    | with_reducible exact Or.inl (hL .domPoison (by decide))
    | dsimp only
    | intro)

theorem fr_latchActs {L : List Part} {s₀ s : State} (h₀ : Frame L s₀ s)
    (hL : ∀ p ∈ [Part.pciPending, .memg, .nvm, .bas, .dbg, .traceHead, .slots, .recipe, .views, .counters, .commons, .commonsPoison, .atLatch, .freeCtr, .out, .domSched, .domVar, .domUpd, .domKvp, .domTir, .domCol, .domMem, .domPoison], p ∈ L) :
    Frame L s₀ (State.latchActs s) := by
  unfold State.latchActs
  repeat' (first
    | with_reducible assumption
    | exact sub_trans hL (by decide)
    | with_reducible apply fr_latchAct
    | with_reducible apply fr_foldl
    | with_reducible apply fr_foldl_fst
    | with_reducible apply fr_foldl_snd
    | (refine fr_foldl_fst_eq ?_ ?_ (by assumption))
    | (refine fr_foldl_snd_eq ?_ ?_ (by assumption))
    | split
    | with_reducible apply fr_mk
    | with_reducible exact Or.inr rfl
    | with_reducible exact Or.inr (same_mem _)
    | with_reducible exact Or.inr (same_poison _)
    | with_reducible exact Or.inr (same_head _)
    | with_reducible exact same_ring _
    | exact Or.inr (fun _ => rfl)
    | with_reducible exact Or.inl (hL .pciPending (by decide))
    | with_reducible exact Or.inl (hL .memg (by decide))
    | with_reducible exact Or.inl (hL .nvm (by decide))
    | with_reducible exact Or.inl (hL .bas (by decide))
    | with_reducible exact Or.inl (hL .dbg (by decide))
    | with_reducible exact Or.inl (hL .traceHead (by decide))
    | with_reducible exact Or.inl (hL .slots (by decide))
    | with_reducible exact Or.inl (hL .recipe (by decide))
    | with_reducible exact Or.inl (hL .views (by decide))
    | with_reducible exact Or.inl (hL .counters (by decide))
    | with_reducible exact Or.inl (hL .commons (by decide))
    | with_reducible exact Or.inl (hL .commonsPoison (by decide))
    | with_reducible exact Or.inl (hL .atLatch (by decide))
    | with_reducible exact Or.inl (hL .freeCtr (by decide))
    | with_reducible exact Or.inl (hL .out (by decide))
    | with_reducible exact Or.inl (hL .domSched (by decide))
    | with_reducible exact Or.inl (hL .domVar (by decide))
    | with_reducible exact Or.inl (hL .domUpd (by decide))
    | with_reducible exact Or.inl (hL .domKvp (by decide))
    | with_reducible exact Or.inl (hL .domTir (by decide))
    | with_reducible exact Or.inl (hL .domCol (by decide))
    | with_reducible exact Or.inl (hL .domMem (by decide))
    | with_reducible exact Or.inl (hL .domPoison (by decide))
    | dsimp only
    | intro)

theorem fr_releaseClosed {L : List Part} {s₀ s : State} (h₀ : Frame L s₀ s) (d : Nat)
    (hL : ∀ p ∈ [Part.slots, .domSlabs], p ∈ L) :
    Frame L s₀ (State.releaseClosed s d) := by
  unfold State.releaseClosed
  repeat' (first
    | with_reducible assumption
    | exact sub_trans hL (by decide)
    | (extract_lets +onlyGivenNames x; first
        | (refine (fun (hx : Frame L s₀ x) => ?_) ?_; (on_goal 1 => clear_value x); (on_goal 2 => subst x))
        | subst x)
    | with_reducible apply fr_releaseStamp
    | with_reducible apply fr_updDom
    | with_reducible apply fr_foldl
    | split
    | with_reducible apply dfr_mk
    | with_reducible exact Or.inr rfl
    | with_reducible exact Or.inr (same_mem _)
    | with_reducible exact Or.inr (same_domLife _)
    | with_reducible exact Or.inr (same_domRecord _)
    | with_reducible exact Or.inr (same_domPreempt _)
    | with_reducible exact Or.inr (same_domSched _)
    | with_reducible exact Or.inl (hL .domSlabs (by decide))
    | intro)

theorem fr_demandPage {L : List Part} {s₀ s : State} (h₀ : Frame L s₀ s) (d : Nat) (p : Nat)
    (hL : ∀ p ∈ [Part.counters, .atLatch, .freeCtr, .out, .domTir], p ∈ L) :
    Frame L s₀ (State.demandPage s d p) := by
  unfold State.demandPage
  repeat' (first
    | with_reducible assumption
    | exact sub_trans hL (by decide)
    | (extract_lets +onlyGivenNames x; first
        | (refine (fun (hx : Frame L s₀ x) => ?_) ?_; (on_goal 1 => clear_value x); (on_goal 2 => subst x))
        | subst x)
    | with_reducible apply fr_bump
    | with_reducible apply fr_readPage
    | split)

theorem fr_demandReads {L : List Part} {s₀ s : State} (h₀ : Frame L s₀ s) (d : Nat)
    (hL : ∀ p ∈ [Part.counters, .atLatch, .freeCtr, .out, .domSlabs, .domTir], p ∈ L) :
    Frame L s₀ (State.demandReads s d) := by
  unfold State.demandReads
  repeat' (first
    | with_reducible assumption
    | exact sub_trans hL (by decide)
    | (extract_lets +onlyGivenNames x; first
        | (refine (fun (hx : Frame L s₀ x) => ?_) ?_; (on_goal 1 => clear_value x); (on_goal 2 => subst x))
        | subst x)
    | with_reducible apply fr_updDom
    | with_reducible apply fr_startUp
    | (refine fr_startUp_eq ?_ (by assumption) ?_)
    | with_reducible apply fr_demandPage
    | with_reducible apply fr_foldl
    | with_reducible apply fr_foldl_fst
    | with_reducible apply fr_foldl_snd
    | (refine fr_foldl_fst_eq ?_ ?_ (by assumption))
    | (refine fr_foldl_snd_eq ?_ ?_ (by assumption))
    | split
    | with_reducible apply dfr_mk
    | with_reducible exact dfr_refl _ _
    | with_reducible exact Or.inr rfl
    | with_reducible exact Or.inr (same_mem _)
    | with_reducible exact Or.inr (same_domLife _)
    | with_reducible exact Or.inr (same_domRecord _)
    | with_reducible exact Or.inr (same_domPreempt _)
    | with_reducible exact Or.inr (same_domSlabs _)
    | with_reducible exact Or.inr (same_domSched _)
    | exact Or.inr (fun _ => rfl)
    | with_reducible exact Or.inl (hL .counters (by decide))
    | with_reducible exact Or.inl (hL .atLatch (by decide))
    | with_reducible exact Or.inl (hL .freeCtr (by decide))
    | with_reducible exact Or.inl (hL .out (by decide))
    | with_reducible exact Or.inl (hL .domSlabs (by decide))
    | with_reducible exact Or.inl (hL .domTir (by decide))
    | dsimp only
    | intro)

theorem dfr_openBatches {L : List Part} {x₀ x : Dom} (h : DomFrame L x₀ x) (tick gen : Nat)
    (hL : ∀ p ∈ [Part.domSlabs, .domUpd], p ∈ L) : DomFrame L x₀ (x.openBatches tick gen) :=
  foldl_keeps (DomFrame L x₀) _ (fun _ _ hy => dfr_openBatch hy _ _ _ hL) _ h

theorem dfr_latchPlan {L : List Part} {x₀ x : Dom} (h : DomFrame L x₀ x) (tick edom wCap : Nat)
    (hL : ∀ p ∈ [Part.domSlabs, .domSched], p ∈ L) : DomFrame L x₀ (x.latchPlan tick edom wCap) := by
  have h1 : DomFrame L x₀ (if x.phase = .preempted then x.shelved else x.takeSlabs tick) := by
    split
    · exact dfr_shelved h (sub_trans hL (by decide))
    · exact dfr_takeSlabs h tick (sub_trans hL (by decide))
  refine dfr_trans h1 ?_
  · with_reducible apply dfr_mk
    repeat' first
      | with_reducible exact Or.inr rfl
      | with_reducible exact Or.inr (same_domLife _)
      | with_reducible exact Or.inr (same_domRecord _)
      | with_reducible exact Or.inr (same_domPreempt _)
      | with_reducible exact Or.inr (same_domSlabs _)
      | with_reducible exact Or.inl (hL .domSched (by decide))
      | with_reducible exact Or.inr (same_mem _)

theorem fr_takePlan {L : List Part} {s₀ s : State} (h₀ : Frame L s₀ s) (d : Nat) (tick : Nat)
    (hL : ∀ p ∈ [Part.counters, .atLatch, .freeCtr, .out, .domSlabs, .domSched, .domUpd, .domTir], p ∈ L) :
    Frame L s₀ (State.takePlan s d tick) := by
  have h1 := fr_updDom h₀ d _ (fun x => dfr_latchPlan (dfr_openBatches (dfr_refl L x) tick s.stampGen (sub_trans hL (by decide)))
    tick s.pwr.edom s.tik.wCap (sub_trans hL (by decide)))
  unfold State.takePlan
  dsimp only
  split
  · exact h1
  · exact fr_demandReads h1 d (sub_trans hL (by decide))

theorem fr_latchPreempt {L : List Part} {s₀ s : State} (h₀ : Frame L s₀ s) (d : Nat) (tick : Nat)
    (hL : ∀ p ∈ [Part.pciPending, .slots, .counters, .out, .domLife, .domPreempt], p ∈ L) :
    Frame L s₀ (State.latchPreempt s d tick) := by
  unfold State.latchPreempt
  repeat' (first
    | with_reducible assumption
    | exact sub_trans hL (by decide)
    | (extract_lets +onlyGivenNames x; first
        | (refine (fun (hx : Frame L s₀ x) => ?_) ?_; (on_goal 1 => clear_value x); (on_goal 2 => subst x))
        | subst x)
    | with_reducible apply fr_updDom
    | with_reducible apply fr_bump
    | with_reducible apply fr_msix
    | with_reducible apply fr_loseStaged
    | split
    | with_reducible apply dfr_mk
    | with_reducible exact dfr_refl _ _
    | with_reducible exact Or.inr rfl
    | with_reducible exact Or.inr (same_mem _)
    | with_reducible exact Or.inr (same_domLife _)
    | with_reducible exact Or.inr (same_domRecord _)
    | with_reducible exact Or.inr (same_domPreempt _)
    | with_reducible exact Or.inr (same_domSlabs _)
    | with_reducible exact Or.inr (same_domSched _)
    | exact Or.inr (fun _ => rfl)
    | with_reducible exact Or.inl (hL .pciPending (by decide))
    | with_reducible exact Or.inl (hL .slots (by decide))
    | with_reducible exact Or.inl (hL .counters (by decide))
    | with_reducible exact Or.inl (hL .out (by decide))
    | with_reducible exact Or.inl (hL .domLife (by decide))
    | with_reducible exact Or.inl (hL .domPreempt (by decide))
    | dsimp only
    | intro)

theorem fr_chooseParent {L : List Part} {s₀ s : State} (h₀ : Frame L s₀ s) 
    (hL : ∀ p ∈ [Part.fab, .freeCtr], p ∈ L) :
    Frame L s₀ (State.chooseParent s) := by
  unfold State.chooseParent
  repeat' (first
    | with_reducible assumption
    | exact sub_trans hL (by decide)
    | (extract_lets +onlyGivenNames x; ((have y : Bool := x); clear y; clear_value x))
    | with_reducible apply fr_takeFree
    | with_reducible apply fr_updFab
    | split)

theorem fr_openTags {L : List Part} {s₀ s : State} (h₀ : Frame L s₀ s) (before : State)
    (hL : ∀ p ∈ [Part.fab, .counters, .out], p ∈ L) :
    Frame L s₀ (State.openTags s before) := by
  unfold State.openTags
  repeat' (first
    | with_reducible assumption
    | exact sub_trans hL (by decide)
    | with_reducible apply fr_pump
    | with_reducible apply fr_updPort
    | with_reducible apply fr_foldl
    | split
    | dsimp only
    | intro)

theorem fr_latchFabric {L : List Part} {s₀ s : State} (h₀ : Frame L s₀ s) (tick : Nat)
    (hL : ∀ p ∈ [Part.fab, .counters, .freeCtr, .out], p ∈ L) :
    Frame L s₀ (State.latchFabric s tick) := by
  unfold State.latchFabric
  repeat' (first
    | with_reducible assumption
    | exact sub_trans hL (by decide)
    | (extract_lets +onlyGivenNames x; (refine (fun (hx : Frame L s₀ x) => ?_) ?_; (on_goal 1 => clear_value x); (on_goal 2 => subst x)))
    | with_reducible apply fr_updFab
    | with_reducible apply fr_openTags
    | with_reducible apply fr_chooseParent
    | split)

theorem fr_firstLatch {L : List Part} {s₀ s : State} (h₀ : Frame L s₀ s) 
    (hL : ∀ p ∈ [Part.pciPending, .lks, .out, .domLife, .domRecord, .domKeys], p ∈ L) :
    Frame L s₀ (State.firstLatch s) := by
  unfold State.firstLatch
  repeat' (first
    | with_reducible assumption
    | exact sub_trans hL (by decide)
    | with_reducible apply fr_takeDraw
    | with_reducible apply fr_msix
    | with_reducible apply fr_updDom
    | split
    | with_reducible apply dfr_mk
    | with_reducible exact Or.inr rfl
    | with_reducible exact Or.inr (same_mem _)
    | with_reducible exact Or.inr (same_domPreempt _)
    | with_reducible exact Or.inr (same_domSlabs _)
    | with_reducible exact Or.inr (same_domSched _)
    | with_reducible exact Or.inl (hL .domLife (by decide))
    | with_reducible exact Or.inl (hL .domRecord (by decide))
    | with_reducible exact Or.inl (hL .domKeys (by decide))
    | dsimp only
    | intro)

theorem fr_latchDom {L : List Part} {s₀ s : State} (h₀ : Frame L s₀ s) (tick : Nat) (nowNs : Nat) (d : Nat)
    (hL : ∀ p ∈ [Part.pci, .pciPending, .lks, .ful, .traceHead, .slots, .views, .pairs, .counters, .acc, .opbuf, .freeFrames, .out, .domLife, .domRecord, .domPreempt, .domQueue, .domSlabs, .domSched, .domVec, .domVar, .domUpd, .domKvp, .domTir, .domCol, .domKeys, .domMem, .domPoison], p ∈ L) :
    Frame L s₀ (State.latchDom s tick nowNs d) := by
  unfold State.latchDom
  repeat' (first
    | with_reducible assumption
    | exact sub_trans hL (by decide)
    | (extract_lets +onlyGivenNames x; first
        | (refine (fun (hx : Frame L s₀ x) => ?_) ?_; (on_goal 1 => clear_value x); (on_goal 2 => subst x))
        | subst x)
    | with_reducible apply fr_latchActive
    | with_reducible apply fr_latchFree
    | with_reducible apply fr_latchRequests
    | with_reducible apply fr_latchLeft
    | with_reducible apply fr_updDom
    | with_reducible apply fr_latchKeys
    | split
    | with_reducible apply dfr_latchSeqs
    | with_reducible exact dfr_refl _ _
    | intro)

theorem fr_latchTearDown {L : List Part} {s₀ s : State} (h₀ : Frame L s₀ s) (tick : Nat) (nowNs : Nat) (d : Nat)
    (hL : ∀ p ∈ [Part.pciPending, .bas, .ful, .traceHead, .slots, .views, .counters, .acc, .opbuf, .atLatch, .out, .domLife, .domRecord, .domPreempt, .domSlabs, .domVec, .domVar, .domUpd, .domKvp, .domTir, .domCol, .domKeys], p ∈ L) :
    Frame L s₀ (State.latchTearDown s tick nowNs d) := by
  unfold State.latchTearDown
  repeat' (first
    | with_reducible assumption
    | exact sub_trans hL (by decide)
    | (extract_lets +onlyGivenNames x; first
        | ((have y : Bool := x); clear y; clear_value x)
        | subst x)
    | with_reducible apply fr_latchScrub
    | split)

theorem fr_ownerChanges {L : List Part} {s₀ s : State} (h₀ : Frame L s₀ s) (before : State)
    (hL : ∀ p ∈ [Part.pciPending, .traceHead, .views, .counters, .out], p ∈ L) :
    Frame L s₀ (State.ownerChanges s before) := by
  unfold State.ownerChanges
  repeat' (first
    | with_reducible assumption
    | exact sub_trans hL (by decide)
    | with_reducible apply fr_raiseUnit
    | with_reducible apply fr_foldl
    | split
    | intro)

theorem fr_latchState {L : List Part} {s₀ s : State} (h₀ : Frame L s₀ s) (tick : Nat) (nowNs : Nat) (first : Bool)
    (hL : ∀ p ∈ [Part.fuses, .pci, .pciPending, .tik, .pwr, .bdg, .memg, .nvm, .bas, .fab, .lks, .ful, .dbg, .traceHead, .slots, .mbds, .recipe, .views, .pairs, .counters, .commons, .commonsPoison, .acc, .opbuf, .freeFrames, .atLatch, .freeCtr, .out, .domLife, .domRecord, .domPreempt, .domQueue, .domSlabs, .domSched, .domVec, .domVar, .domUpd, .domKvp, .domTir, .domCol, .domKeys, .domMem, .domPoison], p ∈ L) :
    Frame L s₀ (State.latchState s tick nowNs first) := by
  unfold State.latchState
  repeat' (first
    | with_reducible assumption
    | exact sub_trans hL (by decide)
    | (extract_lets +onlyGivenNames x; first
        | (refine (fun (hx : Frame L s₀ x) => ?_) ?_; (on_goal 1 => clear_value x); (on_goal 2 => subst x))
        | ((have y : Nat := x); clear y; clear_value x)
        | subst x)
    | with_reducible apply fr_endTickPower
    | with_reducible apply fr_atTime
    | with_reducible apply fr_updTik
    | with_reducible apply fr_firstLatch
    | with_reducible apply fr_eachDom
    | with_reducible apply fr_latchTearDown
    | with_reducible apply fr_releaseClosed
    | with_reducible apply fr_releaseCopy
    | with_reducible apply fr_applyCommits
    | with_reducible apply fr_clearOldHeld
    | with_reducible apply fr_latchSwitch
    | with_reducible apply fr_latchActs
    | with_reducible apply fr_latchDom
    | with_reducible apply fr_latchPreempt
    | with_reducible apply fr_latchBase
    | with_reducible apply fr_latchFabric
    | with_reducible apply fr_updMemg
    | with_reducible apply fr_latchLevel
    | with_reducible apply fr_ownerChanges
    | with_reducible apply fr_foldl
    | with_reducible apply fr_foldl_fst
    | with_reducible apply fr_foldl_snd
    | (refine fr_foldl_fst_eq ?_ ?_ (by assumption))
    | (refine fr_foldl_snd_eq ?_ ?_ (by assumption))
    | split
    | with_reducible apply fr_mk
    | with_reducible exact Or.inr rfl
    | with_reducible exact Or.inr (same_mem _)
    | with_reducible exact Or.inr (same_poison _)
    | with_reducible exact Or.inr (same_head _)
    | with_reducible exact same_ring _
    | exact Or.inr (fun _ => rfl)
    | with_reducible exact Or.inl (hL .fuses (by decide))
    | with_reducible exact Or.inl (hL .pci (by decide))
    | with_reducible exact Or.inl (hL .pciPending (by decide))
    | with_reducible exact Or.inl (hL .tik (by decide))
    | with_reducible exact Or.inl (hL .pwr (by decide))
    | with_reducible exact Or.inl (hL .bdg (by decide))
    | with_reducible exact Or.inl (hL .memg (by decide))
    | with_reducible exact Or.inl (hL .nvm (by decide))
    | with_reducible exact Or.inl (hL .bas (by decide))
    | with_reducible exact Or.inl (hL .fab (by decide))
    | with_reducible exact Or.inl (hL .lks (by decide))
    | with_reducible exact Or.inl (hL .ful (by decide))
    | with_reducible exact Or.inl (hL .dbg (by decide))
    | with_reducible exact Or.inl (hL .traceHead (by decide))
    | with_reducible exact Or.inl (hL .slots (by decide))
    | with_reducible exact Or.inl (hL .mbds (by decide))
    | with_reducible exact Or.inl (hL .recipe (by decide))
    | with_reducible exact Or.inl (hL .views (by decide))
    | with_reducible exact Or.inl (hL .pairs (by decide))
    | with_reducible exact Or.inl (hL .counters (by decide))
    | with_reducible exact Or.inl (hL .commons (by decide))
    | with_reducible exact Or.inl (hL .commonsPoison (by decide))
    | with_reducible exact Or.inl (hL .acc (by decide))
    | with_reducible exact Or.inl (hL .opbuf (by decide))
    | with_reducible exact Or.inl (hL .freeFrames (by decide))
    | with_reducible exact Or.inl (hL .atLatch (by decide))
    | with_reducible exact Or.inl (hL .freeCtr (by decide))
    | with_reducible exact Or.inl (hL .out (by decide))
    | with_reducible exact Or.inl (hL .domLife (by decide))
    | with_reducible exact Or.inl (hL .domRecord (by decide))
    | with_reducible exact Or.inl (hL .domPreempt (by decide))
    | with_reducible exact Or.inl (hL .domQueue (by decide))
    | with_reducible exact Or.inl (hL .domSlabs (by decide))
    | with_reducible exact Or.inl (hL .domSched (by decide))
    | with_reducible exact Or.inl (hL .domVec (by decide))
    | with_reducible exact Or.inl (hL .domVar (by decide))
    | with_reducible exact Or.inl (hL .domUpd (by decide))
    | with_reducible exact Or.inl (hL .domKvp (by decide))
    | with_reducible exact Or.inl (hL .domTir (by decide))
    | with_reducible exact Or.inl (hL .domCol (by decide))
    | with_reducible exact Or.inl (hL .domKeys (by decide))
    | with_reducible exact Or.inl (hL .domMem (by decide))
    | with_reducible exact Or.inl (hL .domPoison (by decide))
    | dsimp only
    | intro)

theorem fr_countBusy {L : List Part} {s₀ s : State} (h₀ : Frame L s₀ s) (d : Nat) (nowNs : Nat) (b : Slab)
    (hL : ∀ p ∈ [Part.counters, .domSlabs], p ∈ L) :
    Frame L s₀ (State.countBusy s d nowNs b) := by
  unfold State.countBusy
  repeat' (first
    | with_reducible assumption
    | exact sub_trans hL (by decide)
    | (extract_lets +onlyGivenNames x; first
        | (refine (fun (hx : Frame L s₀ x) => ?_) ?_; (on_goal 1 => clear_value x); (on_goal 2 => subst x))
        | ((have y : Nat := x); clear y; clear_value x)
        | ((have y : Hdr := x); clear y; clear_value x))
    | with_reducible apply fr_updSlab
    | with_reducible apply fr_bump
    | with_reducible apply fr_foldl
    | split
    | intro)

theorem fr_countHolds {L : List Part} {s₀ s : State} (h₀ : Frame L s₀ s) (nowNs : Nat)
    (hL : ∀ p ∈ [Part.counters, .domSlabs], p ∈ L) :
    Frame L s₀ (State.countHolds s nowNs) := by
  unfold State.countHolds
  repeat' (first
    | with_reducible assumption
    | exact sub_trans hL (by decide)
    | with_reducible apply fr_eachDom
    | with_reducible apply fr_updSlab
    | with_reducible apply fr_countBusy
    | with_reducible apply fr_foldl
    | split
    | intro)

theorem fr_execPlanLatch {L : List Part} {s₀ s : State} (h₀ : Frame L s₀ s) (nowNs : Nat)
    (hL : ∀ p ∈ [Part.fuses, .pci, .pciPending, .tik, .pwr, .bdg, .memg, .nvm, .bas, .fab, .lks, .ful, .dbg, .traceHead, .slots, .mbds, .recipe, .views, .pairs, .counters, .commons, .commonsPoison, .acc, .opbuf, .freeFrames, .atLatch, .freeCtr, .out, .domLife, .domRecord, .domPreempt, .domQueue, .domSlabs, .domSched, .domVec, .domVar, .domUpd, .domKvp, .domTir, .domCol, .domKeys, .domMem, .domPoison], p ∈ L) :
    FrameOut L s₀ (execPlanLatch nowNs s) := by
  unfold execPlanLatch
  repeat' (first
    | with_reducible assumption
    | exact sub_trans hL (by decide)
    | (extract_lets +onlyGivenNames x; first
        | (refine (fun (hx : Frame L s₀ x) => ?_) ?_; (on_goal 1 => clear_value x); (on_goal 2 => subst x))
        | ((have y : Nat := x); clear y; clear_value x)
        | ((have y : Bool := x); clear y; clear_value x)
        | subst x)
    | with_reducible apply fr_countHolds
    | with_reducible apply fr_latchState
    | with_reducible apply fr_eachDom
    | with_reducible apply fr_takePlan
    | with_reducible apply fr_emit
    | with_reducible apply fr_foldl
    | with_reducible apply fr_foldl_fst
    | with_reducible apply fr_foldl_snd
    | (refine fr_foldl_fst_eq ?_ ?_ (by assumption))
    | (refine fr_foldl_snd_eq ?_ ?_ (by assumption))
    | split
    | with_reducible apply fro_next
    | dsimp only
    | intro)

end Sys2Proof.Laws
end

