-- ==== Sys2Proof/Laws/FramePlan.lean ====
section
/-! SUPPORT. What the operations of Machine/Plan.lean may change (Safety.Frame): each lemma lists the parts. -/

namespace Sys2Proof.Laws

open Sys2Proof.Machine Sys2Proof.Safety

theorem fr_reserveWord {L : List Part} {s₀ s : State} (h₀ : Frame L s₀ s) (d : Nat) (order : Nat)
    (hL : ∀ p ∈ [Part.domQueue, .domSlabs], p ∈ L) :
    Frame L s₀ (State.reserveWord s d order).1 := by
  unfold State.reserveWord
  repeat' (first
    | with_reducible assumption
    | exact sub_trans hL (by decide)
    | (extract_lets +onlyGivenNames x; subst x)
    | with_reducible apply fr_updDom
    | with_reducible apply fr_updSlab
    | split
    | with_reducible apply dfr_updQueue
    | with_reducible exact dfr_refl _ _
    | intro)
theorem fr_reserveWord_eq {L : List Part} {s₀ s : State} (h₀ : Frame L s₀ s) {d : Nat} {order : Nat} {r₀ : _} {u₀ : State}
    (e₀ : State.reserveWord s d order = (u₀, r₀))
    (hL : ∀ p ∈ [Part.domQueue, .domSlabs], p ∈ L) : Frame L s₀ u₀ := by
  have x := fr_reserveWord h₀ d order hL
  rw [e₀] at x
  exact x

theorem fr_reserveReplay {L : List Part} {s₀ s : State} (h₀ : Frame L s₀ s) (d : Nat) (order : Nat)
    (hL : ∀ p ∈ [Part.domQueue, .domSlabs], p ∈ L) :
    Frame L s₀ (State.reserveReplay s d order).1 := by
  unfold State.reserveReplay
  repeat' (first
    | with_reducible assumption
    | exact sub_trans hL (by decide)
    | (extract_lets +onlyGivenNames x; first
        | subst x)
    | with_reducible apply fr_reserveWord
    | (refine fr_reserveWord_eq ?_ (by assumption) ?_)
    | with_reducible apply fr_updSlab
    | with_reducible apply fr_updDom
    | split
    | with_reducible apply dfr_mk
    | with_reducible apply dfr_updSlab
    | with_reducible apply dfr_updQueue
    | with_reducible exact dfr_refl _ _
    | with_reducible exact Or.inr rfl
    | with_reducible exact Or.inr (same_mem _)
    | with_reducible exact Or.inr (same_domLife _)
    | with_reducible exact Or.inr (same_domRecord _)
    | with_reducible exact Or.inr (same_domPreempt _)
    | with_reducible exact Or.inr (same_domSlabs _)
    | with_reducible exact Or.inr (same_domSched _)
    | exact Or.inr (fun _ => rfl)
    | with_reducible exact Or.inl (hL .domQueue (by decide))
    | with_reducible exact Or.inl (hL .domSlabs (by decide))
    | dsimp only
    | intro)
theorem fr_reserveReplay_eq {L : List Part} {s₀ s : State} (h₀ : Frame L s₀ s) {d : Nat} {order : Nat} {r₁ : _} {u₀ : State}
    (e₀ : State.reserveReplay s d order = (u₀, r₁))
    (hL : ∀ p ∈ [Part.domQueue, .domSlabs], p ∈ L) : Frame L s₀ u₀ := by
  have x := fr_reserveReplay h₀ d order hL
  rw [e₀] at x
  exact x

theorem fr_endUnrun {L : List Part} {s₀ s : State} (h₀ : Frame L s₀ s) (d : Nat) (order : Nat) (tick : Nat) (ws : List W64) (st : Status)
    (hL : ∀ p ∈ [Part.domSlabs], p ∈ L) :
    Frame L s₀ (State.endUnrun s d order tick ws st) := by
  unfold State.endUnrun
  repeat' (first
    | with_reducible assumption
    | exact sub_trans hL (by decide)
    | with_reducible apply fr_noteUnloaded
    | with_reducible apply fr_updDom
    | split
    | with_reducible apply dfr_mk
    | with_reducible exact dfr_refl _ _
    | with_reducible exact Or.inr rfl
    | with_reducible exact Or.inr (same_mem _)
    | with_reducible exact Or.inr (same_domLife _)
    | with_reducible exact Or.inr (same_domRecord _)
    | with_reducible exact Or.inr (same_domPreempt _)
    | with_reducible exact Or.inr (same_domSlabs _)
    | with_reducible exact Or.inr (same_domSched _)
    | exact Or.inr (fun _ => rfl)
    | with_reducible exact Or.inl (hL .domSlabs (by decide))
    | dsimp only
    | intro)

theorem fr_PlanAcc.skip {L : List Part} {s₀ : State} {a : PlanAcc} (h₀ : Frame L s₀ a.st) (arrs : Option (Nat × Nat)) (hist : List Nat)
    (hL : ∀ p ∈ ([] : List Part), p ∈ L) :
    Frame L s₀ (PlanAcc.skip a arrs hist).st := by
  unfold PlanAcc.skip
  repeat' (first
    | with_reducible assumption)

theorem fr_placeCarried {L : List Part} {s₀ : State} {a : PlanAcc} (h₀ : Frame L s₀ a.st) (t : State) (f : PlanFrame)
    (ctx : PlanCtx) (rs : Rat) (b : Slab)
    (hL : ∀ p ∈ [Part.out], p ∈ L) :
    Frame L s₀ (State.placeCarried t f ctx rs a b).st := by
  unfold State.placeCarried
  repeat' (first
    | with_reducible assumption)

theorem fr_placeReplay {L : List Part} {s₀ : State} {a : PlanAcc} (h₀ : Frame L s₀ a.st) (t : State) (f : PlanFrame) (ctx : PlanCtx) (rs : Rat) (slots : Nat) (b : Slab)
    (hL : ∀ p ∈ [Part.counters, .domQueue, .domSlabs], p ∈ L) :
    Frame L s₀ (State.placeReplay t f ctx rs slots a b).st := by
  unfold State.placeReplay
  repeat' (first
    | with_reducible assumption
    | exact sub_trans hL (by decide)
    | (extract_lets +onlyGivenNames x; first
        | (refine (fun (hx : Frame L s₀ x.st) => ?_) ?_; (on_goal 1 => clear_value x); (on_goal 2 => subst x))
        | ((have y : Hdr := x); clear y; clear_value x)
        | ((have y : Rat := x); clear y; clear_value x)
        | subst x)
    | with_reducible apply fr_PlanAcc.skip
    | with_reducible apply fr_bump
    | with_reducible apply fr_reserveReplay
    | (refine fr_reserveReplay_eq ?_ (by assumption) ?_)
    | with_reducible refine foldl_keeps (fun q : PlanAcc => Frame L s₀ q.st) _ ?_ _ ?_
    | split)

theorem fr_versionWait {L : List Part} {s₀ s : State} (h₀ : Frame L s₀ s) (d : Nat) (b : Slab)
    (hL : ∀ p ∈ [Part.pciPending, .traceHead, .views, .counters, .out, .domSlabs], p ∈ L) :
    Frame L s₀ (State.versionWait s d b) := by
  unfold State.versionWait
  repeat' (first
    | with_reducible assumption
    | exact sub_trans hL (by decide)
    | (extract_lets +onlyGivenNames x; (refine (fun (hx : Frame L s₀ x) => ?_) ?_; (on_goal 1 => clear_value x); (on_goal 2 => subst x)))
    | with_reducible apply fr_bump
    | with_reducible apply fr_raiseDom
    | with_reducible apply fr_updSlab
    | split)

theorem fr_placeFresh {L : List Part} {s₀ : State} {a : PlanAcc} (h₀ : Frame L s₀ a.st) (t : State) (f : PlanFrame) (ctx : PlanCtx) (rs : Rat) (slots : Nat) (b : Slab)
    (hL : ∀ p ∈ [Part.pciPending, .traceHead, .views, .counters, .out, .domQueue, .domSlabs], p ∈ L) :
    Frame L s₀ (State.placeFresh t f ctx rs slots a b).st := by
  unfold State.placeFresh
  repeat' (first
    | with_reducible assumption
    | exact sub_trans hL (by decide)
    | (extract_lets +onlyGivenNames x; first
        | (refine (fun (hx : Frame L s₀ x.st) => ?_) ?_; (on_goal 1 => clear_value x); (on_goal 2 => subst x))
        | ((have y : Nat := x); clear y; clear_value x)
        | ((have y : Bool := x); clear y; clear_value x)
        | ((have y : Hdr := x); clear y; clear_value x)
        | ((have y : List Nat := x); clear y; clear_value x)
        | ((have y : Rat := x); clear y; clear_value x)
        | subst x)
    | with_reducible apply fr_reserveWord
    | (refine fr_reserveWord_eq ?_ (by assumption) ?_)
    | with_reducible apply fr_endUnrun
    | with_reducible apply fr_PlanAcc.skip
    | with_reducible apply fr_versionWait
    | with_reducible apply fr_bump
    | with_reducible refine foldl_keeps (fun q : PlanAcc => Frame L s₀ q.st) _ ?_ _ ?_
    | split)

theorem fr_PlanAcc.put {L : List Part} {s₀ : State} {a : PlanAcc} (h₀ : Frame L s₀ a.st) (p : Placed)
    (hL : ∀ p ∈ ([] : List Part), p ∈ L) :
    Frame L s₀ (PlanAcc.put a p).st := by
  unfold PlanAcc.put
  repeat' (first
    | with_reducible assumption)

theorem fr_placeDev {L : List Part} {s₀ : State} {a : PlanAcc} (h₀ : Frame L s₀ a.st) (t : State) (f : PlanFrame) (ctx : PlanCtx) (rs : Rat) (slots : Nat) (q : DevPlan)
    (hL : ∀ p ∈ [Part.counters], p ∈ L) :
    Frame L s₀ (State.placeDev t f ctx rs slots a q).st := by
  unfold State.placeDev
  repeat' (first
    | with_reducible assumption
    | exact sub_trans hL (by decide)
    | with_reducible apply fr_bump
    | with_reducible apply fr_PlanAcc.put
    | with_reducible apply fr_foldl
    | with_reducible apply fr_foldl_fst
    | with_reducible apply fr_foldl_snd
    | (refine fr_foldl_fst_eq ?_ ?_ (by assumption))
    | (refine fr_foldl_snd_eq ?_ ?_ (by assumption))
    | with_reducible refine foldl_keeps (fun q : PlanAcc => Frame L s₀ q.st) _ ?_ _ ?_
    | split)

theorem fr_placeAll {L : List Part} {s₀ : State} {a0 : PlanAcc} (h₀ : Frame L s₀ a0.st) (t : State) (f : PlanFrame) (ctx : PlanCtx) (first : Option Placed)
    (hL : ∀ p ∈ [Part.pciPending, .traceHead, .views, .counters, .out, .domQueue, .domSlabs], p ∈ L) :
    Frame L s₀ (State.placeAll t f ctx first a0).st := by
  unfold State.placeAll
  repeat' (first
    | with_reducible assumption
    | exact sub_trans hL (by decide)
    | (extract_lets +onlyGivenNames x; first
        | (refine (fun (hx : Frame L s₀ x.st) => ?_) ?_; (on_goal 1 => clear_value x); (on_goal 2 => subst x))
        | ((have y : Rat := x); clear y; clear_value x)
        | subst x)
    | with_reducible apply fr_placeFresh
    | with_reducible apply fr_placeReplay
    | with_reducible apply fr_PlanAcc.put
    | with_reducible apply fr_placeCarried
    | with_reducible apply fr_placeDev
    | with_reducible apply fr_foldl
    | with_reducible apply fr_foldl_fst
    | with_reducible apply fr_foldl_snd
    | (refine fr_foldl_fst_eq ?_ ?_ (by assumption))
    | (refine fr_foldl_snd_eq ?_ ?_ (by assumption))
    | with_reducible refine foldl_keeps (fun q : PlanAcc => Frame L s₀ q.st) _ ?_ _ ?_
    | split
    | dsimp only
    | intro)

theorem fr_recordPlan {L : List Part} {s₀ : State} {acc : PlanAcc} (h₀ : Frame L s₀ acc.st) (t : State) (f : PlanFrame) (d : Nat)
    (hL : ∀ p ∈ [Part.pciPending, .traceHead, .views, .counters, .out, .domSlabs], p ∈ L) : Frame L s₀ (State.recordPlan t f d acc) := by
  have hd : ∀ (l : List DevSlabRec) (x : Dom), DomFrame L x { x with devNext := l } := fun l x => by
    with_reducible apply dfr_mk
    repeat' first
      | with_reducible exact Or.inr rfl
      | with_reducible exact Or.inr (same_domLife _)
      | with_reducible exact Or.inr (same_domRecord _)
      | with_reducible exact Or.inr (same_domPreempt _)
      | with_reducible exact Or.inr (same_domSched _)
      | with_reducible exact Or.inr (same_mem _)
      | with_reducible exact Or.inl (hL .domSlabs (by decide))
  unfold State.recordPlan
  extract_lets y allow rtAllow items hRt hOther h late s1 unreserved
  have h1 : Frame L s₀ s1 := by
    refine fr_foldl _ (fun u p hu => ?_) _ (fr_updDom h₀ d _ (fun x => hd [] x))
    dsimp only
    split
    · exact hu
    · split
      · exact fr_updDom hu d _ (fun x => hd _ x)
      · exact fr_updSlab hu d _ _ (sub_trans hL (by decide))
  split
  · exact fr_raiseDom (fr_bump h1 d pDom 3 1 (sub_trans hL (by decide))) pDom 3 d (sub_trans hL (by decide))
  · exact h1

theorem fr_planDomain {L : List Part} {s₀ s : State} (h₀ : Frame L s₀ s) (t : State) (f : PlanFrame) (d : Nat)
    (hL : ∀ p ∈ [Part.pciPending, .traceHead, .views, .counters, .out, .domQueue, .domSlabs], p ∈ L) :
    Frame L s₀ (State.planDomain s t f d) := by
  unfold State.planDomain
  extract_lets y ctx was a0
  split
  · refine fr_recordPlan ?_ t f d (sub_trans hL (by decide))
    split
    · exact fr_PlanAcc.put h₀ _ (sub_trans hL (by decide))
    · exact h₀
  · split
    · exact h₀
    · exact fr_recordPlan (fr_placeAll h₀ t f ctx _ hL) t f d (sub_trans hL (by decide))

theorem fr_mergeFetches {L : List Part} {s₀ s : State} (h₀ : Frame L s₀ s) (t : State)
    (hL : ∀ p ∈ [Part.domSlabs], p ∈ L) :
    Frame L s₀ (State.mergeFetches s t) := by
  unfold State.mergeFetches
  repeat' (first
    | with_reducible assumption
    | exact sub_trans hL (by decide)
    | (extract_lets +onlyGivenNames x; subst x)
    | with_reducible apply fr_eachDom
    | with_reducible apply fr_updDom
    | split
    | with_reducible apply dfr_mk
    | with_reducible exact Or.inr rfl
    | with_reducible exact Or.inr (same_mem _)
    | with_reducible exact Or.inr (same_domLife _)
    | with_reducible exact Or.inr (same_domRecord _)
    | with_reducible exact Or.inr (same_domPreempt _)
    | with_reducible exact Or.inr (same_domSched _)
    | with_reducible exact Or.inl (hL .domSlabs (by decide))
    | intro)

theorem fr_reserveEnded {L : List Part} {s₀ s : State} (h₀ : Frame L s₀ s) (d : Nat)
    (hL : ∀ p ∈ [Part.domQueue, .domSlabs], p ∈ L) :
    Frame L s₀ (State.reserveEnded s d) := by
  unfold State.reserveEnded
  repeat' (first
    | with_reducible assumption
    | exact sub_trans hL (by decide)
    | with_reducible apply fr_reserveWord
    | with_reducible apply fr_foldl
    | intro)

theorem fr_execPlanCutoff {L : List Part} {s₀ s0 : State} (h₀ : Frame L s₀ s0) (nowNs : Nat)
    (hL : ∀ p ∈ [Part.fuses, .pci, .pciPending, .tik, .pwr, .bdg, .memg, .nvm, .bas, .fab, .lks, .ful, .dbg, .traceHead, .slots, .mbds, .recipe, .views, .pairs, .counters, .commons, .commonsPoison, .acc, .opbuf, .freeFrames, .atLatch, .freeCtr, .out, .domLife, .domRecord, .domPreempt, .domQueue, .domSlabs, .domSched, .domVec, .domVar, .domUpd, .domKvp, .domTir, .domCol, .domKeys, .domMem, .domPoison], p ∈ L) :
    FrameOut L s₀ (execPlanCutoff nowNs s0) := by
  unfold execPlanCutoff
  repeat' (first
    | with_reducible assumption
    | exact sub_trans hL (by decide)
    | (extract_lets +onlyGivenNames x; first
        | (refine (fun (hx : Frame L s₀ x) => ?_) ?_; (on_goal 1 => clear_value x); (on_goal 2 => subst x))
        | ((have y : Nat := x); clear y; clear_value x)
        | subst x)
    | with_reducible apply fr_atTime
    | with_reducible apply fr_latchState
    | with_reducible apply fr_updTik
    | with_reducible apply fr_updPwr
    | with_reducible apply fr_updMemg
    | with_reducible apply fr_eachDom
    | with_reducible apply fr_reserveEnded
    | with_reducible apply fr_planDomain
    | with_reducible apply fr_mergeFetches
    | with_reducible apply fr_foldl
    | with_reducible apply fr_foldl_fst
    | with_reducible apply fr_foldl_snd
    | (refine fr_foldl_fst_eq ?_ ?_ (by assumption))
    | (refine fr_foldl_snd_eq ?_ ?_ (by assumption))
    | split
    | with_reducible apply fro_next
    | dsimp only
    | intro)

end Sys2Proof.Laws
end

