-- ==== Sys2Proof/Laws/FrameMbd.lean ====
section
/-! SUPPORT. What the operations of Machine/Mbd.lean may change (Safety.Frame): each lemma lists the parts. -/

namespace Sys2Proof.Laws

open Sys2Proof.Machine Sys2Proof.Safety

theorem fr_swapLane {L : List Part} {s₀ s : State} (h₀ : Frame L s₀ s) (stack : Nat) (channel : Nat) (lane : Nat)
    (hL : ∀ p ∈ [Part.pciPending, .traceHead, .mbds, .views, .counters, .out], p ∈ L) :
    Frame L s₀ (State.swapLane s stack channel lane) := by
  unfold State.swapLane
  repeat' (first
    | with_reducible assumption
    | exact sub_trans hL (by decide)
    | (extract_lets +onlyGivenNames x; first
        | (refine (fun (hx : Frame L s₀ x) => ?_) ?_; (on_goal 1 => clear_value x); (on_goal 2 => subst x))
        | ((have y : Nat := x); clear y; clear_value x)
        | subst x)
    | with_reducible apply fr_raiseDev
    | with_reducible apply fr_bump
    | with_reducible apply fr_updMbd
    | split)

theorem fr_channelFails {L : List Part} {s₀ s : State} (h₀ : Frame L s₀ s) (stack : Nat)
    (hL : ∀ p ∈ [Part.pciPending, .traceHead, .mbds, .views, .counters, .out], p ∈ L) :
    Frame L s₀ (State.channelFails s stack) := by
  unfold State.channelFails
  repeat' (first
    | with_reducible assumption
    | exact sub_trans hL (by decide)
    | with_reducible apply fr_raiseDev
    | with_reducible apply fr_updMbd)

theorem fr_trainFails {L : List Part} {s₀ s : State} (h₀ : Frame L s₀ s) (stack : Nat) (channel : Nat) (lane : Nat)
    (hL : ∀ p ∈ [Part.pciPending, .traceHead, .mbds, .views, .counters, .out], p ∈ L) :
    Frame L s₀ (State.trainFails s stack channel lane) := by
  unfold State.trainFails
  repeat' (first
    | with_reducible assumption
    | exact sub_trans hL (by decide)
    | with_reducible apply fr_channelFails
    | with_reducible apply fr_swapLane
    | split)

theorem fr_execMaintWindowStart {L : List Part} {s₀ s : State} (h₀ : Frame L s₀ s)
    (hL : ∀ p ∈ [Part.bdg, .mbds], p ∈ L) :
    FrameOut L s₀ (execMaintWindowStart s) := by
  unfold execMaintWindowStart
  repeat' (first
    | with_reducible assumption
    | exact sub_trans hL (by decide)
    | (extract_lets +onlyGivenNames x; first
        | ((have y : Nat := x); clear y; clear_value x)
        | subst x)
    | with_reducible apply fr_updMbd
    | with_reducible apply fr_badgerWindow
    | with_reducible apply fr_foldl
    | with_reducible apply fr_foldl_fst
    | with_reducible apply fr_foldl_snd
    | (refine fr_foldl_fst_eq ?_ ?_ (by assumption))
    | (refine fr_foldl_snd_eq ?_ ?_ (by assumption))
    | split
    | with_reducible apply fro_next
    | dsimp only
    | intro)

theorem fr_itemDone {L : List Part} {s₀ s : State} (h₀ : Frame L s₀ s) (stack : Nat) (i : MaintItem)
    (hL : ∀ p ∈ [Part.pciPending, .traceHead, .mbds, .views, .counters, .out], p ∈ L) :
    Frame L s₀ (State.itemDone s stack i) := by
  unfold State.itemDone
  repeat' (first
    | with_reducible assumption
    | exact sub_trans hL (by decide)
    | with_reducible apply fr_swapLane
    | with_reducible apply fr_bump
    | with_reducible apply fr_updMbd
    | split)

theorem fr_retireFrames {L : List Part} {s₀ s : State} (h₀ : Frame L s₀ s) (stack : Nat) (frames : List Nat)
    (hL : ∀ p ∈ [Part.pciPending, .traceHead, .mbds, .views, .counters, .out], p ∈ L) :
    Frame L s₀ (State.retireFrames s stack frames) := by
  unfold State.retireFrames
  repeat' (first
    | with_reducible assumption
    | exact sub_trans hL (by decide)
    | with_reducible apply fr_raiseDev
    | with_reducible apply fr_updMbd
    | split)

theorem fr_itemSwap {L : List Part} {s₀ s : State} (h₀ : Frame L s₀ s) (stack : Nat) (a1 : MaintItem)
    (hL : ∀ p ∈ [Part.pciPending, .traceHead, .mbds, .views, .counters, .out], p ∈ L) :
    Frame L s₀ (State.itemSwap s stack a1) := by
  unfold State.itemSwap
  repeat' (first
    | with_reducible assumption
    | exact sub_trans hL (by decide)
    | with_reducible apply fr_swapLane
    | split)

theorem fr_itemEnds {L : List Part} {s₀ s : State} (h₀ : Frame L s₀ s) (stack : Nat) (i : MaintItem) (a1 : MaintOutcome)
    (hL : ∀ p ∈ [Part.pciPending, .traceHead, .mbds, .views, .counters, .out], p ∈ L) :
    Frame L s₀ (State.itemEnds s stack i a1) := by
  unfold State.itemEnds
  repeat' (first
    | with_reducible assumption
    | exact sub_trans hL (by decide)
    | with_reducible apply fr_itemDone
    | with_reducible apply fr_retireFrames
    | with_reducible apply fr_itemSwap
    | with_reducible apply fr_trainFails
    | split)

theorem fr_execMaintItemEnd {L : List Part} {s₀ s : State} (h₀ : Frame L s₀ s) (stack : Fin 8) (item : MaintItem) (ended : MaintEnd)
    (hL : ∀ p ∈ [Part.pciPending, .bas, .traceHead, .mbds, .units, .views, .counters, .commonsPoison, .out, .domPoison], p ∈ L) :
    FrameOut L s₀ (execMaintItemEnd stack item ended s) := by
  unfold execMaintItemEnd
  repeat' (first
    | with_reducible assumption
    | exact sub_trans hL (by decide)
    | (extract_lets +onlyGivenNames x; first
        | (refine (fun (hx : Frame L s₀ x) => ?_) ?_; (on_goal 1 => clear_value x); (on_goal 2 => subst x))
        | ((have y : Nat := x); clear y; clear_value x)
        | subst x)
    | with_reducible apply fr_meetError
    | (refine fr_meetError_eq ?_ (by assumption) ?_)
    | with_reducible apply fr_updMbd
    | with_reducible apply fr_itemEnds
    | with_reducible apply fr_foldl
    | with_reducible apply fr_foldl_fst
    | with_reducible apply fr_foldl_snd
    | (refine fr_foldl_fst_eq ?_ ?_ (by assumption))
    | (refine fr_foldl_snd_eq ?_ ?_ (by assumption))
    | split
    | with_reducible apply fro_next
    | dsimp only
    | intro)

theorem fr_execRoutineRetrainDue {L : List Part} {s₀ s : State} (h₀ : Frame L s₀ s) (stack : Fin 8) (channel : Fin 32)
    (hL : ∀ p ∈ [Part.mbds], p ∈ L) :
    FrameOut L s₀ (execRoutineRetrainDue stack channel s) := by
  unfold execRoutineRetrainDue
  repeat' (first
    | with_reducible assumption
    | exact sub_trans hL (by decide)
    | with_reducible apply fr_updMbd
    | with_reducible apply fro_next)

theorem fr_execMaintStarved {L : List Part} {s₀ s : State} (h₀ : Frame L s₀ s) (stack : Fin 8)
    (hL : ∀ p ∈ [Part.pciPending, .traceHead, .views, .counters, .out], p ∈ L) :
    FrameOut L s₀ (execMaintStarved stack s) := by
  unfold execMaintStarved
  repeat' (first
    | with_reducible assumption
    | exact sub_trans hL (by decide)
    | with_reducible apply fr_raiseDev
    | with_reducible apply fro_next)

theorem fr_execEmergencyRetrain {L : List Part} {s₀ s : State} (h₀ : Frame L s₀ s) (stack : Fin 8) (channel : Fin 32) (emergency : Emergency) (stallNs : Nat) (inWindow : Bool)
    (hL : ∀ p ∈ [Part.pciPending, .tik, .traceHead, .mbds, .views, .counters, .stretch, .out], p ∈ L) :
    FrameOut L s₀ (execEmergencyRetrain stack channel emergency stallNs inWindow s) := by
  unfold execEmergencyRetrain
  repeat' (first
    | with_reducible assumption
    | exact sub_trans hL (by decide)
    | (extract_lets +onlyGivenNames x; first
        | (refine (fun (hx : Frame L s₀ x) => ?_) ?_; (on_goal 1 => clear_value x); (on_goal 2 => subst x))
        | ((have y : Nat := x); clear y; clear_value x)
        | subst x)
    | with_reducible apply fr_updMbd
    | with_reducible apply fr_swapLane
    | with_reducible apply fr_trainFails
    | with_reducible apply fr_bump
    | with_reducible apply fr_deviceStall
    | with_reducible apply fr_raiseDev
    | split
    | with_reducible apply fro_next)

theorem fr_execRefreshPause {L : List Part} {s₀ s0 : State} (h₀ : Frame L s₀ s0) (nowNs : Nat) (temps : List Nat)
    (hL : ∀ p ∈ [Part.fuses, .pciPending, .tik, .pwr, .memg, .traceHead, .mbds, .views, .counters, .stretch, .out], p ∈ L) :
    FrameOut L s₀ (execRefreshPause nowNs temps s0) := by
  unfold execRefreshPause
  repeat' (first
    | with_reducible assumption
    | exact sub_trans hL (by decide)
    | (extract_lets +onlyGivenNames x; first
        | (refine (fun (hx : Frame L s₀ x) => ?_) ?_; (on_goal 1 => clear_value x); (on_goal 2 => subst x))
        | ((have y : Nat := x); clear y; clear_value x))
    | with_reducible apply fr_atTime
    | with_reducible apply fr_raiseDev
    | with_reducible apply fr_bump
    | with_reducible apply fr_deviceStall
    | with_reducible apply fr_updMbd
    | with_reducible apply fr_updPwr
    | with_reducible apply fr_updMemg
    | with_reducible apply fr_foldl
    | split
    | with_reducible apply fro_next
    | intro)

end Sys2Proof.Laws
end

