-- ==== Sys2Proof/Laws/FrameBoot.lean ====
section
/-! SUPPORT. What the operations of Machine/Boot.lean may change (Safety.Frame): each lemma lists the parts. -/

namespace Sys2Proof.Laws

open Sys2Proof.Machine Sys2Proof.Safety

theorem fr_pinsLow {L : List Part} {s₀ s : State} (h₀ : Frame L s₀ s) 
    (hL : ∀ p ∈ [Part.boot, .out], p ∈ L) :
    Frame L s₀ (State.pinsLow s) := by
  unfold State.pinsLow
  repeat' (first
    | with_reducible assumption
    | exact sub_trans hL (by decide)
    | with_reducible apply fr_emit
    | with_reducible apply fr_updBoot)

theorem fr_refClocks {L : List Part} {s₀ s : State} (h₀ : Frame L s₀ s) (on : Bool)
    (hL : ∀ p ∈ [Part.out], p ∈ L) :
    Frame L s₀ (State.refClocks s on) := by
  unfold State.refClocks
  repeat' (first
    | with_reducible assumption
    | exact sub_trans hL (by decide)
    | with_reducible apply fr_emit)

theorem fr_startBringUp {L : List Part} {s₀ s : State} (h₀ : Frame L s₀ s)
    (hL : ∀ p ∈ [Part.boot, .ful, .out], p ∈ L) :
    Frame L s₀ (State.startBringUp s) := by
  unfold State.startBringUp
  repeat' (first
    | with_reducible assumption
    | exact sub_trans hL (by decide)
    | (extract_lets +onlyGivenNames x; first
        | (refine (fun (hx : Frame L s₀ x) => ?_) ?_; (on_goal 1 => clear_value x); (on_goal 2 => subst x))
        | subst x)
    | with_reducible apply fr_updBoot
    | with_reducible apply fr_updFul
    | with_reducible apply fr_emit
    | with_reducible apply fr_refClocks
    | split)

theorem fr_execPowerApply {L : List Part} {s₀ s : State} (h₀ : Frame L s₀ s) (mV : Nat)
    (hL : ∀ p ∈ [Part.boot, .ful, .out], p ∈ L) :
    FrameOut L s₀ (execPowerApply mV s) := by
  unfold execPowerApply
  repeat' (first
    | with_reducible assumption
    | exact sub_trans hL (by decide)
    | (extract_lets +onlyGivenNames x; (refine (fun (hx : Frame L s₀ x) => ?_) ?_; (on_goal 1 => clear_value x); (on_goal 2 => subst x)))
    | with_reducible apply fr_emit
    | with_reducible apply fr_updBoot
    | with_reducible apply fr_startBringUp
    | split
    | with_reducible apply fro_next)

theorem fr_execPerstRise {L : List Part} {s₀ s : State} (h₀ : Frame L s₀ s) (baudSel : Fin 4) (i3cAsel : Fin 4)
    (hL : ∀ p ∈ [Part.boot, .ful, .out], p ∈ L) :
    FrameOut L s₀ (execPerstRise baudSel i3cAsel s) := by
  unfold execPerstRise
  repeat' (first
    | with_reducible assumption
    | exact sub_trans hL (by decide)
    | (extract_lets +onlyGivenNames x; (refine (fun (hx : Frame L s₀ x) => ?_) ?_; (on_goal 1 => clear_value x); (on_goal 2 => subst x)))
    | with_reducible apply fr_updBoot
    | with_reducible apply fr_startBringUp
    | split
    | with_reducible apply fro_next)

theorem fr_execMbdTrainingDone {L : List Part} {s₀ s : State} (h₀ : Frame L s₀ s) (failedStacks : List (Fin 8 × Fin 32))
    (hL : ∀ p ∈ [Part.boot, .pciPending, .traceHead, .mbds, .views, .counters, .freeFrames, .out], p ∈ L) :
    FrameOut L s₀ (execMbdTrainingDone failedStacks s) := by
  unfold execMbdTrainingDone
  repeat' (first
    | with_reducible assumption
    | exact sub_trans hL (by decide)
    | (extract_lets +onlyGivenNames x; first
        | (refine (fun (hx : Frame L s₀ x) => ?_) ?_; (on_goal 1 => clear_value x); (on_goal 2 => subst x))
        | ((have y : List Nat := x); clear y; clear_value x)
        | subst x)
    | with_reducible apply fr_updBoot
    | with_reducible apply fr_channelFails
    | with_reducible apply fr_foldl
    | with_reducible apply fr_foldl_fst
    | with_reducible apply fr_foldl_snd
    | (refine fr_foldl_fst_eq ?_ ?_ (by assumption))
    | (refine fr_foldl_snd_eq ?_ ?_ (by assumption))
    | split
    | with_reducible apply fr_mk
    | with_reducible exact Or.inr rfl
    | with_reducible exact Or.inr (same_mem _)
    | with_reducible exact Or.inr (same_poison _)
    | with_reducible exact Or.inr (same_head _)
    | with_reducible exact same_ring _
    | exact Or.inr (fun _ => rfl)
    | with_reducible exact Or.inl (hL .boot (by decide))
    | with_reducible exact Or.inl (hL .pciPending (by decide))
    | with_reducible exact Or.inl (hL .traceHead (by decide))
    | with_reducible exact Or.inl (hL .mbds (by decide))
    | with_reducible exact Or.inl (hL .views (by decide))
    | with_reducible exact Or.inl (hL .counters (by decide))
    | with_reducible exact Or.inl (hL .freeFrames (by decide))
    | with_reducible exact Or.inl (hL .out (by decide))
    | with_reducible apply fro_next
    | dsimp only
    | intro)

theorem fr_execImageVerifyDone {L : List Part} {s₀ s : State} (h₀ : Frame L s₀ s) (slot : Fin 2) (magic : W32)
    (format : Nat) (keyIndex : Nat) (svn : Nat) (bodyLen : Nat) (digestMatches : Bool) (rsaOk : Bool) (slhOk : Bool)
    (digest : List Byte)
    (hL : ∀ p ∈ [Part.boot], p ∈ L) :
    FrameOut L s₀ (execImageVerifyDone slot magic format keyIndex svn bodyLen digestMatches rsaOk slhOk digest s) := by
  unfold execImageVerifyDone
  repeat' (first
    | with_reducible assumption
    | exact sub_trans hL (by decide)
    | (extract_lets +onlyGivenNames x; first
        | ((have y : Bool := x); clear y; clear_value x)
        | subst x)
    | with_reducible apply fr_updBoot
    | split
    | with_reducible apply fro_next)

theorem fr_execDeviceWipeEnd {L : List Part} {s₀ s0 : State} (h₀ : Frame L s₀ s0) (withheldFrames : List Nat) (sramFailUnits : List Nat) (nowNs : Nat)
    (hL : ∀ p ∈ [Part.boot, .fuses, .pciPending, .tik, .ful, .traceHead, .views, .counters, .freeFrames, .out], p ∈ L) :
    FrameOut L s₀ (execDeviceWipeEnd withheldFrames sramFailUnits nowNs s0) := by
  unfold execDeviceWipeEnd
  repeat' (first
    | with_reducible assumption
    | exact sub_trans hL (by decide)
    | (extract_lets +onlyGivenNames x; first
        | (refine (fun (hx : Frame L s₀ x) => ?_) ?_; (on_goal 1 => clear_value x); (on_goal 2 => subst x))
        | subst x)
    | with_reducible apply fr_atTime
    | with_reducible apply fr_updBoot
    | with_reducible apply fr_updFul
    | with_reducible apply fr_withholdFrames
    | split
    | with_reducible apply fr_mk
    | with_reducible exact Or.inr rfl
    | with_reducible exact Or.inr (same_mem _)
    | with_reducible exact Or.inr (same_poison _)
    | with_reducible exact Or.inr (same_head _)
    | with_reducible exact same_ring _
    | exact Or.inr (fun _ => rfl)
    | with_reducible exact Or.inl (hL .boot (by decide))
    | with_reducible exact Or.inl (hL .fuses (by decide))
    | with_reducible exact Or.inl (hL .pciPending (by decide))
    | with_reducible exact Or.inl (hL .tik (by decide))
    | with_reducible exact Or.inl (hL .ful (by decide))
    | with_reducible exact Or.inl (hL .traceHead (by decide))
    | with_reducible exact Or.inl (hL .views (by decide))
    | with_reducible exact Or.inl (hL .counters (by decide))
    | with_reducible exact Or.inl (hL .freeFrames (by decide))
    | with_reducible exact Or.inl (hL .out (by decide))
    | with_reducible apply fro_next)

theorem fr_execFirmwareRelease {L : List Part} {s₀ s : State} (h₀ : Frame L s₀ s) 
    (hL : ∀ p ∈ [Part.boot, .fuses, .out], p ∈ L) :
    FrameOut L s₀ (execFirmwareRelease s) := by
  unfold execFirmwareRelease
  repeat' (first
    | with_reducible assumption
    | exact sub_trans hL (by decide)
    | (extract_lets +onlyGivenNames x; first
        | (refine (fun (hx : Frame L s₀ x) => ?_) ?_; (on_goal 1 => clear_value x); (on_goal 2 => subst x))
        | ((have y : List Byte := x); clear y; clear_value x))
    | with_reducible apply fr_updFuses
    | with_reducible apply fr_updBoot
    | with_reducible apply fr_emit
    | split
    | with_reducible apply fro_next)

theorem fr_execPfReady {L : List Part} {s₀ s0 : State} (h₀ : Frame L s₀ s0) (nowNs : Nat)
    (hL : ∀ p ∈ [Part.boot, .fuses, .pciPending, .tik, .traceHead, .views, .counters, .out], p ∈ L) :
    FrameOut L s₀ (execPfReady nowNs s0) := by
  unfold execPfReady
  repeat' (first
    | with_reducible assumption
    | exact sub_trans hL (by decide)
    | (extract_lets +onlyGivenNames x; (refine (fun (hx : Frame L s₀ x) => ?_) ?_; (on_goal 1 => clear_value x); (on_goal 2 => subst x)))
    | with_reducible apply fr_emit
    | with_reducible apply fr_atTime
    | with_reducible apply fr_updBoot
    | with_reducible apply fr_raiseDev
    | split
    | with_reducible apply fro_next)

theorem fr_execPcieLinkChange {L : List Part} {s₀ s : State} (h₀ : Frame L s₀ s) (speed : Nat) (width : Nat) (dlUp : Bool)
    (hL : ∀ p ∈ [Part.pci, .pciPending, .traceHead, .views, .counters, .out], p ∈ L) :
    FrameOut L s₀ (execPcieLinkChange speed width dlUp s) := by
  unfold execPcieLinkChange
  repeat' (first
    | with_reducible assumption
    | exact sub_trans hL (by decide)
    | (extract_lets +onlyGivenNames x; first
        | (refine (fun (hx : Frame L s₀ x) => ?_) ?_; (on_goal 1 => clear_value x); (on_goal 2 => subst x))
        | ((have y : Bool := x); clear y; clear_value x))
    | with_reducible apply fr_updPci
    | with_reducible apply fr_raiseDev
    | with_reducible apply fr_bump
    | split
    | with_reducible apply fro_next
    | exact Or.inr (fun _ => rfl)
    | with_reducible exact Or.inl (hL .pci (by decide)))

theorem fr_execPfPowerStateChange {L : List Part} {s₀ s : State} (h₀ : Frame L s₀ s) (d3hot : Bool)
    (hL : ∀ p ∈ [Part.pci], p ∈ L) :
    FrameOut L s₀ (execPfPowerStateChange d3hot s) := by
  unfold execPfPowerStateChange
  repeat' (first
    | with_reducible assumption
    | exact sub_trans hL (by decide)
    | with_reducible apply fr_updPci
    | split
    | with_reducible apply fro_next
    | exact Or.inr (fun _ => rfl)
    | with_reducible exact Or.inl (hL .pci (by decide)))

theorem fr_execPldmFirmwareUpdate {L : List Part} {s₀ s : State} (h₀ : Frame L s₀ s) (slot : Fin 2) (offset : Nat) (bytes : List Byte)
    (hL : ∀ p ∈ [Part.fuses], p ∈ L) :
    FrameOut L s₀ (execPldmFirmwareUpdate slot offset bytes s) := by
  unfold execPldmFirmwareUpdate
  apply fro_next
  split
  · exact fr_updFuses h₀ _ (sub_trans hL (by decide))
  · exact h₀

theorem fr_execPldmRequest {L : List Part} {s₀ s : State} (h₀ : Frame L s₀ s) (query : PldmQuery)
    (hL : ∀ p ∈ [Part.out], p ∈ L) :
    FrameOut L s₀ (execPldmRequest query s) := by
  unfold execPldmRequest
  repeat' (first
    | with_reducible assumption
    | exact sub_trans hL (by decide)
    | with_reducible apply fr_emit
    | with_reducible apply fr_foldl
    | split
    | with_reducible apply fro_next
    | intro)

theorem fr_execI3cDynamicAddressAssign {L : List Part} {s₀ s : State} (h₀ : Frame L s₀ s) (how : I3cAssign)
    (hL : ∀ p ∈ [Part.boot, .out], p ∈ L) :
    FrameOut L s₀ (execI3cDynamicAddressAssign how s) := by
  unfold execI3cDynamicAddressAssign
  repeat' (first
    | with_reducible assumption
    | exact sub_trans hL (by decide)
    | with_reducible apply fr_emit
    | with_reducible apply fr_updBoot
    | split
    | with_reducible apply fro_next)

end Sys2Proof.Laws
end

