-- ==== Sys2Proof/Laws/FrameFabric.lean ====
section
/-! SUPPORT. What the operations of Machine/Fabric.lean may change (Safety.Frame): each lemma lists the parts. -/

namespace Sys2Proof.Laws

open Sys2Proof.Machine Sys2Proof.Safety

theorem fr_rejectRemote {L : List Part} {s₀ s : State} (h₀ : Frame L s₀ s) (tag : Nat)
    (hL : ∀ p ∈ [Part.pciPending, .traceHead, .views, .counters, .out], p ∈ L) :
    Frame L s₀ (State.rejectRemote s tag) := by
  unfold State.rejectRemote
  repeat' (first
    | with_reducible assumption
    | exact sub_trans hL (by decide)
    | (extract_lets +onlyGivenNames x; ((have y : Nat := x); clear y; clear_value x))
    | with_reducible apply fr_raiseDom
    | with_reducible apply fr_bump)

theorem fr_serveRead {L : List Part} {s₀ s : State} (h₀ : Frame L s₀ s) (t : Txn) (errors : List ReadError)
    (hL : ∀ p ∈ [Part.pciPending, .bas, .traceHead, .mbds, .units, .views, .counters, .commonsPoison, .out, .domPoison], p ∈ L) :
    Frame L s₀ (State.serveRead s t errors).1 := by
  unfold State.serveRead
  repeat' (first
    | with_reducible assumption
    | exact sub_trans hL (by decide)
    | (extract_lets +onlyGivenNames x; ((have y : Nat := x); clear y; clear_value x))
    | (refine fr_meetErrors_eq ?_ (by assumption) ?_)
    | with_reducible apply fr_rejectRemote
    | with_reducible apply fr_bump
    | split)
theorem fr_serveRead_eq {L : List Part} {s₀ s : State} (h₀ : Frame L s₀ s) {t : Txn} {errors : List ReadError} {r₀ : _}
    {u₀ : State}
    (e₀ : State.serveRead s t errors = (u₀, r₀))
    (hL : ∀ p ∈ [Part.pciPending, .bas, .traceHead, .mbds, .units, .views, .counters, .commonsPoison, .out, .domPoison], p ∈ L) : Frame L s₀ u₀ := by
  have x := fr_serveRead h₀ t errors hL
  rw [e₀] at x
  exact x

theorem fr_serveWrite {L : List Part} {s₀ s : State} (h₀ : Frame L s₀ s) (t : Txn) (errors : List ReadError)
    (hL : ∀ p ∈ [Part.pciPending, .bas, .traceHead, .mbds, .units, .views, .counters, .commonsPoison, .out, .domTir, .domMem, .domPoison], p ∈ L) :
    Frame L s₀ (State.serveWrite s t errors).1 := by
  unfold State.serveWrite
  repeat' (first
    | with_reducible assumption
    | exact sub_trans hL (by decide)
    | (extract_lets +onlyGivenNames x; first
        | (refine (fun (hx : Frame L s₀ x) => ?_) ?_; (on_goal 1 => clear_value x); (on_goal 2 => subst x))
        | ((have y : Nat := x); clear y; clear_value x))
    | with_reducible apply fr_meetErrors
    | with_reducible apply fr_bump
    | with_reducible apply fr_wrMem
    | with_reducible apply fr_rejectRemote
    | split)
theorem fr_serveWrite_eq {L : List Part} {s₀ s : State} (h₀ : Frame L s₀ s) {t : Txn} {errors : List ReadError} {r₀ : _}
    {u₀ : State}
    (e₀ : State.serveWrite s t errors = (u₀, r₀))
    (hL : ∀ p ∈ [Part.pciPending, .bas, .traceHead, .mbds, .units, .views, .counters, .commonsPoison, .out, .domTir, .domMem, .domPoison], p ∈ L) : Frame L s₀ u₀ := by
  have x := fr_serveWrite h₀ t errors hL
  rw [e₀] at x
  exact x

theorem fr_countAdds {L : List Part} {s₀ s : State} (h₀ : Frame L s₀ s) (d : Nat) (a : Nat) (n : Nat)
    (hL : ∀ p ∈ [Part.counters], p ∈ L) :
    Frame L s₀ (State.countAdds s d a n) := by
  unfold State.countAdds
  repeat' (first
    | with_reducible assumption
    | exact sub_trans hL (by decide)
    | with_reducible apply fr_bump
    | with_reducible apply fr_foldl
    | dsimp only
    | intro)

theorem fr_serveRadd {L : List Part} {s₀ s : State} (h₀ : Frame L s₀ s) (t : Txn) (errors : List ReadError)
    (hL : ∀ p ∈ [Part.pciPending, .bas, .traceHead, .mbds, .units, .views, .counters, .commonsPoison, .out, .domTir, .domMem, .domPoison], p ∈ L) :
    Frame L s₀ (State.serveRadd s t errors).1 := by
  unfold State.serveRadd
  repeat' (first
    | with_reducible assumption
    | exact sub_trans hL (by decide)
    | (extract_lets +onlyGivenNames x; first
        | ((have y : Nat := x); clear y; clear_value x)
        | ((have y : Bool := x); clear y; clear_value x))
    | (refine fr_meetErrors_eq ?_ (by assumption) ?_)
    | with_reducible apply fr_rejectRemote
    | with_reducible apply fr_bump
    | with_reducible apply fr_countAdds
    | with_reducible apply fr_wrMem
    | split)
theorem fr_serveRadd_eq {L : List Part} {s₀ s : State} (h₀ : Frame L s₀ s) {t : Txn} {errors : List ReadError} {r₀ : _}
    {u₀ : State}
    (e₀ : State.serveRadd s t errors = (u₀, r₀))
    (hL : ∀ p ∈ [Part.pciPending, .bas, .traceHead, .mbds, .units, .views, .counters, .commonsPoison, .out, .domTir, .domMem, .domPoison], p ∈ L) : Frame L s₀ u₀ := by
  have x := fr_serveRadd h₀ t errors hL
  rw [e₀] at x
  exact x

theorem fr_serveAtom {L : List Part} {s₀ s : State} (h₀ : Frame L s₀ s) (t : Txn) (errors : List ReadError)
    (hL : ∀ p ∈ [Part.pciPending, .bas, .traceHead, .mbds, .units, .views, .counters, .commonsPoison, .out, .domTir, .domMem, .domPoison], p ∈ L) :
    Frame L s₀ (State.serveAtom s t errors).1 := by
  unfold State.serveAtom
  repeat' (first
    | with_reducible assumption
    | exact sub_trans hL (by decide)
    | (extract_lets +onlyGivenNames x; first
        | ((have y : Nat := x); clear y; clear_value x)
        | ((have y : List Byte := x); clear y; clear_value x))
    | (refine fr_meetErrors_eq ?_ (by assumption) ?_)
    | with_reducible apply fr_rejectRemote
    | with_reducible apply fr_bump
    | with_reducible apply fr_countAdds
    | with_reducible apply fr_wrMem
    | split)
theorem fr_serveAtom_eq {L : List Part} {s₀ s : State} (h₀ : Frame L s₀ s) {t : Txn} {errors : List ReadError} {r₀ : _}
    {u₀ : State}
    (e₀ : State.serveAtom s t errors = (u₀, r₀))
    (hL : ∀ p ∈ [Part.pciPending, .bas, .traceHead, .mbds, .units, .views, .counters, .commonsPoison, .out, .domTir, .domMem, .domPoison], p ∈ L) : Frame L s₀ u₀ := by
  have x := fr_serveAtom h₀ t errors hL
  rw [e₀] at x
  exact x

theorem fr_serveStripe {L : List Part} {s₀ s : State} (h₀ : Frame L s₀ s) (t : Txn) (errors : List ReadError)
    (hL : ∀ p ∈ [Part.pciPending, .bas, .traceHead, .mbds, .units, .views, .counters, .commonsPoison, .out, .domPoison], p ∈ L) :
    Frame L s₀ (State.serveStripe s t errors).1 := by
  unfold State.serveStripe
  repeat' (first
    | with_reducible assumption
    | exact sub_trans hL (by decide)
    | (extract_lets +onlyGivenNames x; first
        | (refine (fun (hx : Frame L s₀ x) => ?_) ?_; (on_goal 1 => clear_value x); (on_goal 2 => subst x))
        | ((have y : Nat := x); clear y; clear_value x)
        | ((have y : List Byte := x); clear y; clear_value x)
        | ((have y : Stripe := x); clear y; clear_value x)
        | subst x)
    | with_reducible apply fr_rejectRemote
    | with_reducible apply fr_meetErrors
    | with_reducible apply fr_bump
    | split)
theorem fr_serveStripe_eq {L : List Part} {s₀ s : State} (h₀ : Frame L s₀ s) {t : Txn} {errors : List ReadError}
    {r₀ : _} {u₀ : State}
    (e₀ : State.serveStripe s t errors = (u₀, r₀))
    (hL : ∀ p ∈ [Part.pciPending, .bas, .traceHead, .mbds, .units, .views, .counters, .commonsPoison, .out, .domPoison], p ∈ L) : Frame L s₀ u₀ := by
  have x := fr_serveStripe h₀ t errors hL
  rw [e₀] at x
  exact x

theorem fr_updOp {L : List Part} {s₀ s : State} (h₀ : Frame L s₀ s) (d : Nat) (id : W32) (f : CollOp → CollOp)
    (hL : ∀ p ∈ [Part.domCol], p ∈ L) :
    Frame L s₀ (State.updOp s d id f) := by
  unfold State.updOp
  repeat' (first
    | with_reducible assumption
    | exact sub_trans hL (by decide)
    | with_reducible apply fr_updDom
    | with_reducible apply dfr_updCol
    | with_reducible exact dfr_refl _ _
    | intro)

theorem fr_opFails {L : List Part} {s₀ s : State} (h₀ : Frame L s₀ s) (d : Nat) (o : CollOp) (st : Status)
    (hL : ∀ p ∈ [Part.domSlabs, .domCol], p ∈ L) :
    Frame L s₀ (State.opFails s d o st) := by
  unfold State.opFails
  repeat' (first
    | with_reducible assumption
    | exact sub_trans hL (by decide)
    | with_reducible apply fr_updSlab
    | with_reducible apply fr_updOp)

theorem fr_takeAnswer {L : List Part} {s₀ s : State} (h₀ : Frame L s₀ s) (t : Txn)
    (hL : ∀ p ∈ [Part.counters, .domSlabs, .domCol], p ∈ L) :
    Frame L s₀ (State.takeAnswer s t) := by
  unfold State.takeAnswer
  repeat' (first
    | with_reducible assumption
    | exact sub_trans hL (by decide)
    | (extract_lets +onlyGivenNames x; first
        | (refine (fun (hx : Frame L s₀ x) => ?_) ?_; (on_goal 1 => clear_value x); (on_goal 2 => subst x))
        | ((have y : Nat := x); clear y; clear_value x)
        | subst x)
    | with_reducible apply fr_bump
    | with_reducible apply fr_updOp
    | with_reducible apply fr_updDom
    | with_reducible apply fr_opFails
    | split
    | with_reducible apply dfr_updCol
    | with_reducible exact dfr_refl _ _
    | intro)

theorem fr_parentGone {L : List Part} {s₀ s : State} (h₀ : Frame L s₀ s) (k : Nat)
    (hL : ∀ p ∈ [Part.pci, .pciPending, .bas, .traceHead, .views, .counters, .out, .domQueue, .domSlabs], p ∈ L) :
    Frame L s₀ (State.parentGone s k) := by
  unfold State.parentGone
  repeat' (first
    | with_reducible assumption
    | exact sub_trans hL (by decide)
    | (extract_lets +onlyGivenNames x; first
        | (refine (fun (hx : Frame L s₀ x) => ?_) ?_; (on_goal 1 => clear_value x); (on_goal 2 => subst x))
        | subst x)
    | with_reducible apply fr_updCopy
    | with_reducible apply fr_stripeLost
    | with_reducible apply fr_foldl
    | with_reducible apply fr_foldl_fst
    | with_reducible apply fr_foldl_snd
    | (refine fr_foldl_fst_eq ?_ ?_ (by assumption))
    | (refine fr_foldl_snd_eq ?_ ?_ (by assumption))
    | split
    | dsimp only
    | intro)

theorem fr_stripeIn {L : List Part} {s₀ s : State} (h₀ : Frame L s₀ s) (k : Nat) (q : Nat) (src : StripeSource) (bytes : List Byte)
    (hL : ∀ p ∈ [Part.pci, .pciPending, .bas, .traceHead, .views, .counters, .freeCtr, .out, .domQueue, .domSlabs], p ∈ L) :
    Frame L s₀ (State.stripeIn s k q src bytes) := by
  unfold State.stripeIn
  repeat' (first
    | with_reducible assumption
    | exact sub_trans hL (by decide)
    | (extract_lets +onlyGivenNames x; first
        | subst x)
    | with_reducible apply fr_refetched
    | with_reducible apply fr_stripeArrives
    | split)

theorem fr_takeStripe {L : List Part} {s₀ s : State} (h₀ : Frame L s₀ s) (t : Txn)
    (hL : ∀ p ∈ [Part.pci, .pciPending, .bas, .traceHead, .views, .counters, .freeCtr, .out, .domQueue, .domSlabs], p ∈ L) :
    Frame L s₀ (State.takeStripe s t) := by
  unfold State.takeStripe
  repeat' (first
    | with_reducible assumption
    | exact sub_trans hL (by decide)
    | (extract_lets +onlyGivenNames x; first
        | (refine (fun (hx : Frame L s₀ x) => ?_) ?_; (on_goal 1 => clear_value x); (on_goal 2 => subst x))
        | subst x)
    | with_reducible apply fr_updCopy
    | with_reducible apply fr_bump
    | with_reducible apply fr_stripeIn
    | with_reducible apply fr_parentGone
    | with_reducible apply fr_stripeLost
    | with_reducible apply fr_sourceFails
    | split)

theorem fr_answered {L : List Part} {s₀ s : State} (h₀ : Frame L s₀ s) (top : Nat) (t : Txn)
    (hL : ∀ p ∈ [Part.pci, .pciPending, .bas, .traceHead, .views, .counters, .freeCtr, .out, .domQueue, .domSlabs, .domCol], p ∈ L) :
    Frame L s₀ (State.answered s top t) := by
  unfold State.answered
  repeat' (first
    | with_reducible assumption
    | exact sub_trans hL (by decide)
    | with_reducible apply fr_takeStripe
    | with_reducible apply fr_takeAnswer
    | split)

theorem fr_sendAnswer {L : List Part} {s₀ s : State} (h₀ : Frame L s₀ s) (top : Nat) (t : Txn)
    (hL : ∀ p ∈ [Part.pci, .pciPending, .bas, .fab, .traceHead, .views, .counters, .freeCtr, .out, .domQueue, .domSlabs, .domCol], p ∈ L) :
    Frame L s₀ (State.sendAnswer s top t) := by
  unfold State.sendAnswer
  repeat' (first
    | with_reducible assumption
    | exact sub_trans hL (by decide)
    | with_reducible apply fr_answered
    | (refine fr_forward ?_ (by assumption) ?_)
    | with_reducible apply fr_forwardD
    | split)

theorem fr_serve {L : List Part} {s₀ s : State} (h₀ : Frame L s₀ s) (top : Nat) (t : Txn) (errors : List ReadError)
    (hL : ∀ p ∈ [Part.pciPending, .bas, .traceHead, .mbds, .units, .views, .counters, .commonsPoison, .out, .domTir, .domMem, .domPoison], p ∈ L) :
    Frame L s₀ (State.serve s top t errors).1 := by
  unfold State.serve
  repeat' (first
    | with_reducible assumption
    | exact sub_trans hL (by decide)
    | (extract_lets +onlyGivenNames x; (refine (fun (hx : Frame L s₀ x.1) => ?_) ?_; (on_goal 1 => clear_value x); (on_goal 2 => subst x)))
    | with_reducible apply fr_serveRead
    | with_reducible apply fr_serveWrite
    | with_reducible apply fr_serveRadd
    | with_reducible apply fr_serveAtom
    | with_reducible apply fr_serveStripe
    | with_reducible apply fr_rejectRemote
    | split)
theorem fr_serve_eq {L : List Part} {s₀ s : State} (h₀ : Frame L s₀ s) {top : Nat} {t : Txn} {errors : List ReadError}
    {r₀ : _} {u₀ : State}
    (e₀ : State.serve s top t errors = (u₀, r₀))
    (hL : ∀ p ∈ [Part.pciPending, .bas, .traceHead, .mbds, .units, .views, .counters, .commonsPoison, .out, .domTir, .domMem, .domPoison], p ∈ L) : Frame L s₀ u₀ := by
  have x := fr_serve h₀ top t errors hL
  rw [e₀] at x
  exact x

theorem fr_serveAndAnswer {L : List Part} {s₀ s : State} (h₀ : Frame L s₀ s) (top : Nat) (t : Txn) (errors : List ReadError)
    (hL : ∀ p ∈ [Part.pci, .pciPending, .bas, .fab, .traceHead, .mbds, .units, .views, .counters, .commonsPoison, .freeCtr, .out, .domQueue, .domSlabs, .domTir, .domCol, .domMem, .domPoison], p ∈ L) :
    Frame L s₀ (State.serveAndAnswer s top t errors) := by
  unfold State.serveAndAnswer
  repeat' (first
    | with_reducible assumption
    | exact sub_trans hL (by decide)
    | (extract_lets +onlyGivenNames x; first
        | (refine (fun (hx : Frame L s₀ x.1) => ?_) ?_; (on_goal 1 => clear_value x); (on_goal 2 => subst x))
        | subst x)
    | with_reducible apply fr_serve
    | (refine fr_serve_eq ?_ (by assumption) ?_)
    | with_reducible apply fr_sendAnswer
    | with_reducible apply fr_foldl
    | with_reducible apply fr_foldl_fst
    | with_reducible apply fr_foldl_snd
    | (refine fr_foldl_fst_eq ?_ ?_ (by assumption))
    | (refine fr_foldl_snd_eq ?_ ?_ (by assumption))
    | split
    | dsimp only
    | intro)

theorem fr_sendRequest {L : List Part} {s₀ s : State} (h₀ : Frame L s₀ s) (top : Nat) (t : Txn)
    (hL : ∀ p ∈ [Part.pci, .pciPending, .bas, .fab, .traceHead, .mbds, .units, .views, .counters, .commonsPoison, .freeCtr, .out, .domQueue, .domSlabs, .domTir, .domCol, .domMem, .domPoison], p ∈ L) :
    Frame L s₀ (State.sendRequest s top t) := by
  unfold State.sendRequest
  repeat' (first
    | with_reducible assumption
    | exact sub_trans hL (by decide)
    | with_reducible apply fr_serveAndAnswer
    | (refine fr_forward ?_ (by assumption) ?_)
    | with_reducible apply fr_forwardD
    | with_reducible apply fr_answered
    | split)

theorem fr_unreachable {L : List Part} {s₀ s : State} (h₀ : Frame L s₀ s) (vc : Nat) (top : Nat) (t : Txn)
    (hL : ∀ p ∈ [Part.pci, .pciPending, .bas, .fab, .traceHead, .views, .counters, .freeCtr, .out, .domQueue, .domSlabs, .domCol], p ∈ L) :
    Frame L s₀ (State.unreachable s vc top t) := by
  unfold State.unreachable
  repeat' (first
    | with_reducible assumption
    | exact sub_trans hL (by decide)
    | with_reducible apply fr_sendAnswer
    | split)

theorem fr_sendChunk {L : List Part} {s₀ s : State} (h₀ : Frame L s₀ s) (d : Nat) (sub : Nat) (b : CollBody)
    (o : CollOp) (ring : Nat) (step : Nat)
    (hL : ∀ p ∈ [Part.fab, .counters, .out], p ∈ L) :
    Frame L s₀ (State.sendChunk s d sub b o ring step) := by
  unfold State.sendChunk
  repeat' (first
    | with_reducible assumption
    | exact sub_trans hL (by decide)
    | (extract_lets +onlyGivenNames x; ((have y : List Nat := x); clear y; clear_value x))
    | with_reducible apply fr_bump
    | with_reducible apply fr_forwardD
    | with_reducible apply fr_foldl
    | split
    | dsimp only
    | intro)

theorem fr_ringRuns {L : List Part} {s₀ : State} (d sub : Nat) (b : CollBody) (ring : Nat)
    (hL : ∀ p ∈ [Part.fab, .counters, .out, .domSlabs, .domCol], p ∈ L) :
    ∀ (n : Nat) {s : State}, Frame L s₀ s → Frame L s₀ (s.ringRuns d sub b ring n)
  | 0, _, h => h
  | n + 1, s, h => by
    unfold State.ringRuns
    dsimp only
    repeat' (first
      | with_reducible assumption
      | with_reducible apply fr_ringRuns d sub b ring hL n
      | with_reducible apply fr_sendChunk
      | with_reducible apply fr_updOp
      | with_reducible apply fr_opFails
      | with_reducible apply fr_oweCredit
      | with_reducible apply fr_bump
      | with_reducible apply fr_updDom
      | split
      | exact sub_trans hL (by decide)
      | with_reducible apply dfr_updCol
      | exact dfr_refl _ _
      | intro _)

theorem fr_ringsRun {L : List Part} {s₀ s : State} (h₀ : Frame L s₀ s) (d : Nat) (sub : Nat) (b : CollBody)
    (hL : ∀ p ∈ [Part.fab, .counters, .out, .domSlabs, .domCol], p ∈ L) :
    Frame L s₀ (State.ringsRun s d sub b) := by
  unfold State.ringsRun
  repeat' (first
    | with_reducible assumption
    | exact sub_trans hL (by decide)
    | (extract_lets +onlyGivenNames x; first
        | (refine (fun (hx : Frame L s₀ x) => ?_) ?_; (on_goal 1 => clear_value x); (on_goal 2 => subst x))
        | ((have y : Nat := x); clear y; clear_value x))
    | with_reducible apply fr_ringRuns
    | with_reducible apply fr_updOp
    | split)

theorem fr_issue {L : List Part} {s₀ s : State} (h₀ : Frame L s₀ s) (d : Nat) (b : CollBody) (top : Nat) (addr : Nat) (nblk : Nat) (slots : List (List Byte)) (localAt : Nat)
    (hL : ∀ p ∈ [Part.pci, .pciPending, .bas, .fab, .traceHead, .mbds, .units, .views, .counters, .commonsPoison, .freeCtr, .out, .domQueue, .domSlabs, .domTir, .domCol, .domMem, .domPoison], p ∈ L) :
    Frame L s₀ (State.issue s d b top addr nblk slots localAt) := by
  unfold State.issue
  repeat' (first
    | with_reducible assumption
    | exact sub_trans hL (by decide)
    | (extract_lets +onlyGivenNames x; first
        | (refine (fun (hx : Frame L s₀ x) => ?_) ?_; (on_goal 1 => clear_value x); (on_goal 2 => subst x))
        | subst x)
    | with_reducible apply fr_updOp
    | with_reducible apply fr_updDom
    | with_reducible apply fr_sendRequest
    | with_reducible apply fr_bump
    | split
    | with_reducible apply dfr_updCol
    | with_reducible apply dfr_mk
    | with_reducible exact dfr_refl _ _
    | with_reducible exact Or.inr rfl
    | with_reducible exact Or.inr (same_mem _)
    | with_reducible exact Or.inr (same_domLife _)
    | with_reducible exact Or.inr (same_domRecord _)
    | with_reducible exact Or.inr (same_domPreempt _)
    | with_reducible exact Or.inr (same_domSlabs _)
    | with_reducible exact Or.inr (same_domSched _)
    | exact Or.inr (fun _ => rfl)
    | with_reducible exact Or.inl (hL .pci (by decide))
    | with_reducible exact Or.inl (hL .pciPending (by decide))
    | with_reducible exact Or.inl (hL .bas (by decide))
    | with_reducible exact Or.inl (hL .fab (by decide))
    | with_reducible exact Or.inl (hL .traceHead (by decide))
    | with_reducible exact Or.inl (hL .mbds (by decide))
    | with_reducible exact Or.inl (hL .units (by decide))
    | with_reducible exact Or.inl (hL .views (by decide))
    | with_reducible exact Or.inl (hL .counters (by decide))
    | with_reducible exact Or.inl (hL .commonsPoison (by decide))
    | with_reducible exact Or.inl (hL .freeCtr (by decide))
    | with_reducible exact Or.inl (hL .out (by decide))
    | with_reducible exact Or.inl (hL .domQueue (by decide))
    | with_reducible exact Or.inl (hL .domSlabs (by decide))
    | with_reducible exact Or.inl (hL .domTir (by decide))
    | with_reducible exact Or.inl (hL .domCol (by decide))
    | with_reducible exact Or.inl (hL .domMem (by decide))
    | with_reducible exact Or.inl (hL .domPoison (by decide))
    | dsimp only
    | intro)

theorem fr_issueAll {L : List Part} {s₀ s : State} (h₀ : Frame L s₀ s) (d : Nat) (sub : Nat) (b : CollBody) (data : List Byte) (scales : List Byte)
    (hL : ∀ p ∈ [Part.pci, .pciPending, .bas, .fab, .traceHead, .mbds, .units, .views, .counters, .commonsPoison, .freeCtr, .out, .domQueue, .domSlabs, .domTir, .domCol, .domMem, .domPoison], p ∈ L) :
    Frame L s₀ (State.issueAll s d sub b data scales) := by
  unfold State.issueAll
  repeat' (first
    | with_reducible assumption
    | exact sub_trans hL (by decide)
    | (extract_lets +onlyGivenNames x; first
        | ((have y : Nat := x); clear y; clear_value x)
        | subst x)
    | with_reducible apply fr_issue
    | with_reducible apply fr_foldl
    | with_reducible apply fr_foldl_fst
    | with_reducible apply fr_foldl_snd
    | (refine fr_foldl_fst_eq ?_ ?_ (by assumption))
    | (refine fr_foldl_snd_eq ?_ ?_ (by assumption))
    | split
    | dsimp only
    | intro)

theorem fr_startColl {L : List Part} {s₀ s : State} (h₀ : Frame L s₀ s) (d : Nat) (order : Nat) (ws : List W64)
    (hL : ∀ p ∈ [Part.pci, .pciPending, .bas, .fab, .traceHead, .mbds, .units, .views, .counters, .commonsPoison, .freeCtr, .out, .domQueue, .domSlabs, .domTir, .domCol, .domMem, .domPoison], p ∈ L) :
    Frame L s₀ (State.startColl s d order ws).1 := by
  unfold State.startColl
  repeat' (first
    | with_reducible assumption
    | exact sub_trans hL (by decide)
    | (extract_lets +onlyGivenNames x; first
        | (refine (fun (hx : Frame L s₀ x) => ?_) ?_; (on_goal 1 => clear_value x); (on_goal 2 => subst x))
        | ((have y : Bool := x); clear y; clear_value x)
        | ((have y : Hdr := x); clear y; clear_value x)
        | subst x)
    | with_reducible apply fr_updDom
    | with_reducible apply fr_issueAll
    | with_reducible apply fr_sendChunk
    | with_reducible apply fr_ringsRun
    | split
    | with_reducible apply dfr_updCol
    | with_reducible apply dfr_mk
    | with_reducible exact dfr_refl _ _
    | with_reducible exact Or.inr rfl
    | with_reducible exact Or.inr (same_mem _)
    | with_reducible exact Or.inr (same_domLife _)
    | with_reducible exact Or.inr (same_domRecord _)
    | with_reducible exact Or.inr (same_domPreempt _)
    | with_reducible exact Or.inr (same_domSlabs _)
    | with_reducible exact Or.inr (same_domSched _)
    | exact Or.inr (fun _ => rfl)
    | with_reducible exact Or.inl (hL .pci (by decide))
    | with_reducible exact Or.inl (hL .pciPending (by decide))
    | with_reducible exact Or.inl (hL .bas (by decide))
    | with_reducible exact Or.inl (hL .fab (by decide))
    | with_reducible exact Or.inl (hL .traceHead (by decide))
    | with_reducible exact Or.inl (hL .mbds (by decide))
    | with_reducible exact Or.inl (hL .units (by decide))
    | with_reducible exact Or.inl (hL .views (by decide))
    | with_reducible exact Or.inl (hL .counters (by decide))
    | with_reducible exact Or.inl (hL .commonsPoison (by decide))
    | with_reducible exact Or.inl (hL .freeCtr (by decide))
    | with_reducible exact Or.inl (hL .out (by decide))
    | with_reducible exact Or.inl (hL .domQueue (by decide))
    | with_reducible exact Or.inl (hL .domSlabs (by decide))
    | with_reducible exact Or.inl (hL .domTir (by decide))
    | with_reducible exact Or.inl (hL .domCol (by decide))
    | with_reducible exact Or.inl (hL .domMem (by decide))
    | with_reducible exact Or.inl (hL .domPoison (by decide))
    | dsimp only
    | intro)
theorem fr_startColl_eq {L : List Part} {s₀ s : State} (h₀ : Frame L s₀ s) {d : Nat} {order : Nat} {ws : List W64} {r₁ : _} {u₀ : State}
    (e₀ : State.startColl s d order ws = (u₀, r₁))
    (hL : ∀ p ∈ [Part.pci, .pciPending, .bas, .fab, .traceHead, .mbds, .units, .views, .counters, .commonsPoison, .freeCtr, .out, .domQueue, .domSlabs, .domTir, .domCol, .domMem, .domPoison], p ∈ L) : Frame L s₀ u₀ := by
  have x := fr_startColl h₀ d order ws hL
  rw [e₀] at x
  exact x

theorem fr_collArrive {L : List Part} {s₀ s : State} (h₀ : Frame L s₀ s) (origin : Nat) (t : Txn) (step : Nat) (ring : Bool)
    (hL : ∀ p ∈ [Part.pciPending, .fab, .traceHead, .views, .counters, .out, .domSlabs, .domCol], p ∈ L) :
    Frame L s₀ (State.collArrive s origin t step ring).1 := by
  unfold State.collArrive
  repeat' (first
    | with_reducible assumption
    | exact sub_trans hL (by decide)
    | (extract_lets +onlyGivenNames x; first
        | (refine (fun (hx : Frame L s₀ x) => ?_) ?_; (on_goal 1 => clear_value x); (on_goal 2 => subst x))
        | ((have y : Nat := x); clear y; clear_value x)
        | subst x)
    | with_reducible apply fr_rejectRemote
    | with_reducible apply fr_updDom
    | with_reducible apply fr_opFails
    | with_reducible apply fr_ringsRun
    | with_reducible apply fr_updOp
    | with_reducible apply fr_bump
    | split
    | with_reducible apply dfr_updCol
    | with_reducible exact dfr_refl _ _
    | intro)
theorem fr_collArrive_eq {L : List Part} {s₀ s : State} (h₀ : Frame L s₀ s) {origin : Nat} {t : Txn} {step : Nat}
    {ring : Bool} {r₀ : _} {u₀ : State}
    (e₀ : State.collArrive s origin t step ring = (u₀, r₀))
    (hL : ∀ p ∈ [Part.pciPending, .fab, .traceHead, .views, .counters, .out, .domSlabs, .domCol], p ∈ L) : Frame L s₀ u₀ := by
  have x := fr_collArrive h₀ origin t step ring hL
  rw [e₀] at x
  exact x

theorem fr_freeBytes {L : List Part} {s₀ s : State} (h₀ : Frame L s₀ s) (d : Nat) (space : Nat) (a : Nat) (n : Nat)
    (hL : ∀ p ∈ [Part.commons, .commonsPoison, .freeCtr, .domTir, .domMem, .domPoison], p ∈ L) :
    Frame L s₀ (State.freeBytes s d space a n) := by
  unfold State.freeBytes
  repeat' (first
    | with_reducible assumption
    | exact sub_trans hL (by decide)
    | (extract_lets +onlyGivenNames x; ((have y : List Byte := x); clear y; clear_value x))
    | (refine fr_takeFree_eq ?_ (by assumption) ?_)
    | with_reducible apply fr_wrMem
    | with_reducible apply fr_wrCommons
    | split)

theorem fr_collResults {L : List Part} {s₀ s : State} (h₀ : Frame L s₀ s) (d : Nat) (sub : Nat) (b : CollBody) (o : CollOp)
    (hL : ∀ p ∈ [Part.commons, .commonsPoison, .domTir, .domMem, .domPoison], p ∈ L) :
    Frame L s₀ (State.collResults s d sub b o) := by
  unfold State.collResults
  repeat' (first
    | with_reducible assumption
    | exact sub_trans hL (by decide)
    | (extract_lets +onlyGivenNames x; first
        | subst x)
    | with_reducible apply fr_wrMem
    | with_reducible apply fr_wrCommons
    | with_reducible apply fr_foldl
    | with_reducible apply fr_foldl_fst
    | with_reducible apply fr_foldl_snd
    | (refine fr_foldl_fst_eq ?_ ?_ (by assumption))
    | (refine fr_foldl_snd_eq ?_ ?_ (by assumption))
    | split
    | with_reducible apply dfr_wrMem
    | with_reducible apply fr_mk
    | with_reducible exact Or.inr rfl
    | with_reducible exact Or.inr (same_mem _)
    | with_reducible exact Or.inr (same_poison _)
    | with_reducible exact Or.inr (same_head _)
    | with_reducible exact same_ring _
    | exact Or.inr (fun _ => rfl)
    | with_reducible exact Or.inl (hL .commons (by decide))
    | with_reducible exact Or.inl (hL .commonsPoison (by decide))
    | with_reducible exact Or.inl (hL .domTir (by decide))
    | with_reducible exact Or.inl (hL .domMem (by decide))
    | with_reducible exact Or.inl (hL .domPoison (by decide))
    | dsimp only
    | intro)

theorem fr_collFailed {L : List Part} {s₀ s : State} (h₀ : Frame L s₀ s) (d : Nat) (sub : Nat) (b : CollBody)
    (hL : ∀ p ∈ [Part.commons, .commonsPoison, .freeCtr, .domTir, .domMem, .domPoison], p ∈ L) :
    Frame L s₀ (State.collFailed s d sub b) := by
  unfold State.collFailed
  repeat' (first
    | with_reducible assumption
    | exact sub_trans hL (by decide)
    | with_reducible apply fr_freeBytes
    | split)

theorem fr_endColl {L : List Part} {s₀ s : State} (h₀ : Frame L s₀ s) (d : Nat) (ws : List W64)
    (hL : ∀ p ∈ [Part.fab, .counters, .commons, .commonsPoison, .freeCtr, .domTir, .domCol, .domMem, .domPoison], p ∈ L) :
    Frame L s₀ (State.endColl s d ws) := by
  unfold State.endColl
  repeat' (first
    | with_reducible assumption
    | exact sub_trans hL (by decide)
    | (extract_lets +onlyGivenNames x; first
        | (refine (fun (hx : Frame L s₀ x) => ?_) ?_; (on_goal 1 => clear_value x); (on_goal 2 => subst x))
        | ((have y : Nat := x); clear y; clear_value x)
        | subst x)
    | with_reducible apply fr_collFailed
    | with_reducible apply fr_bump
    | with_reducible apply fr_collResults
    | with_reducible apply fr_updDom
    | with_reducible apply fr_oweCredit
    | with_reducible apply fr_foldl
    | split
    | with_reducible apply dfr_updCol
    | with_reducible exact dfr_refl _ _
    | intro)

theorem fr_readStripe {L : List Part} {s₀ s : State} (h₀ : Frame L s₀ s) (k : Nat) (q : Nat)
    (hL : ∀ p ∈ [Part.counters, .out], p ∈ L) :
    Frame L s₀ (State.readStripe s k q) := by
  unfold State.readStripe
  repeat' (first
    | with_reducible assumption
    | exact sub_trans hL (by decide)
    | with_reducible apply fr_emit
    | with_reducible apply fr_bump)

theorem fr_askStripe {L : List Part} {s₀ s0 : State} (h₀ : Frame L s₀ s0) (k : Nat) (q : Nat)
    (hL : ∀ p ∈ [Part.pci, .pciPending, .bas, .fab, .traceHead, .mbds, .units, .views, .counters, .commonsPoison, .freeCtr, .out, .domQueue, .domSlabs, .domTir, .domCol, .domMem, .domPoison], p ∈ L) :
    Frame L s₀ (State.askStripe s0 k q) := by
  unfold State.askStripe
  repeat' (first
    | with_reducible assumption
    | exact sub_trans hL (by decide)
    | (extract_lets +onlyGivenNames x; first
        | (refine (fun (hx : Frame L s₀ x) => ?_) ?_; (on_goal 1 => clear_value x); (on_goal 2 => subst x))
        | subst x)
    | with_reducible apply fr_updCopy
    | with_reducible apply fr_stripeLost
    | with_reducible apply fr_sendRequest
    | with_reducible apply fr_readStripe
    | with_reducible apply fr_emit
    | split)

theorem fr_execRdReq {L : List Part} {s₀ s : State} (h₀ : Frame L s₀ s) (t : Txn) (errors : List ReadError)
    (hL : ∀ p ∈ [Part.pci, .pciPending, .bas, .fab, .traceHead, .mbds, .units, .views, .counters, .commonsPoison, .freeCtr, .out, .domQueue, .domSlabs, .domTir, .domCol, .domMem, .domPoison], p ∈ L) :
    FrameOut L s₀ (execRdReq t errors s) := by
  unfold execRdReq
  repeat' (first
    | with_reducible assumption
    | exact sub_trans hL (by decide)
    | with_reducible apply fr_serveAndAnswer
    | split
    | with_reducible apply fro_next)

theorem fr_execRdResp {L : List Part} {s₀ s : State} (h₀ : Frame L s₀ s) (t : Txn)
    (hL : ∀ p ∈ [Part.counters, .domSlabs, .domCol], p ∈ L) :
    FrameOut L s₀ (execRdResp t s) := by
  unfold execRdResp
  repeat' (first
    | with_reducible assumption
    | exact sub_trans hL (by decide)
    | with_reducible apply fr_takeAnswer
    | with_reducible apply fro_next)

theorem fr_execWr {L : List Part} {s₀ s : State} (h₀ : Frame L s₀ s) (t : Txn) (errors : List ReadError)
    (hL : ∀ p ∈ [Part.pci, .pciPending, .bas, .fab, .traceHead, .mbds, .units, .views, .counters, .commonsPoison, .freeCtr, .out, .domQueue, .domSlabs, .domTir, .domCol, .domMem, .domPoison], p ∈ L) :
    FrameOut L s₀ (execWr t errors s) := by
  unfold execWr
  repeat' (first
    | with_reducible assumption
    | exact sub_trans hL (by decide)
    | with_reducible apply fr_serveAndAnswer
    | split
    | with_reducible apply fro_next)

theorem fr_execWrAck {L : List Part} {s₀ s : State} (h₀ : Frame L s₀ s) (t : Txn)
    (hL : ∀ p ∈ [Part.counters, .domSlabs, .domCol], p ∈ L) :
    FrameOut L s₀ (execWrAck t s) := by
  unfold execWrAck
  repeat' (first
    | with_reducible assumption
    | exact sub_trans hL (by decide)
    | with_reducible apply fr_takeAnswer
    | with_reducible apply fro_next)

theorem fr_execRadd {L : List Part} {s₀ s : State} (h₀ : Frame L s₀ s) (t : Txn) (errors : List ReadError)
    (hL : ∀ p ∈ [Part.pci, .pciPending, .bas, .fab, .traceHead, .mbds, .units, .views, .counters, .commonsPoison, .freeCtr, .out, .domQueue, .domSlabs, .domTir, .domCol, .domMem, .domPoison], p ∈ L) :
    FrameOut L s₀ (execRadd t errors s) := by
  unfold execRadd
  repeat' (first
    | with_reducible assumption
    | exact sub_trans hL (by decide)
    | with_reducible apply fr_serveAndAnswer
    | split
    | with_reducible apply fro_next)

theorem fr_execRaddAck {L : List Part} {s₀ s : State} (h₀ : Frame L s₀ s) (t : Txn)
    (hL : ∀ p ∈ [Part.counters, .domSlabs, .domCol], p ∈ L) :
    FrameOut L s₀ (execRaddAck t s) := by
  unfold execRaddAck
  repeat' (first
    | with_reducible assumption
    | exact sub_trans hL (by decide)
    | with_reducible apply fr_takeAnswer
    | with_reducible apply fro_next)

theorem fr_execAtom {L : List Part} {s₀ s : State} (h₀ : Frame L s₀ s) (t : Txn) (errors : List ReadError)
    (hL : ∀ p ∈ [Part.pci, .pciPending, .bas, .fab, .traceHead, .mbds, .units, .views, .counters, .commonsPoison, .freeCtr, .out, .domQueue, .domSlabs, .domTir, .domCol, .domMem, .domPoison], p ∈ L) :
    FrameOut L s₀ (execAtom t errors s) := by
  unfold execAtom
  repeat' (first
    | with_reducible assumption
    | exact sub_trans hL (by decide)
    | with_reducible apply fr_serveAndAnswer
    | split
    | with_reducible apply fro_next)

theorem fr_execAtomResp {L : List Part} {s₀ s : State} (h₀ : Frame L s₀ s) (t : Txn)
    (hL : ∀ p ∈ [Part.counters, .domSlabs, .domCol], p ∈ L) :
    FrameOut L s₀ (execAtomResp t s) := by
  unfold execAtomResp
  repeat' (first
    | with_reducible assumption
    | exact sub_trans hL (by decide)
    | with_reducible apply fr_takeAnswer
    | with_reducible apply fro_next)

theorem fr_execCollData {L : List Part} {s₀ s : State} (h₀ : Frame L s₀ s) (t : Txn) (step : Nat) (ring : Bool)
    (hL : ∀ p ∈ [Part.pciPending, .fab, .traceHead, .views, .counters, .out, .domSlabs, .domCol], p ∈ L) :
    FrameOut L s₀ (execCollData t step ring s) := by
  unfold execCollData
  repeat' (first
    | with_reducible assumption
    | exact sub_trans hL (by decide)
    | with_reducible apply fr_collArrive
    | with_reducible apply fro_next)

theorem fr_execStripeReq {L : List Part} {s₀ s : State} (h₀ : Frame L s₀ s) (t : Txn) (errors : List ReadError)
    (hL : ∀ p ∈ [Part.pci, .pciPending, .bas, .fab, .traceHead, .mbds, .units, .views, .counters, .commonsPoison, .freeCtr, .out, .domQueue, .domSlabs, .domTir, .domCol, .domMem, .domPoison], p ∈ L) :
    FrameOut L s₀ (execStripeReq t errors s) := by
  unfold execStripeReq
  repeat' (first
    | with_reducible assumption
    | exact sub_trans hL (by decide)
    | with_reducible apply fr_serveAndAnswer
    | split
    | with_reducible apply fro_next)

theorem fr_execColTimeout {L : List Part} {s₀ s : State} (h₀ : Frame L s₀ s) (d : Fin 64) (collId : W32)
    (hL : ∀ p ∈ [Part.pciPending, .traceHead, .views, .counters, .out, .domSlabs, .domCol], p ∈ L) :
    FrameOut L s₀ (execColTimeout d collId s) := by
  unfold execColTimeout
  repeat' (first
    | with_reducible assumption
    | exact sub_trans hL (by decide)
    | with_reducible apply fr_raiseDom
    | with_reducible apply fr_opFails
    | split
    | with_reducible apply fro_next)

end Sys2Proof.Laws
end

