-- ==== Sys2Proof/Laws/FrameTree.lean ====
section
/-! SUPPORT. What the operations of Machine/Tree.lean may change (Safety.Frame): each lemma lists the parts. -/

namespace Sys2Proof.Laws

open Sys2Proof.Machine Sys2Proof.Safety

theorem fr_sendTick {L : List Part} {s₀ s : State} (h₀ : Frame L s₀ s) (sym : TickSymbol)
    (hL : ∀ p ∈ [Part.fab, .counters, .freeCtr, .out], p ∈ L) :
    Frame L s₀ (State.sendTick s sym) := by
  unfold State.sendTick
  repeat' (first
    | with_reducible assumption
    | exact sub_trans hL (by decide)
    | with_reducible apply fr_emit
    | with_reducible apply fr_controlFlit
    | with_reducible apply fr_foldl
    | intro)

theorem fr_systemStretch {L : List Part} {s₀ s : State} (h₀ : Frame L s₀ s) (ns : Nat) (code : Nat)
    (hL : ∀ p ∈ [Part.pciPending, .tik, .traceHead, .views, .counters, .stretch, .out], p ∈ L) :
    Frame L s₀ (State.systemStretch s ns code) := by
  unfold State.systemStretch
  repeat' (first
    | with_reducible assumption
    | exact sub_trans hL (by decide)
    | (extract_lets +onlyGivenNames x; first
        | (refine (fun (hx : Frame L s₀ x) => ?_) ?_; (on_goal 1 => clear_value x); (on_goal 2 => subst x))
        | ((have y : Nat := x); clear y; clear_value x))
    | with_reducible apply fr_updTik
    | with_reducible apply fr_bump
    | with_reducible apply fr_raiseDev
    | with_reducible apply fr_addStretch
    | split)

theorem fr_forwardToken {L : List Part} {s₀ s : State} (h₀ : Frame L s₀ s) 
    (hL : ∀ p ∈ [Part.fab, .counters, .freeCtr, .out], p ∈ L) :
    Frame L s₀ (State.forwardToken s) := by
  unfold State.forwardToken
  repeat' (first
    | with_reducible assumption
    | exact sub_trans hL (by decide)
    | with_reducible apply fr_emit
    | with_reducible apply fr_controlFlit
    | split)

theorem fr_sendDone {L : List Part} {s₀ s : State} (h₀ : Frame L s₀ s) (nowNs : Nat)
    (hL : ∀ p ∈ [Part.tik, .fab, .counters, .freeCtr, .out], p ∈ L) :
    Frame L s₀ (State.sendDone s nowNs) := by
  unfold State.sendDone
  repeat' (first
    | with_reducible assumption
    | exact sub_trans hL (by decide)
    | with_reducible apply fr_forwardToken
    | with_reducible apply fr_updTik
    | split)

theorem fr_refetchEnds {L : List Part} {s₀ s : State} (h₀ : Frame L s₀ s)
    (hL : ∀ p ∈ [Part.tik, .fab, .counters, .stretch, .freeCtr, .out], p ∈ L) :
    Frame L s₀ (State.refetchEnds s) := by
  unfold State.refetchEnds
  repeat' (first
    | with_reducible assumption
    | exact sub_trans hL (by decide)
    | with_reducible apply fr_deviceStall
    | with_reducible apply fr_sendDone
    | split)

theorem fr_askNext {L : List Part} {s₀ s : State} (h₀ : Frame L s₀ s) (before : State) (k : Nat) (q : Nat)
    (hL : ∀ p ∈ [Part.pci, .pciPending, .tik, .bas, .fab, .traceHead, .mbds, .units, .views, .counters, .stretch, .commonsPoison, .freeCtr, .out, .domQueue, .domSlabs, .domTir, .domCol, .domMem, .domPoison], p ∈ L) :
    Frame L s₀ (State.askNext s before k q) := by
  unfold State.askNext
  repeat' (first
    | with_reducible assumption
    | exact sub_trans hL (by decide)
    | (extract_lets +onlyGivenNames x; first
        | (refine (fun (hx : Frame L s₀ x) => ?_) ?_; (on_goal 1 => clear_value x); (on_goal 2 => subst x))
        | subst x)
    | with_reducible apply fr_askStripe
    | with_reducible apply fr_refetchEnds
    | split)

theorem fr_execDoneTokenReceive {L : List Part} {s₀ s0 : State} (h₀ : Frame L s₀ s0) (port : Fin 18) (token : DoneToken)
    (nowNs : Nat)
    (hL : ∀ p ∈ [Part.fuses, .tik, .fab, .counters, .freeCtr, .out], p ∈ L) :
    FrameOut L s₀ (execDoneTokenReceive port token nowNs s0) := by
  unfold execDoneTokenReceive
  repeat' (first
    | with_reducible assumption
    | exact sub_trans hL (by decide)
    | (extract_lets +onlyGivenNames x; (refine (fun (hx : Frame L s₀ x) => ?_) ?_; (on_goal 1 => clear_value x); (on_goal 2 => subst x)))
    | with_reducible apply fr_atTime
    | with_reducible apply fr_forwardToken
    | with_reducible apply fr_updTik
    | split
    | with_reducible apply fro_next)

theorem fr_execTickStart {L : List Part} {s₀ s0 : State} (h₀ : Frame L s₀ s0) (nowNs : Nat)
    (hL : ∀ p ∈ [Part.fuses, .pciPending, .tik, .fab, .traceHead, .views, .counters, .stretch, .freeCtr, .out], p ∈ L) :
    FrameOut L s₀ (execTickStart nowNs s0) := by
  unfold execTickStart
  repeat' (first
    | with_reducible assumption
    | exact sub_trans hL (by decide)
    | (extract_lets +onlyGivenNames x; first
        | (refine (fun (hx : Frame L s₀ x) => ?_) ?_; (on_goal 1 => clear_value x); (on_goal 2 => subst x))
        | ((have y : Nat := x); clear y; clear_value x)
        | subst x)
    | with_reducible apply fr_atTime
    | with_reducible apply fr_systemStretch
    | with_reducible apply fr_updTik
    | with_reducible apply fr_sendTick
    | split
    | with_reducible apply fro_next)

theorem fr_takeMaster {L : List Part} {s₀ s : State} (h₀ : Frame L s₀ s) (m : Nat)
    (hL : ∀ p ∈ [Part.pciPending, .tik, .fab, .traceHead, .views, .counters, .freeCtr, .out], p ∈ L) :
    Frame L s₀ (State.takeMaster s m) := by
  unfold State.takeMaster
  repeat' (first
    | with_reducible assumption
    | exact sub_trans hL (by decide)
    | (extract_lets +onlyGivenNames x; first
        | (refine (fun (hx : Frame L s₀ x) => ?_) ?_; (on_goal 1 => clear_value x); (on_goal 2 => subst x))
        | subst x)
    | with_reducible apply fr_chooseParent
    | with_reducible apply fr_updTik
    | with_reducible apply fr_raiseDev
    | split)

theorem fr_execMasterElection {L : List Part} {s₀ s0 : State} (h₀ : Frame L s₀ s0) (nowNs : Nat)
    (hL : ∀ p ∈ [Part.fuses, .pciPending, .tik, .fab, .traceHead, .views, .counters, .freeCtr, .out], p ∈ L) :
    FrameOut L s₀ (execMasterElection nowNs s0) := by
  unfold execMasterElection
  repeat' (first
    | with_reducible assumption
    | exact sub_trans hL (by decide)
    | (extract_lets +onlyGivenNames x; (refine (fun (hx : Frame L s₀ x) => ?_) ?_; (on_goal 1 => clear_value x); (on_goal 2 => subst x)))
    | with_reducible apply fr_atTime
    | with_reducible apply fr_takeMaster
    | with_reducible apply fr_updTik
    | with_reducible apply fr_sendTick
    | split
    | with_reducible apply fro_next)

theorem fr_execTickMasterTimeout {L : List Part} {s₀ s0 : State} (h₀ : Frame L s₀ s0) (nowNs : Nat)
    (hL : ∀ p ∈ [Part.fuses, .pciPending, .tik, .fab, .traceHead, .views, .counters, .stretch, .freeCtr, .out], p ∈ L) :
    FrameOut L s₀ (execTickMasterTimeout nowNs s0) := by
  unfold execTickMasterTimeout
  repeat' (first
    | with_reducible assumption
    | exact sub_trans hL (by decide)
    | (extract_lets +onlyGivenNames x; first
        | (refine (fun (hx : Frame L s₀ x) => ?_) ?_; (on_goal 1 => clear_value x); (on_goal 2 => subst x))
        | ((have y : Nat := x); clear y; clear_value x))
    | with_reducible apply fr_atTime
    | with_reducible apply fr_updTik
    | with_reducible apply fr_raiseDev
    | with_reducible apply fr_takeMaster
    | with_reducible apply fr_systemStretch
    | with_reducible apply fr_sendTick
    | split
    | with_reducible apply fro_next)

theorem fr_execTickRefLoss {L : List Part} {s₀ s : State} (h₀ : Frame L s₀ s) 
    (hL : ∀ p ∈ [Part.pciPending, .tik, .traceHead, .views, .counters, .out], p ∈ L) :
    FrameOut L s₀ (execTickRefLoss s) := by
  unfold execTickRefLoss
  repeat' (first
    | with_reducible assumption
    | exact sub_trans hL (by decide)
    | with_reducible apply fr_raiseDev
    | with_reducible apply fr_updTik
    | split
    | with_reducible apply fro_next)

theorem fr_execTickSymbolReceive {L : List Part} {s₀ s0 : State} (h₀ : Frame L s₀ s0) (port : Fin 18) (sym : TickSymbol) (nowNs : Nat)
    (hL : ∀ p ∈ [Part.fuses, .pciPending, .tik, .fab, .traceHead, .views, .counters, .stretch, .freeCtr, .out], p ∈ L) :
    FrameOut L s₀ (execTickSymbolReceive port sym nowNs s0) := by
  unfold execTickSymbolReceive
  repeat' (first
    | with_reducible assumption
    | exact sub_trans hL (by decide)
    | (extract_lets +onlyGivenNames x; first
        | (refine (fun (hx : Frame L s₀ x) => ?_) ?_; (on_goal 1 => clear_value x); (on_goal 2 => subst x))
        | ((have y : Nat := x); clear y; clear_value x)
        | ((have y : Bool := x); clear y; clear_value x)
        | subst x)
    | with_reducible apply fr_atTime
    | with_reducible apply fr_joinTime
    | with_reducible apply fr_takeMaster
    | with_reducible apply fr_updTik
    | with_reducible apply fr_systemStretch
    | with_reducible apply fr_addStretch
    | with_reducible apply fr_raiseDev
    | with_reducible apply fr_sendTick
    | split
    | with_reducible apply fro_next)

theorem fr_execFabricTrainingStart {L : List Part} {s₀ s0 : State} (h₀ : Frame L s₀ s0) (nowNs : Nat)
    (hL : ∀ p ∈ [Part.fuses, .tik, .fab], p ∈ L) :
    FrameOut L s₀ (execFabricTrainingStart nowNs s0) := by
  unfold execFabricTrainingStart
  repeat' (first
    | with_reducible assumption
    | exact sub_trans hL (by decide)
    | with_reducible apply fr_updFab
    | with_reducible apply fr_atTime
    | split
    | with_reducible apply fro_next)

theorem fr_execSignalDetect {L : List Part} {s₀ s0 : State} (h₀ : Frame L s₀ s0) (port : Fin 18) (nowNs : Nat)
    (hL : ∀ p ∈ [Part.fuses, .tik, .fab, .out], p ∈ L) :
    FrameOut L s₀ (execSignalDetect port nowNs s0) := by
  unfold execSignalDetect
  repeat' (first
    | with_reducible assumption
    | exact sub_trans hL (by decide)
    | (extract_lets +onlyGivenNames x; first
        | subst x)
    | with_reducible apply fr_atTime
    | with_reducible apply fr_updPort
    | with_reducible apply fr_nameSelf
    | split
    | with_reducible apply fro_next)

theorem fr_execPortStageTimeout {L : List Part} {s₀ s : State} (h₀ : Frame L s₀ s) (port : Fin 18)
    (hL : ∀ p ∈ [Part.pciPending, .fab, .traceHead, .views, .counters, .out], p ∈ L) :
    FrameOut L s₀ (execPortStageTimeout port s) := by
  unfold execPortStageTimeout
  repeat' (first
    | with_reducible assumption
    | exact sub_trans hL (by decide)
    | with_reducible apply fr_portDown
    | split
    | with_reducible apply fro_next)

theorem fr_offerOn {L : List Part} {s₀ s : State} (h₀ : Frame L s₀ s) (p : Nat)
    (hL : ∀ p ∈ [Part.fab, .counters, .freeCtr, .out], p ∈ L) :
    Frame L s₀ (State.offerOn s p) := by
  unfold State.offerOn
  repeat' (first
    | with_reducible assumption
    | exact sub_trans hL (by decide)
    | with_reducible apply fr_emit
    | with_reducible apply fr_controlFlit
    | with_reducible apply fr_foldl
    | intro)

theorem fr_startExchange {L : List Part} {s₀ s : State} (h₀ : Frame L s₀ s) (p : Nat) (again : Bool)
    (hL : ∀ p ∈ [Part.fab, .lks, .counters, .freeCtr, .out], p ∈ L) :
    Frame L s₀ (State.startExchange s p again) := by
  unfold State.startExchange
  repeat' (first
    | with_reducible assumption
    | exact sub_trans hL (by decide)
    | (extract_lets +onlyGivenNames x; subst x)
    | with_reducible apply fr_takeDraw
    | with_reducible apply fr_emit
    | with_reducible apply fr_controlFlit
    | with_reducible apply fr_updPort
    | split)

theorem fr_execPortTrainingDone {L : List Part} {s₀ s : State} (h₀ : Frame L s₀ s) (port : Fin 18) (lanes : BitVec 8)
    (peerDevice : Nat) (peerPort : Nat) (delayPs : Nat) (eyeMv : Nat) (eyeLane : Nat)
    (hL : ∀ p ∈ [Part.pciPending, .fab, .lks, .traceHead, .views, .counters, .freeCtr, .out], p ∈ L) :
    FrameOut L s₀ (execPortTrainingDone port lanes peerDevice peerPort delayPs eyeMv eyeLane s) := by
  unfold execPortTrainingDone
  repeat' (first
    | with_reducible assumption
    | exact sub_trans hL (by decide)
    | (extract_lets +onlyGivenNames x; first
        | (refine (fun (hx : Frame L s₀ x) => ?_) ?_; (on_goal 1 => clear_value x); (on_goal 2 => subst x))
        | ((have y : Nat := x); clear y; clear_value x)
        | subst x)
    | with_reducible apply fr_updPort
    | with_reducible apply fr_raiseDev
    | with_reducible apply fr_startExchange
    | with_reducible apply fr_offerOn
    | with_reducible apply fr_portUp
    | split
    | with_reducible apply fro_next)

theorem fr_execPrioOffer {L : List Part} {s₀ s : State} (h₀ : Frame L s₀ s) (port : Fin 18) (device : Nat) (prio : Nat)
    (hL : ∀ p ∈ [Part.tik, .fab, .counters, .freeCtr, .out], p ∈ L) :
    FrameOut L s₀ (execPrioOffer port device prio s) := by
  unfold execPrioOffer
  repeat' (first
    | with_reducible assumption
    | exact sub_trans hL (by decide)
    | (extract_lets +onlyGivenNames x; first
        | (refine (fun (hx : Frame L s₀ x) => ?_) ?_; (on_goal 1 => clear_value x); (on_goal 2 => subst x))
        | ((have y : List Nat := x); clear y; clear_value x))
    | with_reducible apply fr_updTik
    | with_reducible apply fr_emit
    | with_reducible apply fr_controlFlit
    | with_reducible apply fr_foldl
    | split
    | with_reducible apply fro_next
    | intro)

theorem fr_execOneWayDelayMeasurement {L : List Part} {s₀ s : State} (h₀ : Frame L s₀ s) (port : Fin 18) (delayPs : Nat)
    (hL : ∀ p ∈ [Part.fab], p ∈ L) :
    FrameOut L s₀ (execOneWayDelayMeasurement port delayPs s) := by
  unfold execOneWayDelayMeasurement
  repeat' (first
    | with_reducible assumption
    | exact sub_trans hL (by decide)
    | with_reducible apply fr_updPort
    | split
    | with_reducible apply fro_next)

theorem fr_execLaneFail {L : List Part} {s₀ s : State} (h₀ : Frame L s₀ s) (port : Fin 18) (lane : Fin 8)
    (hL : ∀ p ∈ [Part.pciPending, .fab, .traceHead, .views, .counters, .out], p ∈ L) :
    FrameOut L s₀ (execLaneFail port lane s) := by
  unfold execLaneFail
  repeat' (first
    | with_reducible assumption
    | exact sub_trans hL (by decide)
    | (extract_lets +onlyGivenNames x; first
        | (refine (fun (hx : Frame L s₀ x) => ?_) ?_; (on_goal 1 => clear_value x); (on_goal 2 => subst x))
        | subst x)
    | with_reducible apply fr_portDown
    | with_reducible apply fr_updPort
    | with_reducible apply fr_nameSelf
    | split
    | with_reducible apply fro_next)

theorem fr_signTranscript {L : List Part} {s₀ s : State} (h₀ : Frame L s₀ s) (p : Nat)
    (hL : ∀ p ∈ [Part.fab, .lks, .counters, .freeCtr, .out], p ∈ L) :
    Frame L s₀ (State.signTranscript s p) := by
  unfold State.signTranscript
  repeat' (first
    | with_reducible assumption
    | exact sub_trans hL (by decide)
    | with_reducible apply fr_emit
    | with_reducible apply fr_controlFlit
    | with_reducible apply fr_updPort
    | with_reducible apply fr_updLks
    | split)

theorem fr_keySwitch {L : List Part} {s₀ s : State} (h₀ : Frame L s₀ s) (p : Nat)
    (hL : ∀ p ∈ [Part.fab, .counters, .out], p ∈ L) :
    Frame L s₀ (State.keySwitch s p) := by
  unfold State.keySwitch
  repeat' (first
    | with_reducible assumption
    | exact sub_trans hL (by decide)
    | (extract_lets +onlyGivenNames x; first
        | (refine (fun (hx : Frame L s₀ x) => ?_) ?_; (on_goal 1 => clear_value x); (on_goal 2 => subst x))
        | subst x)
    | with_reducible apply fr_updFab
    | with_reducible apply fr_updPort
    | with_reducible apply fr_pump
    | with_reducible apply fr_bump
    | split)

theorem fr_keysReady {L : List Part} {s₀ s : State} (h₀ : Frame L s₀ s) (p : Nat)
    (hL : ∀ p ∈ [Part.pciPending, .fab, .traceHead, .views, .counters, .freeCtr, .out], p ∈ L) :
    Frame L s₀ (State.keysReady s p) := by
  unfold State.keysReady
  repeat' (first
    | with_reducible assumption
    | exact sub_trans hL (by decide)
    | (extract_lets +onlyGivenNames x; first
        | (refine (fun (hx : Frame L s₀ x) => ?_) ?_; (on_goal 1 => clear_value x); (on_goal 2 => subst x))
        | subst x)
    | with_reducible apply fr_updPort
    | with_reducible apply fr_updFab
    | with_reducible apply fr_pump
    | with_reducible apply fr_bump
    | with_reducible apply fr_offerOn
    | with_reducible apply fr_portUp
    | split)

theorem fr_keyMessage {L : List Part} {s₀ s : State} (h₀ : Frame L s₀ s) (p : Nat) (a1 : KeyMessage)
    (hL : ∀ p ∈ [Part.pciPending, .fab, .lks, .traceHead, .views, .counters, .freeCtr, .out], p ∈ L) :
    Frame L s₀ (State.keyMessage s p a1) := by
  unfold State.keyMessage
  repeat' (first
    | with_reducible assumption
    | exact sub_trans hL (by decide)
    | (extract_lets +onlyGivenNames x; first
        | ((have y : Bool := x); clear y; clear_value x)
        | subst x)
    | with_reducible apply fr_takeDraw
    | with_reducible apply fr_signTranscript
    | with_reducible apply fr_emit
    | with_reducible apply fr_controlFlit
    | with_reducible apply fr_updPort
    | with_reducible apply fr_keysReady
    | with_reducible apply fr_keySwitch
    | split)

theorem fr_execKeyExchangeMessage {L : List Part} {s₀ s : State} (h₀ : Frame L s₀ s) (port : Fin 18) (msg : KeyMessage)
    (hL : ∀ p ∈ [Part.pciPending, .fab, .lks, .traceHead, .views, .counters, .freeCtr, .out], p ∈ L) :
    FrameOut L s₀ (execKeyExchangeMessage port msg s) := by
  unfold execKeyExchangeMessage
  repeat' (first
    | with_reducible assumption
    | exact sub_trans hL (by decide)
    | with_reducible apply fr_keyMessage
    | split
    | with_reducible apply fro_next)

theorem fr_execRekey {L : List Part} {s₀ s : State} (h₀ : Frame L s₀ s) (port : Fin 18)
    (hL : ∀ p ∈ [Part.fab, .lks, .counters, .freeCtr, .out], p ∈ L) :
    FrameOut L s₀ (execRekey port s) := by
  unfold execRekey
  repeat' (first
    | with_reducible assumption
    | exact sub_trans hL (by decide)
    | (extract_lets +onlyGivenNames x; subst x)
    | with_reducible apply fr_startExchange
    | split
    | with_reducible apply fro_next)

theorem fr_execRekeyStall {L : List Part} {s₀ s : State} (h₀ : Frame L s₀ s) (port : Fin 18)
    (hL : ∀ p ∈ [Part.pciPending, .fab, .traceHead, .views, .counters, .out], p ∈ L) :
    FrameOut L s₀ (execRekeyStall port s) := by
  unfold execRekeyStall
  repeat' (first
    | with_reducible assumption
    | exact sub_trans hL (by decide)
    | (extract_lets +onlyGivenNames x; subst x)
    | with_reducible apply fr_raiseDev
    | with_reducible apply fr_updFab
    | with_reducible apply fr_updPort
    | split
    | with_reducible apply fro_next)

theorem fr_signC {L : List Part} {s₀ s : State} (h₀ : Frame L s₀ s) 
    (hL : ∀ p ∈ [Part.pciPending, .fab, .lks, .traceHead, .views, .counters, .freeCtr, .out], p ∈ L) :
    Frame L s₀ (State.signC s) := by
  unfold State.signC
  repeat' (first
    | with_reducible assumption
    | exact sub_trans hL (by decide)
    | (extract_lets +onlyGivenNames x; first
        | ((have y : List Nat := x); clear y; clear_value x)
        | ((have y : List Byte := x); clear y; clear_value x))
    | with_reducible apply fr_keysReady
    | with_reducible apply fr_emit
    | with_reducible apply fr_controlFlit
    | with_reducible apply fr_updPort
    | with_reducible apply fr_updLks
    | with_reducible apply fr_foldl
    | split
    | intro)

theorem fr_execReportSigned {L : List Part} {s₀ s : State} (h₀ : Frame L s₀ s) (engine : Fin 3)
    (hL : ∀ p ∈ [Part.pciPending, .fab, .lks, .traceHead, .views, .pairs, .counters, .commons, .commonsPoison, .freeCtr, .out], p ∈ L) :
    FrameOut L s₀ (execReportSigned engine s) := by
  unfold execReportSigned
  repeat' (first
    | with_reducible assumption
    | exact sub_trans hL (by decide)
    | with_reducible apply fr_signA
    | with_reducible apply fr_signB
    | with_reducible apply fr_signC
    | split
    | with_reducible apply fro_next)

theorem fr_askRetry {L : List Part} {s₀ s : State} (h₀ : Frame L s₀ s) (p : Nat)
    (hL : ∀ p ∈ [Part.fab, .counters, .freeCtr, .out], p ∈ L) :
    Frame L s₀ (State.askRetry s p) := by
  unfold State.askRetry
  repeat' (first
    | with_reducible assumption
    | exact sub_trans hL (by decide)
    | with_reducible apply fr_emit
    | with_reducible apply fr_controlFlit)

theorem fr_takeData {L : List Part} {s₀ s : State} (h₀ : Frame L s₀ s) (p : Nat) (hdr : Nat) (pl : List Byte) (errors : List ReadError)
    (hL : ∀ p ∈ [Part.pci, .pciPending, .tik, .bas, .fab, .traceHead, .mbds, .units, .views, .counters, .stretch, .commonsPoison, .freeCtr, .out, .domQueue, .domSlabs, .domTir, .domCol, .domMem, .domPoison], p ∈ L) :
    Frame L s₀ (State.takeData s p hdr pl errors).1 := by
  unfold State.takeData
  repeat' (first
    | with_reducible assumption
    | exact sub_trans hL (by decide)
    | (extract_lets +onlyGivenNames x; first
        | (refine (fun (hx : Frame L s₀ x) => ?_) ?_; (on_goal 1 => clear_value x); (on_goal 2 => subst x))
        | (refine (fun (hx : Frame L s₀ x.1) => ?_) ?_; (on_goal 1 => clear_value x); (on_goal 2 => subst x))
        | ((have y : Nat := x); clear y; clear_value x))
    | with_reducible apply fr_collArrive
    | (refine fr_collArrive_eq ?_ (by assumption) ?_)
    | with_reducible apply fr_answered
    | with_reducible apply fr_askNext
    | with_reducible apply fr_serveAndAnswer
    | (refine fr_forward ?_ (by assumption) ?_)
    | with_reducible apply fr_forwardD
    | with_reducible apply fr_unreachable
    | split)
theorem fr_takeData_eq {L : List Part} {s₀ s : State} (h₀ : Frame L s₀ s) {p : Nat} {hdr : Nat} {pl : List Byte} {errors : List ReadError} {r₁ : _} {u₀ : State}
    (e₀ : State.takeData s p hdr pl errors = (u₀, r₁))
    (hL : ∀ p ∈ [Part.pci, .pciPending, .tik, .bas, .fab, .traceHead, .mbds, .units, .views, .counters, .stretch, .commonsPoison, .freeCtr, .out, .domQueue, .domSlabs, .domTir, .domCol, .domMem, .domPoison], p ∈ L) : Frame L s₀ u₀ := by
  have x := fr_takeData h₀ p hdr pl errors hL
  rw [e₀] at x
  exact x

theorem fr_acceptFlit {L : List Part} {s₀ s : State} (h₀ : Frame L s₀ s) (p : Nat) (hdr : Nat) (pl : List Byte) (errors : List ReadError)
    (hL : ∀ p ∈ [Part.pci, .pciPending, .tik, .bas, .fab, .traceHead, .mbds, .units, .views, .counters, .stretch, .commonsPoison, .freeCtr, .out, .domQueue, .domSlabs, .domTir, .domCol, .domMem, .domPoison], p ∈ L) :
    Frame L s₀ (State.acceptFlit s p hdr pl errors) := by
  unfold State.acceptFlit
  repeat' (first
    | with_reducible assumption
    | exact sub_trans hL (by decide)
    | (extract_lets +onlyGivenNames x; first
        | (refine (fun (hx : Frame L s₀ x) => ?_) ?_; (on_goal 1 => clear_value x); (on_goal 2 => subst x))
        | subst x)
    | with_reducible apply fr_updPort
    | with_reducible apply fr_bump
    | with_reducible apply fr_takeData
    | (refine fr_takeData_eq ?_ (by assumption) ?_)
    | with_reducible apply fr_oweCredit
    | split)

theorem fr_flitIn {L : List Part} {s₀ s : State} (h₀ : Frame L s₀ s) (p : Nat) (bytes : List Byte) (errors : List ReadError)
    (hL : ∀ p ∈ [Part.pci, .pciPending, .tik, .bas, .fab, .traceHead, .mbds, .units, .views, .counters, .stretch, .commonsPoison, .freeCtr, .out, .domQueue, .domSlabs, .domTir, .domCol, .domMem, .domPoison], p ∈ L) :
    Frame L s₀ (State.flitIn s p bytes errors) := by
  unfold State.flitIn
  repeat' (first
    | with_reducible assumption
    | exact sub_trans hL (by decide)
    | (extract_lets +onlyGivenNames x; first
        | (refine (fun (hx : Frame L s₀ x) => ?_) ?_; (on_goal 1 => clear_value x); (on_goal 2 => subst x))
        | ((have y : Nat := x); clear y; clear_value x)
        | ((have y : Bool := x); clear y; clear_value x)
        | subst x)
    | with_reducible apply fr_askRetry
    | with_reducible apply fr_updPort
    | with_reducible apply fr_pump
    | with_reducible apply fr_keySwitch
    | with_reducible apply fr_acceptFlit
    | with_reducible apply fr_idleOut
    | split)

theorem fr_execFlitReceive {L : List Part} {s₀ s : State} (h₀ : Frame L s₀ s) (port : Fin 18) (bytes : List Byte) (fecOk : Bool) (errors : List ReadError)
    (hL : ∀ p ∈ [Part.pci, .pciPending, .tik, .bas, .fab, .traceHead, .mbds, .units, .views, .counters, .stretch, .commonsPoison, .freeCtr, .out, .domQueue, .domSlabs, .domTir, .domCol, .domMem, .domPoison], p ∈ L) :
    FrameOut L s₀ (execFlitReceive port bytes fecOk errors s) := by
  unfold execFlitReceive
  repeat' (first
    | with_reducible assumption
    | exact sub_trans hL (by decide)
    | (extract_lets +onlyGivenNames x; first
        | ((have y : Nat := x); clear y; clear_value x)
        | subst x)
    | with_reducible apply fr_bump
    | with_reducible apply fr_flitIn
    | split
    | with_reducible apply fro_next)

theorem fr_execRetryRequest {L : List Part} {s₀ s : State} (h₀ : Frame L s₀ s) (port : Fin 18) (seq : Nat)
    (hL : ∀ p ∈ [Part.pciPending, .fab, .traceHead, .views, .counters, .out], p ∈ L) :
    FrameOut L s₀ (execRetryRequest port seq s) := by
  unfold execRetryRequest
  repeat' (first
    | with_reducible assumption
    | exact sub_trans hL (by decide)
    | (extract_lets +onlyGivenNames x; first
        | (refine (fun (hx : Frame L s₀ x) => ?_) ?_; (on_goal 1 => clear_value x); (on_goal 2 => subst x))
        | ((have y : Nat := x); clear y; clear_value x)
        | subst x)
    | with_reducible apply fr_bump
    | with_reducible apply fr_updPort
    | with_reducible apply fr_portDown
    | with_reducible apply fr_emit
    | with_reducible apply fr_foldl
    | split
    | with_reducible apply fro_next
    | intro)

end Sys2Proof.Laws
end

