-- ==== Sys2Proof/Laws/FrameCarter.lean ====
section
/-! SUPPORT. What the operations of Machine/Carter.lean may change (Safety.Frame): each lemma lists the parts. -/

namespace Sys2Proof.Laws

open Sys2Proof.Machine Sys2Proof.Safety

theorem fr_runCarter {L : List Part} {s₀ s : State} (h₀ : Frame L s₀ s) (amount : Nat) (dueNs : Nat)
    (hL : ∀ p ∈ [Part.pci, .pciPending, .bas, .fab, .traceHead, .mbds, .units, .views, .counters, .commonsPoison, .freeCtr, .out, .domQueue, .domSlabs, .domTir, .domCol, .domMem, .domPoison], p ∈ L) :
    Frame L s₀ (State.runCarter s amount dueNs) := by
  unfold State.runCarter
  repeat' (first
    | with_reducible assumption
    | exact sub_trans hL (by decide)
    | with_reducible apply fr_askStripe
    | with_reducible apply fr_updBas
    | with_reducible apply fr_foldl
    | with_reducible apply fr_foldl_fst
    | with_reducible apply fr_foldl_snd
    | (refine fr_foldl_fst_eq ?_ ?_ (by assumption))
    | (refine fr_foldl_snd_eq ?_ ?_ (by assumption))
    | split
    | dsimp only
    | intro)

theorem fr_carterStall {L : List Part} {s₀ s : State} (h₀ : Frame L s₀ s) (code : Nat) (counter : Option Nat) (ns : Nat)
    (hL : ∀ p ∈ [Part.counters, .stretch, .domSlabs, .domTir], p ∈ L) :
    Frame L s₀ (State.carterStall s code counter ns) :=
  fr_stallBy h₀ _ _ _ _ _ (fun x => dfr_shiftFromDev (dfr_refl L x) _ _ (sub_trans hL (by decide))) (sub_trans hL (by decide))

theorem fr_chargeDev {L : List Part} {s₀ s : State} (h₀ : Frame L s₀ s) (d : Nat) (energy : Rat)
    (hL : ∀ p ∈ [Part.pwr, .counters, .domSched], p ∈ L) :
    Frame L s₀ (State.chargeDev s d energy) := by
  unfold State.chargeDev
  repeat' (first
    | with_reducible assumption
    | exact sub_trans hL (by decide)
    | (extract_lets +onlyGivenNames x; first
        | ((have y : Nat := x); clear y; clear_value x)
        | ((have y : Rat := x); clear y; clear_value x)
        | subst x)
    | with_reducible apply fr_updPwr
    | with_reducible apply fr_bump
    | with_reducible apply fr_updDom
    | split
    | with_reducible apply dfr_mk
    | with_reducible exact dfr_refl _ _
    | with_reducible apply fr_mk
    | with_reducible exact Or.inr rfl
    | with_reducible exact Or.inr (same_mem _)
    | with_reducible exact Or.inr (same_domLife _)
    | with_reducible exact Or.inr (same_domRecord _)
    | with_reducible exact Or.inr (same_domPreempt _)
    | with_reducible exact Or.inr (same_domSlabs _)
    | with_reducible exact Or.inr (same_domSched _)
    | with_reducible exact Or.inr (same_poison _)
    | with_reducible exact Or.inr (same_head _)
    | with_reducible exact same_ring _
    | exact Or.inr (fun _ => rfl)
    | with_reducible exact Or.inl (hL .pwr (by decide))
    | with_reducible exact Or.inl (hL .counters (by decide))
    | with_reducible exact Or.inl (hL .domSched (by decide))
    | dsimp only
    | intro)

theorem fr_refetchBegins {L : List Part} {s₀ s : State} (h₀ : Frame L s₀ s) (fromNs : Nat)
    (hL : ∀ p ∈ [Part.pci, .pciPending, .pwr, .bas, .fab, .traceHead, .mbds, .units, .views, .counters, .commonsPoison, .freeCtr, .out, .domQueue, .domSlabs, .domSched, .domTir, .domCol, .domMem, .domPoison], p ∈ L) :
    Frame L s₀ (State.refetchBegins s fromNs) := by
  unfold State.refetchBegins
  repeat' (first
    | with_reducible assumption
    | exact sub_trans hL (by decide)
    | (extract_lets +onlyGivenNames x; first
        | (refine (fun (hx : Frame L s₀ x) => ?_) ?_; (on_goal 1 => clear_value x); (on_goal 2 => subst x))
        | subst x)
    | with_reducible apply fr_updBas
    | with_reducible apply fr_askStripe
    | with_reducible apply fr_chargeDev
    | with_reducible apply fr_foldl
    | with_reducible apply fr_foldl_fst
    | with_reducible apply fr_foldl_snd
    | (refine fr_foldl_fst_eq ?_ ?_ (by assumption))
    | (refine fr_foldl_snd_eq ?_ ?_ (by assumption))
    | split
    | dsimp only
    | intro)

theorem fr_execStripeFetchDone {L : List Part} {s₀ s0 : State} (h₀ : Frame L s₀ s0) (copy : Fin 2) (stripe : Nat) (source : StripeSource) (bytes : Timed (List Byte))
    (hL : ∀ p ∈ [Part.fuses, .pci, .pciPending, .tik, .bas, .fab, .traceHead, .mbds, .units, .views, .counters, .stretch, .commonsPoison, .freeCtr, .out, .domQueue, .domSlabs, .domTir, .domCol, .domMem, .domPoison], p ∈ L) :
    FrameOut L s₀ (execStripeFetchDone copy stripe source bytes s0) := by
  unfold execStripeFetchDone
  repeat' (first
    | with_reducible assumption
    | exact sub_trans hL (by decide)
    | (extract_lets +onlyGivenNames x; first
        | (refine (fun (hx : Frame L s₀ x) => ?_) ?_; (on_goal 1 => clear_value x); (on_goal 2 => subst x))
        | ((have y : Nat := x); clear y; clear_value x)
        | subst x)
    | with_reducible apply fr_atTime
    | with_reducible apply fr_carterStall
    | with_reducible apply fr_stripeArrives
    | with_reducible apply fr_askNext
    | with_reducible apply fr_foldl
    | with_reducible apply fr_foldl_fst
    | with_reducible apply fr_foldl_snd
    | (refine fr_foldl_fst_eq ?_ ?_ (by assumption))
    | (refine fr_foldl_snd_eq ?_ ?_ (by assumption))
    | split
    | with_reducible apply fro_next)

theorem fr_execHostReadCompletion {L : List Part} {s₀ s0 : State} (h₀ : Frame L s₀ s0) (copy : Fin 2) (stripe : Nat) (result : Timed HostReadResult)
    (hL : ∀ p ∈ [Part.fuses, .pci, .pciPending, .tik, .bas, .fab, .traceHead, .mbds, .units, .views, .counters, .stretch, .commonsPoison, .freeCtr, .out, .domQueue, .domSlabs, .domTir, .domCol, .domMem, .domPoison], p ∈ L) :
    FrameOut L s₀ (execHostReadCompletion copy stripe result s0) := by
  unfold execHostReadCompletion
  repeat' (first
    | with_reducible assumption
    | exact sub_trans hL (by decide)
    | (extract_lets +onlyGivenNames x; first
        | (refine (fun (hx : Frame L s₀ x) => ?_) ?_; (on_goal 1 => clear_value x); (on_goal 2 => subst x))
        | subst x)
    | with_reducible apply fr_atTime
    | with_reducible apply fr_updPci
    | with_reducible apply fr_bump
    | with_reducible apply fr_sourceFails
    | with_reducible apply fr_askNext
    | with_reducible apply fr_stripeIn
    | with_reducible apply fr_raiseDev
    | split
    | with_reducible apply fr_mk
    | with_reducible exact Or.inr rfl
    | with_reducible exact Or.inr (same_mem _)
    | with_reducible exact Or.inr (same_poison _)
    | with_reducible exact Or.inr (same_head _)
    | with_reducible exact same_ring _
    | exact Or.inr (fun _ => rfl)
    | with_reducible exact Or.inl (hL .fuses (by decide))
    | with_reducible exact Or.inl (hL .pci (by decide))
    | with_reducible exact Or.inl (hL .pciPending (by decide))
    | with_reducible exact Or.inl (hL .tik (by decide))
    | with_reducible exact Or.inl (hL .bas (by decide))
    | with_reducible exact Or.inl (hL .fab (by decide))
    | with_reducible exact Or.inl (hL .traceHead (by decide))
    | with_reducible exact Or.inl (hL .mbds (by decide))
    | with_reducible exact Or.inl (hL .units (by decide))
    | with_reducible exact Or.inl (hL .views (by decide))
    | with_reducible exact Or.inl (hL .counters (by decide))
    | with_reducible exact Or.inl (hL .stretch (by decide))
    | with_reducible exact Or.inl (hL .commonsPoison (by decide))
    | with_reducible exact Or.inl (hL .freeCtr (by decide))
    | with_reducible exact Or.inl (hL .out (by decide))
    | with_reducible exact Or.inl (hL .domQueue (by decide))
    | with_reducible exact Or.inl (hL .domSlabs (by decide))
    | with_reducible exact Or.inl (hL .domTir (by decide))
    | with_reducible exact Or.inl (hL .domCol (by decide))
    | with_reducible exact Or.inl (hL .domMem (by decide))
    | with_reducible exact Or.inl (hL .domPoison (by decide))
    | with_reducible apply fro_next)

theorem fr_execStripeResp {L : List Part} {s₀ s0 : State} (h₀ : Frame L s₀ s0) (t : Timed Txn)
    (hL : ∀ p ∈ [Part.fuses, .pci, .pciPending, .tik, .bas, .fab, .traceHead, .mbds, .units, .views, .counters, .stretch, .commonsPoison, .freeCtr, .out, .domQueue, .domSlabs, .domTir, .domCol, .domMem, .domPoison], p ∈ L) :
    FrameOut L s₀ (execStripeResp t s0) := by
  unfold execStripeResp
  repeat' (first
    | with_reducible assumption
    | exact sub_trans hL (by decide)
    | (extract_lets +onlyGivenNames x; first
        | (refine (fun (hx : Frame L s₀ x) => ?_) ?_; (on_goal 1 => clear_value x); (on_goal 2 => subst x))
        | subst x)
    | with_reducible apply fr_atTime
    | with_reducible apply fr_takeStripe
    | with_reducible apply fr_askNext
    | split
    | with_reducible apply fro_next)

theorem fr_execBaseRefetchDone {L : List Part} {s₀ s : State} (h₀ : Frame L s₀ s) (copy : Fin 2) (stripe : Nat)
    (source : StripeSource) (bytes : List Byte) (stretchNs : Nat)
    (hL : ∀ p ∈ [Part.fuses, .pci, .pciPending, .tik, .bas, .fab, .traceHead, .mbds, .units, .views, .counters, .stretch, .commonsPoison, .freeCtr, .out, .domQueue, .domSlabs, .domTir, .domCol, .domMem, .domPoison], p ∈ L) :
    FrameOut L s₀ (execBaseRefetchDone copy stripe source bytes stretchNs s) := by
  unfold execBaseRefetchDone
  repeat' (first
    | with_reducible assumption
    | exact sub_trans hL (by decide)
    | (extract_lets +onlyGivenNames x; first
        | (refine (fun (hx : Frame L s₀ x) => ?_) ?_; (on_goal 1 => clear_value x); (on_goal 2 => subst x)))
    | with_reducible apply fr_askNext
    | with_reducible apply fr_deviceStall
    | with_reducible apply fr_refetched
    | with_reducible apply fr_failReplays
    | with_reducible apply fr_sendDone
    | with_reducible apply fr_atTime
    | split
    | with_reducible apply fro_next)

theorem fr_stripeReadFails {L : List Part} {s₀ s : State} (h₀ : Frame L s₀ s) (k : Nat) (q : Nat)
    (hL : ∀ p ∈ [Part.pci, .pciPending, .tik, .bas, .fab, .traceHead, .mbds, .units, .views, .counters, .stretch, .commonsPoison, .freeCtr, .out, .domQueue, .domSlabs, .domTir, .domCol, .domMem, .domPoison], p ∈ L) :
    Frame L s₀ (State.stripeReadFails s k q) := by
  unfold State.stripeReadFails
  repeat' (first
    | with_reducible assumption
    | exact sub_trans hL (by decide)
    | with_reducible apply fr_updCopy
    | with_reducible apply fr_readStripe
    | with_reducible apply fr_bump
    | with_reducible apply fr_raiseDom
    | with_reducible apply fr_sourceFails
    | with_reducible apply fr_askNext
    | split)

theorem fr_workFails {L : List Part} {s₀ s : State} (h₀ : Frame L s₀ s) (d : Nat) (w : NvmeWork) (code : Nat) (ns : Nat)
    (hL : ∀ p ∈ [Part.pci, .pciPending, .tik, .bas, .fab, .traceHead, .mbds, .units, .views, .counters, .stretch, .commonsPoison, .atLatch, .freeCtr, .out, .domQueue, .domSlabs, .domVar, .domTir, .domCol, .domMem, .domPoison], p ∈ L) :
    Frame L s₀ (State.workFails s d w code ns) := by
  unfold State.workFails
  repeat' (first
    | with_reducible assumption
    | exact sub_trans hL (by decide)
    | with_reducible apply fr_flushFails
    | with_reducible apply fr_transferFails
    | with_reducible apply fr_stripeReadFails
    | with_reducible apply fr_carterStall
    | split)

theorem fr_execNvmeCommandFail {L : List Part} {s₀ s : State} (h₀ : Frame L s₀ s) (d : Fin 64) (work : NvmeWork) (stallNs : Nat)
    (hL : ∀ p ∈ [Part.pci, .pciPending, .tik, .bas, .fab, .traceHead, .mbds, .units, .views, .counters, .stretch, .commonsPoison, .atLatch, .freeCtr, .out, .domQueue, .domSlabs, .domVar, .domTir, .domCol, .domMem, .domPoison], p ∈ L) :
    FrameOut L s₀ (execNvmeCommandFail d work stallNs s) := by
  unfold execNvmeCommandFail
  repeat' (first
    | with_reducible assumption
    | exact sub_trans hL (by decide)
    | with_reducible apply fr_bump
    | with_reducible apply fr_raiseDev
    | with_reducible apply fr_workFails
    | split
    | with_reducible apply fro_next)

theorem fr_timeoutStall {L : List Part} {s₀ s : State} (h₀ : Frame L s₀ s) (d : Nat) (w : NvmeWork) (ns : Nat)
    (hL : ∀ p ∈ [Part.counters, .stretch, .domSlabs, .domTir], p ∈ L) :
    Frame L s₀ (State.timeoutStall s d w ns) := by
  unfold State.timeoutStall
  repeat' (first
    | with_reducible assumption
    | exact sub_trans hL (by decide)
    | with_reducible apply fr_carterStall
    | with_reducible apply fr_flashStall
    | split)

theorem fr_execNvmeTimeout {L : List Part} {s₀ s : State} (h₀ : Frame L s₀ s) (d : Fin 64) (work : NvmeWork) (stallNs : Nat)
    (hL : ∀ p ∈ [Part.pci, .pciPending, .tik, .bas, .fab, .traceHead, .mbds, .units, .views, .counters, .stretch, .commonsPoison, .atLatch, .freeCtr, .out, .domQueue, .domSlabs, .domVar, .domTir, .domCol, .domMem, .domPoison], p ∈ L) :
    FrameOut L s₀ (execNvmeTimeout d work stallNs s) := by
  unfold execNvmeTimeout
  repeat' (first
    | with_reducible assumption
    | exact sub_trans hL (by decide)
    | (extract_lets +onlyGivenNames x; first
        | (refine (fun (hx : Frame L s₀ x) => ?_) ?_; (on_goal 1 => clear_value x); (on_goal 2 => subst x))
        | subst x)
    | with_reducible apply fr_bump
    | with_reducible apply fr_timeoutStall
    | with_reducible apply fr_raiseDom
    | with_reducible apply fr_nvme
    | with_reducible apply fr_workFails
    | split
    | with_reducible apply fro_next)

theorem fr_failLink {L : List Part} {s₀ s : State} (h₀ : Frame L s₀ s) (d : Nat) (link : Nat)
    (hL : ∀ p ∈ [Part.pciPending, .traceHead, .views, .counters, .stretch, .atLatch, .freeCtr, .out, .domSlabs, .domVar, .domTir], p ∈ L) :
    Frame L s₀ (State.failLink s d link) := by
  unfold State.failLink
  repeat' (first
    | with_reducible assumption
    | exact sub_trans hL (by decide)
    | (extract_lets +onlyGivenNames x; first
        | (refine (fun (hx : Frame L s₀ x) => ?_) ?_; (on_goal 1 => clear_value x); (on_goal 2 => subst x))
        | subst x)
    | with_reducible apply fr_bump
    | with_reducible apply fr_transferFails
    | with_reducible apply fr_flushFails
    | with_reducible apply fr_foldl
    | with_reducible apply fr_foldl_fst
    | with_reducible apply fr_foldl_snd
    | (refine fr_foldl_fst_eq ?_ ?_ (by assumption))
    | (refine fr_foldl_snd_eq ?_ ?_ (by assumption))
    | split
    | dsimp only
    | intro)

theorem fr_execNvmeLinkDown {L : List Part} {s₀ s : State} (h₀ : Frame L s₀ s) (link : Fin 2)
    (hL : ∀ p ∈ [Part.pci, .pciPending, .tik, .nvm, .bas, .fab, .traceHead, .mbds, .units, .views, .counters, .stretch, .commonsPoison, .atLatch, .freeCtr, .out, .domQueue, .domSlabs, .domVar, .domTir, .domCol, .domMem, .domPoison], p ∈ L) :
    FrameOut L s₀ (execNvmeLinkDown link s) := by
  unfold execNvmeLinkDown
  repeat' (first
    | with_reducible assumption
    | exact sub_trans hL (by decide)
    | (extract_lets +onlyGivenNames x; first
        | (refine (fun (hx : Frame L s₀ x) => ?_) ?_; (on_goal 1 => clear_value x); (on_goal 2 => subst x))
        | subst x)
    | with_reducible apply fr_raiseDev
    | with_reducible apply fr_eachDom
    | with_reducible apply fr_failLink
    | with_reducible apply fr_bump
    | with_reducible apply fr_stripeReadFails
    | with_reducible apply fr_foldl
    | with_reducible apply fr_foldl_fst
    | with_reducible apply fr_foldl_snd
    | (refine fr_foldl_fst_eq ?_ ?_ (by assumption))
    | (refine fr_foldl_snd_eq ?_ ?_ (by assumption))
    | split
    | with_reducible apply fr_mk
    | with_reducible exact Or.inr rfl
    | with_reducible exact Or.inr (same_mem _)
    | with_reducible exact Or.inr (same_poison _)
    | with_reducible exact Or.inr (same_head _)
    | with_reducible exact same_ring _
    | exact Or.inr (fun _ => rfl)
    | with_reducible exact Or.inl (hL .pci (by decide))
    | with_reducible exact Or.inl (hL .pciPending (by decide))
    | with_reducible exact Or.inl (hL .tik (by decide))
    | with_reducible exact Or.inl (hL .nvm (by decide))
    | with_reducible exact Or.inl (hL .bas (by decide))
    | with_reducible exact Or.inl (hL .fab (by decide))
    | with_reducible exact Or.inl (hL .traceHead (by decide))
    | with_reducible exact Or.inl (hL .mbds (by decide))
    | with_reducible exact Or.inl (hL .units (by decide))
    | with_reducible exact Or.inl (hL .views (by decide))
    | with_reducible exact Or.inl (hL .counters (by decide))
    | with_reducible exact Or.inl (hL .stretch (by decide))
    | with_reducible exact Or.inl (hL .commonsPoison (by decide))
    | with_reducible exact Or.inl (hL .atLatch (by decide))
    | with_reducible exact Or.inl (hL .freeCtr (by decide))
    | with_reducible exact Or.inl (hL .out (by decide))
    | with_reducible exact Or.inl (hL .domQueue (by decide))
    | with_reducible exact Or.inl (hL .domSlabs (by decide))
    | with_reducible exact Or.inl (hL .domVar (by decide))
    | with_reducible exact Or.inl (hL .domTir (by decide))
    | with_reducible exact Or.inl (hL .domCol (by decide))
    | with_reducible exact Or.inl (hL .domMem (by decide))
    | with_reducible exact Or.inl (hL .domPoison (by decide))
    | with_reducible apply fro_next
    | dsimp only
    | intro)

end Sys2Proof.Laws
end

