-- ==== Sys2Proof/Laws/FrameTick.lean ====
section
/-! SUPPORT. What the operations of Machine/Tick.lean may change (Safety.Frame): each lemma lists the parts. -/

namespace Sys2Proof.Laws

open Sys2Proof.Machine Sys2Proof.Safety

theorem fr_runKind {L : List Part} {s₀ s : State} (h₀ : Frame L s₀ s) (d : Nat) (b : Slab) (sram : Bool)
    (hL : ∀ p ∈ [Part.pci, .pciPending, .bas, .fab, .lks, .traceHead, .slots, .mbds, .units, .views, .counters, .commons, .commonsPoison, .acc, .opbuf, .freeCtr, .out, .domQueue, .domSlabs, .domVec, .domUpd, .domKvp, .domTir, .domCol, .domMem, .domPoison], p ∈ L) :
    Frame L s₀ (State.runKind s d b sram).st := by
  unfold State.runKind
  repeat' (first
    | with_reducible assumption
    | exact sub_trans hL (by decide)
    | (extract_lets +onlyGivenNames x; first
        | (refine (fun (hx : Frame L s₀ x.1) => ?_) ?_; (on_goal 1 => clear_value x); (on_goal 2 => subst x))
        | ((have y : Hdr := x); clear y; clear_value x)
        | subst x)
    | with_reducible apply fr_runBase
    | with_reducible apply fr_runVariant
    | with_reducible apply fr_runAttention
    | with_reducible apply fr_runChain
    | with_reducible apply fr_runRoot
    | with_reducible apply fr_runPass
    | with_reducible apply fr_startColl
    | (refine fr_startColl_eq ?_ (by assumption) ?_)
    | with_reducible apply fr_runMigration
    | with_reducible apply fr_runScrub
    | with_reducible refine foldl_keeps (fun q : RunResult => Frame L s₀ q.st) _ ?_ _ ?_
    | split)

theorem fr_runSlab {L : List Part} {s₀ s : State} (h₀ : Frame L s₀ s) (d : Nat) (b : Slab) (sram : Bool)
    (hL : ∀ p ∈ [Part.pci, .pciPending, .bas, .fab, .lks, .traceHead, .slots, .mbds, .units, .views, .counters, .commons, .commonsPoison, .acc, .opbuf, .freeCtr, .out, .domQueue, .domSlabs, .domVec, .domUpd, .domKvp, .domTir, .domCol, .domMem, .domPoison], p ∈ L) :
    Frame L s₀ (State.runSlab s d b sram).st := by
  unfold State.runSlab
  repeat' (first
    | with_reducible assumption
    | exact sub_trans hL (by decide)
    | (extract_lets +onlyGivenNames x; first
        | (refine (fun (hx : Frame L s₀ x) => ?_) ?_; (on_goal 1 => clear_value x); (on_goal 2 => subst x))
        | (refine (fun (hx : Frame L s₀ x.st) => ?_) ?_; (on_goal 1 => clear_value x); (on_goal 2 => subst x))
        | subst x)
    | with_reducible apply fr_updDom
    | with_reducible apply fr_runKind
    | with_reducible refine foldl_keeps (fun q : RunResult => Frame L s₀ q.st) _ ?_ _ ?_
    | split
    | with_reducible apply dfr_updTir
    | with_reducible apply dfr_mk
    | with_reducible exact dfr_refl _ _
    | with_reducible exact Or.inr rfl
    | with_reducible exact Or.inr (same_mem _)
    | with_reducible exact Or.inr (same_domLife _)
    | with_reducible exact Or.inr (same_domRecord _)
    | with_reducible exact Or.inr (same_domPreempt _)
    | with_reducible exact Or.inr (same_domSlabs _)
    | with_reducible exact Or.inr (same_domSched _)
    | exact Or.inr (fun _ => rfl)
    | with_reducible exact Or.inl (hL .pci (by decide))
    | with_reducible exact Or.inl (hL .pciPending (by decide))
    | with_reducible exact Or.inl (hL .bas (by decide))
    | with_reducible exact Or.inl (hL .fab (by decide))
    | with_reducible exact Or.inl (hL .lks (by decide))
    | with_reducible exact Or.inl (hL .traceHead (by decide))
    | with_reducible exact Or.inl (hL .slots (by decide))
    | with_reducible exact Or.inl (hL .mbds (by decide))
    | with_reducible exact Or.inl (hL .units (by decide))
    | with_reducible exact Or.inl (hL .views (by decide))
    | with_reducible exact Or.inl (hL .counters (by decide))
    | with_reducible exact Or.inl (hL .commons (by decide))
    | with_reducible exact Or.inl (hL .commonsPoison (by decide))
    | with_reducible exact Or.inl (hL .acc (by decide))
    | with_reducible exact Or.inl (hL .opbuf (by decide))
    | with_reducible exact Or.inl (hL .freeCtr (by decide))
    | with_reducible exact Or.inl (hL .out (by decide))
    | with_reducible exact Or.inl (hL .domQueue (by decide))
    | with_reducible exact Or.inl (hL .domSlabs (by decide))
    | with_reducible exact Or.inl (hL .domVec (by decide))
    | with_reducible exact Or.inl (hL .domUpd (by decide))
    | with_reducible exact Or.inl (hL .domKvp (by decide))
    | with_reducible exact Or.inl (hL .domTir (by decide))
    | with_reducible exact Or.inl (hL .domCol (by decide))
    | with_reducible exact Or.inl (hL .domMem (by decide))
    | with_reducible exact Or.inl (hL .domPoison (by decide))
    | dsimp only
    | intro)

theorem fr_chargeSlab {L : List Part} {s₀ s : State} (h₀ : Frame L s₀ s) (d : Nat) (b : Slab)
    (hL : ∀ p ∈ [Part.pwr, .counters, .domSched], p ∈ L) :
    Frame L s₀ (State.chargeSlab s d b) := by
  unfold State.chargeSlab
  repeat' (first
    | with_reducible assumption
    | exact sub_trans hL (by decide)
    | (extract_lets +onlyGivenNames x; first
        | (refine (fun (hx : Frame L s₀ x) => ?_) ?_; (on_goal 1 => clear_value x); (on_goal 2 => subst x))
        | ((have y : Nat := x); clear y; clear_value x)
        | ((have y : Hdr := x); clear y; clear_value x)
        | subst x)
    | with_reducible apply fr_updPwr
    | with_reducible apply fr_updDom
    | with_reducible apply fr_bump
    | split
    | with_reducible apply dfr_mk
    | with_reducible exact Or.inr rfl
    | with_reducible exact Or.inr (same_mem _)
    | with_reducible exact Or.inr (same_domLife _)
    | with_reducible exact Or.inr (same_domRecord _)
    | with_reducible exact Or.inr (same_domPreempt _)
    | with_reducible exact Or.inr (same_domSlabs _)
    | with_reducible exact Or.inl (hL .domSched (by decide))
    | intro)

theorem fr_countStart {L : List Part} {s₀ s : State} (h₀ : Frame L s₀ s) (ws : List W64)
    (hL : ∀ p ∈ [Part.counters], p ∈ L) :
    Frame L s₀ (State.countStart s ws) := by
  unfold State.countStart
  repeat' (first
    | with_reducible assumption
    | exact sub_trans hL (by decide)
    | with_reducible apply fr_bump
    | with_reducible apply fr_foldl
    | intro)

theorem fr_endStep {L : List Part} {s₀ s : State} (h₀ : Frame L s₀ s) (d : Nat) (ws : List W64)
    (hL : ∀ p ∈ [Part.pciPending, .traceHead, .views, .counters, .out, .domSlabs, .domVec, .domUpd], p ∈ L) :
    Frame L s₀ (State.endStep s d ws) := by
  unfold State.endStep
  repeat' (first
    | with_reducible assumption
    | exact sub_trans hL (by decide)
    | (extract_lets +onlyGivenNames x; first
        | ((have y : Hdr := x); clear y; clear_value x))
    | with_reducible apply fr_closeStep
    | split)

theorem fr_endIdle {L : List Part} {s₀ s : State} (h₀ : Frame L s₀ s) (d : Nat) (b : Slab) (st : Status)
    (hL : ∀ p ∈ [Part.pci, .pciPending, .traceHead, .views, .counters, .out, .domQueue, .domSlabs, .domVec, .domUpd], p ∈ L) :
    Frame L s₀ (State.endIdle s d b st) := by
  unfold State.endIdle
  repeat' (first
    | with_reducible assumption
    | exact sub_trans hL (by decide)
    | (extract_lets +onlyGivenNames x; first
        | (refine (fun (hx : Frame L s₀ x) => ?_) ?_; (on_goal 1 => clear_value x); (on_goal 2 => subst x))
        | subst x)
    | with_reducible apply fr_endStep
    | with_reducible apply fr_noteUnloaded
    | with_reducible apply fr_endSlab
    | split)

theorem fr_unopen {L : List Part} {s₀ s : State} (h₀ : Frame L s₀ s) (d : Nat) (ws : List W64)
    (hL : ∀ p ∈ [Part.domSlabs], p ∈ L) :
    Frame L s₀ (State.unopen s d ws) := by
  unfold State.unopen
  repeat' (first
    | with_reducible assumption
    | exact sub_trans hL (by decide)
    | (extract_lets +onlyGivenNames x; ((have y : Nat := x); clear y; clear_value x))
    | with_reducible apply fr_updDom
    | with_reducible apply dfr_mk
    | with_reducible exact Or.inr rfl
    | with_reducible exact Or.inr (same_mem _)
    | with_reducible exact Or.inr (same_domLife _)
    | with_reducible exact Or.inr (same_domRecord _)
    | with_reducible exact Or.inr (same_domPreempt _)
    | with_reducible exact Or.inr (same_domSched _)
    | with_reducible exact Or.inl (hL .domSlabs (by decide))
    | intro)

theorem fr_endEffect {L : List Part} {s₀ s : State} (h₀ : Frame L s₀ s) (d : Nat) (a1 : EndEffect)
    (hL : ∀ p ∈ [Part.pciPending, .traceHead, .slots, .views, .counters, .commons, .commonsPoison, .acc, .opbuf, .out, .domSlabs, .domVec, .domUpd], p ∈ L) :
    Frame L s₀ (State.endEffect s d a1) := by
  unfold State.endEffect
  repeat' (first
    | with_reducible assumption
    | exact sub_trans hL (by decide)
    | with_reducible apply fr_updDom
    | with_reducible apply fr_addNorm
    | with_reducible apply fr_updSlot
    | with_reducible apply fr_closeStep
    | with_reducible apply fr_verifyEnd
    | with_reducible apply fr_rootEnd
    | with_reducible apply fr_clearArrays
    | split
    | with_reducible apply dfr_updVec
    | with_reducible apply dfr_mk
    | with_reducible exact dfr_refl _ _
    | with_reducible exact Or.inr rfl
    | with_reducible exact Or.inr (same_mem _)
    | with_reducible exact Or.inr (same_domLife _)
    | with_reducible exact Or.inr (same_domRecord _)
    | with_reducible exact Or.inr (same_domPreempt _)
    | with_reducible exact Or.inr (same_domSlabs _)
    | with_reducible exact Or.inr (same_domSched _)
    | exact Or.inr (fun _ => rfl)
    | with_reducible exact Or.inl (hL .pciPending (by decide))
    | with_reducible exact Or.inl (hL .traceHead (by decide))
    | with_reducible exact Or.inl (hL .slots (by decide))
    | with_reducible exact Or.inl (hL .views (by decide))
    | with_reducible exact Or.inl (hL .counters (by decide))
    | with_reducible exact Or.inl (hL .commons (by decide))
    | with_reducible exact Or.inl (hL .commonsPoison (by decide))
    | with_reducible exact Or.inl (hL .acc (by decide))
    | with_reducible exact Or.inl (hL .opbuf (by decide))
    | with_reducible exact Or.inl (hL .out (by decide))
    | with_reducible exact Or.inl (hL .domSlabs (by decide))
    | with_reducible exact Or.inl (hL .domVec (by decide))
    | with_reducible exact Or.inl (hL .domUpd (by decide))
    | dsimp only
    | intro)

theorem fr_withholdTiles {L : List Part} {s₀ s : State} (h₀ : Frame L s₀ s) (ws : List W64)
    (hL : ∀ p ∈ [Part.acc], p ∈ L) :
    Frame L s₀ (State.withholdTiles s ws) := by
  unfold State.withholdTiles
  repeat' (first
    | with_reducible assumption
    | exact sub_trans hL (by decide)
    | (extract_lets +onlyGivenNames x; first
        | ((have y : Hdr := x); clear y; clear_value x)
        | subst x)
    | with_reducible apply fr_accPutAll
    | split)

theorem fr_deferFor {L : List Part} {s₀ s : State} (h₀ : Frame L s₀ s) (d : Nat) (w : Slab)
    (hL : ∀ p ∈ [Part.domSlabs], p ∈ L) :
    Frame L s₀ (State.deferFor s d w) := by
  unfold State.deferFor
  repeat' (first
    | with_reducible assumption
    | exact sub_trans hL (by decide)
    | (extract_lets +onlyGivenNames x; subst x)
    | with_reducible apply fr_updDom
    | with_reducible apply dfr_mk
    | with_reducible exact Or.inr rfl
    | with_reducible exact Or.inr (same_mem _)
    | with_reducible exact Or.inr (same_domLife _)
    | with_reducible exact Or.inr (same_domRecord _)
    | with_reducible exact Or.inr (same_domPreempt _)
    | with_reducible exact Or.inr (same_domSched _)
    | with_reducible exact Or.inl (hL .domSlabs (by decide))
    | intro)

theorem fr_poisonPeer {L : List Part} {s₀ s : State} (h₀ : Frame L s₀ s) (d : Nat) (from_ : Nat) (blocks : List (Nat × Nat)) (b : Slab)
    (hL : ∀ p ∈ [Part.acc, .domSlabs], p ∈ L) :
    Frame L s₀ (State.poisonPeer s d from_ blocks b) := by
  unfold State.poisonPeer
  repeat' (first
    | with_reducible assumption
    | exact sub_trans hL (by decide)
    | (extract_lets +onlyGivenNames x; first
        | ((have y : Hdr := x); clear y; clear_value x)
        | subst x)
    | with_reducible apply fr_withholdTiles
    | with_reducible apply fr_updSlab
    | with_reducible apply fr_deferFor
    | split)

theorem fr_poisonPeers {L : List Part} {s₀ s : State} (h₀ : Frame L s₀ s) (d : Nat) (b : Slab) (blocks : List (Nat × Nat))
    (hL : ∀ p ∈ [Part.acc, .domSlabs], p ∈ L) :
    Frame L s₀ (State.poisonPeers s d b blocks) := by
  unfold State.poisonPeers
  repeat' (first
    | with_reducible assumption
    | exact sub_trans hL (by decide)
    | with_reducible apply fr_poisonPeer
    | with_reducible apply fr_foldl
    | split
    | intro)

theorem fr_withhold {L : List Part} {s₀ s : State} (h₀ : Frame L s₀ s) (d : Nat) (b : Slab)
    (hL : ∀ p ∈ [Part.pciPending, .traceHead, .views, .counters, .out, .domSlabs], p ∈ L) :
    Frame L s₀ (State.withhold s d b) := by
  unfold State.withhold
  repeat' (first
    | with_reducible assumption
    | exact sub_trans hL (by decide)
    | (extract_lets +onlyGivenNames x; (refine (fun (hx : Frame L s₀ x) => ?_) ?_; (on_goal 1 => clear_value x); (on_goal 2 => subst x)))
    | with_reducible apply fr_updSlab
    | with_reducible apply fr_raiseDom
    | with_reducible apply fr_bump
    | with_reducible apply fr_deferFor
    | with_reducible apply fr_setEvent
    | split)

theorem fr_putWithheld {L : List Part} {s₀ s : State} (h₀ : Frame L s₀ s) (d : Nat) (w : Withheld)
    (hL : ∀ p ∈ [Part.slots, .commons, .commonsPoison, .acc, .domMem, .domPoison], p ∈ L) :
    Frame L s₀ (State.putWithheld s d w) := by
  unfold State.putWithheld
  repeat' (first
    | with_reducible assumption
    | exact sub_trans hL (by decide)
    | (extract_lets +onlyGivenNames x; first
        | (refine (fun (hx : Frame L s₀ x) => ?_) ?_; (on_goal 1 => clear_value x); (on_goal 2 => subst x))
        | subst x)
    | with_reducible apply fr_updDom
    | with_reducible apply fr_updSlot
    | with_reducible apply fr_accPutAll
    | with_reducible apply fr_foldl
    | with_reducible apply fr_foldl_fst
    | with_reducible apply fr_foldl_snd
    | (refine fr_foldl_fst_eq ?_ ?_ (by assumption))
    | (refine fr_foldl_snd_eq ?_ ?_ (by assumption))
    | split
    | with_reducible apply dfr_mk
    | with_reducible exact dfr_refl _ _
    | with_reducible apply fr_mk
    | with_reducible exact Or.inr rfl
    | with_reducible exact Or.inr (same_mem _)
    | with_reducible exact Or.inr (same_domLife _)
    | with_reducible exact Or.inr (same_domRecord _)
    | with_reducible exact Or.inr (same_domPreempt _)
    | with_reducible exact Or.inr (same_domSlabs _)
    | with_reducible exact Or.inr (same_domSched _)
    | with_reducible exact Or.inr (same_poison _)
    | with_reducible exact Or.inr (same_head _)
    | with_reducible exact same_ring _
    | exact Or.inr (fun _ => rfl)
    | with_reducible exact Or.inl (hL .slots (by decide))
    | with_reducible exact Or.inl (hL .commons (by decide))
    | with_reducible exact Or.inl (hL .commonsPoison (by decide))
    | with_reducible exact Or.inl (hL .acc (by decide))
    | with_reducible exact Or.inl (hL .domMem (by decide))
    | with_reducible exact Or.inl (hL .domPoison (by decide))
    | dsimp only
    | intro)

theorem fr_computeSlab {L : List Part} {s₀ s : State} (h₀ : Frame L s₀ s) (d : Nat) (b : Slab)
    (hL : ∀ p ∈ [Part.pci, .pciPending, .bas, .fab, .lks, .traceHead, .slots, .mbds, .units, .views, .counters, .commons, .commonsPoison, .acc, .opbuf, .freeCtr, .out, .domQueue, .domSlabs, .domVec, .domUpd, .domKvp, .domTir, .domCol, .domMem, .domPoison], p ∈ L) :
    Frame L s₀ (State.computeSlab s d b) := by
  unfold State.computeSlab
  repeat' (first
    | with_reducible assumption
    | exact sub_trans hL (by decide)
    | (extract_lets +onlyGivenNames x; first
        | (refine (fun (hx : Frame L s₀ x) => ?_) ?_; (on_goal 1 => clear_value x); (on_goal 2 => subst x))
        | (refine (fun (hx : Frame L s₀ x.st) => ?_) ?_; (on_goal 1 => clear_value x); (on_goal 2 => subst x))
        | subst x)
    | with_reducible apply fr_runSlab
    | with_reducible apply fr_unopen
    | with_reducible apply fr_endIdle
    | with_reducible apply fr_updSlab
    | with_reducible apply fr_deferFor
    | with_reducible refine foldl_keeps (fun q : RunResult => Frame L s₀ q.st) _ ?_ _ ?_
    | split)

theorem fr_collDue {L : List Part} {s₀ s : State} (h₀ : Frame L s₀ s) (d : Nat) (b : Slab)
    (hL : ∀ p ∈ [Part.domCol], p ∈ L) :
    Frame L s₀ (State.collDue s d b) := by
  unfold State.collDue
  repeat' (first
    | with_reducible assumption
    | exact sub_trans hL (by decide)
    | with_reducible apply fr_updOp
    | split)

theorem fr_startSlab {L : List Part} {s₀ s : State} (h₀ : Frame L s₀ s) (d : Nat) (b : Slab) (off : Rat) (nowNs : Nat)
    (errors : List ReadError)
    (hL : ∀ p ∈ [Part.pci, .pciPending, .pwr, .bas, .fab, .lks, .traceHead, .slots, .mbds, .units, .views, .counters, .stretch, .commons, .commonsPoison, .acc, .opbuf, .freeCtr, .out, .domQueue, .domSlabs, .domSched, .domVec, .domUpd, .domKvp, .domTir, .domCol, .domMem, .domPoison], p ∈ L) :
    Frame L s₀ (State.startSlab s d b off nowNs errors) := by
  unfold State.startSlab
  repeat' (first
    | with_reducible assumption
    | exact sub_trans hL (by decide)
    | (extract_lets +onlyGivenNames x; first
        | (refine (fun (hx : Frame L s₀ x) => ?_) ?_; (on_goal 1 => clear_value x); (on_goal 2 => subst x))
        | ((have y : Nat := x); clear y; clear_value x)
        | ((have y : Hdr := x); clear y; clear_value x)
        | ((have y : Slab := x); clear y; clear_value x))
    | with_reducible apply fr_creditSlab
    | with_reducible apply fr_addStretch
    | with_reducible apply fr_accPutAll
    | (refine fr_meetErrors_eq ?_ (by assumption) ?_)
    | with_reducible apply fr_updSlab
    | with_reducible apply fr_computeSlab
    | with_reducible apply fr_updDom
    | with_reducible apply fr_countStart
    | with_reducible apply fr_chargeSlab
    | with_reducible apply fr_collDue
    | with_reducible apply fr_poisonPeers
    | split
    | with_reducible apply dfr_mk
    | with_reducible exact Or.inr rfl
    | with_reducible exact Or.inr (same_mem _)
    | with_reducible exact Or.inr (same_domLife _)
    | with_reducible exact Or.inr (same_domRecord _)
    | with_reducible exact Or.inr (same_domPreempt _)
    | with_reducible exact Or.inr (same_domSched _)
    | with_reducible exact Or.inl (hL .domSlabs (by decide))
    | intro)

theorem fr_resumeSlab {L : List Part} {s₀ s : State} (h₀ : Frame L s₀ s) (d : Nat) (b : Slab) (off : Rat) (nowNs : Nat)
    (hL : ∀ p ∈ [Part.pwr, .counters, .domSlabs, .domSched, .domCol], p ∈ L) :
    Frame L s₀ (State.resumeSlab s d b off nowNs) := by
  unfold State.resumeSlab
  repeat' (first
    | with_reducible assumption
    | exact sub_trans hL (by decide)
    | (extract_lets +onlyGivenNames x; (refine (fun (hx : Frame L s₀ x) => ?_) ?_; (on_goal 1 => clear_value x); (on_goal 2 => subst x)))
    | with_reducible apply fr_updSlab
    | with_reducible apply fr_countBusy
    | with_reducible apply fr_collDue
    | with_reducible apply fr_countStart
    | with_reducible apply fr_chargeSlab)

theorem fr_updDev {L : List Part} {s₀ s : State} (h₀ : Frame L s₀ s) (d : Nat) (k : DevSlab) (f : DevSlabRec → DevSlabRec)
    (hL : ∀ p ∈ [Part.domSlabs], p ∈ L) :
    Frame L s₀ (State.updDev s d k f) := by
  unfold State.updDev
  repeat' (first
    | with_reducible assumption
    | exact sub_trans hL (by decide)
    | with_reducible apply fr_updDom
    | with_reducible apply dfr_mk
    | with_reducible exact Or.inr rfl
    | with_reducible exact Or.inr (same_mem _)
    | with_reducible exact Or.inr (same_domLife _)
    | with_reducible exact Or.inr (same_domRecord _)
    | with_reducible exact Or.inr (same_domPreempt _)
    | with_reducible exact Or.inr (same_domSched _)
    | with_reducible exact Or.inl (hL .domSlabs (by decide))
    | intro)

theorem fr_tierItem {L : List Part} {s₀ s : State} (h₀ : Frame L s₀ s) (d : Nat) (a1 : TierItem)
    (hL : ∀ p ∈ [Part.counters, .atLatch, .freeCtr, .out, .domTir], p ∈ L) :
    Frame L s₀ (State.tierItem s d a1).1 := by
  unfold State.tierItem
  repeat' (first
    | with_reducible assumption
    | exact sub_trans hL (by decide)
    | (extract_lets +onlyGivenNames x; first
        | (refine (fun (hx : Frame L s₀ x) => ?_) ?_; (on_goal 1 => clear_value x); (on_goal 2 => subst x))
        | (refine (fun (hx : Frame L s₀ x.1) => ?_) ?_; (on_goal 1 => clear_value x); (on_goal 2 => subst x))
        | (refine (fun (hx : Frame L s₀ x.2) => ?_) ?_; (on_goal 1 => clear_value x); (on_goal 2 => subst x))
        | ((have y : Nat := x); clear y; clear_value x)
        | ((have y : Bool := x); clear y; clear_value x)
        | ((have y : Hdr := x); clear y; clear_value x)
        | ((have y : Slab := x); clear y; clear_value x)
        | ((have y : List Nat := x); clear y; clear_value x)
        | ((have y : Rat := x); clear y; clear_value x)
        | subst x)
    | with_reducible apply fr_startUp
    | (refine fr_startUp_eq ?_ (by assumption) ?_)
    | with_reducible apply fr_startDown
    | with_reducible apply fr_unflushed
    | split)
theorem fr_tierItem_eq {L : List Part} {s₀ s : State} (h₀ : Frame L s₀ s) {d : Nat} {a1 : TierItem} {r₁ : _} {r₂ : _} {r₃ : _} {u₀ : State}
    (e₀ : State.tierItem s d a1 = (u₀, r₁, r₂, r₃))
    (hL : ∀ p ∈ [Part.counters, .atLatch, .freeCtr, .out, .domTir], p ∈ L) : Frame L s₀ u₀ := by
  have x := fr_tierItem h₀ d a1 hL
  rw [e₀] at x
  exact x

theorem fr_owes {L : List Part} {s₀ s : State} (h₀ : Frame L s₀ s) (d : Nat) (p : Nat) (k : DevSlab) (dueNs : Nat)
    (hL : ∀ p ∈ [Part.domTir], p ∈ L) :
    Frame L s₀ (State.owes s d p k dueNs) := by
  unfold State.owes
  repeat' (first
    | with_reducible assumption
    | exact sub_trans hL (by decide)
    | with_reducible apply fr_updDom
    | split
    | with_reducible apply dfr_mk
    | with_reducible exact dfr_refl _ _
    | with_reducible apply fr_mk
    | with_reducible exact Or.inr rfl
    | with_reducible exact Or.inr (same_mem _)
    | with_reducible exact Or.inr (same_domLife _)
    | with_reducible exact Or.inr (same_domRecord _)
    | with_reducible exact Or.inr (same_domPreempt _)
    | with_reducible exact Or.inr (same_domSlabs _)
    | with_reducible exact Or.inr (same_domSched _)
    | with_reducible exact Or.inr (same_poison _)
    | with_reducible exact Or.inr (same_head _)
    | with_reducible exact same_ring _
    | exact Or.inr (fun _ => rfl)
    | with_reducible exact Or.inl (hL .domTir (by decide))
    | dsimp only
    | intro)

theorem fr_runTier {L : List Part} {s₀ s : State} (h₀ : Frame L s₀ s) (d : Nat) (amount : Nat) (dueNs : Nat)
    (hL : ∀ p ∈ [Part.counters, .atLatch, .freeCtr, .out, .domTir], p ∈ L) :
    Frame L s₀ (State.runTier s d amount dueNs) := by
  unfold State.runTier
  repeat' (first
    | with_reducible assumption
    | exact sub_trans hL (by decide)
    | (extract_lets +onlyGivenNames x; first
        | (refine (fun (hx : Frame L s₀ x.1) => ?_) ?_; (on_goal 1 => clear_value x); (on_goal 2 => subst x))
        | subst x)
    | with_reducible apply fr_tierItem
    | (refine fr_tierItem_eq ?_ (by assumption) ?_)
    | with_reducible apply fr_owes
    | with_reducible apply fr_updDom
    | with_reducible apply fr_foldl
    | with_reducible apply fr_foldl_fst
    | with_reducible apply fr_foldl_snd
    | (refine fr_foldl_fst_eq ?_ ?_ (by assumption))
    | (refine fr_foldl_snd_eq ?_ ?_ (by assumption))
    | split
    | with_reducible apply dfr_updTir
    | with_reducible apply dfr_mk
    | with_reducible exact dfr_refl _ _
    | with_reducible exact Or.inr rfl
    | with_reducible exact Or.inr (same_mem _)
    | with_reducible exact Or.inr (same_domLife _)
    | with_reducible exact Or.inr (same_domRecord _)
    | with_reducible exact Or.inr (same_domPreempt _)
    | with_reducible exact Or.inr (same_domSlabs _)
    | with_reducible exact Or.inr (same_domSched _)
    | exact Or.inr (fun _ => rfl)
    | with_reducible exact Or.inl (hL .counters (by decide))
    | with_reducible exact Or.inl (hL .atLatch (by decide))
    | with_reducible exact Or.inl (hL .freeCtr (by decide))
    | with_reducible exact Or.inl (hL .out (by decide))
    | with_reducible exact Or.inl (hL .domTir (by decide))
    | dsimp only
    | intro)

theorem fr_saveEnds {L : List Part} {s₀ s : State} (h₀ : Frame L s₀ s) (d : Nat)
    (hL : ∀ p ∈ [Part.pciPending, .traceHead, .views, .counters, .acc, .opbuf, .out, .domPreempt, .domSlabs], p ∈ L) :
    Frame L s₀ (State.saveEnds s d) := by
  unfold State.saveEnds
  repeat' (first
    | with_reducible assumption
    | exact sub_trans hL (by decide)
    | (extract_lets +onlyGivenNames x; first
        | ((have y : List Nat := x); clear y; clear_value x)
        | subst x)
    | with_reducible apply fr_updDom
    | with_reducible apply fr_clearArrays
    | with_reducible apply fr_raiseDom
    | with_reducible apply fr_foldl
    | with_reducible apply fr_foldl_fst
    | with_reducible apply fr_foldl_snd
    | (refine fr_foldl_fst_eq ?_ ?_ (by assumption))
    | (refine fr_foldl_snd_eq ?_ ?_ (by assumption))
    | split
    | with_reducible apply dfr_mk
    | with_reducible exact dfr_refl _ _
    | with_reducible exact Or.inr rfl
    | with_reducible exact Or.inr (same_mem _)
    | with_reducible exact Or.inr (same_domLife _)
    | with_reducible exact Or.inr (same_domRecord _)
    | with_reducible exact Or.inr (same_domPreempt _)
    | with_reducible exact Or.inr (same_domSlabs _)
    | with_reducible exact Or.inr (same_domSched _)
    | exact Or.inr (fun _ => rfl)
    | with_reducible exact Or.inl (hL .pciPending (by decide))
    | with_reducible exact Or.inl (hL .traceHead (by decide))
    | with_reducible exact Or.inl (hL .views (by decide))
    | with_reducible exact Or.inl (hL .counters (by decide))
    | with_reducible exact Or.inl (hL .acc (by decide))
    | with_reducible exact Or.inl (hL .opbuf (by decide))
    | with_reducible exact Or.inl (hL .out (by decide))
    | with_reducible exact Or.inl (hL .domPreempt (by decide))
    | with_reducible exact Or.inl (hL .domSlabs (by decide))
    | dsimp only
    | intro)

theorem fr_restoreEnds {L : List Part} {s₀ s : State} (h₀ : Frame L s₀ s) (d : Nat)
    (hL : ∀ p ∈ [Part.pciPending, .traceHead, .slots, .views, .counters, .commons, .acc, .opbuf, .out, .domPreempt, .domSlabs, .domVar], p ∈ L) :
    Frame L s₀ (State.restoreEnds s d) := by
  unfold State.restoreEnds
  repeat' (first
    | with_reducible assumption
    | exact sub_trans hL (by decide)
    | (extract_lets +onlyGivenNames x; first
        | subst x)
    | with_reducible apply fr_updDom
    | with_reducible apply fr_restageLost
    | with_reducible apply fr_raiseDom
    | with_reducible apply fr_foldl
    | with_reducible apply fr_foldl_fst
    | with_reducible apply fr_foldl_snd
    | (refine fr_foldl_fst_eq ?_ ?_ (by assumption))
    | (refine fr_foldl_snd_eq ?_ ?_ (by assumption))
    | split
    | with_reducible apply dfr_mk
    | with_reducible exact dfr_refl _ _
    | with_reducible apply fr_mk
    | with_reducible exact Or.inr rfl
    | with_reducible exact Or.inr (same_mem _)
    | with_reducible exact Or.inr (same_domLife _)
    | with_reducible exact Or.inr (same_domRecord _)
    | with_reducible exact Or.inr (same_domPreempt _)
    | with_reducible exact Or.inr (same_domSlabs _)
    | with_reducible exact Or.inr (same_domSched _)
    | with_reducible exact Or.inr (same_poison _)
    | with_reducible exact Or.inr (same_head _)
    | with_reducible exact same_ring _
    | exact Or.inr (fun _ => rfl)
    | with_reducible exact Or.inl (hL .pciPending (by decide))
    | with_reducible exact Or.inl (hL .traceHead (by decide))
    | with_reducible exact Or.inl (hL .slots (by decide))
    | with_reducible exact Or.inl (hL .views (by decide))
    | with_reducible exact Or.inl (hL .counters (by decide))
    | with_reducible exact Or.inl (hL .commons (by decide))
    | with_reducible exact Or.inl (hL .acc (by decide))
    | with_reducible exact Or.inl (hL .opbuf (by decide))
    | with_reducible exact Or.inl (hL .out (by decide))
    | with_reducible exact Or.inl (hL .domPreempt (by decide))
    | with_reducible exact Or.inl (hL .domSlabs (by decide))
    | with_reducible exact Or.inl (hL .domVar (by decide))
    | dsimp only
    | intro)

theorem fr_runCooper {L : List Part} {s₀ s : State} (h₀ : Frame L s₀ s) (d : Nat) (amount : Nat) (dueNs : Nat)
    (hL : ∀ p ∈ [Part.counters, .out, .domTir], p ∈ L) :
    Frame L s₀ (State.runCooper s d amount dueNs) := by
  unfold State.runCooper
  repeat' (first
    | with_reducible assumption
    | exact sub_trans hL (by decide)
    | with_reducible apply fr_startTransfer
    | with_reducible apply fr_owes
    | with_reducible apply fr_foldl
    | with_reducible apply fr_foldl_fst
    | with_reducible apply fr_foldl_snd
    | (refine fr_foldl_fst_eq ?_ ?_ (by assumption))
    | (refine fr_foldl_snd_eq ?_ ?_ (by assumption))
    | split
    | with_reducible apply fr_mk
    | with_reducible exact Or.inr rfl
    | with_reducible exact Or.inr (same_mem _)
    | with_reducible exact Or.inr (same_poison _)
    | with_reducible exact Or.inr (same_head _)
    | with_reducible exact same_ring _
    | exact Or.inr (fun _ => rfl)
    | with_reducible exact Or.inl (hL .counters (by decide))
    | with_reducible exact Or.inl (hL .out (by decide))
    | with_reducible exact Or.inl (hL .domTir (by decide))
    | dsimp only
    | intro)

theorem fr_devBegins {L : List Part} {s₀ s : State} (h₀ : Frame L s₀ s) (d : Nat) (r : DevSlabRec)
    (hL : ∀ p ∈ [Part.pci, .pciPending, .bas, .fab, .traceHead, .mbds, .units, .views, .counters, .commonsPoison, .atLatch, .freeCtr, .out, .domQueue, .domSlabs, .domTir, .domCol, .domMem, .domPoison], p ∈ L) :
    Frame L s₀ (State.devBegins s d r) := by
  unfold State.devBegins
  repeat' (first
    | with_reducible assumption
    | exact sub_trans hL (by decide)
    | with_reducible apply fr_runTier
    | with_reducible apply fr_runCarter
    | with_reducible apply fr_runCooper
    | split)

theorem fr_devEnds {L : List Part} {s₀ s : State} (h₀ : Frame L s₀ s) (d : Nat) (r : DevSlabRec)
    (hL : ∀ p ∈ [Part.pciPending, .traceHead, .slots, .views, .counters, .commons, .acc, .opbuf, .out, .domPreempt, .domSlabs, .domVar, .domTir, .domKeys, .domMem, .domPoison], p ∈ L) :
    Frame L s₀ (State.devEnds s d r) := by
  unfold State.devEnds
  repeat' (first
    | with_reducible assumption
    | exact sub_trans hL (by decide)
    | with_reducible apply fr_cooperEnds
    | with_reducible apply fr_sweepEnds
    | with_reducible apply fr_saveEnds
    | with_reducible apply fr_restoreEnds
    | split)

theorem fr_startDev {L : List Part} {s₀ s : State} (h₀ : Frame L s₀ s) (d : Nat) (r : DevSlabRec) (off : Rat)
    (hL : ∀ p ∈ [Part.pci, .pciPending, .pwr, .bas, .fab, .traceHead, .mbds, .units, .views, .counters, .commonsPoison, .atLatch, .freeCtr, .out, .domQueue, .domSlabs, .domSched, .domTir, .domCol, .domMem, .domPoison], p ∈ L) :
    Frame L s₀ (State.startDev s d r off) := by
  unfold State.startDev
  repeat' (first
    | with_reducible assumption
    | exact sub_trans hL (by decide)
    | (extract_lets +onlyGivenNames x; first
        | (refine (fun (hx : Frame L s₀ x) => ?_) ?_; (on_goal 1 => clear_value x); (on_goal 2 => subst x))
        | subst x)
    | with_reducible apply fr_updDev
    | with_reducible apply fr_chargeDev
    | with_reducible apply fr_devBegins
    | split)

theorem fr_execSlabStart {L : List Part} {s₀ s0 : State} (h₀ : Frame L s₀ s0) (d : Fin 64) (slab : SlabRef)
    (nowNs : Nat) (errors : List ReadError)
    (hL : ∀ p ∈ [Part.fuses, .pci, .pciPending, .tik, .pwr, .bas, .fab, .lks, .traceHead, .slots, .mbds, .units, .views, .counters, .stretch, .commons, .commonsPoison, .acc, .opbuf, .atLatch, .freeCtr, .out, .domQueue, .domSlabs, .domSched, .domVec, .domUpd, .domKvp, .domTir, .domCol, .domMem, .domPoison], p ∈ L) :
    FrameOut L s₀ (execSlabStart d slab nowNs errors s0) := by
  unfold execSlabStart
  repeat' (first
    | with_reducible assumption
    | exact sub_trans hL (by decide)
    | (extract_lets +onlyGivenNames x; first
        | (refine (fun (hx : Frame L s₀ x) => ?_) ?_; (on_goal 1 => clear_value x); (on_goal 2 => subst x))
        | subst x)
    | with_reducible apply fr_atTime
    | with_reducible apply fr_resumeSlab
    | with_reducible apply fr_endIdle
    | with_reducible apply fr_startSlab
    | with_reducible apply fr_startDev
    | split
    | with_reducible apply fro_next)

theorem fr_pauseSlab {L : List Part} {s₀ s : State} (h₀ : Frame L s₀ s) (d : Nat) (b : Slab) (off : Rat)
    (hL : ∀ p ∈ [Part.counters, .domSlabs], p ∈ L) :
    Frame L s₀ (State.pauseSlab s d b off) := by
  unfold State.pauseSlab
  repeat' (first
    | with_reducible assumption
    | exact sub_trans hL (by decide)
    | (extract_lets +onlyGivenNames x; first
        | (refine (fun (hx : Frame L s₀ x) => ?_) ?_; (on_goal 1 => clear_value x); (on_goal 2 => subst x))
        | subst x)
    | with_reducible apply fr_bump
    | with_reducible apply fr_updSlab
    | split)

theorem fr_pauseDev {L : List Part} {s₀ s : State} (h₀ : Frame L s₀ s) (d : Nat) (r : DevSlabRec) (off : Rat)
    (hL : ∀ p ∈ [Part.counters, .domSlabs], p ∈ L) :
    Frame L s₀ (State.pauseDev s d r off) := by
  unfold State.pauseDev
  repeat' (first
    | with_reducible assumption
    | exact sub_trans hL (by decide)
    | (extract_lets +onlyGivenNames x; first
        | ((have y : Rat := x); clear y; clear_value x)
        | subst x)
    | with_reducible apply fr_bump
    | with_reducible apply fr_updDev
    | split)

theorem fr_execSlabPause {L : List Part} {s₀ s0 : State} (h₀ : Frame L s₀ s0) (d : Fin 64) (slab : SlabRef) (nowNs : Nat)
    (hL : ∀ p ∈ [Part.fuses, .tik, .counters, .domSlabs], p ∈ L) :
    FrameOut L s₀ (execSlabPause d slab nowNs s0) := by
  unfold execSlabPause
  repeat' (first
    | with_reducible assumption
    | exact sub_trans hL (by decide)
    | (extract_lets +onlyGivenNames x; first
        | (refine (fun (hx : Frame L s₀ x) => ?_) ?_; (on_goal 1 => clear_value x); (on_goal 2 => subst x))
        | subst x)
    | with_reducible apply fr_atTime
    | with_reducible apply fr_pauseSlab
    | with_reducible apply fr_pauseDev
    | split
    | with_reducible apply fro_next)

theorem fr_endRunOf {L : List Part} {s₀ s : State} (h₀ : Frame L s₀ s) (off : Rat) (d : Nat)
    (hL : ∀ p ∈ [Part.pciPending, .traceHead, .views, .counters, .out, .domSlabs, .domSched], p ∈ L) :
    Frame L s₀ (State.endRunOf s off d) := by
  unfold State.endRunOf
  repeat' (first
    | with_reducible assumption
    | exact sub_trans hL (by decide)
    | (extract_lets +onlyGivenNames x; first
        | (refine (fun (hx : Frame L s₀ x) => ?_) ?_; (on_goal 1 => clear_value x); (on_goal 2 => subst x))
        | ((have y : Nat := x); clear y; clear_value x))
    | with_reducible apply fr_pauseSlab
    | with_reducible apply fr_pauseDev
    | with_reducible apply fr_raiseDom
    | with_reducible apply fr_bump
    | with_reducible apply fr_updDom
    | with_reducible apply fr_foldl
    | split
    | with_reducible apply dfr_mk
    | with_reducible exact Or.inr rfl
    | with_reducible exact Or.inr (same_mem _)
    | with_reducible exact Or.inr (same_domLife _)
    | with_reducible exact Or.inr (same_domRecord _)
    | with_reducible exact Or.inr (same_domPreempt _)
    | with_reducible exact Or.inr (same_domSlabs _)
    | with_reducible exact Or.inl (hL .domSched (by decide))
    | intro)

theorem fr_execRunPhaseEnd {L : List Part} {s₀ s0 : State} (h₀ : Frame L s₀ s0) (nowNs : Nat)
    (hL : ∀ p ∈ [Part.fuses, .pciPending, .tik, .traceHead, .views, .counters, .out, .domSlabs, .domSched], p ∈ L) :
    FrameOut L s₀ (execRunPhaseEnd nowNs s0) := by
  unfold execRunPhaseEnd
  repeat' (first
    | with_reducible assumption
    | exact sub_trans hL (by decide)
    | (extract_lets +onlyGivenNames x; first
        | (refine (fun (hx : Frame L s₀ x) => ?_) ?_; (on_goal 1 => clear_value x); (on_goal 2 => subst x))
        | subst x)
    | with_reducible apply fr_atTime
    | with_reducible apply fr_updTik
    | with_reducible apply fr_eachDom
    | with_reducible apply fr_endRunOf
    | split
    | with_reducible apply fro_next
    | intro)

theorem fr_collWait {L : List Part} {s₀ s : State} (h₀ : Frame L s₀ s) (d : Nat) (b : Slab) (nowNs : Nat)
    (hL : ∀ p ∈ [Part.counters, .stretch], p ∈ L) :
    Frame L s₀ (State.collWait s d b nowNs) := by
  unfold State.collWait
  repeat' (first
    | with_reducible assumption
    | exact sub_trans hL (by decide)
    | (extract_lets +onlyGivenNames x; ((have y : Nat := x); clear y; clear_value x))
    | with_reducible apply fr_bump
    | with_reducible apply fr_addStretch
    | split)

theorem fr_concludeSlab {L : List Part} {s₀ s : State} (h₀ : Frame L s₀ s) (d : Nat) (b : Slab) (nowNs : Nat)
    (hL : ∀ p ∈ [Part.pci, .pciPending, .fab, .traceHead, .slots, .views, .counters, .stretch, .commons, .commonsPoison, .acc, .opbuf, .freeCtr, .out, .domQueue, .domSlabs, .domVec, .domUpd, .domTir, .domCol, .domMem, .domPoison], p ∈ L) :
    Frame L s₀ (State.concludeSlab s d b nowNs) := by
  unfold State.concludeSlab
  repeat' (first
    | with_reducible assumption
    | exact sub_trans hL (by decide)
    | (extract_lets +onlyGivenNames x; first
        | (refine (fun (hx : Frame L s₀ x) => ?_) ?_; (on_goal 1 => clear_value x); (on_goal 2 => subst x))
        | subst x)
    | with_reducible apply fr_countBusy
    | with_reducible apply fr_withhold
    | with_reducible apply fr_endEffect
    | with_reducible apply fr_putWithheld
    | with_reducible apply fr_collWait
    | with_reducible apply fr_endColl
    | with_reducible apply fr_endSlab
    | with_reducible apply fr_foldl
    | with_reducible apply fr_foldl_fst
    | with_reducible apply fr_foldl_snd
    | (refine fr_foldl_fst_eq ?_ ?_ (by assumption))
    | (refine fr_foldl_snd_eq ?_ ?_ (by assumption))
    | split
    | dsimp only
    | intro)

theorem fr_lateCompute {L : List Part} {s₀ s : State} (h₀ : Frame L s₀ s) (d : Nat) (b : Slab)
    (hL : ∀ p ∈ [Part.pci, .pciPending, .bas, .fab, .lks, .traceHead, .slots, .mbds, .units, .views, .counters, .commons, .commonsPoison, .acc, .opbuf, .freeCtr, .out, .domQueue, .domSlabs, .domVec, .domUpd, .domKvp, .domTir, .domCol, .domMem, .domPoison], p ∈ L) :
    Frame L s₀ (State.lateCompute s d b) := by
  unfold State.lateCompute
  repeat' (first
    | with_reducible assumption
    | exact sub_trans hL (by decide)
    | with_reducible apply fr_computeSlab
    | with_reducible apply fr_updSlab
    | with_reducible apply fr_withholdTiles
    | split)

theorem fr_execSlabComplete {L : List Part} {s₀ s0 : State} (h₀ : Frame L s₀ s0) (d : Fin 64) (slab : SlabRef) (nowNs : Nat)
    (hL : ∀ p ∈ [Part.fuses, .pci, .pciPending, .tik, .bas, .fab, .lks, .traceHead, .slots, .mbds, .units, .views, .counters, .stretch, .commons, .commonsPoison, .acc, .opbuf, .freeCtr, .out, .domPreempt, .domQueue, .domSlabs, .domVec, .domVar, .domUpd, .domKvp, .domTir, .domCol, .domKeys, .domMem, .domPoison], p ∈ L) :
    FrameOut L s₀ (execSlabComplete d slab nowNs s0) := by
  unfold execSlabComplete
  repeat' (first
    | with_reducible assumption
    | exact sub_trans hL (by decide)
    | (extract_lets +onlyGivenNames x; (refine (fun (hx : Frame L s₀ x) => ?_) ?_; (on_goal 1 => clear_value x); (on_goal 2 => subst x)))
    | with_reducible apply fr_atTime
    | with_reducible apply fr_collDue
    | with_reducible apply fr_lateCompute
    | with_reducible apply fr_concludeSlab
    | with_reducible apply fr_devEnds
    | with_reducible apply fr_updDev
    | split
    | with_reducible apply fro_next)

theorem fr_writeWord {L : List Part} {s₀ s : State} (h₀ : Frame L s₀ s) (d : Nat) (w : W64)
    (hL : ∀ p ∈ [Part.counters, .domQueue], p ∈ L) :
    Frame L s₀ (State.writeWord s d w) := by
  unfold State.writeWord
  repeat' (first
    | with_reducible assumption
    | exact sub_trans hL (by decide)
    | with_reducible apply fr_bump
    | with_reducible apply fr_updDom
    | with_reducible apply dfr_updQueue
    | with_reducible exact dfr_refl _ _
    | intro)

theorem fr_settleSlab {L : List Part} {s₀ s : State} (h₀ : Frame L s₀ s) (d : Nat) (b : Slab)
    (hL : ∀ p ∈ [Part.pci, .pciPending, .traceHead, .views, .counters, .out, .domQueue, .domSlabs, .domVec, .domUpd], p ∈ L) :
    Frame L s₀ (State.settleSlab s d b) := by
  unfold State.settleSlab
  repeat' (first
    | with_reducible assumption
    | exact sub_trans hL (by decide)
    | (extract_lets +onlyGivenNames x; first
        | (refine (fun (hx : Frame L s₀ x) => ?_) ?_; (on_goal 1 => clear_value x); (on_goal 2 => subst x))
        | ((have y : Bool := x); clear y; clear_value x)
        | subst x)
    | with_reducible apply fr_updSlab
    | with_reducible apply fr_writeWord
    | with_reducible apply fr_endBatch
    | with_reducible apply fr_creditSlab
    | with_reducible apply fr_endStep
    | with_reducible apply fr_updDom
    | split
    | with_reducible apply dfr_updQueue
    | with_reducible exact dfr_refl _ _
    | with_reducible apply dfr_mk
    | with_reducible exact Or.inr rfl
    | with_reducible exact Or.inr (same_mem _)
    | with_reducible exact Or.inr (same_domLife _)
    | with_reducible exact Or.inr (same_domRecord _)
    | with_reducible exact Or.inr (same_domPreempt _)
    | with_reducible exact Or.inr (same_domSched _)
    | with_reducible exact Or.inl (hL .domSlabs (by decide))
    | intro)

theorem fr_settleDom {L : List Part} {s₀ s : State} (h₀ : Frame L s₀ s) (d : Nat)
    (hL : ∀ p ∈ [Part.pci, .pciPending, .traceHead, .views, .counters, .stretch, .out, .domQueue, .domSlabs, .domSched, .domVec, .domUpd, .domKvp, .domTir, .domMem, .domPoison], p ∈ L) :
    Frame L s₀ (State.settleDom s d) := by
  unfold State.settleDom
  repeat' (first
    | with_reducible assumption
    | exact sub_trans hL (by decide)
    | (extract_lets +onlyGivenNames x; first
        | (refine (fun (hx : Frame L s₀ x) => ?_) ?_; (on_goal 1 => clear_value x); (on_goal 2 => subst x))
        | ((have y : Nat := x); clear y; clear_value x)
        | subst x)
    | with_reducible apply fr_kvSettle
    | with_reducible apply fr_bump
    | with_reducible apply fr_raiseDom
    | with_reducible apply fr_reserveEnded
    | with_reducible apply fr_settleSlab
    | with_reducible apply fr_msix
    | with_reducible apply fr_foldl
    | with_reducible apply fr_foldl_fst
    | with_reducible apply fr_foldl_snd
    | (refine fr_foldl_fst_eq ?_ ?_ (by assumption))
    | (refine fr_foldl_snd_eq ?_ ?_ (by assumption))
    | split
    | dsimp only
    | intro)

theorem fr_execSettleStart {L : List Part} {s₀ s0 : State} (h₀ : Frame L s₀ s0) (nowNs : Nat)
    (hL : ∀ p ∈ [Part.fuses, .pci, .pciPending, .tik, .pwr, .bas, .fab, .traceHead, .mbds, .units, .views, .counters, .stretch, .commonsPoison, .freeCtr, .out, .domQueue, .domSlabs, .domSched, .domVec, .domUpd, .domKvp, .domTir, .domCol, .domMem, .domPoison], p ∈ L) :
    FrameOut L s₀ (execSettleStart nowNs s0) := by
  unfold execSettleStart
  repeat' (first
    | with_reducible assumption
    | exact sub_trans hL (by decide)
    | (extract_lets +onlyGivenNames x; first
        | (refine (fun (hx : Frame L s₀ x) => ?_) ?_; (on_goal 1 => clear_value x); (on_goal 2 => subst x))
        | ((have y : Nat := x); clear y; clear_value x)
        | subst x)
    | with_reducible apply fr_atTime
    | with_reducible apply fr_updTik
    | with_reducible apply fr_eachDom
    | with_reducible apply fr_settleDom
    | with_reducible apply fr_deviceStall
    | with_reducible apply fr_sendDone
    | with_reducible apply fr_refetchBegins
    | with_reducible apply fr_foldl
    | with_reducible apply fr_foldl_fst
    | with_reducible apply fr_foldl_snd
    | (refine fr_foldl_fst_eq ?_ ?_ (by assumption))
    | (refine fr_foldl_snd_eq ?_ ?_ (by assumption))
    | split
    | with_reducible apply fro_next
    | dsimp only
    | intro)

theorem fr_execSharedFetchHoldExpire {L : List Part} {s₀ s : State} (h₀ : Frame L s₀ s) (d : Fin 64) (tag : W32)
    (hL : ∀ p ∈ [Part.domSlabs], p ∈ L) :
    FrameOut L s₀ (execSharedFetchHoldExpire d tag s) := by
  unfold execSharedFetchHoldExpire
  repeat' (first
    | with_reducible assumption
    | exact sub_trans hL (by decide)
    | with_reducible apply fr_updSlab
    | split
    | with_reducible apply fro_next)

theorem fr_preemptCmd {L : List Part} {s₀ s : State} (h₀ : Frame L s₀ s) (v : View) (posted : Bool) (d : Nat)
    (save : Bool) (rsv : Nat)
    (hL : ∀ p ∈ [Part.pciPending, .traceHead, .views, .pairs, .counters, .out, .domPreempt], p ∈ L) :
    Frame L s₀ (State.preemptCmd s v posted d save rsv) := by
  unfold State.preemptCmd
  repeat' (first
    | with_reducible assumption
    | exact sub_trans hL (by decide)
    | (extract_lets +onlyGivenNames x; subst x)
    | with_reducible apply fr_runCmd
    | with_reducible apply fr_updDom
    | split
    | with_reducible apply dfr_mk
    | with_reducible exact Or.inr rfl
    | with_reducible exact Or.inr (same_mem _)
    | with_reducible exact Or.inr (same_domLife _)
    | with_reducible exact Or.inr (same_domRecord _)
    | with_reducible exact Or.inr (same_domSlabs _)
    | with_reducible exact Or.inr (same_domSched _)
    | with_reducible exact Or.inl (hL .domPreempt (by decide))
    | intro)

theorem fr_resumeCmd {L : List Part} {s₀ s : State} (h₀ : Frame L s₀ s) (v : View) (posted : Bool) (d : Nat) (rsv : Nat)
    (hL : ∀ p ∈ [Part.pciPending, .traceHead, .views, .pairs, .counters, .out, .domPreempt], p ∈ L) :
    Frame L s₀ (State.resumeCmd s v posted d rsv) := by
  unfold State.resumeCmd
  repeat' (first
    | with_reducible assumption
    | exact sub_trans hL (by decide)
    | (extract_lets +onlyGivenNames x; subst x)
    | with_reducible apply fr_runCmd
    | with_reducible apply fr_updDom
    | split
    | with_reducible apply dfr_mk
    | with_reducible exact Or.inr rfl
    | with_reducible exact Or.inr (same_mem _)
    | with_reducible exact Or.inr (same_domLife _)
    | with_reducible exact Or.inr (same_domRecord _)
    | with_reducible exact Or.inr (same_domSlabs _)
    | with_reducible exact Or.inr (same_domSched _)
    | with_reducible exact Or.inl (hL .domPreempt (by decide))
    | intro)

theorem fr_execPreempt {L : List Part} {s₀ s : State} (h₀ : Frame L s₀ s) (posted : Bool) (d : Fin 64)
    (saveCommons : Bool) (rsv : BitVec 53)
    (hL : ∀ p ∈ [Part.pciPending, .traceHead, .views, .pairs, .counters, .out, .domPreempt], p ∈ L) :
    FrameOut L s₀ (execPreempt posted d saveCommons rsv s) := by
  unfold execPreempt
  repeat' (first
    | with_reducible assumption
    | exact sub_trans hL (by decide)
    | with_reducible apply fr_preemptCmd
    | with_reducible apply fro_next)

theorem fr_execResume {L : List Part} {s₀ s : State} (h₀ : Frame L s₀ s) (posted : Bool) (d : Fin 64) (rsv : BitVec 54)
    (hL : ∀ p ∈ [Part.pciPending, .traceHead, .views, .pairs, .counters, .out, .domPreempt], p ∈ L) :
    FrameOut L s₀ (execResume posted d rsv s) := by
  unfold execResume
  repeat' (first
    | with_reducible assumption
    | exact sub_trans hL (by decide)
    | with_reducible apply fr_resumeCmd
    | with_reducible apply fro_next)

end Sys2Proof.Laws
end

