-- ==== Sys2Proof/Laws/FrameRead.lean ====
section
/-! SUPPORT. What the operations of Machine/Read.lean may change (Safety.Frame): each lemma lists the parts. -/

namespace Sys2Proof.Laws

open Sys2Proof.Machine Sys2Proof.Safety

theorem fr_readLow {L : List Part} {s₀ s : State} (h₀ : Frame L s₀ s) (v : View) (p : Nat) (o : Nat)
    (hL : ∀ p ∈ [Part.latches, .out], p ∈ L) :
    Frame L s₀ (State.readLow s v p o) := by
  unfold State.readLow
  repeat' (first
    | with_reducible assumption
    | exact sub_trans hL (by decide)
    | (extract_lets +onlyGivenNames x; first
        | (refine (fun (hx : Frame L s₀ x) => ?_) ?_; (on_goal 1 => clear_value x); (on_goal 2 => subst x))
        | ((have y : Nat := x); clear y; clear_value x)
        | subst x)
    | with_reducible apply fr_emit
    | split
    | with_reducible apply fr_mk
    | with_reducible exact Or.inr rfl
    | with_reducible exact Or.inr (same_mem _)
    | with_reducible exact Or.inr (same_poison _)
    | with_reducible exact Or.inr (same_head _)
    | with_reducible exact same_ring _
    | exact Or.inr (fun _ => rfl)
    | with_reducible exact Or.inl (hL .latches (by decide)))

theorem fr_readHigh {L : List Part} {s₀ s : State} (h₀ : Frame L s₀ s) (v : View) (p : Nat) (o : Nat)
    (hL : ∀ p ∈ [Part.latches, .out], p ∈ L) :
    Frame L s₀ (State.readHigh s v p o) := by
  unfold State.readHigh
  repeat' (first
    | with_reducible assumption
    | exact sub_trans hL (by decide)
    | (extract_lets +onlyGivenNames x; first
        | ((have y : Nat := x); clear y; clear_value x)
        | subst x)
    | with_reducible apply fr_emit
    | split
    | with_reducible apply fr_mk
    | with_reducible exact Or.inr rfl
    | with_reducible exact Or.inr (same_mem _)
    | with_reducible exact Or.inr (same_poison _)
    | with_reducible exact Or.inr (same_head _)
    | with_reducible exact same_ring _
    | exact Or.inr (fun _ => rfl)
    | with_reducible exact Or.inl (hL .latches (by decide)))

theorem fr_execCounterLowRead {L : List Part} {s₀ s : State} (h₀ : Frame L s₀ s) (v : View) (page : Byte) (offset : Nat)
    (hL : ∀ p ∈ [Part.latches, .out], p ∈ L) :
    FrameOut L s₀ (execCounterLowRead v page offset s) := by
  unfold execCounterLowRead
  repeat' (first
    | with_reducible assumption
    | exact sub_trans hL (by decide)
    | with_reducible apply fr_readLow
    | with_reducible apply fr_emit
    | split
    | with_reducible apply fro_next)

theorem fr_execCounterHighRead {L : List Part} {s₀ s : State} (h₀ : Frame L s₀ s) (v : View) (page : Byte) (offset : Nat)
    (hL : ∀ p ∈ [Part.latches, .out], p ∈ L) :
    FrameOut L s₀ (execCounterHighRead v page offset s) := by
  unfold execCounterHighRead
  repeat' (first
    | with_reducible assumption
    | exact sub_trans hL (by decide)
    | with_reducible apply fr_readHigh
    | with_reducible apply fr_emit
    | split
    | with_reducible apply fro_next)

end Sys2Proof.Laws
end

