-- ==== Sys2Proof/Laws/FrameRegs.lean ====
section
/-! SUPPORT. What the operations of Machine/Regs.lean may change (Safety.Frame): each lemma lists the parts. -/

namespace Sys2Proof.Laws

open Sys2Proof.Machine Sys2Proof.Safety

theorem fr_clearEvents {L : List Part} {s₀ s : State} (h₀ : Frame L s₀ s) (v : View) (p : Nat) (mask : W32)
    (hL : ∀ p ∈ [Part.views], p ∈ L) :
    Frame L s₀ (State.clearEvents s v p mask) := by
  unfold State.clearEvents
  repeat' (first
    | with_reducible assumption
    | exact sub_trans hL (by decide)
    | (extract_lets +onlyGivenNames x; first
        | ((have y : Nat := x); clear y; clear_value x)
        | subst x)
    | with_reducible apply fr_putView
    | split)

theorem fr_enableEvents {L : List Part} {s₀ s : State} (h₀ : Frame L s₀ s) (v : View) (p : Nat) (mask : W32)
    (hL : ∀ p ∈ [Part.pciPending, .views, .out], p ∈ L) :
    Frame L s₀ (State.enableEvents s v p mask) := by
  unfold State.enableEvents
  repeat' (first
    | with_reducible assumption
    | exact sub_trans hL (by decide)
    | (extract_lets +onlyGivenNames x; first
        | (refine (fun (hx : Frame L s₀ x) => ?_) ?_; (on_goal 1 => clear_value x); (on_goal 2 => subst x))
        | ((have y : Nat := x); clear y; clear_value x)
        | subst x)
    | with_reducible apply fr_putView
    | with_reducible apply fr_msix
    | split)

theorem fr_setEvents {L : List Part} {s₀ s : State} (h₀ : Frame L s₀ s) (v : View) (p : Nat) (mask : W32)
    (hL : ∀ p ∈ [Part.pciPending, .views, .out], p ∈ L) :
    Frame L s₀ (State.setEvents s v p mask) := by
  unfold State.setEvents
  repeat' (first
    | with_reducible assumption
    | exact sub_trans hL (by decide)
    | with_reducible apply fr_setEvent
    | split)

theorem fr_lockPage {L : List Part} {s₀ s : State} (h₀ : Frame L s₀ s) (v : View) (p : Nat)
    (hL : ∀ p ∈ [Part.locked], p ∈ L) :
    Frame L s₀ (State.lockPage s v p) := by
  unfold State.lockPage
  repeat' (first
    | with_reducible assumption
    | exact sub_trans hL (by decide)
    | split
    | with_reducible apply fr_mk
    | with_reducible exact Or.inr rfl
    | with_reducible exact Or.inr (same_mem _)
    | with_reducible exact Or.inr (same_poison _)
    | with_reducible exact Or.inr (same_head _)
    | with_reducible exact same_ring _
    | exact Or.inr (fun _ => rfl)
    | with_reducible exact Or.inl (hL .locked (by decide)))

theorem fr_setCntMode {L : List Part} {s₀ s : State} (h₀ : Frame L s₀ s) (v : View) (p : Nat) (mode : BitVec 2)
    (hL : ∀ p ∈ [Part.views], p ∈ L) :
    Frame L s₀ (State.setCntMode s v p mode) := by
  unfold State.setCntMode
  repeat' (first
    | with_reducible assumption
    | exact sub_trans hL (by decide)
    | (extract_lets +onlyGivenNames x; first
        | ((have y : Nat := x); clear y; clear_value x)
        | subst x)
    | with_reducible apply fr_putView
    | split)

theorem fr_writeTick {L : List Part} {s₀ s : State} (h₀ : Frame L s₀ s) (v : View) (phase : Bool) (w : Nat)
    (hL : ∀ p ∈ [Part.pciPending, .tik, .traceHead, .views, .counters, .out], p ∈ L) :
    Frame L s₀ (State.writeTick s v phase w) := by
  unfold State.writeTick
  repeat' (first
    | with_reducible assumption
    | exact sub_trans hL (by decide)
    | (extract_lets +onlyGivenNames x; ((have y : Nat := x); clear y; clear_value x))
    | with_reducible apply fr_raiseDev
    | with_reducible apply fr_updTik
    | split)

theorem fr_writeShare {L : List Part} {s₀ s : State} (h₀ : Frame L s₀ s) (v : View) (w : Nat)
    (hL : ∀ p ∈ [Part.pciPending, .traceHead, .views, .counters, .atLatch, .out], p ∈ L) :
    Frame L s₀ (State.writeShare s v w) := by
  unfold State.writeShare
  repeat' (first
    | with_reducible assumption
    | exact sub_trans hL (by decide)
    | (extract_lets +onlyGivenNames x; ((have y : Nat := x); clear y; clear_value x))
    | with_reducible apply fr_raiseDom
    | with_reducible apply fr_defer
    | split)

theorem fr_writePlanSlots {L : List Part} {s₀ s : State} (h₀ : Frame L s₀ s) (v : View) (w : Nat)
    (hL : ∀ p ∈ [Part.pciPending, .traceHead, .views, .counters, .atLatch, .out], p ∈ L) :
    Frame L s₀ (State.writePlanSlots s v w) := by
  unfold State.writePlanSlots
  repeat' (first
    | with_reducible assumption
    | exact sub_trans hL (by decide)
    | (extract_lets +onlyGivenNames x; ((have y : Nat := x); clear y; clear_value x))
    | with_reducible apply fr_raiseDom
    | with_reducible apply fr_defer
    | split)

theorem fr_writeRtArrays {L : List Part} {s₀ s : State} (h₀ : Frame L s₀ s) (d : Nat) (w : Nat)
    (hL : ∀ p ∈ [Part.pciPending, .traceHead, .views, .counters, .atLatch, .out], p ∈ L) :
    Frame L s₀ (State.writeRtArrays s d w) := by
  unfold State.writeRtArrays
  repeat' (first
    | with_reducible assumption
    | exact sub_trans hL (by decide)
    | (extract_lets +onlyGivenNames x; ((have y : Nat := x); clear y; clear_value x))
    | with_reducible apply fr_defer
    | with_reducible apply fr_raiseDom
    | split)

theorem fr_writeTikReg {L : List Part} {s₀ s : State} (h₀ : Frame L s₀ s) (v : View) (d : Nat) (o : Nat) (w : Nat)
    (hL : ∀ p ∈ [Part.pciPending, .tik, .traceHead, .views, .counters, .atLatch, .out], p ∈ L) :
    Frame L s₀ (State.writeTikReg s v d o w) := by
  unfold State.writeTikReg
  repeat' (first
    | with_reducible assumption
    | exact sub_trans hL (by decide)
    | with_reducible apply fr_writeTick
    | with_reducible apply fr_updTik
    | with_reducible apply fr_raiseDev
    | with_reducible apply fr_writeShare
    | with_reducible apply fr_writePlanSlots
    | with_reducible apply fr_defer
    | with_reducible apply fr_writeRtArrays
    | split)

theorem fr_writeRecipe {L : List Part} {s₀ s : State} (h₀ : Frame L s₀ s) (v : View) (k : Nat) (w : Nat)
    (hL : ∀ p ∈ [Part.pciPending, .traceHead, .views, .counters, .atLatch, .out], p ∈ L) :
    Frame L s₀ (State.writeRecipe s v k w) := by
  unfold State.writeRecipe
  repeat' (first
    | with_reducible assumption
    | exact sub_trans hL (by decide)
    | (extract_lets +onlyGivenNames x; ((have y : Nat := x); clear y; clear_value x))
    | with_reducible apply fr_raiseDev
    | with_reducible apply fr_defer
    | split)

theorem fr_writeHistSel {L : List Part} {s₀ s : State} (h₀ : Frame L s₀ s) (v : View) (slot : Nat)
    (hL : ∀ p ∈ [Part.domVec], p ∈ L) :
    Frame L s₀ (State.writeHistSel s v slot) := by
  unfold State.writeHistSel
  repeat' (first
    | with_reducible assumption
    | exact sub_trans hL (by decide)
    | with_reducible apply fr_updDom
    | split
    | with_reducible apply dfr_updVec
    | with_reducible exact dfr_refl _ _
    | dsimp only
    | intro)

theorem fr_commitHist {L : List Part} {s₀ s : State} (h₀ : Frame L s₀ s) (v : View) (count : Nat)
    (hL : ∀ p ∈ [Part.pciPending, .traceHead, .views, .counters, .out, .domVec], p ∈ L) :
    Frame L s₀ (State.commitHist s v count) := by
  unfold State.commitHist
  repeat' (first
    | with_reducible assumption
    | exact sub_trans hL (by decide)
    | (extract_lets +onlyGivenNames x; first
        | ((have y : Nat := x); clear y; clear_value x)
        | subst x)
    | with_reducible apply fr_raiseDom
    | with_reducible apply fr_updDom
    | split
    | with_reducible apply dfr_updVec
    | with_reducible exact dfr_refl _ _
    | intro)

theorem fr_writeZs {L : List Part} {s₀ s : State} (h₀ : Frame L s₀ s) (v : View) (w : Nat)
    (hL : ∀ p ∈ [Part.domVec], p ∈ L) :
    Frame L s₀ (State.writeZs s v w) := by
  unfold State.writeZs
  repeat' (first
    | with_reducible assumption
    | exact sub_trans hL (by decide)
    | (extract_lets +onlyGivenNames x; ((have y : Nat := x); clear y; clear_value x))
    | with_reducible apply fr_updDom
    | split
    | with_reducible apply dfr_updVec
    | with_reducible exact dfr_refl _ _
    | intro)

theorem fr_writeVecReg {L : List Part} {s₀ s : State} (h₀ : Frame L s₀ s) (v : View) (d : Nat) (o : Nat) (w : Nat)
    (hL : ∀ p ∈ [Part.pciPending, .traceHead, .views, .counters, .atLatch, .out, .domVec], p ∈ L) :
    Frame L s₀ (State.writeVecReg s v d o w) := by
  unfold State.writeVecReg
  repeat' (first
    | with_reducible assumption
    | exact sub_trans hL (by decide)
    | (extract_lets +onlyGivenNames x; subst x)
    | with_reducible apply fr_updDom
    | with_reducible apply fr_writeRecipe
    | with_reducible apply fr_writeHistSel
    | with_reducible apply fr_commitHist
    | with_reducible apply fr_writeZs
    | split
    | with_reducible apply dfr_updVec
    | with_reducible exact dfr_refl _ _
    | intro)

theorem fr_writeLossScale {L : List Part} {s₀ s : State} (h₀ : Frame L s₀ s) (v : View) (w : Nat)
    (hL : ∀ p ∈ [Part.domUpd], p ∈ L) :
    Frame L s₀ (State.writeLossScale s v w) := by
  unfold State.writeLossScale
  repeat' (first
    | with_reducible assumption
    | exact sub_trans hL (by decide)
    | (extract_lets +onlyGivenNames x; ((have y : Nat := x); clear y; clear_value x))
    | with_reducible apply fr_updDom
    | split
    | with_reducible apply dfr_updUpd
    | with_reducible exact dfr_refl _ _
    | intro)

theorem fr_writeRetain {L : List Part} {s₀ s : State} (h₀ : Frame L s₀ s) (v : View) (w : Nat)
    (hL : ∀ p ∈ [Part.atLatch], p ∈ L) :
    Frame L s₀ (State.writeRetain s v w) := by
  unfold State.writeRetain
  repeat' (first
    | with_reducible assumption
    | exact sub_trans hL (by decide)
    | (extract_lets +onlyGivenNames x; first
        | ((have y : Nat := x); clear y; clear_value x)
        | subst x)
    | with_reducible apply fr_defer
    | split)

theorem fr_writeKvpReg {L : List Part} {s₀ s : State} (h₀ : Frame L s₀ s) (v : View) (d : Nat) (o : Nat) (w : Nat)
    (hL : ∀ p ∈ [Part.sels, .atLatch, .domKvp], p ∈ L) :
    Frame L s₀ (State.writeKvpReg s v d o w) := by
  unfold State.writeKvpReg
  repeat' (first
    | with_reducible assumption
    | exact sub_trans hL (by decide)
    | (extract_lets +onlyGivenNames x; first
        | ((have y : Nat := x); clear y; clear_value x)
        | subst x)
    | with_reducible apply fr_updDom
    | with_reducible apply fr_writeGeom
    | with_reducible apply fr_defer
    | split
    | with_reducible apply dfr_updKvp
    | with_reducible apply dfr_mk
    | with_reducible exact dfr_refl _ _
    | with_reducible apply fr_mk
    | with_reducible exact Or.inr rfl
    | with_reducible exact Or.inr (same_mem _)
    | with_reducible exact Or.inr (same_domLife _)
    | with_reducible exact Or.inr (same_domRecord _)
    | with_reducible exact Or.inr (same_domPreempt _)
    | with_reducible exact Or.inr (same_domSlabs _)
    | with_reducible exact Or.inr (same_domSched _)
    | with_reducible exact Or.inr (same_poison _)
    | with_reducible exact Or.inr (same_head _)
    | with_reducible exact same_ring _
    | exact Or.inr (fun _ => rfl)
    | with_reducible exact Or.inl (hL .sels (by decide))
    | with_reducible exact Or.inl (hL .atLatch (by decide))
    | with_reducible exact Or.inl (hL .domKvp (by decide))
    | dsimp only
    | intro)

theorem fr_writeFlashRate {L : List Part} {s₀ s : State} (h₀ : Frame L s₀ s) (v : View) (w : Nat)
    (hL : ∀ p ∈ [Part.pciPending, .traceHead, .views, .counters, .atLatch, .out], p ∈ L) :
    Frame L s₀ (State.writeFlashRate s v w) := by
  unfold State.writeFlashRate
  repeat' (first
    | with_reducible assumption
    | exact sub_trans hL (by decide)
    | (extract_lets +onlyGivenNames x; first
        | ((have y : Nat := x); clear y; clear_value x)
        | subst x)
    | with_reducible apply fr_raiseDom
    | with_reducible apply fr_defer
    | split)

theorem fr_writeTirReg {L : List Part} {s₀ s : State} (h₀ : Frame L s₀ s) (v : View) (d : Nat) (o : Nat) (w : Nat)
    (hL : ∀ p ∈ [Part.pciPending, .traceHead, .views, .counters, .sels, .atLatch, .out], p ∈ L) :
    Frame L s₀ (State.writeTirReg s v d o w) := by
  unfold State.writeTirReg
  repeat' (first
    | with_reducible assumption
    | exact sub_trans hL (by decide)
    | with_reducible apply fr_writeFlashRate
    | with_reducible apply fr_defer
    | split
    | with_reducible apply fr_mk
    | with_reducible exact Or.inr rfl
    | with_reducible exact Or.inr (same_mem _)
    | with_reducible exact Or.inr (same_poison _)
    | with_reducible exact Or.inr (same_head _)
    | with_reducible exact same_ring _
    | exact Or.inr (fun _ => rfl)
    | with_reducible exact Or.inl (hL .sels (by decide)))

theorem fr_writeVarReg {L : List Part} {s₀ s : State} (h₀ : Frame L s₀ s) (v : View) (d : Nat) (o : Nat) (w : Nat)
    (hL : ∀ p ∈ [Part.sels, .atLatch], p ∈ L) :
    Frame L s₀ (State.writeVarReg s v d o w) := by
  unfold State.writeVarReg
  repeat' (first
    | with_reducible assumption
    | exact sub_trans hL (by decide)
    | with_reducible apply fr_defer
    | split
    | with_reducible apply fr_mk
    | with_reducible exact Or.inr rfl
    | with_reducible exact Or.inr (same_mem _)
    | with_reducible exact Or.inr (same_poison _)
    | with_reducible exact Or.inr (same_head _)
    | with_reducible exact same_ring _
    | exact Or.inr (fun _ => rfl)
    | with_reducible exact Or.inl (hL .sels (by decide)))

theorem fr_writeBasReg {L : List Part} {s₀ s : State} (h₀ : Frame L s₀ s) (o : Nat) (w : Nat)
    (hL : ∀ p ∈ [Part.bas, .atLatch], p ∈ L) :
    Frame L s₀ (State.writeBasReg s o w) := by
  unfold State.writeBasReg
  repeat' (first
    | with_reducible assumption
    | exact sub_trans hL (by decide)
    | (extract_lets +onlyGivenNames x; ((have y : Bool := x); clear y; clear_value x))
    | with_reducible apply fr_updBas
    | with_reducible apply fr_defer
    | split)

theorem fr_writeNvmReg {L : List Part} {s₀ s : State} (h₀ : Frame L s₀ s) (o : Nat) (w : Nat)
    (hL : ∀ p ∈ [Part.nvm, .atLatch], p ∈ L) :
    Frame L s₀ (State.writeNvmReg s o w) := by
  unfold State.writeNvmReg
  repeat' (first
    | with_reducible assumption
    | exact sub_trans hL (by decide)
    | (extract_lets +onlyGivenNames x; first
        | (refine (fun (hx : Frame L s₀ x) => ?_) ?_; (on_goal 1 => clear_value x); (on_goal 2 => subst x))
        | subst x)
    | with_reducible apply fr_defer
    | split
    | with_reducible apply fr_mk
    | with_reducible exact Or.inr rfl
    | with_reducible exact Or.inr (same_mem _)
    | with_reducible exact Or.inr (same_poison _)
    | with_reducible exact Or.inr (same_head _)
    | with_reducible exact same_ring _
    | exact Or.inr (fun _ => rfl)
    | with_reducible exact Or.inl (hL .nvm (by decide)))

theorem fr_writeNsMap {L : List Part} {s₀ s : State} (h₀ : Frame L s₀ s) (k : Nat) (w : Nat)
    (hL : ∀ p ∈ [Part.pciPending, .nvm, .traceHead, .views, .counters, .out], p ∈ L) :
    Frame L s₀ (State.writeNsMap s k w) := by
  unfold State.writeNsMap
  repeat' (first
    | with_reducible assumption
    | exact sub_trans hL (by decide)
    | (extract_lets +onlyGivenNames x; first
        | (refine (fun (hx : Frame L s₀ x) => ?_) ?_; (on_goal 1 => clear_value x); (on_goal 2 => subst x))
        | ((have y : Nat := x); clear y; clear_value x)
        | ((have y : Bool := x); clear y; clear_value x)
        | subst x)
    | with_reducible apply fr_raiseDev
    | split
    | with_reducible apply fr_mk
    | with_reducible exact Or.inr rfl
    | with_reducible exact Or.inr (same_mem _)
    | with_reducible exact Or.inr (same_poison _)
    | with_reducible exact Or.inr (same_head _)
    | with_reducible exact same_ring _
    | exact Or.inr (fun _ => rfl)
    | with_reducible exact Or.inl (hL .nvm (by decide)))

theorem fr_writePtag {L : List Part} {s₀ s : State} (h₀ : Frame L s₀ s) (v : View) (w : Nat)
    (hL : ∀ p ∈ [Part.pciPending, .traceHead, .views, .counters, .atLatch, .out], p ∈ L) :
    Frame L s₀ (State.writePtag s v w) := by
  unfold State.writePtag
  repeat' (first
    | with_reducible assumption
    | exact sub_trans hL (by decide)
    | (extract_lets +onlyGivenNames x; ((have y : Nat := x); clear y; clear_value x))
    | with_reducible apply fr_raiseDom
    | with_reducible apply fr_defer
    | split)

theorem fr_writeSlotTag {L : List Part} {s₀ s : State} (h₀ : Frame L s₀ s) (v : View) (w : Nat)
    (hL : ∀ p ∈ [Part.fab], p ∈ L) :
    Frame L s₀ (State.writeSlotTag s v w) := by
  unfold State.writeSlotTag
  repeat' (first
    | with_reducible assumption
    | exact sub_trans hL (by decide)
    | with_reducible apply fr_updFab
    | split)

theorem fr_writeColReg {L : List Part} {s₀ s : State} (h₀ : Frame L s₀ s) (v : View) (d : Nat) (o : Nat) (w : Nat)
    (hL : ∀ p ∈ [Part.pciPending, .fab, .traceHead, .views, .counters, .atLatch, .out, .domCol], p ∈ L) :
    Frame L s₀ (State.writeColReg s v d o w) := by
  unfold State.writeColReg
  repeat' (first
    | with_reducible assumption
    | exact sub_trans hL (by decide)
    | with_reducible apply fr_writePtag
    | with_reducible apply fr_updDom
    | with_reducible apply fr_updFab
    | with_reducible apply fr_writeSlotTag
    | split
    | with_reducible apply dfr_updCol
    | with_reducible exact dfr_refl _ _
    | intro)

theorem fr_rejectRates {L : List Part} {s₀ s : State} (h₀ : Frame L s₀ s) (v : View) (d : Nat)
    (hL : ∀ p ∈ [Part.pciPending, .traceHead, .views, .counters, .out], p ∈ L) :
    Frame L s₀ (State.rejectRates s v d) := by
  unfold State.rejectRates
  repeat' (first
    | with_reducible assumption
    | exact sub_trans hL (by decide)
    | with_reducible apply fr_raiseDom
    | with_reducible apply fr_raiseCopy
    | split)

theorem fr_writeRates {L : List Part} {s₀ s : State} (h₀ : Frame L s₀ s) (v : View) (w : Nat)
    (hL : ∀ p ∈ [Part.pciPending, .traceHead, .views, .counters, .atLatch, .out], p ∈ L) :
    Frame L s₀ (State.writeRates s v w) := by
  unfold State.writeRates
  repeat' (first
    | with_reducible assumption
    | exact sub_trans hL (by decide)
    | (extract_lets +onlyGivenNames x; first
        | ((have y : Nat := x); clear y; clear_value x)
        | subst x)
    | with_reducible apply fr_rejectRates
    | with_reducible apply fr_defer
    | split)

theorem fr_writeMaint {L : List Part} {s₀ s : State} (h₀ : Frame L s₀ s) (v : View) (w : Nat)
    (hL : ∀ p ∈ [Part.pciPending, .traceHead, .views, .counters, .atLatch, .out], p ∈ L) :
    Frame L s₀ (State.writeMaint s v w) := by
  unfold State.writeMaint
  repeat' (first
    | with_reducible assumption
    | exact sub_trans hL (by decide)
    | (extract_lets +onlyGivenNames x; first
        | ((have y : Nat := x); clear y; clear_value x)
        | subst x)
    | with_reducible apply fr_raiseDev
    | with_reducible apply fr_defer
    | split)

theorem fr_writeMemReg {L : List Part} {s₀ s : State} (h₀ : Frame L s₀ s) (v : View) (p : Nat) (o : Nat) (w : Nat)
    (hL : ∀ p ∈ [Part.pciPending, .memg, .traceHead, .views, .counters, .atLatch, .out], p ∈ L) :
    Frame L s₀ (State.writeMemReg s v p o w) := by
  unfold State.writeMemReg
  repeat' (first
    | with_reducible assumption
    | exact sub_trans hL (by decide)
    | with_reducible apply fr_updMemg
    | with_reducible apply fr_writeMaint
    | with_reducible apply fr_writeRates
    | split)

theorem fr_retrainPort {L : List Part} {s₀ s : State} (h₀ : Frame L s₀ s) (v : View) (port : Nat)
    (hL : ∀ p ∈ [Part.pciPending, .fab, .traceHead, .views, .counters, .out], p ∈ L) :
    Frame L s₀ (State.retrainPort s v port) := by
  unfold State.retrainPort
  repeat' (first
    | with_reducible assumption
    | exact sub_trans hL (by decide)
    | with_reducible apply fr_portDown
    | with_reducible apply fr_updPort
    | with_reducible apply fr_nameSelf
    | split)

theorem fr_enablePort {L : List Part} {s₀ s : State} (h₀ : Frame L s₀ s) (v : View) (port : Nat) (on : Bool)
    (hL : ∀ p ∈ [Part.pciPending, .fab, .traceHead, .views, .counters, .out], p ∈ L) :
    Frame L s₀ (State.enablePort s v port on) := by
  unfold State.enablePort
  repeat' (first
    | with_reducible assumption
    | exact sub_trans hL (by decide)
    | with_reducible apply fr_updPort
    | with_reducible apply fr_portDown
    | split)

theorem fr_writeFabReg {L : List Part} {s₀ s : State} (h₀ : Frame L s₀ s) (v : View) (port : Nat) (o : Nat) (w : Nat)
    (hL : ∀ p ∈ [Part.pciPending, .fab, .traceHead, .views, .counters, .out], p ∈ L) :
    Frame L s₀ (State.writeFabReg s v port o w) := by
  unfold State.writeFabReg
  repeat' (first
    | with_reducible assumption
    | exact sub_trans hL (by decide)
    | (extract_lets +onlyGivenNames x; (refine (fun (hx : Frame L s₀ x) => ?_) ?_; (on_goal 1 => clear_value x); (on_goal 2 => subst x)))
    | with_reducible apply fr_updFab
    | with_reducible apply fr_enablePort
    | with_reducible apply fr_retrainPort
    | split)

theorem fr_applyKey {L : List Part} {s₀ s : State} (h₀ : Frame L s₀ s) (v : View) (d : Nat)
    (hL : ∀ p ∈ [Part.domKeys], p ∈ L) :
    Frame L s₀ (State.applyKey s v d) := by
  unfold State.applyKey
  repeat' (first
    | with_reducible assumption
    | exact sub_trans hL (by decide)
    | with_reducible apply fr_updDom
    | split
    | with_reducible apply dfr_updKeys
    | with_reducible exact dfr_refl _ _
    | intro)

theorem fr_nextOf {L : List Part} {s₀ s : State} (h₀ : Frame L s₀ s) {o : Host.Outcome State Fault Refusal} (ho : FrameOut L s₀ o)
    (hL : ∀ p ∈ ([] : List Part), p ∈ L) :
    Frame L s₀ (nextOf o s) := by
  unfold nextOf
  split
  · exact ho _ rfl
  · exact h₀

theorem fr_varWord64 {L : List Part} {s₀ s : State} (h₀ : Frame L s₀ s) (v : View) (w : W64)
    (hL : ∀ p ∈ [Part.pciPending, .traceHead, .slots, .views, .pairs, .counters, .atLatch, .freeCtr, .out, .domVar], p ∈ L) :
    Frame L s₀ (State.varWord64 s v w) := by
  unfold State.varWord64
  repeat' (first
    | with_reducible assumption
    | exact sub_trans hL (by decide)
    | (extract_lets +onlyGivenNames x; first
        | subst x)
    | with_reducible apply fr_nextOf
    | with_reducible apply fr_execClaim
    | with_reducible apply fr_execLoad
    | with_reducible apply fr_execPark
    | with_reducible apply fr_execRelease
    | with_reducible apply fr_execStage
    | with_reducible apply fr_execUnstage
    | with_reducible apply fr_execVarQuery
    | with_reducible apply fr_execExpertClaim
    | with_reducible apply fr_execExpertRelease
    | with_reducible apply fr_execFlush
    | with_reducible apply fr_varCmd
    | with_reducible apply fr_varSays
    | (refine fr_varSays_eq ?_ (by assumption) ?_)
    | split
    | dsimp only
    | intro)

theorem fr_kvpWord64 {L : List Part} {s₀ s : State} (h₀ : Frame L s₀ s) (v : View) (w : W64)
    (hL : ∀ p ∈ [Part.pciPending, .traceHead, .views, .pairs, .counters, .atLatch, .out, .domKvp, .domTir, .domMem, .domPoison], p ∈ L) :
    Frame L s₀ (State.kvpWord64 s v w) := by
  unfold State.kvpWord64
  repeat' (first
    | with_reducible assumption
    | exact sub_trans hL (by decide)
    | (extract_lets +onlyGivenNames x; subst x)
    | with_reducible apply fr_nextOf
    | with_reducible apply fr_execSeqOpen
    | with_reducible apply fr_execSeqClose
    | with_reducible apply fr_execKvpCommit
    | with_reducible apply fr_execKvpQuery
    | with_reducible apply fr_execSetDrop
    | with_reducible apply fr_kvpCmd
    | split
    | dsimp only
    | intro)

theorem fr_basWord64 {L : List Part} {s₀ s : State} (h₀ : Frame L s₀ s) (v : View) (w : W64)
    (hL : ∀ p ∈ [Part.pciPending, .bas, .traceHead, .mbds, .units, .views, .pairs, .counters, .commonsPoison, .freeFrames, .freeCtr, .out, .domPoison], p ∈ L) :
    Frame L s₀ (State.basWord64 s v w) := by
  unfold State.basWord64
  repeat' (first
    | with_reducible assumption
    | exact sub_trans hL (by decide)
    | (extract_lets +onlyGivenNames x; first
        | ((have y : Bool := x); clear y; clear_value x)
        | subst x)
    | with_reducible apply fr_nextOf
    | with_reducible apply fr_execBuild
    | with_reducible apply fr_execSwitch
    | with_reducible apply fr_execAbort
    | with_reducible apply fr_execBasStage
    | with_reducible apply fr_execBasUnstage
    | with_reducible apply fr_execBasQuery
    | with_reducible apply fr_basCmd
    | split
    | dsimp only
    | intro)

theorem fr_tirWord64 {L : List Part} {s₀ s : State} (h₀ : Frame L s₀ s) (v : View) (w : W64)
    (hL : ∀ p ∈ [Part.pciPending, .traceHead, .views, .pairs, .counters, .atLatch, .out, .domTir], p ∈ L) :
    Frame L s₀ (State.tirWord64 s v w) := by
  unfold State.tirWord64
  repeat' (first
    | with_reducible assumption
    | exact sub_trans hL (by decide)
    | (extract_lets +onlyGivenNames x; subst x)
    | with_reducible apply fr_nextOf
    | with_reducible apply fr_execMoveUp
    | with_reducible apply fr_execEvict
    | with_reducible apply fr_execPin
    | with_reducible apply fr_execUnpin
    | with_reducible apply fr_execTirQuery
    | with_reducible apply fr_execDiscard
    | with_reducible apply fr_execRelocate
    | with_reducible apply fr_execFlushExtent
    | with_reducible apply fr_tirCmd
    | split
    | dsimp only
    | intro)

theorem fr_tikWord64 {L : List Part} {s₀ s : State} (h₀ : Frame L s₀ s) (v : View) (w : W64)
    (hL : ∀ p ∈ [Part.pciPending, .traceHead, .views, .pairs, .counters, .out, .domPreempt], p ∈ L) :
    Frame L s₀ (State.tikWord64 s v w) := by
  unfold State.tikWord64
  repeat' (first
    | with_reducible assumption
    | exact sub_trans hL (by decide)
    | (extract_lets +onlyGivenNames x; ((have y : Nat := x); clear y; clear_value x))
    | with_reducible apply fr_preemptCmd
    | with_reducible apply fr_resumeCmd
    | with_reducible apply fr_runCmd
    | split)

theorem fr_lksWord64 {L : List Part} {s₀ s : State} (h₀ : Frame L s₀ s) (v : View) (w : W64)
    (hL : ∀ p ∈ [Part.fuses, .pci, .pciPending, .lks, .traceHead, .slots, .views, .pairs, .counters, .stretch, .latches, .commons, .commonsPoison, .freeFrames, .freeCtr, .out, .domLife, .domRecord, .domPreempt, .domQueue, .domSlabs, .domSched, .domVec, .domVar, .domUpd, .domKvp, .domTir, .domCol, .domKeys, .domMem, .domPoison], p ∈ L) :
    Frame L s₀ (State.lksWord64 s v w) := by
  unfold State.lksWord64
  repeat' (first
    | with_reducible assumption
    | exact sub_trans hL (by decide)
    | (extract_lets +onlyGivenNames x; first
        | ((have y : Nat := x); clear y; clear_value x)
        | subst x)
    | with_reducible apply fr_nextOf
    | with_reducible apply fr_execCreate
    | with_reducible apply fr_execResize
    | with_reducible apply fr_execDestroy
    | with_reducible apply fr_execLend
    | with_reducible apply fr_execReclaim
    | with_reducible apply fr_execMapShared
    | with_reducible apply fr_execUnmapShared
    | with_reducible apply fr_execSession
    | with_reducible apply fr_execRotate
    | with_reducible apply fr_execAttest
    | with_reducible apply fr_execIdentity
    | with_reducible apply fr_execKeyImport
    | with_reducible apply fr_execKeyDrop
    | with_reducible apply fr_execLifecycle
    | with_reducible apply fr_execSvnCommit
    | with_reducible apply fr_execCertInstall
    | with_reducible apply fr_lksCmd
    | split
    | dsimp only
    | intro)

theorem fr_writeArg {L : List Part} {s₀ s : State} (h₀ : Frame L s₀ s) (c : Nat) (p : Nat) (n : Nat) (o : Nat) (w : W64)
    (hL : ∀ p ∈ [Part.pairs], p ∈ L) :
    Frame L s₀ (State.writeArg s c p n o w) := by
  unfold State.writeArg
  repeat' (first
    | with_reducible assumption
    | exact sub_trans hL (by decide)
    | with_reducible apply fr_putArg
    | split)

theorem fr_writeQueue {L : List Part} {s₀ s : State} (h₀ : Frame L s₀ s) (fn : Fin 64) (o : Nat) (size : Nat) (w : W64)
    (hL : ∀ p ∈ [Part.pci, .pciPending, .traceHead, .views, .counters, .out, .domQueue, .domSlabs], p ∈ L) :
    Frame L s₀ (State.writeQueue s fn o size w) := by
  unfold State.writeQueue
  repeat' (first
    | with_reducible assumption
    | exact sub_trans hL (by decide)
    | with_reducible apply fr_nextOf
    | with_reducible apply fr_execSubmitWord
    | with_reducible apply fr_execQueueReset
    | split)

theorem fr_writeMsix {L : List Part} {s₀ s : State} (h₀ : Frame L s₀ s) (fn : Fin 64) (o : Nat) (w : Nat)
    (hL : ∀ p ∈ [Part.pci, .pciPending, .out], p ∈ L) :
    Frame L s₀ (State.writeMsix s fn o w) := by
  unfold State.writeMsix
  repeat' (first
    | with_reducible assumption
    | exact sub_trans hL (by decide)
    | with_reducible apply fr_updPci
    | with_reducible apply fr_nextOf
    | with_reducible apply fr_execMsixUnmask
    | split
    | exact Or.inr (fun _ => rfl)
    | with_reducible exact Or.inl (hL .pci (by decide)))

theorem fr_writeBar2 {L : List Part} {s₀ s : State} (h₀ : Frame L s₀ s) (fn : Fin 64) (o : Nat) (size : Nat) (w : W64)
    (hL : ∀ p ∈ [Part.pci, .pciPending, .traceHead, .views, .counters, .out, .domQueue, .domSlabs], p ∈ L) :
    Frame L s₀ (State.writeBar2 s fn o size w) := by
  unfold State.writeBar2
  repeat' (first
    | with_reducible assumption
    | exact sub_trans hL (by decide)
    | (extract_lets +onlyGivenNames x; (refine (fun (hx : Frame L s₀ x) => ?_) ?_; (on_goal 1 => clear_value x); (on_goal 2 => subst x)))
    | with_reducible apply fr_writeQueue
    | with_reducible apply fr_writeMsix
    | split)

theorem fr_execRetrain {L : List Part} {s₀ s : State} (h₀ : Frame L s₀ s) (v : View) (port : Fin 18)
    (hL : ∀ p ∈ [Part.pciPending, .fab, .traceHead, .views, .counters, .out], p ∈ L) :
    FrameOut L s₀ (execRetrain v port s) := by
  unfold execRetrain
  repeat' (first
    | with_reducible assumption
    | exact sub_trans hL (by decide)
    | with_reducible apply fr_retrainPort
    | with_reducible apply fro_next)

theorem fr_execPortEnable {L : List Part} {s₀ s : State} (h₀ : Frame L s₀ s) (v : View) (port : Fin 18) (enable : Bool)
    (hL : ∀ p ∈ [Part.pciPending, .fab, .traceHead, .views, .counters, .out], p ∈ L) :
    FrameOut L s₀ (execPortEnable v port enable s) := by
  unfold execPortEnable
  repeat' (first
    | with_reducible assumption
    | exact sub_trans hL (by decide)
    | with_reducible apply fr_enablePort
    | with_reducible apply fro_next)

theorem fr_execRecipeWrite {L : List Part} {s₀ s : State} (h₀ : Frame L s₀ s) (v : View) (row : Fin 7) (value : W32)
    (hL : ∀ p ∈ [Part.pciPending, .traceHead, .views, .counters, .atLatch, .out], p ∈ L) :
    FrameOut L s₀ (execRecipeWrite v row value s) := by
  unfold execRecipeWrite
  repeat' (first
    | with_reducible assumption
    | exact sub_trans hL (by decide)
    | with_reducible apply fr_writeRecipe
    | with_reducible apply fro_next)

theorem fr_execHistSelWrite {L : List Part} {s₀ s : State} (h₀ : Frame L s₀ s) (v : View) (slot : BitVec 7)
    (hL : ∀ p ∈ [Part.domVec], p ∈ L) :
    FrameOut L s₀ (execHistSelWrite v slot s) := by
  unfold execHistSelWrite
  repeat' (first
    | with_reducible assumption
    | exact sub_trans hL (by decide)
    | with_reducible apply fr_writeHistSel
    | with_reducible apply fro_next)

theorem fr_execHistCommit {L : List Part} {s₀ s : State} (h₀ : Frame L s₀ s) (v : View) (count : BitVec 5)
    (hL : ∀ p ∈ [Part.pciPending, .traceHead, .views, .counters, .out, .domVec], p ∈ L) :
    FrameOut L s₀ (execHistCommit v count s) := by
  unfold execHistCommit
  repeat' (first
    | with_reducible assumption
    | exact sub_trans hL (by decide)
    | with_reducible apply fr_commitHist
    | with_reducible apply fro_next)

theorem fr_execZsValueWrite {L : List Part} {s₀ s : State} (h₀ : Frame L s₀ s) (v : View) (value : W32)
    (hL : ∀ p ∈ [Part.domVec], p ∈ L) :
    FrameOut L s₀ (execZsValueWrite v value s) := by
  unfold execZsValueWrite
  repeat' (first
    | with_reducible assumption
    | exact sub_trans hL (by decide)
    | with_reducible apply fr_writeZs
    | with_reducible apply fro_next)

theorem fr_execLossScaleWrite {L : List Part} {s₀ s : State} (h₀ : Frame L s₀ s) (v : View) (value : W32)
    (hL : ∀ p ∈ [Part.domUpd], p ∈ L) :
    FrameOut L s₀ (execLossScaleWrite v value s) := by
  unfold execLossScaleWrite
  repeat' (first
    | with_reducible assumption
    | exact sub_trans hL (by decide)
    | with_reducible apply fr_writeLossScale
    | with_reducible apply fro_next)

theorem fr_execRetainWrite {L : List Part} {s₀ s : State} (h₀ : Frame L s₀ s) (v : View) (value : W32)
    (hL : ∀ p ∈ [Part.atLatch], p ∈ L) :
    FrameOut L s₀ (execRetainWrite v value s) := by
  unfold execRetainWrite
  repeat' (first
    | with_reducible assumption
    | exact sub_trans hL (by decide)
    | with_reducible apply fr_writeRetain
    | with_reducible apply fro_next)

theorem fr_execRegRateWrite {L : List Part} {s₀ s : State} (h₀ : Frame L s₀ s) (v : View) (value : W32)
    (hL : ∀ p ∈ [Part.pciPending, .traceHead, .views, .counters, .atLatch, .out], p ∈ L) :
    FrameOut L s₀ (execRegRateWrite v value s) := by
  unfold execRegRateWrite
  repeat' (first
    | with_reducible assumption
    | exact sub_trans hL (by decide)
    | with_reducible apply fr_writeRates
    | with_reducible apply fro_next)

theorem fr_execMaintWrite {L : List Part} {s₀ s : State} (h₀ : Frame L s₀ s) (v : View) (value : W32)
    (hL : ∀ p ∈ [Part.pciPending, .traceHead, .views, .counters, .atLatch, .out], p ∈ L) :
    FrameOut L s₀ (execMaintWrite v value s) := by
  unfold execMaintWrite
  repeat' (first
    | with_reducible assumption
    | exact sub_trans hL (by decide)
    | with_reducible apply fr_writeMaint
    | with_reducible apply fro_next)

theorem fr_execTickConfigWrite {L : List Part} {s₀ s : State} (h₀ : Frame L s₀ s) (v : View) (phase : Bool) (value : W32)
    (hL : ∀ p ∈ [Part.pciPending, .tik, .traceHead, .views, .counters, .out], p ∈ L) :
    FrameOut L s₀ (execTickConfigWrite v phase value s) := by
  unfold execTickConfigWrite
  repeat' (first
    | with_reducible assumption
    | exact sub_trans hL (by decide)
    | with_reducible apply fr_writeTick
    | with_reducible apply fro_next)

theorem fr_execShareWrite {L : List Part} {s₀ s : State} (h₀ : Frame L s₀ s) (v : View) (value : W32)
    (hL : ∀ p ∈ [Part.pciPending, .traceHead, .views, .counters, .atLatch, .out], p ∈ L) :
    FrameOut L s₀ (execShareWrite v value s) := by
  unfold execShareWrite
  repeat' (first
    | with_reducible assumption
    | exact sub_trans hL (by decide)
    | with_reducible apply fr_writeShare
    | with_reducible apply fro_next)

theorem fr_execPlanSlotsWrite {L : List Part} {s₀ s : State} (h₀ : Frame L s₀ s) (v : View) (value : W32)
    (hL : ∀ p ∈ [Part.pciPending, .traceHead, .views, .counters, .atLatch, .out], p ∈ L) :
    FrameOut L s₀ (execPlanSlotsWrite v value s) := by
  unfold execPlanSlotsWrite
  repeat' (first
    | with_reducible assumption
    | exact sub_trans hL (by decide)
    | with_reducible apply fr_writePlanSlots
    | with_reducible apply fro_next)

theorem fr_execFlashRateWrite {L : List Part} {s₀ s : State} (h₀ : Frame L s₀ s) (v : View) (value : W32)
    (hL : ∀ p ∈ [Part.pciPending, .traceHead, .views, .counters, .atLatch, .out], p ∈ L) :
    FrameOut L s₀ (execFlashRateWrite v value s) := by
  unfold execFlashRateWrite
  repeat' (first
    | with_reducible assumption
    | exact sub_trans hL (by decide)
    | with_reducible apply fr_writeFlashRate
    | with_reducible apply fro_next)

theorem fr_execPtagWrite {L : List Part} {s₀ s : State} (h₀ : Frame L s₀ s) (v : View) (value : W32)
    (hL : ∀ p ∈ [Part.pciPending, .traceHead, .views, .counters, .atLatch, .out], p ∈ L) :
    FrameOut L s₀ (execPtagWrite v value s) := by
  unfold execPtagWrite
  repeat' (first
    | with_reducible assumption
    | exact sub_trans hL (by decide)
    | with_reducible apply fr_writePtag
    | with_reducible apply fro_next)

theorem fr_execSlotTagWrite {L : List Part} {s₀ s : State} (h₀ : Frame L s₀ s) (v : View) (value : W32)
    (hL : ∀ p ∈ [Part.fab], p ∈ L) :
    FrameOut L s₀ (execSlotTagWrite v value s) := by
  unfold execSlotTagWrite
  repeat' (first
    | with_reducible assumption
    | exact sub_trans hL (by decide)
    | with_reducible apply fr_writeSlotTag
    | with_reducible apply fro_next)

theorem fr_execApply {L : List Part} {s₀ s : State} (h₀ : Frame L s₀ s) (v : View) (d : Fin 64)
    (hL : ∀ p ∈ [Part.domKeys], p ∈ L) :
    FrameOut L s₀ (execApply v d s) := by
  unfold execApply
  repeat' (first
    | with_reducible assumption
    | exact sub_trans hL (by decide)
    | with_reducible apply fr_applyKey
    | with_reducible apply fro_next)

theorem fr_execBlkEventClear {L : List Part} {s₀ s : State} (h₀ : Frame L s₀ s) (v : View) (page : Byte) (mask : W32)
    (hL : ∀ p ∈ [Part.views], p ∈ L) :
    FrameOut L s₀ (execBlkEventClear v page mask s) := by
  unfold execBlkEventClear
  repeat' (first
    | with_reducible assumption
    | exact sub_trans hL (by decide)
    | with_reducible apply fr_clearEvents
    | with_reducible apply fro_next)

theorem fr_execBlkEventEnWrite {L : List Part} {s₀ s : State} (h₀ : Frame L s₀ s) (v : View) (page : Byte) (mask : W32)
    (hL : ∀ p ∈ [Part.pciPending, .views, .out], p ∈ L) :
    FrameOut L s₀ (execBlkEventEnWrite v page mask s) := by
  unfold execBlkEventEnWrite
  repeat' (first
    | with_reducible assumption
    | exact sub_trans hL (by decide)
    | with_reducible apply fr_enableEvents
    | with_reducible apply fro_next)

theorem fr_execBlkEventSet {L : List Part} {s₀ s : State} (h₀ : Frame L s₀ s) (v : View) (page : Byte) (mask : W32)
    (hL : ∀ p ∈ [Part.pciPending, .views, .out], p ∈ L) :
    FrameOut L s₀ (execBlkEventSet v page mask s) := by
  unfold execBlkEventSet
  repeat' (first
    | with_reducible assumption
    | exact sub_trans hL (by decide)
    | with_reducible apply fr_setEvents
    | with_reducible apply fro_next)

theorem fr_execBlkLock {L : List Part} {s₀ s : State} (h₀ : Frame L s₀ s) (v : View) (page : Byte)
    (hL : ∀ p ∈ [Part.locked], p ∈ L) :
    FrameOut L s₀ (execBlkLock v page s) := by
  unfold execBlkLock
  repeat' (first
    | with_reducible assumption
    | exact sub_trans hL (by decide)
    | with_reducible apply fr_lockPage
    | with_reducible apply fro_next)

theorem fr_execCntModeWrite {L : List Part} {s₀ s : State} (h₀ : Frame L s₀ s) (v : View) (page : Byte) (mode : BitVec 2)
    (hL : ∀ p ∈ [Part.views], p ∈ L) :
    FrameOut L s₀ (execCntModeWrite v page mode s) := by
  unfold execCntModeWrite
  repeat' (first
    | with_reducible assumption
    | exact sub_trans hL (by decide)
    | with_reducible apply fr_setCntMode
    | with_reducible apply fro_next)

end Sys2Proof.Laws
end

