-- ==== Sys2Proof/Laws/FrameMonitor.lean ====
section
/-! SUPPORT. What the operations of Machine/Monitor.lean may change (Safety.Frame): each lemma lists the parts. -/

namespace Sys2Proof.Laws

open Sys2Proof.Machine Sys2Proof.Safety

theorem fmon_some {L : List Part} {s₀ t : State} {vs : List Nat} (h : Frame L s₀ t) :
    (some (vs, t)).elim True (fun r : List Nat × State => Frame L s₀ r.2) := h

theorem fmon_none {L : List Part} {s₀ : State} : (none : Option (List Nat × State)).elim True (fun r => Frame L s₀ r.2) := trivial

theorem fr_monitor {L : List Part} {s₀ s : State} (h₀ : Frame L s₀ s) (g : MonGroup) (f : State → Option (List Nat × State))
    (hf : (f s).elim True (fun r => Frame L s₀ r.2))
    (hL : ∀ p ∈ [Part.out], p ∈ L) : Frame L s₀ (s.monitor g f) := by
  unfold State.monitor
  split
  · exact h₀
  · split
    · cases e : f s with
      | none => exact fr_emit h₀ _ (sub_trans hL (by decide))
      | some r => rw [e] at hf; exact fr_emit hf _ (sub_trans hL (by decide))
    · exact fr_emit h₀ _ (sub_trans hL (by decide))

theorem fr_execId {L : List Part} {s₀ s : State} (h₀ : Frame L s₀ s) 
    (hL : ∀ p ∈ [Part.out], p ∈ L) :
    FrameOut L s₀ (execId s) := by
  unfold execId
  repeat' (first
    | with_reducible assumption
    | exact sub_trans hL (by decide)
    | with_reducible apply fr_monitor
    | with_reducible apply fro_next
    | with_reducible apply fmon_some)

theorem fr_execHealth {L : List Part} {s₀ s : State} (h₀ : Frame L s₀ s) 
    (hL : ∀ p ∈ [Part.out], p ∈ L) :
    FrameOut L s₀ (execHealth s) := by
  unfold execHealth
  repeat' (first
    | with_reducible assumption
    | exact sub_trans hL (by decide)
    | with_reducible apply fr_monitor
    | with_reducible apply fro_next
    | with_reducible apply fmon_some)

theorem fr_execChal {L : List Part} {s₀ s : State} (h₀ : Frame L s₀ s) 
    (hL : ∀ p ∈ [Part.out], p ∈ L) :
    FrameOut L s₀ (execChal s) := by
  unfold execChal
  repeat' (first
    | with_reducible assumption
    | exact sub_trans hL (by decide)
    | with_reducible apply fr_monitor
    | with_reducible apply fro_next
    | with_reducible apply fmon_some)

theorem fr_execUnlock {L : List Part} {s₀ s : State} (h₀ : Frame L s₀ s) (token : List Byte)
    (hL : ∀ p ∈ [Part.boot, .pciPending, .traceHead, .views, .counters, .out], p ∈ L) :
    FrameOut L s₀ (execUnlock token s) := by
  unfold execUnlock
  repeat' (first
    | with_reducible assumption
    | exact sub_trans hL (by decide)
    | with_reducible apply fr_emit
    | with_reducible apply fr_authFail
    | with_reducible apply fr_monitor
    | with_reducible apply fr_raiseDev
    | with_reducible apply fr_updBoot
    | split
    | with_reducible apply fro_next
    | with_reducible apply fmon_some)

theorem fr_execPeek {L : List Part} {s₀ s : State} (h₀ : Frame L s₀ s) (page : Byte) (offset : Nat)
    (hL : ∀ p ∈ [Part.out], p ∈ L) :
    FrameOut L s₀ (execPeek page offset s) := by
  unfold execPeek
  repeat' (first
    | with_reducible assumption
    | exact sub_trans hL (by decide)
    | (extract_lets +onlyGivenNames x; ((have y : Nat := x); clear y; clear_value x))
    | with_reducible apply fr_monitor
    | split
    | with_reducible apply fro_next
    | with_reducible apply fmon_some
    | with_reducible exact fmon_none)

theorem fr_execCount {L : List Part} {s₀ s : State} (h₀ : Frame L s₀ s) (page : Byte) (offset : Nat)
    (hL : ∀ p ∈ [Part.out], p ∈ L) :
    FrameOut L s₀ (execCount page offset s) := by
  unfold execCount
  repeat' (first
    | with_reducible assumption
    | exact sub_trans hL (by decide)
    | (extract_lets +onlyGivenNames x; ((have y : Nat := x); clear y; clear_value x))
    | with_reducible apply fr_monitor
    | split
    | with_reducible apply fro_next
    | with_reducible apply fmon_some
    | with_reducible exact fmon_none)

theorem fr_execTrace {L : List Part} {s₀ s : State} (h₀ : Frame L s₀ s) (index : Nat)
    (hL : ∀ p ∈ [Part.out], p ∈ L) :
    FrameOut L s₀ (execTrace index s) := by
  unfold execTrace
  repeat' (first
    | with_reducible assumption
    | exact sub_trans hL (by decide)
    | (extract_lets +onlyGivenNames x; ((have y : List Byte := x); clear y; clear_value x))
    | with_reducible apply fr_monitor
    | split
    | with_reducible apply fro_next
    | with_reducible apply fmon_some
    | with_reducible exact fmon_none)

theorem fr_execMem {L : List Part} {s₀ s : State} (h₀ : Frame L s₀ s) (d : Fin 64) (addr : Nat) (write : Option Byte)
    (hL : ∀ p ∈ [Part.out, .domTir, .domMem, .domPoison], p ∈ L) :
    FrameOut L s₀ (execMem d addr write s) := by
  unfold execMem
  repeat' (first
    | with_reducible assumption
    | exact sub_trans hL (by decide)
    | with_reducible apply fr_monitor
    | with_reducible apply fr_wrMem
    | split
    | with_reducible apply fro_next
    | with_reducible apply fmon_some
    | with_reducible exact fmon_none)

theorem fr_execDomread {L : List Part} {s₀ s : State} (h₀ : Frame L s₀ s) (d : Fin 64) (page : Byte) (offset : Nat)
    (hL : ∀ p ∈ [Part.out], p ∈ L) :
    FrameOut L s₀ (execDomread d page offset s) := by
  unfold execDomread
  repeat' (first
    | with_reducible assumption
    | exact sub_trans hL (by decide)
    | (extract_lets +onlyGivenNames x; first
        | ((have y : Nat := x); clear y; clear_value x)
        | subst x)
    | with_reducible apply fr_monitor
    | split
    | with_reducible apply fro_next
    | with_reducible apply fmon_some
    | with_reducible exact fmon_none)

end Sys2Proof.Laws
end

