-- ==== Sys2Proof/Laws/Post.lean ====
section
/-! SUPPORT. What posting a result (R123) keeps in each field of the state. -/

namespace Sys2Proof.Laws

open Sys2Proof.Machine Sys2Proof.Safety

@[simp] theorem postResult_pending (s : State) (c p r : Nat) : (s.postResult c p r).pending = s.pending := (postResult_frame s c p r).pending
@[simp] theorem postResult_boot (s : State) (c p r : Nat) : (s.postResult c p r).boot = s.boot := (postResult_frame s c p r).kept .boot (by decide)
@[simp] theorem postResult_fuses (s : State) (c p r : Nat) : (s.postResult c p r).fuses = s.fuses := (postResult_frame s c p r).kept .fuses (by decide)
@[simp] theorem postResult_tik (s : State) (c p r : Nat) : (s.postResult c p r).tik = s.tik := (postResult_frame s c p r).kept .tik (by decide)
@[simp] theorem postResult_pwr (s : State) (c p r : Nat) : (s.postResult c p r).pwr = s.pwr := (postResult_frame s c p r).kept .pwr (by decide)
@[simp] theorem postResult_bdg (s : State) (c p r : Nat) : (s.postResult c p r).bdg = s.bdg := (postResult_frame s c p r).kept .bdg (by decide)
@[simp] theorem postResult_memg (s : State) (c p r : Nat) : (s.postResult c p r).memg = s.memg := (postResult_frame s c p r).kept .memg (by decide)
@[simp] theorem postResult_nvm (s : State) (c p r : Nat) : (s.postResult c p r).nvm = s.nvm := (postResult_frame s c p r).kept .nvm (by decide)
@[simp] theorem postResult_bas (s : State) (c p r : Nat) : (s.postResult c p r).bas = s.bas := (postResult_frame s c p r).kept .bas (by decide)
@[simp] theorem postResult_fab (s : State) (c p r : Nat) : (s.postResult c p r).fab = s.fab := (postResult_frame s c p r).kept .fab (by decide)
@[simp] theorem postResult_lks (s : State) (c p r : Nat) : (s.postResult c p r).lks = s.lks := (postResult_frame s c p r).kept .lks (by decide)
@[simp] theorem postResult_ful (s : State) (c p r : Nat) : (s.postResult c p r).ful = s.ful := (postResult_frame s c p r).kept .ful (by decide)
@[simp] theorem postResult_slots (s : State) (c p r : Nat) : (s.postResult c p r).slots = s.slots := (postResult_frame s c p r).kept .slots (by decide)
@[simp] theorem postResult_mbds (s : State) (c p r : Nat) : (s.postResult c p r).mbds = s.mbds := (postResult_frame s c p r).kept .mbds (by decide)
@[simp] theorem postResult_units (s : State) (c p r : Nat) : (s.postResult c p r).units = s.units := (postResult_frame s c p r).kept .units (by decide)
@[simp] theorem postResult_recipe (s : State) (c p r : Nat) : (s.postResult c p r).recipe = s.recipe := (postResult_frame s c p r).kept .recipe (by decide)
@[simp] theorem postResult_stretch (s : State) (c p r : Nat) : (s.postResult c p r).stretch = s.stretch := (postResult_frame s c p r).kept .stretch (by decide)
@[simp] theorem postResult_latches (s : State) (c p r : Nat) : (s.postResult c p r).latches = s.latches := (postResult_frame s c p r).kept .latches (by decide)
@[simp] theorem postResult_locked (s : State) (c p r : Nat) : (s.postResult c p r).locked = s.locked := (postResult_frame s c p r).kept .locked (by decide)
@[simp] theorem postResult_sels (s : State) (c p r : Nat) : (s.postResult c p r).sels = s.sels := (postResult_frame s c p r).kept .sels (by decide)
@[simp] theorem postResult_commons (s : State) (c p r : Nat) : (s.postResult c p r).commons = s.commons := (postResult_frame s c p r).kept .commons (by decide)
@[simp] theorem postResult_acc (s : State) (c p r : Nat) : (s.postResult c p r).acc = s.acc := (postResult_frame s c p r).kept .acc (by decide)
@[simp] theorem postResult_opbuf (s : State) (c p r : Nat) : (s.postResult c p r).opbuf = s.opbuf := (postResult_frame s c p r).kept .opbuf (by decide)
@[simp] theorem postResult_freeFrames (s : State) (c p r : Nat) : (s.postResult c p r).freeFrames = s.freeFrames := (postResult_frame s c p r).kept .freeFrames (by decide)
@[simp] theorem postResult_atLatch (s : State) (c p r : Nat) : (s.postResult c p r).atLatch = s.atLatch := (postResult_frame s c p r).kept .atLatch (by decide)
@[simp] theorem postResult_freeCtr (s : State) (c p r : Nat) : (s.postResult c p r).freeCtr = s.freeCtr := (postResult_frame s c p r).kept .freeCtr (by decide)
@[simp] theorem postResult_commonsPoison (s : State) (c p r : Nat) : (s.postResult c p r).commonsPoison = s.commonsPoison :=
  ((postResult_frame s c p r).kept .commonsPoison (by decide)).1
@[simp] theorem postResult_slot (s : State) (c p r : Nat) (e : Nat) : (s.postResult c p r).slot e = s.slot e := by
  unfold State.slot; rw [postResult_slots]
@[simp] theorem postResult_mbd (s : State) (c p r : Nat) (e : Nat) : (s.postResult c p r).mbd e = s.mbd e := by
  unfold State.mbd; rw [postResult_mbds]
@[simp] theorem postResult_port (s : State) (c p r : Nat) (e : Nat) : (s.postResult c p r).port e = s.port e := by
  unfold State.port; rw [postResult_fab]
@[simp] theorem postResult_unit (s : State) (c p r : Nat) (e : Nat) : (s.postResult c p r).unit e = s.unit e := by
  unfold State.unit; rw [postResult_units]
@[simp] theorem postResult_copy (s : State) (c p r : Nat) (e : Nat) : (s.postResult c p r).copy e = s.copy e := by
  unfold State.copy; rw [postResult_bas]
@[simp] theorem postResult_dom_phase (s : State) (c p r : Nat) (e : Nat) : ((s.postResult c p r).dom e).phase = (s.dom e).phase :=
  ((postResult_frame s c p r).kept .domLife (by decide) e).1
@[simp] theorem postResult_dom_held (s : State) (c p r : Nat) (e : Nat) : ((s.postResult c p r).dom e).held = (s.dom e).held :=
  ((postResult_frame s c p r).kept .domLife (by decide) e).2.1
@[simp] theorem postResult_dom_created (s : State) (c p r : Nat) (e : Nat) : ((s.postResult c p r).dom e).created = (s.dom e).created :=
  ((postResult_frame s c p r).kept .domLife (by decide) e).2.2.1
@[simp] theorem postResult_dom_activeAt (s : State) (c p r : Nat) (e : Nat) : ((s.postResult c p r).dom e).activeAt = (s.dom e).activeAt :=
  ((postResult_frame s c p r).kept .domLife (by decide) e).2.2.2.1
@[simp] theorem postResult_dom_doneDue (s : State) (c p r : Nat) (e : Nat) : ((s.postResult c p r).dom e).doneDue = (s.dom e).doneDue :=
  ((postResult_frame s c p r).kept .domLife (by decide) e).2.2.2.2.1
@[simp] theorem postResult_dom_teardownAt (s : State) (c p r : Nat) (e : Nat) : ((s.postResult c p r).dom e).teardownAt = (s.dom e).teardownAt :=
  ((postResult_frame s c p r).kept .domLife (by decide) e).2.2.2.2.2.1
@[simp] theorem postResult_dom_requests (s : State) (c p r : Nat) (e : Nat) : ((s.postResult c p r).dom e).requests = (s.dom e).requests :=
  ((postResult_frame s c p r).kept .domLife (by decide) e).2.2.2.2.2.2.1
@[simp] theorem postResult_dom_leaving (s : State) (c p r : Nat) (e : Nat) : ((s.postResult c p r).dom e).leaving = (s.dom e).leaving :=
  ((postResult_frame s c p r).kept .domLife (by decide) e).2.2.2.2.2.2.2.1
@[simp] theorem postResult_dom_scrubEnded (s : State) (c p r : Nat) (e : Nat) : ((s.postResult c p r).dom e).scrubEnded = (s.dom e).scrubEnded :=
  ((postResult_frame s c p r).kept .domLife (by decide) e).2.2.2.2.2.2.2.2.1
@[simp] theorem postResult_dom_scrubStartNs (s : State) (c p r : Nat) (e : Nat) : ((s.postResult c p r).dom e).scrubStartNs = (s.dom e).scrubStartNs :=
  ((postResult_frame s c p r).kept .domLife (by decide) e).2.2.2.2.2.2.2.2.2
@[simp] theorem postResult_dom_rec_ (s : State) (c p r : Nat) (e : Nat) : ((s.postResult c p r).dom e).rec_ = (s.dom e).rec_ :=
  ((postResult_frame s c p r).kept .domRecord (by decide) e).1
@[simp] theorem postResult_dom_ovh (s : State) (c p r : Nat) (e : Nat) : ((s.postResult c p r).dom e).ovh = (s.dom e).ovh :=
  ((postResult_frame s c p r).kept .domRecord (by decide) e).2.1
@[simp] theorem postResult_dom_loan (s : State) (c p r : Nat) (e : Nat) : ((s.postResult c p r).dom e).loan = (s.dom e).loan :=
  ((postResult_frame s c p r).kept .domRecord (by decide) e).2.2
@[simp] theorem postResult_dom_preempted (s : State) (c p r : Nat) (e : Nat) : ((s.postResult c p r).dom e).preempted = (s.dom e).preempted :=
  ((postResult_frame s c p r).kept .domPreempt (by decide) e).1
@[simp] theorem postResult_dom_saving (s : State) (c p r : Nat) (e : Nat) : ((s.postResult c p r).dom e).saving = (s.dom e).saving :=
  ((postResult_frame s c p r).kept .domPreempt (by decide) e).2.1
@[simp] theorem postResult_dom_restoring (s : State) (c p r : Nat) (e : Nat) : ((s.postResult c p r).dom e).restoring = (s.dom e).restoring :=
  ((postResult_frame s c p r).kept .domPreempt (by decide) e).2.2.1
@[simp] theorem postResult_dom_saveCommons (s : State) (c p r : Nat) (e : Nat) : ((s.postResult c p r).dom e).saveCommons = (s.dom e).saveCommons :=
  ((postResult_frame s c p r).kept .domPreempt (by decide) e).2.2.2.1
@[simp] theorem postResult_dom_preemptAt (s : State) (c p r : Nat) (e : Nat) : ((s.postResult c p r).dom e).preemptAt = (s.dom e).preemptAt :=
  ((postResult_frame s c p r).kept .domPreempt (by decide) e).2.2.2.2.1
@[simp] theorem postResult_dom_resumeAt (s : State) (c p r : Nat) (e : Nat) : ((s.postResult c p r).dom e).resumeAt = (s.dom e).resumeAt :=
  ((postResult_frame s c p r).kept .domPreempt (by decide) e).2.2.2.2.2.1
@[simp] theorem postResult_dom_savedAcc (s : State) (c p r : Nat) (e : Nat) : ((s.postResult c p r).dom e).savedAcc = (s.dom e).savedAcc :=
  ((postResult_frame s c p r).kept .domPreempt (by decide) e).2.2.2.2.2.2.1
@[simp] theorem postResult_dom_savedOpbuf (s : State) (c p r : Nat) (e : Nat) : ((s.postResult c p r).dom e).savedOpbuf = (s.dom e).savedOpbuf :=
  ((postResult_frame s c p r).kept .domPreempt (by decide) e).2.2.2.2.2.2.2.1
@[simp] theorem postResult_dom_savedCommons (s : State) (c p r : Nat) (e : Nat) : ((s.postResult c p r).dom e).savedCommons = (s.dom e).savedCommons :=
  ((postResult_frame s c p r).kept .domPreempt (by decide) e).2.2.2.2.2.2.2.2
@[simp] theorem postResult_dom_queue (s : State) (c p r : Nat) (e : Nat) : ((s.postResult c p r).dom e).queue = (s.dom e).queue :=
  ((postResult_frame s c p r).kept .domQueue (by decide) e)
@[simp] theorem postResult_dom_nextOrder (s : State) (c p r : Nat) (e : Nat) : ((s.postResult c p r).dom e).nextOrder = (s.dom e).nextOrder :=
  ((postResult_frame s c p r).kept .domSlabs (by decide) e).1
@[simp] theorem postResult_dom_slabs (s : State) (c p r : Nat) (e : Nat) : ((s.postResult c p r).dom e).slabs = (s.dom e).slabs :=
  ((postResult_frame s c p r).kept .domSlabs (by decide) e).2.1
@[simp] theorem postResult_dom_devSlabs (s : State) (c p r : Nat) (e : Nat) : ((s.postResult c p r).dom e).devSlabs = (s.dom e).devSlabs :=
  ((postResult_frame s c p r).kept .domSlabs (by decide) e).2.2.1
@[simp] theorem postResult_dom_devNext (s : State) (c p r : Nat) (e : Nat) : ((s.postResult c p r).dom e).devNext = (s.dom e).devNext :=
  ((postResult_frame s c p r).kept .domSlabs (by decide) e).2.2.2.1
@[simp] theorem postResult_dom_batches (s : State) (c p r : Nat) (e : Nat) : ((s.postResult c p r).dom e).batches = (s.dom e).batches :=
  ((postResult_frame s c p r).kept .domSlabs (by decide) e).2.2.2.2.1
@[simp] theorem postResult_dom_lastOperand (s : State) (c p r : Nat) (e : Nat) : ((s.postResult c p r).dom e).lastOperand = (s.dom e).lastOperand :=
  ((postResult_frame s c p r).kept .domSlabs (by decide) e).2.2.2.2.2
@[simp] theorem postResult_dom_quota0 (s : State) (c p r : Nat) (e : Nat) : ((s.postResult c p r).dom e).quota0 = (s.dom e).quota0 :=
  ((postResult_frame s c p r).kept .domSched (by decide) e).1
@[simp] theorem postResult_dom_weight (s : State) (c p r : Nat) (e : Nat) : ((s.postResult c p r).dom e).weight = (s.dom e).weight :=
  ((postResult_frame s c p r).kept .domSched (by decide) e).2.1
@[simp] theorem postResult_dom_slots (s : State) (c p r : Nat) (e : Nat) : ((s.postResult c p r).dom e).slots = (s.dom e).slots :=
  ((postResult_frame s c p r).kept .domSched (by decide) e).2.2.1
@[simp] theorem postResult_dom_rtUj (s : State) (c p r : Nat) (e : Nat) : ((s.postResult c p r).dom e).rtUj = (s.dom e).rtUj :=
  ((postResult_frame s c p r).kept .domSched (by decide) e).2.2.2.1
@[simp] theorem postResult_dom_rtFirst (s : State) (c p r : Nat) (e : Nat) : ((s.postResult c p r).dom e).rtFirst = (s.dom e).rtFirst :=
  ((postResult_frame s c p r).kept .domSched (by decide) e).2.2.2.2.1
@[simp] theorem postResult_dom_rtUnits (s : State) (c p r : Nat) (e : Nat) : ((s.postResult c p r).dom e).rtUnits = (s.dom e).rtUnits :=
  ((postResult_frame s c p r).kept .domSched (by decide) e).2.2.2.2.2.1
@[simp] theorem postResult_dom_allow (s : State) (c p r : Nat) (e : Nat) : ((s.postResult c p r).dom e).allow = (s.dom e).allow :=
  ((postResult_frame s c p r).kept .domSched (by decide) e).2.2.2.2.2.2.1
@[simp] theorem postResult_dom_lagNs (s : State) (c p r : Nat) (e : Nat) : ((s.postResult c p r).dom e).lagNs = (s.dom e).lagNs :=
  ((postResult_frame s c p r).kept .domSched (by decide) e).2.2.2.2.2.2.2.1
@[simp] theorem postResult_dom_lagNext (s : State) (c p r : Nat) (e : Nat) : ((s.postResult c p r).dom e).lagNext = (s.dom e).lagNext :=
  ((postResult_frame s c p r).kept .domSched (by decide) e).2.2.2.2.2.2.2.2.1
@[simp] theorem postResult_dom_rate (s : State) (c p r : Nat) (e : Nat) : ((s.postResult c p r).dom e).rate = (s.dom e).rate :=
  ((postResult_frame s c p r).kept .domSched (by decide) e).2.2.2.2.2.2.2.2.2.1
@[simp] theorem postResult_dom_rateT (s : State) (c p r : Nat) (e : Nat) : ((s.postResult c p r).dom e).rateT = (s.dom e).rateT :=
  ((postResult_frame s c p r).kept .domSched (by decide) e).2.2.2.2.2.2.2.2.2.2.1
@[simp] theorem postResult_dom_energyFrac (s : State) (c p r : Nat) (e : Nat) : ((s.postResult c p r).dom e).energyFrac = (s.dom e).energyFrac :=
  ((postResult_frame s c p r).kept .domSched (by decide) e).2.2.2.2.2.2.2.2.2.2.2
@[simp] theorem postResult_dom_vec (s : State) (c p r : Nat) (e : Nat) : ((s.postResult c p r).dom e).vec = (s.dom e).vec :=
  ((postResult_frame s c p r).kept .domVec (by decide) e)
@[simp] theorem postResult_dom_var_ (s : State) (c p r : Nat) (e : Nat) : ((s.postResult c p r).dom e).var_ = (s.dom e).var_ :=
  ((postResult_frame s c p r).kept .domVar (by decide) e)
@[simp] theorem postResult_dom_upd (s : State) (c p r : Nat) (e : Nat) : ((s.postResult c p r).dom e).upd = (s.dom e).upd :=
  ((postResult_frame s c p r).kept .domUpd (by decide) e)
@[simp] theorem postResult_dom_kvp (s : State) (c p r : Nat) (e : Nat) : ((s.postResult c p r).dom e).kvp = (s.dom e).kvp :=
  ((postResult_frame s c p r).kept .domKvp (by decide) e)
@[simp] theorem postResult_dom_tir (s : State) (c p r : Nat) (e : Nat) : ((s.postResult c p r).dom e).tir = (s.dom e).tir :=
  ((postResult_frame s c p r).kept .domTir (by decide) e)
@[simp] theorem postResult_dom_col (s : State) (c p r : Nat) (e : Nat) : ((s.postResult c p r).dom e).col = (s.dom e).col :=
  ((postResult_frame s c p r).kept .domCol (by decide) e)
@[simp] theorem postResult_dom_keys (s : State) (c p r : Nat) (e : Nat) : ((s.postResult c p r).dom e).keys = (s.dom e).keys :=
  ((postResult_frame s c p r).kept .domKeys (by decide) e)
@[simp] theorem postResult_dom_poison (s : State) (c p r : Nat) (e : Nat) : ((s.postResult c p r).dom e).poison = (s.dom e).poison :=
  ((postResult_frame s c p r).kept .domPoison (by decide) e)

theorem postResult_onlyDom (s : State) (c p r d : Nat) : OnlyDom s (s.postResult c p r) d :=
  onlyDom_frame (postResult_frame s c p r) d (by decide)

theorem raiseDom_onlyDom (s : State) (p b e d : Nat) : OnlyDom s (s.raiseDom p b e) d := onlyDom_frame (raiseDom_frame s p b e) d (by decide)

theorem raiseDev_onlyDom (s : State) (p b d : Nat) : OnlyDom s (s.raiseDev p b) d := onlyDom_frame (raiseDev_frame s p b) d (by decide)

theorem raiseCopy_onlyDom (s : State) (p b c d : Nat) : OnlyDom s (s.raiseCopy p b c) d :=
  onlyDom_frame (raiseCopy_frame s p b c) d (by decide)

end Sys2Proof.Laws
end

