-- ==== Sys2Proof/Laws/Store.lean ====
section
/-! SUPPORT. What a store does to the bytes of a domain's range (R262, R287): the bytes stored, and every other byte as before. -/

namespace Sys2Proof.Laws

open Sys2Proof.Machine Sys2Proof.Safety

/-- A store leaves every byte outside it as it was, whatever is poisoned. -/
theorem dom_wrMem_outside (x : Dom) (a : Nat) (bs : List Byte) (b : Nat) (h : ¬ (a ≤ b ∧ b < a + bs.length)) :
    memRead (x.wrMem a bs).mem b = memRead x.mem b := by
  unfold Dom.wrMem
  split
  · dsimp only
    refine foldl_keeps (fun y : Dom => memRead y.mem b = memRead x.mem b) _ (fun y k hy => ?_) _ rfl
    have put : memRead (memPut y.mem (max a (64 * k))
        (List.take (min (a + bs.length) (64 * k + 64) - max a (64 * k)) (List.drop (max a (64 * k) - a) bs))) b = memRead x.mem b := by
      rw [memRead_memPut, if_neg, hy]
      intro ⟨h1, h2⟩
      rw [List.length_take, List.length_drop] at h2
      exact h ⟨by omega, by omega⟩
    split
    · split
      · exact put
      · exact hy
    · exact put
  · rw [memRead_memPut, if_neg h]

/-- A store where no block is poisoned puts its bytes. -/
theorem dom_wrMem_inside (x : Dom) (a : Nat) (bs : List Byte) (b : Nat) (hp : poisonHit x.poison 64 a bs.length = false)
    (h : a ≤ b ∧ b < a + bs.length) : memRead (x.wrMem a bs).mem b = bs.getD (b - a) 0 := by
  unfold Dom.wrMem
  rw [if_neg (by simp [hp]), memRead_memPut, if_pos h]

theorem dom_touch_mem (x : Dom) (a n : Nat) : (x.touch a n).mem = x.mem := by
  unfold Dom.touch
  split
  · rfl
  · refine foldl_keeps (fun y : Dom => y.mem = x.mem) _ (fun y p hy => ?_) _ rfl
    exact hy

theorem dom_wrMem_frame (x : Dom) (a : Nat) (bs : List Byte) :
    DomFrame [Part.domTir, .domMem, .domPoison] x ((x.wrMem a bs).touch a bs.length) :=
  dfr_touch (dfr_wrMem (dfr_refl _ x) a bs (by decide)) a bs.length (by decide)

theorem wrMem_mem_outside (s : State) (d a : Nat) (bs : List Byte) (b : Nat) (h : ¬ (a ≤ b ∧ b < a + bs.length)) :
    memRead ((s.wrMem d a bs).dom d).mem b = memRead (s.dom d).mem b := by
  unfold State.wrMem
  split
  · rfl
  · rw [dom_updDom_self, dom_touch_mem, dom_wrMem_outside _ _ _ _ h]

theorem wrMem_mem_inside (s : State) (d a : Nat) (bs : List Byte) (b : Nat) (hp : poisonHit (s.dom d).poison 64 a bs.length = false)
    (h : a ≤ b ∧ b < a + bs.length) : memRead ((s.wrMem d a bs).dom d).mem b = bs.getD (b - a) 0 := by
  unfold State.wrMem
  split
  · next e =>
    have : bs = [] := by simpa using e
    subst this
    simp at h
    omega
  · rw [dom_updDom_self, dom_touch_mem, dom_wrMem_inside _ _ _ _ hp h]

theorem wrMem_onlyDom (s : State) (d a : Nat) (bs : List Byte) : OnlyDom s (s.wrMem d a bs) d := by
  unfold State.wrMem
  split
  · exact onlyDom_refl _ _
  · exact onlyDom_putDom _ _ _

theorem wrMem_frame (s : State) (d a : Nat) (bs : List Byte) : Frame [Part.domTir, .domMem, .domPoison] s (s.wrMem d a bs) :=
  fr_wrMem (fr_refl _ s) d a bs (fun _ h => h)

theorem wrCommons_read (s : State) (o : Nat) (bs : List Byte) (b : Nat) :
    memRead (s.wrCommons o bs).commons b = if o ≤ b ∧ b < o + bs.length then bs.getD (b - o) 0 else memRead s.commons b :=
  memRead_memPut _ _ _ _

/-! Runs of bytes -/

theorem memRead_cons (k : Nat) (b : Byte) (r : List Host.Cell) (a : Nat) :
    memRead ((k, b) :: r) a = if k = a then b else memRead r a := by
  unfold memRead
  rw [mapGet_cons]
  split <;> simp_all

theorem memRead_before (m : List Host.Cell) (a : Nat) (h : ∀ c ∈ m, a < c.1) : memRead m a = 0 := by
  induction m with
  | nil => rfl
  | cons c r ih =>
    have := h c (by simp)
    rw [memRead_cons, if_neg (by omega)]
    exact ih (fun d hd => h d (List.mem_cons_of_mem _ hd))

theorem memWalk_get (n : Nat) : ∀ (a : Nat) (m : List Host.Cell), m.Pairwise (fun x y => x.1 < y.1) → (∀ c ∈ m, a ≤ c.1) → ∀ i,
    (memWalk n a m).getD i 0 = if i < n then memRead m (a + i) else 0 := by
  induction n with
  | zero => intro a m _ _ i; simp [memWalk]
  | succ n ih =>
    intro a m hp hm i
    match m, hp, hm with
    | [], _, _ =>
      unfold memWalk
      cases i with
      | zero => simp [memRead]
      | succ i =>
        rw [List.getD_cons_succ, ih (a + 1) [] List.Pairwise.nil (by simp) i]
        simp [memRead]
    | (k, b) :: r, hp, hm =>
      obtain ⟨hk, hr⟩ := List.pairwise_cons.1 hp
      have ha : a ≤ k := hm (k, b) (by simp)
      unfold memWalk
      split
      · next e =>
        subst e
        cases i with
        | zero => rw [List.getD_cons_zero, memRead_cons]; simp
        | succ i =>
          have e1 : memRead ((k, b) :: r) (k + (i + 1)) = memRead r (k + 1 + i) := by
            rw [memRead_cons, if_neg (by omega), show k + (i + 1) = k + 1 + i by omega]
          rw [List.getD_cons_succ, ih (k + 1) r hr (fun c hc => hk c hc) i, e1]
          simp only [Nat.add_lt_add_iff_right]
      · next e =>
        cases i with
        | zero =>
          rw [List.getD_cons_zero, if_pos (by omega), Nat.add_zero, memRead_before _ a ?_]
          intro c hc
          rcases List.mem_cons.1 hc with rfl | h
          · show a < k; omega
          · have := hk c h; simp only at this; omega
        | succ i =>
          rw [List.getD_cons_succ, ih (a + 1) ((k, b) :: r) hp (fun c hc => ?_) i]
          · simp only [show a + 1 + i = a + (i + 1) by omega, Nat.add_lt_add_iff_right]
          · rcases List.mem_cons.1 hc with rfl | h
            · show a + 1 ≤ k; omega
            · have := hk c h; simp only at this; omega

/-- A run of bytes of a canonical memory is its bytes, address by address. -/

theorem memGet_get (m : List Host.Cell) (h : memWf m = true) (a n i : Nat) :
    (memGet m a n).getD i 0 = if i < n then memRead m (a + i) else 0 := by
  have hw := ((memWf_iff m).1 h).1
  unfold memGet
  have key : ∀ (m : List Host.Cell), m.Pairwise (fun x y => x.1 < y.1) →
      (∀ c ∈ m.dropWhile (fun c => decide (c.1 < a)), a ≤ c.1) ∧
      ∀ j, a ≤ j → memRead (m.dropWhile (fun c => decide (c.1 < a))) j = memRead m j := by
    intro m
    induction m with
    | nil => intro _; exact ⟨by simp, fun _ _ => rfl⟩
    | cons c r ih =>
      intro hp
      obtain ⟨hk, hr⟩ := List.pairwise_cons.1 hp
      by_cases hc : c.1 < a
      · rw [List.dropWhile_cons_of_pos (by simpa using hc)]
        refine ⟨(ih hr).1, fun j hj => ?_⟩
        rw [(ih hr).2 j hj, memRead_cons, if_neg (by omega)]
      · rw [List.dropWhile_cons_of_neg (by simpa using hc)]
        refine ⟨fun d hd => ?_, fun _ _ => rfl⟩
        rcases List.mem_cons.1 hd with rfl | h'
        · omega
        · have := hk d h'; omega
  obtain ⟨k1, k2⟩ := key m hw
  rw [memWalk_get n a _ (hw.sublist (List.dropWhile_sublist _)) k1 i]
  split
  · exact k2 _ (by omega)
  · rfl

theorem memWalk_length (n : Nat) : ∀ (a : Nat) (m : List Host.Cell), (memWalk n a m).length = n := by
  induction n with
  | zero => intros; rfl
  | succ n ih =>
    intro a m
    match m with
    | [] => unfold memWalk; simp [ih]
    | (k, b) :: r => unfold memWalk; split <;> simp [ih]

@[simp] theorem memGet_length (m : List Host.Cell) (a n : Nat) : (memGet m a n).length = n := memWalk_length _ _ _

end Sys2Proof.Laws
end

