-- ==== Sys2Proof/WellFormed.lean ====
section
/-! DEFINITION. Which commands a sender can form: operands inside the ranges of their encodings. A command that is not well-formed names nothing the device has; the meanings leave the state unchanged for it (log 4). -/

namespace Sys2Proof

/-- A view that exists: region 0 to 63 of the PF, or VF 1 to 63 (R463, R464). -/
def View.wf : View → Bool
  | .pf _ => true
  | .vf n => n.val ≠ 0

/-- A register access of an accepted size and alignment (R473): 4 or 8 bytes, aligned. -/
def accessOk (offset size : Nat) : Bool :=
  (size == 4 || size == 8) && offset % size == 0

/-- A fabric transaction whose header fields fit their widths (R377). -/
def Txn.wf (t : Txn) : Bool :=
  decide (t.dst < 2 ^ 15) && decide (t.src < 2 ^ 15) && decide (t.status < 16) && decide (t.addr < 2 ^ 48)
    && decide (t.nblk ≤ 3) && t.slots.all (fun b => b.length == 64)

/-- The checks on the operands of a command. -/
def Instr.wf : Instr → Bool
  | .submitWord _ words _ => decide (words.length ≤ 64)
  | .hostWindowWrite _ o bytes _ => decide (o + bytes.length ≤ 2 ^ 26)
  | .hostWindowRead _ o n => decide (o + n ≤ 2 ^ 26)
  | .msixUnmask fn v => if fn.val = 0 then decide (v < 2048) else decide (v < 64)
  | .tickSymbolReceive _ sym _ => decide (5000 ≤ sym.len) && decide (sym.len ≤ 2000000)
  | .portTrainingDone _ _ dev_ port _ _ _ => decide (dev_ < 2 ^ 15) && decide (port < 18)
  | .flitReceive _ bytes _ _ => bytes.length == 256
  | .rdReq t _ | .wr t _ | .radd t _ | .atom t _ | .stripeReq t _ => t.wf
  | .rdResp t | .wrAck t | .raddAck t | .atomResp t | .collData t _ _ => t.wf
  | .stripeResp t => t.what.wf
  | .recipeWrite v _ _ | .histCommit v _ | .histSelWrite v _ => v.wf
  | .registerWrite v _ o n _ => v.wf && accessOk o n
  | .counterLowRead v _ o | .counterHighRead v _ o => v.wf && decide (o < 4096)
  | .kvpGeomWrite v _ | .pwrBoundsWrite v _ | .pwrTargetsWrite v _ | .zsValueWrite v _ | .lossScaleWrite v _
  | .retainWrite v _ | .regRateWrite v _ | .maintWrite v _ | .tickConfigWrite v _ _ | .shareWrite v _
  | .planSlotsWrite v _ | .flashRateWrite v _ | .ptagWrite v _ | .slotTagWrite v _ | .apply v _
  | .traceCfgWrite v _ | .blkEventClear v _ _ | .blkEventEnWrite v _ _ | .blkEventSet v _ _ | .blkLock v _
  | .cntModeWrite v _ _ | .retrain v _ | .portEnable v _ _ | .measure v => v.wf
  | .claim v _ _ _ _ | .load v _ _ _ _ | .park v _ _ _ _ | .release v _ _ _ _ | .stage v _ _ _ _
  | .unstage v _ _ _ _ | .varQuery v _ _ _ _ | .expertClaim v _ _ _ _ | .expertRelease v _ _ _ _
  | .flush v _ _ _ _ => v.wf
  | .seqOpen v _ _ _ | .seqClose v _ _ _ | .kvpCommit v _ _ _ | .kvpQuery v _ _ _ | .setDrop v _ _ _ => v.wf
  | .build v _ _ _ | .switch v _ _ _ | .abort v _ _ _ | .basStage v _ _ _ | .basUnstage v _ _ _
  | .basQuery v _ _ _ => v.wf
  | .moveUp v _ _ _ _ | .evict v _ _ _ _ | .pin v _ _ _ _ | .unpin v _ _ _ _ | .tirQuery v _ _ _ _
  | .discard v _ _ _ _ | .relocate v _ _ _ _ | .flushExtent v _ _ _ _ => v.wf
  | .create v _ _ _ | .resize v _ _ _ | .destroy v _ _ _ | .lend v _ _ _ | .reclaim v _ _ _
  | .mapShared v _ _ _ | .unmapShared v _ _ _ | .session v _ _ _ | .rotate v _ _ _ | .attest v _ _ _
  | .identity v _ _ _ | .keyImport v _ _ _ | .keyDrop v _ _ _ | .lifecycle v _ _ _ | .svnCommit v _ _ _
  | .certInstall v _ _ _ => v.wf
  | .pldmFirmwareUpdate _ o bytes => decide (o + bytes.length ≤ 2 ^ 25)
  | .poke _ o _ => o % 4 == 0
  | .peek _ o | .count _ o | .domread _ _ o => decide (o < 4096)
  | .rootPortLinkUp _ speed width => decide (speed < 16) && decide (width < 16)
  | .i3cDynamicAddressAssign (.setdasa a b) => decide (a < 128) && decide (b < 128)
  | .i3cDynamicAddressAssign (.entdaa b) => decide (b < 128)
  | .computeDieSensorRead sensors _ _ => decide (sensors ≠ [])
  | .vfEnableChange _ n => decide (n ≤ 63)
  | .complRead _ | .queueReset _ | .planCutoff _ | .epochDecision | .planLatch _ | .slabStart _ _ _ _
  | .slabPause _ _ _ | .slabComplete _ _ _ | .runPhaseEnd _ | .settleStart _ | .baseRefetchDone _ _ _ _ _
  | .maintWindowStart | .maintItemEnd _ _ _ | .routineRetrainDue _ _ | .maintStarved _
  | .emergencyRetrain _ _ _ _ _ | .refreshPause _ _ | .sharedFetchHoldExpire _ _ | .doneTokenReceive _ _ _
  | .tickStart _ | .tickMasterTimeout _ | .tickRefLoss | .fabricTrainingStart _ | .portStageTimeout _
  | .prioOffer _ _ _ | .masterElection _ | .laneFail _ _ | .retryRequest _ _ | .keyExchangeMessage _ _
  | .rekey _ | .rekeyStall _ | .colTimeout _ _ | .stripeFetchDone _ _ _ _ | .hostReadCompletion _ _ _
  | .loadComplete _ | .loadFailed _ | .parkDone _ | .releaseDone _ | .stageComplete _ | .flushIssue _
  | .flushDone _ _ | .pageReadDone _ _ _ _ | .pageWriteDone _ _ | .nvmeCommandFail _ _ _ | .nvmeTimeout _ _ _
  | .nvmeLinkDown _ | .preempt _ _ _ _ | .resume _ _ _ | .createComplete _ | .reportSigned _
  | .heldRequestExecute _ | .scrubEnd _ _ _ _ | .memoryKeyDestroy _ | .vfFlr _ | .pcieLinkChange _ _ _
  | .powerApply _ | .perstRise _ _ | .perstFall _ | .pwrGoodLoss | .watchdog | .thermTrip | .supplyOut _ _
  | .inputRange _ | .mbdTrainingDone _ | .imageVerifyDone _ _ _ _ _ _ _ _ _ _ | .deviceWipeEnd _ _ _
  | .firmwareRelease | .pfReady _ | .badgerMeasure _ | .measureSkipped | .pldmRequest _ | .id | .health
  | .chal | .unlock _ | .trace _ | .mem _ _ _ | .signalDetect _ _ | .oneWayDelayMeasurement _ _
  | .pfPowerStateChange _ => true

end Sys2Proof
end

