-- ==== Sys2Proof/Tests/Slice0.lean ====
section
/-! SUPPORT. The author's own tests: ill-formed commands that WellFormed refuses, a witness for every statement's premises, and single steps whose results the manual gives. -/

namespace Sys2Proof.Tests

open Sys2Proof.Machine Sys2Proof.Safety Sys2Proof.Laws

set_option Elab.async false

/-! ## Ill-formed commands -/

/-- A transaction whose fields fit (R377). -/
def txn : Txn :=
  { ptag := 7, nblk := 1, dst := 5, src := 9, status := 0, addr := 128, sfmt := 0, stype := 1, aop := 0, txid := 3,
    masks := [], slots := [List.replicate 64 1] }

theorem test_wf_view : Instr.wf (.kvpGeomWrite (.vf 0) 0) = false ∧ Instr.wf (.kvpGeomWrite (.vf 1) 0) = true := by decide
theorem test_wf_submit_words :
    Instr.wf (.submitWord 0 (List.replicate 65 .incomplete) false) = false ∧
    Instr.wf (.submitWord 0 (List.replicate 64 .incomplete) false) = true := by decide
theorem test_wf_window :
    Instr.wf (.hostWindowWrite 0 (2 ^ 26) [1] false) = false ∧ Instr.wf (.hostWindowWrite 0 (2 ^ 26 - 1) [1] false) = true ∧
    Instr.wf (.hostWindowRead 0 1 (2 ^ 26)) = false ∧ Instr.wf (.hostWindowRead 0 0 (2 ^ 26)) = true := by decide
theorem test_wf_vectors :
    Instr.wf (.msixUnmask 0 2048) = false ∧ Instr.wf (.msixUnmask 0 2047) = true ∧ Instr.wf (.msixUnmask 1 64) = false ∧
    Instr.wf (.msixUnmask 1 63) = true := by decide
theorem test_wf_tick_length :
    Instr.wf (.tickSymbolReceive 0 { (default : TickSymbol) with len := 4999 } 0) = false ∧
    Instr.wf (.tickSymbolReceive 0 { (default : TickSymbol) with len := 2000001 } 0) = false ∧
    Instr.wf (.tickSymbolReceive 0 { (default : TickSymbol) with len := 5000 } 0) = true := by decide
theorem test_wf_training :
    Instr.wf (.portTrainingDone 0 255 (2 ^ 15) 0 0 0 0) = false ∧ Instr.wf (.portTrainingDone 0 255 0 18 0 0 0) = false ∧
    Instr.wf (.portTrainingDone 0 255 (2 ^ 15 - 1) 17 0 0 0) = true := by decide
set_option maxRecDepth 4000 in
theorem test_wf_flit :
    Instr.wf (.flitReceive 0 (List.replicate 255 0) true []) = false ∧
    Instr.wf (.flitReceive 0 (List.replicate 256 0) true []) = true := by decide
theorem test_wf_txn :
    Instr.wf (.wr { txn with dst := 2 ^ 15 } []) = false ∧ Instr.wf (.wr { txn with src := 2 ^ 15 } []) = false ∧
    Instr.wf (.wr { txn with status := 16 } []) = false ∧ Instr.wf (.wr { txn with addr := 2 ^ 48 } []) = false ∧
    Instr.wf (.wr { txn with nblk := 4 } []) = false ∧ Instr.wf (.wr { txn with slots := [[1]] } []) = false ∧
    Instr.wf (.wr txn []) = true := by decide
theorem test_wf_register_access :
    Instr.wf (.registerWrite (.pf 0) .bar0 0 2 0) = false ∧ Instr.wf (.registerWrite (.pf 0) .bar0 4 8 0) = false ∧
    Instr.wf (.registerWrite (.pf 0) .bar0 8 8 0) = true ∧ Instr.wf (.counterLowRead (.pf 0) 1 4096) = false ∧
    Instr.wf (.counterHighRead (.pf 0) 1 4096) = false ∧ Instr.wf (.counterHighRead (.pf 0) 1 4095) = true := by decide
theorem test_wf_management :
    Instr.wf (.pldmFirmwareUpdate 0 (2 ^ 25) [1]) = false ∧ Instr.wf (.pldmFirmwareUpdate 0 (2 ^ 25 - 1) [1]) = true ∧
    Instr.wf (.i3cDynamicAddressAssign (.setdasa 128 1)) = false ∧ Instr.wf (.i3cDynamicAddressAssign (.setdasa 1 128)) = false ∧
    Instr.wf (.i3cDynamicAddressAssign (.entdaa 128)) = false ∧ Instr.wf (.i3cDynamicAddressAssign (.entdaa 127)) = true := by decide
theorem test_wf_monitor :
    Instr.wf (.poke 1 2 0) = false ∧ Instr.wf (.poke 1 4 0) = true ∧ Instr.wf (.peek 1 4096) = false ∧
    Instr.wf (.count 1 4096) = false ∧ Instr.wf (.domread 0 1 4096) = false ∧ Instr.wf (.domread 0 1 4095) = true := by decide
theorem test_wf_ranges :
    Instr.wf (.rootPortLinkUp 0 16 4) = false ∧ Instr.wf (.rootPortLinkUp 0 4 16) = false ∧ Instr.wf (.rootPortLinkUp 0 15 15) = true ∧
    Instr.wf (.computeDieSensorRead [] 0 0) = false ∧ Instr.wf (.vfEnableChange true 64) = false ∧
    Instr.wf (.vfEnableChange true 63) = true := by decide

/-! ## States that meet the premises of the statements -/

/-- The record of a small tenant domain. -/
def rec1 : DomRecord :=
  { arrFirstUnit := 2, arrUnits := 2, bankFirst := 8, banks := 8, nsb := 2, winFirst := 10, winBanks := 2, weight := 1, rate := 4,
    range := 32, quota := 16, cachePage0 := 4, cachePages := 2, kvPage0 := 6, kvPages := 2, slotFirst := 10,
    slotCount := 4, ns := 1 }

/-- Domain 0 as the manager keeps it, and a tenant domain that is ACTIVE. -/
def dom0 : Dom := { phase := .active, quota0 := 64, col := { ptag := 5, rdEn := true, wrEn := true } }
def dom1 : Dom := { phase := .active, rec_ := rec1, quota0 := 16, col := { ptag := 7, rdEn := true, wrEn := true } }

/-- A device in service, in tick 63 of its fourth epoch, with one tenant. -/
def live : State :=
  { boot := { phase := .running, vInMv := 70000, perstN := true, pwrGood := true, spiResetN := true, nvPerstN := true,
              slot0 := .accepted, fwSvn := 5, mbdTrained := true, wiped := true, fwReleased := true },
    pci := { vfEnable := true, numVfs := 63 },
    tik := { ticking := true, tick := 255, isMaster := true, master := some 5 },
    fab := { self := 5, selfValid := true, trainStart := some 0 },
    doms := [(0, dom0), (1, dom1)] }

/-- The state with the argument registers of a copy of a page set. -/
def withArgs (s : State) (copy page : Nat) (args : List W64) : State :=
  s.putPair copy page { s.pair copy page with args := args ++ List.replicate (8 - args.length) 0 }

/-- The state with domain 1, or a slot, a port or a stack, replaced. -/
def withDom (s : State) (d : Nat) (x : Dom) : State := s.putDom d x
def withSlot (s : State) (k : Nat) (e : SlotEntry) : State := { s with slots := mapSet s.slots k e }
def withPort (s : State) (p : Nat) (x : PortStateRec) : State := { s with fab := { s.fab with ports := mapSet s.fab.ports p x } }

/-- The first two statements: a queue with a command, and an empty one. -/
theorem witness_StepRunsFrontCommand :
    { live with pending := [.id] }.pending = .id :: [] ∧ live.pending = [] := by decide

theorem witness_NothingFusedGoesBack : LifeForward live := by unfold LifeForward; decide

theorem witness_EveryStepKeepsInvariant :
    MemoryWf live ∧ LifeForward live ∧ ∃ t, step { live with pending := [.id] } = .next t := by
  refine ⟨⟨?_, rfl, rfl, rfl, rfl, rfl, rfl⟩, by unfold LifeForward; decide, ⟨_, rfl⟩⟩
  unfold DomMem; decide

/-! ### Variants (05) -/

/-- A slot that VF 1 may name, with its pair holding arguments. -/
def varState (e : SlotEntry) (args : List W64) : State := withSlot (withArgs live 1 pVar args) 11 e

theorem witness_ClaimIsCompareAndSet :
    let claims := fun (s : State) =>
      Ready s (.vf 1) pVar true ∧ s.granted (s.viewDom (.vf 1) pVar) 11 = true ∧ bitsOf (s.arg 1 pVar 0) 56 8 = 0 ∧
      bitsOf (s.arg 1 pVar 1) 20 44 = 0 ∧ bitsOf (s.arg 1 pVar 1) 16 4 = 8 ∧ 1 ≤ bitsOf (s.arg 1 pVar 0) 48 6 ∧
      bitsOf (s.arg 1 pVar 0) 48 6 ≤ 32 ∧ bitsOf (s.arg 1 pVar 1) 0 16 ≠ 0 ∧ bitsOf (s.arg 1 pVar 0) 0 48 % 64 = 0
    let args := [w64 (64 + 32 * 2 ^ 48), w64 (0xFFFF + 8 * 2 ^ 16)]
    (claims (varState { gen := 0xFFFF } args) ∧ ((varState { gen := 0xFFFF } args).slot 11).state = .free) ∧
    (claims (varState { state := .held } args) ∧ ((varState { state := .held } args).slot 11).state ≠ .free) ∧
    (claims (varState { gen := 3 } args) ∧ ((varState { gen := 3 } args).slot 11).gen ≠ 2) := by
  unfold Ready; decide

/-- A home image whose directory names projection 0 with 8 by 8 factors at 256 and 1,024 (R126), in the range of domain 1. -/
def homeImage : List Host.Cell := [(0, 8), (2, 8), (9, 1), (13, 4)]
def imaged : State := withDom live 1 { dom1 with mem := homeImage }

theorem witness_LoadStageFlushQueueWork :
    (let e : SlotEntry := { state := .held, gen := 1, rank8 := 1, projMask := 1, train := true }
     let s := withSlot imaged 11 e
     let le := { e with dir := (s.readDir 1 e).1 }
     VarReady s (.vf 1) true 11 1 ∧ (s.slot 11).state = .held ∧ (s.readDir 1 e).2 = false ∧ s.inRange 1 e.home 256 = true ∧
     s.dirOk 1 le = true ∧ 2 * le.granuleCount ≤ s.cacheFree 1) ∧
    (let e : SlotEntry := { state := .live, gen := 1, rank8 := 1, projMask := 1, dir := [(0, ⟨8, 8, 256, 1024⟩)] }
     let s := withSlot (withArgs imaged 1 pVar [1]) 11 e
     VarReady s (.vf 1) true 11 1 ∧ (s.slot 11).state = .live ∧ s.arg 1 pVar 0 < 65536 ∧
     (1 : W16) &&& ~~~e.projMask = 0 ∧ e.stageUnits (1 &&& ~~~s.stageClaimed 1 11) ≤ s.stageFree 1) := by
  unfold VarReady Ready; decide

theorem witness_ParkReleaseUnstageWaitForLatch :
    (let s := withSlot (withArgs live 1 pVar [65535]) 13 { state := .live, gen := 1, dirty := true }
     VarReady s (.vf 1) true 13 1 ∧ (s.slot 13).state = .live ∧ s.leaving 13 = false ∧ (s.dom 1).var_.bound 13 = false ∧
     s.arg 1 pVar 0 < 65536) ∧
    (let s := withSlot live 10 { state := .held, gen := 1 }
     VarReady s (.vf 1) true 10 1 ∧ (s.slot 10).state = .held ∧ s.leaving 10 = false ∧ (s.dom 1).var_.bound 10 = false) := by
  unfold VarReady Ready; decide

theorem witness_VarQueryReturnsEntry :
    Ready live (.vf 1) pVar true ∧ live.granted (live.viewDom (.vf 1) pVar) 10 = true ∧
    Ready (live.updLks id) (.pf 1) pVar false ∧ live.granted (live.viewDom (.pf 1) pVar) 13 = true := by
  unfold Ready; decide

/-- A copy of the base that is ACTIVE, with one MoE layer. -/
def moeBase : BasState := { copy0 := { state := .active, gen := 1, moe := [4] } }

theorem witness_ExpertPositionsChangeAtLatch :
    let x := w64 (2 + 11 * 2 ^ 22 + 5 * 2 ^ 36)
    let s := withSlot (withSlot { withArgs live 1 pVar [0, x] with bas := moeBase } 10 { state := .live, gen := 1 }) 11
      { state := .live, expert := true, gen := 5 }
    let a := expertArgOf (s.arg 1 pVar 1)
    let p := (s.dom 1).var_.pos 0 a.pos
    Ready s (.vf 1) pVar true ∧ s.granted 1 10 = true ∧ (s.slot 10).gen = 1 ∧ (s.slot 10).expert = false ∧ (s.slot 10).state ≠ .free ∧
    (s.slot 10).state ≠ .releasing ∧ bitsOf (s.arg 1 pVar 0) 8 56 = 0 ∧ a.rsv = 0 ∧ bitsOf (s.arg 1 pVar 0) 0 8 < s.moeLayers ∧
    ((s.dom 1).var_.experts.filter (fun q => q.1 / 64 == 0 && q.2.xgen != 0 && q.2.parent == 10)).length < 4 ∧
    s.granted 1 a.xslot = true ∧ (s.slot a.xslot).gen = a.xgen ∧ (s.slot a.xslot).expert = true ∧ (s.slot a.xslot).state ≠ .free ∧
    (s.dom 1).var_.bound a.xslot = false ∧ p.xgen = 0 ∧ p.posGen = a.posGen ∧
    bitsOf (s.arg 1 pVar 0) 30 34 = 0 ∧ ((s.dom 1).var_.pos 0 0).posGen.toNat = bitsOf (s.arg 1 pVar 0) 14 16 := by
  unfold Ready; decide

/-- Work of Cooper on slot 11, all of it carried. -/
def coopState (e : SlotEntry) (k : CoopKind) : State :=
  withSlot (withDom live 1 { dom1 with var_ := { queue := [{ kind := k, slot := 11, left := 0 }] } }) 11 e

theorem witness_CooperWorkEnds :
    (let s := coopState { state := .loading, gen := 1 } .load
     s.slotOwner 11 = some 1 ∧ (s.slot 11).state = .loading ∧ (s.carried 1 11 CoopKind.isLoad).isSome = true ∧
     .slotLive 11 ∉ s.atLatch ∧ .slotLoadFailed 11 ∉ s.atLatch) ∧
    (let s := coopState { state := .parking, gen := 1 } .load
     s.slotOwner 11 = some 1 ∧ (s.slot 11).state = .parking ∧ (s.slot 11).refCur = 0 ∧ (s.slot 11).refOld = 0 ∧ (s.slot 11).dirty = false) ∧
    (let s := coopState { state := .releasing, gen := 1 } .load
     s.slotOwner 11 = some 1 ∧ (s.slot 11).state = .releasing ∧ (s.slot 11).refCur = 0 ∧ (s.slot 11).refOld = 0) ∧
    (let s := coopState { state := .live, gen := 1 } (.stage 1)
     s.slotOwner 11 = some 1 ∧ (s.slot 11).state = .live ∧
     s.carried 1 11 CoopKind.isStage = some { kind := .stage 1, slot := 11, left := 0 }) := by
  decide

/-! ### Sequences and their pages (08) -/

/-- Domain 1 with a sequence table. -/
def kvDom (q : SeqEntry) (rows : Nat) : Dom := { dom1 with kvp := { commitRows := rows, seqs := [(3, q)] } }

theorem witness_SeqOpenClearsTable :
    let args := [w64 (4096 + 2 ^ 48), w64 63]
    let opens := fun (s : State) =>
      Ready s (.vf 1) pKvp true ∧ bitsOf (s.arg 1 pKvp 0) 0 48 % 4 = 0 ∧ bitsOf (s.arg 1 pKvp 0) 48 16 ≠ 0 ∧
      bitsOf (s.arg 1 pKvp 1) 7 57 = 0 ∧ s.inRange 1 4096 (4 * 64 * 1) = true
    (opens (withArgs (withDom live 1 (kvDom { state := .starved } 0)) 1 pKvp args) ∧
      ((kvDom { state := .starved } 0).kvp.seq 3).state ≠ .closed) ∧
    (opens (withArgs live 1 pKvp args) ∧ (dom1.kvp.seq 3).state = .closed ∧
      dom1.kvp.heldPages.length + statePages (dom1.kvp.openSeqs + 1) ≤ 32 * dom1.rec_.kvPages ∧ poisonHit dom1.poison 64 4096 256 = false) := by
  unfold Ready; decide

/-- A FUSED_ATTN slab of domain 1 whose list, of one entry at commons offset 0, names sequence 0 (R194). -/
def attSlab : Slab := { order := 0, words := [3, 0, 0, 0, 1] }

theorem witness_SeqCloseAndDropWaitForLatch :
    Ready live (.vf 1) pKvp true ∧ live.namesSeq 1 0 = false ∧ (withDom live 1 { dom1 with slabs := [attSlab] }).namesSeq 1 0 = true := by
  unfold Ready; decide

theorem witness_CommitAndGeometry :
    let q : SeqEntry := { state := .active, layers := 2, wr := [0, 0], rf := [0, 0], tent := [2, 2], tentBatch := 9 }
    let commits := fun (s : State) =>
      Ready s (.vf 1) pKvp true ∧ ((s.dom 1).kvp.seq 3).state ≠ .closed ∧ ((s.dom 1).kvp.seq 3).commitMask = none ∧
      ((s.dom 1).kvp.seq 3).tent.headD 0 ≠ 0 ∧ (∀ x ∈ ((s.dom 1).kvp.seq 3).tent, x = ((s.dom 1).kvp.seq 3).tent.headD 0) ∧
      ((s.dom 1).kvp.seq 3).tentBatch = bitsOf (s.arg 1 pKvp 0) 16 16 ∧ bitsOf (s.arg 1 pKvp 0) 0 16 < 2 ^ 2
    let args := [w64 (2 + 9 * 2 ^ 16)]
    (commits (withArgs (withDom live 1 (kvDom q 16)) 1 pKvp args) ∧ 0 + 2 * (commitCopies 2).length ≤ 16) ∧
    (commits (withArgs (withDom live 1 (kvDom q 0)) 1 pKvp args) ∧ 0 < 0 + 2 * (commitCopies 2).length) ∧
    (live.viewOpen (.vf 1) = true ∧ dom1.kvp.openSeqs = 0 ∧ 16 ≤ kvPageRows (bitsOf 0x84 0 7) (bitsOf 0x84 7 4)) ∧
    (kvDom q 0).kvp.openSeqs ≠ 0 ∧ kvPageRows (bitsOf 0x7FF 0 7) (bitsOf 0x7FF 7 4) < 16 := by
  unfold Ready; decide

theorem witness_KvpQueryReturnsSequence :
    let q : SeqEntry := { state := .active, layers := 2, wr := [5, 6], rf := [0, 0], tent := [0, 0] }
    let s := withDom live 1 (kvDom q 0)
    let a := fun (w : W64) => (withArgs s 1 pKvp [w]).arg 1 pKvp 0
    Ready s (.vf 1) pKvp true ∧ (bitOf (a 0x42) 6 = true ∧ ((s.dom 1).kvp.seq 3).layers ≤ bitsOf (a 0x42) 0 6) ∧
    (bitOf (a 0x41) 6 = true ∧ bitsOf (a 0x41) 0 6 < ((s.dom 1).kvp.seq 3).layers) ∧ bitOf (a 0) 6 = false := by
  unfold Ready; decide

/-! ### The base (09) -/

/-- A manifest of one stripe with one tensor of one block row (R225, R226), in domain 0's range from address 0. -/
def manifestWords : List W64 :=
  [w64 (1 + 2 ^ 16), w64 1, w64 (2 ^ 32), w64 (64 * 2 ^ 32), w64 128, w64 (2 ^ 48), 0, 0, w64 (8 * 2 ^ 48), w64 (4096 + 2 ^ 48), 0, 1]
def manifested : State := withDom live 0 { dom0 with mem := memPut [] 0 (manifestWords.flatMap (fun w => leBytes 8 w.toNat)) }

/-- The manifest's copy with its stripe held in flash, and its tensor staged or not. -/
def flashCopy (st : CopyState) : CopySlot :=
  { state := st, gen := 1, stripes := 1, ns := 1, digestOff := 128, tensors := [{ (default : Tensor) with fmt := 8, rowBlocks := 1, rows := 1 }],
    stripeMap := [(0, { flashHeld := true })] }

/-- What R228 accepts of it, and the copy that BUILD makes. -/
def manifestRead : Manifest × List Tensor × List Nat × List (Nat × Bool) := (manifested.readManifest 0).getD default
def manifestCopy : CopySlot :=
  (manifested.takeRegion.newCopy 0 manifestRead.1 manifestRead.2.1 manifestRead.2.2.1 manifestRead.2.2.2).1

theorem witness_BaseCopiesBuildSwitchAbort_build :
    BasReady manifested (.pf 0) true ∧ (manifested.copy 0).state = .empty ∧ (manifested.copy 1).state = .empty ∧
    (manifested.meetErrors 0 []).1 = manifested ∧ manifested.arg 64 pBas 0 % 2 ^ 48 % 64 = 0 ∧ RegionFits manifested ∧ (manifested.readManifest 0).isSome = true ∧
    (manifestRead.1.ns ≠ 0 ∨ manifestCopy.stripeMap.any (fun p => !manifestCopy.flashOnly p.1) = false) := by
  unfold BasReady RegionFits Ready; decide

theorem witness_BaseCopiesBuildSwitchAbort :
    (let s := withArgs { live with bas := { copy1 := flashCopy .ready } } 64 pBas [1]
     BasReady s (.pf 0) true ∧ (s.copy 1).state = .ready ∧ (s.copy 1).gen = s.arg 64 pBas 0 % 2 ^ 32) ∧
    (BasReady live (.pf 0) true ∧ (live.copy 0).state ≠ .ready) ∧
    (({ live with bas := { copy0 := flashCopy .building } } : State).copy 0).state = .building ∧
    (let s : State := { live with bas := { copy1 := flashCopy .ready, switchAt := some (1, 256) } }
     s.bas.switchAt.map Prod.fst = some 1 ∧ (s.copy 1).state = .ready) := by
  unfold BasReady Ready; decide

theorem witness_BaseStagingAndQuery :
    let c := flashCopy .active
    let w := c.tensors.getD 0 default
    let y := { c with staged := numAdd c.staged 0, unstage := numDel c.unstage 0 }
    let at_ := fun (pages : Nat) => ({ live with bas := { copy0 := c, stagePages := pages } } : State)
    BasReady (at_ 1) (.pf 0) true ∧ (at_ 1).activeCopy = some 0 ∧ (at_ 1).arg 64 pBas 0 % 2 ^ 24 < c.tensors.length ∧
    c.flashResident w = true ∧ y.stagedStripes.length - c.stagedStripes.length ≤ (at_ 1).stageRoom ∧
    ¬ y.stagedStripes.length - c.stagedStripes.length ≤ (at_ 0).stageRoom ∧
    ({ c with stripeMap := [] } : CopySlot).flashResident w = false := by
  unfold BasReady Ready; decide

/-! ### Tiers and flash (11) -/

/-- Domain 1 with page map entries and tier work: page 1 STACKED and pinned, page 2 UP, page 3 DOWN, page 20 in flash. -/
def tierDom (inflight : List Nat) (wait : Option (List Nat)) (issued : Bool) : Dom :=
  { dom1 with rec_ := { rec1 with quota := 24 }, tir :=
    { pages := [(1, { state := .stacked, pin := 1 }), (2, { state := .up }), (3, { state := .down })], inflight := inflight,
      flushWait := wait, flushIssued := issued } }
def tier : State := withDom live 1 (tierDom [2, 3] (some []) false)

/-- The failure of a page of each command, as its statement gives it. -/
def failsUp (q : Nat) : Option Nat := if tier.pageInRange 1 q then none else some 0x0E
def failsEvict (q : Nat) : Option Nat :=
  if !tier.pageInRange 1 q then some 0x0E else if (tier.pageEntry 1 q).state = .up then some 0x08
  else if (tier.pageEntry 1 q).state = .stacked ∧ tier.pinnedPage 1 q = true then some 0x0D else none
def failsDiscard (q : Nat) : Option Nat :=
  if !tier.pageInRange 1 q then some 0x0E
  else if (((tier.dom 1).entry q).shared.isSome || tier.pinnedPage 1 q) = true then some 0x0A else none

theorem witness_TierCommandsQueueMoves :
    Ready tier (.vf 1) pTir true ∧
    PageRun failsUp 30 2 2 0 ∧ PageRun failsUp 30 5 2 0x0E ∧
    PageRun failsEvict 20 2 2 0 ∧ PageRun failsEvict 30 3 2 0x0E ∧ PageRun failsEvict 2 2 0 0x08 ∧ PageRun failsEvict 0 4 1 0x0D ∧
    PageRun failsDiscard 2 2 2 0 ∧ PageRun failsDiscard 30 3 2 0x0E ∧ PageRun failsDiscard 0 4 1 0x0A := by
  unfold Ready PageRun; decide

theorem witness_TierCommandsQueueMoves_relocate :
    let x := tier.dom 1
    let fails := fun (frame q : Nat) => if !tier.pageInRange 1 q then some 0x0E
      else if (x.entry q).shared.isSome || (x.entry q).state != .stacked || x.tirFree == 0 then some 0x0A
      else if frameCount ≤ frame ∨ tier.doms.any (fun y => y.2.tir.pages.any (fun e => e.2.frame == some frame && e.2.state != .flash))
        then some 0x05 else none
    isPf (.pf 1) = true ∧ Ready tier (.pf 1) pTir true ∧ tier.viewDom (.pf 1) pTir = 1 ∧
    PageRun (fails 77) 0 1 1 0 ∧ PageRun (fails 77) 2 1 0 0x0A ∧ PageRun (fails frameCount) 0 1 0 0x05 ∧
    PageRun (fails 77) 32 1 0 0x0E := by
  unfold Ready PageRun; decide

theorem witness_PinAndUnpinCountPages :
    let s := withDom live 1 { dom1 with tir := { pages := [(1, { state := .stacked, pin := 1 }), (2, { state := .stacked, pin := 255 })] } }
    let pins := fun q => if !s.pageInRange 1 q then some 0x0E else if ((s.dom 1).entry q).pin = 255 then some 0x05 else none
    let unpins := fun q => if !s.pageInRange 1 q then some 0x0E else if ((s.dom 1).entry q).pin = 0 then some 0x0A else none
    Ready s (.vf 1) pTir true ∧ PageRun pins 0 2 2 0 ∧ PageRun pins 0 3 2 0x05 ∧ PageRun pins 31 2 1 0x0E ∧
    PageRun unpins 1 2 2 0 ∧ PageRun unpins 1 3 2 0x0A ∧ PageRun unpins 32 1 0 0x0E := by
  unfold Ready PageRun; decide

theorem witness_TirQueryAndFlushExtent :
    Ready tier (.vf 1) pTir true ∧ tier.pageInRange 1 31 = true ∧ tier.pageInRange 1 0 = true ∧
    (Ready tier (.pf 0) pTir true ∧ (tier.dom 0).rec_.ns = 0) ∧
    ((tier.dom 1).rec_.ns ≠ 0 ∧ (tier.dom 1).tir.flushWait.isSome = true) ∧
    (Ready live (.vf 1) pTir true ∧ (live.dom 1).rec_.ns ≠ 0 ∧ (live.dom 1).tir.flushWait = none) := by
  unfold Ready; decide

theorem witness_FlashTransfersEnd :
    ((tier.dom 1).tir.flushWait = some [] ∧ (tier.dom 1).tir.flushIssued = false) ∧
    ((tierDom [] (some []) true).tir.flushIssued = true ∧ (tierDom [] (some []) true).tir.flushRetried = false ∧ tier.live 1 = true) ∧
    ((tier.dom 1).tir.inflight.contains 2 = true ∧ (tier.pageEntry 1 2).state = .up ∧ tier.tagOk 1 2 none = true) ∧
    ((tier.dom 1).tir.inflight.contains 3 = true ∧ (tier.pageEntry 1 3).state = .down) := by
  decide

/-- Domain 1 with the pages and the Flush of `tier`, each of which has failed once. -/
def twice : State :=
  withDom live 1 { tierDom [2, 3] (some []) true with tir := { (tierDom [2, 3] (some []) true).tir with retried := [2, 3], flushRetried := true } }

/-- A copy whose one stripe has been asked of the flash tier (R232, R233). -/
def asked (retried : Bool) : State :=
  { live with bas := { copy0 := { state := .building, gen := 1, stripes := 1, ns := 1, stripeMap := [(0, { asked := true, retried := retried })] } } }

/-- No tag is empty, so bytes that a drive returns for a page whose entry holds none do not verify (R301). -/
theorem tier_mismatch : tier.tagOk 1 2 (some []) = false := by
  have h : (tier.tagOk 1 2 (some [])) = ((tier.dom 1).copyTag 1 2 ((tier.dom 1).entry 2) [] == ([] : List Byte)) := rfl
  rw [h, beq_eq_false_iff_ne]
  exact fun h => by simpa [Dom.copyTag, gcmTag, leBytes] using congrArg List.length h

theorem witness_FlashFailuresRetryOnce :
    ((tier.dom 1).tir.inflight.contains 2 = true ∧ (tier.dom 1).tir.retried.contains 2 = false ∧ (tier.pageEntry 1 2).state ≠ .down) ∧
    ((twice.dom 1).tir.inflight.contains 2 = true ∧ (twice.dom 1).tir.retried.contains 2 = true ∧ (twice.pageEntry 1 2).state = .up ∧
      (∀ y ∈ twice.doms, y.1 ≠ 1 → twice.waitedPages y.1 (1, 2) = [] ∧ ∀ r ∈ y.2.tir.inflight, twice.homePage y.1 r ≠ (1, 2)) ∧
      twice.homePage 1 2 = (1, 2)) ∧
    ((twice.dom 1).tir.inflight.contains 3 = true ∧ (twice.dom 1).tir.retried.contains 3 = true ∧ (twice.pageEntry 1 3).state = .down) ∧
    ((twice.dom 1).tir.flushIssued = true ∧ (twice.dom 1).tir.flushRetried = true ∧ twice.live 1 = true) ∧
    ((asked false).flashAsked 0 0 = true ∧ (((asked false).copy 0).stripe 0).retried = false) ∧
    ((asked true).flashAsked 0 0 = true ∧ (((asked true).copy 0).stripe 0).retried = true) ∧
    ((∀ y ∈ tier.doms, y.2.tir.inflight.Nodup ∧ (∀ r ∈ y.2.tir.inflight, tier.linkOfPage y.1 r = 0 → y.2.tir.retried.contains r = false) ∧
      (tier.linkOfNs y.2.rec_.ns = 0 → y.2.tir.flushRetried = false)) ∧ tier.flashStripes = [] ∧ tier.linkOfPage 1 2 = 0) ∧
    (live.boot.nvPerstN = true ∧ live.nvm.trains 0 5 8 = true ∧ live.nvm.trains 1 5 4 = false) := by
  decide

/-! ### Domains and Locksmith (15, 16) -/

/-- A record for domain 2 that meets no other, and states whose mailbox of region 0 holds records. -/
def rec2 : DomRecord :=
  { arrFirstUnit := 62, arrUnits := 2, bankFirst := 92, banks := 4, nsb := 1, winFirst := 93, winBanks := 2, weight := 1, rate := 4,
    range := 32, quota := 16, slotFirst := 16380, slotCount := 4 }
def withRecord (s : State) (r : DomRecord) (d : Nat) : State := withArgs s 64 pLks (recordWords r d)

/-- The premises of an accepted or refused CREATE of domain 2. -/
def Creates (s : State) : Prop :=
  LksReady s (.pf 0) true ∧ recordPlain (s.lksArgs 64) = true ∧ bitsOf ((s.lksArgs 64).getD 0 0) 0 6 = 2 ∧
  recordOf (s.lksArgs 64) = rec2 ∧ rec2.fieldsOk 2 = true ∧ s.tenantsAllowed = true ∧ (s.dom 2).held = none

theorem witness_DomainsAreCreated :
    (let s := withRecord live rec2 2
     Creates s ∧ (s.dom 2).phase = .free ∧ s.resourcesFree 2 rec2 = true ∧ rec2.quota + rec2.ovhFrames 2 ≤ s.freeFrames) ∧
    (let s := withRecord (withDom live 2 { phase := .scrubbing }) rec2 2
     Creates s ∧ (s.dom 2).phase = .scrubbing ∧ s.resourcesFree 2 rec2 = true ∧ rec2.quota + rec2.ovhFrames 2 ≤ s.freeFrames) ∧
    (let s := withRecord (withDom live 3 { phase := .active, rec_ := rec2 }) rec2 2
     Creates s ∧ (s.dom 2).phase = .free ∧ s.resourcesFree 2 rec2 = false) ∧
    (let s := withRecord { live with freeFrames := 20 } rec2 2
     Creates s ∧ s.resourcesFree 2 rec2 = true ∧ s.freeFrames < rec2.quota + rec2.ovhFrames 2) := by
  unfold Creates LksReady Ready; decide

theorem witness_DomainsAreCreated_later :
    (let h : Dom := { phase := .creating }
     h.phase = .creating ∧ h.created = false ∧ 2 ∉ live.lks.engineA) ∧
    (let s := withDom live 2 { held := some (rec2, 64) }
     let w := (recordWords rec2 2).map BitVec.toNat
     let s1 := s.putDom 2 { s.dom 2 with held := none }
     (s.dom 2).held = some (rec2, 64) ∧ (s.dom 2).phase = .free ∧ bitsOf (w.getD 0 0) 0 6 = 2 ∧ recordPlain w = true ∧
     (recordOf w).fieldsOk 2 = true ∧ s.tenantsAllowed = true ∧ s1.resourcesFree 2 (recordOf w) = true ∧
     (recordOf w).quota + (recordOf w).ovhFrames 2 ≤ s.freeFrames) := by
  decide

theorem witness_DomainsEnd :
    (LksReady live (.pf 0) true ∧ dom1.alive = true) ∧
    (live.pci.vfEnable = true ∧ 63 ≤ live.pci.numVfs ∧ (live.dom 63).phase = .free ∧ (live.dom 1).phase ≠ .free ∧
      (live.dom 1).phase ≠ .scrubbing) ∧
    (let x : Dom := { phase := .scrubbing }
     x.phase = .scrubbing ∧ x.scrubEnded = false) ∧
    (let x : Dom := { dom1 with keys := { destroyDue := true } }
     x.keys.destroyDue = true) ∧ (State.reset.pci.vfEnable = false) := by
  unfold LksReady Ready; decide

/-- Domain 1 with its record changed, and without an extent. -/
def plain1 : Dom := { dom1 with rec_ := { rec1 with ns := 0 } }

theorem witness_DomainRequestsWaitForLatch_resize :
    let s := withRecord (withDom live 1 plain1) { rec1 with ns := 0, quota := 20 } 1
    let w := s.lksArgs 64
    let r := recordOf w
    let q := (s.dom 1).dueRecord
    LksReady s (.pf 0) true ∧ recordPlain w = true ∧ bitsOf (w.getD 0 0) 0 6 = 1 ∧ r.fieldsOk 1 = true ∧ r.sameShape q = true ∧
    s.shrinkOk 1 r = true ∧ (s.dom 1).phase = .active ∧ s.resourcesFree 1 r = true ∧ r.frames 1 ≤ s.freeFrames + q.frames 1 := by
  unfold LksReady Ready; decide

theorem witness_DomainRequestsWaitForLatch_loan :
    (let s := withDom (withArgs live 64 pLks [w64 (2 + 2 ^ 6 + 63 * 2 ^ 12 + 2 ^ 18)]) 2 { phase := .preempted, rec_ := rec2 }
     let a := s.arg 64 pLks 0
     LksReady s (.pf 0) true ∧ bitsOf a 0 6 = 2 ∧ bitsOf a 6 6 = 1 ∧ bitsOf a 12 6 = 63 ∧ bitsOf a 18 7 = 1 ∧
     (s.dom 2).phase = .preempted ∧ (s.dom 1).phase = .active ∧ (s.dom 1).loan = none ∧ s.lendWaits 1 = false ∧
     (s.dom 2).rec_.arrFirstUnit ≤ 63 ∧ 63 < (s.dom 2).rec_.arrFirstUnit + (s.dom 2).rec_.arrUnits ∧ 63 ∈ s.unitsOf 2) ∧
    (let s := withDom (withArgs live 64 pLks [w64 (2 + 2 ^ 6)]) 1 { dom1 with loan := some (63, 1, 2) }
     LksReady s (.pf 0) true ∧ bitsOf (s.arg 64 pLks 0) 6 6 = 1 ∧ (s.dom 1).loan = some (63, 1, 2)) := by
  unfold LksReady Ready; decide

theorem witness_DomainRequestsWaitForLatch_shared :
    (let s := withArgs live 64 pLks [30, 0, 2]
     LksReady s (.pf 0) true ∧ bitsOf (s.arg 64 pLks 2) 0 16 = 2 ∧ (s.dom 1).alive = true ∧
     ∀ i < 2, s.pageInRange 1 (30 + i) = true ∧ s.pageInRange 0 i = true ∧ s.pinnedPage 1 (30 + i) = false ∧
       (s.dom 1).rec_.devPinned (30 + i) = false ∧ (s.dom 0).rec_.devPinned i = false ∧ s.pinnedPage 0 i = false) ∧
    (let s := withDom (withArgs live 64 pLks [30, 0, 1]) 1 { dom1 with tir := { pages := [(30, { state := .flash, shared := some 0 })] } }
     LksReady s (.pf 0) true ∧ bitsOf (s.arg 64 pLks 2) 0 16 = 1 ∧ ((s.dom 1).entry 30).shared.isSome = true) := by
  unfold LksReady Ready; decide

theorem witness_KeysOfADomain :
    LksReady live (.vf 1) true ∧ (live.dom (lksDomain (.vf 1) 1)).alive = true ∧ (live.dom 1).upd.open_ = false ∧
    (live.dom 1).keys.prevLive = false ∧ (live.dom 1).keys.newCurrent = false ∧
    live.window 1 (bitsOf (live.arg 1 pLks 0) 0 26) 1608 = some (bankBytes * 10) := by
  unfold LksReady Ready; decide

theorem witness_KeysOfADomain_clean : (live.rdCommons (bankBytes * 10) 1608).2 = false := by
  decide

theorem witness_IdentityAndFuses :
    (LksReady live (.vf 1) true ∧ (live.dom (lksDomain (.vf 1) 1)).alive = true ∧
      bitsOf (live.arg 1 pLks 0) 0 26 + 40960 ≤ bankBytes * (live.dom (viewFn (.vf 1))).rec_.winBanks) ∧
    (let s : State := { live with fuses := { live.fuses with deviceIdFor := [.devel] } }
     LksReady s (.pf 0) true ∧ s.uncertified = true ∧ s.window 0 0 0 = some 0) ∧
    (let s := withDom (withArgs live 64 pLks [2]) 0 { dom0 with rec_ := { winBanks := 1 } }
     LksReady s (.pf 0) true ∧ lifeOf (bitsOf (s.arg 64 pLks 0) 0 3) = some .prod ∧ transition s.fuses.life .prod = some true ∧
     s.window 0 0 16672 = some 0) ∧
    (let s := withArgs live 64 pLks [4]
     LksReady s (.pf 0) true ∧ lifeOf (bitsOf (s.arg 64 pLks 0) 0 3) = some .retired ∧ transition s.fuses.life .retired = some false) ∧
    (live.fuses.minSvn < live.boot.fwSvn ∧ live.fuses.svnRaises < 64) := by
  unfold LksReady Ready; decide

/-- The certificate chain's length is open (Config.rootCert): where it fits the window, IDENTITY's premise is met. -/
theorem witness_IdentityAndFuses_chain (h : live.identityChain.length ≤ 4194304) :
    live.window 1 0 live.identityChain.length = some (2097152 * 10 + 0) := by
  have : (live.dom 1).rec_ = rec1 := rfl
  simp [State.window, this, rec1, bankBytes]; omega

/-! ### The host attachment (15) -/

/-- Domain 1 with its queue in a given state. -/
def queueState (q : QueueState) : State := withDom live 1 { dom1 with queue := q }

/-- The first four of the five words of a HINT of domain 1 with tag 9 (R22, R291), and the same for domain 2, which R23 refuses. -/
def hintPart (d : Nat) : List W64 := [w64 (7 + 2 * 16 + 256 * d + 2 ^ 16 + 9 * 2 ^ 32), 0, 0, 0]
def hinted (d : Nat) : State :=
  let s := queueState { partial_ := hintPart d }
  (s.bump 1 pDom 0 1).updDom 1 (fun y => y.updQueue (fun z => { z with written := z.written + 1, partial_ := [] }))

theorem witness_SubmissionQueue :
    live.fnOpen 1 = true ∧ live.fnOpen 0 = true ∧
    (live.dom 1).queue.halted = false ∧ (live.dom 1).queue.written ≠ (live.dom 1).queue.limit ∧
    ¬ ([] ++ [(0 : W64)]).length = descriptorWords 0 ∧
    ((queueState { halted := true }).fnOpen 1 = true ∧ ((queueState { halted := true }).dom 1).queue.halted = true) ∧
    (let q := ((queueState { written := 16384 }).dom 1).queue
     q.halted = false ∧ q.written = q.limit) ∧
    (let q := ((queueState { partial_ := hintPart 1 }).dom 1).queue
     (q.partial_ ++ [0]).length = descriptorWords ((q.partial_ ++ [0]).headD 0) ∧ (hinted 1).slabArrives 1 (q.partial_ ++ [0]) = true ∧
     (hinted 2).slabArrives 1 (hintPart 2 ++ [0]) = false) ∧
    (let s := queueState { partial_ := hintPart 1, limit := 17404 }
     s.fnOpen 1 = true ∧ (s.dom 1).queue.partial_ ≠ [] ∧
     (mapGet s.pci.creditMsg 1).getD 16384 + 1024 ≤ (s.dom 1).queue.limit + (s.dom 1).queue.partial_.length) := by
  decide

theorem witness_CompletionsWindowAndVectors :
    live.fnOpen 1 = true ∧ (live.dom 1).queue.compl = [] ∧ ((queueState { compl := [7, 8] }).dom 1).queue.compl = 7 :: [8] ∧
    (live.boot.phase = .running ∧ 63 < vectorsOf 1 ∧ live.vfUp 1 = true) ∧ 2047 < vectorsOf 0 := by
  decide

/-! ### Power, resets and bring-up (13, 18, 19) -/

theorem witness_PowerAndResets :
    (State.reset.boot.phase = .off ∧ State.reset.boot.perstN = false ∧ 58000 < 84000) ∧
    ({ State.reset with boot := { perstN := true } }.boot.phase = .off) ∧
    (let b : BootState := { phase := .inReset, pwrGood := true }
     b.perstN = false ∧ b.phase = .inReset ∧ b.pwrGood = true) ∧
    (live.awake = true ∧ live.boot.perstN = true ∧ live.boot.phase = .running ∧ live.boot.pwrGood = true) ∧
    (55999 < 56000 ∧ 84000 < 84001) := by
  decide

/-- A device in bring-up. -/
def bringUp (b : BootState) : State := { State.reset with boot := { b with phase := .bringUp, perstN := true, pwrGood := true } }

theorem witness_BringUpSteps :
    ((bringUp {}).boot.phase = .bringUp ∧ (bringUp {}).boot.mbdTrained = false) ∧
    ((bringUp {}).fuses.life ≠ .retired ∧ (bringUp {}).boot.slot0 = .untried ∧
      (3 < 4 ∧ (bringUp {}).fuses.revoked.getLsbD 3 = false ∧ (bringUp {}).fuses.minSvn ≤ 0 ∧ 33537536 ≤ 33537536)) ∧
    ((bringUp { slot0 := .refused }).boot.slot0 = .refused ∧ (bringUp { slot0 := .refused }).boot.slot1 = .untried) ∧
    ((bringUp { mbdTrained := true }).boot.mbdTrained = true ∧ (bringUp { mbdTrained := true }).boot.wiped = false) ∧
    (let s := bringUp { wiped := true, slot1 := .accepted }
     s.boot.wiped = true ∧ s.boot.fwReleased = false ∧ s.boot.slot1 = .accepted ∧ s.fuses.udsPresent = true) ∧
    ((bringUp { fwReleased := true }).boot.fwReleased = true ∧ (bringUp { fwReleased := true }).nvm.link0.1 = 0) ∧
    ((bringUp { bootFailed := true }).boot.fwReleased = false ∧ (bringUp { bootFailed := true }).boot.bootFailed = true) := by
  decide

theorem witness_EndpointAndManagement :
    live.awake = true ∧ live.fuses.life ≠ .retired ∧ live.boot.phase = .running ∧ 0x1FFFFFF + [(0 : Byte)].length ≤ 0x2000000 ∧
    live.boot.i3cDynamic = none ∧
    (let s := live.putView 64 pTik { event := 0x80 }
     blockOf pTik = some 0 ∧ (s.view 64 pTik).event.getLsbD 7 = true) := by
  decide

/-! ### Stacked memory (10) -/

/-- A device in the window of a tick that has one, with items that run on stack 7 and one that waits. -/
def maint : State :=
  { live with tik := { live.tik with tick := 1000, settled := true, runEnded := true },
              mbds := [(7, { running := [(9, .laneRepair 3 1), (9, .hardRepair 4 5), (9, .softRepair 5 6), (9, .retrain 6), (9, .rewrite 7 8),
                                         (9, .patrol 8 9)],
                             sparesUsed := List.range 63 })] }

theorem witness_MaintenanceWindows :
    let x := maint.mbd 7
    let waits := fun (item : MaintItem) => x.running.any (fun r => r.2 == item)
    maint.windowOpen = true ∧ waits (.laneRepair 3 1) = true ∧ waits (.hardRepair 4 5) = true ∧ waits (.softRepair 5 6) = true ∧
    waits (.retrain 6) = true ∧ waits (.rewrite 7 8) = true ∧ waits (.patrol 8 9) = true ∧ waits (.patrol 8 10) = false ∧
    (2 * 3 + min 1 (1 / 36) ∈ x.sparesUsed) ∧ (2 * 31 + min 1 (71 / 36) ∉ x.sparesUsed) ∧ x.sparesUsed.length = 63 ∧
    ((maint.mbd 7).running.map (fun r => MaintItem.channel r.2)).Nodup ∧
    (x.running.find? (fun r => r.2 == .softRepair 5 6) = some (9, .softRepair 5 6) ∧ x.running.find? (fun r => r.2 == .patrol 8 10) = none) ∧
    (2 * 5 + min 1 (9 / 36) ∈ x.sparesUsed ∧ live.windowOpen = false) ∧
    (let s : State := { maint with bdg := { dueFrom := some 3 } }
     s.windowOpen = true ∧ s.bdg.dueFrom.isSome = true ∧ 20 ≤ s.windowUs s.tik.tick) := by
  decide

theorem witness_EmergencyAndRefresh :
    (3 ∉ (live.mbd 0).retrained ∧ (2001 : Nat) ≠ 0) ∧ (3 ∈ ({ retrained := [3] } : StackState).retrained) ∧
    ([96, 80, 70, 60, 50, 40, 30, 255].length = 8 ∧ ∀ v ∈ [96, 80, 70, 60, 50, 40, 30, 255], v < 256) ∧
    (let m : MemGlobal := { refMode := 2, tickMode := 1 }
     live.tik.ticking = true ∧ (if m.refMode = 2 then 12800 else 3200) - (if m.tickMode = 1 then 6400 else 3200) ≠ 0) ∧
    State.reset.tik.ticking = false ∧
    (let x : StackState := { sparesUsed := [6] }
     2 * 3 + min 1 (35 / 36) ∈ x.sparesUsed ∧ 2 * 3 + min 1 (36 / 36) ∉ x.sparesUsed) := by
  decide

/-! ### Power, heat and the tick (12, 13) -/

/-- A device at the end of an epoch, with the measurements of the worked example after R346. -/
def epochEnd : State :=
  { live with pwr := { live.pwr with level := 0, epochsRunning := true, winTicks := 64, winTj := 88, winTHot := 79, winPFix := 380,
                                     winVmin := some 71600 } }

theorem witness_EpochDecision :
    epochEnd.tik.ticking = true ∧ epochEnd.tik.tick % 64 = 63 ∧ epochEnd.tik.cutoffPassed = false ∧ epochEnd.pwr.epochsRunning = true ∧
    epochEnd.pwr.winTicks ≠ 0 ∧ epochEnd.pwr.winVmin = some 71600 := by
  decide

/-- Step 1 is the cap step and step 0 the power step of the example (R344). -/
theorem witness_EpochDecision_steps :
    LeastStep (fun j => (380 + slabPower j) / 0.93 ≤ 2400) 1 ∧ LeastStep (fun j => (380 + slabPower j) / 0.93 ≤ 2600) 0 := by
  constructor
  · refine ⟨by decide, fun j hj => ?_, Or.inl ?_⟩
    · obtain rfl : j = 0 := by omega
      norm_num [slabPower]
    · norm_num [slabPower]
  · exact ⟨by decide, fun j hj => absurd hj (by omega), Or.inl (by norm_num [slabPower])⟩

theorem witness_SensorsAndBounds :
    (live.boot.phase = .running ∧ (56000 ≤ 59999 ∧ 59999 < 60000) ∧ (80000 < 84000 ∧ 84000 ≤ 84000)) ∧
    (isRegion0 (.pf 0) = true ∧ live.viewOpen (.pf 0) = true) ∧
    (let w := 1 + 16 * 15 + 256 * 1000
     bitsOf w 0 4 ≤ bitsOf w 4 4 ∧ 1000 ≤ bitsOf w 8 12 ∧ bitsOf w 8 12 ≤ 2600 ∧ 70 ≤ live.pwr.tjTarget ∧ live.pwr.tjTarget ≤ 100 ∧
     70 ≤ live.pwr.dramTarget ∧ live.pwr.dramTarget ≤ 90 ∧ live.pwr.ceil ≤ bitsOf w 0 4) ∧
    ¬ (1000 ≤ bitsOf (256 * 999) 8 12) ∧
    (let w := 70 + 256 * 70
     bitsOf w 0 8 = 70 ∧ bitsOf w 8 8 = 70 ∧ ¬ bitsOf (69 + 256 * 90) 0 8 ≥ 70) := by
  decide

theorem witness_BadgerReplans :
    (isRegion0 (.pf 0) = true ∧ live.viewOpen (.pf 0) = true) ∧
    (let s := fun (tick : Nat) => ({ live with tik := { live.tik with tick := tick }, bdg := { dueFrom := some 5 } } : State)
     (s 0).bdg.dueFrom = some 5 ∧ (s 0).tik.ticking = true ∧ 5 + 2 ^ 20 ≤ (s (5 + 2 ^ 20)).tik.tick ∧ (s (4 + 2 ^ 20)).tik.tick < 5 + 2 ^ 20) ∧
    (live.windowOpen = false ∧ maint.windowOpen = true ∧ maint.bdg.measuring = false) ∧
    (let s : State := { maint with bdg := { measuring := true } }
     s.windowOpen = true ∧ s.bdg.measuring = true ∧ ∀ g r, s.bdg.guardLog = g :: r → 15 < g.2) := by
  refine ⟨by decide, by decide, by decide, by decide, by decide, ?_⟩
  intro g r h
  cases h

/-- The device after the cut-off, its run phase and the settle phase of its tick. -/
def settled : State :=
  { live with tik := { live.tik with cutoffPassed := true, runEnded := true, settled := true }, atLatch := [.recipe 6 ⟨1, false, 1⟩] }

theorem witness_CutoffAndLatch :
    (live.tik.ticking = true ∧ live.tik.cutoffPassed = false ∧ live.pwr.restrict = false) ∧
    (settled.boot.phase = .running ∧ settled.fab.trainStart.isSome = true ∧ settled.tik.ticking = true ∧ settled.tik.settled = true ∧
      settled.atLatch = [.recipe 6 ⟨1, false, 1⟩] ∧ 6 < settled.recipe.length) ∧
    (let s : State := { live with tik := { nextLatch := some 5 } }
     s.tik.ticking = false ∧ s.tik.nextLatch.isSome = true ∧ s.fab.trainStart.isSome = true) ∧
    live.atLatch = [] := by
  decide

/-- A BAD stripe of the ACTIVE copy in the settle phase. -/
def badState : State := { settled with bas := { copy0 := { (flashCopy .active) with stripeMap := [(0, { state := .bad })] } } }

theorem witness_RunPhaseAndSettle :
    (live.tik.ticking = true ∧ live.tik.runEnded = false ∧
      live.tik.latchNs + live.tik.stallNs + (10 * live.tik.len - 1000 * (0 + live.tik.settleUs)) ≤ 984000) ∧
    (let s : State := { live with tik := { live.tik with runEnded := true } }
     s.tik.ticking = true ∧ s.tik.runEnded = true ∧ s.tik.settled = false ∧ s.badStripes = []) ∧
    (((badState.copy 0).stripe 0).state = .bad ∧ badState.badStripes.contains (0, 0) = true ∧ badState.tik.settled = true ∧
      badState.tik.doneSent = none) := by
  decide

theorem witness_PreemptAndResume :
    Ready live (.pf 0) pTik true ∧ (live.dom 1).phase = .active ∧ (live.dom 1).preemptAt = none ∧ (live.dom 2).phase ≠ .active ∧
    (let s := withDom live 1 { dom1 with phase := .preempted }
     Ready s (.pf 0) pTik true ∧ (s.dom 1).phase = .preempted ∧ s.lentFrom 1 = [] ∧ (1 : BitVec 54).toNat < 2 ∧ (s.dom 1).resumeAt = none) ∧
    (withDom live 2 { phase := .active, loan := some (2, 1, 1) }).lentFrom 1 ≠ [] := by
  unfold Ready; decide

/-! ### Slabs (12) -/

/-- A slab of tag 9 of a kind, and states whose domain d holds it. -/
def slabOfKind (kind d : Nat) (ws : List W64) : Slab :=
  { order := 4, words := [w64 (kind + 256 * d + 9 * 2 ^ 32), 0, 0, 0] ++ ws, tick := 255, planStop := 10, planEnd := 10, recipe := [] }
def withSlab (d : Nat) (b : Slab) : State := withDom live d { live.dom d with slabs := [b] }

/-- The premises of a start of domain d's slab b with tag 9, 100 ns after the latch. -/
def Starts (d : Nat) (b : Slab) : Prop :=
  ((withSlab d b).dom d).slabOf 9 = some b ∧
  ((withSlab d b).atTime 100).mayStart d b (((withSlab d b).atTime 100).planOff 100) = true

/-- What the work of slab b of domain d leaves, begun 100 ns after the latch where no read meets an error. -/
def ran (d : Nat) (b : Slab) : RunResult :=
  let m := workBegins ((withSlab d b).atTime 100) d b 100 []
  let run : Slab := { b with state := .running, startOff := ((withSlab d b).atTime 100).planOff 100, stalledNs := 0, recipe := live.recipe, sram := m.2,
                             deferFrom := none, demDue := if b.demand = [] then 0 else 100 + b.demNs.floor.toNat, busyFrom := 100, creditReturned := true }
  (m.1.updSlab d b.order (fun _ => run)).runSlab d run m.2

theorem witness_SlabsStart :
    let b := slabOfKind 7 1 [0]
    let scrub := { slabOfKind 8 0 [w64 (3 + 2 * 2 ^ 27)] with state := .planned }
    let move := { slabOfKind 7 1 [0, 4096, 64] with state := .planned }
    Starts 1 { b with state := .paused } ∧ Starts 1 { b with state := .planned, dep := .failed } ∧
    (Starts 1 { b with state := .planned, demand := [3] } ∧ b.dep = .met ∧ ({ b with demand := [3] } : Slab).waitsPages = true) ∧
    (Starts 0 scrub ∧ scrub.waitsPages = false ∧ (hdrOf scrub.words).kind = 8 ∧ (ran 0 scrub).status.noWork = false) ∧
    (Starts 1 move ∧ (hdrOf move.words).kind = 7 ∧ (hdrOf move.words).sub = 0 ∧ move.sharedWith = [] ∧ (ran 1 move).status.noWork = false ∧
      (live.rdMem 1 (moveBody move.words).src (moveBody move.words).bytes).2 = false ∧
      poisonHit (live.dom 1).poison 64 (moveBody move.words).dst (moveBody move.words).bytes = false) := by
  unfold Starts; decide +kernel

/-- A BASE_PRODUCT that finds no ACTIVE copy ends without work, and so does a SCRUB slab with a pinned page (R23, R452). -/
theorem witness_SlabsStart_noWork :
    (let b := { slabOfKind 1 1 (List.replicate 12 0) with state := .planned }
     Starts 1 b ∧ b.dep = .met ∧ b.waitsPages = false ∧ (ran 1 b).status.noWork = true) ∧
    (let b := { slabOfKind 8 0 [w64 (63 + 2 * 2 ^ 27)] with state := .planned }
     Starts 0 b ∧ b.dep = .met ∧ b.waitsPages = false ∧ (ran 0 b).status.noWork = true) := by
  unfold Starts; decide +kernel

/-- Domain 1 with a device slab. -/
def withDev (r : DevSlabRec) : State := withDom live 1 { dom1 with devSlabs := [r] }

theorem witness_SlabsStart_device :
    let starts := fun (r : DevSlabRec) => ((withDev r).dom 1).devSlabs.find? (fun q => q.kind == r.kind) = some r ∧
      ((withDev r).atTime 100).mayStartDev 1 r (((withDev r).atTime 100).planOff 100) = true
    starts { kind := .carter, state := .paused } ∧ starts { kind := .cooper, state := .planned } := by
  decide +kernel

theorem witness_SlabsPauseAndEnd :
    let b := slabOfKind 7 1 [0]
    (let c := { b with state := .running, planStop := 5 }
     ((withSlab 1 c).dom 1).slabOf 9 = some c ∧ (withSlab 1 c).inRun = true ∧ c.state = .running ∧ c.planStop < c.planEnd ∧
     c.planStop < ((withSlab 1 c).atTime 100).planOff 100 + 1) ∧
    (let r : DevSlabRec := { kind := .save, state := .running, planStop := 5, planEnd := 10 }
     ((withDev r).dom 1).devSlabs.find? (fun q => q.kind == r.kind) = some r ∧ r.planStop < r.planEnd ∧
     r.planStop < ((withDev r).atTime 100).planOff 100 + 1) ∧
    (let c := { b with state := .running, ran := true, status := .sharedPoison }
     ((withSlab 1 c).dom 1).slabOf 9 = some c ∧ ((withSlab 1 c).atTime 100).mayEnd 1 c = true ∧ c.ran = true ∧
     c.poisonTick = 0 ∧ (∀ e ∈ ((withSlab 1 c).dom 1).slabs, e.order = c.order → e = c) ∧ (withSlab 1 c).live 1 = true) ∧
    (let c := { b with state := .running, ran := true, status := .done }
     ((withSlab 1 c).dom 1).slabOf 9 = some c ∧ ((withSlab 1 c).atTime 100).mayEnd 1 c = true ∧ c.ran = true ∧ c.status ≠ .sharedPoison ∧
     (hdrOf c.words).kind ≠ 6 ∧ c.effects = [] ∧ c.pageFailed = false) ∧
    (let r : DevSlabRec := { kind := .restore, state := .running, planStop := 5, planEnd := 5 }
     ((withDev r).dom 1).devSlabs.find? (fun q => q.kind == r.kind) = some r ∧ (withDev r).inRun = true ∧ r.planEnd ≤ r.planStop ∧
     ((withDev r).atTime 100).mayEndDev 1 r = true) ∧
    (let r : DevSlabRec := { kind := .save, state := .running, planStop := 5, planEnd := 5 }
     ((withDev r).atTime 100).mayEndDev 1 r = true ∧ ((withDev r).dom 1).restoring = false ∧
     ((withDom (withDev r) 1 { ((withDev r).dom 1) with restoring := true }).dom 1).restoring = true) := by
  decide +kernel

/-! ### The tick tree (12, 14) -/

/-- A device that hears three offers, and its ports. -/
def tree (k : TikState) : State :=
  { live with tik := k, fab := { live.fab with ports := [(0, { state := .up, peerDevice := 6 }), (3, { state := .up, peerDevice := 4 })] } }

theorem witness_TickMasters :
    (let s := tree { prio := 3 }
     s.fab.trainStart.isSome = true ∧ (s.port 0).state = .up ∧ (1 : Nat) ≠ s.fab.self ∧ (255, 1) ∉ s.tik.offers) ∧
    (let s := tree { prio := 3, offers := [(7, 9), (7, 4), (0, 1)] }
     s.tik.ticking = false ∧ s.tik.master = none ∧ BestOf ((s.tik.prio, s.fab.self) :: s.tik.offers.filter (fun o => o.2 != s.fab.self)) (7, 4)) ∧
    (let s := tree { prio := 3 }
     BestOf ((s.tik.prio, s.fab.self) :: s.tik.offers.filter (fun o => o.2 != s.fab.self)) (3, 5)) ∧
    (let s := tree { ticking := true, master := some 9, prio := 3, offers := [(7, 9), (6, 4)] }
     s.tik.ticking = true ∧ s.tik.isMaster = false ∧ s.tik.master = some 9 ∧ (9 : Nat) ≠ s.fab.self ∧ s.tik.nextLatch = none ∧
     s.tik.latchNs + 10 * s.tik.len + 2 * (10 * s.tik.len) ≤ 3000000 ∧
     BestOf ((s.tik.prio, s.fab.self) :: (s.tik.offers.filter (fun o => o.2 != 9)).filter (fun o => o.2 != s.fab.self)) (6, 4)) ∧
    (let s := tree { isMaster := true, refExt := true }
     s.tik.isMaster = true ∧ s.tik.refExt = true ∧ s.tik.refLost = false) := by
  unfold BestOf; decide +kernel

/-- No offer is left for a device that itself never becomes master (PRIO 0). -/
theorem witness_TickMasters_nobody : ∀ o, ¬ BestOf ([(0, 5)] : List (Nat × Nat)) o := by
  rintro o ⟨h, h0, _⟩
  simp only [List.mem_singleton] at h
  subst h
  exact h0 rfl

theorem witness_TokensAndSymbols :
    let token : DoneToken := { tick := 255, stampNs := 7, stretchNs := 0, cause := 0, device := 2 }
    (let s := tree { ticking := true, tick := 255, master := some 4, doneSent := some 3 }
     s.tik.ticking = true ∧ token.tick.toNat = s.tik.tick ∧ 0 ∈ s.childPorts ∧ (∀ g ∈ s.tik.doneGot, g.1 ≠ 0) ∧ s.tik.isMaster = false ∧
     ∀ p ∈ s.childPorts, p = 0 ∨ ∃ g ∈ s.tik.doneGot, g.1 = p) ∧
    (let k : TikState := { ticking := true, tick := 255, isMaster := true, master := some 5, settled := true, doneSent := some 3 }
     let s := tree { k with doneGot := [(0, token), (3, token)] }
     s.childPorts = [0, 3] ∧ s.tik.isMaster = true ∧ s.tik.settled = true ∧ s.tik.nextLatch = none ∧ s.tik.doneSent.isSome = true ∧
     ∀ p ∈ s.childPorts, ∃ g ∈ s.tik.doneGot, g.1 = p) ∧
    (let s := tree { ticking := true, master := some 9 }
     s.fab.trainStart.isSome = true ∧ (s.port 0).state = .up ∧ (9 : Nat) ≠ s.fab.self ∧ s.tik.master = some 9 ∧ s.tik.dropped = false) ∧
    (let s := tree { ticking := true, master := some 9, dropped := true }
     s.tik.master = some 9 ∧ s.tik.ticking = true ∧ s.tik.dropped = true) ∧
    ((tree {}).tik.master = none ∧ (tree {}).tik.ticking = false) := by
  decide +kernel

/-! ### Fabric ports (14) -/

theorem witness_PortsTrain :
    (let s : State := { live with fab := { live.fab with trainStart := none } }
     s.boot.phase = .running ∧ s.fab.selfValid = true ∧ s.fab.trainStart = none) ∧
    (live.fab.trainStart = some 0 ∧ (live.port 0).state = .down ∧ (live.port 0).enable = true ∧ (live.port 0).signal = false ∧
      live.fab.selfValid = true ∧ 10 ^ 10 ≤ 0 + 10 ^ 10) ∧
    (({ live with fab := { live.fab with selfValid := false } } : State).fab.selfValid = false) ∧
    ((withPort live 0 { state := .training }).port 0).state = .training ∧ ((withPort live 12 { state := .keying }).port 12).state = .keying ∧
    ((~~~(0xEE : BitVec 8)).toNat % 16 ≠ 0 ∧ (~~~(0xEE : BitVec 8)).toNat / 16 ≠ 0) ∧
    ((~~~(0xEF : BitVec 8)).toNat % 16 = 0 ∧ (6 : Nat) = neighbour live.fab.self (dirOf 0) ∧ (3 : Nat) = farPort 0 ∧ interRack 0 = false) ∧
    (interRack 12 = true ∧ live.fab.self < neighbour live.fab.self (dirOf 12)) ∧
    (live.shows (.pf 0) (pFab 17) = true ∧ (live.port 17).enable = true ∧ live.fab.trainStart.isSome = true) ∧
    ((withPort live 17 { enable := false }).port 17).enable = false := by
  decide +kernel

/-- A flit with a header and a payload of zeros, whose CRC holds (R367). -/
def flitOf (hdr : Nat) : List Byte :=
  let b := leBytes 8 hdr ++ List.replicate 244 0
  b ++ leBytes 4 (crc32c b)

/-- A device with UP ports 0 and 3 within its rack, with three flits kept for replay on port 0. -/
def linked : State :=
  { live with fab := { live.fab with ports := [(0, { state := .up, peerDevice := 6, rxSeq := 7, replay := [(3, [1]), (4, [2])] }),
                                               (3, { state := .up, peerDevice := 4 })] } }

theorem witness_FlitsArrive_crc :
    let hdr := 2 + 7 * 2 ^ 22
    (flitOf hdr).length = 256 ∧ ofLe (((flitOf hdr).drop 252).take 4) = crc32c ((flitOf hdr).take 252) ∧
    ofLe ((flitOf hdr).take 8) = hdr ∧ bitsOf hdr 0 3 = 2 ∧ bitsOf hdr 22 12 = (linked.port 0).rxSeq ∧
    ofLe (((List.replicate 256 (0 : Byte)).drop 252).take 4) ≠ crc32c ((List.replicate 256 (0 : Byte)).take 252) := by
  decide +kernel

theorem witness_FlitsArrive_data :
    let hdr := 1 + 7 * 2 ^ 22
    let pl := ((flitOf hdr).drop 8).take 224
    bitsOf hdr 0 3 = 1 ∧ (linked.port 0).secure = false ∧ bitsOf (ofLe (pl.take 8)) 8 15 ≠ linked.fab.self ∧
    (linked.nextHop (some (let d := dirOf 0; if 8 ≤ d then 0 else d / 2)) (bitOf hdr 5) pl).isSome = true ∧
    bitsOf 0 0 3 = 0 ∧ bitsOf (1 + 8 * 2 ^ 22) 22 12 ≠ (linked.port 0).rxSeq := by
  decide +kernel

/-- A secure port, and a flit of zeros for it with its tag (R396). -/
def securePort : PortStateRec := { state := .up, peerDevice := 6, secure := true, linkKeys := List.replicate 88 0 }
def sealedFlit : List Byte :=
  let key := linkKey securePort.rxKeys (securePort.peerDevice < live.fab.self)
  let b := leBytes 8 2 ++ List.replicate 224 0 ++ gcmTag key.1 (linkNonce key.2 0) (linkAad 2) (List.replicate 224 0) ++ List.replicate 4 0
  b ++ leBytes 4 (crc32c b)

theorem witness_FlitsArrive_secure :
    let hdr := ofLe (sealedFlit.take 8)
    let key := linkKey securePort.rxKeys (securePort.peerDevice < live.fab.self)
    let tag := gcmTag key.1 (linkNonce key.2 securePort.rxCount) (linkAad hdr) ((sealedFlit.drop 8).take 224)
    sealedFlit.length = 256 ∧ ofLe ((sealedFlit.drop 252).take 4) = crc32c (sealedFlit.take 252) ∧ bitsOf hdr 0 3 = 2 ∧
    bitsOf hdr 22 12 = securePort.rxSeq ∧ bitOf hdr 46 = securePort.rxKeyId ∧ (sealedFlit.drop 232).take 16 = tag ∧
    ((flitOf 2).drop 232).take 16 ≠ tag := by
  decide +kernel

theorem witness_FlitsArrive_retry :
    let x : PortStateRec := { (linked.port 0) with retrySeq := 3, retryCount := 8 }
    (linked.port 0).state = .up ∧ (if (linked.port 0).retrySeq = 3 ∧ (linked.port 0).retryCount ≠ 0 then 9 else 1) ≤ 8 ∧
    8 < (if x.retrySeq = 3 ∧ x.retryCount ≠ 0 then x.retryCount + 1 else 1) := by
  decide +kernel

/-- A secure UP port between racks, in a state of its exchange. -/
def keyed (st : PortState) (e : Option KeyExchange) (new : List Byte) : State :=
  withPort live 12 { state := st, peerDevice := 6, secure := true, exchange := e, newKeys := new }

theorem witness_LinkKeys :
    (let s := keyed .up none []
     interRack 12 = true ∧ (s.port 12).state = .up ∧ (s.port 12).secure = true ∧ (s.port 12).exchange = none ∧ (s.port 12).newKeys = [] ∧
     s.fab.self < (s.port 12).peerDevice) ∧
    (let s := keyed .up (some { rekey := true }) []
     (s.port 12).rekeyStalled = false ∧ ∃ e, (s.port 12).exchange = some e ∧ e.rekey = true) ∧
    (let s := withPort live 12 { state := .keying, peerDevice := 4 }
     (s.port 12).peerDevice < s.fab.self ∧ (s.port 12).state = .keying) ∧
    (let e : KeyExchange := { kem := some 1, ecdh := some 2 }
     ((keyed .keying (some e) []).port 12).exchange = some e ∧ e.kem = some 1 ∧ e.ecdh = some 2 ∧ e.keys = []) ∧
    (let e : KeyExchange := { keys := [1], signed := true, rekey := true }
     let x := (keyed .up (some e) []).port 12
     x.exchange = some e ∧ e.rekey = true ∧ e.keys ≠ [] ∧ e.signed = true ∧ x.txNew = false ∧ x.rxNew = false) ∧
    (let e : KeyExchange := { keys := [1], signed := true }
     ((keyed .keying (some e) []).port 12).exchange = some e ∧ e.rekey = false) ∧
    (let x := (keyed .up none [1]).port 12
     x.newKeys ≠ [] ∧ x.txNew = false) := by
  refine ⟨by decide, ⟨by decide, ⟨_, rfl, rfl⟩⟩, ?_⟩
  decide

theorem witness_LinkKeys_engines :
    let s : State := { live with lks := { engineA := [1], engineB := [(1, 1, 0)], engineC := [12] } }
    s.lks.engineA = 1 :: [] ∧ s.lks.engineB = (1, 1, 0) :: [] ∧ s.window (copyFn 1) 0 40960 = some (bankBytes * 10) ∧ (s.dom 1).alive = true ∧
    12 ∈ s.lks.engineC ∧ ((withPort s 12 { exchange := some {} }).port 12).exchange.isSome = true := by
  decide

/-! ### Transactions and collectives (14) -/

/-- The next state of an outcome, or a state of its own where there is none. -/
def nextOf (o : Host.Outcome State Fault Refusal) : State :=
  match o with
  | .next t => t
  | .fault _ => State.reset
  | .refused _ => State.reset

theorem witness_RemoteAccess :
    live.tagHolder txn.ptag.toNat = some 1 ∧ dom1.col.rdEn = true ∧ dom1.col.wrEn = true ∧ (live.meetErrors 1 []).2 = false ∧
    (txn.addr % 64 = 0 ∧ live.inRange 1 txn.addr 64 = true ∧ live.resident 1 txn.addr 64 = true ∧
      ((live.meetErrors 1 []).1.rdMem 1 txn.addr 64).2 = false ∧ live.sharedSpan 1 txn.addr 64 = false) ∧
    (let t := { txn with stype := 1, sfmt := 1 }
     let k := roundUp (t.nblk * slotStore t.stype t.sfmt) 64
     raddFormats 2 0 = true ∧ raddFormats t.stype t.sfmt = true ∧ fmtDefined t.sfmt = true ∧ live.inRange 1 txn.addr k = true ∧
     live.sharedSpan 1 txn.addr k = false ∧ live.resident 1 txn.addr k = true ∧ ((live.meetErrors 1 []).1.rdMem 1 txn.addr k).2 = false) ∧
    (txn.aop ≤ 7 ∧ ((live.meetErrors 1 []).1.rdMem 1 txn.addr 8).2 = false) ∧ live.tagHolder 8 = none ∧
    (live.inRange 1 (2 ^ 47) 64 = false) ∧ (live.resident 1 (2097152 * 31) 64 = false ∧ live.inRange 1 (2097152 * 31) 64 = true) ∧
    (((withDom live 1 { dom1 with poison := [2] }).meetErrors 1 []).1.rdMem 1 txn.addr 64).2 = true ∧
    (let s := withDom live 1 { dom1 with col := { ptag := 7 } }
     s.tagHolder 7 = some 1 ∧ (s.dom 1).col.rdEn = false ∧ (s.dom 1).col.wrEn = false) ∧
    (raddFormats 1 15 = false ∧ 7 < ({ txn with aop := 8 } : Txn).aop) := by
  decide +kernel

theorem witness_RemoteAccess_stripe :
    let c : CopySlot := { state := .active, gen := 1, stripes := 1, stripeMap := [(0, { state := .resident, servable := true })] }
    let s : State := { live with bas := { copy1 := c } }
    let t := { txn with ptag := 5, addr := 0, masks := [0, 0, 1, 0, 0, 0] }
    let m := fun i => (t.masks.getD i 0).toNat
    let named := fun (y : CopySlot) => y.state ≠ .empty ∧ y.state ≠ .retiring ∧ y.gen = m 2 + 65536 * m 3 ∧ y.modelId = m 4 + 65536 * m 5 ∧
      y.shardIndex = m 0 + 65536 * m 1
    t.ptag.toNat = (s.dom 0).col.ptag ∧ t.ptag ≠ 0xFFFF ∧ named (s.copy 1) ∧ ¬ named (s.copy 0) ∧
    (let y := (s.meetErrors 0 []).1.copy 1
     (y.stripe 0).servable = true ∧ (y.stripe 0).state = .resident ∧ (y.stripe 0).staged = false ∧
     poisonHit y.poison 64 0 65536 = false ∧ ¬ (y.stripe 1).state = .resident) ∧ ¬ named (live.copy 1) ∧ ¬ named (live.copy 0) := by
  decide +kernel

/-- Domain 1 with an open collective that waits for TXID 3. -/
def coll : CollOp := { id := 9, order := 4, waiting := [(3, 64)] }

theorem witness_AnswersAndCollectives :
    (let s := withDom live 1 { dom1 with col := { dom1.col with ops := [coll] } }
     s.tagHolder txn.ptag.toNat = some 1 ∧ (s.dom 1).col.ops.find? (fun p => p.waiting.any (fun w => w.1 == txn.txid)) = some coll ∧
     coll.waiting.find? (fun w => w.1 == txn.txid) = some (txn.txid, 64) ∧ txn.status = 0) ∧
    (let c := { coll with sinceTick := 200 }
     let s := withDom live 1 { dom1 with col := { dom1.col with ops := [c] } }
     (s.dom 1).col.ops.find? (fun p => p.id == 9) = some c ∧ c.sinceTick ≠ 0 ∧ c.finished = false ∧ c.failed = false ∧
     c.sinceTick + (s.dom 1).col.timeout < s.tik.tick + 1) ∧
    (live.tagHolder 8 = none ∧ (live.dom 1).collSlab txn.txid = none) := by
  decide +kernel

/-- An ALL_REDUCE of two devices over 256 bytes, whose COLL_ID is the transaction's TXID (R384). -/
def collSlab : Slab := { order := 4, words := [w64 (6 + 256 + 9 * 2 ^ 32), 0, 0, 0, w64 (3 + 2 * 2 ^ 32), 0, 0, 0, 256, 0], state := .running }
def collState (ops : List CollOp) : State := withDom live 1 { dom1 with slabs := [collSlab], col := { dom1.col with ops := ops } }

theorem witness_AnswersAndCollectives_data :
    let o : CollOp := { id := 3, order := 4 }
    let t := { txn with addr := 0 }
    (live.tagHolder t.ptag.toNat = some 1 ∧ (live.dom 1).collSlab t.txid = none) ∧
    ((collState []).tagHolder t.ptag.toNat = some 1 ∧ ((collState []).dom 1).collSlab t.txid = some collSlab ∧
      ((collState []).dom 1).col.ops.find? (fun p => p.id == t.txid) = none) ∧
    (((collState [o]).dom 1).collSlab t.txid = some collSlab ∧ ((collState [o]).dom 1).col.ops.find? (fun p => p.id == t.txid) = some o ∧
      o.failed = false ∧ o.step0 = 0 ∧ (collBody collSlab.words).fits (hdrOf collSlab.words).sub 0 0 t.addr 1 = true ∧
      (collBody collSlab.words).fits (hdrOf collSlab.words).sub 0 1 t.addr 1 = true ∧
      (collBody collSlab.words).fits (hdrOf collSlab.words).sub 0 2 t.addr 1 = false) ∧
    (let o2 := { o with step0 := 1 }
     ((collState [o2]).dom 1).col.ops.find? (fun p => p.id == t.txid) = some o2 ∧ 0 < o2.step0) := by
  decide +kernel

/-! ### Stripes (09) -/

theorem shaBlocks_length (n : Nat) : ∀ hs m, hs.length = 8 → (shaBlocks n hs m).length = 8 := by
  have round : ∀ v w, v.length = 8 → (shaRound v w).length = 8 := by
    intro v w h
    unfold shaRound
    split
    · rfl
    · exact h
  have rounds : ∀ (l : List (Nat × Nat)) v, v.length = 8 →
      (l.foldl (fun v p => shaRound v (p.1 + (shaK >>> (64 * p.2)) % 2 ^ 64)) v).length = 8 := by
    intro l
    induction l with
    | nil => intro v h; exact h
    | cons p r ih => intro v h; exact ih _ (round _ _ h)
  induction n with
  | zero => intro hs m h; exact h
  | succ n ih =>
    intro hs m h
    apply ih
    simp only [shaBlock, List.length_zipWith, h, rounds _ hs h]
    rfl

theorem words_length : ∀ hs : List Nat, hs.length = 8 → (((hs.take 6).flatMap (fun h => leBytes 8 (revBytes 8 h))).take 8).length = 8 := by
  rintro (_ | ⟨a, _ | ⟨b, r⟩⟩) h
  · cases h
  · cases h
  · rfl

/-- The first eight bytes of a digest are eight bytes. -/
theorem digest_length (bs : List Byte) : ((sha384 bs).take 8).length = 8 :=
  words_length _ (shaBlocks_length _ _ _ (by rfl))

/-- A copy whose digest table, at 128 in domain 0, holds the digest of its stripe. -/
def digested (bs : List Byte) (st : CopyState) (x : Stripe) : State :=
  { withDom settled 0 { dom0 with mem := memPut [] 128 ((sha384 bs).take 8) } with
    bas := { copy0 := { (flashCopy st) with hostOk := true, peers := [(6, false)], stripeMap := [(0, x)] } } }

theorem digested_ok (bs : List Byte) (st : CopyState) (x : Stripe) (h : bs.length = 65536) : (digested bs st x).digestOk 0 0 bs = true := by
  have hr : (digested bs st x).rdMem 0 128 8 = (memGet (memPut [] 128 ((sha384 bs).take 8)) 128 8 ++ [], false) := rfl
  have hm : memGet (memPut [] 128 ((sha384 bs).take 8)) 128 8 = (sha384 bs).take 8 := by
    apply List.ext_getElem (by simp only [memGet_length, digest_length])
    intro i h1 h2
    have hi : i < 8 := by simpa using h1
    have := memGet_get (memPut [] 128 ((sha384 bs).take 8)) (memPut_wf _ _ _ rfl) 128 8 i
    rw [if_pos hi, memRead_memPut, if_pos (by rw [digest_length]; omega), show 128 + i - 128 = i by omega] at this
    simpa only [List.getD_eq_getElem?_getD, List.getElem?_eq_getElem h1, List.getElem?_eq_getElem h2, Option.getD_some] using this
  show (let (d, bad) := (digested bs st x).rdMem 0 128 8; !bad && bs.length == 65536 && (sha384 bs).take 8 == d) = true
  rw [hr, hm, List.append_nil, h]
  simp

/-- A refetch that verifies (R242): its premises in a settle phase. -/
theorem witness_RunPhaseAndSettle_refetch :
    let bs := List.replicate 65536 (0 : Byte)
    let s := digested bs .active { state := .bad }
    ((s.copy 0).stripe 0).state = .bad ∧ s.badStripes.contains (0, 0) = true ∧ s.tik.settled = true ∧ s.digestOk 0 0 bs = true :=
  ⟨rfl, rfl, rfl, digested_ok _ _ _ List.length_replicate⟩

theorem witness_StripesOfACopy :
    let bs := List.replicate 65536 (0 : Byte)
    let s := digested bs .building {}
    let served := ((s.copy 0).state = .active ∨ (s.copy 0).state = .retiring) ∧ ((s.copy 0).stripe 0).state = .bad
    (s.fetching 0 0 = true ∧ ¬ served ∧ s.digestOk 0 0 bs = true) ∧ s.digestOk 0 0 [] = false ∧ s.wanted 0 1 = false ∧
    (s.copy 0).underParent = false ∧ (s.copy 0).sources[1]? = some (.flash, 0) ∧ (s.copy 0).sources[2]? = some (.host, 0) ∧
    (s.copy 0).sources[3]? = none ∧ s.badStripes = [] :=
  ⟨⟨rfl, by rintro ⟨h | h, _⟩ <;> exact absurd h (by decide), digested_ok _ _ _ List.length_replicate⟩, rfl, rfl, rfl, rfl, rfl, rfl, rfl⟩

/-- A stripe of an ACTIVE copy that is BAD in the settle phase: a host read's data are its refetch. -/
theorem witness_StripesOfACopy_served :
    let s := digested [] .active { state := .bad }
    ((s.copy 0).state = .active ∧ ((s.copy 0).stripe 0).state = .bad) ∧ s.badStripes.contains (0, 0) = true ∧ s.tik.settled = true :=
  ⟨⟨rfl, rfl⟩, rfl, rfl⟩

theorem witness_StripesOfACopy_peer :
    let c : CopySlot := { state := .building, stripes := 1, peers := [(9, true), (6, false)] }
    let s : State := { live with bas := { copy0 := c } }
    let t := { txn with txid := 0 }
    (s.fetching 0 0 = true ∧ c.state ≠ .active ∧ c.state ≠ .retiring ∧ t.txid.toNat / 2 ^ 31 = 0 ∧ t.txid.toNat % 2 ^ 31 = 0 ∧
      c.sources[0]? = some (.peer, t.src) ∧ c.underParent = true ∧ t.status = 0 ∧ ([] ++ t.slots.flatten).length < 65536) ∧
    ({ t with status := 7, addr := 4 }.status = 7 ∧ { t with status := 7, addr := 4 }.addr % 4 = 0 ∧
      { t with status := 7, addr := 6 }.addr % 4 = 2 ∧ { t with status := 7, addr := 5 }.addr % 4 ≠ 0 ∧ { t with status := 5 }.status ≠ 0) ∧
    (({ c with parentFailed := true } : CopySlot).sources ≠ [] ∧ ({ c with peers := [(9, true)], parentFailed := true } : CopySlot).sources = []) ∧
    ({ c with peers := [(9, false), (6, false)] } : CopySlot).sources[1]? = some (.peer, 6) := by
  decide

/-! ### Register writes (17) -/

theorem witness_DomainSettingsWaitForLatch :
    let f := fun (w lo n : Nat) => bitsOf w lo n
    (∀ p ∈ [pTik, 0x10, pTir, pCol, pUpd], live.shows (.pf 1) p = true ∧ isPf (.pf 1) = true ∧ live.viewDom (.pf 1) p = 1) ∧
    (f 1023 0 10 ≠ 0 ∧ (live.otherShares 1).1 + f 1023 0 10 ≤ live.tik.wCap) ∧ f 1024 0 10 = 0 ∧
    (let s : State := { live with tik := { live.tik with wCap := 1 } }
     s.shows (.pf 1) pTik = true ∧ s.tik.wCap < (s.otherShares 1).1 + f 2 0 10) ∧
    ((live.doms.map (fun p => if p.1 = 1 then 0 else live.dueSlots p.1)).sum + f 4096 0 13 ≤ 4096 ∧
      4096 < (live.doms.map (fun p => if p.1 = 1 then 0 else live.dueSlots p.1)).sum + f 4097 0 13) ∧
    ((live.dom 1).phase ≠ .scrubbing ∧ f 256 0 9 ≠ 0 ∧ live.ratesOk ((live.otherShares 1).2.1 + f 256 0 9) ((live.otherShares 1).2.2 + f 256 16 7) = true ∧
      live.ratesOk ((live.otherShares 1).2.1 + f 257 0 9) ((live.otherShares 1).2.2 + f 257 16 7) = false) ∧
    ((live.doms.map (fun p => if p.1 = 1 then 0 else (live.dueFlashRate p.1).1)).sum + f 112 0 7 ≤ 112 ∧
      ¬ (live.doms.map (fun p => if p.1 = 1 then 0 else (live.dueFlashRate p.1).1)).sum + f 113 0 7 ≤ 112) ∧
    (f 5 0 16 ≠ 0xFFFF ∧ (∃ q ∈ live.doms, q.1 ≠ 1 ∧ (q.2.col.ptag = f 5 0 16 ∨ (live.duePtag q.1).1 = f 5 0 16)) ∧
      ¬ ∃ q ∈ live.doms, q.1 ≠ 1 ∧ (q.2.col.ptag = f 7 0 16 ∨ (live.duePtag q.1).1 = f 7 0 16)) ∧
    ((!(live.dom 1).batches.isEmpty) = false ∧ live.live 2 = false ∧ rec1.bankFirst + rec1.nsb ≤ f (10 + 6 * 128) 0 7 ∧
      f (10 + 6 * 128) 0 7 + f (10 + 6 * 128) 7 7 ≤ rec1.bankFirst + rec1.banks ∧
      ¬ f (10 + 7 * 128) 0 7 + f (10 + 7 * 128) 7 7 ≤ rec1.bankFirst + rec1.banks) ∧
    isPf (.vf 1) = false := by
  decide +kernel

theorem witness_DeviceAndStatisticsWrites :
    let f := fun (w lo n : Nat) => bitsOf w lo n
    (live.shows (.pf 0) pVec = true ∧ isRegion0 (.pf 0) = true ∧ live.locked.contains pVec = false ∧
      recipeAllows 0 (f 8 0 4) = true ∧ recipeAllows 0 (f 0 0 4) = false) ∧
    (live.shows (.pf 0) 0x10 = true ∧ f (200 + 256) 8 16 ≠ 0 ∧ f (200 + 256) 0 8 ≤ 200 ∧ 200 * f (200 + 256) 0 8 ≤ live.tik.len ∧
      1000 * (f (200 + 256) 0 8 + live.tik.settleUs) + 14000 ≤ 10 * live.tik.len ∧ live.tik.next = none ∧ live.tik.later = none ∧
      ¬ f (201 + 256) 0 8 ≤ 200 ∧ ¬ f 200 8 16 ≠ 0) ∧
    (live.shows (.pf 0) pTik = true ∧ isPf (.pf 0) = true ∧ live.tik.isMaster = true ∧ live.tik.next = none ∧
      (let old := live.tik.dueTick
       5000 ≤ 100000 ∧ 4 ≤ old.2.1 ∧ 1 ≤ old.2.2.1 ∧ old.2.2.1 + 3 ≤ old.2.1 ∧ 40 ≤ old.2.2.2 ∧ 100 * old.2.2.2 ≤ 100000 ∧
       1000 * (live.memg.maintLen + old.2.1) + 14000 ≤ 10 * 100000 ∧ 1000 * (live.dueMaint.1 + old.2.1) + 14000 ≤ 10 * 100000)) ∧
    (live.shows (.pf 0) pCol = true ∧ live.shows (.pf 0) pDbg = true ∧ live.testState = true ∧ (live.dom 1).alive = true) ∧
    (live.shows (.vf 1) pVec = true ∧ isTenantRegion (.vf 1) = false ∧ (16 : BitVec 5).toNat ≤ 16 ∧ 16 < (17 : BitVec 5).toNat ∧
      (live.dom 1).upd.open_ = false) ∧
    (live.shows (.vf 1) pUpd = true ∧ f 40 0 6 ≤ 40 ∧ ¬ f 41 0 6 ≤ 40) ∧ isTenantRegion (.pf 1) = true := by
  decide +kernel

/-- A change of the tick's configuration that waits already, for the latch that the next write is for or for an earlier one (R310). -/
theorem witness_DeviceAndStatisticsWrites_waiting :
    let at_ := (live.tik.tick + 31) / 16 * 16
    let s := fun (n : Nat) => ({ live with tik := { live.tik with next := some (n, 100000, 20, 5, 40) } } : State)
    (s at_).tik.next = some (at_, 100000, 20, 5, 40) ∧ at_ ≤ at_ ∧ (s (at_ - 16)).tik.next = some (at_ - 16, 100000, 20, 5, 40) ∧
    ¬ at_ ≤ at_ - 16 := by
  decide

theorem witness_HeaderAndRegisterAccess :
    (live.shows (.vf 1) pTik = true ∧ live.shows (.pf 0) 0x7F = true ∧ live.shows (.vf 1) 0x7F = false ∧ blockOf 0x7F = some 1) ∧
    (let x : PageView := { event := 1 }
     x.event &&& 1 &&& ~~~x.enable ≠ 0 ∧ ¬ x.event &&& 2 &&& ~~~x.enable ≠ 0) ∧
    (live.answers (.vf 1) = true ∧ mapGet live.latches (live.latchKey (.vf 1) pTik (0x40 + 8 * 7)) = none) ∧
    (let s : State := { live with latches := [(live.latchKey (.vf 1) pTik 0x40, 5)] }
     mapGet s.latches (s.latchKey (.vf 1) pTik 0x40) = some 5) ∧
    (viewFn (.vf 1) ≠ viewFn (.pf 1) ∧ pTik < 256 ∧ (4095 : Nat) < 4096 ∧ live.viewDom (.vf 1) pTik < 64) ∧
    (live.answers (.vf 2) = true ∧ State.reset.answers (.pf 0) = false ∧ ((2 : Nat) ≠ 4 ∧ (2 : Nat) ≠ 8) ∧ (2 : Nat) % 4 ≠ 0) := by
  decide +kernel

theorem witness_EventSetInDevelAndReturn :
    (live.shows (.vf 1) pTik = true ∧ blockOf pTik = some 0 ∧ live.fuses.life = .devel ∧ (copyFn (live.viewCopy (.vf 1) pTik) = 0 ∨
      live.vfUp (copyFn (live.viewCopy (.vf 1) pTik)) = true)) ∧
    (let x : PageView := { enable := 16 }
     (16 : W32) &&& w32 (viewEvents (.vf 1) pTik) &&& ~~~x.event &&& x.enable ≠ 0) ∧
    (let s : State := { live with pci := { live.pci with unmasked := [2048 + 2] } }
     s.pci.unmasked.contains (2048 * 1 + (2 + 0)) = true) ∧
    live.pci.unmasked.contains (2048 + 2) = false ∧ (Life.prod ≠ .devel ∧ Life.prod ≠ .return_) := by
  decide +kernel

theorem witness_LocksFreezeFields :
    (live.shows (.pf 0) pTik = true ∧ isRegion0 (.pf 0) = true ∧ isRegion0 (.vf 1) = false ∧ live.answers (.pf 0) = true ∧
      mapGet live.latches (live.latchKey (.pf 0) pTik 0x20) = none) ∧
    (∀ p ∈ [pTik, pVec, pBas, 0x10, pNvm, 0x20], ({ live with locked := [pTik, pVec, pBas, 0x10, pNvm, 0x20] } : State).locked.contains p = true) := by
  decide +kernel

/-! ### The monitor (16) -/

theorem witness_MonitorCommands :
    State.reset.awake = false ∧ live.awake = true ∧
    (let s : State := { live with fuses := { live.fuses with life := .prod } }
     s.fuses.life = .prod ∧ s.boot.unlocked = false ∧ s.awake = true) ∧
    (live.fuses.life = .devel ∧ devicePage pPwr = true ∧ domainReg pPwr 4092 = false ∧ devicePage pTik = false) ∧
    ((blockOf pPwr).isSome = true ∧ counterScope (.pf 0) pBas ((0x78 - 0x40) / 8) (live.viewDom (.pf 0) pBas) = some dev) ∧
    (0 < 2 ^ (min live.dbg.traceLog2 20) ∧ 2 ^ (min live.dbg.traceLog2 20) ≤ 1) ∧
    (live.shows (.pf 0) pPwr = true ∧ live.shows (.pf 0) 0x18 = false) ∧
    (live.live 1 = true ∧ live.inRange 1 3 1 = true ∧ live.resident 1 3 1 = true ∧ (live.rdMem 1 3 1).2 = false ∧ live.sharedSpan 1 3 1 = false) ∧
    (let s := withDom live 1 { dom1 with poison := [0] }
     s.inRange 1 3 1 = true ∧ s.resident 1 3 1 = true ∧ (s.rdMem 1 3 1).2 = true) ∧
    (let s := withDom live 1 { dom1 with tir := { pages := [(0, { state := .stacked, shared := some 0 })] } }
     s.inRange 1 3 1 = true ∧ s.resident 1 3 1 = true ∧ s.sharedSpan 1 3 1 = true) ∧
    live.inRange 1 (2 ^ 47) 1 = false ∧ (live.dom 1).alive = true ∧ (live.dom 2).alive = false := by
  decide +kernel

/-! ## What the manual's worked examples give -/

/-- The example after R36: the NT3 group F1 70 15 holds codes 1, 6, 3, 0, 7, 2, 5, 0, and the NT2 byte 0x9A the digits 1, 0, 2, 2, 1. -/
theorem test_narrow_codes :
    ((blockCodes 9 ([0xF1, 0x70, 0x15] ++ List.replicate 9 0)).1.take 8) = [1, 6, 3, 0, 7, 2, 5, 0] ∧
    ((blockCodes 10 ([0x9A] ++ List.replicate 6 0)).1.take 5) = [1, 0, 2, 2, 1] := by decide +kernel

/-- The example after R422: 81 overhead frames. -/
theorem test_overhead_frames : ({ arrUnits := 16, banks := 16, range := 65536 } : DomRecord).ovhFrames 7 = 81 := by decide

/-- The example after R134: four projections of 2,048 by 2,048 at rank 16 take 209,152 bytes and 4 granules. -/
theorem test_variant_image :
    let e : SlotEntry := { rank8 := 2, projMask := 15, dir := (List.range 4).map (fun i => (i, ⟨2048, 2048, 256 + 52224 * i, 17664 + 52224 * i⟩)) }
    e.imageBytes = 209152 ∧ e.granuleCount = 4 := by decide +kernel

/-- The example after R346: E_dom of step 1 over a run phase of 980 microseconds. -/
theorem test_energy_budget : eDom 1 980000 = 1746508 := by decide +kernel

/-- The same example: the epoch decision gives step 1 without an override. -/
theorem test_epoch_decision :
    (nextOf (exec .epochDecision epochEnd)).pwr.next = 1 ∧ (nextOf (exec .epochDecision epochEnd)).pwr.nextValid = true ∧
    (nextOf (exec .epochDecision epochEnd)).pwr.nextOverride = none := by decide +kernel

/-- FIPS 180-4's digest of "abc" begins CB 00 75 3F, and CRC-32C of the digits 1 to 9 is E3069283 (R224, R367). -/
theorem test_digest_and_crc :
    (sha384 [0x61, 0x62, 0x63]).take 4 = [0xCB, 0x00, 0x75, 0x3F] ∧
    crc32c ((List.range 9).map (fun i => BitVec.ofNat 8 (0x31 + i))) = 0xE3069283 := by decide +kernel

/-- AES-256-GCM of nothing under the zero key has the tag 53 0F 8A FB ... (NIST's test case 13, R396). -/
theorem test_gcm_tag : (gcmTag 0 0 [] []).take 4 = [0x53, 0x0F, 0x8A, 0xFB] := by decide +kernel

/-! ## Single steps -/

/-- The generation after 0xFFFF is 1 (R118), and the slot is HELD. -/
theorem test_claim_wraps :
    let s := varState { gen := 0xFFFF } [w64 (64 + 32 * 2 ^ 48), w64 (0xFFFF + 8 * 2 ^ 16)]
    ((nextOf (exec (.claim (.vf 1) true 11 0xFFFF 0) s)).slot 11).gen = 1 ∧
    ((nextOf (exec (.claim (.vf 1) true 11 0xFFFF 0) s)).slot 11).state = .held := by decide +kernel

/-- The example after R464: page 0x2D is FAB port 13, and region 12 and the selector reach the same result of VAR (paths 2 and 3). -/
theorem test_register_paths :
    (nextOf (exec (.registerWrite (.pf 0) .bar0 0x2160 4 12) live)).viewCopy (.pf 0) pVar = live.viewCopy (.pf 12) pVar ∧
    instanceOf 0x2D = 13 := by decide +kernel

/-- A word that arrives at LIMIT halts the queue (R412), and the reset of the queue lets it go on. -/
theorem test_queue_halts :
    let t := nextOf (exec (.submitWord 1 [.whole 0] false) (queueState { written := 16384 }))
    (t.dom 1).queue.halted = true ∧ (t.dom 1).queue.written = 16384 ∧ ((nextOf (exec (.queueReset 1) t)).dom 1).queue.halted = false := by
  decide +kernel

/-- A HINT of domain 1 is queued as a slab of its last word (R17, R22). -/
theorem test_submit_descriptor :
    let t := nextOf (exec (.submitWord 1 [.whole 0] false) (queueState { partial_ := hintPart 1 }))
    (t.dom 1).slabs.map (fun b => (b.order, b.state)) = [(0, .queued)] ∧ (t.dom 1).queue.partial_ = [] := by decide +kernel

/-- A duplicate pin, and a page beyond the range with the number of pages done (R290). -/
theorem test_pin_stops :
    let t := nextOf (exec (.pin (.vf 1) true 31 2 0) live)
    ((t.dom 1).entry 31).pin = 1 ∧ (t.pair 1 pTir).result = w64 (2 ^ 63 + tirWord 0x0E 3 1) := by decide +kernel

/-- 115 degrees: THERM_TRIP_N goes low and the device holds nothing (R498). -/
theorem test_therm_trip :
    let t := nextOf (exec .thermTrip live)
    t.boot.phase = .tripped ∧ t.boot.resetCause = 1 ∧ (t.dom 1).phase = .free := by decide +kernel

/-- PREEMPT of domain 0 is BAD_ARG (R326). -/
theorem test_preempt_domain0 :
    ((nextOf (exec (.preempt true 0 false 0) live)).pair 64 pTik).result = w64 (2 ^ 63 + 5 + 256) := by decide +kernel

/-- A step takes the front of the queue: ID answers and waits no more (R458). -/
theorem test_step_takes_front :
    (match step { live with pending := [.id, .health] } with
      | .next t => t.pending
      | .fault _ => []
      | .refused _ => []) = [.health] := by decide +kernel

end Sys2Proof.Tests
end

/-! Accesses to the header of a page, to its counters in halves and to its 32-bit registers (R10, R408, R468, R469, R473): one lemma per operation of Machine/Read.lean and Machine/Regs.lean, and from them the statement on the header and on register accesses. -/

namespace Sys2Proof.Proofs

open Sys2Proof.Machine Sys2Proof.Safety Sys2Proof.Laws

/-! ## One copy of a page's header -/

/-- Putting one copy of a page changes that copy and nothing else. -/
theorem putView_changes (s : State) (c p : Nat) (x : PageView) :
    Frame [.views] s (s.putView c p x) ∧ (∀ j g, 256 * j + g ≠ 256 * c + p → (s.putView c p x).view j g = s.view j g) ∧
      (s.putView c p x).view c p = x :=
  ⟨fr_putView (fr_refl _ s) c p x (fun _ h => h), fun j g hne => by rw [view_putView, if_neg hne], view_putView_self s c p x⟩

section Accesses

variable {s : State} {v : View} {p : Nat}

theorem clearEvents_of_shows (h : s.shows v p = true) (mask : W32) :
    s.clearEvents v p mask = s.putView (s.viewCopy v p) p { s.view (s.viewCopy v p) p with
      event := (s.view (s.viewCopy v p) p).event &&& ~~~(mask &&& w32 (viewEvents v p)) } := by
  simp [State.clearEvents, h]

theorem clearEvents_of_hidden (h : ¬ s.shows v p = true) (mask : W32) : s.clearEvents v p mask = s := by
  simp [State.clearEvents, h]

theorem enableEvents_of_hidden (h : ¬ s.shows v p = true) (mask : W32) : s.enableEvents v p mask = s := by
  simp [State.enableEvents, h]

/-- No newly enabled bit is set: no vector is sent (R408). -/
theorem enableEvents_of_quiet (h : s.shows v p = true) (mask : W32)
    (hq : (s.view (s.viewCopy v p) p).event &&& mask &&& ~~~(s.view (s.viewCopy v p) p).enable = 0) :
    s.enableEvents v p mask = s.putView (s.viewCopy v p) p { s.view (s.viewCopy v p) p with enable := mask } := by
  cases hb : blockOf p with
  | none => simp [State.enableEvents, h, hb]
  | some b => simp [State.enableEvents, h, hb, hq]

/-- A newly enabled bit is set: the vector of the page's block is sent (R408). -/
theorem enableEvents_of_set (h : s.shows v p = true) (mask : W32) {b : Nat} (hb : blockOf p = some b)
    (hn : (s.view (s.viewCopy v p) p).event &&& mask &&& ~~~(s.view (s.viewCopy v p) p).enable ≠ 0) :
    s.enableEvents v p mask =
      (s.putView (s.viewCopy v p) p { s.view (s.viewCopy v p) p with enable := mask }).msix (copyFn (s.viewCopy v p)) (2 + b) := by
  simp only [State.enableEvents, h, hb, if_neg hn, Bool.not_true, Bool.false_eq_true, if_false]

theorem setCntMode_of_shows (h : s.shows v p = true) (mode : BitVec 2) :
    s.setCntMode v p mode = s.putView (modeCopy v) p { s.view (modeCopy v) p with
      cntMode := mode, frozen := if mode = 1 then s.liveCounters v p else [] } := by
  simp [State.setCntMode, h]

theorem setCntMode_of_hidden (h : ¬ s.shows v p = true) (mode : BitVec 2) : s.setCntMode v p mode = s := by
  simp [State.setCntMode, h]

/-! ## Counters in halves (R10) -/

/-- The counters stand at offsets 0x40 to 0x78 of every page (R465). -/
theorem wideReg_counter (s : State) (v : View) (p : Nat) {i : Nat} (hi : i < 8) :
    s.wideReg v p (0x40 + 8 * i) = some (s.viewCounter v p i).toNat := by
  have hr : 0x40 ≤ 0x40 + 8 * i ∧ 0x40 + 8 * i < 0x80 := by omega
  have hd : (0x40 + 8 * i - 0x40) / 8 = i := by omega
  rw [State.wideReg, if_pos hr, hd]

theorem readWord_counter_low (h : s.shows v p = true) {i : Nat} (hi : i < 8) :
    s.readWord v p (0x40 + 8 * i) = (s.viewCounter v p i).toNat % 2 ^ 32 := by
  have hb : (0x40 + 8 * i) / 8 * 8 = 0x40 + 8 * i := by omega
  have hm : (0x40 + 8 * i) % 8 = 0 := by omega
  simp [State.readWord, h, hb, hm, wideReg_counter s v p hi]

theorem readWord_counter_high (h : s.shows v p = true) {i : Nat} (hi : i < 8) :
    s.readWord v p (0x44 + 8 * i) = (s.viewCounter v p i).toNat / 2 ^ 32 % 2 ^ 32 := by
  have hb : (0x44 + 8 * i) / 8 * 8 = 0x40 + 8 * i := by omega
  simp [State.readWord, h, hb, wideReg_counter s v p hi]

theorem latchedReg_counter (p : Nat) {i : Nat} (hi : i < 8) : latchedReg p (0x40 + 8 * i) = true := by
  have hr : 0x40 ≤ 0x40 + 8 * i ∧ 0x40 + 8 * i < 0x80 := by omega
  simp [latchedReg, hr]

/-- A low word that is read latches the high word (R10). -/
theorem readLow_counter (h : s.shows v p = true) {i : Nat} (hi : i < 8) :
    s.readLow v p (0x40 + 8 * i) =
      { s with out := .value (viewFn v) (w64 ((s.viewCounter v p i).toNat % 2 ^ 32)) :: s.out,
               latches := mapSet s.latches (s.latchKey v p (0x40 + 8 * i)) (w32 ((s.viewCounter v p i).toNat / 2 ^ 32 % 2 ^ 32)) } := by
  have hm : (0x40 + 8 * i) % 8 = 0 := by omega
  have hh : 0x40 + 8 * i + 4 = 0x44 + 8 * i := by omega
  unfold State.readLow
  rw [if_pos ⟨h, latchedReg_counter p hi, hm⟩, hh, readWord_counter_low h hi, readWord_counter_high h hi]
  rfl

/-- The next read of the high word takes the latch (R10). -/
theorem readHigh_counter_of_latch (h : s.shows v p = true) {i : Nat} (hi : i < 8) {w : W32}
    (hl : mapGet s.latches (s.latchKey v p (0x40 + 8 * i)) = some w) :
    s.readHigh v p (0x44 + 8 * i) =
      { s with out := .value (viewFn v) (w64 w.toNat) :: s.out, latches := mapDel s.latches (s.latchKey v p (0x40 + 8 * i)) } := by
  have hm : (0x44 + 8 * i) % 8 = 4 := by omega
  have hk : 0x44 + 8 * i - 4 = 0x40 + 8 * i := by omega
  have hw : w.setWidth 64 = w64 w.toNat := BitVec.eq_of_toNat_eq (by simp [w64])
  simp only [State.readHigh, hk, hl]
  rw [if_pos ⟨h, latchedReg_counter p hi, hm⟩, hw]
  rfl

/-- Without a latch the high word is live (R10). -/
theorem readHigh_counter_live (h : s.shows v p = true) {i : Nat} (hi : i < 8)
    (hl : mapGet s.latches (s.latchKey v p (0x40 + 8 * i)) = none) :
    s.readHigh v p (0x44 + 8 * i) =
      { s with out := .value (viewFn v) (w64 ((s.viewCounter v p i).toNat / 2 ^ 32 % 2 ^ 32)) :: s.out } := by
  have hk : 0x44 + 8 * i - 4 = 0x40 + 8 * i := by omega
  simp only [State.readHigh, hk, hl]
  rw [readWord_counter_high h hi]
  rfl

theorem exec_counterLowRead_of_answers (ha : s.answers v = true) (page : Byte) {o : Nat} (h8 : o % 8 = 0) (ho : o < 4096) :
    exec (.counterLowRead v page o) s = .next (s.readLow v page.toNat o) := by
  show execCounterLowRead v page o s = _
  simp [execCounterLowRead, ha, h8, ho]

theorem exec_counterHighRead_of_answers (ha : s.answers v = true) (page : Byte) {o : Nat} (h8 : o % 8 = 4) (ho : o < 4096) :
    exec (.counterHighRead v page o) s = .next (s.readHigh v page.toNat o) := by
  show execCounterHighRead v page o s = _
  simp [execCounterHighRead, ha, h8, ho]

/-- A latch's key holds its function above bit 24, over a domain of 6 bits, a page of 8 and a word offset of 10: no two functions share one. -/
theorem latchKey_ne_of_viewFn_ne {s : State} {v v' : View} {p p' o o' : Nat} (hf : viewFn v ≠ viewFn v') (hp : p < 256) (hp' : p' < 256)
    (ho : o < 4096) (ho' : o' < 4096) (hd : s.viewDom v p < 64) (hd' : s.viewDom v' p' < 64) :
    s.latchKey v p o ≠ s.latchKey v' p' o' := by
  unfold State.latchKey
  omega

/-! ## Register writes (R473) -/

/-- A 32-bit write at an aligned offset of BAR0 reaches the page and the offset that it names. -/
theorem exec_registerWrite_word (ha : s.answers v = true) (hp : p < 256) {o : Nat} (ho : o < 4096) (h4 : o % 4 = 0) (w : W32) :
    exec (.registerWrite v .bar0 (4096 * p + o) 4 (w.setWidth 64)) s = .next (s.writeReg32 v p o w.toNat) := by
  have hal : (4096 * p + o) % 4 = 0 := by omega
  have hin : ¬ 0x100000 ≤ 4096 * p + o := by omega
  have hpage : (4096 * p + o) / 4096 = p := by omega
  have hoff : (4096 * p + o) % 4096 = o := by omega
  have hw : (w.setWidth 64).toNat % 2 ^ 32 = w.toNat := by rw [BitVec.toNat_setWidth]; omega
  show execRegisterWrite v .bar0 (4096 * p + o) 4 (w.setWidth 64) s = _
  simp only [execRegisterWrite, ha, hal, hin, hpage, hoff, hw]
  rfl

theorem writeReg32_of_narrow (h : s.shows v p = true) {o : Nat} (hn : s.wideReg v p (o / 8 * 8) = none) (w : Nat) :
    s.writeReg32 v p o w = s.writeReg v p o w := by
  simp [State.writeReg32, h, hn]

/-- A 32-bit write to a register that is no half of a 64-bit one is a write of that register. -/
theorem exec_registerWrite_reg (ha : s.answers v = true) (h : s.shows v p = true) (hp : p < 256) {o : Nat} (ho : o < 4096)
    (h4 : o % 4 = 0) (hn : s.wideReg v p (o / 8 * 8) = none) (w : W32) :
    exec (.registerWrite v .bar0 (4096 * p + o) 4 (w.setWidth 64)) s = .next (s.writeReg v p o w.toNat) := by
  rw [exec_registerWrite_word ha hp ho h4, writeReg32_of_narrow h hn]

/-- The write reaches no register: the function does not answer, or the size, the alignment or the offset does not fit (R473). -/
theorem exec_registerWrite_ignored (bar : Bar) (off size : Nat) (value : W64)
    (h : s.answers v = false ∨ (bar = .bar0 ∧ (size ≠ 4 ∧ size ≠ 8 ∨ off % size ≠ 0 ∨ 0x100000 ≤ off))) :
    exec (.registerWrite v bar off size value) s = .next s := by
  show execRegisterWrite v bar off size value s = _
  rcases h with ha | ⟨rfl, hbad⟩
  · simp [execRegisterWrite, ha]
  · rcases hbad with ⟨h4, h8⟩ | hal | hoff
    · simp [execRegisterWrite, h4, h8]
    · simp [execRegisterWrite, hal]
    · simp [execRegisterWrite, hoff]

end Accesses

/-! ## Where a page has 32-bit registers, and what a write of each reaches -/

/-- The registers of the header have 32 bits (R465). -/
theorem wideReg_header (s : State) (v : View) (p : Nat) {o : Nat} (ho : o < 0x40) : s.wideReg v p o = none := by
  have hne : ∀ k, 0x40 ≤ k → o ≠ k := fun k hk => by omega
  have hle : ∀ k, 0x40 ≤ k → ¬ k ≤ o := fun k hk => by omega
  simp [State.wideReg, State.pairReg, hne, hle]

/-- VEC has no 64-bit register but its counters. -/
theorem wideReg_vec (s : State) (v : View) {o : Nat} (ho : 0x80 ≤ o) : s.wideReg v pVec o = none := by
  have hc : ¬ (0x40 ≤ o ∧ o < 0x80) := by omega
  rw [State.wideReg, if_neg hc]
  rfl

theorem writeReg_vec (s : State) (v : View) {o : Nat} (ho : 0x80 ≤ o) (w : Nat) :
    s.writeReg v pVec o w = s.writeVecReg v (s.viewDom v pVec) o w := by
  have hne : ∀ k, k < 0x80 → o ≠ k := fun k hk => by omega
  simp [State.writeReg, hne, ho, pVec, pTik]

/-- A 32-bit write at offset o of page p of BAR0. -/
abbrev wordWrite (v : View) (p o : Nat) (w : W32) : Instr := .registerWrite v .bar0 (4096 * p + o) 4 (w.setWidth 64)

section Writes

variable {s : State} {v : View} {p : Nat}

theorem w32_toNat (w : W32) : w32 w.toNat = w := by simp [w32]

theorem bitsOf_zero_toNat (w : W32) (n : Nat) : bitsOf w.toNat 0 n = (w.setWidth n).toNat := by simp [bitsOf]

theorem exec_wordWrite_header (ha : s.answers v = true) (h : s.shows v p = true) (hp : p < 256) (w : W32) :
    exec (wordWrite v p 0x10 w) s = .next (s.setCntMode v p (w.setWidth 2)) ∧
    exec (wordWrite v p 0x18 w) s = .next (s.clearEvents v p w) ∧
    exec (wordWrite v p 0x1C w) s = .next (s.enableEvents v p w) ∧
    exec (wordWrite v p 0x20 w) s = .next (s.setEvents v p w) ∧
    exec (wordWrite v p 0x24 w) s = .next (if bitOf w.toNat 0 then s.lockPage v p else s) := by
  have hreg : ∀ o, o < 0x40 → o % 4 = 0 → exec (wordWrite v p o w) s = .next (s.writeReg v p o w.toNat) := fun o ho h4 =>
    exec_registerWrite_reg ha h hp (by omega) h4 (wideReg_header s v p (by omega)) w
  have hmode : BitVec.ofNat 2 w.toNat = w.setWidth 2 := BitVec.ofNat_toNat 2 w
  have hw := w32_toNat w
  refine ⟨?_, ?_, ?_, ?_, hreg 0x24 (by decide) rfl⟩
  · exact (hreg 0x10 (by decide) rfl).trans (congrArg Host.Outcome.next (congrArg (s.setCntMode v p) hmode))
  · exact (hreg 0x18 (by decide) rfl).trans (congrArg Host.Outcome.next (congrArg (s.clearEvents v p) hw))
  · exact (hreg 0x1C (by decide) rfl).trans (congrArg Host.Outcome.next (congrArg (s.enableEvents v p) hw))
  · exact (hreg 0x20 (by decide) rfl).trans (congrArg Host.Outcome.next (congrArg (s.setEvents v p) hw))

theorem exec_wordWrite_tik (ha : s.answers v = true) (h : s.shows v pTik = true) (w : W32) :
    exec (wordWrite v pTik 0x100 w) s = exec (.tickConfigWrite v false w) s ∧
    exec (wordWrite v pTik 0x104 w) s = exec (.tickConfigWrite v true w) s ∧
    exec (wordWrite v pTik 0x120 w) s = exec (.shareWrite v w) s ∧
    exec (wordWrite v pTik 0x124 w) s = exec (.planSlotsWrite v w) s := by
  have hreg := fun o ho h4 hn => exec_registerWrite_reg ha h (by decide) (o := o) ho h4 hn w
  exact ⟨hreg 0x100 (by decide) rfl rfl, hreg 0x104 (by decide) rfl rfl, hreg 0x120 (by decide) rfl rfl,
    hreg 0x124 (by decide) rfl rfl⟩

/-- A write of the row that stands at 0x100 + 4k (R45). -/
theorem writeVecReg_recipe (s : State) (v : View) (d w : Nat) (k : Fin 7) :
    s.writeVecReg v d (0x100 + 4 * k.val) w = s.writeRecipe v k.val w := by
  have hr : 0x100 ≤ 0x100 + 4 * k.val ∧ 0x100 + 4 * k.val < 0x11C := by omega
  have hk : (0x100 + 4 * k.val - 0x100) / 4 = k.val := by omega
  rw [State.writeVecReg, if_pos hr, hk]

theorem exec_wordWrite_vec (ha : s.answers v = true) (h : s.shows v pVec = true) (w : W32) :
    (∀ k : Fin 7, exec (wordWrite v pVec (0x100 + 4 * k.val) w) s = exec (.recipeWrite v k w) s) ∧
    exec (wordWrite v pVec 0x130 w) s = exec (.histSelWrite v (w.setWidth 7)) s ∧
    exec (wordWrite v pVec 0x138 w) s = exec (.histCommit v (w.setWidth 5)) s ∧
    exec (wordWrite v pVec 0x184 w) s = exec (.zsValueWrite v w) s ∧
    exec (wordWrite v pVec 0x180 w) s =
      .next (s.updDom (s.viewDom v pVec) (fun z => { z with vec := { z.vec with zsSel := w.toNat % 2 ^ 10 } })) := by
  have hreg : ∀ o, 0x100 ≤ o → o < 0x200 → o % 4 = 0 →
      exec (wordWrite v pVec o w) s = .next (s.writeVecReg v (s.viewDom v pVec) o w.toNat) := fun o ho ho' h4 => by
    rw [exec_registerWrite_reg ha h (by decide) (by omega) h4 (wideReg_vec s v (by omega)) w,
      writeReg_vec s v (by omega)]
  refine ⟨fun k => ?_, ?_, ?_, hreg 0x184 (by decide) (by decide) rfl, hreg 0x180 (by decide) (by decide) rfl⟩
  · rw [hreg _ (by omega) (by omega) (by omega), writeVecReg_recipe]; rfl
  · exact (hreg 0x130 (by decide) (by decide) rfl).trans
      (congrArg Host.Outcome.next (congrArg (s.writeHistSel v) (bitsOf_zero_toNat w 7)))
  · exact (hreg 0x138 (by decide) (by decide) rfl).trans
      (congrArg Host.Outcome.next (congrArg (s.commitHist v) (bitsOf_zero_toNat w 5)))

theorem exec_wordWrite_upd (ha : s.answers v = true) (h : s.shows v pUpd = true) (w : W32) :
    exec (wordWrite v pUpd 0x100 w) s = exec (.lossScaleWrite v w) s ∧
    exec (wordWrite v pUpd 0x110 w) s = exec (.retainWrite v w) s := by
  have hreg := fun o ho h4 hn => exec_registerWrite_reg ha h (by decide) (o := o) ho h4 hn w
  exact ⟨hreg 0x100 (by decide) rfl rfl, hreg 0x110 (by decide) rfl rfl⟩

theorem exec_wordWrite_flashRate (ha : s.answers v = true) (h : s.shows v pTir = true) (w : W32) :
    exec (wordWrite v pTir 0x12C w) s = exec (.flashRateWrite v w) s :=
  exec_registerWrite_reg ha h (by decide) (by decide) rfl rfl w

theorem exec_wordWrite_ptag (ha : s.answers v = true) (h : s.shows v pCol = true) (w : W32) :
    exec (wordWrite v pCol 0x100 w) s = exec (.ptagWrite v w) s :=
  exec_registerWrite_reg ha h (by decide) (by decide) rfl rfl w

theorem exec_wordWrite_mem (ha : s.answers v = true) (h : s.shows v 0x10 = true) (w : W32) :
    exec (wordWrite v 0x10 0x104 w) s = exec (.maintWrite v w) s ∧
    exec (wordWrite v 0x10 0x10C w) s = exec (.regRateWrite v w) s :=
  ⟨exec_registerWrite_reg ha h (by decide) (by decide) rfl rfl w, exec_registerWrite_reg ha h (by decide) (by decide) rfl rfl w⟩

end Writes

/-- Settles O56: each clause from the lemma on its operation, the register writes page by page. -/
theorem headerAndRegisterAccess : Obligations.HeaderAndRegisterAccess := by
  unfold Obligations.HeaderAndRegisterAccess
  intro s v page w
  have hp : page.toNat < 256 := page.isLt
  refine ⟨fun h => ⟨?clear, fun hq => ?quiet, fun b hn hb => ?sends, fun mode => ?mode⟩,
    fun h => ⟨?hiddenClear, ?hiddenEnable, fun mode => ?hiddenMode⟩,
    fun ha h i hi => ⟨?low, fun l hl => ?latched, fun hl => ?live⟩,
    fun v' p' o o' hf hp' ho ho' hd hd' => latchKey_ne_of_viewFn_ne hf hp hp' ho ho' hd hd',
    fun ha h => ?writes, fun bar off size value => exec_registerWrite_ignored bar off size value⟩
  case clear => exact ⟨_, congrArg Host.Outcome.next (clearEvents_of_shows h w), putView_changes ..⟩
  case quiet => exact congrArg Host.Outcome.next (enableEvents_of_quiet h w (not_not.mp hq))
  case sends => exact congrArg Host.Outcome.next (enableEvents_of_set h w hb hn)
  case mode => exact ⟨_, congrArg Host.Outcome.next (setCntMode_of_shows h mode), putView_changes ..⟩
  case hiddenClear => exact congrArg Host.Outcome.next (clearEvents_of_hidden h w)
  case hiddenEnable => exact congrArg Host.Outcome.next (enableEvents_of_hidden h w)
  case hiddenMode => exact congrArg Host.Outcome.next (setCntMode_of_hidden h mode)
  case low =>
    rw [exec_counterLowRead_of_answers ha page (by omega) (by omega), readLow_counter h hi]
    rfl
  case latched => rw [exec_counterHighRead_of_answers ha page (by omega) (by omega), readHigh_counter_of_latch h hi hl]
  case live =>
    rw [exec_counterHighRead_of_answers ha page (by omega) (by omega), readHigh_counter_live h hi hl]
    rfl
  case writes =>
    obtain ⟨hmode, hclear, henable, hset, hlock⟩ := exec_wordWrite_header ha h hp w
    refine ⟨hclear, henable, hset, fun hbit => hlock.trans (by rw [if_pos hbit]; rfl), hmode, ?_⟩
    generalize page.toNat = p at h
    exact ⟨fun e => e ▸ exec_wordWrite_tik ha (e ▸ h) w, fun e => e ▸ exec_wordWrite_vec ha (e ▸ h) w,
      fun e => e ▸ exec_wordWrite_upd ha (e ▸ h) w, fun e => e ▸ exec_wordWrite_flashRate ha (e ▸ h) w,
      fun e => e ▸ exec_wordWrite_ptag ha (e ▸ h) w, fun e => e ▸ exec_wordWrite_mem ha (e ▸ h) w⟩

end Sys2Proof.Proofs

/-! What a command leaves of the domains other than its own (R123, R421): the relation is a preorder, and the named operations of Machine/Ops.lean keep it. From it the statement on PREEMPT and RESUME (R326). -/

namespace Sys2Proof.Proofs

open Sys2Proof.Machine Sys2Proof.Safety Sys2Proof.Laws

/-! ## One domain alone -/

/-- The parts of the state that the domains hold. -/
def domainParts : List Part :=
  [.domLife, .domRecord, .domPreempt, .domQueue, .domSlabs, .domSched, .domVec, .domVar, .domUpd, .domKvp, .domTir, .domCol, .domKeys,
    .domMem, .domPoison]

/-- Of the domains only d has changed, of domain 0's memory also the trace ring, whose setting stands. -/
structure StaysIn (d : Nat) (s t : State) : Prop where
  ring : t.dbg.traceEn = s.dbg.traceEn ∧ t.dbg.traceBase = s.dbg.traceBase ∧ t.dbg.traceLog2 = s.dbg.traceLog2
  only : OnlyDom s t d

theorem StaysIn.refl (d : Nat) (s : State) : StaysIn d s s := ⟨⟨rfl, rfl, rfl⟩, onlyDom_refl s d⟩

theorem StaysIn.trans {d : Nat} {s t u : State} (a : StaysIn d s t) (b : StaysIn d t u) : StaysIn d s u :=
  ⟨⟨b.ring.1.trans a.ring.1, b.ring.2.1.trans a.ring.2.1, b.ring.2.2.trans a.ring.2.2⟩, onlyDom_trans a.ring a.only b.only⟩

theorem StaysIn.updDom (d : Nat) (s : State) (f : Dom → Dom) : StaysIn d s (s.updDom d f) :=
  ⟨⟨rfl, rfl, rfl⟩, onlyDom_putDom s d (f (s.dom d))⟩

/-- An operation whose frame lists no part of the domains. -/
theorem StaysIn.of_frame {L : List Part} {s t : State} (d : Nat) (h : Frame L s t) (hL : ∀ p ∈ domainParts, p ∉ L) : StaysIn d s t :=
  ⟨h.ring, onlyDom_frame h d hL⟩

theorem StaysIn.foldl {α : Type} {d : Nat} (f : State → α → State) (hf : ∀ t a, StaysIn d t (f t a)) (l : List α) (s : State) :
    StaysIn d s (l.foldl f s) :=
  foldl_keeps (StaysIn d s) f (fun t a h => h.trans (hf t a)) l (.refl d s)

theorem StaysIn.bump (d : Nat) (s : State) (a b c n : Nat) : StaysIn d s (s.bump a b c n) :=
  .of_frame d (fr_bump (fr_refl _ s) a b c n (fun _ h => h)) (by decide)

theorem StaysIn.raiseDom (d : Nat) (s : State) (p b e : Nat) : StaysIn d s (s.raiseDom p b e) :=
  .of_frame d (raiseDom_frame s p b e) (by decide)

theorem StaysIn.atTime (d : Nat) (s : State) (nowNs : Nat) : StaysIn d s (s.atTime nowNs) :=
  .of_frame d (fr_atTime (fr_refl _ s) nowNs (fun _ h => h)) (by decide)

theorem StaysIn.postResult (d : Nat) (s : State) (c p r : Nat) : StaysIn d s (s.postResult c p r) :=
  .of_frame d (postResult_frame s c p r) (by decide)

/-! ## TIK_CMD (R326) -/

/-- What a command of the manager on a domain leaves once posted: its result word, and no other pair or domain changed. -/
theorem postResult_leaves {s t : State} {n : Nat} (h : StaysIn n s t) (hp : t.pairs = s.pairs) (c p r : Nat) :
    Answered (t.postResult c p r) c p r ∧ OnlyPair s (t.postResult c p r) c p ∧ OnlyDom s (t.postResult c p r) n := by
  refine ⟨answered_postResult t c p r, fun e g hne => ?_, (h.trans (.postResult n t c p r)).only⟩
  rw [pair_postResult_ne t c p r e g hne]
  unfold State.pair
  rw [hp]

theorem tikWord_eq {st op d : Nat} (hst : st < 256) (hop : op < 16) (hd : d < 64) :
    tikWord st op d = st + 256 * op + 4096 * d := by
  simp only [tikWord, fld, Nat.shiftLeft_eq]
  omega

section TikCmd

variable {s : State} {posted : Bool} (h : Ready s (.pf 0) pTik posted) {d : Fin 64}
include h

/-- PREEMPT of an ACTIVE domain other than 0: ACCEPTED, and the request that stands is kept. -/
theorem exec_preempt_accepted (save : Bool) (hp : (s.dom d.val).phase = .active) (hd : d.val ≠ 0) :
    exec (.preempt posted d save 0) s = .next ((s.updDom d.val fun y =>
      { y with preemptAt := some (y.preemptAt.getD (s.effectTick, save)) }).postResult (s.viewCopy (.pf 0) pTik) pTik (tikWord 1 1 d.val)) := by
  show Host.Outcome.next (s.preemptCmd _ _ _ _ _) = _
  rw [State.preemptCmd, runCmd_ready h]
  simp [hp, hd]

theorem exec_preempt_badState (save : Bool) (hp : (s.dom d.val).phase ≠ .active) (hd : d.val ≠ 0) :
    exec (.preempt posted d save 0) s = .next (s.postResult (s.viewCopy (.pf 0) pTik) pTik (tikWord 0x0A 1 d.val)) := by
  show Host.Outcome.next (s.preemptCmd _ _ _ _ _) = _
  rw [State.preemptCmd, runCmd_ready h]
  simp [hp, hd]

theorem exec_preempt_badArg (save : Bool) {rsv : BitVec 53} (ha : d.val = 0 ∨ rsv ≠ 0) :
    exec (.preempt posted d save rsv) s = .next (s.postResult (s.viewCopy (.pf 0) pTik) pTik (tikWord 5 1 d.val)) := by
  have hc : rsv.toNat ≠ 0 ∨ d.val = 0 := ha.symm.imp_left fun hr e => hr (BitVec.eq_of_toNat_eq e)
  show Host.Outcome.next (s.preemptCmd _ _ _ _ _) = _
  rw [State.preemptCmd, runCmd_ready h]
  simp only [if_pos hc]

/-- RESUME of a preempted domain that has lent no array out: ACCEPTED, and the request that stands is kept. -/
theorem exec_resume_accepted {rsv : BitVec 54} (hr : rsv.toNat < 2) (hp : (s.dom d.val).phase = .preempted) (hl : s.lentFrom d.val = []) :
    exec (.resume posted d rsv) s = .next ((s.updDom d.val fun y =>
      { y with resumeAt := some (y.resumeAt.getD s.effectTick) }).postResult (s.viewCopy (.pf 0) pTik) pTik (tikWord 1 2 d.val)) := by
  show Host.Outcome.next (s.resumeCmd _ _ _ _) = _
  rw [State.resumeCmd, runCmd_ready h]
  simp [hp, hl, Nat.not_le.mpr hr]

theorem exec_resume_badState {rsv : BitVec 54} (hr : rsv.toNat < 2) (hs : (s.dom d.val).phase ≠ .preempted ∨ s.lentFrom d.val ≠ []) :
    exec (.resume posted d rsv) s = .next (s.postResult (s.viewCopy (.pf 0) pTik) pTik (tikWord 0x0A 2 d.val)) := by
  have hc : ((s.dom d.val).phase != .preempted || !(s.lentFrom d.val).isEmpty) = true := by simpa using hs
  show Host.Outcome.next (s.resumeCmd _ _ _ _) = _
  rw [State.resumeCmd, runCmd_ready h]
  simp only [if_neg (Nat.not_le.mpr hr), if_pos hc]

end TikCmd

/-- Settles O43: each outcome of the two commands by its lemma; what is posted and what is left alone, once for all. -/
theorem preemptAndResume : Obligations.PreemptAndResume := by
  unfold Obligations.PreemptAndResume
  intro s posted save d rsv rsv2 v n x at_ leaves hready
  have hposts : ∀ (t : State) (st op : Nat), st < 256 → op < 16 → StaysIn n s t → t.pairs = s.pairs →
      leaves (t.postResult (s.viewCopy v pTik) pTik (tikWord st op n)) st op := fun t st op hst hop hs hp => by
    rw [tikWord_eq hst hop d.isLt]
    exact postResult_leaves hs hp _ _ _
  refine ⟨fun hp hn hr hq => ?_, fun hp hn hr => ?_, fun ha => ?_, fun hp hl hr hq => ?_, fun hs hr => ?_⟩
  · subst hr
    refine ⟨_, exec_preempt_accepted hready save hp hn, hposts _ 1 1 (by decide) (by decide) (.updDom n s _) rfl, ?_, ?_⟩
    · have hq' : (s.dom d.val).preemptAt = none := hq
      rw [postResult_dom_preemptAt, dom_updDom_self, hq']
      rfl
    · rw [postResult_dom_phase, dom_updDom_self]
      exact hp
  · subst hr
    exact ⟨_, exec_preempt_badState hready save hp hn, hposts s _ 1 (by decide) (by decide) (.refl n s) rfl,
      postResult_dom_preemptAt ..⟩
  · exact ⟨_, exec_preempt_badArg hready save ha, hposts s _ 1 (by decide) (by decide) (.refl n s) rfl, postResult_dom_preemptAt ..⟩
  · refine ⟨_, exec_resume_accepted hready hr hp hl, hposts _ 1 2 (by decide) (by decide) (.updDom n s _) rfl, ?_, ?_⟩
    · have hq' : (s.dom d.val).resumeAt = none := hq
      rw [postResult_dom_resumeAt, dom_updDom_self, hq']
      rfl
    · rw [postResult_dom_phase, dom_updDom_self]
      exact hp
  · exact ⟨_, exec_resume_badState hready hr hs, hposts s _ 2 (by decide) (by decide) (.refl n s) rfl, postResult_dom_resumeAt ..⟩

end Sys2Proof.Proofs

/-! Slabs, one rule per operation (R21 to R26, R325, R411): what pausing, crediting, ending and withholding make of the slabs of a domain, and that they stay in their domain. From them the statement on the pause and the end of slabs, on saving and restoring (R327). -/

namespace Sys2Proof.Proofs

open Sys2Proof.Machine Sys2Proof.Safety Sys2Proof.Laws

/-! ## The slabs of a list with one changed -/

/-- Two changes of the slab with a submission number, which neither moves, are one. -/
theorem slabsWith_slabsWith (l : List Slab) (o : Nat) (f g : Slab → Slab) (hf : ∀ c, (f c).order = c.order) :
    slabsWith (slabsWith l o f) o g = slabsWith l o (fun c => g (f c)) := by
  unfold slabsWith
  rw [List.map_map]
  refine List.map_congr_left fun c _ => ?_
  by_cases h : c.order = o
  · simp [h, hf]
  · simp [h]

theorem slabsWith_id (l : List Slab) (o : Nat) (f : Slab → Slab) (hf : ∀ c, f c = c) : slabsWith l o f = l := by
  unfold slabsWith
  simp [hf]

theorem mem_slabsWith {l : List Slab} {o : Nat} {f : Slab → Slab} {c : Slab} (h : c ∈ slabsWith l o f)
    (ho : c.order = o) : ∃ e ∈ l, e.order = o ∧ c = f e := by
  obtain ⟨e, he, hc⟩ := List.mem_map.mp h
  by_cases hk : e.order = o
  · exact ⟨e, he, hk, by rw [← hc, if_pos hk]⟩
  · rw [if_neg hk] at hc
    exact absurd (hc ▸ ho) hk

/-! ## What keeps every slab -/

theorem slabs_of_frame {L : List Part} {s t : State} (h : Frame L s t) (hL : Part.domSlabs ∉ L) (e : Nat) : (t.dom e).slabs = (s.dom e).slabs :=
  (h.kept .domSlabs hL e).2.1

theorem devSlabs_of_frame {L : List Part} {s t : State} (h : Frame L s t) (hL : Part.domSlabs ∉ L) (e : Nat) :
    (t.dom e).devSlabs = (s.dom e).devSlabs := (h.kept .domSlabs hL e).2.2.1

theorem live_of_frame {L : List Part} {s t : State} (h : Frame L s t) (hL : Part.domLife ∉ L) (n : Nat) : t.live n = s.live n :=
  live_congr (fun e => (h.kept .domLife hL e).1) n

theorem atTime_dom (s : State) (nowNs e : Nat) : (s.atTime nowNs).dom e = s.dom e := rfl

theorem atTime_inRun (s : State) (nowNs : Nat) : (s.atTime nowNs).inRun = s.inRun := rfl

theorem collDue_slabs (s : State) (d : Nat) (b : Slab) (e : Nat) : ((s.collDue d b).dom e).slabs = (s.dom e).slabs :=
  slabs_of_frame (fr_collDue (fr_refl _ s) d b (fun _ h => h)) (by decide) e

theorem closeStep_slabs (s : State) (d e : Nat) : ((s.closeStep d).dom e).slabs = (s.dom e).slabs := by
  unfold State.closeStep
  split
  · have hk := slabs_of_frame (fr_endFirstPass (fr_refl _ s) d false (fun _ h => h)) (by decide) e
    rw [dom_updDom]
    split
    · next h => subst h; exact hk
    · exact hk
  · rfl

theorem endEffect_slabs (s : State) (d : Nat) (a : EndEffect) (e : Nat) : ((s.endEffect d a).dom e).slabs = (s.dom e).slabs := by
  cases a with
  | pushAmax slot v =>
    show ((s.updDom d _).dom e).slabs = _
    rw [dom_updDom]
    split
    · next h => subst h; rfl
    · rfl
  | addNorm addr init sums => exact slabs_of_frame (fr_addNorm (fr_refl _ s) d addr init sums (fun _ h => h)) (by decide) e
  | commit slot => rfl
  | stepClose => exact closeStep_slabs s d e
  | verify count first => exact slabs_of_frame (fr_verifyEnd (fr_refl _ s) d count first (fun _ h => h)) (by decide) e
  | rootDone ok => exact slabs_of_frame (fr_rootEnd (fr_refl _ s) d ok (fun _ h => h)) (by decide) e
  | clearArrays first count => rfl

theorem endEffects_slabs (l : List EndEffect) (s : State) (d e : Nat) :
    ((l.foldl (fun t a => t.endEffect d a) s).dom e).slabs = (s.dom e).slabs :=
  foldl_keeps (fun t : State => (t.dom e).slabs = (s.dom e).slabs) _ (fun t a h => (endEffect_slabs t d a e).trans h) l rfl

/-! ## What changes one slab -/

theorem updSlab_slabs (s : State) (d o : Nat) (f : Slab → Slab) : ((s.updSlab d o f).dom d).slabs = slabsWith (s.dom d).slabs o f := by
  rw [State.updSlab, dom_updDom_self]
  rfl

theorem StaysIn.updSlab (s : State) (d o : Nat) (f : Slab → Slab) : StaysIn d s (s.updSlab d o f) := .updDom d s _

theorem countBusy_slabs (s : State) (d nowNs : Nat) (b : Slab) :
    ((s.countBusy d nowNs b).dom d).slabs = slabsWith (s.dom d).slabs b.order (fun c => { c with busyFrom := max c.busyFrom nowNs }) := by
  unfold State.countBusy
  dsimp only
  split
  · exact updSlab_slabs ..
  · exact (slabs_of_frame (fr_foldl _ (fun t u h => fr_bump h _ _ _ _ (fun _ h => h)) _ (fr_refl [Part.counters] _)) (by decide) d).trans
      (updSlab_slabs ..)

theorem StaysIn.countBusy (s : State) (d nowNs : Nat) (b : Slab) : StaysIn d s (s.countBusy d nowNs b) := by
  unfold State.countBusy
  dsimp only
  split
  · exact .updSlab ..
  · exact (StaysIn.updSlab ..).trans (.foldl _ (fun t u => .bump d t _ _ _ _) _ _)

/-- A slab's credits come back once (R411). -/
theorem creditSlab_slabs (s : State) (d : Nat) (b : Slab) :
    ((s.creditSlab d b).dom d).slabs =
      slabsWith (s.dom d).slabs b.order (fun c => { c with creditReturned := c.creditReturned || !b.creditReturned }) := by
  unfold State.creditSlab
  split
  · next h => rw [slabsWith_id _ _ _ (fun c => by simp [h])]
  · next h =>
    rw [slabs_of_frame (fr_returnCredit (fr_refl _ _) d b.words.length (fun _ h => h)) (by decide) d, updSlab_slabs]
    simp [h]

theorem StaysIn.returnCredit (s : State) (d words : Nat) : StaysIn d s (s.returnCredit d words) := by
  unfold State.returnCredit
  dsimp only
  have h1 : ∀ t : State, StaysIn d s t → ∀ f : PciState → PciState, StaysIn d s (t.updPci f) := fun t h f => h.trans
    ⟨⟨rfl, rfl, rfl⟩, onlyDom_refl t d⟩
  split
  · exact (h1 _ (.updDom d s _) _).trans (.of_frame d (fr_msix (fr_refl _ _) d 1 (fun _ h => h)) (by decide))
  · exact .updDom d s _

theorem StaysIn.creditSlab (s : State) (d : Nat) (b : Slab) : StaysIn d s (s.creditSlab d b) := by
  unfold State.creditSlab
  split
  · exact .refl d s
  · exact (StaysIn.updSlab ..).trans (.returnCredit ..)

theorem StaysIn.endBatch (s : State) (d : Nat) (ws : List W64) : StaysIn d s (s.endBatch d ws) := by
  unfold State.endBatch
  dsimp only
  split
  · exact .updDom d s _
  · exact .refl d s

theorem endBatch_slabs (s : State) (d : Nat) (ws : List W64) (e : Nat) : ((s.endBatch d ws).dom e).slabs = (s.dom e).slabs := by
  unfold State.endBatch
  dsimp only
  split
  · rw [dom_updDom]
    split
    · next h => subst h; rfl
    · rfl
  · rfl

theorem StaysIn.endSlab (s : State) (d : Nat) (b : Slab) (st : Status) : StaysIn d s (s.endSlab d b st) := by
  unfold State.endSlab
  exact (((StaysIn.updSlab ..).trans (.creditSlab ..)).trans (.updDom d _ _)).trans (.endBatch ..)

/-- A slab ends: its credits come back, and its dependents run where its status feeds them, or fail with it (R25, R26, R411). -/
theorem endSlab_slabs (s : State) (d : Nat) (b : Slab) (st : Status) :
    ((s.endSlab d b st).dom d).slabs = slabsEnded (s.dom d).slabs b st s.tik.tick := by
  unfold State.endSlab
  dsimp only
  rw [endBatch_slabs, State.resolve, dom_updDom_self]
  dsimp only
  rw [creditSlab_slabs, updSlab_slabs, slabsWith_slabsWith]
  · rfl
  · exact fun _ => rfl

/-! ## Pauses (R325) -/

section Pause

variable {s : State} {d : Fin 64} {nowNs : Nat}

theorem exec_slabPause_user {tag : W32} {b : Slab} (hb : (s.dom d.val).slabOf tag = some b) (hrun : s.inRun = true)
    (hst : b.state = .running) (he : b.planStop < b.planEnd) (hp : b.planStop < (s.atTime nowNs).planOff nowNs + 1) :
    exec (.slabPause d (.user tag) nowNs) s = .next ((s.atTime nowNs).pauseSlab d.val b ((s.atTime nowNs).planOff nowNs)) := by
  show execSlabPause d (.user tag) nowNs s = _
  simp only [execSlabPause, atTime_dom, hb, atTime_inRun, hrun, hst, he, hp]
  rfl

theorem exec_slabPause_device {kind : DevSlab} {r : DevSlabRec} (hr : (s.dom d.val).devSlab? kind = some r) (hrun : s.inRun = true)
    (hst : r.state = .running) (he : r.planStop < r.planEnd) (hp : r.planStop < (s.atTime nowNs).planOff nowNs + 1) :
    exec (.slabPause d (.device kind) nowNs) s = .next ((s.atTime nowNs).pauseDev d.val r ((s.atTime nowNs).planOff nowNs)) := by
  show execSlabPause d (.device kind) nowNs s = _
  simp only [execSlabPause, atTime_dom, hr, atTime_inRun, hrun, hst, he, hp]
  rfl

end Pause

theorem exec_slabPause_frame {s t : State} {d : Fin 64} {slab : SlabRef} {nowNs : Nat} (h : exec (.slabPause d slab nowNs) s = .next t) :
    Frame [.fuses, .tik, .counters, .domSlabs] s t := fr_execSlabPause (fr_refl _ s) d slab nowNs (fun _ h => h) t h

theorem StaysIn.ite_bump (d : Nat) (s : State) (c : Prop) [Decidable c] (a b i n : Nat) : StaysIn d s (if c then s else s.bump a b i n) := by
  split
  · exact .refl d s
  · exact .bump d s a b i n

theorem StaysIn.pauseSlab (s : State) (d : Nat) (b : Slab) (off : Rat) : StaysIn d s (s.pauseSlab d b off) :=
  (StaysIn.ite_bump ..).trans (.updSlab ..)

theorem StaysIn.updDev (s : State) (d : Nat) (k : DevSlab) (f : DevSlabRec → DevSlabRec) : StaysIn d s (s.updDev d k f) := .updDom d s _

theorem StaysIn.pauseDev (s : State) (d : Nat) (r : DevSlabRec) (off : Rat) : StaysIn d s (s.pauseDev d r off) :=
  (StaysIn.ite_bump ..).trans (.updDev ..)

theorem multi_bump (s : State) (n : Nat) (m : Bool) :
    (if m = true then s else s.bump n pTik 5 1).counter n pTik 5 = s.counter n pTik 5 + (if m then 0 else 1) := by
  cases m
  · exact counter_bump_self ..
  · exact (BitVec.add_zero _).symm

theorem ite_bump_dom (s : State) (c : Prop) [Decidable c] (a b i n e : Nat) : (if c then s else s.bump a b i n).dom e = s.dom e := by
  split
  · rfl
  · rfl

theorem pauseSlab_slabs (s : State) (d : Nat) (b : Slab) (off : Rat) :
    ((s.pauseSlab d b off).dom d).slabs = slabsWith (s.dom d).slabs b.order (fun c =>
      { c with state := .paused, multi := true, planStart := c.planStop, remaining := c.remaining - s.sliceDone b off,
               frac := c.frac - ratMin c.frac (s.sliceDone b off), chainPos := c.loopPos (c.remaining - s.sliceDone b off),
               nextPlan := if c.status = .sharedPoison then none else c.nextPlan }) := by
  unfold State.pauseSlab
  dsimp only
  rw [updSlab_slabs, ite_bump_dom]

theorem updDev_devSlabs (s : State) (d : Nat) (k : DevSlab) (f : DevSlabRec → DevSlabRec) :
    ((s.updDev d k f).dom d).devSlabs = updDevs k f (s.dom d).devSlabs := by
  rw [State.updDev, dom_updDom_self]

theorem updDev_slabs (s : State) (d : Nat) (k : DevSlab) (f : DevSlabRec → DevSlabRec) : ((s.updDev d k f).dom d).slabs = (s.dom d).slabs := by
  rw [State.updDev, dom_updDom_self]

/-- A device slab that pauses has done some fraction of its work (R325). -/
theorem pauseDev_dom (s : State) (d : Nat) (r : DevSlabRec) (off : Rat) :
    ((s.pauseDev d r off).dom d).slabs = (s.dom d).slabs ∧ ∃ done, ((s.pauseDev d r off).dom d).devSlabs = updDevs r.kind (fun q =>
      { q with state := .paused, multi := true, remaining := q.remaining - done, frac := q.frac - ratMin q.frac done,
               planStart := q.planStop }) (s.dom d).devSlabs := by
  unfold State.pauseDev
  dsimp only
  rw [updDev_slabs, updDev_devSlabs, ite_bump_dom]
  exact ⟨rfl, _, rfl⟩

theorem devSlab?_kind {x : Dom} {k : DevSlab} {r : DevSlabRec} (h : x.devSlab? k = some r) : r.kind = k := by
  have hk := List.find?_some h
  simp only [Bool.and_eq_true, beq_iff_eq] at hk
  exact hk.1

/-! ## Ends of slabs (R25, R26, R241) -/

/-- A change of an operation that neither renames, ends nor fails it. -/
theorem collReady_updOp (s : State) (d : Nat) (id : W32) (f : CollOp → CollOp) (c : Slab)
    (hf : ∀ o, (f o).id = o.id ∧ (f o).finished = o.finished ∧ (f o).failed = o.failed) :
    ((s.updOp d id f).dom d).collReady c = (s.dom d).collReady c := by
  have hid : ∀ o : CollOp, (if o.id = id then f o else o).id = o.id := fun o => by
    split
    · exact (hf o).1
    · rfl
  rw [State.updOp, dom_updDom_self]
  unfold Dom.collReady Dom.collOp Dom.updCol
  rw [List.find?_map]
  simp only [Function.comp_def, hid]
  cases (s.dom d).col.ops.find? fun o => o.id == (collBody c.words).id with
  | none => rfl
  | some o =>
    simp only [Option.map_some]
    split
    · rw [(hf o).2.1, (hf o).2.2]
    · rfl

theorem collReady_collDue (s : State) (d : Nat) (b c : Slab) : ((s.collDue d b).dom d).collReady c = (s.dom d).collReady c := by
  unfold State.collDue
  split
  · exact collReady_updOp _ _ _ _ _ (fun _ => ⟨rfl, rfl, rfl⟩)
  · rfl

section Complete

variable {s : State} {d : Fin 64} {nowNs : Nat} {tag : W32} {b : Slab}

/-- A slab whose work is done ends by its status. -/
theorem exec_slabComplete_user (hb : (s.dom d.val).slabOf tag = some b) (he : (s.atTime nowNs).mayEnd d.val b = true) (hr : b.ran = true) :
    exec (.slabComplete d (.user tag) nowNs) s = .next (((s.atTime nowNs).collDue d.val b).concludeSlab d.val b nowNs) := by
  have hlate : (s.atTime nowNs).lateCompute d.val b = s.atTime nowNs := by rw [State.lateCompute, if_pos hr]
  have hof : ∀ t : State, (t.dom d.val).slabs = (s.dom d.val).slabs → (t.dom d.val).slabOf tag = some b := fun t h => by
    rw [← hb]; unfold Dom.slabOf; rw [h]
  have hready : ((hdrOf b.words).kind != 6 || (((s.atTime nowNs).collDue d.val b).dom d.val).collReady b) = true := by
    rw [collReady_collDue]
    simp only [State.mayEnd, hr, Bool.and_eq_true, Bool.not_true, Bool.or_false] at he
    exact he.2
  show execSlabComplete d (.user tag) nowNs s = _
  simp only [execSlabComplete, atTime_dom, hb, he, hlate, hof _ (collDue_slabs (s.atTime nowNs) d.val b d.val), hready]
  rfl

end Complete

/-- What a slab's completed work leaves before it ends: its effects, or those of a failed demand page, and a collective's results. -/
theorem concludeSlab_of_ends (s : State) (d : Nat) (b : Slab) (nowNs : Nat) (hs : b.status ≠ .sharedPoison) :
    ∃ t, s.concludeSlab d b nowNs = t.endSlab d b b.status ∧ (t.dom d).slabs = ((s.countBusy d nowNs b).dom d).slabs ∧ t.tik = s.tik ∧
      ((hdrOf b.words).kind ≠ 6 → b.effects = [] → b.pageFailed = false → t = s.countBusy d nowNs b) := by
  have htik : (s.countBusy d nowNs b).tik = s.tik := (fr_countBusy (fr_refl _ s) d nowNs b (fun _ h => h)).kept .tik (by decide)
  have heff : ∀ (l : List EndEffect) (t : State), (l.foldl (fun t e => t.endEffect d e) t).tik = t.tik := fun l t =>
    (fr_foldl _ (fun u a h => fr_endEffect h d a (fun _ h => h)) l (fr_refl _ t)).kept .tik (by decide)
  have hput := fr_putWithheld (fr_refl _ (s.countBusy d nowNs b)) d b.withheld (fun _ h => h)
  unfold State.concludeSlab
  simp only [if_neg hs]
  generalize hs2 : (if b.pageFailed then b.failEffects.foldl (fun t e => t.endEffect d e) ((s.countBusy d nowNs b).putWithheld d b.withheld)
    else b.effects.foldl (fun t e => t.endEffect d e) (s.countBusy d nowNs b)) = t2
  have h2 : (t2.dom d).slabs = ((s.countBusy d nowNs b).dom d).slabs ∧ t2.tik = s.tik := by
    subst hs2
    split
    · exact ⟨(endEffects_slabs _ _ d d).trans (slabs_of_frame hput (by decide) d), (heff _ _).trans ((hput.kept .tik (by decide)).trans htik)⟩
    · exact ⟨endEffects_slabs _ _ d d, (heff _ _).trans htik⟩
  refine ⟨_, rfl, ?_, ?_, fun hk he hp => ?_⟩
  · split
    · exact ((slabs_of_frame (fr_endColl (fr_refl _ _) d b.words (fun _ h => h)) (by decide) d).trans
        (slabs_of_frame (fr_collWait (fr_refl _ t2) d b nowNs (fun _ h => h)) (by decide) d)).trans h2.1
    · exact h2.1
  · split
    · exact (((fr_endColl (fr_refl _ _) d b.words (fun _ h => h)).kept .tik (by decide)).trans
        ((fr_collWait (fr_refl _ t2) d b nowNs (fun _ h => h)).kept .tik (by decide))).trans h2.2
    · exact h2.2
  · rw [if_neg hk, ← hs2, hp, he]
    rfl

/-- A slab that read poison of the base is withheld (R26, R241, R243). -/
theorem withhold_slabs (s : State) (d : Nat) (b : Slab) :
    ((s.withhold d b).dom d).slabs = slabsWith (s.dom d).slabs b.order (fun c =>
      { c with state := .withheld, status := .done, effects := [], ran := false, sram := false,
               nextPlan := if c.replayWord then c.nextPlan else none, demand := [], pageFailed := false, withheld := {}, failEffects := [],
               attemptWord := c.wordReserved, wordReserved := c.replayWord, replayWord := false, sharedWith := [],
               replayTick := if c.poisonTick = 0 then s.replayFrom else c.poisonTick, poisonTick := 0 }) := by
  unfold State.withhold
  dsimp only
  split
  · rw [raiseDom_dom_slabs]
    exact updSlab_slabs ..
  · rw [slabs_of_frame (fr_setEvent (fr_refl _ _) 64 pBas 8 (fun _ h => h)) (by decide) d, raiseDom_dom_slabs]
    exact updSlab_slabs ..

theorem withhold_counter (s : State) {d : Nat} (hd : d < 64) (b : Slab) :
    (s.withhold d b).counter dev pBas 3 = s.counter dev pBas 3 + 1 := by
  have hne : counterKey dev pBas 3 ≠ counterKey d pBas 3 := by unfold counterKey dev; omega
  have hu : Untraced dev pBas 3 := ⟨by decide, by decide⟩
  have hraised : ∀ t : State, t.counter dev pBas 3 = s.counter dev pBas 3 →
      (((t.bump d pBas 3 1).bump dev pBas 3 1).raiseDom pBas 3 d).counter dev pBas 3 = s.counter dev pBas 3 + 1 := fun t ht => by
    rw [counter_raiseDom _ _ _ _ hu, counter_bump_self, counter_bump, if_neg hne, ht]
    rfl
  unfold State.withhold
  dsimp only
  split
  · exact hraised _ rfl
  · rw [counter_congr (setEvent_counters _ _ _ _)]
    exact hraised _ rfl

theorem withhold_event (s : State) (d : Nat) (b : Slab) (hl : s.live d = true) : EventIn (s.withhold d b) (domCopies pBas 3 d) pBas 3 := by
  have hlive : ∀ f : Slab → Slab, (((s.updSlab d b.order f).bump d pBas 3 1).bump dev pBas 3 1).live d = true := fun f =>
    (live_of_frame (fr_updSlab (fr_refl _ s) d b.order f (fun _ h => h)) (by decide) d).trans hl
  intro c hc
  unfold State.withhold
  dsimp only
  split
  · exact raiseDom_event _ _ _ _ (by decide) (hlive _) c hc
  · exact eventsStay_setEvent _ _ _ _ _ _ _ (raiseDom_event _ _ _ _ (by decide) (hlive _) c hc)

/-! ## Saving and restoring (R154, R327) -/

theorem accGet_clearArrays (s : State) (a n : Nat) (buffers : Bool) (k : Nat) :
    (s.clearArrays a n buffers).accGet k = if k < 4096 * a ∨ 4096 * (a + n) ≤ k then s.accGet k else 0 := by
  unfold State.accGet State.clearArrays
  dsimp only
  rw [mapGet_filter s.acc (fun i => i < 4096 * a || 4096 * (a + n) ≤ i)]
  by_cases h : k < 4096 * a ∨ 4096 * (a + n) ≤ k
  · simp [h]
  · simp [h]

theorem clearArrays_accGet_zero {s : State} {k : Nat} (h : s.accGet k = 0) (a n : Nat) (buffers : Bool) :
    (s.clearArrays a n buffers).accGet k = 0 := by
  rw [accGet_clearArrays, h, ite_self]

/-- Clearing units leaves every entry of theirs at +0 (R75). -/
theorem accGet_clearUnits (us : List Nat) (s : State) {u k : Nat} (hu : u ∈ us) (hlo : 524288 * u ≤ k) (hhi : k < 524288 * (u + 1)) :
    (us.foldl (fun t v => t.clearArrays (128 * v) 128 true) s).accGet k = 0 := by
  induction us generalizing s with
  | nil => cases hu
  | cons v r ih =>
    rcases List.mem_cons.mp hu with rfl | hr
    · refine foldl_keeps (fun t : State => t.accGet k = 0) _ (fun t w ht => clearArrays_accGet_zero ht _ _ _) r ?_
      rw [accGet_clearArrays, if_neg (by omega)]
    · exact ih _ hr

/-- A domain whose save slab ends, with what the save area is to hold of arrays, operand buffers and banks (R327). -/
def savedDom (x : Dom) (acc : List (Nat × W32)) (opbuf commons : List Host.Cell) : Dom :=
  if x.restoring then { x with saving := false }
  else { x with saving := false, savedAcc := acc, savedOpbuf := opbuf, savedCommons := commons, slabs := x.slabs.map Slab.saveChain }

theorem savedDom_devSlabs (x : Dom) (acc : List (Nat × W32)) (opbuf commons : List Host.Cell) :
    (savedDom x acc opbuf commons).devSlabs = x.devSlabs ∧ (savedDom x acc opbuf commons).saving = false := by
  unfold savedDom
  split
  · exact ⟨rfl, rfl⟩
  · exact ⟨rfl, rfl⟩

theorem savedDom_savedAcc (x : Dom) (acc : List (Nat × W32)) (opbuf commons : List Host.Cell) :
    (savedDom x acc opbuf commons).savedAcc = if x.restoring then x.savedAcc else acc := by
  unfold savedDom
  split
  · rfl
  · rfl

/-- The state in which the save area is written and the domain's units are not yet cleared. -/
def savedState (s : State) (d : Nat) : State :=
  s.updDom d (fun x => savedDom x (s.acc.filter (fun p => (s.unitsOf d).contains (p.1 / 524288)))
    (s.opbuf.filter (fun c => (s.unitsOf d).contains (c.1 / 4194304)))
    (s.commons.filter (fun c => (s.dom d).savedBanks.1 ≤ c.1 && c.1 < (s.dom d).savedBanks.1 + (s.dom d).savedBanks.2)))

theorem saveEnds_eq (s : State) (d : Nat) :
    s.saveEnds d = ((s.unitsOf d).foldl (fun t u => t.clearArrays (128 * u) 128 true) (savedState s d)).raiseDom pTik 4 d := rfl

theorem clearUnits_frame (us : List Nat) (s : State) :
    Frame [.acc, .opbuf] s (us.foldl (fun t u => t.clearArrays (128 * u) 128 true) s) :=
  fr_foldl _ (fun _ _ h => fr_clearArrays h _ _ _ (fun _ h => h)) us (fr_refl _ s)

theorem saveEnds_frame (s : State) (d : Nat) : Frame (withEvents [.acc, .opbuf]) (savedState s d) (s.saveEnds d) := by
  rw [saveEnds_eq]
  exact fr_raiseDom (fr_mono (clearUnits_frame _ _) (by decide)) _ _ _ (by decide)

theorem savedState_dom (s : State) (d : Nat) : (savedState s d).dom d = savedDom (s.dom d)
    (s.acc.filter (fun p => (s.unitsOf d).contains (p.1 / 524288))) (s.opbuf.filter (fun c => (s.unitsOf d).contains (c.1 / 4194304)))
    (s.commons.filter (fun c => (s.dom d).savedBanks.1 ≤ c.1 && c.1 < (s.dom d).savedBanks.1 + (s.dom d).savedBanks.2)) :=
  dom_updDom_self ..

/-- The save slab ends: the save area holds the accumulators of the domain's units, unless a restore has not ended, and those stand at +0 (R75, R327). -/
theorem saveEnds_leaves (s : State) (d : Nat) :
    ((s.saveEnds d).dom d).devSlabs = (s.dom d).devSlabs ∧ ((s.saveEnds d).dom d).saving = false ∧
    ((s.saveEnds d).dom d).savedAcc =
      (if (s.dom d).restoring then (s.dom d).savedAcc else s.acc.filter (fun p => (s.unitsOf d).contains (p.1 / 524288))) ∧
    (∀ u ∈ s.unitsOf d, ∀ k, 524288 * u ≤ k → k < 524288 * (u + 1) → (s.saveEnds d).accGet k = 0) ∧
    (s.live d = true → EventIn (s.saveEnds d) (domCopies pTik 4 d) pTik 4) := by
  have hf := saveEnds_frame s d
  obtain ⟨-, hsaving, -, -, -, -, hacc, -, -⟩ := hf.kept .domPreempt (by decide) d
  obtain ⟨hdev, hsv⟩ := savedDom_devSlabs (s.dom d) (s.acc.filter (fun p => (s.unitsOf d).contains (p.1 / 524288)))
    (s.opbuf.filter (fun c => (s.unitsOf d).contains (c.1 / 4194304)))
    (s.commons.filter (fun c => (s.dom d).savedBanks.1 ≤ c.1 && c.1 < (s.dom d).savedBanks.1 + (s.dom d).savedBanks.2))
  rw [← savedState_dom] at hdev hsv
  refine ⟨(devSlabs_of_frame hf (by decide) d).trans hdev, hsaving.trans hsv, ?_, fun u hu k hlo hhi => ?_, fun hl c hc => ?_⟩
  · rw [hacc, savedState_dom, savedDom_savedAcc]
  · rw [saveEnds_eq, State.accGet, raiseDom_acc]
    exact accGet_clearUnits (s.unitsOf d) (savedState s d) hu hlo hhi
  · rw [saveEnds_eq]
    refine raiseDom_event _ _ _ _ (by decide) ?_ c hc
    rw [live_of_frame (clearUnits_frame _ _) (by decide) d]
    refine (live_congr (s := s) (fun e => ?_) d).trans hl
    unfold savedState
    rw [dom_updDom]
    split
    · next h =>
      subst h
      unfold savedDom
      split
      · rfl
      · rfl
    · rfl

theorem memRead_memMove (m saved : List Host.Cell) (a n o : Nat) :
    memRead (memMove m saved a n) o = if a ≤ o ∧ o < a + n then memRead saved o else memRead m o := by
  unfold memRead memMove
  rw [mapGet_append, mapGet_append, mapGet_filter m (fun i => i < a), mapGet_filter saved (fun i => a ≤ i && i < a + n),
    mapGet_filter m (fun i => a + n ≤ i)]
  by_cases h1 : o < a
  · have h2 : ¬ a ≤ o := by omega
    have h3 : ¬ a + n ≤ o := by omega
    simp [h1, h2, h3]
  · by_cases h2 : o < a + n
    · have h3 : ¬ a + n ≤ o := by omega
      have h4 : a ≤ o := by omega
      simp [h1, h2, h3, h4]
    · have h3 : a + n ≤ o := by omega
      simp [h1, h2, h3]

/-- The state in which accumulators, operand buffers and commons banks have come back from the save area. -/
def restoredState (s : State) (d : Nat) : State :=
  { s with acc := (s.dom d).savedAcc.foldl (fun m p => mapSet m p.1 p.2) s.acc,
           opbuf := (s.unitsOf d).foldl (fun m u => memMove m (s.dom d).savedOpbuf (4194304 * u) 4194304) s.opbuf,
           commons := memMove s.commons (s.dom d).savedCommons (s.dom d).savedBanks.1 (s.dom d).savedBanks.2 }

/-- A domain whose restore has ended (R327). -/
def restoredDom (y : Dom) : Dom :=
  { y with preempted := false, restoring := false, savedAcc := [], savedOpbuf := [], savedCommons := [],
           slabs := y.slabs.map Slab.restoreChain }

theorem restoreEnds_eq (s : State) (d : Nat) :
    s.restoreEnds d = (((restoredState s d).updDom d restoredDom).restageLost d).raiseDom pTik 5 d := rfl

theorem restoreEnds_frame (s : State) (d : Nat) :
    Frame (withEvents [.slots, .domVar]) ((restoredState s d).updDom d restoredDom) (s.restoreEnds d) := by
  rw [restoreEnds_eq]
  exact fr_raiseDom (fr_restageLost (fr_refl _ _) d (by decide)) _ _ _ (by decide)

/-- The restore ends: the domain is no longer preempted, and the saved banks of the commons stand again (R154, R327). -/
theorem restoreEnds_leaves (s : State) (d : Nat) :
    ((s.restoreEnds d).dom d).devSlabs = (s.dom d).devSlabs ∧ ((s.restoreEnds d).dom d).preempted = false ∧
    ((s.restoreEnds d).dom d).restoring = false ∧
    (∀ o, memRead (s.restoreEnds d).commons o =
      if (s.dom d).savedBanks.1 ≤ o ∧ o < (s.dom d).savedBanks.1 + (s.dom d).savedBanks.2 then memRead (s.dom d).savedCommons o
      else memRead s.commons o) ∧
    (s.live d = true → EventIn (s.restoreEnds d) (domCopies pTik 5 d) pTik 5) := by
  have hf := restoreEnds_frame s d
  obtain ⟨hpre, -, hres, -, -, -, -, -, -⟩ := hf.kept .domPreempt (by decide) d
  have hcom : (s.restoreEnds d).commons = (restoredState s d).commons := hf.kept .commons (by decide)
  rw [dom_updDom_self] at hpre hres
  refine ⟨?_, hpre, hres, fun o => ?_, fun hl c hc => ?_⟩
  · rw [devSlabs_of_frame hf (by decide) d, dom_updDom_self]
    rfl
  · rw [hcom]
    exact memRead_memMove ..
  · rw [restoreEnds_eq]
    refine raiseDom_event _ _ _ _ (by decide) ?_ c hc
    rw [live_of_frame (fr_restageLost (fr_refl _ _) d (fun _ h => h)) (by decide) d]
    refine (live_congr (s := s) (fun e => ?_) d).trans hl
    rw [dom_updDom]
    split
    · next h => subst h; rfl
    · rfl

/-- What a device slab does when it ends leaves the records of the domain's device slabs. -/
theorem devEnds_devSlabs (s : State) (d : Nat) (r : DevSlabRec) : ((s.devEnds d r).dom d).devSlabs = (s.dom d).devSlabs := by
  unfold State.devEnds
  cases r.kind with
  | cooper => exact devSlabs_of_frame (fr_cooperEnds (fr_refl _ s) d r.amount (fun _ h => h)) (by decide) d
  | sweep => exact devSlabs_of_frame (fr_sweepEnds (fr_refl _ s) d r.amount (fun _ h => h)) (by decide) d
  | save => exact (saveEnds_leaves s d).1
  | restore => exact (restoreEnds_leaves s d).1
  | tierQueue => rfl
  | carter => rfl

theorem exec_slabComplete_device {s : State} {d : Fin 64} {nowNs : Nat} {kind : DevSlab} {r : DevSlabRec}
    (hr : (s.dom d.val).devSlab? kind = some r) (he : (s.atTime nowNs).mayEndDev d.val r = true) :
    exec (.slabComplete d (.device kind) nowNs) s =
      .next (((s.atTime nowNs).updDev d.val kind (fun q => { q with state := .ended })).devEnds d.val r) := by
  show execSlabComplete d (.device kind) nowNs s = _
  simp only [execSlabComplete, atTime_dom, hr, he]
  rfl

/-- What the values of a keyed map give together: putting a value that gives what stood at its key gives no more and no less. -/
theorem mem_flatMap_mapSet {α β : Type} (g : α → List β) (z v : α) (hz : g z = []) (u : β) (m : List (Nat × α)) (k : Nat)
    (hv : g v = g ((mapGet m k).getD z)) : u ∈ (mapSet m k v).flatMap (fun p => g p.2) ↔ u ∈ m.flatMap (fun p => g p.2) := by
  induction m with
  | nil => simpa [mapSet] using fun h => by rw [hv] at h; simp [mapGet, hz] at h
  | cons p r ih =>
    obtain ⟨j, w⟩ := p
    unfold mapSet
    split
    · have hold : u ∈ g v → u ∈ ((j, w) :: r).flatMap (fun p => g p.2) := fun hu => by
        rw [hv] at hu
        cases hm : mapGet ((j, w) :: r) k with
        | none => simp [hm, hz] at hu
        | some x =>
          obtain ⟨q, hq, rfl⟩ := Option.map_eq_some_iff.mp hm
          exact List.mem_flatMap.mpr ⟨q, List.mem_of_find?_eq_some hq, by simpa [hm] using hu⟩
      rw [List.flatMap_cons, List.mem_append]
      exact ⟨fun h => h.elim hold id, Or.inr⟩
    · split
      · next h =>
        subst h
        have hw : g v = g w := by simpa [mapGet] using hv
        simp [hw]
      · next h =>
        have hne : (j == k) = false := by simpa using fun e : j = k => h e.symm
        rw [List.flatMap_cons, List.flatMap_cons, List.mem_append, List.mem_append, ih (by simpa [mapGet, hne] using hv)]

/-- The units lent from a domain stay, whatever domain changes but for its loan. -/
theorem mem_lentFrom_updDom (s : State) (e : Nat) (f : Dom → Dom) (hf : (f (s.dom e)).loan = (s.dom e).loan) (d u : Nat) :
    u ∈ (s.updDom e f).lentFrom d ↔ u ∈ s.lentFrom d :=
  mem_flatMap_mapSet (fun x : Dom => match x.loan with
    | some (first, n, lender) => if lender = d then List.range' first n else []
    | none => []) {} (f (s.dom e)) rfl u s.doms e (by rw [hf]; rfl)

/-- The units of a domain, as a change of its device slabs leaves them. -/
theorem unitsOf_updDev (s : State) (d : Nat) (k : DevSlab) (f : DevSlabRec → DevSlabRec) : (s.updDev d k f).unitsOf d = s.unitsOf d := by
  have hl : ∀ u, ((s.updDev d k f).lentFrom d).contains u = (s.lentFrom d).contains u := fun u => by
    rw [Bool.eq_iff_iff, List.contains_iff_mem, List.contains_iff_mem]
    exact mem_lentFrom_updDom s d _ rfl d u
  unfold State.unitsOf
  simp only [hl]
  rw [State.updDev, dom_updDom_self]

/-! ## The statement on pause and end -/

section PauseAndEnd

variable {s : State} {d : Fin 64} {nowNs : Nat}

/-- BUSY of a unit is counted, and no counter of another number. -/
theorem counter_countBusy (s : State) (d nowNs : Nat) (b : Slab) {e g i : Nat} (hi : i % 8 ≠ 0) :
    (s.countBusy d nowNs b).counter e g i = s.counter e g i := by
  unfold State.countBusy
  dsimp only
  split
  · rfl
  · refine foldl_keeps (fun t : State => t.counter e g i = s.counter e g i) _ (fun t u ht => ?_) _ rfl
    rw [counter_bump, if_neg (by unfold counterKey; omega), ht]

/-- A slab that was ended, its effects done: its domain's slabs (R25, R26, R411). -/
theorem slabComplete_ended {tag : W32} {b : Slab} (hb : (s.dom d.val).slabOf tag = some b) (he : (s.atTime nowNs).mayEnd d.val b = true)
    (hr : b.ran = true) (hs : b.status ≠ .sharedPoison) :
    ∃ t, exec (.slabComplete d (.user tag) nowNs) s = .next t ∧
      (t.dom d.val).slabs = slabsEnded (slabsWith (s.dom d.val).slabs b.order (fun c => { c with busyFrom := max c.busyFrom nowNs })) b b.status s.tik.tick ∧
      ((hdrOf b.words).kind ≠ 6 → b.effects = [] → b.pageFailed = false →
        OnlyDom s t d.val ∧ Frame (withEvents [.fuses, .pci, .tik, .domQueue, .domSlabs]) s t) := by
  obtain ⟨u, hu, hslabs, htik, hplain⟩ := concludeSlab_of_ends ((s.atTime nowNs).collDue d.val b) d.val b nowNs hs
  have htick : u.tik.tick = s.tik.tick := by
    rw [htik, (fr_collDue (fr_refl _ (s.atTime nowNs)) d.val b (fun _ h => h)).kept .tik (by decide)]
    rfl
  refine ⟨_, exec_slabComplete_user hb he hr, ?_, fun hk hf hp => ?_⟩
  · rw [hu, endSlab_slabs, htick, hslabs, countBusy_slabs, collDue_slabs, atTime_dom]
  · have hcol : (s.atTime nowNs).collDue d.val b = s.atTime nowNs := by
      unfold State.collDue
      exact if_neg fun h => hk h.1
    rw [hu, hplain hk hf hp, hcol]
    refine ⟨(((StaysIn.atTime _ s nowNs).trans (.countBusy ..)).trans (.endSlab ..)).only, ?_⟩
    exact fr_endSlab (fr_countBusy (fr_atTime (fr_refl _ s) nowNs (by decide)) _ _ _ (by decide)) _ _ _ (by decide)

/-- A slab that read poison of the base is withheld, counted and reported (R26, R241, R243). -/
theorem slabComplete_withheld {tag : W32} {b : Slab} (hb : (s.dom d.val).slabOf tag = some b) (he : (s.atTime nowNs).mayEnd d.val b = true)
    (hr : b.ran = true) (hs : b.status = .sharedPoison) :
    ∃ t, exec (.slabComplete d (.user tag) nowNs) s = .next t ∧
      (∀ c ∈ (t.dom d.val).slabs, c.order = b.order → c.state = .withheld ∧ c.status = .done ∧ c.ran = false ∧
        ((∀ e ∈ (s.dom d.val).slabs, e.order = b.order → e = b) →
          c.replayTick = if b.poisonTick = 0 then s.tik.tick + 1 + (if s.tik.cutoffPassed then 1 else 0) else b.poisonTick)) ∧
      t.counter dev pBas 3 = s.counter dev pBas 3 + 1 ∧ (s.live d.val = true → EventIn t (domCopies pBas 3 d.val) pBas 3) := by
  have hcd := fr_collDue (fr_refl _ (s.atTime nowNs)) d.val b (fun _ h => h)
  have hcb := fr_countBusy (fr_refl _ ((s.atTime nowNs).collDue d.val b)) d.val nowNs b (fun _ h => h)
  generalize hcol : (s.atTime nowNs).collDue d.val b = u at *
  have hslabs : ((u.countBusy d.val nowNs b).dom d.val).slabs =
      slabsWith (s.dom d.val).slabs b.order (fun c => { c with busyFrom := max c.busyFrom nowNs }) := by
    rw [countBusy_slabs, ← hcol, collDue_slabs, atTime_dom]
  have hfrom : (u.countBusy d.val nowNs b).replayFrom = s.tik.tick + 1 + (if s.tik.cutoffPassed then 1 else 0) := by
    have htik : (u.countBusy d.val nowNs b).tik = (s.atTime nowNs).tik := (hcb.kept .tik (by decide)).trans (hcd.kept .tik (by decide))
    rw [State.replayFrom, htik]
    rfl
  have hconc : u.concludeSlab d.val b nowNs = (u.countBusy d.val nowNs b).withhold d.val b := by
    unfold State.concludeSlab
    simp only [if_pos hs]
  refine ⟨_, exec_slabComplete_user hb he hr, ?_⟩
  rw [hcol, hconc]
  refine ⟨fun c hc ho => ?_, ?_, fun hl => withhold_event _ _ _ ?_⟩
  · rw [withhold_slabs, hslabs, slabsWith_slabsWith] at hc
    · obtain ⟨e, hemem, heo, rfl⟩ := mem_slabsWith hc ho
      refine ⟨rfl, rfl, rfl, fun honly => ?_⟩
      rw [honly e hemem heo, hfrom]
    · exact fun _ => rfl
  · rw [withhold_counter _ d.isLt, counter_countBusy _ _ _ _ (by decide), counter_congr (hcd.kept .counters (by decide))]
    rfl
  · rw [live_of_frame hcb (by decide), live_of_frame hcd (by decide)]
    exact hl

/-- A device slab's work is done: it ends, and a save or a restore has its effect (R75, R154, R327). -/
theorem slabComplete_device {kind : DevSlab} {r : DevSlabRec} (hr : (s.dom d.val).devSlab? kind = some r)
    (he : (s.atTime nowNs).mayEndDev d.val r = true) :
    ∃ t, exec (.slabComplete d (.device kind) nowNs) s = .next t ∧
      (t.dom d.val).devSlabs = updDevs kind (fun q => { q with state := .ended }) (s.dom d.val).devSlabs ∧
      (kind = .save → (t.dom d.val).saving = false ∧
        ((s.dom d.val).restoring = false → (t.dom d.val).savedAcc = s.acc.filter (fun p => (s.unitsOf d.val).contains (p.1 / 524288))) ∧
        ((s.dom d.val).restoring = true → (t.dom d.val).savedAcc = (s.dom d.val).savedAcc) ∧
        (∀ u ∈ s.unitsOf d.val, ∀ key, 524288 * u ≤ key → key < 524288 * (u + 1) → t.accGet key = 0) ∧
        (s.live d.val = true → EventIn t (domCopies pTik 4 d.val) pTik 4)) ∧
      (kind = .restore → (t.dom d.val).preempted = false ∧ (t.dom d.val).restoring = false ∧
        (∀ o, memRead t.commons o =
          if (s.dom d.val).savedBanks.1 ≤ o ∧ o < (s.dom d.val).savedBanks.1 + (s.dom d.val).savedBanks.2
          then memRead (s.dom d.val).savedCommons o else memRead s.commons o) ∧
        (s.live d.val = true → EventIn t (domCopies pTik 5 d.val) pTik 5)) := by
  have hkind := devSlab?_kind hr
  have hunits := unitsOf_updDev (s.atTime nowNs) d.val kind (fun q => { q with state := .ended })
  have hdev := updDev_devSlabs (s.atTime nowNs) d.val kind (fun q => { q with state := .ended })
  have hlive : ((s.atTime nowNs).updDev d.val kind (fun q => { q with state := .ended })).live d.val = s.live d.val :=
    live_of_frame (fr_updDev (fr_refl _ (s.atTime nowNs)) d.val kind _ (fun _ h => h)) (by decide) d.val
  have hdom : ((s.atTime nowNs).updDev d.val kind (fun q => { q with state := .ended })).dom d.val =
    { s.dom d.val with devSlabs := updDevs kind (fun q => { q with state := .ended }) (s.dom d.val).devSlabs } := dom_updDom_self ..
  refine ⟨_, exec_slabComplete_device hr he, (devEnds_devSlabs ..).trans hdev, fun hk => ?_, fun hk => ?_⟩
  · obtain ⟨-, hsaving, hacc, hzero, hevent⟩ :=
      saveEnds_leaves ((s.atTime nowNs).updDev d.val kind (fun q => { q with state := .ended })) d.val
    rw [State.devEnds, hkind, hk]
    rw [hk] at hsaving hacc hzero hevent hunits hdom hlive
    rw [hunits, hdom] at hacc
    rw [hunits] at hzero
    rw [hlive] at hevent
    exact ⟨hsaving, fun hf => by rw [hacc, if_neg (by simpa using hf)]; rfl, fun ht => by rw [hacc, if_pos ht], hzero, hevent⟩
  · obtain ⟨-, hpre, hres, hcom, hevent⟩ :=
      restoreEnds_leaves ((s.atTime nowNs).updDev d.val kind (fun q => { q with state := .ended })) d.val
    rw [State.devEnds, hkind, hk]
    rw [hk] at hpre hres hcom hevent hdom hlive
    rw [hlive] at hevent
    rw [hdom] at hcom
    exact ⟨hpre, hres, hcom, hevent⟩

/-- A slab that leaves a shared fetch (R268). -/
theorem exec_sharedFetchHoldExpire {tag : W32} {b : Slab} (hb : (s.dom d.val).slabOf tag = some b) (hst : b.state = .running) :
    exec (.sharedFetchHoldExpire d tag) s = .next (s.updSlab d.val b.order (fun c => { c with sharedWith := [] })) := by
  show execSharedFetchHoldExpire d tag s = _
  simp only [execSharedFetchHoldExpire, hb, if_pos hst]

end PauseAndEnd

/-- Settles O45: a pause, an end, a withheld end and a device slab's end by the lemma of each. -/
theorem slabsPauseAndEnd : Obligations.SlabsPauseAndEnd := by
  unfold Obligations.SlabsPauseAndEnd
  intro s d tag kind nowNs n a off x
  refine ⟨fun b hb hrun hst he hp => ?_, fun r hr hrun hst he hp => ?_,
    fun b hb he hr => ⟨slabComplete_ended hb he hr, slabComplete_withheld hb he hr⟩, fun r hr he => slabComplete_device hr he,
    fun b hb hst => ⟨_, exec_sharedFetchHoldExpire hb hst, (StaysIn.updSlab ..).only, fr_updSlab (fr_refl _ s) _ _ _ (by decide),
      updSlab_slabs ..⟩⟩
  · have hexec := exec_slabPause_user hb hrun hst he hp
    refine ⟨_, hexec, ((StaysIn.atTime _ s nowNs).trans (.pauseSlab ..)).only, exec_slabPause_frame hexec, pauseSlab_slabs .., ?_⟩
    exact multi_bump (s.atTime nowNs) n b.multi
  · have hexec := exec_slabPause_device hr hrun hst he hp
    obtain ⟨hslabs, done, hdev⟩ := pauseDev_dom a n r off
    rw [devSlab?_kind hr] at hdev
    refine ⟨_, done, hexec, ((StaysIn.atTime _ s nowNs).trans (.pauseDev ..)).only, exec_slabPause_frame hexec, hslabs, hdev, ?_⟩
    exact multi_bump (s.atTime nowNs) n r.multi

end Sys2Proof.Proofs

/-! What a stripe that is asked for, arrives or is lost leaves of the domains (R233, R234, R242, R244): it ends slabs that wait for it, and their completion words are written at the settle phase alone. -/

namespace Sys2Proof.Proofs

open Sys2Proof.Machine Sys2Proof.Safety Sys2Proof.Laws

/-! ## Completion words and device slabs -/

/-- No domain's completion words or device slabs have changed. -/
structure KeepsWords (s t : State) : Prop where
  dom : ∀ e, (t.dom e).queue.compl = (s.dom e).queue.compl ∧ (t.dom e).devSlabs = (s.dom e).devSlabs

theorem KeepsWords.refl (s : State) : KeepsWords s s := ⟨fun _ => ⟨rfl, rfl⟩⟩

theorem KeepsWords.trans {s t u : State} (a : KeepsWords s t) (b : KeepsWords t u) : KeepsWords s u :=
  ⟨fun e => ⟨(b.dom e).1.trans (a.dom e).1, (b.dom e).2.trans (a.dom e).2⟩⟩

theorem KeepsWords.of_frame {L : List Part} {s t : State} (h : Frame L s t) (hq : Part.domQueue ∉ L) (hs : Part.domSlabs ∉ L) : KeepsWords s t :=
  ⟨fun e => ⟨congrArg QueueState.compl (h.kept .domQueue hq e), devSlabs_of_frame h hs e⟩⟩

theorem KeepsWords.updDom (s : State) (d : Nat) (f : Dom → Dom)
    (hf : (f (s.dom d)).queue.compl = (s.dom d).queue.compl ∧ (f (s.dom d)).devSlabs = (s.dom d).devSlabs) : KeepsWords s (s.updDom d f) := ⟨fun e => by
  rw [dom_updDom]
  split
  · next h => subst h; exact hf
  · exact ⟨rfl, rfl⟩⟩

theorem KeepsWords.ite {s t u : State} {c : Prop} [Decidable c] (ht : KeepsWords s t) (hu : KeepsWords s u) :
    KeepsWords s (if c then t else u) := by
  split
  · exact ht
  · exact hu

/-- A further change that is made in some cases only. -/
theorem KeepsWords.then_ite {s t u : State} {c : Prop} [Decidable c] (ht : KeepsWords s t) (hu : KeepsWords t u) :
    KeepsWords s (if c then u else t) := .ite (ht.trans hu) ht

theorem KeepsWords.foldl {α : Type} (f : State → α → State) (hf : ∀ t a, KeepsWords t (f t a)) (l : List α) (s : State) :
    KeepsWords s (l.foldl f s) :=
  foldl_keeps (KeepsWords s) f (fun t a h => h.trans (hf t a)) l (.refl s)

theorem KeepsWords.returnCredit (s : State) (d n : Nat) : KeepsWords s (s.returnCredit d n) := by
  have hupd : ∀ q, KeepsWords s (s.updDom d (fun x => x.updQueue (fun y => { y with limit := q }))) := fun q => .updDom s d _ ⟨rfl, rfl⟩
  unfold State.returnCredit
  dsimp only
  split
  · exact (hupd _).trans (.of_frame (L := [.pci, .pciPending, .out])
      (fr_msix (fr_updPci (fr_refl [.pci, .pciPending, .out] _) _ (.inl (by decide)) (.inl (by decide))) _ _ (by decide)) (by decide) (by decide))
  · exact hupd _

theorem KeepsWords.updSlab (s : State) (d o : Nat) (f : Slab → Slab) : KeepsWords s (s.updSlab d o f) := .updDom s d _ ⟨rfl, rfl⟩

theorem KeepsWords.creditSlab (s : State) (d : Nat) (b : Slab) : KeepsWords s (s.creditSlab d b) := by
  unfold State.creditSlab
  split
  · exact .refl s
  · exact (KeepsWords.updSlab ..).trans (.returnCredit ..)

theorem KeepsWords.endBatch (s : State) (d : Nat) (ws : List W64) : KeepsWords s (s.endBatch d ws) := by
  unfold State.endBatch
  dsimp only
  split
  · exact .updDom s d _ ⟨rfl, rfl⟩
  · exact .refl s

/-- A slab that ends has its word written later, at the settle phase (R26). -/
theorem KeepsWords.endSlab (s : State) (d : Nat) (b : Slab) (st : Status) : KeepsWords s (s.endSlab d b st) := by
  unfold State.endSlab
  exact (((KeepsWords.updSlab ..).trans (.creditSlab ..)).trans (.updDom _ d _ ⟨rfl, rfl⟩)).trans (.endBatch ..)

/-! ## Stripes -/

theorem KeepsWords.updCopy (s : State) (k : Nat) (f : CopySlot → CopySlot) : KeepsWords s (s.updCopy k f) :=
  .of_frame (fr_updCopy (fr_refl _ s) k f (fun _ h => h)) (by decide) (by decide)

theorem KeepsWords.bump (s : State) (a b c n : Nat) : KeepsWords s (s.bump a b c n) :=
  .of_frame (fr_bump (fr_refl _ s) a b c n (fun _ h => h)) (by decide) (by decide)

theorem KeepsWords.buildCheck (s : State) (k : Nat) : KeepsWords s (s.buildCheck k) :=
  .of_frame (fr_buildCheck (fr_refl _ s) k (fun _ h => h)) (by decide) (by decide)

theorem KeepsWords.failReplays (s : State) (k q : Nat) : KeepsWords s (s.failReplays k q) := by
  unfold State.failReplays State.eachDom
  exact .foldl _ (fun t d => .foldl _ (fun u b => .ite (.endSlab ..) (.refl u)) _ _) _ _

theorem KeepsWords.stripeLost (s : State) (k q : Nat) : KeepsWords s (s.stripeLost k q) := by
  unfold State.stripeLost
  exact (((KeepsWords.updCopy ..).trans (.failReplays ..)).trans
    (.of_frame (fr_raiseDev (fr_refl _ _) pBas 4 (fun _ h => h)) (by decide) (by decide))).trans (.buildCheck ..)

theorem KeepsWords.sourceFails (s : State) (k q : Nat) : KeepsWords s (s.sourceFails k q) := by
  unfold State.sourceFails
  dsimp only
  split
  · exact .updCopy ..
  · split
    · exact .stripeLost ..
    · exact .updCopy ..

theorem KeepsWords.writeStripe (s : State) (k q : Nat) (bytes : List Byte) (f : Stripe → Stripe) : KeepsWords s (s.writeStripe k q bytes f) :=
  .of_frame (fr_writeStripe (fr_refl _ s) k q bytes f (fun _ h => h)) (by decide) (by decide)

theorem KeepsWords.takePages (s : State) (k q : Nat) : KeepsWords s (s.takePages k q) :=
  .of_frame (fr_takePages (fr_refl _ s) k q (fun _ h => h)) (by decide) (by decide)

theorem KeepsWords.movePage (s : State) (k q : Nat) : KeepsWords s (s.movePage k q) :=
  .of_frame (fr_movePage (fr_refl _ s) k q (fun _ h => h)) (by decide) (by decide)

theorem KeepsWords.stripeArrives (s : State) (k q : Nat) (src : StripeSource) (bytes : List Byte) :
    KeepsWords s (s.stripeArrives k q src bytes) := by
  unfold State.stripeArrives
  split
  · exact .refl s
  split
  · exact (KeepsWords.bump ..).trans (.sourceFails ..)
  dsimp only
  refine .trans (.then_ite (.then_ite (.trans (.ite ?_ (.ite ?_ ?_)) (.bump ..)) (.bump ..)) ?_) (.buildCheck ..)
  · exact (KeepsWords.takePages ..).trans (.writeStripe ..)
  · exact (KeepsWords.of_frame (fr_pickRuns (fr_refl _ s) 1 _ (fun _ h => h)) (by decide) (by decide)).trans (.writeStripe ..)
  · exact ((KeepsWords.takePages ..).trans (.movePage ..)).trans (.writeStripe ..)
  · exact .of_frame (fr_updBas (fr_refl _ _) _ (fun _ h => h)) (by decide) (by decide)

theorem KeepsWords.refetched (s : State) (k q : Nat) (src : StripeSource) (bytes : List Byte) : KeepsWords s (s.refetched k q src bytes) := by
  unfold State.refetched
  split
  · exact .refl s
  · split
    · exact (((KeepsWords.movePage ..).trans (.writeStripe ..)).trans (.bump ..)).trans (.bump ..)
    · exact (KeepsWords.bump ..).trans (.sourceFails ..)

theorem KeepsWords.stripeIn (s : State) (k q : Nat) (src : StripeSource) (bytes : List Byte) : KeepsWords s (s.stripeIn k q src bytes) := by
  unfold State.stripeIn
  split
  · exact .refetched ..
  · exact .stripeArrives ..

theorem KeepsWords.parentGone (s : State) (k : Nat) : KeepsWords s (s.parentGone k) := by
  unfold State.parentGone
  dsimp only
  split
  · exact (KeepsWords.updCopy ..).trans (.foldl _ (fun t q => .stripeLost t k q) _ _)
  · exact .updCopy ..

theorem KeepsWords.takeStripe (s : State) (t : Txn) : KeepsWords s (s.takeStripe t) := by
  unfold State.takeStripe
  dsimp only
  split
  · exact .refl s
  split
  · split
    · exact (KeepsWords.updCopy ..).trans (.bump ..)
    · exact ((KeepsWords.updCopy ..).trans (.bump ..)).trans (.stripeIn ..)
  split
  · split
    · exact .parentGone ..
    · split
      · exact .stripeLost ..
      · exact .updCopy ..
  · exact .sourceFails ..

theorem KeepsWords.of_forward {s t : State} {origin vc tag : Nat} {dl : Bool} {pl : List Byte} (h : s.forward origin vc tag dl pl = some t) :
    KeepsWords s t := .of_frame (fr_forward (fr_refl _ s) h (fun _ h => h)) (by decide) (by decide)

/-- An answer to a stripe's request reaches Carter, here or at another device. -/
theorem KeepsWords.sendStripe (s : State) (t : Txn) : KeepsWords s (s.sendAnswer 0xB t) := by
  unfold State.sendAnswer
  split
  · exact .takeStripe ..
  · cases h : s.forward 0 1 t.ptag.toNat false (txnPayload t 0xB none) with
    | none => exact .refl s
    | some u => exact .of_forward h

theorem KeepsWords.requestStripe (s : State) (t : Txn) : KeepsWords s (s.sendRequest 0xA t) := by
  unfold State.sendRequest
  split
  · exact (KeepsWords.of_frame (fr_serveStripe (fr_refl _ s) t [] (fun _ h => h)) (by decide) (by decide)).trans
      (.foldl _ (fun u a => .sendStripe u a) _ _)
  · split
    · next h => exact .of_forward h
    · exact .takeStripe ..

/-- Asking for a stripe leaves the completion words and the device slabs of every domain. -/
theorem KeepsWords.askStripe (s : State) (k q : Nat) : KeepsWords s (s.askStripe k q) := by
  unfold State.askStripe
  dsimp only
  split
  · exact .stripeLost ..
  · exact ((KeepsWords.updCopy ..).trans (.updCopy ..)).trans (.requestStripe ..)
  · exact (KeepsWords.updCopy ..).trans (.of_frame (fr_readStripe (fr_refl _ _) k q (fun _ h => h)) (by decide) (by decide))
  · exact (KeepsWords.updCopy ..).trans (.of_frame (fr_emit (fr_refl _ _) _ (fun _ h => h)) (by decide) (by decide))

end Sys2Proof.Proofs

/-! The end of the run phase, the settle phase and a refetch in it (R26, R242, R307, R310, R314, R325, R414, R416): the completion word, the slabs that pause, the words that are written, and the stripe that comes back. -/

namespace Sys2Proof.Proofs

open Sys2Proof.Machine Sys2Proof.Safety Sys2Proof.Laws

/-! ## Folds -/

/-- What one step of a fold establishes and no step breaks, holds after it. -/
theorem foldl_establishes {α β : Type} (P : β → Prop) (f : β → α → β) (hf : ∀ b a, P b → P (f b a)) {a : α} (hset : ∀ b, P (f b a)) :
    ∀ (l : List α) (b : β), a ∈ l → P (l.foldl f b)
  | c :: r, b, h => by
    rcases List.mem_cons.mp h with rfl | h
    · exact foldl_keeps P f hf r (hset b)
    · exact foldl_establishes P f hf hset r _ h

/-- What the step of one element makes of what stood before it, in a fold in which it comes once and no other step touches either. -/
theorem foldl_once {α β : Type} {P Q : β → Prop} (f : β → α → β) {a : α} (hP : ∀ b c, c ≠ a → P b → P (f b c)) (ha : ∀ b, P b → Q (f b a))
    (hQ : ∀ b c, c ≠ a → Q b → Q (f b c)) : ∀ (l : List α) (b : β), l.Nodup → a ∈ l → P b → Q (l.foldl f b)
  | c :: r, b, hn, h, hb => by
    obtain ⟨hc, hr⟩ := List.nodup_cons.mp hn
    rcases List.mem_cons.mp h with rfl | h
    · refine List.foldlRecOn r f (ha b hb) fun t ht e he => hQ t e (fun hea => hc (hea ▸ he)) ht
    · exact foldl_once f hP ha hQ r _ hr h (hP b c (fun hca => hc (hca ▸ h)) hb)

/-! ## The completion word (R414) -/

theorem completionWord_eq (ws : List W64) (st : Status) (replay : Bool) (tick : Nat) :
    completionWord ws st replay tick = BitVec.ofNat 64 ((hdrOf ws).tag % 2 ^ 32 + 2 ^ 32 * (st.code % 256) +
      2 ^ 40 * ((hdrOf ws).kind % 16) + 2 ^ 44 * (if replay then 1 else 0) + 2 ^ 45 * (tick % 2 ^ 15) + 2 ^ 63) := by
  have hbit : bit01 replay % 2 ^ 1 = if replay then 1 else 0 := by cases replay <;> rfl
  unfold completionWord w64
  refine congrArg (BitVec.ofNat 64) ?_
  simp only [fld, Nat.shiftLeft_eq, hbit]
  omega

/-! ## The end of the run phase (R307, R325) -/

/-- Nothing of a domain runs. -/
def Stopped (x : Dom) : Prop := (∀ b ∈ x.slabs, b.state ≠ .running) ∧ ∀ kind r, x.devSlab? kind = some r → r.state ≠ .running

/-- A change of the first record of a kind that has not ended, to one that has not ended either. -/
theorem find_updDevs (k : DevSlab) (f : DevSlabRec → DevSlabRec) (hf : ∀ r, (f r).kind = r.kind ∧ (f r).state ≠ .ended) (l : List DevSlabRec) (j : DevSlab) :
    (updDevs k f l).find? (fun r => r.kind == j && r.state != .ended) =
      if j = k then (l.find? (fun r => r.kind == j && r.state != .ended)).map f else l.find? (fun r => r.kind == j && r.state != .ended) := by
  induction l with
  | nil => simp [updDevs]
  | cons r l ih =>
    obtain ⟨hk, hs⟩ := hf r
    unfold updDevs
    by_cases hr : r.kind = k ∧ r.state ≠ .ended
    · rw [if_pos hr, List.find?_cons, List.find?_cons, hk, hr.1]
      by_cases hj : j = k
      · subst hj
        have hf : ((f r).state != .ended) = true := by simpa using hs
        have hr : (r.state != .ended) = true := by simpa using hr.2
        simp [hf, hr]
      · have hkj : (k == j) = false := by simpa using fun h : k = j => hj h.symm
        simp [hj, hkj]
    · rw [if_neg hr, List.find?_cons, List.find?_cons, ih]
      split
      · next h =>
        have hj : j ≠ k := fun hjk => hr ⟨by simp at h; exact h.1.trans hjk, by simp at h; exact h.2⟩
        rw [if_neg hj]
      · rfl

theorem pauseDev_devSlab? (s : State) (d : Nat) (r : DevSlabRec) (off : Rat) (j : DevSlab) :
    ∃ done, ((s.pauseDev d r off).dom d).devSlab? j = if j = r.kind then ((s.dom d).devSlab? j).map (fun q =>
      { q with state := .paused, multi := true, remaining := q.remaining - done, frac := q.frac - ratMin q.frac done,
               planStart := q.planStop }) else (s.dom d).devSlab? j := by
  obtain ⟨-, done, hdev⟩ := pauseDev_dom s d r off
  refine ⟨done, ?_⟩
  unfold Dom.devSlab?
  rw [hdev]
  refine find_updDevs _ _ (fun q => ⟨?_, ?_⟩) _ _
  · rfl
  · exact nofun

/-- The domain's slabs with a submission number do not run. -/
def SlabStopped (d o : Nat) (s : State) : Prop := ∀ c ∈ (s.dom d).slabs, c.order = o → c.state ≠ .running

theorem slabStopped_pauseSlab (s : State) (d : Nat) (b : Slab) (off : Rat) : SlabStopped d b.order (s.pauseSlab d b off) := by
  intro c hc ho
  rw [pauseSlab_slabs] at hc
  obtain ⟨e, -, -, rfl⟩ := mem_slabsWith hc ho
  simp

theorem SlabStopped.pauseSlab {s : State} {d o : Nat} (h : SlabStopped d o s) (b : Slab) (off : Rat) : SlabStopped d o (s.pauseSlab d b off) := by
  by_cases hb : b.order = o
  · subst hb
    exact slabStopped_pauseSlab s d b off
  · intro c hc ho
    rw [pauseSlab_slabs] at hc
    obtain ⟨e, he, hce⟩ := List.mem_map.mp hc
    by_cases heo : e.order = b.order
    · rw [if_pos heo] at hce
      subst hce
      simp
    · rw [if_neg heo] at hce
      subst hce
      exact h e he ho

/-- The domain's own slab of a kind does not run. -/
def DevStopped (d : Nat) (k : DevSlab) (s : State) : Prop := ∀ r, (s.dom d).devSlab? k = some r → r.state ≠ .running

theorem devStopped_pauseDev (s : State) (d : Nat) (r : DevSlabRec) (off : Rat) : DevStopped d r.kind (s.pauseDev d r off) := by
  intro q hq
  obtain ⟨done, hdev⟩ := pauseDev_devSlab? s d r off r.kind
  rw [hdev, if_pos rfl] at hq
  obtain ⟨p, -, rfl⟩ := Option.map_eq_some_iff.mp hq
  simp

theorem DevStopped.pauseDev {s : State} {d : Nat} {k : DevSlab} (h : DevStopped d k s) (r : DevSlabRec) (off : Rat) :
    DevStopped d k (s.pauseDev d r off) := by
  by_cases hk : k = r.kind
  · subst hk
    exact devStopped_pauseDev s d r off
  · intro q hq
    obtain ⟨done, hdev⟩ := pauseDev_devSlab? s d r off k
    rw [hdev, if_neg hk] at hq
    exact h q hq

/-- The slabs that run pause one by one, each by its submission number. -/
theorem pauseSlabs_stopped (s : State) (d : Nat) (off : Rat) :
    ∀ c ∈ ((((s.dom d).slabs.filter (fun b => b.state == .running)).foldl (fun t b => t.pauseSlab d b off) s).dom d).slabs, c.state ≠ .running := by
  intro c hc hrun
  have hkeep : ∀ t (b : Slab), SlabStopped d c.order t → SlabStopped d c.order (t.pauseSlab d b off) := fun t b h => h.pauseSlab b off
  by_cases hex : ∃ b ∈ (s.dom d).slabs.filter (fun b => b.state == .running), b.order = c.order
  · obtain ⟨b, hb, ho⟩ := hex
    exact foldl_establishes (SlabStopped d c.order) _ hkeep (fun t => ho ▸ slabStopped_pauseSlab t d b off) _ s hb c hc rfl hrun
  · refine foldl_keeps (SlabStopped d c.order) _ hkeep _ (fun e he ho hst => hex ⟨e, ?_, ho⟩) c hc rfl hrun
    exact List.mem_filter.mpr ⟨he, by simpa using hst⟩

/-- The device's own slabs that run pause one by one, each by its kind. -/
theorem pauseDevs_stopped (s : State) (d : Nat) (off : Rat) (k : DevSlab) :
    DevStopped d k (((s.dom d).devSlabs.filter (fun r => r.state == .running)).foldl (fun t r => t.pauseDev d r off) s) := by
  have hkeep : ∀ t (r : DevSlabRec), DevStopped d k t → DevStopped d k (t.pauseDev d r off) := fun t r h => h.pauseDev r off
  by_cases hex : ∃ r ∈ (s.dom d).devSlabs.filter (fun r => r.state == .running), r.kind = k
  · obtain ⟨r, hr, hk⟩ := hex
    exact foldl_establishes (DevStopped d k) _ hkeep (fun t => hk ▸ devStopped_pauseDev t d r off) _ s hr
  · refine foldl_keeps (DevStopped d k) _ hkeep _ (fun q hq hst => hex ⟨q, ?_, devSlab?_kind hq⟩)
    exact List.mem_filter.mpr ⟨List.mem_of_find?_eq_some hq, by simpa using hst⟩

theorem StaysIn.lag {d : Nat} {s t : State} (h : StaysIn d s t) (n : Nat) : StaysIn d s (if n = 0 then t
    else ((t.updDom d (fun x => { x with lagNext := x.lagNext + n })).bump d pTik 4 n).raiseDom pTik 3 d) := by
  split
  · exact h
  · exact ((h.trans (.updDom ..)).trans (.bump ..)).trans (.raiseDom ..)

theorem StaysIn.endRunOf (s : State) (off : Rat) (d : Nat) : StaysIn d s (s.endRunOf off d) := by
  unfold State.endRunOf
  exact .lag ((StaysIn.foldl _ (fun t b => .pauseSlab t d b off) _ _).trans (.foldl _ (fun t r => .pauseDev t d r off) _ _)) _

theorem Stopped.congr {x y : Dom} (h : Stopped x) (hs : y.slabs = x.slabs) (hd : y.devSlabs = x.devSlabs) : Stopped y := by
  refine ⟨by rw [hs]; exact h.1, fun k r hr => h.2 k r ?_⟩
  unfold Dom.devSlab? at hr ⊢
  rw [← hd]
  exact hr

/-- The end of its run phase stops a domain. -/
theorem endRunOf_stopped (s : State) (off : Rat) (d : Nat) : Stopped ((s.endRunOf off d).dom d) := by
  unfold State.endRunOf
  dsimp only
  generalize hs1 : ((s.dom d).slabs.filter (fun b => b.state == .running)).foldl (fun t b => t.pauseSlab d b off) s = s1
  have hdev : (s1.dom d).devSlabs = (s.dom d).devSlabs := by
    subst hs1
    refine foldl_keeps (fun t : State => (t.dom d).devSlabs = (s.dom d).devSlabs) _ (fun t b ht => ?_) _ rfl
    rw [State.pauseSlab, State.updSlab, dom_updDom_self, ite_bump_dom]
    exact ht
  have hslabs : ∀ (l : List DevSlabRec), ((l.foldl (fun t r => t.pauseDev d r off) s1).dom d).slabs = (s1.dom d).slabs := fun l =>
    foldl_keeps (fun t : State => (t.dom d).slabs = (s1.dom d).slabs) _ (fun t r ht => (pauseDev_dom t d r off).1.trans ht) l rfl
  have hstop : Stopped ((((s.dom d).devSlabs.filter (fun r => r.state == .running)).foldl (fun t r => t.pauseDev d r off) s1).dom d) := by
    refine ⟨?_, fun k => ?_⟩
    · rw [hslabs, ← hs1]
      exact pauseSlabs_stopped s d off
    · rw [← hdev]
      exact pauseDevs_stopped s1 d off k
  split
  · exact hstop
  · refine hstop.congr ?_ ?_
    · rw [raiseDom_dom_slabs, bump_dom, dom_updDom_self]
    · rw [raiseDom_dom_devSlabs, bump_dom, dom_updDom_self]

theorem stopped_endRunOf {s : State} {e : Nat} (h : Stopped (s.dom e)) (off : Rat) (d : Nat) : Stopped ((s.endRunOf off d).dom e) := by
  by_cases hed : e = d
  · subst hed
    exact endRunOf_stopped s off e
  · obtain ⟨hparts, -⟩ := (StaysIn.endRunOf s off d).only e hed
    obtain ⟨-, hslabs, hdev, -⟩ := hparts .domSlabs (by decide)
    exact h.congr hslabs hdev

theorem stopped_default : Stopped {} :=
  ⟨fun _ hb => absurd hb List.not_mem_nil, fun _ _ hr => absurd hr (by simp [Dom.devSlab?])⟩

/-- A domain that the state does not list has no slab. -/
theorem dom_eq_default {s : State} {d : Nat} (h : d ∉ s.doms.map Prod.fst) : s.dom d = {} := by
  unfold State.dom mapGet
  rw [List.find?_eq_none.mpr fun p hp hk => h (by simpa using ⟨p.2, (beq_iff_eq.mp hk) ▸ hp⟩)]
  rfl

/-- The end of the run phase stops every domain. -/
theorem eachDom_endRunOf_stopped (s : State) (off : Rat) (d : Nat) : Stopped ((s.eachDom (fun t e => t.endRunOf off e)).dom d) := by
  have hkeep : ∀ (t : State) e, Stopped (t.dom d) → Stopped ((t.endRunOf off e).dom d) := fun t e h => stopped_endRunOf h off e
  unfold State.eachDom
  by_cases hd : d ∈ s.doms.map Prod.fst
  · exact foldl_establishes (fun t : State => Stopped (t.dom d)) _ hkeep (fun t => endRunOf_stopped t off d) _ s (List.mem_dedup.mpr hd)
  · refine foldl_keeps (fun t : State => Stopped (t.dom d)) _ hkeep _ ?_
    rw [dom_eq_default hd]
    exact stopped_default

/-- On the plan clock the end of the run phase is reached. -/
theorem runEnd_reached {s : State} {nowNs : Nat} (h : s.tik.latchNs + s.tik.stallNs + s.runEndNs s.tik.tick ≤ nowNs) :
    ((s.runEndNs s.tik.tick : Nat) : Rat) < s.planOff nowNs + 1 := by
  unfold State.planOff
  have hq : ((s.tik.latchNs + s.tik.stallNs + s.runEndNs s.tik.tick : Nat) : Rat) ≤ (nowNs : Rat) := by exact_mod_cast h
  push_cast at hq
  linarith

theorem exec_runPhaseEnd {s : State} {nowNs : Nat} (ht : s.tik.ticking = true) (hr : s.tik.runEnded = false)
    (h : s.tik.latchNs + s.tik.stallNs + s.runEndNs s.tik.tick ≤ nowNs) :
    exec (.runPhaseEnd nowNs) s = .next (((s.atTime nowNs).eachDom
      (fun t d => t.endRunOf ((s.atTime nowNs).planOff nowNs) d)).updTik (fun t => { t with runEnded := true })) := by
  have hrun : (s.atTime nowNs).inRun = true := by
    show (s.tik.ticking && !s.tik.runEnded) = true
    rw [ht, hr]
    rfl
  show execRunPhaseEnd nowNs s = _
  simp only [execRunPhaseEnd, hrun, Bool.true_and]
  rw [if_pos]
  exact decide_eq_true (runEnd_reached (s := s.atTime nowNs) h)

/-- The run phase ends: everything has stopped, and nothing but slabs and lags has changed. -/
theorem runPhaseEnd_leaves {s : State} {nowNs : Nat} (ht : s.tik.ticking = true) (hr : s.tik.runEnded = false)
    (h : s.tik.latchNs + s.tik.stallNs + s.runEndNs s.tik.tick ≤ nowNs) :
    ∃ t, exec (.runPhaseEnd nowNs) s = .next t ∧ Frame (withEvents [.fuses, .tik, .domSlabs, .domSched]) s t ∧
      t.tik = { s.tik with timeNs := max nowNs s.tik.timeNs, runEnded := true } ∧
      (∀ d, ∀ b ∈ (t.dom d).slabs, b.state ≠ .running) ∧ ∀ d kind r, (t.dom d).devSlab? kind = some r → r.state ≠ .running := by
  have hexec := exec_runPhaseEnd ht hr h
  have htik := (fr_eachDom (fr_refl _ (s.atTime nowNs)) (fun t d => t.endRunOf ((s.atTime nowNs).planOff nowNs) d)
    (fun t d hf => fr_endRunOf hf _ d (fun _ h => h))).kept .tik (by decide)
  refine ⟨_, hexec, fr_execRunPhaseEnd (fr_refl _ s) nowNs (by decide) _ hexec, ?_, fun d => (eachDom_endRunOf_stopped _ _ d).1,
    fun d => (eachDom_endRunOf_stopped _ _ d).2⟩
  rw [updTik_tik, htik]
  rfl

/-! ## The words of the settle phase (R26, R414, R416) -/

/-- What a domain's completion words depend on: its slabs and its queue. -/
def workOf (x : Dom) : List Slab × QueueState := (x.slabs, x.queue)

theorem compl_of_work {x y : Dom} (h : workOf x = workOf y) : x.queue.compl = y.queue.compl :=
  congrArg (fun p : List Slab × QueueState => p.2.compl) h

theorem work_of_frame {L : List Part} {s t : State} (h : Frame L s t) (hq : Part.domQueue ∉ L) (hs : Part.domSlabs ∉ L) (e : Nat) :
    workOf (t.dom e) = workOf (s.dom e) :=
  Prod.ext (slabs_of_frame h hs e) (h.kept .domQueue hq e)

theorem work_of_stays {s t : State} {d e : Nat} (h : StaysIn d s t) (he : e ≠ d) : workOf (t.dom e) = workOf (s.dom e) := by
  obtain ⟨hparts, -⟩ := h.only e he
  obtain ⟨-, hslabs, -⟩ := hparts .domSlabs (by decide)
  exact Prod.ext hslabs (hparts .domQueue (by decide))

/-- A word reserved for the slab with a submission number, where it lacks one and the queue has room (R416). -/
def reserveIn : List Slab × QueueState → Nat → List Slab × QueueState
  | (l, q), order =>
    match l.find? (fun b => b.order == order) with
    | none => (l, q)
    | some b =>
      if b.wordReserved then (l, q)
      else if q.compl.length + q.reserved < 4096 then
        (slabsWith l order (fun c => { c with wordReserved := true }), { q with reserved := q.reserved + 1 })
      else (l, q)

theorem reserveIn_compl (p : List Slab × QueueState) (o : Nat) : (reserveIn p o).2.compl = p.2.compl := by
  obtain ⟨l, q⟩ := p
  unfold reserveIn
  dsimp only
  split
  · rfl
  · split
    · rfl
    · split
      · rfl
      · rfl

theorem reserveWord_work (s : State) (d o : Nat) : workOf (((s.reserveWord d o).1).dom d) = reserveIn (workOf (s.dom d)) o := by
  rw [workOf, workOf, State.reserveWord]
  dsimp only [reserveIn]
  cases (s.dom d).slabs.find? (fun b => b.order == o) with
  | none => rfl
  | some b =>
    dsimp only
    split
    · rfl
    · by_cases hfree : (s.dom d).queue.compl.length + (s.dom d).queue.reserved < 4096
      · have hw : (s.dom d).wordFree = true := decide_eq_true hfree
        rw [if_pos hw, if_pos hfree]
        dsimp only
        rw [dom_updDom_self, State.updSlab, dom_updDom_self]
        rfl
      · have hw : ¬ (s.dom d).wordFree = true := fun h => hfree (of_decide_eq_true h)
        rw [if_neg hw, if_neg hfree]

theorem StaysIn.reserveWord (s : State) (d o : Nat) : StaysIn d s (s.reserveWord d o).1 := by
  unfold State.reserveWord
  dsimp only
  split
  · exact .refl d s
  · split
    · exact .refl d s
    · split
      · dsimp only
        exact (StaysIn.updSlab ..).trans (.updDom d _ _)
      · exact .refl d s

/-- The words reserved at the settle phase. -/
def reservedEnded (p : List Slab × QueueState) : List Slab × QueueState :=
  (p.1.filter (fun b => b.state == .ended && !b.wordReserved)).foldl (fun q b => reserveIn q b.order) p

theorem reserveEnded_work (s : State) (d : Nat) : workOf ((s.reserveEnded d).dom d) = reservedEnded (workOf (s.dom d)) := by
  unfold State.reserveEnded reservedEnded
  exact (List.foldl_hom (fun t : State => workOf (t.dom d)) (fun t b => (reserveWord_work t d b.order).symm)).symm

theorem reservedEnded_compl (p : List Slab × QueueState) : (reservedEnded p).2.compl = p.2.compl :=
  foldl_keeps (fun q : List Slab × QueueState => q.2.compl = p.2.compl) _ (fun q b h => (reserveIn_compl q b.order).trans h) _ rfl

theorem StaysIn.reserveEnded (s : State) (d : Nat) : StaysIn d s (s.reserveEnded d) := by
  unfold State.reserveEnded
  exact .foldl _ (fun t (b : Slab) => .reserveWord t d b.order) _ s

theorem StaysIn.ite {d : Nat} {s t u : State} {c : Prop} [Decidable c] (ht : StaysIn d s t) (hu : StaysIn d s u) :
    StaysIn d s (if c then t else u) := by
  split
  · exact ht
  · exact hu

theorem StaysIn.then_ite {d : Nat} {s t u : State} {c : Prop} [Decidable c] (ht : StaysIn d s t) (hu : StaysIn d t u) :
    StaysIn d s (if c then u else t) := .ite (ht.trans hu) ht

theorem StaysIn.zsStep (s : State) (d slot : Nat) (nonzero : Bool) : StaysIn d s (s.zsStep d slot nonzero) := by
  unfold State.zsStep
  exact .ite (.updDom ..) (.then_ite (.updDom ..) (((StaysIn.updDom ..).trans (.bump ..)).trans (.raiseDom ..)))

theorem StaysIn.endFirstPass (s : State) (d : Nat) (nonfinite : Bool) : StaysIn d s (s.endFirstPass d nonfinite) := by
  unfold State.endFirstPass
  refine .ite (.refl d s) (.ite (((StaysIn.updDom ..).trans (.updDom ..)).trans (.bump ..)) ?_)
  exact (StaysIn.then_ite (.updDom ..) (.updDom ..)).trans (.foldl _ (fun t (m : Nat × Bool) => .zsStep t d m.1 m.2) _ _)

theorem StaysIn.closeStep (s : State) (d : Nat) : StaysIn d s (s.closeStep d) := by
  unfold State.closeStep
  exact .ite ((StaysIn.endFirstPass ..).trans (.updDom ..)) (.refl d s)

theorem StaysIn.endStep (s : State) (d : Nat) (ws : List W64) : StaysIn d s (s.endStep d ws) := by
  unfold State.endStep
  exact .ite (.closeStep ..) (.refl d s)

theorem KeepsWords.endStep (s : State) (d : Nat) (ws : List W64) : KeepsWords s (s.endStep d ws) := by
  unfold State.endStep State.closeStep
  refine .ite (.ite (.trans (.of_frame (fr_endFirstPass (fr_refl _ s) d false (fun _ h => h)) (by decide) (by decide)) ?_) (.refl s)) (.refl s)
  exact .updDom _ d _ ⟨rfl, rfl⟩

theorem StaysIn.writeWord (s : State) (d : Nat) (w : W64) : StaysIn d s (s.writeWord d w) := (StaysIn.updDom d s _).trans (.bump ..)

theorem writeWord_compl (s : State) (d : Nat) (w : W64) : ((s.writeWord d w).dom d).queue.compl = (s.dom d).queue.compl ++ [w] := by
  rw [State.writeWord, bump_dom, dom_updDom_self]
  rfl

theorem updDom_compl (s : State) (d : Nat) (f : Dom → Dom) (hf : ∀ x, (f x).queue.compl = x.queue.compl) :
    ((s.updDom d f).dom d).queue.compl = (s.dom d).queue.compl := by
  rw [dom_updDom_self, hf]

/-- The words of one slab at the settle phase (R26, R414). -/
theorem settleSlab_compl (s : State) (d : Nat) (b : Slab) :
    ((s.settleSlab d b).dom d).queue.compl = (s.dom d).queue.compl ++ slabWords s.tik.tick b := by
  unfold State.settleSlab slabWords
  by_cases hw : b.state = .withheld
  · rw [if_pos hw, if_pos hw]
    split
    · rw [State.updSlab, updDom_compl, writeWord_compl]
      exact fun _ => rfl
    · exact (List.append_nil _).symm
  rw [if_neg hw, if_neg hw]
  by_cases hend : b.state = .ended ∧ b.tick ≤ s.tik.tick
  · obtain ⟨hst, htick⟩ := hend
    have hcond : ¬ ((b.state != .ended || decide (s.tik.tick < b.tick)) = true) := by simp [hst, htick]
    have hpaid : KeepsWords s (if b.creditReturned then s
        else ((if b.status = .descInvalid then s else s.endStep d b.words).creditSlab d b).endBatch d b.words) :=
      .ite (.refl s) (((KeepsWords.ite (.refl s) (.endStep ..)).trans (.creditSlab ..)).trans (.endBatch ..))
    rw [if_neg hcond]
    dsimp only
    generalize (if b.creditReturned = true then s else _) = s1 at hpaid ⊢
    obtain ⟨hcompl, -⟩ := hpaid.dom d
    by_cases hdue : (hdrOf b.words).completeWord = true ∨ b.status ≠ .done ∨ b.replay = true
    · have hd : ((hdrOf b.words).completeWord || b.status != .done || b.replay) = true := by simpa [or_assoc] using hdue
      rw [if_pos hd]
      by_cases hr : b.wordReserved = true
      · rw [if_pos hr, if_pos ⟨hst, htick, hr, hdue⟩, updDom_compl, writeWord_compl, hcompl]
        exact fun _ => rfl
      · have hno : ¬ (b.state = .ended ∧ b.tick ≤ s.tik.tick ∧ b.wordReserved = true ∧
            ((hdrOf b.words).completeWord = true ∨ b.status ≠ .done ∨ b.replay = true)) := fun ⟨_, _, h, _⟩ => hr h
        rw [if_neg hr, if_neg hno, hcompl, List.append_nil]
    · have hd : ¬ ((hdrOf b.words).completeWord || b.status != .done || b.replay) = true := by simpa [or_assoc] using hdue
      have hno : ¬ (b.state = .ended ∧ b.tick ≤ s.tik.tick ∧ b.wordReserved = true ∧
          ((hdrOf b.words).completeWord = true ∨ b.status ≠ .done ∨ b.replay = true)) := fun ⟨_, _, _, h⟩ => hdue h
      rw [if_neg hd, if_neg hno, updDom_compl, List.append_nil]
      · split
        · rw [updDom_compl, hcompl]
          exact fun _ => rfl
        · exact hcompl
      · exact fun _ => rfl
  · have hcond : (b.state != .ended || decide (s.tik.tick < b.tick)) = true := by
      rw [not_and_or] at hend
      simpa [bne] using hend
    rw [if_pos hcond, if_neg fun ⟨hst, htick, _⟩ => hend ⟨hst, htick⟩, List.append_nil]

theorem StaysIn.settleSlab (s : State) (d : Nat) (b : Slab) : StaysIn d s (s.settleSlab d b) := by
  unfold State.settleSlab
  refine .ite (.ite ((StaysIn.writeWord ..).trans (.updSlab ..)) (.refl d s)) (.ite (.refl d s) ?_)
  have hpaid : StaysIn d s (if b.creditReturned then s
      else ((if b.status = .descInvalid then s else s.endStep d b.words).creditSlab d b).endBatch d b.words) :=
    .ite (.refl d s) (((StaysIn.ite (.refl d s) (.endStep ..)).trans (.creditSlab ..)).trans (.endBatch ..))
  exact hpaid.trans (.ite (.ite ((StaysIn.writeWord ..).trans (.updDom ..)) (.refl d _)) ((StaysIn.ite (.updDom ..) (.refl d _)).trans (.updDom ..)))

/-- The words of a list of slabs, in their order. -/
theorem settleSlabs_compl (d : Nat) (l : List Slab) (s : State) :
    ((l.foldl (fun t b => t.settleSlab d b) s).dom d).queue.compl = (s.dom d).queue.compl ++ (l.map (slabWords s.tik.tick)).flatten := by
  induction l generalizing s with
  | nil => exact (List.append_nil _).symm
  | cons b l ih =>
    have htik : (s.settleSlab d b).tik = s.tik := (fr_settleSlab (fr_refl _ s) d b (fun _ h => h)).kept .tik (by decide)
    rw [List.foldl_cons, ih, settleSlab_compl, htik, List.map_cons, List.flatten_cons, List.append_assoc]

/-! ## The settle work of a domain -/

/-- The state after the pager's settle work and its overrun (R211, R213, R316). -/
def pagerSettled (s : State) (d : Nat) : State :=
  let s1 := s.kvSettle d
  let n := (s1.dom d).lagNext - (s.dom d).lagNext
  if n = 0 then s1 else (s1.bump d pTik 4 n).raiseDom pTik 3 d

theorem settleDom_eq (s : State) (d : Nat) :
    s.settleDom d =
      let s1 := (pagerSettled s d).reserveEnded d
      let s2 := (s1.dom d).slabs.foldl (fun t b => t.settleSlab d b) s1
      if ((pagerSettled s d).dom d).queue.compl.length < (s2.dom d).queue.compl.length then s2.msix d 0 else s2 := rfl

theorem pagerSettled_frame (s : State) (d : Nat) :
    Frame (withEvents [.stretch, .domSched, .domKvp, .domTir, .domMem, .domPoison]) s (pagerSettled s d) := by
  unfold pagerSettled
  dsimp only
  split
  · exact fr_kvSettle (fr_refl _ s) d (by decide)
  · exact fr_raiseDom (fr_bump (fr_kvSettle (fr_refl _ s) d (by decide)) _ _ _ _ (by decide)) _ _ _ (by decide)

theorem msix_frame (s : State) (f v : Nat) : Frame [.pciPending, .out] s (s.msix f v) := fr_msix (fr_refl _ s) f v (fun _ h => h)

/-- The settle work of a domain appends the words of its slabs, once words are reserved for those that have ended. -/
theorem settleDom_compl (s : State) (d : Nat) :
    ((s.settleDom d).dom d).queue.compl =
      (s.dom d).queue.compl ++ ((reservedEnded (workOf (s.dom d))).1.map (slabWords s.tik.tick)).flatten := by
  have hpager := pagerSettled_frame s d
  have hwork := reserveEnded_work (pagerSettled s d) d
  rw [work_of_frame hpager (by decide) (by decide)] at hwork
  have hslabs := congrArg Prod.fst hwork
  have hcompl : (((pagerSettled s d).reserveEnded d).dom d).queue.compl = (s.dom d).queue.compl :=
    (congrArg (fun p : List Slab × QueueState => p.2.compl) hwork).trans (reservedEnded_compl _)
  have htik : ((pagerSettled s d).reserveEnded d).tik = s.tik :=
    ((fr_reserveEnded (fr_refl _ (pagerSettled s d)) d (fun _ h => h)).kept .tik (by decide)).trans (hpager.kept .tik (by decide))
  have hwords := settleSlabs_compl d (((pagerSettled s d).reserveEnded d).dom d).slabs ((pagerSettled s d).reserveEnded d)
  rw [hcompl, htik] at hwords
  rw [settleDom_eq, ← hslabs]
  dsimp only [workOf]
  split
  · rw [(msix_frame ..).kept .domQueue (by decide) d, hwords]
  · rw [hwords]

/-- The settle work of a domain leaves slabs and queue of every other. -/
theorem settleDom_work (s : State) {d e : Nat} (he : e ≠ d) : workOf ((s.settleDom d).dom e) = workOf (s.dom e) := by
  rw [settleDom_eq]
  dsimp only
  have hstays : StaysIn d (pagerSettled s d) _ :=
    (StaysIn.reserveEnded (pagerSettled s d) d).trans
      (.foldl (fun t (b : Slab) => t.settleSlab d b) (fun t b => .settleSlab t d b) (((pagerSettled s d).reserveEnded d).dom d).slabs _)
  have hwork := (work_of_stays hstays he).trans (work_of_frame (pagerSettled_frame s d) (by decide) (by decide) e)
  split
  · rw [work_of_frame (msix_frame ..) (by decide) (by decide), hwork]
  · exact hwork

theorem settleDom_tik (s : State) (d : Nat) : (s.settleDom d).tik = s.tik := (fr_settleDom (fr_refl _ s) d (fun _ h => h)).kept .tik (by decide)

theorem eachDom_settleDom_frame (s : State) :
    Frame (withEvents [.pci, .stretch, .domQueue, .domSlabs, .domSched, .domVec, .domUpd, .domKvp, .domTir, .domMem, .domPoison]) s
      (s.eachDom (fun t d => t.settleDom d)) :=
  fr_eachDom (fr_refl _ s) _ (fun t d h => fr_settleDom h d (by decide))

/-- Every domain's words of the settle phase. -/
theorem eachDom_settleDom_compl (s : State) (d : Nat) :
    ((s.eachDom (fun t e => t.settleDom e)).dom d).queue.compl =
      (s.dom d).queue.compl ++ ((reservedEnded (workOf (s.dom d))).1.map (slabWords s.tik.tick)).flatten := by
  unfold State.eachDom
  by_cases hd : d ∈ s.doms.map Prod.fst
  · refine foldl_once (P := fun t : State => workOf (t.dom d) = workOf (s.dom d) ∧ t.tik = s.tik)
      (Q := fun t : State => (t.dom d).queue.compl = (s.dom d).queue.compl ++ ((reservedEnded (workOf (s.dom d))).1.map (slabWords s.tik.tick)).flatten)
      _ (fun t e he ⟨hwork, htik⟩ => ?_) (fun t ⟨hwork, htik⟩ => ?_) (fun t e he ht => ?_) _ s (List.nodup_dedup _) (List.mem_dedup.mpr hd) ⟨rfl, rfl⟩
    · exact ⟨(settleDom_work t he.symm).trans hwork, (settleDom_tik t e).trans htik⟩
    · rw [settleDom_compl, hwork, htik, compl_of_work hwork]
    · exact (compl_of_work (settleDom_work t he.symm)).trans ht
  · have hwork : workOf (((s.doms.map Prod.fst).dedup.foldl (fun t e => t.settleDom e) s).dom d) = workOf (s.dom d) :=
      List.foldlRecOn (motive := fun t : State => workOf (t.dom d) = workOf (s.dom d)) _ _ rfl fun t ht e he =>
        (settleDom_work t fun h : d = e => hd (List.mem_dedup.mp (h ▸ he))).trans ht
    have hnone : (reservedEnded (workOf (s.dom d))).1 = [] := by rw [workOf, dom_eq_default hd]; rfl
    rw [hnone, compl_of_work hwork]
    exact (List.append_nil _).symm

/-! ## The done token (R307, R392) -/

/-- A device that sends its done token has sent it, and keeps the time of the first. -/
theorem sendDone_tik (s : State) (n : Nat) : (s.sendDone n).tik = { s.tik with doneSent := some (s.tik.doneSent.getD n) } := by
  unfold State.sendDone
  cases h : s.tik.doneSent with
  | none =>
    rw [if_neg (by simp)]
    exact (fr_forwardToken (fr_refl _ _) (fun _ h => h)).kept .tik (by decide)
  | some m =>
    rw [if_pos Option.isSome_some, Option.getD_some, ← h]

/-- What flits are sent counts in the first counter of a port, and in no other. -/
theorem counter_transmit (s : State) (p : Nat) (raw : List Byte) {e g i : Nat} (hi : i % 8 ≠ 0) :
    (s.transmit p raw).counter e g i = s.counter e g i := by
  show ((s.putPort p _).bump dev (pFab p) 0 1).counter e g i = _
  rw [counter_bump, if_neg (by unfold counterKey; omega)]
  rfl

theorem counter_pump (s : State) (p : Nat) {e g i : Nat} (hi : i % 8 ≠ 0) : (s.pump p).counter e g i = s.counter e g i := by
  unfold State.pump
  refine foldl_keeps (fun a : State × List (Nat × List Byte) => a.1.counter e g i = s.counter e g i) _ (fun a q ha => ?_) _ rfl
  dsimp only
  split
  · exact ha
  · have hcred : ∀ t : State, t.counter e g i = s.counter e g i → (t.transmit p q.2).counter e g i = s.counter e g i := fun t ht =>
      (counter_transmit t p q.2 hi).trans ht
    have hsent := hcred (if classOf q.1 / 65536 = 3 then a.1 else a.1.updPort p (fun x =>
      { x with credits := mapSet x.credits (classOf q.1) ((mapGet x.credits (classOf q.1)).getD 0 - 1) })) (by split <;> exact ha)
    split
    · exact hsent
    · exact hsent

theorem counter_forwardToken (s : State) {e g i : Nat} (hi : i % 8 ≠ 0) : s.forwardToken.counter e g i = s.counter e g i := by
  unfold State.forwardToken
  split
  · exact counter_pump _ _ hi
  · rfl

theorem counter_sendDone (s : State) (n : Nat) {e g i : Nat} (hi : i % 8 ≠ 0) : (s.sendDone n).counter e g i = s.counter e g i := by
  unfold State.sendDone
  split
  · rfl
  · exact counter_forwardToken _ hi

theorem badStripes_congr {s t : State} (h : t.bas = s.bas) : t.badStripes = s.badStripes := by
  unfold State.badStripes State.copy
  rw [h]

theorem sendDone_frame (s : State) (n : Nat) : Frame [.tik, .fab, .counters, .freeCtr, .out] s (s.sendDone n) :=
  fr_sendDone (fr_refl _ s) n (fun _ h => h)

/-! ## The settle phase begins -/

theorem KeepsWords.chargeDev (s : State) (d : Nat) (e : Rat) : KeepsWords s (s.chargeDev d e) := by
  unfold State.chargeDev
  exact (KeepsWords.of_frame (L := [.pwr, .counters]) (fr_bump (fr_updPwr (fr_refl _ _) _ (by decide)) _ _ _ _ (by decide)) (by decide) (by decide)).trans
    (.updDom _ d _ ⟨rfl, rfl⟩)

/-- The refetch of the settle phase begins with no word written (R242). -/
theorem KeepsWords.refetchBegins (s : State) (n : Nat) : KeepsWords s (s.refetchBegins n) := by
  have hfrom : KeepsWords s (s.updBas (fun b => { b with refetchFrom := n })) := .of_frame (fr_updBas (fr_refl _ s) _ (fun _ h => h)) (by decide) (by decide)
  unfold State.refetchBegins
  dsimp only
  exact .ite hfrom (hfrom.trans (.trans (.foldl _ (fun t (q : Nat × Nat) => .askStripe t q.1 q.2) _ _) (.chargeDev ..)))

/-- The settle work of every domain, with its overrun as a stall of the device (R310). -/
def settled (s : State) (nowNs : Nat) : State :=
  let a := s.atTime nowNs
  let over_ := a.settleNs - 1000 * (a.tik.settleUs - a.tik.gdUs)
  let t := (a.updTik (fun k => { k with settled := true })).eachDom (fun u d => u.settleDom d)
  if over_ = 0 then t else t.deviceStall 4 over_

theorem exec_settleStart {s : State} {nowNs : Nat} (ht : s.tik.ticking = true) (hr : s.tik.runEnded = true) (hs : s.tik.settled = false) :
    exec (.settleStart nowNs) s = .next (if (settled s nowNs).badStripes.isEmpty then (settled s nowNs).sendDone (nowNs + (s.atTime nowNs).settleNs)
      else (settled s nowNs).refetchBegins (nowNs + (s.atTime nowNs).settleNs)) := by
  show execSettleStart nowNs s = _
  simp only [execSettleStart, ht, hr, hs]
  rfl

theorem settled_leaves (s : State) (nowNs : Nat) :
    (settled s nowNs).tik.settled = true ∧ (settled s nowNs).tik.timeNs = max nowNs s.tik.timeNs ∧ (settled s nowNs).bas = s.bas ∧
    ∀ d, ((settled s nowNs).dom d).queue.compl =
      (s.dom d).queue.compl ++ (((s.reserveEnded d).dom d).slabs.map (slabWords s.tik.tick)).flatten := by
  have hbegun : Frame [.fuses, .tik] s ((s.atTime nowNs).updTik (fun k => { k with settled := true })) :=
    fr_updTik (fr_atTime (fr_refl _ s) nowNs (fun _ h => h)) _ (by decide)
  have hdoms := eachDom_settleDom_frame ((s.atTime nowNs).updTik (fun k => { k with settled := true }))
  have htik := hdoms.kept .tik (by decide)
  have hbas : _ = s.bas := (hdoms.kept .bas (by decide)).trans (hbegun.kept .bas (by decide))
  have hwords : ∀ d, ((((s.atTime nowNs).updTik (fun k => { k with settled := true })).eachDom (fun t e => t.settleDom e)).dom d).queue.compl =
      (s.dom d).queue.compl ++ (((s.reserveEnded d).dom d).slabs.map (slabWords s.tik.tick)).flatten := fun d =>
    (eachDom_settleDom_compl _ d).trans (congrArg (fun l => (s.dom d).queue.compl ++ (l.map (slabWords s.tik.tick)).flatten)
      (congrArg Prod.fst (reserveEnded_work s d)).symm)
  unfold settled
  dsimp only
  split
  · exact ⟨congrArg TikState.settled htik, congrArg TikState.timeNs htik, hbas, hwords⟩
  · refine ⟨congrArg TikState.settled htik, congrArg TikState.timeNs htik, hbas, hwords⟩

theorem settleStart_leaves {s : State} {nowNs : Nat} (ht : s.tik.ticking = true) (hr : s.tik.runEnded = true) (hs : s.tik.settled = false) :
    ∃ t, exec (.settleStart nowNs) s = .next t ∧ t.tik.settled = true ∧ t.tik.timeNs = max nowNs s.tik.timeNs ∧
      (∀ d, (t.dom d).queue.compl = (s.dom d).queue.compl ++ (((s.reserveEnded d).dom d).slabs.map (slabWords s.tik.tick)).flatten) ∧
      (s.badStripes = [] → t.tik.doneSent.isSome = true) := by
  obtain ⟨hset, htime, hbas, hwords⟩ := settled_leaves s nowNs
  refine ⟨_, exec_settleStart ht hr hs, ?_⟩
  rw [badStripes_congr hbas]
  split
  · rw [sendDone_tik]
    refine ⟨hset, htime, fun d => ?_, fun _ => rfl⟩
    rw [(sendDone_frame ..).kept .domQueue (by decide) d, hwords]
  · next hbad =>
    have htik := (fr_refetchBegins (fr_refl _ (settled s nowNs)) (nowNs + (s.atTime nowNs).settleNs) (fun _ h => h)).kept .tik (by decide)
    rw [htik]
    refine ⟨hset, htime, fun d => ?_, fun h => absurd (by rw [h]; rfl) hbad⟩
    rw [((KeepsWords.refetchBegins ..).dom d).1, hwords]

/-! ## A stripe that comes back in the settle phase (R242, R314) -/

theorem copy_updCopy_self (s : State) (k : Nat) (f : CopySlot → CopySlot) : (s.updCopy k f).copy k = f (s.copy k) := by
  unfold State.updCopy State.putCopy
  generalize f (s.copy k) = x
  unfold State.copy
  split
  · rfl
  · rfl

theorem copy_updCopy_other (s : State) (k : Fin 2) (f : CopySlot → CopySlot) : (s.updCopy k.val f).copy (1 - k.val) = s.copy (1 - k.val) := by
  fin_cases k
  · rfl
  · rfl

theorem updCopy_refetchFrom (s : State) (k : Nat) (f : CopySlot → CopySlot) : (s.updCopy k f).bas.refetchFrom = s.bas.refetchFrom := by
  unfold State.updCopy State.putCopy
  split
  · rfl
  · rfl

theorem stripe_putStripe (c : CopySlot) (q : Nat) (x : Stripe) (j : Nat) :
    (c.putStripe q x).stripe j = if j = q then x else c.stripe j := by
  unfold CopySlot.stripe CopySlot.putStripe
  rw [mapGet_mapSet]
  split
  · rfl
  · rfl

/-- What a change of one stripe of a copy leaves alone: its image, every other stripe, the other copy, and when the refetch began. -/
structure SameButStripe (k : Fin 2) (q : Nat) (s t : State) : Prop where
  image : (t.copy k.val).image = (s.copy k.val).image
  others : ∀ j, j ≠ q → (t.copy k.val).stripe j = (s.copy k.val).stripe j
  copy : t.copy (1 - k.val) = s.copy (1 - k.val)
  from_ : t.bas.refetchFrom = s.bas.refetchFrom

theorem movePage_leaves (s : State) (k : Fin 2) (q : Nat) : SameButStripe k q s (s.movePage k.val q) := by
  unfold State.movePage
  split
  · exact ⟨rfl, fun _ _ => rfl, rfl, rfl⟩
  · dsimp only
    refine ⟨?_, fun j hj => ?_, ?_, ?_⟩
    · rw [copy_updCopy_self]
      rfl
    · rw [copy_updCopy_self, stripe_putStripe, if_neg hj]
      rfl
    · rw [copy_updCopy_other]
      rfl
    · rw [updCopy_refetchFrom]
      rfl

/-- A stripe that a source has delivered, verified and written back, as the refetch leaves it. -/
structure Refetched (k : Fin 2) (q : Nat) (bytes : List Byte) (s t : State) : Prop where
  frame : Frame [.bas, .counters, .freeCtr] s t
  stripe : ((t.copy k.val).stripe q).state = .resident ∧ ((t.copy k.val).stripe q).asked = false ∧ ((t.copy k.val).stripe q).source = 0
  image : (t.copy k.val).image = memPut (s.copy k.val).image (65536 * q) bytes
  others : ∀ j, j ≠ q → (t.copy k.val).stripe j = (s.copy k.val).stripe j
  copy : t.copy (1 - k.val) = s.copy (1 - k.val)
  from_ : t.bas.refetchFrom = s.bas.refetchFrom
  count : t.counter dev pBas 4 = s.counter dev pBas 4 + 1

theorem refetched_leaves {s : State} {k : Fin 2} {q : Nat} (src : StripeSource) {bytes : List Byte}
    (hbad : ((s.copy k.val).stripe q).state = .bad) (hok : s.digestOk k.val q bytes = true) :
    Refetched k q bytes s (s.refetched k.val q src bytes) := by
  obtain ⟨himage, hothers, hcopy, hfrom⟩ := movePage_leaves s k q
  have hmoved := fr_movePage (fr_refl _ s) k.val q (fun _ h => h)
  have hwritten := fr_writeStripe hmoved k.val q bytes id (by decide)
  have hsrc : counterKey dev pBas 4 ≠ counterKey dev pBas (sourceCounter src) := by
    unfold counterKey
    cases src <;> decide
  unfold State.refetched
  rw [if_neg fun h => h hbad, if_pos hok]
  refine ⟨?_, ?_, ?_, fun j hj => ?_, ?_, ?_, ?_⟩
  · exact fr_bump (fr_bump (fr_mono hwritten (by decide)) _ _ _ _ (by decide)) _ _ _ _ (by decide)
  · rw [bump_copy, bump_copy, State.writeStripe, copy_updCopy_self, stripe_putStripe, if_pos rfl]
    exact ⟨rfl, rfl, rfl⟩
  · rw [bump_copy, bump_copy, State.writeStripe, copy_updCopy_self, ← himage]
    rfl
  · rw [bump_copy, bump_copy, State.writeStripe, copy_updCopy_self, stripe_putStripe, if_neg hj, ← hothers j hj]
    rfl
  · rw [bump_copy, bump_copy, State.writeStripe, copy_updCopy_other, hcopy]
  · rw [← hfrom]
    exact updCopy_refetchFrom ..
  · rw [counter_bump_self, counter_bump, if_neg hsrc]
    exact congrArg (· + 1) (counter_congr (hwritten.kept .counters (by decide)) _ _ _)

/-- After a stripe that has come back nothing more is asked; the refetch may have ended. -/
theorem askNext_of_resident {s t : State} {k : Fin 2} {q : Nat} {bytes : List Byte} (h : Refetched k q bytes s t) (hbad : s.badStripes ≠ []) :
    t.askNext s k.val q = t.refetchEnds := by
  obtain ⟨hstate, hasked, hsource⟩ := h.stripe
  have hserved : t.servedBad k.val q = false := by
    unfold State.servedBad
    rw [hstate]
    simp
  have hb : s.badStripes.isEmpty = false := by simpa using hbad
  unfold State.askNext
  simp [hserved, hsource, hb]

theorem deviceStall_tik (s : State) (code ns : Nat) : (s.deviceStall code ns).tik =
    { s.tik with stallNs := s.tik.stallNs + ns, stallBy := mapSet s.tik.stallBy code ((mapGet s.tik.stallBy code).getD 0 + ns) } := rfl

theorem deviceStall_stretch (s : State) (code ns : Nat) : mapGet (s.deviceStall code ns).stretch (64 * dev + code) =
    some ((mapGet s.stretch (64 * dev + code)).getD 0 + w64 ns) := mapGet_mapSet_self ..

theorem refetchEnds_none {s : State} (h : s.badStripes ≠ [] ∨ s.tik.doneSent.isSome = true) : s.refetchEnds = s := by
  unfold State.refetchEnds
  rw [if_neg]
  rcases h with h | h
  · simp [h]
  · simp [Option.isSome_iff_ne_none.mp h]

theorem refetchEnds_done {s : State} (hb : s.badStripes = []) (hs : s.tik.settled = true) (hd : s.tik.doneSent = none) :
    s.refetchEnds = (s.deviceStall 3 (s.tik.timeNs - s.bas.refetchFrom)).sendDone (max s.tik.timeNs s.bas.refetchFrom) := by
  unfold State.refetchEnds
  rw [if_pos (by simp [hb, hs, hd])]

/-- The end of the refetch is the device's stall and its token; it changes no copy (R242, R307, R314). -/
theorem refetchEnds_leaves (s : State) :
    s.refetchEnds.bas = s.bas ∧ s.refetchEnds.tik.timeNs = s.tik.timeNs ∧ s.refetchEnds.counter dev pBas 4 = s.counter dev pBas 4 := by
  unfold State.refetchEnds
  split
  · rw [sendDone_tik, counter_sendDone _ _ (by decide)]
    exact ⟨(sendDone_frame ..).kept .bas (by decide), rfl, rfl⟩
  · exact ⟨rfl, rfl, rfl⟩

theorem exec_baseRefetchDone {s : State} {copy : Fin 2} {stripe : Nat} (src : StripeSource) (bytes : List Byte) (nowNs : Nat)
    (hb : s.badStripes.contains (copy.val, stripe) = true) (hs : s.tik.settled = true) :
    exec (.baseRefetchDone copy stripe src bytes nowNs) s =
      .next (((s.atTime nowNs).refetched copy.val stripe src bytes).askNext (s.atTime nowNs) copy.val stripe) := by
  show execBaseRefetchDone copy stripe src bytes nowNs s = _
  simp only [execBaseRefetchDone, hb, hs]
  rfl

/-- A refetched stripe that verifies is resident with its bytes, and the tick stretches until none is BAD. -/
theorem baseRefetchDone_leaves {s : State} {copy : Fin 2} {stripe : Nat} (src : StripeSource) {bytes : List Byte} (nowNs : Nat)
    (hbad : ((s.copy copy.val).stripe stripe).state = .bad) (hb : s.badStripes.contains (copy.val, stripe) = true)
    (hs : s.tik.settled = true) (hok : s.digestOk copy.val stripe bytes = true) :
    ∃ t, exec (.baseRefetchDone copy stripe src bytes nowNs) s = .next t ∧ t.tik.timeNs = max nowNs s.tik.timeNs ∧
      ((t.copy copy.val).stripe stripe).state = .resident ∧
      (∀ a, memRead (t.copy copy.val).image a = if 65536 * stripe ≤ a ∧ a < 65536 * stripe + 65536 then bytes.getD (a - 65536 * stripe) 0
        else memRead (s.copy copy.val).image a) ∧
      (∀ j, j ≠ stripe → (t.copy copy.val).stripe j = (s.copy copy.val).stripe j) ∧ t.copy (1 - copy.val) = s.copy (1 - copy.val) ∧
      t.counter dev pBas 4 = s.counter dev pBas 4 + 1 ∧ (t.badStripes = [] → t.tik.doneSent.isSome = true) ∧
      (t.badStripes ≠ [] → t.tik = { s.tik with timeNs := max nowNs s.tik.timeNs } ∧ t.stretch = s.stretch) ∧
      (t.badStripes = [] → s.tik.doneSent = none →
        t.tik.stallNs = s.tik.stallNs + (max nowNs s.tik.timeNs - s.bas.refetchFrom) ∧
        mapGet t.tik.stallBy 3 = some ((mapGet s.tik.stallBy 3).getD 0 + (max nowNs s.tik.timeNs - s.bas.refetchFrom)) ∧
        mapGet t.stretch (64 * dev + 3) = some ((mapGet s.stretch (64 * dev + 3)).getD 0 + w64 (max nowNs s.tik.timeNs - s.bas.refetchFrom))) := by
  have hback : Refetched copy stripe bytes (s.atTime nowNs) ((s.atTime nowNs).refetched copy.val stripe src bytes) := refetched_leaves src hbad hok
  have hne : (s.atTime nowNs).badStripes ≠ [] := fun h => by
    have h : s.badStripes = [] := h
    simp [h] at hb
  have hlen : bytes.length = 65536 := by
    unfold State.digestOk at hok
    simp only [Bool.and_eq_true, beq_iff_eq] at hok
    exact hok.1.2
  have hexec := exec_baseRefetchDone src bytes nowNs hb hs
  rw [askNext_of_resident hback hne] at hexec
  generalize (s.atTime nowNs).refetched copy.val stripe src bytes = u at hback hexec
  obtain ⟨hframe, ⟨hstate, -, -⟩, himage, hothers, hcopy, hfrom, hcount⟩ := hback
  obtain ⟨hbas, htime, hcounter⟩ := refetchEnds_leaves u
  have htik : u.tik = { s.tik with timeNs := max nowNs s.tik.timeNs } := hframe.kept .tik (by decide)
  have hstretch : u.stretch = s.stretch := hframe.kept .stretch (by decide)
  have hcopies : ∀ k, u.refetchEnds.copy k = u.copy k := fun k => by
    unfold State.copy
    rw [hbas]
  have hfrom : u.bas.refetchFrom = s.bas.refetchFrom := hfrom
  have hset : u.tik.settled = true := by rw [htik]; exact hs
  refine ⟨_, hexec, ?_⟩
  simp only [hcopies, badStripes_congr hbas]
  refine ⟨?_, hstate, fun a => ?_, hothers, hcopy, ?_, fun h => ?_, fun h => ?_, fun h hd => ?_⟩
  · rw [htime, htik]
  · rw [himage, memRead_memPut, hlen]
    rfl
  · rw [hcounter, hcount]
    rfl
  · cases hd : u.tik.doneSent with
    | none => rw [refetchEnds_done h hset hd, sendDone_tik]; rfl
    | some m => rw [refetchEnds_none (.inr (by rw [hd]; rfl)), hd]; rfl
  · rw [refetchEnds_none (.inl h)]
    exact ⟨htik, hstretch⟩
  · have hd : u.tik.doneSent = none := by rw [htik]; exact hd
    rw [refetchEnds_done h hset hd, sendDone_tik, (sendDone_frame ..).kept .stretch (by decide), hfrom]
    rw [deviceStall_stretch, hstretch, deviceStall_tik, htik]
    exact ⟨rfl, mapGet_mapSet_self .., rfl⟩

/-- Settles O42: the completion word, the end of the run phase, the settle phase and the refetch, by the lemma of each. -/
theorem runPhaseAndSettle : Obligations.RunPhaseAndSettle := by
  unfold Obligations.RunPhaseAndSettle
  intro s nowNs stripe copy source bytes k time window
  exact ⟨completionWord_eq, runPhaseEnd_leaves, settleStart_leaves, baseRefetchDone_leaves source nowNs⟩

end Sys2Proof.Proofs

/-! What starting a slab leaves of the slabs of every domain (R21, R23, R316, R324): its work changes their status alone. From it the statement on slabs that start and resume. -/

namespace Sys2Proof.Proofs

open Sys2Proof.Machine Sys2Proof.Safety Sys2Proof.Laws

/-! ## Work leaves the slabs (R388) -/

/-- A slab but for its status. -/
def bare (c : Slab) : Slab := { c with status := .done }

/-- The slabs of every domain stand, but for their status. -/
structure KeepsSlabs (s t : State) : Prop where
  slabs : ∀ e, (t.dom e).slabs.map bare = (s.dom e).slabs.map bare

theorem KeepsSlabs.refl (s : State) : KeepsSlabs s s := ⟨fun _ => rfl⟩

theorem KeepsSlabs.trans {s t u : State} (a : KeepsSlabs s t) (b : KeepsSlabs t u) : KeepsSlabs s u :=
  ⟨fun e => (b.slabs e).trans (a.slabs e)⟩

theorem KeepsSlabs.of_frame {L : List Part} {s t : State} (h : Frame L s t) (hL : Part.domSlabs ∉ L) : KeepsSlabs s t :=
  ⟨fun e => congrArg (List.map bare) (slabs_of_frame h hL e)⟩

theorem KeepsSlabs.updDom (s : State) (d : Nat) (f : Dom → Dom) (hf : (f (s.dom d)).slabs.map bare = (s.dom d).slabs.map bare) :
    KeepsSlabs s (s.updDom d f) := ⟨fun e => by
  rw [dom_updDom]
  split
  · next h => subst h; exact hf
  · rfl⟩

theorem KeepsSlabs.ite {s t u : State} {c : Prop} [Decidable c] (ht : KeepsSlabs s t) (hu : KeepsSlabs s u) :
    KeepsSlabs s (if c then t else u) := by
  split
  · exact ht
  · exact hu

/-- A further change that is made in some cases only. -/
theorem KeepsSlabs.then_ite {s t u : State} {c : Prop} [Decidable c] (ht : KeepsSlabs s t) (hu : KeepsSlabs t u) :
    KeepsSlabs s (if c then u else t) := .ite (ht.trans hu) ht

theorem KeepsSlabs.foldl {α : Type} (f : State → α → State) (hf : ∀ t a, KeepsSlabs t (f t a)) (l : List α) (s : State) :
    KeepsSlabs s (l.foldl f s) :=
  foldl_keeps (KeepsSlabs s) f (fun t a h => h.trans (hf t a)) l (.refl s)

theorem KeepsSlabs.noteOperand (s : State) (d first n order : Nat) (key : List W64) (loaded : Bool) :
    KeepsSlabs s (s.noteOperand d first n order key loaded) := .updDom s d _ rfl

theorem KeepsSlabs.bump (s : State) (a b c n : Nat) : KeepsSlabs s (s.bump a b c n) := .of_frame (fr_bump (fr_refl _ s) a b c n (fun _ h => h)) (by decide)

theorem KeepsSlabs.accPutAll (s : State) (l : List (Nat × W32)) : KeepsSlabs s (s.accPutAll l) := ⟨fun _ => rfl⟩

theorem KeepsSlabs.takeStamps (s : State) (d batch : Nat) (gs : List Group) : KeepsSlabs s (s.takeStamps d batch gs) := by
  unfold State.takeStamps
  refine .foldl _ (fun t g => ?_) _ _
  dsimp only
  split
  · exact .refl t
  · split
    · exact .refl t
    · exact .ite (.refl t) (.trans (.of_frame (fr_updSlot (fr_refl _ t) _ _ (fun _ h => h)) (by decide)) (.updDom _ d _ rfl))

theorem KeepsSlabs.st_ite {s : State} {c : Prop} [Decidable c] {r q : RunResult} (hr : KeepsSlabs s r.st) (hq : KeepsSlabs s q.st) :
    KeepsSlabs s (if c then r else q).st := by
  split
  · exact hr
  · exact hq

theorem KeepsSlabs.fst_ite {s : State} {c : Prop} [Decidable c] {r q : State × Status} (hr : KeepsSlabs s r.1) (hq : KeepsSlabs s q.1) :
    KeepsSlabs s (if c then r else q).1 := by
  split
  · exact hr
  · exact hq

/-- A product's operands are noted, its reuses counted and its tiles written. -/
theorem KeepsSlabs.tilesOf {s t : State} (h : KeepsSlabs s t) (d first n order : Nat) (key : List W64) (reuse : List Nat) (l : List (Nat × W32)) :
    KeepsSlabs s ((reuse.foldl (fun u a => u.bump dev (pArg (a / 128)) 2 1) (t.noteOperand d first n order key true)).accPutAll l) :=
  ((h.trans (.noteOperand ..)).trans (.foldl _ (fun _ _ => .bump ..) _ _)).trans (.accPutAll ..)

theorem KeepsSlabs.runBase (s : State) (d : Nat) (ws : List W64) (reuse : List Nat) (sram : Bool) : KeepsSlabs s (s.runBase d ws reuse sram).st := by
  unfold State.runBase
  dsimp only
  split
  · exact .refl s
  split
  · exact .refl s
  next col _ =>
  have hrun : KeepsSlabs s _ := .of_frame (fr_baseCompute (fr_refl _ s) d (hdrOf ws) (baseBody ws) col reuse (fun _ h => h)) (by decide)
  exact .st_ite (.refl s) (.st_ite (.refl s) (.st_ite (.refl s) (.st_ite (hrun.tilesOf ..) (hrun.tilesOf ..))))

theorem KeepsSlabs.wrCommons (s : State) (o : Nat) (bs : List Byte) : KeepsSlabs s (s.wrCommons o bs) := ⟨fun _ => rfl⟩

theorem KeepsSlabs.runVariant (s : State) (d : Nat) (ws : List W64) (sram : Bool) : KeepsSlabs s (s.runVariant d ws sram).st := by
  have hnoted : ∀ batch gs first n order key, KeepsSlabs s ((s.takeStamps d batch gs).noteOperand d first n order key true) :=
    fun batch gs first n order key => (KeepsSlabs.takeStamps ..).trans (.noteOperand ..)
  unfold State.runVariant
  dsimp only
  refine .st_ite (.ite (.accPutAll ..) (.refl s)) (.st_ite (.refl s) (.st_ite (.st_ite ?_ ?_) (.st_ite ?_ ?_)))
  · refine .trans ?_ (.accPutAll ..)
    exact .ite (hnoted ..) ((hnoted ..).trans (.bump ..))
  · refine .trans ?_ (.accPutAll ..)
    exact .ite (hnoted ..) ((hnoted ..).trans (.bump ..))
  · refine .trans (.trans (.trans ?_ (.accPutAll ..)) (.foldl _ (fun _ _ => .wrCommons ..) _ _)) (.accPutAll ..)
    exact .ite (hnoted ..) ((hnoted ..).trans (.bump ..))
  · refine .trans ?_ (.accPutAll ..)
    exact .ite (hnoted ..) ((hnoted ..).trans (.bump ..))

theorem KeepsSlabs.wrSpace (s : State) (d space a : Nat) (bs : List Byte) : KeepsSlabs s (s.wrSpace d space a bs) :=
  .of_frame (fr_wrSpace (fr_refl _ s) d space a bs (fun _ h => h)) (by decide)

theorem KeepsSlabs.convertMat (s : State) (d : Nat) (c : Conv) (o : Opd) (stream : Nat) (shift : Int) (rows cols : Nat) (m : Mat) :
    KeepsSlabs s (s.convertMat d c o stream shift rows cols m).1 :=
  .of_frame (fr_convertMat (fr_refl _ s) d c o stream shift rows cols m (fun _ h => h)) (by decide)

theorem KeepsSlabs.runRoot (s : State) (d : Nat) (ws : List W64) (sram : Bool) : KeepsSlabs s (s.runRoot d ws sram).st := by
  unfold State.runRoot
  dsimp only
  refine .st_ite (.noteOperand ..) (.st_ite ?_ ?_)
  · refine .trans ?_ (.wrSpace ..)
    exact .noteOperand ..
  · refine .trans ?_ (.wrSpace ..)
    refine .ite (.trans ?_ (.convertMat ..)) ?_
    · refine .trans ?_ (.wrSpace ..)
      exact .trans (.noteOperand ..) (.of_frame (fr_takeFree (fr_refl _ _) (fun _ h => h)) (by decide))
    · refine .trans ?_ (.wrSpace ..)
      exact .trans (.noteOperand ..) (.of_frame (fr_takeFree (fr_refl _ _) (fun _ h => h)) (by decide))

theorem KeepsSlabs.runAttention (s : State) (d : Nat) (ws : List W64) (sram : Bool) : KeepsSlabs s (s.runAttention d ws sram).st := by
  unfold State.runAttention
  dsimp only
  refine .st_ite (.refl s) (.st_ite (.refl s) (.st_ite ?_ ?_))
  · exact .trans (.noteOperand ..) (.of_frame (fr_runForward (fr_refl _ _) _ _ _ _ _ (fun _ h => h)) (by decide))
  · exact .trans (.noteOperand ..) (.of_frame (fr_runBackward (fr_refl _ _) _ _ _ _ _ (fun _ h => h)) (by decide))

/-! ## A collective that starts (R377, R388) -/

theorem KeepsSlabs.updOp (s : State) (d : Nat) (id : W32) (f : CollOp → CollOp) : KeepsSlabs s (s.updOp d id f) := .updDom s d _ rfl

theorem KeepsSlabs.opFails (s : State) (d : Nat) (o : CollOp) (st : Status) : KeepsSlabs s (s.opFails d o st) := by
  unfold State.opFails State.updSlab
  refine (KeepsSlabs.updOp ..).trans (.updDom _ d _ ?_)
  show List.map bare (List.map _ _) = _
  rw [List.map_map]
  refine List.map_congr_left fun c _ => ?_
  show bare (if c.order = o.order then _ else c) = _
  split
  · rfl
  · rfl

theorem KeepsSlabs.takeAnswer (s : State) (t : Txn) : KeepsSlabs s (s.takeAnswer t) := by
  unfold State.takeAnswer
  dsimp only
  split
  · exact .refl s
  split
  · exact .refl s
  · exact .ite ((KeepsSlabs.updOp ..).trans (.bump ..))
      ((((KeepsSlabs.updOp ..).trans (.bump ..)).trans (.opFails ..)).trans (.updDom _ _ _ rfl))

theorem KeepsSlabs.of_forward {s t : State} {origin vc tag : Nat} {dl : Bool} {pl : List Byte} (h : s.forward origin vc tag dl pl = some t) :
    KeepsSlabs s t := .of_frame (fr_forward (fr_refl _ s) h (fun _ h => h)) (by decide)

theorem KeepsSlabs.getD_forward (s : State) (origin vc tag : Nat) (dl : Bool) (pl : List Byte) :
    KeepsSlabs s ((s.forward origin vc tag dl pl).getD s) := by
  cases h : s.forward origin vc tag dl pl with
  | none => exact .refl s
  | some t => exact .of_forward h

theorem KeepsSlabs.answered (s : State) {top : Nat} (ht : top ≠ 0xB) (t : Txn) : KeepsSlabs s (s.answered top t) := by
  unfold State.answered
  rw [if_neg ht]
  exact .takeAnswer ..

/-- A request of a collective, sent or served here; no other answer than a stripe's touches a slab but in its status. -/
theorem KeepsSlabs.sendRequest (s : State) {top : Nat} (ht : top ≠ 0xA) (t : Txn) : KeepsSlabs s (s.sendRequest top t) := by
  have htop : top + 1 ≠ 0xB := fun h => ht (by omega)
  unfold State.sendRequest
  split
  · unfold State.serveAndAnswer
    refine (KeepsSlabs.of_frame (fr_serve (fr_refl _ s) top t [] (fun _ h => h)) (by decide)).trans (.foldl _ (fun u a => ?_) _ _)
    unfold State.sendAnswer
    exact .ite (.answered _ htop _) (.getD_forward ..)
  · split
    · next h => exact .of_forward h
    · exact .answered _ htop _

theorem KeepsSlabs.issue (s : State) (d : Nat) (b : CollBody) {top : Nat} (ht : top ≠ 0xA) (addr nblk : Nat) (slots : List (List Byte)) (at_ : Nat) :
    KeepsSlabs s (s.issue d b top addr nblk slots at_) :=
  (((KeepsSlabs.updOp ..).trans (.updDom _ d _ rfl)).trans (.sendRequest _ ht _)).trans (.bump ..)

theorem KeepsSlabs.issueAll (s : State) (d sub : Nat) (b : CollBody) (data scales : List Byte) : KeepsSlabs s (s.issueAll d sub b data scales) := by
  unfold State.issueAll
  refine .ite (.issue s d b (by decide) ..) (.ite (.foldl _ (fun t i => .issue t d b (by decide) ..) _ _) (.foldl _ (fun t i => ?_) _ _))
  refine .issue t d b ?_ ..
  split
  · decide
  · decide

theorem KeepsSlabs.sendChunk (s : State) (d sub : Nat) (b : CollBody) (o : CollOp) (ring step : Nat) : KeepsSlabs s (s.sendChunk d sub b o ring step) :=
  .of_frame (fr_sendChunk (fr_refl _ s) d sub b o ring step (fun _ h => h)) (by decide)

theorem KeepsSlabs.ringRuns (d sub : Nat) (b : CollBody) (ring n : Nat) (s : State) : KeepsSlabs s (s.ringRuns d sub b ring n) := by
  induction n generalizing s with
  | zero => exact .refl s
  | succ n ih =>
    unfold State.ringRuns
    dsimp only
    split
    · exact .refl s
    refine .ite (.refl s) (.ite (.trans (.then_ite (.updOp ..) (.sendChunk ..)) (ih _)) ?_)
    split
    · exact .refl s
    have htaken : ∀ (e : CollEarly) (c : Prop) [Decidable c] (p k n : Nat), KeepsSlabs s (State.bump (if c then
        s.updDom d (fun x => x.updCol (fun c => { c with early := c.early.erase e })) else
        (s.updDom d (fun x => x.updCol (fun c => { c with early := c.early.erase e }))).oweCredit p k) d pCol 2 n) := fun e c _ p k n =>
      .trans (.ite (.updDom s d _ rfl) (.trans (.updDom s d _ rfl) (.of_frame (fr_oweCredit (fr_refl _ _) p k (fun _ h => h)) (by decide)))) (.bump ..)
    exact .ite (.trans (.trans (htaken ..) (.updOp ..)) (ih _)) (.trans (htaken ..) (.opFails ..))

theorem KeepsSlabs.ringsRun (s : State) (d sub : Nat) (b : CollBody) : KeepsSlabs s (s.ringsRun d sub b) := by
  unfold State.ringsRun
  dsimp only
  have hruns : ∀ n, KeepsSlabs s ((s.ringRuns d sub b 0 n).ringRuns d sub b 1 n) := fun n => (KeepsSlabs.ringRuns ..).trans (.ringRuns ..)
  split
  · exact hruns _
  · exact .then_ite (hruns _) (.updOp ..)

theorem KeepsSlabs.startColl (s : State) (d order : Nat) (ws : List W64) : KeepsSlabs s (s.startColl d order ws).1 := by
  unfold State.startColl
  dsimp only
  refine .fst_ite (.refl s) (.fst_ite (.trans (.updDom s d _ rfl) (.issueAll ..)) (.trans (.ite (.updDom s d _ rfl) ?_) (.ringsRun ..)))
  exact .trans (.updDom s d _ rfl) (.trans (.sendChunk ..) (.sendChunk ..))

/-! ## The work of a slab -/

/-- The work of a slab leaves the slabs of every domain, but for their status. -/
theorem KeepsSlabs.runKind (s : State) (d : Nat) (b : Slab) (sram : Bool) : KeepsSlabs s (s.runKind d b sram).st := by
  unfold State.runKind
  dsimp only
  refine .st_ite (.refl s) ?_
  split
  · exact .runBase ..
  · exact .runVariant ..
  · exact .runAttention ..
  · exact .of_frame (fr_runChain (fr_refl _ s) _ _ _ _ (fun _ h => h)) (by decide)
  · exact .st_ite (.runRoot ..) (.of_frame (fr_runPass (fr_refl _ s) _ _ _ _ (fun _ h => h)) (by decide))
  · exact .startColl ..
  · exact .of_frame (fr_runMigration (fr_refl _ s) _ _ (fun _ h => h)) (by decide)
  · exact .of_frame (fr_runScrub (fr_refl _ s) _ (fun _ h => h)) (by decide)

/-- The state in which a slab's work begins that has not yet met poison in a write of its own (R262). -/
def unpoisoned (s : State) (d : Nat) : State := s.updDom d (fun x => x.updTir (fun t => { t with wrPoison := false }))

theorem runSlab_st (s : State) (d : Nat) (b : Slab) (sram : Bool) :
    (s.runSlab d b sram).st = ((unpoisoned s d).runKind d b sram).st ∨
      (hdrOf b.words).kind ≤ 5 ∧ (s.runSlab d b sram).st = ((unpoisoned s d).runKind d b true).st := by
  unfold State.runSlab unpoisoned
  dsimp only
  split
  · exact .inl rfl
  · by_cases hk : (hdrOf b.words).kind ≤ 5
    · exact .inr ⟨hk, by rw [if_pos hk]⟩
    · exact .inl (by rw [if_neg hk])

theorem KeepsSlabs.runSlab (s : State) (d : Nat) (b : Slab) (sram : Bool) : KeepsSlabs s (s.runSlab d b sram).st := by
  have hbegun : KeepsSlabs s (unpoisoned s d) := .updDom s d _ rfl
  rcases runSlab_st s d b sram with h | ⟨-, h⟩
  · rw [h]
    exact hbegun.trans (.runKind ..)
  · rw [h]
    exact hbegun.trans (.runKind ..)

/-! ## The charge (R324, R481) -/

theorem chargeSlab_pwr (s : State) (d : Nat) (b : Slab) : (s.chargeSlab d b).pwr = { s.pwr with tickEnergy := s.pwr.tickEnergy + b.energy } := by
  unfold State.chargeSlab
  dsimp only
  split
  · rfl
  · rfl

theorem chargeSlab_frame (s : State) (d : Nat) (b : Slab) : Frame [.pwr, .counters, .domSched] s (s.chargeSlab d b) :=
  fr_chargeSlab (fr_refl _ s) d b (fun _ h => h)

theorem StaysIn.chargeSlab (s : State) (d : Nat) (b : Slab) : StaysIn d s (s.chargeSlab d b) := by
  have hpwr : StaysIn d s (s.updPwr (fun p => { p with tickEnergy := p.tickEnergy + b.energy })) :=
    .of_frame d (fr_updPwr (fr_refl _ s) _ (fun _ h => h)) (by decide)
  unfold State.chargeSlab
  exact .ite hpwr (((hpwr.trans (.bump ..)).trans (.bump ..)).trans (.updDom ..))

theorem countStart_frame (s : State) (ws : List W64) : Frame [.counters] s (s.countStart ws) := fr_countStart (fr_refl _ s) ws (fun _ h => h)

theorem collDue_frame (s : State) (d : Nat) (b : Slab) : Frame [.domCol] s (s.collDue d b) := fr_collDue (fr_refl _ s) d b (fun _ h => h)

theorem StaysIn.collDue (s : State) (d : Nat) (b : Slab) : StaysIn d s (s.collDue d b) := by
  unfold State.collDue State.updOp
  exact .ite (.updDom ..) (.refl d s)

section Start

variable {s : State} {d : Fin 64} {tag : W32} {b : Slab} {nowNs : Nat} {errors : List ReadError}

/-! ## A paused slab goes on (R325) -/

theorem exec_slabStart_paused (hb : (s.dom d.val).slabOf tag = some b) (hm : (s.atTime nowNs).mayStart d.val b ((s.atTime nowNs).planOff nowNs) = true)
    (hst : b.state = .paused) :
    exec (.slabStart d (.user tag) nowNs errors) s = .next ((s.atTime nowNs).resumeSlab d.val b ((s.atTime nowNs).planOff nowNs) nowNs) := by
  show execSlabStart d (.user tag) nowNs errors s = _
  simp only [execSlabStart, atTime_dom, hb, hm, hst]
  rfl

theorem resumeSlab_leaves (s : State) (n : Nat) (b : Slab) (off : Rat) (nowNs : Nat) :
    StaysIn n s (s.resumeSlab n b off nowNs) ∧ (s.resumeSlab n b off nowNs).pwr = { s.pwr with tickEnergy := s.pwr.tickEnergy + b.energy } ∧
    ((s.resumeSlab n b off nowNs).dom n).slabs = slabsWith (s.dom n).slabs b.order (fun c =>
      { c with state := .running, startOff := off, stalledNs := 0, busyFrom := max c.busyFrom nowNs }) := by
  have hbusy := fr_countBusy (fr_refl _ s) n nowNs b (fun _ h => h)
  have hdue := collDue_frame ((((s.countBusy n nowNs b).updSlab n b.order (fun c =>
    { c with state := .running, startOff := off, stalledNs := 0 })).chargeSlab n b).countStart b.words) n b
  have hcount := countStart_frame (((s.countBusy n nowNs b).updSlab n b.order (fun c =>
    { c with state := .running, startOff := off, stalledNs := 0 })).chargeSlab n b) b.words
  unfold State.resumeSlab
  refine ⟨?_, ?_, ?_⟩
  · exact ((((StaysIn.countBusy ..).trans (.updSlab ..)).trans (.chargeSlab ..)).trans (.of_frame n hcount (by decide))).trans (.collDue ..)
  · rw [hdue.kept .pwr (by decide), hcount.kept .pwr (by decide), chargeSlab_pwr]
    show { (s.countBusy n nowNs b).pwr with tickEnergy := (s.countBusy n nowNs b).pwr.tickEnergy + b.energy } = _
    rw [hbusy.kept .pwr (by decide)]
  · rw [slabs_of_frame hdue (by decide), slabs_of_frame hcount (by decide), slabs_of_frame (chargeSlab_frame ..) (by decide), updSlab_slabs,
      countBusy_slabs, slabsWith_slabsWith]
    exact fun _ => rfl

theorem slabStart_paused (hb : (s.dom d.val).slabOf tag = some b) (hm : (s.atTime nowNs).mayStart d.val b ((s.atTime nowNs).planOff nowNs) = true)
    (hst : b.state = .paused) :
    ∃ t, exec (.slabStart d (.user tag) nowNs errors) s = .next t ∧ OnlyDom s t d.val ∧
      t.pwr = { s.pwr with tickEnergy := s.pwr.tickEnergy + b.energy } ∧
      Frame [.fuses, .tik, .pwr, .counters, .domSlabs, .domSched, .domCol] s t ∧
      (t.dom d.val).slabs = slabsWith (s.dom d.val).slabs b.order (fun c =>
        { c with state := .running, startOff := (s.atTime nowNs).planOff nowNs, stalledNs := 0, busyFrom := max c.busyFrom nowNs }) := by
  obtain ⟨hstays, hpwr, hslabs⟩ := resumeSlab_leaves (s.atTime nowNs) d.val b ((s.atTime nowNs).planOff nowNs) nowNs
  exact ⟨_, exec_slabStart_paused hb hm hst, ((StaysIn.atTime _ s nowNs).trans hstays).only, hpwr,
    fr_resumeSlab (fr_atTime (fr_refl _ s) nowNs (by decide)) _ _ _ _ (by decide), hslabs⟩

/-! ## A slab whose predecessor failed (R25) -/

theorem exec_slabStart_depFailed (hb : (s.dom d.val).slabOf tag = some b)
    (hm : (s.atTime nowNs).mayStart d.val b ((s.atTime nowNs).planOff nowNs) = true) (hst : b.state = .planned) (hdep : b.dep = .failed) :
    exec (.slabStart d (.user tag) nowNs errors) s = .next ((s.atTime nowNs).endIdle d.val b .depFailed) := by
  show execSlabStart d (.user tag) nowNs errors s = _
  simp only [execSlabStart, atTime_dom, hb, hm, hst, hdep]
  rfl

theorem noteUnloaded_slabs (s : State) (d o : Nat) (ws : List W64) (e : Nat) : ((s.noteUnloaded d o ws).dom e).slabs = (s.dom e).slabs := by
  unfold State.noteUnloaded
  dsimp only
  split
  · rw [State.noteOperand, dom_updDom]
    split
    · next h => subst h; rfl
    · rfl
  · rfl

theorem endStep_slabs (s : State) (d : Nat) (ws : List W64) (e : Nat) : ((s.endStep d ws).dom e).slabs = (s.dom e).slabs := by
  unfold State.endStep
  dsimp only
  split
  · exact closeStep_slabs s d e
  · rfl

/-- A slab that ends without having run ends with its status, its dependents with it (R25). -/
theorem endIdle_slabs (s : State) (d : Nat) (b : Slab) (st : Status) :
    ((s.endIdle d b st).dom d).slabs = slabsEnded (s.dom d).slabs b st s.tik.tick := by
  have htik : ∀ t : State, (t.noteUnloaded d b.order b.words).tik = t.tik := fun t =>
    (fr_noteUnloaded (fr_refl _ t) d b.order b.words (fun _ h => h)).kept .tik (by decide)
  have hstep : (s.endStep d b.words).tik = s.tik := (fr_endStep (fr_refl _ s) d b.words (fun _ h => h)).kept .tik (by decide)
  unfold State.endIdle
  dsimp only
  rw [endSlab_slabs, noteUnloaded_slabs, htik]
  split
  · rfl
  · rw [endStep_slabs, hstep]

theorem StaysIn.endIdle (s : State) (d : Nat) (b : Slab) (st : Status) : StaysIn d s (s.endIdle d b st) := by
  unfold State.endIdle State.noteUnloaded
  exact ((StaysIn.ite (.refl d s) (.endStep ..)).trans (.ite (.updDom ..) (.refl d _))).trans (.endSlab ..)

theorem slabStart_depFailed (hb : (s.dom d.val).slabOf tag = some b)
    (hm : (s.atTime nowNs).mayStart d.val b ((s.atTime nowNs).planOff nowNs) = true) (hst : b.state = .planned) (hdep : b.dep = .failed) :
    ∃ t, exec (.slabStart d (.user tag) nowNs errors) s = .next t ∧ OnlyDom s t d.val ∧
      Frame (withEvents [.fuses, .pci, .tik, .domQueue, .domSlabs, .domVec, .domUpd]) s t ∧
      (t.dom d.val).slabs = slabsEnded (s.dom d.val).slabs b .depFailed s.tik.tick :=
  ⟨_, exec_slabStart_depFailed hb hm hst hdep, ((StaysIn.atTime _ s nowNs).trans (.endIdle ..)).only,
    fr_endIdle (fr_atTime (fr_refl _ s) nowNs (by decide)) _ _ _ (by decide), endIdle_slabs ..⟩

end Start

/-! ## A planned slab starts (R316, R324) -/

/-- A slab that has started, as its work finds it. -/
def startedSlab (s : State) (b : Slab) (off : Rat) (nowNs : Nat) (sram : Bool) : Slab :=
  { b with state := .running, startOff := off, stalledNs := 0, recipe := s.recipe, sram := sram, deferFrom := none,
           demDue := if b.demand = [] then 0 else nowNs + b.demNs.floor.toNat, busyFrom := nowNs, creditReturned := true }

/-- The state in which the work of a slab that starts finds it running. -/
def startedState (s : State) (n : Nat) (b : Slab) (off : Rat) (nowNs : Nat) (errors : List ReadError) : State :=
  (workBegins s n b nowNs errors).1.updSlab n b.order (fun _ => startedSlab s b off nowNs (workBegins s n b nowNs errors).2)

/-- A slab of a submission number that ended at once, its check failed or its predecessor. -/
def endedAtOnce (s : State) (n order : Nat) : Bool :=
  ((s.dom n).slabs.find? (fun c => c.order == order)).any (fun c => c.state == .ended && (c.status == .descInvalid || c.status == .depFailed))

/-- A batch with a slab that has started. -/
def begunBatch (id : Nat) (y : Batch) : Batch := if y.id = id then { y with started := true, unopened := false } else y

/-- The charge of a start, the batch, and the peers of a fetch that read poison with it (R23, R241, R324). -/
def chargedStart (s : State) (n : Nat) (b : Slab) (errors : List ReadError) : State :=
  ((((s.chargeSlab n b).countStart b.words).updDom n (fun x => { x with batches := x.batches.map (begunBatch (hdrOf b.words).batch) })).poisonPeers n b
    (poisonedBy errors)).collDue n b

theorem startSlab_eq (s : State) (n : Nat) (b : Slab) (off : Rat) (nowNs : Nat) (errors : List ReadError) :
    s.startSlab n b off nowNs errors =
      let run := startedSlab s b off nowNs (workBegins s n b nowNs errors).2
      let u := startedState s n b off nowNs errors
      let t := if b.waitsPages then u else u.computeSlab n run
      if endedAtOnce t n b.order then t else chargedStart t n run errors := by
  have hrestore : (b.replay = true ∧ (!b.restore.isEmpty) = true) = (b.replay = true ∧ b.restore ≠ []) := by simp
  have hdemand : (b.demand.isEmpty = true) = (b.demand = []) := by simp
  unfold startedState startedSlab workBegins State.startSlab
  simp only [hrestore, hdemand]
  rfl

/-! ## What stands when its work begins -/

theorem workBegins_frame (s : State) (n : Nat) (b : Slab) (nowNs : Nat) (errors : List ReadError) :
    Frame (withEvents [.stretch, .acc, .bas, .mbds, .units, .commonsPoison, .domPoison]) (s.creditSlab n b) (workBegins s n b nowNs errors).1 := by
  unfold workBegins
  dsimp only
  refine fr_meetErrors ?_ n errors (by decide)
  have hlate : ∀ c : Prop, [Decidable c] → ∀ k, Frame (withEvents [.stretch, .acc, .bas, .mbds, .units, .commonsPoison, .domPoison]) (s.creditSlab n b)
      (if c then s.creditSlab n b else (s.creditSlab n b).addStretch n 0x14 k) := fun c _ k => by
    split
    · exact fr_refl _ _
    · exact fr_addStretch (fr_refl _ _) _ _ _ (by decide)
  split
  · exact fr_accPutAll (hlate _ _) _ (by decide)
  · exact hlate _ _

/-- A slab that starts is the one of its submission number, and it runs; the others stand. -/
theorem startedState_slabs (s : State) (n : Nat) (b : Slab) (off : Rat) (nowNs : Nat) (errors : List ReadError) :
    ((startedState s n b off nowNs errors).dom n).slabs =
      slabsWith (s.dom n).slabs b.order (fun _ => startedSlab s b off nowNs (workBegins s n b nowNs errors).2) := by
  unfold startedState
  rw [updSlab_slabs, slabs_of_frame (workBegins_frame ..) (by decide), creditSlab_slabs, slabsWith_slabsWith]
  exact fun _ => rfl

theorem startedState_pwr (s : State) (n : Nat) (b : Slab) (off : Rat) (nowNs : Nat) (errors : List ReadError) :
    (startedState s n b off nowNs errors).pwr = s.pwr :=
  ((workBegins_frame ..).kept .pwr (by decide)).trans ((fr_creditSlab (fr_refl _ s) n b (fun _ h => h)).kept .pwr (by decide))

/-! ## Slabs of one submission number -/

/-- The slabs of a domain with a submission number have a property. -/
def AllOf (P : Slab → Prop) (n o : Nat) (s : State) : Prop := ∀ c ∈ (s.dom n).slabs, c.order = o → P c

theorem AllOf.of_slabs {P : Slab → Prop} {n o : Nat} {s t : State} (h : AllOf P n o s) (ht : (t.dom n).slabs = (s.dom n).slabs) : AllOf P n o t :=
  fun c hc ho => h c (ht ▸ hc) ho

theorem AllOf.updSlab {P : Slab → Prop} {n o : Nat} {s : State} (h : AllOf P n o s) (e k : Nat) (f : Slab → Slab) (hord : ∀ c, (f c).order = c.order)
    (hf : e = n → k = o → ∀ c, P c → P (f c)) : AllOf P n o (s.updSlab e k f) := by
  intro c hc ho
  by_cases he : n = e
  · subst he
    rw [updSlab_slabs] at hc
    obtain ⟨x, hx, hxc⟩ := List.mem_map.mp hc
    by_cases hk : x.order = k
    · rw [if_pos hk] at hxc
      subst hxc
      rw [hord] at ho
      exact hf rfl (hk.symm.trans ho) x (h x hx ho)
    · rw [if_neg hk] at hxc
      subst hxc
      exact h x hx ho
  · rw [State.updSlab, dom_updDom_ne _ _ _ _ he] at hc
    exact h c hc ho

/-- What is planned again behind a withheld slab has not started (R74). -/
theorem AllOf.deferFor {P : Slab → Prop} {n o : Nat} {s : State} (h : AllOf P n o s) (hP : ∀ c, P c → c.state ≠ .planned ∧ c.state ≠ .queued)
    (e : Nat) (w : Slab) : AllOf P n o (s.deferFor e w) := by
  intro c hc ho
  unfold State.deferFor at hc
  dsimp only at hc
  by_cases he : n = e
  · subst he
    rw [dom_updDom_self] at hc
    obtain ⟨x, hx, hxc⟩ := List.mem_map.mp hc
    have hxo : x.order = o := by
      rw [← ho, ← hxc]
      split
      · split <;> rfl
      · rfl
    obtain ⟨hplanned, hqueued⟩ := hP x (h x hx hxo)
    have hsame : x = c := by
      rw [← hxc]
      split
      · split
        · next hst => exact absurd hst hplanned
        · next hst _ => exact absurd hst hqueued
        · rfl
      · rfl
    exact hsame ▸ h x hx hxo
  · rw [dom_updDom_ne _ _ _ _ he] at hc
    exact h c hc ho

/-- Of the peers of a shared fetch only running slabs read its poison (R241). -/
theorem AllOf.poisonPeers {P : Slab → Prop} {n o : Nat} {s : State} (h : AllOf P n o s) (hP : ∀ c, P c → c.state ≠ .planned ∧ c.state ≠ .queued)
    (hrun : ∀ c x, P c → P x → x.state = .running → ∀ st k, P { c with status := st, poisonTick := k }) (d : Nat) (b : Slab) (l : List (Nat × Nat)) :
    AllOf P n o (s.poisonPeers d b l) := by
  unfold State.poisonPeers
  split
  · exact h
  refine foldl_keeps (AllOf P n o) _ (fun t e ht => ?_) _ h
  refine List.foldlRecOn (motive := AllOf P n o) _ _ ht fun u hu x hx => ?_
  unfold State.poisonPeer
  dsimp only
  split
  · exact hu
  next hcond =>
  have hxrun : x.state = .running := by
    simp only [Bool.or_eq_true, bne_iff_ne, not_or, ne_eq, not_not] at hcond
    exact hcond.1.1
  split
  · exact hu
  split
  · exact hu
  split
  · have htiles : AllOf P n o (u.withholdTiles x.words) :=
      hu.of_slabs (slabs_of_frame (fr_withholdTiles (fr_refl _ u) x.words (fun _ h => h)) (by decide) n)
    refine AllOf.deferFor (AllOf.updSlab htiles e x.order _ ?_ fun hen hxo c hc => ?_) hP e x
    · exact fun _ => rfl
    · subst hen
      exact hrun c x hc (ht x hx hxo) hxrun _ _
  · exact hu

/-! ## The charge of a start -/

/-- What a slab's work has left in the memories stands: of every domain and of the commons, the operand buffers and the slots. -/
structure WorkStands (s t : State) : Prop where
  dom : ∀ e, (t.dom e).mem = (s.dom e).mem ∧ (t.dom e).poison = (s.dom e).poison ∧ (t.dom e).tir = (s.dom e).tir
  device : t.commons = s.commons ∧ t.opbuf = s.opbuf ∧ t.slots = s.slots

theorem WorkStands.refl (s : State) : WorkStands s s := ⟨fun _ => ⟨rfl, rfl, rfl⟩, rfl, rfl, rfl⟩

theorem WorkStands.trans {s t u : State} (a : WorkStands s t) (b : WorkStands t u) : WorkStands s u :=
  ⟨fun e => ⟨(b.dom e).1.trans (a.dom e).1, (b.dom e).2.1.trans (a.dom e).2.1, (b.dom e).2.2.trans (a.dom e).2.2⟩,
    b.device.1.trans a.device.1, b.device.2.1.trans a.device.2.1, b.device.2.2.trans a.device.2.2⟩

theorem WorkStands.updDom (s : State) (d : Nat) (f : Dom → Dom)
    (hf : (f (s.dom d)).mem = (s.dom d).mem ∧ (f (s.dom d)).poison = (s.dom d).poison ∧ (f (s.dom d)).tir = (s.dom d).tir) :
    WorkStands s (s.updDom d f) := ⟨fun e => by
  rw [dom_updDom]
  split
  · next h => subst h; exact hf
  · exact ⟨rfl, rfl, rfl⟩, rfl, rfl, rfl⟩

theorem WorkStands.ite {s t u : State} {c : Prop} [Decidable c] (ht : WorkStands s t) (hu : WorkStands s u) : WorkStands s (if c then t else u) := by
  split
  · exact ht
  · exact hu

theorem WorkStands.foldl {α : Type} (f : State → α → State) (hf : ∀ t a, WorkStands t (f t a)) (l : List α) (s : State) :
    WorkStands s (l.foldl f s) :=
  foldl_keeps (WorkStands s) f (fun t a h => h.trans (hf t a)) l (.refl s)

theorem WorkStands.bump (s : State) (a b c n : Nat) : WorkStands s (s.bump a b c n) := ⟨fun _ => ⟨rfl, rfl, rfl⟩, rfl, rfl, rfl⟩

theorem WorkStands.updSlab (s : State) (d o : Nat) (f : Slab → Slab) : WorkStands s (s.updSlab d o f) := .updDom s d _ ⟨rfl, rfl, rfl⟩

theorem WorkStands.deferFor (s : State) (d : Nat) (w : Slab) : WorkStands s (s.deferFor d w) := by
  unfold State.deferFor
  exact .updDom s d _ ⟨rfl, rfl, rfl⟩

theorem WorkStands.accPutAll (s : State) (l : List (Nat × W32)) : WorkStands s (s.accPutAll l) := ⟨fun _ => ⟨rfl, rfl, rfl⟩, rfl, rfl, rfl⟩

theorem WorkStands.chargeSlab (s : State) (d : Nat) (b : Slab) : WorkStands s (s.chargeSlab d b) := by
  have hpwr : WorkStands s (s.updPwr (fun p => { p with tickEnergy := p.tickEnergy + b.energy })) := ⟨fun _ => ⟨rfl, rfl, rfl⟩, rfl, rfl, rfl⟩
  unfold State.chargeSlab
  exact .ite hpwr (((hpwr.trans (.bump ..)).trans (.bump ..)).trans (.updDom _ d _ ⟨rfl, rfl, rfl⟩))

theorem WorkStands.poisonPeer (s : State) (d from_ : Nat) (blocks : List (Nat × Nat)) (b : Slab) : WorkStands s (s.poisonPeer d from_ blocks b) := by
  have htiles : WorkStands s (s.withholdTiles b.words) := by
    unfold State.withholdTiles
    exact .ite (.accPutAll ..) (.ite (.accPutAll ..) (.refl s))
  unfold State.poisonPeer
  dsimp only
  split
  · exact .refl s
  split
  · exact .refl s
  split
  · exact .refl s
  · exact .ite ((htiles.trans (.updSlab ..)).trans (.deferFor ..)) (.refl s)

theorem WorkStands.poisonPeers (s : State) (d : Nat) (b : Slab) (l : List (Nat × Nat)) : WorkStands s (s.poisonPeers d b l) := by
  unfold State.poisonPeers
  exact .ite (.refl s) (.foldl _ (fun _ e => .foldl _ (fun u c => .poisonPeer u e d l c) _ _) _ _)

theorem WorkStands.collDue (s : State) (d : Nat) (b : Slab) : WorkStands s (s.collDue d b) := by
  unfold State.collDue State.updOp
  exact .ite (.updDom s d _ ⟨rfl, rfl, rfl⟩) (.refl s)

theorem WorkStands.chargedStart (s : State) (n : Nat) (b : Slab) (errors : List ReadError) : WorkStands s (chargedStart s n b errors) := by
  unfold Proofs.chargedStart State.countStart
  exact ((((WorkStands.chargeSlab ..).trans (.foldl _ (fun _ _ => .bump ..) _ _)).trans (.updDom _ n _ ⟨rfl, rfl, rfl⟩)).trans
    (.poisonPeers ..)).trans (.collDue ..)

theorem chargedStart_pwr (s : State) (n : Nat) (b : Slab) (errors : List ReadError) :
    (chargedStart s n b errors).pwr = { s.pwr with tickEnergy := s.pwr.tickEnergy + b.energy } := by
  unfold chargedStart
  rw [(collDue_frame ..).kept .pwr (by decide), (fr_poisonPeers (fr_refl _ _) n b (poisonedBy errors) (fun _ h => h)).kept .pwr (by decide)]
  exact ((countStart_frame ..).kept .pwr (by decide)).trans (chargeSlab_pwr ..)

theorem chargedStart_acc (s : State) (n : Nat) {b : Slab} (hb : b.sharedWith = []) (errors : List ReadError) :
    (chargedStart s n b errors).acc = s.acc := by
  unfold chargedStart
  rw [(collDue_frame ..).kept .acc (by decide)]
  have hpeers : ∀ t : State, t.poisonPeers n b (poisonedBy errors) = t := fun t => by
    unfold State.poisonPeers
    rw [hb]
    split <;> rfl
  rw [hpeers]
  exact ((countStart_frame ..).kept .acc (by decide)).trans ((chargeSlab_frame ..).kept .acc (by decide))

theorem AllOf.chargedStart {P : Slab → Prop} {n o : Nat} {s : State} (h : AllOf P n o s) (hP : ∀ c, P c → c.state ≠ .planned ∧ c.state ≠ .queued)
    (hrun : ∀ c x, P c → P x → x.state = .running → ∀ st k, P { c with status := st, poisonTick := k }) (b : Slab) (errors : List ReadError) :
    AllOf P n o (chargedStart s n b errors) := by
  unfold Proofs.chargedStart
  refine AllOf.of_slabs (AllOf.poisonPeers (h.of_slabs ?_) hP hrun n b _) (collDue_slabs ..)
  rw [dom_updDom_self]
  exact (slabs_of_frame (countStart_frame ..) (by decide) n).trans (slabs_of_frame (chargeSlab_frame ..) (by decide) n)

theorem poisonPeer_batches (s : State) (d from_ : Nat) (blocks : List (Nat × Nat)) (b : Slab) (e : Nat) :
    ((s.poisonPeer d from_ blocks b).dom e).batches = (s.dom e).batches := by
  have hupd : ∀ (t : State) (f : Dom → Dom), (∀ x, (f x).batches = x.batches) → ((t.updDom d f).dom e).batches = (t.dom e).batches := fun t f hf => by
    rw [dom_updDom]
    split
    · next h => subst h; exact hf _
    · rfl
  have htiles : ((s.withholdTiles b.words).dom e).batches = (s.dom e).batches :=
    ((fr_withholdTiles (fr_refl _ s) b.words (fun _ h => h)).kept .domSlabs (by decide) e).2.2.2.2.1
  unfold State.poisonPeer
  dsimp only
  split
  · rfl
  split
  · rfl
  split
  · rfl
  split
  · rw [State.deferFor, hupd, State.updSlab, hupd]
    · exact htiles
    · exact fun _ => rfl
    · exact fun _ => rfl
  · rfl

/-- The batch of a slab that has started counts as opened (R23). -/
theorem chargedStart_batches (s : State) (n : Nat) (b : Slab) (errors : List ReadError) :
    ∀ y ∈ ((chargedStart s n b errors).dom n).batches, y.id = (hdrOf b.words).batch → y.started = true ∧ y.unopened = false := by
  intro y hy hid
  obtain ⟨-, -, -, -, hdue, -⟩ := (collDue_frame ((((s.chargeSlab n b).countStart b.words).updDom n (fun x =>
    { x with batches := x.batches.map (begunBatch (hdrOf b.words).batch) })).poisonPeers n b (poisonedBy errors)) n b).kept .domSlabs (by decide) n
  have hpeers : ∀ t : State, ((t.poisonPeers n b (poisonedBy errors)).dom n).batches = (t.dom n).batches := fun t => by
    unfold State.poisonPeers
    split
    · rfl
    · exact foldl_keeps (fun u : State => (u.dom n).batches = (t.dom n).batches) _ (fun u e hu =>
        foldl_keeps (fun v : State => (v.dom n).batches = (t.dom n).batches) _ (fun v c hv => (poisonPeer_batches ..).trans hv) _ hu) _ rfl
  unfold chargedStart at hy
  rw [hdue, hpeers, dom_updDom_self] at hy
  obtain ⟨z, -, rfl⟩ := List.mem_map.mp hy
  unfold begunBatch at hid ⊢
  split at hid
  · next h => rw [if_pos h]; exact ⟨rfl, rfl⟩
  · next h => exact absurd hid h

/-! ## The work at its start (R23, R316) -/

theorem endedAtOnce_false {s : State} {n o : Nat} (h : AllOf (fun c => c.state = .running) n o s) : endedAtOnce s n o = false := by
  unfold endedAtOnce
  cases hf : (s.dom n).slabs.find? (fun c => c.order == o) with
  | none => rfl
  | some c =>
    have hrun := h c (List.mem_of_find?_eq_some hf) (by simpa using List.find?_some hf)
    simp [hrun]

theorem endedAtOnce_of_ended {s : State} {n o : Nat} {st : Status} (h : AllOf (fun c => c.state = .ended ∧ c.status = st) n o s)
    (hex : ∃ c ∈ (s.dom n).slabs, c.order = o) : endedAtOnce s n o = (st == .descInvalid || st == .depFailed) := by
  obtain ⟨c, hc, ho⟩ := hex
  unfold endedAtOnce
  cases hf : (s.dom n).slabs.find? (fun c => c.order == o) with
  | none => exact absurd (by simpa using ho) (List.find?_eq_none.mp hf c hc)
  | some c =>
    obtain ⟨hst, hstatus⟩ := h c (List.mem_of_find?_eq_some hf) (by simpa using List.find?_some hf)
    simp [hst, hstatus]

/-- What the work of a slab that computes leaves (R21, R76, R296). -/
def ranState (s : State) (n : Nat) (b : Slab) (w : Withheld) (fails : List EndEffect) : State :=
  let r := s.runSlab n b b.sram
  let t := r.st.updSlab n b.order (fun c => c.ranAs r w fails s.replayFrom)
  if r.status = .sharedPoison then t.deferFor n b else t

theorem computeSlab_works {s : State} {n : Nat} {b : Slab} (h : (s.runSlab n b b.sram).status.noWork = false) :
    ∃ w fails, s.computeSlab n b = ranState s n b w fails := by
  unfold State.computeSlab
  dsimp only
  rw [if_neg (by simp [h])]
  by_cases hd : b.demand.isEmpty = true
  · exact ⟨{}, [], by simp only [if_pos hd]; rfl⟩
  · exact ⟨withheldFrom n b.words (s.runSlab n b b.sram).st (s.runSlab n b true).st, (s.runSlab n b true).effects, by
      simp only [if_neg hd]; rfl⟩

theorem computeSlab_idle {s : State} {n : Nat} {b : Slab} (h : (s.runSlab n b b.sram).status.noWork = true) :
    s.computeSlab n b = (if (s.runSlab n b b.sram).status = .descInvalid then (s.runSlab n b b.sram).st.unopen n b.words
      else (s.runSlab n b b.sram).st).endIdle n b (s.runSlab n b b.sram).status := by
  unfold State.computeSlab
  dsimp only
  rw [if_pos h]

theorem WorkStands.ranState (s : State) (n : Nat) (b : Slab) (w : Withheld) (fails : List EndEffect) :
    WorkStands (s.runSlab n b b.sram).st (ranState s n b w fails) := by
  unfold Proofs.ranState
  exact .ite ((WorkStands.updSlab ..).trans (.deferFor ..)) (.updSlab ..)

theorem ranState_frame (s : State) (n : Nat) (b : Slab) (w : Withheld) (fails : List EndEffect) :
    Frame [.domSlabs] (s.runSlab n b b.sram).st (ranState s n b w fails) := by
  unfold ranState
  dsimp only
  split
  · exact fr_deferFor (fr_updSlab (fr_refl _ _) _ _ _ (fun _ h => h)) _ _ (fun _ h => h)
  · exact fr_updSlab (fr_refl _ _) _ _ _ (fun _ h => h)

theorem runSlab_pwr (s : State) (n : Nat) (b : Slab) (sram : Bool) : (s.runSlab n b sram).st.pwr = s.pwr :=
  (fr_runSlab (fr_refl _ s) n b sram (fun _ h => h)).kept .pwr (by decide)

/-- A slab whose work leaves the slabs stands as it did, but for its status. -/
theorem KeepsSlabs.allOf {s t : State} (h : KeepsSlabs s t) {P : Slab → Prop} {n o : Nat} (hs : AllOf P n o s) (hP : ∀ c e, bare e = bare c → P e → P c) :
    AllOf P n o t := by
  intro c hc ho
  have hmem : bare c ∈ (s.dom n).slabs.map bare := h.slabs n ▸ List.mem_map_of_mem hc
  obtain ⟨e, he, hbare⟩ := List.mem_map.mp hmem
  exact hP c e hbare (hs e he ((congrArg Slab.order hbare).trans ho))

theorem KeepsSlabs.exists_order {s t : State} (h : KeepsSlabs s t) {n o : Nat} (hs : ∃ c ∈ (s.dom n).slabs, c.order = o) :
    ∃ c ∈ (t.dom n).slabs, c.order = o := by
  obtain ⟨c, hc, ho⟩ := hs
  have hmem : bare c ∈ (t.dom n).slabs.map bare := h.slabs n ▸ List.mem_map_of_mem hc
  obtain ⟨e, he, hbare⟩ := List.mem_map.mp hmem
  exact ⟨e, he, (congrArg Slab.order hbare).trans ho⟩

/-- A slab that computes runs on, its work done and its effects on record. -/
theorem ranState_allOf {s : State} {n : Nat} {b : Slab} (hs : AllOf (fun c => c.state = .running ∧ c.demand = b.demand) n b.order s)
    (w : Withheld) (fails : List EndEffect) :
    AllOf (fun c => c.state = .running ∧ c.ran = true ∧ c.demand = b.demand ∧ c.effects = (s.runSlab n b b.sram).effects) n b.order
      (ranState s n b w fails) := by
  have hkept : AllOf (fun c => c.state = .running ∧ c.demand = b.demand) n b.order (s.runSlab n b b.sram).st :=
    (KeepsSlabs.runSlab s n b b.sram).allOf hs fun c e hbare ⟨hst, hdem⟩ =>
      ⟨(congrArg Slab.state hbare).symm.trans hst, (congrArg Slab.demand hbare).symm.trans hdem⟩
  have hran : AllOf (fun c => c.state = .running ∧ c.ran = true ∧ c.demand = b.demand ∧ c.effects = (s.runSlab n b b.sram).effects) n b.order
      ((s.runSlab n b b.sram).st.updSlab n b.order (fun c => c.ranAs (s.runSlab n b b.sram) w fails s.replayFrom)) := fun c hc ho => by
    rw [updSlab_slabs] at hc
    obtain ⟨e, he, heo, rfl⟩ := mem_slabsWith hc ho
    obtain ⟨hst, hdem⟩ := hkept e he heo
    exact ⟨hst, rfl, hdem, rfl⟩
  unfold ranState
  dsimp only
  split
  · exact hran.deferFor (fun c ⟨hst, _⟩ => by rw [hst]; exact ⟨nofun, nofun⟩) n b
  · exact hran

section Planned

variable {s : State} {d : Fin 64} {tag : W32} {b : Slab} {nowNs : Nat} {errors : List ReadError}

theorem exec_slabStart_planned (hb : (s.dom d.val).slabOf tag = some b)
    (hm : (s.atTime nowNs).mayStart d.val b ((s.atTime nowNs).planOff nowNs) = true) (hst : b.state = .planned) (hdep : b.dep = .met) :
    exec (.slabStart d (.user tag) nowNs errors) s =
      .next ((s.atTime nowNs).startSlab d.val b ((s.atTime nowNs).planOff nowNs) nowNs errors) := by
  show execSlabStart d (.user tag) nowNs errors s = _
  simp only [execSlabStart, atTime_dom, hb, hm, hst, hdep]
  rfl

end Planned

/-- The slab that starts is the only one of its submission number. -/
theorem startedState_allOf (s : State) (n : Nat) (b : Slab) (off : Rat) (nowNs : Nat) (errors : List ReadError) :
    AllOf (fun c => c = startedSlab s b off nowNs (workBegins s n b nowNs errors).2) n b.order (startedState s n b off nowNs errors) := by
  intro c hc ho
  rw [startedState_slabs] at hc
  obtain ⟨-, -, -, h⟩ := mem_slabsWith hc ho
  exact h

theorem AllOf.mono {P Q : Slab → Prop} {n o : Nat} {s : State} (h : AllOf P n o s) (hPQ : ∀ c, P c → Q c) : AllOf Q n o s :=
  fun c hc ho => hPQ c (h c hc ho)

theorem startedState_exists {s : State} {n : Nat} {b : Slab} (hb : b ∈ (s.dom n).slabs) (off : Rat) (nowNs : Nat) (errors : List ReadError) :
    ∃ c ∈ ((startedState s n b off nowNs errors).dom n).slabs, c.order = b.order := by
  rw [startedState_slabs]
  exact ⟨_, List.mem_map.mpr ⟨b, hb, if_pos rfl⟩, rfl⟩

/-- A slab that waits for its demand pages has started and not computed (R296). -/
theorem startSlab_waits (s : State) (n : Nat) {b : Slab} (hw : b.waitsPages = true) (off : Rat) (nowNs : Nat) (errors : List ReadError) :
    (s.startSlab n b off nowNs errors).pwr = { s.pwr with tickEnergy := s.pwr.tickEnergy + b.energy } ∧
    AllOf (fun c => c.state = .running ∧ c.ran = b.ran ∧ c.demand = b.demand) n b.order (s.startSlab n b off nowNs errors) := by
  have hrun := startedState_allOf s n b off nowNs errors
  have hnot := endedAtOnce_false (hrun.mono fun c hc => by rw [hc]; rfl)
  rw [startSlab_eq]
  dsimp only
  rw [if_pos hw, if_neg (by simp [hnot])]
  refine ⟨?_, AllOf.chargedStart (hrun.mono fun c hc => ?_) (fun c ⟨hst, _⟩ => ?_) (fun c x hc _ _ st k => hc) _ _⟩
  · rw [chargedStart_pwr, startedState_pwr]
    rfl
  · rw [hc]
    exact ⟨rfl, rfl, rfl⟩
  · rw [hst]
    exact ⟨nofun, nofun⟩

/-- A slab whose work finds what it needs has computed and runs on. -/
theorem startSlab_works (s : State) (n : Nat) {b : Slab} (hw : b.waitsPages = false) (off : Rat) (nowNs : Nat) (errors : List ReadError)
    {run : Slab} {u : State} (hrun : run = startedSlab s b off nowNs (workBegins s n b nowNs errors).2)
    (hu : u = startedState s n b off nowNs errors) (hno : (u.runSlab n run run.sram).status.noWork = false) :
    (s.startSlab n b off nowNs errors).pwr = { s.pwr with tickEnergy := s.pwr.tickEnergy + b.energy } ∧
    AllOf (fun c => c.state = .running ∧ c.ran = true ∧ c.demand = b.demand ∧ c.effects = (u.runSlab n run run.sram).effects) n b.order
      (s.startSlab n b off nowNs errors) ∧
    (∀ y ∈ ((s.startSlab n b off nowNs errors).dom n).batches, y.id = (hdrOf b.words).batch → y.started = true ∧ y.unopened = false) ∧
    WorkStands (u.runSlab n run run.sram).st (s.startSlab n b off nowNs errors) ∧
    (b.sharedWith = [] → (s.startSlab n b off nowNs errors).acc = (u.runSlab n run run.sram).st.acc) := by
  have hall := startedState_allOf s n b off nowNs errors
  have heq := startSlab_eq s n b off nowNs errors
  rw [← hrun, ← hu] at hall
  dsimp only at heq
  rw [← hrun, ← hu, hw, if_neg Bool.false_ne_true] at heq
  obtain ⟨w, fails, hcompute⟩ := computeSlab_works hno
  have horder : run.order = b.order := by rw [hrun]; rfl
  have hdemand : run.demand = b.demand := by rw [hrun]; rfl
  have hran := ranState_allOf (s := u) (n := n) (b := run)
    (by rw [horder]; exact hall.mono fun c hc => ⟨by rw [hc, hrun]; rfl, by rw [hc]⟩) w fails
  rw [horder, hdemand] at hran
  have hnot := endedAtOnce_false (hran.mono fun c ⟨hst, _⟩ => hst)
  rw [hcompute, if_neg (by simp [hnot])] at heq
  rw [heq]
  refine ⟨?_, AllOf.chargedStart hran (fun c ⟨hst, _⟩ => ?_) (fun c x hc _ _ st k => hc) _ _, ?_, (WorkStands.ranState ..).trans (.chargedStart ..), fun hb => ?_⟩
  · rw [chargedStart_pwr, (ranState_frame ..).kept .pwr (by decide), runSlab_pwr, hu, startedState_pwr, hrun]
    rfl
  · rw [hst]
    exact ⟨nofun, nofun⟩
  · have hwords : run.words = b.words := by rw [hrun]; rfl
    rw [← hwords]
    exact chargedStart_batches _ _ _ _
  · rw [chargedStart_acc _ _ (by rw [hrun]; exact hb), (ranState_frame ..).kept .acc (by decide)]

theorem slabsEnded_allOf {l : List Slab} {b c : Slab} {st : Status} {tick : Nat} (hc : c ∈ slabsEnded l b st tick) (ho : c.order = b.order) :
    c.state = .ended ∧ c.status = st := by
  obtain ⟨x, hx, hxc⟩ := List.mem_map.mp hc
  have hxo : x.order = b.order := by
    rw [← ho, ← hxc]
    split <;> rfl
  obtain ⟨e, -, -, rfl⟩ := mem_slabsWith hx hxo
  subst hxc
  split
  · exact ⟨rfl, rfl⟩
  · exact ⟨rfl, rfl⟩

theorem slabsEnded_exists {l : List Slab} {b : Slab} (h : ∃ c ∈ l, c.order = b.order) (st : Status) (tick : Nat) :
    ∃ c ∈ slabsEnded l b st tick, c.order = b.order := by
  obtain ⟨c, hc, ho⟩ := h
  refine ⟨_, List.mem_map_of_mem (List.mem_map_of_mem hc), ?_⟩
  rw [if_pos ho]
  split <;> exact ho

/-- A slab that fails a check at its start, or does not find what it needs, ends at once: charged where its base was not there (R23, R25, R244). -/
theorem startSlab_idle {s : State} {n : Nat} {b : Slab} (hb : b ∈ (s.dom n).slabs) (hw : b.waitsPages = false) (off : Rat) (nowNs : Nat)
    (errors : List ReadError) {run : Slab} {u : State} (hrun : run = startedSlab s b off nowNs (workBegins s n b nowNs errors).2)
    (hu : u = startedState s n b off nowNs errors) (hno : (u.runSlab n run run.sram).status.noWork = true) :
    AllOf (fun c => c.state = .ended ∧ c.status = (u.runSlab n run run.sram).status) n b.order (s.startSlab n b off nowNs errors) ∧
    ((u.runSlab n run run.sram).status ≠ .baseUnavailable → (s.startSlab n b off nowNs errors).pwr = s.pwr) ∧
    ((u.runSlab n run run.sram).status = .baseUnavailable →
      (s.startSlab n b off nowNs errors).pwr = { s.pwr with tickEnergy := s.pwr.tickEnergy + b.energy }) := by
  have hex := startedState_exists hb off nowNs errors
  have heq := startSlab_eq s n b off nowNs errors
  have horder : run.order = b.order := by rw [hrun]; rfl
  dsimp only at heq
  rw [← hu] at hex
  rw [← hrun, ← hu, hw, if_neg Bool.false_ne_true, computeSlab_idle hno] at heq
  have hkept := (KeepsSlabs.runSlab u n run run.sram).exists_order hex
  have hpwr : (u.runSlab n run run.sram).st.pwr = s.pwr := by rw [runSlab_pwr, hu, startedState_pwr]
  generalize u.runSlab n run run.sram = r at *
  have hopen : ∀ t : State, Frame [.domSlabs] r.st t → (t.dom n).slabs = (r.st.dom n).slabs →
      AllOf (fun c => c.state = .ended ∧ c.status = r.status) n b.order (t.endIdle n run r.status) ∧
      (∃ c ∈ ((t.endIdle n run r.status).dom n).slabs, c.order = b.order) ∧ (t.endIdle n run r.status).pwr = s.pwr := fun t hf ht => by
    refine ⟨fun c hc ho => ?_, ?_, ?_⟩
    · rw [endIdle_slabs] at hc
      exact slabsEnded_allOf hc (ho.trans horder.symm)
    · rw [endIdle_slabs, ht, ← horder]
      exact slabsEnded_exists (horder ▸ hkept) _ _
    · rw [(fr_endIdle (fr_refl _ t) n run r.status (fun _ h => h)).kept .pwr (by decide), hf.kept .pwr (by decide), hpwr]
  obtain ⟨hended, hexists, hidle⟩ := hopen (if r.status = .descInvalid then r.st.unopen n run.words else r.st)
    (by split
        · exact fr_unopen (fr_refl _ r.st) n run.words (fun _ h => h)
        · exact fr_refl _ r.st)
    (by split
        · rw [State.unopen, dom_updDom_self]
        · rfl)
  have honce := endedAtOnce_of_ended hended hexists
  generalize (if r.status = .descInvalid then r.st.unopen n run.words else r.st).endIdle n run r.status = t at *
  rw [heq, honce]
  by_cases hbase : r.status = .baseUnavailable
  · rw [if_neg (by rw [hbase]; decide)]
    refine ⟨AllOf.chargedStart hended (fun c ⟨hst, _⟩ => ?_) (fun c x _ ⟨hx, _⟩ hxr _ _ => ?_) _ _, fun h => absurd hbase h, fun _ => ?_⟩
    · rw [hst]
      exact ⟨nofun, nofun⟩
    · rw [hx] at hxr
      exact absurd hxr nofun
    · rw [chargedStart_pwr, hidle, hrun]
      rfl
  · have hfail : (r.status == .descInvalid || r.status == .depFailed) = true := by
      unfold Status.noWork at hno
      simpa [hbase] using hno
    rw [if_pos hfail]
    exact ⟨hended, fun _ => hidle, fun h => absurd h hbase⟩

/-! ## What a move and a scrub write (R283, R452) -/

/-- The pieces of a span cover it (R288). -/
theorem pagePieces_sum (f a n : Nat) (h : n = 0 ∨ a % pageBytes + n ≤ pageBytes * f) : ((pagePieces f a n).map Prod.snd).sum = n := by
  induction f generalizing a n with
  | zero => simp [pagePieces]; omega
  | succ f ih =>
    unfold pagePieces
    split
    · next hn => rw [hn]; rfl
    · next hn =>
      dsimp only
      have hpage : a % pageBytes < pageBytes := Nat.mod_lt _ (by decide)
      rcases Nat.le_total n (pageBytes - a % pageBytes) with hle | hle
      · rw [Nat.min_eq_left hle, List.map_cons, List.sum_cons, ih _ _ (.inl (Nat.sub_self n))]
        omega
      · have hnext : (a + (pageBytes - a % pageBytes)) % pageBytes = 0 := by
          unfold pageBytes at *
          omega
        rw [Nat.min_eq_right hle, List.map_cons, List.sum_cons, ih]
        · dsimp only
          omega
        · rw [hnext]
          unfold pageBytes at *
          omega

theorem rdMem_length (s : State) (d a n : Nat) : (s.rdMem d a n).1.length = n := by
  have hsum := pagePieces_sum (n / pageBytes + 2) a n (.inr (by unfold pageBytes; omega))
  unfold State.rdMem
  dsimp only
  rw [List.flatMap_map, List.length_flatMap]
  simpa using hsum

theorem unpoisoned_pages (s : State) (n d : Nat) : ((unpoisoned s n).dom d).tir.pages = (s.dom d).tir.pages := by
  unfold unpoisoned
  rw [dom_updDom]
  split
  · next h => subst h; rfl
  · rfl

theorem unpoisoned_home (s : State) (n d a : Nat) : (unpoisoned s n).home d a = s.home d a := by
  unfold State.home
  rw [unpoisoned_pages]

theorem unpoisoned_mem (s : State) (n e : Nat) : ((unpoisoned s n).dom e).mem = (s.dom e).mem ∧ ((unpoisoned s n).dom e).poison = (s.dom e).poison := by
  unfold unpoisoned
  rw [dom_updDom]
  split
  · next h => subst h; exact ⟨rfl, rfl⟩
  · exact ⟨rfl, rfl⟩

theorem unpoisoned_rdMem (s : State) (n d a k : Nat) : (unpoisoned s n).rdMem d a k = s.rdMem d a k := by
  unfold State.rdMem
  simp only [unpoisoned_home, unpoisoned_mem]
  rfl

theorem runKind_migration (s : State) (d : Nat) {b : Slab} (hk : (hdrOf b.words).kind = 7) (sram : Bool) :
    s.runKind d b sram = s.runMigration d b.words := by
  unfold State.runKind State.meetsOverflow State.entriesUsed
  simp [hk]

theorem runKind_scrub (s : State) (d : Nat) {b : Slab} (hk : (hdrOf b.words).kind = 8) (sram : Bool) :
    s.runKind d b sram = s.runScrub b.words := by
  unfold State.runKind State.meetsOverflow State.entriesUsed
  simp [hk]

theorem runMigration_move (s : State) (d : Nat) {ws : List W64} (h2 : (hdrOf ws).sub ≠ 2) (h3 : (hdrOf ws).sub ≠ 3) (h4 : (hdrOf ws).sub ≠ 4) :
    s.runMigration d ws = s.runMove d (moveBody ws) := by
  unfold State.runMigration
  split
  · next h => exact absurd h h2
  · next h => exact absurd h h3
  · next h => exact absurd h h4
  · rfl

/-- A KLN3_MOVE that meets no poison copies its bytes and no other. -/
theorem runSlab_move (s : State) (n : Nat) {b : Slab} (hk : (hdrOf b.words).kind = 7) (h2 : (hdrOf b.words).sub ≠ 2) (h3 : (hdrOf b.words).sub ≠ 3)
    (h4 : (hdrOf b.words).sub ≠ 4) (sram : Bool) (hsrc : (s.rdMem n (moveBody b.words).src (moveBody b.words).bytes).2 = false)
    (hdst : poisonHit (s.dom n).poison 64 (moveBody b.words).dst (moveBody b.words).bytes = false) (x : Nat) :
    memRead ((s.runSlab n b sram).st.dom n).mem x =
      if (moveBody b.words).dst ≤ x ∧ x < (moveBody b.words).dst + (moveBody b.words).bytes
      then (s.rdMem n (moveBody b.words).src (moveBody b.words).bytes).1.getD (x - (moveBody b.words).dst) 0 else memRead (s.dom n).mem x := by
  have hst : (s.runSlab n b sram).st = ((unpoisoned s n).runKind n b sram).st := by
    rcases runSlab_st s n b sram with h | ⟨hle, -⟩
    · exact h
    · omega
  obtain ⟨hmem, hpoison⟩ := unpoisoned_mem s n n
  have hlen := rdMem_length s n (moveBody b.words).src (moveBody b.words).bytes
  rw [hst, runKind_migration _ _ hk, runMigration_move _ _ h2 h3 h4]
  unfold State.runMove
  dsimp only
  rw [unpoisoned_rdMem, if_neg (by simp [hsrc])]
  dsimp only
  split
  · next hin =>
    rw [wrMem_mem_inside _ _ _ _ _ (by rw [hpoison, hlen]; exact hdst) (by rw [hlen]; exact hin)]
  · next hout => rw [wrMem_mem_outside _ _ _ _ _ (by rw [hlen]; exact hout), hmem]

theorem memRead_scrubPages (x : Dom) (ps : List Nat) (a : Nat) :
    memRead (x.scrubPages ps).mem a = if a / pageBytes ∈ ps then 0 else memRead x.mem a := by
  unfold Dom.scrubPages
  induction ps generalizing x with
  | nil => simp
  | cons p ps ih =>
    rw [List.foldl_cons, ih]
    by_cases hr : a / pageBytes ∈ ps
    · rw [if_pos hr, if_pos (List.mem_cons_of_mem _ hr)]
    · have hpage : (pageBytes * p ≤ a ∧ a < pageBytes * p + pageBytes) ↔ a / pageBytes = p := by
        unfold pageBytes
        omega
      rw [if_neg hr, Dom.wipePage, memRead_memClear]
      simp only [hpage, List.mem_cons, hr, or_false]

/-- A SCRUB whose pages are all there leaves every byte of them zero, and no other byte of domain 0 changed. -/
theorem runSlab_scrub {s : State} {n : Nat} {b : Slab} (hk : (hdrOf b.words).kind = 8) {sram : Bool} (hno : (s.runSlab n b sram).status.noWork = false)
    (x : Nat) :
    memRead ((s.runSlab n b sram).st.dom 0).mem x =
      if 2097152 * wfld b.words 4 0 27 ≤ x ∧ x < 2097152 * (wfld b.words 4 0 27 + wfld b.words 4 27 16) then 0 else memRead (s.dom 0).mem x := by
  have hst : (s.runSlab n b sram).st = ((unpoisoned s n).runKind n b sram).st := by
    rcases runSlab_st s n b sram with h | ⟨hle, -⟩
    · exact h
    · omega
  have hrun := runKind_scrub (unpoisoned s n) n hk sram
  have hpages : ((List.range' (wfld b.words 4 0 27) (wfld b.words 4 27 16)).all (unpoisoned s n).scrubPageOk) = true := by
    by_contra hbad
    have hinvalid : (unpoisoned s n).runKind n b sram = { st := unpoisoned s n, status := .descInvalid } := by
      rw [hrun, State.runScrub]
      rw [Bool.eq_false_iff.mpr hbad]
      rfl
    have hclean : ((unpoisoned s n).dom n).tir.wrPoison = false := by
      unfold unpoisoned
      rw [dom_updDom_self]
      rfl
    have hsame : s.runSlab n b sram = (unpoisoned s n).runKind n b sram := by
      unfold State.runSlab
      rw [if_pos]
      · rfl
      · show (!(((unpoisoned s n).runKind n b sram).st.dom n).tir.wrPoison) = true
        rw [hinvalid]
        simp [hclean]
    rw [hsame, hinvalid] at hno
    have hdone : Status.descInvalid.noWork = false := hno
    exact absurd hdone (by decide)
  have hrange : x / pageBytes ∈ List.range' (wfld b.words 4 0 27) (wfld b.words 4 27 16) ↔
      2097152 * wfld b.words 4 0 27 ≤ x ∧ x < 2097152 * (wfld b.words 4 0 27 + wfld b.words 4 27 16) := by
    rw [List.mem_range'_1]
    unfold pageBytes
    omega
  rw [hst, hrun, State.runScrub]
  simp only [hpages, Bool.not_true, Bool.false_eq_true, if_false]
  rw [dom_updDom_self, memRead_scrubPages, (unpoisoned_mem s n 0).1]
  simp only [hrange]

/-! ## A device slab starts or resumes (R292, R324, R327) -/

theorem KeepsWords.devBegins (s : State) (d : Nat) (r : DevSlabRec) : KeepsWords s (s.devBegins d r) := by
  unfold State.devBegins
  cases r.kind with
  | tierQueue => exact .of_frame (fr_runTier (fr_refl _ s) d r.amount _ (fun _ h => h)) (by decide) (by decide)
  | carter =>
    exact .trans (.foldl _ (fun t (q : Nat × Nat) => .askStripe t q.1 q.2) _ _)
      (.of_frame (fr_updBas (fr_refl _ _) _ (fun _ h => h)) (by decide) (by decide))
  | cooper => exact .of_frame (fr_runCooper (fr_refl _ s) d r.amount _ (fun _ h => h)) (by decide) (by decide)
  | sweep => exact .refl s
  | save => exact .refl s
  | restore => exact .refl s

theorem StaysIn.chargeDev (s : State) (d : Nat) (e : Rat) : StaysIn d s (s.chargeDev d e) := by
  have hpwr : StaysIn d s (s.updPwr (fun p => { p with tickEnergy := p.tickEnergy + e })) :=
    .of_frame d (fr_updPwr (fr_refl _ s) _ (fun _ h => h)) (by decide)
  unfold State.chargeDev
  exact (hpwr.trans (.bump ..)).trans (.updDom ..)

theorem chargeDev_frame (s : State) (d : Nat) (e : Rat) : Frame [.pwr, .counters, .domSched] s (s.chargeDev d e) :=
  fr_chargeDev (fr_refl _ s) d e (fun _ h => h)

/-- A device slab that starts or resumes is the one of its kind, it runs, and it is charged. -/
theorem startDev_leaves (s : State) (d : Nat) (r : DevSlabRec) (off : Rat) :
    (s.startDev d r off).pwr = { s.pwr with tickEnergy := s.pwr.tickEnergy + r.energy } ∧
    ((s.startDev d r off).dom d).devSlabs = updDevs r.kind (fun q => { q with state := .running, startOff := off, stalledNs := 0 }) (s.dom d).devSlabs := by
  have hbegins := fun t : State => (fr_devBegins (fr_refl _ t) d r (fun _ h => h)).kept .pwr (by decide)
  have hcharged : (((s.updDev d r.kind (fun q => { q with state := .running, startOff := off, stalledNs := 0 })).chargeDev d r.energy).dom d).devSlabs =
      updDevs r.kind (fun q => { q with state := .running, startOff := off, stalledNs := 0 }) (s.dom d).devSlabs := by
    rw [devSlabs_of_frame (chargeDev_frame ..) (by decide), updDev_devSlabs]
  unfold State.startDev
  dsimp only
  split
  · exact ⟨hbegins _, (((KeepsWords.devBegins ..).dom d).2).trans hcharged⟩
  · exact ⟨rfl, hcharged⟩

/-- One that has no transfer to begin changes its own domain alone. -/
theorem startDev_alone (s : State) (d : Nat) {r : DevSlabRec} (off : Rat)
    (h : r.state ≠ .planned ∨ (r.kind ≠ .tierQueue ∧ r.kind ≠ .carter ∧ r.kind ≠ .cooper)) :
    s.startDev d r off = (s.updDev d r.kind (fun q => { q with state := .running, startOff := off, stalledNs := 0 })).chargeDev d r.energy := by
  unfold State.startDev
  dsimp only
  split
  · next hp =>
    rcases h with h | ⟨ht, hc, hk⟩
    · exact absurd hp h
    · unfold State.devBegins
      cases hkind : r.kind with
      | tierQueue => exact absurd hkind ht
      | carter => exact absurd hkind hc
      | cooper => exact absurd hkind hk
      | sweep => rfl
      | save => rfl
      | restore => rfl
  · rfl

theorem exec_slabStart_device {s : State} {d : Fin 64} {kind : DevSlab} {nowNs : Nat} {r : DevSlabRec} (hr : (s.dom d.val).devSlab? kind = some r)
    (hm : (s.atTime nowNs).mayStartDev d.val r ((s.atTime nowNs).planOff nowNs) = true) (errors : List ReadError) :
    exec (.slabStart d (.device kind) nowNs errors) s = .next ((s.atTime nowNs).startDev d.val r ((s.atTime nowNs).planOff nowNs)) := by
  show execSlabStart d (.device kind) nowNs errors s = _
  simp only [execSlabStart, atTime_dom, hr, hm, if_true]

theorem slabStart_device {s : State} {d : Fin 64} {kind : DevSlab} {nowNs : Nat} (errors : List ReadError) {r : DevSlabRec}
    (hr : (s.dom d.val).devSlab? kind = some r)
    (hm : (s.atTime nowNs).mayStartDev d.val r ((s.atTime nowNs).planOff nowNs) = true) :
    ∃ t, exec (.slabStart d (.device kind) nowNs errors) s = .next t ∧ t.pwr = { s.pwr with tickEnergy := s.pwr.tickEnergy + r.energy } ∧
      (t.dom d.val).devSlabs = updDevs kind (fun q => { q with state := .running, startOff := (s.atTime nowNs).planOff nowNs, stalledNs := 0 })
        (s.dom d.val).devSlabs ∧
      (r.state = .paused ∨ (kind ≠ .tierQueue ∧ kind ≠ .carter ∧ kind ≠ .cooper) →
        OnlyDom s t d.val ∧ Frame [.fuses, .tik, .pwr, .counters, .domSlabs, .domSched] s t ∧ (t.dom d.val).slabs = (s.dom d.val).slabs) := by
  have hkind := devSlab?_kind hr
  obtain ⟨hpwr, hdev⟩ := startDev_leaves (s.atTime nowNs) d.val r ((s.atTime nowNs).planOff nowNs)
  rw [hkind] at hdev
  refine ⟨_, exec_slabStart_device hr hm errors, hpwr, hdev, fun h => ?_⟩
  rw [startDev_alone _ _ _ (h.imp (fun hp => by rw [hp]; exact nofun) (fun hk => by rw [hkind]; exact hk))]
  refine ⟨(((StaysIn.atTime _ s nowNs).trans (.updDev ..)).trans (.chargeDev ..)).only, ?_, ?_⟩
  · exact fr_chargeDev (fr_updDev (fr_atTime (fr_refl _ s) nowNs (by decide)) _ _ _ (by decide)) _ _ (by decide)
  · rw [slabs_of_frame (chargeDev_frame ..) (by decide), updDev_slabs, atTime_dom]

/-- Settles O44: a paused slab, one whose predecessor failed, one that waits for its pages, one whose work is done and one that finds nothing to do, and a device slab, by the lemma of each. -/
theorem slabsStart : Obligations.SlabsStart := by
  unfold Obligations.SlabsStart
  intro s d tag kind nowNs errors n a off energy
  refine ⟨fun b hb hm => ?_, fun r hr hm => slabStart_device errors hr hm⟩
  intro m run u r h body
  have hmem : b ∈ (a.dom n).slabs := List.mem_of_find?_eq_some hb
  have hrun : run = startedSlab a b off nowNs (workBegins a n b nowNs errors).2 := rfl
  have hu : u = startedState a n b off nowNs errors := rfl
  refine ⟨slabStart_paused hb hm, slabStart_depFailed hb hm, fun hst hdep hw => ?_, fun hst hdep hw hno => ?_, fun hst hdep hw hno => ?_⟩
  · obtain ⟨hpwr, hslabs⟩ := startSlab_waits a n hw off nowNs errors
    exact ⟨_, exec_slabStart_planned hb hm hst hdep, hpwr, hslabs⟩
  · obtain ⟨hpwr, hslabs, hbatches, hwork, hacc⟩ := startSlab_works a n hw off nowNs errors hrun hu hno
    obtain ⟨hcommons, hopbuf, hslots⟩ := hwork.device
    refine ⟨_, exec_slabStart_planned hb hm hst hdep, hpwr, hslabs, hbatches, hwork.dom, hcommons, hopbuf, hslots, hacc,
      fun hk h2 h3 h4 hsrc hdst x => ?_, fun hk x => ?_⟩
    · rw [(hwork.dom n).1]
      exact runSlab_move u n (b := run) hk h2 h3 h4 run.sram hsrc hdst x
    · rw [(hwork.dom 0).1]
      exact runSlab_scrub (s := u) (n := n) (b := run) (sram := run.sram) hk hno x
  · obtain ⟨hended, hidle, hbase⟩ := startSlab_idle hmem hw off nowNs errors hrun hu hno
    exact ⟨_, exec_slabStart_planned hb hm hst hdep, hended, hidle, hbase⟩

end Sys2Proof.Proofs

/-! Writes of the device's settings and of the registers of VEC and UPD (R45, R56, R113, R114, R275, R310, R311, R401, R485 to R487): what each operation of Machine/Regs.lean does with a write that it takes, refuses or ignores, and from them the statement on these writes. -/

namespace Sys2Proof.Proofs

open Sys2Proof.Machine Sys2Proof.Safety Sys2Proof.Laws

section SettingWrites

variable {s : State} {v : View}

/-- A write that only raises a device event moves nothing but events, and leaves its own in every view that sees it (R469). -/
theorem raiseDev_refuses {t : State} {p b : Nat} (h : t = s.raiseDev p b) (hb : b < 32) :
    Frame (withEvents []) s t ∧ EventIn t (s.devCopies p b) p b := by
  rw [h]
  exact ⟨raiseDev_frame s p b, raiseDev_event s p b hb⟩

/-! ## Recipe rows (R45) -/

/-- In region 0 a row that R44 allows waits for the latch, and another is refused whole. -/
theorem writeRecipe_of_open (h : s.shows v pVec = true ∧ isRegion0 v = true) (hl : s.locked.contains pVec = false) (k w : Nat) :
    s.writeRecipe v k w =
      if recipeAllows k (bitsOf w 0 4) = true ∧ (bitOf w 8 = true → recipeEscapes k (bitsOf w 0 4) = true) then
        s.defer (.recipe k { fmt := bitsOf w 0 4, escEn := bitOf w 8, escShift := bitsOf w 9 2 })
      else s.raiseDev pVec 0 := by
  refine (if_neg ?_).trans ((if_congr ?_ rfl rfl).trans (ite_not ..))
  · simpa [h] using hl
  · cases recipeAllows k (bitsOf w 0 4) <;> simp

theorem writeRecipe_ignored (h : ¬ (s.shows v pVec = true ∧ isRegion0 v = true) ∨ s.locked.contains pVec = true) (k w : Nat) :
    s.writeRecipe v k w = s := by
  refine if_pos ?_
  simpa [Classical.or_iff_not_imp_left] using h

/-! ## The maintenance window (R275) -/

theorem windowFits_iff (len tick settle : Nat) :
    windowFits len tick settle = true ↔ 200 * len ≤ tick ∧ 1000 * (len + settle) + 14000 ≤ 10 * tick := by
  simp [windowFits]

/-- A window of `len` µs fits a tick's configuration that waits, where one does. -/
def FitsWaiting (len : Nat) (q : Option (Nat × Nat × Nat × Nat × Nat)) : Prop :=
  ∀ k l se gd cut, q = some (k, l, se, gd, cut) → 200 * len ≤ l ∧ 1000 * (len + se) + 14000 ≤ 10 * l

theorem fitsWaiting_none (len : Nat) : FitsWaiting len none := nofun

theorem fitsWaiting_some (len k l se gd cut : Nat) : FitsWaiting len (some (k, l, se, gd, cut)) ↔ windowFits len l se = true := by
  rw [windowFits_iff]
  refine ⟨fun h => h k l se gd cut rfl, fun h k' l' se' gd' cut' he => ?_⟩
  cases he
  exact h

/-- The window is one that R275 allows: it comes at all, lasts at most 200 µs (log 81), and fits the tick in force and those that wait. -/
def WindowAllowed (s : State) (len every : Nat) : Prop :=
  every ≠ 0 ∧ len ≤ 200 ∧ (200 * len ≤ s.tik.len ∧ 1000 * (len + s.tik.settleUs) + 14000 ≤ 10 * s.tik.len) ∧
    FitsWaiting len s.tik.next ∧ FitsWaiting len s.tik.later

open Classical in
theorem writeMaint_of_shows (h : s.shows v 0x10 = true ∧ isRegion0 v = true) (w : Nat) :
    s.writeMaint v w =
      if WindowAllowed s (bitsOf w 0 8) (bitsOf w 8 16) then s.defer (.maint (bitsOf w 0 8) (bitsOf w 8 16)) else s.raiseDev 0x10 0 := by
  refine (if_neg ?_).trans ((if_congr ?_ rfl rfl).trans (ite_not ..))
  · simp [h]
  · rw [WindowAllowed, ← windowFits_iff]
    rcases s.tik.next with _ | ⟨_, _, _, _, _⟩ <;> rcases s.tik.later with _ | ⟨_, _, _, _, _⟩ <;>
      simp [fitsWaiting_none, fitsWaiting_some, imp_iff_not_or, or_assoc]

theorem writeMaint_ignored (h : ¬ (s.shows v 0x10 = true ∧ isRegion0 v = true)) (w : Nat) : s.writeMaint v w = s := by
  refine if_pos ?_
  simpa [Classical.or_iff_not_imp_left] using h

/-! ## TIK_LEN and TIK_PHASE (R310, R311) -/

/-- What R310 and R307 ask of LEN, S, G and CUT, with a maintenance window of `window` µs. -/
def TickFits (q : Nat × Nat × Nat × Nat) (window : Nat) : Prop :=
  5000 ≤ q.1 ∧ q.1 ≤ 2000000 ∧ 4 ≤ q.2.1 ∧ 1 ≤ q.2.2.1 ∧ q.2.2.1 + 3 ≤ q.2.1 ∧ 40 ≤ q.2.2.2 ∧ 100 * q.2.2.2 ≤ q.1 ∧
    1000 * (window + q.2.1) + 14000 ≤ 10 * q.1

theorem tickOk_iff (q : Nat × Nat × Nat × Nat) (window : Nat) : tickOk q.1 q.2.1 q.2.2.1 q.2.2.2 window = true ↔ TickFits q window := by
  simp [tickOk, TickFits, and_assoc]

/-- LEN, S, G and CUT that a write of TIK_LEN (`phase` false) or of TIK_PHASE asks for: its own fields, and the others as last accepted. -/
def askedTick (t : TikState) (phase : Bool) (w : Nat) : Nat × Nat × Nat × Nat :=
  (if phase then t.dueTick.1 else bitsOf w 0 21, if phase then bitsOf w 0 8 else t.dueTick.2.1,
    if phase then bitsOf w 8 6 else t.dueTick.2.2.1, if phase then bitsOf w 14 16 else t.dueTick.2.2.2)

/-- The configuration fits with the maintenance window in force and with the one that waits. -/
def TickAllowed (s : State) (q : Nat × Nat × Nat × Nat) : Prop := TickFits q s.memg.maintLen ∧ TickFits q s.dueMaint.1

theorem tickRefused_iff (s : State) (q : Nat × Nat × Nat × Nat) :
    (!(tickOk q.1 q.2.1 q.2.2.1 q.2.2.2 s.memg.maintLen && tickOk q.1 q.2.1 q.2.2.1 q.2.2.2 s.dueMaint.1)) = true ↔ ¬ TickAllowed s q := by
  simp only [TickAllowed, ← tickOk_iff, Bool.not_eq_true', ← Bool.and_eq_true, Bool.not_eq_true]

theorem updTik_congr {f g : TikState → TikState} (h : f s.tik = g s.tik) : s.updTik f = s.updTik g := by
  rw [State.updTik, h, State.updTik]

/-- The tick's state as the master keeps a configuration for tick n, or for the earlier latch that one waits for already. -/
def keepTick (t : TikState) (n : Nat) (q : Nat × Nat × Nat × Nat) : TikState :=
  match t.next with
  | none => { t with next := some (n, q) }
  | some (m, p) => if n ≤ m then { t with next := some (m, q) } else { t with next := some (m, p), later := some (n, q) }

theorem keepTick_none {t : TikState} (h : t.next = none) (n : Nat) (q : Nat × Nat × Nat × Nat) :
    keepTick t n q = { t with next := some (n, q) } := by
  rw [keepTick, h]

theorem keepTick_some {t : TikState} {m : Nat} {p : Nat × Nat × Nat × Nat} (h : t.next = some (m, p)) (n : Nat)
    (q : Nat × Nat × Nat × Nat) :
    keepTick t n q = if n ≤ m then { t with next := some (m, q) } else { t with later := some (n, q) } := by
  cases t
  cases h
  rfl

open Classical in
theorem writeTick_of_shows (hs : s.shows v pTik = true) (hpf : isPf v = true) (phase : Bool) (w : Nat) :
    s.writeTick v phase w =
      if TickAllowed s (askedTick s.tik phase w) then
        if s.tik.isMaster then s.updTik (fun t => keepTick t s.tickOfChange (askedTick s.tik phase w)) else s
      else s.raiseDev pTik 0 := by
  refine (if_neg ?_).trans ((if_congr ?_ rfl ((if_congr ?_ rfl rfl).trans (ite_not ..))).trans (ite_not ..))
  · simp [hs, hpf]
  · exact tickRefused_iff s (askedTick s.tik phase w)
  · simp

section Accepted

variable (hs : s.shows v pTik = true) (hpf : isPf v = true) {phase : Bool} {w : Nat}

include hs hpf

theorem writeTick_refused (h : ¬ TickAllowed s (askedTick s.tik phase w)) : s.writeTick v phase w = s.raiseDev pTik 0 := by
  rw [writeTick_of_shows hs hpf, if_neg h]

theorem writeTick_of_not_master (h : TickAllowed s (askedTick s.tik phase w)) (hm : s.tik.isMaster = false) :
    s.writeTick v phase w = s := by
  simp [writeTick_of_shows hs hpf, h, hm]

/-- The master keeps an allowed configuration for the latch that R311 gives. -/
theorem writeTick_of_master (h : TickAllowed s (askedTick s.tik phase w)) (hm : s.tik.isMaster = true) :
    s.writeTick v phase w = s.updTik (fun t => keepTick t s.tickOfChange (askedTick s.tik phase w)) := by
  simp [writeTick_of_shows hs hpf, h, hm]

end Accepted

theorem writeTick_ignored (h : s.shows v pTik = false ∨ isPf v = false) (phase : Bool) (w : Nat) : s.writeTick v phase w = s := by
  refine if_pos ?_
  simpa using h

/-! ## The fabric's slot tags, the rounding test key and the trace (R401, R485 to R487) -/

theorem writeSlotTag_of_region0 (h : s.shows v pCol = true ∧ isRegion0 v = true) (w : Nat) :
    s.writeSlotTag v w = s.updFab (fun f => { f with
      slotNext := f.slotNext ++ [(64 * bit01 f.slotClass + f.slotSel, bitsOf w 0 16, (s.tik.tick + 127) / 64 * 64)] }) :=
  if_pos h

theorem writeSlotTag_ignored (h : ¬ (s.shows v pCol = true ∧ isRegion0 v = true)) (w : Nat) : s.writeSlotTag v w = s := if_neg h

theorem applyKey_of_testState {d : Nat} (h : s.shows v pDbg = true ∧ s.testState = true ∧ (s.dom d).alive = true) :
    s.applyKey v d = s.updDom d (fun x => x.updKeys (fun k => { k with applyPending := some s.dbg.testKey })) :=
  if_pos h

theorem applyKey_ignored {d : Nat} (h : ¬ (s.shows v pDbg = true ∧ s.testState = true ∧ (s.dom d).alive = true)) :
    s.applyKey v d = s :=
  if_neg h

theorem writeTraceCfg_of_shows (h : s.shows v pDbg = true) (w : Nat) :
    s.writeTraceCfg v w = { s with dbg := { s.dbg with
      traceLog2 := if s.dbg.traceEn then s.dbg.traceLog2 else bitsOf w 0 5, traceEn := bitOf w 5,
      traceHead := if bitOf w 5 = true ∧ s.dbg.traceEn = false then 0 else s.dbg.traceHead } } := by
  simp [State.writeTraceCfg, State.updDbg, h]

theorem writeTraceCfg_ignored (h : s.shows v pDbg = false) (w : Nat) : s.writeTraceCfg v w = s := by
  simp [State.writeTraceCfg, h]

/-! ## Amax histories and zero streaks (R113, R114) -/

/-- The view shows a domain's own vector statistics (R476). -/
theorem ownVec_iff : s.ownVec v = true ↔ s.shows v pVec = true ∧ isTenantRegion v = false := by
  simp [State.ownVec]

theorem writeHistSel_of_own (h : s.ownVec v = true) (slot : Nat) :
    s.writeHistSel v slot = s.updDom (s.viewDom v pVec) (fun x => x.updVec (fun e =>
      { e with histSel := slot, histCount := ((mapGet e.hist slot).getD []).length,
               histData := ((mapGet e.hist slot).getD [] ++ List.replicate 16 0).take 16 })) := by
  simp [State.writeHistSel, h]

theorem writeHistSel_ignored (h : ¬ s.ownVec v = true) (slot : Nat) : s.writeHistSel v slot = s := by
  simp [State.writeHistSel, h]

/-- An admitted slab of domain n that has not completed names the selected history slot (R113). -/
def histNamed (s : State) (n : Nat) : Bool :=
  (s.dom n).slabs.any (fun b => b.admitted && (s.histSlots n b.words).contains (s.dom n).vec.histSel)

theorem commitHist_of_own (h : s.ownVec v = true) {count : Nat} (hc : count ≤ 16) :
    s.commitHist v count =
      if histNamed s (s.viewDom v pVec) then s.raiseDom pVec 1 (s.viewDom v pVec)
      else s.updDom (s.viewDom v pVec) (fun x => x.updVec (fun y =>
        { y with hist := if count = 0 then mapDel y.hist y.histSel else mapSet y.hist y.histSel (y.histData.take count) })) := by
  refine if_neg ?_
  simp [h, hc]

theorem commitHist_ignored {count : Nat} (h : ¬ s.ownVec v = true ∨ 16 < count) : s.commitHist v count = s := by
  refine if_pos ?_
  simpa using h

theorem writeZs_of_own (h : s.ownVec v = true) (hc : (s.dom (s.viewDom v pVec)).upd.open_ = false) (w : Nat) :
    s.writeZs v w = s.updDom (s.viewDom v pVec) (fun x => x.updVec (fun e =>
      { e with zs := if w = 0 then mapDel e.zs e.zsSel else mapSet e.zs e.zsSel w,
               zsRaised := if w < e.limit then numDel e.zsRaised e.zsSel else e.zsRaised })) := by
  simp [State.writeZs, h, hc]

theorem writeZs_ignored (h : ¬ s.ownVec v = true ∨ (s.dom (s.viewDom v pVec)).upd.open_ = true) (w : Nat) : s.writeZs v w = s := by
  refine if_pos ?_
  simpa using h

/-! ## The loss scale (R56) -/

/-- LS_EXP takes a write: the view has it, no update step is open, and the value is at most 40. -/
def LossScaleTaken (s : State) (v : View) (w : Nat) : Prop :=
  s.shows v pUpd = true ∧ isTenantRegion v = false ∧ (s.dom (s.viewDom v pUpd)).upd.open_ = false ∧ bitsOf w 0 6 ≤ 40

theorem writeLossScale_of_taken {w : Nat} (h : LossScaleTaken s v w) :
    s.writeLossScale v w = s.updDom (s.viewDom v pUpd) (fun x => x.updUpd (fun u =>
      { u with lsExp := bitsOf w 0 6, clean := if bitsOf w 0 6 = u.lsExp then u.clean else 0 })) := by
  obtain ⟨hs, ht, ho, hn⟩ := h
  refine if_neg ?_
  simp [hs, ht, ho, hn]

theorem writeLossScale_ignored {w : Nat} (h : ¬ LossScaleTaken s v w) : s.writeLossScale v w = s := by
  refine if_pos ?_
  simpa [LossScaleTaken, Classical.or_iff_not_imp_left] using h

end SettingWrites

/-- Settles O55: each clause from the lemma on its operation. -/
theorem deviceAndStatisticsWrites : Obligations.DeviceAndStatisticsWrites := by
  unfold Obligations.DeviceAndStatisticsWrites
  intro s v w
  refine ⟨fun k => ⟨fun hr hl => ⟨fun ok => ?recipe, fun no => ?badRecipe⟩, fun no => congrArg _ (writeRecipe_ignored no k.val w.toNat)⟩,
    ⟨fun hr => ⟨fun ok => ?maint, fun no => ?badMaint⟩, fun no => congrArg _ (writeMaint_ignored no w.toNat)⟩,
    fun phase => ⟨fun hs hpf => ?tick, fun no => congrArg _ (writeTick_ignored no phase w.toNat)⟩,
    ⟨fun hr => congrArg _ (writeSlotTag_of_region0 hr w.toNat), fun no => congrArg _ (writeSlotTag_ignored no w.toNat)⟩,
    fun d => ⟨fun ok => congrArg _ (applyKey_of_testState ok), fun no => congrArg _ (applyKey_ignored no)⟩,
    ⟨fun h => congrArg _ (writeTraceCfg_of_shows h w.toNat), fun no => congrArg _ (writeTraceCfg_ignored no w.toNat)⟩,
    fun slot => ⟨fun own => congrArg _ (writeHistSel_of_own (ownVec_iff.2 own) slot.toNat),
      fun no => congrArg _ (writeHistSel_ignored (mt ownVec_iff.1 no) slot.toNat)⟩,
    fun count => ⟨fun own hc hn => ?commit, fun own hc hn => ?named, fun no => congrArg _ (commitHist_ignored (no.imp_left (mt ownVec_iff.1)))⟩,
    ⟨fun own ho => congrArg _ (writeZs_of_own (ownVec_iff.2 own) ho w.toNat),
      fun no => congrArg _ (writeZs_ignored (no.imp_left (mt ownVec_iff.1)) w.toNat)⟩,
    fun ok => congrArg _ (writeLossScale_of_taken ok), fun no => congrArg _ (writeLossScale_ignored no)⟩
  case recipe => exact congrArg _ ((writeRecipe_of_open hr hl k.val w.toNat).trans (if_pos ok))
  case badRecipe => exact ⟨_, rfl, raiseDev_refuses ((writeRecipe_of_open hr hl k.val w.toNat).trans (if_neg no)) (by decide)⟩
  case maint => exact congrArg _ ((writeMaint_of_shows hr w.toNat).trans (if_pos ok))
  case badMaint => exact ⟨_, rfl, raiseDev_refuses ((writeMaint_of_shows hr w.toNat).trans (if_neg no)) (by decide)⟩
  case tick =>
    refine ⟨fun no => ⟨_, rfl, raiseDev_refuses (writeTick_refused hs hpf no) (by decide)⟩,
      fun ok hm => congrArg _ (writeTick_of_not_master hs hpf ok hm), fun ok hm hn => ?first, fun k q ok hm hn => ?second⟩
    case first => exact congrArg Host.Outcome.next ((writeTick_of_master hs hpf ok hm).trans (updTik_congr (keepTick_none hn ..)))
    case second => exact congrArg Host.Outcome.next ((writeTick_of_master hs hpf ok hm).trans (updTik_congr (keepTick_some hn ..)))
  case commit => exact congrArg _ ((commitHist_of_own (ownVec_iff.2 own) hc).trans (if_neg (Bool.eq_false_iff.1 hn)))
  case named =>
    have he := (commitHist_of_own (ownVec_iff.2 own) hc).trans (if_pos hn)
    exact ⟨_, congrArg Host.Outcome.next he, raiseDom_frame .., raiseDom_event _ _ _ _ (by decide)⟩

end Sys2Proof.Proofs

/-! The commands of the VAR page and the ends of Cooper's work (R117 to R141): what the body of a command may touch, what each body does in the case that a statement names, and from them the statements on CLAIM, LOAD, STAGE, FLUSH, PARK, RELEASE, UNSTAGE, QUERY and the expert tables, the refutation of the one on the ends of Cooper's work, and the frames of the commands of VAR, KVP, BAS and TIR. -/

namespace Sys2Proof.Proofs

open Sys2Proof.Machine Sys2Proof.Safety Sys2Proof.Laws

/-! ## What a command of the VAR page may touch -/

/-- A command on slot k whose arguments stand in copy c has changed domain d, that slot and that pair alone. -/
structure VarStep (d c k : Nat) (s t : State) : Prop where
  dom : StaysIn d s t
  slot : OnlySlot s t k
  pair : OnlyPair s t c pVar

theorem VarStep.refl (d c k : Nat) (s : State) : VarStep d c k s s := ⟨.refl d s, fun _ _ => rfl, fun _ _ _ => rfl⟩

theorem VarStep.trans {d c k : Nat} {s t u : State} (a : VarStep d c k s t) (b : VarStep d c k t u) : VarStep d c k s u :=
  ⟨a.dom.trans b.dom, fun j hj => (b.slot j hj).trans (a.slot j hj), fun e g hg => (b.pair e g hg).trans (a.pair e g hg)⟩

/-- An operation whose frame lists neither the slots nor the pairs nor a part of the domains. -/
theorem VarStep.of_frame {L : List Part} {s t : State} (d c k : Nat) (h : Frame L s t)
    (hL : ∀ p ∈ Part.slots :: .pairs :: domainParts, p ∉ L) : VarStep d c k s t where
  dom := .of_frame d h fun p hp => hL p (List.mem_cons_of_mem _ (List.mem_cons_of_mem _ hp))
  slot j _ := by
    have hs : t.slots = s.slots := h.kept .slots (hL _ (by decide))
    unfold State.slot
    rw [hs]
  pair e g _ := by
    have hp : t.pairs = s.pairs := h.kept .pairs (hL _ (by decide))
    unfold State.pair
    rw [hp]

section Operations

variable (d c k : Nat) (s : State)

theorem VarStep.defer (a : LatchAct) : VarStep d c k s (s.defer a) :=
  .of_frame d c k (fr_defer (fr_refl _ s) a (fun _ h => h)) (by decide)

theorem VarStep.bump (a b i n : Nat) : VarStep d c k s (s.bump a b i n) :=
  .of_frame d c k (fr_bump (fr_refl _ s) a b i n (fun _ h => h)) (by decide)

theorem VarStep.pickFree (n : Nat) (l : List Nat) : VarStep d c k s (State.pickFree n l s).2 :=
  .of_frame d c k (fr_pickFree (fr_refl _ s) n l (fun _ h => h)) (by decide)

theorem VarStep.updDom (f : Dom → Dom) : VarStep d c k s (s.updDom d f) := ⟨.updDom d s f, fun _ _ => rfl, fun _ _ _ => rfl⟩

theorem VarStep.putSlot (x : SlotEntry) : VarStep d c k s (s.putSlot k x) where
  dom := .of_frame d (fr_putSlot (L := [.slots]) (fr_refl _ s) k x (by decide)) (by decide)
  slot j hj := by rw [slot_putSlot, if_neg hj]
  pair _ _ _ := rfl

theorem VarStep.putArg (i : Nat) (w : W64) : VarStep d c k s (s.putArg c pVar i w) where
  dom := .of_frame d (fr_putArg (fr_refl _ s) c pVar i w (fun _ h => h)) (by decide)
  slot _ _ := rfl
  pair e g hg := by
    unfold State.putArg
    rw [pair_putPair, if_neg hg]

theorem VarStep.foldl {α : Type} {f : State → α → State} (hf : ∀ t a, VarStep d c k t (f t a)) (l : List α) :
    VarStep d c k s (l.foldl f s) :=
  foldl_keeps (VarStep d c k s) f (fun t a h => h.trans (hf t a)) l (.refl d c k s)

theorem VarStep.postResult (r : Nat) : VarStep d c k s (s.postResult c pVar r) where
  dom := .postResult d s c pVar r
  slot _ _ := postResult_slot ..
  pair := onlyPair_postResult s c pVar r

end Operations

/-! ## The path of a command of the VAR page (R123, R124) -/

/-- The state with the result of a command of the VAR page posted: a status and the slot's generation. -/
abbrev varPosted (t : State) (c k st op : Nat) : State := t.postResult c pVar (varWord st op 0 (t.slot k).gen k)

theorem VarStep.leaves {s t : State} {v : View} {slot : BitVec 14} (h : VarStep (s.viewDom v pVar) (s.viewCopy v pVar) slot.toNat s t)
    (st op : Nat) : VarLeaves s (varPosted t (s.viewCopy v pVar) slot.toNat st op) v slot st op := by
  obtain ⟨hd, hs, hp⟩ := h.trans (.postResult _ _ _ t (varWord st op 0 (t.slot slot.toNat).gen slot.toNat))
  refine ⟨?_, hp, hs, hd.only⟩
  rw [postResult_slot]
  exact answered_postResult ..

/-- A command that is ready, with no reserved bit set, posts what its body answers. -/
theorem varCmd_ready {s : State} {v : View} {posted : Bool} (h : Ready s v pVar posted) (op k : Nat)
    (f : Nat → Nat → State → State × Nat × Nat × W16) :
    s.varCmd v posted op k 0 f = (f (s.viewDom v pVar) (s.viewCopy v pVar) s).1.postResult (s.viewCopy v pVar) pVar
      (varWord (f (s.viewDom v pVar) (s.viewCopy v pVar) s).2.1 op (f (s.viewDom v pVar) (s.viewCopy v pVar) s).2.2.1
        (f (s.viewDom v pVar) (s.viewCopy v pVar) s).2.2.2 k) := by
  rw [State.varCmd, runCmd_ready h]
  rfl

theorem varCmd_says {s t : State} {v : View} {posted : Bool} (h : Ready s v pVar posted) (op : Nat) {k st : Nat}
    {f : Nat → Nat → State → State × Nat × Nat × W16} (hf : f (s.viewDom v pVar) (s.viewCopy v pVar) s = t.varSays k st) :
    s.varCmd v posted op k 0 f = varPosted t (s.viewCopy v pVar) k st op := by
  rw [varCmd_ready h, hf]
  rfl

/-- A command on a granted slot at its generation passes the guard. -/
theorem varCmd_guard_says {s t : State} {v : View} {posted : Bool} {slot : BitVec 14} {gen : W16} (h : VarReady s v posted slot gen)
    (op : Nat) {st : Nat} {f : Nat → Nat → State → State × Nat × Nat × W16}
    (hf : f (s.viewDom v pVar) (s.viewCopy v pVar) s = t.varSays slot.toNat st) :
    s.varCmd v posted op slot.toNat 0 (fun d c u => u.varGuard d slot.toNat gen (f d c u)) =
      varPosted t (s.viewCopy v pVar) slot.toNat st op := by
  obtain ⟨hr, hg, hn⟩ := h
  refine varCmd_says hr op ?_
  rw [State.varGuard, if_neg (by simp [hg]), if_neg (not_not.2 hn), hf]

section Guarded

variable {s t : State} {v : View} {posted : Bool} {slot : BitVec 14} {gen : W16} {st : Nat} (h : VarReady s v posted slot gen)
include h

theorem exec_load_says (hf : s.loadSlot (s.viewDom v pVar) slot.toNat = t.varSays slot.toNat st) :
    exec (.load v posted slot gen 0) s = .next (varPosted t (s.viewCopy v pVar) slot.toNat st 2) :=
  congrArg Host.Outcome.next (varCmd_guard_says h 2 (f := fun d _ u => u.loadSlot d slot.toNat) hf)

theorem exec_park_says (hf : s.parkSlot (s.viewDom v pVar) slot.toNat = t.varSays slot.toNat st) :
    exec (.park v posted slot gen 0) s = .next (varPosted t (s.viewCopy v pVar) slot.toNat st 3) :=
  congrArg Host.Outcome.next (varCmd_guard_says h 3 (f := fun d _ u => u.parkSlot d slot.toNat) hf)

theorem exec_release_says (hf : s.releaseSlot (s.viewDom v pVar) slot.toNat = t.varSays slot.toNat st) :
    exec (.release v posted slot gen 0) s = .next (varPosted t (s.viewCopy v pVar) slot.toNat st 4) :=
  congrArg Host.Outcome.next (varCmd_guard_says h 4 (f := fun d _ u => u.releaseSlot d slot.toNat) hf)

theorem exec_stage_says (hf : s.stageSlot (s.viewDom v pVar) (s.viewCopy v pVar) slot.toNat = t.varSays slot.toNat st) :
    exec (.stage v posted slot gen 0) s = .next (varPosted t (s.viewCopy v pVar) slot.toNat st 5) :=
  congrArg Host.Outcome.next (varCmd_guard_says h 5 (f := fun d c u => u.stageSlot d c slot.toNat) hf)

theorem exec_unstage_says (hf : s.unstageSlot (s.viewCopy v pVar) slot.toNat = t.varSays slot.toNat st) :
    exec (.unstage v posted slot gen 0) s = .next (varPosted t (s.viewCopy v pVar) slot.toNat st 6) :=
  congrArg Host.Outcome.next (varCmd_guard_says h 6 (f := fun _ c u => u.unstageSlot c slot.toNat) hf)

theorem exec_flush_says (hf : s.flushSlot (s.viewDom v pVar) slot.toNat = t.varSays slot.toNat st) :
    exec (.flush v posted slot gen 0) s = .next (varPosted t (s.viewCopy v pVar) slot.toNat st 10) :=
  congrArg Host.Outcome.next (varCmd_guard_says h 10 (f := fun d _ u => u.flushSlot d slot.toNat) hf)

end Guarded

/-! ## CLAIM (R118, R125) -/

theorem nextGen_eq (g : W16) : nextGen g = if g = 0xFFFF then 1 else g + 1 := by
  have h : g + 1 = 0 ↔ g = 0xFFFF := by bv_omega
  simp only [nextGen, h]

/-- The entry that a CLAIM with arguments a0 and a1 makes of a slot. -/
def claimedEntry (a0 a1 : Nat) (gen : W16) : SlotEntry :=
  { state := .held, gen := gen, home := bitsOf a0 0 48, rank8 := bitsOf a0 48 6, train := bitOf a0 54, expert := bitOf a0 55,
    projMask := BitVec.ofNat 16 (bitsOf a1 0 16), fmt := bitsOf a1 16 4 }

/-- CLAIM of a granted slot with good arguments decides on the slot's state and generation alone. -/
theorem claimSlot_of_good {s : State} {d c k : Nat} (gen : W16) (hg : s.granted d k = true) (h1 : bitsOf (s.arg c pVar 0) 56 8 = 0)
    (h2 : bitsOf (s.arg c pVar 1) 20 44 = 0) (h3 : bitsOf (s.arg c pVar 1) 16 4 = 8) (h4 : 1 ≤ bitsOf (s.arg c pVar 0) 48 6)
    (h5 : bitsOf (s.arg c pVar 0) 48 6 ≤ 32) (h6 : bitsOf (s.arg c pVar 1) 0 16 ≠ 0) (h7 : bitsOf (s.arg c pVar 0) 0 48 % 64 = 0) :
    s.claimSlot d c k gen =
      if (s.slot k).state ≠ .free then (s.bump d pVar 4 1).varSays k 0x02
      else if (s.slot k).gen ≠ gen then (s.bump d pVar 4 1).varSays k 0x03
      else (s.putSlot k (claimedEntry (s.arg c pVar 0) (s.arg c pVar 1) (nextGen (s.slot k).gen))).varSays k 0x00 :=
  (if_neg (by simp [hg])).trans (if_neg (by omega))

theorem exec_claim_says {s t : State} {v : View} {posted : Bool} {slot : BitVec 14} {gen : W16} {st : Nat} (h : Ready s v pVar posted)
    (hf : s.claimSlot (s.viewDom v pVar) (s.viewCopy v pVar) slot.toNat gen = t.varSays slot.toNat st) :
    exec (.claim v posted slot gen 0) s = .next (varPosted t (s.viewCopy v pVar) slot.toNat st 1) :=
  congrArg _ (varCmd_says h 1 hf)

/-- Settles O7: the three outcomes of the compare-and-set, each by its branch. -/
theorem claimIsCompareAndSet : Obligations.ClaimIsCompareAndSet := by
  unfold Obligations.ClaimIsCompareAndSet
  intro s v posted slot gen a0 a1 e g hr hg h1 h2 h3 h4 h5 h6 h7
  have hclaim := claimSlot_of_good gen hg h1 h2 h3 h4 h5 h6 h7
  by_cases hf : e.state = .free
  · rw [if_neg (not_not.2 hf)] at hclaim
    by_cases hn : e.gen = gen
    · refine ⟨_, exec_claim_says hr (hclaim.trans (if_neg (not_not.2 hn))),
        fun _ _ => ⟨(VarStep.putSlot ..).leaves 0x00 1, ?_⟩, fun no => absurd hf no, fun _ no => absurd hn no⟩
      rw [postResult_slot, slot_putSlot_self, nextGen_eq]
      simp only [claimedEntry, show (s.slot slot.toNat).gen = gen from hn, show bitsOf (s.arg _ pVar 1) 16 4 = 8 from h3, g, a0, a1]
    · exact ⟨_, exec_claim_says hr (hclaim.trans (if_pos hn)), fun _ yes => absurd yes hn,
        fun no => absurd hf no, fun _ _ => ⟨(VarStep.bump ..).leaves 0x03 1, postResult_slots ..⟩⟩
  · exact ⟨_, exec_claim_says hr (hclaim.trans (if_pos hf)), fun yes => absurd yes hf,
      fun _ => ⟨(VarStep.bump ..).leaves 0x02 1, postResult_slots ..⟩, fun yes => absurd yes hf⟩

/-! ## LOAD, STAGE and FLUSH (R126 to R130, R133) -/

theorem VarStep.queueCooper (d c k : Nat) (s : State) (j : Nat) (w : CoopKind) (n : Nat) (blocked : Bool) :
    VarStep d c k s (s.queueCooper d j w n blocked) := .updDom d c k s _

/-- An item joins the end of its domain's queue. -/
theorem queueCooper_queue (s : State) (d j : Nat) (w : CoopKind) (n : Nat) (blocked : Bool) :
    ((s.queueCooper d j w n blocked).dom d).var_.queue =
      (s.dom d).var_.queue ++ [{ kind := w, slot := j, left := roundUp n 4096, blocked := blocked }] := by
  rw [State.queueCooper, dom_updDom_self]

theorem pickFree_dom_var_ (n : Nat) (l : List Nat) (s : State) (d : Nat) : ((State.pickFree n l s).2.dom d).var_ = (s.dom d).var_ :=
  (fr_pickFree (fr_refl [.freeCtr] s) n l (fun _ h => h)).kept .domVar (by decide) d

/-- The entry of a slot with its directory as it now reads (R126). -/
def directed (s : State) (d k : Nat) : SlotEntry := { s.slot k with dir := (s.readDir d (s.slot k)).1 }

/-- The granules that the buffers of an entry take: two buffers for a TRAIN slot (R129, log 139). -/
def granulesNeeded (e : SlotEntry) : Nat := if e.train then 2 * e.granuleCount else e.granuleCount

/-- The entry of a slot that loads into the granules gs. -/
def loadingEntry (e : SlotEntry) (gs : List Nat) : SlotEntry :=
  { e with state := .loading, granules := e.granuleCount, gran0 := gs.take e.granuleCount, gran1 := gs.drop e.granuleCount,
           buf1Written := [] }

/-- The state after LOAD: granules drawn from those that are free, the slot LOADING, and the load in the queue. -/
def loadQueued (s : State) (d k : Nat) : State :=
  let e := directed s d k
  let p := State.pickFree (granulesNeeded e) (s.freeGranules d) s
  (p.2.putSlot k (loadingEntry e p.1)).queueCooper d k .load e.imageBytes false

theorem loadSlot_of_fits {s : State} {d k : Nat} (hs : (s.slot k).state = .held) (hp : (s.readDir d (s.slot k)).2 = false)
    (hr : s.inRange d (s.slot k).home 256 = true) (hd : s.dirOk d (directed s d k) = true)
    (hc : granulesNeeded (directed s d k) ≤ s.cacheFree d) : s.loadSlot d k = (loadQueued s d k).varSays k 0x01 := by
  have hbad : ¬ ((s.readDir d (s.slot k)).2 = true ∨ (!s.inRange d (s.slot k).home 256) = true ∨ (!s.dirOk d (directed s d k)) = true) := by
    simp [hp, hr, hd]
  exact (if_neg (not_not.2 hs)).trans ((if_neg hbad).trans (if_neg (Nat.not_lt.2 hc)))

theorem stageSlot_of_fits {s : State} {d c k : Nat} (ha : s.arg c pVar 0 < 65536) (hs : (s.slot k).state = .live)
    (hm : BitVec.ofNat 16 (s.arg c pVar 0) &&& ~~~ (s.slot k).projMask = 0)
    (hf : (s.slot k).stageUnits (BitVec.ofNat 16 (s.arg c pVar 0) &&& ~~~ s.stageClaimed d k) ≤ s.stageFree d) :
    s.stageSlot d c k = (s.queueCooper d k (.stage (BitVec.ofNat 16 (s.arg c pVar 0)))
      (((projsOf (BitVec.ofNat 16 (s.arg c pVar 0))).map (s.slot k).stagedBytes).sum) false).varSays k 0x01 :=
  (if_neg (Nat.not_le.2 ha)).trans ((if_neg (not_not.2 hs)).trans ((if_neg (not_not.2 hm)).trans (if_neg (Nat.not_lt.2 hf))))

theorem flushSlot_of_live {s : State} (d : Nat) {k : Nat} (hs : (s.slot k).state = .live) :
    s.flushSlot d k = (s.queueCooper d k .writeBack (s.slot k).imageBytes false).varSays k 0x01 :=
  if_neg (not_not.2 hs)

theorem loadQueued_step (s : State) (d c k : Nat) : VarStep d c k s (loadQueued s d k) :=
  (VarStep.pickFree d c k s _ _).trans ((VarStep.putSlot d c k _ _).trans (.queueCooper ..))

/-- Settles O8: what each command queues, and that it changes nothing else. -/
theorem loadStageFlushQueueWork : Obligations.LoadStageFlushQueueWork := by
  unfold Obligations.LoadStageFlushQueueWork
  intro s v posted slot gen h d k e le g gs mask
  refine ⟨fun hs hp hr hd hc => ?load, fun hs ha hm hf => ?stage, fun hs => ?flush⟩
  case load =>
    refine ⟨_, exec_load_says h (loadSlot_of_fits hs hp hr hd hc),
      (loadQueued_step ..).leaves 0x01 2, ?_, ?_⟩
    · rw [postResult_slot]
      exact slot_putSlot_self ..
    · rw [postResult_dom_var_, loadQueued, queueCooper_queue, putSlot_dom, pickFree_dom_var_]
      rfl
  case stage =>
    refine ⟨_, exec_stage_says h (stageSlot_of_fits ha hs hm hf),
      (VarStep.queueCooper ..).leaves 0x01 5, postResult_slots .., ?_⟩
    rw [postResult_dom_var_, queueCooper_queue]
  case flush =>
    refine ⟨_, exec_flush_says h (flushSlot_of_live _ hs),
      (VarStep.queueCooper ..).leaves 0x01 10, postResult_slots .., ?_⟩
    rw [postResult_dom_var_, queueCooper_queue]

/-! ## PARK, RELEASE and UNSTAGE (R120, R121, R132, R141) -/

/-- The changes that wait for the latch, in the order in which they are recorded. -/
theorem foldl_defer_atLatch {α : Type} (f : α → LatchAct) (l : List α) (s : State) :
    (l.foldl (fun t a => t.defer (f a)) s).atLatch = s.atLatch ++ l.map f := by
  induction l generalizing s with
  | nil => simp
  | cons a l ih => simp [ih]

theorem parkSlot_of_live {s : State} (d : Nat) {k : Nat} (hs : (s.slot k).state = .live) (hl : s.leaving k = false) :
    s.parkSlot d k = (if (s.slot k).dirty then (s.defer (.slotPark k)).queueCooper d k .writeBack (s.slot k).imageBytes true
      else s.defer (.slotPark k)).varSays k 0x01 :=
  (if_neg (by simp [hs, hl])).trans (if_neg (not_not.2 hs))

theorem releaseSlot_of_live {s : State} {d k : Nat} (hs : (s.slot k).state = .live) (hl : s.leaving k = false)
    (hb : (s.dom d).var_.bound k = false) : s.releaseSlot d k = (s.defer (.slotRelease k)).varSays k 0x01 := by
  simp [State.releaseSlot, hs, hl, hb]

/-- The positions of the domain's expert tables that a slot holds as a parent. -/
def heldPositions (s : State) (d k : Nat) : List (Nat × ExpertPos) :=
  (s.dom d).var_.experts.filter (fun p => p.2.xgen != 0 && p.2.parent == k)

/-- The state after RELEASE of a HELD slot: its positions wait for the latch, and it is FREE. -/
def heldReleased (s : State) (d k : Nat) : State :=
  ((heldPositions s d k).foldl (fun t p => t.defer (.expertFree d p.1)) s).putSlot k { gen := (s.slot k).gen }

theorem releaseSlot_of_held {s : State} {d k : Nat} (hs : (s.slot k).state = .held) (hl : s.leaving k = false)
    (hb : (s.dom d).var_.bound k = false) : s.releaseSlot d k = (heldReleased s d k).varSays k 0x00 := by
  simp [State.releaseSlot, heldReleased, heldPositions, hs, hl, hb]

theorem heldReleased_step (s : State) (d c k : Nat) : VarStep d c k s (heldReleased s d k) :=
  (VarStep.foldl d c k s (fun t _ => .defer d c k t _) _).trans (.putSlot ..)

theorem unstageSlot_of_live {s : State} {c k : Nat} (hs : (s.slot k).state = .live) (ha : s.arg c pVar 0 < 65536) :
    s.unstageSlot c k = (s.defer (.unstage k (BitVec.ofNat 16 (s.arg c pVar 0)))).varSays k 0x01 :=
  (if_neg (Nat.not_le.2 ha)).trans (if_neg (not_not.2 hs))

/-- Settles O9: what each command leaves to the latch, and that it changes nothing else. -/
theorem parkReleaseUnstageWaitForLatch : Obligations.ParkReleaseUnstageWaitForLatch := by
  unfold Obligations.ParkReleaseUnstageWaitForLatch
  intro s v posted slot gen h d k e a0
  refine ⟨fun hs hl => ?park, fun hs hl hb => ?release, fun hs hl hb => ?held, fun hs ha => ?unstage⟩
  case park =>
    have hpark := exec_park_says h (parkSlot_of_live _ hs hl)
    have deferred := VarStep.defer d (s.viewCopy v pVar) k s (.slotPark k)
    by_cases hd : e.dirty = true
    · rw [if_pos hd] at hpark
      refine ⟨_, hpark, (deferred.trans (.queueCooper ..)).leaves 0x01 3, postResult_slots .., postResult_atLatch .., ?_⟩
      rw [if_pos hd, postResult_dom_var_, queueCooper_queue, defer_dom]
    · rw [if_neg hd] at hpark
      refine ⟨_, hpark, deferred.leaves 0x01 3, postResult_slots .., postResult_atLatch .., ?_⟩
      rw [if_neg hd, postResult_dom_var_, defer_dom, List.append_nil]
  case release =>
    exact ⟨_, exec_release_says h (releaseSlot_of_live hs hl hb),
      (VarStep.defer ..).leaves 0x01 4, postResult_slots .., postResult_atLatch ..⟩
  case held =>
    refine ⟨_, exec_release_says h (releaseSlot_of_held hs hl hb),
      (heldReleased_step ..).leaves 0x00 4, ?_, ?_⟩
    · rw [postResult_slot]
      exact slot_putSlot_self ..
    · rw [postResult_atLatch]
      exact foldl_defer_atLatch (fun p : Nat × ExpertPos => .expertFree d p.1) _ s
  case unstage =>
    exact ⟨_, exec_unstage_says h (unstageSlot_of_live hs ha),
      (VarStep.defer ..).leaves 0x01 6, postResult_slots .., postResult_atLatch ..⟩

/-! ## QUERY (R119, R124) -/

/-- Argument registers written in order from n on: those words there, and every other register as before. -/
theorem arg_foldl_putArg (c page : Nat) (ws : List W64) {i : Nat} (hi : i < 8) : ∀ (n : Nat) (s : State),
    ((ws.zipIdx n).foldl (fun t p => t.putArg c page p.2 p.1) s).arg c page i =
      if n ≤ i ∧ i < n + ws.length then (ws.getD (i - n) 0).toNat else s.arg c page i := by
  induction ws with
  | nil => exact fun n s => (if_neg fun h => absurd (Nat.lt_of_le_of_lt h.1 h.2) (Nat.lt_irrefl n)).symm
  | cons w ws ih =>
    intro n s
    rw [List.zipIdx_cons, List.foldl_cons, ih, arg_putArg _ _ _ _ _ _ hi, List.length_cons]
    by_cases h : n + 1 ≤ i ∧ i < n + 1 + ws.length
    · rw [if_pos h, if_pos (by omega), show i - n = i - (n + 1) + 1 by omega, List.getD_cons_succ]
    · rw [if_neg h]
      by_cases he : i = n
      · subst he
        rw [if_pos rfl, if_pos (by omega), Nat.sub_self, List.getD_cons_zero]
      · rw [if_neg he, if_neg (by omega)]

/-- The state with the entry of slot k in the argument registers of a pair. -/
def queried (s : State) (d c k : Nat) : State :=
  ((slotWords (s.slot k) d).zipIdx).foldl (fun t p => t.putArg c pVar p.2 p.1) s

theorem querySlot_of_granted {s : State} {d k : Nat} (c : Nat) (hg : s.granted d k = true) :
    s.querySlot d c k = (queried s d c k).varSays k 0x00 :=
  if_neg (by simp [hg])

theorem queried_step (s : State) (d c k : Nat) : VarStep d c k s (queried s d c k) :=
  .foldl d c k s (fun t (p : W64 × Nat) => .putArg d c k t p.2 p.1) _

theorem queried_slots (s : State) (d c k : Nat) : (queried s d c k).slots = s.slots :=
  foldl_keeps (fun t : State => t.slots = s.slots) (fun t (p : W64 × Nat) => t.putArg c pVar p.2 p.1) (fun _ _ h => h) _ rfl

theorem queried_arg (s : State) (d c k : Nat) {i : Nat} (hi : i < 8) :
    (queried s d c k).arg c pVar i = if i < 4 then ((slotWords (s.slot k) d).getD i 0).toNat else s.arg c pVar i := by
  rw [queried, arg_foldl_putArg _ _ _ hi]
  simp [slotWords]

/-- A number below 2^64 is the value of its word. -/
theorem w64_toNat {n : Nat} (h : n < 2 ^ 64) : (w64 n).toNat = n := Nat.mod_eq_of_lt h

theorem exec_varQuery_says {s t : State} {v : View} {posted : Bool} {slot : BitVec 14} {st : Nat} (gen : W16)
    (h : Ready s v pVar posted) (hf : s.querySlot (s.viewDom v pVar) (s.viewCopy v pVar) slot.toNat = t.varSays slot.toNat st) :
    exec (.varQuery v posted slot gen 0) s = .next (varPosted t (s.viewCopy v pVar) slot.toNat st 7) :=
  congrArg Host.Outcome.next (varCmd_says h 7 hf)

/-- Settles O10: the four words of the entry fit their registers. -/
theorem varQueryReturnsEntry : Obligations.VarQueryReturnsEntry := by
  unfold Obligations.VarQueryReturnsEntry
  intro s v posted slot gen hr d e hg
  have harg {i : Nat} (hi : i < 8) : (varPosted (queried s d (s.viewCopy v pVar) slot.toNat) (s.viewCopy v pVar) slot.toNat 0 7).arg
      (s.viewCopy v pVar) pVar i = if i < 4 then ((slotWords e d).getD i 0).toNat else s.arg (s.viewCopy v pVar) pVar i :=
    (arg_postResult ..).trans (queried_arg s d _ _ hi)
  refine ⟨_, exec_varQuery_says gen hr (querySlot_of_granted _ hg), (queried_step ..).leaves 0x00 7,
    (postResult_slots ..).trans (queried_slots ..), ?_, ?_, ?_, ?_, fun i h4 h8 => (harg h8).trans (if_neg (Nat.not_lt.2 h4))⟩
  all_goals
    refine (harg (by decide)).trans ((if_pos (by decide)).trans (w64_toNat ?_))
    simp only [fld, Nat.shiftLeft_eq]
    omega

/-! ## Expert tables (R138, R139, R141) -/

/-- An entry that passes every check of R139. -/
structure EntryPasses (s : State) (d layer : Nat) (x : ExpertArg) : Prop where
  granted : s.granted d x.xslot = true
  gen : (s.slot x.xslot).gen = x.xgen
  expert : (s.slot x.xslot).expert = true
  claimed : (s.slot x.xslot).state ≠ .free
  unbound : (s.dom d).var_.bound x.xslot = false
  vacant : ((s.dom d).var_.pos layer x.pos).xgen = 0
  posGen : ((s.dom d).var_.pos layer x.pos).posGen = x.posGen

theorem expertFails_of_passes {s : State} {d layer : Nat} {x : ExpertArg} (h : EntryPasses s d layer x) (g : W16) (i : Nat)
    (r : List ExpertArg) : s.expertFails d layer g i (x :: r) = s.expertFails d layer g (i + 1) r := by
  obtain ⟨h1, h2, h3, h4, h5, h6, h7⟩ := h
  rw [State.expertFails]
  simp [h1, h2, h3, h4, h5, h6, h7]

/-- The binding that an entry makes of its position, for a parent slot. -/
def boundPos (x : ExpertArg) (parent : Nat) : ExpertPos :=
  { xslot := x.xslot, xgen := x.xgen, parent := parent, posGen := nextGen x.posGen, pending := true }

/-- The state in which an entry of a layer is bound and its binding waits for the latch. -/
def entryBound (s : State) (d layer parent : Nat) (x : ExpertArg) : State :=
  (s.updDom d (fun y => { y with var_ := { y.var_ with
    experts := mapSet y.var_.experts (64 * layer + x.pos) (boundPos x parent) } })).defer (.expertBind d (64 * layer + x.pos))

/-- The count of entries and the reserved bits of VAR_ARG0, where bits 63 to 8 are clear. -/
theorem expertClaim_fields {a : Nat} (h : bitsOf a 8 56 = 0) : bitsOf a 8 2 = 0 ∧ bitsOf a 10 54 = 0 := by
  simp only [bitsOf, Nat.shiftRight_eq_div_pow] at h ⊢
  omega

theorem expertClaim_of_passes {s : State} {d c k : Nat} {gen : W16} {a0 : Nat} (ha : s.arg c pVar 0 = a0) {x : ExpertArg}
    (hx : expertArgOf (s.arg c pVar 1) = x) (hg : s.granted d k = true) (hn : (s.slot k).gen = gen)
    (he : (s.slot k).expert = false) (hf : (s.slot k).state ≠ .free) (hr : (s.slot k).state ≠ .releasing) (h0 : bitsOf a0 8 56 = 0)
    (hv : x.rsv = 0) (hl : bitsOf a0 0 8 < s.moeLayers)
    (h4 : ((s.dom d).var_.experts.filter (fun q => q.1 / 64 == bitsOf a0 0 8 && q.2.xgen != 0 && q.2.parent == k)).length < 4)
    (hp : EntryPasses s d (bitsOf a0 0 8) x) :
    s.expertClaim d c k gen = (entryBound s d (bitsOf a0 0 8) k x).varSays k 0x00 := by
  obtain ⟨hc, hz⟩ := expertClaim_fields h0
  subst ha hx
  have hfit : ¬ 4 < ((s.dom d).var_.experts.filter (fun q => q.1 / 64 == bitsOf (s.arg c pVar 0) 0 8 && q.2.xgen != 0 &&
      q.2.parent == k)).length + 1 := by omega
  unfold State.expertClaim
  simp only [hc, List.range_one, List.map_cons, List.map_nil, Nat.zero_add, expertFails_of_passes hp, State.expertFails]
  rw [if_neg (by simp [hg]), if_neg (not_not.2 hn), if_neg (by simp [he, hf, hr]), if_neg (by simp [hz, hv, expertClash, hl]),
    if_neg hfit]
  rfl

theorem expertRelease_of_current {s : State} {d c : Nat} (h : bitsOf (s.arg c pVar 0) 30 34 = 0)
    (hn : ((s.dom d).var_.pos (bitsOf (s.arg c pVar 0) 0 8) (bitsOf (s.arg c pVar 0) 8 6)).posGen.toNat = bitsOf (s.arg c pVar 0) 14 16) :
    s.expertRelease d c = (s.defer (.expertFree d (64 * bitsOf (s.arg c pVar 0) 0 8 + bitsOf (s.arg c pVar 0) 8 6)), 0x00, 0,
      ((s.dom d).var_.pos (bitsOf (s.arg c pVar 0) 0 8) (bitsOf (s.arg c pVar 0) 8 6)).posGen) :=
  (if_neg (not_not.2 h)).trans (if_neg (not_not.2 hn))

theorem exec_expertClaim_says {s t : State} {v : View} {posted : Bool} {slot : BitVec 14} {gen : W16} {st : Nat}
    (h : Ready s v pVar posted) (hf : s.expertClaim (s.viewDom v pVar) (s.viewCopy v pVar) slot.toNat gen = t.varSays slot.toNat st) :
    exec (.expertClaim v posted slot gen 0) s = .next (varPosted t (s.viewCopy v pVar) slot.toNat st 8) :=
  congrArg Host.Outcome.next (varCmd_says h 8 hf)

theorem exec_expertRelease_answers {s t : State} {v : View} {posted : Bool} (slot : BitVec 14) (gen : W16) {st : Nat} {g : W16}
    (h : Ready s v pVar posted) (hf : s.expertRelease (s.viewDom v pVar) (s.viewCopy v pVar) = (t, st, 0, g)) :
    exec (.expertRelease v posted slot gen 0) s = .next (t.postResult (s.viewCopy v pVar) pVar (varWord st 9 0 g slot.toNat)) := by
  refine congrArg Host.Outcome.next ((varCmd_ready h 9 slot.toNat (fun d c u => u.expertRelease d c)).trans ?_)
  simp only [hf]

/-- Settles O11: a claim of one entry binds it, a release at the position's generation waits; both leave the rest to the latch. -/
theorem expertPositionsChangeAtLatch : Obligations.ExpertPositionsChangeAtLatch := by
  unfold Obligations.ExpertPositionsChangeAtLatch
  intro s v posted slot gen hr d c a0 layer x p
  refine ⟨fun hg hn he hf hq h0 hv hl h4 h1 h2 h3 h5 h6 h7 h8 => ?claim, fun h0 hn => ?release⟩
  case claim =>
    refine ⟨_, exec_expertClaim_says hr (expertClaim_of_passes rfl rfl hg hn he hf hq h0 hv hl h4 ⟨h1, h2, h3, h5, h6, h7, h8⟩),
      ((VarStep.updDom ..).trans (.defer ..)).leaves 0x00 8, postResult_slots .., postResult_atLatch .., ?_⟩
    rw [postResult_dom_var_, entryBound, defer_dom, dom_updDom_self, boundPos, nextGen_eq]
  case release =>
    exact ⟨_, exec_expertRelease_answers slot gen hr (expertRelease_of_current h0 hn), postResult_slots .., answered_postResult ..,
      postResult_atLatch .., ((VarStep.defer d c 0 s _).trans (.postResult ..)).pair⟩

/-! ## Ends of Cooper's work (R120, R121, R132) -/

/-- PARKING that ends drops what still waits for the slot's staged copies, along with its items in the queue. -/
theorem parkDone_atLatch {s : State} {slot : BitVec 14} {d : Nat} (ho : s.slotOwner slot.toNat = some d)
    (hs : (s.slot slot.toNat).state = .parking) (hc : (s.slot slot.toNat).refCur = 0) (hp : (s.slot slot.toNat).refOld = 0)
    (hd : (s.slot slot.toNat).dirty = false) :
    ∃ t, exec (.parkDone slot) s = .next t ∧ t.atLatch = s.atLatch.filter (fun a => !a.stages slot.toNat) := by
  refine ⟨((s.dropItems d slot.toNat).updSlot slot.toNat (fun y => { y.emptied with state := .held })).raiseDom pVar 2 d,
    congrArg Host.Outcome.next ?_, raiseDom_atLatch ..⟩
  simp only [ho]
  exact if_pos ⟨hs, hc, hp, by simp [hd]⟩

/-- Domain 1 with a PARKING slot 11 that no batch reads and that has nothing to write back. -/
def parkingSlot (queue : List CoopItem) (waits : List LatchAct) : State :=
  { doms := [(1, { phase := .active, rec_ := { slotFirst := 10, slotCount := 4 }, var_ := { queue := queue } })],
    slots := [(11, { state := .parking, gen := 1 })], atLatch := waits }

/-- The slot after a stage of its projection 0 has ended: the copy waits for the plan latch (R121). -/
def stagedParking : State := parkingSlot [] [.staged 11 1 0 [(0, [])]]

/-- A stage whose bytes are carried while the slot is PARKING leads to `stagedParking`. -/
theorem stageComplete_parkingSlot :
    exec (.stageComplete 11) (parkingSlot [{ kind := .stage 1, slot := 11, left := 0 }] []) = .next stagedParking := rfl

/-- Refutes O12: in `stagedParking` the end of PARKING drops the staged copy that waits for the latch, and the statement has
everything that waits there kept. -/
theorem not_cooperWorkEnds : ¬ Obligations.CooperWorkEnds := by
  unfold Obligations.CooperWorkEnds
  intro h
  obtain ⟨-, -, hparking, -⟩ := h stagedParking 11 1 (by decide)
  obtain ⟨t, ht, -, -, -, hkept, -⟩ := hparking (by decide) (by decide) (by decide) (by decide)
  obtain ⟨u, hu, hdropped⟩ := parkDone_atLatch (s := stagedParking) (slot := 11) (d := 1) (by decide) (by decide) (by decide)
    (by decide) (by decide)
  cases ht.symm.trans hu
  exact absurd (hdropped.symm.trans hkept) (by decide)

/-! ## Frames of the commands of VAR, KVP, BAS and TIR (R123) -/

/-- Settles O13: the frame of each command of the VAR page and of each end of Cooper's work, with its list inside the one stated. -/
theorem variantCommandsKeepTheRest : Obligations.VariantCommandsKeepTheRest := by
  unfold Obligations.VariantCommandsKeepTheRest
  intro s v posted slot gen rsv
  have same := fun L => fr_refl L s
  exact ⟨fr_execClaim (same _) v posted slot gen rsv (by decide),
    fr_execLoad (same _) v posted slot gen rsv (by decide),
    fr_execPark (same _) v posted slot gen rsv (by decide),
    fr_execRelease (same _) v posted slot gen rsv (by decide),
    fr_execStage (same _) v posted slot gen rsv (by decide),
    fr_execUnstage (same _) v posted slot gen rsv (by decide),
    fr_execVarQuery (same _) v posted slot gen rsv (by decide),
    fr_execFlush (same _) v posted slot gen rsv (by decide),
    fr_execExpertClaim (same _) v posted slot gen rsv (by decide),
    fr_execExpertRelease (same _) v posted slot gen rsv (by decide),
    fr_execLoadComplete (same _) slot (by decide),
    fr_execLoadFailed (same _) slot (by decide),
    fr_execParkDone (same _) slot (by decide),
    fr_execReleaseDone (same _) slot (by decide),
    fr_execStageComplete (same _) slot (by decide)⟩

/-- Settles O25: the frame of each command of the KVP, BAS and TIR pages and of each end of the flash port's work, with its list
inside the one stated. -/
theorem kvBaseTierCommandsKeepTheRest : Obligations.KvBaseTierCommandsKeepTheRest := by
  unfold Obligations.KvBaseTierCommandsKeepTheRest
  intro s
  have same := fun L => fr_refl L s
  exact ⟨fun v posted seq rsv => fr_execSeqOpen (same _) v posted seq rsv (by decide),
    fun v posted seq rsv => fr_execSeqClose (same _) v posted seq rsv (by decide),
    fun v posted seq rsv => fr_execKvpCommit (same _) v posted seq rsv (by decide),
    fun v posted seq rsv => fr_execKvpQuery (same _) v posted seq rsv (by decide),
    fun v posted seq rsv => fr_execSetDrop (same _) v posted seq rsv (by decide),
    fun v value => fr_execKvpGeomWrite (same _) v value (by decide),
    fun v posted of rsv => fr_execBuild (same _) v posted of rsv (by decide),
    fun v posted copy rsv => fr_execSwitch (same _) v posted copy rsv (by decide),
    fun v posted copy rsv => fr_execAbort (same _) v posted copy rsv (by decide),
    fun v posted copy rsv => fr_execBasStage (same _) v posted copy rsv (by decide),
    fun v posted copy rsv => fr_execBasUnstage (same _) v posted copy rsv (by decide),
    fun v posted copy rsv => fr_execBasQuery (same _) v posted copy rsv (by decide),
    fun v posted page count rsv => fr_execMoveUp (same _) v posted page count rsv (by decide),
    fun v posted page count rsv => fr_execEvict (same _) v posted page count rsv (by decide),
    fun v posted page count rsv => fr_execPin (same _) v posted page count rsv (by decide),
    fun v posted page count rsv => fr_execUnpin (same _) v posted page count rsv (by decide),
    fun v posted page count rsv => fr_execTirQuery (same _) v posted page count rsv (by decide),
    fun v posted page count rsv => fr_execDiscard (same _) v posted page count rsv (by decide),
    fun v posted page count rsv => fr_execRelocate (same _) v posted page count rsv (by decide),
    fun v posted page count rsv => fr_execFlushExtent (same _) v posted page count rsv (by decide),
    fun d => fr_execFlushIssue (same _) d (by decide),
    fun d ok => fr_execFlushDone (same _) d ok (by decide),
    fun d page returned nowNs => fr_execPageReadDone (same _) d page returned nowNs (by decide),
    fun d page => fr_execPageWriteDone (same _) d page (by decide),
    fun d work stallNs => fr_execNvmeCommandFail (same _) d work stallNs (by decide),
    fun d work stallNs => fr_execNvmeTimeout (same _) d work stallNs (by decide),
    fun link => fr_execNvmeLinkDown (same _) link (by decide),
    fun link speed width => fr_execRootPortLinkUp (same _) link speed width (by decide)⟩

end Sys2Proof.Proofs

/-! Writes of the PF for a domain (R153, R269, R304, R319, R321, R375, R521): what each operation of Machine/Regs.lean leaves to the plan latch, refuses with CFG_REJECT or ignores, and from them the statement on these writes. -/

namespace Sys2Proof.Proofs

open Sys2Proof.Machine Sys2Proof.Safety Sys2Proof.Laws

section DomainSettings

variable {s : State} {v : View}

/-! ## The view's guard, and a refused write -/

/-- The PF's view shows page p. -/
def ShowsPf (s : State) (v : View) (p : Nat) : Prop := s.shows v p = true ∧ isPf v = true

/-- The guard with which each of these operations begins lets the PF's view pass. -/
theorem not_guard_of_showsPf {p : Nat} (h : ShowsPf s v p) : ¬ (!s.shows v p || !isPf v) = true := by
  simp [h.1, h.2]

theorem guard_of_not_showsPf {p : Nat} (h : ¬ ShowsPf s v p) : (!s.shows v p || !isPf v) = true := by
  simpa [ShowsPf, Classical.or_iff_not_imp_left] using h

/-- A write that is refused for domain d moves nothing but events, and leaves its own in the views of d while d takes events (R512). -/
def RefusedFor (s t : State) (p b d : Nat) : Prop :=
  Frame (withEvents []) s t ∧ (s.live d = true → EventIn t (domCopies p b d) p b)

theorem raiseDom_refuses {t : State} {p b d : Nat} (h : t = s.raiseDom p b d) (hb : b < 32) : RefusedFor s t p b d := by
  rw [h]
  exact ⟨raiseDom_frame s p b d, raiseDom_event s p b d hb⟩

/-- What a setting comes to over all domains but d. -/
def othersSum (s : State) (d : Nat) (g : Nat → Nat) : Nat := (s.doms.map (fun p => if p.1 = d then 0 else g p.1)).sum

/-! ## The weight and the slots of a plan (R319, R321) -/

theorem writeShare_of_pf (h : ShowsPf s v pTik) (w : Nat) :
    s.writeShare v w =
      if bitsOf w 0 10 = 0 ∨ s.tik.wCap < (s.otherShares (s.viewDom v pTik)).1 + bitsOf w 0 10 then
        s.raiseDom pTik 0 (s.viewDom v pTik)
      else s.defer (.weight (s.viewDom v pTik) (bitsOf w 0 10)) :=
  if_neg (not_guard_of_showsPf h)

theorem writeShare_ignored (h : ¬ ShowsPf s v pTik) (w : Nat) : s.writeShare v w = s := if_pos (guard_of_not_showsPf h)

theorem writePlanSlots_of_pf (h : ShowsPf s v pTik) (w : Nat) :
    s.writePlanSlots v w =
      if 4096 < othersSum s (s.viewDom v pTik) s.dueSlots + bitsOf w 0 13 then s.raiseDom pTik 0 (s.viewDom v pTik)
      else s.defer (.slots (s.viewDom v pTik) (bitsOf w 0 13)) :=
  if_neg (not_guard_of_showsPf h)

theorem writePlanSlots_ignored (h : ¬ ShowsPf s v pTik) (w : Nat) : s.writePlanSlots v w = s := if_pos (guard_of_not_showsPf h)

/-! ## The memory rates (R269, R521) -/

/-- Domain d is a tenant that is SCRUBBING, or one that holds its resources and would be left with RATE 0 (R521). -/
def TenantStops (s : State) (d rate : Nat) : Prop :=
  d ≠ 0 ∧ ((s.dom d).phase = .scrubbing ∨ ((s.dom d).phase ≠ .free ∧ rate = 0))

/-- The totals over all domains keep R269 with these rates for domain d. -/
def ratesFit (s : State) (d rate rateT : Nat) : Bool := s.ratesOk ((s.otherShares d).2.1 + rate) ((s.otherShares d).2.2 + rateT)

open Classical in
theorem writeRates_of_pf (h : ShowsPf s v 0x10) (w : Nat) :
    s.writeRates v w =
      if TenantStops s (s.viewDom v 0x10) (bitsOf w 0 9) ∨ ratesFit s (s.viewDom v 0x10) (bitsOf w 0 9) (bitsOf w 16 7) = false then
        s.rejectRates v (s.viewDom v 0x10)
      else s.defer (.rates (s.viewDom v 0x10) (bitsOf w 0 9) (bitsOf w 16 7)) := by
  rw [ite_or]
  exact (if_neg (not_guard_of_showsPf h)).trans (if_congr Iff.rfl rfl (if_congr (iff_of_eq (Bool.not_eq_true' _)) rfl rfl))

theorem writeRates_ignored (h : ¬ ShowsPf s v 0x10) (w : Nat) : s.writeRates v w = s := if_pos (guard_of_not_showsPf h)

theorem rejectRates_of_live {d : Nat} (h : s.live d = true) : s.rejectRates v d = s.raiseDom 0x10 0 d := if_pos h

/-- A domain that takes no events has CFG_REJECT in the writer's copy alone (log 150). -/
theorem rejectRates_of_not_live {d : Nat} (h : s.live d = false) : s.rejectRates v d = s.raiseCopy 0x10 0 (s.viewCopy v 0x10) :=
  if_neg (Bool.eq_false_iff.1 h)

theorem rejectRates_refuses (s : State) (v : View) (d : Nat) : RefusedFor s (s.rejectRates v d) 0x10 0 d := by
  cases h : s.live d with
  | true => exact raiseDom_refuses (rejectRates_of_live h) (by decide)
  | false =>
    rw [rejectRates_of_not_live h]
    exact ⟨raiseCopy_frame .., fun hl => Bool.noConfusion (h.symm.trans hl)⟩

theorem rejectRates_event {d : Nat} (h : s.live d = false) : EventIn (s.rejectRates v d) [s.viewCopy v 0x10] 0x10 0 := by
  intro c hc
  rw [List.mem_singleton.1 hc, rejectRates_of_not_live h]
  exact raiseCopy_event _ _ _ _ (by decide)

/-! ## The flash rates (R304) -/

/-- Both sums over all domains stay within the port's 112 with these rates for domain d. -/
def FlashFits (s : State) (d rd wr : Nat) : Prop :=
  othersSum s d (fun e => (s.dueFlashRate e).1) + rd ≤ 112 ∧ othersSum s d (fun e => (s.dueFlashRate e).2) + wr ≤ 112

open Classical in
theorem writeFlashRate_of_pf (h : ShowsPf s v pTir) (w : Nat) :
    s.writeFlashRate v w =
      if FlashFits s (s.viewDom v pTir) (bitsOf w 0 7) (bitsOf w 7 7) then
        s.defer (.flashRate (s.viewDom v pTir) (bitsOf w 0 7) (bitsOf w 7 7))
      else s.raiseDom pTir 4 (s.viewDom v pTir) := by
  refine (if_neg (not_guard_of_showsPf h)).trans ((if_congr ?_ rfl rfl).trans (ite_not ..))
  rw [FlashFits, not_and_or, Nat.not_le, Nat.not_le]
  rfl

theorem writeFlashRate_ignored (h : ¬ ShowsPf s v pTir) (w : Nat) : s.writeFlashRate v w = s := if_pos (guard_of_not_showsPf h)

/-! ## The partition tag (R375) -/

/-- Another domain than d holds the tag, or is to hold it from the latch on. -/
def TagHeld (s : State) (d tag : Nat) : Prop :=
  tag ≠ 0xFFFF ∧ ∃ q ∈ s.doms, q.1 ≠ d ∧ (q.2.col.ptag = tag ∨ (s.duePtag q.1).1 = tag)

open Classical in
theorem writePtag_of_pf (h : ShowsPf s v pCol) (w : Nat) :
    s.writePtag v w =
      if TagHeld s (s.viewDom v pCol) (bitsOf w 0 16) then s.raiseDom pCol 2 (s.viewDom v pCol)
      else s.defer (.ptag (s.viewDom v pCol) (bitsOf w 0 16) (bitOf w 16) (bitOf w 17)) := by
  exact (if_neg (not_guard_of_showsPf h)).trans (if_congr (by simp [TagHeld]) rfl rfl)

theorem writePtag_ignored (h : ¬ ShowsPf s v pCol) (w : Nat) : s.writePtag v w = s := if_pos (guard_of_not_showsPf h)

/-! ## The retention banks (R153) -/

/-- Domain d holds n banks from f on, beyond its staging banks; none are always held. -/
def BanksHeld (s : State) (d f n : Nat) : Prop :=
  n = 0 ∨ ((s.dom d).rec_.bankFirst + (s.dom d).rec_.nsb ≤ f ∧ f + n ≤ (s.dom d).rec_.bankFirst + (s.dom d).rec_.banks)

/-- The PF's write of retention banks is taken: no batch is open, and the domain holds the banks. -/
def RetainTaken (s : State) (d f n : Nat) : Prop := (!(s.dom d).batches.isEmpty) = false ∧ BanksHeld s d f n

open Classical in
theorem writeRetain_of_pf (h : ShowsPf s v pUpd) (w : Nat) :
    s.writeRetain v w =
      if RetainTaken s (s.viewDom v pUpd) (bitsOf w 0 7) (bitsOf w 7 7) then
        s.defer (.retain (s.viewDom v pUpd) (bitsOf w 0 7) (bitsOf w 7 7))
      else s := by
  obtain ⟨hs, hpf⟩ := h
  refine (ite_or ..).symm.trans ((if_congr ?_ rfl rfl).trans (ite_not ..))
  simp [RetainTaken, BanksHeld, hs, hpf, imp_iff_not_or]

theorem writeRetain_ignored (h : ¬ ShowsPf s v pUpd) (w : Nat) : s.writeRetain v w = s := by
  refine if_pos ?_
  rw [guard_of_not_showsPf h, Bool.true_or]

end DomainSettings

/-- Settles O54: each clause from the lemma on its operation. -/
theorem domainSettingsWaitForLatch : Obligations.DomainSettingsWaitForLatch := by
  unfold Obligations.DomainSettingsWaitForLatch
  intro s v w
  refine ⟨fun h => ⟨fun ok => ?weight, fun no => ?badWeight, fun ok => ?slots, fun no => ?badSlots⟩,
    fun h => ⟨fun ok fit => ?rates, fun no => ?badRates⟩, fun h => ⟨fun ok => ?flash, fun no => ?badFlash⟩,
    fun h => ⟨fun ok => ?tag, fun no => ?badTag⟩, fun h => ⟨fun hb ok => ?banks, fun no => ?badBanks⟩,
    fun h => ⟨congrArg _ (writeShare_ignored h w.toNat), congrArg _ (writePlanSlots_ignored h w.toNat)⟩,
    fun h => congrArg _ (writeRates_ignored h w.toNat), fun h => congrArg _ (writeFlashRate_ignored h w.toNat),
    fun h => congrArg _ (writePtag_ignored h w.toNat), fun h => congrArg _ (writeRetain_ignored h w.toNat)⟩
  case weight => exact congrArg _ ((writeShare_of_pf h w.toNat).trans (if_neg (not_or_intro ok.1 (Nat.not_lt.2 ok.2))))
  case badWeight => exact ⟨_, rfl, raiseDom_refuses ((writeShare_of_pf h w.toNat).trans (if_pos no)) (by decide)⟩
  case slots => exact congrArg _ ((writePlanSlots_of_pf h w.toNat).trans (if_neg (Nat.not_lt.2 ok)))
  case badSlots => exact ⟨_, rfl, raiseDom_refuses ((writePlanSlots_of_pf h w.toNat).trans (if_pos no)) (by decide)⟩
  case rates =>
    exact congrArg _ ((writeRates_of_pf h w.toNat).trans (if_neg (not_or_intro ok (ne_true_of_eq_false · fit))))
  case badRates =>
    have he := (writeRates_of_pf h w.toNat).trans (if_pos no)
    exact ⟨⟨_, congrArg Host.Outcome.next he, rejectRates_refuses s v _⟩, fun dead => ⟨_, congrArg Host.Outcome.next he, rejectRates_event dead⟩⟩
  case flash => exact congrArg _ ((writeFlashRate_of_pf h w.toNat).trans (if_pos ok))
  case badFlash => exact ⟨_, rfl, raiseDom_refuses ((writeFlashRate_of_pf h w.toNat).trans (if_neg no)) (by decide)⟩
  case tag => exact congrArg _ ((writePtag_of_pf h w.toNat).trans (if_neg ok))
  case badTag => exact ⟨_, rfl, raiseDom_refuses ((writePtag_of_pf h w.toNat).trans (if_pos no)) (by decide)⟩
  case banks => exact congrArg _ ((writeRetain_of_pf h w.toNat).trans (if_pos ⟨hb, ok⟩))
  case badBanks =>
    have hno : ¬ RetainTaken s (s.viewDom v pUpd) (bitsOf w.toNat 0 7) (bitsOf w.toNat 7 7) := fun ⟨hb, ok⟩ =>
      no.elim (ne_true_of_eq_false hb) (absurd ok)
    exact congrArg _ ((writeRetain_of_pf h w.toNat).trans (if_neg hno))

end Sys2Proof.Proofs

/-! The commands of the KVP page (R205 to R211, R220, R221): what posting a command's result leaves, what the body of each command does in the case that a statement names, and from them the statements on SEQ_OPEN, SEQ_CLOSE, SET_DROP, COMMIT, KVP_GEOM and QUERY. -/

namespace Sys2Proof.Proofs

open Sys2Proof.Machine Sys2Proof.Safety Sys2Proof.Laws

/-! ## The path of a command of the KVP page (R123) -/

/-- A command whose body changed its view's domain and its own pair alone leaves, once posted, no more than that. -/
theorem leaves_postResult {s t : State} {v : View} {page : Nat} (hd : StaysIn (s.viewDom v page) s t)
    (hp : OnlyPair s t (s.viewCopy v page) page) (r : Nat) : Leaves s (t.postResult (s.viewCopy v page) page r) v page r :=
  ⟨answered_postResult .., fun e g h => (pair_postResult_ne _ _ _ _ e g h).trans (hp e g h), (hd.trans (.postResult ..)).only⟩

/-- The state with the result of a command of the KVP page posted. -/
abbrev kvpPosted (t : State) (c seq st op : Nat) : State := t.postResult c pKvp (kvpWord st op seq)

/-- A command that is ready, with no reserved bit set, posts what its body answers. -/
theorem kvpCmd_answers {s t : State} {v : View} {posted : Bool} (h : Ready s v pKvp posted) (op : Nat) {seq st : Nat}
    {f : Nat → Nat → State → State × Nat} (hf : f (s.viewDom v pKvp) (s.viewCopy v pKvp) s = (t, st)) :
    s.kvpCmd v posted op seq 0 f = kvpPosted t (s.viewCopy v pKvp) seq st op := by
  rw [State.kvpCmd, runCmd_ready h]
  simp only [ne_eq, not_true_eq_false, if_false, hf]

section Posted

variable {s t : State} {v : View} {posted : Bool} {seq : W16} {st : Nat} (h : Ready s v pKvp posted)
include h

theorem exec_seqOpen_answers (hf : s.openSeq (s.viewDom v pKvp) (s.viewCopy v pKvp) seq.toNat = (t, st)) :
    exec (.seqOpen v posted seq 0) s = .next (kvpPosted t (s.viewCopy v pKvp) seq.toNat st 1) :=
  congrArg Host.Outcome.next (kvpCmd_answers h 1 (f := fun d c u => u.openSeq d c seq.toNat) hf)

theorem exec_seqClose_named (hn : s.namesSeq (s.viewDom v pKvp) seq.toNat = true) :
    exec (.seqClose v posted seq 0) s = .next (kvpPosted s (s.viewCopy v pKvp) seq.toNat 0x08 2) :=
  congrArg Host.Outcome.next (kvpCmd_answers h 2 (if_pos hn))

theorem exec_seqClose_deferred (hn : s.namesSeq (s.viewDom v pKvp) seq.toNat = false) :
    exec (.seqClose v posted seq 0) s =
      .next (kvpPosted (s.defer (.seqClose (s.viewDom v pKvp) seq.toNat)) (s.viewCopy v pKvp) seq.toNat 0x00 2) :=
  congrArg Host.Outcome.next (kvpCmd_answers h 2 (if_neg (ne_true_of_eq_false hn)))

theorem exec_kvpCommit_answers (hf : s.commitSeq (s.viewDom v pKvp) (s.viewCopy v pKvp) seq.toNat = (t, st)) :
    exec (.kvpCommit v posted seq 0) s = .next (kvpPosted t (s.viewCopy v pKvp) seq.toNat st 3) :=
  congrArg Host.Outcome.next (kvpCmd_answers h 3 (f := fun d c u => u.commitSeq d c seq.toNat) hf)

theorem exec_kvpQuery_answers (hf : s.querySeq (s.viewDom v pKvp) (s.viewCopy v pKvp) seq.toNat = (t, st)) :
    exec (.kvpQuery v posted seq 0) s = .next (kvpPosted t (s.viewCopy v pKvp) seq.toNat st 4) :=
  congrArg Host.Outcome.next (kvpCmd_answers h 4 (f := fun d c u => u.querySeq d c seq.toNat) hf)

theorem exec_setDrop_deferred :
    exec (.setDrop v posted seq 0) s =
      .next (kvpPosted (s.defer (.setDrop (s.viewDom v pKvp) seq.toNat (bitOf (s.arg (s.viewCopy v pKvp) pKvp 0) 0)))
        (s.viewCopy v pKvp) seq.toNat 0x00 5) :=
  congrArg Host.Outcome.next (kvpCmd_answers h 5 rfl)

end Posted

theorem StaysIn.defer (d : Nat) (s : State) (a : LatchAct) : StaysIn d s (s.defer a) :=
  .of_frame d (fr_defer (fr_refl _ s) a (fun _ h => h)) (by decide)

theorem StaysIn.wrMem (d : Nat) (s : State) (a : Nat) (bs : List Byte) : StaysIn d s (s.wrMem d a bs) :=
  ⟨(wrMem_frame s d a bs).ring, wrMem_onlyDom s d a bs⟩

/-! ## SEQ_OPEN (R207, R208, R220) -/

/-- The entry that SEQ_OPEN with arguments a0 and a1 makes of a sequence. -/
def openedEntry (a0 a1 : Nat) : SeqEntry :=
  { state := .active, dropOk := bitOf a1 6, layers := bitsOf a1 0 6 + 1, ptAddr := bitsOf a0 0 48, ptCols := bitsOf a0 48 16,
    wr := List.replicate (bitsOf a1 0 6 + 1) 0, rf := List.replicate (bitsOf a1 0 6 + 1) 0,
    tent := List.replicate (bitsOf a1 0 6 + 1) 0 }

/-- The bytes of an entry's page table (R207). -/
def tableBytes (q : SeqEntry) : Nat := 4 * q.layers * q.ptCols

/-- The state with a sequence opened: its entry stands, and its page table is zeros. -/
def opened (s : State) (d seq : Nat) (q : SeqEntry) : State :=
  (s.updDom d (fun y => y.updSeq seq (fun _ => q))).wrMem d q.ptAddr (List.replicate (tableBytes q) 0)

/-- SEQ_OPEN whose table is aligned, not empty and in range decides on the sequence's state and the pool alone. -/
theorem openSeq_of_good {s : State} {d c seq : Nat} {q : SeqEntry} (hq : openedEntry (s.arg c pKvp 0) (s.arg c pKvp 1) = q)
    (h4 : q.ptAddr % 4 = 0) (hcols : q.ptCols ≠ 0) (hr : s.inRange d q.ptAddr (tableBytes q) = true) :
    s.openSeq d c seq =
      if ((s.dom d).kvp.seq seq).state ≠ .closed then (s, 0x0A)
      else if 32 * (s.dom d).rec_.kvPages < (s.dom d).kvp.heldPages.length + statePages ((s.dom d).kvp.openSeqs + 1) then (s, 0x0C)
      else (opened s d seq q, 0x00) := by
  subst hq
  exact if_neg (not_or_intro (not_not.2 h4) (not_or_intro hcols (fun hn => absurd hr (ne_true_of_eq_false ((Bool.not_eq_true' _).mp hn)))))

/-- A store of zeros where no block is poisoned: they read back, and every other byte is as before. -/
theorem memRead_wrMem_zeros {s : State} {d a n : Nat} (hp : poisonHit (s.dom d).poison 64 a n = false) (b : Nat) :
    memRead ((s.wrMem d a (List.replicate n 0)).dom d).mem b = if a ≤ b ∧ b < a + n then 0 else memRead (s.dom d).mem b := by
  have hlen : (List.replicate n (0 : Byte)).length = n := List.length_replicate
  split
  · next h => rw [wrMem_mem_inside _ _ _ _ _ (by rwa [hlen]) (by rwa [hlen]), List.getD_replicate _ (by omega)]
  · next h => exact wrMem_mem_outside _ _ _ _ _ (by rwa [hlen])

section Opened

variable (s : State) (d seq : Nat) (q : SeqEntry)

theorem opened_staysIn : StaysIn d s (opened s d seq q) := (StaysIn.updDom d s _).trans (.wrMem ..)

theorem opened_pairs : (opened s d seq q).pairs = s.pairs := (wrMem_frame _ d q.ptAddr _).kept .pairs (by decide)

theorem opened_kvp : ((opened s d seq q).dom d).kvp = { (s.dom d).kvp with seqs := mapSet (s.dom d).kvp.seqs seq q } := by
  rw [opened, (wrMem_frame _ d q.ptAddr _).kept .domKvp (by decide) d, dom_updDom_self]
  rfl

theorem opened_mem (hp : poisonHit (s.dom d).poison 64 q.ptAddr (tableBytes q) = false) (a : Nat) :
    memRead ((opened s d seq q).dom d).mem a =
      if q.ptAddr ≤ a ∧ a < q.ptAddr + tableBytes q then 0 else memRead (s.dom d).mem a := by
  rw [opened, memRead_wrMem_zeros (by rwa [dom_updDom_self]), dom_updDom_self]
  rfl

end Opened

/-- Posting a result leaves every byte outside the trace ring (R487). -/
theorem postResult_mem {s t : State} {d a : Nat} (h : StaysIn d s t) (ha : ¬ inRing s d a) (c p r : Nat) :
    memRead ((t.postResult c p r).dom d).mem a = memRead (t.dom d).mem a :=
  (postResult_frame t c p r).kept .domMem (by decide) d a (mt (inRing_congr h.ring d a).1 ha)

/-- Settles O14: a sequence that is not CLOSED keeps the pager; a CLOSED one is opened over a table of zeros. -/
theorem seqOpenClearsTable : Obligations.SeqOpenClearsTable := by
  unfold Obligations.SeqOpenClearsTable
  intro s v posted seq h d a0 a1 k pt cols layers n q h4 hcols _ hr
  have hopen := openSeq_of_good (s := s) (c := s.viewCopy v pKvp) (seq := seq.toNat) (q := q) rfl h4 hcols hr
  refine ⟨fun hs => ?notClosed, fun hs hroom hp => ?closed⟩
  case notClosed =>
    exact ⟨_, exec_seqOpen_answers h (hopen.trans (if_pos hs)), leaves_postResult (.refl d s) (fun _ _ _ => rfl) _, postResult_dom_kvp ..⟩
  case closed =>
    have hstays := opened_staysIn s d seq.toNat q
    refine ⟨_, exec_seqOpen_answers h (hopen.trans ((if_neg (not_not.2 hs)).trans (if_neg (Nat.not_lt.2 hroom)))),
      postResult_leaves hstays (opened_pairs ..) .., (postResult_dom_kvp ..).trans (opened_kvp ..), fun a ha => ?_⟩
    exact (postResult_mem hstays ha ..).trans (opened_mem s d seq.toNat q hp a)

/-! ## SEQ_CLOSE and SET_DROP (R208, R220) -/

/-- A change deferred by a command and posted: it waits last, and the pager's state is as before. -/
theorem kvpPosted_defer (s : State) (v : View) (a : LatchAct) (seq st op : Nat) :
    Leaves s (kvpPosted (s.defer a) (s.viewCopy v pKvp) seq st op) v pKvp (kvpWord st op seq) ∧
    (kvpPosted (s.defer a) (s.viewCopy v pKvp) seq st op).atLatch = s.atLatch ++ [a] ∧
    ((kvpPosted (s.defer a) (s.viewCopy v pKvp) seq st op).dom (s.viewDom v pKvp)).kvp = (s.dom (s.viewDom v pKvp)).kvp :=
  ⟨postResult_leaves (.defer ..) rfl .., postResult_atLatch .., postResult_dom_kvp ..⟩

/-- Settles O15: each of the three outcomes by its lemma. -/
theorem seqCloseAndDropWaitForLatch : Obligations.SeqCloseAndDropWaitForLatch := by
  unfold Obligations.SeqCloseAndDropWaitForLatch
  intro s v posted seq h d
  exact ⟨fun hn => ⟨_, exec_seqClose_deferred h hn, kvpPosted_defer ..⟩,
    fun hn => ⟨_, exec_seqClose_named h hn, postResult_leaves (.refl d s) rfl .., postResult_atLatch .., postResult_dom_kvp ..⟩,
    ⟨_, exec_setDrop_deferred h, kvpPosted_defer ..⟩⟩

/-! ## COMMIT (R211) -/

/-- A COMMIT that R211 accepts: the sequence is open with no commit pending, every layer holds the same tentative rows of the batch named, and the mask names those alone. -/
structure CommitFits (q : SeqEntry) (a : Nat) : Prop where
  opened : q.state ≠ .closed
  idle : q.commitMask = none
  rows : q.tent.headD 0 ≠ 0
  same : ∀ x ∈ q.tent, x = q.tent.headD 0
  batch : q.tentBatch = bitsOf a 16 16
  mask : bitsOf a 0 16 < 2 ^ q.tent.headD 0

/-- The row copies that a COMMIT asks for. -/
def copiesAsked (q : SeqEntry) (a : Nat) : Nat := q.layers * (commitCopies (bitsOf a 0 16)).length

/-- The state with a commit of a sequence kept for the settle phase, its copies counted. -/
def committed (s : State) (d seq a : Nat) : State :=
  (s.updDom d (fun y => y.updSeq seq (fun z => { z with commitMask := some (bitsOf a 0 16) }))).updDom d
    (fun y => y.updKvp (fun k => { k with commitUsed := k.commitUsed + copiesAsked ((s.dom d).kvp.seq seq) a }))

/-- A COMMIT that fits decides on the copies of the tick alone. -/
theorem commitSeq_of_fits {s : State} {d c seq : Nat} (h : CommitFits ((s.dom d).kvp.seq seq) (s.arg c pKvp 0)) :
    s.commitSeq d c seq =
      if (s.dom d).kvp.commitRows < (s.dom d).kvp.commitUsed + copiesAsked ((s.dom d).kvp.seq seq) (s.arg c pKvp 0) then (s, 0x08)
      else (committed s d seq (s.arg c pKvp 0), 0x00) := by
  obtain ⟨hopen, hidle, hrows, hsame, hbatch, hmask⟩ := h
  refine if_neg ?_
  have hall : ((s.dom d).kvp.seq seq).tent.all (fun t => t == ((s.dom d).kvp.seq seq).tent.headD 0) = true := by simpa using hsame
  rintro (hc | hi | hz | hd | hb | hm)
  · exact hopen hc
  · simp [hidle] at hi
  · exact hrows hz
  · exact absurd ((Bool.not_eq_true' _).mp hd) (ne_false_of_eq_true hall)
  · exact hb hbatch
  · exact absurd hm (Nat.not_le.2 hmask)

theorem committed_kvp (s : State) (d seq a : Nat) :
    ((committed s d seq a).dom d).kvp = { (s.dom d).kvp with
      seqs := mapSet (s.dom d).kvp.seqs seq { (s.dom d).kvp.seq seq with commitMask := some (bitsOf a 0 16) },
      commitUsed := (s.dom d).kvp.commitUsed + copiesAsked ((s.dom d).kvp.seq seq) a } := by
  rw [committed, dom_updDom_self, dom_updDom_self]
  rfl

theorem committed_staysIn (s : State) (d seq a : Nat) : StaysIn d s (committed s d seq a) :=
  (StaysIn.updDom d s _).trans (.updDom ..)

/-! ## KVP_GEOM (R205, R221) -/

theorem exec_kvpGeomWrite_open {s : State} {v : View} (h : s.viewOpen v = true) (value : W32) :
    exec (.kvpGeomWrite v value) s = .next (s.writeGeom (s.viewDom v pKvp) value.toNat) :=
  congrArg Host.Outcome.next (if_pos h)

/-- Settles O16: COMMIT by whether the tick's copies allow it, KVP_GEOM by whether its guard holds. -/
theorem commitAndGeometry : Obligations.CommitAndGeometry := by
  unfold Obligations.CommitAndGeometry
  intro s v posted seq value d a k q mask tent n
  refine ⟨fun h hopen hidle hrows hsame hbatch hmask => ?commit, fun h => ⟨fun hnone hrows => ?taken, fun hno => ?kept⟩⟩
  case commit =>
    have hcommit := commitSeq_of_fits (s := s) (d := d) (c := s.viewCopy v pKvp) (seq := seq.toNat)
      ⟨hopen, hidle, hrows, hsame, hbatch, hmask⟩
    by_cases hr : k.commitRows < k.commitUsed + n
    · exact ⟨_, exec_kvpCommit_answers h (hcommit.trans (if_pos hr)), postResult_atLatch .., fun hle => absurd hr (Nat.not_lt.2 hle),
        fun _ => ⟨postResult_leaves (.refl d s) rfl .., postResult_dom_kvp ..⟩⟩
    · exact ⟨_, exec_kvpCommit_answers h (hcommit.trans (if_neg hr)), postResult_atLatch ..,
        fun _ => ⟨postResult_leaves (committed_staysIn ..) rfl .., (postResult_dom_kvp ..).trans (committed_kvp ..)⟩,
        fun hlt => absurd hlt hr⟩
  case taken =>
    refine ⟨_, (exec_kvpGeomWrite_open h value).trans (congrArg _ (if_pos ⟨hnone, hrows⟩)), (StaysIn.updDom ..).only, ?_⟩
    rw [dom_updDom_self]
    rfl
  case kept =>
    refine (exec_kvpGeomWrite_open h value).trans (congrArg _ (if_neg fun ⟨hnone, hrows⟩ => ?_))
    exact hno.elim (absurd hnone) (absurd hrows ∘ Nat.not_le.2)

/-! ## QUERY (R208, R220) -/

section PutArgs

variable (s : State) (c page : Nat) (ws : List W64)

theorem StaysIn.putArgs (d : Nat) : StaysIn d s (s.putArgs c page ws) :=
  .of_frame d (fr_putArgs (fr_refl _ s) c page ws (fun _ h => h)) (by decide)

theorem onlyPair_putArgs : OnlyPair s (s.putArgs c page ws) c page := fun e g hg =>
  foldl_keeps (fun t : State => t.pair e g = s.pair e g) (fun t (p : W64 × Nat) => t.putArg c page p.2 p.1)
    (fun t p ht => (by rw [State.putArg, pair_putPair, if_neg hg, ht])) _ rfl

/-- The words stand in the first registers of the pair; the others are as before. -/
theorem arg_putArgs {i : Nat} (hi : i < 8) :
    (s.putArgs c page ws).arg c page i = if i < ws.length then (ws.getD i 0).toNat else s.arg c page i := by
  rw [State.putArgs, arg_foldl_putArg c page ws hi 0 s]
  simp

theorem putArgs_atLatch : (s.putArgs c page ws).atLatch = s.atLatch :=
  (fr_putArgs (fr_refl [.pairs] s) c page ws (by decide)).kept .atLatch (by decide)

theorem putArgs_dom_kvp (d : Nat) : ((s.putArgs c page ws).dom d).kvp = (s.dom d).kvp :=
  (fr_putArgs (fr_refl [.pairs] s) c page ws (by decide)).kept .domKvp (by decide) d

end PutArgs

/-- The words that QUERY of a layer returns: its written and refilled rows, and three words of zeros. -/
def layerWords (q : SeqEntry) (l : Nat) : List W64 := 
  w64 (fld (q.wr.getD l 0) 0 32 + fld (q.rf.getD l 0) 32 32) :: List.replicate 3 0

section QuerySeq

variable {s : State} {d c seq : Nat}

theorem querySeq_entry (h : bitOf (s.arg c pKvp 0) 6 = false) :
    s.querySeq d c seq = (s.putArgs c pKvp ((s.dom d).kvp.seq seq).words, 0x00) :=
  if_pos (by rw [h]; rfl)

theorem querySeq_noLayer (h : bitOf (s.arg c pKvp 0) 6 = true) (hl : ((s.dom d).kvp.seq seq).layers ≤ bitsOf (s.arg c pKvp 0) 0 6) :
    s.querySeq d c seq = (s, 0x05) :=
  (if_neg (by rw [h]; decide)).trans (if_pos hl)

theorem querySeq_layer (h : bitOf (s.arg c pKvp 0) 6 = true) (hl : bitsOf (s.arg c pKvp 0) 0 6 < ((s.dom d).kvp.seq seq).layers) :
    s.querySeq d c seq = (s.putArgs c pKvp (layerWords ((s.dom d).kvp.seq seq) (bitsOf (s.arg c pKvp 0) 0 6)), 0x00) :=
  (if_neg (by rw [h]; decide)).trans (if_neg (Nat.not_le.2 hl))

end QuerySeq

section PostedWords

variable (s : State) (v : View) (seq : W16) (ws : List W64)

/-- QUERY's answer once posted, with the words it returns in the argument registers. -/
abbrev queryPosted : State := kvpPosted (s.putArgs (s.viewCopy v pKvp) pKvp ws) (s.viewCopy v pKvp) seq.toNat 0x00 4

theorem queryPosted_leaves : Leaves s (queryPosted s v seq ws) v pKvp (kvpWord 0x00 4 seq.toNat) :=
  leaves_postResult (.putArgs ..) (onlyPair_putArgs _ _ _ _) _

theorem queryPosted_keeps :
    ((queryPosted s v seq ws).dom (s.viewDom v pKvp)).kvp = (s.dom (s.viewDom v pKvp)).kvp ∧ (queryPosted s v seq ws).atLatch = s.atLatch :=
  ⟨(postResult_dom_kvp ..).trans (putArgs_dom_kvp ..), (postResult_atLatch ..).trans (putArgs_atLatch ..)⟩

theorem queryPosted_arg {i : Nat} (hi : i < 8) :
    (queryPosted s v seq ws).arg (s.viewCopy v pKvp) pKvp i =
      if i < ws.length then (ws.getD i 0).toNat else s.arg (s.viewCopy v pKvp) pKvp i :=
  (arg_postResult ..).trans (arg_putArgs _ _ _ _ hi)

end PostedWords

/-- Settles O17: the layer that is not there, the layer that is, and the entry, each by what its words read as. -/
theorem kvpQueryReturnsSequence : Obligations.KvpQueryReturnsSequence := by
  unfold Obligations.KvpQueryReturnsSequence
  intro s v posted seq h d c a l q
  by_cases hb : bitOf a 6 = true
  · by_cases hl : q.layers ≤ l
    · exact ⟨_, exec_kvpQuery_answers h (querySeq_noLayer hb hl), postResult_dom_kvp .., postResult_atLatch ..,
        fun _ _ => ⟨postResult_leaves (.refl d s) rfl .., fun i => arg_postResult ..⟩, fun _ hlt => absurd hl (Nat.not_le.2 hlt),
        fun hf => absurd hb (ne_true_of_eq_false hf)⟩
    · obtain ⟨hkvp, hlatch⟩ := queryPosted_keeps s v seq (layerWords q l)
      have harg {i : Nat} (hi : i < 8) := queryPosted_arg s v seq (layerWords q l) hi
      refine ⟨_, exec_kvpQuery_answers h (querySeq_layer hb (Nat.not_le.1 hl)), hkvp, hlatch, fun _ hle => absurd hle hl,
        fun _ _ => ⟨queryPosted_leaves .., ?rows, fun i h1 h8 => ?rest⟩, fun hf => absurd hb (ne_true_of_eq_false hf)⟩
      case rows =>
        refine (harg (by decide)).trans ((w64_toNat ?_).trans ?_)
        · simp only [fld, Nat.shiftLeft_eq]
          omega
        · simp only [fld, Nat.shiftLeft_eq]
          omega
      case rest =>
        obtain ⟨j, rfl⟩ := Nat.exists_eq_add_of_le' h1
        refine (harg h8).trans (if_congr Iff.rfl ?_ rfl)
        rw [layerWords, List.getD_cons_succ, List.getD_eq_getElem?_getD, List.getElem?_getD_replicate_default_eq]
        rfl
  · have hf := Bool.eq_false_iff.2 hb
    obtain ⟨hkvp, hlatch⟩ := queryPosted_keeps s v seq q.words
    have harg {i : Nat} (hi : i < 8) := queryPosted_arg s v seq q.words hi
    refine ⟨_, exec_kvpQuery_answers h (querySeq_entry hf), hkvp, hlatch, fun ht => absurd ht hb, fun ht => absurd ht hb,
      fun _ => ⟨queryPosted_leaves .., ?_, ?_, ?_, ?_, fun i h4 h8 => (harg h8).trans (if_neg (Nat.not_lt.2 h4))⟩⟩
    all_goals
      refine (harg (by decide)).trans (w64_toNat ?_)
      simp only [fld, Nat.shiftLeft_eq]
      omega

end Sys2Proof.Proofs

/-! The copies of the base and the commands of the BAS page (R228 to R231, R235, R245): what a change of one copy leaves of the other and of the rest of Carter's state, what each command answers, and from them the statements on BUILD, SWITCH, ABORT, STAGE, UNSTAGE and QUERY. -/

namespace Sys2Proof.Proofs

open Sys2Proof.Machine Sys2Proof.Safety Sys2Proof.Laws

/-! ## The two copy slots (R235) -/

section Copies

variable (s : State) (k : Nat)

theorem copy_putCopy_self (x : CopySlot) : (s.putCopy k x).copy k = x := by
  unfold State.copy State.putCopy
  split
  · rfl
  · rfl

theorem copy_putCopy_ne {k j : Nat} (hj : j < 2) (hk : k < 2) (h : j ≠ k) (x : CopySlot) : (s.putCopy k x).copy j = s.copy j := by
  unfold State.copy State.putCopy
  rcases Nat.eq_zero_or_pos k with rfl | hk'
  · rw [if_pos rfl, if_neg h, if_neg h]
  · have hj0 : j = 0 := by omega
    rw [if_neg hk'.ne', if_pos hj0, if_pos hj0]

theorem putCopy_copy : s.putCopy k (s.copy k) = s := by
  unfold State.copy State.putCopy
  split
  · rfl
  · rfl

/-- Carter's state but for the copies. -/
def noCopies (b : BasState) : BasState := { b with copy0 := {}, copy1 := {} }

theorem noCopies_putCopy (x : CopySlot) : noCopies (s.putCopy k x).bas = noCopies s.bas := by
  unfold State.putCopy
  split
  · rfl
  · rfl

theorem noCopies_updCopy (f : CopySlot → CopySlot) : noCopies (s.updCopy k f).bas = noCopies s.bas := noCopies_putCopy s k _

theorem copy_congr {s t : State} (h : t.bas = s.bas) (k : Nat) : t.copy k = s.copy k := by unfold State.copy; rw [h]

theorem putCopy_congr {s t : State} (h : t.bas = s.bas) (k : Nat) (x : CopySlot) : (t.putCopy k x).bas = (s.putCopy k x).bas := by
  unfold State.putCopy
  split
  · exact congrArg (fun b : BasState => { b with copy0 := x }) h
  · exact congrArg (fun b : BasState => { b with copy1 := x }) h

end Copies

theorem bit01_lt (b : Bool) : bit01 b < 2 := by cases b <;> decide
theorem other_lt (b : Bool) : 1 - bit01 b < 2 := by cases b <;> decide
theorem other_ne (b : Bool) : 1 - bit01 b ≠ bit01 b := by cases b <;> decide

/-! ## The end of a build (R235) -/

/-- A stripe for which nothing more is fetched: held in flash, verified or LOST. -/
def settledStripe (x : Stripe) : Bool := x.flashHeld || x.state == .resident || x.state == .lost

/-- The copy as the end of its build leaves it: READY once every stripe that fits is verified or LOST. -/
def checked (c : CopySlot) : CopySlot :=
  { c with state := if c.state = .building ∧ (c.stripeMap.filter (fun p => settledStripe p.2)).length = c.stripes then .ready else c.state }

section Checked

variable {c : CopySlot}

theorem checked_of_ends (h : c.state = .building ∧ (c.stripeMap.filter (fun p => settledStripe p.2)).length = c.stripes) :
    checked c = { c with state := .ready } := congrArg (fun st => { c with state := st }) (if_pos h)

theorem checked_of_not_ends (h : ¬ (c.state = .building ∧ (c.stripeMap.filter (fun p => settledStripe p.2)).length = c.stripes)) :
    checked c = c := congrArg (fun st => { c with state := st }) (if_neg h)

theorem checked_of_building (h : c.state = .building) : checked c =
    { c with state := if (c.stripeMap.filter (fun p => settledStripe p.2)).length = c.stripes then .ready else .building } := by
  unfold checked
  simp only [h, true_and]

end Checked

theorem checked_stripe (c : CopySlot) (q : Nat) : (checked c).stripe q = c.stripe q := rfl

section BuildCheck

variable (s : State) (k : Nat)

theorem buildCheck_bas : (s.buildCheck k).bas = (s.putCopy k (checked (s.copy k))).bas := by
  unfold State.buildCheck
  dsimp only
  split
  · next h => rw [raiseDev_bas, checked_of_ends h]
  · next h => rw [checked_of_not_ends h, putCopy_copy]

theorem copy_buildCheck_self : (s.buildCheck k).copy k = checked (s.copy k) :=
  (copy_congr (buildCheck_bas s k) k).trans (copy_putCopy_self ..)

theorem copy_buildCheck_ne {k j : Nat} (hj : j < 2) (hk : k < 2) (h : j ≠ k) : (s.buildCheck k).copy j = s.copy j :=
  (copy_congr (buildCheck_bas s k) j).trans (copy_putCopy_ne s hj hk h _)

theorem noCopies_buildCheck : noCopies (s.buildCheck k).bas = noCopies s.bas := (congrArg noCopies (buildCheck_bas s k)).trans (noCopies_putCopy ..)

end BuildCheck

/-! ## The path of a command of the BAS page (R123, R246) -/

/-- The state with the result of a command of the BAS page posted. -/
abbrev basPosted (t : State) (c st op : Nat) : State := t.postResult c pBas (basWord st op)

theorem viewCopy_bas (s t : State) (v : View) : t.viewCopy v pBas = s.viewCopy v pBas := by cases v <;> rfl

/-- A command of Carter that is ready, with no reserved bit set, posts what its body answers. -/
theorem basCmd_answers {s t : State} {v : View} {posted : Bool} (h : BasReady s v posted) (op : Nat) {st : Nat}
    {f : Nat → State → State × Nat} (hf : f (s.viewCopy v pBas) s = (t, st)) :
    s.basCmd v posted op 0 f = basPosted t (s.viewCopy v pBas) st op := by
  obtain ⟨h0, hr⟩ := h
  rw [State.basCmd, if_neg (by simp [h0]), runCmd_ready hr]
  simp only [ne_eq, not_true_eq_false, if_false, hf]

/-- A command whose body changed neither a pair nor a domain leaves, once posted, no more than that. -/
theorem basPosted_leaves {L : List Part} {s t : State} (h : Frame L s t) (hL : ∀ p ∈ Part.pairs :: domainParts, p ∉ L) (v : View) (st op : Nat) :
    Leaves s (basPosted t (s.viewCopy v pBas) st op) v pBas (basWord st op) :=
  leaves_postResult (.of_frame _ h fun p hp => hL p (List.mem_cons_of_mem _ hp))
    (fun e g _ => by unfold State.pair; rw [h.kept .pairs (hL _ (List.mem_cons_self ..))]) _

section Posted

variable {s t : State} {v : View} {posted copy : Bool} {st : Nat} (h : BasReady s v posted)
include h

theorem exec_build_answers {errors : List ReadError} (hf : s.build (bit01 copy) (s.viewCopy v pBas) errors = (t, st)) :
    exec (.build v posted ⟨copy, errors⟩ 0) s = .next (basPosted t (s.viewCopy v pBas) st 1) :=
  congrArg Host.Outcome.next (basCmd_answers h 1 (f := fun c u => u.build (bit01 copy) c errors) hf)

/-! ## SWITCH and ABORT (R235, R236) -/

/-- The tick at whose latch an accepted SWITCH takes effect. -/
def switchTick (s : State) : Nat := s.tik.tick + if s.tik.cutoffPassed then 2 else 1

/-- The state with a SWITCH to a copy due; one accepted before keeps its latch. -/
def switchDue (s : State) (k : Nat) : State :=
  s.updBas (fun b => { b with switchAt := if b.switchAt.map Prod.fst = some k then b.switchAt else some (k, switchTick s) })

theorem exec_switch_ready (hs : (s.copy (bit01 copy)).state = .ready)
    (hg : (s.copy (bit01 copy)).gen = s.arg (s.viewCopy v pBas) pBas 0 % 2 ^ 32) :
    exec (.switch v posted copy 0) s = .next (basPosted (switchDue s (bit01 copy)) (s.viewCopy v pBas) 0x00 2) :=
  congrArg Host.Outcome.next (basCmd_answers h 2 ((if_neg (not_not.2 hs)).trans (if_neg (not_not.2 hg))))

theorem exec_switch_badState (hs : (s.copy (bit01 copy)).state ≠ .ready) :
    exec (.switch v posted copy 0) s = .next (basPosted s (s.viewCopy v pBas) 0x0A 2) :=
  congrArg Host.Outcome.next (basCmd_answers h 2 (if_pos hs))

omit h in
/-- The state with a copy slot empty, and its pages and T units kept for the latch. -/
def aborted (s : State) (k : Nat) : State :=
  (s.putCopy k {}).updBas (fun b =>
    { b with backPages := b.backPages ++ (s.copy k).pagesHeld, backUnits := b.backUnits ++ (s.copy k).unitsHeld,
             switchAt := if b.switchAt.map Prod.fst = some k then none else b.switchAt })

theorem exec_abort_done (hs : (s.copy (bit01 copy)).state = .building ∨ (s.copy (bit01 copy)).state = .ready) :
    exec (.abort v posted copy 0) s = .next (basPosted (aborted s (bit01 copy)) (s.viewCopy v pBas) 0x00 3) :=
  congrArg Host.Outcome.next (basCmd_answers h 3 (if_neg fun hn => hs.elim hn.1 hn.2))

end Posted

/-! ## What read errors leave of Carter's state (R240) -/

theorem noCopies_of_frame {L : List Part} {s t : State} (h : Frame L s t) (hL : Part.bas ∉ L) : noCopies t.bas = noCopies s.bas :=
  congrArg noCopies (h.kept .bas hL)

/-- An uncorrectable block of a copy poisons it in the copy alone. -/
theorem noCopies_readBaseBlock (s : State) (k o n : Nat) : noCopies (s.readBaseBlock k o n).bas = noCopies s.bas := by
  unfold State.readBaseBlock
  dsimp only
  split
  · rfl
  split
  · split
    · exact noCopies_of_frame (fr_poisonRewrite (fr_refl _ s) _ (fun _ h => h)) (by decide)
    · exact noCopies_of_frame (fr_correctedBlock (fr_refl _ s) _ (fun _ h => h)) (by decide)
  · exact (noCopies_updCopy ..).trans (noCopies_of_frame (fr_uncorrectableBlock (fr_refl _ s) _ _ _ (fun _ h => h)) (by decide))

theorem noCopies_meetError (s : State) (d : Nat) (e : ReadError) : noCopies (s.meetError d e).1.bas = noCopies s.bas := by
  cases e with
  | domainBlock a n => exact noCopies_of_frame (fr_readDomainBlock (fr_refl _ s) d a n (fun _ h => h)) (by decide)
  | baseBlock k o n => exact noCopies_readBaseBlock ..
  | commonsWord o dbl => exact noCopies_of_frame (fr_readCommonsWord (fr_refl _ s) o dbl (fun _ h => h)) (by decide)
  | operandBuffer a dbl => exact noCopies_of_frame (fr_sramError (fr_refl _ s) a false 0 dbl (fun _ h => h)) (by decide)
  | accumulator a e dbl => exact noCopies_of_frame (fr_sramError (fr_refl _ s) a true e dbl (fun _ h => h)) (by decide)

theorem noCopies_meetErrors (s : State) (d : Nat) (es : List ReadError) : noCopies (s.meetErrors d es).1.bas = noCopies s.bas := by
  unfold State.meetErrors
  refine foldl_keeps (fun p : State × Bool => noCopies p.1.bas = noCopies s.bas) _ (fun p e h => ?_) es ?_
  · exact (noCopies_meetError p.1 d e).trans h
  · rfl

/-! ## BUILD (R228, R230, R235, R238) -/

section Build

variable (u : State) (k a : Nat) (m : Manifest) (ts : List Tensor) (moe : List Nat) (peers : List (Nat × Bool))

/-- The state that a BUILD of a manifest makes of the one in which its reads have met their errors. -/
def built : State :=
  (((u.takeRegion.newCopy a m ts moe peers).2.putCopy k (u.takeRegion.newCopy a m ts moe peers).1).updBas
    (fun b => { b with buildDone := 0 })).buildCheck k

/-- The path of BUILD through its tests: none of them fails. -/
theorem build_of_good {s : State} {c : Nat} {errors : List ReadError} (hu : (s.meetErrors 0 errors).1 = u)
    (ha : s.arg c pBas 0 % 2 ^ 48 = a) (h : (s.copy k).state = .empty)
    (ho : (s.copy (1 - k)).state = .empty ∨ ((s.copy (1 - k)).state = .active ∧ (u.copy (1 - k)).gen ≠ m.gen)) (h64 : a % 64 = 0)
    (hf : RegionFits s) (hm : u.readManifest a = some (m, ts, moe, peers))
    (hp : m.ns ≠ 0 ∨ (u.takeRegion.newCopy a m ts moe peers).1.stripeMap.any
      (fun p => !(u.takeRegion.newCopy a m ts moe peers).1.flashOnly p.1) = false) :
    s.build k c errors = (built u k a m ts moe peers, 0x01) := by
  have hother : ¬ ((s.copy (1 - k)).state ≠ .empty ∧ (s.copy (1 - k)).state ≠ .active) := fun hn =>
    ho.elim hn.1 fun hact => hn.2 hact.1
  have hregion : ¬ ((!s.bas.regionTaken) = true ∧ (s.freeFrames < s.bas.regionPages ∨ s.bas.regionPages < s.bas.stagePages)) := by
    rintro ⟨hn, hlt⟩
    rcases hf with ht | ⟨h1, h2⟩
    · simp [ht] at hn
    · omega
  have hgen : ¬ ((s.copy (1 - k)).state = .active ∧ (u.copy (1 - k)).gen = m.gen) := by
    rintro ⟨hact, hg⟩
    rcases ho with he | ⟨-, hne⟩
    · simp [he] at hact
    · exact hne hg
  subst hu ha
  unfold State.build
  dsimp only
  rw [if_neg (not_not.2 h), if_neg hother, if_neg (not_not.2 h64), if_neg hregion, hm]
  dsimp only
  rw [if_neg hgen, if_neg fun hn => hp.elim (fun h => h hn.2) fun h => ne_true_of_eq_false h hn.1]
  rfl

/-- The state of Carter before the end of the build is looked for. -/
theorem newCopy_bas : (u.takeRegion.newCopy a m ts moe peers).2.bas = u.takeRegion.bas :=
  (fr_newCopy (fr_refl [.freeCtr] _) a m ts moe peers (by decide)).kept .bas (by decide)

theorem takeRegion_copy (j : Nat) : u.takeRegion.copy j = u.copy j := by
  unfold State.takeRegion
  split
  · rfl
  · rfl

theorem takeRegion_taken : u.takeRegion.bas.regionTaken = true := by
  unfold State.takeRegion
  split
  · assumption
  · rfl

theorem takeRegion_freeFrames :
    u.takeRegion.freeFrames = if u.bas.regionTaken then u.freeFrames else u.freeFrames - u.bas.regionPages := by
  unfold State.takeRegion
  split
  · rfl
  · rfl

theorem built_noCopies : noCopies (built u k a m ts moe peers).bas = noCopies { u.takeRegion.bas with buildDone := 0 } := by
  rw [built, noCopies_buildCheck, ← newCopy_bas u a m ts moe peers]
  exact congrArg (fun b : BasState => { b with buildDone := 0 }) (noCopies_putCopy ..)

theorem built_copy_self : (built u k a m ts moe peers).copy k = checked (u.takeRegion.newCopy a m ts moe peers).1 :=
  (copy_buildCheck_self ..).trans (congrArg checked (copy_putCopy_self ..))

theorem built_copy_ne {j : Nat} (hj : j < 2) (hk : k < 2) (h : j ≠ k) : (built u k a m ts moe peers).copy j = u.copy j := by
  rw [built, copy_buildCheck_ne _ hj hk h]
  exact (copy_putCopy_ne _ hj hk h _).trans ((copy_congr (newCopy_bas ..) j).trans (takeRegion_copy u j))

/-- The parts that a BUILD may move once its reads have met their errors. -/
abbrev buildParts : List Part := withEvents [.bas, .freeFrames, .freeCtr]

theorem built_frame : Frame buildParts u (built u k a m ts moe peers) :=
  fr_buildCheck (fr_updBas (fr_putCopy (fr_newCopy (fr_takeRegion (fr_refl _ u) (by decide)) _ _ _ _ _ (by decide)) _ _ (by decide)) _
    (by decide)) _ (by decide)

theorem built_freeFrames :
    (built u k a m ts moe peers).freeFrames = if u.bas.regionTaken then u.freeFrames else u.freeFrames - u.bas.regionPages := by
  rw [← takeRegion_freeFrames]
  exact (fr_buildCheck (fr_updBas (fr_putCopy (fr_newCopy (fr_refl (withEvents [.bas, .freeCtr]) u.takeRegion) _ _ _ _ _ (by decide)) _ _
    (by decide)) _ (by decide)) _ (by decide)).kept .freeFrames (by decide)

end Build

/-- A copy that BUILD makes is BUILDING until its build is looked at. -/
theorem newCopy_state (s : State) (a : Nat) (m : Manifest) (ts : List Tensor) (moe : List Nat) (peers : List (Nat × Bool)) :
    (s.newCopy a m ts moe peers).1.state = .building := rfl

/-- Settles O18: each outcome by its lemma; a BUILD's copy is READY where every stripe is held in flash. -/
theorem baseCopiesBuildSwitchAbort : Obligations.BaseCopiesBuildSwitchAbort := by
  unfold Obligations.BaseCopiesBuildSwitchAbort
  intro s v posted copy h k a0 a
  refine ⟨?build, fun hs hg => ?switch, fun hs => ?badState, fun hs => ?abort⟩
  case build =>
    intro errors m ts moe peers u he ho h64 hfit hm c held hp
    have hmet := fr_meetErrors (fr_refl _ s) 0 errors (fun _ h => h)
    have hbas : noCopies u.bas = noCopies s.bas := noCopies_meetErrors s 0 errors
    have htaken : u.bas.regionTaken = s.bas.regionTaken := (congrArg BasState.regionTaken hbas :)
    have hpages : u.bas.regionPages = s.bas.regionPages := (congrArg BasState.regionPages hbas :)
    have hfree : u.freeFrames = s.freeFrames := hmet.kept .freeFrames (by decide)
    have hbuilt := built_noCopies u k a m ts moe peers
    refine ⟨_, exec_build_answers h (build_of_good u k a m ts moe peers rfl rfl he ho h64 hfit hm hp), ?_, ?_, ?_, ?_, ?_, ?_⟩
    · rw [viewCopy_bas u s v]
      exact basPosted_leaves (built_frame ..) (by decide) v _ _
    · rw [postResult_freeFrames, built_freeFrames, htaken, hpages, hfree]
    · rw [postResult_copy, built_copy_ne u k a m ts moe peers (other_lt copy) (bit01_lt copy) (other_ne copy)]
    · rw [postResult_bas]
      exact (congrArg BasState.regionTaken hbuilt).trans (takeRegion_taken u)
    · rw [postResult_bas]
      exact congrArg BasState.buildDone hbuilt
    · rw [postResult_copy, built_copy_self]
      exact checked_of_building (newCopy_state ..)
  case switch =>
    exact ⟨_, exec_switch_ready h hs hg, basPosted_leaves (fr_updBas (fr_refl [.bas] s) _ (by decide)) (by decide) v _ _, postResult_bas ..⟩
  case badState => exact ⟨_, exec_switch_badState h hs, basPosted_leaves (fr_refl [] s) (by decide) v _ _, postResult_bas ..⟩
  case abort =>
    have hbas : noCopies (aborted s k).bas = noCopies { s.bas with
        backPages := s.bas.backPages ++ (s.copy k).pagesHeld, backUnits := s.bas.backUnits ++ (s.copy k).unitsHeld,
        switchAt := if s.bas.switchAt.map Prod.fst = some k then none else s.bas.switchAt } := by
      unfold aborted State.putCopy
      split
      · rfl
      · rfl
    refine ⟨_, exec_abort_done h hs, basPosted_leaves (fr_updBas (fr_putCopy (fr_refl [.bas] s) _ _ (by decide)) _ (by decide)) (by decide) v _ _,
      ?_, ?_, ?_, ?_, ?_⟩
    · exact (postResult_copy ..).trans (copy_putCopy_self ..)
    · exact (postResult_copy ..).trans (copy_putCopy_ne s (other_lt copy) (bit01_lt copy) (other_ne copy) _)
    · rw [postResult_bas]
      exact congrArg BasState.backPages hbas
    · rw [postResult_bas]
      exact congrArg BasState.backUnits hbas
    · rw [postResult_bas]
      exact congrArg BasState.switchAt hbas

/-! ## STAGE and UNSTAGE (R231) -/

/-- The copy with a tensor named by STAGE. -/
def stagedCopy (x : CopySlot) (i : Nat) : CopySlot := { x with staged := numAdd x.staged i, unstage := numDel x.unstage i }

/-- The stripes that a STAGE adds fit what is free of the staging pages. -/
def StageFits (s : State) (x y : CopySlot) : Prop := y.stagedStripes.length - x.stagedStripes.length ≤ s.stageRoom

/-- The copy whose staged tensor waits to leave base staging; of another tensor, the copy itself. -/
def unstagedCopy (x : CopySlot) (i : Nat) : CopySlot := if x.staged.contains i then { x with unstage := numAdd x.unstage i } else x

section Staging

variable {s : State} {v : View} {posted : Bool} (copy : Bool) {i k : Nat} (h : BasReady s v posted)
  (hi : s.arg (s.viewCopy v pBas) pBas 0 % 2 ^ 24 = i) (hk : s.activeCopy = some k) (hlen : i < (s.copy k).tensors.length)
include h hi hk hlen

theorem exec_basStage_resident (hf : (s.copy k).flashResident ((s.copy k).tensors.getD i default) = false) :
    exec (.basStage v posted copy 0) s = .next (basPosted s (s.viewCopy v pBas) 0x00 4) := by
  subst hi
  refine congrArg Host.Outcome.next (basCmd_answers h 4 ?_)
  dsimp only
  rw [hk]
  exact (if_neg (Nat.not_le.2 hlen)).trans (if_pos (by rw [hf]; rfl))

theorem exec_basStage_fits (hf : (s.copy k).flashResident ((s.copy k).tensors.getD i default) = true)
    (hr : StageFits s (s.copy k) (stagedCopy (s.copy k) i)) :
    exec (.basStage v posted copy 0) s = .next (basPosted (s.putCopy k (stagedCopy (s.copy k) i)) (s.viewCopy v pBas) 0x01 4) := by
  subst hi
  refine congrArg Host.Outcome.next (basCmd_answers h 4 ?_)
  dsimp only
  rw [hk]
  exact ((if_neg (Nat.not_le.2 hlen)).trans (if_neg (by rw [hf]; decide))).trans (if_neg (Nat.not_lt.2 hr))

theorem exec_basStage_full (hf : (s.copy k).flashResident ((s.copy k).tensors.getD i default) = true)
    (hr : ¬ StageFits s (s.copy k) (stagedCopy (s.copy k) i)) :
    exec (.basStage v posted copy 0) s = .next (basPosted s (s.viewCopy v pBas) 0x07 4) := by
  subst hi
  refine congrArg Host.Outcome.next (basCmd_answers h 4 ?_)
  dsimp only
  rw [hk]
  exact ((if_neg (Nat.not_le.2 hlen)).trans (if_neg (by rw [hf]; decide))).trans (if_pos (Nat.not_le.1 hr))

theorem exec_basUnstage_waits :
    exec (.basUnstage v posted copy 0) s = .next (basPosted (s.putCopy k (unstagedCopy (s.copy k) i)) (s.viewCopy v pBas) 0x00 5) := by
  subst hi
  refine congrArg Host.Outcome.next (basCmd_answers h 5 ?_)
  dsimp only
  rw [hk]
  refine (if_neg (Nat.not_le.2 hlen)).trans ?_
  by_cases hc : (s.copy k).staged.contains (s.arg (s.viewCopy v pBas) pBas 0 % 2 ^ 24) = true
  · rw [unstagedCopy, if_pos hc, if_pos hc]
  · rw [unstagedCopy, if_neg hc, if_neg hc, putCopy_copy]

end Staging

/-! ## QUERY (R245) -/

/-- The state with the code of a stripe in the first argument register. -/
def stripeQueried (s : State) (c : Nat) (x : Stripe) : State := s.putArg c pBas 0 (w64 (x.state.code + 4 * bit01 x.flashHeld))

theorem exec_basQuery_answers {s : State} {v : View} {posted : Bool} (copy : Bool) (h : BasReady s v posted) {x : Stripe}
    (hx : (s.copy (s.arg (s.viewCopy v pBas) pBas 1 % 2)).stripe (s.arg (s.viewCopy v pBas) pBas 0 % 2 ^ 32) = x) :
    exec (.basQuery v posted copy 0) s = .next (basPosted (stripeQueried s (s.viewCopy v pBas) x) (s.viewCopy v pBas) 0x00 6) := by
  subst hx
  exact congrArg Host.Outcome.next (basCmd_answers h 6 rfl)

theorem stripeCode_lt (x : Stripe) : x.state.code + 4 * bit01 x.flashHeld < 2 ^ 64 := by
  have hb := bit01_lt x.flashHeld
  have hc : x.state.code < 4 := by cases x.state <;> decide
  omega

theorem onlyPair_putArg (s : State) (c page i : Nat) (w : W64) : OnlyPair s (s.putArg c page i w) c page := fun e g hg => by
  rw [State.putArg, pair_putPair, if_neg hg]

theorem stripeQueried_leaves (s : State) (v : View) (x : Stripe) (st op : Nat) :
    Leaves s (basPosted (stripeQueried s (s.viewCopy v pBas) x) (s.viewCopy v pBas) st op) v pBas (basWord st op) :=
  leaves_postResult (.of_frame _ (fr_putArg (fr_refl [.pairs] s) _ _ _ _ (by decide)) (by decide)) (onlyPair_putArg s _ _ _ _) _

/-- Settles O19: STAGE by whether flash alone holds a stripe and whether it fits, UNSTAGE and QUERY by the lemma of each. -/
theorem baseStagingAndQuery : Obligations.BaseStagingAndQuery := by
  unfold Obligations.BaseStagingAndQuery
  intro s v posted copy h c i
  have hput {k : Nat} (x : CopySlot) : Frame [.bas] s (s.putCopy k x) := fr_putCopy (fr_refl _ s) k x (by decide)
  refine ⟨fun k hk hlen => ⟨?stage, ?unstage⟩, ?query⟩
  case stage =>
    by_cases hf : (s.copy k).flashResident ((s.copy k).tensors.getD i default) = true
    · by_cases hr : StageFits s (s.copy k) (stagedCopy (s.copy k) i)
      · exact ⟨_, exec_basStage_fits copy h rfl hk hlen hf hr, fun hn => absurd hf (ne_true_of_eq_false hn),
          fun _ _ => ⟨basPosted_leaves (hput _) (by decide) v _ _, (postResult_copy ..).trans (copy_putCopy_self ..)⟩, fun _ hn => absurd hr hn⟩
      · exact ⟨_, exec_basStage_full copy h rfl hk hlen hf hr, fun hn => absurd hf (ne_true_of_eq_false hn), fun _ hy => absurd hy hr,
          fun _ _ => ⟨basPosted_leaves (fr_refl [] s) (by decide) v _ _, postResult_bas ..⟩⟩
    · exact ⟨_, exec_basStage_resident copy h rfl hk hlen (Bool.eq_false_iff.2 hf),
        fun _ => ⟨basPosted_leaves (fr_refl [] s) (by decide) v _ _, postResult_bas ..⟩, fun hy => absurd hy hf, fun hy => absurd hy hf⟩
  case unstage =>
    exact ⟨_, exec_basUnstage_waits copy h rfl hk hlen, basPosted_leaves (hput _) (by decide) v _ _,
      (postResult_copy ..).trans (copy_putCopy_self ..)⟩
  case query =>
    refine ⟨_, exec_basQuery_answers copy h rfl, stripeQueried_leaves .., postResult_bas .., ?_, fun j h1 h8 => ?_⟩
    · exact (arg_postResult ..).trans ((arg_putArg _ _ _ _ _ _ (by decide)).trans (w64_toNat (stripeCode_lt _)))
    · exact (arg_postResult ..).trans ((arg_putArg _ _ _ _ _ _ h8).trans (if_neg (by omega)))

end Sys2Proof.Proofs

/-! The stripes of a copy of the base (R224, R233 to R235, R238, R242, R244, R247): what an operation on one stripe leaves of every other stripe and of the BAD ones, whom Carter asks next, and what an arrival, a failing source and the loss of a stripe make of it. From them the statement on the stripes of a copy. -/

namespace Sys2Proof.Proofs

open Sys2Proof.Machine Sys2Proof.Safety Sys2Proof.Laws

/-! ## Maps with one key changed -/

theorem mapSet_mapSet {α : Type} (k : Nat) (v w : α) : ∀ m : List (Nat × α), mapSet (mapSet m k v) k w = mapSet m k w
  | [] => by simp [mapSet]
  | (j, x) :: r => by
    by_cases h1 : k < j
    · simp [mapSet, h1]
    · by_cases h2 : k = j
      · subst h2
        simp [mapSet]
      · simp [mapSet, h1, h2, mapSet_mapSet k v w r]

/-- An entry of a map stands after a key is set, unless it is the entry that the key reads. -/
theorem mem_mapSet_of_mem {α : Type} (k : Nat) (v : α) {p : Nat × α} : ∀ {m : List (Nat × α)}, p ∈ m → p ∈ mapSet m k v ∨ mapGet m k = some p.2
  | (j, w) :: r, h => by
    unfold mapSet
    split
    · exact .inl (List.mem_cons_of_mem _ h)
    · split
      · next hkj =>
        rcases List.mem_cons.1 h with rfl | hr
        · exact .inr (by rw [mapGet_cons, if_pos hkj.symm])
        · exact .inl (List.mem_cons_of_mem _ hr)
      · next hkj =>
        rw [mapGet_cons, if_neg (Ne.symm hkj)]
        rcases List.mem_cons.1 h with rfl | hr
        · exact .inl (List.mem_cons_self ..)
        · exact (mem_mapSet_of_mem k v hr).imp_left (List.mem_cons_of_mem _)

/-! ## BAD stripes of the copies that slabs may read (R242) -/

/-- The copy is one that slabs may read, and lists a BAD stripe. -/
def HoldsBad (c : CopySlot) : Prop := (c.state = .active ∨ c.state = .retiring) ∧ ∃ p ∈ c.stripeMap, p.2.state = .bad

theorem badStripes_eq_nil {s : State} : s.badStripes = [] ↔ ∀ k, k < 2 → ¬ HoldsBad (s.copy k) := by
  have hcopy : ∀ (k : Nat) (c : CopySlot), (if c.state = .active ∨ c.state = .retiring then
      ((c.stripeMap.filter (fun p => p.2.state == .bad)).map (fun p => (k, p.1))) else []) = [] ↔ ¬ HoldsBad c := fun k c => by
    unfold HoldsBad
    by_cases h : c.state = .active ∨ c.state = .retiring
    · simp [h, List.filter_eq_nil_iff]
    · simp [h]
  have htwo : ∀ P : Nat → Prop, (∀ k, k < 2 → P k) ↔ P 0 ∧ P 1 := fun P =>
    ⟨fun h => ⟨h 0 (by omega), h 1 (by omega)⟩, fun ⟨h0, h1⟩ k hk => by
      obtain rfl | rfl : k = 0 ∨ k = 1 := by omega
      · exact h0
      · exact h1⟩
  rw [htwo, ← hcopy 0, ← hcopy 1]
  simp [State.badStripes]

theorem servedBad_iff {s : State} {k q : Nat} :
    s.servedBad k q = true ↔ ((s.copy k).state = .active ∨ (s.copy k).state = .retiring) ∧ ((s.copy k).stripe q).state = .bad := by
  simp [State.servedBad]

theorem servedBad_congr {s t : State} (h : t.bas = s.bas) (k q : Nat) : t.servedBad k q = s.servedBad k q := by
  unfold State.servedBad
  rw [copy_congr h]

/-! ## Operations on one stripe -/

/-- Of the stripes of a copy only q may have changed, and of the copies only k; a stripe that no slab could read as BAD has not become one, and with it the BAD stripes are as many as before: none, or some. -/
structure StripeStep (k : Fin 2) (q : Nat) (s t : State) : Prop where
  copies : ∀ j, j < 2 → j ≠ k.val → t.copy j = s.copy j
  stripes : ∀ j, j ≠ q → (t.copy k.val).stripe j = (s.copy k.val).stripe j
  served : s.servedBad k.val q = false → t.servedBad k.val q = false
  bad : s.servedBad k.val q = false → (HoldsBad (t.copy k.val) ↔ HoldsBad (s.copy k.val))

section Step

variable {k : Fin 2} {q : Nat} {s t u : State}

theorem StripeStep.of_bas (h : t.bas = s.bas) : StripeStep k q s t :=
  ⟨fun j _ _ => copy_congr h j, fun j _ => by rw [copy_congr h], fun hs => (servedBad_congr h ..).trans hs, fun _ => by rw [copy_congr h]⟩

theorem StripeStep.trans (a : StripeStep k q s t) (b : StripeStep k q t u) : StripeStep k q s u :=
  ⟨fun j hj hk => (b.copies j hj hk).trans (a.copies j hj hk), fun j hj => (b.stripes j hj).trans (a.stripes j hj),
   fun hs => b.served (a.served hs), fun hs => (b.bad (a.served hs)).trans (a.bad hs)⟩

theorem StripeStep.badStripes (h : StripeStep k q s t) (hs : s.servedBad k.val q = false) : t.badStripes = [] ↔ s.badStripes = [] := by
  rw [badStripes_eq_nil, badStripes_eq_nil]
  refine forall₂_congr fun j hj => not_congr ?_
  by_cases hk : j = k.val
  · subst hk
    exact h.bad hs
  · rw [h.copies j hj hk]

theorem stripe_of_map {c x : CopySlot} {y : Stripe} (h : x.stripeMap = mapSet c.stripeMap q y) (j : Nat) :
    x.stripe j = if j = q then y else c.stripe j := by
  unfold CopySlot.stripe
  rw [h, mapGet_mapSet]
  split
  · rfl
  · rfl

theorem copy_updCopy_ne (s : State) (k : Fin 2) (f : CopySlot → CopySlot) {j : Nat} (hj : j < 2) (h : j ≠ k.val) :
    (s.updCopy k.val f).copy j = s.copy j := copy_putCopy_ne s hj k.isLt h _

/-- A change of a copy that sets the stripe's entry and keeps the copy's state, and makes no stripe BAD. -/
theorem StripeStep.updCopy (s : State) {f : CopySlot → CopySlot} {y : Stripe} (hstate : (f (s.copy k.val)).state = (s.copy k.val).state)
    (hmap : (f (s.copy k.val)).stripeMap = mapSet (s.copy k.val).stripeMap q y)
    (hy : y.state = ((s.copy k.val).stripe q).state ∨ y.state ≠ .bad) : StripeStep k q s (s.updCopy k.val f) := by
  have hself := copy_updCopy_self s k.val f
  have hstripe := stripe_of_map hmap
  have hbad : s.servedBad k.val q = false → ((s.copy k.val).state = .active ∨ (s.copy k.val).state = .retiring) →
      ((s.copy k.val).stripe q).state ≠ .bad := fun hs hserved hb => ne_true_of_eq_false hs (servedBad_iff.2 ⟨hserved, hb⟩)
  have hnew : s.servedBad k.val q = false → ((s.copy k.val).state = .active ∨ (s.copy k.val).state = .retiring) → y.state ≠ .bad :=
    fun hs hserved => hy.elim (fun h => h ▸ hbad hs hserved) id
  refine ⟨fun j hj hk => copy_updCopy_ne s k f hj hk, fun j hj => by rw [hself, hstripe, if_neg hj], fun hs => ?_, fun hs => ?_⟩
  · refine Bool.eq_false_iff.2 fun h => ?_
    obtain ⟨hserved, hb⟩ := servedBad_iff.1 h
    rw [hself, hstate] at hserved
    rw [hself, hstripe, if_pos rfl] at hb
    exact hnew hs hserved hb
  · rw [hself]
    unfold HoldsBad
    rw [hstate, hmap]
    refine and_congr_right fun hserved => ⟨fun ⟨p, hp, hb⟩ => ?_, fun ⟨p, hp, hb⟩ => ?_⟩
    · rcases mem_mapSet _ _ _ _ hp with rfl | hp
      · exact absurd hb (hnew hs hserved)
      · exact ⟨p, hp, hb⟩
    · rcases mem_mapSet_of_mem q y hp with hm | hm
      · exact ⟨p, hm, hb⟩
      · refine absurd ?_ (hbad hs hserved)
        rw [CopySlot.stripe, hm]
        exact hb

/-- A change of a copy that keeps its state and its stripes. -/
theorem StripeStep.updCopy_stripes (s : State) {f : CopySlot → CopySlot} (hstate : (f (s.copy k.val)).state = (s.copy k.val).state)
    (hmap : (f (s.copy k.val)).stripeMap = (s.copy k.val).stripeMap) : StripeStep k q s (s.updCopy k.val f) := by
  have hself := copy_updCopy_self s k.val f
  have hstripe (j : Nat) : ((s.updCopy k.val f).copy k.val).stripe j = (s.copy k.val).stripe j := by
    rw [hself, CopySlot.stripe, hmap]
    rfl
  refine ⟨fun j hj hk => copy_updCopy_ne s k f hj hk, fun j _ => hstripe j, fun hs => ?_, fun _ => ?_⟩
  · rw [← hs, State.servedBad, hstripe, hself, hstate]
    rfl
  · rw [hself, HoldsBad, HoldsBad, hstate, hmap]

/-- The end of a build makes a copy READY, which is none that slabs may read. -/
theorem StripeStep.buildCheck (k : Fin 2) (q : Nat) (s : State) : StripeStep k q s (s.buildCheck k.val) := by
  have hself := copy_buildCheck_self s k.val
  have hstate : (checked (s.copy k.val)).state = .active ∨ (checked (s.copy k.val)).state = .retiring ↔
      (s.copy k.val).state = .active ∨ (s.copy k.val).state = .retiring := by
    unfold checked
    dsimp only
    split
    · next h => simp [h.1]
    · rfl
  refine ⟨fun j hj hk => copy_buildCheck_ne s hj k.isLt hk, fun j _ => by rw [hself, checked_stripe], fun hs => ?_, fun _ => ?_⟩
  · refine Bool.eq_false_iff.2 fun h => ne_true_of_eq_false hs (servedBad_iff.2 ?_)
    rwa [servedBad_iff, hself, hstate] at h
  · rw [hself]
    exact and_congr_left' hstate

end Step

/-! ## One stripe changed -/

/-- The state with one stripe of a copy changed. -/
def setStripe (s : State) (k q : Nat) (f : Stripe → Stripe) : State := s.updCopy k (fun c => c.putStripe q (f (c.stripe q)))

section SetStripe

variable (s : State) (k : Fin 2) (q : Nat) (f g : Stripe → Stripe)

theorem setStripe_copy : (setStripe s k q f).copy k = (s.copy k).putStripe q (f ((s.copy k).stripe q)) := copy_updCopy_self ..

theorem setStripe_stripe : ((setStripe s k q f).copy k).stripe q = f ((s.copy k).stripe q) := by
  rw [setStripe_copy, stripe_putStripe, if_pos rfl]

theorem putCopy_putCopy (k : Nat) (x y : CopySlot) : (s.putCopy k x).putCopy k y = s.putCopy k y := by
  unfold State.putCopy
  split
  · rfl
  · rfl

theorem setStripe_setStripe : setStripe (setStripe s k q f) k q g = setStripe s k q (fun x => g (f x)) := by
  show (setStripe s k q f).putCopy k (((setStripe s k q f).copy k).putStripe q (g (((setStripe s k q f).copy k).stripe q))) = _
  rw [setStripe_stripe, setStripe_copy]
  exact (putCopy_putCopy ..).trans (congrArg (s.putCopy k.val) (congrArg (fun m => { s.copy k.val with stripeMap := m }) (mapSet_mapSet ..)))

variable {s k q f}

theorem StripeStep.setStripe (hf : (f ((s.copy k.val).stripe q)).state = ((s.copy k.val).stripe q).state ∨ (f ((s.copy k.val).stripe q)).state ≠ .bad) :
    StripeStep k q s (setStripe s k q f) := .updCopy s rfl rfl hf

end SetStripe

/-! ## What is asked after a source has answered (R233, R242) -/

section AskNext

variable {s t : State} {k q : Nat}

/-- With nothing more to ask, only the end of the refetch is looked at. -/
theorem askNext_idle (ht : t.servedBad k q = false) (hx : ((t.copy k).stripe q).source ≤ ((s.copy k).stripe q).source) :
    t.askNext s k q = if s.badStripes.isEmpty then t else t.refetchEnds := by
  have hguard : (!((t.copy k).stripe q).asked && (decide (((s.copy k).stripe q).source < ((t.copy k).stripe q).source) ||
      (t.tik.settled && t.servedBad k q))) = false := by simp [ht, hx]
  unfold State.askNext
  dsimp only
  rw [hguard]
  rfl

/-- A stripe that has passed to a later source is asked of it at once. -/
theorem askNext_asks (ha : ((t.copy k).stripe q).asked = false) (hx : ((s.copy k).stripe q).source < ((t.copy k).stripe q).source) :
    t.askNext s k q = if s.badStripes.isEmpty then t.askStripe k q else (t.askStripe k q).refetchEnds := by
  have hguard : (!((t.copy k).stripe q).asked && (decide (((s.copy k).stripe q).source < ((t.copy k).stripe q).source) ||
      (t.tik.settled && t.servedBad k q))) = true := by simp [ha, hx]
  unfold State.askNext
  dsimp only
  rw [hguard]
  rfl

theorem askNext_congr {r : State} (h : s.bas = r.bas) : t.askNext s k q = t.askNext r k q := by
  unfold State.askNext
  rw [badStripes_congr h, copy_congr h]

end AskNext

/-- The end of a refetch is not reached by an operation on a stripe that slabs cannot read as BAD. -/
theorem StripeStep.refetchEnds {k : Fin 2} {q : Nat} {s t : State} (h : StripeStep k q s t) (hs : s.servedBad k.val q = false) :
    (if s.badStripes.isEmpty then t else t.refetchEnds) = t := by
  split
  · rfl
  · next hb => exact refetchEnds_none (.inl fun ht => hb (by simp [(h.badStripes hs).1 ht]))

/-- Nothing is asked after an operation on a stripe that keeps its source. -/
theorem StripeStep.askNext {k : Fin 2} {q : Nat} {s t : State} (h : StripeStep k q s t) (hs : s.servedBad k.val q = false)
    (hx : ((t.copy k.val).stripe q).source ≤ ((s.copy k.val).stripe q).source) : t.askNext s k.val q = t :=
  (askNext_idle (h.served hs) hx).trans (h.refetchEnds hs)

/-! ## The loss of a stripe (R244) -/

/-- Every other stripe of the copy, and the other copy, are as they were. -/
def OthersKept (k : Fin 2) (q : Nat) (s u : State) : Prop :=
  (∀ j, j < 2 → j ≠ k.val → u.copy j = s.copy j) ∧ ∀ j, j ≠ q → (u.copy k.val).stripe j = (s.copy k.val).stripe j

theorem StripeStep.others {k : Fin 2} {q : Nat} {s t : State} (h : StripeStep k q s t) : OthersKept k q s t := ⟨h.copies, h.stripes⟩

/-- A stripe that no source delivers. -/
def lostStripe (x : Stripe) : Stripe := { x with state := .lost, pieces := [], asked := false }

/-- The stripe alone has become LOST, with BASE_LOST. -/
def StripeGone (k : Fin 2) (q : Nat) (s u : State) : Prop :=
  OthersKept k q s u ∧ (u.copy k.val).stripe q = lostStripe ((s.copy k.val).stripe q) ∧ EventIn u (s.devCopies pBas 4) pBas 4

theorem untraced_bas (i : Nat) (hi : i < 8) : Untraced dev pBas i := by
  unfold Untraced counterKey dev pBas pDbg
  omega

theorem devCopies_of_frame {L : List Part} {s t : State} (h : Frame L s t) (hL : Part.domLife ∉ L) (p b : Nat) : t.devCopies p b = s.devCopies p b :=
  devCopies_congr (fun d => (h.kept .domLife hL d).1) p b

theorem eventIn_of_stays {s t : State} (h : EventsStay s t) {l : List Nat} {p b : Nat} (he : EventIn s l p b) : EventIn t l p b :=
  fun c hc => h c p b (he c hc)

section StripeLost

variable (s : State) (k : Fin 2) (q : Nat)

theorem failReplays_frame : Frame [.pci, .pciPending, .out, .domQueue, .domSlabs] s (s.failReplays k q) :=
  fr_failReplays (fr_refl _ s) k q (fun _ h => h)

theorem stripeLost_frame :
    Frame [.pci, .pciPending, .bas, .traceHead, .views, .counters, .out, .domQueue, .domSlabs] s (s.stripeLost k q) :=
  fr_stripeLost (fr_refl _ s) k q (fun _ h => h)

/-- The state before the end of the build is looked at: the stripe's entry, the slabs that wait on it, and the event. -/
def lostBefore : State := ((setStripe s k q lostStripe).failReplays k q).raiseDev pBas 4

theorem stripeLost_eq : s.stripeLost k q = (lostBefore s k q).buildCheck k := rfl

theorem lostBefore_bas : (lostBefore s k q).bas = (setStripe s k q lostStripe).bas :=
  (raiseDev_bas ..).trans ((failReplays_frame ..).kept .bas (by decide))

theorem StripeStep.stripeLost : StripeStep k q s (s.stripeLost k q) :=
  ((StripeStep.setStripe (.inr (by decide : StripeState.lost ≠ .bad))).trans (.of_bas (lostBefore_bas s k q))).trans (.buildCheck ..)

theorem stripeLost_copy : (s.stripeLost k q).copy k = checked ((s.copy k).putStripe q (lostStripe ((s.copy k).stripe q))) := by
  rw [stripeLost_eq, copy_buildCheck_self, copy_congr (lostBefore_bas s k q), setStripe_copy]

theorem stripeLost_stripe : ((s.stripeLost k q).copy k).stripe q = lostStripe ((s.copy k).stripe q) := by
  rw [stripeLost_copy, checked_stripe, stripe_putStripe, if_pos rfl]

theorem eventsStay_buildCheck (k : Nat) : EventsStay s (s.buildCheck k) := by
  unfold State.buildCheck
  dsimp only
  split
  · exact eventsStay_trans (eventsStay_views ((fr_putCopy (fr_refl [.bas] s) k _ (by decide)).kept .views (by decide))) (eventsStay_raiseDev _ _ _)
  · exact eventsStay_refl s

theorem eventsStay_failReplays : EventsStay s (s.failReplays k q) := eventsStay_views ((failReplays_frame ..).kept .views (by decide))

theorem eventsStay_setStripe (f : Stripe → Stripe) : EventsStay s (setStripe s k q f) :=
  eventsStay_views ((fr_updCopy (fr_refl [.bas] s) k _ (by decide)).kept .views (by decide))

theorem eventsStay_stripeLost : EventsStay s (s.stripeLost k q) := by
  rw [stripeLost_eq, lostBefore]
  exact eventsStay_trans (eventsStay_trans (eventsStay_trans (eventsStay_setStripe s k q _) (eventsStay_failReplays _ k q)) (eventsStay_raiseDev _ _ _))
    (eventsStay_buildCheck _ _)

theorem stripeLost_event : EventIn (s.stripeLost k q) (s.devCopies pBas 4) pBas 4 := by
  have hphase : ((setStripe s k q lostStripe).failReplays k q).devCopies pBas 4 = s.devCopies pBas 4 :=
    (devCopies_of_frame (failReplays_frame ..) (by decide) ..).trans
      (devCopies_of_frame (fr_updCopy (fr_refl [.bas] s) k _ (by decide)) (by decide) ..)
  refine eventIn_of_stays (eventsStay_buildCheck _ _) fun c hc => ?_
  exact raiseDev_event _ pBas 4 (by decide) c (hphase ▸ hc)

theorem stripeLost_gone : StripeGone k q s (s.stripeLost k q) := ⟨(StripeStep.stripeLost s k q).others, stripeLost_stripe s k q, stripeLost_event s k q⟩

theorem counter_buildCheck (k : Nat) {e g i : Nat} (h : Untraced e g i) : (s.buildCheck k).counter e g i = s.counter e g i := by
  unfold State.buildCheck
  dsimp only
  split
  · exact (counter_raiseDev _ _ _ h).trans (counter_congr ((fr_putCopy (fr_refl [.bas] s) k _ (by decide)).kept .counters (by decide)) ..)
  · rfl

theorem counter_setStripe (f : Stripe → Stripe) (e g i : Nat) : (setStripe s k q f).counter e g i = s.counter e g i :=
  counter_congr ((fr_updCopy (fr_refl [.bas] s) k _ (by decide)).kept .counters (by decide)) ..

theorem counter_stripeLost {e g i : Nat} (h : Untraced e g i) : (s.stripeLost k q).counter e g i = s.counter e g i := by
  rw [stripeLost_eq, counter_buildCheck _ _ h, lostBefore, counter_raiseDev _ _ _ h,
    counter_congr ((failReplays_frame ..).kept .counters (by decide)), counter_setStripe]

end StripeLost

/-! ## Asking a source (R233, R404) -/

/-- The stripe as its request leaves it. -/
def askedStripe (x : Stripe) : Stripe := { x with asked := true }

section AskStripe

variable {s : State} {k : Fin 2} {q a : Nat}

theorem askStripe_flash (h : (s.copy k).sources[((s.copy k).stripe q).source]? = some (.flash, a)) :
    s.askStripe k q = (setStripe s k q askedStripe).readStripe k q := by
  unfold State.askStripe
  simp only [h]
  rfl

theorem askStripe_host (h : (s.copy k).sources[((s.copy k).stripe q).source]? = some (.host, a)) :
    s.askStripe k q = (setStripe s k q askedStripe).emit (.hostRead (s.bas.hostBase + w64 ((s.copy k).hostOff + 65536 * q))) := by
  have hbase : (setStripe s k q askedStripe).bas.hostBase = s.bas.hostBase := (congrArg BasState.hostBase (noCopies_updCopy ..) :)
  rw [← hbase]
  unfold State.askStripe
  simp only [h]
  rfl

theorem askStripe_peer (h : (s.copy k).sources[((s.copy k).stripe q).source]? = some (.peer, a)) :
    ∃ t : Txn, s.askStripe k q = (setStripe s k q (fun x => { askedStripe x with pieces := [] })).sendRequest 0xA t ∧
      t.dst = a % 2 ^ 15 ∧ t.txid = w32 (2 ^ 31 * k + q) := by
  rw [← setStripe_setStripe s k q askedStripe (fun x => { x with pieces := [] })]
  unfold State.askStripe
  simp only [h]
  exact ⟨_, rfl, rfl, rfl⟩

end AskStripe

/-! ## A source that fails (R233, R234, R244) -/

/-- The stripe of a tree parent that has failed to deliver it: to be asked for again. -/
def restedStripe (x : Stripe) : Stripe := { x with pieces := [], asked := false }

/-- The stripe once its next source has been asked. -/
def passedStripe (x : Stripe) : Stripe := { x with source := x.source + 1, pieces := [], asked := true, retried := false }

/-- What the failure of a source, in the state b, leaves: under a tree parent the stripe waits to be asked for again; else the next source has been asked at once, or the stripe is LOST. -/
def SourceFailed (s : State) (k : Fin 2) (q : Nat) (b u : State) : Prop :=
  let c := s.copy k.val
  let x := c.stripe q
  let z := (u.copy k.val).stripe q
  let next := c.sources[x.source + 1]?
  (c.underParent = true → OthersKept k q s u ∧ z = restedStripe x ∧ Frame (withEvents [.pci, .bas]) b u) ∧
  (c.underParent = false →
    (next = none → StripeGone k q s u) ∧
    (∀ a, next = some (.flash, a) → OthersKept k q s u ∧ z = passedStripe x ∧ u.out.head? = some (.baseRead k.val q)) ∧
    (∀ a, next = some (.host, a) →
      OthersKept k q s u ∧ z = passedStripe x ∧ u.out.head? = some (.hostRead (s.bas.hostBase + w64 (c.hostOff + 65536 * q)))) ∧
    (∀ a, next = some (.peer, a) → ∃ w t, (s.badStripes = [] → u = w.sendRequest 0xA t) ∧
      (s.badStripes ≠ [] → u = (w.sendRequest 0xA t).refetchEnds) ∧
      t.dst = a % 2 ^ 15 ∧ t.txid = w32 (2 ^ 31 * k + q) ∧ OthersKept k q s w ∧ (w.copy k.val).stripe q = passedStripe x))

section SourceFails

variable {s : State} {k : Fin 2} {q : Nat}

theorem sourceFails_under (hu : (s.copy k).underParent = true) : s.sourceFails k q = setStripe s k q restedStripe := by
  unfold State.sourceFails
  dsimp only
  rw [if_pos hu]
  rfl

theorem sourceFails_last (hu : (s.copy k).underParent = false) (hn : (s.copy k).sources[((s.copy k).stripe q).source + 1]? = none) :
    s.sourceFails k q = s.stripeLost k q := by
  unfold State.sourceFails
  dsimp only
  rw [if_neg (ne_true_of_eq_false hu), if_pos (List.getElem?_eq_none_iff.1 hn)]

/-- The stripe as a failing source leaves it, before the next one is asked. -/
def movedStripe (x : Stripe) : Stripe := { x with source := x.source + 1, pieces := [], asked := false, retried := false }

theorem sourceFails_next {r : StripeSource × Nat} (hu : (s.copy k).underParent = false)
    (hn : (s.copy k).sources[((s.copy k).stripe q).source + 1]? = some r) : s.sourceFails k q = setStripe s k q movedStripe := by
  have hlt := (List.getElem?_eq_some_iff.1 hn).1
  unfold State.sourceFails
  dsimp only
  rw [if_neg (ne_true_of_eq_false hu), if_neg (Nat.not_le.2 hlt)]
  rfl

theorem setStripe_sources (f : Stripe → Stripe) : ((setStripe s k q f).copy k).sources = (s.copy k).sources := by
  rw [setStripe_copy]
  rfl

/-- The source that is asked once the stripe has moved on to it. -/
theorem movedStripe_source {r : StripeSource × Nat} (hn : (s.copy k).sources[((s.copy k).stripe q).source + 1]? = some r) :
    ((setStripe s k q movedStripe).copy k).sources[(((setStripe s k q movedStripe).copy k).stripe q).source]? = some r := by
  rw [setStripe_sources, setStripe_stripe]
  exact hn

theorem StripeStep.passed : StripeStep k q s (Proofs.setStripe s k q passedStripe) := .setStripe (.inl rfl)

theorem readStripe_bas (s : State) (k q : Nat) : (s.readStripe k q).bas = s.bas := rfl

theorem readStripe_out (s : State) (k q : Nat) : (s.readStripe k q).out = .baseRead k q :: s.out := rfl

/-- The stripe has passed to its next source, and nothing of Carter's has changed since. -/
theorem passed_leaves {u : State} (h : u.bas = (setStripe s k q passedStripe).bas) :
    OthersKept k q s u ∧ (u.copy k).stripe q = passedStripe ((s.copy k).stripe q) :=
  ⟨(StripeStep.passed.trans (.of_bas h)).others, by rw [copy_congr h, setStripe_stripe]⟩

theorem askNext_next {r : StripeSource × Nat} (hu : (s.copy k).underParent = false)
    (hn : (s.copy k).sources[((s.copy k).stripe q).source + 1]? = some r) :
    (s.sourceFails k q).askNext s k q = if s.badStripes.isEmpty then (setStripe s k q movedStripe).askStripe k q
      else ((setStripe s k q movedStripe).askStripe k q).refetchEnds := by
  rw [sourceFails_next hu hn]
  refine askNext_asks ?_ ?_
  · rw [setStripe_stripe]
    rfl
  · rw [setStripe_stripe]
    exact Nat.lt_succ_self _

theorem askNext_peer {a : Nat} (hu : (s.copy k).underParent = false)
    (hn : (s.copy k).sources[((s.copy k).stripe q).source + 1]? = some (.peer, a)) :
    ∃ t : Txn, (s.sourceFails k q).askNext s k q = (if s.badStripes.isEmpty then (setStripe s k q passedStripe).sendRequest 0xA t
      else ((setStripe s k q passedStripe).sendRequest 0xA t).refetchEnds) ∧ t.dst = a % 2 ^ 15 ∧ t.txid = w32 (2 ^ 31 * k + q) := by
  obtain ⟨t, hask, hdst, htxid⟩ := askStripe_peer (movedStripe_source hn)
  rw [setStripe_setStripe] at hask
  refine ⟨t, ?_, hdst, htxid⟩
  rw [askNext_next hu hn, hask]
  rfl

variable (hs : s.servedBad k q = false)
include hs

theorem askNext_under (hu : (s.copy k).underParent = true) : (s.sourceFails k q).askNext s k q = setStripe s k q restedStripe := by
  rw [sourceFails_under hu]
  refine (StripeStep.setStripe (.inl rfl)).askNext hs ?_
  rw [setStripe_stripe]
  exact Nat.le_refl _

theorem askNext_last (hu : (s.copy k).underParent = false) (hn : (s.copy k).sources[((s.copy k).stripe q).source + 1]? = none) :
    (s.sourceFails k q).askNext s k q = s.stripeLost k q := by
  rw [sourceFails_last hu hn]
  refine (StripeStep.stripeLost s k q).askNext hs ?_
  rw [stripeLost_stripe]
  exact Nat.le_refl _

theorem askNext_flash {a : Nat} (hu : (s.copy k).underParent = false)
    (hn : (s.copy k).sources[((s.copy k).stripe q).source + 1]? = some (.flash, a)) :
    (s.sourceFails k q).askNext s k q = (setStripe s k q passedStripe).readStripe k q := by
  have hask : (setStripe s k q movedStripe).askStripe k q = (setStripe s k q passedStripe).readStripe k q := by
    rw [askStripe_flash (movedStripe_source hn), setStripe_setStripe]
    rfl
  rw [askNext_next hu hn, hask]
  exact (StripeStep.passed.trans (.of_bas (readStripe_bas ..))).refetchEnds hs

theorem askNext_host {a : Nat} (hu : (s.copy k).underParent = false)
    (hn : (s.copy k).sources[((s.copy k).stripe q).source + 1]? = some (.host, a)) :
    (s.sourceFails k q).askNext s k q =
      (setStripe s k q passedStripe).emit (.hostRead (s.bas.hostBase + w64 ((s.copy k).hostOff + 65536 * q))) := by
  have hoff : ((setStripe s k q movedStripe).copy k).hostOff = (s.copy k).hostOff := by rw [setStripe_copy]; rfl
  have hbase : (setStripe s k q movedStripe).bas.hostBase = s.bas.hostBase := (congrArg BasState.hostBase (noCopies_updCopy ..) :)
  have hask : (setStripe s k q movedStripe).askStripe k q =
      (setStripe s k q passedStripe).emit (.hostRead (s.bas.hostBase + w64 ((s.copy k).hostOff + 65536 * q))) := by
    rw [askStripe_host (movedStripe_source hn), setStripe_setStripe, hoff, hbase]
    rfl
  rw [askNext_next hu hn, hask]
  exact (StripeStep.passed.trans (.of_bas (emit_bas ..))).refetchEnds hs

/-- What the failure of a source leaves, with what Carter asks next. -/
theorem sourceFailed_self : SourceFailed s k q s ((s.sourceFails k q).askNext s k q) := by
  refine ⟨fun hu => ?under, fun hu => ⟨fun hn => ?last, fun a hn => ?flash, fun a hn => ?host, fun a hn => ?peer⟩⟩
  case under =>
    rw [askNext_under hs hu]
    exact ⟨(StripeStep.setStripe (.inl rfl)).others, setStripe_stripe .., fr_updCopy (fr_refl _ s) k _ (by decide)⟩
  case last =>
    rw [askNext_last hs hu hn]
    exact stripeLost_gone s k q
  case flash =>
    rw [askNext_flash hs hu hn]
    obtain ⟨hothers, hstripe⟩ := passed_leaves (readStripe_bas (setStripe s k q passedStripe) k q)
    exact ⟨hothers, hstripe, congrArg List.head? (readStripe_out ..)⟩
  case host =>
    rw [askNext_host hs hu hn]
    obtain ⟨hothers, hstripe⟩ := passed_leaves (emit_bas (setStripe s k q passedStripe) _)
    exact ⟨hothers, hstripe, congrArg List.head? (emit_out ..)⟩
  case peer =>
    obtain ⟨t, hask, hdst, htxid⟩ := askNext_peer hu hn
    exact ⟨_, t, fun hb => hask.trans (if_pos (by simp [hb])), fun hb => hask.trans (if_neg (by simp [hb])), hdst, htxid,
      passed_leaves rfl⟩

/-- A failure that asks no peer moves no counter of the BAS page. -/
theorem counter_sourceFails {i : Nat} (hi : i < 8) (hp : (s.copy k).underParent = true ∨
    ∀ a, (s.copy k).sources[((s.copy k).stripe q).source + 1]? ≠ some (.peer, a)) :
    ((s.sourceFails k q).askNext s k q).counter dev pBas i = s.counter dev pBas i := by
  by_cases hu : (s.copy k).underParent = true
  · rw [askNext_under hs hu, counter_setStripe]
  · have hu := Bool.eq_false_iff.2 hu
    have hp := hp.resolve_left (ne_true_of_eq_false hu)
    match hn : (s.copy k).sources[((s.copy k).stripe q).source + 1]? with
    | none => rw [askNext_last hs hu hn, counter_stripeLost _ _ _ (untraced_bas i hi)]
    | some (.flash, a) =>
      have hkey (j : Nat) (hj : j < 8) : counterKey dev pBas i ≠ counterKey dev pNvm j := by
        unfold counterKey dev pBas pNvm
        omega
      rw [askNext_flash hs hu hn, State.readStripe, counter_bump, if_neg (hkey 2 (by decide)), counter_bump, if_neg (hkey 0 (by decide)),
        emit_counter, counter_setStripe]
    | some (.host, a) => rw [askNext_host hs hu hn, emit_counter, counter_setStripe]
    | some (.peer, a) => exact absurd hn (hp a)

end SourceFails

theorem OthersKept.of_bas {s t u : State} {k : Fin 2} {q : Nat} (h : t.bas = s.bas) (ho : OthersKept k q t u) : OthersKept k q s u := by
  simpa only [OthersKept, copy_congr h] using ho

/-- What a failure leaves is said of the state before it or of any other with the same copies and domains. -/
theorem SourceFailed.of_bas {s b b' u : State} {k : Fin 2} {q : Nat} (h : b.bas = s.bas) (hd : b.devCopies pBas 4 = s.devCopies pBas 4)
    (hf : SourceFailed b k q b' u) : SourceFailed s k q b' u := by
  simpa only [SourceFailed, StripeGone, OthersKept, copy_congr h, badStripes_congr h, h, hd] using hf

/-! ## A stripe that is written (R224, R231, R238, R242) -/

/-- What finding a place for a stripe leaves: pages and free values alone have changed. -/
structure PlaceFound (k : Fin 2) (q : Nat) (s t : State) : Prop where
  frame : Frame [.bas, .freeCtr] s t
  step : StripeStep k q s t
  image : (t.copy k.val).image = (s.copy k.val).image
  state : (t.copy k.val).state = (s.copy k.val).state
  stripes : (t.copy k.val).stripes = (s.copy k.val).stripes
  held : ((t.copy k.val).stripe q).flashHeld = ((s.copy k.val).stripe q).flashHeld
  rest : noCopies t.bas = noCopies s.bas

section PlaceFound

variable {k : Fin 2} {q : Nat} {s t u : State}

theorem PlaceFound.trans (a : PlaceFound k q s t) (b : PlaceFound k q t u) : PlaceFound k q s u :=
  ⟨fr_trans a.frame b.frame, a.step.trans b.step, b.image.trans a.image, b.state.trans a.state, b.stripes.trans a.stripes,
   b.held.trans a.held, b.rest.trans a.rest⟩

theorem PlaceFound.of_bas (hf : Frame [.bas, .freeCtr] s t) (h : t.bas = s.bas) : PlaceFound k q s t :=
  ⟨hf, .of_bas h, by rw [copy_congr h], by rw [copy_congr h], by rw [copy_congr h], by rw [copy_congr h], congrArg noCopies h⟩

theorem PlaceFound.refl (s : State) : PlaceFound k q s s := .of_bas (fr_refl _ s) rfl

theorem pickRuns_bas (s : State) (n : Nat) (free : List (Nat × Nat)) : (s.pickRuns n free).2.bas = s.bas := rfl

theorem PlaceFound.pickRuns (s : State) (n : Nat) (free : List (Nat × Nat)) : PlaceFound k q s (s.pickRuns n free).2 :=
  .of_bas (fr_pickRuns (fr_refl _ s) n free (by decide)) (pickRuns_bas ..)

theorem PlaceFound.updPages (s : State) (l : List Nat) : PlaceFound k q s (s.updCopy k (fun c => { c with pages := c.pages ++ l })) := by
  have hself := copy_updCopy_self s k (fun c => { c with pages := c.pages ++ l })
  exact ⟨fr_updCopy (fr_refl _ s) k _ (by decide), .updCopy_stripes s rfl rfl, by rw [hself], by rw [hself], by rw [hself],
    by rw [hself]; rfl, noCopies_updCopy ..⟩

theorem PlaceFound.setPage (s : State) (p : Option Nat) : PlaceFound k q s (setStripe s k q (fun x => { x with page := p })) := by
  have hself := setStripe_copy s k q (fun x => { x with page := p })
  refine ⟨fr_updCopy (fr_refl _ s) k _ (by decide), .setStripe (.inl rfl), ?_, ?_, ?_, ?_, noCopies_updCopy ..⟩
  · rw [hself]
    rfl
  · rw [hself]
    rfl
  · rw [hself]
    rfl
  · rw [setStripe_stripe]

theorem PlaceFound.takePages (s : State) : PlaceFound k q s (s.takePages k q) := by
  unfold State.takePages
  dsimp only
  split
  · exact .refl s
  · exact (PlaceFound.pickRuns ..).trans (.updPages ..)

theorem PlaceFound.movePage (s : State) : PlaceFound k q s (s.movePage k q) := by
  unfold State.movePage
  split
  · exact .refl s
  · exact (PlaceFound.pickRuns s 1 s.freePages).trans (.setPage _ _)

end PlaceFound

/-- The stripe's bytes stand at its place, it is resident, and its flags say whether it is staged. -/
structure Written (k : Fin 2) (q : Nat) (bytes : List Byte) (staged : Bool) (s t : State) : Prop where
  frame : Frame [.bas, .freeCtr] s t
  step : StripeStep k q s t
  image : (t.copy k.val).image = memPut (s.copy k.val).image (65536 * q) bytes
  state : (t.copy k.val).state = (s.copy k.val).state
  stripes : (t.copy k.val).stripes = (s.copy k.val).stripes
  stripe : ((t.copy k.val).stripe q).state = .resident ∧ ((t.copy k.val).stripe q).source = 0
  flags : ((t.copy k.val).stripe q).staged = staged ∧ ((t.copy k.val).stripe q).flashHeld = staged
  rest : noCopies t.bas = noCopies s.bas

theorem PlaceFound.writeStripe {k : Fin 2} {q : Nat} {s t : State} (h : PlaceFound k q s t) (bytes : List Byte) {f : Stripe → Stripe} {staged : Bool}
    (hf : ∀ y, (f y).state = y.state ∧ (f y).source = y.source)
    (hg : ∀ y : Stripe, y.flashHeld = ((s.copy k).stripe q).flashHeld → (f y).staged = staged ∧ (f y).flashHeld = staged) :
    Written k q bytes staged s (t.writeStripe k q bytes f) := by
  have hself := copy_updCopy_self t k (fun c => (c.write q bytes).putStripe q
    (f { c.stripe q with state := .resident, servable := false, source := 0, pieces := [], asked := false, retried := false }))
  have hstripe : ((t.writeStripe k q bytes f).copy k).stripe q =
      f { (t.copy k).stripe q with state := .resident, servable := false, source := 0, pieces := [], asked := false, retried := false } := by
    rw [State.writeStripe, hself, stripe_putStripe, if_pos rfl]
  have hstate := (hf { (t.copy k).stripe q with state := .resident, servable := false, source := 0, pieces := [], asked := false, retried := false })
  refine ⟨fr_writeStripe h.frame k q bytes f (by decide), h.step.trans (.updCopy t rfl rfl (.inr ?_)), ?_, ?_, ?_, ?_, ?_,
    (noCopies_updCopy ..).trans h.rest⟩
  · rw [hstate.1]
    exact (by decide : StripeState.resident ≠ .bad)
  · rw [State.writeStripe, hself, ← h.image]
    rfl
  · rw [State.writeStripe, hself]
    exact h.state
  · rw [State.writeStripe, hself]
    exact h.stripes
  · rw [hstripe]
    exact hstate
  · rw [hstripe]
    exact hg _ h.held

/-- The stripe written where it belongs: in the page that there is room for now, in base staging, or in the page of a stripe that its copy lacks. -/
def placedStripe (s : State) (k q : Nat) (bytes : List Byte) : State :=
  if s.fills k q then (s.takePages k q).writeStripe k q bytes (fun y => { y with flashHeld := false, staged := false, slot := 0 })
  else if ((s.copy k).stripe q).flashHeld then
    (s.pickRuns 1 s.freeStageSlots).2.writeStripe k q bytes
      (fun y => { y with staged := true, slot := (runsList (s.pickRuns 1 s.freeStageSlots).1).headD 0 })
  else ((s.takePages k q).movePage k q).writeStripe k q bytes (fun y => { y with flashHeld := false, staged := false, slot := 0 })

theorem placedStripe_written (s : State) (k : Fin 2) (q : Nat) (bytes : List Byte) :
    Written k q bytes (((s.copy k).stripe q).flashHeld && !s.fills k q) s (placedStripe s k q bytes) := by
  unfold placedStripe
  by_cases hfill : s.fills k q = true
  · rw [if_pos hfill, hfill, Bool.not_true, Bool.and_false]
    exact (PlaceFound.takePages s).writeStripe bytes (fun _ => ⟨rfl, rfl⟩) (fun _ _ => ⟨rfl, rfl⟩)
  · rw [if_neg hfill, Bool.eq_false_iff.2 hfill, Bool.not_false, Bool.and_true]
    by_cases hheld : ((s.copy k).stripe q).flashHeld = true
    · rw [if_pos hheld]
      exact (PlaceFound.pickRuns s 1 s.freeStageSlots).writeStripe bytes (fun _ => ⟨rfl, rfl⟩) (fun y hy => ⟨hheld.symm, hy⟩)
    · rw [if_neg hheld, Bool.eq_false_iff.2 hheld]
      exact ((PlaceFound.takePages s).trans (.movePage _)).writeStripe bytes (fun _ => ⟨rfl, rfl⟩) (fun _ _ => ⟨rfl, rfl⟩)

/-! ## A stripe that arrives (R224, R235, R247) -/

/-- The counters and BUILD_DONE once a stripe has been written. -/
def countArrival (s t : State) (k q : Nat) (src : StripeSource) : State :=
  let again := ((s.copy k).stripe q).state == .bad
  let t2 := t.bump dev pBas (sourceCounter src) 1
  let t3 := if again then t2.bump dev pBas 4 1 else t2
  if (s.copy k).state = .building ∧ !again then t3.updBas (fun b => { b with buildDone := b.buildDone + 1 }) else t3

section Arrival

variable {s : State} {k : Fin 2} {q : Nat}

theorem stripeArrives_verified (src : StripeSource) {bytes : List Byte} (hf : s.fetching k q = true) (hd : s.digestOk k q bytes = true) :
    s.stripeArrives k q src bytes = (countArrival s (placedStripe s k q bytes) k q src).buildCheck k := by
  unfold State.stripeArrives
  rw [if_neg (by simp [hf]), if_neg (by simp [hd])]
  rfl

theorem stripeArrives_refused (src : StripeSource) {bytes : List Byte} (hf : s.fetching k q = true) (hd : s.digestOk k q bytes = false) :
    s.stripeArrives k q src bytes = (s.bump dev pBas 5 1).sourceFails k q := by
  unfold State.stripeArrives
  rw [if_neg (by simp [hf]), if_pos (by simp [hd])]

theorem stripeArrives_unwanted (src : StripeSource) (bytes : List Byte) (hf : s.fetching k q = false) : s.stripeArrives k q src bytes = s := by
  unfold State.stripeArrives
  rw [if_pos (by simp [hf])]

end Arrival

section CountArrival

variable (s t : State) (k : Fin 2) (q : Nat) (src : StripeSource)

theorem countArrival_frame : Frame [.bas, .counters] t (countArrival s t k q src) := by
  unfold countArrival
  have h2 := fr_bump (fr_refl [.bas, .counters] t) dev pBas (sourceCounter src) 1 (by decide)
  have h3 := ite_frame (c := (((s.copy k).stripe q).state == .bad) = true) (fr_bump h2 dev pBas 4 1 (by decide)) h2
  exact ite_frame (fr_updBas h3 _ (by decide)) h3

theorem countArrival_copy (j : Nat) : (countArrival s t k q src).copy j = t.copy j := by
  unfold countArrival
  dsimp only
  split
  · split
    · rfl
    · rfl
  · split
    · rfl
    · rfl

theorem countArrival_buildDone : (countArrival s t k q src).bas.buildDone =
    t.bas.buildDone + if (s.copy k).state = .building ∧ ((s.copy k).stripe q).state ≠ .bad then 1 else 0 := by
  unfold countArrival
  by_cases hb : ((s.copy k).stripe q).state = .bad
  · simp [hb]
  · by_cases hs : (s.copy k).state = .building
    · simp [hb, hs]
    · simp [hb, hs]

theorem countArrival_source : (countArrival s t k q src).counter dev pBas (sourceCounter src) = t.counter dev pBas (sourceCounter src) + 1 := by
  have hkey : counterKey dev pBas (sourceCounter src) ≠ counterKey dev pBas 4 := by
    unfold counterKey
    cases src <;> decide
  unfold countArrival
  dsimp only
  split
  · split
    · rw [updBas_counter, counter_bump, if_neg hkey, counter_bump_self]
      rfl
    · rw [updBas_counter, counter_bump_self]
      rfl
  · split
    · rw [counter_bump, if_neg hkey, counter_bump_self]
      rfl
    · rw [counter_bump_self]
      rfl

theorem countArrival_again (h : ((s.copy k).stripe q).state = .bad) :
    (countArrival s t k q src).counter dev pBas 4 = t.counter dev pBas 4 + 1 := by
  have hkey : counterKey dev pBas 4 ≠ counterKey dev pBas (sourceCounter src) := by
    unfold counterKey
    cases src <;> decide
  unfold countArrival
  simp only [h, beq_self_eq_true, if_true, Bool.not_true, Bool.false_eq_true, and_false, if_false]
  rw [counter_bump_self, counter_bump, if_neg hkey]
  rfl

end CountArrival

/-- What a verified delivery leaves, from the state b in which it is taken: its bytes, its flags, its counters, and the end of the build. -/
def StripeVerified (s : State) (k : Fin 2) (q : Nat) (bytes : List Byte) (src : StripeSource) (b u : State) : Prop :=
  let c := s.copy k.val
  let x := c.stripe q
  let y := u.copy k.val
  OthersKept k q s u ∧ Frame (withEvents [.bas, .freeCtr]) b u ∧ y.image = memPut c.image (65536 * q) bytes ∧ (y.stripe q).state = .resident ∧
  (y.stripe q).staged = (x.flashHeld && !s.fills k.val q) ∧ (y.stripe q).flashHeld = (y.stripe q).staged ∧
  u.counter dev pBas (sourceCounter src) = s.counter dev pBas (sourceCounter src) + 1 ∧
  (x.state = .bad → u.counter dev pBas 4 = s.counter dev pBas 4 + 1) ∧
  u.bas.buildDone = s.bas.buildDone + (if c.state = .building ∧ x.state ≠ .bad then 1 else 0) ∧
  (c.state ≠ .building → y.state = c.state) ∧
  (c.state = .building → (y.stripeMap.filter (fun p => settledStripe p.2)).length ≠ c.stripes → y.state = .building) ∧
  (c.state = .building → (y.stripeMap.filter (fun p => settledStripe p.2)).length = c.stripes →
    y.state = .ready ∧ EventIn u (s.devCopies pBas 1) pBas 1)

theorem buildCheck_event {s : State} {k : Nat} (h : (s.copy k).state = .building)
    (he : ((s.copy k).stripeMap.filter (fun p => settledStripe p.2)).length = (s.copy k).stripes) :
    EventIn (s.buildCheck k) (s.devCopies pBas 1) pBas 1 := by
  have hput : (s.putCopy k { s.copy k with state := .ready }).devCopies pBas 1 = s.devCopies pBas 1 :=
    devCopies_of_frame (fr_putCopy (fr_refl [.bas] s) k _ (by decide)) (by decide) ..
  have hcheck : s.buildCheck k = (s.putCopy k { s.copy k with state := .ready }).raiseDev pBas 1 := if_pos ⟨h, he⟩
  rw [hcheck, ← hput]
  exact fun c hc => raiseDev_event _ pBas 1 (by decide) c hc

theorem stripeVerified_self {s : State} {k : Fin 2} {q : Nat} {bytes : List Byte} (src : StripeSource) (hf : s.fetching k q = true)
    (hd : s.digestOk k q bytes = true) (hs : s.servedBad k q = false) :
    StripeVerified s k q bytes src s ((s.stripeArrives k q src bytes).askNext s k q) := by
  obtain ⟨hframe, hstep, himage, hstate, hstripes, ⟨hres, hsrc⟩, ⟨hstaged, hheld⟩, hrest⟩ := placedStripe_written s k q bytes
  have hcount := countArrival_frame s (placedStripe s k q bytes) k q src
  have hcopy := countArrival_copy s (placedStripe s k q bytes) k q src
  have hdone := countArrival_buildDone s (placedStripe s k q bytes) k q src
  have hsource := countArrival_source s (placedStripe s k q bytes) k q src
  have hagain := countArrival_again s (placedStripe s k q bytes) k q src
  have hcounter (i : Nat) : (placedStripe s k q bytes).counter dev pBas i = s.counter dev pBas i :=
    counter_congr (hframe.kept .counters (by decide)) ..
  rw [stripeArrives_verified src hf hd]
  generalize placedStripe s k q bytes = t at *
  generalize countArrival s t k q src = r at *
  have hr : StripeStep k q s (r.buildCheck k) := by
    refine (hstep.trans ⟨fun j _ _ => hcopy j, fun j _ => by rw [hcopy], fun h => ?_, fun _ => by rw [hcopy]⟩).trans (.buildCheck ..)
    rw [← h, State.servedBad, hcopy]
    rfl
  have hself : (r.buildCheck k).copy k = checked (t.copy k) := (copy_buildCheck_self ..).trans (congrArg checked (hcopy k))
  have hask : (r.buildCheck k).askNext s k q = r.buildCheck k := hr.askNext hs (by
    rw [hself, checked_stripe, hsrc]
    exact Nat.zero_le _)
  rw [hask]
  have hbuilt : (r.buildCheck k).bas.buildDone = r.bas.buildDone := (congrArg BasState.buildDone (noCopies_buildCheck ..) :)
  have hdone0 : t.bas.buildDone = s.bas.buildDone := (congrArg BasState.buildDone hrest :)
  have hlive : r.devCopies pBas 1 = s.devCopies pBas 1 := (devCopies_of_frame hcount (by decide) ..).trans (devCopies_of_frame hframe (by decide) ..)
  refine ⟨hr.others, ?frame, ?image, ?state, ?staged, ?held, ?source, fun hb => ?again, ?built, fun hn => ?other, fun hb hn => ?building,
    fun hb he => ?ready⟩
  case frame => exact fr_buildCheck (fr_trans (fr_mono hframe (by decide)) (fr_mono hcount (by decide))) k (by decide)
  case image => rw [hself]; exact himage
  case state => rw [hself]; exact hres
  case staged => rw [hself]; exact hstaged
  case held => rw [hself]; exact hheld.trans hstaged.symm
  case source => rw [counter_buildCheck _ _ (untraced_bas _ (by cases src <;> decide)), hsource, hcounter]
  case again => rw [counter_buildCheck _ _ (untraced_bas _ (by decide)), hagain hb, hcounter]
  case built => rw [hbuilt, hdone, hdone0]
  case other =>
    rw [hself, checked_of_not_ends fun h => hn (hstate ▸ h.1), hstate]
  case building =>
    rw [hself] at hn ⊢
    have hnt : ((t.copy k).stripeMap.filter (fun p => settledStripe p.2)).length ≠ (s.copy k).stripes := hn
    rw [checked_of_not_ends fun h => hnt (h.2.trans hstripes), hstate, hb]
  case ready =>
    rw [hself] at he ⊢
    have hbt : (t.copy k).state = .building := hstate.trans hb
    have het : ((t.copy k).stripeMap.filter (fun p => settledStripe p.2)).length = (t.copy k).stripes := he.trans hstripes.symm
    rw [checked_of_ends ⟨hbt, het⟩, ← hlive]
    exact ⟨rfl, buildCheck_event (by rw [hcopy]; exact hbt) (by rw [hcopy]; exact het)⟩

/-! ## A flash read that ends late (R232, R297) -/

theorem rdMem_congr {s t : State} (hd : ∀ e, (t.dom e).tir.pages = (s.dom e).tir.pages ∧ (t.dom e).mem = (s.dom e).mem ∧
    (t.dom e).poison = (s.dom e).poison) (hm : t.mbds = s.mbds) (d a n : Nat) : t.rdMem d a n = s.rdMem d a n := by
  have hhome (a : Nat) : t.home d a = s.home d a := by
    unfold State.home
    rw [(hd d).1]
  unfold State.rdMem State.memLost
  simp only [hhome, (hd _).2.1, (hd _).2.2, hm]

theorem shiftFromDev_range (x : Dom) (kind : DevSlab) (ns : Nat) : (x.shiftFromDev kind ns).tir.pages = x.tir.pages ∧
    (x.shiftFromDev kind ns).mem = x.mem ∧ (x.shiftFromDev kind ns).poison = x.poison := by
  unfold Dom.shiftFromDev
  split
  · exact ⟨rfl, rfl, rfl⟩
  · exact ⟨rfl, rfl, rfl⟩

/-- The state in which a delivery is taken: Carter's slab stalled by what a flash read was late. -/
def lateStall (s : State) (late : Nat) : State := if late = 0 then s else s.carterStall 0x10 (some 3) late

/-- What a late read leaves alone: Carter's state, the bytes that domains read, and the time base. -/
structure StallKeeps (late : Nat) (s b : State) : Prop where
  frame : Frame [.counters, .stretch, .domSlabs, .domTir] s b
  bas : b.bas = s.bas
  counted : b.counter 0 pTir 3 = s.counter 0 pTir 3 + w64 late
  counters : ∀ i, i < 8 → b.counter dev pBas i = s.counter dev pBas i
  read : ∀ d a n, b.rdMem d a n = s.rdMem d a n

theorem lateStall_keeps (s : State) (late : Nat) : StallKeeps late s (lateStall s late) := by
  have hkey (i : Nat) (hi : i < 8) : counterKey dev pBas i ≠ counterKey 0 pTir 3 := by
    unfold counterKey dev pBas pTir
    omega
  unfold lateStall
  split
  · next h =>
    subst h
    exact ⟨fr_refl _ s, rfl, (BitVec.add_zero _).symm, fun _ _ => rfl, fun _ _ _ => rfl⟩
  · have hmbds : (s.carterStall 0x10 (some 3) late).mbds = s.mbds := rfl
    refine ⟨fr_carterStall (fr_refl _ s) 0x10 (some 3) late (by decide), rfl, counter_bump_self .., fun i hi => ?_, fun d a n => ?_⟩
    · exact (counter_bump ..).trans (if_neg (hkey i hi))
    · refine rdMem_congr (fun e => ?_) hmbds d a n
      have hdom : (s.carterStall 0x10 (some 3) late).dom e = if e = 0 then (s.dom 0).shiftFromDev .carter late else s.dom e := dom_updDom ..
      rw [hdom]
      split
      · next he => exact he ▸ shiftFromDev_range ..
      · exact ⟨rfl, rfl, rfl⟩

theorem digestOk_congr {s b : State} (hb : b.bas = s.bas) (hr : ∀ d a n, b.rdMem d a n = s.rdMem d a n) (k q : Nat) (bytes : List Byte) :
    b.digestOk k q bytes = s.digestOk k q bytes := by
  unfold State.digestOk
  dsimp only
  rw [copy_congr hb, hr]

theorem fetching_congr {s b : State} (hb : b.bas = s.bas) (k q : Nat) : b.fetching k q = s.fetching k q := by
  unfold State.fetching State.fills State.fits State.freePages
  simp only [copy_congr hb, hb]

theorem fills_congr {s b : State} (hb : b.bas = s.bas) (k q : Nat) : b.fills k q = s.fills k q := by
  unfold State.fills State.fits State.freePages
  simp only [copy_congr hb, hb]

/-! ## What a delivery or a failure leaves, said of the state before the command -/

/-- The failure of a source in a state B that has the copies of s; nothing but what an event or the host port moves lies between b and B. -/
theorem sourceFailed_from {s b B n : State} {k : Fin 2} {q : Nat} (hB : B.bas = s.bas) (hn : n.bas = s.bas)
    (hd : B.devCopies pBas 4 = s.devCopies pBas 4) (hf : Frame (withEvents [.pci, .bas]) b B) (hs : s.servedBad k q = false) :
    SourceFailed s k q b ((B.sourceFails k q).askNext n k q) := by
  rw [askNext_congr (hn.trans hB.symm)]
  obtain ⟨hunder, hothers⟩ := (sourceFailed_self ((servedBad_congr hB ..).trans hs)).of_bas hB hd
  refine ⟨fun hu => ?_, hothers⟩
  obtain ⟨ho, hz, hframe⟩ := hunder hu
  exact ⟨ho, hz, fr_trans hf hframe⟩

theorem StripeVerified.of_bas {s b u : State} {k : Fin 2} {q : Nat} {bytes : List Byte} {src : StripeSource} (hb : b.bas = s.bas)
    (hc : ∀ i, i < 8 → b.counter dev pBas i = s.counter dev pBas i) (hd : b.devCopies pBas 1 = s.devCopies pBas 1)
    (h : StripeVerified b k q bytes src b u) : StripeVerified s k q bytes src b u := by
  have hsrc : b.counter dev pBas (sourceCounter src) = s.counter dev pBas (sourceCounter src) := hc _ (by cases src <;> decide)
  simpa only [StripeVerified, OthersKept, copy_congr hb, fills_congr hb, hsrc, hc 4 (by decide), hd, hb] using h

/-! ## Deliveries (R224, R232, R242) -/

/-- Carter fetches the stripe, and it is none that slabs could read as BAD. -/
def Fetched (s : State) (k q : Nat) : Prop :=
  s.fetching k q = true ∧ ¬ (((s.copy k).state = .active ∨ (s.copy k).state = .retiring) ∧ ((s.copy k).stripe q).state = .bad)

/-- What a flash read is late by: what it ends after its planned end in the run phase (R297). -/
def lateNs (s : State) (k q : Nat) (src : StripeSource) (nowNs : Nat) : Nat :=
  if src = .flash ∧ s.flashAsked k q = true ∧ s.inRun = true then nowNs - s.bas.due else 0

section Deliveries

variable {s : State} {k : Fin 2} {q : Nat} (bytes : List Byte) (nowNs : Nat)

theorem Fetched.unserved (h : Fetched s k q) : s.servedBad k q = false := Bool.eq_false_iff.2 fun hs => h.2 (servedBad_iff.1 hs)

theorem Fetched.wanted (h : Fetched s k q) : s.wanted k q = true := by
  rw [State.wanted, h.1]
  rfl

theorem unwanted_iff : s.wanted k q = false ↔ s.fetching k q = false ∧ s.servedBad k q = false := Bool.or_eq_false_iff

theorem exec_stripeFetchDone (src : StripeSource) : exec (.stripeFetchDone k q src ⟨bytes, nowNs⟩) s =
    .next (((lateStall (s.atTime nowNs) (lateNs s k q src nowNs)).stripeArrives k q src bytes).askNext
      (lateStall (s.atTime nowNs) (lateNs s k q src nowNs)) k q) := rfl

theorem exec_hostData : exec (.hostReadCompletion k q ⟨.data bytes, nowNs⟩) s =
    .next (((s.atTime nowNs).stripeIn k q .host bytes).askNext (s.atTime nowNs) k q) := rfl

theorem lateNs_of_not_flash {src : StripeSource} (h : src ≠ .flash) : lateNs s k q src nowNs = 0 := if_neg fun hf => h hf.1

theorem stripeIn_of_unserved (src : StripeSource) (h : s.servedBad k q = false) : s.stripeIn k q src bytes = s.stripeArrives k q src bytes :=
  if_neg (ne_true_of_eq_false h)

/-- A delivery of a fetched stripe: written where its digest verifies it, else its source has failed. -/
theorem stripeFetchDone_leaves (src : StripeSource) :
    ∃ b, Frame [.tik, .fuses, .counters, .stretch, .domSlabs, .domTir] s b ∧ b.tik = (s.atTime nowNs).tik ∧
      b.counter 0 pTir 3 = s.counter 0 pTir 3 + w64 (lateNs s k q src nowNs) ∧
      (Fetched s k q → s.digestOk k q bytes = true →
        ∃ u, exec (.stripeFetchDone k q src ⟨bytes, nowNs⟩) s = .next u ∧ StripeVerified s k q bytes src b u) ∧
      (Fetched s k q → s.digestOk k q bytes = false →
        ∃ u, exec (.stripeFetchDone k q src ⟨bytes, nowNs⟩) s = .next u ∧ SourceFailed s k q (b.bump dev pBas 5 1) u ∧
          ((s.copy k).underParent = true ∨ (∀ a, (s.copy k).sources[((s.copy k).stripe q).source + 1]? ≠ some (.peer, a)) →
            u.counter dev pBas 5 = s.counter dev pBas 5 + 1)) := by
  have hexec := exec_stripeFetchDone (s := s) (k := k) (q := q) bytes nowNs src
  obtain ⟨hframe, hbas, hcounted, hcounters, hread⟩ := lateStall_keeps (s.atTime nowNs) (lateNs s k q src nowNs)
  generalize lateStall (s.atTime nowNs) (lateNs s k q src nowNs) = b at *
  have hbas : b.bas = s.bas := hbas
  have hstall : Frame [.tik, .fuses, .counters, .stretch, .domSlabs, .domTir] s b :=
    fr_trans (fr_atTime (fr_refl _ s) nowNs (by decide)) (fr_mono hframe (by decide))
  have hdigest : b.digestOk k q bytes = s.digestOk k q bytes := digestOk_congr hbas hread k q bytes
  have hcopies (i : Nat) : b.devCopies pBas i = s.devCopies pBas i := devCopies_of_frame hstall (by decide) ..
  refine ⟨b, hstall, hframe.kept .tik (by decide), hcounted, fun hf hd => ⟨_, hexec, ?verified⟩, fun hf hd => ⟨_, hexec, ?refused⟩⟩
  case verified =>
    exact (stripeVerified_self src ((fetching_congr hbas ..).trans hf.1) (hdigest.trans hd)
      ((servedBad_congr hbas ..).trans hf.unserved)).of_bas hbas hcounters (hcopies 1)
  case refused =>
    have hB : (b.bump dev pBas 5 1).bas = s.bas := hbas
    rw [stripeArrives_refused src ((fetching_congr hbas ..).trans hf.1) (hdigest.trans hd)]
    refine ⟨sourceFailed_from hB hbas (hcopies 4) (fr_refl _ _) hf.unserved, fun hp => ?_⟩
    rw [askNext_congr (hbas.trans hB.symm), counter_sourceFails ((servedBad_congr hB ..).trans hf.unserved) (by decide)
      (by rwa [copy_congr hB]), counter_bump_self, hcounters 5 (by decide)]
    rfl

/-- A delivery that Carter does not want changes nothing but the time base. -/
theorem stripeFetchDone_unwanted (h : s.wanted k q = false) (src : StripeSource) :
    exec (.stripeFetchDone k q src ⟨bytes, nowNs⟩) s = .next (s.atTime nowNs) := by
  obtain ⟨hf, hs⟩ := unwanted_iff.1 h
  have hlate : lateNs s k q src nowNs = 0 := if_neg fun hl => by
    have hasked : s.flashAsked k q = true := hl.2.1
    simp [State.flashAsked, h] at hasked
  have hnow : (s.atTime nowNs).fetching k q = false := hf
  rw [exec_stripeFetchDone, hlate, lateStall, if_pos rfl, stripeArrives_unwanted src bytes hnow]
  exact congrArg Host.Outcome.next ((StripeStep.of_bas rfl).askNext hs (Nat.le_refl _))

theorem hostData_unwanted (h : s.wanted k q = false) : exec (.hostReadCompletion k q ⟨.data bytes, nowNs⟩) s = .next (s.atTime nowNs) := by
  obtain ⟨hf, hs⟩ := unwanted_iff.1 h
  have hnow : (s.atTime nowNs).fetching k q = false := hf
  have hserved : (s.atTime nowNs).servedBad k q = false := hs
  rw [exec_hostData, stripeIn_of_unserved bytes .host hserved, stripeArrives_unwanted .host bytes hnow]
  exact congrArg Host.Outcome.next ((StripeStep.of_bas rfl).askNext hs (Nat.le_refl _))

/-- A host read's data are a delivery of its source. -/
theorem hostData_fetched (h : Fetched s k q) :
    exec (.hostReadCompletion k q ⟨.data bytes, nowNs⟩) s = exec (.stripeFetchDone k q .host ⟨bytes, nowNs⟩) s := by
  have hserved : (s.atTime nowNs).servedBad k q = false := h.unserved
  rw [exec_hostData, exec_stripeFetchDone, lateNs_of_not_flash nowNs (by decide), lateStall, if_pos rfl,
    stripeIn_of_unserved bytes .host hserved]

/-- A host read's data of a BAD stripe that slabs may read are its refetch. -/
theorem hostData_served (hs : ((s.copy k).state = .active ∨ (s.copy k).state = .retiring) ∧ ((s.copy k).stripe q).state = .bad)
    (hb : s.badStripes.contains (k.val, q) = true) (ht : s.tik.settled = true) :
    exec (.hostReadCompletion k q ⟨.data bytes, nowNs⟩) s = exec (.baseRefetchDone k q .host bytes nowNs) s := by
  have hserved : (s.atTime nowNs).servedBad k q = true := servedBad_iff.2 hs
  rw [exec_hostData, exec_baseRefetchDone .host bytes nowNs hb ht, State.stripeIn, if_pos hserved]

end Deliveries

/-! ## A host read that fails (R242, R404) -/

/-- The host port's record and count of a read that has failed. -/
def readError (s : State) (kind idx : Nat) : State :=
  (s.updPci (fun p => { p with errKind := kind, errFn := 0, errValid := true })).bump dev pPci idx 1

theorem readError_frame (s : State) (kind idx : Nat) : Frame [.pci, .counters] s (readError s kind idx) :=
  fr_bump (fr_updPci (fr_refl [.pci, .counters] s) (fun p => { p with errKind := kind, errFn := 0, errValid := true }) (.inl (by decide))
    (.inr fun _ => rfl)) _ _ _ _ (by decide)

section HostFails

variable {s : State} {k : Fin 2} {q : Nat} (nowNs : Nat)

theorem exec_hostTimeout : exec (.hostReadCompletion k q ⟨.timeout, nowNs⟩) s = .next (if s.wanted k q then
    (((readError (s.atTime nowNs) 2 1).raiseDev pPci 2).sourceFails k q).askNext (s.atTime nowNs) k q
    else (readError (s.atTime nowNs) 2 1).raiseDev pPci 2) := rfl

theorem exec_hostError : exec (.hostReadCompletion k q ⟨.errorStatus, nowNs⟩) s = .next (if s.wanted k q then
    ((readError (s.atTime nowNs) 3 2).sourceFails k q).askNext (s.atTime nowNs) k q else readError (s.atTime nowNs) 3 2) := rfl

/-- A host read that times out: recorded, counted, with its event, and the source of a fetched stripe fails. -/
theorem hostTimeout_leaves : ∃ u, exec (.hostReadCompletion k q ⟨.timeout, nowNs⟩) s = .next u ∧
    (Fetched s k q → SourceFailed s k q (s.atTime nowNs) u) ∧
    (s.wanted k q = false → Frame (withEvents [.pci]) (s.atTime nowNs) u ∧ u.pci.errKind = 2 ∧ u.pci.errValid = true ∧
      u.counter dev pPci 1 = s.counter dev pPci 1 + 1 ∧ EventIn u (s.devCopies pPci 2) pPci 2) := by
  have herr := readError_frame (s.atTime nowNs) 2 1
  have hcount : (readError (s.atTime nowNs) 2 1).counter dev pPci 1 = s.counter dev pPci 1 + 1 := counter_bump_self ..
  have hpci := raiseDev_pci (readError (s.atTime nowNs) 2 1) pPci 2
  have hframe : Frame (withEvents [.pci]) (s.atTime nowNs) ((readError (s.atTime nowNs) 2 1).raiseDev pPci 2) :=
    fr_raiseDev (fr_mono herr (by decide)) _ _ (by decide)
  refine ⟨_, exec_hostTimeout nowNs, fun hf => ?fetched, fun hw => ?unwanted⟩
  case fetched =>
    rw [if_pos hf.wanted]
    exact sourceFailed_from (raiseDev_bas ..) rfl (devCopies_of_frame hframe (by decide) ..) (fr_mono hframe (by decide)) hf.unserved
  case unwanted =>
    rw [if_neg (ne_true_of_eq_false hw)]
    refine ⟨hframe, (congrArg PciState.errKind hpci :), (congrArg PciState.errValid hpci :), ?_, fun c hc => ?_⟩
    · rw [counter_raiseDev _ _ _ (by unfold Untraced counterKey; decide), hcount]
    · exact raiseDev_event _ pPci 2 (by decide) c ((devCopies_of_frame herr (by decide) ..).symm ▸ hc)

/-- A host read that ends with an error status: recorded and counted, and the source of a fetched stripe fails. -/
theorem hostError_leaves : ∃ u, exec (.hostReadCompletion k q ⟨.errorStatus, nowNs⟩) s = .next u ∧
    (Fetched s k q → SourceFailed s k q (s.atTime nowNs) u) ∧
    (s.wanted k q = false → Frame [.pci, .counters] (s.atTime nowNs) u ∧ u.pci.errKind = 3 ∧ u.pci.errValid = true ∧
      u.counter dev pPci 2 = s.counter dev pPci 2 + 1) := by
  have herr := readError_frame (s.atTime nowNs) 3 2
  have hcount : (readError (s.atTime nowNs) 3 2).counter dev pPci 2 = s.counter dev pPci 2 + 1 := counter_bump_self ..
  refine ⟨_, exec_hostError nowNs, fun hf => ?fetched, fun hw => ?unwanted⟩
  case fetched =>
    rw [if_pos hf.wanted]
    exact sourceFailed_from rfl rfl rfl (fr_mono herr (by decide)) hf.unserved
  case unwanted =>
    rw [if_neg (ne_true_of_eq_false hw)]
    exact ⟨herr, rfl, rfl, hcount⟩

end HostFails

/-! ## Pieces of a stripe from a peer (R233, R378) -/

theorem atTime_of_le {s : State} {n : Nat} (h : n ≤ s.tik.timeNs) : s.atTime n = s := by
  have hzero : s.fuses.onSeconds + w64 (s.tik.timeNs / 10 ^ 9 - s.tik.timeNs / 10 ^ 9) = s.fuses.onSeconds := by
    rw [Nat.sub_self]
    exact BitVec.add_zero _
  unfold State.atTime State.updTik State.updFuses
  dsimp only
  rw [Nat.max_eq_right h, hzero]

/-- The state once the pieces of an answer have been put to those of the stripe. -/
def gathered (s : State) (k q : Nat) (t : Txn) : State :=
  (setStripe s k q (fun x => { x with pieces := ((s.copy k).stripe q).pieces ++ t.slots.flatten })).bump 0 pCol 2 (64 * t.slots.length)

section Answers

variable {s : State} {k : Fin 2} {q : Nat} {t : Txn}

/-- Answers that name the stripe and come from the source that is asked for it. -/
def AnswersFor (s : State) (k : Fin 2) (q : Nat) (t : Txn) : Prop :=
  s.wanted k q = true ∧ stripeOfTxid t.txid = (k.val, q) ∧ (s.copy k).sources[((s.copy k).stripe q).source]? = some (.peer, t.src)

theorem takeStripe_pieces (h : AnswersFor s k q t) (h0 : t.status = 0) :
    s.takeStripe t = if (((s.copy k).stripe q).pieces ++ t.slots.flatten).length < 65536 then gathered s k q t
      else (gathered s k q t).stripeIn k q .peer ((((s.copy k).stripe q).pieces ++ t.slots.flatten).take 65536) := by
  obtain ⟨hw, htxid, hsrc⟩ := h
  unfold State.takeStripe
  rw [htxid]
  dsimp only
  rw [if_neg (by simp [hw, hsrc]), if_pos h0]
  rfl

/-- NOT_HELD that settles nothing, or another refusal, fails the source. -/
theorem takeStripe_fails (h : AnswersFor s k q t) (h0 : t.status ≠ 0)
    (hn : t.status ≠ 7 ∨ (t.addr % 4 ≠ 0 ∧ t.addr % 4 ≠ 2) ∨ (s.copy k).underParent = false) : s.takeStripe t = s.sourceFails k q := by
  obtain ⟨hw, htxid, hsrc⟩ := h
  unfold State.takeStripe
  rw [htxid]
  dsimp only
  rw [if_neg (by simp [hw, hsrc]), if_neg h0]
  split
  · next hu =>
    have hn : t.status ≠ 7 ∨ (t.addr % 4 ≠ 0 ∧ t.addr % 4 ≠ 2) := hn.imp_right fun hn => hn.resolve_right (by simp [hu])
    rw [if_neg (by tauto), if_neg (by tauto), sourceFails_under hu]
    rfl
  · rfl

theorem takeStripe_lost (h : AnswersFor s k q t) (h7 : t.status = 7) (ha : t.addr % 4 = 2) (hu : (s.copy k).underParent = true) :
    s.takeStripe t = s.stripeLost k q := by
  obtain ⟨hw, htxid, hsrc⟩ := h
  unfold State.takeStripe
  rw [htxid]
  dsimp only
  rw [if_neg (by simp [hw, hsrc]), if_neg (by simp [h7]), if_pos hu, if_neg (by omega), if_pos ⟨h7, ha⟩]

theorem takeStripe_gone (h : AnswersFor s k q t) (h7 : t.status = 7) (ha : t.addr % 4 = 0) (hu : (s.copy k).underParent = true) :
    s.takeStripe t = s.parentGone k := by
  obtain ⟨hw, htxid, hsrc⟩ := h
  unfold State.takeStripe
  rw [htxid]
  dsimp only
  rw [if_neg (by simp [hw, hsrc]), if_neg (by simp [h7]), if_pos hu, if_pos ⟨h7, ha⟩]

end Answers

section StripeResp

variable {s : State} {k : Fin 2} {q : Nat} {t : Txn} (nowNs : Nat)

theorem exec_stripeResp (htxid : stripeOfTxid t.txid = (k.val, q)) :
    exec (.stripeResp ⟨t, nowNs⟩) s = .next (((s.atTime nowNs).takeStripe t).askNext (s.atTime nowNs) k q) := by
  show execStripeResp ⟨t, nowNs⟩ s = _
  unfold execStripeResp
  dsimp only
  rw [htxid]

theorem StripeStep.gathered (s : State) : StripeStep k q s (gathered s k q t) :=
  (StripeStep.setStripe (.inl rfl)).trans (.of_bas rfl)

theorem gathered_stripe : ((gathered s k q t).copy k).stripe q =
    { (s.copy k).stripe q with pieces := ((s.copy k).stripe q).pieces ++ t.slots.flatten } := setStripe_stripe ..

theorem gathered_counter : (gathered s k q t).counter 0 pCol 2 = s.counter 0 pCol 2 + w64 (64 * t.slots.length) := by
  rw [gathered, counter_bump_self, counter_setStripe]

theorem gathered_frame (s : State) : Frame [.bas, .counters] s (gathered s k q t) :=
  fr_bump (fr_updCopy (fr_refl _ s) k _ (by decide)) _ _ _ _ (by decide)

/-- Whether Carter asks next does not depend on a state before that has as many BAD stripes and the same source. -/
theorem StripeStep.askNext_from {r u : State} (h : StripeStep k q s r) (hs : s.servedBad k q = false)
    (hx : ((r.copy k).stripe q).source = ((s.copy k).stripe q).source) : u.askNext s k q = u.askNext r k q := by
  have hbad : r.badStripes.isEmpty = s.badStripes.isEmpty := by
    rw [Bool.eq_iff_iff, List.isEmpty_iff, List.isEmpty_iff]
    exact h.badStripes hs
  unfold State.askNext
  rw [hbad, hx]

/-- The pieces of an answer: gathered, and the whole stripe is a delivery of the peer's. -/
theorem stripeResp_pieces (hs : s.servedBad k q = false) (h : AnswersFor (s.atTime nowNs) k q t) (h0 : t.status = 0) :
    let got := ((s.copy k).stripe q).pieces ++ t.slots.flatten
    let w := gathered (s.atTime nowNs) k q t
    (got.length < 65536 → exec (.stripeResp ⟨t, nowNs⟩) s = .next w) ∧
    (65536 ≤ got.length → exec (.stripeResp ⟨t, nowNs⟩) s = exec (.stripeFetchDone k q .peer ⟨got.take 65536, nowNs⟩) w) := by
  intro got w
  have hnow : (s.atTime nowNs).servedBad k q = false := hs
  have hstep : StripeStep k q (s.atTime nowNs) w := .gathered _
  have hsource : ((w.copy k).stripe q).source = (((s.atTime nowNs).copy k).stripe q).source := by
    rw [gathered_stripe]
  have htake : (s.atTime nowNs).takeStripe t = if got.length < 65536 then w else w.stripeIn k q .peer (got.take 65536) := takeStripe_pieces h h0
  refine ⟨fun hl => ?part, fun hl => ?whole⟩
  case part =>
    rw [exec_stripeResp nowNs h.2.1, htake, if_pos hl, hstep.askNext hnow (Nat.le_of_eq hsource)]
  case whole =>
    have htik : w.tik = (s.atTime nowNs).tik := (gathered_frame _).kept .tik (by decide)
    have hle : nowNs ≤ w.tik.timeNs := htik ▸ Nat.le_max_left nowNs s.tik.timeNs
    have htime : w.atTime nowNs = w := atTime_of_le hle
    rw [exec_stripeResp nowNs h.2.1, htake, if_neg (Nat.not_lt.2 hl), exec_stripeFetchDone, lateNs_of_not_flash nowNs (by decide), lateStall,
      if_pos rfl, htime, stripeIn_of_unserved _ .peer (hstep.served hnow), hstep.askNext_from hnow hsource]

/-- A refusal of the peer's fails the source. -/
theorem stripeResp_fails (hs : s.servedBad k q = false) (h : AnswersFor (s.atTime nowNs) k q t) (h0 : t.status ≠ 0)
    (hn : t.status ≠ 7 ∨ (t.addr % 4 ≠ 0 ∧ t.addr % 4 ≠ 2) ∨ (s.copy k).underParent = false) :
    ∃ u, exec (.stripeResp ⟨t, nowNs⟩) s = .next u ∧ SourceFailed s k q (s.atTime nowNs) u := by
  refine ⟨_, exec_stripeResp nowNs h.2.1, ?_⟩
  rw [takeStripe_fails h h0 hn]
  exact sourceFailed_from rfl rfl rfl (fr_refl _ _) hs

/-- A stripe that a READY or ACTIVE parent lacks is LOST. -/
theorem stripeResp_lost (hs : s.servedBad k q = false) (h : AnswersFor (s.atTime nowNs) k q t) (h7 : t.status = 7) (ha : t.addr % 4 = 2)
    (hu : (s.copy k).underParent = true) : ∃ u, exec (.stripeResp ⟨t, nowNs⟩) s = .next u ∧ StripeGone k q s u := by
  have hnow : (s.atTime nowNs).servedBad k q = false := hs
  refine ⟨_, exec_stripeResp nowNs h.2.1, ?_⟩
  rw [takeStripe_lost h h7 ha hu, (StripeStep.stripeLost ..).askNext hnow (by rw [stripeLost_stripe]; exact Nat.le_refl _)]
  exact stripeLost_gone (s.atTime nowNs) k q

end StripeResp

/-! ## A tree parent whose copy has failed (R234, R244) -/

/-- The stripe with nothing gathered or asked yet: the first source is to be asked. -/
def freshStripe (x : Stripe) : Stripe := { x with source := 0, pieces := [], asked := false }

/-- The copy whose tree parent has failed: every stripe is to come from the first of the other sources. -/
def forgotten (c : CopySlot) : CopySlot :=
  { c with parentFailed := true, stripeMap := c.stripeMap.map (fun p => (p.1, freshStripe p.2)) }

theorem forgotten_stripe (c : CopySlot) (q : Nat) : (forgotten c).stripe q = freshStripe (c.stripe q) := by
  unfold CopySlot.stripe
  rw [forgotten, mapGet_map]
  cases mapGet c.stripeMap q with
  | none => rfl
  | some x => rfl

theorem forgotten_sources (c : CopySlot) : (forgotten c).sources = ({ c with parentFailed := true } : CopySlot).sources := rfl

theorem forgotten_holdsBad (c : CopySlot) : HoldsBad (forgotten c) ↔ HoldsBad c := by
  refine and_congr_right fun _ => ?_
  simp [forgotten, freshStripe]

theorem forgotten_pagesHeld (c : CopySlot) : (forgotten c).pagesHeld = c.pagesHeld := by
  simp only [CopySlot.pagesHeld, forgotten, List.filterMap_map]
  rfl

theorem forgotten_stagedStripes (c : CopySlot) : (forgotten c).stagedStripes = c.stagedStripes := by
  simp only [CopySlot.stagedStripes, forgotten_stripe]
  rfl

/-- The state in which the copy's parent has failed. -/
def parentLess (s : State) (k : Nat) : State := s.updCopy k forgotten

section ParentGone

variable (s : State) (k : Fin 2)

theorem parentLess_copy : (parentLess s k).copy k = forgotten (s.copy k) := copy_updCopy_self ..

theorem parentLess_copy_ne {j : Nat} (hj : j < 2) (h : j ≠ k.val) : (parentLess s k).copy j = s.copy j := copy_updCopy_ne s k _ hj h

theorem parentLess_pagesHeld {j : Nat} (hj : j < 2) : ((parentLess s k).copy j).pagesHeld = (s.copy j).pagesHeld := by
  by_cases h : j = k.val
  · rw [h, parentLess_copy, forgotten_pagesHeld]
  · rw [parentLess_copy_ne s k hj h]

theorem freePages_eq (s : State) : s.freePages = ((s.copy 0).pagesHeld ++ (s.copy 1).pagesHeld ++ (noCopies s.bas).backPages).foldl
    (fun r p => runsCut r p 1) [(0, (noCopies s.bas).regionPages - (noCopies s.bas).stagePages)] := rfl

theorem parentLess_freePages : (parentLess s k).freePages = s.freePages := by
  rw [freePages_eq, freePages_eq, parentLess_pagesHeld s k (by decide), parentLess_pagesHeld s k (by decide), parentLess, noCopies_updCopy]

theorem parentLess_fetching (q : Nat) : (parentLess s k).fetching k q = s.fetching k q := by
  unfold State.fetching State.fills State.fits
  simp only [parentLess_copy, parentLess_freePages, forgotten_stripe, forgotten_stagedStripes]
  rfl

theorem parentLess_badStripes : (parentLess s k).badStripes = [] ↔ s.badStripes = [] := by
  rw [badStripes_eq_nil, badStripes_eq_nil]
  refine forall₂_congr fun j hj => not_congr ?_
  by_cases h : j = k.val
  · rw [h, parentLess_copy, forgotten_holdsBad]
  · rw [parentLess_copy_ne s k hj h]

variable {s k}

/-- Nothing is asked of a stripe that no slab could read as BAD and that has gone back to its first source. -/
theorem parentLess_askNext {q : Nat} (hs : s.servedBad k q = false) : (parentLess s k).askNext s k q = parentLess s k := by
  have hstripe : ((parentLess s k).copy k).stripe q = freshStripe ((s.copy k).stripe q) := by rw [parentLess_copy, forgotten_stripe]
  have hserved : (parentLess s k).servedBad k q = false := by
    rw [← hs, State.servedBad, hstripe, parentLess_copy]
    rfl
  rw [askNext_idle hserved (by rw [hstripe]; exact Nat.zero_le _)]
  split
  · rfl
  · next hb => exact refetchEnds_none (.inl fun ht => hb (by simp [(parentLess_badStripes s k).1 ht]))

theorem parentGone_named (h : ({ s.copy k with parentFailed := true } : CopySlot).sources ≠ []) : s.parentGone k = parentLess s k := by
  have hsources : ((parentLess s k).copy k).sources ≠ [] := by rwa [parentLess_copy, forgotten_sources]
  exact if_neg (by rwa [List.isEmpty_iff])

/-- The stripes of a list, lost one after the other. -/
def loseStripes (l : List Nat) (s : State) (k : Nat) : State := l.foldl (fun t q => t.stripeLost k q) s

theorem parentGone_alone (h : ({ s.copy k with parentFailed := true } : CopySlot).sources = []) : s.parentGone k =
    loseStripes ((List.range ((parentLess s k).copy k).stripes).filter (fun q => (parentLess s k).wanted k q)) (parentLess s k) k := by
  have hsources : ((parentLess s k).copy k).sources = [] := by rwa [parentLess_copy, forgotten_sources]
  exact if_pos (List.isEmpty_iff.2 hsources)

section LoseStripes

variable (l : List Nat) (s : State) (k : Fin 2) {q : Nat}

theorem stripeLost_parentFailed (q : Nat) : ((s.stripeLost k q).copy k).parentFailed = (s.copy k).parentFailed := by
  rw [stripeLost_copy]
  rfl

theorem loseStripes_parentFailed : ((loseStripes l s k).copy k).parentFailed = (s.copy k).parentFailed :=
  foldl_keeps (fun t : State => (t.copy k).parentFailed = (s.copy k).parentFailed) _ (fun t p h => (stripeLost_parentFailed t k p).trans h) l rfl

theorem loseStripes_copy_ne {j : Nat} (hj : j < 2) (hk : j ≠ k.val) : (loseStripes l s k).copy j = s.copy j :=
  foldl_keeps (fun t : State => t.copy j = s.copy j) _ (fun t p h => ((StripeStep.stripeLost t k p).copies j hj hk).trans h) l rfl

theorem loseStripes_source : (((loseStripes l s k).copy k).stripe q).source = ((s.copy k).stripe q).source := by
  refine foldl_keeps (fun t : State => ((t.copy k).stripe q).source = ((s.copy k).stripe q).source) _ (fun t p h => ?_) l rfl
  by_cases hp : q = p
  · rw [← hp, stripeLost_stripe]
    exact h
  · rw [(StripeStep.stripeLost t k p).stripes q hp, h]

theorem loseStripes_devCopies (p b : Nat) : (loseStripes l s k).devCopies p b = s.devCopies p b :=
  foldl_keeps (fun t : State => t.devCopies p b = s.devCopies p b) _ (fun t q h => (devCopies_of_frame (stripeLost_frame t k q) (by decide) p b).trans h) l rfl

variable {l} in
theorem loseStripes_state (h : q ∈ l) : (((loseStripes l s k).copy k).stripe q).state = .lost := by
  have hset (t : State) : (((t.stripeLost k q).copy k).stripe q).state = .lost := by
    rw [stripeLost_stripe]
    rfl
  refine foldl_establishes (fun t : State => ((t.copy k).stripe q).state = .lost) _ (fun t p ht => ?_) hset l s h
  by_cases hp : q = p
  · exact hp ▸ hset t
  · rw [(StripeStep.stripeLost t k p).stripes q hp, ht]

variable {l} in
theorem loseStripes_event (h : q ∈ l) : EventIn (loseStripes l s k) (s.devCopies pBas 4) pBas 4 := by
  have hcopies (t : State) (p : Nat) : (t.stripeLost k p).devCopies pBas 4 = t.devCopies pBas 4 :=
    devCopies_of_frame (stripeLost_frame t k p) (by decide) ..
  have hset (t : State) : EventIn (t.stripeLost k q) ((t.stripeLost k q).devCopies pBas 4) pBas 4 := by
    rw [hcopies]
    exact stripeLost_event t k q
  rw [← loseStripes_devCopies l s k]
  refine foldl_establishes (fun t : State => EventIn t (t.devCopies pBas 4) pBas 4) _ (fun t p ht => ?_) hset l s h
  rw [hcopies]
  exact eventIn_of_stays (eventsStay_stripeLost t k p) ht

end LoseStripes

/-- With nothing more to ask, Carter's state and every event stay. -/
theorem askNext_idle_leaves {s t : State} {k q : Nat} (ht : t.servedBad k q = false)
    (hx : ((t.copy k).stripe q).source ≤ ((s.copy k).stripe q).source) : (t.askNext s k q).bas = t.bas ∧ EventsStay t (t.askNext s k q) := by
  rw [askNext_idle ht hx]
  split
  · exact ⟨rfl, eventsStay_refl t⟩
  · exact ⟨(refetchEnds_leaves t).1, eventsStay_views ((fr_refetchEnds (fr_refl _ t) (fun _ h => h)).kept .views (by decide))⟩

/-- No other source is named: every stripe that the copy still lacks is LOST. -/
theorem parentGone_loses {q : Nat} (hf : Fetched s k q) (h : ({ s.copy k with parentFailed := true } : CopySlot).sources = []) :
    let u := (s.parentGone k).askNext s k q
    (u.copy k).parentFailed = true ∧ (∀ j, j < 2 → j ≠ k.val → u.copy j = s.copy j) ∧ ((u.copy k).stripe q).state = .lost ∧
      EventIn u (s.devCopies pBas 4) pBas 4 := by
  have hlt : q < ((parentLess s k).copy k).stripes := by
    have hfetching := hf.1
    simp only [State.fetching, Bool.and_eq_true, decide_eq_true_eq] at hfetching
    rw [parentLess_copy]
    exact hfetching.1.1
  have hwanted : (parentLess s k).wanted k q = true := by
    rw [State.wanted, parentLess_fetching, hf.1]
    rfl
  have hmem : q ∈ (List.range ((parentLess s k).copy k).stripes).filter (fun q => (parentLess s k).wanted k q) :=
    List.mem_filter.2 ⟨List.mem_range.2 hlt, hwanted⟩
  rw [parentGone_alone h]
  generalize (List.range ((parentLess s k).copy k).stripes).filter (fun q => (parentLess s k).wanted k q) = l at hmem
  have hlost := loseStripes_state (parentLess s k) k hmem
  have hevent := loseStripes_event (parentLess s k) k hmem
  have hsource : (((loseStripes l (parentLess s k) k).copy k).stripe q).source ≤ ((s.copy k).stripe q).source := by
    rw [loseStripes_source, parentLess_copy, forgotten_stripe]
    exact Nat.zero_le _
  have hserved : (loseStripes l (parentLess s k) k).servedBad k q = false := by
    rw [State.servedBad, hlost]
    exact Bool.and_false _
  obtain ⟨hbas, hstays⟩ := askNext_idle_leaves hserved hsource
  have hcopies : (parentLess s k).devCopies pBas 4 = s.devCopies pBas 4 :=
    devCopies_of_frame (fr_updCopy (fr_refl [.bas] s) k _ (by decide)) (by decide) ..
  refine ⟨?_, fun j hj hk => ?_, ?_, hcopies ▸ eventIn_of_stays hstays hevent⟩
  · rw [copy_congr hbas, loseStripes_parentFailed, parentLess_copy]
    rfl
  · rw [copy_congr hbas, loseStripes_copy_ne l _ k hj hk, parentLess_copy_ne s k hj hk]
  · rw [copy_congr hbas, hlost]

end ParentGone

/-- What the failure of the parent's copy leaves: its stripes come from the other sources, or are LOST where none is named (log 145). -/
def ParentFailed (s : State) (k : Fin 2) (q : Nat) (b u : State) : Prop :=
  (u.copy k.val).parentFailed = true ∧ (∀ j, j < 2 → j ≠ k.val → u.copy j = s.copy j) ∧
  (({ s.copy k.val with parentFailed := true } : CopySlot).sources ≠ [] →
    Frame [.bas] b u ∧ (u.copy k.val).stripe q = freshStripe ((s.copy k.val).stripe q)) ∧
  (({ s.copy k.val with parentFailed := true } : CopySlot).sources = [] →
    ((u.copy k.val).stripe q).state = .lost ∧ EventIn u (s.devCopies pBas 4) pBas 4)

theorem parentFailed_self {s : State} {k : Fin 2} {q : Nat} (hf : Fetched s k q) : ParentFailed s k q s ((s.parentGone k).askNext s k q) := by
  by_cases hsources : ({ s.copy k with parentFailed := true } : CopySlot).sources = []
  · obtain ⟨hfailed, hcopies, hlost, hevent⟩ := parentGone_loses hf hsources
    exact ⟨hfailed, hcopies, fun hn => absurd hsources hn, fun _ => ⟨hlost, hevent⟩⟩
  · rw [parentGone_named hsources, parentLess_askNext hf.unserved]
    refine ⟨?_, fun j hj hk => parentLess_copy_ne s k hj hk, fun _ => ⟨fr_updCopy (fr_refl _ s) k _ (by decide), ?_⟩,
      fun hn => absurd hn hsources⟩
    · rw [parentLess_copy]
      rfl
    · rw [parentLess_copy, forgotten_stripe]

theorem stripeResp_gone {s : State} {k : Fin 2} {q : Nat} {t : Txn} (nowNs : Nat) (hf : Fetched s k q) (h : AnswersFor (s.atTime nowNs) k q t)
    (h7 : t.status = 7) (ha : t.addr % 4 = 0) (hu : (s.copy k).underParent = true) :
    ∃ u, exec (.stripeResp ⟨t, nowNs⟩) s = .next u ∧ ParentFailed s k q (s.atTime nowNs) u := by
  have hnow : Fetched (s.atTime nowNs) k q := hf
  refine ⟨_, exec_stripeResp nowNs h.2.1, ?_⟩
  rw [takeStripe_gone h h7 ha hu]
  exact parentFailed_self hnow

/-! ## The statement -/

/-- Settles O53: each clause is what a delivery, a failing source or an answer leaves, said by a lemma of its own. -/
theorem stripesOfACopy : Obligations.StripesOfACopy := by
  unfold Obligations.StripesOfACopy
  intro s k q bytes nowNs c x now served wanted late settled others lost done fails
  refine ⟨fun src => stripeFetchDone_leaves bytes nowNs src,
    fun h => ⟨stripeFetchDone_unwanted bytes nowNs h, hostData_unwanted bytes nowNs h⟩, fun h => hostData_fetched bytes nowNs h,
    fun hs hb ht => hostData_served bytes nowNs hs hb ht, hostTimeout_leaves nowNs, hostError_leaves nowNs, fun t hw hk hq hsrc => ?_⟩
  have hf : Fetched s k q := hw
  have hanswers : AnswersFor now k q t := ⟨hf.wanted, Prod.ext hk hq, hsrc⟩
  refine ⟨fun h0 => ⟨gathered now k q t, (StripeStep.gathered now).others, gathered_frame now, gathered_stripe, gathered_counter,
    stripeResp_pieces nowNs hf.unserved hanswers h0⟩, ?_, ?_, ?_⟩
  · exact stripeResp_fails nowNs hf.unserved hanswers
  · exact stripeResp_lost nowNs hf.unserved hanswers
  · exact stripeResp_gone nowNs hf hanswers

end Sys2Proof.Proofs

/-! Remote accesses (R233, R261 to R267, R376 to R382, R402): the tests that a request meets and what its refusal leaves, what one that is allowed reads and writes, and the pieces of a stripe that a peer gets. From them the statement on remote reads, writes, reduce-adds, atomics and stripe requests. -/

namespace Sys2Proof.Proofs

open Sys2Proof.Machine Sys2Proof.Safety Sys2Proof.Laws

/-! ## A refused request (R402) -/

/-- A request that base refuses with a status: one reject more in domain e, whose event stands where it is live, and the answer. -/
def RemoteFails (s : State) (t : Txn) (base : State) (cmd : Instr) (op st e : Nat) : Prop :=
  ∃ u, exec cmd s = .next (u.sendAnswer op (txnAnswer t s.fab.self st [])) ∧ Frame (withEvents [.domMem]) base u ∧
    u.counter e pCol 4 = base.counter e pCol 4 + 1 ∧ (base.live e = true → EventIn u (domCopies pCol 1 e) pCol 1)

theorem rejectRemote_frame (s : State) (tag : Nat) : Frame (withEvents [.domMem]) s (s.rejectRemote tag) := fr_rejectRemote (fr_refl _ s) tag (by decide)

theorem rejectRemote_counter {s : State} {tag e : Nat} (he : (s.tagHolder tag).getD 0 = e) :
    (s.rejectRemote tag).counter e pCol 4 = s.counter e pCol 4 + 1 := by
  have huntraced : Untraced e pCol 4 := by
    unfold Untraced counterKey dev pCol pDbg
    omega
  unfold State.rejectRemote
  rw [he, counter_raiseDom _ _ _ _ huntraced, counter_bump_self]
  rfl

theorem rejectRemote_event {s : State} {tag e : Nat} (he : (s.tagHolder tag).getD 0 = e) (hl : s.live e = true) :
    EventIn (s.rejectRemote tag) (domCopies pCol 1 e) pCol 1 := by
  unfold State.rejectRemote
  rw [he]
  exact fun c hc => raiseDom_event (s.bump e pCol 4 1) pCol 1 e (by decide) hl c hc

section

variable {s : State} {t : Txn} {errors : List ReadError} {cmd : Instr} {op : Nat}

theorem remoteFails_of_reject {base : State} {st e : Nat} (he : (base.tagHolder t.ptag.toNat).getD 0 = e)
    (hexec : exec cmd s = .next ((base.rejectRemote t.ptag.toNat).sendAnswer op (txnAnswer t s.fab.self st []))) : RemoteFails s t base cmd op st e :=
  ⟨_, hexec, rejectRemote_frame .., rejectRemote_counter he, rejectRemote_event he⟩

end

/-! ## The tests of R380, in their order -/

section Status

variable {s : State} {tag addr n align d : Nat} {write typesOk opOk : Bool}

/-- The range of the domain is open to reads, or to writes. -/
def remoteEnabled (s : State) (d : Nat) (write : Bool) : Bool := if write then (s.dom d).col.wrEn else (s.dom d).col.rdEn

/-- The access lies where R380 lets one lie, and is of types that go together. -/
def remoteFits (s : State) (d addr n : Nat) (write typesOk : Bool) (align : Nat) : Bool :=
  typesOk && addr % align == 0 && s.inRange d addr n && !(write && s.sharedSpan d addr n)

theorem remoteFits_iff : remoteFits s d addr n write typesOk align = true ↔
    typesOk = true ∧ addr % align = 0 ∧ s.inRange d addr n = true ∧ (write && s.sharedSpan d addr n) = false := by
  simp only [remoteFits, Bool.and_eq_true, beq_iff_eq, Bool.not_eq_true', and_assoc]

theorem remoteFits_eq_false_iff : remoteFits s d addr n write typesOk align = false ↔
    typesOk = false ∨ addr % align ≠ 0 ∨ s.inRange d addr n = false ∨ (write && s.sharedSpan d addr n) = true := by
  simp only [remoteFits, Bool.and_eq_false_iff, beq_eq_false_iff_ne, Bool.not_eq_false', or_assoc]

theorem remoteStatus_none (h : s.tagHolder tag = none) : s.remoteStatus tag addr n write typesOk opOk align = 1 := by
  unfold State.remoteStatus
  rw [h]

theorem remoteStatus_held (h : s.tagHolder tag = some d) : s.remoteStatus tag addr n write typesOk opOk align =
    if remoteEnabled s d write = false then 2 else if opOk = false then 8 else if remoteFits s d addr n write typesOk align = false then 3
    else if s.resident d addr n = false then 4 else 0 := by
  have henabled : (if write then !(s.dom d).col.wrEn else !(s.dom d).col.rdEn) = true ↔ remoteEnabled s d write = false := by
    cases write <;> simp [remoteEnabled]
  have hfits : (!typesOk || addr % align != 0 || !s.inRange d addr n || (write && s.sharedSpan d addr n)) = true ↔
      remoteFits s d addr n write typesOk align = false := by
    simp only [remoteFits_eq_false_iff, Bool.or_eq_true, Bool.not_eq_true', bne_iff_ne, or_assoc]
  unfold State.remoteStatus
  rw [h]
  simp only [henabled, hfits, Bool.not_eq_true']

theorem remoteStatus_disabled (h : s.tagHolder tag = some d) (he : remoteEnabled s d write = false) :
    s.remoteStatus tag addr n write typesOk opOk align = 2 := by
  rw [remoteStatus_held h, if_pos he]

theorem remoteStatus_badOp (h : s.tagHolder tag = some d) (he : remoteEnabled s d write = true) (ho : opOk = false) :
    s.remoteStatus tag addr n write typesOk opOk align = 8 := by
  rw [remoteStatus_held h, if_neg (by simp [he]), if_pos ho]

theorem remoteStatus_misfit (h : s.tagHolder tag = some d) (he : remoteEnabled s d write = true) (ho : opOk = true)
    (hf : remoteFits s d addr n write typesOk align = false) : s.remoteStatus tag addr n write typesOk opOk align = 3 := by
  rw [remoteStatus_held h, if_neg (by simp [he]), if_neg (by simp [ho]), if_pos hf]

theorem remoteStatus_absent (h : s.tagHolder tag = some d) (he : remoteEnabled s d write = true) (ho : opOk = true)
    (hf : remoteFits s d addr n write typesOk align = true) (hr : s.resident d addr n = false) :
    s.remoteStatus tag addr n write typesOk opOk align = 4 := by
  rw [remoteStatus_held h, if_neg (by simp [he]), if_neg (by simp [ho]), if_neg (by simp [hf]), if_pos hr]

theorem remoteStatus_allowed (h : s.tagHolder tag = some d) (he : remoteEnabled s d write = true) (ho : opOk = true)
    (hf : remoteFits s d addr n write typesOk align = true) (hr : s.resident d addr n = true) :
    s.remoteStatus tag addr n write typesOk opOk align = 0 := by
  rw [remoteStatus_held h, if_neg (by simp [he]), if_neg (by simp [ho]), if_neg (by simp [hf]), if_neg (by simp [hr])]

end Status

/-! ## Requests that meet the tests -/

/-- The command serves a request that the tests refuse first: counted, raised and answered with their status. -/
def Tested (s : State) (t : Txn) (cmd : Instr) (op n : Nat) (write typesOk opOk : Bool) (align : Nat) : Prop :=
  ∀ st, s.remoteStatus t.ptag.toNat t.addr n write typesOk opOk align = st → st ≠ 0 →
    exec cmd s = .next ((s.rejectRemote t.ptag.toNat).sendAnswer op (txnAnswer t s.fab.self st []))

/-- Bytes of a reduce-add, whole blocks (R266). -/
def raddLen (t : Txn) : Nat := roundUp (t.nblk * slotStore t.stype t.sfmt) 64

/-- A reduce-add's format is one that is defined, or its type needs none (R266). -/
def raddOpOk (t : Txn) : Bool := 2 ≤ t.stype || fmtDefined t.sfmt

section Tests

variable {s : State} {t : Txn} {errors : List ReadError} {u : State} {a : Txn}

theorem exec_rdReq (h : s.serveRead t errors = (u, a)) : exec (.rdReq t errors) s = .next (u.sendAnswer 2 a) :=
  congrArg (fun r : State × Txn => Host.Outcome.next (r.1.sendAnswer 2 r.2)) h

theorem exec_wr (h : s.serveWrite t errors = (u, a)) : exec (.wr t errors) s = .next (u.sendAnswer 4 a) :=
  congrArg (fun r : State × Txn => Host.Outcome.next (r.1.sendAnswer 4 r.2)) h

theorem exec_radd (h : s.serveRadd t errors = (u, a)) : exec (.radd t errors) s = .next (u.sendAnswer 6 a) :=
  congrArg (fun r : State × Txn => Host.Outcome.next (r.1.sendAnswer 6 r.2)) h

theorem exec_atom (h : s.serveAtom t errors = (u, a)) : exec (.atom t errors) s = .next (u.sendAnswer 8 a) :=
  congrArg (fun r : State × Txn => Host.Outcome.next (r.1.sendAnswer 8 r.2)) h

variable (s t errors)

theorem tested_rdReq : Tested s t (.rdReq t errors) 2 (64 * t.nblk) false true true 64 := fun st hst h0 => by
  have hserve : s.serveRead t errors = (s.rejectRemote t.ptag.toNat, txnAnswer t s.fab.self st []) := by
    unfold State.serveRead
    dsimp only
    rw [hst]
    split
    · next h => exact absurd rfl h0
    · rfl
  exact exec_rdReq hserve

theorem tested_wr : Tested s t (.wr t errors) 4 (64 * t.nblk) true true true 64 := fun st hst h0 => by
  have hserve : s.serveWrite t errors = (s.rejectRemote t.ptag.toNat, txnAnswer t s.fab.self st []) := by
    unfold State.serveWrite
    dsimp only
    rw [hst]
    split
    · next h => exact absurd rfl h0
    · rfl
  exact exec_wr hserve

theorem tested_radd : Tested s t (.radd t errors) 6 (raddLen t) true (raddFormats t.stype t.sfmt) (raddOpOk t) 64 := fun st hst h0 => by
  have hserve : s.serveRadd t errors = (s.rejectRemote t.ptag.toNat, txnAnswer t s.fab.self st []) := by
    unfold raddLen raddOpOk at hst
    unfold State.serveRadd
    dsimp only
    rw [hst]
    split
    · next h => exact absurd rfl h0
    · rfl
  exact exec_radd hserve

theorem tested_atom : Tested s t (.atom t errors) 8 8 true true (t.aop ≤ 7) 8 := fun st hst h0 => by
  have hserve : s.serveAtom t errors = (s.rejectRemote t.ptag.toNat, txnAnswer t s.fab.self st []) := by
    unfold State.serveAtom
    dsimp only
    rw [hst]
    split
    · next h => exact absurd rfl h0
    · rfl
  exact exec_atom hserve

end Tests

theorem raddOpOk_iff (t : Txn) : raddOpOk t = true ↔ 2 ≤ t.stype ∨ fmtDefined t.sfmt = true := by
  simp [raddOpOk]

/-- Every request that writes meets the tests at its own length and alignment; formats that do not go together are a reduce-add's alone. -/
theorem tested_write {s : State} {t : Txn} {errors : List ReadError} {cmd : Instr} {op len align : Nat}
    (h : (cmd = .wr t errors ∧ op = 4 ∧ len = 64 * t.nblk ∧ align = 64) ∨
      (cmd = .radd t errors ∧ op = 6 ∧ len = raddLen t ∧ align = 64 ∧ (2 ≤ t.stype ∨ fmtDefined t.sfmt = true)) ∨
      (cmd = .atom t errors ∧ op = 8 ∧ len = 8 ∧ align = 8 ∧ t.aop ≤ 7)) :
    Tested s t cmd op len true (if op = 6 then raddFormats t.stype t.sfmt else true) true align := by
  rcases h with ⟨rfl, rfl, rfl, rfl⟩ | ⟨rfl, rfl, rfl, rfl, ho⟩ | ⟨rfl, rfl, rfl, rfl, ha⟩
  · exact tested_wr s t errors
  · have hradd := tested_radd s t errors
    rwa [(raddOpOk_iff t).2 ho] at hradd
  · have hatom := tested_atom s t errors
    rwa [decide_eq_true ha] at hatom

section Refusals

variable {s : State} {t : Txn} {cmd : Instr} {op n align d : Nat} {write typesOk opOk : Bool} (h : Tested s t cmd op n write typesOk opOk align)
include h

theorem Tested.noPartition (hn : s.tagHolder t.ptag.toNat = none) : RemoteFails s t s cmd op 1 0 :=
  remoteFails_of_reject (by rw [hn]; rfl) (h 1 (remoteStatus_none hn) (by decide))

variable (hd : s.tagHolder t.ptag.toNat = some d)
include hd

theorem Tested.denied (he : remoteEnabled s d write = false) : RemoteFails s t s cmd op 2 d :=
  remoteFails_of_reject (by rw [hd]; rfl) (h 2 (remoteStatus_disabled hd he) (by decide))

theorem Tested.badOp (he : remoteEnabled s d write = true) (ho : opOk = false) : RemoteFails s t s cmd op 8 d :=
  remoteFails_of_reject (by rw [hd]; rfl) (h 8 (remoteStatus_badOp hd he ho) (by decide))

theorem Tested.range (he : remoteEnabled s d write = true) (ho : opOk = true) (hf : remoteFits s d t.addr n write typesOk align = false) :
    RemoteFails s t s cmd op 3 d :=
  remoteFails_of_reject (by rw [hd]; rfl) (h 3 (remoteStatus_misfit hd he ho hf) (by decide))

theorem Tested.notResident (he : remoteEnabled s d write = true) (ho : opOk = true) (hf : remoteFits s d t.addr n write typesOk align = true)
    (hr : s.resident d t.addr n = false) : RemoteFails s t s cmd op 4 d :=
  remoteFails_of_reject (by rw [hd]; rfl) (h 4 (remoteStatus_absent hd he ho hf hr) (by decide))

end Refusals

/-! ## Bytes that a remote access writes (R262) -/

/-- Of the domains d alone has changed, and of its bytes those that are named. -/
def Stores (d a : Nat) (bs : List Byte) (s u : State) : Prop :=
  OnlyDom s u d ∧ Frame [.counters, .domTir, .domMem, .domPoison] s u ∧
    (poisonHit (s.dom d).poison 64 a bs.length = false → ∀ x, memRead (u.dom d).mem x =
      if a ≤ x ∧ x < a + bs.length then bs.getD (x - a) 0 else memRead (s.dom d).mem x)

/-- A write and counts after it. -/
theorem stores_of_wrMem {d a : Nat} {bs : List Byte} {s u : State} (hdom : ∀ e, u.dom e = (s.wrMem d a bs).dom e)
    (hf : Frame [.counters] (s.wrMem d a bs) u) : Stores d a bs s u := by
  refine ⟨fun e he => ?_, fr_trans (fr_mono (wrMem_frame ..) (by decide)) (fr_mono hf (by decide)), fun hp x => ?_⟩
  · rw [hdom e]
    exact wrMem_onlyDom s d a bs e he
  · rw [hdom d]
    split
    · next hx => exact wrMem_mem_inside s d a bs x hp hx
    · next hx => exact wrMem_mem_outside s d a bs x hx

theorem countAdds_dom (s : State) (d a n e : Nat) : (s.countAdds d a n).dom e = s.dom e := by
  unfold State.countAdds
  apply foldl_keeps (fun u : State => u.dom e = s.dom e)
  · exact fun u b h => h
  · rfl

/-- An atomic's operation, by AOP (R382). -/
theorem atomicOp_eq (aop w o c : Nat) : atomicOp aop w o c = if aop = 0 then (w + o) % 2 ^ 64 else if aop = 1 then w &&& o else if aop = 2 then w ||| o
    else if aop = 3 then w ^^^ o else if aop = 4 then max w o else if aop = 5 then min w o else if aop = 6 then o else if w = c then o else w := by
  unfold atomicOp
  split
  · rfl
  · rfl
  · rfl
  · rfl
  · rfl
  · rfl
  · rfl
  · next h0 h1 h2 h3 h4 h5 h6 => rw [if_neg h0, if_neg h1, if_neg h2, if_neg h3, if_neg h4, if_neg h5, if_neg h6]

/-! ## Requests that are allowed -/

section Allowed

variable {s : State} {t : Txn} {errors : List ReadError} {d : Nat}

/-- What a request that is allowed reads is good: no poison of the domain's, and none of an array's. -/
def ReadsGood (s : State) (t : Txn) (d : Nat) (errors : List ReadError) (n : Nat) : Prop :=
  ((s.meetErrors d errors).1.rdMem d t.addr n).2 = false ∧ (s.meetErrors d errors).2 = false

theorem readsGood_iff {n : Nat} : ReadsGood s t d errors n ↔
    ¬ (((s.meetErrors d errors).1.rdMem d t.addr n).2 || (s.meetErrors d errors).2) = true := by
  rw [Bool.not_eq_true, Bool.or_eq_false_iff]
  rfl

variable (hd : s.tagHolder t.ptag.toNat = some d)
include hd

theorem serveRead_allowed (h : s.remoteStatus t.ptag.toNat t.addr (64 * t.nblk) false true true 64 = 0) : s.serveRead t errors =
    if ((s.meetErrors d errors).1.rdMem d t.addr (64 * t.nblk)).2 || (s.meetErrors d errors).2 then
      ((s.meetErrors d errors).1.rejectRemote t.ptag.toNat, txnAnswer t s.fab.self 5 [])
    else ((s.meetErrors d errors).1.bump d pCol 1 (64 * t.nblk), txnAnswer t s.fab.self 0 ((List.range t.nblk).map (fun i =>
      (((s.meetErrors d errors).1.rdMem d t.addr (64 * t.nblk)).1.drop (64 * i)).take 64))) := by
  unfold State.serveRead
  simp only [hd, h]

theorem serveWrite_allowed (h : s.remoteStatus t.ptag.toNat t.addr (64 * t.nblk) true true true 64 = 0) : s.serveWrite t errors =
    (((s.meetErrors d errors).1.wrMem d t.addr (t.slots.flatten.take (64 * t.nblk))).bump d pCol 2 (64 * t.nblk),
      txnAnswer t s.fab.self 0 []) := by
  unfold State.serveWrite
  simp only [hd, h]

theorem serveRadd_allowed (h : s.remoteStatus t.ptag.toNat t.addr (raddLen t) true (raddFormats t.stype t.sfmt) (raddOpOk t) 64 = 0) :
    s.serveRadd t errors =
    if ((s.meetErrors d errors).1.rdMem d t.addr (raddLen t)).2 || (s.meetErrors d errors).2 then
      ((s.meetErrors d errors).1.rejectRemote t.ptag.toNat, txnAnswer t s.fab.self 5 [])
    else ((((s.meetErrors d errors).1.wrMem d t.addr (raddBytes t.stype t.sfmt t.masks t.slots
      ((s.meetErrors d errors).1.rdMem d t.addr (raddLen t)).1)).countAdds d t.addr (raddLen t)).bump d pCol 2 (64 * t.nblk),
      txnAnswer t s.fab.self 0 []) := by
  unfold raddLen raddOpOk at *
  unfold State.serveRadd
  simp only [hd, h]

/-- The word that an atomic writes over an old one. -/
def atomWord (t : Txn) (old : List Byte) : Nat :=
  atomicOp t.aop (ofLe old) (ofLe ((t.slots.headD []).take 8)) (ofLe (((t.slots.headD []).drop 8).take 8))

theorem serveAtom_allowed (h : s.remoteStatus t.ptag.toNat t.addr 8 true true (t.aop ≤ 7) 8 = 0) : s.serveAtom t errors =
    if ((s.meetErrors d errors).1.rdMem d t.addr 8).2 || (s.meetErrors d errors).2 then
      ((s.meetErrors d errors).1.rejectRemote t.ptag.toNat, txnAnswer t s.fab.self 5 [])
    else ((((s.meetErrors d errors).1.wrMem d t.addr (leBytes 8 (atomWord t ((s.meetErrors d errors).1.rdMem d t.addr 8).1))).countAdds
      d t.addr 8).bump d pCol 2 64, txnAnswer t s.fab.self 0 [((s.meetErrors d errors).1.rdMem d t.addr 8).1 ++ List.replicate 56 0]) := by
  unfold State.serveAtom
  simp only [hd, h]
  rfl

theorem rdReq_reads (h : s.remoteStatus t.ptag.toNat t.addr (64 * t.nblk) false true true 64 = 0) (hg : ReadsGood s t d errors (64 * t.nblk)) :
    exec (.rdReq t errors) s = .next (((s.meetErrors d errors).1.bump d pCol 1 (64 * t.nblk)).sendAnswer 2 (txnAnswer t s.fab.self 0
      ((List.range t.nblk).map (fun i => (((s.meetErrors d errors).1.rdMem d t.addr (64 * t.nblk)).1.drop (64 * i)).take 64)))) := by
  exact exec_rdReq ((serveRead_allowed hd h).trans (if_neg (readsGood_iff.1 hg)))

theorem rdReq_poison (h : s.remoteStatus t.ptag.toNat t.addr (64 * t.nblk) false true true 64 = 0) (hg : ¬ ReadsGood s t d errors (64 * t.nblk)) :
    RemoteFails s t (s.meetErrors d errors).1 (.rdReq t errors) 2 5 (((s.meetErrors d errors).1.tagHolder t.ptag.toNat).getD 0) :=
  remoteFails_of_reject rfl (exec_rdReq ((serveRead_allowed hd h).trans (if_pos (not_not.1 (readsGood_iff.not.1 hg)))))

theorem wr_writes (h : s.remoteStatus t.ptag.toNat t.addr (64 * t.nblk) true true true 64 = 0) :
    ∃ u, exec (.wr t errors) s = .next (u.sendAnswer 4 (txnAnswer t s.fab.self 0 [])) ∧
      Stores d t.addr (t.slots.flatten.take (64 * t.nblk)) (s.meetErrors d errors).1 u ∧
      u.counter d pCol 2 = (s.meetErrors d errors).1.counter d pCol 2 + w64 (64 * t.nblk) := by
  refine ⟨_, exec_wr (serveWrite_allowed hd h), stores_of_wrMem (fun _ => rfl) (fr_bump (fr_refl _ _) _ _ _ _ (by decide)), ?_⟩
  rw [counter_bump_self, counter_congr ((wrMem_frame ..).kept .counters (by decide))]

theorem radd_adds (h : s.remoteStatus t.ptag.toNat t.addr (raddLen t) true (raddFormats t.stype t.sfmt) (raddOpOk t) 64 = 0)
    (hg : ReadsGood s t d errors (raddLen t)) :
    ∃ u, exec (.radd t errors) s = .next (u.sendAnswer 6 (txnAnswer t s.fab.self 0 [])) ∧
      Stores d t.addr (raddBytes t.stype t.sfmt t.masks t.slots ((s.meetErrors d errors).1.rdMem d t.addr (raddLen t)).1)
        (s.meetErrors d errors).1 u :=
  ⟨_, exec_radd ((serveRadd_allowed hd h).trans (if_neg (readsGood_iff.1 hg))), stores_of_wrMem (fun _ => countAdds_dom ..)
    (fr_bump (fr_countAdds (fr_refl _ _) _ _ _ (by decide)) _ _ _ _ (by decide))⟩

theorem radd_poison (h : s.remoteStatus t.ptag.toNat t.addr (raddLen t) true (raddFormats t.stype t.sfmt) (raddOpOk t) 64 = 0)
    (hg : ¬ ReadsGood s t d errors (raddLen t)) :
    RemoteFails s t (s.meetErrors d errors).1 (.radd t errors) 6 5 (((s.meetErrors d errors).1.tagHolder t.ptag.toNat).getD 0) :=
  remoteFails_of_reject rfl (exec_radd ((serveRadd_allowed hd h).trans (if_pos (not_not.1 (readsGood_iff.not.1 hg)))))

theorem atom_writes (h : s.remoteStatus t.ptag.toNat t.addr 8 true true (t.aop ≤ 7) 8 = 0) (hg : ReadsGood s t d errors 8) :
    ∃ u, exec (.atom t errors) s = .next (u.sendAnswer 8 (txnAnswer t s.fab.self 0
        [((s.meetErrors d errors).1.rdMem d t.addr 8).1 ++ List.replicate 56 0])) ∧
      Stores d t.addr (leBytes 8 (atomWord t ((s.meetErrors d errors).1.rdMem d t.addr 8).1)) (s.meetErrors d errors).1 u :=
  ⟨_, exec_atom ((serveAtom_allowed hd h).trans (if_neg (readsGood_iff.1 hg))), stores_of_wrMem (fun _ => countAdds_dom ..)
    (fr_bump (fr_countAdds (fr_refl _ _) _ _ _ (by decide)) _ _ _ _ (by decide))⟩

theorem atom_poison (h : s.remoteStatus t.ptag.toNat t.addr 8 true true (t.aop ≤ 7) 8 = 0) (hg : ¬ ReadsGood s t d errors 8) :
    RemoteFails s t (s.meetErrors d errors).1 (.atom t errors) 8 5 (((s.meetErrors d errors).1.tagHolder t.ptag.toNat).getD 0) :=
  remoteFails_of_reject rfl (exec_atom ((serveAtom_allowed hd h).trans (if_pos (not_not.1 (readsGood_iff.not.1 hg)))))

end Allowed

/-! ## Stripes for peers (R233, R378) -/

section Stripes

variable {s : State} {t : Txn} {errors : List ReadError}

/-- The copy is the one that a STRIPE_REQ names (log 68). -/
def heldFor (t : Txn) (c : CopySlot) : Bool :=
  c.state != .empty && c.state != .retiring && c.gen == (txnStripe t).2.2.1 && c.modelId == (txnStripe t).2.2.2 && c.shardIndex == (txnStripe t).2.1

theorem heldFor_iff {c : CopySlot} : heldFor t c = true ↔ c.state ≠ .empty ∧ c.state ≠ .retiring ∧ c.gen = (txnStripe t).2.2.1 ∧
    c.modelId = (txnStripe t).2.2.2 ∧ c.shardIndex = (txnStripe t).2.1 := by
  simp only [heldFor, Bool.and_eq_true, bne_iff_ne, beq_iff_eq, and_assoc]

theorem find_held_none (h0 : heldFor t (s.copy 0) = false) (h1 : heldFor t (s.copy 1) = false) :
    [0, 1].find? (fun k => heldFor t (s.copy k)) = none := by
  simp [h0, h1]

theorem find_held {i : Nat} (h : heldFor t (s.copy i) = true) (hi : i = 0 ∨ i = 1 ∧ heldFor t (s.copy 0) = false) :
    [0, 1].find? (fun k => heldFor t (s.copy k)) = some i := by
  obtain rfl | ⟨rfl, h0⟩ := hi
  · simp [h]
  · simp [h, h0]

/-- A stripe that a peer may have: verified, resident and without poison. -/
def servesStripe (c : CopySlot) (q : Nat) : Bool :=
  (c.stripe q).servable && (c.stripe q).state == .resident && !(c.stripe q).staged && !poisonHit c.poison 64 (65536 * q) 65536

theorem servesStripe_iff {c : CopySlot} {q : Nat} : servesStripe c q = true ↔ (c.stripe q).servable = true ∧ (c.stripe q).state = .resident ∧
    (c.stripe q).staged = false ∧ poisonHit c.poison 64 (65536 * q) 65536 = false := by
  simp only [servesStripe, Bool.and_eq_true, beq_iff_eq, Bool.not_eq_true', and_assoc]

/-- The pieces of a stripe, three a flit. -/
def stripePieces (s : State) (t : Txn) (c : CopySlot) (q : Nat) : List Txn :=
  (List.range 342).map (fun i =>
    let part := ((memGet c.image (65536 * q) 65536).drop (192 * i)).take 192
    { txnAnswer t s.fab.self 0 ((List.range (part.length / 64)).map (fun j => (part.drop (64 * j)).take 64)) with addr := 65536 * q + 192 * i })

/-- NOT_HELD, with what the device has of the copy that is named. -/
def NotHeld (s : State) (t : Txn) (errors : List ReadError) (base : State) (code : Nat) : Prop :=
  ∃ u, exec (.stripeReq t errors) s = .next (u.sendAnswer 0xB { txnAnswer t s.fab.self 7 [] with addr := code }) ∧ Frame (withEvents [.domMem]) base u

theorem exec_stripeReq : exec (.stripeReq t errors) s =
    .next ((s.serveStripe t errors).2.foldl (fun u a => u.sendAnswer 0xB a) (s.serveStripe t errors).1) := rfl

theorem serveStripe_noTag (h : t.ptag.toNat ≠ (s.dom 0).col.ptag ∨ t.ptag = 0xFFFF) :
    s.serveStripe t errors = (s.rejectRemote t.ptag.toNat, [txnAnswer t s.fab.self 1 []]) := by
  unfold State.serveStripe
  dsimp only
  rw [if_pos h]

/-- NOT_HELD of a stripe request that the device refuses. -/
theorem notHeld_of_serve {base : State} {code : Nat} (hserve : s.serveStripe t errors =
    (base.rejectRemote t.ptag.toNat, [{ txnAnswer t s.fab.self 7 [] with addr := code }])) : NotHeld s t errors base code :=
  ⟨_, by rw [exec_stripeReq, hserve]; rfl, rejectRemote_frame ..⟩

variable (h : ¬ (t.ptag.toNat ≠ (s.dom 0).col.ptag ∨ t.ptag = 0xFFFF))
include h

theorem serveStripe_none (hn : [0, 1].find? (fun k => heldFor t (s.copy k)) = none) :
    s.serveStripe t errors = (s.rejectRemote t.ptag.toNat, [{ txnAnswer t s.fab.self 7 [] with addr := 0 }]) := by
  unfold heldFor at hn
  unfold State.serveStripe
  dsimp only
  rw [if_neg h, hn]

theorem serveStripe_some {i : Nat} (hi : [0, 1].find? (fun k => heldFor t (s.copy k)) = some i) : s.serveStripe t errors =
    if servesStripe ((s.meetErrors 0 errors).1.copy i) (t.addr / 65536) then
      ((s.meetErrors 0 errors).1.bump 0 pCol 1 65536, stripePieces s t ((s.meetErrors 0 errors).1.copy i) (t.addr / 65536))
    else ((s.meetErrors 0 errors).1.rejectRemote t.ptag.toNat,
      [{ txnAnswer t s.fab.self 7 [] with addr := if ((s.meetErrors 0 errors).1.copy i).state = .building then 1 else 2 }]) := by
  unfold heldFor at hi
  unfold State.serveStripe
  dsimp only
  rw [if_neg h, hi]
  have hserves (c : CopySlot) (q : Nat) : (!(c.stripe q).servable || (c.stripe q).state != .resident || (c.stripe q).staged ||
      poisonHit c.poison 64 (65536 * q) 65536) = !servesStripe c q := by
    simp only [servesStripe, Bool.not_and, Bool.not_not, bne]
  dsimp only
  rw [show (txnStripe t).1 = t.addr / 65536 from rfl, hserves]
  cases servesStripe ((s.meetErrors 0 errors).1.copy i) (t.addr / 65536) with
  | true => rfl
  | false => rfl

end Stripes

/-! ## The statement -/

/-- Settles O51: each request by the test that refuses it, or by what it reads and writes where all allow it. -/
theorem remoteAccess : Obligations.RemoteAccess := by
  unfold Obligations.RemoteAccess
  intro s t d errors n k c met sram holds answer stores mayRead mayWrite reads word operand compare result opOk fails refused poisoned
  have hread (hd : holds) (h : mayRead) : s.remoteStatus t.ptag.toNat t.addr n false true true 64 = 0 := by
    obtain ⟨hen, halign, hrange, hres⟩ := h
    exact remoteStatus_allowed hd hen rfl (remoteFits_iff.2 ⟨rfl, halign, hrange, rfl⟩) hres
  have hwrite (hd : holds) {len align : Nat} {typesOk ok : Bool} (h : mayWrite len align) (ht : typesOk = true) (ho : ok = true) :
      s.remoteStatus t.ptag.toNat t.addr len true typesOk ok align = 0 := by
    obtain ⟨hen, halign, hrange, hshared, hres⟩ := h
    exact remoteStatus_allowed hd hen ho (remoteFits_iff.2 ⟨ht, halign, hrange, hshared⟩) hres
  refine ⟨fr_meetErrors (fr_refl _ s) d errors (by decide), fun hd => ⟨?reads, ?writes, ?adds, ?atomic, ?readPoison, ?addPoison, ?atomPoison⟩,
    ?noPartition, ?readDenied, ?writeDenied, ?badOp, ?readRefused, ?writeRefused, ?noTag, ?stripes⟩
  case reads => exact fun h hg => rdReq_reads hd (hread hd h) hg
  case writes => exact fun h => wr_writes hd (hwrite hd h rfl rfl)
  case adds => exact fun h hf ho hg => radd_adds hd (hwrite hd h hf ((raddOpOk_iff t).2 ho)) hg
  case atomic =>
    intro h ha hg
    have hresult : atomWord t (met.rdMem d t.addr 8).1 = result := atomicOp_eq ..
    rw [← hresult]
    exact atom_writes hd (hwrite hd h rfl (decide_eq_true ha)) hg
  case readPoison => exact fun h hg => rdReq_poison hd (hread hd h) hg
  case addPoison => exact fun h hf ho hg => radd_poison hd (hwrite hd h hf ((raddOpOk_iff t).2 ho)) hg
  case atomPoison => exact fun h ha hg => atom_poison hd (hwrite hd h rfl (decide_eq_true ha)) hg
  case noPartition =>
    exact fun hn => ⟨(tested_rdReq s t errors).noPartition hn, (tested_wr s t errors).noPartition hn, (tested_radd s t errors).noPartition hn,
      (tested_atom s t errors).noPartition hn⟩
  case readDenied => exact fun hd he => (tested_rdReq s t errors).denied hd he
  case writeDenied =>
    exact fun hd he => ⟨(tested_wr s t errors).denied hd he, (tested_radd s t errors).denied hd he, (tested_atom s t errors).denied hd he⟩
  case badOp =>
    exact fun hd he => ⟨fun ha => (tested_atom s t errors).badOp hd he (decide_eq_false (Nat.not_le.2 ha)),
      fun ho => (tested_radd s t errors).badOp hd he (Bool.eq_false_iff.2 fun h => ho ((raddOpOk_iff t).1 h))⟩
  case readRefused =>
    exact fun hd he => ⟨fun hm => (tested_rdReq s t errors).range hd he rfl (remoteFits_eq_false_iff.2 (.inr (hm.imp_right .inl))),
      fun halign hrange hr => (tested_rdReq s t errors).notResident hd he rfl (remoteFits_iff.2 ⟨rfl, halign, hrange, rfl⟩) hr⟩
  case writeRefused =>
    intro cmd op len align hd he hcmd
    have htested := tested_write (s := s) hcmd
    refine ⟨fun hm => htested.range hd he rfl (remoteFits_eq_false_iff.2 (.inr hm)), fun h6 hfmt => htested.range hd he rfl
      (remoteFits_eq_false_iff.2 (.inl ((if_pos h6).trans hfmt))), fun halign hrange hshared hr hfmt => htested.notResident hd he rfl
      (remoteFits_iff.2 ⟨?_, halign, hrange, hshared⟩) hr⟩
    split
    · next h6 => exact hfmt.resolve_left (not_not.2 h6)
    · rfl
  case noTag => exact fun h => ⟨_, by rw [exec_stripeReq, serveStripe_noTag h]; rfl, rejectRemote_frame ..⟩
  case stripes =>
    intro htag hffff m q named met0 notHeld
    have h : ¬ (t.ptag.toNat ≠ (s.dom 0).col.ptag ∨ t.ptag = 0xFFFF) := by tauto
    have hunnamed {y : CopySlot} (hy : ¬ named y) : heldFor t y = false := Bool.eq_false_iff.2 fun hh => hy (heldFor_iff.1 hh)
    refine ⟨fun h0 h1 => notHeld_of_serve (serveStripe_none h (find_held_none (hunnamed h0) (hunnamed h1))), fun i hn hi => ?_⟩
    have hserve := serveStripe_some (errors := errors) h (find_held (heldFor_iff.2 hn) (hi.imp_right fun ⟨h1, h0⟩ => ⟨h1, hunnamed h0⟩))
    refine ⟨fun hs => notHeld_of_serve (hserve.trans (if_neg fun hb => hs (servesStripe_iff.1 hb))), fun hs => ?_⟩
    rw [exec_stripeReq, hserve, if_pos (servesStripe_iff.2 hs)]
    rfl

end Sys2Proof.Proofs

/-! Power, resets and bring-up (R334, R430, R497, R498, R503 to R506, R513, R517): what a device reset leaves stands through what the pins, the supply and bring-up move after it. From it the statement on power and resets. -/

namespace Sys2Proof.Proofs

open Sys2Proof.Machine Sys2Proof.Safety Sys2Proof.Laws

/-! ## What a device reset leaves (R434, R435, R441, R468, R517) -/

/-- What a device reset leaves of bring-up's progress, the code of its cause and the challenge: the part of WasReset that speaks of BootState. -/
def BootReset (s : State) (b : BootState) (cause : Nat) : Prop :=
  b.slot0 = .untried ∧ b.slot1 = .untried ∧ b.bootSecondary = false ∧ b.bootFailed = false ∧
    b.unlocked = false ∧ b.mbdTrained = false ∧ b.wiped = false ∧ b.fwReleased = false ∧
    b.failedStacks = [] ∧ b.badUnits = [] ∧ b.i3cDynamic = none ∧ b.fwSvn = 0 ∧ b.resetCause = cause ∧
    b.challenge = s.boot.challenge + 1

section Reset

variable {s t : State} {cause : Nat}

theorem wasReset_resetDevice (s : State) (cause : Nat) (keep : Bool) : WasReset s (s.resetDevice cause keep) cause :=
  ⟨⟨rfl, rfl, rfl, rfl, rfl⟩, fun _ => rfl, fun _ => rfl, fun _ => rfl, fun _ => rfl, fun _ => rfl, fun _ _ => ⟨rfl, rfl⟩,
    fun _ _ _ => rfl, rfl, fun _ => rfl, rfl, fun _ => rfl, fun _ => rfl, ⟨rfl, rfl, rfl, rfl, rfl, rfl, rfl⟩, rfl, rfl,
    ⟨rfl, rfl, rfl, rfl, rfl, rfl, rfl, rfl, rfl, rfl, rfl, rfl, rfl, rfl⟩⟩

theorem nextModes_resetDevice (s : State) (cause : Nat) (keep : Bool) : NextModes s (s.resetDevice cause keep) := ⟨rfl, rfl, rfl⟩

/-- What a reset leaves stands while only pins, supply, bring-up's progress outside BootReset, and parts that it does not speak of move. -/
theorem wasReset_moved {b : BootState} {p : PciState} {m : MemGlobal} {n : NvmState} {f : FulState} {frames : Nat} {o : List Output}
    (h : WasReset s t cause) (hb : BootReset s t.boot cause → BootReset s b cause) :
    WasReset s { t with boot := b, pci := p, memg := m, nvm := n, ful := f, freeFrames := frames, out := o } cause := by
  obtain ⟨hwait, hdom, hslot, hmbd, hport, hunit, hview, hcounter, hstretch, hcommons, hpoison, hopbuf, hacc, hparts, hlks, hfuses, hboot⟩ := h
  exact ⟨hwait, hdom, hslot, hmbd, hport, hunit, hview, hcounter, hstretch, hcommons, hpoison, hopbuf, hacc, hparts, hlks, hfuses, hb hboot⟩

end Reset

/-! ## Bring-up starts (R449, R499, R506) -/

/-- Bring-up runs with the wipe of the device, and the reference clocks are driven. -/
def Starts (t : State) : Prop :=
  t.boot.phase = .bringUp ∧ t.boot.spiResetN = true ∧ t.ful.full = true ∧ .pin 4 true ∈ t.out ∧ .pin 5 t.nvm.bifur ∈ t.out

theorem startBringUp_eq (s : State) : s.startBringUp =
    { s with boot := { s.boot with phase := .bringUp, spiResetN := true },
             ful := { s.ful with full := true, wipeStartNs := s.tik.timeNs },
             out := .pin 5 s.nvm.bifur :: .pin 4 true :: (if s.boot.spiResetN then s.out else .pin 2 true :: s.out) } := by
  unfold State.startBringUp State.refClocks
  cases s.boot.spiResetN <;> rfl

theorem starts_startBringUp (s : State) : Starts s.startBringUp := by
  rw [startBringUp_eq]
  exact ⟨rfl, rfl, rfl, .tail _ (.head _), .head _⟩

theorem outGrows_startBringUp (s : State) : OutGrows s s.startBringUp := by
  rw [startBringUp_eq]
  cases s.boot.spiResetN
  · exact ⟨[.pin 5 s.nvm.bifur, .pin 4 true, .pin 2 true], by simp⟩
  · exact ⟨[.pin 5 s.nvm.bifur, .pin 4 true], by simp⟩

/-- A reset that goes on to bring-up at once leaves what a reset leaves, and bring-up runs. -/
theorem restart_leaves (s : State) (cause : Nat) (keep : Bool) :
    WasReset s (s.restart cause keep) cause ∧ NextModes s (s.restart cause keep) ∧ Starts (s.restart cause keep) ∧
      (s.restart cause keep).boot.perstN = s.boot.perstN ∧ (s.restart cause keep).pci = (s.resetDevice cause keep).pci := by
  rw [State.restart]
  refine ⟨?_, ?_, starts_startBringUp _, ?_⟩ <;> rw [startBringUp_eq]
  · exact wasReset_moved (wasReset_resetDevice s cause keep) id
  · exact nextModes_resetDevice s cause keep
  · exact ⟨rfl, rfl⟩

/-! ## Supply and PERST_N (R503, R504) -/

section Commands

variable {s : State}

theorem awake_phase (h : s.awake = true) : s.boot.phase ≠ .off ∧ s.boot.phase ≠ .tripped := by
  unfold State.awake at h
  constructor <;> intro hp <;> simp [hp] at h

/-- The state that V_IN past 58 V leaves before bring-up. -/
def powered (s : State) (mV : Nat) : State := (s.updBoot (fun b => { b with vInMv := mV, phase := .inReset, pwrGood := true })).emit (.pin 0 true)

theorem exec_powerApply {mV : Nat} (hoff : s.boot.phase = .off) (hlow : 58000 < mV) (hhigh : mV ≤ 84000) :
    exec (.powerApply mV) s = .next (if s.boot.perstN then (powered s mV).startBringUp else powered s mV) :=
  congrArg Host.Outcome.next (if_pos (by simp [hoff, hlow, hhigh]))

theorem powerApply_leaves {mV : Nat} (hoff : s.boot.phase = .off) (hlow : 58000 < mV) (hhigh : mV ≤ 84000) :
    ∃ t, exec (.powerApply mV) s = .next t ∧ t.boot.vInMv = mV ∧ t.boot.pwrGood = true ∧ .pin 0 true ∈ t.out ∧
      (s.boot.perstN = false → t.boot.phase = .inReset) ∧ (s.boot.perstN = true → Starts t) := by
  refine ⟨_, exec_powerApply hoff hlow hhigh, ?_⟩
  cases s.boot.perstN with
  | false => exact ⟨rfl, rfl, .head _, fun _ => rfl, nofun⟩
  | true =>
    refine ⟨?_, ?_, outGrows_mem (outGrows_startBringUp (powered s mV)) (.head _), nofun, fun _ => starts_startBringUp _⟩ <;>
      rw [if_pos rfl, startBringUp_eq] <;> rfl

/-- The state that a rise of PERST_N leaves before bring-up: the straps are sampled. -/
def strapped (s : State) (baud asel : Fin 4) : State := s.updBoot (fun b => { b with perstN := true, baudSel := baud.val, i3cAsel := asel.val })

theorem exec_perstRise {baud asel : Fin 4} (h : s.boot.perstN = false) : exec (.perstRise baud asel) s =
    .next (if s.boot.phase = .inReset ∧ s.boot.pwrGood = true then (strapped s baud asel).startBringUp else strapped s baud asel) :=
  congrArg Host.Outcome.next (if_neg (by simp [h]))

theorem perstRise_leaves {baud asel : Fin 4} (h : s.boot.perstN = false) :
    ∃ t, exec (.perstRise baud asel) s = .next t ∧ t.boot.perstN = true ∧ t.boot.baudSel = baud.val ∧ t.boot.i3cAsel = asel.val ∧
      (s.boot.phase = .inReset → s.boot.pwrGood = true → Starts t) ∧
      (s.boot.phase ≠ .inReset ∨ s.boot.pwrGood = false → t.boot.phase = s.boot.phase) := by
  refine ⟨_, exec_perstRise h, ?_⟩
  split
  · next hstart =>
    refine ⟨?_, ?_, ?_, fun _ _ => starts_startBringUp _, fun hheld => ?_⟩
    case refine_4 => simp [hstart] at hheld
    all_goals rw [startBringUp_eq]; rfl
  · next hheld => exact ⟨rfl, rfl, rfl, fun hp hg => absurd ⟨hp, hg⟩ hheld, fun _ => rfl⟩

/-! ## Resets (R430, R504, R505, R513, R517) -/

theorem perstFall_leaves (hw : s.awake = true) (hp : s.boot.perstN = true) :
    ∃ t, exec (.perstFall .perst) s = .next t ∧ WasReset s t 0x0005 ∧ NextModes s t ∧ t.pci = {} ∧ t.boot.phase = .inReset ∧
      t.boot.perstN = false ∧ t.boot.pwrGood = s.boot.pwrGood ∧ t.out = .pin 3 false :: .pin 2 false :: s.out :=
  ⟨_, congrArg Host.Outcome.next ((if_neg (by simp [hp])).trans (if_pos hw)), wasReset_moved (wasReset_resetDevice s causeHost false) id,
    nextModes_resetDevice s causeHost false, rfl, rfl, rfl, rfl, rfl⟩

theorem pfFlr_leaves (h : s.boot.phase = .running) :
    ∃ t, exec (.perstFall .pfFlr) s = .next t ∧ WasReset s t 0x0005 ∧ NextModes s t ∧ Starts t ∧ t.boot.perstN = s.boot.perstN ∧
      t.pci = { speed := s.pci.speed, width := s.pci.width, dlUp := s.pci.dlUp, trainedOnce := s.pci.trainedOnce } :=
  ⟨_, congrArg Host.Outcome.next (if_pos (.inl h)), restart_leaves s causeHost true⟩

theorem pwrGoodLoss_leaves (h : s.boot.phase = .running) (hg : s.boot.pwrGood = true) (hp : s.boot.perstN = true) :
    ∃ t, exec .pwrGoodLoss s = .next t ∧ WasReset s t 0x0005 ∧ NextModes s t ∧ t.pci = {} ∧ t.boot.phase = .inReset ∧
      t.boot.perstN = false ∧ t.boot.pwrGood = false ∧ .pin 0 false ∈ t.out :=
  ⟨_, congrArg Host.Outcome.next (if_pos ⟨hg, hp, by simp [h]⟩), wasReset_moved (wasReset_resetDevice s causeHost false) id,
    nextModes_resetDevice s causeHost false, rfl, rfl, rfl, rfl, .head _⟩

theorem watchdog_leaves (h : s.awake = true) :
    ∃ t, exec .watchdog s = .next t ∧ WasReset s t 0x0003 ∧ NextModes s t ∧ t.pci = {} ∧ Starts t ∧ t.boot.perstN = s.boot.perstN := by
  obtain ⟨hreset, hmodes, hstarts, hperst, hpci⟩ := restart_leaves s causeWatchdog false
  exact ⟨_, congrArg Host.Outcome.next (if_pos h), hreset, hmodes, hpci, hstarts, hperst⟩

/-! ## Too hot, and V_IN out of range (R334, R336, R349, R498, R513) -/

theorem thermTrip_leaves (h : s.awake = true) :
    ∃ t, exec .thermTrip s = .next t ∧ WasReset s t 0x0001 ∧ t.boot.phase = .tripped ∧ t.boot.thermTrip = true ∧
      t.boot.pwrGood = s.boot.pwrGood ∧ t.out = .pldm 0x0001 0 :: .pin 1 false :: .pin 3 false :: .pin 2 false :: s.out :=
  ⟨_, congrArg Host.Outcome.next (if_neg (not_or.2 (awake_phase h))),
    wasReset_moved (wasReset_resetDevice s causeTherm false) id, rfl, rfl, rfl, rfl⟩

/-- The code on record for a supply that leaves its range (R513). -/
def supplyCause (s : State) (low40 : Bool) : Nat := if !low40 && !s.boot.thermTrip then causeSupply else causePowerOn

theorem supplyCause_eq (s : State) (low40 : Bool) : supplyCause s low40 = if low40 || s.boot.thermTrip then 0x0006 else 0x0002 := by
  unfold supplyCause
  cases low40 <;> cases s.boot.thermTrip <;> rfl

theorem supplyOut_leaves {mV : Nat} {low40 : Bool} (h : s.awake = true) (hout : mV < 56000 ∨ 84000 < mV) :
    ∃ t, exec (.supplyOut mV low40) s = .next t ∧ t.boot.phase = .off ∧ t.boot.pwrGood = false ∧ t.boot.vInMv = mV ∧
      WasReset s t (if low40 || s.boot.thermTrip then 0x0006 else 0x0002) ∧ t.memg = {} ∧ t.nvm = {} ∧ t.freeFrames = 196608 ∧
      .pin 0 false ∈ t.out ∧ .pin 4 false ∈ t.out ∧ .pin 5 false ∈ t.out := by
  have hruns : ((decide (mV < 56000) || decide (84000 < mV)) && s.boot.phase != .off) = true := by simp [hout, (awake_phase h).1]
  rw [← supplyCause_eq]
  exact ⟨_, congrArg Host.Outcome.next (if_pos hruns), rfl, rfl, rfl,
    wasReset_moved (wasReset_resetDevice s (supplyCause s low40) false) id,
    rfl, rfl, rfl, .tail _ (.head _), .tail _ (.tail _ (.tail _ (.head _))), .tail _ (.tail _ (.head _))⟩

end Commands

/-! ## The statement -/

/-- Settles O33: each change of a pin, of the supply and each reset by its lemma. -/
theorem powerAndResets : Obligations.PowerAndResets := by
  unfold Obligations.PowerAndResets
  intro s mV baud asel low40 starts
  exact ⟨powerApply_leaves, perstRise_leaves, perstFall_leaves, pfFlr_leaves, pwrGoodLoss_leaves, watchdog_leaves, thermTrip_leaves,
    supplyOut_leaves⟩

end Sys2Proof.Proofs

/-! The stacks and their memory base dies (R252, R253, R272, R273, R278, R285, R286, R313): what the swap of a lane, a channel that fails and a lane that fails its training leave, each of one stack alone. From them the statement on emergency retraining and refresh pauses. -/

namespace Sys2Proof.Proofs

open Sys2Proof.Machine Sys2Proof.Safety Sys2Proof.Laws

/-! ## Operations on one stack -/

theorem devCopies_of_doms {s t : State} (h : t.doms = s.doms) (p b : Nat) : t.devCopies p b = s.devCopies p b :=
  devCopies_congr (fun d => by rw [State.dom, h, State.dom]) p b

/-- A device event stands in the views that saw such events in a state before it. -/
theorem raiseDev_eventIn {s t : State} {p b : Nat} (h : t.devCopies p b = s.devCopies p b) (hb : b < 32) :
    EventIn (t.raiseDev p b) (s.devCopies p b) p b := fun c hc => raiseDev_event t p b hb c (h ▸ hc)

/-- From s to t one stack alone has changed, beside events, and no event has gone. -/
structure StackStep (k : Nat) (s t : State) : Prop where
  frame : Frame (withEvents [.mbds]) s t
  only : OnlyMbd s t k
  stays : EventsStay s t

namespace StackStep

variable {k : Nat} {s t u : State}

theorem refl (k : Nat) (s : State) : StackStep k s s := ⟨fr_refl _ s, fun _ _ => rfl, eventsStay_refl s⟩

theorem trans (a : StackStep k s t) (b : StackStep k t u) : StackStep k s u :=
  ⟨fr_trans a.frame b.frame, fun j hj => (b.only j hj).trans (a.only j hj), eventsStay_trans a.stays b.stays⟩

theorem updMbd (k : Nat) (s : State) (f : StackState → StackState) : StackStep k s (s.updMbd k f) :=
  ⟨fr_updMbd (fr_refl _ s) k f (by decide), fun j hj => by rw [mbd_updMbd, if_neg hj], eventsStay_views rfl⟩

theorem bump (k : Nat) (s : State) (e p i n : Nat) : StackStep k s (s.bump e p i n) :=
  ⟨fr_bump (fr_refl _ s) e p i n (by decide), fun _ _ => rfl, eventsStay_views rfl⟩

theorem raiseDev (k : Nat) (s : State) (p b : Nat) : StackStep k s (s.raiseDev p b) :=
  ⟨fr_raiseDev (fr_refl _ s) p b (by decide), fun j _ => raiseDev_mbd s p b j, eventsStay_raiseDev s p b⟩

/-- The views that an event reaches are the same after it. -/
theorem devCopies (h : StackStep k s t) (p b : Nat) : t.devCopies p b = s.devCopies p b := devCopies_of_frame h.frame (by decide) p b

theorem raised (h : StackStep k s t) (p : Nat) {b : Nat} (hb : b < 32) : EventIn (t.raiseDev p b) (s.devCopies p b) p b :=
  raiseDev_eventIn (h.devCopies p b) hb

end StackStep

/-- No record of the trace moves a counter of a stack. -/
theorem untraced_mem (k : Nat) {i : Nat} (hi : i < 8) : Untraced dev (pMem k) i := by
  unfold Untraced counterKey dev pMem pDbg
  omega

theorem counter_mem_raiseDev (s : State) (k p b : Nat) {i : Nat} (hi : i < 8) : (s.raiseDev p b).counter dev (pMem k) i = s.counter dev (pMem k) i :=
  counter_raiseDev s p b (untraced_mem k hi)

theorem counter_bump_ne (s : State) (e p n : Nat) {i j : Nat} (h : i ≠ j) : (s.bump e p j n).counter e p i = s.counter e p i := by
  rw [counter_bump, if_neg (by unfold counterKey; omega)]

theorem length_numAdd {l : List Nat} {k : Nat} (h : k ∉ l) : (numAdd l k).length = l.length + 1 := by
  induction l with
  | nil => rfl
  | cons j r ih =>
    obtain ⟨hkj, hkr⟩ := not_or.1 (mt List.mem_cons.2 h)
    rw [numAdd, if_neg hkj]
    split
    · rfl
    · rw [List.length_cons, ih hkr, List.length_cons]

/-! ## A lane's bits go over its spare (R252, R285, R286) -/

/-- The spares in use once the bits of a lane have gone over that of its pseudo-channel, if it was free. -/
def withSpare (used : List Nat) (c lane : Nat) : List Nat := if pseudoOf c lane ∈ used then used else numAdd used (pseudoOf c lane)

theorem mem_withSpare (used : List Nat) (c lane pc : Nat) : pc ∈ withSpare used c lane ↔ pc = pseudoOf c lane ∨ pc ∈ used := by
  unfold withSpare
  split
  · next h => exact ⟨.inr, fun hor => hor.elim (· ▸ h) id⟩
  · exact mem_numAdd used _ pc

section Lanes

variable {s : State} {k c lane : Nat}

/-- A spare that was free is in use, counted, with LANE_REPAIRED. -/
def spareIn (s : State) (k pc : Nat) : State :=
  ((s.updMbd k (fun y => { y with sparesUsed := numAdd y.sparesUsed pc })).bump dev (pMem k) 4 1).raiseDev (pMem k) 3

theorem stackStep_spareIn (s : State) (k pc : Nat) : StackStep k s (spareIn s k pc) :=
  ((StackStep.updMbd ..).trans (.bump ..)).trans (.raiseDev ..)

theorem spareIn_mbd (s : State) (k pc : Nat) : (spareIn s k pc).mbd k = { s.mbd k with sparesUsed := numAdd (s.mbd k).sparesUsed pc } := by
  simp [spareIn]

theorem swapLane_of_used (h : pseudoOf c lane ∈ (s.mbd k).sparesUsed) : s.swapLane k c lane = s := if_pos (List.contains_iff_mem.2 h)

theorem swapLane_of_free (h : pseudoOf c lane ∉ (s.mbd k).sparesUsed) : s.swapLane k c lane =
    if (s.mbd k).sparesUsed.length = 63 then (spareIn s k (pseudoOf c lane)).raiseDev (pMem k) 4 else spareIn s k (pseudoOf c lane) := by
  have hlength : ((spareIn s k (pseudoOf c lane)).mbd k).sparesUsed.length = 64 ↔ (s.mbd k).sparesUsed.length = 63 := by
    rw [spareIn_mbd, length_numAdd h]
    omega
  exact (if_neg (mt List.contains_iff_mem.1 h)).trans (if_congr hlength rfl rfl)

theorem stackStep_spareIn_swapLane (h : pseudoOf c lane ∉ (s.mbd k).sparesUsed) :
    StackStep k (spareIn s k (pseudoOf c lane)) (s.swapLane k c lane) := by
  rw [swapLane_of_free h]
  split
  · exact .raiseDev ..
  · exact .refl ..

theorem stackStep_swapLane (s : State) (k c lane : Nat) : StackStep k s (s.swapLane k c lane) := by
  by_cases h : pseudoOf c lane ∈ (s.mbd k).sparesUsed
  · rw [swapLane_of_used h]
    exact .refl ..
  · exact (stackStep_spareIn ..).trans (stackStep_spareIn_swapLane h)

theorem swapLane_mbd (s : State) (k c lane : Nat) :
    (s.swapLane k c lane).mbd k = { s.mbd k with sparesUsed := withSpare (s.mbd k).sparesUsed c lane } := by
  by_cases h : pseudoOf c lane ∈ (s.mbd k).sparesUsed
  · rw [swapLane_of_used h, withSpare, if_pos h]
  · rw [swapLane_of_free h, withSpare, if_neg h, ← spareIn_mbd]
    split
    · exact raiseDev_mbd ..
    · rfl

theorem swapLane_counter_of_free (h : pseudoOf c lane ∉ (s.mbd k).sparesUsed) {i : Nat} (hi : i < 8) :
    (s.swapLane k c lane).counter dev (pMem k) i = (s.bump dev (pMem k) 4 1).counter dev (pMem k) i := by
  have hspare : (spareIn s k (pseudoOf c lane)).counter dev (pMem k) i = (s.bump dev (pMem k) 4 1).counter dev (pMem k) i :=
    counter_mem_raiseDev _ k _ _ hi
  rw [swapLane_of_free h]
  split
  · exact (counter_mem_raiseDev _ k _ _ hi).trans hspare
  · exact hspare

theorem swapLane_counter_ne (s : State) (k c lane : Nat) {i : Nat} (hi : i < 8) (h4 : i ≠ 4) :
    (s.swapLane k c lane).counter dev (pMem k) i = s.counter dev (pMem k) i := by
  by_cases h : pseudoOf c lane ∈ (s.mbd k).sparesUsed
  · rw [swapLane_of_used h]
  · rw [swapLane_counter_of_free h hi, counter_bump_ne _ _ _ _ h4]

theorem swapLane_repaired (h : pseudoOf c lane ∉ (s.mbd k).sparesUsed) : EventIn (s.swapLane k c lane) (s.devCopies (pMem k) 3) (pMem k) 3 :=
  eventIn_of_stays (stackStep_spareIn_swapLane h).stays
    (((StackStep.updMbd k s _).trans (.bump ..)).raised (pMem k) (by decide))

theorem swapLane_gone (h : pseudoOf c lane ∉ (s.mbd k).sparesUsed) (hlast : (s.mbd k).sparesUsed.length = 63) :
    EventIn (s.swapLane k c lane) (s.devCopies (pMem k) 4) (pMem k) 4 := by
  rw [swapLane_of_free h, if_pos hlast]
  exact (stackStep_spareIn ..).raised (pMem k) (by decide)

/-! ## A channel that fails, and a lane that fails its training (R252, R253) -/

theorem stackStep_channelFails (s : State) (k : Nat) : StackStep k s (s.channelFails k) := (StackStep.updMbd ..).trans (.raiseDev ..)

theorem channelFails_mbd (s : State) (k : Nat) : (s.channelFails k).mbd k = { s.mbd k with failed := true } := by simp [State.channelFails]

theorem channelFails_event (s : State) (k : Nat) : EventIn (s.channelFails k) (s.devCopies (pMem k) 8) (pMem k) 8 :=
  (StackStep.updMbd k s _).raised (pMem k) (by decide)

theorem channelFails_counter (s : State) (k : Nat) {i : Nat} (hi : i < 8) : (s.channelFails k).counter dev (pMem k) i = s.counter dev (pMem k) i :=
  counter_mem_raiseDev _ k _ _ hi

theorem trainFails_of_used (h : pseudoOf c lane ∈ (s.mbd k).sparesUsed) : s.trainFails k c lane = s.channelFails k :=
  if_pos (List.contains_iff_mem.2 h)

theorem trainFails_of_free (h : pseudoOf c lane ∉ (s.mbd k).sparesUsed) : s.trainFails k c lane = s.swapLane k c lane :=
  if_neg (mt List.contains_iff_mem.1 h)

theorem stackStep_trainFails (s : State) (k c lane : Nat) : StackStep k s (s.trainFails k c lane) := by
  by_cases h : pseudoOf c lane ∈ (s.mbd k).sparesUsed
  · rw [trainFails_of_used h]
    exact stackStep_channelFails s k
  · rw [trainFails_of_free h]
    exact stackStep_swapLane s k c lane

theorem trainFails_mbd (s : State) (k c lane : Nat) : (s.trainFails k c lane).mbd k =
    { s.mbd k with sparesUsed := withSpare (s.mbd k).sparesUsed c lane,
                   failed := (s.mbd k).failed || decide (pseudoOf c lane ∈ (s.mbd k).sparesUsed) } := by
  by_cases h : pseudoOf c lane ∈ (s.mbd k).sparesUsed
  · simp [trainFails_of_used h, channelFails_mbd, withSpare, h]
  · simp [trainFails_of_free h, swapLane_mbd, h]

theorem trainFails_event (h : pseudoOf c lane ∈ (s.mbd k).sparesUsed) : EventIn (s.trainFails k c lane) (s.devCopies (pMem k) 8) (pMem k) 8 := by
  rw [trainFails_of_used h]
  exact channelFails_event s k

theorem trainFails_counter_ne (s : State) (k c lane : Nat) {i : Nat} (hi : i < 8) (h4 : i ≠ 4) :
    (s.trainFails k c lane).counter dev (pMem k) i = s.counter dev (pMem k) i := by
  by_cases h : pseudoOf c lane ∈ (s.mbd k).sparesUsed
  · rw [trainFails_of_used h, channelFails_counter s k hi]
  · rw [trainFails_of_free h, swapLane_counter_ne s k c lane hi h4]

end Lanes

/-! ## Emergency retraining (R278, R313) -/

/-- A channel's emergency by its cause: the bits of a lane go over its spare. -/
def swapFor (s : State) (k c : Nat) : RetrainCause → State
  | .eyeMargin => s
  | .laneBits lane => s.swapLane k c lane

/-- The spares in use after that. -/
def sparesFor (used : List Nat) (c : Nat) : RetrainCause → List Nat
  | .eyeMargin => used
  | .laneBits lane => withSpare used c lane

/-- The lane that fails in the retraining, if one does. -/
def trainFor (s : State) (k c : Nat) : Option Nat → State
  | none => s
  | some lane => s.trainFails k c lane

/-- The spares in use after that, and whether the channel has failed. -/
def sparesAfter (used : List Nat) (c : Nat) : Option Nat → List Nat
  | none => used
  | some lane => withSpare used c lane

def failsAfter (used : List Nat) (c : Nat) : Option Nat → Bool
  | none => false
  | some lane => decide (pseudoOf c lane ∈ used)

/-- The plan clock stops for some ns, if any. -/
def stallIf (s : State) (code ns : Nat) : State := if ns = 0 then s else s.deviceStall code ns

section Emergency

variable {s : State} {k c ns : Nat} {cause : RetrainCause} {failedLane : Option Nat}

theorem stackStep_swapFor (s : State) (k c : Nat) : ∀ cause, StackStep k s (swapFor s k c cause)
  | .eyeMargin => .refl ..
  | .laneBits lane => stackStep_swapLane s k c lane

theorem swapFor_mbd (s : State) (k c : Nat) : ∀ cause,
    (swapFor s k c cause).mbd k = { s.mbd k with sparesUsed := sparesFor (s.mbd k).sparesUsed c cause }
  | .eyeMargin => rfl
  | .laneBits lane => swapLane_mbd s k c lane

theorem swapFor_counter (s : State) (k c : Nat) : ∀ cause, (swapFor s k c cause).counter dev (pMem k) 2 = s.counter dev (pMem k) 2
  | .eyeMargin => rfl
  | .laneBits lane => swapLane_counter_ne s k c lane (by decide) (by decide)

theorem stackStep_trainFor (s : State) (k c : Nat) : ∀ failedLane, StackStep k s (trainFor s k c failedLane)
  | none => .refl ..
  | some lane => stackStep_trainFails s k c lane

theorem trainFor_mbd (s : State) (k c : Nat) : ∀ failedLane, (trainFor s k c failedLane).mbd k =
    { s.mbd k with sparesUsed := sparesAfter (s.mbd k).sparesUsed c failedLane,
                   failed := (s.mbd k).failed || failsAfter (s.mbd k).sparesUsed c failedLane }
  | none => by simp [trainFor, sparesAfter, failsAfter]
  | some lane => trainFails_mbd s k c lane

theorem trainFor_counter (s : State) (k c : Nat) : ∀ failedLane, (trainFor s k c failedLane).counter dev (pMem k) 2 = s.counter dev (pMem k) 2
  | none => rfl
  | some lane => trainFails_counter_ne s k c lane (by decide) (by decide)

theorem trainFor_event : failsAfter (s.mbd k).sparesUsed c failedLane = true →
    EventIn (trainFor s k c failedLane) (s.devCopies (pMem k) 8) (pMem k) 8 := by
  cases failedLane with
  | none => nofun
  | some lane => exact fun h => trainFails_event (of_decide_eq_true h)

theorem stallIf_mbds (s : State) (code ns : Nat) : (stallIf s code ns).mbds = s.mbds := by
  unfold stallIf
  split <;> rfl

theorem stallIf_doms (s : State) (code ns : Nat) : (stallIf s code ns).doms = s.doms := by
  unfold stallIf
  split <;> rfl

theorem stallIf_views (s : State) (code ns : Nat) : (stallIf s code ns).views = s.views := by
  unfold stallIf
  split <;> rfl

theorem stallIf_counters (s : State) (code ns : Nat) : (stallIf s code ns).counters = s.counters := by
  unfold stallIf
  split <;> rfl

/-- The plan clock has stopped for d ns more, counted for a cause (R313, R314). -/
def Stalled (s t : State) (code d : Nat) : Prop :=
  t.tik = { s.tik with stallNs := s.tik.stallNs + d, stallBy := t.tik.stallBy } ∧
    mapGet t.tik.stallBy code = some ((mapGet s.tik.stallBy code).getD 0 + d) ∧
    mapGet t.stretch (64 * dev + code) = some ((mapGet s.stretch (64 * dev + code)).getD 0 + w64 d)

theorem stalled_deviceStall (s : State) (code ns : Nat) : Stalled s (s.deviceStall code ns) code ns :=
  ⟨rfl, mapGet_mapSet_self .., mapGet_mapSet_self ..⟩

/-- The state of an emergency outside a window before the stall. -/
def retrained (s : State) (k c : Nat) (cause : RetrainCause) (failedLane : Option Nat) (ns : Nat) : State :=
  ((trainFor (swapFor s k c cause) k c failedLane).updMbd k (fun x => { x with retrained := numAdd x.retrained c })).bump dev (pMem k) 2 ns

theorem stackStep_retrained : StackStep k s (retrained s k c cause failedLane ns) :=
  (((stackStep_swapFor s k c cause).trans (stackStep_trainFor ..)).trans (.updMbd ..)).trans (.bump ..)

theorem retrained_mbd : (retrained s k c cause failedLane ns).mbd k =
    { s.mbd k with retrained := numAdd (s.mbd k).retrained c,
                   sparesUsed := sparesAfter (sparesFor (s.mbd k).sparesUsed c cause) c failedLane,
                   failed := (s.mbd k).failed || failsAfter (sparesFor (s.mbd k).sparesUsed c cause) c failedLane } := by
  simp [retrained, trainFor_mbd, swapFor_mbd]

theorem retrained_counter : (retrained s k c cause failedLane ns).counter dev (pMem k) 2 = s.counter dev (pMem k) 2 + w64 ns := by
  rw [retrained, counter_bump_self, updMbd_counter, trainFor_counter, swapFor_counter]

theorem retrained_failed (h : failsAfter (sparesFor (s.mbd k).sparesUsed c cause) c failedLane = true) :
    EventIn (retrained s k c cause failedLane ns) (s.devCopies (pMem k) 8) (pMem k) 8 := by
  have hevent := trainFor_event (s := swapFor s k c cause) (k := k) (c := c) (failedLane := failedLane) (by rwa [swapFor_mbd])
  rw [(stackStep_swapFor s k c cause).devCopies] at hevent
  exact eventIn_of_stays (((StackStep.updMbd k _ _).trans (.bump ..)).stays) hevent

variable {stack : Fin 8} {channel : Fin 32} {stallNs : Nat} {inWindow : Bool}

theorem exec_emergencyRetrain_first (hw : inWindow = false) (hc : channel.val ∉ (s.mbd stack.val).retrained) :
    exec (.emergencyRetrain stack channel ⟨cause, failedLane⟩ stallNs inWindow) s =
      .next ((stallIf (retrained s stack.val channel.val cause failedLane (min stallNs 2000)) 1 (min stallNs 2000)).raiseDev (pMem stack.val) 2) := by
  refine congrArg Host.Outcome.next ((if_neg (by simp [hw, hc])).trans ?_)
  cases cause <;> cases failedLane <;> rfl

theorem exec_emergencyRetrain_later (h : inWindow = true ∨ channel.val ∈ (s.mbd stack.val).retrained) :
    exec (.emergencyRetrain stack channel ⟨cause, failedLane⟩ stallNs inWindow) s =
      .next (s.updMbd stack.val (fun x => x.enqueue (retrainItem cause channel.val))) :=
  congrArg Host.Outcome.next (if_pos (by simpa using h))

theorem emergencyRetrain_first (hw : inWindow = false) (hc : channel.val ∉ (s.mbd stack.val).retrained) :
    ∃ t, exec (.emergencyRetrain stack channel ⟨cause, failedLane⟩ stallNs inWindow) s = .next t ∧ OnlyMbd s t stack.val ∧
      (stallNs ≠ 0 → Stalled s t 1 (min stallNs 2000)) ∧ (stallNs = 0 → t.tik = s.tik ∧ t.stretch = s.stretch) ∧
      t.mbd stack.val = { s.mbd stack.val with
        retrained := numAdd (s.mbd stack.val).retrained channel.val,
        sparesUsed := sparesAfter (sparesFor (s.mbd stack.val).sparesUsed channel.val cause) channel.val failedLane,
        failed := (s.mbd stack.val).failed || failsAfter (sparesFor (s.mbd stack.val).sparesUsed channel.val cause) channel.val failedLane } ∧
      (failsAfter (sparesFor (s.mbd stack.val).sparesUsed channel.val cause) channel.val failedLane = true →
        EventIn t (s.devCopies (pMem stack.val) 8) (pMem stack.val) 8) ∧
      EventIn t (s.devCopies (pMem stack.val) 2) (pMem stack.val) 2 ∧
      t.counter dev (pMem stack.val) 2 = s.counter dev (pMem stack.val) 2 + w64 (min stallNs 2000) := by
  refine ⟨_, exec_emergencyRetrain_first hw hc, ?_⟩
  have hzero : min stallNs 2000 = 0 ↔ stallNs = 0 := by omega
  generalize min stallNs 2000 = ns at hzero ⊢
  have hstep : StackStep stack.val s (retrained s stack.val channel.val cause failedLane ns) := stackStep_retrained
  have htik := hstep.frame.kept .tik (by decide)
  have hstretch := hstep.frame.kept .stretch (by decide)
  have hmbd (u : State) (j : Nat) : ((stallIf u 1 ns).raiseDev (pMem stack.val) 2).mbd j = u.mbd j :=
    (raiseDev_mbd ..).trans (by rw [State.mbd, stallIf_mbds, State.mbd])
  refine ⟨fun j hj => (hmbd ..).trans (hstep.only j hj), fun h0 => ?_, fun h0 => ?_, (hmbd ..).trans retrained_mbd, fun hf => ?_, ?_, ?_⟩
  · unfold Stalled
    rw [raiseDev_tik, raiseDev_stretch, ← htik, ← hstretch, stallIf, if_neg (mt hzero.1 h0)]
    exact stalled_deviceStall ..
  · rw [raiseDev_tik, raiseDev_stretch, stallIf, if_pos (hzero.2 h0)]
    exact ⟨htik, hstretch⟩
  · exact eventIn_of_stays (eventsStay_trans (eventsStay_views (stallIf_views ..)) (eventsStay_raiseDev _ _ _)) (retrained_failed hf)
  · exact raiseDev_eventIn ((devCopies_of_doms (stallIf_doms ..) ..).trans (hstep.devCopies ..)) (by decide)
  · rw [counter_mem_raiseDev _ _ _ _ (by decide), counter_congr (stallIf_counters ..), retrained_counter]

theorem emergencyRetrain_later (h : inWindow = true ∨ channel.val ∈ (s.mbd stack.val).retrained) :
    ∃ t, exec (.emergencyRetrain stack channel ⟨cause, failedLane⟩ stallNs inWindow) s = .next t ∧ t.tik = s.tik ∧ OnlyMbd s t stack.val ∧
      t.mbd stack.val = if (s.mbd stack.val).queue.contains (retrainItem cause channel.val) then s.mbd stack.val
        else { s.mbd stack.val with queue := (s.mbd stack.val).queue ++ [retrainItem cause channel.val] } :=
  ⟨_, exec_emergencyRetrain_later h, rfl, (StackStep.updMbd ..).only, mbd_updMbd_self ..⟩

end Emergency

/-! ## Changes of several stacks -/

section Folds

variable {α : Type} (key : α → Nat) (f : α → StackState → StackState)

/-- Changes stacks one after another. -/
def eachMbd (s : State) (l : List α) : State := l.foldl (fun t a => t.updMbd (key a) (f a)) s

theorem eachMbd_frame (s : State) (l : List α) : Frame [.mbds] s (eachMbd key f s l) :=
  fr_foldl _ (fun _ a h => fr_updMbd h (key a) (f a) (by decide)) l (fr_refl _ s)

theorem eachMbd_other {j : Nat} (l : List α) (s : State) (h : ∀ a ∈ l, key a ≠ j) : (eachMbd key f s l).mbd j = s.mbd j :=
  List.foldlRecOn (motive := fun t : State => t.mbd j = s.mbd j) l _ rfl fun t ht a ha => by rw [mbd_updMbd, if_neg (h a ha).symm, ht]

theorem eachMbd_self {a : α} {l : List α} (hn : (l.map key).Nodup) (ha : a ∈ l) (s : State) : (eachMbd key f s l).mbd (key a) = f a (s.mbd (key a)) := by
  induction l generalizing s with
  | nil => cases ha
  | cons b r ih =>
    obtain ⟨hb, hr⟩ := List.nodup_cons.1 (List.map_cons ▸ hn)
    rcases List.mem_cons.1 ha with rfl | ha
    · exact (eachMbd_other key f r _ fun c hc hca => hb (List.mem_map.2 ⟨c, hc, hca⟩)).trans (mbd_updMbd_self ..)
    · refine (ih hr ha (s.updMbd (key b) (f b))).trans (congrArg (f a) ?_)
      rw [mbd_updMbd, if_neg fun hab : key a = key b => hb (List.mem_map.2 ⟨a, ha, hab⟩)]

end Folds

/-! ## Refresh pauses (R272, R273) -/

section Refresh

variable {s : State} {nowNs extra : Nat} {temps : List Nat}

/-- What a pause lasts beyond the plan's stops the plan clock, with its counter and event. -/
def overrun (s : State) (extra : Nat) : State :=
  if !s.tik.ticking ∨ extra = 0 then s else ((s.deviceStall 2 extra).bump dev (pMem 0) 3 extra).raiseDev (pMem 0) 1

theorem overrun_of_idle (h : s.tik.ticking = false ∨ extra = 0) : overrun s extra = s := if_pos (by simpa using h)

theorem overrun_of_ticking (ht : s.tik.ticking = true) (h0 : extra ≠ 0) :
    overrun s extra = ((s.deviceStall 2 extra).bump dev (pMem 0) 3 extra).raiseDev (pMem 0) 1 := if_neg (by simp [ht, h0])

theorem overrun_frame (s : State) (extra : Nat) : Frame (withEvents [.tik, .stretch]) s (overrun s extra) := by
  unfold overrun
  split
  · exact fr_refl ..
  · exact fr_raiseDev (fr_bump (fr_deviceStall (fr_refl _ s) 2 extra (by decide)) dev (pMem 0) 3 extra (by decide)) (pMem 0) 1 (by decide)

theorem overrun_timeNs (s : State) (extra : Nat) : (overrun s extra).tik.timeNs = s.tik.timeNs := by
  unfold overrun
  split
  · rfl
  · rw [raiseDev_tik]
    rfl

theorem overrun_stalled (ht : s.tik.ticking = true) (h0 : extra ≠ 0) :
    (overrun s extra).tik.stallNs = s.tik.stallNs + extra ∧
      mapGet (overrun s extra).stretch (64 * dev + 2) = some ((mapGet s.stretch (64 * dev + 2)).getD 0 + w64 extra) ∧
      (overrun s extra).counter dev (pMem 0) 3 = s.counter dev (pMem 0) 3 + w64 extra ∧
      EventIn (overrun s extra) (s.devCopies (pMem 0) 1) (pMem 0) 1 := by
  obtain ⟨hclock, -, hcause⟩ := stalled_deviceStall s 2 extra
  rw [overrun_of_ticking ht h0, raiseDev_tik, raiseDev_stretch, counter_mem_raiseDev _ _ _ _ (by decide), counter_bump_self]
  refine ⟨congrArg TikState.stallNs hclock, hcause, rfl, raiseDev_eventIn (devCopies_of_doms (s := s) rfl ..) (by decide)⟩

/-- Each stack takes its reading. -/
def readTemps (s : State) (temps : List Nat) : State := eachMbd Prod.snd (fun p x => { x with tempC := min 255 p.1 }) s (temps.take 8).zipIdx

/-- The hottest reading. -/
def hottest (s : State) : Nat := ((List.range 8).map (fun k => (s.mbd k).tempC)).foldl max 0

/-- How far a pause of the mode in force outlasts the one that the plan counts with. -/
def pauseOver (m : MemGlobal) : Nat := pauseNs m.refMode - pauseNs m.tickMode

/-- The state at a refresh pause once the stacks have been read. -/
def pauseRead (s : State) (nowNs : Nat) (temps : List Nat) : State := readTemps (overrun (s.atTime nowNs) (pauseOver s.memg)) temps

theorem exec_refreshPause (s : State) (nowNs : Nat) (temps : List Nat) : exec (.refreshPause nowNs temps) s =
    .next (((pauseRead s nowNs temps).updMemg (fun m => m.takeHot (hottest (pauseRead s nowNs temps)))).updPwr
      (fun p => { p with tickTHot := max p.tickTHot (hottest (pauseRead s nowNs temps)) })) := rfl

theorem pauseRead_frame (s : State) (nowNs : Nat) (temps : List Nat) :
    Frame [.mbds] (overrun (s.atTime nowNs) (pauseOver s.memg)) (pauseRead s nowNs temps) := eachMbd_frame ..

theorem readTemps_tempC (h8 : temps.length = 8) (hb : ∀ v ∈ temps, v < 256) {j : Nat} (hj : j < 8) : ((readTemps s temps).mbd j).tempC = temps.getD j 0 := by
  have hlt : j < temps.length := h8 ▸ hj
  have hmem : (temps[j], j) ∈ (temps.take 8).zipIdx := by
    rw [List.take_of_length_le h8.le, List.mem_zipIdx_iff_getElem?]
    exact List.getElem?_eq_getElem hlt
  have hnodup : ((temps.take 8).zipIdx.map Prod.snd).Nodup := by
    rw [List.zipIdx_map_snd]
    exact List.nodup_range'
  have hread := eachMbd_self Prod.snd (fun p x => { x with tempC := min 255 p.1 }) hnodup hmem s
  have hv := hb _ (List.getElem_mem hlt)
  rw [readTemps, hread, List.getD_eq_getElem _ _ hlt]
  exact min_eq_right (by omega)

theorem hottest_readTemps (h8 : temps.length = 8) (hb : ∀ v ∈ temps, v < 256) : hottest (readTemps s temps) = temps.foldl max 0 := by
  refine congrArg (List.foldl max 0) (List.ext_getElem (by simp [h8]) fun j hj _ => ?_)
  have hj8 : j < 8 := by simpa using hj
  rw [List.getElem_map, List.getElem_range, readTemps_tempC h8 hb hj8, List.getD_eq_getElem]

/-- The largest number of a list that is not empty. -/
theorem foldl_max_spec {l : List Nat} (h : l ≠ []) : l.foldl max 0 ∈ l ∧ ∀ v ∈ l, v ≤ l.foldl max 0 := by
  obtain ⟨v, r, rfl⟩ := List.exists_cons_of_ne_nil h
  rw [List.foldl_cons, Nat.zero_max]
  exact List.max?_eq_some_iff.1 List.max?_cons'

theorem refreshPause_leaves (nowNs : Nat) (h8 : temps.length = 8) (hb : ∀ v ∈ temps, v < 256) :
    ∃ t, exec (.refreshPause nowNs temps) s = .next t ∧ (∀ j, j < 8 → (t.mbd j).tempC = temps.getD j 0) ∧
      (∀ v ∈ temps, v ≤ t.memg.tHot) ∧ t.memg.tHot ∈ temps ∧ t.tik.timeNs = max nowNs s.tik.timeNs ∧
      t.memg.refMode = (if s.memg.risen then s.memg.refMode else if 95 < t.memg.tHot then 2 else if 85 < t.memg.tHot then max 1 s.memg.refMode else s.memg.refMode) ∧
      t.pwr.tickTHot = max s.pwr.tickTHot t.memg.tHot ∧
      (s.tik.ticking = true → pauseOver s.memg ≠ 0 → t.tik.stallNs = s.tik.stallNs + pauseOver s.memg ∧
        mapGet t.stretch (64 * dev + 2) = some ((mapGet s.stretch (64 * dev + 2)).getD 0 + w64 (pauseOver s.memg)) ∧
        t.counter dev (pMem 0) 3 = s.counter dev (pMem 0) 3 + w64 (pauseOver s.memg) ∧ EventIn t (s.devCopies (pMem 0) 1) (pMem 0) 1) ∧
      (s.tik.ticking = false ∨ pauseOver s.memg = 0 → t.tik.stallNs = s.tik.stallNs ∧ t.stretch = s.stretch) := by
  obtain ⟨hmem, hle⟩ := foldl_max_spec (l := temps) (by rintro rfl; simp at h8)
  have hhot : hottest (pauseRead s nowNs temps) = temps.foldl max 0 := hottest_readTemps h8 hb
  have hover := overrun_frame (s.atTime nowNs) (pauseOver s.memg)
  have hread := pauseRead_frame s nowNs temps
  have hmemg : (pauseRead s nowNs temps).memg = s.memg := (hread.kept .memg (by decide)).trans (hover.kept .memg (by decide))
  have hpwr : (pauseRead s nowNs temps).pwr = s.pwr := (hread.kept .pwr (by decide)).trans (hover.kept .pwr (by decide))
  have htik := hread.kept .tik (by decide)
  have hstretch := hread.kept .stretch (by decide)
  have hcounters := hread.kept .counters (by decide)
  have hviews := hread.kept .views (by decide)
  refine ⟨_, exec_refreshPause s nowNs temps, fun j hj => readTemps_tempC h8 hb hj, ?_⟩
  rw [hhot]
  simp only [updPwr_memg, updPwr_tik, updPwr_pwr, updPwr_stretch, updMemg_memg, updMemg_tik, updMemg_pwr, updMemg_stretch, hmemg, hpwr]
  refine ⟨hle, hmem, ?_, ?_, rfl, fun ht h0 => ?_, fun h => ?_⟩
  · rw [htik, overrun_timeNs]
    rfl
  · simp only [MemGlobal.takeHot, hotMode, max_comm 1]
  · obtain ⟨hclock, hcause, hcount, hevent⟩ := overrun_stalled (s := s.atTime nowNs) ht h0
    rw [htik, hstretch]
    exact ⟨hclock, hcause, (counter_congr hcounters ..).trans hcount, eventIn_of_stays (eventsStay_views hviews) hevent⟩
  · rw [htik, hstretch, overrun_of_idle (s := s.atTime nowNs) h]
    exact ⟨rfl, rfl⟩

end Refresh

/-! ## The statement -/

/-- Settles O37: an emergency by whether it is the channel's first of the tick outside a window, a refresh pause by what the stacks read. -/
theorem emergencyAndRefresh : Obligations.EmergencyAndRefresh := by
  unfold Obligations.EmergencyAndRefresh
  intro s stack channel cause failedLane stallNs nowNs inWindow temps k c x ns spare took used after fails item stalled
  refine ⟨fun hw hc => ?_, fun h => ?_, fun h8 hb => refreshPause_leaves nowNs h8 hb⟩
  · have hfirst := emergencyRetrain_first (cause := cause) (failedLane := failedLane) (stallNs := stallNs) hw hc
    cases cause <;> cases failedLane <;> exact hfirst
  · have hlater := emergencyRetrain_later (cause := cause) (failedLane := failedLane) (stallNs := stallNs) h
    cases cause <;> exact hlater

end Sys2Proof.Proofs

/-! Maintenance windows (R252, R253, R275 to R277, R279): how a memory base die fills a window from its queue, and what each item leaves by how it ended. From them the statement on maintenance windows. -/

namespace Sys2Proof.Proofs

open Sys2Proof.Machine Sys2Proof.Safety Sys2Proof.Laws

/-! ## The item that starts next (R276) -/

/-- The first item of the highest priority, so far. -/
def pickFirst (m : Option MaintItem) (i : MaintItem) : Option MaintItem :=
  match m with
  | none => some i
  | some b => if MaintItem.priority i < MaintItem.priority b then some i else some b

theorem foldl_pickFirst (l : List MaintItem) (a : MaintItem) :
    ∃ b, l.foldl pickFirst (some a) = some b ∧ b ∈ a :: l ∧ ∀ i ∈ a :: l, MaintItem.priority b ≤ MaintItem.priority i := by
  induction l generalizing a with
  | nil => exact ⟨a, rfl, .head _, List.forall_mem_singleton.2 le_rfl⟩
  | cons i r ih =>
    by_cases h : MaintItem.priority i < MaintItem.priority a
    · obtain ⟨b, hb, hmem, hle⟩ := ih i
      exact ⟨b, (congrArg (r.foldl pickFirst) (if_pos h)).trans hb, .tail _ hmem, List.forall_mem_cons.2 ⟨(hle i (.head _)).trans h.le, hle⟩⟩
    · obtain ⟨b, hb, hmem, hle⟩ := ih a
      obtain ⟨ha, hr⟩ := List.forall_mem_cons.1 hle
      refine ⟨b, (congrArg (r.foldl pickFirst) (if_neg h)).trans hb, ?_, List.forall_mem_cons.2 ⟨ha, List.forall_mem_cons.2 ⟨ha.trans (Nat.not_lt.1 h), hr⟩⟩⟩
      exact (List.mem_cons.1 hmem).elim (· ▸ .head _) (.tail _ ∘ .tail _)

/-- Nothing runs on the channel of an item, and it ends within the window. -/
def canStart (x : StackState) (at_ len : Nat) (i : MaintItem) : Bool :=
  decide (at_ + itemNs i ≤ len) && !x.running.any (fun r => MaintItem.channel r.2 == MaintItem.channel i)

section Fill

variable {x : StackState} {at_ len : Nat} {i : MaintItem}

theorem canStart_iff : canStart x at_ len i = true ↔ at_ + itemNs i ≤ len ∧ ∀ r ∈ x.running, MaintItem.channel r.2 ≠ MaintItem.channel i := by
  simp [canStart]

/-- An item that ends within the window and may not start waits for what runs on its channel. -/
theorem channel_taken (hfits : at_ + itemNs i ≤ len) (h : canStart x at_ len i ≠ true) :
    ∃ r ∈ x.running, MaintItem.channel r.2 = MaintItem.channel i := by
  simpa using fun hfree => h (canStart_iff.2 ⟨hfits, hfree⟩)

theorem nextItem_eq (x : StackState) (at_ len : Nat) : x.nextItem at_ len = (x.queue.filter (canStart x at_ len)).foldl pickFirst none := rfl

theorem canStart_of_nextItem_none (h : x.nextItem at_ len = none) (hi : i ∈ x.queue) : canStart x at_ len i ≠ true := by
  rw [nextItem_eq] at h
  cases hl : x.queue.filter (canStart x at_ len) with
  | nil => exact List.filter_eq_nil_iff.1 hl i hi
  | cons a r =>
    obtain ⟨b, hb, -⟩ := foldl_pickFirst r a
    rw [hl] at h
    cases h.symm.trans hb

theorem nextItem_some (h : x.nextItem at_ len = some i) :
    i ∈ x.queue ∧ canStart x at_ len i = true ∧ ∀ j ∈ x.queue, canStart x at_ len j = true → MaintItem.priority i ≤ MaintItem.priority j := by
  rw [nextItem_eq] at h
  cases hl : x.queue.filter (canStart x at_ len) with
  | nil =>
    rw [hl] at h
    cases h
  | cons a r =>
    obtain ⟨b, hb, hmem, hle⟩ := foldl_pickFirst r a
    rw [hl] at h
    obtain rfl := Option.some.inj (hb.symm.trans h)
    rw [← hl] at hmem hle
    exact ⟨List.mem_of_mem_filter hmem, List.of_mem_filter hmem, fun j hj hjs => hle j (List.mem_filter.2 ⟨hj, hjs⟩)⟩

/-! ## Items that start (R276) -/

/-- The stack once an item has started. -/
def withStarted (x : StackState) (at_ : Nat) (i : MaintItem) : StackState :=
  { x with queue := x.queue.erase i, running := x.running ++ [(at_ + itemNs i, i)] }

theorem withStarted_length (x : StackState) (at_ : Nat) (i : MaintItem) : (withStarted x at_ i).running.length = x.running.length + 1 :=
  List.length_append

/-- Nothing starts: eight items run, or no item that waits may start. -/
theorem started_refl (h : 8 ≤ x.running.length ∨ ∀ i ∈ x.queue, canStart x at_ len i ≠ true) : Started x x at_ len := by
  refine ⟨[], by simp, by simp, nofun, id, Nat.le_max_right .., fun i hi hfits => ?_⟩
  rcases h with h8 | hnone
  · exact .inr (.inr ⟨h8, nofun⟩)
  · exact .inl (channel_taken hfits (hnone i hi))

/-- The first item of the highest priority starts, and then others. -/
theorem started_start {y : StackState} (h8 : x.running.length < 8) (hnext : x.nextItem at_ len = some i)
    (h : Started (withStarted x at_ i) y at_ len) : Started x y at_ len := by
  obtain ⟨hi, hstarts, hfirst⟩ := nextItem_some hnext
  obtain ⟨hfits, hfree⟩ := canStart_iff.1 hstarts
  obtain ⟨new, hy, hperm, hnew, hnodup, hlength, hwaits⟩ := h
  have hqueue : x.queue.Perm (i :: (new.map Prod.snd ++ y.queue)) := (List.perm_cons_erase hi).trans (hperm.cons i)
  refine ⟨(at_ + itemNs i, i) :: new, ?_, hqueue, List.forall_mem_cons.2 ⟨⟨rfl, hfits⟩, hnew⟩, fun hn => hnodup ?_, ?_, fun j hj hjfits => ?_⟩
  · rw [hy]
    simp [withStarted]
  · simp only [withStarted, List.map_append, List.map_cons, List.map_nil]
    refine List.nodup_append.2 ⟨hn, List.nodup_singleton _, fun a ha b hb => ?_⟩
    obtain ⟨r, hr, rfl⟩ := List.mem_map.1 ha
    exact List.mem_singleton.1 hb ▸ hfree r hr
  · rw [withStarted_length] at hlength
    omega
  · have hjq : j ∈ x.queue := hqueue.mem_iff.2 (.tail _ (List.mem_append_right _ hj))
    by_cases hjs : canStart x at_ len j = true
    case neg => exact .inl (channel_taken hjfits hjs)
    have hij := hfirst j hjq hjs
    rcases hwaits j hj hjfits with ⟨r, hr, hrj⟩ | ⟨r, hr, hrj⟩ | ⟨hy8, hall⟩
    · rcases List.mem_append.1 hr with hr | hr
      · exact .inl ⟨r, hr, hrj⟩
      · obtain rfl := List.mem_singleton.1 hr
        exact .inr (.inl ⟨_, .head _, hrj, hij⟩)
    · exact .inr (.inl ⟨r, .tail _ hr, hrj⟩)
    · exact .inr (.inr ⟨hy8, List.forall_mem_cons.2 ⟨hij, hall⟩⟩)

theorem fill_started (n : Nat) (hn : 8 ≤ x.running.length + n) : Started x (x.fill at_ len n) at_ len := by
  induction n generalizing x with
  | zero => exact started_refl (.inl hn)
  | succ n ih =>
    rw [StackState.fill]
    split
    · next h8 => exact started_refl (.inl h8)
    · next h8 =>
      split
      · next hnone => exact started_refl (.inr fun i => canStart_of_nextItem_none hnone)
      · next i hnext =>
        refine started_start (Nat.not_le.1 h8) hnext (ih ?_)
        rw [withStarted_length]
        omega

end Fill

/-- A stack takes up its queue at an offset of the window. -/
def filled (s : State) (k at_ len : Nat) : State := s.updMbd k (fun y => y.fill at_ len 8)

section Filled

variable (s : State) (k at_ len : Nat)

theorem stackStep_filled : StackStep k s (filled s k at_ len) := .updMbd ..

theorem filled_started : Started (s.mbd k) ((filled s k at_ len).mbd k) at_ len := by
  rw [filled, mbd_updMbd_self]
  exact fill_started 8 (Nat.le_add_left ..)

/-- Nothing of the stack changes but what waits and what runs. -/
theorem filled_mbd : (filled s k at_ len).mbd k =
    { s.mbd k with queue := ((filled s k at_ len).mbd k).queue, running := ((filled s k at_ len).mbd k).running } := by
  obtain ⟨new, hy, -⟩ := filled_started s k at_ len
  rw [hy]

theorem filled_sparesUsed : ((filled s k at_ len).mbd k).sparesUsed = (s.mbd k).sparesUsed := (congrArg StackState.sparesUsed (filled_mbd s k at_ len) :)
theorem filled_retired : ((filled s k at_ len).mbd k).retired = (s.mbd k).retired := (congrArg StackState.retired (filled_mbd s k at_ len) :)
theorem filled_corrected : ((filled s k at_ len).mbd k).corrected = (s.mbd k).corrected := (congrArg StackState.corrected (filled_mbd s k at_ len) :)
theorem filled_failed : ((filled s k at_ len).mbd k).failed = (s.mbd k).failed := (congrArg StackState.failed (filled_mbd s k at_ len) :)
theorem filled_patrolled : ((filled s k at_ len).mbd k).patrolled = (s.mbd k).patrolled := (congrArg StackState.patrolled (filled_mbd s k at_ len) :)

theorem filled_event {l : List Nat} {p b : Nat} (h : EventIn s l p b) : EventIn (filled s k at_ len) l p b :=
  eventIn_of_stays (stackStep_filled s k at_ len).stays h

end Filled

/-! ## A window begins (R275, R276, R352) -/

section WindowStart

variable {s : State}

theorem badgerWindow_mbd (s : State) (j : Nat) : s.badgerWindow.mbd j = s.mbd j := by
  unfold State.badgerWindow
  split <;> rfl

theorem badgerWindow_bdg (s : State) : s.badgerWindow.bdg =
    if s.bdg.dueFrom.isSome = true ∧ 20 ≤ s.windowUs s.tik.tick then { s.bdg with measuring := true, dueFrom := none, requested := false }
    else s.bdg := by
  unfold State.badgerWindow
  split <;> rfl

/-- A stack as a window of len ns begins: what it has to do waits, and its queue is taken up. -/
def windowStack (timeNs len : Nat) (x : StackState) : StackState := StackState.fill { x with queue := x.windowQueue timeNs len, running := [] } 0 len 8

/-- The eight stacks as a window of len ns begins. -/
def windowStacks (s : State) (len : Nat) : State := eachMbd id (fun _ => windowStack s.tik.timeNs len) s (List.range 8)

theorem windowStacks_mbd {j : Nat} (hj : j < 8) (len : Nat) : (windowStacks s len).mbd j = windowStack s.tik.timeNs len (s.mbd j) :=
  eachMbd_self id (fun _ => windowStack s.tik.timeNs len) (by simp [List.nodup_range]) (List.mem_range.2 hj) s

theorem windowUs_congr {t : State} (h : t.memg = s.memg) (tick : Nat) : t.windowUs tick = s.windowUs tick := by
  rw [State.windowUs, h, State.windowUs]

theorem exec_maintWindowStart (h : s.windowOpen = true) :
    exec .maintWindowStart s = .next (windowStacks s (1000 * s.windowUs s.tik.tick)).badgerWindow := congrArg Host.Outcome.next (if_pos h)

theorem maintWindowStart_leaves (h : s.windowOpen = true) :
    ∃ t, exec .maintWindowStart s = .next t ∧ (∀ j, 8 ≤ j → t.mbd j = s.mbd j) ∧
      t.bdg = (if s.bdg.dueFrom.isSome = true ∧ 20 ≤ s.windowUs s.tik.tick
        then { s.bdg with measuring := true, dueFrom := none, requested := false } else s.bdg) ∧
      ∀ j, j < 8 → Started { s.mbd j with queue := (s.mbd j).windowQueue s.tik.timeNs (1000 * s.windowUs s.tik.tick), running := [] } (t.mbd j) 0
        (1000 * s.windowUs s.tik.tick) := by
  refine ⟨_, exec_maintWindowStart h, fun j hj => ?_, ?_, fun j hj => ?_⟩
  · rw [badgerWindow_mbd]
    exact eachMbd_other _ _ _ _ fun a ha => (lt_of_lt_of_le (List.mem_range.1 ha) hj).ne
  · have hframe : Frame [.mbds] s (windowStacks s (1000 * s.windowUs s.tik.tick)) := eachMbd_frame ..
    rw [badgerWindow_bdg, windowUs_congr (hframe.kept .memg (by decide)), hframe.kept .bdg (by decide), hframe.kept .tik (by decide)]
  · rw [badgerWindow_mbd, windowStacks_mbd hj]
    exact fill_started 8 (Nat.le_add_left ..)

end WindowStart

/-! ## What an item leaves (R252, R253, R276, R279) -/

/-- From s to t one stack alone has changed, beside events, and nothing of what waits and runs on it. -/
structure WorkKept (k : Nat) (s t : State) : Prop where
  step : StackStep k s t
  running : (t.mbd k).running = (s.mbd k).running
  queue : (t.mbd k).queue = (s.mbd k).queue

section ItemEnds

variable {s : State} {k c lane : Nat} {item : MaintItem} {frames : List Nat}

theorem workKept_refl (k : Nat) (s : State) : WorkKept k s s := ⟨.refl .., rfl, rfl⟩

theorem WorkKept.trans {t u : State} (a : WorkKept k s t) (b : WorkKept k t u) : WorkKept k s u :=
  ⟨a.step.trans b.step, b.running.trans a.running, b.queue.trans a.queue⟩

theorem StackStep.workKept {t : State} {y : StackState} (h : StackStep k s t) (hy : t.mbd k = y) (hrunning : y.running = (s.mbd k).running)
    (hqueue : y.queue = (s.mbd k).queue) : WorkKept k s t := by
  subst hy
  exact ⟨h, hrunning, hqueue⟩

theorem workKept_swapLane (s : State) (k c lane : Nat) : WorkKept k s (s.swapLane k c lane) :=
  (stackStep_swapLane ..).workKept (swapLane_mbd ..) rfl rfl

theorem workKept_trainFails (s : State) (k c lane : Nat) : WorkKept k s (s.trainFails k c lane) :=
  (stackStep_trainFails ..).workKept (trainFails_mbd ..) rfl rfl

/-- A change of one stack and a counter that leaves its work alone. -/
theorem workKept_counted (s : State) (k i n : Nat) {f : StackState → StackState} (hrunning : (f (s.mbd k)).running = (s.mbd k).running)
    (hqueue : (f (s.mbd k)).queue = (s.mbd k).queue) : WorkKept k s ((s.updMbd k f).bump dev (pMem k) i n) :=
  ((StackStep.updMbd ..).trans (.bump ..)).workKept (mbd_updMbd_self ..) hrunning hqueue

theorem workKept_itemDone (s : State) (k : Nat) : ∀ item, WorkKept k s (s.itemDone k item)
  | .laneRepair c l => workKept_swapLane s k c l
  | .hardRepair _ _ => workKept_counted _ _ _ _ rfl rfl
  | .softRepair _ _ => workKept_counted _ _ _ _ rfl rfl
  | .retrain _ => workKept_refl k s
  | .rewrite _ _ => workKept_refl k s
  | .patrol _ _ => workKept_counted _ _ _ _ rfl rfl

theorem workKept_itemSwap (s : State) (k : Nat) : ∀ item, WorkKept k s (s.itemSwap k item)
  | .laneRepair c l => workKept_swapLane s k c l
  | .hardRepair _ _ => workKept_refl k s
  | .softRepair _ _ => workKept_refl k s
  | .retrain _ => workKept_refl k s
  | .rewrite _ _ => workKept_refl k s
  | .patrol _ _ => workKept_refl k s

/-- Frames newly retired, newest first. -/
def withRetired (retired frames : List Nat) : List Nat := frames.foldl (fun l f => if l.contains f then l else f :: l) retired

theorem mem_withRetired (frames retired : List Nat) (f : Nat) : f ∈ withRetired retired frames ↔ f ∈ retired ∨ f ∈ frames := by
  induction frames generalizing retired with
  | nil => simp [withRetired]
  | cons g r ih =>
    refine (ih _).trans ?_
    beta_reduce
    split
    · next h =>
      have hg : f = g → f ∈ retired := fun e => e ▸ List.contains_iff_mem.1 h
      rw [List.mem_cons]
      tauto
    · rw [List.mem_cons, List.mem_cons, or_assoc, or_left_comm]

theorem retireFrames_eq (h : frames ≠ []) : s.retireFrames k frames =
    (s.updMbd k (fun x => { x with retired := withRetired x.retired frames })).raiseDev (pMem k) 5 := if_neg (by simpa using h)

theorem retireFrames_mbd (h : frames ≠ []) : (s.retireFrames k frames).mbd k = { s.mbd k with retired := withRetired (s.mbd k).retired frames } := by
  rw [retireFrames_eq h, raiseDev_mbd, mbd_updMbd_self]

theorem retireFrames_event (h : frames ≠ []) : EventIn (s.retireFrames k frames) (s.devCopies (pMem k) 5) (pMem k) 5 := by
  rw [retireFrames_eq h]
  exact (StackStep.updMbd ..).raised (pMem k) (by decide)

theorem workKept_retireFrames (h : frames ≠ []) : WorkKept k s (s.retireFrames k frames) :=
  StackStep.workKept (by rw [retireFrames_eq h]; exact (StackStep.updMbd ..).trans (.raiseDev ..)) (retireFrames_mbd h) rfl rfl

/-- The spares in use once a lane repair has swapped its own in. -/
theorem mem_itemSwap_spares (pc : Nat) : pc ∈ ((s.itemSwap k item).mbd k).sparesUsed ↔
    pc ∈ (s.mbd k).sparesUsed ∨ ∃ c l, item = .laneRepair c l ∧ pseudoOf (MaintItem.channel item) l = pc := by
  cases item with
  | laneRepair c l =>
    have hrepair : (∃ c' l', MaintItem.laneRepair c l = .laneRepair c' l' ∧ pseudoOf c l' = pc) ↔ pc = pseudoOf c l := by
      simp [eq_comm]
    rw [State.itemSwap, swapLane_mbd, mem_withSpare, or_comm]
    exact or_congr_right hrepair.symm
  | _ => simp [State.itemSwap]

theorem itemSwap_failed (s : State) (k : Nat) : ∀ item, ((s.itemSwap k item).mbd k).failed = (s.mbd k).failed
  | .laneRepair c l => (congrArg StackState.failed (swapLane_mbd s k c l) :)
  | .hardRepair _ _ => rfl
  | .softRepair _ _ => rfl
  | .retrain _ => rfl
  | .rewrite _ _ => rfl
  | .patrol _ _ => rfl

end ItemEnds

/-! ## An item ends (R276) -/

/-- From u to t stack k alone has changed, and the next items have started on what waited and ran on it. -/
def Ends (u t : State) (k at_ len : Nat) : Prop :=
  OnlyMbd u t k ∧ ∃ y, Started y (t.mbd k) at_ len ∧ y.running = (u.mbd k).running ∧ y.queue = (u.mbd k).queue

section Ended

variable {u : State} {k lane : Nat} {item : MaintItem} {frames : List Nat} (at_ len : Nat)

theorem WorkKept.ends {v : State} (h : WorkKept k u v) : Ends u (filled v k at_ len) k at_ len :=
  ⟨(h.step.trans (stackStep_filled ..)).only, v.mbd k, filled_started .., h.running, h.queue⟩

/-- What a lane repair leaves of the spares, their counter and events. -/
def LaneDone (u t : State) (k spare : Nat) : Prop :=
  (spare ∈ (u.mbd k).sparesUsed → (t.mbd k).sparesUsed = (u.mbd k).sparesUsed) ∧
    (spare ∉ (u.mbd k).sparesUsed → (t.mbd k).sparesUsed = numAdd (u.mbd k).sparesUsed spare ∧
      EventIn t (u.devCopies (pMem k) 3) (pMem k) 3 ∧ t.counter dev (pMem k) 4 = u.counter dev (pMem k) 4 + 1 ∧
      ((u.mbd k).sparesUsed.length = 63 → EventIn t (u.devCopies (pMem k) 4) (pMem k) 4))

theorem laneRepair_done (u : State) (k c lane : Nat) : LaneDone u (filled (u.swapLane k c lane) k at_ len) k (pseudoOf c lane) := by
  unfold LaneDone
  rw [filled_sparesUsed, swapLane_mbd, withSpare]
  refine ⟨fun h => if_pos h, fun h => ⟨if_neg h, filled_event _ _ _ _ (swapLane_repaired h), ?_, fun hlast => filled_event _ _ _ _ (swapLane_gone h hlast)⟩⟩
  exact (swapLane_counter_of_free h (by decide)).trans (counter_bump_self ..)

/-- What the repair of a row leaves of its corrected errors and its counter. -/
def RowDone (u t : State) (k c row : Nat) : Prop :=
  (t.mbd k).corrected = (u.mbd k).corrected.filter (fun e => e.1 != 1048576 * c + row) ∧
    t.counter dev (pMem k) 5 = u.counter dev (pMem k) 5 + 1

theorem rowRepair_done (u : State) (k c row : Nat) : RowDone u (filled ((u.updMbd k (fun x =>
    { x with corrected := x.corrected.filter (fun e => e.1 != 1048576 * c + row) })).bump dev (pMem k) 5 1) k at_ len) k c row := by
  unfold RowDone
  rw [filled_corrected, bump_mbd, mbd_updMbd_self]
  exact ⟨rfl, counter_bump_self ..⟩

theorem patrol_done (u : State) (k c n : Nat) :
    (filled (u.itemDone k (.patrol c n)) k at_ len).counter dev (pMem k) 7 = u.counter dev (pMem k) 7 + w64 (1024 * n) ∧
      ((filled (u.itemDone k (.patrol c n)) k at_ len).mbd k).patrolled =
        mapSet (u.mbd k).patrolled c ((mapGet (u.mbd k).patrolled c).getD 0 + n) := by
  rw [filled_patrolled, State.itemDone, bump_mbd, mbd_updMbd_self]
  exact ⟨counter_bump_self .., rfl⟩

theorem retireFrames_ended (h : frames ≠ []) :
    (∀ f, f ∈ ((filled (u.retireFrames k frames) k at_ len).mbd k).retired ↔ f ∈ (u.mbd k).retired ∨ f ∈ frames) ∧
      EventIn (filled (u.retireFrames k frames) k at_ len) (u.devCopies (pMem k) 5) (pMem k) 5 := by
  rw [filled_retired, retireFrames_mbd h]
  exact ⟨mem_withRetired _ _, filled_event _ _ _ _ (retireFrames_event h)⟩

/-- The spare of a lane's pseudo-channel is in use once the item has swapped its own in. -/
def SpareTaken (u : State) (k : Nat) (item : MaintItem) (lane : Nat) : Prop :=
  pseudoOf (MaintItem.channel item) lane ∈ (u.mbd k).sparesUsed ∨
    ∃ c l, item = .laneRepair c l ∧ pseudoOf (MaintItem.channel item) l = pseudoOf (MaintItem.channel item) lane

theorem trainingFailed_taken (h : SpareTaken u k item lane) :
    ((filled (u.itemEnds k item (.trainingFailed lane)) k at_ len).mbd k).failed = true ∧
      EventIn (filled (u.itemEnds k item (.trainingFailed lane)) k at_ len) (u.devCopies (pMem k) 8) (pMem k) 8 := by
  have hused := (mem_itemSwap_spares _).2 h
  rw [filled_failed, State.itemEnds, trainFails_mbd, ← (workKept_itemSwap u k item).step.devCopies]
  exact ⟨by simp [hused], filled_event _ _ _ _ (trainFails_event hused)⟩

theorem trainingFailed_free (h : ¬ SpareTaken u k item lane) :
    ((filled (u.itemEnds k item (.trainingFailed lane)) k at_ len).mbd k).failed = (u.mbd k).failed ∧
      pseudoOf (MaintItem.channel item) lane ∈ ((filled (u.itemEnds k item (.trainingFailed lane)) k at_ len).mbd k).sparesUsed := by
  have hfree := mt (mem_itemSwap_spares _).1 h
  rw [filled_failed, filled_sparesUsed, State.itemEnds, trainFails_mbd, itemSwap_failed]
  exact ⟨by simp [hfree], (mem_withSpare ..).2 (.inl rfl)⟩

end Ended

section Commands

variable {s : State} {stack : Fin 8} {item : MaintItem} {outcome : MaintOutcome} {errors : List (Fin 64 × ReadError)} {r : Nat × MaintItem}

/-- The state once the item that ends no longer runs and the blocks that it read are decoded. -/
def readsMet (s : State) (k : Nat) (r : Nat × MaintItem) (errors : List (Fin 64 × ReadError)) : State :=
  errors.foldl (fun t e => (t.meetError e.1.val e.2).1) (s.updMbd k (fun y => { y with running := y.running.erase r }))

theorem exec_maintItemEnd (hw : s.windowOpen = true) (hr : (s.mbd stack.val).running.find? (fun r => r.2 == item) = some r) :
    exec (.maintItemEnd stack item ⟨outcome, errors⟩) s =
      .next (filled ((readsMet s stack.val r errors).itemEnds stack.val item outcome) stack.val r.1 (1000 * s.windowUs s.tik.tick)) := by
  refine congrArg Host.Outcome.next ((if_neg (by simp [hw])).trans ?_)
  rw [hr]
  rfl

theorem exec_maintItemEnd_idle (h : s.windowOpen = false ∨ (s.mbd stack.val).running.find? (fun r => r.2 == item) = none) :
    exec (.maintItemEnd stack item ⟨outcome, errors⟩) s = .next s := by
  refine congrArg Host.Outcome.next ?_
  split
  · rfl
  · next hw =>
    rw [h.resolve_left (by simpa using hw)]

theorem routineRetrainDue_leaves (s : State) (stack : Fin 8) (channel : Fin 32) :
    ∃ t, exec (.routineRetrainDue stack channel) s = .next t ∧ OnlyMbd s t stack.val ∧
      t.mbd stack.val = if (s.mbd stack.val).queue.contains (.retrain channel) then s.mbd stack.val
        else { s.mbd stack.val with queue := (s.mbd stack.val).queue ++ [.retrain channel] } :=
  ⟨_, rfl, (StackStep.updMbd ..).only, mbd_updMbd_self ..⟩

theorem maintStarved_leaves (s : State) (stack : Fin 8) :
    ∃ t, exec (.maintStarved stack) s = .next t ∧ t.mbds = s.mbds ∧ EventIn t (s.devCopies (pMem stack.val) 6) (pMem stack.val) 6 :=
  ⟨_, rfl, raiseDev_mbds .., raiseDev_event s (pMem stack.val) 6 (by decide)⟩

end Commands

/-! ## The statement -/

/-- Settles O36: the window by how each stack takes up its queue, an item by how it ended and what it was, the rest by the lemma of each. -/
theorem maintenanceWindows : Obligations.MaintenanceWindows := by
  unfold Obligations.MaintenanceWindows
  intro s stack channel item outcome errors k x len spare
  refine ⟨maintWindowStart_leaves, exec_maintItemEnd_idle, fun r hw hr => ?_, routineRetrainDue_leaves s stack channel, maintStarved_leaves s stack⟩
  intro u z ends row
  refine ⟨⟨_, exec_maintItemEnd hw hr, (workKept_itemDone u k item).ends r.1 len, ?_⟩,
    fun frames hf => ⟨_, exec_maintItemEnd hw hr, (workKept_retireFrames hf).ends r.1 len, retireFrames_ended r.1 len hf⟩,
    fun lane => ⟨_, exec_maintItemEnd hw hr, ((workKept_itemSwap u k item).trans (workKept_trainFails ..)).ends r.1 len,
      trainingFailed_taken r.1 len, trainingFailed_free r.1 len⟩⟩
  cases item with
  | laneRepair c lane => exact laneRepair_done r.1 len u k c lane
  | hardRepair c n => exact rowRepair_done r.1 len u k c n
  | softRepair c n => exact rowRepair_done r.1 len u k c n
  | retrain c => rfl
  | rewrite c n => rfl
  | patrol c n => exact patrol_done r.1 len u k c n

end Sys2Proof.Proofs

/-! What every step keeps (R127, R287, R418, R434): each command evolves the state (Safety.Evolves), by the lemma of its meaning. From it the statement on the invariant of every step. -/

namespace Sys2Proof.Proofs

open Sys2Proof.Machine Sys2Proof.Safety Sys2Proof.Laws

/-- Whatever a command does, it keeps the memories canonical, and what is fused or drawn does not go back. -/
theorem exec_evolves (c : Instr) (s : State) : EvolvesOut s (exec c s) :=
  match c with
  | .submitWord fn words poisoned => ev_execSubmitWord (ev_refl s) fn words poisoned
  | .queueReset fn => ev_execQueueReset (ev_refl s) fn
  | .complRead fn => ev_execComplRead (ev_refl s) fn
  | .hostWindowWrite fn offset bytes poisoned => ev_execHostWindowWrite (ev_refl s) fn offset bytes poisoned
  | .hostWindowRead fn offset length => ev_execHostWindowRead (ev_refl s) fn offset length
  | .msixUnmask fn vector => ev_execMsixUnmask (ev_refl s) fn vector
  | .planCutoff nowNs => ev_execPlanCutoff (ev_refl s) nowNs
  | .epochDecision => ev_execEpochDecision (ev_refl s)
  | .planLatch nowNs => ev_execPlanLatch (ev_refl s) nowNs
  | .slabStart d slab nowNs errors => ev_execSlabStart (ev_refl s) d slab nowNs errors
  | .slabPause d slab nowNs => ev_execSlabPause (ev_refl s) d slab nowNs
  | .slabComplete d slab nowNs => ev_execSlabComplete (ev_refl s) d slab nowNs
  | .runPhaseEnd nowNs => ev_execRunPhaseEnd (ev_refl s) nowNs
  | .settleStart nowNs => ev_execSettleStart (ev_refl s) nowNs
  | .baseRefetchDone copy stripe source bytes nowNs => ev_execBaseRefetchDone (ev_refl s) copy stripe source bytes nowNs
  | .maintWindowStart => ev_execMaintWindowStart (ev_refl s)
  | .maintItemEnd stack item ended => ev_execMaintItemEnd (ev_refl s) stack item ended
  | .routineRetrainDue stack channel => ev_execRoutineRetrainDue (ev_refl s) stack channel
  | .maintStarved stack => ev_execMaintStarved (ev_refl s) stack
  | .emergencyRetrain stack channel emergency stallNs inWindow => ev_execEmergencyRetrain (ev_refl s) stack channel emergency stallNs inWindow
  | .refreshPause nowNs temps => ev_execRefreshPause (ev_refl s) nowNs temps
  | .sharedFetchHoldExpire d tag => ev_execSharedFetchHoldExpire (ev_refl s) d tag
  | .tickSymbolReceive port sym nowNs => ev_execTickSymbolReceive (ev_refl s) port sym nowNs
  | .doneTokenReceive port token nowNs => ev_execDoneTokenReceive (ev_refl s) port token nowNs
  | .tickStart nowNs => ev_execTickStart (ev_refl s) nowNs
  | .tickMasterTimeout nowNs => ev_execTickMasterTimeout (ev_refl s) nowNs
  | .tickRefLoss => ev_execTickRefLoss (ev_refl s)
  | .fabricTrainingStart nowNs => ev_execFabricTrainingStart (ev_refl s) nowNs
  | .portStageTimeout port => ev_execPortStageTimeout (ev_refl s) port
  | .portTrainingDone port lanes peerDevice peerPort delayPs eyeMv eyeLane => ev_execPortTrainingDone (ev_refl s) port lanes peerDevice peerPort delayPs eyeMv eyeLane
  | .prioOffer port device prio => ev_execPrioOffer (ev_refl s) port device prio
  | .masterElection nowNs => ev_execMasterElection (ev_refl s) nowNs
  | .laneFail port lane => ev_execLaneFail (ev_refl s) port lane
  | .flitReceive port bytes fecOk errors => ev_execFlitReceive (ev_refl s) port bytes fecOk errors
  | .retryRequest port seq => ev_execRetryRequest (ev_refl s) port seq
  | .keyExchangeMessage port msg => ev_execKeyExchangeMessage (ev_refl s) port msg
  | .rekey port => ev_execRekey (ev_refl s) port
  | .rekeyStall port => ev_execRekeyStall (ev_refl s) port
  | .rdReq t errors => ev_execRdReq (ev_refl s) t errors
  | .rdResp t => ev_execRdResp (ev_refl s) t
  | .wr t errors => ev_execWr (ev_refl s) t errors
  | .wrAck t => ev_execWrAck (ev_refl s) t
  | .radd t errors => ev_execRadd (ev_refl s) t errors
  | .raddAck t => ev_execRaddAck (ev_refl s) t
  | .atom t errors => ev_execAtom (ev_refl s) t errors
  | .atomResp t => ev_execAtomResp (ev_refl s) t
  | .collData t step ring => ev_execCollData (ev_refl s) t step ring
  | .stripeReq t errors => ev_execStripeReq (ev_refl s) t errors
  | .stripeResp t => ev_execStripeResp (ev_refl s) t
  | .colTimeout d collId => ev_execColTimeout (ev_refl s) d collId
  | .stripeFetchDone copy stripe source bytes => ev_execStripeFetchDone (ev_refl s) copy stripe source bytes
  | .hostReadCompletion copy stripe result => ev_execHostReadCompletion (ev_refl s) copy stripe result
  | .claim v posted slot gen rsv => ev_execClaim (ev_refl s) v posted slot gen rsv
  | .load v posted slot gen rsv => ev_execLoad (ev_refl s) v posted slot gen rsv
  | .park v posted slot gen rsv => ev_execPark (ev_refl s) v posted slot gen rsv
  | .release v posted slot gen rsv => ev_execRelease (ev_refl s) v posted slot gen rsv
  | .stage v posted slot gen rsv => ev_execStage (ev_refl s) v posted slot gen rsv
  | .unstage v posted slot gen rsv => ev_execUnstage (ev_refl s) v posted slot gen rsv
  | .varQuery v posted slot gen rsv => ev_execVarQuery (ev_refl s) v posted slot gen rsv
  | .expertClaim v posted slot gen rsv => ev_execExpertClaim (ev_refl s) v posted slot gen rsv
  | .expertRelease v posted slot gen rsv => ev_execExpertRelease (ev_refl s) v posted slot gen rsv
  | .flush v posted slot gen rsv => ev_execFlush (ev_refl s) v posted slot gen rsv
  | .loadComplete slot => ev_execLoadComplete (ev_refl s) slot
  | .loadFailed slot => ev_execLoadFailed (ev_refl s) slot
  | .parkDone slot => ev_execParkDone (ev_refl s) slot
  | .releaseDone slot => ev_execReleaseDone (ev_refl s) slot
  | .stageComplete slot => ev_execStageComplete (ev_refl s) slot
  | .seqOpen v posted seq rsv => ev_execSeqOpen (ev_refl s) v posted seq rsv
  | .seqClose v posted seq rsv => ev_execSeqClose (ev_refl s) v posted seq rsv
  | .kvpCommit v posted seq rsv => ev_execKvpCommit (ev_refl s) v posted seq rsv
  | .kvpQuery v posted seq rsv => ev_execKvpQuery (ev_refl s) v posted seq rsv
  | .setDrop v posted seq rsv => ev_execSetDrop (ev_refl s) v posted seq rsv
  | .kvpGeomWrite v value => ev_execKvpGeomWrite (ev_refl s) v value
  | .build v posted of rsv => ev_execBuild (ev_refl s) v posted of rsv
  | .switch v posted copy rsv => ev_execSwitch (ev_refl s) v posted copy rsv
  | .abort v posted copy rsv => ev_execAbort (ev_refl s) v posted copy rsv
  | .basStage v posted copy rsv => ev_execBasStage (ev_refl s) v posted copy rsv
  | .basUnstage v posted copy rsv => ev_execBasUnstage (ev_refl s) v posted copy rsv
  | .basQuery v posted copy rsv => ev_execBasQuery (ev_refl s) v posted copy rsv
  | .moveUp v posted page count rsv => ev_execMoveUp (ev_refl s) v posted page count rsv
  | .evict v posted page count rsv => ev_execEvict (ev_refl s) v posted page count rsv
  | .pin v posted page count rsv => ev_execPin (ev_refl s) v posted page count rsv
  | .unpin v posted page count rsv => ev_execUnpin (ev_refl s) v posted page count rsv
  | .tirQuery v posted page count rsv => ev_execTirQuery (ev_refl s) v posted page count rsv
  | .discard v posted page count rsv => ev_execDiscard (ev_refl s) v posted page count rsv
  | .relocate v posted page count rsv => ev_execRelocate (ev_refl s) v posted page count rsv
  | .flushExtent v posted page count rsv => ev_execFlushExtent (ev_refl s) v posted page count rsv
  | .flushIssue d => ev_execFlushIssue (ev_refl s) d
  | .flushDone d ok => ev_execFlushDone (ev_refl s) d ok
  | .pageReadDone d page returned nowNs => ev_execPageReadDone (ev_refl s) d page returned nowNs
  | .pageWriteDone d page => ev_execPageWriteDone (ev_refl s) d page
  | .nvmeCommandFail d work stallNs => ev_execNvmeCommandFail (ev_refl s) d work stallNs
  | .nvmeTimeout d work stallNs => ev_execNvmeTimeout (ev_refl s) d work stallNs
  | .nvmeLinkDown link => ev_execNvmeLinkDown (ev_refl s) link
  | .preempt posted d saveCommons rsv => ev_execPreempt (ev_refl s) posted d saveCommons rsv
  | .resume posted d rsv => ev_execResume (ev_refl s) posted d rsv
  | .create v posted d rsv => ev_execCreate (ev_refl s) v posted d rsv
  | .createComplete d => ev_execCreateComplete (ev_refl s) d
  | .resize v posted d rsv => ev_execResize (ev_refl s) v posted d rsv
  | .destroy v posted d rsv => ev_execDestroy (ev_refl s) v posted d rsv
  | .lend v posted d rsv => ev_execLend (ev_refl s) v posted d rsv
  | .reclaim v posted d rsv => ev_execReclaim (ev_refl s) v posted d rsv
  | .mapShared v posted d rsv => ev_execMapShared (ev_refl s) v posted d rsv
  | .unmapShared v posted d rsv => ev_execUnmapShared (ev_refl s) v posted d rsv
  | .session v posted d rsv => ev_execSession (ev_refl s) v posted d rsv
  | .rotate v posted d rsv => ev_execRotate (ev_refl s) v posted d rsv
  | .attest v posted d rsv => ev_execAttest (ev_refl s) v posted d rsv
  | .reportSigned engine => ev_execReportSigned (ev_refl s) engine
  | .identity v posted d rsv => ev_execIdentity (ev_refl s) v posted d rsv
  | .keyImport v posted d rsv => ev_execKeyImport (ev_refl s) v posted d rsv
  | .keyDrop v posted d rsv => ev_execKeyDrop (ev_refl s) v posted d rsv
  | .lifecycle v posted d rsv => ev_execLifecycle (ev_refl s) v posted d rsv
  | .svnCommit v posted d rsv => ev_execSvnCommit (ev_refl s) v posted d rsv
  | .certInstall v posted d rsv => ev_execCertInstall (ev_refl s) v posted d rsv
  | .heldRequestExecute d => ev_execHeldRequestExecute (ev_refl s) d
  | .scrubEnd d nowNs withheldFrames sramFailUnits => ev_execScrubEnd (ev_refl s) d nowNs withheldFrames sramFailUnits
  | .memoryKeyDestroy d => ev_execMemoryKeyDestroy (ev_refl s) d
  | .vfFlr n => ev_execVfFlr (ev_refl s) n
  | .vfEnableChange on numVfs => ev_execVfEnableChange (ev_refl s) on numVfs
  | .pcieLinkChange speed width dlUp => ev_execPcieLinkChange (ev_refl s) speed width dlUp
  | .powerApply mV => ev_execPowerApply (ev_refl s) mV
  | .perstRise baudSel i3cAsel => ev_execPerstRise (ev_refl s) baudSel i3cAsel
  | .perstFall cause => ev_execPerstFall (ev_refl s) cause
  | .pwrGoodLoss => ev_execPwrGoodLoss (ev_refl s)
  | .watchdog => ev_execWatchdog (ev_refl s)
  | .thermTrip => ev_execThermTrip (ev_refl s)
  | .supplyOut mV below40V => ev_execSupplyOut (ev_refl s) mV below40V
  | .inputRange mV => ev_execInputRange (ev_refl s) mV
  | .mbdTrainingDone failedStacks => ev_execMbdTrainingDone (ev_refl s) failedStacks
  | .imageVerifyDone slot magic format keyIndex svn bodyLen digestMatches rsaOk slhOk digest => ev_execImageVerifyDone (ev_refl s) slot magic format keyIndex svn bodyLen digestMatches rsaOk slhOk digest
  | .deviceWipeEnd withheldFrames sramFailUnits nowNs => ev_execDeviceWipeEnd (ev_refl s) withheldFrames sramFailUnits nowNs
  | .firmwareRelease => ev_execFirmwareRelease (ev_refl s)
  | .pfReady nowNs => ev_execPfReady (ev_refl s) nowNs
  | .badgerMeasure reading => ev_execBadgerMeasure (ev_refl s) reading
  | .measureSkipped => ev_execMeasureSkipped (ev_refl s)
  | .measure v => ev_execMeasure (ev_refl s) v
  | .pwrBoundsWrite v value => ev_execPwrBoundsWrite (ev_refl s) v value
  | .pwrTargetsWrite v value => ev_execPwrTargetsWrite (ev_refl s) v value
  | .retrain v port => ev_execRetrain (ev_refl s) v port
  | .portEnable v port enable => ev_execPortEnable (ev_refl s) v port enable
  | .recipeWrite v row value => ev_execRecipeWrite (ev_refl s) v row value
  | .histSelWrite v slot => ev_execHistSelWrite (ev_refl s) v slot
  | .histCommit v count => ev_execHistCommit (ev_refl s) v count
  | .zsValueWrite v value => ev_execZsValueWrite (ev_refl s) v value
  | .lossScaleWrite v value => ev_execLossScaleWrite (ev_refl s) v value
  | .retainWrite v value => ev_execRetainWrite (ev_refl s) v value
  | .regRateWrite v value => ev_execRegRateWrite (ev_refl s) v value
  | .maintWrite v value => ev_execMaintWrite (ev_refl s) v value
  | .tickConfigWrite v phase value => ev_execTickConfigWrite (ev_refl s) v phase value
  | .shareWrite v value => ev_execShareWrite (ev_refl s) v value
  | .planSlotsWrite v value => ev_execPlanSlotsWrite (ev_refl s) v value
  | .flashRateWrite v value => ev_execFlashRateWrite (ev_refl s) v value
  | .ptagWrite v value => ev_execPtagWrite (ev_refl s) v value
  | .slotTagWrite v value => ev_execSlotTagWrite (ev_refl s) v value
  | .apply v d => ev_execApply (ev_refl s) v d
  | .traceCfgWrite v value => ev_execTraceCfgWrite (ev_refl s) v value
  | .blkEventClear v page mask => ev_execBlkEventClear (ev_refl s) v page mask
  | .blkEventEnWrite v page mask => ev_execBlkEventEnWrite (ev_refl s) v page mask
  | .blkEventSet v page mask => ev_execBlkEventSet (ev_refl s) v page mask
  | .blkLock v page => ev_execBlkLock (ev_refl s) v page
  | .cntModeWrite v page mode => ev_execCntModeWrite (ev_refl s) v page mode
  | .counterLowRead v page offset => ev_execCounterLowRead (ev_refl s) v page offset
  | .registerWrite v bar offset size value => ev_execRegisterWrite (ev_refl s) v bar offset size value
  | .pldmFirmwareUpdate slot offset bytes => ev_execPldmFirmwareUpdate (ev_refl s) slot offset bytes
  | .pldmRequest query => ev_execPldmRequest (ev_refl s) query
  | .id => ev_execId (ev_refl s)
  | .health => ev_execHealth (ev_refl s)
  | .chal => ev_execChal (ev_refl s)
  | .unlock token => ev_execUnlock (ev_refl s) token
  | .peek page offset => ev_execPeek (ev_refl s) page offset
  | .count page offset => ev_execCount (ev_refl s) page offset
  | .trace index => ev_execTrace (ev_refl s) index
  | .poke page offset value => ev_execPoke (ev_refl s) page offset value
  | .mem d addr write => ev_execMem (ev_refl s) d addr write
  | .domread d page offset => ev_execDomread (ev_refl s) d page offset
  | .counterHighRead v page offset => ev_execCounterHighRead (ev_refl s) v page offset
  | .signalDetect port nowNs => ev_execSignalDetect (ev_refl s) port nowNs
  | .oneWayDelayMeasurement port delayPs => ev_execOneWayDelayMeasurement (ev_refl s) port delayPs
  | .computeDieSensorRead sensors pInW vInMv => ev_execComputeDieSensorRead (ev_refl s) sensors pInW vInMv
  | .rootPortLinkUp link speed width => ev_execRootPortLinkUp (ev_refl s) link speed width
  | .pfPowerStateChange d3hot => ev_execPfPowerStateChange (ev_refl s) d3hot
  | .i3cDynamicAddressAssign how => ev_execI3cDynamicAddressAssign (ev_refl s) how

theorem memoryWf_withPending {s : State} (h : MemoryWf s) (queue : List Instr) : MemoryWf { s with pending := queue } :=
  ⟨h.doms, h.commons, h.opbuf, h.image0, h.image1, h.spi, h.msix⟩

/-- Settles O5: an idle step leaves the state, and the command at the front evolves it. -/
theorem everyStepKeepsInvariant : Obligations.EveryStepKeepsInvariant := by
  unfold Obligations.EveryStepKeepsInvariant
  intro s t hmem hlife hstep
  cases hqueue : s.pending with
  | nil =>
    rw [step, hqueue] at hstep
    cases hstep
    exact ⟨hmem, hlife⟩
  | cons c rest =>
    rw [step, hqueue] at hstep
    have hev : Evolves { s with pending := rest } t := exec_evolves c _ t hstep
    exact ⟨hev.memory (memoryWf_withPending hmem rest), (hev.forward.life hlife).1⟩

end Sys2Proof.Proofs

/-! The commands of the TIR page (R287 to R290, R293, R295, R303, R304): what queueing a move and counting a pin leave of the page map, how a command goes over a run of pages and where it stops, and from them the statements on MOVE_UP, EVICT, DISCARD, RELOCATE, PIN, UNPIN, QUERY and FLUSH_EXTENT. -/

namespace Sys2Proof.Proofs

open Sys2Proof.Machine Sys2Proof.Safety Sys2Proof.Laws

/-! ## What the page map gives of a page (R288, R293) -/

theorem entry_putEntry (x : Dom) (p q : Nat) (e : PageEntry) : (x.putEntry p e).entry q = if q = p then e else x.entry q := by
  have hpages : mapGet (x.putEntry p e).tir.pages q = if q = p then some e else mapGet x.tir.pages q := mapGet_mapSet ..
  unfold Dom.entry
  rw [hpages]
  split <;> rfl

theorem entry0_state (s : State) (q : Nat) : (s.entry0 q).state = ((s.dom 0).entry q).state := by
  unfold State.entry0
  dsimp only
  split <;> rfl

theorem entry0_pin (s : State) (q : Nat) : (s.entry0 q).pin = ((s.dom 0).entry q).pin := by
  unfold State.entry0
  dsimp only
  split <;> rfl

/-- A page's state is that of the entry that holds it. -/
theorem pageEntry_state (s : State) (d p : Nat) :
    (s.pageEntry d p).state = ((s.dom (s.homePage d p).1).entry (s.homePage d p).2).state := by
  unfold State.pageEntry State.homePage
  dsimp only
  cases ((s.dom d).entry p).shared with
  | some q => exact entry0_state s q
  | none =>
    dsimp only
    split
    · next h => rw [h, entry0_state]
    · rfl

/-- A page's PIN is the domain's own. -/
theorem pageEntry_pin (s : State) (d p : Nat) : (s.pageEntry d p).pin = ((s.dom d).entry p).pin := by
  unfold State.pageEntry
  dsimp only
  cases ((s.dom d).entry p).shared with
  | some q => rfl
  | none =>
    dsimp only
    split
    · next h => rw [h, entry0_pin]
    · rfl

section Congr

variable {s t : State} {d p : Nat}

theorem pageInRange_congr (h : (t.dom d).rec_ = (s.dom d).rec_) : t.pageInRange d p = s.pageInRange d p := by
  unfold State.pageInRange
  rw [h]

theorem homePage_congr (h : ((t.dom d).entry p).shared = ((s.dom d).entry p).shared) : t.homePage d p = s.homePage d p := by
  unfold State.homePage
  rw [h]

theorem pageState_congr (hshared : ((t.dom d).entry p).shared = ((s.dom d).entry p).shared)
    (hstate : ∀ e q, ((t.dom e).entry q).state = ((s.dom e).entry q).state) : (t.pageEntry d p).state = (s.pageEntry d p).state := by
  rw [pageEntry_state, pageEntry_state, homePage_congr hshared, hstate]

end Congr

/-! ## One move queued, one pin counted (R290, R295) -/

/-- Work on the pages of domain d has changed its page map and what waits for the plan latch alone. -/
structure TierStep (d : Nat) (s t : State) : Prop where
  frame : Frame [.domTir, .atLatch] s t
  stays : StaysIn d s t

namespace TierStep

variable {d : Nat} {s t u : State}

theorem refl (d : Nat) (s : State) : TierStep d s s := ⟨fr_refl _ s, .refl d s⟩

theorem trans (a : TierStep d s t) (b : TierStep d t u) : TierStep d s u := ⟨fr_trans a.frame b.frame, a.stays.trans b.stays⟩

theorem queueTier (d : Nat) (s : State) (i : TierItem) : TierStep d s (s.queueTier d i) :=
  ⟨fr_queueTier (fr_refl _ s) d i (by decide), .updDom d s _⟩

theorem setPin (d : Nat) (s : State) (p n : Nat) : TierStep d s (s.setPin d p n) :=
  ⟨fr_setPin (fr_refl _ s) d p n (by decide), .updDom d s _⟩

theorem defer (d : Nat) (s : State) (a : LatchAct) : TierStep d s (s.defer a) :=
  ⟨fr_defer (fr_refl _ s) a (by decide), .defer d s a⟩

theorem record (h : TierStep d s t) (e : Nat) : (t.dom e).rec_ = (s.dom e).rec_ := (h.frame.kept .domRecord (by decide) e).1

theorem pairs (h : TierStep d s t) : t.pairs = s.pairs := h.frame.kept .pairs (by decide)

theorem pageInRange (h : TierStep d s t) (q : Nat) : t.pageInRange d q = s.pageInRange d q := pageInRange_congr (h.record d)

/-- The entries of the other domains are as before. -/
theorem entry_ne (h : TierStep d s t) {e : Nat} (he : e ≠ d) (q : Nat) : (t.dom e).entry q = (s.dom e).entry q := by
  have hpages : (t.dom e).tir = (s.dom e).tir := (h.stays.only e he).1 .domTir (by decide)
  have hquota : (t.dom e).quota0 = (s.dom e).quota0 := (h.frame.kept .domSched (by decide) e).1
  unfold Dom.entry Dom.bornStacked
  rw [hpages, h.record e, hquota]

end TierStep

section QueueTier

variable (s : State) (d : Nat) (i : TierItem)

theorem queueTier_tir : ((s.queueTier d i).dom d).tir = { (s.dom d).tir with queue := (s.dom d).tir.queue ++ [i] } := by
  rw [State.queueTier, dom_updDom_self]

theorem queueTier_entry (e q : Nat) : ((s.queueTier d i).dom e).entry q = (s.dom e).entry q := by
  by_cases he : e = d
  · subst he
    rw [State.queueTier, dom_updDom_self]
    rfl
  · exact (TierStep.queueTier d s i).entry_ne he q

theorem queueTier_pageState (e q : Nat) : ((s.queueTier d i).pageEntry e q).state = (s.pageEntry e q).state :=
  pageState_congr (by rw [queueTier_entry]) fun e q => by rw [queueTier_entry]

end QueueTier

/-- A property of entries that the new value has exactly where the old one had it holds of some entry as before. -/
theorem any_mapSet {α : Type} {f : α → Bool} {m : List (Nat × α)} {k : Nat} {v : α} (h : f v = ((mapGet m k).map f).getD false) :
    (mapSet m k v).any (fun c => f c.2) = m.any (fun c => f c.2) := by
  induction m with
  | nil => simpa [mapSet] using h
  | cons c r ih =>
    obtain ⟨j, w⟩ := c
    rw [mapGet_cons] at h
    unfold mapSet
    by_cases hj : j = k
    · simp [hj, if_pos hj ▸ h]
    · rw [if_neg hj] at h
      split
      · cases hg : mapGet r k with
        | none => simp [h, hg]
        | some x =>
          obtain ⟨a, hmem⟩ := mem_of_mapGet r k x hg
          cases hx : f x with
          | false => simp [h, hg, hx]
          | true =>
            have hany : r.any (fun c => f c.2) = true := List.any_eq_true.2 ⟨(a, x), hmem, hx⟩
            simp [hany]
      · simp [if_neg (Ne.symm hj), ih h]

/-- Queueing a move pins no page and takes no pin away. -/
theorem queueTier_pinnedPage (s : State) (d : Nat) (i : TierItem) (e q : Nat) : (s.queueTier d i).pinnedPage e q = s.pinnedPage e q := by
  have hany (f : List (Nat × PageEntry) → Bool) (hf : f [] = false) :
      (s.queueTier d i).doms.any (fun y => f y.2.tir.pages) = s.doms.any (fun y => f y.2.tir.pages) := by
    refine any_mapSet (f := fun x : Dom => f x.tir.pages) ?_
    show f (s.dom d).tir.pages = _
    unfold State.dom
    cases mapGet s.doms d with
    | none => exact hf
    | some x => rfl
  have hhome : (s.queueTier d i).homePage e q = s.homePage e q := homePage_congr (by rw [queueTier_entry])
  unfold State.pinnedPage
  dsimp only
  rw [hhome]
  rw [queueTier_entry, (TierStep.queueTier d s i).record, hany (fun l => l.any fun c => c.2.shared == some _ && c.2.pin != 0) rfl]

/-! ## A command over a run of pages (R290, R304) -/

/-- How a command fails on a page that it may refuse: outside the range before all else. -/
def pageFails (s : State) (d : Nat) (refuses : Nat → Option Nat) (q : Nat) : Option Nat :=
  if !s.pageInRange d q then some 0x0E else refuses q

section Pages

variable {d n j p k i : Nat} {t u : State} {act : State → Nat → State × Nat}

theorem tierPages_outside (h : t.pageInRange d p = false) : t.tierPages d act (j + 1) p k i = (t, 0x0E, i) := by
  simp [State.tierPages, h]

theorem tierPages_refused {st : Nat} (h : t.pageInRange d p = true) (hact : act t p = (t, st)) (hst : 1 < st) :
    t.tierPages d act (j + 1) p k i = (t, st, i) := by
  simp [State.tierPages, h, hact, Nat.not_le.2 hst]

theorem tierPages_goes {ok : Nat} (h : t.pageInRange d p = true) (hact : act t p = (u, ok)) (hok : ok ≤ 1) :
    t.tierPages d act (j + 1) p k i = u.tierPages d act j (p + 1) (max k ok) (i + 1) := by
  simp [State.tierPages, h, hact, hok]

/-- Over a run of pages of the range that it does not refuse, a command carries on what each page carries on (P, of the pages done and the status so far), and stops at the page after them, if there is one. -/
theorem tierPages_run {s : State} {refuses : Nat → Option Nat} {m st : Nat} {P : Nat → Nat → State → Prop}
    (hrun : PageRun (pageFails s d refuses) p n m st) (hrange : ∀ i k t, P i k t → ∀ q, t.pageInRange d q = s.pageInRange d q)
    (hgoes : ∀ i k t, P i k t → refuses (p + i) = none → ∃ u ok, act t (p + i) = (u, ok) ∧ ok ≤ 1 ∧ P (i + 1) (max k ok) u)
    (hstops : ∀ i k t st, P i k t → refuses (p + i) = some st → act t (p + i) = (t, st) ∧ 1 < st) (hs : P 0 0 s) :
    ∃ t k, s.tierPages d act n p 0 0 = (t, if m = n then k else st, m) ∧ P m k t := by
  obtain ⟨hm, hgood, hbad⟩ := hrun
  suffices h : ∀ j i k t, i + j = n → i ≤ m → P i k t →
      ∃ u k', t.tierPages d act j (p + i) k i = (u, if m = n then k' else st, m) ∧ P m k' u from h n 0 0 s (Nat.zero_add n) (Nat.zero_le m) hs
  intro j
  induction j with
  | zero =>
    intro i k t hi him hP
    obtain rfl : m = i := by omega
    exact ⟨t, k, by rw [if_pos (by omega)]; rfl, hP⟩
  | succ j ih =>
    intro i k t hi him hP
    have hin := hrange i k t hP (p + i)
    rcases Nat.lt_or_eq_of_le him with hlt | rfl
    · have hpage := hgood i hlt
      unfold pageFails at hpage
      cases hr : s.pageInRange d (p + i) with
      | false => simp [hr] at hpage
      | true =>
        obtain ⟨u, ok, hact, hok, hnext⟩ := hgoes i k t hP (by simpa [hr] using hpage)
        rw [tierPages_goes (hin.trans hr) hact hok]
        exact ih (i + 1) (max k ok) u (by omega) hlt hnext
    · have hpage := hbad (by omega)
      unfold pageFails at hpage
      refine ⟨t, k, ?_, hP⟩
      rw [if_neg (by omega)]
      cases hr : s.pageInRange d (p + i) with
      | false =>
        obtain rfl : 0x0E = st := by simpa [hr] using hpage
        exact tierPages_outside (hin.trans hr)
      | true =>
        obtain ⟨hact, hst⟩ := hstops i k t st hP (by simpa [hr] using hpage)
        exact tierPages_refused (hin.trans hr) hact hst

end Pages

/-- The state with the result of a command of the TIR page posted. -/
abbrev tirPosted (t : State) (c st op done : Nat) : State := t.postResult c pTir (tirWord st op done)

/-- A command that is ready, with no reserved bit set and pages to act on, posts what the pages answered. -/
theorem tirCmd_answers {s t : State} {v : View} {posted : Bool} (h : Ready s v pTir posted) (op : Nat) {page count st done : Nat}
    (hc : count ≠ 0) {act : Nat → State → Nat → State × Nat}
    (hf : s.tierPages (s.viewDom v pTir) (act (s.viewDom v pTir)) count page 0 0 = (t, st, done)) :
    s.tirCmd v posted op page count 0 act = tirPosted t (s.viewCopy v pTir) st op done := by
  rw [State.tirCmd, runCmd_ready h]
  simp only [ne_eq, not_true_eq_false, hc, or_self, if_false, hf]

theorem TierStep.leaves {s t : State} {v : View} (h : TierStep (s.viewDom v pTir) s t) (st op done : Nat) :
    Leaves s (tirPosted t (s.viewCopy v pTir) st op done) v pTir (tirWord st op done) :=
  postResult_leaves h.stays h.pairs ..

/-! ## Moves queued over a run (R290, R295) -/

/-- The state with items added to a domain's tier queue. -/
def queued (s : State) (d : Nat) (items : List TierItem) : State := items.foldl (fun t i => t.queueTier d i) s

section Queued

variable (s : State) (d : Nat) (items : List TierItem)

theorem queued_snoc (i : TierItem) : queued s d (items ++ [i]) = (queued s d items).queueTier d i := by
  rw [queued, List.foldl_append]
  rfl

theorem queued_step : TierStep d s (queued s d items) :=
  foldl_keeps (TierStep d s) _ (fun t i h => h.trans (.queueTier d t i)) items (.refl d s)

theorem queued_atLatch : (queued s d items).atLatch = s.atLatch :=
  foldl_keeps (fun t : State => t.atLatch = s.atLatch) (fun t i => t.queueTier d i) (fun _ _ h => h) items rfl

theorem queued_pageState (e q : Nat) : ((queued s d items).pageEntry e q).state = (s.pageEntry e q).state :=
  foldl_keeps (fun t : State => (t.pageEntry e q).state = (s.pageEntry e q).state) _
    (fun t i h => (queueTier_pageState t d i e q).trans h) items rfl

theorem queued_pinnedPage (e q : Nat) : (queued s d items).pinnedPage e q = s.pinnedPage e q :=
  foldl_keeps (fun t : State => t.pinnedPage e q = s.pinnedPage e q) _ (fun t i h => (queueTier_pinnedPage t d i e q).trans h) items rfl

theorem queued_tir : ((queued s d items).dom d).tir = { (s.dom d).tir with queue := (s.dom d).tir.queue ++ items } := by
  induction items using List.reverseRecOn with
  | nil => simp [queued]
  | append_singleton l i ih => rw [queued_snoc, queueTier_tir, ih, List.append_assoc]

end Queued

/-- The first i pages from p that a command moves. -/
def movesOf (wants : Nat → Bool) (p i : Nat) : List Nat := (List.range' p i).filter wants

theorem movesOf_succ (wants : Nat → Bool) (p i : Nat) :
    movesOf wants p (i + 1) = movesOf wants p i ++ if wants (p + i) then [p + i] else [] := by
  rw [movesOf, List.range'_1_concat, List.filter_append, movesOf]
  cases h : wants (p + i) <;> simp [h]

/-- After i pages from p, a move of each page that the command moves is queued, and the status so far is ACCEPTED where there is one. -/
def QueuedRun (s : State) (d : Nat) (wants : Nat → Bool) (item : Nat → TierItem) (p i k : Nat) (t : State) : Prop :=
  t = queued s d ((movesOf wants p i).map item) ∧ k = if movesOf wants p i = [] then 0x00 else 0x01

/-- A command that queues a move of each page that it moves, and leaves the others, answers ACCEPTED where it queued one. -/
theorem tierPages_queues {s : State} {d p n m st : Nat} {act : State → Nat → State × Nat} {refuses : Nat → Option Nat}
    {wants : Nat → Bool} {item : Nat → TierItem} (hrun : PageRun (pageFails s d refuses) p n m st)
    (hgoes : ∀ l q, refuses q = none →
      act (queued s d l) q = if wants q then ((queued s d l).queueTier d (item q), 0x01) else (queued s d l, 0x00))
    (hstops : ∀ l q st, refuses q = some st → act (queued s d l) q = (queued s d l, st) ∧ 1 < st) :
    s.tierPages d act n p 0 0 =
      (queued s d ((movesOf wants p m).map item), if m = n then (if movesOf wants p m = [] then 0x00 else 0x01) else st, m) := by
  have hrange : ∀ i k t, QueuedRun s d wants item p i k t → ∀ q, t.pageInRange d q = s.pageInRange d q := by
    rintro i k t ⟨rfl, -⟩ q
    exact (queued_step ..).pageInRange q
  have hnext : ∀ i k t, QueuedRun s d wants item p i k t → refuses (p + i) = none →
      ∃ u ok, act t (p + i) = (u, ok) ∧ ok ≤ 1 ∧ QueuedRun s d wants item p (i + 1) (max k ok) u := by
    rintro i k t ⟨rfl, rfl⟩ hgood
    have hact := hgoes ((movesOf wants p i).map item) (p + i) hgood
    unfold QueuedRun
    rw [movesOf_succ]
    cases hw : wants (p + i) with
    | true =>
      rw [hw, if_pos rfl] at hact
      refine ⟨_, _, hact, Nat.le_refl 1, ?_, ?_⟩
      · rw [if_pos rfl, List.map_append, List.map_singleton, queued_snoc]
      · split <;> simp
    | false =>
      rw [hw, if_neg Bool.false_ne_true] at hact
      exact ⟨_, _, hact, Nat.zero_le 1, by simp, by simp⟩
  have hstop : ∀ i k t st, QueuedRun s d wants item p i k t → refuses (p + i) = some st → act t (p + i) = (t, st) ∧ 1 < st := by
    rintro i k t st ⟨rfl, -⟩ hbad
    exact hstops _ _ _ hbad
  obtain ⟨t, k, hpages, rfl, rfl⟩ := tierPages_run hrun hrange hnext hstop ⟨rfl, rfl⟩
  exact hpages

/-- MOVE_UP moves a page that has no frame, or is on its way down. -/
def upWanted (s : State) (d q : Nat) : Bool := (s.pageEntry d q).state == .flash || (s.pageEntry d q).state == .down

theorem moveUpPage_eq (s : State) (d q : Nat) :
    s.moveUpPage d q = if upWanted s d q then (s.queueTier d (.up q), 0x01) else (s, 0x00) := by
  unfold State.moveUpPage upWanted
  cases (s.pageEntry d q).state <;> rfl

/-- EVICT refuses a page that is UP, and a STACKED one that is pinned. -/
def evictRefuses (s : State) (d q : Nat) : Option Nat :=
  if (s.pageEntry d q).state = .up then some 0x08
  else if (s.pageEntry d q).state = .stacked ∧ s.pinnedPage d q = true then some 0x0D else none

/-- EVICT moves a STACKED page. -/
def downWanted (s : State) (d q : Nat) : Bool := (s.pageEntry d q).state == .stacked

theorem evictPage_eq (s : State) (d q : Nat) : s.evictPage d q =
    match evictRefuses s d q with
    | some st => (s, st)
    | none => if downWanted s d q then (s.queueTier d (.down q), 0x01) else (s, 0x00) := by
  unfold State.evictPage evictRefuses downWanted
  cases (s.pageEntry d q).state <;> cases s.pinnedPage d q <;> rfl

theorem evictRefuses_error {s : State} {d q st : Nat} (h : evictRefuses s d q = some st) : 1 < st := by
  unfold evictRefuses at h
  split at h
  · cases h; decide
  · split at h
    · cases h; decide
    · cases h

section QueuedReads

variable (s : State) (d : Nat) (items : List TierItem) (q : Nat)

theorem queued_upWanted : upWanted (queued s d items) d q = upWanted s d q := by unfold upWanted; rw [queued_pageState]

theorem queued_downWanted : downWanted (queued s d items) d q = downWanted s d q := by unfold downWanted; rw [queued_pageState]

theorem queued_evictRefuses : evictRefuses (queued s d items) d q = evictRefuses s d q := by
  unfold evictRefuses
  rw [queued_pageState, queued_pinnedPage]

end QueuedReads

/-- What a command that queues moves leaves once posted: its result word, nothing at the plan latch, and the moves in the tier queue. -/
theorem queued_leaves (s : State) (v : View) (items : List TierItem) (st op done : Nat) :
    Leaves s (tirPosted (queued s (s.viewDom v pTir) items) (s.viewCopy v pTir) st op done) v pTir (tirWord st op done) ∧
    (tirPosted (queued s (s.viewDom v pTir) items) (s.viewCopy v pTir) st op done).atLatch = s.atLatch ∧
    ((tirPosted (queued s (s.viewDom v pTir) items) (s.viewCopy v pTir) st op done).dom (s.viewDom v pTir)).tir =
      { (s.dom (s.viewDom v pTir)).tir with queue := (s.dom (s.viewDom v pTir)).tir.queue ++ items } :=
  ⟨(queued_step ..).leaves .., (postResult_atLatch ..).trans (queued_atLatch ..), (postResult_dom_tir ..).trans (queued_tir ..)⟩

/-- The pages to which MOVE_UP does not go are those outside the range. -/
theorem moveUpFails_eq (s : State) (d : Nat) :
    (fun q => if s.pageInRange d q then none else some 0x0E) = pageFails s d fun _ => none := by
  funext q
  unfold pageFails
  cases s.pageInRange d q <;> rfl

theorem moveUp_pages {s : State} {d p n m st : Nat} (hrun : PageRun (pageFails s d fun _ => none) p n m st) :
    s.tierPages d (fun t q => t.moveUpPage d q) n p 0 0 = (queued s d ((movesOf (upWanted s d) p m).map .up),
      if m = n then (if movesOf (upWanted s d) p m = [] then 0x00 else 0x01) else st, m) :=
  tierPages_queues hrun (fun l q _ => by rw [moveUpPage_eq, queued_upWanted]) nofun

theorem evict_pages {s : State} {d p n m st : Nat} (hrun : PageRun (pageFails s d (evictRefuses s d)) p n m st) :
    s.tierPages d (fun t q => t.evictPage d q) n p 0 0 = (queued s d ((movesOf (downWanted s d) p m).map .down),
      if m = n then (if movesOf (downWanted s d) p m = [] then 0x00 else 0x01) else st, m) :=
  tierPages_queues hrun (fun l q h => by rw [evictPage_eq, queued_evictRefuses, queued_downWanted, h])
    fun l q st h => ⟨by rw [evictPage_eq, queued_evictRefuses, h], evictRefuses_error h⟩

/-! ## Pages that wait for the plan latch (R290) -/

/-- The state with more that waits for the plan latch. -/
def deferred (s : State) (acts : List LatchAct) : State := { s with atLatch := s.atLatch ++ acts }

theorem deferred_snoc (s : State) (acts : List LatchAct) (a : LatchAct) : (deferred s acts).defer a = deferred s (acts ++ [a]) := by
  simp [deferred, State.defer]

theorem deferred_nil (s : State) : deferred s [] = s := by simp [deferred]

theorem deferred_step (d : Nat) (s : State) (acts : List LatchAct) : TierStep d s (deferred s acts) := by
  induction acts using List.reverseRecOn with
  | nil =>
    rw [deferred_nil]
    exact .refl d s
  | append_singleton l a ih =>
    rw [← deferred_snoc]
    exact ih.trans (.defer ..)

/-- DISCARD refuses a page that is shared or pinned. -/
def discardRefuses (s : State) (d q : Nat) : Option Nat :=
  if ((s.dom d).entry q).shared.isSome || s.pinnedPage d q then some 0x0A else none

/-- After i pages from p, the discard of each waits for the latch, and the status so far is ACCEPTED where there is one. -/
def DiscardRun (s : State) (d p i k : Nat) (t : State) : Prop :=
  t = deferred s ((List.range' p i).map (.discard d)) ∧ k = min i 1

theorem discard_pages {s : State} {d p n m st : Nat} (hn : n ≠ 0) (hrun : PageRun (pageFails s d (discardRefuses s d)) p n m st) :
    s.tierPages d (fun t q => t.discardPage d q) n p 0 0 =
      (deferred s ((List.range' p m).map (.discard d)), if m = n then 0x01 else st, m) := by
  have hrange : ∀ i k t, DiscardRun s d p i k t → ∀ q, t.pageInRange d q = s.pageInRange d q := by
    rintro i k t ⟨rfl, -⟩ q
    rfl
  have hnext : ∀ i k t, DiscardRun s d p i k t → discardRefuses s d (p + i) = none →
      ∃ u ok, t.discardPage d (p + i) = (u, ok) ∧ ok ≤ 1 ∧ DiscardRun s d p (i + 1) (max k ok) u := by
    rintro i k t ⟨rfl, rfl⟩ hgood
    refine ⟨_, _, if_neg fun hbad => ?_, Nat.le_refl 1, ?_, by omega⟩
    · exact absurd ((if_pos hbad).symm.trans hgood) nofun
    · rw [List.range'_1_concat, List.map_append, List.map_singleton, deferred_snoc]
  have hstop : ∀ i k t st, DiscardRun s d p i k t → discardRefuses s d (p + i) = some st → t.discardPage d (p + i) = (t, st) ∧ 1 < st := by
    rintro i k t st ⟨rfl, -⟩ hbad
    unfold discardRefuses at hbad
    split at hbad
    · next hr =>
      cases hbad
      exact ⟨if_pos hr, by decide⟩
    · cases hbad
  obtain ⟨t, k, hpages, rfl, rfl⟩ := tierPages_run hrun hrange hnext hstop ⟨(deferred_nil s).symm, rfl⟩
  rw [hpages]
  split
  · next hmn => rw [hmn, Nat.min_eq_right (Nat.one_le_iff_ne_zero.2 hn)]
  · rfl

/-- A page that RELOCATE does not move: one that is shared or not STACKED, and any while no frame of the quota is free. -/
def unmovable (x : Dom) (q : Nat) : Bool := (x.entry q).shared.isSome || (x.entry q).state != .stacked || x.tirFree == 0

/-- RELOCATE of pages from p refuses a page that it does not move, a frame that the quota does not hold free, and every page after p. -/
def relocateRefuses (s : State) (d p frame q : Nat) : Option Nat :=
  if unmovable (s.dom d) q then some 0x0A
  else if q ≠ p ∨ runsHave (s.dom d).tir.spare frame = false then some 0x05 else none

/-- The state with a frame kept for a page that a RELOCATE moves at the plan latch. -/
def relocated (s : State) (d q frame : Nat) : State :=
  (s.updDom d (fun y => { y with tir := { y.tir with spare := runsCut y.tir.spare frame 1 } })).defer (.relocate d q frame)

theorem relocatePage_eq (s : State) (d q frame : Nat) : s.relocatePage d q frame =
    if unmovable (s.dom d) q then (s, 0x0A)
    else if runsHave (s.dom d).tir.spare frame = false then (s, 0x05) else (relocated s d q frame, 0x01) := by
  unfold State.relocatePage
  dsimp only
  refine if_congr Iff.rfl rfl ?_
  cases runsHave (s.dom d).tir.spare frame <;> rfl

/-- A number that is cut out of runs is in them no more. -/
theorem runsHave_runsCut (r : List (Nat × Nat)) (a : Nat) : runsHave (runsCut r a 1) a = false := by
  unfold runsHave runsCut
  rw [List.any_eq_false]
  intro x hx
  obtain ⟨y, -, hy⟩ := List.mem_flatMap.1 hx
  have hparts := (List.mem_filter.1 hy).1
  simp only [List.mem_cons, List.not_mem_nil, or_false] at hparts
  simp only [Bool.and_eq_true, decide_eq_true_eq]
  obtain rfl | rfl := hparts <;> dsimp only <;> omega

section Relocated

variable (s : State) (d q frame : Nat)

theorem relocated_step : TierStep d s (relocated s d q frame) :=
  ⟨fr_defer (fr_updDom (fr_refl _ s) d _ fun _ => dfr_mk (.inr (same_domLife _)) (.inr (same_domRecord _)) (.inr (same_domPreempt _))
      (.inr rfl) (.inr (same_domSlabs _)) (.inr (same_domSched _)) (.inr rfl) (.inr rfl) (.inr rfl) (.inr rfl) (.inl (by decide))
      (.inr rfl) (.inr rfl) (.inr (same_mem _)) (.inr rfl)) _ (by decide),
    (StaysIn.updDom d s _).trans (.defer ..)⟩

theorem relocated_tir : ((relocated s d q frame).dom d).tir = { (s.dom d).tir with spare := runsCut (s.dom d).tir.spare frame 1 } := by
  rw [relocated, defer_dom, dom_updDom_self]

theorem relocated_unmovable (r : Nat) : unmovable ((relocated s d q frame).dom d) r = unmovable (s.dom d) r := by
  rw [relocated, defer_dom, dom_updDom_self]
  rfl

/-- A second page finds the frame kept for the first. -/
theorem relocated_relocatePage (r : Nat) : (relocated s d q frame).relocatePage d r frame =
    (relocated s d q frame, if unmovable (s.dom d) r then 0x0A else 0x05) := by
  have hspare : runsHave ((relocated s d q frame).dom d).tir.spare frame = false := by
    rw [relocated_tir]
    exact runsHave_runsCut ..
  rw [relocatePage_eq, relocated_unmovable, if_pos hspare]
  split <;> rfl

end Relocated

/-- After i pages from p: none yet, or the first, for which the frame is kept. -/
def RelocateRun (s : State) (d p frame i k : Nat) (t : State) : Prop :=
  i = 0 ∧ k = 0 ∧ t = s ∨ i = 1 ∧ k = 1 ∧ t = relocated s d p frame

theorem relocate_pages {s : State} {d p n m st frame : Nat} {act : State → Nat → State × Nat} (hn : n ≠ 0)
    (hact : ∀ t q, t = s ∨ t = relocated s d p frame → act t q = t.relocatePage d q frame)
    (hrun : PageRun (pageFails s d (relocateRefuses s d p frame)) p n m st) :
    ∃ t, s.tierPages d act n p 0 0 = (t, if m = n then 0x01 else st, m) ∧ (m = 0 ∧ t = s ∨ m = 1 ∧ t = relocated s d p frame) := by
  have hrange : ∀ i k t, RelocateRun s d p frame i k t → ∀ q, t.pageInRange d q = s.pageInRange d q := by
    rintro i k t (⟨-, -, rfl⟩ | ⟨-, -, rfl⟩) q
    · rfl
    · exact (relocated_step ..).pageInRange q
  have hnext : ∀ i k t, RelocateRun s d p frame i k t → relocateRefuses s d p frame (p + i) = none →
      ∃ u ok, act t (p + i) = (u, ok) ∧ ok ≤ 1 ∧ RelocateRun s d p frame (i + 1) (max k ok) u := by
    rintro i k t (⟨rfl, rfl, rfl⟩ | ⟨rfl, rfl, rfl⟩) hgood
    · refine ⟨_, _, (hact _ _ (.inl rfl)).trans ?_, Nat.le_refl 1, .inr ⟨rfl, rfl, rfl⟩⟩
      rw [relocatePage_eq]
      unfold relocateRefuses at hgood
      split_ifs at hgood with hmove hframe
      rw [if_neg hmove, if_neg fun hf => hframe (.inr hf)]
      rfl
    · unfold relocateRefuses at hgood
      split_ifs at hgood with hmove hframe
      exact absurd (.inl (by omega)) hframe
  have hstop : ∀ i k t st, RelocateRun s d p frame i k t → relocateRefuses s d p frame (p + i) = some st →
      act t (p + i) = (t, st) ∧ 1 < st := by
    rintro i k t st (⟨rfl, rfl, rfl⟩ | ⟨rfl, rfl, rfl⟩) hbad
    · rw [hact _ _ (.inl rfl), relocatePage_eq]
      unfold relocateRefuses at hbad
      split_ifs at hbad with hmove hframe
      · cases hbad
        exact ⟨if_pos hmove, by decide⟩
      · cases hbad
        exact ⟨(if_neg hmove).trans (if_pos (hframe.resolve_left (· rfl))), by decide⟩
    · rw [hact _ _ (.inr rfl), relocated_relocatePage]
      unfold relocateRefuses at hbad
      split_ifs at hbad with hmove hframe
      · cases hbad
        exact ⟨by rw [if_pos hmove], by decide⟩
      · cases hbad
        exact ⟨by rw [if_neg hmove], by decide⟩
  obtain ⟨t, k, hpages, hend⟩ := tierPages_run hrun hrange hnext hstop (.inl ⟨rfl, rfl, rfl⟩)
  refine ⟨t, ?_, hend.imp (fun h => ⟨h.1, h.2.2⟩) fun h => ⟨h.1, h.2.2⟩⟩
  rw [hpages]
  obtain ⟨rfl, rfl, -⟩ | ⟨-, rfl, -⟩ := hend
  · rw [if_neg hn.symm, if_neg hn.symm]
  · rfl

/-! ## Pins counted over a run (R290, R295) -/

/-- The pins of i pages from p of a domain have moved by g, and items have been added to its tier queue. -/
structure PinRun (s : State) (d p : Nat) (g : Nat → Nat) (i : Nat) (items : List TierItem) (t : State) : Prop where
  step : TierStep d s t
  latch : t.atLatch = s.atLatch
  queue : (t.dom d).tir.queue = (s.dom d).tir.queue ++ items
  entry : ∀ q, (t.dom d).entry q =
    if p ≤ q ∧ q < p + i then { (s.dom d).entry q with pin := g ((s.dom d).entry q).pin } else (s.dom d).entry q

namespace PinRun

variable {s t : State} {d p i : Nat} {g : Nat → Nat} {items : List TierItem}

theorem refl (s : State) (d p : Nat) (g : Nat → Nat) : PinRun s d p g 0 [] s :=
  ⟨.refl d s, rfl, (List.append_nil _).symm, fun q => (if_neg (by omega)).symm⟩

theorem queueTier (h : PinRun s d p g i items t) (item : TierItem) : PinRun s d p g i (items ++ [item]) (t.queueTier d item) where
  step := h.step.trans (.queueTier ..)
  latch := h.latch
  queue := by rw [queueTier_tir, h.queue, List.append_assoc]
  entry q := (queueTier_entry ..).trans (h.entry q)

/-- The page after the run is as it was. -/
theorem entry_next (h : PinRun s d p g i items t) : (t.dom d).entry (p + i) = (s.dom d).entry (p + i) :=
  (h.entry _).trans (if_neg (by omega))

theorem setPin (h : PinRun s d p g i items t) :
    PinRun s d p g (i + 1) items (t.setPin d (p + i) (g ((s.dom d).entry (p + i)).pin)) where
  step := h.step.trans (.setPin ..)
  latch := h.latch
  queue := by
    rw [State.setPin, dom_updDom_self]
    exact h.queue
  entry q := by
    rw [State.setPin, dom_updDom_self, entry_putEntry, h.entry_next, h.entry q]
    by_cases hq : q = p + i
    · subst hq
      rw [if_pos rfl, if_pos (by omega)]
    · rw [if_neg hq]
      exact if_congr (by omega) rfl rfl

/-- Neither a pin nor a move that is queued changes the state of a page. -/
theorem pageState (h : PinRun s d p g i items t) (q : Nat) : (t.pageEntry d q).state = (s.pageEntry d q).state := by
  refine pageState_congr ?_ fun e r => ?_
  · rw [h.entry]
    split <;> rfl
  · by_cases he : e = d
    · rw [he, h.entry]
      split <;> rfl
    · rw [h.step.entry_ne he]

end PinRun

/-- PIN refuses a page whose PIN is at its largest. -/
def pinRefuses (s : State) (d q : Nat) : Option Nat := if ((s.dom d).entry q).pin = 255 then some 0x05 else none

/-- UNPIN refuses a page that is not pinned. -/
def unpinRefuses (s : State) (d q : Nat) : Option Nat := if ((s.dom d).entry q).pin = 0 then some 0x0A else none

/-- PIN moves up a page that is not STACKED. -/
def pinWanted (s : State) (d q : Nat) : Bool := (s.pageEntry d q).state != .stacked

theorem pinPage_eq (s : State) (d q : Nat) : s.pinPage d q =
    if ((s.dom d).entry q).pin = 255 then (s, 0x05)
    else (if pinWanted s d q then (s.setPin d q (((s.dom d).entry q).pin + 1)).queueTier d (.up q)
      else s.setPin d q (((s.dom d).entry q).pin + 1), 0x01) := by
  unfold State.pinPage pinWanted
  dsimp only
  rw [pageEntry_pin]
  cases (s.pageEntry d q).state <;> rfl

theorem unpinPage_eq (s : State) (d q : Nat) : s.unpinPage d q =
    if ((s.dom d).entry q).pin = 0 then (s, 0x0A) else (s.setPin d q (((s.dom d).entry q).pin - 1), 0x00) := by
  unfold State.unpinPage
  dsimp only
  rw [pageEntry_pin]

/-- The pins of i pages from p have moved, a move up of each that the command moves is queued, and the status so far is ok where there is one. -/
def CountedRun (s : State) (d p : Nat) (g : Nat → Nat) (wants : Nat → Bool) (ok i k : Nat) (t : State) : Prop :=
  PinRun s d p g i ((movesOf wants p i).map .up) t ∧ k = min i ok

/-- A command that moves the pin of each page that it does not refuse. -/
theorem tierPages_counts {s : State} {d p n m st ok : Nat} {act : State → Nat → State × Nat} {refuses : Nat → Option Nat} {g : Nat → Nat}
    {wants : Nat → Bool} (hn : n ≠ 0) (hok : ok ≤ 1) (hrun : PageRun (pageFails s d refuses) p n m st)
    (hgoes : ∀ i items t, PinRun s d p g i items t → refuses (p + i) = none → act t (p + i) =
      (if wants (p + i) then (t.setPin d (p + i) (g ((s.dom d).entry (p + i)).pin)).queueTier d (.up (p + i))
        else t.setPin d (p + i) (g ((s.dom d).entry (p + i)).pin), ok))
    (hstops : ∀ i items t st, PinRun s d p g i items t → refuses (p + i) = some st → act t (p + i) = (t, st) ∧ 1 < st) :
    ∃ t, s.tierPages d act n p 0 0 = (t, if m = n then ok else st, m) ∧ PinRun s d p g m ((movesOf wants p m).map .up) t := by
  have hrange : ∀ i k t, CountedRun s d p g wants ok i k t → ∀ q, t.pageInRange d q = s.pageInRange d q :=
    fun i k t h => h.1.step.pageInRange
  have hnext : ∀ i k t, CountedRun s d p g wants ok i k t → refuses (p + i) = none →
      ∃ u o, act t (p + i) = (u, o) ∧ o ≤ 1 ∧ CountedRun s d p g wants ok (i + 1) (max k o) u := by
    rintro i k t ⟨ht, rfl⟩ hgood
    refine ⟨_, _, hgoes i _ t ht hgood, hok, ?_, by omega⟩
    rw [movesOf_succ, List.map_append]
    cases wants (p + i) with
    | true => exact ht.setPin.queueTier _
    | false =>
      rw [if_neg Bool.false_ne_true, if_neg Bool.false_ne_true, List.map_nil, List.append_nil]
      exact ht.setPin
  have hstop : ∀ i k t st, CountedRun s d p g wants ok i k t → refuses (p + i) = some st → act t (p + i) = (t, st) ∧ 1 < st :=
    fun i k t st h => hstops i _ t st h.1
  obtain ⟨t, k, hpages, ht, rfl⟩ := tierPages_run hrun hrange hnext hstop ⟨.refl .., (Nat.zero_min ok).symm⟩
  refine ⟨t, ?_, ht⟩
  rw [hpages]
  split
  · next hmn => rw [hmn, Nat.min_eq_right (hok.trans (Nat.one_le_iff_ne_zero.2 hn))]
  · rfl

section Pins

variable {s : State} {d p n m st : Nat} (hn : n ≠ 0)
include hn

theorem pin_pages (hrun : PageRun (pageFails s d (pinRefuses s d)) p n m st) :
    ∃ t, s.tierPages d (fun t q => t.pinPage d q) n p 0 0 = (t, if m = n then 0x01 else st, m) ∧
      PinRun s d p (· + 1) m ((movesOf (pinWanted s d) p m).map .up) t := by
  refine tierPages_counts hn (Nat.le_refl 1) hrun (fun i items t ht hgood => ?_) (fun i items t st ht hbad => ?_)
  · have hwanted : pinWanted t d (p + i) = pinWanted s d (p + i) := by unfold pinWanted; rw [ht.pageState]
    rw [pinPage_eq, ht.entry_next, hwanted, if_neg fun hbad => absurd ((if_pos hbad).symm.trans hgood) nofun]
  · unfold pinRefuses at hbad
    split_ifs at hbad with hmax
    cases hbad
    rw [pinPage_eq, ht.entry_next, if_pos hmax]
    exact ⟨rfl, by decide⟩

theorem unpin_pages (hrun : PageRun (pageFails s d (unpinRefuses s d)) p n m st) :
    ∃ t, s.tierPages d (fun t q => t.unpinPage d q) n p 0 0 = (t, if m = n then 0x00 else st, m) ∧
      PinRun s d p (· - 1) m [] t := by
  have hnone : movesOf (fun _ => false) p m = [] := List.filter_false _
  suffices hcounts : ∃ t, s.tierPages d (fun t q => t.unpinPage d q) n p 0 0 = (t, if m = n then 0x00 else st, m) ∧
      PinRun s d p (· - 1) m ((movesOf (fun _ => false) p m).map .up) t by rwa [hnone] at hcounts
  refine tierPages_counts hn (Nat.zero_le 1) hrun (fun i items t ht hgood => ?_) (fun i items t st ht hbad => ?_)
  · rw [unpinPage_eq, ht.entry_next, if_neg fun hbad => absurd ((if_pos hbad).symm.trans hgood) nofun]
    rfl
  · unfold unpinRefuses at hbad
    split_ifs at hbad with hzero
    cases hbad
    rw [unpinPage_eq, ht.entry_next, if_pos hzero]
    exact ⟨rfl, by decide⟩

end Pins

/-! ## The statements on runs of pages -/

theorem postResult_entry (s : State) (c p r e q : Nat) : ((s.postResult c p r).dom e).entry q = (s.dom e).entry q := by
  unfold Dom.entry Dom.bornStacked
  rw [postResult_dom_tir, postResult_dom_rec_, postResult_dom_quota0]

/-- What PIN and UNPIN leave once posted. -/
theorem PinRun.leaves {s t : State} {v : View} {p m : Nat} {g : Nat → Nat} {items : List TierItem}
    (h : PinRun s (s.viewDom v pTir) p g m items t) (st op done : Nat) :
    let d := s.viewDom v pTir
    let u := tirPosted t (s.viewCopy v pTir) st op done
    Leaves s u v pTir (tirWord st op done) ∧ u.atLatch = s.atLatch ∧ (u.dom d).tir.queue = (s.dom d).tir.queue ++ items ∧
      ∀ q, (u.dom d).entry q =
        if p ≤ q ∧ q < p + m then { (s.dom d).entry q with pin := g ((s.dom d).entry q).pin } else (s.dom d).entry q := by
  refine ⟨h.step.leaves .., (postResult_atLatch ..).trans h.latch, ?_, fun q => (postResult_entry ..).trans (h.entry q)⟩
  rw [postResult_dom_tir, h.queue]

/-- Settles O20: each command by what it makes of the run of pages that it does not refuse. -/
theorem tierCommandsQueueMoves : Obligations.TierCommandsQueueMoves := by
  unfold Obligations.TierCommandsQueueMoves
  intro s v posted page count m st h hc d x p n frame state ups downs
  have hn : n ≠ 0 := fun h0 => hc (BitVec.eq_of_toNat_eq h0)
  refine ⟨fun hrun => ?moveUp, fun hrun => ?evict, fun hrun => ?discard, fun hv hrun => ?relocate⟩
  case moveUp =>
    rw [moveUpFails_eq] at hrun
    exact ⟨_, congrArg Host.Outcome.next (tirCmd_answers h 1 hn (moveUp_pages hrun)), queued_leaves ..⟩
  case evict => exact ⟨_, congrArg Host.Outcome.next (tirCmd_answers h 2 hn (evict_pages hrun)), queued_leaves ..⟩
  case discard =>
    exact ⟨_, congrArg Host.Outcome.next (tirCmd_answers h 6 hn (discard_pages hn hrun)), (deferred_step ..).leaves .., postResult_atLatch ..,
      postResult_dom_tir ..⟩
  case relocate =>
    have hact : ∀ t q, t = s ∨ t = relocated s d p frame →
        (if isPf v then t.relocatePage d q (t.arg (t.viewCopy v pTir) pTir 0 % 2 ^ 18) else (t, 0x0E)) = t.relocatePage d q frame := by
      rintro t q (rfl | rfl) <;> exact if_pos hv
    obtain ⟨t, hpages, hend⟩ := relocate_pages hn hact hrun
    refine ⟨_, congrArg Host.Outcome.next (tirCmd_answers h 7 hn hpages), ?_⟩
    rw [postResult_atLatch, postResult_dom_tir]
    obtain ⟨rfl, rfl⟩ | ⟨rfl, rfl⟩ := hend
    · exact ⟨(TierStep.refl d t).leaves .., (List.append_nil _).symm, rfl⟩
    · exact ⟨(relocated_step ..).leaves .., rfl, relocated_tir ..⟩

/-- Settles O21: the pages of the run are counted one by one, and a pin changes the state of none. -/
theorem pinAndUnpinCountPages : Obligations.PinAndUnpinCountPages := by
  unfold Obligations.PinAndUnpinCountPages
  intro s v posted page count m st h hc d x p n ups
  have hn : n ≠ 0 := fun h0 => hc (BitVec.eq_of_toNat_eq h0)
  refine ⟨fun hrun => ?pin, fun hrun => ?unpin⟩
  case pin =>
    obtain ⟨t, hpages, ht⟩ := pin_pages hn hrun
    exact ⟨_, congrArg Host.Outcome.next (tirCmd_answers h 3 hn hpages), ht.leaves ..⟩
  case unpin =>
    obtain ⟨t, hpages, ht⟩ := unpin_pages hn hrun
    obtain ⟨hleaves, hlatch, hqueue, hentry⟩ := ht.leaves (if m = n then 0x00 else st) 4 m
    exact ⟨_, congrArg Host.Outcome.next (tirCmd_answers h 4 hn hpages), hleaves, hlatch, hqueue.trans (List.append_nil _), hentry⟩

/-! ## QUERY (R288, R290) -/

theorem pageWord_lt (s : State) (d p : Nat) (pf : Bool) : s.pageWord d p pf < 2 ^ 64 := by
  unfold State.pageWord
  simp only [fld, Nat.shiftLeft_eq]
  split <;> omega

/-- The state with the word of a page in the first argument register. -/
def pageQueried (s : State) (c w : Nat) : State := s.putArg c pTir 0 (w64 w)

theorem pageQueried_leaves (s : State) (v : View) (w st op done : Nat) :
    Leaves s (tirPosted (pageQueried s (s.viewCopy v pTir) w) (s.viewCopy v pTir) st op done) v pTir (tirWord st op done) :=
  leaves_postResult (.of_frame _ (fr_putArg (fr_refl [.pairs] s) _ _ _ _ (by decide)) (by decide)) (onlyPair_putArg s _ _ _ _) _

theorem exec_tirQuery_answers {s : State} {v : View} {posted : Bool} {page : BitVec 27} (h : Ready s v pTir posted)
    (hin : s.pageInRange (s.viewDom v pTir) page.toNat = true) :
    exec (.tirQuery v posted page 1 0) s =
      .next (tirPosted (pageQueried s (s.viewCopy v pTir) (s.pageWord (s.viewDom v pTir) page.toNat (isPf v))) (s.viewCopy v pTir) 0x00 5 1) := by
  refine congrArg Host.Outcome.next ((runCmd_ready h _).trans ?_)
  simp [hin, pageQueried]

/-! ## FLUSH_EXTENT (R290, R303) -/

/-- The state with a Flush of a domain's extent pending, which waits for the evictions that stand. -/
def flushPending (s : State) (d : Nat) : State :=
  s.updDom d (fun y => { y with tir := { y.tir with flushWait := some (s.evicting d), flushIssued := false, flushRetried := false } })

/-- What FLUSH_EXTENT without reserved bits answers and leaves. -/
def flushAnswer (s : State) (d : Nat) : State × Nat :=
  if (s.dom d).rec_.ns = 0 then (s, tirWord 0x0E 8 0)
  else if (s.dom d).tir.flushWait.isSome then (s, tirWord 0x08 8 0)
  else (flushPending s d, tirWord 0x01 8 0)

theorem exec_flushExtent_answers {s : State} {v : View} {posted : Bool} (h : Ready s v pTir posted) :
    exec (.flushExtent v posted 0 0 0) s =
      .next ((flushAnswer s (s.viewDom v pTir)).1.postResult (s.viewCopy v pTir) pTir (flushAnswer s (s.viewDom v pTir)).2) :=
  congrArg Host.Outcome.next (runCmd_ready h _)

theorem flushPending_leaves (s : State) (v : View) :
    Leaves s (tirPosted (flushPending s (s.viewDom v pTir)) (s.viewCopy v pTir) 0x01 8 0) v pTir (tirWord 0x01 8 0) :=
  postResult_leaves (.updDom ..) rfl ..

theorem flushPending_tir (s : State) (d : Nat) : ((flushPending s d).dom d).tir =
    { (s.dom d).tir with flushWait := some (s.evicting d), flushIssued := false, flushRetried := false } := by
  rw [flushPending, dom_updDom_self]

/-- Settles O22: QUERY by the word that it puts, FLUSH_EXTENT by what it finds of the domain's extent and of a Flush before it. -/
theorem tirQueryAndFlushExtent : Obligations.TirQueryAndFlushExtent := by
  unfold Obligations.TirQueryAndFlushExtent
  intro s v posted page h d c x p e home
  refine ⟨fun hin => ?query, ?flush⟩
  case query =>
    refine ⟨_, exec_tirQuery_answers h hin, pageQueried_leaves .., postResult_dom_tir .., ?_, fun i h1 h8 => ?_⟩
    · exact (arg_postResult ..).trans ((arg_putArg _ _ _ _ _ _ (by decide)).trans (w64_toNat (pageWord_lt ..)))
    · exact (arg_postResult ..).trans ((arg_putArg _ _ _ _ _ _ h8).trans (if_neg (by omega)))
  case flush =>
    refine ⟨_, exec_flushExtent_answers h, ?_⟩
    rw [postResult_atLatch, postResult_dom_tir]
    unfold flushAnswer
    by_cases hns : x.rec_.ns = 0
    · rw [if_pos hns]
      exact ⟨rfl, fun _ => ⟨postResult_leaves (.refl d s) rfl .., rfl⟩, fun hn => absurd hns hn, fun hn => absurd hns hn⟩
    · rw [if_neg hns]
      by_cases hwait : x.tir.flushWait.isSome = true
      · rw [if_pos hwait]
        refine ⟨rfl, fun h0 => absurd h0 hns, fun _ _ => ⟨postResult_leaves (.refl d s) rfl .., rfl⟩, fun _ hnone => ?_⟩
        rw [hnone] at hwait
        cases hwait
      · rw [if_neg hwait]
        exact ⟨rfl, fun h0 => absurd h0 hns, fun _ hsome => absurd hsome hwait, fun _ _ => ⟨flushPending_leaves .., flushPending_tir ..⟩⟩

end Sys2Proof.Proofs

/-! The steps of bring-up (R302, R432, R436 to R438, R447, R449, R506, R507, R513): the stacks that fail their training, the two image slots, the wipe, the release of firmware and the PF's first answer. From them the statement on bring-up. -/

namespace Sys2Proof.Proofs

open Sys2Proof.Machine Sys2Proof.Safety Sys2Proof.Laws

/-! ## Channels train (R506, R507) -/

/-- The state with a failed channel on each stack of a list. -/
def stacksFail (s : State) (ks : List Nat) : State := ks.foldl (fun t k => t.channelFails k) s

section StacksFail

variable (s : State) (ks : List Nat)

theorem stacksFail_frame : Frame (withEvents [.mbds]) s (stacksFail s ks) :=
  fr_foldl _ (fun t k h => fr_trans h (stackStep_channelFails t k).frame) ks (fr_refl _ s)

theorem stacksFail_stays : EventsStay s (stacksFail s ks) :=
  foldl_keeps (EventsStay s) _ (fun t k h => eventsStay_trans h (stackStep_channelFails t k).stays) ks (eventsStay_refl s)

theorem stacksFail_mbd (k : Nat) : (stacksFail s ks).mbd k = if k ∈ ks then { s.mbd k with failed := true } else s.mbd k := by
  induction ks generalizing s with
  | nil => rfl
  | cons j r ih =>
    rw [stacksFail, List.foldl_cons, ← stacksFail, ih]
    by_cases hj : k = j
    · subst hj
      rw [channelFails_mbd, if_pos (List.mem_cons_self ..)]
      split <;> rfl
    · rw [(stackStep_channelFails s j).only k hj]
      exact if_congr (by simp [hj]) rfl rfl

theorem stacksFail_event {k : Nat} (hk : k ∈ ks) : EventIn (stacksFail s ks) (s.devCopies (pMem k) 8) (pMem k) 8 := by
  induction ks generalizing s with
  | nil => cases hk
  | cons j r ih =>
    rcases List.mem_cons.1 hk with rfl | hr
    · exact eventIn_of_stays (stacksFail_stays (s.channelFails k) r) (channelFails_event s k)
    · rw [← (stackStep_channelFails s j).devCopies]
      exact ih (s.channelFails j) hr

end StacksFail

/-- The stacks with a failed channel, each once. -/
def failedOf (failed : List (Fin 8 × Fin 32)) : List Nat := (failed.map (fun p => p.1.val)).foldl numAdd []

theorem mem_failedOf (failed : List (Fin 8 × Fin 32)) (k : Nat) : k ∈ failedOf failed ↔ ∃ p ∈ failed, p.1.val = k := by
  rw [failedOf, mem_foldl_numAdd, List.mem_map]
  exact or_iff_right (List.not_mem_nil)

theorem failedOf_ne_nil {failed : List (Fin 8 × Fin 32)} (h : failed ≠ []) : failedOf failed ≠ [] := by
  obtain ⟨p, r, rfl⟩ := List.exists_cons_of_ne_nil h
  exact List.ne_nil_of_mem ((mem_failedOf _ _).2 ⟨p, List.mem_cons_self .., rfl⟩)

/-- The state with the channels trained. -/
def trained (s : State) (failed : List (Fin 8 × Fin 32)) : State :=
  s.updBoot (fun b => { b with mbdTrained := true, failedStacks := failedOf failed })

theorem exec_mbdTrainingDone {s : State} (hp : s.boot.phase = .bringUp) {failed : List (Fin 8 × Fin 32)} (h : s.boot.mbdTrained = false) :
    exec (.mbdTrainingDone failed) s = .next (if (failedOf failed).isEmpty then trained s failed
      else stacksFail { trained s failed with freeFrames := 0 } (failedOf failed)) :=
  congrArg Host.Outcome.next (if_pos (by simp [hp, h]))

theorem mbdTrainingDone_leaves {s : State} (hp : s.boot.phase = .bringUp) {failed : List (Fin 8 × Fin 32)} (h : s.boot.mbdTrained = false) :
    ∃ t, exec (.mbdTrainingDone failed) s = .next t ∧ t.boot.mbdTrained = true ∧
      (∀ k, k ∈ t.boot.failedStacks ↔ ∃ p ∈ failed, p.1.val = k) ∧ t.freeFrames = (if failed = [] then s.freeFrames else 0) ∧
      (∀ p ∈ failed, (t.mbd p.1).failed = true ∧ EventIn t (s.devCopies (pMem p.1) 8) (pMem p.1) 8) ∧
      ∀ k, (∀ p ∈ failed, p.1.val ≠ k) → t.mbd k = s.mbd k := by
  refine ⟨_, exec_mbdTrainingDone hp h, ?_⟩
  by_cases hf : failed = []
  · subst hf
    exact ⟨rfl, mem_failedOf [], rfl, nofun, fun _ _ => rfl⟩
  · rw [if_neg (by simpa using failedOf_ne_nil hf), if_neg hf]
    obtain ⟨-, -, hkept⟩ := stacksFail_frame { trained s failed with freeFrames := 0 } (failedOf failed)
    have hboot : (stacksFail { trained s failed with freeFrames := 0 } (failedOf failed)).boot = (trained s failed).boot := hkept .boot (by decide)
    refine ⟨by rw [hboot]; rfl, fun k => ?_, hkept .freeFrames (by decide), fun p hpf => ?_, fun k hk => ?_⟩
    · rw [hboot]
      exact mem_failedOf failed k
    · have hmem : p.1.val ∈ failedOf failed := (mem_failedOf ..).2 ⟨p, hpf, rfl⟩
      exact ⟨by rw [stacksFail_mbd, if_pos hmem], stacksFail_event _ _ hmem⟩
    · rw [stacksFail_mbd, if_neg fun hmem => ?_]
      · rfl
      · obtain ⟨p, hpf, hpk⟩ := (mem_failedOf ..).1 hmem
        exact hk p hpf hpk

/-! ## Image slots (R432, R436) -/

/-- What the ROM keeps of an image slot that it has tried. -/
def imageTried (b : BootState) (slot : Fin 2) (ok : Bool) (svn : Nat) (digest : List Byte) : BootState :=
  let verdict : SlotVerdict := if ok then .accepted else .refused
  let b1 := if slot.val = 0 then { b with slot0 := verdict } else { b with slot1 := verdict }
  if ok then { b1 with fwSvn := svn, fwDigest := digest, bootSecondary := slot.val == 1 } else { b1 with bootFailed := slot.val == 1 }

theorem imageTried_accepted (b : BootState) (slot : Fin 2) (svn : Nat) (digest : List Byte) :
    (if slot = 0 then (imageTried b slot true svn digest).slot0 else (imageTried b slot true svn digest).slot1) = .accepted ∧
      (imageTried b slot true svn digest).fwSvn = svn ∧ (imageTried b slot true svn digest).fwDigest = digest ∧
      ((imageTried b slot true svn digest).bootSecondary = true ↔ slot = 1) := by
  match slot with
  | 0 => exact ⟨rfl, rfl, rfl, nofun, nofun⟩
  | 1 => exact ⟨rfl, rfl, rfl, fun _ => rfl, fun _ => rfl⟩

theorem imageTried_refused (b : BootState) (slot : Fin 2) (svn : Nat) (digest : List Byte) :
    (if slot = 0 then (imageTried b slot false svn digest).slot0 else (imageTried b slot false svn digest).slot1) = .refused ∧
      (imageTried b slot false svn digest).fwSvn = b.fwSvn ∧ ((imageTried b slot false svn digest).bootFailed = true ↔ slot = 1) := by
  match slot with
  | 0 => exact ⟨rfl, rfl, nofun, nofun⟩
  | 1 => exact ⟨rfl, rfl, fun _ => rfl, fun _ => rfl⟩

/-- An image slot is tried in its turn: slot 0 first, slot 1 once slot 0 is refused. -/
def SlotDue (b : BootState) (slot : Fin 2) : Prop := (slot = 0 ∧ b.slot0 = .untried) ∨ (slot = 1 ∧ b.slot0 = .refused ∧ b.slot1 = .untried)

theorem exec_imageVerifyDone {s : State} (hp : s.boot.phase = .bringUp) {slot : Fin 2} {magic : W32}
    {format keyIndex svn bodyLen : Nat} {digestOk rsaOk slhOk : Bool} {digest : List Byte} {ok : Bool} (hlife : s.fuses.life ≠ .retired) (hdue : SlotDue s.boot slot)
    (hok : s.imageOk magic format keyIndex svn bodyLen digestOk rsaOk slhOk = ok) :
    exec (.imageVerifyDone slot magic format keyIndex svn bodyLen digestOk rsaOk slhOk digest) s =
      .next (s.updBoot fun b => imageTried b slot ok svn digest) := by
  subst hok
  refine congrArg Host.Outcome.next (if_pos ?_)
  obtain ⟨rfl, h0⟩ | ⟨rfl, h0, h1⟩ := hdue
  · simp [hp, hlife, h0]
  · simp [hp, hlife, h0, h1]

/-! ## The wipe of the device ends (R447, R449, R507) -/

theorem withholdFrames_boot (s : State) (frames units : List Nat) :
    (s.withholdFrames frames units).boot = { s.boot with badUnits := units.foldl numAdd s.boot.badUnits } := by
  unfold State.withholdFrames
  split
  · next h => rw [List.isEmpty_iff.1 h.2]; rfl
  · rw [raiseDev_boot]; rfl

theorem withholdFrames_ful (s : State) (frames units : List Nat) :
    (s.withholdFrames frames units).ful = { s.ful with withheld := frames.foldl numAdd s.ful.withheld } := by
  unfold State.withholdFrames
  split
  · next h => rw [List.isEmpty_iff.1 h.1]; rfl
  · rw [raiseDev_ful]; rfl

theorem withholdFrames_freeFrames (s : State) (frames units : List Nat) : (s.withholdFrames frames units).freeFrames = s.freeFrames :=
  (fr_withholdFrames (fr_refl _ s) frames units fun _ h => h).kept .freeFrames (by decide)

/-- Frames or units that fail are told of, and the frames counted. -/
theorem withholdFrames_told {s : State} {frames units : List Nat} (h : frames ≠ [] ∨ units ≠ []) :
    EventIn (s.withholdFrames frames units) (s.devCopies pFul 1) pFul 1 ∧
      (s.withholdFrames frames units).counter dev pFul 2 = s.counter dev pFul 2 + w64 frames.length := by
  have hsome : ¬ (frames.isEmpty = true ∧ units.isEmpty = true) := fun ⟨hf, hu⟩ =>
    h.elim (· (List.isEmpty_iff.1 hf)) (· (List.isEmpty_iff.1 hu))
  unfold State.withholdFrames
  rw [if_neg hsome]
  refine ⟨raiseDev_eventIn (devCopies_of_doms rfl ..) (by decide), ?_⟩
  rw [counter_raiseDev _ _ _ (by unfold Untraced counterKey dev pFul pDbg; omega), counter_bump_self]
  rfl

/-- The state with the wipe of the device over. -/
def deviceWiped (s : State) (nowNs : Nat) : State :=
  ((s.atTime nowNs).updBoot (fun b => { b with wiped := true })).updFul (fun f => { f with full := false, lastNs := nowNs - f.wipeStartNs })

theorem exec_deviceWipeEnd {s : State} (hp : s.boot.phase = .bringUp) {frames units : List Nat} {nowNs : Nat}
    (ht : s.boot.mbdTrained = true) (hw : s.boot.wiped = false) :
    exec (.deviceWipeEnd frames units nowNs) s =
      .next { (deviceWiped s nowNs).withholdFrames frames units with
        freeFrames := ((deviceWiped s nowNs).withholdFrames frames units).freeFrames - frames.length } :=
  congrArg Host.Outcome.next (if_pos (by simp [hp, ht, hw]))

theorem deviceWipeEnd_leaves {s : State} (hp : s.boot.phase = .bringUp) {frames units : List Nat} {nowNs : Nat}
    (ht : s.boot.mbdTrained = true) (hw : s.boot.wiped = false) :
    ∃ t, exec (.deviceWipeEnd frames units nowNs) s = .next t ∧ t.boot.wiped = true ∧ t.ful.full = false ∧
      t.ful.lastNs = nowNs - s.ful.wipeStartNs ∧ t.freeFrames = s.freeFrames - frames.length ∧
      (∀ u, u ∈ t.boot.badUnits ↔ u ∈ s.boot.badUnits ∨ u ∈ units) ∧ (∀ f, f ∈ t.ful.withheld ↔ f ∈ s.ful.withheld ∨ f ∈ frames) ∧
      (frames ≠ [] ∨ units ≠ [] → EventIn t (s.devCopies pFul 1) pFul 1 ∧
        t.counter dev pFul 2 = s.counter dev pFul 2 + w64 frames.length) := by
  have hboot := withholdFrames_boot (deviceWiped s nowNs) frames units
  have hful := withholdFrames_ful (deviceWiped s nowNs) frames units
  refine ⟨_, exec_deviceWipeEnd hp ht hw, ?_, ?_, ?_, ?_, fun u => ?_, fun f => ?_, fun h => ?_⟩
  · exact congrArg BootState.wiped hboot
  · exact congrArg FulState.full hful
  · exact congrArg FulState.lastNs hful
  · exact congrArg (· - frames.length) (withholdFrames_freeFrames ..)
  · rw [hboot]
    exact mem_foldl_numAdd ..
  · rw [hful]
    exact mem_foldl_numAdd ..
  · obtain ⟨hevent, hcount⟩ := withholdFrames_told (s := deviceWiped s nowNs) h
    have hviews : (deviceWiped s nowNs).devCopies pFul 1 = s.devCopies pFul 1 := devCopies_of_doms rfl ..
    exact ⟨hviews ▸ hevent, hcount⟩

/-! ## Firmware is released (R302, R437, R438, R506) -/

/-- The fuses with the key pairs of a first boot made for a measurement, on a unit that has its UDS. -/
def keysMade (f : Fuses) (m : List Byte) : Fuses :=
  if f.udsPresent then
    { f with aliasFor := if f.aliasFor.contains m then f.aliasFor else f.aliasFor ++ [m],
             deviceIdFor := if f.deviceIdFor.contains f.life then f.deviceIdFor else f.deviceIdFor ++ [f.life] }
  else f

theorem mem_added {α : Type} [BEq α] [LawfulBEq α] (l : List α) (a : α) : a ∈ if l.contains a then l else l ++ [a] := by
  split
  · next h => exact List.contains_iff_mem.1 h
  · exact List.mem_append_right _ (List.mem_singleton_self a)

theorem keysMade_made {f : Fuses} (h : f.udsPresent = true) (m : List Byte) :
    m ∈ (keysMade f m).aliasFor ∧ f.life ∈ (keysMade f m).deviceIdFor := by
  rw [keysMade, if_pos h]
  exact ⟨mem_added .., mem_added ..⟩

theorem keysMade_certs (f : Fuses) (m : List Byte) : (keysMade f m).certs = f.certs ∧ (keysMade f m).certifiedFor = f.certifiedFor := by
  unfold keysMade
  split <;> exact ⟨rfl, rfl⟩

theorem exec_firmwareRelease {s : State} (hp : s.boot.phase = .bringUp) (hw : s.boot.wiped = true) (hr : s.boot.fwReleased = false)
    (ha : s.boot.slot0 = .accepted ∨ s.boot.slot1 = .accepted) :
    exec .firmwareRelease s = .next (((s.updBoot (fun b => { b with fwReleased := true, nvPerstN := true })).updFuses
      (keysMade · s.measurement)).emit (.pin 3 true)) :=
  congrArg Host.Outcome.next (if_pos (by simp [hp, hw, hr, ha]))

/-! ## The PF answers (R432, R506, R507, R513) -/

/-- A device event, where a condition holds. -/
def raisedIf (c : Prop) [Decidable c] (s : State) (page bit : Nat) : State := if c then s.raiseDev page bit else s

section RaisedIf

variable (c : Prop) [Decidable c] (s : State) (page bit : Nat)

theorem raisedIf_frame : Frame (withEvents []) s (raisedIf c s page bit) := by
  unfold raisedIf
  split
  · exact fr_raiseDev (fr_refl _ s) page bit (by decide)
  · exact fr_refl _ s

theorem raisedIf_stays : EventsStay s (raisedIf c s page bit) := by
  unfold raisedIf
  split
  · exact eventsStay_raiseDev s page bit
  · exact eventsStay_refl s

theorem raisedIf_outGrows : OutGrows s (raisedIf c s page bit) := by
  unfold raisedIf
  split
  · exact outGrows_raiseDev s page bit
  · exact outGrows_refl s

theorem raisedIf_event {c : Prop} [Decidable c] (hc : c) (hb : bit < 32) : EventIn (raisedIf c s page bit) (s.devCopies page bit) page bit := by
  unfold raisedIf
  rw [if_pos hc]
  exact raiseDev_eventIn rfl hb

end RaisedIf

/-- The state with the cause of the reset reported. -/
def causeReported (s : State) (nowNs : Nat) : State := (s.atTime nowNs).emit (.pldm s.boot.resetCause 0)

/-- The state with the PF answering in a phase. -/
def answering (s : State) (nowNs : Nat) (phase : BootPhase) : State :=
  (causeReported s nowNs).updBoot (fun b => { b with phase := phase, causeKept := true })

/-- A link of the drives that the present bifurcation uses has not trained. -/
abbrev LinkMissing (s : State) : Prop := s.nvm.link0.1 = 0 ∨ (s.nvm.bifur = true ∧ s.nvm.link1.1 = 0)

/-- The running device, with an image of slot 1 and a link that has not trained told of. -/
def runningTold (s : State) (nowNs : Nat) : State :=
  raisedIf (LinkMissing s) (raisedIf (s.boot.bootSecondary = true) (answering s nowNs .running) pLks 4) pNvm 0

theorem exec_pfReady_running {s : State} (hp : s.boot.phase = .bringUp) {nowNs : Nat} (h : s.boot.fwReleased = true) :
    exec (.pfReady nowNs) s = .next (runningTold s nowNs) :=
  congrArg Host.Outcome.next ((if_neg (by simp [hp])).trans (if_pos h))

theorem pfReady_running {s : State} (hp : s.boot.phase = .bringUp) {nowNs : Nat} (h : s.boot.fwReleased = true) :
    ∃ t, exec (.pfReady nowNs) s = .next t ∧ t.boot.phase = .running ∧ .pldm s.boot.resetCause 0 ∈ t.out ∧
      (s.boot.bootSecondary = true → EventIn t (s.devCopies pLks 4) pLks 4) ∧ (LinkMissing s → EventIn t (s.devCopies pNvm 0) pNvm 0) := by
  have hsecond := raisedIf_frame (s.boot.bootSecondary = true) (answering s nowNs .running) pLks 4
  have hlink := raisedIf_frame (LinkMissing s) (raisedIf (s.boot.bootSecondary = true) (answering s nowNs .running) pLks 4) pNvm 0
  refine ⟨_, exec_pfReady_running hp h, ?_, ?_, fun hb => ?_, fun hl => ?_⟩
  · exact congrArg BootState.phase ((fr_trans hsecond hlink).kept .boot (by decide))
  · exact outGrows_mem (outGrows_trans (raisedIf_outGrows ..) (raisedIf_outGrows ..)) (List.mem_cons_self ..)
  · exact eventIn_of_stays (raisedIf_stays _ _ _ _) (raisedIf_event (answering s nowNs .running) pLks 4 hb (by decide))
  · have hviews := devCopies_of_frame hsecond (by decide) pNvm 0
    exact hviews ▸ raisedIf_event _ pNvm 0 hl (by decide)

theorem exec_pfReady_romOnly {s : State} (hp : s.boot.phase = .bringUp) {nowNs : Nat} (h : s.boot.fwReleased = false)
    (hf : s.boot.bootFailed = true) :
    exec (.pfReady nowNs) s = .next ((answering s nowNs .romOnly).emit (.pldm 0x0004 0)) :=
  congrArg Host.Outcome.next ((if_neg (by simp [hp])).trans ((if_neg (ne_true_of_eq_false h)).trans (if_pos hf)))

/-! ## The statement -/

/-- Settles O34: each step of bring-up by its lemma, an image slot by the verdict of R432. -/
theorem bringUpSteps : Obligations.BringUpSteps := by
  unfold Obligations.BringUpSteps
  intro s failed slot magic format keyIndex svn bodyLen nowNs digestOk rsaOk slhOk digest frames units hp
  refine ⟨mbdTrainingDone_leaves hp, ?image, deviceWipeEnd_leaves hp, ?release, pfReady_running hp, ?rom⟩
  case image =>
    intro good hlife hdue
    have hgood : s.imageOk magic format keyIndex svn bodyLen digestOk rsaOk slhOk = true ↔ good := by
      simp [State.imageOk, good, and_assoc]
    refine ⟨_, exec_imageVerifyDone hp hlife hdue rfl, fun h => ?_, fun h => ?_⟩
    · rw [hgood.2 h]
      exact imageTried_accepted s.boot slot svn digest
    · rw [Bool.eq_false_iff.2 (mt hgood.1 h)]
      exact imageTried_refused s.boot slot svn digest
  case release =>
    intro hw hr ha
    exact ⟨_, exec_firmwareRelease hp hw hr ha, rfl, rfl, rfl, fun h => keysMade_made h _, keysMade_certs ..⟩
  case rom =>
    intro h hf
    exact ⟨_, exec_pfReady_romOnly hp h hf, rfl, .head _, .tail _ (.head _)⟩

end Sys2Proof.Proofs

/-! The tick tree (R311, R312, R315, R390 to R392, R494, R509): what stands through the flits that leave and the choice of a parent, the best of the offers heard, the symbol that goes to every child, and the done token with the latest stamp. From them the statements on tick masters and on tokens and symbols. -/

namespace Sys2Proof.Proofs

open Sys2Proof.Machine Sys2Proof.Safety Sys2Proof.Laws

/-! ## Flits that leave (R367 to R371, R390) -/

/-- From s to t flits have left, and a parent may have been chosen: beside the ports' traffic and the place in the tree nothing else has changed, and what was put out stays out. -/
structure FlitsLeave (s t : State) : Prop where
  frame : Frame [.fab, .counters, .freeCtr, .out] s t
  self : t.fab.self = s.fab.self
  ports : ∀ p, portCore (t.port p) = portCore (s.port p)
  out : OutGrows s t
  counter : ∀ e g i, i % 8 ≠ 0 → t.counter e g i = s.counter e g i

namespace FlitsLeave

variable {s t u : State}

theorem refl (s : State) : FlitsLeave s s := ⟨fr_refl _ s, rfl, fun _ => rfl, outGrows_refl s, fun _ _ _ _ => rfl⟩

theorem trans (a : FlitsLeave s t) (b : FlitsLeave t u) : FlitsLeave s u :=
  ⟨fr_trans a.frame b.frame, b.self.trans a.self, fun p => (b.ports p).trans (a.ports p), outGrows_trans a.out b.out,
    fun e g i hi => (b.counter e g i hi).trans (a.counter e g i hi)⟩

theorem tik (h : FlitsLeave s t) : t.tik = s.tik := h.frame.kept .tik (by decide)

theorem foldl {α : Type} {f : State → α → State} (hf : ∀ t a, FlitsLeave t (f t a)) (l : List α) (s : State) : FlitsLeave s (l.foldl f s) :=
  foldl_keeps (FlitsLeave s) f (fun t a h => h.trans (hf t a)) l (refl s)

theorem emit (s : State) (o : Output) : FlitsLeave s (s.emit o) :=
  ⟨fr_emit (fr_refl _ s) o (by decide), rfl, fun _ => rfl, outGrows_emit s o, fun _ _ _ _ => rfl⟩

theorem updPort (s : State) (p : Nat) (f : PortStateRec → PortStateRec) (hf : portCore (f (s.port p)) = portCore (s.port p)) :
    FlitsLeave s (s.updPort p f) := by
  refine ⟨fr_updPort (fr_refl _ s) p f (by decide), rfl, fun q => ?_, outGrows_same rfl, fun _ _ _ _ => rfl⟩
  rw [State.updPort, port_putPort]
  split
  · next h => rw [hf, h]
  · rfl

theorem transmit (s : State) (p : Nat) (raw : List Byte) : FlitsLeave s (s.transmit p raw) := by
  refine ⟨fr_transmit (fr_refl _ s) p raw (by decide), rfl, fun q => ?_, ⟨[_], rfl⟩, fun e g i hi => counter_transmit s p raw hi⟩
  show portCore ((s.putPort p _).port q) = _
  rw [port_putPort]
  split
  · next h => rw [h]; rfl
  · rfl

theorem oweCredit (s : State) (p k : Nat) : FlitsLeave s (s.oweCredit p k) := updPort s p _ rfl

theorem pump (s : State) (p : Nat) : FlitsLeave s (s.pump p) := by
  unfold State.pump
  refine .trans (foldl_keeps (fun a : State × List (Nat × List Byte) => FlitsLeave s a.1) _ (fun a q ha => ?_) _ ?_) (updPort _ p _ rfl)
  case refine_2 => exact updPort s p (fun x => { x with waiting := [] }) rfl
  have hcredit : ∀ t : State, FlitsLeave s t → FlitsLeave s (t.transmit p q.2) := fun t ht => ht.trans (transmit t p q.2)
  have hsent := hcredit (if classOf q.1 / 65536 = 3 then a.1 else a.1.updPort p (fun x =>
    { x with credits := mapSet x.credits (classOf q.1) ((mapGet x.credits (classOf q.1)).getD 0 - 1) })) (by
      split
      · exact ha
      · exact ha.trans (updPort _ p _ rfl))
  dsimp only
  split
  · exact ha
  · split
    · exact hsent
    · exact hsent.trans (oweCredit ..)

theorem controlFlit (s : State) (p ftype : Nat) : FlitsLeave s (s.controlFlit p ftype) := by
  have hfree : FlitsLeave s s.takeFree.2 := ⟨fr_takeFree (fr_refl _ s) (by decide), rfl, fun _ => rfl, outGrows_same rfl, fun _ _ _ _ => rfl⟩
  exact hfree.trans ((updPort _ p _ rfl).trans (pump _ p))

/-- A flit with what it says. -/
theorem sayWith (s : State) (p ftype : Nat) (o : Output) : FlitsLeave s ((s.controlFlit p ftype).emit o) :=
  (controlFlit s p ftype).trans (emit _ o)

/-- The choice of a parent moves the place in the tree alone, and takes free values. -/
theorem chooseParent_moves (s : State) : ∃ parent depth changed n,
    s.chooseParent = { s with fab := { s.fab with parentPort := parent, depth := depth, portChanged := changed }, freeCtr := n } := by
  unfold State.chooseParent State.takeFree
  split
  · dsimp only
    split <;> exact ⟨_, _, _, _, rfl⟩
  · split
    · exact ⟨_, _, _, _, rfl⟩
    · split <;> exact ⟨_, _, _, _, rfl⟩

theorem chooseParent (s : State) : FlitsLeave s s.chooseParent := by
  have hframe := fr_chooseParent (fr_refl [.fab, .counters, .freeCtr, .out] s) (by decide)
  obtain ⟨parent, depth, changed, n, h⟩ := chooseParent_moves s
  rw [h] at hframe ⊢
  exact ⟨hframe, rfl, fun _ => rfl, outGrows_same rfl, fun _ _ _ _ => rfl⟩

end FlitsLeave

/-- What a flit of a run of flits says is put out. -/
theorem mem_out_foldl {α : Type} {f : State → α → State} (hf : ∀ t a, FlitsLeave t (f t a)) {a : α} {o : Output}
    (ho : ∀ t, o ∈ (f t a).out) {l : List α} (ha : a ∈ l) (s : State) : o ∈ (l.foldl f s).out :=
  foldl_establishes (fun t : State => o ∈ t.out) f (fun t b h => outGrows_mem (hf t b).out h) ho l s ha

/-! ## The children (R390) and what goes to them (R391) -/

theorem upPorts_congr {s t : State} (h : ∀ p, portCore (t.port p) = portCore (s.port p)) (dir : Nat) : t.upPorts dir = s.upPorts dir := by
  unfold State.upPorts
  have hstate : ∀ p, (t.port p).state = (s.port p).state := fun p => (congrArg PortStateRec.state (h p) :)
  have hstalled : ∀ p, (t.port p).rekeyStalled = (s.port p).rekeyStalled := fun p => (congrArg PortStateRec.rekeyStalled (h p) :)
  simp only [hstate, hstalled]

/-- The children are the same while the master, the device's address and the ports beside their traffic are. -/
theorem childPorts_congr {s t : State} (hm : t.tik.master = s.tik.master) (hs : t.fab.self = s.fab.self)
    (hp : ∀ p, portCore (t.port p) = portCore (s.port p)) : t.childPorts = s.childPorts := by
  unfold State.childPorts
  simp only [hm, hs, upPorts_congr hp]

theorem FlitsLeave.childPorts {s t : State} (h : FlitsLeave s t) : t.childPorts = s.childPorts :=
  childPorts_congr (congrArg TikState.master h.tik) h.self h.ports

theorem sendTick_leaves (s : State) (sym : TickSymbol) : FlitsLeave s (s.sendTick sym) :=
  .foldl (fun t p => .sayWith t p 2 (.tick p sym)) _ s

/-- A tick symbol that is sent goes to every child. -/
theorem sendTick_reaches (s : State) (sym : TickSymbol) : ∀ p ∈ (s.sendTick sym).childPorts, Output.tick p sym ∈ (s.sendTick sym).out := by
  intro p hp
  rw [(sendTick_leaves s sym).childPorts] at hp
  exact mem_out_foldl (fun t p => .sayWith t p 2 (.tick p sym)) (fun t => List.mem_cons_self ..) hp s

/-- Two records of the tick with the same values and the same accepted changes. -/
def SameValues (k j : TikState) : Prop :=
  j.len = k.len ∧ j.settleUs = k.settleUs ∧ j.gdUs = k.gdUs ∧ j.cutUs = k.cutUs ∧ j.next = k.next

theorem applied_congr {k j : TikState} (h : SameValues k j) (tick : Nat) :
    (j.applied tick).len = (k.applied tick).len ∧ (j.applied tick).settleUs = (k.applied tick).settleUs ∧
      (j.applied tick).gdUs = (k.applied tick).gdUs ∧ (j.applied tick).cutUs = (k.applied tick).cutUs := by
  obtain ⟨hlen, hsettle, hgd, hcut, hnext⟩ := h
  unfold TikState.applied
  rw [hnext]
  split
  · split
    · exact ⟨rfl, rfl, rfl, rfl⟩
    · exact ⟨hlen, hsettle, hgd, hcut⟩
  · exact ⟨hlen, hsettle, hgd, hcut⟩

/-- Every child of t hears of a tick from the device as it was in s: its latch, the stretch before it, and the values in force in that tick (R311, R391). -/
def Announces (s t : State) (tick latchNs stretchNs : Nat) : Prop :=
  ∀ p ∈ t.childPorts, ∃ y, Output.tick p y ∈ t.out ∧ y.tick = w64 tick ∧ y.latchNs = latchNs ∧ y.stretchNs = stretchNs ∧
    y.master = s.fab.self ∧ y.len = (s.tik.applied tick).len ∧ y.settleUs = (s.tik.applied tick).settleUs ∧
    y.gdUs = (s.tik.applied tick).gdUs ∧ y.cutUs = (s.tik.applied tick).cutUs

/-- What an announcement says, beside the stretch. -/
theorem Announces.toChildren {s t : State} {tick latchNs stretchNs : Nat} (h : Announces s t tick latchNs stretchNs) :
    ∀ p ∈ t.childPorts, ∃ y, Output.tick p y ∈ t.out ∧ y.tick = w64 tick ∧ y.latchNs = latchNs ∧ y.master = s.fab.self ∧
      y.len = (s.tik.applied tick).len ∧ y.settleUs = (s.tik.applied tick).settleUs ∧ y.gdUs = (s.tik.applied tick).gdUs ∧
      y.cutUs = (s.tik.applied tick).cutUs := by
  intro p hp
  obtain ⟨y, hout, htick, hlatch, _, hvalues⟩ := h p hp
  exact ⟨y, hout, htick, hlatch, hvalues⟩

theorem announces_symbolFor {s u : State} (hself : u.fab.self = s.fab.self) (hvalues : SameValues s.tik u.tik) (tick latchNs stretchNs : Nat) :
    Announces s (u.sendTick (u.symbolFor tick latchNs stretchNs)) tick latchNs stretchNs := by
  obtain ⟨hlen, hsettle, hgd, hcut⟩ := applied_congr hvalues tick
  exact fun p hp => ⟨_, sendTick_reaches u _ p hp, rfl, rfl, rfl, hself, hlen, hsettle, hgd, hcut⟩

/-! ## The stretch of the system (R315) -/

theorem untraced_stretch : Untraced dev pTik 1 := by
  unfold Untraced
  decide

/-- The record of the tick once the stretch of the system is known. -/
theorem systemStretch_tik (s : State) (ns code : Nat) :
    ∃ cause, (s.systemStretch ns code).tik = { s.tik with stretched := ns != 0, lastCause := cause } := by
  unfold State.systemStretch
  dsimp only
  split
  · exact ⟨_, rfl⟩
  · rw [raiseDev_tik]
    split <;> exact ⟨_, rfl⟩

theorem systemStretch_frame (s : State) (ns code : Nat) :
    Frame (withEvents [.tik, .stretch]) s (s.systemStretch ns code) :=
  fr_systemStretch (fr_refl _ s) ns code (by decide)

/-- The stretch of the system is added to STRETCH_NS. -/
theorem systemStretch_counter (s : State) (ns code : Nat) :
    (s.systemStretch ns code).counter dev pTik 1 = s.counter dev pTik 1 + w64 ns := by
  unfold State.systemStretch
  dsimp only
  split
  · exact counter_bump_self s dev pTik 1 ns
  · rw [counter_raiseDev _ _ _ untraced_stretch]
    split <;> exact counter_bump_self s dev pTik 1 ns

theorem systemStretch_event (s : State) {ns : Nat} (h : ns ≠ 0) (code : Nat) :
    EventIn (s.systemStretch ns code) (s.devCopies pTik 1) pTik 1 := by
  unfold State.systemStretch
  dsimp only
  rw [if_neg h]
  refine raiseDev_eventIn ?_ (by decide)
  split <;> rfl

theorem systemStretch_stays (s : State) (ns code : Nat) : EventsStay s (s.systemStretch ns code) := by
  unfold State.systemStretch
  dsimp only
  split
  · exact fun _ _ _ h => h
  · refine eventsStay_trans (t := _) ?_ (eventsStay_raiseDev _ _ _)
    split <;> exact fun _ _ _ h => h

/-! ## A device takes a master (R311, R312, R390) -/

theorem takeMaster_frame (s : State) (m : Nat) : Frame (withEvents [.tik, .fab, .freeCtr]) s (s.takeMaster m) :=
  fr_takeMaster (fr_refl _ s) m (by decide)

/-- The device with a master named. -/
def named (s : State) (m : Nat) : State := s.updTik (fun t => { t with master := some m, isMaster := m == s.fab.self })

theorem takeMaster_eq (s : State) (m : Nat) : s.takeMaster m =
    if (s.tik.master.isSome && s.tik.master != some m) = true then (named s m).chooseParent.raiseDev pTik 2 else (named s m).chooseParent := rfl

theorem takeMaster_tik (s : State) (m : Nat) : (s.takeMaster m).tik = { s.tik with master := some m, isMaster := m == s.fab.self } := by
  have hparent : (named s m).chooseParent.tik = _ := (FlitsLeave.chooseParent _).tik
  rw [takeMaster_eq]
  split
  · rw [raiseDev_tik, hparent]; rfl
  · rw [hparent]; rfl

theorem takeMaster_self (s : State) (m : Nat) : (s.takeMaster m).fab.self = s.fab.self := by
  have hparent : (named s m).chooseParent.fab.self = s.fab.self := (FlitsLeave.chooseParent _).self
  rw [takeMaster_eq]
  split
  · rw [raiseDev_fab, hparent]
  · exact hparent

theorem takeMaster_counter (s : State) (m : Nat) : (s.takeMaster m).counter dev pTik 1 = s.counter dev pTik 1 := by
  have hparent : (named s m).chooseParent.counter dev pTik 1 = s.counter dev pTik 1 := (FlitsLeave.chooseParent _).counter _ _ _ (by decide)
  rw [takeMaster_eq]
  split
  · rw [counter_raiseDev _ _ _ untraced_stretch, hparent]
  · exact hparent

/-- A change of master raises TICK_MASTER_CHANGE (R312). -/
theorem takeMaster_event {s : State} {old m : Nat} (ho : s.tik.master = some old) (hne : old ≠ m) :
    EventIn (s.takeMaster m) (s.devCopies pTik 2) pTik 2 := by
  rw [takeMaster_eq, if_pos (by simp [ho, hne])]
  exact raiseDev_eventIn (devCopies_of_frame (FlitsLeave.chooseParent (named s m)).frame (by decide) _ _) (by decide)

/-! ## The best offer (R311) -/

/-- An offer is no worse than another: a higher PRIO, or the same and no higher address. -/
def NoWorse (a b : Nat × Nat) : Prop := b.1 < a.1 ∨ (b.1 = a.1 ∧ a.2 ≤ b.2)

theorem NoWorse.refl (a : Nat × Nat) : NoWorse a a := .inr ⟨rfl, le_rfl⟩

theorem NoWorse.trans {a b c : Nat × Nat} (h : NoWorse a b) (k : NoWorse b c) : NoWorse a c := by
  unfold NoWorse at *
  omega

theorem NoWorse.antisymm {a b : Nat × Nat} (h : NoWorse a b) (k : NoWorse b a) : a = b := by
  unfold NoWorse at *
  exact Prod.ext (by omega) (by omega)

theorem betterOffer_iff {a b : Nat × Nat} : betterOffer a b = true ↔ ¬ NoWorse b a := by
  simp only [betterOffer, NoWorse, Bool.or_eq_true, Bool.and_eq_true, decide_eq_true_eq, beq_iff_eq]
  omega

/-- The better of two offers, where one is heard already. -/
def pickOffer (m : Option (Nat × Nat)) (o : Nat × Nat) : Option (Nat × Nat) :=
  match m with
  | none => some o
  | some b => if betterOffer o b then some o else m

theorem foldl_pickOffer : ∀ (l : List (Nat × Nat)) (b : Nat × Nat),
    ∃ r, l.foldl pickOffer (some b) = some r ∧ r ∈ b :: l ∧ ∀ q ∈ b :: l, NoWorse r q
  | [], b => ⟨b, rfl, .head _, by simp [NoWorse.refl]⟩
  | a :: l, b => by
    by_cases h : betterOffer a b = true
    · obtain ⟨r, hr, hmem, hbest⟩ := foldl_pickOffer l a
      have hab : NoWorse a b := by
        have := betterOffer_iff.1 h
        unfold NoWorse at *
        omega
      refine ⟨r, by rw [List.foldl_cons, pickOffer, if_pos h, hr], .tail _ hmem, fun q hq => ?_⟩
      rcases List.mem_cons.1 hq with rfl | hq
      · exact (hbest a (.head _)).trans hab
      · exact hbest q hq
    · obtain ⟨r, hr, hmem, hbest⟩ := foldl_pickOffer l b
      refine ⟨r, by rw [List.foldl_cons, pickOffer, if_neg h, hr], ?_, fun q hq => ?_⟩
      · exact (List.mem_cons.1 hmem).elim (fun h => h ▸ .head _) fun h => .tail _ (.tail _ h)
      · rcases List.mem_cons.1 hq with rfl | hq
        · exact hbest _ (.head _)
        rcases List.mem_cons.1 hq with rfl | hq
        · exact (hbest b (.head _)).trans (not_not.1 (mt betterOffer_iff.2 h))
        · exact hbest q (.tail _ hq)

/-- The best offer that is heard is the best of the list, and there is none where every PRIO is 0. -/
theorem bestOffer_spec (l : List (Nat × Nat)) :
    (∃ o, bestOffer l = some o ∧ BestOf l o) ∨ (bestOffer l = none ∧ ∀ o, ¬ BestOf l o) := by
  have hmem : ∀ o, o ∈ l.filter (fun o => o.1 != 0) ↔ o ∈ l ∧ o.1 ≠ 0 := fun o => by simp
  have hfold : bestOffer l = (l.filter (fun o => o.1 != 0)).foldl pickOffer none := rfl
  rw [hfold]
  cases hl : l.filter (fun o => o.1 != 0) with
  | nil => exact .inr ⟨rfl, fun o ⟨ho, h0, _⟩ => List.not_mem_nil (hl ▸ (hmem o).2 ⟨ho, h0⟩)⟩
  | cons a r =>
    rw [hl] at hmem
    obtain ⟨o, ho, hin, hbest⟩ := foldl_pickOffer r a
    exact .inl ⟨o, ho, ((hmem o).1 hin).1, ((hmem o).1 hin).2, fun q hq h0 => hbest q ((hmem q).2 ⟨hq, h0⟩)⟩

theorem bestOf_unique {l : List (Nat × Nat)} {a b : Nat × Nat} (ha : BestOf l a) (hb : BestOf l b) : a = b :=
  NoWorse.antisymm (ha.2.2 b hb.1 hb.2.1) (hb.2.2 a ha.1 ha.2.1)

theorem bestOffer_of_best {l : List (Nat × Nat)} {o : Nat × Nat} (h : BestOf l o) : bestOffer l = some o := by
  rcases bestOffer_spec l with ⟨r, hr, hbest⟩ | ⟨_, hnone⟩
  · rw [hr, bestOf_unique hbest h]
  · exact absurd h (hnone o)

theorem bestOffer_of_none {l : List (Nat × Nat)} (h : ∀ o, ¬ BestOf l o) : bestOffer l = none := by
  rcases bestOffer_spec l with ⟨o, _, hbest⟩ | ⟨hnone, _⟩
  · exact absurd hbest (h o)
  · exact hnone

/-! ## Offers (R509) -/

section Masters

variable {s : State}

/-- A port that is not in its reset state is listed. -/
theorem mem_ports_of_up {p : Nat} (h : (s.port p).state = .up) : p ∈ s.fab.ports.map Prod.fst := by
  by_contra hno
  have hnone : mapGet s.fab.ports p = none := by
    unfold mapGet
    rw [Option.map_eq_none_iff, List.find?_eq_none]
    exact fun q hq hk => hno (List.mem_map.2 ⟨q, hq, beq_iff_eq.1 hk⟩)
  rw [State.port, hnone] at h
  exact PortState.noConfusion h

/-- The state with an offer recorded in the place of the device's last. -/
def heard (s : State) (device prio : Nat) : State :=
  s.updTik (fun t => { t with offers := t.offers.filter (fun o => o.2 != device) ++ [(prio, device)] })

/-- The offer goes out on a port. -/
def offerOut (device prio : Nat) (t : State) (p : Nat) : State :=
  (t.controlFlit p 4).emit (.ctrl p 1 (device % 2 ^ 15 + 2 ^ 15 * prio))

variable {port : Fin 18} {device prio : Nat}

theorem exec_prioOffer (ht : s.fab.trainStart.isSome = true) (hu : (s.port port.val).state = .up) (hd : device ≠ s.fab.self)
    (hn : (prio, device) ∉ s.tik.offers) :
    exec (.prioOffer port device prio) s = .next (((s.fab.ports.map Prod.fst).filter (fun p => p != port.val && (s.port p).state == .up)).foldl
      (offerOut device prio) (heard s device prio)) :=
  congrArg Host.Outcome.next (if_pos (by simp [ht, hu, hd, hn]))

theorem prioOffer_leaves (ht : s.fab.trainStart.isSome = true) (hu : (s.port port.val).state = .up) (hd : device ≠ s.fab.self)
    (hn : (prio, device) ∉ s.tik.offers) :
    ∃ t, exec (.prioOffer port device prio) s = .next t ∧ Frame [.tik, .fab, .counters, .freeCtr, .out] s t ∧
      t.tik = { s.tik with offers := s.tik.offers.filter (fun o => o.2 != device) ++ [(prio, device)] } ∧
      ∀ p, p ≠ port.val → (s.port p).state = .up → Output.ctrl p 1 (device % 2 ^ 15 + 2 ^ 15 * prio) ∈ t.out := by
  have hexec := exec_prioOffer ht hu hd hn
  have hout : ∀ t p, FlitsLeave t (offerOut device prio t p) := fun t p => .sayWith t p 4 _
  refine ⟨_, hexec, fr_execPrioOffer (fr_refl _ s) port device prio (fun _ h => h) _ hexec, (FlitsLeave.foldl hout ..).tik, fun p hp hup => ?_⟩
  exact mem_out_foldl hout (fun t => List.mem_cons_self ..) (List.mem_filter.2 ⟨mem_ports_of_up hup, by simp [hp, hup]⟩) _

/-! ## The election (R509) -/

variable {nowNs : Nat} {o : Nat × Nat}

/-- The device with its master elected. -/
def elected (s : State) (nowNs : Nat) (o : Nat × Nat) : State := (s.atTime nowNs).takeMaster o.2

/-- The device elected, before its first latch. -/
def firstMaster (s : State) (nowNs : Nat) (o : Nat × Nat) : State :=
  (elected s nowNs o).updTik (fun t => { t with nextLatch := some nowNs, tick := 0 })

theorem exec_masterElection (ht : s.fab.trainStart.isSome = true) (hk : s.tik.ticking = false) (hm : s.tik.master = none)
    (hbest : BestOf s.allOffers o) :
    exec (.masterElection nowNs) s = .next (if o.2 = s.fab.self then
      (firstMaster s nowNs o).sendTick ((firstMaster s nowNs o).symbolFor 0 nowNs 0) else elected s nowNs o) := by
  have hoffer : bestOffer (s.atTime nowNs).allOffers = some o := bestOffer_of_best hbest
  refine congrArg Host.Outcome.next ((if_pos (by simp [ht, hk, hm])).trans ?_)
  rw [hoffer]
  rfl

theorem masterElection_leaves (ht : s.fab.trainStart.isSome = true) (hk : s.tik.ticking = false) (hm : s.tik.master = none)
    (hbest : BestOf s.allOffers o) :
    ∃ t, exec (.masterElection nowNs) s = .next t ∧ t.tik.master = some o.2 ∧ t.tik.timeNs = max nowNs s.tik.timeNs ∧
      (o.2 ≠ s.fab.self → t.tik.isMaster = false ∧ t.tik.nextLatch = s.tik.nextLatch) ∧
      (o.2 = s.fab.self → t.tik.isMaster = true ∧ t.tik.nextLatch = some nowNs ∧ t.tik.tick = 0 ∧ Announces s t 0 nowNs 0) := by
  have htik : (elected s nowNs o).tik = { s.tik with timeNs := max nowNs s.tik.timeNs, master := some o.2, isMaster := o.2 == s.fab.self } :=
    takeMaster_tik ..
  refine ⟨_, exec_masterElection ht hk hm hbest, ?_⟩
  split
  · next hself =>
    have hfirst : (firstMaster s nowNs o).tik = { s.tik with
        timeNs := max nowNs s.tik.timeNs, master := some o.2, isMaster := o.2 == s.fab.self, nextLatch := some nowNs, tick := 0 } := by
      rw [firstMaster, updTik_tik, htik]
    have hname : (firstMaster s nowNs o).fab.self = s.fab.self := takeMaster_self (s.atTime nowNs) o.2
    have hvalues : SameValues s.tik (firstMaster s nowNs o).tik := by
      rw [hfirst]
      exact ⟨rfl, rfl, rfl, rfl, rfl⟩
    rw [(sendTick_leaves ..).tik, hfirst]
    exact ⟨rfl, rfl, fun h => absurd hself h, fun _ => ⟨beq_iff_eq.2 hself, rfl, rfl, announces_symbolFor hname hvalues 0 nowNs 0⟩⟩
  · next hother =>
    rw [htik]
    exact ⟨rfl, rfl, fun _ => ⟨beq_eq_false_iff_ne.2 hother, rfl⟩, fun h => absurd h hother⟩

/-! ## The takeover (R312) -/

variable {m : Nat}

/-- The device without the offer of a master that fell silent. -/
def silent (s : State) (nowNs m : Nat) : State :=
  (s.atTime nowNs).updTik (fun t => { t with offers := t.offers.filter (fun o => o.2 != m) })

/-- The device whose master fell silent while it knows no other. -/
def masterless (s : State) (nowNs m : Nat) : State :=
  ((silent s nowNs m).updTik (fun t => { t with master := none, dropped := true })).raiseDev pTik 2

/-- The device with the master that follows. -/
def succeeded (s : State) (nowNs m : Nat) (o : Nat × Nat) : State :=
  ((silent s nowNs m).takeMaster o.2).updTik (fun t => { t with dropped := o.2 != s.fab.self })

/-- The device that is the master that follows, before its symbol. -/
def takenOver (s : State) (nowNs m : Nat) (o : Nat × Nat) : State :=
  ((succeeded s nowNs m o).updTik (fun t => { t with nextLatch := some nowNs })).systemStretch (nowNs - (s.tik.latchNs + 10 * s.tik.len)) 6

/-- No symbol has come by two tick lengths after the nominal latch. -/
def MasterSilent (s : State) (nowNs m : Nat) : Prop :=
  s.tik.ticking = true ∧ s.tik.isMaster = false ∧ s.tik.master = some m ∧ s.tik.nextLatch = none ∧
    s.tik.latchNs + 10 * s.tik.len + 2 * (10 * s.tik.len) ≤ nowNs

theorem exec_tickMasterTimeout (h : MasterSilent s nowNs m) :
    exec (.tickMasterTimeout nowNs) s = .next (match bestOffer (silent s nowNs m).allOffers with
      | none => masterless s nowNs m
      | some o => if o.2 = s.fab.self then (takenOver s nowNs m o).sendTick ((takenOver s nowNs m o).symbolFor (s.tik.tick + 1) nowNs
          (nowNs - (s.tik.latchNs + 10 * s.tik.len))) else succeeded s nowNs m o) := by
  obtain ⟨hk, hm, hmaster, hnext, hlate⟩ := h
  show execTickMasterTimeout nowNs s = _
  simp only [execTickMasterTimeout, hmaster]
  refine congrArg Host.Outcome.next ((if_pos ?_).trans rfl)
  rw [hk, hm, hnext]
  exact decide_eq_true hlate

/-- TICK_MASTER_CHANGE, once raised, stands in the views that saw it before. -/
theorem succeeded_event (hm : s.tik.master = some m) (hne : o.2 ≠ m) :
    EventIn (succeeded s nowNs m o) (s.devCopies pTik 2) pTik 2 := by
  have hchange : EventIn ((silent s nowNs m).takeMaster o.2) (s.devCopies pTik 2) pTik 2 := takeMaster_event (s := silent s nowNs m) hm hne.symm
  exact hchange

theorem succeeded_tik : (succeeded s nowNs m o).tik = { s.tik with
    timeNs := max nowNs s.tik.timeNs, offers := s.tik.offers.filter (fun o => o.2 != m), master := some o.2, isMaster := o.2 == s.fab.self,
    dropped := o.2 != s.fab.self } := by
  rw [succeeded, updTik_tik, takeMaster_tik]
  rfl

theorem takenOver_tik : ∃ cause, (takenOver s nowNs m o).tik = { s.tik with
    timeNs := max nowNs s.tik.timeNs, offers := s.tik.offers.filter (fun o => o.2 != m), master := some o.2, isMaster := o.2 == s.fab.self,
    dropped := o.2 != s.fab.self, nextLatch := some nowNs, stretched := nowNs - (s.tik.latchNs + 10 * s.tik.len) != 0, lastCause := cause } := by
  obtain ⟨cause, h⟩ := systemStretch_tik ((succeeded s nowNs m o).updTik (fun t => { t with nextLatch := some nowNs }))
    (nowNs - (s.tik.latchNs + 10 * s.tik.len)) 6
  exact ⟨cause, by rw [takenOver, h, updTik_tik, succeeded_tik]⟩

theorem takenOver_counter : (takenOver s nowNs m o).counter dev pTik 1 = s.counter dev pTik 1 + w64 (nowNs - (s.tik.latchNs + 10 * s.tik.len)) := by
  have hmaster : (succeeded s nowNs m o).counter dev pTik 1 = s.counter dev pTik 1 := takeMaster_counter (silent s nowNs m) o.2
  rw [takenOver, systemStretch_counter]
  exact congrArg (· + _) hmaster

theorem takenOver_event (hm : s.tik.master = some m) (hne : o.2 ≠ m) : EventIn (takenOver s nowNs m o) (s.devCopies pTik 2) pTik 2 :=
  eventIn_of_stays (systemStretch_stays _ _ _) (succeeded_event hm hne : EventIn ((succeeded s nowNs m o).updTik _) _ _ _)

theorem takenOver_self : (takenOver s nowNs m o).fab.self = s.fab.self := by
  have hmaster : (succeeded s nowNs m o).fab.self = s.fab.self := takeMaster_self (silent s nowNs m) o.2
  rw [takenOver, (systemStretch_frame ..).kept .fab (by decide)]
  exact hmaster

/-- Where no offer is left, the device has no master (R312). -/
theorem tickMasterTimeout_nobody (h : MasterSilent s nowNs m) (hnone : ∀ o, ¬ BestOf (silent s nowNs m).allOffers o) :
    ∃ t, exec (.tickMasterTimeout nowNs) s = .next t ∧ t.tik.master = none ∧ EventIn t (s.devCopies pTik 2) pTik 2 := by
  refine ⟨masterless s nowNs m, ?_, ?_, raiseDev_eventIn rfl (by decide)⟩
  · rw [exec_tickMasterTimeout h, bestOffer_of_none hnone]
  · rw [masterless, raiseDev_tik]
    rfl

/-- The best offer that is left becomes master; this device's own announces the next tick (R312). -/
theorem tickMasterTimeout_leaves (h : MasterSilent s nowNs m) (hself : m ≠ s.fab.self) (hbest : BestOf (silent s nowNs m).allOffers o) :
    ∃ t, exec (.tickMasterTimeout nowNs) s = .next t ∧ t.tik.master = some o.2 ∧ EventIn t (s.devCopies pTik 2) pTik 2 ∧
      (o.2 ≠ s.fab.self → t.tik.isMaster = false ∧ t.tik.nextLatch = none) ∧
      (o.2 = s.fab.self → t.tik.isMaster = true ∧ t.tik.nextLatch = some nowNs ∧
        Announces s t (s.tik.tick + 1) nowNs (nowNs - (s.tik.latchNs + 10 * s.tik.len)) ∧
        t.counter dev pTik 1 = s.counter dev pTik 1 + w64 (nowNs - (s.tik.latchNs + 10 * s.tik.len))) := by
  have hexec := exec_tickMasterTimeout h
  obtain ⟨_, _, hmaster, hnext, _⟩ := h
  have hne : o.2 ≠ m := by
    obtain ⟨hin, _⟩ := hbest
    rcases List.mem_cons.1 hin with rfl | hin
    · exact hself.symm
    · exact bne_iff_ne.1 (List.mem_filter.1 (List.mem_filter.1 hin).1).2
  rw [bestOffer_of_best hbest] at hexec
  by_cases ho : o.2 = s.fab.self
  · obtain ⟨cause, htik⟩ := takenOver_tik (s := s) (nowNs := nowNs) (m := m) (o := o)
    have hvalues : SameValues s.tik (takenOver s nowNs m o).tik := by
      rw [htik]
      exact ⟨rfl, rfl, rfl, rfl, rfl⟩
    have hsent := sendTick_leaves (takenOver s nowNs m o) ((takenOver s nowNs m o).symbolFor (s.tik.tick + 1) nowNs
      (nowNs - (s.tik.latchNs + 10 * s.tik.len)))
    refine ⟨_, hexec.trans (congrArg Host.Outcome.next (if_pos ho)), ?_, ?_, fun h => absurd ho h, fun _ => ⟨?_, ?_, ?_, ?_⟩⟩
    · rw [hsent.tik, htik]
    · exact eventIn_of_stays (eventsStay_views (hsent.frame.kept .views (by decide))) (takenOver_event hmaster hne)
    · rw [hsent.tik, htik]
      exact beq_iff_eq.2 ho
    · rw [hsent.tik, htik]
    · exact announces_symbolFor takenOver_self hvalues _ _ _
    · rw [hsent.counter _ _ _ (by decide), takenOver_counter]
  · refine ⟨succeeded s nowNs m o, hexec.trans (congrArg Host.Outcome.next (if_neg ho)), ?_, succeeded_event hmaster hne, fun _ => ?_, fun h => absurd h ho⟩
    · rw [succeeded_tik]
    · rw [succeeded_tik]
      exact ⟨beq_eq_false_iff_ne.2 ho, hnext⟩

/-- A master that loses the edges it counts keeps its time base (R494). -/
theorem tickRefLoss_leaves (hm : s.tik.isMaster = true) (he : s.tik.refExt = true) (hl : s.tik.refLost = false) :
    ∃ t, exec .tickRefLoss s = .next t ∧ Frame (withEvents [.tik, .domMem]) s t ∧ t.tik = { s.tik with refLost := true } ∧
      EventIn t (s.devCopies (pFab 0) 5) (pFab 0) 5 := by
  have hexec : exec .tickRefLoss s = .next ((s.updTik (fun t => { t with refLost := true })).raiseDev (pFab 0) 5) :=
    congrArg Host.Outcome.next (if_pos (by simp [hm, he, hl]))
  exact ⟨_, hexec, fr_execTickRefLoss (fr_refl _ s) (by decide) _ hexec, raiseDev_tik .., raiseDev_eventIn rfl (by decide)⟩

end Masters

/-- Settles O46: the offer, the election by whose the best offer is, the takeover by whether and whose one is left, and the lost edges, by the lemma of each. -/
theorem tickMasters : Obligations.TickMasters := by
  unfold Obligations.TickMasters
  intro s port device prio nowNs
  refine ⟨prioOffer_leaves, fun o ht hk hm hbest => ?_, fun m hk hi hm hself hn hlate => ⟨fun hnone => ?_, fun o hbest => ?_⟩, tickRefLoss_leaves⟩
  · obtain ⟨t, hexec, hmaster, htime, hother, hown⟩ := masterElection_leaves ht hk hm hbest
    refine ⟨t, hexec, hmaster, htime, hother, fun ho => ?_⟩
    obtain ⟨his, hnext, htick, hsays⟩ := hown ho
    exact ⟨his, hnext, htick, hsays.toChildren⟩
  · exact tickMasterTimeout_nobody ⟨hk, hi, hm, hn, hlate⟩ hnone
  · obtain ⟨t, hexec, hmaster, hevent, hother, hown⟩ := tickMasterTimeout_leaves ⟨hk, hi, hm, hn, hlate⟩ hself hbest
    refine ⟨t, hexec, hmaster, hevent, hother, fun ho => ?_⟩
    obtain ⟨his, hnext, hsays, hcounter⟩ := hown ho
    exact ⟨his, hnext, hsays.toChildren, hcounter⟩

end Sys2Proof.Proofs

/-! Done tokens and tick symbols (R307, R311, R312, R315, R391, R392, R394): the token with the latest stamp, the start of the next tick on the master, and what a symbol of the master leaves. From them the statement on tokens and symbols. -/

namespace Sys2Proof.Proofs

open Sys2Proof.Machine Sys2Proof.Safety Sys2Proof.Laws

/-! ## The token with the latest STAMP (R392) -/

/-- The later of two tokens, the first on a tie. -/
def laterToken (m t : DoneToken) : DoneToken := if m.stampNs < t.stampNs then t else m

theorem foldl_laterToken : ∀ (l : List DoneToken) (m : DoneToken),
    l.foldl laterToken m ∈ m :: l ∧ ∀ q ∈ m :: l, q.stampNs ≤ (l.foldl laterToken m).stampNs
  | [], m => ⟨.head _, by simp⟩
  | a :: l, m => by
    obtain ⟨hmem, hmax⟩ := foldl_laterToken l (laterToken m a)
    have hpick : (laterToken m a = m ∨ laterToken m a = a) ∧ m.stampNs ≤ (laterToken m a).stampNs ∧ a.stampNs ≤ (laterToken m a).stampNs := by
      unfold laterToken
      split
      · exact ⟨.inr rfl, by omega, le_rfl⟩
      · exact ⟨.inl rfl, le_rfl, by omega⟩
    obtain ⟨hone, hm, ha⟩ := hpick
    have hfirst := hmax _ (.head _)
    refine ⟨?_, fun q hq => ?_⟩
    · rcases List.mem_cons.1 hmem with h | h
      · rw [List.foldl_cons, h]
        rcases hone with h | h
        · rw [h]
          exact .head _
        · rw [h]
          exact .tail _ (.head _)
      · exact .tail _ (.tail _ h)
    · rcases List.mem_cons.1 hq with rfl | hq
      · exact hm.trans hfirst
      rcases List.mem_cons.1 hq with rfl | hq
      · exact ha.trans hfirst
      · exact hmax q (.tail _ hq)

/-- The latest token is the device's own or one that has come, and none has a later stamp. -/
theorem latestToken_spec (s : State) :
    (s.latestToken = s.ownToken (s.tik.doneSent.getD 0) ∨ ∃ g ∈ s.tik.doneGot, g.2 = s.latestToken) ∧
      s.tik.doneSent.getD 0 ≤ s.latestToken.stampNs ∧ ∀ g ∈ s.tik.doneGot, g.2.stampNs ≤ s.latestToken.stampNs := by
  obtain ⟨hmem, hmax⟩ := foldl_laterToken (s.tik.doneGot.map Prod.snd) (s.ownToken (s.tik.doneSent.getD 0))
  exact ⟨(List.mem_cons.1 hmem).imp_right List.mem_map.1, hmax _ (.head _), fun g hg => hmax _ (.tail _ (List.mem_map_of_mem hg))⟩

section Tokens

variable {s : State} {port : Fin 18} {token : DoneToken} {nowNs : Nat}

/-- The state with a child's token kept. -/
def tokenKept (s : State) (port : Fin 18) (token : DoneToken) (nowNs : Nat) : State :=
  (s.atTime nowNs).updTik (fun t => { t with doneGot := t.doneGot ++ [(port.val, token)] })

theorem exec_doneTokenReceive (hk : s.tik.ticking = true) (ht : token.tick.toNat = s.tik.tick) (hp : port.val ∈ s.childPorts)
    (hnew : ∀ g ∈ s.tik.doneGot, g.1 ≠ port.val) :
    exec (.doneTokenReceive port token nowNs) s = .next (tokenKept s port token nowNs).forwardToken := by
  have hchild : (s.atTime nowNs).childPorts.contains port.val = true := List.contains_iff_mem.2 hp
  have hnone : (s.tik.doneGot.any fun g => g.1 == port.val) = false := List.any_eq_false.2 fun g hg h => hnew g hg (beq_iff_eq.1 h)
  refine congrArg Host.Outcome.next (if_pos ?_)
  show (s.tik.ticking && token.tick.toNat == s.tik.tick && (s.atTime nowNs).childPorts.contains port.val &&
    !s.tik.doneGot.any fun g => g.1 == port.val) = true
  rw [hk, ht, hchild, hnone]
  simp

theorem forwardToken_leaves (s : State) : FlitsLeave s s.forwardToken := by
  unfold State.forwardToken
  split
  · exact .sayWith ..
  · exact .refl s

theorem forwardToken_sends (hr : s.tokensReady = true) (hm : s.tik.isMaster = false) :
    Output.done s.fab.parentPort s.latestToken ∈ s.forwardToken.out := by
  rw [State.forwardToken, if_pos (by simp [hr, hm])]
  exact List.mem_cons_self ..

/-- All tokens of the subtree are there. -/
theorem tokensReady_iff : s.tokensReady = true ↔ s.tik.doneSent.isSome = true ∧ ∀ p ∈ s.childPorts, ∃ g ∈ s.tik.doneGot, g.1 = p := by
  simp [State.tokensReady]

theorem doneTokenReceive_leaves (hk : s.tik.ticking = true) (ht : token.tick.toNat = s.tik.tick) (hp : port.val ∈ s.childPorts)
    (hnew : ∀ g ∈ s.tik.doneGot, g.1 ≠ port.val) :
    ∃ t, exec (.doneTokenReceive port token nowNs) s = .next t ∧ Frame [.fuses, .tik, .fab, .counters, .freeCtr, .out] s t ∧
      t.tik = { s.tik with timeNs := max nowNs s.tik.timeNs, doneGot := s.tik.doneGot ++ [(port.val, token)] } ∧
      ∀ own, s.tik.doneSent = some own → s.tik.isMaster = false → (∀ p ∈ s.childPorts, p = port.val ∨ ∃ g ∈ s.tik.doneGot, g.1 = p) →
        ∃ last, Output.done s.fab.parentPort last ∈ t.out ∧ own ≤ last.stampNs ∧ token.stampNs ≤ last.stampNs ∧
          (∀ g ∈ s.tik.doneGot, g.2.stampNs ≤ last.stampNs) ∧
          ((last.device = s.fab.self ∧ last.stampNs = own) ∨ last = token ∨ ∃ g ∈ s.tik.doneGot, g.2 = last) := by
  have hexec := exec_doneTokenReceive (nowNs := nowNs) hk ht hp hnew
  refine ⟨_, hexec, fr_execDoneTokenReceive (fr_refl _ s) port token nowNs (fun _ h => h) _ hexec, (forwardToken_leaves _).tik, fun own ho hm hall => ?_⟩
  have hready : (tokenKept s port token nowNs).tokensReady = true := tokensReady_iff.2 ⟨Option.isSome_of_eq_some ho, fun p hpc => by
    rcases hall p hpc with rfl | ⟨g, hg, hgp⟩
    · exact ⟨_, List.mem_append_right _ (.head _), rfl⟩
    · exact ⟨g, List.mem_append_left _ hg, hgp⟩⟩
  obtain ⟨hfrom, hown, hgot⟩ := latestToken_spec (tokenKept s port token nowNs)
  have hsent : (tokenKept s port token nowNs).tik.doneSent.getD 0 = own := congrArg (Option.getD · 0) ho
  rw [hsent] at hfrom hown
  refine ⟨_, forwardToken_sends hready hm, hown, hgot _ (List.mem_append_right _ (.head _)), fun g hg => hgot g (List.mem_append_left _ hg), ?_⟩
  rcases hfrom with h | ⟨g, hg, h⟩
  · exact .inl (by rw [h]; exact ⟨rfl, rfl⟩)
  · rcases List.mem_append.1 hg with hg | hg
    · exact .inr (.inr ⟨g, hg, h⟩)
    · exact .inr (.inl (by rw [← h, List.mem_singleton.1 hg]))

/-! ## The start of the next tick (R315) -/

/-- The nominal start of the next tick. -/
abbrev nominalNs (s : State) : Nat := s.tik.latchNs + 10 * s.tik.len

/-- The start of the next tick: the nominal one with the stretch that the latest token reports, or G after its stamp. -/
def startNs (s : State) : Nat := max (nominalNs s + s.latestToken.stretchNs) (s.latestToken.stampNs + 1000 * s.tik.gdUs)

/-- The master with the next latch set, before its symbol. -/
def tickStarted (s : State) (nowNs : Nat) : State :=
  ((s.atTime nowNs).updTik (fun t => { t with nextLatch := some (startNs s) })).systemStretch (startNs s - nominalNs s) 5

theorem exec_tickStart (hk : s.tik.ticking = true) (hm : s.tik.isMaster = true) (hs : s.tik.settled = true) (hn : s.tik.nextLatch = none)
    (hr : s.tokensReady = true) :
    exec (.tickStart nowNs) s = .next ((tickStarted s nowNs).sendTick ((tickStarted s nowNs).symbolFor (s.tik.tick + 1) (startNs s)
      (startNs s - nominalNs s))) := by
  have hready : (s.atTime nowNs).tokensReady = true := hr
  refine congrArg Host.Outcome.next (if_pos ?_)
  show (s.tik.ticking && s.tik.isMaster && s.tik.settled && s.tik.nextLatch.isNone && (s.atTime nowNs).tokensReady) = true
  rw [hk, hm, hs, hn, hready]
  rfl

theorem tickStart_leaves (hk : s.tik.ticking = true) (hm : s.tik.isMaster = true) (hs : s.tik.settled = true) (hn : s.tik.nextLatch = none)
    (hr : s.tokensReady = true) :
    ∃ t, exec (.tickStart nowNs) s = .next t ∧ t.tik.nextLatch = some (startNs s) ∧ (t.tik.stretched = true ↔ startNs s ≠ nominalNs s) ∧
      t.counter dev pTik 1 = s.counter dev pTik 1 + w64 (startNs s - nominalNs s) ∧
      (startNs s ≠ nominalNs s → EventIn t (s.devCopies pTik 1) pTik 1) ∧
      Announces s t (s.tik.tick + 1) (startNs s) (startNs s - nominalNs s) := by
  have hle : nominalNs s ≤ startNs s := (Nat.le_add_right ..).trans (le_max_left ..)
  have hzero : startNs s - nominalNs s ≠ 0 ↔ startNs s ≠ nominalNs s := by omega
  have hsent := sendTick_leaves (tickStarted s nowNs) ((tickStarted s nowNs).symbolFor (s.tik.tick + 1) (startNs s) (startNs s - nominalNs s))
  obtain ⟨cause, htik⟩ := systemStretch_tik ((s.atTime nowNs).updTik (fun t => { t with nextLatch := some (startNs s) })) (startNs s - nominalNs s) 5
  have hname : (tickStarted s nowNs).fab.self = s.fab.self := congrArg FabState.self ((systemStretch_frame ..).kept .fab (by decide))
  have hvalues : SameValues s.tik (tickStarted s nowNs).tik := by
    rw [tickStarted, htik]
    exact ⟨rfl, rfl, rfl, rfl, rfl⟩
  refine ⟨_, exec_tickStart hk hm hs hn hr, ?_, ?_, ?_, fun hne => ?_, announces_symbolFor hname hvalues _ _ _⟩
  · rw [hsent.tik, tickStarted, htik]
    rfl
  · rw [hsent.tik, tickStarted, htik]
    exact bne_iff_ne.trans hzero
  · rw [hsent.counter _ _ _ (by decide), tickStarted, systemStretch_counter]
    rfl
  · exact eventIn_of_stays (eventsStay_views (hsent.frame.kept .views (by decide))) (systemStretch_event _ (hzero.2 hne) 5)

/-! ## A symbol of the master (R311, R391, R394) -/

/-- The record with the change that a symbol announces: after one that applies at the symbol's own tick, or in the place of what was announced. -/
def changeHeard (k : TikState) (sym : TickSymbol) (joins : Bool) : TikState :=
  let new := some (sym.newFromTick.toNat, sym.newLen, sym.newSettleUs, sym.newGdUs, sym.newCutUs)
  let due := match k.next with
    | some (n, _) => !joins && decide (n ≤ sym.tick.toNat)
    | none => false
  if sym.tick.toNat < sym.newFromTick.toNat then
    (if due then { k with later := new } else { k with next := new, later := none })
  else if joins then { k with next := none, later := none } else k

theorem changeHeard_moves (k : TikState) (sym : TickSymbol) (joins : Bool) :
    ∃ next later, changeHeard k sym joins = { k with next := next, later := later } := by
  unfold changeHeard
  dsimp only
  generalize (match k.next with | some (n, _) => !joins && decide (n ≤ sym.tick.toNat) | none => false) = due
  split
  · split <;> exact ⟨_, _, rfl⟩
  · split <;> exact ⟨_, _, rfl⟩

/-- What a device that joins a master takes from its symbol. -/
theorem takeSymbol_joins (k : TikState) (sym : TickSymbol) : ∃ next later, k.takeSymbol sym true =
    { k with
      next := next, later := later, len := sym.len, settleUs := sym.settleUs, gdUs := sym.gdUs, cutUs := sym.cutUs,
      tick := if k.ticking then sym.tick.toNat - 1 else sym.tick.toNat, nextLatch := some sym.latchNs, dropped := false } := by
  obtain ⟨next, later, h⟩ := changeHeard_moves k sym true
  refine ⟨next, later, ?_⟩
  show { { changeHeard k sym true with
    len := sym.len, settleUs := sym.settleUs, gdUs := sym.gdUs, cutUs := sym.cutUs,
    tick := if k.ticking then sym.tick.toNat - 1 else sym.tick.toNat } with
    nextLatch := some sym.latchNs, dropped := false } = _
  rw [h]

/-- What a device takes from a symbol of the master that it follows. -/
theorem takeSymbol_follows (k : TikState) (sym : TickSymbol) : ∃ next later, k.takeSymbol sym false =
    { k with next := next, later := later, nextLatch := some sym.latchNs, dropped := false } := by
  obtain ⟨next, later, h⟩ := changeHeard_moves k sym false
  refine ⟨next, later, ?_⟩
  show { changeHeard k sym false with nextLatch := some sym.latchNs, dropped := false } = _
  rw [h]

/-- A latch that had passed when its symbol came counts as REMOTE_STRETCH and raises TICK_LATE (R394). -/
def lateBy (s : State) (late : Nat) : State := if late = 0 then s else (s.addStretch dev 6 late).raiseDev (pFab 0) 5

theorem lateBy_tik (s : State) (late : Nat) : (lateBy s late).tik = s.tik := by
  unfold lateBy
  split
  · rfl
  · rw [raiseDev_tik]
    rfl

theorem lateBy_counter (s : State) (late : Nat) : (lateBy s late).counter dev pTik 1 = s.counter dev pTik 1 := by
  unfold lateBy
  split
  · rfl
  · rw [counter_raiseDev _ _ _ untraced_stretch]
    rfl

theorem lateBy_event (s : State) {late : Nat} (h : late ≠ 0) : EventIn (lateBy s late) (s.devCopies (pFab 0) 5) (pFab 0) 5 := by
  rw [lateBy, if_neg h]
  exact raiseDev_eventIn rfl (by decide)

variable {sym : TickSymbol}

/-- The symbol as it goes on, with the delay of the link by which it came. -/
abbrev passedSymbol (s : State) (port : Fin 18) (sym : TickSymbol) : TickSymbol := { sym with accPs := sym.accPs + (s.port port.val).delayPs }

/-- The symbol that a device has taken goes on to its children, late or not. -/
def symbolPassed (s u : State) (port : Fin 18) (sym : TickSymbol) (nowNs : Nat) : State :=
  (lateBy u (nowNs - sym.latchNs)).sendTick (passedSymbol s port sym)

theorem symbolPassed_tik (s u : State) (port : Fin 18) (sym : TickSymbol) (nowNs : Nat) : (symbolPassed s u port sym nowNs).tik = u.tik :=
  (sendTick_leaves ..).tik.trans (lateBy_tik ..)

theorem symbolPassed_counter (s u : State) (port : Fin 18) (sym : TickSymbol) (nowNs : Nat) :
    (symbolPassed s u port sym nowNs).counter dev pTik 1 = u.counter dev pTik 1 :=
  ((sendTick_leaves ..).counter _ _ _ (by decide)).trans (lateBy_counter ..)

theorem symbolPassed_event (s u : State) (port : Fin 18) {sym : TickSymbol} {nowNs : Nat} (h : sym.latchNs < nowNs) :
    EventIn (symbolPassed s u port sym nowNs) (u.devCopies (pFab 0) 5) (pFab 0) 5 :=
  eventIn_of_stays (eventsStay_views ((sendTick_leaves ..).frame.kept .views (by decide))) (lateBy_event u (by omega))

/-- The symbol reaches this device in training's time, on a link that is UP, from another master. -/
def SymbolComes (s : State) (port : Fin 18) (sym : TickSymbol) : Prop :=
  s.fab.trainStart.isSome = true ∧ (s.port port.val).state = .up ∧ sym.master ≠ s.fab.self

/-- The first symbol of the master after one was dropped: the device joins it, and the tick is stretched to its latch. -/
def rejoined (s : State) (sym : TickSymbol) (nowNs : Nat) : State :=
  (((s.atTime nowNs).takeMaster sym.master).updTik (fun t => TikState.takeSymbol { t with lateNs := nowNs - sym.latchNs } sym true)).systemStretch
    (sym.latchNs - nominalNs s) 6

/-- A further symbol of the master. -/
def followed (s : State) (sym : TickSymbol) (nowNs : Nat) : State :=
  ((s.atTime nowNs).updTik (fun t => TikState.takeSymbol { t with lateNs := nowNs - sym.latchNs } sym false)).systemStretch sym.stretchNs 5

/-- The first symbol that a device hears. -/
def joined (s : State) (sym : TickSymbol) (nowNs : Nat) : State :=
  ((s.joinTime nowNs).takeMaster sym.master).updTik (fun t => TikState.takeSymbol { t with lateNs := nowNs - sym.latchNs } sym true)

theorem exec_tickSymbol_rejoins (hc : SymbolComes s port sym) (hm : s.tik.master = some sym.master) (hk : s.tik.ticking = true)
    (hd : s.tik.dropped = true) :
    exec (.tickSymbolReceive port sym nowNs) s = .next (symbolPassed s (rejoined s sym nowNs) port sym nowNs) := by
  obtain ⟨ht, hu, hs⟩ := hc
  have hdropped : (s.atTime nowNs).tik.dropped = true := hd
  refine congrArg Host.Outcome.next ((if_pos (by simp [ht, hu, hs, hm])).trans ?_)
  simp only [hk, hm, hdropped, if_true, Bool.or_true, Bool.true_or]
  rfl

theorem exec_tickSymbol_follows (hc : SymbolComes s port sym) (hm : s.tik.master = some sym.master) (hk : s.tik.ticking = true)
    (hd : s.tik.dropped = false) :
    exec (.tickSymbolReceive port sym nowNs) s = .next (symbolPassed s (followed s sym nowNs) port sym nowNs) := by
  obtain ⟨ht, hu, hs⟩ := hc
  have hdropped : (s.atTime nowNs).tik.dropped = false := hd
  have hfollows : (s.atTime nowNs).updTik (fun t => TikState.takeSymbol { t with lateNs := nowNs - sym.latchNs } sym (!t.ticking)) =
      (s.atTime nowNs).updTik (fun t => TikState.takeSymbol { t with lateNs := nowNs - sym.latchNs } sym false) :=
    updTik_congr (congrArg (fun b => TikState.takeSymbol { (s.atTime nowNs).tik with lateNs := nowNs - sym.latchNs } sym (!b)) hk)
  refine congrArg Host.Outcome.next ((if_pos (by simp [ht, hu, hs, hm])).trans ?_)
  simp only [hk, hm, hdropped, bne_self_eq_false, Bool.or_self, Bool.false_eq_true, if_true, if_false, Bool.false_or, hfollows]
  rfl

theorem exec_tickSymbol_joins (hc : SymbolComes s port sym) (hm : s.tik.master = none) (hk : s.tik.ticking = false) :
    exec (.tickSymbolReceive port sym nowNs) s = .next (symbolPassed s (joined s sym nowNs) port sym nowNs) := by
  obtain ⟨ht, hu, hs⟩ := hc
  refine congrArg Host.Outcome.next ((if_pos (by simp [ht, hu, hs, hm])).trans ?_)
  have hchanged : ((none : Option Nat) != some sym.master) = true := rfl
  simp only [hk, hm, hchanged, Bool.true_or, if_true, Bool.false_eq_true, if_false]
  rfl

/-- The tick of a device that has taken all values of a symbol of the master m. -/
def Joins (k : TikState) (sym : TickSymbol) : Prop :=
  k.nextLatch = some sym.latchNs ∧ k.master = some sym.master ∧ k.len = sym.len ∧ k.settleUs = sym.settleUs ∧ k.gdUs = sym.gdUs ∧
    k.cutUs = sym.cutUs

theorem rejoined_leaves (s : State) (sym : TickSymbol) (nowNs : Nat) (hk : s.tik.ticking = true) :
    Joins (rejoined s sym nowNs).tik sym ∧ (rejoined s sym nowNs).tik.dropped = false ∧ (rejoined s sym nowNs).tik.tick = sym.tick.toNat - 1 ∧
      (rejoined s sym nowNs).counter dev pTik 1 = s.counter dev pTik 1 + w64 (sym.latchNs - nominalNs s) := by
  have hmaster := takeMaster_tik (s.atTime nowNs) sym.master
  obtain ⟨next, later, hsym⟩ := takeSymbol_joins { ((s.atTime nowNs).takeMaster sym.master).tik with lateNs := nowNs - sym.latchNs } sym
  obtain ⟨cause, htik⟩ := systemStretch_tik (((s.atTime nowNs).takeMaster sym.master).updTik (fun t =>
    TikState.takeSymbol { t with lateNs := nowNs - sym.latchNs } sym true)) (sym.latchNs - nominalNs s) 6
  have hcounter : ((s.atTime nowNs).takeMaster sym.master).counter dev pTik 1 = s.counter dev pTik 1 := takeMaster_counter ..
  refine ⟨?_, ?_, ?_, ?_⟩
  · rw [rejoined, htik, updTik_tik, hsym, hmaster]
    exact ⟨rfl, rfl, rfl, rfl, rfl, rfl⟩
  · rw [rejoined, htik, updTik_tik, hsym]
  · rw [rejoined, htik, updTik_tik, hsym, hmaster]
    exact if_pos hk
  · rw [rejoined, systemStretch_counter]
    exact congrArg (· + _) hcounter

theorem followed_leaves (s : State) (sym : TickSymbol) (nowNs : Nat) :
    (followed s sym nowNs).tik.nextLatch = some sym.latchNs ∧ (followed s sym nowNs).tik.master = s.tik.master ∧
      (followed s sym nowNs).tik.tick = s.tik.tick ∧ (followed s sym nowNs).tik.len = s.tik.len ∧
      (followed s sym nowNs).tik.lateNs = nowNs - sym.latchNs ∧
      (followed s sym nowNs).counter dev pTik 1 = s.counter dev pTik 1 + w64 sym.stretchNs ∧
      ∀ page bit, (followed s sym nowNs).devCopies page bit = s.devCopies page bit := by
  obtain ⟨next, later, hsym⟩ := takeSymbol_follows { (s.atTime nowNs).tik with lateNs := nowNs - sym.latchNs } sym
  obtain ⟨cause, htik⟩ := systemStretch_tik ((s.atTime nowNs).updTik (fun t => TikState.takeSymbol { t with lateNs := nowNs - sym.latchNs } sym false))
    sym.stretchNs 5
  have hall : (followed s sym nowNs).tik = _ := htik.trans (by rw [updTik_tik, hsym])
  rw [hall]
  exact ⟨rfl, rfl, rfl, rfl, rfl, systemStretch_counter .., fun page bit => devCopies_of_frame (systemStretch_frame ..) (by decide) page bit⟩

theorem joined_leaves (s : State) (sym : TickSymbol) (nowNs : Nat) (hs : sym.master ≠ s.fab.self) (hk : s.tik.ticking = false) :
    Joins (joined s sym nowNs).tik sym ∧ (joined s sym nowNs).tik.isMaster = false ∧ (joined s sym nowNs).tik.tick = sym.tick.toNat := by
  have hmaster := takeMaster_tik (s.joinTime nowNs) sym.master
  obtain ⟨next, later, hsym⟩ := takeSymbol_joins { ((s.joinTime nowNs).takeMaster sym.master).tik with lateNs := nowNs - sym.latchNs } sym
  rw [joined, updTik_tik, hsym, hmaster]
  exact ⟨⟨rfl, rfl, rfl, rfl, rfl, rfl⟩, beq_eq_false_iff_ne.2 hs, if_neg (ne_true_of_eq_false hk)⟩

end Tokens

/-- Settles O47: a token by what the latest of the subtree is, the start of the next tick, and a symbol by whether the device rejoins, follows or joins its master, by the lemma of each. -/
theorem tokensAndSymbols : Obligations.TokensAndSymbols := by
  unfold Obligations.TokensAndSymbols
  intro s port token sym nowNs
  refine ⟨doneTokenReceive_leaves, fun hk hm hs hn hd hall => tickStart_leaves hk hm hs hn (tokensReady_iff.2 ⟨hd, hall⟩), fun ht hu hne => ⟨?rejoins, ?follows, ?joins⟩⟩
  case rejoins =>
    intro hm hk hd
    obtain ⟨⟨hnext, hmaster, hlen, hsettle, hgd, hcut⟩, hdropped, htick, hcounter⟩ := rejoined_leaves s sym nowNs hk
    have htik := symbolPassed_tik s (rejoined s sym nowNs) port sym nowNs
    refine ⟨_, exec_tickSymbol_rejoins ⟨ht, hu, hne⟩ hm hk hd, ?_⟩
    rw [htik, symbolPassed_counter]
    exact ⟨hnext, hmaster.trans hm.symm, hdropped, htick, hlen, hsettle, hgd, hcut, sendTick_reaches _ _, hcounter⟩
  case follows =>
    intro hm hk hd
    obtain ⟨hnext, hmaster, htick, hlen, hlate, hcounter, hviews⟩ := followed_leaves s sym nowNs
    refine ⟨_, exec_tickSymbol_follows ⟨ht, hu, hne⟩ hm hk hd, ?_⟩
    rw [symbolPassed_tik, symbolPassed_counter]
    exact ⟨hnext, hmaster, htick, hlen, hlate, hcounter, sendTick_reaches _ _, fun h => hviews (pFab 0) 5 ▸ symbolPassed_event s _ port h⟩
  case joins =>
    intro hm hk
    obtain ⟨⟨hnext, hmaster, hlen, hsettle, hgd, hcut⟩, hnot, htick⟩ := joined_leaves s sym nowNs hne hk
    refine ⟨_, exec_tickSymbol_joins ⟨ht, hu, hne⟩ hm hk, ?_⟩
    rw [symbolPassed_tik]
    exact ⟨hnext, hmaster, hnot, htick, hlen, hsettle, hgd, hcut, sendTick_reaches _ _⟩

end Sys2Proof.Proofs

/-! The plan cut-off and the plan latch (R273, R307 to R309, R314, R342, R346, R348): what is fixed at the cut-off, and through each step of R308 the parts of the state that say which tick it is, at which level it runs and in which refresh mode. From them the statement on the cut-off and the latch. -/

namespace Sys2Proof.Proofs

open Sys2Proof.Machine Sys2Proof.Safety Sys2Proof.Laws

/-! ## The plan cut-off (R309, R342, R346, R348) -/

/-- The level due for the next tick: the epoch's decision at its edge, FLOOR without one, and the present level within it. -/
def dueLevel (s : State) : Nat :=
  if (s.tik.tick + 1) % 64 = 0 then (if s.pwr.nextValid then s.pwr.next else s.pwr.floor) else s.pwr.level

/-- The level that is due, with the cause of its override. -/
def dueStep (s : State) : Nat × Option Nat :=
  if (s.tik.tick + 1) % 64 = 0 then (if s.pwr.nextValid then (s.pwr.next, s.pwr.nextOverride) else (s.pwr.floor, none))
  else (s.pwr.level, if s.pwr.override then some s.pwr.ovrCause else none)

theorem dueStep_fst (s : State) : (dueStep s).1 = dueLevel s := by
  unfold dueStep dueLevel
  split
  · split <;> rfl
  · rfl

theorem planLevel_unrestricted {s : State} (h : s.pwr.restrict = false) : s.planLevel = dueStep s := if_neg (ne_true_of_eq_false h)

/-- A write that has tightened the bounds slows the plan, and never speeds it (R348). -/
theorem dueLevel_le_planLevel (s : State) : dueLevel s ≤ s.planLevel.1 := by
  cases h : s.pwr.restrict with
  | false => rw [planLevel_unrestricted h, dueStep_fst]
  | true =>
    have hplan : ∃ slow, s.planLevel = if (dueStep s).1 < slow.1 then slow else dueStep s := ⟨_, if_pos h⟩
    obtain ⟨slow, hplan⟩ := hplan
    rw [hplan, ← dueStep_fst]
    split
    · next hlt => exact hlt.le
    · exact le_rfl

section Cutoff

variable {s : State} {nowNs : Nat}

/-- The state that the next latch will find. -/
def foundByLatch (s : State) : State := s.latchState s.nextTick s.nextLatchAt false

/-- The frame of the next tick. -/
def nextFrame (s : State) : PlanFrame := s.planFrame (foundByLatch s) s.planLevel.1 (refreshMode s.memg.tHot s.memg.latchedMode)

/-- The state with the step, the bounds and the refresh mode of the next tick fixed. -/
def planFixed (s : State) : State :=
  ((s.updTik (fun k => { k with cutoffPassed := true, planStep := s.planLevel.1, planEdom := (nextFrame s).edom })).updPwr
    (fun p => { p with planOverride := s.planLevel.2, restrict := false, inForce := s.planBounds })).updMemg
      (fun m => { m with planMode := refreshMode s.memg.tHot s.memg.latchedMode })

/-- The state with every domain planned from what the latch will find. -/
def planned (s : State) : State :=
  ((planFixed s).eachDom (fun u d => (u.reserveEnded d).planDomain (foundByLatch s) (nextFrame s) d)).mergeFetches (foundByLatch s)

theorem exec_planCutoff (hk : s.tik.ticking = true) (hc : s.tik.cutoffPassed = false) :
    exec (.planCutoff nowNs) s = .next (planned (s.atTime nowNs)) := by
  have hdue : (s.tik.ticking && !s.tik.cutoffPassed) = true := by rw [hk, hc]; rfl
  show execPlanCutoff nowNs s = _
  unfold execPlanCutoff
  rw [if_pos hdue]
  rfl

theorem planFixed_frame (s : State) : Frame [.tik, .pwr, .memg] s (planFixed s) :=
  fr_updMemg (fr_updPwr (fr_updTik (fr_refl _ s) _ (by decide)) _ (by decide)) _ (by decide)

/-- Planning moves the plan records, the completion words it reserves, and what events move. -/
theorem planned_frame (s : State) : Frame (withEvents [.domQueue, .domSlabs]) (planFixed s) (planned s) :=
  fr_mergeFetches (fr_eachDom (fr_refl _ _) _ fun _ _ h => fr_planDomain (fr_reserveEnded h _ (by decide)) _ _ _ (by decide)) _ (by decide)

theorem planCutoff_leaves (hk : s.tik.ticking = true) (hc : s.tik.cutoffPassed = false) :
    ∃ t, exec (.planCutoff nowNs) s = .next t ∧ Frame (withEvents [.fuses, .tik, .pwr, .memg, .domQueue, .domSlabs]) s t ∧
      t.tik = { s.tik with
        timeNs := max nowNs s.tik.timeNs, cutoffPassed := true, planStep := s.planLevel.1, planEdom := t.tik.planEdom } ∧
      t.pwr = { s.pwr with planOverride := t.pwr.planOverride, restrict := false, inForce := s.planBounds } ∧
      t.memg = { s.memg with planMode := refreshOf s.memg.tHot s.memg.latchedMode } := by
  have htime : Frame [.fuses, .tik] s (s.atTime nowNs) := fr_atTime (fr_refl _ s) nowNs (by decide)
  have hfixed := planFixed_frame (s.atTime nowNs)
  have hplan := planned_frame (s.atTime nowNs)
  refine ⟨_, exec_planCutoff hk hc,
    fr_trans (fr_mono htime (by decide)) (fr_trans (fr_mono hfixed (by decide)) (fr_mono hplan (by decide))), ?_, ?_, ?_⟩
  · rw [hplan.kept .tik (by decide)]
    rfl
  · rw [hplan.kept .pwr (by decide)]
    rfl
  · rw [hplan.kept .memg (by decide)]
    rfl

end Cutoff

/-! ## What waits for the latch, and what a teardown drops of it (R308, R424) -/

/-- Of the changes that wait some are dropped, and no recipe row. -/
def Prunes (s t : State) : Prop := ∃ keep : LatchAct → Bool, (∀ row r, keep (.recipe row r) = true) ∧ t.atLatch = s.atLatch.filter keep

theorem Prunes.of_eq {s t : State} (h : t.atLatch = s.atLatch) : Prunes s t := ⟨fun _ => true, fun _ _ => rfl, by simp [h]⟩

theorem Prunes.trans {s t u : State} (a : Prunes s t) (b : Prunes t u) : Prunes s u := by
  obtain ⟨keep, hrecipe, hkeep⟩ := a
  obtain ⟨keep', hrecipe', hkeep'⟩ := b
  exact ⟨fun x => keep x && keep' x, fun row r => Bool.and_eq_true_iff.2 ⟨hrecipe row r, hrecipe' row r⟩, by
    rw [hkeep', hkeep, List.filter_filter]; simp only [Bool.and_comm]⟩

theorem Prunes.of_frame {L : List Part} {s t : State} (h : Frame L s t) (hL : Part.atLatch ∉ L) : Prunes s t := .of_eq (h.kept .atLatch hL)

theorem Prunes.foldl {α : Type} {f : State → α → State} (hf : ∀ t a, Prunes t (f t a)) (l : List α) (s : State) : Prunes s (l.foldl f s) :=
  foldl_keeps (Prunes s) f (fun t a h => h.trans (hf t a)) l (.of_eq rfl)

theorem Prunes.eachDom {f : State → Nat → State} (hf : ∀ t d, Prunes t (f t d)) (s : State) : Prunes s (s.eachDom f) := .foldl hf _ s

theorem Prunes.recipe {s t : State} (h : Prunes s t) {row : Nat} {r : Recipe} (hs : s.atLatch = [.recipe row r]) :
    t.atLatch = [.recipe row r] := by
  obtain ⟨keep, hrecipe, hkeep⟩ := h
  rw [hkeep, hs, List.filter_cons_of_pos (hrecipe row r), List.filter_nil]

theorem Prunes.mem {s t : State} (h : Prunes s t) {a : LatchAct} (ha : a ∈ t.atLatch) : a ∈ s.atLatch := by
  obtain ⟨keep, _, hkeep⟩ := h
  exact (List.mem_filter.1 (hkeep ▸ ha)).1

theorem Prunes.updDom (s : State) (d : Nat) (f : Dom → Dom) : Prunes s (s.updDom d f) := .of_eq rfl

/-- A teardown drops the changes of its domain. -/
theorem Prunes.latchScrub (s : State) (d nowNs : Nat) : Prunes s (s.latchScrub d nowNs) := by
  have hslots : Prunes s ((s.raiseDom pDom 2 d).freeSlots (s.dom d).rec_.slotFirst (s.dom d).rec_.slotCount) :=
    .of_frame
      (fr_freeSlots (fr_raiseDom (fr_refl (withEvents [.slots]) s) _ _ _ (by decide)) _ _ (by decide)) (by decide)
  unfold State.latchScrub
  dsimp only
  refine .trans ?_ (.of_frame (msix_frame _ _ _) (by decide))
  have hcleared (f : Dom → Dom) := hslots.trans (.updDom _ d f)
  refine .trans ?loan ⟨_, ?recipes, rfl⟩
  case recipes => exact fun _ _ => rfl
  case loan =>
    split
    · exact ((hcleared _).trans (.of_frame (fr_clearUnits (fr_refl _ _) _ (fun _ h => h)) (by decide))).trans (.updDom ..)
    · exact hcleared _

theorem Prunes.latchTearDown (s : State) (tick nowNs d : Nat) : Prunes s (s.latchTearDown tick nowNs d) := by
  have hdue : ∀ due : Bool, Prunes s (if due then s.latchScrub d nowNs else s)
    | true => .latchScrub ..
    | false => .of_eq rfl
  unfold State.latchTearDown
  dsimp only
  split
  · exact .of_eq rfl
  · exact hdue _

/-! ## The changes that waited (R308 step 5) -/

/-- What a waiting change leaves alone: the commons, unless it is a staged copy, and of the memory's device state all but its maintenance window. -/
structure ActKeeps (s : State) (a : LatchAct) (t : State) : Prop where
  commons : (∀ j m v c, a ≠ .staged j m v c) → t.commons = s.commons
  memg : ∃ len every, t.memg = { s.memg with maintLen := len, maintEvery := every }

theorem ActKeeps.of_eq {s t : State} {a : LatchAct} (hc : t.commons = s.commons) (hm : t.memg = s.memg) : ActKeeps s a t :=
  ⟨fun _ => hc, s.memg.maintLen, s.memg.maintEvery, hm⟩

theorem ActKeeps.of_frame {L : List Part} {s t : State} {a : LatchAct} (h : Frame L s t) (hc : Part.commons ∉ L) (hm : Part.memg ∉ L) :
    ActKeeps s a t := .of_eq (h.kept .commons hc) (h.kept .memg hm)

theorem latchAct_keeps (s : State) (a : LatchAct) : ActKeeps s a (s.latchAct a) := by
  cases a with
  | maint len every => exact ⟨fun _ => rfl, len, every, rfl⟩
  | staged k m v c =>
    exact ⟨fun h => absurd rfl (h k m v c), s.memg.maintLen, s.memg.maintEvery,
      (fr_latchStaged (fr_refl _ s) k m v c (fun _ h => h)).kept .memg (by decide)⟩
  | slotLive k => exact .of_frame (fr_latchSlotLive (fr_refl _ s) k (fun _ h => h)) (by decide) (by decide)
  | slotLoadFailed k => exact .of_frame (fr_latchLoadFailed (fr_refl _ s) k (fun _ h => h)) (by decide) (by decide)
  | slotPark k => exact .of_frame (fr_latchLeave (fr_refl _ s) k true (fun _ h => h)) (by decide) (by decide)
  | slotRelease k => exact .of_frame (fr_latchLeave (fr_refl _ s) k false (fun _ h => h)) (by decide) (by decide)
  | unstage k m => exact .of_frame (fr_latchUnstage (fr_refl _ s) k m (fun _ h => h)) (by decide) (by decide)
  | expertBind d p =>
    exact .of_frame (L := [.domVar, .domMem]) (fr_setExpert (fr_refl _ s) d p (fun e => { e with pending := false }) (fun _ h => h))
      (by decide) (by decide)
  | expertFree d p => exact .of_frame (L := [.domVar, .domMem]) (fr_setExpert (fr_refl _ s) d p _ (fun _ h => h)) (by decide) (by decide)
  | seqClose d q => exact .of_frame (fr_latchSeqClose (fr_refl _ s) d q (fun _ h => h)) (by decide) (by decide)
  | pageFlash d p => exact .of_frame (fr_latchEvicted (fr_refl _ s) d p (fun _ h => h)) (by decide) (by decide)
  | discard d p => exact .of_frame (fr_latchDiscard (fr_refl _ s) d p (fun _ h => h)) (by decide) (by decide)
  | _ => exact .of_eq rfl rfl

/-- T_hot and the refresh modes stand through the changes that waited. -/
theorem foldl_latchAct_memg : ∀ (l : List LatchAct) (s : State),
    ∃ len every, (l.foldl State.latchAct s).memg = { s.memg with maintLen := len, maintEvery := every }
  | [], s => ⟨s.memg.maintLen, s.memg.maintEvery, rfl⟩
  | a :: l, s => by
    obtain ⟨len, every, hrest⟩ := foldl_latchAct_memg l (s.latchAct a)
    obtain ⟨_, _, hact⟩ := (latchAct_keeps s a).memg
    exact ⟨len, every, hrest.trans (by rw [hact])⟩

/-- The commons stand where no staged copy waited. -/
theorem foldl_latchAct_commons : ∀ (l : List LatchAct) (s : State), (∀ a ∈ l, ∀ j m v c, a ≠ .staged j m v c) →
    (l.foldl State.latchAct s).commons = s.commons
  | [], _, _ => rfl
  | a :: l, s, h => (foldl_latchAct_commons l (s.latchAct a) fun b hb => h b (.tail _ hb)).trans ((latchAct_keeps s a).commons (h a (.head _)))

/-! ## The record of the tick at its latch (R307, R311) -/

/-- The values that an accepted change brings into force are LEN, S, G and CUT alone. -/
theorem applied_moves (k : TikState) (tick : Nat) : ∃ len settle gd cut next later, k.applied tick =
    { k with len := len, settleUs := settle, gdUs := gd, cutUs := cut, next := next, later := later } := by
  unfold TikState.applied
  split
  · split <;> exact ⟨_, _, _, _, _, _, rfl⟩
  · exact ⟨_, _, _, _, _, _, rfl⟩

/-- The tick that begins at a latch, on a clock of its own (R307, R314). -/
structure Begins (k : TikState) (tick nowNs timeNs : Nat) : Prop where
  ticking : k.ticking = true
  tick : k.tick = tick
  latchNs : k.latchNs = nowNs
  timeNs : k.timeNs = timeNs
  stallNs : k.stallNs = 0
  cutoffPassed : k.cutoffPassed = false
  runEnded : k.runEnded = false
  settled : k.settled = false
  doneSent : k.doneSent = none
  doneGot : k.doneGot = []
  nextLatch : k.nextLatch = none

/-- The step of a tick says nothing of its beginning. -/
theorem Begins.withStep {k : TikState} {tick nowNs timeNs : Nat} (h : Begins k tick nowNs timeNs) (step : Nat) :
    Begins { k with step := step } tick nowNs timeNs :=
  ⟨h.ticking, h.tick, h.latchNs, h.timeNs, h.stallNs, h.cutoffPassed, h.runEnded, h.settled, h.doneSent, h.doneGot, h.nextLatch⟩

theorem tikLatch_begins (k : TikState) (tick nowNs : Nat) :
    Begins (k.latch tick nowNs) tick nowNs k.timeNs ∧ (k.latch tick nowNs).planStep = k.planStep ∧ (k.latch tick nowNs).planEdom = k.planEdom := by
  obtain ⟨_, _, _, _, _, _, h⟩ := applied_moves k tick
  unfold TikState.latch
  rw [h]
  exact ⟨⟨rfl, rfl, rfl, rfl, rfl, rfl, rfl, rfl, rfl, rfl, rfl⟩, rfl, rfl⟩

/-! ## The level at a latch (R342, R346, R347) -/

/-- The measurements of a tick leave its level, the bounds and what the cut-off has planned. -/
theorem endTickPower_keeps (s : State) (nowNs : Nat) :
    (s.endTickPower nowNs).pwr.floor = s.pwr.floor ∧ (s.endTickPower nowNs).pwr.planOverride = s.pwr.planOverride := by
  unfold State.endTickPower
  dsimp only
  split
  · split <;> exact ⟨rfl, rfl⟩
  · split <;> split <;> exact ⟨rfl, rfl⟩

/-- The level that a latch brings into force: FLOOR at the first, the planned step at any other. -/
def latchedStep (s : State) (first : Bool) : Nat × Option Nat := if first then (s.pwr.floor, none) else (s.tik.planStep, s.pwr.planOverride)

/-- The level of the tick stands: the record of the tick, and what the latch took up of the plan. -/
structure LevelKept (s t : State) : Prop where
  tik : t.tik = s.tik
  level : t.pwr.level = s.pwr.level
  override : t.pwr.override = s.pwr.override
  edom : t.pwr.edom = s.pwr.edom

theorem LevelKept.refl (s : State) : LevelKept s s := ⟨rfl, rfl, rfl, rfl⟩

theorem LevelKept.trans {s t u : State} (a : LevelKept s t) (b : LevelKept t u) : LevelKept s u :=
  ⟨b.tik.trans a.tik, b.level.trans a.level, b.override.trans a.override, b.edom.trans a.edom⟩

theorem LevelKept.ite {s t u : State} {c : Prop} [Decidable c] (ht : LevelKept s t) (hu : LevelKept s u) : LevelKept s (if c then t else u) := by
  split
  · exact ht
  · exact hu

theorem LevelKept.raiseDev {s t : State} (h : LevelKept s t) (p b : Nat) : LevelKept s (t.raiseDev p b) :=
  h.trans ⟨raiseDev_tik t p b, congrArg _ (raiseDev_pwr t p b), congrArg _ (raiseDev_pwr t p b), congrArg _ (raiseDev_pwr t p b)⟩

theorem LevelKept.bump {s t : State} (h : LevelKept s t) (c k i n : Nat) : LevelKept s (t.bump c k i n) := h.trans ⟨rfl, rfl, rfl, rfl⟩

theorem latchLevel_leaves (s : State) (tick : Nat) (first : Bool) :
    (s.latchLevel tick first).tik = { s.tik with step := (latchedStep s first).1 } ∧
      (s.latchLevel tick first).pwr.level = (latchedStep s first).1 ∧
      (s.latchLevel tick first).pwr.override = (latchedStep s first).2.isSome ∧
      (first = false → (s.latchLevel tick first).pwr.edom = s.tik.planEdom) := by
  unfold State.latchLevel
  extract_lets p lv edom edge counted s0 s1 s2 s3 s4 s5
  have h2 : LevelKept s1 s2 := .ite ((LevelKept.bump (.refl s1) dev pPwr 0 1).trans ⟨rfl, rfl, rfl, rfl⟩) (.refl _)
  have h3 : LevelKept s2 s3 := by
    refine .ite ?_ (.refl _)
    split
    · exact ⟨rfl, rfl, rfl, rfl⟩
    · exact .refl _
  have h4 : LevelKept s3 s4 := .ite (.bump (.refl _) ..) (.refl _)
  have h5 : LevelKept s4 s5 := .ite (.raiseDev (.refl _) ..) (.refl _)
  have hlast := (h2.trans h3).trans (h4.trans h5)
  have hall : LevelKept s1 (if (!first && lv.1 != p.level) = true then (s5.bump dev pPwr 3 1).raiseDev pPwr 2 else s5) :=
    .ite (.raiseDev (.bump hlast ..) ..) hlast
  obtain ⟨htik, hlevel, hoverride, hedom⟩ := hall
  refine ⟨htik.trans rfl, hlevel.trans rfl, hoverride.trans rfl, fun hfirst => hedom.trans ?_⟩
  show edom = _
  exact if_neg (ne_true_of_eq_false hfirst)

/-! ## The steps of the latch (R308) -/

/-- The record of the tick, the level, the refresh modes, the commons and the recipe stand. -/
structure Stands (s t : State) : Prop where
  tik : t.tik = s.tik
  pwr : t.pwr = s.pwr
  memg : t.memg = s.memg
  commons : t.commons = s.commons
  recipe : t.recipe = s.recipe

theorem Stands.of_frame {L : List Part} {s t : State} (h : Frame L s t)
    (hL : ∀ p ∈ [Part.tik, .pwr, .memg, .commons, .recipe], p ∉ L) : Stands s t where
  tik := h.kept .tik (hL _ (by decide))
  pwr := h.kept .pwr (hL _ (by decide))
  memg := h.kept .memg (hL _ (by decide))
  commons := h.kept .commons (hL _ (by decide))
  recipe := h.kept .recipe (hL _ (by decide))

section Latch

variable (s : State) (tick nowNs : Nat) (first : Bool)

/-- The tick that ends is measured, and the record of the tick begins anew. -/
def timedAnew : State := ((s.endTickPower nowNs).atTime nowNs).updTik (fun t => t.latch tick nowNs)

/-- The state that the waiting changes find: steps 1 to 4. -/
def beforeActs : State :=
  let s1 := if first then (timedAnew s tick nowNs).firstLatch else timedAnew s tick nowNs
  let s2 := s1.eachDom (fun t d => t.latchTearDown tick nowNs d)
  let s3 := s2.eachDom (fun t d => t.releaseClosed d)
  let s4 := (s3.releaseCopy 0).releaseCopy 1
  ((s4.applyCommits).clearOldHeld).latchSwitch tick

/-- The domains' own changes once the waiting ones are made. -/
def domsLatched : State :=
  ((beforeActs s tick nowNs first).latchActs.eachDom (fun t d => t.latchDom tick nowNs d)).eachDom (fun t d => t.latchPreempt d tick)

/-- The refresh mode of the tick, and a first emergency for every channel again (R273). -/
def refreshed (m : MemGlobal) (first : Bool) : MemGlobal :=
  { m with latchedMode := refreshMode m.tHot m.latchedMode, refMode := refreshMode m.tHot m.latchedMode,
           tickMode := if first then refreshMode m.tHot m.latchedMode else m.planMode, risen := false }

/-- The state with the refresh mode of the tick. -/
def refreshLatched (u : State) (first : Bool) : State := u.updMemg (fun m => refreshed m first)

/-- The state after the changes of the base model and of the fabric, with no stack retrained yet. -/
structure StacksLatched (u v : State) : Prop where
  stands : Stands u v
  retrained : ∀ j, (v.mbd j).retrained = []

def notRetrained (x : StackState) : StackState := { x with retrained := [] }

theorem stacksLatched_of_mbds {u w : State} (h : Stands u w) :
    StacksLatched u { w with mbds := u.mbds.map (fun (m : Nat × StackState) => (m.1, { m.2 with retrained := [] })) } := by
  refine ⟨⟨h.tik, h.pwr, h.memg, h.commons, h.recipe⟩, fun j => ?_⟩
  have hget : mapGet (u.mbds.map (fun m => (m.1, notRetrained m.2))) j = (mapGet u.mbds j).map notRetrained := mapGet_map u.mbds notRetrained j
  show ((mapGet (u.mbds.map (fun m => (m.1, notRetrained m.2))) j).getD {}).retrained = []
  rw [hget]
  cases mapGet u.mbds j <;> rfl

theorem latchState_stages : ∃ v, StacksLatched (domsLatched s tick nowNs first) v ∧
    s.latchState tick nowNs first = ((refreshLatched v first).latchLevel tick first).ownerChanges s := by
  unfold State.latchState
  extract_lets s0 s1 s2 s3 s4 s5 s6 s7 s8 s9 fabric s10 mode s11
  have h9 : s9 = domsLatched s tick nowNs first := rfl
  clear_value s9
  have hstacks : StacksLatched s9 s10 := stacksLatched_of_mbds
    (w := fabric) (.of_frame (L := [.bas, .fab, .counters, .freeCtr, .out])
      (fr_latchFabric (fr_latchBase (fr_refl _ s9) (by decide)) tick (by decide)) (by decide))
  clear_value s10
  exact ⟨s10, h9 ▸ hstacks, rfl⟩

theorem timedAnew_frame : Frame [.fuses, .tik, .pwr, .counters] s (timedAnew s tick nowNs) :=
  fr_updTik (fr_atTime (fr_endTickPower (fr_refl _ s) nowNs (by decide)) nowNs (by decide)) _ (by decide)

theorem timedAnew_tik : (timedAnew s tick nowNs).tik = { s.tik with timeNs := max nowNs s.tik.timeNs }.latch tick nowNs := by
  have hpower : Frame [.pwr, .counters] s (s.endTickPower nowNs) := fr_endTickPower (fr_refl _ s) nowNs (by decide)
  rw [← hpower.kept .tik (by decide)]
  rfl

theorem timedAnew_pwr : (timedAnew s tick nowNs).pwr = (s.endTickPower nowNs).pwr := rfl

/-- The parts that the steps before the waiting changes move, beside those that the record of the tick moves. -/
def earlyParts : List Part :=
  [.pciPending, .bas, .lks, .ful, .traceHead, .slots, .views, .counters, .acc, .opbuf, .atLatch, .out, .domLife, .domRecord, .domPreempt,
   .domSlabs, .domVec, .domVar, .domUpd, .domKvp, .domTir, .domCol, .domKeys, .domMem, .domPoison]

theorem beforeActs_frame : Frame earlyParts (timedAnew s tick nowNs) (beforeActs s tick nowNs first) := by
  have hfirst : Frame earlyParts (timedAnew s tick nowNs) (if first then (timedAnew s tick nowNs).firstLatch else timedAnew s tick nowNs) := by
    split
    · exact fr_firstLatch (fr_refl _ _) (by decide)
    · exact fr_refl _ _
  have htorn := fr_eachDom hfirst (fun t d => t.latchTearDown tick nowNs d) fun _ d h => fr_latchTearDown h tick nowNs d (by decide)
  have hclosed := fr_eachDom htorn (fun t d => t.releaseClosed d) fun _ d h => fr_releaseClosed h d (by decide)
  have hcopies := fr_releaseCopy (fr_releaseCopy hclosed 0 (by decide)) 1 (by decide)
  exact fr_latchSwitch (fr_clearOldHeld (fr_applyCommits hcopies (by decide)) (by decide)) tick (by decide)

/-- The parts that the steps between the teardowns and the waiting changes move. -/
def afterTearDown : List Part := [.pciPending, .bas, .traceHead, .slots, .views, .counters, .out, .domSlabs, .domVar, .domTir, .domMem, .domPoison]

theorem beforeActs_prunes : Prunes s (beforeActs s tick nowNs first) := by
  have hfirst : Prunes s (if first then (timedAnew s tick nowNs).firstLatch else timedAnew s tick nowNs) := by
    refine .trans (.of_frame (timedAnew_frame s tick nowNs) (by decide)) ?_
    split
    · exact .of_frame (fr_firstLatch (fr_refl _ _) (fun _ h => h)) (by decide)
    · exact .of_eq rfl
  have htorn := hfirst.trans (.eachDom (f := fun t d => t.latchTearDown tick nowNs d) (fun _ _ => .latchTearDown ..) _)
  refine htorn.trans (.of_frame (L := afterTearDown) ?_ (by decide))
  refine fr_latchSwitch (fr_clearOldHeld (fr_applyCommits ?_ (by decide)) (by decide)) tick (by decide)
  refine fr_releaseCopy (fr_releaseCopy ?_ 0 (by decide)) 1 (by decide)
  exact fr_eachDom (fr_refl afterTearDown _) _ fun _ d h => fr_releaseClosed h d (by decide)

/-- The parts that the domains' own changes move. -/
def domParts : List Part :=
  [.pci, .pciPending, .lks, .ful, .traceHead, .slots, .views, .pairs, .counters, .acc, .opbuf, .freeFrames, .out,
   .domLife, .domRecord, .domPreempt, .domQueue, .domSlabs, .domSched, .domVec, .domVar, .domUpd, .domKvp, .domTir, .domCol, .domKeys, .domMem, .domPoison]

theorem domsLatched_stands : Stands (beforeActs s tick nowNs first).latchActs (domsLatched s tick nowNs first) :=
  .of_frame (L := domParts)
    (fr_eachDom (fr_eachDom (fr_refl _ _) _ fun _ d h => fr_latchDom h tick nowNs d (by decide)) _ fun _ d h => fr_latchPreempt h d tick (by decide))
    (by decide)

theorem beforeActs_stands : Stands (timedAnew s tick nowNs) (beforeActs s tick nowNs first) := .of_frame (beforeActs_frame s tick nowNs first) (by decide)

theorem latchActs_tik : s.latchActs.tik = s.tik := (fr_latchActs (fr_refl _ s) (fun _ h => h)).kept .tik (by decide)

theorem latchActs_pwr : s.latchActs.pwr = s.pwr := (fr_latchActs (fr_refl _ s) (fun _ h => h)).kept .pwr (by decide)

theorem latchActs_memg : ∃ len every, s.latchActs.memg = { s.memg with maintLen := len, maintEvery := every } :=
  foldl_latchAct_memg s.atLatch { s with atLatch := [] }

theorem latchActs_commons (h : ∀ a ∈ s.atLatch, ∀ j m v c, a ≠ .staged j m v c) : s.latchActs.commons = s.commons :=
  foldl_latchAct_commons s.atLatch { s with atLatch := [] } h

theorem latchActs_recipe {row : Nat} {r : Recipe} (h : s.atLatch = [.recipe row r]) : s.latchActs.recipe = s.recipe.set row r := by
  unfold State.latchActs
  rw [h]
  rfl

theorem domsLatched_tik : (domsLatched s tick nowNs first).tik = { s.tik with timeNs := max nowNs s.tik.timeNs }.latch tick nowNs := by
  rw [(domsLatched_stands ..).tik, latchActs_tik, (beforeActs_stands ..).tik, timedAnew_tik]

theorem domsLatched_pwr : (domsLatched s tick nowNs first).pwr = (s.endTickPower nowNs).pwr := by
  rw [(domsLatched_stands ..).pwr, latchActs_pwr, (beforeActs_stands ..).pwr, timedAnew_pwr]

theorem domsLatched_memg : ∃ len every, (domsLatched s tick nowNs first).memg = { s.memg with maintLen := len, maintEvery := every } := by
  obtain ⟨len, every, hacts⟩ := latchActs_memg (beforeActs s tick nowNs first)
  refine ⟨len, every, (domsLatched_stands ..).memg.trans ?_⟩
  rw [hacts, (beforeActs_stands ..).memg, (timedAnew_frame s tick nowNs).kept .memg (by decide)]

theorem domsLatched_commons (h : ∀ a ∈ s.atLatch, ∀ j m v c, a ≠ .staged j m v c) :
    (domsLatched s tick nowNs first).commons = s.commons := by
  rw [(domsLatched_stands ..).commons, latchActs_commons _ fun a ha => h a ((beforeActs_prunes ..).mem ha), (beforeActs_stands ..).commons,
    (timedAnew_frame s tick nowNs).kept .commons (by decide)]

theorem domsLatched_recipe {row : Nat} {r : Recipe} (h : s.atLatch = [.recipe row r]) :
    (domsLatched s tick nowNs first).recipe = s.recipe.set row r := by
  rw [(domsLatched_stands ..).recipe, latchActs_recipe _ ((beforeActs_prunes ..).recipe h), (beforeActs_stands ..).recipe,
    (timedAnew_frame s tick nowNs).kept .recipe (by decide)]

/-- What holds of the tick that a latch begins: its record, its level, its refresh mode, and what the waiting changes left. -/
structure LatchLeaves (t : State) : Prop where
  begins : Begins t.tik tick nowNs (max nowNs s.tik.timeNs)
  step : t.tik.step = (latchedStep s first).1
  level : t.pwr.level = (latchedStep s first).1
  override : t.pwr.override = (latchedStep s first).2.isSome
  edom : first = false → t.pwr.edom = s.tik.planEdom
  latchedMode : t.memg.latchedMode = refreshOf s.memg.tHot s.memg.latchedMode
  refMode : t.memg.refMode = t.memg.latchedMode
  tickMode : t.memg.tickMode = if first then t.memg.refMode else s.memg.planMode
  risen : t.memg.risen = false
  retrained : ∀ j, (t.mbd j).retrained = []
  commons : (∀ a ∈ s.atLatch, ∀ j m v c, a ≠ .staged j m v c) → t.commons = s.commons
  recipe : ∀ row r, s.atLatch = [.recipe row r] → t.recipe = s.recipe.set row r

/-- The level, as the latch finds it once the domains have latched: that of the plan, or FLOOR. -/
theorem latchedStep_refreshLatched {v : State} (h : StacksLatched (domsLatched s tick nowNs first) v) :
    latchedStep (refreshLatched v first) first = latchedStep s first := by
  obtain ⟨hfloor, hover⟩ := endTickPower_keeps s nowNs
  have hpwr : v.pwr = (s.endTickPower nowNs).pwr := h.stands.pwr.trans (domsLatched_pwr ..)
  have htik : v.tik.planStep = s.tik.planStep := by
    rw [h.stands.tik, domsLatched_tik]
    exact (tikLatch_begins _ _ _).2.1
  show (if first then (v.pwr.floor, none) else (v.tik.planStep, v.pwr.planOverride)) = _
  rw [hpwr, hfloor, hover, htik]
  rfl

theorem latchState_leaves : LatchLeaves s tick nowNs first (s.latchState tick nowNs first) := by
  obtain ⟨v, hv, hlatch⟩ := latchState_stages s tick nowNs first
  obtain ⟨htik, hlevel, hoverride, hedom⟩ := latchLevel_leaves (refreshLatched v first) tick first
  obtain ⟨hbegins, -, hplanEdom⟩ := tikLatch_begins { s.tik with timeNs := max nowNs s.tik.timeNs } tick nowNs
  obtain ⟨len, every, hmemg⟩ := domsLatched_memg s tick nowNs first
  have hvtik : (refreshLatched v first).tik = _ := hv.stands.tik.trans (domsLatched_tik ..)
  rw [latchedStep_refreshLatched _ _ _ _ hv] at htik hlevel hoverride
  rw [hvtik] at htik hedom
  have hown : Frame [.pciPending, .traceHead, .views, .counters, .out] ((refreshLatched v first).latchLevel tick first)
      (s.latchState tick nowNs first) := by
    rw [hlatch]
    exact fr_ownerChanges (fr_refl _ _) s (fun _ h => h)
  have hlast : Frame [.fuses, .pciPending, .tik, .pwr, .bdg, .traceHead, .views, .counters, .out] (refreshLatched v first)
      (s.latchState tick nowNs first) := fr_trans (fr_latchLevel (fr_refl _ _) tick first (fun _ h => h)) (fr_mono hown (by decide))
  have htik' := (hown.kept .tik (by decide)).trans htik
  have hpwr := hown.kept .pwr (by decide)
  have hmemg' : (s.latchState tick nowNs first).memg = (refreshLatched v first).memg := hlast.kept .memg (by decide)
  have hmode : (refreshLatched v first).memg = refreshed { s.memg with maintLen := len, maintEvery := every } first := by
    rw [← hmemg, ← hv.stands.memg]
    rfl
  rw [hmode] at hmemg'
  constructor
  case begins =>
    rw [htik']
    exact hbegins.withStep _
  case step => rw [htik']
  case level => rw [hpwr, hlevel]
  case override => rw [hpwr, hoverride]
  case edom =>
    intro hfirst
    rw [hpwr, hedom hfirst, hplanEdom]
  case latchedMode | refMode | tickMode | risen =>
    rw [hmemg']
    rfl
  case retrained =>
    intro j
    have hmbds : (s.latchState tick nowNs first).mbds = v.mbds := hlast.kept .mbds (by decide)
    unfold State.mbd
    rw [hmbds]
    exact hv.retrained j
  case commons =>
    intro h
    rw [hlast.kept .commons (by decide)]
    exact hv.stands.commons.trans (domsLatched_commons _ _ _ _ h)
  case recipe =>
    intro row r h
    rw [hlast.kept .recipe (by decide)]
    exact hv.stands.recipe.trans (domsLatched_recipe _ _ _ _ h)

end Latch

/-! ## The plan latch (R308) -/

/-- Counting the holds before the latch, and taking up the plans after it, change nothing of it. -/
theorem LatchLeaves.of_frames {s s' t t' : State} {tick nowNs : Nat} {first : Bool} (hs : Frame [.counters, .domSlabs] s s')
    (ht : Frame [.counters, .atLatch, .freeCtr, .out, .domSlabs, .domSched, .domUpd, .domTir] t t') (h : LatchLeaves s' tick nowNs first t) :
    LatchLeaves s tick nowNs first t' := by
  have hstands : Stands s s' := .of_frame hs (by decide)
  have hstands' : Stands t t' := .of_frame ht (by decide)
  have hwaiting : s'.atLatch = s.atLatch := hs.kept .atLatch (by decide)
  have hstep : latchedStep s' first = latchedStep s first := by
    unfold latchedStep
    rw [hstands.tik, hstands.pwr]
  have hmbds : t'.mbds = t.mbds := ht.kept .mbds (by decide)
  obtain ⟨hbegins, hst, hlevel, hoverride, hedom, hlatched, href, htick, hrisen, hretrained, hcommons, hrecipe⟩ := h
  rw [hstands.tik] at hbegins hedom
  rw [hstands.memg] at hlatched htick
  rw [hstep] at hst hlevel hoverride
  rw [hwaiting, hstands.commons] at hcommons
  rw [hwaiting, hstands.recipe] at hrecipe
  constructor
  case begins => rwa [hstands'.tik]
  case step => rwa [hstands'.tik]
  case level | override | edom => rwa [hstands'.pwr]
  case latchedMode | refMode | tickMode | risen => rwa [hstands'.memg]
  case retrained =>
    unfold State.mbd at hretrained ⊢
    rwa [hmbds]
  case commons => rwa [hstands'.commons]
  case recipe => rwa [hstands'.recipe]

/-- What a latch needs: the settle phase over, or at the first latch a tick master or an announced tick (R509, R510). -/
def latchDue (s : State) : Bool :=
  s.boot.phase == .running && s.fab.trainStart.isSome && (if !s.tik.ticking then s.tik.isMaster || s.tik.nextLatch.isSome else s.tik.settled)

theorem planLatch_leaves {s : State} {nowNs : Nat} (h : latchDue s = true) :
    ∃ t, exec (.planLatch nowNs) s = .next t ∧ LatchLeaves s s.nextTick nowNs (!s.tik.ticking) t ∧ t.out.head? = some .tickOut := by
  have hexec : exec (.planLatch nowNs) s = .next
      ((((s.countHolds nowNs).latchState s.nextTick nowNs (!s.tik.ticking)).eachDom (fun t d => t.takePlan d s.nextTick)).emit .tickOut) := by
    show execPlanLatch nowNs s = _
    unfold execPlanLatch
    exact congrArg Host.Outcome.next (if_pos h)
  refine ⟨_, hexec, .of_frames (fr_countHolds (fr_refl _ s) nowNs (fun _ h => h)) ?_ (latchState_leaves ..), rfl⟩
  exact fr_emit (fr_eachDom (fr_refl _ _) _ fun _ d h => fr_takePlan h d _ (fun _ h => h)) _ (by decide)

/-- The tick that begins, as the statement has it. -/
theorem LatchLeaves.begun {s t : State} {tick nowNs : Nat} {first : Bool} (h : LatchLeaves s tick nowNs first t) 
    (hout : t.out.head? = some .tickOut) :
    t.tik.ticking = true ∧ t.tik.tick = tick ∧ t.tik.latchNs = nowNs ∧ t.tik.timeNs = max nowNs s.tik.timeNs ∧ t.tik.stallNs = 0 ∧
      t.tik.cutoffPassed = false ∧ t.tik.runEnded = false ∧ t.tik.settled = false ∧ t.tik.doneSent = none ∧ t.tik.doneGot = [] ∧
      t.tik.nextLatch = none ∧ (∀ j, (t.mbd j).retrained = []) ∧ t.memg.risen = false ∧ t.out.head? = some .tickOut ∧
      ((∀ a ∈ s.atLatch, ∀ j m v c, a ≠ .staged j m v c) → ∀ a, memRead t.commons a = memRead s.commons a) := by
  obtain ⟨hticking, htick, hlatch, htime, hstall, hcut, hrun, hsettled, hsent, hgot, hnext⟩ := h.begins
  exact ⟨hticking, htick, hlatch, htime, hstall, hcut, hrun, hsettled, hsent, hgot, hnext, h.retrained, h.risen, hout,
    fun hstaged a => by rw [h.commons hstaged]⟩

/-- Settles O41: the cut-off by what it plans from, the latch by what each of its steps leaves. -/
theorem cutoffAndLatch : Obligations.CutoffAndLatch := by
  unfold Obligations.CutoffAndLatch
  intro s nowNs
  refine ⟨fun hk hc => ⟨dueLevel_le_planLevel s, fun hr => ?_, planCutoff_leaves hk hc⟩,
    fun hphase htrain => ⟨fun hk hsettled => ?_, fun hk hmaster => ?_⟩⟩
  · rw [planLevel_unrestricted hr, dueStep_fst]
    rfl
  · have hdue : latchDue s = true := by simp [latchDue, hphase, htrain, hk, hsettled]
    have htick : s.nextTick = s.tik.tick + 1 := if_pos hk
    have hfirst : (!s.tik.ticking) = false := by rw [hk]; rfl
    obtain ⟨t, ht, hleaves, hout⟩ := planLatch_leaves (nowNs := nowNs) hdue
    rw [htick, hfirst] at hleaves
    exact ⟨t, ht, hleaves.begun hout, hleaves.step, hleaves.level, hleaves.edom rfl, hleaves.override, hleaves.latchedMode, hleaves.refMode,
      hleaves.tickMode, fun row r h _ => hleaves.recipe row r h⟩
  · have hdue : latchDue s = true := by
      rcases hmaster with h | h <;> simp [latchDue, hphase, htrain, hk, h]
    have htick : s.nextTick = s.tik.tick := if_neg (ne_true_of_eq_false hk)
    have hfirst : (!s.tik.ticking) = true := by rw [hk]; rfl
    obtain ⟨t, ht, hleaves, hout⟩ := planLatch_leaves (nowNs := nowNs) hdue
    rw [htick, hfirst] at hleaves
    exact ⟨t, ht, hleaves.begun hout, hleaves.step, hleaves.level, hleaves.override, hleaves.refMode.trans hleaves.latchedMode, hleaves.tickMode⟩

end Sys2Proof.Proofs

/-! The epoch decision of the power controller (R338, R340, R342, R344, R346, R347): the terms of R344 by name, and that the decision of the model is theirs. From it the statement on the epoch decision. -/

namespace Sys2Proof.Proofs

open Sys2Proof.Machine Sys2Proof.Safety Sys2Proof.Laws

/-! ## The terms of R344 -/

theorem pDomW_eq_slabPower (k : Nat) : pDomW k = slabPower k := by
  unfold pDomW slabPower stepScale stepMHz
  ring

/-- P_pred(k) in W. -/
def predictedPower (pFix : Rat) (k : Nat) : Rat := (pFix + pDomW k) / 0.93

theorem predictedPower_eq (pFix : Rat) (k : Nat) : predictedPower pFix k = (pFix + slabPower k) / 0.93 := by
  rw [predictedPower, pDomW_eq_slabPower]

/-- P_el in W, from V_min in mV. -/
def electricalLimit (vMin : Nat) : Rat := if 60000 ≤ vMin then 2600 else 43.3 * vMin / 1000

/-- k_e. -/
def capStep (capW : Nat) (pFix : Rat) : Nat := leastStep (fun k => decide (predictedPower pFix k ≤ capW))

/-- The power term of k_hw. -/
def powerStep (pFix : Rat) (vMin : Nat) : Nat := leastStep (fun k => decide (predictedPower pFix k ≤ electricalLimit vMin))

/-- k_t, from k_p. -/
def thermalStep (b : PwrBounds) (tj tHot kp : Nat) : Nat :=
  if b.tjTarget < tj ∨ b.dramTarget < tHot then min 15 (kp + 1) else if tj + 5 ≤ b.tjTarget ∧ tHot + 3 ≤ b.dramTarget then kp - 1 else kp

/-- k_sw, from k_p and k_e. -/
def softwareStep (b : PwrBounds) (tj tHot kp ke : Nat) : Nat := min b.floor (max b.ceil (max (thermalStep b tj tHot kp) ke))

/-- The part of the hardware's thermal term that a temperature above its limit sets. -/
def overheatStep (limit temp kp : Nat) : Nat := if limit < temp then min 15 (kp + 1) else 0

/-- k_hw, from k_p and the power term. -/
def hardwareStep (unavail : List Nat) (tj tHot kp kpow : Nat) : Nat :=
  max (max kpow (overheatStep 105 tj kp)) (max (overheatStep 95 tHot kp) (marginStep unavail))

/-- The lowest cause code of a term that sets k_hw. -/
def overrideCause (tj tHot kp kpow khw : Nat) : Nat :=
  if kpow = khw then 1 else if overheatStep 105 tj kp = khw then 2 else if overheatStep 95 tHot kp = khw then 3 else 4

theorem marginStep_eq (unavail : List Nat) : marginStep unavail = if unavail = [] then 0 else min 15 (unavail.foldl max 0 + 1) := by
  cases unavail <;> rfl

/-- The step that the model searches for is the least of R344. -/
theorem leastStep_eq {p : Nat → Prop} [DecidablePred p] {k : Nat} (h : LeastStep p k) : leastStep (fun j => decide (p j)) = k := by
  obtain ⟨hk, hbefore, hat⟩ := h
  have hnot : ∀ j < k, (!decide (p j)) = true := fun j hj => by simp [hbefore j hj]
  unfold leastStep
  by_cases hp : p k
  · have hfind : (List.range 16).find? (fun j => decide (p j)) = some k :=
      List.find?_range_eq_some.2 ⟨decide_eq_true hp, List.mem_range.2 (by omega), hnot⟩
    rw [hfind, Option.getD_some]
  · obtain rfl : k = 15 := hat.resolve_left hp
    have hnone : (List.range 16).find? (fun j => decide (p j)) = none :=
      List.find?_range_eq_none.2 fun j hj => by
        rcases Nat.lt_succ_iff_lt_or_eq.1 hj with h | rfl
        · exact hnot j h
        · simp [hp]
    rw [hnone, Option.getD_none]

/-! ## The decision -/

/-- The larger of the software and the hardware step, and the cause where the hardware step prevails (R344, R347). -/
def decidedLevel (b : PwrBounds) (unavail : List Nat) (tj tHot kp ke kpow : Nat) : Nat × Option Nat :=
  let ksw := softwareStep b tj tHot kp ke
  let khw := hardwareStep unavail tj tHot kp kpow
  (max ksw khw, if khw ≤ ksw then none else some (overrideCause tj tHot kp kpow khw))

section Decision

variable {s : State}

theorem levelFor_eq (b : PwrBounds) (tj tHot : Nat) (pFix : Rat) (vMin kp : Nat) :
    s.levelFor b tj tHot pFix vMin kp =
      decidedLevel b s.bdg.unavail tj tHot kp (capStep b.capW pFix) (powerStep pFix vMin) := by
  have hbranch : s.levelFor b tj tHot pFix vMin kp =
      let ksw := softwareStep b tj tHot kp (capStep b.capW pFix)
      let khw := hardwareStep s.bdg.unavail tj tHot kp (powerStep pFix vMin)
      if khw ≤ ksw then (ksw, none) else (khw, some (overrideCause tj tHot kp (powerStep pFix vMin) khw)) := rfl
  rw [hbranch]
  unfold decidedLevel
  dsimp only
  split
  · next h => rw [max_eq_left h]
  · next h => rw [max_eq_right (Nat.le_of_not_le h)]

/-- The decision's conditions beside a measured tick (R342, R346). -/
def decisionDue (s : State) : Bool := s.tik.ticking && s.tik.tick % 64 == 63 && !s.tik.cutoffPassed && s.pwr.epochsRunning

theorem decisionDue_of (hk : s.tik.ticking = true) (hlast : s.tik.tick % 64 = 63) (hc : s.tik.cutoffPassed = false)
    (hrun : s.pwr.epochsRunning = true) : decisionDue s = true := by
  simp [decisionDue, hk, hlast, hc, hrun]

theorem epochDecision_unmeasured (h : s.pwr.winTicks = 0) : exec .epochDecision s = .next s :=
  congrArg Host.Outcome.next (if_neg (by simp [h]))

/-- What the decision leaves of the power controller; PWR_FIX is P_fix rounded down (R342, R344; log 111). -/
def decided (p : PowerState) (vMin : Nat) (level : Nat × Option Nat) : PowerState :=
  { p with next := level.1, nextValid := true, nextOverride := level.2, nextBasis := some (p.winTj, p.winTHot, p.winPFix, vMin, p.level),
           pFix := min 4095 p.winPFix.floor.toNat }

theorem epochDecision_measured {vMin : Nat} (hdue : decisionDue s = true) (hticks : s.pwr.winTicks ≠ 0) (hv : s.pwr.winVmin = some vMin) :
    exec .epochDecision s = .next (s.updPwr fun p =>
      decided p vMin (s.levelFor s.pwr.bounds s.pwr.winTj s.pwr.winTHot s.pwr.winPFix vMin s.pwr.level)) := by
  have hruns : (decisionDue s && s.pwr.winTicks != 0) = true := by simp [hdue, hticks]
  refine (congrArg Host.Outcome.next (if_pos hruns)).trans ?_
  rw [hv]
  rfl

end Decision

/-- Settles O38: without a measured tick nothing is decided; with one the decision is the level of R344, from its named terms. -/
theorem epochDecision : Obligations.EpochDecision := by
  unfold Obligations.EpochDecision
  intro s ke kpow vMin p k pred pel hot cool kt ksw kdie kdram kmar khw cause hk hlast hc hrun
  refine ⟨epochDecision_unmeasured, fun hticks hv he hpow => ⟨_, epochDecision_measured (decisionDue_of hk hlast hc hrun) hticks hv, rfl, ?_⟩⟩
  have hcap : capStep p.bounds.capW p.winPFix = ke := leastStep_eq (by simp only [predictedPower_eq]; exact he)
  have hpower : powerStep p.winPFix vMin = kpow := leastStep_eq (by simp only [predictedPower_eq]; exact hpow)
  have hhard : hardwareStep s.bdg.unavail p.winTj p.winTHot k kpow = khw := by
    unfold hardwareStep
    rw [marginStep_eq, max_assoc]
    rfl
  rw [updPwr_pwr, levelFor_eq, hcap, hpower, decidedLevel, hhard]
  rfl

end Sys2Proof.Proofs

/-! Sensor readings, the input range, and the bounds and targets of the power controller (R334, R343, R348, R357, R358): what a reading adds to the tick's measurements, and what a write of the bounds leaves by whether its values are in range and whether it can only slow the device. From them the statement on sensors and bounds. -/

namespace Sys2Proof.Proofs

open Sys2Proof.Machine Sys2Proof.Safety Sys2Proof.Laws

/-! ## Readings (R334, R343) -/

section Readings

variable {s : State}

/-- The largest of a value and the numbers of a list. -/
theorem foldl_max_from (l : List Nat) (a : Nat) :
    (∀ v ∈ l, v ≤ l.foldl max a) ∧ a ≤ l.foldl max a ∧ (l.foldl max a = a ∨ l.foldl max a ∈ l) := by
  obtain ⟨hmem, hle⟩ := foldl_max_spec (List.cons_ne_nil a l)
  rw [List.foldl_cons, Nat.zero_max] at hmem hle
  exact ⟨fun v hv => hle v (.tail _ hv), hle a (.head _), List.mem_cons.1 hmem⟩

/-- V_min of the tick once an input voltage has been read. -/
def lowestInput (p : PowerState) (mV : Nat) : Nat :=
  match p.tickVmin with
  | some x => min x mV
  | none => mV

/-- The tick's measurements with one reading of the sensors and of the input. -/
def sensed (sensors : List Nat) (pInW mV : Nat) (p : PowerState) : PowerState :=
  { p with tickTj := sensors.foldl max p.tickTj, tickPSum := p.tickPSum + pInW, tickPCount := p.tickPCount + 1,
           tickVmin := some (lowestInput p mV), inputRange := p.inputRange || rangeVolts mV }

/-- The tick's measurements with an input voltage outside full operation. -/
def strained (mV : Nat) (p : PowerState) : PowerState := { p with tickVmin := some (lowestInput p mV), inputRange := true }

theorem phase_beq_of_eq (h : s.boot.phase = .running ∨ s.boot.phase = .bringUp) : (s.boot.phase == .running || s.boot.phase == .bringUp) = true := by
  simpa using h

theorem exec_computeDieSensorRead (h : s.boot.phase = .running ∨ s.boot.phase = .bringUp) (sensors : List Nat) (pInW mV : Nat) :
    exec (.computeDieSensorRead sensors pInW mV) s =
      .next ((s.updPwr (sensed sensors pInW mV)).updBoot (fun b => { b with vInMv := mV })) :=
  congrArg Host.Outcome.next (if_pos (phase_beq_of_eq h))

theorem exec_inputRange (h : s.boot.phase = .running ∨ s.boot.phase = .bringUp) {mV : Nat} (hr : rangeVolts mV = true) :
    exec (.inputRange mV) s = .next (((s.updPwr (strained mV)).updBoot (fun b => { b with vInMv := mV })).raiseDev pPwr 3) :=
  congrArg Host.Outcome.next (if_pos (Bool.and_eq_true_iff.2 ⟨hr, phase_beq_of_eq h⟩))

theorem inputRange_leaves (h : s.boot.phase = .running ∨ s.boot.phase = .bringUp) {mV : Nat}
    (hr : (56000 ≤ mV ∧ mV < 60000) ∨ (80000 < mV ∧ mV ≤ 84000)) :
    ∃ t, exec (.inputRange mV) s = .next t ∧ t.boot = { s.boot with vInMv := mV } ∧ t.pwr = strained mV s.pwr ∧
      EventIn t (s.devCopies pPwr 3) pPwr 3 :=
  ⟨_, exec_inputRange h (by simpa [rangeVolts] using hr), raiseDev_boot .., raiseDev_pwr ..,
    raiseDev_eventIn (devCopies_of_doms rfl ..) (by decide)⟩

end Readings

/-! ## Writes of the bounds (R348) -/

/-- The values that a write may leave in the registers. -/
def BoundsAllowed (b : PwrBounds) : Prop :=
  b.ceil ≤ b.floor ∧ 1000 ≤ b.capW ∧ b.capW ≤ 2600 ∧ 70 ≤ b.tjTarget ∧ b.tjTarget ≤ 100 ∧ 70 ≤ b.dramTarget ∧ b.dramTarget ≤ 90

/-- A write of the new bounds can only slow the device. -/
def OnlySlows (old new : PwrBounds) : Prop :=
  old.ceil ≤ new.ceil ∧ old.floor ≤ new.floor ∧ new.capW ≤ old.capW ∧ new.tjTarget ≤ old.tjTarget ∧ new.dramTarget ≤ old.dramTarget

/-- The registers with a write taken whole. -/
def rebounded (p : PowerState) (b : PwrBounds) (restrict : Bool) (inForce : PwrBounds) : PowerState :=
  { p with ceil := b.ceil, floor := b.floor, capW := b.capW, tjTarget := b.tjTarget, dramTarget := b.dramTarget,
           restrict := restrict, inForce := inForce }

section Writes

variable {s : State} {v : View} {b : PwrBounds}

theorem writeBounds_refused (hr : isRegion0 v = true) (hv : s.viewOpen v = true) (h : ¬ BoundsAllowed b) :
    s.writeBounds v b.ceil b.floor b.capW b.tjTarget b.dramTarget = s.raiseDev pPwr 0 :=
  (if_neg (by simp [hr, hv])).trans (if_pos (by unfold BoundsAllowed at h; omega))

/-- A write taken whole: only one that can only slow the device is in force from the next plan (R348). -/
theorem writeBounds_taken (hr : isRegion0 v = true) (hv : s.viewOpen v = true) (h : BoundsAllowed b) :
    ∃ restrict inForce, s.writeBounds v b.ceil b.floor b.capW b.tjTarget b.dramTarget = { s with pwr := rebounded s.pwr b restrict inForce } ∧
      (OnlySlows s.pwr.bounds b → b ≠ s.pwr.bounds → restrict = true ∧ inForce = s.pwr.inForce.slower b) ∧
      (¬ OnlySlows s.pwr.bounds b → restrict = s.pwr.restrict ∧ inForce = s.pwr.inForce) := by
  refine ⟨_, _, (if_neg (by simp [hr, hv])).trans (if_neg (by unfold BoundsAllowed at h; omega)), fun hs hne => ?_, fun hs => ?_⟩
  · have hnarrows := And.intro hs fun hsame => hne (PwrBounds.mk.injEq .. ▸ hsame)
    exact ⟨Bool.or_eq_true_iff.2 (.inr (decide_eq_true hnarrows)), if_pos hnarrows⟩
  · refine ⟨?_, if_neg fun hnarrows => hs hnarrows.1⟩
    rw [decide_eq_false, Bool.or_false]
    exact fun hnarrows => hs hnarrows.1

/-- A write in region 0 by whether its values are in range. -/
theorem writeBounds_leaves (hr : isRegion0 v = true) (hv : s.viewOpen v = true) (b : PwrBounds) :
    let t := s.writeBounds v b.ceil b.floor b.capW b.tjTarget b.dramTarget
    (¬ BoundsAllowed b → t.pwr = s.pwr ∧ EventIn t (s.devCopies pPwr 0) pPwr 0) ∧
      (BoundsAllowed b → t = { s with pwr := t.pwr } ∧ t.pwr = rebounded s.pwr b t.pwr.restrict t.pwr.inForce ∧
        (OnlySlows s.pwr.bounds b → b ≠ s.pwr.bounds → t.pwr.restrict = true ∧ t.pwr.inForce = s.pwr.inForce.slower b) ∧
        (¬ OnlySlows s.pwr.bounds b → t.pwr.restrict = s.pwr.restrict ∧ t.pwr.inForce = s.pwr.inForce)) := by
  refine ⟨fun h => ?_, fun h => ?_⟩
  · rw [writeBounds_refused hr hv h]
    exact ⟨raiseDev_pwr .., raiseDev_event s pPwr 0 (by decide)⟩
  · obtain ⟨restrict, inForce, htaken, hslows, hfrees⟩ := writeBounds_taken hr hv h
    rw [htaken]
    exact ⟨rfl, rfl, hslows, hfrees⟩

end Writes

/-- Settles O39: each reading by what it adds to the tick's measurements, each write by whether its values are in range and whether it can only slow the device. -/
theorem sensorsAndBounds : Obligations.SensorsAndBounds := by
  unfold Obligations.SensorsAndBounds
  intro s v value sensors pInW mV p w ceil floor cap tj dram lowest inRange rejected
  refine ⟨fun hphase => ⟨⟨_, exec_computeDieSensorRead hphase sensors pInW mV, rfl, ?sensed⟩, inputRange_leaves hphase⟩,
    fun hr hv => ⟨⟨_, rfl, ?bounds⟩, ⟨_, rfl, ?targets⟩⟩⟩
  case sensed =>
    obtain ⟨hle, hfrom, hmem⟩ := foldl_max_from sensors p.tickTj
    exact ⟨hle, hfrom, hmem, rfl⟩
  case bounds =>
    obtain ⟨hrefused, htaken⟩ := writeBounds_leaves hr hv ⟨ceil, floor, cap, p.tjTarget, p.dramTarget⟩
    refine ⟨hrefused, fun h => ?_⟩
    obtain ⟨hrest, hpwr, hslows, hfrees⟩ := htaken h
    refine ⟨hrest, hpwr, fun hceil hfloor hcap hne => hslows ⟨hceil, hfloor, hcap, le_rfl, le_rfl⟩ fun hsame => hne ?_, fun hfaster => hfrees ?_⟩
    · exact ⟨congrArg PwrBounds.ceil hsame, congrArg PwrBounds.floor hsame, congrArg PwrBounds.capW hsame⟩
    · rintro ⟨hceil, hfloor, hcap, -, -⟩
      rcases hfaster with h | h | h
      · exact hceil.not_gt h
      · exact hfloor.not_gt h
      · exact hcap.not_gt h
  case targets =>
    obtain ⟨hrefused, htaken⟩ := writeBounds_leaves hr hv ⟨p.ceil, p.floor, p.capW, tj, dram⟩
    refine ⟨hrefused, fun h => ?_⟩
    obtain ⟨hrest, hpwr, hslows, hfrees⟩ := htaken h
    refine ⟨hrest, hpwr, fun htj hdram hne => hslows ⟨le_rfl, le_rfl, le_rfl, htj, hdram⟩ fun hsame => hne ?_, fun hfaster => hfrees ?_⟩
    · exact ⟨congrArg PwrBounds.tjTarget hsame, congrArg PwrBounds.dramTarget hsame⟩
    · rintro ⟨-, -, -, htj, hdram⟩
      rcases hfaster with h | h
      · exact htj.not_gt h
      · exact hdram.not_gt h

end Sys2Proof.Proofs

/-! Badger's measurements (R352 to R355, R359): the steps that a measurement leaves unavailable, the margin of the others, the voltages that it plans, and what it leaves of Badger's state, its counters and its events. From them the statement on Badger. -/

namespace Sys2Proof.Proofs

open Sys2Proof.Machine Sys2Proof.Safety Sys2Proof.Laws

/-! ## What is made of the required voltages (R353 to R355) -/

/-- The steps out of margin, fastest first. -/
def failingSteps (req : List Nat) : List Nat := (List.range 16).filter (fun k => contractMv k < req.getD k 0 + 20)

theorem mem_failingSteps {req : List Nat} {j : Nat} : j ∈ failingSteps req ↔ j < 16 ∧ contractMv j < req.getD j 0 + 20 := by
  simp [failingSteps]

theorem outOfMargin_eq (req : List Nat) :
    outOfMargin req = if failingSteps req = [] then [] else List.range ((failingSteps req).foldl max 0 + 1) := by
  unfold outOfMargin failingSteps
  generalize (List.range 16).filter _ = l
  cases l <;> rfl

/-- The slowest step out of margin and every faster one are unavailable: the steps below a bound. -/
theorem outOfMargin_eq_range (req : List Nat) : ∃ n, outOfMargin req = List.range n ∧ ∀ k, k < n ↔ ∃ j, k ≤ j ∧ j ∈ failingSteps req := by
  by_cases h : failingSteps req = []
  · exact ⟨0, by rw [outOfMargin_eq, if_pos h, List.range_zero], by simp [h]⟩
  · obtain ⟨hmem, hle⟩ := foldl_max_spec h
    refine ⟨(failingSteps req).foldl max 0 + 1, by rw [outOfMargin_eq, if_neg h], fun k => ⟨fun hk => ⟨_, Nat.le_of_lt_succ hk, hmem⟩, ?_⟩⟩
    rintro ⟨j, hkj, hj⟩
    exact Nat.lt_succ_of_le (hkj.trans (hle j hj))

theorem mem_outOfMargin {req : List Nat} {k : Nat} : k ∈ outOfMargin req ↔ ∃ j, k ≤ j ∧ j < 16 ∧ contractMv j < req.getD j 0 + 20 := by
  obtain ⟨n, hrange, hn⟩ := outOfMargin_eq_range req
  simp only [hrange, List.mem_range, hn, mem_failingSteps]

/-- Where not every step is unavailable, the slowest is available. -/
theorem slowest_available {req : List Nat} (h : (outOfMargin req).length < 16) : 15 ∉ outOfMargin req := by
  obtain ⟨n, hrange, -⟩ := outOfMargin_eq_range req
  rw [hrange, List.length_range] at h
  rw [hrange, List.mem_range]
  omega

/-- What the contract voltage of a step leaves above its required voltage and 20 mV (R354). -/
def marginMv (req : List Nat) (k : Nat) : Int := (contractMv k : Int) - req.getD k 0 - 20

/-- The smallest number of a list that is not empty. -/
theorem foldl_min_spec (a : Int) (r : List Int) : r.foldl min a ∈ a :: r ∧ ∀ v ∈ a :: r, r.foldl min a ≤ v :=
  List.min?_eq_some_iff.1 List.min?_cons'

/-- GUARD_MV is the least margin of the available steps. -/
theorem guardMv_least {req unavail : List Nat} (h : ∃ k < 16, k ∉ unavail) :
    (∃ k, k < 16 ∧ k ∉ unavail ∧ guardMv req unavail = marginMv req k) ∧ ∀ k, k < 16 → k ∉ unavail → guardMv req unavail ≤ marginMv req k := by
  have hmem {k : Nat} : k ∈ (List.range 16).filter (fun k => !unavail.contains k) ↔ k < 16 ∧ k ∉ unavail := by simp
  obtain ⟨k, hk, hfree⟩ := h
  have hne : (List.range 16).filter (fun k => !unavail.contains k) ≠ [] := List.ne_nil_of_mem (hmem.2 ⟨hk, hfree⟩)
  obtain ⟨i, ks, hks⟩ := List.exists_cons_of_ne_nil hne
  have hguard : guardMv req unavail = (ks.map (marginMv req)).foldl min (marginMv req i) := by
    unfold guardMv
    rw [hks]
    rfl
  obtain ⟨hattained, hbound⟩ := foldl_min_spec (marginMv req i) (ks.map (marginMv req))
  rw [← hguard, ← List.map_cons, ← hks] at hattained hbound
  refine ⟨?_, fun j hj hfree => hbound _ (List.mem_map_of_mem (hmem.2 ⟨hj, hfree⟩))⟩
  obtain ⟨j, hj, heq⟩ := List.mem_map.1 hattained
  exact ⟨j, (hmem.1 hj).1, (hmem.1 hj).2, heq.symm⟩

/-- V_plan of every step after a measurement. -/
def replanned (old req : List Nat) : List Nat := (List.range 16).map (fun k => replan (old.getD k 0) (req.getD k 0) k)

theorem replanned_spec (old req : List Nat) : (replanned old req).length = 16 ∧ ∀ k, k < 16 →
    (replanned old req).getD k 0 = min (850 - 16 * k) (max (old.getD k 0 - 5) (5 * ceilDiv (req.getD k 0 + 20) 5)) := by
  refine ⟨by simp [replanned], fun k hk => ?_⟩
  have hget : (replanned old req).getD k 0 = replan (old.getD k 0) (req.getD k 0) k := by
    simp [replanned, List.getD_eq_getElem?_getD, hk]
  rw [hget, replan, roundUp, contractMv, mul_comm _ 5]

/-! ## A measurement -/

/-- The voltages that are planned when the measurement comes. -/
def plannedMvs (s : State) : List Nat := s.bdg.vPlanNext.getD s.fuses.vPlan

/-- Badger's state after a measurement. -/
def measuredBdg (s : State) (req : List Nat) : BdgState :=
  { s.bdg with unavail := outOfMargin req, lastTick := s.tik.tick % 2 ^ 32, measuring := false,
               guardLog := ((s.fuses.onSeconds.toNat, guardMv req (outOfMargin req)) :: s.bdg.guardLog).take 16,
               vPlanNext := if replanned (plannedMvs s) req = s.fuses.vPlan then none else some (replanned (plannedMvs s) req) }

/-- The state with the measurement taken, before its counters and events. -/
def measuredOnly (s : State) (req : List Nat) : State :=
  { s with fuses := { s.fuses with vReq := req }, bdg := measuredBdg s req }

/-- MEASUREMENTS is counted, and REPLANS where a voltage changes. -/
def measureCounted (s : State) (req : List Nat) : State :=
  if replanned (plannedMvs s) req = plannedMvs s then (measuredOnly s req).bump dev pBdg 0 1
  else ((measuredOnly s req).bump dev pBdg 0 1).bump dev pBdg 1 1

/-- END_OF_MARGIN where a step is unavailable. -/
def marginEnded (s : State) (req : List Nat) : State :=
  if (outOfMargin req).isEmpty then measureCounted s req else (measureCounted s req).raiseDev pBdg 0

/-- The last measurement had already found 15 mV or less. -/
def wasLow (s : State) : Bool :=
  match s.bdg.guardLog with
  | [] => false
  | g :: _ => decide (g.2 ≤ 15)

theorem measured_eq (s : State) (req : List Nat) : s.measured req =
    if guardMv req (outOfMargin req) ≤ 15 && !wasLow s then (marginEnded s req).raiseDev pBdg 1 else marginEnded s req := rfl

theorem wasLow_eq_false {s : State} (h : ∀ g r, s.bdg.guardLog = g :: r → 15 < g.2) : wasLow s = false := by
  unfold wasLow
  split
  · rfl
  · next g r hlog => exact decide_eq_false (not_le.2 (h g r hlog))

theorem measureCounted_frame (s : State) (req : List Nat) : Frame evParts (measuredOnly s req) (measureCounted s req) := by
  have hcount := fr_bump (fr_refl evParts (measuredOnly s req)) dev pBdg 0 1 (by decide)
  exact ite_frame hcount (fr_bump hcount dev pBdg 1 1 (by decide))

theorem marginEnded_frame (s : State) (req : List Nat) : Frame evParts (measuredOnly s req) (marginEnded s req) :=
  ite_frame (measureCounted_frame s req) (fr_raiseDev (measureCounted_frame s req) pBdg 0 (by decide))

/-- After the measurement itself only counters and events move. -/
theorem measured_frame (s : State) (req : List Nat) : Frame evParts (measuredOnly s req) (s.measured req) := by
  rw [measured_eq]
  exact ite_frame (fr_raiseDev (marginEnded_frame s req) pBdg 1 (by decide)) (marginEnded_frame s req)

theorem untraced_bdg {i : Nat} (hi : i < 8) : Untraced dev pBdg i := by
  unfold Untraced counterKey dev pBdg pDbg
  omega

/-- The events of a measurement move no counter of Badger's page. -/
theorem measured_counter (s : State) (req : List Nat) {i : Nat} (hi : i < 8) :
    (s.measured req).counter dev pBdg i = (measureCounted s req).counter dev pBdg i := by
  have hended : (marginEnded s req).counter dev pBdg i = (measureCounted s req).counter dev pBdg i := by
    unfold marginEnded
    split
    · rfl
    · exact counter_raiseDev _ _ _ (untraced_bdg hi)
  rw [measured_eq]
  split
  · exact (counter_raiseDev _ _ _ (untraced_bdg hi)).trans hended
  · exact hended

theorem measureCounted_counter (s : State) (req : List Nat) :
    (measureCounted s req).counter dev pBdg 0 = s.counter dev pBdg 0 + 1 ∧
      (measureCounted s req).counter dev pBdg 1 =
        s.counter dev pBdg 1 + (if replanned (plannedMvs s) req = plannedMvs s then 0 else 1) := by
  unfold measureCounted
  split
  · refine ⟨counter_bump_self .., ?_⟩
    rw [counter_bump_ne _ _ _ _ (by decide)]
    exact (BitVec.add_zero _).symm
  · refine ⟨?_, ?_⟩
    · rw [counter_bump_ne _ _ _ _ (by decide), counter_bump_self]
      rfl
    · rw [counter_bump_self, counter_bump_ne _ _ _ _ (by decide)]
      rfl

theorem measured_endOfMargin {s : State} {req : List Nat} (h : outOfMargin req ≠ []) : EventIn (s.measured req) (s.devCopies pBdg 0) pBdg 0 := by
  have hended : EventIn (marginEnded s req) (s.devCopies pBdg 0) pBdg 0 := by
    rw [marginEnded, if_neg (by simpa using h)]
    exact raiseDev_eventIn (devCopies_of_frame (measureCounted_frame s req) (by decide) ..) (by decide)
  rw [measured_eq]
  split
  · exact eventIn_of_stays (eventsStay_raiseDev _ _ _) hended
  · exact hended

theorem measured_marginLow {s : State} {req : List Nat} (hlow : guardMv req (outOfMargin req) ≤ 15) (hlast : ∀ g r, s.bdg.guardLog = g :: r → 15 < g.2) :
    EventIn (s.measured req) (s.devCopies pBdg 1) pBdg 1 := by
  rw [measured_eq, if_pos (by simp [hlow, wasLow_eq_false hlast])]
  exact raiseDev_eventIn (devCopies_of_frame (marginEnded_frame s req) (by decide) ..) (by decide)

/-! ## The commands (R352, R359) -/

section Commands

variable {s : State}

theorem exec_measure {v : View} (hr : isRegion0 v = true) (hv : s.viewOpen v = true) :
    exec (.measure v) s = .next { s with bdg := { s.bdg with requested := true, dueFrom := some (s.bdg.dueFrom.getD s.tik.tick) } } :=
  congrArg Host.Outcome.next (if_pos (Bool.and_eq_true_iff.2 ⟨hr, hv⟩))

theorem exec_measureSkipped {due : Nat} (h : s.bdg.dueFrom = some due) : exec .measureSkipped s =
    .next (if s.tik.ticking && decide (due + 2 ^ 20 ≤ s.tik.tick) then
      (s.updBdg (fun b => { b with dueFrom := some (s.tik.tick / 2 ^ 20 * 2 ^ 20), requested := false })).raiseDev pBdg 2
    else s) := by
  show execMeasureSkipped s = _
  unfold execMeasureSkipped
  rw [h]

theorem measureSkipped_late {due : Nat} (h : s.bdg.dueFrom = some due) (hk : s.tik.ticking = true) (hlate : due + 2 ^ 20 ≤ s.tik.tick) :
    ∃ t, exec .measureSkipped s = .next t ∧ t.fuses = s.fuses ∧ EventIn t (s.devCopies pBdg 2) pBdg 2 ∧
      t.bdg = { s.bdg with dueFrom := some (s.tik.tick / 2 ^ 20 * 2 ^ 20), requested := false } := by
  refine ⟨_, (exec_measureSkipped h).trans (congrArg Host.Outcome.next (if_pos (Bool.and_eq_true_iff.2 ⟨hk, decide_eq_true hlate⟩))),
    raiseDev_fuses .., ?_, raiseDev_bdg ..⟩
  exact raiseDev_eventIn (devCopies_of_doms rfl ..) (by decide)

theorem measureSkipped_early {due : Nat} (h : s.bdg.dueFrom = some due) (hearly : s.tik.tick < due + 2 ^ 20) :
    exec .measureSkipped s = .next s :=
  (exec_measureSkipped h).trans (congrArg Host.Outcome.next (if_neg (by simpa using fun _ => hearly)))

theorem badgerMeasure_idle {reading : BadgerReading} (h : s.windowOpen = false ∨ s.bdg.measuring = false) :
    exec (.badgerMeasure reading) s = .next s :=
  congrArg Host.Outcome.next (if_neg (by rcases h with h | h <;> simp [h]))

theorem exec_badgerMeasure {reading : BadgerReading} (hw : s.windowOpen = true) (hm : s.bdg.measuring = true) :
    exec (.badgerMeasure reading) s = .next (s.measured (s.requiredMvs reading.monitors reading.rings)) :=
  congrArg Host.Outcome.next (if_pos (Bool.and_eq_true_iff.2 ⟨hw, hm⟩))

end Commands

/-- Settles O40: the commands outside a measurement by their conditions, a measurement by what it makes of the required voltages, and by its counters and events. -/
theorem badgerReplans : Obligations.BadgerReplans := by
  unfold Obligations.BadgerReplans
  intro s v monitors rings vc vReq req old
  refine ⟨exec_measure, fun due hdue hk => ⟨measureSkipped_late hdue hk, measureSkipped_early hdue⟩, badgerMeasure_idle, fun hw hm => ?_⟩
  have hframe := measured_frame s vReq
  have hbdg : (s.measured vReq).bdg = measuredBdg s vReq := hframe.kept .bdg (by decide)
  have hunavail : (s.measured vReq).bdg.unavail = outOfMargin vReq := congrArg BdgState.unavail hbdg
  obtain ⟨hcount, hreplans⟩ := measureCounted_counter s vReq
  refine ⟨_, replanned old vReq, guardMv vReq (outOfMargin vReq), exec_badgerMeasure hw hm, replanned_spec old vReq, ?_⟩
  rw [hunavail]
  exact ⟨hbdg, fun k => mem_outOfMargin, hframe.kept .fuses (by decide), fun hlt => guardMv_least ⟨15, by decide, slowest_available hlt⟩,
    (measured_counter s vReq (by decide)).trans hcount, (measured_counter s vReq (by decide)).trans hreplans, measured_endOfMargin, measured_marginLow⟩

end Sys2Proof.Proofs

/-! Steps, the state after reset, and what every command keeps or may change (R423, R433, R434, R441, R446): from them the statements on the queue, on outcomes, on reset, on what is fused or drawn, and on the frames of the commands outside the pages of VAR, KVP, BAS and TIR. -/

namespace Sys2Proof.Proofs

open Sys2Proof.Machine Sys2Proof.Safety Sys2Proof.Laws

/-! ## Steps and outcomes -/

/-- Settles O1: the step by the form of its queue. -/
theorem stepRunsFrontCommand : Obligations.StepRunsFrontCommand := by
  unfold Obligations.StepRunsFrontCommand
  refine ⟨fun c rest s hqueue => ?_, fun s hqueue => ?_⟩ <;> rw [step, hqueue]

/-- Settles O2: the meaning of each command answers a next state on every path. -/
theorem everyCommandRuns : Obligations.EveryCommandRuns := by
  unfold Obligations.EveryCommandRuns
  intro c s
  cases c <;> exact ⟨_, rfl⟩

/-! ## The state after reset (R423, R44, R413, R449) -/

/-- Settles O3: the fields of the state after reset are those of the definitions, and its maps list nothing. -/
theorem resetLeaves : Obligations.ResetLeaves := by
  unfold Obligations.ResetLeaves
  exact ⟨rfl, rfl, rfl, fun _ => ⟨rfl, rfl, rfl, rfl, fun _ => rfl⟩, fun _ => ⟨rfl, rfl⟩, fun _ => ⟨rfl, rfl⟩, rfl,
    fun _ _ => ⟨rfl, rfl, rfl⟩, fun _ _ _ => rfl, fun _ => rfl, rfl⟩

/-- Settles O4: the memories after reset list no byte, and no life-cycle state waits but the present one. -/
theorem resetMeetsInvariant : Obligations.ResetMeetsInvariant := by
  unfold Obligations.ResetMeetsInvariant
  exact ⟨⟨by simp [State.reset], rfl, rfl, rfl, rfl, rfl, rfl⟩, Nat.le_refl _⟩

/-! ## What never goes back (R433, R434, R441, R446) -/

/-- Settles O6: each command evolves the state. -/
theorem nothingFusedGoesBack : Obligations.NothingFusedGoesBack := by
  unfold Obligations.NothingFusedGoesBack
  intro c s t hexec
  obtain ⟨hpending, -, hforward⟩ : Evolves s t := exec_evolves c s t hexec
  exact ⟨hpending, hforward.minSvn, hforward.raises, hforward.draws, hforward.nonces, hforward.free, fun hlife => (hforward.life hlife).2⟩

/-! ## Frames of the other commands -/

/-- Settles O60: the frame of each command, with its list inside the one stated. -/
theorem otherCommandsKeepTheRest : Obligations.OtherCommandsKeepTheRest := by
  unfold Obligations.OtherCommandsKeepTheRest
  intro s
  have same := fun L => fr_refl L s
  exact ⟨fun fn words poisoned => fr_execSubmitWord (same _) fn words poisoned (by decide),
    fun fn => fr_execQueueReset (same _) fn (by decide),
    fun fn => fr_execComplRead (same _) fn (by decide),
    fun fn offset bytes poisoned => fr_execHostWindowWrite (same _) fn offset bytes poisoned (by decide),
    fun fn offset length => fr_execHostWindowRead (same _) fn offset length (by decide),
    fun fn vector => fr_execMsixUnmask (same _) fn vector (by decide),
    fr_execEpochDecision (same _) (by decide),
    fun d slab nowNs errors => fr_execSlabStart (same _) d slab nowNs errors (by decide),
    fun d slab nowNs => fr_execSlabPause (same _) d slab nowNs (by decide),
    fun d slab nowNs => fr_execSlabComplete (same _) d slab nowNs (by decide),
    fun nowNs => fr_execRunPhaseEnd (same _) nowNs (by decide),
    fun nowNs => fr_execSettleStart (same _) nowNs (by decide),
    fun copy stripe source bytes nowNs => fr_execBaseRefetchDone (same _) copy stripe source bytes nowNs (by decide),
    fr_execMaintWindowStart (same _) (by decide),
    fun stack item ended => fr_execMaintItemEnd (same _) stack item ended (by decide),
    fun stack channel => fr_execRoutineRetrainDue (same _) stack channel (by decide),
    fun stack => fr_execMaintStarved (same _) stack (by decide),
    fun stack channel emergency stallNs inWindow => fr_execEmergencyRetrain (same _) stack channel emergency stallNs inWindow (by decide),
    fun nowNs temps => fr_execRefreshPause (same _) nowNs temps (by decide),
    fun d tag => fr_execSharedFetchHoldExpire (same _) d tag (by decide),
    fun port sym nowNs => fr_execTickSymbolReceive (same _) port sym nowNs (by decide),
    fun port token nowNs => fr_execDoneTokenReceive (same _) port token nowNs (by decide),
    fun nowNs => fr_execTickStart (same _) nowNs (by decide),
    fun nowNs => fr_execTickMasterTimeout (same _) nowNs (by decide),
    fr_execTickRefLoss (same _) (by decide),
    fun nowNs => fr_execFabricTrainingStart (same _) nowNs (by decide),
    fun port => fr_execPortStageTimeout (same _) port (by decide),
    fun port lanes peerDevice peerPort delayPs eyeMv eyeLane => fr_execPortTrainingDone (same _) port lanes peerDevice peerPort delayPs eyeMv eyeLane (by decide),
    fun port device prio => fr_execPrioOffer (same _) port device prio (by decide),
    fun nowNs => fr_execMasterElection (same _) nowNs (by decide),
    fun port lane => fr_execLaneFail (same _) port lane (by decide),
    fun port bytes fecOk errors => fr_execFlitReceive (same _) port bytes fecOk errors (by decide),
    fun port seq => fr_execRetryRequest (same _) port seq (by decide),
    fun port msg => fr_execKeyExchangeMessage (same _) port msg (by decide),
    fun port => fr_execRekey (same _) port (by decide),
    fun port => fr_execRekeyStall (same _) port (by decide),
    fun t errors => fr_execRdReq (same _) t errors (by decide),
    fun t => fr_execRdResp (same _) t (by decide),
    fun t errors => fr_execWr (same _) t errors (by decide),
    fun t => fr_execWrAck (same _) t (by decide),
    fun t errors => fr_execRadd (same _) t errors (by decide),
    fun t => fr_execRaddAck (same _) t (by decide),
    fun t errors => fr_execAtom (same _) t errors (by decide),
    fun t => fr_execAtomResp (same _) t (by decide),
    fun t step ring => fr_execCollData (same _) t step ring (by decide),
    fun t errors => fr_execStripeReq (same _) t errors (by decide),
    fun t => fr_execStripeResp (same _) t (by decide),
    fun d collId => fr_execColTimeout (same _) d collId (by decide),
    fun copy stripe source bytes => fr_execStripeFetchDone (same _) copy stripe source bytes (by decide),
    fun copy stripe result => fr_execHostReadCompletion (same _) copy stripe result (by decide),
    fun posted d saveCommons rsv => fr_execPreempt (same _) posted d saveCommons rsv (by decide),
    fun posted d rsv => fr_execResume (same _) posted d rsv (by decide),
    fun v posted d rsv => fr_execCreate (same _) v posted d rsv (by decide),
    fun d => fr_execCreateComplete (same _) d (by decide),
    fun v posted d rsv => fr_execResize (same _) v posted d rsv (by decide),
    fun v posted d rsv => fr_execDestroy (same _) v posted d rsv (by decide),
    fun v posted d rsv => fr_execLend (same _) v posted d rsv (by decide),
    fun v posted d rsv => fr_execReclaim (same _) v posted d rsv (by decide),
    fun v posted d rsv => fr_execMapShared (same _) v posted d rsv (by decide),
    fun v posted d rsv => fr_execUnmapShared (same _) v posted d rsv (by decide),
    fun v posted d rsv => fr_execSession (same _) v posted d rsv (by decide),
    fun v posted d rsv => fr_execRotate (same _) v posted d rsv (by decide),
    fun v posted d rsv => fr_execAttest (same _) v posted d rsv (by decide),
    fun engine => fr_execReportSigned (same _) engine (by decide),
    fun v posted d rsv => fr_execIdentity (same _) v posted d rsv (by decide),
    fun v posted d rsv => fr_execKeyImport (same _) v posted d rsv (by decide),
    fun v posted d rsv => fr_execKeyDrop (same _) v posted d rsv (by decide),
    fun v posted d rsv => fr_execLifecycle (same _) v posted d rsv (by decide),
    fun v posted d rsv => fr_execSvnCommit (same _) v posted d rsv (by decide),
    fun v posted d rsv => fr_execCertInstall (same _) v posted d rsv (by decide),
    fun d => fr_execHeldRequestExecute (same _) d (by decide),
    fun d nowNs withheldFrames sramFailUnits => fr_execScrubEnd (same _) d nowNs withheldFrames sramFailUnits (by decide),
    fun d => fr_execMemoryKeyDestroy (same _) d (by decide),
    fun n => fr_execVfFlr (same _) n (by decide),
    fun on numVfs => fr_execVfEnableChange (same _) on numVfs (by decide),
    fun speed width dlUp => fr_execPcieLinkChange (same _) speed width dlUp (by decide),
    fun mV => fr_execPowerApply (same _) mV (by decide),
    fun baudSel i3cAsel => fr_execPerstRise (same _) baudSel i3cAsel (by decide),
    fun mV => fr_execInputRange (same _) mV (by decide),
    fun failedStacks => fr_execMbdTrainingDone (same _) failedStacks (by decide),
    fun slot magic format keyIndex svn bodyLen digestMatches rsaOk slhOk digest => fr_execImageVerifyDone (same _) slot magic format keyIndex svn bodyLen digestMatches rsaOk slhOk digest (by decide),
    fun withheldFrames sramFailUnits nowNs => fr_execDeviceWipeEnd (same _) withheldFrames sramFailUnits nowNs (by decide),
    fr_execFirmwareRelease (same _) (by decide),
    fun nowNs => fr_execPfReady (same _) nowNs (by decide),
    fun reading => fr_execBadgerMeasure (same _) reading (by decide),
    fr_execMeasureSkipped (same _) (by decide),
    fun v => fr_execMeasure (same _) v (by decide),
    fun v value => fr_execPwrBoundsWrite (same _) v value (by decide),
    fun v value => fr_execPwrTargetsWrite (same _) v value (by decide),
    fun v port => fr_execRetrain (same _) v port (by decide),
    fun v port enable => fr_execPortEnable (same _) v port enable (by decide),
    fun slot offset bytes => fr_execPldmFirmwareUpdate (same _) slot offset bytes (by decide),
    fun query => fr_execPldmRequest (same _) query (by decide),
    fun port nowNs => fr_execSignalDetect (same _) port nowNs (by decide),
    fun port delayPs => fr_execOneWayDelayMeasurement (same _) port delayPs (by decide),
    fun sensors pInW vInMv => fr_execComputeDieSensorRead (same _) sensors pInW vInMv (by decide),
    fun d3hot => fr_execPfPowerStateChange (same _) d3hot (by decide),
    fun how => fr_execI3cDynamicAddressAssign (same _) how (by decide)⟩

end Sys2Proof.Proofs

/-! Messages of a vector (R408), BLK_EVENT_SET (R470) and BLK_LOCK (R472): what a message leaves by whether its vector is masked, what an event set by software leaves, and which register writes a lock or an absent page stops. From them the statements on BLK_EVENT_SET and on locks. -/

namespace Sys2Proof.Proofs

open Sys2Proof.Machine Sys2Proof.Safety Sys2Proof.Laws

/-! ## Messages (R408) -/

/-- A function whose messages leave: the PF, or a VF that answers. -/
def Reached (s : State) (fn : Nat) : Prop := fn = 0 ∨ s.vfUp fn = true

section Messages

variable {s : State} {fn vec : Nat}

theorem msix_of_unmasked (h : Reached s fn) (hu : s.pci.unmasked.contains (2048 * fn + vec) = true) :
    s.msix fn vec = s.emit (.msix fn vec) := by
  unfold State.msix
  rw [if_pos (by simpa [Reached] using h), if_pos hu]

theorem msix_of_masked (h : Reached s fn) (hm : s.pci.unmasked.contains (2048 * fn + vec) = false) :
    s.msix fn vec = { s with pci := { s.pci with pendingBits := numAdd s.pci.pendingBits (2048 * fn + vec) } } := by
  unfold State.msix
  rw [if_pos (by simpa [Reached] using h), hm]
  rfl

theorem msix_of_unreached (h : ¬ Reached s fn) : s.msix fn vec = s := by
  unfold State.msix
  rw [if_neg (by simpa [Reached] using h)]

end Messages

/-! ## BLK_EVENT_SET (R470) -/

section EventSet

variable {s : State} {v : View}

theorem testState_iff : s.testState = true ↔ s.fuses.life = .devel ∨ s.fuses.life = .return_ := by simp [State.testState]

theorem exec_blkEventSet_works {page : Byte} (h : s.shows v page.toNat = true) (hw : s.testState = true) (mask : W32) :
    exec (.blkEventSet v page mask) s =
      .next (s.setEvent (s.viewCopy v page.toNat) page.toNat (mask &&& w32 (viewEvents v page.toNat))) :=
  congrArg Host.Outcome.next (if_pos ⟨h, hw⟩)

theorem exec_blkEventSet_ignored (hw : ¬ s.testState = true) (page : Byte) (mask : W32) : exec (.blkEventSet v page mask) s = .next s :=
  congrArg Host.Outcome.next (if_neg fun h => hw h.2)

/-- A copy of BLK_EVENT with bits set: the vector is sent where one of them was clear and is enabled. -/
theorem setEvent_of_block (s : State) (c : Nat) {p b : Nat} (hb : blockOf p = some b) (bits : W32) :
    s.setEvent c p bits =
      let s1 := s.putView c p { s.view c p with event := (s.view c p).event ||| bits }
      if bits &&& ~~~(s.view c p).event &&& (s.view c p).enable = 0 then s1 else s1.msix (copyFn c) (2 + b) := by
  simp only [State.setEvent, hb]

end EventSet

/-- Settles O57: the bits stand in the copy, and the message leaves by the lemma of its case. -/
theorem eventSetInDevelAndReturn : Obligations.EventSetInDevelAndReturn := by
  unfold Obligations.EventSetInDevelAndReturn
  intro s v page mask b
  refine ⟨fun hs hb hw => ⟨_, exec_blkEventSet_works hs (testState_iff.2 hw) mask, ?self, fun j g hne => ?other, ?frame, ?sent, ?masked, ?quiet⟩,
    fun hw => exec_blkEventSet_ignored (fun h => hw (testState_iff.1 h)) page mask⟩
  case self => rw [view_setEvent, if_pos rfl]
  case other => rw [view_setEvent, if_neg hne]
  case frame => exact fr_setEvent (fr_refl _ s) _ _ _ (by decide)
  case sent =>
    intro hfresh hreach hmask
    have hm := fun x => msix_of_unmasked (s := s.putView (s.viewCopy v page.toNat) page.toNat x) hreach hmask
    simp only [setEvent_of_block s _ hb, if_neg hfresh, hm]
    exact ⟨rfl, rfl⟩
  case masked =>
    intro hfresh hreach hmask
    have hm := fun x => msix_of_masked (s := s.putView (s.viewCopy v page.toNat) page.toNat x) hreach hmask
    simp only [setEvent_of_block s _ hb, if_neg hfresh, hm]
    exact ⟨rfl, rfl⟩
  case quiet =>
    rintro (hstale | hnone)
    · rw [setEvent_of_block s _ hb, if_pos (not_not.mp hstale)]
      exact ⟨rfl, rfl⟩
    · have hm := fun x => msix_of_unreached (s := s.putView (s.viewCopy v page.toNat) page.toNat x) (vec := 2 + b) hnone
      simp only [setEvent_of_block s _ hb, hm, ite_self]
      exact ⟨rfl, rfl⟩

/-! ## BLK_LOCK and the fields that it freezes (R472) -/

section Locks

variable {s : State} {v : View} {p : Nat}

/-- A register write that leaves the state where the page is shown leaves it where the page is not shown, or the function does not answer. -/
theorem exec_wordWrite_same (hp : p < 256) {o : Nat} (ho : o < 4096) (h4 : o % 4 = 0) (w : W32)
    (hn : s.wideReg v p (o / 8 * 8) = none) (h : s.shows v p = true → s.writeReg v p o w.toNat = s) :
    exec (wordWrite v p o w) s = .next s := by
  cases ha : s.answers v with
  | false => exact exec_registerWrite_ignored .bar0 _ 4 _ (.inl ha)
  | true =>
    rw [exec_registerWrite_word ha hp ho h4]
    cases hs : s.shows v p with
    | false => simp [State.writeReg32, hs]
    | true => rw [writeReg32_of_narrow hs hn, h hs]

theorem lockPage_of_region0 (h : s.shows v p = true) (h0 : isRegion0 v = true) : s.lockPage v p = { s with locked := numAdd s.locked p } :=
  if_pos ⟨h, h0⟩

theorem lockPage_of_other (h0 : isRegion0 v = false) : s.lockPage v p = s := if_neg (by simp [h0])

theorem readWord_lock (h : s.shows v p = true) : s.readWord v p 0x24 = bit01 (s.locked.contains p) := by
  unfold State.readWord
  rw [wideReg_header s v p (by decide)]
  simp [h, State.wordReg, State.headerReg]

/-- The high word of the register pair at 0x20, BLK_LOCK: no latch waits there. -/
theorem readHigh_lock (h : s.shows v p = true) (hl : mapGet s.latches (s.latchKey v p 0x20) = none) :
    s.readHigh v p 0x24 = s.emit (.value (viewFn v) (w64 (bit01 (s.locked.contains p)))) := by
  unfold State.readHigh
  simp only [show 0x24 - 4 = 0x20 from rfl, hl, readWord_lock h]

/-- The registers that a lock of their page freezes: page and offset (R472). -/
def frozenRegs : List (Nat × Nat) :=
  [(pTik, 0x108), (pTik, 0x118), (pVec, 0x100), (pVec, 0x104), (pVec, 0x108), (pVec, 0x10C), (pVec, 0x110),
    (pVec, 0x114), (pVec, 0x118), (pBas, 0x150), (pBas, 0x154), (0x10, 0x100), (pNvm, 0x100), (0x20, 0x100)]

theorem writeTik_locked (hl : s.locked.contains pTik = true) {o : Nat} (ho : o = 0x108 ∨ o = 0x118) (w : Nat) : s.writeReg v pTik o w = s := by
  have hw : (isPf v && !s.locked.contains pTik) = false := by rw [hl]; exact Bool.and_false _
  rcases ho with rfl | rfl <;>
    exact if_neg (ne_true_of_eq_false hw)

theorem writeVec_locked (hl : s.locked.contains pVec = true) (k : Fin 7) (w : Nat) : s.writeReg v pVec (0x100 + 4 * k.val) w = s := by
  rw [writeReg_vec s v (by omega), writeVecReg_recipe, writeRecipe_ignored (.inr hl)]

theorem writeBas_locked (hl : s.locked.contains pBas = true) {o : Nat} (ho : o = 0x150 ∨ o = 0x154) (w : Nat) : s.writeReg v pBas o w = s := by
  have hw : (s.locked.contains pBas || s.bas.regionTaken) = true := by rw [hl]; exact Bool.true_or _
  rcases ho with rfl | rfl <;>
    exact ite_eq_left_iff.2 fun _ => if_pos hw

theorem writeMem_locked (hl : s.locked.contains 0x10 = true) (w : Nat) : s.writeReg v 0x10 0x100 w = s := by
  have hw : (isPf v && !s.locked.contains 0x10) = false := by rw [hl]; exact Bool.and_false _
  exact if_neg (ne_true_of_eq_false hw)

theorem writeNvm_locked (hl : s.locked.contains pNvm = true) (w : Nat) : s.writeReg v pNvm 0x100 w = s :=
  ite_eq_left_iff.2 fun _ => if_pos hl

theorem writeFab_locked (hl : s.locked.contains 0x20 = true) (w : Nat) : s.writeReg v 0x20 0x100 w = s := by
  have hw : ¬ (0 = 0 ∧ (!s.locked.contains 0x20) = true) := by rw [hl]; exact fun h => Bool.false_ne_true h.2
  exact ite_eq_left_iff.2 fun _ => if_neg hw

/-- A write of one of them that arrives leaves the state while the page is locked. -/
theorem writeReg_frozen (hl : s.locked.contains p = true) {o : Nat} (ho : (p, o) ∈ frozenRegs) (w : Nat) : s.writeReg v p o w = s := by
  simp only [frozenRegs, List.mem_cons, Prod.mk.injEq, List.not_mem_nil, or_false] at ho
  rcases ho with ⟨rfl, rfl⟩ | ⟨rfl, rfl⟩ | ⟨rfl, rfl⟩ | ⟨rfl, rfl⟩ | ⟨rfl, rfl⟩ | ⟨rfl, rfl⟩ | ⟨rfl, rfl⟩ | ⟨rfl, rfl⟩ | ⟨rfl, rfl⟩ |
    ⟨rfl, rfl⟩ | ⟨rfl, rfl⟩ | ⟨rfl, rfl⟩ | ⟨rfl, rfl⟩ | ⟨rfl, rfl⟩
  · exact writeTik_locked hl (.inl rfl) w
  · exact writeTik_locked hl (.inr rfl) w
  · exact writeVec_locked hl 0 w
  · exact writeVec_locked hl 1 w
  · exact writeVec_locked hl 2 w
  · exact writeVec_locked hl 3 w
  · exact writeVec_locked hl 4 w
  · exact writeVec_locked hl 5 w
  · exact writeVec_locked hl 6 w
  · exact writeBas_locked hl (.inl rfl) w
  · exact writeBas_locked hl (.inr rfl) w
  · exact writeMem_locked hl w
  · exact writeNvm_locked hl w
  · exact writeFab_locked hl w

theorem wideReg_frozen (s : State) (v : View) {o : Nat} (ho : (p, o) ∈ frozenRegs) : s.wideReg v p (o / 8 * 8) = none := by
  simp only [frozenRegs, List.mem_cons, Prod.mk.injEq, List.not_mem_nil, or_false] at ho
  rcases ho with ⟨rfl, rfl⟩ | ⟨rfl, rfl⟩ | ⟨rfl, rfl⟩ | ⟨rfl, rfl⟩ | ⟨rfl, rfl⟩ | ⟨rfl, rfl⟩ | ⟨rfl, rfl⟩ | ⟨rfl, rfl⟩ | ⟨rfl, rfl⟩ |
    ⟨rfl, rfl⟩ | ⟨rfl, rfl⟩ | ⟨rfl, rfl⟩ | ⟨rfl, rfl⟩ | ⟨rfl, rfl⟩ <;> rfl

theorem frozenRegs_aligned : ∀ r ∈ frozenRegs, r.2 < 4096 ∧ r.2 % 4 = 0 := by decide

/-- A page of a stack but the first, or of a port but the first. -/
def LaterPage (p : Nat) : Prop := 0x11 ≤ p ∧ (p ≤ 0x17 ∨ 0x21 ≤ p ∧ p ≤ 0x31)

/-- The global fields of MEM and FAB act in the page of stack 0 and of port 0 alone (R284, R399). -/
theorem writeReg_laterPage (s : State) (v : View) (h : LaterPage p) (w : Nat) : s.writeReg v p 0x100 w = s := by
  obtain ⟨hlo, hhi⟩ := h
  have hne : ∀ q, q ≤ 0x10 → p ≠ q := fun q hq => by omega
  have hunit : ¬ 0x40 ≤ p := by omega
  by_cases hstack : p ≤ 0x17
  · have hmem : 0x10 ≤ p ∧ p ≤ 0x17 := by omega
    simp [State.writeReg, State.writeMemReg, pTik, pVec, pVar, pKvp, pUpd, pTir, pCol, pLks, hne, hmem]
  · have hport : p - 0x20 ≠ 0 := by omega
    simp [State.writeReg, State.writeFabReg, pTik, pVec, pVar, pKvp, pUpd, pTir, pCol, pLks, pBas, pNvm, pPci, pDom, pPwr, pBdg, pDbg,
      hne, hstack, hunit, hport]

theorem wideReg_laterPage (s : State) (v : View) (h : LaterPage p) : s.wideReg v p 0x100 = none := by
  obtain ⟨hlo, hhi⟩ := h
  have hne : ∀ q, q ≤ 0x10 → p ≠ q := fun q hq => by omega
  have hunit : ¬ 0x40 ≤ p := by omega
  simp [State.wideReg, pTik, pVar, pKvp, pBas, pTir, pNvm, pPci, pDom, pLks, pFul, pDbg, hne, hunit]

end Locks

/-- Settles O58: the lock is a bit of the page, and each frozen field's writer tests it. -/
theorem locksFreezeFields : Obligations.LocksFreezeFields := by
  unfold Obligations.LocksFreezeFields
  intro s v page w
  have hp : page.toNat < 256 := page.isLt
  refine ⟨fun h h0 => congrArg Host.Outcome.next (lockPage_of_region0 h h0),
    fun h0 => ⟨congrArg Host.Outcome.next (lockPage_of_other h0), ?ignored⟩, fun ha h hl => ?read, fun hl o ho => ?frozen, fun hlo hhi => ?later⟩
  case ignored =>
    refine exec_wordWrite_same hp (by decide) (by decide) w (wideReg_header s v _ (by decide)) fun _ => ?_
    show (if bitOf w.toNat 0 then s.lockPage v page.toNat else s) = s
    rw [lockPage_of_other h0, ite_self]
  case read =>
    rw [exec_counterHighRead_of_answers ha page rfl (by decide), readHigh_lock h hl]
    cases s.locked.contains page.toNat <;> rfl
  case frozen =>
    obtain ⟨hlt, h4⟩ := frozenRegs_aligned _ ho
    exact exec_wordWrite_same hp hlt h4 w (wideReg_frozen s v ho) fun _ => writeReg_frozen hl ho _
  case later =>
    exact exec_wordWrite_same hp (by decide) (by decide) w (wideReg_laterPage s v ⟨hlo, hhi⟩) fun _ => writeReg_laterPage s v ⟨hlo, hhi⟩ _

end Sys2Proof.Proofs

/-! The Bytous monitor (R456 to R458): what a command line of each group leaves by life-cycle state and by what it finds, command by command; from these the statement on the monitor. -/

namespace Sys2Proof.Proofs

open Sys2Proof.Machine Sys2Proof.Safety Sys2Proof.Laws

section Monitor

variable {s : State} {g : MonGroup} {f : State → Option (List Nat × State)}

/-! ## A command line, by what the state takes (R456) -/

theorem monitor_asleep (h : s.awake = false) : s.monitor g f = s := if_pos (by rw [h]; rfl)

theorem monitor_of_awake (h : s.awake = true) : s.monitor g f =
    if monitorTakes s.fuses.life s.boot.unlocked g then
      match f s with
      | some (values, t) => t.emit (.monitorOk values)
      | none => s.emit .monitorErr
    else s.emit .monitorErr :=
  if_neg (by rw [h]; exact Bool.false_ne_true)

theorem monitor_refuses (h : s.awake = true) (ht : monitorTakes s.fuses.life s.boot.unlocked g = false) :
    s.monitor g f = s.emit .monitorErr := by
  rw [monitor_of_awake h, ht]
  rfl

theorem monitor_errs (h : s.awake = true) (hf : f s = none) : s.monitor g f = s.emit .monitorErr := by
  rw [monitor_of_awake h, hf, ite_self]

theorem monitor_answers (h : s.awake = true) (ht : monitorTakes s.fuses.life s.boot.unlocked g = true) {values : List Nat} {t : State}
    (hf : f s = some (values, t)) : s.monitor g f = t.emit (.monitorOk values) := by
  rw [monitor_of_awake h, ht, hf]
  rfl

/-- The life-cycle states that accept PEEK, COUNT and TRACE. -/
theorem takes_look_iff {life : Life} {unlocked : Bool} :
    monitorTakes life unlocked .look = true ↔ (life = .prod ∧ unlocked = true) ∨ life = .blank ∨ life = .devel ∨ life = .return_ := by
  cases life <;> cases unlocked <;> decide

/-- Those that accept POKE, MEM and DOMREAD (log 83 for BLANK). -/
theorem takes_change_iff {life : Life} {unlocked : Bool} :
    monitorTakes life unlocked .change = true ↔ life = .blank ∨ life = .devel ∨ life = .return_ := by
  cases life <;> cases unlocked <;> decide

theorem takes_unlock_iff {life : Life} {unlocked : Bool} : monitorTakes life unlocked .unlock = true ↔ life = .prod ∧ unlocked = false := by
  cases life <;> cases unlocked <;> decide

/-- A state that is not RETIRED accepts HEALTH and CHAL. -/
theorem takes_health {life : Life} (h : life ≠ .retired) (unlocked : Bool) :
    monitorTakes life unlocked .health = true ∧ monitorTakes life unlocked .chal = true := by
  revert h; cases life <;> cases unlocked <;> decide

theorem takes_retired {g : MonGroup} (h : g ≠ .id) (unlocked : Bool) : monitorTakes .retired unlocked g = false := by
  revert h; cases g <;> cases unlocked <;> decide

/-! ## The commands by group -/

/-- A command that runs as a line of group g. -/
def LineOf (s : State) (g : MonGroup) (cmd : Instr) : Prop := ∃ f, exec cmd s = .next (s.monitor g f)

theorem LineOf.asleep {cmd : Instr} (h : LineOf s g cmd) (ha : s.awake = false) : exec cmd s = .next s := by
  obtain ⟨f, hf⟩ := h
  rw [hf, monitor_asleep ha]

theorem LineOf.refuses {cmd : Instr} (h : LineOf s g cmd) (ha : s.awake = true) (ht : monitorTakes s.fuses.life s.boot.unlocked g = false) :
    exec cmd s = .next (s.emit .monitorErr) := by
  obtain ⟨f, hf⟩ := h
  rw [hf, monitor_refuses ha ht]

/-- PEEK, COUNT and TRACE. -/
def lookLines (page : Byte) (off index : Nat) : List Instr := [.peek page off, .count page off, .trace index]

/-- POKE, MEM and DOMREAD. -/
def changeLines (page : Byte) (off addr : Nat) (w : W32) (d : Fin 64) (byte : Byte) : List Instr :=
  [.poke page off w, .mem d addr none, .mem d addr (some byte), .domread d page off]

theorem lineOf_look {page : Byte} {off index : Nat} {cmd : Instr} (h : cmd ∈ lookLines page off index) : LineOf s .look cmd := by
  simp only [lookLines, List.mem_cons, List.not_mem_nil, or_false] at h
  rcases h with rfl | rfl | rfl <;> exact ⟨_, rfl⟩

theorem lineOf_change {page : Byte} {off addr : Nat} {w : W32} {d : Fin 64} {byte : Byte} {cmd : Instr}
    (h : cmd ∈ changeLines page off addr w d byte) : LineOf s .change cmd := by
  simp only [changeLines, List.mem_cons, List.not_mem_nil, or_false] at h
  rcases h with rfl | rfl | rfl | rfl <;> exact ⟨_, rfl⟩

/-- UNLOCK is a line of its own group where no token fails. -/
theorem lineOf_unlock {token : List Byte}
    (h : s.awake = false ∨ monitorTakes s.fuses.life s.boot.unlocked .unlock = false ∨ s.tokenOk 0xFF token = true) :
    LineOf s .unlock (.unlock token) := by
  have hc : (s.awake && monitorTakes s.fuses.life s.boot.unlocked .unlock && !s.tokenOk 0xFF token) = false := by
    rcases h with h | h | h <;> simp [h]
  exact ⟨_, congrArg Host.Outcome.next (if_neg (by rw [hc]; exact Bool.false_ne_true))⟩

/-- Every command line belongs to a group that is not ID's, but ID. -/
theorem lineOf_all {page : Byte} {off addr index : Nat} {w : W32} {d : Fin 64} {token : List Byte} {byte : Byte} {cmd : Instr}
    (hu : LineOf s .unlock (.unlock token))
    (h : cmd ∈ [.id, .health, .chal, .unlock token] ++ lookLines page off index ++ changeLines page off addr w d byte) :
    cmd = .id ∨ ∃ g, g ≠ MonGroup.id ∧ LineOf s g cmd := by
  rcases List.mem_append.1 h with h | h
  · rcases List.mem_append.1 h with h | h
    · simp only [List.mem_cons, List.not_mem_nil, or_false] at h
      rcases h with rfl | rfl | rfl | rfl
      · exact .inl rfl
      · exact .inr ⟨.health, by decide, _, rfl⟩
      · exact .inr ⟨.chal, by decide, _, rfl⟩
      · exact .inr ⟨.unlock, by decide, hu⟩
    · exact .inr ⟨.look, by decide, lineOf_look h⟩
  · exact .inr ⟨.change, by decide, lineOf_change h⟩

/-! ## UNLOCK (R457) -/

section Unlock

variable {token : List Byte} (ha : s.awake = true) (hl : s.fuses.life = .prod) (hu : s.boot.unlocked = false)

include ha hl hu

theorem exec_unlock_of_token (h : s.tokenOk 0xFF token = true) :
    exec (.unlock token) s = .next (((s.updBoot (fun b => { b with unlocked := true })).raiseDev pLks 5).emit (.monitorOk [])) := by
  have ht := takes_unlock_iff.2 ⟨hl, hu⟩
  have hc : (s.awake && monitorTakes s.fuses.life s.boot.unlocked .unlock && !s.tokenOk 0xFF token) = false := by simp [h]
  exact congrArg Host.Outcome.next
    ((if_neg (by rw [hc]; exact Bool.false_ne_true)).trans (monitor_answers (g := .unlock) ha ht rfl))

theorem exec_unlock_of_bad (h : s.tokenOk 0xFF token = false) : exec (.unlock token) s = .next ((s.authFail 64).emit .monitorErr) := by
  have ht := takes_unlock_iff.2 ⟨hl, hu⟩
  exact congrArg Host.Outcome.next (if_pos (by rw [ha, ht, h]; rfl))

end Unlock

/-- An output moves no event. -/
theorem eventIn_emit {l : List Nat} {p b : Nat} (h : EventIn s l p b) (o : Output) : EventIn (s.emit o) l p b := fun c hc => h c hc

/-- What UNLOCK sets: UNLOCKED, and its event in every view that sees it. -/
theorem unlocked_leaves (s : State) : ∃ t, (s.updBoot (fun b => { b with unlocked := true })).raiseDev pLks 5 = t ∧
    t.boot = { s.boot with unlocked := true } ∧ Frame (withEvents [.boot]) s t ∧ EventIn t (s.devCopies pLks 5) pLks 5 :=
  ⟨_, rfl, (raiseDev_frame _ pLks 5).kept .boot (by decide), fr_raiseDev (fr_updBoot (fr_refl _ s) _ (by decide)) pLks 5 (by decide),
    raiseDev_eventIn rfl (by decide)⟩

theorem counter_authFail (s : State) (c : Nat) : (s.authFail c).counter dev pLks 2 = s.counter dev pLks 2 + 1 := by
  rw [State.authFail, counter_raiseCopy _ _ _ _ ⟨by decide, by decide⟩, counter_bump_self]
  rfl

theorem authFail_event (s : State) (c : Nat) : EventIn (s.authFail c) [c] pLks 3 := fun e he => by
  rw [List.mem_singleton.1 he]
  exact raiseCopy_event _ _ _ _ (by decide)

end Monitor

/-! ## What each line finds -/

section Lines

variable {s : State} (ha : s.awake = true)

include ha

section Look

variable (ht : monitorTakes s.fuses.life s.boot.unlocked .look = true) {page : Byte} {off : Nat}

include ht in
theorem exec_peek_of_device (h : devicePage page.toNat = true ∧ domainReg page.toNat off = false ∧ off < 4096 ∧ off % 4 = 0) :
    exec (.peek page off) s = .next (s.emit (.monitorOk [s.monWord (.pf 0) page.toNat off])) := by
  obtain ⟨hp, hr, ho, h4⟩ := h
  exact congrArg Host.Outcome.next (monitor_answers ha ht (if_pos (by simp [hp, hr, ho, h4])))

theorem exec_peek_of_other (h : ¬ (devicePage page.toNat = true ∧ domainReg page.toNat off = false ∧ off < 4096 ∧ off % 4 = 0)) :
    exec (.peek page off) s = .next (s.emit .monitorErr) :=
  congrArg Host.Outcome.next (monitor_errs ha (if_neg (by simpa [and_assoc] using h)))

/-- A counter that the device keeps, at an offset of the counters (R465). -/
def DeviceCounter (s : State) (p off : Nat) : Prop :=
  (blockOf p).isSome = true ∧ 0x40 ≤ off ∧ off < 0x80 ∧ off % 8 = 0 ∧
    counterScope (.pf 0) p ((off - 0x40) / 8) (s.viewDom (.pf 0) p) = some dev

include ht in
theorem exec_count_of_device (h : DeviceCounter s page.toNat off) :
    exec (.count page off) s = .next (s.emit (.monitorOk [(s.liveCounter (.pf 0) page.toNat ((off - 0x40) / 8)).toNat])) := by
  obtain ⟨hp, hlo, hhi, h8, hc⟩ := h
  exact congrArg Host.Outcome.next (monitor_answers ha ht (if_pos (by simp [hp, hlo, hhi, h8, hc, deviceView])))

theorem exec_count_of_other (h : ¬ DeviceCounter s page.toNat off) : exec (.count page off) s = .next (s.emit .monitorErr) :=
  congrArg Host.Outcome.next (monitor_errs ha (if_neg (by simpa [DeviceCounter, deviceView, and_assoc] using h)))

include ht in
theorem exec_trace_of_record {index : Nat} (h : index < 2 ^ (min s.dbg.traceLog2 20)) :
    exec (.trace index) s =
      .next (s.emit (.monitorOk [ofLe ((s.rdMem 0 (s.dbg.traceBase + 16 * index) 16).1.take 8),
        ofLe ((s.rdMem 0 (s.dbg.traceBase + 16 * index) 16).1.drop 8)])) :=
  congrArg Host.Outcome.next (monitor_answers ha ht (if_pos h))

theorem exec_trace_of_beyond {index : Nat} (h : 2 ^ (min s.dbg.traceLog2 20) ≤ index) :
    exec (.trace index) s = .next (s.emit .monitorErr) :=
  congrArg Host.Outcome.next (monitor_errs ha (if_neg (Nat.not_lt.2 h)))

end Look

section Change

variable (ht : monitorTakes s.fuses.life s.boot.unlocked .change = true) {page : Byte} {off addr : Nat} {d : Fin 64}

include ht in
theorem exec_poke_of_shown (h : s.shows (.pf 0) page.toNat = true) (ho : off < 4096) (h4 : off % 4 = 0) (w : W32) :
    exec (.poke page off w) s = .next ((s.writeReg32 (.pf 0) page.toNat off w.toNat).emit (.monitorOk [])) :=
  congrArg Host.Outcome.next (monitor_answers ha ht (if_pos (by simp [deviceView, h, ho, h4])))

theorem exec_poke_of_other (h : ¬ (s.shows (.pf 0) page.toNat = true ∧ off < 4096 ∧ off % 4 = 0)) (w : W32) :
    exec (.poke page off w) s = .next (s.emit .monitorErr) :=
  congrArg Host.Outcome.next (monitor_errs ha (if_neg (by simpa [deviceView, and_assoc] using h)))

/-- A byte of a live domain's range that is in stacked memory. -/
def HeldByte (s : State) (d addr : Nat) : Prop := s.live d = true ∧ s.inRange d addr 1 = true ∧ s.resident d addr 1 = true

theorem exec_mem_of_unheld (h : ¬ HeldByte s d.val addr) (write : Option Byte) : exec (.mem d addr write) s = .next (s.emit .monitorErr) := by
  have hc : (!s.live d.val || !s.inRange d.val addr 1 || !s.resident d.val addr 1) = true := by
    simp only [HeldByte, not_and, Bool.not_eq_true] at h
    cases h1 : s.live d.val <;> cases h2 : s.inRange d.val addr 1 <;> simp [h1, h2] at h ⊢
    exact h
  exact congrArg Host.Outcome.next (monitor_errs ha (if_pos hc))

section Held

variable (hh : HeldByte s d.val addr)

include hh

omit ha in
theorem heldByte_guard : ¬ (!s.live d.val || !s.inRange d.val addr 1 || !s.resident d.val addr 1) = true := by
  obtain ⟨hl, hi, hr⟩ := hh
  simp [hl, hi, hr]

include ht in
theorem exec_mem_read (hg : (s.rdMem d.val addr 1).2 = false) :
    exec (.mem d addr none) s = .next (s.emit (.monitorOk [ofLe (s.rdMem d.val addr 1).1])) :=
  congrArg Host.Outcome.next (monitor_answers ha ht ((if_neg (heldByte_guard hh)).trans (if_neg (ne_true_of_eq_false hg))))

theorem exec_mem_read_bad (hb : (s.rdMem d.val addr 1).2 = true) : exec (.mem d addr none) s = .next (s.emit .monitorErr) :=
  congrArg Host.Outcome.next (monitor_errs ha ((if_neg (heldByte_guard hh)).trans (if_pos hb)))

include ht in
theorem exec_mem_write {byte : Byte} (hs : s.sharedSpan d.val addr 1 = false) :
    exec (.mem d addr (some byte)) s = .next ((s.wrMem d.val addr [byte]).emit (.monitorOk [])) :=
  congrArg Host.Outcome.next (monitor_answers ha ht ((if_neg (heldByte_guard hh)).trans (if_neg (ne_true_of_eq_false hs))))

theorem exec_mem_write_shared {byte : Byte} (hs : s.sharedSpan d.val addr 1 = true) :
    exec (.mem d addr (some byte)) s = .next (s.emit .monitorErr) :=
  congrArg Host.Outcome.next (monitor_errs ha ((if_neg (heldByte_guard hh)).trans (if_pos hs)))

end Held

include ht in
theorem exec_domread_of_alive (ho : off < 4096 ∧ off % 4 = 0) (h : d.val = 0 ∨ (s.dom d.val).alive = true) :
    exec (.domread d page off) s = .next (s.emit (.monitorOk [s.monWord (if d.val = 0 then .pf 0 else .vf d) page.toNat off])) :=
  congrArg Host.Outcome.next (monitor_answers ha ht (if_pos (by simpa [ho.1, ho.2] using h)))

theorem exec_domread_of_other (h : ¬ ((off < 4096 ∧ off % 4 = 0) ∧ (d.val = 0 ∨ (s.dom d.val).alive = true))) :
    exec (.domread d page off) s = .next (s.emit .monitorErr) := by
  have hc : ¬ ((d.val = 0 || (s.dom d.val).alive) && decide (off < 4096) && off % 4 == 0) = true := fun hc => h (by
    simp only [Bool.and_eq_true, Bool.or_eq_true, decide_eq_true_eq, beq_iff_eq] at hc
    exact ⟨⟨hc.1.2, hc.2⟩, hc.1.1⟩)
  exact congrArg Host.Outcome.next (monitor_errs ha (if_neg hc))

end Change

end Lines

/-- A byte written where no block is poisoned. -/
theorem memRead_wrMem_byte {s : State} {d addr : Nat} (hp : poisonHit (s.dom d).poison 64 addr 1 = false) (byte : Byte) (a : Nat) :
    memRead ((s.wrMem d addr [byte]).dom d).mem a = if a = addr then byte else memRead (s.dom d).mem a := by
  split
  next heq =>
    subst heq
    rw [wrMem_mem_inside s d a [byte] a hp ⟨le_refl a, Nat.lt_succ_self a⟩, Nat.sub_self]
    rfl
  next hne => exact wrMem_mem_outside s d addr [byte] a fun h => hne (Nat.le_antisymm (Nat.lt_succ_iff.1 h.2) h.1)

/-- Settles O59: each command line by its group, then by what it finds. -/
theorem monitorCommands : Obligations.MonitorCommands := by
  unfold Obligations.MonitorCommands
  intro s page off addr index w d token byte
  dsimp only
  refine ⟨fun ha cmd hc => ?asleep, fun ha => ⟨?id, fun hr cmd hc hne => ?retired, fun hr => ?health, fun hu => ?locked,
    fun hl hu => ⟨fun htok => ?unlocks, fun htok => ?fails⟩,
    fun hr cmd hc => ?unread, fun hc cmd hcmd => ?unchanged, fun hr => ?reads, fun hc => ?changes⟩⟩
  case asleep =>
    obtain rfl | ⟨g, -, hg⟩ := lineOf_all (lineOf_unlock (.inl ha)) hc
    · exact LineOf.asleep ⟨_, rfl⟩ ha
    · exact hg.asleep ha
  case id => exact congrArg Host.Outcome.next (monitor_answers ha rfl rfl)
  case retired =>
    have ht : ∀ g, g ≠ .id → monitorTakes s.fuses.life s.boot.unlocked g = false := fun g hg => by rw [hr]; exact takes_retired hg _
    obtain rfl | ⟨g, hne', hg⟩ := lineOf_all (lineOf_unlock (.inr (.inl (ht .unlock (by decide))))) hc
    · exact absurd rfl hne
    · exact hg.refuses ha (ht g hne')
  case health =>
    obtain ⟨hh, hch⟩ := takes_health hr s.boot.unlocked
    exact ⟨congrArg Host.Outcome.next (monitor_answers ha hh rfl), congrArg Host.Outcome.next (monitor_answers ha hch rfl)⟩
  case locked =>
    have ht : monitorTakes s.fuses.life s.boot.unlocked .unlock = false := Bool.eq_false_iff.2 fun h => by
      obtain ⟨hl, hn⟩ := takes_unlock_iff.1 h
      simp [hl, hn] at hu
    exact (lineOf_unlock (.inr (.inl ht))).refuses ha ht
  case unlocks =>
    obtain ⟨t, ht, hboot, hf, he⟩ := unlocked_leaves s
    exact ⟨t.emit (.monitorOk []), (exec_unlock_of_token ha hl hu htok).trans (congrArg (fun x => Host.Outcome.next (State.emit x (.monitorOk []))) ht), hboot,
      fr_emit hf _ (by decide), eventIn_emit he _, rfl⟩
  case fails =>
    exact ⟨_, exec_unlock_of_bad ha hl hu htok, fr_emit (fr_authFail (fr_refl _ s) 64 (by decide)) _ (by decide), counter_authFail s 64, eventIn_emit (authFail_event s 64) _, rfl⟩
  case unread =>
    exact (lineOf_look hc).refuses ha (Bool.eq_false_iff.2 fun h => hr (takes_look_iff.1 h))
  case unchanged =>
    exact (lineOf_change hcmd).refuses ha (Bool.eq_false_iff.2 fun h => hc (takes_change_iff.1 h))
  case reads =>
    have ht := takes_look_iff.2 hr
    refine ⟨exec_peek_of_device ha ht, exec_peek_of_other ha, fun hp hlo hhi h8 hc => exec_count_of_device ha ht ⟨hp, hlo, hhi, h8, hc⟩,
      fun h => exec_count_of_other ha fun ⟨hp, hlo, hhi, h8, hc⟩ => ?_, exec_trace_of_record ha ht, exec_trace_of_beyond ha⟩
    rcases h with h | h | h | h | h
    · exact Bool.false_ne_true (h.symm.trans hp)
    · exact absurd hlo (Nat.not_le.2 h)
    · exact absurd hhi (Nat.not_lt.2 h)
    · exact h h8
    · exact h hc
  case changes =>
    have ht := takes_change_iff (unlocked := s.boot.unlocked) |>.2 hc
    refine ⟨fun h ho => ⟨_, exec_poke_of_shown ha ht h ho.1 ho.2 w, fun han => exec_registerWrite_word han page.isLt ho.1 ho.2 w⟩,
      fun h => exec_poke_of_other ha h w, fun hh hg => exec_mem_read ha ht hh hg, fun hh hs => ?stored,
      fun hh => ⟨exec_mem_of_unheld ha hh _, exec_mem_of_unheld ha hh _⟩, fun hh hb => exec_mem_read_bad ha hh hb,
      fun hh hs => exec_mem_write_shared ha hh hs, exec_domread_of_alive ha ht, exec_domread_of_other ha⟩
    exact ⟨_, exec_mem_write ha ht hh hs, wrMem_onlyDom s d.val addr [byte], wrMem_frame s d.val addr [byte],
      fun hp => memRead_wrMem_byte hp byte⟩

end Sys2Proof.Proofs

/-! Locksmith's mailbox (R459, R460): what an accepted request posts, and what the final status of its work leaves. From them the statement on CREATE (R422). -/

namespace Sys2Proof.Proofs

open Sys2Proof.Machine Sys2Proof.Safety Sys2Proof.Laws

/-! ## The mailbox -/

section Mailbox

variable {s t : State} {v : View} {posted : Bool}

/-- A request that the mailbox takes, with no reserved bit: it runs, and its verdict is posted. -/
theorem lksCmd_ready (h : LksReady s v posted) (op : Nat) {pfOnly : Bool} (hp : pfOnly = true → isPf v = true) {f : Nat → State → State × Nat}
    {st : Nat} (hf : f (s.viewCopy v pLks) s = (t, st)) :
    s.lksCmd v posted op 0 pfOnly f = t.postResult (s.viewCopy v pLks) pLks (lksWord st op) := by
  obtain ⟨hpf, hr⟩ := h
  have hregion : (isPf v && !isRegion0 v) = false := by
    cases hv : isPf v with
    | false => rfl
    | true => rw [(hpf hv).1]; rfl
  have hgranted : (pfOnly && !isPf v) = false := by
    cases pfOnly with
    | false => rfl
    | true => rw [hp rfl]; rfl
  have hidle : (isPf v && s.lks.engineA != []) = false := by
    cases hv : isPf v with
    | false => rfl
    | true => rw [(hpf hv).2]; rfl
  simp only [State.lksCmd, hregion, runCmd_ready hr, hgranted, hidle, hf, ne_eq, not_true_eq_false, if_false, Bool.false_eq_true]

theorem exec_lks_of {cmd : Instr} {op : Nat} {pfOnly : Bool} {f : Nat → State → State × Nat}
    (hc : exec cmd s = .next (s.lksCmd v posted op 0 pfOnly f)) (h : LksReady s v posted) (hp : pfOnly = true → isPf v = true)
    {st : Nat} (hf : f (s.viewCopy v pLks) s = (t, st)) :
    exec cmd s = .next (t.postResult (s.viewCopy v pLks) pLks (lksWord st op)) :=
  hc.trans (congrArg Host.Outcome.next (lksCmd_ready h op hp hf))

/-- What the posted verdict leaves, where the work changed domain n alone and no pair. -/
theorem lksLeaves_posted {n : Nat} (hd : StaysIn n s t) (hp : t.pairs = s.pairs) (st op : Nat) :
    LksLeaves s (t.postResult (s.viewCopy v pLks) pLks (lksWord st op)) v st op n :=
  postResult_leaves hd hp _ _ _

/-- A refusal: nothing but the verdict. -/
theorem lksLeaves_refused (st op n : Nat) : LksLeaves s (s.postResult (s.viewCopy v pLks) pLks (lksWord st op)) v st op n :=
  lksLeaves_posted (.refl n s) rfl st op

/-- The pair of LKS has no CMD_DONE: posting changes the pair alone. -/
theorem postResult_mailbox (t : State) (c r : Nat) :
    t.postResult c pLks r = t.putPair c pLks { t.pair c pLks with result := w64 (r % 2 ^ 63 + 2 ^ 63), issued := true } := by
  rw [State.postResult, if_pos rfl]

@[simp] theorem postLks_doms (t : State) (c r : Nat) : (t.postResult c pLks r).doms = t.doms := by rw [postResult_mailbox]; rfl

@[simp] theorem postLks_dom (t : State) (c r e : Nat) : (t.postResult c pLks r).dom e = t.dom e := by rw [postResult_mailbox]; rfl

@[simp] theorem postLks_view (t : State) (c r e p : Nat) : (t.postResult c pLks r).view e p = t.view e p := by rw [postResult_mailbox]; rfl

@[simp] theorem postLks_counter (t : State) (c r e p i : Nat) : (t.postResult c pLks r).counter e p i = t.counter e p i := by
  rw [postResult_mailbox]; rfl

@[simp] theorem postLks_out (t : State) (c r : Nat) : (t.postResult c pLks r).out = t.out := by rw [postResult_mailbox]; rfl

@[simp] theorem postLks_pci (t : State) (c r : Nat) : (t.postResult c pLks r).pci = t.pci := by rw [postResult_mailbox]; rfl

end Mailbox

/-! ## Messages and final statuses -/

section Final

variable {s : State}

/-- The PF's vectors need no function. -/
theorem messaged_msix (s : State) (n : Nat) : Messaged (s.msix 0 n) n := by
  have hn : 2048 * 0 + n = n := by omega
  unfold Messaged
  cases hu : s.pci.unmasked.contains n with
  | true =>
    rw [msix_of_unmasked (.inl rfl) (hn.symm ▸ hu), emit_pci, hu]
    exact List.mem_cons_self
  | false =>
    rw [msix_of_masked (.inl rfl) (hn.symm ▸ hu), hn]
    simp only [hu, Bool.false_eq_true, if_false]
    exact (mem_numAdd _ _ _).2 (.inl rfl)

theorem messaged_congr {t : State} {n : Nat} (hp : t.pci = s.pci) (ho : t.out = s.out) (h : Messaged s n) : Messaged t n := by
  unfold Messaged at h ⊢
  rwa [hp, ho]

@[simp] theorem dom_msix (s : State) (fn vec e : Nat) : (s.msix fn vec).dom e = s.dom e := by
  unfold State.msix
  split_ifs <;> rfl

theorem lksFinal_frame (s : State) (c op st d : Nat) : Frame (withEvents [.pairs]) s (s.lksFinal c op st d) :=
  fr_lksFinal (fr_refl _ s) c op st d (by decide)

/-- The final status stands in LKS_DONE, with REQ_DONE and, for the PF, its message (R459). -/
theorem lksFinal_finished (s : State) (c op st d : Nat) : LksFinished (s.lksFinal c op st d) c st op d := by
  generalize hs : (s.putPair c pLks { s.pair c pLks with done := w64 (lksWord st op + 2 ^ 63) }).raiseCopy pLks 0 c = s1
  have hf : s.lksFinal c op st d = if 64 ≤ c then s1.msix 0 (32 + d) else s1 := by rw [← hs]; rfl
  have hdone : (s1.pair c pLks).done = w64 (lksWord st op + 2 ^ 63) := by
    rw [← hs, State.pair, raiseCopy_pairs, ← State.pair, pair_putPair_self]
  have hevent : EventIn s1 [c] pLks 0 := fun e he => by
    rw [List.mem_singleton.1 he, ← hs]
    exact raiseCopy_event _ pLks 0 c (by decide)
  rw [hf]
  split
  next =>
    refine ⟨?_, eventIn_of_stays (eventsStay_views (msix_views ..)) hevent, fun _ => messaged_msix s1 (32 + d)⟩
    rw [State.pair, (msix_frame s1 0 (32 + d)).kept .pairs (by decide), ← State.pair, hdone]
  next hc => exact ⟨hdone, hevent, fun h => absurd h hc⟩

end Final

/-! ## CREATE (R422) -/

section Create

variable {s : State} {c d : Nat} {w : List Nat} {again : Bool}

/-- The rows of R422 before those of the resources. -/
structure CreateFits (s : State) (w : List Nat) (d : Nat) (again : Bool) : Prop where
  named : bitsOf (w.getD 0 0) 0 6 = d
  plain : recordPlain w = true
  tenant : d ≠ 0
  fields : (recordOf w).fieldsOk d = true
  allowed : s.tenantsAllowed = true
  alone : (s.dom d).held = none ∨ again = true
  ended : (s.dom d).phase = .free ∨ (s.dom d).phase = .scrubbing

/-- Of a CREATE whose record fits, the rows that are left: resources, frames, and a scrub that still runs. -/
theorem createReq_of_fits (h : CreateFits s w d again) :
    s.createReq c w again =
      if s.resourcesFree d (recordOf w) = false then (s, 0x0F)
      else if s.freeFrames < (recordOf w).quota + (recordOf w).ovhFrames d then (s, 0x10)
      else if (s.dom d).phase = .scrubbing then (s.updDom d (fun y => { y with held := some (recordOf w, c) }), 0x11)
      else (s.createDom d c (recordOf w), 0x01) := by
  obtain ⟨hn, hp, h0, hf, ha, hal, he⟩ := h
  have hphase : ((s.dom d).phase == .free || (s.dom d).phase == .scrubbing) = true := by
    rcases he with he | he <;> rw [he] <;> rfl
  have hheld : ((s.dom d).held.isSome && !again) = false := by
    rcases hal with hal | hal <;> simp [hal]
  have h0' : (d == 0) = false := beq_false_of_ne h0
  simp only [State.createReq, hn, hp, h0', hf, ha, hphase, hheld, Bool.not_true, Bool.or_self, Bool.false_eq_true, if_false,
    Bool.not_eq_true', beq_iff_eq]

/-- The slots of a record stand FREE with GEN 0, the others as before (R118). -/
theorem slot_freeSlots (s : State) (first count k : Nat) :
    (s.freeSlots first count).slot k = if first ≤ k ∧ k < first + count then {} else s.slot k := by
  have hmap := mapGet_filter s.slots (fun j => decide (j < first) || decide (first + count ≤ j)) k
  have hout : (decide (k < first) || decide (first + count ≤ k)) = true ↔ ¬ (first ≤ k ∧ k < first + count) := by
    simp only [Bool.or_eq_true, decide_eq_true_eq]
    omega
  refine (congrArg (Option.getD · {}) hmap).trans ?_
  simp only [hout, ite_not]
  split <;> rfl

/-- Every view of the domain's own function stands as at reset, and every counter of the domain at zero (R422, R512). -/
theorem view_resetViews (s : State) {d p : Nat} (hp : p < 256) : (s.resetViews d).view d p = {} := by
  have hc : (256 * d + p) / 256 = d := by omega
  have hmap := mapGet_filter s.views (fun k => !(k / 256 == d || (k / 256 == 64 + d && k % 256 != pLks))) (256 * d + p)
  refine (congrArg (Option.getD · {}) hmap).trans ?_
  rw [if_neg (by simp [hc])]
  rfl

theorem counter_resetViews (s : State) {d p i : Nat} (hp : p < 256) (hi : i < 8) : (s.resetViews d).counter d p i = 0 := by
  have hc : counterKey d p i / 8 / 256 = d := by unfold counterKey; omega
  have hmap := mapGet_filter s.counters (fun k => k / 8 / 256 != d) (counterKey d p i)
  refine (congrArg (Option.getD · 0) hmap).trans ?_
  rw [if_neg (by simp [hc])]
  rfl

/-- What an accepted CREATE leaves before its message is sent. -/
theorem createDom_leaves (s : State) (d c : Nat) (r : DomRecord) : ∃ u, s.createDom d c r = u.msix 0 (32 + d) ∧
    u.dom d = createdDom s d c r ∧ OnlyDom s u d ∧ u.freeFrames = s.freeFrames - (r.quota + r.ovhFrames d) ∧
    u.lks.draws = s.lks.draws + 3 ∧ u.lks.engineA = (if r.attest then s.lks.engineA ++ [d] else s.lks.engineA) ∧
    (∀ k, u.slot k = if r.slotFirst ≤ k ∧ k < r.slotFirst + r.slotCount then {} else s.slot k) ∧
    (∀ p i, p < 256 → i < 8 → u.view d p = {} ∧ u.counter d p i = 0) :=
  ⟨_, rfl, dom_putDom_self .., fun e he => onlyDom_putDom s d (createdDom s d c r) e he, rfl, rfl, rfl, fun k => slot_freeSlots s _ _ k,
    fun _ _ hp hi => ⟨view_resetViews s hp, counter_resetViews s hp hi⟩⟩

theorem created_createDom (s : State) (d c : Nat) (r : DomRecord) : Created s (s.createDom d c r) d c r := by
  obtain ⟨u, hu, hdom, honly, hfr, hdraws, heng, hslot, hview⟩ := createDom_leaves s d c r
  have hf := msix_frame u 0 (32 + d)
  have hlks : (u.msix 0 (32 + d)).lks = u.lks := hf.kept .lks (by decide)
  have hd : ∀ e, (u.msix 0 (32 + d)).dom e = u.dom e := dom_msix u 0 (32 + d)
  have hslots : ∀ k, (u.msix 0 (32 + d)).slot k = u.slot k := fun k => by
    unfold State.slot
    rw [hf.kept .slots (by decide)]
  rw [hu]
  refine ⟨(hd d).trans hdom, fun e he => hd e ▸ honly e he, (hf.kept .freeFrames (by decide)).trans hfr, hlks ▸ hdraws, hlks ▸ heng,
    fun k => (hslots k).trans (hslot k), fun p i hp hi => ?_, messaged_msix u (32 + d)⟩
  obtain ⟨hv, hc⟩ := hview p i hp hi
  exact ⟨(view_congr (msix_views ..) d p).trans hv, (counter_congr (hf.kept .counters (by decide)) d p i).trans hc⟩

theorem created_posted {t : State} {r : DomRecord} (h : Created s t d c r) (c' w : Nat) : Created s (t.postResult c' pLks w) d c r := by
  obtain ⟨hdom, honly, hfr, hdraws, heng, hslot, hview, hmsg⟩ := h
  refine ⟨by simpa, fun e he => by simpa using honly e he, by simpa, by simpa, by simpa, by simpa, by simpa, ?_⟩
  exact messaged_congr (postLks_pci ..) (postLks_out ..) hmsg

end Create

/-- A held CREATE whose domain is FREE: the verdict of its rows, or the creation (R422, R425). -/
theorem exec_held {s : State} {d : Fin 64} {q : DomRecord} {c : Nat} (hq : (s.dom d.val).held = some (q, c)) (hp : (s.dom d.val).phase = .free)
    {t : State} {st : Nat}
    (hr : (s.putDom d.val { s.dom d.val with held := none }).createReq c ((recordWords q d.val).map BitVec.toNat) true = (t, st)) :
    exec (.heldRequestExecute d) s = .next (if st = 0x01 then t else t.lksFinal c 0x01 st d.val) := by
  have hr' : (s.updDom d.val (fun y => { y with held := none })).createReq c ((recordWords q d.val).map BitVec.toNat) true = (t, st) := hr
  show execHeldRequestExecute d s = _
  simp only [execHeldRequestExecute, hq, hp, hr', bne_self_eq_false, Bool.false_eq_true, if_false]

/-- What the final status of a held CREATE leaves: no creation, and the domain FREE. -/
theorem heldRefused_leaves {s : State} {d c st : Nat} (hp : (s.dom d).phase = .free) (hh : (s.dom d).held = none) :
    ((s.lksFinal c 0x01 st d).dom d).held = none ∧ LksFinished (s.lksFinal c 0x01 st d) c st 0x01 d ∧
      ((s.lksFinal c 0x01 st d).dom d).phase = .free := by
  obtain ⟨hphase, hheld, -⟩ := (lksFinal_frame s c 0x01 st d).kept .domLife (by decide) d
  exact ⟨hheld.trans hh, lksFinal_finished s c 0x01 st d, hphase.trans hp⟩

/-- Settles O26: the rows of R422 in their order, once for a CREATE and once for a held one. -/
theorem domainsAreCreated : Obligations.DomainsAreCreated := by
  unfold Obligations.DomainsAreCreated
  intro s v posted d0
  dsimp only
  refine ⟨fun hready hpf hplain h0 hfields hallow hheld hphase => ?create, fun hp hc he => ?complete, fun q copy hq hp hname hplain h0 hfields hallow => ?held⟩
  case create =>
    have hfits : CreateFits s (s.lksArgs (s.viewCopy v pLks)) _ false := ⟨rfl, hplain, h0, hfields, hallow, .inl hheld, hphase⟩
    have hrows := createReq_of_fits (c := s.viewCopy v pLks) hfits
    have hexec := fun {t st} hf => exec_lks_of (cmd := .create v posted d0 0) (t := t) (st := st) rfl hready (fun _ => hpf) (hrows.trans hf)
    by_cases hres : s.resourcesFree (bitsOf ((s.lksArgs (s.viewCopy v pLks)).getD 0 0) 0 6) (recordOf (s.lksArgs (s.viewCopy v pLks))) = false
    · refine ⟨_, hexec (if_pos hres), fun _ => ⟨lksLeaves_refused .., postLks_doms .., postResult_freeFrames ..⟩, ?_, ?_, ?_⟩ <;>
        exact fun h => absurd (hres.symm.trans h) Bool.false_ne_true
    rw [if_neg hres] at hexec
    by_cases hfr : s.freeFrames < (recordOf (s.lksArgs (s.viewCopy v pLks))).quota +
        (recordOf (s.lksArgs (s.viewCopy v pLks))).ovhFrames (bitsOf ((s.lksArgs (s.viewCopy v pLks)).getD 0 0) 0 6)
    · refine ⟨_, hexec (if_pos hfr), fun h => absurd h hres, fun _ _ => ⟨lksLeaves_refused .., postLks_doms .., postResult_freeFrames ..⟩, ?_, ?_⟩ <;>
        exact fun _ h => absurd hfr (Nat.not_lt.2 h)
    rw [if_neg hfr] at hexec
    rcases hphase with hfree | hscrub
    · refine ⟨_, hexec (if_neg (by rw [hfree]; decide)), fun h => absurd h hres, fun _ h => absurd h hfr, fun _ _ h => ?_,
        fun _ _ _ => ⟨answered_postResult .., created_posted (created_createDom ..) ..⟩⟩
      rw [hfree] at h
      exact absurd h (by decide)
    · refine ⟨_, hexec (if_pos hscrub), fun h => absurd h hres, fun _ h => absurd h hfr,
        fun _ _ _ => ⟨lksLeaves_posted (.updDom ..) rfl .., by simp, postResult_freeFrames ..⟩, fun _ _ h => ?_⟩
      rw [hscrub] at h
      exact absurd h (by decide)
  case complete =>
    have hcond : ((s.dom d0.val).phase == .creating && !(s.dom d0.val).created && !s.lks.engineA.contains d0.val) = true := by
      simp [hp, hc, he]
    exact ⟨_, congrArg Host.Outcome.next (if_pos hcond), (StaysIn.updDom ..).only, dom_updDom_self ..⟩
  case held =>
    generalize hs1 : s.putDom d0.val { s.dom d0.val with held := none } = s1
    have hdom : s1.dom d0.val = { s.dom d0.val with held := none } := by rw [← hs1, dom_putDom_self]
    have hphase1 : (s1.dom d0.val).phase = .free := by rw [hdom]; exact hp
    have hheld1 : (s1.dom d0.val).held = none := by rw [hdom]
    have hframes : s1.freeFrames = s.freeFrames := by rw [← hs1]; rfl
    have hfits : CreateFits s1 ((recordWords q d0).map BitVec.toNat) d0.val true :=
      ⟨hname, hplain, fun h => h0 (Fin.ext h), hfields, by rw [← hs1]; exact hallow, .inr rfl, .inl hphase1⟩
    have hrows := createReq_of_fits (c := copy) hfits
    have hexec := fun {t st} hf => exec_held (t := t) (st := st) hq hp (hs1 ▸ hrows.trans hf)
    rw [hframes] at hexec
    by_cases hres : s1.resourcesFree d0 (recordOf ((recordWords q d0).map BitVec.toNat)) = false
    · obtain ⟨hnone, hfin, hstill⟩ := heldRefused_leaves (c := copy) (st := 0x0F) hphase1 hheld1
      refine ⟨_, hexec (if_pos hres), hnone, fun _ => ⟨hfin, hstill⟩, ?_, ?_⟩ <;>
        exact fun h => absurd (hres.symm.trans h) Bool.false_ne_true
    rw [if_neg hres] at hexec
    by_cases hfr : s.freeFrames < (recordOf ((recordWords q d0).map BitVec.toNat)).quota +
        (recordOf ((recordWords q d0).map BitVec.toNat)).ovhFrames d0
    · obtain ⟨hnone, hfin, hstill⟩ := heldRefused_leaves (c := copy) (st := 0x10) hphase1 hheld1
      exact ⟨_, hexec (if_pos hfr), hnone, fun h => absurd h hres, fun _ _ => ⟨hfin, hstill⟩, fun _ h => absurd hfr (Nat.not_lt.2 h)⟩
    rw [if_neg hfr, if_neg (by rw [hphase1]; decide)] at hexec
    have hmade := created_createDom s1 d0.val copy (recordOf ((recordWords q d0).map BitVec.toNat))
    exact ⟨_, hexec rfl, congrArg Dom.held hmade.1, fun h => absurd h hres, fun _ h => absurd h hfr, fun _ _ => hmade⟩

end Sys2Proof.Proofs

/-! The end of a domain (R403, R423 to R425, R447, R448): when a teardown falls due, what a reset of a function leaves, and what a scrub leaves of the domain's arrays, banks and range. From them the statement on how a domain ends. -/

namespace Sys2Proof.Proofs

open Sys2Proof.Machine Sys2Proof.Safety Sys2Proof.Laws

/-! ## When a teardown is due (R423) -/

section Teardown

variable {s t : State} {d : Nat}

/-- A domain that is neither FREE nor SCRUBBING. -/
def Standing (s : State) (d : Nat) : Prop := (s.dom d).phase ≠ .free ∧ (s.dom d).phase ≠ .scrubbing

/-- The tick at whose latch a domain's end falls due: that already set, at once while it is created, or that of the cut-off. -/
def teardownDue (s : State) (d : Nat) : Nat :=
  match (s.dom d).teardownAt with
  | some t => t
  | none => if (s.dom d).phase = .creating then 0 else s.effectTick

theorem teardownDue_congr (ha : (t.dom d).teardownAt = (s.dom d).teardownAt) (hp : (t.dom d).phase = (s.dom d).phase) (ht : t.tik = s.tik) :
    teardownDue t d = teardownDue s d := by
  simp only [teardownDue, State.effectTick, ha, hp, ht]

theorem tearDown_of_standing (h : Standing s d) :
    s.tearDown d = s.updDom d (fun y => { y with teardownAt := some (teardownDue s d) }) := by
  obtain ⟨hfree, hscrub⟩ := h
  unfold State.tearDown
  rw [if_neg (by simp [hfree, hscrub])]
  simp only [teardownDue, beq_iff_eq, State.updDom] <;> rfl

theorem tearDown_of_ended (h : ¬ Standing s d) : s.tearDown d = s := by
  unfold Standing at h
  unfold State.tearDown
  rw [if_pos]
  simpa [or_iff_not_imp_left] using h

/-- A teardown is a field of its own domain. -/
theorem tearDown_frame (s : State) (d : Nat) : Frame [.domLife] s (s.tearDown d) := fr_tearDown (fr_refl _ s) d (fun _ h => h)

theorem StaysIn.tearDown (s : State) (d : Nat) : StaysIn d s (s.tearDown d) := by
  by_cases h : Standing s d
  · rw [tearDown_of_standing h]
    exact .updDom d s _
  · rw [tearDown_of_ended h]
    exact .refl d s

theorem dom_tearDown_ne {e : Nat} (h : e ≠ d) : (s.tearDown d).dom e = s.dom e := by
  by_cases hs : Standing s d
  · rw [tearDown_of_standing hs, dom_updDom_ne _ _ _ _ h]
  · rw [tearDown_of_ended hs]

theorem tearDown_pci (s : State) (d : Nat) : (s.tearDown d).pci = s.pci := by
  by_cases h : Standing s d
  · rw [tearDown_of_standing h]; rfl
  · rw [tearDown_of_ended h]

end Teardown

/-! ## A function's vectors after its reset (R403; log 9) -/

/-- Every vector of function n is masked, as at reset. -/
def Quiet (t : State) (n : Nat) : Prop := ∀ k, k / 2048 = n → t.pci.unmasked.contains k = false

theorem quiet_resetFn (s : State) (n : Nat) : Quiet (s.resetFn n) n := fun k hk => by
  refine Bool.eq_false_iff.2 fun h => ?_
  have hmem := List.mem_filter.1 (List.contains_iff_mem.1 h)
  simp [hk] at hmem

theorem quiet_of_resetFn {s : State} {n : Nat} (h : Quiet s n) (e : Nat) : Quiet (s.resetFn e) n := fun k hk => by
  refine Bool.eq_false_iff.2 fun hc => ?_
  have hmem := List.mem_filter.1 (List.contains_iff_mem.1 hc)
  exact Bool.false_ne_true ((h k hk).symm.trans (List.contains_iff_mem.2 hmem.1))

theorem quiet_congr {s t : State} {n : Nat} (h : t.pci.unmasked = s.pci.unmasked) (hq : Quiet s n) : Quiet t n := fun k hk => by
  rw [h]
  exact hq k hk

/-! ## VF Enable (R425, R482) -/

/-- Clearing VF Enable, domain by domain. -/
def shutFn (t : State) (d : Nat) : State := (t.resetFn d).tearDown d

theorem dom_shutFn_ne {t : State} {d e : Nat} (h : e ≠ d) : (shutFn t d).dom e = t.dom e := dom_tearDown_ne (s := t.resetFn d) h

theorem tenants_mem {d : Nat} (hd : d < 64) (h0 : d ≠ 0) : d ∈ allDomains.drop 1 := by
  have hl : allDomains.drop 1 = List.range' 1 63 := by decide
  rw [hl, List.mem_range']
  exact ⟨d - 1, by omega, by omega⟩

theorem tenants_ne {e : Nat} (h : e ∈ allDomains.drop 1) : e ≠ 0 := by
  have hl : allDomains.drop 1 = List.range' 1 63 := by decide
  rw [hl, List.mem_range'] at h
  omega

section Shut

variable (s : State) {d : Nat}

theorem quiet_shutAll (hd : d ∈ allDomains.drop 1) : Quiet ((allDomains.drop 1).foldl shutFn s) d :=
  foldl_establishes (Quiet · d) shutFn (fun t e h => quiet_congr (by rw [shutFn, tearDown_pci]) (quiet_of_resetFn h e))
    (fun t => quiet_congr (by rw [shutFn, tearDown_pci]) (quiet_resetFn t d)) _ _ hd

theorem shutAll_pci : ((allDomains.drop 1).foldl shutFn s).pci.vfEnable = s.pci.vfEnable ∧ ((allDomains.drop 1).foldl shutFn s).pci.numVfs = s.pci.numVfs :=
  foldl_keeps (fun t => t.pci.vfEnable = s.pci.vfEnable ∧ t.pci.numVfs = s.pci.numVfs) shutFn
    (fun t e h => by rw [shutFn, tearDown_pci]; exact h) _ ⟨rfl, rfl⟩

theorem shutAll_dom0 : ((allDomains.drop 1).foldl shutFn s).dom 0 = s.dom 0 :=
  List.foldlRecOn (motive := fun t => t.dom 0 = s.dom 0) _ shutFn rfl fun _ h _ he =>
    (dom_shutFn_ne (tenants_ne he).symm).trans h

theorem shutAll_teardown (hd : d ∈ allDomains.drop 1) (h : Standing s d) :
    (((allDomains.drop 1).foldl shutFn s).dom d).teardownAt = some (teardownDue s d) := by
  refine foldl_once (P := fun t => t.dom d = s.dom d ∧ t.tik = s.tik) (Q := fun t => (t.dom d).teardownAt = some (teardownDue s d)) shutFn
    (fun t e hne ⟨hdom, htik⟩ => ⟨(dom_shutFn_ne hne.symm).trans hdom, ?_⟩) (fun t ⟨hdom, htik⟩ => ?_)
    (fun _ _ hne hq => (congrArg Dom.teardownAt (dom_shutFn_ne hne.symm)).trans hq) _ _ (by decide) hd ⟨rfl, rfl⟩
  · exact ((tearDown_frame (t.resetFn e) e).kept .tik (by decide)).trans htik
  · have hdom' : (t.resetFn d).dom d = s.dom d := hdom
    have hstand : Standing (t.resetFn d) d := by rwa [Standing, hdom']
    rw [shutFn, tearDown_of_standing hstand, dom_updDom_self]
    exact congrArg some (teardownDue_congr (congrArg Dom.teardownAt hdom') (congrArg Dom.phase hdom') htik)

end Shut

/-! ## The scrub (R447, R448) -/

section Scrub

/-- Clearing units removes the accumulators of theirs and no other. -/
theorem acc_clearUnits (us : List Nat) (s : State) (k : Nat) :
    mapGet (s.clearUnits us).acc k = if us.any (fun u => 524288 * u ≤ k && k < 524288 * (u + 1)) then none else mapGet s.acc k := by
  show mapGet (us.foldl (fun t u => t.clearArrays (128 * u) 128 true) s).acc k = _
  induction us generalizing s with
  | nil => rfl
  | cons u us ih =>
    have hmap : mapGet (s.clearArrays (128 * u) 128 true).acc k = if 524288 * u ≤ k ∧ k < 524288 * (u + 1) then none else mapGet s.acc k := by
      refine (mapGet_filter s.acc (fun i => i < 4096 * (128 * u) || 4096 * (128 * u + 128) ≤ i) k).trans ?_
      by_cases h : 524288 * u ≤ k ∧ k < 524288 * (u + 1)
      · rw [if_pos h, if_neg]
        simp only [Bool.or_eq_true, decide_eq_true_eq]
        omega
      · rw [if_neg h, if_pos]
        simp only [Bool.or_eq_true, decide_eq_true_eq]
        omega
    rw [List.foldl_cons, ih, hmap]
    by_cases h : 524288 * u ≤ k ∧ k < 524288 * (u + 1) <;> simp [h]

/-- And their operand buffers, and no other. -/
theorem opbuf_clearUnits (us : List Nat) (s : State) (a : Nat) :
    memRead (s.clearUnits us).opbuf a = if us.any (fun u => 4194304 * u ≤ a && a < 4194304 * (u + 1)) then 0 else memRead s.opbuf a := by
  show memRead (us.foldl (fun t u => t.clearArrays (128 * u) 128 true) s).opbuf a = _
  induction us generalizing s with
  | nil => rfl
  | cons u us ih =>
    have hmem : memRead (s.clearArrays (128 * u) 128 true).opbuf a = if 4194304 * u ≤ a ∧ a < 4194304 * (u + 1) then 0 else memRead s.opbuf a := by
      refine (memRead_memClear s.opbuf (32768 * (128 * u)) (32768 * 128) a).trans ?_
      refine if_congr ?_ rfl rfl
      omega
    rw [List.foldl_cons, ih, hmem]
    by_cases h : 4194304 * u ≤ a ∧ a < 4194304 * (u + 1) <;> simp [h]

variable {s : State} {d : Nat}

/-- The units of a domain's record that it has not lent. -/
def ownUnits (s : State) (d : Nat) : List Nat :=
  (List.range' (s.dom d).rec_.arrFirstUnit (s.dom d).rec_.arrUnits).filter (fun u => !(s.lentFrom d).contains u)

/-- A SCRUBBING domain once both phases of its scrub have ended: its arrays, its banks and its memories are cleared. -/
def scrubbed (s : State) (d nowNs : Nat) : State :=
  let x := s.dom d
  let s1 := ((s.clearUnits (ownUnits s d)).clearBanks x.rec_.bankFirst x.rec_.banks).updDom d (fun y =>
    { y with mem := [], poison := [], savedAcc := [], savedOpbuf := [], savedCommons := [] })
  let s2 := (s1.updDom d (fun y => { y with scrubEnded := true })).updFul (fun f =>
    { f with running := f.running.filter (fun e => e != d), lastNs := nowNs - x.scrubStartNs })
  (s2.bump dev pFul 0 1).bump dev pFul 1 (x.rec_.quota + x.ovh)

theorem exec_scrubEnd {d : Fin 64} (hp : (s.dom d.val).phase = .scrubbing) (he : (s.dom d.val).scrubEnded = false) (nowNs : Nat) (frames units : List Nat) :
    exec (.scrubEnd d nowNs frames units) s =
      .next (State.raiseDev { (scrubbed s d nowNs).withholdFrames frames units with
        freeFrames := ((scrubbed s d nowNs).withholdFrames frames units).freeFrames - frames.length } pFul 0) := by
  show execScrubEnd d nowNs frames units s = _
  simp only [execScrubEnd, hp, he, beq_self_eq_true, Bool.true_or, Bool.not_true, Bool.or_self, Bool.false_eq_true, if_false, if_true]
  rfl

theorem dom_clearBanks (t : State) (first n e : Nat) : (t.clearBanks first n).dom e = t.dom e := rfl

/-- The domain itself: what it held reads as zero. -/
theorem dom_scrubbed (s : State) (d nowNs : Nat) : (scrubbed s d nowNs).dom d =
    { (s.clearUnits (ownUnits s d)).dom d with mem := [], poison := [], savedAcc := [], savedOpbuf := [], savedCommons := [], scrubEnded := true } := by
  simp only [scrubbed, bump_dom, updFul_dom, dom_updDom_self, dom_clearBanks]

theorem dom_scrubbed_ne {e : Nat} (h : e ≠ d) (nowNs : Nat) : (scrubbed s d nowNs).dom e = (s.clearUnits (ownUnits s d)).dom e := by
  simp only [scrubbed, bump_dom, updFul_dom, dom_updDom_ne _ _ _ _ h, dom_clearBanks]

theorem dbg_clearUnits (us : List Nat) (s : State) : (s.clearUnits us).dbg = s.dbg :=
  foldl_keeps (fun t : State => t.dbg = s.dbg) (fun t u => t.clearArrays (128 * u) 128 true) (fun _ _ h => h) us rfl

theorem phase_clearUnits (us : List Nat) (s : State) (e : Nat) : ((s.clearUnits us).dom e).phase = (s.dom e).phase :=
  ((fr_clearUnits (fr_refl [.acc, .opbuf, .domSlabs] s) us (fun _ h => h)).kept .domLife (by decide) e).1

/-- A scrub moves no domain between phases. -/
theorem phase_scrubbed (s : State) (d nowNs e : Nat) : ((scrubbed s d nowNs).dom e).phase = (s.dom e).phase := by
  by_cases h : e = d
  · rw [h, dom_scrubbed]
    exact phase_clearUnits _ s d
  · rw [dom_scrubbed_ne h]
    exact phase_clearUnits _ s e

theorem commons_scrubbed (s : State) (d nowNs a : Nat) : memRead (scrubbed s d nowNs).commons a =
    if bankBytes * (s.dom d).rec_.bankFirst ≤ a ∧ a < bankBytes * (s.dom d).rec_.bankFirst + bankBytes * (s.dom d).rec_.banks then 0
    else memRead s.commons a := by
  have hc : (s.clearUnits (ownUnits s d)).commons = s.commons :=
    (fr_clearUnits (fr_refl [.acc, .opbuf, .domSlabs] s) _ (fun _ h => h)).kept .commons (by decide)
  exact (memRead_memClear _ _ _ a).trans (by rw [hc])

theorem freeFrames_clearUnits (s : State) (us : List Nat) : (s.clearUnits us).freeFrames = s.freeFrames :=
  (fr_clearUnits (fr_refl [.acc, .opbuf, .domSlabs] s) us (fun _ h => h)).kept .freeFrames (by decide)

theorem fr_freeFrames {L : List Part} {s₀ t : State} (h : Frame L s₀ t) (n : Nat) (hL : Part.freeFrames ∈ L) :
    Frame L s₀ { t with freeFrames := n } := by
  refine ⟨h.pending, h.ring, fun p hp => ?_⟩
  have hk := h.kept p hp
  cases p
  case freeFrames => exact absurd hL hp
  all_goals exact hk

theorem running_scrubbed (s : State) (d nowNs : Nat) : d ∉ (scrubbed s d nowNs).ful.running := by
  have hr : (scrubbed s d nowNs).ful.running = (s.clearUnits (ownUnits s d)).ful.running.filter (fun e => e != d) := by unfold scrubbed; rfl
  rw [hr]
  exact fun h => by simpa using (List.mem_filter.1 h).2

theorem freeFrames_scrubbed (s : State) (d nowNs : Nat) : (scrubbed s d nowNs).freeFrames = s.freeFrames := by
  simp only [scrubbed, bump_freeFrames, updFul_freeFrames, updDom_freeFrames, State.clearBanks, freeFrames_clearUnits]

theorem acc_scrubbed (s : State) (d nowNs : Nat) : (scrubbed s d nowNs).acc = (s.clearUnits (ownUnits s d)).acc := by
  simp only [scrubbed, bump_acc, updFul_acc, updDom_acc, State.clearBanks]

theorem opbuf_scrubbed (s : State) (d nowNs : Nat) : (scrubbed s d nowNs).opbuf = (s.clearUnits (ownUnits s d)).opbuf := by
  simp only [scrubbed, bump_opbuf, updFul_opbuf, updDom_opbuf, State.clearBanks]

theorem inRing_scrubbed {s : State} {d nowNs e a : Nat} : inRing (scrubbed s d nowNs) e a ↔ inRing s e a := by
  have hd : (s.clearUnits (ownUnits s d)).dbg = s.dbg := dbg_clearUnits _ s
  simp only [inRing, scrubbed, bump_dbg, updFul_dbg, updDom_dbg, State.clearBanks, hd]

/-- What is told and counted once the scrub has ended. -/
theorem scrubEnd_leaves {d : Fin 64} (hp : (s.dom d.val).phase = .scrubbing) (he : (s.dom d.val).scrubEnded = false) (nowNs : Nat)
    (frames units : List Nat) : ∃ t, exec (.scrubEnd d nowNs frames units) s = .next t ∧
      Frame (withEvents [.boot, .ful, .freeFrames]) (scrubbed s d nowNs) t ∧ d.val ∉ t.ful.running ∧
      t.freeFrames = s.freeFrames - frames.length ∧ EventIn t (s.devCopies pFul 0) pFul 0 := by
  have hw : Frame (withEvents [.boot, .ful, .freeFrames]) (scrubbed s d nowNs) ((scrubbed s d nowNs).withholdFrames frames units) :=
    fr_withholdFrames (fr_refl _ _) frames units (by decide)
  have hn : Frame (withEvents [.boot, .ful, .freeFrames]) (scrubbed s d nowNs) { (scrubbed s d nowNs).withholdFrames frames units with
      freeFrames := ((scrubbed s d nowNs).withholdFrames frames units).freeFrames - frames.length } :=
    fr_freeFrames hw _ (by decide)
  refine ⟨_, exec_scrubEnd hp he nowNs frames units, fr_raiseDev hn pFul 0 (by decide), ?_, ?_, ?_⟩
  · rw [raiseDev_ful]
    show d.val ∉ ((scrubbed s d nowNs).withholdFrames frames units).ful.running
    rw [withholdFrames_ful]
    exact fun h => running_scrubbed s d nowNs h
  · rw [raiseDev_freeFrames]
    show ((scrubbed s d nowNs).withholdFrames frames units).freeFrames - _ = _
    rw [withholdFrames_freeFrames, freeFrames_scrubbed]
  · refine raiseDev_eventIn (devCopies_congr (fun e => ?_) pFul 0) (by decide)
    exact (hn.kept .domLife (by decide) e).1.trans (phase_scrubbed s d nowNs e)

end Scrub

/-! ## Function Level Reset and VF Enable -/

section Functions

variable {s : State} {d : Fin 64}

theorem standing_of_alive {d : Nat} (h : (s.dom d).alive = true) : Standing s d := by
  unfold Standing
  constructor <;> intro hp <;> rw [Dom.alive, hp] at h <;> exact absurd h (by decide)

/-- A reset function's vectors, its counter and its event. -/
def flrTold (s : State) (d : Nat) : State := ((s.resetFn d).bump dev pPci 3 1).raiseDev pPci 3

theorem flrTold_event (s : State) (d : Nat) : EventIn (flrTold s d) (s.devCopies pPci 3) pPci 3 := raiseDev_eventIn rfl (by decide)

theorem flrTold_frame (s : State) (d : Nat) : Frame (withEvents [.pci]) s (flrTold s d) :=
  fr_raiseDev (fr_bump (fr_resetFn (fr_refl _ s) d (by decide)) dev pPci 3 1 (by decide)) pPci 3 (by decide)

theorem quiet_flrTold (s : State) (d : Nat) : Quiet (flrTold s d) d :=
  quiet_congr (raiseDev_pci_unmasked _ _ _) (quiet_resetFn s d)

theorem exec_vfFlr (h0 : d.val ≠ 0) (he : s.pci.vfEnable = true) (hn : d.val ≤ s.pci.numVfs) : exec (.vfFlr d) s =
    .next (if (s.dom d.val).phase = .free then flrTold s d.val
      else ((flrTold s d.val).updPci (fun p => { p with flr := numAdd p.flr d.val })).tearDown d.val) := by
  show execVfFlr d s = _
  have hc : ¬ (d.val = 0 ∨ (!s.pci.vfEnable) = true ∨ s.pci.numVfs < d.val) := by simp [h0, he, hn]
  simp only [execVfFlr, if_neg hc, beq_iff_eq]
  rfl

/-- Teardown of a domain in a state that differs in no domain's life and in no tick. -/
theorem teardownAt_tearDown {L : List Part} {t : State} {d : Nat} (hf : Frame L s t) (hL : Part.domLife ∉ L) (hT : Part.tik ∉ L) (h : Standing s d) :
    ((t.tearDown d).dom d).teardownAt = some (teardownDue s d) := by
  obtain ⟨hphase, -, -, -, -, hat, -⟩ := hf.kept .domLife hL d
  have hs : Standing t d := by rwa [Standing, hphase]
  rw [tearDown_of_standing hs, dom_updDom_self]
  exact congrArg some (teardownDue_congr hat hphase (hf.kept .tik hT))

/-- The functions that answer with Retry Status where VF Enable is set before their domain is FREE (R425). -/
def shutFns (s : State) : List Nat :=
  allDomains.filter (fun d => d != 0 && ((s.dom d).teardownAt.isSome || (s.dom d).phase == .scrubbing))

/-- VF Enable and NumVFs as written, before a cleared VF Enable ends the domains. -/
def vfWritten (s : State) (on : Bool) (n : Nat) : State :=
  let s1 := s.updPci (fun p => { p with vfEnable := on, numVfs := n, flr := if on && !s.pci.vfEnable then shutFns s else p.flr })
  if on = s.pci.vfEnable then s1 else s1.raiseDev pPci 4

theorem exec_vfEnable_same {on : Bool} {n : Nat} (h : on = s.pci.vfEnable ∧ n = s.pci.numVfs) : exec (.vfEnableChange on n) s = .next s :=
  congrArg Host.Outcome.next (if_pos h)

theorem exec_vfEnable_on {n : Nat} (h : ¬ (true = s.pci.vfEnable ∧ n = s.pci.numVfs)) :
    exec (.vfEnableChange true n) s = .next (vfWritten s true n) :=
  congrArg Host.Outcome.next ((if_neg h).trans (if_pos rfl))

theorem exec_vfEnable_off {n : Nat} (h : ¬ (false = s.pci.vfEnable ∧ n = s.pci.numVfs)) :
    exec (.vfEnableChange false n) s = .next ((allDomains.drop 1).foldl shutFn (vfWritten s false n)) :=
  congrArg Host.Outcome.next ((if_neg h).trans (if_neg Bool.false_ne_true))

theorem vfWritten_pci (s : State) (on : Bool) (n : Nat) : (vfWritten s on n).pci.vfEnable = on ∧ (vfWritten s on n).pci.numVfs = n ∧
    (vfWritten s on n).pci.flr = if on && !s.pci.vfEnable then shutFns s else s.pci.flr := by
  by_cases h : on = s.pci.vfEnable
  · simp only [vfWritten, if_pos h]
    exact ⟨rfl, rfl, rfl⟩
  · simp only [vfWritten, if_neg h, raiseDev_pci_vfEnable, raiseDev_pci_numVfs, raiseDev_pci_flr]
    exact ⟨rfl, rfl, rfl⟩

theorem vfWritten_frame (s : State) (on : Bool) (n : Nat) : Frame (withEvents [.pci]) s (vfWritten s on n) := by
  have hf := fun f => fr_updPci (fr_refl (withEvents [.pci]) s) f (.inl (by decide)) (.inl (by decide))
  unfold vfWritten
  dsimp only
  split
  · exact hf _
  · exact fr_raiseDev (hf _) pPci 4 (by decide)

theorem mem_shutFns {k : Nat} : k ∈ shutFns s ↔
    k < 64 ∧ k ≠ 0 ∧ ((s.dom k).teardownAt.isSome = true ∨ (s.dom k).phase = .scrubbing) := by
  simp [shutFns, allDomains, List.mem_filter]

end Functions

/-- Settles O27: each way to end a domain by its teardown, and the scrub by what it clears. -/
theorem domainsEnd : Obligations.DomainsEnd := by
  unfold Obligations.DomainsEnd
  intro s v posted d nowNs frames units
  dsimp only
  refine ⟨fun hready hpf h0 ha => ?destroy, fun h0 hen hn => ?flr, fun n => ?disable, fun n => ?enable, fun hp he => ?scrub, fun hk => ?keys⟩
  case destroy =>
    have hs := standing_of_alive ha
    refine ⟨_, exec_lks_of (cmd := .destroy v posted d 0) rfl hready (fun _ => hpf)
      ((if_neg (fun h => h0 (Fin.ext h))).trans (if_neg (by rw [ha]; exact Bool.false_ne_true))),
      lksLeaves_posted ((StaysIn.tearDown s d).trans (.updDom ..)) ?_ .., ?_⟩
    · rw [tearDown_of_standing hs]; rfl
    · rw [postLks_dom, tearDown_of_standing hs, dom_updDom_self, dom_updDom_self]
      rfl
  case flr =>
    have h0' : d.val ≠ 0 := fun h => h0 (Fin.ext h)
    have hf := flrTold_frame s d
    have hd : StaysIn d.val s (flrTold s d) := .of_frame d.val hf (by decide)
    have hdom := hf.kept .domLife (by decide) d
    by_cases hp : (s.dom d).phase = .free
    · refine ⟨_, (exec_vfFlr h0' hen hn).trans (congrArg Host.Outcome.next (if_pos hp)), hd.only, quiet_flrTold s d, flrTold_event s d,
        fun _ => ⟨raiseDev_pci_flr .., hdom.2.2.2.2.2.1⟩, fun h => absurd hp h, fun h => absurd hp h⟩
    · have hflr := fr_updPci hf (fun p => { p with flr := numAdd p.flr d.val }) (.inl (by decide)) (.inl (by decide))
      refine ⟨_, (exec_vfFlr h0' hen hn).trans (congrArg Host.Outcome.next (if_neg hp)), ?_, ?_, ?_, fun h => absurd h hp, fun _ => ?_, fun h1 h2 => ?_⟩
      · exact (StaysIn.trans (.of_frame d.val hflr (by decide)) (.tearDown _ d.val)).only
      · exact quiet_congr (by rw [tearDown_pci]; rfl) (quiet_flrTold s d)
      · have hrest := fr_tearDown (fr_updPci (fr_refl [.pci, .pciPending, .domLife] (flrTold s d))
          (fun p => { p with flr := numAdd p.flr d.val }) (.inl (by decide)) (.inl (by decide))) d.val (by decide)
        exact eventIn_of_stays (eventsStay_views (hrest.kept .views (by decide))) (flrTold_event s d)
      · rw [tearDown_pci]
        exact (mem_numAdd _ _ _).2 (.inl rfl)
      · exact teardownAt_tearDown hflr (by decide) (by decide) ⟨h1, h2⟩
  case disable =>
    by_cases hsame : false = s.pci.vfEnable ∧ n = s.pci.numVfs
    · refine ⟨s, exec_vfEnable_same hsame, hsame.1.symm, fun h => ?_⟩
      rcases h with h | h
      · exact absurd (hsame.1.trans h) Bool.false_ne_true
      · exact absurd hsame.2.symm h
    · obtain ⟨hen, hnum, -⟩ := vfWritten_pci s false n
      obtain ⟨hen', hnum'⟩ := shutAll_pci (vfWritten s false n)
      have hf := vfWritten_frame s false n
      have hlife := hf.kept .domLife (by decide)
      have htenant : d ≠ 0 → d.val ∈ allDomains.drop 1 := fun h0 => tenants_mem d.isLt fun h => h0 (Fin.ext h)
      refine ⟨_, exec_vfEnable_off hsame, hen'.trans hen, fun _ => ⟨hnum'.trans hnum, fun h0 => quiet_shutAll _ (htenant h0), fun h0 h1 h2 => ?_, ?_⟩⟩
      · refine (shutAll_teardown _ (htenant h0) ?_).trans (congrArg some (teardownDue_congr (hlife d).2.2.2.2.2.1 (hlife d).1 (hf.kept .tik (by decide))))
        rw [Standing, (hlife d).1]
        exact ⟨h1, h2⟩
      · exact (congrArg Dom.teardownAt (shutAll_dom0 _)).trans (hlife 0).2.2.2.2.2.1
  case enable =>
    by_cases hsame : true = s.pci.vfEnable ∧ n = s.pci.numVfs
    · exact ⟨s, exec_vfEnable_same hsame, hsame.1.symm, hsame.2.symm, fun h => absurd (h.symm.trans hsame.1.symm) Bool.false_ne_true⟩
    · obtain ⟨hen, hnum, hflr⟩ := vfWritten_pci s true n
      refine ⟨_, exec_vfEnable_on hsame, hen, hnum, fun h k => ?_⟩
      rw [hflr, h]
      exact mem_shutFns
  case scrub =>
    obtain ⟨t, ht, hf, hrun, hfree, hev⟩ := scrubEnd_leaves hp he nowNs frames units
    have hdom := dom_scrubbed s d.val nowNs
    have hlife := hf.kept .domLife (by decide) d
    have hsave := hf.kept .domPreempt (by decide) d
    rw [hdom] at hlife hsave
    obtain ⟨-, -, -, -, -, -, hacc, hbuf, hcom⟩ := hsave
    refine ⟨t, ht, hlife.2.2.2.2.2.2.2.2.1, hlife.1.trans ((phase_clearUnits _ s d).trans hp), fun a ha => ?_,
      (hf.kept .domPoison (by decide) d).trans (congrArg Dom.poison hdom), hacc, hbuf, hcom, fun a => ?_, fun k => ?_, fun a => ?_, hrun, hfree, hev⟩
    · rw [hf.kept .domMem (by decide) d a (mt inRing_scrubbed.1 ha), hdom]
      rfl
    · rw [hf.kept .commons (by decide), commons_scrubbed]
    · rw [hf.kept .acc (by decide), acc_scrubbed]
      exact acc_clearUnits _ s k
    · rw [hf.kept .opbuf (by decide), opbuf_scrubbed]
      exact opbuf_clearUnits _ s a
  case keys =>
    exact ⟨_, congrArg Host.Outcome.next (if_pos hk), (StaysIn.updDom ..).only, congrArg Dom.keys (dom_updDom_self ..)⟩

end Sys2Proof.Proofs

/-! Requests of the manager that wait for the plan latch (R426, R427): each is posted ACCEPTED and joins the requests of its domain. -/

namespace Sys2Proof.Proofs

open Sys2Proof.Machine Sys2Proof.Safety Sys2Proof.Laws

section Requests

variable {s : State} {v : View} {posted : Bool}

/-- The request waits behind the earlier ones of domain n, and is answered ACCEPTED. -/
def Waits (s t : State) (v : View) (op n : Nat) (q : DomRequest) : Prop :=
  (LksLeaves s t v 0x01 op n ∧ t.dom n = { s.dom n with requests := (s.dom n).requests ++ [(q, s.viewCopy v pLks)] }) ∧
    t.freeFrames = s.freeFrames

/-- A request of the PF whose rows pass. -/
theorem waits_of {cmd : Instr} {op n : Nat} {q : DomRequest} {f : Nat → State → State × Nat}
    (hc : exec cmd s = .next (s.lksCmd v posted op 0 true f)) (h : LksReady s v posted) (hp : isPf v = true)
    (hf : f (s.viewCopy v pLks) s = (s.addRequest n (s.viewCopy v pLks) q, 0x01)) : ∃ t, exec cmd s = .next t ∧ Waits s t v op n q := by
  refine ⟨_, exec_lks_of hc h (fun _ => hp) hf, ⟨lksLeaves_posted (.updDom n s _) rfl 0x01 op, ?_⟩, postResult_freeFrames ..⟩
  rw [postLks_dom, State.addRequest, dom_updDom_self]

/-- Choosing frames moves the free choice alone (log 10). -/
theorem pickRuns_eq (s : State) (n : Nat) (free : List (Nat × Nat)) :
    s.pickRuns n free = ((s.pickRuns n free).1, { s with freeCtr := s.freeCtr + 1 }) := rfl

/-- Domain n once a RESIZE to record r waits: the frames that it adds are its own, and spare (R427; log 10). -/
def resizedDom (s : State) (n c : Nat) (r : DomRecord) : Dom :=
  let fr := (s.pickRuns (r.frames n - (s.dom n).dueRecord.frames n) s.freeRuns).1
  { s.dom n with requests := (s.dom n).requests ++ [(.resize r, c)],
                 tir := { (s.dom n).tir with frames := fr.foldl runsPut (s.dom n).tir.frames, spare := fr.foldl runsPut (s.dom n).tir.spare } }

/-- The rows of R426 for RESIZE. -/
structure ResizeFits (s : State) (w : List Nat) (n : Nat) : Prop where
  named : bitsOf (w.getD 0 0) 0 6 = n
  plain : recordPlain w = true
  fields : (recordOf w).fieldsOk n = true
  shape : (recordOf w).sameShape (s.dom n).dueRecord = true
  shrinks : s.shrinkOk n (recordOf w) = true
  active : (s.dom n).phase = .active
  resources : s.resourcesFree n (recordOf w) = true
  frames : (recordOf w).frames n ≤ s.freeFrames + (s.dom n).dueRecord.frames n

/-- The state in which an accepted RESIZE waits. -/
def resized (s : State) (n c : Nat) (r : DomRecord) : State :=
  let k := r.frames n - (s.dom n).dueRecord.frames n
  { s.putDom n (resizedDom s n c r) with freeCtr := s.freeCtr + 1, freeFrames := s.freeFrames - k }

theorem resizeReq_of_fits {w : List Nat} {n : Nat} (h : ResizeFits s w n) (c : Nat) : s.resizeReq c w = (resized s n c (recordOf w), 0x01) := by
  obtain ⟨hn, hplain, hfields, hshape, hshrink, hactive, hres, hfr⟩ := h
  have hbad : (!recordPlain w || !(recordOf w).fieldsOk n || !(recordOf w).sameShape (s.dom n).dueRecord || !s.shrinkOk n (recordOf w)) = false := by
    rw [hplain, hfields, hshape, hshrink]
    rfl
  have hphase : ((s.dom n).phase != .active) = false := by rw [hactive]; rfl
  have hroom : ¬ s.freeFrames + (s.dom n).dueRecord.frames n < (recordOf w).frames n := Nat.not_lt.2 hfr
  unfold State.resizeReq resized resizedDom
  generalize recordOf w = r at *
  simp only [hn, hbad, hphase, hres, hroom, Bool.not_true, Bool.false_eq_true, if_false]
  generalize r.frames n - (s.dom n).dueRecord.frames n = k
  generalize s.freeRuns = free
  have hpick := pickRuns_eq s k free
  generalize (s.pickRuns k free).1 = fr at hpick ⊢
  generalize s.pickRuns k free = p at hpick ⊢
  subst hpick
  rfl

theorem resized_leaves (s : State) (n c : Nat) (r : DomRecord) : StaysIn n s (resized s n c r) ∧ (resized s n c r).pairs = s.pairs ∧
    (resized s n c r).dom n = resizedDom s n c r ∧ (resized s n c r).freeFrames = s.freeFrames - (r.frames n - (s.dom n).dueRecord.frames n) := by
  have hdom : ∀ e, (resized s n c r).dom e = (s.putDom n (resizedDom s n c r)).dom e := fun _ => by simp only [resized, State.dom]
  refine ⟨⟨⟨rfl, rfl, rfl⟩, fun e he => ?_⟩, rfl, (hdom n).trans (dom_putDom_self ..), by simp only [resized]⟩
  rw [hdom e]
  exact onlyDom_putDom s n (resizedDom s n c r) e he

end Requests

/-- Settles O28: each request by the rows that it passes. -/
theorem domainRequestsWaitForLatch : Obligations.DomainRequestsWaitForLatch := by
  unfold Obligations.DomainRequestsWaitForLatch
  intro s v posted d hready hpf
  have waits := fun {cmd op n q f} hc hf => (waits_of (cmd := cmd) (op := op) (n := n) (q := q) (f := f) hc hready hpf hf)
  dsimp only
  refine ⟨fun hplain hfields hshape hshrink hphase hres hfr => ?resize, fun hsrc htgt hloan hnone h0 hown => ?lend, fun f k hloan => ?reclaim,
    fun h0 hd ha hpages => ?map, fun hshared => ?unmap⟩
  case resize =>
    have hrows := resizeReq_of_fits (w := s.lksArgs (s.viewCopy v pLks)) ⟨rfl, hplain, hfields, hshape, hshrink, hphase, hres, hfr⟩
      (s.viewCopy v pLks)
    obtain ⟨hs, hp, hdom, hfree⟩ := resized_leaves s _ (s.viewCopy v pLks) (recordOf (s.lksArgs (s.viewCopy v pLks)))
    exact ⟨_, exec_lks_of (cmd := .resize v posted d 0) rfl hready (fun _ => hpf) hrows, lksLeaves_posted hs hp .., (postLks_dom ..).trans hdom,
      (postResult_freeFrames ..).trans hfree⟩
  case lend =>
    refine waits (cmd := .lend v posted d 0) rfl ((if_neg ?_).trans (if_neg ?_))
    · simp [hsrc, htgt, hloan, hnone]
    · simp only [h0, false_or, Bool.not_eq_true', Bool.not_eq_false, List.all_eq_true, List.mem_range'_1, Bool.and_eq_true, decide_eq_true_eq,
        List.contains_iff_mem]
      exact fun u ⟨hlo, hhi⟩ => ⟨⟨(hown u hlo hhi).1, (hown u hlo hhi).2.1⟩, (hown u hlo hhi).2.2⟩
  case reclaim =>
    refine waits (cmd := .reclaim v posted d 0) rfl ?_
    simp only [hloan, if_true]
  case map =>
    refine waits (cmd := .mapShared v posted d 0) rfl (if_neg ?_)
    have hd' : d.val ≠ 0 := fun h => hd (Fin.ext h)
    simp only [h0, hd', ha, Bool.not_true, Bool.false_eq_true, false_or, Bool.not_eq_true', Bool.not_eq_false, List.all_eq_true, List.mem_range,
      Bool.and_eq_true, and_assoc]
    exact hpages
  case unmap =>
    refine waits (cmd := .unmapShared v posted d 0) rfl (if_neg ?_)
    simp only [Bool.not_eq_true', Bool.not_eq_false, List.all_eq_true, List.mem_range]
    exact hshared

end Sys2Proof.Proofs

/-! Requests of Locksmith that finish at once, and those that fail their proof (R433 to R440; logs 7, 109): what each leaves once posted. From them the statement on identity and fuses. -/

namespace Sys2Proof.Proofs

open Sys2Proof.Machine Sys2Proof.Safety Sys2Proof.Laws

section Verdicts

variable {s u : State} {c : Nat}

/-- Accepted and finished in one step: the verdict in the result, the final status in LKS_DONE, and no other pair. -/
def DoneAtOnce (s t : State) (c op e : Nat) : Prop :=
  Answered t c pLks (lksWord 0x01 op) ∧ OnlyPair s t c pLks ∧ LksFinished t c 0x00 op e

/-- AUTH_FAIL: the verdict, the event in the caller's view, no other pair and no fuse. -/
def RefusedProof (s t : State) (c op : Nat) : Prop :=
  Answered t c pLks (lksWord 0x13 op) ∧ OnlyPair s t c pLks ∧ EventIn t [c] pLks 3 ∧ t.fuses = s.fuses

theorem onlyPair_of_pairs (h : u.pairs = s.pairs) (c p : Nat) : OnlyPair s u c p := fun e g _ => by
  unfold State.pair
  rw [h]

theorem onlyPair_trans {t : State} {p : Nat} (h : OnlyPair s u c p) (k : OnlyPair u t c p) : OnlyPair s t c p := fun e g hne =>
  (k e g hne).trans (h e g hne)

theorem onlyPair_lksFinal (s : State) (c op st d : Nat) : OnlyPair s (s.lksFinal c op st d) c pLks := fun e g hne => by
  have hpairs : (s.lksFinal c op st d).pairs = (s.putPair c pLks { s.pair c pLks with done := w64 (lksWord st op + 2 ^ 63) }).pairs := by
    unfold State.lksFinal
    dsimp only
    split
    · rw [(msix_frame _ 0 (32 + d)).kept .pairs (by decide), raiseCopy_pairs]
    · rw [raiseCopy_pairs]
  have hp := pair_putPair s c pLks e g { s.pair c pLks with done := w64 (lksWord st op + 2 ^ 63) }
  rw [if_neg hne] at hp
  unfold State.pair at hp ⊢
  rw [hpairs]
  exact hp

theorem finished_posted {st op e : Nat} (h : LksFinished u c st op e) (r : Nat) : LksFinished (u.postResult c pLks r) c st op e := by
  obtain ⟨hdone, hev, hmsg⟩ := h
  exact ⟨(pair_postResult_done u c pLks r).trans hdone, eventIn_of_stays (eventsStay_postResult u c pLks r) hev,
    fun hc => messaged_congr (postLks_pci ..) (postLks_out ..) (hmsg hc)⟩

/-- Work that moves no pair, finished and posted at once (log 109). -/
theorem doneAtOnce_posted (h : u.pairs = s.pairs) (op e : Nat) :
    DoneAtOnce s ((u.lksFinal c op 0x00 e).postResult c pLks (lksWord 0x01 op)) c op e :=
  ⟨answered_postResult .., onlyPair_trans (onlyPair_of_pairs h c pLks) (onlyPair_trans (onlyPair_lksFinal u c op 0x00 e) (onlyPair_postResult _ _ _ _)),
    finished_posted (lksFinal_finished u c op 0x00 e) _⟩

theorem fuses_posted (u : State) (c op e r : Nat) : ((u.lksFinal c op 0x00 e).postResult c pLks r).fuses = u.fuses :=
  (postResult_fuses ..).trans ((lksFinal_frame u c op 0x00 e).kept .fuses (by decide))

theorem commons_posted (u : State) (c op e r : Nat) : ((u.lksFinal c op 0x00 e).postResult c pLks r).commons = u.commons :=
  (postResult_commons ..).trans ((lksFinal_frame u c op 0x00 e).kept .commons (by decide))

theorem refusedProof_posted (s : State) (c op : Nat) : RefusedProof s ((s.authFail c).postResult c pLks (lksWord 0x13 op)) c op := by
  have hf : Frame (withEvents []) s (s.authFail c) := fr_authFail (fr_refl _ s) c (by decide)
  exact ⟨answered_postResult .., onlyPair_trans (onlyPair_of_pairs (hf.kept .pairs (by decide)) c pLks) (onlyPair_postResult _ _ _ _),
    eventIn_of_stays (eventsStay_postResult _ _ _ _) (authFail_event s c), (postResult_fuses ..).trans (hf.kept .fuses (by decide))⟩

end Verdicts

/-- Settles O30: each request by the rows that it passes, then by what its verdict leaves. -/
theorem identityAndFuses : Obligations.IdentityAndFuses := by
  unfold Obligations.IdentityAndFuses
  intro s v posted d hready
  dsimp only
  refine ⟨fun ha ho hfit => ?attest, fun b hb => ?identity, fun hpf hun b0 b1 h0 h1 => ?certs,
    fun b hpf hb => ⟨fun ht => ?request, fun ht x hx => ?token⟩, fun hpf => ?svn⟩
  case attest =>
    have hw : (s.window (viewFn v) (bitsOf (s.arg (s.viewCopy v pLks) pLks 0) 0 26) 40960).isNone = false := by
      rw [State.window, if_pos hfit]
      rfl
    refine ⟨_, exec_lks_of (cmd := .attest v posted d 0) rfl hready (fun h => nomatch h)
      ((if_neg (by rw [ha]; exact Bool.false_ne_true)).trans (if_neg ?_)), lksLeaves_posted ⟨⟨rfl, rfl, rfl⟩, onlyDom_refl s _⟩ rfl .., postResult_lks ..⟩
    simp [ho, hw]
  case identity =>
    refine ⟨_, exec_lks_of (cmd := .identity v posted d 0) (t := (s.wrCommons b s.identityChain).lksFinal (s.viewCopy v pLks) 0x0B 0x00 (lksDomain v d)) (st := 0x01)
      rfl hready (fun h => nomatch h) (by simp only [hb]), doneAtOnce_posted rfl 0x0B _, fun x => ?_⟩
    rw [commons_posted, wrCommons_read]
  case certs =>
    have hun' : (!s.uncertified) = false := by rw [hun]; rfl
    cases hgood : Config.verdict (16 * s.fuses.life.code + 1) (s.rdCommons b0 (bitsOf (s.arg (s.viewCopy v pLks) pLks 2) 0 16)).1 &&
        Config.verdict (16 * s.fuses.life.code + 2) (s.rdCommons b1 (bitsOf (s.arg (s.viewCopy v pLks) pLks 2) 16 16)).1 with
    | true =>
      refine ⟨_, exec_lks_of (cmd := .certInstall v posted d 0) (t := State.lksFinal (s.updFuses _) _ _ _ _) (st := 0x01) rfl hready (fun _ => hpf)
        (by simp only [hun', h0, h1, hgood, Bool.false_eq_true, if_false, if_true]; rfl), fun _ => ⟨doneAtOnce_posted rfl 0x10 _, fuses_posted ..⟩, fun h => ?_⟩
      exact absurd h.symm Bool.false_ne_true
    | false =>
      refine ⟨_, exec_lks_of (cmd := .certInstall v posted d 0) (t := s.authFail (s.viewCopy v pLks)) (st := 0x13) rfl hready (fun _ => hpf)
        (by simp only [hun', h0, h1, hgood, Bool.false_eq_true, if_false]), fun h => ?_, fun _ => refusedProof_posted s _ 0x10⟩
      exact absurd h Bool.false_ne_true
  case request =>
    refine ⟨_, exec_lks_of (cmd := .lifecycle v posted d 0) (t := State.lksFinal (s.updFuses _) _ _ _ _) (st := 0x01) rfl hready (fun _ => hpf)
      (by simp only [hb, ht, Option.bind_some, Option.map_some]; rfl), doneAtOnce_posted rfl 0x0E _, fuses_posted ..⟩
  case token =>
    cases hok : s.tokenOk b.code (s.rdCommons x 16672).1 with
    | true =>
      refine ⟨_, exec_lks_of (cmd := .lifecycle v posted d 0) (t := State.lksFinal (s.updFuses _) _ _ _ _) (st := 0x01) rfl hready (fun _ => hpf)
        (by simp only [hb, ht, hx, hok, Option.bind_some, Option.map_some, if_true]; rfl), fun _ => ⟨doneAtOnce_posted rfl 0x0E _, fuses_posted ..⟩, fun h => ?_⟩
      exact absurd h.symm Bool.false_ne_true
    | false =>
      refine ⟨_, exec_lks_of (cmd := .lifecycle v posted d 0) (t := s.authFail (s.viewCopy v pLks)) (st := 0x13) rfl hready (fun _ => hpf)
        (by simp only [hb, ht, hx, hok, Option.bind_some, Option.map_some, Bool.false_eq_true, if_false]), fun h => ?_, fun _ => refusedProof_posted s _ 0x0E⟩
      exact absurd h Bool.false_ne_true
  case svn =>
    by_cases h : s.boot.fwSvn ≤ s.fuses.minSvn ∨ 64 ≤ s.fuses.svnRaises
    · refine ⟨_, exec_lks_of (cmd := .svnCommit v posted d 0) (t := s) (st := 0x0A) rfl hready (fun _ => hpf) (if_pos h), fun h1 h2 => ?_,
        fun _ => ⟨lksLeaves_refused .., postResult_fuses ..⟩⟩
      omega
    · exact ⟨_, exec_lks_of (cmd := .svnCommit v posted d 0) rfl hready (fun _ => hpf) (if_neg h),
        fun _ _ => ⟨doneAtOnce_posted rfl 0x0F _, fuses_posted ..⟩, fun h' => absurd h' h⟩

end Sys2Proof.Proofs

/-! The submission queue (R405, R410 to R412): what each word of a write leaves by what the queue holds, what the last word of a descriptor makes of it, and what a poisoned write and a reset leave. From them the statement on the submission queue. -/

namespace Sys2Proof.Proofs

open Sys2Proof.Machine Sys2Proof.Safety Sys2Proof.Laws

/-! ## Which functions answer (R403, R425) -/

/-- What decides which functions answer: VF Enable, NumVFs, the resets under way and D3hot. -/
def fnsOf (s : State) : Bool × Nat × List Nat × Bool := (s.pci.vfEnable, s.pci.numVfs, s.pci.flr, s.pci.d3hot)

theorem fnsOf_of_frame {L : List Part} {s t : State} (h : Frame L s t) (hL : Part.pci ∉ L) : fnsOf t = fnsOf s := by
  have hp : { t.pci with pendingBits := [] } = { s.pci with pendingBits := [] } := h.kept .pci hL
  exact (congrArg (fun p : PciState => (p.vfEnable, p.numVfs, p.flr, p.d3hot)) hp :)

theorem vfUp_of_fns {s t : State} (h : fnsOf t = fnsOf s) (fn : Nat) : t.vfUp fn = s.vfUp fn := by
  simp only [fnsOf, Prod.mk.injEq] at h
  obtain ⟨he, hn, hf, -⟩ := h
  simp only [State.vfUp, he, hn, hf]

theorem fnOpen_of_fns {L : List Part} {s t : State} (h : Frame L s t) (hB : Part.boot ∉ L) (hD : Part.domLife ∉ L) (hf : fnsOf t = fnsOf s) (fn : Nat) :
    t.fnOpen fn = s.fnOpen fn := by
  have hd : t.pci.d3hot = s.pci.d3hot := congrArg (fun p => p.2.2.2) hf
  simp only [State.fnOpen, Dom.alive, vfUp_of_fns hf, hd, (h.kept .domLife hD fn).1, show t.boot = s.boot from h.kept .boot hB]

theorem fnsOf_returnCredit (s : State) (d n : Nat) : fnsOf (s.returnCredit d n) = fnsOf s := by
  unfold State.returnCredit
  dsimp only
  split
  · exact (fnsOf_of_frame (msix_frame _ d 1) (by decide)).trans rfl
  · rfl

theorem fnsOf_creditSlab (s : State) (d : Nat) (b : Slab) : fnsOf (s.creditSlab d b) = fnsOf s := by
  unfold State.creditSlab
  split
  · rfl
  · exact (fnsOf_returnCredit ..).trans rfl

theorem fnsOf_arrive (s : State) (d : Nat) (ws : List W64) : fnsOf (s.arrive d ws) = fnsOf s := by
  unfold State.arrive
  dsimp only
  split
  · rfl
  · refine (fnsOf_of_frame (fr_endBatch (fr_refl [.domSlabs] _) d ws (fun _ h => h)) (by decide)).trans ((fnsOf_creditSlab ..).trans ?_)
    exact (fnsOf_of_frame (fr_noteUnloaded (fr_refl [.domSlabs] _) d _ ws (fun _ h => h)) (by decide)).trans rfl

/-! ## One word (R410, R412) -/

section Words

variable {s : State} {d : Nat}

theorem submitWord_of_halted (h : (s.dom d).queue.halted = true) (w : TlpWord) : s.submitWord d w = s.bump d pDom 2 1 := if_pos h

theorem submitWord_incomplete (h : (s.dom d).queue.halted = false) : s.submitWord d .incomplete = (s.haltQueue d).raiseDom pDom 1 d :=
  if_neg (ne_true_of_eq_false h)

theorem submitWord_atLimit (h : (s.dom d).queue.halted = false) (hl : (s.dom d).queue.written = (s.dom d).queue.limit) (v : W64) :
    s.submitWord d (.whole v) = (s.haltQueue d).raiseDom pDom 0 d :=
  (if_neg (ne_true_of_eq_false h)).trans (if_pos hl)

/-- A word counted, with what the queue then holds of the descriptor. -/
def wordTaken (s : State) (d : Nat) (rest : List W64) : State :=
  (s.bump d pDom 0 1).updDom d (fun y => y.updQueue (fun z => { z with written := z.written + 1, partial_ := rest }))

theorem submitWord_taken (h : (s.dom d).queue.halted = false) (hl : (s.dom d).queue.written ≠ (s.dom d).queue.limit) {v : W64} {part : List W64}
    (hp : (s.dom d).queue.partial_ ++ [v] = part) :
    s.submitWord d (.whole v) =
      if part.length = descriptorWords (part.headD 0) then (wordTaken s d []).arrive d part else wordTaken s d part := by
  subst hp
  refine ((if_neg (ne_true_of_eq_false h)).trans (if_neg hl)).trans ?_
  dsimp only
  split <;> rfl

theorem fnsOf_submitWord (s : State) (d : Nat) (w : TlpWord) : fnsOf (s.submitWord d w) = fnsOf s := by
  have hraise : ∀ b, fnsOf ((s.haltQueue d).raiseDom pDom b d) = fnsOf s := fun b =>
    (fnsOf_of_frame (raiseDom_frame _ pDom b d) (by decide)).trans rfl
  cases hh : (s.dom d).queue.halted with
  | true => rw [submitWord_of_halted hh]; rfl
  | false =>
    cases w with
    | incomplete => rw [submitWord_incomplete hh, hraise]
    | whole v =>
      by_cases hl : (s.dom d).queue.written = (s.dom d).queue.limit
      · rw [submitWord_atLimit hh hl, hraise]
      · rw [submitWord_taken hh hl rfl]
        split
        · exact (fnsOf_arrive ..).trans rfl
        · rfl

theorem fnOpen_submitWord (s : State) (d : Nat) (w : TlpWord) (fn : Nat) : (s.submitWord d w).fnOpen fn = s.fnOpen fn :=
  fnOpen_of_fns (fr_submitWord (fr_refl (withEvents [.pci, .domQueue, .domSlabs]) s) d w (by decide)) (by decide) (by decide) (fnsOf_submitWord s d w) fn

/-- While the queue is halted every word is lost and counted. -/
theorem submitWords_of_halted (h : (s.dom d).queue.halted = true) (words : List TlpWord) :
    (words.foldl (fun t w => t.submitWord d w) s).counter d pDom 2 = s.counter d pDom 2 + w64 words.length ∧
      (words.foldl (fun t w => t.submitWord d w) s).doms = s.doms ∧ Frame [.counters] s (words.foldl (fun t w => t.submitWord d w) s) := by
  induction words generalizing s with
  | nil => exact ⟨(BitVec.add_zero _).symm, rfl, fr_refl _ s⟩
  | cons w r ih =>
    rw [List.foldl_cons, submitWord_of_halted h]
    obtain ⟨hc, hd, hf⟩ := ih (s := s.bump d pDom 2 1) h
    refine ⟨?_, hd, fr_trans (fr_bump (fr_refl _ s) d pDom 2 1 (fun _ h => h)) hf⟩
    rw [hc, counter_bump_self, List.length_cons, BitVec.add_assoc]
    congr 1
    simp only [w64]
    rw [← BitVec.ofNat_add, Nat.add_comm]

/-- What the halting of the queue leaves: the event, and the slabs as they are (R412). -/
theorem halted_leaves (s : State) (d : Nat) {b : Nat} (hb : b < 32) (hl : s.live d = true) :
    OnlyDom s ((s.haltQueue d).raiseDom pDom b d) d ∧
      (((s.haltQueue d).raiseDom pDom b d).dom d).queue = { (s.dom d).queue with halted := true } ∧
      (((s.haltQueue d).raiseDom pDom b d).dom d).slabs = (s.dom d).slabs ∧
      EventIn ((s.haltQueue d).raiseDom pDom b d) (domCopies pDom b d) pDom b := by
  have hf := raiseDom_frame (s.haltQueue d) pDom b d
  have hdom : (s.haltQueue d).dom d = { s.dom d with queue := { (s.dom d).queue with halted := true } } := dom_updDom_self ..
  have hlive : (s.haltQueue d).live d = true := by
    rw [State.live, hdom]
    exact hl
  exact ⟨(StaysIn.trans (.updDom d s _) (.raiseDom d _ pDom b d)).only, (hf.kept .domQueue (by decide) d).trans (congrArg Dom.queue hdom),
    (hf.kept .domSlabs (by decide) d).2.1.trans (congrArg Dom.slabs hdom :), fun c hc => raiseDom_event _ pDom b d hb hlive c hc⟩

theorem live_of_fnOpen (h : s.fnOpen d = true) : s.live d = true := by
  by_cases h0 : d = 0
  · simp [State.live, h0]
  · simp only [State.fnOpen, if_neg h0, Bool.and_eq_true] at h
    obtain ⟨hfree, hscrub⟩ := standing_of_alive h.2.2
    simp [State.live, hfree, hscrub]

end Words

/-! ## The last word of a descriptor (R17, R23, R411) -/

section Arrives

variable {s : State} {d : Nat} {ws : List W64}

/-- A slab whose checks hold is queued. -/
theorem arrive_of_good (h : s.slabArrives d ws = true) : s.arrive d ws = s.updDom d (fun y =>
    { y with nextOrder := y.nextOrder + 1,
             slabs := y.slabs ++ [{ order := (s.dom d).nextOrder, words := ws, tick := s.tik.tick, dep := (s.dom d).depOf (hdrOf ws).after }] }) := by
  unfold State.arrive
  simp only [h, if_true]

/-- One whose checks do not hold has ended at once. -/
def rejectedSlab (s : State) (d : Nat) (ws : List W64) : Slab :=
  { order := (s.dom d).nextOrder, words := ws, tick := s.tik.tick, state := .ended, status := .descInvalid, dep := .met }

/-- The domain with that slab, before its credits return. -/
def rejected (s : State) (d : Nat) (ws : List W64) : State :=
  s.updDom d (fun y => { y with nextOrder := y.nextOrder + 1, slabs := y.slabs ++ [rejectedSlab s d ws] })

theorem arrive_of_bad (h : s.slabArrives d ws = false) : s.arrive d ws =
    (((rejected s d ws).noteUnloaded d (s.dom d).nextOrder ws).creditSlab d (rejectedSlab s d ws)).endBatch d ws := by
  unfold State.arrive
  simp only [h, Bool.false_eq_true, if_false]
  rfl

theorem dom_returnCredit (s : State) (d n : Nat) :
    (s.returnCredit d n).dom d = { s.dom d with queue := { (s.dom d).queue with limit := (s.dom d).queue.limit + n } } := by
  unfold State.returnCredit
  dsimp only
  split
  · rw [dom_msix, updPci_dom, dom_updDom_self]
    rfl
  · exact dom_updDom_self ..

theorem queue_creditSlab {b : Slab} (h : b.creditReturned = false) (s : State) :
    ((s.creditSlab d b).dom d).queue = { (s.dom d).queue with limit := (s.dom d).queue.limit + b.words.length } := by
  rw [State.creditSlab, h, if_neg Bool.false_ne_true, dom_returnCredit, State.updSlab, dom_updDom_self]
  rfl

/-- Its credits come back, and its slab stands as ended (R23, R411). -/
theorem arrive_bad_leaves (h : s.slabArrives d ws = false) :
    ((s.arrive d ws).dom d).queue = { (s.dom d).queue with limit := (s.dom d).queue.limit + ws.length } ∧
      ∃ b ∈ ((s.arrive d ws).dom d).slabs, b.order = (s.dom d).nextOrder ∧ b.words = ws ∧ b.state = .ended ∧ b.status = .descInvalid ∧
        b.creditReturned = true := by
  have hnote := fr_noteUnloaded (fr_refl [.domSlabs] (rejected s d ws)) d (s.dom d).nextOrder ws (fun _ h => h)
  have hend := fun t : State => fr_endBatch (fr_refl [.domSlabs] t) d ws (fun _ h => h)
  rw [arrive_of_bad h]
  constructor
  · rw [(hend _).kept .domQueue (by decide) d, queue_creditSlab rfl, hnote.kept .domQueue (by decide) d, rejected, dom_updDom_self]
    rfl
  · rw [endBatch_slabs, creditSlab_slabs, noteUnloaded_slabs, rejected, dom_updDom_self]
    refine ⟨{ rejectedSlab s d ws with creditReturned := true }, List.mem_map.2 ⟨rejectedSlab s d ws, ?_, if_pos rfl⟩, rfl, rfl, rfl, rfl, rfl⟩
    exact List.mem_append_right _ (List.mem_singleton_self _)

theorem StaysIn.noteUnloaded (d : Nat) (s : State) (o : Nat) (ws : List W64) : StaysIn d s (s.noteUnloaded d o ws) := by
  unfold State.noteUnloaded
  dsimp only
  split
  · exact .updDom d s _
  · exact .refl d s

theorem StaysIn.arrive (d : Nat) (s : State) (ws : List W64) : StaysIn d s (s.arrive d ws) := by
  cases h : s.slabArrives d ws with
  | true =>
    rw [arrive_of_good h]
    exact .updDom d s _
  | false =>
    rw [arrive_of_bad h]
    exact (((StaysIn.updDom d s _).trans (.noteUnloaded d _ _ ws)).trans (.creditSlab _ d _)).trans (.endBatch _ d ws)

theorem wordTaken_leaves (s : State) (d : Nat) (rest : List W64) : StaysIn d s (wordTaken s d rest) ∧
    (wordTaken s d rest).counter d pDom 0 = s.counter d pDom 0 + 1 ∧
    (wordTaken s d rest).dom d = { s.dom d with queue := { (s.dom d).queue with written := (s.dom d).queue.written + 1, partial_ := rest } } :=
  ⟨(StaysIn.bump d s d pDom 0 1).trans (.updDom d _ _), counter_bump_self s d pDom 0 1, dom_updDom_self ..⟩

end Arrives

/-! ## A poisoned write, and the reset of the queue -/

section Poisoned

variable {s : State} {d : Nat}

/-- What a poisoned write leaves before its words are lost (R405). -/
theorem poisonedTlp_leaves (s : State) (d : Nat) : Frame (withEvents [.pci]) s (s.poisonedTlp d) ∧ .aerPoisoned d ∈ (s.poisonedTlp d).out ∧
    (s.poisonedTlp d).pci.errKind = 1 ∧ (s.poisonedTlp d).pci.errFn = d ∧ (s.poisonedTlp d).pci.errValid = true := by
  refine ⟨fr_poisonedTlp (fr_refl _ s) d (by decide), List.mem_cons_self, ?_⟩
  have hf := fr_emit (fr_trace (fr_foldl _ (fun t c h => fr_setEvent h c pPci 2 (by decide)) (if d = 0 then [64] else [d, 64 + d, 64])
    (fr_refl (withEvents []) ((s.bump d pPci 0 1).updPci (fun p => { p with errKind := 1, errFn := d, errValid := true }))))
    0x0D01 0x0D 0 d false (by decide)) (.aerPoisoned d) (by decide)
  have hp : { (s.poisonedTlp d).pci with pendingBits := [] } = { s.pci with errKind := 1, errFn := d, errValid := true, pendingBits := [] } :=
    hf.kept .pci (by decide)
  exact ⟨(congrArg PciState.errKind hp :), (congrArg PciState.errFn hp :), (congrArg PciState.errValid hp :)⟩

/-- An incomplete word leaves the queue halted, whatever it was, and nothing else of it. -/
theorem submitWord_incomplete_leaves (s : State) (d : Nat) : StaysIn d s (s.submitWord d .incomplete) ∧ OutGrows s (s.submitWord d .incomplete) ∧
    ((s.submitWord d .incomplete).dom d).queue = { (s.dom d).queue with halted := true } ∧
    ((s.submitWord d .incomplete).dom d).slabs = (s.dom d).slabs ∧
    { (s.submitWord d .incomplete).pci with pendingBits := [] } = { s.pci with pendingBits := [] } := by
  cases hh : (s.dom d).queue.halted with
  | true =>
    rw [submitWord_of_halted hh]
    refine ⟨.bump d s d pDom 2 1, outGrows_same rfl, ?_, rfl, rfl⟩
    rw [← hh]
    rfl
  | false =>
    have hf := raiseDom_frame (s.haltQueue d) pDom 1 d
    have hdom : (s.haltQueue d).dom d = { s.dom d with queue := { (s.dom d).queue with halted := true } } := dom_updDom_self ..
    rw [submitWord_incomplete hh]
    exact ⟨(StaysIn.updDom d s _).trans (.raiseDom d _ pDom 1 d), outGrows_raiseDom (s.haltQueue d) pDom 1 d,
      (hf.kept .domQueue (by decide) d).trans (congrArg Dom.queue hdom), (hf.kept .domSlabs (by decide) d).2.1.trans (congrArg Dom.slabs hdom :),
      hf.kept .pci (by decide)⟩

/-- A poisoned write loses its words and halts the queue (R405, R410). -/
theorem poisonedWords_leaves (s : State) (d : Nat) {words : List TlpWord} (hw : words ≠ []) :
    let t := (words.map (fun _ => TlpWord.incomplete)).foldl (fun t w => t.submitWord d w) (s.poisonedTlp d)
    OnlyDom s t d ∧ (t.dom d).queue = { (s.dom d).queue with halted := true } ∧ (t.dom d).slabs = (s.dom d).slabs ∧
      .aerPoisoned d ∈ t.out ∧ t.pci.errKind = 1 ∧ t.pci.errFn = d ∧ t.pci.errValid = true := by
  obtain ⟨w, r, rfl⟩ := List.exists_cons_of_ne_nil hw
  obtain ⟨hf, hout, hk, hfn, hv⟩ := poisonedTlp_leaves s d
  obtain ⟨hstay, hgrow, hqueue, hslabs, hpci⟩ := submitWord_incomplete_leaves (s.poisonedTlp d) d
  have hqueue' : (((s.poisonedTlp d).submitWord d .incomplete).dom d).queue = { (s.dom d).queue with halted := true } := by
    rw [hqueue, hf.kept .domQueue (by decide) d]
  obtain ⟨-, hdoms, hrest⟩ := submitWords_of_halted (s := (s.poisonedTlp d).submitWord d .incomplete) (d := d) (by rw [hqueue'])
    (r.map (fun _ => TlpWord.incomplete))
  have hdom : ∀ e, ((r.map (fun _ => TlpWord.incomplete)).foldl (fun t w => t.submitWord d w) ((s.poisonedTlp d).submitWord d .incomplete)).dom e =
      ((s.poisonedTlp d).submitWord d .incomplete).dom e := fun e => by
    unfold State.dom
    rw [hdoms]
  have hpci' := (hrest.kept .pci (by decide)).trans hpci
  simp only [List.map_cons, List.foldl_cons]
  refine ⟨(((StaysIn.of_frame d hf (by decide)).trans hstay).trans (.of_frame d hrest (by decide))).only, ?_, ?_, ?_, ?_, ?_, ?_⟩
  · rw [hdom, hqueue']
  · rw [hdom, hslabs, (hf.kept .domSlabs (by decide) d).2.1]
  · rw [hrest.kept .out (by decide)]
    exact outGrows_mem hgrow hout
  · exact (congrArg PciState.errKind hpci' :).trans hk
  · exact (congrArg PciState.errFn hpci' :).trans hfn
  · exact (congrArg PciState.errValid hpci' :).trans hv

/-- A message of a function that answers is sent, or pending. -/
theorem sent_msix {fn vec : Nat} (h : Reached s fn) : Sent (s.msix fn vec) fn vec := by
  unfold Sent
  cases hu : s.pci.unmasked.contains (2048 * fn + vec) with
  | true =>
    rw [msix_of_unmasked h hu, emit_pci, hu]
    exact List.mem_cons_self
  | false =>
    rw [msix_of_masked h hu]
    simp only [hu, Bool.false_eq_true, if_false]
    exact (mem_numAdd _ _ _).2 (.inl rfl)

/-- Credits that bring LIMIT 1,024 beyond its last message send vector 1 (R408, R411). -/
theorem returnCredit_told {n : Nat} (h : Reached s d) (hr : (mapGet s.pci.creditMsg d).getD 16384 + 1024 ≤ (s.dom d).queue.limit + n) :
    Sent (s.returnCredit d n) d 1 ∧ mapGet (s.returnCredit d n).pci.creditMsg d = some ((s.dom d).queue.limit + n) := by
  unfold State.returnCredit
  dsimp only
  rw [if_pos hr]
  generalize hu : (s.updDom d _).updPci _ = u
  have hmsg : mapGet u.pci.creditMsg d = some ((s.dom d).queue.limit + n) := by
    rw [← hu]
    exact mapGet_mapSet_self ..
  have hreach : Reached u d := by
    rw [← hu]
    exact h
  have hp : { (u.msix d 1).pci with pendingBits := [] } = { u.pci with pendingBits := [] } := (msix_frame u d 1).kept .pci (by decide)
  exact ⟨sent_msix hreach, (congrArg (fun p : PciState => mapGet p.creditMsg d) hp :).trans hmsg⟩

end Poisoned

/-- Settles O31: each word by what the queue holds, then the poisoned write and the reset. -/
theorem submissionQueue : Obligations.SubmissionQueue := by
  unfold Obligations.SubmissionQueue
  intro s fn hopen
  dsimp only
  have hexec : ∀ words, exec (.submitWord fn words false) s = .next (words.foldl (fun t w => t.submitWord fn.val w) s) := fun words =>
    congrArg Host.Outcome.next ((if_neg (by rw [hopen]; exact Bool.false_ne_true)).trans (if_neg Bool.false_ne_true))
  have hlive := live_of_fnOpen hopen
  refine ⟨fun w r t ht => ?one, fun hh words => ?lost, fun hh v hl => ?taken, fun hh v hl => ?atLimit, fun hh => ?incomplete,
    fun words hw => ?poisoned, ?reset⟩
  case one =>
    have hst : s.submitWord fn.val w = t := Host.Outcome.next.inj ((hexec [w]).symm.trans ht)
    have hopen' : t.fnOpen fn.val = true := by rw [← hst, fnOpen_submitWord, hopen]
    rw [hexec, List.foldl_cons, hst]
    exact (congrArg Host.Outcome.next ((if_neg (by rw [hopen']; exact Bool.false_ne_true)).trans (if_neg Bool.false_ne_true))).symm
  case lost =>
    obtain ⟨hc, hd, -⟩ := submitWords_of_halted hh words
    exact ⟨_, hexec words, hc, hd⟩
  case taken =>
    obtain ⟨hd1, hc1, hdom1⟩ := wordTaken_leaves s fn.val ((s.dom fn.val).queue.partial_ ++ [v])
    obtain ⟨hd0, hc0, hdom0⟩ := wordTaken_leaves s fn.val []
    have hw : [TlpWord.whole v].foldl (fun t w => t.submitWord fn.val w) s = _ := submitWord_taken hh hl rfl
    by_cases hwhole : ((s.dom fn.val).queue.partial_ ++ [v]).length = descriptorWords (((s.dom fn.val).queue.partial_ ++ [v]).headD 0)
    · rw [if_pos hwhole] at hw
      have hf := fr_arrive (fr_refl [.pci, .pciPending, .out, .domQueue, .domSlabs] (wordTaken s fn.val [])) fn.val
        ((s.dom fn.val).queue.partial_ ++ [v]) (fun _ h => h)
      refine ⟨_, (hexec _).trans (congrArg Host.Outcome.next hw), (hd0.trans (.arrive ..)).only,
        (counter_congr (hf.kept .counters (by decide)) ..).trans hc0, fun h => absurd hwhole h, fun _ hgood => ?_, fun _ hbad => ?_⟩
      · rw [arrive_of_good (s := wordTaken s fn.val []) hgood, dom_updDom_self, hdom0]
        rfl
      · obtain ⟨hq, b, hb, ho, hws, hst, hss, hcr⟩ := arrive_bad_leaves (s := wordTaken s fn.val []) hbad
        rw [hdom0] at hq ho
        exact ⟨hq, b, hb, ho, hws, hst, hss, hcr⟩
    · rw [if_neg hwhole] at hw
      exact ⟨_, (hexec _).trans (congrArg Host.Outcome.next hw), hd1.only, hc1, fun _ => hdom1, fun h => absurd h hwhole, fun h => absurd h hwhole⟩
  case atLimit =>
    have hw : [TlpWord.whole v].foldl (fun t w => t.submitWord fn.val w) s = _ := submitWord_atLimit hh hl v
    exact ⟨_, (hexec _).trans (congrArg Host.Outcome.next hw), halted_leaves s fn.val (by decide) hlive⟩
  case incomplete =>
    have hw : [TlpWord.incomplete].foldl (fun t w => t.submitWord fn.val w) s = _ := submitWord_incomplete hh
    exact ⟨_, (hexec _).trans (congrArg Host.Outcome.next hw), halted_leaves s fn.val (by decide) hlive⟩
  case poisoned =>
    exact ⟨_, congrArg Host.Outcome.next ((if_neg (by rw [hopen]; exact Bool.false_ne_true)).trans (if_pos rfl)), poisonedWords_leaves s fn.val hw⟩
  case reset =>
    have hreach : Reached s fn.val := by
      by_cases h0 : fn.val = 0
      · exact .inl h0
      · simp only [State.fnOpen, if_neg h0, Bool.and_eq_true] at hopen
        exact .inr hopen.2.1
    by_cases hn : (s.dom fn.val).queue.partial_.length = 0
    · refine ⟨_, congrArg Host.Outcome.next ((if_neg (by rw [hopen]; exact Bool.false_ne_true)).trans
        (congrArg (fun t => State.updDom t _ _) (if_pos hn))), ?_, (StaysIn.updDom ..).only, fun h => absurd (List.length_eq_zero_iff.1 hn) h⟩
      rw [dom_updDom_self, hn]
      rfl
    · refine ⟨_, congrArg Host.Outcome.next ((if_neg (by rw [hopen]; exact Bool.false_ne_true)).trans
        (congrArg (fun t => State.updDom t _ _) (if_neg hn))), ?_, ((StaysIn.returnCredit ..).trans (.updDom ..)).only,
        fun _ hr => returnCredit_told hreach hr⟩
      rw [dom_updDom_self, dom_returnCredit]
      rfl

end Sys2Proof.Proofs

/-! Completion reads, the host window and unmasking (R408, R417, R418, R520): what each leaves of the memories and answers. From them the statement on completions, the window and vectors. -/

namespace Sys2Proof.Proofs

open Sys2Proof.Machine Sys2Proof.Safety Sys2Proof.Laws

/-! ## The host window (R418) -/

section Window

variable {s : State} {fn : Fin 64}

/-- The bytes of a write that lie in a window of n bytes. -/
abbrev insideOf (bytes : List Byte) (n offset : Nat) : List Byte := bytes.take (n - offset)

theorem getD_take_inside (bytes : List Byte) {n i : Nat} (h : i < n) : (bytes.take n).getD i 0 = bytes.getD i 0 := by
  simp only [List.getD_eq_getElem?_getD, List.getElem?_take, if_pos h]

/-- A write beyond the window is discarded there, once (log 64). -/
theorem insideOf_short_iff (bytes : List Byte) (n offset : Nat) :
    (insideOf bytes n offset).length < bytes.length ↔ n < offset + bytes.length ∧ bytes ≠ [] := by
  rw [List.length_take, ← List.length_pos_iff]
  omega

/-- The commons after the bytes inside the window are written. -/
theorem commons_insideOf (s : State) (base n offset : Nat) (bytes : List Byte) (a : Nat) :
    memRead (s.wrCommons (base + offset) (insideOf bytes n offset)).commons a =
      if base + offset ≤ a ∧ a < base + offset + bytes.length ∧ a < base + n then bytes.getD (a - (base + offset)) 0 else memRead s.commons a := by
  rw [wrCommons_read, List.length_take]
  by_cases h : base + offset ≤ a ∧ a < base + offset + bytes.length ∧ a < base + n
  · rw [if_pos h, if_pos (by omega), getD_take_inside _ (by omega)]
  · rw [if_neg h, if_neg (by omega)]

/-- A write of an open function's window, by what lies in it. -/
def windowWritten (s : State) (fn : Nat) (offset : Nat) (bytes : List Byte) : State :=
  let base := bankBytes * (s.dom fn).rec_.winFirst
  let n := bankBytes * (s.dom fn).rec_.winBanks
  let s1 := if (insideOf bytes n offset).isEmpty then s else s.wrCommons (base + offset) (insideOf bytes n offset)
  if (insideOf bytes n offset).length < bytes.length then s1.bump fn pDom 4 1 else s1

theorem exec_windowWrite (h : s.fnOpen fn.val = true) (offset : Nat) (bytes : List Byte) :
    exec (.hostWindowWrite fn offset bytes false) s = .next (windowWritten s fn.val offset bytes) :=
  congrArg Host.Outcome.next ((if_neg (by rw [h]; exact Bool.false_ne_true)).trans (if_neg Bool.false_ne_true))

theorem exec_windowWrite_poisoned (h : s.fnOpen fn.val = true) (offset : Nat) (bytes : List Byte) :
    exec (.hostWindowWrite fn offset bytes true) s = .next (s.poisonedTlp fn.val) :=
  congrArg Host.Outcome.next ((if_neg (by rw [h]; exact Bool.false_ne_true)).trans (if_pos rfl))

theorem windowWritten_leaves (s : State) (fn offset : Nat) (bytes : List Byte) :
    let base := bankBytes * (s.dom fn).rec_.winFirst
    let n := bankBytes * (s.dom fn).rec_.winBanks
    (windowWritten s fn offset bytes).doms = s.doms ∧
    (∀ a, memRead (windowWritten s fn offset bytes).commons a =
      if base + offset ≤ a ∧ a < base + offset + bytes.length ∧ a < base + n then bytes.getD (a - (base + offset)) 0 else memRead s.commons a) ∧
    (windowWritten s fn offset bytes).counter fn pDom 4 = s.counter fn pDom 4 + (if n < offset + bytes.length ∧ bytes ≠ [] then 1 else 0) := by
  intro base n
  have hput : ∀ t : State, t = (if (insideOf bytes n offset).isEmpty then s else s.wrCommons (base + offset) (insideOf bytes n offset)) →
      t.doms = s.doms ∧ t.commons = (if (insideOf bytes n offset).isEmpty then s.commons else (s.wrCommons (base + offset) (insideOf bytes n offset)).commons) ∧
        t.counter fn pDom 4 = s.counter fn pDom 4 := fun t ht => by
    rw [ht]
    split <;> exact ⟨rfl, rfl, rfl⟩
  have hread : ∀ a, memRead (if (insideOf bytes n offset).isEmpty then s.commons else (s.wrCommons (base + offset) (insideOf bytes n offset)).commons) a =
      memRead (s.wrCommons (base + offset) (insideOf bytes n offset)).commons a := fun a => by
    split
    next he =>
      rw [wrCommons_read, List.isEmpty_iff.1 he, if_neg (by simp only [List.length_nil]; omega)]
    next => rfl
  unfold windowWritten
  dsimp only
  obtain ⟨hdoms, hcommons, hcount⟩ := hput _ rfl
  generalize (if (insideOf bytes n offset).isEmpty then s else s.wrCommons (base + offset) (insideOf bytes n offset)) = t at hdoms hcommons hcount ⊢
  by_cases hshort : (insideOf bytes n offset).length < bytes.length
  · rw [if_pos hshort, if_pos ((insideOf_short_iff ..).1 hshort)]
    refine ⟨hdoms, fun a => ?_, (counter_bump_self t fn pDom 4 1).trans (congrArg (· + w64 1) hcount)⟩
    show memRead t.commons a = _
    rw [hcommons, hread, commons_insideOf]
  · rw [if_neg hshort, if_neg (mt (insideOf_short_iff ..).2 hshort)]
    exact ⟨hdoms, fun a => by rw [hcommons, hread, commons_insideOf], hcount.trans (BitVec.add_zero _).symm⟩

theorem exec_windowRead (h : s.fnOpen fn.val = true) (offset length : Nat) :
    exec (.hostWindowRead fn offset length) s =
      .next ((s.countCommonsUe (bankBytes * (s.dom fn.val).rec_.winFirst + offset) (min length (bankBytes * (s.dom fn.val).rec_.winBanks - offset))).emit
        (.readData fn.val (s.windowBytes (bankBytes * (s.dom fn.val).rec_.winFirst) (bankBytes * (s.dom fn.val).rec_.winBanks) offset length))) := by
  have hanswers : (s.boot.phase == .running && (fn.val == 0 || s.vfUp fn.val) && !(fn.val == 0 && s.pci.d3hot)) = true := by
    simp only [State.fnOpen, Bool.and_eq_true] at h
    obtain ⟨hrun, hfn⟩ := h
    by_cases h0 : fn.val = 0
    · rw [if_pos h0] at hfn
      simp [hrun, h0, hfn]
    · rw [if_neg h0] at hfn
      simp [hrun, h0, (Bool.and_eq_true _ _ ▸ hfn).1]
  exact congrArg Host.Outcome.next ((if_pos hanswers).trans (if_pos h))

theorem length_windowBytes (s : State) (base n offset len : Nat) : (s.windowBytes base n offset len).length = len := by
  simp [State.windowBytes]

theorem getD_windowBytes (h : memWf s.commons = true) (base n offset : Nat) {len i : Nat} (hi : i < len) :
    (s.windowBytes base n offset len).getD i 0 =
      if offset + i < n ∧ s.commonsPoison.contains ((base + offset + i) / 8) = false then memRead s.commons (base + offset + i) else 0 := by
  have hget := memGet_get s.commons h (base + offset) (min len (n - offset)) i
  rw [List.getD_eq_getElem?_getD] at hget
  simp only [State.windowBytes, List.getD_eq_getElem?_getD, List.getElem?_append, List.length_map, List.length_zipIdx, memGet_length,
    List.getElem?_map, List.getElem?_zipIdx]
  by_cases hin : offset + i < n
  · have hk : i < min len (n - offset) := by omega
    have hlt : i < (memGet s.commons (base + offset) (min len (n - offset))).length := by rw [memGet_length]; exact hk
    rw [if_pos hk] at hget ⊢
    rw [List.getElem?_eq_getElem hlt] at hget ⊢
    simp only [Option.map_some, Option.getD_some, Nat.zero_add] at hget ⊢
    rw [hget]
    cases s.commonsPoison.contains ((base + offset + i) / 8) <;> simp [hin]
  · have hk : ¬ i < min len (n - offset) := by omega
    rw [if_neg hk, if_neg (fun hc => hin hc.1), List.getElem?_replicate]
    split <;> rfl

/-- Counting the poisoned words that a read meets leaves them poisoned (R520). -/
theorem commonsPoison_countCommonsUe (s : State) (o n : Nat) : (s.countCommonsUe o n).commonsPoison = s.commonsPoison := by
  unfold State.countCommonsUe
  refine foldl_keeps (fun t : State => t.commonsPoison = s.commonsPoison) _ (fun t p h => ?_) _ rfl
  exact (raiseDom_commonsPoison (t.bump (t.bankHolder (8 * p)) pDom 6 1) pDom 4 (t.bankHolder (8 * p))).trans h

end Window

/-! ## Unmasking (R408) -/

section Unmask

variable {s : State} {fn : Fin 64} {vector : Nat}

/-- The message leaves where it fell due while the vector was masked, and its Pending bit goes. -/
theorem msixUnmask_leaves (hrun : s.boot.phase = .running) (hv : vector < vectorsOf fn.val) (hup : fn.val = 0 ∨ s.vfUp fn.val = true) :
    ∃ t, exec (.msixUnmask fn vector) s = .next t ∧ 2048 * fn.val + vector ∈ t.pci.unmasked ∧ 2048 * fn.val + vector ∉ t.pci.pendingBits ∧
      t.doms = s.doms ∧
      t.out = if s.pci.pendingBits.contains (2048 * fn.val + vector) then .msix fn.val vector :: s.out else s.out := by
  have hanswers : ¬ (s.boot.phase != .running || decide (vectorsOf fn.val ≤ vector) || !(fn.val == 0 || s.vfUp fn.val)) = true := by
    have hv' := Nat.not_le.2 hv
    rcases hup with h | h <;> simp only [hrun, h] at hv' ⊢ <;> simp [hv']
  have hadd : 2048 * fn.val + vector ∈ numAdd s.pci.unmasked (2048 * fn.val + vector) := (mem_numAdd _ _ _).2 (.inl rfl)
  have hdel : 2048 * fn.val + vector ∉ numDel s.pci.pendingBits (2048 * fn.val + vector) := fun h => by
    simpa [numDel] using (List.mem_filter.1 h).2
  refine ⟨_, congrArg Host.Outcome.next (if_neg hanswers), ?_⟩
  dsimp only
  split <;> exact ⟨hadd, hdel, rfl, rfl⟩

end Unmask

/-- Settles O32: completions and the window by what stands, vectors by what waited. -/
theorem completionsWindowAndVectors : Obligations.CompletionsWindowAndVectors := by
  unfold Obligations.CompletionsWindowAndVectors
  intro s fn
  dsimp only
  refine ⟨fun hopen => ⟨fun hc => ?none, fun w r hc => ?oldest, fun offset bytes => ?stored, fun offset bytes => ?poisoned, fun hwf offset length => ?read⟩,
    fun vector hrun hv hup => msixUnmask_leaves hrun hv hup⟩
  case none =>
    refine ⟨_, congrArg Host.Outcome.next (if_neg (by rw [hopen]; exact Bool.false_ne_true)), ?_⟩
    rw [hc]
    rfl
  case oldest =>
    have hexec : exec (.complRead fn) s = .next ((s.updDom fn.val (fun x => x.updQueue (fun q => { q with compl := r }))).emit (.value fn.val w)) := by
      refine congrArg Host.Outcome.next ((if_neg (by rw [hopen]; exact Bool.false_ne_true)).trans ?_)
      rw [hc]
    exact ⟨_, hexec, rfl, (emit_dom ..).trans (dom_updDom_self ..), fun e he => (StaysIn.updDom fn.val s (fun x => x.updQueue (fun q => { q with compl := r }))).only e he⟩
  case stored => exact ⟨_, exec_windowWrite hopen offset bytes, windowWritten_leaves s fn.val offset bytes⟩
  case poisoned =>
    obtain ⟨hf, hout, -⟩ := poisonedTlp_leaves s fn.val
    exact ⟨_, exec_windowWrite_poisoned hopen offset bytes, hf.kept .commons (by decide), hout⟩
  case read =>
    have hf := fr_countCommonsUe (fr_refl (withEvents [.commonsPoison]) s) (bankBytes * (s.dom fn.val).rec_.winFirst + offset)
      (min length (bankBytes * (s.dom fn.val).rec_.winBanks - offset)) (by decide)
    refine ⟨_, _, exec_windowRead hopen offset length, rfl, length_windowBytes .., hf.kept .commons (by decide), commonsPoison_countCommonsUe .., fun i hi => ?_⟩
    exact getD_windowBytes hwf.commons _ _ _ hi

end Sys2Proof.Proofs

/-! The endpoint link and the management endpoint (R403, R482, R483, R497, R513): what a change of the link tells and counts, and what a reply to a request for the event log holds. From them the statement on the endpoint and management. -/

namespace Sys2Proof.Proofs

open Sys2Proof.Machine Sys2Proof.Safety Sys2Proof.Laws

section Endpoint

variable {s : State}

/-- The link's registers after a change. -/
def linkShown (s : State) (speed width : Nat) (up : Bool) : State :=
  s.updPci (fun p => { p with speed := speed % 16, width := width % 32, dlUp := up, trainedOnce := p.trainedOnce || up })

theorem exec_pcieLinkChange (ha : s.awake = true) (hl : s.fuses.life ≠ .retired) (speed width : Nat) (up : Bool) :
    exec (.pcieLinkChange speed width up) s = .next
      (State.raiseDev (if (!up && s.pci.trainedOnce) = true then (linkShown s speed width up).bump dev pPci 4 1 else linkShown s speed width up) pPci 0) :=
  congrArg Host.Outcome.next (if_pos (by simp [ha, hl]))

/-- A link that falls after it has trained counts once (R483). -/
theorem linkCounted_leaves (s : State) (speed width : Nat) (up : Bool) :
    ∃ u, (if (!up && s.pci.trainedOnce) = true then (linkShown s speed width up).bump dev pPci 4 1 else linkShown s speed width up) = u ∧
      u.pci.speed = speed % 16 ∧ u.pci.width = width % 32 ∧ u.pci.dlUp = up ∧ u.doms = s.doms ∧
      u.counter dev pPci 4 = s.counter dev pPci 4 + (if up = false ∧ s.pci.trainedOnce = true then 1 else 0) := by
  refine ⟨_, rfl, ?_⟩
  by_cases h : up = false ∧ s.pci.trainedOnce = true
  · rw [if_pos h, if_pos (by simp [h])]
    exact ⟨rfl, rfl, rfl, rfl, counter_bump_self (linkShown s speed width up) dev pPci 4 1⟩
  · rw [if_neg h, if_neg (by simpa using h)]
    exact ⟨rfl, rfl, rfl, rfl, (BitVec.add_zero _).symm⟩

/-- Replies go out, and nothing else moves. -/
theorem emitAll_leaves (l : List Nat) (s : State) : l.foldl (fun t c => t.emit (.pldm 0x10003 c)) s =
    { s with out := (l.map (fun c => Output.pldm 0x10003 c)).reverse ++ s.out } := by
  induction l generalizing s with
  | nil => rfl
  | cons c r ih =>
    rw [List.foldl_cons, ih, List.map_cons, List.reverse_cons, List.append_assoc]
    rfl

/-- Every event of the PF's device view is among its codes (R466, R513). -/
theorem eventCode_mem {page bit b : Nat} (hp : page < 128) (hb : bit < 32) (hk : blockOf page = some b)
    (he : (s.view 64 page).event.getLsbD bit = true) : 256 * (b + 1) + bit ∈ s.eventCodes := by
  unfold State.eventCodes
  refine List.mem_flatMap.2 ⟨page, List.mem_range.2 hp, ?_⟩
  rw [hk]
  exact List.mem_map.2 ⟨bit, List.mem_filter.2 ⟨List.mem_range.2 hb, he⟩, rfl⟩

end Endpoint

/-- Settles O35: each command of the endpoint and of management while the device is awake. -/
theorem endpointAndManagement : Obligations.EndpointAndManagement := by
  unfold Obligations.EndpointAndManagement
  intro s speed width address up d3 slot offset bytes ha
  refine ⟨fun hl => ?link, fun hrun => ?power, fun hfit => ?image, ?cause, ?temps, ?input, ?log, ?setdasa, fun hnone => ?entdaa⟩
  case link =>
    obtain ⟨u, hu, hspeed, hwidth, hup, hdoms, hcount⟩ := linkCounted_leaves s speed width up
    have hdev : u.devCopies pPci 0 = s.devCopies pPci 0 := devCopies_congr (fun e => by unfold State.dom; rw [hdoms]) pPci 0
    refine ⟨u.raiseDev pPci 0, hu ▸ exec_pcieLinkChange ha hl speed width up, ?_, ?_, ?_, raiseDev_eventIn hdev (by decide),
      (counter_raiseDev u pPci 0 ⟨by decide, by decide⟩).trans hcount⟩
    · exact (raiseDev_pci_speed ..).trans hspeed
    · exact (raiseDev_pci_width ..).trans hwidth
    · exact (raiseDev_pci_dlUp ..).trans hup
  case power => exact ⟨_, congrArg Host.Outcome.next (if_pos (.inl hrun)), rfl⟩
  case image =>
    exact ⟨_, congrArg Host.Outcome.next (if_pos (by rw [ha, Bool.true_and]; exact decide_eq_true hfit)), rfl, rfl,
      fun a => memRead_memPut s.fuses.spi (0x2000000 * slot.val + offset) a bytes⟩
  case cause => exact congrArg Host.Outcome.next (if_pos ha)
  case temps => exact congrArg Host.Outcome.next (if_pos ha)
  case input => exact congrArg Host.Outcome.next (if_pos ha)
  case log =>
    refine ⟨_, congrArg Host.Outcome.next ((if_pos ha).trans (emitAll_leaves s.eventCodes s)), rfl, fun page bit b hp hb hk he => ?_⟩
    exact List.mem_append_left _ (List.mem_reverse.2 (List.mem_map_of_mem (eventCode_mem hp hb hk he)))
  case setdasa => exact ⟨_, congrArg Host.Outcome.next ((if_pos ha).trans (if_pos rfl)), rfl⟩
  case entdaa => exact ⟨_, congrArg Host.Outcome.next ((if_pos ha).trans (if_pos (by rw [hnone]; rfl))), rfl⟩

end Sys2Proof.Proofs


/-! The ports of the fabric (R360 to R368, R399, R508, R509): what stands of a port beside its traffic while flits leave, how a port leaves service and comes up, and training. From them the statement on ports. -/

namespace Sys2Proof.Proofs

open Sys2Proof.Machine Sys2Proof.Safety Sys2Proof.Laws

/-! ## A port beside its traffic -/

/-- Beside the ports' traffic port n has become y, and no other port has changed. -/
def PortIs (s t : State) (n : Nat) (y : PortStateRec) : Prop :=
  portCore (t.port n) = portCore y ∧ ∀ q, q ≠ n → portCore (t.port q) = portCore (s.port q)

/-- A change of a port that its traffic does not enter. -/
def BesideTraffic (f : PortStateRec → PortStateRec) : Prop := ∀ x, portCore (f x) = portCore (f (portCore x))

namespace PortIs

variable {s t u : State} {n : Nat} {y : PortStateRec}

theorem leave (h : PortIs s t n y) (k : FlitsLeave t u) : PortIs s u n y :=
  ⟨(k.ports n).trans h.1, fun q hq => (k.ports q).trans (h.2 q hq)⟩

theorem same (h : PortIs s t n y) (k : ∀ q, u.port q = t.port q) : PortIs s u n y :=
  ⟨(congrArg portCore (k n)).trans h.1, fun q hq => (congrArg portCore (k q)).trans (h.2 q hq)⟩

theorem raiseDev (h : PortIs s t n y) (p b : Nat) : PortIs s (t.raiseDev p b) n y := h.same (raiseDev_port t p b)

theorem updPort (h : PortIs s t n y) {f : PortStateRec → PortStateRec} (hf : BesideTraffic f) : PortIs s (t.updPort n f) n (f y) := by
  refine ⟨?_, fun q hq => ?_⟩
  · rw [State.updPort, port_putPort_self, hf, h.1, ← hf]
  · rw [State.updPort, port_putPort, if_neg hq]
    exact h.2 q hq

theorem of_updPort (s : State) (n : Nat) (f : PortStateRec → PortStateRec) : PortIs s (s.updPort n f) n (f (s.port n)) := by
  refine ⟨?_, fun q hq => ?_⟩
  · rw [State.updPort, port_putPort_self]
  · rw [State.updPort, port_putPort, if_neg hq]

end PortIs

theorem onlyPort_updPort (s : State) (n : Nat) (f : PortStateRec → PortStateRec) : OnlyPort s (s.updPort n f) n := fun j hj => by
  rw [State.updPort, port_putPort, if_neg hj]

theorem port_updPort_self (s : State) (n : Nat) (f : PortStateRec → PortStateRec) : (s.updPort n f).port n = f (s.port n) :=
  port_putPort_self ..

/-! ## Flits that leave move the ports alone -/

/-- Of the fabric's record the ports alone may differ. -/
def PortsMove (s t : State) : Prop := ∃ l, t.fab = { s.fab with ports := l }

namespace PortsMove

variable {s t u : State}

theorem refl (s : State) : PortsMove s s := ⟨_, rfl⟩

theorem trans (h : PortsMove s t) (k : PortsMove t u) : PortsMove s u := by
  obtain ⟨l, hl⟩ := h
  obtain ⟨m, hm⟩ := k
  exact ⟨m, by rw [hm, hl]⟩

theorem of_fab (h : t.fab = s.fab) : PortsMove s t := ⟨s.fab.ports, h⟩

theorem updPort (s : State) (p : Nat) (f : PortStateRec → PortStateRec) : PortsMove s (s.updPort p f) := ⟨_, rfl⟩

theorem transmit (s : State) (p : Nat) (raw : List Byte) : PortsMove s (s.transmit p raw) := ⟨_, rfl⟩

theorem foldl {α : Type} {f : State → α → State} (hf : ∀ t a, PortsMove t (f t a)) (l : List α) (s : State) : PortsMove s (l.foldl f s) :=
  foldl_keeps (PortsMove s) f (fun t a h => h.trans (hf t a)) l (refl s)

theorem pump (s : State) (p : Nat) : PortsMove s (s.pump p) := by
  unfold State.pump
  refine .trans (foldl_keeps (fun a : State × List (Nat × List Byte) => PortsMove s a.1) _ (fun a q ha => ?_) _ (updPort s p _)) (updPort ..)
  have hsent := (ha.trans (u := if classOf q.1 / 65536 = 3 then a.1 else a.1.updPort p (fun x =>
    { x with credits := mapSet x.credits (classOf q.1) ((mapGet x.credits (classOf q.1)).getD 0 - 1) })) (by
      split
      · exact refl _
      · exact updPort ..)).trans (transmit _ p q.2)
  dsimp only
  split
  · exact ha
  · split
    · exact hsent
    · exact hsent.trans (updPort ..)

theorem queueFlit (s : State) (p key : Nat) (raw : List Byte) : PortsMove s (s.queueFlit p key raw) := (updPort s p _).trans (pump _ p)

theorem controlFlit (s : State) (p ftype : Nat) : PortsMove s (s.controlFlit p ftype) :=
  (of_fab rfl : PortsMove s s.takeFree.2).trans (queueFlit _ p _ _)

theorem sayWith (s : State) (p ftype : Nat) (o : Output) : PortsMove s ((s.controlFlit p ftype).emit o) :=
  (controlFlit s p ftype).trans (of_fab rfl)

theorem portChanged (h : PortsMove s t) : t.fab.portChanged = s.fab.portChanged := by
  obtain ⟨l, hl⟩ := h
  rw [hl]

end PortsMove

/-- From s to t flits have left, and nothing else has happened. -/
structure Sends (s t : State) : Prop where
  leaves : FlitsLeave s t
  moves : PortsMove s t

namespace Sends

variable {s t u : State}

theorem refl (s : State) : Sends s s := ⟨.refl s, .refl s⟩

theorem trans (h : Sends s t) (k : Sends t u) : Sends s u := ⟨h.leaves.trans k.leaves, h.moves.trans k.moves⟩

theorem foldl {α : Type} {f : State → α → State} (hf : ∀ t a, Sends t (f t a)) (l : List α) (s : State) : Sends s (l.foldl f s) :=
  foldl_keeps (Sends s) f (fun t a h => h.trans (hf t a)) l (refl s)

theorem emit (s : State) (o : Output) : Sends s (s.emit o) := ⟨.emit s o, .of_fab rfl⟩

theorem pump (s : State) (p : Nat) : Sends s (s.pump p) := ⟨.pump s p, .pump s p⟩

theorem sayWith (s : State) (p ftype : Nat) (o : Output) : Sends s ((s.controlFlit p ftype).emit o) :=
  ⟨.sayWith s p ftype o, .sayWith s p ftype o⟩

/-- A change of a port's traffic. -/
theorem traffic (s : State) (p : Nat) (f : PortStateRec → PortStateRec) (hf : portCore (f (s.port p)) = portCore (s.port p)) :
    Sends s (s.updPort p f) := ⟨.updPort s p f hf, .updPort s p f⟩

theorem queueFlit (s : State) (p key : Nat) (raw : List Byte) : Sends s (s.queueFlit p key raw) :=
  (traffic s p (fun x => { x with waiting := x.waiting ++ [(key, raw)] }) rfl).trans (pump _ p)

theorem forward {origin vc tag : Nat} {dl : Bool} {pl : List Byte} (h : s.forward origin vc tag dl pl = some t) : Sends s t := by
  obtain ⟨a, _, rfl⟩ := Option.map_eq_some_iff.1 h
  exact queueFlit ..

theorem forward_getD (s : State) (origin vc tag : Nat) (dl : Bool) (pl : List Byte) : Sends s ((s.forward origin vc tag dl pl).getD s) := by
  cases h : s.forward origin vc tag dl pl with
  | none => exact refl s
  | some t => exact forward h

/-- The flits of a port that has gone leave by its neighbours of the triple, by another way, or not at all (R373). -/
theorem moveQueue (s : State) (p : Nat) : Sends s (s.moveQueue p) := by
  have hempty := traffic s p (fun y => { y with waiting := [], replay := [], credits := [], creditsDue := [] }) rfl
  unfold State.moveQueue
  dsimp only
  split
  · exact hempty.trans (foldl (fun t w => queueFlit ..) _ _)
  · refine hempty.trans (foldl (fun t w => ?_) _ _)
    split
    · exact refl t
    · exact forward_getD ..

/-- Offers go out on a port that has come up (R509). -/
theorem offerOn (s : State) (p : Nat) : Sends s (s.offerOn p) := foldl (fun t _ => sayWith t p 4 _) _ s

theorem nameSelf (s : State) (p : Nat) : Sends s (s.nameSelf p) := emit s _

theorem views (h : Sends s t) : t.views = s.views := h.leaves.frame.kept .views (by decide)

theorem event (h : Sends s t) {l : List Nat} {p b : Nat} (he : EventIn s l p b) : EventIn t l p b :=
  eventIn_of_stays (eventsStay_views h.views) he

theorem devCopies (h : Sends s t) (p b : Nat) : t.devCopies p b = s.devCopies p b := devCopies_of_frame h.leaves.frame (by decide) p b

theorem portChanged (h : Sends s t) : t.fab.portChanged = s.fab.portChanged := h.moves.portChanged

theorem mem_out (h : Sends s t) {o : Output} (ho : o ∈ s.out) : o ∈ t.out := outGrows_mem h.leaves.out ho

end Sends

/-! ## A port leaves service, and comes up (R365, R366, R368, R400) -/

/-- A port out of service. -/
def offPort (x : PortStateRec) (next : PortState) : PortStateRec :=
  { x with state := next, half := false, halfSel := false, secure := false, exchange := none, linkKeys := [], newKeys := [],
           txNew := false, rxNew := false, rekeyStalled := false, retryCount := 0 }

/-- The port of t is out of service: where it was UP its event stands, and the tree is looked at again. -/
structure OutOfService (s t : State) (n : Nat) (y : PortStateRec) : Prop where
  core : PortIs s t n y
  changed : (s.port n).state = .up → t.fab.portChanged = true
  event : (s.port n).state = .up → EventIn t (s.devCopies (pFab n) 0) (pFab n) 0
  self : t.fab.self = s.fab.self

namespace OutOfService

variable {s t : State} {n : Nat} {y : PortStateRec}

theorem updPort (h : OutOfService s t n y) {f : PortStateRec → PortStateRec} (hf : BesideTraffic f) :
    OutOfService s (t.updPort n f) n (f y) := ⟨h.core.updPort hf, h.changed, h.event, h.self⟩

theorem nameSelf (h : OutOfService s t n y) (p : Nat) : OutOfService s (t.nameSelf p) n y :=
  ⟨h.core.leave (Sends.nameSelf t p).leaves, h.changed, h.event, h.self⟩

theorem names (h : OutOfService s t n y) : Output.ctrl n 2 (s.fab.self + 2 ^ 15 * n) ∈ (t.nameSelf n).out :=
  h.self ▸ List.mem_cons_self ..

end OutOfService

/-- The ports' change is noticed: the tree and the routes are looked at again. -/
def portNoticed (s : State) : State := s.updFab (fun f => { f with portChanged := true })

theorem PortIs.noticed {s t : State} {n : Nat} {y : PortStateRec} (h : PortIs s t n y) : PortIs s (portNoticed t) n y := h.same fun _ => rfl

theorem portDown_eq (s : State) (p : Nat) (next : PortState) : s.portDown p next =
    if (s.port p).state = .up then ((portNoticed (s.updPort p (offPort · next))).moveQueue p).raiseDev (pFab p) 0
    else (s.updPort p (offPort · next)).updPort p (fun x => { x with waiting := [], replay := [], credits := [], creditsDue := [] }) := rfl

theorem portDown_outOfService (s : State) (n : Nat) (next : PortState) : OutOfService s (s.portDown n next) n (offPort (s.port n) next) := by
  have hoff := PortIs.of_updPort s n (offPort · next)
  rw [portDown_eq]
  split
  · next hup =>
    have hmoved := Sends.moveQueue (portNoticed (s.updPort n (offPort · next))) n
    refine ⟨(hoff.noticed.leave hmoved.leaves).raiseDev .., fun _ => ?_, fun _ => ?_, ?_⟩
    · rw [raiseDev_fab, hmoved.portChanged]
      rfl
    · exact raiseDev_eventIn (hmoved.devCopies ..) (by decide)
    · rw [raiseDev_fab]
      exact hmoved.leaves.self
  · next hup => exact ⟨hoff.updPort (fun _ => rfl), fun h => absurd h hup, fun h => absurd h hup, rfl⟩

/-- A port that was not UP leaves service without its event, and its flits are gone. -/
theorem portDown_quiet {s : State} {n : Nat} (h : (s.port n).state ≠ .up) (next : PortState) :
    Frame [.fab] s (s.portDown n next) ∧ OnlyPort s (s.portDown n next) n ∧
      (s.portDown n next).port n = { offPort (s.port n) next with waiting := [], replay := [], credits := [], creditsDue := [] } := by
  rw [portDown_eq, if_neg h]
  refine ⟨fr_updPort (fr_updPort (fr_refl _ s) _ _ (by decide)) _ _ (by decide), fun j hj => ?_, ?_⟩
  · rw [onlyPort_updPort _ _ _ j hj, onlyPort_updPort _ _ _ j hj]
  · rw [port_updPort_self, port_updPort_self]

theorem portUp_eq (s : State) (p : Nat) : s.portUp p = (portNoticed (s.updPort p ({ · with state := .up }))).raiseDev (pFab p) 1 := rfl

theorem portUp_stays (s : State) (p : Nat) : EventsStay s (s.portUp p) :=
  eventsStay_trans (eventsStay_views rfl) (eventsStay_raiseDev (portNoticed (s.updPort p ({ · with state := .up }))) (pFab p) 1)

theorem portUp_self (s : State) (p : Nat) : (s.portUp p).fab.self = s.fab.self := by
  rw [portUp_eq, raiseDev_fab]
  rfl

theorem portUp_tik (s : State) (p : Nat) : (s.portUp p).tik = s.tik := by
  rw [portUp_eq, raiseDev_tik]
  rfl

theorem allOffers_congr {s t : State} (ht : t.tik = s.tik) (hf : t.fab.self = s.fab.self) : t.allOffers = s.allOffers := by
  unfold State.allOffers
  rw [ht, hf]

/-- A port comes up, and the offers heard go out on it (R365, R509). -/
theorem portUp_offers {s t : State} {n : Nat} {y : PortStateRec} (h : PortIs s t n y) (hd : t.devCopies (pFab n) 1 = s.devCopies (pFab n) 1) :
    PortIs s ((t.portUp n).offerOn n) n { y with state := .up } ∧ ((t.portUp n).offerOn n).fab.portChanged = true ∧
      EventIn ((t.portUp n).offerOn n) (s.devCopies (pFab n) 1) (pFab n) 1 := by
  have hsent := Sends.offerOn (t.portUp n) n
  refine ⟨?_, ?_, hsent.event ?_⟩
  · rw [portUp_eq] at hsent ⊢
    exact (((h.updPort (fun _ => rfl)).noticed).raiseDev ..).leave hsent.leaves
  · rw [hsent.portChanged, portUp_eq, raiseDev_fab]
    rfl
  · exact raiseDev_eventIn (s := s) hd (by decide)

theorem mem_offerOn (s : State) (n : Nat) {o : Nat × Nat} (h : o ∈ s.allOffers) : Output.ctrl n 1 (o.2 + 2 ^ 15 * o.1) ∈ (s.offerOn n).out :=
  mem_out_foldl (fun t o => .sayWith t n 4 (.ctrl n 1 (o.2 + 2 ^ 15 * o.1))) (fun _ => List.mem_cons_self ..) h s

/-- A key exchange starts: the device with the lower address sends its public keys (R397). -/
theorem startExchange_starts {s t : State} {n : Nat} {y : PortStateRec} (h : PortIs s t n y) (again : Bool) :
    EventsStay t (t.startExchange n again) ∧ ∃ e, e.rekey = again ∧ PortIs s (t.startExchange n again) n { y with exchange := some e } ∧
      (t.fab.self < y.peerDevice → ∃ m, e.transcript = [m] ∧ Output.keyExchange n 0 m ∈ (t.startExchange n again).out) := by
  have hframe : Frame [.fab, .lks, .counters, .freeCtr, .out] t (t.startExchange n again) := fr_startExchange (fr_refl _ t) n again (by decide)
  refine ⟨eventsStay_views (hframe.kept .views (by decide)), ?_⟩
  have hpeer : (t.port n).peerDevice = y.peerDevice := (congrArg PortStateRec.peerDevice h.1 :)
  unfold State.startExchange
  dsimp only
  rw [hpeer]
  split
  · have hdrawn : PortIs s t.takeDraw.2.takeDraw.2 n y := h.same fun _ => rfl
    exact ⟨_, rfl, (hdrawn.updPort (fun _ => rfl)).leave (Sends.sayWith ..).leaves, fun _ => ⟨_, rfl, .head _⟩⟩
  · next hlow => exact ⟨_, rfl, h.updPort (fun _ => rfl), fun hlt => absurd hlt hlow⟩

/-! ## Training (R360, R362, R365, R366, R508) -/

/-- A lane has failed exactly where not all eight have trained. -/
theorem complement_ne_zero {lanes : BitVec 8} : ~~~lanes ≠ 0 ↔ lanes ≠ 255 := by
  revert lanes
  decide

section Training

variable (s : State) (n : Nat) (lanes : BitVec 8) (peer peerPort delayPs eyeMv eyeLane : Nat)

/-- What training tells of a port. -/
def trainedPort (x : PortStateRec) : PortStateRec :=
  { x with badLanes := ~~~lanes, peerDevice := peer, peerPort := peerPort, delayPs := delayPs, eyeMv := eyeMv, eyeLane := eyeLane,
           half := lanes != 255, halfSel := (~~~lanes).toNat % 16 != 0, rxSeq := 0, retryCount := 0, rxCount := 0 }

/-- A port whose lanes have trained, with its traffic at its start. -/
def freshPort (due : List (Nat × Nat)) (x : PortStateRec) : PortStateRec :=
  { trainedPort lanes peer peerPort delayPs eyeMv eyeLane x with
    half := ~~~lanes != 0, txSeq := 0, replay := [], credits := [], waiting := [], creditsDue := due, txCount := 0 }

/-- The state in which a port's lanes have trained, before it is judged. -/
def lanesTrained : State := s.updPort n (freshPort lanes peer peerPort delayPs eyeMv eyeLane (s.firstCredits n))

theorem lanesTrained_is : PortIs s (lanesTrained s n lanes peer peerPort delayPs eyeMv eyeLane) n
    (trainedPort lanes peer peerPort delayPs eyeMv eyeLane (s.port n)) := by
  obtain ⟨hport, hrest⟩ := PortIs.of_updPort s n (freshPort lanes peer peerPort delayPs eyeMv eyeLane (s.firstCredits n))
  have hhalf : (~~~lanes != 0) = (lanes != 255) := by
    rw [Bool.eq_iff_iff, bne_iff_ne, bne_iff_ne, complement_ne_zero]
  refine ⟨hport.trans ?_, hrest⟩
  unfold freshPort
  rw [hhalf]
  rfl

/-- A trained port with the right peer: LINK_HALF where a lane has failed. -/
def halfRaised (t : State) : State := if ~~~lanes = 0 then t else t.raiseDev (pFab n) 2

theorem exec_portTrainingDone {port : Fin 18} {s : State} (hs : (s.port port.val).state = .training) (hv : s.fab.selfValid = true) :
    exec (.portTrainingDone port lanes peer peerPort delayPs eyeMv eyeLane) s = .next (
      let t := lanesTrained s port.val lanes peer peerPort delayPs eyeMv eyeLane
      if (~~~lanes).toNat % 16 ≠ 0 ∧ (~~~lanes).toNat / 16 ≠ 0 then
        t.updPort port.val (fun x => { x with state := .failed, half := false, halfSel := false })
      else if peer ≠ neighbour s.fab.self (dirOf port.val) ∨ peerPort ≠ farPort port.val then
        (t.updPort port.val (fun x => { x with state := .miswired, half := false, halfSel := false })).raiseDev (pFab port.val) 3
      else if interRack port.val then
        ((halfRaised port.val lanes t).updPort port.val (fun x => { x with state := .keying })).startExchange port.val false
      else ((halfRaised port.val lanes t).portUp port.val).offerOn port.val) :=
  congrArg Host.Outcome.next (if_neg (by simp [hs, hv]))

theorem exec_portTrainingDone_unnamed {port : Fin 18} {s : State} (hv : s.fab.selfValid = false) :
    exec (.portTrainingDone port lanes peer peerPort delayPs eyeMv eyeLane) s = .next s :=
  congrArg Host.Outcome.next (if_pos (by simp [hv]))

end Training

section Judged

variable {s : State} {n : Nat} {lanes : BitVec 8}

/-- LINK_HALF stands on where a lane has failed, and no port has changed by it. -/
theorem halfRaised_is {t : State} {y : PortStateRec} (h : PortIs s t n y) : PortIs s (halfRaised n lanes t) n y := by
  unfold halfRaised
  split
  · exact h
  · exact h.raiseDev ..

theorem halfRaised_event {t : State} (hd : t.devCopies (pFab n) 2 = s.devCopies (pFab n) 2) (hne : lanes ≠ 255) :
    EventIn (halfRaised n lanes t) (s.devCopies (pFab n) 2) (pFab n) 2 := by
  rw [halfRaised, if_neg (complement_ne_zero.2 hne)]
  exact raiseDev_eventIn hd (by decide)

theorem halfRaised_frame {L : List Part} {t : State} (h : Frame L s t) (hL : ∀ p ∈ withEvents [], p ∈ L) : Frame L s (halfRaised n lanes t) := by
  unfold halfRaised
  split
  · exact h
  · exact fr_raiseDev h _ _ hL

theorem halfRaised_fab (t : State) : (halfRaised n lanes t).fab = t.fab := by
  unfold halfRaised
  split
  · rfl
  · exact raiseDev_fab ..

variable (t : State) (y : PortStateRec) (h : PortIs s t n y) (hframe : Frame (withEvents [.fab]) s t) (hself : t.fab.self = s.fab.self)

include h hframe hself

/-- A trained port within a rack comes up, and the offers heard go out on it. -/
theorem upAtOnce_leaves : let u := ((halfRaised n lanes t).portUp n).offerOn n
    PortIs s u n { y with state := .up } ∧ u.fab.portChanged = true ∧ EventIn u (s.devCopies (pFab n) 1) (pFab n) 1 ∧
      (lanes ≠ 255 → EventIn u (s.devCopies (pFab n) 2) (pFab n) 2) ∧ ∀ o ∈ s.allOffers, Output.ctrl n 1 (o.2 + 2 ^ 15 * o.1) ∈ u.out := by
  have hhalf := halfRaised_frame (n := n) (lanes := lanes) hframe (by decide)
  obtain ⟨hcore, hchanged, hevent⟩ := portUp_offers (halfRaised_is (lanes := lanes) h) (devCopies_of_frame hhalf (by decide) _ _)
  refine ⟨hcore, hchanged, hevent, fun hne => ?_, fun o ho => mem_offerOn _ n ?_⟩
  · refine (Sends.offerOn _ n).event (eventIn_of_stays (portUp_stays _ n) ?_)
    exact halfRaised_event (devCopies_of_frame hframe (by decide) _ _) hne
  · have htik : (halfRaised n lanes t).tik = s.tik := hhalf.kept .tik (by decide)
    rw [allOffers_congr ((portUp_tik _ n).trans htik) ((portUp_self _ n).trans ((congrArg FabState.self (halfRaised_fab t)).trans hself))]
    exact ho

/-- A trained port between racks keys, and its exchange begins. -/
theorem keying_leaves : let u := ((halfRaised n lanes t).updPort n (fun x => { x with state := .keying })).startExchange n false
    (lanes ≠ 255 → EventIn u (s.devCopies (pFab n) 2) (pFab n) 2) ∧ ∃ e, e.rekey = false ∧
      PortIs s u n { y with state := .keying, exchange := some e } ∧
      (s.fab.self < y.peerDevice → ∃ m, e.transcript = [m] ∧ Output.keyExchange n 0 m ∈ u.out) := by
  have hkeying := (halfRaised_is (lanes := lanes) h).updPort (f := fun x => { x with state := .keying }) (fun _ => rfl)
  obtain ⟨hstays, e, hrekey, hcore, hsent⟩ := startExchange_starts hkeying false
  have hlow : ((halfRaised n lanes t).updPort n (fun x => { x with state := .keying })).fab.self = s.fab.self :=
    (congrArg FabState.self (halfRaised_fab t)).trans hself
  refine ⟨fun hne => eventIn_of_stays hstays ?_, e, hrekey, hcore, hlow ▸ hsent⟩
  exact halfRaised_event (devCopies_of_frame hframe (by decide) _ _) hne

end Judged

/-! ## A port's signal, its lanes and the manager's hand on it (R366, R399, R508) -/

section Service

variable {s : State} {port : Fin 18}

theorem exec_fabricTrainingStart (hp : s.boot.phase = .running) (hv : s.fab.selfValid = true) (hn : s.fab.trainStart = none) (nowNs : Nat) :
    exec (.fabricTrainingStart nowNs) s = .next ((s.atTime nowNs).updFab (fun f => { f with trainStart := some nowNs })) :=
  congrArg Host.Outcome.next (if_pos (by simp [hp, hv, hn]))

theorem exec_signalDetect {start nowNs : Nat} (hstart : s.fab.trainStart = some start) (hd : (s.port port.val).state = .down)
    (he : (s.port port.val).enable = true) (hsig : (s.port port.val).signal = false) (hv : s.fab.selfValid = true) (hin : nowNs ≤ start + 10 ^ 10) :
    exec (.signalDetect port nowNs) s = .next
      (((s.atTime nowNs).updPort port.val (fun y => { y with signal := true, state := .training })).nameSelf port.val) := by
  show Host.Outcome.next _ = _
  rw [hstart]
  exact congrArg Host.Outcome.next (if_pos ⟨hd, he, by simp [hsig], hv, hin⟩)

theorem signalDetect_leaves {start nowNs : Nat} (hstart : s.fab.trainStart = some start) (hd : (s.port port.val).state = .down)
    (he : (s.port port.val).enable = true) (hsig : (s.port port.val).signal = false) (hv : s.fab.selfValid = true) (hin : nowNs ≤ start + 10 ^ 10) :
    ∃ t, exec (.signalDetect port nowNs) s = .next t ∧ Frame [.fuses, .tik, .fab, .out] s t ∧ OnlyPort s t port.val ∧
      t.port port.val = { s.port port.val with signal := true, state := .training } ∧
      Output.ctrl port.val 2 (s.fab.self + 2 ^ 15 * port.val) ∈ t.out := by
  have hexec := exec_signalDetect hstart hd he hsig hv hin
  have hothers := onlyPort_updPort (s.atTime nowNs) port.val (fun y => { y with signal := true, state := .training })
  have hself := port_updPort_self (s.atTime nowNs) port.val (fun y => { y with signal := true, state := .training })
  exact ⟨_, hexec, fr_execSignalDetect (fr_refl _ s) port nowNs (by decide) _ hexec, hothers, hself, .head _⟩

theorem ne_up_of_stage (h : (s.port port.val).state = .training ∨ (s.port port.val).state = .keying) : (s.port port.val).state ≠ .up := by
  rcases h with h | h <;> simp [h]

/-- A lane fails: the port leaves service, and trains again while the device has its address. -/
theorem laneFail_leaves (hx : (s.port port.val).state = .up ∨ (s.port port.val).state = .keying) (lane : Fin 8) :
    ∃ t, exec (.laneFail port lane) s = .next t ∧
      (s.fab.selfValid = true → Output.ctrl port.val 2 (s.fab.self + 2 ^ 15 * port.val) ∈ t.out) ∧
      OutOfService s t port.val { offPort (s.port port.val) (if s.fab.selfValid then .training else .down) with
        badLanes := (s.port port.val).badLanes ||| BitVec.ofNat 8 (2 ^ lane.val) } := by
  have hoff (next : PortState) := (portDown_outOfService s port.val next).updPort
    (f := fun x => { x with badLanes := x.badLanes ||| BitVec.ofNat 8 (2 ^ lane.val) }) (fun _ => rfl)
  refine ⟨_, congrArg Host.Outcome.next (if_pos hx), ?_⟩
  cases hv : s.fab.selfValid
  · exact ⟨fun h => absurd h (by decide), hoff .down⟩
  · exact ⟨fun _ => (hoff .training).names, (hoff .training).nameSelf _⟩

theorem exec_retrain {v : View} (hs : s.shows v (pFab port.val) = true) (he : (s.port port.val).enable = true)
    (hstart : s.fab.trainStart.isSome = true) (hv : s.fab.selfValid = true) :
    exec (.retrain v port) s = .next (((s.portDown port.val .training).updPort port.val (fun x => { x with signal := true })).nameSelf port.val) :=
  congrArg Host.Outcome.next (if_pos ⟨hs, he, hstart, hv⟩)

theorem exec_portEnable_off {v : View} (hs : s.shows v (pFab port.val) = true) (he : (s.port port.val).enable = true) :
    exec (.portEnable v port false) s = .next
      ((s.portDown port.val .down).updPort port.val (fun x => { x with enable := false, signal := false })) :=
  congrArg Host.Outcome.next ((if_neg (by simp [hs, he])).trans (if_neg (by decide)))

theorem exec_portEnable_on {v : View} (hs : s.shows v (pFab port.val) = true) (he : (s.port port.val).enable = false) :
    exec (.portEnable v port true) s = .next (s.updPort port.val (fun x => { x with enable := true, signal := false })) :=
  congrArg Host.Outcome.next ((if_neg (by simp [hs, he])).trans (if_pos rfl))

end Service

/-! ## The statement -/

/-- Settles O48: each command of a port by its lemma, training by what the lanes and the peer are. -/
theorem portsTrain : Obligations.PortsTrain := by
  unfold Obligations.PortsTrain
  intro s port v lanes lane peer peerPort delayPs eyeMv eyeLane nowNs n x f low high trained none_ off core event trains names leaves
  refine ⟨?start, ?signal, ?missed, ?unnamed, ?training, ?service, ?manager⟩
  case start =>
    intro hp hv hn
    have hexec := exec_fabricTrainingStart hp hv hn nowNs
    exact ⟨_, hexec, fr_execFabricTrainingStart (fr_refl _ s) nowNs (by decide) _ hexec, rfl, rfl⟩
  case signal => exact fun start hstart hd he hsig hv hin => signalDetect_leaves hstart hd he hsig hv hin
  case missed => exact fun hx => ⟨_, congrArg Host.Outcome.next (if_pos hx), portDown_quiet (ne_up_of_stage hx) .failed⟩
  case unnamed => exact fun hv => exec_portTrainingDone_unnamed _ _ _ _ _ _ hv
  case training =>
    intro hv hx
    have hexec := exec_portTrainingDone lanes peer peerPort delayPs eyeMv eyeLane hx hv
    have hcore := lanesTrained_is s n lanes peer peerPort delayPs eyeMv eyeLane
    have hframe : Frame (withEvents [.fab]) s (lanesTrained s n lanes peer peerPort delayPs eyeMv eyeLane) :=
      fr_updPort (fr_refl _ s) _ _ (by decide)
    refine ⟨fun hl hh => ?_, fun hok hwrong => ?_, fun hok hp hpp => ⟨fun hr => ?_, fun hr => ?_⟩⟩
    · exact ⟨_, hexec.trans (congrArg Host.Outcome.next (if_pos ⟨hl, hh⟩)), fr_updPort (fr_updPort (fr_refl _ s) _ _ (by decide)) _ _ (by decide),
        hcore.updPort (fun _ => rfl)⟩
    · exact ⟨_, hexec.trans (congrArg Host.Outcome.next ((if_neg (by omega)).trans (if_pos hwrong))), (hcore.updPort (fun _ => rfl)).raiseDev ..,
        raiseDev_eventIn rfl (by decide)⟩
    · exact ⟨_, hexec.trans (congrArg Host.Outcome.next ((if_neg (by omega)).trans ((if_neg (by simp [f, n, hp, hpp])).trans (if_neg (by simp [n, hr]))))),
        upAtOnce_leaves _ _ hcore hframe rfl⟩
    · exact ⟨_, hexec.trans (congrArg Host.Outcome.next ((if_neg (by omega)).trans ((if_neg (by simp [f, n, hp, hpp])).trans (if_pos hr)))),
        keying_leaves _ _ hcore hframe rfl⟩
  case service =>
    intro hx
    refine ⟨⟨_, congrArg Host.Outcome.next (if_pos hx), fr_updPort (fr_refl _ s) _ _ (by decide), onlyPort_updPort _ _ _, port_updPort_self ..⟩, ?_⟩
    obtain ⟨t, hexec, hnames, hout⟩ := laneFail_leaves hx lane
    exact ⟨t, hexec, hnames, hout.core, fr_execLaneFail (fr_refl _ s) port lane (by decide) _ hexec, fun hup => ⟨hout.changed hup, hout.event hup⟩⟩
  case manager =>
    intro hs
    refine ⟨fun he hstart hv => ?_, fun he => ?_, fun he => ?_⟩
    · have hexec := exec_retrain hs he hstart hv
      have hout := (portDown_outOfService s n .training).updPort (f := fun x => { x with signal := true }) (fun _ => rfl)
      exact ⟨_, hexec, hout.names, (hout.nameSelf n).core, fr_execRetrain (fr_refl _ s) v port (by decide) _ hexec, fun hup =>
        ⟨hout.changed hup, (hout.nameSelf n).event hup⟩⟩
    · have hexec := exec_portEnable_off hs he
      have hout := (portDown_outOfService s n .down).updPort (f := fun x => { x with enable := false, signal := false }) (fun _ => rfl)
      exact ⟨_, hexec, hout.core, fr_execPortEnable (fr_refl _ s) v port false (by decide) _ hexec, fun hup => ⟨hout.changed hup, hout.event hup⟩⟩
    · exact ⟨_, exec_portEnable_on hs he, fr_updPort (fr_refl _ s) _ _ (by decide), onlyPort_updPort _ _ _, port_updPort_self ..⟩

end Sys2Proof.Proofs


/-! The flits that arrive (R364, R367, R368, R374, R396): what a flit in order moves, the IDLE flits that go back, the way of a flit for another device, and the replay. From them the statement on flits. -/

namespace Sys2Proof.Proofs

open Sys2Proof.Machine Sys2Proof.Safety Sys2Proof.Laws

/-! ## IDLE flits (R367, R368) -/

/-- One IDLE flit: it carries the ACK and the credits of one class. -/
def idleFlit (p : Nat) (t : State) : State :=
  let y := t.port p
  let hdr := fld (Config.freeNat t.freeCtr) 22 12 + fld (y.rxSeq + 4095) 34 12 + fld (bit01 y.keyId) 46 1
  (t.takeFree.2.updPort p (fun z => { z with creditsDue := y.linkWord.2 })).emit
    (.flit p (closeFlit (leBytes 8 hdr ++ (List.range 240).map (Config.freeByte t.freeCtr)) y.linkWord.1))

theorem idleOut_eq (s : State) (p : Nat) : s.idleOut p =
    (List.range (max 1 (((s.port p).creditsDue.map (fun q => ceilDiv q.2 255)).sum))).foldl (fun t _ => idleFlit p t) s := rfl

theorem Sends.takeFree (s : State) : Sends s s.takeFree.2 :=
  ⟨⟨fr_takeFree (fr_refl _ s) (by decide), rfl, fun _ => rfl, outGrows_same rfl, fun _ _ _ _ => rfl⟩, .of_fab rfl⟩

theorem Sends.idleFlit (t : State) (p : Nat) : Sends t (idleFlit p t) :=
  ((Sends.takeFree t).trans (.traffic _ p _ rfl)).trans (.emit ..)

theorem Sends.idleOut (s : State) (p : Nat) : Sends s (s.idleOut p) := .foldl (fun t _ => .idleFlit t p) _ s

/-- At least one IDLE flit goes out. -/
theorem idleOut_flit (s : State) (p : Nat) : ∃ b, Output.flit p b ∈ (s.idleOut p).out := by
  rw [idleOut_eq]
  refine foldl_establishes (fun t : State => ∃ b, Output.flit p b ∈ t.out) (a := 0) _ (fun t _ h => ?_) (fun t => ⟨_, List.mem_cons_self ..⟩) _ s
    (List.mem_range.2 (by omega))
  obtain ⟨b, hb⟩ := h
  exact ⟨b, (Sends.idleFlit t p).mem_out hb⟩

/-! ## Flits refused, and flits in order (R368, R396) -/

section FlitIn

variable {s : State} {port : Fin 18} {bytes : List Byte} {errors : List ReadError}

theorem exec_flitReceive (hx : (s.port port.val).state = .up ∨ (s.port port.val).state = .keying) (hlen : bytes.length = 256) :
    exec (.flitReceive port bytes true errors) s = .next (s.flitIn port.val bytes errors) :=
  congrArg Host.Outcome.next ((if_neg (by rcases hx with h | h <;> simp [h, hlen])).trans (if_neg (by decide)))

theorem exec_flitReceive_uncorrectable (hx : (s.port port.val).state = .up ∨ (s.port port.val).state = .keying) (hlen : bytes.length = 256) :
    exec (.flitReceive port bytes false errors) s = .next (s.bump dev (pFab port.val) 3 1) :=
  congrArg Host.Outcome.next ((if_neg (by rcases hx with h | h <;> simp [h, hlen])).trans (if_pos (by decide)))

end FlitIn

section InOrder

variable (s : State) (n : Nat) (bytes : List Byte) (errors : List ReadError)

/-- The header of a flit, its CRC, and its payload as the port's key opens it. -/
def flitHdr : Nat := ofLe (bytes.take 8)
def CrcOk : Prop := ofLe ((bytes.drop 252).take 4) = crc32c (bytes.take 252)
def rxNonce : Nat := linkNonce (linkKey (s.port n).rxKeys ((s.port n).peerDevice < s.fab.self)).2 (s.port n).rxCount
def flitBody : List Byte := (bytes.drop 8).take 224
def TagOk : Prop := (bytes.drop 232).take 16 =
  gcmTag (linkKey (s.port n).rxKeys ((s.port n).peerDevice < s.fab.self)).1 (rxNonce s n) (linkAad (flitHdr bytes)) (flitBody bytes)
def flitPayload : List Byte :=
  if (s.port n).secure then gcmData (linkKey (s.port n).rxKeys ((s.port n).peerDevice < s.fab.self)).1 (rxNonce s n) (flitBody bytes) else flitBody bytes

/-- The state once a flit's ACK and credits are taken. -/
def linkTaken : State :=
  s.updPort n (fun y => y.takeLink (bitsOf (flitHdr bytes) 34 12) (ofLe ((bytes.drop 248).take 4)))

variable {s n bytes errors}

theorem flitIn_badCrc (h : ¬ CrcOk bytes) : s.flitIn n bytes errors = s.askRetry n := if_pos h

theorem flitIn_idle (h : CrcOk bytes) (hi : bitsOf (flitHdr bytes) 0 3 = 0) : s.flitIn n bytes errors = (linkTaken s n bytes).pump n :=
  (if_neg (not_not.2 h)).trans (if_pos hi)

theorem flitIn_outOfOrder (h : CrcOk bytes) (hi : bitsOf (flitHdr bytes) 0 3 ≠ 0) (ho : bitsOf (flitHdr bytes) 22 12 ≠ (s.port n).rxSeq) :
    s.flitIn n bytes errors = s.askRetry n := (if_neg (not_not.2 h)).trans ((if_neg hi).trans (if_pos ho))

/-- A flit in order, once it is known whether the port takes its new keys with it. -/
def tagJudged (s : State) (n : Nat) (bytes : List Byte) (errors : List ReadError) (switch : Bool) : State :=
  let y := if switch then (s.port n).switchRx else s.port n
  let key := linkKey y.rxKeys (y.peerDevice < s.fab.self)
  let nonce := linkNonce key.2 y.rxCount
  if y.secure ∧ (bytes.drop 232).take 16 ≠ gcmTag key.1 nonce (linkAad (flitHdr bytes)) (flitBody bytes) then s.askRetry n
  else
    let pl := if y.secure then gcmData key.1 nonce (flitBody bytes) else flitBody bytes
    (((linkTaken (if switch then s.keySwitch n else s) n bytes).acceptFlit n (flitHdr bytes) pl errors).pump n).idleOut n

section UnderKey

variable (h : CrcOk bytes) (hi : bitsOf (flitHdr bytes) 0 3 ≠ 0) (ho : bitsOf (flitHdr bytes) 22 12 = (s.port n).rxSeq)
  (hk : (s.port n).secure = true → bitOf (flitHdr bytes) 46 = (s.port n).rxKeyId)

include h hi ho hk

theorem flitIn_underKey : s.flitIn n bytes errors = tagJudged s n bytes errors false := by
  have hswitch : ((s.port n).secure && bitOf (flitHdr bytes) 46 != (s.port n).rxKeyId && !(s.port n).newKeys.isEmpty && !(s.port n).rxNew) = false := by
    cases hsec : (s.port n).secure
    · rfl
    · simp [hk hsec]
  rw [← hswitch]
  exact (if_neg (not_not.2 h)).trans ((if_neg hi).trans (if_neg (not_not.2 ho)))

/-- A flit whose tag fails is asked for again (R396). -/
theorem flitIn_badTag (hs : (s.port n).secure = true) (ht : ¬ TagOk s n bytes) : s.flitIn n bytes errors = s.askRetry n :=
  (flitIn_underKey h hi ho hk).trans (if_pos ⟨hs, ht⟩)

/-- A flit whose tag holds, or that comes without one, is accepted (R368). -/
theorem flitIn_goodTag (ht : (s.port n).secure = true → TagOk s n bytes) : s.flitIn n bytes errors =
    (((linkTaken s n bytes).acceptFlit n (flitHdr bytes) (flitPayload s n bytes) errors).pump n).idleOut n :=
  (flitIn_underKey h hi ho hk).trans (if_neg fun hbad => hbad.2 (ht hbad.1))

end UnderKey

/-- What a flit's ACK tells of a port. -/
def linkedPort (bytes : List Byte) (x : PortStateRec) : PortStateRec :=
  { x with retryCount := if bitsOf (flitHdr bytes) 34 12 ∈ x.replay.map Prod.fst then 0 else x.retryCount }

/-- A port once a flit in order has come. -/
def countedPort (x : PortStateRec) : PortStateRec :=
  { x with rxSeq := (x.rxSeq + 1) % 4096, rxCount := if x.secure then x.rxCount + 1 else x.rxCount }

/-- The state once a flit in order is counted (R368). -/
def inOrder (t : State) (n : Nat) : State := (t.updPort n countedPort).bump dev (pFab n) 1 1

theorem linkTaken_is (s : State) (n : Nat) (bytes : List Byte) : PortIs s (linkTaken s n bytes) n (linkedPort bytes (s.port n)) := by
  obtain ⟨hport, hrest⟩ := PortIs.of_updPort s n
    (fun y => y.takeLink (bitsOf (flitHdr bytes) 34 12) (ofLe ((bytes.drop 248).take 4)))
  refine ⟨hport.trans ?_, hrest⟩
  unfold PortStateRec.takeLink linkedPort
  simp only [List.contains_eq_mem, decide_eq_true_eq]
  rfl

theorem acceptFlit_control {t : State} {hdr : Nat} {pl : List Byte} (h : bitsOf hdr 0 3 ≠ 1) :
    t.acceptFlit n hdr pl errors = inOrder t n := if_neg h

/-- A DATA flit for another device goes on (R372). -/
theorem acceptFlit_forward {t u : State} {hdr : Nat} {pl : List Byte} (h : bitsOf hdr 0 3 = 1)
    (hd : bitsOf (ofLe (pl.take 8)) 8 15 ≠ (inOrder t n).fab.self)
    (hf : (inOrder t n).forward (n + 1) (bitsOf hdr 3 2) (bitsOf hdr 6 16) (bitOf hdr 5) pl = some u) :
    t.acceptFlit n hdr pl errors = u := by
  have hdata : (inOrder t n).takeData n hdr pl errors = (u, false) := by
    refine (if_neg hd).trans ?_
    rw [hf]
  refine (if_pos h).trans ?_
  show (if ((inOrder t n).takeData n hdr pl errors).2 then _ else ((inOrder t n).takeData n hdr pl errors).1) = u
  rw [hdata]
  rfl

/-- A flit is accepted: counted, with its ACK taken, and a flit with the new ACK goes back. -/
structure Accepted (s t : State) (n : Nat) (bytes : List Byte) : Prop where
  frame : Frame [.fab, .counters, .freeCtr, .out] s t
  counted : t.counter dev (pFab n) 1 = s.counter dev (pFab n) 1 + 1
  answered : ∃ b, Output.flit n b ∈ t.out
  core : PortIs s t n (countedPort (linkedPort bytes (s.port n)))

theorem accepted_of_sends {u : State} (h : Sends (inOrder (linkTaken s n bytes) n) u) : Accepted s ((u.pump n).idleOut n) n bytes := by
  have hsent := h.trans ((Sends.pump u n).trans (.idleOut _ n))
  have hcounted : (inOrder (linkTaken s n bytes) n).counter dev (pFab n) 1 = s.counter dev (pFab n) 1 + 1 := counter_bump_self ..
  have hframe : Frame [.fab, .counters, .freeCtr, .out] s (inOrder (linkTaken s n bytes) n) :=
    fr_bump (fr_updPort (fr_updPort (fr_refl _ s) _ _ (by decide)) _ _ (by decide)) _ _ _ _ (by decide)
  have hcore : PortIs s (inOrder (linkTaken s n bytes) n) n (countedPort (linkedPort bytes (s.port n))) :=
    ((linkTaken_is s n bytes).updPort (f := countedPort) (fun _ => rfl)).same fun _ => rfl
  exact ⟨fr_trans hframe hsent.leaves.frame, (hsent.leaves.counter _ _ _ (by decide)).trans hcounted, idleOut_flit _ n, hcore.leave hsent.leaves⟩

/-! ## The next hop is the same while the ports serve alike (R372 to R374) -/

/-- The ports serve alike: their states, stalls and planned widths are the same. -/
def ServeAlike (s t : State) : Prop :=
  t.fab.self = s.fab.self ∧ ∀ p, (t.port p).state = (s.port p).state ∧ (t.port p).rekeyStalled = (s.port p).rekeyStalled ∧
    (t.port p).plannedWidth = (s.port p).plannedWidth

theorem ServeAlike.upPorts {s t : State} (h : ServeAlike s t) (dir : Nat) : t.upPorts dir = s.upPorts dir := by
  unfold State.upPorts
  simp only [fun p => (h.2 p).1, fun p => (h.2 p).2.1]

theorem ServeAlike.pickPort {s t : State} (h : ServeAlike s t) (dir dst addr : Nat) : t.pickPort dir dst addr = s.pickPort dir dst addr := by
  unfold State.pickPort
  simp only [h.upPorts, fun p => (h.2 p).2.2]

theorem ServeAlike.hop {s t : State} (h : ServeAlike s t) (a b : Nat) (skip : Bool) : t.hop a b skip = s.hop a b skip := by
  unfold State.hop
  simp only [h.upPorts]

theorem ServeAlike.nextHop {s t : State} (h : ServeAlike s t) (inDim : Option Nat) (dl : Bool) (pl : List Byte) :
    t.nextHop inDim dl pl = s.nextHop inDim dl pl := by
  unfold State.nextHop
  simp only [h.hop, h.pickPort, h.1]

theorem serveAlike_of_portIs {s t : State} {y : PortStateRec} (h : PortIs s t n y) (hself : t.fab.self = s.fab.self)
    (hstate : y.state = (s.port n).state) (hstall : y.rekeyStalled = (s.port n).rekeyStalled) (hwidth : y.plannedWidth = (s.port n).plannedWidth) :
    ServeAlike s t := by
  refine ⟨hself, fun p => ?_⟩
  by_cases hp : p = n
  · subst hp
    exact ⟨((congrArg PortStateRec.state h.1 :)).trans hstate, ((congrArg PortStateRec.rekeyStalled h.1 :)).trans hstall,
      ((congrArg PortStateRec.plannedWidth h.1 :)).trans hwidth⟩
  · have hcore := h.2 p hp
    exact ⟨(congrArg PortStateRec.state hcore :), (congrArg PortStateRec.rekeyStalled hcore :), (congrArg PortStateRec.plannedWidth hcore :)⟩

theorem accepted_control (hc : bitsOf (flitHdr bytes) 0 3 ≠ 1) :
    Accepted s ((((linkTaken s n bytes).acceptFlit n (flitHdr bytes) (flitPayload s n bytes) errors).pump n).idleOut n) n bytes := by
  rw [acceptFlit_control hc]
  exact accepted_of_sends (.refl _)

/-- A flit in order for another device is accepted and goes on (R372, R374). -/
theorem accepted_forward (hd : bitsOf (flitHdr bytes) 0 3 = 1) (ho : bitsOf (ofLe ((flitPayload s n bytes).take 8)) 8 15 ≠ s.fab.self)
    (hhop : (s.nextHop (some (if 8 ≤ dirOf n then 0 else dirOf n / 2)) (bitOf (flitHdr bytes) 5) (flitPayload s n bytes)).isSome = true) :
    Accepted s ((((linkTaken s n bytes).acceptFlit n (flitHdr bytes) (flitPayload s n bytes) errors).pump n).idleOut n) n bytes := by
  have hcore : PortIs s (inOrder (linkTaken s n bytes) n) n (countedPort (linkedPort bytes (s.port n))) :=
    ((linkTaken_is s n bytes).updPort (f := countedPort) (fun _ => rfl)).same fun _ => rfl
  have halike := serveAlike_of_portIs hcore rfl rfl rfl rfl
  rw [← halike.nextHop] at hhop
  obtain ⟨hop, hhop⟩ := Option.isSome_iff_exists.1 hhop
  have hforward : (inOrder (linkTaken s n bytes) n).forward (n + 1) (bitsOf (flitHdr bytes) 3 2) (bitsOf (flitHdr bytes) 6 16)
      (bitOf (flitHdr bytes) 5) (flitPayload s n bytes) = some _ := congrArg (Option.map _) hhop
  rw [acceptFlit_forward hd (show _ ≠ (inOrder (linkTaken s n bytes) n).fab.self from ho) hforward]
  exact accepted_of_sends (.forward hforward)

end InOrder

/-- A retry request names the expected SEQ (R368). -/
theorem askRetry_leaves (s : State) (n : Nat) : Frame [.fab, .counters, .freeCtr, .out] s (s.askRetry n) ∧ PortIs s (s.askRetry n) n (s.port n) ∧
    Output.ctrl n 0 (s.port n).rxSeq ∈ (s.askRetry n).out := by
  have hsent := Sends.sayWith s n 4 (.ctrl n 0 (s.port n).rxSeq)
  exact ⟨hsent.leaves.frame, PortIs.leave ⟨rfl, fun _ _ => rfl⟩ hsent.leaves, .head _⟩

/-! ## The replay (R368) -/

theorem foldl_emit {α : Type} (f : α → Output) (l : List α) (s : State) :
    l.foldl (fun t a => t.emit (f a)) s = { s with out := (l.map f).reverse ++ s.out } := by
  induction l generalizing s with
  | nil => rfl
  | cons a r ih =>
    rw [List.foldl_cons, ih, List.map_cons, List.reverse_cons, List.append_assoc]
    rfl

/-- A port that is asked again from a SEQ, the count of the requests in a row for it with it. -/
def retryAsked (s : State) (n seq count : Nat) : State :=
  (s.updPort n (fun y => { y with retrySeq := seq, retryCount := count })).bump dev (pFab n) 4 1

theorem retryAsked_only (s : State) (n seq count : Nat) : OnlyPort s (retryAsked s n seq count) n :=
  onlyPort_updPort s n (fun y => { y with retrySeq := seq, retryCount := count })

theorem retryAsked_port (s : State) (n seq count : Nat) :
    (retryAsked s n seq count).port n = { s.port n with retrySeq := seq, retryCount := count } :=
  port_updPort_self s n (fun y => { y with retrySeq := seq, retryCount := count })

section Retry

variable {s : State} {port : Fin 18} {seq : Nat} (hx : (s.port port.val).state = .up ∨ (s.port port.val).state = .keying)

/-- The requests in a row for one SEQ, with this one. -/
def retries (x : PortStateRec) (seq : Nat) : Nat := if x.retrySeq = seq ∧ x.retryCount ≠ 0 then x.retryCount + 1 else 1

include hx

theorem exec_retryRequest : exec (.retryRequest port seq) s = .next (
    if 8 < retries (s.port port.val) seq then (retryAsked s port.val seq (retries (s.port port.val) seq)).portDown port.val .down
    else ((s.port port.val).replay.dropWhile (fun r => r.1 != seq)).foldl (fun t r => t.emit (.flit port.val r.2))
      (retryAsked s port.val seq (retries (s.port port.val) seq))) :=
  congrArg Host.Outcome.next (if_neg (by rcases hx with h | h <;> simp [h]))

theorem retryRequest_replays (h : retries (s.port port.val) seq ≤ 8) :
    ∃ t, exec (.retryRequest port seq) s = .next t ∧ Frame [.fab, .counters, .out] s t ∧ OnlyPort s t port.val ∧
      t.port port.val = { s.port port.val with retrySeq := seq, retryCount := retries (s.port port.val) seq } ∧
      t.counter dev (pFab port.val) 4 = s.counter dev (pFab port.val) 4 + 1 ∧
      ∀ r ∈ (s.port port.val).replay.dropWhile (fun r => r.1 != seq), Output.flit port.val r.2 ∈ t.out := by
  refine ⟨_, exec_retryRequest hx, ?_⟩
  rw [if_neg (by omega), foldl_emit (fun r : Nat × List Byte => Output.flit port.val r.2)]
  have hframe : Frame [.fab, .counters, .out] s (retryAsked s port.val seq (retries (s.port port.val) seq)) :=
    fr_bump (fr_updPort (fr_refl _ s) _ _ (by decide)) _ _ _ _ (by decide)
  refine ⟨fr_trans hframe ?_, retryAsked_only s port.val seq (retries (s.port port.val) seq), retryAsked_port s port.val seq (retries (s.port port.val) seq), counter_bump_self .., fun r hr => ?_⟩
  · rw [← foldl_emit]
    exact fr_foldl _ (fun _ _ h => fr_emit h _ (by decide)) _ (fr_refl _ _)
  · exact List.mem_append_left _ (List.mem_reverse.2 (List.mem_map_of_mem hr))

/-- The ninth request in a row takes the port down. -/
theorem retryRequest_down (h : 8 < retries (s.port port.val) seq) :
    ∃ t, exec (.retryRequest port seq) s = .next t ∧ (t.port port.val).state = .down ∧
      ((s.port port.val).state = .up → t.fab.portChanged = true ∧ EventIn t (s.devCopies (pFab port.val) 0) (pFab port.val) 0) := by
  have hout := portDown_outOfService (retryAsked s port.val seq (retries (s.port port.val) seq)) port.val .down
  have hstate : ((retryAsked s port.val seq (retries (s.port port.val) seq)).port port.val).state = (s.port port.val).state := by
    rw [retryAsked_port]
  refine ⟨_, (exec_retryRequest hx).trans (congrArg Host.Outcome.next (if_pos h)), (congrArg PortStateRec.state hout.core.1 :), fun hup => ?_⟩
  exact ⟨hout.changed (hstate.trans hup), hout.event (hstate.trans hup)⟩

end Retry

/-! ## The statement -/

/-- Settles O49: a flit by the first of its checks that fails, one in order by where it goes, a retry request by its place in the row. -/
theorem flitsArrive : Obligations.FlitsArrive := by
  unfold Obligations.FlitsArrive
  intro s port bytes errors seq n x hdr crcOk acked linked body key nonce tagOk pl core only receives asks accepted count
  refine ⟨fun hx hlen => ?_, fun hx => ⟨retryRequest_replays hx, retryRequest_down hx⟩⟩
  have hexec := exec_flitReceive (errors := errors) hx hlen
  have hasks (h : s.flitIn n bytes errors = s.askRetry n) : ∃ t, receives t ∧ asks t :=
    ⟨_, hexec.trans (congrArg Host.Outcome.next h), askRetry_leaves s n⟩
  refine ⟨⟨_, exec_flitReceive_uncorrectable hx hlen, fr_bump (fr_refl _ s) _ _ _ _ (by decide), counter_bump_self ..⟩,
    fun hcrc => hasks (flitIn_badCrc hcrc), fun hcrc hidle => ?idle, fun hcrc hidle horder => hasks (flitIn_outOfOrder hcrc hidle horder),
    fun hcrc hidle horder hkey => ⟨fun hsec htag => hasks (flitIn_badTag hcrc hidle horder hkey hsec htag), fun htag => ?good⟩⟩
  case idle =>
    have hsent := Sends.pump (linkTaken s n bytes) n
    exact ⟨_, hexec.trans (congrArg Host.Outcome.next (flitIn_idle hcrc hidle)),
      fr_trans (fr_updPort (fr_refl _ s) _ _ (by decide)) hsent.leaves.frame, (linkTaken_is s n bytes).leave hsent.leaves⟩
  case good =>
    have hin := hexec.trans (congrArg Host.Outcome.next (flitIn_goodTag (errors := errors) hcrc hidle horder hkey htag))
    refine ⟨fun hctl => ?_, fun hdata hdst hhop => ?_⟩
    · have hacc := accepted_control (s := s) (n := n) (errors := errors) hctl
      exact ⟨_, hin, hacc.frame, hacc.counted, hacc.answered, hacc.core⟩
    · have hacc := accepted_forward (errors := errors) hdata hdst hhop
      exact ⟨_, hin, hacc.frame, hacc.counted, hacc.answered, hacc.core⟩

end Sys2Proof.Proofs


/-! The keys between racks and the signing engines (R397, R398, R400, R440): a transcript that is signed, keys that come into force, a rekey that switches, and the three engines. From them the statement on link keys. -/

namespace Sys2Proof.Proofs

open Sys2Proof.Machine Sys2Proof.Safety Sys2Proof.Laws

theorem PortIs.congr {s t : State} {n : Nat} {y z : PortStateRec} (h : PortIs s t n y) (hz : portCore y = portCore z) : PortIs s t n z :=
  ⟨h.1.trans hz, h.2⟩

/-! ## Transcripts (R397) -/

section Transcript

variable {s t : State} {n : Nat} {y : PortStateRec} {e : KeyExchange}

theorem exchange_of_portIs (h : PortIs s t n y) : (t.port n).exchange = y.exchange := (congrArg PortStateRec.exchange h.1 :)

/-- An exchange whose transcript is known: a rekey is signed. -/
def signedAtOnce (e : KeyExchange) : KeyExchange := { e with signed := e.rekey || e.signed }

/-- What is done about a transcript: a rekey's goes out signed, a first exchange's waits for engine C (R397, R440). -/
structure Signs (t u : State) (n : Nat) (e : KeyExchange) : Prop where
  out : OutGrows t u
  waits : e.rekey = false → u.lks = { t.lks with engineC := t.lks.engineC ++ [n] }
  signs : e.rekey = true → u.lks = t.lks ∧ Output.keyExchange n 2 (Config.signature 0 (sha384 e.transcript.flatten)) ∈ u.out

theorem signedAtOnce_first (h : e.rekey = false) : signedAtOnce e = e := by
  obtain ⟨⟩ := e
  cases h
  rfl

theorem signedAtOnce_rekey (h : e.rekey = true) : signedAtOnce e = { e with signed := true } := by
  unfold signedAtOnce
  rw [h, Bool.true_or]

theorem signTranscript_first (he : (t.port n).exchange = some e) (hr : e.rekey = false) :
    t.signTranscript n = t.updLks (fun l => { l with engineC := l.engineC ++ [n] }) := by
  unfold State.signTranscript
  rw [he]
  exact if_neg (by simp [hr])

theorem signTranscript_rekey (he : (t.port n).exchange = some e) (hr : e.rekey = true) :
    t.signTranscript n = ((t.updPort n (fun x => { x with exchange := some { e with signed := true } })).controlFlit n 4).emit
      (.keyExchange n 2 (Config.signature 0 (sha384 e.transcript.flatten))) := by
  unfold State.signTranscript
  rw [he]
  exact if_pos hr

theorem signTranscript_signs (h : PortIs s t n { y with exchange := some e }) :
    PortIs s (t.signTranscript n) n { y with exchange := some (signedAtOnce e) } ∧ Signs t (t.signTranscript n) n e := by
  have hexchange : (t.port n).exchange = some e := exchange_of_portIs h
  cases hr : e.rekey
  · rw [signTranscript_first hexchange hr, signedAtOnce_first hr]
    exact ⟨h.same fun _ => rfl, outGrows_same rfl, fun _ => rfl, fun hrekey => absurd (hr.symm.trans hrekey) (by decide)⟩
  · rw [signTranscript_rekey hexchange hr, signedAtOnce_rekey hr]
    have hsigned := h.updPort (f := fun x => { x with exchange := some { e with signed := true } }) (fun _ => rfl)
    have hsent := Sends.sayWith (t.updPort n (fun x => { x with exchange := some { e with signed := true } })) n 4
      (.keyExchange n 2 (Config.signature 0 (sha384 e.transcript.flatten)))
    exact ⟨hsigned.leave hsent.leaves, outGrows_trans (outGrows_same rfl) hsent.leaves.out, fun hrekey => absurd (hr.symm.trans hrekey) (by decide),
      fun _ => ⟨hsent.leaves.frame.kept .lks (by decide), .head _⟩⟩

end Transcript

/-! ## Keys in force (R395, R397, R398) -/

section KeysReady

variable {s : State} {n : Nat} {e : KeyExchange} (he : (s.port n).exchange = some e)

/-- A port whose first keys are in force. -/
def firstKeys (e : KeyExchange) (x : PortStateRec) : PortStateRec :=
  { x with exchange := none, linkKeys := e.keys, keySalt := e.secret, secure := true, keyId := false, txCount := 0, rxCount := 0 }

/-- A port that holds the keys of a rekey. -/
def heldKeys (e : KeyExchange) (x : PortStateRec) : PortStateRec := { x with exchange := none, newKeys := e.keys, keySalt := e.secret }

/-- The routes are looked at again where a port's rekey had stalled. -/
def stallEnds (t : State) (stalled : Bool) : State := t.updFab (fun f => if stalled then { f with portChanged := true } else f)

/-- A switch of this direction's keys is counted, and the flits that waited go out. -/
def switchCounted (t : State) (n : Nat) : State := (t.bump dev (pFab n) 5 1).pump n

include he

theorem keysReady_waits (h : e.signed = false ∨ e.peerVerified = false) : s.keysReady n = s := by
  unfold State.keysReady
  dsimp only
  rw [he]
  exact if_pos (by rcases h with h | h <;> simp [h])

theorem keysReady_first (hs : e.signed = true) (hp : e.peerVerified = true) (hk : e.keys ≠ []) (hr : e.rekey = false) :
    s.keysReady n = ((s.updPort n (firstKeys e)).portUp n).offerOn n := by
  unfold State.keysReady
  dsimp only
  rw [he]
  exact (if_neg (by simp [hs, hp, hk])).trans (if_neg (by simp [hr]))

theorem keysReady_rekey (hs : e.signed = true) (hp : e.peerVerified = true) (hk : e.keys ≠ []) (hr : e.rekey = true) :
    s.keysReady n = if s.fab.self < (s.port n).peerDevice then
        switchCounted (stallEnds ((s.updPort n (heldKeys e)).updPort n PortStateRec.switchTx) (s.port n).rekeyStalled) n
      else s.updPort n (heldKeys e) := by
  unfold State.keysReady
  dsimp only
  rw [he]
  exact (if_neg (by simp [hs, hp, hk])).trans (if_pos hr)

end KeysReady

theorem stallEnds_port (t : State) (b : Bool) (p : Nat) : (stallEnds t b).port p = t.port p := by
  cases b <;> rfl

theorem PortIs.switchCounted {s t : State} {n : Nat} {y : PortStateRec} (h : PortIs s t n y) (b : Bool) :
    PortIs s (switchCounted (stallEnds t b) n) n y :=
  PortIs.leave (t := (stallEnds t b).bump dev (pFab n) 5 1) ((h.same (stallEnds_port t b)).same fun _ => rfl) (Sends.pump _ n).leaves

theorem switchCounted_counter (t : State) (n : Nat) :
    (switchCounted t n).counter dev (pFab n) 5 = t.counter dev (pFab n) 5 + 1 :=
  ((Sends.pump (t.bump dev (pFab n) 5 1) n).leaves.counter _ _ _ (by decide)).trans (counter_bump_self ..)

theorem BesideTraffic.comp {f g : PortStateRec → PortStateRec} (hf : BesideTraffic f) (hg : BesideTraffic g) : BesideTraffic (f ∘ g) :=
  fun x => (hf (g x)).trans ((congrArg (portCore ∘ f) (hg x)).trans (hf (g (portCore x))).symm)

/-- A change of a port that looks at nothing of its traffic. -/
theorem BesideTraffic.ite {c : PortStateRec → Prop} [DecidablePred c] {f g : PortStateRec → PortStateRec} (hc : ∀ x, c (portCore x) ↔ c x)
    (hf : BesideTraffic f) (hg : BesideTraffic g) : BesideTraffic (fun x => if c x then f x else g x) := fun x => by
  by_cases h : c x
  · simp only [if_pos h, if_pos ((hc x).2 h), ← hf x]
  · simp only [if_neg h, if_neg (mt (hc x).1 h), ← hg x]

theorem BesideTraffic.id : BesideTraffic id := fun _ => rfl

theorem besideTraffic_settleKeys : BesideTraffic PortStateRec.settleKeys :=
  .ite (c := fun x => (x.txNew && x.rxNew) = true) (fun _ => .rfl) (fun _ => rfl) .id

theorem besideTraffic_switchTx : BesideTraffic PortStateRec.switchTx :=
  .ite (c := fun x => x.newKeys.isEmpty = true ∨ x.txNew = true) (fun _ => .rfl) .id (besideTraffic_settleKeys.comp fun _ => rfl)

theorem besideTraffic_switchRx : BesideTraffic PortStateRec.switchRx :=
  .ite (c := fun x => x.newKeys.isEmpty = true ∨ x.rxNew = true) (fun _ => .rfl) .id (besideTraffic_settleKeys.comp fun _ => rfl)

/-! ## The messages of an exchange (R397, R398) -/

section Switch

variable {x : PortStateRec}

/-- A port that holds new keys and takes them in its own direction first. -/
theorem switchTx_first (hk : x.newKeys ≠ []) (htx : x.txNew = false) (hrx : x.rxNew = false) :
    x.switchTx = { x with txNew := true, keyId := !x.keyId, txCount := 0, rekeyStalled := false } := by
  unfold PortStateRec.switchTx PortStateRec.settleKeys
  rw [if_neg (by simp [hk, htx]), if_neg (by simp [hrx])]

/-- Once the peer's flits come under the new keys both directions use them (R398). -/
theorem portCore_switched (hk : x.newKeys ≠ []) (hopen : x.txNew = false ∨ x.rxNew = false) :
    portCore x.switchTx.switchRx = portCore { x with
      linkKeys := x.newKeys, newKeys := [], txNew := false, rxNew := false, keyId := if x.txNew then x.keyId else !x.keyId,
      rekeyStalled := false, rxCount := if x.rxNew then x.rxCount else 0 } := by
  cases htx : x.txNew <;> cases hrx : x.rxNew
  case true.true => simp [htx, hrx] at hopen
  all_goals simp [PortStateRec.switchTx, PortStateRec.switchRx, PortStateRec.settleKeys, portCore, htx, hrx, hk]

end Switch

section Messages

variable {s : State} {port : Fin 18}

theorem exec_keyExchangeMessage (hr : interRack port.val = true) (m : KeyMessage) :
    exec (.keyExchangeMessage port m) s = .next (s.keyMessage port.val m) := congrArg Host.Outcome.next (if_pos hr)

/-- The responder's ciphertext and public key, and its exchange (R397). -/
def responseTo (s : State) (ek : List Byte) : List Byte :=
  (Config.encapsulate s.lks.draws ek).1 ++ Config.publicKey (s.lks.draws + 1)

def responding (s : State) (n : Nat) (ek pub : List Byte) : KeyExchange :=
  KeyExchange.derive
    { transcript := [ek ++ pub, responseTo s ek], sent := true, ecdh := some (s.lks.draws + 1), rekey := (s.port n).state == .up }
    (s.port n).keySalt ((Config.encapsulate s.lks.draws ek).2 ++ Config.ecdh (s.lks.draws + 1) pub)

/-- The state once the responder has answered. -/
def responded (s : State) (n : Nat) (ek pub : List Byte) : State :=
  ((s.takeDraw.2.takeDraw.2.updPort n (fun y => { y with exchange := some (responding s n ek pub) })).controlFlit n 4).emit
    (.keyExchange n 1 (responseTo s ek))

theorem keyMessage_initiate {n : Nat} {ek pub : List Byte} (hlow : (s.port n).peerDevice < s.fab.self)
    (hx : (s.port n).state = .keying ∨ (s.port n).state = .up) :
    s.keyMessage n (.initiate ek pub) = (responded s n ek pub).signTranscript n := if_pos ⟨hlow, hx⟩

theorem responded_is (s : State) (n : Nat) (ek pub : List Byte) :
    PortIs s (responded s n ek pub) n { s.port n with exchange := some (responding s n ek pub) } ∧
      (responded s n ek pub).lks = { s.lks with draws := s.lks.draws + 2 } ∧ Output.keyExchange n 1 (responseTo s ek) ∈ (responded s n ek pub).out := by
  have hsent := Sends.sayWith (s.takeDraw.2.takeDraw.2.updPort n (fun y => { y with exchange := some (responding s n ek pub) })) n 4
    (.keyExchange n 1 (responseTo s ek))
  have hcore : PortIs s s.takeDraw.2.takeDraw.2 n (s.port n) := ⟨rfl, fun _ _ => rfl⟩
  exact ⟨(hcore.updPort (f := fun y => { y with exchange := some (responding s n ek pub) }) (fun _ => rfl)).leave hsent.leaves,
    hsent.leaves.frame.kept .lks (by decide), .head _⟩

/-- The initiator's exchange once the response has come (R397). -/
def derived (s : State) (n : Nat) (e : KeyExchange) (a b : Nat) (ct pub : List Byte) : KeyExchange :=
  KeyExchange.derive { e with transcript := e.transcript ++ [ct ++ pub] } (s.port n).keySalt (Config.decapsulate a ct ++ Config.ecdh b pub)

theorem keyMessage_respond {n : Nat} {e : KeyExchange} {a b : Nat} {ct pub : List Byte} (he : (s.port n).exchange = some e)
    (ha : e.kem = some a) (hb : e.ecdh = some b) (hk : e.keys = []) :
    s.keyMessage n (.respond ct pub) =
      (s.updPort n (fun y => { y with exchange := some (derived s n e a b ct pub) })).signTranscript n := by
  obtain ⟨⟩ := e
  cases ha
  cases hb
  unfold State.keyMessage
  dsimp only
  rw [he]
  exact if_pos (List.isEmpty_iff.2 hk)

/-- The peer's signature has verified. -/
def peerVerified (s : State) (n : Nat) (e : KeyExchange) : State :=
  s.updPort n (fun y => { y with exchange := some { e with peerVerified := true } })

theorem keyMessage_signature {n : Nat} {e : KeyExchange} {slh : Bool} (he : (s.port n).exchange = some e) (hslh : slh = true ∨ e.rekey = true)
    (hk : e.keys ≠ []) : s.keyMessage n (.signature slh true) = (peerVerified s n e).keysReady n := by
  unfold State.keyMessage
  dsimp only
  rw [he]
  exact if_pos (by rcases hslh with h | h <;> simp [h, hk])

theorem keyMessage_signature_refused {n : Nat} {slh : Bool} : s.keyMessage n (.signature slh false) = s := by
  unfold State.keyMessage
  dsimp only
  split <;> rfl

theorem peerVerified_is (s : State) (n : Nat) (e : KeyExchange) :
    PortIs s (peerVerified s n e) n { s.port n with exchange := some { e with peerVerified := true } } :=
  .of_updPort s n (fun y => { y with exchange := some { e with peerVerified := true } })

theorem peerVerified_exchange (s : State) (n : Nat) (e : KeyExchange) :
    ((peerVerified s n e).port n).exchange = some { e with peerVerified := true } := exchange_of_portIs (peerVerified_is s n e)

/-- The keys of a rekey on a side that has no switch under way (R398). -/
theorem rekeyed_leaves {n : Nat} {e : KeyExchange} (hs : e.signed = true) (hr : e.rekey = true) (hk : e.keys ≠ [])
    (htx : (s.port n).txNew = false) (hrx : (s.port n).rxNew = false) :
    let t := (peerVerified s n e).keysReady n
    (s.fab.self < (s.port n).peerDevice → t.counter dev (pFab n) 5 = s.counter dev (pFab n) 5 + 1 ∧
      PortIs s t n { s.port n with exchange := none, newKeys := e.keys, keySalt := e.secret, txNew := true, keyId := !(s.port n).keyId, rekeyStalled := false }) ∧
    ((s.port n).peerDevice ≤ s.fab.self → PortIs s t n { s.port n with exchange := none, newKeys := e.keys, keySalt := e.secret }) := by
  have hverified := peerVerified_is s n e
  have hheld := hverified.updPort (f := heldKeys { e with peerVerified := true }) (fun _ => rfl)
  have hpeer : ((peerVerified s n e).port n).peerDevice = (s.port n).peerDevice := (congrArg PortStateRec.peerDevice hverified.1 :)
  dsimp only
  rw [keysReady_rekey (peerVerified_exchange s n e) hs rfl hk hr, hpeer]
  refine ⟨fun hlow => ?_, fun hhigh => ?_⟩
  · rw [if_pos (show (peerVerified s n e).fab.self < _ from hlow)]
    refine ⟨(switchCounted_counter _ n).trans (congrArg (· + 1) ?_), ?_⟩
    · cases ((peerVerified s n e).port n).rekeyStalled <;> rfl
    · have hswitch := switchTx_first (x := heldKeys { e with peerVerified := true } { s.port n with exchange := some { e with peerVerified := true } }) hk htx hrx
      exact ((hheld.updPort besideTraffic_switchTx).switchCounted _).congr ((congrArg portCore hswitch).trans rfl)
  · rw [if_neg (show ¬ (peerVerified s n e).fab.self < _ from Nat.not_lt.2 hhigh)]
    exact hheld

theorem keySwitch_eq {n : Nat} (hk : (s.port n).newKeys ≠ []) : s.keySwitch n =
    (if (s.port n).txNew then stallEnds (s.updPort n (fun y => y.switchTx.switchRx)) (s.port n).rekeyStalled
      else (stallEnds (s.updPort n (fun y => y.switchTx.switchRx)) (s.port n).rekeyStalled).bump dev (pFab n) 5 1).pump n :=
  if_neg (by simp [hk])

/-- The first flit under the new KEYID switches what is left, and a switch of this direction is counted (R398). -/
theorem keySwitch_leaves {n : Nat} (hk : (s.port n).newKeys ≠ []) (hopen : (s.port n).txNew = false ∨ (s.port n).rxNew = false) :
    (s.keySwitch n).counter dev (pFab n) 5 = s.counter dev (pFab n) 5 + (if (s.port n).txNew then 0 else 1) ∧
      PortIs s (s.keySwitch n) n { s.port n with
        linkKeys := (s.port n).newKeys, newKeys := [], txNew := false, rxNew := false,
        keyId := if (s.port n).txNew then (s.port n).keyId else !(s.port n).keyId, rekeyStalled := false,
        rxCount := if (s.port n).rxNew then (s.port n).rxCount else 0 } := by
  have hswitched := ((PortIs.of_updPort s n (fun y => y.switchTx.switchRx)).same (stallEnds_port _ (s.port n).rekeyStalled)).congr
    (portCore_switched hk hopen)
  rw [keySwitch_eq hk]
  generalize hu : stallEnds (s.updPort n (fun y => y.switchTx.switchRx)) (s.port n).rekeyStalled = u at hswitched ⊢
  have hcounter : u.counter dev (pFab n) 5 = s.counter dev (pFab n) 5 := by
    rw [← hu]
    cases (s.port n).rekeyStalled <;> rfl
  by_cases htx : (s.port n).txNew = true
  · have hsent := Sends.pump u n
    rw [if_pos htx, if_pos htx]
    exact ⟨((hsent.leaves.counter _ _ _ (by decide)).trans hcounter).trans (BitVec.add_zero _).symm, hswitched.leave hsent.leaves⟩
  · rw [if_neg htx, if_neg htx]
    exact ⟨(switchCounted_counter u n).trans (congrArg (· + 1) hcounter),
      PortIs.leave (t := u.bump dev (pFab n) 5 1) (hswitched.same fun _ => rfl) (Sends.pump _ n).leaves⟩

end Messages

/-! ## The signing engines (R440) -/

/-- From t to u port p alone has been served: the requests of Locksmith stand, and what was put out stays out. -/
structure PortServed (t u : State) (p : Nat) : Prop where
  others : ∀ q, q ≠ p → portCore (u.port q) = portCore (t.port q)
  out : OutGrows t u
  lks : u.lks = t.lks

namespace PortServed

variable {t u w : State} {p : Nat}

theorem refl (t : State) (p : Nat) : PortServed t t p := ⟨fun _ _ => rfl, outGrows_refl t, rfl⟩

theorem trans (h : PortServed t u p) (k : PortServed u w p) : PortServed t w p :=
  ⟨fun q hq => (k.others q hq).trans (h.others q hq), outGrows_trans h.out k.out, k.lks.trans h.lks⟩

theorem updPort (t : State) (p : Nat) (f : PortStateRec → PortStateRec) : PortServed t (t.updPort p f) p :=
  ⟨(PortIs.of_updPort t p f).2, outGrows_same rfl, rfl⟩

theorem sends (h : Sends t u) (p : Nat) : PortServed t u p :=
  ⟨fun q _ => h.leaves.ports q, h.leaves.out, h.leaves.frame.kept .lks (by decide)⟩

theorem portUp (t : State) (p : Nat) : PortServed t (t.portUp p) p := by
  have hup := updPort t p ({ · with state := .up })
  refine ⟨fun q hq => ?_, outGrows_trans (outGrows_same rfl) (outGrows_raiseDev (portNoticed (t.updPort p ({ · with state := .up }))) (pFab p) 1), ?_⟩
  · rw [portUp_eq, raiseDev_port]
    exact hup.others q hq
  · rw [portUp_eq, (raiseDev_frame _ (pFab p) 1).kept .lks (by decide)]
    rfl

theorem switchCounted (t : State) (b : Bool) (p : Nat) : PortServed t (switchCounted (stallEnds t b) p) p := by
  refine .trans (u := (stallEnds t b).bump dev (pFab p) 5 1) ?_ (sends (.pump _ p) p)
  cases b <;> exact ⟨fun _ _ => rfl, outGrows_same rfl, rfl⟩

theorem keysReady (t : State) (p : Nat) : PortServed t (t.keysReady p) p := by
  unfold State.keysReady
  dsimp only
  split
  · exact refl t p
  · split
    · exact refl t p
    · split
      · split
        · exact ((updPort t p _).trans (updPort _ p _)).trans (switchCounted _ _ p)
        · exact updPort t p _
      · exact ((updPort t p _).trans (portUp _ p)).trans (sends (.offerOn _ p) p)

end PortServed

/-- The hashes of the transcripts that wait for engine C. -/
def waitingHashes (s : State) : List Byte :=
  s.lks.engineC.flatMap (fun p => match (s.port p).exchange with | some e => sha384 e.transcript.flatten | none => [])

/-- One port's transcript is signed by engine C. -/
def signPort (sig : List Byte) (t : State) (p : Nat) : State :=
  match (t.port p).exchange with
  | some e =>
    (((t.updPort p (fun x => { x with exchange := some { e with signed := true } })).controlFlit p 4).emit (.keyExchange p 3 sig)).keysReady p
  | none => t

theorem signC_eq (s : State) : s.signC =
    s.lks.engineC.foldl (signPort (Config.signature 0 (waitingHashes s) ++ Config.signature 1 (waitingHashes s)))
      (s.updLks (fun l => { l with engineC := [] })) := rfl

theorem signPort_served (sig : List Byte) (t : State) (p : Nat) : PortServed t (signPort sig t p) p := by
  unfold signPort
  split
  · exact ((PortServed.updPort t p _).trans (.sends (.sayWith _ p 4 _) p)).trans (.keysReady _ p)
  · exact .refl t p

theorem signPort_says {sig : List Byte} {t : State} {p : Nat} (h : (t.port p).exchange.isSome = true) :
    Output.keyExchange p 3 sig ∈ (signPort sig t p).out := by
  obtain ⟨e, he⟩ := Option.isSome_iff_exists.1 h
  unfold signPort
  rw [he]
  exact outGrows_mem (PortServed.keysReady _ p).out (List.mem_cons_self ..)

theorem foldl_signPort_out (sig : List Byte) (l : List Nat) (t : State) : OutGrows t (l.foldl (signPort sig) t) :=
  foldl_keeps (OutGrows t) _ (fun _ p h => outGrows_trans h (signPort_served sig _ p).out) l (outGrows_refl t)

theorem foldl_signPort_lks (sig : List Byte) (l : List Nat) (t : State) : (l.foldl (signPort sig) t).lks = t.lks :=
  foldl_keeps (fun u : State => u.lks = t.lks) _ (fun _ p h => (signPort_served sig _ p).lks.trans h) l rfl

/-- Each port that waits sends the common signatures. -/
theorem foldl_signPort_says (sig : List Byte) {p : Nat} (l : List Nat) : ∀ t : State, p ∈ l → (t.port p).exchange.isSome = true →
    Output.keyExchange p 3 sig ∈ (l.foldl (signPort sig) t).out := by
  induction l with
  | nil => exact fun _ hp => absurd hp List.not_mem_nil
  | cons q r ih =>
    intro t hp he
    rw [List.foldl_cons]
    by_cases hq : p = q
    · subst hq
      exact outGrows_mem (foldl_signPort_out sig r _) (signPort_says he)
    · have hsame : ((signPort sig t q).port p).exchange = (t.port p).exchange :=
        (congrArg PortStateRec.exchange ((signPort_served sig t q).others p hq) :)
      exact ih _ ((List.mem_cons.1 hp).resolve_left hq) (hsame ▸ he)

/-- A report says nothing of Locksmith's queues and of free values. -/
theorem report_other (s : State) (l : LksState) (n : Nat) (kind d : Nat) (nonce : List Byte) :
    State.report { s with lks := l, freeCtr := n } kind d nonce = s.report kind d nonce := by
  unfold State.report
  have hbody : State.reportBody { s with lks := l, freeCtr := n } kind d nonce = s.reportBody kind d nonce := by
    unfold State.reportBody
    rfl
  rw [hbody]

/-- Engine A has signed a creation report. -/
theorem signA_signs {s : State} {d : Nat} {r : List Nat} (h : s.lks.engineA = d :: r) :
    ∃ t, exec (.reportSigned 0) s = .next t ∧ t = { s with lks := t.lks, freeCtr := t.freeCtr, out := t.out } ∧
      t.lks = { s.lks with engineA := r } ∧ Output.report d (s.report 0 d ((List.range 48).map (Config.freeByte s.freeCtr))) ∈ t.out := by
  have hsigned : s.signA = (s.takeFree.2.updLks (fun l => { l with engineA := r })).emit
      (.report d (s.takeFree.2.report 0 d ((List.range 48).map (Config.freeByte s.freeCtr)))) := by
    unfold State.signA
    rw [h]
    rfl
  have hreport : s.takeFree.2.report 0 d _ = _ := report_other s s.lks (s.freeCtr + 1) 0 d ((List.range 48).map (Config.freeByte s.freeCtr))
  rw [hreport] at hsigned
  exact ⟨_, congrArg Host.Outcome.next ((if_pos rfl).trans hsigned), rfl, rfl, .head _⟩

/-- A final status counts nothing. -/
theorem counter_lksFinal (s : State) (c op st d : Nat) {e g i : Nat} (h : Untraced e g i) :
    (s.lksFinal c op st d).counter e g i = s.counter e g i := by
  have hraised : ((s.putPair c pLks { s.pair c pLks with done := w64 (lksWord st op + 2 ^ 63) }).raiseCopy pLks 0 c).counter e g i =
      s.counter e g i := counter_raiseCopy _ _ _ _ h
  unfold State.lksFinal
  dsimp only
  split
  · exact (counter_congr (msix_counters _ 0 (32 + d)) e g i).trans hraised
  · exact hraised

/-- Engine B's report stands in the commons, counted. -/
def reportWritten (s : State) (a d : Nat) (r : List (Nat × Nat × Nat)) : State :=
  ((s.updLks (fun l => { l with engineB := r })).wrCommons a (s.report 1 d (memGet s.commons a 48))).bump dev pLks 0 1

theorem signB_eq {s : State} {c d o a : Nat} {r : List (Nat × Nat × Nat)} (h : s.lks.engineB = (c, d, o) :: r)
    (hw : s.window (copyFn c) o 40960 = some a) (hd : (s.dom d).alive = true) :
    s.signB = (reportWritten s a d r).lksFinal c 0x0A 0x00 d := by
  have hreport := report_other s { s.lks with engineB := r } s.freeCtr 1 d (memGet s.commons a 48)
  unfold State.signB reportWritten
  rw [h, ← hreport]
  dsimp only
  rw [show (s.updLks (fun l => { l with engineB := r })).window (copyFn c) o 40960 = some a from hw]
  exact if_neg (by simpa using hd)

/-- Engine B has signed a report of ATTEST: it stands in the caller's window, and the request is DONE. -/
theorem signB_signs {s : State} {c d o a : Nat} {r : List (Nat × Nat × Nat)} (h : s.lks.engineB = (c, d, o) :: r)
    (hw : s.window (copyFn c) o 40960 = some a) (hd : (s.dom d).alive = true) :
    ∃ t, exec (.reportSigned 1) s = .next t ∧ t.lks = { s.lks with engineB := r } ∧ LksFinished t c 0x00 0x0A d ∧
      t.commons = memPut s.commons a (s.report 1 d (memGet s.commons a 48)) ∧ t.counter dev pLks 0 = s.counter dev pLks 0 + 1 := by
  have hframe := lksFinal_frame (reportWritten s a d r) c 0x0A 0x00 d
  refine ⟨_, congrArg Host.Outcome.next ((if_neg (by decide)).trans ((if_pos rfl).trans (signB_eq h hw hd))), hframe.kept .lks (by decide),
    lksFinal_finished .., hframe.kept .commons (by decide), ?_⟩
  exact (counter_lksFinal _ _ _ _ _ ⟨by decide, by decide⟩).trans (counter_bump_self ..)

/-! ## A rekey (R398, R400) -/

section Rekey

variable {s : State} {port : Fin 18}

theorem exec_rekey (hr : interRack port.val = true) (hup : (s.port port.val).state = .up) (hsec : (s.port port.val).secure = true)
    (he : (s.port port.val).exchange = none) (hk : (s.port port.val).newKeys = []) :
    exec (.rekey port) s = .next (s.startExchange port.val true) :=
  congrArg Host.Outcome.next (if_pos ⟨hr, hup, hsec, by simp [he], by simp [hk]⟩)

/-- A rekey that has not switched in time stalls its port. -/
theorem rekeyStall_leaves (hup : (s.port port.val).state = .up) (hsec : (s.port port.val).secure = true) (hs : (s.port port.val).rekeyStalled = false)
    (hopen : (∃ e, (s.port port.val).exchange = some e ∧ e.rekey = true) ∨ (s.port port.val).newKeys ≠ []) :
    ∃ t, exec (.rekeyStall port) s = .next t ∧ OnlyPort s t port.val ∧ t.port port.val = { s.port port.val with rekeyStalled := true } ∧
      t.fab.portChanged = true ∧ EventIn t (s.devCopies (pFab port.val) 4) (pFab port.val) 4 := by
  have hwaits : ((s.port port.val).exchange.map (fun e => e.rekey)).getD false = true ∨ (!(s.port port.val).newKeys.isEmpty) = true := by
    rcases hopen with ⟨e, he, hrekey⟩ | hk
    · exact .inl (by simp [he, hrekey])
    · exact .inr (by simp [hk])
  have hexec : exec (.rekeyStall port) s =
      .next ((portNoticed (s.updPort port.val (fun y => { y with rekeyStalled := true }))).raiseDev (pFab port.val) 4) :=
    congrArg Host.Outcome.next (if_pos ⟨hup, hsec, by simp [hs], hwaits⟩)
  refine ⟨_, hexec, fun j hj => ?_, ?_, ?_, raiseDev_eventIn rfl (by decide)⟩
  · rw [raiseDev_port]
    exact onlyPort_updPort s _ (fun y => { y with rekeyStalled := true }) j hj
  · rw [raiseDev_port]
    exact port_updPort_self s _ (fun y => { y with rekeyStalled := true })
  · rw [raiseDev_fab]
    rfl

end Rekey

/-! ## The statement -/

/-- Settles O50: a rekey, the messages of an exchange and the three engines, each by its lemmas. -/
theorem linkKeys : Obligations.LinkKeys := by
  unfold Obligations.LinkKeys
  intro s port ek ct pub slh n x i core salt derived_ signs message
  refine ⟨?rekey, ?stall, ?initiate, ?exchange, ?switched, fun d r h => signA_signs h, fun c d o r a h hw hd => signB_signs h hw hd, ?engineC⟩
  case rekey =>
    intro hr hup hsec hnone hkeys
    obtain ⟨-, e, hrekey, hcore, hsent⟩ := startExchange_starts (s := s) (t := s) (n := n) (y := x) ⟨rfl, fun _ _ => rfl⟩ true
    exact ⟨_, e, exec_rekey hr hup hsec hnone hkeys, hrekey, hcore, hsent⟩
  case stall => exact fun hup hsec hs hopen => rekeyStall_leaves hup hsec hs hopen
  case initiate =>
    intro hr hlow hx
    obtain ⟨hcore, hlks, hout⟩ := responded_is s n ek pub
    obtain ⟨hsigned, hsigns⟩ := signTranscript_signs hcore
    refine ⟨_, (exec_keyExchangeMessage hr _).trans (congrArg Host.Outcome.next (keyMessage_initiate hlow hx)), hsigned,
      outGrows_mem hsigns.out hout, fun hfirst => ?_, fun hagain => ?_⟩
    · rw [hsigns.waits hfirst, hlks]
    · exact ⟨(hsigns.signs hagain).1.trans hlks, (hsigns.signs hagain).2⟩
  case exchange =>
    intro e hr he
    have hexec (m : KeyMessage) := exec_keyExchangeMessage (s := s) hr m
    refine ⟨fun a b ha hb hk => ?_, (hexec _).trans (congrArg Host.Outcome.next keyMessage_signature_refused), fun hslh hk => ?_⟩
    · obtain ⟨hcore, hsigns⟩ := signTranscript_signs
        (PortIs.of_updPort s n (fun y => { y with exchange := some (derived s n e a b ct pub) }))
      exact ⟨_, (hexec _).trans (congrArg Host.Outcome.next (keyMessage_respond he ha hb hk)), hcore, hsigns.waits, hsigns.signs⟩
    · have hin := (hexec (.signature slh true)).trans (congrArg Host.Outcome.next (keyMessage_signature he hslh hk))
      have hverified := peerVerified_is s n e
      have hexchange := peerVerified_exchange s n e
      refine ⟨fun hs => ?_, fun hs hfirst => ?_, fun hs hagain htx hrx => ⟨_, hin, rekeyed_leaves hs hagain hk htx hrx⟩⟩
      · rw [show (peerVerified s port.val e).keysReady port.val = peerVerified s n e from keysReady_waits hexchange (.inl hs)] at hin
        exact ⟨_, hin, fr_updPort (fr_refl _ s) _ _ (by decide), hverified⟩
      · rw [show (peerVerified s port.val e).keysReady port.val = _ from keysReady_first hexchange hs rfl hk hfirst] at hin
        exact ⟨_, hin, portUp_offers (hverified.updPort (f := firstKeys { e with peerVerified := true }) (fun _ => rfl)) rfl⟩
  case switched => exact fun hr hk hopen => ⟨_, exec_keyExchangeMessage hr _, keySwitch_leaves hk hopen⟩
  case engineC =>
    refine ⟨_, congrArg Host.Outcome.next ((if_neg (by decide)).trans ((if_neg (by decide)).trans (signC_eq s))), foldl_signPort_lks .., fun p hp he => ?_⟩
    exact foldl_signPort_says _ s.lks.engineC _ hp he

end Sys2Proof.Proofs


/-! Answers and collective data (R377, R380, R386, R388, R401, R402): an operation of the collective engine that an answer changes, one that fails, data that wait, and data without an open collective. From them the statement on answers and collectives. -/

namespace Sys2Proof.Proofs

open Sys2Proof.Machine Sys2Proof.Safety Sys2Proof.Laws

/-! ## The operations of a domain -/

section Operations

variable (s : State) (d : Nat)

/-- The operations with that of a COLL_ID changed. -/
def opsWith (l : List CollOp) (id : W32) (f : CollOp → CollOp) : List CollOp := l.map (fun o => if o.id = id then f o else o)

theorem updOp_col (id : W32) (f : CollOp → CollOp) :
    ((s.updOp d id f).dom d).col = { (s.dom d).col with ops := opsWith (s.dom d).col.ops id f } := by
  rw [State.updOp, dom_updDom_self]
  rfl

theorem updOp_slabs (id : W32) (f : CollOp → CollOp) : ((s.updOp d id f).dom d).slabs = (s.dom d).slabs := by
  rw [State.updOp, dom_updDom_self]
  rfl

theorem StaysIn.updOp (id : W32) (f : CollOp → CollOp) : StaysIn d s (s.updOp d id f) := .updDom d s _

theorem updSlab_col (order : Nat) (f : Slab → Slab) : ((s.updSlab d order f).dom d).col = (s.dom d).col := by
  rw [State.updSlab, dom_updDom_self]
  rfl

/-- Two changes of the operation with a COLL_ID, the second of one that keeps the COLL_ID, are one. -/
theorem opsWith_opsWith (l : List CollOp) (id : W32) (f g : CollOp → CollOp) (hf : ∀ o, (f o).id = id) :
    opsWith (opsWith l id f) id g = opsWith l id (fun o => g (f o)) := by
  unfold opsWith
  rw [List.map_map]
  refine List.map_congr_left fun o _ => ?_
  by_cases h : o.id = id
  · simp [h, hf]
  · simp [h]

/-- An operation that fails: its slab takes the status, and it is marked (R388). -/
theorem opFails_leaves (o : CollOp) (st : Status) :
    StaysIn d s (s.opFails d o st) ∧ Frame [.domSlabs, .domCol] s (s.opFails d o st) ∧
      ((s.opFails d o st).dom d).slabs = slabsWith (s.dom d).slabs o.order (fun b => { b with status := b.status.worse st }) ∧
      ((s.opFails d o st).dom d).col = { (s.dom d).col with ops := opsWith (s.dom d).col.ops o.id (fun y => { y with failed := true }) } := by
  refine ⟨(StaysIn.updOp s d _ _).trans (.updSlab ..), fr_opFails (fr_refl _ s) d o st (by decide), ?_, ?_⟩
  · rw [State.opFails, updSlab_slabs, updOp_slabs]
  · rw [State.opFails, updSlab_col, updOp_col]

end Operations

/-! ## Answers (R377, R388) -/

section Answer

variable {s : State} {t : Txn} {n at_ : Nat} {o : CollOp}

/-- The operation once an answer has come, its data in the engine's buffer where it is OK. -/
def answeredOp (o : CollOp) (t : Txn) (at_ : Nat) : CollOp :=
  let left := o.waiting.filter (fun w => w.1 != t.txid)
  { o with waiting := left, finished := left.isEmpty,
           buffer := if t.status = 0 ∧ !t.slots.isEmpty then memPut o.buffer at_ (t.slots.flatten) else o.buffer }

/-- The state with an answer taken, before its status is looked at. -/
def answerTaken (s : State) (n : Nat) (o : CollOp) (t : Txn) (at_ : Nat) : State :=
  (s.updOp n o.id (fun _ => answeredOp o t at_)).bump n pCol 2 (64 * t.slots.length)

/-- An answer without data, or that is not OK, leaves the buffer as it is. -/
theorem answeredOp_plain (h : ¬ (t.status = 0 ∧ t.slots ≠ [])) : answeredOp o t at_ =
    { o with waiting := o.waiting.filter (fun w => w.1 != t.txid), finished := (o.waiting.filter (fun w => w.1 != t.txid)).isEmpty } := by
  unfold answeredOp
  rw [if_neg (by simpa using h)]

/-- The data of an answer that is OK come to their place (R377, R388). -/
theorem answeredOp_data (hst : t.status = 0) (hs : t.slots ≠ []) : answeredOp o t at_ =
    { o with waiting := o.waiting.filter (fun w => w.1 != t.txid), finished := (o.waiting.filter (fun w => w.1 != t.txid)).isEmpty,
             buffer := memPut o.buffer at_ t.slots.flatten } := by
  unfold answeredOp
  rw [if_pos ⟨hst, by simpa using hs⟩]

theorem answerTaken_leaves : StaysIn n s (answerTaken s n o t at_) ∧ Frame [.counters, .domCol] s (answerTaken s n o t at_) ∧
    (answerTaken s n o t at_).counter n pCol 2 = s.counter n pCol 2 + w64 (64 * t.slots.length) ∧
    ((answerTaken s n o t at_).dom n).slabs = (s.dom n).slabs ∧
    ((answerTaken s n o t at_).dom n).col = { (s.dom n).col with ops := opsWith (s.dom n).col.ops o.id (fun _ => answeredOp o t at_) } := by
  refine ⟨(StaysIn.updOp s n _ _).trans (.bump ..), fr_bump (fr_updOp (fr_refl _ s) _ _ _ (by decide)) _ _ _ _ (by decide), counter_bump_self .., ?_, ?_⟩
  · rw [answerTaken, bump_dom, updOp_slabs]
  · rw [answerTaken, bump_dom, updOp_col]

section Waited

variable (hh : s.tagHolder t.ptag.toNat = some n) (ho : (s.dom n).col.ops.find? (fun p => p.waiting.any (fun w => w.1 == t.txid)) = some o)
  (hw : o.waiting.find? (fun w => w.1 == t.txid) = some (t.txid, at_))

include hh ho hw

theorem takeAnswer_eq : s.takeAnswer t = if t.status = 0 then answerTaken s n o t at_
    else ((answerTaken s n o t at_).opFails n (answeredOp o t at_) .fabricError).updDom n (fun x => x.updCol (fun c => c.record t.status t.src)) := by
  unfold State.takeAnswer
  rw [hh]
  dsimp only
  rw [ho]
  dsimp only
  rw [hw]
  rfl

/-- An answer with a failing status: its operation fails with FABRIC_ERROR, and the first such status is recorded (R388, R401). -/
theorem takeAnswer_failed (hst : t.status ≠ 0) :
    let u := s.takeAnswer t
    StaysIn n s u ∧ Frame [.counters, .domCol, .domSlabs] s u ∧
      (u.dom n).slabs = slabsWith (s.dom n).slabs o.order (fun b => { b with status := b.status.worse .fabricError }) ∧
      (u.dom n).col = ColDom.record { (s.dom n).col with
        ops := opsWith (s.dom n).col.ops o.id (fun _ => { answeredOp o t at_ with failed := true }) } t.status t.src := by
  obtain ⟨hstays, -, -, hslabs, hcol⟩ := answerTaken_leaves (s := s) (t := t) (n := n) (at_ := at_) (o := o)
  obtain ⟨hfstays, -, hfslabs, hfcol⟩ := opFails_leaves (answerTaken s n o t at_) n (answeredOp o t at_) .fabricError
  have hall : Frame [.counters, .domCol, .domSlabs] s (s.takeAnswer t) := fr_takeAnswer (fr_refl _ s) t (by decide)
  dsimp only
  rw [takeAnswer_eq hh ho hw, if_neg hst] at hall ⊢
  refine ⟨(hstays.trans hfstays).trans (.updDom ..), hall, ?_, ?_⟩
  · rw [dom_updDom_self]
    exact hfslabs.trans (congrArg (slabsWith · o.order _) hslabs)
  · rw [dom_updDom_self]
    show ColDom.record (((answerTaken s n o t at_).opFails n (answeredOp o t at_) .fabricError).dom n).col t.status t.src = _
    rw [hfcol, hcol]
    exact congrArg (fun l => ColDom.record { (s.dom n).col with ops := l } t.status t.src) (opsWith_opsWith _ o.id _ _ fun _ => rfl)

end Waited

end Answer

/-! ## Collective data (R380, R386, R388) -/

section Data

variable {s : State} {t : Txn} {n step : Nat} {ring : Bool} {o : CollOp} {sl : Slab}

/-- Data that wait for their slab or their step. -/
def dataKept (s : State) (n : Nat) (t : Txn) (step : Nat) (ring : Bool) : State :=
  s.updDom n (fun x => x.updCol (fun c => { c with early := c.early ++ [⟨t, step, ring, 0⟩] }))

theorem dataKept_leaves : OnlyDom s (dataKept s n t step ring) n ∧ Frame [.domCol] s (dataKept s n t step ring) ∧
    ((dataKept s n t step ring).dom n).col =
      { (s.dom n).col with early := (s.dom n).col.early ++ [{ txn := t, step := step, ring := ring, origin := 0 }] } := by
  refine ⟨(StaysIn.updDom n s _).only, fr_updDom (fr_refl _ s) n _ fun x => dfr_updCol (dfr_refl _ x) _ (by decide), ?_⟩
  rw [dataKept, dom_updDom_self]
  rfl

theorem collArrive_unheld (hh : s.tagHolder t.ptag.toNat = none) : (s.collArrive 0 t step ring).1 = s.rejectRemote t.ptag.toNat := by
  unfold State.collArrive
  rw [hh]

section Held

variable (hh : s.tagHolder t.ptag.toNat = some n)

include hh

theorem collArrive_unopened (hsl : (s.dom n).collSlab t.txid = none) : (s.collArrive 0 t step ring).1 = s.rejectRemote t.ptag.toNat := by
  unfold State.collArrive
  rw [hh]
  dsimp only
  rw [hsl]

variable (hsl : (s.dom n).collSlab t.txid = some sl)

include hsl

theorem collArrive_unstarted (ho : (s.dom n).collOp t.txid = none) : (s.collArrive 0 t step ring).1 = dataKept s n t step ring := by
  unfold State.collArrive
  rw [hh]
  dsimp only
  rw [hsl]
  dsimp only
  rw [ho]
  rfl

variable (ho : (s.dom n).collOp t.txid = some o) (hf : o.failed = false)

include ho hf

/-- Data for an operation that stands: by their step and their place in its chunk. -/
theorem collArrive_started : (s.collArrive 0 t step ring).1 =
    (let b := collBody sl.words
      let sub := (hdrOf sl.words).sub
      let cur := (o.at (bit01 ring)).1
      if step < cur ∨ !b.fits sub (bit01 ring) step t.addr t.slots.length then s.opFails n o .fabricError
      else if cur < step then dataKept s n t step ring
      else ((s.bump n pCol 2 (64 * t.slots.length)).updOp n b.id (fun y => y.take sub b (bit01 ring) t)).ringsRun n sub b) := by
  unfold State.collArrive
  rw [hh]
  dsimp only
  rw [hsl]
  dsimp only
  rw [ho]
  dsimp only
  rw [if_neg (by simp [hf])]
  split
  · rfl
  · split <;> rfl

end Held

end Data

theorem at_bit01 (o : CollOp) (ring : Bool) : (o.at (bit01 ring)).1 = if ring then o.step1 else o.step0 := by
  cases ring <;> rfl

/-- A collective that has waited too long (R401, R402). -/
theorem exec_colTimeout {s : State} {d : Fin 64} {id : W32} {o : CollOp} (ho : (s.dom d.val).collOp id = some o) (hsince : o.sinceTick ≠ 0)
    (hfin : o.finished = false) (hf : o.failed = false) (hlate : o.sinceTick + (s.dom d.val).col.timeout < s.tik.tick + 1) :
    exec (.colTimeout d id) s = .next ((s.opFails d.val o .peerLost).raiseDom pCol 0 d.val) := by
  show Host.Outcome.next _ = _
  rw [ho]
  exact congrArg Host.Outcome.next (if_pos ⟨hsince, by simp [hfin], by simp [hf], hlate⟩)

/-- The first failing status of a domain stays recorded (R401). -/
theorem record_valid (c : ColDom) (h : c.errValid = true) (status device : Nat) :
    (c.record status device).errStatus = c.errStatus ∧ (c.record status device).errDevice = c.errDevice ∧ (c.record status device).errValid = true := by
  rw [show c.record status device = c from if_pos h]
  exact ⟨rfl, rfl, h⟩

theorem record_first (c : ColDom) (h : c.errValid = false) (status device : Nat) :
    (c.record status device).errStatus = status ∧ (c.record status device).errDevice = device ∧ (c.record status device).errValid = true := by
  rw [show c.record status device = { c with errStatus := status, errDevice := device, errValid := true } from if_neg (by simp [h])]
  exact ⟨rfl, rfl, rfl⟩

theorem record_ops (c : ColDom) (status device : Nat) : (c.record status device).ops = c.ops := by
  unfold ColDom.record
  split <;> rfl

/-! ## The statement -/

/-- Settles O52: an answer by its status, collective data by what they find, a collective that waits by its lemma. -/
theorem answersAndCollectives : Obligations.AnswersAndCollectives := by
  unfold Obligations.AnswersAndCollectives
  intro s t d o step ring n c holds put marked failed fabricError data rejected
  refine ⟨fun at_ cmd hh hcmd ho hw => ?answer, fun hh => ?unheld, fun hh hsl => ?unopened, fun sl hh hsl => ⟨fun ho => ?unstarted, fun ho hf => ?started⟩,
    fun id ho hsince hfin hf hlate => ?timeout⟩
  case answer =>
    have hexec : exec cmd s = .next (s.takeAnswer t) := by
      rcases hcmd with rfl | rfl | rfl | rfl <;> rfl
    refine ⟨fun hst => ?_, fun hst => ?_⟩
    · obtain ⟨hstays, hframe, hcounter, -, hcol⟩ := answerTaken_leaves (s := s) (t := t) (n := n) (at_ := at_) (o := o)
      rw [takeAnswer_eq hh ho hw, if_pos hst] at hexec
      refine ⟨_, hexec, hstays.only, hframe, hcounter, fun hempty => hcol.trans ?_, fun hslots => hcol.trans ?_⟩
      · rw [answeredOp_plain (by simp [hempty])]
        rfl
      · rw [answeredOp_data hst hslots]
        rfl
    · obtain ⟨hstays, hframe, hslabs, hcol⟩ := takeAnswer_failed hh ho hw hst
      rw [answeredOp_plain (by simp [hst])] at hcol
      refine ⟨_, hexec, hstays.only, hframe, hslabs, ?_, fun hv => ?_, fun hv => ?_⟩
      · rw [hcol, record_ops]
        rfl
      · rw [hcol]
        refine record_valid _ ?_ _ _
        exact hv
      · rw [hcol]
        refine record_first _ ?_ _ _
        exact hv
  case unheld => exact ⟨_, congrArg Host.Outcome.next (collArrive_unheld hh), rejectRemote_frame .., rejectRemote_counter (by rw [hh]; rfl)⟩
  case unopened => exact ⟨_, congrArg Host.Outcome.next (collArrive_unopened hh hsl), rejectRemote_frame .., rejectRemote_counter (by rw [hh]; rfl)⟩
  case unstarted => exact ⟨_, congrArg Host.Outcome.next (collArrive_unstarted hh hsl ho), dataKept_leaves⟩
  case started =>
    have hexec : data _ := congrArg Host.Outcome.next (collArrive_started (step := step) (ring := ring) hh hsl ho hf)
    obtain ⟨hstays, hframe, hslabs, hcol⟩ := opFails_leaves s n o .fabricError
    dsimp only at hexec ⊢
    rw [at_bit01] at hexec
    refine ⟨fun hbad => ?_, fun hlater hfits => ?_, fun hnow hfits => ?_⟩
    · rw [if_pos (by simpa using hbad)] at hexec
      exact ⟨_, hexec, hstays.only, hframe, hslabs, hcol⟩
    · rw [if_neg (by simp [hfits, hlater.le]), if_pos hlater] at hexec
      exact ⟨_, hexec, dataKept_leaves⟩
    · rw [if_neg (by simp [hfits, hnow.ge]), if_neg hnow.not_gt] at hexec
      exact ⟨_, hexec, fr_ringsRun (fr_updOp (fr_bump (fr_refl _ s) _ _ _ _ (by decide)) _ _ _ (by decide)) _ _ _ (by decide)⟩
  case timeout =>
    obtain ⟨-, hframe, hslabs, hcol⟩ := opFails_leaves s n o .peerLost
    refine ⟨_, exec_colTimeout ho hsince hfin hf hlate, (raiseDom_dom_slabs ..).trans hslabs, (raiseDom_dom_col ..).trans hcol, ?_, fun hl => ?_⟩
    · exact fr_raiseDom (fr_mono hframe (by decide)) _ _ _ (by decide)
    · exact raiseDom_event _ pCol 0 n (by decide) ((live_of_frame hframe (by decide) n).trans hl)

end Sys2Proof.Proofs
